-- ==== Sys2Proof/Word.lean ====
section
/-!
DEFINITION. The small types the block's commands and state are written in: quays, channels, ports, requesters, ledger
writes, sparse maps and pairs (R11, R12, R384 to R390).
-/
namespace Sys2Proof

/-- One byte of a memory, a frame or a message. -/
abbrev Byte := BitVec 8

/-- A sparse map from keys to raw values: strictly rising keys, no entry equal to the default of its key. -/
abbrev SMap := List (Nat × Nat)

/-- The two control domains (chapter 7). -/
inductive Quay where
  | a | b
  deriving DecidableEq, Repr, Inhabited

/-- The other quay. -/
def Quay.other : Quay → Quay
  | .a => .b
  | .b => .a

/-- The code of a quay where the ledger names a token holder: 1 Quay A, 2 Quay B (`OWNER`). -/
def Quay.code : Quay → Nat
  | .a => 1
  | .b => 2

/-- The two CAN FD channels (chapter 11). -/
inductive Bus where
  | one | two
  deriving DecidableEq, Repr, Inhabited

/-- Channel number less one: the offset of a channel's ledger index. -/
def Bus.idx : Bus → Nat
  | .one => 0
  | .two => 1

/-- The other channel. -/
def Bus.other : Bus → Bus
  | .one => .two
  | .two => .one

/-- Bring-up phases (R516). -/
inductive Phase where
  | dark | lights | opened
  deriving DecidableEq, Repr, Inhabited

/-- Code of a phase in 0x1000.06 `PHASE` (R413). -/
def Phase.code : Phase → Nat
  | .dark => 0
  | .lights => 1
  | .opened => 2

/-- Power modes (R7, R520). -/
inductive Power where
  | full | slack | moored | off
  deriving DecidableEq, Repr, Inhabited

/-- The port a ledger request came in on (R386). -/
inductive Port where
  | can (c : Bus)
  | spi
  deriving DecidableEq, Repr, Inhabited

/-- Who asks: the port, the bus node (used on CAN only) and the TAG of the message (R387, R402). -/
structure Req where
  port : Port
  node : Nat
  tag  : Nat
  deriving DecidableEq, Repr, Inhabited

/-- A requester's number: its bus node, the same on both channels, or 128 for the SPI host (R402, R264). -/
def Req.id (q : Req) : Nat :=
  match q.port with
  | .can _ => q.node
  | .spi => 128

/-- A ledger write as it reaches an entry: the requester, the data length of the message and the little-endian value (R12). -/
structure Wr where
  req : Req
  len : Nat
  val : Nat
  deriving DecidableEq, Repr, Inhabited

/-- One value per quay. -/
structure PerQuay (α : Type) where
  a : α
  b : α
  deriving DecidableEq, Repr, Inhabited

def PerQuay.get {α : Type} (p : PerQuay α) : Quay → α
  | .a => p.a
  | .b => p.b

def PerQuay.set {α : Type} (p : PerQuay α) (q : Quay) (v : α) : PerQuay α :=
  match q with
  | .a => { p with a := v }
  | .b => { p with b := v }

/-- One value per channel. -/
structure PerBus (α : Type) where
  one : α
  two : α
  deriving DecidableEq, Repr, Inhabited

def PerBus.get {α : Type} (p : PerBus α) : Bus → α
  | .one => p.one
  | .two => p.two

def PerBus.set {α : Type} (p : PerBus α) (c : Bus) (v : α) : PerBus α :=
  match c with
  | .one => { p with one := v }
  | .two => { p with two := v }

/-- A ledger request as a command gives it (R387): the requester, the entry, and the data bytes of the operation. -/
structure Ask where
  req   : Req
  index : Nat
  sub   : Nat
  data  : List Nat
  deriving DecidableEq, Repr, Inhabited

/-- An edge that couples into the array: the priority of its source in R18 (1 to 9), the position asked for or granted,
and whose edge it is (0: a source whose edges the model takes as given; 1 to 16: the outputs of chapter 9). -/
structure Edge where
  src : Nat
  pos : Nat
  who : Nat
  on  : Bool
  deriving DecidableEq, Repr, Inhabited

/-- A CAN frame (R354, R361): identifier, FD or classic, data bytes; `ext` for a 29-bit or remote frame. -/
structure CanFrame where
  id   : Nat
  fd   : Bool
  data : List Nat
  ext  : Bool
  deriving DecidableEq, Repr, Inhabited

/-- How a transmission ended without success (R377): lost arbitration, or an error of the code of `LAST_ERROR`. -/
inductive TxError where
  | lostArbitration
  | error (code : Nat)
  deriving DecidableEq, Repr, Inhabited

/-- A protocol error while receiving (R360, R382): its `LAST_ERROR` code, or an FD frame that met `FD_ENABLE` 0. -/
inductive RxError where
  | error (code : Nat)
  | fdException
  deriving DecidableEq, Repr, Inhabited

/-- The PLLs of R15. -/
inductive Pll where
  | pipeline | pilot | dram | bus | dphy
  deriving DecidableEq, Repr, Inhabited

/-- What the focal plane and the power die bring to one row slot (R17, R18, R53, R77, R121): the conversions made in the
slot of the row that integrated in the slot before, by the columns and by the 64 spares (bit 15 SAT, bits 13:0 CODE); the
coefficient and shadow-plane code words of the row corrected in the slot that read uncorrectable (R121); whether the
pipeline could not fetch that row's coefficients in time (R120); the columns of that row whose previous-store, fill-store or
blind coefficient read was uncorrectable (R123); those whose accumulation-plane word was (R148); the columns
of the image line sent in the slot whose out-store code word was (R438); the byte address of such a code word in the VC2 line of
the slot (R438); and the edges asked of the slot's window by the sources whose edges the model takes as given. -/
structure RowIn where
  raw      : List Nat
  spare    : List Nat
  ueCoef   : List Nat
  ueShadow : List Nat
  late     : Bool
  uePrev   : List Nat
  ueFill   : List Nat
  ueBlind  : List Nat
  ueSum    : List Nat
  ueOut    : List Nat
  uePlane  : Option Nat
  edges    : List Edge
  deriving DecidableEq, Repr, Inhabited

/-- What scrubbing finds in a code word (R440, R441): an error corrected, an MRAM error corrected in 2 bits, a weak MRAM cell
that only the margin read shows, or an uncorrectable word. -/
inductive ScrubKind where
  | corrected | double | weak | uncorrectable
  deriving DecidableEq, Repr, Inhabited

/-- One finding of the dredger or of margin refresh: the memory (R436), the byte address, and whether a newer write dropped
the writeback. -/
structure Scrub where
  mem     : Nat
  addr    : Nat
  kind    : ScrubKind
  dropped : Bool
  deriving DecidableEq, Repr, Inhabited

/-- What slot 2064 and the blanking after it bring (R65, R85, R440): 16 band readings in µK, none where the conversion failed;
the resistance at SHUT_NTC in Ω; the level at SHUT_POS in mV; VHOLD in mV for the drivers (R302); what scrubbing found; and the
laps completed, as memory and time in ms. -/
structure CloseIn where
  bands : List (Option Nat)
  ntc   : Nat
  pos   : Nat
  vin   : Nat
  scrub : List Scrub
  laps  : List (Nat × Nat)
  deriving DecidableEq, Repr, Inhabited

/-- What the power die and the pads bring to a control tick (R300, R309, R314, R344): DI1 to DI8 in mV; for the sixteen
outputs the load current averaged over 1 s in 0.1 mA and whether a current limit acted; for the two fan channels output mV,
output mA and whether the average current limit acts. -/
structure TickIn where
  di    : List Nat
  cur   : List Nat
  lim   : List Bool
  vout  : List Nat
  iout  : List Nat
  ilim  : List Bool
  save  : Option (Nat × List Nat)  -- what the active pilot stages for a quick-save (R426): FORMAT and content
  late  : Bool                     -- the tick before had not completed its loops and checkpoint when this one began (R265)
  deriving DecidableEq, Repr, Inhabited

/-- The outcome of a read of a module's identity memory (R349): its 256 bytes, a failed read, or SDA held low. -/
inductive IdRead where
  | bytes (b : List Nat)
  | failed
  | stuck
  deriving DecidableEq, Repr, Inhabited

/-- Which of the two VIN feeds (R508). -/
inductive Feed where
  | a | b
  deriving DecidableEq, Repr, Inhabited

/-- Why the harbourmaster holds or restarts the device (R413): the codes of `RESET_CAUSE`. -/
inductive ResetCause where
  | powerUp | vote | keys | command
  deriving DecidableEq, Repr, Inhabited

def ResetCause.code : ResetCause → Nat
  | .powerUp => 0
  | .vote => 1
  | .keys => 2
  | .command => 3

end Sys2Proof
end

