-- ==== Sys2Proof/Syntax.lean ====
section
/-!
DEFINITION. The commands of the block: one constructor per row of spec/opcode_table.json, with the row's operands. A ledger
write carries a `Wr` (requester, data length, value); an event carries what the outside world brings with it.
-/
namespace Sys2Proof

/-- The commands of the Alagraor DX52 (the rows of the opcode table). -/
inductive Instr where
  /-- POWER_DIE_START (R516). -/
  | powerDieStart (testEn : Bool)
  /-- TIDE_START (R24). -/
  | tideStart
  /-- MASTER_START_TIMEOUT (R24). -/
  | masterStartTimeout
  /-- BOOT_VERIFY_DONE (R528). -/
  | bootVerifyDone
  /-- LIGHTS_ENTRY (R516). -/
  | lightsEntry
  /-- LIGHTS_OWNER_TIMEOUT (R518). -/
  | lightsOwnerTimeout
  /-- FACTORY_DECOMPRESSION_DONE (R96). -/
  | factoryDecompressionDone (bad : List Nat)
  /-- PLL_LOCK (R16). -/
  | pllLock (p : Pll)
  /-- PLL_UNLOCK (R16). -/
  | pllUnlock (p : Pll)
  /-- ROW_SLOT (R17). -/
  | rowSlot (i : RowIn)
  /-- COEF_RELOAD_DONE (R122). -/
  | coefReloadDone (shadow : Bool) (word : Nat)
  /-- FRAME_BOUNDARY (R17). -/
  | frameBoundary
  /-- SETTLING_END (R50). -/
  | settlingEnd
  /-- GAIN_CHANGE (R57). -/
  | gainChange
  /-- NEW_EPOCH (R30). -/
  | newEpoch
  /-- FRAME_CLOSE (R20). -/
  | frameClose (i : CloseIn)
  /-- GRADIENT_CLEAR (R69). -/
  | gradientClear (n : Nat)
  /-- BAND_SENSOR_EXCLUDED (R71). -/
  | bandSensorExcluded (n : Nat)
  /-- CONVERTER_SELF_TEST (R76). -/
  | converterSelfTest (codes : List Nat)
  /-- BERTH_ALARM_RAISE (R183). -/
  | berthAlarmRaise (n : Nat)
  /-- BERTH_ALARM_CLEAR (R183). -/
  | berthAlarmClear (n : Nat)
  /-- BERTH_OCCUPIED (R186). -/
  | berthOccupied (n : Nat)
  /-- BERTH_VACANT (R186). -/
  | berthVacant (n : Nat)
  /-- TABLE_PUBLICATION (R187). -/
  | tablePublication
  /-- CONTROL_TICK (R32). -/
  | controlTick (i : TickIn)
  /-- HEARTBEAT_REQUEST (R231). -/
  | heartbeatRequest
  /-- HEARTBEAT_STROBE (R231). -/
  | heartbeatStrobe (q : Quay) (t : Nat)
  /-- HEARTBEAT_WINDOW_END (R231). -/
  | heartbeatWindowEnd
  /-- SELF_CHECK_RESPONSE (R232). -/
  | selfCheckResponse (q : Quay) (value : Nat)
  /-- SELF_CHECK_TIMEOUT (R232). -/
  | selfCheckTimeout (q : Quay)
  /-- WATCHDOG_RESTART (R233). -/
  | watchdogRestart (q : Quay)
  /-- WATCHDOG_EXPIRY (R233). -/
  | watchdogExpiry (q : Quay)
  /-- QUAY_CLOCK_FAULT (R38). -/
  | quayClockFault (q : Quay)
  /-- QUAY_RAIL_FAULT (R41). -/
  | quayRailFault (q : Quay)
  /-- PILOT_MEMORY_ERROR (R244). -/
  | pilotMemoryError (q : Quay) (m addr : Nat)
  /-- MEMORY_RETRY_OUTCOME (R244). -/
  | memoryRetryOutcome (q : Quay) (ok : Bool)
  /-- HM_VOTE_MISMATCH (R223). -/
  | hmVoteMismatch (copy : Nat) (agree : Bool)
  /-- WHARF_WRITE (R221). -/
  | wharfWrite (q : Quay) (out v : Nat)
  /-- CHECKPOINT_ARRIVAL (R235). -/
  | checkpointArrival (good : Bool) (len : Nat)
  /-- TAKEOVER_COMPLETE (R237). -/
  | takeoverComplete (t : Nat)
  /-- TAKEOVER_TIMEOUT (R238). -/
  | takeoverTimeout
  /-- QUAY_RESET_RELEASE (R228). -/
  | quayResetRelease (q : Quay)
  /-- QUAY_SELF_TEST_DONE (R228). -/
  | quaySelfTestDone (q : Quay) (pass : Bool)
  /-- PASS_HOLD_TIMEOUT (R228). -/
  | passHoldTimeout (q : Quay)
  /-- QUAY_SYNC_DONE (R228). -/
  | quaySyncDone (q : Quay)
  /-- SALVAGE_AFTER_FAILOVER (R256). -/
  | salvageAfterFailover
  /-- STORM_AUTO_EXIT (R254). -/
  | stormAutoExit
  /-- HM_SWAP (R241). -/
  | hmSwap (r : Req)
  /-- HM_REJOIN_TEST (R227). -/
  | hmRejoinTest (r : Req)
  /-- HM_STORM_EXIT (R254). -/
  | hmStormExit (r : Req)
  /-- HM_STORM_ENTER (R227). -/
  | hmStormEnter (r : Req)
  /-- HM_RETIRE_A (R227). -/
  | hmRetireA (r : Req)
  /-- HM_RETIRE_B (R227). -/
  | hmRetireB (r : Req)
  /-- HM_CLEAR_COUNTS (R227). -/
  | hmClearCounts (r : Req)
  /-- STORM_VALUE_WRITE (R249). -/
  | stormValueWrite (n : Nat) (w : Wr)
  /-- SALVAGE_RELEASE (R255). -/
  | salvageRelease (w : Wr)
  /-- MASTER_CLOCK_LOSS (R35). -/
  | masterClockLoss
  /-- PLL_RELOCK (R35). -/
  | pllRelock
  /-- RC_TRIM (R36). -/
  | rcTrim (err : Int)
  /-- CLOCK_RETURN (R40). -/
  | clockReturn
  /-- SUN_HOLD_EXPIRY (R64). -/
  | sunHoldExpiry (n : Nat)
  /-- INTERVAL_EXPIRY (R140). -/
  | intervalExpiry
  /-- BRING_UP_TRIGGER (R140). -/
  | bringUpTrigger
  /-- CAL_CYCLE (R138). -/
  | calCycle (r : Req)
  /-- CAL_CYCLE_REF (R138). -/
  | calCycleRef (r : Req)
  /-- CAL_ABORT (R138). -/
  | calAbort (r : Req)
  /-- CAL_QUALIFY_SPARES (R161). -/
  | calQualifySpares (r : Req)
  /-- CAL_SHUTTER_TEST (R166). -/
  | calShutterTest (r : Req)
  /-- CAL_LOAD_FACTORY (R138). -/
  | calLoadFactory (r : Req)
  /-- CHAMBER_FILL_DONE (R152). -/
  | chamberFillDone
  /-- SPARE_QUALIFICATION_DONE (R161). -/
  | spareQualificationDone (sums : List (List Nat)) (codes : List Nat)
  /-- RESTORE_TIMEOUT (R157). -/
  | restoreTimeout
  /-- OUT_FRAME_READ_TIMEOUT (R98). -/
  | outFrameReadTimeout
  /-- GAIN_MODE_WRITE (R57). -/
  | gainModeWrite (w : Wr)
  /-- RATE_MODE_WRITE (R31). -/
  | rateModeWrite (w : Wr)
  /-- IMAGER_MODE_WRITE (R127). -/
  | imagerModeWrite (w : Wr)
  /-- OUTPUT_FORM_WRITE (R126). -/
  | outputFormWrite (w : Wr)
  /-- FILTER_SHIFT_WRITE (R107). -/
  | filterShiftWrite (w : Wr)
  /-- LENS_WRITE (R112). -/
  | lensWrite (n : Nat) (w : Wr)
  /-- GRADIENT_LIMIT_WRITE (R67). -/
  | gradientLimitWrite (n : Nat) (w : Wr)
  /-- GROUP_STATE_WRITE (R81). -/
  | groupStateWrite (n : Nat) (w : Wr)
  /-- BERTH_ENTRY_WRITE (R172). -/
  | berthEntryWrite (n sub : Nat) (w : Wr)
  /-- EDIT_HOLD_WRITE (R173). -/
  | editHoldWrite (w : Wr)
  /-- VIDEO_ENABLE_WRITE (R206). -/
  | videoEnableWrite (w : Wr)
  /-- STREAM_START (R206). -/
  | streamStart
  /-- VIDEO_LINK_WRITE (R205). -/
  | videoLinkWrite (n : Nat) (w : Wr)
  /-- VC2_REQUEST_WRITE (R213). -/
  | vc2RequestWrite (w : Wr)
  /-- OUT_COMMAND_WRITE (R298). -/
  | outCommandWrite (n : Nat) (w : Wr)
  /-- OUT_MODE_WRITE (R303). -/
  | outModeWrite (n : Nat) (w : Wr)
  /-- LOOP_MODE_WRITE (R276). -/
  | loopModeWrite (n : Nat) (w : Wr)
  /-- LOOP_TARGET_WRITE (R276). -/
  | loopTargetWrite (n : Nat) (w : Wr)
  /-- PV_SOURCE_WRITE (R272). -/
  | pvSourceWrite (l : Nat) (backup : Bool) (w : Wr)
  /-- ZONE_OVERRIDE_WRITE (R279). -/
  | zoneOverrideWrite (n : Nat) (w : Wr)
  /-- OVERRIDE_EXPIRY (R279). -/
  | overrideExpiry (n : Nat)
  /-- PRESENCE_HOLD_EXPIRY (R280). -/
  | presenceHoldExpiry (n : Nat)
  /-- SWITCH_POINT_WRITE (R282). -/
  | switchPointWrite (p j : Nat) (w : Wr)
  /-- EXCEPTION_DATE_WRITE (R286). -/
  | exceptionDateWrite (n : Nat) (w : Wr)
  /-- PROGRAM_EVALUATION (R283). -/
  | programEvaluation
  /-- MASTER_SILENT_EXPIRY (R288). -/
  | masterSilentExpiry
  /-- OUTPUT_TRIP (R310). -/
  | outputTrip (n : Nat) (short : Bool)
  /-- OUTPUT_TRIP_RESUME (R310). -/
  | outputTripResume (n : Nat)
  /-- THERMAL_SHUTDOWN (R311). -/
  | thermalShutdown (temp : Nat)
  /-- THERMAL_RESUME (R311). -/
  | thermalResume
  /-- FLOATING_OVERDRIVE_END (R303). -/
  | floatingOverdriveEnd (n : Nat)
  /-- VALVE_PEAK_END (R304). -/
  | valvePeakEnd (n : Nat)
  /-- FAN_COMMAND_WRITE (R315). -/
  | fanCommandWrite (n : Nat) (w : Wr)
  /-- FAN_BAND_WRITE (R317). -/
  | fanBandWrite (c j : Nat) (w : Wr)
  /-- FAN_ILIMIT_WRITE (R318). -/
  | fanIlimitWrite (n : Nat) (w : Wr)
  /-- FAN_TUG_END (R325). -/
  | fanTugEnd (n : Nat)
  /-- FAN_WAIT_END (R325). -/
  | fanWaitEnd (n : Nat)
  /-- FAN_STALL_RETRY (R325). -/
  | fanStallRetry (n : Nat)
  /-- FAN_SHORT (R318). -/
  | fanShort (n : Nat)
  /-- FAN_SHORT_OFF_END (R325). -/
  | fanShortOffEnd (n : Nat)
  /-- TACH_EDGE (R322). -/
  | tachEdge (n t : Nat)
  /-- TACH_STOP (R322). -/
  | tachStop (n : Nat)
  /-- RIPPLE_WINDOW_END (R326). -/
  | rippleWindowEnd (n events : Nat)
  /-- RPM_LEARN (R323). -/
  | rpmLearn (n : Nat)
  /-- ADC_ENTRY_END (R333). -/
  | adcEntryEnd (ch sum : Nat) (ovr : Bool)
  /-- ADC_CONTINUOUS_ROUND (R332). -/
  | adcContinuousRound
  /-- URGENT_REQUEST_WRITE (R340). -/
  | urgentRequestWrite (w : Wr)
  /-- ADC_CAL_COMMAND (R341). -/
  | adcCalCommand (r : Req)
  /-- ADC_SELF_CAL_DONE (R162). -/
  | adcSelfCalDone (gains offsets : List Int) (residual : Nat)
  /-- ADC_FACTOR_WRITE (R342). -/
  | adcFactorWrite (n : Nat) (w : Wr)
  /-- AI_CONFIG_WRITE (R337). -/
  | aiConfigWrite (ch sub : Nat) (w : Wr)
  /-- DI_STUCK (R346). -/
  | diStuck (n : Nat)
  /-- DI_CHATTER_WINDOW_END (R347). -/
  | diChatterWindowEnd (n : Nat)
  /-- ID_READER_START (R349). -/
  | idReaderStart
  /-- MOD_DET_CHANGE (R349). -/
  | modDetChange (slot : Nat) (on : Bool)
  /-- ID_POLL (R348). -/
  | idPoll (ack : Nat)
  /-- ID_READ_DONE (R349). -/
  | idReadDone (slot : Nat) (r : IdRead)
  /-- ID_READ_RETRY (R349). -/
  | idReadRetry (n : Nat)
  /-- ID_FAULT_RETRY (R349). -/
  | idFaultRetry (n : Nat)
  /-- ID_REREAD_WRITE (R353). -/
  | idRereadWrite (w : Wr)
  /-- SLOT_BIND_WRITE (R353). -/
  | slotBindWrite (n : Nat) (w : Wr)
  /-- BUS_MODE_WRITE (R359). -/
  | busModeWrite (c : Bus) (w : Wr)
  /-- BUS_MODE_APPLY (R359). -/
  | busModeApply (c : Bus)
  /-- BUS_INTEGRATED (R359). -/
  | busIntegrated (c : Bus)
  /-- BUS_PROBE_END (R360). -/
  | busProbeEnd (c : Bus)
  /-- BUS_TIMING_WRITE (R381). -/
  | busTimingWrite (c : Bus) (sub : Nat) (w : Wr)
  /-- TRIPLE_SAMPLE_WRITE (R356). -/
  | tripleSampleWrite (c : Bus) (w : Wr)
  /-- CAN_FRAME_RECEIVED (R367). -/
  | canFrameReceived (c : Bus) (f : CanFrame) (stamp : Nat)
  /-- CAN_TX_COMPLETE (R366). -/
  | canTxComplete (c : Bus) (stamp : Nat)
  /-- CAN_TX_ERROR (R377). -/
  | canTxError (c : Bus) (e : TxError)
  /-- BUSOFF_RECOVERY_DONE (R378). -/
  | busoffRecoveryDone (c : Bus)
  /-- BW_HOLD_EXPIRY (R374). -/
  | bwHoldExpiry (n : Nat)
  /-- BW_SUMMARY (R375). -/
  | bwSummary
  /-- DEVICE_HEARTBEAT (R406). -/
  | deviceHeartbeat
  /-- NET_HEARTBEAT_NOW (R407). -/
  | netHeartbeatNow (c : Bus)
  /-- NET_LOCK_ALL (R407). -/
  | netLockAll (c : Bus)
  /-- NET_QUIET (R407). -/
  | netQuiet (c : Bus)
  /-- QUIET_END (R407). -/
  | quietEnd
  /-- NET_TIME_REQUEST (R407). -/
  | netTimeRequest (c : Bus)
  /-- KLP_READ (R388). -/
  | klpRead (a : Ask)
  /-- KLP_WRITE (R388). -/
  | klpWrite (key : Nat) (w : Wr)
  /-- COMPACTION_DONE (R422). -/
  | compactionDone (ok : Bool)
  /-- SEG_READ_START (R399). -/
  | segReadStart (a : Ask)
  /-- SEG_READ (R399). -/
  | segRead (a : Ask)
  /-- SEG_WRITE_START (R399). -/
  | segWriteStart (a : Ask)
  /-- SEG_WRITE (R399). -/
  | segWrite (a : Ask)
  /-- SEG_ABORT (R399). -/
  | segAbort (a : Ask)
  /-- SEG_STREAM (R401). -/
  | segStream (a : Ask)
  /-- TRANSFER_IDLE_TIMEOUT (R399). -/
  | transferIdleTimeout (id key : Nat)
  /-- UNLOCK (R402). -/
  | unlock (a : Ask)
  /-- UNLOCK_LOCKOUT_END (R402). -/
  | unlockLockoutEnd (n : Nat)
  /-- LOCK (R403). -/
  | lock (a : Ask)
  /-- SESSION_TIMEOUT (R403). -/
  | sessionTimeout (n : Nat)
  /-- KLP_HEARTBEAT (R405). -/
  | klpHeartbeat (a : Ask)
  /-- MANIFEST (R411). -/
  | manifest (a : Ask)
  /-- ECHO (R388). -/
  | echo (a : Ask)
  /-- KLP_RESPONSE_ABANDON (R393). -/
  | klpResponseAbandon (c : Bus)
  /-- SPI_REQUEST_TRANSACTION (R395). -/
  | spiRequestTransaction (bytes : List Nat)
  /-- SPI_RESPONSE_READ (R396). -/
  | spiResponseRead (n : Nat)
  /-- IRQ_CLEAR_WRITE (R408). -/
  | irqClearWrite (w : Wr)
  /-- RESET_COMMAND_WRITE (R415). -/
  | resetCommandWrite (w : Wr)
  /-- DEVICE_RESET (R415). -/
  | deviceReset
  /-- NV_WREN (R429). -/
  | nvWren
  /-- NV_WRDI (R429). -/
  | nvWrdi
  /-- NV_RDSR (R430). -/
  | nvRdsr (n : Nat)
  /-- NV_WRSR (R430). -/
  | nvWrsr (b : Nat)
  /-- NV_READ (R431). -/
  | nvRead (addr n : Nat)
  /-- NV_FAST_READ (R431). -/
  | nvFastRead (addr n : Nat)
  /-- NV_WRITE (R432). -/
  | nvWrite (addr : Nat) (bytes : List Nat) (cont : Bool)
  /-- NV_RDER (R429). -/
  | nvRder (n : Nat)
  /-- NV_CLER (R429). -/
  | nvCler
  /-- NV_RDID (R429). -/
  | nvRdid (n : Nat)
  /-- BUCKET_LEAK (R439). -/
  | bucketLeak (n : Nat)
  /-- LOG_RECORD_WRITE (R447). -/
  | logRecordWrite
  /-- LOG_STREAM_SEND (R456). -/
  | logStreamSend
  /-- LOG_CLEAR_WRITE (R457). -/
  | logClearWrite (w : Wr)
  /-- LOG_CURSOR_WRITE (R454). -/
  | logCursorWrite (w : Wr)
  /-- VAON_LOSS (R463). -/
  | vaonLoss (vbak : Nat)
  /-- VAON_RETURN (R463). -/
  | vaonReturn
  /-- VBAK_DROP (R463). -/
  | vbakDrop
  /-- VBAK_RETURN (R463). -/
  | vbakReturn
  /-- BRIDGE_TIMEOUT (R463). -/
  | bridgeTimeout
  /-- MOORING_DOMAIN_START (R464). -/
  | mooringDomainStart (main : Bool)
  /-- XTAL32_STOP (R465). -/
  | xtal32Stop
  /-- XTAL32_RETURN (R465). -/
  | xtal32Return
  /-- DATE_TIME_WRITE (R470). -/
  | dateTimeWrite (w : Wr)
  /-- CALENDAR_OFFSET_WRITE (R471). -/
  | calendarOffsetWrite (w : Wr)
  /-- SUBSEC_SHIFT_WRITE (R472). -/
  | subsecShiftWrite (w : Wr)
  /-- SUBSEC_SLEW_DONE (R472). -/
  | subsecSlewDone
  /-- DST_FORWARD (R473). -/
  | dstForward (r : Req)
  /-- DST_BACK (R473). -/
  | dstBack (r : Req)
  /-- CALENDAR_SECOND (R475). -/
  | calendarSecond
  /-- ALARM_MATCH_WRITE (R474). -/
  | alarmMatchWrite (n : Nat) (w : Wr)
  /-- ALARM_STATUS_WRITE (R480). -/
  | alarmStatusWrite (n : Nat) (w : Wr)
  /-- TRIM_WINDOW (R477). -/
  | trimWindow (temp : Int) (vbak : Nat)
  /-- TIME_FRAME_SEND (R478). -/
  | timeFrameSend
  /-- DRIVE_FRAME (R483). -/
  | driveFrame (ok : Bool)
  /-- DRIVE_FAULT (R495). -/
  | driveFault
  /-- DRIVE_RAIL_RECOVERED (R495). -/
  | driveRailRecovered
  /-- PANEL_TEMP_FALLBACK (R487). -/
  | panelTempFallback
  /-- FRAME_MEMORY_CHECK (R493). -/
  | frameMemoryCheck (ok : Bool)
  /-- REGION_UPDATE_WRITE (R490). -/
  | regionUpdateWrite (w : Wr)
  /-- REGION_CELLS_WRITE (R488). -/
  | regionCellsWrite (n : Nat) (w : Wr)
  /-- PANEL_MODE_CHANGE (R496). -/
  | panelModeChange
  /-- STORM_PATTERN_TOGGLE (R497). -/
  | stormPatternToggle
  /-- KEY_SCAN (R501). -/
  | keyScan (closed : Nat)
  /-- KEY_REPEAT (R502). -/
  | keyRepeat (n : Nat)
  /-- KEY_LONG (R502). -/
  | keyLong (n : Nat)
  /-- KEY_STUCK (R504). -/
  | keyStuck (n : Nat)
  /-- KEY_RESET (R505). -/
  | keyReset
  /-- FEED_ABSENT (R509). -/
  | feedAbsent (f : Feed)
  /-- FEED_PRESENT (R509). -/
  | feedPresent (f : Feed)
  /-- FEED_OVERVOLTAGE (R508). -/
  | feedOvervoltage (f : Feed)
  /-- PFAIL (R513). -/
  | pfail (us : Nat)
  /-- UVLO (R513). -/
  | uvlo (cell : Bool)
  /-- BROWNOUT (R515). -/
  | brownout
  /-- SHARED_RAIL_FAULT (R511). -/
  | sharedRailFault
  /-- SHARED_RAIL_RECOVERED (R511). -/
  | sharedRailRecovered
  /-- PFAIL_LEVEL_WRITE (R512). -/
  | pfailLevelWrite (w : Wr)
  /-- POWER_REQUEST_WRITE (R523). -/
  | powerRequestWrite (w : Wr)
  /-- SLACK_ENTRY (R521). -/
  | slackEntry
  /-- WAKE_HOLD_END (R523). -/
  | wakeHoldEnd
  /-- SLIP_VERIFY_DONE (R530). -/
  | slipVerifyDone
  /-- SLIP_WRITE_DONE (R530). -/
  | slipWriteDone (ok : Bool)
  /-- SLIP_LOAD_STANDBY (R531). -/
  | slipLoadStandby (r : Req)
  /-- SLIP_LOAD_DONE (R530). -/
  | slipLoadDone
  /-- SLIP_SWAP (R532). -/
  | slipSwap (r : Req)
  /-- SLIP_COMMIT (R530). -/
  | slipCommit (r : Req)
  /-- SLIP_ROLLBACK (R533). -/
  | slipRollback (r : Req)
  /-- SLIP_ABORT (R530). -/
  | slipAbort (r : Req)
  /-- SLIP_INSTALL_RESET (R531). -/
  | slipInstallReset (r : Req)
  /-- PROBATION_END (R533). -/
  | probationEnd
  /-- JTAG_BYPASS (R556). -/
  | jtagBypass
  /-- JTAG_IDCODE (R556). -/
  | jtagIdcode
  /-- JTAG_SAMPLE_PRELOAD (R556). -/
  | jtagSamplePreload
  /-- JTAG_EXTEST (R556). -/
  | jtagExtest
  /-- JTAG_HIGHZ (R556). -/
  | jtagHighz
  /-- JTAG_CLAMP (R556). -/
  | jtagClamp
  /-- TRST_ASSERT (R556). -/
  | trstAssert
  /-- MAINS_MODE_WRITE (R44). -/
  | mainsModeWrite (w : Wr)
  /-- ZC_PULSE (R43). -/
  | zcPulse (t0 t1 : Nat)
  /-- MAINS_CROSSING_MISSED (R44). -/
  | mainsCrossingMissed
  /-- HOLDOVER_EXPIRY (R44). -/
  | holdoverExpiry
  /-- REGISTER_WRITE (R386). -/
  | registerWrite (key : Nat) (w : Wr)
  /-- PROTOCOL_ERROR (R360). -/
  | protocolError (c : Bus) (e : RxError)
  /-- KLP_FRAME_GAP_TIMEOUT (R393). -/
  | klpFrameGapTimeout (c : Bus) (peer : Nat)
  /-- FEED_OVERVOLTAGE_END (R508). -/
  | feedOvervoltageEnd (f : Feed)
  /-- QUAY_FAIL_WINDOW_EXPIRY (R230). -/
  | quayFailWindowExpiry (q : Quay)
  deriving DecidableEq, Repr

end Sys2Proof
end

