-- ==== Sys2Proof/Decode.lean ====
section
/-!
DEFINITION. Commands as words. No row of spec/opcode_table.json gives a command bits (every row's list of fields is empty), so no
word spells a command: the block's commands are ledger requests, serial transactions and events of its environment, whose operands
`Instr` holds.
-/
namespace Sys2Proof

/-- The command that a word spells by the table's bits: none, since no row gives bits. -/
def decodeTableWord (_nbits _w : Nat) : Option Instr := none

end Sys2Proof
end

