-- ==== Sys2Proof/Machine/Bits.lean ====
section
/-!
DEFINITION. Bit fields, two's complement, little-endian byte lists, clamps and saturating counts over raw values (R11, R12).
-/
namespace Sys2Proof

/-- Bit `i` of a raw value. -/
def bitAt (v i : Nat) : Bool := v / 2 ^ i % 2 == 1

/-- The value with bit `i` set. -/
def bitOn (v i : Nat) : Nat := if bitAt v i then v else v + 2 ^ i

/-- The value with bit `i` cleared. -/
def bitOff (v i : Nat) : Nat := if bitAt v i then v - 2 ^ i else v

/-- The value with bit `i` at `b`. -/
def bitPut (v i : Nat) (b : Bool) : Nat := if b then bitOn v i else bitOff v i

/-- Field of `w` bits whose lowest bit is `lo`. -/
def field (v lo w : Nat) : Nat := v / 2 ^ lo % 2 ^ w

/-- 0 or 1. -/
def b2n (b : Bool) : Nat := if b then 1 else 0

/-- The `n` little-endian bytes of a value (R12). -/
def leBytes : Nat → Nat → List Nat
  | 0, _ => []
  | n + 1, v => v % 256 :: leBytes n (v / 256)

/-- The value of little-endian bytes (R12). -/
def leValue : List Nat → Nat
  | [] => 0
  | b :: t => b % 256 + 256 * leValue t

/-- Two's-complement reading of a raw value of `w` bits (R11). -/
def toSigned (w v : Nat) : Int :=
  if v < 2 ^ (w - 1) then (v : Int) else (v : Int) - (2 ^ w : Nat)

/-- Raw bits of an integer in `w` bits, wrapping (R11). -/
def ofSigned (w : Nat) (i : Int) : Nat := (i % ((2 ^ w : Nat) : Int)).toNat

/-- `lo ≤ v ≤ hi` as a Bool. -/
def within (lo hi v : Nat) : Bool := decide (lo ≤ v) && decide (v ≤ hi)

/-- `lo ≤ v ≤ hi` on integers. -/
def withinI (lo hi v : Int) : Bool := decide (lo ≤ v) && decide (v ≤ hi)

/-- The value clamped to `lo .. hi`. -/
def clampI (lo hi v : Int) : Int := if v < lo then lo else if hi < v then hi else v

/-- A counter of `w` bits that saturates. -/
def satInc (w v : Nat) : Nat := if v + 1 < 2 ^ w then v + 1 else 2 ^ w - 1

/-- A counter of `w` bits that saturates, raised by `n`. -/
def satAdd (w v n : Nat) : Nat := if v + n < 2 ^ w then v + n else 2 ^ w - 1

/-- Round up to a multiple of 8 bytes, in code words (R419, R445). -/
def words8 (n : Nat) : Nat := (n + 7) / 8

/-- rdiv of R270 and R273: nearest integer of a / b, ties toward +∞. -/
def rdiv (a b : Int) : Int :=
  if b < 0 then (2 * (-a) + (-b)) / (2 * (-b)) else (2 * a + b) / (2 * b)

/-- rdiv of naturals, as a natural. -/
def rdivN (a b : Nat) : Nat := (2 * a + b) / (2 * b)

/-- Sign of an integer. -/
def sgn (i : Int) : Int := if i < 0 then -1 else if i = 0 then 0 else 1

/-- The value moved towards a target by at most a step. -/
def moveTo (v target step : Nat) : Nat :=
  if v < target then min target (v + step) else max target (v - step)

end Sys2Proof
end

