-- ==== Sys2Proof/Machine/Crc.lean ====
section
/-!
DEFINITION. The checksums the spec names over byte lists: CRC-32 of IEEE 802.3 (R191) and CRC-16/CCITT-FALSE (R350).
-/
namespace Sys2Proof

/-- `n` right shifts of a reflected CRC register over a polynomial. -/
def crcShift (poly : Nat) : Nat → Nat → Nat
  | 0, c => c
  | n + 1, c => crcShift poly n (if c % 2 = 1 then Nat.xor (c / 2) poly else c / 2)

/-- CRC-32, IEEE 802.3 polynomial, initial value 0xFFFF_FFFF, final inversion (R191). -/
def crc32 (b : List Nat) : Nat :=
  Nat.xor (b.foldl (fun c x => crcShift 0xEDB88320 8 (Nat.xor c (x % 256))) 0xFFFFFFFF) 0xFFFFFFFF

/-- `n` left shifts of a 16-bit CRC register over a polynomial. -/
def crcShift16 (poly : Nat) : Nat → Nat → Nat
  | 0, c => c
  | n + 1, c =>
    crcShift16 poly n (if 32768 ≤ c % 65536 then Nat.xor (2 * (c % 32768)) poly else 2 * (c % 65536))

/-- CRC-16/CCITT-FALSE: polynomial 0x1021, initial value 0xFFFF, no reflection, no final inversion (R350). -/
def crc16 (b : List Nat) : Nat :=
  b.foldl (fun c x => crcShift16 0x1021 8 (Nat.xor c (256 * (x % 256)))) 0xFFFF

end Sys2Proof
end

