-- ==== Sys2Proof/Config.lean ====
section
/-!
DEFINITION. What the spec leaves open, as uninterpreted constants: the free values (assumption 1) and the functions whose
results the spec leaves to the part, to its firmware, or to single-precision arithmetic. Nothing in Lean can evaluate one.
-/
namespace Sys2Proof.Config

/-- The n-th free value: what the machine stores where the spec states no value (assumption 1). -/
opaque freeNat : Nat → Nat

/-- The dew point in m°C of an air temperature in m°C and a relative humidity in 0.001 % (R270): the spec's formula in
single precision, whose logarithm this model does not interpret (assumption 4). -/
opaque dewPoint : Int → Int → Int

/-! What is fixed at the factory (assumption 3) and what is single-precision arithmetic (assumption 4). -/

/-- Factory coefficient word of an active pixel; its OFFSET is that of HIGH gain (R92, R96). -/
opaque factoryCoef : Nat → Nat

/-- Factory coefficient word of a blind pixel (R95). -/
opaque factoryBlind : Nat → Nat

/-- Factory offsets of LOW gain, active and blind pixels. -/
opaque factoryOffLow : Nat → Nat
opaque factoryBlindLow : Nat → Nat

/-- Entry of the factory temperature table (R108). -/
opaque tempTable : Nat → Nat

/-- Flat-field factor of a block in a table of the NOR lens area (R109). -/
opaque flatField : Nat → Nat → Nat

/-- a[j] and b[j] of a dividend and a divisor whose quotient is no U32 or I32 (R109): the spec states no result there
(assumption 66). -/
opaque blockA : Nat → Nat → Nat
opaque blockB : Int → Int → Nat

/-- Flag temperature in µK of β, the rated resistance at 25 °C and the resistance in Ω (R85). -/
opaque flagTemp : Nat → Nat → Nat → Nat

/-- Flag and band references of the factory header for a gain (R139): 0 HIGH, 1 LOW. -/
opaque factoryFlagRef : Nat → Nat
opaque factoryBandRef : Nat → Nat → Nat

/-- Factory reference choice of a column (R155). -/
opaque factoryChoice : Nat → Nat

/-- A byte of a factory waveform record (R486). -/
opaque factoryWave : Nat → Nat

/-- The code of a requester kind in an UNCORRECTABLE record (R438, R448): the spec lists the kinds and gives no codes. -/
opaque requesterKind : Nat → Nat

/-- The byte address in shared SRAM of a blind pixel's coefficient word (R95, R438): the spec gives none. -/
opaque blindAddress : Nat → Nat

/-- The response of the built-in core test to a challenge (R232): the spec does not give the test. -/
opaque coreTest : Nat → Nat

/-- `DATE_TIME` and `WEEKDAY` of a calendar time before 2000-01-01, which the spec's layout does not cover: a step BACK can
lead there (R466, R473). -/
opaque dateBefore : Int → Nat
opaque weekdayBefore : Int → Nat

/-- The firmware images the device ships with: true slot B (assumption 36). -/
opaque factoryImage : Bool → List Nat

/-- KEY_ID names a key that is not revoked; the signature of header bytes 0 to 95 verifies; SHA-256 of a body (R527): functions
of standard cryptography and of fuses that this model does not interpret (assumption 37). -/
opaque keyUsable : Nat → Bool
opaque signatureVerifies : Nat → List Nat → List Nat → Bool
opaque sha256 : List Nat → List Nat

/-- A probe's temperature in m°C of `NTC_RNOM`, `NTC_BETA`, the ohms a µV stands for (10 or 100 as their divisor) and the core
voltage in µV (R333): single precision with a logarithm (assumption 4). -/
opaque ntcTemp : Nat → Nat → Nat → Int → Int

/-- A byte of a salvage record that the pilot forms itself (registers, length, checkpoint, trace, firmware), of the record's T64
and the offset (R257). -/
opaque salvageByte : Nat → Nat → Nat

/-- The RATE byte of a factory set in `CAL_SET`, as 60 or 30 (R156): the spec gives a factory set no rate. -/
opaque factoryRate60 : Bool

/-- The FACTORY key, which is fused (R404). -/
opaque factoryKey : List Nat

/-- `AI_VALUE` of an internal channel for a core voltage in µV (R331): the spec gives the units and not the fixed ranges
(assumption 41). -/
opaque internalValue : Nat → Int → Int

end Sys2Proof.Config
end

