-- ==== Sys2Proof/Machine/Entries.lean ====
section
/-!
DEFINITION. The ledger's dictionary: every entry the spec's ledger tables name, with its indices, subs, type, access level,
default, plain range and whether its chapter stores it (R10, R11, R384, R385), and the name of each entry's key.
An entry index.sub has the key 256 * index + sub. Defaults that the spec leaves to the factory or does not give are the
model's named values (assumption 3).
-/
namespace Sys2Proof.Machine

/-- The types of ledger entries (R11). -/
inductive ETy where
  | bool | u8 | u16 | u32 | u64 | i16 | i32 | i64 | t48 | t64 | str | domain
  deriving DecidableEq, Repr

/-- Bytes of a value of the type (R389); `STR` entries have 16 (R413, R354); a DOMAIN has no value of its own. -/
def ETy.bytes : ETy → Nat
  | .bool => 1
  | .u8 => 1
  | .u16 => 2
  | .i16 => 2
  | .u32 => 4
  | .i32 => 4
  | .u64 => 8
  | .i64 => 8
  | .t64 => 8
  | .t48 => 6
  | .str => 16
  | .domain => 0

/-- Whether the type is read in two's complement (R11). -/
def ETy.signed : ETy → Bool
  | .i16 => true
  | .i32 => true
  | .i64 => true
  | _ => false

/-- One row of a ledger table: `count` consecutive indices from `base`, subs `subLo` to `subHi`, the type, the level that
may write (0: read-only), the default as raw bits, the plain range of values a write may take (no pair: any value of the
type) and whether the entry is stored in the parameters partition (R384, R385, R420). -/
structure Entry where
  base : Nat
  count : Nat
  subLo : Nat
  subHi : Nat
  ty : ETy
  acc : Nat
  dflt : Nat
  range : List (Int × Int)
  stored : Bool
  deriving DecidableEq, Repr

/-- Whether the row holds index.sub. -/
def Entry.holds (e : Entry) (index sub : Nat) : Bool :=
  Nat.ble e.base index && Nat.blt index (e.base + e.count) && Nat.ble e.subLo sub && Nat.ble sub e.subHi

def page10 : List Entry := [
  ⟨0x1000, 1, 0x01, 0x01, .u32, 0, 231014482, [], false⟩,
  ⟨0x1000, 1, 0x02, 0x02, .u8, 0, 60, [], false⟩,
  ⟨0x1000, 1, 0x03, 0x03, .u8, 0, 1, [], false⟩,
  ⟨0x1000, 1, 0x04, 0x04, .str, 0, 0, [], false⟩,
  ⟨0x1000, 1, 0x05, 0x05, .u32, 0, 0, [], false⟩,
  ⟨0x1000, 1, 0x06, 0x06, .u8, 0, 0, [], false⟩,
  ⟨0x1000, 1, 0x07, 0x07, .u8, 0, 0, [], false⟩,
  ⟨0x1000, 1, 0x08, 0x08, .u32, 0, 0, [], false⟩,
  ⟨0x1000, 1, 0x09, 0x09, .u8, 0, 0, [], false⟩,
  ⟨0x1000, 1, 0x0A, 0x0A, .u32, 0, 0, [], false⟩,
  ⟨0x1000, 1, 0x0B, 0x0B, .u32, 0, 0, [], false⟩,
  ⟨0x1000, 1, 0x0C, 0x0C, .u32, 0, 0, [], false⟩,
  ⟨0x1000, 1, 0x0D, 0x0D, .u8, 0, 0, [], false⟩,
  ⟨0x1000, 1, 0x0E, 0x0E, .u8, 2, 0, [(90, 90)], false⟩,
  ⟨0x1000, 1, 0x0F, 0x0F, .u32, 0, 0, [], false⟩,
  ⟨0x1000, 1, 0x10, 0x10, .u16, 0, 256, [], false⟩]

def page11 : List Entry := [
  ⟨0x1100, 1, 0x01, 0x01, .t64, 0, 0, [], false⟩,
  ⟨0x1100, 1, 0x02, 0x02, .u32, 0, 0, [], false⟩,
  ⟨0x1100, 1, 0x03, 0x03, .u16, 0, 0, [], false⟩,
  ⟨0x1100, 1, 0x04, 0x04, .u16, 0, 0, [], false⟩,
  ⟨0x1100, 1, 0x05, 0x05, .u8, 1, 60, [(30, 30), (60, 60)], false⟩,
  ⟨0x1100, 1, 0x06, 0x06, .u8, 0, 60, [], false⟩,
  ⟨0x1100, 1, 0x07, 0x07, .u16, 0, 0, [], false⟩,
  ⟨0x1100, 1, 0x08, 0x08, .t64, 0, 0, [], false⟩,
  ⟨0x1100, 1, 0x09, 0x09, .u32, 0, 0, [], false⟩,
  ⟨0x1100, 1, 0x0A, 0x0A, .u32, 0, 0, [], false⟩,
  ⟨0x1100, 1, 0x0B, 0x0B, .u32, 0, 0, [], false⟩,
  ⟨0x1100, 1, 0x0C, 0x0C, .u8, 0, 125, [], false⟩,
  ⟨0x1100, 1, 0x0D, 0x0D, .u32, 0, 1000000, [], false⟩,
  ⟨0x1100, 1, 0x0E, 0x0E, .t48, 0, 0, [], false⟩,
  ⟨0x1100, 1, 0x0F, 0x0F, .i32, 0, 0, [], false⟩,
  ⟨0x1100, 1, 0x10, 0x10, .u32, 0, 0, [], false⟩,
  ⟨0x1100, 1, 0x11, 0x11, .bool, 1, 1, [], false⟩,
  ⟨0x1100, 1, 0x12, 0x12, .u32, 0, 0, [], false⟩,
  ⟨0x1110, 1, 0x01, 0x01, .u8, 1, 1, [(0, 2)], false⟩,
  ⟨0x1110, 1, 0x02, 0x02, .u8, 1, 50, [(50, 50), (60, 60)], false⟩,
  ⟨0x1110, 1, 0x03, 0x03, .u8, 2, 1, [(1, 2)], false⟩,
  ⟨0x1110, 1, 0x04, 0x04, .bool, 2, 1, [], false⟩,
  ⟨0x1110, 1, 0x05, 0x05, .i16, 2, 0, [], false⟩,
  ⟨0x1110, 1, 0x06, 0x06, .u8, 0, 1, [], false⟩,
  ⟨0x1110, 1, 0x07, 0x07, .u32, 0, 500000, [], false⟩,
  ⟨0x1110, 1, 0x08, 0x08, .u16, 0, 0, [], false⟩,
  ⟨0x1110, 1, 0x09, 0x09, .bool, 0, 0, [], false⟩,
  ⟨0x1110, 1, 0x0A, 0x0A, .t64, 0, 0, [], false⟩,
  ⟨0x1110, 1, 0x0B, 0x0B, .u16, 2, 2000, [], false⟩,
  ⟨0x1110, 1, 0x0C, 0x0C, .u32, 0, 0, [], false⟩]

def page12a : List Entry := [
  ⟨0x1200, 1, 0x01, 0x01, .u8, 1, 0, [(0, 1)], false⟩,
  ⟨0x1200, 1, 0x02, 0x02, .u8, 0, 0, [], false⟩,
  ⟨0x1200, 1, 0x03, 0x03, .u16, 0, 0, [], false⟩,
  ⟨0x1200, 1, 0x04, 0x04, .u32, 0, 0, [], false⟩,
  ⟨0x1200, 1, 0x05, 0x05, .u32, 0, 0, [], false⟩,
  ⟨0x1200, 1, 0x06, 0x06, .u8, 2, 60, [(1, 255)], false⟩,
  ⟨0x1200, 1, 0x07, 0x07, .u16, 2, 120, [(30, 3600)], false⟩,
  ⟨0x1200, 1, 0x08, 0x08, .u16, 2, 100, [], false⟩,
  ⟨0x1200, 1, 0x09, 0x09, .u16, 0, 0, [], false⟩,
  ⟨0x1210, 1, 0x01, 0x10, .u32, 0, 0, [], false⟩,
  ⟨0x1210, 1, 0x11, 0x11, .u16, 2, 300, [(100, 300)], false⟩,
  ⟨0x1210, 1, 0x12, 0x12, .u16, 2, 250, [(50, 300)], false⟩,
  ⟨0x1210, 1, 0x13, 0x13, .u8, 0, 0, [], false⟩,
  ⟨0x1210, 1, 0x14, 0x14, .u16, 0, 0, [], false⟩,
  ⟨0x1210, 1, 0x15, 0x15, .u32, 0, 0, [], false⟩,
  ⟨0x1210, 1, 0x16, 0x16, .u16, 0, 0, [], false⟩,
  ⟨0x1220, 1, 0x01, 0x01, .bool, 2, 1, [], false⟩,
  ⟨0x1220, 1, 0x02, 0x02, .u8, 2, 8, [(4, 64)], false⟩,
  ⟨0x1220, 1, 0x03, 0x03, .u8, 2, 4, [(2, 32)], false⟩,
  ⟨0x1220, 1, 0x04, 0x04, .u8, 0, 0, [], false⟩,
  ⟨0x1220, 1, 0x05, 0x05, .u32, 0, 0, [], false⟩,
  ⟨0x1220, 1, 0x06, 0x06, .u32, 0, 0, [], false⟩,
  ⟨0x1220, 1, 0x07, 0x07, .u32, 0, 0, [], false⟩,
  ⟨0x1221, 1, 0x01, 0x40, .u16, 2, 0, [], false⟩,
  ⟨0x1230, 1, 0x01, 0x01, .bool, 0, 0, [], false⟩,
  ⟨0x1230, 1, 0x02, 0x02, .u8, 0, 0, [], false⟩,
  ⟨0x1230, 1, 0x03, 0x03, .u16, 2, 150, [(1, 2000)], false⟩,
  ⟨0x1230, 1, 0x04, 0x04, .u8, 0, 0, [], false⟩,
  ⟨0x1230, 1, 0x05, 0x05, .u16, 2, 200, [(50, 300)], false⟩,
  ⟨0x1230, 1, 0x06, 0x06, .u16, 2, 40, [(0, 100)], false⟩]

def page12b : List Entry := [
  ⟨0x1230, 1, 0x07, 0x07, .u32, 0, 0, [], false⟩,
  ⟨0x1230, 1, 0x08, 0x08, .u16, 2, 3435, [], false⟩,
  ⟨0x1230, 1, 0x09, 0x09, .u32, 0, 0, [], false⟩,
  ⟨0x1230, 1, 0x0A, 0x0A, .u32, 0, 0, [], false⟩]

def page12 : List Entry := page12a ++ page12b

def page13a : List Entry := [
  ⟨0x1300, 1, 0x01, 0x01, .u8, 1, 0, [(0, 3)], false⟩,
  ⟨0x1300, 1, 0x02, 0x02, .u8, 0, 3, [], false⟩,
  ⟨0x1300, 1, 0x03, 0x03, .u8, 1, 0, [(0, 2)], false⟩,
  ⟨0x1300, 1, 0x04, 0x04, .u16, 0, 0, [], false⟩,
  ⟨0x1300, 1, 0x05, 0x05, .bool, 2, 1, [], false⟩,
  ⟨0x1300, 1, 0x06, 0x06, .bool, 2, 1, [], false⟩,
  ⟨0x1300, 1, 0x07, 0x07, .u8, 2, 6, [(3, 8)], false⟩,
  ⟨0x1300, 1, 0x08, 0x08, .u8, 1, 0, [(0, 4)], false⟩,
  ⟨0x1300, 1, 0x09, 0x09, .u16, 1, 40, [(4, 2000)], false⟩,
  ⟨0x1300, 1, 0x0A, 0x0A, .u8, 1, 0, [(0, 1)], false⟩,
  ⟨0x1300, 1, 0x0B, 0x0B, .u8, 1, 4, [(1, 60)], false⟩,
  ⟨0x1300, 1, 0x0C, 0x0C, .u32, 0, 0, [], false⟩,
  ⟨0x1300, 1, 0x0D, 0x0D, .u32, 0, 0, [], false⟩,
  ⟨0x1300, 1, 0x0E, 0x0E, .u32, 0, 0, [], false⟩,
  ⟨0x1300, 1, 0x0F, 0x0F, .u32, 0, 0, [], false⟩,
  ⟨0x1300, 1, 0x10, 0x10, .u32, 0, 0, [], false⟩,
  ⟨0x1300, 1, 0x11, 0x11, .u32, 0, 0, [], false⟩,
  ⟨0x1300, 1, 0x12, 0x12, .u16, 0, 0, [], false⟩,
  ⟨0x1300, 1, 0x13, 0x13, .u32, 0, 0, [], false⟩,
  ⟨0x1300, 1, 0x14, 0x14, .u32, 0, 0, [], false⟩,
  ⟨0x1310, 1, 0x01, 0x01, .u8, 0, 0, [], false⟩,
  ⟨0x1310, 1, 0x02, 0x02, .u16, 2, 65535, [(1, 65535)], false⟩,
  ⟨0x1310, 1, 0x03, 0x03, .u16, 2, 256, [(192, 1024)], false⟩,
  ⟨0x1310, 1, 0x04, 0x04, .u8, 2, 0, [(0, 96)], false⟩,
  ⟨0x1310, 1, 0x05, 0x05, .u32, 3, 65536, [], false⟩,
  ⟨0x1310, 1, 0x06, 0x06, .u32, 3, 65536, [], false⟩,
  ⟨0x1310, 1, 0x07, 0x07, .u32, 0, 0, [], false⟩,
  ⟨0x1310, 1, 0x08, 0x08, .u32, 0, 0, [], false⟩,
  ⟨0x1310, 1, 0x09, 0x09, .i32, 0, 0, [], false⟩,
  ⟨0x1310, 1, 0x0A, 0x0A, .u64, 0, 0, [], false⟩]

def page13b : List Entry := [
  ⟨0x1310, 1, 0x0B, 0x0B, .u32, 0, 0, [], false⟩]

def page13 : List Entry := page13a ++ page13b

def page14a : List Entry := [
  ⟨0x1400, 1, 0x01, 0x01, .u8, 0, 0, [], false⟩,
  ⟨0x1400, 1, 0x02, 0x02, .u8, 1, 0, [], false⟩,
  ⟨0x1400, 1, 0x03, 0x03, .u16, 0, 0, [], false⟩,
  ⟨0x1400, 1, 0x04, 0x04, .u16, 1, 200, [(50, 2000)], false⟩,
  ⟨0x1400, 1, 0x05, 0x05, .u16, 1, 30, [(5, 1440)], false⟩,
  ⟨0x1400, 1, 0x06, 0x06, .u16, 1, 60, [(10, 3600)], false⟩,
  ⟨0x1400, 1, 0x07, 0x07, .u16, 2, 134, [(32, 320)], false⟩,
  ⟨0x1400, 1, 0x08, 0x08, .u16, 2, 67, [(16, 160)], false⟩,
  ⟨0x1400, 1, 0x09, 0x09, .u32, 2, 999000, [(999000, 999990)], false⟩,
  ⟨0x1400, 1, 0x0A, 0x0A, .u16, 2, 50, [(10, 200)], false⟩,
  ⟨0x1400, 1, 0x0B, 0x0B, .u16, 0, 0, [], false⟩,
  ⟨0x1400, 1, 0x0C, 0x0C, .u8, 0, 0, [], false⟩,
  ⟨0x1400, 1, 0x0D, 0x0D, .u32, 0, 0, [], false⟩,
  ⟨0x1400, 1, 0x0E, 0x0E, .t48, 0, 0, [], false⟩,
  ⟨0x1400, 1, 0x0F, 0x0F, .u32, 0, 0, [], false⟩,
  ⟨0x1400, 1, 0x10, 0x10, .u32, 0, 0, [], false⟩,
  ⟨0x1400, 1, 0x11, 0x11, .u8, 0, 0, [], false⟩,
  ⟨0x1400, 1, 0x12, 0x12, .u16, 2, 5, [(1, 50)], false⟩,
  ⟨0x1400, 1, 0x13, 0x13, .u16, 2, 120, [(30, 900)], false⟩,
  ⟨0x1400, 1, 0x14, 0x14, .u8, 0, 0, [], false⟩,
  ⟨0x1401, 1, 0x01, 0x10, .u32, 0, 0, [], false⟩,
  ⟨0x1410, 1, 0x01, 0x01, .u16, 2, 4096, [], false⟩,
  ⟨0x1410, 1, 0x02, 0x02, .u16, 2, 12288, [], false⟩,
  ⟨0x1410, 1, 0x03, 0x03, .u16, 2, 8192, [], false⟩,
  ⟨0x1410, 1, 0x04, 0x04, .u8, 2, 64, [(8, 127)], false⟩,
  ⟨0x1410, 1, 0x05, 0x05, .u8, 2, 4, [(1, 16)], false⟩,
  ⟨0x1410, 1, 0x06, 0x06, .u16, 2, 5000, [], false⟩,
  ⟨0x1410, 1, 0x07, 0x07, .u16, 2, 2000, [], false⟩,
  ⟨0x1410, 1, 0x08, 0x08, .u16, 2, 150, [], false⟩,
  ⟨0x1410, 1, 0x09, 0x09, .u8, 0, 0, [], false⟩]

def page14b : List Entry := [
  ⟨0x1410, 1, 0x0A, 0x0A, .u16, 0, 0, [], false⟩,
  ⟨0x1410, 1, 0x0B, 0x0B, .u64, 0, 0, [], false⟩,
  ⟨0x1420, 1, 0x01, 0x01, .u16, 0, 0, [], false⟩,
  ⟨0x1420, 1, 0x02, 0x02, .u16, 1, 20, [], false⟩,
  ⟨0x1420, 1, 0x03, 0x03, .u32, 0, 0, [], false⟩,
  ⟨0x1420, 1, 0x04, 0x04, .u32, 0, 0, [], false⟩,
  ⟨0x1420, 1, 0x05, 0x05, .u32, 0, 0, [], false⟩,
  ⟨0x1420, 1, 0x06, 0x06, .u16, 0, 0, [], false⟩,
  ⟨0x1420, 1, 0x07, 0x07, .u8, 0, 0, [], false⟩,
  ⟨0x1420, 1, 0x08, 0x08, .u16, 0, 0, [], false⟩,
  ⟨0x1420, 1, 0x09, 0x09, .u32, 0, 4294967295, [], false⟩]

def page14 : List Entry := page14a ++ page14b

def page15 : List Entry := [
  ⟨0x1500, 1, 0x01, 0x01, .u16, 0, 0, [], false⟩,
  ⟨0x1500, 1, 0x02, 0x02, .u16, 0, 0, [], false⟩,
  ⟨0x1500, 1, 0x03, 0x03, .bool, 1, 0, [], false⟩,
  ⟨0x1500, 1, 0x04, 0x04, .u16, 0, 0, [], false⟩,
  ⟨0x1500, 1, 0x05, 0x05, .u16, 0, 0, [], false⟩,
  ⟨0x1500, 1, 0x06, 0x06, .u16, 0, 0, [], false⟩,
  ⟨0x1500, 1, 0x07, 0x07, .u16, 0, 0, [], false⟩,
  ⟨0x1500, 1, 0x08, 0x08, .u32, 0, 0, [], false⟩,
  ⟨0x1500, 1, 0x09, 0x09, .u8, 1, 8, [(1, 64)], false⟩,
  ⟨0x1500, 1, 0x0A, 0x0A, .u8, 1, 0, [(0, 1)], false⟩,
  ⟨0x1500, 1, 0x0B, 0x0B, .u32, 0, 0, [], false⟩]

def page16 : List Entry := [
  ⟨0x1600, 1, 0x01, 0x01, .bool, 1, 1, [], false⟩,
  ⟨0x1600, 1, 0x02, 0x02, .u8, 2, 4, [(1, 4)], false⟩,
  ⟨0x1600, 1, 0x03, 0x03, .u16, 2, 1500, [(80, 2000)], false⟩,
  ⟨0x1600, 1, 0x04, 0x04, .bool, 2, 1, [], false⟩,
  ⟨0x1600, 1, 0x05, 0x05, .u8, 2, 0, [(0, 31)], false⟩,
  ⟨0x1600, 1, 0x06, 0x06, .bool, 1, 0, [], false⟩,
  ⟨0x1600, 1, 0x07, 0x07, .bool, 1, 0, [], false⟩,
  ⟨0x1600, 1, 0x08, 0x08, .u8, 2, 0, [], false⟩,
  ⟨0x1600, 1, 0x09, 0x09, .u16, 2, 0, [(0, 3600)], false⟩,
  ⟨0x1600, 1, 0x0A, 0x0A, .u16, 0, 0, [], false⟩,
  ⟨0x1600, 1, 0x0B, 0x0B, .i32, 0, 0, [], false⟩,
  ⟨0x1600, 1, 0x0C, 0x0C, .u32, 0, 0, [], false⟩,
  ⟨0x1600, 1, 0x0D, 0x0D, .u32, 0, 0, [], false⟩,
  ⟨0x1600, 1, 0x0E, 0x0E, .u32, 0, 0, [], false⟩,
  ⟨0x1600, 1, 0x0F, 0x0F, .u32, 0, 0, [], false⟩]

def page17a : List Entry := [
  ⟨0x1700, 1, 0x01, 0x01, .u8, 0, 0, [], false⟩,
  ⟨0x1700, 1, 0x02, 0x02, .u8, 0, 0, [], false⟩,
  ⟨0x1700, 1, 0x03, 0x03, .u8, 0, 0, [], false⟩,
  ⟨0x1700, 1, 0x04, 0x04, .u8, 0, 0, [], false⟩,
  ⟨0x1700, 1, 0x05, 0x05, .u8, 2, 0, [], false⟩,
  ⟨0x1700, 1, 0x06, 0x06, .u16, 0, 0, [], false⟩,
  ⟨0x1700, 1, 0x07, 0x07, .u32, 0, 0, [], false⟩,
  ⟨0x1700, 1, 0x08, 0x08, .u32, 0, 0, [], false⟩,
  ⟨0x1700, 1, 0x09, 0x09, .u32, 0, 0, [], false⟩,
  ⟨0x1700, 1, 0x0A, 0x0A, .u32, 0, 0, [], false⟩,
  ⟨0x1700, 1, 0x0B, 0x0B, .u32, 0, 0, [], false⟩,
  ⟨0x1700, 1, 0x0C, 0x0C, .u32, 0, 0, [], false⟩,
  ⟨0x1700, 1, 0x0D, 0x0D, .u32, 0, 0, [], false⟩,
  ⟨0x1700, 1, 0x0E, 0x0E, .u32, 0, 0, [], false⟩,
  ⟨0x1700, 1, 0x0F, 0x0F, .u32, 0, 0, [], false⟩,
  ⟨0x1700, 1, 0x10, 0x10, .u32, 0, 0, [], false⟩,
  ⟨0x1700, 1, 0x11, 0x11, .u8, 2, 3, [(1, 10)], false⟩,
  ⟨0x1700, 1, 0x12, 0x12, .u8, 2, 100, [(50, 150)], false⟩,
  ⟨0x1700, 1, 0x13, 0x13, .u16, 2, 5, [(1, 1000)], false⟩,
  ⟨0x1700, 1, 0x14, 0x14, .u8, 0, 0, [], false⟩,
  ⟨0x1700, 1, 0x15, 0x15, .u32, 0, 0, [], false⟩,
  ⟨0x1700, 1, 0x16, 0x16, .u32, 0, 0, [], false⟩,
  ⟨0x1700, 1, 0x17, 0x17, .bool, 2, 0, [], false⟩,
  ⟨0x1700, 1, 0x18, 0x18, .bool, 2, 1, [], false⟩,
  ⟨0x1700, 1, 0x19, 0x19, .u8, 0, 0, [], false⟩,
  ⟨0x1700, 1, 0x1A, 0x1A, .u8, 0, 0, [], false⟩,
  ⟨0x1700, 1, 0x1B, 0x1B, .u8, 2, 1, [(1, 2)], false⟩,
  ⟨0x1701, 1, 0x01, 0x04, .u64, 0, 0, [], false⟩,
  ⟨0x1701, 1, 0x05, 0x05, .u64, 0, 0, [], false⟩,
  ⟨0x1710, 1, 0x01, 0x04, .u16, 2, 0, [], true⟩]

def page17b : List Entry := [
  ⟨0x1710, 1, 0x05, 0x08, .u16, 2, 0, [], true⟩,
  ⟨0x1710, 1, 0x09, 0x0C, .u16, 2, 32768, [], true⟩,
  ⟨0x1710, 1, 0x0D, 0x10, .u16, 2, 0, [], true⟩,
  ⟨0x1710, 1, 0x11, 0x11, .u8, 2, 1, [(0, 1)], true⟩,
  ⟨0x1710, 1, 0x12, 0x12, .u8, 2, 3, [(0, 3)], true⟩,
  ⟨0x1720, 1, 0x01, 0x01, .bool, 0, 0, [], false⟩,
  ⟨0x1720, 1, 0x02, 0x02, .u32, 0, 0, [], false⟩,
  ⟨0x1720, 1, 0x03, 0x03, .u32, 0, 0, [], false⟩,
  ⟨0x1720, 1, 0x04, 0x04, .bool, 2, 0, [], false⟩,
  ⟨0x1720, 1, 0x05, 0x05, .t48, 0, 0, [], false⟩]

def page17 : List Entry := page17a ++ page17b

def page18 : List Entry := [
  ⟨0x1800, 1, 0x01, 0x01, .bool, 1, 1, [], false⟩,
  ⟨0x1800, 1, 0x02, 0x02, .u8, 1, 0, [(0, 128)], false⟩,
  ⟨0x1800, 1, 0x03, 0x03, .u16, 1, 10, [(1, 3600)], false⟩,
  ⟨0x1800, 1, 0x04, 0x04, .u8, 0, 0, [], false⟩,
  ⟨0x1800, 1, 0x05, 0x05, .u8, 0, 0, [], false⟩,
  ⟨0x1800, 1, 0x06, 0x06, .u32, 0, 0, [], false⟩,
  ⟨0x1800, 1, 0x07, 0x07, .u8, 0, 0, [], false⟩,
  ⟨0x1810, 1, 0x01, 0x01, .u8, 0, 0, [], false⟩,
  ⟨0x1810, 1, 0x02, 0x02, .u8, 0, 0, [], false⟩,
  ⟨0x1810, 1, 0x03, 0x03, .u16, 0, 0, [], false⟩,
  ⟨0x1810, 1, 0x04, 0x04, .u16, 0, 0, [], false⟩,
  ⟨0x1810, 1, 0x05, 0x05, .u16, 0, 0, [], false⟩,
  ⟨0x1810, 1, 0x06, 0x06, .u16, 0, 0, [], false⟩,
  ⟨0x1810, 1, 0x07, 0x07, .u32, 0, 0, [], false⟩,
  ⟨0x1810, 1, 0x08, 0x08, .u32, 0, 0, [], false⟩]

def page19 : List Entry := [
  ⟨0x1900, 1, 0x01, 0x01, .u16, 0, 0, [], false⟩,
  ⟨0x1900, 1, 0x02, 0x02, .u32, 0, 0, [], false⟩,
  ⟨0x1901, 16, 0x01, 0x01, .u8, 1, 0, [], false⟩,
  ⟨0x1901, 16, 0x02, 0x02, .u16, 1, 0, [(0, 4095)], false⟩,
  ⟨0x1901, 16, 0x03, 0x03, .u16, 0, 0, [], false⟩,
  ⟨0x1901, 16, 0x04, 0x04, .u8, 0, 0, [], false⟩,
  ⟨0x1901, 16, 0x05, 0x05, .u16, 0, 0, [], false⟩,
  ⟨0x1901, 16, 0x06, 0x06, .u32, 0, 0, [], false⟩,
  ⟨0x1901, 4, 0x10, 0x10, .u16, 2, 24000, [(1000, 60000)], false⟩,
  ⟨0x1901, 4, 0x11, 0x11, .u16, 2, 150, [(10, 600)], false⟩,
  ⟨0x1901, 4, 0x12, 0x12, .u16, 0, 0, [], false⟩,
  ⟨0x1905, 4, 0x10, 0x10, .u16, 2, 100, [(10, 2000)], false⟩,
  ⟨0x1905, 4, 0x11, 0x11, .u16, 2, 1365, [(0, 4095)], false⟩,
  ⟨0x1909, 4, 0x10, 0x10, .u16, 2, 100, [(20, 1000)], false⟩,
  ⟨0x1909, 4, 0x11, 0x11, .u16, 2, 300, [(100, 2000)], false⟩]

def page1A : List Entry := [
  ⟨0x1A00, 1, 0x01, 0x01, .u8, 2, 0, [(0, 3)], false⟩,
  ⟨0x1A00, 1, 0x02, 0x02, .u8, 0, 0, [], false⟩,
  ⟨0x1A20, 2, 0x01, 0x01, .u16, 1, 0, [(0, 4095)], false⟩,
  ⟨0x1A20, 2, 0x02, 0x02, .u16, 2, 12000, [(1000, 60000)], false⟩,
  ⟨0x1A20, 2, 0x03, 0x03, .u16, 2, 8000, [(500, 59000)], false⟩,
  ⟨0x1A20, 2, 0x04, 0x04, .u16, 2, 2000, [(500, 59000)], false⟩,
  ⟨0x1A20, 2, 0x05, 0x05, .u16, 2, 3000, [(100, 5000)], false⟩,
  ⟨0x1A20, 1, 0x06, 0x06, .u8, 2, 3, [(0, 15)], false⟩,
  ⟨0x1A21, 1, 0x06, 0x06, .u8, 2, 12, [(0, 15)], false⟩,
  ⟨0x1A20, 2, 0x07, 0x07, .u8, 2, 4, [(0, 16)], false⟩,
  ⟨0x1A20, 2, 0x08, 0x0B, .u32, 2, 0, [], false⟩,
  ⟨0x1A20, 2, 0x0C, 0x0C, .u16, 0, 0, [], false⟩,
  ⟨0x1A20, 2, 0x0D, 0x0D, .u16, 0, 0, [], false⟩,
  ⟨0x1A20, 2, 0x0E, 0x0E, .u16, 0, 0, [], false⟩,
  ⟨0x1A20, 2, 0x0F, 0x0F, .u8, 0, 0, [], false⟩,
  ⟨0x1A20, 2, 0x10, 0x10, .u16, 0, 0, [], false⟩,
  ⟨0x1A20, 2, 0x11, 0x11, .u8, 0, 0, [], false⟩,
  ⟨0x1A20, 2, 0x12, 0x12, .u16, 0, 0, [], false⟩,
  ⟨0x1A20, 2, 0x13, 0x13, .u32, 0, 0, [], false⟩,
  ⟨0x1A30, 4, 0x01, 0x01, .u8, 2, 2, [(1, 4)], false⟩,
  ⟨0x1A30, 4, 0x02, 0x02, .u16, 0, 0, [], false⟩,
  ⟨0x1A30, 4, 0x03, 0x03, .u8, 0, 0, [], false⟩,
  ⟨0x1A30, 4, 0x04, 0x04, .u32, 0, 0, [], false⟩,
  ⟨0x1A30, 4, 0x05, 0x05, .u16, 0, 0, [], false⟩,
  ⟨0x1A30, 4, 0x06, 0x06, .u32, 0, 0, [], false⟩]

def page1Ba : List Entry := [
  ⟨0x1B00, 1, 0x01, 0x01, .u16, 1, 10, [(0, 50)], true⟩,
  ⟨0x1B00, 1, 0x02, 0x02, .u8, 0, 0, [], false⟩,
  ⟨0x1B00, 1, 0x03, 0x03, .u8, 1, 0, [(1, 1)], false⟩,
  ⟨0x1B00, 1, 0x04, 0x04, .u16, 1, 0, [], false⟩,
  ⟨0x1B00, 1, 0x05, 0x05, .u64, 0, 0, [], false⟩,
  ⟨0x1B00, 1, 0x06, 0x06, .u32, 0, 0, [], false⟩,
  ⟨0x1B00, 1, 0x07, 0x07, .u32, 0, 0, [], false⟩,
  ⟨0x1B00, 1, 0x08, 0x08, .u32, 0, 0, [], false⟩,
  ⟨0x1B00, 1, 0x09, 0x09, .t48, 0, 0, [], false⟩,
  ⟨0x1B01, 1, 0x01, 0x06, .i32, 2, 0, [], false⟩,
  ⟨0x1B01, 1, 0x07, 0x0C, .i32, 2, 0, [], false⟩,
  ⟨0x1B10, 12, 0x01, 0x01, .u8, 1, 0, [], true⟩,
  ⟨0x1B10, 12, 0x02, 0x02, .u8, 1, 4, [(0, 8)], true⟩,
  ⟨0x1B10, 12, 0x03, 0x03, .u8, 1, 4, [], true⟩,
  ⟨0x1B10, 12, 0x04, 0x04, .u8, 1, 0, [(0, 5)], true⟩,
  ⟨0x1B10, 12, 0x05, 0x05, .i32, 1, 0, [], true⟩,
  ⟨0x1B10, 12, 0x06, 0x06, .i32, 1, 10000, [], true⟩,
  ⟨0x1B10, 12, 0x07, 0x07, .i32, 1, 0, [], true⟩,
  ⟨0x1B10, 12, 0x08, 0x08, .i32, 1, 10000, [], true⟩,
  ⟨0x1B10, 12, 0x09, 0x09, .u32, 1, 10000, [(100, 1000000)], true⟩,
  ⟨0x1B10, 12, 0x0A, 0x0A, .u16, 1, 3435, [(1000, 6000)], true⟩,
  ⟨0x1B10, 12, 0x0B, 0x0B, .u16, 0, 0, [], false⟩,
  ⟨0x1B10, 12, 0x0C, 0x0C, .i32, 0, 0, [], false⟩,
  ⟨0x1B10, 12, 0x0D, 0x0D, .u8, 0, 0, [], false⟩,
  ⟨0x1B10, 12, 0x0E, 0x0E, .t64, 0, 0, [], false⟩,
  ⟨0x1B10, 12, 0x0F, 0x0F, .u8, 0, 0, [], false⟩,
  ⟨0x1B20, 13, 0x0B, 0x0B, .u16, 0, 0, [], false⟩,
  ⟨0x1B20, 13, 0x0C, 0x0C, .i32, 0, 0, [], false⟩,
  ⟨0x1B20, 13, 0x0D, 0x0D, .u8, 0, 0, [], false⟩,
  ⟨0x1B20, 13, 0x0E, 0x0E, .t64, 0, 0, [], false⟩]

def page1Bb : List Entry := [
  ⟨0x1B40, 1, 0x01, 0x01, .u8, 0, 0, [], false⟩,
  ⟨0x1B40, 1, 0x02, 0x02, .u8, 0, 0, [], false⟩,
  ⟨0x1B40, 1, 0x03, 0x03, .u8, 0, 0, [], false⟩,
  ⟨0x1B40, 1, 0x04, 0x04, .u8, 0, 0, [], false⟩,
  ⟨0x1B41, 8, 0x01, 0x01, .u8, 1, 1, [(0, 7)], true⟩,
  ⟨0x1B41, 8, 0x02, 0x02, .u16, 1, 20, [(1, 1000)], true⟩,
  ⟨0x1B41, 8, 0x03, 0x03, .u32, 1, 0, [(0, 604800)], true⟩,
  ⟨0x1B41, 8, 0x04, 0x04, .u16, 1, 10, [(2, 1000)], true⟩,
  ⟨0x1B41, 8, 0x05, 0x05, .u16, 1, 10, [(1, 3600)], true⟩,
  ⟨0x1B41, 8, 0x06, 0x06, .u8, 0, 0, [], false⟩,
  ⟨0x1B41, 8, 0x07, 0x07, .u32, 0, 0, [], false⟩,
  ⟨0x1B41, 8, 0x08, 0x08, .u32, 0, 0, [], false⟩]

def page1B : List Entry := page1Ba ++ page1Bb

def page1Ca : List Entry := [
  ⟨0x1C00, 1, 0x01, 0x01, .u8, 2, 127, [(1, 127)], true⟩,
  ⟨0x1C00, 1, 0x02, 0x02, .bool, 1, 1, [], true⟩,
  ⟨0x1C00, 1, 0x03, 0x03, .u8, 1, 3, [(1, 3)], true⟩,
  ⟨0x1C00, 1, 0x04, 0x04, .u8, 1, 1, [(0, 3)], true⟩,
  ⟨0x1C00, 1, 0x05, 0x05, .u16, 1, 100, [(32, 60000)], true⟩,
  ⟨0x1C00, 1, 0x06, 0x06, .u32, 0, 0, [], false⟩,
  ⟨0x1C10, 2, 0x01, 0x01, .u8, 1, 1, [(0, 3)], true⟩,
  ⟨0x1C10, 2, 0x02, 0x02, .u8, 0, 0, [], false⟩,
  ⟨0x1C10, 2, 0x03, 0x03, .u16, 2, 500, [(125, 125), (250, 250), (500, 500), (1000, 1000)], true⟩,
  ⟨0x1C10, 2, 0x04, 0x04, .u16, 2, 875, [(600, 900)], true⟩,
  ⟨0x1C10, 2, 0x05, 0x05, .u8, 2, 0, [], true⟩,
  ⟨0x1C10, 2, 0x06, 0x06, .bool, 2, 0, [], true⟩,
  ⟨0x1C10, 2, 0x07, 0x07, .bool, 2, 1, [], true⟩,
  ⟨0x1C10, 2, 0x08, 0x08, .u16, 2, 2000, [], true⟩,
  ⟨0x1C10, 2, 0x09, 0x09, .u16, 2, 750, [(500, 900)], true⟩,
  ⟨0x1C10, 2, 0x0A, 0x0A, .u8, 2, 0, [], true⟩,
  ⟨0x1C10, 2, 0x0B, 0x0B, .u16, 0, 0, [], false⟩,
  ⟨0x1C10, 2, 0x0C, 0x0C, .u16, 0, 0, [], false⟩,
  ⟨0x1C10, 2, 0x0D, 0x0D, .u8, 0, 0, [], false⟩,
  ⟨0x1C10, 2, 0x0E, 0x0E, .bool, 2, 1, [], true⟩,
  ⟨0x1C10, 2, 0x0F, 0x0F, .u32, 0, 0, [], false⟩,
  ⟨0x1C10, 2, 0x10, 0x10, .u8, 0, 0, [], false⟩,
  ⟨0x1C10, 2, 0x11, 0x11, .u16, 1, 133, [], true⟩,
  ⟨0x1C10, 2, 0x12, 0x12, .u32, 0, 0, [], false⟩,
  ⟨0x1C10, 2, 0x13, 0x13, .u32, 0, 0, [], false⟩,
  ⟨0x1C10, 2, 0x14, 0x14, .u32, 0, 0, [], false⟩,
  ⟨0x1C10, 2, 0x15, 0x15, .u32, 0, 0, [], false⟩,
  ⟨0x1C10, 2, 0x20, 0x27, .u32, 0, 0, [], false⟩,
  ⟨0x1C20, 1, 0x01, 0x01, .u16, 0, 0, [], false⟩,
  ⟨0x1C20, 1, 0x02, 0x02, .u32, 0, 0, [], false⟩]

def page1Cb : List Entry := [
  ⟨0x1C20, 1, 0x03, 0x03, .u32, 0, 0, [], false⟩,
  ⟨0x1C20, 1, 0x04, 0x04, .u8, 0, 0, [], false⟩]

def page1C : List Entry := page1Ca ++ page1Cb

def page1D : List Entry := [
  ⟨0x1D00, 1, 0x01, 0x01, .u8, 0, 0, [], false⟩,
  ⟨0x1D00, 1, 0x02, 0x02, .u64, 2, 0, [], true⟩,
  ⟨0x1D00, 1, 0x03, 0x03, .u64, 2, 0, [], true⟩,
  ⟨0x1D00, 1, 0x04, 0x04, .u16, 2, 600, [(60, 3600)], true⟩,
  ⟨0x1D00, 1, 0x05, 0x05, .u32, 0, 0, [], false⟩,
  ⟨0x1D00, 1, 0x06, 0x06, .u8, 0, 0, [], false⟩,
  ⟨0x1D00, 1, 0x07, 0x07, .u16, 1, 1000, [(0, 0), (100, 10000)], true⟩,
  ⟨0x1D00, 1, 0x08, 0x08, .u8, 1, 3, [(0, 3)], true⟩,
  ⟨0x1D00, 1, 0x09, 0x09, .u32, 0, 0, [], false⟩,
  ⟨0x1D00, 1, 0x0A, 0x0A, .u32, 0, 0, [], false⟩,
  ⟨0x1D00, 1, 0x0B, 0x0B, .u32, 0, 0, [], false⟩,
  ⟨0x1D00, 1, 0x0C, 0x0C, .u32, 0, 0, [], false⟩,
  ⟨0x1D00, 1, 0x0D, 0x0D, .u16, 1, 255, [(0, 255)], true⟩,
  ⟨0x1D00, 1, 0x0E, 0x0E, .u16, 0, 0, [], false⟩,
  ⟨0x1D00, 1, 0x0F, 0x0F, .u16, 1, 0, [], false⟩,
  ⟨0x1D00, 1, 0x10, 0x10, .u8, 0, 0, [], false⟩,
  ⟨0x1D00, 1, 0x11, 0x11, .u16, 1, 200, [(0, 10000)], true⟩,
  ⟨0x1D00, 1, 0x12, 0x12, .u32, 0, 4294967295, [], false⟩,
  ⟨0x1D00, 1, 0x13, 0x13, .u32, 0, 0, [], false⟩]

def page1E : List Entry := [
  ⟨0x1E00, 1, 0x01, 0x01, .u16, 0, 0, [], false⟩,
  ⟨0x1E00, 1, 0x02, 0x02, .u8, 1, 0, [(0, 1)], true⟩,
  ⟨0x1E00, 1, 0x03, 0x03, .bool, 2, 0, [], true⟩,
  ⟨0x1E00, 1, 0x04, 0x04, .u32, 0, 0, [], false⟩,
  ⟨0x1E00, 1, 0x05, 0x05, .u32, 0, 0, [], false⟩,
  ⟨0x1E00, 1, 0x06, 0x06, .u32, 0, 0, [], false⟩,
  ⟨0x1E00, 1, 0x07, 0x07, .u32, 0, 0, [], false⟩,
  ⟨0x1E00, 1, 0x08, 0x08, .u32, 0, 0, [], false⟩,
  ⟨0x1E00, 1, 0x09, 0x09, .u32, 0, 0, [], false⟩,
  ⟨0x1E00, 1, 0x0A, 0x0A, .u32, 0, 0, [], false⟩,
  ⟨0x1E00, 1, 0x0B, 0x0B, .u32, 0, 0, [], false⟩,
  ⟨0x1E00, 1, 0x0C, 0x0C, .u16, 0, 0, [], false⟩,
  ⟨0x1E00, 1, 0x0D, 0x0D, .u16, 0, 0, [], false⟩,
  ⟨0x1E00, 1, 0x0E, 0x0E, .u8, 0, 0, [], false⟩,
  ⟨0x1E00, 1, 0x0F, 0x0F, .u16, 0, 0, [], false⟩]

def page1F : List Entry := [
  ⟨0x1F00, 1, 0x01, 0x01, .bool, 2, 1, [], false⟩,
  ⟨0x1F00, 1, 0x02, 0x02, .bool, 2, 1, [], false⟩,
  ⟨0x1F00, 1, 0x03, 0x03, .u8, 0, 0, [], false⟩,
  ⟨0x1F00, 1, 0x04, 0x04, .u32, 0, 0, [], false⟩,
  ⟨0x1F01, 5, 0x01, 0x01, .u32, 0, 0, [], false⟩,
  ⟨0x1F01, 5, 0x02, 0x02, .u32, 0, 0, [], false⟩,
  ⟨0x1F01, 5, 0x03, 0x03, .u16, 0, 0, [], false⟩,
  ⟨0x1F01, 1, 0x04, 0x04, .u16, 1, 64, [(4, 4096)], false⟩,
  ⟨0x1F02, 1, 0x04, 0x04, .u16, 1, 16, [(4, 4096)], false⟩,
  ⟨0x1F03, 1, 0x04, 0x04, .u16, 1, 16, [(4, 4096)], false⟩,
  ⟨0x1F04, 1, 0x04, 0x04, .u16, 1, 16, [(4, 4096)], false⟩,
  ⟨0x1F05, 1, 0x04, 0x04, .u16, 1, 32, [(4, 4096)], false⟩,
  ⟨0x1F01, 1, 0x05, 0x05, .u16, 1, 60, [(1, 3600)], false⟩,
  ⟨0x1F02, 1, 0x05, 0x05, .u16, 1, 600, [(1, 3600)], false⟩,
  ⟨0x1F03, 1, 0x05, 0x05, .u16, 1, 600, [(1, 3600)], false⟩,
  ⟨0x1F04, 1, 0x05, 0x05, .u16, 1, 600, [(1, 3600)], false⟩,
  ⟨0x1F05, 1, 0x05, 0x05, .u16, 1, 300, [(1, 3600)], false⟩,
  ⟨0x1F01, 5, 0x06, 0x06, .u32, 0, 0, [], false⟩,
  ⟨0x1F01, 5, 0x07, 0x07, .u32, 0, 4294967295, [], false⟩,
  ⟨0x1F01, 5, 0x08, 0x08, .u32, 0, 4294967295, [], false⟩,
  ⟨0x1F01, 5, 0x09, 0x09, .u32, 0, 4294967295, [], false⟩,
  ⟨0x1F01, 5, 0x0A, 0x0A, .u32, 0, 0, [], false⟩,
  ⟨0x1F01, 5, 0x0B, 0x0B, .u32, 0, 0, [], false⟩,
  ⟨0x1F01, 5, 0x0C, 0x0C, .u32, 0, 0, [], false⟩]

def page20 : List Entry := [
  ⟨0x2000, 1, 0x01, 0x01, .u8, 0, 0, [], false⟩,
  ⟨0x2000, 1, 0x02, 0x02, .u32, 0, 0, [], false⟩,
  ⟨0x2000, 1, 0x03, 0x03, .u32, 0, 0, [], false⟩,
  ⟨0x2000, 1, 0x04, 0x04, .u32, 0, 0, [], false⟩,
  ⟨0x2000, 1, 0x05, 0x05, .u32, 1, 0, [], false⟩,
  ⟨0x2000, 1, 0x06, 0x06, .u8, 2, 0, [], false⟩,
  ⟨0x2000, 1, 0x07, 0x07, .u8, 1, 0, [(0, 2)], true⟩,
  ⟨0x2000, 1, 0x08, 0x08, .u16, 1, 63, [], true⟩,
  ⟨0x2000, 1, 0x09, 0x09, .u32, 0, 0, [], false⟩,
  ⟨0x2000, 1, 0x0A, 0x0A, .u16, 0, 0, [], false⟩,
  ⟨0x2000, 1, 0x0B, 0x0B, .u32, 0, 0, [], false⟩,
  ⟨0x2000, 1, 0x0C, 0x0C, .u32, 0, 0, [], false⟩,
  ⟨0x2000, 1, 0x0D, 0x0D, .u32, 0, 0, [], false⟩]

def page21 : List Entry := [
  ⟨0x2100, 1, 0x01, 0x01, .t48, 0, 0, [], false⟩,
  ⟨0x2100, 1, 0x02, 0x02, .i64, 1, 0, [], false⟩,
  ⟨0x2100, 1, 0x03, 0x03, .u16, 0, 0, [], false⟩,
  ⟨0x2100, 1, 0x04, 0x04, .u64, 1, 0, [], false⟩,
  ⟨0x2100, 1, 0x05, 0x05, .u8, 0, 255, [], false⟩,
  ⟨0x2100, 1, 0x06, 0x06, .u16, 0, 0, [], false⟩,
  ⟨0x2100, 1, 0x07, 0x07, .u8, 1, 0, [(1, 2)], false⟩,
  ⟨0x2100, 1, 0x08, 0x08, .i16, 1, 0, [(-32767, 32767)], false⟩,
  ⟨0x2100, 1, 0x09, 0x09, .i16, 2, 2500, [], true⟩,
  ⟨0x2100, 1, 0x0A, 0x0A, .u16, 2, 34, [(0, 100)], true⟩,
  ⟨0x2100, 1, 0x0B, 0x0B, .i32, 2, 0, [(-200000, 200000)], true⟩,
  ⟨0x2100, 1, 0x0C, 0x0C, .bool, 2, 1, [], true⟩,
  ⟨0x2100, 1, 0x0D, 0x0D, .i16, 0, 0, [], false⟩,
  ⟨0x2100, 1, 0x0E, 0x0E, .i16, 0, 0, [], false⟩,
  ⟨0x2100, 1, 0x0F, 0x0F, .u16, 0, 0, [], false⟩,
  ⟨0x2100, 1, 0x10, 0x10, .u32, 0, 0, [], false⟩,
  ⟨0x2100, 1, 0x11, 0x11, .u8, 1, 0, [(0, 127)], true⟩,
  ⟨0x2100, 1, 0x12, 0x12, .u16, 1, 33, [(1, 32767)], true⟩,
  ⟨0x2100, 1, 0x13, 0x13, .u16, 1, 0, [(0, 3600)], true⟩,
  ⟨0x2100, 1, 0x14, 0x14, .u8, 1, 3, [(0, 3)], true⟩,
  ⟨0x2100, 1, 0x15, 0x15, .u32, 0, 0, [], false⟩,
  ⟨0x2101, 2, 0x01, 0x01, .u64, 1, 0, [], true⟩,
  ⟨0x2101, 2, 0x02, 0x02, .u8, 1, 0, [], false⟩,
  ⟨0x2101, 2, 0x03, 0x03, .u32, 0, 0, [], false⟩,
  ⟨0x2101, 2, 0x04, 0x04, .t48, 0, 0, [], false⟩]

def page22 : List Entry := [
  ⟨0x2200, 1, 0x01, 0x01, .u8, 1, 0, [(0, 1)], true⟩,
  ⟨0x2200, 1, 0x02, 0x02, .u8, 0, 0, [], false⟩,
  ⟨0x2200, 1, 0x03, 0x03, .u16, 0, 0, [], false⟩,
  ⟨0x2200, 1, 0x04, 0x04, .u8, 1, 0, [], false⟩,
  ⟨0x2200, 1, 0x05, 0x05, .u8, 2, 43, [], true⟩,
  ⟨0x2200, 1, 0x06, 0x06, .i16, 0, 0, [], false⟩,
  ⟨0x2200, 1, 0x07, 0x07, .u8, 0, 0, [], false⟩,
  ⟨0x2200, 1, 0x08, 0x08, .u16, 0, 0, [], false⟩,
  ⟨0x2200, 1, 0x09, 0x09, .u8, 1, 1, [(0, 2)], true⟩,
  ⟨0x2200, 1, 0x0A, 0x0A, .u8, 1, 0, [], false⟩,
  ⟨0x2200, 1, 0x0B, 0x0B, .u8, 1, 15, [(1, 15)], true⟩,
  ⟨0x2200, 1, 0x0C, 0x0C, .u32, 0, 0, [], false⟩,
  ⟨0x2200, 1, 0x0D, 0x0D, .u32, 0, 0, [], false⟩,
  ⟨0x2200, 1, 0x0E, 0x0E, .u32, 0, 0, [], false⟩,
  ⟨0x2200, 1, 0x0F, 0x0F, .u32, 0, 0, [], false⟩,
  ⟨0x2200, 1, 0x10, 0x10, .u32, 0, 0, [], false⟩,
  ⟨0x2200, 1, 0x11, 0x11, .u32, 0, 0, [], false⟩,
  ⟨0x2200, 1, 0x12, 0x12, .u32, 0, 0, [], false⟩,
  ⟨0x2200, 1, 0x20, 0x27, .u32, 1, 0, [], true⟩,
  ⟨0x2200, 1, 0x28, 0x2F, .u16, 0, 0, [], false⟩,
  ⟨0x2200, 1, 0x30, 0x37, .u8, 1, 0, [], true⟩]

def page23 : List Entry := [
  ⟨0x2300, 1, 0x01, 0x01, .bool, 2, 1, [], true⟩,
  ⟨0x2300, 1, 0x02, 0x02, .u8, 2, 2, [(1, 10)], true⟩,
  ⟨0x2300, 1, 0x03, 0x03, .u8, 2, 4, [(2, 16)], true⟩,
  ⟨0x2300, 1, 0x04, 0x04, .u16, 1, 1500, [(500, 10000)], true⟩,
  ⟨0x2300, 1, 0x05, 0x05, .u16, 1, 600, [(200, 5000)], true⟩,
  ⟨0x2300, 1, 0x06, 0x06, .u16, 1, 100, [(20, 2000)], true⟩,
  ⟨0x2300, 1, 0x07, 0x07, .u16, 1, 60, [(10, 3600)], true⟩,
  ⟨0x2300, 1, 0x08, 0x08, .u16, 2, 292, [], true⟩,
  ⟨0x2300, 1, 0x09, 0x09, .u64, 0, 0, [], false⟩,
  ⟨0x2300, 1, 0x0A, 0x0A, .u64, 0, 0, [], false⟩,
  ⟨0x2300, 1, 0x0B, 0x0B, .u64, 0, 0, [], false⟩,
  ⟨0x2300, 1, 0x0C, 0x0C, .u32, 0, 0, [], false⟩,
  ⟨0x2300, 1, 0x0D, 0x0D, .u32, 0, 0, [], false⟩,
  ⟨0x2300, 1, 0x0E, 0x0E, .u32, 0, 0, [], false⟩,
  ⟨0x2300, 1, 0x0F, 0x0F, .u32, 0, 0, [], false⟩,
  ⟨0x2300, 1, 0x40, 0x63, .u8, 1, 0, [(0, 2)], true⟩]

def page24 : List Entry := [
  ⟨0x2400, 1, 0x01, 0x01, .u8, 2, 1, [(0, 2)], false⟩,
  ⟨0x2400, 1, 0x02, 0x02, .u32, 0, 0, [], false⟩,
  ⟨0x2400, 1, 0x03, 0x03, .u32, 0, 0, [], false⟩,
  ⟨0x2400, 1, 0x04, 0x04, .u32, 0, 0, [], false⟩,
  ⟨0x2400, 1, 0x05, 0x05, .u8, 2, 0, [(1, 8), (255, 255)], false⟩,
  ⟨0x2401, 8, 0x01, 0x01, .u8, 0, 0, [], false⟩,
  ⟨0x2401, 8, 0x02, 0x02, .u8, 0, 0, [], false⟩,
  ⟨0x2401, 1, 0x03, 0x03, .u16, 2, 0, [], false⟩,
  ⟨0x2402, 1, 0x03, 0x03, .u16, 2, 0, [], false⟩,
  ⟨0x2403, 1, 0x03, 0x03, .u16, 2, 1, [], false⟩,
  ⟨0x2404, 1, 0x03, 0x03, .u16, 2, 2, [], false⟩,
  ⟨0x2405, 1, 0x03, 0x03, .u16, 2, 0, [], false⟩,
  ⟨0x2406, 1, 0x03, 0x03, .u16, 2, 0, [], false⟩,
  ⟨0x2407, 1, 0x03, 0x03, .u16, 2, 0, [], false⟩,
  ⟨0x2408, 1, 0x03, 0x03, .u16, 2, 0, [], false⟩,
  ⟨0x2401, 8, 0x04, 0x04, .str, 0, 0, [], false⟩,
  ⟨0x2401, 8, 0x05, 0x05, .str, 0, 0, [], false⟩,
  ⟨0x2401, 8, 0x06, 0x06, .u8, 0, 0, [], false⟩]

def page25 : List Entry := [
  ⟨0x2500, 1, 0x01, 0x01, .u8, 1, 0, [(0, 1)], true⟩,
  ⟨0x2500, 1, 0x02, 0x02, .u16, 0, 0, [], false⟩,
  ⟨0x2500, 1, 0x03, 0x03, .u16, 2, 8000, [(7500, 40000)], true⟩,
  ⟨0x2500, 1, 0x04, 0x04, .u8, 2, 3, [(0, 3)], true⟩,
  ⟨0x2500, 1, 0x05, 0x05, .u16, 0, 0, [], false⟩,
  ⟨0x2500, 1, 0x06, 0x06, .u16, 0, 0, [], false⟩,
  ⟨0x2500, 1, 0x07, 0x07, .u16, 0, 0, [], false⟩,
  ⟨0x2500, 1, 0x08, 0x08, .u8, 1, 1, [(0, 1)], true⟩,
  ⟨0x2500, 1, 0x09, 0x09, .u8, 1, 0, [], true⟩,
  ⟨0x2500, 1, 0x0A, 0x0A, .u16, 1, 300, [(10, 3600)], true⟩,
  ⟨0x2500, 1, 0x0B, 0x0B, .u32, 0, 0, [], false⟩,
  ⟨0x2500, 1, 0x0C, 0x0C, .u32, 0, 0, [], false⟩,
  ⟨0x2500, 1, 0x0D, 0x0D, .u16, 0, 0, [], false⟩,
  ⟨0x2500, 1, 0x0E, 0x0E, .u16, 0, 0, [], false⟩,
  ⟨0x2500, 1, 0x0F, 0x0F, .u16, 0, 65535, [], false⟩]

def page26 : List Entry := [
  ⟨0x2600, 1, 0x01, 0x01, .u8, 0, 0, [], false⟩,
  ⟨0x2600, 1, 0x02, 0x02, .u8, 2, 0, [], false⟩,
  ⟨0x2600, 1, 0x03, 0x03, .u8, 0, 0, [], false⟩,
  ⟨0x2600, 1, 0x04, 0x04, .u8, 0, 0, [], true⟩,
  ⟨0x2600, 1, 0x05, 0x05, .u8, 0, 255, [], true⟩,
  ⟨0x2600, 1, 0x06, 0x06, .u16, 2, 600, [(60, 65535)], true⟩,
  ⟨0x2600, 1, 0x07, 0x07, .u16, 0, 0, [], false⟩,
  ⟨0x2600, 1, 0x08, 0x08, .u32, 0, 0, [], false⟩,
  ⟨0x2600, 1, 0x09, 0x09, .u32, 0, 0, [], false⟩,
  ⟨0x2600, 1, 0x0A, 0x0A, .u8, 0, 0, [], false⟩,
  ⟨0x2600, 1, 0x0B, 0x0B, .u8, 0, 0, [], false⟩,
  ⟨0x2600, 1, 0x0C, 0x0C, .u8, 0, 0, [], false⟩,
  ⟨0x2600, 1, 0x0D, 0x0D, .u32, 0, 0, [], false⟩]

def page30 : List Entry := [
  ⟨0x3000, 64, 0x01, 0x01, .u8, 1, 0, [(0, 2)], false⟩,
  ⟨0x3000, 64, 0x02, 0x02, .u8, 1, 255, [(0, 31), (255, 255)], false⟩,
  ⟨0x3000, 64, 0x03, 0x03, .u32, 1, 0, [], false⟩,
  ⟨0x3000, 64, 0x04, 0x04, .u32, 1, 0, [], false⟩,
  ⟨0x3000, 64, 0x05, 0x05, .u16, 1, 0, [], false⟩,
  ⟨0x3000, 64, 0x06, 0x06, .bool, 1, 1, [], false⟩,
  ⟨0x3000, 64, 0x07, 0x07, .i32, 1, 0, [], false⟩,
  ⟨0x3000, 64, 0x08, 0x08, .i32, 1, 0, [], false⟩,
  ⟨0x3000, 64, 0x09, 0x09, .i32, 1, 0, [], false⟩,
  ⟨0x3000, 64, 0x0A, 0x0A, .u32, 1, 0, [], false⟩,
  ⟨0x3000, 64, 0x0B, 0x0B, .u32, 1, 0, [], false⟩,
  ⟨0x3000, 64, 0x0C, 0x0C, .u32, 1, 0, [], false⟩,
  ⟨0x3000, 64, 0x0D, 0x0D, .u16, 1, 100, [(1, 60000)], false⟩,
  ⟨0x3000, 64, 0x0E, 0x0E, .u32, 1, 0, [(0, 1000000)], false⟩,
  ⟨0x3000, 64, 0x0F, 0x0F, .u32, 1, 1000000, [(0, 1000000)], false⟩,
  ⟨0x3000, 64, 0x10, 0x10, .u32, 1, 0, [], false⟩,
  ⟨0x3000, 64, 0x11, 0x11, .u32, 1, 0, [(0, 1000000)], false⟩,
  ⟨0x3000, 64, 0x12, 0x12, .u32, 1, 0, [(0, 1000000)], false⟩,
  ⟨0x3000, 64, 0x13, 0x13, .u8, 1, 0, [(0, 1)], false⟩,
  ⟨0x3000, 64, 0x14, 0x14, .bool, 1, 1, [], false⟩,
  ⟨0x3000, 64, 0x15, 0x15, .u32, 1, 0, [(0, 1000000)], false⟩,
  ⟨0x3000, 64, 0x16, 0x16, .u32, 1, 0, [], false⟩,
  ⟨0x3000, 64, 0x17, 0x17, .i32, 0, 0, [], false⟩,
  ⟨0x3000, 64, 0x18, 0x18, .i32, 0, 0, [], false⟩,
  ⟨0x3000, 64, 0x19, 0x19, .u32, 0, 0, [], false⟩,
  ⟨0x3000, 64, 0x1A, 0x1A, .i64, 0, 0, [], false⟩,
  ⟨0x3000, 64, 0x1B, 0x1B, .u16, 0, 0, [], false⟩,
  ⟨0x3000, 64, 0x1C, 0x1C, .u32, 0, 0, [], false⟩]

def page31 : List Entry := [
  ⟨0x3100, 32, 0x01, 0x01, .bool, 1, 0, [], false⟩,
  ⟨0x3100, 32, 0x02, 0x02, .u8, 0, 255, [], false⟩,
  ⟨0x3100, 32, 0x10, 0x1F, .u32, 1, 0, [], false⟩,
  ⟨0x3120, 1, 0x01, 0x40, .u32, 1, 0, [], false⟩]

def page32 : List Entry := [
  ⟨0x3200, 32, 0x01, 0x01, .u8, 1, 255, [(0, 31), (255, 255)], false⟩,
  ⟨0x3200, 32, 0x02, 0x02, .u8, 1, 255, [(0, 3), (255, 255)], false⟩,
  ⟨0x3200, 32, 0x03, 0x03, .u16, 1, 0, [], false⟩,
  ⟨0x3200, 32, 0x04, 0x04, .u64, 1, 18446744073709551615, [], false⟩,
  ⟨0x3200, 32, 0x05, 0x05, .u8, 1, 3, [(0, 3)], false⟩,
  ⟨0x3200, 32, 0x06, 0x06, .u16, 1, 300, [(0, 7200)], false⟩,
  ⟨0x3200, 32, 0x07, 0x07, .u8, 1, 2, [(0, 3)], false⟩,
  ⟨0x3200, 32, 0x08, 0x08, .u8, 0, 2, [], false⟩,
  ⟨0x3200, 32, 0x09, 0x09, .u8, 0, 0, [], false⟩]

def page50a : List Entry := [
  ⟨0x5000, 8192, 0x01, 0x01, .u8, 1, 0, [(0, 4)], false⟩,
  ⟨0x5000, 8192, 0x02, 0x02, .u64, 1, 0, [], false⟩,
  ⟨0x5000, 8192, 0x03, 0x03, .bool, 1, 1, [], false⟩,
  ⟨0x5000, 8192, 0x04, 0x04, .u16, 1, 32768, [(3277, 32768)], false⟩,
  ⟨0x5000, 8192, 0x05, 0x05, .u16, 1, 18752, [(1, 65532)], false⟩,
  ⟨0x5000, 8192, 0x06, 0x06, .u16, 1, 0, [], false⟩,
  ⟨0x5000, 8192, 0x07, 0x07, .u16, 1, 500, [(1, 1000)], false⟩,
  ⟨0x5000, 8192, 0x08, 0x08, .u8, 1, 0, [(0, 3)], false⟩,
  ⟨0x5000, 8192, 0x09, 0x09, .u32, 1, 0, [], false⟩,
  ⟨0x5000, 8192, 0x0A, 0x0A, .u32, 1, 0, [], false⟩,
  ⟨0x5000, 8192, 0x0B, 0x0B, .u32, 1, 64, [], false⟩,
  ⟨0x5000, 8192, 0x0C, 0x0C, .u8, 1, 3, [(1, 255)], false⟩,
  ⟨0x5000, 8192, 0x0D, 0x0D, .u8, 1, 2, [(0, 3)], false⟩,
  ⟨0x5000, 8192, 0x0E, 0x0E, .u16, 1, 0, [(0, 3600)], false⟩,
  ⟨0x5000, 8192, 0x0F, 0x0F, .u8, 1, 0, [(0, 1)], false⟩,
  ⟨0x5000, 8192, 0x10, 0x10, .u16, 1, 128, [(16, 2048)], false⟩,
  ⟨0x5000, 8192, 0x11, 0x11, .u32, 1, 64, [(1, 65535)], false⟩,
  ⟨0x5000, 8192, 0x12, 0x12, .u8, 1, 3, [(1, 255)], false⟩,
  ⟨0x5000, 8192, 0x13, 0x13, .u16, 1, 10, [(1, 3600)], false⟩,
  ⟨0x5000, 8192, 0x20, 0x20, .u16, 0, 0, [], false⟩,
  ⟨0x5000, 8192, 0x21, 0x21, .u16, 0, 0, [], false⟩,
  ⟨0x5000, 8192, 0x22, 0x22, .u16, 0, 0, [], false⟩,
  ⟨0x5000, 8192, 0x23, 0x23, .u32, 0, 0, [], false⟩,
  ⟨0x5000, 8192, 0x24, 0x24, .u32, 0, 0, [], false⟩,
  ⟨0x5000, 8192, 0x25, 0x25, .u32, 0, 0, [], false⟩,
  ⟨0x5000, 8192, 0x26, 0x26, .u32, 0, 0, [], false⟩,
  ⟨0x5000, 8192, 0x27, 0x27, .u16, 0, 0, [], false⟩,
  ⟨0x5000, 8192, 0x28, 0x28, .u32, 0, 0, [], false⟩,
  ⟨0x5000, 8192, 0x29, 0x29, .u32, 0, 0, [], false⟩,
  ⟨0x5000, 8192, 0x2A, 0x2A, .u8, 0, 0, [], false⟩]

def page50b : List Entry := [
  ⟨0x5000, 8192, 0x2B, 0x2B, .bool, 0, 0, [], false⟩,
  ⟨0x5000, 8192, 0x2C, 0x2C, .u32, 0, 0, [], false⟩,
  ⟨0x5000, 8192, 0x2D, 0x2D, .u16, 0, 0, [], false⟩,
  ⟨0x5000, 8192, 0x2E, 0x2E, .domain, 0, 0, [], false⟩]

def page50 : List Entry := page50a ++ page50b

def page70a : List Entry := [
  ⟨0x7010, 1, 0x01, 0x01, .domain, 2, 0, [], false⟩,
  ⟨0x7010, 1, 0x02, 0x02, .domain, 2, 0, [], false⟩,
  ⟨0x7010, 1, 0x03, 0x03, .domain, 3, 0, [], false⟩,
  ⟨0x7010, 1, 0x04, 0x04, .domain, 1, 0, [], false⟩,
  ⟨0x7010, 1, 0x05, 0x05, .domain, 3, 0, [], false⟩,
  ⟨0x7010, 1, 0x06, 0x06, .domain, 0, 0, [], false⟩,
  ⟨0x7010, 1, 0x07, 0x07, .domain, 0, 0, [], false⟩,
  ⟨0x7010, 1, 0x08, 0x08, .domain, 2, 0, [], false⟩,
  ⟨0x7020, 1, 0x01, 0x01, .domain, 2, 0, [], false⟩,
  ⟨0x7020, 1, 0x02, 0x02, .domain, 2, 0, [], false⟩,
  ⟨0x7020, 1, 0x03, 0x03, .domain, 2, 0, [], false⟩,
  ⟨0x7020, 1, 0x04, 0x04, .domain, 2, 0, [], false⟩,
  ⟨0x7020, 1, 0x05, 0x05, .domain, 2, 0, [], false⟩,
  ⟨0x7020, 1, 0x06, 0x06, .domain, 2, 0, [], false⟩,
  ⟨0x7030, 1, 0x01, 0x01, .domain, 2, 0, [], false⟩,
  ⟨0x7030, 1, 0x02, 0x02, .domain, 0, 0, [], false⟩,
  ⟨0x7030, 1, 0x03, 0x03, .domain, 1, 0, [], false⟩,
  ⟨0x7030, 1, 0x04, 0x04, .domain, 0, 0, [], false⟩,
  ⟨0x7040, 1, 0x01, 0x01, .domain, 2, 0, [], false⟩,
  ⟨0x7040, 1, 0x02, 0x02, .domain, 2, 0, [], false⟩,
  ⟨0x7050, 1, 0x01, 0x01, .domain, 2, 0, [], true⟩,
  ⟨0x7060, 1, 0x01, 0x08, .domain, 0, 0, [], false⟩,
  ⟨0x7070, 1, 0x01, 0x01, .domain, 1, 0, [], false⟩,
  ⟨0x7070, 1, 0x02, 0x02, .domain, 0, 0, [], false⟩,
  ⟨0x7070, 1, 0x03, 0x03, .domain, 0, 0, [], false⟩,
  ⟨0x7080, 1, 0x01, 0x01, .domain, 1, 0, [], false⟩,
  ⟨0x7080, 1, 0x02, 0x02, .domain, 2, 0, [], false⟩,
  ⟨0x7090, 1, 0x01, 0x01, .domain, 0, 0, [], false⟩,
  ⟨0x7090, 1, 0x02, 0x02, .domain, 0, 0, [], false⟩,
  ⟨0x7090, 1, 0x03, 0x03, .domain, 1, 0, [], false⟩]

def page70b : List Entry := [
  ⟨0x70A0, 1, 0x01, 0x01, .domain, 2, 0, [], false⟩,
  ⟨0x70A0, 1, 0x02, 0x02, .domain, 2, 0, [], true⟩,
  ⟨0x70A0, 1, 0x03, 0x03, .domain, 1, 0, [], false⟩,
  ⟨0x70A0, 1, 0x04, 0x04, .domain, 0, 0, [], false⟩,
  ⟨0x70A0, 1, 0x05, 0x05, .domain, 0, 0, [], false⟩,
  ⟨0x70B0, 1, 0x01, 0x01, .domain, 2, 0, [], false⟩,
  ⟨0x70B0, 1, 0x02, 0x02, .domain, 0, 0, [], false⟩,
  ⟨0x70B0, 1, 0x03, 0x03, .domain, 0, 0, [], false⟩]

def page70 : List Entry := page70a ++ page70b

/-- The rows of the tables that can hold an index, by its upper byte (R412). -/
def pageOf (index : Nat) : List Entry :=
  if Nat.ble 0x5000 index && Nat.blt index 0x7000 then page50 else
  match index / 256 with
  | 0x10 => page10
  | 0x11 => page11
  | 0x12 => page12
  | 0x13 => page13
  | 0x14 => page14
  | 0x15 => page15
  | 0x16 => page16
  | 0x17 => page17
  | 0x18 => page18
  | 0x19 => page19
  | 0x1A => page1A
  | 0x1B => page1B
  | 0x1C => page1C
  | 0x1D => page1D
  | 0x1E => page1E
  | 0x1F => page1F
  | 0x20 => page20
  | 0x21 => page21
  | 0x22 => page22
  | 0x23 => page23
  | 0x24 => page24
  | 0x25 => page25
  | 0x26 => page26
  | 0x30 => page30
  | 0x31 => page31
  | 0x32 => page32
  | 0x70 => page70
  | _ => []

/-- The row of index.sub, none where the ledger has no such entry (R412: answered NO_OBJECT). -/
def findEntry (key : Nat) : Option Entry :=
  (pageOf (key / 256)).find? fun e => e.holds (key / 256) (key % 256)

/-- Bytes of the value at a key; 0 where there is no entry. -/
def keyBytes (key : Nat) : Nat :=
  match findEntry key with
  | some e => e.ty.bytes
  | none => 0

/-- The value of a key at tide start (R385). -/
def keyDefault (key : Nat) : Nat :=
  match findEntry key with
  | some e => e.dflt
  | none => 0

/-- Width in bits of the value at a key. -/
def keyBits (key : Nat) : Nat := 8 * keyBytes key

end Sys2Proof.Machine

namespace Sys2Proof.Machine.Reg

/-- 0x1000.01 (R413). -/
abbrev DEVICE_CODE : Nat := 0x100001
/-- 0x1000.02 (R413). -/
abbrev VARIANT : Nat := 0x100002
/-- 0x1000.03 (R413). -/
abbrev STEPPING : Nat := 0x100003
/-- 0x1000.04 (R413). -/
abbrev SERIAL : Nat := 0x100004
/-- 0x1000.05 (R413). -/
abbrev BUILD_DATE : Nat := 0x100005
/-- 0x1000.06 (R413). -/
abbrev PHASE : Nat := 0x100006
/-- 0x1000.07 (R413). -/
abbrev POWER_MODE : Nat := 0x100007
/-- 0x1000.08 (R413). -/
abbrev DEVICE_STATUS : Nat := 0x100008
/-- 0x1000.09 (R413). -/
abbrev FW_RUNNING : Nat := 0x100009
/-- 0x1000.0A (R413). -/
abbrev FW_VERSION_A : Nat := 0x10000A
/-- 0x1000.0B (R413). -/
abbrev FW_VERSION_B : Nat := 0x10000B
/-- 0x1000.0C (R413). -/
abbrev FACTORY_TABLES : Nat := 0x10000C
/-- 0x1000.0D (R413). -/
abbrev RESET_CAUSE : Nat := 0x10000D
/-- 0x1000.0E (R413). -/
abbrev RESET_COMMAND : Nat := 0x10000E
/-- 0x1000.0F (R413). -/
abbrev POWER_UPS : Nat := 0x10000F
/-- 0x1000.10 (R413). -/
abbrev KLP_VERSION : Nat := 0x100010
/-- 0x1100.01 (R27). -/
abbrev TIDE_T64 : Nat := 0x110001
/-- 0x1100.02 (R27). -/
abbrev FRAME_NUMBER : Nat := 0x110002
/-- 0x1100.03 (R27). -/
abbrev ROW_SLOT : Nat := 0x110003
/-- 0x1100.04 (R27). -/
abbrev CLOCK_IN_ROW : Nat := 0x110004
/-- 0x1100.05 (R27). -/
abbrev RATE_MODE : Nat := 0x110005
/-- 0x1100.06 (R27). -/
abbrev RATE_ACTIVE : Nat := 0x110006
/-- 0x1100.07 (R27). -/
abbrev TIDE_STATUS : Nat := 0x110007
/-- 0x1100.08 (R27). -/
abbrev EPOCH_T64 : Nat := 0x110008
/-- 0x1100.09 (R27). -/
abbrev EPOCH_FRAME : Nat := 0x110009
/-- 0x1100.0A (R27). -/
abbrev EPOCH_TICK : Nat := 0x11000A
/-- 0x1100.0B (R27). -/
abbrev TICK_COUNT : Nat := 0x11000B
/-- 0x1100.0C (R27). -/
abbrev TICK_ROWS : Nat := 0x11000C
/-- 0x1100.0D (R27). -/
abbrev TICK_PERIOD_NS : Nat := 0x11000D
/-- 0x1100.0E (R27). -/
abbrev TIDE_START_TICKS : Nat := 0x11000E
/-- 0x1100.0F (R27). -/
abbrev MASTER_ERROR : Nat := 0x11000F
/-- 0x1100.10 (R27). -/
abbrev WINDOW_DEFERRALS : Nat := 0x110010
/-- 0x1100.11 (R27). -/
abbrev CLOCK_RETURN : Nat := 0x110011
/-- 0x1100.12 (R27). -/
abbrev MASTER_FAILS : Nat := 0x110012
/-- 0x1110.01 (R42). -/
abbrev MAINS_MODE : Nat := 0x111001
/-- 0x1110.02 (R42). -/
abbrev MAINS_NOMINAL : Nat := 0x111002
/-- 0x1110.03 (R42). -/
abbrev ZC_EDGES : Nat := 0x111003
/-- 0x1110.04 (R42). -/
abbrev ZC_ACTIVE_LOW : Nat := 0x111004
/-- 0x1110.05 (R42). -/
abbrev ZC_OFFSET : Nat := 0x111005
/-- 0x1110.06 (R42). -/
abbrev MAINS_STATE : Nat := 0x111006
/-- 0x1110.07 (R42). -/
abbrev HALF_PERIOD : Nat := 0x111007
/-- 0x1110.08 (R42). -/
abbrev MAINS_PHASE : Nat := 0x111008
/-- 0x1110.09 (R42). -/
abbrev MAINS_POLARITY : Nat := 0x111009
/-- 0x1110.0A (R42). -/
abbrev LAST_ZC_T64 : Nat := 0x11100A
/-- 0x1110.0B (R42). -/
abbrev HOLDOVER_TIME : Nat := 0x11100B
/-- 0x1110.0C (R42). -/
abbrev ZC_REJECTS : Nat := 0x11100C
/-- 0x1200.01 (R58). -/
abbrev GAIN_MODE : Nat := 0x120001
/-- 0x1200.02 (R58). -/
abbrev GAIN_ACTIVE : Nat := 0x120002
/-- 0x1200.03 (R58). -/
abbrev FPA_STATUS : Nat := 0x120003
/-- 0x1200.04 (R58). -/
abbrev SAT_PIXELS : Nat := 0x120004
/-- 0x1200.05 (R58). -/
abbrev SUNSTRUCK_PIXELS : Nat := 0x120005
/-- 0x1200.06 (R58). -/
abbrev SUN_HIGH_FRAMES : Nat := 0x120006
/-- 0x1200.07 (R58). -/
abbrev SUN_HOLD : Nat := 0x120007
/-- 0x1200.08 (R58). -/
abbrev SUN_TOLERANCE : Nat := 0x120008
/-- 0x1200.09 (R58). -/
abbrev INOPERABLE_PIXELS : Nat := 0x120009
/-- 0x1210.01 (R66). -/
abbrev BAND_TEMP (i : Nat) : Nat := 0x121001 + i
/-- 0x1210.11 (R66). -/
abbrev GRADIENT_LIMIT : Nat := 0x121011
/-- 0x1210.12 (R66). -/
abbrev GRADIENT_CLEAR : Nat := 0x121012
/-- 0x1210.13 (R66). -/
abbrev GRADIENT_FLAGS : Nat := 0x121013
/-- 0x1210.14 (R66). -/
abbrev GRADIENT_MAX : Nat := 0x121014
/-- 0x1210.15 (R66). -/
abbrev GRADIENT_EVENTS : Nat := 0x121015
/-- 0x1210.16 (R66). -/
abbrev SENSOR_EXCLUDED : Nat := 0x121016
/-- 0x1220.01 (R73). -/
abbrev SPARE_SHADOW : Nat := 0x122001
/-- 0x1220.02 (R73). -/
abbrev SPARE_TOLERANCE : Nat := 0x122002
/-- 0x1220.03 (R73). -/
abbrev TEST_TOLERANCE : Nat := 0x122003
/-- 0x1220.04 (R73). -/
abbrev SHADOW_INDEX : Nat := 0x122004
/-- 0x1220.05 (R73). -/
abbrev SPARE_SUBSTITUTIONS : Nat := 0x122005
/-- 0x1220.06 (R73). -/
abbrev SPARE_SINGLE_MISMATCH : Nat := 0x122006
/-- 0x1220.07 (R73). -/
abbrev TEST_FAILS : Nat := 0x122007
/-- 0x1221.01 (R73). -/
abbrev GROUP_STATE (i : Nat) : Nat := 0x122101 + i
/-- 0x1230.01 (R82). -/
abbrev SHUTTER_PRESENT : Nat := 0x123001
/-- 0x1230.02 (R82). -/
abbrev SHUTTER_POSITION : Nat := 0x123002
/-- 0x1230.03 (R82). -/
abbrev SHUTTER_TRAVEL : Nat := 0x123003
/-- 0x1230.04 (R82). -/
abbrev SHUTTER_STEPS : Nat := 0x123004
/-- 0x1230.05 (R82). -/
abbrev SHUTTER_STEP_CURRENT : Nat := 0x123005
/-- 0x1230.06 (R82). -/
abbrev SHUTTER_HOLD_CURRENT : Nat := 0x123006
/-- 0x1230.07 (R82). -/
abbrev FLAG_TEMP : Nat := 0x123007
/-- 0x1230.08 (R82). -/
abbrev FLAG_BETA : Nat := 0x123008
/-- 0x1230.09 (R82). -/
abbrev SHUTTER_MOVES : Nat := 0x123009
/-- 0x1230.0A (R82). -/
abbrev SHUTTER_FAULTS : Nat := 0x12300A
/-- 0x1300.01 (R91). -/
abbrev IMAGER_MODE : Nat := 0x130001
/-- 0x1300.02 (R91). -/
abbrev IMAGER_ACTIVE : Nat := 0x130002
/-- 0x1300.03 (R91). -/
abbrev OUTPUT_FORM : Nat := 0x130003
/-- 0x1300.04 (R91). -/
abbrev FRAME_FLAGS : Nat := 0x130004
/-- 0x1300.05 (R91). -/
abbrev DRIFT_ENABLE : Nat := 0x130005
/-- 0x1300.06 (R91). -/
abbrev COLUMN_TRACK : Nat := 0x130006
/-- 0x1300.07 (R91). -/
abbrev COLUMN_TRACK_SHIFT : Nat := 0x130007
/-- 0x1300.08 (R91). -/
abbrev FILTER_SHIFT : Nat := 0x130008
/-- 0x1300.09 (R91). -/
abbrev FILTER_THRESHOLD : Nat := 0x130009
/-- 0x1300.0A (R91). -/
abbrev NEIGHBOUR_POLICY : Nat := 0x13000A
/-- 0x1300.0B (R91). -/
abbrev FILL_MAX_FRAMES : Nat := 0x13000B
/-- 0x1300.0C (R91). -/
abbrev BAD_PIXELS : Nat := 0x13000C
/-- 0x1300.0D (R91). -/
abbrev REPLACED_PIXELS : Nat := 0x13000D
/-- 0x1300.0E (R91). -/
abbrev INVALID_PIXELS : Nat := 0x13000E
/-- 0x1300.0F (R91). -/
abbrev LOST_ROWS : Nat := 0x13000F
/-- 0x1300.10 (R91). -/
abbrev COEF_LOST : Nat := 0x130010
/-- 0x1300.11 (R91). -/
abbrev COEF_RELOADS : Nat := 0x130011
/-- 0x1300.12 (R91). -/
abbrev COEF_OVERRIDES : Nat := 0x130012
/-- 0x1300.13 (R91). -/
abbrev STALE_PIXELS : Nat := 0x130013
/-- 0x1300.14 (R91). -/
abbrev SCREENED_PIXELS : Nat := 0x130014
/-- 0x1310.01 (R111). -/
abbrev LENS_SOURCE : Nat := 0x131001
/-- 0x1310.02 (R111). -/
abbrev LENS_TRANSMISSION : Nat := 0x131002
/-- 0x1310.03 (R111). -/
abbrev LENS_F_NUMBER : Nat := 0x131003
/-- 0x1310.04 (R111). -/
abbrev LENS_FF_TABLE : Nat := 0x131004
/-- 0x1310.05 (R111). -/
abbrev RESP_HIGH : Nat := 0x131005
/-- 0x1310.06 (R111). -/
abbrev RESP_LOW : Nat := 0x131006
/-- 0x1310.07 (R111). -/
abbrev FLAG_TEMP_REF : Nat := 0x131007
/-- 0x1310.08 (R111). -/
abbrev BLOCK_A_CENTRE : Nat := 0x131008
/-- 0x1310.09 (R111). -/
abbrev BLOCK_B_CENTRE : Nat := 0x131009
/-- 0x1310.0A (R111). -/
abbrev LENS_FF_FILLED_LO : Nat := 0x13100A
/-- 0x1310.0B (R111). -/
abbrev LENS_FF_FILLED_HI : Nat := 0x13100B
/-- 0x1400.01 (R136). -/
abbrev CAL_STATE : Nat := 0x140001
/-- 0x1400.02 (R136). -/
abbrev CAL_COMMAND : Nat := 0x140002
/-- 0x1400.03 (R136). -/
abbrev CAL_STATUS : Nat := 0x140003
/-- 0x1400.04 (R136). -/
abbrev CAL_DELTA_T : Nat := 0x140004
/-- 0x1400.05 (R136). -/
abbrev CAL_INTERVAL : Nat := 0x140005
/-- 0x1400.06 (R136). -/
abbrev CAL_MIN_GAP : Nat := 0x140006
/-- 0x1400.07 (R136). -/
abbrev CAL_AGREE_HIGH : Nat := 0x140007
/-- 0x1400.08 (R136). -/
abbrev CAL_AGREE_LOW : Nat := 0x140008
/-- 0x1400.09 (R136). -/
abbrev CAL_ACCEPT_PPM : Nat := 0x140009
/-- 0x1400.0A (R136). -/
abbrev FLAG_SPREAD_LIMIT : Nat := 0x14000A
/-- 0x1400.0B (R136). -/
abbrev CAL_TRIGGERS : Nat := 0x14000B
/-- 0x1400.0C (R136). -/
abbrev CAL_LAST_REASON : Nat := 0x14000C
/-- 0x1400.0D (R136). -/
abbrev CAL_FRAME : Nat := 0x14000D
/-- 0x1400.0E (R136). -/
abbrev CAL_TICKS : Nat := 0x14000E
/-- 0x1400.0F (R136). -/
abbrev CAL_ACCEPTED : Nat := 0x14000F
/-- 0x1400.10 (R136). -/
abbrev CAL_REJECTED : Nat := 0x140010
/-- 0x1400.11 (R136). -/
abbrev CAL_REJECT_RUN : Nat := 0x140011
/-- 0x1400.12 (R136). -/
abbrev SETTLE_RATE : Nat := 0x140012
/-- 0x1400.13 (R136). -/
abbrev SETTLE_MAX : Nat := 0x140013
/-- 0x1400.14 (R136). -/
abbrev PARKED_SOURCE : Nat := 0x140014
/-- 0x1401.01 (R136). -/
abbrev BAND_REF (i : Nat) : Nat := 0x140101 + i
/-- 0x1410.01 (R159). -/
abbrev REF_WINDOW_LOW : Nat := 0x141001
/-- 0x1410.02 (R159). -/
abbrev REF_WINDOW_HIGH : Nat := 0x141002
/-- 0x1410.03 (R159). -/
abbrev REF_TARGET : Nat := 0x141003
/-- 0x1410.04 (R159). -/
abbrev SPARE_TRIM_LIMIT : Nat := 0x141004
/-- 0x1410.05 (R159). -/
abbrev SPARE_MISMATCH_LIMIT : Nat := 0x141005
/-- 0x1410.06 (R159). -/
abbrev ADC_GAIN_LIMIT : Nat := 0x141006
/-- 0x1410.07 (R159). -/
abbrev ADC_OFFSET_LIMIT : Nat := 0x141007
/-- 0x1410.08 (R159). -/
abbrev ADC_RESIDUAL_LIMIT : Nat := 0x141008
/-- 0x1410.09 (R159). -/
abbrev SMALL_RESULT : Nat := 0x141009
/-- 0x1410.0A (R159). -/
abbrev REF_KEPT : Nat := 0x14100A
/-- 0x1410.0B (R159). -/
abbrev QUAL_FAILED : Nat := 0x14100B
/-- 0x1420.01 (R163). -/
abbrev RNU : Nat := 0x142001
/-- 0x1420.02 (R163). -/
abbrev RNU_WARN : Nat := 0x142002
/-- 0x1420.03 (R163). -/
abbrev AGREE_FRACTION : Nat := 0x142003
/-- 0x1420.04 (R163). -/
abbrev DISAGREE_PIXELS : Nat := 0x142004
/-- 0x1420.05 (R163). -/
abbrev NOISY_ADDED : Nat := 0x142005
/-- 0x1420.06 (R163). -/
abbrev FLAG_SPREAD : Nat := 0x142006
/-- 0x1420.07 (R163). -/
abbrev SPARE_MISMATCH : Nat := 0x142007
/-- 0x1420.08 (R163). -/
abbrev ADC_RESIDUAL : Nat := 0x142008
/-- 0x1420.09 (R163). -/
abbrev CAL_AGE : Nat := 0x142009
/-- 0x1500.01 (R195). -/
abbrev BERTHS_DEFINED : Nat := 0x150001
/-- 0x1500.02 (R195). -/
abbrev ROW_LOAD_MAX : Nat := 0x150002
/-- 0x1500.03 (R195). -/
abbrev EDIT_HOLD : Nat := 0x150003
/-- 0x1500.04 (R195). -/
abbrev EDITS_PENDING : Nat := 0x150004
/-- 0x1500.05 (R195). -/
abbrev ALARMS_ACTIVE : Nat := 0x150005
/-- 0x1500.06 (R195). -/
abbrev OCCUPIED_BERTHS : Nat := 0x150006
/-- 0x1500.07 (R195). -/
abbrev ENGINE_STATUS : Nat := 0x150007
/-- 0x1500.08 (R195). -/
abbrev TABLE_FRAME : Nat := 0x150008
/-- 0x1500.09 (R195). -/
abbrev REPORT_BUDGET : Nat := 0x150009
/-- 0x1500.0A (R195). -/
abbrev REPORT_CHANNEL : Nat := 0x15000A
/-- 0x1500.0B (R195). -/
abbrev REPORTS_DEFERRED : Nat := 0x15000B
/-- 0x1600.01 (R203). -/
abbrev VIDEO_ENABLE : Nat := 0x160001
/-- 0x1600.02 (R203). -/
abbrev LANES : Nat := 0x160002
/-- 0x1600.03 (R203). -/
abbrev LANE_RATE : Nat := 0x160003
/-- 0x1600.04 (R203). -/
abbrev CLOCK_CONTINUOUS : Nat := 0x160004
/-- 0x1600.05 (R203). -/
abbrev LANE_POLARITY : Nat := 0x160005
/-- 0x1600.06 (R203). -/
abbrev VC1_ENABLE : Nat := 0x160006
/-- 0x1600.07 (R203). -/
abbrev TAG_LINES : Nat := 0x160007
/-- 0x1600.08 (R203). -/
abbrev VC2_REQUEST : Nat := 0x160008
/-- 0x1600.09 (R203). -/
abbrev DESKEW_PERIOD : Nat := 0x160009
/-- 0x1600.0A (R203). -/
abbrev VIDEO_STATUS : Nat := 0x16000A
/-- 0x1600.0B (R203). -/
abbrev LINK_MARGIN : Nat := 0x16000B
/-- 0x1600.0C (R203). -/
abbrev FRAMES_SENT : Nat := 0x16000C
/-- 0x1600.0D (R203). -/
abbrev FROZEN_FRAMES : Nat := 0x16000D
/-- 0x1600.0E (R203). -/
abbrev VC2_PLANES : Nat := 0x16000E
/-- 0x1600.0F (R203). -/
abbrev LINE_GAP_FRAMES : Nat := 0x16000F
/-- 0x1700.01 (R224). -/
abbrev QUAY_ROLES : Nat := 0x170001
/-- 0x1700.02 (R224). -/
abbrev QUAY_MODE : Nat := 0x170002
/-- 0x1700.03 (R224). -/
abbrev OWNER : Nat := 0x170003
/-- 0x1700.04 (R224). -/
abbrev CONTROL_MODE : Nat := 0x170004
/-- 0x1700.05 (R224). -/
abbrev HM_COMMAND : Nat := 0x170005
/-- 0x1700.06 (R224). -/
abbrev HM_STATUS : Nat := 0x170006
/-- 0x1700.07 (R224). -/
abbrev HB_MISSES : Nat := 0x170007
/-- 0x1700.08 (R224). -/
abbrev WILD_STROBES : Nat := 0x170008
/-- 0x1700.09 (R224). -/
abbrev FAILOVERS : Nat := 0x170009
/-- 0x1700.0A (R224). -/
abbrev FAILOVER_TOTAL : Nat := 0x17000A
/-- 0x1700.0B (R224). -/
abbrev LAST_OUTAGE : Nat := 0x17000B
/-- 0x1700.0C (R224). -/
abbrev MAX_OUTAGE : Nat := 0x17000C
/-- 0x1700.0D (R224). -/
abbrev CHECKPOINT_TICK : Nat := 0x17000D
/-- 0x1700.0E (R224). -/
abbrev CHECKPOINT_BAD : Nat := 0x17000E
/-- 0x1700.0F (R224). -/
abbrev CHECKPOINT_BYTES : Nat := 0x17000F
/-- 0x1700.10 (R224). -/
abbrev WHARF_REJECTS : Nat := 0x170010
/-- 0x1700.11 (R224). -/
abbrev REJOIN_LIMIT : Nat := 0x170011
/-- 0x1700.12 (R224). -/
abbrev SELF_CHECK_TIMEOUT : Nat := 0x170012
/-- 0x1700.13 (R224). -/
abbrev WATCHDOG_TIMEOUT : Nat := 0x170013
/-- 0x1700.14 (R224). -/
abbrev STACK_DEPTH : Nat := 0x170014
/-- 0x1700.15 (R224). -/
abbrev STACK_OVERFLOWS : Nat := 0x170015
/-- 0x1700.16 (R224). -/
abbrev STORM_ENTRIES : Nat := 0x170016
/-- 0x1700.17 (R224). -/
abbrev STORM_AUTO_EXIT : Nat := 0x170017
/-- 0x1700.18 (R224). -/
abbrev SALVAGE_ON_FAILOVER : Nat := 0x170018
/-- 0x1700.19 (R224). -/
abbrev QUAY_FAILS_A : Nat := 0x170019
/-- 0x1700.1A (R224). -/
abbrev QUAY_FAILS_B : Nat := 0x17001A
/-- 0x1700.1B (R224). -/
abbrev PREFERRED_QUAY : Nat := 0x17001B
/-- 0x1701.01 (R247). -/
abbrev FAULT_ENTRY (i : Nat) : Nat := 0x170101 + i
/-- 0x1701.05 (R247). -/
abbrev FAULT_LAST : Nat := 0x170105
/-- 0x1710.01 (R249). -/
abbrev STORM_DAMPER (i : Nat) : Nat := 0x171001 + i
/-- 0x1710.05 (R249). -/
abbrev STORM_VALVE (i : Nat) : Nat := 0x171005 + i
/-- 0x1710.09 (R249). -/
abbrev STORM_TRIAC (i : Nat) : Nat := 0x171009 + i
/-- 0x1710.0D (R249). -/
abbrev STORM_AO (i : Nat) : Nat := 0x17100D + i
/-- 0x1710.11 (R249). -/
abbrev STORM_PANEL : Nat := 0x171011
/-- 0x1710.12 (R249). -/
abbrev STORM_BUS : Nat := 0x171012
/-- 0x1720.01 (R259). -/
abbrev SALVAGE_HELD : Nat := 0x172001
/-- 0x1720.02 (R259). -/
abbrev SALVAGE_COUNT : Nat := 0x172002
/-- 0x1720.03 (R259). -/
abbrev SALVAGE_SUPPRESSED : Nat := 0x172003
/-- 0x1720.04 (R259). -/
abbrev SALVAGE_RELEASE : Nat := 0x172004
/-- 0x1720.05 (R259). -/
abbrev SALVAGE_TICKS : Nat := 0x172005
/-- 0x1800.01 (R264). -/
abbrev LOOP_ENABLE : Nat := 0x180001
/-- 0x1800.02 (R264). -/
abbrev MASTER_SOURCE : Nat := 0x180002
/-- 0x1800.03 (R264). -/
abbrev AUTO_TIMEOUT : Nat := 0x180003
/-- 0x1800.04 (R264). -/
abbrev AUTO_REASON : Nat := 0x180004
/-- 0x1800.05 (R264). -/
abbrev LOOPS_ACTIVE : Nat := 0x180005
/-- 0x1800.06 (R264). -/
abbrev TICK_OVERRUNS : Nat := 0x180006
/-- 0x1800.07 (R264). -/
abbrev SCHED_STATUS : Nat := 0x180007
/-- 0x1810.01 (R294). -/
abbrev TABLE_STATUS : Nat := 0x181001
/-- 0x1810.02 (R294). -/
abbrev TABLE_SOURCE : Nat := 0x181002
/-- 0x1810.03 (R294). -/
abbrev TABLE_TEMP_1 : Nat := 0x181003
/-- 0x1810.04 (R294). -/
abbrev TABLE_TEMP_2 : Nat := 0x181004
/-- 0x1810.05 (R294). -/
abbrev TABLE_CMD_1 : Nat := 0x181005
/-- 0x1810.06 (R294). -/
abbrev TABLE_CMD_2 : Nat := 0x181006
/-- 0x1810.07 (R294). -/
abbrev TABLE_TAKEOVERS : Nat := 0x181007
/-- 0x1810.08 (R294). -/
abbrev SOURCE_CHANGES : Nat := 0x181008
/-- 0x1900.01 (R313). -/
abbrev ACT_STATUS : Nat := 0x190001
/-- 0x1900.02 (R313). -/
abbrev THERMAL_EVENTS : Nat := 0x190002
/-- 0x1901.01 (R299). -/
abbrev OUT_MODE (i : Nat) : Nat := 0x190101 + 256 * i
/-- 0x1901.02 (R299). -/
abbrev OUT_COMMAND (i : Nat) : Nat := 0x190102 + 256 * i
/-- 0x1901.03 (R299). -/
abbrev OUT_LEVEL (i : Nat) : Nat := 0x190103 + 256 * i
/-- 0x1901.04 (R299). -/
abbrev OUT_STATUS (i : Nat) : Nat := 0x190104 + 256 * i
/-- 0x1901.05 (R299). -/
abbrev OUT_CURRENT (i : Nat) : Nat := 0x190105 + 256 * i
/-- 0x1901.06 (R299). -/
abbrev OUT_FAULTS (i : Nat) : Nat := 0x190106 + 256 * i
/-- 0x1901.10 (R299). -/
abbrev DMP_VFULL (i : Nat) : Nat := 0x190110 + 256 * i
/-- 0x1901.11 (R299). -/
abbrev DMP_RUNTIME (i : Nat) : Nat := 0x190111 + 256 * i
/-- 0x1901.12 (R299). -/
abbrev DMP_POSITION (i : Nat) : Nat := 0x190112 + 256 * i
/-- 0x1905.10 (R299). -/
abbrev VLV_PEAK_TIME (i : Nat) : Nat := 0x190510 + 256 * i
/-- 0x1905.11 (R299). -/
abbrev VLV_HOLD (i : Nat) : Nat := 0x190511 + 256 * i
/-- 0x1909.10 (R299). -/
abbrev TRG_PULSE (i : Nat) : Nat := 0x190910 + 256 * i
/-- 0x1909.11 (R299). -/
abbrev TRG_GUARD (i : Nat) : Nat := 0x190911 + 256 * i
/-- 0x1A00.01 (R319). -/
abbrev FAN_PFAIL_RUN : Nat := 0x1A0001
/-- 0x1A00.02 (R319). -/
abbrev FAN_SUMMARY : Nat := 0x1A0002
/-- 0x1A20.01 (R319). -/
abbrev FAN_COMMAND (i : Nat) : Nat := 0x1A2001 + 256 * i
/-- 0x1A20.02 (R319). -/
abbrev FAN_VFULL (i : Nat) : Nat := 0x1A2002 + 256 * i
/-- 0x1A20.03 (R319). -/
abbrev FAN_VSTART (i : Nat) : Nat := 0x1A2003 + 256 * i
/-- 0x1A20.04 (R319). -/
abbrev FAN_VMIN (i : Nat) : Nat := 0x1A2004 + 256 * i
/-- 0x1A20.05 (R319). -/
abbrev FAN_ILIMIT (i : Nat) : Nat := 0x1A2005 + 256 * i
/-- 0x1A20.06 (R319). -/
abbrev FAN_TACHS (i : Nat) : Nat := 0x1A2006 + 256 * i
/-- 0x1A20.07 (R319). -/
abbrev FAN_RIPPLE_PPR (i : Nat) : Nat := 0x1A2007 + 256 * i
/-- 0x1A20.08 (R319). -/
abbrev FAN_BAND (i j : Nat) : Nat := 0x1A2008 + 256 * i + j
/-- 0x1A20.0C (R319). -/
abbrev FAN_TARGET (i : Nat) : Nat := 0x1A200C + 256 * i
/-- 0x1A20.0D (R319). -/
abbrev FAN_VOUT (i : Nat) : Nat := 0x1A200D + 256 * i
/-- 0x1A20.0E (R319). -/
abbrev FAN_IOUT (i : Nat) : Nat := 0x1A200E + 256 * i
/-- 0x1A20.0F (R319). -/
abbrev FAN_STATE (i : Nat) : Nat := 0x1A200F + 256 * i
/-- 0x1A20.10 (R319). -/
abbrev FAN_STATUS (i : Nat) : Nat := 0x1A2010 + 256 * i
/-- 0x1A20.11 (R319). -/
abbrev FAN_ATTEMPT (i : Nat) : Nat := 0x1A2011 + 256 * i
/-- 0x1A20.12 (R319). -/
abbrev FAN_RIPPLE_RATE (i : Nat) : Nat := 0x1A2012 + 256 * i
/-- 0x1A20.13 (R319). -/
abbrev FAN_STALLS (i : Nat) : Nat := 0x1A2013 + 256 * i
/-- 0x1A30.01 (R319). -/
abbrev TACH_PPR (i : Nat) : Nat := 0x1A3001 + 256 * i
/-- 0x1A30.02 (R319). -/
abbrev TACH_RPM (i : Nat) : Nat := 0x1A3002 + 256 * i
/-- 0x1A30.03 (R319). -/
abbrev TACH_STATE (i : Nat) : Nat := 0x1A3003 + 256 * i
/-- 0x1A30.04 (R319). -/
abbrev RPM_PER_V (i : Nat) : Nat := 0x1A3004 + 256 * i
/-- 0x1A30.05 (R319). -/
abbrev RIPPLE_RPM (i : Nat) : Nat := 0x1A3005 + 256 * i
/-- 0x1A30.06 (R319). -/
abbrev TACH_NOISE (i : Nat) : Nat := 0x1A3006 + 256 * i
/-- 0x1B00.01 (R336). -/
abbrev SEQ_PERIOD : Nat := 0x1B0001
/-- 0x1B00.02 (R336). -/
abbrev ADC_STATUS : Nat := 0x1B0002
/-- 0x1B00.03 (R336). -/
abbrev ADC_CAL_COMMAND : Nat := 0x1B0003
/-- 0x1B00.04 (R336). -/
abbrev URGENT_REQUEST : Nat := 0x1B0004
/-- 0x1B00.05 (R336). -/
abbrev URGENT_RESULT : Nat := 0x1B0005
/-- 0x1B00.06 (R336). -/
abbrev URGENT_DROPS : Nat := 0x1B0006
/-- 0x1B00.07 (R336). -/
abbrev ROUND_OVERRUNS : Nat := 0x1B0007
/-- 0x1B00.08 (R336). -/
abbrev OVR_EVENTS : Nat := 0x1B0008
/-- 0x1B00.09 (R336). -/
abbrev ADC_CAL_TICKS : Nat := 0x1B0009
/-- 0x1B01.01 (R342). -/
abbrev ADC_GAIN (i : Nat) : Nat := 0x1B0101 + i
/-- 0x1B01.07 (R342). -/
abbrev ADC_OFFSET (i : Nat) : Nat := 0x1B0107 + i
/-- 0x1B10.01 (R337). -/
abbrev AI_MODE (i : Nat) : Nat := 0x1B1001 + 256 * i
/-- 0x1B10.02 (R337). -/
abbrev AI_AVG (i : Nat) : Nat := 0x1B1002 + 256 * i
/-- 0x1B10.03 (R337). -/
abbrev AI_SETTLE (i : Nat) : Nat := 0x1B1003 + 256 * i
/-- 0x1B10.04 (R337). -/
abbrev AI_UNIT (i : Nat) : Nat := 0x1B1004 + 256 * i
/-- 0x1B10.05 (R337). -/
abbrev SCALE_IN_LOW (i : Nat) : Nat := 0x1B1005 + 256 * i
/-- 0x1B10.06 (R337). -/
abbrev SCALE_IN_HIGH (i : Nat) : Nat := 0x1B1006 + 256 * i
/-- 0x1B10.07 (R337). -/
abbrev SCALE_OUT_LOW (i : Nat) : Nat := 0x1B1007 + 256 * i
/-- 0x1B10.08 (R337). -/
abbrev SCALE_OUT_HIGH (i : Nat) : Nat := 0x1B1008 + 256 * i
/-- 0x1B10.09 (R337). -/
abbrev NTC_RNOM (i : Nat) : Nat := 0x1B1009 + 256 * i
/-- 0x1B10.0A (R337). -/
abbrev NTC_BETA (i : Nat) : Nat := 0x1B100A + 256 * i
/-- 0x1B10.0B (R337). -/
abbrev AI_CODE (i : Nat) : Nat := 0x1B100B + 256 * i
/-- 0x1B10.0C (R337). -/
abbrev AI_VALUE (i : Nat) : Nat := 0x1B100C + 256 * i
/-- 0x1B10.0D (R337). -/
abbrev AI_FLAGS (i : Nat) : Nat := 0x1B100D + 256 * i
/-- 0x1B10.0E (R337). -/
abbrev AI_T64 (i : Nat) : Nat := 0x1B100E + 256 * i
/-- 0x1B10.0F (R337). -/
abbrev AI_SOURCE (i : Nat) : Nat := 0x1B100F + 256 * i
/-- 0x1B20.0B (R337). -/
abbrev AI_CODE_INT (i : Nat) : Nat := 0x1B200B + 256 * i
/-- 0x1B20.0C (R337). -/
abbrev AI_VALUE_INT (i : Nat) : Nat := 0x1B200C + 256 * i
/-- 0x1B20.0D (R337). -/
abbrev AI_FLAGS_INT (i : Nat) : Nat := 0x1B200D + 256 * i
/-- 0x1B20.0E (R337). -/
abbrev AI_T64_INT (i : Nat) : Nat := 0x1B200E + 256 * i
/-- 0x1B40.01 (R345). -/
abbrev DI_STATE : Nat := 0x1B4001
/-- 0x1B40.02 (R345). -/
abbrev DI_RAW : Nat := 0x1B4002
/-- 0x1B40.03 (R345). -/
abbrev DI_STUCK : Nat := 0x1B4003
/-- 0x1B40.04 (R345). -/
abbrev DI_CHATTER : Nat := 0x1B4004
/-- 0x1B41.01 (R345). -/
abbrev DI_CONFIG (i : Nat) : Nat := 0x1B4101 + 256 * i
/-- 0x1B41.02 (R345). -/
abbrev DI_FILTER (i : Nat) : Nat := 0x1B4102 + 256 * i
/-- 0x1B41.03 (R345). -/
abbrev DI_STUCK_TIME (i : Nat) : Nat := 0x1B4103 + 256 * i
/-- 0x1B41.04 (R345). -/
abbrev DI_CHATTER_EDGES (i : Nat) : Nat := 0x1B4104 + 256 * i
/-- 0x1B41.05 (R345). -/
abbrev DI_CHATTER_WINDOW (i : Nat) : Nat := 0x1B4105 + 256 * i
/-- 0x1B41.06 (R345). -/
abbrev DI_STATUS (i : Nat) : Nat := 0x1B4106 + 256 * i
/-- 0x1B41.07 (R345). -/
abbrev DI_ACTIVATIONS (i : Nat) : Nat := 0x1B4107 + 256 * i
/-- 0x1B41.08 (R345). -/
abbrev DI_SUPPRESSED (i : Nat) : Nat := 0x1B4108 + 256 * i
/-- 0x1C00.01 (R380). -/
abbrev NODE_ID : Nat := 0x1C0001
/-- 0x1C00.02 (R380). -/
abbrev BUS_FAILOVER : Nat := 0x1C0002
/-- 0x1C00.03 (R380). -/
abbrev ALARM_CHANNELS : Nat := 0x1C0003
/-- 0x1C00.04 (R380). -/
abbrev PV_TX_CHANNELS : Nat := 0x1C0004
/-- 0x1C00.05 (R380). -/
abbrev PV_TX_PERIOD : Nat := 0x1C0005
/-- 0x1C00.06 (R380). -/
abbrev NODE_CLASHES : Nat := 0x1C0006
/-- 0x1C10.01 (R381). -/
abbrev BUS_MODE (i : Nat) : Nat := 0x1C1001 + 256 * i
/-- 0x1C10.02 (R381). -/
abbrev BUS_ACTIVE (i : Nat) : Nat := 0x1C1002 + 256 * i
/-- 0x1C10.03 (R381). -/
abbrev NOM_BITRATE (i : Nat) : Nat := 0x1C1003 + 256 * i
/-- 0x1C10.04 (R381). -/
abbrev NOM_SAMPLE (i : Nat) : Nat := 0x1C1004 + 256 * i
/-- 0x1C10.05 (R381). -/
abbrev NOM_SJW (i : Nat) : Nat := 0x1C1005 + 256 * i
/-- 0x1C10.06 (R381). -/
abbrev TRIPLE_SAMPLE (i : Nat) : Nat := 0x1C1006 + 256 * i
/-- 0x1C10.07 (R381). -/
abbrev FD_ENABLE (i : Nat) : Nat := 0x1C1007 + 256 * i
/-- 0x1C10.08 (R381). -/
abbrev DATA_BITRATE (i : Nat) : Nat := 0x1C1008 + 256 * i
/-- 0x1C10.09 (R381). -/
abbrev DATA_SAMPLE (i : Nat) : Nat := 0x1C1009 + 256 * i
/-- 0x1C10.0A (R381). -/
abbrev TDC_OFFSET (i : Nat) : Nat := 0x1C100A + 256 * i
/-- 0x1C10.0B (R381). -/
abbrev BUS_STATUS (i : Nat) : Nat := 0x1C100B + 256 * i
/-- 0x1C10.0C (R381). -/
abbrev TEC (i : Nat) : Nat := 0x1C100C + 256 * i
/-- 0x1C10.0D (R381). -/
abbrev REC (i : Nat) : Nat := 0x1C100D + 256 * i
/-- 0x1C10.0E (R381). -/
abbrev BUSOFF_AUTO (i : Nat) : Nat := 0x1C100E + 256 * i
/-- 0x1C10.0F (R381). -/
abbrev BUSOFF_COUNT (i : Nat) : Nat := 0x1C100F + 256 * i
/-- 0x1C10.10 (R381). -/
abbrev LAST_ERROR (i : Nat) : Nat := 0x1C1010 + 256 * i
/-- 0x1C10.11 (R381). -/
abbrev RX_FILTER (i : Nat) : Nat := 0x1C1011 + 256 * i
/-- 0x1C10.12 (R381). -/
abbrev RX_OVERRUNS (i : Nat) : Nat := 0x1C1012 + 256 * i
/-- 0x1C10.13 (R381). -/
abbrev TX_DROPS (i : Nat) : Nat := 0x1C1013 + 256 * i
/-- 0x1C10.14 (R381). -/
abbrev TX_DISCARDS (i : Nat) : Nat := 0x1C1014 + 256 * i
/-- 0x1C10.15 (R381). -/
abbrev EXT_FRAMES (i : Nat) : Nat := 0x1C1015 + 256 * i
/-- 0x1C10.20 (R381). -/
abbrev TXQ_COUNT (i j : Nat) : Nat := 0x1C1020 + 256 * i + j
/-- 0x1C20.01 (R380). -/
abbrev BW_LIMITED : Nat := 0x1C2001
/-- 0x1C20.02 (R380). -/
abbrev BW_SUPPRESSED : Nat := 0x1C2002
/-- 0x1C20.03 (R380). -/
abbrev BW_SUMMARIES : Nat := 0x1C2003
/-- 0x1C20.04 (R380). -/
abbrev ALARM_SEQ : Nat := 0x1C2004
/-- 0x1D00.01 (R409). -/
abbrev ACCESS_LEVEL : Nat := 0x1D0001
/-- 0x1D00.02 (R409). -/
abbrev KEY_OPERATOR : Nat := 0x1D0002
/-- 0x1D00.03 (R409). -/
abbrev KEY_SERVICE : Nat := 0x1D0003
/-- 0x1D00.04 (R409). -/
abbrev UNLOCK_TIMEOUT : Nat := 0x1D0004
/-- 0x1D00.05 (R409). -/
abbrev UNLOCK_FAILS : Nat := 0x1D0005
/-- 0x1D00.06 (R409). -/
abbrev SESSIONS : Nat := 0x1D0006
/-- 0x1D00.07 (R409). -/
abbrev HB_PERIOD : Nat := 0x1D0007
/-- 0x1D00.08 (R409). -/
abbrev HB_CHANNELS : Nat := 0x1D0008
/-- 0x1D00.09 (R409). -/
abbrev KLP_REQUESTS : Nat := 0x1D0009
/-- 0x1D00.0A (R409). -/
abbrev KLP_DISCARDS : Nat := 0x1D000A
/-- 0x1D00.0B (R409). -/
abbrev KLP_DUPLICATES : Nat := 0x1D000B
/-- 0x1D00.0C (R409). -/
abbrev SPI_CRC_ERRORS : Nat := 0x1D000C
/-- 0x1D00.0D (R409). -/
abbrev IRQ_ENABLE : Nat := 0x1D000D
/-- 0x1D00.0E (R409). -/
abbrev IRQ_STATUS : Nat := 0x1D000E
/-- 0x1D00.0F (R409). -/
abbrev IRQ_CLEAR : Nat := 0x1D000F
/-- 0x1D00.10 (R409). -/
abbrev OPEN_TRANSFERS : Nat := 0x1D0010
/-- 0x1D00.11 (R409). -/
abbrev BULK_GAP : Nat := 0x1D0011
/-- 0x1D00.12 (R409). -/
abbrev MASTER_HB_AGE : Nat := 0x1D0012
/-- 0x1D00.13 (R409). -/
abbrev NET_IGNORED : Nat := 0x1D0013
/-- 0x1E00.01 (R442). -/
abbrev NV_STATUS : Nat := 0x1E0001
/-- 0x1E00.02 (R442). -/
abbrev NV_PAGE_MODE : Nat := 0x1E0002
/-- 0x1E00.03 (R442). -/
abbrev NV_HOST_LOCK : Nat := 0x1E0003
/-- 0x1E00.04 (R442). -/
abbrev NV_CODEWORDS : Nat := 0x1E0004
/-- 0x1E00.05 (R442). -/
abbrev NV_PFAIL_MERGES : Nat := 0x1E0005
/-- 0x1E00.06 (R442). -/
abbrev NV_UE_READS : Nat := 0x1E0006
/-- 0x1E00.07 (R442). -/
abbrev NV_WRITES_IGNORED : Nat := 0x1E0007
/-- 0x1E00.08 (R442). -/
abbrev PARAM_GENERATION : Nat := 0x1E0008
/-- 0x1E00.09 (R442). -/
abbrev PARAM_FREE : Nat := 0x1E0009
/-- 0x1E00.0A (R442). -/
abbrev PARAM_COMPACTIONS : Nat := 0x1E000A
/-- 0x1E00.0B (R442). -/
abbrev PARAM_SKIPPED : Nat := 0x1E000B
/-- 0x1E00.0C (R442). -/
abbrev QS_BYTES : Nat := 0x1E000C
/-- 0x1E00.0D (R442). -/
abbrev QS_LAST_US : Nat := 0x1E000D
/-- 0x1E00.0E (R442). -/
abbrev QS_LOADED : Nat := 0x1E000E
/-- 0x1E00.0F (R442). -/
abbrev TALLY_FAULTS : Nat := 0x1E000F
/-- 0x1F00.01 (R444). -/
abbrev DREDGER_ENABLE : Nat := 0x1F0001
/-- 0x1F00.02 (R444). -/
abbrev DREDGER_IDLE : Nat := 0x1F0002
/-- 0x1F00.03 (R444). -/
abbrev ECC_SUMMARY : Nat := 0x1F0003
/-- 0x1F00.04 (R444). -/
abbrev RMW_OPERATIONS : Nat := 0x1F0004
/-- 0x1F01.01 (R444). -/
abbrev ECC_CORRECTED (i : Nat) : Nat := 0x1F0101 + 256 * i
/-- 0x1F01.02 (R444). -/
abbrev ECC_UNCORRECTABLE (i : Nat) : Nat := 0x1F0102 + 256 * i
/-- 0x1F01.03 (R444). -/
abbrev BUCKET_LEVEL (i : Nat) : Nat := 0x1F0103 + 256 * i
/-- 0x1F01.04 (R444). -/
abbrev BUCKET_CAPACITY (i : Nat) : Nat := 0x1F0104 + 256 * i
/-- 0x1F01.05 (R444). -/
abbrev BUCKET_LEAK (i : Nat) : Nat := 0x1F0105 + 256 * i
/-- 0x1F01.06 (R444). -/
abbrev BUCKET_OVERFLOWS (i : Nat) : Nat := 0x1F0106 + 256 * i
/-- 0x1F01.07 (R444). -/
abbrev LAST_CORRECTED (i : Nat) : Nat := 0x1F0107 + 256 * i
/-- 0x1F01.08 (R444). -/
abbrev LAST_UNCORRECTABLE (i : Nat) : Nat := 0x1F0108 + 256 * i
/-- 0x1F01.09 (R444). -/
abbrev LAP_TIME (i : Nat) : Nat := 0x1F0109 + 256 * i
/-- 0x1F01.0A (R444). -/
abbrev LAP_MAX (i : Nat) : Nat := 0x1F010A + 256 * i
/-- 0x1F01.0B (R444). -/
abbrev WRITEBACKS (i : Nat) : Nat := 0x1F010B + 256 * i
/-- 0x1F01.0C (R444). -/
abbrev DOUBLE_CORRECTED (i : Nat) : Nat := 0x1F010C + 256 * i
/-- 0x2000.01 (R462). -/
abbrev LOG_STATUS : Nat := 0x200001
/-- 0x2000.02 (R462). -/
abbrev LOG_HEAD_SEQ : Nat := 0x200002
/-- 0x2000.03 (R462). -/
abbrev LOG_OLDEST_SEQ : Nat := 0x200003
/-- 0x2000.04 (R462). -/
abbrev LOG_OVERWRITTEN : Nat := 0x200004
/-- 0x2000.05 (R462). -/
abbrev LOG_CURSOR : Nat := 0x200005
/-- 0x2000.06 (R462). -/
abbrev LOG_CLEAR : Nat := 0x200006
/-- 0x2000.07 (R462). -/
abbrev LOG_STREAM : Nat := 0x200007
/-- 0x2000.08 (R462). -/
abbrev STREAM_FILTER : Nat := 0x200008
/-- 0x2000.09 (R462). -/
abbrev ANCHOR_HEAD_SEQ : Nat := 0x200009
/-- 0x2000.0A (R462). -/
abbrev RETIRED_BLOCKS : Nat := 0x20000A
/-- 0x2000.0B (R462). -/
abbrev LOG_DROPPED : Nat := 0x20000B
/-- 0x2000.0C (R462). -/
abbrev LOG_BAD_RECORDS : Nat := 0x20000C
/-- 0x2000.0D (R462). -/
abbrev LOG_CLEAR_SEQ : Nat := 0x20000D
/-- 0x2100.01 (R480). -/
abbrev RTC_TICKS : Nat := 0x210001
/-- 0x2100.02 (R480). -/
abbrev CALENDAR_OFFSET : Nat := 0x210002
/-- 0x2100.03 (R480). -/
abbrev OFFSET_GEN : Nat := 0x210003
/-- 0x2100.04 (R480). -/
abbrev DATE_TIME : Nat := 0x210004
/-- 0x2100.05 (R480). -/
abbrev WEEKDAY : Nat := 0x210005
/-- 0x2100.06 (R480). -/
abbrev TIME_STATUS : Nat := 0x210006
/-- 0x2100.07 (R480). -/
abbrev DST_COMMAND : Nat := 0x210007
/-- 0x2100.08 (R480). -/
abbrev SUBSEC_SHIFT : Nat := 0x210008
/-- 0x2100.09 (R480). -/
abbrev TRIM_T0 : Nat := 0x210009
/-- 0x2100.0A (R480). -/
abbrev TRIM_K : Nat := 0x21000A
/-- 0x2100.0B (R480). -/
abbrev TRIM_OFFSET : Nat := 0x21000B
/-- 0x2100.0C (R480). -/
abbrev TRIM_ENABLE : Nat := 0x21000C
/-- 0x2100.0D (R480). -/
abbrev TRIM_PULSES : Nat := 0x21000D
/-- 0x2100.0E (R480). -/
abbrev MOORING_TEMP : Nat := 0x21000E
/-- 0x2100.0F (R480). -/
abbrev VBAK_MV : Nat := 0x21000F
/-- 0x2100.10 (R480). -/
abbrev BACKUP_EVENTS : Nat := 0x210010
/-- 0x2100.11 (R480). -/
abbrev TIME_MASTER : Nat := 0x210011
/-- 0x2100.12 (R480). -/
abbrev TIME_DEADBAND : Nat := 0x210012
/-- 0x2100.13 (R480). -/
abbrev TIME_FRAME_PERIOD : Nat := 0x210013
/-- 0x2100.14 (R480). -/
abbrev TIME_CHANNELS : Nat := 0x210014
/-- 0x2100.15 (R480). -/
abbrev TIME_REJECTS : Nat := 0x210015
/-- 0x2101.01 (R480). -/
abbrev ALARM_MATCH (i : Nat) : Nat := 0x210101 + 256 * i
/-- 0x2101.02 (R480). -/
abbrev ALARM_STATUS (i : Nat) : Nat := 0x210102 + 256 * i
/-- 0x2101.03 (R480). -/
abbrev ALARM_COUNT (i : Nat) : Nat := 0x210103 + 256 * i
/-- 0x2101.04 (R480). -/
abbrev ALARM_LAST (i : Nat) : Nat := 0x210104 + 256 * i
/-- 0x2200.01 (R498). -/
abbrev PANEL_MODE : Nat := 0x220001
/-- 0x2200.02 (R498). -/
abbrev PANEL_ACTIVE : Nat := 0x220002
/-- 0x2200.03 (R498). -/
abbrev PANEL_STATUS : Nat := 0x220003
/-- 0x2200.04 (R498). -/
abbrev REGION_UPDATE : Nat := 0x220004
/-- 0x2200.05 (R498). -/
abbrev PANEL_TEMP_CHANNEL : Nat := 0x220005
/-- 0x2200.06 (R498). -/
abbrev PANEL_TEMP : Nat := 0x220006
/-- 0x2200.07 (R498). -/
abbrev PANEL_BAND : Nat := 0x220007
/-- 0x2200.08 (R498). -/
abbrev PANEL_VDRIVE : Nat := 0x220008
/-- 0x2200.09 (R498). -/
abbrev LIGHTHOUSE_LAYER : Nat := 0x220009
/-- 0x2200.0A (R498). -/
abbrev LH_STATE : Nat := 0x22000A
/-- 0x2200.0B (R498). -/
abbrev LH_ON_LEVEL : Nat := 0x22000B
/-- 0x2200.0C (R498). -/
abbrev UPDATES_DONE : Nat := 0x22000C
/-- 0x2200.0D (R498). -/
abbrev QUEUE_REPLACED : Nat := 0x22000D
/-- 0x2200.0E (R498). -/
abbrev URGENT_CUTS : Nat := 0x22000E
/-- 0x2200.0F (R498). -/
abbrev BAND_CORRECTIONS : Nat := 0x22000F
/-- 0x2200.10 (R498). -/
abbrev BAND_REDRIVES : Nat := 0x220010
/-- 0x2200.11 (R498). -/
abbrev FRAME_CRC_FAILS : Nat := 0x220011
/-- 0x2200.12 (R498). -/
abbrev DRIVE_FAULTS : Nat := 0x220012
/-- 0x2200.20 (R498). -/
abbrev REGION_CELLS (i : Nat) : Nat := 0x220020 + i
/-- 0x2200.28 (R498). -/
abbrev REGION_STATE (i : Nat) : Nat := 0x220028 + i
/-- 0x2200.30 (R498). -/
abbrev LH_CELL (i : Nat) : Nat := 0x220030 + i
/-- 0x2300.01 (R506). -/
abbrev KEY_DIODES : Nat := 0x230001
/-- 0x2300.02 (R506). -/
abbrev KEY_SCAN_PERIOD : Nat := 0x230002
/-- 0x2300.03 (R506). -/
abbrev KEY_DEBOUNCE : Nat := 0x230003
/-- 0x2300.04 (R506). -/
abbrev KEY_LONG_TIME : Nat := 0x230004
/-- 0x2300.05 (R506). -/
abbrev KEY_REPEAT_DELAY : Nat := 0x230005
/-- 0x2300.06 (R506). -/
abbrev KEY_REPEAT_PERIOD : Nat := 0x230006
/-- 0x2300.07 (R506). -/
abbrev KEY_STUCK_TIME : Nat := 0x230007
/-- 0x2300.08 (R506). -/
abbrev RESET_KEYS : Nat := 0x230008
/-- 0x2300.09 (R506). -/
abbrev KEY_STATE : Nat := 0x230009
/-- 0x2300.0A (R506). -/
abbrev KEY_AMBIGUOUS : Nat := 0x23000A
/-- 0x2300.0B (R506). -/
abbrev KEY_STUCK : Nat := 0x23000B
/-- 0x2300.0C (R506). -/
abbrev KEY_LAST_EVENT : Nat := 0x23000C
/-- 0x2300.0D (R506). -/
abbrev KEY_EVENTS : Nat := 0x23000D
/-- 0x2300.0E (R506). -/
abbrev KEY_EVENTS_LOST : Nat := 0x23000E
/-- 0x2300.0F (R506). -/
abbrev KEY_BLOCKED : Nat := 0x23000F
/-- 0x2300.40 (R506). -/
abbrev KEY_MODE (i : Nat) : Nat := 0x230040 + i
/-- 0x2400.01 (R353). -/
abbrev ID_SPEED : Nat := 0x240001
/-- 0x2400.02 (R353). -/
abbrev ID_STATUS : Nat := 0x240002
/-- 0x2400.03 (R353). -/
abbrev ID_READS : Nat := 0x240003
/-- 0x2400.04 (R353). -/
abbrev ID_ERRORS : Nat := 0x240004
/-- 0x2400.05 (R353). -/
abbrev ID_REREAD : Nat := 0x240005
/-- 0x2401.01 (R353). -/
abbrev SLOT_STATE (i : Nat) : Nat := 0x240101 + 256 * i
/-- 0x2401.02 (R353). -/
abbrev SLOT_KIND (i : Nat) : Nat := 0x240102 + 256 * i
/-- 0x2401.03 (R353). -/
abbrev SLOT_BIND (i : Nat) : Nat := 0x240103 + 256 * i
/-- 0x2401.04 (R353). -/
abbrev SLOT_PART (i : Nat) : Nat := 0x240104 + 256 * i
/-- 0x2401.05 (R353). -/
abbrev SLOT_SERIAL (i : Nat) : Nat := 0x240105 + 256 * i
/-- 0x2401.06 (R353). -/
abbrev SLOT_ATTEMPTS (i : Nat) : Nat := 0x240106 + 256 * i
/-- 0x2500.01 (R524). -/
abbrev POWER_REQUEST : Nat := 0x250001
/-- 0x2500.02 (R524). -/
abbrev POWER_STATUS : Nat := 0x250002
/-- 0x2500.03 (R524). -/
abbrev PFAIL_LEVEL : Nat := 0x250003
/-- 0x2500.04 (R524). -/
abbrev FEEDS_EXPECTED : Nat := 0x250004
/-- 0x2500.05 (R524). -/
abbrev VIN_A_MV : Nat := 0x250005
/-- 0x2500.06 (R524). -/
abbrev VIN_B_MV : Nat := 0x250006
/-- 0x2500.07 (R524). -/
abbrev VHOLD_MV : Nat := 0x250007
/-- 0x2500.08 (R524). -/
abbrev WAKE_SOURCES : Nat := 0x250008
/-- 0x2500.09 (R524). -/
abbrev WAKE_INPUTS : Nat := 0x250009
/-- 0x2500.0A (R524). -/
abbrev WAKE_HOLD : Nat := 0x25000A
/-- 0x2500.0B (R524). -/
abbrev BROWNOUTS : Nat := 0x25000B
/-- 0x2500.0C (R524). -/
abbrev RAIL_RESETS : Nat := 0x25000C
/-- 0x2500.0D (R524). -/
abbrev LIGHTS_MS : Nat := 0x25000D
/-- 0x2500.0E (R524). -/
abbrev OWNER_MS : Nat := 0x25000E
/-- 0x2500.0F (R524). -/
abbrev OPEN_S : Nat := 0x25000F
/-- 0x2600.01 (R535). -/
abbrev SLIP_STATE : Nat := 0x260001
/-- 0x2600.02 (R535). -/
abbrev SLIP_COMMAND : Nat := 0x260002
/-- 0x2600.03 (R535). -/
abbrev SLIP_TARGET : Nat := 0x260003
/-- 0x2600.04 (R535). -/
abbrev BOOT_SLOT : Nat := 0x260004
/-- 0x2600.05 (R535). -/
abbrev BOOT_TRIAL : Nat := 0x260005
/-- 0x2600.06 (R535). -/
abbrev SLIP_PROBATION : Nat := 0x260006
/-- 0x2600.07 (R535). -/
abbrev PROBATION_LEFT : Nat := 0x260007
/-- 0x2600.08 (R535). -/
abbrev SLIP_VERSION : Nat := 0x260008
/-- 0x2600.09 (R535). -/
abbrev SLIP_PROGRESS : Nat := 0x260009
/-- 0x2600.0A (R535). -/
abbrev SLIP_LAST_STATUS : Nat := 0x26000A
/-- 0x2600.0B (R535). -/
abbrev SECURITY_FLOOR : Nat := 0x26000B
/-- 0x2600.0C (R535). -/
abbrev SLIP_FLAGS : Nat := 0x26000C
/-- 0x2600.0D (R535). -/
abbrev SLIP_COMMITS : Nat := 0x26000D
/-- 0x3000.01 (R267). -/
abbrev LOOP_MODE (i : Nat) : Nat := 0x300001 + 256 * i
/-- 0x3000.02 (R267). -/
abbrev ZONE (i : Nat) : Nat := 0x300002 + 256 * i
/-- 0x3000.03 (R267). -/
abbrev PV_SOURCE (i : Nat) : Nat := 0x300003 + 256 * i
/-- 0x3000.04 (R267). -/
abbrev PV_BACKUP (i : Nat) : Nat := 0x300004 + 256 * i
/-- 0x3000.05 (R267). -/
abbrev TARGET (i : Nat) : Nat := 0x300005 + 256 * i
/-- 0x3000.06 (R267). -/
abbrev REVERSE (i : Nat) : Nat := 0x300006 + 256 * i
/-- 0x3000.07 (R267). -/
abbrev SP_ECONOMY (i : Nat) : Nat := 0x300007 + 256 * i
/-- 0x3000.08 (R267). -/
abbrev SP_NORMAL (i : Nat) : Nat := 0x300008 + 256 * i
/-- 0x3000.09 (R267). -/
abbrev SP_OCCUPIED (i : Nat) : Nat := 0x300009 + 256 * i
/-- 0x3000.0A (R267). -/
abbrev KP (i : Nat) : Nat := 0x30000A + 256 * i
/-- 0x3000.0B (R267). -/
abbrev TI (i : Nat) : Nat := 0x30000B + 256 * i
/-- 0x3000.0C (R267). -/
abbrev TD (i : Nat) : Nat := 0x30000C + 256 * i
/-- 0x3000.0D (R267). -/
abbrev PERIOD (i : Nat) : Nat := 0x30000D + 256 * i
/-- 0x3000.0E (R267). -/
abbrev OUT_MIN (i : Nat) : Nat := 0x30000E + 256 * i
/-- 0x3000.0F (R267). -/
abbrev OUT_MAX (i : Nat) : Nat := 0x30000F + 256 * i
/-- 0x3000.10 (R267). -/
abbrev OUT_SLEW (i : Nat) : Nat := 0x300010 + 256 * i
/-- 0x3000.11 (R267). -/
abbrev OUT_OFF (i : Nat) : Nat := 0x300011 + 256 * i
/-- 0x3000.12 (R267). -/
abbrev OUT_FAIL (i : Nat) : Nat := 0x300012 + 256 * i
/-- 0x3000.13 (R267). -/
abbrev FAIL_ACTION (i : Nat) : Nat := 0x300013 + 256 * i
/-- 0x3000.14 (R267). -/
abbrev REDUCED_OK (i : Nat) : Nat := 0x300014 + 256 * i
/-- 0x3000.15 (R267). -/
abbrev MANUAL_OUT (i : Nat) : Nat := 0x300015 + 256 * i
/-- 0x3000.16 (R267). -/
abbrev DEADBAND (i : Nat) : Nat := 0x300016 + 256 * i
/-- 0x3000.17 (R267). -/
abbrev PV (i : Nat) : Nat := 0x300017 + 256 * i
/-- 0x3000.18 (R267). -/
abbrev SP_ACTIVE (i : Nat) : Nat := 0x300018 + 256 * i
/-- 0x3000.19 (R267). -/
abbrev OUTPUT (i : Nat) : Nat := 0x300019 + 256 * i
/-- 0x3000.1A (R267). -/
abbrev INTEGRAL (i : Nat) : Nat := 0x30001A + 256 * i
/-- 0x3000.1B (R267). -/
abbrev LOOP_STATUS (i : Nat) : Nat := 0x30001B + 256 * i
/-- 0x3000.1C (R267). -/
abbrev PV_FAILS (i : Nat) : Nat := 0x30001C + 256 * i
/-- 0x3100.01 (R281). -/
abbrev PROG_ENABLE (i : Nat) : Nat := 0x310001 + 256 * i
/-- 0x3100.02 (R281). -/
abbrev PROG_VALUE (i : Nat) : Nat := 0x310002 + 256 * i
/-- 0x3100.10 (R281). -/
abbrev SWITCH_POINT (i j : Nat) : Nat := 0x310010 + 256 * i + j
/-- 0x3120.01 (R285). -/
abbrev EXCEPTION_DATE (i : Nat) : Nat := 0x312001 + i
/-- 0x3200.01 (R279). -/
abbrev ZONE_PROGRAM (i : Nat) : Nat := 0x320001 + 256 * i
/-- 0x3200.02 (R279). -/
abbrev ZONE_OVERRIDE (i : Nat) : Nat := 0x320002 + 256 * i
/-- 0x3200.03 (R279). -/
abbrev OVERRIDE_TIME (i : Nat) : Nat := 0x320003 + 256 * i
/-- 0x3200.04 (R279). -/
abbrev PRESENCE_SOURCES (i : Nat) : Nat := 0x320004 + 256 * i
/-- 0x3200.05 (R279). -/
abbrev PRESENCE_MODE (i : Nat) : Nat := 0x320005 + 256 * i
/-- 0x3200.06 (R279). -/
abbrev PRESENCE_HOLD (i : Nat) : Nat := 0x320006 + 256 * i
/-- 0x3200.07 (R279). -/
abbrev DEFAULT_MODE (i : Nat) : Nat := 0x320007 + 256 * i
/-- 0x3200.08 (R279). -/
abbrev ZONE_MODE (i : Nat) : Nat := 0x320008 + 256 * i
/-- 0x3200.09 (R279). -/
abbrev ZONE_STATUS (i : Nat) : Nat := 0x320009 + 256 * i
/-- 0x5000.01 (R170). -/
abbrev KIND (i : Nat) : Nat := 0x500001 + 256 * i
/-- 0x5000.02 (R170). -/
abbrev RECT (i : Nat) : Nat := 0x500002 + 256 * i
/-- 0x5000.03 (R170). -/
abbrev USE_MASK (i : Nat) : Nat := 0x500003 + 256 * i
/-- 0x5000.04 (R170). -/
abbrev EMISSIVITY (i : Nat) : Nat := 0x500004 + 256 * i
/-- 0x5000.05 (R170). -/
abbrev REFLECTED_TEMP (i : Nat) : Nat := 0x500005 + 256 * i
/-- 0x5000.06 (R170). -/
abbrev THRESHOLD (i : Nat) : Nat := 0x500006 + 256 * i
/-- 0x5000.07 (R170). -/
abbrev MIN_VALID (i : Nat) : Nat := 0x500007 + 256 * i
/-- 0x5000.08 (R170). -/
abbrev VALUE_STAT (i : Nat) : Nat := 0x500008 + 256 * i
/-- 0x5000.09 (R170). -/
abbrev ALARM_HIGH (i : Nat) : Nat := 0x500009 + 256 * i
/-- 0x5000.0A (R170). -/
abbrev ALARM_LOW (i : Nat) : Nat := 0x50000A + 256 * i
/-- 0x5000.0B (R170). -/
abbrev HYSTERESIS (i : Nat) : Nat := 0x50000B + 256 * i
/-- 0x5000.0C (R170). -/
abbrev ALARM_FRAMES (i : Nat) : Nat := 0x50000C + 256 * i
/-- 0x5000.0D (R170). -/
abbrev ALARM_CLASS (i : Nat) : Nat := 0x50000D + 256 * i
/-- 0x5000.0E (R170). -/
abbrev REPORT_PERIOD (i : Nat) : Nat := 0x50000E + 256 * i
/-- 0x5000.0F (R170). -/
abbrev REPORT_FORM (i : Nat) : Nat := 0x50000F + 256 * i
/-- 0x5000.10 (R170). -/
abbrev PRESENCE_DELTA (i : Nat) : Nat := 0x500010 + 256 * i
/-- 0x5000.11 (R170). -/
abbrev PRESENCE_MIN (i : Nat) : Nat := 0x500011 + 256 * i
/-- 0x5000.12 (R170). -/
abbrev PRESENCE_ON (i : Nat) : Nat := 0x500012 + 256 * i
/-- 0x5000.13 (R170). -/
abbrev PRESENCE_OFF (i : Nat) : Nat := 0x500013 + 256 * i
/-- 0x5000.20 (R170). -/
abbrev STAT_MIN (i : Nat) : Nat := 0x500020 + 256 * i
/-- 0x5000.21 (R170). -/
abbrev STAT_MAX (i : Nat) : Nat := 0x500021 + 256 * i
/-- 0x5000.22 (R170). -/
abbrev STAT_MEAN (i : Nat) : Nat := 0x500022 + 256 * i
/-- 0x5000.23 (R170). -/
abbrev MAX_POS (i : Nat) : Nat := 0x500023 + 256 * i
/-- 0x5000.24 (R170). -/
abbrev COUNT_ABOVE (i : Nat) : Nat := 0x500024 + 256 * i
/-- 0x5000.25 (R170). -/
abbrev PRESENCE_COUNT (i : Nat) : Nat := 0x500025 + 256 * i
/-- 0x5000.26 (R170). -/
abbrev VALID_PIXELS (i : Nat) : Nat := 0x500026 + 256 * i
/-- 0x5000.27 (R170). -/
abbrev BERTH_FLAGS (i : Nat) : Nat := 0x500027 + 256 * i
/-- 0x5000.28 (R170). -/
abbrev STAT_FRAME (i : Nat) : Nat := 0x500028 + 256 * i
/-- 0x5000.29 (R170). -/
abbrev VALUE (i : Nat) : Nat := 0x500029 + 256 * i
/-- 0x5000.2A (R170). -/
abbrev ALARM_STATE (i : Nat) : Nat := 0x50002A + 256 * i
/-- 0x5000.2B (R170). -/
abbrev OCCUPIED (i : Nat) : Nat := 0x50002B + 256 * i
/-- 0x5000.2C (R170). -/
abbrev VISITS (i : Nat) : Nat := 0x50002C + 256 * i
/-- 0x5000.2D (R170). -/
abbrev BACKGROUND (i : Nat) : Nat := 0x50002D + 256 * i
/-- 0x5000.2E (R170). -/
abbrev STAT_RECORD (i : Nat) : Nat := 0x50002E + 256 * i
/-- 0x7010.01 (R97). -/
abbrev COEF_PLANE : Nat := 0x701001
/-- 0x7010.02 (R97). -/
abbrev OFFSET_SHADOW : Nat := 0x701002
/-- 0x7010.03 (R97). -/
abbrev FACTORY_COEF : Nat := 0x701003
/-- 0x7010.04 (R97). -/
abbrev SCREEN_MASK : Nat := 0x701004
/-- 0x7010.05 (R97). -/
abbrev TEMP_TABLE : Nat := 0x701005
/-- 0x7010.06 (R97). -/
abbrev LENS_FF : Nat := 0x701006
/-- 0x7010.07 (R97). -/
abbrev OUT_FRAME : Nat := 0x701007
/-- 0x7010.08 (R97). -/
abbrev BLIND_COEF : Nat := 0x701008
/-- 0x7020.01 (R155). -/
abbrev CAL_SET : Nat := 0x702001
/-- 0x7020.02 (R155). -/
abbrev OFFSET_LOAD : Nat := 0x702002
/-- 0x7020.03 (R155). -/
abbrev ACTIVE_OFFSETS : Nat := 0x702003
/-- 0x7020.04 (R155). -/
abbrev SPARE_TRIMS : Nat := 0x702004
/-- 0x7020.05 (R155). -/
abbrev REF_CHOICE : Nat := 0x702005
/-- 0x7020.06 (R155). -/
abbrev PARKED_OFFSETS : Nat := 0x702006
/-- 0x7030.01 (R197). -/
abbrev BERTH_TABLE : Nat := 0x703001
/-- 0x7030.02 (R197). -/
abbrev BERTH_STATS : Nat := 0x703002
/-- 0x7030.03 (R197). -/
abbrev EXCLUSION_MASK : Nat := 0x703003
/-- 0x7030.04 (R197). -/
abbrev ALARM_MAP : Nat := 0x703004
/-- 0x7040.01 (R259). -/
abbrev SALVAGE_DRAM : Nat := 0x704001
/-- 0x7040.02 (R259). -/
abbrev SALVAGE_SUMMARY : Nat := 0x704002
/-- 0x7050.01 (R293). -/
abbrev FAN_TABLES : Nat := 0x705001
/-- 0x7060.01 (R353). -/
abbrev ID_RECORD (i : Nat) : Nat := 0x706001 + i
/-- 0x7070.01 (R371). -/
abbrev PV_RX_MAP : Nat := 0x707001
/-- 0x7070.02 (R371). -/
abbrev PV_RX_VALUES : Nat := 0x707002
/-- 0x7070.03 (R371). -/
abbrev PV_TX_VALUES : Nat := 0x707003
/-- 0x7080.01 (R435). -/
abbrev NV_WINDOW : Nat := 0x708001
/-- 0x7080.02 (R435). -/
abbrev QUICK_SAVE : Nat := 0x708002
/-- 0x7090.01 (R462). -/
abbrev LOG_WINDOW : Nat := 0x709001
/-- 0x7090.02 (R462). -/
abbrev ANCHOR_WINDOW : Nat := 0x709002
/-- 0x7090.03 (R462). -/
abbrev LOG_USER : Nat := 0x709003
/-- 0x70A0.01 (R500). -/
abbrev WAVEFORMS : Nat := 0x70A001
/-- 0x70A0.02 (R500). -/
abbrev GAMMA : Nat := 0x70A002
/-- 0x70A0.03 (R500). -/
abbrev PANEL_IMAGE : Nat := 0x70A003
/-- 0x70A0.04 (R500). -/
abbrev FRAME_MEMORY : Nat := 0x70A004
/-- 0x70A0.05 (R500). -/
abbrev PANEL_SHOWN : Nat := 0x70A005
/-- 0x70B0.01 (R535). -/
abbrev SLIP_IMAGE : Nat := 0x70B001
/-- 0x70B0.02 (R535). -/
abbrev IMAGE_HEADER_A : Nat := 0x70B002
/-- 0x70B0.03 (R535). -/
abbrev IMAGE_HEADER_B : Nat := 0x70B003

end Sys2Proof.Machine.Reg
end

