-- ==== Sys2Proof/Machine/Parts.lean ====
section
/-!
DEFINITION. The parts of the block's state that are not ledger entries held in the register map: one structure per chapter
of the spec, first the units every other part leans on (the tide, the mains phase unit, the quays and the harbourmaster,
the ledger engine, the non-volatile store, the logbook, the mooring domain).
-/
namespace Sys2Proof.Machine

/-! ### Chapter 1: the tide and the mains phase unit -/

/-- What the tide runs from (R35, R38, R40). -/
inductive ClockSrc where
  | master
  | rc (q : Quay)
  deriving DecidableEq, Repr, Inhabited

/-- The tide: T64, its source, the PLLs and the booked edges. -/
structure Tide where
  running       : Bool        -- R23
  t64           : Nat         -- R24 to R26
  source        : ClockSrc
  masterLost    : Bool        -- R28 bit 3
  degraded      : Bool        -- R28 bit 4, R40
  frameDegraded : Bool        -- R37: a part of the current frame ran from an RC oscillator
  rcTrimmed     : Bool        -- R35 step 5
  returnReady   : Bool        -- R40: the master has been good for 1 s and slot 2064 is awaited
  unlocked      : List Pll    -- R16
  edgesHeld     : Bool        -- R35 steps 3 to 4: no edge is booked
  deferred      : List Edge   -- R19
  granted       : List Edge   -- the grants of the last switching window
  sampleT64     : Nat         -- R32: embedded-line time sample
  sampleTicks   : Nat
  deriving DecidableEq, Repr, Inhabited

/-- The mains phase unit (R42 to R46); its ledger entries are in the register map. -/
structure Mains where
  count      : Nat            -- consecutive crossings in ACQUIRE
  missing    : Nat            -- consecutive expected crossings missing in LOCKED
  lastAccept : Option Nat     -- time of the last accepted crossing
  spacing    : Option Nat     -- last measured spacing
  phaseRef   : Nat            -- T64 of the start of the half-cycle the phase output is in
  phaseErr   : Int            -- correction still to be slewed in (R45), clocks
  slewLeft   : Nat            -- half-cycles left of a frequency slew (R45)
  slewTarget : Nat            -- half-period the slew ends at
  positive   : Bool           -- polarity of the current half-cycle
  holdAt     : Nat            -- T64 at which HOLDOVER began
  deriving DecidableEq, Repr, Inhabited

/-! ### Chapter 7: quays, harbourmaster, faults, salvage -/

/-- Quay states (R224, R228). -/
inductive QState where
  | off | selfTest | syncing | standby | active | out
  deriving DecidableEq, Repr, Inhabited

/-- The codes of `QUAY_ROLES`. -/
def QState.code : QState → Nat
  | .off => 0
  | .selfTest => 1
  | .syncing => 2
  | .standby => 3
  | .active => 4
  | .out => 5

/-- One quay as the harbourmaster sees it. -/
structure QuayUnit where
  st         : QState
  inReset    : Bool           -- held in reset (R228)
  passHeld   : Bool           -- self-test passed, token awaited (R228)
  misses     : Nat            -- consecutive missed windows (R231)
  counted    : Bool           -- a strobe counted in the current window
  lastStrobe : Nat            -- T64 of the last counted strobe
  requested  : Bool           -- heartbeat request raised in this window
  challenge  : Option Nat     -- outstanding self-check challenge (R232)
  wdStart    : Nat            -- T64 of the last watchdog restart (R233)
  fails      : List Nat       -- RTC ticks of the failures in the last 24 h (R230), oldest first
  imageB     : Bool           -- the image this quay runs: false A, true B (R530)
  head       : List Nat       -- first 24 bytes of the header of the image it was loaded with (R526)
  standbyAt  : Nat            -- T64 at which the quay last became STANDBY (R254), or at which its pass was held (R228)
  forced     : Bool           -- its self-test was asked for by REJOIN_TEST: the failure count does not hold it OUT (R227)
  deriving DecidableEq, Repr, Inhabited

/-- A fault entry (R248). -/
structure FaultEntry where
  detail  : Nat
  cause   : Nat
  quay    : Nat
  level   : Nat
  outcome : Nat
  nested  : Bool
  tick    : Nat
  deriving DecidableEq, Repr, Inhabited

/-- A takeover or planned swap in progress (R237, R241). -/
structure Takeover where
  dest      : Quay
  start   : Nat               -- T64 from which the outage runs (R238)
  cause   : Nat
  planned : Bool
  deriving DecidableEq, Repr, Inhabited

/-- Runtime of one loop (R266, R267): what a checkpoint carries of it. -/
structure LoopRun where
  iq       : Int              -- `INTEGRAL`
  d        : Int              -- derivative filter state
  pvPrev   : Int
  uPrev    : Int
  mode     : Nat              -- `LOOP_MODE` of the last execution
  fresh    : Bool             -- a bumpless start is due (R274)
  holding  : Bool             -- the last execution could not run normally (HOLD, TRACKING)
  pv       : Int
  sp       : Int
  out      : Nat
  status   : Nat              -- `LOOP_STATUS`
  deriving DecidableEq, Repr, Inhabited

/-- A checkpoint in the standby's mirror (R234, R235): its header and the control state it carries, the loops' runtime. -/
structure Checkpoint where
  tick   : Nat
  seq    : Nat
  length : Nat
  txq    : List Nat           -- enqueue counts of the CAN transmit queues
  loops  : List LoopRun
  t64    : Nat
  deriving DecidableEq, Repr, Inhabited

/-- A salvage record (R257): the fields the device forms; registers, trace and firmware bytes are the pilot's own. -/
structure Salvage where
  writer   : Nat
  trigger  : Nat
  t64      : Nat
  rtc      : Nat
  frame    : Nat
  seq      : Nat
  stack    : List Nat         -- the five stack words
  roles    : List Nat         -- four bytes
  manifest : List Nat         -- 512 bytes
  deriving DecidableEq, Repr, Inhabited

/-- The harbourmaster and both quays. -/
structure Hm where
  owner        : Option Quay          -- R222
  quays        : PerQuay QuayUnit
  standbyReady : Bool                 -- R225
  takeover     : Option Takeover
  storm        : Bool
  stormManual  : Bool
  voteFault    : Bool
  mirror       : Option Checkpoint    -- newest valid checkpoint (R235)
  mirrorBad    : Nat                  -- consecutive invalid checkpoints
  stack        : List FaultEntry      -- newest first, at most 4 (R246)
  last         : Option FaultEntry    -- `FAULT_LAST`
  preStorm     : PerBus Nat           -- bus modes before STORM (R254)
  stormExit    : Option Quay          -- the token moves at the next control tick (R254)
  lastPush     : Option Nat           -- T64 of the newest push (R254)
  salvageIn    : Option Nat           -- control ticks until the failover salvage (R256)
  salvage      : Option Salvage       -- DRAM region
  summary      : Option Salvage       -- MRAM summary
  deriving DecidableEq, Repr, Inhabited

/-! ### Chapter 12: the ledger engine -/

/-- KLP status codes (R391). -/
inductive Status where
  | ok | busy | noObject | access | type | range | bandBusy | timeInvalid | media | state | uncorrectable | dropped
  | signature
  deriving DecidableEq, Repr, Inhabited

/-- The code of a status (R391). -/
def Status.code : Status → Nat
  | .ok => 0x00
  | .busy => 0x01
  | .noObject => 0x02
  | .access => 0x03
  | .type => 0x04
  | .range => 0x05
  | .bandBusy => 0x06
  | .timeInvalid => 0x07
  | .media => 0x08
  | .state => 0x09
  | .uncorrectable => 0x0A
  | .dropped => 0x0B
  | .signature => 0x0C

/-- A ledger request as accepted (R387): the requester, the operation, the entry and the data bytes. -/
structure Request where
  req   : Req
  op    : Nat
  index : Nat
  sub   : Nat
  data  : List Nat
  deriving DecidableEq, Repr, Inhabited

/-- A response (R387): what is sent back to the requester. -/
structure Resp where
  req    : Req
  op     : Nat
  index  : Nat
  sub    : Nat
  status : Status
  data   : List Nat
  deriving DecidableEq, Repr, Inhabited

/-- A session above PUBLIC (R402, R403). -/
structure Session where
  id    : Nat
  level : Nat
  last  : Nat                 -- T64 of the last request of its requester
  deriving DecidableEq, Repr, Inhabited

/-- Wrong keys of one requester (R402). -/
structure KeyFails where
  id     : Nat
  times  : List Nat
  locked : Bool
  deriving DecidableEq, Repr, Inhabited

/-- The request kept for one requester (R398). -/
structure Kept where
  id   : Nat
  rq   : Request
  resp : Resp
  time : Nat
  deriving DecidableEq, Repr, Inhabited

/-- An open segmented transfer (R399, R400). -/
structure Transfer where
  id      : Nat
  port    : Port
  key     : Nat
  write   : Bool
  length  : Nat
  pos     : Nat               -- bytes taken so far (write)
  lastOff : Option Nat        -- offset of the previous segment (write)
  last    : Nat               -- T64 of the last segment
  data    : List Nat          -- staged bytes (write) or the snapshot (read)
  snap    : Bool              -- reads are served from `data`
  deriving DecidableEq, Repr, Inhabited

/-- A request message being reassembled on one channel from one peer (R393). -/
structure Rasm where
  bus  : Bus
  peer : Nat
  next : Nat
  data : List Nat
  last : Nat
  deriving DecidableEq, Repr, Inhabited

/-- A response on its way to a CAN transmit queue (R393): the frames not yet queued and when it was formed. -/
structure OutResp where
  bus    : Bus
  frames : List (List Nat)
  since  : Nat
  deriving DecidableEq, Repr, Inhabited

/-- A SEG_STREAM in progress (R401). -/
structure StreamJob where
  bus     : Bus
  rq      : Request
  key     : Nat
  offset  : Nat
  left    : Nat
  sent    : Nat
  lastEnd : Option Nat        -- T64 at which the previous bulk frame completed
  waiting : Bool              -- a bulk frame is queued and not yet complete
  deriving DecidableEq, Repr, Inhabited

/-- The ledger engine. -/
structure Klp where
  sessions  : List Session
  fails     : List KeyFails
  kept      : List Kept
  transfers : List Transfer
  queue     : List Request    -- accepted requests, at most 32 (R397)
  fifo      : List Resp       -- SPI responses, at most 8 (R396)
  linkErr   : Nat             -- LINK error code (R395)
  rasm      : List Rasm
  outbox    : List Resp       -- CAN responses not yet begun
  sending   : Option OutResp
  streams   : List StreamJob
  resetDue  : Option Nat      -- T64 of a scheduled device reset (R415, R531)
  resetCause : Nat
  masterHb  : Option Nat      -- T64 of the last ledger heartbeat (R405)
  irq       : Nat             -- `IRQ_STATUS` bits 7:1 (R408); bit 0 follows the SPI FIFO
  requests  : Nat
  discards  : Nat
  duplicates : Nat
  crcErrors : Nat
  unlockFails : Nat
  netIgnored : Nat
  spiOut    : List Nat        -- bytes clocked out by the last SPI transaction, on either chip select
  deriving DecidableEq, Repr, Inhabited

/-! ### Chapter 13: the non-volatile store and memory integrity -/

/-- A record of the parameters partition (R419). -/
structure PRec where
  key   : Nat
  seq   : Nat
  value : List Nat
  ok    : Bool                -- reads back valid
  deriving DecidableEq, Repr, Inhabited

/-- A record area (R418). -/
structure PArea where
  gen    : Nat
  valid  : Bool               -- header valid
  recs   : List PRec
  broken : Bool               -- the scan meets an unreadable header (R421)
  deriving DecidableEq, Repr, Inhabited

/-- A tally (R423 to R425): base TAG and VALUE, the number of written increments, frozen. -/
structure Tally where
  key     : Nat
  tag     : Nat
  base    : Nat
  incs    : Nat
  frozen  : Bool
  deriving DecidableEq, Repr, Inhabited

/-- A quick-save slot (R426, R428): its header, content and trailer. -/
structure QSlot where
  format   : Nat
  seq      : Nat
  rtc      : Nat
  content  : List Nat
  duration : Nat
  ok       : Bool             -- the CRC matches
  deriving DecidableEq, Repr, Inhabited

/-- The MRAM and the window. -/
structure Nv where
  area0     : PArea
  area1     : PArea
  useOne    : Bool            -- record area 1 is in use
  compacting : Bool
  compactions : Nat
  compactFailed : Bool
  scanBreak : Bool
  skipped   : Nat
  badWords  : List Nat        -- MRAM code words that do not hold what is written: read-backs of them fail
  tallies   : List Tally
  slotA     : Option QSlot
  slotB     : Option QSlot
  loaded    : Nat             -- `QS_LOADED`
  qsFormat  : Nat             -- staging buffer: FORMAT, 0 not armed
  qsContent : List Nat
  win       : List Host.Cell  -- the records partition
  winBad    : List Nat        -- its uncorrectable code words, by address
  wel       : Bool
  ue        : Bool
  wfail     : Bool
  firstUe   : Option Nat
  openWord  : Option (Nat × List (Nat × Nat))  -- open code word of a WRITE cut short: address, bytes received
  codewords : Nat
  ueReads   : Nat
  ignored   : Nat
  seenUe    : List (Nat × Nat × Nat × Nat)  -- (m, address, requester, T64) of recent uncorrectable detections (R438)
  deriving DecidableEq, Repr, Inhabited

/-! ### Chapter 14: the logbook -/

/-- A log record (R445). -/
structure LogRec where
  typ     : Nat
  seq     : Nat
  ticks   : Nat
  gen     : Nat
  payload : List Nat
  deriving DecidableEq, Repr, Inhabited

/-- A block of the ring or of the anchor area: its number and its valid records in order. -/
structure LogBlock where
  num  : Nat
  recs : List LogRec
  deriving DecidableEq, Repr, Inhabited

/-- The recorder. -/
structure Log where
  queue     : List LogRec     -- at most 256 (R447)
  nextSeq   : Nat
  ring      : List LogBlock   -- non-empty blocks, oldest first (R449, R451)
  anchor    : List LogBlock
  lifeboat  : List LogRec     -- records in the lifeboat ring, oldest first (R459)
  overwritten : Nat
  firstSeq  : Nat
  clearSeq  : Nat
  clears    : Nat
  retired   : List Nat        -- retired ring blocks
  anchorRetired : List Nat
  mediaFaults : Nat           -- since tide start
  inLifeboat : Bool
  dropped   : Nat
  badRecords : Nat
  headSeq   : Nat             -- newest record written
  anchorHead : Nat
  cursors   : List (Nat × Nat)  -- (requester, cursor), most recently used first, at most 8 (R454)
  streamNext : Nat            -- the streamer's cursor (R456)
  badBlocks : List Nat        -- ring blocks whose read-back fails
  badAnchor : List Nat
  resumePending : Bool
  deriving DecidableEq, Repr, Inhabited

/-! ### Chapter 15: the mooring domain -/

/-- Supply states (R463). -/
inductive Mooring where
  | main | backup | bridge | down
  deriving DecidableEq, Repr, Inhabited

/-- The mooring domain: supply, tick count, calendar. -/
structure Rtc where
  supply      : Mooring
  ticks       : Nat
  offset      : Int
  gen         : Nat
  valid       : Bool          -- CALENDAR_VALID
  continuity  : Bool
  outOfRange  : Bool
  lostPending : Bool          -- TIME_LOST_PENDING
  dst         : Bool
  slew        : Int           -- shift remaining (R472)
  xtalFail    : Bool
  evaluated   : Option Int    -- latest calendar second evaluated, in seconds of C (R476)
  backupEvents : Nat
  vbakLow     : Bool
  trimPulses  : Int
  trimAcc     : Nat           -- ticks into the 32 s trim window
  temp        : Int           -- `MOORING_TEMP`
  vbakMv      : Nat
  timeRejects : Nat
  alarmStatus : List Nat      -- alarms 1 and 2
  alarmCount  : List Nat
  alarmLast   : List Nat
  sched       : List Nat      -- REASONs of the time frames waiting to be sent (R478)
  retention   : SMap          -- 2 KB retention SRAM
  deriving DecidableEq, Repr, Inhabited

/-! ### Chapter 11: the building bus -/

/-- Channel modes (R358). -/
inductive ChMode where
  | off | restricted | listen | normal
  deriving DecidableEq, Repr, Inhabited

/-- The codes of `BUS_MODE`. -/
def ChMode.code : ChMode → Nat
  | .off => 0
  | .restricted => 1
  | .listen => 2
  | .normal => 3

/-- The mode of a code. -/
def ChMode.ofCode (n : Nat) : ChMode :=
  if n = 0 then .off else if n = 1 then .restricted else if n = 2 then .listen else .normal

/-- A frame that waits in a transmit queue. `full` holds the FULL form of a berth report where the frame is one. -/
structure TxFrame where
  f      : CanFrame
  copied : Bool               -- already copied to the other channel (R379)
  compact : Option (List Nat) -- the COMPACT form of a FULL berth report (R193, R379)
  deriving DecidableEq, Repr, Inhabited

/-- A received frame in the pilot FIFO with its stamp (R366, R368). -/
structure RxFrame where
  f     : CanFrame
  stamp : Nat
  deriving DecidableEq, Repr, Inhabited

/-- One CAN FD channel. -/
structure Channel where
  active     : ChMode
  request    : Option ChMode  -- awaits bus idle (R359)
  integrated : Bool
  queues     : List (List TxFrame)  -- queues 0 to 7 (R363)
  counts     : List Nat       -- `TXQ_COUNT`
  offered    : Option Nat     -- queue whose head is in arbitration
  held       : Option Nat     -- queue whose head is the held frame (R378)
  busOff     : Bool
  recovering : Bool
  offSince   : Bool           -- a bus-off since the last successful transmission (R378)
  probe      : Option Nat     -- errors of the running probe (R360)
  rateSuspect : Bool
  tec        : Nat
  recErr     : Nat
  lastError  : Nat
  busoffCount : Nat
  rxOverruns : Nat
  txDrops    : Nat
  txDiscards : Nat
  extFrames  : Nat
  protoExc   : Bool
  clash      : Bool
  rx         : List RxFrame
  done       : Option (CanFrame × Nat)  -- last transmit completion record (R366)
  deriving DecidableEq, Repr, Inhabited

/-- An event of an alarm source (R372, R373). -/
structure BwEvent where
  source : Nat
  state  : Nat
  cls    : Nat
  reason : Nat
  value  : Nat
  flags  : Nat
  deriving DecidableEq, Repr, Inhabited

/-- What the breakwater keeps of one source (R374, R375). -/
structure BwSource where
  source   : Nat
  hold     : Bool
  pend     : Option BwEvent
  replaced : Bool             -- an event was replaced since the last release
  limited  : Bool             -- an event was replaced since the last summary
  deriving DecidableEq, Repr, Inhabited

/-- The breakwater (R374 to R376). -/
structure Breakwater where
  sources    : List BwSource
  waiting    : PerBus (List (Nat × CanFrame))  -- released frames waiting for a full alarm queue, by source
  seq        : Nat            -- `ALARM_SEQ`
  suppressed : Nat            -- `BW_SUPPRESSED`
  summaries  : Nat
  replaced   : Nat            -- events replaced since the previous summary
  second     : List Nat       -- sources limited at any time in the current second
  running    : Bool           -- summaries are due each second
  deriving DecidableEq, Repr, Inhabited

/-- The bus: both channels, the breakwater and the exchange. -/
structure BusPart where
  ch        : PerBus Channel
  bw        : Breakwater
  clashSeen : Bool            -- a NODE_CLASH record was written since tide start (R362)
  quiet     : Bool            -- R407 QUIET in force
  hbDue     : Bool            -- a device heartbeat came due in a failover outage (R240)
  txSlots   : SMap            -- exchange transmit slots that are valid, raw I32 (R370)
  rxSlots   : List (Nat × Nat × Nat × Nat)  -- receive slot, raw I32, stamp, channel
  rxMap     : SMap            -- receive map in force: slot to its four bytes (R371)
  rxMapNext : Option SMap     -- takes effect at the next control tick
  deriving DecidableEq, Repr, Inhabited

/-! ### Chapter 8: zones, schedules, the fan-table engine -/

/-- Runtime of a zone (R278 to R280). -/
structure ZoneRun where
  ends    : Option Nat        -- T64 at which the override ends; none: until cleared
  present : Bool              -- a named source is active
  holding : Bool              -- PRESENCE_HOLD runs
  deriving DecidableEq, Repr, Inhabited

/-- The fan-table engine's hold of a channel (R289 to R292). -/
structure Engine where
  held   : Bool
  source : Nat                -- 0 berth, 1 ADC, 2 die, 3 not held
  temp   : Nat                -- 1/64 K
  cmd    : Nat                -- mV
  acc    : Nat                -- slew carried between frames, mV · clocks per second
  deriving DecidableEq, Repr, Inhabited

/-- Loops, zones, schedules, control mode and the fan-table engine. -/
structure LoopPart where
  runs       : List LoopRun   -- loops 0 to 63
  zones      : List ZoneRun   -- zones 0 to 31
  autonomous : Bool           -- R288
  autoReason : Nat
  seenMaster : Bool           -- a heartbeat of the master has arrived since LIGHTS
  lastMinute : Option Int     -- local minute last evaluated (R240)
  tables     : List Nat       -- FAN_TABLES in force, 196 bytes
  tablesNext : Option (List Nat)
  defaultTable : Bool
  engines    : List Engine    -- channels 1 and 2
  deriving DecidableEq, Repr, Inhabited

/-! ### Chapter 9: actuators and fans -/

/-- A PWM period in progress (R296, R297). -/
structure PwmRun where
  want  : Nat                 -- wanted on-time T
  onAt  : Option Nat          -- T64 of the granted turn-on edge
  offRow : Nat                -- rows until the window of the turn-off edge
  offPos : Nat
  deriving DecidableEq, Repr, Inhabited

/-- One damper, valve, triac gate or analogue output (R299 to R310). -/
structure OutUnit where
  level   : Nat               -- LEVEL in force
  next    : Option Nat        -- command waiting for its period, half-cycle or row
  off     : Bool              -- driver off: power-up, or a storm value OFF
  hmValue : Bool
  acc     : Int               -- error accumulator (R296)
  pwm     : Option PwmRun
  tail    : Option PwmRun     -- the previous period's run while its turn-off edge is outstanding
  waiting : Bool
  latched : Bool
  trips   : List Nat          -- T64 of the trips within 10 min
  overcurrent : Bool
  limitAt : Option Nat         -- T64 at which a current limit last acted
  drivenAt : Option Nat        -- T64 since which the duty has been at least 10 %
  openLoad : Bool
  limited : Bool              -- SUPPLY_LIMITED
  current : Nat
  pos     : Nat               -- DMP_POSITION
  posAcc  : Nat
  stroke  : Nat               -- clocks left of a full close stroke (R303)
  overs    : Bool              -- end-stop over-drive running
  overDone : Bool             -- over-driven for the present target
  unknown : Bool              -- position unknown after a trip (R310)
  peak    : Bool              -- PEAK_HOLD full-on time running
  burst   : Nat               -- accumulator b (R306)
  fire    : Bool              -- the present pair fires
  second  : Bool              -- the next half-cycle is the second of its pair
  fireAt  : Option Nat        -- T64 of the requested gate pulse
  gateOff : Option Nat        -- T64 at which the gate pulse is to end
  gate    : Bool              -- gate current flows
  deriving DecidableEq, Repr, Inhabited

/-- Fan channel states (R325). -/
inductive FanState where
  | off | tug | wait | running | stall | shortOff
  deriving DecidableEq, Repr, Inhabited

/-- The codes of `FAN_STATE`. -/
def FanState.code : FanState → Nat
  | .off => 0
  | .tug => 1
  | .wait => 2
  | .running => 3
  | .stall => 4
  | .shortOff => 5

/-- One fan channel (R314 to R325). -/
structure FanUnit where
  st       : FanState
  attempt  : Nat
  cmd      : Nat              -- last commanded mV
  target   : Nat              -- FAN_TARGET
  out      : Nat              -- output in force, mV
  retry    : Bool             -- the tug is a retry from STALL
  retug    : Bool             -- a 2 s tug for a STALLED fan while RUNNING
  short    : Bool
  latched  : Bool
  shorts   : List Nat         -- T64 of the short events within 10 min
  limited  : Bool
  crossing : Bool
  vinLimited : Bool
  stallSeen : Bool
  targetAt : Nat              -- T64 of the last change of the target
  vout     : Nat
  iout     : Nat
  events   : Nat              -- commutation events of the current ripple window
  rate     : Nat              -- FAN_RIPPLE_RATE
  stalls   : Nat
  pfailOff : Bool             -- stopped at PFAIL (R312)
  deriving DecidableEq, Repr, Inhabited

/-- Tach states (R319). -/
inductive TachState where
  | unbound | stopped | running | checking | lost | stalled
  deriving DecidableEq, Repr, Inhabited

/-- The codes of `TACH_STATE`. -/
def TachState.code : TachState → Nat
  | .unbound => 0
  | .stopped => 1
  | .running => 2
  | .checking => 3
  | .lost => 4
  | .stalled => 5

/-- One tach input (R322 to R326). -/
structure TachUnit where
  st       : TachState
  edges    : List Nat         -- stamps of the newest accepted edges, newest first
  rpm      : Nat
  tugEdges : Nat              -- accepted edges since the tug began
  stopAt   : Nat              -- T64 at which the fan entered CHECKING
  outside  : Nat              -- consecutive windows outside ±25 %
  ripple   : Nat              -- RIPPLE_RPM
  perV     : Nat              -- RPM_PER_V
  noise    : Nat
  deriving DecidableEq, Repr, Inhabited

/-- Actuators and fans. -/
structure ActPart where
  outs    : List OutUnit      -- dampers 1-4, valves 1-4, triacs 1-4, analogue 1-4
  fans    : List FanUnit
  tachs   : List TachUnit
  thermal : Bool              -- thermal shutdown in force
  vin     : Nat               -- VIN sampled once per frame (R302), mV
  allOff  : Bool              -- after UVLO every output is off (R312)
  deriving DecidableEq, Repr, Inhabited

/-! ### Chapter 5: berths -/

/-- The result entries of a berth as published (R170, R192). -/
structure BerthRec where
  min      : Nat
  max      : Nat
  mean     : Nat
  pos      : Nat
  above    : Nat
  presence : Nat
  valid    : Nat
  flags    : Nat
  frame    : Nat
  value    : Nat
  deriving DecidableEq, Repr, Inhabited

/-- What a berth has gathered of the frame in progress (R176, R177, R180). -/
structure BerthAcc where
  incl  : Nat                 -- N
  n     : Nat
  overs  : Nat
  under : Nat
  sum   : Nat
  lo    : Nat
  hi    : Nat
  pos   : Option Nat          -- raster position of the first pixel at `hi`, as MAX_POS
  above : Nat
  warm  : Nat
  neigh : Bool
  sun   : Bool
  subst : Nat                 -- REPLACED, FILLED and STALE pixels that carried data
  deriving DecidableEq, Repr, Inhabited

/-- One berth whose kind in force is, or has been since tide start, not OFF. -/
structure BerthRun where
  num     : Nat
  acc     : BerthAcc
  cur     : BerthRec          -- statistics of the frame just closed
  pub     : BerthRec          -- the published record
  shown   : Bool              -- published at least once since KIND took effect (R563)
  kindPub : Nat               -- KIND in the published table; 0: no record
  srcOk   : Bool              -- SOURCE_OK (R199)
  thrApp  : Nat               -- R179
  hi      : Nat               -- persistence counts (R183)
  lo      : Nat
  clr     : Nat
  on      : Nat               -- R186
  away    : Nat
  alarm   : Nat               -- evaluated alarm state: 0 NORMAL, 1 HIGH, 2 LOW
  alarmPub : Nat              -- `ALARM_STATE`
  events  : List (Nat × Nat)  -- alarm and clear events to publish: new state, reason (0 condition, 1 EDIT)
  came    : List Bool         -- presence events to publish: occupied or vacant
  occ     : Bool
  occPub  : Bool              -- `OCCUPIED`
  visits  : Nat
  visitsPub : Nat             -- `VISITS`
  bg      : Nat               -- background in force
  bgPub   : Nat               -- `BACKGROUND`
  edited  : Bool
  fresh   : Bool              -- the edit took effect during a shutter cycle: no corrected frame yet (R188)
  deriving DecidableEq, Repr, Inhabited

/-- The berth engine. -/
structure BerthPart where
  inForce   : SMap            -- definition entries in force, by ledger key
  pend      : List Nat        -- berths with pending edits
  pendAll   : Bool            -- a BERTH_TABLE write waits for its boundary (R198)
  runs      : List BerthRun   -- ascending berth number
  mask      : SMap            -- exclusion mask in force, by byte
  maskNext  : Option SMap
  markers   : Nat             -- bit k: GRADIENT marker of pair k (R181)
  deferred  : List Nat        -- berths whose report waits (R194)
  tableFrame : Nat
  tableT64  : Nat
  tableStatus : Nat
  tableNext : Nat             -- T64 at slot 2064 of the frame to be published
  anyPixel  : Bool            -- a pixel with a code other than 0xFFFE arrived in the frame in progress
  running   : Bool            -- the same of the last frame (R196)
  deriving DecidableEq, Repr, Inhabited

/-! ### Chapter 10: slow ADC, digital inputs, module identity -/

/-- What the slow ADC is doing (R332, R340, R341). -/
inductive AdcBusy where
  | idle
  | round (ch : Nat)          -- the entry of channel `ch` of a round
  | urgent (ch : Nat)
  | selfCal (resume : Option Nat)  -- the channel of the round to resume with
  deriving DecidableEq, Repr, Inhabited

/-- A channel's settings as its entry in progress uses them: a write takes effect at the next entry (R337, R342). -/
structure AdcCfg where
  mode   : Nat
  avg    : Nat
  settle : Nat
  unit   : Nat
  inLow  : Int
  inHigh : Int
  outLow : Int
  outHigh : Int
  rnom   : Nat
  beta   : Nat
  gain   : Int
  offset : Int
  deriving DecidableEq, Repr, Inhabited

/-- One digital input (R344 to R347). -/
structure DiUnit where
  high     : Bool             -- raw electrical state, with its hysteresis
  raw      : Bool             -- last sample, active = true
  filt     : Bool             -- filtered value
  agree    : Nat              -- consecutive samples of the other state
  since    : Nat              -- T64 at which the filtered value became active
  stuck    : Bool
  chatter  : Bool
  frozen   : Bool             -- value shown in CHATTER
  edges    : Nat              -- raw edges of the current chatter window
  complete : Bool             -- the current window began after CHATTER was entered
  pausedAt : Nat              -- T64 at which the stuck timing paused (R347)
  activations : Nat
  suppressed : Nat
  deriving DecidableEq, Repr, Inhabited

/-- Identity slot states (R349, R353). -/
inductive IdState where
  | empty | reading | valid | fault | conflict | unknown
  deriving DecidableEq, Repr, Inhabited

/-- The codes of `SLOT_STATE`. -/
def IdState.code : IdState → Nat
  | .empty => 0
  | .reading => 1
  | .valid => 2
  | .fault => 3
  | .conflict => 4
  | .unknown => 5

/-- One identity slot. -/
structure IdSlot where
  st       : IdState
  reading  : Bool             -- the transfer is in progress; between attempts it is not
  attempts : Nat
  record   : List Nat         -- 256 bytes while a record is held, else empty
  deriving DecidableEq, Repr, Inhabited

/-- Slow sensors, inputs and module identity. -/
structure SensPart where
  adc       : AdcBusy
  cfg       : AdcCfg          -- of the entry in progress
  roundDue  : Bool            -- a round start waits (R332)
  calDue    : Bool            -- a self-calibration waits for the entry to end (R341)
  prevOvr   : List Nat        -- channels whose previous result carries OVR (R339)
  nbr       : Bool            -- the next entry's first sample follows an over-range one (R338)
  vrefSuspect : Bool
  factorsHost : Bool
  calDiscarded : Bool
  precal    : Bool
  urgentAvg : Nat
  urgentSeq : Nat
  dis       : List DiUnit     -- DI1 to DI8
  slots     : List IdSlot     -- slots 1 to 8
  idOn      : Bool            -- the reader has started (R349)
  busStuck  : Bool
  deriving DecidableEq, Repr, Inhabited

end Sys2Proof.Machine
end

