-- ==== Sys2Proof/Machine/PartsImg.lean ====
section
/-!
DEFINITION. The parts of the state that chapters 2 to 4 give the imaging path: the focal plane with its spare converters and
shutter, the correction pipeline with its planes, and the calibration manager with the lock gate. A pixel of row y, column x
has the number 2560 * y + x; a blind pixel of blind row k (0 to 7 top, 8 to 15 bottom) the number 2560 * k + x.
-/
namespace Sys2Proof.Machine

/-! ### Chapter 2: focal plane -/

/-- One group of 40 columns and its spare (R73 to R81). -/
structure Group where
  st     : Nat                -- 0 UNQUALIFIED, 1 SHADOWING, 2 SPARED, 3 SPARE_FAILED
  col    : Nat                -- column the spare serves
  dead   : List Nat           -- columns with no working converter, in order of failure
  sched  : List Nat           -- columns scheduled for shadowing after a failed self-test, this frame's first
  fails  : Nat                -- consecutive failed self-tests of the spare
  pend   : Option Int         -- d of a counting disagreement in the previous row
  next   : Option Nat         -- a written GROUP_STATE that waits for the frame boundary (R81)
  deriving DecidableEq, Repr, Inhabited

/-- The shutter drive and position sense (R82 to R87). -/
structure Shutter where
  reading  : Nat              -- last clear level of SHUT_POS: 0 OPEN, 1 TRAVEL, 2 CLOSED
  badLevel : Nat              -- consecutive frames with a level between the bands
  fault    : Bool
  failed   : Bool             -- the last move failed
  closing  : Option Bool      -- travel in progress: towards CLOSED or towards OPEN
  left     : Nat              -- step pulses still due in this travel
  extra    : Nat              -- extra step pulses already added (R87)
  ramio    : Bool             -- a shutter record has been read
  ntcOk    : Bool             -- SHUT_NTC reads 500 Ω to 500 kΩ
  r25      : Nat              -- rated resistance at 25 °C, Ω
  pulses   : Nat              -- step pulses issued in the last frame: 0 or 1 (R83)
  deriving DecidableEq, Repr, Inhabited

/-- The focal plane. -/
structure FocalPart where
  bias      : Bool
  settling  : Nat             -- bias-settling frames still to pass (R50)
  sun       : SMap            -- SUNSTRUCK pixels (R62), each with value 1
  satRun    : SMap            -- consecutive high-gain saturated frames, by pixel
  strikes   : SMap            -- frame number of the last strike, by tile, plus 1
  strikeT   : SMap            -- T64 of the last strike, by tile, plus 1
  sunRaised : List Nat        -- tiles whose SUN trigger has been raised since their last strike (R64)
  satNow    : Nat             -- saturated active pixels of the frame in progress
  sensorBad : List Nat        -- sensors whose last reading failed or was out of range (R71)
  disagree  : List Nat        -- consecutive frames of disagreement with the partner, 16 sensors
  clearRun  : List Nat        -- consecutive frames within GRADIENT_CLEAR, 7 pairs
  groups    : List Group      -- 64
  trims     : SMap            -- t(c), raw I8 (R75)
  testCodes : SMap            -- qualified self-test codes: columns 0 to 2559, spares 2560 to 2623
  trimsNext : Option (SMap × SMap)  -- take effect at the next frame boundary (R158)
  shutter   : Shutter
  deriving DecidableEq, Repr, Inhabited

/-! ### Chapter 3: correction pipeline -/

/-- What unlisted pixels of an offset plane hold: 0, or the factory offset of a gain. -/
inductive OffBase where
  | zero | factoryHigh | factoryLow
  deriving DecidableEq, Repr, Inhabited

/-- An offset plane: its base and the pixels that differ from it. -/
structure Offs where
  base : OffBase
  overs : SMap
  deriving DecidableEq, Repr, Inhabited

/-- A row between conversion and correction (R53, R54): its slot, its raw sample words and its status. -/
structure Line where
  slot     : Nat
  words    : List Nat
  lost     : Bool
  settling : Bool
  deriving DecidableEq, Repr, Inhabited

/-- The value a pixel is delivered with: a corrected count, or one of the reserved meanings of R115. -/
inductive PixVal where
  | count (k : Int)
  | overs
  | under
  | invalid
  deriving DecidableEq, Repr, Inhabited

/-- A corrected pixel: its value, temperature code, tag (R131), and whether it carries data of its own. -/
structure Pix where
  val    : PixVal
  code   : Nat
  tag    : Nat
  raw    : Nat                -- raw sample word after spare substitution
  screen : Bool
  deriving DecidableEq, Repr, Inhabited

/-- The inputs of the block constants as latched in blanking (R109). -/
structure Consts where
  trans : Nat                 -- transmission, 1/65,536; 65,536 is 1.0
  f     : Nat                 -- f-number, 1/256
  ff    : Nat                 -- flat-field table, 0 none
  resp  : Nat                 -- RESP of the gain in force
  ref   : Nat                 -- FLAG_TEMP_REF, µK
  flag  : Nat                 -- FLAG_TEMP, µK
  deriving DecidableEq, Repr, Inhabited

/-- The correction pipeline. -/
structure PipePart where
  ready     : Bool            -- factory tables decompressed (R96)
  badRows   : List Nat        -- rows whose blocks failed in both copies
  factory   : SMap            -- factory words that a FACTORY write changed
  coefBase  : SMap            -- the same at the decompression of this start
  coef      : SMap            -- coefficient words above OFFSET (bits 47:16) that differ from the factory's
  blindFactory : SMap
  blind     : SMap            -- blind coefficient words above OFFSET
  blindOff  : Offs            -- blind offsets in force
  bank0     : Offs
  bank1     : Offs
  bankOne   : Bool            -- the lock gate selects bank 1
  prev      : SMap            -- previous store: K + 32768; 0 invalid (R106)
  fill      : SMap            -- fill store: value + 32768; 0 no valid value (R117)
  fillRuns  : SMap            -- consecutive fills, by row
  cd        : SMap            -- column terms, raw I16 (R103)
  blindSum  : SMap            -- sums of R103 so far, plus 2^31, by column
  blindN    : SMap
  dts       : List Int        -- changes of R101, in sub order
  consts    : Consts
  table     : SMap            -- temperature table entries a FACTORY write changed, in force
  tableNext : SMap            -- the same, from the next block constants
  override  : List Nat        -- override list (R123)
  dropped   : List Nat        -- pixels past a full override list
  ueCoef    : List Nat        -- coefficient code words that read uncorrectable in the last frame (R121)
  ueShadow  : List Nat
  reloads   : List (Bool × Nat)  -- code words being reloaded (R122): in the shadow plane, number
  fresh     : List (Bool × Nat)  -- reloaded code words watched in the next frame (R123)
  mask      : SMap            -- screening mask, by byte
  maskNext  : Option SMap
  line      : Option Line
  heldPrev  : Bool            -- no edge was booked in the previous slot: an interruption (R37)
  above     : List (Option Int)  -- sources of replacement in the row above (R105)
  quad      : List (List Pix) -- corrected rows of the bin in progress
  lineOut   : Option (Nat × List Nat × List Nat)  -- image line to send in the next slot: number, codes, tags (R207)
  out       : SMap            -- out store, by raster position of its geometry
  outFrame  : Nat             -- frame it holds
  outForm   : Nat
  outBinned : Bool
  gateOpen  : Bool            -- the gate has switched to accepted or restored offsets since power-up (R128)
  on        : Bool            -- rows of this frame are corrected (R50, R130)
  replaced  : Nat             -- counts of the frame in progress
  invalid   : Nat
  screened  : Nat
  coefLost  : Bool
  rowsLost  : Bool
  deriving DecidableEq, Repr, Inhabited

/-! ### Chapter 4: calibration -/

/-- A shutter cycle or SHUTTER_TEST in progress (R143 to R151, R166). -/
structure Cycle where
  test     : Bool
  trial    : Bool             -- a reference trial (R160)
  before   : Nat              -- calibration state before
  latched  : Nat              -- triggers latched at the start
  begun    : Bool             -- F0 has been reached
  f0       : Nat              -- frame number of F0
  closed   : Option Nat       -- frames completed since the CLOSED check
  bandSum  : List Nat         -- sums of the 16 sensors over the integrate frames
  flagSum  : Nat
  flagLo   : Nat
  flagHi   : Nat
  oldRefs  : SMap             -- reference choices before a trial
  trialSum : SMap             -- blind-row sums of the trial, by 2560 * (i - 1) + column
  blindSA  : SMap             -- half sums of the blind pixels
  blindD   : SMap
  blindSat : SMap
  agreeing : Nat              -- agreeing operable pixels of the evaluation pass
  operable : Nat
  sqSum    : Nat              -- sum of (d g)² over agreeing pixels
  agreeAll : Nat              -- all agreeing pixels
  sunClear : SMap             -- SUNSTRUCK pixels that meet R63
  blindNew : SMap             -- blind offsets measured, held until the switch
  startT64 : Nat
  verdict  : Option Bool      -- the decision of F27
  reason   : Nat              -- why the cycle will end without acceptance; 0 none
  due      : Nat              -- reason of an abort that its slot 2064 will settle; 0 none
  noisy    : Nat
  missed   : SMap             -- pixels that disagreed in the evaluation pass
  lostSeen : Bool             -- a LOST or SETTLING row in an integrate or settle frame
  deriving DecidableEq, Repr, Inhabited

/-- A `CAL_SET` restore waiting for its band loads (R157). -/
structure Restore where
  set   : List Nat            -- 82,648 bytes
  bands : List Nat            -- completed bands
  last  : Nat                 -- T64 of the last transfer activity
  deriving DecidableEq, Repr, Inhabited

/-- The references of an offset set (R146, R153). -/
structure OffsetSet where
  flagRef : Nat
  bandRef : List Nat
  choices : SMap              -- reference choice by column (R160)
  source  : Nat               -- 0 factory, 1 accepted, 2 restored
  rate    : Nat               -- rate mode it was accepted in
  deriving DecidableEq, Repr, Inhabited

/-- What waits in the lock chamber for its switch (R152). -/
inductive Chamber where
  | empty
  | primed                    -- the active bank has been copied, loads may be open
  | filling (factory : Bool)
  | accepted
  | restored
  | factory
  | loaded
  deriving DecidableEq, Repr, Inhabited

/-- The calibration manager. -/
structure CalPart where
  state     : Nat             -- `CAL_STATE`
  triggers  : Nat
  cycle     : Option Cycle
  sa        : SMap            -- plane 1, SA
  satSeen   : SMap
  miss      : SMap
  d         : SMap            -- plane 2, D raw I8
  parked    : Offs
  parkStale : SMap
  parkBlind : Offs
  parkSet   : OffsetSet
  inForce   : OffsetSet       -- its flagRef and bandRef are also ledger entries
  newSet    : Option OffsetSet  -- takes effect with the chamber
  newBlind  : Option SMap
  chamber   : Chamber
  bandsDone : List Nat        -- bands completed outside a restore
  openBands : List Nat        -- bands whose load is open
  restore   : Option Restore
  qual      : Bool            -- spare qualification runs
  trialRef  : Option Nat      -- reference every column skims against in a trial frame
  lastEnd   : Option Nat      -- T64 at which the last cycle ended
  lastStart : Option Nat
  lastAccept : Option Nat
  imagerStart : Option Nat
  accepted  : Bool            -- ACCEPTED_SINCE_START
  qualityLow : Bool
  unusable  : Bool            -- SHUTTER_UNUSABLE has been recorded
  calT64    : Option Nat      -- T64 of the `CAL_FRAME` switch
  means     : List Nat        -- mean band readings of the last 10 s, newest first
  deriving DecidableEq, Repr, Inhabited

/-! ### Chapter 6: video output -/

/-- A packet on the link (R201, R202): virtual channel, data type (0 Frame Start, 1 Frame End), Frame Number, and the
payload's words: bytes, 14-bit or 16-bit pixels as the data type says. -/
structure Packet where
  vc    : Nat
  dt    : Nat
  frame : Nat
  words : List Nat
  deriving DecidableEq, Repr, Inhabited

/-- A VC2 plane in progress (R213). -/
structure Plane where
  code : Nat
  line : Nat                  -- next line
  deriving DecidableEq, Repr, Inhabited

/-- The transmitter. -/
structure VideoPart where
  running   : Bool
  startDue  : Bool            -- starts at the next slot 0 (R206)
  stopDue   : Bool            -- stops after the Frame End of VC0
  deskew    : Bool            -- initial deskew of the first frame
  periodic  : Bool            -- a periodic deskew ran in the last slot 2064
  deskewAge : Nat             -- frames since the last deskew
  ulps      : Bool
  vc1Go     : Bool            -- a table has been published since the stream started
  vc1Now    : Bool            -- VC1 lines carry a table in this frame
  plane     : Option Plane
  frame     : Nat             -- frame whose image VC0 carries
  frozen    : Bool            -- that frame repeats the out store
  source    : Nat             -- SOURCE_FRAME
  form      : Nat             -- form of its image lines
  imager    : Nat             -- imager mode of its image lines
  tags      : Bool
  lines     : Nat             -- LINES_SENT so far
  lostOut   : Nat             -- pixels of this frame sent as 0xFFFE for an uncorrectable out-store word (R438)
  missing   : Nat             -- FIRST_MISSING
  lastGap   : Bool            -- LINE_GAP
  lastFrozen : Bool
  closeT64  : Nat             -- T64 at slot 2064
  header    : List Nat        -- the header line, latched at slot 0 (R210)
  packets   : List Packet     -- packets of the last row slot, in order
  deriving DecidableEq, Repr, Inhabited

end Sys2Proof.Machine
end

