-- ==== Sys2Proof/Machine/PartsTop.lean ====
section
/-!
DEFINITION. The parts of the state that chapters 16, 17 and 19 give the panel, the key matrix, power and bring-up, the
slipway and the test port.
-/
namespace Sys2Proof.Machine

/-! ### Chapter 16: panel and keys -/

/-- What a running update drives (R489 to R492). -/
inductive RunPhase where
  | main | exit | correct | redrive
  deriving DecidableEq, Repr, Inhabited

/-- A running panel update: flags, band latched at the start and band of the pass in progress, frames driven in this pass,
the largest band difference seen, the run set with its targets, the latched waveform records of the three layers, and the
order of its write. -/
structure PanelRun where
  urgent  : Bool
  full    : Bool
  band    : Nat
  phase   : RunPhase
  frame   : Nat
  maxDiff : Nat
  cells   : List (Nat × Nat)
  pass    : List (Nat × Nat)  -- the cells the pass in progress drives, with targets
  waves   : List (List Nat)   -- the records of layers 0, 1, 2 in use
  order   : Nat
  deriving DecidableEq, Repr, Inhabited

/-- A queued update (R490): flags and the order of its write. -/
structure PanelQueued where
  urgent : Bool
  full   : Bool
  order  : Nat
  deriving DecidableEq, Repr, Inhabited

/-- One update region. -/
structure PanelRegion where
  run    : Option PanelRun
  queued : Option PanelQueued
  deriving DecidableEq, Repr, Inhabited

/-- The panel driver. -/
structure PanelPart where
  requests : List Nat         -- 288, frame memory bytes 0 to 287
  shown    : List Nat         -- 288: level in bits 3:0, UNKNOWN in bit 4
  regions  : List PanelRegion -- 8
  lhRun    : Option PanelRun  -- update of the lighthouse cells (R496)
  order    : Nat
  waves    : Option (List Nat)  -- the stored waveform records, 5,376 bytes; none: the factory table is in use
  gamma    : List Nat         -- 384 bytes
  lighthouse : Bool           -- mode in force
  pattern  : Bool             -- the storm pattern runs
  patternOn : Bool
  band     : Nat
  temp     : Int              -- `PANEL_TEMP`
  tempBad  : Bool
  tempLimit : Bool
  badSince : Option Nat       -- T64 since which the named channel has been bad
  fallback : Bool             -- channel 43 is used in place of the named channel
  frameFault : Bool
  driveFault : Bool
  railBad  : Bool             -- the rail has not yet regulated for 1 s since a drive fault
  positive : Bool             -- polarity of the drive frame
  volt     : Nat              -- VPNL of the drive frame, 0.2 V
  driving  : List Nat         -- layers driven in this drive frame
  selected : List Nat         -- cells selected in this drive frame
  done     : List Nat         -- REGION_DONE events of the last drive frame boundary, by region
  deriving DecidableEq, Repr, Inhabited

/-- One key (R501 to R504). -/
structure KeyUnit where
  pressed : Bool
  agree   : Nat               -- consecutive scans that agree on the other state
  amb     : Bool
  stuck   : Bool
  blocked : Bool              -- a closed position that R503 does not accept
  since   : Nat               -- T64 of the scan that accepted the press
  repeats : Nat               -- REPEAT events raised since the press
  longed  : Bool
  deriving DecidableEq, Repr, Inhabited

/-- The key matrix: 36 keys, the event FIFO, and since when both reset keys have been held. -/
structure KeyPart where
  keys   : List KeyUnit
  fifo   : List Nat
  both   : Option Nat
  deriving DecidableEq, Repr, Inhabited

/-! ### Chapter 17: power and the slipway -/

/-- Power and bring-up. -/
structure PwrPart where
  presA    : Bool             -- VIN_A present (R509)
  presB    : Bool
  absA     : Bool             -- VIN_A declared absent
  absB     : Bool
  ovA      : Bool
  ovB      : Bool
  missing  : Bool             -- FEED_MISSING
  railHeld : Bool             -- held in reset by a shared rail (R511)
  rails    : Bool             -- rails up
  padsOff  : Bool             -- outputs off and pads at high impedance (R513 step 6)
  wait     : Bool             -- BRINGUP_WAIT
  imageOk  : Bool             -- a firmware image has been verified at this DARK
  bootB    : Bool             -- the image both quays load: slot B
  hold     : Option Nat       -- T64 from which the wake hold runs
  darkTick : Nat              -- RTC tick count at the start of DARK
  lightsT64 : Nat             -- T64 at LIGHTS
  owned    : Bool             -- the first token grant has happened
  deriving DecidableEq, Repr, Inhabited

/-- The slipway (R530 to R535). -/
structure SlipPart where
  state    : Nat
  targetB  : Bool
  image    : List Nat         -- staged bytes
  started  : Bool             -- SLIP_START written
  imageA   : List Nat         -- what slot A holds, header first; empty once its header page is erased
  imageB   : List Nat
  marker   : Bool             -- probation marker of a swap
  probation : Option Nat      -- T64 at which probation began
  newFormat : Bool
  noFirmware : Bool
  fallback : Bool
  version  : Nat
  progress : Nat
  lastStatus : Nat
  loading  : Option Quay      -- the quay on, or being loaded with, the new image
  lost     : Bool             -- the image was staged in a verified slot by NO_FIRMWARE recovery
  deriving DecidableEq, Repr, Inhabited

/-! ### Chapter 19: the test port -/

/-- Test instructions (R556). -/
inductive JtagIr where
  | bypass | idcode | samplePreload | extest | highz | clamp
  deriving DecidableEq, Repr, Inhabited

/-- The test port. -/
structure JtagPart where
  ir      : JtagIr
  inReset : Bool
  testEn  : Bool              -- TEST_EN sampled high at power-up
  deriving DecidableEq, Repr, Inhabited

end Sys2Proof.Machine
end

