-- ==== Sys2Proof/Machine/PartsReset.lean ====
section
/-!
DEFINITION. The parts of the state as DARK finds them (R24, R136, R228, R310, R415, R517): what is volatile at its start value. A
value the spec does not give is the model's (assumption 3).
-/
namespace Sys2Proof.Machine

def Tide.reset : Tide :=
  { running := false, t64 := 0, source := .master, masterLost := false, degraded := false, frameDegraded := false
    rcTrimmed := false, returnReady := false, unlocked := [], edgesHeld := false, deferred := [], granted := []
    sampleT64 := 0, sampleTicks := 0 }

def Mains.reset : Mains :=
  { count := 0, missing := 0, lastAccept := none, spacing := none, phaseRef := 0, phaseErr := 0, slewLeft := 0
    slewTarget := 0, positive := true, holdAt := 0 }

def QuayUnit.reset : QuayUnit :=
  { st := .off, inReset := true, passHeld := false, misses := 0, counted := false, lastStrobe := 0, requested := false
    challenge := none, wdStart := 0, fails := [], imageB := false, head := [], standbyAt := 0, forced := false }

/-- The harbourmaster at a device reset: the MRAM summary stays (R255). -/
def Hm.reset (summary : Option Salvage) : Hm :=
  { owner := none, quays := { a := QuayUnit.reset, b := QuayUnit.reset }, standbyReady := false, takeover := none
    storm := false, stormManual := false, voteFault := false, mirror := none, mirrorBad := 0, stack := [], last := none
    preStorm := { one := 0, two := 0 }, stormExit := none, lastPush := none, salvageIn := none, salvage := none
    summary := summary }

def Klp.reset : Klp :=
  { sessions := [], fails := [], kept := [], transfers := [], queue := [], fifo := [], linkErr := 0, rasm := [], outbox := []
    sending := none, streams := [], resetDue := none, resetCause := 0, masterHb := none, irq := 0, requests := 0
    discards := 0, duplicates := 0, crcErrors := 0, unlockFails := 0, netIgnored := 0, spiOut := [] }

/-- A record area as made: valid, with nothing in it (assumption 38). -/
def PArea.fresh (gen : Nat) (valid : Bool) : PArea := { gen := gen, valid := valid, recs := [], broken := false }

/-- The MRAM as made (assumption 38): no stored entry, no record, no quick-save, tallies at 0. -/
def Nv.fresh : Nv :=
  { area0 := PArea.fresh 1 true, area1 := PArea.fresh 0 false, useOne := false, compacting := false, compactions := 0
    compactFailed := false, scanBreak := false, skipped := 0, badWords := []
    tallies := [Reg.POWER_UPS, Reg.FAILOVER_TOTAL, Reg.SALVAGE_COUNT, Reg.SHUTTER_MOVES, Reg.NV_PFAIL_MERGES, Reg.BROWNOUTS,
      Reg.RAIL_RESETS, Reg.SLIP_COMMITS].map fun k => { key := k, tag := 0, base := 0, incs := 0, frozen := false }
    slotA := none, slotB := none, loaded := 0, qsFormat := 0, qsContent := [], win := [], winBad := [], wel := false
    ue := false, wfail := false, firstUe := none, openWord := none, codewords := 0, ueReads := 0, ignored := 0, seenUe := [] }

/-- The store over a device reset: MRAM content stays, the rest starts again (R421, R426, R430, R443). -/
def Nv.restart (n : Nv) : Nv :=
  { n with
    compacting := false, compactions := 0, compactFailed := false, scanBreak := false, skipped := 0, loaded := 0
    qsFormat := 0, qsContent := [], wel := false, ue := false, wfail := false, firstUe := none, openWord := none
    codewords := 0, ueReads := 0, ignored := 0, seenUe := [] }

/-- The logbook as made (assumption 38). -/
def Log.fresh : Log :=
  { queue := [], nextSeq := 1, ring := [], anchor := [], lifeboat := [], overwritten := 0, firstSeq := 0, clearSeq := 0
    clears := 0, retired := [], anchorRetired := [], mediaFaults := 0, inLifeboat := false, dropped := 0, badRecords := 0
    headSeq := 0, anchorHead := 0, cursors := [], streamNext := 0, badBlocks := [], badAnchor := [], resumePending := false }

/-- The mooring domain at its first start (R464). -/
def Rtc.fresh : Rtc :=
  { supply := .main, ticks := 0, offset := 0, gen := 0, valid := false, continuity := false, outOfRange := false
    lostPending := true, dst := false, slew := 0, xtalFail := false, evaluated := none, backupEvents := 0, vbakLow := false
    trimPulses := 0, trimAcc := 0, temp := 0, vbakMv := 0, timeRejects := 0, alarmStatus := [0, 0], alarmCount := [0, 0]
    alarmLast := [0, 0], sched := [], retention := [] }

def Channel.reset : Channel :=
  { active := .off, request := none, integrated := false, queues := List.replicate 8 [], counts := List.replicate 8 0
    offered := none, held := none, busOff := false, recovering := false, offSince := false, probe := none
    rateSuspect := false, tec := 0, recErr := 0, lastError := 0, busoffCount := 0, rxOverruns := 0, txDrops := 0
    txDiscards := 0, extFrames := 0, protoExc := false, clash := false, rx := [], done := none }

def Breakwater.reset : Breakwater :=
  { sources := [], waiting := { one := [], two := [] }, seq := 0, suppressed := 0, summaries := 0, replaced := 0, second := []
    running := false }

def BusPart.reset : BusPart :=
  { ch := { one := Channel.reset, two := Channel.reset }, bw := Breakwater.reset, clashSeen := false, quiet := false, hbDue := false
    txSlots := [], rxSlots := [], rxMap := [], rxMapNext := none }

/-- A loop that has not run. -/
def LoopRun.reset : LoopRun :=
  { iq := 0, d := 0, pvPrev := 0, uPrev := 0, mode := 0, fresh := true, holding := false, pv := 0, sp := 0, out := 0, status := 0 }

def LoopPart.reset : LoopPart :=
  { runs := List.replicate 64 LoopRun.reset
    zones := List.replicate 32 { ends := none, present := false, holding := false }
    autonomous := false, autoReason := 0, seenMaster := false, lastMinute := none, tables := List.replicate 196 0
    tablesNext := none, defaultTable := true
    engines := List.replicate 2 { held := false, source := 3, temp := 0, cmd := 0, acc := 0 } }

def OutUnit.reset : OutUnit :=
  { level := 0, next := none, off := true, hmValue := true, acc := 0, pwm := none, tail := none, waiting := false
    latched := false, trips := [], overcurrent := false, limitAt := none, drivenAt := none, openLoad := false, limited := false, current := 0, pos := 0
    posAcc := 0, stroke := 0, overs := false, overDone := false, unknown := false, peak := false, burst := 0, fire := false
    second := false, fireAt := none, gateOff := none, gate := false }

def FanUnit.reset : FanUnit :=
  { st := .off, attempt := 0, cmd := 0, target := 0, out := 0, retry := false, retug := false, short := false
    latched := false, shorts := [], limited := false, crossing := false, vinLimited := false, stallSeen := false
    targetAt := 0, vout := 0, iout := 0, events := 0, rate := 0, stalls := 0, pfailOff := false }

def TachUnit.reset : TachUnit :=
  { st := .unbound, edges := [], rpm := 0, tugEdges := 0, stopAt := 0, outside := 0, ripple := 0, perV := 0, noise := 0 }

def ActPart.reset : ActPart :=
  { outs := List.replicate 16 OutUnit.reset, fans := List.replicate 2 FanUnit.reset, tachs := List.replicate 4 TachUnit.reset
    thermal := false, vin := 0, allOff := false }

def BerthPart.reset : BerthPart :=
  { inForce := [], pend := [], pendAll := false, runs := [], mask := [], maskNext := none, markers := 0, deferred := []
    tableFrame := 0, tableT64 := 0, tableStatus := 0, tableNext := 0, anyPixel := false, running := false }

def DiUnit.reset : DiUnit :=
  { high := false, raw := false, filt := false, agree := 0, since := 0, stuck := false, chatter := false, frozen := false
    edges := 0, complete := false, pausedAt := 0, activations := 0, suppressed := 0 }

def SensPart.reset : SensPart :=
  { adc := .idle, cfg := default, roundDue := false, calDue := false, prevOvr := [], nbr := false, vrefSuspect := false, factorsHost := false
    calDiscarded := false, precal := true, urgentAvg := 0, urgentSeq := 0, dis := List.replicate 8 DiUnit.reset
    slots := List.replicate 8 { st := .empty, reading := false, attempts := 0, record := [] }, idOn := false, busStuck := false }

def Group.reset : Group := { st := 0, col := 0, dead := [], sched := [], fails := 0, pend := none, next := none }

def Shutter.reset : Shutter :=
  { reading := 0, badLevel := 0, fault := false, failed := false, closing := none, left := 0, extra := 0, ramio := false
    ntcOk := false, r25 := 10000, pulses := 0 }

def FocalPart.reset : FocalPart :=
  { bias := false, settling := 0, sun := [], satRun := [], strikes := [], strikeT := [], sunRaised := [], satNow := 0
    sensorBad := [], disagree := List.replicate 16 0, clearRun := List.replicate 7 0, groups := List.replicate 64 Group.reset
    trims := [], testCodes := [], trimsNext := none, shutter := Shutter.reset }

def Offs.zero : Offs := { base := .zero, overs := [] }

/-- The pipeline over a device reset: what a FACTORY write changed in NOR stays (R97). -/
def PipePart.reset (factory blindFactory table : SMap) : PipePart :=
  { ready := false, badRows := [], factory := factory, coefBase := [], coef := [], blindFactory := blindFactory, blind := []
    blindOff := Offs.zero, bank0 := Offs.zero, bank1 := Offs.zero, bankOne := false, prev := [], fill := [], fillRuns := []
    cd := [], blindSum := [], blindN := [], dts := List.replicate 16 0
    consts := { trans := 65536, f := 256, ff := 0, resp := 0, ref := 0, flag := 0 }
    table := table, tableNext := table, override := [], dropped := [], ueCoef := [], ueShadow := [], reloads := [], fresh := []
    mask := [], maskNext := none, line := none, heldPrev := false, above := [], quad := [], lineOut := none, out := []
    outFrame := 0, outForm := 0, outBinned := true, gateOpen := false, on := false, replaced := 0, invalid := 0
    screened := 0, coefLost := false, rowsLost := false }

def OffsetSet.blank : OffsetSet := { flagRef := 0, bandRef := List.replicate 16 0, choices := [], source := 0, rate := 60 }

def CalPart.reset : CalPart :=
  { state := 0, triggers := 0, cycle := none, sa := [], satSeen := [], miss := [], d := [], parked := Offs.zero
    parkStale := [], parkBlind := Offs.zero, parkSet := OffsetSet.blank, inForce := OffsetSet.blank, newSet := none
    newBlind := none, chamber := .empty, bandsDone := [], openBands := [], restore := none, qual := false, trialRef := none
    lastEnd := none, lastStart := none, lastAccept := none, imagerStart := none, accepted := false
    qualityLow := false, unusable := false, calT64 := none, means := [] }

def VideoPart.reset : VideoPart :=
  { running := false, startDue := false, stopDue := false, deskew := false, periodic := false, deskewAge := 0, ulps := false
    vc1Go := false, vc1Now := false, plane := none, frame := 0, frozen := false, source := 0, form := 0, imager := 0
    tags := false, lines := 0, lostOut := 0, missing := 0xFFFF, lastGap := false, lastFrozen := false, closeT64 := 0, header := []
    packets := [] }

/-- The panel before its records are loaded: nothing driven, every cell UNKNOWN (R494). -/
def PanelPart.reset : PanelPart :=
  { requests := List.replicate 288 0, shown := List.replicate 288 16
    regions := List.replicate 8 { run := none, queued := none }, lhRun := none, order := 0, waves := none
    gamma := (List.range 384).map fun k => 17 * (2 * (k % 128) / 16)
    lighthouse := false, pattern := false, patternOn := false, band := 0, temp := 0, tempBad := false, tempLimit := false
    badSince := none, fallback := false, frameFault := false, driveFault := false, railBad := false, positive := false
    volt := 0, driving := [], selected := [], done := [] }

def KeyUnit.reset : KeyUnit :=
  { pressed := false, agree := 0, amb := false, stuck := false, blocked := false, since := 0, repeats := 0, longed := false }

def KeyPart.reset : KeyPart := { keys := List.replicate 36 KeyUnit.reset, fifo := [], both := none }

/-- Power as the rails come up (R516): no feed has stood long enough to be present. -/
def PwrPart.reset (darkTick : Nat) : PwrPart :=
  { presA := false, presB := false, absA := false, absB := false, ovA := false, ovB := false, missing := false, railHeld := false, rails := true
    padsOff := false, wait := true, imageOk := false, bootB := false, hold := none, darkTick := darkTick, lightsT64 := 0
    owned := false }

/-- The slipway over a device reset: NOR content and the probation marker stay (R533, R534). -/
def SlipPart.reset (a b : List Nat) (marker : Bool) : SlipPart :=
  { state := 0, targetB := false, image := [], started := false, imageA := a, imageB := b, marker := marker
    probation := none, newFormat := false, noFirmware := false, fallback := false, version := 0, progress := 0
    lastStatus := 0, loading := none, lost := false }

/-- The test logic at power-up: in IDCODE (assumption 43). -/
def JtagPart.reset (testEn : Bool) : JtagPart := { ir := .idcode, inReset := false, testEn := testEn }

end Sys2Proof.Machine
end

