-- ==== Sys2Proof/Machine/State.lean ====
section
/-!
DEFINITION. The state of the block, the reasons a step can stop, and the state after reset.
-/
namespace Sys2Proof.Machine

/-- Why a command could fault: no command of this block does, so the type has no constructor (assumption 7). -/
inductive Fault where
  deriving DecidableEq, Repr

/-- Why a command is refused by the model. -/
inductive Refusal where
  /-- Raised by `exec` for a command that has no meaning yet; safe. -/
  | notModelled (mnemonic : String)
  deriving DecidableEq, Repr

/-- Everything the spec gives the block. Ledger entries that are stored values stand in `regs`, one sparse map keyed
256 * index + sub; everything else stands in the part of its chapter. -/
structure State where
  regs    : SMap
  phase   : Phase
  power   : Power
  pfail   : Bool      -- R513: VHOLD has fallen through PFAIL
  tide    : Tide
  mains   : Mains
  hm      : Hm
  klp     : Klp
  nv      : Nv
  log     : Log
  rtc     : Rtc
  bus     : BusPart
  berth   : BerthPart
  loop    : LoopPart
  act     : ActPart
  sens    : SensPart
  focal   : FocalPart
  pipe    : PipePart
  cal     : CalPart
  video   : VideoPart
  panel   : PanelPart
  keys    : KeyPart
  pwr     : PwrPart
  slip    : SlipPart
  jtag    : JtagPart
  freeCtr : Nat
  pending : List Instr
  deriving DecidableEq, Repr

/-- The machine right after its first reset (R228, R310, R464, R511, R516, R517): the rails are up and DARK has begun, the tide
has not started, the MRAM and the logbook are as made, no command waits. Registers hold their ledger defaults: no entry of the
map differs from its default. Assumptions 3, 36, 38 and 39. -/
def State.reset : State :=
  { regs := [], phase := .dark, power := .full, pfail := false, tide := Tide.reset, mains := Mains.reset, hm := Hm.reset none
    klp := Klp.reset, nv := Nv.fresh, log := Log.fresh, rtc := Rtc.fresh, bus := BusPart.reset, berth := BerthPart.reset
    loop := LoopPart.reset, act := ActPart.reset, sens := SensPart.reset, focal := FocalPart.reset
    pipe := PipePart.reset [] [] [], cal := CalPart.reset, video := VideoPart.reset, panel := PanelPart.reset
    keys := KeyPart.reset, pwr := PwrPart.reset 0
    slip := SlipPart.reset (Config.factoryImage false) (Config.factoryImage true) false, jtag := JtagPart.reset false
    freeCtr := 0, pending := [] }

end Sys2Proof.Machine
end

