-- ==== Sys2Proof/Machine/Ops.lean ====
section
/-!
DEFINITION. The named operations every meaning leans on: the ledger's register map, time derived from T64, free values,
counters, host interrupt causes, log records, stored entries and tallies (R10, R27, R29, R385, R408, R420, R424, R447).
-/
namespace Sys2Proof.Machine

/-- What a command answers. -/
abbrev Out := Host.Outcome State Fault Refusal

/-- T64 has reached a time plus a wait. -/
def State.waited (s : State) (since wait : Nat) : Bool := Nat.ble (since + wait) s.tide.t64

/-! ### The sparse map -/

/-- The value at a key: the first entry listed under it, else the default. -/
def smapGet (d k : Nat) : SMap → Nat
  | [] => d
  | (k', v) :: t => if k' = k then v else smapGet d k t

/-- The map with (k, v) put in its place in rising order. -/
def smapPut (k v : Nat) : SMap → SMap
  | [] => [(k, v)]
  | (k', v') :: t =>
    if k < k' then (k, v) :: (k', v') :: t
    else if k' = k then (k, v) :: t
    else (k', v') :: smapPut k v t

/-- The map without the key. -/
def smapErase (k : Nat) : SMap → SMap
  | [] => []
  | (k', v') :: t => if k' = k then smapErase k t else (k', v') :: smapErase k t

/-- The map with `v` at `k`: the default is not listed. -/
def smapSet (d k v : Nat) (m : SMap) : SMap :=
  if v = d then smapErase k m else smapPut k v m

/-! ### Ledger entries held in the register map -/

/-- The raw value of the entry at a key. -/
def State.reg (s : State) (k : Nat) : Nat := smapGet (keyDefault k) k s.regs

/-- The entry at a key set to a raw value, cut to its width (R11). -/
def State.setReg (s : State) (k v : Nat) : State :=
  { s with regs := smapSet (keyDefault k) k (v % 2 ^ keyBits k) s.regs }

/-- The two's-complement value of an entry. -/
def State.regI (s : State) (k : Nat) : Int := toSigned (keyBits k) (s.reg k)

/-- A two's-complement entry set. -/
def State.setRegI (s : State) (k : Nat) (i : Int) : State := s.setReg k (ofSigned (keyBits k) i)

/-- Bit `i` of an entry. -/
def State.regBit (s : State) (k i : Nat) : Bool := bitAt (s.reg k) i

/-- Bit `i` of an entry put to `b`. -/
def State.putBit (s : State) (k i : Nat) (b : Bool) : State := s.setReg k (bitPut (s.reg k) i b)

/-- A counter that saturates, raised by 1. -/
def State.incSat (s : State) (k : Nat) : State := s.setReg k (satInc (keyBits k) (s.reg k))

/-- A counter that saturates, raised by `n`. -/
def State.addSat (s : State) (k n : Nat) : State := s.setReg k (satAdd (keyBits k) (s.reg k) n)

/-- The next free value (assumption 1). -/
def State.free (s : State) : Nat := Config.freeNat s.freeCtr

/-- The free-value counter moved on. -/
def State.tickFree (s : State) : State := { s with freeCtr := s.freeCtr + 1 }

/-- A counter of which the spec does not say what follows its last value: beyond it a free value (assumption 2). -/
def State.countUp (s : State) (k : Nat) : State :=
  if s.reg k + 1 < 2 ^ keyBits k then s.setReg k (s.reg k + 1) else (s.setReg k s.free).tickFree

/-! ### Time (R17, R26, R29) -/

/-- Master clocks of one second, one millisecond, one microsecond. -/
def clkSec : Nat := 50000000
def clkMs : Nat := 50000
def clkUs : Nat := 50

/-- Clocks per row (R17). -/
def clocksPerRow (rate : Nat) : Nat := if rate = 60 then 400 else 800

/-- Rows per control tick (R29). -/
def rowsPerTick (rate : Nat) : Nat := if rate = 60 then 125 else 63

/-- T64 now. -/
def State.now (s : State) : Nat := s.tide.t64

/-- The rate mode in force. -/
def State.rate (s : State) : Nat := s.reg Reg.RATE_ACTIVE

/-- Clocks since the epoch. -/
def State.epochClocks (s : State) : Nat := s.now - s.reg Reg.EPOCH_T64

/-- Clocks per frame (R29). -/
def clocksPerFrame (rate : Nat) : Nat := 2084 * clocksPerRow rate

/-- `FRAME_NUMBER` (R29). -/
def State.frame (s : State) : Nat :=
  (s.reg Reg.EPOCH_FRAME + s.epochClocks / clocksPerFrame s.rate) % 2 ^ 32

/-- `ROW_SLOT` (R29). -/
def State.row (s : State) : Nat := s.epochClocks % clocksPerFrame s.rate / clocksPerRow s.rate

/-- `CLOCK_IN_ROW` (R29). -/
def State.clockInRow (s : State) : Nat := s.epochClocks % clocksPerFrame s.rate % clocksPerRow s.rate

/-- `TICK_COUNT` (R29). -/
def State.tick (s : State) : Nat :=
  (s.reg Reg.EPOCH_TICK + s.epochClocks / clocksPerRow s.rate / rowsPerTick s.rate) % 2 ^ 32

/-- Rows into the control tick (R29). -/
def State.tickRow (s : State) : Nat := s.epochClocks / clocksPerRow s.rate % rowsPerTick s.rate

/-- Frames per second as the spec's "seconds of frames" count them: `n` seconds in frames of the rate in force. -/
def framesOf (rate seconds : Nat) : Nat := (seconds * clkSec + clocksPerFrame rate - 1) / clocksPerFrame rate

/-! ### Host interrupt (R408) -/

/-- Cause bits of `IRQ_STATUS`. -/
def irqFailover : Nat := 1
def irqStorm : Nat := 2
def irqAlarm : Nat := 3
def irqLog : Nat := 4
def irqCal : Nat := 5
def irqSlipway : Nat := 6
def irqPower : Nat := 7

/-- A cause bit set. -/
def State.raiseIrq (s : State) (bit : Nat) : State := { s with klp := { s.klp with irq := bitOn s.klp.irq bit } }

/-- `IRQ_STATUS`: bit 0 follows the SPI response FIFO (R396). -/
def State.irqStatus (s : State) : Nat := bitPut s.klp.irq 0 (!s.klp.fifo.isEmpty)

/-- HOST_IRQ_L driven low (R408). -/
def State.hostIrq (s : State) : Bool :=
  bitAt s.irqStatus irqFailover || bitAt s.irqStatus irqStorm ||
    (List.range 8).any fun i => bitAt s.irqStatus i && s.regBit Reg.IRQ_ENABLE i

/-! ### Log records (R446, R447, R448) -/

/-- The sequence number after `n` (R446: 0 is never assigned). -/
def nextSeqAfter (n : Nat) : Nat := if n + 1 < 2 ^ 32 then n + 1 else 1

/-- An event queued for the logbook, with its SEQ; a full queue drops it and its SEQ stays assigned (R447). -/
def State.pushLog (s : State) (typ : Nat) (payload : List Nat) : State :=
  let r : LogRec := { typ := typ, seq := s.log.nextSeq, ticks := s.rtc.ticks, gen := s.rtc.gen, payload := payload }
  if s.log.queue.length < 256 then
    { s with log := { s.log with queue := s.log.queue ++ [r], nextSeq := nextSeqAfter s.log.nextSeq } }
  else
    { s with log := { s.log with dropped := satInc 32 s.log.dropped, nextSeq := nextSeqAfter s.log.nextSeq } }

/-- Record types of R448. -/
def Lt.POWER_UP : Nat := 0x00
def Lt.POWER_DOWN_SAVE : Nat := 0x01
def Lt.TIME_SET : Nat := 0x02
def Lt.DST_STEP : Nat := 0x03
def Lt.TIME_LOST : Nat := 0x04
def Lt.TIME_REJECT : Nat := 0x05
def Lt.RATE_CHANGE : Nat := 0x06
def Lt.FEED_CHANGE : Nat := 0x07
def Lt.FAULT : Nat := 0x10
def Lt.FAILOVER : Nat := 0x11
def Lt.REJOIN : Nat := 0x12
def Lt.STORM_ENTER : Nat := 0x13
def Lt.STORM_EXIT : Nat := 0x14
def Lt.SALVAGE : Nat := 0x15
def Lt.AUTO_ENTER : Nat := 0x16
def Lt.AUTO_EXIT : Nat := 0x17
def Lt.CAL_DONE : Nat := 0x20
def Lt.CAL_REJECT : Nat := 0x21
def Lt.COLUMN_SPARE : Nat := 0x22
def Lt.GRADIENT : Nat := 0x23
def Lt.BERTH_ALARM : Nat := 0x30
def Lt.BERTH_CLEAR : Nat := 0x31
def Lt.BERTH_PRESENCE : Nat := 0x32
def Lt.FAN_STALL : Nat := 0x40
def Lt.TACH_LOST : Nat := 0x41
def Lt.FAN_RECOVER : Nat := 0x42
def Lt.FAN_SHORT : Nat := 0x43
def Lt.ACTUATOR_FAULT : Nat := 0x44
def Lt.ACT_THERMAL : Nat := 0x45
def Lt.BUS_OFF : Nat := 0x50
def Lt.BUS_RECOVER : Nat := 0x51
def Lt.NODE_CLASH : Nat := 0x52
def Lt.ECC_BUCKET : Nat := 0x60
def Lt.UNCORRECTABLE : Nat := 0x61
def Lt.NV_MEDIA : Nat := 0x62
def Lt.LOG_MEDIA_FAULT : Nat := 0x70
def Lt.GAP : Nat := 0x71
def Lt.LOG_CLEARED : Nat := 0x72
def Lt.LOG_RESUMED : Nat := 0x73
def Lt.SLIP_START : Nat := 0x80
def Lt.SLIP_VERIFIED : Nat := 0x81
def Lt.SLIP_REJECT : Nat := 0x82
def Lt.SLIP_SWAP : Nat := 0x83
def Lt.SLIP_ROLLBACK : Nat := 0x84
def Lt.INPUT_STUCK : Nat := 0x90
def Lt.INPUT_CHATTER : Nat := 0x91
def Lt.KEY_RESET : Nat := 0x92
def Lt.KEY_STUCK : Nat := 0x93

/-- Types also kept in the anchor area (R448, column A). -/
def isAnchorType (t : Nat) : Bool :=
  Nat.ble t 0x07 || (Nat.ble 0x10 t && Nat.ble t 0x15) || t == 0x45 || t == 0x61 || t == 0x62 || t == 0x70 ||
    t == 0x72 || t == 0x73 || (Nat.ble 0x80 t && Nat.ble t 0x84) || t == 0x92

/-! ### Stored entries (R418 to R422) -/

/-- Bytes of a record (R419). -/
def PRec.size (r : PRec) : Nat := 16 + 8 * words8 r.value.length

/-- Bytes of the records of an area. -/
def PArea.used (a : PArea) : Nat := (a.recs.map PRec.size).sum

/-- Bytes of a record area: 124 KB, the first code word its header (R418). -/
def areaBytes : Nat := 126976

/-- Free bytes of an area: `PARAM_FREE` of the area in use. -/
def PArea.free (a : PArea) : Nat := areaBytes - 8 - a.used

/-- The area in use. -/
def Nv.area (n : Nv) : PArea := if n.useOne then n.area1 else n.area0

/-- The area in use replaced. -/
def Nv.setArea (n : Nv) (a : PArea) : Nv := if n.useOne then { n with area1 := a } else { n with area0 := a }

/-- MRAM address of the next free position of the area in use (R416, R418). -/
def Nv.nextAddr (n : Nv) : Nat := (if n.useOne then 0x21000 else 0x2000) + 8 + n.area.used

/-- Whether every code word of `size` bytes at `addr` holds what is written. -/
def Nv.holds (n : Nv) (addr size : Nat) : Bool :=
  !n.badWords.any fun a => Nat.ble addr a && Nat.blt a (addr + size)

/-- One attempt to append a record: the store after it, and whether the record reads back valid (R420). -/
def Nv.append (n : Nv) (key : Nat) (value : List Nat) : Nv × Bool :=
  let a := n.area
  let size := 16 + 8 * words8 value.length
  let ok := n.holds n.nextAddr size
  let r : PRec := { key := key, seq := a.recs.length + 1, value := value, ok := ok }
  if a.free < size then (n, false) else (n.setArea { a with recs := a.recs ++ [r] }, ok)

/-- The store of an accepted entry (R420): a record, once more at the next free position if it does not read back, else
MEDIA with an NV_MEDIA record. Also starts a compaction when the free space falls below 16 KB (R422). -/
def State.storeParam (s : State) (key : Nat) (value : List Nat) : Bool × State :=
  let first := s.nv.append key value
  let second := if first.2 then first else first.1.append key value
  let n := second.1
  let start := decide (n.area.free < 16384) && !n.compacting && !n.compactFailed
  let s1 := { s with nv := { n with compacting := n.compacting || start } }
  if second.2 then (true, s1) else (false, s1.pushLog Lt.NV_MEDIA (leBytes 4 s.nv.nextAddr ++ [0]))

/-- The newest valid record of a key in an area (R421). -/
def PArea.find (a : PArea) (key : Nat) : Option PRec :=
  a.recs.reverse.find? fun r => r.ok && r.key == key

/-! ### Tallies (R423 to R425) -/

/-- The tally of an entry. -/
def Nv.tally (n : Nv) (key : Nat) : Option Tally := n.tallies.find? fun t => t.key == key

/-- The value of a tally: its base and its written increments. -/
def Tally.value (t : Tally) : Nat := t.base + t.incs

/-- One count: the lowest unwritten increment, or after seven a new base with the next TAG (R424); a frozen tally discards
it (R425). -/
def Tally.count (t : Tally) : Tally :=
  if t.frozen then t
  else if t.incs < 7 then { t with incs := t.incs + 1 }
  else { t with base := (t.base + 8) % 2 ^ 48, tag := (t.tag + 1) % 2 ^ 16, incs := 0 }

/-- One count of the tally of an entry. -/
def State.countTally (s : State) (key : Nat) : State :=
  { s with nv := { s.nv with tallies := s.nv.tallies.map fun t => if t.key == key then t.count else t } }

/-- The value of an entry held in a tally. -/
def State.tallyValue (s : State) (key : Nat) : Nat :=
  match s.nv.tally key with
  | some t => t.value
  | none => 0

/-! ### The harbourmaster's view used by every chapter -/

/-- STORM in force. -/
def State.storm (s : State) : Bool := s.hm.storm

/-- The state of a quay. -/
def State.qst (s : State) (q : Quay) : QState := (s.hm.quays.get q).st

/-- `QUAY_MODE` is DUPLEX (R226). -/
def State.duplex (s : State) : Bool :=
  (s.qst .a == .active && s.qst .b == .standby || s.qst .b == .active && s.qst .a == .standby) && s.hm.standbyReady

/-- The quay that is STANDBY, the first in alphabetical order (R253). -/
def State.standbyQuay (s : State) : Option Quay :=
  if s.qst .a == .standby then some .a else if s.qst .b == .standby then some .b else none

/-- `QUAY_ROLES` (R224). -/
def State.quayRoles (s : State) : Nat := (s.qst .b).code * 16 + (s.qst .a).code

/-- `OWNER` (R224). -/
def State.ownerCode (s : State) : Nat :=
  match s.hm.owner with
  | none => 0
  | some q => q.code

end Sys2Proof.Machine
end

