-- ==== Sys2Proof/Machine/KlpOps.lean ====
section
/-!
DEFINITION. The ledger engine's shared operations (R386 to R403, R410): who is served when, the checks of R390 in their
order, the kept request of R398, sessions, and the one path every ledger write takes.
-/
namespace Sys2Proof.Machine

/-! ### Who answers, and when (R410) -/

/-- How a request on a port is met in a state. -/
inductive Serving where
  | silent        -- no response at all
  | notServing    -- discarded with ERROR 4
  | held          -- held and answered once a quay owns the token
  | hmOnly        -- MANIFEST only, by the harbourmaster; all else STATE
  | standby       -- by the STANDBY quay under R253
  | recovery      -- by the harbourmaster with NO_FIRMWARE (R529)
  | full
  deriving DecidableEq, Repr

/-- NO_FIRMWARE is set: the harbourmaster serves the SPI host (R529). -/
def State.recovering (s : State) : Bool := s.slip.noFirmware && s.phase == .dark

/-- R410, R240, R252, R253, and R427 step 1: after PFAIL no request is executed. -/
def State.serving (s : State) (p : Port) : Serving :=
  let spi : Bool := match p with
    | .spi => true
    | .can _ => false
  if s.pfail || s.power == .moored || s.power == .off then .silent
  else if s.phase == .dark then (if spi then (if s.recovering then .recovery else .notServing) else .silent)
  else if s.storm then
    if spi then (if s.standbyQuay.isSome then .standby else .hmOnly) else .silent
  else if s.hm.takeover.any (fun t => !t.planned) then (if spi then .held else .silent)
  else if s.hm.owner.isNone then .held
  else .full

/-- The ledger engine replaced. -/
def State.withKlp (s : State) (k : Klp) : State := { s with klp := k }

/-! ### Sessions (R402, R403) -/

/-- The level of a requester's session, PUBLIC unless one is held. -/
def State.levelOf (s : State) (id : Nat) : Nat :=
  match s.klp.sessions.find? fun x => x.id == id with
  | some x => x.level
  | none => 0

/-- The requester's session marked active now. -/
def State.touch (s : State) (id : Nat) : State :=
  { s with klp := { s.klp with
      sessions := s.klp.sessions.map fun x => if x.id == id then { x with last := s.now } else x } }

/-- The requester's session put to a level; PUBLIC holds no session. -/
def State.setLevel (s : State) (id level : Nat) : State :=
  let rest := s.klp.sessions.filter fun x => !(x.id == id)
  { s with klp := { s.klp with
      sessions := if level = 0 then rest else rest ++ [{ id := id, level := level, last := s.now }] } }

/-! ### Requests and responses -/

/-- Operation codes of R388. -/
def opRead : Nat := 0x01
def opWrite : Nat := 0x02
def opSegReadStart : Nat := 0x10
def opSegRead : Nat := 0x11
def opSegWriteStart : Nat := 0x12
def opSegWrite : Nat := 0x13
def opSegAbort : Nat := 0x14
def opSegStream : Nat := 0x15
def opUnlock : Nat := 0x20
def opLock : Nat := 0x21
def opHeartbeat : Nat := 0x22
def opManifest : Nat := 0x30
def opEcho : Nat := 0x3F

/-- Operations whose last request is kept for repeats (R398). -/
def opKept (op : Nat) : Bool :=
  op == opWrite || op == opSegWriteStart || op == opSegWrite || op == opSegAbort || op == opUnlock || op == opLock

/-- Whether the STANDBY quay executes the request in STORM (R253). -/
def stormServes (op index : Nat) : Bool :=
  op == opRead || op == opManifest || op == opUnlock || op == opLock || op == opHeartbeat || op == opEcho ||
    (op == opWrite && (index == 0x1700 || index == 0x1710 || index == 0x1720)) ||
    ((op == opSegReadStart || op == opSegRead) && index == 0x7090)

/-- Whether the harbourmaster serves the request with NO_FIRMWARE (R529). -/
def recoveryServes (q : Request) : Bool :=
  q.op == opManifest || (q.op == opRead && (q.index == 0x1000 || q.index == 0x2600)) ||
    ((q.op == opSegWriteStart || q.op == opSegWrite || q.op == opSegAbort) && q.index == 0x70B0 && q.sub == 1) ||
    (q.op == opWrite && q.index == 0x2600 && q.sub == 2 && q.data == [6])

/-- A response handed to its port: the SPI FIFO of 8, or the queue of CAN responses (R393, R396). -/
def State.deliver (s : State) (r : Resp) : State :=
  match r.req.port with
  | .spi =>
    if s.klp.fifo.length < 8 then { s with klp := { s.klp with fifo := s.klp.fifo ++ [r] } }
    else { s with klp := { s.klp with outbox := s.klp.outbox ++ [r] } }
  | .can _ => { s with klp := { s.klp with outbox := s.klp.outbox ++ [r] } }

/-- The request taken off the queue of accepted requests (R397), where it came in through a port command. -/
def State.dequeue (s : State) (q : Request) : State :=
  { s with klp := { s.klp with queue := s.klp.queue.erase q } }

/-- The request put on the queue of accepted requests: 32 at most; beyond that it is discarded, with ERROR 3 on SPI (R397). -/
def State.enqueueRequest (s : State) (q : Request) : State :=
  if s.klp.queue.length < 32 then { s with klp := { s.klp with queue := s.klp.queue ++ [q] } }
  else
    { s with klp := { s.klp with
        discards := satInc 32 s.klp.discards
        linkErr := match q.req.port with
          | .spi => 3
          | .can _ => s.klp.linkErr } }

/-- The kept response to a repeat: same TAG and bytes within 2 s (R398). -/
def State.keptFor (s : State) (q : Request) : Option Kept :=
  s.klp.kept.find? fun k => k.id == q.req.id && k.rq == q && decide (s.now ≤ k.time + 2 * clkSec)

/-- The request kept with its response. -/
def State.keep (s : State) (q : Request) (r : Resp) : State :=
  { s with klp := { s.klp with
      kept := { id := q.req.id, rq := q, resp := r, time := s.now } ::
        s.klp.kept.filter fun k => !(k.id == q.req.id) } }

/-- The response to a request. -/
def respTo (q : Request) (st : Status) (data : List Nat) : Resp :=
  { req := q.req, op := q.op + 0x80, index := q.index, sub := q.sub, status := st,
    data := if st = .ok then data else [] }

/-- A request answered: counted, its response delivered, and kept where R398 keeps it. -/
def State.answer (s : State) (q : Request) (st : Status) (data : List Nat) : State :=
  let r := respTo q st data
  let s1 := { s with klp := { s.klp with requests := satInc 32 s.klp.requests } }
  let s2 := if opKept q.op then s1.keep q r else s1
  s2.deliver r

/-- The life of one request: availability (R410), repeats (R398), the checks that come first (`pre`, R390 orders 1 to 3),
STORM's refusal (R253), then `run`, which gives the status, the data and the state after it. -/
def State.request (s : State) (q : Request) (pre : State → Option Status)
    (run : State → Status × List Nat × State) : State :=
  let s0 := s.dequeue q
  match s.serving q.req.port with
  | .silent => s0
  | .notServing => { s0 with klp := { s0.klp with linkErr := 4 } }
  | .held => s0.enqueueRequest q
  | .hmOnly => s0.answer q .state []
  | v =>
    if v = .recovery ∧ recoveryServes q = false then { s0 with klp := { s0.klp with linkErr := 4 } } else
    match (if opKept q.op then s0.keptFor q else none) with
    | some k => { s0.deliver k.resp with klp :=
        { (s0.deliver k.resp).klp with duplicates := satInc 32 s0.klp.duplicates } }
    | none =>
      let s1 := s0.touch q.req.id
      match pre s1 with
      | some st => s1.answer q st []
      | none =>
        if v = .standby ∧ stormServes q.op q.index = false then s1.answer q .state []
        else
          let r := run s1
          r.2.2.answer q r.1 r.2.1

/-! ### Writes (R384, R389, R390) -/

/-- The request a write command stands for. -/
def wrRequest (w : Wr) (key : Nat) : Request :=
  { req := w.req, op := opWrite, index := key / 256, sub := key % 256, data := leBytes w.len w.val }

/-- A FACTORY session may write the entry of a frozen tally (R425). -/
def State.tallyOpen (s : State) (w : Wr) (key : Nat) : Bool :=
  Nat.ble 3 (s.levelOf w.req.id) && (s.nv.tally key).any Tally.frozen

/-- Checks 1 to 3 of R390 for a WRITE; values of a BOOL other than 0 and 1 are rejected with TYPE (R11). -/
def State.checkWrite (s : State) (w : Wr) (key : Nat) : Option Status :=
  match findEntry key with
  | none => some .noObject
  | some e =>
    if (e.acc = 0 ∧ s.tallyOpen w key = false) ∨ (s.levelOf w.req.id < e.acc ∧ s.recovering = false) then some .access
    else if e.ty = .domain ∨ w.len ≠ e.ty.bytes then some .type
    else if e.ty = .bool ∧ 1 < w.val then some .type
    else none

/-- The value of a raw write as the entry's type reads it. -/
def Entry.read (e : Entry) (v : Nat) : Int := if e.ty.signed then toSigned (8 * e.ty.bytes) v else (v : Int)

/-- Whether the plain range of the entry allows the value (R390 order 6). -/
def inRange (key v : Nat) : Bool :=
  match findEntry key with
  | none => false
  | some e => e.range.isEmpty || e.range.any fun p => withinI p.1 p.2 (e.read v)

/-- An entry takes a value: a stored entry goes to the parameters partition first, and keeps its previous value with MEDIA
where that fails (R385, R420). -/
def State.putEntry (s : State) (key v : Nat) : Status × State :=
  match findEntry key with
  | none => (.noObject, s)
  | some e =>
    if e.stored then
      let p := s.storeParam key (leBytes e.ty.bytes v)
      if p.1 then (.ok, p.2.setReg key v) else (.media, p.2)
    else (.ok, s.setReg key v)

/-- An effect that follows an accepted store. -/
def andThen (r : Status × State) (f : State → State) : Status × State :=
  if r.1 = .ok then (.ok, f r.2) else r

/-- The rule of an entry that only has a plain range (R390 orders 6 and 7). -/
def plainRule (key : Nat) (s : State) (v : Nat) : Status × State :=
  if inRange key v then s.putEntry key v else (.range, s)

/-- A ledger write of the entry at `key`: the checks of R390 in order, then the entry's own rule. -/
def State.ledgerWrite (s : State) (w : Wr) (key : Nat) (rule : State → Nat → Status × State) : State :=
  s.request (wrRequest w key) (fun s => s.checkWrite w key)
    (fun s => let r := rule s w.val; (r.1, [], r.2))

end Sys2Proof.Machine
end

