-- ==== Sys2Proof/Machine/BusOps.lean ====
section
/-!
DEFINITION. Shared operations of the building bus: transmit queues, what STORM gates, and the breakwater every alarm
passes through (R363 to R365, R372 to R376, R379).
-/
namespace Sys2Proof.Machine

/-! ### Channels and queues -/

/-- The channel. -/
def State.chan (s : State) (c : Bus) : Channel := s.bus.ch.get c

/-- The channel replaced. -/
def State.setChan (s : State) (c : Bus) (x : Channel) : State := { s with bus := { s.bus with ch := s.bus.ch.set c x } }

/-- Depths of the transmit queues (R363). -/
def queueDepth : Nat → Nat
  | 0 => 32
  | 1 => 4
  | 2 => 64
  | 3 => 64
  | 4 => 16
  | 5 => 16
  | 6 => 16
  | 7 => 2
  | _ => 0

/-- Queues whose refusal when full is counted in `TX_DROPS` (R363). -/
def fullCounts (q : Nat) : Bool := q == 1 || q == 3 || q == 6 || q == 7

/-- The head of a queue. -/
def Channel.head (x : Channel) (q : Nat) : Option TxFrame := (x.queues.getD q []).head?

/-- The queue whose head wins arbitration: the held frame first, else the lowest identifier among the heads (R363). -/
def Channel.pick (x : Channel) : Option Nat :=
  match x.held with
  | some q => some q
  | none =>
    (List.range 8).foldl (fun best q =>
      match x.head q with
      | none => best
      | some h =>
        match best.bind fun b => x.head b with
        | none => some q
        | some g => if h.f.id < g.f.id then some q else best) none

/-- The channel takes part in arbitration (R358, R359, R378). -/
def Channel.sends (x : Channel) : Bool := x.active == .normal && x.integrated && !x.busOff

/-- The channel at the start of an arbitration. -/
def Channel.arbitrate (x : Channel) : Channel := { x with offered := if x.sends then x.pick else none }

/-- `FD_ENABLE` of a channel. -/
def State.fdOn (s : State) (c : Bus) : Bool := s.reg (Reg.FD_ENABLE c.idx) == 1

/-- STORM gates the channel: `STORM_BUS` does not select it (R251, R376). -/
def State.gated (s : State) (c : Bus) : Bool := s.storm && !s.regBit Reg.STORM_BUS c.idx

/-- Whether a queue takes frames in STORM: only the alarm queue, on a channel that is not gated (R376). -/
def State.stormStops (s : State) (c : Bus) (q : Nat) : Bool := s.storm && (s.gated c || !(q == 0))

/-- An enqueue (R359, R363, R364): refused with `TX_DROPS` while the channel is not NORMAL, discarded with `TX_DISCARDS`
where STORM stops the queue, refused when the queue is full; after PFAIL no transmission starts (R383). -/
def State.enqueue (s : State) (c : Bus) (q : Nat) (f : TxFrame) : Bool × State :=
  let x := s.chan c
  let l := x.queues.getD q []
  if x.active ≠ .normal then (false, s.setChan c { x with txDrops := satInc 32 x.txDrops })
  else if s.stormStops c q then (false, s.setChan c { x with txDiscards := satInc 32 x.txDiscards })
  else if queueDepth q ≤ l.length then
    (false, if fullCounts q then s.setChan c { x with txDrops := satInc 32 x.txDrops } else s)
  else
    let y := { x with
      queues := x.queues.set q (l ++ [f])
      counts := x.counts.set q ((x.counts.getD q 0 + 1) % 2 ^ 32) }
    (true, s.setChan c (if x.offered.isNone && !s.pfail then y.arbitrate else y))

/-- A classic or FD frame that is no berth report. -/
def plainFrame (id : Nat) (fd : Bool) (data : List Nat) : TxFrame :=
  { f := { id := id, fd := fd, data := data, ext := false }, copied := false, compact := none }

/-- Identifier of a function code with the node's own number (R361). -/
def State.ownId (s : State) (fn : Nat) : Nat := fn * 128 + s.reg Reg.NODE_ID

/-- A frame with function 0x0 addressed to this node or to every node (R361, R367). -/
def State.toNode (s : State) (f : CanFrame) : Bool := f.id / 128 == 0 && (f.id % 128 == 0 || f.id % 128 == s.reg Reg.NODE_ID)

/-- A frame is a network command to this node, a classic frame (R367, R407). -/
def State.isNet (s : State) (f : CanFrame) : Bool := s.toNode f && !f.fd

/-- Every channel of a bit mask that is NORMAL. -/
def State.normalIn (s : State) (mask : Nat) : List Bus :=
  [Bus.one, Bus.two].filter fun c => bitAt mask c.idx && (s.chan c).active == .normal

/-- The queued frames of a channel discarded: all of them, or in STORM all but the alarm queue (R359, R376). -/
def Channel.discard (x : Channel) (keepAlarms : Bool) : Channel :=
  let kept := if keepAlarms then [x.queues.getD 0 []] else [[]]
  let n := (x.queues.map List.length).sum - (kept.map List.length).sum
  let y := { x with
    queues := kept ++ List.replicate 7 []
    held := if keepAlarms && x.held == some 0 then some 0 else none
    txDiscards := satAdd 32 x.txDiscards n }
  y.arbitrate

/-! ### The breakwater -/

/-- Channels that carry alarm frames now (R374, R376, R379): the NORMAL ones of `ALARM_CHANNELS` that STORM does not gate,
and for a bus-off one the other channel while `BUS_FAILOVER` is 1. -/
def State.alarmTargets (s : State) : List Bus :=
  [Bus.one, Bus.two].filter fun c =>
    let able := (s.chan c).active == .normal && !s.gated c
    let named := s.regBit Reg.ALARM_CHANNELS c.idx
    let o := s.chan c.other
    let copy := s.regBit Reg.ALARM_CHANNELS c.other.idx && o.active == .normal && o.busOff && !s.gated c.other &&
      s.reg Reg.BUS_FAILOVER == 1 && !(s.chan c).busOff
    able && (named || copy)

/-- The breakwater replaced. -/
def State.withBw (s : State) (b : Breakwater) : State := { s with bus := { s.bus with bw := b } }

/-- The record kept of a source. -/
def Breakwater.get (b : Breakwater) (source : Nat) : BwSource :=
  match b.sources.find? fun x => x.source == source with
  | some x => x
  | none => { source := source, hold := false, pend := none, replaced := false, limited := false }

/-- The record of a source replaced; a source with nothing to remember is not listed. -/
def Breakwater.put (b : Breakwater) (x : BwSource) : Breakwater :=
  let rest := b.sources.filter fun y => !(y.source == x.source)
  { b with sources := if x.hold || x.pend.isSome || x.replaced || x.limited then rest ++ [x] else rest }

/-- The alarm frame of an event (R373). -/
def bwFrame (s : State) (e : BwEvent) (suppressed : Bool) (seq : Nat) : CanFrame :=
  { id := s.ownId 0x1, fd := false, ext := false,
    data := leBytes 2 e.source ++ [e.state % 4 + 4 * (e.cls % 4) + 16 * b2n suppressed + 32 * (e.reason % 8), seq] ++
      leBytes 2 (min e.value 65535) ++ leBytes 2 e.flags }

/-- A source limited from now on (R375): it counts in the second that runs, and summaries run. -/
def Breakwater.limit (b : Breakwater) (source : Nat) : Breakwater :=
  { b with second := if b.second.contains source then b.second else b.second ++ [source], running := true }

/-- A waiting frame of a source replaced by a newer one of the same source (R374): it counts in `BW_SUPPRESSED`, and the source
is limited. -/
def Breakwater.replaceWaiting (b : Breakwater) (source : Nat) (f : CanFrame) (c : Bus) : Breakwater :=
  let b1 := { b with
    waiting := b.waiting.set c ((b.waiting.get c).map fun p => if p.1 == source then (source, f) else p)
    suppressed := satInc 32 b.suppressed
    replaced := b.replaced + 1 }
  if source = 0xFFFF then b1 else (b1.put { b1.get source with limited := true }).limit source

/-- A released frame given to one channel's alarm queue: behind frames that wait already, or where the queue is full, it waits, in
the place of an older waiting frame of the same source (R374). -/
def State.giveAlarm (s : State) (source : Nat) (f : CanFrame) (c : Bus) : State :=
  let b := s.bus.bw
  if (b.waiting.get c).any (fun p => p.1 == source) then s.withBw (b.replaceWaiting source f c)
  else
    let r := if (b.waiting.get c).isEmpty then s.enqueue c 0 { f := f, copied := false, compact := none } else (false, s)
    if r.1 then r.2
    else r.2.withBw { r.2.bus.bw with waiting := r.2.bus.bw.waiting.set c (r.2.bus.bw.waiting.get c ++ [(source, f)]) }

/-- A frame released on every channel that can carry it, with the next SEQ; an alarm frame sets ALARM (R408). -/
def State.releaseFrame (s : State) (e : BwEvent) (suppressed summary : Bool) : State :=
  let seq := (s.bus.bw.seq + 1) % 256
  let s1 := s.withBw { s.bus.bw with seq := seq }
  let s2 := (s.alarmTargets).foldl (fun t c => t.giveAlarm e.source (bwFrame s e suppressed seq) c) s1
  if summary then s2 else s2.raiseIrq irqAlarm

/-- A source is limited (R375): it holds a pending event for its hold, or had one replaced since the last summary; while its
event waits only for a channel it is not (R374). -/
def BwSource.isLimited (x : BwSource) : Bool := if x.pend.isSome then x.hold else x.limited

/-- A source's event released, its hold started (R374). -/
def State.releaseSource (s : State) (e : BwEvent) : State :=
  let s1 := s.releaseFrame e (s.bus.bw.get e.source).replaced false
  s1.withBw (s1.bus.bw.put { s1.bus.bw.get e.source with hold := true, pend := none, replaced := false })

/-- A source's event made pending; the event it replaces counts in `BW_SUPPRESSED` (R374). -/
def State.holdEvent (s : State) (e : BwEvent) : State :=
  let b := s.bus.bw
  let x := b.get e.source
  let had := x.pend.isSome
  let y := { x with pend := some e, replaced := x.replaced || had, limited := x.limited || (had && x.hold) }
  let b1 := b.put y
  let b2 := { b1 with
    suppressed := if had then satInc 32 b.suppressed else b.suppressed
    replaced := if had then b.replaced + 1 else b.replaced }
  s.withBw (if y.isLimited then b2.limit e.source else b2)

/-- An alarm or clear event passed to the breakwater (R374). -/
def State.alarm (s : State) (e : BwEvent) : State :=
  if s.alarmTargets.isEmpty || (s.bus.bw.get e.source).hold then s.holdEvent e else s.releaseSource e

/-- An event of a source other than a berth: class 3, reason 0 (R373). -/
def State.alarmOf (s : State) (source state value flags : Nat) : State :=
  s.alarm { source := source, state := state, cls := 3, reason := 0, value := value, flags := flags }

/-- Each row (R374): waiting frames are tried again on a channel that still carries alarms, and events that waited only for a channel are released. -/
def State.breakwaterRow (s : State) : State :=
  let retry (t : State) (c : Bus) : State :=
    let w := t.bus.bw.waiting.get c
    let t0 := t.withBw { t.bus.bw with waiting := t.bus.bw.waiting.set c [] }
    if (t.chan c).active == .normal && !t.gated c then w.foldl (fun u p => u.giveAlarm p.1 p.2 c) t0 else t
  let s1 := retry (retry s .one) .two
  if s1.alarmTargets.isEmpty then s1
  else
    s1.bus.bw.sources.foldl (fun t x =>
      match x.pend with
      | some e => if x.hold then t else t.releaseSource e
      | none => t) s1

end Sys2Proof.Machine
end

