-- ==== Sys2Proof/Machine/ActOps.lean ====
section
/-!
DEFINITION. Shared operations of the drivers and fan supplies: reading and replacing one output, the command in force, duty
in switching windows, storm values, fan targets, bands, tugs and tachs (R295 to R327).
-/
namespace Sys2Proof.Machine

/-! ### Outputs: 0 to 3 dampers, 4 to 7 valves, 8 to 11 triac gates, 12 to 15 analogue outputs (R299) -/

def isDamper (i : Nat) : Bool := Nat.blt i 4
def isValve (i : Nat) : Bool := Nat.ble 4 i && Nat.blt i 8
def isTriac (i : Nat) : Bool := Nat.ble 8 i && Nat.blt i 12
def isAnalogue (i : Nat) : Bool := Nat.ble 12 i && Nat.blt i 16

/-- An output of which nothing is known: driver off, at rest. -/
def OutUnit.idle : OutUnit :=
  { level := 0, next := none, off := true, hmValue := true, acc := 0, pwm := none, tail := none, waiting := false, latched := false,
    trips := [], overcurrent := false, limitAt := none, drivenAt := none, openLoad := false, limited := false, current := 0, pos := 0, posAcc := 0,
    stroke := 0, overs := false, overDone := false, unknown := false, peak := false, burst := 0, fire := false,
    second := false, fireAt := none, gateOff := none, gate := false }

/-- One output. -/
def State.out (s : State) (i : Nat) : OutUnit := s.act.outs.getD i OutUnit.idle

/-- One output replaced. -/
def State.setOut (s : State) (i : Nat) (o : OutUnit) : State := { s with act := { s.act with outs := s.act.outs.set i o } }

/-- Damper `i` works in FLOATING (R303). -/
def State.floating (s : State) (i : Nat) : Bool := (i == 0 || i == 2) && s.reg (Reg.OUT_MODE i) == 1

/-- The output is the PARTNER of a FLOATING damper (R303). -/
def State.partner (s : State) (i : Nat) : Bool := (i == 1 && s.floating 0) || (i == 3 && s.floating 2)

/-- The output delivers: no protection, thermal stop or off state stands in the way. -/
def State.live (s : State) (i : Nat) : Bool :=
  let o := s.out i
  !o.off && !o.waiting && !o.latched && !s.act.thermal && !s.act.allOff

/-- A level put in force: the error accumulator is cleared by a change of more than 1/16 of full scale (R296), a PEAK_HOLD
valve that rises through 2,048 starts its full-on time (R304), and a new FLOATING target is not yet over-driven (R303). -/
def State.applyLevel (s : State) (i level : Nat) : State :=
  let o := s.out i
  let far := decide (4095 < 16 * (if level < o.level then o.level - level else level - o.level))
  let rises := isValve i && s.reg (Reg.OUT_MODE i) == 2 && decide (o.level < 2048) && decide (2048 ≤ level)
  s.setOut i { o with
    level := level
    acc := if far then 0 else o.acc
    peak := if isValve i && level < 2048 then false else o.peak || rises
    overs := if level = o.level then o.overs else false
    overDone := if level = o.level then o.overDone else false }

/-- A command of the owning quay (R298): it waits for the output's next period, half-cycle or row; the first one ends the
storm value of power-up (R301). -/
def State.commandOut (s : State) (i level : Nat) : State :=
  let o := s.out i
  s.setOut i { o with next := some level, hmValue := false, off := false }

/-- Action and level of a storm value (R250). -/
def stormAction (v : Nat) : Nat := field v 14 2
def stormLevel (v : Nat) : Nat := field v 0 12

/-- Key of the storm value of output `i` (R249). -/
def stormKey (i : Nat) : Nat := 0x171001 + i

/-- An output takes its storm value (R301): SET applies LEVEL, HOLD keeps the level in force, OFF turns the driver off. -/
def State.applyStorm (s : State) (i : Nat) : State :=
  let v := s.reg (stormKey i)
  let o := s.out i
  if stormAction v = 1 then
    let s1 := s.setOut i { o with hmValue := true, off := false, next := none }
    s1.applyLevel i (stormLevel v)
  else if stormAction v = 2 then s.setOut i { o with hmValue := true, off := true, next := none }
  else s.setOut i { o with hmValue := true, next := none }

/-- Every output takes its storm value (R251 step 2). -/
def State.applyStorms (s : State) : State := (List.range 16).foldl State.applyStorm s

/-- `OUT_STATUS` (R300). -/
def State.outStatus (s : State) (i : Nat) : Nat :=
  let o := s.out i
  b2n (s.live i && o.level != 0) + 2 * b2n o.limited + 4 * b2n o.waiting + 8 * b2n o.openLoad +
    16 * b2n o.overcurrent + 32 * b2n o.latched + 64 * b2n s.act.thermal + 128 * b2n o.hmValue

/-- The power-die temperature, 1/64 K, of its slow-ADC channel 42 (R334, R332). -/
def State.dieTemp64 (s : State) : Nat :=
  (rdiv ((s.regI (Reg.AI_VALUE_INT 10) + 273150) * 64) 1000).toNat

/-- `ACT_STATUS` (R313). -/
def State.actStatus (s : State) : Nat :=
  b2n s.act.thermal + 2 * b2n (decide (s.regI (Reg.AI_VALUE_INT 10) > 140000)) +
    4 * b2n ((List.range 16).any fun i => (s.out i).hmValue)

/-! ### Duty cycles in switching windows (R296, R297, R302, R304) -/

/-- Positions of a switching window (R18). -/
def windowPositions (rate : Nat) : Nat := if rate = 60 then 20 else 40

/-- Clocks of the 32-row period of dampers and valves (R297). -/
def periodClocks (rate : Nat) : Nat := 32 * clocksPerRow rate

/-- On-times reachable by a damper or valve whose turn-off falls `k` windows later, closest to `x`: the whole rows and the
position difference, clipped to the period (R297). -/
def nearestIn (rate k : Nat) (x : Int) : Int :=
  let base : Int := (k * clocksPerRow rate : Nat)
  let m : Int := 4 * ((windowPositions rate : Nat) - 1 : Int)
  let d := clampI (-m) m (4 * ((x - base + 1) / 4))
  clampI 0 (periodClocks rate : Nat) (base + d)

/-- The reachable on-time nearest to `x`, the lower of two equally near (R296). -/
def nearestReach (rate : Nat) (x : Int) : Int :=
  (List.range 33).foldl (fun best k =>
    let c := nearestIn rate k x
    let db := (best - x).natAbs
    let dc := (c - x).natAbs
    if dc < db ∨ (dc = db ∧ c < best) then c else best) 0

/-- Which way a FLOATING pair drives: closing, opening (R303); under HOLD it stops driving (R301), and a trip of either output
stops both (R310). -/
def State.floatDrive (s : State) (i : Nat) : Bool × Bool :=
  let o := s.out i
  let live := s.live i && s.live (i + 1) && !(o.hmValue && stormAction (s.reg (stormKey i)) == 0)
  (live && (decide (o.stroke ≠ 0) ||
      (if o.level = 0 then decide (0 < o.pos) || o.overs else decide (o.level + 41 < o.pos))),
    live && o.stroke == 0 && (if o.level = 4095 then decide (o.pos < 4095) || o.overs else decide (o.pos + 41 < o.level)))

/-- Wanted on-time of a damper or valve in a period, and whether the supply is too low for it (R302, R303, R304). -/
def State.wantOn (s : State) (i : Nat) : Nat × Bool :=
  let o := s.out i
  let p := periodClocks s.rate
  if !s.live i then (0, false)
  else if isDamper i then
    let pair := if i = 1 ∨ i = 3 then i - 1 else i
    let fl := s.floating pair
    let d := s.floatDrive pair
    let v := rdivN (o.level * s.reg (Reg.DMP_VFULL i)) 4095
    let vfull := s.reg (Reg.DMP_VFULL i)
    let drive := if fl then (if (i = pair ∧ d.2 = true) ∨ (i ≠ pair ∧ d.1 = true) then vfull else 0) else v
    if s.act.vin < drive then (p, true)
    else if s.act.vin = 0 then (0, false)
    else (rdivN (drive * p) s.act.vin, false)
  else if s.reg (Reg.OUT_MODE i) = 1 then (rdivN (o.level * p) 4095, false)
  else if s.reg (Reg.OUT_MODE i) = 2 then
    if o.peak then (p, false)
    else if o.level < 2048 then (0, false)
    else (rdivN (s.reg (Reg.VLV_HOLD (i - 4)) * p) 4095, false)
  else ((if o.level < 2048 then 0 else p), false)

/-- Row of the 32-row period whose window starts the period of a damper or valve (R297). -/
def periodRow (i : Nat) : Nat := if isDamper i then 8 * i else 8 * (i - 4) + 4

/-! ### Fan channels: 0 and 1 (R314 to R326) -/

def FanUnit.idle : FanUnit :=
  { st := .off, attempt := 0, cmd := 0, target := 0, out := 0, retry := false, retug := false, short := false,
    latched := false, shorts := [], limited := false, crossing := false, vinLimited := false, stallSeen := false,
    targetAt := 0, vout := 0, iout := 0, events := 0, rate := 0, stalls := 0, pfailOff := false }

def TachUnit.idle : TachUnit :=
  { st := .unbound, edges := [], rpm := 0, tugEdges := 0, stopAt := 0, outside := 0, ripple := 0, perV := 0, noise := 0 }

def State.fan (s : State) (c : Nat) : FanUnit := s.act.fans.getD c FanUnit.idle
def State.setFan (s : State) (c : Nat) (f : FanUnit) : State := { s with act := { s.act with fans := s.act.fans.set c f } }
def State.tach (s : State) (k : Nat) : TachUnit := s.act.tachs.getD k TachUnit.idle
def State.setTach (s : State) (k : Nat) (t : TachUnit) : State :=
  { s with act := { s.act with tachs := s.act.tachs.set k t } }

/-- VIN: the voltage at VHOLD, mV (R295). -/
def State.vinMv (s : State) : Nat := s.reg Reg.VHOLD_MV

/-- The highest output, VIN − 1 V (R314). -/
def State.vinTop (s : State) : Nat := s.vinMv - 1000

/-- The tachs bound to a channel (R319). -/
def State.boundTachs (s : State) (c : Nat) : List Nat :=
  (List.range 4).filter fun k => bitAt (s.reg (Reg.FAN_TACHS c)) k

/-- The channel a tach is bound to. -/
def State.tachChannel (s : State) (k : Nat) : Option Nat :=
  (List.range 2).find? fun c => bitAt (s.reg (Reg.FAN_TACHS c)) k

/-- Whether the fan-table engine holds a channel (R289). -/
def State.engine (s : State) (c : Nat) : Engine :=
  s.loop.engines.getD c { held := false, source := 3, temp := 0, cmd := 0, acc := 0 }

/-- Little-endian U16 at an offset of a byte list. -/
def u16At (b : List Nat) (i : Nat) : Nat := b.getD i 0 + 256 * b.getD (i + 1) 0

/-- The resonance bands that apply to a channel now, as (L, H): its own, and the table's while the engine holds it (R317). -/
def State.bands (s : State) (c : Nat) : List (Nat × Nat) :=
  let own := (List.range 4).map fun j => (field (s.reg (Reg.FAN_BAND c j)) 0 16, field (s.reg (Reg.FAN_BAND c j)) 16 16)
  let tab := (List.range 4).map fun j =>
    (u16At s.loop.tables (96 * c + 80 + 4 * j), u16At s.loop.tables (96 * c + 82 + 4 * j))
  (if (s.engine c).held then own ++ tab else own).filter fun p => decide (p.1 < p.2)

/-- A target inside a band gives way to the edge on the side of the output in force (R292, R317). -/
def bandEdge (bands : List (Nat × Nat)) (out target : Nat) : Nat :=
  match bands.find? fun p => Nat.blt p.1 target && Nat.blt target p.2 with
  | none => target
  | some p =>
    if out ≤ p.1 then p.1 else if p.2 ≤ out then p.2
    else if out - p.1 ≤ p.2 - out then p.1 else p.2

/-- The target a command in mV becomes (R315): 0 turns the supply off. -/
def State.fanTarget (s : State) (c mv : Nat) : Nat × Bool :=
  if mv < s.reg (Reg.FAN_VMIN c) ∨ mv = 0 then (0, false)
  else
    let lim := decide (s.vinTop < mv)
    (bandEdge (s.bands c) (s.fan c).out (if lim then s.vinTop else mv), lim)

/-- The tug voltage (R325). -/
def State.tugVoltage (s : State) (c target : Nat) : Nat := min (max (s.reg (Reg.FAN_VSTART c)) target) s.vinTop

/-- The edge counts of a channel's bound tachs cleared at the start of a tug (R325). -/
def State.clearTugEdges (s : State) (c : Nat) : State :=
  (s.boundTachs c).foldl (fun t k => t.setTach k { t.tach k with tugEdges := 0 }) s

/-- A tug started (R325). -/
def State.startTug (s : State) (c attempt : Nat) (retry : Bool) : State :=
  let f := s.fan c
  (s.setFan c { f with st := .tug, attempt := attempt, retry := retry, retug := false, short := false }).clearTugEdges c

/-- LEVEL to mV (R315). -/
def State.fanMv (s : State) (c level : Nat) : Nat := rdivN (level * s.reg (Reg.FAN_VFULL c)) 4095

/-- The supply delivers: the buck switches (R320). -/
def State.fanSwitching (s : State) (c : Nat) : Bool :=
  let f := s.fan c
  (f.st == .tug || f.st == .running) && !f.latched && !s.act.thermal && !s.act.allOff && !f.pfailOff

/-- Where the output is heading: the tug voltage, the target, or off. -/
def State.fanGoal (s : State) (c : Nat) : Nat :=
  let f := s.fan c
  if !s.fanSwitching c then 0
  else if f.st = .tug ∨ f.retug then s.tugVoltage c f.target
  else f.target

/-- One row of the fan regulator (R316, R317): the output moves at the maximum slew of 2,000 mV/ms; inside a band while it
moves, BAND_CROSSING is set; with the supply off it is 0. -/
def State.fanRow (s : State) (c : Nat) : State :=
  let f := s.fan c
  let goal := s.fanGoal c
  let step := 2000 * clocksPerRow s.rate / clkMs
  let out := if s.fanSwitching c then moveTo f.out goal step else 0
  let inside := (s.bands c).any fun p => Nat.blt p.1 out && Nat.blt out p.2
  s.setFan c { f with out := out, crossing := inside && decide (out ≠ goal) }

/-- `FAN_STATUS` (R320). -/
def State.fanStatus (s : State) (c : Nat) : Nat :=
  let f := s.fan c
  b2n (s.fanSwitching c) + 2 * b2n f.vinLimited +
    4 * b2n ((s.boundTachs c).any fun k => (s.tach k).st == .lost) + 8 * b2n f.stallSeen +
    16 * b2n (s.engine c).held + 32 * b2n f.crossing + 64 * b2n f.limited + 128 * b2n f.short + 256 * b2n f.latched

/-- The short event of a channel over: its alarm source clears unless LATCHED keeps it raised (R318, R372). -/
def State.endShort (s : State) (c : Nat) : State :=
  let f := s.fan c
  let s1 := s.setFan c { f with short := false }
  if f.short && !f.latched then s1.alarmOf (0x2010 + c) 0 f.iout (s1.fanStatus c) else s1

/-- A command in mV takes effect on a channel (R315, R325): it turns the supply off from any state, starts a tug from OFF,
waits for RUNNING in TUG, WAIT and STALL (R325, R327), and else becomes the target. -/
def State.commandFan (s : State) (c mv : Nat) : State :=
  let f := s.fan c
  let t := s.fanTarget c mv
  let g := { f with
    cmd := mv
    target := t.1
    vinLimited := t.2
    targetAt := if t.1 = f.target then f.targetAt else s.now }
  if t.1 = 0 then (s.setFan c { g with st := .off, retug := false, attempt := 0 }).endShort c
  else if f.st = .off then
    if f.latched = false ∧ s.act.thermal = false then (s.setFan c g).startTug c 1 false else s.setFan c g
  else if f.st = .tug ∨ f.st = .wait ∨ f.st = .stall then s.setFan c { f with cmd := mv }
  else s.setFan c g

/-- `FAN_SUMMARY` (R319). -/
def State.fanSummary (s : State) : Nat :=
  b2n ((List.range 2).any (fun c => (s.fan c).st == .stall) || (List.range 4).any fun k => (s.tach k).st == .stalled) +
    2 * b2n ((List.range 4).any fun k => (s.tach k).st == .lost) +
    4 * b2n ((List.range 2).any fun c => (s.fan c).short || (s.fan c).latched)

/-- Expected speed of a fan (R323). -/
def State.expectedRpm (s : State) (c k : Nat) : Nat := rdivN ((s.tach k).perV * (s.fan c).target) 256000

/-- A tach's fan becomes STALLED: FAN_STALL record, `FAN_STALLS`, and its alarm source raised (R325, R326, R372). -/
def State.stallTach (s : State) (c k : Nat) : State :=
  let f := s.fan c
  let s1 := s.setTach k { s.tach k with st := .stalled, outside := 0 }
  let s2 := s1.setFan c { f with stalls := satInc 32 f.stalls, stallSeen := true }
  let s3 := s2.pushLog Lt.FAN_STALL ([c + 1, k + 1] ++ leBytes 2 f.target ++ leBytes 2 f.iout)
  s3.alarmOf (0x2000 + k) 1 (s.tach k).rpm TachState.stalled.code

/-- The whole channel enters STALL (R325): supply off; a record on the entry from attempt 4 and from RUNNING only. -/
def State.stallChannel (s : State) (c : Nat) (record : Bool) : State :=
  let f := s.fan c
  let s1 := s.setFan c { f with st := .stall, stalls := satInc 32 f.stalls, stallSeen := true, retry := false }
  let s2 := if record then s1.pushLog Lt.FAN_STALL ([c + 1, 0] ++ leBytes 2 f.target ++ leBytes 2 f.iout) else s1
  (s.boundTachs c).foldl (fun t k =>
    if (t.tach k).st = .stalled then t
    else (t.setTach k { t.tach k with st := .stalled }).alarmOf (0x2000 + k) 1 (t.tach k).rpm TachState.stalled.code) s2

/-! ### Triac gates and the mains phase (R305 to R307, R45) -/

/-- `MAINS_STATE` codes (R42). -/
def msOff : Nat := 0
def msFree : Nat := 1
def msAcquire : Nat := 2
def msLocked : Nat := 3
def msHoldover : Nat := 4

/-- Half-cycle period in clocks of a nominal frequency (R42). -/
def nominalHalf (hz : Nat) : Nat := if hz = 60 then 416667 else 500000

/-- At a crossing: a triac gate takes its waiting command and books its pulse for the half-cycle that begins (R298, R305 to
R307). `cross` is the T64 of the crossing, `half` the half-cycle period. -/
def State.triacHalf (s : State) (i cross half : Nat) : State :=
  let o0 := s.out i
  let s0 := match o0.next with
    | some l => (s.setOut i { o0 with next := none }).applyLevel i l
    | none => s
  let o := s0.out i
  let ms := s0.reg Reg.MAINS_STATE
  let usable := ms == msLocked || ms == msHoldover
  let earliest := cross + 150 * clkUs
  let latest := cross + half - s0.reg (Reg.TRG_GUARD (i - 8)) * clkUs
  if !s0.live i || ms == msOff || o.level = 0 && s0.reg (Reg.OUT_MODE i) = 0 then
    s0.setOut i { o with fireAt := none, gate := false, gateOff := none, limited := false }
  else if s0.reg (Reg.OUT_MODE i) = 0 then
    if usable then
      let phi := rdivN ((4095 - o.level) * 65536) 4095
      let at_ := max earliest (cross + phi * half / 65536)
      s0.setOut i { o with fireAt := if at_ ≤ latest then some at_ else none, limited := false }
    else if ms == msFree && o.level == 4095 then s0.setOut i { o with fireAt := none, gate := true, gateOff := none, limited := false }
    else s0.setOut i { o with fireAt := none, gate := false, gateOff := none, limited := true }
  else
    let fresh := !o.second
    let b := if fresh then o.burst + o.level else o.burst
    let fire := if fresh then decide (4095 ≤ b) else o.fire
    let b' := if fresh && fire then b - 4095 else b
    let o' := { o with burst := b', fire := fire, second := !o.second }
    if ms == msAcquire then s0.setOut i { o' with fireAt := none, gate := false, gateOff := none, limited := true }
    else if usable then s0.setOut i { o' with fireAt := if fire then some earliest else none, limited := false }
    else s0.setOut i { o' with fireAt := none, gate := fire, gateOff := none, limited := false }

end Sys2Proof.Machine
end

