-- ==== Sys2Proof/Machine/Calendar.lean ====
section
/-!
DEFINITION. The Gregorian calendar of R466 and R467, `DATE_TIME` (R469), alarm matching (R474), and the calendar as the
state holds it.
-/
namespace Sys2Proof.Machine

/-- Ticks per second (R466). -/
def tickHz : Nat := 32768

/-- A leap year (R467). -/
def leap (y : Nat) : Bool := (y % 4 == 0 && y % 100 != 0) || y % 400 == 0

/-- Length of a month (R467). -/
def monthLen (y m : Nat) : Nat :=
  if m = 2 then (if leap y then 29 else 28)
  else if m = 4 ∨ m = 6 ∨ m = 9 ∨ m = 11 then 30 else 31

/-- Days from 2000-01-01 to the first day of a year. -/
def yearStart (y : Nat) : Nat :=
  let n := y - 2000
  365 * n + (n + 3) / 4 - (n + 99) / 100 + (n + 399) / 400

/-- Days of a year before the first of a month. -/
def monthStart (y m : Nat) : Nat := ((List.range (m - 1)).map fun k => monthLen y (k + 1)).sum

/-- The day number of a date, 0 for 2000-01-01 (R467). -/
def dayOf (y m d : Nat) : Nat := yearStart y + monthStart y m + (d - 1)

/-- Whether a date exists, in the calendar's range (R466, R470). -/
def dateExists (y m d : Nat) : Bool := within 2000 2199 y && within 1 12 m && within 1 (monthLen y m) d

/-- The year a day number lies in. -/
def yearOfDay (n : Nat) : Nat :=
  let g := 2000 + n / 366
  let a := if yearStart (g + 1) ≤ n then g + 1 else g
  if yearStart (a + 1) ≤ n then a + 1 else a

/-- Month and day of a day within a year, by walking the months. -/
def monthDay (y : Nat) : Nat → Nat → Nat → Nat × Nat
  | 0, m, r => (m, r + 1)
  | fuel + 1, m, r => if r < monthLen y m then (m, r + 1) else monthDay y fuel (m + 1) (r - monthLen y m)

/-- Year, month, day of a day number. -/
def civil (n : Nat) : Nat × Nat × Nat :=
  let y := yearOfDay n
  let md := monthDay y 11 1 (n - yearStart y)
  (y, md.1, md.2)

/-- Weekday of a day number, 0 Monday (R467). -/
def weekday (n : Nat) : Nat := (n + 5) % 7

/-- The first second past 2199-12-31T23:59:59. -/
def endSecond : Nat := yearStart 2200 * 86400

/-- Calendar time C in ticks (R466). -/
def State.calTicks (s : State) : Int := s.rtc.ticks + s.rtc.offset

/-- C within the range of R466. -/
def inCalendar (c : Int) : Bool := decide (0 ≤ c) && decide (c < ((endSecond * tickHz : Nat) : Int))

/-- Whole seconds of C. -/
def State.calSecond (s : State) : Int := s.calTicks / (tickHz : Int)

/-- `DATE_TIME` of a second of C (R469). -/
def dateTimeOf (sec : Nat) : Nat :=
  let c := civil (sec / 86400)
  let r := sec % 86400
  c.1 * 2 ^ 48 + c.2.1 * 2 ^ 40 + c.2.2 * 2 ^ 32 + r / 3600 * 2 ^ 24 + r / 60 % 60 * 2 ^ 16 + r % 60 * 2 ^ 8

/-- The first field of a `DATE_TIME` value that does not exist, 1 YEAR to 6 SECOND; 0 where all do (R470). -/
def badField (v : Nat) : Nat :=
  let y := field v 48 16
  let m := field v 40 8
  if !within 2000 2199 y then 1
  else if !within 1 12 m then 2
  else if !within 1 (monthLen y m) (field v 32 8) then 3
  else if 23 < field v 24 8 then 4
  else if 59 < field v 16 8 then 5
  else if 59 < field v 8 8 then 6
  else 0

/-- Second of C of a `DATE_TIME` value whose fields exist. -/
def secondOf (v : Nat) : Nat :=
  dayOf (field v 48 16) (field v 40 8) (field v 32 8) * 86400 + field v 24 8 * 3600 + field v 16 8 * 60 + field v 8 8

/-- Whether an alarm's fields match a second of C (R474). -/
def alarmMatches (m : Nat) (sec : Nat) : Bool :=
  let c := civil (sec / 86400)
  let r := sec % 86400
  let day := field m 32 8
  bitAt m 63 &&
    (!bitAt m 56 || field m 8 8 == r % 60) &&
    (!bitAt m 57 || field m 16 8 == r / 60 % 60) &&
    (!bitAt m 58 || field m 24 8 == r / 3600) &&
    (!bitAt m 59 || (if day = 0 then c.2.2 == monthLen c.1 c.2.1 else c.2.2 == day)) &&
    (!bitAt m 60 || field m 40 8 == c.2.1) &&
    (!bitAt m 61 || bitAt m (48 + weekday (sec / 86400)))

/-- Whether a write of `ALARM_MATCH` is allowed (R474). -/
def alarmAllowed (m : Nat) : Bool :=
  !bitAt m 55 && field m 0 8 == 0 &&
    (!bitAt m 56 || Nat.ble (field m 8 8) 59) && (!bitAt m 57 || Nat.ble (field m 16 8) 59) &&
    (!bitAt m 58 || Nat.ble (field m 24 8) 23) && (!bitAt m 59 || Nat.ble (field m 32 8) 31) &&
    (!bitAt m 60 || within 1 12 (field m 40 8)) && (!bitAt m 61 || field m 48 7 != 0)

/-- `WEEKDAY` (R480). -/
def State.weekdayNow (s : State) : Nat :=
  if !s.rtc.valid then 0xFF
  else if s.calTicks < 0 then Config.weekdayBefore s.calTicks % 256
  else weekday (s.calSecond.toNat / 86400)

/-- `DATE_TIME` as read (R469). -/
def State.dateTimeNow (s : State) : Nat :=
  if !s.rtc.valid then 0
  else if s.calTicks < 0 then Config.dateBefore s.calTicks % 2 ^ 64
  else dateTimeOf s.calSecond.toNat

/-- `TIME_STATUS` (R481). -/
def State.timeStatus (s : State) : Nat :=
  let r := s.rtc
  b2n r.valid + 2 * b2n r.continuity + 4 * b2n r.dst + 8 * b2n (r.supply == .backup || r.supply == .bridge) +
    16 * b2n r.vbakLow + 32 * b2n (decide (r.slew ≠ 0)) + 64 * b2n (decide (r.trimPulses ≠ 0)) + 128 * b2n r.xtalFail +
    256 * b2n r.lostPending + 512 * b2n r.outOfRange

end Sys2Proof.Machine
end

