-- ==== Sys2Proof/Machine/LoopOps.lean ====
section
/-!
DEFINITION. Shared operations of loops, zones, schedules, the control mode and the fan-table engine (R261 to R293).
-/
namespace Sys2Proof.Machine

/-! ### Readings that loops take -/

/-- Offsets of a channel's result entries: 0x1B10 for AI1 to AI12, 0x1B20 for channels 32 to 44 (R331, R337). -/
def aiKey (ch sub : Nat) : Nat :=
  if ch ≤ 12 then (0x1B10 + (ch - 1)) * 256 + sub else (0x1B20 + (ch - 32)) * 256 + sub

/-- A slow-ADC channel number of R331. -/
def isAdcChannel (ch : Nat) : Bool := within 1 12 ch || within 32 44 ch

/-- A result is stale once it is more than 100 ms old (R334). -/
def State.aiStale (s : State) (ch : Nat) : Bool := decide (s.reg (aiKey ch 0x0E) + 100 * clkMs < s.now)

/-- An ADC result good under R270; a channel without a sample yet has `AI_T64` 0 and no result. -/
def State.aiGood (s : State) (ch : Nat) : Bool :=
  isAdcChannel ch && s.reg (aiKey ch 0x0E) != 0 && !s.aiStale ch && !s.regBit (aiKey ch 0x0D) 0 && !s.regBit (aiKey ch 0x0D) 1

/-- The value of a channel in milli-units. -/
def State.aiValue (s : State) (ch : Nat) : Int := s.regI (aiKey ch 0x0C)

/-- A channel whose result is a temperature: `AI_UNIT` CELSIUS, or channels 41 to 43 (R331, R334). -/
def State.aiCelsius (s : State) (ch : Nat) : Bool :=
  if within 1 12 ch then s.reg (aiKey ch 0x04) == 2 else within 41 43 ch

/-- A channel's temperature in 1/64 K (R334). -/
def State.aiKelvin64 (s : State) (ch : Nat) : Nat := (rdiv ((s.aiValue ch + 273150) * 64) 1000).toNat

def DiUnit.idle : DiUnit :=
  { high := false, raw := false, filt := false, agree := 0, since := 0, stuck := false, chatter := false,
    frozen := false, edges := 0, complete := false, pausedAt := 0, activations := 0, suppressed := 0 }

/-- Digital input n = 1 to 8. -/
def State.di (s : State) (n : Nat) : DiUnit := s.sens.dis.getD (n - 1) DiUnit.idle

/-- The value of an input as loops see it (R345, R347). -/
def DiUnit.value (d : DiUnit) : Bool := if d.chatter then d.frozen else d.filt

/-- The published berth of a number, if it has a record. -/
def State.berthRun (s : State) (n : Nat) : Option BerthRun := s.berth.runs.find? fun r => r.num == n

/-- A definition entry of a berth in force (R173): written as the ledger key of berth 0 plus the berth's index. -/
def State.berthDef (s : State) (key : Nat) : Nat := smapGet (keyDefault key) key s.berth.inForce

/-- `KIND` of a berth in force. -/
def State.berthKind (s : State) (n : Nat) : Nat := s.berthDef (Reg.KIND n)

/-- The published `VALUE`, `BERTH_FLAGS` and SOURCE_OK of a berth (R199). -/
def State.berthReading (s : State) (n : Nat) : Nat × Nat × Bool :=
  match s.berthRun n with
  | some r => (r.pub.value, r.pub.flags, r.srcOk)
  | none => (0, 0, false)

/-- A process value: its milli-units and the flags PV_REDUCED and PV_RANGE. -/
structure Pv where
  val     : Int
  reduced : Bool
  range   : Bool
  deriving DecidableEq, Repr

/-- Humidity range of a dew margin and its value: surface less dew point (R270); the dew point is a single-precision
function of temperature and humidity, an uninterpreted one (assumption 4). -/
def State.dewMargin (s : State) (surf air hum : Nat) : Option Pv :=
  if s.aiGood surf && s.aiGood air && s.aiGood hum && withinI 1000 100000 (s.aiValue hum) then
    some { val := s.aiValue surf - Config.dewPoint (s.aiValue air) (s.aiValue hum), reduced := false, range := false }
  else none

/-- The reading of a source descriptor, none where it is not good (R269, R270). -/
def State.source (s : State) (reducedOk : Bool) (d : Nat) : Option Pv :=
  let kind := field d 29 3
  let index := field d 16 13
  let param := field d 8 8
  let param2 := field d 0 8
  if kind = 1 then
    if s.aiGood index then some { val := s.aiValue index, reduced := false, range := false } else none
  else if kind = 2 then
    let r := s.berthReading index
    let red := bitAt r.2.1 1
    if r.2.2 && (!red || reducedOk) then
      if s.berthDef (Reg.VALUE_STAT index) = 3 then some { val := (r.1 : Int) * 1000, reduced := red, range := false }
      else some { val := rdiv ((r.1 : Int) * 1000) 64 - 273150, reduced := red, range := r.1 == 0 || r.1 == 0xFFFF }
    else none
  else if kind = 3 then
    match s.bus.rxSlots.find? fun p => p.1 == index with
    | some p =>
      if s.now ≤ p.2.2.1 + param * 100 * clkMs then some { val := toSigned 32 p.2.1, reduced := false, range := false }
      else none
    | none => none
  else if kind = 4 then
    let x := s.di index
    if x.chatter then none else some { val := if x.value then 1000 else 0, reduced := false, range := false }
  else if kind = 5 then s.dewMargin index param param2
  else none

/-! ### Zones and programs (R278 to R287) -/

def LoopRun.idle : LoopRun :=
  { iq := 0, d := 0, pvPrev := 0, uPrev := 0, mode := 0, fresh := true, holding := false, pv := 0, sp := 0, out := 0, status := 0 }

def ZoneRun.idle : ZoneRun := { ends := none, present := false, holding := false }

/-- Runtime of loop `l`. -/
def State.loopRun (s : State) (l : Nat) : LoopRun := s.loop.runs.getD l LoopRun.idle
def State.setLoopRun (s : State) (l : Nat) (r : LoopRun) : State := { s with loop := { s.loop with runs := s.loop.runs.set l r } }

/-- Runtime of zone `z`. -/
def State.zoneRun (s : State) (z : Nat) : ZoneRun := s.loop.zones.getD z ZoneRun.idle
def State.setZoneRun (s : State) (z : Nat) (r : ZoneRun) : State := { s with loop := { s.loop with zones := s.loop.zones.set z r } }

/-- Whether an exception-date entry covers a day number (R285 to R287): a run of LENGTH dates from its start date, which an
every-year entry starts in each year in which its date exists. -/
def exceptionCovers (e day : Nat) : Bool :=
  let year := field e 23 8
  let m := field e 19 4
  let dd := field e 14 5
  let len := field e 9 5
  let startsIn (y : Nat) : Bool :=
    let d := if dd = 0 then monthLen y m else dd
    dateExists y m d && Nat.ble (dayOf y m d) day && Nat.blt day (dayOf y m d + len)
  bitAt e 31 && (if year = 0 then startsIn (yearOfDay day) || startsIn (yearOfDay day - 1) else startsIn (1999 + year))

/-- The day type of a date (R287): 0 Monday to 6 Sunday, 7 HOLIDAY. -/
def State.dayType (s : State) (day : Nat) : Nat :=
  match (List.range 64).find? fun i => exceptionCovers (s.reg (Reg.EXCEPTION_DATE i)) day with
  | some i => field (s.reg (Reg.EXCEPTION_DATE i)) 6 3
  | none => weekday day

/-- The latest point of a program whose DAYS include a day type and whose time is at or before `minute`, as
(time, mode); of two with the same time the higher sub wins (R283). -/
def State.latestPoint (s : State) (p dayType minute : Nat) : Option (Nat × Nat) :=
  (List.range 16).foldl (fun best j =>
    let v := s.reg (Reg.SWITCH_POINT p j)
    let t := field v 19 5 * 60 + field v 13 6
    if bitAt v (24 + dayType) && Nat.ble t minute && (match best with
      | some b => Nat.ble b.1 t
      | none => true) then some (t, field v 0 2) else best) none

/-- The search of R283: date `day` up to `minute`, then whole dates back, at most seven of them. -/
def State.progSearch (s : State) (p : Nat) : Nat → Nat → Nat → Option Nat
  | 0, day, minute => (s.latestPoint p (s.dayType day) minute).map Prod.snd
  | fuel + 1, day, minute =>
    match s.latestPoint p (s.dayType day) minute with
    | some b => some b.2
    | none => if day = 0 then none else s.progSearch p fuel (day - 1) 1439

/-- The value of a program now (R281, R283): none when it is disabled, has no used point, or the calendar is invalid. -/
def State.progValueNow (s : State) (p : Nat) : Option Nat :=
  if s.reg (Reg.PROG_ENABLE p) = 1 ∧ s.rtc.valid = true then
    let sec := s.calSecond.toNat
    s.progSearch p 7 (sec / 86400) (sec % 86400 / 60)
  else none

/-- Every program evaluated (R284); the minute is remembered (R240). -/
def State.evalPrograms (s : State) : State :=
  let s1 := (List.range 32).foldl (fun t p => t.setReg (Reg.PROG_VALUE p) ((t.progValueNow p).getD 0xFF)) s
  { s1 with loop := { s1.loop with lastMinute := if s.rtc.valid then some (s.calSecond / 60) else none } }

/-- Whether a presence source is active (R280). -/
def State.presenceActive (s : State) (src : Nat) : Bool :=
  if src = 0xFFFF then false
  else if src < 0x2000 then s.berthKind src == 3 && (s.berthRun src).any fun r => r.occPub
  else
    let d := s.di (src - 0x8000)
    within 1 8 (src - 0x8000) && !d.chatter && d.filt

/-- Any named presence source of a zone is active. -/
def State.zonePresent (s : State) (z : Nat) : Bool :=
  (List.range 4).any fun j => s.presenceActive (field (s.reg (Reg.PRESENCE_SOURCES z)) (16 * j) 16)

/-- The schedule mode of a zone, and whether it is `DEFAULT_MODE` for want of a program value (R278). -/
def State.scheduleMode (s : State) (z : Nat) : Nat × Bool :=
  let p := s.reg (Reg.ZONE_PROGRAM z)
  let v := if p < 32 then s.reg (Reg.PROG_VALUE p) else 0xFF
  if v = 0xFF ∨ s.rtc.valid = false then (s.reg (Reg.DEFAULT_MODE z), true) else (v, false)

/-- The mode of a zone (R278). -/
def State.zoneModeNow (s : State) (z : Nat) : Nat :=
  let o := s.reg (Reg.ZONE_OVERRIDE z)
  if o ≠ 0xFF then o
  else
    let m := (s.scheduleMode z).1
    if (s.zoneRun z).holding || (s.zoneRun z).present then max m (s.reg (Reg.PRESENCE_MODE z)) else m

/-- A zone brought up to date at a control tick: presence (R280), `ZONE_MODE`, `ZONE_STATUS` (R279). -/
def State.updateZone (s : State) (z : Nat) : State :=
  let p := s.zonePresent z
  let r := s.zoneRun z
  let hold := if p then false else r.present && decide (s.reg (Reg.PRESENCE_HOLD z) ≠ 0) || r.holding
  let s1 := s.setZoneRun z { r with present := p, holding := hold }
  let s2 := s1.setReg (Reg.ZONE_MODE z) (s1.zoneModeNow z)
  s2.setReg (Reg.ZONE_STATUS z)
    (b2n p + 2 * b2n hold + 4 * b2n (decide (s.reg (Reg.ZONE_OVERRIDE z) ≠ 0xFF)) + 8 * b2n (s1.scheduleMode z).2)

/-- Every zone brought up to date. -/
def State.updateZones (s : State) : State := (List.range 32).foldl State.updateZone s

/-! ### Targets (R275, R298) -/

/-- The command LEVEL of an output in ppm (R275). -/
def ppmToLevel (u : Int) : Nat := (rdiv (u * 4095) 1000000).toNat

/-- A command in force in ppm (R298). -/
def ppmOf (level : Nat) : Int := rdiv ((level : Int) * 1000000) 4095

/-- Output number of a target of kind DAMPER to AO (R273, R299). -/
def targetOut (kind n : Nat) : Nat := 4 * (kind - 1) + (n - 1)

/-- A valid target code (R275). -/
def targetValid (t : Nat) : Bool :=
  let k := t / 256
  let n := t % 256
  if k = 0 then n == 0
  else if k ≤ 4 then within 1 4 n
  else if k = 5 then within 1 2 n
  else k == 6

/-- The command in force at a target, in ppm (R274, R298, R315). -/
def State.targetNow (s : State) (t : Nat) : Int :=
  let k := t / 256
  let n := t % 256
  if 1 ≤ k ∧ k ≤ 4 then ppmOf (s.out (targetOut k n)).level
  else if k = 5 then
    let c := n - 1
    let mv := if (s.engine c).held then (s.engine c).cmd else (s.fan c).cmd
    ppmOf (min 4095 (rdivN (mv * 4095) (s.reg (Reg.FAN_VFULL c))))
  else if k = 6 then toSigned 32 (smapGet 0 n s.bus.txSlots)
  else 0

/-- Whether the fan-table engine holds a loop's target (R277). -/
def State.targetHeld (s : State) (t : Nat) : Bool := t / 256 == 5 && (s.engine (t % 256 - 1)).held

/-- A transmit slot written: it becomes valid and stays so (R370). -/
def State.setTxSlot (s : State) (n v : Nat) : State := { s with bus := { s.bus with txSlots := smapPut n v s.bus.txSlots } }

/-- An output u written to a target (R275). -/
def State.writeTarget (s : State) (t : Nat) (u : Int) : State :=
  let k := t / 256
  let n := t % 256
  if 1 ≤ k ∧ k ≤ 4 then s.commandOut (targetOut k n) (ppmToLevel u)
  else if k = 5 then s.commandFan (n - 1) (s.fanMv (n - 1) (ppmToLevel u))
  else if k = 6 then s.setTxSlot n (ofSigned 32 u)
  else s

/-- Loops in AUTO or MANUAL that name a target (R276, R298). -/
def State.loopNames (s : State) (t : Nat) : List Nat :=
  (List.range 64).filter fun l => s.reg (Reg.LOOP_MODE l) != 0 && s.reg (Reg.TARGET l) == t

/-! ### One execution of a loop (R261 to R277) -/

/-- The setpoint of a loop and whether its zone is OFF (R278); an OFF zone names none, and the last one stays. -/
def State.setpoint (s : State) (l : Nat) : Int × Bool :=
  let z := s.reg (Reg.ZONE l)
  if z = 0xFF then (s.regI (Reg.SP_NORMAL l), false)
  else
    let m := s.reg (Reg.ZONE_MODE z)
    if m = 0 then ((s.loopRun l).sp, true)
    else if m = 1 then (s.regI (Reg.SP_ECONOMY l), false)
    else if m = 2 then (s.regI (Reg.SP_NORMAL l), false)
    else (s.regI (Reg.SP_OCCUPIED l), false)

/-- Time step of an execution, ns (R262). -/
def State.loopDt (s : State) (l : Nat) : Int :=
  s.reg (Reg.PERIOD l) * (if s.rate = 60 then 1000000 else 1008000)

/-- The error with its deadband (R273). -/
def State.loopError (s : State) (l : Nat) (pv sp : Int) : Int :=
  let e := if s.reg (Reg.REVERSE l) = 1 then pv - sp else sp - pv
  if e.natAbs ≤ s.reg (Reg.DEADBAND l) then 0 else e

/-- The proportional term, ppm (R273). -/
def State.loopP (s : State) (l : Nat) (e : Int) : Int := (s.reg (Reg.KP l) * e + 32768) / 65536

/-- An output moved towards a goal within `OUT_SLEW`, and whether the slew limited it (R271, R273). -/
def State.slewed (s : State) (l : Nat) (uPrev u : Int) : Int × Bool :=
  let slew := s.reg (Reg.OUT_SLEW l)
  let lim := rdiv (slew * s.loopDt l) 1000000000
  if slew ≠ 0 ∧ lim < (u - uPrev).natAbs then (uPrev + sgn (u - uPrev) * lim, true) else (u, false)

/-- What an AUTO computation gives: output, new runtime, and the saturation and slew flags (R273). -/
structure LoopStep where
  u    : Int
  iq   : Int
  d    : Int
  hi   : Bool
  lo   : Bool
  slew : Bool
  deriving DecidableEq, Repr

/-- The computation of R273, line by line. -/
def State.loopAuto (s : State) (l : Nat) (pv sp iq0 d0 pvPrev uPrev : Int) : LoopStep :=
  let dt := s.loopDt l
  let kp : Int := s.reg (Reg.KP l)
  let ti : Int := s.reg (Reg.TI l)
  let td : Int := s.reg (Reg.TD l)
  let e := s.loopError l pv sp
  let p := s.loopP l e
  let di := if ti ≠ 0 then rdiv (kp * e * dt) (ti * 100000000) else 0
  let iq1 := iq0 + di
  let dm := if s.reg (Reg.REVERSE l) = 1 then pv - pvPrev else pvPrev - pv
  let draw := rdiv (kp * dm * td * 100000000) (dt * 65536)
  let d := if td ≠ 0 then d0 + rdiv ((draw - d0) * dt) (dt + td * 12500000) else 0
  let outMax : Int := s.reg (Reg.OUT_MAX l)
  let outMin : Int := s.reg (Reg.OUT_MIN l)
  let u1 := p + rdiv iq1 65536 + d
  let hi := decide (outMax < u1)
  let u2 := if hi then outMax else u1
  let iq2 := if hi && decide (0 < di) then iq1 - di else iq1
  let lo := decide (u2 < outMin)
  let u3 := if lo then outMin else u2
  let iq3 := if lo && decide (di < 0) then iq2 - di else iq2
  let sl := s.slewed l uPrev u3
  let iq4 := if sl.2 && sgn di == sgn (sl.1 - uPrev) then iq3 - di else iq3
  { u := sl.1, iq := clampI (outMin * 65536) (outMax * 65536) iq4, d := d, hi := hi, lo := lo, slew := sl.2 }

/-- `LOOP_STATUS` bits (R268). -/
def loopBits (running hi lo backup failed reduced range tracking zoneOff slew : Bool) : Nat :=
  b2n running + 2 * b2n hi + 4 * b2n lo + 8 * b2n backup + 16 * b2n failed + 32 * b2n reduced + 64 * b2n range +
    128 * b2n tracking + 256 * b2n zoneOff + 512 * b2n slew

/-- The command in force at a loop's target (R274); with no target, the loop's own last output. -/
def State.loopCommand (s : State) (l : Nat) : Int :=
  if s.reg (Reg.TARGET l) / 256 = 0 then (s.loopRun l).uPrev else s.targetNow (s.reg (Reg.TARGET l))

/-- One execution of a loop in AUTO: sources (R271), bumpless starts (R274), the zone OFF (R278), TRACKING (R277), else
the computation of R273; the output is written unless the fan-table engine holds the target. -/
def State.runAuto (s : State) (l : Nat) : State :=
  let r := s.loopRun l
  let ok := s.reg (Reg.REDUCED_OK l) == 1
  let prim := s.source ok (s.reg (Reg.PV_SOURCE l))
  let back := s.source ok (s.reg (Reg.PV_BACKUP l))
  let tgt := s.reg (Reg.TARGET l)
  let held := s.targetHeld tgt
  let sp := s.setpoint l
  let uNow := s.loopCommand l
  let entry := r.fresh || r.mode != 1
  match prim.orElse (fun _ => back) with
  | none =>
    let u0 := if entry then uNow else r.uPrev
    let fail := s.reg (Reg.FAIL_ACTION l) == 1
    let u := s.slewed l u0 (if sp.2 then (s.reg (Reg.OUT_OFF l) : Int) else if fail then (s.reg (Reg.OUT_FAIL l) : Int) else u0)
    let s1 := (s.setLoopRun l { r with
      uPrev := u.1, out := u.1.toNat, mode := 1, fresh := false, holding := true, sp := sp.1
      status := loopBits true false false false true false false held sp.2 u.2 }).incSat (Reg.PV_FAILS l)
    if held || !(sp.2 || fail) then s1 else s1.writeTarget tgt u.1
  | some pv =>
    let onBack := prim.isNone
    let start := entry || r.holding
    let p := s.loopP l (s.loopError l pv.val sp.1)
    let iq0 := if start then (uNow - p) * 65536 else r.iq
    let d0 := if start then 0 else r.d
    let pv0 := if start then pv.val else r.pvPrev
    let u0 := if start then uNow else r.uPrev
    if held then
      s.setLoopRun l { r with
        iq := (uNow - p) * 65536, d := 0, pvPrev := pv.val, uPrev := uNow, mode := 1, fresh := false, holding := true,
        pv := pv.val, sp := sp.1, out := uNow.toNat
        status := loopBits true false false onBack false pv.reduced pv.range true sp.2 false }
    else if sp.2 then
      let u := s.slewed l u0 (s.reg (Reg.OUT_OFF l))
      (s.setLoopRun l { r with
        iq := iq0, d := d0, pvPrev := pv.val, uPrev := u.1, mode := 1, fresh := false, holding := false, pv := pv.val, sp := sp.1,
        out := u.1.toNat
        status := loopBits true false false onBack false pv.reduced pv.range false true u.2 }).writeTarget tgt u.1
    else
      let x := s.loopAuto l pv.val sp.1 iq0 d0 pv0 u0
      (s.setLoopRun l { r with
        iq := x.iq, d := x.d, pvPrev := pv.val, uPrev := x.u, mode := 1, fresh := false, holding := false, pv := pv.val, sp := sp.1,
        out := x.u.toNat
        status := loopBits true x.hi x.lo onBack false pv.reduced pv.range false false x.slew }).writeTarget tgt x.u

/-- One execution in MANUAL (R274): `MANUAL_OUT` within `OUT_SLEW`, from the command in force at entry; the integral as it is.
While the engine holds the target, the output is the engine's command. -/
def State.runManual (s : State) (l : Nat) : State :=
  let r := s.loopRun l
  let tgt := s.reg (Reg.TARGET l)
  let held := s.targetHeld tgt
  let uNow := s.loopCommand l
  let u := if held then (uNow, false)
    else s.slewed l (if r.fresh || r.mode != 2 then uNow else r.uPrev) (s.reg (Reg.MANUAL_OUT l))
  let s1 := s.setLoopRun l { r with
    uPrev := u.1, out := u.1.toNat, mode := 2, fresh := false
    status := loopBits false false false false false false false held false u.2 }
  if held then s1 else s1.writeTarget tgt u.1

/-- A loop in OFF at its tick: it writes nothing (R276), and no bit of `LOOP_STATUS` holds. -/
def State.runOff (s : State) (l : Nat) : State := s.setLoopRun l { s.loopRun l with mode := 0, status := 0 }

/-- Loop `l` is due in control tick `t` (R261). -/
def State.loopDue (s : State) (l t : Nat) : Bool :=
  decide (((t : Int) - l) % (s.reg (Reg.PERIOD l) : Int) = 0)

/-- The loops of a tick, in ascending number (R261); none while `LOOP_ENABLE` is 0 (R264). -/
def State.runLoops (s : State) (t : Nat) : State :=
  if s.reg Reg.LOOP_ENABLE = 0 then s
  else (List.range 64).foldl (fun u l =>
    if !u.loopDue l t then u
    else if u.reg (Reg.LOOP_MODE l) = 1 then u.runAuto l
    else if u.reg (Reg.LOOP_MODE l) = 2 then u.runManual l
    else u.runOff l) s

/-! ### Control mode and the master (R288, R405) -/

/-- The first condition of AUTONOMOUS that holds, as the code of `AUTO_REASON` (R264, R288); 0 none. NO_OWNER is the state
of DARK, before the first grant, as its row says (assumption 20). -/
def State.autoReasonNow (s : State) : Nat :=
  let src := s.reg Reg.MASTER_SOURCE
  if s.hm.owner.isNone && !s.pwr.owned then 2
  else if src ≠ 0 ∧ s.loop.seenMaster = false then 3
  else if src ≠ 0 ∧ (match s.klp.masterHb with
      | some t => decide (t + s.reg Reg.AUTO_TIMEOUT * clkSec < s.now)
      | none => true) = true then 1
  else 0

/-- AUTONOMOUS entered with its reason and its record, where STORM is not in force (R288). -/
def State.enterAutonomous (s : State) (reason : Nat) : State :=
  if s.storm || s.loop.autonomous then s
  else ({ s with loop := { s.loop with autonomous := true, autoReason := reason } }).pushLog Lt.AUTO_ENTER [reason]

/-- AUTONOMOUS entered where a condition holds. -/
def State.noteAutonomous (s : State) : State := if s.autoReasonNow ≠ 0 then s.enterAutonomous s.autoReasonNow else s

/-- At a control tick boundary at which no condition holds, AUTONOMOUS is left (R288). -/
def State.leaveAutonomous (s : State) : State :=
  if s.loop.autonomous && !s.storm && s.autoReasonNow == 0 then
    ({ s with loop := { s.loop with autonomous := false, autoReason := 0 } }).pushLog Lt.AUTO_EXIT []
  else s

/-- A ledger heartbeat of the master (R405). -/
def State.masterHeard (s : State) : State :=
  { s with klp := { s.klp with masterHb := some s.now }, loop := { s.loop with seenMaster := true } }

/-- `CONTROL_MODE` (R224, R288). -/
def State.controlMode (s : State) : Nat := if s.storm then 2 else if s.loop.autonomous then 1 else 0

/-! ### The fan-table engine (R289 to R292) -/

/-- The engine's record of a channel replaced. -/
def State.setEngine (s : State) (c : Nat) (e : Engine) : State :=
  { s with loop := { s.loop with engines := s.loop.engines.set c e } }

/-- The TAKE bit of a channel's table (R293). -/
def State.tableTake (s : State) (c : Nat) : Bool := bitAt (s.loop.tables.getD (96 * c + 3) 0) 0

/-- Whether the engine is to hold a channel (R289). -/
def State.engineWants (s : State) (c : Nat) : Bool :=
  s.storm || (s.loop.autonomous && (s.tableTake c || s.loop.defaultTable))

/-- The temperature of the source chain and the link it comes from (R290). -/
def State.engineTemp (s : State) (c : Nat) : Nat × Nat :=
  let tb := s.loop.tables
  let o := 96 * c
  let b := u16At tb o
  let r := s.berthReading b
  let red := bitAt r.2.1 1
  let adc := tb.getD (o + 2) 0
  if b ≠ 0xFFFF ∧ r.2.2 = true ∧ s.berthDef (Reg.VALUE_STAT b) ≠ 3 ∧ (red = false ∨ bitAt (tb.getD (o + 3) 0) 1 = true) then
    (r.1, 0)
  else if adc ≠ 0 ∧ s.aiGood adc = true ∧ s.aiCelsius adc = true then (s.aiKelvin64 adc, 1)
  else (s.dieTemp64 - u16At tb (o + 8), 2)

/-- The used points of a channel's curve, (temperature, mV) (R293). -/
def tablePoints (tb : List Nat) (c : Nat) : List (Nat × Nat) :=
  ((List.range 16).map fun j => (u16At tb (96 * c + 16 + 4 * j), u16At tb (96 * c + 18 + 4 * j))).filter
    fun p => p.1 != 0 || p.2 != 0

/-- f(T): linear between the used points, flat outside them (R291). -/
def curve : List (Nat × Nat) → Nat → Int
  | [], _ => 0
  | [p], _ => p.2
  | p :: q :: rest, t =>
    if t ≤ p.1 then p.2
    else if t ≤ q.1 then (p.2 : Int) + rdiv (((t : Int) - p.1) * ((q.2 : Int) - p.2)) ((q.1 : Int) - p.1)
    else curve (q :: rest) t

/-- The new target of a channel with hysteresis (R291), clamped to VIN − 1 V, bands applied (R292). -/
def State.engineTarget (s : State) (c t prev : Nat) : Nat :=
  let pts := tablePoints s.loop.tables c
  let h := u16At s.loop.tables (96 * c + 4)
  let f := (curve pts t).toNat
  let fh := (curve pts (t + h)).toNat
  let v := if s.loop.defaultTable then s.vinTop else if prev < f then f else if fh < prev then fh else prev
  bandEdge (s.bands c) prev (min v s.vinTop)

/-- One evaluation of a held channel at slot 2068 (R290 to R292): source chain, curve, slew in mV/s carried from frame to
frame; a move that must cross a band goes to its far edge at once. -/
def State.engineEval (s : State) (c : Nat) : State :=
  let e := s.engine c
  if !e.held then s
  else
    let t := s.engineTemp c
    let goal := s.engineTarget c t.1 e.cmd
    let acc := e.acc + u16At s.loop.tables (96 * c + 6) * clocksPerFrame s.rate
    let step := if s.loop.defaultTable then s.vinTop else acc / clkSec
    let m := moveTo e.cmd goal step
    let far := match (s.bands c).find? fun p => Nat.blt p.1 m && Nat.blt m p.2 with
      | some p => if e.cmd < goal then p.2 else p.1
      | none => m
    let e1 := { e with temp := t.1, source := t.2, cmd := far, acc := if far = goal then 0 else acc % clkSec }
    let s1 := s.setEngine c e1
    let s2 := if t.2 = e.source ∨ e.source = 3 then s1 else s1.incSat Reg.SOURCE_CHANGES
    s2.commandFan c far

/-- Fan tables written since the last evaluation take effect (R293). -/
def State.takeTables (s : State) : State :=
  match s.loop.tablesNext with
  | some b => { s with loop := { s.loop with tables := b, tablesNext := none, defaultTable := false } }
  | none => s

/-- The engine takes or releases each channel (R251 step 4, R289); a taken channel starts from its command in force, and a
released one keeps the engine's last command. -/
def State.engineHolds (s : State) : State :=
  (List.range 2).foldl (fun t c =>
    let want := t.engineWants c
    let e := t.engine c
    if want && !e.held then
      (t.setEngine c { e with held := true, source := 3, cmd := (t.fan c).cmd, acc := 0 }).incSat Reg.TABLE_TAKEOVERS
    else if !want && e.held then t.setEngine c { e with held := false, source := 3 }
    else t) s

end Sys2Proof.Machine
end

