-- ==== Sys2Proof/Machine/PixOps.lean ====
section
/-!
DEFINITION. The arithmetic of the correction pipeline: coefficient words and offset planes, drift and column terms, corrected
counts, replacement, radiance and temperature codes (R92 to R118).
-/
namespace Sys2Proof.Machine

/-- Columns and rows of the active array (R47). -/
def nCols : Nat := 2560
def nRows : Nat := 2048
def nPixels : Nat := 5242880
def nBlind : Nat := 40960

/-! ### Raw sample words (R53) -/

def wordSat (w : Nat) : Bool := bitAt w 15
def wordNb (w : Nat) : Bool := bitAt w 14
def wordCode (w : Nat) : Nat := field w 0 14
def satHigh (w : Nat) : Bool := wordSat w && wordCode w == 0x3FFF
def satLow (w : Nat) : Bool := wordSat w && wordCode w == 0

/-! ### Coefficients and planes (R92 to R96) -/

/-- The factory word of a pixel as decompressed at this start: BAD where its row failed in both copies (R96). -/
def PipePart.factoryWord (q : PipePart) (p : Nat) : Nat :=
  let w := smapGet (Config.factoryCoef p) p q.coefBase
  if q.badRows.contains (p / nCols) then bitOn w 40 else w

/-- A pixel's coefficient word above its OFFSET field (bits 47:16 of R92). -/
def PipePart.head (q : PipePart) (p : Nat) : Nat := smapGet (q.factoryWord p / 65536) p q.coef

/-- A pixel's coefficient word above OFFSET replaced. -/
def PipePart.setHead (q : PipePart) (p h : Nat) : PipePart :=
  { q with coef := smapSet (q.factoryWord p / 65536) p (h % 2 ^ 32) q.coef }

/-- Fields of a coefficient word above OFFSET. -/
def headGain (h : Nat) : Nat := field h 0 12
def headSlope (h : Nat) : Int := toSigned 12 (field h 12 12)
def headBad (h : Nat) : Bool := bitAt h 24
def headNoisy (h : Nat) : Bool := bitAt h 25
def headStale (h : Nat) : Bool := bitAt h 26
def headDriftOff (h : Nat) : Bool := bitAt h 27

/-- The factory offset of a pixel in a gain, 0 HIGH and 1 LOW. -/
def PipePart.factoryOff (q : PipePart) (gain p : Nat) : Nat :=
  if gain = 0 then q.factoryWord p % 65536 else Config.factoryOffLow p % 65536

/-- The offset plane that holds the factory offsets of a gain. -/
def factoryOffs (gain : Nat) : Offs := { base := if gain = 0 then .factoryHigh else .factoryLow, overs := [] }

/-- What an unlisted pixel of an offset plane holds. -/
def PipePart.offDefault (q : PipePart) (b : OffBase) (p : Nat) : Nat :=
  match b with
  | .zero => 0
  | .factoryHigh => q.factoryOff 0 p
  | .factoryLow => q.factoryOff 1 p

/-- An offset of a plane, and the plane with one offset replaced. -/
def PipePart.off (q : PipePart) (o : Offs) (p : Nat) : Nat := smapGet (q.offDefault o.base p) p o.overs
def PipePart.setOff (q : PipePart) (o : Offs) (p v : Nat) : Offs :=
  { o with overs := smapSet (q.offDefault o.base p) p (v % 65536) o.overs }

/-- The bank the lock gate selects, the lock chamber, and the chamber replaced (R93). -/
def PipePart.active (q : PipePart) : Offs := if q.bankOne then q.bank1 else q.bank0
def PipePart.chamber (q : PipePart) : Offs := if q.bankOne then q.bank0 else q.bank1
def PipePart.setChamber (q : PipePart) (o : Offs) : PipePart :=
  if q.bankOne then { q with bank0 := o } else { q with bank1 := o }
def PipePart.setActive (q : PipePart) (o : Offs) : PipePart :=
  if q.bankOne then { q with bank1 := o } else { q with bank0 := o }

/-- Blind coefficient words and blind offsets (R95). -/
def PipePart.blindWord (q : PipePart) (b : Nat) : Nat := smapGet (Config.factoryBlind b) b q.blindFactory
def PipePart.blindHead (q : PipePart) (b : Nat) : Nat := smapGet (q.blindWord b / 65536) b q.blind
def PipePart.blindDefault (q : PipePart) (o : OffBase) (b : Nat) : Nat :=
  match o with
  | .zero => 0
  | .factoryHigh => q.blindWord b % 65536
  | .factoryLow => Config.factoryBlindLow b % 65536
def PipePart.blindGet (q : PipePart) (o : Offs) (b : Nat) : Nat := smapGet (q.blindDefault o.base b) b o.overs
def PipePart.blindPut (q : PipePart) (o : Offs) (b v : Nat) : Offs :=
  { o with overs := smapSet (q.blindDefault o.base b) b (v % 65536) o.overs }

/-- The whole word of a pixel as `COEF_PLANE` reads: OFFSET is bank 0 (R93, R97). -/
def PipePart.coefWord (q : PipePart) (p : Nat) : Nat := q.head p * 65536 + q.off q.bank0 p

/-- DRAM code words that hold a pixel's coefficient, and its shadow-plane code word (before R121). -/
def coefWordsOf (p : Nat) : List Nat := [6 * p / 8, (6 * p + 5) / 8]
def shadowWordOf (p : Nat) : Nat := p / 4

/-- Pixels whose coefficient bits lie in a code word. -/
def pixelsOfCoef (c : Nat) : List Nat :=
  (List.range 3).filterMap fun k => let p := 8 * c / 6 + k
    if (coefWordsOf p).contains c then some p else none

/-- Pixels whose shadow offsets lie in a code word. -/
def pixelsOfShadow (c : Nat) : List Nat := (List.range 4).map fun k => 4 * c + k

/-- Pixels of a code word of either plane. -/
def pixelsOf (w : Bool × Nat) : List Nat := if w.1 then pixelsOfShadow w.2 else pixelsOfCoef w.2

/-! ### Drift and column terms (R101 to R103) -/

/-- The column weight u[x] (R102). -/
def colWeight (x : Nat) : Int := (rdivN ((2 * x + 1) * 65536) 5120 : Nat)

/-- (a · w + 2^15) >> 16 added to a base: one interpolation of R102. -/
def lerp16 (a b w : Int) : Int := a + ((b - a) * w + 32768) / 65536

/-- The change dt of a pixel (R102), in 1/1024 K. -/
def driftDt (dts : List Int) (y x : Nat) : Int :=
  let h : Int := 2 * (y : Int) - 255
  let k : Nat := if h ≤ 0 then 0 else if 3584 ≤ h then 6 else (h / 512).toNat
  let v : Int := if h ≤ 0 then 0 else if 3584 ≤ h then 65536 else h % 512 * 128
  let g (i : Nat) : Int := dts.getD i 0
  let top := lerp16 (g (2 * k)) (g (2 * k + 1)) (colWeight x)
  let bot := lerp16 (g (2 * k + 2)) (g (2 * k + 3)) (colWeight x)
  lerp16 top bot v

/-- The drift term of a slope (R99). -/
def driftTerm (slope dt : Int) : Int := (slope * dt + 2048) / 4096

/-- The column term of a column (R103). -/
def PipePart.colTerm (q : PipePart) (x : Nat) : Int := toSigned 16 (smapGet 0 x q.cd)

/-- K of an active pixel (R99): `drift` and `track` say whether the drift and column terms apply. -/
def corrected (r o : Nat) (h : Nat) (dt cd : Int) (drift track : Bool) : Int :=
  let c0 : Int := 4 * (r : Int) - o
  let c1 := if drift && !headDriftOff h then c0 - driftTerm (headSlope h) dt else c0
  let c2 := if track then c1 - cd else c1
  clampI (-32767) 32764 ((c2 * headGain h + 4096) / 8192)

/-- The mean of R105, R103 and R129: floor((2 sum + n) / (2 n)). -/
def meanOf (l : List Int) : Int := (2 * l.sum + l.length) / (2 * l.length)

/-! ### Radiance and temperature (R108 to R110) -/

/-- Entry i of the temperature table in force. -/
def PipePart.e (q : PipePart) (i : Nat) : Nat := smapGet (Config.tempTable i) i q.table % 65536

/-- The temperature code of a radiance, from the test of l onward (R110). -/
def PipePart.codeOf (q : PipePart) (l : Int) : Nat :=
  if l ≤ 0 then 0
  else if 16777216 ≤ l then 0xFFFF
  else
    let i := l.toNat / 4096
    let f := l.toNat % 4096
    let t := ((q.e i : Int) + (((q.e (i + 1) : Int) - q.e i) * f + 2048) / 4096).toNat
    if t = 0 then 0 else if 0xFFFC < t then 0xFFFF else t

/-- The least n in `start .. start + fuel` with the property, else the end. -/
def leastFrom (p : Nat → Bool) : Nat → Nat → Nat
  | 0, n => n
  | fuel + 1, n => if p n then n else leastFrom p fuel (n + 1)

/-- rad(c) of R178: the least integer radiance whose code is at least c. -/
def PipePart.rad (q : PipePart) (c : Nat) : Nat := leastFrom (fun l => Nat.ble c (q.codeOf l)) 16777216 0

/-- The least radiance at which the table, interpolated linearly, reaches the code of a temperature in µK, as a fraction
(R109): a code unit is 15,625 µK; clamped to 0 and to 16,777,216 RU. -/
def PipePart.radOfMicroK (q : PipePart) (t : Nat) : Nat × Nat :=
  if t ≤ q.e 0 * 15625 then (0, 1)
  else if q.e 4096 * 15625 < t then (16777216, 1)
  else
    let i := leastFrom (fun n => Nat.ble t (q.e (n + 1) * 15625)) 4095 0
    let d := (q.e (i + 1) - q.e i) * 15625
    (4096 * (i * d + (t - q.e i * 15625)), d)

/-- ff[j] (R109): 32,768 without a table. -/
def Consts.ffOf (c : Consts) (j : Nat) : Nat := if c.ff = 0 then 32768 else Config.flatField c.ff j % 65536

/-- a[j] of R109, in 1/65,536 RU per count. The spec states none where the quotient has no value or lies beyond a U32
(assumption 66). -/
def Consts.a (c : Consts) (j : Nat) : Nat :=
  let n := c.resp * (65536 + 4 * c.f * c.f) * 32768
  let d := 5 * (c.trans * c.ffOf j)
  let v := rdivN n d
  if d = 0 ∨ 2 ^ 32 ≤ v then Config.blockA n d % 2 ^ 32 else v

/-- b[j] of R109, in RU: formed without intermediate rounding; as for a[j] beyond an I32. -/
def PipePart.b (q : PipePart) (c : Consts) (j : Nat) : Int :=
  let t : Int := (c.trans * c.ffOf j : Nat)
  let r0 := q.radOfMicroK c.ref
  let rn := q.radOfMicroK c.flag
  let n0 : Int := r0.1
  let d0 : Int := r0.2
  let n1 : Int := rn.1
  let d1 : Int := rn.2
  let n := 2147483648 * n0 * d1 - (2147483648 - t) * n1 * d0
  let d := t * d0 * d1
  let v := rdiv n d
  if d = 0 ∨ v < -(2 ^ 31) ∨ 2 ^ 31 ≤ v then toSigned 32 (Config.blockB n d % 2 ^ 32) else v

/-- The block of 16 × 16 pixels a pixel lies in: 160 blocks across. -/
def blockOf (y x : Nat) : Nat := 160 * (y / 16) + x / 16

/-- The block at the optical centre (R111, R560): the one whose corner is the centre of the array (assumption 12). -/
def centreBlock : Nat := 160 * 64 + 80

/-- Stage 7: the temperature code of a corrected count in a block (R110). -/
def PipePart.codeOfCount (q : PipePart) (j : Nat) (k : Int) : Nat :=
  q.codeOf (q.b q.consts j + (k * (q.consts.a j : Int) + 32768) / 65536)

/-- Stage 7 of any value. -/
def PipePart.codeOfVal (q : PipePart) (j : Nat) : PixVal → Nat
  | .count k => q.codeOfCount j k
  | .overs => 0xFFFF
  | .under => 0
  | .invalid => 0xFFFE

/-- The value of a pixel in the output form: 0 TEMPERATURE, 1 COUNTS, 2 RAW (R115, R116, R124). -/
def Pix.outCode (x : Pix) (form : Nat) : Nat :=
  if form = 2 then wordCode x.raw
  else if x.screen then 0xFFFD
  else if form = 1 then
    match x.val with
    | .count k => (k + 32768).toNat
    | .overs => 0xFFFF
    | .under => 0
    | .invalid => 0xFFFE
  else x.code

/-! ### Fill and previous stores (R106, R117) -/

/-- The fill-store value of a pixel, plus 32,768. -/
def fillOf : PixVal → Nat
  | .count k => (k + 32768).toNat
  | .overs => 65533
  | .under => 65534
  | .invalid => 0

/-- What a fill-store value gives a lost row's pixel (R118). -/
def valOfFill (v : Nat) : PixVal :=
  if v = 0 then .invalid else if v = 65533 then .overs else if v = 65534 then .under else .count ((v : Int) - 32768)

/-- The previous-store value of a pixel: the count plus 32,768, 0 invalid (R107). -/
def prevOf : PixVal → Nat
  | .count k => (k + 32768).toNat
  | _ => 0

/-- Stage 6 of a count against the previous store (R106): n = `FILTER_SHIFT`, `thr` = `FILTER_THRESHOLD`. -/
def filtered (n thr prev : Nat) (k : Int) : Int :=
  let p : Int := (prev : Int) - 32768
  if n = 0 || prev = 0 || decide ((thr : Int) < (k - p).natAbs) then k
  else p + (k - p + 2 ^ (n - 1)) / 2 ^ n

end Sys2Proof.Machine
end

