-- ==== Sys2Proof/Machine/FocalOps.lean ====
section
/-!
DEFINITION. Shared operations of the focal plane: intake of a converted row with its spares, strikes, self-tests, band
sensors and the gradient rule, shutter travels (R53 to R87).
-/
namespace Sys2Proof.Machine

/-- The focal-plane part replaced. -/
def State.withFocal (s : State) (f : FocalPart) : State := { s with focal := f }

/-! ### Column readout and spares (R61, R73 to R80) -/

/-- The sample words of a row with NEIGHBOUR formed: a column within ±2 saturated high (R61). -/
def withNeighbour (raw : List Nat) : List Nat :=
  (List.range nCols).map fun x =>
    let w := raw.getD x 0
    let nb := (List.range 5).any fun k => Nat.ble 2 (x + k) && satHigh (raw.getD (x + k - 2) 0)
    wordCode w + 16384 * b2n nb + 32768 * b2n (wordSat w)

/-- The trim t(c) of a column (R75). -/
def FocalPart.trim (f : FocalPart) (c : Nat) : Int := toSigned 8 (smapGet 0 c f.trims)

/-- The word the pipeline receives from a spare in place of column c: the spare's code plus t(c), its SAT and NEIGHBOUR bits
as the spare saw them (R78). -/
def FocalPart.spareWord (f : FocalPart) (c spare : Nat) : Nat :=
  (clampI 0 0x3FFF ((wordCode spare : Int) + f.trim c)).toNat + 16384 * field spare 14 2

/-- What one group does with one converted row: the words of its columns, its new state, and what it reports. -/
structure GroupRow where
  g      : Group
  put    : Option (Nat × Nat)       -- column of the array and the word that replaces its own
  single : Bool                     -- a counting disagreement was followed by an agreement
  sub    : Option (Nat × Int × Int) -- substitution: column within the group, both values of d
  deriving DecidableEq, Repr

/-- The column within its group that a SHADOWING spare shadows in this frame (R76, R77). -/
def Group.shadowed (g : Group) (index : Nat) : Nat := g.sched.headD index

/-- One group, one row (R77 to R79). -/
def FocalPart.groupRow (f : FocalPart) (on : Bool) (tol index n : Nat) (g : Group) (words : List Nat) (spare : Nat) :
    GroupRow :=
  if g.st = 2 then
    { g := g, put := some (40 * n + g.col, f.spareWord (40 * n + g.col) spare), single := false, sub := none }
  else if g.st ≠ 1 || !on then { g := { g with pend := none }, put := none, single := false, sub := none }
  else
    let c := g.shadowed index
    let x := 40 * n + c
    let own := words.getD x 0
    let d : Int := (wordCode own : Int) - wordCode spare - f.trim x
    let agree := (wordSat own && wordSat spare && wordCode own == wordCode spare) || decide (d.natAbs ≤ tol)
    let counts := !agree && g.fails == 0
    if counts then
      match g.pend with
      | some d1 =>
        { g := { g with st := 2, col := c, pend := none, sched := [] }, put := some (x, f.spareWord x spare), single := false,
          sub := some (c, d1, d) }
      | none => { g := { g with pend := some d }, put := some (x, f.spareWord x spare), single := false, sub := none }
    else { g := { g with pend := none }, put := none, single := g.pend.isSome && agree, sub := none }

/-- What a converted row becomes: the words that reach the pipeline, the groups after it, and what they report. -/
structure Intake where
  words  : List Nat
  groups : List Group
  single : Nat
  subs   : List (Nat × Nat × Int × Int)  -- group, column, both values of d
  deriving DecidableEq, Repr

/-- A converted row taken in (R61, R77 to R79). -/
def FocalPart.intake (f : FocalPart) (on : Bool) (tol index : Nat) (raw spare : List Nat) : Intake :=
  let base := withNeighbour raw
  let rows := (List.range 64).map fun n =>
    f.groupRow on tol index n (f.groups.getD n default) base (spare.getD n 0)
  { words := rows.foldl (fun w r => match r.put with
      | some p => w.set p.1 p.2
      | none => w) base
    groups := rows.map GroupRow.g
    single := (rows.filter GroupRow.single).length
    subs := (List.range 64).filterMap fun n => (rows.getD n { g := default, put := none, single := false, sub := none }).sub.map
      fun p => (n, p.1, p.2.1, p.2.2) }

/-- What the columns report goes to the counters and the logbook (R79). -/
def State.reportIntake (s : State) (slot : Nat) (t : Intake) : State :=
  let s1 := (s.addSat Reg.SPARE_SINGLE_MISMATCH t.single)
  t.subs.foldl (fun u p =>
    (u.countUp Reg.SPARE_SUBSTITUTIONS).pushLog Lt.COLUMN_SPARE
      ([p.1, p.2.1] ++ leBytes 2 slot ++ leBytes 4 u.frame ++ leBytes 2 (ofSigned 16 p.2.2.1) ++
        leBytes 2 (ofSigned 16 p.2.2.2))) s1

/-- Column x has no working converter (R80). -/
def FocalPart.dead (f : FocalPart) (x : Nat) : Bool := (f.groups.getD (x / 40) default).dead.contains (x % 40)

/-- `GROUP_STATE` of group n (R74). -/
def FocalPart.groupState (f : FocalPart) (n : Nat) : Nat :=
  let g := f.groups.getD n default
  8192 * g.st + (if g.st = 2 then g.col else 0) +
    (match g.dead with
    | [] => 0
    | c :: _ => 4096 + 64 * c)

/-- What `Group.next` holds for a group that passed qualification: STATE SHADOWING and a mark of its own (R161). -/
def qualPass : Nat := 2 ^ 16 + 2 ^ 13

/-- A group takes a written state at the frame boundary (R81), or SHADOWING after qualification (R161). -/
def Group.take (g : Group) : Group :=
  match g.next with
  | none => g
  | some v =>
    if (g.st = 1 ∨ g.st = 2) ∧ v ≠ qualPass then
      { g with st := field v 13 2, col := if field v 13 2 = 2 then field v 0 6 else 0, next := none, pend := none, sched := [] }
    else if v = qualPass then { g with st := 1, next := none, pend := none, sched := [], fails := 0 }
    else { g with next := none }

/-! ### Strikes (R60 to R64) -/

/-- Tile of a pixel: 40 across, 32 down (R62). -/
def tileOf (p : Nat) : Nat := 40 * (p / nCols / 64) + p % nCols / 64

/-- The strikes of one converted active row y: consecutive saturated frames in HIGH gain, every frame in LOW gain; a struck
pixel becomes SUNSTRUCK and its tile records the frame and T64 of the strike (R62). -/
def FocalPart.strikeRow (f : FocalPart) (low : Bool) (need y frame t64 : Nat) (words : List Nat) : FocalPart :=
  (List.range nCols).foldl (fun f x =>
    let p := nCols * y + x
    let w := words.getD x 0
    if satHigh w then
      let run := if low then 0 else min 255 (smapGet 0 p f.satRun + 1)
      let struck := low || decide (need ≤ run)
      let f1 := { f with satRun := smapSet 0 p run f.satRun, satNow := f.satNow + 1 }
      if struck then
        { f1 with
          sun := smapSet 0 p 1 f1.sun
          strikes := smapSet 0 (tileOf p) (frame + 1) f1.strikes
          strikeT := smapSet 0 (tileOf p) (t64 + 1) f1.strikeT
          sunRaised := f1.sunRaised.filter fun t => !(t == tileOf p) }
      else f1
    else { f with satRun := smapErase p f.satRun, satNow := f.satNow + b2n (satLow w) }) f

/-- A pixel is SUNSTRUCK. -/
def FocalPart.sunstruck (f : FocalPart) (p : Nat) : Bool := smapGet 0 p f.sun == 1

/-! ### Self-test (R76, R80) -/

/-- Whether converter n passes at a code: within `TEST_TOLERANCE` of its qualified test code (R76). -/
def FocalPart.passes (f : FocalPart) (tol n code : Nat) : Bool :=
  decide (((code : Int) - smapGet 0x2AAA n f.testCodes).natAbs ≤ tol)

/-- One group after a self-test (R76, R80); the second component says which columns lost their converter now. -/
def FocalPart.groupTest (f : FocalPart) (tol n : Nat) (codes : List Nat) (g : Group) : Group × List Nat :=
  let bad := (List.range 40).filter fun c => !f.passes tol (40 * n + c) (codes.getD (40 * n + c) 0)
  let spareOk := f.passes tol (2560 + n) (codes.getD (2560 + n) 0)
  let fails := if spareOk then 0 else g.fails + 1
  let g1 := { g with fails := fails, sched := g.sched.tail }
  if g.st = 1 then
    if 2 ≤ fails then ({ g1 with st := 3, sched := [], pend := none }, [])
    else ({ g1 with sched := g1.sched ++ bad.filter fun c => !g1.sched.contains c }, [])
  else if g.st = 2 then
    let lost := (if 2 ≤ fails then [g.col] else []) ++ bad.filter fun c => !(c == g.col)
    let new := lost.filter fun c => !g.dead.contains c
    ({ g1 with dead := g.dead ++ new }, new)
  else (g1, [])

/-- Converters that fail a self-test. -/
def FocalPart.testFails (f : FocalPart) (tol : Nat) (codes : List Nat) : Nat :=
  ((List.range 2624).filter fun n => !f.passes tol n (codes.getD n 0)).length

/-! ### Band sensors and the gradient rule (R65 to R72) -/

/-- Sensors whose value is replaced: excluded ones, and those whose last reading failed or was out of range (R71). -/
def State.sensorOut (s : State) (n : Nat) : Bool := s.regBit Reg.SENSOR_EXCLUDED n || s.focal.sensorBad.contains n

/-- −50 °C and +110 °C in µK (R71). -/
def bandLow : Nat := 223150000
def bandHigh : Nat := 383150000

/-- A band keeps at least one sensor. -/
def State.bandKeeps (s : State) (k : Nat) : Bool := !s.sensorOut (2 * k) || !s.sensorOut (2 * k + 1)

/-- Left (0) or right (1) value of a band that keeps a sensor, of the values `v` by sensor (R71). -/
def State.bandSide (s : State) (v : Nat → Int) (k side : Nat) : Int :=
  if s.sensorOut (2 * k + side) then v (2 * k + (1 - side)) else v (2 * k + side)

/-- The value a sensor position takes: its own, its partner's, or from the nearest bands above and below that keep a sensor;
none where no band keeps one (R71). -/
def State.bandValue (s : State) (v : Nat → Int) (k side : Nat) : Option Int :=
  if s.bandKeeps k then some (s.bandSide v k side)
  else
    let up := (List.range k).reverse.find? fun j => s.bandKeeps j
    let dn := (List.range 8).find? fun j => Nat.blt k j && s.bandKeeps j
    match up, dn with
    | some a, some b => some (rdiv (s.bandSide v a side + s.bandSide v b side) 2)
    | some a, none => some (s.bandSide v a side)
    | none, some b => some (s.bandSide v b side)
    | none, none => none

/-- Readings by sensor as the ledger holds them. -/
def State.bandReading (s : State) (n : Nat) : Int := s.reg (Reg.BAND_TEMP n)

/-- Left and right differences of pair k in µK (R69). -/
def State.pairDiff (s : State) (k side : Nat) : Nat :=
  match s.bandValue s.bandReading k side, s.bandValue s.bandReading (k + 1) side with
  | some a, some b => (a - b).natAbs
  | _, _ => 0

/-- A pair touches a band with both sensors excluded (R71). -/
def State.pairBlind (s : State) (k : Nat) : Bool := !s.bandKeeps k || !s.bandKeeps (k + 1)

/-- Bit numbers of `CAL_TRIGGERS` (R140). -/
def trBringUp : Nat := 0
def trMovement : Nat := 1
def trInterval : Nat := 2
def trCommand : Nat := 3
def trGradient : Nat := 4
def trGain : Nat := 5
def trRate : Nat := 6
def trSun : Nat := 7
def trRef : Nat := 8

/-- A calibration trigger raised; raising a pending one has no further effect (R140). -/
def State.trigger (s : State) (bit : Nat) : State := { s with cal := { s.cal with triggers := bitOn s.cal.triggers bit } }

/-- The gradient rule for one pair at slot 2064 (R69, R181): entry on a difference above the limit, and the count of frames
within the clearing level. -/
def State.gradientPair (s : State) (k : Nat) : State :=
  let l := s.pairDiff k 0
  let r := s.pairDiff k 1
  let overs := decide (s.reg Reg.GRADIENT_LIMIT * 1000 < max l r) || s.pairBlind k
  let calm := decide (max l r ≤ s.reg Reg.GRADIENT_CLEAR * 1000) && !s.pairBlind k
  let run := if calm then s.focal.clearRun.getD k 0 + 1 else 0
  let s1 := s.withFocal { s.focal with clearRun := s.focal.clearRun.set k run }
  if overs && !s1.regBit Reg.GRADIENT_FLAGS k then
    let s2 := (s1.putBit Reg.GRADIENT_FLAGS k true).incSat Reg.GRADIENT_EVENTS
    let s3 := { s2 with berth := { s2.berth with markers := bitOn s2.berth.markers k } }
    (s3.pushLog Lt.GRADIENT ([k, 0] ++ leBytes 2 (min 65535 (rdivN l 1000)) ++ leBytes 2 (min 65535 (rdivN r 1000)))).trigger
      trGradient
  else s1

/-- `GRADIENT_MAX` in mK (R66). -/
def State.gradientMax (s : State) : Nat :=
  (List.range 7).foldl (fun m k => max m (max (s.pairDiff k 0) (s.pairDiff k 1))) 0

/-- A reading of sensor n is bad: its conversion failed, or it is out of range (R71). -/
def badReading (r : Option Nat) : Bool :=
  match r with
  | none => true
  | some v => decide (v < bandLow) || decide (bandHigh < v)

/-- The consecutive frames in which sensor n disagrees with its partner by more than 2 K; the count runs only while the
partner is in use (R71). -/
def State.disagreeRun (s : State) (n : Nat) : Nat :=
  let partner := if n % 2 = 0 then n + 1 else n - 1
  if s.sensorOut partner || s.sensorOut n then 0
  else if 2000000 < (s.bandReading n - s.bandReading partner).natAbs then s.focal.disagree.getD n 0 + 1
  else 0

/-! ### Shutter (R82 to R87) -/

/-- `SHUTTER_POSITION` (R82). -/
def Shutter.position (h : Shutter) : Nat := if h.fault then 3 else h.reading

/-- `SHUTTER_PRESENT` (R86). -/
def Shutter.present (h : Shutter) : Bool := h.ramio || h.ntcOk

/-- `SHUTTER_STEPS` of a travel time in ms in a rate mode: the time over the frame period, rounded up (R84). -/
def shutterSteps (rate ms : Nat) : Nat := (ms * clkMs + clocksPerFrame rate - 1) / clocksPerFrame rate

/-- A full travel started (R83, R84). -/
def State.startTravel (s : State) (close : Bool) : State :=
  s.withFocal { s.focal with shutter :=
    { s.focal.shutter with closing := some close, left := shutterSteps s.rate (s.reg Reg.SHUTTER_TRAVEL), extra := 0 } }

/-- The shutter replaced. -/
def State.setShutter (s : State) (h : Shutter) : State := s.withFocal { s.focal with shutter := h }

/-- What a travel's check at slot 2064 answers. -/
inductive Travel where
  | none        -- no travel ends here
  | opened | closed
  | closeFailed | openFailed
  deriving DecidableEq, Repr

/-- The check of a travel at slot 2064 (R87): after the last step pulse the target position ends it; up to 3 more pulses are
added; then a failed close is reversed, and a failed opening leaves the shutter in FAULT. A flag that does not read OPEN while
it is meant to be open is driven towards OPEN and counts as a failed travel. -/
def State.checkTravel (s : State) (meantOpen : Bool) : Travel × State :=
  let h := s.focal.shutter
  match h.closing with
  | some close =>
    let target := if close then 2 else 0
    if h.left ≠ 0 then (.none, s)
    else if h.reading = target then
      ((if close then .closed else .opened),
        (s.setShutter { h with closing := none, failed := false }).countTally Reg.SHUTTER_MOVES)
    else if h.extra < 3 then (.none, s.setShutter { h with left := 1, extra := h.extra + 1 })
    else
      let s1 := s.incSat Reg.SHUTTER_FAULTS
      if close then (.closeFailed, (s1.setShutter { h with failed := true }).startTravel false)
      else (.openFailed, s1.setShutter { h with closing := none, failed := true, fault := true })
  | none =>
    if meantOpen && h.reading ≠ 0 && !h.fault && h.present then
      (.none, ((s.incSat Reg.SHUTTER_FAULTS).setShutter { h with failed := true }).startTravel false)
    else (.none, s)

/-- `FPA_STATUS` (R59). -/
def State.fpaStatus (s : State) : Nat :=
  let f := s.focal
  b2n f.bias + 2 * b2n (decide (f.settling ≠ 0)) + 4 * b2n (decide (s.reg Reg.GRADIENT_FLAGS ≠ 0)) +
    8 * b2n (!f.sun.isEmpty) + 16 * b2n (s.reg Reg.GAIN_ACTIVE == 1) +
    32 * b2n (decide (s.reg Reg.GAIN_MODE ≠ s.reg Reg.GAIN_ACTIVE)) +
    64 * b2n (f.groups.any fun g => g.st == 2) + 128 * b2n (f.groups.any fun g => !g.dead.isEmpty) +
    256 * b2n (f.shutter.fault || f.shutter.failed) + 512 * b2n (decide (s.reg Reg.SENSOR_EXCLUDED ≠ 0))

end Sys2Proof.Machine
end

