-- ==== Sys2Proof/Machine/PipeOps.lean ====
section
/-!
DEFINITION. Shared operations of the correction pipeline: which rows are corrected and how, the result line, bins, the stores,
uncorrectable coefficients, screening, block constants and frame flags (R88 to R132).
-/
namespace Sys2Proof.Machine

/-- The pipeline replaced. -/
def State.withPipe (s : State) (q : PipePart) : State := { s with pipe := q }

/-! ### Settings in force -/

/-- The calibration state as correction sees it (R100): 0 UNCAL, 1 FACTORY, 2 TRACKING; in a cycle, the state before it. -/
def State.corrState (s : State) : Nat :=
  match s.cal.cycle with
  | some c => if s.cal.state = 3 then c.before else s.cal.state
  | none => s.cal.state

/-- The drift term applies (R100). -/
def State.driftOn (s : State) : Bool := s.corrState == 2 && s.reg Reg.DRIFT_ENABLE == 1

/-- The column term applies (R100). -/
def State.trackOn (s : State) : Bool := s.corrState == 2 && s.reg Reg.COLUMN_TRACK == 1

/-- An open transfer of a DOMAIN, of the given direction. -/
def State.transferOpen (s : State) (key : Nat) (write : Bool) : Bool :=
  s.klp.transfers.any fun t => t.key == key && t.write == write

/-- A host screening-mask bit (R94, R124). -/
def maskBit (m : SMap) (y x : Nat) : Bool := bitAt (smapGet 0 (320 * y + x / 8) m) (x % 8)

/-- Rectangle fields of `RECT` (R171): X0, Y0, X1, Y1. -/
def rectX0 (r : Nat) : Nat := field r 0 16
def rectY0 (r : Nat) : Nat := field r 16 16
def rectX1 (r : Nat) : Nat := field r 32 16
def rectY1 (r : Nat) : Nat := field r 48 16

/-- A pixel lies in a rectangle. -/
def inRect (r y x : Nat) : Bool := within (rectY0 r) (rectY1 r) y && within (rectX0 r) (rectX1 r) x

/-- A pixel lies in a SCREEN berth in force (R124, R167). -/
def State.berthScreens (s : State) (y x : Nat) : Bool :=
  s.berth.runs.any fun r => s.berthKind r.num == 4 && inRect (s.berthDef (Reg.RECT r.num)) y x

/-- A pixel is screened: by the mask, by a SCREEN berth, or because a mask transfer is open (R124, R125). -/
def State.screens (s : State) (y x : Nat) : Bool :=
  s.transferOpen Reg.SCREEN_MASK true || maskBit s.pipe.mask y x || s.berthScreens y x

/-- Any pixel is screened: what refuses RAW (R126). -/
def State.anyScreened (s : State) : Bool :=
  s.transferOpen Reg.SCREEN_MASK true || !s.pipe.mask.isEmpty || s.pipe.maskNext.any (fun m => !m.isEmpty) ||
    s.berth.runs.any fun r => s.berthKind r.num == 4

/-! ### Uncorrectable coefficients (R121 to R123) -/

/-- Pixels of a row whose coefficient is lost in this frame: in a code word that read uncorrectable, or being reloaded. The
shadow plane counts while its bank is active. -/
def PipePart.lostIn (q : PipePart) (ueCoef ueShadow : List Nat) : List Nat :=
  (ueCoef.flatMap pixelsOfCoef) ++ (if q.bankOne then ueShadow.flatMap pixelsOfShadow else []) ++
    q.reloads.flatMap pixelsOf

/-- What the uncorrectable reads of row y do (R121 to R123): a second consecutive one of a code word is lasting and starts
its reload; one of a reloaded word puts its pixels on the override list. -/
def PipePart.noteUe (q : PipePart) (y : Nat) (ueCoef ueShadow : List Nat) : PipePart :=
  let now := (ueCoef.map fun c => (false, c)) ++ ueShadow.map fun c => (true, c)
  let mine (w : Bool × Nat) : Bool := w.2 / (if w.1 then 640 else 1920) == y
  let again := now.filter fun w => q.fresh.contains w
  let lasting := now.filter fun w =>
    (if w.1 then q.ueShadow.contains w.2 else q.ueCoef.contains w.2) && !q.reloads.contains w && !q.fresh.contains w
  let pix := (again.flatMap pixelsOf).filter fun p => !q.override.contains p && !q.dropped.contains p
  let room := 256 - q.override.length
  { q with
    override := q.override ++ pix.take room
    dropped := q.dropped ++ pix.drop room
    fresh := q.fresh.filter fun w => !mine w
    reloads := q.reloads ++ lasting
    ueCoef := (q.ueCoef.filter fun c => !(c / 1920 == y)) ++ ueCoef
    ueShadow := (q.ueShadow.filter fun c => !(c / 640 == y)) ++ ueShadow }

/-- A reload completes (R122): the affected words take the factory's values, offsets of the active bank the factory offset
with STALE_OFFSET set, offsets of the lock chamber the factory offset. -/
def PipePart.reloadPixel (gain : Nat) (shadow : Bool) (q : PipePart) (p : Nat) : PipePart :=
  let h := q.factoryWord p / 65536
  let o := q.factoryOff gain p
  let activeHit := shadow == q.bankOne
  let q1 := if shadow then { q with bank1 := q.setOff q.bank1 p o } else { q with bank0 := q.setOff q.bank0 p o }
  let q2 := if shadow then q1 else q1.setHead p h
  if activeHit then q2.setHead p (bitOn (q2.head p) 26) else q2

/-! ### Stages 3 to 8 of one row (R89, R99 to R107) -/

/-- Classification of an active pixel with its count (R104). -/
inductive Pre where
  | replaced
  | fixed (v : PixVal)                 -- over, under or invalid
  | count (k : Int) (nb stale : Bool)
  deriving DecidableEq, Repr

/-- Stages 2 to 4 of a pixel of a row that is not lost; `lost` are the pixels whose coefficient is lost. -/
def State.preOf (s : State) (lost : List Nat) (y x w : Nat) : Pre :=
  let q := s.pipe
  let p := nCols * y + x
  let h := q.head p
  if s.corrState = 0 then .fixed .invalid
  else if q.dropped.contains p then .fixed .invalid
  else if headBad h || headNoisy h || s.focal.dead x || lost.contains p || q.override.contains p then .replaced
  else if satHigh w then .fixed .overs
  else if satLow w then .fixed .under
  else if wordNb w && s.reg Reg.NEIGHBOUR_POLICY == 1 then .fixed .invalid
  else
    .count (corrected (wordCode w) (q.off q.active p) h (driftDt q.dts y x) (q.colTerm x) s.driftOn s.trackOn)
      (wordNb w) (headStale h)

/-- A valid source for replacement: corrected, not NEIGHBOUR (R105). -/
def Pre.source : Pre → Option Int
  | .count k nb _ => if nb then none else some k
  | _ => none

/-- Stage 5: K of a replaced pixel from the row's sources and the row above; none where no source is valid (R105). -/
def replacement (src above : List (Option Int)) (x : Nat) : Option Int :=
  let at_ (l : List (Option Int)) (i : Nat) : Option Int := l.getD i none
  let left (n : Nat) : Option Int := if n ≤ x then at_ src (x - n) else none
  let near := [left 1, at_ src (x + 1), at_ above x].filterMap id
  let far := [left 2, at_ src (x + 2)].filterMap id
  if !near.isEmpty then some (meanOf near) else if !far.isEmpty then some (meanOf far) else none

/-- The corrected pixels of an active row that is not lost (stages 2 to 7), and its sources of replacement. -/
def State.correctRow (s : State) (i : RowIn) (y : Nat) (words : List Nat) : List Pix × List (Option Int) :=
  let q := s.pipe
  let lost := q.lostIn i.ueCoef i.ueShadow
  let pres := (List.range nCols).map fun x => s.preOf lost y x (words.getD x 0)
  let src := pres.map Pre.source
  let n := s.reg Reg.FILTER_SHIFT
  let thr := s.reg Reg.FILTER_THRESHOLD
  let pix := (List.range nCols).map fun x =>
    let p := nCols * y + x
    let w := words.getD x 0
    let prev := if i.uePrev.contains x then 0 else smapGet 0 p q.prev
    let vo : PixVal × Nat := match pres.getD x .replaced with
      | .replaced => (match replacement src q.above x with
        | some k => (.count (filtered n thr prev k), 1)
        | none => (.invalid, 1))
      | .fixed v => (v, if headStale (q.head p) then 3 else 0)
      | .count k _ stale => (.count (filtered n thr prev k), if stale then 3 else 0)
    let code := q.codeOfVal (blockOf y x) vo.1
    { val := vo.1, code := code, raw := w, screen := s.screens y x
      tag := vo.2 + 4 * b2n (wordNb w && decide (code ≠ 0xFFFE)) + 8 * b2n (s.focal.sunstruck p) : Pix }
  (pix, src)

/-- The pixels of a lost active row, from the fill store (R89, R118, R119). -/
def State.fillRow (s : State) (i : RowIn) (y : Nat) (words : List Nat) : List Pix :=
  let q := s.pipe
  let dead := decide (s.reg Reg.FILL_MAX_FRAMES < smapGet 0 y q.fillRuns + 1) || s.corrState == 0
  (List.range nCols).map fun x =>
    let p := nCols * y + x
    let v : PixVal := if dead || i.ueFill.contains x then .invalid else valOfFill (smapGet 0 p q.fill)
    { val := v, code := q.codeOfVal (blockOf y x) v, raw := words.getD x 0, screen := s.screens y x
      tag := 2 + 8 * b2n (s.focal.sunstruck p) }

/-! ### Bins (R129) -/

/-- A bin of 16 source pixels in the output form. -/
def PipePart.binOf (q : PipePart) (form j : Nat) (l : List Pix) : Nat :=
  if form = 2 then
    if l.any fun x => satHigh x.raw then 0x3FFF else (2 * (l.map fun x => wordCode x.raw).sum + 16) / 32
  else if l.any Pix.screen then 0xFFFD
  else if l.any fun x => decide (x.val = .overs) then 0xFFFF
  else if l.any fun x => decide (x.val = .under) then 0
  else
    let ks := l.filterMap fun x => match x.val with
      | .count k => some k
      | _ => none
    if ks.length < 8 then 0xFFFE
    else if form = 1 then (meanOf ks + 32768).toNat else q.codeOfCount j (meanOf ks)

/-- The line of bins that a row 4j + 3 completes, from the four rows of the bin. -/
def PipePart.binLine (q : PipePart) (form y : Nat) (rows : List (List Pix)) : List Nat :=
  (List.range 640).map fun i =>
    q.binOf form (blockOf (y - 3) (4 * i)) (rows.flatMap fun r => (List.range 4).map fun k => r.getD (4 * i + k) default)

/-! ### Stages 8 and 10 of one row -/

/-- Imager modes (R91). -/
def imStream : Nat := 0
def imBinned : Nat := 1
def imHold : Nat := 2
def imDark : Nat := 3

/-- The stores after a row (R106, R107, R117): the fill store only for a row that was not lost. -/
def PipePart.storeRow (q : PipePart) (lost : Bool) (i : RowIn) (y : Nat) (pix : List Pix) : PipePart :=
  let put (q : PipePart) (x : Nat) : PipePart :=
    let p := nCols * y + x
    let v := (pix.getD x default).val
    let f := if i.ueFill.contains x && lost then smapSet 0 p 0 q.fill
      else if lost then q.fill else smapSet 0 p (fillOf v) q.fill
    { q with prev := smapSet 0 p (prevOf v) q.prev, fill := f }
  let q1 := (List.range nCols).foldl put q
  { q1 with fillRuns := smapSet 0 y (if lost then min 255 (smapGet 0 y q.fillRuns + 1) else 0) q1.fillRuns }

/-- The output of a corrected row (stage 10, R98, R127): the line to send, the bin in progress, and the out store while no
`OUT_FRAME` read is open. -/
def PipePart.output (q : PipePart) (mode form : Nat) (hold : Bool) (y : Nat) (pix : List Pix) : PipePart :=
  let putLine (o : SMap) (base : Nat) (l : List Nat) : SMap :=
    (List.range l.length).foldl (fun o k => smapPut (base + k) (l.getD k 0) o) o
  if mode = imStream then
    let l := pix.map fun x => x.outCode form
    let tags := pix.map fun x => if x.screen then 0 else x.tag
    { q with lineOut := some (y, l, tags), quad := [], out := if hold then q.out else putLine q.out (nCols * y) l }
  else if mode = imBinned then
    if y % 4 = 3 then
      let l := q.binLine form y (q.quad ++ [pix])
      { q with lineOut := some (y / 4, l, []), quad := [], out := if hold then q.out else putLine q.out (640 * (y / 4)) l }
    else { q with lineOut := none, quad := (if y % 4 = 0 then [] else q.quad) ++ [pix] }
  else { q with lineOut := none, quad := [] }

/-- The counts of a row (R91, R118, R121, R124). -/
def PipePart.count (q : PipePart) (lostRow : Bool) (coefLost : Bool) (pix : List Pix) : PipePart :=
  { q with
    replaced := q.replaced + (pix.filter fun x => x.tag % 4 == 1).length
    invalid := q.invalid + (pix.filter fun x => x.code == 0xFFFE).length
    screened := q.screened + (pix.filter Pix.screen).length
    coefLost := q.coefLost || coefLost
    rowsLost := q.rowsLost || lostRow }

/-! ### Blind rows and the column terms (R90, R103) -/

/-- A blind row's contribution to the column terms: `b` is the blind row 0 to 15. -/
def State.blindRow (s : State) (i : RowIn) (b : Nat) (words : List Nat) : PipePart :=
  let q := s.pipe
  let y := if b < 8 then 0 else 2047
  (List.range nCols).foldl (fun q x =>
    let n := nCols * b + x
    let w := words.getD x 0
    let h := q.blindHead n
    if headBad h || wordSat w || i.ueBlind.contains x then q
    else
      let v := 4 * (wordCode w : Int) - q.blindGet q.blindOff n - driftTerm (headSlope h) (driftDt q.dts y x)
      { q with
        blindSum := smapSet 2147483648 x ((smapGet 2147483648 x q.blindSum : Int) + v).toNat q.blindSum
        blindN := smapSet 0 x (smapGet 0 x q.blindN + 1) q.blindN }) q

/-- The column terms updated after the bottom blind rows (R103): `sh` is `COLUMN_TRACK_SHIFT`. -/
def PipePart.updateCols (q : PipePart) (sh : Nat) : PipePart :=
  let q1 := (List.range nCols).foldl (fun (q : PipePart) x =>
    let n := smapGet 0 x q.blindN
    if n < 8 then q
    else
      let sum : Int := (smapGet 2147483648 x q.blindSum : Int) - 2147483648
      let m : Int := (2 * sum + n) / (2 * n)
      let c := q.colTerm x
      { q with cd := smapSet 0 x (ofSigned 16 (clampI (-8191) 8191 (c + (m - c + 2 ^ (sh - 1)) / 2 ^ sh))) q.cd }) q
  { q1 with blindSum := [], blindN := [] }

/-! ### Blanking work (R101, R109) -/

/-- The changes of R101 from the readings of slot 2064: substitutes for excluded sensors; all 0 where no band keeps one. -/
def State.driftChanges (s : State) : List Int :=
  (List.range 16).map fun n =>
    let v (m : Nat) : Int :=
      rdiv ((s.bandReading m - (s.reg (Reg.BAND_REF m) : Int)) * 1024) 1000000
    match s.bandValue v (n / 2) (n % 2) with
    | some d => clampI (-32767) 32767 d
    | none => 0

/-- The constants of the next frame (R109, R113): `gain` is the gain in force in that frame. -/
def State.blockConsts (s : State) (gain : Nat) : Consts :=
  let host := s.reg Reg.LENS_SOURCE ≠ 0
  { trans := if host then s.reg Reg.LENS_TRANSMISSION else 65536
    f := if host then s.reg Reg.LENS_F_NUMBER else 256
    ff := if host then s.reg Reg.LENS_FF_TABLE else 0
    resp := if gain = 0 then s.reg Reg.RESP_HIGH else s.reg Reg.RESP_LOW
    ref := s.reg Reg.FLAG_TEMP_REF
    flag := s.reg Reg.FLAG_TEMP }

/-- The constants put in force, with the entries that show the centre block's (R111). -/
def State.latchConsts (s : State) (gain : Nat) : State :=
  let c := s.blockConsts gain
  let q := { s.pipe with consts := c, table := s.pipe.tableNext }
  ((s.withPipe q).setReg Reg.BLOCK_A_CENTRE (c.a centreBlock)).setRegI Reg.BLOCK_B_CENTRE (q.b c centreBlock)

/-! ### Frame flags (R132) -/

/-- FROZEN frames: the frame in progress is one of a cycle's (R130). -/
def State.frozen (s : State) : Bool := s.cal.state == 3

/-- `FRAME_FLAGS` of the frame being closed. -/
def State.frameFlags (s : State) : Nat :=
  let st := s.corrState
  b2n (st == 1) + 2 * b2n (st == 1 || st == 0 || !s.driftOn || !s.trackOn) + 4 * b2n (s.reg Reg.LENS_SOURCE == 0) +
    8 * b2n s.tide.frameDegraded + 16 * b2n s.pipe.rowsLost + 32 * b2n s.pipe.coefLost +
    64 * b2n (s.reg Reg.GAIN_ACTIVE == 1) + 128 * b2n (s.reg Reg.IMAGER_ACTIVE == imBinned) +
    256 * b2n (s.reg Reg.FILTER_SHIFT != 0) + 512 * b2n (decide (s.pipe.screened ≠ 0)) + 1024 * b2n s.frozen +
    2048 * b2n (s.transferOpen Reg.COEF_PLANE true) + 4096 * b2n (s.transferOpen Reg.SCREEN_MASK true) +
    8192 * b2n (st == 0)

/-- Every filter state invalid (R107). -/
def State.clearFilter (s : State) : State := s.withPipe { s.pipe with prev := [] }

end Sys2Proof.Machine
end

