-- ==== Sys2Proof/Machine/BerthOps.lean ====
section
/-!
DEFINITION. Shared operations of the berth engine: accumulation, statistics, alarms and presence, edits, the published table
and the bus reports (R167 to R199, R563).
-/
namespace Sys2Proof.Machine

/-! ### Definitions -/

/-- Key of sub `sub` of berth n. -/
def berthKey (n sub : Nat) : Nat := (0x5000 + n) * 256 + sub

/-- A definition entry as last written (R170). -/
def State.berthWritten (s : State) (n sub : Nat) : Nat := s.reg (berthKey n sub)

/-- A definition entry in force. -/
def State.berthNow (s : State) (n sub : Nat) : Nat := s.berthDef (berthKey n sub)

/-- The berth engine replaced. -/
def State.withBerth (s : State) (b : BerthPart) : State := { s with berth := b }

def BerthAcc.empty : BerthAcc :=
  { incl := 0, n := 0, overs := 0, under := 0, sum := 0, lo := 0, hi := 0, pos := none, above := 0, warm := 0,
    neigh := false, sun := false, subst := 0 }

/-- The result entries before a first publication (R563): `count` says that `VALUE` is a count. -/
def BerthRec.blank (count : Bool) : BerthRec :=
  { min := 0xFFFE, max := 0xFFFE, mean := 0xFFFE, pos := 0xFFFFFFFF, above := 0, presence := 0, valid := 0, flags := 0,
    frame := 0, value := if count then 0 else 0xFFFE }

/-- A berth that has never been anything but OFF. -/
def BerthRun.new (n : Nat) : BerthRun :=
  { num := n, acc := BerthAcc.empty, cur := BerthRec.blank false, pub := BerthRec.blank false, shown := false,
    kindPub := 0, srcOk := false, thrApp := 0, hi := 0, lo := 0, clr := 0, on := 0, away := 0, alarm := 0, alarmPub := 0,
    events := [], came := [], occ := false, occPub := false, visits := 0, visitsPub := 0, bg := 0, bgPub := 0,
    edited := false, fresh := false }

/-- One berth's runtime changed. -/
def State.modBerth (s : State) (n : Nat) (f : BerthRun → BerthRun) : State :=
  s.withBerth { s.berth with runs := s.berth.runs.map fun r => if r.num == n then f r else r }

/-! ### Accumulation (R168, R176, R177, R185) -/

/-- One included pixel (R176). -/
def BerthAcc.pixel (a : BerthAcc) (thrOn : Bool) (thr bg delta : Nat) (pos : Nat) (x : Pix) : BerthAcc :=
  let c := x.code
  let data := decide (c ≠ 0xFFFE)
  let high := decide (c ≠ 0xFFFE) && decide (c ≠ 0)
  let valid := high && decide (c ≠ 0xFFFF)
  { incl := a.incl + 1
    n := a.n + b2n valid
    overs := a.overs + b2n (c == 0xFFFF)
    under := a.under + b2n (c == 0)
    sum := a.sum + if valid then c else 0
    lo := if valid && (a.n == 0 || Nat.blt c a.lo) then c else a.lo
    hi := if high && (a.pos.isNone || Nat.blt a.hi c) then c else a.hi
    pos := if high && (a.pos.isNone || Nat.blt a.hi c) then some pos
      else a.pos
    above := a.above + b2n (thrOn && high && Nat.blt thr c)
    warm := a.warm + b2n (decide (bg ≠ 0) && high && (c == 0xFFFF || Nat.blt (bg + delta) c))
    neigh := a.neigh || bitAt x.tag 2
    sun := a.sun || bitAt x.tag 3
    subst := a.subst + b2n (data && decide (x.tag % 4 ≠ 0)) }

/-- One corrected row handed to one berth. -/
def State.berthRowOf (s : State) (y : Nat) (pix : List Pix) (r : BerthRun) : BerthRun :=
  let rect := s.berthNow r.num 0x02
  if s.berthKind r.num = 0 || !within (rectY0 rect) (rectY1 rect) y then r
  else
    let useMask := s.berthNow r.num 0x03 == 1
    let thrOn := decide (s.berthNow r.num 0x06 ≠ 0)
    let delta := s.berthNow r.num 0x10
    let bg := if s.berthKind r.num = 3 then r.bg else 0
    let cols := (List.range nCols).filter fun x =>
      within (rectX0 rect) (rectX1 rect) x && !(useMask && maskBit s.berth.mask y x)
    { r with acc := cols.foldl (fun a x => a.pixel thrOn r.thrApp bg delta (65536 * y + x) (pix.getD x default)) r.acc }

/-- One corrected row handed to the engine (R88 stage 9). -/
def State.berthRow (s : State) (y : Nat) (pix : List Pix) : BerthPart :=
  { s.berth with
    runs := s.berth.runs.map (s.berthRowOf y pix)
    anyPixel := s.berth.anyPixel || pix.any fun x => decide (x.code ≠ 0xFFFE) }

/-! ### Statistics (R177 to R182) -/

/-- Apparent to object temperature (R178). -/
def State.objCode (s : State) (n c : Nat) : Nat :=
  let eps := s.berthNow n 0x04
  if eps = 32768 ∨ c = 0 ∨ c = 0xFFFE ∨ c = 0xFFFF then c
  else
    let lr := s.pipe.rad (s.berthNow n 0x05)
    s.pipe.codeOf (rdiv (32768 * (s.pipe.rad c : Int) - (32768 - (eps : Int)) * lr) eps)

/-- thr_app of a berth (R179). -/
def State.thrOf (s : State) (n : Nat) : Nat :=
  let eps := s.berthNow n 0x04
  let lr := s.pipe.rad (s.berthNow n 0x05)
  s.pipe.codeOf (rdiv ((eps : Int) * s.pipe.rad (s.berthNow n 0x06) + (32768 - (eps : Int)) * lr) 32768)

/-- A rectangle touches a band of a marked pair (R181). -/
def State.touchesGradient (s : State) (n : Nat) : Bool :=
  let rect := s.berthNow n 0x02
  let touch (k : Nat) : Bool := Nat.ble (rectY0 rect) (256 * k + 255) && Nat.ble (256 * k) (rectY1 rect)
  (List.range 7).any fun k => bitAt s.berth.markers k && (touch k || touch (k + 1))

/-- The statistic that `VALUE_STAT` selects (R182). -/
def statValue (stat min max mean above : Nat) : Nat :=
  if stat = 0 then max else if stat = 1 then mean else if stat = 2 then min else above

/-- The record of a frame just closed, without the state bits of its flags (R177 to R180), and whether it is VALID. -/
def State.closeRec (s : State) (r : BerthRun) : BerthRec × Bool :=
  let a := r.acc
  let n := r.num
  let seen := a.n + a.overs + a.under
  let valid := Nat.ble 1 a.incl && Nat.ble (s.berthNow n 0x07 * a.incl) (seen * 1000)
  let minApp := if a.under ≠ 0 then 0 else if a.n = 0 then 0xFFFE else a.lo
  let maxApp := if a.overs ≠ 0 then 0xFFFF else if a.n = 0 then 0xFFFE else a.hi
  let meanApp := if a.n = 0 then 0xFFFE else (2 * a.sum + a.n) / (2 * a.n)
  let mn := s.objCode n minApp
  let mx := s.objCode n maxApp
  let me := s.objCode n meanApp
  let ff := s.reg Reg.FRAME_FLAGS
  let gradient := s.touchesGradient n
  let timebase := bitAt ff 3
  let factory := bitAt ff 0 || bitAt ff 1 || bitAt ff 2
  let subst := decide (seen < 100 * a.subst)
  let reduced := gradient || timebase || factory || a.sun || subst
  let flags := b2n valid + 2 * b2n reduced + 4 * b2n gradient + 8 * b2n timebase + 16 * b2n factory + 32 * b2n a.sun +
    64 * b2n subst + 128 * b2n a.neigh + 256 * b2n (decide (a.overs ≠ 0)) + 512 * b2n (decide (a.under ≠ 0))
  ({ min := mn, max := mx, mean := me
     pos := match a.pos with
       | some p => p
       | none => 0xFFFFFFFF
     above := a.above, presence := if s.berthKind n = 3 then a.warm else 0, valid := seen, flags := flags, frame := s.frame
     value := statValue (s.berthNow n 0x08) mn mx me a.above }, valid)

/-! ### Persistence counts at the frame close (R183, R185, R186) -/

/-- The frame is invalid for alarms (R182). -/
def State.alarmInvalid (s : State) (n : Nat) (c : BerthRec) (ok : Bool) : Bool :=
  !ok || (s.berthNow n 0x08 != 3 && c.value == 0xFFFE)

/-- An over-range or under-range temperature statistic, which passes any limit (R182). -/
def State.pastHigh (s : State) (n : Nat) (c : BerthRec) : Bool := s.berthNow n 0x08 != 3 && c.value == 0xFFFF
def State.pastLow (s : State) (n : Nat) (c : BerthRec) : Bool := s.berthNow n 0x08 != 3 && c.value == 0

/-- One berth at slot 2064 of a corrected frame: its record, its persistence counts, its background. -/
def State.closeBerth (s : State) (r : BerthRun) : BerthRun :=
  let n := r.num
  if s.berthKind n = 0 then { r with cur := BerthRec.blank (s.berthNow n 0x08 == 3), fresh := false }
  else
    let p := s.closeRec r
    let c := p.1
    let ok := p.2
    let v := c.value
    let hiL := s.berthNow n 0x09
    let loL := s.berthNow n 0x0A
    let hy := s.berthNow n 0x0B
    let bad := s.alarmInvalid n c ok
    let isHi := decide (hiL ≠ 0) && (s.pastHigh n c || Nat.blt hiL v)
    let isLo := decide (loL ≠ 0) && (s.pastLow n c || Nat.blt v loL)
    let clear := if r.alarm = 1 then !s.pastHigh n c && Nat.ble (v + hy) hiL
      else if r.alarm = 2 then !s.pastLow n c && Nat.ble (loL + hy) v else false
    let min := s.berthNow n 0x11
    let presence := s.berthKind n == 3
    let meanApp := if r.acc.n = 0 then 0xFFFE else (2 * r.acc.sum + r.acc.n) / (2 * r.acc.n)
    let bg := if presence && ok && decide (r.acc.n ≠ 0) then
        (if r.bg = 0 then meanApp
         else if !r.occ && Nat.blt c.presence min then ((r.bg : Int) + ((meanApp : Int) - r.bg + 128) / 256).toNat
         else r.bg)
      else r.bg
    { r with
      cur := c, fresh := false
      hi := if bad then 0 else if isHi then r.hi + 1 else 0
      lo := if bad then 0 else if isLo then r.lo + 1 else 0
      clr := if bad then 0 else if clear then r.clr + 1 else 0
      on := if !presence then 0 else if !ok then r.on else if Nat.ble min c.presence then r.on + 1 else 0
      away := if !presence then 0 else if !ok then r.away else if Nat.blt c.presence min then r.away + 1 else 0
      bg := bg }

/-- Every berth at slot 2064; in a shutter cycle nothing is evaluated (R145, R183). -/
def State.closeBerths (s : State) : State :=
  if s.frozen then s
  else s.withBerth { s.berth with
    runs := s.berth.runs.map s.closeBerth
    running := s.berth.anyPixel }

/-- The alarm state a berth is due to enter, from NORMAL (R183). -/
def State.alarmDue (s : State) (r : BerthRun) : Nat :=
  let need := s.berthNow r.num 0x0C
  if r.alarm ≠ 0 then 0 else if need ≤ r.hi then 1 else if need ≤ r.lo then 2 else 0

/-- Frames of `PRESENCE_OFF` (R186). -/
def State.vacantFrames (s : State) (n : Nat) : Nat := s.berthNow n 0x13 * (if s.rate = 60 then 60 else 30)

/-! ### Edits (R172 to R175) -/

/-- Definition subs of a berth. -/
def berthSubs : List Nat := (List.range 19).map (· + 1)

/-- One berth's pending entries take effect (R173, R174, R179); `all` is set by a `BERTH_TABLE` write (R198). -/
def State.takeEdit (s : State) (all : Bool) (n : Nat) : State :=
  let changed := berthSubs.filter fun b => s.berthWritten n b != s.berthNow n b
  let oldKind := s.berthKind n
  let inForce := changed.foldl (fun m b =>
    smapSet (keyDefault (berthKey n b)) (berthKey n b) (s.berthWritten n b) m) s.berth.inForce
  let known := s.berth.runs.any fun r => r.num == n
  let after := s.berthWritten n 0x01
  let ins (rs : List BerthRun) : List BerthRun :=
    rs.takeWhile (fun r => Nat.blt r.num n) ++ [BerthRun.new n] ++ rs.dropWhile fun r => Nat.blt r.num n
  let runs := if known || after == 0 then s.berth.runs else ins s.berth.runs
  let s1 := s.withBerth { s.berth with inForce := inForce, runs := runs, pend := s.berth.pend.filter (· != n) }
  if changed.isEmpty && !all then s1
  else
    let resets := changed.any fun b => [1, 2, 3, 4, 5, 8, 9, 10, 11].contains b
    let rebg := (oldKind == 3 || after == 3) && changed.any fun b => [1, 2, 3].contains b
    let thr := s1.thrOf n
    let hiOff := s1.berthNow n 0x09 == 0
    let loOff := s1.berthNow n 0x0A == 0
    s1.modBerth n fun r =>
      let clears := r.alarm != 0 && (after == 0 || (r.alarm == 1 && hiOff) || (r.alarm == 2 && loOff))
      { r with
        edited := true
        fresh := r.fresh || s.frozen
        thrApp := thr
        hi := if resets then 0 else r.hi
        lo := if resets then 0 else r.lo
        clr := if resets then 0 else r.clr
        on := if rebg then 0 else r.on
        away := if rebg then 0 else r.away
        alarm := if clears then 0 else r.alarm
        events := if clears then r.events ++ [(0, 1)] else r.events
        bg := if rebg then 0 else r.bg
        occ := if rebg then false else r.occ
        shown := if changed.contains 1 then false else r.shown }

/-- Pending edits at a frame boundary, unless `EDIT_HOLD` is 1 (R173, R198). -/
def State.takeEdits (s : State) : State :=
  if s.reg Reg.EDIT_HOLD = 1 then s
  else if s.berth.pendAll then
    let t := (List.range 8192).foldl (State.takeEdit · true ·) s
    t.withBerth { t.berth with pendAll := false, pend := [] }
  else s.berth.pend.foldl (State.takeEdit · false ·) s

/-- Rows counted against the limit of R169 for a set of definitions. -/
def rowLoad (kindOf rectOf : Nat → Nat) (y : Nat) : Nat :=
  ((List.range 8192).filter fun n => kindOf n != 0 && within (rectY0 (rectOf n)) (rectY1 (rectOf n)) y).length

/-- `ROW_LOAD_MAX` of a set of definitions (R195). -/
def rowLoadMax (kindOf rectOf : Nat → Nat) : Nat := (List.range 2048).foldl (fun m y => max m (rowLoad kindOf rectOf y)) 0

/-- A rectangle lies inside another. -/
def rectInside (a b : Nat) : Bool :=
  Nat.ble (rectX0 b) (rectX0 a) && Nat.ble (rectX1 a) (rectX1 b) && Nat.ble (rectY0 b) (rectY0 a) &&
    Nat.ble (rectY1 a) (rectY1 b)

/-- A loop or fan-table channel names the berth (R172). -/
def State.berthNamed (s : State) (n : Nat) : Bool :=
  let names (d : Nat) : Bool := field d 29 3 == 2 && field d 16 13 == n
  ((List.range 64).any fun l => names (s.reg (Reg.PV_SOURCE l)) || names (s.reg (Reg.PV_BACKUP l))) ||
    (List.range 2).any fun c => u16At s.loop.tables (96 * c) == n ||
      s.loop.tablesNext.any fun t => u16At t (96 * c) == n

/-- The check of berth n's definition `new` against its pending definition `old` (R172), in the order of R390; `busy`: a
`BERTH_TABLE` write is open; `lvl`: the requester's level; `load`: the row limit holds. -/
def State.berthCheck (s : State) (lvl : Nat) (busy load : Bool) (n : Nat) (old new : Nat → Nat) : Option Status :=
  let rawForm := s.reg Reg.OUTPUT_FORM == 2
  let wasScreen := old 1 == 4
  let isScreen := new 1 == 4
  let uncovers := wasScreen && (!isScreen || !rectInside (old 2) (new 2))
  let grows := isScreen && (!wasScreen || !rectInside (new 2) (old 2))
  let leaves := old 1 == 2 && new 1 != 2 && s.berthNamed n
  let rect := new 2
  let rangeOk := berthSubs.all (fun b => inRange (berthKey n b) (new b)) && Nat.ble (rectX0 rect) (rectX1 rect) &&
    Nat.ble (rectY0 rect) (rectY1 rect) && Nat.ble (rectX1 rect) 2559 && Nat.ble (rectY1 rect) 2047 && load &&
    !(new 9 != 0 && new 10 != 0 && Nat.blt (new 9) (new 10 + 2 * new 11))
  if lvl = 1 && uncovers then some .access
  else if busy then some .busy
  else if (grows && rawForm) || leaves then some .state
  else if !rangeOk then some .range
  else none

/-! ### Publication (R187 to R194) -/

/-- `ENGINE_STATUS` (R196). -/
def State.engineStatus (s : State) : Nat :=
  let noPix := !s.focal.bias || s.focal.settling != 0 || s.corrState == 0 || s.reg Reg.IMAGER_ACTIVE == imDark
  b2n (s.berth.running && !noPix) + 2 * b2n s.frozen + 4 * b2n (s.reg Reg.EDIT_HOLD == 1) +
    8 * b2n (s.transferOpen Reg.BERTH_TABLE true) + 16 * b2n (s.transferOpen Reg.EXCLUSION_MASK true) + 32 * b2n noPix

/-- The flags with the state bits of the moment of publication (R180). -/
def BerthRun.stateFlags (r : BerthRun) (base : Nat) (frozen : Bool) : Nat :=
  base % 1024 + 1024 * b2n r.occ + 2048 * b2n (r.alarm == 1) + 4096 * b2n (r.alarm == 2) + 8192 * b2n frozen +
    16384 * b2n (r.edited || (frozen && r.fresh))

/-- `STAT_FRAME` of a berth edited in a shutter cycle (R188): the frame before the cycle's F0. -/
def State.frameBefore (s : State) : Nat :=
  match s.cal.cycle with
  | some c => (c.f0 + 2 ^ 32 - 1) % 2 ^ 32
  | none => s.frame

/-- One berth published (R187, R188, R199). -/
def State.publishBerth (s : State) (r : BerthRun) : BerthRun :=
  let frozen := s.frozen
  let count := s.berthNow r.num 0x08 == 3
  let held := if frozen then (if r.fresh then { BerthRec.blank count with frame := s.frameBefore } else r.pub) else r.cur
  let rec1 := { held with flags := r.stateFlags held.flags frozen }
  let kind := s.berthKind r.num
  { r with
    pub := rec1
    shown := kind != 0
    kindPub := kind
    srcOk := kind == 2 && bitAt rec1.flags 0 && Nat.ble ((s.frame + 2 ^ 32 - rec1.frame) % 2 ^ 32) 64
    alarmPub := r.alarm, occPub := r.occ, visitsPub := r.visits, bgPub := r.bg
    events := [], came := [], edited := false }

/-- The STATE byte of a record (R192). -/
def BerthRun.stateByte (r : BerthRun) : Nat := r.alarmPub + 4 * b2n r.occPub + 8 * b2n r.srcOk

/-- The record of a berth as it reads: published, or the values of R563. -/
def State.berthShown (s : State) (n : Nat) : BerthRec :=
  match s.berthRun n with
  | some r => if r.shown then r.pub else BerthRec.blank (s.berthNow n 0x08 == 3)
  | none => BerthRec.blank (s.berthNow n 0x08 == 3)

/-- The 32 bytes of R192. -/
def recordBytes (n kind stateByte : Nat) (c : BerthRec) : List Nat :=
  leBytes 2 n ++ [kind, stateByte] ++ leBytes 2 c.flags ++ leBytes 2 c.min ++ leBytes 2 c.max ++ leBytes 2 c.mean ++
    leBytes 4 c.pos ++ leBytes 4 c.above ++ leBytes 4 c.presence ++ leBytes 4 c.valid ++ leBytes 4 c.frame

/-- `STAT_RECORD` of a berth (R170). -/
def State.statRecord (s : State) (n : Nat) : List Nat :=
  match s.berthRun n with
  | some r => recordBytes n r.kindPub r.stateByte (s.berthShown n)
  | none => recordBytes n 0 0 (s.berthShown n)

/-- The published table with its CRC (R191). -/
def State.tableBytes (s : State) : List Nat :=
  let rs := s.berth.runs.filter fun r => r.kindPub != 0
  let body := leBytes 4 s.berth.tableFrame ++ leBytes 2 rs.length ++ leBytes 2 s.berth.tableStatus ++
    leBytes 8 s.berth.tableT64 ++ rs.flatMap fun r => recordBytes r.num r.kindPub r.stateByte r.pub
  body ++ leBytes 4 (crc32 body)

/-- The compact form of a report (R193). -/
def BerthRun.compact (r : BerthRun) : List Nat :=
  leBytes 2 r.num ++ leBytes 2 (min 65535 r.pub.value) ++ leBytes 2 r.pub.flags ++ [r.stateByte, r.pub.frame % 256]

/-- Whether STORM lets no report out: bus berth reports stop (R190). -/
def State.reportsStop (s : State) : Bool := s.storm

/-- The report of a berth enqueued on `REPORT_CHANNEL`, whether it was taken, and the state after (R193, R365). -/
def State.sendReport (s : State) (n : Nat) : Bool × State :=
  let c : Bus := if s.reg Reg.REPORT_CHANNEL = 0 then .one else .two
  match s.berthRun n with
  | none => (true, s)
  | some r =>
    let full := s.reg (Reg.REPORT_FORM n) == 0 && s.fdOn c
    let f : CanFrame := { id := s.ownId 0x3, fd := full, ext := false, data := if full then s.statRecord n else r.compact }
    s.enqueue c 2 { f := f, copied := false, compact := if full then some r.compact else none }

/-- A report falls due in a frame (R193). -/
def State.reportDue (s : State) (n : Nat) : Bool :=
  let p := s.berthNow n 0x0E
  p != 0 && s.frame % p == n % p

/-- The alarm event of a berth as it leaves (R184): frame to the breakwater and logbook record. -/
def State.issueAlarm (s : State) (n : Nat) (ev : Nat × Nat) : State :=
  let c := s.berthShown n
  let s1 := s.alarm { source := n, state := ev.1, cls := s.berthNow n 0x0D, reason := ev.2, value := c.value, flags := c.flags }
  s1.pushLog (if ev.1 = 0 then Lt.BERTH_CLEAR else Lt.BERTH_ALARM)
    (leBytes 2 n ++ [ev.1, ev.2] ++ leBytes 4 c.value ++ leBytes 2 c.flags ++ leBytes 2 0 ++ leBytes 4 s.frame)

/-- The presence events of a berth as they leave (R186): logbook records and one immediate report. -/
def State.issuePresence (s : State) (n : Nat) (came : Bool) : State :=
  let c := s.berthShown n
  let v := (s.berthRun n).elim 0 BerthRun.visitsPub
  s.pushLog Lt.BERTH_PRESENCE
    (leBytes 2 n ++ [b2n came, 0] ++ leBytes 4 c.presence ++ leBytes 4 v ++ leBytes 4 s.frame)

/-- Presence reports are sent outside the budget (R194); on a NORMAL channel, the berths whose report found the queue full, which
wait as deferred reports (R363). -/
def State.presenceReports (s : State) (normal : Bool) : List Nat → List Nat × State
  | [] => ([], s)
  | n :: l =>
    let r := s.sendReport n
    let p := r.2.presenceReports normal l
    (if r.1 || !normal then p.1 else n :: p.1, p.2)

/-- Reports of a publication (R193, R194): presence reports first and outside the budget, then the waiting ones, then those
that fall due, up to `REPORT_BUDGET`; the rest wait, counted in `REPORTS_DEFERRED`. -/
def State.reports (s : State) (presence : List Nat) : State :=
  if s.reportsStop then s
  else
    let c : Bus := if s.reg Reg.REPORT_CHANNEL = 0 then .one else .two
    let normal := (s.chan c).active == .normal
    let p := s.presenceReports normal presence
    let s1 := p.2
    let waiting := s.berth.deferred.filter fun n => !presence.contains n
    let due := ((s.berth.runs.map BerthRun.num).filter fun n =>
      s.berthKind n != 0 && s.reportDue n && !presence.contains n && !waiting.contains n)
    let all := waiting ++ due
    if !normal then
      let t := all.foldl (fun t n => (t.sendReport n).2) s1
      t.withBerth { t.berth with deferred := [] }
    else
      let step (acc : Nat × List Nat × State) (n : Nat) : Nat × List Nat × State :=
        let t := acc.2.2
        if acc.1 = 0 then (0, acc.2.1 ++ [n], t)
        else
          let r := t.sendReport n
          if r.1 then (acc.1 - 1, acc.2.1, r.2) else (acc.1, acc.2.1 ++ [n], r.2)
      let out := all.foldl step (s1.reg Reg.REPORT_BUDGET, p.1, s1)
      let t := out.2.2.addSat Reg.REPORTS_DEFERRED out.2.1.length
      t.withBerth { t.berth with deferred := out.2.1.mergeSort (fun a b => Nat.ble a b) }

/-- The publication of the whole table at slot 2068 (R187). -/
def State.publishTable (s : State) : State :=
  let events := s.berth.runs.flatMap fun r => r.events.map fun e => (r.num, e)
  let presence := s.berth.runs.flatMap fun r => r.came.map fun e => (r.num, e)
  let s1 := s.withBerth { s.berth with
    runs := s.berth.runs.map s.publishBerth
    tableFrame := s.frame, tableT64 := s.berth.tableNext, tableStatus := s.engineStatus }
  let s2 := events.foldl (fun t e => t.issueAlarm e.1 e.2) s1
  let s3 := presence.foldl (fun t e => t.issuePresence e.1 e.2) s2
  s3.reports ((presence.map Prod.fst).eraseDups.filter fun n => s.berthNow n 0x0E != 0)

end Sys2Proof.Machine
end

