-- ==== Sys2Proof/Machine/CalOps.lean ====
section
/-!
DEFINITION. Shared operations of the calibration manager: accumulation under the flag, evaluation, the lock gate, the frame by
frame course of a cycle, gain swaps, spare qualification (R138 to R166).
-/
namespace Sys2Proof.Machine

/-- The calibration part replaced. -/
def State.withCal (s : State) (c : CalPart) : State := { s with cal := c }

/-- Frames a reference trial adds (R144). -/
def Cycle.trialFrames (c : Cycle) : Nat := if c.trial then 4 else 0

/-- Number of the frame in progress counted from half A: 1 to 16 integrate, 17 evaluation, 18 flag pass (R143). -/
def Cycle.frameNo (c : Cycle) : Int :=
  match c.closed with
  | some af => (af : Int) - 1 - c.trialFrames
  | none => -1000

/-- Number of the trial frame in progress, 1 to 4; 0 outside a trial (R160). -/
def Cycle.trialNo (c : Cycle) : Nat :=
  match c.closed with
  | some af => if c.trial && within 2 5 af then af - 1 else 0
  | none => 0

/-- A cycle that integrates: not a test, not ending without acceptance. -/
def Cycle.live (c : Cycle) : Bool := !c.test && c.reason == 0 && c.due == 0

/-! ### Accumulation (R147, R148, R160) -/

/-- One code of integrate frame n added to a pixel's half sum and difference (R148): the sums after it. -/
def integrate (n : Nat) (sa : Nat) (d : Int) (code : Nat) : Nat × Int :=
  let sa0 := if n = 1 then 0 else sa
  let d0 := if n = 9 then 0 else d
  if n ≤ 8 then (sa0 + code, d0)
  else if d0.natAbs < 127 then (sa0, clampI (-127) 127 (d0 + code - ((sa0 + (n - 9)) / 8 : Nat)))
  else (sa0, d0)

/-- One converted active row of an integrate frame. -/
def CalPart.integrateRow (c : CalPart) (n y : Nat) (words : List Nat) : CalPart :=
  (List.range nCols).foldl (fun (c : CalPart) x =>
    let p := nCols * y + x
    let w := words.getD x 0
    let r := integrate n (smapGet 0 p c.sa) (toSigned 8 (smapGet 0 p c.d)) (wordCode w)
    let seen := (n != 1 && smapGet 0 p c.satSeen == 1) || wordSat w
    { c with
      sa := smapSet 0 p r.1 c.sa
      d := smapSet 0 p (ofSigned 8 r.2) c.d
      satSeen := smapSet 0 p (b2n seen) c.satSeen }) c

/-- One converted blind row of an integrate frame, by the same formula (R150). -/
def Cycle.integrateBlind (c : Cycle) (n b : Nat) (words : List Nat) : Cycle :=
  (List.range nCols).foldl (fun (c : Cycle) x =>
    let p := nCols * b + x
    let w := words.getD x 0
    let r := integrate n (smapGet 0 p c.blindSA) (toSigned 8 (smapGet 0 p c.blindD)) (wordCode w)
    let seen := (n != 1 && smapGet 0 p c.blindSat == 1) || wordSat w
    { c with
      blindSA := smapSet 0 p r.1 c.blindSA
      blindD := smapSet 0 p (ofSigned 8 r.2) c.blindD
      blindSat := smapSet 0 p (b2n seen) c.blindSat }) c

/-- One converted blind row of trial frame i (R160). -/
def Cycle.trialRow (c : Cycle) (i : Nat) (words : List Nat) : Cycle :=
  { c with trialSum := (List.range nCols).foldl (fun m x =>
      let k := nCols * (i - 1) + x
      smapSet 0 k (smapGet 0 k m + wordCode (words.getD x 0)) m) c.trialSum }

/-- The work of the calibration manager on a converted row: `slot` is the row's slot. -/
def State.calRow (s : State) (slot : Nat) (words : List Nat) (lost : Bool) : CalPart :=
  match s.cal.cycle with
  | none => s.cal
  | some c =>
    if !c.live || c.closed.isNone then s.cal
    else
      let n := c.frameNo
      let blind : Option Nat := if slot < 8 then some slot else if 2056 ≤ slot then some (slot - 2048) else none
      let c1 := { c with lostSeen := c.lostSeen || (lost && decide (n ≤ 16)) }
      match blind with
      | some b =>
        let c2 := if c.trialNo ≠ 0 then c1.trialRow c.trialNo words else c1
        { s.cal with cycle := some (if withinI 1 16 n then c2.integrateBlind n.toNat b words else c2) }
      | none =>
        let k := { s.cal with cycle := some c1 }
        if withinI 1 16 n then k.integrateRow n.toNat (slot - 8) words else k

/-! ### Evaluation and flag pass (R148 to R150) -/

/-- The agreement limit of the gain in force, 1/16 count. -/
def State.agreeLimit (s : State) : Nat := if s.reg Reg.GAIN_ACTIVE = 0 then s.reg Reg.CAL_AGREE_HIGH else s.reg Reg.CAL_AGREE_LOW

/-- A pixel's half-means agree (R148). -/
def State.agrees (s : State) (p : Nat) : Bool :=
  let c := s.cal
  let d := toSigned 8 (smapGet 0 p c.d)
  smapGet 0 p c.satSeen == 0 && decide (d.natAbs < 127) &&
    decide (d.natAbs * headGain (s.pipe.head p) ≤ s.agreeLimit * 1024)

/-- The new offset of half sums (R148). -/
def newOffset (sa : Nat) (d : Int) : Nat := ((2 * (sa : Int) + d + 2) / 4).toNat % 65536

/-- A pixel is operable (R149). -/
def State.operable (s : State) (p : Nat) : Bool :=
  let h := s.pipe.head p
  !headBad h && !headNoisy h && !s.pipe.override.contains p && !s.pipe.dropped.contains p && !s.focal.dead (p % nCols)

/-- The factor m of R164 as a fraction, mK per count: BLOCK_A_CENTRE, and the table's codes per segment at FLAG_TEMP_REF. -/
def State.mNum (s : State) : Nat :=
  let q := s.pipe
  let t := s.reg Reg.FLAG_TEMP_REF
  let i := leastFrom (fun n => Nat.ble t (q.e (n + 1) * 15625)) 4095 0
  1000 * s.reg Reg.BLOCK_A_CENTRE * (q.e (i + 1) - q.e i)
def mDen : Nat := 65536 * 262144

/-- A SUNSTRUCK pixel meets R63: the cycle began `SUN_HOLD` after its tile's last strike, and its offset moved by no more than
`SUN_TOLERANCE`, converted by m. -/
def State.sunMayClear (s : State) (c : Cycle) (p oldOff newOff : Nat) : Bool :=
  let strike := smapGet 0 (tileOf p) s.focal.strikeT - 1
  let dO : Nat := ((newOff : Int) - oldOff).natAbs
  decide (strike + s.reg Reg.SUN_HOLD * clkSec ≤ c.startT64) &&
    decide (dO * headGain (s.pipe.head p) * s.mNum ≤ s.reg Reg.SUN_TOLERANCE * 8192 * mDen)

/-- The evaluation pass of one active row (R148 to R150): `ue` are the columns whose plane word is uncorrectable. -/
def State.evalRow (s : State) (y : Nat) (ue : List Nat) : State :=
  match s.cal.cycle with
  | none => s
  | some c0 =>
    let step (acc : PipePart × Cycle) (x : Nat) : PipePart × Cycle :=
      let q := acc.1
      let c := acc.2
      let p := nCols * y + x
      let d := toSigned 8 (smapGet 0 p s.cal.d)
      let ok := s.agrees p && !ue.contains x
      let old := s.pipe.off s.pipe.active p
      let new := newOffset (smapGet 0 p s.cal.sa) d
      let op := s.operable p
      let dg := d.natAbs * headGain (s.pipe.head p)
      (q.setChamber (q.setOff q.chamber p (if ok then new else old)),
        { c with
          agreeing := c.agreeing + b2n (ok && op)
          operable := c.operable + b2n op
          agreeAll := c.agreeAll + b2n ok
          sqSum := c.sqSum + if ok then dg * dg else 0
          missed := if ok then c.missed else smapSet 0 p 1 c.missed
          sunClear := if s.focal.sunstruck p && s.sunMayClear c p old new then smapSet 0 p 1 c.sunClear else c.sunClear })
    let r := (List.range nCols).foldl step (s.pipe, c0)
    { s with pipe := r.1, cal := { s.cal with cycle := some r.2 } }

/-- The flag pass of one active row of an accepted cycle (R150). -/
def State.flagRow (s : State) (y : Nat) : State :=
  match s.cal.cycle with
  | none => s
  | some c0 =>
    let step (acc : PipePart × SMap × Nat) (x : Nat) : PipePart × SMap × Nat :=
      let q := acc.1
      let p := nCols * y + x
      let h := q.head p
      if smapGet 0 p c0.missed = 0 then (q.setHead p (bitOff h 26), smapErase p acc.2.1, acc.2.2)
      else
        let miss := min 3 (smapGet 0 p acc.2.1 + 1)
        let fresh := miss == 3 && !headNoisy h
        (q.setHead p (if miss = 3 then bitOn (bitOn h 26) 25 else bitOn h 26), smapSet 0 p miss acc.2.1,
          acc.2.2 + b2n fresh)
    let r := (List.range nCols).foldl step (s.pipe, s.cal.miss, c0.noisy)
    { s with pipe := r.1, cal := { s.cal with miss := r.2.1, cycle := some { c0 with noisy := r.2.2 } } }

/-- The passes of the correction slot of active row y in a cycle (R143 steps 9 and 11). -/
def State.cycleRow (s : State) (y : Nat) (ue : List Nat) : State :=
  match s.cal.cycle with
  | none => s
  | some c =>
    if !c.live then s
    else if c.frameNo = 17 then s.evalRow y ue
    else if c.frameNo = 18 && c.verdict == some true then s.flagRow y
    else s

/-- The blind offsets measured in a cycle: pixels without SAT_SEEN (R150). -/
def State.blindMeasured (s : State) (c : Cycle) : SMap :=
  (List.range nBlind).foldl (fun m p =>
    if smapGet 0 p c.blindSat = 1 then smapPut p (s.pipe.blindGet s.pipe.blindOff p) m
    else smapPut p (newOffset (smapGet 0 p c.blindSA) (toSigned 8 (smapGet 0 p c.blindD))) m) []

/-! ### The lock gate (R152, R153, R157) -/

/-- `FLAG_TEMP_REF` and `BAND_REF` of the set in force written to their entries. -/
def State.showRefs (s : State) : State :=
  (List.range 16).foldl (fun t n => t.setReg (Reg.BAND_REF n) (t.cal.inForce.bandRef.getD n 0))
    (s.setReg Reg.FLAG_TEMP_REF s.cal.inForce.flagRef)

/-- A plane of offsets being sent on VC2 starts again when its content is exchanged (R213). -/
def VideoPart.restartPlane (v : VideoPart) : VideoPart :=
  match v.plane with
  | some p => if p.code = 1 ∨ p.code = 2 then { v with plane := some { p with line := 0 } } else v
  | none => v

/-- The gate switches: the chamber becomes the active bank, every filter state is invalid (R152, R107). -/
def State.switchGate (s : State) : State :=
  { s with
    pipe := { s.pipe with bankOne := !s.pipe.bankOne, prev := [] }
    cal := { s.cal with chamber := .empty }
    video := s.video.restartPlane }

/-- OPEN begins when ACCEPTED_SINCE_START is first set (R517). -/
def State.beginOpen (s : State) : State :=
  if s.phase = .lights then
    { s with phase := .opened }.setReg Reg.OPEN_S (min 65534 ((s.rtc.ticks - s.pwr.darkTick) / 32768))
  else s

/-- What a switch to accepted or restored offsets sets (R136, R150, R157): references, frame, ticks; full resolution may
start (R128). -/
def State.acceptSwitch (s : State) (set : OffsetSet) (blind : SMap) : State :=
  let s1 := s.switchGate
  let s2 := { s1 with
    pipe := { s1.pipe with cd := [], gateOpen := true, blindOff := { base := .zero, overs := blind.filter fun p => p.2 != 0 } }
    cal := { s1.cal with
      inForce := set, newSet := none, newBlind := none, state := 2, accepted := true, lastAccept := some s.now
      calT64 := some s.now } }
  (((s2.showRefs).setReg Reg.CAL_FRAME s.frame).setReg Reg.CAL_TICKS s.rtc.ticks).beginOpen

/-- Markers of pairs that are within the limit are cleared by an accepted calibration (R70, R181). -/
def State.clearMarkers (s : State) : State :=
  let calm (k : Nat) : Bool :=
    Nat.ble (max (s.pairDiff k 0) (s.pairDiff k 1)) (s.reg Reg.GRADIENT_LIMIT * 1000) && !s.pairBlind k
  let m := (List.range 7).foldl (fun m k => if calm k then bitOff m k else m) s.berth.markers
  { s with berth := { s.berth with markers := m } }

/-- The least r ≤ 65535 with (2 r + 1)² · den > 4 · num: the root of num / den, to the nearest (R164). -/
def rootNearest (num den : Nat) : Nat := leastFrom (fun r => Nat.blt (4 * num) ((2 * r + 1) * (2 * r + 1) * den)) 65535 0

/-- `RNU` of an evaluated cycle (R164). -/
def State.rnuOf (s : State) (c : Cycle) : Nat :=
  let m := s.mNum
  let d := mDen * 32768
  if c.agreeAll = 0 then 0 else rootNearest (m * m * c.sqSum) (c.agreeAll * d * d)

/-- The factory set of a gain (R139). -/
def factorySet (gain : Nat) : OffsetSet :=
  { flagRef := Config.factoryFlagRef gain % 2 ^ 32
    bandRef := (List.range 16).map fun n => Config.factoryBandRef gain n % 2 ^ 32
    choices := [], source := 0, rate := 60 }

/-- The reference choice of a column: the set's, else the factory's. -/
def OffsetSet.choice (o : OffsetSet) (x : Nat) : Nat := smapGet (Config.factoryChoice x % 4) x o.choices

/-- A LOAD_FACTORY switch (R139). -/
def State.factorySwitch (s : State) : State :=
  let g := s.reg Reg.GAIN_ACTIVE
  let s1 := s.switchGate
  let s2 := { s1 with
    pipe := { s1.pipe with blindOff := factoryOffs g }
    cal := { s1.cal with inForce := { factorySet g with choices := s1.cal.inForce.choices }, state := 1 } }
  s2.showRefs

/-- The chamber is busy (R137): being filled, or holding a result that awaits its switch. -/
def CalPart.busy (c : CalPart) : Bool := decide (c.chamber ≠ .empty)

/-- The switches of slot 2064 that are not a cycle's (R152, R154, R157). -/
def State.gateAtClose (s : State) : State :=
  if s.cal.cycle.isSome then s
  else
    match s.cal.chamber with
    | .factory => s.factorySwitch
    | .loaded => if s.cal.openBands.isEmpty then
        let t := s.switchGate
        t.withCal { t.cal with bandsDone := [] }
      else s
    | .restored =>
      match s.cal.newSet, s.cal.restore with
      | some set, some _ =>
        let t := s.acceptSwitch set (s.cal.newBlind.getD [])
        t.withCal { t.cal with restore := none, bandsDone := [] }
      | _, _ => s
    | _ => s

/-! ### A cycle's course (R141 to R151) -/

def Cycle.new (s : State) (test trial : Bool) : Cycle :=
  { test := test, trial := trial, before := s.cal.state, latched := if test then 0 else s.cal.triggers, begun := false, f0 := 0,
    closed := none, bandSum := List.replicate 16 0, flagSum := 0, flagLo := 0, flagHi := 0,
    oldRefs := s.cal.inForce.choices, trialSum := [], blindSA := [], blindD := [], blindSat := [], agreeing := 0,
    operable := 0, sqSum := 0, agreeAll := 0, sunClear := [], blindNew := [], startT64 := s.now, verdict := none,
    reason := 0, due := 0, noisy := 0, missed := [], lostSeen := false }

/-- Time since the previous cycle ended meets the retry spacing (R142). -/
def State.spacingMet (s : State) : Bool :=
  match s.cal.lastEnd with
  | none => true
  | some t =>
    decide (t + (if s.reg Reg.CAL_REJECT_RUN < 3 then s.reg Reg.CAL_MIN_GAP else s.reg Reg.CAL_INTERVAL * 60) * clkSec ≤ s.now)

/-- A SLACK request waits on its conditions (R521). -/
def State.slackHeld (s : State) : Bool := s.reg Reg.POWER_REQUEST == 1 && s.power == .full && s.phase != .dark

/-- The next frame boundary starts a new rate epoch (R30). -/
def State.epochNext (s : State) : Bool :=
  s.reg Reg.RATE_MODE != s.rate &&
    (s.epochClocks / clocksPerFrame s.rate + 1) % (if s.rate = 60 then 125 else 63) == 0

/-- A cycle may start at this slot 2064 (R141). -/
def State.cycleMayStart (s : State) : Bool :=
  let c := s.cal
  let h := s.focal.shutter
  c.triggers != 0 && c.cycle.isNone && (s.spacingMet || bitAt c.triggers trCommand) && h.present && !h.fault &&
    h.closing.isNone && s.reg Reg.IMAGER_ACTIVE != imDark && s.focal.bias && s.focal.settling == 0 &&
    !s.transferOpen Reg.OFFSET_LOAD true && !s.transferOpen Reg.CAL_SET true && c.restore.isNone &&
    !s.transferOpen Reg.COEF_PLANE true && !c.busy && c.state != 0 &&
    s.reg Reg.GAIN_MODE == s.reg Reg.GAIN_ACTIVE && !s.epochNext && !s.slackHeld

/-- A cycle granted (R143 step 1): triggers latched and cleared, the first close pulse follows in this blanking. -/
def State.grantCycle (s : State) : State :=
  let trial := bitAt s.cal.triggers trRef
  (s.withCal { s.cal with cycle := some (Cycle.new s false trial), triggers := 0, lastStart := some s.now }).startTravel true

/-- The outcome of a cycle that will end without acceptance, settled at this slot 2064 (R151). -/
def State.rejectCycle (s : State) (reason : Nat) : State :=
  match s.cal.cycle with
  | none => s
  | some c =>
    let s1 := s.withCal { s.cal with
      cycle := some { c with reason := reason, verdict := some false }
      chamber := if s.cal.chamber = .accepted then .empty else s.cal.chamber }
    let s2 := (((s1.setReg Reg.CAL_LAST_REASON reason).incSat Reg.CAL_REJECTED).incSat Reg.CAL_REJECT_RUN)
    if c.test then s1
    else s2.pushLog Lt.CAL_REJECT ([reason, 0] ++ leBytes 2 (s2.reg Reg.FLAG_SPREAD) ++ leBytes 4 (s2.reg Reg.AGREE_FRACTION))

/-- An abort decided (R151): integration and evaluation stop; the next slot 2064 settles its outcome. -/
def State.abortCycle (s : State) (reason : Nat) : State :=
  match s.cal.cycle with
  | some c => if c.live then s.withCal { s.cal with cycle := some { c with due := reason } } else s
  | none => s

/-- An abort settled at slot 2064 (R151): the flag, where it is not OPEN, is driven towards OPEN with a full travel. -/
def State.settleAbort (s : State) : State :=
  match s.cal.cycle with
  | none => s
  | some c =>
    if c.due = 0 then s
    else
      let s1 := (s.withCal { s.cal with cycle := some { c with due := 0 } }).rejectCycle c.due
      let h := s1.focal.shutter
      if h.reading = 0 then s1.setShutter { h with closing := if h.closing = some true then none else h.closing }
      else if h.closing = some false then s1
      else s1.startTravel false

/-- The end of a cycle without acceptance (R139, R151, R160). -/
def State.endRejected (s : State) : State :=
  match s.cal.cycle with
  | none => s
  | some c =>
    let t := s.withCal { s.cal with
      cycle := none, state := c.before, lastEnd := if c.test then s.cal.lastEnd else some s.now, trialRef := none
      inForce := { s.cal.inForce with choices := c.oldRefs }
      triggers := if c.reason = 7 ∨ c.test = true then s.cal.triggers else Nat.lor s.cal.triggers c.latched }
    if c.test then t else t.raiseIrq irqCal

/-- The end of an accepted cycle: the gate switches (R143 step 12, R150). -/
def State.endAccepted (s : State) : State :=
  match s.cal.cycle, s.cal.newSet with
  | some c, some set =>
    let rnu := s.rnuOf c
    let s1 := s.withCal { s.cal with cycle := none, lastEnd := some s.now }
    let s2 := (s1.acceptSwitch set (s.cal.newBlind.getD [])).clearMarkers
    let s3 := (((s2.countUp Reg.CAL_ACCEPTED).setReg Reg.CAL_REJECT_RUN 0).setReg Reg.RNU rnu).setReg Reg.NOISY_ADDED c.noisy
    let s4 := s3.withCal { s3.cal with qualityLow := decide (s3.reg Reg.RNU_WARN < rnu) }
    (s4.pushLog Lt.CAL_DONE (leBytes 4 (s4.reg Reg.CAL_FRAME) ++ leBytes 4 (s4.reg Reg.AGREE_FRACTION) ++ leBytes 2 rnu ++
      leBytes 2 (s4.reg Reg.FLAG_SPREAD) ++ leBytes 4 c.noisy)).raiseIrq irqCal
  | _, _ => s

/-- The choices of a trial (R160): the candidate whose blind mean lies in the window and nearest `REF_TARGET`; the means are
compared as sums of 16 codes. Also the number of columns that kept their old choice. -/
def State.trialChoices (s : State) (c : Cycle) : SMap × Nat :=
  (List.range nCols).foldl (fun acc x =>
    let sum (i : Nat) : Nat := smapGet 0 (nCols * i + x) c.trialSum
    let inW (i : Nat) : Bool := Nat.ble (16 * s.reg Reg.REF_WINDOW_LOW) (sum i) && Nat.ble (sum i) (16 * s.reg Reg.REF_WINDOW_HIGH)
    let dist (i : Nat) : Nat := ((sum i : Int) - 16 * s.reg Reg.REF_TARGET).natAbs
    let best := (List.range 4).foldl (fun b i =>
      if !inW i then b
      else match b with
        | none => some i
        | some j => if dist i < dist j then some i else some j) (none : Option Nat)
    match best with
    | some i => (smapSet (Config.factoryChoice x % 4) x i acc.1, acc.2)
    | none => (acc.1, acc.2 + 1)) (s.cal.inForce.choices, 0)

/-- The decision of F27 (R146, R149, R151). -/
def State.decideCycle (s : State) : State :=
  match s.cal.cycle with
  | none => s
  | some c =>
    let spread := c.flagHi - c.flagLo
    let frac := if c.operable = 0 then 0 else c.agreeing * 1000000 / c.operable
    let s1 := ((s.setReg Reg.AGREE_FRACTION frac).setReg Reg.DISAGREE_PIXELS (c.operable - c.agreeing)).setReg Reg.FLAG_SPREAD
      (min 65535 (rdivN spread 1000))
    let flagOk := decide (spread ≤ s.reg Reg.FLAG_SPREAD_LIMIT * 1000)
    let agreeOk := decide (s.reg Reg.CAL_ACCEPT_PPM * c.operable ≤ c.agreeing * 1000000)
    if flagOk && agreeOk then
      let refs := c.bandSum.map fun v => rdivN v 16
      let set : OffsetSet :=
        { flagRef := rdivN c.flagSum 16, bandRef := refs, choices := s.cal.inForce.choices, source := 1, rate := s.rate }
      { s1 with
        focal := { s1.focal with sun := s1.focal.sun.filter fun p => smapGet 0 p.1 c.sunClear == 0 }
        cal := { s1.cal with
          cycle := some { c with verdict := some true }, newSet := some set, newBlind := some (s.blindMeasured c)
          chamber := .accepted } }
    else s1.rejectCycle (if flagOk then 1 else 2)

/-- The sampling of an integrate frame's slot 2064 (R146). -/
def Cycle.sample (c : Cycle) (bands : List Nat) (flag : Nat) (first : Bool) : Cycle :=
  { c with
    bandSum := (List.range 16).map fun n => c.bandSum.getD n 0 + bands.getD n 0
    flagSum := c.flagSum + flag
    flagLo := if first then flag else min c.flagLo flag
    flagHi := if first then flag else max c.flagHi flag }

/-- Slot 2064 of a frame of a running cycle, after the travel check `tr` (R143, R151, R160, R166). -/
def State.cycleAtClose (s : State) (tr : Travel) : State :=
  match s.cal.cycle with
  | none => s
  | some c =>
    if !c.begun then s
    else if c.test then
      match tr with
      | .closed => s.startTravel false
      | .closeFailed =>
        let h := s.focal.shutter
        (s.withCal { s.cal with cycle := some { c with reason := 3 } }).setShutter { h with fault := true }
      | .opened =>
        let t := s.endRejected
        t.setShutter { t.focal.shutter with fault := decide (c.reason ≠ 0) && t.focal.shutter.fault }
      | .openFailed => s.endRejected
      | .none => s
    else if 4 ≤ c.reason then
      if s.focal.shutter.reading = 0 || s.focal.shutter.fault then s.endRejected else s
    else if c.reason ≠ 0 then
      match tr with
      | .opened => s.endRejected
      | .openFailed => s.endRejected
      | _ => if s.focal.shutter.closing.isNone then s.endRejected else s
    else
      match c.closed with
      | none =>
        match tr with
        | .closed => s.withCal { s.cal with cycle := some { c with closed := some 0 } }
        | .closeFailed => s.rejectCycle 3
        | _ => s
      | some af =>
        let n := c.frameNo
        let bands := (List.range 16).map fun m => s.reg (Reg.BAND_TEMP m)
        let c1 := if withinI 1 16 n then c.sample bands (s.reg Reg.FLAG_TEMP) (n == 1) else c
        let c2 := { c1 with closed := some (af + 1) }
        let s1 := s.withCal { s.cal with cycle := some c2 }
        if c.trial && within 1 4 af then s1.withCal { s1.cal with trialRef := some (af - 1) }
        else if c.trial && af == 5 then
          let r := s.trialChoices c
          let s2 := s1.withCal { s1.cal with trialRef := none, inForce := { s1.cal.inForce with choices := r.1 } }
          (s2.setReg Reg.REF_KEPT r.2).putBit Reg.SMALL_RESULT 0 (decide (r.2 ≠ 0))
        else if n = 16 then s1.startTravel false
        else if n = 17 then s1.decideCycle
        else if n < 18 then s1
        else
          let done := tr == .opened || tr == .openFailed
          if !done then s1
          else if c.verdict = some true then s1.endAccepted else s1.endRejected

/-- MOVEMENT (R140): a band reading in use differs from its reference by more than `CAL_DELTA_T`. -/
def State.movement (s : State) : Bool :=
  (List.range 16).any fun n =>
    !s.regBit Reg.SENSOR_EXCLUDED n &&
      decide (s.reg Reg.CAL_DELTA_T * 1000 < (s.bandReading n - (s.reg (Reg.BAND_REF n) : Int)).natAbs)

/-- SHUTTER_UNUSABLE (R165). -/
def State.unusableNow (s : State) : Bool := !s.focal.shutter.present || s.focal.shutter.fault

/-- Entering SHUTTER_UNUSABLE writes one CAL_REJECT record with reason 3 (R165). -/
def State.noteUnusable (s : State) : State :=
  let u := s.unusableNow
  let s1 := s.withCal { s.cal with unusable := u }
  if u && !s.cal.unusable then
    s1.pushLog Lt.CAL_REJECT ([3, 0] ++ leBytes 2 (s.reg Reg.FLAG_SPREAD) ++ leBytes 4 (s.reg Reg.AGREE_FRACTION))
  else s1

/-- `CAL_STATUS` (R137). -/
def State.calStatus (s : State) : Nat :=
  let c := s.cal
  b2n (c.triggers != 0) + 2 * b2n (c.state == 3) + 4 * b2n c.accepted + 8 * b2n s.unusableNow + 16 * b2n c.busy +
    32 * b2n (c.cycle.any Cycle.trial) + 64 * b2n c.qual + 128 * b2n c.restore.isSome +
    256 * b2n (c.inForce.source != 0 && c.inForce.rate != s.rate) + 512 * b2n c.qualityLow

/-! ### Gain swap (R153) -/

/-- Offsets of the active bank and of PARKED exchanged with what goes with them (R153). -/
def State.swapGains (s : State) : State :=
  let q := s.pipe
  let c := s.cal
  let ex (acc : PipePart × SMap) (p : Nat) : PipePart × SMap :=
    let h := acc.1.head p
    (acc.1.setHead p (bitPut h 26 (smapGet 0 p acc.2 == 1)), smapSet 0 p (b2n (headStale h)) acc.2)
  let r := (List.range nPixels).foldl ex (q, c.parkStale)
  let q1 := r.1.setActive c.parked
  { s with
    pipe := { q1 with blindOff := c.parkBlind, prev := [] }
    cal := { c with
      parked := q.active, parkStale := r.2, parkBlind := q.blindOff, parkSet := c.inForce, inForce := c.parkSet
      restore := none, openBands := [], bandsDone := []
      chamber := (match c.chamber with
        | .primed => .empty
        | .filling f => if f then .filling f else .empty
        | .loaded => .empty
        | x => x)
      state := if c.state = 0 then 0 else if c.parkSet.source = 0 then 1 else 2 }
    klp := { s.klp with transfers := s.klp.transfers.filter fun t => !(t.write && (t.key == Reg.OFFSET_LOAD || t.key == Reg.CAL_SET)) }
    video := s.video.restartPlane }.showRefs

/-! ### Spare qualification (R161) -/

/-- Mean of Δ over the 16 levels, rounded: sums of 16 conversions at each of 16 levels (R161). -/
def trimOf (col spare : List Nat) : Int := rdiv ((col.sum : Int) - spare.sum) 256

/-- The largest residual |Δ(i) − t| in sixteenths of an LSB. -/
def residual16 (col spare : List Nat) : Nat :=
  (List.range 16).foldl (fun m i =>
    max m ((col.getD i 0 : Int) - spare.getD i 0 - 16 * trimOf col spare).natAbs) 0

/-- A spare's own means rise with the level, each within ±32 LSB of the ideal code (R161). -/
def spareRises (spare : List Nat) : Bool :=
  (List.range 16).all fun i =>
    decide (((spare.getD i 0 : Int) - 16 * (0x400 * i + 0x200 : Nat)).natAbs ≤ 512) &&
      (i == 0 || Nat.blt (spare.getD (i - 1) 0) (spare.getD i 0))

/-- Group n passes qualification (R161): `sums` by converter and level. -/
def State.groupQualifies (s : State) (sums : List (List Nat)) (n : Nat) : Bool :=
  let sp := sums.getD (2560 + n) []
  spareRises sp && (List.range 40).all fun c =>
    let col := sums.getD (40 * n + c) []
    decide ((trimOf col sp).natAbs ≤ s.reg Reg.SPARE_TRIM_LIMIT) &&
      decide (residual16 col sp ≤ 16 * s.reg Reg.SPARE_MISMATCH_LIMIT)

end Sys2Proof.Machine
end

