-- ==== Sys2Proof/Machine/VideoOps.lean ====
section
/-!
DEFINITION. Shared operations of the CSI-2 transmitter: the link budget, the embedded lines, and the packets of one row slot
(R200 to R219).
-/
namespace Sys2Proof.Machine

/-- The transmitter replaced. -/
def State.withVideo (s : State) (v : VideoPart) : State := { s with video := v }

/-! ### Link budget (R214, R215) -/

/-- A configuration of the stream as the budget sees it. -/
structure LinkCfg where
  mode : Nat
  form : Nat
  tags : Bool
  vc1  : Bool
  vc2  : Bool
  rate : Nat
  deriving DecidableEq, Repr

/-- B: the most long-packet bytes any slot can carry (R214). -/
def LinkCfg.bytes (c : LinkCfg) : Nat :=
  let table := if c.vc1 then 1030 else 0
  let tag := if c.tags && c.form != 2 then 1286 else 0
  let base := if c.mode = 0 then (if c.form = 2 then 4486 else 5126) + tag + table
    else if c.mode = 1 then (if c.form = 2 then 1126 else 1286) + table
    else 70 + table
  max base (if c.vc2 then 5126 else 0)

/-- The slot budget in ns (R214). -/
def slotBudget (rate : Nat) (continuous : Bool) : Nat := 20 * clocksPerRow rate - if continuous then 500 else 1000

/-- The configuration requested now. -/
def State.linkCfg (s : State) : LinkCfg :=
  { mode := s.reg Reg.IMAGER_MODE, form := s.reg Reg.OUTPUT_FORM, tags := s.reg Reg.TAG_LINES == 1
    vc1 := s.reg Reg.VC1_ENABLE == 1, vc2 := s.video.plane.isSome, rate := s.reg Reg.RATE_MODE }

/-- The time of the busiest slot in ps: 8 × ceil(B / n) bits at `LANE_RATE`, times `LANE_RATE`. -/
def State.linkBits (s : State) (c : LinkCfg) : Nat :=
  8 * ((c.bytes + s.reg Reg.LANES - 1) / s.reg Reg.LANES) * 1000

/-- A configuration is feasible on the link as set (R214). -/
def State.feasible (s : State) (c : LinkCfg) : Bool :=
  decide (s.linkBits c ≤ slotBudget c.rate (s.reg Reg.CLOCK_CONTINUOUS == 1) * s.reg Reg.LANE_RATE)

/-- A write that would leave the configuration infeasible while the stream is enabled (R215). -/
def State.linkRefuses (s : State) (c : LinkCfg) : Bool := s.reg Reg.VIDEO_ENABLE == 1 && !s.feasible c

/-- `LINK_MARGIN` of the configuration in force, ns (R203): the time of the busiest slot rounded up. -/
def State.linkMargin (s : State) : Int :=
  let r := s.reg Reg.LANE_RATE
  (slotBudget s.rate (s.reg Reg.CLOCK_CONTINUOUS == 1) : Int) - ((s.linkBits { s.linkCfg with rate := s.rate } + r - 1) / r : Nat)

/-! ### Embedded lines (R210, R211) -/

/-- The header line, from the values of slot 0 (R210). -/
def State.headerLine (s : State) : List Nat :=
  let v := s.video
  let st := b2n v.vc1Now + 2 * b2n v.tags + 4 * v.imager + 16 * v.form + 64 * b2n (s.reg Reg.GAIN_ACTIVE == 1) +
    128 * b2n (s.rate == 30) + 256 * s.cal.state + 1024 * b2n v.frozen + 2048 * b2n s.tide.degraded + 4096 * b2n s.storm
  [1, 1] ++ leBytes 4 s.frame ++ leBytes 8 s.tide.sampleT64 ++ leBytes 6 s.tide.sampleTicks ++ leBytes 2 st ++
    leBytes 4 v.source ++ leBytes 4 (s.reg Reg.CAL_FRAME) ++ leBytes 4 (s.reg Reg.EPOCH_FRAME) ++
    leBytes 8 (s.reg Reg.EPOCH_T64) ++ leBytes 4 (s.reg Reg.FLAG_TEMP) ++ List.replicate 18 0

/-- The footer line, from the values of slot 2064 (R211). -/
def State.footerLine (s : State) : List Nat :=
  let v := s.video
  [2, 1] ++ leBytes 4 v.frame ++ leBytes 2 (s.reg Reg.FRAME_FLAGS) ++ leBytes 2 s.fpaStatus ++
    leBytes 4 (s.reg Reg.REPLACED_PIXELS) ++ leBytes 4 (s.reg Reg.INVALID_PIXELS + v.lostOut) ++ leBytes 4 (s.reg Reg.SCREENED_PIXELS) ++
    leBytes 4 (s.reg Reg.SAT_PIXELS) ++ [s.reg Reg.GRADIENT_FLAGS, 0] ++ leBytes 2 v.lines ++ leBytes 2 v.missing ++
    leBytes 8 v.closeT64 ++ List.replicate 24 0

/-- The Frame Number field (R202). -/
def frameField (n : Nat) : Nat := n % 65535 + 1

/-! ### Planes (R213) -/

/-- One value of a plane's raster. -/
def State.planeValue (s : State) (code p : Nat) : Nat :=
  let q := s.pipe
  if code = 1 then q.off q.active p
  else if code = 2 then q.off s.cal.parked p
  else if code = 3 then ofSigned 16 ((smapGet 0 p q.fill : Int) - 32768)
  else if code = 4 then ofSigned 16 ((smapGet 0 p q.prev : Int) - 32768)
  else if code = 5 then headGain (q.head p)
  else ofSigned 16 (headSlope (q.head p))

/-! ### One row slot (R207, R208, R209, R212) -/

/-- The data type of an image line in a form (R201). -/
def lineType (form : Nat) : Nat := if form = 2 then 0x2D else 0x2E

/-- The link can send: it runs and its clock is locked (R218). -/
def State.linkUp (s : State) : Bool := s.video.running && !s.tide.unlocked.contains .dphy && s.tide.running

/-- VC1 packets of a slot (R212). -/
def State.vc1Packets (s : State) (slot : Nat) : List Packet :=
  if !s.video.vc1Now || 256 < slot then []
  else
    let b := s.tableBytes
    let n := (b.length + 1023) / 1024
    let f := frameField s.berth.tableFrame
    if n ≤ slot then []
    else
      let l := (b.drop (1024 * slot)).take 1024
      (if slot = 0 then [{ vc := 1, dt := 0, frame := f, words := [] }] else []) ++
        [{ vc := 1, dt := 0x30, frame := f, words := l ++ List.replicate (1024 - l.length) 0 }] ++
        if slot + 1 = n then [{ vc := 1, dt := 1, frame := f, words := [] }] else []

/-- The image line due in a slot, if the frame carries image lines: its number (R207, R208). -/
def VideoPart.lineDue (v : VideoPart) (slot : Nat) : Option Nat :=
  if v.imager = imStream then (if within 11 2058 slot then some (slot - 11) else none)
  else if v.imager = imBinned then
    (if within 14 2058 slot && (slot - 14) % 4 == 0 then some ((slot - 14) / 4) else none)
  else none

/-- The codes and tags of image line n: of the row just corrected, or of the out store in a frozen frame (R217, R209), where
columns of an uncorrectable code word are sent as 0xFFFE (R438). -/
def State.lineCodes (s : State) (ue : List Nat) (n : Nat) : Option (List Nat × List Nat) :=
  let v := s.video
  if v.frozen then
    let w := if v.imager = imBinned then 640 else 2560
    some ((List.range w).map fun x => if ue.contains x then 0xFFFE else smapGet 0 (w * n + x) s.pipe.out, List.replicate w 2)
  else
    match s.pipe.lineOut with
    | some l => if l.1 = n then some (l.2.1, l.2.2) else none
    | none => none

/-- Two 4-bit tags to a byte (R209). -/
def packTags : List Nat → List Nat
  | a :: b :: t => (a + 16 * b) :: packTags t
  | [a] => [a]
  | [] => []

/-- VC0 packets of a slot, and whether its image line could be sent. -/
def State.vc0Packets (s : State) (slot : Nat) (ue : List Nat) : List Packet :=
  let v := s.video
  let f := frameField v.frame
  let p (dt : Nat) (w : List Nat) : Packet := { vc := 0, dt := dt, frame := f, words := w }
  if slot = 10 then [p 0 [], p 0x12 v.header]
  else if slot = 2065 then [p 0x12 s.footerLine, p 1 []]
  else
    match (v.lineDue slot).bind (s.lineCodes ue) with
    | some l => [p (lineType v.form) l.1] ++ if v.tags then [p 0x31 (packTags l.2)] else []
    | none => []

/-- The VC2 packets of a slot that carries no long packet, with the plane after it: completed planes answer none (R213). A line
that holds an uncorrectable code word is not sent (R438). -/
def State.vc2Packets (s : State) (skip : Bool) : List Packet × Option Plane :=
  match s.video.plane with
  | none => ([], none)
  | some pl =>
    let f := frameField (s.reg Reg.VC2_PLANES)
    let p (dt : Nat) (w : List Nat) : Packet := { vc := 2, dt := dt, frame := f, words := w }
    let l := p 0x2E ((List.range nCols).map fun x => s.planeValue pl.code (nCols * pl.line + x))
    ((if pl.line = 0 then [p 0 []] else []) ++ (if skip then [] else [l]) ++ (if pl.line = 2047 then [p 1 []] else []),
      if pl.line = 2047 then none else some { pl with line := pl.line + 1 })

/-- A long packet. -/
def Packet.long (p : Packet) : Bool := Nat.blt 1 p.dt

/-- One row slot of the transmitter. -/
def State.videoRow (s : State) (slot : Nat) (ue : List Nat) (skip : Bool) : State :=
  let v := s.video
  if !v.running then s.withVideo { v with packets := [], periodic := false }
  else if !s.linkUp then
    s.withVideo { v with
      packets := [], periodic := false
      missing := (match v.lineDue slot with
        | some n => min v.missing n
        | none => v.missing)
      plane := v.plane.map fun p => { p with line := 0 } }
  else
    let skew := v.deskew && Nat.blt slot 10
    let per := slot == 2064 && s.reg Reg.DESKEW_PERIOD != 0 && Nat.blt 1500 (s.reg Reg.LANE_RATE) &&
      Nat.ble (s.reg Reg.DESKEW_PERIOD) v.deskewAge
    let main := s.vc1Packets slot ++ s.vc0Packets slot ue
    let free := !(main.any Packet.long) && !skew && !per
    let two := if free then s.vc2Packets skip else ([], v.plane)
    let line := (v.lineDue slot).isSome
    let sent := line && ((v.lineDue slot).bind (s.lineCodes ue)).isSome
    let fin := slot == 2065
    let gap := fin && v.missing != 0xFFFF
    let v1 := { v with
      packets := main ++ two.1
      plane := two.2
      lines := v.lines + b2n sent
      lostOut := v.lostOut + (if sent && v.frozen then ue.length else 0)
      missing := (match v.lineDue slot with
        | some n => if sent then v.missing else min v.missing n
        | none => v.missing)
      periodic := per
      deskewAge := if per then 0 else v.deskewAge
      deskew := v.deskew && Nat.blt slot 9
      lastGap := if fin then gap else v.lastGap
      lastFrozen := if fin then v.frozen else v.lastFrozen
      running := v.running && !(fin && v.stopDue)
      stopDue := v.stopDue && !fin }
    let s1 := s.withVideo (if fin && v.stopDue then { v1 with plane := none, vc1Go := false } else v1)
    let s2 := if v.plane.isSome && two.2.isNone then s1.countUp Reg.VC2_PLANES else s1
    if fin then
      let s3 := s2.countUp Reg.FRAMES_SENT
      let s4 := if v.frozen then s3.incSat Reg.FROZEN_FRAMES else s3
      if gap then s4.incSat Reg.LINE_GAP_FRAMES else s4
    else s2

/-- Slot 0 of a frame for the transmitter (R206, R210, R217): a pending start, and what this frame carries. -/
def State.videoFrame (s : State) : State :=
  let v := s.video
  let starts := v.startDue
  let running := v.running || starts
  let frozen := s.frozen
  let v1 := { v with
    running := running, startDue := false
    deskew := starts && Nat.blt 1500 (s.reg Reg.LANE_RATE)
    deskewAge := if starts then 0 else v.deskewAge + 1
    vc1Go := v.vc1Go && !starts
    vc1Now := running && v.vc1Go && !starts && s.reg Reg.VC1_ENABLE == 1
    frame := s.frame
    frozen := frozen
    source := if frozen then s.pipe.outFrame else s.frame
    form := if frozen then s.pipe.outForm else s.reg Reg.OUTPUT_FORM
    imager := if frozen && s.reg Reg.IMAGER_ACTIVE ≤ 1 then (if s.pipe.outBinned then imBinned else imStream)
      else s.reg Reg.IMAGER_ACTIVE
    tags := s.reg Reg.TAG_LINES == 1 && (if frozen then !s.pipe.outBinned && s.pipe.outForm != 2
      else s.reg Reg.IMAGER_ACTIVE == imStream && s.reg Reg.OUTPUT_FORM != 2)
    lines := 0, lostOut := 0, missing := 0xFFFF }
  let s1 := s.withVideo v1
  s1.withVideo { v1 with header := s1.headerLine }

/-- `VIDEO_STATUS` (R204). -/
def State.videoStatus (s : State) : Nat :=
  let v := s.video
  b2n v.running + 2 * b2n (v.deskew || v.periodic) + 4 * b2n v.vc1Now + 8 * b2n v.plane.isSome + 16 * b2n v.lastFrozen +
    32 * b2n v.lastGap + 64 * b2n v.ulps

end Sys2Proof.Machine
end

