-- ==== Sys2Proof/Machine/RowOps.lean ====
section
/-!
DEFINITION. What one row slot does (R17 to R19, R45, R46, R88, R296, R297, R303): the grant of edges, the drivers' periods, the
mains phase, and the imaging path.
-/
namespace Sys2Proof.Machine

/-! ### Edge grants (R18, R19) -/

/-- The position an edge gets among the free ones: the nearest at or after its request, else the nearest before it, except
for a triac gate edge (R18). -/
def grantPos (n : Nat) (used : List Nat) (e : Edge) : Option Nat :=
  match (List.range n).find? fun p => Nat.ble e.pos p && !used.contains p with
  | some p => some p
  | none => if e.src = 5 then none else (List.range n).reverse.find? fun p => Nat.blt p e.pos && !used.contains p

/-- One edge granted or deferred: positions used, grants, deferred edges. -/
def grantStep (n : Nat) (acc : List Nat × List Edge × List Edge) (e : Edge) : List Nat × List Edge × List Edge :=
  match grantPos n acc.1 e with
  | some p => (p :: acc.1, acc.2.1 ++ [{ e with pos := p }], acc.2.2)
  | none => (acc.1, acc.2.1, acc.2.2 ++ [{ e with pos := 0 }])

/-- The grants of one window: in priority order, deferred edges before the new ones of their own priority (R18, R19). -/
def grantWindow (n : Nat) (deferred new : List Edge) : List Edge × List Edge :=
  let order := (List.range 9).flatMap fun k =>
    (deferred.filter fun e => e.src == k + 1) ++ new.filter fun e => e.src == k + 1
  let r := order.foldl (grantStep n) ([], [], [])
  (r.2.1, r.2.2)

/-- T64 of a position of the window at the end of the row that is elapsing. -/
def State.edgeTime (s : State) (p : Nat) : Nat :=
  s.now + clocksPerRow s.rate - (if s.rate = 60 then 40 else 80) + 4 * p

/-! ### Dampers and valves (R296, R297) -/

/-- Rows since the epoch. -/
def State.epochRow (s : State) : Nat := s.epochClocks / clocksPerRow s.rate

/-- The plan of a reachable on-time: whole rows, turn-on position, turn-off position (R297). -/
def onPlan (rate : Nat) (r : Int) : Nat × Nat × Nat :=
  let c : Int := (clocksPerRow rate : Nat)
  let k := (r + c / 2) / c
  let d := (r - k * c) / 4
  (k.toNat, (if d < 0 then (-d).toNat else 0), if d < 0 then 0 else d.toNat)

/-- The edges output i asks for in this window, and the output after it. -/
def State.pwmAsk (s : State) (i : Nat) : List Edge × State :=
  let src := if isDamper i then 6 else 7
  let edge (p : Nat) (on : Bool) : Edge := { src := src, pos := p, who := i + 1, on := on }
  let o := s.out i
  let due (r : Option PwmRun) : Bool := r.any fun x => x.offRow == 1
  let offs := (if due o.pwm then (o.pwm.map fun r => edge r.offPos false).toList else [])
  let step (r : PwmRun) : PwmRun := { r with offRow := r.offRow - 1 }
  let s1 := s.setOut i { o with pwm := o.pwm.map step }
  if s.epochRow % 32 ≠ periodRow i then (offs, s1)
  else
    let o1 := s1.out i
    let s2 := match o1.next with
      | some l => (s1.setOut i { o1 with next := none }).applyLevel i l
      | none => s1
    let w := s2.wantOn i
    let o2 := s2.out i
    let p := periodClocks s2.rate
    let r := nearestReach s2.rate ((w.1 : Int) + o2.acc)
    let plan := onPlan s2.rate r
    let tail := o2.pwm
    if r = 0 ∨ r = p then
      (offs, s2.setOut i { o2 with tail := tail, pwm := none, acc := o2.acc + w.1 - r, limited := w.2 })
    else
      let run : PwmRun := { want := w.1, onAt := none, offRow := plan.1, offPos := plan.2.2 }
      (offs ++ [edge plan.2.1 true] ++ (if plan.1 = 0 then [edge plan.2.2 false] else []),
        s2.setOut i { o2 with tail := tail, pwm := some run, limited := w.2 })

/-- A granted edge of a damper or valve: the turn-off closes its period's account (R296). -/
def State.pwmGrant (s : State) (e : Edge) : State :=
  let i := e.who - 1
  let o := s.out i
  let t := s.edgeTime e.pos
  let account (r : PwmRun) : Int := o.acc + r.want - ((t : Int) - r.onAt.getD t)
  if e.on then s.setOut i { o with pwm := o.pwm.map fun r => { r with onAt := some t } }
  else
    match o.tail with
    | some r => if r.offRow = 0 then s.setOut i { o with acc := account r, tail := none }
      else s
    | none =>
      match o.pwm with
      | some r => s.setOut i { o with acc := account r, pwm := none }
      | none => s

/-! ### FLOATING dampers (R303) -/

/-- One row of a FLOATING pair's position estimate (R303). -/
def State.floatRow (s : State) (i : Nat) : State :=
  if !s.floating i then s
  else
    let o := s.out i
    let d := s.floatDrive i
    let full := s.reg (Reg.DMP_RUNTIME i) * clkSec
    let cpr := clocksPerRow s.rate
    if !d.1 && !d.2 then s
    else
      let acc := o.posAcc + 4095 * cpr
      let moved := acc / full
      let pos := if d.1 then o.pos - moved else min 4095 (o.pos + moved)
      let stroke := o.stroke - cpr
      let struck := o.stroke ≠ 0 && stroke == 0
      let arrived := o.stroke == 0 && (o.level == 0 && pos == 0 || o.level == 4095 && pos == 4095)
      s.setOut i { o with
        posAcc := acc % full
        pos := if struck then 0 else pos
        stroke := stroke
        unknown := o.unknown && !struck
        overs := o.overs || (arrived && !o.overDone) }

/-! ### Triac gates (R305 to R307, R46) -/

/-- The position in this window of a requested time; none while it lies beyond the window. -/
def State.windowPos (s : State) (t : Nat) : Option Nat :=
  let start := s.edgeTime 0
  let p := (t + 3 - start) / 4
  let q := if t ≤ start then 0 else p
  if q < windowPositions s.rate then some q else none

/-- The edges a triac gate asks for in this window. -/
def State.triacAsk (s : State) (i : Nat) : List Edge :=
  let o := s.out i
  let already := s.tide.deferred.any fun e => e.who == i + 1
  if already then []
  else
    match o.gateOff, o.fireAt with
    | some t, _ => ((s.windowPos t).map fun p => { src := 5, pos := p, who := i + 1, on := false : Edge }).toList
    | none, some t => ((s.windowPos t).map fun p => { src := 5, pos := p, who := i + 1, on := true : Edge }).toList
    | none, none => []

/-- A granted gate edge: the pulse starts, or ends `TRG_PULSE` later. -/
def State.triacGrant (s : State) (e : Edge) : State :=
  let i := e.who - 1
  let o := s.out i
  if e.on then
    s.setOut i { o with gate := true, fireAt := none, gateOff := some (s.edgeTime e.pos + s.reg (Reg.TRG_PULSE (i - 8)) * clkUs) }
  else s.setOut i { o with gate := false, gateOff := none }

/-! ### The mains phase (R45) -/

/-- The mains phase unit over one row: at the end of a half-cycle the next one begins, its start slewed by at most 50 µs and
the half-period moved along a frequency slew; then the triac gates take their pulses. -/
def State.mainsRow (s : State) : State :=
  let m := s.mains
  let half := s.reg Reg.HALF_PERIOD
  if s.reg Reg.MAINS_STATE = msOff || s.now + clocksPerRow s.rate < m.phaseRef + half then s
  else
    let corr := clampI (-2500) 2500 m.phaseErr
    let cross := ((m.phaseRef + half : Nat) + corr).toNat
    let half1 := if m.slewLeft = 0 then half
      else ((half : Int) + ((m.slewTarget : Int) - half) / m.slewLeft).toNat
    let s1 := { s with mains := { m with
      phaseRef := cross, phaseErr := m.phaseErr - corr, slewLeft := m.slewLeft - 1, positive := !m.positive } }
    let s2 := (s1.setReg Reg.HALF_PERIOD half1).setReg Reg.MAINS_POLARITY (b2n (!m.positive))
    [8, 9, 10, 11].foldl (fun t i => t.triacHalf i cross half1) s2

/-- `MAINS_PHASE` (R42): 1/65,536 of the half-cycle since its start. -/
def State.mainsPhase (s : State) : Nat :=
  let half := s.reg Reg.HALF_PERIOD
  if s.reg Reg.MAINS_STATE = msOff || half = 0 then 0 else min 65535 ((s.now - s.mains.phaseRef) * 65536 / half)

/-! ### The drivers over one row -/

/-- Every granted edge applied to its output; edges of other sources stand in the record only. -/
def State.applyGrant (s : State) (e : Edge) : State :=
  if e.who = 0 then s
  else if isTriac (e.who - 1) then s.triacGrant e
  else s.pwmGrant e

/-- One analogue output: its command takes effect at clock 360 of the row (R298, R308). -/
def State.analogueRow (s : State) (i : Nat) : State :=
  let o := s.out i
  match o.next with
  | some l => (s.setOut i { o with next := none }).applyLevel i l
  | none => s

/-- The switching window at the end of the row (R18, R19). While no edge is booked after a master-clock loss (R35), every
driver holds its state. -/
def State.windowRow (s : State) (asked : List Edge) : State :=
  if s.tide.edgesHeld then s
  else
    let a := (List.range 8).foldl (fun (acc : List Edge × State) i =>
      let r := acc.2.pwmAsk i
      (acc.1 ++ r.1, r.2)) ([], s)
    let t := a.2
    let gates := [8, 9, 10, 11].flatMap t.triacAsk
    let g := grantWindow (windowPositions t.rate) t.tide.deferred (asked ++ a.1 ++ gates)
    let t1 := g.1.foldl State.applyGrant t
    let t2 := t1.addSat Reg.WINDOW_DEFERRALS g.2.length
    { t2 with tide := { t2.tide with granted := g.1, deferred := g.2 } }

/-- The power die over one row. -/
def State.driverRow (s : State) (asked : List Edge) : State :=
  let s1 := [12, 13, 14, 15].foldl State.analogueRow s
  let s2 := (s1.mainsRow).windowRow asked
  let s3 := [0, 2].foldl State.floatRow s2
  [0, 1].foldl State.fanRow s3

/-! ### The imaging path over one row (R17, R88) -/

/-- The slot's row between conversion and correction is active row y. -/
def activeOf (slot : Nat) : Option Nat := if within 8 2055 slot then some (slot - 8) else none

/-- The correction of the line whose conversion took place in the previous slot (R88, R89, R130). -/
def State.correctSlot (s : State) (i : RowIn) : State :=
  match s.pipe.line with
  | none => s
  | some l =>
    if l.slot + 2 ≠ s.row then s
    else
      match activeOf l.slot with
      | none =>
        let b := if l.slot < 8 then l.slot else l.slot - 2048
        if s.pipe.on && !l.lost && !l.settling && s.corrState != 0 then s.withPipe (s.blindRow i b l.words) else s
      | some y =>
        if !s.pipe.on then s.cycleRow y i.ueSum
        else
          let lost := l.lost || l.settling || i.late
          let q0 := if lost then s.pipe else s.pipe.noteUe y i.ueCoef i.ueShadow
          let sq := s.withPipe q0
          let r := if lost then (sq.fillRow i y l.words, []) else sq.correctRow i y l.words
          let lostPix := if lost then [] else q0.lostIn i.ueCoef i.ueShadow
          let mine := lostPix.filter fun p => p / nCols == y
          let hold := s.transferOpen Reg.OUT_FRAME false
          let q1 := ((q0.storeRow lost i y r.1).output (s.reg Reg.IMAGER_ACTIVE) s.video.form hold y r.1).count lost
            (!mine.isEmpty) r.1
          let s1 := { s with pipe := { q1 with above := r.2 }, berth := s.berthRow y r.1 }
          let s2 := if lost then s1.incSat Reg.LOST_ROWS else s1
          s2.addSat Reg.COEF_LOST mine.length

/-- The conversion of the row that integrated in the slot before (R17, R54, R77). -/
def State.convertSlot (s : State) (i : RowIn) : State :=
  let slot := s.row
  if !s.focal.bias || !within 1 2064 slot then s.withPipe { s.pipe with line := none }
  else
    let f := s.focal
    let t := f.intake (s.reg Reg.SPARE_SHADOW == 1) (s.reg Reg.SPARE_TOLERANCE) (s.reg Reg.SHADOW_INDEX) i.raw i.spare
    let lost := s.pipe.heldPrev || s.tide.edgesHeld
    let f1 := { f with groups := t.groups }
    let f2 := match activeOf (slot - 1) with
      | some y => if lost then f1 else
        f1.strikeRow (s.reg Reg.GAIN_ACTIVE == 1) (s.reg Reg.SUN_HIGH_FRAMES) y s.frame s.now t.words
      | none => f1
    let line : Line := { slot := slot - 1, words := t.words, lost := lost, settling := f.settling != 0 }
    let s1 := { s with
      focal := f2
      pipe := { s.pipe with line := some line }
      cal := s.calRow (slot - 1) t.words (lost || f.settling != 0) }
    s1.reportIntake (slot - 1) t

/-- Blanking work of the pipeline and the shutter drive (R20, R83, R101, R103, R109). -/
def State.blankSlot (s : State) : State :=
  if s.row = 2065 then
    let q := if s.pipe.on && s.corrState != 0 then s.pipe.updateCols (s.reg Reg.COLUMN_TRACK_SHIFT) else
      { s.pipe with blindSum := [], blindN := [] }
    let g := if s.cal.cycle.isNone then s.reg Reg.GAIN_MODE else s.reg Reg.GAIN_ACTIVE
    (s.withPipe { q with dts := s.driftChanges }).latchConsts g
  else if s.row = 2066 then
    let h := s.focal.shutter
    let go := h.closing.isSome && h.left != 0 && h.present
    s.setShutter { h with left := if go then h.left - 1 else h.left, pulses := b2n go }
  else s

/-- The imaging path over one row. -/
def State.imageRow (s : State) (i : RowIn) : State :=
  let s1 := s.withPipe { s.pipe with lineOut := none }
  let s2 := (s1.correctSlot i).convertSlot i
  let s3 := s2.withPipe { s2.pipe with heldPrev := s2.tide.edgesHeld }
  s3.blankSlot

/-- DARK_ARRAY takes effect (R50, R119, R127): the bias and the pipeline stop, the fill store is emptied. -/
def State.darkArray (s : State) : State :=
  { s with
    focal := { s.focal with bias := false, settling := 0 }
    pipe := { s.pipe with on := false, line := none, lineOut := none, fill := [] } }.setReg Reg.IMAGER_ACTIVE imDark

end Sys2Proof.Machine
end

