-- ==== Sys2Proof/Machine/StatusOps.lean ====
section
/-!
DEFINITION. The status entries that other state gives, and the manifest that gathers them (R28, R225, R247, R248, R336, R380,
R382, R411, R414, R462, R525).
-/
namespace Sys2Proof.Machine

/-! ### Tide, quays, faults -/

/-- `TIDE_STATUS` (R28). -/
def State.tideStatus (s : State) : Nat :=
  let t := s.tide
  b2n t.running + 4 * b2n s.rtc.xtalFail + 8 * b2n t.masterLost + 16 * b2n t.degraded + 32 * b2n t.rcTrimmed +
    64 * b2n (decide (t.source = .rc .b)) + 128 * b2n (decide (s.reg Reg.RATE_MODE ≠ s.reg Reg.RATE_ACTIVE)) +
    256 * b2n (!t.unlocked.isEmpty)

/-- The raw value of a fault entry (R248). -/
def FaultEntry.raw (f : FaultEntry) : Nat :=
  f.tick % 2 ^ 32 + 2 ^ 32 * b2n f.nested + 2 ^ 33 * (f.outcome % 8) + 2 ^ 36 * (f.level % 4) + 2 ^ 38 * (f.quay % 4) +
    2 ^ 40 * (f.cause % 256) + 2 ^ 48 * (f.detail % 65536)

/-- `FAULT_ENTRY` of sub 1 to 4 (R247). -/
def State.faultEntry (s : State) (sub : Nat) : Nat := ((s.hm.stack[sub - 1]?).map FaultEntry.raw).getD 0

/-- `FAULT_LAST` (R247). -/
def State.faultLast (s : State) : Nat := (s.hm.last.map FaultEntry.raw).getD 0

/-- The five stack words of a salvage and of the manifest (R257, R411). -/
def State.stackWords (s : State) : List Nat := (List.range 4).map (fun k => s.faultEntry (k + 1)) ++ [s.faultLast]

/-- `HM_STATUS` (R225). -/
def State.hmStatus (s : State) : Nat :=
  let h := s.hm
  b2n h.owner.isSome + 2 * b2n s.duplex + 4 * b2n h.standbyReady + 8 * b2n h.takeover.isSome + 16 * b2n h.storm +
    32 * b2n h.stormManual + 64 * b2n (h.stack.length == 4) + 128 * b2n h.voteFault + 256 * b2n h.summary.isSome

/-- `QUAY_FAILS_A`, `QUAY_FAILS_B` (R230). -/
def State.quayFails (s : State) (q : Quay) : Nat := min 255 (s.hm.quays.get q).fails.length

/-! ### Calibration and berths -/

/-- `CAL_AGE` (R137). -/
def State.calAge (s : State) : Nat :=
  match s.cal.calT64 with
  | some t => min 0xFFFFFFFE ((s.now - t) / clkSec)
  | none => 0xFFFFFFFF

/-- `BAD_PIXELS` (R91). -/
def State.badPixels (s : State) : Nat :=
  ((List.range nPixels).filter fun p => headBad (s.pipe.head p) || headNoisy (s.pipe.head p)).length

/-- `BERTHS_DEFINED`, `EDITS_PENDING`, `ALARMS_ACTIVE`, `OCCUPIED_BERTHS` (R195). -/
def State.berthsDefined (s : State) : Nat := (s.berth.runs.filter fun r => s.berthKind r.num != 0).length
def State.editsPending (s : State) : Nat :=
  if s.berth.pendAll then
    ((List.range 8192).filter fun n => berthSubs.any fun b => s.berthWritten n b != s.berthNow n b).length
  else s.berth.pend.length
def State.alarmsActive (s : State) : Nat := (s.berth.runs.filter fun r => r.alarmPub != 0).length
def State.occupiedBerths (s : State) : Nat := (s.berth.runs.filter fun r => r.occPub).length

/-! ### ADC, bus, logbook -/

/-- `ADC_STATUS` (R336). -/
def State.adcStatus (s : State) : Nat :=
  let n := s.sens
  let bits : Nat × Nat × Nat := match n.adc with
    | .idle => (0, 0, 0)
    | .round _ => (1, 0, 0)
    | .urgent _ => (0, 0, 1)
    | .selfCal r => (b2n r.isSome, 1, 0)
  bits.1 + 2 * bits.2.1 + 4 * bits.2.2 + 8 * b2n n.precal + 16 * b2n n.calDiscarded + 32 * b2n n.factorsHost +
    64 * b2n n.vrefSuspect

/-- A channel is error-passive (R377). -/
def Channel.passive (x : Channel) : Bool := Nat.ble 128 x.tec || Nat.ble 128 x.recErr

/-- Alarms of a bus-off channel go out on the other one (R379). -/
def State.copying (s : State) (c : Bus) : Bool :=
  (s.chan c).busOff && s.reg Reg.BUS_FAILOVER == 1 && (s.chan c.other).active == .normal && !(s.chan c.other).busOff &&
    !s.gated c.other

/-- `BUS_STATUS` (R382). -/
def State.busStatus (s : State) (c : Bus) : Nat :=
  let x := s.chan c
  b2n x.integrated + 2 * b2n (Nat.ble 96 x.tec || Nat.ble 96 x.recErr) + 4 * b2n x.passive +
    8 * b2n (x.busOff || x.recovering) + 16 * b2n x.held.isSome + 32 * b2n (s.gated c) + 64 * b2n (s.copying c) +
    128 * b2n x.clash + 256 * b2n (s.fdOn c && decide (1000 < s.reg (Reg.DATA_BITRATE c.idx))) + 512 * b2n x.protoExc +
    1024 * b2n x.rateSuspect

/-- `BW_LIMITED` (R375, R380). -/
def State.bwLimited (s : State) : Nat := (s.bus.bw.sources.filter BwSource.isLimited).length

/-- Size of a log record (R445). -/
def LogRec.size (r : LogRec) : Nat := 8 * words8 (16 + r.payload.length)

/-- Bytes of records in a block. -/
def LogBlock.used (b : LogBlock) : Nat := (b.recs.map LogRec.size).sum

/-- Byte offset of the newest record of a ring of blocks within its partition; 0 where there is none. -/
def headPtr (blocks : List LogBlock) : Nat :=
  match blocks.getLast? with
  | none => 0
  | some b => 1024 * b.num + (b.used - (b.recs.getLast?.map LogRec.size).getD 0)

/-- SEQ of the oldest record held in the ring; 0 where there is none. -/
def Log.oldest (l : Log) : Nat := ((l.ring.flatMap LogBlock.recs).head?.map LogRec.seq).getD 0

/-- SEQ of the oldest record that reads give (R457: those below CLEAR_SEQ read as absent); 0 where there is none. -/
def Log.oldestHeld (l : Log) : Nat :=
  (((l.ring.flatMap LogBlock.recs).find? fun r => Nat.ble l.clearSeq r.seq).map LogRec.seq).getD 0

/-- The logbook runs in its lifeboat ring or has retired pages (R414). -/
def Log.mediaFault (l : Log) : Bool := l.inLifeboat || !l.retired.isEmpty || !l.anchorRetired.isEmpty

/-! ### Firmware images -/

/-- Fields of an image header. -/
def imgKey (b : List Nat) : Nat := b.getD 8 0
def imgEpoch (b : List Nat) : Nat := b.getD 9 0
def imgAdvance (b : List Nat) : Bool := bitAt (b.getD 10 0) 0
def imgLength (b : List Nat) : Nat := leValue ((b.drop 12).take 4)
def imgWrites (b : List Nat) : Nat := u16At b 16
def imgReadMin (b : List Nat) : Nat := u16At b 18
def imgReadMax (b : List Nat) : Nat := u16At b 20

/-- Bytes from `lo` up to `hi` are 0. -/
def bytesZero (b : List Nat) (lo hi : Nat) : Bool := ((b.drop lo).take (hi - lo)).all (· == 0)

/-- Check 1 of R527: MAGIC, FORMAT, LENGTH, reserved bytes. -/
def imgShape (b : List Nat) : Bool :=
  u16At b 0 == 0x4C53 && u16At b 2 == 1 && within 512 4194304 (imgLength b) && Nat.ble (imgLength b) b.length &&
    field (b.getD 10 0) 1 7 == 0 && b.getD 11 0 == 0 && bytesZero b 22 64 && bytesZero b 160 256

/-- A slot's header as `IMAGE_HEADER_A`, `IMAGE_HEADER_B` read it: all 0 when invalid (R535). -/
def slotHeader (b : List Nat) : List Nat := if imgShape b then b.take 256 else List.replicate 256 0

/-- `FW_VERSION_A`, `FW_VERSION_B` of a slot's header (R413, R526). -/
def fwVersion (head : List Nat) : Nat := leValue ((head.drop 4).take 4)

/-- The image the active quay runs: true B; without one, the image both quays load (R413). -/
def State.runsB (s : State) : Bool :=
  match s.hm.owner with
  | some q => (s.hm.quays.get q).imageB
  | none => s.pwr.bootB

/-! ### `DEVICE_STATUS` (R414), `POWER_STATUS` (R525), `IRQ_STATUS` -/

def State.deviceStatus (s : State) : Nat :=
  b2n (decide (s.phase = .opened)) + 2 * b2n (s.controlMode == 1) + 4 * b2n s.storm + 8 * b2n (!s.duplex) +
    16 * b2n s.tide.degraded + 32 * b2n (s.cal.state == 2) + 64 * b2n (decide (s.alarmsActive ≠ 0)) +
    128 * b2n (decide (s.fanSummary ≠ 0)) +
    256 * b2n ([Bus.one, Bus.two].any fun c => (s.chan c).passive || (s.chan c).busOff) +
    512 * b2n (decide (s.slip.state ≠ 0)) + 1024 * b2n s.hm.summary.isSome + 2048 * b2n s.log.mediaFault +
    4096 * b2n (bitAt s.fpaStatus 8)

def State.powerStatus (s : State) : Nat :=
  let p := s.pwr
  b2n p.presA + 2 * b2n p.presB + 4 * b2n p.missing + 8 * b2n p.ovA + 16 * b2n p.ovB + 32 * b2n s.pfail +
    64 * b2n (decide (s.power = .slack)) + 128 * b2n s.slackHeld + 256 * b2n p.hold.isSome + 512 * b2n p.wait

/-- Code of `POWER_MODE` (R413). -/
def State.powerMode (s : State) : Nat := b2n (decide (s.power = .slack))

/-! ### The manifest (R411) -/

/-- One channel's block of the manifest. -/
def State.manifestBus (s : State) (c : Bus) : List Nat :=
  let x := s.chan c
  [x.active.code, min 255 x.recErr] ++ leBytes 2 x.tec ++ leBytes 2 (s.busStatus c) ++ [0, 0] ++ leBytes 4 x.busoffCount ++
    leBytes 4 x.txDrops ++ leBytes 4 x.rxOverruns ++ leBytes 4 (x.counts.getD 0 0)

/-- Zero bytes. -/
def zeros (n : Nat) : List Nat := List.replicate n 0

/-- Bytes 0 to 143. -/
def State.manifestA (s : State) (writer : Nat) : List Nat :=
  leBytes 2 1 ++ leBytes 2 512 ++ leBytes 4 (s.reg Reg.DEVICE_CODE) ++
    [s.reg Reg.VARIANT, s.reg Reg.STEPPING, s.phase.code, s.powerMode, s.reg Reg.IMAGER_ACTIVE, s.rate,
      s.reg Reg.GAIN_ACTIVE, s.controlMode, b2n s.duplex, s.quayRoles, s.ownerCode, b2n (decide (s.slip.state ≠ 0)),
      b2n s.panel.lighthouse, s.loop.autoReason] ++
    leBytes 2 s.hmStatus ++ leBytes 2 s.tideStatus ++ leBytes 2 (s.reg Reg.FRAME_FLAGS) ++ leBytes 2 s.fpaStatus ++
    leBytes 2 s.engineStatus ++ leBytes 8 s.now ++ leBytes 6 s.rtc.ticks ++ leBytes 2 (s.timeStatus % 4) ++
    leBytes 8 (ofSigned 64 s.rtc.offset) ++ leBytes 2 s.rtc.gen ++ leBytes 4 s.frame ++ leBytes 2 s.row ++
    leBytes 4 s.tick ++ leBytes 4 (s.reg Reg.EPOCH_FRAME) ++ leBytes 8 (s.reg Reg.EPOCH_T64) ++
    s.stackWords.flatMap (leBytes 8) ++
    [s.hm.stack.length, b2n s.hm.storm + 2 * b2n s.hm.stormManual + 4 * b2n s.hm.summary.isSome, writer, 0] ++
    leBytes 4 (s.reg Reg.FAILOVERS) ++ leBytes 4 (s.reg Reg.LAST_OUTAGE) ++ leBytes 4 (s.reg Reg.STORM_ENTRIES) ++
    leBytes 4 (s.tallyValue Reg.SALVAGE_COUNT) ++ zeros 4

/-- Bytes 144 to 239. -/
def State.manifestB (s : State) : List Nat :=
  [s.cal.state, s.reg Reg.CAL_LAST_REASON] ++ leBytes 2 s.calStatus ++ leBytes 2 s.cal.triggers ++ leBytes 2 (s.reg Reg.RNU) ++
    leBytes 4 (s.reg Reg.CAL_FRAME) ++ leBytes 4 s.calAge ++ leBytes 4 (s.reg Reg.AGREE_FRACTION) ++
    leBytes 2 (s.reg Reg.ADC_RESIDUAL) ++ [s.reg Reg.SPARE_MISMATCH, s.reg Reg.GRADIENT_FLAGS] ++
    leBytes 2 (min 65535 (s.reg Reg.GRADIENT_MAX)) ++ [s.adcStatus] ++ zeros 5 ++
    leBytes 4 s.berth.tableFrame ++ leBytes 2 s.berthsDefined ++ leBytes 2 s.alarmsActive ++ leBytes 2 s.occupiedBerths ++
    leBytes 2 s.videoStatus ++ leBytes 4 s.badPixels ++ leBytes 4 s.focal.sun.length ++ leBytes 4 (s.reg Reg.LOST_ROWS) ++
    zeros 8 ++ leBytes 4 s.log.headSeq ++ leBytes 4 (headPtr s.log.ring) ++ leBytes 4 s.log.oldestHeld ++
    leBytes 4 s.log.overwritten ++ leBytes 4 s.log.anchorHead ++ leBytes 4 (headPtr s.log.anchor) ++
    [b2n s.log.inLifeboat + 2 * b2n s.log.mediaFault] ++ zeros 7

/-- Bytes 240 to 255: the pilot's part, which reads 0 when the harbourmaster forms the manifest. -/
def State.manifestPilot (s : State) : List Nat :=
  [b2n s.runsB, b2n (decide (s.slip.state ≠ 0)) + 2 * b2n (s.slip.state == 6) + 4 * b2n s.slip.probation.isSome] ++
    leBytes 4 (fwVersion (slotHeader s.slip.imageA)) ++ leBytes 4 (fwVersion (slotHeader s.slip.imageB)) ++ leBytes 2 s.editsPending ++
    [min 255 s.klp.transfers.length,
      b2n (decide (s.reg Reg.RATE_MODE ≠ s.reg Reg.RATE_ACTIVE)) +
        2 * b2n (decide (s.reg Reg.GAIN_MODE ≠ s.reg Reg.GAIN_ACTIVE)) + 4 * b2n s.cal.restore.isSome +
        8 * b2n s.cal.busy + 16 * b2n s.video.plane.isSome + 32 * b2n (s.reg Reg.EDIT_HOLD == 1)] ++ zeros 2

/-- Bytes 256 to 507. -/
def State.manifestC (s : State) : List Nat :=
  s.manifestBus .one ++ s.manifestBus .two ++ [s.reg Reg.NODE_ID, s.bus.bw.seq] ++ leBytes 2 s.bwLimited ++
    leBytes 4 s.bus.bw.suppressed ++ zeros 8 ++ leBytes 4 (s.reg Reg.VIN_A_MV) ++ leBytes 4 (s.reg Reg.VIN_B_MV) ++
    leBytes 4 (s.reg Reg.VHOLD_MV) ++ leBytes 2 (ofSigned 16 (rdiv (s.regI (Reg.AI_VALUE_INT 9)) 100)) ++
    leBytes 2 (ofSigned 16 (rdiv (s.regI (Reg.AI_VALUE_INT 10)) 100)) ++ leBytes 2 s.actStatus ++
    [s.fanSummary, b2n (Nat.blt (s.reg Reg.PFAIL_LEVEL) (s.reg Reg.VIN_A_MV)) +
      2 * b2n (Nat.blt (s.reg Reg.PFAIL_LEVEL) (s.reg Reg.VIN_B_MV))] ++ zeros 168

/-- The manifest as formed by a writer: 0 the harbourmaster, 1 Quay A, 2 Quay B. -/
def State.manifest (s : State) (writer : Nat) : List Nat :=
  let body := s.manifestA writer ++ s.manifestB ++ (if writer = 0 then zeros 16 else s.manifestPilot) ++ s.manifestC
  body ++ leBytes 4 (crc32 body)

end Sys2Proof.Machine
end

