-- ==== Sys2Proof/Machine/HmOps.lean ====
section
/-!
DEFINITION. Shared operations of the harbourmaster: the fault stack, quay failures, failover, STORM entry and exit, salvage,
and what a quay's fault or STORM does to an update in progress (R222 to R259, R530, R533, R534).
-/
namespace Sys2Proof.Machine

/-! ### Pieces -/

/-- The harbourmaster replaced. -/
def State.withHm (s : State) (h : Hm) : State := { s with hm := h }

/-- The slipway replaced. -/
def State.withSlip (s : State) (p : SlipPart) : State := { s with slip := p }

/-- A quay. -/
def State.quay (s : State) (q : Quay) : QuayUnit := s.hm.quays.get q

/-- A quay replaced. -/
def State.setQuay (s : State) (q : Quay) (u : QuayUnit) : State := s.withHm { s.hm with quays := s.hm.quays.set q u }

/-- A quay whose pilot runs: it strobes, answers challenges and restarts its watchdog (R231 to R233). -/
def QuayUnit.running (u : QuayUnit) : Bool :=
  !u.inReset && (u.st == .active || u.st == .standby || u.st == .syncing || u.passHeld)

/-- Causes (R243). -/
def causeHeartbeat : Nat := 0x01
def causeSelfCheck : Nat := 0x02
def causeQuayClock : Nat := 0x03
def causeQuayRail : Nat := 0x04
def causeWatchdog : Nat := 0x05
def causeMemory : Nat := 0x06
def causeMirror : Nat := 0x07
def causeMasterClock : Nat := 0x08
def causeHmVote : Nat := 0x09
def causeTakeover : Nat := 0x0A
def causeStackFull : Nat := 0x0B
def causeManual : Nat := 0x0C

/-- The code of a quay in a fault entry: 0 the harbourmaster. -/
def quayCode : Option Quay → Nat
  | none => 0
  | some q => q.code

/-! ### The fault stack (R246, R248) -/

/-- The newest entry with the property popped with its outcome: it becomes `FAULT_LAST`. -/
def State.popFault (s : State) (which : FaultEntry → Bool) (outcome : Nat) : State :=
  match s.hm.stack.find? which with
  | none => s
  | some f =>
    s.withHm { s.hm with
      stack := s.hm.stack.erase f
      last := some { f with outcome := outcome } }

/-- The newest entry with the property taken off the stack: it is pushed again at a higher level (R244). -/
def State.dropFault (s : State) (which : FaultEntry → Bool) : State :=
  match s.hm.stack.find? which with
  | none => s
  | some f => s.withHm { s.hm with stack := s.hm.stack.erase f }

/-- An entry pushed with its FAULT record; the stack has room. -/
def State.pushEntry (s : State) (cause detail quay level : Nat) : State :=
  let f : FaultEntry :=
    { detail := detail, cause := cause, quay := quay, level := level, outcome := 0, nested := !s.hm.stack.isEmpty,
      tick := s.tick }
  (s.withHm { s.hm with stack := f :: s.hm.stack, lastPush := some s.now }).pushLog Lt.FAULT (leBytes 8 f.raw)

/-- A fault of level 0: recorded, and resolved at once (R244). It must find room on the stack. -/
def State.recordEntry (s : State) (cause detail quay : Nat) : State :=
  (s.pushEntry cause detail quay 0).popFault (fun f => f.cause == cause && f.level == 0) 4

/-! ### The slipway under faults (R530, R533, R534) -/

/-- The image a quay is to run: that of the update on probation, else the one the device booted (R532, R533). -/
def State.wantedB (s : State) : Bool := if s.slip.state = 7 then s.slip.targetB else s.pwr.bootB

/-- What a quay keeps of the header of the image it is loaded with (R526). -/
def State.headOf (s : State) (b : Bool) : List Nat := (if b then s.slip.imageB else s.slip.imageA).take 24

/-- A quay held in reset and loaded with an image (R530 to R533): a planned reload, which is no failure (R531). -/
def State.reload (s : State) (q : Quay) (b : Bool) : State :=
  let u := s.quay q
  let h := if u.st = .standby then { s.hm with standbyReady := false } else s.hm
  { s with hm := { h with
      quays := h.quays.set q { u with
        st := .selfTest, inReset := true, passHeld := false, misses := 0, counted := false, challenge := none, imageB := b, head := s.headOf b } } }

/-- The header of the update's target slot erased. -/
def SlipPart.eraseTarget (p : SlipPart) : SlipPart := if p.targetB then { p with imageB := [] } else { p with imageA := [] }

/-- SLIP_REJECT, and the state IDLE with its staging discarded. -/
def State.slipReject (s : State) (st : Status) : State :=
  let p := s.slip
  let s1 := s.withSlip { p with state := 0, image := [], started := false, loading := none, newFormat := false, lastStatus := st.code }
  (s1.pushLog Lt.SLIP_REJECT ([b2n p.targetB, st.code] ++ leBytes 4 p.version)).raiseIrq irqSlipway

/-- ABORT's effect (R530): a partly written slot has its header page erased, and a quay on the new image is reloaded from the
running slot. -/
def State.slipAbandon (s : State) : State :=
  let p := s.slip
  let s1 := if p.state = 3 then s.withSlip p.eraseTarget else s
  match p.loading with
  | some q => s1.reload q s1.pwr.bootB
  | none => s1

/-- STORM entry in STAGING to READY acts as ABORT (R534). -/
def State.slipStorm (s : State) : State :=
  if within 1 6 s.slip.state then s.slipAbandon.slipReject .state else s

/-- A rollback's record and state (R533): the new slot's header page is erased and the device is IDLE on the old slot. -/
def State.slipRollback (s : State) (reason : Nat) : State :=
  let p := s.slip
  let p1 := p.eraseTarget
  let s1 := s.withSlip { p1 with state := 0, image := [], started := false, marker := false, probation := none, loading := none, newFormat := false }
  (s1.pushLog Lt.SLIP_ROLLBACK ([b2n s.pwr.bootB, reason] ++ leBytes 4 (fwVersion (if s.pwr.bootB then s.slip.imageB else s.slip.imageA)))).raiseIrq irqSlipway

/-- A fault of level 2 or 3 on quay q bears on the update: on probation a quay on the new image causes a rollback, in which
the other quay, where it runs the new image too, is reloaded; while LOADING or READY the update falls back to WRITTEN. -/
def State.slipFault (s : State) (q : Quay) : State :=
  let p := s.slip
  if p.state = 7 ∧ (s.quay q).imageB = p.targetB then s.slipRollback 1
  else if (p.state = 5 ∨ p.state = 6) ∧ p.loading = some q then
    s.withSlip { p with state := 4, loading := none, newFormat := false }
  else s

/-! ### Quays leaving service -/

/-- The tide moves to the other quay's RC when the quay it runs from leaves service (R38). -/
def State.leaveRc (s : State) (q : Quay) : State :=
  if s.tide.source = .rc q then { s with tide := { s.tide with source := .rc q.other, rcTrimmed := false } } else s

/-- The token taken from a quay (R222). -/
def State.revoke (s : State) (q : Quay) : State :=
  if s.hm.owner = some q then s.withHm { s.hm with owner := none } else s

/-- A quay held in reset by a fault of its own (R228, R230, R242): counted, its image the one the device is to run. -/
def State.quayDown (s : State) (q : Quay) : State :=
  let s1 := (s.slipFault q).revoke q
  let u := s1.quay q
  let s2 := s1.setQuay q { u with fails := u.fails ++ [s1.rtc.ticks] }
  (s2.reload q s2.wantedB).leaveRc q

/-- A pass held ends with the token granted: the preferred quay went OUT, or 200 ms passed with no quay ACTIVE (R228). The
first grant ends DARK's NO_OWNER and sets `OWNER_MS` (R517). -/
def State.grantToken (s : State) (q : Quay) : State :=
  let u := s.quay q
  let s1 := (s.setQuay q { u with st := .active, passHeld := false, inReset := false }).withHm
    { (s.setQuay q { u with st := .active, passHeld := false, inReset := false }).hm with owner := some q }
  if s.pwr.owned then s1
  else
    ({ s1 with pwr := { s1.pwr with owned := true } }).setReg Reg.OWNER_MS
      (min 65535 ((s.rtc.ticks - s.pwr.darkTick) * 1000 / 32768))

/-- A quay whose pass is held requests synchronisation when the other becomes ACTIVE (R228). -/
def State.releaseHeld (s : State) (q : Quay) : State :=
  let u := s.quay q
  if u.st = .selfTest ∧ u.passHeld = true then s.setQuay q { u with st := .syncing, passHeld := false } else s

/-- A quay goes OUT: held in reset, breakwater source 0x2052 raised; a held pass of the other quay ends (R228, R372). -/
def State.goOut (s : State) (q : Quay) : State :=
  let u := s.quay q
  let s1 := (s.revoke q).setQuay q { u with st := .out, inReset := true, passHeld := false, misses := 0, challenge := none }
  let s2 := if u.st = .standby then s1.withHm { s1.hm with standbyReady := false } else s1
  let s3 := (s2.leaveRc q).alarmOf 0x2052 1 s2.quayRoles s2.hmStatus
  let o := s3.quay q.other
  if o.st = .selfTest ∧ o.passHeld = true ∧ s3.storm = false then s3.grantToken q.other else s3

/-! ### Salvage (R255 to R258) -/

/-- The salvage record of this moment. -/
def State.salvageNow (s : State) (writer trigger seq : Nat) : Salvage :=
  { writer := writer, trigger := trigger, t64 := s.now, rtc := s.rtc.ticks, frame := s.frame, seq := seq,
    stack := s.stackWords, roles := [s.quayRoles, s.ownerCode, s.hmStatus % 256, s.controlMode]
    manifest := s.manifest writer }

/-- A salvage written (R255, R256): the DRAM region in full, the MRAM summary where none is held, and a SALVAGE record. The
harbourmaster writes a summary only. -/
def State.writeSalvage (s : State) (writer trigger : Nat) : State :=
  let s1 := s.countTally Reg.SALVAGE_COUNT
  let seq := s1.tallyValue Reg.SALVAGE_COUNT
  let v := s1.salvageNow writer trigger seq
  let held := s1.hm.summary.isSome
  let s2 := s1.withHm { s1.hm with
    salvage := if writer = 0 then s1.hm.salvage else some v
    summary := if held then s1.hm.summary else some v }
  let s3 := if held then s2.incSat Reg.SALVAGE_SUPPRESSED else s2
  s3.pushLog Lt.SALVAGE (leBytes 4 seq ++ [writer, trigger, b2n (!held)])

/-! ### STORM (R251, R254) -/

/-- The pilot that writes the salvage of a STORM entry: the active one if it still runs, otherwise the standby, else the
harbourmaster; `bad` is the quay whose fault is the cause (R256). -/
def State.salvageWriter (s : State) (bad : Option Quay) : Nat :=
  let able (q : Quay) : Bool := bad != some q && (s.quay q).running
  match s.hm.owner with
  | some q => if able q then q.code else if able q.other then q.other.code else 0
  | none => if able .a then 1 else if able .b then 2 else 0

/-- A quay's place in STORM (R228): an ACTIVE, SYNCING or waiting quay enters STANDBY. -/
def QuayUnit.intoStorm (now : Nat) (u : QuayUnit) : QuayUnit :=
  if u.inReset then u
  else if u.st = .active ∨ u.st = .syncing ∨ u.passHeld = true then
    { u with st := .standby, passHeld := false, standbyAt := now }
  else u

/-- The CAN queues at STORM entry (R251 step 3, R376): selected channels keep their alarm queue, the others nothing. -/
def State.stormQueues (s : State) : State :=
  [Bus.one, Bus.two].foldl (fun t c => t.setChan c ((t.chan c).discard (t.regBit Reg.STORM_BUS c.idx))) s

/-- Network commands that wait in the pilot FIFOs at STORM entry are removed and ignored, and no heartbeat is due any more (R252,
R407). -/
def State.stormNets (s : State) : State :=
  [Bus.one, Bus.two].foldl (fun t c =>
    let x := t.chan c
    let u := t.setChan c { x with rx := x.rx.filter fun r => !t.isNet r.f }
    { u with klp := { u.klp with netIgnored := satAdd 32 u.klp.netIgnored (x.rx.filter fun r => t.isNet r.f).length } })
    { s with bus := { s.bus with hbDue := false } }

/-- The quays, the token and the entry in progress at STORM entry (R251 step 1, R228); `bad` is the quay whose own fault it
is. -/
def State.stormToken (s : State) (manual : Bool) (bad : Option Quay) : State :=
  let h := s.hm
  let qa := if bad = some .a then h.quays.a else h.quays.a.intoStorm s.now
  let qb := if bad = some .b then h.quays.b else h.quays.b.intoStorm s.now
  let s0 := s.popFault (fun f => f.level == 2 && f.outcome == 0) 3
  s0.withHm { s0.hm with
    owner := none, storm := true, stormManual := manual, takeover := none, salvageIn := none
    stormExit := none, quays := { a := qa, b := qb }
    preStorm := { one := (s.chan .one).active.code, two := (s.chan .two).active.code } }

/-- Outputs, queues and fan channels at STORM entry (R251 steps 2 to 4). -/
def State.stormOutputs (s : State) : State :=
  ((((s.countUp Reg.STORM_ENTRIES).applyStorms).stormQueues).stormNets).engineHolds

/-- Record, interrupt, alarm and panel pattern at STORM entry (R251 step 5). -/
def State.stormReport (s : State) (cause : Nat) : State :=
  let s1 := (s.pushLog Lt.STORM_ENTER ([cause, 0] ++ leBytes 2 s.hmStatus)).raiseIrq irqStorm
  let s2 := s1.alarmOf 0x2051 1 (s1.reg Reg.STORM_ENTRIES) s1.hmStatus
  let pat := s2.reg Reg.STORM_PANEL == 1
  { s2 with panel := { s2.panel with pattern := pat, patternOn := pat } }

/-- A running quay reloaded from the boot slot. -/
def State.reloadRunning (s : State) (q : Quay) : State := if (s.quay q).running then s.reload q s.pwr.bootB else s

/-- What STORM entry does to an update (R533, R534). -/
def State.stormSlip (s : State) : State :=
  if s.slip.state = 7 then (((s.slipRollback 2).reloadRunning .a).reloadRunning .b) else s.slipStorm

/-- STORM entered with a cause (R251); `bad` is the quay whose own fault it is. -/
def State.enterStorm (s : State) (cause : Nat) (bad : Option Quay) : State :=
  if s.storm then s
  else
    ((((s.stormToken (cause == causeManual) bad).stormOutputs).stormReport cause).stormSlip).writeSalvage
      (s.salvageWriter bad) 0

/-- STORM left by command (0) or automatically (1): the STANDBY quay takes the token at the next control tick (R254). -/
def State.leaveStorm (s : State) (how : Nat) : State :=
  match s.storm, s.standbyQuay with
  | true, some q =>
    let s1 := s.withHm { s.hm with storm := false, stormManual := false, stormExit := some q }
    let back (t : State) (c : Bus) : State :=
      let m := ChMode.ofCode (s.hm.preStorm.get c)
      if (t.chan c).active = m then t else t.setChan c { t.chan c with request := some m }
    let s2 := (((back (back s1 .one) .two)).noteAutonomous).engineHolds
    let s3 := (s2.pushLog Lt.STORM_EXIT [how, q.code]).raiseIrq irqStorm
    let s4 := s3.alarmOf 0x2051 0 (s3.reg Reg.STORM_ENTRIES) s3.hmStatus
    { s4 with panel := { s4.panel with pattern := false } }
  | _, _ => s

/-! ### Declaring faults (R243 to R246, R514) -/

/-- A fault that found the stack full (R246). -/
def State.stackOverflow (s : State) (bad : Option Quay) : State :=
  (s.incSat Reg.STACK_OVERFLOWS).enterStorm causeStackFull bad

/-- A fault of level 0. From PFAIL onward nothing is declared (R514). -/
def State.recordFault (s : State) (cause detail : Nat) (q : Option Quay) : State :=
  if s.pfail then s
  else if 4 ≤ s.hm.stack.length then s.stackOverflow none
  else s.recordEntry cause detail (quayCode q)

/-- A fault of level 3 of no quay. -/
def State.stormFault (s : State) (cause : Nat) (bad : Option Quay) : State :=
  if s.pfail then s
  else if 4 ≤ s.hm.stack.length then s.stackOverflow bad
  else
    let s1 := s.pushEntry cause 0 (quayCode bad) 3
    (s1.enterStorm cause bad).popFault (fun f => f.cause == cause && f.level == 3 && f.outcome == 0) 3

/-- Band of an open band load whose header has arrived (R154). -/
def Transfer.band (t : Transfer) : Option Nat :=
  if t.key == Reg.OFFSET_LOAD && t.write && Nat.ble 8 t.data.length then some (t.data.getD 0 0) else none

/-- Transfers ended before their last segment (R98, R154, R399): a write changes nothing; a primed chamber that no load is left
for is given up; an image no longer being sent leaves the slipway IDLE. -/
def State.endTransfers (s : State) (p : Transfer → Bool) : State :=
  let gone := s.klp.transfers.filter p
  let bands := gone.filterMap Transfer.band
  let open1 := s.cal.openBands.filter fun b => !bands.contains b
  let spare := !bands.isEmpty && open1.isEmpty && s.cal.bandsDone.isEmpty && s.cal.restore.isNone &&
    (s.cal.chamber == .primed || s.cal.chamber == .filling false)
  let image := s.slip.state == 1 && gone.any fun t => t.key == Reg.SLIP_IMAGE && t.write
  { s with
    klp := { s.klp with transfers := s.klp.transfers.filter fun t => !p t }
    cal := { s.cal with openBands := open1, chamber := if spare then .empty else s.cal.chamber }
    slip := if image then { s.slip with state := 0, image := [], started := false } else s.slip }

/-- Failover's steps 1 to 3 (R237): token revoked, failed quay in reset, token granted to the standby, TAKEOVER interrupt,
FAILOVER record, open transfers ended (R240). `start` is where the outage runs from (R238). -/
def State.failover (s : State) (q : Quay) (cause start : Nat) : State :=
  let s1 := s.quayDown q
  let t := q.other
  let u := s1.quay t
  let s2 := s1.setQuay t { u with st := .active }
  let s3 := s2.withHm { s2.hm with
    owner := some t, standbyReady := false, takeover := some { dest := t, start := start, cause := cause, planned := false } }
  let s4 := (s3.countUp Reg.FAILOVERS).countTally Reg.FAILOVER_TOTAL
  let s5 := s4.endTransfers fun _ => true
  (({ s5 with klp := { s5.klp with streams := [] } } : State).pushLog Lt.FAILOVER ([t.code, cause, 0, 0] ++ leBytes 4 (s.reg Reg.LAST_OUTAGE))).raiseIrq irqFailover

/-- A fault of first level 2 on a quay (R242 to R245): a standby's fault sends it to SELF_TEST; the active quay's causes a
failover with DUPLEX and no takeover running, and STORM otherwise. -/
def State.quayFault (s : State) (q : Quay) (cause detail start : Nat) : State :=
  let u := s.quay q
  if s.pfail || u.inReset || u.st == .off || u.st == .out then s
  else if 4 ≤ s.hm.stack.length then ((s.incSat Reg.STACK_OVERFLOWS).quayDown q).enterStorm causeStackFull (some q)
  else if s.storm then
    ((s.pushEntry cause detail q.code 3).quayDown q).popFault (fun f => f.cause == cause && f.level == 3 && f.outcome == 0) 3
  else
    let taking := s.hm.takeover.any fun t => t.dest == q
    if u.st ≠ .active ∧ taking = false then
      ((s.pushEntry cause detail q.code 2).quayDown q).popFault (fun f => f.cause == cause && f.level == 2 && f.quay == q.code) 4
    else if s.duplex = true ∧ s.hm.takeover.isNone = true then
      (s.pushEntry cause detail q.code 2).failover q cause start
    else
      let s1 := (s.pushEntry cause detail q.code 3).quayDown q
      (s1.enterStorm cause (some q)).popFault (fun f => f.cause == cause && f.level == 3 && f.outcome == 0) 3

/-! ### Takeover and handover (R237 to R241, R532) -/

/-- The loops resume from a checkpoint (R239). -/
def State.restoreCheckpoint (s : State) (c : Option Checkpoint) : State :=
  match c with
  | some k => { s with loop := { s.loop with runs := k.loops } }
  | none => s

/-- The former active quay after a swap (R228, R532): SYNCING; one that runs another image than the device now wants is
reset and reloaded. -/
def State.afterSwap (s : State) (q : Quay) : State :=
  if (s.quay q).imageB = s.wantedB then s.setQuay q { s.quay q with st := .syncing } else s.reload q s.wantedB

/-- The token moves in a planned handover (R241, R532): at a checkpoint the standby has validated, or, for a fresh handover,
at the tick boundary. -/
def State.moveToken (s : State) (dest : Quay) (fresh : Bool) : State :=
  let s1 := s.setQuay dest { s.quay dest with st := .active }
  let s2 := s1.withHm { s1.hm with owner := some dest, standbyReady := false, takeover := none }
  let s3 := if s.slip.state = 6 then
      let t := s2.withSlip { s2.slip with state := 7, marker := true, probation := some s.now, loading := none }
      t.pushLog Lt.SLIP_SWAP ([b2n s.slip.targetB, dest.code] ++ leBytes 4 s.slip.version)
    else s2
  let s4 := if fresh then { s3 with loop := { s3.loop with runs := s3.loop.runs.map fun r => { r with fresh := true } } } else s3
  s4.afterSwap dest.other

/-- A planned handover begun (R241). -/
def State.beginSwap (s : State) (dest : Quay) : State :=
  s.withHm { s.hm with takeover := some { dest := dest, start := s.now, cause := 0, planned := true } }

/-- A quay reaches STANDBY with its REJOIN record (R228); a rollback hands over to the old image (R533). -/
def State.reachStandby (s : State) (q : Quay) : State :=
  let s1 := s.setQuay q { s.quay q with st := .standby, standbyAt := s.now }
  let s2 := (s1.withHm { s1.hm with standbyReady := true, mirrorBad := 0 }).pushLog Lt.REJOIN
    [q.code, s1.quayFails q]
  if s2.slip.state = 0 ∧ (s2.quay q.other).imageB ≠ s2.pwr.bootB ∧ (s2.quay q).imageB = s2.pwr.bootB then s2.beginSwap q
  else s2

/-- A failover to the quay on the new image while READY counts as the swap (R532). -/
def State.countAsSwap (s : State) (dest : Quay) : State :=
  if s.slip.state = 6 ∧ (s.quay dest).imageB = s.slip.targetB ∧ s.slip.loading = some dest then
    let t := s.withSlip { s.slip with state := 7, marker := true, probation := some s.now, loading := none }
    t.pushLog Lt.SLIP_SWAP ([b2n s.slip.targetB, dest.code] ++ leBytes 4 s.slip.version)
  else s

end Sys2Proof.Machine
end

