-- ==== Sys2Proof/Machine/EccOps.lean ====
section
/-!
DEFINITION. Memory integrity: uncorrectable detections, leaky buckets, scrubbing and margin refresh (R436 to R444).
-/
namespace Sys2Proof.Machine

/-- Kinds of requester, in the order of R438's table. -/
def rqPilot : Nat := 0
def rqCoef : Nat := 1
def rqStore : Nat := 2
def rqCal : Nat := 3
def rqVideo : Nat := 4
def rqPlane : Nat := 5
def rqKlp : Nat := 6
def rqWindow : Nat := 7
def rqLoad : Nat := 8
def rqTally : Nat := 9
def rqScrub : Nat := 10

/-- Source 0x2070 only ever signals raised events (R439). -/
def State.memAlarm (s : State) (value : Nat) : State := s.alarmOf 0x2070 1 value 0

/-- A memory marked in `ECC_SUMMARY` (R444). -/
def State.markMemory (s : State) (m : Nat) : State := s.putBit Reg.ECC_SUMMARY m true

/-- The same code word met by the same requester within 1 s (R438). -/
def State.seenBefore (s : State) (m addr kind : Nat) : Bool :=
  s.nv.seenUe.any fun x => x.1 == m && x.2.1 == addr && x.2.2.1 == kind && decide (s.now ≤ x.2.2.2 + clkSec)

/-- An uncorrectable detection (R438): counted, logged unless it repeats, passed to the breakwater. -/
def State.uncorrectable (s : State) (m addr kind : Nat) : State :=
  let again := s.seenBefore m addr kind
  let s1 := ((s.incSat (Reg.ECC_UNCORRECTABLE m)).setReg (Reg.LAST_UNCORRECTABLE m) addr).markMemory m
  let keep := s1.nv.seenUe.filter fun x => decide (s.now ≤ x.2.2.2 + clkSec)
  let s2 := { s1 with nv := { s1.nv with seenUe := if again then keep else keep ++ [(m, addr, kind, s.now)] } }
  let s3 := if again then s2
    else s2.pushLog Lt.UNCORRECTABLE ([m, Config.requesterKind kind % 256, 0, 0] ++ leBytes 4 addr)
  s3.memAlarm (m + 0x100)

/-- A corrected code word: the memory's counter and bucket, which may overflow (R439). -/
def State.correctedWord (s : State) (m addr : Nat) : State :=
  let s1 := (s.incSat (Reg.ECC_CORRECTED m)).setReg (Reg.LAST_CORRECTED m) addr
  let level := s1.reg (Reg.BUCKET_LEVEL m) + 1
  if level ≤ s1.reg (Reg.BUCKET_CAPACITY m) then s1.setReg (Reg.BUCKET_LEVEL m) level
  else
    let s2 := (((s1.setReg (Reg.BUCKET_LEVEL m) 0).countUp (Reg.BUCKET_OVERFLOWS m)).markMemory m)
    (s2.pushLog Lt.ECC_BUCKET ([m, 0, 0, 0] ++ leBytes 4 (s2.reg (Reg.ECC_CORRECTED m)) ++ leBytes 4 addr)).memAlarm m

/-- A writeback, unless a newer write dropped it (R440, R441). -/
def State.writeback (s : State) (m : Nat) (dropped : Bool) : State := if dropped then s else s.incSat (Reg.WRITEBACKS m)

/-- One finding of the dredger (memories 0 to 3, while `DREDGER_ENABLE` is 1) or of margin refresh (memory 4). -/
def State.scrubHit (s : State) (h : Scrub) : State :=
  if 4 < h.mem || (h.mem != 4 && s.reg Reg.DREDGER_ENABLE == 0) then s
  else
    match h.kind with
    | .corrected => (s.correctedWord h.mem h.addr).writeback h.mem h.dropped
    | .double =>
      let t := if h.mem = 4 then s.incSat (Reg.DOUBLE_CORRECTED 4) else s
      (t.correctedWord h.mem h.addr).writeback h.mem h.dropped
    | .weak => if h.mem = 4 then s.writeback 4 h.dropped else s
    | .uncorrectable => s.uncorrectable h.mem h.addr rqScrub

/-- A completed lap (R440, R444). -/
def State.lapDone (s : State) (p : Nat × Nat) : State :=
  if 4 < p.1 || (p.1 != 4 && s.reg Reg.DREDGER_ENABLE == 0) then s
  else (s.setReg (Reg.LAP_TIME p.1) p.2).setReg (Reg.LAP_MAX p.1) (max (s.reg (Reg.LAP_MAX p.1)) (p.2 % 2 ^ 32))

/-- One count leaks from a memory's bucket (R439). -/
def State.leakBucket (s : State) (m : Nat) : State := s.setReg (Reg.BUCKET_LEVEL m) (s.reg (Reg.BUCKET_LEVEL m) - 1)

end Sys2Proof.Machine
end

