-- ==== Sys2Proof/Machine/NvOps.lean ====
section
/-!
DEFINITION. The non-volatile store's shared operations: the host window's bytes and code words, the load of stored entries at
DARK, the quick-save slots, compaction, and the tallies' care at DARK (R416 to R435).
-/
namespace Sys2Proof.Machine

/-- The non-volatile store replaced. -/
def State.withNv (s : State) (n : Nv) : State := { s with nv := n }

/-! ### The window's memory: a canonical list of cells; an unlisted byte reads 0x00 (assumption 8) -/

/-- The least key allowed is above `lo`; keys rise strictly and no cell holds the unlisted value. -/
def Memory.wfFrom (lo : Nat) : List Host.Cell → Bool
  | [] => true
  | (a, b) :: t => Nat.ble lo a && b != 0 && Memory.wfFrom (a + 1) t

/-- The canonical form of a memory (R416): strictly rising addresses, no cell equal to what an unlisted address reads as. -/
def Memory.wf (m : List Host.Cell) : Bool := Memory.wfFrom 0 m

/-- One byte read. -/
def Memory.read (m : List Host.Cell) (a : Nat) : BitVec 8 :=
  match m with
  | [] => 0
  | (a', b) :: t => if a' = a then b else Memory.read t a

/-- The memory without the cell of an address. -/
def Memory.erase (a : Nat) : List Host.Cell → List Host.Cell
  | [] => []
  | (a', b) :: t => if a' = a then t else (a', b) :: Memory.erase a t

/-- A non-zero byte put in its place. -/
def Memory.put (a : Nat) (v : BitVec 8) : List Host.Cell → List Host.Cell
  | [] => [(a, v)]
  | (a', b) :: t =>
    if a < a' then (a, v) :: (a', b) :: t else if a' = a then (a, v) :: t else (a', b) :: Memory.put a v t

/-- One byte written: the value an unlisted byte reads as removes its cell. -/
def Memory.write (m : List Host.Cell) (a : Nat) (v : BitVec 8) : List Host.Cell :=
  if v = 0 then Memory.erase a m else Memory.put a v m

/-- Bytes of the window (R416). -/
def windowBytes : Nat := 262144

/-- MRAM address of the records partition (R416). -/
def recordsBase : Nat := 0x40000

/-! ### Window transactions (R429 to R434) -/

/-- The window answers: powered, and not after PFAIL (R427, R429). -/
def State.windowAnswers (s : State) : Bool := !s.pfail && (s.power == .full || s.power == .slack) && s.pwr.rails

/-- The bytes that an SPI transaction clocks out. -/
def State.spiOutput (s : State) (l : List Nat) : State := { s with klp := { s.klp with spiOut := l } }

/-- A window command met an uncorrectable code word (R430, R434, R438). -/
def State.windowUe (s : State) (word : Nat) : State :=
  let n := s.nv
  let s1 := s.withNv { n with ue := true, ueReads := satInc 32 n.ueReads, firstUe := some (n.firstUe.getD (8 * word)) }
  s1.uncorrectable 4 (recordsBase + 8 * word) rqWindow

/-- A code word closed with the bytes received for it, (position, value), oldest first (R432, R434). -/
def State.closeWord (s : State) (word : Nat) (got : List (Nat × Nat)) : State :=
  let whole := (List.range 8).all fun k => got.any fun p => p.1 == k
  let bad := s.nv.winBad.contains word
  let s1 := if whole then s else s.incSat Reg.RMW_OPERATIONS
  if bad && !whole then
    let t := s1.windowUe word
    t.withNv { t.nv with wfail := true, openWord := none }
  else
    let n := s1.nv
    s1.withNv { n with
      win := got.foldl (fun m p => Memory.write m (8 * word + p.1) (BitVec.ofNat 8 p.2)) n.win
      winBad := n.winBad.filter fun w => !(w == word)
      codewords := satInc 32 n.codewords
      openWord := none }

/-- The open code word closed as at a rise of CS_NV_L (R432). -/
def State.closeOpen (s : State) : State :=
  match s.nv.openWord with
  | none => s
  | some p => s.closeWord p.1 p.2

/-- The address after `a` in a WRITE (R431): within the page in WRAP, on to the next in CONTINUE. -/
def nextAddr (cont : Bool) (a : Nat) : Nat :=
  if cont then (a + 1) % windowBytes else a / 256 * 256 + (a + 1) % 256

/-- The bytes of a WRITE, one after the other (R431, R432). -/
def State.writeBytes (s : State) (cont : Bool) : Nat → List Nat → State
  | _, [] => s
  | a, b :: t =>
    let s1 := match s.nv.openWord with
      | some p => if p.1 = a / 8 then s else s.closeOpen
      | none => s
    let got := match s1.nv.openWord with
      | some p => p.2 ++ [(a % 8, b % 256)]
      | none => [(a % 8, b % 256)]
    let s2 := s1.withNv { s1.nv with openWord := some (a / 8, got) }
    let s3 := if a % 8 = 7 then s2.closeOpen else s2
    s3.writeBytes cont (nextAddr cont a) t

/-- `n` bytes read from an address onward, each uncorrectable code word met once per run of its bytes (R431, R434). -/
def State.readBytes (s : State) (addr n : Nat) : List Nat × State :=
  let addrs := (List.range n).map fun k => (addr + k) % windowBytes
  let bytes := addrs.map fun a => if s.nv.winBad.contains (a / 8) then 0 else (Memory.read s.nv.win a).toNat
  let met := (List.range n).filter fun k =>
    let a := (addr + k) % windowBytes
    s.nv.winBad.contains (a / 8) && (k == 0 || a % 8 == 0)
  (bytes, met.foldl (fun t k => t.windowUe ((addr + k) % windowBytes / 8)) s)

/-- The status byte (R430). -/
def State.windowStatus (s : State) : Nat :=
  2 * b2n s.nv.wel + 4 * b2n (s.reg Reg.NV_PAGE_MODE == 1) + 64 * b2n s.nv.wfail + 128 * b2n s.nv.ue

/-- `NV_STATUS` (R443). -/
def State.nvStatus (s : State) : Nat :=
  let n := s.nv
  b2n n.openWord.isSome + 2 * b2n n.wel + 4 * b2n (s.reg Reg.NV_PAGE_MODE == 1) + 8 * b2n n.ue + 16 * b2n n.wfail +
    32 * b2n (decide (n.qsFormat ≠ 0)) + 64 * b2n n.scanBreak + 128 * b2n n.compacting +
    256 * b2n (s.reg Reg.NV_HOST_LOCK == 1)

/-! ### The load at DARK (R421) -/

/-- The area whose records count: the valid one with the higher generation, by `useOne`; none where neither is valid. -/
def Nv.pick (n : Nv) : Option Bool :=
  if n.area0.valid && n.area1.valid then some (Nat.blt n.area0.gen n.area1.gen)
  else if n.area0.valid then some false
  else if n.area1.valid then some true
  else none

/-- The keys that an area's records name, each once. -/
def PArea.keys (a : PArea) : List Nat := ((a.recs.filter PRec.ok).map PRec.key).eraseDups

/-- The key of part n of an object stored as several records (R486, R500; assumption 33). -/
def partKey (key n : Nat) : Nat := 2 ^ 24 * (n + 1) + key

/-- Lengths of the stored objects that are not simple entries: records of fixed length (R421). -/
def objectLength (key : Nat) : Nat :=
  let k := key % 2 ^ 24
  if k = Reg.FAN_TABLES then 196 else if k = Reg.PANEL_SHOWN then 184 else if k = Reg.WAVEFORMS then 224
  else if k = Reg.GAMMA then 128 else 0

/-- A record fits its entry: width, type and range (R421). -/
def PRec.fits (r : PRec) : Bool :=
  match findEntry (r.key % 2 ^ 24) with
  | none => false
  | some e =>
    if e.ty = .domain then objectLength r.key == 0 || r.value.length == objectLength r.key
    else e.stored && r.value.length == e.ty.bytes && (e.ty != .bool || Nat.ble (leValue r.value) 1) &&
      inRange r.key (leValue r.value)

/-- The newest valid record of a key, where it fits. -/
def Nv.stored (n : Nv) (key : Nat) : Option (List Nat) :=
  ((n.area.find key).filter PRec.fits).map PRec.value

/-- The stored entries loaded into the register map, everything else at its default (R385, R421); the scan's outcome. -/
def State.loadStored (s : State) : State :=
  let one := s.nv.pick
  let n := { s.nv with useOne := one.getD false }
  let a := if one.isSome then n.area else { gen := 0, valid := false, recs := [], broken := false : PArea }
  let newest := a.keys.filterMap fun k => a.find k
  let skipped := (a.recs.filter fun r => !r.ok).length + (newest.filter fun r => !r.fits).length
  let regs := newest.foldl (fun m r =>
    if r.fits && objectLength r.key == 0 then smapSet (keyDefault r.key) r.key (leValue r.value % 2 ^ keyBits r.key) m else m)
    ([] : SMap)
  let s1 := { s with
    regs := regs
    nv := { n with
      skipped := skipped % 2 ^ 32, scanBreak := a.broken
      compacting := a.broken || (one.isSome && decide (a.free < 16384)) } }
  if a.broken then s1.pushLog Lt.NV_MEDIA (leBytes 4 n.nextAddr ++ [2]) else s1

/-- A compaction done (R422): the other area holds the newest valid record of every key, and is the newer one. -/
def Nv.compact (n : Nv) : Nv :=
  let a := n.area
  let kept := a.keys.filterMap a.find
  let b : PArea :=
    { gen := a.gen + 1, valid := true, broken := false
      recs := (List.range kept.length).map fun k =>
        let r := kept.getD k { key := 0, seq := 0, value := [], ok := false }
        { r with seq := k + 1 } }
  let m := { n with useOne := !n.useOne, compacting := false, compactFailed := false, compactions := (n.compactions + 1) % 2 ^ 32 }
  m.setArea b

/-! ### Quick-save (R426 to R428) -/

/-- The slot with a matching CRC and the higher SEQUENCE, by its code in `QS_LOADED`. -/
def Nv.newerSlot (n : Nv) : Nat :=
  let okA := n.slotA.any QSlot.ok
  let okB := n.slotB.any QSlot.ok
  let seqA := (n.slotA.map QSlot.seq).getD 0
  let seqB := (n.slotB.map QSlot.seq).getD 0
  if okA && (!okB || Nat.ble seqB seqA) then 1 else if okB then 2 else 0

/-- The slot of a code. -/
def Nv.slot (n : Nv) (code : Nat) : Option QSlot := if code = 1 then n.slotA else if code = 2 then n.slotB else none

/-- The staging buffer written to the older slot at PFAIL, where it is armed (R426, R427); `us` is the DURATION. -/
def State.quickSave (s : State) (us : Nat) : State :=
  let n := s.nv
  if n.qsFormat = 0 then s
  else
    let newest := n.newerSlot
    let q : QSlot :=
      { format := n.qsFormat, seq := ((n.slot newest).map QSlot.seq).getD 0 + 1, rtc := s.rtc.ticks, content := n.qsContent,
        duration := us, ok := true }
    s.withNv (if newest = 1 then { n with slotB := some q } else { n with slotA := some q })

/-- The 4,096 bytes of a slot (R426): what is not written reads 0. -/
def QSlot.bytes (q : QSlot) : List Nat :=
  let head := leBytes 2 q.format ++ leBytes 2 q.content.length ++ leBytes 4 q.seq ++ leBytes 6 q.rtc ++ [0, 0] ++ q.content
  head ++ zeros (4088 - head.length) ++ leBytes 2 q.duration ++ [0, 0] ++
    leBytes 4 (if q.ok then crc32 head else (crc32 head + 1) % 2 ^ 32)

/-! ### Tallies (R423 to R425) -/

/-- The tallies of the device (R423, R442, R524, R535, R82, R259, R224, R413), in order of their places. -/
def tallyKeys : List Nat :=
  [Reg.POWER_UPS, Reg.FAILOVER_TOTAL, Reg.SALVAGE_COUNT, Reg.SHUTTER_MOVES, Reg.NV_PFAIL_MERGES, Reg.BROWNOUTS,
    Reg.RAIL_RESETS, Reg.SLIP_COMMITS]

/-- A tally whose base reads uncorrectable is frozen, with its count and record (R425); `t` is its place. -/
def State.checkTally (s : State) (t : Nat) : State :=
  let key := tallyKeys.getD t 0
  let addr := 0xF4000 + 64 * t
  let bad := s.nv.badWords.contains addr
  match s.nv.tally key with
  | none => s
  | some y =>
    if bad && !y.frozen then
      let n := { s.nv with tallies := s.nv.tallies.map fun x => if x.key == key then { x with frozen := true } else x }
      ((s.withNv n).setReg Reg.TALLY_FAULTS (s.reg Reg.TALLY_FAULTS + 1)).uncorrectable 4 addr rqTally
    else s

end Sys2Proof.Machine
end

