-- ==== Sys2Proof/Machine/LogOps.lean ====
section
/-!
DEFINITION. The recorder's shared operations: records as bytes, the ring and the anchor area, failures of the log's own memory,
snapshots with their GAP markers, the streamer, the scan at DARK (R445 to R461).
-/
namespace Sys2Proof.Machine

/-- The logbook replaced. -/
def State.withLog (s : State) (l : Log) : State := { s with log := l }

/-! ### Records -/

/-- A record's bytes (R445). -/
def LogRec.bytes (r : LogRec) : List Nat :=
  let head := [r.payload.length, r.typ] ++ leBytes 4 r.seq ++ leBytes 6 r.ticks ++ leBytes 2 r.gen ++ r.payload
  let body := head ++ zeros (r.size - 2 - head.length)
  body ++ leBytes 2 (crc16 body)

/-! ### Rings of blocks (R449, R451) -/

/-- A ring of blocks `lo .. lo + n - 1`: the block after `b`. -/
def blockAfter (lo n b : Nat) : Nat := if b + 1 < lo + n then b + 1 else lo

/-- The next block after `b` that is not retired, within `fuel` steps. -/
def nextHealthy (lo n : Nat) (retired : List Nat) : Nat → Nat → Nat
  | 0, b => b
  | fuel + 1, b =>
    let c := blockAfter lo n b
    if retired.contains c then nextHealthy lo n retired fuel c else c

/-- What writing one record into a ring gives: the blocks, the records displaced, the block written, whether a block was
started. -/
structure RingWrite where
  blocks  : List LogBlock
  lost    : List LogRec
  num     : Nat
  started : Bool
  deriving DecidableEq, Repr

/-- A record put into a ring: into the head block while it fits and the block is healthy, else at the start of the next
healthy block, which is reclaimed first (R449, R451). -/
def ringPut (lo n : Nat) (retired : List Nat) (blocks : List LogBlock) (r : LogRec) : RingWrite :=
  let head := blocks.getLast?
  match head with
  | some h =>
    if h.used + r.size ≤ 1024 ∧ retired.contains h.num = false then
      { blocks := blocks.dropLast ++ [{ h with recs := h.recs ++ [r] }], lost := [], num := h.num, started := false }
    else
      let c := nextHealthy lo n retired n h.num
      let old := (blocks.filter fun b => b.num == c).flatMap LogBlock.recs
      { blocks := (blocks.filter fun b => !(b.num == c)) ++ [{ num := c, recs := [r] }], lost := old, num := c, started := true }
  | none =>
    let c := nextHealthy lo n retired n (lo + n - 1)
    { blocks := [{ num := c, recs := [r] }], lost := [], num := c, started := true }

/-- The ring of the logbook after a record (R451): `true` where the record reads back valid. A block that fails its
read-back is retired, and the record is not in it. -/
def Log.tryRing (l : Log) (r : LogRec) : Bool × Log :=
  let w := ringPut 1 447 l.retired l.ring r
  let m := { l with
    overwritten := (l.overwritten + (w.lost.filter fun (x : LogRec) => Nat.ble l.clearSeq x.seq).length) % 2 ^ 32
    firstSeq := if w.started then r.seq else l.firstSeq }
  if l.badBlocks.contains w.num then
    let drop := w.blocks.map fun b => if b.num == w.num then { b with recs := b.recs.dropLast } else b
    (false, { m with ring := drop.filter (fun b => !b.recs.isEmpty), retired := m.retired ++ [w.num] })
  else (true, { m with ring := w.blocks, headSeq := r.seq })

/-- Healthy blocks of the ring and of the anchor area. -/
def Log.healthy (l : Log) : Nat := 447 - l.retired.length
def Log.anchorHealthy (l : Log) : Nat := 16 - l.anchorRetired.length

/-- `ANCHOR_DEGRADED` (R461). -/
def Log.degraded (l : Log) : Bool := Nat.blt l.anchorHealthy 8

/-- A record kept in the anchor area: blocks that fail are retired until one holds it or the area is degraded. -/
def Log.putAnchor : Nat → Log → LogRec → Log
  | 0, l, _ => l
  | fuel + 1, l, r =>
    if l.degraded then l
    else
      let w := ringPut 0 16 l.anchorRetired l.anchor r
      if l.badAnchor.contains w.num then
        let drop := w.blocks.map fun b => if b.num == w.num then { b with recs := b.recs.dropLast } else b
        Log.putAnchor fuel
          { l with anchor := drop.filter (fun b => !b.recs.isEmpty), anchorRetired := l.anchorRetired ++ [w.num] } r
      else { l with anchor := w.blocks, anchorHead := r.seq }

/-- The lifeboat ring of 16 KB displaces its own oldest records (R459). -/
def lifeboatTrim : Nat → List LogRec → List LogRec
  | 0, l => l
  | fuel + 1, l => if (l.map LogRec.size).sum ≤ 16384 then l else lifeboatTrim fuel l.tail

/-- A record kept in the lifeboat ring. -/
def Log.putLifeboat (l : Log) (r : LogRec) : Log :=
  { l with lifeboat := lifeboatTrim 1024 (l.lifeboat ++ [r]), headSeq := r.seq }

/-- A media fault (R459): the record and those after it go to the lifeboat ring; a record, a breakwater event. -/
def State.logMediaFault (s : State) (r : LogRec) : State :=
  let l := s.log.putLifeboat r
  let m := { l with inLifeboat := true, mediaFaults := l.mediaFaults + 1, resumePending := true }
  let t := (s.withLog m).pushLog Lt.LOG_MEDIA_FAULT
    (leBytes 2 m.retired.length ++ leBytes 2 m.anchorRetired.length ++ leBytes 4 ((m.lifeboat.head?.map LogRec.seq).getD 0))
  t.alarmOf 0x2071 1 (m.retired.length + m.anchorRetired.length) 0

/-- A record written to the ring, or to the lifeboat ring after two consecutive read-back failures (R459). -/
def State.ringRecord (s : State) (r : LogRec) : State :=
  if s.log.inLifeboat then s.withLog (s.log.putLifeboat r)
  else
    let a := s.log.tryRing r
    if a.1 then s.withLog a.2
    else
      let b := a.2.tryRing r
      if b.1 then s.withLog b.2 else (s.withLog b.2).logMediaFault r

/-- Logging resumes in the ring (R460): the lifeboat's records first, then LOG_RESUMED. -/
def State.logResume (s : State) : State :=
  let l := s.log
  if !l.resumePending then s
  else if l.healthy < 224 ∨ 3 ≤ l.mediaFaults then s.withLog { l with resumePending := false }
  else
    let s1 := s.withLog { l with inLifeboat := false, lifeboat := [], resumePending := false }
    let s2 := l.lifeboat.foldl State.ringRecord s1
    s2.pushLog Lt.LOG_RESUMED (leBytes 2 s2.log.healthy ++ leBytes 2 l.lifeboat.length)

/-- The next queued record written (R447, R452): to the ring, and for anchor types to the anchor area, which sets LOG. -/
def State.writeRecord (s : State) : State :=
  let s0 := s.logResume
  match s0.log.queue with
  | [] => s0
  | r :: rest =>
    let s1 := (s0.withLog { s0.log with queue := rest }).ringRecord r
    if isAnchorType r.typ then (s1.withLog (s1.log.putAnchor 17 r)).raiseIrq irqLog else s1

/-- A record of the log's partitions met uncorrectable (R461): missing from then on, its block retired when next reached. -/
def State.logBad (s : State) (addr : Nat) : State :=
  let anchor := Nat.ble 0xF0000 addr
  let off := if anchor then addr - 0xF0000 else addr - 0x80000
  let num := off / 1024
  let cut (b : LogBlock) : LogBlock :=
    if b.num ≠ num then b
    else { b with recs := ((List.range b.recs.length).filter fun k =>
      let start := ((b.recs.take k).map LogRec.size).sum
      !(Nat.ble start (off % 1024) && Nat.blt (off % 1024) (start + (b.recs.getD k default).size))).map fun k => b.recs.getD k default }
  let l := s.log
  let m := if anchor then { l with anchor := (l.anchor.map cut).filter (fun b => !b.recs.isEmpty), badAnchor := (l.badAnchor ++ [num]).eraseDups }
    else { l with ring := (l.ring.map cut).filter (fun b => !b.recs.isEmpty), badBlocks := (l.badBlocks ++ [num]).eraseDups }
  let lost := ((l.ring ++ l.anchor).flatMap LogBlock.recs).length - ((m.ring ++ m.anchor).flatMap LogBlock.recs).length
  s.withLog { m with badRecords := satAdd 32 m.badRecords lost }

/-! ### Reading (R454, R455) -/

/-- Records that reads give, in SEQ order: the ring's at or above CLEAR_SEQ, then the lifeboat's. -/
def Log.visible (l : Log) : List LogRec :=
  (l.ring.flatMap LogBlock.recs).filter (fun r => Nat.ble l.clearSeq r.seq) ++ l.lifeboat

/-- Why a run of numbers is missing (R455): 1 cleared, 0 displaced, 2 lost. -/
def Log.gapCause (l : Log) (first : Nat) : Nat :=
  if first < l.clearSeq then 1 else if first < l.oldest then 0 else 2

/-- The 24 bytes of a GAP marker: SEQ = FIRST, TICKS 0, GEN 0; its payload names the first number, how many are missing and
the cause. -/
def gapMarker (first count cause : Nat) : List Nat :=
  LogRec.bytes { typ := Lt.GAP, seq := first, ticks := 0, gen := 0
                 payload := leBytes 4 first ++ leBytes 3 (min count 16777215) ++ [cause] }

/-- The markers of a run of missing numbers: consecutive ones beyond 2^24 − 1. -/
def gapMarkers (cause : Nat) : Nat → Nat → Nat → List (List Nat)
  | 0, _, _ => []
  | fuel + 1, first, count =>
    if count = 0 then []
    else gapMarker first count cause :: gapMarkers cause fuel (first + min count 16777215) (count - min count 16777215)

/-- Records with the markers of the runs between them, from the number `next` on. -/
def Log.withGaps (l : Log) : Nat → List LogRec → List (List Nat)
  | _, [] => []
  | next, r :: t =>
    (if next < r.seq then gapMarkers (l.gapCause next) 300 next (r.seq - next) else []) ++ r.bytes :: l.withGaps (r.seq + 1) t

/-- Whole items up to a byte count. -/
def takeBytes : Nat → List (List Nat) → List Nat
  | _, [] => []
  | room, x :: t => if x.length ≤ room then x ++ takeBytes (room - x.length) t else []

/-- A requester's cursor: 0 where it has none (R454). -/
def Log.cursor (l : Log) (id : Nat) : Nat := ((l.cursors.find? fun p => p.1 == id).map Prod.snd).getD 0

/-- The snapshot of `LOG_WINDOW` (R454, R455). -/
def Log.window (l : Log) (cursor : Nat) : List Nat :=
  let rs := l.visible.filter fun r => Nat.ble cursor r.seq
  let start := if cursor = 0 then (rs.head?.map LogRec.seq).getD 0 else cursor
  takeBytes 65536 (l.withGaps start rs)

/-- The snapshot of `ANCHOR_WINDOW`: no cursor and no GAP markers. -/
def Log.anchorWindow (l : Log) : List Nat := takeBytes 16384 ((l.anchor.flatMap LogBlock.recs).map LogRec.bytes)

/-- A cursor written (R454): the eight most recently used are kept. -/
def Log.setCursor (l : Log) (id v : Nat) : Log :=
  { l with cursors := ((id, v) :: l.cursors.filter fun p => !(p.1 == id)).take 8 }

/-- `LOG_STATUS` (R462). -/
def State.logStatus (s : State) : Nat :=
  let l := s.log
  b2n l.inLifeboat + 2 * b2n (decide (l.mediaFaults ≠ 0) || !l.retired.isEmpty) + 4 * b2n l.degraded +
    8 * b2n (decide (s.reg Reg.LOG_STREAM ≠ 0) && !s.storm)

/-! ### The streamer (R456) -/

/-- The frames of a record or marker: part number and count in byte 0, then up to 63 bytes. -/
def streamFrames (bytes : List Nat) : List (List Nat) :=
  let n := (bytes.length + 62) / 63
  (List.range n).map fun k => (16 * k + n) :: (bytes.drop (63 * k)).take 63

/-- What the streamer sends next, as bytes, and its cursor after it: a filtered record is passed over. -/
def State.streamNext (s : State) : Option (Option (List Nat) × Nat) :=
  let l := s.log
  match (l.ring.flatMap LogBlock.recs ++ l.lifeboat).find? fun r => Nat.ble l.streamNext r.seq with
  | none => none
  | some r =>
    if l.streamNext ≠ 0 ∧ l.streamNext < r.seq ∧ r.seq ≤ l.oldest then
      some (some (gapMarker l.streamNext (r.seq - l.streamNext) 0), r.seq)
    else if s.regBit Reg.STREAM_FILTER (r.typ / 16) then some (some r.bytes, r.seq + 1)
    else some (none, r.seq + 1)

/-! ### The scan at DARK (R446, R451, R460) -/

/-- What a start keeps of the logbook (R446, R453, R459, R460): MRAM content; queue, cursors and lifeboat are lost. -/
def Log.dark (l : Log) : Log :=
  let top := ((l.ring ++ l.anchor).flatMap LogBlock.recs).foldl (fun m r => max m r.seq) 0
  { l with
    queue := [], lifeboat := [], cursors := [], mediaFaults := 0, dropped := 0, badRecords := 0
    nextSeq := max (nextSeqAfter top) (max 1 l.firstSeq), inLifeboat := decide (l.healthy < 224), resumePending := false
    streamNext := 0, headSeq := ((l.ring.flatMap LogBlock.recs).getLast?.map LogRec.seq).getD 0 }

/-- One finding of the dredger or of margin refresh where it lies (R434, R438, R441, R461): an uncorrectable MRAM word of the
log's partitions is the logbook's to handle; one of the window, the parameters or the tallies reads as such from then on. -/
def State.scrub (s : State) (h : Scrub) : State :=
  if h.mem = 4 ∧ h.kind = .uncorrectable then
    if within 0x80000 0xF3FFF h.addr then
      (((s.incSat (Reg.ECC_UNCORRECTABLE 4)).setReg (Reg.LAST_UNCORRECTABLE 4) h.addr).markMemory 4).logBad h.addr
    else
      let n := s.nv
      let word := (h.addr - recordsBase) / 8
      let t := if within 0x40000 0x7FFFF h.addr then s.withNv { n with winBad := (n.winBad ++ [word]).eraseDups }
        else s.withNv { n with badWords := (n.badWords ++ [h.addr / 8 * 8]).eraseDups }
      t.scrubHit h
  else s.scrubHit h

end Sys2Proof.Machine
end

