-- ==== Sys2Proof/Machine/RtcOps.lean ====
section
/-!
DEFINITION. Shared operations of the mooring domain: the tick, steps and slews of the offset, alarms, wake events, time frames
and synchronisation, the domain's start (R463 to R481, R523).
-/
namespace Sys2Proof.Machine

/-- The mooring domain replaced. -/
def State.withRtc (s : State) (r : Rtc) : State := { s with rtc := r }

/-- The power part replaced. -/
def State.withPwr (s : State) (p : PwrPart) : State := { s with pwr := p }

/-! ### Wake events (R523) -/

/-- A wake event: back to FULL, and a wake hold starts or restarts. On leaving SLACK the stream may start again (R206). -/
def State.wake (s : State) : State :=
  let s1 := s.withPwr { s.pwr with hold := some s.now }
  if s.power = .slack then
    { s1 with power := .full, video := { s1.video with startDue := decide (s.reg Reg.VIDEO_ENABLE = 1), ulps := false } }
  else s1

/-- What may wake the device has come about: SLACK ends, a running wake hold restarts; otherwise nothing (R523). -/
def State.wakeEvent (s : State) : State := if s.power == .slack || s.pwr.hold.isSome then s.wake else s

/-! ### Alarms (R474 to R476) -/

/-- `ALARM_MATCH` of alarm a, 0 or 1. -/
def State.alarmMatch (s : State) (a : Nat) : Nat := s.reg (Reg.ALARM_MATCH a)

/-- An alarm fires (R475): FIRED, CAUGHT_UP where it catches up, the count, the tick; a wake event where bit 0 of
`WAKE_SOURCES` is set. -/
def State.fireAlarm (s : State) (a : Nat) (caught : Bool) : State :=
  let r := s.rtc
  let st := r.alarmStatus.getD a 0
  let n := r.alarmCount.getD a 0 + 1
  let overs := decide (2 ^ 32 ≤ n)
  let s1 := s.withRtc { r with
    alarmStatus := r.alarmStatus.set a (Nat.lor st (if caught then 3 else 1))
    alarmCount := r.alarmCount.set a (if overs then s.free % 2 ^ 32 else n)
    alarmLast := r.alarmLast.set a r.ticks }
  let s2 := if overs then s1.tickFree else s1
  if s2.regBit Reg.WAKE_SOURCES 0 then s2.wakeEvent else s2

/-- The second that has just begun evaluated against both alarms (R475). -/
def State.evalAlarms (s : State) (sec : Nat) : State :=
  [0, 1].foldl (fun t a => if alarmMatches (t.alarmMatch a) sec then t.fireAlarm a false else t) s

/-- A step of the offset as alarms see it (R476), from calendar time c0 to c1. -/
def State.alarmStep (s : State) (c0 c1 : Int) : State :=
  let s0 := c0 / (tickHz : Int)
  let s1 := c1 / (tickHz : Int)
  if c0 ≤ c1 then
    let hit (t : State) (a : Nat) : Bool :=
      bitAt (t.alarmMatch a) 62 &&
        (List.range (s1 - s0).toNat).any fun k => alarmMatches (t.alarmMatch a) (s0 + 1 + k).toNat
    let u := [0, 1].foldl (fun t a => if hit t a then t.fireAlarm a true else t) s
    u.withRtc { u.rtc with evaluated := some (max s1 (u.rtc.evaluated.getD s1)) }
  else if c0 - c1 ≤ 3600 * (tickHz : Int) then s
  else s.withRtc { s.rtc with evaluated := some s1 }

/-! ### Steps and slews of the offset (R468, R470 to R473, R476) -/

/-- The offset changed: a new generation, one record, a time frame due, schedules evaluated (R468, R478, R284). `final` is the
offset the record states, `now` the one in force at once. -/
def State.noteOffset (s : State) (typ reason : Nat) (final now : Int) : State :=
  let r := s.rtc
  let gen := (r.gen + 1) % 65536
  let s1 := (s.withRtc { r with gen := gen }).pushLog typ
    (leBytes 8 (ofSigned 64 r.offset) ++ leBytes 8 (ofSigned 64 final) ++ leBytes 2 gen)
  (s1.withRtc { s1.rtc with offset := now, sched := s1.rtc.sched ++ [reason] })

/-- A calendar set by a write or a synchronisation (R470, R471). -/
def State.setCalendar (s : State) (off : Int) : State :=
  let c0 := s.calTicks
  let was := s.rtc.valid
  let s1 := s.noteOffset Lt.TIME_SET 2 off off
  let s2 := s1.withRtc { s1.rtc with valid := true, continuity := true, outOfRange := false, slew := 0 }
  let s3 := if was then s2.alarmStep c0 s2.calTicks
    else s2.withRtc { s2.rtc with evaluated := some s2.calSecond }
  s3.evalPrograms

/-- A summer-time step (R473). -/
def State.dstStep (s : State) (forward : Bool) : State :=
  let c0 := s.calTicks
  let off := s.rtc.offset + (if forward then 117964800 else -117964800)
  let s1 := s.noteOffset Lt.DST_STEP 3 off off
  let s2 := s1.withRtc { s1.rtc with dst := forward }
  (s2.alarmStep c0 s2.calTicks).evalPrograms

/-- A sub-second slew started or replaced (R472). -/
def State.startSlew (s : State) (shift : Int) : State :=
  let s1 := s.noteOffset Lt.TIME_SET 2 (s.rtc.offset + shift) s.rtc.offset
  s1.withRtc { s1.rtc with slew := shift }

/-! ### One tick (R466, R472, R477) -/

/-- Ticks of a trim window (R477). -/
def trimWindow : Nat := 1048576

/-- What one period of the 32 kHz reference adds to the tick count: 1, with the window's trim pulses spread evenly. -/
def Rtc.advance (r : Rtc) : Nat :=
  let k : Int := r.trimAcc
  let w : Int := trimWindow
  (1 + ((k + 1) * r.trimPulses / w - k * r.trimPulses / w)).toNat

/-- One tick of the mooring domain; nothing moves while it is DOWN. -/
def State.rtcTick (s : State) : State :=
  let r := s.rtc
  if r.supply = .down then s
  else
    let ticks := (r.ticks + r.advance) % 2 ^ 48
    let due := decide (r.slew ≠ 0) && ticks % 16 == 0
    let d := if due then sgn r.slew else 0
    let s1 := s.withRtc { r with
      ticks := ticks, trimAcc := (r.trimAcc + 1) % trimWindow, offset := r.offset + d, slew := r.slew - d }
    if s1.rtc.valid ∧ ((endSecond * tickHz : Nat) : Int) ≤ s1.calTicks then
      s1.withRtc { s1.rtc with valid := false, outOfRange := true }
    else s1

/-- The trim pulses of a temperature in 0.01 °C (R477). -/
def State.trimFor (s : State) (temp : Int) : Int :=
  if s.reg Reg.TRIM_ENABLE = 0 ∨ s.rtc.xtalFail = true then 0
  else
    let d := temp - s.regI Reg.TRIM_T0
    let k : Int := s.reg Reg.TRIM_K
    clampI (-511) 511 (rdiv ((k * d * d - s.regI Reg.TRIM_OFFSET * 10000) * 1048576) 10000000000000)

/-! ### Time on the bus (R478, R479) -/

/-- FLAGS of a time frame. -/
def Rtc.flags (r : Rtc) : Nat := b2n r.valid + 2 * b2n r.continuity + 4 * b2n r.dst

/-- The data of a time frame, FD or classic. -/
def State.timeData (s : State) (fd : Bool) (reason : Nat) : List Nat :=
  let r := s.rtc
  if fd then
    leBytes 6 r.ticks ++ leBytes 2 r.gen ++ leBytes 8 (ofSigned 64 r.offset) ++ [r.flags, reason] ++ zeros 6
  else
    leBytes 5 (ofSigned 40 s.calSecond) ++ [(s.calTicks % (tickHz : Int)).toNat / 128, r.flags, r.gen % 256]

/-- A time frame queued on each NORMAL channel in `TIME_CHANNELS`. -/
def State.sendTime (s : State) (reason : Nat) : State :=
  (s.normalIn (s.reg Reg.TIME_CHANNELS)).foldl (fun t c =>
    (t.enqueue c 1 (plainFrame (t.ownId 0x2) (t.fdOn c) (t.timeData (t.fdOn c) reason))).2) s

/-- Ticks that have passed since a T64 stamp (R32). -/
def State.ticksSince (s : State) (stamp : Nat) : Nat := (s.now - stamp) * tickHz / clkSec

/-- A frame as it goes out: an FD time frame's TICKS and OFFSET are those of its start-of-frame bit (R478). -/
def State.stampedFrame (s : State) (f : CanFrame) (stamp : Nat) : CanFrame :=
  if f.id / 128 = 0x2 ∧ f.fd = true then
    { f with data := leBytes 6 (s.rtc.ticks - s.ticksSince stamp) ++ (f.data.drop 6).take 2 ++
      leBytes 8 (ofSigned 64 s.rtc.offset) ++ f.data.drop 16 }
  else f

/-- Synchronisation by an FD time frame of the time master (R479), with the own tick count at the frame's stamp. -/
def State.syncTime (s : State) (data : List Nat) (stamp : Nat) : State :=
  let flags := data.getD 16 0
  if !bitAt flags 0 then s
  else
    let own : Int := s.calTicks - s.ticksSince stamp
    let d : Int := (leValue (data.take 6) : Int) + toSigned 64 (leValue ((data.drop 8).take 8)) - own
    let s1 :=
      if d.natAbs ≤ s.reg Reg.TIME_DEADBAND then s
      else if d.natAbs ≤ 32767 then (if s.rtc.valid then s.startSlew d else s)
      else if inCalendar (s.calTicks + d) then s.setCalendar (s.rtc.offset + d)
      else s
    s1.withRtc { s1.rtc with dst := bitAt flags 2 }

/-! ### The domain's start (R463, R464) -/

/-- Settings of the domain, which take their defaults at its start (R464, R480). -/
def rtcSettings : List Nat :=
  [Reg.TRIM_T0, Reg.TRIM_K, Reg.TRIM_OFFSET, Reg.TRIM_ENABLE, Reg.TIME_MASTER, Reg.TIME_DEADBAND, Reg.TIME_FRAME_PERIOD,
    Reg.TIME_CHANNELS, Reg.ALARM_MATCH 0, Reg.ALARM_MATCH 1]

/-- The domain as it starts (R464): `OFFSET_GEN` is kept until the next DARK sets it. -/
def Rtc.start (r : Rtc) (main : Bool) : Rtc :=
  { r with
    supply := if main then .main else .backup
    ticks := 0, offset := 0, valid := false, continuity := false, outOfRange := false, lostPending := true, dst := false
    slew := 0, evaluated := none, backupEvents := 0, trimPulses := 0, trimAcc := 0
    alarmStatus := [0, 0], alarmCount := [0, 0], alarmLast := [0, 0], sched := [], retention := [] }

/-- TIME_LOST written where it is pending, with the generation set from the logbook (R464). -/
def State.timeLost (s : State) : State :=
  if !s.rtc.lostPending then s
  else
    let rs := (s.log.ring ++ s.log.anchor).flatMap LogBlock.recs
    let newest := rs.foldl (fun (b : Option LogRec) r => match b with
      | none => some r
      | some x => if x.seq < r.seq then some r else some x) none
    let gen := match newest with
      | some x => (x.gen + 1) % 65536
      | none => 0
    let s1 := s.withRtc { s.rtc with gen := gen, lostPending := false, sched := s.rtc.sched ++ [4] }
    s1.pushLog Lt.TIME_LOST []

end Sys2Proof.Machine
end

