-- ==== Sys2Proof/Machine/PanelOps.lean ====
section
/-!
DEFINITION. Shared operations of the status panel and the key matrix: cells, waveforms, updates, lighthouse mode, key events
(R482 to R507).
-/
namespace Sys2Proof.Machine

/-- The panel replaced. -/
def State.withPanel (s : State) (p : PanelPart) : State := { s with panel := p }

/-- The key matrix replaced. -/
def State.withKeys (s : State) (k : KeyPart) : State := { s with keys := k }

/-! ### Cells and regions (R482, R488) -/

/-- Layer, common less one and segment less one of a cell. -/
def cellLayer (i : Nat) : Nat := i / 96
def cellCommon (i : Nat) : Nat := i % 96 / 24
def cellSegment (i : Nat) : Nat := i % 24

/-- A cell lies in a region of the given `REGION_CELLS`. -/
def inRegion (v i : Nat) : Bool := bitAt v (28 + cellLayer i) && bitAt v (4 + cellSegment i) && bitAt v (cellCommon i)

/-- The cells of a region. -/
def regionCells (v : Nat) : List Nat := (List.range 288).filter (inRegion v)

/-- The layers of a region. -/
def regionLayers (v : Nat) : List Nat := (List.range 3).filter fun l => bitAt v (28 + l)

/-- The layers cells lie on. -/
def layersOf (cells : List (Nat × Nat)) : List Nat := (List.range 3).filter fun l => cells.any fun c => cellLayer c.1 == l

/-! ### Gamma and waveforms (R484 to R486, R500) -/

/-- The level a request becomes on a layer. -/
def PanelPart.level (p : PanelPart) (layer r : Nat) : Nat := field (p.gamma.getD (128 * layer + r / 2) 0) (4 * (r % 2)) 4

/-- The factory gamma tables: r >> 4. -/
def factoryGamma : List Nat := (List.range 384).map fun k => 17 * (2 * (k % 128) / 16)

/-- A byte of the waveform table in use. -/
def PanelPart.waveByte (p : PanelPart) (k : Nat) : Nat :=
  match p.waves with
  | some w => w.getD k 0
  | none => Config.factoryWave k % 256

/-- The waveform record of a layer at a band. -/
def PanelPart.waveRecord (p : PanelPart) (layer band : Nat) : List Nat :=
  (List.range 224).map fun k => p.waveByte (224 * (8 * layer + band) + k)

/-- The records of the three layers at a band. -/
def PanelPart.wavesAt (p : PanelPart) (band : Nat) : List (List Nat) := (List.range 3).map fun l => p.waveRecord l band

/-- Steps of a pass on one layer. -/
def waveSteps (w : List Nat) (exit : Bool) : Nat := if exit then w.getD 3 0 else w.getD 2 0

/-- Step k of a pass. -/
def waveStep (w : List Nat) (exit : Bool) (k : Nat) : Nat := leValue ((w.drop ((if exit then 200 else 8) + 3 * k)).take 3)

/-- The fields of a step (R485). -/
def stepVolt (v : Nat) : Nat := field v 16 8
def stepKind (v : Nat) : Nat := field v 14 2
def stepLow (v : Nat) : Nat := field v 8 4
def stepHigh (v : Nat) : Nat := field v 4 4

/-- A used step is well formed (R486). -/
def stepOk (v : Nat) : Bool :=
  Nat.ble (stepVolt v) 210 && stepKind v != 3 && Nat.ble (stepLow v) (stepHigh v) && field v 12 2 == 0 && field v 0 4 == 0

/-- A record of the table is well formed. -/
def waveOk (w : List Nat) (layer band : Nat) : Bool :=
  w.getD 0 0 == layer && w.getD 1 0 == band && within 1 64 (w.getD 2 0) && within 1 8 (w.getD 3 0) &&
    (List.range (w.getD 2 0)).all (fun k => stepOk (waveStep w false k)) &&
    (List.range (w.getD 3 0)).all fun k => stepOk (waveStep w true k)

/-- A whole table is well formed (R486): 5,380 bytes with the CRC. -/
def wavesOk (b : List Nat) : Bool :=
  (List.range 24).all (fun r => waveOk ((b.drop (224 * r)).take 224) (r / 8) (r % 8)) &&
    leValue ((b.drop 5376).take 4) == crc32 (b.take 5376)

/-- The levels of a gamma table do not fall with rising request (R500). -/
def gammaOk (b : List Nat) : Bool :=
  (List.range 3).all fun l => (List.range 255).all fun r =>
    let at_ (q : Nat) : Nat := field (b.getD (128 * l + q / 2) 0) (4 * (q % 2)) 4
    Nat.ble (at_ r) (at_ (r + 1))

/-! ### The shown record (R494) -/

/-- The 184 bytes of the shown record. -/
def PanelPart.shownRecord (p : PanelPart) : List Nat :=
  let lv (i : Nat) : Nat := p.shown.getD i 0 % 16
  let body := (List.range 144).map (fun m => lv (2 * m) + 16 * lv (2 * m + 1)) ++
    (List.range 36).map fun m => (List.range 8).foldl (fun v k => v + 2 ^ k * b2n (bitAt (p.shown.getD (8 * m + k) 0) 4)) 0
  body ++ leBytes 4 (crc32 body)

/-- The shown state of a record; every cell UNKNOWN without a valid one. -/
def shownOf (r : Option (List Nat)) : List Nat :=
  match r with
  | none => List.replicate 288 16
  | some b =>
    if leValue ((b.drop 180).take 4) = crc32 (b.take 180) then
      (List.range 288).map fun i => field (b.getD (i / 2) 0) (4 * (i % 2)) 4 + 16 * b2n (bitAt (b.getD (144 + i / 8) 0) (i % 8))
    else List.replicate 288 16

/-- The shown record written. -/
def State.storeShown (s : State) : State := (s.storeParam Reg.PANEL_SHOWN s.panel.shownRecord).2

/-- The frame memory with its CRC (R493, R500). -/
def PanelPart.frameMemory (p : PanelPart) : List Nat :=
  let m := p.requests ++ p.shown
  m ++ leBytes 4 (crc32 m)

/-- What DARK loads of the panel (R486, R494, R500). Power-up drives nothing. -/
def PanelPart.dark (n : Nv) : PanelPart :=
  let recs := (List.range 24).map fun r => n.stored (partKey Reg.WAVEFORMS r)
  let gam := (List.range 3).map fun l => n.stored (partKey Reg.GAMMA l)
  { requests := List.replicate 288 0
    shown := shownOf (n.stored Reg.PANEL_SHOWN)
    regions := List.replicate 8 { run := none, queued := none }
    lhRun := none, order := 0
    waves := if recs.all Option.isSome then some (recs.flatMap fun r => r.getD []) else none
    gamma := (List.range 3).flatMap fun l => (gam.getD l none).getD ((factoryGamma.drop (128 * l)).take 128)
    lighthouse := false, pattern := false, patternOn := false, band := 0, temp := 0, tempBad := false, tempLimit := false
    badSince := none, fallback := false, frameFault := false, driveFault := false, railBad := false, positive := false
    volt := 0, driving := [], selected := [], done := [] }

/-! ### Modes (R496, R497) -/

/-- Any key pressed (R504). -/
def KeyPart.anyPressed (k : KeyPart) : Bool := k.keys.any KeyUnit.pressed

/-- The panel mode that R496 asks for: true LIGHTHOUSE. -/
def State.wantLighthouse (s : State) : Bool :=
  (s.storm && s.reg Reg.STORM_PANEL == 1) ||
    (!s.keys.anyPressed && (s.reg Reg.PANEL_MODE == 1 || decide (s.power = .slack)))

/-- A waveform runs. -/
def PanelPart.busy (p : PanelPart) : Bool := p.lhRun.isSome || p.regions.any fun r => r.run.isSome

/-- Updates may start: no rail fault, no change of mode waiting (assumption 34), and not in STORM with `STORM_PANEL` 0. -/
def State.panelStarts (s : State) : Bool :=
  !s.pfail && !s.panel.railBad && s.wantLighthouse == s.panel.lighthouse && !(s.storm && s.reg Reg.STORM_PANEL == 0)

/-- Cell index and target level of a used lighthouse cell. -/
def State.lhTarget (s : State) (n : Nat) : Option (Nat × Nat) :=
  let v := s.reg (Reg.LH_CELL n)
  if !bitAt v 7 then none
  else
    let on := if s.panel.pattern then s.panel.patternOn else s.regBit Reg.LH_STATE n
    some (96 * s.reg Reg.LIGHTHOUSE_LAYER + 24 * field v 5 2 + field v 0 5, if on then s.reg Reg.LH_ON_LEVEL else 0)

/-- A cell's shown state is not the level asked. -/
def PanelPart.differs (p : PanelPart) (c : Nat × Nat) : Bool := p.shown.getD c.1 0 != c.2

/-! ### Updates (R489 to R492) -/

/-- Cells of a list marked UNKNOWN, their levels kept. -/
def PanelPart.markUnknown (p : PanelPart) (cells : List (Nat × Nat)) : PanelPart :=
  { p with shown := cells.foldl (fun l c => l.set c.1 (l.getD c.1 0 % 16 + 16)) p.shown }

/-- Cells of a list shown at their targets. -/
def PanelPart.showTargets (p : PanelPart) (cells : List (Nat × Nat)) : PanelPart :=
  { p with shown := cells.foldl (fun l c => l.set c.1 c.2) p.shown }

/-- A new run of cells at the band in force. -/
def PanelPart.newRun (p : PanelPart) (urgent full : Bool) (order : Nat) (cells : List (Nat × Nat)) : PanelRun :=
  { urgent := urgent, full := full, band := p.band, phase := .main, frame := 0, maxDiff := 0, cells := cells, pass := cells
    waves := p.wavesAt p.band, order := order }

/-- Region k. -/
def PanelPart.region (p : PanelPart) (k : Nat) : PanelRegion := p.regions.getD k { run := none, queued := none }

/-- Region k replaced. -/
def PanelPart.setRegion (p : PanelPart) (k : Nat) (r : PanelRegion) : PanelPart := { p with regions := p.regions.set k r }

/-- The layers a run drives: those of its region, or of its cells for the lighthouse run. -/
def State.runLayers (s : State) (k : Nat) : List Nat := regionLayers (s.reg (Reg.REGION_CELLS k))

/-- Layers in use by running updates. -/
def State.busyLayers (s : State) : List Nat :=
  ((List.range 8).flatMap fun k => if (s.panel.region k).run.isSome then s.runLayers k else []) ++
    (s.panel.lhRun.elim [] fun r => layersOf r.cells)

/-- An update completed (R489 step 5): its targets are shown, recorded and counted; region 8 stands for the lighthouse. -/
def State.finishUpdate (s : State) (k : Nat) (r : PanelRun) : State :=
  let p := s.panel.showTargets (r.cells ++ if r.phase = .redrive then r.pass else [])
  let p1 := if k = 8 then { p with lhRun := none } else { p.setRegion k { p.region k with run := none } with done := p.done ++ [k] }
  ((s.withPanel { p1 with driveFault := false }).storeShown).incSat Reg.UPDATES_DONE

/-- Frames of a pass: its longest layer. -/
def PanelRun.length (r : PanelRun) (layers : List Nat) : Nat :=
  layers.foldl (fun m l => max m (waveSteps (r.waves.getD l []) (r.phase == .exit))) 0

/-- A run replaced: of region k, or of the lighthouse for k = 8. -/
def State.setRun (s : State) (k : Nat) (r : Option PanelRun) : State :=
  s.withPanel (if k = 8 then { s.panel with lhRun := r } else s.panel.setRegion k { s.panel.region k with run := r })

/-- The end of the MAIN pass (R492): done, a correction pass, or a re-drive. -/
def State.endMain (s : State) (k : Nat) (r : PanelRun) : State :=
  let p := s.panel
  if 2 ≤ r.maxDiff then
    let all := if k = 8 then r.cells else (regionCells (s.reg (Reg.REGION_CELLS k))).map fun c =>
      (c, ((r.cells.find? fun x => x.1 == c).map Prod.snd).getD (p.shown.getD c 0 % 16))
    (s.setRun k (some { r with phase := .redrive, frame := 0, pass := all, waves := p.wavesAt p.band })).incSat Reg.BAND_REDRIVES
  else if r.maxDiff = 1 ∧ p.band ≠ r.band then
    let part := r.cells.filter fun c => within 1 14 c.2
    let s1 := s.incSat Reg.BAND_CORRECTIONS
    if part.isEmpty then s1.finishUpdate k r
    else s1.setRun k (some { r with phase := .correct, frame := 0, pass := part, waves := p.wavesAt p.band })
  else s.finishUpdate k r

/-- One run at a drive frame boundary: a frame more is done; at the end of its pass it moves on. -/
def State.advanceRun (s : State) (k : Nat) (r0 : PanelRun) (layers : List Nat) : State :=
  let d := if s.panel.band < r0.band then r0.band - s.panel.band else s.panel.band - r0.band
  let r := { r0 with frame := r0.frame + 1, maxDiff := if r0.phase = .main then max r0.maxDiff d else r0.maxDiff }
  if r.frame < r.length layers then s.setRun k (some r)
  else
    match r.phase with
    | .main => s.endMain k r
    | .exit =>
      let p := s.panel.showTargets (r.cells.map fun c => (c.1, 0))
      (s.withPanel p).setRun k none
    | .correct => s.finishUpdate k r
    | .redrive => s.finishUpdate k r

/-- Every run at a drive frame boundary. -/
def State.advanceRuns (s : State) : State :=
  let s1 := (List.range 8).foldl (fun t k => match (t.panel.region k).run with
    | some r => t.advanceRun k r (t.runLayers k)
    | none => t) s
  match s1.panel.lhRun with
  | some r => s1.advanceRun 8 r (layersOf r.cells)
  | none => s1

/-- A run stopped for an URGENT update of region `by_` (R491). -/
def State.cutRun (s : State) (by_ k : Nat) (r : PanelRun) : State :=
  let p := s.panel
  let back := k ≠ 8 ∧ k ≠ by_ ∧ (p.region k).queued.isNone
  let p1 := if back then
      p.setRegion k { p.region k with queued := some { urgent := false, full := r.full, order := r.order } }
    else p
  ((s.withPanel p1).setRun k (some { r with phase := .exit, frame := 0, pass := r.cells })).incSat Reg.URGENT_CUTS

/-- Queued URGENT updates cut what runs on their layers and is not URGENT (R491). -/
def State.cutsFor (s : State) (by_ : Nat) : State :=
  let layers := s.runLayers by_
  let hits (k : Nat) (t : State) : Bool :=
    ((if k = 8 then t.panel.lhRun.elim [] (fun r => layersOf r.cells) else t.runLayers k).any layers.contains)
  let cut (t : State) (k : Nat) : State :=
    match (if k = 8 then t.panel.lhRun else (t.panel.region k).run) with
    | some r => if !r.urgent && r.phase != .exit && hits k t then t.cutRun by_ k r else t
    | none => t
  (List.range 9).foldl cut s

/-- A frame memory that fails its check (R493). -/
def State.frameMemoryFault (s : State) : State :=
  let p := s.panel
  (s.withPanel { p with
    frameFault := true
    requests := List.replicate 288 0
    shown := shownOf (s.nv.stored Reg.PANEL_SHOWN)
    regions := p.regions.map fun r => { r with queued := none } }).incSat Reg.FRAME_CRC_FAILS

/-- An update started (R489 steps 2 to 4): with an empty run set it completes at once. -/
def State.startUpdate (s : State) (k : Nat) (q : PanelQueued) : State :=
  let p := s.panel
  let all := (regionCells (s.reg (Reg.REGION_CELLS k))).map fun c => (c, p.level (cellLayer c) (p.requests.getD c 0))
  let set := if q.full then all else all.filter p.differs
  let r := p.newRun q.urgent q.full q.order set
  let p1 := p.setRegion k { run := some r, queued := none }
  if set.isEmpty then (s.withPanel p1).finishUpdate k r
  else (s.withPanel (p1.markUnknown set)).storeShown

/-- The queued updates in the order they start: URGENT first, then by their writes (R489). -/
def PanelPart.startOrder (p : PanelPart) : List Nat :=
  let q := (List.range 8).filterMap fun k => (p.region k).queued.map fun x => (k, x)
  let by_ (u : Bool) : List Nat :=
    ((q.filter fun x => x.2.urgent == u).mergeSort fun a b => Nat.ble a.2.order b.2.order).map Prod.fst
  by_ true ++ by_ false

/-- Region k's queued update started if it can be; `ok`: the frame memory passes its check. -/
def State.tryStart (s : State) (ok : Bool) (k : Nat) : State :=
  match (s.panel.region k).queued, (s.panel.region k).run with
  | some q, none =>
    if (s.runLayers k).any s.busyLayers.contains then s
    else if ok then s.startUpdate k q else s.frameMemoryFault
  | _, _ => s

/-- The starts of a drive frame boundary. -/
def State.startAll (s : State) (ok : Bool) : State :=
  if !s.panelStarts then s
  else if s.panel.lighthouse then
    let cells := ((List.range 8).filterMap s.lhTarget).filter s.panel.differs
    if s.panel.lhRun.isSome || cells.isEmpty then s
    else if !ok then s.frameMemoryFault
    else
      let p := { s.panel with lhRun := some (s.panel.newRun false false 0 cells) }
      (s.withPanel (p.markUnknown cells)).storeShown
  else
    let cut := ((List.range 8).filter fun k => (s.panel.region k).queued.any PanelQueued.urgent).foldl State.cutsFor s
    cut.panel.startOrder.foldl (State.tryStart · ok ·) cut

/-! ### What the outputs do in a drive frame (R483, R485) -/

/-- Steps driven in this frame, with the layer and the cells of the pass on it. -/
def State.stepsNow (s : State) : List (Nat × Nat × List (Nat × Nat)) :=
  let of (r : PanelRun) (layers : List Nat) : List (Nat × Nat × List (Nat × Nat)) :=
    layers.filterMap fun l =>
      let w := r.waves.getD l []
      if r.frame < waveSteps w (r.phase == .exit) then
        some (l, waveStep w (r.phase == .exit) r.frame, r.pass.filter fun c => cellLayer c.1 == l)
      else none
  ((List.range 8).flatMap fun k => (s.panel.region k).run.elim [] fun r => of r (s.runLayers k)) ++
    s.panel.lhRun.elim [] fun r => of r (layersOf r.cells)

/-- The outputs of the frame: layers driven, cells selected, VPNL. Where running layers ask for different voltages, the one
rail has none the spec gives: a free value (assumption 35). -/
def State.drivePanel (s : State) : State :=
  let steps := s.stepsNow.filter fun x => stepKind x.2.1 != 2
  let sel := steps.flatMap fun x =>
    (x.2.2.filter fun c => stepKind x.2.1 == 0 || within (stepLow x.2.1) (stepHigh x.2.1) c.2).map Prod.fst
  let volts := (steps.map fun x => stepVolt x.2.1).eraseDups
  let p := { s.panel with driving := (steps.map Prod.fst).eraseDups, selected := sel }
  match volts with
  | [] => s.withPanel { p with volt := 0 }
  | [v] => s.withPanel { p with volt := v }
  | _ => (s.withPanel { p with volt := s.free }).tickFree

/-- The shutdown of the drive (R494 at PFAIL, R495): every output at 0 V, running waveforms gone. -/
def PanelPart.stopDrive (p : PanelPart) : PanelPart :=
  { p with regions := p.regions.map (fun r => { r with run := none }), lhRun := none, driving := [], selected := [], volt := 0 }

/-! ### Temperature (R487) -/

/-- The band after a temperature in m°C, from a band in force: up at an upper boundary plus 0.5 °C, down at a lower one less
0.5 °C, across as many boundaries as it takes. -/
def bandAfter (t : Int) (band : Nat) : Nat :=
  if t < -20000 then 0
  else if 70000 < t then 7
  else
    let up : Nat := (List.range 8).foldl (fun (b : Nat) _ => if b < 7 ∧ -20000 + 11250 * ((b : Int) + 1) + 500 ≤ t then b + 1 else b) band
    (List.range 8).foldl (fun (b : Nat) _ => if 0 < b ∧ t ≤ -20000 + 11250 * (b : Int) - 500 then b - 1 else b) up

/-- A temperature taken. -/
def PanelPart.takeTemp (p : PanelPart) (t : Int) : PanelPart :=
  { p with temp := clampI (-32768) 32767 (rdiv t 10), band := bandAfter t p.band
           tempLimit := decide (t < -20000) || decide (70000 < t) }

/-- The panel temperature taken at a drive frame boundary (R487). -/
def State.panelTemp (s : State) : State :=
  let p := s.panel
  let ch := s.reg Reg.PANEL_TEMP_CHANNEL
  if s.aiGood ch then
    s.withPanel ({ p with tempBad := false, badSince := none, fallback := false }.takeTemp (s.aiValue ch))
  else
    let q := { p with tempBad := true, badSince := some (p.badSince.getD s.now) }
    s.withPanel (if p.fallback && s.aiGood 43 then q.takeTemp (s.aiValue 43) else q)

/-! ### Entries -/

/-- `PANEL_STATUS` (R499). -/
def State.panelStatus (s : State) : Nat :=
  let p := s.panel
  b2n (!p.driving.isEmpty) + 2 * b2n p.pattern + 4 * b2n p.tempLimit + 8 * b2n p.tempBad + 16 * b2n p.frameFault +
    32 * b2n p.driveFault + 64 * b2n p.waves.isNone

/-- `REGION_STATE` of region k (R498). -/
def PanelPart.regionState (p : PanelPart) (k : Nat) : Nat :=
  let r := p.region k
  let st := match r.run with
    | none => 0
    | some x => (match x.phase with
      | .main => 1
      | .exit => 2
      | .correct => 3
      | .redrive => 3) + 128 * x.band + 1024 * (x.frame % 64)
  st + 8 * b2n r.queued.isSome + 16 * b2n (r.queued.any PanelQueued.urgent) + 32 * b2n (r.queued.any PanelQueued.full)

/-! ### Keys (R501 to R507) -/

def KeyUnit.idle : KeyUnit :=
  { pressed := false, agree := 0, amb := false, stuck := false, blocked := false, since := 0, repeats := 0, longed := false }

/-- Key k = 1 to 36, and its replacement. -/
def KeyPart.key (p : KeyPart) (k : Nat) : KeyUnit := p.keys.getD (k - 1) KeyUnit.idle
def KeyPart.setKey (p : KeyPart) (k : Nat) (u : KeyUnit) : KeyPart := { p with keys := p.keys.set (k - 1) u }

/-- Types of key events (R507). -/
def kePress : Nat := 0
def keRelease : Nat := 1
def keRepeat : Nat := 2
def keLong : Nat := 3
def keStuck : Nat := 4
def keAmbiguous : Nat := 5

/-- A key event raised (R502, R507): the newest is discarded when the FIFO of 32 is full. -/
def State.keyEvent (s : State) (k typ : Nat) : State :=
  let v := 2 ^ 24 * k + 2 ^ 20 * typ + s.tick % 65536
  let s1 := (s.incSat Reg.KEY_EVENTS).setReg Reg.KEY_LAST_EVENT v
  if s1.keys.fifo.length < 32 then s1.withKeys { s1.keys with fifo := s1.keys.fifo ++ [v] }
  else s1.incSat Reg.KEY_EVENTS_LOST

/-- Row and column of a key, each less one, and the key of both. -/
def keyRow (k : Nat) : Nat := (k - 1) / 6
def keyCol (k : Nat) : Nat := (k - 1) % 6
def keyAt (r c : Nat) : Nat := 6 * r + c + 1

/-- The triples of keys that complete a rectangle with key k. -/
def rectangles (k : Nat) : List (List Nat) :=
  (List.range 6).flatMap fun r => (List.range 6).filterMap fun c =>
    if r = keyRow k ∨ c = keyCol k then none
    else some [keyAt r (keyCol k), keyAt (keyRow k) c, keyAt r c]

/-- The accepted corners of the rectangles that key k completes within a set of keys. -/
def cornersOf (accepted : Nat → Bool) (k : Nat) : List Nat := ((rectangles k).filter fun t => t.all accepted).flatten

/-- A key press or release outside SLACK restarts a running wake hold; a press in SLACK wakes (R504, R523). -/
def State.keyWake (s : State) (press : Bool) : State :=
  if (press && decide (s.power = .slack)) || s.pwr.hold.isSome then s.wake else s

/-- A key accepted as pressed. -/
def State.keyPress (s : State) (k : Nat) : State :=
  let u := s.keys.key k
  let s1 := s.withKeys (s.keys.setKey k { u with
    pressed := true, agree := 0, since := s.now, repeats := 0, longed := false, stuck := false, blocked := false })
  (s1.keyEvent k kePress).keyWake true

/-- A key released: STUCK clears, and the AMBIGUOUS keys it held (R503, R504); `closed` is the scan. -/
def State.keyRelease (s : State) (closed : Nat → Bool) (k : Nat) : State :=
  let u := s.keys.key k
  let p := s.keys.setKey k { u with pressed := false, agree := 0, stuck := false, amb := false }
  let held (j : Nat) : Bool := (p.key j).pressed
  let still : List Nat := (List.range 36).flatMap fun i =>
    if closed (i + 1) && !held (i + 1) then cornersOf held (i + 1) else []
  let q := if u.amb then
      { p with keys := (List.range 36).map fun i => { p.key (i + 1) with amb := (p.key (i + 1)).amb && still.contains (i + 1) } }
    else p
  ((s.withKeys q).keyEvent k keRelease).keyWake false

/-- One position blocked: counted once, its accepted corners AMBIGUOUS with one event each (R503). -/
def State.keyBlock (s : State) (held : Nat → Bool) (k : Nat) : State :=
  let u := s.keys.key k
  let s1 := s.withKeys (s.keys.setKey k { u with blocked := true, agree := 0 })
  let s2 := if u.blocked then s1 else s1.incSat Reg.KEY_BLOCKED
  (cornersOf held k).eraseDups.foldl (fun t j =>
    if (t.keys.key j).amb || !(t.keys.key j).pressed then t
    else (t.withKeys (t.keys.setKey j { t.keys.key j with amb := true })).keyEvent j keAmbiguous) s2

/-- One scan (R501 to R503): releases, ghosts, then presses. -/
def State.scanKeys (s : State) (closed : Nat → Bool) : State :=
  let need := s.reg Reg.KEY_DEBOUNCE
  let ks := (List.range 36).map (· + 1)
  let s0 := ks.foldl (fun t k =>
    let u := t.keys.key k
    if u.pressed = closed k then t.withKeys (t.keys.setKey k { u with agree := 0, blocked := u.blocked && closed k })
    else t.withKeys (t.keys.setKey k { u with agree := u.agree + 1 })) s
  let off := ks.filter fun k => (s0.keys.key k).pressed && Nat.ble need (s0.keys.key k).agree
  let s1 := off.foldl (fun t k => t.keyRelease closed k) s0
  let held (k : Nat) : Bool := (s1.keys.key k).pressed
  let fresh (k : Nat) : Bool := closed k && !held k
  let due (k : Nat) : Bool := fresh k && Nat.ble need (s1.keys.key k).agree
  let ghosts := if s1.reg Reg.KEY_DIODES = 1 then []
    else ks.filter fun k => (fresh k && !(cornersOf held k).isEmpty) ||
      (due k && !(cornersOf (fun j => held j || due j) k).isEmpty)
  let s2 := ghosts.foldl (fun t k => t.keyBlock (fun j => held j) k) s1
  let s3 := ks.foldl (fun t k =>
    if fresh k && !ghosts.contains k then t.withKeys (t.keys.setKey k { t.keys.key k with blocked := false }) else t) s2
  (ks.filter fun k => due k && !ghosts.contains k).foldl State.keyPress s3

/-- Both reset keys pressed, neither blocked (R505). -/
def State.resetKeysHeld (s : State) : Bool :=
  let v := s.reg Reg.RESET_KEYS
  let a := field v 8 8
  let b := field v 0 8
  decide (v ≠ 0) && (s.keys.key a).pressed && (s.keys.key b).pressed

/-- The harbourmaster's watch of the reset keys (R505). -/
def State.watchResetKeys (s : State) : State :=
  s.withKeys { s.keys with both := if s.resetKeysHeld then some (s.keys.both.getD s.now) else none }

/-- Bit mask of keys with a property. -/
def KeyPart.bits (p : KeyPart) (f : KeyUnit → Bool) : Nat :=
  (List.range 36).foldl (fun v k => v + 2 ^ k * b2n (f (p.key (k + 1)))) 0

end Sys2Proof.Machine
end

