-- ==== Sys2Proof/Machine/SlipOps.lean ====
section
/-!
DEFINITION. Shared operations of the slipway: images and their verification, commit, and the boot verifier (R526 to R535).
-/
namespace Sys2Proof.Machine

/-! ### Images (R526, R527) -/

/-- Checks 2 to 5 of R527. -/
def imgSigned (floor : Nat) (b : List Nat) : Bool :=
  Config.keyUsable (imgKey b) && Config.signatureVerifies (imgKey b) (b.take 96) ((b.drop 96).take 64) &&
    Config.sha256 ((b.take (imgLength b)).drop 256) == (b.drop 64).take 32 && Nat.ble floor (imgEpoch b)

/-- The verification of an image (R527). -/
def State.verifyImage (s : State) (b : List Nat) : Status :=
  if !imgShape b then .range else if imgSigned (s.reg Reg.SECURITY_FLOOR) b then .ok else .signature

/-- A slot's content: true slot B. -/
def SlipPart.slot (p : SlipPart) (b : Bool) : List Nat := if b then p.imageB else p.imageA

/-- A slot's content replaced. -/
def SlipPart.putSlot (p : SlipPart) (b : Bool) (v : List Nat) : SlipPart := if b then { p with imageB := v } else { p with imageA := v }

/-- Quay q reads the checkpoints that the other quay's firmware writes (R235, R530). -/
def State.canRead (s : State) (q : Quay) : Bool :=
  let mine := (s.quay q).head
  let theirs := (s.quay q.other).head
  within (imgReadMin mine) (imgReadMax mine) (imgWrites theirs)

/-! ### Staging (R530) -/

/-- SLIP_IMAGE opened for writing: the target is the slot that the active quay does not run. -/
def State.slipOpen (s : State) : State :=
  s.withSlip { s.slip with state := 1, targetB := !s.runsB, image := [], started := false, version := 0, progress := 0, lastStatus := 0 }

/-- Staged bytes of an open SLIP_IMAGE: the header's arrival writes SLIP_START. -/
def State.slipStage (s : State) (bytes : List Nat) : State :=
  let p := s.slip
  let img := p.image ++ bytes
  if !p.started && Nat.ble 256 img.length then
    (s.withSlip { p with image := img, started := true, version := fwVersion img }).pushLog Lt.SLIP_START
      ([b2n p.targetB, 0] ++ leBytes 4 (fwVersion img))
  else s.withSlip { p with image := img }

/-- The last segment: the checks' status answers it, and the slipway is VERIFYING. -/
def State.slipStaged (s : State) : Status × State :=
  let st := s.verifyImage s.slip.image
  (st, s.withSlip { s.slip with state := 2, lastStatus := st.code })

/-! ### Commit (R530) -/

/-- The update committed: `BOOT_SLOT`, the floor, the tally, IDLE. -/
def State.slipCommit (s : State) : Status × State :=
  let p := s.slip
  let img := p.slot p.targetB
  andThen (s.putEntry Reg.BOOT_SLOT (b2n p.targetB)) fun t =>
    let t1 := if imgAdvance img then t.setReg Reg.SECURITY_FLOOR (max (t.reg Reg.SECURITY_FLOOR) (imgEpoch img)) else t
    let t2 := (t1.countTally Reg.SLIP_COMMITS).withPwr { t1.pwr with bootB := p.targetB }
    (t2.withSlip { p with state := 0, marker := false, probation := none, loading := none, newFormat := false, image := [] }).raiseIrq
      irqSlipway

/-! ### The boot verifier (R528) -/

/-- The marker of a swap found at DARK. -/
def State.bootMarker (s : State) : State :=
  if !s.slip.marker then s
  else
    let old := s.reg Reg.BOOT_SLOT == 1
    (s.withSlip { s.slip with marker := false }).pushLog Lt.SLIP_ROLLBACK
      ([b2n old, 3] ++ leBytes 4 (fwVersion (s.slip.slot old)))

/-- Steps 2 to 4: `BOOT_SLOT`'s image, else the other's, else none. -/
def State.bootNormal (s : State) : State :=
  let first := s.reg Reg.BOOT_SLOT == 1
  if s.verifyImage (s.slip.slot first) = .ok then s.withPwr { s.pwr with imageOk := true, bootB := first }
  else if s.verifyImage (s.slip.slot !first) = .ok then
    let t := (s.withPwr { s.pwr with imageOk := true, bootB := !first }).withSlip { s.slip with fallback := true }
    t.pushLog Lt.SLIP_REJECT ([b2n first, Status.signature.code] ++ leBytes 4 (fwVersion (s.slip.slot first)))
  else s.withSlip { s.slip with noFirmware := true }

/-- The choice of the image that both quays load. -/
def State.bootVerify (s0 : State) : State :=
  let s := s0.bootMarker
  let trial := s.reg Reg.BOOT_TRIAL
  if 1 < trial then s.bootNormal
  else
    let t := (s.putEntry Reg.BOOT_TRIAL 0xFF).2
    let b := trial == 1
    let old := t.reg Reg.BOOT_SLOT == 1
    if t.verifyImage (t.slip.slot b) = .ok then
      (t.withPwr { t.pwr with imageOk := true, bootB := old }).withSlip
        { t.slip with state := 7, targetB := b, version := fwVersion (t.slip.slot b) }
    else (t.pushLog Lt.SLIP_ROLLBACK ([b2n old, 4] ++ leBytes 4 (fwVersion (t.slip.slot old)))).bootNormal

end Sys2Proof.Machine
end

