-- ==== Sys2Proof/Machine/ResetOps.lean ====
section
/-!
DEFINITION. The ways into DARK and the work of DARK: device reset, tide start, load of what the MRAM keeps, power-down (R24 to R26,
R301, R415, R421, R427, R428, R446, R464, R511 to R517).
-/
namespace Sys2Proof.Machine

/-- Entries of the register map that a device reset leaves: the mooring domain's settings (R464), what a FACTORY write put into
NOR (R111), and the fused floor (R535). -/
def keptKeys : List Nat := rtcSettings ++ [Reg.RESP_HIGH, Reg.RESP_LOW, Reg.SECURITY_FLOOR]

/-- The register map with only the kept entries off their defaults. -/
def State.keptRegs (s : State) (base : SMap) : SMap :=
  keptKeys.foldl (fun m k => smapSet (keyDefault k) k (s.reg k) m) base

/-- DARK entered with a cause (R415, R517): everything volatile starts again, the tide has not started; the MRAM, NOR, the
mooring domain and the feeds go on. -/
def State.toDark (s : State) (cause : ResetCause) : State :=
  { regs := s.keptRegs [], phase := .dark, power := .full, pfail := false, tide := Tide.reset, mains := Mains.reset
    hm := Hm.reset s.hm.summary, klp := { Klp.reset with resetCause := cause.code }, nv := s.nv.restart, log := s.log.dark
    rtc := s.rtc, bus := BusPart.reset, berth := BerthPart.reset, loop := LoopPart.reset, act := ActPart.reset
    sens := SensPart.reset, focal := FocalPart.reset, pipe := PipePart.reset s.pipe.factory s.pipe.blindFactory s.pipe.table
    cal := CalPart.reset, video := VideoPart.reset, panel := PanelPart.reset, keys := KeyPart.reset
    pwr := { PwrPart.reset s.rtc.ticks with presA := s.pwr.presA, presB := s.pwr.presB, absA := s.pwr.absA, absB := s.pwr.absB, ovA := s.pwr.ovA, ovB := s.pwr.ovB }
    slip := SlipPart.reset s.slip.imageA s.slip.imageB s.slip.marker, jtag := s.jtag, freeCtr := s.freeCtr
    pending := s.pending }

/-- The work of DARK after the tide start (R517): stored entries, quick-save, panel records, tallies, the POWER_UP and
POWER_DOWN_SAVE records, storm values, the fan-table engine. -/
def State.darkLoad (s : State) : State :=
  let s1 := s.loadStored
  let s2 := { s1 with regs := s.keptRegs s1.regs, panel := PanelPart.dark s1.nv }
  let code := s2.nv.newerSlot
  let s3 := s2.withNv { s2.nv with loaded := code }
  let s4 := match s3.nv.stored Reg.FAN_TABLES with
    | some b => { s3 with loop := { s3.loop with tables := b, defaultTable := false } }
    | none => s3
  let s5 := if s4.klp.resetCause = 0 then s4.countTally Reg.POWER_UPS else s4
  let s6 := (List.range 8).foldl State.checkTally s5
  s6.timeLost

/-- The records of DARK (R448). -/
def State.darkRecords (s : State) : State :=
  let s1 := s.pushLog Lt.POWER_UP ([s.klp.resetCause, s.nv.loaded, 0, 0] ++ leBytes 4 (s.tallyValue Reg.POWER_UPS))
  match s1.nv.slot s1.nv.loaded with
  | some q => s1.pushLog Lt.POWER_DOWN_SAVE (leBytes 4 q.seq ++ leBytes 2 q.duration ++ leBytes 2 q.content.length)
  | none => s1

/-- The mains phase unit as its mode has it at tide start: with the default mode it free-runs (R44). -/
def State.mainsStart (s : State) : State :=
  (s.setReg Reg.MAINS_STATE (if s.reg Reg.MAINS_MODE = 0 then msOff else msFree)).setReg Reg.HALF_PERIOD
    (nominalHalf (s.reg Reg.MAINS_NOMINAL))

/-- The tide starts with T64 at 0 (R24, R26). -/
def State.tideStart (s : State) (src : ClockSrc) : State :=
  let lost := decide (src ≠ .master)
  let t := { Tide.reset with running := true, source := src, masterLost := lost, degraded := lost, frameDegraded := lost }
  let s1 := { s with tide := t }.darkLoad
  let s2 := ((s1.setReg Reg.TIDE_START_TICKS s.rtc.ticks).setReg Reg.RATE_ACTIVE (s1.reg Reg.RATE_MODE)).mainsStart
  let s3 := ((s2.darkRecords).applyStorms).enterAutonomous 2
  s3.engineHolds

/-- A fan channel at PFAIL (R312). -/
def State.fanAtPfail (s : State) (c : Nat) : FanUnit :=
  if s.regBit Reg.FAN_PFAIL_RUN c then s.fan c else { s.fan c with pfailOff := true }

/-- PFAIL (R513, R427): the array, the pipeline, the window, the ledger, the buses, the stream, the fans and the panel stop. -/
def State.powerFail (s : State) (us : Nat) : State :=
  let s0 := { s.alarmOf 0x2090 1 (s.reg Reg.VHOLD_MV / 10) 0 with pfail := true }.raiseIrq irqPower
  let had := s0.nv.openWord.isSome
  let s1 := s0.closeOpen
  let s2 := if had then s1.countTally Reg.NV_PFAIL_MERGES else s1
  let s3 := s2.withNv { s2.nv with wel := false, compacting := false }
  let s4 := { s3 with
    focal := { s3.focal with bias := false }
    pipe := { s3.pipe with on := false, line := none }
    video := { s3.video with running := false, startDue := false, stopDue := false, plane := none, packets := [] }
    panel := s3.panel.stopDrive
    act := { s3.act with fans := (List.range 2).map s3.fanAtPfail } }
  s4.quickSave us

/-- The device reset with a cause (R415, R505, R223). -/
def State.deviceReset (s : State) (cause : ResetCause) : State := s.toDark cause

/-- Every queued record written, as the recorder does in the 10 ms before a reset. -/
def State.flushLog : Nat → State → State
  | 0, s => s
  | fuel + 1, s => if s.log.queue.isEmpty then s else State.flushLog fuel s.writeRecord

end Sys2Proof.Machine
end

