-- ==== Sys2Proof/Machine/Panel.lean ====
section
/-!
DEFINITION. The commands of the status panel and of the key matrix (R482 to R507).
-/
namespace Sys2Proof.Machine

/-- The panel driver has its power and its clock (R494, R513). -/
def State.panelLive (s : State) : Bool := s.tide.running && s.pwr.rails && !s.pfail

/-! ### Drive -/

/-- DRIVE_FRAME (R483, R487, R489 to R492): a drive frame boundary. The temperature is taken, running passes move on by the
frame that ended, waiting updates start, and the outputs take the steps of the new frame. -/
def execDriveFrame (ok : Bool) (s : State) : Out :=
  .next (if s.panelLive then
    let s1 := s.withPanel { s.panel with done := [], positive := !s.panel.positive }
    ((s1.panelTemp.advanceRuns).startAll ok).drivePanel
  else s)

/-- DRIVE_FAULT (R495): VPNL lay outside ±5 % of the step in two consecutive slots. Nothing to stop where no layer is driven. -/
def execDriveFault (s : State) : Out :=
  .next (if s.panelLive && s.panel.busy then
    (s.withPanel { s.panel.stopDrive with driveFault := true, railBad := true }).incSat Reg.DRIVE_FAULTS
  else s)

/-- DRIVE_RAIL_RECOVERED (R495): the rail has regulated for 1 s. -/
def execDriveRailRecovered (s : State) : Out := .next (s.withPanel { s.panel with railBad := false })

/-- PANEL_TEMP_FALLBACK (R487): after 10 s of bad results channel 43 serves until the named channel is good again. -/
def execPanelTempFallback (s : State) : Out :=
  .next (match s.panel.badSince with
    | some t =>
      if s.waited t (10 * clkSec) then
        let p := { s.panel with fallback := true }
        s.withPanel (if s.aiGood 43 then p.takeTemp (s.aiValue 43) else p)
      else s
    | none => s)

/-- FRAME_MEMORY_CHECK (R493): the check of every second; `ok` says whether the CRC matches. -/
def execFrameMemoryCheck (ok : Bool) (s : State) : Out :=
  .next (if s.panelLive && !ok then s.frameMemoryFault else s)

/-! ### Regions -/

/-- The rule of `REGION_UPDATE` (R489, R490, R498): a region with no update running or queued takes a queued update, one with a
queued update has it replaced. -/
def regionUpdateRule (s : State) (v : Nat) : Status × State :=
  let k := field v 0 3
  if field v 3 3 ≠ 0 ∨ s.reg (Reg.REGION_CELLS k) = 0 then (.range, s)
  else
    let r := s.panel.region k
    let q : PanelQueued := { urgent := bitAt v 7, full := bitAt v 6, order := s.panel.order }
    let p := { s.panel.setRegion k { r with queued := some q } with order := s.panel.order + 1 }
    let t := s.withPanel p
    (.ok, if r.queued.isSome then t.incSat Reg.QUEUE_REPLACED else t)

/-- REGION_UPDATE_WRITE (R490). -/
def execRegionUpdateWrite (w : Wr) (s : State) : Out := .next (s.ledgerWrite w Reg.REGION_UPDATE regionUpdateRule)

/-- The cells of a region value are free: in no other defined region. -/
def State.cellsFree (s : State) (n v : Nat) : Bool :=
  (List.range 8).all fun k => k == n || (regionCells (s.reg (Reg.REGION_CELLS k))).all fun c => !inRegion v c

/-- The rule of `REGION_CELLS` n (R488). -/
def regionCellsRule (n : Nat) (s : State) (v : Nat) : Status × State :=
  let r := s.panel.region n
  if r.run.isSome ∨ r.queued.isSome then (.busy, s)
  else if v = 0 then s.putEntry (Reg.REGION_CELLS n) v
  else if bitAt v 31 ∨ field v 28 3 = 0 ∨ field v 4 24 = 0 ∨ field v 0 4 = 0 ∨ s.cellsFree n v = false then (.range, s)
  else s.putEntry (Reg.REGION_CELLS n) v

/-- REGION_CELLS_WRITE (R488). -/
def execRegionCellsWrite (n : Nat) (w : Wr) (s : State) : Out :=
  .next (s.ledgerWrite w (Reg.REGION_CELLS n) (regionCellsRule n))

/-! ### Modes -/

/-- PANEL_MODE_CHANGE (R496): the mode in force follows what R496 asks for once every running waveform has completed. -/
def execPanelModeChange (s : State) : Out :=
  .next (if s.panel.busy then s else s.withPanel { s.panel with lighthouse := s.wantLighthouse })

/-- STORM_PATTERN_TOGGLE (R497): every 2 s in STORM with `STORM_PANEL` 1. -/
def execStormPatternToggle (s : State) : Out :=
  .next (if s.storm && s.reg Reg.STORM_PANEL == 1 then
    s.withPanel { s.panel with pattern := true, patternOn := !s.panel.patternOn } else s)

/-! ### Keys -/

/-- KEY_SCAN (R501 to R505): bit k − 1 of `closed` is set where key k's position reads closed. -/
def execKeyScan (closed : Nat) (s : State) : Out :=
  .next (if s.panelLive then (s.scanKeys fun k => bitAt closed (k - 1)).watchResetKeys else s)

/-- Key k is pressed and not STUCK. -/
def State.keyHeld (s : State) (k : Nat) : Bool := within 1 36 k && (s.keys.key k).pressed && !(s.keys.key k).stuck

/-- KEY_REPEAT (R502): at `KEY_REPEAT_DELAY`, then every `KEY_REPEAT_PERIOD`. -/
def execKeyRepeat (n : Nat) (s : State) : Out :=
  .next (
    let u := s.keys.key n
    let due := clkMs * (s.reg Reg.KEY_REPEAT_DELAY + u.repeats * s.reg Reg.KEY_REPEAT_PERIOD)
    if s.keyHeld n && s.reg (Reg.KEY_MODE (n - 1)) == 1 && s.waited u.since due then
      (s.withKeys (s.keys.setKey n { u with repeats := u.repeats + 1 })).keyEvent n keRepeat
    else s)

/-- KEY_LONG (R502): once, at `KEY_LONG_TIME`. -/
def execKeyLong (n : Nat) (s : State) : Out :=
  .next (
    let u := s.keys.key n
    if s.keyHeld n && s.reg (Reg.KEY_MODE (n - 1)) == 2 && !u.longed && s.waited u.since (clkMs * s.reg Reg.KEY_LONG_TIME) then
      (s.withKeys (s.keys.setKey n { u with longed := true })).keyEvent n keLong
    else s)

/-- KEY_STUCK (R504): held beyond `KEY_STUCK_TIME`. -/
def execKeyStuck (n : Nat) (s : State) : Out :=
  .next (
    let u := s.keys.key n
    if s.keyHeld n && s.waited u.since (clkSec * s.reg Reg.KEY_STUCK_TIME) then
      ((s.withKeys (s.keys.setKey n { u with stuck := true })).keyEvent n keStuck).pushLog Lt.KEY_STUCK [n]
    else s)

/-- KEY_RESET (R505): both reset keys held without a break for 6 s. The record is written, then the device resets. -/
def execKeyReset (s : State) : Out :=
  .next (match s.keys.both with
    | some t =>
      if s.waited t (6 * clkSec) && s.resetKeysHeld then
        let v := s.reg Reg.RESET_KEYS
        (State.flushLog 257 (s.pushLog Lt.KEY_RESET [field v 8 8, field v 0 8])).deviceReset .keys
      else s
    | none => s)

end Sys2Proof.Machine
end

