-- ==== Sys2Proof/Machine/Power.lean ====
section
/-!
DEFINITION. The commands of power and bring-up (R508 to R525, R528).
-/
namespace Sys2Proof.Machine

/-! ### Bring-up (R511, R515 to R519, R528) -/

/-- POWER_DIE_START (R516): from MOORED or OFF the rails come up and DARK begins; TEST_EN is sampled (R556). -/
def execPowerDieStart (testEn : Bool) (s : State) : Out :=
  .next (if s.pwr.rails || s.pwr.railHeld then s else { s.toDark .powerUp with jtag := JtagPart.reset testEn })

/-- BOOT_VERIFY_DONE (R528), once the tide runs, in a DARK that has no image yet. -/
def execBootVerifyDone (s : State) : Out :=
  .next (if s.phase = .dark ∧ s.tide.running = true ∧ s.pwr.imageOk = false ∧ s.pfail = false then s.bootVerify else s)

/-- A quay starts its self-test at LIGHTS with the image chosen (R228, R517). -/
def State.lightsQuay (s : State) (q : Quay) : State :=
  s.setQuay q { s.quay q with st := .selfTest, inReset := false, passHeld := false, imageB := s.wantedB, head := s.headOf s.wantedB }

/-- A channel enters RESTRICTED with its probe (R360). -/
def State.lightsBus (s : State) (c : Bus) : State :=
  s.setChan c { s.chan c with active := .restricted, integrated := false, probe := some 0 }

/-- The shutter found CLOSED or in TRAVEL is driven towards OPEN (R519). -/
def State.lightsShutter (s : State) : State :=
  if s.focal.shutter.reading ≠ 0 ∧ s.focal.shutter.present = true then s.startTravel false else s

/-- What starts with LIGHTS (R517): quays, the ADC's self-calibration, the probes, spare qualification, a trial's probation. -/
def State.lights (s : State) : State :=
  let s1 := { s with
    phase := .lights
    pwr := { s.pwr with wait := false, lightsT64 := s.now }
    sens := (match s.sens.adc with
      | .idle => { s.sens with adc := .selfCal none }
      | _ => { s.sens with calDue := true })
    cal := { s.cal with qual := true }
    slip := if s.slip.state = 7 then { s.slip with probation := some s.now } else s.slip }
  let s2 := s1.setReg Reg.LIGHTS_MS (min 65535 ((s.rtc.ticks - s.pwr.darkTick) * 1000 / 32768))
  (((s2.lightsQuay .a).lightsQuay .b).lightsBus .one).lightsBus .two

/-- LIGHTS_ENTRY (R516): the event says that VHOLD has stood for 10 ms; the image must be verified. -/
def execLightsEntry (s : State) : Out :=
  .next (if s.phase = .dark ∧ s.tide.running = true ∧ s.pwr.imageOk = true ∧ s.pfail = false ∧ s.pwr.railHeld = false then
    s.lights.lightsShutter else s)

/-- LIGHTS_OWNER_TIMEOUT (R518): STORM with cause TAKEOVER. -/
def execLightsOwnerTimeout (s : State) : Out :=
  .next (if s.phase = .lights ∧ s.pwr.owned = false ∧ s.waited s.pwr.lightsT64 clkSec = true ∧ s.pfail = false then
    s.enterStorm causeTakeover none else s)

/-- SHARED_RAIL_FAULT (R511): held in reset, every output off, every pad at high impedance, buses and stream stopped. -/
def execSharedRailFault (s : State) : Out :=
  .next (if s.pwr.rails then
    let t := s.toDark .powerUp
    { t with pwr := { t.pwr with rails := false, railHeld := true, padsOff := true }, act := { t.act with allOff := true } }
  else s)

/-- SHARED_RAIL_RECOVERED (R511): a power-up, counted in `RAIL_RESETS`. -/
def execSharedRailRecovered (s : State) : Out :=
  .next (if s.pwr.railHeld then (s.countTally Reg.RAIL_RESETS).toDark .powerUp else s)

/-! ### Feeds (R508, R509) -/

/-- The feed's bit in `FEEDS_EXPECTED`. -/
def feedBit : Feed → Nat
  | .a => 0
  | .b => 1

/-- Presence of a feed as declared. -/
def PwrPart.setFeed (p : PwrPart) (f : Feed) (present : Bool) : PwrPart :=
  match f with
  | .a => { p with presA := present, absA := !present }
  | .b => { p with presB := present, absB := !present }

/-- A feed is declared absent, present. -/
def PwrPart.isAbsent (p : PwrPart) : Feed → Bool
  | .a => p.absA
  | .b => p.absB
def PwrPart.isPresent (p : PwrPart) : Feed → Bool
  | .a => p.presA
  | .b => p.presB

/-- The FEED_CHANGE record (R448). -/
def State.feedRecord (s : State) : State :=
  s.pushLog Lt.FEED_CHANGE ([b2n s.pwr.presA + 2 * b2n s.pwr.presB, 0] ++ leBytes 2 (s.reg Reg.VHOLD_MV / 10))

/-- FEED_ABSENT (R509). -/
def execFeedAbsent (f : Feed) (s : State) : Out :=
  .next (if s.pwr.isAbsent f then s
  else
    let t := s.withPwr (s.pwr.setFeed f false)
    if t.regBit Reg.FEEDS_EXPECTED (feedBit f) then
      (((t.withPwr { t.pwr with missing := true }).feedRecord).raiseIrq irqPower).alarmOf 0x2090 1 (t.reg Reg.VHOLD_MV / 10) 0
    else t)

/-- Every expected feed is present. -/
def State.feedsThere (s : State) : Bool :=
  (!s.regBit Reg.FEEDS_EXPECTED 0 || s.pwr.presA) && (!s.regBit Reg.FEEDS_EXPECTED 1 || s.pwr.presB)

/-- FEED_PRESENT (R509). -/
def execFeedPresent (f : Feed) (s : State) : Out :=
  .next (if s.pwr.isPresent f then s
  else
    let t := s.withPwr (s.pwr.setFeed f true)
    if t.pwr.missing && t.feedsThere then
      ((t.withPwr { t.pwr with missing := false }).feedRecord).alarmOf 0x2090 0 (t.reg Reg.VHOLD_MV / 10) 0
    else t)

/-- OV_A or OV_B put (R508). -/
def State.setOv (s : State) (f : Feed) (on : Bool) : State :=
  s.withPwr (match f with
    | .a => { s.pwr with ovA := on }
    | .b => { s.pwr with ovB := on })

/-- FEED_OVERVOLTAGE (R508): the FET turns off, OV is set. -/
def execFeedOvervoltage (f : Feed) (s : State) : Out := .next (s.setOv f true)

/-- FEED_OVERVOLTAGE_END (R508). -/
def execFeedOvervoltageEnd (f : Feed) (s : State) : Out := .next (s.setOv f false)

/-! ### Power-down (R513, R515) -/

/-- PFAIL (R513, R427); `us` is how long the quick-save takes. -/
def execPfail (us : Nat) (s : State) : Out :=
  .next (if s.pfail || !s.pwr.rails then s else s.powerFail us)

/-- UVLO (R513 step 6, R520): MOORED, or OFF without a usable cell. -/
def execUvlo (cell : Bool) (s : State) : Out :=
  .next (if !s.pwr.rails && !s.pwr.railHeld then s
  else
    { s with
      power := if cell then .moored else .off
      pfail := true
      pwr := { s.pwr with rails := false, railHeld := false, padsOff := true, hold := none }
      act := { s.act with allOff := true }
      panel := s.panel.stopDrive
      tide := { s.tide with running := false } })

/-- BROWNOUT (R515): a device that has passed PFAIL without UVLO is reset. -/
def execBrownout (s : State) : Out :=
  .next (if s.pfail && s.pwr.rails then (s.countTally Reg.BROWNOUTS).toDark .powerUp else s)

/-! ### Entries and modes (R512, R521 to R523) -/

/-- What the row PFAIL_LEVEL_WRITE accepts and does. -/
def pfailLevelRule (s : State) (v : Nat) : Status × State :=
  if s.reg Reg.VHOLD_MV < v + 1000 then (.state, s) else plainRule Reg.PFAIL_LEVEL s v

/-- PFAIL_LEVEL_WRITE (R512). -/
def execPfailLevelWrite (w : Wr) (s : State) : Out :=
  .next (s.ledgerWrite w Reg.PFAIL_LEVEL pfailLevelRule)

/-- SLACK ended (R522, R523). -/
def State.leaveSlack (s : State) : State :=
  if s.power = .slack then
    { s with power := .full, video := { s.video with startDue := decide (s.reg Reg.VIDEO_ENABLE = 1), ulps := false } }
  else s

/-- What the row POWER_REQUEST_WRITE accepts and does. -/
def powerRequestRule (s : State) (v : Nat) : Status × State :=
  andThen (plainRule Reg.POWER_REQUEST s v) fun t => if v = 0 then t.leaveSlack else t

/-- POWER_REQUEST_WRITE (R523): 0 ends SLACK with no hold. -/
def execPowerRequestWrite (w : Wr) (s : State) : Out :=
  .next (s.ledgerWrite w Reg.POWER_REQUEST powerRequestRule)

/-- The conditions of R521. -/
def State.slackReady (s : State) : Bool :=
  s.slackHeld && !s.keys.anyPressed && s.pwr.hold.isNone && s.cal.cycle.isNone && !s.cal.qual && !s.pfail

/-- SLACK_ENTRY (R521, R522). -/
def execSlackEntry (s : State) : Out :=
  .next (if s.slackReady then
    { s.darkArray with
      power := .slack
      video := { s.video with running := false, startDue := false, stopDue := false, plane := none, packets := [], ulps := true } }
  else s)

/-- WAKE_HOLD_END (R523). -/
def execWakeHoldEnd (s : State) : Out :=
  .next (match s.pwr.hold with
    | some t => if s.waited t (s.reg Reg.WAKE_HOLD * clkSec) then s.withPwr { s.pwr with hold := none } else s
    | none => s)

/-! ### Device reset (R415) -/

/-- What the row RESET_COMMAND_WRITE accepts and does. -/
def resetCommandRule (s : State) (v : Nat) : Status × State :=
  if v = 0x5A then (.ok, { s with klp := { s.klp with resetDue := some (s.now + 10 * clkMs) } }) else (.range, s)

/-- RESET_COMMAND_WRITE (R415): a device reset 10 ms after the response; the entry reads 0. -/
def execResetCommandWrite (w : Wr) (s : State) : Out :=
  .next (s.ledgerWrite w Reg.RESET_COMMAND resetCommandRule)

/-- DEVICE_RESET (R415): the reset that was scheduled. -/
def execDeviceReset (s : State) : Out :=
  .next (match s.klp.resetDue with
    | some t => if Nat.ble t s.now then s.deviceReset .command else s
    | none => s)

end Sys2Proof.Machine
end

