-- ==== Sys2Proof/Machine/Slipway.lean ====
section
/-!
DEFINITION. The slipway's commands and events (R530 to R535).
-/
namespace Sys2Proof.Machine

/-- A write of `SLIP_COMMAND` with a code, allowed in given states (R531). -/
def State.slipWrite (s : State) (r : Req) (code : Nat) (run : State → Status × State) : State :=
  s.ledgerWrite { req := r, len := 1, val := code } Reg.SLIP_COMMAND fun s _ => run s

/-- SLIP_VERIFY_DONE (R530): the staged image passes and the slot is erased for it, or the image is rejected. -/
def execSlipVerifyDone (s : State) : Out :=
  .next (if s.slip.state ≠ 2 then s
  else
    let st := s.verifyImage s.slip.image
    if st = .ok then s.withSlip { s.slip.eraseTarget with state := 3, progress := 0 } else s.slipReject st)

/-- SLIP_WRITE_DONE (R530): `ok`, the slot reads back as staged and is checked again. -/
def execSlipWriteDone (ok : Bool) (s : State) : Out :=
  .next (if s.slip.state ≠ 3 then s
  else if ok && s.verifyImage s.slip.image == .ok then
    let p := s.slip.putSlot s.slip.targetB s.slip.image
    let t := s.withSlip { p with state := 4, progress := s.slip.image.length, lastStatus := 0 }
    (t.pushLog Lt.SLIP_VERIFIED ([b2n p.targetB, 0] ++ leBytes 4 p.version)).raiseIrq irqSlipway
  else (s.withSlip s.slip.eraseTarget).slipReject .media)

/-- The quay that LOAD_STANDBY takes: the one that does not hold the token, STANDBY or SYNCING. -/
def State.loadQuay (s : State) : Option Quay :=
  match s.hm.owner with
  | some q => if s.qst q.other = .standby ∨ s.qst q.other = .syncing then some q.other else none
  | none => none

/-- What SLIP_LOAD_STANDBY does. -/
def slipLoadStandbyRule (s : State) : Status × State :=
  match s.loadQuay with
  | some q => if s.slip.state = 4 then
      (.ok, (s.reload q s.slip.targetB).withSlip { s.slip with state := 5, loading := some q, newFormat := false })
    else (.state, s)
  | none => (.state, s)

/-- SLIP_LOAD_STANDBY (R531). -/
def execSlipLoadStandby (r : Req) (s : State) : Out := .next (s.slipWrite r 1 slipLoadStandbyRule)

/-- SLIP_LOAD_DONE (R530): the loaded quay has reached STANDBY, or stays SYNCING because it cannot read the checkpoints. -/
def execSlipLoadDone (s : State) : Out :=
  .next (match s.slip.loading with
    | some q =>
      if s.slip.state ≠ 5 then s
      else if s.qst q = .standby then (s.withSlip { s.slip with state := 6, newFormat := false }).raiseIrq irqSlipway
      else if s.qst q = .syncing ∧ s.canRead q = false then
        (s.withSlip { s.slip with state := 6, newFormat := true }).raiseIrq irqSlipway
      else s
    | none => s)

/-- What SLIP_SWAP does. -/
def slipSwapRule (s : State) : Status × State :=
  match s.slip.loading with
  | some q => if s.slip.state = 6 ∧ s.hm.takeover.isNone = true then (.ok, s.beginSwap q) else (.state, s)
  | none => (.state, s)

/-- SLIP_SWAP (R531, R532): the handover begins; a fresh one moves the token at the next control tick. -/
def execSlipSwap (r : Req) (s : State) : Out := .next (s.slipWrite r 2 slipSwapRule)

/-- What SLIP_COMMIT does. -/
def slipCommitRule (s : State) : Status × State :=
  if s.slip.state = 7 then s.slipCommit else (.state, s)

/-- SLIP_COMMIT (R530, R531). -/
def execSlipCommit (r : Req) (s : State) : Out := .next (s.slipWrite r 3 slipCommitRule)

/-- The standby of a rollback reloaded from the old slot (R533 step 3). -/
def State.rollbackStandby (s : State) : State :=
  match s.hm.owner with
  | some q => if s.qst q.other = .out ∨ s.qst q.other = .off then s else s.reload q.other s.pwr.bootB
  | none => s

/-- What SLIP_ROLLBACK does. -/
def slipRollbackRule (s : State) : Status × State :=
  if s.slip.state = 7 then (.ok, (s.slipRollback 0).rollbackStandby) else (.state, s)

/-- SLIP_ROLLBACK (R531, R533): reason 0. -/
def execSlipRollback (r : Req) (s : State) : Out := .next (s.slipWrite r 4 slipRollbackRule)

/-- What SLIP_ABORT does. -/
def slipAbortRule (s : State) : Status × State :=
  if within 1 6 s.slip.state then
    let t := s.slipAbandon
    let p := { t.slip with state := 0, image := [], started := false, loading := none, newFormat := false }
    (.ok, (t.withSlip p).withKlp { t.klp with transfers := t.klp.transfers.filter fun x => !(x.key == Reg.SLIP_IMAGE) })
  else (.state, s)

/-- SLIP_ABORT (R530, R531). -/
def execSlipAbort (r : Req) (s : State) : Out := .next (s.slipWrite r 5 slipAbortRule)

/-- The slot that INSTALL_RESET installs. -/
def State.installSlot (s : State) : Option Bool :=
  if s.slip.state = 4 then some s.slip.targetB
  else if !s.slip.noFirmware then none
  else if s.verifyImage s.slip.imageA = .ok then some false
  else if s.verifyImage s.slip.imageB = .ok then some true
  else none

/-- What SLIP_INSTALL_RESET does. -/
def slipInstallResetRule (s : State) : Status × State :=
  match s.installSlot with
  | some b => andThen (s.putEntry Reg.BOOT_TRIAL (b2n b)) fun t =>
      { t with klp := { t.klp with resetDue := some (t.now + 10 * clkMs) } }
  | none => (.state, s)

/-- SLIP_INSTALL_RESET (R531): `BOOT_TRIAL`, and a device reset 10 ms after the response. -/
def execSlipInstallReset (r : Req) (s : State) : Out := .next (s.slipWrite r 6 slipInstallResetRule)

/-- PROBATION_END (R533): the update is committed. -/
def execProbationEnd (s : State) : Out :=
  .next (match s.slip.probation with
    | some t => if s.slip.state = 7 ∧ s.waited t (s.reg Reg.SLIP_PROBATION * clkSec) = true then s.slipCommit.2 else s
    | none => s)

end Sys2Proof.Machine
end

