-- ==== Sys2Proof/Machine/Harbour.lean ====
section
/-!
DEFINITION. The commands of the quays and the harbourmaster (R221 to R259).
-/
namespace Sys2Proof.Machine

/-! ### Heartbeat, self-check, watchdog, rails (R231 to R233, R38, R41) -/

/-- HEARTBEAT_REQUEST (R231). -/
def execHeartbeatRequest (s : State) : Out :=
  .next ([Quay.a, Quay.b].foldl (fun t q =>
    if (t.quay q).running then t.setQuay q { t.quay q with requested := true } else t) s)

/-- HEARTBEAT_STROBE (R231): the strobe gate is clocks 2,250 to 2,499 of the window. -/
def execHeartbeatStrobe (q : Quay) (t : Nat) (s : State) : Out :=
  .next (if !(s.quay q).running then s
  else if 2250 ≤ t % 2500 then
    s.setQuay q { s.quay q with counted := true, misses := 0, lastStrobe := t, requested := false }
  else s.incSat Reg.WILD_STROBES)

/-- The end of a heartbeat window for one quay. -/
def State.windowEnd (s : State) (q : Quay) : State :=
  let u := s.quay q
  if !u.running then s
  else if u.counted then s.setQuay q { u with counted := false, requested := false }
  else
    let s1 := (s.setQuay q { u with misses := u.misses + 1, requested := false }).incSat Reg.HB_MISSES
    if 3 ≤ u.misses + 1 then s1.quayFault q causeHeartbeat 3 u.lastStrobe else s1

/-- HEARTBEAT_WINDOW_END (R231); from PFAIL onward nothing is declared (R514). -/
def execHeartbeatWindowEnd (s : State) : Out := .next (if s.pfail then s else (s.windowEnd .a).windowEnd .b)

/-- SELF_CHECK_RESPONSE (R232). -/
def execSelfCheckResponse (q : Quay) (value : Nat) (s : State) : Out :=
  .next (match (s.quay q).challenge with
    | none => s
    | some c =>
      if value % 2 ^ 32 = Config.coreTest c % 2 ^ 32 then s.setQuay q { s.quay q with challenge := none }
      else s.quayFault q causeSelfCheck 0 s.now)

/-- SELF_CHECK_TIMEOUT (R232). -/
def execSelfCheckTimeout (q : Quay) (s : State) : Out :=
  .next (if (s.quay q).challenge.isSome then s.quayFault q causeSelfCheck 0 s.now else s)

/-- WATCHDOG_RESTART (R233). -/
def execWatchdogRestart (q : Quay) (s : State) : Out :=
  .next (if (s.quay q).running then s.setQuay q { s.quay q with wdStart := s.now } else s)

/-- WATCHDOG_EXPIRY (R233). -/
def execWatchdogExpiry (q : Quay) (s : State) : Out :=
  .next (if (s.quay q).running && s.waited (s.quay q).wdStart (s.reg Reg.WATCHDOG_TIMEOUT * clkMs) then
    s.quayFault q causeWatchdog 0 s.now else s)

/-- QUAY_CLOCK_FAULT (R38). -/
def execQuayClockFault (q : Quay) (s : State) : Out := .next (s.quayFault q causeQuayClock 0 s.now)

/-- QUAY_RAIL_FAULT (R41). -/
def execQuayRailFault (q : Quay) (s : State) : Out := .next (s.quayFault q causeQuayRail 0 s.now)

/-! ### Memory faults (R244, R438) -/

/-- A pending MEMORY entry of a quay at level RETRY. -/
def FaultEntry.retrying (q : Quay) (f : FaultEntry) : Bool := f.cause == causeMemory && f.level == 1 && f.quay == q.code

/-- PILOT_MEMORY_ERROR (R244): counted as an uncorrectable read, pushed at level RETRY. -/
def execPilotMemoryError (q : Quay) (m addr : Nat) (s : State) : Out :=
  .next (if !(s.quay q).running then s
  else
    let s1 := if m < 5 then s.uncorrectable m addr rqPilot else s
    if s1.pfail then s1
    else if 4 ≤ s1.hm.stack.length then s1.stackOverflow none
    else s1.pushEntry causeMemory (field addr 2 16) q.code 1)

/-- MEMORY_RETRY_OUTCOME (R244): success pops the entry; failure escalates to level 2 on the same quay. -/
def execMemoryRetryOutcome (q : Quay) (ok : Bool) (s : State) : Out :=
  .next (match s.hm.stack.find? (FaultEntry.retrying q) with
    | none => s
    | some f =>
      if ok then s.popFault (FaultEntry.retrying q) 1
      else (s.dropFault (FaultEntry.retrying q)).quayFault q causeMemory f.detail s.now)

/-! ### The vote, the wharf, checkpoints (R221, R223, R235) -/

/-- HM_VOTE_MISMATCH (R223): without two copies that agree the device is reset. -/
def execHmVoteMismatch (copy : Nat) (agree : Bool) (s : State) : Out :=
  .next (if !agree then s.deviceReset .vote
  else (s.withHm { s.hm with voteFault := true }).recordFault causeHmVote copy none)

/-- The write of a wharf location that reaches its output: 0 to 15 an output's LEVEL, 16 and 17 a fan channel's mV. -/
def State.wharfPut (s : State) (out v : Nat) : State :=
  if out < 16 then s.commandOut out (v % 4096) else s.commandFan (out - 16) (v % 65536)

/-- Whether a quay's write of a wharf location takes effect (R221, R251). -/
def State.wharfTakes (s : State) (q : Quay) (out : Nat) : Bool :=
  decide (s.hm.owner = some q) && !s.storm && !s.pfail && Nat.blt out 18 &&
    !(Nat.ble 16 out && (s.engine (out - 16)).held)

/-- WHARF_WRITE (R221). -/
def execWharfWrite (q : Quay) (out v : Nat) (s : State) : Out :=
  .next (if s.wharfTakes q out then s.wharfPut out v else s.incSat Reg.WHARF_REJECTS)

/-- The checkpoint that the active pilot writes at the end of this tick (R234, R239). -/
def State.checkpointNow (s : State) (len : Nat) : Checkpoint :=
  { tick := s.tick, seq := ((s.hm.mirror.map Checkpoint.seq).getD 0 + 1) % 2 ^ 32, length := len
    txq := (s.chan .one).counts ++ (s.chan .two).counts, loops := s.loop.runs, t64 := s.now }

/-- A checkpoint that passes validation. -/
def State.goodCheckpoint (s : State) (q : Quay) (len : Nat) : State :=
  let ready := s.hm.standbyReady || s.qst q == .standby
  let s1 := (s.withHm { s.hm with mirror := some (s.checkpointNow len), mirrorBad := 0, standbyReady := ready }).setReg
    Reg.CHECKPOINT_TICK s.tick
  if s1.hm.takeover.any (fun t => t.planned && t.dest == q) ∧ s1.qst q = .standby then s1.moveToken q false else s1

/-- A checkpoint that fails it: the second in a row ends DUPLEX. -/
def State.badCheckpoint (s : State) (q : Quay) : State :=
  let n := s.hm.mirrorBad + 1
  let s1 := (s.withHm { s.hm with mirrorBad := n }).incSat Reg.CHECKPOINT_BAD
  if n = 2 then (s1.withHm { s1.hm with standbyReady := false }).recordFault causeMirror 0 (some q) else s1

/-- CHECKPOINT_ARRIVAL (R235): at the standby or syncing quay; `good`, CRC, sequence and tick are right. -/
def execCheckpointArrival (good : Bool) (len : Nat) (s : State) : Out :=
  .next (match s.hm.owner with
    | none => s
    | some a =>
      let q := a.other
      if s.qst q ≠ .standby ∧ s.qst q ≠ .syncing then s
      else
        let t := s.setReg Reg.CHECKPOINT_BYTES len
        if good && s.canRead q then t.goodCheckpoint q len else t.badCheckpoint q)

/-! ### Takeover (R237 to R240) -/

/-- A failover's outage is known (R238). -/
def State.setOutage (s : State) (ns : Nat) : State :=
  let s1 := s.setReg Reg.LAST_OUTAGE ns
  s1.setReg Reg.MAX_OUTAGE (max (s1.reg Reg.MAX_OUTAGE) (s1.reg Reg.LAST_OUTAGE))

/-- TAKEOVER_TIMEOUT (R238): a TAKEOVER fault of the quay that is taking over. -/
def execTakeoverTimeout (s : State) : Out :=
  .next (match s.hm.takeover with
    | none => s
    | some k => if k.planned then s else s.quayFault k.dest causeTakeover 0 s.now)

/-! ### Quay states (R228 to R230) -/

/-- QUAY_RESET_RELEASE (R228): the reset ends and the self-test starts. -/
def execQuayResetRelease (q : Quay) (s : State) : Out :=
  .next (if s.qst q = .selfTest then s.setQuay q { s.quay q with inReset := false } else s)

/-- No quay is ACTIVE. -/
def State.noneActive (s : State) : Bool := s.qst .a != .active && s.qst .b != .active

/-- The preferred quay (R224). -/
def State.preferred (s : State) : Quay := if s.reg Reg.PREFERRED_QUAY = 2 then .b else .a

/-- A passed self-test (R228). -/
def State.selfTestPass (s : State) (q : Quay) : State :=
  let s1 := s.setQuay q { s.quay q with wdStart := s.now, lastStrobe := s.now, misses := 0, counted := false, forced := false }
  let u := s1.quay q
  if s1.storm then s1.setQuay q { u with st := .standby, standbyAt := s1.now }
  else if s1.hm.owner = some q.other ∨ s1.qst q.other = .active then s1.setQuay q { u with st := .syncing }
  else if q ≠ s1.preferred ∧ s1.qst q.other = .selfTest ∧ (s1.quay q.other).passHeld = false then
    s1.setQuay q { u with passHeld := true, standbyAt := s1.now }
  else (s1.grantToken q).releaseHeld q.other

/-- QUAY_SELF_TEST_DONE (R228, R230). -/
def execQuaySelfTestDone (q : Quay) (pass : Bool) (s : State) : Out :=
  .next (
    let u := s.quay q
    if u.st ≠ .selfTest ∨ u.inReset = true ∨ u.passHeld = true then s
    else if pass && (u.forced || Nat.blt u.fails.length (s.reg Reg.REJOIN_LIMIT)) then s.selfTestPass q
    else s.goOut q)

/-- PASS_HOLD_TIMEOUT (R228): 200 ms since the pass with no quay ACTIVE. -/
def execPassHoldTimeout (q : Quay) (s : State) : Out :=
  .next (
    let u := s.quay q
    if u.st = .selfTest ∧ u.passHeld = true ∧ s.noneActive = true ∧ s.storm = false ∧
        s.waited u.standbyAt (200 * clkMs) = true then s.grantToken q else s)

/-- QUAY_SYNC_DONE (R228, R235, R533): a quay that cannot read the checkpoints stays SYNCING, but in a rollback it takes over
fresh. -/
def execQuaySyncDone (q : Quay) (s : State) : Out :=
  .next (if s.qst q ≠ .syncing ∨ s.qst q.other ≠ .active then s
  else if s.canRead q then s.reachStandby q
  else if s.slip.state = 0 ∧ (s.quay q).imageB = s.pwr.bootB ∧ (s.quay q.other).imageB ≠ s.pwr.bootB then s.beginSwap q
  else s)

/-- QUAY_FAIL_WINDOW_EXPIRY (R230): the oldest failure is 24 h old in RTC ticks. -/
def execQuayFailWindowExpiry (q : Quay) (s : State) : Out :=
  .next (match (s.quay q).fails with
    | [] => s
    | t :: rest => if t + 2831155200 ≤ s.rtc.ticks then s.setQuay q { s.quay q with fails := rest } else s)

/-! ### Salvage and STORM (R249, R254 to R256) -/

/-- SALVAGE_AFTER_FAILOVER (R256). -/
def execSalvageAfterFailover (s : State) : Out :=
  .next (match s.hm.salvageIn, s.hm.owner with
    | some 0, some q => (s.withHm { s.hm with salvageIn := none }).writeSalvage q.code 1
    | _, _ => s)

/-- A quay has been STANDBY for 60 s (R254). -/
def State.longStandby (s : State) (q : Quay) : Bool := s.qst q == .standby && s.waited (s.quay q).standbyAt (60 * clkSec)

/-- STORM_AUTO_EXIT (R254). -/
def execStormAutoExit (s : State) : Out :=
  .next (if s.storm && s.reg Reg.STORM_AUTO_EXIT == 1 && (s.longStandby .a || s.longStandby .b) &&
      (s.hm.lastPush.all fun t => s.waited t (60 * clkSec)) then s.leaveStorm 1 else s)

/-- What the row STORM_VALUE_WRITE accepts and does. -/
def stormValueRule (n : Nat) (s : State) (v : Nat) : Status × State :=
  if within 1 16 n && (stormAction v == 3 || field v 12 2 != 0) then (.range, s)
  else andThen (plainRule (0x171000 + n) s v) fun t =>
    if within 1 16 n && (t.storm || (t.out (n - 1)).hmValue) then t.applyStorm (n - 1)
    else if n = 18 ∧ t.storm = true then t.stormQueues else t

/-- STORM_VALUE_WRITE (R249, R250): subs 1 to 16 are the outputs' values; one of an output that shows its storm value takes
effect at once, as does `STORM_BUS` in STORM (R251 step 3). -/
def execStormValueWrite (n : Nat) (w : Wr) (s : State) : Out :=
  .next (s.ledgerWrite w (0x171000 + n) (stormValueRule n))

/-- What the row SALVAGE_RELEASE accepts and does. -/
def salvageReleaseRule (s : State) (v : Nat) : Status × State :=
  (.ok, if v = 1 then s.withHm { s.hm with summary := none } else s)

/-- SALVAGE_RELEASE (R255): the entry reads 0. -/
def execSalvageRelease (w : Wr) (s : State) : Out :=
  .next (s.ledgerWrite w Reg.SALVAGE_RELEASE salvageReleaseRule)

/-! ### `HM_COMMAND` (R227) -/

/-- A write of `HM_COMMAND` with a code; the entry reads 0. -/
def State.hmWrite (s : State) (r : Req) (code : Nat) (run : State → Status × State) : State :=
  s.ledgerWrite { req := r, len := 1, val := code } Reg.HM_COMMAND fun s _ => run s

/-- What HM_SWAP does. -/
def hmSwapRule (s : State) : Status × State :=
  if s.hm.takeover.isSome then (.busy, s)
  else match s.duplex, s.standbyQuay with
    | true, some q => (.ok, s.beginSwap q)
    | _, _ => (.state, s)

/-- HM_SWAP: BUSY while a takeover runs, STATE unless DUPLEX. -/
def execHmSwap (r : Req) (s : State) : Out := .next (s.hmWrite r 1 hmSwapRule)

/-- An OUT quay starts a self-test; source 0x2052 clears when none is OUT. -/
def State.rejoin (s : State) (q : Quay) : State :=
  if s.qst q = .out then
    let t := s.reload q s.wantedB
    let u := t.setQuay q { t.quay q with inReset := false, forced := true }
    if u.qst q.other = .out then u else u.alarmOf 0x2052 0 u.quayRoles u.hmStatus
  else s

/-- What HM_REJOIN_TEST does. -/
def hmRejoinTestRule (s : State) : Status × State :=
  if s.qst .a = .out ∨ s.qst .b = .out then (.ok, (s.rejoin .a).rejoin .b) else (.state, s)

/-- HM_REJOIN_TEST. -/
def execHmRejoinTest (r : Req) (s : State) : Out := .next (s.hmWrite r 2 hmRejoinTestRule)

/-- What HM_STORM_EXIT does. -/
def hmStormExitRule (s : State) : Status × State :=
  if s.storm && s.standbyQuay.isSome then (.ok, s.leaveStorm 0) else (.state, s)

/-- HM_STORM_EXIT (R254). -/
def execHmStormExit (r : Req) (s : State) : Out := .next (s.hmWrite r 3 hmStormExitRule)

/-- What HM_STORM_ENTER does. -/
def hmStormEnterRule (s : State) : Status × State :=
  (.ok, s.stormFault causeManual none)

/-- HM_STORM_ENTER (R251): a MANUAL fault. -/
def execHmStormEnter (r : Req) (s : State) : Out := .next (s.hmWrite r 4 hmStormEnterRule)

/-- The standby takes the token of a quay that retires. -/
def State.retireActive (s : State) (q : Quay) : State :=
  let s1 := s.goOut q
  let s2 := (s1.setQuay q.other { s1.quay q.other with st := .active }).withHm
    { (s1.setQuay q.other { s1.quay q.other with st := .active }).hm with owner := some q.other, standbyReady := false }
  s2.restoreCheckpoint s2.hm.mirror

/-- RETIRE of a quay: STATE if it is the only one that could be ACTIVE. -/
def State.retire (s : State) (q : Quay) : Status × State :=
  if s.qst q.other = .out ∨ s.qst q.other = .off then (.state, s)
  else if s.qst q = .active then
    if s.duplex && s.hm.takeover.isNone then (.ok, s.retireActive q) else (.state, s)
  else if s.qst q = .out ∨ s.qst q = .off then (.ok, s)
  else (.ok, s.goOut q)

/-- What HM_RETIRE_A does. -/
def hmRetireARule (s : State) : Status × State :=
  s.retire .a

/-- HM_RETIRE_A. -/
def execHmRetireA (r : Req) (s : State) : Out := .next (s.hmWrite r 5 hmRetireARule)

/-- What HM_RETIRE_B does. -/
def hmRetireBRule (s : State) : Status × State :=
  s.retire .b

/-- HM_RETIRE_B. -/
def execHmRetireB (r : Req) (s : State) : Out := .next (s.hmWrite r 6 hmRetireBRule)

/-- What HM_CLEAR_COUNTS does. -/
def hmClearCountsRule (s : State) : Status × State :=
  let a := s.setQuay .a { s.quay .a with fails := [] }
  let b := a.setQuay .b { a.quay .b with fails := [] }
  (.ok, b.withHm { b.hm with voteFault := false })

/-- HM_CLEAR_COUNTS. -/
def execHmClearCounts (r : Req) (s : State) : Out := .next (s.hmWrite r 7 hmClearCountsRule)

end Sys2Proof.Machine
end

