-- ==== Sys2Proof/Machine/Tide.lean ====
section
/-!
DEFINITION. The commands of the tide and of the mains phase unit (R15 to R46), but for the frame's own (Frame.lean).
-/
namespace Sys2Proof.Machine

/-- The tide replaced. -/
def State.withTide (s : State) (t : Tide) : State := { s with tide := t }

/-- The mains phase unit replaced. -/
def State.withMains (s : State) (m : Mains) : State := { s with mains := m }

/-! ### Start (R24) -/

/-- The tide may start: DARK, rails up, not yet running. -/
def State.tideAwaited (s : State) : Bool := decide (s.phase = .dark) && s.pwr.rails && !s.tide.running && !s.pfail

/-- TIDE_START (R24). -/
def execTideStart (s : State) : Out := .next (if s.tideAwaited then s.tideStart .master else s)

/-- MASTER_START_TIMEOUT (R24): from Quay A's RC. -/
def execMasterStartTimeout (s : State) : Out := .next (if s.tideAwaited then s.tideStart (.rc .a) else s)

/-! ### PLLs (R16) -/

/-- PLL_LOCK. -/
def execPllLock (p : Pll) (s : State) : Out :=
  .next (s.withTide { s.tide with unlocked := s.tide.unlocked.filter (· != p) })

/-- PLL_UNLOCK. -/
def execPllUnlock (p : Pll) (s : State) : Out :=
  .next (s.withTide { s.tide with unlocked := p :: s.tide.unlocked.filter (· != p) })

/-! ### Master-clock failure (R35 to R40) -/

/-- The RC the tide moves to: Quay A's, or Quay B's if Quay A is out (R35). -/
def State.rcQuay (s : State) : Quay :=
  if s.qst .a = .out ∨ ((s.quay .a).inReset = true ∧ (s.quay .b).inReset = false) then .b else .a

/-- MASTER_CLOCK_LOSS (R35 steps 1 to 3): the PLLs have lost their reference and no edge is booked until they relock. -/
def execMasterClockLoss (s : State) : Out :=
  .next (if !s.tide.running then s
  else if s.tide.source ≠ .master then s.withTide { s.tide with returnReady := false }
  else
    let t := s.withTide { s.tide with
      source := .rc s.rcQuay, masterLost := true, degraded := true, frameDegraded := true, rcTrimmed := false
      returnReady := false, edgesHeld := true, unlocked := [.pipeline, .pilot, .dram, .bus, .dphy] }
    (t.countUp Reg.MASTER_FAILS).recordFault causeMasterClock 0 none)

/-- PLL_RELOCK (R35 step 4). -/
def execPllRelock (s : State) : Out :=
  .next (if s.tide.running then s.withTide { s.tide with unlocked := [], edgesHeld := false } else s)

/-- RC_TRIM (R35 step 5, R36): `err` is the error measured against the crystal, ppb. Without the crystal there is none (R39). -/
def execRcTrim (err : Int) (s : State) : Out :=
  .next (if s.tide.source = .master ∨ s.rtc.xtalFail = true ∨ s.tide.running = false then s
  else (s.withTide { s.tide with rcTrimmed := true }).setRegI Reg.MASTER_ERROR err)

/-- CLOCK_RETURN (R40): the master is good; the return follows at slot 2064. -/
def execClockReturn (s : State) : Out :=
  .next (if s.tide.source ≠ .master ∧ s.reg Reg.CLOCK_RETURN = 1 then s.withTide { s.tide with returnReady := true } else s)

/-! ### Rate mode (R30, R31) -/

/-- What the row RATE_MODE_WRITE accepts and does. -/
def rateModeRule (s : State) (v : Nat) : Status × State :=
  if (v = 30 ∨ v = 60) ∧ s.linkRefuses { s.linkCfg with rate := v } = true then (.range, s)
  else if v = 30 ∨ (v = 60 ∧ s.reg Reg.VARIANT = 60) then s.putEntry Reg.RATE_MODE v
  else (.range, s)

/-- RATE_MODE_WRITE (R31, R3, R215). -/
def execRateModeWrite (w : Wr) (s : State) : Out :=
  .next (s.ledgerWrite w Reg.RATE_MODE rateModeRule)

/-- The instant is a frame boundary that is also a control tick boundary, past the epoch's own (R30). -/
def State.epochBoundary (s : State) : Bool :=
  s.tide.running && s.epochClocks != 0 &&
    s.epochClocks % (clocksPerFrame s.rate * (if s.rate = 60 then 125 else 63)) == 0

/-- A new rate epoch meets a cycle (R151): an abort up to F27; from F28 the result stands. -/
def State.epochCycle (s : State) : State :=
  match s.cal.cycle with
  | some c => if c.closed.isSome && decide (17 < c.frameNo) then s else s.abortCycle 5
  | none => s

/-- Every PWM error accumulator cleared, as on a change of rate mode (R296). -/
def State.clearPwmErrors (s : State) : State :=
  { s with act := { s.act with outs := s.act.outs.map fun o => { o with acc := 0 } } }

/-- NEW_EPOCH (R30, R31, R107, R151). -/
def execNewEpoch (s : State) : Out :=
  .next (if s.epochBoundary && s.reg Reg.RATE_MODE != s.rate then
    let frame := s.frame
    let tick := s.tick
    let s1 := ((s.setReg Reg.EPOCH_FRAME frame).setReg Reg.EPOCH_TICK tick).setReg Reg.EPOCH_T64 s.now
    let s2 := (((s1.setReg Reg.RATE_ACTIVE (s.reg Reg.RATE_MODE)).epochCycle).clearFilter).clearPwmErrors
    (s2.pushLog Lt.RATE_CHANGE ([s.rate, s2.rate, 0, 0] ++ leBytes 8 s.now ++ leBytes 4 frame ++ leBytes 4 tick)).trigger trRate
  else s)

/-! ### Mains phase unit (R42 to R46) -/

/-- Free-running at the nominal frequency, slewing there over 10 half-cycles (R44, R45). -/
def State.mainsFree (s : State) : State :=
  (s.setReg Reg.MAINS_STATE msFree).withMains { s.mains with
    slewLeft := 10, slewTarget := nominalHalf (s.reg Reg.MAINS_NOMINAL), count := 0, missing := 0 }

/-- The triac gates held off. -/
def State.gatesOff (s : State) : State :=
  [8, 9, 10, 11].foldl (fun t i => t.setOut i { t.out i with fireAt := none, gate := false, gateOff := none }) s

/-- From OFF to FREE_RUN at `MAINS_NOMINAL`: a half-cycle begins. -/
def State.mainsOn (s : State) : State :=
  ((s.setReg Reg.MAINS_STATE msFree).setReg Reg.HALF_PERIOD (nominalHalf (s.reg Reg.MAINS_NOMINAL))).withMains
    { s.mains with phaseRef := s.now, phaseErr := 0, slewLeft := 0, count := 0, missing := 0, lastAccept := none, spacing := none }

/-- What the row MAINS_MODE_WRITE accepts and does. -/
def mainsModeRule (s : State) (v : Nat) : Status × State :=
  andThen (plainRule Reg.MAINS_MODE s v) fun t =>
    if v = 0 then (t.setReg Reg.MAINS_STATE msOff).gatesOff
    else if t.reg Reg.MAINS_STATE = msOff then t.mainsOn
    else if v = 2 then t.mainsFree else t

/-- MAINS_MODE_WRITE (R44). -/
def execMainsModeWrite (w : Wr) (s : State) : Out :=
  .next (s.ledgerWrite w Reg.MAINS_MODE mainsModeRule)

/-- Crossings of ZC_IN come once per this many half-cycles (`ZC_EDGES`). -/
def State.zcHalves (s : State) : Nat := if s.reg Reg.ZC_EDGES = 2 then 2 else 1

/-- A half-period within 45 Hz to 65 Hz, clocks (R43). -/
def halfOk (h : Nat) : Bool := within 384616 555555 h

/-- A crossing in ACQUIRE (R44): predicted from the spacing before it. -/
def State.zcAcquire (s : State) (cross : Nat) : State :=
  let m := s.mains
  let gap := cross - m.lastAccept.getD cross
  let want := m.spacing.getD (s.reg Reg.HALF_PERIOD * s.zcHalves)
  let s1 := s.setReg Reg.LAST_ZC_T64 cross
  if !halfOk (gap / s.zcHalves) then s1.withMains { m with count := 0, lastAccept := some cross, spacing := none }
  else
    let near := decide (((gap : Int) - want).natAbs ≤ 10000)
    let n := if near then m.count + 1 else 0
    let s2 := s1.withMains { m with count := n, lastAccept := some cross, spacing := some gap }
    if n < 8 then s2
    else ((s2.setReg Reg.MAINS_STATE msLocked).setReg Reg.HALF_PERIOD (gap / s.zcHalves)).withMains
      { s2.mains with missing := 0, slewLeft := 0, phaseErr := (cross : Int) - m.phaseRef }

/-- The error of a crossing against the nearest predicted one, and whether that one starts the half-cycle in progress. -/
def State.zcError (s : State) (cross : Nat) : Int × Bool :=
  let a := (cross : Int) - s.mains.phaseRef
  let b := a - s.reg Reg.HALF_PERIOD
  if a.natAbs ≤ b.natAbs then (a, true) else (b, false)

/-- A crossing accepted in LOCKED or HOLDOVER: the period and the phase follow it (R44, R45). -/
def State.zcTrack (s : State) (cross : Nat) : State :=
  let m := s.mains
  let e := s.zcError cross
  let half := s.reg Reg.HALF_PERIOD
  let gap := cross - m.lastAccept.getD cross
  let n := rdivN gap half
  let h := if n = 0 then half else rdivN gap n
  let pos := if s.reg Reg.ZC_EDGES = 2 then e.2 else m.positive
  (((s.setReg Reg.MAINS_STATE msLocked).setReg Reg.LAST_ZC_T64 cross).setReg Reg.HALF_PERIOD (if halfOk h then h else half)).withMains
    { m with missing := 0, lastAccept := some cross, spacing := some gap, phaseErr := e.1, positive := pos }

/-- HOLDOVER begun (R44). -/
def State.mainsHold (s : State) : State :=
  (s.setReg Reg.MAINS_STATE msHoldover).withMains { s.mains with missing := 0, holdAt := s.now }

/-- A crossing outside ±500 µs in LOCKED: rejected, and counted as missing. -/
def State.zcMiss (s : State) : State :=
  let s1 := s.incSat Reg.ZC_REJECTS
  if s1.reg Reg.MAINS_STATE ≠ msLocked then s1
  else if 3 ≤ s1.mains.missing + 1 then s1.mainsHold
  else s1.withMains { s1.mains with missing := s1.mains.missing + 1 }

/-- A candidate crossing in the state of the unit (R44). -/
def State.zcCandidate (s : State) (cross : Nat) : State :=
  let st := s.reg Reg.MAINS_STATE
  if st = msFree then
    if s.reg Reg.MAINS_MODE = 1 then
      ((s.setReg Reg.MAINS_STATE msAcquire).setReg Reg.LAST_ZC_T64 cross).withMains
        { s.mains with count := 0, lastAccept := some cross, spacing := none }
    else s
  else if st = msAcquire then s.zcAcquire cross
  else if (s.zcError cross).1.natAbs ≤ 25000 then s.zcTrack cross
  else s.zcMiss

/-- ZC_PULSE (R43): `t0`, `t1` are the T64 of the pulse's edges. -/
def execZcPulse (t0 t1 : Nat) (s : State) : Out :=
  .next (if s.reg Reg.MAINS_STATE = msOff then s
  else if !within 2500 100000 (t1 - t0) || (s.mains.lastAccept.any fun a => Nat.blt t0 (a + 2 * clkMs)) then
    s.incSat Reg.ZC_REJECTS
  else s.zcCandidate ((((t0 + t1) / 2 : Nat) : Int) - s.regI Reg.ZC_OFFSET * (clkUs : Int)).toNat)

/-- MAINS_CROSSING_MISSED (R44). -/
def execMainsCrossingMissed (s : State) : Out :=
  .next (if s.reg Reg.MAINS_STATE = msLocked then s.mainsHold else s)

/-- HOLDOVER_EXPIRY (R44). -/
def execHoldoverExpiry (s : State) : Out :=
  .next (if s.reg Reg.MAINS_STATE = msHoldover ∧ s.waited s.mains.holdAt (s.reg Reg.HOLDOVER_TIME * clkMs) = true then s.mainsFree
  else s)

end Sys2Proof.Machine
end

