-- ==== Sys2Proof/Machine/Frame.lean ====
section
/-!
DEFINITION. The commands of the frame and of what follows it in the focal plane, the pipeline, the calibration manager and the
berth engine: frame boundary, frame close, publication, the converters' self-test and the events of their rules (R17 to R199).
-/
namespace Sys2Proof.Machine

/-- The instant is clock 0 of the given slot of a running tide, with power good. -/
def State.atSlot (s : State) (slot : Nat) : Bool := s.tide.running && !s.pfail && s.row == slot

/-! ### Frame boundary (R17, R32, R50, R77, R81, R125, R127, R173, R175) -/

/-- The imager mode in force from this boundary (R50, R127, R128, R522): DARK_ARRAY in DARK, in SLACK, and in LIGHTS until the
factory tables are in place and the spares qualified; BINNED for STREAM until the gate has switched. -/
def State.wantImager (s : State) : Nat :=
  if s.phase = .dark ∨ s.power ≠ .full ∨ s.pipe.ready = false ∨ (s.cal.qual = true ∧ s.cal.imagerStart = none) then imDark
  else if s.reg Reg.IMAGER_MODE = imStream ∧ s.pipe.gateOpen = false then imBinned
  else s.reg Reg.IMAGER_MODE

/-- The bias starts (R50): three settling frames follow; the filter states are invalid (R107). -/
def State.startBias (s : State) : State :=
  { s with
    focal := { s.focal with bias := true, settling := 4 }
    cal := { s.cal with imagerStart := some s.now, means := [] } }.clearFilter

/-- The imager mode of R127 applied; DARK_ARRAY ends a running cycle (R151). -/
def State.applyImager (s : State) : State :=
  let m := s.wantImager
  if m = imDark then
    if s.reg Reg.IMAGER_ACTIVE = imDark then s else (s.abortCycle 6).darkArray
  else (if s.focal.bias then s else s.startBias).setReg Reg.IMAGER_ACTIVE m

/-- A settling frame fewer; the last one is ended by SETTLING_END. -/
def FocalPart.nextFrame (f : FocalPart) : FocalPart :=
  { f with
    settling := if 1 < f.settling then f.settling - 1 else f.settling
    satNow := 0
    groups := f.groups.map Group.take
    trims := (f.trimsNext.map Prod.fst).getD f.trims
    testCodes := (f.trimsNext.map Prod.snd).getD f.testCodes
    trimsNext := none }

/-- The pipeline at slot 0: counts at 0, the new mask in force, rows corrected unless the frame is one of a cycle's (R130). After
a frame without correction every filter state is invalid (R107). -/
def PipePart.nextFrame (q : PipePart) (on : Bool) : PipePart :=
  { q with
    on := on, replaced := 0, invalid := 0, screened := 0, coefLost := false, rowsLost := false, quad := [], above := []
    mask := q.maskNext.getD q.mask, maskNext := none
    prev := if on && !q.on then [] else q.prev }

/-- A granted cycle reaches F0: SHUTTER_CYCLE (R143). -/
def CalPart.nextFrame (c : CalPart) (frame : Nat) : CalPart :=
  match c.cycle with
  | some y => { c with cycle := some { y with begun := true, f0 := if y.begun then y.f0 else frame }, state := 3 }
  | none => c

/-- The engine at slot 0: every berth accumulates afresh, the new exclusion mask is in force (R173, R175). -/
def BerthPart.nextFrame (b : BerthPart) : BerthPart :=
  { b with
    runs := b.runs.map fun r => { r with acc := BerthAcc.empty }
    mask := b.maskNext.getD b.mask, maskNext := none, anyPixel := false }

/-- The tide at slot 0: the embedded line's time sample (R32), and the frame's TIMEBASE_DEGRADED (R37, R40). -/
def State.tideFrame (s : State) : State :=
  let deg := decide (s.tide.source ≠ .master)
  s.withTide { s.tide with sampleT64 := s.now, sampleTicks := s.rtc.ticks, degraded := deg, frameDegraded := deg }

/-- Slot 0 of a new frame. -/
def State.newFrame (s : State) : State :=
  let s1 := (s.tideFrame).setReg Reg.SHADOW_INDEX ((s.reg Reg.SHADOW_INDEX + 1) % 40)
  let s2 := s1.withFocal s1.focal.nextFrame
  let s3 := s2.applyImager
  let s4 := s3.withCal (s3.cal.nextFrame s3.frame)
  let s5 := s4.withPipe (s4.pipe.nextFrame (s4.focal.bias && s4.cal.state != 3))
  let s6 := s5.takeEdits
  (s6.withBerth s6.berth.nextFrame).videoFrame

/-- FRAME_BOUNDARY (R17). -/
def execFrameBoundary (s : State) : Out := .next (if s.atSlot 0 then s.newFrame else s)

/-- SETTLING_END (R50): the three settling frames have passed. -/
def execSettlingEnd (s : State) : Out :=
  .next (if s.atSlot 0 && s.focal.settling == 1 then s.withFocal { s.focal with settling := 0 } else s)

/-- GAIN_CHANGE (R57, R153), at a frame boundary with no cycle running. -/
def execGainChange (s : State) : Out :=
  .next (if s.atSlot 0 && s.cal.cycle.isNone && s.reg Reg.GAIN_MODE != s.reg Reg.GAIN_ACTIVE then
    (s.swapGains.setReg Reg.GAIN_ACTIVE (s.reg Reg.GAIN_MODE)).trigger trGain
  else s)

/-! ### Frame close: band sensors, flag and shutter (R65 to R71, R85 to R87) -/

/-- The 16 band readings taken (R65, R71): a failed conversion leaves its reading as it was. -/
def State.takeBands (s : State) (bands : List (Option Nat)) : State :=
  let s1 := (List.range 16).foldl (fun t n => match bands.getD n none with
    | some v => t.setReg (Reg.BAND_TEMP n) v
    | none => t) s
  let s2 := s1.withFocal { s1.focal with sensorBad := (List.range 16).filter fun n => badReading (bands.getD n none) }
  s2.withFocal { s2.focal with disagree := (List.range 16).map s2.disagreeRun }

/-- The flag thermistor and the position sense taken (R85, R86). -/
def State.takeFlag (s : State) (ntc pos : Nat) : State :=
  let h := s.focal.shutter
  let band : Option Nat := if pos < 500 then some 2 else if within 800 1600 pos then some 1 else if 2000 < pos then some 0 else none
  let bad := if band.isNone then h.badLevel + 1 else 0
  (s.setReg Reg.FLAG_TEMP (Config.flagTemp (s.reg Reg.FLAG_BETA) h.r25 ntc)).setShutter { h with
    reading := band.getD h.reading
    badLevel := bad
    fault := h.fault || (decide (2 ≤ bad) && (h.ramio || within 500 500000 ntc))
    ntcOk := within 500 500000 ntc }

/-- The gradient rule over the seven pairs (R69), with breakwater source 0x2061 when a pair becomes flagged (R372). -/
def State.gradientClose (s : State) : State :=
  let s1 := ((List.range 7).foldl State.gradientPair s)
  let s2 := s1.setReg Reg.GRADIENT_MAX (min 65535 (rdivN s1.gradientMax 1000))
  if s.reg Reg.GRADIENT_EVENTS != s2.reg Reg.GRADIENT_EVENTS ∨ s.reg Reg.GRADIENT_FLAGS != s2.reg Reg.GRADIENT_FLAGS then
    s2.alarmOf 0x2061 1 (s2.reg Reg.GRADIENT_MAX) (s2.reg Reg.GRADIENT_FLAGS)
  else s2

/-- Breakwater source 0x2060 follows the shutter's FAULT (R372). -/
def State.shutterAlarm (s : State) (before : Bool) : State :=
  if s.focal.shutter.fault == before then s
  else s.alarmOf 0x2060 (b2n s.focal.shutter.fault) (s.reg Reg.SHUTTER_FAULTS) s.fpaStatus

/-- The mean band reading of the sensors in use, µK. -/
def State.meanBand (s : State) : Nat :=
  let l := (List.range 16).filter fun n => !s.sensorOut n
  (l.map fun n => s.reg (Reg.BAND_TEMP n)).sum / l.length

/-- The mean readings of the last 10 s (R140). -/
def State.noteMean (s : State) : State :=
  s.withCal { s.cal with means := (s.meanBand :: s.cal.means).take (framesOf s.rate 10 + 1) }

/-- The figures of the frame that closes (R59, R91, R132). -/
def State.latchFrame (s : State) : State :=
  let q := s.pipe
  let s1 := ((s.setReg Reg.FRAME_FLAGS s.frameFlags).setReg Reg.SAT_PIXELS s.focal.satNow).setReg Reg.REPLACED_PIXELS q.replaced
  let s2 := (s1.setReg Reg.INVALID_PIXELS q.invalid).setReg Reg.SCREENED_PIXELS q.screened
  if q.on && Nat.ble (s.reg Reg.IMAGER_ACTIVE) 1 && !s.transferOpen Reg.OUT_FRAME false then
    s2.withPipe { s2.pipe with outFrame := s.frame, outForm := s.video.form, outBinned := s.reg Reg.IMAGER_ACTIVE == imBinned }
  else s2

/-- A LOST or SETTLING row, or TIMEBASE_DEGRADED, in the settle and integrate frames aborts the cycle (R151). -/
def State.timebaseAbort (s : State) : State :=
  match s.cal.cycle with
  | some c =>
    if c.closed.isSome && c.verdict.isNone && (c.lostSeen || (decide (c.frameNo ≤ 16) && s.tide.degraded)) then s.abortCycle 4 else s
  | none => s

/-- The calibration manager at slot 2064 (R140 to R143, R151, R152, R165): the travel check, a running cycle's step, the other
switches of the gate, MOVEMENT, and the decision whether a cycle starts. -/
def State.calClose (s : State) : State :=
  let before := s.focal.shutter.fault
  let running := s.cal.cycle.isSome
  let r := s.checkTravel (!running)
  let s1 := ((r.2.timebaseAbort).settleAbort).cycleAtClose r.1
  let s2 := s1.gateAtClose
  let s3 := if !running && s2.cal.state != 0 && s2.movement then s2.trigger trMovement else s2
  let s4 := if !running && s3.cycleMayStart then s3.grantCycle else s3
  (s4.noteUnusable).shutterAlarm before

/-- The tide returns to the master clock (R40). -/
def State.clockClose (s : State) : State :=
  if s.tide.returnReady then
    s.withTide { s.tide with source := .master, masterLost := false, returnReady := false, rcTrimmed := false }
  else s

/-- What scrubbing found in the blanking (R440, R441). -/
def State.scrubClose (s : State) (i : CloseIn) : State := i.laps.foldl State.lapDone (i.scrub.foldl State.scrub s)

/-- Slot 2064. -/
def State.closeFrame (i : CloseIn) (s : State) : State :=
  let s1 := { s with act := { s.act with vin := i.vin } }
  let s2 := (((s1.takeBands i.bands).takeFlag i.ntc i.pos).gradientClose).noteMean
  let s3 := s2.latchFrame.closeBerths
  let s4 := { s3 with
    berth := { s3.berth with tableNext := s3.now }
    video := { s3.video with closeT64 := s3.now } }
  ((s4.calClose).clockClose).scrubClose i

/-- FRAME_CLOSE (R20). -/
def execFrameClose (i : CloseIn) (s : State) : Out := .next (if s.atSlot 2064 then s.closeFrame i else s)

/-- GRADIENT_CLEAR (R69): both differences within the clearing level for 60 frames. -/
def execGradientClear (n : Nat) (s : State) : Out :=
  .next (if Nat.blt n 7 && s.regBit Reg.GRADIENT_FLAGS n && Nat.ble 60 (s.focal.clearRun.getD n 0) then
    let t := s.putBit Reg.GRADIENT_FLAGS n false
    if t.reg Reg.GRADIENT_FLAGS = 0 then t.alarmOf 0x2061 0 (t.reg Reg.GRADIENT_MAX) 0 else t
  else s)

/-- BAND_SENSOR_EXCLUDED (R71): a bad reading, or 16 frames of disagreement with its partner. -/
def execBandSensorExcluded (n : Nat) (s : State) : Out :=
  .next (if Nat.blt n 16 && (s.focal.sensorBad.contains n || Nat.ble 16 (s.focal.disagree.getD n 0)) then
    s.putBit Reg.SENSOR_EXCLUDED n true
  else s)

/-! ### Converters (R76, R80, R161) -/

/-- The record of a column that lost its converter in a self-test (R80): the spec gives it no differences (assumption 40). -/
def State.deadColumn (s : State) (p : Nat × Nat) : State :=
  (s.pushLog Lt.COLUMN_SPARE ([p.1, p.2] ++ leBytes 2 s.row ++ leBytes 4 s.frame ++ leBytes 4 (s.free % 2 ^ 32))).tickFree

/-- CONVERTER_SELF_TEST (R76), in slot 2065 with the array biased (R50). -/
def execConverterSelfTest (codes : List Nat) (s : State) : Out :=
  .next (if s.atSlot 2065 && s.focal.bias then
    let tol := s.reg Reg.TEST_TOLERANCE
    let r := (List.range 64).map fun n => s.focal.groupTest tol n codes (s.focal.groups.getD n default)
    let s1 := s.addSat Reg.TEST_FAILS (s.focal.testFails tol codes)
    let lost := (List.range 64).flatMap fun n => ((r.getD n default).2).map fun c => (n, c)
    lost.foldl State.deadColumn (s1.withFocal { s1.focal with groups := r.map Prod.fst })
  else s)

/-- Trims and test codes of the groups that pass (R161). -/
def State.qualified (s : State) (sums : List (List Nat)) (codes : List Nat) (pass : List Nat) : SMap × SMap :=
  pass.foldl (fun acc n =>
    let sp := sums.getD (2560 + n) []
    let cols := (List.range 40).map fun c => 40 * n + c
    (cols.foldl (fun m c => smapSet 0 c (ofSigned 8 (trimOf (sums.getD c []) sp)) m) acc.1,
      (cols ++ [2560 + n]).foldl (fun m c => smapSet 0x2AAA c (codes.getD c 0) m) acc.2))
    (s.focal.trimsNext.getD (s.focal.trims, s.focal.testCodes))

/-- SPARE_QUALIFICATION_DONE (R161, R163): `sums` are the sums of 16 conversions by converter and level. -/
def execSpareQualificationDone (sums : List (List Nat)) (codes : List Nat) (s : State) : Out :=
  .next (if s.cal.qual then
    let pass := (List.range 64).filter (s.groupQualifies sums)
    let worst := pass.foldl (fun m n => (List.range 40).foldl (fun m c =>
      max m (residual16 (sums.getD (40 * n + c) []) (sums.getD (2560 + n) []))) m) 0
    let groups := (List.range 64).map fun n =>
      let g := s.focal.groups.getD n default
      if pass.contains n && (g.st == 0 || g.st == 3) then { g with next := some qualPass } else g
    let s1 := { s with
      focal := { s.focal with groups := groups, trimsNext := some (s.qualified sums codes pass) }
      cal := { s.cal with qual := false } }
    let bits := ((List.range 64).filter fun n => !pass.contains n).foldl (fun v n => v + 2 ^ n) 0
    ((s1.setReg Reg.QUAL_FAILED bits).putBit Reg.SMALL_RESULT 1 (decide (bits ≠ 0))).setReg Reg.SPARE_MISMATCH
      (min 255 (rdivN worst 16))
  else s)

/-! ### Factory tables and reloads (R96, R122, R139) -/

/-- FACTORY_DECOMPRESSION_DONE (R96, R139): `bad` are the rows whose blocks failed in both copies. -/
def execFactoryDecompressionDone (bad : List Nat) (s : State) : Out :=
  .next (if s.phase = .dark ∨ s.pipe.ready = true ∨ s.pfail = true then s
  else
    let g := s.reg Reg.GAIN_ACTIVE
    { s with
      pipe := { s.pipe with
        ready := true, badRows := bad, coefBase := s.pipe.factory, coef := [], blind := [], blindOff := factoryOffs g
        bank0 := factoryOffs g, bank1 := factoryOffs g, bankOne := false }
      cal := { s.cal with
        state := 1, inForce := factorySet g, parked := factoryOffs (1 - g), parkBlind := factoryOffs (1 - g)
        parkSet := factorySet (1 - g), parkStale := [] } }.showRefs)

/-- COEF_RELOAD_DONE (R122): the words of one failed code word reloaded. -/
def execCoefReloadDone (shadow : Bool) (word : Nat) (s : State) : Out :=
  .next (if s.pipe.reloads.contains (shadow, word) then
    let pix := pixelsOf (shadow, word)
    let q := pix.foldl (PipePart.reloadPixel (s.reg Reg.GAIN_ACTIVE) shadow) s.pipe
    let q1 := { q with
      reloads := q.reloads.filter (· != (shadow, word)), fresh := (shadow, word) :: q.fresh }
    pix.foldl (fun t _ => t.countUp Reg.COEF_RELOADS) (s.withPipe q1)
  else s)

/-! ### Calibration events (R64, R140, R152, R157) -/

/-- SUN_HOLD_EXPIRY (R64) of tile n. -/
def execSunHoldExpiry (n : Nat) (s : State) : Out :=
  .next (
    let t := smapGet 0 n s.focal.strikeT
    let struck := s.focal.sun.any fun p => tileOf p.1 == n
    let started := s.cal.lastStart.any fun c => decide (t ≤ c + 1)
    if t ≠ 0 ∧ struck = true ∧ started = false ∧ s.focal.sunRaised.contains n = false ∧
        s.waited (t - 1) (s.reg Reg.SUN_HOLD * clkSec) = true then
      (s.withFocal { s.focal with sunRaised := n :: s.focal.sunRaised }).trigger trSun
    else s)

/-- INTERVAL_EXPIRY (R140); not evaluated while a cycle runs. -/
def execIntervalExpiry (s : State) : Out :=
  .next (match (match s.cal.lastAccept with
      | some t => some t
      | none => s.cal.imagerStart) with
    | some t =>
      if s.cal.cycle.isNone && s.cal.state != 0 && s.waited t (s.reg Reg.CAL_INTERVAL * 60 * clkSec) then s.trigger trInterval else s
    | none => s)

/-- The mean band reading has changed by less than `SETTLE_RATE` × 10 s over 10 s. -/
def State.settled (s : State) : Bool :=
  let m := s.cal.means
  let n := framesOf s.rate 10
  Nat.blt n m.length &&
    decide (((m.headD 0 : Int) - (m.getD n 0 : Nat)).natAbs < s.reg Reg.SETTLE_RATE * 10000)

/-- BRING_UP_TRIGGER (R140), in FACTORY after the imager starts. -/
def execBringUpTrigger (s : State) : Out :=
  .next (match s.cal.imagerStart with
    | some t =>
      if s.cal.state = 1 ∧ (s.settled = true ∨ s.waited t (s.reg Reg.SETTLE_MAX * clkSec) = true) then s.trigger trBringUp else s
    | none => s)

/-- CHAMBER_FILL_DONE (R152, R154): a LOAD_FACTORY fill awaits its switch; a primed chamber takes what is loaded. -/
def execChamberFillDone (s : State) : Out :=
  .next (match s.cal.chamber with
    | .filling true =>
      { s with
        pipe := s.pipe.setChamber (factoryOffs (s.reg Reg.GAIN_ACTIVE))
        cal := { s.cal with chamber := .factory } }
    | .filling false =>
      let idle := s.cal.bandsDone.isEmpty && s.cal.openBands.isEmpty && s.cal.restore.isNone
      s.withCal { s.cal with
        chamber := if idle then .empty else if s.cal.bandsDone.isEmpty || s.cal.restore.isSome then .primed else .loaded }
    | _ => s)

/-- RESTORE_TIMEOUT (R157): a restore not complete 10 s after its last transfer activity is abandoned. -/
def execRestoreTimeout (s : State) : Out :=
  .next (match s.cal.restore with
    | some r =>
      if s.waited r.last (10 * clkSec) && decide (s.cal.chamber ≠ .restored) then
        s.withCal { s.cal with
          restore := none
          chamber := if s.cal.openBands.isEmpty && decide (s.cal.chamber = .primed) then .empty else s.cal.chamber }
      else s
    | none => s)

/-- OUT_FRAME_READ_TIMEOUT (R98): a read left idle for 10 s is abandoned, and out-store writes resume. -/
def execOutFrameReadTimeout (s : State) : Out :=
  .next { s with klp := { s.klp with transfers := s.klp.transfers.filter fun t =>
    !(t.key == Reg.OUT_FRAME && !t.write && s.waited t.last (10 * clkSec)) } }

/-! ### Berths (R183 to R187) -/

/-- BERTH_ALARM_RAISE (R183): the counts start afresh, so that HIGH never passes directly to LOW. -/
def execBerthAlarmRaise (n : Nat) (s : State) : Out :=
  .next (if s.frozen then s
  else s.modBerth n fun r =>
    let due := s.alarmDue r
    if due = 0 then r else { r with alarm := due, hi := 0, lo := 0, clr := 0, events := r.events ++ [(due, 0)] })

/-- BERTH_ALARM_CLEAR (R183). -/
def execBerthAlarmClear (n : Nat) (s : State) : Out :=
  .next (if s.frozen then s
  else s.modBerth n fun r =>
    if r.alarm = 0 ∨ r.clr < s.berthNow n 0x0C then r
    else { r with alarm := 0, hi := 0, lo := 0, clr := 0, events := r.events ++ [(0, 0)] })

/-- BERTH_OCCUPIED (R186). -/
def execBerthOccupied (n : Nat) (s : State) : Out :=
  .next (if s.frozen then s
  else s.modBerth n fun r =>
    if s.berthKind n = 3 ∧ r.occ = false ∧ s.berthNow n 0x12 ≤ r.on then
      { r with occ := true, visits := satInc 32 r.visits, came := r.came ++ [true] }
    else r)

/-- BERTH_VACANT (R186). -/
def execBerthVacant (n : Nat) (s : State) : Out :=
  .next (if s.frozen then s
  else s.modBerth n fun r =>
    if r.occ = true ∧ s.vacantFrames n ≤ r.away then { r with occ := false, came := r.came ++ [false] } else r)

/-- TABLE_PUBLICATION (R187): the table, its events and reports; VC1 follows, and the fan-table engine evaluates (R290). -/
def execTablePublication (s : State) : Out :=
  .next (if s.atSlot 2068 then
    let s1 := s.publishTable
    let s2 := s1.withVideo { s1.video with vc1Go := s1.video.vc1Go || s1.video.running }
    (s2.takeTables.engineEval 0).engineEval 1
  else s)

end Sys2Proof.Machine
end

