-- ==== Sys2Proof/Machine/Imaging.lean ====
section
/-!
DEFINITION. The ledger writes and commands of the imaging path: gain, imager mode, output form, filter, lens, gradient limits,
spare groups (chapters 2 and 3), the calibration manager's commands (chapter 4), berth definitions (chapter 5) and the video
transmitter (chapter 6).
-/
namespace Sys2Proof.Machine

/-! ### Focal plane and pipeline -/

/-- GAIN_MODE_WRITE (R57): takes effect at a later frame boundary. -/
def execGainModeWrite (w : Wr) (s : State) : Out := .next (s.ledgerWrite w Reg.GAIN_MODE (plainRule Reg.GAIN_MODE))

/-- What the row IMAGER_MODE_WRITE accepts and does. -/
def imagerModeRule (s : State) (v : Nat) : Status × State :=
  if s.linkRefuses { s.linkCfg with mode := v } then (.range, s) else plainRule Reg.IMAGER_MODE s v

/-- IMAGER_MODE_WRITE (R127, R215). -/
def execImagerModeWrite (w : Wr) (s : State) : Out :=
  .next (s.ledgerWrite w Reg.IMAGER_MODE imagerModeRule)

/-- What the row OUTPUT_FORM_WRITE accepts and does. -/
def outputFormRule (s : State) (v : Nat) : Status × State :=
  if v = 2 ∧ s.anyScreened = true then (.state, s)
  else if s.linkRefuses { s.linkCfg with form := v } then (.range, s)
  else plainRule Reg.OUTPUT_FORM s v

/-- OUTPUT_FORM_WRITE (R126, R215): RAW cannot be screened. -/
def execOutputFormWrite (w : Wr) (s : State) : Out :=
  .next (s.ledgerWrite w Reg.OUTPUT_FORM outputFormRule)

/-- What the row FILTER_SHIFT_WRITE accepts and does. -/
def filterShiftRule (s : State) (v : Nat) : Status × State := andThen (plainRule Reg.FILTER_SHIFT s v) State.clearFilter

/-- FILTER_SHIFT_WRITE (R107): every filter state becomes invalid. -/
def execFilterShiftWrite (w : Wr) (s : State) : Out :=
  .next (s.ledgerWrite w Reg.FILTER_SHIFT filterShiftRule)

/-- A flat-field table that holds data (R112). -/
def State.ffFilled (s : State) (v : Nat) : Bool :=
  v == 0 || (if v ≤ 64 then bitAt (s.reg Reg.LENS_FF_FILLED_LO) (v - 1) else bitAt (s.reg Reg.LENS_FF_FILLED_HI) (v - 65))

/-- What the row LENS_WRITE accepts and does. -/
def lensRule (n : Nat) (s : State) (v : Nat) : Status × State :=
  if n = 4 ∧ s.ffFilled v = false then (.range, s)
  else andThen (plainRule (0x131000 + n) s v) fun t => if within 2 4 n then t.setReg Reg.LENS_SOURCE 2 else t

/-- LENS_WRITE (R112): a write of entry 0x1310.n; n is 2, 3 or 4 for the three entries of the lens. -/
def execLensWrite (n : Nat) (w : Wr) (s : State) : Out :=
  .next (s.ledgerWrite w (0x131000 + n) (lensRule n))

/-- What the row GRADIENT_LIMIT_WRITE accepts and does. -/
def gradientLimitRule (n : Nat) (s : State) (v : Nat) : Status × State :=
  if (n = 0x11 ∧ v < s.reg Reg.GRADIENT_CLEAR) ∨ (n = 0x12 ∧ s.reg Reg.GRADIENT_LIMIT < v) then (.range, s)
  else plainRule (0x121000 + n) s v

/-- GRADIENT_LIMIT_WRITE (R67): a write of entry 0x1210.n; n is 0x11 for `GRADIENT_LIMIT`, 0x12 for `GRADIENT_CLEAR`. -/
def execGradientLimitWrite (n : Nat) (w : Wr) (s : State) : Out :=
  .next (s.ledgerWrite w (0x121000 + n) (gradientLimitRule n))

/-- The rule of `GROUP_STATE` of group n (R81): it waits for the frame boundary. -/
def groupStateRule (n : Nat) (s : State) (v : Nat) : Status × State :=
  let g := s.focal.groups.getD n default
  if g.st = 0 ∨ g.st = 3 then (.state, s)
  else if 4 ≤ field v 13 3 ∨ (field v 13 3 = 2 ∧ 39 < field v 0 6) then (.range, s)
  else (.ok, s.withFocal { s.focal with groups := s.focal.groups.set n { g with next := some (v % 65536) } })

/-- GROUP_STATE_WRITE (R81). -/
def execGroupStateWrite (n : Nat) (w : Wr) (s : State) : Out :=
  .next (s.ledgerWrite w (Reg.GROUP_STATE n) (groupStateRule n))

/-! ### Calibration commands (R138) -/

/-- A write of `CAL_COMMAND` with a code. -/
def State.calWrite (s : State) (r : Req) (code : Nat) (run : State → Status × State) : State :=
  s.ledgerWrite { req := r, len := 1, val := code } Reg.CAL_COMMAND fun s _ => run s

/-- A code that requires SERVICE, written below it, is refused with ACCESS. -/
def State.belowService (s : State) (r : Req) : Bool := Nat.blt (s.levelOf r.id) 2

/-- What CAL_CYCLE does. -/
def calCycleRule (_r : Req) (s : State) : Status × State :=
  if s.cal.cycle.isSome then (.busy, s) else (.ok, s.trigger trCommand)

/-- CAL_CYCLE: raises COMMAND. -/
def execCalCycle (r : Req) (s : State) : Out := .next (s.calWrite r 1 (calCycleRule r))

/-- What CAL_CYCLE_REF does. -/
def calCycleRefRule (r : Req) (s : State) : Status × State :=
  if s.belowService r then (.access, s)
  else if s.cal.cycle.isSome then (.busy, s)
  else (.ok, (s.trigger trCommand).trigger trRef)

/-- CAL_CYCLE_REF: raises COMMAND and REF. -/
def execCalCycleRef (r : Req) (s : State) : Out := .next (s.calWrite r 2 (calCycleRefRule r))

/-- What CAL_ABORT does. -/
def calAbortRule (_r : Req) (s : State) : Status × State :=
  let t := s.abortCycle 7
  (.ok, t.withCal { t.cal with triggers := 0 })

/-- CAL_ABORT: ends a running cycle with reason COMMAND and clears every pending trigger. -/
def execCalAbort (r : Req) (s : State) : Out := .next (s.calWrite r 3 (calAbortRule r))

/-- What CAL_QUALIFY_SPARES does. -/
def calQualifySparesRule (r : Req) (s : State) : Status × State :=
  if s.belowService r then (.access, s)
  else if s.cal.qual then (.busy, s)
  else (.ok, s.withCal { s.cal with qual := true })

/-- CAL_QUALIFY_SPARES (R161). -/
def execCalQualifySpares (r : Req) (s : State) : Out := .next (s.calWrite r 4 (calQualifySparesRule r))

/-- What CAL_SHUTTER_TEST does. -/
def calShutterTestRule (r : Req) (s : State) : Status × State :=
  if s.belowService r then (.access, s)
  else if s.cal.cycle.isSome || s.focal.shutter.closing.isSome then (.busy, s)
  else if !s.focal.shutter.present then (.state, s)
  else (.ok, (s.withCal { s.cal with cycle := some (Cycle.new s true false) }).startTravel true)

/-- CAL_SHUTTER_TEST (R138, R166): also from FAULT, which only its success leaves. -/
def execCalShutterTest (r : Req) (s : State) : Out := .next (s.calWrite r 5 (calShutterTestRule r))

/-- What CAL_LOAD_FACTORY does. -/
def calLoadFactoryRule (r : Req) (s : State) : Status × State :=
  if s.belowService r then (.access, s)
  else if s.cal.cycle.isSome || s.transferOpen Reg.OFFSET_LOAD true || s.transferOpen Reg.CAL_SET true ||
      s.cal.restore.isSome || s.cal.busy then (.busy, s)
  else if s.cal.state = 0 then (.state, s)
  else (.ok, s.withCal { s.cal with chamber := .filling true })

/-- CAL_LOAD_FACTORY (R138, R152): fills the chamber with factory offsets. -/
def execCalLoadFactory (r : Req) (s : State) : Out := .next (s.calWrite r 6 (calLoadFactoryRule r))

/-! ### Berths (R170 to R173) -/

/-- At most 256 berths on any row once entry `sub` of berth n holds v (R169). -/
def State.rowsHold (s : State) (n sub v : Nat) : Bool :=
  let get (k b : Nat) : Nat := if k = n ∧ b = sub then v else s.berthWritten k b
  Nat.ble (rowLoadMax (fun k => get k 1) (fun k => get k 2)) 256

/-- The rule of a definition entry (R172, R173): accepted writes wait for the next frame boundary. -/
def berthRule (lvl n sub : Nat) (s : State) (v : Nat) : Status × State :=
  let old := s.berthWritten n
  let new (b : Nat) : Nat := if b = sub then v else old b
  let load := if sub = 1 ∨ sub = 2 then s.rowsHold n sub v else true
  match s.berthCheck lvl (s.transferOpen Reg.BERTH_TABLE true) load n old new with
  | some st => (st, s)
  | none =>
    let t := s.setReg (berthKey n sub) v
    let pend := if t.berth.pend.contains n then t.berth.pend
      else t.berth.pend.takeWhile (Nat.blt · n) ++ n :: t.berth.pend.dropWhile (Nat.blt · n)
    (.ok, t.withBerth { t.berth with pend := pend })

/-- BERTH_ENTRY_WRITE (R172): a write of entry `sub` of berth n. -/
def execBerthEntryWrite (n sub : Nat) (w : Wr) (s : State) : Out :=
  .next (s.ledgerWrite w (berthKey n sub) fun s v => berthRule (s.levelOf w.req.id) n sub s v)

/-- EDIT_HOLD_WRITE (R173). -/
def execEditHoldWrite (w : Wr) (s : State) : Out := .next (s.ledgerWrite w Reg.EDIT_HOLD (plainRule Reg.EDIT_HOLD))

/-! ### Video (R205, R206, R213, R215) -/

/-- What a write of `VIDEO_ENABLE` starts or ends (R206). -/
def VideoPart.enable (v : VideoPart) (on : Bool) : VideoPart :=
  if on then (if v.running && !v.stopDue then v else { v with startDue := !v.ulps })
  else { v with startDue := false, stopDue := v.running, plane := none, vc1Go := false }

/-- The rule of `VIDEO_ENABLE`. -/
def videoEnableRule (s : State) (v : Nat) : Status × State :=
  if v = 1 ∧ s.feasible s.linkCfg = false then (.range, s)
  else andThen (plainRule Reg.VIDEO_ENABLE s v) fun t => t.withVideo (t.video.enable (v == 1))

/-- VIDEO_ENABLE_WRITE (R206). -/
def execVideoEnableWrite (w : Wr) (s : State) : Out := .next (s.ledgerWrite w Reg.VIDEO_ENABLE videoEnableRule)

/-- STREAM_START (R206, R517): with `VIDEO_ENABLE` at 1 the stream starts at slot 0, at bring-up without a write. -/
def execStreamStart (s : State) : Out :=
  .next (if s.atSlot 0 && s.reg Reg.VIDEO_ENABLE == 1 && !s.video.running && !s.video.ulps && decide (s.phase ≠ .dark) then
    (s.withVideo { s.video with startDue := true }).videoFrame
  else s)

/-- What the row VIDEO_LINK_WRITE accepts and does. -/
def videoLinkRule (n : Nat) (s : State) (v : Nat) : Status × State :=
  if s.reg Reg.VIDEO_ENABLE = 1 then (.state, s)
  else if n = 3 ∧ v % 10 ≠ 0 then (.range, s)
  else if n = 5 ∧ 32 ≤ v then (.range, s)
  else plainRule (0x160000 + n) s v

/-- VIDEO_LINK_WRITE (R205): a write of entry 0x1600.n, refused while the stream is enabled. -/
def execVideoLinkWrite (n : Nat) (w : Wr) (s : State) : Out :=
  .next (s.ledgerWrite w (0x160000 + n) (videoLinkRule n))

/-- The rule of `VC2_REQUEST` (R213). -/
def vc2Rule (s : State) (v : Nat) : Status × State :=
  if v = 0 then (.ok, s.withVideo { s.video with plane := none })
  else if s.video.plane.isSome then (.busy, s)
  else if 6 < v ∨ s.linkRefuses { s.linkCfg with vc2 := true } = true then (.range, s)
  else (.ok, s.withVideo { s.video with plane := some { code := v, line := 0 } })

/-- VC2_REQUEST_WRITE (R213). -/
def execVc2RequestWrite (w : Wr) (s : State) : Out := .next (s.ledgerWrite w Reg.VC2_REQUEST vc2Rule)

end Sys2Proof.Machine
end

