-- ==== Sys2Proof/Machine/Loops.lean ====
section
/-!
DEFINITION. The commands of chapter 8: loops, zones, programs, exception dates and the loss of the master.
-/
namespace Sys2Proof.Machine

/-- Loops other than `l` with LOOP_MODE not OFF that name a target; NONE is no target (R276). -/
def State.othersOn (s : State) (l t : Nat) : Bool := t / 256 != 0 && (s.loopNames t).any fun k => k != l

/-! ### Loops -/

/-- The rule of `LOOP_MODE` (R276): no two loops on one target; a change to AUTO or MANUAL starts from the command in force
(R274). -/
def loopModeRule (n : Nat) (s : State) (v : Nat) : Status × State :=
  if (v = 1 ∨ v = 2) ∧ s.othersOn n (s.reg (Reg.TARGET n)) = true then (.state, s)
  else if inRange (Reg.LOOP_MODE n) v = false then (.range, s)
  else
    let old := s.reg (Reg.LOOP_MODE n)
    andThen (s.putEntry (Reg.LOOP_MODE n) v) fun t =>
      if v ≠ 0 ∧ v ≠ old then t.setLoopRun n { t.loopRun n with fresh := true } else t

/-- LOOP_MODE_WRITE (R276). -/
def execLoopModeWrite (n : Nat) (w : Wr) (s : State) : Out := .next (s.ledgerWrite w (Reg.LOOP_MODE n) (loopModeRule n))

/-- The rule of `TARGET` (R275, R276). -/
def loopTargetRule (n : Nat) (s : State) (v : Nat) : Status × State :=
  if s.othersOn n v then (.state, s)
  else if targetValid v = false then (.range, s)
  else s.putEntry (Reg.TARGET n) v

/-- LOOP_TARGET_WRITE (R276). -/
def execLoopTargetWrite (n : Nat) (w : Wr) (s : State) : Out := .next (s.ledgerWrite w (Reg.TARGET n) (loopTargetRule n))

/-- The fields of a source descriptor within their ranges (R269, R272). -/
def descriptorOk (d : Nat) : Bool :=
  let kind := field d 29 3
  let index := field d 16 13
  let param := field d 8 8
  let param2 := field d 0 8
  if kind = 0 then param == 0 && param2 == 0
  else if kind = 1 then isAdcChannel index && param == 0 && param2 == 0
  else if kind = 2 then param == 0 && param2 == 0
  else if kind = 3 then Nat.ble index 255 && Nat.ble 1 param && param2 == 0
  else if kind = 4 then within 1 8 index && param == 0 && param2 == 0
  else if kind = 5 then isAdcChannel index && isAdcChannel param && isAdcChannel param2
  else false

/-- The rule of a source entry (R272); the `KIND` it asks for is the one last written. -/
def pvSourceRule (key : Nat) (s : State) (v : Nat) : Status × State :=
  if field v 29 3 = 2 ∧ s.reg (Reg.KIND (field v 16 13)) ≠ 2 then (.state, s)
  else if descriptorOk v = false then (.range, s)
  else s.putEntry key v

/-- PV_SOURCE_WRITE (R272): `PV_BACKUP` where `backup` is set. -/
def execPvSourceWrite (l : Nat) (backup : Bool) (w : Wr) (s : State) : Out :=
  let key := if backup then Reg.PV_BACKUP l else Reg.PV_SOURCE l
  .next (s.ledgerWrite w key (pvSourceRule key))

/-! ### Zones -/

/-- The rule of `ZONE_OVERRIDE` (R279): an override lasts `OVERRIDE_TIME` from its write, 0 until it is cleared. -/
def zoneOverrideRule (n : Nat) (s : State) (v : Nat) : Status × State :=
  andThen (plainRule (Reg.ZONE_OVERRIDE n) s v) fun t =>
    let m := t.reg (Reg.OVERRIDE_TIME n)
    (t.setZoneRun n { t.zoneRun n with
      ends := if v = 0xFF ∨ m = 0 then none else some (t.now + m * 60 * clkSec) }).evalPrograms

/-- ZONE_OVERRIDE_WRITE (R279). -/
def execZoneOverrideWrite (n : Nat) (w : Wr) (s : State) : Out :=
  .next (s.ledgerWrite w (Reg.ZONE_OVERRIDE n) (zoneOverrideRule n))

/-- OVERRIDE_EXPIRY (R279): `ZONE_OVERRIDE` reads 0xFF once the lifetime has passed. -/
def execOverrideExpiry (n : Nat) (s : State) : Out :=
  .next (match (s.zoneRun n).ends with
    | some t =>
      if t ≤ s.now then (s.setZoneRun n { s.zoneRun n with ends := none }).setReg (Reg.ZONE_OVERRIDE n) 0xFF else s
    | none => s)

/-- PRESENCE_HOLD_EXPIRY (R280): presence stops holding; it does nothing while a source is active or nothing holds. -/
def execPresenceHoldExpiry (n : Nat) (s : State) : Out :=
  .next (if (s.zoneRun n).holding && !(s.zoneRun n).present then s.setZoneRun n { s.zoneRun n with holding := false } else s)

/-! ### Programs and dates -/

/-- The rule of `SWITCH_POINT` j of program p (R282, R284). -/
def switchPointRule (p j : Nat) (s : State) (v : Nat) : Status × State :=
  if 23 < field v 19 5 ∨ 59 < field v 13 6 ∨ field v 2 11 ≠ 0 then (.range, s)
  else andThen (s.putEntry (Reg.SWITCH_POINT p j) v) State.evalPrograms

/-- SWITCH_POINT_WRITE (R282). -/
def execSwitchPointWrite (p j : Nat) (w : Wr) (s : State) : Out :=
  .next (s.ledgerWrite w (Reg.SWITCH_POINT p j) (switchPointRule p j))

/-- The rule of `EXCEPTION_DATE` (R286): a fixed year's date must exist; DAY 0 is the last day of the month. -/
def exceptionDateRule (n : Nat) (s : State) (v : Nat) : Status × State :=
  let year := field v 23 8
  let month := field v 19 4
  let day := field v 14 5
  if month = 0 ∨ 12 < month ∨ field v 9 5 = 0 ∨ 200 < year ∨ field v 0 6 ≠ 0 then (.range, s)
  else if year ≠ 0 ∧ day ≠ 0 ∧ dateExists (1999 + year) month day = false then (.timeInvalid, s)
  else andThen (s.putEntry (Reg.EXCEPTION_DATE n) v) State.evalPrograms

/-- EXCEPTION_DATE_WRITE (R286). -/
def execExceptionDateWrite (n : Nat) (w : Wr) (s : State) : Out :=
  .next (s.ledgerWrite w (Reg.EXCEPTION_DATE n) (exceptionDateRule n))

/-- PROGRAM_EVALUATION (R283, R284): every program, then every zone's mode, by the active pilot. -/
def execProgramEvaluation (s : State) : Out :=
  .next (if s.hm.owner.isSome then s.evalPrograms.updateZones else s)

/-! ### The master -/

/-- MASTER_SILENT_EXPIRY (R288, R289): AUTONOMOUS is entered, and the fan-table engine takes the channels it holds there. -/
def execMasterSilentExpiry (s : State) : Out :=
  .next (if s.autoReasonNow ≠ 0 then s.noteAutonomous.engineHolds else s)

end Sys2Proof.Machine
end

