-- ==== Sys2Proof/Machine/Actuators.lean ====
section
/-!
DEFINITION. The commands of chapter 9: output modes and commands, trips, fan starts and stalls, tachs and ripple.
-/
namespace Sys2Proof.Machine

/-! ### Outputs -/

/-- The target code of output `i` (R275, R299). -/
def outTarget (i : Nat) : Nat := 256 * (i / 4 + 1) + i % 4 + 1

/-- The rule of `OUT_COMMAND` (R298, R303). -/
def outCommandRule (n : Nat) (s : State) (v : Nat) : Status × State :=
  if s.storm ∨ s.loopNames (outTarget n) ≠ [] ∨ s.partner n = true then (.state, s)
  else andThen (plainRule (Reg.OUT_COMMAND n) s v) fun t => t.commandOut n v

/-- OUT_COMMAND_WRITE (R298): output n = 0 to 15. -/
def execOutCommandWrite (n : Nat) (w : Wr) (s : State) : Out :=
  .next (s.ledgerWrite w (Reg.OUT_COMMAND n) (outCommandRule n))

/-- The modes an output can be written to (R299, R303). -/
def outModeOk (n v : Nat) : Bool :=
  if isDamper n then v == 0 || (v == 1 && (n == 0 || n == 2))
  else if isValve n then Nat.ble v 2
  else if isTriac n then Nat.ble v 1
  else v == 0

/-- The alarm source of an output cleared once neither WAITING nor LATCHED holds (R372). -/
def State.clearTrip (s : State) (n : Nat) : State :=
  if (s.out n).waiting || (s.out n).latched then s else s.alarmOf (0x2020 + n) 0 (s.out n).current (s.outStatus n)

/-- What an accepted mode write does (R303, R310): LATCHED clears, the position restarts at 0, and FLOATING starts
with a full close stroke. -/
def State.modeWritten (s : State) (n : Nat) : State :=
  let o := s.out n
  let fl := s.floating n
  let s1 := s.setOut n { o with
    latched := false
    trips := []
    pos := 0
    posAcc := 0
    stroke := if fl then s.reg (Reg.DMP_RUNTIME n) * clkSec else 0
    overs := false
    overDone := false
    peak := false }
  if o.latched then s1.clearTrip n else s1

/-- The rule of `OUT_MODE` (R303, R310). -/
def outModeRule (n : Nat) (s : State) (v : Nat) : Status × State :=
  if s.partner n then (.state, s)
  else if outModeOk n v = false then (.range, s)
  else andThen (s.putEntry (Reg.OUT_MODE n) v) fun t => t.modeWritten n

/-- OUT_MODE_WRITE (R303). -/
def execOutModeWrite (n : Nat) (w : Wr) (s : State) : Out := .next (s.ledgerWrite w (Reg.OUT_MODE n) (outModeRule n))

/-- The trips of the last 10 min and the one now. -/
def State.recent (s : State) (l : List Nat) : List Nat := (l.filter fun t => Nat.ble s.now (t + 600 * clkSec)) ++ [s.now]

/-- OUTPUT_TRIP (R309, R310): damper or valve n = 0 to 7; `short` where the cycle limit acted in 64 consecutive periods. -/
def execOutputTrip (n : Nat) (short : Bool) (s : State) : Out :=
  .next (
    let o := s.out n
    if 7 < n ∨ o.waiting = true ∨ o.latched = true then s
    else
      let trips := s.recent o.trips
      let latched := Nat.ble 3 trips.length
      let s1 := s.setOut n { o with
        waiting := true, trips := trips, latched := latched, overcurrent := o.overcurrent || short
        limitAt := if short then some s.now else o.limitAt }
      let base := if n = 1 ∨ n = 3 then n - 1 else n
      let s2 := if s1.floating base then s1.setOut base { s1.out base with unknown := true } else s1
      let s3 := s2.incSat (Reg.OUT_FAULTS n)
      (s3.pushLog Lt.ACTUATOR_FAULT (leBytes 2 n ++ [b2n latched, 0] ++ leBytes 2 o.current)).alarmOf (0x2020 + n) 1 o.current
        (s3.outStatus n))

/-- OUTPUT_TRIP_RESUME (R310): after 10 s the output resumes its LEVEL unless LATCHED. -/
def execOutputTripResume (n : Nat) (s : State) : Out :=
  .next (if (s.out n).waiting then (s.setOut n { s.out n with waiting := false }).clearTrip n else s)

/-- A fan channel turned off by the thermal rule (R311, R325). -/
def State.fanThermal (s : State) (c : Nat) : State :=
  (s.setFan c { s.fan c with st := .off, retug := false, attempt := 0 }).endShort c

/-- THERMAL_SHUTDOWN (R311): `temp` is the power-die temperature in 1/64 K. -/
def execThermalShutdown (temp : Nat) (s : State) : Out :=
  .next (
    if s.act.thermal then s
    else
      let s1 := ({ s with act := { s.act with thermal := true } }).incSat Reg.THERMAL_EVENTS
      let s2 := [0, 1].foldl State.fanThermal s1
      (s2.pushLog Lt.ACT_THERMAL (leBytes 2 temp)).alarmOf 0x2030 1 temp s2.actStatus)

/-- THERMAL_RESUME (R311): outputs resume, each fan channel with a target restarts with a tug. -/
def execThermalResume (s : State) : Out :=
  .next (
    if s.act.thermal then
      let s1 := { s with act := { s.act with thermal := false } }
      let s2 := [0, 1].foldl (fun t c =>
        if (t.fan c).target ≠ 0 ∧ (t.fan c).latched = false then t.startTug c 1 false else t) s1
      s2.alarmOf 0x2030 0 s2.dieTemp64 s2.actStatus
    else s)

/-- FLOATING_OVERDRIVE_END (R303): half of `DMP_RUNTIME` at the end stop has passed. -/
def execFloatingOverdriveEnd (n : Nat) (s : State) : Out :=
  .next (if (s.out n).overs then s.setOut n { s.out n with overs := false, overDone := true } else s)

/-- VALVE_PEAK_END (R304): n = 4 to 7. -/
def execValvePeakEnd (n : Nat) (s : State) : Out :=
  .next (if isValve n then s.setOut n { s.out n with peak := false } else s)

/-! ### Fan entries -/

/-- The rule of `FAN_COMMAND` (R298, R315): refused while a loop names the channel and in STORM; a channel that the fan-table
engine holds drops the write and counts it (R221). -/
def fanCommandRule (c : Nat) (s : State) (v : Nat) : Status × State :=
  if s.storm ∨ s.loopNames (256 * 5 + c + 1) ≠ [] then (.state, s)
  else andThen (plainRule (Reg.FAN_COMMAND c) s v) fun t =>
    if (t.engine c).held then t.incSat Reg.WHARF_REJECTS else t.commandFan c (t.fanMv c v)

/-- FAN_COMMAND_WRITE (R315): channel n = 0 or 1. -/
def execFanCommandWrite (n : Nat) (w : Wr) (s : State) : Out :=
  .next (s.ledgerWrite w (Reg.FAN_COMMAND n) (fanCommandRule n))

/-- The other bands of a channel, as (L, H); 0 is unused. -/
def State.otherBands (s : State) (c j : Nat) : List (Nat × Nat) :=
  ((List.range 4).filter fun k => k != j && s.reg (Reg.FAN_BAND c k) != 0).map fun k =>
    (field (s.reg (Reg.FAN_BAND c k)) 0 16, field (s.reg (Reg.FAN_BAND c k)) 16 16)

/-- Bands are closed intervals: [L, H] and [L', H'] overlap where they share a value (R293, R317). -/
def bandsMeet (a b : Nat × Nat) : Bool := Nat.ble a.1 b.2 && Nat.ble b.1 a.2

/-- The rule of `FAN_BAND` j = 0 to 3 (R317): the command in force is put against the new bands. -/
def fanBandRule (c j : Nat) (s : State) (v : Nat) : Status × State :=
  let b := (field v 0 16, field v 16 16)
  if v ≠ 0 ∧ (b.2 ≤ b.1 ∨ (s.otherBands c j).any (bandsMeet b) = true) then (.range, s)
  else andThen (s.putEntry (Reg.FAN_BAND c j) v) fun t =>
    if (t.fan c).st = .running then t.commandFan c (t.fan c).cmd else t

/-- FAN_BAND_WRITE (R317). -/
def execFanBandWrite (c j : Nat) (w : Wr) (s : State) : Out := .next (s.ledgerWrite w (Reg.FAN_BAND c j) (fanBandRule c j))

/-- A channel reaches RUNNING: the command kept meanwhile is applied (R325). -/
def State.fanRuns (s : State) (c : Nat) : State :=
  (s.setFan c { s.fan c with st := .running, retry := false, retug := false }).commandFan c (s.fan c).cmd

/-- LATCHED cleared by a write of `FAN_ILIMIT` (R318): a channel off after its last short restarts once its 5 s are over, and a
channel that was commanded meanwhile starts. -/
def State.fanUnlatched (s : State) (c : Nat) : State :=
  let f := s.fan c
  let s1 := s.setFan c { f with latched := false, shorts := [] }
  if f.latched = false then s1
  else
    let s2 := if f.short then s1 else s1.alarmOf (0x2010 + c) 0 f.iout (s1.fanStatus c)
    if f.st = .shortOff ∧ f.short = false then s2.fanRuns c
    else if f.st = .off ∧ f.target ≠ 0 ∧ s.act.thermal = false then s2.startTug c 1 false
    else s2

/-- What the row FAN_ILIMIT_WRITE accepts and does. -/
def fanIlimitRule (n : Nat) (t : State) (v : Nat) : Status × State :=
  andThen (plainRule (Reg.FAN_ILIMIT n) t v) fun u => u.fanUnlatched n

/-- FAN_ILIMIT_WRITE (R318). -/
def execFanIlimitWrite (n : Nat) (w : Wr) (s : State) : Out :=
  .next (s.ledgerWrite w (Reg.FAN_ILIMIT n) (fanIlimitRule n))

/-! ### Starting and stalls (R325) -/

/-- A tach's fan back in RUNNING: its alarm source clears where it was raised (R325, R326, R372). -/
def State.tachRuns (s : State) (k : Nat) : State :=
  let x := s.tach k
  let s1 := s.setTach k { x with st := .running, outside := 0 }
  if x.st = .stalled ∨ x.st = .lost then s1.alarmOf (0x2000 + k) 0 x.rpm TachState.running.code else s1

/-- The end of a tug of a start (R325). -/
def State.tugOver (s : State) (c : Nat) : State :=
  let f := s.fan c
  let bound := s.boundTachs c
  let started := bound.filter fun k => Nat.ble 2 (s.tach k).tugEdges
  if started = bound then
    let s1 := if f.stallSeen then s.pushLog Lt.FAN_RECOVER [c + 1] else s
    (started.foldl State.tachRuns (s1.setFan c { s1.fan c with stallSeen := false })).fanRuns c
  else if started ≠ [] then
    let s1 := started.foldl State.tachRuns s
    ((bound.filter fun k => !started.contains k).foldl (fun t k => t.stallTach c k) s1).fanRuns c
  else if f.retry = false ∧ f.attempt < 4 then s.setFan c { f with st := .wait }
  else s.stallChannel c (!f.retry)

/-- FAN_TUG_END (R325): the 2 s of a tug are over; channel n = 0 or 1. -/
def execFanTugEnd (n : Nat) (s : State) : Out :=
  .next (
    if (s.fan n).st = .tug then s.tugOver n
    else if (s.fan n).retug then s.setFan n { s.fan n with retug := false }
    else s)

/-- FAN_WAIT_END (R325): 10 s after the start of the last attempt. -/
def execFanWaitEnd (n : Nat) (s : State) : Out :=
  .next (if (s.fan n).st = .wait then s.startTug n ((s.fan n).attempt + 1) false else s)

/-- FAN_STALL_RETRY (R325): one attempt from STALL, or one 2 s tug for a STALLED fan of a running channel. -/
def execFanStallRetry (n : Nat) (s : State) : Out :=
  .next (
    if (s.fan n).st = .stall then s.startTug n 1 true
    else if (s.fan n).st = .running ∧ ((s.boundTachs n).any fun k => (s.tach k).st == .stalled) = true then
      (s.setFan n { s.fan n with retug := true }).clearTugEdges n
    else s)

/-- FAN_SHORT (R318, R325): the channel turns off for 5 s; the third short within 10 min latches. -/
def execFanShort (n : Nat) (s : State) : Out :=
  .next (
    let f := s.fan n
    if f.st = .running then
      let shorts := s.recent f.shorts
      let latched := Nat.ble 3 shorts.length
      let s1 := s.setFan n { f with st := .shortOff, short := true, shorts := shorts, latched := latched, retug := false }
      (s1.pushLog Lt.FAN_SHORT ([n + 1, b2n latched] ++ leBytes 2 f.iout)).alarmOf (0x2010 + n) 1 f.iout (s1.fanStatus n)
    else s)

/-- FAN_SHORT_OFF_END (R318, R325): after 5 s the supply restarts from 0 without a tug unless LATCHED. -/
def execFanShortOffEnd (n : Nat) (s : State) : Out :=
  .next (
    if (s.fan n).short then
      let s1 := s.endShort n
      if (s.fan n).st = .shortOff ∧ (s.fan n).latched = false then s1.fanRuns n else s1
    else s)

/-! ### Tachs and ripple (R322 to R326) -/

/-- An accepted edge stamped: the newest five are enough for `TACH_PPR` intervals. -/
def State.stampEdge (s : State) (k t : Nat) : State :=
  let x := s.tach k
  s.setTach k { x with edges := (t :: x.edges).take 5, tugEdges := x.tugEdges + 1 }

/-- `TACH_RPM` after an edge (R322): a reading above 20,000 rpm is discarded and counted. -/
def State.readRpm (s : State) (k : Nat) : State :=
  let x := s.tach k
  match x.edges.head?, x.edges[s.reg (Reg.TACH_PPR k)]? with
  | some t1, some t0 =>
    let d := t1 - t0
    if d = 0 ∨ 20000 < rdivN 3000000000 d then s.setTach k { x with noise := satInc 32 x.noise }
    else s.setTach k { x with rpm := rdivN 3000000000 d }
  | _, _ => s

/-- What an accepted edge does to the fan (R325, R326): a STALLED one comes back with 2 edges in a tug, any other at once. -/
def State.edgeRuns (s : State) (k : Nat) : State :=
  match s.tachChannel k with
  | none => s
  | some c =>
    let x := s.tach k
    let tug := (s.fan c).st == .tug || (s.fan c).retug
    if x.st = .running then s
    else if x.st = .stalled then (if tug && Nat.ble 2 x.tugEdges then s.tachRuns k else s)
    else s.tachRuns k

/-- TACH_EDGE (R322): an accepted falling edge of tach n = 0 to 3 at T64 `t`. -/
def execTachEdge (n t : Nat) (s : State) : Out := .next (((s.stampEdge n t).readRpm n).edgeRuns n)

/-- TACH_STOP (R322, R326): no accepted edge for 500 ms. -/
def execTachStop (n : Nat) (s : State) : Out :=
  .next (
    let x := s.tach n
    if x.edges.any fun t => Nat.blt s.now (t + 500 * clkMs) then s
    else
      let runs := (s.tachChannel n).any fun c => (s.fan c).st == .running
      let st := if x.st = .running then (if runs then TachState.checking else .stopped) else x.st
      s.setTach n { x with rpm := 0, st := st, stopAt := if st = x.st then x.stopAt else s.now })

/-- Within ±25 % of the expected speed, or at least 300 rpm where none is learnt (R326). -/
def estimateGood (ripple expected perV : Nat) : Bool :=
  if perV = 0 then Nat.ble 300 ripple
  else Nat.ble (4 * (if ripple < expected then expected - ripple else ripple - expected)) expected

/-- A speed as a U16 entry or record shows it: beyond 65,535, which the spec's formulas can reach, a free value (assumption 1). -/
def State.fit16 (s : State) (v : Nat) : Nat := if v < 65536 then v else s.free % 65536

/-- One fan in CHECKING or TACH_LOST judged on the estimate of a window (R326); without commutation events per revolution a
CHECKING fan is STALLED. -/
def State.judgeTach (s : State) (c k ripple : Nat) : State :=
  let x := s.tach k
  let ppr := s.reg (Reg.FAN_RIPPLE_PPR c)
  let exp_ := s.expectedRpm c k
  let good := ppr != 0 && estimateGood ripple exp_ x.perV
  let s1 := s.setTach k { x with ripple := if ppr = 0 then x.ripple else s.fit16 ripple, outside := if good then 0 else x.outside + 1 }
  if x.st = .checking then
    if s.now < x.stopAt + clkSec then s1.setTach k { s1.tach k with outside := 0 }
    else if good then
      let s2 := s1.setTach k { s1.tach k with st := .lost }
      (s2.pushLog Lt.TACH_LOST ([c + 1, k + 1] ++ leBytes 2 (s.fit16 ripple) ++ leBytes 2 (s.fit16 exp_))).alarmOf (0x2000 + k) 1 x.rpm TachState.lost.code
    else s1.stallTach c k
  else if x.outside + 1 ≥ 3 ∧ good = false then s1.stallTach c k
  else s1

/-- The estimate of a window of E events for each of m fans (R324). -/
def State.rippleOf (s : State) (c m e : Nat) : Nat :=
  let p := s.reg (Reg.FAN_RIPPLE_PPR c)
  let sum := ((s.boundTachs c).map fun k => if (s.tach k).st == .running then (s.tach k).rpm else 0).sum
  (rdiv ((60 * e : Nat) - (p * sum : Nat)) ((p * m : Nat) : Int)).toNat

/-- RIPPLE_WINDOW_END (R324 to R326): a 1 s window of channel n = 0 or 1 closes with E commutation events; a channel with every
bound tach STALLED stalls. -/
def execRippleWindowEnd (n events : Nat) (s : State) : Out :=
  .next (
    if (s.fan n).st = .running then
      let s1 := s.setFan n { s.fan n with rate := min 65535 events, events := events }
      let judged := (s1.boundTachs n).filter fun k => (s1.tach k).st == .checking || (s1.tach k).st == .lost
      let est := s1.rippleOf n judged.length events
      let s2 := judged.foldl (fun t k => t.judgeTach n k est) s1
      if judged ≠ [] ∧ ((s2.boundTachs n).all fun k => (s2.tach k).st == .stalled) = true then (s2.stallChannel n true).tickFree
      else s2.tickFree
    else s)

/-- `RPM_PER_V` moved an eighth of the way (R323). -/
def State.learnTach (s : State) (c k : Nat) : State :=
  let x := s.tach k
  let meas := rdivN (x.rpm * 256000) (s.fan c).target
  if x.st = .running then
    s.setTach k { x with perV := if x.perV = 0 then meas else ((x.perV : Int) + rdiv ((meas : Int) - x.perV) 8).toNat }
  else s

/-- RPM_LEARN (R323): once per second on channel n = 0 or 1 while it runs with a target unchanged for 10 s. -/
def execRpmLearn (n : Nat) (s : State) : Out :=
  .next (if (s.fan n).st = .running ∧ s.waited (s.fan n).targetAt (10 * clkSec) = true then
    (s.boundTachs n).foldl (fun t k => t.learnTach n k) s else s)

end Sys2Proof.Machine
end

