-- ==== Sys2Proof/Machine/SensOps.lean ====
section
/-!
DEFINITION. Shared operations of the slow ADC, the digital inputs and the identity reader (R328 to R353).
-/
namespace Sys2Proof.Machine

/-- The sensing part replaced. -/
def State.withSens (s : State) (x : SensPart) : State := { s with sens := x }

/-! ### The slow ADC (R329 to R341) -/

/-- The mode of a channel; internal channels are always on (R331). -/
def State.aiOn (s : State) (ch : Nat) : Bool :=
  if within 1 12 ch then s.reg (Reg.AI_MODE (ch - 1)) != 0 else within 32 44 ch

/-- The channels of a round in order (R332). -/
def State.roundChannels (s : State) : List Nat :=
  ((List.range 12).map (· + 1)).filter s.aiOn ++ (List.range 13).map (· + 32)

/-- The factor range of a channel in a mode (R342). -/
def adcRange (ch mode : Nat) : Nat :=
  if within 1 12 ch then mode - 1
  else if within 33 38 ch || ch == 44 then 5 else 4

/-- The settings an entry of a channel uses (R332, R337); an urgent entry brings its own averaging code (R340). -/
def State.adcCfg (s : State) (ch : Nat) (avg : Option Nat) : AdcCfg :=
  let i := ch - 1
  let ext := within 1 12 ch
  let mode := if ext then s.reg (Reg.AI_MODE i) else 0
  let r := adcRange ch mode
  { mode := mode
    avg := avg.getD (if ext then s.reg (Reg.AI_AVG i) else 2)
    settle := if ext then s.reg (Reg.AI_SETTLE i) else 2
    unit := if ext then s.reg (Reg.AI_UNIT i) else 0
    inLow := if ext then s.regI (Reg.SCALE_IN_LOW i) else 0
    inHigh := if ext then s.regI (Reg.SCALE_IN_HIGH i) else 0
    outLow := if ext then s.regI (Reg.SCALE_OUT_LOW i) else 0
    outHigh := if ext then s.regI (Reg.SCALE_OUT_HIGH i) else 0
    rnom := if ext then s.reg (Reg.NTC_RNOM i) else 0
    beta := if ext then s.reg (Reg.NTC_BETA i) else 0
    gain := s.regI (Reg.ADC_GAIN r)
    offset := s.regI (Reg.ADC_OFFSET r) }

/-- An entry of a round begun. -/
def State.roundEntry (s : State) (ch : Nat) : State :=
  s.withSens { s.sens with adc := .round ch, cfg := s.adcCfg ch none }

/-- A round started (R332). -/
def State.startRound (s : State) : State :=
  (({ s with sens := { s.sens with roundDue := false, nbr := false } } : State)).roundEntry (s.roundChannels.headD 32)

/-- A round start that is due now (R332, R340): a running round makes it wait and counts, another entry makes it wait. -/
def State.roundStart (s : State) : State :=
  match s.sens.adc with
  | .idle => s.startRound
  | .round _ => (s.withSens { s.sens with roundDue := true }).incSat Reg.ROUND_OVERRUNS
  | .selfCal (some _) => (s.withSens { s.sens with roundDue := true }).incSat Reg.ROUND_OVERRUNS
  | _ => s.withSens { s.sens with roundDue := true }

/-- The round starts of a control tick (R332). -/
def State.tickRound (s : State) : State :=
  let p := s.reg Reg.SEQ_PERIOD
  if p ≠ 0 ∧ s.tick % p = 0 then s.roundStart else s

/-- The converter with nothing in progress: a self-calibration that waits, then a round that waits, then idle. -/
def State.adcFree (s : State) : State :=
  if s.sens.calDue then s.withSens { s.sens with adc := .selfCal none, calDue := false }
  else if s.sens.roundDue then s.startRound
  else s.withSens { s.sens with adc := .idle }

/-- After the entry of channel `ch` of a round: a self-calibration that waits (R341), the next channel, or the round's end. -/
def State.afterEntry (s : State) (ch : Nat) : State :=
  match s.roundChannels.find? fun k => Nat.blt ch k with
  | some k =>
    if s.sens.calDue then s.withSens { s.sens with adc := .selfCal (some k), calDue := false } else s.roundEntry k
  | none => s.adcFree

/-- Corrected core voltage in µV (R333). -/
def coreMicro (code : Nat) (gain offset : Int) : Int :=
  rdiv (((code * 2500000 : Nat) - offset * 65536) * (1000000 + gain)) 65536000000

/-- The linear map of R333. -/
def AdcCfg.scaled (c : AdcCfg) (x : Int) : Int :=
  c.outLow + rdiv ((x - c.inLow) * (c.outHigh - c.outLow)) (c.inHigh - c.inLow)

/-- `AI_VALUE` of a code (R333). -/
def AdcCfg.value (c : AdcCfg) (ch code : Nat) : Int :=
  let v := coreMicro code c.gain c.offset
  if !within 1 12 ch then Config.internalValue ch v
  else
    let natural := if c.mode = 1 then rdiv (4 * v) 1000 else if c.mode = 2 then rdiv v 100
      else Config.ntcTemp c.rnom c.beta (if c.mode = 3 then 10 else 100) v
    let own := if c.mode = 1 then 0 else if c.mode = 2 then 1 else 2
    if c.unit = own then natural else c.scaled natural

/-- A value as an I32 entry holds it: the map is not clamped, and beyond I32 the spec states no value (assumption 1). -/
def State.fitI32 (s : State) (v : Int) : Nat :=
  if withinI (-2147483648) 2147483647 v then ofSigned 32 v else s.free % 2 ^ 32

/-- `VIN_A_MV`, `VIN_B_MV` and `VHOLD_MV` follow channels 33 to 35 (R524); a value their width does not hold is free. -/
def State.vinResult (s : State) (ch : Nat) (v : Int) : State :=
  if within 33 35 ch then s.setReg (Reg.VIN_A_MV + (ch - 33)) (if withinI 0 65535 v then v.toNat else s.free % 65536) else s

/-- The results of an entry (R333, R336, R337, R338): `sum` is the sum of the codes, or the clamp code where it went over
range. -/
def State.adcResult (s : State) (ch sum : Nat) (ovr urgent : Bool) : State :=
  let c := s.sens.cfg
  let code := if ovr then (if sum = 0 then 0 else 0xFFFF) else rdivN sum (2 ^ c.avg)
  let nbr := s.sens.nbr && c.settle == 0
  let flags := b2n ovr + 2 * b2n nbr + 4 * b2n (ovr && code == 0) + 8 * b2n s.sens.precal + 32 * b2n urgent
  let value := c.value ch code
  let s1 := ((((s.vinResult ch value).setReg (aiKey ch 0x0B) code).setReg (aiKey ch 0x0C) (s.fitI32 value)).setReg (aiKey ch 0x0D) flags).setReg
    (aiKey ch 0x0E) s.now
  let s2 := if ovr then s1.incSat Reg.OVR_EVENTS else s1
  let rest := s.sens.prevOvr.filter fun k => k != ch
  let s3 := s2.withSens { s2.sens with
    prevOvr := if ovr then rest ++ [ch] else rest
    nbr := ovr && !s.sens.prevOvr.contains ch
    vrefSuspect := if ch = 32 then !withinI 2475 2525 value else s.sens.vrefSuspect }
  s3.tickFree

/-- What an urgent entry reports (R336, R340). -/
def State.urgentResult (s : State) (ch : Nat) : State :=
  let seq := if s.sens.urgentSeq + 1 < 65536 then s.sens.urgentSeq + 1 else s.free % 65536
  let v := s.reg (aiKey ch 0x0C) * 2 ^ 32 + ch * 2 ^ 24 + s.reg (aiKey ch 0x0D) * 2 ^ 16 + seq
  ((s.setReg Reg.URGENT_RESULT v).withSens { s.sens with urgentSeq := seq }).tickFree

/-- Whether a channel's settings agree (R337). -/
def aiAgrees (mode unit : Nat) (inLow inHigh outLow outHigh : Int) : Bool :=
  let ntc := mode == 3 || mode == 4
  let lin := mode == 1 || mode == 2
  let identity := decide (outLow = inLow) && decide (outHigh = inHigh)
  Nat.ble mode 4 && !(ntc && unit != 2) && !(lin && unit == 2 && identity) && decide (inLow ≠ inHigh) &&
    !(mode == 1 && unit == 1) && !(mode == 2 && unit == 0)

/-! ### Digital inputs (R344 to R347) -/

/-- Input n replaced, n = 1 to 8. -/
def State.setDi (s : State) (n : Nat) (d : DiUnit) : State :=
  s.withSens { s.sens with dis := s.sens.dis.set (n - 1) d }

/-- `DI_STATUS` (R345). -/
def DiUnit.status (d : DiUnit) : Nat := b2n d.value + 2 * b2n d.stuck + 4 * b2n d.chatter + 8 * b2n d.raw

/-- The alarm source of an input (R372). -/
def State.diAlarm (s : State) (n : Nat) (raised : Bool) : State :=
  s.alarmOf (0x2040 + n - 1) (b2n raised) (s.di n).suppressed (s.di n).status

/-- The alarm source cleared once the input is neither STUCK nor in CHATTER, having been one of them. -/
def State.diCleared (s : State) (n : Nat) (was : Bool) : State :=
  if was && !(s.di n).stuck && !(s.di n).chatter then s.diAlarm n false else s

/-- A disabled input: inactive, its detectors reset (R345). -/
def DiUnit.off (d : DiUnit) : DiUnit :=
  { d with raw := false, filt := false, agree := 0, stuck := false, chatter := false, frozen := false, edges := 0
           complete := false }

/-- Input n has changed to active: a wake event where `WAKE_INPUTS` names it (R523). -/
def State.diWake (s : State) (n : Nat) (active : Bool) : State :=
  if active && s.regBit Reg.WAKE_INPUTS (n - 1) then s.wakeEvent else s

/-- A change of the value of an input outside CHATTER (R344, R346, R523). -/
def State.diChange (s : State) (n : Nat) (active : Bool) : State :=
  let d := s.di n
  let s1 := s.setDi n { d with
    since := if active then s.now else d.since
    activations := if active then satInc 32 d.activations else d.activations
    stuck := active && d.stuck }
  (s1.diCleared n d.stuck).diWake n active

/-- An input enters CHATTER with the filtered value of the sample before (R347). -/
def State.diEnter (s : State) (n : Nat) (before : Bool) : State :=
  let d := s.di n
  let s1 := s.setDi n { d with chatter := true, frozen := before, complete := false, pausedAt := s.now }
  (s1.pushLog Lt.INPUT_CHATTER ([n, 1, 0, 0] ++ leBytes 4 d.suppressed)).diAlarm n true

/-- One sample of an enabled input: raw state, filter, chatter (R344, R347). -/
def State.diSample (s : State) (n : Nat) (mv : Nat) : State :=
  let d := s.di n
  let cfg := s.reg (Reg.DI_CONFIG (n - 1))
  let high := if 7000 ≤ mv then true else if mv ≤ 3000 then false else d.high
  if !bitAt cfg 0 then (s.setDi n ({ d with high := high }.off)).diCleared n (d.stuck || d.chatter)
  else
    let raw := high != bitAt cfg 1
    let edge := raw != d.raw
    let agree := if raw = d.filt then 0 else d.agree + 1
    let change := decide (raw ≠ d.filt) && decide (s.reg (Reg.DI_FILTER (n - 1)) ≤ agree)
    let edges := if edge then d.edges + 1 else d.edges
    let enter := edge && !d.chatter && decide (s.reg (Reg.DI_CHATTER_EDGES (n - 1)) < edges)
    let s1 := s.setDi n { d with
      high := high, raw := raw, filt := if change then raw else d.filt, agree := if change then 0 else agree, edges := edges }
    let s2 := if enter then s1.diEnter n d.filt else s1
    if !change then s2
    else if d.chatter || enter then
      let e := s2.di n
      s2.setDi n { e with
        suppressed := satInc 32 e.suppressed
        since := if raw then s.now else e.since
        pausedAt := if raw then s.now else e.pausedAt }
    else s2.diChange n raw

/-- The inputs at row 0 of a control tick (R344). -/
def State.sampleInputs (s : State) (mv : List Nat) : State :=
  ((List.range 8).zip mv).foldl (fun t p => t.diSample (p.1 + 1) p.2) s

/-- An input leaves CHATTER at the end of a quiet window (R347). -/
def State.diLeave (s : State) (n : Nat) : State :=
  let d := s.di n
  let s1 := s.setDi n { d with chatter := false, since := if d.filt then d.since + (s.now - d.pausedAt) else d.since }
  let s2 := s1.pushLog Lt.INPUT_CHATTER ([n, 0, 0, 0] ++ leBytes 4 d.suppressed)
  let s3 := if d.filt = d.frozen then s2
    else (s2.setDi n { s2.di n with
      activations := if d.filt then satInc 32 d.activations else d.activations
      stuck := d.filt && d.stuck }).diWake n d.filt
  s3.diCleared n true

/-! ### Module identity (R348 to R353) -/

def IdSlot.empty : IdSlot := { st := .empty, reading := false, attempts := 0, record := [] }

/-- Slot n = 1 to 8. -/
def State.slot (s : State) (n : Nat) : IdSlot := s.sens.slots.getD (n - 1) IdSlot.empty
def State.setSlot (s : State) (n : Nat) (x : IdSlot) : State :=
  s.withSens { s.sens with slots := s.sens.slots.set (n - 1) x }

/-- A read of a slot begun (R349). -/
def State.startRead (s : State) (n : Nat) : State :=
  s.setSlot n { s.slot n with st := .reading, reading := true, attempts := 0 }

/-- KIND of the record a slot holds, 0 for none (R350, R353). -/
def IdSlot.kind (x : IdSlot) : Nat := x.record.getD 3 0

/-- `SLOT_BIND`. -/
def State.slotBind (s : State) (n : Nat) : Nat := s.reg (Reg.SLOT_BIND (n - 1))

/-- A well-formed identity record: 256 bytes, MAGIC and CRC (R349, R350). -/
def idGood (b : List Nat) : Bool :=
  b.length == 256 && u16At b 0 == 0x4952 && crc16 (b.take 254) == u16At b 254

/-- Entries loaded only where every one is in its range (R352): a lens takes a filled table (R112), a fan tray takes bands that
R317 allows. -/
def allInRange (l : List (Nat × Nat)) : Bool := l.all fun p => inRange p.1 p.2

/-- The bands of a record (R351), as entries of `FAN_BAND`. -/
def trayBands (b : List Nat) : List (Nat × Nat) := (List.range 4).map fun j => (u16At b (52 + 4 * j), u16At b (54 + 4 * j))

/-- No band is empty or meets another; 0, 0 is unused (R317). -/
def bandsAllowed (l : List (Nat × Nat)) : Bool :=
  let used := l.filter fun p => p.1 != 0 || p.2 != 0
  (used.all fun p => Nat.blt p.1 p.2) &&
    (List.range used.length).all fun i => (List.range i).all fun j =>
      !bandsMeet (used.getD i (0, 0)) (used.getD j (0, 0))

/-- Little-endian U32 at an offset. -/
def u32At (b : List Nat) (i : Nat) : Nat := u16At b i + 65536 * u16At b (i + 2)

/-- What probe p of a pod loads into channel index i (R351): mode, unit, and four I32. -/
def podLoads (b : List Nat) (p i : Nat) : List (Nat × Nat) :=
  let o := 52 + 20 * p
  let mode := b.getD o 0
  [(Reg.AI_MODE i, mode), (Reg.AI_UNIT i, b.getD (o + 1) 0)] ++
    (if mode = 3 ∨ mode = 4 then [(Reg.NTC_RNOM i, u32At b (o + 4)), (Reg.NTC_BETA i, u32At b (o + 8))]
    else [(Reg.SCALE_IN_LOW i, u32At b (o + 4)), (Reg.SCALE_IN_HIGH i, u32At b (o + 8)),
      (Reg.SCALE_OUT_LOW i, u32At b (o + 12)), (Reg.SCALE_OUT_HIGH i, u32At b (o + 16))])

/-- The entries a record loads, none where a value is outside its entry's range (R351, R352). -/
def State.recordLoads (s : State) (n : Nat) (b : List Nat) : Option (List (Nat × Nat)) :=
  let bind := s.slotBind n
  let kind := b.getD 3 0
  if kind = 1 then
    let l := [(Reg.LENS_F_NUMBER, u16At b 48), (Reg.LENS_TRANSMISSION, u16At b 52), (Reg.LENS_FF_TABLE, b.getD 86 0)]
    if allInRange l && s.ffFilled (b.getD 86 0) then some (l ++ [(Reg.LENS_SOURCE, 1)]) else none
  else if kind = 2 then
    let l := [(Reg.SHUTTER_TRAVEL, u16At b 48), (Reg.FLAG_BETA, u16At b 50)]
    if allInRange l then some l else none
  else if kind = 3 then
    if bind = 0 then some []
    else
      let c := bind - 1
      let l := ((s.boundTachs c).map fun k => (Reg.TACH_PPR k, b.getD 49 0)) ++ [(Reg.FAN_VFULL c, u16At b 50)]
      let bands := (List.range 4).map fun j => (Reg.FAN_BAND c j, u16At b (54 + 4 * j) * 65536 + u16At b (52 + 4 * j))
      if allInRange l && bandsAllowed (trayBands b) && Nat.ble bind 2 then some (l ++ bands) else none
  else
    let probes := b.getD 49 0
    if bind = 0 then some []
    else if !within 1 3 probes || Nat.blt 12 (bind + probes - 1) then none
    else
      let l := (List.range probes).flatMap fun p => podLoads b p (bind - 1 + p)
      let agree := (List.range probes).all fun p =>
        let o := 52 + 20 * p
        let m := b.getD o 0
        let i := bind - 1 + p
        let ntc := m == 3 || m == 4
        let sc (k : Nat) (old : Int) : Int := if ntc then old else toSigned 32 (u32At b (o + 4 + 4 * k))
        aiAgrees m (b.getD (o + 1) 0) (sc 0 (s.regI (Reg.SCALE_IN_LOW i))) (sc 1 (s.regI (Reg.SCALE_IN_HIGH i)))
          (sc 2 (s.regI (Reg.SCALE_OUT_LOW i))) (sc 3 (s.regI (Reg.SCALE_OUT_HIGH i)))
      let betas := (List.range probes).all fun p => b.getD (52 + 20 * p) 0 < 3 || Nat.ble (u32At b (60 + 20 * p)) 65535
      if allInRange l && agree && betas then some (l ++ (List.range probes).map fun p => (Reg.AI_SOURCE (bind - 1 + p), 1))
      else none

/-- A slot whose record conflicts with one of kind `kind` in slot n: a VALID lens, shutter, or tray on the same channel
(R352). -/
def State.conflictsWith (s : State) (n kind k : Nat) : Bool :=
  k != n && (s.slot k).st == .valid && (s.slot k).kind == kind &&
    (kind == 1 || kind == 2 || (kind == 3 && s.slotBind n != 0 && s.slotBind k == s.slotBind n))

/-- A good record arrives in a slot (R349 to R352). -/
def State.recordRead (s : State) (n : Nat) (b : List Nat) : State :=
  let kind := b.getD 3 0
  let x := { s.slot n with reading := false, attempts := 0, record := b }
  let s1 := ((s.withSens { s.sens with busStuck := false }).incSat Reg.ID_READS)
  if b.getD 2 0 ≠ 1 ∨ kind = 0 ∨ 4 < kind then s1.setSlot n { x with st := .unknown }
  else if (List.range n).any (s.conflictsWith n kind) then s1.setSlot n { x with st := .conflict }
  else match s1.recordLoads n b with
    | none => (s1.setSlot n { x with st := .fault }).incSat Reg.ID_ERRORS
    | some l =>
      let s2 := (l.foldl (fun t p => t.setReg p.1 p.2) s1).setSlot n { x with st := .valid }
      let s3 := ((List.range 9).filter fun k => Nat.blt n k && s.conflictsWith n kind k).foldl
        (fun t k => t.setSlot k { t.slot k with st := .conflict }) s2
      if kind = 2 then s3.setShutter { s3.focal.shutter with ramio := true, r25 := u32At b 52 } else s3

/-- A read that failed (R349). -/
def State.readFailed (s : State) (n : Nat) : State :=
  let x := s.slot n
  if x.attempts + 1 < 3 then s.setSlot n { x with reading := false, attempts := x.attempts + 1 }
  else (s.setSlot n { x with st := .fault, reading := false, attempts := x.attempts + 1 }).incSat Reg.ID_ERRORS

/-- A module gone from a slot: removal effects of the record it had loaded (R352). -/
def State.slotRemoved (s : State) (n : Nat) : State :=
  let x := s.slot n
  let loaded := x.kind
  let others (k : Nat) : Bool := (List.range 9).any fun j => j != 0 && j != n && (s.slot j).st == .valid && (s.slot j).kind == k
  let s1 := s.setSlot n IdSlot.empty
  if loaded = 1 ∧ s.reg Reg.LENS_SOURCE = 1 ∧ others 1 = false then s1.setReg Reg.LENS_SOURCE 0
  else if loaded = 2 ∧ others 2 = false then s1.setShutter { s1.focal.shutter with ramio := false, r25 := 10000 }
  else s1

/-- `ID_STATUS` (R353). -/
def State.idStatus (s : State) : Nat :=
  ((List.range 8).map fun i =>
    let x := s.slot (i + 1)
    2 ^ i * (b2n (x.st != .empty) + 2 ^ 8 * b2n (x.st == .valid) + 2 ^ 16 * b2n (x.st == .fault || x.st == .conflict))).sum +
    2 ^ 24 * b2n s.sens.busStuck

end Sys2Proof.Machine
end

