-- ==== Sys2Proof/Machine/Sensing.lean ====
section
/-!
DEFINITION. The commands of chapter 10: the slow ADC, digital inputs and module identity.
-/
namespace Sys2Proof.Machine

/-! ### The slow ADC -/

/-- ADC_ENTRY_END (R333, R338 to R340): the entry in progress, of channel `ch`, ends with the sum of its codes, or over range
with its clamp code. -/
def execAdcEntryEnd (ch sum : Nat) (ovr : Bool) (s : State) : Out :=
  .next (match s.sens.adc with
    | .round k => if k = ch then (s.adcResult ch sum ovr false).afterEntry ch else s
    | .urgent k => if k = ch then ((s.adcResult ch sum ovr true).urgentResult ch).adcFree else s
    | _ => s)

/-- ADC_CONTINUOUS_ROUND (R332): with `SEQ_PERIOD` 0 a round starts in the slot after the previous one. -/
def execAdcContinuousRound (s : State) : Out :=
  .next (if s.reg Reg.SEQ_PERIOD = 0 ∧ s.sens.adc = .idle ∧ s.tide.running = true then s.startRound else s)

/-- The rule of `URGENT_REQUEST` (R340). -/
def urgentRule (s : State) (v : Nat) : Status × State :=
  let ch := v % 256
  if field v 12 4 ≠ 0 ∨ 4 < field v 8 4 ∨ s.aiOn ch = false then (.range, s)
  else if s.sens.adc ≠ .idle ∨ s.reg Reg.SEQ_PERIOD = 0 then (.dropped, s.incSat Reg.URGENT_DROPS)
  else
    andThen (s.putEntry Reg.URGENT_REQUEST v) fun t =>
      t.withSens { t.sens with adc := .urgent ch, urgentAvg := field v 8 4, cfg := t.adcCfg ch (some (field v 8 4)), nbr := false }

/-- URGENT_REQUEST_WRITE (R340). -/
def execUrgentRequestWrite (w : Wr) (s : State) : Out := .next (s.ledgerWrite w Reg.URGENT_REQUEST urgentRule)

/-- The rule of `ADC_CAL_COMMAND` (R336, R341): 1 starts a self-calibration at the end of the entry in progress. -/
def adcCalRule (s : State) (v : Nat) : Status × State :=
  let running := match s.sens.adc with
    | .selfCal _ => true
    | _ => s.sens.calDue
  if running then (.busy, s)
  else if v ≠ 1 then (.range, s)
  else (.ok, match s.sens.adc with
    | .idle => s.withSens { s.sens with adc := .selfCal none }
    | _ => s.withSens { s.sens with calDue := true })

/-- ADC_CAL_COMMAND (R341). -/
def execAdcCalCommand (r : Req) (s : State) : Out :=
  .next (s.ledgerWrite { req := r, len := 1, val := 1 } Reg.ADC_CAL_COMMAND adcCalRule)

/-- The factors of a kept self-calibration, range by range (R162, R341). -/
def State.setFactors (s : State) (gains offsets : List Int) : State :=
  let s1 := ((List.range 6).zip gains).foldl (fun t p => t.setRegI (Reg.ADC_GAIN p.1) p.2) s
  ((List.range 6).zip offsets).foldl (fun t p => t.setRegI (Reg.ADC_OFFSET p.1) p.2) s1

/-- Whether a self-calibration result is kept (R162). -/
def State.factorsKept (s : State) (gains offsets : List Int) (residual : Nat) : Bool :=
  (gains.all fun g => Nat.ble g.natAbs (s.reg Reg.ADC_GAIN_LIMIT)) &&
    (offsets.all fun o => Nat.ble o.natAbs (s.reg Reg.ADC_OFFSET_LIMIT)) && Nat.ble residual (s.reg Reg.ADC_RESIDUAL_LIMIT)

/-- ADC_SELF_CAL_DONE (R162, R341): the corrections of the six ranges and the largest residual at the check points. -/
def execAdcSelfCalDone (gains offsets : List Int) (residual : Nat) (s : State) : Out :=
  .next (match s.sens.adc with
    | .selfCal resume =>
      let s1 := if s.factorsKept gains offsets residual then
          let t := (((s.setFactors gains offsets).setReg Reg.ADC_RESIDUAL residual).setReg Reg.ADC_CAL_TICKS s.rtc.ticks).putBit
            Reg.SMALL_RESULT 2 false
          t.withSens { t.sens with precal := false, factorsHost := false, calDiscarded := false }
        else (s.putBit Reg.SMALL_RESULT 2 true).withSens { s.sens with calDiscarded := true }
      match resume with
      | some ch => s1.roundEntry ch
      | none => s1.adcFree
    | _ => s)

/-- What the row ADC_FACTOR_WRITE accepts and does. -/
def adcFactorRule (n : Nat) (s : State) (v : Nat) : Status × State :=
  let limit := s.reg (if n ≤ 6 then Reg.ADC_GAIN_LIMIT else Reg.ADC_OFFSET_LIMIT)
  if limit < (toSigned 32 v).natAbs then (.range, s)
  else andThen (s.putEntry (0x1B0100 + n) v) fun t =>
    (t.setReg Reg.ADC_CAL_TICKS t.rtc.ticks).withSens { t.sens with factorsHost := true }

/-- ADC_FACTOR_WRITE (R342): entry 0x1B01.n, n = 1 to 6 a gain, 7 to 12 an offset. -/
def execAdcFactorWrite (n : Nat) (w : Wr) (s : State) : Out :=
  .next (s.ledgerWrite w (0x1B0100 + n) (adcFactorRule n))

/-- The rule of subs 1 to 0x0A of channel ch = 1 to 12 (R337): the settings after the write must agree. -/
def aiConfigRule (ch sub : Nat) (s : State) (v : Nat) : Status × State :=
  let key := aiKey ch sub
  let t := s.setReg key v
  let i := ch - 1
  if inRange key v = false ∨ aiAgrees (t.reg (Reg.AI_MODE i)) (t.reg (Reg.AI_UNIT i)) (t.regI (Reg.SCALE_IN_LOW i))
      (t.regI (Reg.SCALE_IN_HIGH i)) (t.regI (Reg.SCALE_OUT_LOW i)) (t.regI (Reg.SCALE_OUT_HIGH i)) = false then (.range, s)
  else s.putEntry key v

/-- AI_CONFIG_WRITE (R337). -/
def execAiConfigWrite (ch sub : Nat) (w : Wr) (s : State) : Out :=
  .next (s.ledgerWrite w (aiKey ch sub) (aiConfigRule ch sub))

/-! ### Digital inputs -/

/-- DI_STUCK (R346): input n = 1 to 8 has been active for `DI_STUCK_TIME`. -/
def execDiStuck (n : Nat) (s : State) : Out :=
  .next (
    let d := s.di n
    let limit := s.reg (Reg.DI_STUCK_TIME (n - 1))
    if d.filt && !d.stuck && !d.chatter && limit != 0 && s.waited d.since (limit * clkSec) then
      ((s.setDi n { d with stuck := true }).pushLog Lt.INPUT_STUCK [n]).diAlarm n true
    else s)

/-- DI_CHATTER_WINDOW_END (R347): the end of a window of input n = 1 to 8. -/
def execDiChatterWindowEnd (n : Nat) (s : State) : Out :=
  .next (
    let d := s.di n
    let s1 := if d.chatter && d.complete && decide (2 * d.edges ≤ s.reg (Reg.DI_CHATTER_EDGES (n - 1))) then s.diLeave n else s
    s1.setDi n { s1.di n with edges := 0, complete := (s1.di n).chatter })

/-! ### Module identity -/

/-- ID_READER_START (R349). -/
def execIdReaderStart (s : State) : Out := .next (s.withSens { s.sens with idOn := true })

/-- MOD_DET_CHANGE (R349): the debounced detect input of slot 1 to 4. -/
def execModDetChange (slot : Nat) (on : Bool) (s : State) : Out :=
  .next (
    if !within 1 4 slot then s
    else if on then (if (s.slot slot).st = .empty then s.startRead slot else s)
    else if (s.slot slot).st = .empty then s else s.slotRemoved slot)

/-- ID_POLL (R348, R349): bit n − 1 of `ack` is set where slot n = 5 to 8 acknowledged. -/
def execIdPoll (ack : Nat) (s : State) : Out :=
  .next (if s.sens.idOn then
    [5, 6, 7, 8].foldl (fun t n =>
      if bitAt ack (n - 1) then (if (t.slot n).st = .empty then t.startRead n else t)
      else if (t.slot n).st = .empty then t else t.slotRemoved n) s
  else s)

/-- ID_READ_DONE (R349 to R352): a read of slot n = 1 to 8 ends. -/
def execIdReadDone (slot : Nat) (r : IdRead) (s : State) : Out :=
  .next (
    if s.sens.idOn && (s.slot slot).st == .reading && (s.slot slot).reading then
      match r with
      | .bytes b => if idGood b then s.recordRead slot b else s.readFailed slot
      | .failed => s.readFailed slot
      | .stuck => (s.withSens { s.sens with busStuck := true }).readFailed slot
    else s)

/-- ID_READ_RETRY (R349): 50 ms after a failed attempt. -/
def execIdReadRetry (n : Nat) (s : State) : Out :=
  .next (if (s.slot n).st = .reading then s.setSlot n { s.slot n with reading := true } else s)

/-- ID_FAULT_RETRY (R349): 60 s after FAULT. -/
def execIdFaultRetry (n : Nat) (s : State) : Out := .next (if (s.slot n).st = .fault then s.startRead n else s)

/-- A slot read again unless it is EMPTY (R349). -/
def State.reread (s : State) (n : Nat) : State := if (s.slot n).st = .empty then s else s.startRead n

/-- What the row ID_REREAD_WRITE accepts and does. -/
def idRereadRule (s : State) (v : Nat) : Status × State :=
  if inRange Reg.ID_REREAD v = false then (.range, s)
  else (.ok, if v = 0xFF then [1, 2, 3, 4, 5, 6, 7, 8].foldl State.reread s else s.reread v)

/-- ID_REREAD_WRITE (R349, R353). -/
def execIdRereadWrite (w : Wr) (s : State) : Out :=
  .next (s.ledgerWrite w Reg.ID_REREAD idRereadRule)

/-- The rule of `SLOT_BIND` of slot n = 1 to 8 (R353): 1 and 2 name a fan channel unless the slot holds a pod. -/
def slotBindRule (n : Nat) (s : State) (v : Nat) : Status × State :=
  let kind := (s.slot n).kind
  let probes := (s.slot n).record.getD 49 0
  let taken := (List.range 9).any fun k => k != 0 && k != n && (s.slot k).kind != 4 && s.slotBind k == v
  if (v = 1 ∨ v = 2) ∧ kind ≠ 4 ∧ taken = true then (.state, s)
  else if 12 < v ∨ (kind = 3 ∧ 2 < v) ∨ (kind = 4 ∧ v ≠ 0 ∧ 12 < v + probes - 1) then (.range, s)
  else andThen (s.putEntry (Reg.SLOT_BIND (n - 1)) v) fun t => t.reread n

/-- SLOT_BIND_WRITE (R353). -/
def execSlotBindWrite (n : Nat) (w : Wr) (s : State) : Out :=
  .next (s.ledgerWrite w (Reg.SLOT_BIND (n - 1)) (slotBindRule n))

end Sys2Proof.Machine
end

