-- ==== Sys2Proof/Machine/LinkOps.lean ====
section
/-!
DEFINITION. How ledger messages travel: headers, reassembly and framing over CAN, and the SPI transactions' bytes (R387, R392,
R393, R394 to R397).
-/
namespace Sys2Proof.Machine

/-! ### Messages (R387, R388) -/

/-- Operations the engine knows (R388). -/
def knownOps : List Nat := [0x01, 0x02, 0x10, 0x11, 0x12, 0x13, 0x14, 0x15, 0x20, 0x21, 0x22, 0x30, 0x3F]

/-- The request of a whole message, none where it is shorter than its DLEN says. -/
def requestOf (port : Port) (node : Nat) (m : List Nat) : Option Request :=
  let dlen := u16At m 6
  if m.length < 8 + dlen then none
  else some
    { req := { port := port, node := node, tag := m.getD 1 0 }, op := m.getD 0 0, index := u16At m 2, sub := m.getD 4 0
      data := (m.drop 8).take dlen }

/-- The bytes of a response (R387). -/
def Resp.message (r : Resp) : List Nat :=
  [r.op % 256, r.req.tag % 256] ++ leBytes 2 r.index ++ [r.sub % 256, r.status.code] ++ leBytes 2 r.data.length ++ r.data

/-- A request accepted (R397, R410): it waits its turn; an unknown operation is answered with TYPE (R388). -/
def State.acceptRequest (s : State) (q : Request) : State :=
  match s.serving q.req.port with
  | .silent => s
  | .notServing => { s with klp := { s.klp with linkErr := 4 } }
  | _ =>
    if knownOps.contains q.op then s.enqueueRequest q
    else s.request q (fun _ => some .type) fun t => (.type, [], t)

/-! ### Over CAN (R392, R393) -/

/-- Data lengths of an FD frame. -/
def fdLengths : List Nat := [0, 1, 2, 3, 4, 5, 6, 7, 8, 12, 16, 20, 24, 32, 48, 64]

/-- The data padded with zeros to the next valid FD length. -/
def fdPad (b : List Nat) : List Nat := b ++ zeros ((fdLengths.find? fun n => Nat.ble b.length n).getD 64 - b.length)

/-- A message cut into pieces of `n` bytes. -/
def chunks (n : Nat) (m : List Nat) : List (List Nat) :=
  (List.range (max 1 ((m.length + n - 1) / n))).map fun k => (m.drop (n * k)).take n

/-- The CAN frames of a message: PCI, PEER, then up to 62 bytes, or up to 6 in a classic frame (R392). -/
def carFrames (fd : Bool) (peer : Nat) (m : List Nat) : List (List Nat) :=
  let c := chunks (if fd then 62 else 6) m
  (List.range c.length).map fun k =>
    let pci := 128 * b2n (k == 0) + 64 * b2n (k + 1 == c.length) + k % 64
    let b := [pci, peer] ++ c.getD k []
    if fd then fdPad b else b

/-- The message open for a channel and PEER. -/
def State.openMessage (s : State) (c : Bus) (peer : Nat) : Option Rasm := s.klp.rasm.find? fun x => x.bus == c && x.peer == peer

/-- The engine without that message. -/
def State.closeMessage (s : State) (c : Bus) (peer : Nat) : State :=
  { s with klp := { s.klp with rasm := s.klp.rasm.filter fun x => !(x.bus == c && x.peer == peer) } }

/-- A message, or a frame of none, discarded (R393). -/
def State.discardKlp (s : State) : State := { s with klp := { s.klp with discards := satInc 32 s.klp.discards } }

/-- A message whose last frame has come: a broken one is discarded, CAN's DLEN limit included (R387, R393). -/
def State.messageDone (s : State) (c : Bus) (peer : Nat) (m : List Nat) : State :=
  match requestOf (.can c) peer m with
  | some q => if q.data.length ≤ 512 then s.acceptRequest q else s.discardKlp
  | none => s.discardKlp

/-- One frame taken into a message, and the message's end where it is the LAST. -/
def State.takeFrame (s : State) (c : Bus) (x : Rasm) (last : Bool) (bytes : List Nat) : State :=
  let m := x.data ++ bytes
  let s1 := s.closeMessage c x.peer
  if last then s1.messageDone c x.peer m
  else { s1 with klp := { s1.klp with rasm := s1.klp.rasm ++ [{ x with next := (x.next + 1) % 64, data := m, last := s.now }] } }

/-- A ledger request frame for this node (R393). -/
def State.ledgerFrame (s : State) (c : Bus) (data : List Nat) : State :=
  let pci := data.getD 0 0
  let peer := data.getD 1 0
  let num := pci % 64
  let body := data.drop 2
  let prior := s.openMessage c peer
  if data.length < 2 then s.discardKlp
  else if bitAt pci 7 then
    let s1 := if prior.isSome then (s.closeMessage c peer).discardKlp else s
    if num ≠ 0 then s1.discardKlp
    else s1.takeFrame c { bus := c, peer := peer, next := 0, data := [], last := s.now } (bitAt pci 6) body
  else
    match prior with
    | none => s.discardKlp
    | some x =>
      if x.last + 100 * clkMs < s.now then ((s.closeMessage c peer).discardKlp).discardKlp
      else if num ≠ x.next then (s.closeMessage c peer).discardKlp
      else s.takeFrame c x (bitAt pci 6) body

/-- The response that is being queued: a new one begins when none is under way (R393). -/
def State.beginResponse (s : State) : State :=
  match s.klp.sending with
  | some _ => s
  | none =>
    match s.klp.outbox.find? fun r => match r.req.port with
        | .can _ => true
        | .spi => false with
    | none => s
    | some r =>
      match r.req.port with
      | .spi => s
      | .can c => { s with klp := { s.klp with
          outbox := s.klp.outbox.erase r
          sending := some { bus := c, frames := carFrames (s.fdOn c) r.req.node r.message, since := s.now } } }

/-- Frames of the response under way enqueued in order until the queue is full; where a frame is refused for another reason, the
channel not NORMAL or stopped by STORM, the response is given up (R252, R359, R393). -/
def State.pumpFrames (s : State) : Nat → State
  | 0 => s
  | n + 1 =>
    match s.klp.sending with
    | none => s
    | some x =>
      match x.frames with
      | [] => { s with klp := { s.klp with sending := none } }
      | f :: rest =>
        let wait := Nat.ble (queueDepth 4) ((s.chan x.bus).queues.getD 4 []).length
        let r := s.enqueue x.bus 4 (plainFrame (s.ownId 0x6) (s.fdOn x.bus) f)
        if r.1 then
          State.pumpFrames { r.2 with klp := { r.2.klp with sending := if rest.isEmpty then none else some { x with frames := rest } } } n
        else if wait then r.2
        else { r.2 with klp := { r.2.klp with sending := none } }

/-- The responses over one row (R393): what queue 4 takes, response after response. -/
def State.responseRow (s : State) : State :=
  (List.range 2).foldl (fun t _ => (t.beginResponse).pumpFrames 17) s

/-! ### Over SPI (R394 to R396) -/

/-- A discarded request transaction and its error code. -/
def State.linkError (s : State) (e : Nat) : State := { s with klp := { s.klp with linkErr := e } }

/-- A request transaction checked at CS_LEDGER_L rising (R395). -/
def State.spiRequest (s : State) (bytes : List Nat) : State :=
  let len := u16At bytes 1
  let m := (bytes.drop 3).take len
  let crc := leValue ((bytes.drop (3 + len)).take 2)
  if bytes.length ≠ 5 + len ∨ len < 8 ∨ 4104 < len then s.linkError 2
  else if crc ≠ crc16 (leBytes 2 len ++ m) then
    ({ s with klp := { s.klp with crcErrors := satInc 32 s.klp.crcErrors } } : State).linkError 1
  else if 8 ≤ s.klp.fifo.length then s.linkError 3
  else match requestOf .spi 0 m with
    | none => s.linkError 2
    | some q => s.acceptRequest q

/-- The responses that wait behind a full FIFO move up. -/
def State.refillFifo (s : State) : State :=
  if 8 ≤ s.klp.fifo.length then s
  else match s.klp.outbox.find? fun r => r.req.port == .spi with
    | none => s
    | some r => { s with klp := { s.klp with outbox := s.klp.outbox.erase r, fifo := s.klp.fifo ++ [r] } }

/-- A response read of `n` bytes, the first included (R394 to R396): what is clocked out after the first byte, and the FIFO after
it. -/
def State.spiRead (s : State) (n : Nat) : State :=
  let body (r : Resp) : List Nat :=
    let b := leBytes 2 r.message.length ++ r.message
    b ++ leBytes 2 (crc16 b)
  let head := s.klp.fifo.head?
  let full := [128 * b2n head.isSome + s.klp.linkErr] ++ (match head with
    | some r => body r
    | none => [])
  let shown := (full ++ zeros (n - 1 - full.length)).take (n - 1)
  let s1 := { s with klp := { s.klp with spiOut := shown, linkErr := if 2 ≤ n then 0 else s.klp.linkErr } }
  if head.isSome && Nat.ble (full.length + 1) n then
    ({ s1 with klp := { s1.klp with fifo := s1.klp.fifo.drop 1 } } : State).refillFifo
  else s1

end Sys2Proof.Machine
end

