-- ==== Sys2Proof/Machine/BusFrames.lean ====
section
/-!
DEFINITION. Shared operations of the building bus: reception and routing, the pilot's receive FIFO, the exchange, bus-off and its
copies, and bit timing (R355, R362, R366 to R371, R377 to R381, R407).
-/
namespace Sys2Proof.Machine

/-! ### Bit timing (R355, R381) -/

/-- Quanta per bit of a nominal rate in kbit/s: the smallest prescaler that gives at most 80 whole quanta. -/
def nomQuanta (r : Nat) : Nat :=
  match (List.range 81).find? fun p => p != 0 && r != 0 && 80000 % (p * r) == 0 && Nat.ble (80000 / (p * r)) 80 with
  | some p => 80000 / (p * r)
  | none => 0

/-- Phase segment 2 of a nominal rate and sample point. -/
def phaseSeg2 (r sample : Nat) : Nat := rdivN (nomQuanta r * (1000 - sample)) 1000

/-- A valid data bit rate. -/
def dataRateOk (r : Nat) : Bool := r != 0 && 80000 % r == 0 && within 16 80 (80000 / r)

/-- The value a timing write asks for keeps the bounds of R381. -/
def State.timingOk (s : State) (i sub v : Nat) : Bool :=
  let nom := s.reg (Reg.NOM_BITRATE i)
  let sample := s.reg (Reg.NOM_SAMPLE i)
  let sjw := s.reg (Reg.NOM_SJW i)
  let data := s.reg (Reg.DATA_BITRATE i)
  if sub = 3 then (data == 0 || Nat.ble v data) && (sjw == 0 || Nat.ble sjw (phaseSeg2 v sample))
  else if sub = 4 then sjw == 0 || Nat.ble sjw (phaseSeg2 nom v)
  else if sub = 5 then Nat.ble v (phaseSeg2 nom sample)
  else if sub = 8 then v == 0 || (dataRateOk v && Nat.ble nom v && Nat.blt (s.reg (Reg.TDC_OFFSET i)) (80000 / v))
  else if sub = 0x0A then (if data = 0 then Nat.ble v 79 else Nat.ble v (80000 / data - 1))
  else true

/-! ### Modes (R359) -/

/-- A channel's mode in force changed: integration starts, and leaving NORMAL discards its frames and ends its bus-off. -/
def Channel.setMode (x : Channel) (m : ChMode) : Channel :=
  let y := if x.active = .normal then
      { x.discard false with busOff := false, recovering := false, tec := 0, recErr := 0, held := none, offered := none }
    else x
  { y with
    active := m, request := none, integrated := false
    tec := if m = .off then 0 else y.tec
    recErr := if m = .off then 0 else y.recErr }

/-- The mode a channel is asked to take, where it is not in force already. -/
def Channel.ask (x : Channel) (m : ChMode) : Channel := { x with request := if m = x.active then none else some m }

/-! ### Reception (R362, R366 to R371) -/

/-- Function codes of frames that the DX52 sends (R361). -/
def sentFunctions : List Nat := [0x1, 0x2, 0x3, 0x4, 0x6, 0x7, 0x8, 0xF]

/-- A node clash (R362). -/
def State.nodeClash (s : State) (c : Bus) (id : Nat) : State :=
  let s1 := (s.setChan c { s.chan c with clash := true }).incSat Reg.NODE_CLASHES
  if s.bus.clashSeen then s1
  else ({ s1 with bus := { s1.bus with clashSeen := true } }).pushLog Lt.NODE_CLASH ([c.idx + 1, id % 128] ++ leBytes 2 id)

/-- A frame put into a channel's pilot FIFO (R368). -/
def State.toPilot (s : State) (c : Bus) (f : CanFrame) (stamp : Nat) : State :=
  let x := s.chan c
  if x.rx.length < 128 then s.setChan c { x with rx := x.rx ++ [{ f := f, stamp := stamp }] }
  else s.setChan c { x with rxOverruns := satInc 32 x.rxOverruns }

/-- A network command that acts when it is drained (R407): the command known, the master where it must be, QUIET's seconds in
range. -/
def State.netActs (s : State) (f : CanFrame) : Bool :=
  let cmd := f.data.getD 0 0
  let master := s.reg Reg.MASTER_SOURCE != 0 && f.data.getD 1 0 == s.reg Reg.MASTER_SOURCE
  f.data.length ≤ 8 && Nat.ble 2 f.data.length && !f.fd &&
    (cmd == 1 || cmd == 4 || (cmd == 2 && master) || (cmd == 3 && master && within 1 3600 (u16At f.data 2)))

/-- One network command ignored. -/
def State.netIgnore (s : State) : State := { s with klp := { s.klp with netIgnored := satInc 32 s.klp.netIgnored } }

/-- A value of a frame from node `k`, slot `r`, on channel c, taken into every receive slot mapped to it; the newer stamp wins
(R370). -/
def State.takeValue (s : State) (c : Bus) (k r raw stamp : Nat) : State :=
  let mapped := (List.range 256).filter fun n =>
    let b := smapGet 0 n s.bus.rxMap
    b % 256 == k && b / 256 % 256 == r && bitAt (b / 65536) c.idx
  mapped.foldl (fun t n =>
    let newer := match t.bus.rxSlots.find? fun p => p.1 == n with
      | some p => decide (p.2.2.1 ≤ stamp)
      | none => true
    if newer then { t with bus := { t.bus with
        rxSlots := (t.bus.rxSlots.filter fun p => Nat.blt p.1 n) ++ [(n, raw, stamp, c.idx + 1)] ++
          t.bus.rxSlots.filter fun p => Nat.blt n p.1 } }
    else t) s

/-- An exchange frame (R369, R370). -/
def State.exchangeFrame (s : State) (c : Bus) (f : CanFrame) (stamp : Nat) : State :=
  let k := f.id % 128
  if k = 0 then s
  else if f.fd then
    if f.data.length < 36 then s
    else (List.range 8).foldl (fun t i =>
      if bitAt (f.data.getD 1 0) i then
        t.takeValue c k (8 * f.data.getD 0 0 + i) (leValue ((f.data.drop (4 + 4 * i)).take 4)) stamp
      else t) s
  else if f.data.length = 8 ∧ bitAt (f.data.getD 1 0) 0 = true then
    s.takeValue c k (f.data.getD 0 0) (leValue (f.data.drop 4)) stamp
  else s

/-- The receive error counter after a frame received without error (R358, R377): one down, and from above 127 to a value from 119
to 127 that the standard leaves open. -/
def State.recDown (s : State) (c : Bus) : State :=
  let x := s.chan c
  if x.active ≠ .normal ∨ x.recErr = 0 then s
  else if x.recErr ≤ 127 then s.setChan c { x with recErr := x.recErr - 1 }
  else (s.setChan c { x with recErr := 119 + s.free % 9 }).tickFree

/-- Where a received frame goes (R367, R405, R407, R479). -/
def State.routeFrame (s : State) (c : Bus) (f : CanFrame) (stamp : Nat) : State :=
  let fn := f.id / 128
  let node := f.id % 128
  let own := s.reg Reg.NODE_ID
  let src := s.reg Reg.MASTER_SOURCE
  if fn = 5 then (if node = own then s.ledgerFrame c f.data else s)
  else if s.isNet f then
    if s.storm ∨ (s.hm.owner.isSome = true ∧ s.hm.takeover = none ∧ s.netActs f = false) then s.netIgnore else s.toPilot c f stamp
  else if fn = 0xF ∧ node = src ∧ src ≠ 0 then s.masterHeard
  else if fn = 4 then s.exchangeFrame c f stamp
  else
    let t := if fn = 2 ∧ node = s.reg Reg.TIME_MASTER ∧ node ≠ 0 ∧ f.fd = true ∧ f.data.length = 24 then s.syncTime f.data stamp else s
    if t.regBit (Reg.RX_FILTER c.idx) fn || t.toNode f then t.toPilot c f stamp else t

/-- A pilot drains its FIFO at a control tick (R368, R407): everything but network commands that have yet to act. -/
def State.drainFifo (s : State) (c : Bus) : State :=
  let x := s.chan c
  let ignored := (x.rx.filter fun r => s.isNet r.f && !s.netActs r.f).length
  let t := s.setChan c { x with rx := x.rx.filter fun r => s.isNet r.f && s.netActs r.f }
  { t with klp := { t.klp with netIgnored := satAdd 32 t.klp.netIgnored ignored } }

/-- The oldest network command of a code at the front of what the pilot has yet to act on in a channel's FIFO, and the state
without it (R407). -/
def State.takeNet (s : State) (c : Bus) (code : Nat) : Option (CanFrame × State) :=
  if s.hm.owner.isNone ∨ s.hm.takeover.isSome = true ∨ s.storm = true then none
  else
    let t := s.drainFifo c
    match (t.chan c).rx with
    | r :: rest =>
      if r.f.data.getD 0 0 = code then some (r.f, t.setChan c { t.chan c with rx := rest }) else none
    | [] => none

/-! ### Exchange groups (R369, R370) -/

/-- The frames of group g on a channel: one FD frame, or a classic frame per valid slot. -/
def State.groupFrames (s : State) (c : Bus) (g : Nat) : List (List Nat) :=
  let val (n : Nat) : Option Nat := (s.bus.txSlots.find? fun p => p.1 == n).map Prod.snd
  let slots := (List.range 8).map fun i => 8 * g + i
  let seq := leBytes 2 s.tick
  if s.fdOn c then
    let valid := ((List.range 8).map fun i => 2 ^ i * b2n (val (8 * g + i)).isSome).sum
    [[g, valid] ++ seq ++ (slots.flatMap fun n => leBytes 4 ((val n).getD 0)) ++ zeros 12]
  else slots.filterMap fun n => (val n).map fun v => [n, 1] ++ seq ++ leBytes 4 v

/-- The groups that fall due in the tick (R370). -/
def State.dueGroups (s : State) : List Nat :=
  let period := s.reg Reg.PV_TX_PERIOD
  (List.range 32).filter fun (g : Nat) =>
    decide (((s.tick : Int) - (g : Int)) % (period : Int) = 0) && s.bus.txSlots.any fun p => p.1 / 8 == g

/-- The groups of a control tick (R370). -/
def State.sendGroups (s : State) : State :=
  s.dueGroups.foldl (fun t g =>
    (t.normalIn (t.reg Reg.PV_TX_CHANNELS)).foldl (fun u c =>
      (u.groupFrames c g).foldl (fun w d => (w.enqueue c 3 (plainFrame (w.ownId 0x4) (w.fdOn c) d)).2) u) t) s

/-- The groups of a tick computed again after a failover (R240): of each channel's frames, only those beyond what its queue has
counted since the checkpoint. -/
def State.sendMissing (s : State) (k : Checkpoint) : State :=
  (s.normalIn (s.reg Reg.PV_TX_CHANNELS)).foldl (fun t c =>
    let sent := ((t.chan c).counts.getD 3 0 + 2 ^ 32 - k.txq.getD (8 * c.idx + 3) 0) % 2 ^ 32
    ((s.dueGroups.flatMap (s.groupFrames c)).drop sent).foldl
      (fun w d => (w.enqueue c 3 (plainFrame (w.ownId 0x4) (w.fdOn c) d)).2) t) s

/-- What a new active pilot computes at once after a takeover (R239): the tick in progress, unless the checkpoint it restored is
of that tick. A tick between the two is skipped. -/
def State.resumeTick (s : State) : State :=
  match s.hm.mirror with
  | none => ((s.updateZones).runLoops s.tick).sendGroups
  | some k =>
    if k.tick = s.tick then s
    else
      let t := (s.updateZones).runLoops s.tick
      if (k.tick + 1) % 2 ^ 32 = s.tick then t.sendMissing k else t.sendGroups

/-! ### Transmission and bus-off (R363, R366, R377 to R379) -/

/-- The frame in arbitration, with its queue. -/
def Channel.onBus (x : Channel) : Option (Nat × TxFrame) := x.offered.bind fun q => (x.head q).map fun f => (q, f)

/-- The next arbitration of a channel; after PFAIL there is none (R383). -/
def State.nextArbitration (s : State) (c : Bus) : State :=
  let x := s.chan c
  s.setChan c (if s.pfail then { x with offered := none } else x.arbitrate)

/-- The form in which a held frame is copied to the other channel, none where it cannot be (R379). -/
def State.copyForm (s : State) (o : Bus) (f : TxFrame) : Option TxFrame :=
  if f.copied then none
  else if s.fdOn o then some { f with copied := true }
  else match f.compact with
    | some d => some { f := { f.f with fd := false, data := d }, copied := true, compact := none }
    | none => if f.f.data.length ≤ 8 then some { f with f := { f.f with fd := false }, copied := true } else none

/-- The held frame queued on the other channel (R379). -/
def State.copyHeld (s : State) (c : Bus) (q : Nat) (f : TxFrame) : State :=
  let o := c.other
  let y := s.chan o
  if s.reg Reg.BUS_FAILOVER = 1 ∧ y.active = .normal ∧ y.busOff = false ∧ s.gated o = false then
    match s.copyForm o f with
    | none => s
    | some g =>
      let r := s.enqueue o q g
      if r.1 then
        let x := r.2.chan c
        let l := x.queues.getD q []
        r.2.setChan c { x with queues := x.queues.set q (match l with
          | h :: t => { h with copied := true } :: t
          | [] => []) }
      else r.2
  else s

/-- Bus-off (R378): the frame in arbitration becomes the held frame; the first one since a success is reported. -/
def State.goBusOff (s : State) (c : Bus) (q : Nat) (f : TxFrame) : State :=
  let x := s.chan c
  let overs := decide (2 ^ 32 ≤ x.busoffCount + 1)
  let first := !x.offSince
  let s1 := s.setChan c { x with
    busOff := true, recovering := s.reg (Reg.BUSOFF_AUTO c.idx) == 1, held := some q, offered := none, offSince := true
    busoffCount := if overs then s.free % 2 ^ 32 else x.busoffCount + 1 }
  let s2 := if overs then s1.tickFree else s1
  let s3 := s2.copyHeld c q f
  if first then
    (s3.pushLog Lt.BUS_OFF ([c.idx + 1, x.lastError] ++ leBytes 2 f.f.id)).alarmOf (0x2080 + c.idx) 1 (s3.chan c).busoffCount
      (s3.busStatus c)
  else s3

/-- A success after a bus-off (R378). -/
def State.busRecovered (s : State) (c : Bus) : State :=
  let x := s.chan c
  if x.offSince then
    let s1 := s.setChan c { x with offSince := false }
    (s1.pushLog Lt.BUS_RECOVER ([c.idx + 1, 0, 0, 0] ++ leBytes 4 x.busoffCount)).alarmOf (0x2080 + c.idx) 0 x.busoffCount
      (s1.busStatus c)
  else s

/-- A bulk frame of a stream has completed: its gap runs from here (R401). -/
def State.bulkDone (s : State) (c : Bus) (f : CanFrame) : State :=
  if f.id / 128 = 8 then
    { s with klp := { s.klp with streams := s.klp.streams.map fun j =>
        if j.bus = c ∧ j.rq.req.node = f.data.getD 0 0 ∧ j.rq.req.tag = f.data.getD 1 0 then
          { j with lastEnd := some s.now, waiting := false }
        else j } }
  else s

/-- The transmit error counter after an error (R377): 8 up, but not for a missing acknowledgement while error-passive, as the
standard has it. -/
def Channel.tecUp (x : Channel) (code : Nat) : Nat := if code = 3 ∧ x.passive = true then x.tec else x.tec + 8

end Sys2Proof.Machine
end

