-- ==== Sys2Proof/Machine/Bus.lean ====
section
/-!
DEFINITION. The commands of chapter 11 and of the network commands of chapter 12: channel modes, timing, frames received and
sent, the breakwater's timers.
-/
namespace Sys2Proof.Machine

/-! ### Modes and timing -/

/-- What an accepted write of `BUS_MODE` does (R359, R360, R378): it ends a probe, starts the recovery of a bus-off channel that
is not recovering, and asks for the mode. -/
def State.busModeWritten (s : State) (c : Bus) (v : Nat) : State :=
  let x := { s.chan c with probe := none, rateSuspect := false }
  s.setChan c (if v = 3 ∧ x.active = .normal ∧ x.busOff = true then { x with recovering := true, request := none }
    else x.ask (.ofCode v))

/-- What the row BUS_MODE_WRITE accepts and does. -/
def busModeRule (c : Bus) (s : State) (v : Nat) : Status × State :=
  andThen (plainRule (Reg.BUS_MODE c.idx) s v) fun t => t.busModeWritten c v

/-- BUS_MODE_WRITE (R359). -/
def execBusModeWrite (c : Bus) (w : Wr) (s : State) : Out :=
  .next (s.ledgerWrite w (Reg.BUS_MODE c.idx) (busModeRule c))

/-- BUS_MODE_APPLY (R359): the bus is idle after the frame in progress. -/
def execBusModeApply (c : Bus) (s : State) : Out :=
  .next (match (s.chan c).request with
    | some m => s.setChan c ((s.chan c).setMode m)
    | none => s)

/-- BUS_INTEGRATED (R359): 11 consecutive recessive bits. -/
def execBusIntegrated (c : Bus) (s : State) : Out :=
  .next (if (s.chan c).active = .off then s
    else (s.setChan c { s.chan c with integrated := true }).nextArbitration c)

/-- BUS_PROBE_END (R360): after 8 protocol errors the channel stays RESTRICTED, else it moves to its stored `BUS_MODE`. -/
def execBusProbeEnd (c : Bus) (s : State) : Out :=
  .next (match (s.chan c).probe with
    | some n =>
      let x := { s.chan c with probe := none }
      s.setChan c (if 8 ≤ n then { x with rateSuspect := true } else x.ask (.ofCode (s.reg (Reg.BUS_MODE c.idx))))
    | none => s)

/-- What the row BUS_TIMING_WRITE accepts and does. -/
def busTimingRule (c : Bus) (sub : Nat) (s : State) (v : Nat) : Status × State :=
  let key := 0x1C1000 + 256 * c.idx + sub
  if (s.chan c).active ≠ .off then (.state, s)
  else if sub = 3 ∧ v ≠ 125 ∧ s.reg (Reg.TRIPLE_SAMPLE c.idx) = 1 then (.state, s)
  else if inRange key v = false ∨ s.timingOk c.idx sub v = false then (.range, s)
  else s.putEntry key v

/-- BUS_TIMING_WRITE (R359, R381): entry 0x1C10 + n − 1 sub 3, 4, 5, 7, 8, 9 or 0x0A. -/
def execBusTimingWrite (c : Bus) (sub : Nat) (w : Wr) (s : State) : Out :=
  let key := 0x1C1000 + 256 * c.idx + sub
  .next (s.ledgerWrite w key (busTimingRule c sub))

/-- What the row TRIPLE_SAMPLE_WRITE accepts and does. -/
def tripleSampleRule (c : Bus) (s : State) (v : Nat) : Status × State :=
  if (s.chan c).active ≠ .off then (.state, s)
  else if v = 1 ∧ s.reg (Reg.NOM_BITRATE c.idx) ≠ 125 then (.state, s)
  else plainRule (Reg.TRIPLE_SAMPLE c.idx) s v

/-- TRIPLE_SAMPLE_WRITE (R356, R359). -/
def execTripleSampleWrite (c : Bus) (w : Wr) (s : State) : Out :=
  .next (s.ledgerWrite w (Reg.TRIPLE_SAMPLE c.idx) (tripleSampleRule c))

/-! ### Frames -/

/-- The frame reaches the controller: the channel is on, integrated and not bus-off (R354, R358, R359). -/
def State.hears (s : State) (c : Bus) : Bool := (s.chan c).active != .off && (s.chan c).integrated && !(s.chan c).busOff

/-- An FD frame met `FD_ENABLE` 0 (R354, R382): the channel waits for bus integration. -/
def State.fdException (s : State) (c : Bus) : State :=
  s.setChan c { s.chan c with protoExc := true, integrated := false, offered := none }

/-- CAN_FRAME_RECEIVED (R354, R362, R366, R367): the stamp is the T64 of the frame's start. -/
def execCanFrameReceived (c : Bus) (f : CanFrame) (stamp : Nat) (s : State) : Out :=
  .next (
    if !s.hears c then s
    else if f.fd && !s.fdOn c then s.fdException c
    else
      let s0 := s.recDown c
      if f.ext then s0.setChan c { s0.chan c with extFrames := satInc 32 (s0.chan c).extFrames }
      else
        let clash := sentFunctions.contains (f.id / 128) && f.id % 128 == s.reg Reg.NODE_ID
        (if clash then s0.nodeClash c f.id else s0).routeFrame c f stamp)

/-- CAN_TX_COMPLETE (R364, R366, R378): the frame in arbitration has gone out; its completion record carries the stamp. -/
def execCanTxComplete (c : Bus) (stamp : Nat) (s : State) : Out :=
  .next (match (s.chan c).onBus with
    | some (q, f) =>
      let x := s.chan c
      let g := s.stampedFrame f.f stamp
      let s1 := s.setChan c { x with
        queues := x.queues.set q ((x.queues.getD q []).drop 1)
        held := if x.held = some q then none else x.held
        tec := x.tec - 1
        done := some (g, stamp) }
      ((s1.bulkDone c g).busRecovered c).nextArbitration c
    | none => s)

/-- CAN_TX_ERROR (R363, R377, R378): the frame is offered again under the same rule, or the channel goes bus-off. -/
def execCanTxError (c : Bus) (e : TxError) (s : State) : Out :=
  .next (match (s.chan c).onBus with
    | some (q, f) =>
      match e with
      | .lostArbitration => s.nextArbitration c
      | .error code =>
        let x := s.chan c
        let s1 := s.setChan c { x with tec := x.tecUp code, lastError := code }
        if 255 < x.tecUp code then s1.goBusOff c q f else s1.nextArbitration c
    | none => s)

/-- BUSOFF_RECOVERY_DONE (R378). -/
def execBusoffRecoveryDone (c : Bus) (s : State) : Out :=
  .next (if (s.chan c).busOff && (s.chan c).recovering then
    (s.setChan c { s.chan c with busOff := false, recovering := false, tec := 0, recErr := 0 }).nextArbitration c else s)

/-- PROTOCOL_ERROR (R354, R358, R360, R377): counters run in NORMAL only; a running probe counts the error. -/
def execProtocolError (c : Bus) (e : RxError) (s : State) : Out :=
  .next (
    if !s.hears c then s
    else match e with
      | .fdException => s.fdException c
      | .error code =>
        let x := s.chan c
        s.setChan c { x with
          recErr := if x.active = .normal then satInc 8 x.recErr else x.recErr
          lastError := code
          probe := x.probe.map fun n => if code = 3 then n else n + 1 })

/-! ### The breakwater -/

/-- BW_HOLD_EXPIRY (R374): the hold of source `n` ends; a pending event is released, and its hold starts, where a channel can
carry it. -/
def execBwHoldExpiry (n : Nat) (s : State) : Out :=
  .next (
    let x := s.bus.bw.get n
    if !x.hold then s
    else
      let s1 := s.withBw (s.bus.bw.put { x with hold := false })
      match x.pend with
      | some e => if s1.alarmTargets.isEmpty then s1 else s1.releaseSource e
      | none => s1)

/-- BW_SUMMARY (R375): every 1 s while a source is limited, and once after the first second in which none was. -/
def execBwSummary (s : State) : Out :=
  .next (
    let b := s.bus.bw
    if !b.running || s.alarmTargets.isEmpty then s
    else
      let e : BwEvent := { source := 0xFFFF, state := 0, cls := 3, reason := 0, value := b.second.length, flags := min 65535 b.replaced }
      let s1 := s.releaseFrame e false true
      let b1 := s1.bus.bw
      let src := (b1.sources.map fun x => { x with limited := false }).filter fun x => x.hold || x.pend.isSome || x.replaced
      let still := (src.filter BwSource.isLimited).map BwSource.source
      s1.withBw { b1 with
        sources := src, summaries := satInc 32 b1.summaries, replaced := 0, second := still
        running := !b.second.isEmpty })

/-! ### Heartbeats and network commands (R406, R407) -/

/-- The data of the device heartbeat (R406). -/
def State.heartbeatData (s : State) : List Nat :=
  [s.phase.code + 4 * s.controlMode + 16 * b2n s.duplex + 32 * b2n s.tide.degraded + 64 * b2n (decide (s.slip.state ≠ 0)) +
      128 * b2n s.hm.summary.isSome, s.bus.bw.seq] ++ leBytes 2 (min 65535 s.alarmsActive) ++ leBytes 4 s.tick

/-- The device heartbeat queued by the active pilot; it stops in STORM (R252, R406). -/
def State.sendHeartbeat (s : State) : State :=
  if s.hm.owner.isNone || s.storm then s
  else (s.normalIn (s.reg Reg.HB_CHANNELS)).foldl (fun t c =>
    (t.enqueue c 7 (plainFrame (t.ownId 0xF) false t.heartbeatData)).2) s

/-- A heartbeat that came due during a failover outage is sent at once when it ends (R240, R406). -/
def State.dueHeartbeat (s : State) : State :=
  if s.bus.hbDue then ({ s with bus := { s.bus with hbDue := false } } : State).sendHeartbeat else s

/-- DEVICE_HEARTBEAT (R240, R406): every `HB_PERIOD`, where that is not 0; one that comes due in a failover outage waits for its
end. -/
def execDeviceHeartbeat (s : State) : Out :=
  .next (
    if s.reg Reg.HB_PERIOD = 0 ∨ s.storm = true then s
    else if s.hm.takeover.any fun k => !k.planned then { s with bus := { s.bus with hbDue := true } }
    else s.sendHeartbeat)

/-- NET_HEARTBEAT_NOW (R407): the pilot takes the command from the FIFO of channel c. -/
def execNetHeartbeatNow (c : Bus) (s : State) : Out :=
  .next (match s.takeNet c 1 with
    | some (_, t) => t.sendHeartbeat
    | none => s)

/-- NET_LOCK_ALL (R407): every session returns to PUBLIC. -/
def execNetLockAll (c : Bus) (s : State) : Out :=
  .next (match s.takeNet c 2 with
    | some (_, t) => t.withKlp { t.klp with sessions := [] }
    | none => s)

/-- NET_QUIET (R407): every NORMAL channel is asked to enter RESTRICTED under R359. -/
def execNetQuiet (c : Bus) (s : State) : Out :=
  .next (match s.takeNet c 3 with
    | some (_, t) =>
      [Bus.one, Bus.two].foldl (fun u d =>
        if (u.chan d).active = .normal then u.setChan d ((u.chan d).ask .restricted) else u)
        ({ t with bus := { t.bus with quiet := true } } : State)
    | none => s)

/-- QUIET_END (R407): channels return to their `BUS_MODE`. -/
def execQuietEnd (s : State) : Out :=
  .next (
    if s.bus.quiet then
      [Bus.one, Bus.two].foldl (fun u d =>
        if (u.chan d).active = .off ∨ (u.chan d).probe.isSome = true ∨ (u.chan d).rateSuspect = true then u
        else u.setChan d ((u.chan d).ask (.ofCode (u.reg (Reg.BUS_MODE d.idx)))))
        ({ s with bus := { s.bus with quiet := false } } : State)
    else s)

/-- NET_TIME_REQUEST (R407, R478): one time frame. -/
def execNetTimeRequest (c : Bus) (s : State) : Out :=
  .next (match s.takeNet c 4 with
    | some (_, t) => t.sendTime 1
    | none => s)

end Sys2Proof.Machine
end

