-- ==== Sys2Proof/Machine/LedgerRead.lean ====
section
/-!
DEFINITION. The value a ledger entry reads (R384 to R386): an entry that follows other state is formed from it, page by page; every
other entry reads its register.
-/
namespace Sys2Proof.Machine

/-! ### Pages -/

/-- 0x1000 (R413). -/
def State.readIdentity (s : State) (sub : Nat) : Option Nat :=
  match sub with
  | 0x06 => some s.phase.code
  | 0x07 => some s.powerMode
  | 0x08 => some s.deviceStatus
  | 0x09 => some (b2n s.runsB)
  | 0x0A => some (fwVersion (slotHeader s.slip.imageA))
  | 0x0B => some (fwVersion (slotHeader s.slip.imageB))
  | 0x0D => some s.klp.resetCause
  | 0x0E => some 0
  | _ => none

/-- 0x1100 (R27 to R29). -/
def State.readTide (s : State) (sub : Nat) : Option Nat :=
  match sub with
  | 0x01 => some s.now
  | 0x02 => some s.frame
  | 0x03 => some s.row
  | 0x04 => some s.clockInRow
  | 0x07 => some s.tideStatus
  | 0x0B => some s.tick
  | 0x0C => some (rowsPerTick s.rate)
  | 0x0D => some (if s.rate = 60 then 1000000 else 1008000)
  | _ => none

/-- 0x1200 and 0x1230 (R58, R82, R84). -/
def State.readFocal (s : State) (sub : Nat) : Option Nat :=
  match sub with
  | 0x03 => some s.fpaStatus
  | 0x05 => some s.focal.sun.length
  | _ => none
def State.readShutter (s : State) (sub : Nat) : Option Nat :=
  match sub with
  | 0x01 => some (b2n s.focal.shutter.present)
  | 0x02 => some s.focal.shutter.position
  | 0x04 => some (shutterSteps s.rate (s.reg Reg.SHUTTER_TRAVEL))
  | _ => none

/-- `STALE_PIXELS` (R91). -/
def State.stalePixels (s : State) : Nat := ((List.range nPixels).filter fun p => headStale (s.pipe.head p)).length

/-- 0x1300 (R91). -/
def State.readPipe (s : State) (sub : Nat) : Option Nat :=
  match sub with
  | 0x0C => some s.badPixels
  | 0x12 => some s.pipe.override.length
  | 0x13 => some s.stalePixels
  | _ => none

/-- 0x1400 (R136). -/
def State.readCal (s : State) (sub : Nat) : Option Nat :=
  match sub with
  | 0x01 => some s.cal.state
  | 0x02 => some 0
  | 0x03 => some s.calStatus
  | 0x0B => some s.cal.triggers
  | 0x14 => some s.cal.parkSet.source
  | _ => none

/-- 0x1500 (R195). -/
def State.readBerthStatus (s : State) (sub : Nat) : Option Nat :=
  match sub with
  | 0x01 => some s.berthsDefined
  | 0x02 => some (rowLoadMax (fun n => s.berthWritten n 1) (fun n => s.berthWritten n 2))
  | 0x04 => some s.editsPending
  | 0x05 => some s.alarmsActive
  | 0x06 => some s.occupiedBerths
  | 0x07 => some s.engineStatus
  | 0x08 => some s.berth.tableFrame
  | _ => none

/-- 0x1600 (R203, R213). -/
def State.readVideo (s : State) (sub : Nat) : Option Nat :=
  match sub with
  | 0x08 => some ((s.video.plane.map Plane.code).getD 0)
  | 0x0A => some s.videoStatus
  | 0x0B => some (ofSigned 32 s.linkMargin)
  | _ => none

/-- 0x1700 (R224). -/
def State.readQuays (s : State) (sub : Nat) : Option Nat :=
  match sub with
  | 0x01 => some s.quayRoles
  | 0x02 => some (b2n s.duplex)
  | 0x03 => some s.ownerCode
  | 0x04 => some s.controlMode
  | 0x05 => some 0
  | 0x06 => some s.hmStatus
  | 0x0D => some ((s.hm.mirror.map Checkpoint.tick).getD 0)
  | 0x14 => some s.hm.stack.length
  | 0x19 => some (s.quayFails .a)
  | 0x1A => some (s.quayFails .b)
  | _ => none

/-- 0x1701 and 0x1720 (R247, R259). -/
def State.readFaults (s : State) (sub : Nat) : Option Nat :=
  if within 1 4 sub then some (s.faultEntry sub) else if sub = 5 then some s.faultLast else none
def State.readSalvage (s : State) (sub : Nat) : Option Nat :=
  match sub with
  | 0x01 => some (b2n s.hm.summary.isSome)
  | 0x04 => some 0
  | 0x05 => some ((s.hm.summary.map Salvage.rtc).getD 0)
  | _ => none

/-- 0x1800 and 0x3000 + l (R264, R267, R268). -/
def State.readLoops (s : State) (sub : Nat) : Option Nat :=
  match sub with
  | 0x04 => some s.loop.autoReason
  | 0x05 => some ((List.range 64).filter fun l => s.reg (Reg.LOOP_MODE l) != 0).length
  | 0x07 => some (b2n !s.rtc.valid)
  | _ => none
def State.readLoop (s : State) (l sub : Nat) : Option Nat :=
  let r := s.loopRun l
  match sub with
  | 0x17 => some (ofSigned 32 r.pv)
  | 0x18 => some (ofSigned 32 r.sp)
  | 0x19 => some r.out
  | 0x1A => some (ofSigned 64 r.iq)
  | 0x1B => some (bitPut r.status 10 s.storm)
  | _ => none

/-- 0x1810 (R294). -/
def State.readEngine (s : State) (sub : Nat) : Option Nat :=
  let a := s.engine 0
  let b := s.engine 1
  match sub with
  | 0x01 => some (b2n a.held + 2 * b2n b.held + 4 * b2n s.loop.defaultTable)
  | 0x02 => some (a.source + 4 * b.source)
  | 0x03 => some a.temp
  | 0x04 => some b.temp
  | 0x05 => some a.cmd
  | 0x06 => some b.cmd
  | _ => none

/-- 0x1901 + i (R299): the partner of a FLOATING damper reads PARTNER (R303). -/
def State.readOutput (s : State) (i sub : Nat) : Option Nat :=
  let o := s.out i
  match sub with
  | 0x01 => if s.partner i then some 2 else none
  | 0x03 => some o.level
  | 0x04 => some (s.outStatus i)
  | 0x05 => some o.current
  | 0x12 => if i < 4 then some o.pos else none
  | _ => none

/-- 0x1A20 + c and 0x1A30 + k (R319). -/
def State.readFan (s : State) (c sub : Nat) : Option Nat :=
  let f := s.fan c
  match sub with
  | 0x0C => some f.target
  | 0x0D => some f.vout
  | 0x0E => some f.iout
  | 0x0F => some f.st.code
  | 0x10 => some (s.fanStatus c)
  | 0x11 => some f.attempt
  | 0x12 => some f.rate
  | 0x13 => some f.stalls
  | _ => none

/-- `TACH_STATE`: a tach that no channel names is UNBOUND; one newly named is STOPPED. -/
def State.tachState (s : State) (k : Nat) : Nat :=
  if !(s.boundTachs 0).contains k && !(s.boundTachs 1).contains k then TachState.unbound.code
  else if (s.tach k).st = .unbound then TachState.stopped.code
  else (s.tach k).st.code
def State.readTach (s : State) (k sub : Nat) : Option Nat :=
  let x := s.tach k
  match sub with
  | 0x02 => some x.rpm
  | 0x03 => some (s.tachState k)
  | 0x04 => some x.perV
  | 0x05 => some (if x.st = .checking ∨ x.st = .lost then x.ripple else 0)
  | 0x06 => some x.noise
  | _ => none

/-- 0x1B00, and `AI_FLAGS` of a channel with its STALE bit (R336, R339). -/
def State.readAdc (s : State) (sub : Nat) : Option Nat :=
  match sub with
  | 0x02 => some s.adcStatus
  | 0x03 => some 0
  | _ => none
def State.readAi (s : State) (ch sub : Nat) : Option Nat :=
  if sub = 0x0D then some (bitPut (s.reg (aiKey ch 0x0D)) 4 (s.aiStale ch)) else none

/-- 0x1B40 and 0x1B41 + n (R345). -/
def State.diBits (s : State) (f : DiUnit → Bool) : Nat := ((List.range 8).map fun i => 2 ^ i * b2n (f (s.di (i + 1)))).sum
def State.readDis (s : State) (sub : Nat) : Option Nat :=
  match sub with
  | 0x01 => some (s.diBits DiUnit.value)
  | 0x02 => some (s.diBits DiUnit.raw)
  | 0x03 => some (s.diBits DiUnit.stuck)
  | 0x04 => some (s.diBits DiUnit.chatter)
  | _ => none
def State.readDi (s : State) (n sub : Nat) : Option Nat :=
  let d := s.di n
  match sub with
  | 0x06 => some d.status
  | 0x07 => some d.activations
  | 0x08 => some d.suppressed
  | _ => none

/-- 0x2400 and 0x2400 + n (R353). -/
def State.readIds (s : State) (sub : Nat) : Option Nat :=
  match sub with
  | 0x02 => some s.idStatus
  | 0x05 => some 0
  | _ => none
def State.readId (s : State) (n sub : Nat) : Option Nat :=
  let x := s.slot n
  match sub with
  | 0x01 => some x.st.code
  | 0x02 => some x.kind
  | 0x04 => some (leValue ((x.record.drop 6).take 16))
  | 0x05 => some (leValue ((x.record.drop 22).take 16))
  | 0x06 => some x.attempts
  | _ => none

/-- 0x1C10 + c and 0x1C20 (R380 to R382). -/
def State.readChannel (s : State) (c : Bus) (sub : Nat) : Option Nat :=
  let x := s.chan c
  match sub with
  | 0x02 => some x.active.code
  | 0x0B => some (s.busStatus c)
  | 0x0C => some x.tec
  | 0x0D => some x.recErr
  | 0x0F => some x.busoffCount
  | 0x10 => some x.lastError
  | 0x12 => some x.rxOverruns
  | 0x13 => some x.txDrops
  | 0x14 => some x.txDiscards
  | 0x15 => some x.extFrames
  | _ => if within 0x20 0x27 sub then some (x.counts.getD (sub - 0x20) 0) else none
def State.readBreakwater (s : State) (sub : Nat) : Option Nat :=
  match sub with
  | 0x01 => some s.bwLimited
  | 0x02 => some s.bus.bw.suppressed
  | 0x03 => some s.bus.bw.summaries
  | 0x04 => some s.bus.bw.seq
  | _ => none

/-- `MASTER_HB_AGE` (R405, R409). -/
def State.masterAge (s : State) : Nat :=
  match s.klp.masterHb with
  | some t => min 0xFFFFFFFE ((s.now - t) / clkMs)
  | none => 0xFFFFFFFF

/-- 0x1D00 (R409), as the requester sees it. -/
def State.readKlp (s : State) (id sub : Nat) : Option Nat :=
  let k := s.klp
  match sub with
  | 0x01 => some (s.levelOf id)
  | 0x05 => some k.unlockFails
  | 0x06 => some k.sessions.length
  | 0x09 => some k.requests
  | 0x0A => some k.discards
  | 0x0B => some k.duplicates
  | 0x0C => some k.crcErrors
  | 0x0E => some s.irqStatus
  | 0x0F => some 0
  | 0x10 => some (min 255 k.transfers.length)
  | 0x12 => some s.masterAge
  | 0x13 => some k.netIgnored
  | _ => none

/-- 0x1E00 (R442). -/
def State.readNv (s : State) (sub : Nat) : Option Nat :=
  let n := s.nv
  match sub with
  | 0x01 => some s.nvStatus
  | 0x04 => some n.codewords
  | 0x06 => some n.ueReads
  | 0x07 => some n.ignored
  | 0x08 => some n.area.gen
  | 0x09 => some n.area.free
  | 0x0A => some n.compactions
  | 0x0B => some n.skipped
  | 0x0C => some n.qsContent.length
  | 0x0D => some (((n.slot n.loaded).map QSlot.duration).getD 0)
  | 0x0E => some n.loaded
  | _ => none

/-- 0x2000 (R462), as the requester sees it. -/
def State.readLog (s : State) (id sub : Nat) : Option Nat :=
  let l := s.log
  match sub with
  | 0x01 => some s.logStatus
  | 0x02 => some l.headSeq
  | 0x03 => some l.oldestHeld
  | 0x04 => some l.overwritten
  | 0x05 => some (l.cursor id)
  | 0x06 => some 0
  | 0x09 => some l.anchorHead
  | 0x0A => some l.retired.length
  | 0x0B => some l.dropped
  | 0x0C => some l.badRecords
  | 0x0D => some l.clearSeq
  | _ => none

/-- 0x2100 and 0x2101 + a (R480). -/
def State.readRtc (s : State) (sub : Nat) : Option Nat :=
  let r := s.rtc
  match sub with
  | 0x01 => some r.ticks
  | 0x02 => some (ofSigned 64 r.offset)
  | 0x03 => some r.gen
  | 0x04 => some s.dateTimeNow
  | 0x05 => some s.weekdayNow
  | 0x06 => some s.timeStatus
  | 0x07 => some 0
  | 0x08 => some (ofSigned 16 r.slew)
  | 0x0D => some (ofSigned 16 r.trimPulses)
  | 0x0E => some (ofSigned 16 r.temp)
  | 0x0F => some r.vbakMv
  | 0x10 => some r.backupEvents
  | 0x15 => some r.timeRejects
  | _ => none
def State.readAlarm (s : State) (a sub : Nat) : Option Nat :=
  match sub with
  | 0x02 => some (s.rtc.alarmStatus.getD a 0)
  | 0x03 => some (s.rtc.alarmCount.getD a 0)
  | 0x04 => some (s.rtc.alarmLast.getD a 0)
  | _ => none

/-- 0x2200 (R498). -/
def State.readPanel (s : State) (sub : Nat) : Option Nat :=
  let p := s.panel
  match sub with
  | 0x02 => some (b2n p.lighthouse)
  | 0x03 => some s.panelStatus
  | 0x04 => some 0
  | 0x06 => some (ofSigned 16 p.temp)
  | 0x07 => some p.band
  | 0x08 => some (s.regI (Reg.AI_VALUE_INT 12)).toNat
  | _ => if within 0x28 0x2F sub then some (p.regionState (sub - 0x28)) else none

/-- 0x2300 (R506). -/
def State.readKeys (s : State) (sub : Nat) : Option Nat :=
  match sub with
  | 0x09 => some (s.keys.bits KeyUnit.pressed)
  | 0x0A => some (s.keys.bits KeyUnit.amb)
  | 0x0B => some (s.keys.bits KeyUnit.stuck)
  | _ => none

/-- Seconds of probation left, a part of one counting whole (R533, R535; assumption 42). -/
def State.probationLeft (s : State) : Nat :=
  match s.slip.probation with
  | some t => (t + s.reg Reg.SLIP_PROBATION * clkSec - s.now + clkSec - 1) / clkSec
  | none => 0

/-- 0x2600 (R535). -/
def State.readSlip (s : State) (sub : Nat) : Option Nat :=
  let p := s.slip
  match sub with
  | 0x01 => some p.state
  | 0x02 => some 0
  | 0x03 => some (b2n p.targetB)
  | 0x07 => some s.probationLeft
  | 0x08 => some p.version
  | 0x09 => some p.progress
  | 0x0A => some p.lastStatus
  | 0x0C => some (b2n p.newFormat + 2 * b2n p.noFirmware + 4 * b2n p.fallback)
  | _ => none

/-- 0x5000 + n: the result entries (R170, R563). -/
def State.readBerth (s : State) (n sub : Nat) : Option Nat :=
  let r := s.berthShown n
  let run := s.berthRun n
  match sub with
  | 0x20 => some r.min
  | 0x21 => some r.max
  | 0x22 => some r.mean
  | 0x23 => some r.pos
  | 0x24 => some r.above
  | 0x25 => some r.presence
  | 0x26 => some r.valid
  | 0x27 => some r.flags
  | 0x28 => some r.frame
  | 0x29 => some r.value
  | 0x2A => some ((run.map BerthRun.alarmPub).getD 0)
  | 0x2B => some (b2n (run.any BerthRun.occPub))
  | 0x2C => some ((run.map BerthRun.visitsPub).getD 0)
  | 0x2D => some ((run.map BerthRun.bgPub).getD 0)
  | _ => none

/-! ### The whole ledger -/

/-- Indices below 0x1A00. -/
def State.readLow (s : State) (i sub : Nat) : Option Nat :=
  match i with
  | 0x1000 => s.readIdentity sub
  | 0x1100 => s.readTide sub
  | 0x1110 => if sub = 0x08 then some s.mainsPhase else none
  | 0x1200 => s.readFocal sub
  | 0x1221 => if within 1 64 sub then some (s.focal.groupState (sub - 1)) else none
  | 0x1230 => s.readShutter sub
  | 0x1300 => s.readPipe sub
  | 0x1400 => s.readCal sub
  | 0x1420 => if sub = 0x09 then some s.calAge else none
  | 0x1500 => s.readBerthStatus sub
  | 0x1600 => s.readVideo sub
  | 0x1700 => s.readQuays sub
  | 0x1701 => s.readFaults sub
  | 0x1720 => s.readSalvage sub
  | 0x1800 => s.readLoops sub
  | 0x1810 => s.readEngine sub
  | 0x1900 => if sub = 0x01 then some s.actStatus else none
  | _ => none

/-- Indices from 0x1A00 that stand alone. -/
def State.readHigh (s : State) (id i sub : Nat) : Option Nat :=
  match i with
  | 0x1A00 => if sub = 0x02 then some s.fanSummary else none
  | 0x1B00 => s.readAdc sub
  | 0x1B40 => s.readDis sub
  | 0x1C10 => s.readChannel .one sub
  | 0x1C11 => s.readChannel .two sub
  | 0x1C20 => s.readBreakwater sub
  | 0x1D00 => s.readKlp id sub
  | 0x1E00 => s.readNv sub
  | 0x2000 => s.readLog id sub
  | 0x2100 => s.readRtc sub
  | 0x2200 => s.readPanel sub
  | 0x2300 => s.readKeys sub
  | 0x2400 => s.readIds sub
  | 0x2500 => if sub = 0x02 then some s.powerStatus else none
  | 0x2600 => s.readSlip sub
  | _ => none

/-- Indices of numbered items. -/
def State.readItem (s : State) (i sub : Nat) : Option Nat :=
  if within 0x1901 0x1910 i then s.readOutput (i - 0x1901) sub
  else if within 0x1A20 0x1A21 i then s.readFan (i - 0x1A20) sub
  else if within 0x1A30 0x1A33 i then s.readTach (i - 0x1A30) sub
  else if within 0x1B10 0x1B1B i then s.readAi (i - 0x1B10 + 1) sub
  else if within 0x1B20 0x1B2C i then s.readAi (i - 0x1B20 + 32) sub
  else if within 0x1B41 0x1B48 i then s.readDi (i - 0x1B41 + 1) sub
  else if within 0x2101 0x2102 i then s.readAlarm (i - 0x2101) sub
  else if within 0x2401 0x2408 i then s.readId (i - 0x2400) sub
  else if within 0x3000 0x303F i then s.readLoop (i - 0x3000) sub
  else if within 0x5000 0x6FFF i then s.readBerth (i - 0x5000) sub
  else none

/-- The raw value of an entry as a requester reads it: a tally, a value that follows other state, or the register. -/
def State.entryValue (s : State) (id key : Nat) : Nat :=
  match s.nv.tally key with
  | some t => t.value
  | none =>
    let i := key / 256
    let sub := key % 256
    match s.readLow i sub with
    | some v => v
    | none =>
      match s.readHigh id i sub with
      | some v => v
      | none => (s.readItem i sub).getD (s.reg key)

/-- What a READ of `BUS_STATUS` ends: PROTOCOL_EXCEPTION tells of what came since the last one (R382). -/
def State.afterRead (s : State) (key : Nat) : State :=
  if key = Reg.BUS_STATUS 0 then s.setChan .one { s.chan .one with protoExc := false }
  else if key = Reg.BUS_STATUS 1 then s.setChan .two { s.chan .two with protoExc := false }
  else s

/-- Entries that answer every read with ACCESS (R404). -/
def readForbidden (key : Nat) : Bool := key == Reg.KEY_OPERATOR || key == Reg.KEY_SERVICE

/-- The bytes of an entry's value (R389). -/
def State.entryBytes (s : State) (id key : Nat) : List Nat :=
  match findEntry key with
  | some e => leBytes e.ty.bytes (s.entryValue id key)
  | none => []

end Sys2Proof.Machine
end

