-- ==== Sys2Proof/Machine/Window.lean ====
section
/-!
DEFINITION. The commands of the host window, of compaction and of the leaky buckets (R422, R429 to R434, R439). After each window
command `klp.spiOut` holds what the device clocked out.
-/
namespace Sys2Proof.Machine

/-- A new window transaction: CS_NV_L rose since the last one, which closes an open code word (R432); the window ignores
CS_NV_L after PFAIL and without power (R427). -/
def State.windowDo (s : State) (f : State → State) : State := if s.windowAnswers then f (s.closeOpen.spiOutput []) else s

/-- The write enable latch put. -/
def State.setWel (s : State) (b : Bool) : State := s.withNv { s.nv with wel := b }

/-- NV_WREN (R429). -/
def execNvWren (s : State) : Out := .next (s.windowDo fun s => s.setWel true)

/-- NV_WRDI (R429). -/
def execNvWrdi (s : State) : Out := .next (s.windowDo fun s => s.setWel false)

/-- NV_RDSR (R430): the status byte, repeated for `n` bytes. -/
def execNvRdsr (n : Nat) (s : State) : Out :=
  .next (s.windowDo fun s => s.spiOutput (List.replicate n s.windowStatus))

/-- NV_WRSR (R430): bit 2 sets the page mode and is stored; ignored without WEL. -/
def execNvWrsr (b : Nat) (s : State) : Out :=
  .next (s.windowDo fun s => if s.nv.wel then (s.putEntry Reg.NV_PAGE_MODE (field b 2 1)).2 else s)

/-- The data of a read transaction. -/
def State.windowRead (s : State) (addr n : Nat) : State :=
  s.windowDo fun s => let r := s.readBytes (addr % windowBytes) n; r.2.spiOutput r.1

/-- NV_READ (R431, R434). -/
def execNvRead (addr n : Nat) (s : State) : Out := .next (s.windowRead addr n)

/-- NV_FAST_READ (R431, R434): the dummy byte carries nothing. -/
def execNvFastRead (addr n : Nat) (s : State) : Out := .next (s.windowRead addr n)

/-- A WRITE that the window ignores (R429). -/
def State.writeIgnored (s : State) : State := s.withNv { s.nv with ignored := satInc 32 s.nv.ignored }

/-- NV_WRITE (R431, R432): `cont`, CS_NV_L is still low after these bytes, so the code word they end in stays open. -/
def execNvWrite (addr : Nat) (bytes : List Nat) (cont : Bool) (s : State) : Out :=
  .next (s.windowDo fun s =>
    if !s.nv.wel || s.reg Reg.NV_HOST_LOCK == 1 then s.writeIgnored
    else
      let t := s.writeBytes (s.reg Reg.NV_PAGE_MODE == 1) (addr % windowBytes) bytes
      if cont then t else t.closeOpen)

/-- The address RDER gives, MSB first: a free value where no address is held. -/
def rderAddress (a : Nat) : List Nat := [a / 65536 % 256, a / 256 % 256, a % 256]

/-- NV_RDER (R429). -/
def execNvRder (n : Nat) (s : State) : Out :=
  .next (s.windowDo fun s =>
    match s.nv.firstUe with
    | some a => s.spiOutput ((rderAddress a ++ List.replicate n 0xFF).take n)
    | none => s.tickFree.spiOutput ((rderAddress s.free ++ List.replicate n 0xFF).take n))

/-- NV_CLER (R429): UE, WFAIL and the address held for RDER are cleared. -/
def execNvCler (s : State) : Out :=
  .next (s.windowDo fun s => s.withNv { s.nv with ue := false, wfail := false, firstUe := none })

/-- NV_RDID (R429). -/
def execNvRdid (n : Nat) (s : State) : Out :=
  .next (s.windowDo fun s => s.spiOutput (([0x0D, 0xC5, 0x18] ++ zeros n).take n))

/-! ### Compaction and buckets -/

/-- The area that is not in use, with its header written to 0. -/
def Nv.dropOther (n : Nv) : Nv :=
  if n.useOne then { n with area0 := { n.area0 with valid := false } } else { n with area1 := { n.area1 with valid := false } }

/-- MRAM address of the area that is not in use (R416). -/
def Nv.otherAddr (n : Nv) : Nat := if n.useOne then 0x2000 else 0x21000

/-- A compaction that read back well, its count beyond 32 bits a free value (assumption 2). -/
def State.compactionGood (s : State) : State :=
  if s.nv.compactions + 1 < 2 ^ 32 then s.withNv s.nv.compact
  else (s.withNv { s.nv.compact with compactions := s.free % 2 ^ 32 }).tickFree

/-- A compaction that failed twice (R422): the old area stays in use; NV_MEDIA names the other area. -/
def State.compactionBad (s : State) : State :=
  (s.withNv { s.nv.dropOther with compacting := false, compactFailed := true }).pushLog Lt.NV_MEDIA (leBytes 4 s.nv.otherAddr ++ [1])

/-- COMPACTION_DONE (R422): `ok`, the new area reads back. PFAIL stops a compaction (R427). -/
def execCompactionDone (ok : Bool) (s : State) : Out :=
  .next (if s.nv.compacting && !s.pfail then (if ok then s.compactionGood else s.compactionBad) else s)

/-- BUCKET_LEAK (R439): the leak interval of memory `n` has passed. -/
def execBucketLeak (n : Nat) (s : State) : Out := .next (if n ≤ 4 then s.leakBucket n else s)

end Sys2Proof.Machine
end

