-- ==== Sys2Proof/Machine/Logbook.lean ====
section
/-!
DEFINITION. The commands of the logbook (R447, R454, R456, R457).
-/
namespace Sys2Proof.Machine

/-- LOG_RECORD_WRITE (R447, R459): the next queued record; the record writer stops at PFAIL (R427). -/
def execLogRecordWrite (s : State) : Out := .next (if s.pfail || !s.pwr.rails then s else s.writeRecord)

/-! ### Streaming (R456) -/

/-- The channel that streams: the one `LOG_STREAM` names, NORMAL and FD, outside STORM. -/
def State.streamBus (s : State) : Option Bus :=
  let n := s.reg Reg.LOG_STREAM
  let c : Option Bus := if n = 1 then some .one else if n = 2 then some .two else none
  c.filter fun c => !s.storm && (s.chan c).active == .normal && s.fdOn c

/-- Room in transmit queue 5. -/
def State.streamRoom (s : State) (c : Bus) (n : Nat) : Bool := Nat.ble (((s.chan c).queues.getD 5 []).length + n) (queueDepth 5)

/-- The frames of a record or marker queued, and the cursor moved on. -/
def State.streamOut (s : State) (c : Bus) (bytes : List Nat) (cursor : Nat) : State :=
  let fs := streamFrames bytes
  if s.streamRoom c fs.length then
    let t := fs.foldl (fun u f => (u.enqueue c 5 (plainFrame (u.ownId 0x7) true (fdPad f))).2) s
    t.withLog { t.log with streamNext := cursor }
  else s

/-- LOG_STREAM_SEND (R456): the next record written goes out, one that the filter leaves out is passed over; a full queue makes
it wait. -/
def execLogStreamSend (s : State) : Out :=
  .next (match s.streamBus, s.streamNext with
    | some c, some (some bytes, cursor) => s.streamOut c bytes cursor
    | some _, some (none, cursor) => s.withLog { s.log with streamNext := cursor }
    | _, _ => s)

/-! ### Clearing and cursors -/

/-- The ring cleared (R457): CLEAR_SEQ is the next SEQ, and LOG_CLEARED follows as the first record kept. -/
def State.clearRing (s : State) (id : Nat) : State :=
  let l := { s.log with clearSeq := s.log.nextSeq, clears := s.log.clears + 1 }
  (s.withLog l).pushLog Lt.LOG_CLEARED
    ([s.levelOf id, id, 0, 0] ++ leBytes 4 l.clearSeq ++ leBytes 4 l.overwritten)

/-- The rule of `LOG_CLEAR`. -/
def logClearRule (id : Nat) (s : State) (v : Nat) : Status × State :=
  if v = 0xC1 then (.ok, s.clearRing id)
  else if v = 0xA5 then
    if s.levelOf id < 3 then (.access, s)
    else (.ok, (s.withLog { s.log with anchor := [] }).clearRing id)
  else (.range, s)

/-- LOG_CLEAR_WRITE (R457). -/
def execLogClearWrite (w : Wr) (s : State) : Out := .next (s.ledgerWrite w Reg.LOG_CLEAR (logClearRule w.req.id))

/-- LOG_CURSOR_WRITE (R454): the requester's own cursor. -/
def execLogCursorWrite (w : Wr) (s : State) : Out :=
  .next (s.ledgerWrite w Reg.LOG_CURSOR fun s v => (.ok, s.withLog (s.log.setCursor w.req.id v)))

end Sys2Proof.Machine
end

