-- ==== Sys2Proof/Machine/Clock.lean ====
section
/-!
DEFINITION. The commands of the mooring domain: its supply, its crystal, the calendar, alarms, trim and time frames (R463 to R480).
-/
namespace Sys2Proof.Machine

/-! ### Supply (R463, R464) -/

/-- The supply state put. -/
def State.moorTo (s : State) (m : Mooring) : State := s.withRtc { s.rtc with supply := m }

/-- An entry into BACKUP, counted; beyond 32 bits the count is a free value (assumption 2). -/
def State.enterBackup (s : State) : State :=
  let n := s.rtc.backupEvents + 1
  if n < 2 ^ 32 then s.withRtc { s.rtc with supply := .backup, backupEvents := n }
  else (s.withRtc { s.rtc with supply := .backup, backupEvents := s.free % 2 ^ 32 }).tickFree

/-- VAON_LOSS (R463): the switch to VBAK, of `vbak` mV; a cell below 1.60 V leaves the domain to the bridge capacitor. -/
def execVaonLoss (vbak : Nat) (s : State) : Out :=
  .next (if s.rtc.supply = .main then (if vbak < 1600 then s.enterBackup.moorTo .bridge else s.enterBackup) else s)

/-- VAON_RETURN (R463): from BACKUP, or from BRIDGE before its timer ends. -/
def execVaonReturn (s : State) : Out :=
  .next (if s.rtc.supply = .backup ∨ s.rtc.supply = .bridge then s.moorTo .main else s)

/-- VBAK_DROP (R463). -/
def execVbakDrop (s : State) : Out := .next (if s.rtc.supply = .backup then s.moorTo .bridge else s)

/-- VBAK_RETURN (R463): an entry into BACKUP like any other. -/
def execVbakReturn (s : State) : Out := .next (if s.rtc.supply = .bridge then s.enterBackup else s)

/-- BRIDGE_TIMEOUT (R463): the domain is reset. -/
def execBridgeTimeout (s : State) : Out := .next (if s.rtc.supply = .bridge then s.moorTo .down else s)

/-- The domain's settings at their defaults (R464). -/
def State.rtcDefaults (s : State) : State := rtcSettings.foldl (fun t k => t.setReg k (keyDefault k)) s

/-- MOORING_DOMAIN_START (R464): on main power or on VBAK. With main power present TIME_LOST is written at once. -/
def execMooringDomainStart (main : Bool) (s : State) : Out :=
  .next (if s.rtc.supply = .down then
    let t := (s.withRtc (s.rtc.start main)).rtcDefaults
    let u := if main then t else t.enterBackup
    if u.tide.running && u.pwr.rails then u.timeLost.evalPrograms else u
  else s)

/-! ### The crystal (R465) -/

/-- XTAL32_STOP (R465): the internal RC carries the tick count, and trim stops. -/
def execXtal32Stop (s : State) : Out := .next (s.withRtc { s.rtc with xtalFail := true, trimPulses := 0 })

/-- XTAL32_RETURN (R465). -/
def execXtal32Return (s : State) : Out := .next (s.withRtc { s.rtc with xtalFail := false })

/-! ### The calendar (R469 to R473) -/

/-- A refused date (R470). -/
def State.rejectTime (s : State) (v : Nat) : State :=
  (s.withRtc { s.rtc with timeRejects := satInc 32 s.rtc.timeRejects }).pushLog Lt.TIME_REJECT
    (badField v :: (leBytes 8 v).drop 1)

/-- The rule of `DATE_TIME` (R470). -/
def dateTimeRule (s : State) (v : Nat) : Status × State :=
  if field v 0 8 ≠ 0 then (.range, s)
  else if badField v ≠ 0 then (.timeInvalid, s.rejectTime v)
  else (.ok, s.setCalendar ((secondOf v * tickHz : Nat) - (s.rtc.ticks : Int)))

/-- DATE_TIME_WRITE (R470). -/
def execDateTimeWrite (w : Wr) (s : State) : Out := .next (s.ledgerWrite w Reg.DATE_TIME dateTimeRule)

/-- The rule of `CALENDAR_OFFSET` (R471). -/
def calendarOffsetRule (s : State) (v : Nat) : Status × State :=
  let off := toSigned 64 v
  if inCalendar (s.rtc.ticks + off) then (.ok, s.setCalendar off) else (.range, s)

/-- CALENDAR_OFFSET_WRITE (R471). -/
def execCalendarOffsetWrite (w : Wr) (s : State) : Out := .next (s.ledgerWrite w Reg.CALENDAR_OFFSET calendarOffsetRule)

/-- The rule of `SUBSEC_SHIFT` (R472). -/
def subsecRule (s : State) (v : Nat) : Status × State :=
  let d := toSigned 16 v
  if !s.rtc.valid then (.state, s) else if withinI (-32767) 32767 d then (.ok, s.startSlew d) else (.range, s)

/-- SUBSEC_SHIFT_WRITE (R472). -/
def execSubsecShiftWrite (w : Wr) (s : State) : Out := .next (s.ledgerWrite w Reg.SUBSEC_SHIFT subsecRule)

/-- SUBSEC_SLEW_DONE (R472): what is left of the shift is in the offset. -/
def execSubsecSlewDone (s : State) : Out :=
  .next (s.withRtc { s.rtc with offset := s.rtc.offset + s.rtc.slew, slew := 0 })

/-- The rule of `DST_COMMAND` (R473). -/
def dstRule (s : State) (v : Nat) : Status × State :=
  if v = 1 then
    if !s.rtc.valid || s.rtc.dst then (.state, s)
    else if inCalendar (s.calTicks + 117964800) then (.ok, s.dstStep true)
    else (.range, s)
  else if v = 2 then (if !s.rtc.valid || !s.rtc.dst then (.state, s) else (.ok, s.dstStep false))
  else (.range, s)

/-- A write of `DST_COMMAND`. -/
def State.dstWrite (s : State) (r : Req) (code : Nat) : State :=
  s.ledgerWrite { req := r, len := 1, val := code } Reg.DST_COMMAND dstRule

/-- DST_FORWARD (R473). -/
def execDstForward (r : Req) (s : State) : Out := .next (s.dstWrite r 1)

/-- DST_BACK (R473). -/
def execDstBack (r : Req) (s : State) : Out := .next (s.dstWrite r 2)

/-! ### Alarms (R474, R475) -/

/-- A second that is evaluated: the calendar is valid and the second later than the latest evaluated (R476). -/
def State.secondDue (s : State) : Bool :=
  s.rtc.valid && decide (0 ≤ s.calSecond) && s.rtc.evaluated.all (fun e => decide (e < s.calSecond)) && s.rtc.supply != .down

/-- CALENDAR_SECOND (R475, R476): the second that has just begun. -/
def execCalendarSecond (s : State) : Out :=
  .next (if s.secondDue then
    let t := s.evalAlarms s.calSecond.toNat
    t.withRtc { t.rtc with evaluated := some s.calSecond }
  else s)

/-- The rule of `ALARM_MATCH` of alarm n, 0 or 1 (R474). -/
def alarmMatchRule (n : Nat) (s : State) (v : Nat) : Status × State :=
  if alarmAllowed v then s.putEntry (Reg.ALARM_MATCH n) v else (.range, s)

/-- ALARM_MATCH_WRITE (R474). -/
def execAlarmMatchWrite (n : Nat) (w : Wr) (s : State) : Out :=
  .next (s.ledgerWrite w (Reg.ALARM_MATCH n) (alarmMatchRule n))

/-- The rule of `ALARM_STATUS` (R480): 1 to FIRED clears both bits. -/
def alarmStatusRule (n : Nat) (s : State) (v : Nat) : Status × State :=
  (.ok, if bitAt v 0 then s.withRtc { s.rtc with alarmStatus := s.rtc.alarmStatus.set n 0 } else s)

/-- ALARM_STATUS_WRITE (R480). -/
def execAlarmStatusWrite (n : Nat) (w : Wr) (s : State) : Out :=
  .next (s.ledgerWrite w (Reg.ALARM_STATUS n) (alarmStatusRule n))

/-! ### Trim and time frames (R477, R478) -/

/-- TRIM_WINDOW (R463, R477): the mooring sensor in 0.01 °C and VBAK in mV; the pulses of the next window. -/
def execTrimWindow (temp : Int) (vbak : Nat) (s : State) : Out :=
  .next (if s.rtc.supply = .down then s
  else s.withRtc { s.rtc with
    temp := temp, vbakMv := vbak, vbakLow := decide (vbak < 2000), trimPulses := s.trimFor temp, trimAcc := 0 })

/-- TIME_FRAME_SEND (R478): the frame that waits for a request or a change, else the periodic one while `TIME_FRAME_PERIOD` is
not 0. -/
def execTimeFrameSend (s : State) : Out :=
  .next (match s.rtc.sched with
    | reason :: rest => (s.withRtc { s.rtc with sched := rest }).sendTime reason
    | [] => if s.reg Reg.TIME_FRAME_PERIOD = 0 then s else s.sendTime 0)

end Sys2Proof.Machine
end

