-- ==== Sys2Proof/Machine/TestPort.lean ====
section
/-!
DEFINITION. The instructions of the test port (R556).
-/
namespace Sys2Proof.Machine

/-- A test instruction taken; one that TEST_EN enables acts as BYPASS where TEST_EN was low at power-up. An instruction can only
be clocked in with TRST_L high, so the reset of the test logic has ended (assumption 43). -/
def State.jtagTake (s : State) (i : JtagIr) (gated : Bool) : State :=
  { s with jtag := { s.jtag with ir := if gated && !s.jtag.testEn then .bypass else i, inReset := false } }

/-- JTAG_BYPASS (R556). -/
def execJtagBypass (s : State) : Out := .next (s.jtagTake .bypass false)

/-- JTAG_IDCODE (R556). -/
def execJtagIdcode (s : State) : Out := .next (s.jtagTake .idcode false)

/-- JTAG_SAMPLE_PRELOAD (R556). -/
def execJtagSamplePreload (s : State) : Out := .next (s.jtagTake .samplePreload false)

/-- JTAG_EXTEST (R556). -/
def execJtagExtest (s : State) : Out := .next (s.jtagTake .extest true)

/-- JTAG_HIGHZ (R556). -/
def execJtagHighz (s : State) : Out := .next (s.jtagTake .highz true)

/-- JTAG_CLAMP (R556). -/
def execJtagClamp (s : State) : Out := .next (s.jtagTake .clamp true)

/-- What the identity register reads (R556). -/
def State.idcode (s : State) : Nat := (s.reg Reg.STEPPING - 1) * 2 ^ 28 + 0xD520A9F

/-- TRST_ASSERT (R556): the test logic is held in reset; in reset its instruction is IDCODE (assumption 43). -/
def execTrstAssert (s : State) : Out := .next { s with jtag := { s.jtag with ir := .idcode, inReset := true } }

end Sys2Proof.Machine
end

