-- ==== Sys2Proof/Machine/EntryRules.lean ====
section
/-!
DEFINITION. The rule of every writable entry (R384 to R390): what a write must meet beyond the access level and the type, and what
an accepted write does. An entry with no rule of its own has the plain rule, its range and its store.
-/
namespace Sys2Proof.Machine

/-- The rule of an entry: refused with a status, or the state after it. -/
abbrev Rule := State → Nat → Status × State

/-! ### Entries that take command codes: any other code is refused with RANGE (R138, R227, R531) -/

/-- `CAL_COMMAND` (R138). -/
def calCommandRule (r : Req) (s : State) (v : Nat) : Status × State :=
  match v with
  | 1 => calCycleRule r s
  | 2 => calCycleRefRule r s
  | 3 => calAbortRule r s
  | 4 => calQualifySparesRule r s
  | 5 => calShutterTestRule r s
  | 6 => calLoadFactoryRule r s
  | _ => (.range, s)

/-- `HM_COMMAND` (R227). -/
def hmCommandRule (s : State) (v : Nat) : Status × State :=
  match v with
  | 1 => hmSwapRule s
  | 2 => hmRejoinTestRule s
  | 3 => hmStormExitRule s
  | 4 => hmStormEnterRule s
  | 5 => hmRetireARule s
  | 6 => hmRetireBRule s
  | 7 => hmClearCountsRule s
  | _ => (.range, s)

/-- `SLIP_COMMAND` (R531). -/
def slipCommandRule (s : State) (v : Nat) : Status × State :=
  match v with
  | 1 => slipLoadStandbyRule s
  | 2 => slipSwapRule s
  | 3 => slipCommitRule s
  | 4 => slipRollbackRule s
  | 5 => slipAbortRule s
  | 6 => slipInstallResetRule s
  | _ => (.range, s)

/-! ### Entries whose rules have no row of their own -/

/-- `VC1_ENABLE` and `TAG_LINES` (R215): refused where the link could not carry the configuration. -/
def vc1Rule (s : State) (v : Nat) : Status × State :=
  if s.linkRefuses { s.linkCfg with vc1 := v == 1 } then (.range, s) else plainRule Reg.VC1_ENABLE s v
def tagLinesRule (s : State) (v : Nat) : Status × State :=
  if s.linkRefuses { s.linkCfg with tags := v == 1 } then (.range, s) else plainRule Reg.TAG_LINES s v

/-- `OUT_MIN` and `OUT_MAX` of loop l (R267): the lower limit is not above the upper. -/
def outMinRule (l : Nat) (s : State) (v : Nat) : Status × State :=
  if s.reg (Reg.OUT_MAX l) < v then (.range, s) else plainRule (Reg.OUT_MIN l) s v
def outMaxRule (l : Nat) (s : State) (v : Nat) : Status × State :=
  if v < s.reg (Reg.OUT_MIN l) then (.range, s) else plainRule (Reg.OUT_MAX l) s v

/-- Entries that schedules and zones read: programs are evaluated again (R284). -/
def scheduleRule (key : Nat) (s : State) (v : Nat) : Status × State := andThen (plainRule key s v) State.evalPrograms

/-- `MASTER_SOURCE` (R288, R405): no heartbeat of a new master has arrived yet. -/
def masterSourceRule (s : State) (v : Nat) : Status × State :=
  andThen (plainRule Reg.MASTER_SOURCE s v) fun t =>
    let u := if s.reg Reg.MASTER_SOURCE = v then t
      else { t with klp := { t.klp with masterHb := none }, loop := { t.loop with seenMaster := false } }
    u.noteAutonomous.engineHolds

/-- One source of `PRESENCE_SOURCES` (R279, R280): a berth's kind must be PRESENCE, else STATE; an input is DI1 to DI8. -/
def presenceBerthOk (s : State) (src : Nat) : Bool := Nat.ble 0x2000 src || s.reg (Reg.KIND src) == 3
def presenceSourceOk (src : Nat) : Bool := Nat.blt src 0x2000 || src == 0xFFFF || within 0x8001 0x8008 src

/-- `PRESENCE_SOURCES` of zone z. -/
def presenceRule (z : Nat) (s : State) (v : Nat) : Status × State :=
  let all (f : Nat → Bool) : Bool := (List.range 4).all fun j => f (field v (16 * j) 16)
  if all (presenceBerthOk s) = false then (.state, s)
  else if all presenceSourceOk = false then (.range, s)
  else scheduleRule (Reg.PRESENCE_SOURCES z) s v

/-- `FAN_TACHS` of channel c (R319): a tach in both channels is refused with STATE; a tach newly named is STOPPED. -/
def fanTachsRule (c : Nat) (s : State) (v : Nat) : Status × State :=
  if (List.range 4).any fun k => bitAt v k && s.regBit (Reg.FAN_TACHS (1 - c)) k then (.state, s)
  else andThen (plainRule (Reg.FAN_TACHS c) s v) fun t =>
    (List.range 4).foldl (fun u k =>
      let x := u.tach k
      if bitAt v k ∧ x.st = .unbound then u.setTach k { x with st := .stopped }
      else if bitAt v k = false ∧ s.regBit (Reg.FAN_TACHS c) k = true then u.setTach k { x with st := .unbound }
      else u) t

/-- `PANEL_TEMP_CHANNEL` (R498): an external channel needs CELSIUS. -/
def panelTempRule (s : State) (v : Nat) : Status × State :=
  if within 1 12 v then
    if s.reg (Reg.AI_UNIT (v - 1)) = 2 then s.putEntry Reg.PANEL_TEMP_CHANNEL v else (.state, s)
  else if v = 41 ∨ v = 43 then s.putEntry Reg.PANEL_TEMP_CHANNEL v
  else (.range, s)

/-- `LH_CELL` of cell n (R498): the segment is 1 to 24. -/
def lhCellRule (n : Nat) (s : State) (v : Nat) : Status × State :=
  if 23 < field v 0 5 then (.range, s) else plainRule (Reg.LH_CELL n) s v

/-- `RESET_KEYS` (R505): two different keys, or 0 to turn the combination off. -/
def resetKeysRule (s : State) (v : Nat) : Status × State :=
  let a := field v 8 8
  let b := field v 0 8
  if v = 0 ∨ (within 1 36 a = true ∧ within 1 36 b = true ∧ a ≠ b) then s.putEntry Reg.RESET_KEYS v else (.range, s)

/-- `FEEDS_EXPECTED` (R509): with every expected feed present nothing is missing any more. -/
def feedsExpectedRule (s : State) (v : Nat) : Status × State :=
  andThen (plainRule Reg.FEEDS_EXPECTED s v) fun t =>
    if t.pwr.missing && t.feedsThere then
      ((t.withPwr { t.pwr with missing := false }).feedRecord).alarmOf 0x2090 0 (t.reg Reg.VHOLD_MV / 10) 0
    else t

/-- `IRQ_CLEAR` (R408): RESPONSE_READY cannot be cleared this way. -/
def irqClearRule (s : State) (v : Nat) : Status × State :=
  (.ok, s.withKlp { s.klp with irq := (List.range 8).foldl (fun x i => if i ≠ 0 ∧ bitAt v i = true then bitOff x i else x) s.klp.irq })

/-- `LOG_CURSOR` (R454). -/
def logCursorRule (id : Nat) (s : State) (v : Nat) : Status × State := (.ok, s.withLog (s.log.setCursor id v))

/-- A frozen tally's entry written at FACTORY (R425): it holds the value and counts again. -/
def tallyRule (key : Nat) (s : State) (v : Nat) : Status × State :=
  (.ok, s.withNv { s.nv with
    tallies := s.nv.tallies.map fun t =>
      if t.key == key then { t with base := v, incs := 0, tag := (t.tag + 1) % 2 ^ 16, frozen := false } else t })

/-! ### The rule of an entry, by its index and sub -/

/-- Indices up to 0x1B00. -/
def ruleLow (r : Req) (i sub : Nat) : Option Rule :=
  match i, sub with
  | 0x1000, 0x0E => some resetCommandRule
  | 0x1100, 0x05 => some rateModeRule
  | 0x1110, 0x01 => some mainsModeRule
  | 0x1210, 0x11 => some (gradientLimitRule 0x11)
  | 0x1210, 0x12 => some (gradientLimitRule 0x12)
  | 0x1300, 0x01 => some imagerModeRule
  | 0x1300, 0x03 => some outputFormRule
  | 0x1300, 0x08 => some filterShiftRule
  | 0x1310, 0x02 => some (lensRule 2)
  | 0x1310, 0x03 => some (lensRule 3)
  | 0x1310, 0x04 => some (lensRule 4)
  | 0x1400, 0x02 => some (calCommandRule r)
  | 0x1600, 0x01 => some videoEnableRule
  | 0x1600, 0x02 => some (videoLinkRule 2)
  | 0x1600, 0x03 => some (videoLinkRule 3)
  | 0x1600, 0x04 => some (videoLinkRule 4)
  | 0x1600, 0x05 => some (videoLinkRule 5)
  | 0x1600, 0x06 => some vc1Rule
  | 0x1600, 0x07 => some tagLinesRule
  | 0x1600, 0x08 => some vc2Rule
  | 0x1700, 0x05 => some hmCommandRule
  | 0x1720, 0x04 => some salvageReleaseRule
  | 0x1800, 0x02 => some masterSourceRule
  | 0x1B00, 0x03 => some adcCalRule
  | 0x1B00, 0x04 => some urgentRule
  | _, _ => none

/-- Indices from 0x1D00 to 0x2600. -/
def ruleHigh (r : Req) (i sub : Nat) : Option Rule :=
  match i, sub with
  | 0x1D00, 0x0F => some irqClearRule
  | 0x2000, 0x05 => some (logCursorRule r.id)
  | 0x2000, 0x06 => some (logClearRule r.id)
  | 0x2100, 0x02 => some calendarOffsetRule
  | 0x2100, 0x04 => some dateTimeRule
  | 0x2100, 0x07 => some dstRule
  | 0x2100, 0x08 => some subsecRule
  | 0x2200, 0x04 => some regionUpdateRule
  | 0x2200, 0x05 => some panelTempRule
  | 0x2300, 0x08 => some resetKeysRule
  | 0x2400, 0x05 => some idRereadRule
  | 0x2500, 0x01 => some powerRequestRule
  | 0x2500, 0x03 => some pfailLevelRule
  | 0x2500, 0x04 => some feedsExpectedRule
  | 0x2600, 0x02 => some slipCommandRule
  | _, _ => none

/-- Entries of an output, a fan channel, a channel of the bus. -/
def ruleFan (c sub : Nat) : Option Rule :=
  if sub = 0x01 then some (fanCommandRule c)
  else if sub = 0x05 then some (fanIlimitRule c)
  else if sub = 0x06 then some (fanTachsRule c)
  else if within 0x08 0x0B sub then some (fanBandRule c (sub - 8))
  else none
def ruleBus (c : Bus) (sub : Nat) : Option Rule :=
  if sub = 0x01 then some (busModeRule c)
  else if sub = 0x06 then some (tripleSampleRule c)
  else if within 0x03 0x0A sub then some (busTimingRule c sub)
  else none

/-- Entries of a loop and of a zone. -/
def ruleLoop (l sub : Nat) : Option Rule :=
  match sub with
  | 0x01 => some (loopModeRule l)
  | 0x03 => some (pvSourceRule (Reg.PV_SOURCE l))
  | 0x04 => some (pvSourceRule (Reg.PV_BACKUP l))
  | 0x05 => some (loopTargetRule l)
  | 0x0E => some (outMinRule l)
  | 0x0F => some (outMaxRule l)
  | _ => none
def ruleZone (z sub : Nat) : Option Rule :=
  match sub with
  | 0x01 => some (scheduleRule (Reg.ZONE_PROGRAM z))
  | 0x02 => some (zoneOverrideRule z)
  | 0x04 => some (presenceRule z)
  | 0x05 => some (scheduleRule (Reg.PRESENCE_MODE z))
  | 0x07 => some (scheduleRule (Reg.DEFAULT_MODE z))
  | _ => none

/-- Indices of numbered items. -/
def ruleItem (r : Req) (i sub : Nat) : Option Rule :=
  if i = 0x1221 then some (groupStateRule (sub - 1))
  else if i = 0x1710 then some (stormValueRule sub)
  else if within 0x1901 0x1910 i then
    if sub = 0x01 then some (outModeRule (i - 0x1901)) else if sub = 0x02 then some (outCommandRule (i - 0x1901)) else none
  else if within 0x1A20 0x1A21 i then ruleFan (i - 0x1A20) sub
  else if i = 0x1B01 then some (adcFactorRule sub)
  else if within 0x1B10 0x1B1B i then (if within 1 0x0A sub then some (aiConfigRule (i - 0x1B10 + 1) sub) else none)
  else if i = 0x1C10 then ruleBus .one sub
  else if i = 0x1C11 then ruleBus .two sub
  else if within 0x2101 0x2102 i then
    if sub = 0x01 then some (alarmMatchRule (i - 0x2101)) else if sub = 0x02 then some (alarmStatusRule (i - 0x2101)) else none
  else if i = 0x2200 then
    if within 0x20 0x27 sub then some (regionCellsRule (sub - 0x20)) else if within 0x30 0x37 sub then some (lhCellRule (sub - 0x30))
    else none
  else if within 0x2401 0x2408 i then (if sub = 0x03 then some (slotBindRule (i - 0x2400)) else none)
  else if within 0x3000 0x303F i then ruleLoop (i - 0x3000) sub
  else if within 0x3100 0x311F i then
    if within 0x10 0x1F sub then some (switchPointRule (i - 0x3100) (sub - 0x10)) else some (scheduleRule (256 * i + sub))
  else if i = 0x3120 then some (exceptionDateRule (sub - 1))
  else if within 0x3200 0x321F i then ruleZone (i - 0x3200) sub
  else if within 0x5000 0x6FFF i then some fun s v => berthRule (s.levelOf r.id) (i - 0x5000) sub s v
  else none

/-- The rule of the entry at a key. -/
def entryRule (r : Req) (key : Nat) : Rule :=
  let i := key / 256
  let sub := key % 256
  if tallyKeys.contains key then tallyRule key
  else ((ruleLow r i sub).orElse fun _ => (ruleHigh r i sub).orElse fun _ => ruleItem r i sub).getD (plainRule key)

end Sys2Proof.Machine
end

