-- ==== Sys2Proof/Machine/Domains.lean ====
section
/-!
DEFINITION. What DOMAIN objects read, how long they are, and what a transfer of one may ask (R94, R97, R98, R155, R156, R191, R197,
R198, R257 to R259, R293, R353, R371, R399, R400, R435, R454, R486, R493, R500, R535).
-/
namespace Sys2Proof.Machine

/-! ### Views -/

/-- An object as reads see it: `len` bytes of words of `k` bytes each, or a list of bytes. -/
inductive View where
  | plane (k len : Nat) (word : Nat → Nat)
  | bytes (b : List Nat)

/-- The object's length. -/
def View.length : View → Nat
  | .plane _ n _ => n
  | .bytes b => b.length

/-- `n` bytes from an offset on, cut at the end. -/
def View.slice (v : View) (off n : Nat) : List Nat :=
  match v with
  | .plane k len word => (List.range (min n (len - off))).map fun j => word ((off + j) / k) / 256 ^ ((off + j) % k) % 256
  | .bytes b => (b.drop off).take n

/-! ### The pipeline's planes (R97) -/

/-- A factory word as written, with what the decompression of this start found (R96). -/
def PipePart.factoryRead (q : PipePart) (p : Nat) : Nat :=
  let w := smapGet (Config.factoryCoef p) p q.factory
  if q.badRows.contains (p / nCols) then bitOn w 40 else w

/-- Pixels of the geometry that the out store holds. -/
def PipePart.outPixels (q : PipePart) : Nat := if q.outBinned then 640 * 512 else nPixels

/-- Bytes of a 1-bit plane (R94). -/
def maskBytes : Nat := 655360

/-- 0x7010. -/
def State.viewPipe (s : State) (sub : Nat) : Option View :=
  let q := s.pipe
  match sub with
  | 1 => some (.plane 6 (6 * nPixels) q.coefWord)
  | 2 => some (.plane 2 (2 * nPixels) (q.off q.bank1))
  | 3 => some (.plane 6 (6 * nPixels) q.factoryRead)
  | 4 => some (.plane 1 maskBytes fun i => smapGet 0 i (q.maskNext.getD q.mask))
  | 5 => some (.plane 2 (2 * 4097) fun i => smapGet (Config.tempTable i) i q.tableNext % 65536)
  | 6 => some (.plane 2 (2 * 20480) q.consts.ffOf)
  | 7 => some (.plane 2 (2 * q.outPixels) fun p => smapGet 0 p q.out)
  | 8 => some (.plane 6 (6 * nBlind) fun b => q.blindHead b * 65536 + q.blindGet q.blindOff b)
  | _ => none

/-! ### Calibration (R155, R156) -/

/-- The reference choices as `REF_CHOICE` packs them. -/
def OffsetSet.choiceBytes (o : OffsetSet) : List Nat :=
  (List.range 640).map fun m => ((List.range 4).map fun n => 4 ^ n * o.choice (4 * m + n)).sum

/-- The RATE byte of a set. -/
def OffsetSet.rateByte (o : OffsetSet) : Nat := if o.source = 0 then (if Config.factoryRate60 then 60 else 30) else o.rate

/-- `CAL_SET` (R156). -/
def State.calSetBytes (s : State) : List Nat :=
  let o := s.cal.inForce
  let body := leBytes 2 1 ++ [s.reg Reg.GAIN_ACTIVE, o.rateByte] ++ leBytes 4 o.flagRef ++
    ((List.range 16).flatMap fun n => leBytes 4 (o.bandRef.getD n 0)) ++ leBytes 6 (s.reg Reg.CAL_TICKS) ++ [0, 0] ++
    leBytes 4 (s.reg Reg.CAL_FRAME) ++ ((List.range nBlind).flatMap fun b => leBytes 2 (s.pipe.blindGet s.pipe.blindOff b)) ++
    o.choiceBytes
  body ++ leBytes 4 (crc32 body)

/-- `SPARE_TRIMS` (R155): as written where a write waits for its boundary (R158). -/
def State.spareTrimBytes (s : State) : List Nat :=
  let f := s.focal
  let t := (f.trimsNext.map Prod.fst).getD f.trims
  let c := (f.trimsNext.map Prod.snd).getD f.testCodes
  ((List.range nCols).map fun x => smapGet 0 x t) ++ (List.range 2624).flatMap fun x => leBytes 2 (smapGet 0x2AAA x c)

/-- 0x7020. -/
def State.viewCal (s : State) (sub : Nat) : Option View :=
  let q := s.pipe
  match sub with
  | 1 => some (.bytes s.calSetBytes)
  | 3 => some (.plane 2 (2 * nPixels) (q.off q.active))
  | 4 => some (.bytes s.spareTrimBytes)
  | 5 => some (.bytes s.cal.inForce.choiceBytes)
  | 6 => some (.plane 2 (2 * nPixels) (q.off s.cal.parked))
  | _ => none

/-! ### Berths (R197, R198) -/

/-- The 48 bytes of a `BERTH_TABLE` record: sub and width in order, a sub of 0 for bytes that are 0. -/
def tableFields : List (Nat × Nat) :=
  [(1, 1), (3, 1), (8, 1), (12, 1), (13, 1), (15, 1), (18, 1), (0, 1), (2, 8), (4, 2), (5, 2), (6, 2), (7, 2), (9, 4), (10, 4),
    (11, 4), (14, 2), (16, 2), (17, 4), (19, 2), (0, 2)]

/-- A berth's record as last written. -/
def State.berthRecord (s : State) (n : Nat) : List Nat :=
  tableFields.flatMap fun f => leBytes f.2 (if f.1 = 0 then 0 else s.berthWritten n f.1)

/-- 0x7030. -/
def State.viewBerths (s : State) (sub : Nat) : Option View :=
  match sub with
  | 1 => some (.plane 48 (48 * 8192) fun n => leValue (s.berthRecord n))
  | 2 => some (.bytes s.tableBytes)
  | 3 => some (.plane 1 maskBytes fun i => smapGet 0 i (s.berth.maskNext.getD s.berth.mask))
  | 4 => some (.plane 1 2048 fun m =>
      ((List.range 4).map fun n => 4 ^ n * ((s.berthRun (4 * m + n)).map BerthRun.alarmPub).getD 0).sum)
  | _ => none

/-! ### Salvage (R257, R258) -/

/-- Bytes 0 to 0x7F of a record and its manifest, at 0x180: what the device itself forms. -/
def Salvage.head (v : Salvage) : List Nat :=
  leBytes 2 1 ++ [v.writer, v.trigger] ++ leBytes 8 v.t64 ++ leBytes 6 v.rtc ++ leBytes 4 v.frame ++ leBytes 4 v.seq
def Salvage.stackBytes (v : Salvage) : List Nat := (v.stack.flatMap (leBytes 8)) ++ v.roles

/-- Byte i of a record before its CRC; a record of the harbourmaster holds no bytes of a pilot's. -/
def Salvage.byte (v : Salvage) (i : Nat) : Nat :=
  let own : Nat := if v.writer = 0 then 0 else Config.salvageByte v.t64 i % 256
  if i < 26 then v.head.getD i 0
  else if i < 30 then own
  else if i < 64 then 0
  else if i < 108 then v.stackBytes.getD (i - 64) 0
  else if i < 128 then 0
  else if i < 0x180 then own
  else if i < 0x380 then v.manifest.getD (i - 0x180) 0
  else if i < 0x400 then 0
  else own

/-- Byte i of the summary before its CRC. -/
def Salvage.summaryByte (v : Salvage) (i : Nat) : Nat :=
  if i < 0x380 then v.byte i else if i < 0x4000 then v.byte (0x10400 + (i - 0x380)) else v.byte (0x20400 + (i - 0x4000))

/-- A record of `n` bytes with its CRC at the end; nothing but zeros where there is none. -/
def salvageView (n : Nat) (v : Option Salvage) (f : Salvage → Nat → Nat) : View :=
  match v with
  | none => .plane 1 n fun _ => 0
  | some v => .plane 1 n fun i =>
      if i < n - 4 then f v i else (leBytes 4 (crc32 ((List.range (n - 4)).map (f v)))).getD (i - (n - 4)) 0

/-! ### Exchange, window, panel (R371, R435, R500) -/

/-- The 16 bytes of a receive slot. -/
def State.rxSlotBytes (s : State) (n : Nat) : List Nat :=
  match s.bus.rxSlots.find? fun p => p.1 == n with
  | some p => leBytes 4 p.2.1 ++ leBytes 8 p.2.2.1 ++ [p.2.2.2, 0, 0, 0]
  | none => zeros 16

/-- 0x7070. -/
def State.viewExchange (s : State) (sub : Nat) : Option View :=
  match sub with
  | 1 => some (.plane 4 1024 fun n => smapGet 0 n (s.bus.rxMapNext.getD s.bus.rxMap))
  | 2 => some (.plane 16 4096 fun n => leValue (s.rxSlotBytes n))
  | 3 => some (.plane 4 1024 fun n => smapGet 0 n s.bus.txSlots)
  | _ => none

/-- 0x7080: with no slot loaded the bytes of `QUICK_SAVE` are free values. -/
def State.viewNv (s : State) (sub : Nat) : Option View :=
  match sub with
  | 1 => some (.plane 1 windowBytes fun a => (Memory.read s.nv.win a).toNat)
  | 2 => some (match s.nv.slot s.nv.loaded with
      | some q => .bytes q.bytes
      | none => .plane 1 4096 fun i => Config.freeNat (s.freeCtr + i) % 256)
  | _ => none

/-- The waveform table with its CRC (R486). -/
def PanelPart.waveBytes (p : PanelPart) : List Nat :=
  let b := (List.range 5376).map p.waveByte
  b ++ leBytes 4 (crc32 b)

/-- 0x70A0. -/
def State.viewPanel (s : State) (sub : Nat) : Option View :=
  match sub with
  | 1 => some (.bytes s.panel.waveBytes)
  | 2 => some (.bytes s.panel.gamma)
  | 3 => some (.bytes s.panel.requests)
  | 4 => some (.bytes s.panel.frameMemory)
  | 5 => some (.bytes ((s.nv.stored Reg.PANEL_SHOWN).getD s.panel.shownRecord))
  | _ => none

/-- 0x7090, as the requester's snapshot (R454, R455). -/
def State.viewLog (s : State) (id sub : Nat) : Option View :=
  match sub with
  | 1 => some (.bytes (s.log.window (s.log.cursor id)))
  | 2 => some (.bytes s.log.anchorWindow)
  | _ => none

/-! ### All objects -/

/-- What reads of an object give; none for one that is only written. -/
def State.view (s : State) (id key : Nat) : Option View :=
  let i := key / 256
  let sub := key % 256
  match i with
  | 0x7010 => s.viewPipe sub
  | 0x7020 => s.viewCal sub
  | 0x7030 => s.viewBerths sub
  | 0x7040 => if sub = 1 then some (salvageView 262144 s.hm.salvage Salvage.byte)
      else if sub = 2 then some (salvageView 32768 s.hm.summary Salvage.summaryByte) else none
  | 0x7050 => if sub = 1 then some (.bytes (s.loop.tablesNext.getD s.loop.tables)) else none
  | 0x7060 => if within 1 8 sub then
        let r := (s.slot sub).record
        some (.bytes (if r.isEmpty then zeros 256 else r))
      else none
  | 0x7070 => s.viewExchange sub
  | 0x7080 => s.viewNv sub
  | 0x7090 => s.viewLog id sub
  | 0x70A0 => s.viewPanel sub
  | 0x70B0 => if sub = 2 then some (.bytes (slotHeader s.slip.imageA)) else if sub = 3 then some (.bytes (slotHeader s.slip.imageB))
      else none
  | _ => if within 0x5000 0x6FFF i ∧ sub = 0x2E then some (.bytes (s.statRecord (i - 0x5000))) else none

/-- Objects whose reads are those of the moment SEG_READ_START took (R400, R454, R455). -/
def snapshotRead (key : Nat) : Bool := key == Reg.BERTH_STATS || key == Reg.LOG_WINDOW || key == Reg.ANCHOR_WINDOW

/-- The level a read of an object needs: PUBLIC but for the two of R435. -/
def readLevel (key : Nat) : Nat := if key = Reg.NV_WINDOW then 1 else if key = Reg.QUICK_SAVE then 2 else 0

/-- The least and the greatest length of a write (R399); none for an object that is only read. -/
def writeLimits (key : Nat) : Option (Nat × Nat) :=
  let one (n : Nat) : Option (Nat × Nat) := some (n, n)
  match key with
  | 0x701001 => one (6 * nPixels)
  | 0x701003 => one (6 * nPixels)
  | 0x701004 => one maskBytes
  | 0x701005 => one (2 * 4097)
  | 0x701008 => one (6 * nBlind)
  | 0x702001 => one 82648
  | 0x702002 => one (8 + 1310720)
  | 0x702004 => one 7808
  | 0x702005 => one 640
  | 0x703001 => one (48 * 8192)
  | 0x703003 => one maskBytes
  | 0x705001 => one 196
  | 0x707001 => one 1024
  | 0x709003 => some (1, 241)
  | 0x70A001 => one 5380
  | 0x70A002 => one 384
  | 0x70A003 => one 288
  | 0x70B001 => some (512, 4194304)
  | _ => none

/-- The bytes of an object that a read of `n` from `off` covers lie in an uncorrectable code word (R435). -/
def State.readBad (s : State) (key off n : Nat) : Bool :=
  if key = Reg.NV_WINDOW then s.nv.winBad.any fun w => Nat.blt off (8 * w + 8) && Nat.blt (8 * w) (off + n)
  else if key = Reg.QUICK_SAVE then
    let base := 4096 * (s.nv.loaded - 1)
    s.nv.badWords.any fun a => Nat.blt (base + off) (a + 8) && Nat.blt a (base + off + n)
  else false

end Sys2Proof.Machine
end

