-- ==== Sys2Proof/Machine/DomainWrite.lean ====
section
/-!
DEFINITION. What a write transfer of a DOMAIN object does as its segments arrive and when its last one has come: each object's own
checks and effects (R97, R98, R125, R126, R154 to R158, R175, R198, R293, R371, R458, R486, R493, R500, R530).
-/
namespace Sys2Proof.Machine

/-- Words of `k` bytes each, little-endian. -/
def wordsOf (k n : Nat) (b : List Nat) : List Nat := (List.range n).map fun i => leValue ((b.drop (k * i)).take k)

/-! ### The pipeline's planes (R97, R98, R125, R126) -/

/-- A row of `COEF_PLANE` lands: bits 15:0 of every word stay as they are. -/
def PipePart.landRow (q : PipePart) (y : Nat) (b : List Nat) : PipePart :=
  (List.range nCols).foldl (fun r x => r.setHead (nCols * y + x) (leValue ((b.drop (6 * x + 2)).take 4))) q

/-- `FACTORY_COEF` written at FACTORY: the words of the next decompression, read back at once. -/
def State.writeFactory (s : State) (b : List Nat) : State :=
  s.withPipe { s.pipe with
    factory := (List.range nPixels).foldl (fun m p => smapSet (Config.factoryCoef p) p (leValue ((b.drop (6 * p)).take 6)) m)
      s.pipe.factory }

/-- `BLIND_COEF`: whole words, offsets included. -/
def State.writeBlind (s : State) (b : List Nat) : State :=
  let w := wordsOf 6 nBlind b
  let q := s.pipe
  s.withPipe { q with
    blind := (List.range nBlind).foldl (fun m i => smapSet (q.blindWord i / 65536) i (w.getD i 0 / 65536) m) q.blind
    blindOff := (List.range nBlind).foldl (fun o i => q.blindPut o i (w.getD i 0)) q.blindOff }

/-- `TEMP_TABLE`: entries that fall are refused; the table serves from the next block constants. -/
def State.writeTempTable (s : State) (b : List Nat) : Status × State :=
  let w := wordsOf 2 4097 b
  if (List.range 4096).any fun i => Nat.blt (w.getD (i + 1) 0) (w.getD i 0) then (.range, s)
  else (.ok, s.withPipe { s.pipe with
    tableNext := (List.range 4097).foldl (fun m i => smapSet (Config.tempTable i) i (w.getD i 0) m) s.pipe.tableNext })

/-- A list as a map: what is not 0 at its position. -/
def planeMap (b : List Nat) : SMap := ((List.range b.length).zip b).filter fun p => p.2 != 0

/-- One plane ORed into another. -/
def planeOr (m : SMap) (b : List Nat) : SMap :=
  (planeMap b).foldl (fun r p => smapSet 0 p.1 (smapGet 0 p.1 r ||| p.2) r) m

/-- `SCREEN_MASK` (R125, R126): ORed in at OPERATOR, replaced above; refused with STATE where it sets a bit while RAW is in
force. -/
def State.writeScreenMask (s : State) (id : Nat) (b : List Nat) : Status × State :=
  let old := s.pipe.maskNext.getD s.pipe.mask
  if s.reg Reg.OUTPUT_FORM = 2 ∧ (planeMap b).isEmpty = false then (.state, s)
  else (.ok, s.withPipe { s.pipe with maskNext := some (if s.levelOf id < 2 then planeOr old b else planeMap b) })

/-! ### Calibration (R154 to R158) -/

/-- Reference choices by column, as a map over the factory's. -/
def choiceMap (b : List Nat) : SMap :=
  (List.range nCols).foldl (fun m x => smapSet (Config.factoryChoice x % 4) x (field (b.getD (x / 4) 0) (2 * (x % 4)) 2) m) []

/-- The offset set that `CAL_SET` spells, and its blind offsets. -/
def setOfBytes (b : List Nat) : OffsetSet :=
  { flagRef := leValue ((b.drop 4).take 4), bandRef := wordsOf 4 16 (b.drop 8), choices := choiceMap ((b.drop 82004).take 640)
    source := 2, rate := b.getD 3 0 }
def blindOfBytes (b : List Nat) : SMap :=
  planeMap (wordsOf 2 nBlind (b.drop 84))

/-- `CAL_SET` (R157): STATE comes before RANGE (R390); a set that passes opens a restore, in place of one that is open. -/
def State.writeCalSet (s : State) (b : List Nat) : Status × State :=
  if b.getD 2 0 ≠ s.reg Reg.GAIN_ACTIVE then (.state, s)
  else if u16At b 0 ≠ 1 ∨ leValue ((b.drop 82644).take 4) ≠ crc32 (b.take 82644) then (.range, s)
  else (.ok, s.withCal { s.cal with restore := some { set := b, bands := [], last := s.now } })

/-- `SPARE_TRIMS` (R158): from the next frame boundary. -/
def State.writeTrims (s : State) (b : List Nat) : State :=
  let codes := wordsOf 2 2624 (b.drop nCols)
  let trims := (List.range nCols).foldl (fun m x => smapSet 0 x (b.getD x 0) m) []
  let test := (List.range 2624).foldl (fun m x => smapSet 0x2AAA x (codes.getD x 0) m) []
  s.withFocal { s.focal with trimsNext := some (trims, test) }

/-- `REF_CHOICE` (R160). -/
def State.writeChoices (s : State) (b : List Nat) : State :=
  s.withCal { s.cal with inForce := { s.cal.inForce with choices := choiceMap b } }

/-- The header of a band load has arrived (R154): refused, or the band is open, and the first load that opens primes the
chamber. -/
def State.bandHeader (s : State) (b : List Nat) : Option Status × State :=
  let band := b.getD 0 0
  if s.cal.openBands.contains band then (some .bandBusy, s)
  else if b.getD 1 0 ≠ s.reg Reg.GAIN_ACTIVE then (some .state, s)
  else if 7 < band then (some .range, s)
  else
    let c := { s.cal with openBands := band :: s.cal.openBands }
    if s.cal.chamber = .empty then
      (none, { s with pipe := s.pipe.setChamber s.pipe.active, cal := { c with chamber := .filling false } })
    else (none, s.withCal c)

/-- A band's offsets put into the chamber. -/
def State.fillBand (s : State) (band : Nat) (b : List Nat) : State :=
  let n := 256 * nCols
  let w := wordsOf 2 n b
  let o := (List.range n).foldl (fun o i => s.pipe.setOff o (n * band + i) (w.getD i 0)) s.pipe.chamber
  s.withPipe (s.pipe.setChamber o)

/-- A completed band load (R154, R157): it waits for the gate, or for the restore's eighth band. -/
def State.bandDone (s : State) (b : List Nat) : State :=
  let band := b.getD 0 0
  let t := s.fillBand band (b.drop 8)
  let open1 := t.cal.openBands.filter (· != band)
  match t.cal.restore with
  | some r =>
    let bands := if r.bands.contains band then r.bands else band :: r.bands
    let all := bands.length == 8
    t.withCal { t.cal with
      openBands := open1
      restore := some { r with bands := bands, last := t.now }
      chamber := if all then .restored else t.cal.chamber
      newSet := if all then some (setOfBytes r.set) else t.cal.newSet
      newBlind := if all then some (blindOfBytes r.set) else t.cal.newBlind }
  | none =>
    t.withCal { t.cal with
      openBands := open1, bandsDone := band :: t.cal.bandsDone
      chamber := if t.cal.chamber = .primed then .loaded else t.cal.chamber }

/-! ### Berths (R175, R198) -/

/-- `EXCLUSION_MASK` (R175): from the next frame boundary. -/
def State.writeExclusion (s : State) (b : List Nat) : State := s.withBerth { s.berth with maskNext := some (planeMap b) }

/-- Entry `sub` of a `BERTH_TABLE` record. -/
def fieldOfRecord (b : List Nat) (sub : Nat) : Nat :=
  let pos := tableFields.foldl (fun (a : Nat × Option Nat) f =>
    (a.1 + f.2, if f.1 = sub ∧ sub ≠ 0 then some (leValue ((b.drop a.1).take f.2)) else a.2)) (0, none)
  pos.2.getD 0

/-- `BERTH_TABLE` (R198): every record is checked under R172, the first that fails refuses the whole write. -/
def State.writeBerths (s : State) (id : Nat) (b : List Nat) : Status × State :=
  let get (n sub : Nat) : Nat := fieldOfRecord ((b.drop (48 * n)).take 48) sub
  let load := Nat.ble (rowLoadMax (fun n => get n 1) (fun n => get n 2)) 256
  match (List.range 8192).findSome? fun n => s.berthCheck (s.levelOf id) false load n (s.berthWritten n) (get n) with
  | some st => (st, s)
  | none =>
    let t := (List.range 8192).foldl (fun u n => berthSubs.foldl (fun v sub => v.setReg (berthKey n sub) (get n sub)) u) s
    (.ok, t.withBerth { t.berth with pendAll := true })

/-! ### Fan tables (R293) -/

/-- The used bands of a channel record. -/
def recordBands (r : List Nat) : List (Nat × Nat) :=
  ((List.range 4).map fun k => (u16At r (80 + 4 * k), u16At r (82 + 4 * k))).filter fun p => p != (0, 0)

/-- What R293 asks of one channel record beyond its berth. -/
def tableRecordOk (r : List Nat) : Bool :=
  let p := tablePoints r 0
  let b := recordBands r
  let pairs {α : Type} (l : List α) : List (α × α) := l.zip (l.drop 1)
  Nat.ble 2 p.length && (pairs p).all (fun q => Nat.blt q.1.1 q.2.1 && Nat.ble q.1.2 q.2.2) &&
    p.all (fun q => q.2 == 0 || within 500 59000 q.2) && b.all (fun q => Nat.blt q.1 q.2) &&
    (List.range b.length).all (fun i => (List.range i).all fun j =>
      let x := b.getD i (0, 0)
      let y := b.getD j (0, 0)
      Nat.blt x.2 y.1 || Nat.blt y.2 x.1) && within 1 60000 (u16At r 6)

/-- `FAN_TABLES` (R293): in use from the next evaluation. -/
def State.writeFanTables (s : State) (b : List Nat) : Status × State :=
  let rec2 := [b.take 96, (b.drop 96).take 96]
  let named := rec2.any fun r => let n := u16At r 0; n != 0xFFFF && (Nat.ble 8192 n || s.berthWritten n 1 != 2)
  if named then (.state, s)
  else if rec2.all tableRecordOk = false ∨ leValue (b.drop 192) ≠ crc32 (b.take 192) then (.range, s)
  else
    let p := s.storeParam Reg.FAN_TABLES b
    if p.1 then (.ok, { p.2 with loop := { p.2.loop with tablesNext := some b } }) else (.media, p.2)

/-! ### Exchange, logbook, panel (R371, R458, R486, R500) -/

/-- `PV_RX_MAP` (R371): from the next control tick. -/
def State.writeRxMap (s : State) (b : List Nat) : Status × State :=
  let bad := (List.range 256).any fun n =>
    Nat.blt 127 (b.getD (4 * n) 0) || (b.getD (4 * n) 0 != 0 && field (b.getD (4 * n + 2) 0) 0 2 == 0)
  if bad then (.range, s)
  else (.ok, { s with bus := { s.bus with rxMapNext := some (planeMap (wordsOf 4 256 b)) } })

/-- `LOG_USER` (R458). -/
def State.writeLogUser (s : State) (b : List Nat) : Status × State :=
  if within 0xF0 0xFF (b.getD 0 0) = false then (.range, s)
  else if 256 ≤ s.log.queue.length then (.dropped, s)
  else (.ok, s.pushLog (b.getD 0 0) (b.drop 1))

/-- Parts of an object stored as several records. -/
def State.storeParts (s : State) (key size : Nat) : Nat → List Nat → Bool × State
  | 0, _ => (true, s)
  | n + 1, b =>
    let r := State.storeParts s key size n b
    if r.1 then r.2.storeParam (partKey key n) ((b.drop (size * n)).take size) else r

/-- `WAVEFORMS` (R486): from the next waveform start. -/
def State.writeWaves (s : State) (b : List Nat) : Status × State :=
  if wavesOk b = false then (.range, s)
  else
    let r := s.storeParts Reg.WAVEFORMS 224 24 b
    if r.1 then (.ok, r.2.withPanel { r.2.panel with waves := some (b.take 5376) }) else (.media, r.2)

/-- `GAMMA` (R500). -/
def State.writeGamma (s : State) (b : List Nat) : Status × State :=
  if gammaOk b = false then (.range, s)
  else
    let r := s.storeParts Reg.GAMMA 128 3 b
    if r.1 then (.ok, r.2.withPanel { r.2.panel with gamma := b }) else (.media, r.2)

/-- `PANEL_IMAGE` (R493, R500): the requests, and FRAME_FAULT cleared. -/
def State.writeImage (s : State) (b : List Nat) : State := s.withPanel { s.panel with requests := b, frameFault := false }

/-! ### The last segment -/

/-- The object's own checks and effects, once all `b` of a write from requester `id` has come (R399). -/
def State.completeWrite (s : State) (id key : Nat) (b : List Nat) : Status × State :=
  match key with
  | 0x701003 => (.ok, s.writeFactory b)
  | 0x701004 => s.writeScreenMask id b
  | 0x701005 => s.writeTempTable b
  | 0x701008 => (.ok, s.writeBlind b)
  | 0x702001 => s.writeCalSet b
  | 0x702002 => (.ok, s.bandDone b)
  | 0x702004 => (.ok, s.writeTrims b)
  | 0x702005 => (.ok, s.writeChoices b)
  | 0x703001 => s.writeBerths id b
  | 0x703003 => (.ok, s.writeExclusion b)
  | 0x705001 => s.writeFanTables b
  | 0x707001 => s.writeRxMap b
  | 0x709003 => s.writeLogUser b
  | 0x70A001 => s.writeWaves b
  | 0x70A002 => s.writeGamma b
  | 0x70A003 => (.ok, s.writeImage b)
  | 0x70B001 => s.slipStaged
  | _ => (.ok, s)

end Sys2Proof.Machine
end

