-- ==== Sys2Proof/Machine/Ledger.lean ====
section
/-!
DEFINITION. The commands of the ledger: plain reads and writes, segmented transfers and streams, sessions, the manifest, and the
transactions and timeouts of both ports (R386 to R411).
-/
namespace Sys2Proof.Machine

/-- The request an `Ask` stands for. -/
def askRequest (a : Ask) (op : Nat) : Request := { req := a.req, op := op, index := a.index, sub := a.sub, data := a.data }

/-- The ledger key of a request. -/
def Request.key (q : Request) : Nat := q.index * 256 + q.sub

/-! ### READ and WRITE (R386, R388 to R390) -/

/-- Checks 1 to 3 of R390 for a READ. -/
def checkRead (q : Request) : Option Status :=
  match findEntry q.key with
  | none => some .noObject
  | some e => if readForbidden q.key then some .access else if e.ty = .domain ∨ q.data ≠ [] then some .type else none

/-- A READ executed: a frozen tally is uncorrectable (R425). -/
def State.readRun (s : State) (q : Request) : Status × List Nat × State :=
  if (s.nv.tally q.key).any Tally.frozen then (.uncorrectable, [], s)
  else (.ok, s.entryBytes q.req.id q.key, s.afterRead q.key)

/-- KLP_READ (R388): the whole value as it stands at one instant. -/
def execKlpRead (a : Ask) (s : State) : Out :=
  let q := askRequest a opRead
  .next (s.request q (fun _ => checkRead q) fun t => t.readRun q)

/-- KLP_WRITE (R388): a write of an entry. -/
def execKlpWrite (key : Nat) (w : Wr) (s : State) : Out := .next (s.ledgerWrite w key (entryRule w.req key))

/-- REGISTER_WRITE (R386): writes are executed in the order of their arrival; the later of two wins. -/
def execRegisterWrite (key : Nat) (w : Wr) (s : State) : Out := .next (s.ledgerWrite w key (entryRule w.req key))

/-- IRQ_CLEAR_WRITE (R408). -/
def execIrqClearWrite (w : Wr) (s : State) : Out := .next (s.ledgerWrite w Reg.IRQ_CLEAR irqClearRule)

/-! ### Transfers (R399, R400) -/

/-- A requester's open transfer of an object. -/
def State.transferOf (s : State) (id key : Nat) (write : Bool) : Option Transfer :=
  s.klp.transfers.find? fun t => t.id == id && t.key == key && t.write == write

/-- The transfer taken out of the list, without what an abort does. -/
def State.dropTransfer (s : State) (t : Transfer) : State :=
  s.withKlp { s.klp with transfers := s.klp.transfers.filter fun x => !(x.id == t.id && x.key == t.key && x.write == t.write) }

/-- The transfer as it now stands. -/
def State.putTransfer (s : State) (t : Transfer) : State :=
  let u := s.dropTransfer t
  u.withKlp { u.klp with transfers := u.klp.transfers ++ [t] }

/-- Transfers with no segment for 10 s are abandoned (R399). -/
def State.expireTransfers (s : State) : State := s.endTransfers fun t => decide (t.last + 10 * clkSec < s.now)

/-- A requester holds 4 open transfers (R399). -/
def State.transfersFull (s : State) (id : Nat) : Bool := Nat.ble 4 (s.klp.transfers.filter fun t => t.id == id).length

/-- Largest segment of a write and of a read on a port (R399). -/
def maxWrite : Port → Nat
  | .spi => 4092
  | .can _ => 508
def maxRead : Port → Nat
  | .spi => 4096
  | .can _ => 512

/-- Checks 1 to 3 of R390 for an operation that reads an object; `n` says which data lengths suit. -/
def State.checkSegRead (s : State) (q : Request) (n : Nat → Bool) : Option Status :=
  match findEntry q.key with
  | none => some .noObject
  | some e =>
    if e.ty = .domain ∧ ((s.view q.req.id q.key).isNone = true ∨ s.levelOf q.req.id < readLevel q.key) then some .access
    else if readForbidden q.key then some .access
    else if e.ty ≠ .domain ∨ n q.data.length = false then some .type
    else none

/-- The same for one that writes. -/
def State.checkSegWrite (s : State) (q : Request) (n : Nat → Bool) : Option Status :=
  match findEntry q.key with
  | none => some .noObject
  | some e =>
    if e.acc = 0 ∨ (s.levelOf q.req.id < e.acc ∧ s.recovering = false) then some .access
    else if e.ty = .domain ∧ (writeLimits q.key).isNone = true then some .access
    else if e.ty ≠ .domain ∨ n q.data.length = false then some .type
    else none

/-- The same for SEG_ABORT. -/
def checkSegAbort (q : Request) : Option Status :=
  match findEntry q.key with
  | none => some .noObject
  | some e => if e.ty ≠ .domain ∨ q.data ≠ [] then some .type else none

/-- SEG_READ_START executed. -/
def State.segReadStartRun (s0 : State) (q : Request) : Status × List Nat × State :=
  let s := s0.expireTransfers
  let id := q.req.id
  match s.view id q.key with
  | none => (.access, [], s)
  | some v =>
    if (s.transferOf id q.key false).isNone && s.transfersFull id then (.busy, [], s)
    else
      let snap := snapshotRead q.key
      let t : Transfer :=
        { id := id, port := q.req.port, key := q.key, write := false, length := v.length, pos := 0, lastOff := none, last := s.now
          data := if snap then v.slice 0 v.length else [], snap := snap }
      (.ok, leBytes 4 v.length, s.putTransfer t)

/-- SEG_READ_START (R399, R400, R454): a read transfer opens; objects that read as a snapshot are copied now. -/
def execSegReadStart (a : Ask) (s : State) : Out :=
  let q := askRequest a opSegReadStart
  .next (s.request q (fun t => t.checkSegRead q fun n => n == 0) fun t => t.segReadStartRun q)

/-- Bytes of an object for a requester: those of the snapshot where one is open. -/
def State.objectSlice (s : State) (id key off n : Nat) : List Nat :=
  match s.transferOf id key false with
  | some t => if t.snap then (t.data.drop off).take n else ((s.view id key).map fun v => v.slice off n).getD []
  | none => ((s.view id key).map fun v => v.slice off n).getD []

/-- Free values read as bytes are used up: a later read may give others. -/
def State.afterSlice (s : State) (key n : Nat) : State :=
  if key = Reg.QUICK_SAVE ∧ (s.nv.slot s.nv.loaded).isNone = true then { s with freeCtr := s.freeCtr + n } else s

/-- SEG_READ executed. -/
def State.segReadRun (s0 : State) (q : Request) : Status × List Nat × State :=
  let s := s0.expireTransfers
  let id := q.req.id
  match s.transferOf id q.key false with
  | none => (.state, [], s)
  | some t =>
    let off := leValue (q.data.take 4)
    let n := min (leValue (q.data.drop 4)) (maxRead q.req.port)
    let u := s.putTransfer { t with last := s.now }
    if t.length ≤ off then (.range, [], u)
    else if s.readBad q.key off (min n (t.length - off)) then (.uncorrectable, [], u)
    else (.ok, s.objectSlice id q.key off n, u.afterSlice q.key 4096)

/-- SEG_READ (R399): any offset; a count past the end or the port's limit is cut. -/
def execSegRead (a : Ask) (s : State) : Out :=
  let q := askRequest a opSegRead
  .next (s.request q (fun t => t.checkSegRead q fun n => n == 6) fun t => t.segReadRun q)

/-- What keeps an object from being opened for writing (R138, R151, R152, R154, R399, R530). -/
def State.openBusy (s : State) (id key : Nat) : Bool :=
  let cal := key == Reg.OFFSET_LOAD || key == Reg.CAL_SET
  let cycle := s.cal.cycle.any fun c => !c.test
  let held := s.cal.chamber == .filling true || s.cal.chamber == .accepted || s.cal.chamber == .factory || s.cal.chamber == .restored
  (if key = Reg.OFFSET_LOAD then (s.transferOf id key true).isSome else s.transferOpen key true) || s.transfersFull id ||
    (key == Reg.SLIP_IMAGE && decide (s.slip.state ≠ 0)) || (cal && (cycle || held))

/-- SEG_WRITE_START executed. -/
def State.segWriteStartRun (s0 : State) (q : Request) : Status × List Nat × State :=
  let s := s0.expireTransfers
  let id := q.req.id
  let len := leValue q.data
  let fits : Bool := match writeLimits q.key with
    | some (a, b) => within a b len
    | none => false
  if s.openBusy id q.key then (.busy, [], s)
  else if fits = false then (.range, [], s)
  else
    let t : Transfer :=
      { id := id, port := q.req.port, key := q.key, write := true, length := len, pos := 0, lastOff := none, last := s.now
        data := [], snap := false }
    let u := s.putTransfer t
    (.ok, leBytes 2 (maxWrite q.req.port), if q.key = Reg.SLIP_IMAGE then u.slipOpen else u)

/-- SEG_WRITE_START (R399): the length fits the object, which no other write holds. -/
def execSegWriteStart (a : Ask) (s : State) : Out :=
  let q := askRequest a opSegWriteStart
  .next (s.request q (fun t => t.checkSegWrite q fun n => n == 4) fun t => t.segWriteStartRun q)

/-- The restore's last transfer activity (R157). -/
def State.restoreActive (s : State) (key : Nat) : State :=
  match s.cal.restore with
  | some r => if key = Reg.OFFSET_LOAD then s.withCal { s.cal with restore := some { r with last := s.now } } else s
  | none => s

/-- The bytes of a segment go where the object keeps them while its transfer is open: rows of `COEF_PLANE` land, an image is staged,
a band load's header is judged; a status refuses the transfer. -/
def State.stageSegment (s : State) (t : Transfer) (bytes : List Nat) : Option Status × Transfer × State :=
  let d := t.data ++ bytes
  if t.key = Reg.COEF_PLANE then
    let y := (t.pos - t.data.length) / (6 * nCols)
    if 6 * nCols ≤ d.length then (none, { t with data := d.drop (6 * nCols) }, s.withPipe (s.pipe.landRow y d))
    else (none, { t with data := d }, s)
  else if t.key = Reg.SLIP_IMAGE then (none, t, s.slipStage bytes)
  else if t.key = Reg.OFFSET_LOAD ∧ t.data.length < 8 ∧ 8 ≤ d.length then
    let r := s.bandHeader d
    (r.1, { t with data := d }, r.2)
  else (none, { t with data := d }, s)

/-- A segment at its place: staged, and where it is the last, the transfer closes and the object's checks answer. -/
def State.landSegment (s : State) (t : Transfer) (off : Nat) (bytes : List Nat) : Status × State :=
  let r := s.stageSegment t bytes
  match r.1 with
  | some st => (st, r.2.2.dropTransfer t)
  | none =>
    let u := r.2.1
    if u.pos + bytes.length = u.length then
      (r.2.2.dropTransfer u).completeWrite u.id u.key u.data
    else (.ok, (r.2.2.putTransfer { u with pos := u.pos + bytes.length, lastOff := some off, last := s.now }).restoreActive u.key)

/-- SEG_WRITE executed. -/
def State.segWriteRun (s0 : State) (q : Request) : Status × List Nat × State :=
  let s := s0.expireTransfers
  match s.transferOf q.req.id q.key true with
  | none => (.state, [], s)
  | some t =>
    let off := leValue (q.data.take 4)
    let bytes := q.data.drop 4
    let kept := s.putTransfer { t with last := s.now }
    if off = t.pos then
      if t.length < t.pos + bytes.length then (.range, [], kept)
      else let r := s.landSegment t off bytes; (r.1, [], r.2)
    else if t.lastOff = some off then (.ok, [], kept)
    else (.range, [], kept)

/-- SEG_WRITE (R399): the next segment, or a repeat of the previous one, which writes nothing new. -/
def execSegWrite (a : Ask) (s : State) : Out :=
  let q := askRequest a opSegWrite
  .next (s.request q (fun t => t.checkSegWrite q fun n => within 4 (4 + maxWrite q.req.port) n) fun t => t.segWriteRun q)

/-- SEG_ABORT executed. -/
def State.segAbortRun (s0 : State) (q : Request) : Status × List Nat × State :=
  let s := s0.expireTransfers
  let p (t : Transfer) : Bool := t.id == q.req.id && t.key == q.key
  if s.klp.transfers.any p then (.ok, [], s.endTransfers p) else (.state, [], s)

/-- SEG_ABORT (R399): the requester's transfer of the object closes; a write changes nothing. -/
def execSegAbort (a : Ask) (s : State) : Out :=
  let q := askRequest a opSegAbort
  .next (s.request q (fun _ => checkSegAbort q) fun t => t.segAbortRun q)

/-- TRANSFER_IDLE_TIMEOUT (R399). -/
def execTransferIdleTimeout (id key : Nat) (s : State) : Out :=
  .next (s.endTransfers fun t => t.id == id && t.key == key && s.waited t.last (10 * clkSec))

/-! ### Streams (R401) -/

/-- What refuses a SEG_STREAM after the checks that come first. -/
def State.streamRefusal (s : State) (q : Request) : Option Status :=
  let fd : Bool := match q.req.port with
    | .spi => false
    | .can c => s.fdOn c
  let off := leValue (q.data.take 4)
  let len := ((s.view q.req.id q.key).map View.length).getD 0
  if fd = false then some .state
  else if len ≤ off then some .range
  else if s.readBad q.key off (min (leValue (q.data.drop 4)) (len - off)) then some .uncorrectable
  else none

/-- The stream a SEG_STREAM starts, its range cut at the object's end. -/
def State.streamJob (s : State) (q : Request) : Option StreamJob :=
  let off := leValue (q.data.take 4)
  let len := ((s.view q.req.id q.key).map View.length).getD 0
  match q.req.port with
  | .spi => none
  | .can c =>
    if s.serving q.req.port = .full ∧ s.checkSegRead q (fun n => n == 8) = none ∧ s.streamRefusal q = none then
      some { bus := c, rq := q, key := q.key, offset := off, left := min (leValue (q.data.drop 4)) (len - off), sent := 0
             lastEnd := none, waiting := false }
    else none

/-- SEG_STREAM (R401): the stream begins; its response follows the last frame. -/
def execSegStream (a : Ask) (s : State) : Out :=
  let q := askRequest a opSegStream
  .next (match s.streamJob q with
    | some j => let t := (s.dequeue q).touch q.req.id
      t.withKlp { t.klp with streams := t.klp.streams ++ [j] }
    | none => s.request q (fun t => t.checkSegRead q fun n => n == 8) fun t => ((t.streamRefusal q).getD .state, [], t))

/-- The bulk frame that a stream sends next. -/
def State.bulkFrame (s : State) (j : StreamJob) (n : Nat) : List Nat :=
  let d := s.objectSlice j.rq.req.id j.key j.offset n
  [j.rq.req.node % 256, j.rq.req.tag % 256] ++ leBytes 4 j.offset ++ d ++ zeros (58 - n)

/-- One stream over one row: the next frame when the gap has passed and queue 6 has room, or the response at the end, which a
channel that takes no frames of it brings early. -/
def State.pumpStream (s : State) (j : StreamJob) : State :=
  let put (t : State) (l : List StreamJob) : State := t.withKlp { t.klp with streams := t.klp.streams.filter (· != j) ++ l }
  let gap := match j.lastEnd with
    | some t => decide (t + s.reg Reg.BULK_GAP * (clkMs / 1000) ≤ s.now)
    | none => true
  if (s.chan j.bus).active ≠ .normal ∨ s.stormStops j.bus 6 = true then (put s []).answer j.rq .ok (leBytes 4 j.sent)
  else if j.waiting then s
  else if j.left = 0 then (put s []).answer j.rq .ok (leBytes 4 j.sent)
  else if gap = false ∨ queueDepth 6 ≤ ((s.chan j.bus).queues.getD 6 []).length then s
  else
    let n := min 58 j.left
    let r := s.enqueue j.bus 6 (plainFrame (s.ownId 8) true (s.bulkFrame j n))
    if r.1 then put r.2 [{ j with offset := j.offset + n, left := j.left - n, sent := j.sent + n, waiting := true }] else r.2

/-- Every stream over one row. -/
def State.pumpStreams (s : State) : State := s.klp.streams.foldl State.pumpStream s

/-! ### Sessions (R402 to R404) -/

/-- The stored key of a level. -/
def State.keyOf (s : State) (level : Nat) : List Nat :=
  if level = 1 then leBytes 8 (s.reg Reg.KEY_OPERATOR) else if level = 2 then leBytes 8 (s.reg Reg.KEY_SERVICE) else Config.factoryKey

/-- A requester's wrong keys. -/
def State.failsOf (s : State) (id : Nat) : KeyFails :=
  (s.klp.fails.find? fun f => f.id == id).getD { id := id, times := [], locked := false }

/-- The requester is locked out: its last wrong key is less than 60 s ago. -/
def State.lockedOut (s : State) (id : Nat) : Bool :=
  let f := s.failsOf id
  f.locked && decide (s.now < f.times.headD 0 + 60 * clkSec)

/-- A wrong key: counted, and the fifth within 60 s locks the requester out. -/
def State.wrongKey (s : State) (id : Nat) : State :=
  let recent := (s.failsOf id).times.filter fun t => decide (s.now ≤ t + 60 * clkSec)
  let times := if (s.failsOf id).locked then [s.now] else s.now :: recent
  s.withKlp { s.klp with
    unlockFails := satInc 32 s.klp.unlockFails
    fails := { id := id, times := times, locked := Nat.ble 5 times.length } :: s.klp.fails.filter fun f => !(f.id == id) }

/-- UNLOCK executed. -/
def State.unlockRun (s : State) (q : Request) : Status × List Nat × State :=
  let id := q.req.id
  let level := q.data.getD 0 0
  if s.lockedOut id then (.access, [], s)
  else if within 1 3 level = false then (.range, [], s)
  else if q.data.drop 1 ≠ s.keyOf level then (.access, [], s.wrongKey id)
  else if s.levelOf id = 0 ∧ 16 ≤ s.klp.sessions.length then (.busy, [], s)
  else (.ok, [level], s.setLevel id level)

/-- UNLOCK (R402). -/
def execUnlock (a : Ask) (s : State) : Out :=
  let q := askRequest a opUnlock
  .next (s.request q (fun t => if t.lockedOut q.req.id then some .access else if q.data.length = 9 then none else some .type)
    fun t => t.unlockRun q)

/-- UNLOCK_LOCKOUT_END (R402), 60 s after the last wrong key. -/
def execUnlockLockoutEnd (n : Nat) (s : State) : Out :=
  .next (if (s.failsOf n).locked && s.lockedOut n == false then
    s.withKlp { s.klp with fails := s.klp.fails.filter fun f => !(f.id == n) }
  else s)

/-- The check of an operation with no data. -/
def noData (q : Request) : Option Status := if q.data = [] then none else some .type

/-- LOCK (R403). -/
def execLock (a : Ask) (s : State) : Out :=
  let q := askRequest a opLock
  .next (s.request q (fun _ => noData q) fun t => (.ok, [], t.setLevel q.req.id 0))

/-- SESSION_TIMEOUT (R403). -/
def execSessionTimeout (n : Nat) (s : State) : Out :=
  .next (match s.klp.sessions.find? fun x => x.id == n with
    | some x => if s.waited x.last (s.reg Reg.UNLOCK_TIMEOUT * clkSec) then s.setLevel n 0 else s
    | none => s)

/-! ### Other operations -/

/-- KLP_HEARTBEAT (R405): the master's is a ledger heartbeat. -/
def execKlpHeartbeat (a : Ask) (s : State) : Out :=
  let q := askRequest a opHeartbeat
  .next (s.request q (fun _ => noData q) fun t =>
    (.ok, [], if t.reg Reg.MASTER_SOURCE ≠ 0 ∧ t.reg Reg.MASTER_SOURCE = q.req.id then t.masterHeard else t))

/-- Who forms a manifest: the quay that serves, or the harbourmaster (R411, R529). -/
def State.manifestWriter (s : State) : Nat :=
  if s.recovering then 0
  else if s.storm then (match s.standbyQuay with
    | some x => x.code
    | none => 0)
  else s.ownerCode

/-- MANIFEST (R411): answered by the harbourmaster where it alone serves (R410). -/
def execManifest (a : Ask) (s : State) : Out :=
  let q := askRequest a opManifest
  .next (if s.serving q.req.port = .hmOnly ∧ q.data = [] then (s.dequeue q).answer q .ok (s.manifest 0)
    else s.request q (fun _ => noData q) fun t => (.ok, t.manifest t.manifestWriter, t))

/-- ECHO (R388). -/
def execEcho (a : Ask) (s : State) : Out :=
  let q := askRequest a opEcho
  .next (s.request q (fun _ => none) fun t => (.ok, q.data, t))

/-! ### Ports (R393 to R396) -/

/-- KLP_RESPONSE_ABANDON (R393): a response not fully queued within 100 ms. -/
def execKlpResponseAbandon (c : Bus) (s : State) : Out :=
  .next (match s.klp.sending with
    | some x => if x.bus = c ∧ s.waited x.since (100 * clkMs) = true then s.withKlp { s.klp with sending := none } else s
    | none => s)

/-- KLP_FRAME_GAP_TIMEOUT (R393). -/
def execKlpFrameGapTimeout (c : Bus) (peer : Nat) (s : State) : Out :=
  .next (match s.openMessage c peer with
    | some x => if x.last + 100 * clkMs < s.now then (s.closeMessage c peer).discardKlp else s
    | none => s)

/-- SPI_REQUEST_TRANSACTION (R394, R395): from the first byte on, CS_NV_L high. -/
def execSpiRequestTransaction (bytes : List Nat) (s : State) : Out :=
  .next (if !s.windowAnswers || s.nv.openWord.isSome then s
    else match bytes.head? with
      | some b => if b = 0xA5 then (s.spiOutput (zeros (bytes.length - 1))).spiRequest bytes else if b = 0x5A then s.spiRead bytes.length else s
      | none => s)

/-- SPI_RESPONSE_READ (R394, R396): `n` bytes clocked, the first included. -/
def execSpiResponseRead (n : Nat) (s : State) : Out :=
  .next (if !s.windowAnswers || s.nv.openWord.isSome then s else s.spiRead n)

end Sys2Proof.Machine
end

