-- ==== Sys2Proof/Machine/Tick.lean ====
section
/-!
DEFINITION. The two periodic commands that carry everything the spec gives no command of its own, a row slot (R17) and a control
tick (R32), and the end of a takeover, at which the new active pilot computes the tick in progress (R239).
-/
namespace Sys2Proof.Machine

/-! ### What a row slot finds uncorrectable (R94, R121, R123, R148, R438) -/

/-- The byte address of the code word that holds byte `a`. -/
def wordAddr (a : Nat) : Nat := a / 8 * 8

/-- Detections of one requester kind in DRAM, at byte addresses. -/
def State.ueDram (s : State) (kind : Nat) (addrs : List Nat) : State :=
  addrs.foldl (fun t a => t.uncorrectable 0 (wordAddr a) kind) s

/-- The columns of active row y as byte addresses of a plane of `k` bytes to a pixel. -/
def planeAddrs (base k y : Nat) (cols : List Nat) : List Nat := cols.map fun x => base + k * (nCols * y + x)

/-- Detections of the row corrected in the slot. -/
def State.ueRow (s : State) (i : RowIn) (y : Nat) : State :=
  let a := (s.ueDram rqCoef (i.ueCoef.map (8 * ·))).ueDram rqCoef (i.ueShadow.map fun w => 0x1E00000 + 8 * w)
  (a.ueDram rqStore (planeAddrs 0x3200000 2 y i.uePrev)).ueDram rqStore (planeAddrs 0x3C00000 2 y i.ueFill)

/-- Detections of the slot: of the row corrected in it, active or blind, or of the evaluation pass of a cycle. -/
def State.ueSlot (s : State) (i : RowIn) : State :=
  match s.pipe.line with
  | none => s
  | some l =>
    if l.slot + 2 ≠ s.row then s
    else
      match activeOf l.slot with
      | some y =>
        if s.pipe.on then (if l.lost || l.settling || i.late then s else s.ueRow i y)
        else s.ueDram rqCal (planeAddrs 0x4600000 3 y i.ueSum)
      | none =>
        let b := if l.slot < 8 then l.slot else l.slot - 2048
        i.ueBlind.foldl (fun t x => t.uncorrectable 1 (Config.blindAddress (nCols * b + x) % 2 ^ 32) rqCoef) s

/-- Detections of the transmitter. -/
def State.ueVideo (s : State) (i : RowIn) : State :=
  let v := s.video
  let w := if v.imager = imBinned then 640 else 2560
  let a := match v.lineDue s.row with
    | some n => if v.frozen then s.ueDram rqVideo (i.ueOut.map fun x => 0x2800000 + 2 * (w * n + x)) else s
    | none => s
  if v.plane.isSome then a.ueDram rqPlane i.uePlane.toList else a

/-! ### ROW_SLOT -/

/-- What a row slot does before PFAIL: the transmitter sends the row of the slot before, the imaging path follows, then the
power die, the breakwater, the ledger's responses and streams. -/
def State.liveRow (s : State) (i : RowIn) : State :=
  let s1 := (s.ueVideo i).videoRow s.row i.ueOut i.uePlane.isSome
  let s2 := (s1.ueSlot i).imageRow i
  ((s2.driverRow i.edges).breakwaterRow).responseRow.pumpStreams

/-- After PFAIL the array and the pipeline have stopped (R427); the drivers have been switched off (R312). -/
def State.rowWork (s : State) (i : RowIn) : State := if s.pfail then s.driverRow i.edges else s.liveRow i

/-- T64 moved on by one row. -/
def State.advanceRow (s : State) : State := { s with tide := { s.tide with t64 := s.tide.t64 + clocksPerRow s.rate } }

/-- ROW_SLOT (R17): one row slot elapses; no other command moves T64. -/
def execRowSlot (i : RowIn) (s : State) : Out := .next (if s.tide.running then (s.rowWork i).advanceRow else s)

/-! ### TAKEOVER_COMPLETE -/

/-- TAKEOVER_COMPLETE (R237 step 4, R239, R240): the checkpoint restored, schedules evaluated, the tick in progress computed, the
receive FIFOs drained; `t` is the T64 of the first wharf write. -/
def execTakeoverComplete (t : Nat) (s : State) : Out :=
  .next (match s.hm.takeover with
    | none => s
    | some k =>
      if k.planned then s
      else
        let s1 := (s.restoreCheckpoint s.hm.mirror).withHm { s.hm with
          takeover := none
          salvageIn := if s.reg Reg.SALVAGE_ON_FAILOVER = 1 then some 10 else none }
        let s2 := (((s1.evalPrograms.resumeTick).drainFifo .one).drainFifo .two).dueHeartbeat
        let s3 := (s2.setOutage ((t - k.start) * 20)).popFault (fun f => f.level == 2 && f.outcome == 0) 2
        (s3.countAsSwap k.dest).alarmOf 0x2050 1 (rdivN (s3.reg Reg.LAST_OUTAGE) 1000) s3.hmStatus)

/-! ### CONTROL_TICK -/

/-- The instant is the first clock of a control tick (R32). -/
def State.atTick (s : State) : Bool := s.tide.running && !s.pfail && s.tickRow == 0

/-- The harbourmaster's challenge to a running pilot (R232): a value the spec leaves open. -/
def State.challenge (s : State) (q : Quay) : State :=
  if (s.quay q).running then (s.setQuay q { s.quay q with challenge := some (s.free % 2 ^ 32) }).tickFree else s

/-- A checkpoint taken up after STORM: less than 10 s old (R254). -/
def State.stormCheckpoint (s : State) : Option Checkpoint := s.hm.mirror.filter fun k => decide (s.now < k.t64 + 10 * clkSec)

/-- STORM's successor takes the token (R254): its loops go on from the checkpoint, if that is fresh enough, and initialise
bumplessly (R274); not where it has left STANDBY meanwhile, or a quay has been granted the token. -/
def State.tokenAfterStorm (s : State) : State :=
  match s.hm.stormExit with
  | none => s
  | some q =>
    let s1 := s.withHm { s.hm with stormExit := none }
    if s.hm.owner.isSome || s.qst q != .standby then s1
    else
      let g := s1.grantToken q
      let s2 := g.withHm { g.hm with standbyReady := false }
      let s3 := s2.restoreCheckpoint s.stormCheckpoint
      { s3 with loop := { s3.loop with runs := s3.loop.runs.map fun r => { r with fresh := true } } }

/-- A planned handover to a quay that cannot read the checkpoints moves the token at the tick boundary (R532). -/
def State.freshHandover (s : State) : State :=
  match s.hm.takeover with
  | some k => if k.planned && !s.canRead k.dest then s.moveToken k.dest true else s
  | none => s

/-- The receive map written since the last tick takes effect (R371). -/
def State.takeRxMap (s : State) : State :=
  match s.bus.rxMapNext with
  | some m => { s with bus := { s.bus with rxMap := m, rxMapNext := none } }
  | none => s

/-- AUTONOMOUS at a tick boundary (R288): its reason follows the conditions; with one it is entered, without any it is left. -/
def State.autonomousTick (s : State) : State :=
  let r := s.autoReasonNow
  if s.loop.autonomous && r != 0 then { s with loop := { s.loop with autoReason := r } } else s.noteAutonomous.leaveAutonomous

/-- What the power die reports of output i (R300, R309). -/
def State.sampleOut (s : State) (cur : List Nat) (lim : List Bool) (i : Nat) : State :=
  let o := s.out i
  let limitAt := if lim.getD i false then some s.now else o.limitAt
  let driven := s.live i && Nat.ble 4095 (10 * o.level)
  let drivenAt := if driven then some (o.drivenAt.getD s.now) else none
  let c := cur.getD i 0 % 65536
  s.setOut i { o with
    current := c, limitAt := limitAt, drivenAt := drivenAt
    overcurrent := limitAt.any fun t => decide (s.now < t + clkSec)
    openLoad := Nat.blt c 50 && drivenAt.any fun t => decide (t + clkSec ≤ s.now) }

/-- What it reports of fan channel c (R314, R318). -/
def State.sampleFan (s : State) (i : TickIn) (c : Nat) : State :=
  s.setFan c { s.fan c with
    vout := i.vout.getD c 0 % 65536, iout := i.iout.getD c 0 % 65536, limited := i.ilim.getD c false }

/-- What the active pilot stages for a quick-save (R426). -/
def State.stageSave (s : State) (i : TickIn) : State :=
  match i.save with
  | some p => if p.1 % 65536 = 0 then s else s.withNv { s.nv with qsFormat := p.1 % 65536, qsContent := p.2.take 4072 }
  | none => s

/-- The ticks that a failover's salvage waits for (R256). -/
def State.salvageTick (s : State) : State := s.withHm { s.hm with salvageIn := s.hm.salvageIn.map (· - 1) }

/-- A tick that the computation of the one before ran into is counted (R265). -/
def State.countLate (s : State) (i : TickIn) : State := if i.late then s.incSat Reg.TICK_OVERRUNS else s

/-- An active pilot's work of the tick: zones, loops, exchange groups, its receive FIFOs, the staging buffer. -/
def State.pilotTick (s : State) (i : TickIn) : State :=
  if s.hm.owner.isNone || s.hm.takeover.any (fun k => !k.planned) then s
  else
    let t := (((s.countLate i).updateZones).runLoops s.tick).sendGroups
    (((t.drainFifo .one).drainFifo .two).stageSave i).salvageTick

/-- The hardware's part of the tick. -/
def State.hardwareTick (s : State) (i : TickIn) : State :=
  let t := ((s.challenge .a).challenge .b).sampleInputs i.di
  let u := (List.range 16).foldl (State.sampleOut · i.cur i.lim ·) t
  (((u.sampleFan i 0).sampleFan i 1).takeRxMap).tickRound

/-- CONTROL_TICK (R32, R33, R232, R239, R261, R332, R344, R370). -/
def execControlTick (i : TickIn) (s : State) : Out :=
  .next (if s.atTick then
    let t := (s.hardwareTick i).tokenAfterStorm.freshHandover
    (t.autonomousTick.engineHolds).pilotTick i
  else s)

end Sys2Proof.Machine
end

