-- ==== Sys2Proof/Machine/Dispatch.lean ====
section
/-!
DEFINITION. What each command does: one direct call of its meaning per command.
-/
namespace Sys2Proof.Machine

def exec (i : Instr) (s : State) : Host.Outcome State Fault Refusal :=
  match i with
  | .powerDieStart testEn => Sys2Proof.Machine.execPowerDieStart testEn s
  | .tideStart => Sys2Proof.Machine.execTideStart s
  | .masterStartTimeout => Sys2Proof.Machine.execMasterStartTimeout s
  | .bootVerifyDone => Sys2Proof.Machine.execBootVerifyDone s
  | .lightsEntry => Sys2Proof.Machine.execLightsEntry s
  | .lightsOwnerTimeout => Sys2Proof.Machine.execLightsOwnerTimeout s
  | .factoryDecompressionDone bad => Sys2Proof.Machine.execFactoryDecompressionDone bad s
  | .pllLock p => Sys2Proof.Machine.execPllLock p s
  | .pllUnlock p => Sys2Proof.Machine.execPllUnlock p s
  | .rowSlot x => Sys2Proof.Machine.execRowSlot x s
  | .coefReloadDone shadow word => Sys2Proof.Machine.execCoefReloadDone shadow word s
  | .frameBoundary => Sys2Proof.Machine.execFrameBoundary s
  | .settlingEnd => Sys2Proof.Machine.execSettlingEnd s
  | .gainChange => Sys2Proof.Machine.execGainChange s
  | .newEpoch => Sys2Proof.Machine.execNewEpoch s
  | .frameClose x => Sys2Proof.Machine.execFrameClose x s
  | .gradientClear n => Sys2Proof.Machine.execGradientClear n s
  | .bandSensorExcluded n => Sys2Proof.Machine.execBandSensorExcluded n s
  | .converterSelfTest codes => Sys2Proof.Machine.execConverterSelfTest codes s
  | .berthAlarmRaise n => Sys2Proof.Machine.execBerthAlarmRaise n s
  | .berthAlarmClear n => Sys2Proof.Machine.execBerthAlarmClear n s
  | .berthOccupied n => Sys2Proof.Machine.execBerthOccupied n s
  | .berthVacant n => Sys2Proof.Machine.execBerthVacant n s
  | .tablePublication => Sys2Proof.Machine.execTablePublication s
  | .controlTick x => Sys2Proof.Machine.execControlTick x s
  | .heartbeatRequest => Sys2Proof.Machine.execHeartbeatRequest s
  | .heartbeatStrobe q t => Sys2Proof.Machine.execHeartbeatStrobe q t s
  | .heartbeatWindowEnd => Sys2Proof.Machine.execHeartbeatWindowEnd s
  | .selfCheckResponse q value => Sys2Proof.Machine.execSelfCheckResponse q value s
  | .selfCheckTimeout q => Sys2Proof.Machine.execSelfCheckTimeout q s
  | .watchdogRestart q => Sys2Proof.Machine.execWatchdogRestart q s
  | .watchdogExpiry q => Sys2Proof.Machine.execWatchdogExpiry q s
  | .quayClockFault q => Sys2Proof.Machine.execQuayClockFault q s
  | .quayRailFault q => Sys2Proof.Machine.execQuayRailFault q s
  | .pilotMemoryError q m addr => Sys2Proof.Machine.execPilotMemoryError q m addr s
  | .memoryRetryOutcome q ok => Sys2Proof.Machine.execMemoryRetryOutcome q ok s
  | .hmVoteMismatch copy agree => Sys2Proof.Machine.execHmVoteMismatch copy agree s
  | .wharfWrite q out v => Sys2Proof.Machine.execWharfWrite q out v s
  | .checkpointArrival good len => Sys2Proof.Machine.execCheckpointArrival good len s
  | .takeoverComplete t => Sys2Proof.Machine.execTakeoverComplete t s
  | .takeoverTimeout => Sys2Proof.Machine.execTakeoverTimeout s
  | .quayResetRelease q => Sys2Proof.Machine.execQuayResetRelease q s
  | .quaySelfTestDone q pass => Sys2Proof.Machine.execQuaySelfTestDone q pass s
  | .passHoldTimeout q => Sys2Proof.Machine.execPassHoldTimeout q s
  | .quaySyncDone q => Sys2Proof.Machine.execQuaySyncDone q s
  | .salvageAfterFailover => Sys2Proof.Machine.execSalvageAfterFailover s
  | .stormAutoExit => Sys2Proof.Machine.execStormAutoExit s
  | .hmSwap r => Sys2Proof.Machine.execHmSwap r s
  | .hmRejoinTest r => Sys2Proof.Machine.execHmRejoinTest r s
  | .hmStormExit r => Sys2Proof.Machine.execHmStormExit r s
  | .hmStormEnter r => Sys2Proof.Machine.execHmStormEnter r s
  | .hmRetireA r => Sys2Proof.Machine.execHmRetireA r s
  | .hmRetireB r => Sys2Proof.Machine.execHmRetireB r s
  | .hmClearCounts r => Sys2Proof.Machine.execHmClearCounts r s
  | .stormValueWrite n w => Sys2Proof.Machine.execStormValueWrite n w s
  | .salvageRelease w => Sys2Proof.Machine.execSalvageRelease w s
  | .masterClockLoss => Sys2Proof.Machine.execMasterClockLoss s
  | .pllRelock => Sys2Proof.Machine.execPllRelock s
  | .rcTrim err => Sys2Proof.Machine.execRcTrim err s
  | .clockReturn => Sys2Proof.Machine.execClockReturn s
  | .sunHoldExpiry n => Sys2Proof.Machine.execSunHoldExpiry n s
  | .intervalExpiry => Sys2Proof.Machine.execIntervalExpiry s
  | .bringUpTrigger => Sys2Proof.Machine.execBringUpTrigger s
  | .calCycle r => Sys2Proof.Machine.execCalCycle r s
  | .calCycleRef r => Sys2Proof.Machine.execCalCycleRef r s
  | .calAbort r => Sys2Proof.Machine.execCalAbort r s
  | .calQualifySpares r => Sys2Proof.Machine.execCalQualifySpares r s
  | .calShutterTest r => Sys2Proof.Machine.execCalShutterTest r s
  | .calLoadFactory r => Sys2Proof.Machine.execCalLoadFactory r s
  | .chamberFillDone => Sys2Proof.Machine.execChamberFillDone s
  | .spareQualificationDone sums codes => Sys2Proof.Machine.execSpareQualificationDone sums codes s
  | .restoreTimeout => Sys2Proof.Machine.execRestoreTimeout s
  | .outFrameReadTimeout => Sys2Proof.Machine.execOutFrameReadTimeout s
  | .gainModeWrite w => Sys2Proof.Machine.execGainModeWrite w s
  | .rateModeWrite w => Sys2Proof.Machine.execRateModeWrite w s
  | .imagerModeWrite w => Sys2Proof.Machine.execImagerModeWrite w s
  | .outputFormWrite w => Sys2Proof.Machine.execOutputFormWrite w s
  | .filterShiftWrite w => Sys2Proof.Machine.execFilterShiftWrite w s
  | .lensWrite n w => Sys2Proof.Machine.execLensWrite n w s
  | .gradientLimitWrite n w => Sys2Proof.Machine.execGradientLimitWrite n w s
  | .groupStateWrite n w => Sys2Proof.Machine.execGroupStateWrite n w s
  | .berthEntryWrite n sub w => Sys2Proof.Machine.execBerthEntryWrite n sub w s
  | .editHoldWrite w => Sys2Proof.Machine.execEditHoldWrite w s
  | .videoEnableWrite w => Sys2Proof.Machine.execVideoEnableWrite w s
  | .streamStart => Sys2Proof.Machine.execStreamStart s
  | .videoLinkWrite n w => Sys2Proof.Machine.execVideoLinkWrite n w s
  | .vc2RequestWrite w => Sys2Proof.Machine.execVc2RequestWrite w s
  | .outCommandWrite n w => Sys2Proof.Machine.execOutCommandWrite n w s
  | .outModeWrite n w => Sys2Proof.Machine.execOutModeWrite n w s
  | .loopModeWrite n w => Sys2Proof.Machine.execLoopModeWrite n w s
  | .loopTargetWrite n w => Sys2Proof.Machine.execLoopTargetWrite n w s
  | .pvSourceWrite l backup w => Sys2Proof.Machine.execPvSourceWrite l backup w s
  | .zoneOverrideWrite n w => Sys2Proof.Machine.execZoneOverrideWrite n w s
  | .overrideExpiry n => Sys2Proof.Machine.execOverrideExpiry n s
  | .presenceHoldExpiry n => Sys2Proof.Machine.execPresenceHoldExpiry n s
  | .switchPointWrite p j w => Sys2Proof.Machine.execSwitchPointWrite p j w s
  | .exceptionDateWrite n w => Sys2Proof.Machine.execExceptionDateWrite n w s
  | .programEvaluation => Sys2Proof.Machine.execProgramEvaluation s
  | .masterSilentExpiry => Sys2Proof.Machine.execMasterSilentExpiry s
  | .outputTrip n short => Sys2Proof.Machine.execOutputTrip n short s
  | .outputTripResume n => Sys2Proof.Machine.execOutputTripResume n s
  | .thermalShutdown temp => Sys2Proof.Machine.execThermalShutdown temp s
  | .thermalResume => Sys2Proof.Machine.execThermalResume s
  | .floatingOverdriveEnd n => Sys2Proof.Machine.execFloatingOverdriveEnd n s
  | .valvePeakEnd n => Sys2Proof.Machine.execValvePeakEnd n s
  | .fanCommandWrite n w => Sys2Proof.Machine.execFanCommandWrite n w s
  | .fanBandWrite c j w => Sys2Proof.Machine.execFanBandWrite c j w s
  | .fanIlimitWrite n w => Sys2Proof.Machine.execFanIlimitWrite n w s
  | .fanTugEnd n => Sys2Proof.Machine.execFanTugEnd n s
  | .fanWaitEnd n => Sys2Proof.Machine.execFanWaitEnd n s
  | .fanStallRetry n => Sys2Proof.Machine.execFanStallRetry n s
  | .fanShort n => Sys2Proof.Machine.execFanShort n s
  | .fanShortOffEnd n => Sys2Proof.Machine.execFanShortOffEnd n s
  | .tachEdge n t => Sys2Proof.Machine.execTachEdge n t s
  | .tachStop n => Sys2Proof.Machine.execTachStop n s
  | .rippleWindowEnd n events => Sys2Proof.Machine.execRippleWindowEnd n events s
  | .rpmLearn n => Sys2Proof.Machine.execRpmLearn n s
  | .adcEntryEnd ch sum ovr => Sys2Proof.Machine.execAdcEntryEnd ch sum ovr s
  | .adcContinuousRound => Sys2Proof.Machine.execAdcContinuousRound s
  | .urgentRequestWrite w => Sys2Proof.Machine.execUrgentRequestWrite w s
  | .adcCalCommand r => Sys2Proof.Machine.execAdcCalCommand r s
  | .adcSelfCalDone gains offsets residual => Sys2Proof.Machine.execAdcSelfCalDone gains offsets residual s
  | .adcFactorWrite n w => Sys2Proof.Machine.execAdcFactorWrite n w s
  | .aiConfigWrite ch sub w => Sys2Proof.Machine.execAiConfigWrite ch sub w s
  | .diStuck n => Sys2Proof.Machine.execDiStuck n s
  | .diChatterWindowEnd n => Sys2Proof.Machine.execDiChatterWindowEnd n s
  | .idReaderStart => Sys2Proof.Machine.execIdReaderStart s
  | .modDetChange slot on => Sys2Proof.Machine.execModDetChange slot on s
  | .idPoll ack => Sys2Proof.Machine.execIdPoll ack s
  | .idReadDone slot r => Sys2Proof.Machine.execIdReadDone slot r s
  | .idReadRetry n => Sys2Proof.Machine.execIdReadRetry n s
  | .idFaultRetry n => Sys2Proof.Machine.execIdFaultRetry n s
  | .idRereadWrite w => Sys2Proof.Machine.execIdRereadWrite w s
  | .slotBindWrite n w => Sys2Proof.Machine.execSlotBindWrite n w s
  | .busModeWrite c w => Sys2Proof.Machine.execBusModeWrite c w s
  | .busModeApply c => Sys2Proof.Machine.execBusModeApply c s
  | .busIntegrated c => Sys2Proof.Machine.execBusIntegrated c s
  | .busProbeEnd c => Sys2Proof.Machine.execBusProbeEnd c s
  | .busTimingWrite c sub w => Sys2Proof.Machine.execBusTimingWrite c sub w s
  | .tripleSampleWrite c w => Sys2Proof.Machine.execTripleSampleWrite c w s
  | .canFrameReceived c f stamp => Sys2Proof.Machine.execCanFrameReceived c f stamp s
  | .canTxComplete c stamp => Sys2Proof.Machine.execCanTxComplete c stamp s
  | .canTxError c e => Sys2Proof.Machine.execCanTxError c e s
  | .busoffRecoveryDone c => Sys2Proof.Machine.execBusoffRecoveryDone c s
  | .bwHoldExpiry n => Sys2Proof.Machine.execBwHoldExpiry n s
  | .bwSummary => Sys2Proof.Machine.execBwSummary s
  | .deviceHeartbeat => Sys2Proof.Machine.execDeviceHeartbeat s
  | .netHeartbeatNow c => Sys2Proof.Machine.execNetHeartbeatNow c s
  | .netLockAll c => Sys2Proof.Machine.execNetLockAll c s
  | .netQuiet c => Sys2Proof.Machine.execNetQuiet c s
  | .quietEnd => Sys2Proof.Machine.execQuietEnd s
  | .netTimeRequest c => Sys2Proof.Machine.execNetTimeRequest c s
  | .klpRead a => Sys2Proof.Machine.execKlpRead a s
  | .klpWrite key w => Sys2Proof.Machine.execKlpWrite key w s
  | .compactionDone ok => Sys2Proof.Machine.execCompactionDone ok s
  | .segReadStart a => Sys2Proof.Machine.execSegReadStart a s
  | .segRead a => Sys2Proof.Machine.execSegRead a s
  | .segWriteStart a => Sys2Proof.Machine.execSegWriteStart a s
  | .segWrite a => Sys2Proof.Machine.execSegWrite a s
  | .segAbort a => Sys2Proof.Machine.execSegAbort a s
  | .segStream a => Sys2Proof.Machine.execSegStream a s
  | .transferIdleTimeout id key => Sys2Proof.Machine.execTransferIdleTimeout id key s
  | .unlock a => Sys2Proof.Machine.execUnlock a s
  | .unlockLockoutEnd n => Sys2Proof.Machine.execUnlockLockoutEnd n s
  | .lock a => Sys2Proof.Machine.execLock a s
  | .sessionTimeout n => Sys2Proof.Machine.execSessionTimeout n s
  | .klpHeartbeat a => Sys2Proof.Machine.execKlpHeartbeat a s
  | .manifest a => Sys2Proof.Machine.execManifest a s
  | .echo a => Sys2Proof.Machine.execEcho a s
  | .klpResponseAbandon c => Sys2Proof.Machine.execKlpResponseAbandon c s
  | .spiRequestTransaction bytes => Sys2Proof.Machine.execSpiRequestTransaction bytes s
  | .spiResponseRead n => Sys2Proof.Machine.execSpiResponseRead n s
  | .irqClearWrite w => Sys2Proof.Machine.execIrqClearWrite w s
  | .resetCommandWrite w => Sys2Proof.Machine.execResetCommandWrite w s
  | .deviceReset => Sys2Proof.Machine.execDeviceReset s
  | .nvWren => Sys2Proof.Machine.execNvWren s
  | .nvWrdi => Sys2Proof.Machine.execNvWrdi s
  | .nvRdsr n => Sys2Proof.Machine.execNvRdsr n s
  | .nvWrsr b => Sys2Proof.Machine.execNvWrsr b s
  | .nvRead addr n => Sys2Proof.Machine.execNvRead addr n s
  | .nvFastRead addr n => Sys2Proof.Machine.execNvFastRead addr n s
  | .nvWrite addr bytes cont => Sys2Proof.Machine.execNvWrite addr bytes cont s
  | .nvRder n => Sys2Proof.Machine.execNvRder n s
  | .nvCler => Sys2Proof.Machine.execNvCler s
  | .nvRdid n => Sys2Proof.Machine.execNvRdid n s
  | .bucketLeak n => Sys2Proof.Machine.execBucketLeak n s
  | .logRecordWrite => Sys2Proof.Machine.execLogRecordWrite s
  | .logStreamSend => Sys2Proof.Machine.execLogStreamSend s
  | .logClearWrite w => Sys2Proof.Machine.execLogClearWrite w s
  | .logCursorWrite w => Sys2Proof.Machine.execLogCursorWrite w s
  | .vaonLoss vbak => Sys2Proof.Machine.execVaonLoss vbak s
  | .vaonReturn => Sys2Proof.Machine.execVaonReturn s
  | .vbakDrop => Sys2Proof.Machine.execVbakDrop s
  | .vbakReturn => Sys2Proof.Machine.execVbakReturn s
  | .bridgeTimeout => Sys2Proof.Machine.execBridgeTimeout s
  | .mooringDomainStart main => Sys2Proof.Machine.execMooringDomainStart main s
  | .xtal32Stop => Sys2Proof.Machine.execXtal32Stop s
  | .xtal32Return => Sys2Proof.Machine.execXtal32Return s
  | .dateTimeWrite w => Sys2Proof.Machine.execDateTimeWrite w s
  | .calendarOffsetWrite w => Sys2Proof.Machine.execCalendarOffsetWrite w s
  | .subsecShiftWrite w => Sys2Proof.Machine.execSubsecShiftWrite w s
  | .subsecSlewDone => Sys2Proof.Machine.execSubsecSlewDone s
  | .dstForward r => Sys2Proof.Machine.execDstForward r s
  | .dstBack r => Sys2Proof.Machine.execDstBack r s
  | .calendarSecond => Sys2Proof.Machine.execCalendarSecond s
  | .alarmMatchWrite n w => Sys2Proof.Machine.execAlarmMatchWrite n w s
  | .alarmStatusWrite n w => Sys2Proof.Machine.execAlarmStatusWrite n w s
  | .trimWindow temp vbak => Sys2Proof.Machine.execTrimWindow temp vbak s
  | .timeFrameSend => Sys2Proof.Machine.execTimeFrameSend s
  | .driveFrame ok => Sys2Proof.Machine.execDriveFrame ok s
  | .driveFault => Sys2Proof.Machine.execDriveFault s
  | .driveRailRecovered => Sys2Proof.Machine.execDriveRailRecovered s
  | .panelTempFallback => Sys2Proof.Machine.execPanelTempFallback s
  | .frameMemoryCheck ok => Sys2Proof.Machine.execFrameMemoryCheck ok s
  | .regionUpdateWrite w => Sys2Proof.Machine.execRegionUpdateWrite w s
  | .regionCellsWrite n w => Sys2Proof.Machine.execRegionCellsWrite n w s
  | .panelModeChange => Sys2Proof.Machine.execPanelModeChange s
  | .stormPatternToggle => Sys2Proof.Machine.execStormPatternToggle s
  | .keyScan closed => Sys2Proof.Machine.execKeyScan closed s
  | .keyRepeat n => Sys2Proof.Machine.execKeyRepeat n s
  | .keyLong n => Sys2Proof.Machine.execKeyLong n s
  | .keyStuck n => Sys2Proof.Machine.execKeyStuck n s
  | .keyReset => Sys2Proof.Machine.execKeyReset s
  | .feedAbsent f => Sys2Proof.Machine.execFeedAbsent f s
  | .feedPresent f => Sys2Proof.Machine.execFeedPresent f s
  | .feedOvervoltage f => Sys2Proof.Machine.execFeedOvervoltage f s
  | .pfail us => Sys2Proof.Machine.execPfail us s
  | .uvlo cell => Sys2Proof.Machine.execUvlo cell s
  | .brownout => Sys2Proof.Machine.execBrownout s
  | .sharedRailFault => Sys2Proof.Machine.execSharedRailFault s
  | .sharedRailRecovered => Sys2Proof.Machine.execSharedRailRecovered s
  | .pfailLevelWrite w => Sys2Proof.Machine.execPfailLevelWrite w s
  | .powerRequestWrite w => Sys2Proof.Machine.execPowerRequestWrite w s
  | .slackEntry => Sys2Proof.Machine.execSlackEntry s
  | .wakeHoldEnd => Sys2Proof.Machine.execWakeHoldEnd s
  | .slipVerifyDone => Sys2Proof.Machine.execSlipVerifyDone s
  | .slipWriteDone ok => Sys2Proof.Machine.execSlipWriteDone ok s
  | .slipLoadStandby r => Sys2Proof.Machine.execSlipLoadStandby r s
  | .slipLoadDone => Sys2Proof.Machine.execSlipLoadDone s
  | .slipSwap r => Sys2Proof.Machine.execSlipSwap r s
  | .slipCommit r => Sys2Proof.Machine.execSlipCommit r s
  | .slipRollback r => Sys2Proof.Machine.execSlipRollback r s
  | .slipAbort r => Sys2Proof.Machine.execSlipAbort r s
  | .slipInstallReset r => Sys2Proof.Machine.execSlipInstallReset r s
  | .probationEnd => Sys2Proof.Machine.execProbationEnd s
  | .jtagBypass => Sys2Proof.Machine.execJtagBypass s
  | .jtagIdcode => Sys2Proof.Machine.execJtagIdcode s
  | .jtagSamplePreload => Sys2Proof.Machine.execJtagSamplePreload s
  | .jtagExtest => Sys2Proof.Machine.execJtagExtest s
  | .jtagHighz => Sys2Proof.Machine.execJtagHighz s
  | .jtagClamp => Sys2Proof.Machine.execJtagClamp s
  | .trstAssert => Sys2Proof.Machine.execTrstAssert s
  | .mainsModeWrite w => Sys2Proof.Machine.execMainsModeWrite w s
  | .zcPulse t0 t1 => Sys2Proof.Machine.execZcPulse t0 t1 s
  | .mainsCrossingMissed => Sys2Proof.Machine.execMainsCrossingMissed s
  | .holdoverExpiry => Sys2Proof.Machine.execHoldoverExpiry s
  | .registerWrite key w => Sys2Proof.Machine.execRegisterWrite key w s
  | .protocolError c e => Sys2Proof.Machine.execProtocolError c e s
  | .klpFrameGapTimeout c peer => Sys2Proof.Machine.execKlpFrameGapTimeout c peer s
  | .feedOvervoltageEnd f => Sys2Proof.Machine.execFeedOvervoltageEnd f s
  | .quayFailWindowExpiry q => Sys2Proof.Machine.execQuayFailWindowExpiry q s

end Sys2Proof.Machine
end

