-- ==== Sys2Proof/Machine/Step.lean ====
section
/-!
DEFINITION. The step of the block: the command at the front of the queue, or, on an empty queue, one tick of the 32,768 Hz clock of
the mooring domain.
-/
namespace Sys2Proof.Machine

/-- The state without its front command. -/
def State.popCommand (s : State) (rest : List Instr) : State := { s with pending := rest }

/-- What the block does with nothing commanded: one tick of the RTC (R465, R466; assumption 50). -/
def idle (s : State) : Host.Outcome State Fault Refusal := .next s.rtcTick

/-- One step. -/
def step (s : State) : Host.Outcome State Fault Refusal :=
  match s.pending with
  | [] => idle s
  | c :: rest => exec c (s.popCommand rest)

/-- The state with the command that a word spells in front of its queue. -/
def State.withFetchWord (s : State) (nbits w : Nat) : State :=
  match Sys2Proof.decodeTableWord nbits w with
  | some c => { s with pending := c :: s.pending }
  | none => s

end Sys2Proof.Machine
end

