-- ==== Sys2Proof/Safety.lean ====
section
/-!
DEFINITION. What every state of the block keeps to, whatever is commanded: the canonical form of the window's memory and of the
register map, and the depths of the queues the spec bounds (R11, R246, R396, R416, R447, R502).
-/
namespace Sys2Proof.Machine

/-- Keys rise strictly from `lo` on; no value is the default of its key, and each fits its entry's width (R11). -/
def SMap.wfFrom (lo : Nat) : SMap → Bool
  | [] => true
  | (k, v) :: t => Nat.ble lo k && v != keyDefault k && Nat.blt v (2 ^ keyBits k) && SMap.wfFrom (k + 1) t

/-- The canonical form of the register map: equal contents are equal data. -/
def SMap.wf (m : SMap) : Bool := SMap.wfFrom 0 m

/-- What no command breaks: the window's memory and the register map keep their canonical forms; the fault stack holds at most
4 entries (R246), the log queue 256 records (R447), the SPI response FIFO 8 responses (R396) and the key event FIFO 32 events
(R502). -/
structure Sound (s : State) : Prop where
  window : Memory.wf s.nv.win = true
  regs   : SMap.wf s.regs = true
  stack  : s.hm.stack.length ≤ 4
  queue  : s.log.queue.length ≤ 256
  spi    : s.klp.fifo.length ≤ 8
  keys   : s.keys.fifo.length ≤ 32

/-- A sound state whose waiting commands are `q`. -/
structure Upheld (q : List Instr) (s : State) : Prop where
  sound   : Sound s
  pending : s.pending = q

end Sys2Proof.Machine
end

