-- ==== Sys2Proof/Terms.lean ====
section
/-!
DEFINITION. The words the statements are written in: which pieces of the state a command may change, and what a served request
and an accepted write are.
-/
namespace Sys2Proof.Machine

/-! ### Frames -/

/-- A piece of the state: one field each, but for the records partition (`window`), which stands beside the rest of `nv`, and
the register map (`regs`). -/
inductive Piece where
  | regs | phase | power | pfail | tide | mains | hm | klp | nv | window | log | rtc | bus | berth | loop | act | sens | focal
  | pipe | cal | video | panel | keys | pwr | slip | jtag | freeCtr
  deriving DecidableEq, Repr

/-- A piece is as before; `nv` is compared with its records partition left out, `regs` by the value of every entry. -/
def Piece.same (s t : State) : Piece → Prop
  | .regs => ∀ k, t.reg k = s.reg k
  | .phase => t.phase = s.phase
  | .power => t.power = s.power
  | .pfail => t.pfail = s.pfail
  | .tide => t.tide = s.tide
  | .mains => t.mains = s.mains
  | .hm => t.hm = s.hm
  | .klp => t.klp = s.klp
  | .nv => { t.nv with win := s.nv.win } = s.nv
  | .window => t.nv.win = s.nv.win
  | .log => t.log = s.log
  | .rtc => t.rtc = s.rtc
  | .bus => t.bus = s.bus
  | .berth => t.berth = s.berth
  | .loop => t.loop = s.loop
  | .act => t.act = s.act
  | .sens => t.sens = s.sens
  | .focal => t.focal = s.focal
  | .pipe => t.pipe = s.pipe
  | .cal => t.cal = s.cal
  | .video => t.video = s.video
  | .panel => t.panel = s.panel
  | .keys => t.keys = s.keys
  | .pwr => t.pwr = s.pwr
  | .slip => t.slip = s.slip
  | .jtag => t.jtag = s.jtag
  | .freeCtr => t.freeCtr = s.freeCtr

/-- `t` differs from `s` at most in the pieces of `l` and, where `regs` is not among them, in the entries at the keys `ks`; the
waiting commands are the same. -/
structure OnlyIn (l : List Piece) (ks : List Nat) (s t : State) : Prop where
  pieces  : ∀ p, p ≠ .regs → p ∉ l → p.same s t
  entries : Piece.regs ∉ l → ∀ k, k ∉ ks → t.reg k = s.reg k
  pending : t.pending = s.pending

/-- The command completes: `exec` answers a next state that differs at most in the pieces `l` and the entries `ks`, and in which `p`
holds. -/
def Does (i : Instr) (s : State) (l : List Piece) (ks : List Nat) (p : State → Prop) : Prop :=
  ∃ t, exec i s = .next t ∧ OnlyIn l ks s t ∧ p t

/-- The command changes nothing. -/
abbrev Rests (i : Instr) (s : State) : Prop := exec i s = .next s

/-- DARK has begun again (R415, R517): every volatile part is as after a reset with this cause; the entries of `keptKeys` hold their
values and every other entry its default; the mooring domain, the window, the ring and the anchor records, both firmware slots and
the probation marker go on. -/
structure Darkened (s t : State) (cause : Nat) : Prop where
  phase   : t.phase = .dark
  power   : t.power = .full
  pfail   : t.pfail = false
  tide    : t.tide = Tide.reset
  hm      : t.hm = Hm.reset s.hm.summary
  klp     : t.klp = { Klp.reset with resetCause := cause }
  kept    : ∀ k, k ∈ keptKeys → t.reg k = s.reg k
  default : ∀ k, k ∉ keptKeys → t.reg k = keyDefault k
  rtc     : t.rtc = s.rtc
  window  : t.nv.win = s.nv.win
  ring    : t.log.ring = s.log.ring
  anchor  : t.log.anchor = s.log.anchor
  slots   : t.slip.imageA = s.slip.imageA ∧ t.slip.imageB = s.slip.imageB ∧ t.slip.marker = s.slip.marker
  units   : t.bus = BusPart.reset ∧ t.berth = BerthPart.reset ∧ t.loop = LoopPart.reset ∧ t.sens = SensPart.reset ∧
    t.focal = FocalPart.reset ∧ t.cal = CalPart.reset ∧ t.video = VideoPart.reset ∧ t.panel = PanelPart.reset ∧
    t.keys = KeyPart.reset
  pending : t.pending = s.pending

/-! ### Quay faults -/

/-- A quay in service: a fault of it is declared (R242, R514). -/
abbrev State.inService (s : State) (q : Quay) : Prop :=
  s.pfail = false ∧ (s.quay q).inReset = false ∧ (s.quay q).st ≠ .off ∧ (s.quay q).st ≠ .out

/-- A fault of first level 2 on a quay (R237, R242 to R246): the quay is held in reset for its self-test, whatever else follows. With room on the
fault stack and no STORM: the active quay's fault is a failover to the standby with DUPLEX and no takeover running, and STORM
otherwise; a fault of a quay that neither has nor takes the token brings no STORM. A full stack brings STORM. -/
def QuayFalls (i : Instr) (s : State) (q : Quay) (start : Nat) : Prop :=
  Does i s [.tide, .hm, .klp, .nv, .log, .bus, .loop, .act, .cal, .panel, .slip, .freeCtr]
    [Reg.FAILOVERS, Reg.HB_MISSES, Reg.SALVAGE_SUPPRESSED, Reg.STACK_OVERFLOWS, Reg.STORM_ENTRIES, Reg.TABLE_TAKEOVERS] fun t =>
    (t.quay q).st = .selfTest ∧ (t.quay q).inReset = true ∧ t.hm.owner ≠ some q ∧
      (4 ≤ s.hm.stack.length → t.storm = true ∧ (s.storm = false → t.hm.owner = none)) ∧
      (s.hm.stack.length < 4 → s.storm = false →
        ((s.quay q).st = .active → s.duplex = true → s.hm.takeover = none →
          t.storm = false ∧ t.hm.owner = some q.other ∧ (t.quay q.other).st = .active ∧ bitAt t.klp.irq irqFailover = true ∧
            (∃ k, t.hm.takeover = some k ∧ k.dest = q.other ∧ k.start = start ∧ k.planned = false) ∧ t.klp.transfers = [] ∧
            t.klp.streams = []) ∧
        ((s.quay q).st ≠ .active → (∀ k, s.hm.takeover = some k → k.dest ≠ q) → t.storm = false) ∧
        (((s.quay q).st = .active ∧ (s.duplex = false ∨ s.hm.takeover ≠ none)) ∨ (∃ k, s.hm.takeover = some k ∧ k.dest = q) →
          t.storm = true ∧ t.hm.owner = none))

/-! ### The bus -/

/-- The pilot's next network command on a channel is `r`, and `rest` waits behind it (R368, R407): a quay owns the token, no takeover and no STORM
runs, and of the frames in the channel's FIFO these are the commands that have yet to act. -/
abbrev State.nextNet (s : State) (c : Bus) (r : RxFrame) (rest : List RxFrame) : Prop :=
  s.hm.owner ≠ none ∧ s.hm.takeover = none ∧ s.storm = false ∧
    (s.chan c).rx.filter (fun x => s.isNet x.f && s.netActs x.f) = r :: rest

/-! ### Requests and writes -/

/-- What being served does to the ledger engine itself: the request leaves the queue of accepted requests, its session is marked
active, it is counted, and its response is delivered and, where R398 keeps it, kept. -/
def State.answered (s : State) (q : Request) (st : Status) (data : List Nat) : State :=
  ((s.dequeue q).touch q.req.id).answer q st data

/-- The state in which a served request is executed: it has left the queue and marked its session. -/
def State.ready (s : State) (q : Request) : State := (s.dequeue q).touch q.req.id

/-- A response is on its way: in the SPI FIFO, or among those that wait for a place. -/
abbrev State.responded (t : State) (r : Resp) : Prop := r ∈ t.klp.fifo ++ t.klp.outbox

/-- A request reaches its own rule: the active quay, or for what STORM leaves open the standby, or for what recovery leaves open the
harbourmaster serves its port, and it repeats no kept request (R253, R398, R410, R529). -/
abbrev State.serves (s : State) (q : Request) : Prop :=
  (s.serving q.req.port = .full ∨ (s.serving q.req.port = .standby ∧ stormServes q.op q.index = true) ∨
    (s.serving q.req.port = .recovery ∧ recoveryServes q = true)) ∧ (opKept q.op = true → s.keptFor q = none)

/-- A write reaches the rule of its entry: it is served, and the checks of existence, access and type pass (R390 orders 1 to 3). -/
abbrev State.accepts (s : State) (w : Wr) (key : Nat) : Prop :=
  s.serves (wrRequest w key) ∧ s.checkWrite w key = none

/-- The entry takes the value: it is not stored, or the MRAM takes its record (R385, R420). -/
abbrev State.stores (s : State) (key v : Nat) : Prop := (s.putEntry key v).1 = .ok

/-- An MRAM with the parameters partition of another, and whether a compaction runs. -/
def Nv.withParams (n m : Nv) : Nv := { n with area0 := m.area0, area1 := m.area1, compacting := m.compacting }

/-- Of the MRAM only the parameters partition changes, and whether a compaction runs. -/
abbrev ParamsOnly (s t : State) : Prop := t.nv = s.nv.withParams t.nv

/-- A write of the entry at `key` that puts its value there, answered OK; beside the entry, the parameters partition and the ledger
engine's own work it changes at most the pieces `l` and the entries `ks`, and `p` holds after it. -/
def TakesWith (i : Instr) (s : State) (w : Wr) (key : Nat) (l : List Piece) (ks : List Nat) (p : State → Prop) : Prop :=
  Does i s (.klp :: .nv :: l) (key :: ks) fun t =>
    t.reg key = w.val % 2 ^ keyBits key ∧ t.klp = (s.answered (wrRequest w key) .ok []).klp ∧ ParamsOnly s t ∧ p t

/-- The same for a write that does nothing else. -/
def Takes (i : Instr) (s : State) (w : Wr) (key : Nat) : Prop := TakesWith i s w key [] [] fun _ => True

/-- A write of the entry at `key` that is answered OK and stores nothing: an effect `p` in the pieces `l` and the entries `ks`. -/
def Obeys (i : Instr) (s : State) (w : Wr) (key : Nat) (l : List Piece) (ks : List Nat) (p : State → Prop) : Prop :=
  Does i s (.klp :: l) ks fun t => t.klp = (s.answered (wrRequest w key) .ok []).klp ∧ p t

/-- A write answered with a status that refuses it: nothing changes but the ledger engine's own work. -/
def Refuses (i : Instr) (s : State) (w : Wr) (key : Nat) (st : Status) : Prop :=
  Does i s [.klp] [] fun t => t.klp = (s.answered (wrRequest w key) st []).klp

end Sys2Proof.Machine
end

