-- ==== Sys2Proof/Certificates/Slice0/Obligations.lean ====
section
/-!
DEFINITION. The statements for the provers.
-/

open Sys2Proof Sys2Proof.Machine

/-! ### The block as a whole -/

/-- A step takes the front command and is `exec` of it on the rest of the queue. -/
def Obligations.StepRunsFront : Prop :=
  ∀ (s : State) (c : Instr) (q : List Instr), s.pending = c :: q → step s = exec c { s with pending := q }

/-- With no command waiting the block idles: only the mooring domain moves, and its tick count by one tick and its trim unless it is DOWN (the model's
choice, log entry 50). -/
def Obligations.IdleStep : Prop :=
  ∀ s : State, s.pending = [] → ∃ t, step s = .next t ∧ OnlyIn [.rtc] [] s t ∧
    (s.rtc.supply ≠ .down → t.rtc.ticks = (s.rtc.ticks + s.rtc.advance) % 2 ^ 48) ∧ (s.rtc.supply = .down → t.rtc = s.rtc)

/-- Every command completes: `exec` answers a next state, sound where the state before is sound, with the same commands waiting. Where the rules
leave it open it follows the model's log entries 7 and 51. -/
def Obligations.EveryCommandCompletes : Prop :=
  ∀ (i : Instr) (s : State), Sound s → ∃ t, exec i s = .next t ∧ Sound t ∧ t.pending = s.pending

/-- Soundness is kept by every step: the window's memory and the register map stay canonical, the fault stack, the log queue, the SPI response FIFO
and the key event FIFO stay within their depths (R246, R396, R447, R502), and a step takes at most the front command. Where the rules leave it
open it follows the model's log entry 51. -/
def Obligations.StepKeepsSound : Prop :=
  ∀ s : State, Sound s → ∃ t, step s = .next t ∧ Sound t ∧ t.pending = s.pending.tail

/-- T64 restarts at 0 only at a tide start (R25): a power-up, a rail's end or return, a brownout, a device reset or the reset keys bring DARK, and
the tide then starts from 0; a row slot moves T64 on; every other command, whatever mode, rate, role or source it changes, leaves T64 as it is.
Where the rules leave it open it follows the model's log entry 9. -/
def Obligations.T64Continuous : Prop :=
  ∀ (i : Instr) (s t : State), exec i s = .next t → t.now = s.now ∨ (∃ r, i = .rowSlot r ∧ s.now < t.now) ∨
    (t.now = 0 ∧ ((∃ b, i = .powerDieStart b) ∨ i = .sharedRailFault ∨ i = .sharedRailRecovered ∨ i = .brownout ∨ i = .deviceReset ∨
      i = .keyReset ∨ (∃ c, i = .hmVoteMismatch c false) ∨ i = .tideStart ∨ i = .masterStartTimeout))

/-- The state after reset is sound and nothing waits; and what reset leaves (R24, R228, R310, R464, R516, R517): DARK with the tide stopped, no owner, both
quays held in reset, every output driver off, every ledger entry at its default, the mooring domain invalid with TIME_LOST pending. That
no event is stored yet and that the domain counts from 0 are the model's (log entries 3 and 38). -/
def Obligations.ResetState : Prop :=
  (Sound State.reset ∧ State.reset.pending = []) ∧
  State.reset.phase = .dark ∧ State.reset.tide.running = false ∧ State.reset.tide.t64 = 0 ∧ State.reset.hm.owner = none ∧
    (∀ q, (State.reset.quay q).inReset = true) ∧ (∀ n, n < 16 → (State.reset.out n).off = true) ∧
    (∀ k, State.reset.reg k = keyDefault k) ∧ State.reset.rtc.valid = false ∧ State.reset.rtc.lostPending = true ∧
    State.reset.klp.fifo = [] ∧ State.reset.klp.sessions = []

/-- An entry read back after it is set holds the value cut to its width (R11), every other entry what it held; an entry holds its
value from its width on in every sound state. -/
def Obligations.EntryReadBack : Prop :=
  (∀ (s : State) (k v : Nat), (s.setReg k v).reg k = v % 2 ^ keyBits k ∧ ∀ j, j ≠ k → (s.setReg k v).reg j = s.reg j) ∧
    ∀ s : State, Sound s → ∀ k, k ∈ keptKeys → s.reg k < 2 ^ keyBits k

/-- Requests that are not executed. A port that is not served (R410): a write or a read changes nothing but the ledger engine, whatever its entry. A
repeat (R398): a served write that repeats the kept request of its requester within 2 s is not executed again; the kept response is delivered
once more and the repeat is counted. Where the rules leave it open it follows the model's log entry 52. -/
def Obligations.RequestsNotExecuted : Prop :=
  (∀ (s : State) (key : Nat) (w : Wr) (a : Ask),
     (s.serving w.req.port ≠ .full → s.serving w.req.port ≠ .standby → s.serving w.req.port ≠ .recovery →
       Does (.klpWrite key w) s [.klp] [] (fun _ => True) ∧ Does (.registerWrite key w) s [.klp] [] fun _ => True) ∧
     (s.serving a.req.port ≠ .full → s.serving a.req.port ≠ .standby → s.serving a.req.port ≠ .recovery →
       Does (.klpRead a) s [.klp] [] fun _ => True)) ∧
  ∀ (s : State) (key : Nat) (w : Wr) (k : Kept), s.serving w.req.port = .full → s.keptFor (wrRequest w key) = some k →
    Does (.klpWrite key w) s [.klp] [] (fun t =>
      t.klp = { (s.dequeue (wrRequest w key)).deliver k.resp |>.klp with duplicates := satInc 32 s.klp.duplicates }) ∧
    exec (.registerWrite key w) s = exec (.klpWrite key w) s

/-- The checks of a write in their order (R390): existence, then access, then type. A write that fails one of them is answered with that status and
changes nothing but the ledger engine, whichever command makes it. Where the rules leave it open it follows the model's log entry 52. -/
def Obligations.CheckedWrites : Prop :=
  ∀ (s : State) (key : Nat) (w : Wr), s.serves (wrRequest w key) →
    (findEntry key = none →
      Refuses (.klpWrite key w) s w key .noObject ∧ Refuses (.registerWrite key w) s w key .noObject) ∧
    (∀ e, findEntry key = some e → ¬ (e.acc = 0 ∧ s.tallyOpen w key = false) → ¬ (s.levelOf w.req.id < e.acc ∧ s.recovering = false) →
      (e.ty = .domain ∨ w.len ≠ e.ty.bytes ∨ (e.ty = .bool ∧ 1 < w.val)) →
      Refuses (.klpWrite key w) s w key .type ∧ Refuses (.registerWrite key w) s w key .type) ∧
    (∀ e, findEntry key = some e → ((e.acc = 0 ∧ s.tallyOpen w key = false) ∨ (s.levelOf w.req.id < e.acc ∧ s.recovering = false)) →
      Refuses (.klpWrite key w) s w key .access ∧ Refuses (.registerWrite key w) s w key .access)

/-! ### Power and bring-up -/

/-- The ways into DARK (R415, R505, R511, R515, R516): a power-up, a shared rail that fails and one that recovers, a brownout, the device reset that
a command scheduled, and the reset keys held for 6 s. Where the rules leave it open it follows the model's log entry 45. -/
def Obligations.WaysIntoDark : Prop :=
  (∀ (b : Bool) (s : State), s.pwr.rails = false → s.pwr.railHeld = false →
    ∃ t, exec (.powerDieStart b) s = .next t ∧ Darkened s t 0 ∧ t.pwr.rails = true ∧ t.jtag.testEn = b) ∧
  (∀ s : State, s.pwr.rails = true →
    ∃ t, exec .sharedRailFault s = .next t ∧ Darkened s t 0 ∧ t.pwr.rails = false ∧ t.pwr.railHeld = true ∧ t.pwr.padsOff = true ∧
      t.act.allOff = true ∧ t.jtag = s.jtag) ∧
  (∀ s : State, s.pwr.railHeld = true →
    ∃ t, exec .sharedRailRecovered s = .next t ∧ Darkened s t 0 ∧ t.pwr.rails = true ∧
      t.nv.tallies = (s.countTally Reg.RAIL_RESETS).nv.tallies ∧ t.jtag = s.jtag) ∧
  (∀ s : State, s.pfail = true → s.pwr.rails = true →
    ∃ t, exec .brownout s = .next t ∧ Darkened s t 0 ∧ t.nv.tallies = (s.countTally Reg.BROWNOUTS).nv.tallies ∧ t.jtag = s.jtag) ∧
  (∀ (s : State) (d : Nat), s.klp.resetDue = some d → d ≤ s.now →
    ∃ t, exec .deviceReset s = .next t ∧ Darkened s t 3 ∧ t.nv.tallies = s.nv.tallies ∧ t.jtag = s.jtag) ∧
  (∀ (s : State) (t0 : Nat), s.keys.both = some t0 → t0 + 6 * clkSec ≤ s.now → s.resetKeysHeld = true →
    ∃ t, exec .keyReset s = .next t ∧ t.phase = .dark ∧ t.power = .full ∧ t.tide = Tide.reset ∧ t.klp.resetCause = 2 ∧
      t.nv.win = s.nv.win ∧ t.rtc = s.rtc ∧ t.pending = s.pending)

/-- A count of a tally that is not frozen adds 1 to its value (R424); every other tally stays. -/
def Obligations.TallyCounts : Prop :=
  ∀ (s : State) (k : Nat) (y : Tally), s.nv.tally k = some y → y.frozen = false → y.incs ≤ 7 → y.base + 8 < 2 ^ 48 →
    (s.countTally k).tallyValue k = y.value + 1 ∧ ∀ j, j ≠ k → (s.countTally k).nv.tally j = s.nv.tally j

/-- The tide starts (R24, R26): T64 is 0, the source is the master oscillator or, 20 ms without one, Quay A's RC with
TIMEBASE_DEGRADED and MASTER_LOST set, and `TIDE_START_TICKS` takes the RTC tick count. -/
def Obligations.TideStarts : Prop :=
  ∀ s : State, s.tideAwaited = true →
    (Does .tideStart s [.regs, .tide, .klp, .nv, .log, .rtc, .bus, .loop, .act, .panel] [] fun t =>
      t.tide.running = true ∧ t.now = 0 ∧ t.tide.source = .master ∧ t.tide.masterLost = false ∧
        t.reg Reg.TIDE_START_TICKS = s.rtc.ticks % 2 ^ 48) ∧
    Does .masterStartTimeout s [.regs, .tide, .klp, .nv, .log, .rtc, .bus, .loop, .act, .panel] [] fun t =>
      t.tide.running = true ∧ t.now = 0 ∧ t.tide.source = .rc .a ∧ t.tide.masterLost = true ∧ t.tide.degraded = true ∧
        t.reg Reg.TIDE_START_TICKS = s.rtc.ticks % 2 ^ 48

/-- From DARK to the first owner (R228, R360, R516 to R518, R528): the verifier runs the image of `BOOT_SLOT` where it verifies and no trial and no
probation marker is set; LIGHTS starts both self-tests and both probes; 1 s of LIGHTS without an owner enters STORM. Where the rules leave it
open it follows the model's log entries 32, 37 and 45. -/
def Obligations.BringUp : Prop :=
  (∀ s : State, s.phase = .dark → s.tide.running = true → s.pwr.imageOk = false → s.pfail = false → s.slip.marker = false →
    1 < s.reg Reg.BOOT_TRIAL → Does .bootVerifyDone s [.log, .pwr, .slip] [] fun t =>
      (s.verifyImage (s.slip.slot (s.reg Reg.BOOT_SLOT == 1)) = .ok →
        t.pwr = { s.pwr with imageOk := true, bootB := s.reg Reg.BOOT_SLOT == 1 } ∧ t.slip = s.slip ∧ t.log = s.log) ∧
      (s.verifyImage (s.slip.slot (s.reg Reg.BOOT_SLOT == 1)) ≠ .ok →
        (s.verifyImage (s.slip.slot (s.reg Reg.BOOT_SLOT != 1)) = .ok →
          t.pwr = { s.pwr with imageOk := true, bootB := s.reg Reg.BOOT_SLOT != 1 } ∧ t.slip = { s.slip with fallback := true }) ∧
        (s.verifyImage (s.slip.slot (s.reg Reg.BOOT_SLOT != 1)) ≠ .ok → t.pwr = s.pwr ∧ t.slip = { s.slip with noFirmware := true }))) ∧
  (∀ s : State, s.phase = .dark → s.tide.running = true → s.pwr.imageOk = true → s.pfail = false → s.pwr.railHeld = false →
    Does .lightsEntry s [.phase, .hm, .bus, .sens, .focal, .cal, .pwr, .slip] [Reg.LIGHTS_MS] fun t =>
      t.phase = .lights ∧ t.pwr.lightsT64 = s.now ∧ t.pwr.wait = false ∧ t.cal.qual = true ∧
        (∀ q, (t.quay q).st = .selfTest ∧ (t.quay q).inReset = false) ∧
        ∀ c, (t.chan c).active = .restricted ∧ (t.chan c).probe = some 0) ∧
  (∀ s : State, s.phase = .lights → s.pwr.owned = false → s.pwr.lightsT64 + clkSec ≤ s.now → s.pfail = false → s.storm = false →
    Does .lightsOwnerTimeout s [.hm, .klp, .nv, .log, .bus, .loop, .act, .panel, .slip, .freeCtr]
      [Reg.SALVAGE_SUPPRESSED, Reg.STORM_ENTRIES, Reg.TABLE_TAKEOVERS] fun t => t.storm = true ∧ t.hm.owner = none)

/-- The feeds (R508, R509): a change of a feed's presence is kept; an expected feed gone sets FEED_MISSING and POWER in `IRQ_STATUS`; an unexpected
one raises nothing; the overvoltage flag follows the feed. Power-down (R312, R427, R513, R520): at PFAIL the bias, the pipeline and the stream
stop, POWER is set in `IRQ_STATUS` and the window takes no more bytes; at UVLO the rails stop, every output is off and the device is MOORED, or
OFF without a cell. Where the rules leave it open it follows the model's log entry 45. -/
def Obligations.PowerSupply : Prop :=
  ((∀ (f : Feed) (s : State), s.pwr.isAbsent f = false → s.regBit Reg.FEEDS_EXPECTED (feedBit f) = true →
     Does (.feedAbsent f) s [.klp, .log, .bus, .pwr] [] fun t =>
       t.pwr = { s.pwr.setFeed f false with missing := true } ∧ bitAt t.klp.irq irqPower = true ∧
         t.log = (({ s with pwr := { s.pwr.setFeed f false with missing := true } } : State).feedRecord).log) ∧
   (∀ (f : Feed) (s : State), s.pwr.isAbsent f = false → s.regBit Reg.FEEDS_EXPECTED (feedBit f) = false →
     Does (.feedAbsent f) s [.pwr] [] fun t => t.pwr = s.pwr.setFeed f false) ∧
   (∀ (f : Feed) (s : State), s.pwr.isPresent f = false →
     Does (.feedPresent f) s [.klp, .log, .bus, .pwr] [] fun t =>
       t.pwr.isPresent f = true ∧ t.pwr.isAbsent f = false ∧
         t.pwr.missing = (s.pwr.missing && !(({ s with pwr := s.pwr.setFeed f true } : State).feedsThere))) ∧
   (∀ (f : Feed) (s : State), Does (.feedOvervoltage f) s [.pwr] [] fun t =>
     t.pwr = match f with
       | .a => { s.pwr with ovA := true }
       | .b => { s.pwr with ovB := true }) ∧
   ∀ (f : Feed) (s : State), Does (.feedOvervoltageEnd f) s [.pwr] [] fun t =>
     t.pwr = match f with
       | .a => { s.pwr with ovA := false }
       | .b => { s.pwr with ovB := false }) ∧
  (∀ (us : Nat) (s : State), s.pfail = false → s.pwr.rails = true →
    Does (.pfail us) s [.regs, .pfail, .klp, .nv, .window, .log, .bus, .act, .focal, .pipe, .video, .panel] [] fun t =>
      t.pfail = true ∧ t.focal.bias = false ∧ t.pipe.on = false ∧ t.video.running = false ∧ t.nv.wel = false ∧
        t.nv.openWord = none ∧ t.nv.compacting = false ∧ bitAt t.klp.irq irqPower = true) ∧
  ∀ (cell : Bool) (s : State), (s.pwr.rails = true ∨ s.pwr.railHeld = true) →
    Does (.uvlo cell) s [.power, .pfail, .tide, .act, .panel, .pwr] [] fun t =>
      t.power = (if cell then .moored else .off) ∧ t.pfail = true ∧ t.act = { s.act with allOff := true } ∧
        t.tide = { s.tide with running := false } ∧
        t.pwr = { s.pwr with rails := false, railHeld := false, padsOff := true, hold := none }

/-- `PFAIL_LEVEL`, `POWER_REQUEST` and `RESET_COMMAND` (R415, R512, R523), SLACK's entry and the end of the wake hold (R521 to R523). Where the rules
leave it open it follows the model's log entry 45. -/
def Obligations.PowerModes : Prop :=
  (∀ (s : State) (w : Wr), s.accepts w Reg.PFAIL_LEVEL →
    (w.val + 1000 ≤ s.reg Reg.VHOLD_MV → 7500 ≤ w.val → w.val ≤ 40000 → s.stores Reg.PFAIL_LEVEL w.val →
      Takes (.pfailLevelWrite w) s w Reg.PFAIL_LEVEL) ∧
    (w.val + 1000 ≤ s.reg Reg.VHOLD_MV → (w.val < 7500 ∨ 40000 < w.val) →
      Refuses (.pfailLevelWrite w) s w Reg.PFAIL_LEVEL .range) ∧
    (s.reg Reg.VHOLD_MV < w.val + 1000 → Refuses (.pfailLevelWrite w) s w Reg.PFAIL_LEVEL .state)) ∧
  (∀ (s : State) (w : Wr), s.accepts w Reg.POWER_REQUEST → w.val ≤ 1 →
    s.stores Reg.POWER_REQUEST w.val →
    TakesWith (.powerRequestWrite w) s w Reg.POWER_REQUEST [.power, .video] [] fun t =>
      t.power = (if w.val = 0 ∧ s.power = .slack then .full else s.power)) ∧
  (∀ (s : State) (w : Wr), s.accepts w Reg.RESET_COMMAND →
    (w.val = 0x5A → Does (.resetCommandWrite w) s [.klp] [] fun t =>
      t.klp = { (s.answered (wrRequest w Reg.RESET_COMMAND) .ok []).klp with resetDue := some (s.now + 10 * clkMs) }) ∧
    (w.val ≠ 0x5A → Refuses (.resetCommandWrite w) s w Reg.RESET_COMMAND .range)) ∧
  (∀ s : State, s.reg Reg.POWER_REQUEST = 1 → s.power = .full → s.phase ≠ .dark → s.keys.anyPressed = false → s.pwr.hold = none →
    s.cal.cycle = none → s.cal.qual = false → s.pfail = false →
    Does .slackEntry s [.power, .focal, .pipe, .video] [Reg.IMAGER_ACTIVE] fun t =>
      t.power = .slack ∧ t.focal.bias = false ∧ t.pipe.on = false ∧ t.video.running = false ∧ t.video.ulps = true ∧
        t.reg Reg.IMAGER_ACTIVE = imDark) ∧
  ∀ (s : State) (t0 : Nat), s.pwr.hold = some t0 → t0 + s.reg Reg.WAKE_HOLD * clkSec ≤ s.now →
    Does .wakeHoldEnd s [.pwr] [] fun t => t.pwr = { s.pwr with hold := none }

/-! ### The tide and the mains phase -/

/-- The PLLs and the master clock (R16, R35, R36, R40). The loss of the master starts Quay A's RC, or Quay B's where Quay A is out of service, with
MASTER_LOST and TIMEBASE_DEGRADED set, every PLL unlocked and the edges held; the relock frees the edges; the trim keeps the measured error in
`MASTER_ERROR`; a good master is returned to only with `CLOCK_RETURN` at 1. The rate mode (R3, R30, R31, R107): `RATE_MODE` takes 30, and 60
where the variant has it, unless the video link could not carry it; the epoch that follows at the common boundary keeps the old frame, tick and
T64 and starts a calibration trigger; the PWM errors start afresh. Where the rules leave it open it follows the model's log entry 45. -/
def Obligations.ClockAndRate : Prop :=
  ((∀ (p : Pll) (s : State), Does (.pllUnlock p) s [.tide] [] fun t =>
     t.tide = { s.tide with unlocked := t.tide.unlocked } ∧ ∀ o, o ∈ t.tide.unlocked ↔ o = p ∨ o ∈ s.tide.unlocked) ∧
   (∀ (p : Pll) (s : State), Does (.pllLock p) s [.tide] [] fun t =>
     t.tide = { s.tide with unlocked := t.tide.unlocked } ∧ ∀ o, o ∈ t.tide.unlocked ↔ o ≠ p ∧ o ∈ s.tide.unlocked) ∧
   (∀ s : State, s.tide.running = true → s.tide.source = .master →
     Does .masterClockLoss s [.tide, .hm, .klp, .nv, .log, .bus, .loop, .act, .panel, .slip, .freeCtr]
       [Reg.MASTER_FAILS, Reg.SALVAGE_SUPPRESSED, Reg.STACK_OVERFLOWS, Reg.STORM_ENTRIES, Reg.TABLE_TAKEOVERS] fun t =>
       (s.qst .a ≠ .out → (s.quay .a).inReset = false → t.tide.source = .rc .a) ∧ (s.qst .a = .out → t.tide.source = .rc .b) ∧
       t.tide.masterLost = true ∧ t.tide.degraded = true ∧ t.tide.edgesHeld = true ∧ t.tide.rcTrimmed = false ∧
       (∀ p, p ∈ t.tide.unlocked) ∧ t.now = s.now ∧
       (s.reg Reg.MASTER_FAILS + 1 < 2 ^ 32 → t.reg Reg.MASTER_FAILS = s.reg Reg.MASTER_FAILS + 1)) ∧
   (∀ s : State, s.tide.running = true → Does .pllRelock s [.tide] [] fun t =>
     t.tide = { s.tide with unlocked := [], edgesHeld := false }) ∧
   (∀ (e : Int) (s : State), s.tide.running = true → s.tide.source ≠ .master → s.rtc.xtalFail = false → -2147483648 ≤ e →
     e < 2147483648 → Does (.rcTrim e) s [.tide] [Reg.MASTER_ERROR] fun t =>
       t.tide = { s.tide with rcTrimmed := true } ∧ t.reg Reg.MASTER_ERROR = ofSigned 32 e) ∧
   ∀ s : State, s.tide.source ≠ .master →
     (s.reg Reg.CLOCK_RETURN = 1 → Does .clockReturn s [.tide] [] fun t => t.tide = { s.tide with returnReady := true }) ∧
     (s.reg Reg.CLOCK_RETURN ≠ 1 → Rests .clockReturn s)) ∧
  (∀ (s : State) (w : Wr), s.accepts w Reg.RATE_MODE →
    ((w.val = 30 ∨ w.val = 60 ∧ s.reg Reg.VARIANT = 60) → s.linkRefuses { s.linkCfg with rate := w.val } = false →
      s.stores Reg.RATE_MODE w.val → Takes (.rateModeWrite w) s w Reg.RATE_MODE) ∧
    (¬(w.val = 30 ∨ w.val = 60 ∧ s.reg Reg.VARIANT = 60) → Refuses (.rateModeWrite w) s w Reg.RATE_MODE .range) ∧
    ((w.val = 30 ∨ w.val = 60) → s.linkRefuses { s.linkCfg with rate := w.val } = true →
      Refuses (.rateModeWrite w) s w Reg.RATE_MODE .range)) ∧
  ∀ s : State, s.tide.running = true → 0 < s.epochClocks →
    s.epochClocks % (clocksPerFrame s.rate * (if s.rate = 60 then 125 else 63)) = 0 → s.reg Reg.RATE_MODE ≠ s.rate →
    Does .newEpoch s [.log, .act, .pipe, .cal] [Reg.EPOCH_FRAME, Reg.EPOCH_T64, Reg.EPOCH_TICK, Reg.RATE_ACTIVE] fun t =>
      t.reg Reg.RATE_ACTIVE = s.reg Reg.RATE_MODE % 256 ∧ t.reg Reg.EPOCH_T64 = s.now % 2 ^ 64 ∧
        t.reg Reg.EPOCH_FRAME = s.frame % 2 ^ 32 ∧ t.reg Reg.EPOCH_TICK = s.tick % 2 ^ 32 ∧
        bitAt t.cal.triggers trRate = true ∧ (∀ o, o ∈ t.act.outs → o.acc = 0) ∧ (s.log.queue.length < 256 →
          ∃ r, t.log.queue = s.log.queue ++ [r] ∧ r.typ = Lt.RATE_CHANGE ∧ r.seq = s.log.nextSeq)

/-- The mains phase unit (R43, R44): OFF stops it and the triac gates; from OFF a half-cycle of the nominal frequency begins in FREE_RUN; mode 2 leaves LOCKED for
FREE_RUN; three missed crossings leave LOCKED for HOLDOVER, whose time ends in FREE_RUN. A pulse of ZC_IN shorter than 50 µs, longer than 2 ms
or starting within 2 ms of the last accepted crossing is counted in `ZC_REJECTS`; an accepted one is dated at its middle less `ZC_OFFSET`,
starts ACQUIRE in FREE_RUN, and in LOCKED or HOLDOVER, within 500 µs of the prediction, holds LOCKED. -/
def Obligations.MainsPhase : Prop :=
  ((∀ (s : State) (w : Wr), s.accepts w Reg.MAINS_MODE →
     (w.val ≤ 2 → s.stores Reg.MAINS_MODE w.val →
       TakesWith (.mainsModeWrite w) s w Reg.MAINS_MODE [.mains, .act] [Reg.MAINS_STATE, Reg.HALF_PERIOD] fun t =>
         (w.val = 0 → t.reg Reg.MAINS_STATE = msOff ∧ t.mains = s.mains ∧
           ∀ n, 8 ≤ n → n < 12 → (t.out n).gate = false ∧ (t.out n).fireAt = none) ∧
         (w.val ≠ 0 → t.act = s.act ∧ (s.reg Reg.MAINS_STATE = msOff →
           t.reg Reg.MAINS_STATE = msFree ∧ t.mains.phaseRef = s.now ∧ t.mains.slewLeft = 0)) ∧
         (w.val = 2 → s.reg Reg.MAINS_STATE ≠ msOff → t.reg Reg.MAINS_STATE = msFree ∧ t.mains.slewLeft = 10)) ∧
     (2 < w.val → Refuses (.mainsModeWrite w) s w Reg.MAINS_MODE .range)) ∧
   (∀ s : State, s.reg Reg.MAINS_STATE = msLocked → Does .mainsCrossingMissed s [.mains] [Reg.MAINS_STATE] fun t =>
     t.reg Reg.MAINS_STATE = msHoldover ∧ t.mains = { s.mains with missing := 0, holdAt := s.now }) ∧
   ∀ s : State, s.reg Reg.MAINS_STATE = msHoldover → s.mains.holdAt + s.reg Reg.HOLDOVER_TIME * clkMs ≤ s.now →
     Does .holdoverExpiry s [.mains] [Reg.MAINS_STATE] fun t => t.reg Reg.MAINS_STATE = msFree ∧
       t.mains = { s.mains with slewLeft := 10, slewTarget := nominalHalf (s.reg Reg.MAINS_NOMINAL), count := 0, missing := 0 }) ∧
  (∀ (a b : Nat) (s : State), s.reg Reg.MAINS_STATE ≠ msOff →
    (b - a < 2500 ∨ 100000 < b - a ∨ ∃ c, s.mains.lastAccept = some c ∧ a < c + 2 * clkMs) →
    Does (.zcPulse a b) s [] [Reg.ZC_REJECTS] fun t => t.reg Reg.ZC_REJECTS = satInc 32 (s.reg Reg.ZC_REJECTS)) ∧
  ∀ (a b : Nat) (s : State), 2500 ≤ b - a → b - a ≤ 100000 → (∀ c, s.mains.lastAccept = some c → c + 2 * clkMs ≤ a) →
    (s.reg Reg.MAINS_STATE = msFree → s.reg Reg.MAINS_MODE = 1 →
      Does (.zcPulse a b) s [.mains] [Reg.MAINS_STATE, Reg.LAST_ZC_T64] fun t =>
        t.reg Reg.MAINS_STATE = msAcquire ∧
          t.reg Reg.LAST_ZC_T64 = (((a + b) / 2 : Nat) - s.regI Reg.ZC_OFFSET * clkUs).toNat % 2 ^ 64 ∧ t.mains.count = 0) ∧
    ((s.reg Reg.MAINS_STATE = msLocked ∨ s.reg Reg.MAINS_STATE = msHoldover) →
      (s.zcError (((a + b) / 2 : Nat) - s.regI Reg.ZC_OFFSET * clkUs).toNat).1.natAbs ≤ 25000 →
      Does (.zcPulse a b) s [.mains] [Reg.MAINS_STATE, Reg.LAST_ZC_T64, Reg.HALF_PERIOD] fun t =>
        t.reg Reg.MAINS_STATE = msLocked ∧ t.mains.missing = 0 ∧
          t.reg Reg.LAST_ZC_T64 = (((a + b) / 2 : Nat) - s.regI Reg.ZC_OFFSET * clkUs).toNat % 2 ^ 64) ∧
    (s.reg Reg.MAINS_STATE = msLocked → s.mains.missing < 2 →
      25000 < (s.zcError (((a + b) / 2 : Nat) - s.regI Reg.ZC_OFFSET * clkUs).toNat).1.natAbs →
      Does (.zcPulse a b) s [.mains] [Reg.ZC_REJECTS] fun t =>
        t.mains.missing = s.mains.missing + 1 ∧ t.reg Reg.ZC_REJECTS = satInc 32 (s.reg Reg.ZC_REJECTS))

/-! ### The frame and the focal plane -/

/-- The switching window (R18, R19): the granted edges stand at positions of the window, no two at one position, each at or after the position it
asked for where such a position is free; a triac gate edge never stands before it; every edge is granted or moves on with a
request for position 0. -/
def Obligations.EdgeGrants : Prop :=
  ∀ (n : Nat) (deferred new : List Edge),
    let g := grantWindow n deferred new
    (g.1.map Edge.pos).Nodup ∧ (∀ e ∈ g.1, e.pos < n) ∧ (∀ e ∈ g.2, e.pos = 0) ∧
      g.1.length + g.2.length = ((deferred ++ new).filter fun e => within 1 9 e.src).length ∧
      (∀ e ∈ g.1, e.src = 5 → ∃ d, (d ∈ deferred ∨ d ∈ new) ∧ d.pos ≤ e.pos ∧ d = { e with pos := d.pos }) ∧
      (∀ e ∈ g.1, ∃ d, (d ∈ deferred ∨ d ∈ new) ∧ d = { e with pos := d.pos } ∧
        (e.pos < d.pos → ∀ p, d.pos ≤ p → p < n → ∃ x ∈ g.1, x.pos = p))

/-- The slots of a frame (R17, R20, R32, R40): a row slot moves T64 by 400 clocks at 60 frames per second, else by 800; slot 0 takes the time sample
and starts the counts of the frame; slot 2064 takes the bands' readings, closes the frame and returns to a good master clock; the focal plane's
settling ends with the frame in which it was due. Where the rules leave it open it follows the model's log entries 9 and 10. -/
def Obligations.FrameSlots : Prop :=
  (∀ (i : RowIn) (s : State), s.tide.running = true →
    Does (.rowSlot i) s [.regs, .tide, .mains, .klp, .nv, .log, .bus, .berth, .act, .focal, .pipe, .cal, .video, .freeCtr] [] fun t =>
      t.now = s.now + (if t.rate = 60 then 400 else 800)) ∧
  (∀ (i : RowIn) (s : State), s.tide.running = false → Rests (.rowSlot i) s) ∧
  (∀ s : State, s.tide.running = true → s.pfail = false → s.row = 0 →
    Does .frameBoundary s [.tide, .klp, .bus, .berth, .focal, .pipe, .cal, .video] [Reg.IMAGER_ACTIVE, Reg.SHADOW_INDEX] fun t =>
      t.tide = { s.tide with sampleT64 := s.now, sampleTicks := s.rtc.ticks, degraded := decide (s.tide.source ≠ .master)
                             frameDegraded := decide (s.tide.source ≠ .master) } ∧
        t.reg Reg.SHADOW_INDEX = (s.reg Reg.SHADOW_INDEX + 1) % 40 ∧ t.pipe.replaced = 0 ∧ t.pipe.invalid = 0 ∧
        t.pipe.screened = 0 ∧ t.focal.satNow = 0 ∧ (s.phase = .dark → t.reg Reg.IMAGER_ACTIVE = imDark)) ∧
  (∀ s : State, s.tide.running = true → s.pfail = false → s.row = 0 → s.focal.settling = 1 →
    Does .settlingEnd s [.focal] [] fun t => t.focal = { s.focal with settling := 0 }) ∧
  (∀ (i : CloseIn) (s : State), s.tide.running = true → s.pfail = false → s.row = 2064 →
    Does (.frameClose i) s [.regs, .phase, .tide, .klp, .nv, .log, .bus, .berth, .act, .focal, .pipe, .cal, .video, .freeCtr] [] fun t =>
      t.act = { s.act with vin := i.vin } ∧ t.now = s.now ∧ (s.tide.returnReady = true → t.tide.source = .master ∧ t.tide.masterLost = false) ∧ (s.tide.returnReady = false → t.tide = s.tide)) ∧
  ∀ (s : State) (bands : List (Option Nat)) (n v : Nat), n < 16 → bands.getD n none = some v →
    (s.takeBands bands).reg (Reg.BAND_TEMP n) = v % 2 ^ 32

/-- A control tick (R32, R232, R254): at its first clock, with power good, every running pilot is challenged, and after STORM the quay that was to
follow takes the token if it is still STANDBY; otherwise the token stays where it is, but for a planned handover. Where the rules leave it open
it follows the model's log entries 10, 32 and 53. -/
def Obligations.ControlTick : Prop :=
  ∀ (i : TickIn) (s : State), s.tide.running = true → s.pfail = false → s.tickRow = 0 →
    Does (.controlTick i) s [.regs, .power, .video, .hm, .pwr, .klp, .nv, .log, .bus, .loop, .act, .sens, .slip, .freeCtr] [] fun t =>
      (∀ q, s.hm.takeover = none → (s.quay q).running = true → (t.quay q).challenge.isSome = true) ∧
        (∀ q, s.hm.stormExit = some q → s.hm.owner = none → s.qst q = .standby → s.hm.takeover = none →
          t.hm.owner = some q ∧ (t.quay q).st = .active ∧ t.hm.stormExit = none) ∧
        (s.hm.stormExit = none → s.hm.takeover = none → t.hm.owner = s.hm.owner)

/-- Gain and factory tables (R57, R96, R122, R139, R153): at a frame boundary without a cycle the gains change places with what goes with them and a
trigger is raised; a reload of a code word is no longer waited for; the factory tables open the pipeline in FACTORY. The focal plane's own events
(R64, R69, R71, R76, R80): a sun hold that passes without a cycle raises its trigger; a calm pair's flag is cleared; a bad band sensor is
excluded; the self-test counts what fails and takes a shadowing spare that fails twice out. Where the rules leave it open it follows the model's
log entries 40 and 47. -/
def Obligations.ImagerEvents : Prop :=
  ((∀ s : State, s.tide.running = true → s.pfail = false → s.row = 0 → s.cal.cycle = none →
     s.reg Reg.GAIN_MODE ≠ s.reg Reg.GAIN_ACTIVE →
     Does .gainChange s [.regs, .klp, .pipe, .cal, .video] [] fun t =>
       t.reg Reg.GAIN_ACTIVE = s.reg Reg.GAIN_MODE % 256 ∧ bitAt t.cal.triggers trGain = true ∧
         t.cal.parkSet = s.cal.inForce ∧ t.cal.inForce = s.cal.parkSet ∧ t.cal.parkBlind = s.pipe.blindOff ∧
         t.pipe.blindOff = s.cal.parkBlind ∧ t.pipe.prev = [] ∧ t.cal.restore = none) ∧
   (∀ (sh : Bool) (w : Nat) (s : State), (sh, w) ∈ s.pipe.reloads →
     Does (.coefReloadDone sh w) s [.pipe, .freeCtr] [Reg.COEF_RELOADS] fun t =>
       (∀ x, x ∈ t.pipe.reloads ↔ x ∈ s.pipe.reloads ∧ x ≠ (sh, w)) ∧ (sh, w) ∈ t.pipe.fresh ∧
         t.pipe.override = s.pipe.override) ∧
   ∀ (bad : List Nat) (s : State), s.phase ≠ .dark → s.pipe.ready = false → s.pfail = false →
     Does (.factoryDecompressionDone bad) s [.regs, .pipe, .cal] [] fun t =>
       t.pipe.ready = true ∧ t.pipe.badRows = bad ∧ t.pipe.blind = [] ∧ t.pipe.coef = [] ∧ t.pipe.bankOne = false ∧
         t.cal.state = 1 ∧ t.cal.inForce = factorySet (s.reg Reg.GAIN_ACTIVE)) ∧
  (∀ (n : Nat) (s : State), smapGet 0 n s.focal.strikeT ≠ 0 → (∃ p ∈ s.focal.sun, tileOf p.1 = n) →
    (∀ c, s.cal.lastStart = some c → c + 1 < smapGet 0 n s.focal.strikeT) → n ∉ s.focal.sunRaised →
    smapGet 0 n s.focal.strikeT - 1 + s.reg Reg.SUN_HOLD * clkSec ≤ s.now →
    Does (.sunHoldExpiry n) s [.focal, .cal] [] fun t =>
      bitAt t.cal.triggers trSun = true ∧ t.focal = { s.focal with sunRaised := n :: s.focal.sunRaised }) ∧
  (∀ (n : Nat) (s : State), n < 7 → s.regBit Reg.GRADIENT_FLAGS n = true → 60 ≤ s.focal.clearRun.getD n 0 →
    Does (.gradientClear n) s [.klp, .bus] [Reg.GRADIENT_FLAGS] fun t =>
      t.regBit Reg.GRADIENT_FLAGS n = false ∧ ∀ m, m < 7 → m ≠ n → t.regBit Reg.GRADIENT_FLAGS m = s.regBit Reg.GRADIENT_FLAGS m) ∧
  (∀ (n : Nat) (s : State), n < 16 → (n ∈ s.focal.sensorBad ∨ 16 ≤ s.focal.disagree.getD n 0) →
    Does (.bandSensorExcluded n) s [] [Reg.SENSOR_EXCLUDED] fun t =>
      t.regBit Reg.SENSOR_EXCLUDED n = true ∧
        ∀ m, m < 16 → m ≠ n → t.regBit Reg.SENSOR_EXCLUDED m = s.regBit Reg.SENSOR_EXCLUDED m) ∧
  ∀ (codes : List Nat) (s : State), s.tide.running = true → s.pfail = false → s.row = 2065 → s.focal.bias = true →
    Does (.converterSelfTest codes) s [.log, .focal, .freeCtr] [Reg.TEST_FAILS] fun t =>
      t.reg Reg.TEST_FAILS = satAdd 32 (s.reg Reg.TEST_FAILS) (s.focal.testFails (s.reg Reg.TEST_TOLERANCE) codes) ∧
        ∀ n, n < 64 → (s.focal.groups.getD n default).st = 1 → 1 ≤ (s.focal.groups.getD n default).fails →
          s.focal.passes (s.reg Reg.TEST_TOLERANCE) (2560 + n) (codes.getD (2560 + n) 0) = false →
          (t.focal.groups.getD n default).st = 3

/-- The calibration manager's waits (R98, R140, R154, R157, R161): the interval and the bring-up raise their triggers; a factory fill ends ready for
its switch; the qualification ends with `QUAL_FAILED`; an abandoned restore and an idle read of `OUT_FRAME` end. Where the rules leave it open it
follows the model's log entry 47. -/
def Obligations.CalibrationWaits : Prop :=
  (∀ (t0 : Nat) (s : State), (s.cal.lastAccept = some t0 ∨ (s.cal.lastAccept = none ∧ s.cal.imagerStart = some t0)) →
    s.cal.cycle = none → s.cal.state ≠ 0 → t0 + s.reg Reg.CAL_INTERVAL * 60 * clkSec ≤ s.now →
    Does .intervalExpiry s [.cal] [] fun t => t.cal = { s.cal with triggers := bitOn s.cal.triggers trInterval }) ∧
  (∀ (t0 : Nat) (s : State), s.cal.imagerStart = some t0 → s.cal.state = 1 →
    (s.settled = true ∨ t0 + s.reg Reg.SETTLE_MAX * clkSec ≤ s.now) →
    Does .bringUpTrigger s [.cal] [] fun t => t.cal = { s.cal with triggers := bitOn s.cal.triggers trBringUp }) ∧
  (∀ s : State, s.cal.chamber = .filling true → Does .chamberFillDone s [.pipe, .cal] [] fun t =>
    t.cal = { s.cal with chamber := .factory } ∧ t.pipe = s.pipe.setChamber (factoryOffs (s.reg Reg.GAIN_ACTIVE))) ∧
  (∀ s : State, s.cal.chamber = .filling false → s.cal.bandsDone = [] → Does .chamberFillDone s [.pipe, .cal] [] fun t =>
    t.pipe = s.pipe ∧ t.cal = { s.cal with
      chamber := if s.cal.openBands = [] ∧ s.cal.restore = none then .empty else .primed }) ∧
  (∀ (sums : List (List Nat)) (codes : List Nat) (s : State), s.cal.qual = true →
    Does (.spareQualificationDone sums codes) s [.focal, .cal] [Reg.QUAL_FAILED, Reg.SMALL_RESULT, Reg.SPARE_MISMATCH] fun t =>
      t.cal = { s.cal with qual := false } ∧
        ((∀ n, n < 64 → s.groupQualifies sums n = true) → t.reg Reg.QUAL_FAILED = 0 ∧ t.regBit Reg.SMALL_RESULT 1 = false) ∧
        ∀ n, n < 64 → s.groupQualifies sums n = true → (s.focal.groups.getD n default).st = 0 →
          (t.focal.groups.getD n default).next = some qualPass) ∧
  (∀ (r : Restore) (s : State), s.cal.restore = some r → r.last + 10 * clkSec ≤ s.now → s.cal.chamber ≠ .restored →
    Does .restoreTimeout s [.cal] [] fun t => t.cal.restore = none ∧
      t.cal.chamber = (if s.cal.openBands = [] ∧ s.cal.chamber = .primed then .empty else s.cal.chamber)) ∧
  ∀ s : State, Does .outFrameReadTimeout s [.klp] [] fun t => t.klp = { s.klp with transfers := t.klp.transfers } ∧
    ∀ x, x ∈ t.klp.transfers ↔ x ∈ s.klp.transfers ∧
      ¬(x.key = Reg.OUT_FRAME ∧ x.write = false ∧ x.last + 10 * clkSec ≤ s.now)

/-! ### Berths -/

/-- Berth events (R183, R186): outside frozen frames, an alarm is raised once `ALARM_FRAMES` frames lay beyond a limit, the high one first, and
cleared after as many within it; a presence berth becomes occupied after `PRESENCE_ON` frames and vacant after its `PRESENCE_OFF`. The counts
start afresh with each change (log entry 65). Only that run changes. A publication (R187): in slot 2068 every berth's result is published with
the frame's number and close, its events leave with it, and the stream may send the table. Where the rules leave it open it follows the model's
log entries 10 and 65. -/
def Obligations.BerthFrames : Prop :=
  (∀ (n : Nat) (s : State), s.frozen = false →
     (Does (.berthAlarmRaise n) s [.berth] [] fun t => t.berth = { s.berth with runs := s.berth.runs.map fun r =>
       if r.num = n ∧ r.alarm = 0 ∧ (s.berthNow n 0x0C) ≤ r.hi then { r with alarm := 1, hi := 0, lo := 0, clr := 0, events := r.events ++ [(1, 0)] }
       else if r.num = n ∧ r.alarm = 0 ∧ (s.berthNow n 0x0C) ≤ r.lo then
         { r with alarm := 2, hi := 0, lo := 0, clr := 0, events := r.events ++ [(2, 0)] }
       else r }) ∧
     (Does (.berthAlarmClear n) s [.berth] [] fun t => t.berth = { s.berth with runs := s.berth.runs.map fun r =>
       if r.num = n ∧ r.alarm ≠ 0 ∧ (s.berthNow n 0x0C) ≤ r.clr then
         { r with alarm := 0, hi := 0, lo := 0, clr := 0, events := r.events ++ [(0, 0)] }
       else r }) ∧
     (Does (.berthOccupied n) s [.berth] [] fun t => t.berth = { s.berth with runs := s.berth.runs.map fun r =>
       if r.num = n ∧ (s.berthKind n) = 3 ∧ r.occ = false ∧ (s.berthNow n 0x12) ≤ r.on then
         { r with occ := true, visits := satInc 32 r.visits, came := r.came ++ [true] }
       else r }) ∧
     Does (.berthVacant n) s [.berth] [] fun t => t.berth = { s.berth with runs := s.berth.runs.map fun r =>
       if r.num = n ∧ r.occ = true ∧ (s.berthNow n 0x13) * (if s.rate = 60 then 60 else 30) ≤ r.away then
         { r with occ := false, came := r.came ++ [false] }
       else r }) ∧
  ∀ s : State, s.tide.running = true → s.pfail = false → s.row = 2068 →
    Does .tablePublication s [.klp, .log, .bus, .berth, .loop, .act, .video] [Reg.REPORTS_DEFERRED, Reg.SOURCE_CHANGES] fun t =>
      t.berth = { s.berth with
        runs := s.berth.runs.map s.publishBerth, tableFrame := s.frame, tableT64 := s.berth.tableNext
        tableStatus := s.engineStatus, deferred := t.berth.deferred } ∧
      (∀ r ∈ t.berth.runs, r.events = [] ∧ r.came = [] ∧ r.edited = false) ∧
      t.video = { s.video with vc1Go := s.video.vc1Go || s.video.running } ∧ (s.storm = true → t.berth.deferred = s.berth.deferred)

/-- Writes of a definition (R172, R173): one that a check refuses is answered with that check's status and changes nothing; one that passes changes the
pending definition alone and waits for the frame boundary; `EDIT_HOLD` takes 0 and 1. -/
def Obligations.BerthWrites : Prop :=
  (∀ (n sub : Nat) (s : State) (w : Wr), s.accepts w (berthKey n sub) →
    let checked := s.berthCheck (s.levelOf w.req.id) (s.transferOpen Reg.BERTH_TABLE true)
      (if sub = 1 ∨ sub = 2 then s.rowsHold n sub w.val else true) n (s.berthWritten n)
      fun b => if b = sub then w.val else s.berthWritten n b
    (∀ st, checked = some st → Refuses (.berthEntryWrite n sub w) s w (berthKey n sub) st) ∧
    (checked = none → Obeys (.berthEntryWrite n sub w) s w (berthKey n sub) [.berth] [berthKey n sub] fun t =>
      t.reg (berthKey n sub) = w.val % 2 ^ keyBits (berthKey n sub) ∧ n ∈ t.berth.pend ∧
        t.berth = { s.berth with pend := t.berth.pend })) ∧
  ∀ (s : State) (w : Wr), s.accepts w Reg.EDIT_HOLD → w.val ≤ 1 → s.stores Reg.EDIT_HOLD w.val →
    Takes (.editHoldWrite w) s w Reg.EDIT_HOLD

/-! ### The harbourmaster -/

/-- Heartbeats (R231): a request reaches the running quays; a strobe counts in the last 250 clocks of its window and is a wild one elsewhere; a window
without a strobe is a miss, and the third miss in a row is a fault. -/
def Obligations.Heartbeats : Prop :=
  (∀ s : State, Does .heartbeatRequest s [.hm] [] fun t =>
    ∀ q, t.quay q = if (s.quay q).running then { s.quay q with requested := true } else s.quay q) ∧
  (∀ (q : Quay) (at_ : Nat) (s : State), (s.quay q).running = true →
    (2250 ≤ at_ % 2500 → Does (.heartbeatStrobe q at_) s [.hm] [] fun t =>
      t.quay q = { s.quay q with counted := true, misses := 0, lastStrobe := at_, requested := false } ∧
        t.quay q.other = s.quay q.other) ∧
    (at_ % 2500 < 2250 → Does (.heartbeatStrobe q at_) s [] [Reg.WILD_STROBES] fun t =>
      t.reg Reg.WILD_STROBES = satInc 32 (s.reg Reg.WILD_STROBES))) ∧
  (∀ s : State, s.pfail = false →
    (∀ q, (s.quay q).running = true → (s.quay q).counted = true ∨ (s.quay q).misses < 2) →
    Does .heartbeatWindowEnd s [.hm] [Reg.HB_MISSES] fun t => ∀ q, t.quay q =
      if (s.quay q).running = false then s.quay q
      else if (s.quay q).counted then { s.quay q with counted := false, requested := false }
      else { s.quay q with misses := (s.quay q).misses + 1, requested := false }) ∧
  ∀ (q : Quay) (s : State), s.inService q → (s.quay q).running = true → (s.quay q).counted = false → 2 ≤ (s.quay q).misses →
    ((s.quay q.other).running = true → (s.quay q.other).counted = true) →
    QuayFalls .heartbeatWindowEnd s q (s.quay q).lastStrobe

/-- The other ways a quay's fault is found (R38, R41, R232, R233, R238): a challenge answered rightly is over; answered wrongly or not at all, or a
watchdog not restarted in time, a lost clock, a rail out of limits, a takeover not completed: each is a fault of the quay. Where the rules leave
it open it follows the model's log entry 32. -/
def Obligations.QuayFaults : Prop :=
  (∀ (q : Quay) (v c : Nat) (s : State), (s.quay q).challenge = some c →
    (v % 2 ^ 32 = Config.coreTest c % 2 ^ 32 → Does (.selfCheckResponse q v) s [.hm] [] fun t =>
      t.quay q = { s.quay q with challenge := none } ∧ t.quay q.other = s.quay q.other) ∧
    (s.inService q → v % 2 ^ 32 ≠ Config.coreTest c % 2 ^ 32 → QuayFalls (.selfCheckResponse q v) s q s.now) ∧
    (s.inService q → QuayFalls (.selfCheckTimeout q) s q s.now)) ∧
  (∀ (q : Quay) (s : State), (s.quay q).running = true →
    (Does (.watchdogRestart q) s [.hm] [] fun t =>
      t.quay q = { s.quay q with wdStart := s.now } ∧ t.quay q.other = s.quay q.other) ∧
    (s.inService q → (s.quay q).wdStart + s.reg Reg.WATCHDOG_TIMEOUT * clkMs ≤ s.now → QuayFalls (.watchdogExpiry q) s q s.now)) ∧
  (∀ (q : Quay) (s : State), s.inService q →
    QuayFalls (.quayClockFault q) s q s.now ∧ QuayFalls (.quayRailFault q) s q s.now) ∧
  ∀ (k : Takeover) (s : State), s.hm.takeover = some k → k.planned = false → s.inService k.dest →
    QuayFalls .takeoverTimeout s k.dest s.now

/-- A takeover completes (R237, R238, R256): the outage, in ns, is in `LAST_OUTAGE` and no larger than `MAX_OUTAGE`, no takeover runs, and the
salvage waits 10 ticks where `SALVAGE_ON_FAILOVER` asks for one. Memory faults and the vote (R223, R244): a pilot's memory error is pushed at
level RETRY; a retry that succeeds pops it with outcome 1, one that fails makes it a fault of the quay; a copy that disagrees with two that agree
sets the vote fault, and no two that agree reset the device. Where the rules leave it open it follows the model's log entry 32. -/
def Obligations.TakeoverAndVote : Prop :=
  (∀ (k : Takeover) (at_ : Nat) (s : State), s.hm.takeover = some k → k.planned = false →
     Does (.takeoverComplete at_) s [.regs, .hm, .klp, .log, .bus, .loop, .act, .slip] [] fun t =>
       t.hm.takeover = none ∧ t.hm.owner = s.hm.owner ∧
         t.hm.salvageIn = (if s.reg Reg.SALVAGE_ON_FAILOVER = 1 then some 10 else none) ∧
         t.reg Reg.LAST_OUTAGE = (at_ - k.start) * 20 % 2 ^ 32 ∧ t.reg Reg.LAST_OUTAGE ≤ t.reg Reg.MAX_OUTAGE) ∧
  (∀ (q : Quay) (m addr : Nat) (s : State), (s.quay q).running = true → s.pfail = false → s.hm.stack.length < 4 →
    Does (.pilotMemoryError q m addr) s [.regs, .hm, .klp, .nv, .log, .bus, .loop, .act, .panel, .slip, .freeCtr] [] fun t =>
      ∃ f, t.hm.stack = f :: s.hm.stack ∧ f.cause = causeMemory ∧ f.level = 1 ∧ f.quay = q.code ∧ f.outcome = 0) ∧
  (∀ (q : Quay) (f : FaultEntry) (s : State), s.hm.stack.find? (FaultEntry.retrying q) = some f →
    (Does (.memoryRetryOutcome q true) s [.hm] [] fun t =>
      t.hm = { s.hm with stack := s.hm.stack.erase f, last := some { f with outcome := 1 } }) ∧
    (s.inService q → Does (.memoryRetryOutcome q false) s
      [.tide, .hm, .klp, .nv, .log, .bus, .loop, .act, .cal, .panel, .slip, .freeCtr]
      [Reg.FAILOVERS, Reg.SALVAGE_SUPPRESSED, Reg.STACK_OVERFLOWS, Reg.STORM_ENTRIES, Reg.TABLE_TAKEOVERS] fun t =>
        (t.quay q).st = .selfTest ∧ (t.quay q).inReset = true ∧ t.hm.owner ≠ some q)) ∧
  (∀ (c : Nat) (s : State), ∃ t, exec (.hmVoteMismatch c false) s = .next t ∧ Darkened s t 1) ∧
  ∀ (c : Nat) (s : State), Does (.hmVoteMismatch c true) s
    [.hm, .klp, .nv, .log, .bus, .loop, .act, .panel, .slip, .freeCtr]
    [Reg.SALVAGE_SUPPRESSED, Reg.STACK_OVERFLOWS, Reg.STORM_ENTRIES, Reg.TABLE_TAKEOVERS] fun t => t.hm.voteFault = true

/-- The wharf and the checkpoints (R221, R225, R234, R235): a write of the owner reaches its output or fan, any other is counted and dropped; a good
checkpoint at a quay that can read it makes the standby ready; the second bad one in a row ends that. Where the rules leave it open it follows
the model's log entries 31 and 32. -/
def Obligations.WharfAndCheckpoints : Prop :=
  (∀ (q : Quay) (o v : Nat) (s : State), s.hm.owner = some q → s.storm = false → s.pfail = false →
    (o < 16 → Does (.wharfWrite q o v) s [.act] [] fun t =>
      t.act = { s.act with outs := s.act.outs.set o { s.out o with next := some (v % 4096), hmValue := false, off := false } }) ∧
    (∀ c, c < 2 → c < s.act.fans.length → (s.engine c).held = false → Does (.wharfWrite q (16 + c) v) s [.klp, .bus, .act] [] fun t =>
      (t.fan c).cmd = v % 65536) ∧
    (18 ≤ o → Does (.wharfWrite q o v) s [] [Reg.WHARF_REJECTS] fun t =>
      t.reg Reg.WHARF_REJECTS = satInc 32 (s.reg Reg.WHARF_REJECTS))) ∧
  (∀ (q : Quay) (o v : Nat) (s : State), (s.hm.owner ≠ some q ∨ s.storm = true) → Does (.wharfWrite q o v) s [] [Reg.WHARF_REJECTS] fun t =>
    t.reg Reg.WHARF_REJECTS = satInc 32 (s.reg Reg.WHARF_REJECTS)) ∧
  (∀ (x : Quay) (len : Nat) (s : State), s.hm.owner = some x → s.qst x.other = .standby → s.canRead x.other = true →
    s.hm.takeover = none →
    Does (.checkpointArrival true len) s [.hm] [Reg.CHECKPOINT_BYTES, Reg.CHECKPOINT_TICK] fun t =>
      t.hm = { s.hm with mirror := t.hm.mirror, mirrorBad := 0, standbyReady := true } ∧
        t.reg Reg.CHECKPOINT_BYTES = len % 2 ^ 32 ∧ t.reg Reg.CHECKPOINT_TICK = s.tick ∧
        ∃ k, t.hm.mirror = some k ∧ k.tick = s.tick ∧ k.length = len ∧ k.loops = s.loop.runs ∧ k.t64 = s.now) ∧
  ∀ (x : Quay) (good : Bool) (len : Nat) (s : State), s.hm.owner = some x → s.qst x.other = .standby →
    (good = false ∨ s.canRead x.other = false) → Does (.checkpointArrival good len) s
      [.hm, .klp, .nv, .log, .bus, .loop, .act, .panel, .slip, .freeCtr]
      [Reg.CHECKPOINT_BAD, Reg.CHECKPOINT_BYTES, Reg.CHECKPOINT_TICK, Reg.SALVAGE_SUPPRESSED, Reg.STACK_OVERFLOWS,
        Reg.STORM_ENTRIES, Reg.TABLE_TAKEOVERS] fun t =>
      t.reg Reg.CHECKPOINT_BAD = satInc 32 (s.reg Reg.CHECKPOINT_BAD) ∧ t.hm.mirror = s.hm.mirror ∧
        t.hm.mirrorBad = s.hm.mirrorBad + 1 ∧ (s.hm.mirrorBad = 1 → t.hm.standbyReady = false)

/-- A quay's course into service (R228 to R230, R235): out of reset the self-test runs; a pass gives the token where no quay holds it and none is
awaited, a place in SYNCING beside an owner and STANDBY in STORM; a failed test, or too many failures within 24 h, is OUT; a quay that can read
the checkpoints comes from SYNCING to STANDBY; a failure is forgotten after 24 h of RTC ticks. Where the rules leave it open it follows the
model's log entry 32. -/
def Obligations.QuayCourse : Prop :=
  (∀ (q : Quay) (s : State), s.qst q = .selfTest → Does (.quayResetRelease q) s [.hm] [] fun t =>
    t.quay q = { s.quay q with inReset := false } ∧ t.quay q.other = s.quay q.other) ∧
  (∀ (q : Quay) (s : State), (s.quay q).st = .selfTest → (s.quay q).inReset = false → (s.quay q).passHeld = false →
    (((s.quay q).forced = true ∨ (s.quay q).fails.length < s.reg Reg.REJOIN_LIMIT) →
      Does (.quaySelfTestDone q true) s [.hm, .pwr] [Reg.OWNER_MS] fun t =>
        (s.storm = true → (t.quay q).st = .standby ∧ t.hm.owner = s.hm.owner) ∧
        (s.storm = false → s.hm.owner = some q.other → (t.quay q).st = .syncing ∧ t.hm.owner = s.hm.owner) ∧
        (s.storm = false → s.hm.owner ≠ some q.other → s.qst q.other ≠ .active →
          (q = s.preferred ∨ s.qst q.other ≠ .selfTest ∨ (s.quay q.other).passHeld = true) →
          t.hm.owner = some q ∧ (t.quay q).st = .active ∧ t.pwr.owned = true) ∧
        (s.storm = false → s.hm.owner = none → s.qst q.other = .selfTest → (s.quay q.other).passHeld = false → q ≠ s.preferred →
          (t.quay q).passHeld = true ∧ t.hm.owner = none)) ∧
    Does (.quaySelfTestDone q false) s [.tide, .hm, .klp, .bus, .pwr] [Reg.OWNER_MS] fun t =>
      (t.quay q).st = .out ∧ (t.quay q).inReset = true ∧
        ((s.quay q.other).passHeld = true → (s.quay q.other).st = .selfTest → s.storm = false → t.hm.owner = some q.other)) ∧
  (∀ (q : Quay) (s : State), (s.quay q).st = .selfTest → (s.quay q).passHeld = true → s.noneActive = true → s.storm = false →
    (s.quay q).standbyAt + 200 * clkMs ≤ s.now → Does (.passHoldTimeout q) s [.hm, .pwr] [Reg.OWNER_MS] fun t =>
      t.hm.owner = some q ∧ (t.quay q).st = .active ∧ (t.quay q).passHeld = false ∧ t.quay q.other = s.quay q.other) ∧
  (∀ (q : Quay) (s : State), s.qst q = .syncing → s.qst q.other = .active → s.canRead q = true →
    Does (.quaySyncDone q) s [.hm, .log] [] fun t => (t.quay q).st = .standby ∧ t.hm.standbyReady = true) ∧
  ∀ (q : Quay) (t0 : Nat) (rest : List Nat) (s : State), (s.quay q).fails = t0 :: rest → t0 + 24 * 3600 * 32768 ≤ s.rtc.ticks →
    Does (.quayFailWindowExpiry q) s [.hm] [] fun t =>
      t.quay q = { s.quay q with fails := rest } ∧ t.quay q.other = s.quay q.other

/-- Salvage and STORM (R249 to R251, R254 to R256): the salvage due after a failover is written; its release frees the summary; STORM is left by
itself 60 s after its last fault where `STORM_AUTO_EXIT` is 1, by command where a standby waits, and entered by command; a storm value of an
output takes effect at once where the output shows one. Where the rules leave it open it follows the model's log entries 32 and 55. -/
def Obligations.SalvageAndStorm : Prop :=
  (∀ (q : Quay) (s : State), s.hm.salvageIn = some 0 → s.hm.owner = some q →
    Does .salvageAfterFailover s [.hm, .nv, .log] [Reg.SALVAGE_SUPPRESSED] fun t =>
      t.hm.salvageIn = none ∧ t.hm.owner = some q ∧ (∃ v, t.hm.salvage = some v ∧ v.writer = q.code ∧ v.trigger = 1 ∧ v.t64 = s.now) ∧
        t.hm.summary.isSome = true ∧ (∀ v, s.hm.summary = some v → t.hm.summary = some v)) ∧
  (∀ (s : State) (w : Wr), s.accepts w Reg.SALVAGE_RELEASE → Obeys (.salvageRelease w) s w Reg.SALVAGE_RELEASE [.hm] [] fun t =>
    t.hm = if w.val = 1 then { s.hm with summary := none } else s.hm) ∧
  (∀ (q : Quay) (s : State), s.storm = true → s.reg Reg.STORM_AUTO_EXIT = 1 → s.standbyQuay = some q →
    (s.quay q).standbyAt + 60 * clkSec ≤ s.now → (∀ n, s.hm.lastPush = some n → n + 60 * clkSec ≤ s.now) →
    Does .stormAutoExit s [.hm, .klp, .log, .bus, .loop, .panel] [Reg.TABLE_TAKEOVERS] fun t =>
      t.storm = false ∧ t.hm.stormExit = some q ∧ bitAt t.klp.irq irqStorm = true) ∧
  (∀ (r : Req) (q : Quay) (s : State), s.accepts { req := r, len := 1, val := 3 } Reg.HM_COMMAND → s.storm = true →
    s.standbyQuay = some q → Does (.hmStormExit r) s [.hm, .klp, .log, .bus, .loop, .panel] [Reg.TABLE_TAKEOVERS] fun t =>
      t.storm = false ∧ t.hm.stormExit = some q ∧ bitAt t.klp.irq irqStorm = true) ∧
  (∀ (r : Req) (s : State), s.accepts { req := r, len := 1, val := 4 } Reg.HM_COMMAND → s.pfail = false → s.storm = false →
    Does (.hmStormEnter r) s [.hm, .klp, .nv, .log, .bus, .loop, .act, .panel, .slip, .freeCtr]
      [Reg.SALVAGE_SUPPRESSED, Reg.STACK_OVERFLOWS, Reg.STORM_ENTRIES, Reg.TABLE_TAKEOVERS] fun t =>
      t.storm = true ∧ t.hm.owner = none ∧ (s.hm.stack.length < 4 → t.hm.stormManual = true)) ∧
  (∀ (n : Nat) (s : State) (w : Wr), s.accepts w (0x171000 + n) → 1 ≤ n → n ≤ 16 →
    (stormAction w.val ≠ 3 → field w.val 12 2 = 0 → s.stores (0x171000 + n) w.val →
      ((s.out (n - 1)).hmValue = false → s.storm = false → Takes (.stormValueWrite n w) s w (0x171000 + n)) ∧
      ((s.storm = true ∨ (s.out (n - 1)).hmValue = true) → n - 1 < s.act.outs.length →
        TakesWith (.stormValueWrite n w) s w (0x171000 + n) [.act] [] fun t =>
          (t.out (n - 1)).hmValue = true ∧ (t.out (n - 1)).next = none ∧
            (stormAction w.val = 0 → (t.out (n - 1)).level = (s.out (n - 1)).level) ∧
            (stormAction w.val = 1 → (t.out (n - 1)).level = stormLevel w.val ∧ (t.out (n - 1)).off = false) ∧
            (stormAction w.val = 2 → (t.out (n - 1)).off = true))) ∧
    ((stormAction w.val = 3 ∨ field w.val 12 2 ≠ 0) → Refuses (.stormValueWrite n w) s w (0x171000 + n) .range)) ∧
  ∀ (n : Nat) (s : State) (w : Wr), s.accepts w (0x171000 + n) → 17 ≤ n → inRange (0x171000 + n) w.val = true →
    s.stores (0x171000 + n) w.val →
    ((n ≠ 18 ∨ s.storm = false) → Takes (.stormValueWrite n w) s w (0x171000 + n)) ∧
      (s.storm = true → TakesWith (.stormValueWrite n w) s w (0x171000 + n) [.bus] [] fun _ => True)

/-- `HM_COMMAND` (R227): a swap only with DUPLEX and no takeover running; a rejoin test for a quay that is OUT; a retirement that leaves another quay
able to serve; the failure counts cleared. Where the rules leave it open it follows the model's log entry 32. -/
def Obligations.HmCommands : Prop :=
  (∀ (r : Req) (s : State), s.accepts { req := r, len := 1, val := 1 } Reg.HM_COMMAND →
    (s.hm.takeover ≠ none → Refuses (.hmSwap r) s { req := r, len := 1, val := 1 } Reg.HM_COMMAND .busy) ∧
    (s.hm.takeover = none → s.duplex = false → Refuses (.hmSwap r) s { req := r, len := 1, val := 1 } Reg.HM_COMMAND .state) ∧
    (∀ q, s.hm.takeover = none → s.duplex = true → s.standbyQuay = some q →
      Obeys (.hmSwap r) s { req := r, len := 1, val := 1 } Reg.HM_COMMAND [.hm] [] fun t =>
        t.hm = { s.hm with takeover := some { dest := q, start := s.now, cause := 0, planned := true } })) ∧
  (∀ (r : Req) (s : State), s.accepts { req := r, len := 1, val := 2 } Reg.HM_COMMAND →
    (s.qst .a ≠ .out → s.qst .b ≠ .out → Refuses (.hmRejoinTest r) s { req := r, len := 1, val := 2 } Reg.HM_COMMAND .state) ∧
    ((s.qst .a = .out ∨ s.qst .b = .out) → Does (.hmRejoinTest r) s [.hm, .klp, .bus] [] fun t =>
      ∀ q, (s.qst q = .out → (t.quay q).st = .selfTest ∧ (t.quay q).inReset = false ∧ (t.quay q).forced = true) ∧
        (s.qst q ≠ .out → t.quay q = s.quay q))) ∧
  (∀ (r : Req) (s : State),
    (s.accepts { req := r, len := 1, val := 5 } Reg.HM_COMMAND →
      (s.qst .b = .out ∨ s.qst .b = .off → Refuses (.hmRetireA r) s { req := r, len := 1, val := 5 } Reg.HM_COMMAND .state) ∧
      (s.qst .a = .active → s.duplex = true → s.hm.takeover = none →
        Does (.hmRetireA r) s [.tide, .hm, .klp, .bus, .loop, .pwr] [Reg.OWNER_MS] fun t =>
          (t.quay .a).st = .out ∧ t.hm.owner = some .b ∧ (t.quay .b).st = .active)) ∧
    (s.accepts { req := r, len := 1, val := 6 } Reg.HM_COMMAND →
      (s.qst .a = .out ∨ s.qst .a = .off → Refuses (.hmRetireB r) s { req := r, len := 1, val := 6 } Reg.HM_COMMAND .state) ∧
      (s.qst .b = .active → s.duplex = true → s.hm.takeover = none →
        Does (.hmRetireB r) s [.tide, .hm, .klp, .bus, .loop, .pwr] [Reg.OWNER_MS] fun t =>
          (t.quay .b).st = .out ∧ t.hm.owner = some .a ∧ (t.quay .a).st = .active))) ∧
  ∀ (r : Req) (s : State), s.accepts { req := r, len := 1, val := 7 } Reg.HM_COMMAND →
    Obeys (.hmClearCounts r) s { req := r, len := 1, val := 7 } Reg.HM_COMMAND [.hm] [] fun t =>
      (∀ q, t.quay q = { s.quay q with fails := [] }) ∧ t.hm.voteFault = false ∧ t.hm.owner = s.hm.owner

/-! ### Calibration commands, imager and stream -/

/-- `CAL_COMMAND` (R138, R140, R151, R152, R161, R166): each code does its work and answers OK; while a cycle runs, a cycle, a shutter test and a
factory load are BUSY; the codes that need SERVICE answer ACCESS below it; an abort clears every pending trigger and settles a live cycle with
reason COMMAND. Where the rules leave it open it follows the model's log entry 47. -/
def Obligations.CalibrationCommands : Prop :=
  (∀ (r : Req) (s : State), s.accepts { req := r, len := 1, val := 1 } Reg.CAL_COMMAND →
    (s.cal.cycle ≠ none → Refuses (.calCycle r) s { req := r, len := 1, val := 1 } Reg.CAL_COMMAND .busy) ∧
    (s.cal.cycle = none → Obeys (.calCycle r) s { req := r, len := 1, val := 1 } Reg.CAL_COMMAND [.cal] [] fun t =>
      t.cal = { s.cal with triggers := bitOn s.cal.triggers trCommand })) ∧
  (∀ (r : Req) (s : State), s.accepts { req := r, len := 1, val := 2 } Reg.CAL_COMMAND →
    (s.levelOf r.id < 2 → Refuses (.calCycleRef r) s { req := r, len := 1, val := 2 } Reg.CAL_COMMAND .access) ∧
    (2 ≤ s.levelOf r.id → s.cal.cycle ≠ none → Refuses (.calCycleRef r) s { req := r, len := 1, val := 2 } Reg.CAL_COMMAND .busy) ∧
    (2 ≤ s.levelOf r.id → s.cal.cycle = none →
      Obeys (.calCycleRef r) s { req := r, len := 1, val := 2 } Reg.CAL_COMMAND [.cal] [] fun t =>
        bitAt t.cal.triggers trCommand = true ∧ bitAt t.cal.triggers trRef = true ∧
          t.cal = { s.cal with triggers := t.cal.triggers })) ∧
  (∀ (r : Req) (s : State), s.accepts { req := r, len := 1, val := 3 } Reg.CAL_COMMAND →
    Obeys (.calAbort r) s { req := r, len := 1, val := 3 } Reg.CAL_COMMAND [.cal] [] fun t =>
      t.cal = { s.cal with
        triggers := 0, cycle := s.cal.cycle.map fun c => if c.live then { c with due := 7 } else c }) ∧
  (∀ (r : Req) (s : State), s.accepts { req := r, len := 1, val := 4 } Reg.CAL_COMMAND →
    (s.levelOf r.id < 2 → Refuses (.calQualifySpares r) s { req := r, len := 1, val := 4 } Reg.CAL_COMMAND .access) ∧
    (2 ≤ s.levelOf r.id → s.cal.qual = true → Refuses (.calQualifySpares r) s { req := r, len := 1, val := 4 } Reg.CAL_COMMAND .busy) ∧
    (2 ≤ s.levelOf r.id → s.cal.qual = false →
      Obeys (.calQualifySpares r) s { req := r, len := 1, val := 4 } Reg.CAL_COMMAND [.cal] [] fun t =>
        t.cal = { s.cal with qual := true })) ∧
  (∀ (r : Req) (s : State), s.accepts { req := r, len := 1, val := 5 } Reg.CAL_COMMAND → 2 ≤ s.levelOf r.id →
    (s.cal.cycle ≠ none → Refuses (.calShutterTest r) s { req := r, len := 1, val := 5 } Reg.CAL_COMMAND .busy) ∧
    (s.cal.cycle = none → s.focal.shutter.closing = none → s.focal.shutter.present = false →
      Refuses (.calShutterTest r) s { req := r, len := 1, val := 5 } Reg.CAL_COMMAND .state) ∧
    (s.cal.cycle = none → s.focal.shutter.closing = none → s.focal.shutter.present = true →
      Obeys (.calShutterTest r) s { req := r, len := 1, val := 5 } Reg.CAL_COMMAND [.focal, .cal] [] fun t =>
        (∃ c, t.cal.cycle = some c ∧ c.test = true) ∧ t.focal.shutter.closing = some true ∧
          t.focal.shutter.left = shutterSteps s.rate (s.reg Reg.SHUTTER_TRAVEL))) ∧
  ∀ (r : Req) (s : State), s.accepts { req := r, len := 1, val := 6 } Reg.CAL_COMMAND → 2 ≤ s.levelOf r.id →
    (s.cal.cycle ≠ none → Refuses (.calLoadFactory r) s { req := r, len := 1, val := 6 } Reg.CAL_COMMAND .busy) ∧
    (s.cal.cycle = none → s.cal.chamber = .empty → s.cal.restore = none → s.cal.state ≠ 0 →
      s.transferOpen Reg.OFFSET_LOAD true = false → s.transferOpen Reg.CAL_SET true = false →
      Obeys (.calLoadFactory r) s { req := r, len := 1, val := 6 } Reg.CAL_COMMAND [.cal] [] fun t =>
        t.cal = { s.cal with chamber := .filling true })

/-- The imager's settings (R57, R67, R81, R107, R112, R126, R127, R215): each takes a value of its range; a mode or form the link could not carry is out of range; RAW is refused with STATE
while anything is screened; a new filter setting makes every filter state invalid; the lens becomes the host's; the clearing level of
the gradient stays at or below its limit; a spare group takes its state at the next boundary unless its state is UNQUALIFIED or FAILED. -/
def Obligations.ImagerSettings : Prop :=
  (∀ (s : State) (w : Wr), s.accepts w Reg.GAIN_MODE →
    (w.val ≤ 1 → s.stores Reg.GAIN_MODE w.val → Takes (.gainModeWrite w) s w Reg.GAIN_MODE) ∧
    (1 < w.val → Refuses (.gainModeWrite w) s w Reg.GAIN_MODE .range)) ∧
  (∀ (s : State) (w : Wr), s.accepts w Reg.IMAGER_MODE →
    (s.linkRefuses { s.linkCfg with mode := w.val } = true ∨ 3 < w.val → Refuses (.imagerModeWrite w) s w Reg.IMAGER_MODE .range) ∧
    (s.linkRefuses { s.linkCfg with mode := w.val } = false → w.val ≤ 3 → s.stores Reg.IMAGER_MODE w.val →
      Takes (.imagerModeWrite w) s w Reg.IMAGER_MODE)) ∧
  (∀ (s : State) (w : Wr), s.accepts w Reg.OUTPUT_FORM →
    (w.val = 2 → s.anyScreened = true → Refuses (.outputFormWrite w) s w Reg.OUTPUT_FORM .state) ∧
    (w.val ≠ 2 → (s.linkRefuses { s.linkCfg with form := w.val } = true ∨ 2 < w.val) →
      Refuses (.outputFormWrite w) s w Reg.OUTPUT_FORM .range) ∧
    (¬(w.val = 2 ∧ s.anyScreened = true) → s.linkRefuses { s.linkCfg with form := w.val } = false → w.val ≤ 2 →
      s.stores Reg.OUTPUT_FORM w.val → Takes (.outputFormWrite w) s w Reg.OUTPUT_FORM)) ∧
  (∀ (s : State) (w : Wr), s.accepts w Reg.FILTER_SHIFT → w.val ≤ 4 → s.stores Reg.FILTER_SHIFT w.val →
    TakesWith (.filterShiftWrite w) s w Reg.FILTER_SHIFT [.pipe] [] fun t => t.pipe = { s.pipe with prev := [] }) ∧
  (∀ (n : Nat) (s : State) (w : Wr), s.accepts w (0x131000 + n) → 2 ≤ n → n ≤ 4 →
    (n = 4 → s.ffFilled w.val = false → Refuses (.lensWrite n w) s w (0x131000 + n) .range) ∧
    ((n = 4 → s.ffFilled w.val = true) → inRange (0x131000 + n) w.val = true → s.stores (0x131000 + n) w.val →
      TakesWith (.lensWrite n w) s w (0x131000 + n) [] [Reg.LENS_SOURCE] fun t => t.reg Reg.LENS_SOURCE = 2)) ∧
  (∀ (s : State) (w : Wr),
    (s.accepts w Reg.GRADIENT_LIMIT → ((w.val < s.reg Reg.GRADIENT_CLEAR ∨ 300 < w.val) → Refuses (.gradientLimitWrite 0x11 w) s w Reg.GRADIENT_LIMIT .range) ∧
      (s.reg Reg.GRADIENT_CLEAR ≤ w.val → 100 ≤ w.val → w.val ≤ 300 → s.stores Reg.GRADIENT_LIMIT w.val →
        Takes (.gradientLimitWrite 0x11 w) s w Reg.GRADIENT_LIMIT)) ∧
    (s.accepts w Reg.GRADIENT_CLEAR → (s.reg Reg.GRADIENT_LIMIT < w.val → Refuses (.gradientLimitWrite 0x12 w) s w Reg.GRADIENT_CLEAR .range) ∧
      (w.val ≤ s.reg Reg.GRADIENT_LIMIT → 50 ≤ w.val → w.val ≤ 300 → s.stores Reg.GRADIENT_CLEAR w.val →
        Takes (.gradientLimitWrite 0x12 w) s w Reg.GRADIENT_CLEAR))) ∧
  ∀ (n : Nat) (s : State) (w : Wr), s.accepts w (Reg.GROUP_STATE n) → n < s.focal.groups.length →
    (((s.focal.groups.getD n default).st = 0 ∨ (s.focal.groups.getD n default).st = 3) →
      Refuses (.groupStateWrite n w) s w (Reg.GROUP_STATE n) .state) ∧
    ((s.focal.groups.getD n default).st ≠ 0 → (s.focal.groups.getD n default).st ≠ 3 →
      ((4 ≤ field w.val 13 3 ∨ (field w.val 13 3 = 2 ∧ 39 < field w.val 0 6)) →
        Refuses (.groupStateWrite n w) s w (Reg.GROUP_STATE n) .range) ∧
      (field w.val 13 3 < 4 → (field w.val 13 3 = 2 → field w.val 0 6 ≤ 39) →
        Obeys (.groupStateWrite n w) s w (Reg.GROUP_STATE n) [.focal] [] fun t =>
          (t.focal.groups.getD n default).next = some (w.val % 65536) ∧
            ∀ m, m ≠ n → t.focal.groups.getD m default = s.focal.groups.getD m default))

/-- The stream (R205, R206, R213): `VIDEO_ENABLE` refuses a configuration the link cannot carry, starts the stream at the next slot 0 and stops it; the link's
entries are refused while it is enabled; a plane is sent once at a time and ends with a write of 0. -/
def Obligations.Stream : Prop :=
  (∀ (s : State) (w : Wr), s.accepts w Reg.VIDEO_ENABLE →
    (w.val = 1 → s.feasible s.linkCfg = false → Refuses (.videoEnableWrite w) s w Reg.VIDEO_ENABLE .range) ∧
    (w.val = 1 → s.feasible s.linkCfg = true → s.video.running = false → s.video.ulps = false → s.stores Reg.VIDEO_ENABLE 1 →
      TakesWith (.videoEnableWrite w) s w Reg.VIDEO_ENABLE [.video] [] fun t => t.video = { s.video with startDue := true }) ∧
    (w.val = 0 → s.stores Reg.VIDEO_ENABLE 0 → TakesWith (.videoEnableWrite w) s w Reg.VIDEO_ENABLE [.video] [] fun t =>
      t.video = { s.video with startDue := false, stopDue := s.video.running, plane := none, vc1Go := false })) ∧
  (∀ (n : Nat) (s : State) (w : Wr), s.accepts w (0x160000 + n) →
    (s.reg Reg.VIDEO_ENABLE = 1 → Refuses (.videoLinkWrite n w) s w (0x160000 + n) .state) ∧
    (s.reg Reg.VIDEO_ENABLE ≠ 1 → n = 3 → w.val % 10 ≠ 0 → Refuses (.videoLinkWrite n w) s w (0x160000 + n) .range) ∧
    (s.reg Reg.VIDEO_ENABLE ≠ 1 → (n = 3 → w.val % 10 = 0) → (n = 5 → w.val < 32) → inRange (0x160000 + n) w.val = true →
      s.stores (0x160000 + n) w.val → Takes (.videoLinkWrite n w) s w (0x160000 + n))) ∧
  (∀ (s : State) (w : Wr), s.accepts w Reg.VC2_REQUEST →
    (w.val = 0 → Obeys (.vc2RequestWrite w) s w Reg.VC2_REQUEST [.video] [] fun t => t.video = { s.video with plane := none }) ∧
    (w.val ≠ 0 → s.video.plane ≠ none → Refuses (.vc2RequestWrite w) s w Reg.VC2_REQUEST .busy) ∧
    (w.val ≠ 0 → s.video.plane = none → (6 < w.val ∨ s.linkRefuses { s.linkCfg with vc2 := true } = true) →
      Refuses (.vc2RequestWrite w) s w Reg.VC2_REQUEST .range) ∧
    (w.val ≠ 0 → w.val ≤ 6 → s.video.plane = none → s.linkRefuses { s.linkCfg with vc2 := true } = false →
      Obeys (.vc2RequestWrite w) s w Reg.VC2_REQUEST [.video] [] fun t =>
        t.video = { s.video with plane := some { code := w.val, line := 0 } })) ∧
  ∀ s : State, s.tide.running = true → s.pfail = false → s.row = 0 → s.reg Reg.VIDEO_ENABLE = 1 → s.video.running = false →
    s.video.ulps = false → s.phase ≠ .dark → Does .streamStart s [.video] [] fun t => t.video.running = true ∧ t.video.startDue = false

/-! ### Outputs and fans -/

/-- Writes of outputs and fans (R221, R298, R303, R310, R315, R317, R318): a command is refused with STATE in STORM, while a loop names the target,
for the partner of a FLOATING damper and while the fan-table engine holds the channel, and waits for the output's next period; a mode is one the
output has; it clears LATCHED, and FLOATING starts at 0 with a full close stroke; a resonance band is unused or rises and meets no other of its
channel; a current limit releases a latched channel. Where the rules leave it open it follows the model's log entries 23 and 48. -/
def Obligations.OutputWrites : Prop :=
  ((∀ (n : Nat) (s : State) (w : Wr), n < 16 → s.accepts w (Reg.OUT_COMMAND n) →
     ((s.storm = true ∨ s.loopNames (outTarget n) ≠ [] ∨ s.partner n = true) →
       Refuses (.outCommandWrite n w) s w (Reg.OUT_COMMAND n) .state) ∧
     (s.storm = false → s.loopNames (outTarget n) = [] → s.partner n = false →
       (4095 < w.val → Refuses (.outCommandWrite n w) s w (Reg.OUT_COMMAND n) .range) ∧
       (w.val ≤ 4095 → s.stores (Reg.OUT_COMMAND n) w.val →
         TakesWith (.outCommandWrite n w) s w (Reg.OUT_COMMAND n) [.act] [] fun t =>
           t.act = { s.act with outs := s.act.outs.set n { s.out n with next := some w.val, hmValue := false, off := false } }))) ∧
   ∀ (n : Nat) (s : State) (w : Wr), n < 16 → s.accepts w (Reg.OUT_MODE n) →
     (s.partner n = true → Refuses (.outModeWrite n w) s w (Reg.OUT_MODE n) .state) ∧
     (s.partner n = false → outModeOk n w.val = false → Refuses (.outModeWrite n w) s w (Reg.OUT_MODE n) .range) ∧
     (s.partner n = false → outModeOk n w.val = true → s.stores (Reg.OUT_MODE n) w.val → n < s.act.outs.length →
       Does (.outModeWrite n w) s [.klp, .nv, .bus, .act] [Reg.OUT_MODE n] fun t =>
         t.reg (Reg.OUT_MODE n) = w.val ∧ (t.out n).latched = false ∧ (t.out n).trips = [] ∧ (t.out n).peak = false ∧
           (n = 0 ∨ n = 2 → w.val = 1 → (t.out n).pos = 0 ∧ (t.out n).stroke = s.reg (Reg.DMP_RUNTIME n) * clkSec) ∧
           ∀ m, m ≠ n → t.out m = s.out m)) ∧
  (∀ (n : Nat) (s : State) (w : Wr), n < 2 → s.accepts w (Reg.FAN_COMMAND n) →
    ((s.storm = true ∨ s.loopNames (256 * 5 + n + 1) ≠ []) →
      Refuses (.fanCommandWrite n w) s w (Reg.FAN_COMMAND n) .state) ∧
    (s.storm = false → s.loopNames (256 * 5 + n + 1) = [] →
      (4095 < w.val → Refuses (.fanCommandWrite n w) s w (Reg.FAN_COMMAND n) .range) ∧
      (w.val ≤ 4095 → s.stores (Reg.FAN_COMMAND n) w.val → (s.engine n).held = true →
        TakesWith (.fanCommandWrite n w) s w (Reg.FAN_COMMAND n) [] [Reg.WHARF_REJECTS] fun t =>
          t.reg Reg.WHARF_REJECTS = satInc 32 (s.reg Reg.WHARF_REJECTS)) ∧
      (w.val ≤ 4095 → (s.engine n).held = false → s.stores (Reg.FAN_COMMAND n) w.val → n < s.act.fans.length →
        Does (.fanCommandWrite n w) s [.klp, .nv, .bus, .act] [Reg.FAN_COMMAND n] fun t =>
          t.reg (Reg.FAN_COMMAND n) = w.val ∧ (t.fan n).cmd = rdivN (w.val * s.reg (Reg.FAN_VFULL n)) 4095 ∧
            t.act.outs = s.act.outs ∧ ∀ m, m ≠ n → t.fan m = s.fan m))) ∧
  (∀ (c j : Nat) (s : State) (w : Wr), c < 2 → j < 4 → s.accepts w (Reg.FAN_BAND c j) →
    (w.val ≠ 0 → (field w.val 16 16 ≤ field w.val 0 16 ∨ (s.otherBands c j).any (bandsMeet (field w.val 0 16, field w.val 16 16)) = true) →
      Refuses (.fanBandWrite c j w) s w (Reg.FAN_BAND c j) .range) ∧
    ((w.val = 0 ∨ (field w.val 0 16 < field w.val 16 16 ∧
        (s.otherBands c j).any (bandsMeet (field w.val 0 16, field w.val 16 16)) = false)) → s.stores (Reg.FAN_BAND c j) w.val →
      Does (.fanBandWrite c j w) s [.klp, .nv, .bus, .act] [Reg.FAN_BAND c j] fun t =>
        t.reg (Reg.FAN_BAND c j) = w.val % 2 ^ 32 ∧ ((s.fan c).st ≠ .running → t.act = s.act))) ∧
  ∀ (n : Nat) (s : State) (w : Wr), n < 2 → s.accepts w (Reg.FAN_ILIMIT n) →
    ((w.val < 100 ∨ 5000 < w.val) → Refuses (.fanIlimitWrite n w) s w (Reg.FAN_ILIMIT n) .range) ∧
    (100 ≤ w.val → w.val ≤ 5000 → s.stores (Reg.FAN_ILIMIT n) w.val → n < s.act.fans.length →
      Does (.fanIlimitWrite n w) s [.klp, .nv, .bus, .act] [Reg.FAN_ILIMIT n] fun t =>
        t.reg (Reg.FAN_ILIMIT n) = w.val ∧ (t.fan n).latched = false ∧ (t.fan n).shorts = [] ∧
          ((s.fan n).latched = false → t.act = { s.act with fans := s.act.fans.set n { s.fan n with shorts := [], latched := false } }))

/-- Protection of the outputs (R303, R304, R309 to R311): a trip stops a damper or valve for 10 s, is counted, and the third within 10 min latches
it; the output resumes unless it is latched; above the shutdown temperature every fan channel is off until the die has cooled; the over-drive and
the full-on time of a valve end. Where the rules leave it open it follows the model's log entry 48. -/
def Obligations.OutputProtection : Prop :=
  (∀ (n : Nat) (short : Bool) (s : State), n ≤ 7 → n < s.act.outs.length → (s.out n).waiting = false → (s.out n).latched = false →
    Does (.outputTrip n short) s [.klp, .log, .bus, .act] [Reg.OUT_FAULTS n] fun t =>
      (t.out n).waiting = true ∧ (t.out n).trips = s.recent (s.out n).trips ∧
        ((t.out n).latched = true ↔ 3 ≤ (s.recent (s.out n).trips).length) ∧
        t.reg (Reg.OUT_FAULTS n) = satInc (keyBits (Reg.OUT_FAULTS n)) (s.reg (Reg.OUT_FAULTS n)) ∧ s.now ∈ (t.out n).trips) ∧
  (∀ (n : Nat) (s : State), (s.out n).waiting = true → Does (.outputTripResume n) s [.klp, .bus, .act] [] fun t =>
    t.act = { s.act with outs := s.act.outs.set n { s.out n with waiting := false } }) ∧
  (∀ (temp : Nat) (s : State), s.act.thermal = false →
    Does (.thermalShutdown temp) s [.klp, .log, .bus, .act] [Reg.THERMAL_EVENTS] fun t =>
      t.act.thermal = true ∧ t.act.outs = s.act.outs ∧ (∀ n, t.live n = false) ∧
        (∀ c, c < 2 → c < s.act.fans.length → (t.fan c).st = .off ∧ (t.fan c).target = (s.fan c).target) ∧
        t.reg Reg.THERMAL_EVENTS = satInc 32 (s.reg Reg.THERMAL_EVENTS)) ∧
  (∀ s : State, s.act.thermal = true → Does .thermalResume s [.klp, .bus, .act] [] fun t =>
    t.act.thermal = false ∧ t.act.outs = s.act.outs ∧ ∀ c, c < 2 → c < s.act.fans.length → (s.fan c).target ≠ 0 →
      (s.fan c).latched = false → (t.fan c).st = .tug ∧ (t.fan c).attempt = 1) ∧
  (∀ (n : Nat) (s : State), (s.out n).overs = true → Does (.floatingOverdriveEnd n) s [.act] [] fun t =>
    t.act = { s.act with outs := s.act.outs.set n { s.out n with overs := false, overDone := true } }) ∧
  ∀ (n : Nat) (s : State), isValve n = true → Does (.valvePeakEnd n) s [.act] [] fun t =>
    t.act = { s.act with outs := s.act.outs.set n { s.out n with peak := false } }

/-- A fan's voltage follows its command (R315, R317, R325): a command below `FAN_VMIN` turns the channel off; from OFF any other starts a tug; it is
kept while the channel starts or stalls; the target never lies inside a resonance band. Starts, stalls and shorts (R318, R325): after a tug in
which every bound fan gave two edges, or none is bound, the channel runs; where none did it waits, and from the fourth attempt stalls; a short
turns it off for 5 s, and the third within 10 min latches it. Where the rules leave it open it follows the model's log entry 23. -/
def Obligations.FanStarts : Prop :=
  (∀ (c mv : Nat) (s : State), c < s.act.fans.length →
     ((mv = 0 ∨ mv < s.reg (Reg.FAN_VMIN c)) → ((s.commandFan c mv).fan c).st = .off ∧ ((s.commandFan c mv).fan c).target = 0) ∧
     (s.fanTarget c mv ≠ (0, (s.fanTarget c mv).2) →
       ((s.fan c).st = .off → (s.fan c).latched = false → s.act.thermal = false →
         ((s.commandFan c mv).fan c).st = .tug ∧ ((s.commandFan c mv).fan c).attempt = 1 ∧
           ((s.commandFan c mv).fan c).target = (s.fanTarget c mv).1) ∧
       ((s.fan c).st = .running → ((s.commandFan c mv).fan c).st = .running ∧
         ((s.commandFan c mv).fan c).target = (s.fanTarget c mv).1) ∧
       ((s.fan c).st = .stall → ((s.commandFan c mv).fan c).st = .stall ∧ ((s.commandFan c mv).fan c).target = (s.fan c).target ∧
         ((s.commandFan c mv).fan c).cmd = mv)) ∧
     ∀ (l : List (Nat × Nat)) (out target : Nat), (∀ p ∈ l, p.1 < p.2) →
       (∀ p ∈ l, ∀ q ∈ l, p = q ∨ p.2 < q.1 ∨ q.2 < p.1) →
       ∀ p ∈ l, ¬(p.1 < bandEdge l out target ∧ bandEdge l out target < p.2)) ∧
  (∀ (n : Nat) (s : State), n < s.act.fans.length → (s.fan n).st = .tug →
    ((∀ k ∈ s.boundTachs n, (s.tach k).tugEdges < 2) → s.boundTachs n ≠ [] →
      ((s.fan n).retry = false → (s.fan n).attempt < 4 → Does (.fanTugEnd n) s [.act] [] fun t =>
        t.act = { s.act with fans := s.act.fans.set n { s.fan n with st := .wait } }) ∧
      ((s.fan n).retry = false → 4 ≤ (s.fan n).attempt → Does (.fanTugEnd n) s [.klp, .log, .bus, .act] [] fun t =>
        (t.fan n).st = .stall ∧ (t.fan n).stalls = satInc 32 (s.fan n).stalls ∧ (t.fan n).stallSeen = true)) ∧
    (s.boundTachs n = [] → s.fanTarget n (s.fan n).cmd ≠ (0, (s.fanTarget n (s.fan n).cmd).2) →
      Does (.fanTugEnd n) s [.klp, .log, .bus, .act] [] fun t =>
        (t.fan n).st = .running ∧ (t.fan n).target = (s.fanTarget n (s.fan n).cmd).1)) ∧
  ∀ (n : Nat) (s : State), n < s.act.fans.length →
    ((s.fan n).st = .wait → Does (.fanWaitEnd n) s [.act] [] fun t =>
      (t.fan n).st = .tug ∧ (t.fan n).attempt = (s.fan n).attempt + 1 ∧ (t.fan n).retry = false ∧ t.act.outs = s.act.outs) ∧
    ((s.fan n).st = .stall → Does (.fanStallRetry n) s [.act] [] fun t =>
      (t.fan n).st = .tug ∧ (t.fan n).attempt = 1 ∧ (t.fan n).retry = true ∧ t.act.outs = s.act.outs) ∧
    ((s.fan n).st = .running → Does (.fanShort n) s [.klp, .log, .bus, .act] [] fun t =>
      (t.fan n).st = .shortOff ∧ (t.fan n).short = true ∧ (t.fan n).shorts = s.recent (s.fan n).shorts ∧
        ((t.fan n).latched = true ↔ 3 ≤ (s.recent (s.fan n).shorts).length)) ∧
    ((s.fan n).short = true → (s.fan n).latched = true → Does (.fanShortOffEnd n) s [.klp, .bus, .act] [] fun t =>
      (t.fan n).short = false ∧ (t.fan n).latched = true ∧ (t.fan n).st = (s.fan n).st) ∧
    ((s.fan n).short = true → (s.fan n).latched = false → (s.fan n).st = .shortOff →
      s.fanTarget n (s.fan n).cmd ≠ (0, (s.fanTarget n (s.fan n).cmd).2) → Does (.fanShortOffEnd n) s [.klp, .bus, .act] [] fun t =>
      (t.fan n).short = false ∧ (t.fan n).st = .running)

/-- Tachs (R322 to R326): an edge is stamped, and a full set of intervals gives the speed unless it lies above 20,000 rpm; half a second without one
stops a running fan; the ripple window keeps its count and the learnt factor moves an eighth of the way to each measurement. Where the rules
leave it open it follows the model's log entry 49. -/
def Obligations.Tachs : Prop :=
  (∀ (n at_ : Nat) (s : State), n < s.act.tachs.length → Does (.tachEdge n at_) s [.klp, .bus, .act] [] fun t =>
    (t.tach n).edges = (at_ :: (s.tach n).edges).take 5 ∧ t.act.outs = s.act.outs ∧ t.act.fans = s.act.fans ∧
      (∀ t0, (at_ :: (s.tach n).edges.take 4)[s.reg (Reg.TACH_PPR n)]? = some t0 → t0 < at_ → rdivN 3000000000 (at_ - t0) ≤ 20000 →
        (t.tach n).rpm = rdivN 3000000000 (at_ - t0)) ∧
      (∀ t0, (at_ :: (s.tach n).edges.take 4)[s.reg (Reg.TACH_PPR n)]? = some t0 → t0 < at_ → 20000 < rdivN 3000000000 (at_ - t0) →
        (t.tach n).rpm = (s.tach n).rpm ∧ (t.tach n).noise = satInc 32 (s.tach n).noise)) ∧
  (∀ (n : Nat) (s : State), n < s.act.tachs.length → (∀ t0 ∈ (s.tach n).edges, t0 + 500 * clkMs ≤ s.now) →
    Does (.tachStop n) s [.act] [] fun t => (t.tach n).rpm = 0 ∧ t.act.outs = s.act.outs ∧ t.act.fans = s.act.fans ∧
      ((s.tach n).st = .running → (∀ c, s.tachChannel n = some c → (s.fan c).st = .running) → s.tachChannel n ≠ none →
        (t.tach n).st = .checking ∧ (t.tach n).stopAt = s.now)) ∧
  (∀ (n e : Nat) (s : State), n < s.act.fans.length → (s.fan n).st = .running →
    (∀ k ∈ s.boundTachs n, (s.tach k).st ≠ .checking ∧ (s.tach k).st ≠ .lost) →
    Does (.rippleWindowEnd n e) s [.act, .freeCtr] [] fun t =>
      t.act = { s.act with fans := s.act.fans.set n { s.fan n with rate := min 65535 e, events := e } }) ∧
  ∀ (n : Nat) (s : State), (s.fan n).st = .running → (s.fan n).targetAt + 10 * clkSec ≤ s.now →
    Does (.rpmLearn n) s [.act] [] fun t => t.act.outs = s.act.outs ∧ t.act.fans = s.act.fans ∧
      ∀ k, k ∈ s.boundTachs n → k < s.act.tachs.length → (s.tach k).st = .running →
        ((s.tach k).perV = 0 → (t.tach k).perV = rdivN ((s.tach k).rpm * 256000) (s.fan n).target) ∧
        ((s.tach k).perV ≠ 0 → (t.tach k).perV = (((s.tach k).perV : Int) +
          rdiv ((rdivN ((s.tach k).rpm * 256000) (s.fan n).target : Nat) - ((s.tach k).perV : Int)) 8).toNat)

/-! ### Loops and schedules -/

/-- The settings of a loop (R269, R272, R274 to R276): a mode or target that would put two loops on one target is refused with STATE, one outside its
range with RANGE; AUTO or MANUAL starts from the command in force; a source that names a berth needs one of KIND LOOP_SOURCE. Where the rules
leave it open it follows the model's log entry 30. -/
def Obligations.LoopSettings : Prop :=
  (∀ (n : Nat) (s : State) (w : Wr), n < 64 → n < s.loop.runs.length → s.accepts w (Reg.LOOP_MODE n) →
    ((w.val = 1 ∨ w.val = 2) → s.othersOn n (s.reg (Reg.TARGET n)) = true → Refuses (.loopModeWrite n w) s w (Reg.LOOP_MODE n) .state) ∧
    (2 < w.val → Refuses (.loopModeWrite n w) s w (Reg.LOOP_MODE n) .range) ∧
    ((w.val = 0 ∨ (w.val ≤ 2 ∧ s.othersOn n (s.reg (Reg.TARGET n)) = false)) → s.stores (Reg.LOOP_MODE n) w.val →
      TakesWith (.loopModeWrite n w) s w (Reg.LOOP_MODE n) [.loop] [] fun t =>
        (w.val ≠ 0 → s.reg (Reg.LOOP_MODE n) ≠ w.val → t.loopRun n = { s.loopRun n with fresh := true }) ∧
        ((w.val = 0 ∨ s.reg (Reg.LOOP_MODE n) = w.val) → t.loop = s.loop))) ∧
  (∀ (n : Nat) (s : State) (w : Wr), n < 64 → s.accepts w (Reg.TARGET n) →
    (s.othersOn n w.val = true → Refuses (.loopTargetWrite n w) s w (Reg.TARGET n) .state) ∧
    (s.othersOn n w.val = false → targetValid w.val = false → Refuses (.loopTargetWrite n w) s w (Reg.TARGET n) .range) ∧
    (s.othersOn n w.val = false → targetValid w.val = true → s.stores (Reg.TARGET n) w.val →
      Takes (.loopTargetWrite n w) s w (Reg.TARGET n))) ∧
  ∀ (l : Nat) (b : Bool) (s : State) (w : Wr), l < 64 → s.accepts w (if b then Reg.PV_BACKUP l else Reg.PV_SOURCE l) →
    (field w.val 29 3 = 2 → s.reg (Reg.KIND (field w.val 16 13)) ≠ 2 →
      Refuses (.pvSourceWrite l b w) s w (if b then Reg.PV_BACKUP l else Reg.PV_SOURCE l) .state) ∧
    ((field w.val 29 3 = 2 → s.reg (Reg.KIND (field w.val 16 13)) = 2) →
      (descriptorOk w.val = false → Refuses (.pvSourceWrite l b w) s w (if b then Reg.PV_BACKUP l else Reg.PV_SOURCE l) .range) ∧
      (descriptorOk w.val = true → s.stores (if b then Reg.PV_BACKUP l else Reg.PV_SOURCE l) w.val →
        Takes (.pvSourceWrite l b w) s w (if b then Reg.PV_BACKUP l else Reg.PV_SOURCE l)))

/-- The computation of a loop (R271, R273): the integral stays within the output's limits; without a slew limit the output does, and with one it moves by no more than the
limit; saturated high it does not integrate upwards, saturated low not downwards. Programs (R283): of the switch points of a day type at or before
the minute, the latest counts, and of several at one time the one with the highest number. -/
def Obligations.LoopAndProgramRules : Prop :=
  (∀ (s : State) (l : Nat) (pv sp iq0 d0 pvPrev uPrev : Int), s.reg (Reg.OUT_MIN l) ≤ s.reg (Reg.OUT_MAX l) →
     let x := s.loopAuto l pv sp iq0 d0 pvPrev uPrev
     (s.reg (Reg.OUT_MIN l) : Int) * 65536 ≤ x.iq ∧ x.iq ≤ (s.reg (Reg.OUT_MAX l) : Int) * 65536 ∧
       (s.reg (Reg.OUT_SLEW l) = 0 → (s.reg (Reg.OUT_MIN l) : Int) ≤ x.u ∧ x.u ≤ s.reg (Reg.OUT_MAX l) ∧ x.slew = false) ∧
       (s.reg (Reg.OUT_SLEW l) ≠ 0 → ((x.u - uPrev).natAbs : Int) ≤ rdiv (s.reg (Reg.OUT_SLEW l) * s.loopDt l) 1000000000) ∧
       (x.hi = true → x.slew = false → x.iq ≤ max iq0 ((s.reg (Reg.OUT_MIN l) : Int) * 65536)) ∧
       (x.lo = true → x.hi = false → x.slew = false → min iq0 ((s.reg (Reg.OUT_MAX l) : Int) * 65536) ≤ x.iq)) ∧
  ∀ (s : State) (p day minute : Nat),
    let time (j : Nat) : Nat := field (s.reg (Reg.SWITCH_POINT p j)) 19 5 * 60 + field (s.reg (Reg.SWITCH_POINT p j)) 13 6
    let fits (j : Nat) : Prop := j < 16 ∧ bitAt (s.reg (Reg.SWITCH_POINT p j)) (24 + day) = true ∧ time j ≤ minute
    (s.latestPoint p day minute = none → ∀ j, ¬ fits j) ∧
      ∀ t m, s.latestPoint p day minute = some (t, m) → ∃ j, fits j ∧ t = time j ∧ m = field (s.reg (Reg.SWITCH_POINT p j)) 0 2 ∧
        ∀ k, fits k → time k < t ∨ (time k = t ∧ k ≤ j)

/-- Zones and programs (R278 to R287): an override lasts `OVERRIDE_TIME` minutes from its write, or until it is cleared, and then reads 0xFF;
presence stops holding; a switch point and an exception date that name no time or date are refused; an evaluation gives every program its value.
The master falls silent (R288, R289): once `AUTO_TIMEOUT` seconds have passed since its last heartbeat the device is AUTONOMOUS with reason 1,
with its record, and the fan-table engine holds the channels whose tables say so. Where the rules leave it open it follows the model's log
entries 20, 23 and 30. -/
def Obligations.ZonesAndPrograms : Prop :=
  ((∀ (n : Nat) (s : State) (w : Wr), n < 32 → n < s.loop.zones.length → s.accepts w (Reg.ZONE_OVERRIDE n) →
     inRange (Reg.ZONE_OVERRIDE n) w.val = true → s.stores (Reg.ZONE_OVERRIDE n) w.val →
     TakesWith (.zoneOverrideWrite n w) s w (Reg.ZONE_OVERRIDE n) [.loop] ((List.range 32).map Reg.PROG_VALUE) fun t =>
       (t.zoneRun n).ends = (if w.val = 0xFF ∨ s.reg (Reg.OVERRIDE_TIME n) = 0 then none
         else some (s.now + s.reg (Reg.OVERRIDE_TIME n) * 60 * clkSec)) ∧ t.loop.runs = s.loop.runs) ∧
   (∀ (n t0 : Nat) (s : State), n < s.loop.zones.length → (s.zoneRun n).ends = some t0 → t0 ≤ s.now →
     Does (.overrideExpiry n) s [.loop] [Reg.ZONE_OVERRIDE n] fun t =>
       t.reg (Reg.ZONE_OVERRIDE n) = 0xFF % 2 ^ keyBits (Reg.ZONE_OVERRIDE n) ∧ t.zoneRun n = { s.zoneRun n with ends := none }) ∧
   (∀ (n : Nat) (s : State), n < s.loop.zones.length → (s.zoneRun n).holding = true → (s.zoneRun n).present = false →
     Does (.presenceHoldExpiry n) s [.loop] [] fun t => t.zoneRun n = { s.zoneRun n with holding := false } ∧ t.loop.runs = s.loop.runs) ∧
   (∀ (p j : Nat) (s : State) (w : Wr), p < 32 → j < 16 → s.accepts w (Reg.SWITCH_POINT p j) →
     ((23 < field w.val 19 5 ∨ 59 < field w.val 13 6 ∨ field w.val 2 11 ≠ 0) →
       Refuses (.switchPointWrite p j w) s w (Reg.SWITCH_POINT p j) .range) ∧
     (field w.val 19 5 ≤ 23 → field w.val 13 6 ≤ 59 → field w.val 2 11 = 0 → s.stores (Reg.SWITCH_POINT p j) w.val →
       TakesWith (.switchPointWrite p j w) s w (Reg.SWITCH_POINT p j) [.loop] ((List.range 32).map Reg.PROG_VALUE) fun t =>
         t.loop = { s.loop with lastMinute := t.loop.lastMinute })) ∧
   (∀ (n : Nat) (s : State) (w : Wr), n < 64 → s.accepts w (Reg.EXCEPTION_DATE n) →
     ((field w.val 19 4 = 0 ∨ 12 < field w.val 19 4 ∨ field w.val 9 5 = 0 ∨ 200 < field w.val 23 8 ∨ field w.val 0 6 ≠ 0) →
       Refuses (.exceptionDateWrite n w) s w (Reg.EXCEPTION_DATE n) .range) ∧
     (1 ≤ field w.val 19 4 → field w.val 19 4 ≤ 12 → field w.val 9 5 ≠ 0 → field w.val 23 8 ≤ 200 → field w.val 0 6 = 0 →
       (field w.val 23 8 ≠ 0 → field w.val 14 5 ≠ 0 → dateExists (1999 + field w.val 23 8) (field w.val 19 4) (field w.val 14 5) = false →
         Refuses (.exceptionDateWrite n w) s w (Reg.EXCEPTION_DATE n) .timeInvalid) ∧
       ((field w.val 23 8 = 0 ∨ field w.val 14 5 = 0 ∨
           dateExists (1999 + field w.val 23 8) (field w.val 19 4) (field w.val 14 5) = true) → s.stores (Reg.EXCEPTION_DATE n) w.val →
         TakesWith (.exceptionDateWrite n w) s w (Reg.EXCEPTION_DATE n) [.loop] ((List.range 32).map Reg.PROG_VALUE) fun t =>
           t.loop = { s.loop with lastMinute := t.loop.lastMinute }))) ∧
   ∀ s : State, s.hm.owner.isSome = true → Does .programEvaluation s [.loop]
     ((List.range 32).map Reg.PROG_VALUE ++ (List.range 32).map Reg.ZONE_MODE ++ (List.range 32).map Reg.ZONE_STATUS) fun t =>
       (∀ p, p < 32 → t.reg (Reg.PROG_VALUE p) = (s.progValueNow p).getD 0xFF % 256) ∧ t.loop.runs = s.loop.runs) ∧
  ∀ (t0 : Nat) (s : State), s.storm = false → s.loop.autonomous = false → s.reg Reg.MASTER_SOURCE ≠ 0 → s.loop.seenMaster = true →
    (s.hm.owner.isSome = true ∨ s.pwr.owned = true) → s.klp.masterHb = some t0 → t0 + s.reg Reg.AUTO_TIMEOUT * clkSec < s.now →
    Does .masterSilentExpiry s [.log, .loop] [Reg.TABLE_TAKEOVERS] fun t =>
      t.loop.autonomous = true ∧ t.loop.autoReason = 1 ∧
        (∀ c, c < 2 → c < s.loop.engines.length → (s.tableTake c = true ∨ s.loop.defaultTable = true) → (t.engine c).held = true) ∧
        (s.log.queue.length < 256 → ∃ r, t.log.queue = s.log.queue ++ [r] ∧ r.typ = Lt.AUTO_ENTER ∧ r.payload = [1])

/-! ### Sensing -/

/-- Conversions (R333, R336, R338): the entry in progress ends with its mean code, its time and its value; over range it ends with the clamp code,
OVR in its flags, and is counted. With `SEQ_PERIOD` 0 rounds follow each other. Where the rules leave it open it follows the model's log entry
25. -/
def Obligations.AdcEntries : Prop :=
  (∀ (ch sum : Nat) (s : State), isAdcChannel ch = true → s.sens.adc = .round ch →
    (Does (.adcEntryEnd ch sum false) s [.sens, .freeCtr]
      [aiKey ch 0x0B, aiKey ch 0x0C, aiKey ch 0x0D, aiKey ch 0x0E, Reg.VIN_A_MV, Reg.VIN_B_MV, Reg.VHOLD_MV] fun t =>
      t.reg (aiKey ch 0x0B) = rdivN sum (2 ^ s.sens.cfg.avg) % 65536 ∧ t.reg (aiKey ch 0x0E) = s.now % 2 ^ 64 ∧
        t.regBit (aiKey ch 0x0D) 0 = false ∧ ch ∉ t.sens.prevOvr ∧
        (withinI (-2147483648) 2147483647 (s.sens.cfg.value ch (rdivN sum (2 ^ s.sens.cfg.avg))) = true →
          t.regI (aiKey ch 0x0C) = s.sens.cfg.value ch (rdivN sum (2 ^ s.sens.cfg.avg)))) ∧
    Does (.adcEntryEnd ch sum true) s [.sens, .freeCtr]
      [aiKey ch 0x0B, aiKey ch 0x0C, aiKey ch 0x0D, aiKey ch 0x0E, Reg.VIN_A_MV, Reg.VIN_B_MV, Reg.VHOLD_MV, Reg.OVR_EVENTS] fun t =>
      t.reg (aiKey ch 0x0B) = (if sum = 0 then 0 else 0xFFFF) ∧ t.regBit (aiKey ch 0x0D) 0 = true ∧ ch ∈ t.sens.prevOvr ∧
        t.reg Reg.OVR_EVENTS = satInc 32 (s.reg Reg.OVR_EVENTS)) ∧
  ∀ s : State, s.reg Reg.SEQ_PERIOD = 0 → s.sens.adc = .idle → s.tide.running = true →
    Does .adcContinuousRound s [.sens] [] fun t =>
      t.sens.adc = .round (s.roundChannels.headD 32) ∧ t.sens.cfg = s.adcCfg (s.roundChannels.headD 32) none ∧ t.sens.roundDue = false

/-- Writes to the ADC (R162, R336, R337, R340 to R342): an urgent request is dropped while the converter is busy and runs at once otherwise; a self-
calibration is BUSY while one runs; what it finds is kept within the three limits and discarded beyond them; factors and settings are taken
within their limits and where they agree. Where the rules leave it open it follows the model's log entry 25. -/
def Obligations.AdcWrites : Prop :=
  (∀ (s : State) (w : Wr), s.accepts w Reg.URGENT_REQUEST →
    ((field w.val 12 4 ≠ 0 ∨ 4 < field w.val 8 4 ∨ s.aiOn (w.val % 256) = false) → Refuses (.urgentRequestWrite w) s w Reg.URGENT_REQUEST .range) ∧
    (field w.val 12 4 = 0 → field w.val 8 4 ≤ 4 → s.aiOn (w.val % 256) = true →
      ((s.sens.adc ≠ .idle ∨ s.reg Reg.SEQ_PERIOD = 0) → Does (.urgentRequestWrite w) s [.klp] [Reg.URGENT_DROPS] fun t =>
        t.reg Reg.URGENT_DROPS = satInc 32 (s.reg Reg.URGENT_DROPS) ∧
          t.klp = (s.answered (wrRequest w Reg.URGENT_REQUEST) .dropped []).klp) ∧
      (s.sens.adc = .idle → s.reg Reg.SEQ_PERIOD ≠ 0 → s.stores Reg.URGENT_REQUEST w.val →
        TakesWith (.urgentRequestWrite w) s w Reg.URGENT_REQUEST [.sens] [] fun t =>
          t.sens.adc = .urgent (w.val % 256) ∧ t.sens.urgentAvg = field w.val 8 4))) ∧
  (∀ (r : Req) (s : State), s.accepts { req := r, len := 1, val := 1 } Reg.ADC_CAL_COMMAND →
    ((s.sens.calDue = true ∧ (∀ x, s.sens.adc ≠ .selfCal x)) ∨ (∃ x, s.sens.adc = .selfCal x) →
      Refuses (.adcCalCommand r) s { req := r, len := 1, val := 1 } Reg.ADC_CAL_COMMAND .busy) ∧
    (s.sens.calDue = false → s.sens.adc = .idle →
      Obeys (.adcCalCommand r) s { req := r, len := 1, val := 1 } Reg.ADC_CAL_COMMAND [.sens] [] fun t =>
        t.sens = { s.sens with adc := .selfCal none }) ∧
    (∀ k, s.sens.calDue = false → s.sens.adc = .round k →
      Obeys (.adcCalCommand r) s { req := r, len := 1, val := 1 } Reg.ADC_CAL_COMMAND [.sens] [] fun t =>
        t.sens = { s.sens with calDue := true })) ∧
  (∀ (gains offsets : List Int) (res : Nat) (s : State), s.sens.adc = .selfCal none → gains.length = 6 → offsets.length = 6 →
    (s.factorsKept gains offsets res = true → Does (.adcSelfCalDone gains offsets res) s [.sens]
      ((List.range 6).map Reg.ADC_GAIN ++ (List.range 6).map Reg.ADC_OFFSET ++ [Reg.ADC_RESIDUAL, Reg.ADC_CAL_TICKS, Reg.SMALL_RESULT]) fun t =>
        (∀ i, i < 6 → t.reg (Reg.ADC_GAIN i) = ofSigned 32 (gains.getD i 0) % 2 ^ 32 ∧
          t.reg (Reg.ADC_OFFSET i) = ofSigned 32 (offsets.getD i 0) % 2 ^ 32) ∧
          t.reg Reg.ADC_CAL_TICKS = s.rtc.ticks % 2 ^ 48 ∧ t.sens.precal = false ∧ t.sens.factorsHost = false ∧
          t.sens.calDiscarded = false) ∧
    (s.factorsKept gains offsets res = false → Does (.adcSelfCalDone gains offsets res) s [.sens] [Reg.SMALL_RESULT] fun t =>
      t.sens.calDiscarded = true ∧ t.regBit Reg.SMALL_RESULT 2 = true)) ∧
  (∀ (n : Nat) (s : State) (w : Wr), 1 ≤ n → n ≤ 12 → s.accepts w (0x1B0100 + n) →
    (s.reg (if n ≤ 6 then Reg.ADC_GAIN_LIMIT else Reg.ADC_OFFSET_LIMIT) < (toSigned 32 w.val).natAbs →
      Refuses (.adcFactorWrite n w) s w (0x1B0100 + n) .range) ∧
    ((toSigned 32 w.val).natAbs ≤ s.reg (if n ≤ 6 then Reg.ADC_GAIN_LIMIT else Reg.ADC_OFFSET_LIMIT) → s.stores (0x1B0100 + n) w.val →
      TakesWith (.adcFactorWrite n w) s w (0x1B0100 + n) [.sens] [Reg.ADC_CAL_TICKS] fun t =>
        t.reg Reg.ADC_CAL_TICKS = s.rtc.ticks % 2 ^ 48 ∧ t.sens = { s.sens with factorsHost := true })) ∧
  ∀ (ch sub : Nat) (s : State) (w : Wr), 1 ≤ ch → ch ≤ 12 → s.accepts w (aiKey ch sub) →
    (inRange (aiKey ch sub) w.val = false → Refuses (.aiConfigWrite ch sub w) s w (aiKey ch sub) .range) ∧
    (inRange (aiKey ch sub) w.val = true →
      aiAgrees ((s.setReg (aiKey ch sub) w.val).reg (Reg.AI_MODE (ch - 1))) ((s.setReg (aiKey ch sub) w.val).reg (Reg.AI_UNIT (ch - 1)))
        ((s.setReg (aiKey ch sub) w.val).regI (Reg.SCALE_IN_LOW (ch - 1))) ((s.setReg (aiKey ch sub) w.val).regI (Reg.SCALE_IN_HIGH (ch - 1)))
        ((s.setReg (aiKey ch sub) w.val).regI (Reg.SCALE_OUT_LOW (ch - 1))) ((s.setReg (aiKey ch sub) w.val).regI (Reg.SCALE_OUT_HIGH (ch - 1))) = true →
      s.stores (aiKey ch sub) w.val → Takes (.aiConfigWrite ch sub w) s w (aiKey ch sub))

/-- Digital inputs and module identity (R346, R347, R349, R352, R353): an input active for `DI_STUCK_TIME` is STUCK; a quiet window ends CHATTER; a
module detected or acknowledged is read, one gone leaves its slot EMPTY; a failed read is tried three times before FAULT; a good record makes the
slot VALID. Where the rules leave it open it follows the model's log entry 26. -/
def Obligations.InputsAndModules : Prop :=
  (∀ (n : Nat) (s : State), n - 1 < s.sens.dis.length → (s.di n).filt = true → (s.di n).stuck = false → (s.di n).chatter = false →
    s.reg (Reg.DI_STUCK_TIME (n - 1)) ≠ 0 → (s.di n).since + s.reg (Reg.DI_STUCK_TIME (n - 1)) * clkSec ≤ s.now →
    Does (.diStuck n) s [.klp, .log, .bus, .sens] [] fun t => t.di n = { s.di n with stuck := true }) ∧
  (∀ (n : Nat) (s : State), n - 1 < s.sens.dis.length →
    ((s.di n).chatter = false → Does (.diChatterWindowEnd n) s [.sens] [] fun t =>
      t.di n = { s.di n with edges := 0, complete := false }) ∧
    ((s.di n).chatter = true → (s.di n).complete = true → 2 * (s.di n).edges ≤ s.reg (Reg.DI_CHATTER_EDGES (n - 1)) →
      Does (.diChatterWindowEnd n) s [.power, .video, .pwr, .klp, .log, .bus, .sens] [] fun t => (t.di n).chatter = false ∧ (t.di n).edges = 0)) ∧
  (∀ s : State, Does .idReaderStart s [.sens] [] fun t => t.sens = { s.sens with idOn := true }) ∧
  (∀ (n : Nat) (s : State), 1 ≤ n → n ≤ 4 → n - 1 < s.sens.slots.length →
    ((s.slot n).st = .empty → Does (.modDetChange n true) s [.sens] [] fun t =>
      t.slot n = { s.slot n with st := .reading, reading := true, attempts := 0 }) ∧
    ((s.slot n).st ≠ .empty → Does (.modDetChange n false) s [.sens, .focal] [Reg.LENS_SOURCE] fun t => t.slot n = IdSlot.empty)) ∧
  (∀ (ack : Nat) (s : State), s.sens.idOn = true → 8 ≤ s.sens.slots.length → Does (.idPoll ack) s [.sens, .focal] [Reg.LENS_SOURCE] fun t =>
    ∀ n, 5 ≤ n → n ≤ 8 → (bitAt ack (n - 1) = true → (s.slot n).st = .empty → (t.slot n).st = .reading) ∧
      (bitAt ack (n - 1) = true → (s.slot n).st ≠ .empty → t.slot n = s.slot n) ∧
      (bitAt ack (n - 1) = false → (t.slot n).st = .empty)) ∧
  (∀ (n : Nat) (s : State), n - 1 < s.sens.slots.length → s.sens.idOn = true → (s.slot n).st = .reading → (s.slot n).reading = true →
    ((s.slot n).attempts < 2 → Does (.idReadDone n .failed) s [.sens] [] fun t =>
      t.slot n = { s.slot n with reading := false, attempts := (s.slot n).attempts + 1 }) ∧
    (2 ≤ (s.slot n).attempts → Does (.idReadDone n .failed) s [.sens] [Reg.ID_ERRORS] fun t =>
      (t.slot n).st = .fault ∧ t.reg Reg.ID_ERRORS = satInc 32 (s.reg Reg.ID_ERRORS)) ∧
    (∀ b, idGood b = true → b.getD 2 0 = 1 → 1 ≤ b.getD 3 0 → b.getD 3 0 ≤ 4 → (∀ k, k < n → s.conflictsWith n (b.getD 3 0) k = false) →
      (s.recordLoads n b).isSome = true → Does (.idReadDone n (.bytes b)) s [.regs, .sens, .focal] [] fun t =>
        t.slot n = { s.slot n with st := .valid, reading := false, attempts := 0, record := b })) ∧
  (∀ (n : Nat) (s : State), n - 1 < s.sens.slots.length →
    ((s.slot n).st = .reading → Does (.idReadRetry n) s [.sens] [] fun t => t.slot n = { s.slot n with reading := true }) ∧
    ((s.slot n).st = .fault → Does (.idFaultRetry n) s [.sens] [] fun t =>
      t.slot n = { s.slot n with st := .reading, reading := true, attempts := 0 })) ∧
  (∀ (s : State) (w : Wr), s.accepts w Reg.ID_REREAD → 1 ≤ w.val → w.val ≤ 8 → w.val - 1 < s.sens.slots.length → (s.slot w.val).st ≠ .empty →
    Obeys (.idRereadWrite w) s w Reg.ID_REREAD [.sens] [] fun t =>
      t.slot w.val = { s.slot w.val with st := .reading, reading := true, attempts := 0 }) ∧
  ∀ (n : Nat) (s : State) (w : Wr), 1 ≤ n → n ≤ 8 → s.accepts w (Reg.SLOT_BIND (n - 1)) →
    ((w.val = 1 ∨ w.val = 2) → (s.slot n).kind ≠ 4 →
      (∃ k, 1 ≤ k ∧ k ≤ 8 ∧ k ≠ n ∧ (s.slot k).kind ≠ 4 ∧ s.slotBind k = w.val) →
      Refuses (.slotBindWrite n w) s w (Reg.SLOT_BIND (n - 1)) .state) ∧
    (12 < w.val → Refuses (.slotBindWrite n w) s w (Reg.SLOT_BIND (n - 1)) .range) ∧
    (w.val ≤ 12 → ((w.val = 1 ∨ w.val = 2) → (s.slot n).kind ≠ 4 → ∀ k, 1 ≤ k → k ≤ 8 → k ≠ n → (s.slot k).kind ≠ 4 → s.slotBind k ≠ w.val) →
      ((s.slot n).kind = 3 → w.val ≤ 2) → ((s.slot n).kind = 4 → w.val ≠ 0 → w.val + (s.slot n).record.getD 49 0 ≤ 13) →
      s.stores (Reg.SLOT_BIND (n - 1)) w.val →
      ((s.slot n).st = .empty → TakesWith (.slotBindWrite n w) s w (Reg.SLOT_BIND (n - 1)) [.sens] [] fun t => t.sens = s.sens) ∧
      ((s.slot n).st ≠ .empty → n - 1 < s.sens.slots.length →
        TakesWith (.slotBindWrite n w) s w (Reg.SLOT_BIND (n - 1)) [.sens] [] fun t =>
          t.slot n = { s.slot n with st := .reading, reading := true, attempts := 0 }))

/-! ### The building bus -/

/-- Channel modes (R359, R360, R378, R381): a write of `BUS_MODE` ends a probe and asks for the mode, or starts the recovery of a bus-off channel;
the mode applies with the bus idle and leaving NORMAL discards the queues; integration lets it send; a probe with 8 errors stays RESTRICTED;
timing is written while the channel is OFF; a recovery ends the bus-off. Where the rules leave it open it follows the model's log entry 27. -/
def Obligations.BusModes : Prop :=
  (∀ (c : Bus) (s : State) (w : Wr), s.accepts w (Reg.BUS_MODE c.idx) →
    (3 < w.val → Refuses (.busModeWrite c w) s w (Reg.BUS_MODE c.idx) .range) ∧
    (w.val ≤ 3 → s.stores (Reg.BUS_MODE c.idx) w.val →
      TakesWith (.busModeWrite c w) s w (Reg.BUS_MODE c.idx) [.bus] [] fun t => t.chan c.other = s.chan c.other ∧
        (w.val = 3 → (s.chan c).active = .normal → (s.chan c).busOff = true →
          t.chan c = { s.chan c with probe := none, rateSuspect := false, recovering := true, request := none }) ∧
        ((w.val ≠ 3 ∨ (s.chan c).busOff = false) → t.chan c = { s.chan c with
          probe := none, rateSuspect := false
          request := if ChMode.ofCode w.val = (s.chan c).active then none else some (.ofCode w.val) }))) ∧
  (∀ (c : Bus) (m : ChMode) (s : State), (s.chan c).request = some m → Does (.busModeApply c) s [.bus] [] fun t =>
    t.chan c.other = s.chan c.other ∧ (t.chan c).active = m ∧ (t.chan c).request = none ∧ (t.chan c).integrated = false ∧
      ((s.chan c).active = .normal → (t.chan c).queues = List.replicate 8 [] ∧ (t.chan c).busOff = false ∧ (t.chan c).tec = 0 ∧
        (t.chan c).txDiscards = satAdd 32 (s.chan c).txDiscards ((s.chan c).queues.map List.length).sum) ∧
      ((s.chan c).active ≠ .normal → (t.chan c).queues = (s.chan c).queues) ∧ (m = .off → (t.chan c).tec = 0 ∧ (t.chan c).recErr = 0)) ∧
  (∀ (c : Bus) (s : State), (s.chan c).active ≠ .off → Does (.busIntegrated c) s [.bus] [] fun t =>
    t.chan c.other = s.chan c.other ∧ t.chan c = { s.chan c with integrated := true, offered := (t.chan c).offered } ∧
      (s.pfail = false → (s.chan c).active = .normal → (s.chan c).busOff = false → (t.chan c).offered = (s.chan c).pick) ∧
      ((s.chan c).active ≠ .normal → (t.chan c).offered = none)) ∧
  (∀ (c : Bus) (n : Nat) (s : State), (s.chan c).probe = some n → Does (.busProbeEnd c) s [.bus] [] fun t =>
    t.chan c.other = s.chan c.other ∧
      (8 ≤ n → t.chan c = { s.chan c with probe := none, rateSuspect := true }) ∧
      (n < 8 → t.chan c = { s.chan c with
        probe := none
        request := if ChMode.ofCode (s.reg (Reg.BUS_MODE c.idx)) = (s.chan c).active then none
          else some (.ofCode (s.reg (Reg.BUS_MODE c.idx))) })) ∧
  (∀ (c : Bus) (sub : Nat) (s : State) (w : Wr), s.accepts w (0x1C1000 + 256 * c.idx + sub) →
    (((s.chan c).active ≠ .off ∨ (sub = 3 ∧ w.val ≠ 125 ∧ s.reg (Reg.TRIPLE_SAMPLE c.idx) = 1)) →
      Refuses (.busTimingWrite c sub w) s w (0x1C1000 + 256 * c.idx + sub) .state) ∧
    ((s.chan c).active = .off → (sub = 3 → w.val = 125 ∨ s.reg (Reg.TRIPLE_SAMPLE c.idx) ≠ 1) →
      ((inRange (0x1C1000 + 256 * c.idx + sub) w.val = false ∨ s.timingOk c.idx sub w.val = false) →
        Refuses (.busTimingWrite c sub w) s w (0x1C1000 + 256 * c.idx + sub) .range) ∧
      (inRange (0x1C1000 + 256 * c.idx + sub) w.val = true → s.timingOk c.idx sub w.val = true →
        s.stores (0x1C1000 + 256 * c.idx + sub) w.val → Takes (.busTimingWrite c sub w) s w (0x1C1000 + 256 * c.idx + sub)))) ∧
  (∀ (c : Bus) (s : State) (w : Wr), s.accepts w (Reg.TRIPLE_SAMPLE c.idx) →
    (((s.chan c).active ≠ .off ∨ (w.val = 1 ∧ s.reg (Reg.NOM_BITRATE c.idx) ≠ 125)) →
      Refuses (.tripleSampleWrite c w) s w (Reg.TRIPLE_SAMPLE c.idx) .state) ∧
    ((s.chan c).active = .off → (w.val = 0 ∨ (w.val = 1 ∧ s.reg (Reg.NOM_BITRATE c.idx) = 125)) → s.stores (Reg.TRIPLE_SAMPLE c.idx) w.val →
      Takes (.tripleSampleWrite c w) s w (Reg.TRIPLE_SAMPLE c.idx))) ∧
  ∀ (c : Bus) (s : State), (s.chan c).busOff = true → (s.chan c).recovering = true → Does (.busoffRecoveryDone c) s [.bus] [] fun t =>
    t.chan c.other = s.chan c.other ∧ t.chan c = { s.chan c with
      busOff := false, recovering := false, tec := 0, recErr := 0, offered := (t.chan c).offered }

/-- Frames (R354, R362, R363, R366 to R368, R370, R377, R378, R405): what a channel does not hear changes nothing; an FD frame with `FD_ENABLE` 0 is
a protocol exception; an extended frame is counted; an own number is a clash; what `RX_FILTER` lets through waits for the pilot; the master's
heartbeat is kept; an exchange value reaches the slots mapped to it; a sent frame leaves its queue with its record; errors count up to bus-off.
Where the rules leave it open it follows the model's log entries 27 and 53. -/
def Obligations.BusTraffic : Prop :=
  (∀ (c : Bus) (f : CanFrame) (stamp : Nat) (s : State), ((s.chan c).active = .off ∨ (s.chan c).integrated = false) →
    Rests (.canFrameReceived c f stamp) s ∧ ∀ e, Rests (.protocolError c e) s) ∧
  (∀ (c : Bus) (f : CanFrame) (stamp : Nat) (s : State), (s.chan c).active ≠ .off → (s.chan c).integrated = true →
    (f.fd = true → s.reg (Reg.FD_ENABLE c.idx) ≠ 1 → Does (.canFrameReceived c f stamp) s [.bus] [] fun t =>
      t.chan c.other = s.chan c.other ∧ t.chan c = { s.chan c with protoExc := true, integrated := false, offered := none }) ∧
    ((f.fd = true → s.reg (Reg.FD_ENABLE c.idx) = 1) →
      (f.ext = true → Does (.canFrameReceived c f stamp) s [.bus, .freeCtr] [] fun t =>
        t.chan c = { s.chan c with extFrames := satInc 32 (s.chan c).extFrames, recErr := (t.chan c).recErr }) ∧
      (f.ext = false → f.id / 128 ∈ [1, 3, 6, 7, 8] → f.id % 128 = s.reg Reg.NODE_ID →
        Does (.canFrameReceived c f stamp) s [.log, .bus, .freeCtr] [Reg.NODE_CLASHES] fun t =>
          (t.chan c).clash = true ∧ t.reg Reg.NODE_CLASHES = satInc (keyBits Reg.NODE_CLASHES) (s.reg Reg.NODE_CLASHES)) ∧
      (f.ext = false → f.id / 128 ∈ [1, 3, 6, 7, 8, 9, 10, 11, 12, 13, 14] → f.id % 128 ≠ s.reg Reg.NODE_ID →
        Does (.canFrameReceived c f stamp) s [.bus, .freeCtr] [] fun t => t.chan c.other = s.chan c.other ∧
          (s.regBit (Reg.RX_FILTER c.idx) (f.id / 128) = false →
            t.chan c = { s.chan c with recErr := (t.chan c).recErr }) ∧
          (s.regBit (Reg.RX_FILTER c.idx) (f.id / 128) = true →
            ((s.chan c).rx.length < 128 → (t.chan c).rx = (s.chan c).rx ++ [{ f := f, stamp := stamp }]) ∧
            (128 ≤ (s.chan c).rx.length → (t.chan c).rx = (s.chan c).rx ∧
              (t.chan c).rxOverruns = satInc 32 (s.chan c).rxOverruns))) ∧
      (f.ext = false → f.id / 128 = 0xF → f.id % 128 ≠ s.reg Reg.NODE_ID → f.id % 128 = s.reg Reg.MASTER_SOURCE → f.id % 128 ≠ 0 →
        Does (.canFrameReceived c f stamp) s [.klp, .bus, .loop, .freeCtr] [] fun t =>
          t.klp = { s.klp with masterHb := some s.now } ∧ t.loop = { s.loop with seenMaster := true }) ∧
      (f.ext = false → f.fd = false → f.id / 128 = 4 → f.id % 128 ≠ s.reg Reg.NODE_ID → f.id % 128 ≠ 0 → f.data.length = 8 →
        bitAt (f.data.getD 1 0) 0 = true → Does (.canFrameReceived c f stamp) s [.bus, .freeCtr] [] fun t =>
          t.chan c.other = s.chan c.other ∧ ∀ n, n < 256 →
            smapGet 0 n s.bus.rxMap % 256 = f.id % 128 → smapGet 0 n s.bus.rxMap / 256 % 256 = f.data.getD 0 0 →
            bitAt (smapGet 0 n s.bus.rxMap / 65536) c.idx = true → (∀ p ∈ s.bus.rxSlots, p.1 = n → p.2.2.1 ≤ stamp) →
            (n, leValue (f.data.drop 4), stamp, c.idx + 1) ∈ t.bus.rxSlots) ∧
      (f.ext = false → f.id = 0 → s.storm = true → Does (.canFrameReceived c f stamp) s [.klp, .bus, .freeCtr] [] fun t =>
        t.klp = { s.klp with netIgnored := satInc 32 s.klp.netIgnored }))) ∧
  (∀ (c : Bus) (stamp q : Nat) (f : TxFrame) (s : State), (s.chan c).onBus = some (q, f) →
    ((s.chan c).offSince = false → Does (.canTxComplete c stamp) s [.klp, .bus] [] fun t =>
      t.chan c.other = s.chan c.other ∧ (t.chan c).queues = (s.chan c).queues.set q (((s.chan c).queues.getD q []).drop 1) ∧
        (t.chan c).tec = (s.chan c).tec - 1 ∧ (t.chan c).done = some (s.stampedFrame f.f stamp, stamp) ∧
        (f.f.id / 128 ≠ 8 → t.klp = s.klp)) ∧
    ((s.chan c).offSince = true → Does (.canTxComplete c stamp) s [.klp, .log, .bus] [] fun t =>
      (t.chan c).offSince = false ∧ (t.chan c).done = some (s.stampedFrame f.f stamp, stamp) ∧ (s.log.queue.length < 256 →
        ∃ r, t.log.queue = s.log.queue ++ [r] ∧ r.typ = Lt.BUS_RECOVER)) ∧
    Does (.canTxError c .lostArbitration) s [.bus] [] (fun t =>
      t.chan c.other = s.chan c.other ∧ t.chan c = { s.chan c with offered := (t.chan c).offered }) ∧
    ∀ code, ((s.chan c).tecUp code ≤ 255 → Does (.canTxError c (.error code)) s [.bus] [] fun t =>
        t.chan c.other = s.chan c.other ∧ t.chan c = { s.chan c with
          tec := (s.chan c).tecUp code, lastError := code, offered := (t.chan c).offered }) ∧
      (255 < (s.chan c).tecUp code → Does (.canTxError c (.error code)) s [.klp, .log, .bus, .freeCtr] [] fun t =>
        (t.chan c).busOff = true ∧ (t.chan c).held = some q ∧ (t.chan c).lastError = code ∧ (t.chan c).offSince = true ∧
          (t.chan c).recovering = (s.reg (Reg.BUSOFF_AUTO c.idx) == 1) ∧
          ((s.chan c).offSince = false → s.log.queue.length < 256 →
            ∃ r, t.log.queue = s.log.queue ++ [r] ∧ r.typ = Lt.BUS_OFF))) ∧
  ∀ (c : Bus) (s : State), (s.chan c).active ≠ .off → (s.chan c).integrated = true →
    Does (.protocolError c .fdException) s [.bus] [] (fun t => t.chan c.other = s.chan c.other ∧
      t.chan c = { s.chan c with protoExc := true, integrated := false, offered := none }) ∧
    ∀ code, Does (.protocolError c (.error code)) s [.bus] [] fun t => t.chan c.other = s.chan c.other ∧
      t.chan c = { s.chan c with
        recErr := if (s.chan c).active = .normal then satInc 8 (s.chan c).recErr else (s.chan c).recErr
        lastError := code
        probe := (s.chan c).probe.map fun n => if code = 3 then n else n + 1 }

/-- The breakwater's timers, the device heartbeat and the network commands (R252, R374, R375, R406, R407, R478): a hold that ends releases what was
held; a summary takes the next SEQ and forgets the limited sources; the heartbeat waits in queue 7 of each NORMAL channel of `HB_CHANNELS`, or is
due at the end of a failover outage; each network command does its work for the one at the front. Where the rules leave it open it follows the
model's log entries 28 and 53. -/
def Obligations.BusTimers : Prop :=
  (∀ (n : Nat) (s : State), (s.bus.bw.get n).hold = true →
    ((s.bus.bw.get n).pend = none → Does (.bwHoldExpiry n) s [.bus] [] fun t =>
      t.bus = { s.bus with bw := s.bus.bw.put { s.bus.bw.get n with hold := false } }) ∧
    (∀ e, (s.bus.bw.get n).pend = some e → e.source = n → s.alarmTargets ≠ [] → Does (.bwHoldExpiry n) s [.klp, .bus] [] fun t =>
      (t.bus.bw.get n).hold = true ∧ (t.bus.bw.get n).pend = none ∧ t.bus.bw.seq = (s.bus.bw.seq + 1) % 256 ∧
        bitAt t.klp.irq irqAlarm = true)) ∧
  (∀ s : State, s.bus.bw.running = true → s.alarmTargets ≠ [] → Does .bwSummary s [.klp, .bus] [] fun t =>
    t.klp = s.klp ∧ t.bus.bw.seq = (s.bus.bw.seq + 1) % 256 ∧ t.bus.bw.summaries = satInc 32 s.bus.bw.summaries ∧
      t.bus.bw.replaced = 0 ∧ (∀ x ∈ t.bus.bw.sources, x.limited = false) ∧ t.bus.bw.running = !s.bus.bw.second.isEmpty) ∧
  (∀ s : State,
    ((s.reg Reg.HB_PERIOD = 0 ∨ s.storm = true ∨ (s.hm.owner = none ∧ s.hm.takeover = none)) → Rests .deviceHeartbeat s) ∧
    (∀ k, s.reg Reg.HB_PERIOD ≠ 0 → s.storm = false → s.hm.takeover = some k → k.planned = false →
      Does .deviceHeartbeat s [.bus] [] fun t => t.bus = { s.bus with hbDue := true }) ∧
    (s.reg Reg.HB_PERIOD ≠ 0 → s.hm.owner ≠ none → s.storm = false → s.hm.takeover = none → Does .deviceHeartbeat s [.bus] [] fun t =>
      t.bus = { s.bus with ch := t.bus.ch } ∧ ∀ c : Bus, bitAt (s.reg Reg.HB_CHANNELS) c.idx = true → (s.chan c).active = .normal →
        7 < (s.chan c).queues.length → ((s.chan c).queues.getD 7 []).length < 2 →
        ∃ f, (t.chan c).queues.getD 7 [] = (s.chan c).queues.getD 7 [] ++ [f] ∧ f.f.id = s.ownId 0xF ∧ f.f.data = s.heartbeatData)) ∧
  (∀ (c : Bus) (r : RxFrame) (rest : List RxFrame) (s : State), s.nextNet c r rest →
    (r.f.data.getD 0 0 = 1 → Does (.netHeartbeatNow c) s [.klp, .bus] [] fun t => (t.chan c).rx = rest ∧
      (bitAt (s.reg Reg.HB_CHANNELS) c.idx = true → (s.chan c).active = .normal →
        7 < (s.chan c).queues.length → ((s.chan c).queues.getD 7 []).length < 2 →
        ∃ f, (t.chan c).queues.getD 7 [] = (s.chan c).queues.getD 7 [] ++ [f] ∧ f.f.id = s.ownId 0xF)) ∧
    (r.f.data.getD 0 0 = 2 → Does (.netLockAll c) s [.klp, .bus] [] fun t =>
      (t.chan c).rx = rest ∧ t.klp = { s.klp with sessions := [], netIgnored := t.klp.netIgnored }) ∧
    (r.f.data.getD 0 0 = 3 → Does (.netQuiet c) s [.klp, .bus] [] fun t => (t.chan c).rx = rest ∧ t.bus.quiet = true ∧
      ∀ d, ((s.chan d).active = .normal → (t.chan d).request = some .restricted) ∧
        ((s.chan d).active ≠ .normal → (t.chan d).request = (s.chan d).request)) ∧
    (r.f.data.getD 0 0 = 4 → Does (.netTimeRequest c) s [.klp, .bus] [] fun t => (t.chan c).rx = rest ∧
      (bitAt (s.reg Reg.TIME_CHANNELS) c.idx = true → (s.chan c).active = .normal →
        1 < (s.chan c).queues.length → ((s.chan c).queues.getD 1 []).length < 4 →
        ∃ f, (t.chan c).queues.getD 1 [] = (s.chan c).queues.getD 1 [] ++ [f] ∧ f.f.id = s.ownId 2))) ∧
  ∀ s : State, s.bus.quiet = true → Does .quietEnd s [.bus] [] fun t => t.bus.quiet = false ∧
    ∀ d, (((s.chan d).active = .off ∨ (s.chan d).probe ≠ none ∨ (s.chan d).rateSuspect = true) → t.chan d = s.chan d) ∧
      ((s.chan d).active ≠ .off → (s.chan d).probe = none → (s.chan d).rateSuspect = false → t.chan d = { s.chan d with
        request := if ChMode.ofCode (s.reg (Reg.BUS_MODE d.idx)) = (s.chan d).active then none
          else some (.ofCode (s.reg (Reg.BUS_MODE d.idx))) })

/-! ### The ledger -/

/-- READ, WRITE and `IRQ_CLEAR` (R386, R388 to R390, R404, R408, R425): a read is refused for an entry that is not there, the keys, a DOMAIN object
and a frozen tally, and else answers the value as it stands; a write of an entry without a rule of its own takes a value in its range; a write of
one with a row of its own is that row's command; `IRQ_CLEAR` clears the bits set in it from 1 on. Where the rules leave it open it follows the
model's log entries 13 and 52. -/
def Obligations.EntryRequests : Prop :=
  (∀ (a : Ask) (s : State), s.serves (askRequest a opRead) →
    let q := askRequest a opRead
    (findEntry q.key = none → Does (.klpRead a) s [.klp] [] fun t => t.klp = (s.answered q .noObject []).klp) ∧
    (readForbidden q.key = true → Does (.klpRead a) s [.klp] [] fun t => t.klp = (s.answered q .access []).klp) ∧
    ∀ e, findEntry q.key = some e → readForbidden q.key = false →
      ((e.ty = .domain ∨ a.data ≠ []) → Does (.klpRead a) s [.klp] [] fun t => t.klp = (s.answered q .type []).klp) ∧
      (e.ty ≠ .domain → a.data = [] →
        ((s.nv.tally q.key).any Tally.frozen = true →
          Does (.klpRead a) s [.klp] [] fun t => t.klp = (s.answered q .uncorrectable []).klp) ∧
        ((s.nv.tally q.key).any Tally.frozen = false → Does (.klpRead a) s [.klp, .bus] [] fun t =>
          t.responded (respTo q .ok (leBytes e.ty.bytes ((s.ready q).entryValue a.req.id q.key))) ∧
            (q.key ≠ Reg.BUS_STATUS 0 → q.key ≠ Reg.BUS_STATUS 1 → t.bus = s.bus)))) ∧
  (∀ (key : Nat) (s : State) (w : Wr), s.accepts w key → entryRule w.req key = plainRule key →
    (inRange key w.val = false → Refuses (.klpWrite key w) s w key .range ∧ Refuses (.registerWrite key w) s w key .range) ∧
    (inRange key w.val = true → s.stores key w.val → Takes (.klpWrite key w) s w key ∧ Takes (.registerWrite key w) s w key)) ∧
  (∀ (s : State) (w : Wr), exec (.klpWrite Reg.RATE_MODE w) s = exec (.rateModeWrite w) s ∧
    exec (.klpWrite Reg.MAINS_MODE w) s = exec (.mainsModeWrite w) s ∧ exec (.klpWrite Reg.GAIN_MODE w) s = exec (.gainModeWrite w) s ∧
    exec (.klpWrite Reg.IRQ_CLEAR w) s = exec (.irqClearWrite w) s ∧ exec (.klpWrite Reg.DATE_TIME w) s = exec (.dateTimeWrite w) s ∧
    exec (.registerWrite Reg.VIDEO_ENABLE w) s = exec (.videoEnableWrite w) s ∧
    ∀ c : Bus, exec (.registerWrite (Reg.BUS_MODE c.idx) w) s = exec (.busModeWrite c w) s) ∧
  ∀ (s : State) (w : Wr), s.accepts w Reg.IRQ_CLEAR → Does (.irqClearWrite w) s [.klp] [] fun t =>
    t.klp = { (s.answered (wrRequest w Reg.IRQ_CLEAR) .ok []).klp with irq := t.klp.irq } ∧
      ∀ i, bitAt t.klp.irq i = (bitAt s.klp.irq i && !(decide (1 ≤ i ∧ i < 8) && bitAt w.val i))

/-- Segmented transfers (R399 to R401): a read and a write transfer open with their first segment's place, a fifth is BUSY, an object held by another
write is BUSY, a length that does not fit is out of range; the next segment is staged, a repeat of the previous one writes nothing, any other
offset is out of range, and the last one closes the transfer with the object's own answer; an abort and 10 s of idleness close it; a stream
starts on an FD channel. Where the rules leave it open it follows the model's log entries 14 to 18. -/
def Obligations.Transfers : Prop :=
  (∀ (a : Ask) (v : View) (s : State), s.serves (askRequest a opSegReadStart) →
    (∀ x ∈ s.klp.transfers, s.now ≤ x.last + 10 * clkSec) →
    let q := askRequest a opSegReadStart
    (s.ready q).checkSegRead q (fun n => n == 0) = none → (s.ready q).view a.req.id q.key = some v →
    (s.transferOf a.req.id q.key false = none → s.transfersFull a.req.id = true →
      Does (.segReadStart a) s [.klp] [] fun t => t.klp = (s.answered q .busy []).klp) ∧
    ((s.transferOf a.req.id q.key false ≠ none ∨ s.transfersFull a.req.id = false) → Does (.segReadStart a) s [.klp] [] fun t =>
      t.responded (respTo q .ok (leBytes 4 v.length)) ∧ ∃ x, t.transferOf a.req.id q.key false = some x ∧ x.length = v.length ∧
        x.last = s.now ∧ (snapshotRead q.key = true → x.data = v.slice 0 v.length))) ∧
  (∀ (a : Ask) (s : State), s.serves (askRequest a opSegRead) → (∀ x ∈ s.klp.transfers, s.now ≤ x.last + 10 * clkSec) →
    let q := askRequest a opSegRead
    (s.ready q).checkSegRead q (fun n => n == 6) = none →
    (s.transferOf a.req.id q.key false = none → Does (.segRead a) s [.klp] [] fun t => t.klp = (s.answered q .state []).klp) ∧
    ∀ x, s.transferOf a.req.id q.key false = some x →
      (x.length ≤ leValue (a.data.take 4) → Does (.segRead a) s [.klp] [] fun t => t.responded (respTo q .range [])) ∧
      (leValue (a.data.take 4) < x.length → s.readBad q.key (leValue (a.data.take 4))
          (min (min (leValue (a.data.drop 4)) (maxRead a.req.port)) (x.length - leValue (a.data.take 4))) = false →
        x.snap = true → Does (.segRead a) s [.klp, .freeCtr] [] fun t => t.responded (respTo q .ok
          ((x.data.drop (leValue (a.data.take 4))).take (min (leValue (a.data.drop 4)) (maxRead a.req.port)))))) ∧
  (∀ (a : Ask) (s : State), s.serves (askRequest a opSegWriteStart) → (∀ x ∈ s.klp.transfers, s.now ≤ x.last + 10 * clkSec) →
    let q := askRequest a opSegWriteStart
    (s.ready q).checkSegWrite q (fun n => n == 4) = none →
    (s.openBusy a.req.id q.key = true → Does (.segWriteStart a) s [.klp] [] fun t => t.klp = (s.answered q .busy []).klp) ∧
    ∀ lo hi, writeLimits q.key = some (lo, hi) → s.openBusy a.req.id q.key = false →
      (within lo hi (leValue a.data) = false → Does (.segWriteStart a) s [.klp] [] fun t => t.klp = (s.answered q .range []).klp) ∧
      (within lo hi (leValue a.data) = true → Does (.segWriteStart a) s [.klp, .slip] [] fun t =>
        t.responded (respTo q .ok (leBytes 2 (maxWrite a.req.port))) ∧ ∃ x, t.transferOf a.req.id q.key true = some x ∧
          x.length = leValue a.data ∧ x.pos = 0 ∧ x.last = s.now)) ∧
  (∀ (a : Ask) (s : State), s.serves (askRequest a opSegWrite) → (∀ x ∈ s.klp.transfers, s.now ≤ x.last + 10 * clkSec) →
    let q := askRequest a opSegWrite
    (s.ready q).checkSegWrite q (fun n => within 4 (4 + maxWrite a.req.port) n) = none →
    (s.transferOf a.req.id q.key true = none → Does (.segWrite a) s [.klp] [] fun t => t.klp = (s.answered q .state []).klp) ∧
    ∀ x, s.transferOf a.req.id q.key true = some x →
      (leValue (a.data.take 4) = x.pos → x.length < x.pos + (a.data.drop 4).length →
        Does (.segWrite a) s [.klp] [] fun t => t.responded (respTo q .range [])) ∧
      (leValue (a.data.take 4) ≠ x.pos → x.lastOff = some (leValue (a.data.take 4)) →
        Does (.segWrite a) s [.klp] [] fun t => t.responded (respTo q .ok []) ∧
          t.transferOf a.req.id q.key true = some { x with last := s.now }) ∧
      (leValue (a.data.take 4) ≠ x.pos → x.lastOff ≠ some (leValue (a.data.take 4)) →
        Does (.segWrite a) s [.klp] [] fun t => t.responded (respTo q .range [])) ∧
      (leValue (a.data.take 4) = x.pos → q.key ≠ Reg.COEF_PLANE → q.key ≠ Reg.SLIP_IMAGE → q.key ≠ Reg.OFFSET_LOAD →
        (x.pos + (a.data.drop 4).length < x.length → Does (.segWrite a) s [.klp] [] fun t =>
          t.responded (respTo q .ok []) ∧ t.transferOf a.req.id q.key true = some { x with
            data := x.data ++ a.data.drop 4, pos := x.pos + (a.data.drop 4).length, lastOff := some x.pos, last := s.now }) ∧
        (x.pos + (a.data.drop 4).length = x.length → q.key = Reg.PANEL_IMAGE → Does (.segWrite a) s [.klp, .panel] [] fun t =>
          t.responded (respTo q .ok []) ∧ t.transferOf a.req.id q.key true = none ∧
            t.panel = { s.panel with requests := x.data ++ a.data.drop 4, frameFault := false }))) ∧
  (∀ (a : Ask) (s : State), s.serves (askRequest a opSegAbort) → (∀ x ∈ s.klp.transfers, s.now ≤ x.last + 10 * clkSec) →
    let q := askRequest a opSegAbort
    checkSegAbort q = none →
    ((∃ x ∈ s.klp.transfers, x.id = a.req.id ∧ x.key = q.key) → Does (.segAbort a) s [.klp, .cal, .slip] [] fun t =>
      t.responded (respTo q .ok []) ∧
        ∀ x, x ∈ t.klp.transfers ↔ x ∈ s.klp.transfers ∧ ¬(x.id = a.req.id ∧ x.key = q.key)) ∧
    ((∀ x ∈ s.klp.transfers, ¬(x.id = a.req.id ∧ x.key = q.key)) →
      Does (.segAbort a) s [.klp] [] fun t => t.klp = (s.answered q .state []).klp)) ∧
  (∀ (a : Ask) (j : StreamJob) (s : State), s.streamJob (askRequest a opSegStream) = some j →
    Does (.segStream a) s [.klp] [] fun t => t.klp = { (s.ready (askRequest a opSegStream)).klp with streams := s.klp.streams ++ [j] } ∧
      s.reg (Reg.FD_ENABLE j.bus.idx) = 1 ∧ j.sent = 0 ∧ j.offset = leValue (a.data.take 4)) ∧
  ∀ (id key : Nat) (s : State), Does (.transferIdleTimeout id key) s [.klp, .cal, .slip] [] fun t =>
    ∀ x, x ∈ t.klp.transfers ↔ x ∈ s.klp.transfers ∧ ¬(x.id = id ∧ x.key = key ∧ x.last + 10 * clkSec ≤ s.now)

/-- Sessions and the small operations (R388, R402, R403, R405, R411): the right key opens a session at its level; a wrong one is counted, and a
lockout answers ACCESS until it ends; a lock and a timeout return the requester to PUBLIC; the master's heartbeat is kept; ECHO gives its data
back; MANIFEST is answered by who serves, or by the harbourmaster alone. Where the rules leave it open it follows the model's log entries 19 and
21. -/
def Obligations.Sessions : Prop :=
  (∀ (a : Ask) (s : State), s.serves (askRequest a opUnlock) →
    let q := askRequest a opUnlock
    let level := a.data.getD 0 0
    (s.lockedOut a.req.id = false → a.data.length ≠ 9 → Does (.unlock a) s [.klp] [] fun t => t.klp = (s.answered q .type []).klp) ∧
    (s.lockedOut a.req.id = true → Does (.unlock a) s [.klp] [] fun t => t.klp = (s.answered q .access []).klp) ∧
    (a.data.length = 9 → s.lockedOut a.req.id = false →
      ((level < 1 ∨ 3 < level) → Does (.unlock a) s [.klp] [] fun t => t.klp = (s.answered q .range []).klp) ∧
      (1 ≤ level → level ≤ 3 → a.data.drop 1 ≠ s.keyOf level → Does (.unlock a) s [.klp] [] fun t =>
        t.responded (respTo q .access []) ∧ t.klp.unlockFails = satInc 32 s.klp.unlockFails ∧ t.levelOf a.req.id = s.levelOf a.req.id) ∧
      (1 ≤ level → level ≤ 3 → a.data.drop 1 = s.keyOf level →
        (s.levelOf a.req.id = 0 → 16 ≤ s.klp.sessions.length →
          Does (.unlock a) s [.klp] [] fun t => t.klp = (s.answered q .busy []).klp) ∧
        ((s.levelOf a.req.id ≠ 0 ∨ s.klp.sessions.length < 16) → Does (.unlock a) s [.klp] [] fun t =>
          t.responded (respTo q .ok [level]) ∧ t.levelOf a.req.id = level ∧ ∀ n, n ≠ a.req.id → t.levelOf n = s.levelOf n)))) ∧
  (∀ (n : Nat) (s : State), (s.failsOf n).locked = true → s.lockedOut n = false → Does (.unlockLockoutEnd n) s [.klp] [] fun t =>
    (t.failsOf n).locked = false ∧ ∀ m, m ≠ n → t.failsOf m = s.failsOf m) ∧
  (∀ (a : Ask) (s : State), s.serves (askRequest a opLock) → a.data = [] → Does (.lock a) s [.klp] [] fun t =>
    t.responded (respTo (askRequest a opLock) .ok []) ∧ t.levelOf a.req.id = 0 ∧ ∀ n, n ≠ a.req.id → t.levelOf n = s.levelOf n) ∧
  (∀ (n : Nat) (x : Session) (s : State), s.klp.sessions.find? (fun y => y.id == n) = some x →
    x.last + s.reg Reg.UNLOCK_TIMEOUT * clkSec ≤ s.now → Does (.sessionTimeout n) s [.klp] [] fun t =>
      t.levelOf n = 0 ∧ ∀ m, m ≠ n → t.levelOf m = s.levelOf m) ∧
  (∀ (a : Ask) (s : State), s.serves (askRequest a opHeartbeat) → a.data = [] → Does (.klpHeartbeat a) s [.klp, .loop] [] fun t =>
    t.responded (respTo (askRequest a opHeartbeat) .ok []) ∧
      ((s.reg Reg.MASTER_SOURCE ≠ 0 ∧ s.reg Reg.MASTER_SOURCE = a.req.id) →
        t.klp.masterHb = some s.now ∧ t.loop = { s.loop with seenMaster := true }) ∧
      (s.reg Reg.MASTER_SOURCE ≠ a.req.id → t.klp.masterHb = s.klp.masterHb ∧ t.loop = s.loop)) ∧
  (∀ (a : Ask) (s : State), a.data = [] →
    (s.serving a.req.port = .hmOnly → Does (.manifest a) s [.klp] [] fun t =>
      t.responded (respTo (askRequest a opManifest) .ok (s.manifest 0))) ∧
    (s.serves (askRequest a opManifest) → Does (.manifest a) s [.klp] [] fun t =>
      t.responded (respTo (askRequest a opManifest) .ok
        ((s.ready (askRequest a opManifest)).manifest (s.ready (askRequest a opManifest)).manifestWriter)))) ∧
  ∀ (a : Ask) (s : State), s.serves (askRequest a opEcho) →
    Does (.echo a) s [.klp] [] fun t => t.klp = (s.answered (askRequest a opEcho) .ok a.data).klp

/-- The ledger's ports (R393 to R397): a response not queued within 100 ms is given up, and so is a message with a gap of over 100 ms; a request
transaction of the right form puts its request in the queue, one of the wrong length or CRC leaves its error code; a whole response read takes
the response from the FIFO, a shorter one leaves it. Where the rules leave it open it follows the model's log entries 22, 52 and 59. -/
def Obligations.LedgerPorts : Prop :=
  (∀ (c : Bus) (x : OutResp) (s : State), s.klp.sending = some x → x.bus = c → x.since + 100 * clkMs ≤ s.now →
    Does (.klpResponseAbandon c) s [.klp] [] fun t => t.klp = { s.klp with sending := none }) ∧
  (∀ (c : Bus) (peer : Nat) (x : Rasm) (s : State), s.openMessage c peer = some x → x.last + 100 * clkMs < s.now →
    Does (.klpFrameGapTimeout c peer) s [.klp] [] fun t => t.openMessage c peer = none ∧
      t.klp = { s.klp with rasm := t.klp.rasm, discards := satInc 32 s.klp.discards } ∧
      ∀ d p, ¬(d = c ∧ p = peer) → t.openMessage d p = s.openMessage d p) ∧
  (∀ (bytes : List Nat) (s : State), s.windowAnswers = true → s.nv.openWord = none →
    ((bytes.length ≠ 4 + u16At bytes 0 ∨ u16At bytes 0 < 8 ∨ 4104 < u16At bytes 0) →
      Does (.spiRequestTransaction (0xA5 :: bytes)) s [.klp] [] fun t =>
        t.klp = { s.klp with linkErr := 2, spiOut := zeros bytes.length }) ∧
    (∀ m, bytes = leBytes 2 m.length ++ m ++ leBytes 2 (crc16 (leBytes 2 m.length ++ m)) → 8 ≤ m.length → m.length ≤ 4104 →
      (8 ≤ s.klp.fifo.length → Does (.spiRequestTransaction (0xA5 :: bytes)) s [.klp] [] fun t =>
        t.klp = { s.klp with linkErr := 3, spiOut := zeros bytes.length }) ∧
      (∀ q, s.klp.fifo.length < 8 → requestOf .spi 0 m = some q → q.op ∈ knownOps → s.serving .spi = .full →
        s.klp.queue.length < 32 → Does (.spiRequestTransaction (0xA5 :: bytes)) s [.klp] [] fun t =>
          t.klp = { s.klp with queue := s.klp.queue ++ [q], spiOut := zeros bytes.length })) ∧
    (∀ m crc, bytes = leBytes 2 m.length ++ m ++ leBytes 2 crc → 8 ≤ m.length → m.length ≤ 4104 →
      crc % 65536 ≠ crc16 (leBytes 2 m.length ++ m) → Does (.spiRequestTransaction (0xA5 :: bytes)) s [.klp] [] fun t =>
        t.klp = { s.klp with crcErrors := satInc 32 s.klp.crcErrors, linkErr := 1, spiOut := zeros bytes.length })) ∧
  ∀ (n : Nat) (s : State), s.windowAnswers = true → s.nv.openWord = none →
    (s.klp.fifo = [] → 2 ≤ n → Does (.spiResponseRead n) s [.klp] [] fun t =>
      t.klp = { s.klp with linkErr := 0, spiOut := s.klp.linkErr :: zeros (n - 2) }) ∧
    (∀ r rest, s.klp.fifo = r :: rest →
      (n < r.message.length + 6 → Does (.spiResponseRead n) s [.klp] [] fun t => t.klp.fifo = s.klp.fifo) ∧
      (r.message.length + 6 ≤ n → (∀ x ∈ s.klp.outbox, x.req.port ≠ .spi) → Does (.spiResponseRead n) s [.klp] [] fun t =>
        t.klp = { s.klp with fifo := rest, linkErr := 0, spiOut := t.klp.spiOut } ∧
          t.klp.spiOut.take (r.message.length + 3) = (128 + s.klp.linkErr) :: (leBytes 2 r.message.length ++ r.message)))

/-! ### The store, the logbook -/

/-- The host window (R416, R427, R429 to R432): with CS_NV_L free the latch, the status, the held address and the identity answer as they stand; a
read gives the bytes at its addresses, on past the end; a write with the latch puts its bytes there, onward or within the page, and nothing else;
without the latch or with the host locked out it is ignored; after PFAIL or without power every command is. Where the rules leave it open it
follows the model's log entry 59. -/
def Obligations.Window : Prop :=
  (∀ (n addr b : Nat) (bytes : List Nat) (cont : Bool) (s : State), s.windowAnswers = false →
    Rests .nvWren s ∧ Rests .nvWrdi s ∧ Rests (.nvRdsr n) s ∧ Rests (.nvWrsr b) s ∧ Rests (.nvRead addr n) s ∧ Rests (.nvFastRead addr n) s ∧
      Rests (.nvWrite addr bytes cont) s ∧ Rests (.nvRder n) s ∧ Rests .nvCler s ∧ Rests (.nvRdid n) s) ∧
  (∀ (p : Nat × List (Nat × Nat)) (s : State), s.windowAnswers = true → s.nv.openWord = some p →
    s.closeOpen.nv.openWord = none ∧ exec .nvWrdi s = exec .nvWrdi s.closeOpen) ∧
  ∀ s : State, s.windowAnswers = true → s.nv.openWord = none →
    Does .nvWren s [.klp, .nv] [] (fun t => t.nv = { s.nv with wel := true } ∧ t.klp = { s.klp with spiOut := [] }) ∧
    Does .nvWrdi s [.klp, .nv] [] (fun t => t.nv = { s.nv with wel := false } ∧ t.klp = { s.klp with spiOut := [] }) ∧
    (∀ n, Does (.nvRdsr n) s [.klp] [] fun t => t.klp = { s.klp with spiOut := List.replicate n s.windowStatus }) ∧
    (∀ b, (s.nv.wel = false → Does (.nvWrsr b) s [.klp] [] fun t => t.klp = { s.klp with spiOut := [] }) ∧
      (s.nv.wel = true → s.stores Reg.NV_PAGE_MODE (field b 2 1) → Does (.nvWrsr b) s [.klp, .nv] [Reg.NV_PAGE_MODE] fun t =>
        t.reg Reg.NV_PAGE_MODE = field b 2 1 ∧ ParamsOnly s t)) ∧
    (∀ addr n, (∀ k, k < n → (addr + k) % windowBytes / 8 ∉ s.nv.winBad) →
      Does (.nvRead addr n) s [.klp] [] (fun t => t.klp = { s.klp with
        spiOut := (List.range n).map fun k => (Memory.read s.nv.win ((addr + k) % windowBytes)).toNat }) ∧
      exec (.nvFastRead addr n) s = exec (.nvRead addr n) s) ∧
    (∀ addr bytes cont, (s.nv.wel = false ∨ s.reg Reg.NV_HOST_LOCK = 1) → Does (.nvWrite addr bytes cont) s [.klp, .nv] [] fun t =>
      t.nv = { s.nv with ignored := satInc 32 s.nv.ignored }) ∧
    (∀ addr bytes, s.nv.wel = true → s.reg Reg.NV_HOST_LOCK ≠ 1 → s.nv.winBad = [] →
      (s.reg Reg.NV_PAGE_MODE = 1 → bytes.length ≤ windowBytes →
        Does (.nvWrite addr bytes false) s [.klp, .nv, .window] [Reg.RMW_OPERATIONS] fun t => t.nv.openWord = none ∧
          (∀ k, k < bytes.length → Memory.read t.nv.win ((addr + k) % windowBytes) = BitVec.ofNat 8 (bytes.getD k 0)) ∧
          ∀ a, (∀ k, k < bytes.length → a ≠ (addr + k) % windowBytes) → Memory.read t.nv.win a = Memory.read s.nv.win a) ∧
      (s.reg Reg.NV_PAGE_MODE ≠ 1 → bytes.length ≤ 256 →
        Does (.nvWrite addr bytes false) s [.klp, .nv, .window] [Reg.RMW_OPERATIONS] fun t => t.nv.openWord = none ∧
          (∀ k, k < bytes.length → Memory.read t.nv.win (addr % windowBytes / 256 * 256 + (addr + k) % 256) =
            BitVec.ofNat 8 (bytes.getD k 0)) ∧
          ∀ a, (∀ k, k < bytes.length → a ≠ addr % windowBytes / 256 * 256 + (addr + k) % 256) →
            Memory.read t.nv.win a = Memory.read s.nv.win a) ∧
      ∀ b, addr % 8 ≠ 7 → Does (.nvWrite addr [b] true) s [.klp, .nv] [] fun t =>
        t.nv = { s.nv with openWord := some (addr % windowBytes / 8, [(addr % 8, b % 256)]) }) ∧
    (∀ n a, s.nv.firstUe = some a → Does (.nvRder n) s [.klp] [] fun t => t.klp = { s.klp with
      spiOut := ([a / 65536 % 256, a / 256 % 256, a % 256] ++ List.replicate n 0xFF).take n }) ∧
    (∀ n, s.nv.firstUe = none → Does (.nvRder n) s [.klp, .freeCtr] [] fun t => t.klp = { s.klp with spiOut := t.klp.spiOut } ∧
      t.klp.spiOut.length = n ∧ ∀ k, 3 ≤ k → k < n → t.klp.spiOut.getD k 0 = 0xFF) ∧
    Does .nvCler s [.klp, .nv] [] (fun t => t.nv = { s.nv with ue := false, wfail := false, firstUe := none }) ∧
    ∀ n, Does (.nvRdid n) s [.klp] [] fun t => t.klp = { s.klp with spiOut := ([0x0D, 0xC5, 0x18] ++ zeros n).take n }

/-- Compaction, buckets and the logbook (R422, R427, R439, R447, R451, R452, R454, R456, R457): a compaction that reads back keeps the newest value
of every key, one that does not leaves the area in use; a bucket leaks one; the writer puts the next record in the ring, and one of an anchor
type beside it in the anchor area; the streamer sends the next record where queue 5 has room; a clear moves CLEAR_SEQ and records itself; a
cursor is the requester's own. Where the rules leave it open it follows the model's log entries 46 and 60. -/
def Obligations.Logbook : Prop :=
  (∀ s : State, s.nv.compacting = true → s.pfail = false →
    Does (.compactionDone true) s [.nv, .freeCtr] [] (fun t => t.nv.compacting = false ∧ t.nv.useOne = !s.nv.useOne ∧
      (∀ k, (t.nv.area.find k).map PRec.value = (s.nv.area.find k).map PRec.value) ∧
      (s.nv.compactions + 1 < 2 ^ 32 → t.nv.compactions = s.nv.compactions + 1)) ∧
    Does (.compactionDone false) s [.nv, .log] [] fun t => t.nv.compacting = false ∧ t.nv.compactFailed = true ∧
      t.nv.useOne = s.nv.useOne ∧ t.nv.area = s.nv.area ∧
      (s.log.queue.length < 256 → ∃ r, t.log.queue = s.log.queue ++ [r] ∧ r.typ = Lt.NV_MEDIA)) ∧
  (∀ (m : Nat) (s : State), m ≤ 4 → Does (.bucketLeak m) s [] [Reg.BUCKET_LEVEL m] fun t =>
    t.reg (Reg.BUCKET_LEVEL m) = (s.reg (Reg.BUCKET_LEVEL m) - 1) % 2 ^ keyBits (Reg.BUCKET_LEVEL m)) ∧
  (∀ s : State, (s.pfail = true ∨ s.pwr.rails = false) → Rests .logRecordWrite s) ∧
  (∀ (r : LogRec) (rest : List LogRec) (s : State), s.pfail = false → s.pwr.rails = true → s.log.queue = r :: rest →
    s.log.inLifeboat = false → s.log.resumePending = false → s.log.badBlocks = [] →
    Does .logRecordWrite s [.klp, .log] [] fun t => t.log.queue = rest ∧ t.log.headSeq = r.seq ∧
      (∃ b, t.log.ring.getLast? = some b ∧ b.recs.getLast? = some r) ∧
      (isAnchorType r.typ = false → t.log.anchor = s.log.anchor ∧ t.klp = s.klp) ∧
      (isAnchorType r.typ = true → bitAt t.klp.irq irqLog = true ∧ (s.log.badAnchor = [] → s.log.anchorRetired = [] →
        t.log.anchorHead = r.seq ∧ ∃ b, t.log.anchor.getLast? = some b ∧ b.recs.getLast? = some r))) ∧
  (∀ s : State, (s.streamBus = none ∨ s.streamNext = none) → Rests .logStreamSend s) ∧
  (∀ (c : Bus) (bytes : List Nat) (cursor : Nat) (s : State), s.streamBus = some c → s.streamNext = some (some bytes, cursor) →
    5 < (s.chan c).queues.length →
    (((s.chan c).queues.getD 5 []).length + (streamFrames bytes).length ≤ 16 → Does .logStreamSend s [.log, .bus] [] fun t =>
      t.log = { s.log with streamNext := cursor } ∧ (t.chan c).queues.getD 5 [] = (s.chan c).queues.getD 5 [] ++
        (streamFrames bytes).map fun f => plainFrame (s.ownId 0x7) true (fdPad f)) ∧
    (16 < ((s.chan c).queues.getD 5 []).length + (streamFrames bytes).length → Rests .logStreamSend s)) ∧
  (∀ (c : Bus) (cursor : Nat) (s : State), s.streamBus = some c → s.streamNext = some (none, cursor) →
    Does .logStreamSend s [.log] [] fun t => t.log = { s.log with streamNext := cursor }) ∧
  (∀ (s : State) (w : Wr), s.accepts w Reg.LOG_CLEAR →
    ((w.val = 0xC1 ∨ (w.val = 0xA5 ∧ 3 ≤ s.levelOf w.req.id)) → Obeys (.logClearWrite w) s w Reg.LOG_CLEAR [.log] [] fun t =>
      t.log.clearSeq = s.log.nextSeq ∧ t.log.ring = s.log.ring ∧ t.log.anchor = (if w.val = 0xA5 then [] else s.log.anchor) ∧
        (s.log.queue.length < 256 → ∃ r, t.log.queue = s.log.queue ++ [r] ∧ r.typ = Lt.LOG_CLEARED ∧ r.seq = s.log.nextSeq)) ∧
    (w.val = 0xA5 → s.levelOf w.req.id < 3 → Refuses (.logClearWrite w) s w Reg.LOG_CLEAR .access) ∧
    (w.val ≠ 0xC1 → w.val ≠ 0xA5 → Refuses (.logClearWrite w) s w Reg.LOG_CLEAR .range)) ∧
  ∀ (s : State) (w : Wr), s.accepts w Reg.LOG_CURSOR → Obeys (.logCursorWrite w) s w Reg.LOG_CURSOR [.log] [] fun t =>
    t.log.cursor w.req.id = w.val ∧ t.log = { s.log with cursors := t.log.cursors } ∧ t.log.cursors.length ≤ 8

/-! ### The mooring domain and the calendar -/

/-- The mooring domain's supply and crystal (R463 to R465): the switch to VBAK, to the bridge capacitor and back; each entry into BACKUP is counted;
the bridge's end is DOWN; the domain starts from 0 with its settings at their defaults, invalid, with TIME_LOST pending until it is written; the
crystal's stop ends trim. Where the rules leave it open it follows the model's log entries 3 and 46. -/
def Obligations.Mooring : Prop :=
  (∀ (vbak : Nat) (s : State), s.rtc.supply = .main → s.rtc.backupEvents + 1 < 2 ^ 32 → Does (.vaonLoss vbak) s [.rtc] [] fun t =>
    t.rtc = { s.rtc with supply := if vbak < 1600 then .bridge else .backup, backupEvents := s.rtc.backupEvents + 1 }) ∧
  (∀ s : State, (s.rtc.supply = .backup ∨ s.rtc.supply = .bridge) →
    Does .vaonReturn s [.rtc] [] fun t => t.rtc = { s.rtc with supply := .main }) ∧
  (∀ s : State, s.rtc.supply = .backup → Does .vbakDrop s [.rtc] [] fun t => t.rtc = { s.rtc with supply := .bridge }) ∧
  (∀ s : State, s.rtc.supply = .bridge → Does .bridgeTimeout s [.rtc] [] (fun t => t.rtc = { s.rtc with supply := .down }) ∧
    (s.rtc.backupEvents + 1 < 2 ^ 32 → Does .vbakReturn s [.rtc] [] fun t =>
      t.rtc = { s.rtc with supply := .backup, backupEvents := s.rtc.backupEvents + 1 })) ∧
  (∀ (main : Bool) (s : State), s.rtc.supply = .down →
    Does (.mooringDomainStart main) s [.log, .rtc, .loop] (rtcSettings ++ (List.range 32).map Reg.PROG_VALUE) fun t =>
      t.rtc.supply = (if main then .main else .backup) ∧ t.rtc.ticks = 0 ∧ t.rtc.offset = 0 ∧ t.rtc.valid = false ∧
        t.rtc.backupEvents = (if main then 0 else 1) ∧ t.rtc.alarmStatus = [0, 0] ∧
        (∀ k ∈ rtcSettings, t.reg k = keyDefault k) ∧
        ((s.tide.running && s.pwr.rails) = false → t.rtc.lostPending = true ∧ t.log = s.log) ∧
        ((s.tide.running && s.pwr.rails) = true → t.rtc.lostPending = false ∧ (s.log.queue.length < 256 →
          ∃ r, t.log.queue = s.log.queue ++ [r] ∧ r.typ = Lt.TIME_LOST))) ∧
  ∀ s : State, Does .xtal32Stop s [.rtc] [] (fun t => t.rtc = { s.rtc with xtalFail := true, trimPulses := 0 }) ∧
    Does .xtal32Return s [.rtc] [] fun t => t.rtc = { s.rtc with xtalFail := false }

/-- The calendar (R468 to R473): a date that does not exist is rejected and counted; a good date and an offset in range set the calendar, valid, with
the next generation; a shift is slewed and then stands in the offset; summer time steps the offset by an hour and is refused where it already is
as asked. Where the rules leave it open it follows the model's log entry 46. -/
def Obligations.Calendar : Prop :=
  (∀ (s : State) (w : Wr), s.accepts w Reg.DATE_TIME →
    (field w.val 0 8 ≠ 0 → Refuses (.dateTimeWrite w) s w Reg.DATE_TIME .range) ∧
    (field w.val 0 8 = 0 → badField w.val ≠ 0 → Does (.dateTimeWrite w) s [.klp, .log, .rtc] [] fun t =>
      t.klp = (s.answered (wrRequest w Reg.DATE_TIME) .timeInvalid []).klp ∧
        t.rtc = { s.rtc with timeRejects := satInc 32 s.rtc.timeRejects } ∧ (s.log.queue.length < 256 →
          ∃ r, t.log.queue = s.log.queue ++ [r] ∧ r.typ = Lt.TIME_REJECT)) ∧
    (field w.val 0 8 = 0 → badField w.val = 0 → Does (.dateTimeWrite w) s [.power, .klp, .log, .rtc, .loop, .video, .pwr, .freeCtr]
      ((List.range 32).map Reg.PROG_VALUE) fun t => t.responded (respTo (wrRequest w Reg.DATE_TIME) .ok []) ∧
        t.calTicks = ((secondOf w.val * tickHz : Nat) : Int) ∧ t.rtc.ticks = s.rtc.ticks ∧ t.rtc.valid = true ∧
        t.rtc.slew = 0 ∧ t.rtc.gen = (s.rtc.gen + 1) % 65536)) ∧
  (∀ (s : State) (w : Wr), s.accepts w Reg.CALENDAR_OFFSET →
    (inCalendar (s.rtc.ticks + toSigned 64 w.val) = false → Refuses (.calendarOffsetWrite w) s w Reg.CALENDAR_OFFSET .range) ∧
    (inCalendar (s.rtc.ticks + toSigned 64 w.val) = true →
      Does (.calendarOffsetWrite w) s [.power, .klp, .log, .rtc, .loop, .video, .pwr, .freeCtr] ((List.range 32).map Reg.PROG_VALUE) fun t =>
        t.responded (respTo (wrRequest w Reg.CALENDAR_OFFSET) .ok []) ∧ t.rtc.offset = toSigned 64 w.val ∧ t.rtc.valid = true ∧
          t.rtc.slew = 0 ∧ t.rtc.gen = (s.rtc.gen + 1) % 65536)) ∧
  (∀ (s : State) (w : Wr), s.accepts w Reg.SUBSEC_SHIFT →
    (s.rtc.valid = false → Refuses (.subsecShiftWrite w) s w Reg.SUBSEC_SHIFT .state) ∧
    (s.rtc.valid = true → withinI (-32767) 32767 (toSigned 16 w.val) = false →
      Refuses (.subsecShiftWrite w) s w Reg.SUBSEC_SHIFT .range) ∧
    (s.rtc.valid = true → withinI (-32767) 32767 (toSigned 16 w.val) = true →
      Obeys (.subsecShiftWrite w) s w Reg.SUBSEC_SHIFT [.log, .rtc] [] fun t => t.rtc = { s.rtc with
        slew := toSigned 16 w.val, gen := (s.rtc.gen + 1) % 65536, sched := s.rtc.sched ++ [2] })) ∧
  (∀ s : State, Does .subsecSlewDone s [.rtc] [] fun t => t.rtc = { s.rtc with offset := s.rtc.offset + s.rtc.slew, slew := 0 }) ∧
  (∀ (r : Req) (s : State), s.accepts { req := r, len := 1, val := 1 } Reg.DST_COMMAND →
    ((s.rtc.valid = false ∨ s.rtc.dst = true) → Refuses (.dstForward r) s { req := r, len := 1, val := 1 } Reg.DST_COMMAND .state) ∧
    (s.rtc.valid = true → s.rtc.dst = false → inCalendar (s.calTicks + 117964800) = true →
      Does (.dstForward r) s [.power, .klp, .log, .rtc, .loop, .video, .pwr, .freeCtr] ((List.range 32).map Reg.PROG_VALUE) fun t =>
        t.rtc.dst = true ∧ t.rtc.offset = s.rtc.offset + 117964800 ∧ t.rtc.gen = (s.rtc.gen + 1) % 65536)) ∧
  ∀ (r : Req) (s : State), s.accepts { req := r, len := 1, val := 2 } Reg.DST_COMMAND →
    ((s.rtc.valid = false ∨ s.rtc.dst = false) → Refuses (.dstBack r) s { req := r, len := 1, val := 2 } Reg.DST_COMMAND .state) ∧
    (s.rtc.valid = true → s.rtc.dst = true →
      Does (.dstBack r) s [.power, .klp, .log, .rtc, .loop, .video, .pwr, .freeCtr] ((List.range 32).map Reg.PROG_VALUE) fun t =>
        t.rtc.dst = false ∧ t.rtc.offset = s.rtc.offset - 117964800 ∧ t.rtc.gen = (s.rtc.gen + 1) % 65536)

/-- Alarms, trim and time frames (R474 to R478, R480): a second is evaluated once, and fires each alarm that it matches; a match of the wrong form is
out of range; 1 to FIRED clears an alarm; a trim window takes the temperature and the cell's voltage; a time frame waits in queue 1 of every
NORMAL channel of `TIME_CHANNELS`. Where the rules leave it open it follows the model's log entries 29 and 46. -/
def Obligations.AlarmsAndTime : Prop :=
  (∀ s : State, s.secondDue = false → Rests .calendarSecond s) ∧
  (∀ s : State, s.secondDue = true → Does .calendarSecond s [.power, .rtc, .video, .pwr, .freeCtr] [] fun t =>
    t.rtc.evaluated = some s.calSecond ∧ t.rtc.ticks = s.rtc.ticks ∧ t.rtc.offset = s.rtc.offset ∧
      ∀ n, n < 2 → n < s.rtc.alarmStatus.length → n < s.rtc.alarmCount.length → n < s.rtc.alarmLast.length →
        (alarmMatches (s.reg (Reg.ALARM_MATCH n)) s.calSecond.toNat = true → bitAt (t.rtc.alarmStatus.getD n 0) 0 = true ∧
          t.rtc.alarmLast.getD n 0 = s.rtc.ticks ∧
          (s.rtc.alarmCount.getD n 0 + 1 < 2 ^ 32 → t.rtc.alarmCount.getD n 0 = s.rtc.alarmCount.getD n 0 + 1)) ∧
        (alarmMatches (s.reg (Reg.ALARM_MATCH n)) s.calSecond.toNat = false →
          t.rtc.alarmStatus.getD n 0 = s.rtc.alarmStatus.getD n 0 ∧ t.rtc.alarmCount.getD n 0 = s.rtc.alarmCount.getD n 0)) ∧
  (∀ (n : Nat) (s : State) (w : Wr), n < 2 → s.accepts w (Reg.ALARM_MATCH n) →
    (alarmAllowed w.val = false → Refuses (.alarmMatchWrite n w) s w (Reg.ALARM_MATCH n) .range) ∧
    (alarmAllowed w.val = true → s.stores (Reg.ALARM_MATCH n) w.val → Takes (.alarmMatchWrite n w) s w (Reg.ALARM_MATCH n))) ∧
  (∀ (n : Nat) (s : State) (w : Wr), n < 2 → s.accepts w (Reg.ALARM_STATUS n) →
    Obeys (.alarmStatusWrite n w) s w (Reg.ALARM_STATUS n) [.rtc] [] fun t =>
      t.rtc = if bitAt w.val 0 then { s.rtc with alarmStatus := s.rtc.alarmStatus.set n 0 } else s.rtc) ∧
  (∀ (temp : Int) (vbak : Nat) (s : State), (s.rtc.supply = .down → Rests (.trimWindow temp vbak) s) ∧
    (s.rtc.supply ≠ .down → Does (.trimWindow temp vbak) s [.rtc] [] fun t => t.rtc = { s.rtc with
      temp := temp, vbakMv := vbak, vbakLow := decide (vbak < 2000), trimAcc := 0, trimPulses := t.rtc.trimPulses } ∧
        -511 ≤ t.rtc.trimPulses ∧ t.rtc.trimPulses ≤ 511 ∧
        ((s.reg Reg.TRIM_ENABLE = 0 ∨ s.rtc.xtalFail = true) → t.rtc.trimPulses = 0))) ∧
  ∀ s : State,
    (s.rtc.sched = [] → s.reg Reg.TIME_FRAME_PERIOD = 0 → Rests .timeFrameSend s) ∧
    ((s.rtc.sched ≠ [] ∨ s.reg Reg.TIME_FRAME_PERIOD ≠ 0) → Does .timeFrameSend s [.rtc, .bus] [] fun t =>
      t.rtc = { s.rtc with sched := s.rtc.sched.tail } ∧ ∀ c : Bus, bitAt (s.reg Reg.TIME_CHANNELS) c.idx = true →
        (s.chan c).active = .normal → s.storm = false → 1 < (s.chan c).queues.length → ((s.chan c).queues.getD 1 []).length < 4 →
        (t.chan c).queues.getD 1 [] = (s.chan c).queues.getD 1 [] ++
          [plainFrame (s.ownId 0x2) (s.fdOn c) (s.timeData (s.fdOn c) (s.rtc.sched.headD 0))])

/-! ### The panel and the keys -/

/-- The panel (R488 to R490, R498; its drive R483, R487, R489, R492, R493, R495 to R497): a drive frame moves every running pass on by one frame and
starts a queued update with its cells; a drive fault ends every run until the rail has recovered; channel 43 serves after 10 s of bad
temperatures; a failed memory check drops what is queued; the mode changes with no waveform running; the storm pattern alternates.
`REGION_UPDATE` queues an update of a defined region, in place of one that is queued; the cells of a region are changed while it has no update,
to none or to cells that no other region has. Where the rules leave it open it follows the model's log entries 34 and 44. -/
def Obligations.Panel : Prop :=
  ((∀ (ok : Bool) (s : State), s.panelLive = false → Rests (.driveFrame ok) s ∧ Rests .driveFault s ∧ Rests (.frameMemoryCheck ok) s) ∧
   (∀ (ok : Bool) (k : Nat) (r : PanelRun) (s : State), s.panelLive = true → k < 8 → s.panel.regions.length = 8 →
     (s.panel.region k).run = some r → (∀ j, (s.panel.region j).queued = none) → r.frame + 1 < r.length (s.runLayers k) →
     Does (.driveFrame ok) s [.nv, .log, .panel, .freeCtr]
       [Reg.BAND_CORRECTIONS, Reg.BAND_REDRIVES, Reg.FRAME_CRC_FAILS, Reg.UPDATES_DONE, Reg.URGENT_CUTS] fun t =>
       t.panel.positive = !s.panel.positive ∧ ∃ x, (t.panel.region k).run = some x ∧ x.frame = r.frame + 1 ∧ x.cells = r.cells ∧
         x.pass = r.pass ∧ x.phase = r.phase) ∧
   (∀ (k : Nat) (q : PanelQueued) (s : State), s.panelLive = true → k < 8 → s.panel.regions.length = 8 →
     (∀ j, (s.panel.region j).run = none) → s.panel.lhRun = none → s.panel.lighthouse = false → s.panelStarts = true →
     (s.panel.region k).queued = some q → q.urgent = false → q.full = true → (∀ j, j ≠ k → (s.panel.region j).queued = none) →
     regionCells (s.reg (Reg.REGION_CELLS k)) ≠ [] → Does (.driveFrame true) s [.nv, .log, .panel, .freeCtr] [] fun t =>
       ∃ x, t.panel.region k = { run := some x, queued := none } ∧ x.phase = .main ∧ x.frame = 0 ∧ x.band = t.panel.band ∧
         x.cells.map Prod.fst = regionCells (s.reg (Reg.REGION_CELLS k))) ∧
   (∀ s : State, s.panelLive = true →
     (s.panel.busy = true → Does .driveFault s [.panel] [Reg.DRIVE_FAULTS] fun t =>
       t.panel.busy = false ∧ t.panel.driveFault = true ∧ t.panel.railBad = true ∧ t.panel.volt = 0 ∧ t.panel.driving = [] ∧
         t.panel.shown = s.panel.shown) ∧
     (s.panel.busy = false → Rests .driveFault s)) ∧
   (∀ s : State, Does .driveRailRecovered s [.panel] [] fun t => t.panel = { s.panel with railBad := false }) ∧
   (∀ (t0 : Nat) (s : State), s.panel.badSince = some t0 → t0 + 10 * clkSec ≤ s.now → Does .panelTempFallback s [.panel] [] fun t =>
     t.panel.fallback = true ∧ (s.aiGood 43 = false → t.panel = { s.panel with fallback := true }) ∧
       (s.aiGood 43 = true → t.panel.band = bandAfter (s.aiValue 43) s.panel.band)) ∧
   (∀ s : State, s.panelLive = true → Rests (.frameMemoryCheck true) s ∧
     Does (.frameMemoryCheck false) s [.panel] [Reg.FRAME_CRC_FAILS] fun t => t.panel.frameFault = true ∧
       t.panel.requests = List.replicate 288 0 ∧ (∀ r ∈ t.panel.regions, r.queued = none) ∧
       t.panel.shown = shownOf (s.nv.stored Reg.PANEL_SHOWN)) ∧
   ∀ s : State,
     (s.panel.busy = true → Rests .panelModeChange s) ∧
     (s.panel.busy = false → Does .panelModeChange s [.panel] [] fun t => t.panel = { s.panel with lighthouse := s.wantLighthouse }) ∧
     (s.storm = true → s.reg Reg.STORM_PANEL = 1 → Does .stormPatternToggle s [.panel] [] fun t =>
       t.panel = { s.panel with pattern := true, patternOn := !s.panel.patternOn }) ∧
     ((s.storm = false ∨ s.reg Reg.STORM_PANEL ≠ 1) → Rests .stormPatternToggle s)) ∧
  (∀ (s : State) (w : Wr), s.accepts w Reg.REGION_UPDATE → field w.val 0 3 < s.panel.regions.length →
    ((field w.val 3 3 ≠ 0 ∨ s.reg (Reg.REGION_CELLS (field w.val 0 3)) = 0) →
      Refuses (.regionUpdateWrite w) s w Reg.REGION_UPDATE .range) ∧
    (field w.val 3 3 = 0 → s.reg (Reg.REGION_CELLS (field w.val 0 3)) ≠ 0 →
      Obeys (.regionUpdateWrite w) s w Reg.REGION_UPDATE [.panel] [Reg.QUEUE_REPLACED] fun t =>
        t.panel.region (field w.val 0 3) = { s.panel.region (field w.val 0 3) with
          queued := some { urgent := bitAt w.val 7, full := bitAt w.val 6, order := s.panel.order } } ∧
        (∀ k, k ≠ field w.val 0 3 → t.panel.region k = s.panel.region k) ∧ t.panel.order = s.panel.order + 1 ∧
        ((s.panel.region (field w.val 0 3)).queued = none → t.reg Reg.QUEUE_REPLACED = s.reg Reg.QUEUE_REPLACED))) ∧
  ∀ (n : Nat) (s : State) (w : Wr), n < 8 → s.accepts w (Reg.REGION_CELLS n) →
    (((s.panel.region n).run ≠ none ∨ (s.panel.region n).queued ≠ none) →
      Refuses (.regionCellsWrite n w) s w (Reg.REGION_CELLS n) .busy) ∧
    ((s.panel.region n).run = none → (s.panel.region n).queued = none →
      (w.val ≠ 0 → (bitAt w.val 31 = true ∨ field w.val 28 3 = 0 ∨ field w.val 4 24 = 0 ∨ field w.val 0 4 = 0 ∨
          s.cellsFree n w.val = false) → Refuses (.regionCellsWrite n w) s w (Reg.REGION_CELLS n) .range) ∧
      ((w.val = 0 ∨ (bitAt w.val 31 = false ∧ field w.val 28 3 ≠ 0 ∧ field w.val 4 24 ≠ 0 ∧ field w.val 0 4 ≠ 0 ∧
          s.cellsFree n w.val = true)) → s.stores (Reg.REGION_CELLS n) w.val →
        Takes (.regionCellsWrite n w) s w (Reg.REGION_CELLS n)))

/-- Keys (R501, R502, R504, R507): one key alone is accepted as pressed, and as released, after `KEY_DEBOUNCE` scans that agree, each with its event;
a held key repeats, is long and is stuck at its times, by its mode; a full FIFO discards the newest event. Where the rules leave it open it
follows the model's log entry 44. -/
def Obligations.Keys : Prop :=
  (∀ (closed : Nat) (s : State), s.panelLive = false → Rests (.keyScan closed) s) ∧
  (∀ (k closed : Nat) (s : State), s.panelLive = true → s.keys.keys.length = 36 → 1 ≤ k → k ≤ 36 →
    (∀ j, 1 ≤ j → j ≤ 36 → bitAt closed (j - 1) = decide (j = k)) → (∀ j, 1 ≤ j → j ≤ 36 → (s.keys.key j).pressed = false) →
    ((s.keys.key k).agree + 1 < s.reg Reg.KEY_DEBOUNCE → Does (.keyScan closed) s [.keys] [] fun t =>
      (t.keys.key k).agree = (s.keys.key k).agree + 1 ∧ ∀ j, (t.keys.key j).pressed = (s.keys.key j).pressed) ∧
    (s.reg Reg.KEY_DEBOUNCE ≤ (s.keys.key k).agree + 1 → Does (.keyScan closed) s [.power, .video, .keys, .pwr]
      [Reg.KEY_EVENTS, Reg.KEY_EVENTS_LOST, Reg.KEY_LAST_EVENT] fun t =>
      (t.keys.key k).pressed = true ∧ (t.keys.key k).since = s.now ∧
        (∀ j, 1 ≤ j → j ≤ 36 → j ≠ k → (t.keys.key j).pressed = false) ∧
        t.reg Reg.KEY_LAST_EVENT = 2 ^ 24 * k + s.tick % 65536 ∧
        (s.keys.fifo.length < 32 → t.keys.fifo = s.keys.fifo ++ [2 ^ 24 * k + s.tick % 65536]))) ∧
  (∀ (k closed : Nat) (s : State), s.panelLive = true → s.keys.keys.length = 36 → 1 ≤ k → k ≤ 36 →
    (∀ j, 1 ≤ j → j ≤ 36 → bitAt closed (j - 1) = false) → (∀ j, 1 ≤ j → j ≤ 36 → (s.keys.key j).pressed = decide (j = k)) →
    (s.keys.key k).amb = false → s.reg Reg.KEY_DEBOUNCE ≤ (s.keys.key k).agree + 1 →
    Does (.keyScan closed) s [.power, .video, .keys, .pwr] [Reg.KEY_EVENTS, Reg.KEY_EVENTS_LOST, Reg.KEY_LAST_EVENT] fun t =>
      (∀ j, 1 ≤ j → j ≤ 36 → (t.keys.key j).pressed = false) ∧ (t.keys.key k).stuck = false ∧
        t.reg Reg.KEY_LAST_EVENT = 2 ^ 24 * k + 2 ^ 20 + s.tick % 65536) ∧
  ∀ (n : Nat) (s : State), 1 ≤ n → n ≤ 36 → s.keys.keys.length = 36 →
    (s.keyHeld n = false → Rests (.keyRepeat n) s ∧ Rests (.keyLong n) s ∧ Rests (.keyStuck n) s) ∧
    (s.keyHeld n = true →
      (s.reg (Reg.KEY_MODE (n - 1)) ≠ 1 → Rests (.keyRepeat n) s) ∧
      (s.reg (Reg.KEY_MODE (n - 1)) = 1 →
        (s.keys.key n).since + clkMs * (s.reg Reg.KEY_REPEAT_DELAY + (s.keys.key n).repeats * s.reg Reg.KEY_REPEAT_PERIOD) ≤ s.now →
        Does (.keyRepeat n) s [.keys] [Reg.KEY_EVENTS, Reg.KEY_EVENTS_LOST, Reg.KEY_LAST_EVENT] fun t =>
          t.keys.key n = { s.keys.key n with repeats := (s.keys.key n).repeats + 1 } ∧
            t.reg Reg.KEY_LAST_EVENT = 2 ^ 24 * n + 2 * 2 ^ 20 + s.tick % 65536 ∧
            (32 ≤ s.keys.fifo.length → t.keys.fifo = s.keys.fifo ∧
              t.reg Reg.KEY_EVENTS_LOST = satInc (keyBits Reg.KEY_EVENTS_LOST) (s.reg Reg.KEY_EVENTS_LOST))) ∧
      (s.reg (Reg.KEY_MODE (n - 1)) = 2 → (s.keys.key n).longed = false →
        (s.keys.key n).since + clkMs * s.reg Reg.KEY_LONG_TIME ≤ s.now →
        Does (.keyLong n) s [.keys] [Reg.KEY_EVENTS, Reg.KEY_EVENTS_LOST, Reg.KEY_LAST_EVENT] fun t =>
          t.keys.key n = { s.keys.key n with longed := true } ∧
            t.reg Reg.KEY_LAST_EVENT = 2 ^ 24 * n + 3 * 2 ^ 20 + s.tick % 65536) ∧
      ((s.keys.key n).longed = true → Rests (.keyLong n) s) ∧
      ((s.keys.key n).since + clkSec * s.reg Reg.KEY_STUCK_TIME ≤ s.now →
        Does (.keyStuck n) s [.log, .keys] [Reg.KEY_EVENTS, Reg.KEY_EVENTS_LOST, Reg.KEY_LAST_EVENT] fun t =>
          t.keys.key n = { s.keys.key n with stuck := true } ∧
            t.reg Reg.KEY_LAST_EVENT = 2 ^ 24 * n + 4 * 2 ^ 20 + s.tick % 65536 ∧ (s.log.queue.length < 256 →
              ∃ r, t.log.queue = s.log.queue ++ [r] ∧ r.typ = Lt.KEY_STUCK ∧ r.payload = [n])))

/-! ### The slipway and the test port -/

/-- The slipway's course (R527, R530, R533): a staged image that passes has the target slot erased for it, and one that reads back is WRITTEN; one
that fails either is rejected and the slipway is IDLE; the loaded quay that reaches STANDBY, or cannot read the checkpoints, makes it READY; the
end of the probation commits: `BOOT_SLOT`, the marker and the state. `SLIP_COMMAND` (R531, R532): each code acts in its states and answers STATE
in every other. Where the rules leave it open it follows the model's log entries 32 and 37. -/
def Obligations.Slipway : Prop :=
  ((∀ s : State, s.slip.state = 2 → Does .slipVerifyDone s [.klp, .log, .slip] [] fun t =>
     (s.verifyImage s.slip.image = .ok → t.slip.state = 3 ∧ t.slip.slot s.slip.targetB = [] ∧
       t.slip.slot (!s.slip.targetB) = s.slip.slot (!s.slip.targetB) ∧ t.slip.image = s.slip.image ∧ t.klp = s.klp ∧ t.log = s.log) ∧
     (s.verifyImage s.slip.image ≠ .ok → t.slip.state = 0 ∧ t.slip.image = [] ∧ t.slip.imageA = s.slip.imageA ∧
       t.slip.imageB = s.slip.imageB ∧ t.slip.lastStatus = (s.verifyImage s.slip.image).code ∧ bitAt t.klp.irq irqSlipway = true)) ∧
   (∀ (ok : Bool) (s : State), s.slip.state = 3 → Does (.slipWriteDone ok) s [.klp, .log, .slip] [] fun t =>
     t.slip.slot (!s.slip.targetB) = s.slip.slot (!s.slip.targetB) ∧ bitAt t.klp.irq irqSlipway = true ∧
     ((ok = true ∧ s.verifyImage s.slip.image = .ok) → t.slip.state = 4 ∧ t.slip.slot s.slip.targetB = s.slip.image) ∧
     ((ok = false ∨ s.verifyImage s.slip.image ≠ .ok) → t.slip.state = 0 ∧ t.slip.slot s.slip.targetB = [] ∧
       t.slip.lastStatus = Status.media.code)) ∧
   (∀ (q : Quay) (s : State), s.slip.state = 5 → s.slip.loading = some q →
     (s.qst q = .standby → Does .slipLoadDone s [.klp, .slip] [] fun t =>
       t.slip = { s.slip with state := 6, newFormat := false } ∧ bitAt t.klp.irq irqSlipway = true) ∧
     (s.qst q = .syncing → s.canRead q = false → Does .slipLoadDone s [.klp, .slip] [] fun t =>
       t.slip = { s.slip with state := 6, newFormat := true } ∧ bitAt t.klp.irq irqSlipway = true)) ∧
   ∀ (t0 : Nat) (s : State), s.slip.state = 7 → s.slip.probation = some t0 → t0 + s.reg Reg.SLIP_PROBATION * clkSec ≤ s.now →
     s.stores Reg.BOOT_SLOT (b2n s.slip.targetB) →
     Does .probationEnd s [.klp, .nv, .pwr, .slip] [Reg.BOOT_SLOT, Reg.SECURITY_FLOOR] fun t =>
       t.reg Reg.BOOT_SLOT = b2n s.slip.targetB ∧ t.pwr = { s.pwr with bootB := s.slip.targetB } ∧
         t.slip = { s.slip with
           state := 0, marker := false, probation := none, loading := none, newFormat := false, image := [] } ∧
         (t.reg Reg.SECURITY_FLOOR = s.reg Reg.SECURITY_FLOOR ∨ imgAdvance (s.slip.slot s.slip.targetB) = true)) ∧
  (∀ (r : Req) (s : State), s.accepts { req := r, len := 1, val := 1 } Reg.SLIP_COMMAND →
    ((s.slip.state ≠ 4 ∨ s.loadQuay = none) → Refuses (.slipLoadStandby r) s { req := r, len := 1, val := 1 } Reg.SLIP_COMMAND .state) ∧
    (∀ q, s.slip.state = 4 → s.loadQuay = some q →
      Obeys (.slipLoadStandby r) s { req := r, len := 1, val := 1 } Reg.SLIP_COMMAND [.hm, .slip] [] fun t =>
        t.slip = { s.slip with state := 5, loading := some q, newFormat := false } ∧ (t.quay q).st = .selfTest ∧
          (t.quay q).inReset = true ∧ (t.quay q).imageB = s.slip.targetB ∧ t.hm.owner = s.hm.owner)) ∧
  (∀ (r : Req) (s : State), s.accepts { req := r, len := 1, val := 2 } Reg.SLIP_COMMAND →
    ((s.slip.state ≠ 6 ∨ s.slip.loading = none ∨ s.hm.takeover ≠ none) →
      Refuses (.slipSwap r) s { req := r, len := 1, val := 2 } Reg.SLIP_COMMAND .state) ∧
    (∀ q, s.slip.state = 6 → s.slip.loading = some q → s.hm.takeover = none →
      Obeys (.slipSwap r) s { req := r, len := 1, val := 2 } Reg.SLIP_COMMAND [.hm] [] fun t =>
        t.hm = { s.hm with takeover := some { dest := q, start := s.now, cause := 0, planned := true } })) ∧
  (∀ (r : Req) (s : State), s.accepts { req := r, len := 1, val := 3 } Reg.SLIP_COMMAND →
    (s.slip.state ≠ 7 → Refuses (.slipCommit r) s { req := r, len := 1, val := 3 } Reg.SLIP_COMMAND .state) ∧
    (s.slip.state = 7 → s.stores Reg.BOOT_SLOT (b2n s.slip.targetB) →
      Does (.slipCommit r) s [.klp, .nv, .pwr, .slip] [Reg.BOOT_SLOT, Reg.SECURITY_FLOOR] fun t =>
        t.responded (respTo (wrRequest { req := r, len := 1, val := 3 } Reg.SLIP_COMMAND) .ok []) ∧
          t.reg Reg.BOOT_SLOT = b2n s.slip.targetB ∧ t.slip.state = 0 ∧ t.slip.marker = false ∧ t.slip.probation = none)) ∧
  (∀ (r : Req) (s : State), s.accepts { req := r, len := 1, val := 4 } Reg.SLIP_COMMAND →
    (s.slip.state ≠ 7 → Refuses (.slipRollback r) s { req := r, len := 1, val := 4 } Reg.SLIP_COMMAND .state) ∧
    (s.slip.state = 7 → Does (.slipRollback r) s [.hm, .klp, .log, .slip] [] fun t =>
      t.responded (respTo (wrRequest { req := r, len := 1, val := 4 } Reg.SLIP_COMMAND) .ok []) ∧ t.slip.state = 0 ∧
        t.slip.slot s.slip.targetB = [] ∧ t.slip.slot (!s.slip.targetB) = s.slip.slot (!s.slip.targetB) ∧ t.slip.marker = false ∧
        (∀ q, s.hm.owner = some q → s.qst q.other ≠ .out → s.qst q.other ≠ .off →
          (t.quay q.other).st = .selfTest ∧ (t.quay q.other).imageB = s.pwr.bootB))) ∧
  (∀ (r : Req) (s : State), s.accepts { req := r, len := 1, val := 5 } Reg.SLIP_COMMAND →
    ((s.slip.state = 0 ∨ 7 ≤ s.slip.state) → Refuses (.slipAbort r) s { req := r, len := 1, val := 5 } Reg.SLIP_COMMAND .state) ∧
    (1 ≤ s.slip.state → s.slip.state ≤ 6 → Does (.slipAbort r) s [.hm, .klp, .slip] [] fun t =>
      t.responded (respTo (wrRequest { req := r, len := 1, val := 5 } Reg.SLIP_COMMAND) .ok []) ∧ t.slip.state = 0 ∧
        t.slip.image = [] ∧ t.slip.loading = none ∧ (s.slip.state = 3 → t.slip.slot s.slip.targetB = []) ∧
        (∀ x ∈ t.klp.transfers, x.key ≠ Reg.SLIP_IMAGE) ∧
        ∀ q, s.slip.loading = some q → (t.quay q).st = .selfTest ∧ (t.quay q).imageB = s.pwr.bootB)) ∧
  ∀ (r : Req) (s : State), s.accepts { req := r, len := 1, val := 6 } Reg.SLIP_COMMAND →
    (s.installSlot = none → Refuses (.slipInstallReset r) s { req := r, len := 1, val := 6 } Reg.SLIP_COMMAND .state) ∧
    (∀ b, s.installSlot = some b → s.stores Reg.BOOT_TRIAL (b2n b) →
      Does (.slipInstallReset r) s [.klp, .nv] [Reg.BOOT_TRIAL] fun t => t.reg Reg.BOOT_TRIAL = b2n b ∧
        t.klp.resetDue = some (s.now + 10 * clkMs) ∧ ParamsOnly s t)

/-- The test port (R556): an instruction is taken; EXTEST, HIGHZ and CLAMP act as BYPASS where TEST_EN was low at power-up; TRST_L puts the test
logic into reset. Where the rules leave it open it follows the model's log entries 5 and 43. -/
def Obligations.TestPort : Prop :=
  ∀ s : State,
    Does .jtagBypass s [.jtag] [] (fun t => t.jtag = { s.jtag with ir := .bypass, inReset := false }) ∧
    Does .jtagIdcode s [.jtag] [] (fun t => t.jtag = { s.jtag with ir := .idcode, inReset := false }) ∧
    Does .jtagSamplePreload s [.jtag] [] (fun t => t.jtag = { s.jtag with ir := .samplePreload, inReset := false }) ∧
    Does .jtagExtest s [.jtag] [] (fun t => t.jtag.ir = (if s.jtag.testEn then .extest else .bypass) ∧ t.jtag.testEn = s.jtag.testEn) ∧
    Does .jtagHighz s [.jtag] [] (fun t => t.jtag.ir = (if s.jtag.testEn then .highz else .bypass) ∧ t.jtag.testEn = s.jtag.testEn) ∧
    Does .jtagClamp s [.jtag] [] (fun t => t.jtag.ir = (if s.jtag.testEn then .clamp else .bypass) ∧ t.jtag.testEn = s.jtag.testEn) ∧
    Does .trstAssert s [.jtag] [] fun t => t.jtag = { s.jtag with ir := .idcode, inReset := true }
end

