-- ==== Sys2Proof/Laws/Memory.lean ====
section
/-!
SUPPORT. The laws of the window's memory and of the register map: a read after a write, a write leaves every other place alone,
and every operation keeps the canonical form.
-/
namespace Sys2Proof.Machine

/-! ### The window's memory -/

theorem Memory.wfFrom_mono {m : List Host.Cell} {i j : Nat} (h : j ≤ i) (w : Memory.wfFrom i m = true) :
    Memory.wfFrom j m = true := by
  cases m with
  | nil => rfl
  | cons c t => simp only [Memory.wfFrom, Bool.and_eq_true, Nat.ble_eq] at w ⊢; exact ⟨⟨by omega, w.1.2⟩, w.2⟩

/-- An address below a canonical memory's first reads as unlisted. -/
theorem Memory.read_below {m : List Host.Cell} {i a : Nat} (w : Memory.wfFrom i m = true) (h : a < i) : Memory.read m a = 0 := by
  induction m generalizing i with
  | nil => rfl
  | cons c t ih =>
    simp only [Memory.wfFrom, Bool.and_eq_true, Nat.ble_eq] at w
    rw [Memory.read, if_neg (by omega)]
    exact ih w.2 (by omega)

theorem Memory.wfFrom_put {m : List Host.Cell} {i a : Nat} {v : BitVec 8} (w : Memory.wfFrom i m = true) (hi : i ≤ a)
    (hv : v ≠ 0) : Memory.wfFrom i (Memory.put a v m) = true := by
  induction m generalizing i with
  | nil => simpa [Memory.put, Memory.wfFrom, hi] using hv
  | cons c t ih =>
    simp only [Memory.wfFrom, Bool.and_eq_true, Nat.ble_eq] at w
    unfold Memory.put
    split
    · simp only [Memory.wfFrom, Bool.and_eq_true, Nat.ble_eq]; exact ⟨⟨hi, by simpa using hv⟩, ⟨by omega, w.1.2⟩, w.2⟩
    · split
      · simp only [Memory.wfFrom, Bool.and_eq_true, Nat.ble_eq]
        exact ⟨⟨hi, by simpa using hv⟩, by subst a; exact w.2⟩
      · simp only [Memory.wfFrom, Bool.and_eq_true, Nat.ble_eq]; exact ⟨w.1, ih w.2 (by omega)⟩

theorem Memory.wfFrom_erase {m : List Host.Cell} {i a : Nat} (w : Memory.wfFrom i m = true) :
    Memory.wfFrom i (Memory.erase a m) = true := by
  induction m generalizing i with
  | nil => rfl
  | cons c t ih =>
    simp only [Memory.wfFrom, Bool.and_eq_true, Nat.ble_eq] at w
    unfold Memory.erase
    split
    · exact Memory.wfFrom_mono (by omega) w.2
    · simp only [Memory.wfFrom, Bool.and_eq_true, Nat.ble_eq]; exact ⟨w.1, ih w.2⟩

/-- A write keeps the canonical form. -/
theorem Memory.wf_write {m : List Host.Cell} (a : Nat) (v : BitVec 8) (w : Memory.wf m = true) :
    Memory.wf (Memory.write m a v) = true := by
  unfold Memory.write Memory.wf
  split
  · exact Memory.wfFrom_erase w
  · exact Memory.wfFrom_put w (by omega) ‹_›

theorem Memory.read_put (m : List Host.Cell) (a b : Nat) (v : BitVec 8) :
    Memory.read (Memory.put a v m) b = if b = a then v else Memory.read m b := by
  induction m with
  | nil => simp [Memory.put, Memory.read, eq_comm]
  | cons c t ih => grind [Memory.put, Memory.read]

theorem Memory.read_erase {m : List Host.Cell} {i : Nat} (w : Memory.wfFrom i m = true) (a b : Nat) :
    Memory.read (Memory.erase a m) b = if b = a then 0 else Memory.read m b := by
  induction m generalizing i with
  | nil => simp [Memory.erase, Memory.read]
  | cons c t ih =>
    simp only [Memory.wfFrom, Bool.and_eq_true, Nat.ble_eq] at w
    unfold Memory.erase
    split
    · subst a
      by_cases hb : b = c.1
      · subst b; simpa using Memory.read_below w.2 (Nat.lt_succ_self _)
      · simp [Memory.read, hb, Ne.symm hb]
    · have := ih w.2
      grind [Memory.read]

/-- A read after a write: the byte written at its own address, what was there at every other. -/
theorem Memory.read_write {m : List Host.Cell} (w : Memory.wf m = true) (a b : Nat) (v : BitVec 8) :
    Memory.read (Memory.write m a v) b = if b = a then v else Memory.read m b := by
  unfold Memory.write
  split
  · subst v; exact Memory.read_erase w a b
  · exact Memory.read_put m a b v

/-- Writes one after another keep the canonical form. -/
theorem Memory.wf_foldl {α : Type} (l : List α) (f : α → Nat) (g : α → BitVec 8) {m : List Host.Cell} (w : Memory.wf m = true) :
    Memory.wf (l.foldl (fun m p => Memory.write m (f p) (g p)) m) = true := by
  induction l generalizing m with
  | nil => exact w
  | cons p t ih => exact ih (Memory.wf_write _ _ w)

/-! ### The register map -/

theorem SMap.wfFrom_mono {m : SMap} {i j : Nat} (h : j ≤ i) (w : SMap.wfFrom i m = true) : SMap.wfFrom j m = true := by
  cases m with
  | nil => rfl
  | cons c t => simp only [SMap.wfFrom, Bool.and_eq_true, Nat.ble_eq] at w ⊢; exact ⟨⟨⟨by omega, w.1.1.2⟩, w.1.2⟩, w.2⟩

theorem smapGet_below {m : SMap} {i k : Nat} (w : SMap.wfFrom i m = true) (h : k < i) (d : Nat) : smapGet d k m = d := by
  induction m generalizing i with
  | nil => rfl
  | cons c t ih =>
    simp only [SMap.wfFrom, Bool.and_eq_true, Nat.ble_eq] at w
    rw [smapGet, if_neg (by omega)]
    exact ih w.2 (by omega)

theorem SMap.wfFrom_put {m : SMap} {i k v : Nat} (w : SMap.wfFrom i m = true) (hi : i ≤ k) (hd : v ≠ keyDefault k)
    (hv : v < 2 ^ keyBits k) : SMap.wfFrom i (smapPut k v m) = true := by
  have hv' : Nat.blt v (2 ^ keyBits k) = true := by rw [Nat.blt_eq]; exact hv
  induction m generalizing i with
  | nil => simp [smapPut, SMap.wfFrom, hi, hd, hv']
  | cons c t ih =>
    simp only [SMap.wfFrom, Bool.and_eq_true, Nat.ble_eq] at w
    unfold smapPut
    split
    · simp only [SMap.wfFrom, Bool.and_eq_true, Nat.ble_eq]
      exact ⟨⟨⟨hi, by simpa using hd⟩, hv'⟩, ⟨⟨by omega, w.1.1.2⟩, w.1.2⟩, w.2⟩
    · split
      · simp only [SMap.wfFrom, Bool.and_eq_true, Nat.ble_eq]
        exact ⟨⟨⟨hi, by simpa using hd⟩, hv'⟩, by subst k; exact w.2⟩
      · simp only [SMap.wfFrom, Bool.and_eq_true, Nat.ble_eq]; exact ⟨w.1, ih w.2 (by omega)⟩

theorem SMap.wfFrom_erase {m : SMap} {i k : Nat} (w : SMap.wfFrom i m = true) : SMap.wfFrom i (smapErase k m) = true := by
  induction m generalizing i with
  | nil => rfl
  | cons c t ih =>
    simp only [SMap.wfFrom, Bool.and_eq_true, Nat.ble_eq] at w
    unfold smapErase
    split
    · exact SMap.wfFrom_mono (by omega) (ih w.2)
    · simp only [SMap.wfFrom, Bool.and_eq_true, Nat.ble_eq]; exact ⟨w.1, ih w.2⟩

/-- A value put keeps the canonical form. -/
theorem SMap.wf_set {m : SMap} {k v : Nat} (hv : v < 2 ^ keyBits k) (w : SMap.wf m = true) :
    SMap.wf (smapSet (keyDefault k) k v m) = true := by
  unfold smapSet SMap.wf
  split
  · exact SMap.wfFrom_erase w
  · exact SMap.wfFrom_put w (by omega) ‹_› hv

theorem smapGet_put (d k v j : Nat) (m : SMap) : smapGet d j (smapPut k v m) = if j = k then v else smapGet d j m := by
  induction m with
  | nil => simp [smapPut, smapGet, eq_comm]
  | cons c t ih => grind [smapPut, smapGet]

theorem smapGet_erase (d k j : Nat) (m : SMap) : smapGet d j (smapErase k m) = if j = k then d else smapGet d j m := by
  induction m with
  | nil => simp [smapErase, smapGet]
  | cons c t ih => grind [smapErase, smapGet]

theorem smapGet_lt {m : SMap} {i : Nat} (w : SMap.wfFrom i m = true) (k : Nat) (hd : keyDefault k < 2 ^ keyBits k) :
    smapGet (keyDefault k) k m < 2 ^ keyBits k := by
  induction m generalizing i with
  | nil => exact hd
  | cons c t ih =>
    simp only [SMap.wfFrom, Bool.and_eq_true, Nat.ble_eq, Nat.blt_eq] at w
    unfold smapGet
    split
    · subst k; exact w.1.2
    · exact ih w.2

/-- A read after a write of the register map. -/
theorem smapGet_set (k v j : Nat) (m : SMap) :
    smapGet (keyDefault j) j (smapSet (keyDefault k) k v m) = if j = k then v else smapGet (keyDefault j) j m := by
  unfold smapSet
  split
  · rw [smapGet_erase]; split
    · subst v; subst j; rfl
    · rfl
  · rw [smapGet_put]

end Sys2Proof.Machine
end

