-- ==== Sys2Proof/Laws/State.lean ====
section
/-!
SUPPORT. What each update of the state leaves in each of its fields, and the laws of a ledger entry read after a write.
-/
namespace Sys2Proof.Machine

variable (s : State)

/-! ### `popCommand` -/

@[simp] theorem State.popCommand_regs (r : List Instr) : (s.popCommand r).regs = s.regs := rfl
@[simp] theorem State.popCommand_phase (r : List Instr) : (s.popCommand r).phase = s.phase := rfl
@[simp] theorem State.popCommand_power (r : List Instr) : (s.popCommand r).power = s.power := rfl
@[simp] theorem State.popCommand_pfail (r : List Instr) : (s.popCommand r).pfail = s.pfail := rfl
@[simp] theorem State.popCommand_tide (r : List Instr) : (s.popCommand r).tide = s.tide := rfl
@[simp] theorem State.popCommand_mains (r : List Instr) : (s.popCommand r).mains = s.mains := rfl
@[simp] theorem State.popCommand_hm (r : List Instr) : (s.popCommand r).hm = s.hm := rfl
@[simp] theorem State.popCommand_klp (r : List Instr) : (s.popCommand r).klp = s.klp := rfl
@[simp] theorem State.popCommand_nv (r : List Instr) : (s.popCommand r).nv = s.nv := rfl
@[simp] theorem State.popCommand_log (r : List Instr) : (s.popCommand r).log = s.log := rfl
@[simp] theorem State.popCommand_rtc (r : List Instr) : (s.popCommand r).rtc = s.rtc := rfl
@[simp] theorem State.popCommand_bus (r : List Instr) : (s.popCommand r).bus = s.bus := rfl
@[simp] theorem State.popCommand_berth (r : List Instr) : (s.popCommand r).berth = s.berth := rfl
@[simp] theorem State.popCommand_loop (r : List Instr) : (s.popCommand r).loop = s.loop := rfl
@[simp] theorem State.popCommand_act (r : List Instr) : (s.popCommand r).act = s.act := rfl
@[simp] theorem State.popCommand_sens (r : List Instr) : (s.popCommand r).sens = s.sens := rfl
@[simp] theorem State.popCommand_focal (r : List Instr) : (s.popCommand r).focal = s.focal := rfl
@[simp] theorem State.popCommand_pipe (r : List Instr) : (s.popCommand r).pipe = s.pipe := rfl
@[simp] theorem State.popCommand_cal (r : List Instr) : (s.popCommand r).cal = s.cal := rfl
@[simp] theorem State.popCommand_video (r : List Instr) : (s.popCommand r).video = s.video := rfl
@[simp] theorem State.popCommand_panel (r : List Instr) : (s.popCommand r).panel = s.panel := rfl
@[simp] theorem State.popCommand_keys (r : List Instr) : (s.popCommand r).keys = s.keys := rfl
@[simp] theorem State.popCommand_pwr (r : List Instr) : (s.popCommand r).pwr = s.pwr := rfl
@[simp] theorem State.popCommand_slip (r : List Instr) : (s.popCommand r).slip = s.slip := rfl
@[simp] theorem State.popCommand_jtag (r : List Instr) : (s.popCommand r).jtag = s.jtag := rfl
@[simp] theorem State.popCommand_freeCtr (r : List Instr) : (s.popCommand r).freeCtr = s.freeCtr := rfl
@[simp] theorem State.popCommand_pending (r : List Instr) : (s.popCommand r).pending = r := rfl

/-! ### `setReg` -/

@[simp] theorem State.setReg_regs (k v : Nat) : (s.setReg k v).regs = smapSet (keyDefault k) k (v % 2 ^ keyBits k) s.regs := rfl
@[simp] theorem State.setReg_phase (k v : Nat) : (s.setReg k v).phase = s.phase := rfl
@[simp] theorem State.setReg_power (k v : Nat) : (s.setReg k v).power = s.power := rfl
@[simp] theorem State.setReg_pfail (k v : Nat) : (s.setReg k v).pfail = s.pfail := rfl
@[simp] theorem State.setReg_tide (k v : Nat) : (s.setReg k v).tide = s.tide := rfl
@[simp] theorem State.setReg_mains (k v : Nat) : (s.setReg k v).mains = s.mains := rfl
@[simp] theorem State.setReg_hm (k v : Nat) : (s.setReg k v).hm = s.hm := rfl
@[simp] theorem State.setReg_klp (k v : Nat) : (s.setReg k v).klp = s.klp := rfl
@[simp] theorem State.setReg_nv (k v : Nat) : (s.setReg k v).nv = s.nv := rfl
@[simp] theorem State.setReg_log (k v : Nat) : (s.setReg k v).log = s.log := rfl
@[simp] theorem State.setReg_rtc (k v : Nat) : (s.setReg k v).rtc = s.rtc := rfl
@[simp] theorem State.setReg_bus (k v : Nat) : (s.setReg k v).bus = s.bus := rfl
@[simp] theorem State.setReg_berth (k v : Nat) : (s.setReg k v).berth = s.berth := rfl
@[simp] theorem State.setReg_loop (k v : Nat) : (s.setReg k v).loop = s.loop := rfl
@[simp] theorem State.setReg_act (k v : Nat) : (s.setReg k v).act = s.act := rfl
@[simp] theorem State.setReg_sens (k v : Nat) : (s.setReg k v).sens = s.sens := rfl
@[simp] theorem State.setReg_focal (k v : Nat) : (s.setReg k v).focal = s.focal := rfl
@[simp] theorem State.setReg_pipe (k v : Nat) : (s.setReg k v).pipe = s.pipe := rfl
@[simp] theorem State.setReg_cal (k v : Nat) : (s.setReg k v).cal = s.cal := rfl
@[simp] theorem State.setReg_video (k v : Nat) : (s.setReg k v).video = s.video := rfl
@[simp] theorem State.setReg_panel (k v : Nat) : (s.setReg k v).panel = s.panel := rfl
@[simp] theorem State.setReg_keys (k v : Nat) : (s.setReg k v).keys = s.keys := rfl
@[simp] theorem State.setReg_pwr (k v : Nat) : (s.setReg k v).pwr = s.pwr := rfl
@[simp] theorem State.setReg_slip (k v : Nat) : (s.setReg k v).slip = s.slip := rfl
@[simp] theorem State.setReg_jtag (k v : Nat) : (s.setReg k v).jtag = s.jtag := rfl
@[simp] theorem State.setReg_freeCtr (k v : Nat) : (s.setReg k v).freeCtr = s.freeCtr := rfl
@[simp] theorem State.setReg_pending (k v : Nat) : (s.setReg k v).pending = s.pending := rfl

/-! ### `tickFree` -/

@[simp] theorem State.tickFree_regs : (s.tickFree).regs = s.regs := rfl
@[simp] theorem State.tickFree_phase : (s.tickFree).phase = s.phase := rfl
@[simp] theorem State.tickFree_power : (s.tickFree).power = s.power := rfl
@[simp] theorem State.tickFree_pfail : (s.tickFree).pfail = s.pfail := rfl
@[simp] theorem State.tickFree_tide : (s.tickFree).tide = s.tide := rfl
@[simp] theorem State.tickFree_mains : (s.tickFree).mains = s.mains := rfl
@[simp] theorem State.tickFree_hm : (s.tickFree).hm = s.hm := rfl
@[simp] theorem State.tickFree_klp : (s.tickFree).klp = s.klp := rfl
@[simp] theorem State.tickFree_nv : (s.tickFree).nv = s.nv := rfl
@[simp] theorem State.tickFree_log : (s.tickFree).log = s.log := rfl
@[simp] theorem State.tickFree_rtc : (s.tickFree).rtc = s.rtc := rfl
@[simp] theorem State.tickFree_bus : (s.tickFree).bus = s.bus := rfl
@[simp] theorem State.tickFree_berth : (s.tickFree).berth = s.berth := rfl
@[simp] theorem State.tickFree_loop : (s.tickFree).loop = s.loop := rfl
@[simp] theorem State.tickFree_act : (s.tickFree).act = s.act := rfl
@[simp] theorem State.tickFree_sens : (s.tickFree).sens = s.sens := rfl
@[simp] theorem State.tickFree_focal : (s.tickFree).focal = s.focal := rfl
@[simp] theorem State.tickFree_pipe : (s.tickFree).pipe = s.pipe := rfl
@[simp] theorem State.tickFree_cal : (s.tickFree).cal = s.cal := rfl
@[simp] theorem State.tickFree_video : (s.tickFree).video = s.video := rfl
@[simp] theorem State.tickFree_panel : (s.tickFree).panel = s.panel := rfl
@[simp] theorem State.tickFree_keys : (s.tickFree).keys = s.keys := rfl
@[simp] theorem State.tickFree_pwr : (s.tickFree).pwr = s.pwr := rfl
@[simp] theorem State.tickFree_slip : (s.tickFree).slip = s.slip := rfl
@[simp] theorem State.tickFree_jtag : (s.tickFree).jtag = s.jtag := rfl
@[simp] theorem State.tickFree_freeCtr : (s.tickFree).freeCtr = s.freeCtr + 1 := rfl
@[simp] theorem State.tickFree_pending : (s.tickFree).pending = s.pending := rfl

/-! ### `raiseIrq` -/

@[simp] theorem State.raiseIrq_regs (b : Nat) : (s.raiseIrq b).regs = s.regs := rfl
@[simp] theorem State.raiseIrq_phase (b : Nat) : (s.raiseIrq b).phase = s.phase := rfl
@[simp] theorem State.raiseIrq_power (b : Nat) : (s.raiseIrq b).power = s.power := rfl
@[simp] theorem State.raiseIrq_pfail (b : Nat) : (s.raiseIrq b).pfail = s.pfail := rfl
@[simp] theorem State.raiseIrq_tide (b : Nat) : (s.raiseIrq b).tide = s.tide := rfl
@[simp] theorem State.raiseIrq_mains (b : Nat) : (s.raiseIrq b).mains = s.mains := rfl
@[simp] theorem State.raiseIrq_hm (b : Nat) : (s.raiseIrq b).hm = s.hm := rfl
@[simp] theorem State.raiseIrq_klp (b : Nat) : (s.raiseIrq b).klp = { s.klp with irq := bitOn s.klp.irq b } := rfl
@[simp] theorem State.raiseIrq_nv (b : Nat) : (s.raiseIrq b).nv = s.nv := rfl
@[simp] theorem State.raiseIrq_log (b : Nat) : (s.raiseIrq b).log = s.log := rfl
@[simp] theorem State.raiseIrq_rtc (b : Nat) : (s.raiseIrq b).rtc = s.rtc := rfl
@[simp] theorem State.raiseIrq_bus (b : Nat) : (s.raiseIrq b).bus = s.bus := rfl
@[simp] theorem State.raiseIrq_berth (b : Nat) : (s.raiseIrq b).berth = s.berth := rfl
@[simp] theorem State.raiseIrq_loop (b : Nat) : (s.raiseIrq b).loop = s.loop := rfl
@[simp] theorem State.raiseIrq_act (b : Nat) : (s.raiseIrq b).act = s.act := rfl
@[simp] theorem State.raiseIrq_sens (b : Nat) : (s.raiseIrq b).sens = s.sens := rfl
@[simp] theorem State.raiseIrq_focal (b : Nat) : (s.raiseIrq b).focal = s.focal := rfl
@[simp] theorem State.raiseIrq_pipe (b : Nat) : (s.raiseIrq b).pipe = s.pipe := rfl
@[simp] theorem State.raiseIrq_cal (b : Nat) : (s.raiseIrq b).cal = s.cal := rfl
@[simp] theorem State.raiseIrq_video (b : Nat) : (s.raiseIrq b).video = s.video := rfl
@[simp] theorem State.raiseIrq_panel (b : Nat) : (s.raiseIrq b).panel = s.panel := rfl
@[simp] theorem State.raiseIrq_keys (b : Nat) : (s.raiseIrq b).keys = s.keys := rfl
@[simp] theorem State.raiseIrq_pwr (b : Nat) : (s.raiseIrq b).pwr = s.pwr := rfl
@[simp] theorem State.raiseIrq_slip (b : Nat) : (s.raiseIrq b).slip = s.slip := rfl
@[simp] theorem State.raiseIrq_jtag (b : Nat) : (s.raiseIrq b).jtag = s.jtag := rfl
@[simp] theorem State.raiseIrq_freeCtr (b : Nat) : (s.raiseIrq b).freeCtr = s.freeCtr := rfl
@[simp] theorem State.raiseIrq_pending (b : Nat) : (s.raiseIrq b).pending = s.pending := rfl

/-! ### `spiOutput` -/

@[simp] theorem State.spiOutput_regs (l : List Nat) : (s.spiOutput l).regs = s.regs := rfl
@[simp] theorem State.spiOutput_phase (l : List Nat) : (s.spiOutput l).phase = s.phase := rfl
@[simp] theorem State.spiOutput_power (l : List Nat) : (s.spiOutput l).power = s.power := rfl
@[simp] theorem State.spiOutput_pfail (l : List Nat) : (s.spiOutput l).pfail = s.pfail := rfl
@[simp] theorem State.spiOutput_tide (l : List Nat) : (s.spiOutput l).tide = s.tide := rfl
@[simp] theorem State.spiOutput_mains (l : List Nat) : (s.spiOutput l).mains = s.mains := rfl
@[simp] theorem State.spiOutput_hm (l : List Nat) : (s.spiOutput l).hm = s.hm := rfl
@[simp] theorem State.spiOutput_klp (l : List Nat) : (s.spiOutput l).klp = { s.klp with spiOut := l } := rfl
@[simp] theorem State.spiOutput_nv (l : List Nat) : (s.spiOutput l).nv = s.nv := rfl
@[simp] theorem State.spiOutput_log (l : List Nat) : (s.spiOutput l).log = s.log := rfl
@[simp] theorem State.spiOutput_rtc (l : List Nat) : (s.spiOutput l).rtc = s.rtc := rfl
@[simp] theorem State.spiOutput_bus (l : List Nat) : (s.spiOutput l).bus = s.bus := rfl
@[simp] theorem State.spiOutput_berth (l : List Nat) : (s.spiOutput l).berth = s.berth := rfl
@[simp] theorem State.spiOutput_loop (l : List Nat) : (s.spiOutput l).loop = s.loop := rfl
@[simp] theorem State.spiOutput_act (l : List Nat) : (s.spiOutput l).act = s.act := rfl
@[simp] theorem State.spiOutput_sens (l : List Nat) : (s.spiOutput l).sens = s.sens := rfl
@[simp] theorem State.spiOutput_focal (l : List Nat) : (s.spiOutput l).focal = s.focal := rfl
@[simp] theorem State.spiOutput_pipe (l : List Nat) : (s.spiOutput l).pipe = s.pipe := rfl
@[simp] theorem State.spiOutput_cal (l : List Nat) : (s.spiOutput l).cal = s.cal := rfl
@[simp] theorem State.spiOutput_video (l : List Nat) : (s.spiOutput l).video = s.video := rfl
@[simp] theorem State.spiOutput_panel (l : List Nat) : (s.spiOutput l).panel = s.panel := rfl
@[simp] theorem State.spiOutput_keys (l : List Nat) : (s.spiOutput l).keys = s.keys := rfl
@[simp] theorem State.spiOutput_pwr (l : List Nat) : (s.spiOutput l).pwr = s.pwr := rfl
@[simp] theorem State.spiOutput_slip (l : List Nat) : (s.spiOutput l).slip = s.slip := rfl
@[simp] theorem State.spiOutput_jtag (l : List Nat) : (s.spiOutput l).jtag = s.jtag := rfl
@[simp] theorem State.spiOutput_freeCtr (l : List Nat) : (s.spiOutput l).freeCtr = s.freeCtr := rfl
@[simp] theorem State.spiOutput_pending (l : List Nat) : (s.spiOutput l).pending = s.pending := rfl

/-! ### `setOut` -/

@[simp] theorem State.setOut_regs (i : Nat) (o : OutUnit) : (s.setOut i o).regs = s.regs := rfl
@[simp] theorem State.setOut_phase (i : Nat) (o : OutUnit) : (s.setOut i o).phase = s.phase := rfl
@[simp] theorem State.setOut_power (i : Nat) (o : OutUnit) : (s.setOut i o).power = s.power := rfl
@[simp] theorem State.setOut_pfail (i : Nat) (o : OutUnit) : (s.setOut i o).pfail = s.pfail := rfl
@[simp] theorem State.setOut_tide (i : Nat) (o : OutUnit) : (s.setOut i o).tide = s.tide := rfl
@[simp] theorem State.setOut_mains (i : Nat) (o : OutUnit) : (s.setOut i o).mains = s.mains := rfl
@[simp] theorem State.setOut_hm (i : Nat) (o : OutUnit) : (s.setOut i o).hm = s.hm := rfl
@[simp] theorem State.setOut_klp (i : Nat) (o : OutUnit) : (s.setOut i o).klp = s.klp := rfl
@[simp] theorem State.setOut_nv (i : Nat) (o : OutUnit) : (s.setOut i o).nv = s.nv := rfl
@[simp] theorem State.setOut_log (i : Nat) (o : OutUnit) : (s.setOut i o).log = s.log := rfl
@[simp] theorem State.setOut_rtc (i : Nat) (o : OutUnit) : (s.setOut i o).rtc = s.rtc := rfl
@[simp] theorem State.setOut_bus (i : Nat) (o : OutUnit) : (s.setOut i o).bus = s.bus := rfl
@[simp] theorem State.setOut_berth (i : Nat) (o : OutUnit) : (s.setOut i o).berth = s.berth := rfl
@[simp] theorem State.setOut_loop (i : Nat) (o : OutUnit) : (s.setOut i o).loop = s.loop := rfl
@[simp] theorem State.setOut_act (i : Nat) (o : OutUnit) : (s.setOut i o).act = { s.act with outs := s.act.outs.set i o } := rfl
@[simp] theorem State.setOut_sens (i : Nat) (o : OutUnit) : (s.setOut i o).sens = s.sens := rfl
@[simp] theorem State.setOut_focal (i : Nat) (o : OutUnit) : (s.setOut i o).focal = s.focal := rfl
@[simp] theorem State.setOut_pipe (i : Nat) (o : OutUnit) : (s.setOut i o).pipe = s.pipe := rfl
@[simp] theorem State.setOut_cal (i : Nat) (o : OutUnit) : (s.setOut i o).cal = s.cal := rfl
@[simp] theorem State.setOut_video (i : Nat) (o : OutUnit) : (s.setOut i o).video = s.video := rfl
@[simp] theorem State.setOut_panel (i : Nat) (o : OutUnit) : (s.setOut i o).panel = s.panel := rfl
@[simp] theorem State.setOut_keys (i : Nat) (o : OutUnit) : (s.setOut i o).keys = s.keys := rfl
@[simp] theorem State.setOut_pwr (i : Nat) (o : OutUnit) : (s.setOut i o).pwr = s.pwr := rfl
@[simp] theorem State.setOut_slip (i : Nat) (o : OutUnit) : (s.setOut i o).slip = s.slip := rfl
@[simp] theorem State.setOut_jtag (i : Nat) (o : OutUnit) : (s.setOut i o).jtag = s.jtag := rfl
@[simp] theorem State.setOut_freeCtr (i : Nat) (o : OutUnit) : (s.setOut i o).freeCtr = s.freeCtr := rfl
@[simp] theorem State.setOut_pending (i : Nat) (o : OutUnit) : (s.setOut i o).pending = s.pending := rfl

/-! ### `setFan` -/

@[simp] theorem State.setFan_regs (c : Nat) (f : FanUnit) : (s.setFan c f).regs = s.regs := rfl
@[simp] theorem State.setFan_phase (c : Nat) (f : FanUnit) : (s.setFan c f).phase = s.phase := rfl
@[simp] theorem State.setFan_power (c : Nat) (f : FanUnit) : (s.setFan c f).power = s.power := rfl
@[simp] theorem State.setFan_pfail (c : Nat) (f : FanUnit) : (s.setFan c f).pfail = s.pfail := rfl
@[simp] theorem State.setFan_tide (c : Nat) (f : FanUnit) : (s.setFan c f).tide = s.tide := rfl
@[simp] theorem State.setFan_mains (c : Nat) (f : FanUnit) : (s.setFan c f).mains = s.mains := rfl
@[simp] theorem State.setFan_hm (c : Nat) (f : FanUnit) : (s.setFan c f).hm = s.hm := rfl
@[simp] theorem State.setFan_klp (c : Nat) (f : FanUnit) : (s.setFan c f).klp = s.klp := rfl
@[simp] theorem State.setFan_nv (c : Nat) (f : FanUnit) : (s.setFan c f).nv = s.nv := rfl
@[simp] theorem State.setFan_log (c : Nat) (f : FanUnit) : (s.setFan c f).log = s.log := rfl
@[simp] theorem State.setFan_rtc (c : Nat) (f : FanUnit) : (s.setFan c f).rtc = s.rtc := rfl
@[simp] theorem State.setFan_bus (c : Nat) (f : FanUnit) : (s.setFan c f).bus = s.bus := rfl
@[simp] theorem State.setFan_berth (c : Nat) (f : FanUnit) : (s.setFan c f).berth = s.berth := rfl
@[simp] theorem State.setFan_loop (c : Nat) (f : FanUnit) : (s.setFan c f).loop = s.loop := rfl
@[simp] theorem State.setFan_act (c : Nat) (f : FanUnit) : (s.setFan c f).act = { s.act with fans := s.act.fans.set c f } := rfl
@[simp] theorem State.setFan_sens (c : Nat) (f : FanUnit) : (s.setFan c f).sens = s.sens := rfl
@[simp] theorem State.setFan_focal (c : Nat) (f : FanUnit) : (s.setFan c f).focal = s.focal := rfl
@[simp] theorem State.setFan_pipe (c : Nat) (f : FanUnit) : (s.setFan c f).pipe = s.pipe := rfl
@[simp] theorem State.setFan_cal (c : Nat) (f : FanUnit) : (s.setFan c f).cal = s.cal := rfl
@[simp] theorem State.setFan_video (c : Nat) (f : FanUnit) : (s.setFan c f).video = s.video := rfl
@[simp] theorem State.setFan_panel (c : Nat) (f : FanUnit) : (s.setFan c f).panel = s.panel := rfl
@[simp] theorem State.setFan_keys (c : Nat) (f : FanUnit) : (s.setFan c f).keys = s.keys := rfl
@[simp] theorem State.setFan_pwr (c : Nat) (f : FanUnit) : (s.setFan c f).pwr = s.pwr := rfl
@[simp] theorem State.setFan_slip (c : Nat) (f : FanUnit) : (s.setFan c f).slip = s.slip := rfl
@[simp] theorem State.setFan_jtag (c : Nat) (f : FanUnit) : (s.setFan c f).jtag = s.jtag := rfl
@[simp] theorem State.setFan_freeCtr (c : Nat) (f : FanUnit) : (s.setFan c f).freeCtr = s.freeCtr := rfl
@[simp] theorem State.setFan_pending (c : Nat) (f : FanUnit) : (s.setFan c f).pending = s.pending := rfl

/-! ### `setChan` -/

@[simp] theorem State.setChan_regs (c : Bus) (x : Channel) : (s.setChan c x).regs = s.regs := rfl
@[simp] theorem State.setChan_phase (c : Bus) (x : Channel) : (s.setChan c x).phase = s.phase := rfl
@[simp] theorem State.setChan_power (c : Bus) (x : Channel) : (s.setChan c x).power = s.power := rfl
@[simp] theorem State.setChan_pfail (c : Bus) (x : Channel) : (s.setChan c x).pfail = s.pfail := rfl
@[simp] theorem State.setChan_tide (c : Bus) (x : Channel) : (s.setChan c x).tide = s.tide := rfl
@[simp] theorem State.setChan_mains (c : Bus) (x : Channel) : (s.setChan c x).mains = s.mains := rfl
@[simp] theorem State.setChan_hm (c : Bus) (x : Channel) : (s.setChan c x).hm = s.hm := rfl
@[simp] theorem State.setChan_klp (c : Bus) (x : Channel) : (s.setChan c x).klp = s.klp := rfl
@[simp] theorem State.setChan_nv (c : Bus) (x : Channel) : (s.setChan c x).nv = s.nv := rfl
@[simp] theorem State.setChan_log (c : Bus) (x : Channel) : (s.setChan c x).log = s.log := rfl
@[simp] theorem State.setChan_rtc (c : Bus) (x : Channel) : (s.setChan c x).rtc = s.rtc := rfl
@[simp] theorem State.setChan_bus (c : Bus) (x : Channel) : (s.setChan c x).bus = { s.bus with ch := s.bus.ch.set c x } := rfl
@[simp] theorem State.setChan_berth (c : Bus) (x : Channel) : (s.setChan c x).berth = s.berth := rfl
@[simp] theorem State.setChan_loop (c : Bus) (x : Channel) : (s.setChan c x).loop = s.loop := rfl
@[simp] theorem State.setChan_act (c : Bus) (x : Channel) : (s.setChan c x).act = s.act := rfl
@[simp] theorem State.setChan_sens (c : Bus) (x : Channel) : (s.setChan c x).sens = s.sens := rfl
@[simp] theorem State.setChan_focal (c : Bus) (x : Channel) : (s.setChan c x).focal = s.focal := rfl
@[simp] theorem State.setChan_pipe (c : Bus) (x : Channel) : (s.setChan c x).pipe = s.pipe := rfl
@[simp] theorem State.setChan_cal (c : Bus) (x : Channel) : (s.setChan c x).cal = s.cal := rfl
@[simp] theorem State.setChan_video (c : Bus) (x : Channel) : (s.setChan c x).video = s.video := rfl
@[simp] theorem State.setChan_panel (c : Bus) (x : Channel) : (s.setChan c x).panel = s.panel := rfl
@[simp] theorem State.setChan_keys (c : Bus) (x : Channel) : (s.setChan c x).keys = s.keys := rfl
@[simp] theorem State.setChan_pwr (c : Bus) (x : Channel) : (s.setChan c x).pwr = s.pwr := rfl
@[simp] theorem State.setChan_slip (c : Bus) (x : Channel) : (s.setChan c x).slip = s.slip := rfl
@[simp] theorem State.setChan_jtag (c : Bus) (x : Channel) : (s.setChan c x).jtag = s.jtag := rfl
@[simp] theorem State.setChan_freeCtr (c : Bus) (x : Channel) : (s.setChan c x).freeCtr = s.freeCtr := rfl
@[simp] theorem State.setChan_pending (c : Bus) (x : Channel) : (s.setChan c x).pending = s.pending := rfl

/-! ### `setQuay` -/

@[simp] theorem State.setQuay_regs (q : Quay) (u : QuayUnit) : (s.setQuay q u).regs = s.regs := rfl
@[simp] theorem State.setQuay_phase (q : Quay) (u : QuayUnit) : (s.setQuay q u).phase = s.phase := rfl
@[simp] theorem State.setQuay_power (q : Quay) (u : QuayUnit) : (s.setQuay q u).power = s.power := rfl
@[simp] theorem State.setQuay_pfail (q : Quay) (u : QuayUnit) : (s.setQuay q u).pfail = s.pfail := rfl
@[simp] theorem State.setQuay_tide (q : Quay) (u : QuayUnit) : (s.setQuay q u).tide = s.tide := rfl
@[simp] theorem State.setQuay_mains (q : Quay) (u : QuayUnit) : (s.setQuay q u).mains = s.mains := rfl
@[simp] theorem State.setQuay_hm (q : Quay) (u : QuayUnit) : (s.setQuay q u).hm = { s.hm with quays := s.hm.quays.set q u } := rfl
@[simp] theorem State.setQuay_klp (q : Quay) (u : QuayUnit) : (s.setQuay q u).klp = s.klp := rfl
@[simp] theorem State.setQuay_nv (q : Quay) (u : QuayUnit) : (s.setQuay q u).nv = s.nv := rfl
@[simp] theorem State.setQuay_log (q : Quay) (u : QuayUnit) : (s.setQuay q u).log = s.log := rfl
@[simp] theorem State.setQuay_rtc (q : Quay) (u : QuayUnit) : (s.setQuay q u).rtc = s.rtc := rfl
@[simp] theorem State.setQuay_bus (q : Quay) (u : QuayUnit) : (s.setQuay q u).bus = s.bus := rfl
@[simp] theorem State.setQuay_berth (q : Quay) (u : QuayUnit) : (s.setQuay q u).berth = s.berth := rfl
@[simp] theorem State.setQuay_loop (q : Quay) (u : QuayUnit) : (s.setQuay q u).loop = s.loop := rfl
@[simp] theorem State.setQuay_act (q : Quay) (u : QuayUnit) : (s.setQuay q u).act = s.act := rfl
@[simp] theorem State.setQuay_sens (q : Quay) (u : QuayUnit) : (s.setQuay q u).sens = s.sens := rfl
@[simp] theorem State.setQuay_focal (q : Quay) (u : QuayUnit) : (s.setQuay q u).focal = s.focal := rfl
@[simp] theorem State.setQuay_pipe (q : Quay) (u : QuayUnit) : (s.setQuay q u).pipe = s.pipe := rfl
@[simp] theorem State.setQuay_cal (q : Quay) (u : QuayUnit) : (s.setQuay q u).cal = s.cal := rfl
@[simp] theorem State.setQuay_video (q : Quay) (u : QuayUnit) : (s.setQuay q u).video = s.video := rfl
@[simp] theorem State.setQuay_panel (q : Quay) (u : QuayUnit) : (s.setQuay q u).panel = s.panel := rfl
@[simp] theorem State.setQuay_keys (q : Quay) (u : QuayUnit) : (s.setQuay q u).keys = s.keys := rfl
@[simp] theorem State.setQuay_pwr (q : Quay) (u : QuayUnit) : (s.setQuay q u).pwr = s.pwr := rfl
@[simp] theorem State.setQuay_slip (q : Quay) (u : QuayUnit) : (s.setQuay q u).slip = s.slip := rfl
@[simp] theorem State.setQuay_jtag (q : Quay) (u : QuayUnit) : (s.setQuay q u).jtag = s.jtag := rfl
@[simp] theorem State.setQuay_freeCtr (q : Quay) (u : QuayUnit) : (s.setQuay q u).freeCtr = s.freeCtr := rfl
@[simp] theorem State.setQuay_pending (q : Quay) (u : QuayUnit) : (s.setQuay q u).pending = s.pending := rfl

/-! ### `setLoopRun` -/

@[simp] theorem State.setLoopRun_regs (l : Nat) (r : LoopRun) : (s.setLoopRun l r).regs = s.regs := rfl
@[simp] theorem State.setLoopRun_phase (l : Nat) (r : LoopRun) : (s.setLoopRun l r).phase = s.phase := rfl
@[simp] theorem State.setLoopRun_power (l : Nat) (r : LoopRun) : (s.setLoopRun l r).power = s.power := rfl
@[simp] theorem State.setLoopRun_pfail (l : Nat) (r : LoopRun) : (s.setLoopRun l r).pfail = s.pfail := rfl
@[simp] theorem State.setLoopRun_tide (l : Nat) (r : LoopRun) : (s.setLoopRun l r).tide = s.tide := rfl
@[simp] theorem State.setLoopRun_mains (l : Nat) (r : LoopRun) : (s.setLoopRun l r).mains = s.mains := rfl
@[simp] theorem State.setLoopRun_hm (l : Nat) (r : LoopRun) : (s.setLoopRun l r).hm = s.hm := rfl
@[simp] theorem State.setLoopRun_klp (l : Nat) (r : LoopRun) : (s.setLoopRun l r).klp = s.klp := rfl
@[simp] theorem State.setLoopRun_nv (l : Nat) (r : LoopRun) : (s.setLoopRun l r).nv = s.nv := rfl
@[simp] theorem State.setLoopRun_log (l : Nat) (r : LoopRun) : (s.setLoopRun l r).log = s.log := rfl
@[simp] theorem State.setLoopRun_rtc (l : Nat) (r : LoopRun) : (s.setLoopRun l r).rtc = s.rtc := rfl
@[simp] theorem State.setLoopRun_bus (l : Nat) (r : LoopRun) : (s.setLoopRun l r).bus = s.bus := rfl
@[simp] theorem State.setLoopRun_berth (l : Nat) (r : LoopRun) : (s.setLoopRun l r).berth = s.berth := rfl
@[simp] theorem State.setLoopRun_loop (l : Nat) (r : LoopRun) : (s.setLoopRun l r).loop = { s.loop with runs := s.loop.runs.set l r } := rfl
@[simp] theorem State.setLoopRun_act (l : Nat) (r : LoopRun) : (s.setLoopRun l r).act = s.act := rfl
@[simp] theorem State.setLoopRun_sens (l : Nat) (r : LoopRun) : (s.setLoopRun l r).sens = s.sens := rfl
@[simp] theorem State.setLoopRun_focal (l : Nat) (r : LoopRun) : (s.setLoopRun l r).focal = s.focal := rfl
@[simp] theorem State.setLoopRun_pipe (l : Nat) (r : LoopRun) : (s.setLoopRun l r).pipe = s.pipe := rfl
@[simp] theorem State.setLoopRun_cal (l : Nat) (r : LoopRun) : (s.setLoopRun l r).cal = s.cal := rfl
@[simp] theorem State.setLoopRun_video (l : Nat) (r : LoopRun) : (s.setLoopRun l r).video = s.video := rfl
@[simp] theorem State.setLoopRun_panel (l : Nat) (r : LoopRun) : (s.setLoopRun l r).panel = s.panel := rfl
@[simp] theorem State.setLoopRun_keys (l : Nat) (r : LoopRun) : (s.setLoopRun l r).keys = s.keys := rfl
@[simp] theorem State.setLoopRun_pwr (l : Nat) (r : LoopRun) : (s.setLoopRun l r).pwr = s.pwr := rfl
@[simp] theorem State.setLoopRun_slip (l : Nat) (r : LoopRun) : (s.setLoopRun l r).slip = s.slip := rfl
@[simp] theorem State.setLoopRun_jtag (l : Nat) (r : LoopRun) : (s.setLoopRun l r).jtag = s.jtag := rfl
@[simp] theorem State.setLoopRun_freeCtr (l : Nat) (r : LoopRun) : (s.setLoopRun l r).freeCtr = s.freeCtr := rfl
@[simp] theorem State.setLoopRun_pending (l : Nat) (r : LoopRun) : (s.setLoopRun l r).pending = s.pending := rfl

/-! ### `setZoneRun` -/

@[simp] theorem State.setZoneRun_regs (z : Nat) (r : ZoneRun) : (s.setZoneRun z r).regs = s.regs := rfl
@[simp] theorem State.setZoneRun_phase (z : Nat) (r : ZoneRun) : (s.setZoneRun z r).phase = s.phase := rfl
@[simp] theorem State.setZoneRun_power (z : Nat) (r : ZoneRun) : (s.setZoneRun z r).power = s.power := rfl
@[simp] theorem State.setZoneRun_pfail (z : Nat) (r : ZoneRun) : (s.setZoneRun z r).pfail = s.pfail := rfl
@[simp] theorem State.setZoneRun_tide (z : Nat) (r : ZoneRun) : (s.setZoneRun z r).tide = s.tide := rfl
@[simp] theorem State.setZoneRun_mains (z : Nat) (r : ZoneRun) : (s.setZoneRun z r).mains = s.mains := rfl
@[simp] theorem State.setZoneRun_hm (z : Nat) (r : ZoneRun) : (s.setZoneRun z r).hm = s.hm := rfl
@[simp] theorem State.setZoneRun_klp (z : Nat) (r : ZoneRun) : (s.setZoneRun z r).klp = s.klp := rfl
@[simp] theorem State.setZoneRun_nv (z : Nat) (r : ZoneRun) : (s.setZoneRun z r).nv = s.nv := rfl
@[simp] theorem State.setZoneRun_log (z : Nat) (r : ZoneRun) : (s.setZoneRun z r).log = s.log := rfl
@[simp] theorem State.setZoneRun_rtc (z : Nat) (r : ZoneRun) : (s.setZoneRun z r).rtc = s.rtc := rfl
@[simp] theorem State.setZoneRun_bus (z : Nat) (r : ZoneRun) : (s.setZoneRun z r).bus = s.bus := rfl
@[simp] theorem State.setZoneRun_berth (z : Nat) (r : ZoneRun) : (s.setZoneRun z r).berth = s.berth := rfl
@[simp] theorem State.setZoneRun_loop (z : Nat) (r : ZoneRun) : (s.setZoneRun z r).loop = { s.loop with zones := s.loop.zones.set z r } := rfl
@[simp] theorem State.setZoneRun_act (z : Nat) (r : ZoneRun) : (s.setZoneRun z r).act = s.act := rfl
@[simp] theorem State.setZoneRun_sens (z : Nat) (r : ZoneRun) : (s.setZoneRun z r).sens = s.sens := rfl
@[simp] theorem State.setZoneRun_focal (z : Nat) (r : ZoneRun) : (s.setZoneRun z r).focal = s.focal := rfl
@[simp] theorem State.setZoneRun_pipe (z : Nat) (r : ZoneRun) : (s.setZoneRun z r).pipe = s.pipe := rfl
@[simp] theorem State.setZoneRun_cal (z : Nat) (r : ZoneRun) : (s.setZoneRun z r).cal = s.cal := rfl
@[simp] theorem State.setZoneRun_video (z : Nat) (r : ZoneRun) : (s.setZoneRun z r).video = s.video := rfl
@[simp] theorem State.setZoneRun_panel (z : Nat) (r : ZoneRun) : (s.setZoneRun z r).panel = s.panel := rfl
@[simp] theorem State.setZoneRun_keys (z : Nat) (r : ZoneRun) : (s.setZoneRun z r).keys = s.keys := rfl
@[simp] theorem State.setZoneRun_pwr (z : Nat) (r : ZoneRun) : (s.setZoneRun z r).pwr = s.pwr := rfl
@[simp] theorem State.setZoneRun_slip (z : Nat) (r : ZoneRun) : (s.setZoneRun z r).slip = s.slip := rfl
@[simp] theorem State.setZoneRun_jtag (z : Nat) (r : ZoneRun) : (s.setZoneRun z r).jtag = s.jtag := rfl
@[simp] theorem State.setZoneRun_freeCtr (z : Nat) (r : ZoneRun) : (s.setZoneRun z r).freeCtr = s.freeCtr := rfl
@[simp] theorem State.setZoneRun_pending (z : Nat) (r : ZoneRun) : (s.setZoneRun z r).pending = s.pending := rfl

/-! ### `setWel` -/

@[simp] theorem State.setWel_regs (b : Bool) : (s.setWel b).regs = s.regs := rfl
@[simp] theorem State.setWel_phase (b : Bool) : (s.setWel b).phase = s.phase := rfl
@[simp] theorem State.setWel_power (b : Bool) : (s.setWel b).power = s.power := rfl
@[simp] theorem State.setWel_pfail (b : Bool) : (s.setWel b).pfail = s.pfail := rfl
@[simp] theorem State.setWel_tide (b : Bool) : (s.setWel b).tide = s.tide := rfl
@[simp] theorem State.setWel_mains (b : Bool) : (s.setWel b).mains = s.mains := rfl
@[simp] theorem State.setWel_hm (b : Bool) : (s.setWel b).hm = s.hm := rfl
@[simp] theorem State.setWel_klp (b : Bool) : (s.setWel b).klp = s.klp := rfl
@[simp] theorem State.setWel_nv (b : Bool) : (s.setWel b).nv = { s.nv with wel := b } := rfl
@[simp] theorem State.setWel_log (b : Bool) : (s.setWel b).log = s.log := rfl
@[simp] theorem State.setWel_rtc (b : Bool) : (s.setWel b).rtc = s.rtc := rfl
@[simp] theorem State.setWel_bus (b : Bool) : (s.setWel b).bus = s.bus := rfl
@[simp] theorem State.setWel_berth (b : Bool) : (s.setWel b).berth = s.berth := rfl
@[simp] theorem State.setWel_loop (b : Bool) : (s.setWel b).loop = s.loop := rfl
@[simp] theorem State.setWel_act (b : Bool) : (s.setWel b).act = s.act := rfl
@[simp] theorem State.setWel_sens (b : Bool) : (s.setWel b).sens = s.sens := rfl
@[simp] theorem State.setWel_focal (b : Bool) : (s.setWel b).focal = s.focal := rfl
@[simp] theorem State.setWel_pipe (b : Bool) : (s.setWel b).pipe = s.pipe := rfl
@[simp] theorem State.setWel_cal (b : Bool) : (s.setWel b).cal = s.cal := rfl
@[simp] theorem State.setWel_video (b : Bool) : (s.setWel b).video = s.video := rfl
@[simp] theorem State.setWel_panel (b : Bool) : (s.setWel b).panel = s.panel := rfl
@[simp] theorem State.setWel_keys (b : Bool) : (s.setWel b).keys = s.keys := rfl
@[simp] theorem State.setWel_pwr (b : Bool) : (s.setWel b).pwr = s.pwr := rfl
@[simp] theorem State.setWel_slip (b : Bool) : (s.setWel b).slip = s.slip := rfl
@[simp] theorem State.setWel_jtag (b : Bool) : (s.setWel b).jtag = s.jtag := rfl
@[simp] theorem State.setWel_freeCtr (b : Bool) : (s.setWel b).freeCtr = s.freeCtr := rfl
@[simp] theorem State.setWel_pending (b : Bool) : (s.setWel b).pending = s.pending := rfl

/-! ### `withBw` -/

@[simp] theorem State.withBw_regs (b : Breakwater) : (s.withBw b).regs = s.regs := rfl
@[simp] theorem State.withBw_phase (b : Breakwater) : (s.withBw b).phase = s.phase := rfl
@[simp] theorem State.withBw_power (b : Breakwater) : (s.withBw b).power = s.power := rfl
@[simp] theorem State.withBw_pfail (b : Breakwater) : (s.withBw b).pfail = s.pfail := rfl
@[simp] theorem State.withBw_tide (b : Breakwater) : (s.withBw b).tide = s.tide := rfl
@[simp] theorem State.withBw_mains (b : Breakwater) : (s.withBw b).mains = s.mains := rfl
@[simp] theorem State.withBw_hm (b : Breakwater) : (s.withBw b).hm = s.hm := rfl
@[simp] theorem State.withBw_klp (b : Breakwater) : (s.withBw b).klp = s.klp := rfl
@[simp] theorem State.withBw_nv (b : Breakwater) : (s.withBw b).nv = s.nv := rfl
@[simp] theorem State.withBw_log (b : Breakwater) : (s.withBw b).log = s.log := rfl
@[simp] theorem State.withBw_rtc (b : Breakwater) : (s.withBw b).rtc = s.rtc := rfl
@[simp] theorem State.withBw_bus (b : Breakwater) : (s.withBw b).bus = { s.bus with bw := b } := rfl
@[simp] theorem State.withBw_berth (b : Breakwater) : (s.withBw b).berth = s.berth := rfl
@[simp] theorem State.withBw_loop (b : Breakwater) : (s.withBw b).loop = s.loop := rfl
@[simp] theorem State.withBw_act (b : Breakwater) : (s.withBw b).act = s.act := rfl
@[simp] theorem State.withBw_sens (b : Breakwater) : (s.withBw b).sens = s.sens := rfl
@[simp] theorem State.withBw_focal (b : Breakwater) : (s.withBw b).focal = s.focal := rfl
@[simp] theorem State.withBw_pipe (b : Breakwater) : (s.withBw b).pipe = s.pipe := rfl
@[simp] theorem State.withBw_cal (b : Breakwater) : (s.withBw b).cal = s.cal := rfl
@[simp] theorem State.withBw_video (b : Breakwater) : (s.withBw b).video = s.video := rfl
@[simp] theorem State.withBw_panel (b : Breakwater) : (s.withBw b).panel = s.panel := rfl
@[simp] theorem State.withBw_keys (b : Breakwater) : (s.withBw b).keys = s.keys := rfl
@[simp] theorem State.withBw_pwr (b : Breakwater) : (s.withBw b).pwr = s.pwr := rfl
@[simp] theorem State.withBw_slip (b : Breakwater) : (s.withBw b).slip = s.slip := rfl
@[simp] theorem State.withBw_jtag (b : Breakwater) : (s.withBw b).jtag = s.jtag := rfl
@[simp] theorem State.withBw_freeCtr (b : Breakwater) : (s.withBw b).freeCtr = s.freeCtr := rfl
@[simp] theorem State.withBw_pending (b : Breakwater) : (s.withBw b).pending = s.pending := rfl

/-! ### `withBerth` -/

@[simp] theorem State.withBerth_regs (x : BerthPart) : (s.withBerth x).regs = s.regs := rfl
@[simp] theorem State.withBerth_phase (x : BerthPart) : (s.withBerth x).phase = s.phase := rfl
@[simp] theorem State.withBerth_power (x : BerthPart) : (s.withBerth x).power = s.power := rfl
@[simp] theorem State.withBerth_pfail (x : BerthPart) : (s.withBerth x).pfail = s.pfail := rfl
@[simp] theorem State.withBerth_tide (x : BerthPart) : (s.withBerth x).tide = s.tide := rfl
@[simp] theorem State.withBerth_mains (x : BerthPart) : (s.withBerth x).mains = s.mains := rfl
@[simp] theorem State.withBerth_hm (x : BerthPart) : (s.withBerth x).hm = s.hm := rfl
@[simp] theorem State.withBerth_klp (x : BerthPart) : (s.withBerth x).klp = s.klp := rfl
@[simp] theorem State.withBerth_nv (x : BerthPart) : (s.withBerth x).nv = s.nv := rfl
@[simp] theorem State.withBerth_log (x : BerthPart) : (s.withBerth x).log = s.log := rfl
@[simp] theorem State.withBerth_rtc (x : BerthPart) : (s.withBerth x).rtc = s.rtc := rfl
@[simp] theorem State.withBerth_bus (x : BerthPart) : (s.withBerth x).bus = s.bus := rfl
@[simp] theorem State.withBerth_berth (x : BerthPart) : (s.withBerth x).berth = x := rfl
@[simp] theorem State.withBerth_loop (x : BerthPart) : (s.withBerth x).loop = s.loop := rfl
@[simp] theorem State.withBerth_act (x : BerthPart) : (s.withBerth x).act = s.act := rfl
@[simp] theorem State.withBerth_sens (x : BerthPart) : (s.withBerth x).sens = s.sens := rfl
@[simp] theorem State.withBerth_focal (x : BerthPart) : (s.withBerth x).focal = s.focal := rfl
@[simp] theorem State.withBerth_pipe (x : BerthPart) : (s.withBerth x).pipe = s.pipe := rfl
@[simp] theorem State.withBerth_cal (x : BerthPart) : (s.withBerth x).cal = s.cal := rfl
@[simp] theorem State.withBerth_video (x : BerthPart) : (s.withBerth x).video = s.video := rfl
@[simp] theorem State.withBerth_panel (x : BerthPart) : (s.withBerth x).panel = s.panel := rfl
@[simp] theorem State.withBerth_keys (x : BerthPart) : (s.withBerth x).keys = s.keys := rfl
@[simp] theorem State.withBerth_pwr (x : BerthPart) : (s.withBerth x).pwr = s.pwr := rfl
@[simp] theorem State.withBerth_slip (x : BerthPart) : (s.withBerth x).slip = s.slip := rfl
@[simp] theorem State.withBerth_jtag (x : BerthPart) : (s.withBerth x).jtag = s.jtag := rfl
@[simp] theorem State.withBerth_freeCtr (x : BerthPart) : (s.withBerth x).freeCtr = s.freeCtr := rfl
@[simp] theorem State.withBerth_pending (x : BerthPart) : (s.withBerth x).pending = s.pending := rfl

/-! ### `withCal` -/

@[simp] theorem State.withCal_regs (x : CalPart) : (s.withCal x).regs = s.regs := rfl
@[simp] theorem State.withCal_phase (x : CalPart) : (s.withCal x).phase = s.phase := rfl
@[simp] theorem State.withCal_power (x : CalPart) : (s.withCal x).power = s.power := rfl
@[simp] theorem State.withCal_pfail (x : CalPart) : (s.withCal x).pfail = s.pfail := rfl
@[simp] theorem State.withCal_tide (x : CalPart) : (s.withCal x).tide = s.tide := rfl
@[simp] theorem State.withCal_mains (x : CalPart) : (s.withCal x).mains = s.mains := rfl
@[simp] theorem State.withCal_hm (x : CalPart) : (s.withCal x).hm = s.hm := rfl
@[simp] theorem State.withCal_klp (x : CalPart) : (s.withCal x).klp = s.klp := rfl
@[simp] theorem State.withCal_nv (x : CalPart) : (s.withCal x).nv = s.nv := rfl
@[simp] theorem State.withCal_log (x : CalPart) : (s.withCal x).log = s.log := rfl
@[simp] theorem State.withCal_rtc (x : CalPart) : (s.withCal x).rtc = s.rtc := rfl
@[simp] theorem State.withCal_bus (x : CalPart) : (s.withCal x).bus = s.bus := rfl
@[simp] theorem State.withCal_berth (x : CalPart) : (s.withCal x).berth = s.berth := rfl
@[simp] theorem State.withCal_loop (x : CalPart) : (s.withCal x).loop = s.loop := rfl
@[simp] theorem State.withCal_act (x : CalPart) : (s.withCal x).act = s.act := rfl
@[simp] theorem State.withCal_sens (x : CalPart) : (s.withCal x).sens = s.sens := rfl
@[simp] theorem State.withCal_focal (x : CalPart) : (s.withCal x).focal = s.focal := rfl
@[simp] theorem State.withCal_pipe (x : CalPart) : (s.withCal x).pipe = s.pipe := rfl
@[simp] theorem State.withCal_cal (x : CalPart) : (s.withCal x).cal = x := rfl
@[simp] theorem State.withCal_video (x : CalPart) : (s.withCal x).video = s.video := rfl
@[simp] theorem State.withCal_panel (x : CalPart) : (s.withCal x).panel = s.panel := rfl
@[simp] theorem State.withCal_keys (x : CalPart) : (s.withCal x).keys = s.keys := rfl
@[simp] theorem State.withCal_pwr (x : CalPart) : (s.withCal x).pwr = s.pwr := rfl
@[simp] theorem State.withCal_slip (x : CalPart) : (s.withCal x).slip = s.slip := rfl
@[simp] theorem State.withCal_jtag (x : CalPart) : (s.withCal x).jtag = s.jtag := rfl
@[simp] theorem State.withCal_freeCtr (x : CalPart) : (s.withCal x).freeCtr = s.freeCtr := rfl
@[simp] theorem State.withCal_pending (x : CalPart) : (s.withCal x).pending = s.pending := rfl

/-! ### `withFocal` -/

@[simp] theorem State.withFocal_regs (x : FocalPart) : (s.withFocal x).regs = s.regs := rfl
@[simp] theorem State.withFocal_phase (x : FocalPart) : (s.withFocal x).phase = s.phase := rfl
@[simp] theorem State.withFocal_power (x : FocalPart) : (s.withFocal x).power = s.power := rfl
@[simp] theorem State.withFocal_pfail (x : FocalPart) : (s.withFocal x).pfail = s.pfail := rfl
@[simp] theorem State.withFocal_tide (x : FocalPart) : (s.withFocal x).tide = s.tide := rfl
@[simp] theorem State.withFocal_mains (x : FocalPart) : (s.withFocal x).mains = s.mains := rfl
@[simp] theorem State.withFocal_hm (x : FocalPart) : (s.withFocal x).hm = s.hm := rfl
@[simp] theorem State.withFocal_klp (x : FocalPart) : (s.withFocal x).klp = s.klp := rfl
@[simp] theorem State.withFocal_nv (x : FocalPart) : (s.withFocal x).nv = s.nv := rfl
@[simp] theorem State.withFocal_log (x : FocalPart) : (s.withFocal x).log = s.log := rfl
@[simp] theorem State.withFocal_rtc (x : FocalPart) : (s.withFocal x).rtc = s.rtc := rfl
@[simp] theorem State.withFocal_bus (x : FocalPart) : (s.withFocal x).bus = s.bus := rfl
@[simp] theorem State.withFocal_berth (x : FocalPart) : (s.withFocal x).berth = s.berth := rfl
@[simp] theorem State.withFocal_loop (x : FocalPart) : (s.withFocal x).loop = s.loop := rfl
@[simp] theorem State.withFocal_act (x : FocalPart) : (s.withFocal x).act = s.act := rfl
@[simp] theorem State.withFocal_sens (x : FocalPart) : (s.withFocal x).sens = s.sens := rfl
@[simp] theorem State.withFocal_focal (x : FocalPart) : (s.withFocal x).focal = x := rfl
@[simp] theorem State.withFocal_pipe (x : FocalPart) : (s.withFocal x).pipe = s.pipe := rfl
@[simp] theorem State.withFocal_cal (x : FocalPart) : (s.withFocal x).cal = s.cal := rfl
@[simp] theorem State.withFocal_video (x : FocalPart) : (s.withFocal x).video = s.video := rfl
@[simp] theorem State.withFocal_panel (x : FocalPart) : (s.withFocal x).panel = s.panel := rfl
@[simp] theorem State.withFocal_keys (x : FocalPart) : (s.withFocal x).keys = s.keys := rfl
@[simp] theorem State.withFocal_pwr (x : FocalPart) : (s.withFocal x).pwr = s.pwr := rfl
@[simp] theorem State.withFocal_slip (x : FocalPart) : (s.withFocal x).slip = s.slip := rfl
@[simp] theorem State.withFocal_jtag (x : FocalPart) : (s.withFocal x).jtag = s.jtag := rfl
@[simp] theorem State.withFocal_freeCtr (x : FocalPart) : (s.withFocal x).freeCtr = s.freeCtr := rfl
@[simp] theorem State.withFocal_pending (x : FocalPart) : (s.withFocal x).pending = s.pending := rfl

/-! ### `withHm` -/

@[simp] theorem State.withHm_regs (x : Hm) : (s.withHm x).regs = s.regs := rfl
@[simp] theorem State.withHm_phase (x : Hm) : (s.withHm x).phase = s.phase := rfl
@[simp] theorem State.withHm_power (x : Hm) : (s.withHm x).power = s.power := rfl
@[simp] theorem State.withHm_pfail (x : Hm) : (s.withHm x).pfail = s.pfail := rfl
@[simp] theorem State.withHm_tide (x : Hm) : (s.withHm x).tide = s.tide := rfl
@[simp] theorem State.withHm_mains (x : Hm) : (s.withHm x).mains = s.mains := rfl
@[simp] theorem State.withHm_hm (x : Hm) : (s.withHm x).hm = x := rfl
@[simp] theorem State.withHm_klp (x : Hm) : (s.withHm x).klp = s.klp := rfl
@[simp] theorem State.withHm_nv (x : Hm) : (s.withHm x).nv = s.nv := rfl
@[simp] theorem State.withHm_log (x : Hm) : (s.withHm x).log = s.log := rfl
@[simp] theorem State.withHm_rtc (x : Hm) : (s.withHm x).rtc = s.rtc := rfl
@[simp] theorem State.withHm_bus (x : Hm) : (s.withHm x).bus = s.bus := rfl
@[simp] theorem State.withHm_berth (x : Hm) : (s.withHm x).berth = s.berth := rfl
@[simp] theorem State.withHm_loop (x : Hm) : (s.withHm x).loop = s.loop := rfl
@[simp] theorem State.withHm_act (x : Hm) : (s.withHm x).act = s.act := rfl
@[simp] theorem State.withHm_sens (x : Hm) : (s.withHm x).sens = s.sens := rfl
@[simp] theorem State.withHm_focal (x : Hm) : (s.withHm x).focal = s.focal := rfl
@[simp] theorem State.withHm_pipe (x : Hm) : (s.withHm x).pipe = s.pipe := rfl
@[simp] theorem State.withHm_cal (x : Hm) : (s.withHm x).cal = s.cal := rfl
@[simp] theorem State.withHm_video (x : Hm) : (s.withHm x).video = s.video := rfl
@[simp] theorem State.withHm_panel (x : Hm) : (s.withHm x).panel = s.panel := rfl
@[simp] theorem State.withHm_keys (x : Hm) : (s.withHm x).keys = s.keys := rfl
@[simp] theorem State.withHm_pwr (x : Hm) : (s.withHm x).pwr = s.pwr := rfl
@[simp] theorem State.withHm_slip (x : Hm) : (s.withHm x).slip = s.slip := rfl
@[simp] theorem State.withHm_jtag (x : Hm) : (s.withHm x).jtag = s.jtag := rfl
@[simp] theorem State.withHm_freeCtr (x : Hm) : (s.withHm x).freeCtr = s.freeCtr := rfl
@[simp] theorem State.withHm_pending (x : Hm) : (s.withHm x).pending = s.pending := rfl

/-! ### `withSlip` -/

@[simp] theorem State.withSlip_regs (x : SlipPart) : (s.withSlip x).regs = s.regs := rfl
@[simp] theorem State.withSlip_phase (x : SlipPart) : (s.withSlip x).phase = s.phase := rfl
@[simp] theorem State.withSlip_power (x : SlipPart) : (s.withSlip x).power = s.power := rfl
@[simp] theorem State.withSlip_pfail (x : SlipPart) : (s.withSlip x).pfail = s.pfail := rfl
@[simp] theorem State.withSlip_tide (x : SlipPart) : (s.withSlip x).tide = s.tide := rfl
@[simp] theorem State.withSlip_mains (x : SlipPart) : (s.withSlip x).mains = s.mains := rfl
@[simp] theorem State.withSlip_hm (x : SlipPart) : (s.withSlip x).hm = s.hm := rfl
@[simp] theorem State.withSlip_klp (x : SlipPart) : (s.withSlip x).klp = s.klp := rfl
@[simp] theorem State.withSlip_nv (x : SlipPart) : (s.withSlip x).nv = s.nv := rfl
@[simp] theorem State.withSlip_log (x : SlipPart) : (s.withSlip x).log = s.log := rfl
@[simp] theorem State.withSlip_rtc (x : SlipPart) : (s.withSlip x).rtc = s.rtc := rfl
@[simp] theorem State.withSlip_bus (x : SlipPart) : (s.withSlip x).bus = s.bus := rfl
@[simp] theorem State.withSlip_berth (x : SlipPart) : (s.withSlip x).berth = s.berth := rfl
@[simp] theorem State.withSlip_loop (x : SlipPart) : (s.withSlip x).loop = s.loop := rfl
@[simp] theorem State.withSlip_act (x : SlipPart) : (s.withSlip x).act = s.act := rfl
@[simp] theorem State.withSlip_sens (x : SlipPart) : (s.withSlip x).sens = s.sens := rfl
@[simp] theorem State.withSlip_focal (x : SlipPart) : (s.withSlip x).focal = s.focal := rfl
@[simp] theorem State.withSlip_pipe (x : SlipPart) : (s.withSlip x).pipe = s.pipe := rfl
@[simp] theorem State.withSlip_cal (x : SlipPart) : (s.withSlip x).cal = s.cal := rfl
@[simp] theorem State.withSlip_video (x : SlipPart) : (s.withSlip x).video = s.video := rfl
@[simp] theorem State.withSlip_panel (x : SlipPart) : (s.withSlip x).panel = s.panel := rfl
@[simp] theorem State.withSlip_keys (x : SlipPart) : (s.withSlip x).keys = s.keys := rfl
@[simp] theorem State.withSlip_pwr (x : SlipPart) : (s.withSlip x).pwr = s.pwr := rfl
@[simp] theorem State.withSlip_slip (x : SlipPart) : (s.withSlip x).slip = x := rfl
@[simp] theorem State.withSlip_jtag (x : SlipPart) : (s.withSlip x).jtag = s.jtag := rfl
@[simp] theorem State.withSlip_freeCtr (x : SlipPart) : (s.withSlip x).freeCtr = s.freeCtr := rfl
@[simp] theorem State.withSlip_pending (x : SlipPart) : (s.withSlip x).pending = s.pending := rfl

/-! ### `withKlp` -/

@[simp] theorem State.withKlp_regs (x : Klp) : (s.withKlp x).regs = s.regs := rfl
@[simp] theorem State.withKlp_phase (x : Klp) : (s.withKlp x).phase = s.phase := rfl
@[simp] theorem State.withKlp_power (x : Klp) : (s.withKlp x).power = s.power := rfl
@[simp] theorem State.withKlp_pfail (x : Klp) : (s.withKlp x).pfail = s.pfail := rfl
@[simp] theorem State.withKlp_tide (x : Klp) : (s.withKlp x).tide = s.tide := rfl
@[simp] theorem State.withKlp_mains (x : Klp) : (s.withKlp x).mains = s.mains := rfl
@[simp] theorem State.withKlp_hm (x : Klp) : (s.withKlp x).hm = s.hm := rfl
@[simp] theorem State.withKlp_klp (x : Klp) : (s.withKlp x).klp = x := rfl
@[simp] theorem State.withKlp_nv (x : Klp) : (s.withKlp x).nv = s.nv := rfl
@[simp] theorem State.withKlp_log (x : Klp) : (s.withKlp x).log = s.log := rfl
@[simp] theorem State.withKlp_rtc (x : Klp) : (s.withKlp x).rtc = s.rtc := rfl
@[simp] theorem State.withKlp_bus (x : Klp) : (s.withKlp x).bus = s.bus := rfl
@[simp] theorem State.withKlp_berth (x : Klp) : (s.withKlp x).berth = s.berth := rfl
@[simp] theorem State.withKlp_loop (x : Klp) : (s.withKlp x).loop = s.loop := rfl
@[simp] theorem State.withKlp_act (x : Klp) : (s.withKlp x).act = s.act := rfl
@[simp] theorem State.withKlp_sens (x : Klp) : (s.withKlp x).sens = s.sens := rfl
@[simp] theorem State.withKlp_focal (x : Klp) : (s.withKlp x).focal = s.focal := rfl
@[simp] theorem State.withKlp_pipe (x : Klp) : (s.withKlp x).pipe = s.pipe := rfl
@[simp] theorem State.withKlp_cal (x : Klp) : (s.withKlp x).cal = s.cal := rfl
@[simp] theorem State.withKlp_video (x : Klp) : (s.withKlp x).video = s.video := rfl
@[simp] theorem State.withKlp_panel (x : Klp) : (s.withKlp x).panel = s.panel := rfl
@[simp] theorem State.withKlp_keys (x : Klp) : (s.withKlp x).keys = s.keys := rfl
@[simp] theorem State.withKlp_pwr (x : Klp) : (s.withKlp x).pwr = s.pwr := rfl
@[simp] theorem State.withKlp_slip (x : Klp) : (s.withKlp x).slip = s.slip := rfl
@[simp] theorem State.withKlp_jtag (x : Klp) : (s.withKlp x).jtag = s.jtag := rfl
@[simp] theorem State.withKlp_freeCtr (x : Klp) : (s.withKlp x).freeCtr = s.freeCtr := rfl
@[simp] theorem State.withKlp_pending (x : Klp) : (s.withKlp x).pending = s.pending := rfl

/-! ### `withLog` -/

@[simp] theorem State.withLog_regs (x : Log) : (s.withLog x).regs = s.regs := rfl
@[simp] theorem State.withLog_phase (x : Log) : (s.withLog x).phase = s.phase := rfl
@[simp] theorem State.withLog_power (x : Log) : (s.withLog x).power = s.power := rfl
@[simp] theorem State.withLog_pfail (x : Log) : (s.withLog x).pfail = s.pfail := rfl
@[simp] theorem State.withLog_tide (x : Log) : (s.withLog x).tide = s.tide := rfl
@[simp] theorem State.withLog_mains (x : Log) : (s.withLog x).mains = s.mains := rfl
@[simp] theorem State.withLog_hm (x : Log) : (s.withLog x).hm = s.hm := rfl
@[simp] theorem State.withLog_klp (x : Log) : (s.withLog x).klp = s.klp := rfl
@[simp] theorem State.withLog_nv (x : Log) : (s.withLog x).nv = s.nv := rfl
@[simp] theorem State.withLog_log (x : Log) : (s.withLog x).log = x := rfl
@[simp] theorem State.withLog_rtc (x : Log) : (s.withLog x).rtc = s.rtc := rfl
@[simp] theorem State.withLog_bus (x : Log) : (s.withLog x).bus = s.bus := rfl
@[simp] theorem State.withLog_berth (x : Log) : (s.withLog x).berth = s.berth := rfl
@[simp] theorem State.withLog_loop (x : Log) : (s.withLog x).loop = s.loop := rfl
@[simp] theorem State.withLog_act (x : Log) : (s.withLog x).act = s.act := rfl
@[simp] theorem State.withLog_sens (x : Log) : (s.withLog x).sens = s.sens := rfl
@[simp] theorem State.withLog_focal (x : Log) : (s.withLog x).focal = s.focal := rfl
@[simp] theorem State.withLog_pipe (x : Log) : (s.withLog x).pipe = s.pipe := rfl
@[simp] theorem State.withLog_cal (x : Log) : (s.withLog x).cal = s.cal := rfl
@[simp] theorem State.withLog_video (x : Log) : (s.withLog x).video = s.video := rfl
@[simp] theorem State.withLog_panel (x : Log) : (s.withLog x).panel = s.panel := rfl
@[simp] theorem State.withLog_keys (x : Log) : (s.withLog x).keys = s.keys := rfl
@[simp] theorem State.withLog_pwr (x : Log) : (s.withLog x).pwr = s.pwr := rfl
@[simp] theorem State.withLog_slip (x : Log) : (s.withLog x).slip = s.slip := rfl
@[simp] theorem State.withLog_jtag (x : Log) : (s.withLog x).jtag = s.jtag := rfl
@[simp] theorem State.withLog_freeCtr (x : Log) : (s.withLog x).freeCtr = s.freeCtr := rfl
@[simp] theorem State.withLog_pending (x : Log) : (s.withLog x).pending = s.pending := rfl

/-! ### `withNv` -/

@[simp] theorem State.withNv_regs (x : Nv) : (s.withNv x).regs = s.regs := rfl
@[simp] theorem State.withNv_phase (x : Nv) : (s.withNv x).phase = s.phase := rfl
@[simp] theorem State.withNv_power (x : Nv) : (s.withNv x).power = s.power := rfl
@[simp] theorem State.withNv_pfail (x : Nv) : (s.withNv x).pfail = s.pfail := rfl
@[simp] theorem State.withNv_tide (x : Nv) : (s.withNv x).tide = s.tide := rfl
@[simp] theorem State.withNv_mains (x : Nv) : (s.withNv x).mains = s.mains := rfl
@[simp] theorem State.withNv_hm (x : Nv) : (s.withNv x).hm = s.hm := rfl
@[simp] theorem State.withNv_klp (x : Nv) : (s.withNv x).klp = s.klp := rfl
@[simp] theorem State.withNv_nv (x : Nv) : (s.withNv x).nv = x := rfl
@[simp] theorem State.withNv_log (x : Nv) : (s.withNv x).log = s.log := rfl
@[simp] theorem State.withNv_rtc (x : Nv) : (s.withNv x).rtc = s.rtc := rfl
@[simp] theorem State.withNv_bus (x : Nv) : (s.withNv x).bus = s.bus := rfl
@[simp] theorem State.withNv_berth (x : Nv) : (s.withNv x).berth = s.berth := rfl
@[simp] theorem State.withNv_loop (x : Nv) : (s.withNv x).loop = s.loop := rfl
@[simp] theorem State.withNv_act (x : Nv) : (s.withNv x).act = s.act := rfl
@[simp] theorem State.withNv_sens (x : Nv) : (s.withNv x).sens = s.sens := rfl
@[simp] theorem State.withNv_focal (x : Nv) : (s.withNv x).focal = s.focal := rfl
@[simp] theorem State.withNv_pipe (x : Nv) : (s.withNv x).pipe = s.pipe := rfl
@[simp] theorem State.withNv_cal (x : Nv) : (s.withNv x).cal = s.cal := rfl
@[simp] theorem State.withNv_video (x : Nv) : (s.withNv x).video = s.video := rfl
@[simp] theorem State.withNv_panel (x : Nv) : (s.withNv x).panel = s.panel := rfl
@[simp] theorem State.withNv_keys (x : Nv) : (s.withNv x).keys = s.keys := rfl
@[simp] theorem State.withNv_pwr (x : Nv) : (s.withNv x).pwr = s.pwr := rfl
@[simp] theorem State.withNv_slip (x : Nv) : (s.withNv x).slip = s.slip := rfl
@[simp] theorem State.withNv_jtag (x : Nv) : (s.withNv x).jtag = s.jtag := rfl
@[simp] theorem State.withNv_freeCtr (x : Nv) : (s.withNv x).freeCtr = s.freeCtr := rfl
@[simp] theorem State.withNv_pending (x : Nv) : (s.withNv x).pending = s.pending := rfl

/-! ### `withPanel` -/

@[simp] theorem State.withPanel_regs (x : PanelPart) : (s.withPanel x).regs = s.regs := rfl
@[simp] theorem State.withPanel_phase (x : PanelPart) : (s.withPanel x).phase = s.phase := rfl
@[simp] theorem State.withPanel_power (x : PanelPart) : (s.withPanel x).power = s.power := rfl
@[simp] theorem State.withPanel_pfail (x : PanelPart) : (s.withPanel x).pfail = s.pfail := rfl
@[simp] theorem State.withPanel_tide (x : PanelPart) : (s.withPanel x).tide = s.tide := rfl
@[simp] theorem State.withPanel_mains (x : PanelPart) : (s.withPanel x).mains = s.mains := rfl
@[simp] theorem State.withPanel_hm (x : PanelPart) : (s.withPanel x).hm = s.hm := rfl
@[simp] theorem State.withPanel_klp (x : PanelPart) : (s.withPanel x).klp = s.klp := rfl
@[simp] theorem State.withPanel_nv (x : PanelPart) : (s.withPanel x).nv = s.nv := rfl
@[simp] theorem State.withPanel_log (x : PanelPart) : (s.withPanel x).log = s.log := rfl
@[simp] theorem State.withPanel_rtc (x : PanelPart) : (s.withPanel x).rtc = s.rtc := rfl
@[simp] theorem State.withPanel_bus (x : PanelPart) : (s.withPanel x).bus = s.bus := rfl
@[simp] theorem State.withPanel_berth (x : PanelPart) : (s.withPanel x).berth = s.berth := rfl
@[simp] theorem State.withPanel_loop (x : PanelPart) : (s.withPanel x).loop = s.loop := rfl
@[simp] theorem State.withPanel_act (x : PanelPart) : (s.withPanel x).act = s.act := rfl
@[simp] theorem State.withPanel_sens (x : PanelPart) : (s.withPanel x).sens = s.sens := rfl
@[simp] theorem State.withPanel_focal (x : PanelPart) : (s.withPanel x).focal = s.focal := rfl
@[simp] theorem State.withPanel_pipe (x : PanelPart) : (s.withPanel x).pipe = s.pipe := rfl
@[simp] theorem State.withPanel_cal (x : PanelPart) : (s.withPanel x).cal = s.cal := rfl
@[simp] theorem State.withPanel_video (x : PanelPart) : (s.withPanel x).video = s.video := rfl
@[simp] theorem State.withPanel_panel (x : PanelPart) : (s.withPanel x).panel = x := rfl
@[simp] theorem State.withPanel_keys (x : PanelPart) : (s.withPanel x).keys = s.keys := rfl
@[simp] theorem State.withPanel_pwr (x : PanelPart) : (s.withPanel x).pwr = s.pwr := rfl
@[simp] theorem State.withPanel_slip (x : PanelPart) : (s.withPanel x).slip = s.slip := rfl
@[simp] theorem State.withPanel_jtag (x : PanelPart) : (s.withPanel x).jtag = s.jtag := rfl
@[simp] theorem State.withPanel_freeCtr (x : PanelPart) : (s.withPanel x).freeCtr = s.freeCtr := rfl
@[simp] theorem State.withPanel_pending (x : PanelPart) : (s.withPanel x).pending = s.pending := rfl

/-! ### `withKeys` -/

@[simp] theorem State.withKeys_regs (x : KeyPart) : (s.withKeys x).regs = s.regs := rfl
@[simp] theorem State.withKeys_phase (x : KeyPart) : (s.withKeys x).phase = s.phase := rfl
@[simp] theorem State.withKeys_power (x : KeyPart) : (s.withKeys x).power = s.power := rfl
@[simp] theorem State.withKeys_pfail (x : KeyPart) : (s.withKeys x).pfail = s.pfail := rfl
@[simp] theorem State.withKeys_tide (x : KeyPart) : (s.withKeys x).tide = s.tide := rfl
@[simp] theorem State.withKeys_mains (x : KeyPart) : (s.withKeys x).mains = s.mains := rfl
@[simp] theorem State.withKeys_hm (x : KeyPart) : (s.withKeys x).hm = s.hm := rfl
@[simp] theorem State.withKeys_klp (x : KeyPart) : (s.withKeys x).klp = s.klp := rfl
@[simp] theorem State.withKeys_nv (x : KeyPart) : (s.withKeys x).nv = s.nv := rfl
@[simp] theorem State.withKeys_log (x : KeyPart) : (s.withKeys x).log = s.log := rfl
@[simp] theorem State.withKeys_rtc (x : KeyPart) : (s.withKeys x).rtc = s.rtc := rfl
@[simp] theorem State.withKeys_bus (x : KeyPart) : (s.withKeys x).bus = s.bus := rfl
@[simp] theorem State.withKeys_berth (x : KeyPart) : (s.withKeys x).berth = s.berth := rfl
@[simp] theorem State.withKeys_loop (x : KeyPart) : (s.withKeys x).loop = s.loop := rfl
@[simp] theorem State.withKeys_act (x : KeyPart) : (s.withKeys x).act = s.act := rfl
@[simp] theorem State.withKeys_sens (x : KeyPart) : (s.withKeys x).sens = s.sens := rfl
@[simp] theorem State.withKeys_focal (x : KeyPart) : (s.withKeys x).focal = s.focal := rfl
@[simp] theorem State.withKeys_pipe (x : KeyPart) : (s.withKeys x).pipe = s.pipe := rfl
@[simp] theorem State.withKeys_cal (x : KeyPart) : (s.withKeys x).cal = s.cal := rfl
@[simp] theorem State.withKeys_video (x : KeyPart) : (s.withKeys x).video = s.video := rfl
@[simp] theorem State.withKeys_panel (x : KeyPart) : (s.withKeys x).panel = s.panel := rfl
@[simp] theorem State.withKeys_keys (x : KeyPart) : (s.withKeys x).keys = x := rfl
@[simp] theorem State.withKeys_pwr (x : KeyPart) : (s.withKeys x).pwr = s.pwr := rfl
@[simp] theorem State.withKeys_slip (x : KeyPart) : (s.withKeys x).slip = s.slip := rfl
@[simp] theorem State.withKeys_jtag (x : KeyPart) : (s.withKeys x).jtag = s.jtag := rfl
@[simp] theorem State.withKeys_freeCtr (x : KeyPart) : (s.withKeys x).freeCtr = s.freeCtr := rfl
@[simp] theorem State.withKeys_pending (x : KeyPart) : (s.withKeys x).pending = s.pending := rfl

/-! ### `withPipe` -/

@[simp] theorem State.withPipe_regs (x : PipePart) : (s.withPipe x).regs = s.regs := rfl
@[simp] theorem State.withPipe_phase (x : PipePart) : (s.withPipe x).phase = s.phase := rfl
@[simp] theorem State.withPipe_power (x : PipePart) : (s.withPipe x).power = s.power := rfl
@[simp] theorem State.withPipe_pfail (x : PipePart) : (s.withPipe x).pfail = s.pfail := rfl
@[simp] theorem State.withPipe_tide (x : PipePart) : (s.withPipe x).tide = s.tide := rfl
@[simp] theorem State.withPipe_mains (x : PipePart) : (s.withPipe x).mains = s.mains := rfl
@[simp] theorem State.withPipe_hm (x : PipePart) : (s.withPipe x).hm = s.hm := rfl
@[simp] theorem State.withPipe_klp (x : PipePart) : (s.withPipe x).klp = s.klp := rfl
@[simp] theorem State.withPipe_nv (x : PipePart) : (s.withPipe x).nv = s.nv := rfl
@[simp] theorem State.withPipe_log (x : PipePart) : (s.withPipe x).log = s.log := rfl
@[simp] theorem State.withPipe_rtc (x : PipePart) : (s.withPipe x).rtc = s.rtc := rfl
@[simp] theorem State.withPipe_bus (x : PipePart) : (s.withPipe x).bus = s.bus := rfl
@[simp] theorem State.withPipe_berth (x : PipePart) : (s.withPipe x).berth = s.berth := rfl
@[simp] theorem State.withPipe_loop (x : PipePart) : (s.withPipe x).loop = s.loop := rfl
@[simp] theorem State.withPipe_act (x : PipePart) : (s.withPipe x).act = s.act := rfl
@[simp] theorem State.withPipe_sens (x : PipePart) : (s.withPipe x).sens = s.sens := rfl
@[simp] theorem State.withPipe_focal (x : PipePart) : (s.withPipe x).focal = s.focal := rfl
@[simp] theorem State.withPipe_pipe (x : PipePart) : (s.withPipe x).pipe = x := rfl
@[simp] theorem State.withPipe_cal (x : PipePart) : (s.withPipe x).cal = s.cal := rfl
@[simp] theorem State.withPipe_video (x : PipePart) : (s.withPipe x).video = s.video := rfl
@[simp] theorem State.withPipe_panel (x : PipePart) : (s.withPipe x).panel = s.panel := rfl
@[simp] theorem State.withPipe_keys (x : PipePart) : (s.withPipe x).keys = s.keys := rfl
@[simp] theorem State.withPipe_pwr (x : PipePart) : (s.withPipe x).pwr = s.pwr := rfl
@[simp] theorem State.withPipe_slip (x : PipePart) : (s.withPipe x).slip = s.slip := rfl
@[simp] theorem State.withPipe_jtag (x : PipePart) : (s.withPipe x).jtag = s.jtag := rfl
@[simp] theorem State.withPipe_freeCtr (x : PipePart) : (s.withPipe x).freeCtr = s.freeCtr := rfl
@[simp] theorem State.withPipe_pending (x : PipePart) : (s.withPipe x).pending = s.pending := rfl

/-! ### `withRtc` -/

@[simp] theorem State.withRtc_regs (x : Rtc) : (s.withRtc x).regs = s.regs := rfl
@[simp] theorem State.withRtc_phase (x : Rtc) : (s.withRtc x).phase = s.phase := rfl
@[simp] theorem State.withRtc_power (x : Rtc) : (s.withRtc x).power = s.power := rfl
@[simp] theorem State.withRtc_pfail (x : Rtc) : (s.withRtc x).pfail = s.pfail := rfl
@[simp] theorem State.withRtc_tide (x : Rtc) : (s.withRtc x).tide = s.tide := rfl
@[simp] theorem State.withRtc_mains (x : Rtc) : (s.withRtc x).mains = s.mains := rfl
@[simp] theorem State.withRtc_hm (x : Rtc) : (s.withRtc x).hm = s.hm := rfl
@[simp] theorem State.withRtc_klp (x : Rtc) : (s.withRtc x).klp = s.klp := rfl
@[simp] theorem State.withRtc_nv (x : Rtc) : (s.withRtc x).nv = s.nv := rfl
@[simp] theorem State.withRtc_log (x : Rtc) : (s.withRtc x).log = s.log := rfl
@[simp] theorem State.withRtc_rtc (x : Rtc) : (s.withRtc x).rtc = x := rfl
@[simp] theorem State.withRtc_bus (x : Rtc) : (s.withRtc x).bus = s.bus := rfl
@[simp] theorem State.withRtc_berth (x : Rtc) : (s.withRtc x).berth = s.berth := rfl
@[simp] theorem State.withRtc_loop (x : Rtc) : (s.withRtc x).loop = s.loop := rfl
@[simp] theorem State.withRtc_act (x : Rtc) : (s.withRtc x).act = s.act := rfl
@[simp] theorem State.withRtc_sens (x : Rtc) : (s.withRtc x).sens = s.sens := rfl
@[simp] theorem State.withRtc_focal (x : Rtc) : (s.withRtc x).focal = s.focal := rfl
@[simp] theorem State.withRtc_pipe (x : Rtc) : (s.withRtc x).pipe = s.pipe := rfl
@[simp] theorem State.withRtc_cal (x : Rtc) : (s.withRtc x).cal = s.cal := rfl
@[simp] theorem State.withRtc_video (x : Rtc) : (s.withRtc x).video = s.video := rfl
@[simp] theorem State.withRtc_panel (x : Rtc) : (s.withRtc x).panel = s.panel := rfl
@[simp] theorem State.withRtc_keys (x : Rtc) : (s.withRtc x).keys = s.keys := rfl
@[simp] theorem State.withRtc_pwr (x : Rtc) : (s.withRtc x).pwr = s.pwr := rfl
@[simp] theorem State.withRtc_slip (x : Rtc) : (s.withRtc x).slip = s.slip := rfl
@[simp] theorem State.withRtc_jtag (x : Rtc) : (s.withRtc x).jtag = s.jtag := rfl
@[simp] theorem State.withRtc_freeCtr (x : Rtc) : (s.withRtc x).freeCtr = s.freeCtr := rfl
@[simp] theorem State.withRtc_pending (x : Rtc) : (s.withRtc x).pending = s.pending := rfl

/-! ### `withPwr` -/

@[simp] theorem State.withPwr_regs (x : PwrPart) : (s.withPwr x).regs = s.regs := rfl
@[simp] theorem State.withPwr_phase (x : PwrPart) : (s.withPwr x).phase = s.phase := rfl
@[simp] theorem State.withPwr_power (x : PwrPart) : (s.withPwr x).power = s.power := rfl
@[simp] theorem State.withPwr_pfail (x : PwrPart) : (s.withPwr x).pfail = s.pfail := rfl
@[simp] theorem State.withPwr_tide (x : PwrPart) : (s.withPwr x).tide = s.tide := rfl
@[simp] theorem State.withPwr_mains (x : PwrPart) : (s.withPwr x).mains = s.mains := rfl
@[simp] theorem State.withPwr_hm (x : PwrPart) : (s.withPwr x).hm = s.hm := rfl
@[simp] theorem State.withPwr_klp (x : PwrPart) : (s.withPwr x).klp = s.klp := rfl
@[simp] theorem State.withPwr_nv (x : PwrPart) : (s.withPwr x).nv = s.nv := rfl
@[simp] theorem State.withPwr_log (x : PwrPart) : (s.withPwr x).log = s.log := rfl
@[simp] theorem State.withPwr_rtc (x : PwrPart) : (s.withPwr x).rtc = s.rtc := rfl
@[simp] theorem State.withPwr_bus (x : PwrPart) : (s.withPwr x).bus = s.bus := rfl
@[simp] theorem State.withPwr_berth (x : PwrPart) : (s.withPwr x).berth = s.berth := rfl
@[simp] theorem State.withPwr_loop (x : PwrPart) : (s.withPwr x).loop = s.loop := rfl
@[simp] theorem State.withPwr_act (x : PwrPart) : (s.withPwr x).act = s.act := rfl
@[simp] theorem State.withPwr_sens (x : PwrPart) : (s.withPwr x).sens = s.sens := rfl
@[simp] theorem State.withPwr_focal (x : PwrPart) : (s.withPwr x).focal = s.focal := rfl
@[simp] theorem State.withPwr_pipe (x : PwrPart) : (s.withPwr x).pipe = s.pipe := rfl
@[simp] theorem State.withPwr_cal (x : PwrPart) : (s.withPwr x).cal = s.cal := rfl
@[simp] theorem State.withPwr_video (x : PwrPart) : (s.withPwr x).video = s.video := rfl
@[simp] theorem State.withPwr_panel (x : PwrPart) : (s.withPwr x).panel = s.panel := rfl
@[simp] theorem State.withPwr_keys (x : PwrPart) : (s.withPwr x).keys = s.keys := rfl
@[simp] theorem State.withPwr_pwr (x : PwrPart) : (s.withPwr x).pwr = x := rfl
@[simp] theorem State.withPwr_slip (x : PwrPart) : (s.withPwr x).slip = s.slip := rfl
@[simp] theorem State.withPwr_jtag (x : PwrPart) : (s.withPwr x).jtag = s.jtag := rfl
@[simp] theorem State.withPwr_freeCtr (x : PwrPart) : (s.withPwr x).freeCtr = s.freeCtr := rfl
@[simp] theorem State.withPwr_pending (x : PwrPart) : (s.withPwr x).pending = s.pending := rfl

/-! ### `withSens` -/

@[simp] theorem State.withSens_regs (x : SensPart) : (s.withSens x).regs = s.regs := rfl
@[simp] theorem State.withSens_phase (x : SensPart) : (s.withSens x).phase = s.phase := rfl
@[simp] theorem State.withSens_power (x : SensPart) : (s.withSens x).power = s.power := rfl
@[simp] theorem State.withSens_pfail (x : SensPart) : (s.withSens x).pfail = s.pfail := rfl
@[simp] theorem State.withSens_tide (x : SensPart) : (s.withSens x).tide = s.tide := rfl
@[simp] theorem State.withSens_mains (x : SensPart) : (s.withSens x).mains = s.mains := rfl
@[simp] theorem State.withSens_hm (x : SensPart) : (s.withSens x).hm = s.hm := rfl
@[simp] theorem State.withSens_klp (x : SensPart) : (s.withSens x).klp = s.klp := rfl
@[simp] theorem State.withSens_nv (x : SensPart) : (s.withSens x).nv = s.nv := rfl
@[simp] theorem State.withSens_log (x : SensPart) : (s.withSens x).log = s.log := rfl
@[simp] theorem State.withSens_rtc (x : SensPart) : (s.withSens x).rtc = s.rtc := rfl
@[simp] theorem State.withSens_bus (x : SensPart) : (s.withSens x).bus = s.bus := rfl
@[simp] theorem State.withSens_berth (x : SensPart) : (s.withSens x).berth = s.berth := rfl
@[simp] theorem State.withSens_loop (x : SensPart) : (s.withSens x).loop = s.loop := rfl
@[simp] theorem State.withSens_act (x : SensPart) : (s.withSens x).act = s.act := rfl
@[simp] theorem State.withSens_sens (x : SensPart) : (s.withSens x).sens = x := rfl
@[simp] theorem State.withSens_focal (x : SensPart) : (s.withSens x).focal = s.focal := rfl
@[simp] theorem State.withSens_pipe (x : SensPart) : (s.withSens x).pipe = s.pipe := rfl
@[simp] theorem State.withSens_cal (x : SensPart) : (s.withSens x).cal = s.cal := rfl
@[simp] theorem State.withSens_video (x : SensPart) : (s.withSens x).video = s.video := rfl
@[simp] theorem State.withSens_panel (x : SensPart) : (s.withSens x).panel = s.panel := rfl
@[simp] theorem State.withSens_keys (x : SensPart) : (s.withSens x).keys = s.keys := rfl
@[simp] theorem State.withSens_pwr (x : SensPart) : (s.withSens x).pwr = s.pwr := rfl
@[simp] theorem State.withSens_slip (x : SensPart) : (s.withSens x).slip = s.slip := rfl
@[simp] theorem State.withSens_jtag (x : SensPart) : (s.withSens x).jtag = s.jtag := rfl
@[simp] theorem State.withSens_freeCtr (x : SensPart) : (s.withSens x).freeCtr = s.freeCtr := rfl
@[simp] theorem State.withSens_pending (x : SensPart) : (s.withSens x).pending = s.pending := rfl

/-! ### `withTide` -/

@[simp] theorem State.withTide_regs (x : Tide) : (s.withTide x).regs = s.regs := rfl
@[simp] theorem State.withTide_phase (x : Tide) : (s.withTide x).phase = s.phase := rfl
@[simp] theorem State.withTide_power (x : Tide) : (s.withTide x).power = s.power := rfl
@[simp] theorem State.withTide_pfail (x : Tide) : (s.withTide x).pfail = s.pfail := rfl
@[simp] theorem State.withTide_tide (x : Tide) : (s.withTide x).tide = x := rfl
@[simp] theorem State.withTide_mains (x : Tide) : (s.withTide x).mains = s.mains := rfl
@[simp] theorem State.withTide_hm (x : Tide) : (s.withTide x).hm = s.hm := rfl
@[simp] theorem State.withTide_klp (x : Tide) : (s.withTide x).klp = s.klp := rfl
@[simp] theorem State.withTide_nv (x : Tide) : (s.withTide x).nv = s.nv := rfl
@[simp] theorem State.withTide_log (x : Tide) : (s.withTide x).log = s.log := rfl
@[simp] theorem State.withTide_rtc (x : Tide) : (s.withTide x).rtc = s.rtc := rfl
@[simp] theorem State.withTide_bus (x : Tide) : (s.withTide x).bus = s.bus := rfl
@[simp] theorem State.withTide_berth (x : Tide) : (s.withTide x).berth = s.berth := rfl
@[simp] theorem State.withTide_loop (x : Tide) : (s.withTide x).loop = s.loop := rfl
@[simp] theorem State.withTide_act (x : Tide) : (s.withTide x).act = s.act := rfl
@[simp] theorem State.withTide_sens (x : Tide) : (s.withTide x).sens = s.sens := rfl
@[simp] theorem State.withTide_focal (x : Tide) : (s.withTide x).focal = s.focal := rfl
@[simp] theorem State.withTide_pipe (x : Tide) : (s.withTide x).pipe = s.pipe := rfl
@[simp] theorem State.withTide_cal (x : Tide) : (s.withTide x).cal = s.cal := rfl
@[simp] theorem State.withTide_video (x : Tide) : (s.withTide x).video = s.video := rfl
@[simp] theorem State.withTide_panel (x : Tide) : (s.withTide x).panel = s.panel := rfl
@[simp] theorem State.withTide_keys (x : Tide) : (s.withTide x).keys = s.keys := rfl
@[simp] theorem State.withTide_pwr (x : Tide) : (s.withTide x).pwr = s.pwr := rfl
@[simp] theorem State.withTide_slip (x : Tide) : (s.withTide x).slip = s.slip := rfl
@[simp] theorem State.withTide_jtag (x : Tide) : (s.withTide x).jtag = s.jtag := rfl
@[simp] theorem State.withTide_freeCtr (x : Tide) : (s.withTide x).freeCtr = s.freeCtr := rfl
@[simp] theorem State.withTide_pending (x : Tide) : (s.withTide x).pending = s.pending := rfl

/-! ### `withMains` -/

@[simp] theorem State.withMains_regs (x : Mains) : (s.withMains x).regs = s.regs := rfl
@[simp] theorem State.withMains_phase (x : Mains) : (s.withMains x).phase = s.phase := rfl
@[simp] theorem State.withMains_power (x : Mains) : (s.withMains x).power = s.power := rfl
@[simp] theorem State.withMains_pfail (x : Mains) : (s.withMains x).pfail = s.pfail := rfl
@[simp] theorem State.withMains_tide (x : Mains) : (s.withMains x).tide = s.tide := rfl
@[simp] theorem State.withMains_mains (x : Mains) : (s.withMains x).mains = x := rfl
@[simp] theorem State.withMains_hm (x : Mains) : (s.withMains x).hm = s.hm := rfl
@[simp] theorem State.withMains_klp (x : Mains) : (s.withMains x).klp = s.klp := rfl
@[simp] theorem State.withMains_nv (x : Mains) : (s.withMains x).nv = s.nv := rfl
@[simp] theorem State.withMains_log (x : Mains) : (s.withMains x).log = s.log := rfl
@[simp] theorem State.withMains_rtc (x : Mains) : (s.withMains x).rtc = s.rtc := rfl
@[simp] theorem State.withMains_bus (x : Mains) : (s.withMains x).bus = s.bus := rfl
@[simp] theorem State.withMains_berth (x : Mains) : (s.withMains x).berth = s.berth := rfl
@[simp] theorem State.withMains_loop (x : Mains) : (s.withMains x).loop = s.loop := rfl
@[simp] theorem State.withMains_act (x : Mains) : (s.withMains x).act = s.act := rfl
@[simp] theorem State.withMains_sens (x : Mains) : (s.withMains x).sens = s.sens := rfl
@[simp] theorem State.withMains_focal (x : Mains) : (s.withMains x).focal = s.focal := rfl
@[simp] theorem State.withMains_pipe (x : Mains) : (s.withMains x).pipe = s.pipe := rfl
@[simp] theorem State.withMains_cal (x : Mains) : (s.withMains x).cal = s.cal := rfl
@[simp] theorem State.withMains_video (x : Mains) : (s.withMains x).video = s.video := rfl
@[simp] theorem State.withMains_panel (x : Mains) : (s.withMains x).panel = s.panel := rfl
@[simp] theorem State.withMains_keys (x : Mains) : (s.withMains x).keys = s.keys := rfl
@[simp] theorem State.withMains_pwr (x : Mains) : (s.withMains x).pwr = s.pwr := rfl
@[simp] theorem State.withMains_slip (x : Mains) : (s.withMains x).slip = s.slip := rfl
@[simp] theorem State.withMains_jtag (x : Mains) : (s.withMains x).jtag = s.jtag := rfl
@[simp] theorem State.withMains_freeCtr (x : Mains) : (s.withMains x).freeCtr = s.freeCtr := rfl
@[simp] theorem State.withMains_pending (x : Mains) : (s.withMains x).pending = s.pending := rfl

/-! ### `withVideo` -/

@[simp] theorem State.withVideo_regs (x : VideoPart) : (s.withVideo x).regs = s.regs := rfl
@[simp] theorem State.withVideo_phase (x : VideoPart) : (s.withVideo x).phase = s.phase := rfl
@[simp] theorem State.withVideo_power (x : VideoPart) : (s.withVideo x).power = s.power := rfl
@[simp] theorem State.withVideo_pfail (x : VideoPart) : (s.withVideo x).pfail = s.pfail := rfl
@[simp] theorem State.withVideo_tide (x : VideoPart) : (s.withVideo x).tide = s.tide := rfl
@[simp] theorem State.withVideo_mains (x : VideoPart) : (s.withVideo x).mains = s.mains := rfl
@[simp] theorem State.withVideo_hm (x : VideoPart) : (s.withVideo x).hm = s.hm := rfl
@[simp] theorem State.withVideo_klp (x : VideoPart) : (s.withVideo x).klp = s.klp := rfl
@[simp] theorem State.withVideo_nv (x : VideoPart) : (s.withVideo x).nv = s.nv := rfl
@[simp] theorem State.withVideo_log (x : VideoPart) : (s.withVideo x).log = s.log := rfl
@[simp] theorem State.withVideo_rtc (x : VideoPart) : (s.withVideo x).rtc = s.rtc := rfl
@[simp] theorem State.withVideo_bus (x : VideoPart) : (s.withVideo x).bus = s.bus := rfl
@[simp] theorem State.withVideo_berth (x : VideoPart) : (s.withVideo x).berth = s.berth := rfl
@[simp] theorem State.withVideo_loop (x : VideoPart) : (s.withVideo x).loop = s.loop := rfl
@[simp] theorem State.withVideo_act (x : VideoPart) : (s.withVideo x).act = s.act := rfl
@[simp] theorem State.withVideo_sens (x : VideoPart) : (s.withVideo x).sens = s.sens := rfl
@[simp] theorem State.withVideo_focal (x : VideoPart) : (s.withVideo x).focal = s.focal := rfl
@[simp] theorem State.withVideo_pipe (x : VideoPart) : (s.withVideo x).pipe = s.pipe := rfl
@[simp] theorem State.withVideo_cal (x : VideoPart) : (s.withVideo x).cal = s.cal := rfl
@[simp] theorem State.withVideo_video (x : VideoPart) : (s.withVideo x).video = x := rfl
@[simp] theorem State.withVideo_panel (x : VideoPart) : (s.withVideo x).panel = s.panel := rfl
@[simp] theorem State.withVideo_keys (x : VideoPart) : (s.withVideo x).keys = s.keys := rfl
@[simp] theorem State.withVideo_pwr (x : VideoPart) : (s.withVideo x).pwr = s.pwr := rfl
@[simp] theorem State.withVideo_slip (x : VideoPart) : (s.withVideo x).slip = s.slip := rfl
@[simp] theorem State.withVideo_jtag (x : VideoPart) : (s.withVideo x).jtag = s.jtag := rfl
@[simp] theorem State.withVideo_freeCtr (x : VideoPart) : (s.withVideo x).freeCtr = s.freeCtr := rfl
@[simp] theorem State.withVideo_pending (x : VideoPart) : (s.withVideo x).pending = s.pending := rfl

/-! ### Ledger entries -/

/-- An entry read after a write of an entry (R11): the value cut to its width at its own key, every other entry as before. -/
theorem State.reg_setReg (k v j : Nat) : (s.setReg k v).reg j = if j = k then v % 2 ^ keyBits k else s.reg j := by
  unfold State.reg
  rw [State.setReg_regs, smapGet_set]

theorem State.reg_setReg_self (k v : Nat) : (s.setReg k v).reg k = v % 2 ^ keyBits k := by simp [State.reg_setReg]

theorem State.reg_setReg_ne {k v j : Nat} (h : j ≠ k) : (s.setReg k v).reg j = s.reg j := by simp [State.reg_setReg, h]

/-- An entry depends on the register map alone. -/
theorem State.reg_congr {s t : State} (h : t.regs = s.regs) (k : Nat) : t.reg k = s.reg k := by unfold State.reg; rw [h]

end Sys2Proof.Machine
end

