-- ==== Sys2Proof/Laws/Frames.lean ====
section
/-!
SUPPORT. How a state that differs from an earlier one only in certain pieces goes on doing so: one lemma per way a meaning builds
its next state.
-/
namespace Sys2Proof.Machine

variable {l l' : List Piece} {ks ks' : List Nat} {s0 s t : State}

/-- The pieces and keys of one frame are among those of another. -/
def frameSub (l' : List Piece) (ks' : List Nat) (l : List Piece) (ks : List Nat) : Bool :=
  l'.all (fun p => l.contains p) && (l.contains .regs || ks'.all fun k => ks.contains k)

/-- A key that a frame lets change. -/
def frameKey (l : List Piece) (ks : List Nat) (k : Nat) : Bool := l.contains .regs || ks.contains k

theorem frameSub_of_subset (hl : ∀ p, p ∈ l' → p ∈ l) (hk : ∀ k, k ∈ ks' → k ∈ ks) : frameSub l' ks' l ks = true := by
  unfold frameSub
  simp only [Bool.and_eq_true, Bool.or_eq_true, List.all_eq_true]
  exact ⟨fun p h => by simpa using hl p h, .inr fun k h => by simpa using hk k h⟩

theorem frameSub_mem (h : frameSub l' ks' l ks = true) {p : Piece} (hp : l'.contains p = true) : l.contains p = true := by
  unfold frameSub at h
  simp only [Bool.and_eq_true, List.all_eq_true] at h
  exact h.1 p (by simpa using hp)

theorem frameSub_key (h : frameSub l' ks' l ks = true) {k : Nat} (hk : frameKey l' ks' k = true) : frameKey l ks k = true := by
  unfold frameKey at *
  by_cases hr : l'.contains .regs = true
  · rw [frameSub_mem h hr]; rfl
  · have h2 := h
    unfold frameSub at h2
    simp only [Bool.and_eq_true, Bool.or_eq_true, List.all_eq_true] at h2
    simp only [Bool.or_eq_true] at hk ⊢
    rcases hk with hk | hk
    · exact absurd hk hr
    · rcases h2.2 with h3 | h3
      · exact .inl h3
      · exact .inr (h3 k (by simpa using hk))

theorem frameSub_trans {l'' : List Piece} {ks'' : List Nat} (h1 : frameSub l'' ks'' l' ks' = true)
    (h2 : frameSub l' ks' l ks = true) : frameSub l'' ks'' l ks = true := by
  have hk : ∀ k, frameKey l'' ks'' k = true → frameKey l ks k = true := fun k h => frameSub_key h2 (frameSub_key h1 h)
  unfold frameSub
  simp only [Bool.and_eq_true, Bool.or_eq_true, List.all_eq_true]
  refine ⟨fun p hp => frameSub_mem h2 (frameSub_mem h1 (by simpa using hp)), ?_⟩
  by_cases hr : l.contains .regs = true
  · exact .inl hr
  · refine .inr fun k hm => ?_
    have := hk k (by unfold frameKey; simp [hm])
    unfold frameKey at this
    simp only [Bool.or_eq_true] at this
    exact this.resolve_left hr

theorem OnlyIn.refl : OnlyIn l ks s s := ⟨fun p _ _ => by cases p <;> first | rfl | exact fun _ => rfl, fun _ _ _ => rfl, rfl⟩

/-- A state written out field by field over the registers and the queue of the one before. -/
theorem OnlyIn.of_mk {phase : Phase} {power : Power} {pfail : Bool} {tide : Tide} {mains : Mains} {hm : Hm} {klp : Klp} {nv : Nv} {log : Log} {rtc : Rtc} {bus : BusPart} {berth : BerthPart} {loop : LoopPart} {act : ActPart} {sens : SensPart} {focal : FocalPart} {pipe : PipePart} {cal : CalPart} {video : VideoPart} {panel : PanelPart} {keys : KeyPart} {pwr : PwrPart} {slip : SlipPart} {jtag : JtagPart} {freeCtr : Nat}
    (h : OnlyIn l ks s0 s) (e1 : l.contains .phase = true ∨ phase = s.phase) (e2 : l.contains .power = true ∨ power = s.power)
    (e3 : l.contains .pfail = true ∨ pfail = s.pfail) (e4 : l.contains .tide = true ∨ tide = s.tide)
    (e5 : l.contains .mains = true ∨ mains = s.mains) (e6 : l.contains .hm = true ∨ hm = s.hm)
    (e7 : l.contains .klp = true ∨ klp = s.klp) (e8 : l.contains .nv = true ∨ nv = s.nv)
    (e9 : l.contains .window = true ∨ nv.win = s.nv.win) (e10 : l.contains .log = true ∨ log = s.log)
    (e11 : l.contains .rtc = true ∨ rtc = s.rtc) (e12 : l.contains .bus = true ∨ bus = s.bus)
    (e13 : l.contains .berth = true ∨ berth = s.berth) (e14 : l.contains .loop = true ∨ loop = s.loop)
    (e15 : l.contains .act = true ∨ act = s.act) (e16 : l.contains .sens = true ∨ sens = s.sens)
    (e17 : l.contains .focal = true ∨ focal = s.focal) (e18 : l.contains .pipe = true ∨ pipe = s.pipe)
    (e19 : l.contains .cal = true ∨ cal = s.cal) (e20 : l.contains .video = true ∨ video = s.video)
    (e21 : l.contains .panel = true ∨ panel = s.panel) (e22 : l.contains .keys = true ∨ keys = s.keys)
    (e23 : l.contains .pwr = true ∨ pwr = s.pwr) (e24 : l.contains .slip = true ∨ slip = s.slip)
    (e25 : l.contains .jtag = true ∨ jtag = s.jtag) (e26 : l.contains .freeCtr = true ∨ freeCtr = s.freeCtr) :
    OnlyIn l ks s0 (State.mk s.regs phase power pfail tide mains hm klp nv log rtc bus berth loop act sens focal pipe cal video panel keys pwr slip jtag freeCtr s.pending) := by
  have go : ∀ {α : Type} {p : Piece} {a b c : α}, (l.contains p = true ∨ a = b) → p ∉ l → b = c → a = c := by
    intro α p a b c e hp h
    rcases e with e | e
    · exact absurd (by simpa using e) hp
    · rw [e, h]
  refine ⟨fun p hr hp => ?_, fun hr k hk => h.entries hr k hk, h.pending⟩
  have hs := h.pieces p hr hp
  cases p with
  | regs => exact absurd rfl hr
  | phase => exact go e1 hp hs
  | power => exact go e2 hp hs
  | pfail => exact go e3 hp hs
  | tide => exact go e4 hp hs
  | mains => exact go e5 hp hs
  | hm => exact go e6 hp hs
  | klp => exact go e7 hp hs
  | nv =>
    have e : nv = s.nv := go e8 hp rfl
    show { nv with win := s0.nv.win } = s0.nv
    rw [e]; exact hs
  | window => exact go e9 hp hs
  | log => exact go e10 hp hs
  | rtc => exact go e11 hp hs
  | bus => exact go e12 hp hs
  | berth => exact go e13 hp hs
  | loop => exact go e14 hp hs
  | act => exact go e15 hp hs
  | sens => exact go e16 hp hs
  | focal => exact go e17 hp hs
  | pipe => exact go e18 hp hs
  | cal => exact go e19 hp hs
  | video => exact go e20 hp hs
  | panel => exact go e21 hp hs
  | keys => exact go e22 hp hs
  | pwr => exact go e23 hp hs
  | slip => exact go e24 hp hs
  | jtag => exact go e25 hp hs
  | freeCtr => exact go e26 hp hs

/-- The register map replaced, where any entry may change. -/
theorem OnlyIn.setRegs {m : SMap} (hl : l.contains .regs = true) (h : OnlyIn l ks s0 s) : OnlyIn l ks s0 { s with regs := m } :=
  ⟨fun p hr hp => by have := h.pieces p hr hp; cases p <;> first | exact this | exact absurd rfl hr,
    fun hr => absurd (by simpa using hl) hr, h.pending⟩

/-- One entry set. -/
theorem OnlyIn.setReg (k v : Nat) (hk : frameKey l ks k = true) (h : OnlyIn l ks s0 s) : OnlyIn l ks s0 (s.setReg k v) := by
  refine ⟨fun p hr hp => ?_, fun hr j hj => ?_, h.pending⟩
  · have := h.pieces p hr hp
    cases p <;> first | exact this | exact absurd rfl hr
  · have hjk : j ≠ k := by
      intro e
      unfold frameKey at hk
      simp only [Bool.or_eq_true, List.contains_eq_mem, decide_eq_true_eq] at hk
      rcases hk with hk | hk
      · exact hr hk
      · exact hj (e ▸ hk)
    rw [State.reg_setReg_ne _ hjk]
    exact h.entries hr j hj

/-- A frame among another's. -/
theorem OnlyIn.mono (hl : frameSub l' ks' l ks = true) (h : OnlyIn l' ks' s t) : OnlyIn l ks s t := by
  refine ⟨fun p hr hp => h.pieces p hr fun hm => hp ?_, fun hr k hk => ?_, h.pending⟩
  · simpa using frameSub_mem hl (by simpa using hm)
  · refine h.entries (fun hm => hr ?_) k fun hm => ?_
    · simpa using frameSub_mem hl (by simpa using hm)
    · have := frameSub_key hl (k := k) (by unfold frameKey; simp [hm])
      unfold frameKey at this
      simp only [Bool.or_eq_true, List.contains_eq_mem, decide_eq_true_eq] at this
      exact this.elim hr hk

theorem OnlyIn.trans (h1 : OnlyIn l ks s0 s) (h2 : OnlyIn l ks s t) : OnlyIn l ks s0 t := by
  refine ⟨fun p hr hp => ?_, fun hr k hk => (h2.entries hr k hk).trans (h1.entries hr k hk), h2.pending.trans h1.pending⟩
  have a := h1.pieces p hr hp
  have b := h2.pieces p hr hp
  cases p <;> first | exact absurd rfl hr | exact Eq.trans b a | skip
  have b' : { t.nv with win := s.nv.win } = s.nv := b
  have a' : { s.nv with win := s0.nv.win } = s0.nv := a
  show { t.nv with win := s0.nv.win } = s0.nv
  exact (congrArg (fun n : Nv => { n with win := s0.nv.win }) b').trans a'

/-! ### Control -/

theorem OnlyIn.ite {c : Prop} [Decidable c] {a b : State} (ha : OnlyIn l ks s0 a) (hb : OnlyIn l ks s0 b) :
    OnlyIn l ks s0 (if c then a else b) := by
  split <;> assumption

theorem OnlyIn.foldl {α : Type} {xs : List α} {f : State → α → State} (h : OnlyIn l ks s0 s)
    (hf : ∀ t x, OnlyIn l ks s0 t → OnlyIn l ks s0 (f t x)) : OnlyIn l ks s0 (xs.foldl f s) := by
  induction xs generalizing s with
  | nil => exact h
  | cons x xs ih => exact ih (hf s x h)

theorem OnlyIn.of_pair {α : Type} {p : α × State} {a : α} (h : OnlyIn l ks s0 p.2) (e : p = (a, t)) : OnlyIn l ks s0 t := by
  subst e; exact h

theorem OnlyIn.of_triple {α β : Type} {p : α × β × State} {a : α} {b : β} (h : OnlyIn l ks s0 p.2.2) (e : p = (a, b, t)) :
    OnlyIn l ks s0 t := by
  subst e; exact h

end Sys2Proof.Machine
end

