-- ==== Sys2Proof/Laws/FramesOps.lean ====
section
/-!
SUPPORT. What the operations of Machine/Ops.lean change at most.
-/
namespace Sys2Proof.Machine

variable {pl : List Piece} {pk : List Nat} {os : State}

theorem frameKey_of {l' : List Piece} {ks' : List Nat} (hl : frameSub l' ks' pl pk = true) {k : Nat} (hk : frameKey l' ks' k = true) :
    frameKey pl pk k = true := frameSub_key hl hk

theorem frameKey_regs {k : Nat} (h : pl.contains .regs = true) : frameKey pl pk k = true := by unfold frameKey; rw [h]; rfl

theorem setReg_only (s : State) (k v : Nat) (hk : frameKey pl pk k = true) (hs : OnlyIn pl pk os s) :
    OnlyIn pl pk os (State.setReg s k v) := OnlyIn.setReg k v hk hs

theorem setRegI_only (s : State) (k : Nat) (i : Int) (hk : frameKey pl pk k = true) (hs : OnlyIn pl pk os s) :
    OnlyIn pl pk os (State.setRegI s k i) := by
  unfold State.setRegI
  repeat' (with_reducible first
    | assumption | intro _ | exact frameSub_trans (by decide) hl | exact frameKey_of hl (by decide) | exact hk
    | apply setReg_only | dsimp +zetaDelta only)

theorem putBit_only (s : State) (k i : Nat) (b : Bool) (hk : frameKey pl pk k = true) (hs : OnlyIn pl pk os s) :
    OnlyIn pl pk os (State.putBit s k i b) := by
  unfold State.putBit
  repeat' (with_reducible first
    | assumption | intro _ | exact frameSub_trans (by decide) hl | exact frameKey_of hl (by decide) | exact hk
    | apply setReg_only | dsimp +zetaDelta only)

theorem incSat_only (s : State) (k : Nat) (hk : frameKey pl pk k = true) (hs : OnlyIn pl pk os s) :
    OnlyIn pl pk os (State.incSat s k) := by
  unfold State.incSat
  repeat' (with_reducible first
    | assumption | intro _ | exact frameSub_trans (by decide) hl | exact frameKey_of hl (by decide) | exact hk
    | apply setReg_only | dsimp +zetaDelta only)

theorem addSat_only (s : State) (k n : Nat) (hk : frameKey pl pk k = true) (hs : OnlyIn pl pk os s) :
    OnlyIn pl pk os (State.addSat s k n) := by
  unfold State.addSat
  repeat' (with_reducible first
    | assumption | intro _ | exact frameSub_trans (by decide) hl | exact frameKey_of hl (by decide) | exact hk
    | apply setReg_only | dsimp +zetaDelta only)

theorem tickFree_only (s : State) (hl : frameSub [.freeCtr] [] pl pk = true) (hs : OnlyIn pl pk os s) :
    OnlyIn pl pk os (State.tickFree s) := by
  unfold State.tickFree
  repeat' (with_reducible first
    | assumption | intro _ | exact frameSub_trans (by decide) hl | exact frameKey_of hl (by decide) | exact hk | extract_lets
    | exact .inl (frameSub_mem hl (by decide)) | exact .inr rfl | ((conv => arg 4; arg 27); apply OnlyIn.of_mk)
    | dsimp +zetaDelta only)

theorem countUp_only (s : State) (k : Nat) (hl : frameSub [.freeCtr] [] pl pk = true) (hk : frameKey pl pk k = true) (hs : OnlyIn pl pk os s) :
    OnlyIn pl pk os (State.countUp s k) := by
  unfold State.countUp
  repeat' (with_reducible first
    | assumption | intro _ | exact frameSub_trans (by decide) hl | exact frameKey_of hl (by decide) | exact hk
    | apply setReg_only | apply tickFree_only | apply OnlyIn.ite | split | dsimp +zetaDelta only)

theorem raiseIrq_only (s : State) (bit : Nat) (hl : frameSub [.klp] [] pl pk = true) (hs : OnlyIn pl pk os s) :
    OnlyIn pl pk os (State.raiseIrq s bit) := by
  unfold State.raiseIrq
  repeat' (with_reducible first
    | assumption | intro _ | exact frameSub_trans (by decide) hl | exact frameKey_of hl (by decide) | exact hk | extract_lets
    | exact .inl (frameSub_mem hl (by decide)) | exact .inr rfl | ((conv => arg 4; arg 27); apply OnlyIn.of_mk)
    | dsimp +zetaDelta only)

theorem pushLog_only (s : State) (typ : Nat) (payload : List Nat) (hl : frameSub [.log] [] pl pk = true) (hs : OnlyIn pl pk os s) :
    OnlyIn pl pk os (State.pushLog s typ payload) := by
  unfold State.pushLog
  repeat' (with_reducible first
    | assumption | intro _ | exact frameSub_trans (by decide) hl | exact frameKey_of hl (by decide) | exact hk
    | apply OnlyIn.ite | extract_lets | split | exact .inl (frameSub_mem hl (by decide)) | exact .inr rfl
    | ((conv => arg 4; arg 27); apply OnlyIn.of_mk) | dsimp +zetaDelta only)

theorem Nv.append_window (n : Nv) (key : Nat) (value : List Nat) : (n.append key value).1.win = n.win := by
  unfold Nv.append
  extract_lets a size ok r
  split
  · rfl
  · unfold Nv.setArea; split <;> rfl

theorem storeParam_only (s : State) (key : Nat) (value : List Nat) (hl : frameSub [.nv, .log] [] pl pk = true)
    (hs : OnlyIn pl pk os s) : OnlyIn pl pk os (State.storeParam s key value).2 := by
  unfold State.storeParam
  extract_lets first second n start s1
  have e : n.win = s.nv.win := by
    show second.1.win = _
    unfold second
    split
    · exact Nv.append_window _ _ _
    · rw [Nv.append_window, Nv.append_window]
  have h1 : OnlyIn pl pk os s1 := by
    have hw : { n with compacting := n.compacting || start : Nv }.win = s.nv.win := e
    repeat' (with_reducible first | exact hs | exact .inl (frameSub_mem hl (by decide)) | exact .inr hw | exact .inr rfl | apply OnlyIn.of_mk)
  clear_value s1
  split
  · exact h1
  · exact pushLog_only _ _ _ (frameSub_trans (by decide) hl) h1

theorem countTally_only (s : State) (key : Nat) (hl : frameSub [.nv] [] pl pk = true) (hs : OnlyIn pl pk os s) :
    OnlyIn pl pk os (State.countTally s key) := by
  unfold State.countTally
  repeat' (with_reducible first
    | assumption | intro _ | exact frameSub_trans (by decide) hl | exact frameKey_of hl (by decide) | exact hk
    | apply OnlyIn.ite | extract_lets | split | exact .inl (frameSub_mem hl (by decide)) | exact .inr rfl
    | ((conv => arg 4; arg 27); apply OnlyIn.of_mk) | dsimp +zetaDelta only)

end Sys2Proof.Machine
end

