-- ==== Sys2Proof/Laws/FramesKlpOps.lean ====
section
/-!
SUPPORT. What the operations of Machine/KlpOps.lean change at most.
-/
namespace Sys2Proof.Machine

variable {pl : List Piece} {pk : List Nat} {os : State}

theorem withKlp_only (s : State) (k : Klp) (hl : frameSub [.klp] [] pl pk = true) (hs : OnlyIn pl pk os s) :
    OnlyIn pl pk os (State.withKlp s k) := by
  unfold State.withKlp
  repeat' (with_reducible first
    | assumption | intro _ | exact frameSub_trans (by decide) hl | exact frameKey_of hl (by decide) | exact hk | extract_lets
    | exact .inl (frameSub_mem hl (by decide)) | exact .inr rfl | ((conv => arg 4; arg 27); apply OnlyIn.of_mk)
    | dsimp +zetaDelta only)

theorem touch_only (s : State) (id : Nat) (hl : frameSub [.klp] [] pl pk = true) (hs : OnlyIn pl pk os s) :
    OnlyIn pl pk os (State.touch s id) := by
  unfold State.touch
  repeat' (with_reducible first
    | assumption | intro _ | exact frameSub_trans (by decide) hl | exact frameKey_of hl (by decide) | exact hk
    | apply OnlyIn.ite | extract_lets | split | exact .inl (frameSub_mem hl (by decide)) | exact .inr rfl
    | ((conv => arg 4; arg 27); apply OnlyIn.of_mk) | dsimp +zetaDelta only)

theorem setLevel_only (s : State) (id level : Nat) (hl : frameSub [.klp] [] pl pk = true) (hs : OnlyIn pl pk os s) :
    OnlyIn pl pk os (State.setLevel s id level) := by
  unfold State.setLevel
  repeat' (with_reducible first
    | assumption | intro _ | exact frameSub_trans (by decide) hl | exact frameKey_of hl (by decide) | exact hk
    | apply OnlyIn.ite | extract_lets | split | exact .inl (frameSub_mem hl (by decide)) | exact .inr rfl
    | ((conv => arg 4; arg 27); apply OnlyIn.of_mk) | dsimp +zetaDelta only)

theorem deliver_only (s : State) (r : Resp) (hl : frameSub [.klp] [] pl pk = true) (hs : OnlyIn pl pk os s) :
    OnlyIn pl pk os (State.deliver s r) := by
  unfold State.deliver
  repeat' (with_reducible first
    | assumption | intro _ | exact frameSub_trans (by decide) hl | exact frameKey_of hl (by decide) | exact hk
    | apply OnlyIn.ite | extract_lets | split | refine OnlyIn.of_pair ?_ (by assumption)
    | exact .inl (frameSub_mem hl (by decide)) | exact .inr rfl | ((conv => arg 4; arg 27); apply OnlyIn.of_mk)
    | dsimp +zetaDelta only)

theorem dequeue_only (s : State) (q : Request) (hl : frameSub [.klp] [] pl pk = true) (hs : OnlyIn pl pk os s) :
    OnlyIn pl pk os (State.dequeue s q) := by
  unfold State.dequeue
  repeat' (with_reducible first
    | assumption | intro _ | exact frameSub_trans (by decide) hl | exact frameKey_of hl (by decide) | exact hk | extract_lets
    | exact .inl (frameSub_mem hl (by decide)) | exact .inr rfl | ((conv => arg 4; arg 27); apply OnlyIn.of_mk)
    | dsimp +zetaDelta only)

theorem enqueueRequest_only (s : State) (q : Request) (hl : frameSub [.klp] [] pl pk = true) (hs : OnlyIn pl pk os s) :
    OnlyIn pl pk os (State.enqueueRequest s q) := by
  unfold State.enqueueRequest
  repeat' (with_reducible first
    | assumption | intro _ | exact frameSub_trans (by decide) hl | exact frameKey_of hl (by decide) | exact hk
    | apply OnlyIn.ite | extract_lets | split | refine OnlyIn.of_pair ?_ (by assumption)
    | exact .inl (frameSub_mem hl (by decide)) | exact .inr rfl | ((conv => arg 4; arg 27); apply OnlyIn.of_mk)
    | dsimp +zetaDelta only)

theorem keep_only (s : State) (q : Request) (r : Resp) (hl : frameSub [.klp] [] pl pk = true) (hs : OnlyIn pl pk os s) :
    OnlyIn pl pk os (State.keep s q r) := by
  unfold State.keep
  repeat' (with_reducible first
    | assumption | intro _ | exact frameSub_trans (by decide) hl | exact frameKey_of hl (by decide) | exact hk | extract_lets
    | exact .inl (frameSub_mem hl (by decide)) | exact .inr rfl | ((conv => arg 4; arg 27); apply OnlyIn.of_mk)
    | dsimp +zetaDelta only)

theorem answer_only (s : State) (q : Request) (st : Status) (data : List Nat) (hl : frameSub [.klp] [] pl pk = true) (hs : OnlyIn pl pk os s) :
    OnlyIn pl pk os (State.answer s q st data) := by
  unfold State.answer
  repeat' (with_reducible first
    | assumption | intro _ | exact frameSub_trans (by decide) hl | exact frameKey_of hl (by decide) | exact hk | apply keep_only
    | apply deliver_only | apply OnlyIn.ite | extract_lets | split | exact .inl (frameSub_mem hl (by decide)) | exact .inr rfl
    | ((conv => arg 4; arg 27); apply OnlyIn.of_mk) | dsimp +zetaDelta only)

theorem request_only (s : State) (q : Request) (pre : State → Option Status) (run : State → Status × List Nat × State) (hl : frameSub [.klp] [] pl pk = true) (hs : OnlyIn pl pk os s) (hrun : ∀ t, OnlyIn pl pk os t → OnlyIn pl pk os (run t).2.2) :
    OnlyIn pl pk os (State.request s q pre run) := by
  unfold State.request
  repeat' (with_reducible first
    | assumption | intro _ | exact frameSub_trans (by decide) hl | exact frameKey_of hl (by decide) | exact hk
    | apply dequeue_only | apply enqueueRequest_only | apply answer_only | apply deliver_only | apply touch_only
    | apply OnlyIn.ite | apply hpre | apply hrun | extract_lets | split | refine OnlyIn.of_pair ?_ (by assumption)
    | exact .inl (frameSub_mem hl (by decide)) | exact .inr rfl | ((conv => arg 4; arg 27); apply OnlyIn.of_mk)
    | dsimp +zetaDelta only)

theorem putEntry_only (s : State) (key v : Nat) (hl : frameSub [.nv, .log] [] pl pk = true) (hk : frameKey pl pk key = true) (hs : OnlyIn pl pk os s) :
    OnlyIn pl pk os (State.putEntry s key v).2 := by
  unfold State.putEntry
  repeat' (with_reducible first
    | assumption | intro _ | exact frameSub_trans (by decide) hl | exact frameKey_of hl (by decide) | exact hk
    | apply storeParam_only | apply setReg_only | apply OnlyIn.ite | extract_lets | split
    | refine OnlyIn.of_pair ?_ (by assumption) | exact .inl (frameSub_mem hl (by decide)) | exact .inr rfl
    | ((conv => arg 4; arg 27); apply OnlyIn.of_mk) | dsimp +zetaDelta only)

theorem andThen_only (r : Status × State) (f : State → State) (hr : OnlyIn pl pk os r.2) (hf : ∀ t, OnlyIn pl pk os t → OnlyIn pl pk os (f t)) :
    OnlyIn pl pk os (andThen r f).2 := by
  unfold andThen
  repeat' (with_reducible first
    | assumption | intro _ | exact frameSub_trans (by decide) hl | exact frameKey_of hl (by decide) | exact hk
    | apply OnlyIn.ite | apply hf | split | dsimp +zetaDelta only)

theorem plainRule_only (key : Nat) (s : State) (v : Nat) (hl : frameSub [.nv, .log] [] pl pk = true) (hk : frameKey pl pk key = true) (hs : OnlyIn pl pk os s) :
    OnlyIn pl pk os (plainRule key s v).2 := by
  unfold plainRule
  repeat' (with_reducible first
    | assumption | intro _ | exact frameSub_trans (by decide) hl | exact frameKey_of hl (by decide) | exact hk
    | apply putEntry_only | apply OnlyIn.ite | split | dsimp +zetaDelta only)

theorem ledgerWrite_only (s : State) (w : Wr) (key : Nat) (rule : State → Nat → Status × State) (hl : frameSub [.klp] [] pl pk = true) (hs : OnlyIn pl pk os s) (hrule : ∀ t v, OnlyIn pl pk os t → OnlyIn pl pk os (rule t v).2) :
    OnlyIn pl pk os (State.ledgerWrite s w key rule) := by
  unfold State.ledgerWrite
  repeat' (with_reducible first
    | assumption | intro _ | exact frameSub_trans (by decide) hl | exact frameKey_of hl (by decide) | exact hk
    | apply request_only | apply hrule | extract_lets | dsimp +zetaDelta only)

end Sys2Proof.Machine
end

