-- ==== Sys2Proof/Laws/FramesBusOps.lean ====
section
/-!
SUPPORT. What the operations of Machine/BusOps.lean change at most.
-/
namespace Sys2Proof.Machine

variable {pl : List Piece} {pk : List Nat} {os : State}

theorem setChan_only (s : State) (c : Bus) (x : Channel) (hl : frameSub [.bus] [] pl pk = true) (hs : OnlyIn pl pk os s) :
    OnlyIn pl pk os (State.setChan s c x) := by
  unfold State.setChan
  repeat' (with_reducible first
    | assumption | intro _ | exact frameSub_trans (by decide) hl | exact frameKey_of hl (by decide) | exact hk | extract_lets
    | exact .inl (frameSub_mem hl (by decide)) | exact .inr rfl | ((conv => arg 4; arg 27); apply OnlyIn.of_mk)
    | dsimp +zetaDelta only)

theorem enqueue_only (s : State) (c : Bus) (q : Nat) (f : TxFrame) (hl : frameSub [.bus] [] pl pk = true) (hs : OnlyIn pl pk os s) :
    OnlyIn pl pk os (State.enqueue s c q f).2 := by
  unfold State.enqueue
  repeat' (with_reducible first
    | assumption | intro _ | exact frameSub_trans (by decide) hl | exact frameKey_of hl (by decide) | exact hk
    | apply setChan_only | apply OnlyIn.ite | extract_lets | split | exact .inl (frameSub_mem hl (by decide)) | exact .inr rfl
    | ((conv => arg 4; arg 27); apply OnlyIn.of_mk) | dsimp +zetaDelta only)

theorem withBw_only (s : State) (b : Breakwater) (hl : frameSub [.bus] [] pl pk = true) (hs : OnlyIn pl pk os s) :
    OnlyIn pl pk os (State.withBw s b) := by
  unfold State.withBw
  repeat' (with_reducible first
    | assumption | intro _ | exact frameSub_trans (by decide) hl | exact frameKey_of hl (by decide) | exact hk | extract_lets
    | exact .inl (frameSub_mem hl (by decide)) | exact .inr rfl | ((conv => arg 4; arg 27); apply OnlyIn.of_mk)
    | dsimp +zetaDelta only)

theorem giveAlarm_only (s : State) (source : Nat) (f : CanFrame) (c : Bus) (hl : frameSub [.bus] [] pl pk = true) (hs : OnlyIn pl pk os s) :
    OnlyIn pl pk os (State.giveAlarm s source f c) := by
  unfold State.giveAlarm
  repeat' (with_reducible first
    | assumption | intro _ | exact frameSub_trans (by decide) hl | exact frameKey_of hl (by decide) | exact hk
    | apply enqueue_only | apply withBw_only | apply OnlyIn.ite | extract_lets | split
    | exact .inl (frameSub_mem hl (by decide)) | exact .inr rfl | ((conv => arg 4; arg 27); apply OnlyIn.of_mk)
    | dsimp +zetaDelta only)

theorem releaseFrame_only (s : State) (e : BwEvent) (suppressed summary : Bool) (hl : frameSub [.klp, .bus] [] pl pk = true) (hs : OnlyIn pl pk os s) :
    OnlyIn pl pk os (State.releaseFrame s e suppressed summary) := by
  unfold State.releaseFrame
  repeat' (with_reducible first
    | assumption | intro _ | exact frameSub_trans (by decide) hl | exact frameKey_of hl (by decide) | exact hk
    | apply withBw_only | apply giveAlarm_only | apply raiseIrq_only | apply OnlyIn.foldl | apply OnlyIn.ite | extract_lets
    | split | exact .inl (frameSub_mem hl (by decide)) | exact .inr rfl | ((conv => arg 4; arg 27); apply OnlyIn.of_mk)
    | dsimp +zetaDelta only)

theorem releaseSource_only (s : State) (e : BwEvent) (hl : frameSub [.klp, .bus] [] pl pk = true) (hs : OnlyIn pl pk os s) :
    OnlyIn pl pk os (State.releaseSource s e) := by
  unfold State.releaseSource
  repeat' (with_reducible first
    | assumption | intro _ | exact frameSub_trans (by decide) hl | exact frameKey_of hl (by decide) | exact hk
    | apply releaseFrame_only | apply withBw_only | extract_lets | exact .inl (frameSub_mem hl (by decide)) | exact .inr rfl
    | ((conv => arg 4; arg 27); apply OnlyIn.of_mk) | dsimp +zetaDelta only)

theorem holdEvent_only (s : State) (e : BwEvent) (hl : frameSub [.bus] [] pl pk = true) (hs : OnlyIn pl pk os s) :
    OnlyIn pl pk os (State.holdEvent s e) := by
  unfold State.holdEvent
  repeat' (with_reducible first
    | assumption | intro _ | exact frameSub_trans (by decide) hl | exact frameKey_of hl (by decide) | exact hk
    | apply withBw_only | apply OnlyIn.ite | extract_lets | split | exact .inl (frameSub_mem hl (by decide)) | exact .inr rfl
    | ((conv => arg 4; arg 27); apply OnlyIn.of_mk) | dsimp +zetaDelta only)

theorem alarm_only (s : State) (e : BwEvent) (hl : frameSub [.klp, .bus] [] pl pk = true) (hs : OnlyIn pl pk os s) :
    OnlyIn pl pk os (State.alarm s e) := by
  unfold State.alarm
  repeat' (with_reducible first
    | assumption | intro _ | exact frameSub_trans (by decide) hl | exact frameKey_of hl (by decide) | exact hk
    | apply holdEvent_only | apply releaseSource_only | apply OnlyIn.ite | split | dsimp +zetaDelta only)

theorem alarmOf_only (s : State) (source state value flags : Nat) (hl : frameSub [.klp, .bus] [] pl pk = true) (hs : OnlyIn pl pk os s) :
    OnlyIn pl pk os (State.alarmOf s source state value flags) := by
  unfold State.alarmOf
  repeat' (with_reducible first
    | assumption | intro _ | exact frameSub_trans (by decide) hl | exact frameKey_of hl (by decide) | exact hk
    | apply alarm_only | dsimp +zetaDelta only)

theorem breakwaterRow_only (s : State) (hl : frameSub [.klp, .bus] [] pl pk = true) (hs : OnlyIn pl pk os s) :
    OnlyIn pl pk os (State.breakwaterRow s) := by
  unfold State.breakwaterRow
  repeat' (with_reducible first
    | assumption | intro _ | exact frameSub_trans (by decide) hl | exact frameKey_of hl (by decide) | exact hk
    | apply withBw_only | apply giveAlarm_only | apply releaseSource_only | apply OnlyIn.foldl | apply OnlyIn.ite | extract_lets
    | split | refine OnlyIn.of_pair ?_ (by assumption) | exact .inl (frameSub_mem hl (by decide)) | exact .inr rfl
    | ((conv => arg 4; arg 27); apply OnlyIn.of_mk) | dsimp +zetaDelta only)

end Sys2Proof.Machine
end

