-- ==== Sys2Proof/Laws/FramesActOps.lean ====
section
/-!
SUPPORT. What the operations of Machine/ActOps.lean change at most.
-/
namespace Sys2Proof.Machine

variable {pl : List Piece} {pk : List Nat} {os : State}

theorem setOut_only (s : State) (i : Nat) (o : OutUnit) (hl : frameSub [.act] [] pl pk = true) (hs : OnlyIn pl pk os s) :
    OnlyIn pl pk os (State.setOut s i o) := by
  unfold State.setOut
  repeat' (with_reducible first
    | assumption | intro _ | exact frameSub_trans (by decide) hl | exact frameKey_of hl (by decide) | exact hk | extract_lets
    | exact .inl (frameSub_mem hl (by decide)) | exact .inr rfl | ((conv => arg 4; arg 27); apply OnlyIn.of_mk)
    | dsimp +zetaDelta only)

theorem applyLevel_only (s : State) (i level : Nat) (hl : frameSub [.act] [] pl pk = true) (hs : OnlyIn pl pk os s) :
    OnlyIn pl pk os (State.applyLevel s i level) := by
  unfold State.applyLevel
  repeat' (with_reducible first
    | assumption | intro _ | exact frameSub_trans (by decide) hl | exact frameKey_of hl (by decide) | exact hk
    | apply setOut_only | apply OnlyIn.ite | extract_lets | split | exact .inl (frameSub_mem hl (by decide)) | exact .inr rfl
    | ((conv => arg 4; arg 27); apply OnlyIn.of_mk) | dsimp +zetaDelta only)

theorem commandOut_only (s : State) (i level : Nat) (hl : frameSub [.act] [] pl pk = true) (hs : OnlyIn pl pk os s) :
    OnlyIn pl pk os (State.commandOut s i level) := by
  unfold State.commandOut
  repeat' (with_reducible first
    | assumption | intro _ | exact frameSub_trans (by decide) hl | exact frameKey_of hl (by decide) | exact hk
    | apply setOut_only | extract_lets | exact .inl (frameSub_mem hl (by decide)) | exact .inr rfl
    | ((conv => arg 4; arg 27); apply OnlyIn.of_mk) | dsimp +zetaDelta only)

theorem applyStorm_only (s : State) (i : Nat) (hl : frameSub [.act] [] pl pk = true) (hs : OnlyIn pl pk os s) :
    OnlyIn pl pk os (State.applyStorm s i) := by
  unfold State.applyStorm
  repeat' (with_reducible first
    | assumption | intro _ | exact frameSub_trans (by decide) hl | exact frameKey_of hl (by decide) | exact hk
    | apply setOut_only | apply applyLevel_only | apply OnlyIn.ite | extract_lets | split
    | exact .inl (frameSub_mem hl (by decide)) | exact .inr rfl | ((conv => arg 4; arg 27); apply OnlyIn.of_mk)
    | dsimp +zetaDelta only)

theorem applyStorms_only (s : State) (hl : frameSub [.act] [] pl pk = true) (hs : OnlyIn pl pk os s) :
    OnlyIn pl pk os (State.applyStorms s) := by
  unfold State.applyStorms
  repeat' (with_reducible first
    | assumption | intro _ | exact frameSub_trans (by decide) hl | exact frameKey_of hl (by decide) | exact hk
    | apply applyStorm_only | apply OnlyIn.foldl | dsimp +zetaDelta only)

theorem setFan_only (s : State) (c : Nat) (f : FanUnit) (hl : frameSub [.act] [] pl pk = true) (hs : OnlyIn pl pk os s) :
    OnlyIn pl pk os (State.setFan s c f) := by
  unfold State.setFan
  repeat' (with_reducible first
    | assumption | intro _ | exact frameSub_trans (by decide) hl | exact frameKey_of hl (by decide) | exact hk | extract_lets
    | exact .inl (frameSub_mem hl (by decide)) | exact .inr rfl | ((conv => arg 4; arg 27); apply OnlyIn.of_mk)
    | dsimp +zetaDelta only)

theorem setTach_only (s : State) (k : Nat) (t : TachUnit) (hl : frameSub [.act] [] pl pk = true) (hs : OnlyIn pl pk os s) :
    OnlyIn pl pk os (State.setTach s k t) := by
  unfold State.setTach
  repeat' (with_reducible first
    | assumption | intro _ | exact frameSub_trans (by decide) hl | exact frameKey_of hl (by decide) | exact hk | extract_lets
    | exact .inl (frameSub_mem hl (by decide)) | exact .inr rfl | ((conv => arg 4; arg 27); apply OnlyIn.of_mk)
    | dsimp +zetaDelta only)

theorem clearTugEdges_only (s : State) (c : Nat) (hl : frameSub [.act] [] pl pk = true) (hs : OnlyIn pl pk os s) :
    OnlyIn pl pk os (State.clearTugEdges s c) := by
  unfold State.clearTugEdges
  repeat' (with_reducible first
    | assumption | intro _ | exact frameSub_trans (by decide) hl | exact frameKey_of hl (by decide) | exact hk
    | apply setTach_only | apply OnlyIn.foldl | extract_lets | exact .inl (frameSub_mem hl (by decide)) | exact .inr rfl
    | ((conv => arg 4; arg 27); apply OnlyIn.of_mk) | dsimp +zetaDelta only)

theorem startTug_only (s : State) (c attempt : Nat) (retry : Bool) (hl : frameSub [.act] [] pl pk = true) (hs : OnlyIn pl pk os s) :
    OnlyIn pl pk os (State.startTug s c attempt retry) := by
  unfold State.startTug
  repeat' (with_reducible first
    | assumption | intro _ | exact frameSub_trans (by decide) hl | exact frameKey_of hl (by decide) | exact hk
    | apply setFan_only | apply clearTugEdges_only | extract_lets | exact .inl (frameSub_mem hl (by decide)) | exact .inr rfl
    | ((conv => arg 4; arg 27); apply OnlyIn.of_mk) | dsimp +zetaDelta only)

theorem fanRow_only (s : State) (c : Nat) (hl : frameSub [.act] [] pl pk = true) (hs : OnlyIn pl pk os s) :
    OnlyIn pl pk os (State.fanRow s c) := by
  unfold State.fanRow
  repeat' (with_reducible first
    | assumption | intro _ | exact frameSub_trans (by decide) hl | exact frameKey_of hl (by decide) | exact hk
    | apply setFan_only | apply OnlyIn.ite | extract_lets | split | exact .inl (frameSub_mem hl (by decide)) | exact .inr rfl
    | ((conv => arg 4; arg 27); apply OnlyIn.of_mk) | dsimp +zetaDelta only)

theorem endShort_only (s : State) (c : Nat) (hl : frameSub [.klp, .bus, .act] [] pl pk = true) (hs : OnlyIn pl pk os s) :
    OnlyIn pl pk os (State.endShort s c) := by
  unfold State.endShort
  repeat' (with_reducible first
    | assumption | intro _ | exact frameSub_trans (by decide) hl | exact frameKey_of hl (by decide) | exact hk
    | apply setFan_only | apply alarmOf_only | apply OnlyIn.ite | extract_lets | split
    | exact .inl (frameSub_mem hl (by decide)) | exact .inr rfl | ((conv => arg 4; arg 27); apply OnlyIn.of_mk)
    | dsimp +zetaDelta only)

theorem commandFan_only (s : State) (c mv : Nat) (hl : frameSub [.klp, .bus, .act] [] pl pk = true) (hs : OnlyIn pl pk os s) :
    OnlyIn pl pk os (State.commandFan s c mv) := by
  unfold State.commandFan
  repeat' (with_reducible first
    | assumption | intro _ | exact frameSub_trans (by decide) hl | exact frameKey_of hl (by decide) | exact hk
    | apply setFan_only | apply endShort_only | apply startTug_only | apply OnlyIn.ite | extract_lets | split
    | exact .inl (frameSub_mem hl (by decide)) | exact .inr rfl | ((conv => arg 4; arg 27); apply OnlyIn.of_mk)
    | dsimp +zetaDelta only)

theorem stallTach_only (s : State) (c k : Nat) (hl : frameSub [.klp, .log, .bus, .act] [] pl pk = true) (hs : OnlyIn pl pk os s) :
    OnlyIn pl pk os (State.stallTach s c k) := by
  unfold State.stallTach
  repeat' (with_reducible first
    | assumption | intro _ | exact frameSub_trans (by decide) hl | exact frameKey_of hl (by decide) | exact hk
    | apply setTach_only | apply setFan_only | apply pushLog_only | apply alarmOf_only | extract_lets
    | exact .inl (frameSub_mem hl (by decide)) | exact .inr rfl | ((conv => arg 4; arg 27); apply OnlyIn.of_mk)
    | dsimp +zetaDelta only)

theorem stallChannel_only (s : State) (c : Nat) (record : Bool) (hl : frameSub [.klp, .log, .bus, .act] [] pl pk = true) (hs : OnlyIn pl pk os s) :
    OnlyIn pl pk os (State.stallChannel s c record) := by
  unfold State.stallChannel
  repeat' (with_reducible first
    | assumption | intro _ | exact frameSub_trans (by decide) hl | exact frameKey_of hl (by decide) | exact hk
    | apply setFan_only | apply pushLog_only | apply setTach_only | apply alarmOf_only | apply OnlyIn.foldl | apply OnlyIn.ite
    | extract_lets | split | exact .inl (frameSub_mem hl (by decide)) | exact .inr rfl
    | ((conv => arg 4; arg 27); apply OnlyIn.of_mk) | dsimp +zetaDelta only)

theorem triacHalf_only (s : State) (i cross half : Nat) (hl : frameSub [.act] [] pl pk = true) (hs : OnlyIn pl pk os s) :
    OnlyIn pl pk os (State.triacHalf s i cross half) := by
  unfold State.triacHalf
  repeat' (with_reducible first
    | assumption | intro _ | exact frameSub_trans (by decide) hl | exact frameKey_of hl (by decide) | exact hk
    | apply setOut_only | apply applyLevel_only | apply OnlyIn.ite | extract_lets | split
    | refine OnlyIn.of_pair ?_ (by assumption) | exact .inl (frameSub_mem hl (by decide)) | exact .inr rfl
    | ((conv => arg 4; arg 27); apply OnlyIn.of_mk) | dsimp +zetaDelta only)

end Sys2Proof.Machine
end

