-- ==== Sys2Proof/Laws/FramesLoopOps.lean ====
section
/-!
SUPPORT. What the operations of Machine/LoopOps.lean change at most.
-/
namespace Sys2Proof.Machine

variable {pl : List Piece} {pk : List Nat} {os : State}

theorem setLoopRun_only (s : State) (l : Nat) (r : LoopRun) (hl : frameSub [.loop] [] pl pk = true) (hs : OnlyIn pl pk os s) :
    OnlyIn pl pk os (State.setLoopRun s l r) := by
  unfold State.setLoopRun
  repeat' (with_reducible first
    | assumption | intro _ | exact frameSub_trans (by decide) hl | exact frameKey_of hl (by decide) | exact hk | extract_lets
    | exact .inl (frameSub_mem hl (by decide)) | exact .inr rfl | ((conv => arg 4; arg 27); apply OnlyIn.of_mk)
    | dsimp +zetaDelta only)

theorem setZoneRun_only (s : State) (z : Nat) (r : ZoneRun) (hl : frameSub [.loop] [] pl pk = true) (hs : OnlyIn pl pk os s) :
    OnlyIn pl pk os (State.setZoneRun s z r) := by
  unfold State.setZoneRun
  repeat' (with_reducible first
    | assumption | intro _ | exact frameSub_trans (by decide) hl | exact frameKey_of hl (by decide) | exact hk | extract_lets
    | exact .inl (frameSub_mem hl (by decide)) | exact .inr rfl | ((conv => arg 4; arg 27); apply OnlyIn.of_mk)
    | dsimp +zetaDelta only)

theorem evalPrograms_only (s : State) (hl : frameSub [.regs, .loop] [] pl pk = true) (hs : OnlyIn pl pk os s) :
    OnlyIn pl pk os (State.evalPrograms s) := by
  unfold State.evalPrograms
  repeat' (with_reducible first
    | assumption | intro _ | exact frameSub_trans (by decide) hl | exact frameKey_of hl (by decide) | exact hk
    | exact frameKey_regs (frameSub_mem hl (by decide)) | apply setReg_only | apply OnlyIn.foldl | apply OnlyIn.ite
    | extract_lets | split | exact .inl (frameSub_mem hl (by decide)) | exact .inr rfl
    | ((conv => arg 4; arg 27); apply OnlyIn.of_mk) | dsimp +zetaDelta only)

theorem updateZone_only (s : State) (z : Nat) (hl : frameSub [.regs, .loop] [] pl pk = true) (hs : OnlyIn pl pk os s) :
    OnlyIn pl pk os (State.updateZone s z) := by
  unfold State.updateZone
  repeat' (with_reducible first
    | assumption | intro _ | exact frameSub_trans (by decide) hl | exact frameKey_of hl (by decide) | exact hk
    | exact frameKey_regs (frameSub_mem hl (by decide)) | apply setZoneRun_only | apply setReg_only | apply OnlyIn.ite
    | extract_lets | split | exact .inl (frameSub_mem hl (by decide)) | exact .inr rfl
    | ((conv => arg 4; arg 27); apply OnlyIn.of_mk) | dsimp +zetaDelta only)

theorem updateZones_only (s : State) (hl : frameSub [.regs, .loop] [] pl pk = true) (hs : OnlyIn pl pk os s) :
    OnlyIn pl pk os (State.updateZones s) := by
  unfold State.updateZones
  repeat' (with_reducible first
    | assumption | intro _ | exact frameSub_trans (by decide) hl | exact frameKey_of hl (by decide) | exact hk
    | exact frameKey_regs (frameSub_mem hl (by decide)) | apply updateZone_only | apply OnlyIn.foldl | dsimp +zetaDelta only)

theorem setTxSlot_only (s : State) (n v : Nat) (hl : frameSub [.bus] [] pl pk = true) (hs : OnlyIn pl pk os s) :
    OnlyIn pl pk os (State.setTxSlot s n v) := by
  unfold State.setTxSlot
  repeat' (with_reducible first
    | assumption | intro _ | exact frameSub_trans (by decide) hl | exact frameKey_of hl (by decide) | exact hk | extract_lets
    | exact .inl (frameSub_mem hl (by decide)) | exact .inr rfl | ((conv => arg 4; arg 27); apply OnlyIn.of_mk)
    | dsimp +zetaDelta only)

theorem writeTarget_only (s : State) (t : Nat) (u : Int) (hl : frameSub [.klp, .bus, .act] [] pl pk = true) (hs : OnlyIn pl pk os s) :
    OnlyIn pl pk os (State.writeTarget s t u) := by
  unfold State.writeTarget
  repeat' (with_reducible first
    | assumption | intro _ | exact frameSub_trans (by decide) hl | exact frameKey_of hl (by decide) | exact hk
    | apply commandOut_only | apply commandFan_only | apply setTxSlot_only | apply OnlyIn.ite | extract_lets | split
    | dsimp +zetaDelta only)

theorem runAuto_only (s : State) (l : Nat) (hl : frameSub [.regs, .klp, .bus, .loop, .act] [] pl pk = true) (hs : OnlyIn pl pk os s) :
    OnlyIn pl pk os (State.runAuto s l) := by
  unfold State.runAuto
  repeat' (with_reducible first
    | assumption | intro _ | exact frameSub_trans (by decide) hl | exact frameKey_of hl (by decide) | exact hk
    | exact frameKey_regs (frameSub_mem hl (by decide)) | apply setLoopRun_only | apply incSat_only | apply writeTarget_only
    | apply OnlyIn.ite | extract_lets | split | refine OnlyIn.of_pair ?_ (by assumption)
    | exact .inl (frameSub_mem hl (by decide)) | exact .inr rfl | ((conv => arg 4; arg 27); apply OnlyIn.of_mk)
    | dsimp +zetaDelta only)

theorem runManual_only (s : State) (l : Nat) (hl : frameSub [.klp, .bus, .loop, .act] [] pl pk = true) (hs : OnlyIn pl pk os s) :
    OnlyIn pl pk os (State.runManual s l) := by
  unfold State.runManual
  repeat' (with_reducible first
    | assumption | intro _ | exact frameSub_trans (by decide) hl | exact frameKey_of hl (by decide) | exact hk
    | apply setLoopRun_only | apply writeTarget_only | apply OnlyIn.ite | extract_lets | split
    | exact .inl (frameSub_mem hl (by decide)) | exact .inr rfl | ((conv => arg 4; arg 27); apply OnlyIn.of_mk)
    | dsimp +zetaDelta only)

theorem runOff_only (s : State) (l : Nat) (hl : frameSub [.loop] [] pl pk = true) (hs : OnlyIn pl pk os s) :
    OnlyIn pl pk os (State.runOff s l) := setLoopRun_only _ _ _ hl hs

theorem runLoops_only (s : State) (t : Nat) (hl : frameSub [.regs, .klp, .bus, .loop, .act] [] pl pk = true) (hs : OnlyIn pl pk os s) :
    OnlyIn pl pk os (State.runLoops s t) := by
  unfold State.runLoops
  repeat' (with_reducible first
    | assumption | intro _ | exact frameSub_trans (by decide) hl | exact frameKey_of hl (by decide) | exact hk
    | exact frameKey_regs (frameSub_mem hl (by decide)) | apply runAuto_only | apply runManual_only | apply runOff_only | apply OnlyIn.foldl
    | apply OnlyIn.ite | split | dsimp +zetaDelta only)

theorem enterAutonomous_only (s : State) (reason : Nat) (hl : frameSub [.log, .loop] [] pl pk = true) (hs : OnlyIn pl pk os s) :
    OnlyIn pl pk os (State.enterAutonomous s reason) := by
  unfold State.enterAutonomous
  repeat' (with_reducible first
    | assumption | intro _ | exact frameSub_trans (by decide) hl | exact frameKey_of hl (by decide) | exact hk
    | apply pushLog_only | apply OnlyIn.ite | extract_lets | split | exact .inl (frameSub_mem hl (by decide)) | exact .inr rfl
    | ((conv => arg 4; arg 27); apply OnlyIn.of_mk) | dsimp +zetaDelta only)

theorem noteAutonomous_only (s : State) (hl : frameSub [.log, .loop] [] pl pk = true) (hs : OnlyIn pl pk os s) :
    OnlyIn pl pk os (State.noteAutonomous s) := OnlyIn.ite (enterAutonomous_only _ _ hl hs) hs

theorem leaveAutonomous_only (s : State) (hl : frameSub [.log, .loop] [] pl pk = true) (hs : OnlyIn pl pk os s) :
    OnlyIn pl pk os (State.leaveAutonomous s) := by
  unfold State.leaveAutonomous
  repeat' (with_reducible first
    | assumption | intro _ | exact frameSub_trans (by decide) hl | exact frameKey_of hl (by decide) | exact hk
    | apply pushLog_only | apply OnlyIn.ite | extract_lets | split | exact .inl (frameSub_mem hl (by decide)) | exact .inr rfl
    | ((conv => arg 4; arg 27); apply OnlyIn.of_mk) | dsimp +zetaDelta only)

theorem masterHeard_only (s : State) (hl : frameSub [.klp, .loop] [] pl pk = true) (hs : OnlyIn pl pk os s) :
    OnlyIn pl pk os (State.masterHeard s) := by
  unfold State.masterHeard
  repeat' (with_reducible first
    | assumption | intro _ | exact frameSub_trans (by decide) hl | exact frameKey_of hl (by decide) | exact hk | extract_lets
    | exact .inl (frameSub_mem hl (by decide)) | exact .inr rfl | ((conv => arg 4; arg 27); apply OnlyIn.of_mk)
    | dsimp +zetaDelta only)

theorem setEngine_only (s : State) (c : Nat) (e : Engine) (hl : frameSub [.loop] [] pl pk = true) (hs : OnlyIn pl pk os s) :
    OnlyIn pl pk os (State.setEngine s c e) := by
  unfold State.setEngine
  repeat' (with_reducible first
    | assumption | intro _ | exact frameSub_trans (by decide) hl | exact frameKey_of hl (by decide) | exact hk | extract_lets
    | exact .inl (frameSub_mem hl (by decide)) | exact .inr rfl | ((conv => arg 4; arg 27); apply OnlyIn.of_mk)
    | dsimp +zetaDelta only)

theorem engineEval_only (s : State) (c : Nat) (hl : frameSub [.klp, .bus, .loop, .act] [Reg.SOURCE_CHANGES] pl pk = true) (hs : OnlyIn pl pk os s) :
    OnlyIn pl pk os (State.engineEval s c) := by
  unfold State.engineEval
  repeat' (with_reducible first
    | assumption | intro _ | exact frameSub_trans (by decide) hl | exact frameKey_of hl (by decide) | exact hk
    | apply setEngine_only | apply incSat_only | apply commandFan_only | apply OnlyIn.ite | extract_lets | split
    | refine OnlyIn.of_pair ?_ (by assumption) | exact .inl (frameSub_mem hl (by decide)) | exact .inr rfl
    | ((conv => arg 4; arg 27); apply OnlyIn.of_mk) | dsimp +zetaDelta only)

theorem takeTables_only (s : State) (hl : frameSub [.loop] [] pl pk = true) (hs : OnlyIn pl pk os s) :
    OnlyIn pl pk os (State.takeTables s) := by
  unfold State.takeTables
  repeat' (with_reducible first
    | assumption | intro _ | exact frameSub_trans (by decide) hl | exact frameKey_of hl (by decide) | exact hk | extract_lets
    | split | refine OnlyIn.of_pair ?_ (by assumption) | exact .inl (frameSub_mem hl (by decide)) | exact .inr rfl
    | ((conv => arg 4; arg 27); apply OnlyIn.of_mk) | dsimp +zetaDelta only)

theorem engineHolds_only (s : State) (hl : frameSub [.loop] [Reg.TABLE_TAKEOVERS] pl pk = true) (hs : OnlyIn pl pk os s) :
    OnlyIn pl pk os (State.engineHolds s) := by
  unfold State.engineHolds
  repeat' (with_reducible first
    | assumption | intro _ | exact frameSub_trans (by decide) hl | exact frameKey_of hl (by decide) | exact hk
    | apply setEngine_only | apply incSat_only | apply OnlyIn.foldl | apply OnlyIn.ite | extract_lets | split
    | exact .inl (frameSub_mem hl (by decide)) | exact .inr rfl | ((conv => arg 4; arg 27); apply OnlyIn.of_mk)
    | dsimp +zetaDelta only)

end Sys2Proof.Machine
end

