-- ==== Sys2Proof/Laws/FramesFocalOps.lean ====
section
/-!
SUPPORT. What the operations of Machine/FocalOps.lean change at most.
-/
namespace Sys2Proof.Machine

variable {pl : List Piece} {pk : List Nat} {os : State}

theorem withFocal_only (s : State) (f : FocalPart) (hl : frameSub [.focal] [] pl pk = true) (hs : OnlyIn pl pk os s) :
    OnlyIn pl pk os (State.withFocal s f) := by
  unfold State.withFocal
  repeat' (with_reducible first
    | assumption | intro _ | exact frameSub_trans (by decide) hl | exact frameKey_of hl (by decide) | exact hk | extract_lets
    | exact .inl (frameSub_mem hl (by decide)) | exact .inr rfl | ((conv => arg 4; arg 27); apply OnlyIn.of_mk)
    | dsimp +zetaDelta only)

theorem reportIntake_only (s : State) (slot : Nat) (t : Intake) (hl : frameSub [.log, .freeCtr] [Reg.SPARE_SINGLE_MISMATCH, Reg.SPARE_SUBSTITUTIONS] pl pk = true) (hs : OnlyIn pl pk os s) :
    OnlyIn pl pk os (State.reportIntake s slot t) := by
  unfold State.reportIntake
  repeat' (with_reducible first
    | assumption | intro _ | exact frameSub_trans (by decide) hl | exact frameKey_of hl (by decide) | exact hk
    | apply addSat_only | apply countUp_only | apply pushLog_only | apply OnlyIn.foldl | extract_lets | dsimp +zetaDelta only)

theorem trigger_only (s : State) (bit : Nat) (hl : frameSub [.cal] [] pl pk = true) (hs : OnlyIn pl pk os s) :
    OnlyIn pl pk os (State.trigger s bit) := by
  unfold State.trigger
  repeat' (with_reducible first
    | assumption | intro _ | exact frameSub_trans (by decide) hl | exact frameKey_of hl (by decide) | exact hk | extract_lets
    | exact .inl (frameSub_mem hl (by decide)) | exact .inr rfl | ((conv => arg 4; arg 27); apply OnlyIn.of_mk)
    | dsimp +zetaDelta only)

theorem gradientPair_only (s : State) (k : Nat) (hl : frameSub [.log, .berth, .focal, .cal] [Reg.GRADIENT_EVENTS, Reg.GRADIENT_FLAGS] pl pk = true) (hs : OnlyIn pl pk os s) :
    OnlyIn pl pk os (State.gradientPair s k) := by
  unfold State.gradientPair
  repeat' (with_reducible first
    | assumption | intro _ | exact frameSub_trans (by decide) hl | exact frameKey_of hl (by decide) | exact hk
    | apply withFocal_only | apply putBit_only | apply incSat_only | apply pushLog_only | apply trigger_only | apply OnlyIn.ite
    | extract_lets | split | exact .inl (frameSub_mem hl (by decide)) | exact .inr rfl
    | ((conv => arg 4; arg 27); apply OnlyIn.of_mk) | dsimp +zetaDelta only)

theorem startTravel_only (s : State) (close : Bool) (hl : frameSub [.focal] [] pl pk = true) (hs : OnlyIn pl pk os s) :
    OnlyIn pl pk os (State.startTravel s close) := by
  unfold State.startTravel
  repeat' (with_reducible first
    | assumption | intro _ | exact frameSub_trans (by decide) hl | exact frameKey_of hl (by decide) | exact hk
    | apply withFocal_only | extract_lets | exact .inl (frameSub_mem hl (by decide)) | exact .inr rfl
    | ((conv => arg 4; arg 27); apply OnlyIn.of_mk) | dsimp +zetaDelta only)

theorem setShutter_only (s : State) (h : Shutter) (hl : frameSub [.focal] [] pl pk = true) (hs : OnlyIn pl pk os s) :
    OnlyIn pl pk os (State.setShutter s h) := by
  unfold State.setShutter
  repeat' (with_reducible first
    | assumption | intro _ | exact frameSub_trans (by decide) hl | exact frameKey_of hl (by decide) | exact hk
    | apply withFocal_only | extract_lets | exact .inl (frameSub_mem hl (by decide)) | exact .inr rfl
    | ((conv => arg 4; arg 27); apply OnlyIn.of_mk) | dsimp +zetaDelta only)

theorem checkTravel_only (s : State) (meantOpen : Bool) (hl : frameSub [.nv, .focal] [Reg.SHUTTER_FAULTS] pl pk = true) (hs : OnlyIn pl pk os s) :
    OnlyIn pl pk os (State.checkTravel s meantOpen).2 := by
  unfold State.checkTravel
  repeat' (with_reducible first
    | assumption | intro _ | exact frameSub_trans (by decide) hl | exact frameKey_of hl (by decide) | exact hk
    | apply setShutter_only | apply countTally_only | apply incSat_only | apply startTravel_only | apply OnlyIn.ite
    | extract_lets | split | refine OnlyIn.of_pair ?_ (by assumption) | exact .inl (frameSub_mem hl (by decide))
    | exact .inr rfl | ((conv => arg 4; arg 27); apply OnlyIn.of_mk) | dsimp +zetaDelta only)

end Sys2Proof.Machine
end

