-- ==== Sys2Proof/Laws/FramesPipeOps.lean ====
section
/-!
SUPPORT. What the operations of Machine/PipeOps.lean change at most.
-/
namespace Sys2Proof.Machine

variable {pl : List Piece} {pk : List Nat} {os : State}

theorem withPipe_only (s : State) (q : PipePart) (hl : frameSub [.pipe] [] pl pk = true) (hs : OnlyIn pl pk os s) :
    OnlyIn pl pk os (State.withPipe s q) := by
  unfold State.withPipe
  repeat' (with_reducible first
    | assumption | intro _ | exact frameSub_trans (by decide) hl | exact frameKey_of hl (by decide) | exact hk | extract_lets
    | exact .inl (frameSub_mem hl (by decide)) | exact .inr rfl | ((conv => arg 4; arg 27); apply OnlyIn.of_mk)
    | dsimp +zetaDelta only)

theorem latchConsts_only (s : State) (gain : Nat) (hl : frameSub [.pipe] [Reg.BLOCK_A_CENTRE, Reg.BLOCK_B_CENTRE] pl pk = true) (hs : OnlyIn pl pk os s) :
    OnlyIn pl pk os (State.latchConsts s gain) := by
  unfold State.latchConsts
  repeat' (with_reducible first
    | assumption | intro _ | exact frameSub_trans (by decide) hl | exact frameKey_of hl (by decide) | exact hk
    | apply withPipe_only | apply setReg_only | apply setRegI_only | extract_lets | exact .inl (frameSub_mem hl (by decide))
    | exact .inr rfl | ((conv => arg 4; arg 27); apply OnlyIn.of_mk) | dsimp +zetaDelta only)

theorem clearFilter_only (s : State) (hl : frameSub [.pipe] [] pl pk = true) (hs : OnlyIn pl pk os s) :
    OnlyIn pl pk os (State.clearFilter s) := by
  unfold State.clearFilter
  repeat' (with_reducible first
    | assumption | intro _ | exact frameSub_trans (by decide) hl | exact frameKey_of hl (by decide) | exact hk
    | apply withPipe_only | extract_lets | exact .inl (frameSub_mem hl (by decide)) | exact .inr rfl
    | ((conv => arg 4; arg 27); apply OnlyIn.of_mk) | dsimp +zetaDelta only)

end Sys2Proof.Machine
end

