-- ==== Sys2Proof/Laws/FramesBerthOps.lean ====
section
/-!
SUPPORT. What the operations of Machine/BerthOps.lean change at most.
-/
namespace Sys2Proof.Machine

variable {pl : List Piece} {pk : List Nat} {os : State}

theorem withBerth_only (s : State) (b : BerthPart) (hl : frameSub [.berth] [] pl pk = true) (hs : OnlyIn pl pk os s) :
    OnlyIn pl pk os (State.withBerth s b) := by
  unfold State.withBerth
  repeat' (with_reducible first
    | assumption | intro _ | exact frameSub_trans (by decide) hl | exact frameKey_of hl (by decide) | exact hk | extract_lets
    | exact .inl (frameSub_mem hl (by decide)) | exact .inr rfl | ((conv => arg 4; arg 27); apply OnlyIn.of_mk)
    | dsimp +zetaDelta only)

theorem modBerth_only (s : State) (n : Nat) (f : BerthRun → BerthRun) (hl : frameSub [.berth] [] pl pk = true) (hs : OnlyIn pl pk os s) :
    OnlyIn pl pk os (State.modBerth s n f) := by
  unfold State.modBerth
  repeat' (with_reducible first
    | assumption | intro _ | exact frameSub_trans (by decide) hl | exact frameKey_of hl (by decide) | exact hk
    | apply withBerth_only | apply OnlyIn.ite | apply hf | extract_lets | split | exact .inl (frameSub_mem hl (by decide))
    | exact .inr rfl | ((conv => arg 4; arg 27); apply OnlyIn.of_mk) | dsimp +zetaDelta only)

theorem closeBerths_only (s : State) (hl : frameSub [.berth] [] pl pk = true) (hs : OnlyIn pl pk os s) :
    OnlyIn pl pk os (State.closeBerths s) := by
  unfold State.closeBerths
  repeat' (with_reducible first
    | assumption | intro _ | exact frameSub_trans (by decide) hl | exact frameKey_of hl (by decide) | exact hk
    | apply withBerth_only | apply OnlyIn.ite | extract_lets | split | exact .inl (frameSub_mem hl (by decide)) | exact .inr rfl
    | ((conv => arg 4; arg 27); apply OnlyIn.of_mk) | dsimp +zetaDelta only)

theorem takeEdit_only (s : State) (all : Bool) (n : Nat) (hl : frameSub [.klp, .bus, .berth] [] pl pk = true) (hs : OnlyIn pl pk os s) :
    OnlyIn pl pk os (State.takeEdit s all n) := by
  unfold State.takeEdit
  repeat' (with_reducible first
    | assumption | intro _ | exact frameSub_trans (by decide) hl | exact frameKey_of hl (by decide) | exact hk
    | apply withBerth_only | apply modBerth_only | apply alarm_only | apply OnlyIn.foldl | apply OnlyIn.ite | extract_lets
    | split | exact .inl (frameSub_mem hl (by decide)) | exact .inr rfl | ((conv => arg 4; arg 27); apply OnlyIn.of_mk)
    | dsimp +zetaDelta only)

theorem takeEdits_only (s : State) (hl : frameSub [.klp, .bus, .berth] [] pl pk = true) (hs : OnlyIn pl pk os s) :
    OnlyIn pl pk os (State.takeEdits s) := by
  unfold State.takeEdits
  repeat' (with_reducible first
    | assumption | intro _ | exact frameSub_trans (by decide) hl | exact frameKey_of hl (by decide) | exact hk
    | apply takeEdit_only | apply withBerth_only | apply OnlyIn.foldl | apply OnlyIn.ite | extract_lets | split
    | exact .inl (frameSub_mem hl (by decide)) | exact .inr rfl | ((conv => arg 4; arg 27); apply OnlyIn.of_mk)
    | dsimp +zetaDelta only)

theorem sendReport_only (s : State) (n : Nat) (hl : frameSub [.bus] [] pl pk = true) (hs : OnlyIn pl pk os s) :
    OnlyIn pl pk os (State.sendReport s n).2 := by
  unfold State.sendReport
  repeat' (with_reducible first
    | assumption | intro _ | exact frameSub_trans (by decide) hl | exact frameKey_of hl (by decide) | exact hk
    | apply enqueue_only | apply OnlyIn.ite | extract_lets | split | refine OnlyIn.of_pair ?_ (by assumption)
    | exact .inl (frameSub_mem hl (by decide)) | exact .inr rfl | ((conv => arg 4; arg 27); apply OnlyIn.of_mk)
    | dsimp +zetaDelta only)

theorem issueAlarm_only (s : State) (n : Nat) (ev : Nat × Nat) (hl : frameSub [.klp, .log, .bus] [] pl pk = true) (hs : OnlyIn pl pk os s) :
    OnlyIn pl pk os (State.issueAlarm s n ev) := by
  unfold State.issueAlarm
  repeat' (with_reducible first
    | assumption | intro _ | exact frameSub_trans (by decide) hl | exact frameKey_of hl (by decide) | exact hk
    | apply alarm_only | apply pushLog_only | apply OnlyIn.ite | extract_lets | split | dsimp +zetaDelta only)

theorem issuePresence_only (s : State) (n : Nat) (came : Bool) (hl : frameSub [.log] [] pl pk = true) (hs : OnlyIn pl pk os s) :
    OnlyIn pl pk os (State.issuePresence s n came) := by
  unfold State.issuePresence
  repeat' (with_reducible first
    | assumption | intro _ | exact frameSub_trans (by decide) hl | exact frameKey_of hl (by decide) | exact hk
    | apply pushLog_only | extract_lets | dsimp +zetaDelta only)

theorem presenceReports_only (normal : Bool) (l : List Nat) (s : State) (hl : frameSub [.bus] [] pl pk = true) (hs : OnlyIn pl pk os s) :
    OnlyIn pl pk os (State.presenceReports s normal l).2 := by
  induction l generalizing s with
  | nil => exact hs
  | cons n l ih => exact ih _ (sendReport_only _ _ (frameSub_trans (by decide) hl) hs)

theorem reports_only (s : State) (presence : List Nat) (hl : frameSub [.bus, .berth] [Reg.REPORTS_DEFERRED] pl pk = true) (hs : OnlyIn pl pk os s) :
    OnlyIn pl pk os (State.reports s presence) := by
  unfold State.reports
  extract_lets c normal p s1 waiting due all t b1 step out t2 b2
  have h1 : OnlyIn pl pk os s1 := presenceReports_only _ _ _ (frameSub_trans (by decide) hl) hs
  clear_value s1
  have ht : OnlyIn pl pk os t := OnlyIn.foldl h1 fun t x ht => sendReport_only _ _ (frameSub_trans (by decide) hl) ht
  have ho : OnlyIn pl pk os out.2.2 := by
    have go : ∀ (l : List Nat) (a : Nat × List Nat × State), OnlyIn pl pk os a.2.2 → OnlyIn pl pk os (l.foldl step a).2.2 := by
      intro l
      induction l with
      | nil => exact fun _ h => h
      | cons n l ih =>
        intro a h
        refine ih _ ?_
        have hr := sendReport_only a.2.2 n (frameSub_trans (by decide) hl) h
        unfold step
        dsimp only
        split
        · exact h
        · split <;> exact hr
    exact go _ _ h1
  have h2 : OnlyIn pl pk os t2 := addSat_only _ _ _ (frameKey_of hl (by decide)) ho
  clear_value t t2
  split
  · exact hs
  · split
    · exact withBerth_only _ _ (frameSub_trans (by decide) hl) ht
    · exact withBerth_only _ _ (frameSub_trans (by decide) hl) h2

theorem publishTable_only (s : State) (hl : frameSub [.klp, .log, .bus, .berth] [Reg.REPORTS_DEFERRED] pl pk = true) (hs : OnlyIn pl pk os s) :
    OnlyIn pl pk os (State.publishTable s) := by
  unfold State.publishTable
  repeat' (with_reducible first
    | assumption | intro _ | exact frameSub_trans (by decide) hl | exact frameKey_of hl (by decide) | exact hk
    | apply withBerth_only | apply issueAlarm_only | apply issuePresence_only | apply reports_only | apply OnlyIn.foldl
    | extract_lets | exact .inl (frameSub_mem hl (by decide)) | exact .inr rfl | ((conv => arg 4; arg 27); apply OnlyIn.of_mk)
    | dsimp +zetaDelta only)

end Sys2Proof.Machine
end

