-- ==== Sys2Proof/Laws/FramesCalOps.lean ====
section
/-!
SUPPORT. What the operations of Machine/CalOps.lean change at most.
-/
namespace Sys2Proof.Machine

variable {pl : List Piece} {pk : List Nat} {os : State}

theorem withCal_only (s : State) (c : CalPart) (hl : frameSub [.cal] [] pl pk = true) (hs : OnlyIn pl pk os s) :
    OnlyIn pl pk os (State.withCal s c) := by
  unfold State.withCal
  repeat' (with_reducible first
    | assumption | intro _ | exact frameSub_trans (by decide) hl | exact frameKey_of hl (by decide) | exact hk | extract_lets
    | exact .inl (frameSub_mem hl (by decide)) | exact .inr rfl | ((conv => arg 4; arg 27); apply OnlyIn.of_mk)
    | dsimp +zetaDelta only)

theorem evalRow_only (s : State) (y : Nat) (ue : List Nat) (hl : frameSub [.pipe, .cal] [] pl pk = true) (hs : OnlyIn pl pk os s) :
    OnlyIn pl pk os (State.evalRow s y ue) := by
  unfold State.evalRow
  repeat' (with_reducible first
    | assumption | intro _ | exact frameSub_trans (by decide) hl | exact frameKey_of hl (by decide) | exact hk
    | apply OnlyIn.foldl | apply OnlyIn.ite | extract_lets | split | refine OnlyIn.of_pair ?_ (by assumption)
    | exact .inl (frameSub_mem hl (by decide)) | exact .inr rfl | ((conv => arg 4; arg 27); apply OnlyIn.of_mk)
    | dsimp +zetaDelta only)

theorem flagRow_only (s : State) (y : Nat) (hl : frameSub [.pipe, .cal] [] pl pk = true) (hs : OnlyIn pl pk os s) :
    OnlyIn pl pk os (State.flagRow s y) := by
  unfold State.flagRow
  repeat' (with_reducible first
    | assumption | intro _ | exact frameSub_trans (by decide) hl | exact frameKey_of hl (by decide) | exact hk
    | apply OnlyIn.foldl | apply OnlyIn.ite | extract_lets | split | refine OnlyIn.of_pair ?_ (by assumption)
    | exact .inl (frameSub_mem hl (by decide)) | exact .inr rfl | ((conv => arg 4; arg 27); apply OnlyIn.of_mk)
    | dsimp +zetaDelta only)

theorem cycleRow_only (s : State) (y : Nat) (ue : List Nat) (hl : frameSub [.pipe, .cal] [] pl pk = true) (hs : OnlyIn pl pk os s) :
    OnlyIn pl pk os (State.cycleRow s y ue) := by
  unfold State.cycleRow
  repeat' (with_reducible first
    | assumption | intro _ | exact frameSub_trans (by decide) hl | exact frameKey_of hl (by decide) | exact hk
    | apply evalRow_only | apply flagRow_only | apply OnlyIn.ite | extract_lets | split
    | refine OnlyIn.of_pair ?_ (by assumption) | exact .inl (frameSub_mem hl (by decide)) | exact .inr rfl
    | ((conv => arg 4; arg 27); apply OnlyIn.of_mk) | dsimp +zetaDelta only)

theorem showRefs_only (s : State) (hl : frameSub [.regs] [] pl pk = true) (hs : OnlyIn pl pk os s) :
    OnlyIn pl pk os (State.showRefs s) := by
  unfold State.showRefs
  repeat' (with_reducible first
    | assumption | intro _ | exact frameSub_trans (by decide) hl | exact frameKey_of hl (by decide) | exact hk
    | exact frameKey_regs (frameSub_mem hl (by decide)) | apply setReg_only | apply OnlyIn.foldl | dsimp +zetaDelta only)

theorem switchGate_only (s : State) (hl : frameSub [.pipe, .cal, .video] [] pl pk = true) (hs : OnlyIn pl pk os s) :
    OnlyIn pl pk os (State.switchGate s) := by
  unfold State.switchGate
  repeat' (with_reducible first
    | assumption | intro _ | exact frameSub_trans (by decide) hl | exact frameKey_of hl (by decide) | exact hk | extract_lets
    | exact .inl (frameSub_mem hl (by decide)) | exact .inr rfl | ((conv => arg 4; arg 27); apply OnlyIn.of_mk)
    | dsimp +zetaDelta only)

theorem beginOpen_only (s : State) (hl : frameSub [.phase] [Reg.OPEN_S] pl pk = true) (hs : OnlyIn pl pk os s) :
    OnlyIn pl pk os (State.beginOpen s) := by
  unfold State.beginOpen
  repeat' (with_reducible first
    | assumption | intro _ | exact frameSub_trans (by decide) hl | exact frameKey_of hl (by decide) | exact hk
    | apply setReg_only | apply OnlyIn.ite | extract_lets | split | exact .inl (frameSub_mem hl (by decide)) | exact .inr rfl
    | ((conv => arg 4; arg 27); apply OnlyIn.of_mk) | dsimp +zetaDelta only)

theorem acceptSwitch_only (s : State) (set : OffsetSet) (blind : SMap) (hl : frameSub [.regs, .phase, .pipe, .cal, .video] [] pl pk = true) (hs : OnlyIn pl pk os s) :
    OnlyIn pl pk os (State.acceptSwitch s set blind) := by
  unfold State.acceptSwitch
  repeat' (with_reducible first
    | assumption | intro _ | exact frameSub_trans (by decide) hl | exact frameKey_of hl (by decide) | exact hk
    | exact frameKey_regs (frameSub_mem hl (by decide)) | apply switchGate_only | apply showRefs_only | apply setReg_only
    | apply beginOpen_only | extract_lets | exact .inl (frameSub_mem hl (by decide)) | exact .inr rfl
    | ((conv => arg 4; arg 27); apply OnlyIn.of_mk) | dsimp +zetaDelta only)

theorem clearMarkers_only (s : State) (hl : frameSub [.berth] [] pl pk = true) (hs : OnlyIn pl pk os s) :
    OnlyIn pl pk os (State.clearMarkers s) := by
  unfold State.clearMarkers
  repeat' (with_reducible first
    | assumption | intro _ | exact frameSub_trans (by decide) hl | exact frameKey_of hl (by decide) | exact hk
    | apply OnlyIn.foldl | apply OnlyIn.ite | extract_lets | split | exact .inl (frameSub_mem hl (by decide)) | exact .inr rfl
    | ((conv => arg 4; arg 27); apply OnlyIn.of_mk) | dsimp +zetaDelta only)

theorem factorySwitch_only (s : State) (hl : frameSub [.regs, .pipe, .cal, .video] [] pl pk = true) (hs : OnlyIn pl pk os s) :
    OnlyIn pl pk os (State.factorySwitch s) := by
  unfold State.factorySwitch
  repeat' (with_reducible first
    | assumption | intro _ | exact frameSub_trans (by decide) hl | exact frameKey_of hl (by decide) | exact hk
    | exact frameKey_regs (frameSub_mem hl (by decide)) | apply switchGate_only | apply showRefs_only | extract_lets
    | exact .inl (frameSub_mem hl (by decide)) | exact .inr rfl | ((conv => arg 4; arg 27); apply OnlyIn.of_mk)
    | dsimp +zetaDelta only)

theorem gateAtClose_only (s : State) (hl : frameSub [.regs, .phase, .pipe, .cal, .video] [] pl pk = true) (hs : OnlyIn pl pk os s) :
    OnlyIn pl pk os (State.gateAtClose s) := by
  unfold State.gateAtClose
  repeat' (with_reducible first
    | assumption | intro _ | exact frameSub_trans (by decide) hl | exact frameKey_of hl (by decide) | exact hk
    | exact frameKey_regs (frameSub_mem hl (by decide)) | apply factorySwitch_only | apply switchGate_only | apply withCal_only
    | apply acceptSwitch_only | apply OnlyIn.ite | extract_lets | split | refine OnlyIn.of_pair ?_ (by assumption)
    | exact .inl (frameSub_mem hl (by decide)) | exact .inr rfl | ((conv => arg 4; arg 27); apply OnlyIn.of_mk)
    | dsimp +zetaDelta only)

theorem grantCycle_only (s : State) (hl : frameSub [.focal, .cal] [] pl pk = true) (hs : OnlyIn pl pk os s) :
    OnlyIn pl pk os (State.grantCycle s) := by
  unfold State.grantCycle
  repeat' (with_reducible first
    | assumption | intro _ | exact frameSub_trans (by decide) hl | exact frameKey_of hl (by decide) | exact hk
    | apply withCal_only | apply startTravel_only | extract_lets | exact .inl (frameSub_mem hl (by decide)) | exact .inr rfl
    | ((conv => arg 4; arg 27); apply OnlyIn.of_mk) | dsimp +zetaDelta only)

theorem rejectCycle_only (s : State) (reason : Nat) (hl : frameSub [.log, .cal] [Reg.CAL_LAST_REASON, Reg.CAL_REJECTED, Reg.CAL_REJECT_RUN] pl pk = true) (hs : OnlyIn pl pk os s) :
    OnlyIn pl pk os (State.rejectCycle s reason) := by
  unfold State.rejectCycle
  repeat' (with_reducible first
    | assumption | intro _ | exact frameSub_trans (by decide) hl | exact frameKey_of hl (by decide) | exact hk
    | apply withCal_only | apply setReg_only | apply incSat_only | apply pushLog_only | apply OnlyIn.ite | extract_lets | split
    | refine OnlyIn.of_pair ?_ (by assumption) | exact .inl (frameSub_mem hl (by decide)) | exact .inr rfl
    | ((conv => arg 4; arg 27); apply OnlyIn.of_mk) | dsimp +zetaDelta only)

theorem abortCycle_only (s : State) (reason : Nat) (hl : frameSub [.cal] [] pl pk = true) (hs : OnlyIn pl pk os s) :
    OnlyIn pl pk os (State.abortCycle s reason) := by
  unfold State.abortCycle
  repeat' (with_reducible first
    | assumption | intro _ | exact frameSub_trans (by decide) hl | exact frameKey_of hl (by decide) | exact hk
    | apply withCal_only | apply OnlyIn.ite | extract_lets | split | refine OnlyIn.of_pair ?_ (by assumption)
    | exact .inl (frameSub_mem hl (by decide)) | exact .inr rfl | ((conv => arg 4; arg 27); apply OnlyIn.of_mk)
    | dsimp +zetaDelta only)

theorem settleAbort_only (s : State) (hl : frameSub [.log, .focal, .cal] [Reg.CAL_LAST_REASON, Reg.CAL_REJECTED, Reg.CAL_REJECT_RUN] pl pk = true) (hs : OnlyIn pl pk os s) :
    OnlyIn pl pk os (State.settleAbort s) := by
  unfold State.settleAbort
  repeat' (with_reducible first
    | assumption | intro _ | exact frameSub_trans (by decide) hl | exact frameKey_of hl (by decide) | exact hk
    | apply withCal_only | apply rejectCycle_only | apply setShutter_only | apply startTravel_only | apply OnlyIn.ite
    | extract_lets | split | refine OnlyIn.of_pair ?_ (by assumption) | exact .inl (frameSub_mem hl (by decide))
    | exact .inr rfl | ((conv => arg 4; arg 27); apply OnlyIn.of_mk) | dsimp +zetaDelta only)

theorem endRejected_only (s : State) (hl : frameSub [.klp, .cal] [] pl pk = true) (hs : OnlyIn pl pk os s) :
    OnlyIn pl pk os (State.endRejected s) := by
  unfold State.endRejected
  repeat' (with_reducible first
    | assumption | intro _ | exact frameSub_trans (by decide) hl | exact frameKey_of hl (by decide) | exact hk
    | apply withCal_only | apply raiseIrq_only | apply OnlyIn.ite | extract_lets | split
    | refine OnlyIn.of_pair ?_ (by assumption) | exact .inl (frameSub_mem hl (by decide)) | exact .inr rfl
    | ((conv => arg 4; arg 27); apply OnlyIn.of_mk) | dsimp +zetaDelta only)

theorem endAccepted_only (s : State) (hl : frameSub [.regs, .phase, .klp, .log, .berth, .pipe, .cal, .video, .freeCtr] [] pl pk = true) (hs : OnlyIn pl pk os s) :
    OnlyIn pl pk os (State.endAccepted s) := by
  unfold State.endAccepted
  repeat' (with_reducible first
    | assumption | intro _ | exact frameSub_trans (by decide) hl | exact frameKey_of hl (by decide) | exact hk
    | exact frameKey_regs (frameSub_mem hl (by decide)) | apply withCal_only | apply acceptSwitch_only | apply clearMarkers_only
    | apply countUp_only | apply setReg_only | apply pushLog_only | apply raiseIrq_only | extract_lets | split
    | refine OnlyIn.of_pair ?_ (by assumption) | exact .inl (frameSub_mem hl (by decide)) | exact .inr rfl
    | ((conv => arg 4; arg 27); apply OnlyIn.of_mk) | dsimp +zetaDelta only)

theorem decideCycle_only (s : State) (hl : frameSub [.log, .focal, .cal] [Reg.AGREE_FRACTION, Reg.CAL_LAST_REASON, Reg.CAL_REJECTED, Reg.CAL_REJECT_RUN, Reg.DISAGREE_PIXELS, Reg.FLAG_SPREAD] pl pk = true) (hs : OnlyIn pl pk os s) :
    OnlyIn pl pk os (State.decideCycle s) := by
  unfold State.decideCycle
  repeat' (with_reducible first
    | assumption | intro _ | exact frameSub_trans (by decide) hl | exact frameKey_of hl (by decide) | exact hk
    | apply setReg_only | apply rejectCycle_only | apply OnlyIn.ite | extract_lets | split
    | refine OnlyIn.of_pair ?_ (by assumption) | exact .inl (frameSub_mem hl (by decide)) | exact .inr rfl
    | ((conv => arg 4; arg 27); apply OnlyIn.of_mk) | dsimp +zetaDelta only)

theorem cycleAtClose_only (s : State) (tr : Travel) (hl : frameSub [.regs, .phase, .klp, .log, .berth, .focal, .pipe, .cal, .video, .freeCtr] [] pl pk = true) (hs : OnlyIn pl pk os s) :
    OnlyIn pl pk os (State.cycleAtClose s tr) := by
  unfold State.cycleAtClose
  repeat' (with_reducible first
    | assumption | intro _ | exact frameSub_trans (by decide) hl | exact frameKey_of hl (by decide) | exact hk
    | exact frameKey_regs (frameSub_mem hl (by decide)) | apply startTravel_only | apply withCal_only | apply setShutter_only
    | apply endRejected_only | apply rejectCycle_only | apply setReg_only | apply putBit_only | apply decideCycle_only
    | apply endAccepted_only | apply OnlyIn.ite | extract_lets | split | refine OnlyIn.of_pair ?_ (by assumption)
    | exact .inl (frameSub_mem hl (by decide)) | exact .inr rfl | ((conv => arg 4; arg 27); apply OnlyIn.of_mk)
    | dsimp +zetaDelta only)

theorem noteUnusable_only (s : State) (hl : frameSub [.log, .cal] [] pl pk = true) (hs : OnlyIn pl pk os s) :
    OnlyIn pl pk os (State.noteUnusable s) := by
  unfold State.noteUnusable
  repeat' (with_reducible first
    | assumption | intro _ | exact frameSub_trans (by decide) hl | exact frameKey_of hl (by decide) | exact hk
    | apply withCal_only | apply pushLog_only | apply OnlyIn.ite | extract_lets | split
    | exact .inl (frameSub_mem hl (by decide)) | exact .inr rfl | ((conv => arg 4; arg 27); apply OnlyIn.of_mk)
    | dsimp +zetaDelta only)

theorem swapGains_only (s : State) (hl : frameSub [.regs, .klp, .pipe, .cal, .video] [] pl pk = true) (hs : OnlyIn pl pk os s) :
    OnlyIn pl pk os (State.swapGains s) := by
  unfold State.swapGains
  repeat' (with_reducible first
    | assumption | intro _ | exact frameSub_trans (by decide) hl | exact frameKey_of hl (by decide) | exact hk
    | exact frameKey_regs (frameSub_mem hl (by decide)) | apply showRefs_only | apply OnlyIn.foldl | apply OnlyIn.ite
    | extract_lets | split | refine OnlyIn.of_pair ?_ (by assumption) | exact .inl (frameSub_mem hl (by decide))
    | exact .inr rfl | ((conv => arg 4; arg 27); apply OnlyIn.of_mk) | dsimp +zetaDelta only)

end Sys2Proof.Machine
end

