-- ==== Sys2Proof/Laws/FramesVideoOps.lean ====
section
/-!
SUPPORT. What the operations of Machine/VideoOps.lean change at most.
-/
namespace Sys2Proof.Machine

variable {pl : List Piece} {pk : List Nat} {os : State}

theorem withVideo_only (s : State) (v : VideoPart) (hl : frameSub [.video] [] pl pk = true) (hs : OnlyIn pl pk os s) :
    OnlyIn pl pk os (State.withVideo s v) := by
  unfold State.withVideo
  repeat' (with_reducible first
    | assumption | intro _ | exact frameSub_trans (by decide) hl | exact frameKey_of hl (by decide) | exact hk | extract_lets
    | exact .inl (frameSub_mem hl (by decide)) | exact .inr rfl | ((conv => arg 4; arg 27); apply OnlyIn.of_mk)
    | dsimp +zetaDelta only)

theorem videoRow_only (s : State) (slot : Nat) (ue : List Nat) (skip : Bool) (hl : frameSub [.video, .freeCtr] [Reg.FRAMES_SENT, Reg.FROZEN_FRAMES, Reg.LINE_GAP_FRAMES, Reg.VC2_PLANES] pl pk = true) (hs : OnlyIn pl pk os s) :
    OnlyIn pl pk os (State.videoRow s slot ue skip) := by
  unfold State.videoRow
  repeat' (with_reducible first
    | assumption | intro _ | exact frameSub_trans (by decide) hl | exact frameKey_of hl (by decide) | exact hk
    | apply withVideo_only | apply countUp_only | apply incSat_only | apply OnlyIn.ite | extract_lets | split
    | refine OnlyIn.of_pair ?_ (by assumption) | exact .inl (frameSub_mem hl (by decide)) | exact .inr rfl
    | ((conv => arg 4; arg 27); apply OnlyIn.of_mk) | dsimp +zetaDelta only)

theorem videoFrame_only (s : State) (hl : frameSub [.video] [] pl pk = true) (hs : OnlyIn pl pk os s) :
    OnlyIn pl pk os (State.videoFrame s) := by
  unfold State.videoFrame
  repeat' (with_reducible first
    | assumption | intro _ | exact frameSub_trans (by decide) hl | exact frameKey_of hl (by decide) | exact hk
    | apply withVideo_only | apply OnlyIn.ite | extract_lets | split | exact .inl (frameSub_mem hl (by decide)) | exact .inr rfl
    | ((conv => arg 4; arg 27); apply OnlyIn.of_mk) | dsimp +zetaDelta only)

end Sys2Proof.Machine
end

