-- ==== Sys2Proof/Laws/FramesRowOps.lean ====
section
/-!
SUPPORT. What the operations of Machine/RowOps.lean change at most.
-/
namespace Sys2Proof.Machine

variable {pl : List Piece} {pk : List Nat} {os : State}

theorem pwmAsk_only (s : State) (i : Nat) (hl : frameSub [.act] [] pl pk = true) (hs : OnlyIn pl pk os s) :
    OnlyIn pl pk os (State.pwmAsk s i).2 := by
  unfold State.pwmAsk
  repeat' (with_reducible first
    | assumption | intro _ | exact frameSub_trans (by decide) hl | exact frameKey_of hl (by decide) | exact hk
    | apply setOut_only | apply applyLevel_only | apply OnlyIn.ite | extract_lets | split
    | refine OnlyIn.of_pair ?_ (by assumption) | exact .inl (frameSub_mem hl (by decide)) | exact .inr rfl
    | ((conv => arg 4; arg 27); apply OnlyIn.of_mk) | dsimp +zetaDelta only)

theorem pwmGrant_only (s : State) (e : Edge) (hl : frameSub [.act] [] pl pk = true) (hs : OnlyIn pl pk os s) :
    OnlyIn pl pk os (State.pwmGrant s e) := by
  unfold State.pwmGrant
  repeat' (with_reducible first
    | assumption | intro _ | exact frameSub_trans (by decide) hl | exact frameKey_of hl (by decide) | exact hk
    | apply setOut_only | apply OnlyIn.ite | extract_lets | split | refine OnlyIn.of_pair ?_ (by assumption)
    | exact .inl (frameSub_mem hl (by decide)) | exact .inr rfl | ((conv => arg 4; arg 27); apply OnlyIn.of_mk)
    | dsimp +zetaDelta only)

theorem floatRow_only (s : State) (i : Nat) (hl : frameSub [.act] [] pl pk = true) (hs : OnlyIn pl pk os s) :
    OnlyIn pl pk os (State.floatRow s i) := by
  unfold State.floatRow
  repeat' (with_reducible first
    | assumption | intro _ | exact frameSub_trans (by decide) hl | exact frameKey_of hl (by decide) | exact hk
    | apply setOut_only | apply OnlyIn.ite | extract_lets | split | exact .inl (frameSub_mem hl (by decide)) | exact .inr rfl
    | ((conv => arg 4; arg 27); apply OnlyIn.of_mk) | dsimp +zetaDelta only)

theorem triacGrant_only (s : State) (e : Edge) (hl : frameSub [.act] [] pl pk = true) (hs : OnlyIn pl pk os s) :
    OnlyIn pl pk os (State.triacGrant s e) := by
  unfold State.triacGrant
  repeat' (with_reducible first
    | assumption | intro _ | exact frameSub_trans (by decide) hl | exact frameKey_of hl (by decide) | exact hk
    | apply setOut_only | apply OnlyIn.ite | extract_lets | split | exact .inl (frameSub_mem hl (by decide)) | exact .inr rfl
    | ((conv => arg 4; arg 27); apply OnlyIn.of_mk) | dsimp +zetaDelta only)

theorem mainsRow_only (s : State) (hl : frameSub [.mains, .act] [Reg.HALF_PERIOD, Reg.MAINS_POLARITY] pl pk = true) (hs : OnlyIn pl pk os s) :
    OnlyIn pl pk os (State.mainsRow s) := by
  unfold State.mainsRow
  repeat' (with_reducible first
    | assumption | intro _ | exact frameSub_trans (by decide) hl | exact frameKey_of hl (by decide) | exact hk
    | apply setReg_only | apply triacHalf_only | apply OnlyIn.foldl | apply OnlyIn.ite | extract_lets | split
    | exact .inl (frameSub_mem hl (by decide)) | exact .inr rfl | ((conv => arg 4; arg 27); apply OnlyIn.of_mk)
    | dsimp +zetaDelta only)

theorem applyGrant_only (s : State) (e : Edge) (hl : frameSub [.act] [] pl pk = true) (hs : OnlyIn pl pk os s) :
    OnlyIn pl pk os (State.applyGrant s e) := by
  unfold State.applyGrant
  repeat' (with_reducible first
    | assumption | intro _ | exact frameSub_trans (by decide) hl | exact frameKey_of hl (by decide) | exact hk
    | apply triacGrant_only | apply pwmGrant_only | apply OnlyIn.ite | split | dsimp +zetaDelta only)

theorem analogueRow_only (s : State) (i : Nat) (hl : frameSub [.act] [] pl pk = true) (hs : OnlyIn pl pk os s) :
    OnlyIn pl pk os (State.analogueRow s i) := by
  unfold State.analogueRow
  repeat' (with_reducible first
    | assumption | intro _ | exact frameSub_trans (by decide) hl | exact frameKey_of hl (by decide) | exact hk
    | apply setOut_only | apply applyLevel_only | extract_lets | split | refine OnlyIn.of_pair ?_ (by assumption)
    | exact .inl (frameSub_mem hl (by decide)) | exact .inr rfl | ((conv => arg 4; arg 27); apply OnlyIn.of_mk)
    | dsimp +zetaDelta only)

theorem windowRow_only (s : State) (asked : List Edge) (hl : frameSub [.tide, .act] [Reg.WINDOW_DEFERRALS] pl pk = true) (hs : OnlyIn pl pk os s) :
    OnlyIn pl pk os (State.windowRow s asked) := by
  unfold State.windowRow
  split
  · exact hs
  · have go : ∀ (l : List Nat) (a : List Edge × State), OnlyIn pl pk os a.2 →
        OnlyIn pl pk os (l.foldl (fun (acc : List Edge × State) i => (acc.1 ++ (acc.2.pwmAsk i).1, (acc.2.pwmAsk i).2)) a).2 := by
      intro l
      induction l with
      | nil => exact fun _ h => h
      | cons i l ih => exact fun a h => ih _ (pwmAsk_only _ _ (frameSub_trans (by decide) hl) h)
    have ha := go (List.range 8) ([], s) hs
    have h2 := fun k (hk : frameKey pl pk k = true) n (l : List Edge) => addSat_only _ k n hk
      (OnlyIn.foldl (xs := l) (f := State.applyGrant) ha fun t x ht => applyGrant_only _ _ (frameSub_trans (by decide) hl) ht)
    repeat' (with_reducible first
      | exact .inl (frameSub_mem hl (by decide)) | exact .inr rfl
      | exact h2 _ (frameKey_of hl (by decide)) _ _ | apply OnlyIn.of_mk)

theorem driverRow_only (s : State) (asked : List Edge) (hl : frameSub [.tide, .mains, .act] [Reg.HALF_PERIOD, Reg.MAINS_POLARITY, Reg.WINDOW_DEFERRALS] pl pk = true) (hs : OnlyIn pl pk os s) :
    OnlyIn pl pk os (State.driverRow s asked) := by
  unfold State.driverRow
  repeat' (with_reducible first
    | assumption | intro _ | exact frameSub_trans (by decide) hl | exact frameKey_of hl (by decide) | exact hk
    | apply analogueRow_only | apply mainsRow_only | apply windowRow_only | apply floatRow_only | apply fanRow_only
    | apply OnlyIn.foldl | extract_lets | dsimp +zetaDelta only)

theorem correctSlot_only (s : State) (i : RowIn) (hl : frameSub [.berth, .pipe, .cal] [Reg.COEF_LOST, Reg.LOST_ROWS] pl pk = true) (hs : OnlyIn pl pk os s) :
    OnlyIn pl pk os (State.correctSlot s i) := by
  unfold State.correctSlot
  repeat' (with_reducible first
    | assumption | intro _ | exact frameSub_trans (by decide) hl | exact frameKey_of hl (by decide) | exact hk
    | apply withPipe_only | apply cycleRow_only | apply incSat_only | apply addSat_only | apply OnlyIn.ite | extract_lets
    | split | refine OnlyIn.of_pair ?_ (by assumption) | exact .inl (frameSub_mem hl (by decide)) | exact .inr rfl
    | ((conv => arg 4; arg 27); apply OnlyIn.of_mk) | dsimp +zetaDelta only)

theorem convertSlot_only (s : State) (i : RowIn) (hl : frameSub [.log, .focal, .pipe, .cal, .freeCtr] [Reg.SPARE_SINGLE_MISMATCH, Reg.SPARE_SUBSTITUTIONS] pl pk = true) (hs : OnlyIn pl pk os s) :
    OnlyIn pl pk os (State.convertSlot s i) := by
  unfold State.convertSlot
  repeat' (with_reducible first
    | assumption | intro _ | exact frameSub_trans (by decide) hl | exact frameKey_of hl (by decide) | exact hk
    | apply withPipe_only | apply reportIntake_only | apply OnlyIn.ite | extract_lets | split
    | refine OnlyIn.of_pair ?_ (by assumption) | exact .inl (frameSub_mem hl (by decide)) | exact .inr rfl
    | ((conv => arg 4; arg 27); apply OnlyIn.of_mk) | dsimp +zetaDelta only)

theorem blankSlot_only (s : State) (hl : frameSub [.focal, .pipe] [Reg.BLOCK_A_CENTRE, Reg.BLOCK_B_CENTRE] pl pk = true) (hs : OnlyIn pl pk os s) :
    OnlyIn pl pk os (State.blankSlot s) := by
  unfold State.blankSlot
  repeat' (with_reducible first
    | assumption | intro _ | exact frameSub_trans (by decide) hl | exact frameKey_of hl (by decide) | exact hk
    | apply withPipe_only | apply latchConsts_only | apply setShutter_only | apply OnlyIn.ite | extract_lets | split
    | exact .inl (frameSub_mem hl (by decide)) | exact .inr rfl | ((conv => arg 4; arg 27); apply OnlyIn.of_mk)
    | dsimp +zetaDelta only)

theorem imageRow_only (s : State) (i : RowIn) (hl : frameSub [.log, .berth, .focal, .pipe, .cal, .freeCtr] [Reg.BLOCK_A_CENTRE, Reg.BLOCK_B_CENTRE, Reg.COEF_LOST, Reg.LOST_ROWS, Reg.SPARE_SINGLE_MISMATCH, Reg.SPARE_SUBSTITUTIONS] pl pk = true) (hs : OnlyIn pl pk os s) :
    OnlyIn pl pk os (State.imageRow s i) := by
  unfold State.imageRow
  repeat' (with_reducible first
    | assumption | intro _ | exact frameSub_trans (by decide) hl | exact frameKey_of hl (by decide) | exact hk
    | apply withPipe_only | apply correctSlot_only | apply convertSlot_only | apply blankSlot_only | extract_lets
    | exact .inl (frameSub_mem hl (by decide)) | exact .inr rfl | ((conv => arg 4; arg 27); apply OnlyIn.of_mk)
    | dsimp +zetaDelta only)

theorem darkArray_only (s : State) (hl : frameSub [.focal, .pipe] [Reg.IMAGER_ACTIVE] pl pk = true) (hs : OnlyIn pl pk os s) :
    OnlyIn pl pk os (State.darkArray s) := by
  unfold State.darkArray
  repeat' (with_reducible first
    | assumption | intro _ | exact frameSub_trans (by decide) hl | exact frameKey_of hl (by decide) | exact hk
    | apply setReg_only | extract_lets | exact .inl (frameSub_mem hl (by decide)) | exact .inr rfl
    | ((conv => arg 4; arg 27); apply OnlyIn.of_mk) | dsimp +zetaDelta only)

end Sys2Proof.Machine
end

