-- ==== Sys2Proof/Laws/FramesHmOps.lean ====
section
/-!
SUPPORT. What the operations of Machine/HmOps.lean change at most.
-/
namespace Sys2Proof.Machine

variable {pl : List Piece} {pk : List Nat} {os : State}

theorem withHm_only (s : State) (h : Hm) (hl : frameSub [.hm] [] pl pk = true) (hs : OnlyIn pl pk os s) :
    OnlyIn pl pk os (State.withHm s h) := by
  unfold State.withHm
  repeat' (with_reducible first
    | assumption | intro _ | exact frameSub_trans (by decide) hl | exact frameKey_of hl (by decide) | exact hk | extract_lets
    | exact .inl (frameSub_mem hl (by decide)) | exact .inr rfl | ((conv => arg 4; arg 27); apply OnlyIn.of_mk)
    | dsimp +zetaDelta only)

theorem withSlip_only (s : State) (p : SlipPart) (hl : frameSub [.slip] [] pl pk = true) (hs : OnlyIn pl pk os s) :
    OnlyIn pl pk os (State.withSlip s p) := by
  unfold State.withSlip
  repeat' (with_reducible first
    | assumption | intro _ | exact frameSub_trans (by decide) hl | exact frameKey_of hl (by decide) | exact hk | extract_lets
    | exact .inl (frameSub_mem hl (by decide)) | exact .inr rfl | ((conv => arg 4; arg 27); apply OnlyIn.of_mk)
    | dsimp +zetaDelta only)

theorem setQuay_only (s : State) (q : Quay) (u : QuayUnit) (hl : frameSub [.hm] [] pl pk = true) (hs : OnlyIn pl pk os s) :
    OnlyIn pl pk os (State.setQuay s q u) := by
  unfold State.setQuay
  repeat' (with_reducible first
    | assumption | intro _ | exact frameSub_trans (by decide) hl | exact frameKey_of hl (by decide) | exact hk
    | apply withHm_only | extract_lets | exact .inl (frameSub_mem hl (by decide)) | exact .inr rfl
    | ((conv => arg 4; arg 27); apply OnlyIn.of_mk) | dsimp +zetaDelta only)

theorem popFault_only (s : State) (which : FaultEntry → Bool) (outcome : Nat) (hl : frameSub [.hm] [] pl pk = true) (hs : OnlyIn pl pk os s) :
    OnlyIn pl pk os (State.popFault s which outcome) := by
  unfold State.popFault
  repeat' (with_reducible first
    | assumption | intro _ | exact frameSub_trans (by decide) hl | exact frameKey_of hl (by decide) | exact hk
    | apply withHm_only | apply hwhich | extract_lets | split | refine OnlyIn.of_pair ?_ (by assumption)
    | exact .inl (frameSub_mem hl (by decide)) | exact .inr rfl | ((conv => arg 4; arg 27); apply OnlyIn.of_mk)
    | dsimp +zetaDelta only)

theorem dropFault_only (s : State) (which : FaultEntry → Bool) (hl : frameSub [.hm] [] pl pk = true) (hs : OnlyIn pl pk os s) :
    OnlyIn pl pk os (State.dropFault s which) := by
  unfold State.dropFault
  repeat' (with_reducible first
    | assumption | intro _ | exact frameSub_trans (by decide) hl | exact frameKey_of hl (by decide) | exact hk
    | apply withHm_only | apply hwhich | extract_lets | split | refine OnlyIn.of_pair ?_ (by assumption)
    | exact .inl (frameSub_mem hl (by decide)) | exact .inr rfl | ((conv => arg 4; arg 27); apply OnlyIn.of_mk)
    | dsimp +zetaDelta only)

theorem pushEntry_only (s : State) (cause detail quay level : Nat) (hl : frameSub [.hm, .log] [] pl pk = true) (hs : OnlyIn pl pk os s) :
    OnlyIn pl pk os (State.pushEntry s cause detail quay level) := by
  unfold State.pushEntry
  repeat' (with_reducible first
    | assumption | intro _ | exact frameSub_trans (by decide) hl | exact frameKey_of hl (by decide) | exact hk
    | apply withHm_only | apply pushLog_only | extract_lets | exact .inl (frameSub_mem hl (by decide)) | exact .inr rfl
    | ((conv => arg 4; arg 27); apply OnlyIn.of_mk) | dsimp +zetaDelta only)

theorem recordEntry_only (s : State) (cause detail quay : Nat) (hl : frameSub [.hm, .log] [] pl pk = true) (hs : OnlyIn pl pk os s) :
    OnlyIn pl pk os (State.recordEntry s cause detail quay) := by
  unfold State.recordEntry
  repeat' (with_reducible first
    | assumption | intro _ | exact frameSub_trans (by decide) hl | exact frameKey_of hl (by decide) | exact hk
    | apply pushEntry_only | apply popFault_only | dsimp +zetaDelta only)

theorem reload_only (s : State) (q : Quay) (b : Bool) (hl : frameSub [.hm] [] pl pk = true) (hs : OnlyIn pl pk os s) :
    OnlyIn pl pk os (State.reload s q b) := by
  unfold State.reload
  repeat' (with_reducible first
    | assumption | intro _ | exact frameSub_trans (by decide) hl | exact frameKey_of hl (by decide) | exact hk
    | apply OnlyIn.ite | extract_lets | split | exact .inl (frameSub_mem hl (by decide)) | exact .inr rfl
    | ((conv => arg 4; arg 27); apply OnlyIn.of_mk) | dsimp +zetaDelta only)

theorem slipReject_only (s : State) (st : Status) (hl : frameSub [.klp, .log, .slip] [] pl pk = true) (hs : OnlyIn pl pk os s) :
    OnlyIn pl pk os (State.slipReject s st) := by
  unfold State.slipReject
  repeat' (with_reducible first
    | assumption | intro _ | exact frameSub_trans (by decide) hl | exact frameKey_of hl (by decide) | exact hk
    | apply withSlip_only | apply pushLog_only | apply raiseIrq_only | extract_lets | exact .inl (frameSub_mem hl (by decide))
    | exact .inr rfl | ((conv => arg 4; arg 27); apply OnlyIn.of_mk) | dsimp +zetaDelta only)

theorem slipAbandon_only (s : State) (hl : frameSub [.hm, .slip] [] pl pk = true) (hs : OnlyIn pl pk os s) :
    OnlyIn pl pk os (State.slipAbandon s) := by
  unfold State.slipAbandon
  repeat' (with_reducible first
    | assumption | intro _ | exact frameSub_trans (by decide) hl | exact frameKey_of hl (by decide) | exact hk
    | apply withSlip_only | apply reload_only | apply OnlyIn.ite | extract_lets | split
    | refine OnlyIn.of_pair ?_ (by assumption) | exact .inl (frameSub_mem hl (by decide)) | exact .inr rfl
    | ((conv => arg 4; arg 27); apply OnlyIn.of_mk) | dsimp +zetaDelta only)

theorem slipStorm_only (s : State) (hl : frameSub [.hm, .klp, .log, .slip] [] pl pk = true) (hs : OnlyIn pl pk os s) :
    OnlyIn pl pk os (State.slipStorm s) := by
  unfold State.slipStorm
  repeat' (with_reducible first
    | assumption | intro _ | exact frameSub_trans (by decide) hl | exact frameKey_of hl (by decide) | exact hk
    | apply slipAbandon_only | apply slipReject_only | apply OnlyIn.ite | split | exact .inl (frameSub_mem hl (by decide))
    | exact .inr rfl | ((conv => arg 4; arg 27); apply OnlyIn.of_mk) | dsimp +zetaDelta only)

theorem slipRollback_only (s : State) (reason : Nat) (hl : frameSub [.klp, .log, .slip] [] pl pk = true) (hs : OnlyIn pl pk os s) :
    OnlyIn pl pk os (State.slipRollback s reason) := by
  unfold State.slipRollback
  repeat' (with_reducible first
    | assumption | intro _ | exact frameSub_trans (by decide) hl | exact frameKey_of hl (by decide) | exact hk
    | apply withSlip_only | apply pushLog_only | apply raiseIrq_only | apply OnlyIn.ite | extract_lets | split
    | exact .inl (frameSub_mem hl (by decide)) | exact .inr rfl | ((conv => arg 4; arg 27); apply OnlyIn.of_mk)
    | dsimp +zetaDelta only)

theorem slipFault_only (s : State) (q : Quay) (hl : frameSub [.klp, .log, .slip] [] pl pk = true) (hs : OnlyIn pl pk os s) :
    OnlyIn pl pk os (State.slipFault s q) := by
  unfold State.slipFault
  repeat' (with_reducible first
    | assumption | intro _ | exact frameSub_trans (by decide) hl | exact frameKey_of hl (by decide) | exact hk
    | apply slipRollback_only | apply withSlip_only | apply OnlyIn.ite | extract_lets | split
    | exact .inl (frameSub_mem hl (by decide)) | exact .inr rfl | ((conv => arg 4; arg 27); apply OnlyIn.of_mk)
    | dsimp +zetaDelta only)

theorem leaveRc_only (s : State) (q : Quay) (hl : frameSub [.tide] [] pl pk = true) (hs : OnlyIn pl pk os s) :
    OnlyIn pl pk os (State.leaveRc s q) := by
  unfold State.leaveRc
  repeat' (with_reducible first
    | assumption | intro _ | exact frameSub_trans (by decide) hl | exact frameKey_of hl (by decide) | exact hk
    | apply OnlyIn.ite | extract_lets | split | exact .inl (frameSub_mem hl (by decide)) | exact .inr rfl
    | ((conv => arg 4; arg 27); apply OnlyIn.of_mk) | dsimp +zetaDelta only)

theorem revoke_only (s : State) (q : Quay) (hl : frameSub [.hm] [] pl pk = true) (hs : OnlyIn pl pk os s) :
    OnlyIn pl pk os (State.revoke s q) := by
  unfold State.revoke
  repeat' (with_reducible first
    | assumption | intro _ | exact frameSub_trans (by decide) hl | exact frameKey_of hl (by decide) | exact hk
    | apply withHm_only | apply OnlyIn.ite | extract_lets | split | exact .inl (frameSub_mem hl (by decide)) | exact .inr rfl
    | ((conv => arg 4; arg 27); apply OnlyIn.of_mk) | dsimp +zetaDelta only)

theorem quayDown_only (s : State) (q : Quay) (hl : frameSub [.tide, .hm, .klp, .log, .slip] [] pl pk = true) (hs : OnlyIn pl pk os s) :
    OnlyIn pl pk os (State.quayDown s q) := by
  unfold State.quayDown
  repeat' (with_reducible first
    | assumption | intro _ | exact frameSub_trans (by decide) hl | exact frameKey_of hl (by decide) | exact hk
    | apply slipFault_only | apply revoke_only | apply setQuay_only | apply reload_only | apply leaveRc_only | extract_lets
    | exact .inl (frameSub_mem hl (by decide)) | exact .inr rfl | ((conv => arg 4; arg 27); apply OnlyIn.of_mk)
    | dsimp +zetaDelta only)

theorem grantToken_only (s : State) (q : Quay) (hl : frameSub [.hm, .pwr] [Reg.OWNER_MS] pl pk = true) (hs : OnlyIn pl pk os s) :
    OnlyIn pl pk os (State.grantToken s q) := by
  unfold State.grantToken
  repeat' (with_reducible first
    | assumption | intro _ | exact frameSub_trans (by decide) hl | exact frameKey_of hl (by decide) | exact hk
    | apply setQuay_only | apply withHm_only | apply setReg_only | apply OnlyIn.ite | extract_lets | split
    | exact .inl (frameSub_mem hl (by decide)) | exact .inr rfl | ((conv => arg 4; arg 27); apply OnlyIn.of_mk)
    | dsimp +zetaDelta only)

theorem releaseHeld_only (s : State) (q : Quay) (hl : frameSub [.hm] [] pl pk = true) (hs : OnlyIn pl pk os s) :
    OnlyIn pl pk os (State.releaseHeld s q) := by
  unfold State.releaseHeld
  repeat' (with_reducible first
    | assumption | intro _ | exact frameSub_trans (by decide) hl | exact frameKey_of hl (by decide) | exact hk
    | apply setQuay_only | apply OnlyIn.ite | extract_lets | split | exact .inl (frameSub_mem hl (by decide)) | exact .inr rfl
    | ((conv => arg 4; arg 27); apply OnlyIn.of_mk) | dsimp +zetaDelta only)

theorem goOut_only (s : State) (q : Quay) (hl : frameSub [.tide, .hm, .klp, .bus, .pwr] [Reg.OWNER_MS] pl pk = true) (hs : OnlyIn pl pk os s) :
    OnlyIn pl pk os (State.goOut s q) := by
  unfold State.goOut
  repeat' (with_reducible first
    | assumption | intro _ | exact frameSub_trans (by decide) hl | exact frameKey_of hl (by decide) | exact hk
    | apply revoke_only | apply setQuay_only | apply withHm_only | apply leaveRc_only | apply alarmOf_only
    | apply grantToken_only | apply OnlyIn.ite | extract_lets | split | exact .inl (frameSub_mem hl (by decide))
    | exact .inr rfl | ((conv => arg 4; arg 27); apply OnlyIn.of_mk) | dsimp +zetaDelta only)

theorem writeSalvage_only (s : State) (writer trigger : Nat) (hl : frameSub [.hm, .nv, .log] [Reg.SALVAGE_SUPPRESSED] pl pk = true) (hs : OnlyIn pl pk os s) :
    OnlyIn pl pk os (State.writeSalvage s writer trigger) := by
  unfold State.writeSalvage
  repeat' (with_reducible first
    | assumption | intro _ | exact frameSub_trans (by decide) hl | exact frameKey_of hl (by decide) | exact hk
    | apply countTally_only | apply withHm_only | apply incSat_only | apply pushLog_only | apply OnlyIn.ite | extract_lets
    | split | exact .inl (frameSub_mem hl (by decide)) | exact .inr rfl | ((conv => arg 4; arg 27); apply OnlyIn.of_mk)
    | dsimp +zetaDelta only)

theorem stormQueues_only (s : State) (hl : frameSub [.bus] [] pl pk = true) (hs : OnlyIn pl pk os s) :
    OnlyIn pl pk os (State.stormQueues s) := by
  unfold State.stormQueues
  repeat' (with_reducible first
    | assumption | intro _ | exact frameSub_trans (by decide) hl | exact frameKey_of hl (by decide) | exact hk
    | apply setChan_only | apply OnlyIn.foldl | dsimp +zetaDelta only)

theorem stormNets_only (s : State) (hl : frameSub [.klp, .bus] [] pl pk = true) (hs : OnlyIn pl pk os s) :
    OnlyIn pl pk os (State.stormNets s) := by
  unfold State.stormNets
  repeat' (with_reducible first
    | assumption | intro _ | exact frameSub_trans (by decide) hl | exact frameKey_of hl (by decide) | exact hk
    | apply setChan_only | apply OnlyIn.foldl | extract_lets | exact .inl (frameSub_mem hl (by decide)) | exact .inr rfl
    | ((conv => arg 4; arg 27); apply OnlyIn.of_mk) | dsimp +zetaDelta only)

theorem stormToken_only (s : State) (manual : Bool) (bad : Option Quay) (hl : frameSub [.hm] [] pl pk = true) (hs : OnlyIn pl pk os s) :
    OnlyIn pl pk os (State.stormToken s manual bad) := by
  unfold State.stormToken
  repeat' (with_reducible first
    | assumption | intro _ | exact frameSub_trans (by decide) hl | exact frameKey_of hl (by decide) | exact hk
    | apply popFault_only | apply withHm_only | apply OnlyIn.ite | extract_lets | split
    | exact .inl (frameSub_mem hl (by decide)) | exact .inr rfl | ((conv => arg 4; arg 27); apply OnlyIn.of_mk)
    | dsimp +zetaDelta only)

theorem stormOutputs_only (s : State) (hl : frameSub [.klp, .bus, .loop, .act, .freeCtr] [Reg.STORM_ENTRIES, Reg.TABLE_TAKEOVERS] pl pk = true) (hs : OnlyIn pl pk os s) :
    OnlyIn pl pk os (State.stormOutputs s) := by
  unfold State.stormOutputs
  repeat' (with_reducible first
    | assumption | intro _ | exact frameSub_trans (by decide) hl | exact frameKey_of hl (by decide) | exact hk
    | apply countUp_only | apply applyStorms_only | apply stormQueues_only | apply stormNets_only | apply engineHolds_only | dsimp +zetaDelta only)

theorem stormReport_only (s : State) (cause : Nat) (hl : frameSub [.klp, .log, .bus, .panel] [] pl pk = true) (hs : OnlyIn pl pk os s) :
    OnlyIn pl pk os (State.stormReport s cause) := by
  unfold State.stormReport
  repeat' (with_reducible first
    | assumption | intro _ | exact frameSub_trans (by decide) hl | exact frameKey_of hl (by decide) | exact hk
    | apply pushLog_only | apply raiseIrq_only | apply alarmOf_only | extract_lets | exact .inl (frameSub_mem hl (by decide))
    | exact .inr rfl | ((conv => arg 4; arg 27); apply OnlyIn.of_mk) | dsimp +zetaDelta only)

theorem reloadRunning_only (s : State) (q : Quay) (hl : frameSub [.hm] [] pl pk = true) (hs : OnlyIn pl pk os s) :
    OnlyIn pl pk os (State.reloadRunning s q) := by
  unfold State.reloadRunning
  repeat' (with_reducible first
    | assumption | intro _ | exact frameSub_trans (by decide) hl | exact frameKey_of hl (by decide) | exact hk
    | apply reload_only | apply OnlyIn.ite | split | dsimp +zetaDelta only)

theorem stormSlip_only (s : State) (hl : frameSub [.hm, .klp, .log, .slip] [] pl pk = true) (hs : OnlyIn pl pk os s) :
    OnlyIn pl pk os (State.stormSlip s) := by
  unfold State.stormSlip
  repeat' (with_reducible first
    | assumption | intro _ | exact frameSub_trans (by decide) hl | exact frameKey_of hl (by decide) | exact hk
    | apply slipRollback_only | apply reloadRunning_only | apply slipStorm_only | apply OnlyIn.ite | split
    | dsimp +zetaDelta only)

theorem enterStorm_only (s : State) (cause : Nat) (bad : Option Quay) (hl : frameSub [.hm, .klp, .nv, .log, .bus, .loop, .act, .panel, .slip, .freeCtr] [Reg.SALVAGE_SUPPRESSED, Reg.STORM_ENTRIES, Reg.TABLE_TAKEOVERS] pl pk = true) (hs : OnlyIn pl pk os s) :
    OnlyIn pl pk os (State.enterStorm s cause bad) := by
  unfold State.enterStorm
  repeat' (with_reducible first
    | assumption | intro _ | exact frameSub_trans (by decide) hl | exact frameKey_of hl (by decide) | exact hk
    | apply stormToken_only | apply stormOutputs_only | apply stormReport_only | apply stormSlip_only | apply writeSalvage_only
    | apply OnlyIn.ite | split | dsimp +zetaDelta only)

theorem leaveStorm_only (s : State) (how : Nat) (hl : frameSub [.hm, .klp, .log, .bus, .loop, .panel] [Reg.TABLE_TAKEOVERS] pl pk = true) (hs : OnlyIn pl pk os s) :
    OnlyIn pl pk os (State.leaveStorm s how) := by
  unfold State.leaveStorm
  repeat' (with_reducible first
    | assumption | intro _ | exact frameSub_trans (by decide) hl | exact frameKey_of hl (by decide) | exact hk
    | apply withHm_only | apply setChan_only | apply noteAutonomous_only | apply engineHolds_only | apply pushLog_only | apply raiseIrq_only
    | apply alarmOf_only | apply OnlyIn.ite | extract_lets | split | refine OnlyIn.of_pair ?_ (by assumption)
    | exact .inl (frameSub_mem hl (by decide)) | exact .inr rfl | ((conv => arg 4; arg 27); apply OnlyIn.of_mk)
    | dsimp +zetaDelta only)

theorem stackOverflow_only (s : State) (bad : Option Quay) (hl : frameSub [.hm, .klp, .nv, .log, .bus, .loop, .act, .panel, .slip, .freeCtr] [Reg.SALVAGE_SUPPRESSED, Reg.STACK_OVERFLOWS, Reg.STORM_ENTRIES, Reg.TABLE_TAKEOVERS] pl pk = true) (hs : OnlyIn pl pk os s) :
    OnlyIn pl pk os (State.stackOverflow s bad) := by
  unfold State.stackOverflow
  repeat' (with_reducible first
    | assumption | intro _ | exact frameSub_trans (by decide) hl | exact frameKey_of hl (by decide) | exact hk
    | apply incSat_only | apply enterStorm_only | dsimp +zetaDelta only)

theorem recordFault_only (s : State) (cause detail : Nat) (q : Option Quay) (hl : frameSub [.hm, .klp, .nv, .log, .bus, .loop, .act, .panel, .slip, .freeCtr] [Reg.SALVAGE_SUPPRESSED, Reg.STACK_OVERFLOWS, Reg.STORM_ENTRIES, Reg.TABLE_TAKEOVERS] pl pk = true) (hs : OnlyIn pl pk os s) :
    OnlyIn pl pk os (State.recordFault s cause detail q) := by
  unfold State.recordFault
  repeat' (with_reducible first
    | assumption | intro _ | exact frameSub_trans (by decide) hl | exact frameKey_of hl (by decide) | exact hk
    | apply stackOverflow_only | apply recordEntry_only | apply OnlyIn.ite | split | dsimp +zetaDelta only)

theorem stormFault_only (s : State) (cause : Nat) (bad : Option Quay) (hl : frameSub [.hm, .klp, .nv, .log, .bus, .loop, .act, .panel, .slip, .freeCtr] [Reg.SALVAGE_SUPPRESSED, Reg.STACK_OVERFLOWS, Reg.STORM_ENTRIES, Reg.TABLE_TAKEOVERS] pl pk = true) (hs : OnlyIn pl pk os s) :
    OnlyIn pl pk os (State.stormFault s cause bad) := by
  unfold State.stormFault
  repeat' (with_reducible first
    | assumption | intro _ | exact frameSub_trans (by decide) hl | exact frameKey_of hl (by decide) | exact hk
    | apply stackOverflow_only | apply pushEntry_only | apply enterStorm_only | apply popFault_only | apply OnlyIn.ite
    | extract_lets | split | dsimp +zetaDelta only)

theorem endTransfers_only (s : State) (p : Transfer → Bool) (hl : frameSub [.klp, .cal, .slip] [] pl pk = true) (hs : OnlyIn pl pk os s) :
    OnlyIn pl pk os (State.endTransfers s p) := by
  unfold State.endTransfers
  repeat' (with_reducible first
    | assumption | intro _ | exact frameSub_trans (by decide) hl | exact frameKey_of hl (by decide) | exact hk
    | apply OnlyIn.ite | apply hp | extract_lets | split | exact .inl (frameSub_mem hl (by decide)) | exact .inr rfl
    | ((conv => arg 4; arg 27); apply OnlyIn.of_mk) | dsimp +zetaDelta only)

theorem failover_only (s : State) (q : Quay) (cause start : Nat) (hl : frameSub [.tide, .hm, .klp, .nv, .log, .cal, .slip, .freeCtr] [Reg.FAILOVERS] pl pk = true) (hs : OnlyIn pl pk os s) :
    OnlyIn pl pk os (State.failover s q cause start) := by
  unfold State.failover
  repeat' (with_reducible first
    | assumption | intro _ | exact frameSub_trans (by decide) hl | exact frameKey_of hl (by decide) | exact hk
    | apply quayDown_only | apply setQuay_only | apply withHm_only | apply countUp_only | apply countTally_only
    | apply endTransfers_only | apply pushLog_only | apply raiseIrq_only | extract_lets
    | exact .inl (frameSub_mem hl (by decide)) | exact .inr rfl | ((conv => arg 4; arg 27); apply OnlyIn.of_mk)
    | dsimp +zetaDelta only)

theorem quayFault_only (s : State) (q : Quay) (cause detail start : Nat) (hl : frameSub [.tide, .hm, .klp, .nv, .log, .bus, .loop, .act, .cal, .panel, .slip, .freeCtr] [Reg.FAILOVERS, Reg.SALVAGE_SUPPRESSED, Reg.STACK_OVERFLOWS, Reg.STORM_ENTRIES, Reg.TABLE_TAKEOVERS] pl pk = true) (hs : OnlyIn pl pk os s) :
    OnlyIn pl pk os (State.quayFault s q cause detail start) := by
  unfold State.quayFault
  repeat' (with_reducible first
    | assumption | intro _ | exact frameSub_trans (by decide) hl | exact frameKey_of hl (by decide) | exact hk
    | apply incSat_only | apply quayDown_only | apply enterStorm_only | apply pushEntry_only | apply popFault_only
    | apply failover_only | apply OnlyIn.ite | extract_lets | split | dsimp +zetaDelta only)

theorem restoreCheckpoint_only (s : State) (c : Option Checkpoint) (hl : frameSub [.loop] [] pl pk = true) (hs : OnlyIn pl pk os s) :
    OnlyIn pl pk os (State.restoreCheckpoint s c) := by
  unfold State.restoreCheckpoint
  repeat' (with_reducible first
    | assumption | intro _ | exact frameSub_trans (by decide) hl | exact frameKey_of hl (by decide) | exact hk | extract_lets
    | split | refine OnlyIn.of_pair ?_ (by assumption) | exact .inl (frameSub_mem hl (by decide)) | exact .inr rfl
    | ((conv => arg 4; arg 27); apply OnlyIn.of_mk) | dsimp +zetaDelta only)

theorem afterSwap_only (s : State) (q : Quay) (hl : frameSub [.hm] [] pl pk = true) (hs : OnlyIn pl pk os s) :
    OnlyIn pl pk os (State.afterSwap s q) := by
  unfold State.afterSwap
  repeat' (with_reducible first
    | assumption | intro _ | exact frameSub_trans (by decide) hl | exact frameKey_of hl (by decide) | exact hk
    | apply setQuay_only | apply reload_only | apply OnlyIn.ite | extract_lets | split
    | exact .inl (frameSub_mem hl (by decide)) | exact .inr rfl | ((conv => arg 4; arg 27); apply OnlyIn.of_mk)
    | dsimp +zetaDelta only)

theorem moveToken_only (s : State) (dest : Quay) (fresh : Bool) (hl : frameSub [.hm, .log, .loop, .slip] [] pl pk = true) (hs : OnlyIn pl pk os s) :
    OnlyIn pl pk os (State.moveToken s dest fresh) := by
  unfold State.moveToken
  repeat' (with_reducible first
    | assumption | intro _ | exact frameSub_trans (by decide) hl | exact frameKey_of hl (by decide) | exact hk
    | apply setQuay_only | apply withHm_only | apply withSlip_only | apply pushLog_only | apply afterSwap_only
    | apply OnlyIn.ite | extract_lets | split | exact .inl (frameSub_mem hl (by decide)) | exact .inr rfl
    | ((conv => arg 4; arg 27); apply OnlyIn.of_mk) | dsimp +zetaDelta only)

theorem beginSwap_only (s : State) (dest : Quay) (hl : frameSub [.hm] [] pl pk = true) (hs : OnlyIn pl pk os s) :
    OnlyIn pl pk os (State.beginSwap s dest) := by
  unfold State.beginSwap
  repeat' (with_reducible first
    | assumption | intro _ | exact frameSub_trans (by decide) hl | exact frameKey_of hl (by decide) | exact hk
    | apply withHm_only | extract_lets | exact .inl (frameSub_mem hl (by decide)) | exact .inr rfl
    | ((conv => arg 4; arg 27); apply OnlyIn.of_mk) | dsimp +zetaDelta only)

theorem reachStandby_only (s : State) (q : Quay) (hl : frameSub [.hm, .log] [] pl pk = true) (hs : OnlyIn pl pk os s) :
    OnlyIn pl pk os (State.reachStandby s q) := by
  unfold State.reachStandby
  repeat' (with_reducible first
    | assumption | intro _ | exact frameSub_trans (by decide) hl | exact frameKey_of hl (by decide) | exact hk
    | apply setQuay_only | apply withHm_only | apply pushLog_only | apply beginSwap_only | apply OnlyIn.ite | extract_lets
    | split | exact .inl (frameSub_mem hl (by decide)) | exact .inr rfl | ((conv => arg 4; arg 27); apply OnlyIn.of_mk)
    | dsimp +zetaDelta only)

theorem countAsSwap_only (s : State) (dest : Quay) (hl : frameSub [.log, .slip] [] pl pk = true) (hs : OnlyIn pl pk os s) :
    OnlyIn pl pk os (State.countAsSwap s dest) := by
  unfold State.countAsSwap
  repeat' (with_reducible first
    | assumption | intro _ | exact frameSub_trans (by decide) hl | exact frameKey_of hl (by decide) | exact hk
    | apply withSlip_only | apply pushLog_only | apply OnlyIn.ite | extract_lets | split
    | exact .inl (frameSub_mem hl (by decide)) | exact .inr rfl | ((conv => arg 4; arg 27); apply OnlyIn.of_mk)
    | dsimp +zetaDelta only)

end Sys2Proof.Machine
end

