-- ==== Sys2Proof/Laws/FramesEccOps.lean ====
section
/-!
SUPPORT. What the operations of Machine/EccOps.lean change at most.
-/
namespace Sys2Proof.Machine

variable {pl : List Piece} {pk : List Nat} {os : State}

theorem memAlarm_only (s : State) (value : Nat) (hl : frameSub [.klp, .bus] [] pl pk = true) (hs : OnlyIn pl pk os s) :
    OnlyIn pl pk os (State.memAlarm s value) := by
  unfold State.memAlarm
  repeat' (with_reducible first
    | assumption | intro _ | exact frameSub_trans (by decide) hl | exact frameKey_of hl (by decide) | exact hk
    | apply alarmOf_only | dsimp +zetaDelta only)

theorem markMemory_only (s : State) (m : Nat) (hl : frameSub [] [Reg.ECC_SUMMARY] pl pk = true) (hs : OnlyIn pl pk os s) :
    OnlyIn pl pk os (State.markMemory s m) := by
  unfold State.markMemory
  repeat' (with_reducible first
    | assumption | intro _ | exact frameSub_trans (by decide) hl | exact frameKey_of hl (by decide) | exact hk
    | apply putBit_only | dsimp +zetaDelta only)

theorem uncorrectable_only (s : State) (m addr kind : Nat) (hl : frameSub [.regs, .klp, .nv, .log, .bus] [] pl pk = true) (hs : OnlyIn pl pk os s) :
    OnlyIn pl pk os (State.uncorrectable s m addr kind) := by
  unfold State.uncorrectable
  repeat' (with_reducible first
    | assumption | intro _ | exact frameSub_trans (by decide) hl | exact frameKey_of hl (by decide) | exact hk
    | exact frameKey_regs (frameSub_mem hl (by decide)) | apply incSat_only | apply setReg_only | apply markMemory_only
    | apply pushLog_only | apply memAlarm_only | apply OnlyIn.ite | extract_lets | split
    | exact .inl (frameSub_mem hl (by decide)) | exact .inr rfl | ((conv => arg 4; arg 27); apply OnlyIn.of_mk)
    | dsimp +zetaDelta only)

theorem correctedWord_only (s : State) (m addr : Nat) (hl : frameSub [.regs, .klp, .log, .bus, .freeCtr] [] pl pk = true) (hs : OnlyIn pl pk os s) :
    OnlyIn pl pk os (State.correctedWord s m addr) := by
  unfold State.correctedWord
  repeat' (with_reducible first
    | assumption | intro _ | exact frameSub_trans (by decide) hl | exact frameKey_of hl (by decide) | exact hk
    | exact frameKey_regs (frameSub_mem hl (by decide)) | apply incSat_only | apply setReg_only | apply countUp_only
    | apply markMemory_only | apply pushLog_only | apply memAlarm_only | apply OnlyIn.ite | extract_lets | split
    | dsimp +zetaDelta only)

theorem writeback_only (s : State) (m : Nat) (dropped : Bool) (hl : frameSub [.regs] [] pl pk = true) (hs : OnlyIn pl pk os s) :
    OnlyIn pl pk os (State.writeback s m dropped) := by
  unfold State.writeback
  repeat' (with_reducible first
    | assumption | intro _ | exact frameSub_trans (by decide) hl | exact frameKey_of hl (by decide) | exact hk
    | exact frameKey_regs (frameSub_mem hl (by decide)) | apply incSat_only | apply OnlyIn.ite | split | dsimp +zetaDelta only)

theorem scrubHit_only (s : State) (h : Scrub) (hl : frameSub [.regs, .klp, .nv, .log, .bus, .freeCtr] [] pl pk = true) (hs : OnlyIn pl pk os s) :
    OnlyIn pl pk os (State.scrubHit s h) := by
  unfold State.scrubHit
  repeat' (with_reducible first
    | assumption | intro _ | exact frameSub_trans (by decide) hl | exact frameKey_of hl (by decide) | exact hk
    | exact frameKey_regs (frameSub_mem hl (by decide)) | apply correctedWord_only | apply writeback_only | apply incSat_only
    | apply uncorrectable_only | apply OnlyIn.ite | extract_lets | split | refine OnlyIn.of_pair ?_ (by assumption)
    | exact .inl (frameSub_mem hl (by decide)) | exact .inr rfl | ((conv => arg 4; arg 27); apply OnlyIn.of_mk)
    | dsimp +zetaDelta only)

theorem lapDone_only (s : State) (p : Nat × Nat) (hl : frameSub [.regs] [] pl pk = true) (hs : OnlyIn pl pk os s) :
    OnlyIn pl pk os (State.lapDone s p) := by
  unfold State.lapDone
  repeat' (with_reducible first
    | assumption | intro _ | exact frameSub_trans (by decide) hl | exact frameKey_of hl (by decide) | exact hk
    | exact frameKey_regs (frameSub_mem hl (by decide)) | apply setReg_only | apply OnlyIn.ite | split | dsimp +zetaDelta only)

theorem leakBucket_only (s : State) (m : Nat) (hl : frameSub [.regs] [] pl pk = true) (hs : OnlyIn pl pk os s) :
    OnlyIn pl pk os (State.leakBucket s m) := by
  unfold State.leakBucket
  repeat' (with_reducible first
    | assumption | intro _ | exact frameSub_trans (by decide) hl | exact frameKey_of hl (by decide) | exact hk
    | exact frameKey_regs (frameSub_mem hl (by decide)) | apply setReg_only | dsimp +zetaDelta only)

end Sys2Proof.Machine
end

