-- ==== Sys2Proof/Laws/FramesNvOps.lean ====
section
/-!
SUPPORT. What the operations of Machine/NvOps.lean change at most.
-/
namespace Sys2Proof.Machine

variable {pl : List Piece} {pk : List Nat} {os : State}

theorem withNv_only (s : State) (n : Nv) (hl : frameSub [.nv] [] pl pk = true) (hw : pl.contains .window = true ∨ n.win = s.nv.win)
    (hs : OnlyIn pl pk os s) : OnlyIn pl pk os (State.withNv s n) := by
  unfold State.withNv
  repeat' (with_reducible first | assumption | exact .inl (frameSub_mem hl (by decide)) | exact .inr rfl | apply OnlyIn.of_mk)

theorem spiOutput_only (s : State) (l : List Nat) (hl : frameSub [.klp] [] pl pk = true) (hs : OnlyIn pl pk os s) :
    OnlyIn pl pk os (State.spiOutput s l) := by
  unfold State.spiOutput
  repeat' (with_reducible first
    | assumption | intro _ | exact frameSub_trans (by decide) hl | exact frameKey_of hl (by decide) | exact hk | extract_lets
    | exact .inl (frameSub_mem hl (by decide)) | exact .inr rfl | ((conv => arg 4; arg 27); apply OnlyIn.of_mk)
    | dsimp +zetaDelta only)

theorem windowUe_only (s : State) (word : Nat) (hl : frameSub [.regs, .klp, .nv, .log, .bus] [] pl pk = true) (hs : OnlyIn pl pk os s) :
    OnlyIn pl pk os (State.windowUe s word) := by
  unfold State.windowUe
  repeat' (with_reducible first
    | assumption | intro _ | exact frameSub_trans (by decide) hl | exact frameKey_of hl (by decide) | exact hk
    | exact frameKey_regs (frameSub_mem hl (by decide)) | apply withNv_only | apply uncorrectable_only | extract_lets
    | exact .inl (frameSub_mem hl (by decide)) | exact .inr rfl | ((conv => arg 4; arg 27); apply OnlyIn.of_mk)
    | dsimp +zetaDelta only)

theorem closeWord_only (s : State) (word : Nat) (got : List (Nat × Nat)) (hl : frameSub [.regs, .klp, .nv, .window, .log, .bus] [] pl pk = true) (hs : OnlyIn pl pk os s) :
    OnlyIn pl pk os (State.closeWord s word got) := by
  unfold State.closeWord
  repeat' (with_reducible first
    | assumption | intro _ | exact frameSub_trans (by decide) hl | exact frameKey_of hl (by decide) | exact hk
    | exact frameKey_regs (frameSub_mem hl (by decide)) | apply incSat_only | apply windowUe_only | apply withNv_only
    | apply OnlyIn.foldl | apply OnlyIn.ite | extract_lets | split | exact .inl (frameSub_mem hl (by decide)) | exact .inr rfl
    | ((conv => arg 4; arg 27); apply OnlyIn.of_mk) | dsimp +zetaDelta only)

theorem closeOpen_only (s : State) (hl : frameSub [.regs, .klp, .nv, .window, .log, .bus] [] pl pk = true) (hs : OnlyIn pl pk os s) :
    OnlyIn pl pk os (State.closeOpen s) := by
  unfold State.closeOpen
  repeat' (with_reducible first
    | assumption | intro _ | exact frameSub_trans (by decide) hl | exact frameKey_of hl (by decide) | exact hk
    | exact frameKey_regs (frameSub_mem hl (by decide)) | apply closeWord_only | extract_lets | split
    | refine OnlyIn.of_pair ?_ (by assumption) | exact .inl (frameSub_mem hl (by decide)) | exact .inr rfl
    | ((conv => arg 4; arg 27); apply OnlyIn.of_mk) | dsimp +zetaDelta only)

theorem writeBytes_only (s : State) (cont : Bool) (a : Nat) (l : List Nat) (hl : frameSub [.regs, .klp, .nv, .window, .log, .bus] [] pl pk = true) (hs : OnlyIn pl pk os s) :
    OnlyIn pl pk os (State.writeBytes s cont a l) := by
  induction l generalizing s a with
  | nil => exact hs
  | cons b t ih =>
    unfold State.writeBytes
    extract_lets s1 got nv1 s2 s3
    have h1 : OnlyIn pl pk os s1 := by
      unfold s1
      split
      · exact OnlyIn.ite hs (closeOpen_only _ hl hs)
      · exact hs
    have h2 : OnlyIn pl pk os s2 := withNv_only _ _ (frameSub_trans (by decide) hl) (.inr rfl) h1
    exact ih _ _ (OnlyIn.ite (closeOpen_only _ hl h2) h2)

theorem readBytes_only (s : State) (addr n : Nat) (hl : frameSub [.regs, .klp, .nv, .log, .bus] [] pl pk = true) (hs : OnlyIn pl pk os s) :
    OnlyIn pl pk os (State.readBytes s addr n).2 := by
  unfold State.readBytes
  repeat' (with_reducible first
    | assumption | intro _ | exact frameSub_trans (by decide) hl | exact frameKey_of hl (by decide) | exact hk
    | exact frameKey_regs (frameSub_mem hl (by decide)) | apply windowUe_only | apply OnlyIn.foldl | apply OnlyIn.ite
    | extract_lets | split | dsimp +zetaDelta only)

theorem loadStored_only (s : State) (hl : frameSub [.regs, .nv, .log] [] pl pk = true) (hs : OnlyIn pl pk os s) : OnlyIn pl pk os (State.loadStored s) := by
  unfold State.loadStored
  extract_lets one nv0 n a newest skipped regs s1
  have h1 : OnlyIn pl pk os s1 := by
    have := OnlyIn.setRegs (m := regs) (frameSub_mem hl (by decide)) hs
    refine OnlyIn.of_mk this ?_ ?_ ?_ ?_ ?_ ?_ ?_ ?_ ?_ ?_ ?_ ?_ ?_ ?_ ?_ ?_ ?_ ?_ ?_ ?_ ?_ ?_ ?_ ?_ ?_ ?_ <;>
      first | exact .inl (frameSub_mem hl (by decide)) | exact .inr rfl
  clear_value s1
  split
  · exact pushLog_only _ _ _ (frameSub_trans (by decide) hl) h1
  · exact h1

theorem quickSave_only (s : State) (us : Nat) (hl : frameSub [.nv] [] pl pk = true) (hs : OnlyIn pl pk os s) :
    OnlyIn pl pk os (State.quickSave s us) := by
  unfold State.quickSave
  repeat' (with_reducible first
    | assumption | intro _ | exact frameSub_trans (by decide) hl | exact frameKey_of hl (by decide) | exact hk
    | apply withNv_only | apply OnlyIn.ite | extract_lets | split | exact .inl (frameSub_mem hl (by decide)) | exact .inr rfl
    | ((conv => arg 4; arg 27); apply OnlyIn.of_mk) | dsimp +zetaDelta only)

theorem checkTally_only (s : State) (t : Nat) (hl : frameSub [.regs, .klp, .nv, .log, .bus] [] pl pk = true) (hs : OnlyIn pl pk os s) :
    OnlyIn pl pk os (State.checkTally s t) := by
  unfold State.checkTally
  repeat' (with_reducible first
    | assumption | intro _ | exact frameSub_trans (by decide) hl | exact frameKey_of hl (by decide) | exact hk
    | exact frameKey_regs (frameSub_mem hl (by decide)) | apply withNv_only | apply setReg_only | apply uncorrectable_only
    | apply OnlyIn.ite | extract_lets | split | refine OnlyIn.of_pair ?_ (by assumption)
    | exact .inl (frameSub_mem hl (by decide)) | exact .inr rfl | ((conv => arg 4; arg 27); apply OnlyIn.of_mk)
    | dsimp +zetaDelta only)

end Sys2Proof.Machine
end

