-- ==== Sys2Proof/Laws/FramesLogOps.lean ====
section
/-!
SUPPORT. What the operations of Machine/LogOps.lean change at most.
-/
namespace Sys2Proof.Machine

variable {pl : List Piece} {pk : List Nat} {os : State}

theorem withLog_only (s : State) (l : Log) (hl : frameSub [.log] [] pl pk = true) (hs : OnlyIn pl pk os s) :
    OnlyIn pl pk os (State.withLog s l) := by
  unfold State.withLog
  repeat' (with_reducible first
    | assumption | intro _ | exact frameSub_trans (by decide) hl | exact frameKey_of hl (by decide) | exact hk | extract_lets
    | exact .inl (frameSub_mem hl (by decide)) | exact .inr rfl | ((conv => arg 4; arg 27); apply OnlyIn.of_mk)
    | dsimp +zetaDelta only)

theorem logMediaFault_only (s : State) (r : LogRec) (hl : frameSub [.klp, .log, .bus] [] pl pk = true) (hs : OnlyIn pl pk os s) :
    OnlyIn pl pk os (State.logMediaFault s r) := by
  unfold State.logMediaFault
  repeat' (with_reducible first
    | assumption | intro _ | exact frameSub_trans (by decide) hl | exact frameKey_of hl (by decide) | exact hk
    | apply withLog_only | apply pushLog_only | apply alarmOf_only | extract_lets | exact .inl (frameSub_mem hl (by decide))
    | exact .inr rfl | ((conv => arg 4; arg 27); apply OnlyIn.of_mk) | dsimp +zetaDelta only)

theorem ringRecord_only (s : State) (r : LogRec) (hl : frameSub [.klp, .log, .bus] [] pl pk = true) (hs : OnlyIn pl pk os s) :
    OnlyIn pl pk os (State.ringRecord s r) := by
  unfold State.ringRecord
  repeat' (with_reducible first
    | assumption | intro _ | exact frameSub_trans (by decide) hl | exact frameKey_of hl (by decide) | exact hk
    | apply withLog_only | apply logMediaFault_only | apply OnlyIn.ite | extract_lets | split
    | exact .inl (frameSub_mem hl (by decide)) | exact .inr rfl | ((conv => arg 4; arg 27); apply OnlyIn.of_mk)
    | dsimp +zetaDelta only)

theorem logResume_only (s : State) (hl : frameSub [.klp, .log, .bus] [] pl pk = true) (hs : OnlyIn pl pk os s) :
    OnlyIn pl pk os (State.logResume s) := by
  unfold State.logResume
  repeat' (with_reducible first
    | assumption | intro _ | exact frameSub_trans (by decide) hl | exact frameKey_of hl (by decide) | exact hk
    | apply withLog_only | apply ringRecord_only | apply pushLog_only | apply OnlyIn.foldl | apply OnlyIn.ite | extract_lets
    | split | exact .inl (frameSub_mem hl (by decide)) | exact .inr rfl | ((conv => arg 4; arg 27); apply OnlyIn.of_mk)
    | dsimp +zetaDelta only)

theorem writeRecord_only (s : State) (hl : frameSub [.klp, .log, .bus] [] pl pk = true) (hs : OnlyIn pl pk os s) :
    OnlyIn pl pk os (State.writeRecord s) := by
  unfold State.writeRecord
  repeat' (with_reducible first
    | assumption | intro _ | exact frameSub_trans (by decide) hl | exact frameKey_of hl (by decide) | exact hk
    | apply logResume_only | apply withLog_only | apply ringRecord_only | apply raiseIrq_only | apply OnlyIn.ite | extract_lets
    | split | refine OnlyIn.of_pair ?_ (by assumption) | exact .inl (frameSub_mem hl (by decide)) | exact .inr rfl
    | ((conv => arg 4; arg 27); apply OnlyIn.of_mk) | dsimp +zetaDelta only)

theorem flushLog_only (f : Nat) (s : State) (hl : frameSub [.klp, .log, .bus] [] pl pk = true) (hs : OnlyIn pl pk os s) :
    OnlyIn pl pk os (State.flushLog f s) := by
  induction f generalizing s with
  | zero => exact hs
  | succ f ih => unfold State.flushLog; split; exact hs; exact ih _ (writeRecord_only _ hl hs)

theorem logBad_only (s : State) (addr : Nat) (hl : frameSub [.log] [] pl pk = true) (hs : OnlyIn pl pk os s) :
    OnlyIn pl pk os (State.logBad s addr) := by
  unfold State.logBad
  repeat' (with_reducible first
    | assumption | intro _ | exact frameSub_trans (by decide) hl | exact frameKey_of hl (by decide) | exact hk
    | apply withLog_only | apply OnlyIn.ite | extract_lets | split | exact .inl (frameSub_mem hl (by decide)) | exact .inr rfl
    | ((conv => arg 4; arg 27); apply OnlyIn.of_mk) | dsimp +zetaDelta only)

theorem scrub_only (s : State) (h : Scrub) (hl : frameSub [.regs, .klp, .nv, .log, .bus, .freeCtr] [] pl pk = true) (hs : OnlyIn pl pk os s) :
    OnlyIn pl pk os (State.scrub s h) := by
  unfold State.scrub
  repeat' (with_reducible first
    | assumption | intro _ | exact frameSub_trans (by decide) hl | exact frameKey_of hl (by decide) | exact hk
    | exact frameKey_regs (frameSub_mem hl (by decide)) | apply incSat_only | apply setReg_only | apply markMemory_only
    | apply logBad_only | apply withNv_only | apply scrubHit_only | apply OnlyIn.ite | extract_lets | split
    | exact .inl (frameSub_mem hl (by decide)) | exact .inr rfl | ((conv => arg 4; arg 27); apply OnlyIn.of_mk)
    | dsimp +zetaDelta only)

end Sys2Proof.Machine
end

