-- ==== Sys2Proof/Laws/FramesRtcOps.lean ====
section
/-!
SUPPORT. What the operations of Machine/RtcOps.lean change at most.
-/
namespace Sys2Proof.Machine

variable {pl : List Piece} {pk : List Nat} {os : State}

theorem withRtc_only (s : State) (r : Rtc) (hl : frameSub [.rtc] [] pl pk = true) (hs : OnlyIn pl pk os s) :
    OnlyIn pl pk os (State.withRtc s r) := by
  unfold State.withRtc
  repeat' (with_reducible first
    | assumption | intro _ | exact frameSub_trans (by decide) hl | exact frameKey_of hl (by decide) | exact hk | extract_lets
    | exact .inl (frameSub_mem hl (by decide)) | exact .inr rfl | ((conv => arg 4; arg 27); apply OnlyIn.of_mk)
    | dsimp +zetaDelta only)

theorem withPwr_only (s : State) (p : PwrPart) (hl : frameSub [.pwr] [] pl pk = true) (hs : OnlyIn pl pk os s) :
    OnlyIn pl pk os (State.withPwr s p) := by
  unfold State.withPwr
  repeat' (with_reducible first
    | assumption | intro _ | exact frameSub_trans (by decide) hl | exact frameKey_of hl (by decide) | exact hk | extract_lets
    | exact .inl (frameSub_mem hl (by decide)) | exact .inr rfl | ((conv => arg 4; arg 27); apply OnlyIn.of_mk)
    | dsimp +zetaDelta only)

theorem wake_only (s : State) (hl : frameSub [.power, .video, .pwr] [] pl pk = true) (hs : OnlyIn pl pk os s) :
    OnlyIn pl pk os (State.wake s) := by
  unfold State.wake
  repeat' (with_reducible first
    | assumption | intro _ | exact frameSub_trans (by decide) hl | exact frameKey_of hl (by decide) | exact hk
    | apply withPwr_only | apply OnlyIn.ite | extract_lets | split | exact .inl (frameSub_mem hl (by decide)) | exact .inr rfl
    | ((conv => arg 4; arg 27); apply OnlyIn.of_mk) | dsimp +zetaDelta only)

theorem wakeEvent_only (s : State) (hl : frameSub [.power, .video, .pwr] [] pl pk = true) (hs : OnlyIn pl pk os s) :
    OnlyIn pl pk os (State.wakeEvent s) := by
  unfold State.wakeEvent
  repeat' (with_reducible first | assumption | exact frameSub_trans (by decide) hl | apply wake_only | apply OnlyIn.ite)

theorem fireAlarm_only (s : State) (a : Nat) (caught : Bool) (hl : frameSub [.power, .rtc, .video, .pwr, .freeCtr] [] pl pk = true) (hs : OnlyIn pl pk os s) :
    OnlyIn pl pk os (State.fireAlarm s a caught) := by
  unfold State.fireAlarm
  repeat' (with_reducible first
    | assumption | intro _ | exact frameSub_trans (by decide) hl | exact frameKey_of hl (by decide) | exact hk
    | apply withRtc_only | apply tickFree_only | apply wakeEvent_only | apply OnlyIn.ite | extract_lets | split
    | exact .inl (frameSub_mem hl (by decide)) | exact .inr rfl | ((conv => arg 4; arg 27); apply OnlyIn.of_mk)
    | dsimp +zetaDelta only)

theorem evalAlarms_only (s : State) (sec : Nat) (hl : frameSub [.power, .rtc, .video, .pwr, .freeCtr] [] pl pk = true) (hs : OnlyIn pl pk os s) :
    OnlyIn pl pk os (State.evalAlarms s sec) := by
  unfold State.evalAlarms
  repeat' (with_reducible first
    | assumption | intro _ | exact frameSub_trans (by decide) hl | exact frameKey_of hl (by decide) | exact hk
    | apply fireAlarm_only | apply OnlyIn.foldl | apply OnlyIn.ite | split | dsimp +zetaDelta only)

theorem alarmStep_only (s : State) (c0 c1 : Int) (hl : frameSub [.power, .rtc, .video, .pwr, .freeCtr] [] pl pk = true) (hs : OnlyIn pl pk os s) :
    OnlyIn pl pk os (State.alarmStep s c0 c1) := by
  unfold State.alarmStep
  repeat' (with_reducible first
    | assumption | intro _ | exact frameSub_trans (by decide) hl | exact frameKey_of hl (by decide) | exact hk
    | apply fireAlarm_only | apply withRtc_only | apply OnlyIn.foldl | apply OnlyIn.ite | extract_lets | split
    | exact .inl (frameSub_mem hl (by decide)) | exact .inr rfl | ((conv => arg 4; arg 27); apply OnlyIn.of_mk)
    | dsimp +zetaDelta only)

theorem noteOffset_only (s : State) (typ reason : Nat) (final now : Int) (hl : frameSub [.log, .rtc] [] pl pk = true) (hs : OnlyIn pl pk os s) :
    OnlyIn pl pk os (State.noteOffset s typ reason final now) := by
  unfold State.noteOffset
  repeat' (with_reducible first
    | assumption | intro _ | exact frameSub_trans (by decide) hl | exact frameKey_of hl (by decide) | exact hk
    | apply withRtc_only | apply pushLog_only | extract_lets | exact .inl (frameSub_mem hl (by decide)) | exact .inr rfl
    | ((conv => arg 4; arg 27); apply OnlyIn.of_mk) | dsimp +zetaDelta only)

theorem setCalendar_only (s : State) (off : Int) (hl : frameSub [.regs, .power, .log, .rtc, .loop, .video, .pwr, .freeCtr] [] pl pk = true) (hs : OnlyIn pl pk os s) :
    OnlyIn pl pk os (State.setCalendar s off) := by
  unfold State.setCalendar
  repeat' (with_reducible first
    | assumption | intro _ | exact frameSub_trans (by decide) hl | exact frameKey_of hl (by decide) | exact hk
    | exact frameKey_regs (frameSub_mem hl (by decide)) | apply noteOffset_only | apply withRtc_only | apply alarmStep_only
    | apply evalPrograms_only | apply OnlyIn.ite | extract_lets | split | exact .inl (frameSub_mem hl (by decide))
    | exact .inr rfl | ((conv => arg 4; arg 27); apply OnlyIn.of_mk) | dsimp +zetaDelta only)

theorem dstStep_only (s : State) (forward : Bool) (hl : frameSub [.regs, .power, .log, .rtc, .loop, .video, .pwr, .freeCtr] [] pl pk = true) (hs : OnlyIn pl pk os s) :
    OnlyIn pl pk os (State.dstStep s forward) := by
  unfold State.dstStep
  repeat' (with_reducible first
    | assumption | intro _ | exact frameSub_trans (by decide) hl | exact frameKey_of hl (by decide) | exact hk
    | exact frameKey_regs (frameSub_mem hl (by decide)) | apply noteOffset_only | apply withRtc_only | apply alarmStep_only
    | apply evalPrograms_only | apply OnlyIn.ite | extract_lets | split | exact .inl (frameSub_mem hl (by decide))
    | exact .inr rfl | ((conv => arg 4; arg 27); apply OnlyIn.of_mk) | dsimp +zetaDelta only)

theorem startSlew_only (s : State) (shift : Int) (hl : frameSub [.log, .rtc] [] pl pk = true) (hs : OnlyIn pl pk os s) :
    OnlyIn pl pk os (State.startSlew s shift) := by
  unfold State.startSlew
  repeat' (with_reducible first
    | assumption | intro _ | exact frameSub_trans (by decide) hl | exact frameKey_of hl (by decide) | exact hk
    | apply noteOffset_only | apply withRtc_only | extract_lets | exact .inl (frameSub_mem hl (by decide)) | exact .inr rfl
    | ((conv => arg 4; arg 27); apply OnlyIn.of_mk) | dsimp +zetaDelta only)

theorem rtcTick_only (s : State) (hl : frameSub [.rtc] [] pl pk = true) (hs : OnlyIn pl pk os s) :
    OnlyIn pl pk os (State.rtcTick s) := by
  unfold State.rtcTick
  repeat' (with_reducible first
    | assumption | intro _ | exact frameSub_trans (by decide) hl | exact frameKey_of hl (by decide) | exact hk
    | apply withRtc_only | apply OnlyIn.ite | extract_lets | split | exact .inl (frameSub_mem hl (by decide)) | exact .inr rfl
    | ((conv => arg 4; arg 27); apply OnlyIn.of_mk) | dsimp +zetaDelta only)

theorem sendTime_only (s : State) (reason : Nat) (hl : frameSub [.bus] [] pl pk = true) (hs : OnlyIn pl pk os s) :
    OnlyIn pl pk os (State.sendTime s reason) := by
  unfold State.sendTime
  repeat' (with_reducible first
    | assumption | intro _ | exact frameSub_trans (by decide) hl | exact frameKey_of hl (by decide) | exact hk
    | apply enqueue_only | apply OnlyIn.foldl | dsimp +zetaDelta only)

theorem syncTime_only (s : State) (data : List Nat) (stamp : Nat) (hl : frameSub [.regs, .power, .log, .rtc, .loop, .video, .pwr, .freeCtr] [] pl pk = true) (hs : OnlyIn pl pk os s) :
    OnlyIn pl pk os (State.syncTime s data stamp) := by
  unfold State.syncTime
  repeat' (with_reducible first
    | assumption | intro _ | exact frameSub_trans (by decide) hl | exact frameKey_of hl (by decide) | exact hk
    | exact frameKey_regs (frameSub_mem hl (by decide)) | apply startSlew_only | apply setCalendar_only | apply withRtc_only
    | apply OnlyIn.ite | extract_lets | split | exact .inl (frameSub_mem hl (by decide)) | exact .inr rfl
    | ((conv => arg 4; arg 27); apply OnlyIn.of_mk) | dsimp +zetaDelta only)

theorem timeLost_only (s : State) (hl : frameSub [.log, .rtc] [] pl pk = true) (hs : OnlyIn pl pk os s) :
    OnlyIn pl pk os (State.timeLost s) := by
  unfold State.timeLost
  repeat' (with_reducible first
    | assumption | intro _ | exact frameSub_trans (by decide) hl | exact frameKey_of hl (by decide) | exact hk
    | apply withRtc_only | apply pushLog_only | apply OnlyIn.foldl | apply OnlyIn.ite | extract_lets | split
    | refine OnlyIn.of_pair ?_ (by assumption) | exact .inl (frameSub_mem hl (by decide)) | exact .inr rfl
    | ((conv => arg 4; arg 27); apply OnlyIn.of_mk) | dsimp +zetaDelta only)

end Sys2Proof.Machine
end

