-- ==== Sys2Proof/Laws/FramesPanelOps.lean ====
section
/-!
SUPPORT. What the operations of Machine/PanelOps.lean change at most.
-/
namespace Sys2Proof.Machine

variable {pl : List Piece} {pk : List Nat} {os : State}

theorem withPanel_only (s : State) (p : PanelPart) (hl : frameSub [.panel] [] pl pk = true) (hs : OnlyIn pl pk os s) :
    OnlyIn pl pk os (State.withPanel s p) := by
  unfold State.withPanel
  repeat' (with_reducible first
    | assumption | intro _ | exact frameSub_trans (by decide) hl | exact frameKey_of hl (by decide) | exact hk | extract_lets
    | exact .inl (frameSub_mem hl (by decide)) | exact .inr rfl | ((conv => arg 4; arg 27); apply OnlyIn.of_mk)
    | dsimp +zetaDelta only)

theorem withKeys_only (s : State) (k : KeyPart) (hl : frameSub [.keys] [] pl pk = true) (hs : OnlyIn pl pk os s) :
    OnlyIn pl pk os (State.withKeys s k) := by
  unfold State.withKeys
  repeat' (with_reducible first
    | assumption | intro _ | exact frameSub_trans (by decide) hl | exact frameKey_of hl (by decide) | exact hk | extract_lets
    | exact .inl (frameSub_mem hl (by decide)) | exact .inr rfl | ((conv => arg 4; arg 27); apply OnlyIn.of_mk)
    | dsimp +zetaDelta only)

theorem storeShown_only (s : State) (hl : frameSub [.nv, .log] [] pl pk = true) (hs : OnlyIn pl pk os s) :
    OnlyIn pl pk os (State.storeShown s) := by
  unfold State.storeShown
  repeat' (with_reducible first
    | assumption | intro _ | exact frameSub_trans (by decide) hl | exact frameKey_of hl (by decide) | exact hk
    | apply storeParam_only | dsimp +zetaDelta only)

theorem finishUpdate_only (s : State) (k : Nat) (r : PanelRun) (hl : frameSub [.nv, .log, .panel] [Reg.UPDATES_DONE] pl pk = true) (hs : OnlyIn pl pk os s) :
    OnlyIn pl pk os (State.finishUpdate s k r) := by
  unfold State.finishUpdate
  repeat' (with_reducible first
    | assumption | intro _ | exact frameSub_trans (by decide) hl | exact frameKey_of hl (by decide) | exact hk
    | apply withPanel_only | apply storeShown_only | apply incSat_only | apply OnlyIn.ite | extract_lets | split
    | exact .inl (frameSub_mem hl (by decide)) | exact .inr rfl | ((conv => arg 4; arg 27); apply OnlyIn.of_mk)
    | dsimp +zetaDelta only)

theorem setRun_only (s : State) (k : Nat) (r : Option PanelRun) (hl : frameSub [.panel] [] pl pk = true) (hs : OnlyIn pl pk os s) :
    OnlyIn pl pk os (State.setRun s k r) := by
  unfold State.setRun
  repeat' (with_reducible first
    | assumption | intro _ | exact frameSub_trans (by decide) hl | exact frameKey_of hl (by decide) | exact hk
    | apply withPanel_only | apply OnlyIn.ite | extract_lets | split | exact .inl (frameSub_mem hl (by decide)) | exact .inr rfl
    | ((conv => arg 4; arg 27); apply OnlyIn.of_mk) | dsimp +zetaDelta only)

theorem endMain_only (s : State) (k : Nat) (r : PanelRun) (hl : frameSub [.nv, .log, .panel] [Reg.BAND_CORRECTIONS, Reg.BAND_REDRIVES, Reg.UPDATES_DONE] pl pk = true) (hs : OnlyIn pl pk os s) :
    OnlyIn pl pk os (State.endMain s k r) := by
  unfold State.endMain
  repeat' (with_reducible first
    | assumption | intro _ | exact frameSub_trans (by decide) hl | exact frameKey_of hl (by decide) | exact hk
    | apply setRun_only | apply incSat_only | apply finishUpdate_only | apply OnlyIn.ite | extract_lets | split
    | exact .inl (frameSub_mem hl (by decide)) | exact .inr rfl | ((conv => arg 4; arg 27); apply OnlyIn.of_mk)
    | dsimp +zetaDelta only)

theorem advanceRun_only (s : State) (k : Nat) (r0 : PanelRun) (layers : List Nat) (hl : frameSub [.nv, .log, .panel] [Reg.BAND_CORRECTIONS, Reg.BAND_REDRIVES, Reg.UPDATES_DONE] pl pk = true) (hs : OnlyIn pl pk os s) :
    OnlyIn pl pk os (State.advanceRun s k r0 layers) := by
  unfold State.advanceRun
  repeat' (with_reducible first
    | assumption | intro _ | exact frameSub_trans (by decide) hl | exact frameKey_of hl (by decide) | exact hk
    | apply setRun_only | apply endMain_only | apply withPanel_only | apply finishUpdate_only | apply OnlyIn.ite | extract_lets
    | split | refine OnlyIn.of_pair ?_ (by assumption) | exact .inl (frameSub_mem hl (by decide)) | exact .inr rfl
    | ((conv => arg 4; arg 27); apply OnlyIn.of_mk) | dsimp +zetaDelta only)

theorem advanceRuns_only (s : State) (hl : frameSub [.nv, .log, .panel] [Reg.BAND_CORRECTIONS, Reg.BAND_REDRIVES, Reg.UPDATES_DONE] pl pk = true) (hs : OnlyIn pl pk os s) :
    OnlyIn pl pk os (State.advanceRuns s) := by
  unfold State.advanceRuns
  repeat' (with_reducible first
    | assumption | intro _ | exact frameSub_trans (by decide) hl | exact frameKey_of hl (by decide) | exact hk
    | apply advanceRun_only | apply OnlyIn.foldl | extract_lets | split | refine OnlyIn.of_pair ?_ (by assumption)
    | exact .inl (frameSub_mem hl (by decide)) | exact .inr rfl | ((conv => arg 4; arg 27); apply OnlyIn.of_mk)
    | dsimp +zetaDelta only)

theorem cutRun_only (s : State) (by_ k : Nat) (r : PanelRun) (hl : frameSub [.panel] [Reg.URGENT_CUTS] pl pk = true) (hs : OnlyIn pl pk os s) :
    OnlyIn pl pk os (State.cutRun s by_ k r) := by
  unfold State.cutRun
  repeat' (with_reducible first
    | assumption | intro _ | exact frameSub_trans (by decide) hl | exact frameKey_of hl (by decide) | exact hk
    | apply withPanel_only | apply setRun_only | apply incSat_only | apply OnlyIn.ite | extract_lets | split
    | exact .inl (frameSub_mem hl (by decide)) | exact .inr rfl | ((conv => arg 4; arg 27); apply OnlyIn.of_mk)
    | dsimp +zetaDelta only)

theorem cutsFor_only (s : State) (by_ : Nat) (hl : frameSub [.panel] [Reg.URGENT_CUTS] pl pk = true) (hs : OnlyIn pl pk os s) :
    OnlyIn pl pk os (State.cutsFor s by_) := by
  unfold State.cutsFor
  repeat' (with_reducible first
    | assumption | intro _ | exact frameSub_trans (by decide) hl | exact frameKey_of hl (by decide) | exact hk
    | apply cutRun_only | apply OnlyIn.foldl | apply OnlyIn.ite | extract_lets | split
    | refine OnlyIn.of_pair ?_ (by assumption) | exact .inl (frameSub_mem hl (by decide)) | exact .inr rfl
    | ((conv => arg 4; arg 27); apply OnlyIn.of_mk) | dsimp +zetaDelta only)

theorem frameMemoryFault_only (s : State) (hl : frameSub [.panel] [Reg.FRAME_CRC_FAILS] pl pk = true) (hs : OnlyIn pl pk os s) :
    OnlyIn pl pk os (State.frameMemoryFault s) := by
  unfold State.frameMemoryFault
  repeat' (with_reducible first
    | assumption | intro _ | exact frameSub_trans (by decide) hl | exact frameKey_of hl (by decide) | exact hk
    | apply withPanel_only | apply incSat_only | extract_lets | exact .inl (frameSub_mem hl (by decide)) | exact .inr rfl
    | ((conv => arg 4; arg 27); apply OnlyIn.of_mk) | dsimp +zetaDelta only)

theorem startUpdate_only (s : State) (k : Nat) (q : PanelQueued) (hl : frameSub [.nv, .log, .panel] [Reg.UPDATES_DONE] pl pk = true) (hs : OnlyIn pl pk os s) :
    OnlyIn pl pk os (State.startUpdate s k q) := by
  unfold State.startUpdate
  repeat' (with_reducible first
    | assumption | intro _ | exact frameSub_trans (by decide) hl | exact frameKey_of hl (by decide) | exact hk
    | apply withPanel_only | apply finishUpdate_only | apply storeShown_only | apply OnlyIn.ite | extract_lets | split
    | exact .inl (frameSub_mem hl (by decide)) | exact .inr rfl | ((conv => arg 4; arg 27); apply OnlyIn.of_mk)
    | dsimp +zetaDelta only)

theorem tryStart_only (s : State) (ok : Bool) (k : Nat) (hl : frameSub [.nv, .log, .panel] [Reg.FRAME_CRC_FAILS, Reg.UPDATES_DONE] pl pk = true) (hs : OnlyIn pl pk os s) :
    OnlyIn pl pk os (State.tryStart s ok k) := by
  unfold State.tryStart
  repeat' (with_reducible first
    | assumption | intro _ | exact frameSub_trans (by decide) hl | exact frameKey_of hl (by decide) | exact hk
    | apply startUpdate_only | apply frameMemoryFault_only | apply OnlyIn.ite | extract_lets | split
    | refine OnlyIn.of_pair ?_ (by assumption) | exact .inl (frameSub_mem hl (by decide)) | exact .inr rfl
    | ((conv => arg 4; arg 27); apply OnlyIn.of_mk) | dsimp +zetaDelta only)

theorem startAll_only (s : State) (ok : Bool) (hl : frameSub [.nv, .log, .panel] [Reg.FRAME_CRC_FAILS, Reg.UPDATES_DONE, Reg.URGENT_CUTS] pl pk = true) (hs : OnlyIn pl pk os s) :
    OnlyIn pl pk os (State.startAll s ok) := by
  unfold State.startAll
  repeat' (with_reducible first
    | assumption | intro _ | exact frameSub_trans (by decide) hl | exact frameKey_of hl (by decide) | exact hk
    | apply frameMemoryFault_only | apply withPanel_only | apply storeShown_only | apply cutsFor_only | apply tryStart_only
    | apply OnlyIn.foldl | apply OnlyIn.ite | extract_lets | split | exact .inl (frameSub_mem hl (by decide)) | exact .inr rfl
    | ((conv => arg 4; arg 27); apply OnlyIn.of_mk) | dsimp +zetaDelta only)

theorem drivePanel_only (s : State) (hl : frameSub [.panel, .freeCtr] [] pl pk = true) (hs : OnlyIn pl pk os s) :
    OnlyIn pl pk os (State.drivePanel s) := by
  unfold State.drivePanel
  repeat' (with_reducible first
    | assumption | intro _ | exact frameSub_trans (by decide) hl | exact frameKey_of hl (by decide) | exact hk
    | apply withPanel_only | apply tickFree_only | extract_lets | split | refine OnlyIn.of_pair ?_ (by assumption)
    | exact .inl (frameSub_mem hl (by decide)) | exact .inr rfl | ((conv => arg 4; arg 27); apply OnlyIn.of_mk)
    | dsimp +zetaDelta only)

theorem panelTemp_only (s : State) (hl : frameSub [.panel] [] pl pk = true) (hs : OnlyIn pl pk os s) :
    OnlyIn pl pk os (State.panelTemp s) := by
  unfold State.panelTemp
  repeat' (with_reducible first
    | assumption | intro _ | exact frameSub_trans (by decide) hl | exact frameKey_of hl (by decide) | exact hk
    | apply withPanel_only | apply OnlyIn.ite | extract_lets | split | exact .inl (frameSub_mem hl (by decide)) | exact .inr rfl
    | ((conv => arg 4; arg 27); apply OnlyIn.of_mk) | dsimp +zetaDelta only)

theorem keyEvent_only (s : State) (k typ : Nat) (hl : frameSub [.keys] [Reg.KEY_EVENTS, Reg.KEY_EVENTS_LOST, Reg.KEY_LAST_EVENT] pl pk = true) (hs : OnlyIn pl pk os s) :
    OnlyIn pl pk os (State.keyEvent s k typ) := by
  unfold State.keyEvent
  repeat' (with_reducible first
    | assumption | intro _ | exact frameSub_trans (by decide) hl | exact frameKey_of hl (by decide) | exact hk
    | apply incSat_only | apply setReg_only | apply withKeys_only | apply OnlyIn.ite | extract_lets | split
    | exact .inl (frameSub_mem hl (by decide)) | exact .inr rfl | ((conv => arg 4; arg 27); apply OnlyIn.of_mk)
    | dsimp +zetaDelta only)

theorem keyWake_only (s : State) (press : Bool) (hl : frameSub [.power, .video, .pwr] [] pl pk = true) (hs : OnlyIn pl pk os s) :
    OnlyIn pl pk os (State.keyWake s press) := by
  unfold State.keyWake
  repeat' (with_reducible first
    | assumption | intro _ | exact frameSub_trans (by decide) hl | exact frameKey_of hl (by decide) | exact hk | apply wake_only
    | apply OnlyIn.ite | split | dsimp +zetaDelta only)

theorem keyPress_only (s : State) (k : Nat) (hl : frameSub [.power, .video, .keys, .pwr] [Reg.KEY_EVENTS, Reg.KEY_EVENTS_LOST, Reg.KEY_LAST_EVENT] pl pk = true) (hs : OnlyIn pl pk os s) :
    OnlyIn pl pk os (State.keyPress s k) := by
  unfold State.keyPress
  repeat' (with_reducible first
    | assumption | intro _ | exact frameSub_trans (by decide) hl | exact frameKey_of hl (by decide) | exact hk
    | apply withKeys_only | apply keyEvent_only | apply keyWake_only | extract_lets | exact .inl (frameSub_mem hl (by decide))
    | exact .inr rfl | ((conv => arg 4; arg 27); apply OnlyIn.of_mk) | dsimp +zetaDelta only)

theorem keyRelease_only (s : State) (closed : Nat → Bool) (k : Nat) (hl : frameSub [.power, .video, .keys, .pwr] [Reg.KEY_EVENTS, Reg.KEY_EVENTS_LOST, Reg.KEY_LAST_EVENT] pl pk = true) (hs : OnlyIn pl pk os s) :
    OnlyIn pl pk os (State.keyRelease s closed k) := by
  unfold State.keyRelease
  repeat' (with_reducible first
    | assumption | intro _ | exact frameSub_trans (by decide) hl | exact frameKey_of hl (by decide) | exact hk
    | apply withKeys_only | apply keyEvent_only | apply keyWake_only | apply OnlyIn.ite | apply hclosed | extract_lets | split
    | exact .inl (frameSub_mem hl (by decide)) | exact .inr rfl | ((conv => arg 4; arg 27); apply OnlyIn.of_mk)
    | dsimp +zetaDelta only)

theorem keyBlock_only (s : State) (held : Nat → Bool) (k : Nat) (hl : frameSub [.keys] [Reg.KEY_BLOCKED, Reg.KEY_EVENTS, Reg.KEY_EVENTS_LOST, Reg.KEY_LAST_EVENT] pl pk = true) (hs : OnlyIn pl pk os s) :
    OnlyIn pl pk os (State.keyBlock s held k) := by
  unfold State.keyBlock
  repeat' (with_reducible first
    | assumption | intro _ | exact frameSub_trans (by decide) hl | exact frameKey_of hl (by decide) | exact hk
    | apply withKeys_only | apply incSat_only | apply keyEvent_only | apply OnlyIn.foldl | apply OnlyIn.ite | apply hheld
    | extract_lets | split | exact .inl (frameSub_mem hl (by decide)) | exact .inr rfl
    | ((conv => arg 4; arg 27); apply OnlyIn.of_mk) | dsimp +zetaDelta only)

theorem scanKeys_only (s : State) (closed : Nat → Bool) (hl : frameSub [.power, .video, .keys, .pwr] [Reg.KEY_BLOCKED, Reg.KEY_EVENTS, Reg.KEY_EVENTS_LOST, Reg.KEY_LAST_EVENT] pl pk = true) (hs : OnlyIn pl pk os s) :
    OnlyIn pl pk os (State.scanKeys s closed) := by
  unfold State.scanKeys
  repeat' (with_reducible first
    | assumption | intro _ | exact frameSub_trans (by decide) hl | exact frameKey_of hl (by decide) | exact hk
    | apply withKeys_only | apply keyRelease_only | apply keyBlock_only | apply keyPress_only | apply OnlyIn.foldl
    | apply OnlyIn.ite | apply hclosed | extract_lets | split | exact .inl (frameSub_mem hl (by decide)) | exact .inr rfl
    | ((conv => arg 4; arg 27); apply OnlyIn.of_mk) | dsimp +zetaDelta only)

theorem watchResetKeys_only (s : State) (hl : frameSub [.keys] [] pl pk = true) (hs : OnlyIn pl pk os s) :
    OnlyIn pl pk os (State.watchResetKeys s) := by
  unfold State.watchResetKeys
  repeat' (with_reducible first
    | assumption | intro _ | exact frameSub_trans (by decide) hl | exact frameKey_of hl (by decide) | exact hk
    | apply withKeys_only | apply OnlyIn.ite | extract_lets | split | exact .inl (frameSub_mem hl (by decide)) | exact .inr rfl
    | ((conv => arg 4; arg 27); apply OnlyIn.of_mk) | dsimp +zetaDelta only)

end Sys2Proof.Machine
end

