-- ==== Sys2Proof/Laws/FramesSlipOps.lean ====
section
/-!
SUPPORT. What the operations of Machine/SlipOps.lean change at most.
-/
namespace Sys2Proof.Machine

variable {pl : List Piece} {pk : List Nat} {os : State}

theorem slipOpen_only (s : State) (hl : frameSub [.slip] [] pl pk = true) (hs : OnlyIn pl pk os s) :
    OnlyIn pl pk os (State.slipOpen s) := by
  unfold State.slipOpen
  repeat' (with_reducible first
    | assumption | intro _ | exact frameSub_trans (by decide) hl | exact frameKey_of hl (by decide) | exact hk
    | apply withSlip_only | extract_lets | exact .inl (frameSub_mem hl (by decide)) | exact .inr rfl
    | ((conv => arg 4; arg 27); apply OnlyIn.of_mk) | dsimp +zetaDelta only)

theorem slipStage_only (s : State) (bytes : List Nat) (hl : frameSub [.log, .slip] [] pl pk = true) (hs : OnlyIn pl pk os s) :
    OnlyIn pl pk os (State.slipStage s bytes) := by
  unfold State.slipStage
  repeat' (with_reducible first
    | assumption | intro _ | exact frameSub_trans (by decide) hl | exact frameKey_of hl (by decide) | exact hk
    | apply withSlip_only | apply pushLog_only | apply OnlyIn.ite | extract_lets | split
    | exact .inl (frameSub_mem hl (by decide)) | exact .inr rfl | ((conv => arg 4; arg 27); apply OnlyIn.of_mk)
    | dsimp +zetaDelta only)

theorem slipStaged_only (s : State) (hl : frameSub [.slip] [] pl pk = true) (hs : OnlyIn pl pk os s) :
    OnlyIn pl pk os (State.slipStaged s).2 := by
  unfold State.slipStaged
  repeat' (with_reducible first
    | assumption | intro _ | exact frameSub_trans (by decide) hl | exact frameKey_of hl (by decide) | exact hk
    | apply withSlip_only | extract_lets | exact .inl (frameSub_mem hl (by decide)) | exact .inr rfl
    | ((conv => arg 4; arg 27); apply OnlyIn.of_mk) | dsimp +zetaDelta only)

theorem slipCommit_only (s : State) (hl : frameSub [.klp, .nv, .log, .pwr, .slip] [Reg.BOOT_SLOT, Reg.SECURITY_FLOOR] pl pk = true) (hs : OnlyIn pl pk os s) :
    OnlyIn pl pk os (State.slipCommit s).2 := by
  unfold State.slipCommit
  repeat' (with_reducible first
    | assumption | intro _ | exact frameSub_trans (by decide) hl | exact frameKey_of hl (by decide) | exact hk
    | apply andThen_only | apply putEntry_only | apply setReg_only | apply countTally_only | apply withPwr_only
    | apply withSlip_only | apply raiseIrq_only | apply OnlyIn.ite | extract_lets | split
    | exact .inl (frameSub_mem hl (by decide)) | exact .inr rfl | ((conv => arg 4; arg 27); apply OnlyIn.of_mk)
    | dsimp +zetaDelta only)

theorem bootMarker_only (s : State) (hl : frameSub [.log, .slip] [] pl pk = true) (hs : OnlyIn pl pk os s) :
    OnlyIn pl pk os (State.bootMarker s) := by
  unfold State.bootMarker
  repeat' (with_reducible first
    | assumption | intro _ | exact frameSub_trans (by decide) hl | exact frameKey_of hl (by decide) | exact hk
    | apply withSlip_only | apply pushLog_only | apply OnlyIn.ite | extract_lets | split
    | exact .inl (frameSub_mem hl (by decide)) | exact .inr rfl | ((conv => arg 4; arg 27); apply OnlyIn.of_mk)
    | dsimp +zetaDelta only)

theorem bootNormal_only (s : State) (hl : frameSub [.log, .pwr, .slip] [] pl pk = true) (hs : OnlyIn pl pk os s) :
    OnlyIn pl pk os (State.bootNormal s) := by
  unfold State.bootNormal
  repeat' (with_reducible first
    | assumption | intro _ | exact frameSub_trans (by decide) hl | exact frameKey_of hl (by decide) | exact hk
    | apply withPwr_only | apply withSlip_only | apply pushLog_only | apply OnlyIn.ite | extract_lets | split
    | exact .inl (frameSub_mem hl (by decide)) | exact .inr rfl | ((conv => arg 4; arg 27); apply OnlyIn.of_mk)
    | dsimp +zetaDelta only)

theorem bootVerify_only (s0 : State) (hl : frameSub [.nv, .log, .pwr, .slip] [Reg.BOOT_TRIAL] pl pk = true) (hs0 : OnlyIn pl pk os s0) :
    OnlyIn pl pk os (State.bootVerify s0) := by
  unfold State.bootVerify
  repeat' (with_reducible first
    | assumption | intro _ | exact frameSub_trans (by decide) hl | exact frameKey_of hl (by decide) | exact hk
    | apply bootMarker_only | apply bootNormal_only | apply putEntry_only | apply withPwr_only | apply withSlip_only
    | apply pushLog_only | apply OnlyIn.ite | extract_lets | split | exact .inl (frameSub_mem hl (by decide)) | exact .inr rfl
    | ((conv => arg 4; arg 27); apply OnlyIn.of_mk) | dsimp +zetaDelta only)

end Sys2Proof.Machine
end

