-- ==== Sys2Proof/Laws/FramesResetOps.lean ====
section
/-!
SUPPORT. What the operations of Machine/ResetOps.lean change at most.
-/
namespace Sys2Proof.Machine

variable {pl : List Piece} {pk : List Nat} {os : State}

theorem toDark_only (s : State) (cause : ResetCause) (hl : frameSub [.regs, .phase, .power, .pfail, .tide, .mains, .hm, .klp, .nv, .window, .log, .rtc, .bus, .berth, .loop, .act, .sens, .focal, .pipe, .cal, .video, .panel, .keys, .pwr, .slip, .jtag, .freeCtr] [] pl pk = true) (hs : OnlyIn pl pk os s) :
    OnlyIn pl pk os (State.toDark s cause) := by
  have hm : ∀ p, pl.contains p = true := fun p => frameSub_mem hl (by cases p <;> decide)
  exact ⟨fun p _ hp => absurd (by simpa using hm p) hp, fun hr => absurd (by simpa using hm .regs) hr, hs.pending⟩

theorem darkLoad_only (s : State) (hl : frameSub [.regs, .klp, .nv, .log, .rtc, .bus, .loop, .panel] [] pl pk = true) (hs : OnlyIn pl pk os s) : OnlyIn pl pk os (State.darkLoad s) := by
  unfold State.darkLoad
  extract_lets s1 s2 code nv3 s3 loop4 s4 s5 s6
  have h1 : OnlyIn pl pk os s1 := loadStored_only _ (frameSub_trans (by decide) hl) hs
  have h2 : OnlyIn pl pk os s2 := by
    have := OnlyIn.setRegs (m := s.keptRegs s1.regs) (frameSub_mem hl (by decide)) h1
    refine OnlyIn.of_mk this ?_ ?_ ?_ ?_ ?_ ?_ ?_ ?_ ?_ ?_ ?_ ?_ ?_ ?_ ?_ ?_ ?_ ?_ ?_ ?_ ?_ ?_ ?_ ?_ ?_ ?_ <;>
      first | exact .inl (frameSub_mem hl (by decide)) | exact .inr rfl
  have h3 : OnlyIn pl pk os s3 := withNv_only _ _ (frameSub_trans (by decide) hl) (.inr rfl) h2
  have h4 : OnlyIn pl pk os s4 := by
    unfold s4
    split
    · repeat' (with_reducible first | exact h3 | exact .inl (frameSub_mem hl (by decide)) | exact .inr rfl | apply OnlyIn.of_mk)
    · exact h3
  have ht := countTally_only s4 Reg.POWER_UPS (frameSub_trans (by decide) hl) h4
  exact timeLost_only _ (frameSub_trans (by decide) hl) (OnlyIn.foldl (OnlyIn.ite ht h4) fun t x ht =>
    checkTally_only _ _ (frameSub_trans (by decide) hl) ht)

theorem darkRecords_only (s : State) (hl : frameSub [.log] [] pl pk = true) (hs : OnlyIn pl pk os s) :
    OnlyIn pl pk os (State.darkRecords s) := by
  unfold State.darkRecords
  repeat' (with_reducible first
    | assumption | intro _ | exact frameSub_trans (by decide) hl | exact frameKey_of hl (by decide) | exact hk
    | apply pushLog_only | extract_lets | split | refine OnlyIn.of_pair ?_ (by assumption)
    | exact .inl (frameSub_mem hl (by decide)) | exact .inr rfl | ((conv => arg 4; arg 27); apply OnlyIn.of_mk)
    | dsimp +zetaDelta only)

theorem mainsStart_only (s : State) (hl : frameSub [] [Reg.HALF_PERIOD, Reg.MAINS_STATE] pl pk = true) (hs : OnlyIn pl pk os s) :
    OnlyIn pl pk os (State.mainsStart s) := by
  unfold State.mainsStart
  repeat' (with_reducible first
    | assumption | intro _ | exact frameSub_trans (by decide) hl | exact frameKey_of hl (by decide) | exact hk
    | apply setReg_only | apply OnlyIn.ite | split | dsimp +zetaDelta only)

theorem tideStart_only (s : State) (src : ClockSrc) (hl : frameSub [.regs, .tide, .klp, .nv, .log, .rtc, .bus, .loop, .act, .panel] [] pl pk = true) (hs : OnlyIn pl pk os s) :
    OnlyIn pl pk os (State.tideStart s src) := by
  unfold State.tideStart
  repeat' (with_reducible first
    | assumption | intro _ | exact frameSub_trans (by decide) hl | exact frameKey_of hl (by decide) | exact hk
    | exact frameKey_regs (frameSub_mem hl (by decide)) | apply darkLoad_only | apply setReg_only | apply mainsStart_only
    | apply darkRecords_only | apply applyStorms_only | apply enterAutonomous_only | apply engineHolds_only | extract_lets
    | exact .inl (frameSub_mem hl (by decide)) | exact .inr rfl | ((conv => arg 4; arg 27); apply OnlyIn.of_mk)
    | dsimp +zetaDelta only)

theorem powerFail_only (s : State) (us : Nat) (hl : frameSub [.regs, .pfail, .klp, .nv, .window, .log, .bus, .act, .focal, .pipe, .video, .panel] [] pl pk = true) (hs : OnlyIn pl pk os s) :
    OnlyIn pl pk os (State.powerFail s us) := by
  unfold State.powerFail
  repeat' (with_reducible first
    | assumption | intro _ | exact frameSub_trans (by decide) hl | exact frameKey_of hl (by decide) | exact hk
    | exact frameKey_regs (frameSub_mem hl (by decide)) | apply alarmOf_only | apply raiseIrq_only | apply closeOpen_only
    | apply countTally_only | apply withNv_only | apply quickSave_only | apply OnlyIn.ite | extract_lets | split
    | exact .inl (frameSub_mem hl (by decide)) | exact .inr rfl | ((conv => arg 4; arg 27); apply OnlyIn.of_mk)
    | dsimp +zetaDelta only)

theorem deviceReset_only (s : State) (cause : ResetCause) (hl : frameSub [.regs, .phase, .power, .pfail, .tide, .mains, .hm, .klp, .nv, .window, .log, .rtc, .bus, .berth, .loop, .act, .sens, .focal, .pipe, .cal, .video, .panel, .keys, .pwr, .slip, .jtag, .freeCtr] [] pl pk = true) (hs : OnlyIn pl pk os s) :
    OnlyIn pl pk os (State.deviceReset s cause) := by
  unfold State.deviceReset
  repeat' (with_reducible first
    | assumption | intro _ | exact frameSub_trans (by decide) hl | exact frameKey_of hl (by decide) | exact hk
    | exact frameKey_regs (frameSub_mem hl (by decide)) | apply toDark_only | dsimp +zetaDelta only)

end Sys2Proof.Machine
end

