-- ==== Sys2Proof/Laws/FramesPower.lean ====
section
/-!
SUPPORT. What the operations of Machine/Power.lean change at most.
-/
namespace Sys2Proof.Machine

variable {pl : List Piece} {pk : List Nat} {os : State}

theorem execPowerDieStart_only (testEn : Bool) (s : State) (hl : frameSub [.regs, .phase, .power, .pfail, .tide, .mains, .hm, .klp, .nv, .window, .log, .rtc, .bus, .berth, .loop, .act, .sens, .focal, .pipe, .cal, .video, .panel, .keys, .pwr, .slip, .jtag, .freeCtr] [] pl pk = true) (hs : OnlyIn pl pk os s) :
    ∃ s', execPowerDieStart testEn s = .next s' ∧ OnlyIn pl pk os s' := by
  unfold execPowerDieStart
  refine ⟨_, rfl, ?_⟩
  repeat' (with_reducible first
    | assumption | intro _ | exact frameSub_trans (by decide) hl | exact frameKey_of hl (by decide) | exact hk
    | exact frameKey_regs (frameSub_mem hl (by decide)) | apply toDark_only | apply OnlyIn.ite | extract_lets | split
    | exact .inl (frameSub_mem hl (by decide)) | exact .inr rfl | ((conv => arg 4; arg 27); apply OnlyIn.of_mk)
    | dsimp +zetaDelta only)

theorem execBootVerifyDone_only (s : State) (hl : frameSub [.nv, .log, .pwr, .slip] [Reg.BOOT_TRIAL] pl pk = true) (hs : OnlyIn pl pk os s) :
    ∃ s', execBootVerifyDone s = .next s' ∧ OnlyIn pl pk os s' := by
  unfold execBootVerifyDone
  refine ⟨_, rfl, ?_⟩
  repeat' (with_reducible first
    | assumption | intro _ | exact frameSub_trans (by decide) hl | exact frameKey_of hl (by decide) | exact hk
    | apply bootVerify_only | apply OnlyIn.ite | split | dsimp +zetaDelta only)

theorem lightsQuay_only (s : State) (q : Quay) (hl : frameSub [.hm] [] pl pk = true) (hs : OnlyIn pl pk os s) :
    OnlyIn pl pk os (State.lightsQuay s q) := by
  unfold State.lightsQuay
  repeat' (with_reducible first
    | assumption | intro _ | exact frameSub_trans (by decide) hl | exact frameKey_of hl (by decide) | exact hk
    | apply setQuay_only | extract_lets | exact .inl (frameSub_mem hl (by decide)) | exact .inr rfl
    | ((conv => arg 4; arg 27); apply OnlyIn.of_mk) | dsimp +zetaDelta only)

theorem lightsBus_only (s : State) (c : Bus) (hl : frameSub [.bus] [] pl pk = true) (hs : OnlyIn pl pk os s) :
    OnlyIn pl pk os (State.lightsBus s c) := by
  unfold State.lightsBus
  repeat' (with_reducible first
    | assumption | intro _ | exact frameSub_trans (by decide) hl | exact frameKey_of hl (by decide) | exact hk
    | apply setChan_only | extract_lets | exact .inl (frameSub_mem hl (by decide)) | exact .inr rfl
    | ((conv => arg 4; arg 27); apply OnlyIn.of_mk) | dsimp +zetaDelta only)

theorem lightsShutter_only (s : State) (hl : frameSub [.focal] [] pl pk = true) (hs : OnlyIn pl pk os s) :
    OnlyIn pl pk os (State.lightsShutter s) := by
  unfold State.lightsShutter
  repeat' (with_reducible first
    | assumption | intro _ | exact frameSub_trans (by decide) hl | exact frameKey_of hl (by decide) | exact hk
    | apply startTravel_only | apply OnlyIn.ite | split | dsimp +zetaDelta only)

theorem lights_only (s : State) (hl : frameSub [.phase, .hm, .bus, .sens, .cal, .pwr, .slip] [Reg.LIGHTS_MS] pl pk = true) (hs : OnlyIn pl pk os s) :
    OnlyIn pl pk os (State.lights s) := by
  unfold State.lights
  repeat' (with_reducible first
    | assumption | intro _ | exact frameSub_trans (by decide) hl | exact frameKey_of hl (by decide) | exact hk
    | apply setReg_only | apply lightsQuay_only | apply lightsBus_only | apply OnlyIn.ite | extract_lets | split
    | refine OnlyIn.of_pair ?_ (by assumption) | exact .inl (frameSub_mem hl (by decide)) | exact .inr rfl
    | ((conv => arg 4; arg 27); apply OnlyIn.of_mk) | dsimp +zetaDelta only)

theorem execLightsEntry_only (s : State) (hl : frameSub [.phase, .hm, .bus, .sens, .focal, .cal, .pwr, .slip] [Reg.LIGHTS_MS] pl pk = true) (hs : OnlyIn pl pk os s) :
    ∃ s', execLightsEntry s = .next s' ∧ OnlyIn pl pk os s' := by
  unfold execLightsEntry
  refine ⟨_, rfl, ?_⟩
  repeat' (with_reducible first
    | assumption | intro _ | exact frameSub_trans (by decide) hl | exact frameKey_of hl (by decide) | exact hk
    | apply lights_only | apply lightsShutter_only | apply OnlyIn.ite | split | dsimp +zetaDelta only)

theorem execLightsOwnerTimeout_only (s : State) (hl : frameSub [.hm, .klp, .nv, .log, .bus, .loop, .act, .panel, .slip, .freeCtr] [Reg.SALVAGE_SUPPRESSED, Reg.STORM_ENTRIES, Reg.TABLE_TAKEOVERS] pl pk = true) (hs : OnlyIn pl pk os s) :
    ∃ s', execLightsOwnerTimeout s = .next s' ∧ OnlyIn pl pk os s' := by
  unfold execLightsOwnerTimeout
  refine ⟨_, rfl, ?_⟩
  repeat' (with_reducible first
    | assumption | intro _ | exact frameSub_trans (by decide) hl | exact frameKey_of hl (by decide) | exact hk
    | apply enterStorm_only | apply OnlyIn.ite | split | dsimp +zetaDelta only)

theorem execSharedRailFault_only (s : State) (hl : frameSub [.regs, .phase, .power, .pfail, .tide, .mains, .hm, .klp, .nv, .window, .log, .rtc, .bus, .berth, .loop, .act, .sens, .focal, .pipe, .cal, .video, .panel, .keys, .pwr, .slip, .jtag, .freeCtr] [] pl pk = true) (hs : OnlyIn pl pk os s) :
    ∃ s', execSharedRailFault s = .next s' ∧ OnlyIn pl pk os s' := by
  unfold execSharedRailFault
  refine ⟨_, rfl, ?_⟩
  repeat' (with_reducible first
    | assumption | intro _ | exact frameSub_trans (by decide) hl | exact frameKey_of hl (by decide) | exact hk
    | exact frameKey_regs (frameSub_mem hl (by decide)) | apply toDark_only | apply OnlyIn.ite | extract_lets | split
    | exact .inl (frameSub_mem hl (by decide)) | exact .inr rfl | ((conv => arg 4; arg 27); apply OnlyIn.of_mk)
    | dsimp +zetaDelta only)

theorem execSharedRailRecovered_only (s : State) (hl : frameSub [.regs, .phase, .power, .pfail, .tide, .mains, .hm, .klp, .nv, .window, .log, .rtc, .bus, .berth, .loop, .act, .sens, .focal, .pipe, .cal, .video, .panel, .keys, .pwr, .slip, .jtag, .freeCtr] [] pl pk = true) (hs : OnlyIn pl pk os s) :
    ∃ s', execSharedRailRecovered s = .next s' ∧ OnlyIn pl pk os s' := by
  unfold execSharedRailRecovered
  refine ⟨_, rfl, ?_⟩
  repeat' (with_reducible first
    | assumption | intro _ | exact frameSub_trans (by decide) hl | exact frameKey_of hl (by decide) | exact hk
    | exact frameKey_regs (frameSub_mem hl (by decide)) | apply countTally_only | apply toDark_only | apply OnlyIn.ite | split
    | dsimp +zetaDelta only)

theorem feedRecord_only (s : State) (hl : frameSub [.log] [] pl pk = true) (hs : OnlyIn pl pk os s) :
    OnlyIn pl pk os (State.feedRecord s) := by
  unfold State.feedRecord
  repeat' (with_reducible first
    | assumption | intro _ | exact frameSub_trans (by decide) hl | exact frameKey_of hl (by decide) | exact hk
    | apply pushLog_only | dsimp +zetaDelta only)

theorem execFeedAbsent_only (f : Feed) (s : State) (hl : frameSub [.klp, .log, .bus, .pwr] [] pl pk = true) (hs : OnlyIn pl pk os s) :
    ∃ s', execFeedAbsent f s = .next s' ∧ OnlyIn pl pk os s' := by
  unfold execFeedAbsent
  refine ⟨_, rfl, ?_⟩
  repeat' (with_reducible first
    | assumption | intro _ | exact frameSub_trans (by decide) hl | exact frameKey_of hl (by decide) | exact hk
    | apply withPwr_only | apply feedRecord_only | apply raiseIrq_only | apply alarmOf_only | apply OnlyIn.ite | extract_lets
    | split | exact .inl (frameSub_mem hl (by decide)) | exact .inr rfl | ((conv => arg 4; arg 27); apply OnlyIn.of_mk)
    | dsimp +zetaDelta only)

theorem execFeedPresent_only (f : Feed) (s : State) (hl : frameSub [.klp, .log, .bus, .pwr] [] pl pk = true) (hs : OnlyIn pl pk os s) :
    ∃ s', execFeedPresent f s = .next s' ∧ OnlyIn pl pk os s' := by
  unfold execFeedPresent
  refine ⟨_, rfl, ?_⟩
  repeat' (with_reducible first
    | assumption | intro _ | exact frameSub_trans (by decide) hl | exact frameKey_of hl (by decide) | exact hk
    | apply withPwr_only | apply feedRecord_only | apply alarmOf_only | apply OnlyIn.ite | extract_lets | split
    | exact .inl (frameSub_mem hl (by decide)) | exact .inr rfl | ((conv => arg 4; arg 27); apply OnlyIn.of_mk)
    | dsimp +zetaDelta only)

theorem setOv_only (s : State) (f : Feed) (on : Bool) (hl : frameSub [.pwr] [] pl pk = true) (hs : OnlyIn pl pk os s) :
    OnlyIn pl pk os (State.setOv s f on) := by
  unfold State.setOv
  repeat' (with_reducible first
    | assumption | intro _ | exact frameSub_trans (by decide) hl | exact frameKey_of hl (by decide) | exact hk
    | apply withPwr_only | extract_lets | split | refine OnlyIn.of_pair ?_ (by assumption)
    | exact .inl (frameSub_mem hl (by decide)) | exact .inr rfl | ((conv => arg 4; arg 27); apply OnlyIn.of_mk)
    | dsimp +zetaDelta only)

theorem execFeedOvervoltage_only (f : Feed) (s : State) (hl : frameSub [.pwr] [] pl pk = true) (hs : OnlyIn pl pk os s) :
    ∃ s', execFeedOvervoltage f s = .next s' ∧ OnlyIn pl pk os s' := by
  unfold execFeedOvervoltage
  refine ⟨_, rfl, ?_⟩
  repeat' (with_reducible first
    | assumption | intro _ | exact frameSub_trans (by decide) hl | exact frameKey_of hl (by decide) | exact hk
    | apply setOv_only | dsimp +zetaDelta only)

theorem execFeedOvervoltageEnd_only (f : Feed) (s : State) (hl : frameSub [.pwr] [] pl pk = true) (hs : OnlyIn pl pk os s) :
    ∃ s', execFeedOvervoltageEnd f s = .next s' ∧ OnlyIn pl pk os s' := by
  unfold execFeedOvervoltageEnd
  refine ⟨_, rfl, ?_⟩
  repeat' (with_reducible first
    | assumption | intro _ | exact frameSub_trans (by decide) hl | exact frameKey_of hl (by decide) | exact hk
    | apply setOv_only | dsimp +zetaDelta only)

theorem execPfail_only (us : Nat) (s : State) (hl : frameSub [.regs, .pfail, .klp, .nv, .window, .log, .bus, .act, .focal, .pipe, .video, .panel] [] pl pk = true) (hs : OnlyIn pl pk os s) :
    ∃ s', execPfail us s = .next s' ∧ OnlyIn pl pk os s' := by
  unfold execPfail
  refine ⟨_, rfl, ?_⟩
  repeat' (with_reducible first
    | assumption | intro _ | exact frameSub_trans (by decide) hl | exact frameKey_of hl (by decide) | exact hk
    | exact frameKey_regs (frameSub_mem hl (by decide)) | apply powerFail_only | apply OnlyIn.ite | split
    | dsimp +zetaDelta only)

theorem execUvlo_only (cell : Bool) (s : State) (hl : frameSub [.power, .pfail, .tide, .act, .panel, .pwr] [] pl pk = true) (hs : OnlyIn pl pk os s) :
    ∃ s', execUvlo cell s = .next s' ∧ OnlyIn pl pk os s' := by
  unfold execUvlo
  refine ⟨_, rfl, ?_⟩
  repeat' (with_reducible first
    | assumption | intro _ | exact frameSub_trans (by decide) hl | exact frameKey_of hl (by decide) | exact hk
    | apply OnlyIn.ite | extract_lets | split | exact .inl (frameSub_mem hl (by decide)) | exact .inr rfl
    | ((conv => arg 4; arg 27); apply OnlyIn.of_mk) | dsimp +zetaDelta only)

theorem execBrownout_only (s : State) (hl : frameSub [.regs, .phase, .power, .pfail, .tide, .mains, .hm, .klp, .nv, .window, .log, .rtc, .bus, .berth, .loop, .act, .sens, .focal, .pipe, .cal, .video, .panel, .keys, .pwr, .slip, .jtag, .freeCtr] [] pl pk = true) (hs : OnlyIn pl pk os s) :
    ∃ s', execBrownout s = .next s' ∧ OnlyIn pl pk os s' := by
  unfold execBrownout
  refine ⟨_, rfl, ?_⟩
  repeat' (with_reducible first
    | assumption | intro _ | exact frameSub_trans (by decide) hl | exact frameKey_of hl (by decide) | exact hk
    | exact frameKey_regs (frameSub_mem hl (by decide)) | apply countTally_only | apply toDark_only | apply OnlyIn.ite | split
    | dsimp +zetaDelta only)

theorem pfailLevelRule_only (s : State) (v : Nat) (hl : frameSub [.nv, .log] [Reg.PFAIL_LEVEL] pl pk = true) (hs : OnlyIn pl pk os s) :
    OnlyIn pl pk os (pfailLevelRule s v).2 := by
  unfold pfailLevelRule
  repeat' (with_reducible first
    | assumption | intro _ | exact frameSub_trans (by decide) hl | exact frameKey_of hl (by decide) | exact hk
    | apply plainRule_only | apply OnlyIn.ite | split | dsimp +zetaDelta only)

theorem execPfailLevelWrite_only (w : Wr) (s : State) (hl : frameSub [.klp, .nv, .log] [Reg.PFAIL_LEVEL] pl pk = true) (hs : OnlyIn pl pk os s) :
    ∃ s', execPfailLevelWrite w s = .next s' ∧ OnlyIn pl pk os s' := by
  unfold execPfailLevelWrite
  refine ⟨_, rfl, ?_⟩
  repeat' (with_reducible first
    | assumption | intro _ | exact frameSub_trans (by decide) hl | exact frameKey_of hl (by decide) | exact hk
    | apply ledgerWrite_only | apply pfailLevelRule_only | dsimp +zetaDelta only)

theorem leaveSlack_only (s : State) (hl : frameSub [.power, .video] [] pl pk = true) (hs : OnlyIn pl pk os s) :
    OnlyIn pl pk os (State.leaveSlack s) := by
  unfold State.leaveSlack
  repeat' (with_reducible first
    | assumption | intro _ | exact frameSub_trans (by decide) hl | exact frameKey_of hl (by decide) | exact hk
    | apply OnlyIn.ite | extract_lets | split | exact .inl (frameSub_mem hl (by decide)) | exact .inr rfl
    | ((conv => arg 4; arg 27); apply OnlyIn.of_mk) | dsimp +zetaDelta only)

theorem powerRequestRule_only (s : State) (v : Nat) (hl : frameSub [.power, .nv, .log, .video] [Reg.POWER_REQUEST] pl pk = true) (hs : OnlyIn pl pk os s) :
    OnlyIn pl pk os (powerRequestRule s v).2 := by
  unfold powerRequestRule
  repeat' (with_reducible first
    | assumption | intro _ | exact frameSub_trans (by decide) hl | exact frameKey_of hl (by decide) | exact hk
    | apply andThen_only | apply plainRule_only | apply leaveSlack_only | apply OnlyIn.ite | split | dsimp +zetaDelta only)

theorem execPowerRequestWrite_only (w : Wr) (s : State) (hl : frameSub [.power, .klp, .nv, .log, .video] [Reg.POWER_REQUEST] pl pk = true) (hs : OnlyIn pl pk os s) :
    ∃ s', execPowerRequestWrite w s = .next s' ∧ OnlyIn pl pk os s' := by
  unfold execPowerRequestWrite
  refine ⟨_, rfl, ?_⟩
  repeat' (with_reducible first
    | assumption | intro _ | exact frameSub_trans (by decide) hl | exact frameKey_of hl (by decide) | exact hk
    | apply ledgerWrite_only | apply powerRequestRule_only | dsimp +zetaDelta only)

theorem execSlackEntry_only (s : State) (hl : frameSub [.power, .focal, .pipe, .video] [Reg.IMAGER_ACTIVE] pl pk = true) (hs : OnlyIn pl pk os s) :
    ∃ s', execSlackEntry s = .next s' ∧ OnlyIn pl pk os s' := by
  unfold execSlackEntry
  refine ⟨_, rfl, ?_⟩
  repeat' (with_reducible first
    | assumption | intro _ | exact frameSub_trans (by decide) hl | exact frameKey_of hl (by decide) | exact hk
    | apply darkArray_only | apply OnlyIn.ite | extract_lets | split | exact .inl (frameSub_mem hl (by decide)) | exact .inr rfl
    | ((conv => arg 4; arg 27); apply OnlyIn.of_mk) | dsimp +zetaDelta only)

theorem execWakeHoldEnd_only (s : State) (hl : frameSub [.pwr] [] pl pk = true) (hs : OnlyIn pl pk os s) :
    ∃ s', execWakeHoldEnd s = .next s' ∧ OnlyIn pl pk os s' := by
  unfold execWakeHoldEnd
  refine ⟨_, rfl, ?_⟩
  repeat' (with_reducible first
    | assumption | intro _ | exact frameSub_trans (by decide) hl | exact frameKey_of hl (by decide) | exact hk
    | apply withPwr_only | apply OnlyIn.ite | extract_lets | split | refine OnlyIn.of_pair ?_ (by assumption)
    | exact .inl (frameSub_mem hl (by decide)) | exact .inr rfl | ((conv => arg 4; arg 27); apply OnlyIn.of_mk)
    | dsimp +zetaDelta only)

theorem resetCommandRule_only (s : State) (v : Nat) (hl : frameSub [.klp] [] pl pk = true) (hs : OnlyIn pl pk os s) :
    OnlyIn pl pk os (resetCommandRule s v).2 := by
  unfold resetCommandRule
  repeat' (with_reducible first
    | assumption | intro _ | exact frameSub_trans (by decide) hl | exact frameKey_of hl (by decide) | exact hk
    | apply OnlyIn.ite | extract_lets | split | exact .inl (frameSub_mem hl (by decide)) | exact .inr rfl
    | ((conv => arg 4; arg 27); apply OnlyIn.of_mk) | dsimp +zetaDelta only)

theorem execResetCommandWrite_only (w : Wr) (s : State) (hl : frameSub [.klp] [] pl pk = true) (hs : OnlyIn pl pk os s) :
    ∃ s', execResetCommandWrite w s = .next s' ∧ OnlyIn pl pk os s' := by
  unfold execResetCommandWrite
  refine ⟨_, rfl, ?_⟩
  repeat' (with_reducible first
    | assumption | intro _ | exact frameSub_trans (by decide) hl | exact frameKey_of hl (by decide) | exact hk
    | apply ledgerWrite_only | apply resetCommandRule_only | dsimp +zetaDelta only)

theorem execDeviceReset_only (s : State) (hl : frameSub [.regs, .phase, .power, .pfail, .tide, .mains, .hm, .klp, .nv, .window, .log, .rtc, .bus, .berth, .loop, .act, .sens, .focal, .pipe, .cal, .video, .panel, .keys, .pwr, .slip, .jtag, .freeCtr] [] pl pk = true) (hs : OnlyIn pl pk os s) :
    ∃ s', execDeviceReset s = .next s' ∧ OnlyIn pl pk os s' := by
  unfold execDeviceReset
  refine ⟨_, rfl, ?_⟩
  repeat' (with_reducible first
    | assumption | intro _ | exact frameSub_trans (by decide) hl | exact frameKey_of hl (by decide) | exact hk
    | exact frameKey_regs (frameSub_mem hl (by decide)) | apply deviceReset_only | apply OnlyIn.ite | extract_lets | split
    | refine OnlyIn.of_pair ?_ (by assumption) | exact .inl (frameSub_mem hl (by decide)) | exact .inr rfl
    | ((conv => arg 4; arg 27); apply OnlyIn.of_mk) | dsimp +zetaDelta only)

end Sys2Proof.Machine
end

