-- ==== Sys2Proof/Laws/FramesSlipway.lean ====
section
/-!
SUPPORT. What the operations of Machine/Slipway.lean change at most.
-/
namespace Sys2Proof.Machine

variable {pl : List Piece} {pk : List Nat} {os : State}

theorem slipWrite_only (s : State) (r : Req) (code : Nat) (run : State → Status × State) (hl : frameSub [.klp] [] pl pk = true) (hs : OnlyIn pl pk os s) (hrun : ∀ t, OnlyIn pl pk os t → OnlyIn pl pk os (run t).2) :
    OnlyIn pl pk os (State.slipWrite s r code run) := by
  unfold State.slipWrite
  repeat' (with_reducible first
    | assumption | intro _ | exact frameSub_trans (by decide) hl | exact frameKey_of hl (by decide) | exact hk
    | apply ledgerWrite_only | apply hrun | dsimp +zetaDelta only)

theorem execSlipVerifyDone_only (s : State) (hl : frameSub [.klp, .log, .slip] [] pl pk = true) (hs : OnlyIn pl pk os s) :
    ∃ s', execSlipVerifyDone s = .next s' ∧ OnlyIn pl pk os s' := by
  unfold execSlipVerifyDone
  refine ⟨_, rfl, ?_⟩
  repeat' (with_reducible first
    | assumption | intro _ | exact frameSub_trans (by decide) hl | exact frameKey_of hl (by decide) | exact hk
    | apply withSlip_only | apply slipReject_only | apply OnlyIn.ite | extract_lets | split
    | exact .inl (frameSub_mem hl (by decide)) | exact .inr rfl | ((conv => arg 4; arg 27); apply OnlyIn.of_mk)
    | dsimp +zetaDelta only)

theorem execSlipWriteDone_only (ok : Bool) (s : State) (hl : frameSub [.klp, .log, .slip] [] pl pk = true) (hs : OnlyIn pl pk os s) :
    ∃ s', execSlipWriteDone ok s = .next s' ∧ OnlyIn pl pk os s' := by
  unfold execSlipWriteDone
  refine ⟨_, rfl, ?_⟩
  repeat' (with_reducible first
    | assumption | intro _ | exact frameSub_trans (by decide) hl | exact frameKey_of hl (by decide) | exact hk
    | apply withSlip_only | apply pushLog_only | apply raiseIrq_only | apply slipReject_only | apply OnlyIn.ite | extract_lets
    | split | exact .inl (frameSub_mem hl (by decide)) | exact .inr rfl | ((conv => arg 4; arg 27); apply OnlyIn.of_mk)
    | dsimp +zetaDelta only)

theorem slipLoadStandbyRule_only (s : State) (hl : frameSub [.hm, .slip] [] pl pk = true) (hs : OnlyIn pl pk os s) :
    OnlyIn pl pk os (slipLoadStandbyRule s).2 := by
  unfold slipLoadStandbyRule
  repeat' (with_reducible first
    | assumption | intro _ | exact frameSub_trans (by decide) hl | exact frameKey_of hl (by decide) | exact hk
    | apply reload_only | apply withSlip_only | apply OnlyIn.ite | extract_lets | split
    | refine OnlyIn.of_pair ?_ (by assumption) | exact .inl (frameSub_mem hl (by decide)) | exact .inr rfl
    | ((conv => arg 4; arg 27); apply OnlyIn.of_mk) | dsimp +zetaDelta only)

theorem execSlipLoadStandby_only (r : Req) (s : State) (hl : frameSub [.hm, .klp, .slip] [] pl pk = true) (hs : OnlyIn pl pk os s) :
    ∃ s', execSlipLoadStandby r s = .next s' ∧ OnlyIn pl pk os s' := by
  unfold execSlipLoadStandby
  refine ⟨_, rfl, ?_⟩
  repeat' (with_reducible first
    | assumption | intro _ | exact frameSub_trans (by decide) hl | exact frameKey_of hl (by decide) | exact hk
    | apply slipWrite_only | apply slipLoadStandbyRule_only | dsimp +zetaDelta only)

theorem execSlipLoadDone_only (s : State) (hl : frameSub [.klp, .slip] [] pl pk = true) (hs : OnlyIn pl pk os s) :
    ∃ s', execSlipLoadDone s = .next s' ∧ OnlyIn pl pk os s' := by
  unfold execSlipLoadDone
  refine ⟨_, rfl, ?_⟩
  repeat' (with_reducible first
    | assumption | intro _ | exact frameSub_trans (by decide) hl | exact frameKey_of hl (by decide) | exact hk
    | apply withSlip_only | apply raiseIrq_only | apply OnlyIn.ite | extract_lets | split
    | refine OnlyIn.of_pair ?_ (by assumption) | exact .inl (frameSub_mem hl (by decide)) | exact .inr rfl
    | ((conv => arg 4; arg 27); apply OnlyIn.of_mk) | dsimp +zetaDelta only)

theorem slipSwapRule_only (s : State) (hl : frameSub [.hm] [] pl pk = true) (hs : OnlyIn pl pk os s) :
    OnlyIn pl pk os (slipSwapRule s).2 := by
  unfold slipSwapRule
  repeat' (with_reducible first
    | assumption | intro _ | exact frameSub_trans (by decide) hl | exact frameKey_of hl (by decide) | exact hk
    | apply beginSwap_only | apply OnlyIn.ite | extract_lets | split | refine OnlyIn.of_pair ?_ (by assumption)
    | exact .inl (frameSub_mem hl (by decide)) | exact .inr rfl | ((conv => arg 4; arg 27); apply OnlyIn.of_mk)
    | dsimp +zetaDelta only)

theorem execSlipSwap_only (r : Req) (s : State) (hl : frameSub [.hm, .klp] [] pl pk = true) (hs : OnlyIn pl pk os s) :
    ∃ s', execSlipSwap r s = .next s' ∧ OnlyIn pl pk os s' := by
  unfold execSlipSwap
  refine ⟨_, rfl, ?_⟩
  repeat' (with_reducible first
    | assumption | intro _ | exact frameSub_trans (by decide) hl | exact frameKey_of hl (by decide) | exact hk
    | apply slipWrite_only | apply slipSwapRule_only | dsimp +zetaDelta only)

theorem slipCommitRule_only (s : State) (hl : frameSub [.klp, .nv, .log, .pwr, .slip] [Reg.BOOT_SLOT, Reg.SECURITY_FLOOR] pl pk = true) (hs : OnlyIn pl pk os s) :
    OnlyIn pl pk os (slipCommitRule s).2 := by
  unfold slipCommitRule
  repeat' (with_reducible first
    | assumption | intro _ | exact frameSub_trans (by decide) hl | exact frameKey_of hl (by decide) | exact hk
    | apply slipCommit_only | apply OnlyIn.ite | split | dsimp +zetaDelta only)

theorem execSlipCommit_only (r : Req) (s : State) (hl : frameSub [.klp, .nv, .log, .pwr, .slip] [Reg.BOOT_SLOT, Reg.SECURITY_FLOOR] pl pk = true) (hs : OnlyIn pl pk os s) :
    ∃ s', execSlipCommit r s = .next s' ∧ OnlyIn pl pk os s' := by
  unfold execSlipCommit
  refine ⟨_, rfl, ?_⟩
  repeat' (with_reducible first
    | assumption | intro _ | exact frameSub_trans (by decide) hl | exact frameKey_of hl (by decide) | exact hk
    | apply slipWrite_only | apply slipCommitRule_only | dsimp +zetaDelta only)

theorem rollbackStandby_only (s : State) (hl : frameSub [.hm] [] pl pk = true) (hs : OnlyIn pl pk os s) :
    OnlyIn pl pk os (State.rollbackStandby s) := by
  unfold State.rollbackStandby
  repeat' (with_reducible first
    | assumption | intro _ | exact frameSub_trans (by decide) hl | exact frameKey_of hl (by decide) | exact hk
    | apply reload_only | apply OnlyIn.ite | extract_lets | split | refine OnlyIn.of_pair ?_ (by assumption)
    | exact .inl (frameSub_mem hl (by decide)) | exact .inr rfl | ((conv => arg 4; arg 27); apply OnlyIn.of_mk)
    | dsimp +zetaDelta only)

theorem slipRollbackRule_only (s : State) (hl : frameSub [.hm, .klp, .log, .slip] [] pl pk = true) (hs : OnlyIn pl pk os s) :
    OnlyIn pl pk os (slipRollbackRule s).2 := by
  unfold slipRollbackRule
  repeat' (with_reducible first
    | assumption | intro _ | exact frameSub_trans (by decide) hl | exact frameKey_of hl (by decide) | exact hk
    | apply slipRollback_only | apply rollbackStandby_only | apply OnlyIn.ite | split | dsimp +zetaDelta only)

theorem execSlipRollback_only (r : Req) (s : State) (hl : frameSub [.hm, .klp, .log, .slip] [] pl pk = true) (hs : OnlyIn pl pk os s) :
    ∃ s', execSlipRollback r s = .next s' ∧ OnlyIn pl pk os s' := by
  unfold execSlipRollback
  refine ⟨_, rfl, ?_⟩
  repeat' (with_reducible first
    | assumption | intro _ | exact frameSub_trans (by decide) hl | exact frameKey_of hl (by decide) | exact hk
    | apply slipWrite_only | apply slipRollbackRule_only | dsimp +zetaDelta only)

theorem slipAbortRule_only (s : State) (hl : frameSub [.hm, .klp, .slip] [] pl pk = true) (hs : OnlyIn pl pk os s) :
    OnlyIn pl pk os (slipAbortRule s).2 := by
  unfold slipAbortRule
  repeat' (with_reducible first
    | assumption | intro _ | exact frameSub_trans (by decide) hl | exact frameKey_of hl (by decide) | exact hk
    | apply slipAbandon_only | apply withSlip_only | apply withKlp_only | apply OnlyIn.ite | extract_lets | split
    | exact .inl (frameSub_mem hl (by decide)) | exact .inr rfl | ((conv => arg 4; arg 27); apply OnlyIn.of_mk)
    | dsimp +zetaDelta only)

theorem execSlipAbort_only (r : Req) (s : State) (hl : frameSub [.hm, .klp, .slip] [] pl pk = true) (hs : OnlyIn pl pk os s) :
    ∃ s', execSlipAbort r s = .next s' ∧ OnlyIn pl pk os s' := by
  unfold execSlipAbort
  refine ⟨_, rfl, ?_⟩
  repeat' (with_reducible first
    | assumption | intro _ | exact frameSub_trans (by decide) hl | exact frameKey_of hl (by decide) | exact hk
    | apply slipWrite_only | apply slipAbortRule_only | dsimp +zetaDelta only)

theorem slipInstallResetRule_only (s : State) (hl : frameSub [.klp, .nv, .log] [Reg.BOOT_TRIAL] pl pk = true) (hs : OnlyIn pl pk os s) :
    OnlyIn pl pk os (slipInstallResetRule s).2 := by
  unfold slipInstallResetRule
  repeat' (with_reducible first
    | assumption | intro _ | exact frameSub_trans (by decide) hl | exact frameKey_of hl (by decide) | exact hk
    | apply andThen_only | apply putEntry_only | extract_lets | split | refine OnlyIn.of_pair ?_ (by assumption)
    | exact .inl (frameSub_mem hl (by decide)) | exact .inr rfl | ((conv => arg 4; arg 27); apply OnlyIn.of_mk)
    | dsimp +zetaDelta only)

theorem execSlipInstallReset_only (r : Req) (s : State) (hl : frameSub [.klp, .nv, .log] [Reg.BOOT_TRIAL] pl pk = true) (hs : OnlyIn pl pk os s) :
    ∃ s', execSlipInstallReset r s = .next s' ∧ OnlyIn pl pk os s' := by
  unfold execSlipInstallReset
  refine ⟨_, rfl, ?_⟩
  repeat' (with_reducible first
    | assumption | intro _ | exact frameSub_trans (by decide) hl | exact frameKey_of hl (by decide) | exact hk
    | apply slipWrite_only | apply slipInstallResetRule_only | dsimp +zetaDelta only)

theorem execProbationEnd_only (s : State) (hl : frameSub [.klp, .nv, .log, .pwr, .slip] [Reg.BOOT_SLOT, Reg.SECURITY_FLOOR] pl pk = true) (hs : OnlyIn pl pk os s) :
    ∃ s', execProbationEnd s = .next s' ∧ OnlyIn pl pk os s' := by
  unfold execProbationEnd
  refine ⟨_, rfl, ?_⟩
  repeat' (with_reducible first
    | assumption | intro _ | exact frameSub_trans (by decide) hl | exact frameKey_of hl (by decide) | exact hk
    | apply slipCommit_only | apply OnlyIn.ite | extract_lets | split | refine OnlyIn.of_pair ?_ (by assumption)
    | exact .inl (frameSub_mem hl (by decide)) | exact .inr rfl | ((conv => arg 4; arg 27); apply OnlyIn.of_mk)
    | dsimp +zetaDelta only)

end Sys2Proof.Machine
end

