-- ==== Sys2Proof/Laws/FramesHarbour.lean ====
section
/-!
SUPPORT. What the operations of Machine/Harbour.lean change at most.
-/
namespace Sys2Proof.Machine

variable {pl : List Piece} {pk : List Nat} {os : State}

theorem execHeartbeatRequest_only (s : State) (hl : frameSub [.hm] [] pl pk = true) (hs : OnlyIn pl pk os s) :
    ∃ s', execHeartbeatRequest s = .next s' ∧ OnlyIn pl pk os s' := by
  unfold execHeartbeatRequest
  refine ⟨_, rfl, ?_⟩
  repeat' (with_reducible first
    | assumption | intro _ | exact frameSub_trans (by decide) hl | exact frameKey_of hl (by decide) | exact hk
    | apply setQuay_only | apply OnlyIn.foldl | apply OnlyIn.ite | extract_lets | split
    | exact .inl (frameSub_mem hl (by decide)) | exact .inr rfl | ((conv => arg 4; arg 27); apply OnlyIn.of_mk)
    | dsimp +zetaDelta only)

theorem execHeartbeatStrobe_only (q : Quay) (t : Nat) (s : State) (hl : frameSub [.hm] [Reg.WILD_STROBES] pl pk = true) (hs : OnlyIn pl pk os s) :
    ∃ s', execHeartbeatStrobe q t s = .next s' ∧ OnlyIn pl pk os s' := by
  unfold execHeartbeatStrobe
  refine ⟨_, rfl, ?_⟩
  repeat' (with_reducible first
    | assumption | intro _ | exact frameSub_trans (by decide) hl | exact frameKey_of hl (by decide) | exact hk
    | apply setQuay_only | apply incSat_only | apply OnlyIn.ite | extract_lets | split
    | exact .inl (frameSub_mem hl (by decide)) | exact .inr rfl | ((conv => arg 4; arg 27); apply OnlyIn.of_mk)
    | dsimp +zetaDelta only)

theorem windowEnd_only (s : State) (q : Quay) (hl : frameSub [.tide, .hm, .klp, .nv, .log, .bus, .loop, .act, .cal, .panel, .slip, .freeCtr] [Reg.FAILOVERS, Reg.HB_MISSES, Reg.SALVAGE_SUPPRESSED, Reg.STACK_OVERFLOWS, Reg.STORM_ENTRIES, Reg.TABLE_TAKEOVERS] pl pk = true) (hs : OnlyIn pl pk os s) :
    OnlyIn pl pk os (State.windowEnd s q) := by
  unfold State.windowEnd
  repeat' (with_reducible first
    | assumption | intro _ | exact frameSub_trans (by decide) hl | exact frameKey_of hl (by decide) | exact hk
    | apply setQuay_only | apply incSat_only | apply quayFault_only | apply OnlyIn.ite | extract_lets | split
    | exact .inl (frameSub_mem hl (by decide)) | exact .inr rfl | ((conv => arg 4; arg 27); apply OnlyIn.of_mk)
    | dsimp +zetaDelta only)

theorem execHeartbeatWindowEnd_only (s : State) (hl : frameSub [.tide, .hm, .klp, .nv, .log, .bus, .loop, .act, .cal, .panel, .slip, .freeCtr] [Reg.FAILOVERS, Reg.HB_MISSES, Reg.SALVAGE_SUPPRESSED, Reg.STACK_OVERFLOWS, Reg.STORM_ENTRIES, Reg.TABLE_TAKEOVERS] pl pk = true) (hs : OnlyIn pl pk os s) :
    ∃ s', execHeartbeatWindowEnd s = .next s' ∧ OnlyIn pl pk os s' := by
  unfold execHeartbeatWindowEnd
  refine ⟨_, rfl, ?_⟩
  repeat' (with_reducible first
    | assumption | intro _ | exact frameSub_trans (by decide) hl | exact frameKey_of hl (by decide) | exact hk
    | apply windowEnd_only | apply OnlyIn.ite | split | dsimp +zetaDelta only)

theorem execSelfCheckResponse_only (q : Quay) (value : Nat) (s : State) (hl : frameSub [.tide, .hm, .klp, .nv, .log, .bus, .loop, .act, .cal, .panel, .slip, .freeCtr] [Reg.FAILOVERS, Reg.SALVAGE_SUPPRESSED, Reg.STACK_OVERFLOWS, Reg.STORM_ENTRIES, Reg.TABLE_TAKEOVERS] pl pk = true) (hs : OnlyIn pl pk os s) :
    ∃ s', execSelfCheckResponse q value s = .next s' ∧ OnlyIn pl pk os s' := by
  unfold execSelfCheckResponse
  refine ⟨_, rfl, ?_⟩
  repeat' (with_reducible first
    | assumption | intro _ | exact frameSub_trans (by decide) hl | exact frameKey_of hl (by decide) | exact hk
    | apply challenge_only | apply setQuay_only | apply quayFault_only | apply OnlyIn.ite | extract_lets | split
    | refine OnlyIn.of_pair ?_ (by assumption) | exact .inl (frameSub_mem hl (by decide)) | exact .inr rfl
    | ((conv => arg 4; arg 27); apply OnlyIn.of_mk) | dsimp +zetaDelta only)

theorem execSelfCheckTimeout_only (q : Quay) (s : State) (hl : frameSub [.tide, .hm, .klp, .nv, .log, .bus, .loop, .act, .cal, .panel, .slip, .freeCtr] [Reg.FAILOVERS, Reg.SALVAGE_SUPPRESSED, Reg.STACK_OVERFLOWS, Reg.STORM_ENTRIES, Reg.TABLE_TAKEOVERS] pl pk = true) (hs : OnlyIn pl pk os s) :
    ∃ s', execSelfCheckTimeout q s = .next s' ∧ OnlyIn pl pk os s' := by
  unfold execSelfCheckTimeout
  refine ⟨_, rfl, ?_⟩
  repeat' (with_reducible first
    | assumption | intro _ | exact frameSub_trans (by decide) hl | exact frameKey_of hl (by decide) | exact hk
    | apply challenge_only | apply quayFault_only | apply OnlyIn.ite | split | dsimp +zetaDelta only)

theorem execWatchdogRestart_only (q : Quay) (s : State) (hl : frameSub [.hm] [] pl pk = true) (hs : OnlyIn pl pk os s) :
    ∃ s', execWatchdogRestart q s = .next s' ∧ OnlyIn pl pk os s' := by
  unfold execWatchdogRestart
  refine ⟨_, rfl, ?_⟩
  repeat' (with_reducible first
    | assumption | intro _ | exact frameSub_trans (by decide) hl | exact frameKey_of hl (by decide) | exact hk
    | apply setQuay_only | apply OnlyIn.ite | extract_lets | split | exact .inl (frameSub_mem hl (by decide)) | exact .inr rfl
    | ((conv => arg 4; arg 27); apply OnlyIn.of_mk) | dsimp +zetaDelta only)

theorem execWatchdogExpiry_only (q : Quay) (s : State) (hl : frameSub [.tide, .hm, .klp, .nv, .log, .bus, .loop, .act, .cal, .panel, .slip, .freeCtr] [Reg.FAILOVERS, Reg.SALVAGE_SUPPRESSED, Reg.STACK_OVERFLOWS, Reg.STORM_ENTRIES, Reg.TABLE_TAKEOVERS] pl pk = true) (hs : OnlyIn pl pk os s) :
    ∃ s', execWatchdogExpiry q s = .next s' ∧ OnlyIn pl pk os s' := by
  unfold execWatchdogExpiry
  refine ⟨_, rfl, ?_⟩
  repeat' (with_reducible first
    | assumption | intro _ | exact frameSub_trans (by decide) hl | exact frameKey_of hl (by decide) | exact hk
    | apply quayFault_only | apply OnlyIn.ite | split | dsimp +zetaDelta only)

theorem execQuayClockFault_only (q : Quay) (s : State) (hl : frameSub [.tide, .hm, .klp, .nv, .log, .bus, .loop, .act, .cal, .panel, .slip, .freeCtr] [Reg.FAILOVERS, Reg.SALVAGE_SUPPRESSED, Reg.STACK_OVERFLOWS, Reg.STORM_ENTRIES, Reg.TABLE_TAKEOVERS] pl pk = true) (hs : OnlyIn pl pk os s) :
    ∃ s', execQuayClockFault q s = .next s' ∧ OnlyIn pl pk os s' := by
  unfold execQuayClockFault
  refine ⟨_, rfl, ?_⟩
  repeat' (with_reducible first
    | assumption | intro _ | exact frameSub_trans (by decide) hl | exact frameKey_of hl (by decide) | exact hk
    | apply quayFault_only | dsimp +zetaDelta only)

theorem execQuayRailFault_only (q : Quay) (s : State) (hl : frameSub [.tide, .hm, .klp, .nv, .log, .bus, .loop, .act, .cal, .panel, .slip, .freeCtr] [Reg.FAILOVERS, Reg.SALVAGE_SUPPRESSED, Reg.STACK_OVERFLOWS, Reg.STORM_ENTRIES, Reg.TABLE_TAKEOVERS] pl pk = true) (hs : OnlyIn pl pk os s) :
    ∃ s', execQuayRailFault q s = .next s' ∧ OnlyIn pl pk os s' := by
  unfold execQuayRailFault
  refine ⟨_, rfl, ?_⟩
  repeat' (with_reducible first
    | assumption | intro _ | exact frameSub_trans (by decide) hl | exact frameKey_of hl (by decide) | exact hk
    | apply quayFault_only | dsimp +zetaDelta only)

theorem execPilotMemoryError_only (q : Quay) (m addr : Nat) (s : State) (hl : frameSub [.regs, .hm, .klp, .nv, .log, .bus, .loop, .act, .panel, .slip, .freeCtr] [] pl pk = true) (hs : OnlyIn pl pk os s) :
    ∃ s', execPilotMemoryError q m addr s = .next s' ∧ OnlyIn pl pk os s' := by
  unfold execPilotMemoryError
  refine ⟨_, rfl, ?_⟩
  repeat' (with_reducible first
    | assumption | intro _ | exact frameSub_trans (by decide) hl | exact frameKey_of hl (by decide) | exact hk
    | exact frameKey_regs (frameSub_mem hl (by decide)) | apply uncorrectable_only | apply stackOverflow_only
    | apply pushEntry_only | apply OnlyIn.ite | extract_lets | split | dsimp +zetaDelta only)

theorem execMemoryRetryOutcome_only (q : Quay) (ok : Bool) (s : State) (hl : frameSub [.tide, .hm, .klp, .nv, .log, .bus, .loop, .act, .cal, .panel, .slip, .freeCtr] [Reg.FAILOVERS, Reg.SALVAGE_SUPPRESSED, Reg.STACK_OVERFLOWS, Reg.STORM_ENTRIES, Reg.TABLE_TAKEOVERS] pl pk = true) (hs : OnlyIn pl pk os s) :
    ∃ s', execMemoryRetryOutcome q ok s = .next s' ∧ OnlyIn pl pk os s' := by
  unfold execMemoryRetryOutcome
  refine ⟨_, rfl, ?_⟩
  repeat' (with_reducible first
    | assumption | intro _ | exact frameSub_trans (by decide) hl | exact frameKey_of hl (by decide) | exact hk
    | apply popFault_only | apply dropFault_only | apply quayFault_only | apply OnlyIn.ite | extract_lets | split
    | refine OnlyIn.of_pair ?_ (by assumption) | exact .inl (frameSub_mem hl (by decide)) | exact .inr rfl
    | ((conv => arg 4; arg 27); apply OnlyIn.of_mk) | dsimp +zetaDelta only)

theorem execHmVoteMismatch_only (copy : Nat) (agree : Bool) (s : State) (hl : frameSub [.regs, .phase, .power, .pfail, .tide, .mains, .hm, .klp, .nv, .window, .log, .rtc, .bus, .berth, .loop, .act, .sens, .focal, .pipe, .cal, .video, .panel, .keys, .pwr, .slip, .jtag, .freeCtr] [] pl pk = true) (hs : OnlyIn pl pk os s) :
    ∃ s', execHmVoteMismatch copy agree s = .next s' ∧ OnlyIn pl pk os s' := by
  unfold execHmVoteMismatch
  refine ⟨_, rfl, ?_⟩
  repeat' (with_reducible first
    | assumption | intro _ | exact frameSub_trans (by decide) hl | exact frameKey_of hl (by decide) | exact hk
    | exact frameKey_regs (frameSub_mem hl (by decide)) | apply deviceReset_only | apply withHm_only | apply recordFault_only
    | apply OnlyIn.ite | extract_lets | split | exact .inl (frameSub_mem hl (by decide)) | exact .inr rfl
    | ((conv => arg 4; arg 27); apply OnlyIn.of_mk) | dsimp +zetaDelta only)

theorem wharfPut_only (s : State) (out v : Nat) (hl : frameSub [.klp, .bus, .act] [] pl pk = true) (hs : OnlyIn pl pk os s) :
    OnlyIn pl pk os (State.wharfPut s out v) := by
  unfold State.wharfPut
  repeat' (with_reducible first
    | assumption | intro _ | exact frameSub_trans (by decide) hl | exact frameKey_of hl (by decide) | exact hk
    | apply commandOut_only | apply commandFan_only | apply OnlyIn.ite | split | dsimp +zetaDelta only)

theorem execWharfWrite_only (q : Quay) (out v : Nat) (s : State) (hl : frameSub [.klp, .bus, .act] [Reg.WHARF_REJECTS] pl pk = true) (hs : OnlyIn pl pk os s) :
    ∃ s', execWharfWrite q out v s = .next s' ∧ OnlyIn pl pk os s' := by
  unfold execWharfWrite
  refine ⟨_, rfl, ?_⟩
  repeat' (with_reducible first
    | assumption | intro _ | exact frameSub_trans (by decide) hl | exact frameKey_of hl (by decide) | exact hk
    | apply wharfPut_only | apply incSat_only | apply OnlyIn.ite | split | dsimp +zetaDelta only)

theorem goodCheckpoint_only (s : State) (q : Quay) (len : Nat) (hl : frameSub [.hm, .log, .loop, .slip] [Reg.CHECKPOINT_TICK] pl pk = true) (hs : OnlyIn pl pk os s) :
    OnlyIn pl pk os (State.goodCheckpoint s q len) := by
  unfold State.goodCheckpoint
  repeat' (with_reducible first
    | assumption | intro _ | exact frameSub_trans (by decide) hl | exact frameKey_of hl (by decide) | exact hk
    | apply withHm_only | apply setReg_only | apply moveToken_only | apply OnlyIn.ite | extract_lets | split
    | exact .inl (frameSub_mem hl (by decide)) | exact .inr rfl | ((conv => arg 4; arg 27); apply OnlyIn.of_mk)
    | dsimp +zetaDelta only)

theorem badCheckpoint_only (s : State) (q : Quay) (hl : frameSub [.hm, .klp, .nv, .log, .bus, .loop, .act, .panel, .slip, .freeCtr] [Reg.CHECKPOINT_BAD, Reg.SALVAGE_SUPPRESSED, Reg.STACK_OVERFLOWS, Reg.STORM_ENTRIES, Reg.TABLE_TAKEOVERS] pl pk = true) (hs : OnlyIn pl pk os s) :
    OnlyIn pl pk os (State.badCheckpoint s q) := by
  unfold State.badCheckpoint
  repeat' (with_reducible first
    | assumption | intro _ | exact frameSub_trans (by decide) hl | exact frameKey_of hl (by decide) | exact hk
    | apply withHm_only | apply incSat_only | apply recordFault_only | apply OnlyIn.ite | extract_lets | split
    | exact .inl (frameSub_mem hl (by decide)) | exact .inr rfl | ((conv => arg 4; arg 27); apply OnlyIn.of_mk)
    | dsimp +zetaDelta only)

theorem execCheckpointArrival_only (good : Bool) (len : Nat) (s : State) (hl : frameSub [.hm, .klp, .nv, .log, .bus, .loop, .act, .panel, .slip, .freeCtr] [Reg.CHECKPOINT_BAD, Reg.CHECKPOINT_BYTES, Reg.CHECKPOINT_TICK, Reg.SALVAGE_SUPPRESSED, Reg.STACK_OVERFLOWS, Reg.STORM_ENTRIES, Reg.TABLE_TAKEOVERS] pl pk = true) (hs : OnlyIn pl pk os s) :
    ∃ s', execCheckpointArrival good len s = .next s' ∧ OnlyIn pl pk os s' := by
  unfold execCheckpointArrival
  refine ⟨_, rfl, ?_⟩
  repeat' (with_reducible first
    | assumption | intro _ | exact frameSub_trans (by decide) hl | exact frameKey_of hl (by decide) | exact hk
    | apply setReg_only | apply goodCheckpoint_only | apply badCheckpoint_only | apply OnlyIn.ite | extract_lets | split
    | refine OnlyIn.of_pair ?_ (by assumption) | exact .inl (frameSub_mem hl (by decide)) | exact .inr rfl
    | ((conv => arg 4; arg 27); apply OnlyIn.of_mk) | dsimp +zetaDelta only)

theorem setOutage_only (s : State) (ns : Nat) (hl : frameSub [] [Reg.LAST_OUTAGE, Reg.MAX_OUTAGE] pl pk = true) (hs : OnlyIn pl pk os s) :
    OnlyIn pl pk os (State.setOutage s ns) := by
  unfold State.setOutage
  repeat' (with_reducible first
    | assumption | intro _ | exact frameSub_trans (by decide) hl | exact frameKey_of hl (by decide) | exact hk
    | apply setReg_only | extract_lets | dsimp +zetaDelta only)

theorem execTakeoverTimeout_only (s : State) (hl : frameSub [.tide, .hm, .klp, .nv, .log, .bus, .loop, .act, .cal, .panel, .slip, .freeCtr] [Reg.FAILOVERS, Reg.SALVAGE_SUPPRESSED, Reg.STACK_OVERFLOWS, Reg.STORM_ENTRIES, Reg.TABLE_TAKEOVERS] pl pk = true) (hs : OnlyIn pl pk os s) :
    ∃ s', execTakeoverTimeout s = .next s' ∧ OnlyIn pl pk os s' := by
  unfold execTakeoverTimeout
  refine ⟨_, rfl, ?_⟩
  repeat' (with_reducible first
    | assumption | intro _ | exact frameSub_trans (by decide) hl | exact frameKey_of hl (by decide) | exact hk
    | apply quayFault_only | apply OnlyIn.ite | extract_lets | split | refine OnlyIn.of_pair ?_ (by assumption)
    | exact .inl (frameSub_mem hl (by decide)) | exact .inr rfl | ((conv => arg 4; arg 27); apply OnlyIn.of_mk)
    | dsimp +zetaDelta only)

theorem execQuayResetRelease_only (q : Quay) (s : State) (hl : frameSub [.hm] [] pl pk = true) (hs : OnlyIn pl pk os s) :
    ∃ s', execQuayResetRelease q s = .next s' ∧ OnlyIn pl pk os s' := by
  unfold execQuayResetRelease
  refine ⟨_, rfl, ?_⟩
  repeat' (with_reducible first
    | assumption | intro _ | exact frameSub_trans (by decide) hl | exact frameKey_of hl (by decide) | exact hk
    | apply setQuay_only | apply OnlyIn.ite | extract_lets | split | exact .inl (frameSub_mem hl (by decide)) | exact .inr rfl
    | ((conv => arg 4; arg 27); apply OnlyIn.of_mk) | dsimp +zetaDelta only)

theorem selfTestPass_only (s : State) (q : Quay) (hl : frameSub [.hm, .pwr] [Reg.OWNER_MS] pl pk = true) (hs : OnlyIn pl pk os s) :
    OnlyIn pl pk os (State.selfTestPass s q) := by
  unfold State.selfTestPass
  repeat' (with_reducible first
    | assumption | intro _ | exact frameSub_trans (by decide) hl | exact frameKey_of hl (by decide) | exact hk
    | apply setQuay_only | apply grantToken_only | apply releaseHeld_only | apply OnlyIn.ite | extract_lets | split
    | exact .inl (frameSub_mem hl (by decide)) | exact .inr rfl | ((conv => arg 4; arg 27); apply OnlyIn.of_mk)
    | dsimp +zetaDelta only)

theorem execQuaySelfTestDone_only (q : Quay) (pass : Bool) (s : State) (hl : frameSub [.tide, .hm, .klp, .bus, .pwr] [Reg.OWNER_MS] pl pk = true) (hs : OnlyIn pl pk os s) :
    ∃ s', execQuaySelfTestDone q pass s = .next s' ∧ OnlyIn pl pk os s' := by
  unfold execQuaySelfTestDone
  refine ⟨_, rfl, ?_⟩
  repeat' (with_reducible first
    | assumption | intro _ | exact frameSub_trans (by decide) hl | exact frameKey_of hl (by decide) | exact hk
    | apply selfTestPass_only | apply goOut_only | apply OnlyIn.ite | extract_lets | split | dsimp +zetaDelta only)

theorem execPassHoldTimeout_only (q : Quay) (s : State) (hl : frameSub [.hm, .pwr] [Reg.OWNER_MS] pl pk = true) (hs : OnlyIn pl pk os s) :
    ∃ s', execPassHoldTimeout q s = .next s' ∧ OnlyIn pl pk os s' := by
  unfold execPassHoldTimeout
  refine ⟨_, rfl, ?_⟩
  repeat' (with_reducible first
    | assumption | intro _ | exact frameSub_trans (by decide) hl | exact frameKey_of hl (by decide) | exact hk
    | apply grantToken_only | apply OnlyIn.ite | extract_lets | split | dsimp +zetaDelta only)

theorem execQuaySyncDone_only (q : Quay) (s : State) (hl : frameSub [.hm, .log] [] pl pk = true) (hs : OnlyIn pl pk os s) :
    ∃ s', execQuaySyncDone q s = .next s' ∧ OnlyIn pl pk os s' := by
  unfold execQuaySyncDone
  refine ⟨_, rfl, ?_⟩
  repeat' (with_reducible first
    | assumption | intro _ | exact frameSub_trans (by decide) hl | exact frameKey_of hl (by decide) | exact hk
    | apply reachStandby_only | apply beginSwap_only | apply OnlyIn.ite | split | dsimp +zetaDelta only)

theorem execQuayFailWindowExpiry_only (q : Quay) (s : State) (hl : frameSub [.hm] [] pl pk = true) (hs : OnlyIn pl pk os s) :
    ∃ s', execQuayFailWindowExpiry q s = .next s' ∧ OnlyIn pl pk os s' := by
  unfold execQuayFailWindowExpiry
  refine ⟨_, rfl, ?_⟩
  repeat' (with_reducible first
    | assumption | intro _ | exact frameSub_trans (by decide) hl | exact frameKey_of hl (by decide) | exact hk
    | apply setQuay_only | apply OnlyIn.ite | extract_lets | split | refine OnlyIn.of_pair ?_ (by assumption)
    | exact .inl (frameSub_mem hl (by decide)) | exact .inr rfl | ((conv => arg 4; arg 27); apply OnlyIn.of_mk)
    | dsimp +zetaDelta only)

theorem execSalvageAfterFailover_only (s : State) (hl : frameSub [.hm, .nv, .log] [Reg.SALVAGE_SUPPRESSED] pl pk = true) (hs : OnlyIn pl pk os s) :
    ∃ s', execSalvageAfterFailover s = .next s' ∧ OnlyIn pl pk os s' := by
  unfold execSalvageAfterFailover
  refine ⟨_, rfl, ?_⟩
  repeat' (with_reducible first
    | assumption | intro _ | exact frameSub_trans (by decide) hl | exact frameKey_of hl (by decide) | exact hk
    | apply withHm_only | apply writeSalvage_only | extract_lets | split | refine OnlyIn.of_pair ?_ (by assumption)
    | exact .inl (frameSub_mem hl (by decide)) | exact .inr rfl | ((conv => arg 4; arg 27); apply OnlyIn.of_mk)
    | dsimp +zetaDelta only)

theorem execStormAutoExit_only (s : State) (hl : frameSub [.hm, .klp, .log, .bus, .loop, .panel] [Reg.TABLE_TAKEOVERS] pl pk = true) (hs : OnlyIn pl pk os s) :
    ∃ s', execStormAutoExit s = .next s' ∧ OnlyIn pl pk os s' := by
  unfold execStormAutoExit
  refine ⟨_, rfl, ?_⟩
  repeat' (with_reducible first
    | assumption | intro _ | exact frameSub_trans (by decide) hl | exact frameKey_of hl (by decide) | exact hk
    | apply leaveStorm_only | apply OnlyIn.ite | extract_lets | split | refine OnlyIn.of_pair ?_ (by assumption)
    | exact .inl (frameSub_mem hl (by decide)) | exact .inr rfl | ((conv => arg 4; arg 27); apply OnlyIn.of_mk)
    | dsimp +zetaDelta only)

theorem stormValueRule_only (n : Nat) (s : State) (v : Nat) (hl : frameSub [.regs, .nv, .log, .bus, .act] [] pl pk = true) (hs : OnlyIn pl pk os s) :
    OnlyIn pl pk os (stormValueRule n s v).2 := by
  unfold stormValueRule
  repeat' (with_reducible first
    | assumption | intro _ | exact frameSub_trans (by decide) hl | exact frameKey_of hl (by decide) | exact hk
    | exact frameKey_regs (frameSub_mem hl (by decide)) | apply andThen_only | apply plainRule_only | apply applyStorm_only | apply stormQueues_only
    | apply OnlyIn.ite | split | exact .inl (frameSub_mem hl (by decide)) | exact .inr rfl
    | ((conv => arg 4; arg 27); apply OnlyIn.of_mk) | dsimp +zetaDelta only)

theorem execStormValueWrite_only (n : Nat) (w : Wr) (s : State) (hl : frameSub [.regs, .klp, .nv, .log, .bus, .act] [] pl pk = true) (hs : OnlyIn pl pk os s) :
    ∃ s', execStormValueWrite n w s = .next s' ∧ OnlyIn pl pk os s' := by
  unfold execStormValueWrite
  refine ⟨_, rfl, ?_⟩
  repeat' (with_reducible first
    | assumption | intro _ | exact frameSub_trans (by decide) hl | exact frameKey_of hl (by decide) | exact hk
    | exact frameKey_regs (frameSub_mem hl (by decide)) | apply ledgerWrite_only | apply stormValueRule_only
    | dsimp +zetaDelta only)

theorem salvageReleaseRule_only (s : State) (v : Nat) (hl : frameSub [.hm] [] pl pk = true) (hs : OnlyIn pl pk os s) :
    OnlyIn pl pk os (salvageReleaseRule s v).2 := by
  unfold salvageReleaseRule
  repeat' (with_reducible first
    | assumption | intro _ | exact frameSub_trans (by decide) hl | exact frameKey_of hl (by decide) | exact hk
    | apply withHm_only | apply OnlyIn.ite | extract_lets | split | exact .inl (frameSub_mem hl (by decide)) | exact .inr rfl
    | ((conv => arg 4; arg 27); apply OnlyIn.of_mk) | dsimp +zetaDelta only)

theorem execSalvageRelease_only (w : Wr) (s : State) (hl : frameSub [.hm, .klp] [] pl pk = true) (hs : OnlyIn pl pk os s) :
    ∃ s', execSalvageRelease w s = .next s' ∧ OnlyIn pl pk os s' := by
  unfold execSalvageRelease
  refine ⟨_, rfl, ?_⟩
  repeat' (with_reducible first
    | assumption | intro _ | exact frameSub_trans (by decide) hl | exact frameKey_of hl (by decide) | exact hk
    | apply ledgerWrite_only | apply salvageReleaseRule_only | dsimp +zetaDelta only)

theorem hmWrite_only (s : State) (r : Req) (code : Nat) (run : State → Status × State) (hl : frameSub [.klp] [] pl pk = true) (hs : OnlyIn pl pk os s) (hrun : ∀ t, OnlyIn pl pk os t → OnlyIn pl pk os (run t).2) :
    OnlyIn pl pk os (State.hmWrite s r code run) := by
  unfold State.hmWrite
  repeat' (with_reducible first
    | assumption | intro _ | exact frameSub_trans (by decide) hl | exact frameKey_of hl (by decide) | exact hk
    | apply ledgerWrite_only | apply hrun | dsimp +zetaDelta only)

theorem hmSwapRule_only (s : State) (hl : frameSub [.hm] [] pl pk = true) (hs : OnlyIn pl pk os s) :
    OnlyIn pl pk os (hmSwapRule s).2 := by
  unfold hmSwapRule
  repeat' (with_reducible first
    | assumption | intro _ | exact frameSub_trans (by decide) hl | exact frameKey_of hl (by decide) | exact hk
    | apply beginSwap_only | apply OnlyIn.ite | extract_lets | split | refine OnlyIn.of_pair ?_ (by assumption)
    | exact .inl (frameSub_mem hl (by decide)) | exact .inr rfl | ((conv => arg 4; arg 27); apply OnlyIn.of_mk)
    | dsimp +zetaDelta only)

theorem execHmSwap_only (r : Req) (s : State) (hl : frameSub [.hm, .klp] [] pl pk = true) (hs : OnlyIn pl pk os s) :
    ∃ s', execHmSwap r s = .next s' ∧ OnlyIn pl pk os s' := by
  unfold execHmSwap
  refine ⟨_, rfl, ?_⟩
  repeat' (with_reducible first
    | assumption | intro _ | exact frameSub_trans (by decide) hl | exact frameKey_of hl (by decide) | exact hk
    | apply hmWrite_only | apply hmSwapRule_only | dsimp +zetaDelta only)

theorem rejoin_only (s : State) (q : Quay) (hl : frameSub [.hm, .klp, .bus] [] pl pk = true) (hs : OnlyIn pl pk os s) :
    OnlyIn pl pk os (State.rejoin s q) := by
  unfold State.rejoin
  repeat' (with_reducible first
    | assumption | intro _ | exact frameSub_trans (by decide) hl | exact frameKey_of hl (by decide) | exact hk
    | apply reload_only | apply setQuay_only | apply alarmOf_only | apply OnlyIn.ite | extract_lets | split
    | exact .inl (frameSub_mem hl (by decide)) | exact .inr rfl | ((conv => arg 4; arg 27); apply OnlyIn.of_mk)
    | dsimp +zetaDelta only)

theorem hmRejoinTestRule_only (s : State) (hl : frameSub [.hm, .klp, .bus] [] pl pk = true) (hs : OnlyIn pl pk os s) :
    OnlyIn pl pk os (hmRejoinTestRule s).2 := by
  unfold hmRejoinTestRule
  repeat' (with_reducible first
    | assumption | intro _ | exact frameSub_trans (by decide) hl | exact frameKey_of hl (by decide) | exact hk
    | apply rejoin_only | apply OnlyIn.ite | split | dsimp +zetaDelta only)

theorem execHmRejoinTest_only (r : Req) (s : State) (hl : frameSub [.hm, .klp, .bus] [] pl pk = true) (hs : OnlyIn pl pk os s) :
    ∃ s', execHmRejoinTest r s = .next s' ∧ OnlyIn pl pk os s' := by
  unfold execHmRejoinTest
  refine ⟨_, rfl, ?_⟩
  repeat' (with_reducible first
    | assumption | intro _ | exact frameSub_trans (by decide) hl | exact frameKey_of hl (by decide) | exact hk
    | apply hmWrite_only | apply hmRejoinTestRule_only | dsimp +zetaDelta only)

theorem hmStormExitRule_only (s : State) (hl : frameSub [.hm, .klp, .log, .bus, .loop, .panel] [Reg.TABLE_TAKEOVERS] pl pk = true) (hs : OnlyIn pl pk os s) :
    OnlyIn pl pk os (hmStormExitRule s).2 := by
  unfold hmStormExitRule
  repeat' (with_reducible first
    | assumption | intro _ | exact frameSub_trans (by decide) hl | exact frameKey_of hl (by decide) | exact hk
    | apply leaveStorm_only | apply OnlyIn.ite | split | dsimp +zetaDelta only)

theorem execHmStormExit_only (r : Req) (s : State) (hl : frameSub [.hm, .klp, .log, .bus, .loop, .panel] [Reg.TABLE_TAKEOVERS] pl pk = true) (hs : OnlyIn pl pk os s) :
    ∃ s', execHmStormExit r s = .next s' ∧ OnlyIn pl pk os s' := by
  unfold execHmStormExit
  refine ⟨_, rfl, ?_⟩
  repeat' (with_reducible first
    | assumption | intro _ | exact frameSub_trans (by decide) hl | exact frameKey_of hl (by decide) | exact hk
    | apply hmWrite_only | apply hmStormExitRule_only | dsimp +zetaDelta only)

theorem hmStormEnterRule_only (s : State) (hl : frameSub [.hm, .klp, .nv, .log, .bus, .loop, .act, .panel, .slip, .freeCtr] [Reg.SALVAGE_SUPPRESSED, Reg.STACK_OVERFLOWS, Reg.STORM_ENTRIES, Reg.TABLE_TAKEOVERS] pl pk = true) (hs : OnlyIn pl pk os s) :
    OnlyIn pl pk os (hmStormEnterRule s).2 := by
  unfold hmStormEnterRule
  repeat' (with_reducible first
    | assumption | intro _ | exact frameSub_trans (by decide) hl | exact frameKey_of hl (by decide) | exact hk
    | apply stormFault_only | dsimp +zetaDelta only)

theorem execHmStormEnter_only (r : Req) (s : State) (hl : frameSub [.hm, .klp, .nv, .log, .bus, .loop, .act, .panel, .slip, .freeCtr] [Reg.SALVAGE_SUPPRESSED, Reg.STACK_OVERFLOWS, Reg.STORM_ENTRIES, Reg.TABLE_TAKEOVERS] pl pk = true) (hs : OnlyIn pl pk os s) :
    ∃ s', execHmStormEnter r s = .next s' ∧ OnlyIn pl pk os s' := by
  unfold execHmStormEnter
  refine ⟨_, rfl, ?_⟩
  repeat' (with_reducible first
    | assumption | intro _ | exact frameSub_trans (by decide) hl | exact frameKey_of hl (by decide) | exact hk
    | apply hmWrite_only | apply hmStormEnterRule_only | dsimp +zetaDelta only)

theorem retireActive_only (s : State) (q : Quay) (hl : frameSub [.tide, .hm, .klp, .bus, .loop, .pwr] [Reg.OWNER_MS] pl pk = true) (hs : OnlyIn pl pk os s) :
    OnlyIn pl pk os (State.retireActive s q) := by
  unfold State.retireActive
  repeat' (with_reducible first
    | assumption | intro _ | exact frameSub_trans (by decide) hl | exact frameKey_of hl (by decide) | exact hk
    | apply goOut_only | apply setQuay_only | apply withHm_only | apply restoreCheckpoint_only | extract_lets
    | exact .inl (frameSub_mem hl (by decide)) | exact .inr rfl | ((conv => arg 4; arg 27); apply OnlyIn.of_mk)
    | dsimp +zetaDelta only)

theorem retire_only (s : State) (q : Quay) (hl : frameSub [.tide, .hm, .klp, .bus, .loop, .pwr] [Reg.OWNER_MS] pl pk = true) (hs : OnlyIn pl pk os s) :
    OnlyIn pl pk os (State.retire s q).2 := by
  unfold State.retire
  repeat' (with_reducible first
    | assumption | intro _ | exact frameSub_trans (by decide) hl | exact frameKey_of hl (by decide) | exact hk
    | apply retireActive_only | apply goOut_only | apply OnlyIn.ite | split | dsimp +zetaDelta only)

theorem hmRetireARule_only (s : State) (hl : frameSub [.tide, .hm, .klp, .bus, .loop, .pwr] [Reg.OWNER_MS] pl pk = true) (hs : OnlyIn pl pk os s) :
    OnlyIn pl pk os (hmRetireARule s).2 := by
  unfold hmRetireARule
  repeat' (with_reducible first
    | assumption | intro _ | exact frameSub_trans (by decide) hl | exact frameKey_of hl (by decide) | exact hk
    | apply retire_only | dsimp +zetaDelta only)

theorem execHmRetireA_only (r : Req) (s : State) (hl : frameSub [.tide, .hm, .klp, .bus, .loop, .pwr] [Reg.OWNER_MS] pl pk = true) (hs : OnlyIn pl pk os s) :
    ∃ s', execHmRetireA r s = .next s' ∧ OnlyIn pl pk os s' := by
  unfold execHmRetireA
  refine ⟨_, rfl, ?_⟩
  repeat' (with_reducible first
    | assumption | intro _ | exact frameSub_trans (by decide) hl | exact frameKey_of hl (by decide) | exact hk
    | apply hmWrite_only | apply hmRetireARule_only | dsimp +zetaDelta only)

theorem hmRetireBRule_only (s : State) (hl : frameSub [.tide, .hm, .klp, .bus, .loop, .pwr] [Reg.OWNER_MS] pl pk = true) (hs : OnlyIn pl pk os s) :
    OnlyIn pl pk os (hmRetireBRule s).2 := by
  unfold hmRetireBRule
  repeat' (with_reducible first
    | assumption | intro _ | exact frameSub_trans (by decide) hl | exact frameKey_of hl (by decide) | exact hk
    | apply retire_only | dsimp +zetaDelta only)

theorem execHmRetireB_only (r : Req) (s : State) (hl : frameSub [.tide, .hm, .klp, .bus, .loop, .pwr] [Reg.OWNER_MS] pl pk = true) (hs : OnlyIn pl pk os s) :
    ∃ s', execHmRetireB r s = .next s' ∧ OnlyIn pl pk os s' := by
  unfold execHmRetireB
  refine ⟨_, rfl, ?_⟩
  repeat' (with_reducible first
    | assumption | intro _ | exact frameSub_trans (by decide) hl | exact frameKey_of hl (by decide) | exact hk
    | apply hmWrite_only | apply hmRetireBRule_only | dsimp +zetaDelta only)

theorem hmClearCountsRule_only (s : State) (hl : frameSub [.hm] [] pl pk = true) (hs : OnlyIn pl pk os s) :
    OnlyIn pl pk os (hmClearCountsRule s).2 := by
  unfold hmClearCountsRule
  repeat' (with_reducible first
    | assumption | intro _ | exact frameSub_trans (by decide) hl | exact frameKey_of hl (by decide) | exact hk
    | apply setQuay_only | apply withHm_only | extract_lets | exact .inl (frameSub_mem hl (by decide)) | exact .inr rfl
    | ((conv => arg 4; arg 27); apply OnlyIn.of_mk) | dsimp +zetaDelta only)

theorem execHmClearCounts_only (r : Req) (s : State) (hl : frameSub [.hm, .klp] [] pl pk = true) (hs : OnlyIn pl pk os s) :
    ∃ s', execHmClearCounts r s = .next s' ∧ OnlyIn pl pk os s' := by
  unfold execHmClearCounts
  refine ⟨_, rfl, ?_⟩
  repeat' (with_reducible first
    | assumption | intro _ | exact frameSub_trans (by decide) hl | exact frameKey_of hl (by decide) | exact hk
    | apply hmWrite_only | apply hmClearCountsRule_only | dsimp +zetaDelta only)

end Sys2Proof.Machine
end

