-- ==== Sys2Proof/Laws/FramesTide.lean ====
section
/-!
SUPPORT. What the operations of Machine/Tide.lean change at most.
-/
namespace Sys2Proof.Machine

variable {pl : List Piece} {pk : List Nat} {os : State}

theorem withTide_only (s : State) (t : Tide) (hl : frameSub [.tide] [] pl pk = true) (hs : OnlyIn pl pk os s) :
    OnlyIn pl pk os (State.withTide s t) := by
  unfold State.withTide
  repeat' (with_reducible first
    | assumption | intro _ | exact frameSub_trans (by decide) hl | exact frameKey_of hl (by decide) | exact hk | extract_lets
    | exact .inl (frameSub_mem hl (by decide)) | exact .inr rfl | ((conv => arg 4; arg 27); apply OnlyIn.of_mk)
    | dsimp +zetaDelta only)

theorem withMains_only (s : State) (m : Mains) (hl : frameSub [.mains] [] pl pk = true) (hs : OnlyIn pl pk os s) :
    OnlyIn pl pk os (State.withMains s m) := by
  unfold State.withMains
  repeat' (with_reducible first
    | assumption | intro _ | exact frameSub_trans (by decide) hl | exact frameKey_of hl (by decide) | exact hk | extract_lets
    | exact .inl (frameSub_mem hl (by decide)) | exact .inr rfl | ((conv => arg 4; arg 27); apply OnlyIn.of_mk)
    | dsimp +zetaDelta only)

theorem execTideStart_only (s : State) (hl : frameSub [.regs, .tide, .klp, .nv, .log, .rtc, .bus, .loop, .act, .panel] [] pl pk = true) (hs : OnlyIn pl pk os s) :
    ∃ s', execTideStart s = .next s' ∧ OnlyIn pl pk os s' := by
  unfold execTideStart
  refine ⟨_, rfl, ?_⟩
  repeat' (with_reducible first
    | assumption | intro _ | exact frameSub_trans (by decide) hl | exact frameKey_of hl (by decide) | exact hk
    | exact frameKey_regs (frameSub_mem hl (by decide)) | apply tideStart_only | apply OnlyIn.ite | split
    | dsimp +zetaDelta only)

theorem execMasterStartTimeout_only (s : State) (hl : frameSub [.regs, .tide, .klp, .nv, .log, .rtc, .bus, .loop, .act, .panel] [] pl pk = true) (hs : OnlyIn pl pk os s) :
    ∃ s', execMasterStartTimeout s = .next s' ∧ OnlyIn pl pk os s' := by
  unfold execMasterStartTimeout
  refine ⟨_, rfl, ?_⟩
  repeat' (with_reducible first
    | assumption | intro _ | exact frameSub_trans (by decide) hl | exact frameKey_of hl (by decide) | exact hk
    | exact frameKey_regs (frameSub_mem hl (by decide)) | apply tideStart_only | apply OnlyIn.ite | split
    | dsimp +zetaDelta only)

theorem execPllLock_only (p : Pll) (s : State) (hl : frameSub [.tide] [] pl pk = true) (hs : OnlyIn pl pk os s) :
    ∃ s', execPllLock p s = .next s' ∧ OnlyIn pl pk os s' := by
  unfold execPllLock
  refine ⟨_, rfl, ?_⟩
  repeat' (with_reducible first
    | assumption | intro _ | exact frameSub_trans (by decide) hl | exact frameKey_of hl (by decide) | exact hk
    | apply withTide_only | extract_lets | exact .inl (frameSub_mem hl (by decide)) | exact .inr rfl
    | ((conv => arg 4; arg 27); apply OnlyIn.of_mk) | dsimp +zetaDelta only)

theorem execPllUnlock_only (p : Pll) (s : State) (hl : frameSub [.tide] [] pl pk = true) (hs : OnlyIn pl pk os s) :
    ∃ s', execPllUnlock p s = .next s' ∧ OnlyIn pl pk os s' := by
  unfold execPllUnlock
  refine ⟨_, rfl, ?_⟩
  repeat' (with_reducible first
    | assumption | intro _ | exact frameSub_trans (by decide) hl | exact frameKey_of hl (by decide) | exact hk
    | apply withTide_only | extract_lets | exact .inl (frameSub_mem hl (by decide)) | exact .inr rfl
    | ((conv => arg 4; arg 27); apply OnlyIn.of_mk) | dsimp +zetaDelta only)

theorem execMasterClockLoss_only (s : State) (hl : frameSub [.tide, .hm, .klp, .nv, .log, .bus, .loop, .act, .panel, .slip, .freeCtr] [Reg.MASTER_FAILS, Reg.SALVAGE_SUPPRESSED, Reg.STACK_OVERFLOWS, Reg.STORM_ENTRIES, Reg.TABLE_TAKEOVERS] pl pk = true) (hs : OnlyIn pl pk os s) :
    ∃ s', execMasterClockLoss s = .next s' ∧ OnlyIn pl pk os s' := by
  unfold execMasterClockLoss
  refine ⟨_, rfl, ?_⟩
  repeat' (with_reducible first
    | assumption | intro _ | exact frameSub_trans (by decide) hl | exact frameKey_of hl (by decide) | exact hk
    | apply withTide_only | apply countUp_only | apply recordFault_only | apply OnlyIn.ite | extract_lets | split
    | exact .inl (frameSub_mem hl (by decide)) | exact .inr rfl | ((conv => arg 4; arg 27); apply OnlyIn.of_mk)
    | dsimp +zetaDelta only)

theorem execPllRelock_only (s : State) (hl : frameSub [.tide] [] pl pk = true) (hs : OnlyIn pl pk os s) :
    ∃ s', execPllRelock s = .next s' ∧ OnlyIn pl pk os s' := by
  unfold execPllRelock
  refine ⟨_, rfl, ?_⟩
  repeat' (with_reducible first
    | assumption | intro _ | exact frameSub_trans (by decide) hl | exact frameKey_of hl (by decide) | exact hk
    | apply withTide_only | apply OnlyIn.ite | extract_lets | split | exact .inl (frameSub_mem hl (by decide)) | exact .inr rfl
    | ((conv => arg 4; arg 27); apply OnlyIn.of_mk) | dsimp +zetaDelta only)

theorem execRcTrim_only (err : Int) (s : State) (hl : frameSub [.tide] [Reg.MASTER_ERROR] pl pk = true) (hs : OnlyIn pl pk os s) :
    ∃ s', execRcTrim err s = .next s' ∧ OnlyIn pl pk os s' := by
  unfold execRcTrim
  refine ⟨_, rfl, ?_⟩
  repeat' (with_reducible first
    | assumption | intro _ | exact frameSub_trans (by decide) hl | exact frameKey_of hl (by decide) | exact hk
    | apply withTide_only | apply setRegI_only | apply OnlyIn.ite | extract_lets | split
    | exact .inl (frameSub_mem hl (by decide)) | exact .inr rfl | ((conv => arg 4; arg 27); apply OnlyIn.of_mk)
    | dsimp +zetaDelta only)

theorem execClockReturn_only (s : State) (hl : frameSub [.tide] [] pl pk = true) (hs : OnlyIn pl pk os s) :
    ∃ s', execClockReturn s = .next s' ∧ OnlyIn pl pk os s' := by
  unfold execClockReturn
  refine ⟨_, rfl, ?_⟩
  repeat' (with_reducible first
    | assumption | intro _ | exact frameSub_trans (by decide) hl | exact frameKey_of hl (by decide) | exact hk
    | apply withTide_only | apply OnlyIn.ite | extract_lets | split | exact .inl (frameSub_mem hl (by decide)) | exact .inr rfl
    | ((conv => arg 4; arg 27); apply OnlyIn.of_mk) | dsimp +zetaDelta only)

theorem rateModeRule_only (s : State) (v : Nat) (hl : frameSub [.nv, .log] [Reg.RATE_MODE] pl pk = true) (hs : OnlyIn pl pk os s) :
    OnlyIn pl pk os (rateModeRule s v).2 := by
  unfold rateModeRule
  repeat' (with_reducible first
    | assumption | intro _ | exact frameSub_trans (by decide) hl | exact frameKey_of hl (by decide) | exact hk
    | apply putEntry_only | apply OnlyIn.ite | extract_lets | split | exact .inl (frameSub_mem hl (by decide)) | exact .inr rfl
    | ((conv => arg 4; arg 27); apply OnlyIn.of_mk) | dsimp +zetaDelta only)

theorem execRateModeWrite_only (w : Wr) (s : State) (hl : frameSub [.klp, .nv, .log] [Reg.RATE_MODE] pl pk = true) (hs : OnlyIn pl pk os s) :
    ∃ s', execRateModeWrite w s = .next s' ∧ OnlyIn pl pk os s' := by
  unfold execRateModeWrite
  refine ⟨_, rfl, ?_⟩
  repeat' (with_reducible first
    | assumption | intro _ | exact frameSub_trans (by decide) hl | exact frameKey_of hl (by decide) | exact hk
    | apply ledgerWrite_only | apply rateModeRule_only | dsimp +zetaDelta only)

theorem epochCycle_only (s : State) (hl : frameSub [.cal] [] pl pk = true) (hs : OnlyIn pl pk os s) :
    OnlyIn pl pk os (State.epochCycle s) := by
  unfold State.epochCycle
  repeat' (with_reducible first
    | assumption | intro _ | exact frameSub_trans (by decide) hl | exact frameKey_of hl (by decide) | exact hk
    | apply abortCycle_only | apply OnlyIn.ite | extract_lets | split | refine OnlyIn.of_pair ?_ (by assumption)
    | exact .inl (frameSub_mem hl (by decide)) | exact .inr rfl | ((conv => arg 4; arg 27); apply OnlyIn.of_mk)
    | dsimp +zetaDelta only)

theorem clearPwmErrors_only (s : State) (hl : frameSub [.act] [] pl pk = true) (hs : OnlyIn pl pk os s) :
    OnlyIn pl pk os (State.clearPwmErrors s) := by
  unfold State.clearPwmErrors
  repeat' (with_reducible first
    | assumption | intro _ | exact frameSub_trans (by decide) hl | exact frameKey_of hl (by decide) | exact hk | extract_lets
    | exact .inl (frameSub_mem hl (by decide)) | exact .inr rfl | ((conv => arg 4; arg 27); apply OnlyIn.of_mk)
    | dsimp +zetaDelta only)

theorem execNewEpoch_only (s : State) (hl : frameSub [.log, .act, .pipe, .cal] [Reg.EPOCH_FRAME, Reg.EPOCH_T64, Reg.EPOCH_TICK, Reg.RATE_ACTIVE] pl pk = true) (hs : OnlyIn pl pk os s) :
    ∃ s', execNewEpoch s = .next s' ∧ OnlyIn pl pk os s' := by
  unfold execNewEpoch
  refine ⟨_, rfl, ?_⟩
  repeat' (with_reducible first
    | assumption | intro _ | exact frameSub_trans (by decide) hl | exact frameKey_of hl (by decide) | exact hk
    | apply setReg_only | apply epochCycle_only | apply clearFilter_only | apply clearPwmErrors_only | apply pushLog_only
    | apply trigger_only | apply OnlyIn.ite | extract_lets | split | dsimp +zetaDelta only)

theorem mainsFree_only (s : State) (hl : frameSub [.mains] [Reg.MAINS_STATE] pl pk = true) (hs : OnlyIn pl pk os s) :
    OnlyIn pl pk os (State.mainsFree s) := by
  unfold State.mainsFree
  repeat' (with_reducible first
    | assumption | intro _ | exact frameSub_trans (by decide) hl | exact frameKey_of hl (by decide) | exact hk
    | apply setReg_only | apply withMains_only | extract_lets | exact .inl (frameSub_mem hl (by decide)) | exact .inr rfl
    | ((conv => arg 4; arg 27); apply OnlyIn.of_mk) | dsimp +zetaDelta only)

theorem gatesOff_only (s : State) (hl : frameSub [.act] [] pl pk = true) (hs : OnlyIn pl pk os s) :
    OnlyIn pl pk os (State.gatesOff s) := by
  unfold State.gatesOff
  repeat' (with_reducible first
    | assumption | intro _ | exact frameSub_trans (by decide) hl | exact frameKey_of hl (by decide) | exact hk
    | apply setOut_only | apply OnlyIn.foldl | extract_lets | exact .inl (frameSub_mem hl (by decide)) | exact .inr rfl
    | ((conv => arg 4; arg 27); apply OnlyIn.of_mk) | dsimp +zetaDelta only)

theorem mainsOn_only (s : State) (hl : frameSub [.mains] [Reg.HALF_PERIOD, Reg.MAINS_STATE] pl pk = true) (hs : OnlyIn pl pk os s) :
    OnlyIn pl pk os (State.mainsOn s) := by
  unfold State.mainsOn
  repeat' (with_reducible first
    | assumption | intro _ | exact frameSub_trans (by decide) hl | exact frameKey_of hl (by decide) | exact hk
    | apply setReg_only | apply withMains_only | extract_lets | exact .inl (frameSub_mem hl (by decide)) | exact .inr rfl
    | ((conv => arg 4; arg 27); apply OnlyIn.of_mk) | dsimp +zetaDelta only)

theorem mainsModeRule_only (s : State) (v : Nat) (hl : frameSub [.mains, .nv, .log, .act] [Reg.HALF_PERIOD, Reg.MAINS_MODE, Reg.MAINS_STATE] pl pk = true) (hs : OnlyIn pl pk os s) :
    OnlyIn pl pk os (mainsModeRule s v).2 := by
  unfold mainsModeRule
  repeat' (with_reducible first
    | assumption | intro _ | exact frameSub_trans (by decide) hl | exact frameKey_of hl (by decide) | exact hk
    | apply andThen_only | apply plainRule_only | apply setReg_only | apply gatesOff_only | apply mainsOn_only
    | apply mainsFree_only | apply OnlyIn.ite | split | dsimp +zetaDelta only)

theorem execMainsModeWrite_only (w : Wr) (s : State) (hl : frameSub [.mains, .klp, .nv, .log, .act] [Reg.HALF_PERIOD, Reg.MAINS_MODE, Reg.MAINS_STATE] pl pk = true) (hs : OnlyIn pl pk os s) :
    ∃ s', execMainsModeWrite w s = .next s' ∧ OnlyIn pl pk os s' := by
  unfold execMainsModeWrite
  refine ⟨_, rfl, ?_⟩
  repeat' (with_reducible first
    | assumption | intro _ | exact frameSub_trans (by decide) hl | exact frameKey_of hl (by decide) | exact hk
    | apply ledgerWrite_only | apply mainsModeRule_only | dsimp +zetaDelta only)

theorem zcAcquire_only (s : State) (cross : Nat) (hl : frameSub [.mains] [Reg.HALF_PERIOD, Reg.LAST_ZC_T64, Reg.MAINS_STATE] pl pk = true) (hs : OnlyIn pl pk os s) :
    OnlyIn pl pk os (State.zcAcquire s cross) := by
  unfold State.zcAcquire
  repeat' (with_reducible first
    | assumption | intro _ | exact frameSub_trans (by decide) hl | exact frameKey_of hl (by decide) | exact hk
    | apply setReg_only | apply withMains_only | apply OnlyIn.ite | extract_lets | split
    | exact .inl (frameSub_mem hl (by decide)) | exact .inr rfl | ((conv => arg 4; arg 27); apply OnlyIn.of_mk)
    | dsimp +zetaDelta only)

theorem zcTrack_only (s : State) (cross : Nat) (hl : frameSub [.mains] [Reg.HALF_PERIOD, Reg.LAST_ZC_T64, Reg.MAINS_STATE] pl pk = true) (hs : OnlyIn pl pk os s) :
    OnlyIn pl pk os (State.zcTrack s cross) := by
  unfold State.zcTrack
  repeat' (with_reducible first
    | assumption | intro _ | exact frameSub_trans (by decide) hl | exact frameKey_of hl (by decide) | exact hk
    | apply setReg_only | apply withMains_only | apply OnlyIn.ite | extract_lets | split
    | exact .inl (frameSub_mem hl (by decide)) | exact .inr rfl | ((conv => arg 4; arg 27); apply OnlyIn.of_mk)
    | dsimp +zetaDelta only)

theorem mainsHold_only (s : State) (hl : frameSub [.mains] [Reg.MAINS_STATE] pl pk = true) (hs : OnlyIn pl pk os s) :
    OnlyIn pl pk os (State.mainsHold s) := by
  unfold State.mainsHold
  repeat' (with_reducible first
    | assumption | intro _ | exact frameSub_trans (by decide) hl | exact frameKey_of hl (by decide) | exact hk
    | apply setReg_only | apply withMains_only | extract_lets | exact .inl (frameSub_mem hl (by decide)) | exact .inr rfl
    | ((conv => arg 4; arg 27); apply OnlyIn.of_mk) | dsimp +zetaDelta only)

theorem zcMiss_only (s : State) (hl : frameSub [.mains] [Reg.MAINS_STATE, Reg.ZC_REJECTS] pl pk = true) (hs : OnlyIn pl pk os s) :
    OnlyIn pl pk os (State.zcMiss s) := by
  unfold State.zcMiss
  repeat' (with_reducible first
    | assumption | intro _ | exact frameSub_trans (by decide) hl | exact frameKey_of hl (by decide) | exact hk
    | apply incSat_only | apply mainsHold_only | apply withMains_only | apply OnlyIn.ite | extract_lets | split
    | exact .inl (frameSub_mem hl (by decide)) | exact .inr rfl | ((conv => arg 4; arg 27); apply OnlyIn.of_mk)
    | dsimp +zetaDelta only)

theorem zcCandidate_only (s : State) (cross : Nat) (hl : frameSub [.mains] [Reg.HALF_PERIOD, Reg.LAST_ZC_T64, Reg.MAINS_STATE, Reg.ZC_REJECTS] pl pk = true) (hs : OnlyIn pl pk os s) :
    OnlyIn pl pk os (State.zcCandidate s cross) := by
  unfold State.zcCandidate
  repeat' (with_reducible first
    | assumption | intro _ | exact frameSub_trans (by decide) hl | exact frameKey_of hl (by decide) | exact hk
    | apply setReg_only | apply withMains_only | apply zcAcquire_only | apply zcTrack_only | apply zcMiss_only
    | apply OnlyIn.ite | extract_lets | split | exact .inl (frameSub_mem hl (by decide)) | exact .inr rfl
    | ((conv => arg 4; arg 27); apply OnlyIn.of_mk) | dsimp +zetaDelta only)

theorem execZcPulse_only (t0 t1 : Nat) (s : State) (hl : frameSub [.mains] [Reg.HALF_PERIOD, Reg.LAST_ZC_T64, Reg.MAINS_STATE, Reg.ZC_REJECTS] pl pk = true) (hs : OnlyIn pl pk os s) :
    ∃ s', execZcPulse t0 t1 s = .next s' ∧ OnlyIn pl pk os s' := by
  unfold execZcPulse
  refine ⟨_, rfl, ?_⟩
  repeat' (with_reducible first
    | assumption | intro _ | exact frameSub_trans (by decide) hl | exact frameKey_of hl (by decide) | exact hk
    | apply incSat_only | apply zcCandidate_only | apply OnlyIn.ite | split | exact .inl (frameSub_mem hl (by decide))
    | exact .inr rfl | ((conv => arg 4; arg 27); apply OnlyIn.of_mk) | dsimp +zetaDelta only)

theorem execMainsCrossingMissed_only (s : State) (hl : frameSub [.mains] [Reg.MAINS_STATE] pl pk = true) (hs : OnlyIn pl pk os s) :
    ∃ s', execMainsCrossingMissed s = .next s' ∧ OnlyIn pl pk os s' := by
  unfold execMainsCrossingMissed
  refine ⟨_, rfl, ?_⟩
  repeat' (with_reducible first
    | assumption | intro _ | exact frameSub_trans (by decide) hl | exact frameKey_of hl (by decide) | exact hk
    | apply mainsHold_only | apply OnlyIn.ite | split | dsimp +zetaDelta only)

theorem execHoldoverExpiry_only (s : State) (hl : frameSub [.mains] [Reg.MAINS_STATE] pl pk = true) (hs : OnlyIn pl pk os s) :
    ∃ s', execHoldoverExpiry s = .next s' ∧ OnlyIn pl pk os s' := by
  unfold execHoldoverExpiry
  refine ⟨_, rfl, ?_⟩
  repeat' (with_reducible first
    | assumption | intro _ | exact frameSub_trans (by decide) hl | exact frameKey_of hl (by decide) | exact hk
    | apply mainsFree_only | apply OnlyIn.ite | split | dsimp +zetaDelta only)

end Sys2Proof.Machine
end

