-- ==== Sys2Proof/Laws/FramesPanel.lean ====
section
/-!
SUPPORT. What the operations of Machine/Panel.lean change at most.
-/
namespace Sys2Proof.Machine

variable {pl : List Piece} {pk : List Nat} {os : State}

theorem execDriveFrame_only (ok : Bool) (s : State) (hl : frameSub [.nv, .log, .panel, .freeCtr] [Reg.BAND_CORRECTIONS, Reg.BAND_REDRIVES, Reg.FRAME_CRC_FAILS, Reg.UPDATES_DONE, Reg.URGENT_CUTS] pl pk = true) (hs : OnlyIn pl pk os s) :
    ∃ s', execDriveFrame ok s = .next s' ∧ OnlyIn pl pk os s' := by
  unfold execDriveFrame
  refine ⟨_, rfl, ?_⟩
  repeat' (with_reducible first
    | assumption | intro _ | exact frameSub_trans (by decide) hl | exact frameKey_of hl (by decide) | exact hk
    | apply withPanel_only | apply panelTemp_only | apply advanceRuns_only | apply startAll_only | apply drivePanel_only
    | apply OnlyIn.ite | extract_lets | split | exact .inl (frameSub_mem hl (by decide)) | exact .inr rfl
    | ((conv => arg 4; arg 27); apply OnlyIn.of_mk) | dsimp +zetaDelta only)

theorem execDriveFault_only (s : State) (hl : frameSub [.panel] [Reg.DRIVE_FAULTS] pl pk = true) (hs : OnlyIn pl pk os s) :
    ∃ s', execDriveFault s = .next s' ∧ OnlyIn pl pk os s' := by
  unfold execDriveFault
  refine ⟨_, rfl, ?_⟩
  repeat' (with_reducible first
    | assumption | intro _ | exact frameSub_trans (by decide) hl | exact frameKey_of hl (by decide) | exact hk
    | apply withPanel_only | apply incSat_only | apply OnlyIn.ite | extract_lets | split
    | exact .inl (frameSub_mem hl (by decide)) | exact .inr rfl | ((conv => arg 4; arg 27); apply OnlyIn.of_mk)
    | dsimp +zetaDelta only)

theorem execDriveRailRecovered_only (s : State) (hl : frameSub [.panel] [] pl pk = true) (hs : OnlyIn pl pk os s) :
    ∃ s', execDriveRailRecovered s = .next s' ∧ OnlyIn pl pk os s' := by
  unfold execDriveRailRecovered
  refine ⟨_, rfl, ?_⟩
  repeat' (with_reducible first
    | assumption | intro _ | exact frameSub_trans (by decide) hl | exact frameKey_of hl (by decide) | exact hk
    | apply withPanel_only | extract_lets | exact .inl (frameSub_mem hl (by decide)) | exact .inr rfl
    | ((conv => arg 4; arg 27); apply OnlyIn.of_mk) | dsimp +zetaDelta only)

theorem execPanelTempFallback_only (s : State) (hl : frameSub [.panel] [] pl pk = true) (hs : OnlyIn pl pk os s) :
    ∃ s', execPanelTempFallback s = .next s' ∧ OnlyIn pl pk os s' := by
  unfold execPanelTempFallback
  refine ⟨_, rfl, ?_⟩
  repeat' (with_reducible first
    | assumption | intro _ | exact frameSub_trans (by decide) hl | exact frameKey_of hl (by decide) | exact hk
    | apply withPanel_only | apply OnlyIn.ite | extract_lets | split | refine OnlyIn.of_pair ?_ (by assumption)
    | exact .inl (frameSub_mem hl (by decide)) | exact .inr rfl | ((conv => arg 4; arg 27); apply OnlyIn.of_mk)
    | dsimp +zetaDelta only)

theorem execFrameMemoryCheck_only (ok : Bool) (s : State) (hl : frameSub [.panel] [Reg.FRAME_CRC_FAILS] pl pk = true) (hs : OnlyIn pl pk os s) :
    ∃ s', execFrameMemoryCheck ok s = .next s' ∧ OnlyIn pl pk os s' := by
  unfold execFrameMemoryCheck
  refine ⟨_, rfl, ?_⟩
  repeat' (with_reducible first
    | assumption | intro _ | exact frameSub_trans (by decide) hl | exact frameKey_of hl (by decide) | exact hk
    | apply frameMemoryFault_only | apply OnlyIn.ite | split | dsimp +zetaDelta only)

theorem regionUpdateRule_only (s : State) (v : Nat) (hl : frameSub [.panel] [Reg.QUEUE_REPLACED] pl pk = true) (hs : OnlyIn pl pk os s) :
    OnlyIn pl pk os (regionUpdateRule s v).2 := by
  unfold regionUpdateRule
  repeat' (with_reducible first
    | assumption | intro _ | exact frameSub_trans (by decide) hl | exact frameKey_of hl (by decide) | exact hk
    | apply withPanel_only | apply incSat_only | apply OnlyIn.ite | extract_lets | split
    | exact .inl (frameSub_mem hl (by decide)) | exact .inr rfl | ((conv => arg 4; arg 27); apply OnlyIn.of_mk)
    | dsimp +zetaDelta only)

theorem execRegionUpdateWrite_only (w : Wr) (s : State) (hl : frameSub [.klp, .panel] [Reg.QUEUE_REPLACED] pl pk = true) (hs : OnlyIn pl pk os s) :
    ∃ s', execRegionUpdateWrite w s = .next s' ∧ OnlyIn pl pk os s' := by
  unfold execRegionUpdateWrite
  refine ⟨_, rfl, ?_⟩
  repeat' (with_reducible first
    | assumption | intro _ | exact frameSub_trans (by decide) hl | exact frameKey_of hl (by decide) | exact hk
    | apply ledgerWrite_only | apply regionUpdateRule_only | dsimp +zetaDelta only)

theorem regionCellsRule_only (n : Nat) (s : State) (v : Nat) (hl : frameSub [.regs, .nv, .log] [] pl pk = true) (hs : OnlyIn pl pk os s) :
    OnlyIn pl pk os (regionCellsRule n s v).2 := by
  unfold regionCellsRule
  repeat' (with_reducible first
    | assumption | intro _ | exact frameSub_trans (by decide) hl | exact frameKey_of hl (by decide) | exact hk
    | exact frameKey_regs (frameSub_mem hl (by decide)) | apply putEntry_only | apply OnlyIn.ite | extract_lets | split
    | dsimp +zetaDelta only)

theorem execRegionCellsWrite_only (n : Nat) (w : Wr) (s : State) (hl : frameSub [.regs, .klp, .nv, .log] [] pl pk = true) (hs : OnlyIn pl pk os s) :
    ∃ s', execRegionCellsWrite n w s = .next s' ∧ OnlyIn pl pk os s' := by
  unfold execRegionCellsWrite
  refine ⟨_, rfl, ?_⟩
  repeat' (with_reducible first
    | assumption | intro _ | exact frameSub_trans (by decide) hl | exact frameKey_of hl (by decide) | exact hk
    | exact frameKey_regs (frameSub_mem hl (by decide)) | apply ledgerWrite_only | apply regionCellsRule_only
    | dsimp +zetaDelta only)

theorem execPanelModeChange_only (s : State) (hl : frameSub [.panel] [] pl pk = true) (hs : OnlyIn pl pk os s) :
    ∃ s', execPanelModeChange s = .next s' ∧ OnlyIn pl pk os s' := by
  unfold execPanelModeChange
  refine ⟨_, rfl, ?_⟩
  repeat' (with_reducible first
    | assumption | intro _ | exact frameSub_trans (by decide) hl | exact frameKey_of hl (by decide) | exact hk
    | apply withPanel_only | apply OnlyIn.ite | extract_lets | split | exact .inl (frameSub_mem hl (by decide)) | exact .inr rfl
    | ((conv => arg 4; arg 27); apply OnlyIn.of_mk) | dsimp +zetaDelta only)

theorem execStormPatternToggle_only (s : State) (hl : frameSub [.panel] [] pl pk = true) (hs : OnlyIn pl pk os s) :
    ∃ s', execStormPatternToggle s = .next s' ∧ OnlyIn pl pk os s' := by
  unfold execStormPatternToggle
  refine ⟨_, rfl, ?_⟩
  repeat' (with_reducible first
    | assumption | intro _ | exact frameSub_trans (by decide) hl | exact frameKey_of hl (by decide) | exact hk
    | apply withPanel_only | apply OnlyIn.ite | extract_lets | split | exact .inl (frameSub_mem hl (by decide)) | exact .inr rfl
    | ((conv => arg 4; arg 27); apply OnlyIn.of_mk) | dsimp +zetaDelta only)

theorem execKeyScan_only (closed : Nat) (s : State) (hl : frameSub [.power, .video, .keys, .pwr] [Reg.KEY_BLOCKED, Reg.KEY_EVENTS, Reg.KEY_EVENTS_LOST, Reg.KEY_LAST_EVENT] pl pk = true) (hs : OnlyIn pl pk os s) :
    ∃ s', execKeyScan closed s = .next s' ∧ OnlyIn pl pk os s' := by
  unfold execKeyScan
  refine ⟨_, rfl, ?_⟩
  repeat' (with_reducible first
    | assumption | intro _ | exact frameSub_trans (by decide) hl | exact frameKey_of hl (by decide) | exact hk
    | apply scanKeys_only | apply watchResetKeys_only | apply OnlyIn.ite | split | dsimp +zetaDelta only)

theorem execKeyRepeat_only (n : Nat) (s : State) (hl : frameSub [.keys] [Reg.KEY_EVENTS, Reg.KEY_EVENTS_LOST, Reg.KEY_LAST_EVENT] pl pk = true) (hs : OnlyIn pl pk os s) :
    ∃ s', execKeyRepeat n s = .next s' ∧ OnlyIn pl pk os s' := by
  unfold execKeyRepeat
  refine ⟨_, rfl, ?_⟩
  repeat' (with_reducible first
    | assumption | intro _ | exact frameSub_trans (by decide) hl | exact frameKey_of hl (by decide) | exact hk
    | apply withKeys_only | apply keyEvent_only | apply OnlyIn.ite | extract_lets | split
    | exact .inl (frameSub_mem hl (by decide)) | exact .inr rfl | ((conv => arg 4; arg 27); apply OnlyIn.of_mk)
    | dsimp +zetaDelta only)

theorem execKeyLong_only (n : Nat) (s : State) (hl : frameSub [.keys] [Reg.KEY_EVENTS, Reg.KEY_EVENTS_LOST, Reg.KEY_LAST_EVENT] pl pk = true) (hs : OnlyIn pl pk os s) :
    ∃ s', execKeyLong n s = .next s' ∧ OnlyIn pl pk os s' := by
  unfold execKeyLong
  refine ⟨_, rfl, ?_⟩
  repeat' (with_reducible first
    | assumption | intro _ | exact frameSub_trans (by decide) hl | exact frameKey_of hl (by decide) | exact hk
    | apply withKeys_only | apply keyEvent_only | apply OnlyIn.ite | extract_lets | split
    | exact .inl (frameSub_mem hl (by decide)) | exact .inr rfl | ((conv => arg 4; arg 27); apply OnlyIn.of_mk)
    | dsimp +zetaDelta only)

theorem execKeyStuck_only (n : Nat) (s : State) (hl : frameSub [.log, .keys] [Reg.KEY_EVENTS, Reg.KEY_EVENTS_LOST, Reg.KEY_LAST_EVENT] pl pk = true) (hs : OnlyIn pl pk os s) :
    ∃ s', execKeyStuck n s = .next s' ∧ OnlyIn pl pk os s' := by
  unfold execKeyStuck
  refine ⟨_, rfl, ?_⟩
  repeat' (with_reducible first
    | assumption | intro _ | exact frameSub_trans (by decide) hl | exact frameKey_of hl (by decide) | exact hk
    | apply withKeys_only | apply keyEvent_only | apply pushLog_only | apply OnlyIn.ite | extract_lets | split
    | exact .inl (frameSub_mem hl (by decide)) | exact .inr rfl | ((conv => arg 4; arg 27); apply OnlyIn.of_mk)
    | dsimp +zetaDelta only)

theorem execKeyReset_only (s : State) (hl : frameSub [.regs, .phase, .power, .pfail, .tide, .mains, .hm, .klp, .nv, .window, .log, .rtc, .bus, .berth, .loop, .act, .sens, .focal, .pipe, .cal, .video, .panel, .keys, .pwr, .slip, .jtag, .freeCtr] [] pl pk = true) (hs : OnlyIn pl pk os s) :
    ∃ s', execKeyReset s = .next s' ∧ OnlyIn pl pk os s' := by
  unfold execKeyReset
  refine ⟨_, rfl, ?_⟩
  repeat' (with_reducible first
    | assumption | intro _ | exact frameSub_trans (by decide) hl | exact frameKey_of hl (by decide) | exact hk
    | exact frameKey_regs (frameSub_mem hl (by decide)) | apply pushLog_only | apply deviceReset_only | apply writeRecord_only
    | apply flushLog_only | apply OnlyIn.ite | extract_lets | split | refine OnlyIn.of_pair ?_ (by assumption)
    | exact .inl (frameSub_mem hl (by decide)) | exact .inr rfl | ((conv => arg 4; arg 27); apply OnlyIn.of_mk)
    | dsimp +zetaDelta only)

end Sys2Proof.Machine
end

