-- ==== Sys2Proof/Laws/FramesFrame.lean ====
section
/-!
SUPPORT. What the operations of Machine/Frame.lean change at most.
-/
namespace Sys2Proof.Machine

variable {pl : List Piece} {pk : List Nat} {os : State}

theorem startBias_only (s : State) (hl : frameSub [.focal, .pipe, .cal] [] pl pk = true) (hs : OnlyIn pl pk os s) :
    OnlyIn pl pk os (State.startBias s) := by
  unfold State.startBias
  repeat' (with_reducible first
    | assumption | intro _ | exact frameSub_trans (by decide) hl | exact frameKey_of hl (by decide) | exact hk
    | apply clearFilter_only | extract_lets | exact .inl (frameSub_mem hl (by decide)) | exact .inr rfl
    | ((conv => arg 4; arg 27); apply OnlyIn.of_mk) | dsimp +zetaDelta only)

theorem applyImager_only (s : State) (hl : frameSub [.focal, .pipe, .cal] [Reg.IMAGER_ACTIVE] pl pk = true) (hs : OnlyIn pl pk os s) :
    OnlyIn pl pk os (State.applyImager s) := by
  unfold State.applyImager
  repeat' (with_reducible first
    | assumption | intro _ | exact frameSub_trans (by decide) hl | exact frameKey_of hl (by decide) | exact hk
    | apply abortCycle_only | apply darkArray_only | apply startBias_only | apply setReg_only | apply OnlyIn.ite | extract_lets
    | split | dsimp +zetaDelta only)

theorem tideFrame_only (s : State) (hl : frameSub [.tide] [] pl pk = true) (hs : OnlyIn pl pk os s) :
    OnlyIn pl pk os (State.tideFrame s) := by
  unfold State.tideFrame
  repeat' (with_reducible first
    | assumption | intro _ | exact frameSub_trans (by decide) hl | exact frameKey_of hl (by decide) | exact hk
    | apply withTide_only | extract_lets | exact .inl (frameSub_mem hl (by decide)) | exact .inr rfl
    | ((conv => arg 4; arg 27); apply OnlyIn.of_mk) | dsimp +zetaDelta only)

theorem newFrame_only (s : State) (hl : frameSub [.tide, .klp, .bus, .berth, .focal, .pipe, .cal, .video] [Reg.IMAGER_ACTIVE, Reg.SHADOW_INDEX] pl pk = true) (hs : OnlyIn pl pk os s) :
    OnlyIn pl pk os (State.newFrame s) := by
  unfold State.newFrame
  repeat' (with_reducible first
    | assumption | intro _ | exact frameSub_trans (by decide) hl | exact frameKey_of hl (by decide) | exact hk
    | apply tideFrame_only | apply setReg_only | apply withFocal_only | apply applyImager_only | apply withCal_only
    | apply withPipe_only | apply takeEdits_only | apply withBerth_only | apply videoFrame_only | extract_lets
    | exact .inl (frameSub_mem hl (by decide)) | exact .inr rfl | ((conv => arg 4; arg 27); apply OnlyIn.of_mk)
    | dsimp +zetaDelta only)

theorem execFrameBoundary_only (s : State) (hl : frameSub [.tide, .klp, .bus, .berth, .focal, .pipe, .cal, .video] [Reg.IMAGER_ACTIVE, Reg.SHADOW_INDEX] pl pk = true) (hs : OnlyIn pl pk os s) :
    ∃ s', execFrameBoundary s = .next s' ∧ OnlyIn pl pk os s' := by
  unfold execFrameBoundary
  refine ⟨_, rfl, ?_⟩
  repeat' (with_reducible first
    | assumption | intro _ | exact frameSub_trans (by decide) hl | exact frameKey_of hl (by decide) | exact hk
    | apply newFrame_only | apply OnlyIn.ite | split | dsimp +zetaDelta only)

theorem execSettlingEnd_only (s : State) (hl : frameSub [.focal] [] pl pk = true) (hs : OnlyIn pl pk os s) :
    ∃ s', execSettlingEnd s = .next s' ∧ OnlyIn pl pk os s' := by
  unfold execSettlingEnd
  refine ⟨_, rfl, ?_⟩
  repeat' (with_reducible first
    | assumption | intro _ | exact frameSub_trans (by decide) hl | exact frameKey_of hl (by decide) | exact hk
    | apply withFocal_only | apply OnlyIn.ite | extract_lets | split | exact .inl (frameSub_mem hl (by decide)) | exact .inr rfl
    | ((conv => arg 4; arg 27); apply OnlyIn.of_mk) | dsimp +zetaDelta only)

theorem execGainChange_only (s : State) (hl : frameSub [.regs, .klp, .pipe, .cal, .video] [] pl pk = true) (hs : OnlyIn pl pk os s) :
    ∃ s', execGainChange s = .next s' ∧ OnlyIn pl pk os s' := by
  unfold execGainChange
  refine ⟨_, rfl, ?_⟩
  repeat' (with_reducible first
    | assumption | intro _ | exact frameSub_trans (by decide) hl | exact frameKey_of hl (by decide) | exact hk
    | exact frameKey_regs (frameSub_mem hl (by decide)) | apply swapGains_only | apply setReg_only | apply trigger_only
    | apply OnlyIn.ite | split | dsimp +zetaDelta only)

theorem takeBands_only (s : State) (bands : List (Option Nat)) (hl : frameSub [.regs, .focal] [] pl pk = true) (hs : OnlyIn pl pk os s) :
    OnlyIn pl pk os (State.takeBands s bands) := by
  unfold State.takeBands
  repeat' (with_reducible first
    | assumption | intro _ | exact frameSub_trans (by decide) hl | exact frameKey_of hl (by decide) | exact hk
    | exact frameKey_regs (frameSub_mem hl (by decide)) | apply setReg_only | apply withFocal_only | apply OnlyIn.foldl
    | extract_lets | split | refine OnlyIn.of_pair ?_ (by assumption) | exact .inl (frameSub_mem hl (by decide))
    | exact .inr rfl | ((conv => arg 4; arg 27); apply OnlyIn.of_mk) | dsimp +zetaDelta only)

theorem takeFlag_only (s : State) (ntc pos : Nat) (hl : frameSub [.focal] [Reg.FLAG_TEMP] pl pk = true) (hs : OnlyIn pl pk os s) :
    OnlyIn pl pk os (State.takeFlag s ntc pos) := by
  unfold State.takeFlag
  repeat' (with_reducible first
    | assumption | intro _ | exact frameSub_trans (by decide) hl | exact frameKey_of hl (by decide) | exact hk
    | apply setReg_only | apply setShutter_only | apply OnlyIn.ite | extract_lets | split
    | exact .inl (frameSub_mem hl (by decide)) | exact .inr rfl | ((conv => arg 4; arg 27); apply OnlyIn.of_mk)
    | dsimp +zetaDelta only)

theorem gradientClose_only (s : State) (hl : frameSub [.klp, .log, .bus, .berth, .focal, .cal] [Reg.GRADIENT_EVENTS, Reg.GRADIENT_FLAGS, Reg.GRADIENT_MAX] pl pk = true) (hs : OnlyIn pl pk os s) :
    OnlyIn pl pk os (State.gradientClose s) := by
  unfold State.gradientClose
  repeat' (with_reducible first
    | assumption | intro _ | exact frameSub_trans (by decide) hl | exact frameKey_of hl (by decide) | exact hk
    | apply gradientPair_only | apply setReg_only | apply alarmOf_only | apply OnlyIn.foldl | apply OnlyIn.ite | extract_lets
    | split | dsimp +zetaDelta only)

theorem shutterAlarm_only (s : State) (before : Bool) (hl : frameSub [.klp, .bus] [] pl pk = true) (hs : OnlyIn pl pk os s) :
    OnlyIn pl pk os (State.shutterAlarm s before) := by
  unfold State.shutterAlarm
  repeat' (with_reducible first
    | assumption | intro _ | exact frameSub_trans (by decide) hl | exact frameKey_of hl (by decide) | exact hk
    | apply alarmOf_only | apply OnlyIn.ite | split | dsimp +zetaDelta only)

theorem noteMean_only (s : State) (hl : frameSub [.cal] [] pl pk = true) (hs : OnlyIn pl pk os s) :
    OnlyIn pl pk os (State.noteMean s) := by
  unfold State.noteMean
  repeat' (with_reducible first
    | assumption | intro _ | exact frameSub_trans (by decide) hl | exact frameKey_of hl (by decide) | exact hk
    | apply withCal_only | extract_lets | exact .inl (frameSub_mem hl (by decide)) | exact .inr rfl
    | ((conv => arg 4; arg 27); apply OnlyIn.of_mk) | dsimp +zetaDelta only)

theorem latchFrame_only (s : State) (hl : frameSub [.pipe] [Reg.FRAME_FLAGS, Reg.INVALID_PIXELS, Reg.REPLACED_PIXELS, Reg.SAT_PIXELS, Reg.SCREENED_PIXELS] pl pk = true) (hs : OnlyIn pl pk os s) :
    OnlyIn pl pk os (State.latchFrame s) := by
  unfold State.latchFrame
  repeat' (with_reducible first
    | assumption | intro _ | exact frameSub_trans (by decide) hl | exact frameKey_of hl (by decide) | exact hk
    | apply setReg_only | apply withPipe_only | apply OnlyIn.ite | extract_lets | split
    | exact .inl (frameSub_mem hl (by decide)) | exact .inr rfl | ((conv => arg 4; arg 27); apply OnlyIn.of_mk)
    | dsimp +zetaDelta only)

theorem timebaseAbort_only (s : State) (hl : frameSub [.cal] [] pl pk = true) (hs : OnlyIn pl pk os s) :
    OnlyIn pl pk os (State.timebaseAbort s) := by
  unfold State.timebaseAbort
  repeat' (with_reducible first
    | assumption | intro _ | exact frameSub_trans (by decide) hl | exact frameKey_of hl (by decide) | exact hk
    | apply abortCycle_only | apply OnlyIn.ite | extract_lets | split | refine OnlyIn.of_pair ?_ (by assumption)
    | exact .inl (frameSub_mem hl (by decide)) | exact .inr rfl | ((conv => arg 4; arg 27); apply OnlyIn.of_mk)
    | dsimp +zetaDelta only)

theorem calClose_only (s : State) (hl : frameSub [.regs, .phase, .klp, .nv, .log, .bus, .berth, .focal, .pipe, .cal, .video, .freeCtr] [] pl pk = true) (hs : OnlyIn pl pk os s) :
    OnlyIn pl pk os (State.calClose s) := by
  unfold State.calClose
  repeat' (with_reducible first
    | assumption | intro _ | exact frameSub_trans (by decide) hl | exact frameKey_of hl (by decide) | exact hk
    | exact frameKey_regs (frameSub_mem hl (by decide)) | apply checkTravel_only | apply timebaseAbort_only
    | apply settleAbort_only | apply cycleAtClose_only | apply gateAtClose_only | apply trigger_only | apply grantCycle_only
    | apply noteUnusable_only | apply shutterAlarm_only | apply OnlyIn.ite | extract_lets | split | dsimp +zetaDelta only)

theorem clockClose_only (s : State) (hl : frameSub [.tide] [] pl pk = true) (hs : OnlyIn pl pk os s) :
    OnlyIn pl pk os (State.clockClose s) := by
  unfold State.clockClose
  repeat' (with_reducible first
    | assumption | intro _ | exact frameSub_trans (by decide) hl | exact frameKey_of hl (by decide) | exact hk
    | apply withTide_only | apply OnlyIn.ite | extract_lets | split | exact .inl (frameSub_mem hl (by decide)) | exact .inr rfl
    | ((conv => arg 4; arg 27); apply OnlyIn.of_mk) | dsimp +zetaDelta only)

theorem scrubClose_only (s : State) (i : CloseIn) (hl : frameSub [.regs, .klp, .nv, .log, .bus, .freeCtr] [] pl pk = true) (hs : OnlyIn pl pk os s) :
    OnlyIn pl pk os (State.scrubClose s i) := by
  unfold State.scrubClose
  repeat' (with_reducible first
    | assumption | intro _ | exact frameSub_trans (by decide) hl | exact frameKey_of hl (by decide) | exact hk
    | exact frameKey_regs (frameSub_mem hl (by decide)) | apply lapDone_only | apply scrub_only | apply OnlyIn.foldl
    | dsimp +zetaDelta only)

theorem closeFrame_only (i : CloseIn) (s : State) (hl : frameSub [.regs, .phase, .tide, .klp, .nv, .log, .bus, .berth, .act, .focal, .pipe, .cal, .video, .freeCtr] [] pl pk = true) (hs : OnlyIn pl pk os s) :
    OnlyIn pl pk os (State.closeFrame i s) := by
  unfold State.closeFrame
  repeat' (with_reducible first
    | assumption | intro _ | exact frameSub_trans (by decide) hl | exact frameKey_of hl (by decide) | exact hk
    | exact frameKey_regs (frameSub_mem hl (by decide)) | apply takeBands_only | apply takeFlag_only | apply gradientClose_only
    | apply noteMean_only | apply latchFrame_only | apply closeBerths_only | apply calClose_only | apply clockClose_only
    | apply scrubClose_only | extract_lets | exact .inl (frameSub_mem hl (by decide)) | exact .inr rfl
    | ((conv => arg 4; arg 27); apply OnlyIn.of_mk) | dsimp +zetaDelta only)

theorem execFrameClose_only (i : CloseIn) (s : State) (hl : frameSub [.regs, .phase, .tide, .klp, .nv, .log, .bus, .berth, .act, .focal, .pipe, .cal, .video, .freeCtr] [] pl pk = true) (hs : OnlyIn pl pk os s) :
    ∃ s', execFrameClose i s = .next s' ∧ OnlyIn pl pk os s' := by
  unfold execFrameClose
  refine ⟨_, rfl, ?_⟩
  repeat' (with_reducible first
    | assumption | intro _ | exact frameSub_trans (by decide) hl | exact frameKey_of hl (by decide) | exact hk
    | exact frameKey_regs (frameSub_mem hl (by decide)) | apply closeFrame_only | apply OnlyIn.ite | split
    | dsimp +zetaDelta only)

theorem execGradientClear_only (n : Nat) (s : State) (hl : frameSub [.klp, .bus] [Reg.GRADIENT_FLAGS] pl pk = true) (hs : OnlyIn pl pk os s) :
    ∃ s', execGradientClear n s = .next s' ∧ OnlyIn pl pk os s' := by
  unfold execGradientClear
  refine ⟨_, rfl, ?_⟩
  repeat' (with_reducible first
    | assumption | intro _ | exact frameSub_trans (by decide) hl | exact frameKey_of hl (by decide) | exact hk
    | apply putBit_only | apply alarmOf_only | apply OnlyIn.ite | extract_lets | split | dsimp +zetaDelta only)

theorem execBandSensorExcluded_only (n : Nat) (s : State) (hl : frameSub [] [Reg.SENSOR_EXCLUDED] pl pk = true) (hs : OnlyIn pl pk os s) :
    ∃ s', execBandSensorExcluded n s = .next s' ∧ OnlyIn pl pk os s' := by
  unfold execBandSensorExcluded
  refine ⟨_, rfl, ?_⟩
  repeat' (with_reducible first
    | assumption | intro _ | exact frameSub_trans (by decide) hl | exact frameKey_of hl (by decide) | exact hk
    | apply putBit_only | apply OnlyIn.ite | split | dsimp +zetaDelta only)

theorem deadColumn_only (s : State) (p : Nat × Nat) (hl : frameSub [.log, .freeCtr] [] pl pk = true) (hs : OnlyIn pl pk os s) :
    OnlyIn pl pk os (State.deadColumn s p) := by
  unfold State.deadColumn
  repeat' (with_reducible first
    | assumption | intro _ | exact frameSub_trans (by decide) hl | exact frameKey_of hl (by decide) | exact hk
    | apply pushLog_only | apply tickFree_only | dsimp +zetaDelta only)

theorem execConverterSelfTest_only (codes : List Nat) (s : State) (hl : frameSub [.log, .focal, .freeCtr] [Reg.TEST_FAILS] pl pk = true) (hs : OnlyIn pl pk os s) :
    ∃ s', execConverterSelfTest codes s = .next s' ∧ OnlyIn pl pk os s' := by
  unfold execConverterSelfTest
  refine ⟨_, rfl, ?_⟩
  repeat' (with_reducible first
    | assumption | intro _ | exact frameSub_trans (by decide) hl | exact frameKey_of hl (by decide) | exact hk
    | apply addSat_only | apply deadColumn_only | apply withFocal_only | apply OnlyIn.foldl | apply OnlyIn.ite | extract_lets
    | split | exact .inl (frameSub_mem hl (by decide)) | exact .inr rfl | ((conv => arg 4; arg 27); apply OnlyIn.of_mk)
    | dsimp +zetaDelta only)

theorem execSpareQualificationDone_only (sums : List (List Nat)) (codes : List Nat) (s : State) (hl : frameSub [.focal, .cal] [Reg.QUAL_FAILED, Reg.SMALL_RESULT, Reg.SPARE_MISMATCH] pl pk = true) (hs : OnlyIn pl pk os s) :
    ∃ s', execSpareQualificationDone sums codes s = .next s' ∧ OnlyIn pl pk os s' := by
  unfold execSpareQualificationDone
  refine ⟨_, rfl, ?_⟩
  repeat' (with_reducible first
    | assumption | intro _ | exact frameSub_trans (by decide) hl | exact frameKey_of hl (by decide) | exact hk
    | apply setReg_only | apply putBit_only | apply OnlyIn.foldl | apply OnlyIn.ite | extract_lets | split
    | exact .inl (frameSub_mem hl (by decide)) | exact .inr rfl | ((conv => arg 4; arg 27); apply OnlyIn.of_mk)
    | dsimp +zetaDelta only)

theorem execFactoryDecompressionDone_only (bad : List Nat) (s : State) (hl : frameSub [.regs, .pipe, .cal] [] pl pk = true) (hs : OnlyIn pl pk os s) :
    ∃ s', execFactoryDecompressionDone bad s = .next s' ∧ OnlyIn pl pk os s' := by
  unfold execFactoryDecompressionDone
  refine ⟨_, rfl, ?_⟩
  repeat' (with_reducible first
    | assumption | intro _ | exact frameSub_trans (by decide) hl | exact frameKey_of hl (by decide) | exact hk
    | exact frameKey_regs (frameSub_mem hl (by decide)) | apply showRefs_only | apply OnlyIn.ite | extract_lets | split
    | exact .inl (frameSub_mem hl (by decide)) | exact .inr rfl | ((conv => arg 4; arg 27); apply OnlyIn.of_mk)
    | dsimp +zetaDelta only)

theorem execCoefReloadDone_only (shadow : Bool) (word : Nat) (s : State) (hl : frameSub [.pipe, .freeCtr] [Reg.COEF_RELOADS] pl pk = true) (hs : OnlyIn pl pk os s) :
    ∃ s', execCoefReloadDone shadow word s = .next s' ∧ OnlyIn pl pk os s' := by
  unfold execCoefReloadDone
  refine ⟨_, rfl, ?_⟩
  repeat' (with_reducible first
    | assumption | intro _ | exact frameSub_trans (by decide) hl | exact frameKey_of hl (by decide) | exact hk
    | apply countUp_only | apply withPipe_only | apply OnlyIn.foldl | apply OnlyIn.ite | extract_lets | split
    | exact .inl (frameSub_mem hl (by decide)) | exact .inr rfl | ((conv => arg 4; arg 27); apply OnlyIn.of_mk)
    | dsimp +zetaDelta only)

theorem execSunHoldExpiry_only (n : Nat) (s : State) (hl : frameSub [.focal, .cal] [] pl pk = true) (hs : OnlyIn pl pk os s) :
    ∃ s', execSunHoldExpiry n s = .next s' ∧ OnlyIn pl pk os s' := by
  unfold execSunHoldExpiry
  refine ⟨_, rfl, ?_⟩
  repeat' (with_reducible first
    | assumption | intro _ | exact frameSub_trans (by decide) hl | exact frameKey_of hl (by decide) | exact hk
    | apply withFocal_only | apply trigger_only | apply OnlyIn.ite | extract_lets | split
    | exact .inl (frameSub_mem hl (by decide)) | exact .inr rfl | ((conv => arg 4; arg 27); apply OnlyIn.of_mk)
    | dsimp +zetaDelta only)

theorem execIntervalExpiry_only (s : State) (hl : frameSub [.cal] [] pl pk = true) (hs : OnlyIn pl pk os s) :
    ∃ s', execIntervalExpiry s = .next s' ∧ OnlyIn pl pk os s' := by
  unfold execIntervalExpiry
  refine ⟨_, rfl, ?_⟩
  repeat' (with_reducible first
    | assumption | intro _ | exact frameSub_trans (by decide) hl | exact frameKey_of hl (by decide) | exact hk
    | apply trigger_only | apply OnlyIn.ite | extract_lets | split | refine OnlyIn.of_pair ?_ (by assumption)
    | exact .inl (frameSub_mem hl (by decide)) | exact .inr rfl | ((conv => arg 4; arg 27); apply OnlyIn.of_mk)
    | dsimp +zetaDelta only)

theorem execBringUpTrigger_only (s : State) (hl : frameSub [.cal] [] pl pk = true) (hs : OnlyIn pl pk os s) :
    ∃ s', execBringUpTrigger s = .next s' ∧ OnlyIn pl pk os s' := by
  unfold execBringUpTrigger
  refine ⟨_, rfl, ?_⟩
  repeat' (with_reducible first
    | assumption | intro _ | exact frameSub_trans (by decide) hl | exact frameKey_of hl (by decide) | exact hk
    | apply trigger_only | apply OnlyIn.ite | extract_lets | split | refine OnlyIn.of_pair ?_ (by assumption)
    | exact .inl (frameSub_mem hl (by decide)) | exact .inr rfl | ((conv => arg 4; arg 27); apply OnlyIn.of_mk)
    | dsimp +zetaDelta only)

theorem execChamberFillDone_only (s : State) (hl : frameSub [.pipe, .cal] [] pl pk = true) (hs : OnlyIn pl pk os s) :
    ∃ s', execChamberFillDone s = .next s' ∧ OnlyIn pl pk os s' := by
  unfold execChamberFillDone
  refine ⟨_, rfl, ?_⟩
  repeat' (with_reducible first
    | assumption | intro _ | exact frameSub_trans (by decide) hl | exact frameKey_of hl (by decide) | exact hk
    | apply withCal_only | apply OnlyIn.ite | extract_lets | split | refine OnlyIn.of_pair ?_ (by assumption)
    | exact .inl (frameSub_mem hl (by decide)) | exact .inr rfl | ((conv => arg 4; arg 27); apply OnlyIn.of_mk)
    | dsimp +zetaDelta only)

theorem execRestoreTimeout_only (s : State) (hl : frameSub [.cal] [] pl pk = true) (hs : OnlyIn pl pk os s) :
    ∃ s', execRestoreTimeout s = .next s' ∧ OnlyIn pl pk os s' := by
  unfold execRestoreTimeout
  refine ⟨_, rfl, ?_⟩
  repeat' (with_reducible first
    | assumption | intro _ | exact frameSub_trans (by decide) hl | exact frameKey_of hl (by decide) | exact hk
    | apply withCal_only | apply OnlyIn.ite | extract_lets | split | refine OnlyIn.of_pair ?_ (by assumption)
    | exact .inl (frameSub_mem hl (by decide)) | exact .inr rfl | ((conv => arg 4; arg 27); apply OnlyIn.of_mk)
    | dsimp +zetaDelta only)

theorem execOutFrameReadTimeout_only (s : State) (hl : frameSub [.klp] [] pl pk = true) (hs : OnlyIn pl pk os s) :
    ∃ s', execOutFrameReadTimeout s = .next s' ∧ OnlyIn pl pk os s' := by
  unfold execOutFrameReadTimeout
  refine ⟨_, rfl, ?_⟩
  repeat' (with_reducible first
    | assumption | intro _ | exact frameSub_trans (by decide) hl | exact frameKey_of hl (by decide) | exact hk | extract_lets
    | exact .inl (frameSub_mem hl (by decide)) | exact .inr rfl | ((conv => arg 4; arg 27); apply OnlyIn.of_mk)
    | dsimp +zetaDelta only)

theorem execBerthAlarmRaise_only (n : Nat) (s : State) (hl : frameSub [.berth] [] pl pk = true) (hs : OnlyIn pl pk os s) :
    ∃ s', execBerthAlarmRaise n s = .next s' ∧ OnlyIn pl pk os s' := by
  unfold execBerthAlarmRaise
  refine ⟨_, rfl, ?_⟩
  repeat' (with_reducible first
    | assumption | intro _ | exact frameSub_trans (by decide) hl | exact frameKey_of hl (by decide) | exact hk
    | apply modBerth_only | apply OnlyIn.ite | extract_lets | split | exact .inl (frameSub_mem hl (by decide)) | exact .inr rfl
    | ((conv => arg 4; arg 27); apply OnlyIn.of_mk) | dsimp +zetaDelta only)

theorem execBerthAlarmClear_only (n : Nat) (s : State) (hl : frameSub [.klp, .bus, .berth] [] pl pk = true) (hs : OnlyIn pl pk os s) :
    ∃ s', execBerthAlarmClear n s = .next s' ∧ OnlyIn pl pk os s' := by
  unfold execBerthAlarmClear
  refine ⟨_, rfl, ?_⟩
  repeat' (with_reducible first
    | assumption | intro _ | exact frameSub_trans (by decide) hl | exact frameKey_of hl (by decide) | exact hk
    | apply modBerth_only | apply alarm_only | apply OnlyIn.ite | extract_lets | split
    | exact .inl (frameSub_mem hl (by decide)) | exact .inr rfl | ((conv => arg 4; arg 27); apply OnlyIn.of_mk)
    | dsimp +zetaDelta only)

theorem execBerthOccupied_only (n : Nat) (s : State) (hl : frameSub [.berth] [] pl pk = true) (hs : OnlyIn pl pk os s) :
    ∃ s', execBerthOccupied n s = .next s' ∧ OnlyIn pl pk os s' := by
  unfold execBerthOccupied
  refine ⟨_, rfl, ?_⟩
  repeat' (with_reducible first
    | assumption | intro _ | exact frameSub_trans (by decide) hl | exact frameKey_of hl (by decide) | exact hk
    | apply modBerth_only | apply OnlyIn.ite | extract_lets | split | exact .inl (frameSub_mem hl (by decide)) | exact .inr rfl
    | ((conv => arg 4; arg 27); apply OnlyIn.of_mk) | dsimp +zetaDelta only)

theorem execBerthVacant_only (n : Nat) (s : State) (hl : frameSub [.berth] [] pl pk = true) (hs : OnlyIn pl pk os s) :
    ∃ s', execBerthVacant n s = .next s' ∧ OnlyIn pl pk os s' := by
  unfold execBerthVacant
  refine ⟨_, rfl, ?_⟩
  repeat' (with_reducible first
    | assumption | intro _ | exact frameSub_trans (by decide) hl | exact frameKey_of hl (by decide) | exact hk
    | apply modBerth_only | apply OnlyIn.ite | extract_lets | split | exact .inl (frameSub_mem hl (by decide)) | exact .inr rfl
    | ((conv => arg 4; arg 27); apply OnlyIn.of_mk) | dsimp +zetaDelta only)

theorem execTablePublication_only (s : State) (hl : frameSub [.klp, .log, .bus, .berth, .loop, .act, .video] [Reg.REPORTS_DEFERRED, Reg.SOURCE_CHANGES] pl pk = true) (hs : OnlyIn pl pk os s) :
    ∃ s', execTablePublication s = .next s' ∧ OnlyIn pl pk os s' := by
  unfold execTablePublication
  refine ⟨_, rfl, ?_⟩
  repeat' (with_reducible first
    | assumption | intro _ | exact frameSub_trans (by decide) hl | exact frameKey_of hl (by decide) | exact hk
    | apply publishTable_only | apply withVideo_only | apply takeTables_only | apply engineEval_only | apply OnlyIn.ite
    | extract_lets | split | exact .inl (frameSub_mem hl (by decide)) | exact .inr rfl
    | ((conv => arg 4; arg 27); apply OnlyIn.of_mk) | dsimp +zetaDelta only)

end Sys2Proof.Machine
end

