-- ==== Sys2Proof/Laws/FramesImaging.lean ====
section
/-!
SUPPORT. What the operations of Machine/Imaging.lean change at most.
-/
namespace Sys2Proof.Machine

variable {pl : List Piece} {pk : List Nat} {os : State}

theorem execGainModeWrite_only (w : Wr) (s : State) (hl : frameSub [.klp, .nv, .log] [Reg.GAIN_MODE] pl pk = true) (hs : OnlyIn pl pk os s) :
    ∃ s', execGainModeWrite w s = .next s' ∧ OnlyIn pl pk os s' := by
  unfold execGainModeWrite
  refine ⟨_, rfl, ?_⟩
  repeat' (with_reducible first
    | assumption | intro _ | exact frameSub_trans (by decide) hl | exact frameKey_of hl (by decide) | exact hk
    | apply ledgerWrite_only | apply plainRule_only | dsimp +zetaDelta only)

theorem imagerModeRule_only (s : State) (v : Nat) (hl : frameSub [.nv, .log] [Reg.IMAGER_MODE] pl pk = true) (hs : OnlyIn pl pk os s) :
    OnlyIn pl pk os (imagerModeRule s v).2 := by
  unfold imagerModeRule
  repeat' (with_reducible first
    | assumption | intro _ | exact frameSub_trans (by decide) hl | exact frameKey_of hl (by decide) | exact hk
    | apply plainRule_only | apply OnlyIn.ite | extract_lets | split | exact .inl (frameSub_mem hl (by decide)) | exact .inr rfl
    | ((conv => arg 4; arg 27); apply OnlyIn.of_mk) | dsimp +zetaDelta only)

theorem execImagerModeWrite_only (w : Wr) (s : State) (hl : frameSub [.klp, .nv, .log] [Reg.IMAGER_MODE] pl pk = true) (hs : OnlyIn pl pk os s) :
    ∃ s', execImagerModeWrite w s = .next s' ∧ OnlyIn pl pk os s' := by
  unfold execImagerModeWrite
  refine ⟨_, rfl, ?_⟩
  repeat' (with_reducible first
    | assumption | intro _ | exact frameSub_trans (by decide) hl | exact frameKey_of hl (by decide) | exact hk
    | apply ledgerWrite_only | apply imagerModeRule_only | dsimp +zetaDelta only)

theorem outputFormRule_only (s : State) (v : Nat) (hl : frameSub [.nv, .log] [Reg.OUTPUT_FORM] pl pk = true) (hs : OnlyIn pl pk os s) :
    OnlyIn pl pk os (outputFormRule s v).2 := by
  unfold outputFormRule
  repeat' (with_reducible first
    | assumption | intro _ | exact frameSub_trans (by decide) hl | exact frameKey_of hl (by decide) | exact hk
    | apply plainRule_only | apply OnlyIn.ite | extract_lets | split | exact .inl (frameSub_mem hl (by decide)) | exact .inr rfl
    | ((conv => arg 4; arg 27); apply OnlyIn.of_mk) | dsimp +zetaDelta only)

theorem execOutputFormWrite_only (w : Wr) (s : State) (hl : frameSub [.klp, .nv, .log] [Reg.OUTPUT_FORM] pl pk = true) (hs : OnlyIn pl pk os s) :
    ∃ s', execOutputFormWrite w s = .next s' ∧ OnlyIn pl pk os s' := by
  unfold execOutputFormWrite
  refine ⟨_, rfl, ?_⟩
  repeat' (with_reducible first
    | assumption | intro _ | exact frameSub_trans (by decide) hl | exact frameKey_of hl (by decide) | exact hk
    | apply ledgerWrite_only | apply outputFormRule_only | dsimp +zetaDelta only)

theorem filterShiftRule_only (s : State) (v : Nat) (hl : frameSub [.nv, .log, .pipe] [Reg.FILTER_SHIFT] pl pk = true) (hs : OnlyIn pl pk os s) :
    OnlyIn pl pk os (filterShiftRule s v).2 := by
  unfold filterShiftRule
  repeat' (with_reducible first
    | assumption | intro _ | exact frameSub_trans (by decide) hl | exact frameKey_of hl (by decide) | exact hk
    | apply andThen_only | apply plainRule_only | apply clearFilter_only | dsimp +zetaDelta only)

theorem execFilterShiftWrite_only (w : Wr) (s : State) (hl : frameSub [.klp, .nv, .log, .pipe] [Reg.FILTER_SHIFT] pl pk = true) (hs : OnlyIn pl pk os s) :
    ∃ s', execFilterShiftWrite w s = .next s' ∧ OnlyIn pl pk os s' := by
  unfold execFilterShiftWrite
  refine ⟨_, rfl, ?_⟩
  repeat' (with_reducible first
    | assumption | intro _ | exact frameSub_trans (by decide) hl | exact frameKey_of hl (by decide) | exact hk
    | apply ledgerWrite_only | apply filterShiftRule_only | dsimp +zetaDelta only)

theorem lensRule_only (n : Nat) (s : State) (v : Nat) (hl : frameSub [.regs, .nv, .log] [] pl pk = true) (hs : OnlyIn pl pk os s) :
    OnlyIn pl pk os (lensRule n s v).2 := by
  unfold lensRule
  repeat' (with_reducible first
    | assumption | intro _ | exact frameSub_trans (by decide) hl | exact frameKey_of hl (by decide) | exact hk
    | exact frameKey_regs (frameSub_mem hl (by decide)) | apply andThen_only | apply plainRule_only | apply setReg_only
    | apply OnlyIn.ite | split | exact .inl (frameSub_mem hl (by decide)) | exact .inr rfl
    | ((conv => arg 4; arg 27); apply OnlyIn.of_mk) | dsimp +zetaDelta only)

theorem execLensWrite_only (n : Nat) (w : Wr) (s : State) (hl : frameSub [.regs, .klp, .nv, .log] [] pl pk = true) (hs : OnlyIn pl pk os s) :
    ∃ s', execLensWrite n w s = .next s' ∧ OnlyIn pl pk os s' := by
  unfold execLensWrite
  refine ⟨_, rfl, ?_⟩
  repeat' (with_reducible first
    | assumption | intro _ | exact frameSub_trans (by decide) hl | exact frameKey_of hl (by decide) | exact hk
    | exact frameKey_regs (frameSub_mem hl (by decide)) | apply ledgerWrite_only | apply lensRule_only | dsimp +zetaDelta only)

theorem gradientLimitRule_only (n : Nat) (s : State) (v : Nat) (hl : frameSub [.regs, .nv, .log] [] pl pk = true) (hs : OnlyIn pl pk os s) :
    OnlyIn pl pk os (gradientLimitRule n s v).2 := by
  unfold gradientLimitRule
  repeat' (with_reducible first
    | assumption | intro _ | exact frameSub_trans (by decide) hl | exact frameKey_of hl (by decide) | exact hk
    | exact frameKey_regs (frameSub_mem hl (by decide)) | apply plainRule_only | apply OnlyIn.ite | split
    | dsimp +zetaDelta only)

theorem execGradientLimitWrite_only (n : Nat) (w : Wr) (s : State) (hl : frameSub [.regs, .klp, .nv, .log] [] pl pk = true) (hs : OnlyIn pl pk os s) :
    ∃ s', execGradientLimitWrite n w s = .next s' ∧ OnlyIn pl pk os s' := by
  unfold execGradientLimitWrite
  refine ⟨_, rfl, ?_⟩
  repeat' (with_reducible first
    | assumption | intro _ | exact frameSub_trans (by decide) hl | exact frameKey_of hl (by decide) | exact hk
    | exact frameKey_regs (frameSub_mem hl (by decide)) | apply ledgerWrite_only | apply gradientLimitRule_only
    | dsimp +zetaDelta only)

theorem groupStateRule_only (n : Nat) (s : State) (v : Nat) (hl : frameSub [.focal] [] pl pk = true) (hs : OnlyIn pl pk os s) :
    OnlyIn pl pk os (groupStateRule n s v).2 := by
  unfold groupStateRule
  repeat' (with_reducible first
    | assumption | intro _ | exact frameSub_trans (by decide) hl | exact frameKey_of hl (by decide) | exact hk
    | apply withFocal_only | apply OnlyIn.ite | extract_lets | split | exact .inl (frameSub_mem hl (by decide)) | exact .inr rfl
    | ((conv => arg 4; arg 27); apply OnlyIn.of_mk) | dsimp +zetaDelta only)

theorem execGroupStateWrite_only (n : Nat) (w : Wr) (s : State) (hl : frameSub [.klp, .focal] [] pl pk = true) (hs : OnlyIn pl pk os s) :
    ∃ s', execGroupStateWrite n w s = .next s' ∧ OnlyIn pl pk os s' := by
  unfold execGroupStateWrite
  refine ⟨_, rfl, ?_⟩
  repeat' (with_reducible first
    | assumption | intro _ | exact frameSub_trans (by decide) hl | exact frameKey_of hl (by decide) | exact hk
    | apply ledgerWrite_only | apply groupStateRule_only | dsimp +zetaDelta only)

theorem calWrite_only (s : State) (r : Req) (code : Nat) (run : State → Status × State) (hl : frameSub [.klp] [] pl pk = true) (hs : OnlyIn pl pk os s) (hrun : ∀ t, OnlyIn pl pk os t → OnlyIn pl pk os (run t).2) :
    OnlyIn pl pk os (State.calWrite s r code run) := by
  unfold State.calWrite
  repeat' (with_reducible first
    | assumption | intro _ | exact frameSub_trans (by decide) hl | exact frameKey_of hl (by decide) | exact hk
    | apply ledgerWrite_only | apply hrun | dsimp +zetaDelta only)

theorem calCycleRule_only (_r : Req) (s : State) (hl : frameSub [.cal] [] pl pk = true) (hs : OnlyIn pl pk os s) :
    OnlyIn pl pk os (calCycleRule _r s).2 := by
  unfold calCycleRule
  repeat' (with_reducible first
    | assumption | intro _ | exact frameSub_trans (by decide) hl | exact frameKey_of hl (by decide) | exact hk
    | apply trigger_only | apply OnlyIn.ite | split | dsimp +zetaDelta only)

theorem execCalCycle_only (r : Req) (s : State) (hl : frameSub [.klp, .cal] [] pl pk = true) (hs : OnlyIn pl pk os s) :
    ∃ s', execCalCycle r s = .next s' ∧ OnlyIn pl pk os s' := by
  unfold execCalCycle
  refine ⟨_, rfl, ?_⟩
  repeat' (with_reducible first
    | assumption | intro _ | exact frameSub_trans (by decide) hl | exact frameKey_of hl (by decide) | exact hk
    | apply calWrite_only | apply calCycleRule_only | dsimp +zetaDelta only)

theorem calCycleRefRule_only (r : Req) (s : State) (hl : frameSub [.cal] [] pl pk = true) (hs : OnlyIn pl pk os s) :
    OnlyIn pl pk os (calCycleRefRule r s).2 := by
  unfold calCycleRefRule
  repeat' (with_reducible first
    | assumption | intro _ | exact frameSub_trans (by decide) hl | exact frameKey_of hl (by decide) | exact hk
    | apply trigger_only | apply OnlyIn.ite | split | dsimp +zetaDelta only)

theorem execCalCycleRef_only (r : Req) (s : State) (hl : frameSub [.klp, .cal] [] pl pk = true) (hs : OnlyIn pl pk os s) :
    ∃ s', execCalCycleRef r s = .next s' ∧ OnlyIn pl pk os s' := by
  unfold execCalCycleRef
  refine ⟨_, rfl, ?_⟩
  repeat' (with_reducible first
    | assumption | intro _ | exact frameSub_trans (by decide) hl | exact frameKey_of hl (by decide) | exact hk
    | apply calWrite_only | apply calCycleRefRule_only | dsimp +zetaDelta only)

theorem calAbortRule_only (_r : Req) (s : State) (hl : frameSub [.cal] [] pl pk = true) (hs : OnlyIn pl pk os s) :
    OnlyIn pl pk os (calAbortRule _r s).2 := by
  unfold calAbortRule
  repeat' (with_reducible first
    | assumption | intro _ | exact frameSub_trans (by decide) hl | exact frameKey_of hl (by decide) | exact hk
    | apply abortCycle_only | apply withCal_only | extract_lets | exact .inl (frameSub_mem hl (by decide)) | exact .inr rfl
    | ((conv => arg 4; arg 27); apply OnlyIn.of_mk) | dsimp +zetaDelta only)

theorem execCalAbort_only (r : Req) (s : State) (hl : frameSub [.klp, .cal] [] pl pk = true) (hs : OnlyIn pl pk os s) :
    ∃ s', execCalAbort r s = .next s' ∧ OnlyIn pl pk os s' := by
  unfold execCalAbort
  refine ⟨_, rfl, ?_⟩
  repeat' (with_reducible first
    | assumption | intro _ | exact frameSub_trans (by decide) hl | exact frameKey_of hl (by decide) | exact hk
    | apply calWrite_only | apply calAbortRule_only | dsimp +zetaDelta only)

theorem calQualifySparesRule_only (r : Req) (s : State) (hl : frameSub [.cal] [] pl pk = true) (hs : OnlyIn pl pk os s) :
    OnlyIn pl pk os (calQualifySparesRule r s).2 := by
  unfold calQualifySparesRule
  repeat' (with_reducible first
    | assumption | intro _ | exact frameSub_trans (by decide) hl | exact frameKey_of hl (by decide) | exact hk
    | apply withCal_only | apply OnlyIn.ite | extract_lets | split | exact .inl (frameSub_mem hl (by decide)) | exact .inr rfl
    | ((conv => arg 4; arg 27); apply OnlyIn.of_mk) | dsimp +zetaDelta only)

theorem execCalQualifySpares_only (r : Req) (s : State) (hl : frameSub [.klp, .cal] [] pl pk = true) (hs : OnlyIn pl pk os s) :
    ∃ s', execCalQualifySpares r s = .next s' ∧ OnlyIn pl pk os s' := by
  unfold execCalQualifySpares
  refine ⟨_, rfl, ?_⟩
  repeat' (with_reducible first
    | assumption | intro _ | exact frameSub_trans (by decide) hl | exact frameKey_of hl (by decide) | exact hk
    | apply calWrite_only | apply calQualifySparesRule_only | dsimp +zetaDelta only)

theorem calShutterTestRule_only (r : Req) (s : State) (hl : frameSub [.focal, .cal] [] pl pk = true) (hs : OnlyIn pl pk os s) :
    OnlyIn pl pk os (calShutterTestRule r s).2 := by
  unfold calShutterTestRule
  repeat' (with_reducible first
    | assumption | intro _ | exact frameSub_trans (by decide) hl | exact frameKey_of hl (by decide) | exact hk
    | apply withCal_only | apply startTravel_only | apply OnlyIn.ite | extract_lets | split
    | exact .inl (frameSub_mem hl (by decide)) | exact .inr rfl | ((conv => arg 4; arg 27); apply OnlyIn.of_mk)
    | dsimp +zetaDelta only)

theorem execCalShutterTest_only (r : Req) (s : State) (hl : frameSub [.klp, .focal, .cal] [] pl pk = true) (hs : OnlyIn pl pk os s) :
    ∃ s', execCalShutterTest r s = .next s' ∧ OnlyIn pl pk os s' := by
  unfold execCalShutterTest
  refine ⟨_, rfl, ?_⟩
  repeat' (with_reducible first
    | assumption | intro _ | exact frameSub_trans (by decide) hl | exact frameKey_of hl (by decide) | exact hk
    | apply calWrite_only | apply calShutterTestRule_only | dsimp +zetaDelta only)

theorem calLoadFactoryRule_only (r : Req) (s : State) (hl : frameSub [.cal] [] pl pk = true) (hs : OnlyIn pl pk os s) :
    OnlyIn pl pk os (calLoadFactoryRule r s).2 := by
  unfold calLoadFactoryRule
  repeat' (with_reducible first
    | assumption | intro _ | exact frameSub_trans (by decide) hl | exact frameKey_of hl (by decide) | exact hk
    | apply withCal_only | apply OnlyIn.ite | extract_lets | split | exact .inl (frameSub_mem hl (by decide)) | exact .inr rfl
    | ((conv => arg 4; arg 27); apply OnlyIn.of_mk) | dsimp +zetaDelta only)

theorem execCalLoadFactory_only (r : Req) (s : State) (hl : frameSub [.klp, .cal] [] pl pk = true) (hs : OnlyIn pl pk os s) :
    ∃ s', execCalLoadFactory r s = .next s' ∧ OnlyIn pl pk os s' := by
  unfold execCalLoadFactory
  refine ⟨_, rfl, ?_⟩
  repeat' (with_reducible first
    | assumption | intro _ | exact frameSub_trans (by decide) hl | exact frameKey_of hl (by decide) | exact hk
    | apply calWrite_only | apply calLoadFactoryRule_only | dsimp +zetaDelta only)

theorem berthRule_only (lvl n sub : Nat) (s : State) (v : Nat) (hl : frameSub [.regs, .berth] [] pl pk = true) (hs : OnlyIn pl pk os s) :
    OnlyIn pl pk os (berthRule lvl n sub s v).2 := by
  unfold berthRule
  repeat' (with_reducible first
    | assumption | intro _ | exact frameSub_trans (by decide) hl | exact frameKey_of hl (by decide) | exact hk
    | exact frameKey_regs (frameSub_mem hl (by decide)) | apply setReg_only | apply withBerth_only | apply OnlyIn.ite
    | extract_lets | split | refine OnlyIn.of_pair ?_ (by assumption) | exact .inl (frameSub_mem hl (by decide))
    | exact .inr rfl | ((conv => arg 4; arg 27); apply OnlyIn.of_mk) | dsimp +zetaDelta only)

theorem execBerthEntryWrite_only (n sub : Nat) (w : Wr) (s : State) (hl : frameSub [.regs, .klp, .berth] [] pl pk = true) (hs : OnlyIn pl pk os s) :
    ∃ s', execBerthEntryWrite n sub w s = .next s' ∧ OnlyIn pl pk os s' := by
  unfold execBerthEntryWrite
  refine ⟨_, rfl, ?_⟩
  repeat' (with_reducible first
    | assumption | intro _ | exact frameSub_trans (by decide) hl | exact frameKey_of hl (by decide) | exact hk
    | exact frameKey_regs (frameSub_mem hl (by decide)) | apply ledgerWrite_only | apply berthRule_only | dsimp +zetaDelta only)

theorem execEditHoldWrite_only (w : Wr) (s : State) (hl : frameSub [.klp, .nv, .log] [Reg.EDIT_HOLD] pl pk = true) (hs : OnlyIn pl pk os s) :
    ∃ s', execEditHoldWrite w s = .next s' ∧ OnlyIn pl pk os s' := by
  unfold execEditHoldWrite
  refine ⟨_, rfl, ?_⟩
  repeat' (with_reducible first
    | assumption | intro _ | exact frameSub_trans (by decide) hl | exact frameKey_of hl (by decide) | exact hk
    | apply ledgerWrite_only | apply plainRule_only | dsimp +zetaDelta only)

theorem videoEnableRule_only (s : State) (v : Nat) (hl : frameSub [.nv, .log, .video] [Reg.VIDEO_ENABLE] pl pk = true) (hs : OnlyIn pl pk os s) :
    OnlyIn pl pk os (videoEnableRule s v).2 := by
  unfold videoEnableRule
  repeat' (with_reducible first
    | assumption | intro _ | exact frameSub_trans (by decide) hl | exact frameKey_of hl (by decide) | exact hk
    | apply andThen_only | apply plainRule_only | apply withVideo_only | apply OnlyIn.ite | split
    | exact .inl (frameSub_mem hl (by decide)) | exact .inr rfl | ((conv => arg 4; arg 27); apply OnlyIn.of_mk)
    | dsimp +zetaDelta only)

theorem execVideoEnableWrite_only (w : Wr) (s : State) (hl : frameSub [.klp, .nv, .log, .video] [Reg.VIDEO_ENABLE] pl pk = true) (hs : OnlyIn pl pk os s) :
    ∃ s', execVideoEnableWrite w s = .next s' ∧ OnlyIn pl pk os s' := by
  unfold execVideoEnableWrite
  refine ⟨_, rfl, ?_⟩
  repeat' (with_reducible first
    | assumption | intro _ | exact frameSub_trans (by decide) hl | exact frameKey_of hl (by decide) | exact hk
    | apply ledgerWrite_only | apply videoEnableRule_only | dsimp +zetaDelta only)

theorem execStreamStart_only (s : State) (hl : frameSub [.video] [] pl pk = true) (hs : OnlyIn pl pk os s) :
    ∃ s', execStreamStart s = .next s' ∧ OnlyIn pl pk os s' := by
  unfold execStreamStart
  refine ⟨_, rfl, ?_⟩
  repeat' (with_reducible first
    | assumption | intro _ | exact frameSub_trans (by decide) hl | exact frameKey_of hl (by decide) | exact hk
    | apply withVideo_only | apply videoFrame_only | apply OnlyIn.ite | extract_lets | split
    | exact .inl (frameSub_mem hl (by decide)) | exact .inr rfl | ((conv => arg 4; arg 27); apply OnlyIn.of_mk)
    | dsimp +zetaDelta only)

theorem videoLinkRule_only (n : Nat) (s : State) (v : Nat) (hl : frameSub [.regs, .nv, .log] [] pl pk = true) (hs : OnlyIn pl pk os s) :
    OnlyIn pl pk os (videoLinkRule n s v).2 := by
  unfold videoLinkRule
  repeat' (with_reducible first
    | assumption | intro _ | exact frameSub_trans (by decide) hl | exact frameKey_of hl (by decide) | exact hk
    | exact frameKey_regs (frameSub_mem hl (by decide)) | apply plainRule_only | apply OnlyIn.ite | split
    | dsimp +zetaDelta only)

theorem execVideoLinkWrite_only (n : Nat) (w : Wr) (s : State) (hl : frameSub [.regs, .klp, .nv, .log] [] pl pk = true) (hs : OnlyIn pl pk os s) :
    ∃ s', execVideoLinkWrite n w s = .next s' ∧ OnlyIn pl pk os s' := by
  unfold execVideoLinkWrite
  refine ⟨_, rfl, ?_⟩
  repeat' (with_reducible first
    | assumption | intro _ | exact frameSub_trans (by decide) hl | exact frameKey_of hl (by decide) | exact hk
    | exact frameKey_regs (frameSub_mem hl (by decide)) | apply ledgerWrite_only | apply videoLinkRule_only
    | dsimp +zetaDelta only)

theorem vc2Rule_only (s : State) (v : Nat) (hl : frameSub [.video] [] pl pk = true) (hs : OnlyIn pl pk os s) :
    OnlyIn pl pk os (vc2Rule s v).2 := by
  unfold vc2Rule
  repeat' (with_reducible first
    | assumption | intro _ | exact frameSub_trans (by decide) hl | exact frameKey_of hl (by decide) | exact hk
    | apply withVideo_only | apply OnlyIn.ite | extract_lets | split | exact .inl (frameSub_mem hl (by decide)) | exact .inr rfl
    | ((conv => arg 4; arg 27); apply OnlyIn.of_mk) | dsimp +zetaDelta only)

theorem execVc2RequestWrite_only (w : Wr) (s : State) (hl : frameSub [.klp, .video] [] pl pk = true) (hs : OnlyIn pl pk os s) :
    ∃ s', execVc2RequestWrite w s = .next s' ∧ OnlyIn pl pk os s' := by
  unfold execVc2RequestWrite
  refine ⟨_, rfl, ?_⟩
  repeat' (with_reducible first
    | assumption | intro _ | exact frameSub_trans (by decide) hl | exact frameKey_of hl (by decide) | exact hk
    | apply ledgerWrite_only | apply vc2Rule_only | dsimp +zetaDelta only)

end Sys2Proof.Machine
end

