-- ==== Sys2Proof/Laws/FramesLoops.lean ====
section
/-!
SUPPORT. What the operations of Machine/Loops.lean change at most.
-/
namespace Sys2Proof.Machine

variable {pl : List Piece} {pk : List Nat} {os : State}

theorem loopModeRule_only (n : Nat) (s : State) (v : Nat) (hl : frameSub [.regs, .nv, .log, .loop] [] pl pk = true) (hs : OnlyIn pl pk os s) :
    OnlyIn pl pk os (loopModeRule n s v).2 := by
  unfold loopModeRule
  repeat' (with_reducible first
    | assumption | intro _ | exact frameSub_trans (by decide) hl | exact frameKey_of hl (by decide) | exact hk
    | exact frameKey_regs (frameSub_mem hl (by decide)) | apply andThen_only | apply putEntry_only | apply setLoopRun_only
    | apply OnlyIn.ite | extract_lets | split | exact .inl (frameSub_mem hl (by decide)) | exact .inr rfl
    | ((conv => arg 4; arg 27); apply OnlyIn.of_mk) | dsimp +zetaDelta only)

theorem execLoopModeWrite_only (n : Nat) (w : Wr) (s : State) (hl : frameSub [.regs, .klp, .nv, .log, .loop] [] pl pk = true) (hs : OnlyIn pl pk os s) :
    ∃ s', execLoopModeWrite n w s = .next s' ∧ OnlyIn pl pk os s' := by
  unfold execLoopModeWrite
  refine ⟨_, rfl, ?_⟩
  repeat' (with_reducible first
    | assumption | intro _ | exact frameSub_trans (by decide) hl | exact frameKey_of hl (by decide) | exact hk
    | exact frameKey_regs (frameSub_mem hl (by decide)) | apply ledgerWrite_only | apply loopModeRule_only
    | dsimp +zetaDelta only)

theorem loopTargetRule_only (n : Nat) (s : State) (v : Nat) (hl : frameSub [.regs, .nv, .log] [] pl pk = true) (hs : OnlyIn pl pk os s) :
    OnlyIn pl pk os (loopTargetRule n s v).2 := by
  unfold loopTargetRule
  repeat' (with_reducible first
    | assumption | intro _ | exact frameSub_trans (by decide) hl | exact frameKey_of hl (by decide) | exact hk
    | exact frameKey_regs (frameSub_mem hl (by decide)) | apply putEntry_only | apply OnlyIn.ite | split | dsimp +zetaDelta only)

theorem execLoopTargetWrite_only (n : Nat) (w : Wr) (s : State) (hl : frameSub [.regs, .klp, .nv, .log] [] pl pk = true) (hs : OnlyIn pl pk os s) :
    ∃ s', execLoopTargetWrite n w s = .next s' ∧ OnlyIn pl pk os s' := by
  unfold execLoopTargetWrite
  refine ⟨_, rfl, ?_⟩
  repeat' (with_reducible first
    | assumption | intro _ | exact frameSub_trans (by decide) hl | exact frameKey_of hl (by decide) | exact hk
    | exact frameKey_regs (frameSub_mem hl (by decide)) | apply ledgerWrite_only | apply loopTargetRule_only
    | dsimp +zetaDelta only)

theorem pvSourceRule_only (key : Nat) (s : State) (v : Nat) (hl : frameSub [.regs, .nv, .log] [] pl pk = true) (hs : OnlyIn pl pk os s) :
    OnlyIn pl pk os (pvSourceRule key s v).2 := by
  unfold pvSourceRule
  repeat' (with_reducible first
    | assumption | intro _ | exact frameSub_trans (by decide) hl | exact frameKey_of hl (by decide) | exact hk
    | exact frameKey_regs (frameSub_mem hl (by decide)) | apply putEntry_only | apply OnlyIn.ite | split | dsimp +zetaDelta only)

theorem execPvSourceWrite_only (l : Nat) (backup : Bool) (w : Wr) (s : State) (hl : frameSub [.regs, .klp, .nv, .log] [] pl pk = true) (hs : OnlyIn pl pk os s) :
    ∃ s', execPvSourceWrite l backup w s = .next s' ∧ OnlyIn pl pk os s' := by
  unfold execPvSourceWrite
  refine ⟨_, rfl, ?_⟩
  repeat' (with_reducible first
    | assumption | intro _ | exact frameSub_trans (by decide) hl | exact frameKey_of hl (by decide) | exact hk
    | exact frameKey_regs (frameSub_mem hl (by decide)) | apply ledgerWrite_only | apply pvSourceRule_only | apply OnlyIn.ite
    | extract_lets | split | dsimp +zetaDelta only)

theorem zoneOverrideRule_only (n : Nat) (s : State) (v : Nat) (hl : frameSub [.regs, .nv, .log, .loop] [] pl pk = true) (hs : OnlyIn pl pk os s) :
    OnlyIn pl pk os (zoneOverrideRule n s v).2 := by
  unfold zoneOverrideRule
  repeat' (with_reducible first
    | assumption | intro _ | exact frameSub_trans (by decide) hl | exact frameKey_of hl (by decide) | exact hk
    | exact frameKey_regs (frameSub_mem hl (by decide)) | apply andThen_only | apply plainRule_only | apply setZoneRun_only
    | apply evalPrograms_only | apply OnlyIn.ite | extract_lets | split | exact .inl (frameSub_mem hl (by decide))
    | exact .inr rfl | ((conv => arg 4; arg 27); apply OnlyIn.of_mk) | dsimp +zetaDelta only)

theorem execZoneOverrideWrite_only (n : Nat) (w : Wr) (s : State) (hl : frameSub [.regs, .klp, .nv, .log, .loop] [] pl pk = true) (hs : OnlyIn pl pk os s) :
    ∃ s', execZoneOverrideWrite n w s = .next s' ∧ OnlyIn pl pk os s' := by
  unfold execZoneOverrideWrite
  refine ⟨_, rfl, ?_⟩
  repeat' (with_reducible first
    | assumption | intro _ | exact frameSub_trans (by decide) hl | exact frameKey_of hl (by decide) | exact hk
    | exact frameKey_regs (frameSub_mem hl (by decide)) | apply ledgerWrite_only | apply zoneOverrideRule_only
    | dsimp +zetaDelta only)

theorem execOverrideExpiry_only (n : Nat) (s : State) (hl : frameSub [.regs, .loop] [] pl pk = true) (hs : OnlyIn pl pk os s) :
    ∃ s', execOverrideExpiry n s = .next s' ∧ OnlyIn pl pk os s' := by
  unfold execOverrideExpiry
  refine ⟨_, rfl, ?_⟩
  repeat' (with_reducible first
    | assumption | intro _ | exact frameSub_trans (by decide) hl | exact frameKey_of hl (by decide) | exact hk
    | exact frameKey_regs (frameSub_mem hl (by decide)) | apply setZoneRun_only | apply setReg_only | apply OnlyIn.ite
    | extract_lets | split | refine OnlyIn.of_pair ?_ (by assumption) | exact .inl (frameSub_mem hl (by decide))
    | exact .inr rfl | ((conv => arg 4; arg 27); apply OnlyIn.of_mk) | dsimp +zetaDelta only)

theorem execPresenceHoldExpiry_only (n : Nat) (s : State) (hl : frameSub [.loop] [] pl pk = true) (hs : OnlyIn pl pk os s) :
    ∃ s', execPresenceHoldExpiry n s = .next s' ∧ OnlyIn pl pk os s' := by
  unfold execPresenceHoldExpiry
  refine ⟨_, rfl, ?_⟩
  repeat' (with_reducible first
    | assumption | intro _ | exact frameSub_trans (by decide) hl | exact frameKey_of hl (by decide) | exact hk
    | apply setZoneRun_only | apply OnlyIn.ite | extract_lets | split | exact .inl (frameSub_mem hl (by decide))
    | exact .inr rfl | ((conv => arg 4; arg 27); apply OnlyIn.of_mk) | dsimp +zetaDelta only)

theorem switchPointRule_only (p j : Nat) (s : State) (v : Nat) (hl : frameSub [.regs, .nv, .log, .loop] [] pl pk = true) (hs : OnlyIn pl pk os s) :
    OnlyIn pl pk os (switchPointRule p j s v).2 := by
  unfold switchPointRule
  repeat' (with_reducible first
    | assumption | intro _ | exact frameSub_trans (by decide) hl | exact frameKey_of hl (by decide) | exact hk
    | exact frameKey_regs (frameSub_mem hl (by decide)) | apply andThen_only | apply putEntry_only | apply evalPrograms_only
    | apply OnlyIn.ite | split | dsimp +zetaDelta only)

theorem execSwitchPointWrite_only (p j : Nat) (w : Wr) (s : State) (hl : frameSub [.regs, .klp, .nv, .log, .loop] [] pl pk = true) (hs : OnlyIn pl pk os s) :
    ∃ s', execSwitchPointWrite p j w s = .next s' ∧ OnlyIn pl pk os s' := by
  unfold execSwitchPointWrite
  refine ⟨_, rfl, ?_⟩
  repeat' (with_reducible first
    | assumption | intro _ | exact frameSub_trans (by decide) hl | exact frameKey_of hl (by decide) | exact hk
    | exact frameKey_regs (frameSub_mem hl (by decide)) | apply ledgerWrite_only | apply switchPointRule_only
    | dsimp +zetaDelta only)

theorem exceptionDateRule_only (n : Nat) (s : State) (v : Nat) (hl : frameSub [.regs, .nv, .log, .loop] [] pl pk = true) (hs : OnlyIn pl pk os s) :
    OnlyIn pl pk os (exceptionDateRule n s v).2 := by
  unfold exceptionDateRule
  repeat' (with_reducible first
    | assumption | intro _ | exact frameSub_trans (by decide) hl | exact frameKey_of hl (by decide) | exact hk
    | exact frameKey_regs (frameSub_mem hl (by decide)) | apply andThen_only | apply putEntry_only | apply evalPrograms_only
    | apply OnlyIn.ite | extract_lets | split | dsimp +zetaDelta only)

theorem execExceptionDateWrite_only (n : Nat) (w : Wr) (s : State) (hl : frameSub [.regs, .klp, .nv, .log, .loop] [] pl pk = true) (hs : OnlyIn pl pk os s) :
    ∃ s', execExceptionDateWrite n w s = .next s' ∧ OnlyIn pl pk os s' := by
  unfold execExceptionDateWrite
  refine ⟨_, rfl, ?_⟩
  repeat' (with_reducible first
    | assumption | intro _ | exact frameSub_trans (by decide) hl | exact frameKey_of hl (by decide) | exact hk
    | exact frameKey_regs (frameSub_mem hl (by decide)) | apply ledgerWrite_only | apply exceptionDateRule_only
    | dsimp +zetaDelta only)

theorem execProgramEvaluation_only (s : State) (hl : frameSub [.regs, .loop] [] pl pk = true) (hs : OnlyIn pl pk os s) :
    ∃ s', execProgramEvaluation s = .next s' ∧ OnlyIn pl pk os s' := by
  unfold execProgramEvaluation
  refine ⟨_, rfl, ?_⟩
  repeat' (with_reducible first
    | assumption | intro _ | exact frameSub_trans (by decide) hl | exact frameKey_of hl (by decide) | exact hk
    | exact frameKey_regs (frameSub_mem hl (by decide)) | apply evalPrograms_only | apply updateZones_only | apply OnlyIn.ite
    | split | dsimp +zetaDelta only)

theorem execMasterSilentExpiry_only (s : State) (hl : frameSub [.log, .loop] [Reg.TABLE_TAKEOVERS] pl pk = true) (hs : OnlyIn pl pk os s) :
    ∃ s', execMasterSilentExpiry s = .next s' ∧ OnlyIn pl pk os s' := by
  unfold execMasterSilentExpiry
  refine ⟨_, rfl, ?_⟩
  repeat' (with_reducible first
    | assumption | intro _ | exact frameSub_trans (by decide) hl | exact frameKey_of hl (by decide) | exact hk
    | apply noteAutonomous_only | apply engineHolds_only | apply OnlyIn.ite | split | dsimp +zetaDelta only)

end Sys2Proof.Machine
end

