-- ==== Sys2Proof/Laws/FramesActuators.lean ====
section
/-!
SUPPORT. What the operations of Machine/Actuators.lean change at most.
-/
namespace Sys2Proof.Machine

variable {pl : List Piece} {pk : List Nat} {os : State}

theorem outCommandRule_only (n : Nat) (s : State) (v : Nat) (hl : frameSub [.regs, .nv, .log, .act] [] pl pk = true) (hs : OnlyIn pl pk os s) :
    OnlyIn pl pk os (outCommandRule n s v).2 := by
  unfold outCommandRule
  repeat' (with_reducible first
    | assumption | intro _ | exact frameSub_trans (by decide) hl | exact frameKey_of hl (by decide) | exact hk
    | exact frameKey_regs (frameSub_mem hl (by decide)) | apply andThen_only | apply plainRule_only | apply commandOut_only
    | apply OnlyIn.ite | split | dsimp +zetaDelta only)

theorem execOutCommandWrite_only (n : Nat) (w : Wr) (s : State) (hl : frameSub [.regs, .klp, .nv, .log, .act] [] pl pk = true) (hs : OnlyIn pl pk os s) :
    ∃ s', execOutCommandWrite n w s = .next s' ∧ OnlyIn pl pk os s' := by
  unfold execOutCommandWrite
  refine ⟨_, rfl, ?_⟩
  repeat' (with_reducible first
    | assumption | intro _ | exact frameSub_trans (by decide) hl | exact frameKey_of hl (by decide) | exact hk
    | exact frameKey_regs (frameSub_mem hl (by decide)) | apply ledgerWrite_only | apply outCommandRule_only
    | dsimp +zetaDelta only)

theorem clearTrip_only (s : State) (n : Nat) (hl : frameSub [.klp, .bus] [] pl pk = true) (hs : OnlyIn pl pk os s) :
    OnlyIn pl pk os (State.clearTrip s n) := by
  unfold State.clearTrip
  repeat' (with_reducible first
    | assumption | intro _ | exact frameSub_trans (by decide) hl | exact frameKey_of hl (by decide) | exact hk
    | apply alarmOf_only | apply OnlyIn.ite | split | dsimp +zetaDelta only)

theorem modeWritten_only (s : State) (n : Nat) (hl : frameSub [.klp, .bus, .act] [] pl pk = true) (hs : OnlyIn pl pk os s) :
    OnlyIn pl pk os (State.modeWritten s n) := by
  unfold State.modeWritten
  repeat' (with_reducible first
    | assumption | intro _ | exact frameSub_trans (by decide) hl | exact frameKey_of hl (by decide) | exact hk
    | apply setOut_only | apply clearTrip_only | apply OnlyIn.ite | extract_lets | split
    | exact .inl (frameSub_mem hl (by decide)) | exact .inr rfl | ((conv => arg 4; arg 27); apply OnlyIn.of_mk)
    | dsimp +zetaDelta only)

theorem outModeRule_only (n : Nat) (s : State) (v : Nat) (hl : frameSub [.regs, .klp, .nv, .log, .bus, .act] [] pl pk = true) (hs : OnlyIn pl pk os s) :
    OnlyIn pl pk os (outModeRule n s v).2 := by
  unfold outModeRule
  repeat' (with_reducible first
    | assumption | intro _ | exact frameSub_trans (by decide) hl | exact frameKey_of hl (by decide) | exact hk
    | exact frameKey_regs (frameSub_mem hl (by decide)) | apply andThen_only | apply putEntry_only | apply modeWritten_only
    | apply OnlyIn.ite | split | dsimp +zetaDelta only)

theorem execOutModeWrite_only (n : Nat) (w : Wr) (s : State) (hl : frameSub [.regs, .klp, .nv, .log, .bus, .act] [] pl pk = true) (hs : OnlyIn pl pk os s) :
    ∃ s', execOutModeWrite n w s = .next s' ∧ OnlyIn pl pk os s' := by
  unfold execOutModeWrite
  refine ⟨_, rfl, ?_⟩
  repeat' (with_reducible first
    | assumption | intro _ | exact frameSub_trans (by decide) hl | exact frameKey_of hl (by decide) | exact hk
    | exact frameKey_regs (frameSub_mem hl (by decide)) | apply ledgerWrite_only | apply outModeRule_only
    | dsimp +zetaDelta only)

theorem execOutputTrip_only (n : Nat) (short : Bool) (s : State) (hl : frameSub [.regs, .klp, .log, .bus, .act] [] pl pk = true) (hs : OnlyIn pl pk os s) :
    ∃ s', execOutputTrip n short s = .next s' ∧ OnlyIn pl pk os s' := by
  unfold execOutputTrip
  refine ⟨_, rfl, ?_⟩
  repeat' (with_reducible first
    | assumption | intro _ | exact frameSub_trans (by decide) hl | exact frameKey_of hl (by decide) | exact hk
    | exact frameKey_regs (frameSub_mem hl (by decide)) | apply setOut_only | apply incSat_only | apply pushLog_only
    | apply alarmOf_only | apply OnlyIn.ite | extract_lets | split | exact .inl (frameSub_mem hl (by decide)) | exact .inr rfl
    | ((conv => arg 4; arg 27); apply OnlyIn.of_mk) | dsimp +zetaDelta only)

theorem execOutputTripResume_only (n : Nat) (s : State) (hl : frameSub [.klp, .bus, .act] [] pl pk = true) (hs : OnlyIn pl pk os s) :
    ∃ s', execOutputTripResume n s = .next s' ∧ OnlyIn pl pk os s' := by
  unfold execOutputTripResume
  refine ⟨_, rfl, ?_⟩
  repeat' (with_reducible first
    | assumption | intro _ | exact frameSub_trans (by decide) hl | exact frameKey_of hl (by decide) | exact hk
    | apply setOut_only | apply clearTrip_only | apply OnlyIn.ite | extract_lets | split
    | exact .inl (frameSub_mem hl (by decide)) | exact .inr rfl | ((conv => arg 4; arg 27); apply OnlyIn.of_mk)
    | dsimp +zetaDelta only)

theorem fanThermal_only (s : State) (c : Nat) (hl : frameSub [.klp, .bus, .act] [] pl pk = true) (hs : OnlyIn pl pk os s) :
    OnlyIn pl pk os (State.fanThermal s c) := by
  unfold State.fanThermal
  repeat' (with_reducible first
    | assumption | intro _ | exact frameSub_trans (by decide) hl | exact frameKey_of hl (by decide) | exact hk
    | apply setFan_only | apply endShort_only | extract_lets | exact .inl (frameSub_mem hl (by decide)) | exact .inr rfl
    | ((conv => arg 4; arg 27); apply OnlyIn.of_mk) | dsimp +zetaDelta only)

theorem execThermalShutdown_only (temp : Nat) (s : State) (hl : frameSub [.klp, .log, .bus, .act] [Reg.THERMAL_EVENTS] pl pk = true) (hs : OnlyIn pl pk os s) :
    ∃ s', execThermalShutdown temp s = .next s' ∧ OnlyIn pl pk os s' := by
  unfold execThermalShutdown
  refine ⟨_, rfl, ?_⟩
  repeat' (with_reducible first
    | assumption | intro _ | exact frameSub_trans (by decide) hl | exact frameKey_of hl (by decide) | exact hk
    | apply incSat_only | apply fanThermal_only | apply pushLog_only | apply alarmOf_only | apply OnlyIn.foldl
    | apply OnlyIn.ite | extract_lets | split | exact .inl (frameSub_mem hl (by decide)) | exact .inr rfl
    | ((conv => arg 4; arg 27); apply OnlyIn.of_mk) | dsimp +zetaDelta only)

theorem execThermalResume_only (s : State) (hl : frameSub [.klp, .bus, .act] [] pl pk = true) (hs : OnlyIn pl pk os s) :
    ∃ s', execThermalResume s = .next s' ∧ OnlyIn pl pk os s' := by
  unfold execThermalResume
  refine ⟨_, rfl, ?_⟩
  repeat' (with_reducible first
    | assumption | intro _ | exact frameSub_trans (by decide) hl | exact frameKey_of hl (by decide) | exact hk
    | apply startTug_only | apply alarmOf_only | apply OnlyIn.foldl | apply OnlyIn.ite | extract_lets | split
    | exact .inl (frameSub_mem hl (by decide)) | exact .inr rfl | ((conv => arg 4; arg 27); apply OnlyIn.of_mk)
    | dsimp +zetaDelta only)

theorem execFloatingOverdriveEnd_only (n : Nat) (s : State) (hl : frameSub [.act] [] pl pk = true) (hs : OnlyIn pl pk os s) :
    ∃ s', execFloatingOverdriveEnd n s = .next s' ∧ OnlyIn pl pk os s' := by
  unfold execFloatingOverdriveEnd
  refine ⟨_, rfl, ?_⟩
  repeat' (with_reducible first
    | assumption | intro _ | exact frameSub_trans (by decide) hl | exact frameKey_of hl (by decide) | exact hk
    | apply setOut_only | apply OnlyIn.ite | extract_lets | split | exact .inl (frameSub_mem hl (by decide)) | exact .inr rfl
    | ((conv => arg 4; arg 27); apply OnlyIn.of_mk) | dsimp +zetaDelta only)

theorem execValvePeakEnd_only (n : Nat) (s : State) (hl : frameSub [.act] [] pl pk = true) (hs : OnlyIn pl pk os s) :
    ∃ s', execValvePeakEnd n s = .next s' ∧ OnlyIn pl pk os s' := by
  unfold execValvePeakEnd
  refine ⟨_, rfl, ?_⟩
  repeat' (with_reducible first
    | assumption | intro _ | exact frameSub_trans (by decide) hl | exact frameKey_of hl (by decide) | exact hk
    | apply setOut_only | apply OnlyIn.ite | extract_lets | split | exact .inl (frameSub_mem hl (by decide)) | exact .inr rfl
    | ((conv => arg 4; arg 27); apply OnlyIn.of_mk) | dsimp +zetaDelta only)

theorem fanCommandRule_only (c : Nat) (s : State) (v : Nat) (hl : frameSub [.regs, .klp, .nv, .log, .bus, .act] [] pl pk = true) (hs : OnlyIn pl pk os s) :
    OnlyIn pl pk os (fanCommandRule c s v).2 := by
  unfold fanCommandRule
  repeat' (with_reducible first
    | assumption | intro _ | exact frameSub_trans (by decide) hl | exact frameKey_of hl (by decide) | exact hk
    | exact frameKey_regs (frameSub_mem hl (by decide)) | apply andThen_only | apply plainRule_only | apply commandFan_only | apply incSat_only
    | apply OnlyIn.ite | split | dsimp +zetaDelta only)

theorem execFanCommandWrite_only (n : Nat) (w : Wr) (s : State) (hl : frameSub [.regs, .klp, .nv, .log, .bus, .act] [] pl pk = true) (hs : OnlyIn pl pk os s) :
    ∃ s', execFanCommandWrite n w s = .next s' ∧ OnlyIn pl pk os s' := by
  unfold execFanCommandWrite
  refine ⟨_, rfl, ?_⟩
  repeat' (with_reducible first
    | assumption | intro _ | exact frameSub_trans (by decide) hl | exact frameKey_of hl (by decide) | exact hk
    | exact frameKey_regs (frameSub_mem hl (by decide)) | apply ledgerWrite_only | apply fanCommandRule_only
    | dsimp +zetaDelta only)

theorem fanBandRule_only (c j : Nat) (s : State) (v : Nat) (hl : frameSub [.regs, .klp, .nv, .log, .bus, .act] [] pl pk = true) (hs : OnlyIn pl pk os s) :
    OnlyIn pl pk os (fanBandRule c j s v).2 := by
  unfold fanBandRule
  repeat' (with_reducible first
    | assumption | intro _ | exact frameSub_trans (by decide) hl | exact frameKey_of hl (by decide) | exact hk
    | exact frameKey_regs (frameSub_mem hl (by decide)) | apply andThen_only | apply putEntry_only | apply commandFan_only
    | apply OnlyIn.ite | extract_lets | split | dsimp +zetaDelta only)

theorem execFanBandWrite_only (c j : Nat) (w : Wr) (s : State) (hl : frameSub [.regs, .klp, .nv, .log, .bus, .act] [] pl pk = true) (hs : OnlyIn pl pk os s) :
    ∃ s', execFanBandWrite c j w s = .next s' ∧ OnlyIn pl pk os s' := by
  unfold execFanBandWrite
  refine ⟨_, rfl, ?_⟩
  repeat' (with_reducible first
    | assumption | intro _ | exact frameSub_trans (by decide) hl | exact frameKey_of hl (by decide) | exact hk
    | exact frameKey_regs (frameSub_mem hl (by decide)) | apply ledgerWrite_only | apply fanBandRule_only
    | dsimp +zetaDelta only)

theorem fanRuns_only (s : State) (c : Nat) (hl : frameSub [.klp, .bus, .act] [] pl pk = true) (hs : OnlyIn pl pk os s) :
    OnlyIn pl pk os (State.fanRuns s c) := by
  unfold State.fanRuns
  repeat' (with_reducible first
    | assumption | intro _ | exact frameSub_trans (by decide) hl | exact frameKey_of hl (by decide) | exact hk
    | apply setFan_only | apply commandFan_only | extract_lets | exact .inl (frameSub_mem hl (by decide)) | exact .inr rfl
    | ((conv => arg 4; arg 27); apply OnlyIn.of_mk) | dsimp +zetaDelta only)

theorem fanUnlatched_only (s : State) (c : Nat) (hl : frameSub [.klp, .bus, .act] [] pl pk = true) (hs : OnlyIn pl pk os s) :
    OnlyIn pl pk os (State.fanUnlatched s c) := by
  unfold State.fanUnlatched
  repeat' (with_reducible first
    | assumption | intro _ | exact frameSub_trans (by decide) hl | exact frameKey_of hl (by decide) | exact hk
    | apply setFan_only | apply alarmOf_only | apply fanRuns_only | apply startTug_only | apply OnlyIn.ite | extract_lets
    | split | exact .inl (frameSub_mem hl (by decide)) | exact .inr rfl | ((conv => arg 4; arg 27); apply OnlyIn.of_mk)
    | dsimp +zetaDelta only)

theorem fanIlimitRule_only (n : Nat) (t : State) (v : Nat) (hl : frameSub [.regs, .klp, .nv, .log, .bus, .act] [] pl pk = true) (ht : OnlyIn pl pk os t) :
    OnlyIn pl pk os (fanIlimitRule n t v).2 := by
  unfold fanIlimitRule
  repeat' (with_reducible first
    | assumption | intro _ | exact frameSub_trans (by decide) hl | exact frameKey_of hl (by decide) | exact hk
    | exact frameKey_regs (frameSub_mem hl (by decide)) | apply andThen_only | apply plainRule_only | apply fanUnlatched_only
    | dsimp +zetaDelta only)

theorem execFanIlimitWrite_only (n : Nat) (w : Wr) (s : State) (hl : frameSub [.regs, .klp, .nv, .log, .bus, .act] [] pl pk = true) (hs : OnlyIn pl pk os s) :
    ∃ s', execFanIlimitWrite n w s = .next s' ∧ OnlyIn pl pk os s' := by
  unfold execFanIlimitWrite
  refine ⟨_, rfl, ?_⟩
  repeat' (with_reducible first
    | assumption | intro _ | exact frameSub_trans (by decide) hl | exact frameKey_of hl (by decide) | exact hk
    | exact frameKey_regs (frameSub_mem hl (by decide)) | apply ledgerWrite_only | apply fanIlimitRule_only
    | dsimp +zetaDelta only)

theorem tachRuns_only (s : State) (k : Nat) (hl : frameSub [.klp, .bus, .act] [] pl pk = true) (hs : OnlyIn pl pk os s) :
    OnlyIn pl pk os (State.tachRuns s k) := by
  unfold State.tachRuns
  repeat' (with_reducible first
    | assumption | intro _ | exact frameSub_trans (by decide) hl | exact frameKey_of hl (by decide) | exact hk
    | apply setTach_only | apply alarmOf_only | apply OnlyIn.ite | extract_lets | split
    | exact .inl (frameSub_mem hl (by decide)) | exact .inr rfl | ((conv => arg 4; arg 27); apply OnlyIn.of_mk)
    | dsimp +zetaDelta only)

theorem tugOver_only (s : State) (c : Nat) (hl : frameSub [.klp, .log, .bus, .act] [] pl pk = true) (hs : OnlyIn pl pk os s) :
    OnlyIn pl pk os (State.tugOver s c) := by
  unfold State.tugOver
  repeat' (with_reducible first
    | assumption | intro _ | exact frameSub_trans (by decide) hl | exact frameKey_of hl (by decide) | exact hk
    | apply pushLog_only | apply tachRuns_only | apply setFan_only | apply fanRuns_only | apply stallTach_only
    | apply stallChannel_only | apply OnlyIn.foldl | apply OnlyIn.ite | extract_lets | split
    | exact .inl (frameSub_mem hl (by decide)) | exact .inr rfl | ((conv => arg 4; arg 27); apply OnlyIn.of_mk)
    | dsimp +zetaDelta only)

theorem execFanTugEnd_only (n : Nat) (s : State) (hl : frameSub [.klp, .log, .bus, .act] [] pl pk = true) (hs : OnlyIn pl pk os s) :
    ∃ s', execFanTugEnd n s = .next s' ∧ OnlyIn pl pk os s' := by
  unfold execFanTugEnd
  refine ⟨_, rfl, ?_⟩
  repeat' (with_reducible first
    | assumption | intro _ | exact frameSub_trans (by decide) hl | exact frameKey_of hl (by decide) | exact hk
    | apply tugOver_only | apply setFan_only | apply OnlyIn.ite | extract_lets | split
    | exact .inl (frameSub_mem hl (by decide)) | exact .inr rfl | ((conv => arg 4; arg 27); apply OnlyIn.of_mk)
    | dsimp +zetaDelta only)

theorem execFanWaitEnd_only (n : Nat) (s : State) (hl : frameSub [.act] [] pl pk = true) (hs : OnlyIn pl pk os s) :
    ∃ s', execFanWaitEnd n s = .next s' ∧ OnlyIn pl pk os s' := by
  unfold execFanWaitEnd
  refine ⟨_, rfl, ?_⟩
  repeat' (with_reducible first
    | assumption | intro _ | exact frameSub_trans (by decide) hl | exact frameKey_of hl (by decide) | exact hk
    | apply startTug_only | apply OnlyIn.ite | split | dsimp +zetaDelta only)

theorem execFanStallRetry_only (n : Nat) (s : State) (hl : frameSub [.act] [] pl pk = true) (hs : OnlyIn pl pk os s) :
    ∃ s', execFanStallRetry n s = .next s' ∧ OnlyIn pl pk os s' := by
  unfold execFanStallRetry
  refine ⟨_, rfl, ?_⟩
  repeat' (with_reducible first
    | assumption | intro _ | exact frameSub_trans (by decide) hl | exact frameKey_of hl (by decide) | exact hk
    | apply startTug_only | apply setFan_only | apply clearTugEdges_only | apply OnlyIn.ite | extract_lets | split
    | exact .inl (frameSub_mem hl (by decide)) | exact .inr rfl | ((conv => arg 4; arg 27); apply OnlyIn.of_mk)
    | dsimp +zetaDelta only)

theorem execFanShort_only (n : Nat) (s : State) (hl : frameSub [.klp, .log, .bus, .act] [] pl pk = true) (hs : OnlyIn pl pk os s) :
    ∃ s', execFanShort n s = .next s' ∧ OnlyIn pl pk os s' := by
  unfold execFanShort
  refine ⟨_, rfl, ?_⟩
  repeat' (with_reducible first
    | assumption | intro _ | exact frameSub_trans (by decide) hl | exact frameKey_of hl (by decide) | exact hk
    | apply setFan_only | apply pushLog_only | apply alarmOf_only | apply OnlyIn.ite | extract_lets | split
    | exact .inl (frameSub_mem hl (by decide)) | exact .inr rfl | ((conv => arg 4; arg 27); apply OnlyIn.of_mk)
    | dsimp +zetaDelta only)

theorem execFanShortOffEnd_only (n : Nat) (s : State) (hl : frameSub [.klp, .bus, .act] [] pl pk = true) (hs : OnlyIn pl pk os s) :
    ∃ s', execFanShortOffEnd n s = .next s' ∧ OnlyIn pl pk os s' := by
  unfold execFanShortOffEnd
  refine ⟨_, rfl, ?_⟩
  repeat' (with_reducible first
    | assumption | intro _ | exact frameSub_trans (by decide) hl | exact frameKey_of hl (by decide) | exact hk
    | apply endShort_only | apply fanRuns_only | apply OnlyIn.ite | extract_lets | split | dsimp +zetaDelta only)

theorem stampEdge_only (s : State) (k t : Nat) (hl : frameSub [.act] [] pl pk = true) (hs : OnlyIn pl pk os s) :
    OnlyIn pl pk os (State.stampEdge s k t) := by
  unfold State.stampEdge
  repeat' (with_reducible first
    | assumption | intro _ | exact frameSub_trans (by decide) hl | exact frameKey_of hl (by decide) | exact hk
    | apply setTach_only | extract_lets | exact .inl (frameSub_mem hl (by decide)) | exact .inr rfl
    | ((conv => arg 4; arg 27); apply OnlyIn.of_mk) | dsimp +zetaDelta only)

theorem readRpm_only (s : State) (k : Nat) (hl : frameSub [.act] [] pl pk = true) (hs : OnlyIn pl pk os s) :
    OnlyIn pl pk os (State.readRpm s k) := by
  unfold State.readRpm
  repeat' (with_reducible first
    | assumption | intro _ | exact frameSub_trans (by decide) hl | exact frameKey_of hl (by decide) | exact hk
    | apply setTach_only | apply OnlyIn.ite | extract_lets | split | refine OnlyIn.of_pair ?_ (by assumption)
    | exact .inl (frameSub_mem hl (by decide)) | exact .inr rfl | ((conv => arg 4; arg 27); apply OnlyIn.of_mk)
    | dsimp +zetaDelta only)

theorem edgeRuns_only (s : State) (k : Nat) (hl : frameSub [.klp, .bus, .act] [] pl pk = true) (hs : OnlyIn pl pk os s) :
    OnlyIn pl pk os (State.edgeRuns s k) := by
  unfold State.edgeRuns
  repeat' (with_reducible first
    | assumption | intro _ | exact frameSub_trans (by decide) hl | exact frameKey_of hl (by decide) | exact hk
    | apply tachRuns_only | apply OnlyIn.ite | extract_lets | split | refine OnlyIn.of_pair ?_ (by assumption)
    | exact .inl (frameSub_mem hl (by decide)) | exact .inr rfl | ((conv => arg 4; arg 27); apply OnlyIn.of_mk)
    | dsimp +zetaDelta only)

theorem execTachEdge_only (n t : Nat) (s : State) (hl : frameSub [.klp, .bus, .act] [] pl pk = true) (hs : OnlyIn pl pk os s) :
    ∃ s', execTachEdge n t s = .next s' ∧ OnlyIn pl pk os s' := by
  unfold execTachEdge
  refine ⟨_, rfl, ?_⟩
  repeat' (with_reducible first
    | assumption | intro _ | exact frameSub_trans (by decide) hl | exact frameKey_of hl (by decide) | exact hk
    | apply stampEdge_only | apply readRpm_only | apply edgeRuns_only | dsimp +zetaDelta only)

theorem execTachStop_only (n : Nat) (s : State) (hl : frameSub [.act] [] pl pk = true) (hs : OnlyIn pl pk os s) :
    ∃ s', execTachStop n s = .next s' ∧ OnlyIn pl pk os s' := by
  unfold execTachStop
  refine ⟨_, rfl, ?_⟩
  repeat' (with_reducible first
    | assumption | intro _ | exact frameSub_trans (by decide) hl | exact frameKey_of hl (by decide) | exact hk
    | apply setTach_only | apply OnlyIn.ite | extract_lets | split | exact .inl (frameSub_mem hl (by decide)) | exact .inr rfl
    | ((conv => arg 4; arg 27); apply OnlyIn.of_mk) | dsimp +zetaDelta only)

theorem judgeTach_only (s : State) (c k ripple : Nat) (hl : frameSub [.klp, .log, .bus, .act] [] pl pk = true) (hs : OnlyIn pl pk os s) :
    OnlyIn pl pk os (State.judgeTach s c k ripple) := by
  unfold State.judgeTach
  repeat' (with_reducible first
    | assumption | intro _ | exact frameSub_trans (by decide) hl | exact frameKey_of hl (by decide) | exact hk
    | apply setTach_only | apply pushLog_only | apply alarmOf_only | apply stallTach_only | apply OnlyIn.ite | extract_lets
    | split | exact .inl (frameSub_mem hl (by decide)) | exact .inr rfl | ((conv => arg 4; arg 27); apply OnlyIn.of_mk)
    | dsimp +zetaDelta only)

theorem execRippleWindowEnd_only (n events : Nat) (s : State) (hl : frameSub [.klp, .log, .bus, .act, .freeCtr] [] pl pk = true) (hs : OnlyIn pl pk os s) :
    ∃ s', execRippleWindowEnd n events s = .next s' ∧ OnlyIn pl pk os s' := by
  unfold execRippleWindowEnd
  refine ⟨_, rfl, ?_⟩
  repeat' (with_reducible first
    | assumption | intro _ | exact frameSub_trans (by decide) hl | exact frameKey_of hl (by decide) | exact hk
    | apply setFan_only | apply judgeTach_only | apply stallChannel_only | apply tickFree_only | apply OnlyIn.foldl
    | apply OnlyIn.ite | extract_lets | split | exact .inl (frameSub_mem hl (by decide)) | exact .inr rfl
    | ((conv => arg 4; arg 27); apply OnlyIn.of_mk) | dsimp +zetaDelta only)

theorem learnTach_only (s : State) (c k : Nat) (hl : frameSub [.act] [] pl pk = true) (hs : OnlyIn pl pk os s) :
    OnlyIn pl pk os (State.learnTach s c k) := by
  unfold State.learnTach
  repeat' (with_reducible first
    | assumption | intro _ | exact frameSub_trans (by decide) hl | exact frameKey_of hl (by decide) | exact hk
    | apply setTach_only | apply OnlyIn.ite | extract_lets | split | exact .inl (frameSub_mem hl (by decide)) | exact .inr rfl
    | ((conv => arg 4; arg 27); apply OnlyIn.of_mk) | dsimp +zetaDelta only)

theorem execRpmLearn_only (n : Nat) (s : State) (hl : frameSub [.act] [] pl pk = true) (hs : OnlyIn pl pk os s) :
    ∃ s', execRpmLearn n s = .next s' ∧ OnlyIn pl pk os s' := by
  unfold execRpmLearn
  refine ⟨_, rfl, ?_⟩
  repeat' (with_reducible first
    | assumption | intro _ | exact frameSub_trans (by decide) hl | exact frameKey_of hl (by decide) | exact hk
    | apply learnTach_only | apply OnlyIn.foldl | apply OnlyIn.ite | split | dsimp +zetaDelta only)

end Sys2Proof.Machine
end

