-- ==== Sys2Proof/Laws/FramesSensOps.lean ====
section
/-!
SUPPORT. What the operations of Machine/SensOps.lean change at most.
-/
namespace Sys2Proof.Machine

variable {pl : List Piece} {pk : List Nat} {os : State}

theorem withSens_only (s : State) (x : SensPart) (hl : frameSub [.sens] [] pl pk = true) (hs : OnlyIn pl pk os s) :
    OnlyIn pl pk os (State.withSens s x) := by
  unfold State.withSens
  repeat' (with_reducible first
    | assumption | intro _ | exact frameSub_trans (by decide) hl | exact frameKey_of hl (by decide) | exact hk | extract_lets
    | exact .inl (frameSub_mem hl (by decide)) | exact .inr rfl | ((conv => arg 4; arg 27); apply OnlyIn.of_mk)
    | dsimp +zetaDelta only)

theorem roundEntry_only (s : State) (ch : Nat) (hl : frameSub [.sens] [] pl pk = true) (hs : OnlyIn pl pk os s) :
    OnlyIn pl pk os (State.roundEntry s ch) := by
  unfold State.roundEntry
  repeat' (with_reducible first
    | assumption | intro _ | exact frameSub_trans (by decide) hl | exact frameKey_of hl (by decide) | exact hk
    | apply withSens_only | extract_lets | exact .inl (frameSub_mem hl (by decide)) | exact .inr rfl
    | ((conv => arg 4; arg 27); apply OnlyIn.of_mk) | dsimp +zetaDelta only)

theorem startRound_only (s : State) (hl : frameSub [.sens] [] pl pk = true) (hs : OnlyIn pl pk os s) :
    OnlyIn pl pk os (State.startRound s) := by
  unfold State.startRound
  repeat' (with_reducible first
    | assumption | intro _ | exact frameSub_trans (by decide) hl | exact frameKey_of hl (by decide) | exact hk
    | apply roundEntry_only | extract_lets | exact .inl (frameSub_mem hl (by decide)) | exact .inr rfl
    | ((conv => arg 4; arg 27); apply OnlyIn.of_mk) | dsimp +zetaDelta only)

theorem roundStart_only (s : State) (hl : frameSub [.sens] [Reg.ROUND_OVERRUNS] pl pk = true) (hs : OnlyIn pl pk os s) :
    OnlyIn pl pk os (State.roundStart s) := by
  unfold State.roundStart
  repeat' (with_reducible first
    | assumption | intro _ | exact frameSub_trans (by decide) hl | exact frameKey_of hl (by decide) | exact hk
    | apply startRound_only | apply withSens_only | apply incSat_only | extract_lets | split
    | refine OnlyIn.of_pair ?_ (by assumption) | exact .inl (frameSub_mem hl (by decide)) | exact .inr rfl
    | ((conv => arg 4; arg 27); apply OnlyIn.of_mk) | dsimp +zetaDelta only)

theorem tickRound_only (s : State) (hl : frameSub [.sens] [Reg.ROUND_OVERRUNS] pl pk = true) (hs : OnlyIn pl pk os s) :
    OnlyIn pl pk os (State.tickRound s) := by
  unfold State.tickRound
  repeat' (with_reducible first
    | assumption | intro _ | exact frameSub_trans (by decide) hl | exact frameKey_of hl (by decide) | exact hk
    | apply roundStart_only | apply OnlyIn.ite | extract_lets | split | dsimp +zetaDelta only)

theorem adcFree_only (s : State) (hl : frameSub [.sens] [] pl pk = true) (hs : OnlyIn pl pk os s) :
    OnlyIn pl pk os (State.adcFree s) := by
  unfold State.adcFree
  repeat' (with_reducible first
    | assumption | intro _ | exact frameSub_trans (by decide) hl | exact frameKey_of hl (by decide) | exact hk
    | apply withSens_only | apply startRound_only | apply OnlyIn.ite | extract_lets | split
    | exact .inl (frameSub_mem hl (by decide)) | exact .inr rfl | ((conv => arg 4; arg 27); apply OnlyIn.of_mk)
    | dsimp +zetaDelta only)

theorem afterEntry_only (s : State) (ch : Nat) (hl : frameSub [.sens] [] pl pk = true) (hs : OnlyIn pl pk os s) :
    OnlyIn pl pk os (State.afterEntry s ch) := by
  unfold State.afterEntry
  repeat' (with_reducible first
    | assumption | intro _ | exact frameSub_trans (by decide) hl | exact frameKey_of hl (by decide) | exact hk
    | apply withSens_only | apply roundEntry_only | apply adcFree_only | apply OnlyIn.ite | extract_lets | split
    | refine OnlyIn.of_pair ?_ (by assumption) | exact .inl (frameSub_mem hl (by decide)) | exact .inr rfl
    | ((conv => arg 4; arg 27); apply OnlyIn.of_mk) | dsimp +zetaDelta only)

theorem vinResult_only (s : State) (ch : Nat) (v : Int) (hl : frameSub [.regs] [] pl pk = true) (hs : OnlyIn pl pk os s) :
    OnlyIn pl pk os (State.vinResult s ch v) := by
  unfold State.vinResult
  repeat' (with_reducible first
    | assumption | intro _ | exact frameSub_trans (by decide) hl | exact frameKey_of hl (by decide) | exact hk
    | exact frameKey_regs (frameSub_mem hl (by decide)) | apply setReg_only | apply OnlyIn.ite | split
    | exact .inl (frameSub_mem hl (by decide)) | exact .inr rfl | ((conv => arg 4; arg 27); apply OnlyIn.of_mk)
    | dsimp +zetaDelta only)

theorem adcResult_only (s : State) (ch sum : Nat) (ovr urgent : Bool) (hl : frameSub [.regs, .sens, .freeCtr] [] pl pk = true) (hs : OnlyIn pl pk os s) :
    OnlyIn pl pk os (State.adcResult s ch sum ovr urgent) := by
  unfold State.adcResult
  repeat' (with_reducible first
    | assumption | intro _ | exact frameSub_trans (by decide) hl | exact frameKey_of hl (by decide) | exact hk
    | exact frameKey_regs (frameSub_mem hl (by decide)) | apply vinResult_only | apply setReg_only | apply incSat_only
    | apply withSens_only | apply tickFree_only | apply OnlyIn.ite | extract_lets | split
    | exact .inl (frameSub_mem hl (by decide)) | exact .inr rfl | ((conv => arg 4; arg 27); apply OnlyIn.of_mk)
    | dsimp +zetaDelta only)

theorem urgentResult_only (s : State) (ch : Nat) (hl : frameSub [.sens, .freeCtr] [Reg.URGENT_RESULT] pl pk = true) (hs : OnlyIn pl pk os s) :
    OnlyIn pl pk os (State.urgentResult s ch) := by
  unfold State.urgentResult
  repeat' (with_reducible first
    | assumption | intro _ | exact frameSub_trans (by decide) hl | exact frameKey_of hl (by decide) | exact hk
    | apply setReg_only | apply withSens_only | apply tickFree_only | apply OnlyIn.ite | extract_lets | split
    | exact .inl (frameSub_mem hl (by decide)) | exact .inr rfl | ((conv => arg 4; arg 27); apply OnlyIn.of_mk)
    | dsimp +zetaDelta only)

theorem setDi_only (s : State) (n : Nat) (d : DiUnit) (hl : frameSub [.sens] [] pl pk = true) (hs : OnlyIn pl pk os s) :
    OnlyIn pl pk os (State.setDi s n d) := by
  unfold State.setDi
  repeat' (with_reducible first
    | assumption | intro _ | exact frameSub_trans (by decide) hl | exact frameKey_of hl (by decide) | exact hk
    | apply withSens_only | extract_lets | exact .inl (frameSub_mem hl (by decide)) | exact .inr rfl
    | ((conv => arg 4; arg 27); apply OnlyIn.of_mk) | dsimp +zetaDelta only)

theorem diAlarm_only (s : State) (n : Nat) (raised : Bool) (hl : frameSub [.klp, .bus] [] pl pk = true) (hs : OnlyIn pl pk os s) :
    OnlyIn pl pk os (State.diAlarm s n raised) := by
  unfold State.diAlarm
  repeat' (with_reducible first
    | assumption | intro _ | exact frameSub_trans (by decide) hl | exact frameKey_of hl (by decide) | exact hk
    | apply alarmOf_only | dsimp +zetaDelta only)

theorem diCleared_only (s : State) (n : Nat) (was : Bool) (hl : frameSub [.klp, .bus] [] pl pk = true) (hs : OnlyIn pl pk os s) :
    OnlyIn pl pk os (State.diCleared s n was) := by
  unfold State.diCleared
  repeat' (with_reducible first
    | assumption | intro _ | exact frameSub_trans (by decide) hl | exact frameKey_of hl (by decide) | exact hk
    | apply diAlarm_only | apply OnlyIn.ite | split | dsimp +zetaDelta only)

theorem diWake_only (s : State) (n : Nat) (active : Bool) (hl : frameSub [.power, .video, .pwr] [] pl pk = true) (hs : OnlyIn pl pk os s) :
    OnlyIn pl pk os (State.diWake s n active) := by
  unfold State.diWake
  repeat' (with_reducible first | assumption | exact frameSub_trans (by decide) hl | apply wakeEvent_only | apply OnlyIn.ite)

theorem diChange_only (s : State) (n : Nat) (active : Bool) (hl : frameSub [.power, .video, .pwr, .klp, .bus, .sens] [] pl pk = true) (hs : OnlyIn pl pk os s) :
    OnlyIn pl pk os (State.diChange s n active) := by
  unfold State.diChange
  repeat' (with_reducible first
    | assumption | intro _ | exact frameSub_trans (by decide) hl | exact frameKey_of hl (by decide) | exact hk
    | apply setDi_only | apply diCleared_only | apply diWake_only | apply OnlyIn.ite | extract_lets | split
    | exact .inl (frameSub_mem hl (by decide)) | exact .inr rfl | ((conv => arg 4; arg 27); apply OnlyIn.of_mk)
    | dsimp +zetaDelta only)

theorem diEnter_only (s : State) (n : Nat) (before : Bool) (hl : frameSub [.klp, .log, .bus, .sens] [] pl pk = true) (hs : OnlyIn pl pk os s) :
    OnlyIn pl pk os (State.diEnter s n before) := by
  unfold State.diEnter
  repeat' (with_reducible first
    | assumption | intro _ | exact frameSub_trans (by decide) hl | exact frameKey_of hl (by decide) | exact hk
    | apply setDi_only | apply pushLog_only | apply diAlarm_only | extract_lets | exact .inl (frameSub_mem hl (by decide))
    | exact .inr rfl | ((conv => arg 4; arg 27); apply OnlyIn.of_mk) | dsimp +zetaDelta only)

theorem diSample_only (s : State) (n : Nat) (mv : Nat) (hl : frameSub [.power, .video, .pwr, .klp, .log, .bus, .sens] [] pl pk = true) (hs : OnlyIn pl pk os s) :
    OnlyIn pl pk os (State.diSample s n mv) := by
  unfold State.diSample
  repeat' (with_reducible first
    | assumption | intro _ | exact frameSub_trans (by decide) hl | exact frameKey_of hl (by decide) | exact hk
    | apply setDi_only | apply diCleared_only | apply diEnter_only | apply diChange_only | apply OnlyIn.ite | extract_lets
    | split | exact .inl (frameSub_mem hl (by decide)) | exact .inr rfl | ((conv => arg 4; arg 27); apply OnlyIn.of_mk)
    | dsimp +zetaDelta only)

theorem sampleInputs_only (s : State) (mv : List Nat) (hl : frameSub [.power, .video, .pwr, .klp, .log, .bus, .sens] [] pl pk = true) (hs : OnlyIn pl pk os s) :
    OnlyIn pl pk os (State.sampleInputs s mv) := by
  unfold State.sampleInputs
  repeat' (with_reducible first
    | assumption | intro _ | exact frameSub_trans (by decide) hl | exact frameKey_of hl (by decide) | exact hk
    | apply diSample_only | apply OnlyIn.foldl | dsimp +zetaDelta only)

theorem diLeave_only (s : State) (n : Nat) (hl : frameSub [.power, .video, .pwr, .klp, .log, .bus, .sens] [] pl pk = true) (hs : OnlyIn pl pk os s) :
    OnlyIn pl pk os (State.diLeave s n) := by
  unfold State.diLeave
  repeat' (with_reducible first
    | assumption | intro _ | exact frameSub_trans (by decide) hl | exact frameKey_of hl (by decide) | exact hk
    | apply setDi_only | apply pushLog_only | apply diCleared_only | apply diWake_only | apply OnlyIn.ite | extract_lets | split
    | exact .inl (frameSub_mem hl (by decide)) | exact .inr rfl | ((conv => arg 4; arg 27); apply OnlyIn.of_mk)
    | dsimp +zetaDelta only)

theorem setSlot_only (s : State) (n : Nat) (x : IdSlot) (hl : frameSub [.sens] [] pl pk = true) (hs : OnlyIn pl pk os s) :
    OnlyIn pl pk os (State.setSlot s n x) := by
  unfold State.setSlot
  repeat' (with_reducible first
    | assumption | intro _ | exact frameSub_trans (by decide) hl | exact frameKey_of hl (by decide) | exact hk
    | apply withSens_only | extract_lets | exact .inl (frameSub_mem hl (by decide)) | exact .inr rfl
    | ((conv => arg 4; arg 27); apply OnlyIn.of_mk) | dsimp +zetaDelta only)

theorem startRead_only (s : State) (n : Nat) (hl : frameSub [.sens] [] pl pk = true) (hs : OnlyIn pl pk os s) :
    OnlyIn pl pk os (State.startRead s n) := by
  unfold State.startRead
  repeat' (with_reducible first
    | assumption | intro _ | exact frameSub_trans (by decide) hl | exact frameKey_of hl (by decide) | exact hk
    | apply setSlot_only | extract_lets | exact .inl (frameSub_mem hl (by decide)) | exact .inr rfl
    | ((conv => arg 4; arg 27); apply OnlyIn.of_mk) | dsimp +zetaDelta only)

theorem recordRead_only (s : State) (n : Nat) (b : List Nat) (hl : frameSub [.regs, .sens, .focal] [] pl pk = true) (hs : OnlyIn pl pk os s) :
    OnlyIn pl pk os (State.recordRead s n b) := by
  unfold State.recordRead
  repeat' (with_reducible first
    | assumption | intro _ | exact frameSub_trans (by decide) hl | exact frameKey_of hl (by decide) | exact hk
    | exact frameKey_regs (frameSub_mem hl (by decide)) | apply withSens_only | apply incSat_only | apply setSlot_only
    | apply setReg_only | apply setShutter_only | apply OnlyIn.foldl | apply OnlyIn.ite | extract_lets | split
    | refine OnlyIn.of_pair ?_ (by assumption) | exact .inl (frameSub_mem hl (by decide)) | exact .inr rfl
    | ((conv => arg 4; arg 27); apply OnlyIn.of_mk) | dsimp +zetaDelta only)

theorem readFailed_only (s : State) (n : Nat) (hl : frameSub [.sens] [Reg.ID_ERRORS] pl pk = true) (hs : OnlyIn pl pk os s) :
    OnlyIn pl pk os (State.readFailed s n) := by
  unfold State.readFailed
  repeat' (with_reducible first
    | assumption | intro _ | exact frameSub_trans (by decide) hl | exact frameKey_of hl (by decide) | exact hk
    | apply setSlot_only | apply incSat_only | apply OnlyIn.ite | extract_lets | split
    | exact .inl (frameSub_mem hl (by decide)) | exact .inr rfl | ((conv => arg 4; arg 27); apply OnlyIn.of_mk)
    | dsimp +zetaDelta only)

theorem slotRemoved_only (s : State) (n : Nat) (hl : frameSub [.sens, .focal] [Reg.LENS_SOURCE] pl pk = true) (hs : OnlyIn pl pk os s) :
    OnlyIn pl pk os (State.slotRemoved s n) := by
  unfold State.slotRemoved
  repeat' (with_reducible first
    | assumption | intro _ | exact frameSub_trans (by decide) hl | exact frameKey_of hl (by decide) | exact hk
    | apply setSlot_only | apply setReg_only | apply setShutter_only | apply OnlyIn.ite | extract_lets | split
    | exact .inl (frameSub_mem hl (by decide)) | exact .inr rfl | ((conv => arg 4; arg 27); apply OnlyIn.of_mk)
    | dsimp +zetaDelta only)

end Sys2Proof.Machine
end

