-- ==== Sys2Proof/Laws/FramesSensing.lean ====
section
/-!
SUPPORT. What the operations of Machine/Sensing.lean change at most.
-/
namespace Sys2Proof.Machine

variable {pl : List Piece} {pk : List Nat} {os : State}

theorem execAdcEntryEnd_only (ch sum : Nat) (ovr : Bool) (s : State) (hl : frameSub [.regs, .sens, .freeCtr] [] pl pk = true) (hs : OnlyIn pl pk os s) :
    ∃ s', execAdcEntryEnd ch sum ovr s = .next s' ∧ OnlyIn pl pk os s' := by
  unfold execAdcEntryEnd
  refine ⟨_, rfl, ?_⟩
  repeat' (with_reducible first
    | assumption | intro _ | exact frameSub_trans (by decide) hl | exact frameKey_of hl (by decide) | exact hk
    | exact frameKey_regs (frameSub_mem hl (by decide)) | apply adcResult_only | apply afterEntry_only | apply urgentResult_only
    | apply adcFree_only | apply OnlyIn.ite | extract_lets | split | refine OnlyIn.of_pair ?_ (by assumption)
    | exact .inl (frameSub_mem hl (by decide)) | exact .inr rfl | ((conv => arg 4; arg 27); apply OnlyIn.of_mk)
    | dsimp +zetaDelta only)

theorem execAdcContinuousRound_only (s : State) (hl : frameSub [.sens] [] pl pk = true) (hs : OnlyIn pl pk os s) :
    ∃ s', execAdcContinuousRound s = .next s' ∧ OnlyIn pl pk os s' := by
  unfold execAdcContinuousRound
  refine ⟨_, rfl, ?_⟩
  repeat' (with_reducible first
    | assumption | intro _ | exact frameSub_trans (by decide) hl | exact frameKey_of hl (by decide) | exact hk
    | apply startRound_only | apply OnlyIn.ite | split | dsimp +zetaDelta only)

theorem urgentRule_only (s : State) (v : Nat) (hl : frameSub [.nv, .log, .sens] [Reg.URGENT_DROPS, Reg.URGENT_REQUEST] pl pk = true) (hs : OnlyIn pl pk os s) :
    OnlyIn pl pk os (urgentRule s v).2 := by
  unfold urgentRule
  repeat' (with_reducible first
    | assumption | intro _ | exact frameSub_trans (by decide) hl | exact frameKey_of hl (by decide) | exact hk
    | apply incSat_only | apply andThen_only | apply putEntry_only | apply withSens_only | apply OnlyIn.ite | extract_lets
    | split | exact .inl (frameSub_mem hl (by decide)) | exact .inr rfl | ((conv => arg 4; arg 27); apply OnlyIn.of_mk)
    | dsimp +zetaDelta only)

theorem execUrgentRequestWrite_only (w : Wr) (s : State) (hl : frameSub [.klp, .nv, .log, .sens] [Reg.URGENT_DROPS, Reg.URGENT_REQUEST] pl pk = true) (hs : OnlyIn pl pk os s) :
    ∃ s', execUrgentRequestWrite w s = .next s' ∧ OnlyIn pl pk os s' := by
  unfold execUrgentRequestWrite
  refine ⟨_, rfl, ?_⟩
  repeat' (with_reducible first
    | assumption | intro _ | exact frameSub_trans (by decide) hl | exact frameKey_of hl (by decide) | exact hk
    | apply ledgerWrite_only | apply urgentRule_only | dsimp +zetaDelta only)

theorem adcCalRule_only (s : State) (v : Nat) (hl : frameSub [.sens] [] pl pk = true) (hs : OnlyIn pl pk os s) :
    OnlyIn pl pk os (adcCalRule s v).2 := by
  unfold adcCalRule
  repeat' (with_reducible first
    | assumption | intro _ | exact frameSub_trans (by decide) hl | exact frameKey_of hl (by decide) | exact hk
    | apply withSens_only | apply OnlyIn.ite | extract_lets | split | refine OnlyIn.of_pair ?_ (by assumption)
    | exact .inl (frameSub_mem hl (by decide)) | exact .inr rfl | ((conv => arg 4; arg 27); apply OnlyIn.of_mk)
    | dsimp +zetaDelta only)

theorem execAdcCalCommand_only (r : Req) (s : State) (hl : frameSub [.klp, .sens] [] pl pk = true) (hs : OnlyIn pl pk os s) :
    ∃ s', execAdcCalCommand r s = .next s' ∧ OnlyIn pl pk os s' := by
  unfold execAdcCalCommand
  refine ⟨_, rfl, ?_⟩
  repeat' (with_reducible first
    | assumption | intro _ | exact frameSub_trans (by decide) hl | exact frameKey_of hl (by decide) | exact hk
    | apply ledgerWrite_only | apply adcCalRule_only | dsimp +zetaDelta only)

theorem setFactors_only (s : State) (gains offsets : List Int) (hl : frameSub [.regs] [] pl pk = true) (hs : OnlyIn pl pk os s) :
    OnlyIn pl pk os (State.setFactors s gains offsets) := by
  unfold State.setFactors
  repeat' (with_reducible first
    | assumption | intro _ | exact frameSub_trans (by decide) hl | exact frameKey_of hl (by decide) | exact hk
    | exact frameKey_regs (frameSub_mem hl (by decide)) | apply setRegI_only | apply OnlyIn.foldl | extract_lets
    | dsimp +zetaDelta only)

theorem execAdcSelfCalDone_only (gains offsets : List Int) (residual : Nat) (s : State) (hl : frameSub [.regs, .sens] [] pl pk = true) (hs : OnlyIn pl pk os s) :
    ∃ s', execAdcSelfCalDone gains offsets residual s = .next s' ∧ OnlyIn pl pk os s' := by
  unfold execAdcSelfCalDone
  refine ⟨_, rfl, ?_⟩
  repeat' (with_reducible first
    | assumption | intro _ | exact frameSub_trans (by decide) hl | exact frameKey_of hl (by decide) | exact hk
    | exact frameKey_regs (frameSub_mem hl (by decide)) | apply setFactors_only | apply setReg_only | apply putBit_only
    | apply withSens_only | apply roundEntry_only | apply adcFree_only | apply OnlyIn.ite | extract_lets | split
    | refine OnlyIn.of_pair ?_ (by assumption) | exact .inl (frameSub_mem hl (by decide)) | exact .inr rfl
    | ((conv => arg 4; arg 27); apply OnlyIn.of_mk) | dsimp +zetaDelta only)

theorem adcFactorRule_only (n : Nat) (s : State) (v : Nat) (hl : frameSub [.regs, .nv, .log, .sens] [] pl pk = true) (hs : OnlyIn pl pk os s) :
    OnlyIn pl pk os (adcFactorRule n s v).2 := by
  unfold adcFactorRule
  repeat' (with_reducible first
    | assumption | intro _ | exact frameSub_trans (by decide) hl | exact frameKey_of hl (by decide) | exact hk
    | exact frameKey_regs (frameSub_mem hl (by decide)) | apply andThen_only | apply putEntry_only | apply setReg_only
    | apply withSens_only | apply OnlyIn.ite | extract_lets | split | exact .inl (frameSub_mem hl (by decide)) | exact .inr rfl
    | ((conv => arg 4; arg 27); apply OnlyIn.of_mk) | dsimp +zetaDelta only)

theorem execAdcFactorWrite_only (n : Nat) (w : Wr) (s : State) (hl : frameSub [.regs, .klp, .nv, .log, .sens] [] pl pk = true) (hs : OnlyIn pl pk os s) :
    ∃ s', execAdcFactorWrite n w s = .next s' ∧ OnlyIn pl pk os s' := by
  unfold execAdcFactorWrite
  refine ⟨_, rfl, ?_⟩
  repeat' (with_reducible first
    | assumption | intro _ | exact frameSub_trans (by decide) hl | exact frameKey_of hl (by decide) | exact hk
    | exact frameKey_regs (frameSub_mem hl (by decide)) | apply ledgerWrite_only | apply adcFactorRule_only
    | dsimp +zetaDelta only)

theorem aiConfigRule_only (ch sub : Nat) (s : State) (v : Nat) (hl : frameSub [.regs, .nv, .log] [] pl pk = true) (hs : OnlyIn pl pk os s) :
    OnlyIn pl pk os (aiConfigRule ch sub s v).2 := by
  unfold aiConfigRule
  repeat' (with_reducible first
    | assumption | intro _ | exact frameSub_trans (by decide) hl | exact frameKey_of hl (by decide) | exact hk
    | exact frameKey_regs (frameSub_mem hl (by decide)) | apply setReg_only | apply putEntry_only | apply OnlyIn.ite
    | extract_lets | split | dsimp +zetaDelta only)

theorem execAiConfigWrite_only (ch sub : Nat) (w : Wr) (s : State) (hl : frameSub [.regs, .klp, .nv, .log] [] pl pk = true) (hs : OnlyIn pl pk os s) :
    ∃ s', execAiConfigWrite ch sub w s = .next s' ∧ OnlyIn pl pk os s' := by
  unfold execAiConfigWrite
  refine ⟨_, rfl, ?_⟩
  repeat' (with_reducible first
    | assumption | intro _ | exact frameSub_trans (by decide) hl | exact frameKey_of hl (by decide) | exact hk
    | exact frameKey_regs (frameSub_mem hl (by decide)) | apply ledgerWrite_only | apply aiConfigRule_only
    | dsimp +zetaDelta only)

theorem execDiStuck_only (n : Nat) (s : State) (hl : frameSub [.klp, .log, .bus, .sens] [] pl pk = true) (hs : OnlyIn pl pk os s) :
    ∃ s', execDiStuck n s = .next s' ∧ OnlyIn pl pk os s' := by
  unfold execDiStuck
  refine ⟨_, rfl, ?_⟩
  repeat' (with_reducible first
    | assumption | intro _ | exact frameSub_trans (by decide) hl | exact frameKey_of hl (by decide) | exact hk
    | apply setDi_only | apply pushLog_only | apply diAlarm_only | apply OnlyIn.ite | extract_lets | split
    | exact .inl (frameSub_mem hl (by decide)) | exact .inr rfl | ((conv => arg 4; arg 27); apply OnlyIn.of_mk)
    | dsimp +zetaDelta only)

theorem execDiChatterWindowEnd_only (n : Nat) (s : State) (hl : frameSub [.power, .video, .pwr, .klp, .log, .bus, .sens] [] pl pk = true) (hs : OnlyIn pl pk os s) :
    ∃ s', execDiChatterWindowEnd n s = .next s' ∧ OnlyIn pl pk os s' := by
  unfold execDiChatterWindowEnd
  refine ⟨_, rfl, ?_⟩
  repeat' (with_reducible first
    | assumption | intro _ | exact frameSub_trans (by decide) hl | exact frameKey_of hl (by decide) | exact hk
    | apply diLeave_only | apply setDi_only | apply OnlyIn.ite | extract_lets | split | exact .inl (frameSub_mem hl (by decide))
    | exact .inr rfl | ((conv => arg 4; arg 27); apply OnlyIn.of_mk) | dsimp +zetaDelta only)

theorem execIdReaderStart_only (s : State) (hl : frameSub [.sens] [] pl pk = true) (hs : OnlyIn pl pk os s) :
    ∃ s', execIdReaderStart s = .next s' ∧ OnlyIn pl pk os s' := by
  unfold execIdReaderStart
  refine ⟨_, rfl, ?_⟩
  repeat' (with_reducible first
    | assumption | intro _ | exact frameSub_trans (by decide) hl | exact frameKey_of hl (by decide) | exact hk
    | apply withSens_only | extract_lets | exact .inl (frameSub_mem hl (by decide)) | exact .inr rfl
    | ((conv => arg 4; arg 27); apply OnlyIn.of_mk) | dsimp +zetaDelta only)

theorem execModDetChange_only (slot : Nat) (on : Bool) (s : State) (hl : frameSub [.sens, .focal] [Reg.LENS_SOURCE] pl pk = true) (hs : OnlyIn pl pk os s) :
    ∃ s', execModDetChange slot on s = .next s' ∧ OnlyIn pl pk os s' := by
  unfold execModDetChange
  refine ⟨_, rfl, ?_⟩
  repeat' (with_reducible first
    | assumption | intro _ | exact frameSub_trans (by decide) hl | exact frameKey_of hl (by decide) | exact hk
    | apply startRead_only | apply slotRemoved_only | apply OnlyIn.ite | split | exact .inl (frameSub_mem hl (by decide))
    | exact .inr rfl | ((conv => arg 4; arg 27); apply OnlyIn.of_mk) | dsimp +zetaDelta only)

theorem execIdPoll_only (ack : Nat) (s : State) (hl : frameSub [.sens, .focal] [Reg.LENS_SOURCE] pl pk = true) (hs : OnlyIn pl pk os s) :
    ∃ s', execIdPoll ack s = .next s' ∧ OnlyIn pl pk os s' := by
  unfold execIdPoll
  refine ⟨_, rfl, ?_⟩
  repeat' (with_reducible first
    | assumption | intro _ | exact frameSub_trans (by decide) hl | exact frameKey_of hl (by decide) | exact hk
    | apply startRead_only | apply slotRemoved_only | apply OnlyIn.foldl | apply OnlyIn.ite | split | dsimp +zetaDelta only)

theorem execIdReadDone_only (slot : Nat) (r : IdRead) (s : State) (hl : frameSub [.regs, .sens, .focal] [] pl pk = true) (hs : OnlyIn pl pk os s) :
    ∃ s', execIdReadDone slot r s = .next s' ∧ OnlyIn pl pk os s' := by
  unfold execIdReadDone
  refine ⟨_, rfl, ?_⟩
  repeat' (with_reducible first
    | assumption | intro _ | exact frameSub_trans (by decide) hl | exact frameKey_of hl (by decide) | exact hk
    | exact frameKey_regs (frameSub_mem hl (by decide)) | apply recordRead_only | apply readFailed_only | apply withSens_only
    | apply OnlyIn.ite | extract_lets | split | refine OnlyIn.of_pair ?_ (by assumption)
    | exact .inl (frameSub_mem hl (by decide)) | exact .inr rfl | ((conv => arg 4; arg 27); apply OnlyIn.of_mk)
    | dsimp +zetaDelta only)

theorem execIdReadRetry_only (n : Nat) (s : State) (hl : frameSub [.sens] [] pl pk = true) (hs : OnlyIn pl pk os s) :
    ∃ s', execIdReadRetry n s = .next s' ∧ OnlyIn pl pk os s' := by
  unfold execIdReadRetry
  refine ⟨_, rfl, ?_⟩
  repeat' (with_reducible first
    | assumption | intro _ | exact frameSub_trans (by decide) hl | exact frameKey_of hl (by decide) | exact hk
    | apply setSlot_only | apply OnlyIn.ite | extract_lets | split | exact .inl (frameSub_mem hl (by decide)) | exact .inr rfl
    | ((conv => arg 4; arg 27); apply OnlyIn.of_mk) | dsimp +zetaDelta only)

theorem execIdFaultRetry_only (n : Nat) (s : State) (hl : frameSub [.sens] [] pl pk = true) (hs : OnlyIn pl pk os s) :
    ∃ s', execIdFaultRetry n s = .next s' ∧ OnlyIn pl pk os s' := by
  unfold execIdFaultRetry
  refine ⟨_, rfl, ?_⟩
  repeat' (with_reducible first
    | assumption | intro _ | exact frameSub_trans (by decide) hl | exact frameKey_of hl (by decide) | exact hk
    | apply startRead_only | apply OnlyIn.ite | split | dsimp +zetaDelta only)

theorem reread_only (s : State) (n : Nat) (hl : frameSub [.sens] [] pl pk = true) (hs : OnlyIn pl pk os s) :
    OnlyIn pl pk os (State.reread s n) := by
  unfold State.reread
  repeat' (with_reducible first
    | assumption | intro _ | exact frameSub_trans (by decide) hl | exact frameKey_of hl (by decide) | exact hk
    | apply startRead_only | apply OnlyIn.ite | split | dsimp +zetaDelta only)

theorem idRereadRule_only (s : State) (v : Nat) (hl : frameSub [.sens] [] pl pk = true) (hs : OnlyIn pl pk os s) :
    OnlyIn pl pk os (idRereadRule s v).2 := by
  unfold idRereadRule
  repeat' (with_reducible first
    | assumption | intro _ | exact frameSub_trans (by decide) hl | exact frameKey_of hl (by decide) | exact hk
    | apply reread_only | apply OnlyIn.foldl | apply OnlyIn.ite | split | dsimp +zetaDelta only)

theorem execIdRereadWrite_only (w : Wr) (s : State) (hl : frameSub [.klp, .sens] [] pl pk = true) (hs : OnlyIn pl pk os s) :
    ∃ s', execIdRereadWrite w s = .next s' ∧ OnlyIn pl pk os s' := by
  unfold execIdRereadWrite
  refine ⟨_, rfl, ?_⟩
  repeat' (with_reducible first
    | assumption | intro _ | exact frameSub_trans (by decide) hl | exact frameKey_of hl (by decide) | exact hk
    | apply ledgerWrite_only | apply idRereadRule_only | dsimp +zetaDelta only)

theorem slotBindRule_only (n : Nat) (s : State) (v : Nat) (hl : frameSub [.regs, .nv, .log, .sens] [] pl pk = true) (hs : OnlyIn pl pk os s) :
    OnlyIn pl pk os (slotBindRule n s v).2 := by
  unfold slotBindRule
  repeat' (with_reducible first
    | assumption | intro _ | exact frameSub_trans (by decide) hl | exact frameKey_of hl (by decide) | exact hk
    | exact frameKey_regs (frameSub_mem hl (by decide)) | apply andThen_only | apply putEntry_only | apply reread_only
    | apply OnlyIn.ite | extract_lets | split | dsimp +zetaDelta only)

theorem execSlotBindWrite_only (n : Nat) (w : Wr) (s : State) (hl : frameSub [.regs, .klp, .nv, .log, .sens] [] pl pk = true) (hs : OnlyIn pl pk os s) :
    ∃ s', execSlotBindWrite n w s = .next s' ∧ OnlyIn pl pk os s' := by
  unfold execSlotBindWrite
  refine ⟨_, rfl, ?_⟩
  repeat' (with_reducible first
    | assumption | intro _ | exact frameSub_trans (by decide) hl | exact frameKey_of hl (by decide) | exact hk
    | exact frameKey_regs (frameSub_mem hl (by decide)) | apply ledgerWrite_only | apply slotBindRule_only
    | dsimp +zetaDelta only)

end Sys2Proof.Machine
end

