-- ==== Sys2Proof/Laws/FramesLinkOps.lean ====
section
/-!
SUPPORT. What the operations of Machine/LinkOps.lean change at most.
-/
namespace Sys2Proof.Machine

variable {pl : List Piece} {pk : List Nat} {os : State}

theorem acceptRequest_only (s : State) (q : Request) (hl : frameSub [.klp] [] pl pk = true) (hs : OnlyIn pl pk os s) :
    OnlyIn pl pk os (State.acceptRequest s q) := by
  unfold State.acceptRequest
  repeat' (with_reducible first
    | assumption | intro _ | exact frameSub_trans (by decide) hl | exact frameKey_of hl (by decide) | exact hk
    | apply enqueueRequest_only | apply request_only | apply OnlyIn.ite | extract_lets | split
    | refine OnlyIn.of_pair ?_ (by assumption) | exact .inl (frameSub_mem hl (by decide)) | exact .inr rfl
    | ((conv => arg 4; arg 27); apply OnlyIn.of_mk) | dsimp +zetaDelta only)

theorem closeMessage_only (s : State) (c : Bus) (peer : Nat) (hl : frameSub [.klp] [] pl pk = true) (hs : OnlyIn pl pk os s) :
    OnlyIn pl pk os (State.closeMessage s c peer) := by
  unfold State.closeMessage
  repeat' (with_reducible first
    | assumption | intro _ | exact frameSub_trans (by decide) hl | exact frameKey_of hl (by decide) | exact hk | extract_lets
    | exact .inl (frameSub_mem hl (by decide)) | exact .inr rfl | ((conv => arg 4; arg 27); apply OnlyIn.of_mk)
    | dsimp +zetaDelta only)

theorem discardKlp_only (s : State) (hl : frameSub [.klp] [] pl pk = true) (hs : OnlyIn pl pk os s) :
    OnlyIn pl pk os (State.discardKlp s) := by
  unfold State.discardKlp
  repeat' (with_reducible first
    | assumption | intro _ | exact frameSub_trans (by decide) hl | exact frameKey_of hl (by decide) | exact hk | extract_lets
    | exact .inl (frameSub_mem hl (by decide)) | exact .inr rfl | ((conv => arg 4; arg 27); apply OnlyIn.of_mk)
    | dsimp +zetaDelta only)

theorem messageDone_only (s : State) (c : Bus) (peer : Nat) (m : List Nat) (hl : frameSub [.klp] [] pl pk = true) (hs : OnlyIn pl pk os s) :
    OnlyIn pl pk os (State.messageDone s c peer m) := by
  unfold State.messageDone
  repeat' (with_reducible first
    | assumption | intro _ | exact frameSub_trans (by decide) hl | exact frameKey_of hl (by decide) | exact hk
    | apply acceptRequest_only | apply discardKlp_only | apply OnlyIn.ite | extract_lets | split
    | refine OnlyIn.of_pair ?_ (by assumption) | exact .inl (frameSub_mem hl (by decide)) | exact .inr rfl
    | ((conv => arg 4; arg 27); apply OnlyIn.of_mk) | dsimp +zetaDelta only)

theorem takeFrame_only (s : State) (c : Bus) (x : Rasm) (last : Bool) (bytes : List Nat) (hl : frameSub [.klp] [] pl pk = true) (hs : OnlyIn pl pk os s) :
    OnlyIn pl pk os (State.takeFrame s c x last bytes) := by
  unfold State.takeFrame
  repeat' (with_reducible first
    | assumption | intro _ | exact frameSub_trans (by decide) hl | exact frameKey_of hl (by decide) | exact hk
    | apply closeMessage_only | apply messageDone_only | apply OnlyIn.ite | extract_lets | split
    | exact .inl (frameSub_mem hl (by decide)) | exact .inr rfl | ((conv => arg 4; arg 27); apply OnlyIn.of_mk)
    | dsimp +zetaDelta only)

theorem ledgerFrame_only (s : State) (c : Bus) (data : List Nat) (hl : frameSub [.klp] [] pl pk = true) (hs : OnlyIn pl pk os s) :
    OnlyIn pl pk os (State.ledgerFrame s c data) := by
  unfold State.ledgerFrame
  repeat' (with_reducible first
    | assumption | intro _ | exact frameSub_trans (by decide) hl | exact frameKey_of hl (by decide) | exact hk
    | apply discardKlp_only | apply closeMessage_only | apply takeFrame_only | apply OnlyIn.ite | extract_lets | split
    | refine OnlyIn.of_pair ?_ (by assumption) | exact .inl (frameSub_mem hl (by decide)) | exact .inr rfl
    | ((conv => arg 4; arg 27); apply OnlyIn.of_mk) | dsimp +zetaDelta only)

theorem beginResponse_only (s : State) (hl : frameSub [.klp] [] pl pk = true) (hs : OnlyIn pl pk os s) :
    OnlyIn pl pk os (State.beginResponse s) := by
  unfold State.beginResponse
  repeat' (with_reducible first
    | assumption | intro _ | exact frameSub_trans (by decide) hl | exact frameKey_of hl (by decide) | exact hk | extract_lets
    | split | refine OnlyIn.of_pair ?_ (by assumption) | exact .inl (frameSub_mem hl (by decide)) | exact .inr rfl
    | ((conv => arg 4; arg 27); apply OnlyIn.of_mk) | dsimp +zetaDelta only)

theorem pumpFrames_only (n : Nat) (s : State) (hl : frameSub [.klp, .bus] [] pl pk = true) (hs : OnlyIn pl pk os s) :
    OnlyIn pl pk os (State.pumpFrames s n) := by
  induction n generalizing s with
  | zero => exact hs
  | succ n ih =>
    unfold State.pumpFrames
    split
    · exact hs
    · split
      · repeat' (with_reducible first | exact hs | exact .inl (frameSub_mem hl (by decide)) | exact .inr rfl | apply OnlyIn.of_mk)
      · rename_i x _ _ f rest _
        extract_lets wait r
        have hr : OnlyIn pl pk os r.2 := enqueue_only _ _ _ _ (frameSub_trans (by decide) hl) hs
        clear_value r
        split
        · refine ih _ ?_
          repeat' (with_reducible first | exact hr | exact .inl (frameSub_mem hl (by decide)) | exact .inr rfl | apply OnlyIn.of_mk)
        · split
          · exact hr
          · repeat' (with_reducible first | exact hr | exact .inl (frameSub_mem hl (by decide)) | exact .inr rfl | apply OnlyIn.of_mk)

theorem responseRow_only (s : State) (hl : frameSub [.klp, .bus] [] pl pk = true) (hs : OnlyIn pl pk os s) :
    OnlyIn pl pk os (State.responseRow s) := by
  unfold State.responseRow
  repeat' (with_reducible first
    | assumption | intro _ | exact frameSub_trans (by decide) hl | exact frameKey_of hl (by decide) | exact hk
    | apply beginResponse_only | apply beginResponse_only | apply withKlp_only | apply enqueue_only | apply pumpFrames_only
    | apply OnlyIn.foldl | dsimp +zetaDelta only)

theorem linkError_only (s : State) (e : Nat) (hl : frameSub [.klp] [] pl pk = true) (hs : OnlyIn pl pk os s) :
    OnlyIn pl pk os (State.linkError s e) := by
  unfold State.linkError
  repeat' (with_reducible first
    | assumption | intro _ | exact frameSub_trans (by decide) hl | exact frameKey_of hl (by decide) | exact hk | extract_lets
    | exact .inl (frameSub_mem hl (by decide)) | exact .inr rfl | ((conv => arg 4; arg 27); apply OnlyIn.of_mk)
    | dsimp +zetaDelta only)

theorem spiRequest_only (s : State) (bytes : List Nat) (hl : frameSub [.klp] [] pl pk = true) (hs : OnlyIn pl pk os s) :
    OnlyIn pl pk os (State.spiRequest s bytes) := by
  unfold State.spiRequest
  repeat' (with_reducible first
    | assumption | intro _ | exact frameSub_trans (by decide) hl | exact frameKey_of hl (by decide) | exact hk
    | apply linkError_only | apply acceptRequest_only | apply OnlyIn.ite | extract_lets | split
    | refine OnlyIn.of_pair ?_ (by assumption) | exact .inl (frameSub_mem hl (by decide)) | exact .inr rfl
    | ((conv => arg 4; arg 27); apply OnlyIn.of_mk) | dsimp +zetaDelta only)

theorem refillFifo_only (s : State) (hl : frameSub [.klp] [] pl pk = true) (hs : OnlyIn pl pk os s) :
    OnlyIn pl pk os (State.refillFifo s) := by
  unfold State.refillFifo
  repeat' (with_reducible first
    | assumption | intro _ | exact frameSub_trans (by decide) hl | exact frameKey_of hl (by decide) | exact hk
    | apply OnlyIn.ite | extract_lets | split | refine OnlyIn.of_pair ?_ (by assumption)
    | exact .inl (frameSub_mem hl (by decide)) | exact .inr rfl | ((conv => arg 4; arg 27); apply OnlyIn.of_mk)
    | dsimp +zetaDelta only)

theorem spiRead_only (s : State) (n : Nat) (hl : frameSub [.klp] [] pl pk = true) (hs : OnlyIn pl pk os s) :
    OnlyIn pl pk os (State.spiRead s n) := by
  unfold State.spiRead
  repeat' (with_reducible first
    | assumption | intro _ | exact frameSub_trans (by decide) hl | exact frameKey_of hl (by decide) | exact hk
    | apply refillFifo_only | apply OnlyIn.ite | extract_lets | split | refine OnlyIn.of_pair ?_ (by assumption)
    | exact .inl (frameSub_mem hl (by decide)) | exact .inr rfl | ((conv => arg 4; arg 27); apply OnlyIn.of_mk)
    | dsimp +zetaDelta only)

end Sys2Proof.Machine
end

