-- ==== Sys2Proof/Laws/FramesBusFrames.lean ====
section
/-!
SUPPORT. What the operations of Machine/BusFrames.lean change at most.
-/
namespace Sys2Proof.Machine

variable {pl : List Piece} {pk : List Nat} {os : State}

theorem nodeClash_only (s : State) (c : Bus) (id : Nat) (hl : frameSub [.log, .bus] [Reg.NODE_CLASHES] pl pk = true) (hs : OnlyIn pl pk os s) :
    OnlyIn pl pk os (State.nodeClash s c id) := by
  unfold State.nodeClash
  repeat' (with_reducible first
    | assumption | intro _ | exact frameSub_trans (by decide) hl | exact frameKey_of hl (by decide) | exact hk
    | apply setChan_only | apply incSat_only | apply pushLog_only | apply OnlyIn.ite | extract_lets | split
    | exact .inl (frameSub_mem hl (by decide)) | exact .inr rfl | ((conv => arg 4; arg 27); apply OnlyIn.of_mk)
    | dsimp +zetaDelta only)

theorem toPilot_only (s : State) (c : Bus) (f : CanFrame) (stamp : Nat) (hl : frameSub [.bus] [] pl pk = true) (hs : OnlyIn pl pk os s) :
    OnlyIn pl pk os (State.toPilot s c f stamp) := by
  unfold State.toPilot
  repeat' (with_reducible first
    | assumption | intro _ | exact frameSub_trans (by decide) hl | exact frameKey_of hl (by decide) | exact hk
    | apply setChan_only | apply OnlyIn.ite | extract_lets | split | exact .inl (frameSub_mem hl (by decide)) | exact .inr rfl
    | ((conv => arg 4; arg 27); apply OnlyIn.of_mk) | dsimp +zetaDelta only)

theorem netIgnore_only (s : State) (hl : frameSub [.klp] [] pl pk = true) (hs : OnlyIn pl pk os s) :
    OnlyIn pl pk os (State.netIgnore s) := by
  unfold State.netIgnore
  repeat' (with_reducible first
    | assumption | intro _ | exact frameSub_trans (by decide) hl | exact frameKey_of hl (by decide) | exact hk | extract_lets
    | exact .inl (frameSub_mem hl (by decide)) | exact .inr rfl | ((conv => arg 4; arg 27); apply OnlyIn.of_mk)
    | dsimp +zetaDelta only)

theorem takeValue_only (s : State) (c : Bus) (k r raw stamp : Nat) (hl : frameSub [.bus] [] pl pk = true) (hs : OnlyIn pl pk os s) :
    OnlyIn pl pk os (State.takeValue s c k r raw stamp) := by
  unfold State.takeValue
  repeat' (with_reducible first
    | assumption | intro _ | exact frameSub_trans (by decide) hl | exact frameKey_of hl (by decide) | exact hk
    | apply OnlyIn.foldl | apply OnlyIn.ite | extract_lets | split | refine OnlyIn.of_pair ?_ (by assumption)
    | exact .inl (frameSub_mem hl (by decide)) | exact .inr rfl | ((conv => arg 4; arg 27); apply OnlyIn.of_mk)
    | dsimp +zetaDelta only)

theorem exchangeFrame_only (s : State) (c : Bus) (f : CanFrame) (stamp : Nat) (hl : frameSub [.bus] [] pl pk = true) (hs : OnlyIn pl pk os s) :
    OnlyIn pl pk os (State.exchangeFrame s c f stamp) := by
  unfold State.exchangeFrame
  repeat' (with_reducible first
    | assumption | intro _ | exact frameSub_trans (by decide) hl | exact frameKey_of hl (by decide) | exact hk
    | apply takeValue_only | apply OnlyIn.foldl | apply OnlyIn.ite | extract_lets | split | dsimp +zetaDelta only)

theorem recDown_only (s : State) (c : Bus) (hl : frameSub [.bus, .freeCtr] [] pl pk = true) (hs : OnlyIn pl pk os s) :
    OnlyIn pl pk os (State.recDown s c) := by
  unfold State.recDown
  repeat' (with_reducible first
    | assumption | intro _ | exact frameSub_trans (by decide) hl | exact frameKey_of hl (by decide) | exact hk
    | apply setChan_only | apply tickFree_only | apply OnlyIn.ite | extract_lets | split
    | exact .inl (frameSub_mem hl (by decide)) | exact .inr rfl | ((conv => arg 4; arg 27); apply OnlyIn.of_mk)
    | dsimp +zetaDelta only)

theorem routeFrame_only (s : State) (c : Bus) (f : CanFrame) (stamp : Nat) (hl : frameSub [.regs, .power, .klp, .log, .rtc, .bus, .loop, .video, .pwr, .freeCtr] [] pl pk = true) (hs : OnlyIn pl pk os s) :
    OnlyIn pl pk os (State.routeFrame s c f stamp) := by
  unfold State.routeFrame
  repeat' (with_reducible first
    | assumption | intro _ | exact frameSub_trans (by decide) hl | exact frameKey_of hl (by decide) | exact hk
    | exact frameKey_regs (frameSub_mem hl (by decide)) | apply ledgerFrame_only | apply netIgnore_only | apply toPilot_only
    | apply masterHeard_only | apply exchangeFrame_only | apply syncTime_only | apply OnlyIn.ite | extract_lets | split
    | dsimp +zetaDelta only)

theorem drainFifo_only (s : State) (c : Bus) (hl : frameSub [.klp, .bus] [] pl pk = true) (hs : OnlyIn pl pk os s) :
    OnlyIn pl pk os (State.drainFifo s c) := by
  unfold State.drainFifo
  repeat' (with_reducible first
    | assumption | intro _ | exact frameSub_trans (by decide) hl | exact frameKey_of hl (by decide) | exact hk
    | apply setChan_only | extract_lets | exact .inl (frameSub_mem hl (by decide)) | exact .inr rfl
    | ((conv => arg 4; arg 27); apply OnlyIn.of_mk) | dsimp +zetaDelta only)

theorem takeNet_only (s : State) (c : Bus) (code : Nat) (hl : frameSub [.klp, .bus] [] pl pk = true) (hs : OnlyIn pl pk os s) (p : CanFrame × State)
    (e : s.takeNet c code = some p) : OnlyIn pl pk os p.2 := by
  unfold State.takeNet at e
  split at e
  · cases e
  · dsimp only at e
    split at e
    · split at e
      · cases e; exact setChan_only _ _ _ (frameSub_trans (by decide) hl) (drainFifo_only _ _ hl hs)
      · cases e
    · cases e

theorem sendGroups_only (s : State) (hl : frameSub [.bus] [] pl pk = true) (hs : OnlyIn pl pk os s) :
    OnlyIn pl pk os (State.sendGroups s) := by
  unfold State.sendGroups
  repeat' (with_reducible first
    | assumption | intro _ | exact frameSub_trans (by decide) hl | exact frameKey_of hl (by decide) | exact hk
    | apply enqueue_only | apply OnlyIn.foldl | extract_lets | dsimp +zetaDelta only)

theorem sendMissing_only (s : State) (k : Checkpoint) (hl : frameSub [.bus] [] pl pk = true) (hs : OnlyIn pl pk os s) :
    OnlyIn pl pk os (State.sendMissing s k) := by
  unfold State.sendMissing
  repeat' (with_reducible first
    | assumption | intro _ | exact frameSub_trans (by decide) hl | exact frameKey_of hl (by decide) | exact hk
    | apply enqueue_only | apply OnlyIn.foldl | extract_lets | dsimp +zetaDelta only)

theorem resumeTick_only (s : State) (hl : frameSub [.regs, .klp, .bus, .loop, .act] [] pl pk = true) (hs : OnlyIn pl pk os s) :
    OnlyIn pl pk os (State.resumeTick s) := by
  unfold State.resumeTick
  repeat' (with_reducible first
    | assumption | intro _ | exact frameSub_trans (by decide) hl | exact frameKey_of hl (by decide) | exact hk
    | apply updateZones_only | apply runLoops_only | apply sendMissing_only | apply sendGroups_only | apply OnlyIn.ite
    | extract_lets | split | dsimp +zetaDelta only)

theorem nextArbitration_only (s : State) (c : Bus) (hl : frameSub [.bus] [] pl pk = true) (hs : OnlyIn pl pk os s) :
    OnlyIn pl pk os (State.nextArbitration s c) := by
  unfold State.nextArbitration
  repeat' (with_reducible first
    | assumption | intro _ | exact frameSub_trans (by decide) hl | exact frameKey_of hl (by decide) | exact hk
    | apply setChan_only | apply OnlyIn.ite | extract_lets | split | exact .inl (frameSub_mem hl (by decide)) | exact .inr rfl
    | ((conv => arg 4; arg 27); apply OnlyIn.of_mk) | dsimp +zetaDelta only)

theorem copyHeld_only (s : State) (c : Bus) (q : Nat) (f : TxFrame) (hl : frameSub [.bus] [] pl pk = true) (hs : OnlyIn pl pk os s) :
    OnlyIn pl pk os (State.copyHeld s c q f) := by
  unfold State.copyHeld
  repeat' (with_reducible first
    | assumption | intro _ | exact frameSub_trans (by decide) hl | exact frameKey_of hl (by decide) | exact hk
    | apply enqueue_only | apply setChan_only | apply OnlyIn.ite | extract_lets | split
    | refine OnlyIn.of_pair ?_ (by assumption) | exact .inl (frameSub_mem hl (by decide)) | exact .inr rfl
    | ((conv => arg 4; arg 27); apply OnlyIn.of_mk) | dsimp +zetaDelta only)

theorem goBusOff_only (s : State) (c : Bus) (q : Nat) (f : TxFrame) (hl : frameSub [.klp, .log, .bus, .freeCtr] [] pl pk = true) (hs : OnlyIn pl pk os s) :
    OnlyIn pl pk os (State.goBusOff s c q f) := by
  unfold State.goBusOff
  repeat' (with_reducible first
    | assumption | intro _ | exact frameSub_trans (by decide) hl | exact frameKey_of hl (by decide) | exact hk
    | apply setChan_only | apply tickFree_only | apply copyHeld_only | apply pushLog_only | apply alarmOf_only
    | apply OnlyIn.ite | extract_lets | split | exact .inl (frameSub_mem hl (by decide)) | exact .inr rfl
    | ((conv => arg 4; arg 27); apply OnlyIn.of_mk) | dsimp +zetaDelta only)

theorem busRecovered_only (s : State) (c : Bus) (hl : frameSub [.klp, .log, .bus] [] pl pk = true) (hs : OnlyIn pl pk os s) :
    OnlyIn pl pk os (State.busRecovered s c) := by
  unfold State.busRecovered
  repeat' (with_reducible first
    | assumption | intro _ | exact frameSub_trans (by decide) hl | exact frameKey_of hl (by decide) | exact hk
    | apply setChan_only | apply pushLog_only | apply alarmOf_only | apply OnlyIn.ite | extract_lets | split
    | exact .inl (frameSub_mem hl (by decide)) | exact .inr rfl | ((conv => arg 4; arg 27); apply OnlyIn.of_mk)
    | dsimp +zetaDelta only)

theorem bulkDone_only (s : State) (c : Bus) (f : CanFrame) (hl : frameSub [.klp] [] pl pk = true) (hs : OnlyIn pl pk os s) :
    OnlyIn pl pk os (State.bulkDone s c f) := by
  unfold State.bulkDone
  repeat' (with_reducible first
    | assumption | intro _ | exact frameSub_trans (by decide) hl | exact frameKey_of hl (by decide) | exact hk
    | apply OnlyIn.ite | extract_lets | split | exact .inl (frameSub_mem hl (by decide)) | exact .inr rfl
    | ((conv => arg 4; arg 27); apply OnlyIn.of_mk) | dsimp +zetaDelta only)

end Sys2Proof.Machine
end

