-- ==== Sys2Proof/Laws/FramesBus.lean ====
section
/-!
SUPPORT. What the operations of Machine/Bus.lean change at most.
-/
namespace Sys2Proof.Machine

variable {pl : List Piece} {pk : List Nat} {os : State}

theorem busModeWritten_only (s : State) (c : Bus) (v : Nat) (hl : frameSub [.bus] [] pl pk = true) (hs : OnlyIn pl pk os s) :
    OnlyIn pl pk os (State.busModeWritten s c v) := by
  unfold State.busModeWritten
  repeat' (with_reducible first
    | assumption | intro _ | exact frameSub_trans (by decide) hl | exact frameKey_of hl (by decide) | exact hk
    | apply setChan_only | apply OnlyIn.ite | extract_lets | split | exact .inl (frameSub_mem hl (by decide)) | exact .inr rfl
    | ((conv => arg 4; arg 27); apply OnlyIn.of_mk) | dsimp +zetaDelta only)

theorem busModeRule_only (c : Bus) (s : State) (v : Nat) (hl : frameSub [.regs, .nv, .log, .bus] [] pl pk = true) (hs : OnlyIn pl pk os s) :
    OnlyIn pl pk os (busModeRule c s v).2 := by
  unfold busModeRule
  repeat' (with_reducible first
    | assumption | intro _ | exact frameSub_trans (by decide) hl | exact frameKey_of hl (by decide) | exact hk
    | exact frameKey_regs (frameSub_mem hl (by decide)) | apply andThen_only | apply plainRule_only | apply busModeWritten_only
    | dsimp +zetaDelta only)

theorem execBusModeWrite_only (c : Bus) (w : Wr) (s : State) (hl : frameSub [.regs, .klp, .nv, .log, .bus] [] pl pk = true) (hs : OnlyIn pl pk os s) :
    ∃ s', execBusModeWrite c w s = .next s' ∧ OnlyIn pl pk os s' := by
  unfold execBusModeWrite
  refine ⟨_, rfl, ?_⟩
  repeat' (with_reducible first
    | assumption | intro _ | exact frameSub_trans (by decide) hl | exact frameKey_of hl (by decide) | exact hk
    | exact frameKey_regs (frameSub_mem hl (by decide)) | apply ledgerWrite_only | apply busModeRule_only
    | dsimp +zetaDelta only)

theorem execBusModeApply_only (c : Bus) (s : State) (hl : frameSub [.bus] [] pl pk = true) (hs : OnlyIn pl pk os s) :
    ∃ s', execBusModeApply c s = .next s' ∧ OnlyIn pl pk os s' := by
  unfold execBusModeApply
  refine ⟨_, rfl, ?_⟩
  repeat' (with_reducible first
    | assumption | intro _ | exact frameSub_trans (by decide) hl | exact frameKey_of hl (by decide) | exact hk
    | apply setChan_only | extract_lets | split | refine OnlyIn.of_pair ?_ (by assumption)
    | exact .inl (frameSub_mem hl (by decide)) | exact .inr rfl | ((conv => arg 4; arg 27); apply OnlyIn.of_mk)
    | dsimp +zetaDelta only)

theorem execBusIntegrated_only (c : Bus) (s : State) (hl : frameSub [.bus] [] pl pk = true) (hs : OnlyIn pl pk os s) :
    ∃ s', execBusIntegrated c s = .next s' ∧ OnlyIn pl pk os s' := by
  unfold execBusIntegrated
  refine ⟨_, rfl, ?_⟩
  repeat' (with_reducible first
    | assumption | intro _ | exact frameSub_trans (by decide) hl | exact frameKey_of hl (by decide) | exact hk
    | apply setChan_only | apply nextArbitration_only | apply OnlyIn.ite | extract_lets | split
    | exact .inl (frameSub_mem hl (by decide)) | exact .inr rfl | ((conv => arg 4; arg 27); apply OnlyIn.of_mk)
    | dsimp +zetaDelta only)

theorem execBusProbeEnd_only (c : Bus) (s : State) (hl : frameSub [.bus] [] pl pk = true) (hs : OnlyIn pl pk os s) :
    ∃ s', execBusProbeEnd c s = .next s' ∧ OnlyIn pl pk os s' := by
  unfold execBusProbeEnd
  refine ⟨_, rfl, ?_⟩
  repeat' (with_reducible first
    | assumption | intro _ | exact frameSub_trans (by decide) hl | exact frameKey_of hl (by decide) | exact hk
    | apply setChan_only | apply OnlyIn.ite | extract_lets | split | refine OnlyIn.of_pair ?_ (by assumption)
    | exact .inl (frameSub_mem hl (by decide)) | exact .inr rfl | ((conv => arg 4; arg 27); apply OnlyIn.of_mk)
    | dsimp +zetaDelta only)

theorem busTimingRule_only (c : Bus) (sub : Nat) (s : State) (v : Nat) (hl : frameSub [.regs, .nv, .log] [] pl pk = true) (hs : OnlyIn pl pk os s) :
    OnlyIn pl pk os (busTimingRule c sub s v).2 := by
  unfold busTimingRule
  repeat' (with_reducible first
    | assumption | intro _ | exact frameSub_trans (by decide) hl | exact frameKey_of hl (by decide) | exact hk
    | exact frameKey_regs (frameSub_mem hl (by decide)) | apply putEntry_only | apply OnlyIn.ite | extract_lets | split
    | dsimp +zetaDelta only)

theorem execBusTimingWrite_only (c : Bus) (sub : Nat) (w : Wr) (s : State) (hl : frameSub [.regs, .klp, .nv, .log] [] pl pk = true) (hs : OnlyIn pl pk os s) :
    ∃ s', execBusTimingWrite c sub w s = .next s' ∧ OnlyIn pl pk os s' := by
  unfold execBusTimingWrite
  refine ⟨_, rfl, ?_⟩
  repeat' (with_reducible first
    | assumption | intro _ | exact frameSub_trans (by decide) hl | exact frameKey_of hl (by decide) | exact hk
    | exact frameKey_regs (frameSub_mem hl (by decide)) | apply ledgerWrite_only | apply busTimingRule_only | extract_lets
    | dsimp +zetaDelta only)

theorem tripleSampleRule_only (c : Bus) (s : State) (v : Nat) (hl : frameSub [.regs, .nv, .log] [] pl pk = true) (hs : OnlyIn pl pk os s) :
    OnlyIn pl pk os (tripleSampleRule c s v).2 := by
  unfold tripleSampleRule
  repeat' (with_reducible first
    | assumption | intro _ | exact frameSub_trans (by decide) hl | exact frameKey_of hl (by decide) | exact hk
    | exact frameKey_regs (frameSub_mem hl (by decide)) | apply plainRule_only | apply OnlyIn.ite | split
    | dsimp +zetaDelta only)

theorem execTripleSampleWrite_only (c : Bus) (w : Wr) (s : State) (hl : frameSub [.regs, .klp, .nv, .log] [] pl pk = true) (hs : OnlyIn pl pk os s) :
    ∃ s', execTripleSampleWrite c w s = .next s' ∧ OnlyIn pl pk os s' := by
  unfold execTripleSampleWrite
  refine ⟨_, rfl, ?_⟩
  repeat' (with_reducible first
    | assumption | intro _ | exact frameSub_trans (by decide) hl | exact frameKey_of hl (by decide) | exact hk
    | exact frameKey_regs (frameSub_mem hl (by decide)) | apply ledgerWrite_only | apply tripleSampleRule_only
    | dsimp +zetaDelta only)

theorem fdException_only (s : State) (c : Bus) (hl : frameSub [.bus] [] pl pk = true) (hs : OnlyIn pl pk os s) :
    OnlyIn pl pk os (State.fdException s c) := by
  unfold State.fdException
  repeat' (with_reducible first
    | assumption | intro _ | exact frameSub_trans (by decide) hl | exact frameKey_of hl (by decide) | exact hk
    | apply setChan_only | extract_lets | exact .inl (frameSub_mem hl (by decide)) | exact .inr rfl
    | ((conv => arg 4; arg 27); apply OnlyIn.of_mk) | dsimp +zetaDelta only)

theorem execCanFrameReceived_only (c : Bus) (f : CanFrame) (stamp : Nat) (s : State) (hl : frameSub [.regs, .power, .klp, .log, .rtc, .bus, .loop, .video, .pwr, .freeCtr] [] pl pk = true) (hs : OnlyIn pl pk os s) :
    ∃ s', execCanFrameReceived c f stamp s = .next s' ∧ OnlyIn pl pk os s' := by
  unfold execCanFrameReceived
  refine ⟨_, rfl, ?_⟩
  repeat' (with_reducible first
    | assumption | intro _ | exact frameSub_trans (by decide) hl | exact frameKey_of hl (by decide) | exact hk
    | exact frameKey_regs (frameSub_mem hl (by decide)) | apply fdException_only | apply recDown_only | apply setChan_only
    | apply nodeClash_only | apply routeFrame_only | apply OnlyIn.ite | extract_lets | split
    | exact .inl (frameSub_mem hl (by decide)) | exact .inr rfl | ((conv => arg 4; arg 27); apply OnlyIn.of_mk)
    | dsimp +zetaDelta only)

theorem execCanTxComplete_only (c : Bus) (stamp : Nat) (s : State) (hl : frameSub [.klp, .log, .bus] [] pl pk = true) (hs : OnlyIn pl pk os s) :
    ∃ s', execCanTxComplete c stamp s = .next s' ∧ OnlyIn pl pk os s' := by
  unfold execCanTxComplete
  refine ⟨_, rfl, ?_⟩
  repeat' (with_reducible first
    | assumption | intro _ | exact frameSub_trans (by decide) hl | exact frameKey_of hl (by decide) | exact hk
    | apply setChan_only | apply bulkDone_only | apply busRecovered_only | apply nextArbitration_only | apply OnlyIn.ite
    | extract_lets | split | refine OnlyIn.of_pair ?_ (by assumption) | exact .inl (frameSub_mem hl (by decide))
    | exact .inr rfl | ((conv => arg 4; arg 27); apply OnlyIn.of_mk) | dsimp +zetaDelta only)

theorem execCanTxError_only (c : Bus) (e : TxError) (s : State) (hl : frameSub [.klp, .log, .bus, .freeCtr] [] pl pk = true) (hs : OnlyIn pl pk os s) :
    ∃ s', execCanTxError c e s = .next s' ∧ OnlyIn pl pk os s' := by
  unfold execCanTxError
  refine ⟨_, rfl, ?_⟩
  repeat' (with_reducible first
    | assumption | intro _ | exact frameSub_trans (by decide) hl | exact frameKey_of hl (by decide) | exact hk
    | apply nextArbitration_only | apply setChan_only | apply goBusOff_only | apply OnlyIn.ite | extract_lets | split
    | refine OnlyIn.of_pair ?_ (by assumption) | exact .inl (frameSub_mem hl (by decide)) | exact .inr rfl
    | ((conv => arg 4; arg 27); apply OnlyIn.of_mk) | dsimp +zetaDelta only)

theorem execBusoffRecoveryDone_only (c : Bus) (s : State) (hl : frameSub [.bus] [] pl pk = true) (hs : OnlyIn pl pk os s) :
    ∃ s', execBusoffRecoveryDone c s = .next s' ∧ OnlyIn pl pk os s' := by
  unfold execBusoffRecoveryDone
  refine ⟨_, rfl, ?_⟩
  repeat' (with_reducible first
    | assumption | intro _ | exact frameSub_trans (by decide) hl | exact frameKey_of hl (by decide) | exact hk
    | apply setChan_only | apply nextArbitration_only | apply OnlyIn.ite | extract_lets | split
    | exact .inl (frameSub_mem hl (by decide)) | exact .inr rfl | ((conv => arg 4; arg 27); apply OnlyIn.of_mk)
    | dsimp +zetaDelta only)

theorem execProtocolError_only (c : Bus) (e : RxError) (s : State) (hl : frameSub [.bus] [] pl pk = true) (hs : OnlyIn pl pk os s) :
    ∃ s', execProtocolError c e s = .next s' ∧ OnlyIn pl pk os s' := by
  unfold execProtocolError
  refine ⟨_, rfl, ?_⟩
  repeat' (with_reducible first
    | assumption | intro _ | exact frameSub_trans (by decide) hl | exact frameKey_of hl (by decide) | exact hk
    | apply fdException_only | apply setChan_only | apply OnlyIn.ite | extract_lets | split
    | refine OnlyIn.of_pair ?_ (by assumption) | exact .inl (frameSub_mem hl (by decide)) | exact .inr rfl
    | ((conv => arg 4; arg 27); apply OnlyIn.of_mk) | dsimp +zetaDelta only)

theorem execBwHoldExpiry_only (n : Nat) (s : State) (hl : frameSub [.klp, .bus] [] pl pk = true) (hs : OnlyIn pl pk os s) :
    ∃ s', execBwHoldExpiry n s = .next s' ∧ OnlyIn pl pk os s' := by
  unfold execBwHoldExpiry
  refine ⟨_, rfl, ?_⟩
  repeat' (with_reducible first
    | assumption | intro _ | exact frameSub_trans (by decide) hl | exact frameKey_of hl (by decide) | exact hk
    | apply withBw_only | apply releaseSource_only | apply OnlyIn.ite | extract_lets | split
    | refine OnlyIn.of_pair ?_ (by assumption) | exact .inl (frameSub_mem hl (by decide)) | exact .inr rfl
    | ((conv => arg 4; arg 27); apply OnlyIn.of_mk) | dsimp +zetaDelta only)

theorem execBwSummary_only (s : State) (hl : frameSub [.klp, .bus] [] pl pk = true) (hs : OnlyIn pl pk os s) :
    ∃ s', execBwSummary s = .next s' ∧ OnlyIn pl pk os s' := by
  unfold execBwSummary
  refine ⟨_, rfl, ?_⟩
  repeat' (with_reducible first
    | assumption | intro _ | exact frameSub_trans (by decide) hl | exact frameKey_of hl (by decide) | exact hk
    | apply releaseFrame_only | apply withBw_only | apply OnlyIn.ite | extract_lets | split
    | exact .inl (frameSub_mem hl (by decide)) | exact .inr rfl | ((conv => arg 4; arg 27); apply OnlyIn.of_mk)
    | dsimp +zetaDelta only)

theorem sendHeartbeat_only (s : State) (hl : frameSub [.bus] [] pl pk = true) (hs : OnlyIn pl pk os s) :
    OnlyIn pl pk os (State.sendHeartbeat s) := by
  unfold State.sendHeartbeat
  repeat' (with_reducible first
    | assumption | intro _ | exact frameSub_trans (by decide) hl | exact frameKey_of hl (by decide) | exact hk
    | apply enqueue_only | apply OnlyIn.foldl | apply OnlyIn.ite | split | dsimp +zetaDelta only)

theorem dueHeartbeat_only (s : State) (hl : frameSub [.bus] [] pl pk = true) (hs : OnlyIn pl pk os s) :
    OnlyIn pl pk os (State.dueHeartbeat s) := by
  unfold State.dueHeartbeat
  repeat' (with_reducible first
    | assumption | intro _ | exact frameSub_trans (by decide) hl | exact frameKey_of hl (by decide) | exact hk
    | apply sendHeartbeat_only | apply OnlyIn.ite | split | exact .inl (frameSub_mem hl (by decide)) | exact .inr rfl
    | ((conv => arg 4; arg 27); apply OnlyIn.of_mk) | dsimp +zetaDelta only)

theorem execDeviceHeartbeat_only (s : State) (hl : frameSub [.bus] [] pl pk = true) (hs : OnlyIn pl pk os s) :
    ∃ s', execDeviceHeartbeat s = .next s' ∧ OnlyIn pl pk os s' := by
  unfold execDeviceHeartbeat
  refine ⟨_, rfl, ?_⟩
  repeat' (with_reducible first
    | assumption | intro _ | exact frameSub_trans (by decide) hl | exact frameKey_of hl (by decide) | exact hk
    | apply sendHeartbeat_only | apply OnlyIn.ite | split | exact .inl (frameSub_mem hl (by decide)) | exact .inr rfl
    | ((conv => arg 4; arg 27); apply OnlyIn.of_mk) | dsimp +zetaDelta only)

theorem execNetHeartbeatNow_only (c : Bus) (s : State) (hl : frameSub [.klp, .bus] [] pl pk = true) (hs : OnlyIn pl pk os s) :
    ∃ s', execNetHeartbeatNow c s = .next s' ∧ OnlyIn pl pk os s' := by
  unfold execNetHeartbeatNow
  refine ⟨_, rfl, ?_⟩
  repeat' (with_reducible first
    | assumption | intro _ | exact frameSub_trans (by decide) hl | exact frameKey_of hl (by decide) | exact hk
    | apply sendHeartbeat_only | apply drainFifo_only | apply setChan_only | extract_lets | split
    | refine OnlyIn.of_pair ?_ (by assumption) | exact .inl (frameSub_mem hl (by decide)) | exact .inr rfl
    | ((conv => arg 4; arg 27); apply OnlyIn.of_mk) | exact takeNet_only _ _ _ (frameSub_trans (by decide) hl) hs _ ‹_›
    | dsimp +zetaDelta only)

theorem execNetLockAll_only (c : Bus) (s : State) (hl : frameSub [.klp, .bus] [] pl pk = true) (hs : OnlyIn pl pk os s) :
    ∃ s', execNetLockAll c s = .next s' ∧ OnlyIn pl pk os s' := by
  unfold execNetLockAll
  refine ⟨_, rfl, ?_⟩
  repeat' (with_reducible first
    | assumption | intro _ | exact frameSub_trans (by decide) hl | exact frameKey_of hl (by decide) | exact hk
    | apply withKlp_only | apply drainFifo_only | apply setChan_only | extract_lets | split
    | refine OnlyIn.of_pair ?_ (by assumption) | exact .inl (frameSub_mem hl (by decide)) | exact .inr rfl
    | ((conv => arg 4; arg 27); apply OnlyIn.of_mk) | exact takeNet_only _ _ _ (frameSub_trans (by decide) hl) hs _ ‹_›
    | dsimp +zetaDelta only)

theorem execNetQuiet_only (c : Bus) (s : State) (hl : frameSub [.klp, .bus] [] pl pk = true) (hs : OnlyIn pl pk os s) :
    ∃ s', execNetQuiet c s = .next s' ∧ OnlyIn pl pk os s' := by
  unfold execNetQuiet
  refine ⟨_, rfl, ?_⟩
  repeat' (with_reducible first
    | assumption | intro _ | exact frameSub_trans (by decide) hl | exact frameKey_of hl (by decide) | exact hk
    | apply setChan_only | apply drainFifo_only | apply setChan_only | apply OnlyIn.foldl | apply OnlyIn.ite | extract_lets
    | split | refine OnlyIn.of_pair ?_ (by assumption) | exact .inl (frameSub_mem hl (by decide)) | exact .inr rfl
    | ((conv => arg 4; arg 27); apply OnlyIn.of_mk) | exact takeNet_only _ _ _ (frameSub_trans (by decide) hl) hs _ ‹_›
    | dsimp +zetaDelta only)

theorem execQuietEnd_only (s : State) (hl : frameSub [.bus] [] pl pk = true) (hs : OnlyIn pl pk os s) :
    ∃ s', execQuietEnd s = .next s' ∧ OnlyIn pl pk os s' := by
  unfold execQuietEnd
  refine ⟨_, rfl, ?_⟩
  repeat' (with_reducible first
    | assumption | intro _ | exact frameSub_trans (by decide) hl | exact frameKey_of hl (by decide) | exact hk
    | apply setChan_only | apply OnlyIn.foldl | apply OnlyIn.ite | extract_lets | split
    | exact .inl (frameSub_mem hl (by decide)) | exact .inr rfl | ((conv => arg 4; arg 27); apply OnlyIn.of_mk)
    | dsimp +zetaDelta only)

theorem execNetTimeRequest_only (c : Bus) (s : State) (hl : frameSub [.klp, .bus] [] pl pk = true) (hs : OnlyIn pl pk os s) :
    ∃ s', execNetTimeRequest c s = .next s' ∧ OnlyIn pl pk os s' := by
  unfold execNetTimeRequest
  refine ⟨_, rfl, ?_⟩
  repeat' (with_reducible first
    | assumption | intro _ | exact frameSub_trans (by decide) hl | exact frameKey_of hl (by decide) | exact hk
    | apply sendTime_only | apply drainFifo_only | apply setChan_only | extract_lets | split
    | refine OnlyIn.of_pair ?_ (by assumption) | exact .inl (frameSub_mem hl (by decide)) | exact .inr rfl
    | ((conv => arg 4; arg 27); apply OnlyIn.of_mk) | exact takeNet_only _ _ _ (frameSub_trans (by decide) hl) hs _ ‹_›
    | dsimp +zetaDelta only)

end Sys2Proof.Machine
end

