-- ==== Sys2Proof/Laws/FramesWindow.lean ====
section
/-!
SUPPORT. What the operations of Machine/Window.lean change at most.
-/
namespace Sys2Proof.Machine

variable {pl : List Piece} {pk : List Nat} {os : State}

theorem windowDo_only (s : State) (f : State → State) (hl : frameSub [.regs, .klp, .nv, .window, .log, .bus] [] pl pk = true) (hs : OnlyIn pl pk os s) (hf : ∀ t, OnlyIn pl pk os t → OnlyIn pl pk os (f t)) :
    OnlyIn pl pk os (State.windowDo s f) := by
  unfold State.windowDo
  repeat' (with_reducible first
    | assumption | intro _ | exact frameSub_trans (by decide) hl | exact frameKey_of hl (by decide) | exact hk
    | exact frameKey_regs (frameSub_mem hl (by decide)) | apply closeOpen_only | apply spiOutput_only | apply OnlyIn.ite
    | apply hf | split | dsimp +zetaDelta only)

theorem setWel_only (s : State) (b : Bool) (hl : frameSub [.nv] [] pl pk = true) (hs : OnlyIn pl pk os s) :
    OnlyIn pl pk os (State.setWel s b) := by
  unfold State.setWel
  repeat' (with_reducible first
    | assumption | intro _ | exact frameSub_trans (by decide) hl | exact frameKey_of hl (by decide) | exact hk
    | apply withNv_only | extract_lets | exact .inl (frameSub_mem hl (by decide)) | exact .inr rfl
    | ((conv => arg 4; arg 27); apply OnlyIn.of_mk) | dsimp +zetaDelta only)

theorem execNvWren_only (s : State) (hl : frameSub [.regs, .klp, .nv, .window, .log, .bus] [] pl pk = true) (hs : OnlyIn pl pk os s) :
    ∃ s', execNvWren s = .next s' ∧ OnlyIn pl pk os s' := by
  unfold execNvWren
  refine ⟨_, rfl, ?_⟩
  repeat' (with_reducible first
    | assumption | intro _ | exact frameSub_trans (by decide) hl | exact frameKey_of hl (by decide) | exact hk
    | exact frameKey_regs (frameSub_mem hl (by decide)) | apply windowDo_only | apply setWel_only | dsimp +zetaDelta only)

theorem execNvWrdi_only (s : State) (hl : frameSub [.regs, .klp, .nv, .window, .log, .bus] [] pl pk = true) (hs : OnlyIn pl pk os s) :
    ∃ s', execNvWrdi s = .next s' ∧ OnlyIn pl pk os s' := by
  unfold execNvWrdi
  refine ⟨_, rfl, ?_⟩
  repeat' (with_reducible first
    | assumption | intro _ | exact frameSub_trans (by decide) hl | exact frameKey_of hl (by decide) | exact hk
    | exact frameKey_regs (frameSub_mem hl (by decide)) | apply windowDo_only | apply setWel_only | dsimp +zetaDelta only)

theorem execNvRdsr_only (n : Nat) (s : State) (hl : frameSub [.regs, .klp, .nv, .window, .log, .bus] [] pl pk = true) (hs : OnlyIn pl pk os s) :
    ∃ s', execNvRdsr n s = .next s' ∧ OnlyIn pl pk os s' := by
  unfold execNvRdsr
  refine ⟨_, rfl, ?_⟩
  repeat' (with_reducible first
    | assumption | intro _ | exact frameSub_trans (by decide) hl | exact frameKey_of hl (by decide) | exact hk
    | exact frameKey_regs (frameSub_mem hl (by decide)) | apply windowDo_only | apply spiOutput_only | dsimp +zetaDelta only)

theorem execNvWrsr_only (b : Nat) (s : State) (hl : frameSub [.regs, .klp, .nv, .window, .log, .bus] [] pl pk = true) (hs : OnlyIn pl pk os s) :
    ∃ s', execNvWrsr b s = .next s' ∧ OnlyIn pl pk os s' := by
  unfold execNvWrsr
  refine ⟨_, rfl, ?_⟩
  repeat' (with_reducible first
    | assumption | intro _ | exact frameSub_trans (by decide) hl | exact frameKey_of hl (by decide) | exact hk
    | exact frameKey_regs (frameSub_mem hl (by decide)) | apply windowDo_only | apply putEntry_only | apply OnlyIn.ite | split
    | dsimp +zetaDelta only)

theorem windowRead_only (s : State) (addr n : Nat) (hl : frameSub [.regs, .klp, .nv, .window, .log, .bus] [] pl pk = true) (hs : OnlyIn pl pk os s) :
    OnlyIn pl pk os (State.windowRead s addr n) := by
  unfold State.windowRead
  repeat' (with_reducible first
    | assumption | intro _ | exact frameSub_trans (by decide) hl | exact frameKey_of hl (by decide) | exact hk
    | exact frameKey_regs (frameSub_mem hl (by decide)) | apply windowDo_only | apply readBytes_only | apply spiOutput_only
    | extract_lets | dsimp +zetaDelta only)

theorem execNvRead_only (addr n : Nat) (s : State) (hl : frameSub [.regs, .klp, .nv, .window, .log, .bus] [] pl pk = true) (hs : OnlyIn pl pk os s) :
    ∃ s', execNvRead addr n s = .next s' ∧ OnlyIn pl pk os s' := by
  unfold execNvRead
  refine ⟨_, rfl, ?_⟩
  repeat' (with_reducible first
    | assumption | intro _ | exact frameSub_trans (by decide) hl | exact frameKey_of hl (by decide) | exact hk
    | exact frameKey_regs (frameSub_mem hl (by decide)) | apply windowRead_only | dsimp +zetaDelta only)

theorem execNvFastRead_only (addr n : Nat) (s : State) (hl : frameSub [.regs, .klp, .nv, .window, .log, .bus] [] pl pk = true) (hs : OnlyIn pl pk os s) :
    ∃ s', execNvFastRead addr n s = .next s' ∧ OnlyIn pl pk os s' := by
  unfold execNvFastRead
  refine ⟨_, rfl, ?_⟩
  repeat' (with_reducible first
    | assumption | intro _ | exact frameSub_trans (by decide) hl | exact frameKey_of hl (by decide) | exact hk
    | exact frameKey_regs (frameSub_mem hl (by decide)) | apply windowRead_only | dsimp +zetaDelta only)

theorem writeIgnored_only (s : State) (hl : frameSub [.nv] [] pl pk = true) (hs : OnlyIn pl pk os s) :
    OnlyIn pl pk os (State.writeIgnored s) := by
  unfold State.writeIgnored
  repeat' (with_reducible first
    | assumption | intro _ | exact frameSub_trans (by decide) hl | exact frameKey_of hl (by decide) | exact hk
    | apply withNv_only | extract_lets | exact .inl (frameSub_mem hl (by decide)) | exact .inr rfl
    | ((conv => arg 4; arg 27); apply OnlyIn.of_mk) | dsimp +zetaDelta only)

theorem execNvWrite_only (addr : Nat) (bytes : List Nat) (cont : Bool) (s : State) (hl : frameSub [.regs, .klp, .nv, .window, .log, .bus] [] pl pk = true) (hs : OnlyIn pl pk os s) :
    ∃ s', execNvWrite addr bytes cont s = .next s' ∧ OnlyIn pl pk os s' := by
  unfold execNvWrite
  refine ⟨_, rfl, ?_⟩
  repeat' (with_reducible first
    | assumption | intro _ | exact frameSub_trans (by decide) hl | exact frameKey_of hl (by decide) | exact hk
    | exact frameKey_regs (frameSub_mem hl (by decide)) | apply windowDo_only | apply writeIgnored_only | apply closeOpen_only
    | apply closeOpen_only | apply withNv_only | apply writeBytes_only | apply OnlyIn.ite | extract_lets | split
    | dsimp +zetaDelta only)

theorem execNvRder_only (n : Nat) (s : State) (hl : frameSub [.regs, .klp, .nv, .window, .log, .bus, .freeCtr] [] pl pk = true) (hs : OnlyIn pl pk os s) :
    ∃ s', execNvRder n s = .next s' ∧ OnlyIn pl pk os s' := by
  unfold execNvRder
  refine ⟨_, rfl, ?_⟩
  repeat' (with_reducible first
    | assumption | intro _ | exact frameSub_trans (by decide) hl | exact frameKey_of hl (by decide) | exact hk
    | exact frameKey_regs (frameSub_mem hl (by decide)) | apply windowDo_only | apply spiOutput_only | apply tickFree_only
    | extract_lets | split | refine OnlyIn.of_pair ?_ (by assumption) | exact .inl (frameSub_mem hl (by decide))
    | exact .inr rfl | ((conv => arg 4; arg 27); apply OnlyIn.of_mk) | dsimp +zetaDelta only)

theorem execNvCler_only (s : State) (hl : frameSub [.regs, .klp, .nv, .window, .log, .bus] [] pl pk = true) (hs : OnlyIn pl pk os s) :
    ∃ s', execNvCler s = .next s' ∧ OnlyIn pl pk os s' := by
  unfold execNvCler
  refine ⟨_, rfl, ?_⟩
  repeat' (with_reducible first
    | assumption | intro _ | exact frameSub_trans (by decide) hl | exact frameKey_of hl (by decide) | exact hk
    | exact frameKey_regs (frameSub_mem hl (by decide)) | apply windowDo_only | apply withNv_only | extract_lets
    | exact .inl (frameSub_mem hl (by decide)) | exact .inr rfl | ((conv => arg 4; arg 27); apply OnlyIn.of_mk)
    | dsimp +zetaDelta only)

theorem execNvRdid_only (n : Nat) (s : State) (hl : frameSub [.regs, .klp, .nv, .window, .log, .bus] [] pl pk = true) (hs : OnlyIn pl pk os s) :
    ∃ s', execNvRdid n s = .next s' ∧ OnlyIn pl pk os s' := by
  unfold execNvRdid
  refine ⟨_, rfl, ?_⟩
  repeat' (with_reducible first
    | assumption | intro _ | exact frameSub_trans (by decide) hl | exact frameKey_of hl (by decide) | exact hk
    | exact frameKey_regs (frameSub_mem hl (by decide)) | apply windowDo_only | apply spiOutput_only | dsimp +zetaDelta only)

theorem Nv.compact_window (n : Nv) : n.compact.win = n.win := by
  unfold Nv.compact; dsimp only; unfold Nv.setArea; split <;> rfl

theorem Nv.dropOther_window (n : Nv) : n.dropOther.win = n.win := by unfold Nv.dropOther; split <;> rfl

theorem compactionGood_only (s : State) (hl : frameSub [.nv, .freeCtr] [] pl pk = true) (hs : OnlyIn pl pk os s) :
    OnlyIn pl pk os (State.compactionGood s) := by
  unfold State.compactionGood
  exact OnlyIn.ite (withNv_only _ _ (frameSub_trans (by decide) hl) (.inr (Nv.compact_window _)) hs)
    (tickFree_only _ (frameSub_trans (by decide) hl)
      (withNv_only _ _ (frameSub_trans (by decide) hl) (.inr (Nv.compact_window _)) hs))

theorem compactionBad_only (s : State) (hl : frameSub [.nv, .log] [] pl pk = true) (hs : OnlyIn pl pk os s) :
    OnlyIn pl pk os (State.compactionBad s) := by
  unfold State.compactionBad
  exact pushLog_only _ _ _ (frameSub_trans (by decide) hl)
    (withNv_only _ _ (frameSub_trans (by decide) hl) (.inr (Nv.dropOther_window _)) hs)

theorem execCompactionDone_only (ok : Bool) (s : State) (hl : frameSub [.nv, .log, .freeCtr] [] pl pk = true) (hs : OnlyIn pl pk os s) :
    ∃ s', execCompactionDone ok s = .next s' ∧ OnlyIn pl pk os s' := by
  unfold execCompactionDone
  refine ⟨_, rfl, ?_⟩
  repeat' (with_reducible first
    | assumption | intro _ | exact frameSub_trans (by decide) hl | exact frameKey_of hl (by decide) | exact hk
    | apply compactionGood_only | apply compactionBad_only | apply OnlyIn.ite | split | dsimp +zetaDelta only)

theorem execBucketLeak_only (n : Nat) (s : State) (hl : frameSub [.regs] [] pl pk = true) (hs : OnlyIn pl pk os s) :
    ∃ s', execBucketLeak n s = .next s' ∧ OnlyIn pl pk os s' := by
  unfold execBucketLeak
  refine ⟨_, rfl, ?_⟩
  repeat' (with_reducible first
    | assumption | intro _ | exact frameSub_trans (by decide) hl | exact frameKey_of hl (by decide) | exact hk
    | exact frameKey_regs (frameSub_mem hl (by decide)) | apply leakBucket_only | apply OnlyIn.ite | split
    | dsimp +zetaDelta only)

end Sys2Proof.Machine
end

