-- ==== Sys2Proof/Laws/FramesLogbook.lean ====
section
/-!
SUPPORT. What the operations of Machine/Logbook.lean change at most.
-/
namespace Sys2Proof.Machine

variable {pl : List Piece} {pk : List Nat} {os : State}

theorem execLogRecordWrite_only (s : State) (hl : frameSub [.klp, .log, .bus] [] pl pk = true) (hs : OnlyIn pl pk os s) :
    ∃ s', execLogRecordWrite s = .next s' ∧ OnlyIn pl pk os s' := by
  unfold execLogRecordWrite
  refine ⟨_, rfl, ?_⟩
  repeat' (with_reducible first
    | assumption | intro _ | exact frameSub_trans (by decide) hl | exact frameKey_of hl (by decide) | exact hk
    | apply writeRecord_only | apply OnlyIn.ite | split | dsimp +zetaDelta only)

theorem streamOut_only (s : State) (c : Bus) (bytes : List Nat) (cursor : Nat) (hl : frameSub [.log, .bus] [] pl pk = true) (hs : OnlyIn pl pk os s) :
    OnlyIn pl pk os (State.streamOut s c bytes cursor) := by
  unfold State.streamOut
  repeat' (with_reducible first
    | assumption | intro _ | exact frameSub_trans (by decide) hl | exact frameKey_of hl (by decide) | exact hk
    | apply enqueue_only | apply withLog_only | apply OnlyIn.foldl | apply OnlyIn.ite | extract_lets | split
    | exact .inl (frameSub_mem hl (by decide)) | exact .inr rfl | ((conv => arg 4; arg 27); apply OnlyIn.of_mk)
    | dsimp +zetaDelta only)

theorem execLogStreamSend_only (s : State) (hl : frameSub [.log, .bus] [] pl pk = true) (hs : OnlyIn pl pk os s) :
    ∃ s', execLogStreamSend s = .next s' ∧ OnlyIn pl pk os s' := by
  unfold execLogStreamSend
  refine ⟨_, rfl, ?_⟩
  repeat' (with_reducible first
    | assumption | intro _ | exact frameSub_trans (by decide) hl | exact frameKey_of hl (by decide) | exact hk
    | apply streamOut_only | apply withLog_only | extract_lets | split | refine OnlyIn.of_pair ?_ (by assumption)
    | exact .inl (frameSub_mem hl (by decide)) | exact .inr rfl | ((conv => arg 4; arg 27); apply OnlyIn.of_mk)
    | dsimp +zetaDelta only)

theorem clearRing_only (s : State) (id : Nat) (hl : frameSub [.log] [] pl pk = true) (hs : OnlyIn pl pk os s) :
    OnlyIn pl pk os (State.clearRing s id) := by
  unfold State.clearRing
  repeat' (with_reducible first
    | assumption | intro _ | exact frameSub_trans (by decide) hl | exact frameKey_of hl (by decide) | exact hk
    | apply withLog_only | apply pushLog_only | extract_lets | exact .inl (frameSub_mem hl (by decide)) | exact .inr rfl
    | ((conv => arg 4; arg 27); apply OnlyIn.of_mk) | dsimp +zetaDelta only)

theorem logClearRule_only (id : Nat) (s : State) (v : Nat) (hl : frameSub [.log] [] pl pk = true) (hs : OnlyIn pl pk os s) :
    OnlyIn pl pk os (logClearRule id s v).2 := by
  unfold logClearRule
  repeat' (with_reducible first
    | assumption | intro _ | exact frameSub_trans (by decide) hl | exact frameKey_of hl (by decide) | exact hk
    | apply clearRing_only | apply withLog_only | apply OnlyIn.ite | extract_lets | split
    | exact .inl (frameSub_mem hl (by decide)) | exact .inr rfl | ((conv => arg 4; arg 27); apply OnlyIn.of_mk)
    | dsimp +zetaDelta only)

theorem execLogClearWrite_only (w : Wr) (s : State) (hl : frameSub [.klp, .log] [] pl pk = true) (hs : OnlyIn pl pk os s) :
    ∃ s', execLogClearWrite w s = .next s' ∧ OnlyIn pl pk os s' := by
  unfold execLogClearWrite
  refine ⟨_, rfl, ?_⟩
  repeat' (with_reducible first
    | assumption | intro _ | exact frameSub_trans (by decide) hl | exact frameKey_of hl (by decide) | exact hk
    | apply ledgerWrite_only | apply logClearRule_only | dsimp +zetaDelta only)

theorem execLogCursorWrite_only (w : Wr) (s : State) (hl : frameSub [.klp, .log] [] pl pk = true) (hs : OnlyIn pl pk os s) :
    ∃ s', execLogCursorWrite w s = .next s' ∧ OnlyIn pl pk os s' := by
  unfold execLogCursorWrite
  refine ⟨_, rfl, ?_⟩
  repeat' (with_reducible first
    | assumption | intro _ | exact frameSub_trans (by decide) hl | exact frameKey_of hl (by decide) | exact hk
    | apply ledgerWrite_only | apply withLog_only | exact .inl (frameSub_mem hl (by decide)) | exact .inr rfl
    | ((conv => arg 4; arg 27); apply OnlyIn.of_mk) | dsimp +zetaDelta only)

end Sys2Proof.Machine
end

