-- ==== Sys2Proof/Laws/FramesClock.lean ====
section
/-!
SUPPORT. What the operations of Machine/Clock.lean change at most.
-/
namespace Sys2Proof.Machine

variable {pl : List Piece} {pk : List Nat} {os : State}

theorem moorTo_only (s : State) (m : Mooring) (hl : frameSub [.rtc] [] pl pk = true) (hs : OnlyIn pl pk os s) :
    OnlyIn pl pk os (State.moorTo s m) := by
  unfold State.moorTo
  repeat' (with_reducible first
    | assumption | intro _ | exact frameSub_trans (by decide) hl | exact frameKey_of hl (by decide) | exact hk
    | apply withRtc_only | extract_lets | exact .inl (frameSub_mem hl (by decide)) | exact .inr rfl
    | ((conv => arg 4; arg 27); apply OnlyIn.of_mk) | dsimp +zetaDelta only)

theorem enterBackup_only (s : State) (hl : frameSub [.rtc, .freeCtr] [] pl pk = true) (hs : OnlyIn pl pk os s) :
    OnlyIn pl pk os (State.enterBackup s) := by
  unfold State.enterBackup
  repeat' (with_reducible first
    | assumption | intro _ | exact frameSub_trans (by decide) hl | exact frameKey_of hl (by decide) | exact hk
    | apply withRtc_only | apply tickFree_only | apply OnlyIn.ite | extract_lets | split
    | exact .inl (frameSub_mem hl (by decide)) | exact .inr rfl | ((conv => arg 4; arg 27); apply OnlyIn.of_mk)
    | dsimp +zetaDelta only)

theorem execVaonLoss_only (vbak : Nat) (s : State) (hl : frameSub [.rtc, .freeCtr] [] pl pk = true) (hs : OnlyIn pl pk os s) :
    ∃ s', execVaonLoss vbak s = .next s' ∧ OnlyIn pl pk os s' := by
  unfold execVaonLoss
  refine ⟨_, rfl, ?_⟩
  repeat' (with_reducible first
    | assumption | intro _ | exact frameSub_trans (by decide) hl | exact frameKey_of hl (by decide) | exact hk
    | apply enterBackup_only | apply moorTo_only | apply OnlyIn.ite | split | dsimp +zetaDelta only)

theorem execVaonReturn_only (s : State) (hl : frameSub [.rtc] [] pl pk = true) (hs : OnlyIn pl pk os s) :
    ∃ s', execVaonReturn s = .next s' ∧ OnlyIn pl pk os s' := by
  unfold execVaonReturn
  refine ⟨_, rfl, ?_⟩
  repeat' (with_reducible first
    | assumption | intro _ | exact frameSub_trans (by decide) hl | exact frameKey_of hl (by decide) | exact hk
    | apply moorTo_only | apply OnlyIn.ite | split | dsimp +zetaDelta only)

theorem execVbakDrop_only (s : State) (hl : frameSub [.rtc] [] pl pk = true) (hs : OnlyIn pl pk os s) :
    ∃ s', execVbakDrop s = .next s' ∧ OnlyIn pl pk os s' := by
  unfold execVbakDrop
  refine ⟨_, rfl, ?_⟩
  repeat' (with_reducible first
    | assumption | intro _ | exact frameSub_trans (by decide) hl | exact frameKey_of hl (by decide) | exact hk
    | apply moorTo_only | apply OnlyIn.ite | split | dsimp +zetaDelta only)

theorem execVbakReturn_only (s : State) (hl : frameSub [.rtc, .freeCtr] [] pl pk = true) (hs : OnlyIn pl pk os s) :
    ∃ s', execVbakReturn s = .next s' ∧ OnlyIn pl pk os s' := by
  unfold execVbakReturn
  refine ⟨_, rfl, ?_⟩
  repeat' (with_reducible first
    | assumption | intro _ | exact frameSub_trans (by decide) hl | exact frameKey_of hl (by decide) | exact hk
    | apply enterBackup_only | apply OnlyIn.ite | split | dsimp +zetaDelta only)

theorem execBridgeTimeout_only (s : State) (hl : frameSub [.rtc] [] pl pk = true) (hs : OnlyIn pl pk os s) :
    ∃ s', execBridgeTimeout s = .next s' ∧ OnlyIn pl pk os s' := by
  unfold execBridgeTimeout
  refine ⟨_, rfl, ?_⟩
  repeat' (with_reducible first
    | assumption | intro _ | exact frameSub_trans (by decide) hl | exact frameKey_of hl (by decide) | exact hk
    | apply moorTo_only | apply OnlyIn.ite | split | dsimp +zetaDelta only)

theorem rtcDefaults_only (s : State) (hl : frameSub [.regs] [] pl pk = true) (hs : OnlyIn pl pk os s) :
    OnlyIn pl pk os (State.rtcDefaults s) := by
  unfold State.rtcDefaults
  repeat' (with_reducible first
    | assumption | intro _ | exact frameSub_trans (by decide) hl | exact frameKey_of hl (by decide) | exact hk
    | exact frameKey_regs (frameSub_mem hl (by decide)) | apply setReg_only | apply OnlyIn.foldl | dsimp +zetaDelta only)

theorem execMooringDomainStart_only (main : Bool) (s : State) (hl : frameSub [.regs, .log, .rtc, .loop, .freeCtr] [] pl pk = true) (hs : OnlyIn pl pk os s) :
    ∃ s', execMooringDomainStart main s = .next s' ∧ OnlyIn pl pk os s' := by
  unfold execMooringDomainStart
  refine ⟨_, rfl, ?_⟩
  repeat' (with_reducible first
    | assumption | intro _ | exact frameSub_trans (by decide) hl | exact frameKey_of hl (by decide) | exact hk
    | exact frameKey_regs (frameSub_mem hl (by decide)) | apply withRtc_only | apply rtcDefaults_only | apply enterBackup_only
    | apply timeLost_only | apply evalPrograms_only | apply OnlyIn.ite | extract_lets | split
    | exact .inl (frameSub_mem hl (by decide)) | exact .inr rfl | ((conv => arg 4; arg 27); apply OnlyIn.of_mk)
    | dsimp +zetaDelta only)

theorem execXtal32Stop_only (s : State) (hl : frameSub [.rtc] [] pl pk = true) (hs : OnlyIn pl pk os s) :
    ∃ s', execXtal32Stop s = .next s' ∧ OnlyIn pl pk os s' := by
  unfold execXtal32Stop
  refine ⟨_, rfl, ?_⟩
  repeat' (with_reducible first
    | assumption | intro _ | exact frameSub_trans (by decide) hl | exact frameKey_of hl (by decide) | exact hk
    | apply withRtc_only | extract_lets | exact .inl (frameSub_mem hl (by decide)) | exact .inr rfl
    | ((conv => arg 4; arg 27); apply OnlyIn.of_mk) | dsimp +zetaDelta only)

theorem execXtal32Return_only (s : State) (hl : frameSub [.rtc] [] pl pk = true) (hs : OnlyIn pl pk os s) :
    ∃ s', execXtal32Return s = .next s' ∧ OnlyIn pl pk os s' := by
  unfold execXtal32Return
  refine ⟨_, rfl, ?_⟩
  repeat' (with_reducible first
    | assumption | intro _ | exact frameSub_trans (by decide) hl | exact frameKey_of hl (by decide) | exact hk
    | apply withRtc_only | extract_lets | exact .inl (frameSub_mem hl (by decide)) | exact .inr rfl
    | ((conv => arg 4; arg 27); apply OnlyIn.of_mk) | dsimp +zetaDelta only)

theorem rejectTime_only (s : State) (v : Nat) (hl : frameSub [.log, .rtc] [] pl pk = true) (hs : OnlyIn pl pk os s) :
    OnlyIn pl pk os (State.rejectTime s v) := by
  unfold State.rejectTime
  repeat' (with_reducible first
    | assumption | intro _ | exact frameSub_trans (by decide) hl | exact frameKey_of hl (by decide) | exact hk
    | apply withRtc_only | apply pushLog_only | extract_lets | exact .inl (frameSub_mem hl (by decide)) | exact .inr rfl
    | ((conv => arg 4; arg 27); apply OnlyIn.of_mk) | dsimp +zetaDelta only)

theorem dateTimeRule_only (s : State) (v : Nat) (hl : frameSub [.regs, .power, .log, .rtc, .loop, .video, .pwr, .freeCtr] [] pl pk = true) (hs : OnlyIn pl pk os s) :
    OnlyIn pl pk os (dateTimeRule s v).2 := by
  unfold dateTimeRule
  repeat' (with_reducible first
    | assumption | intro _ | exact frameSub_trans (by decide) hl | exact frameKey_of hl (by decide) | exact hk
    | exact frameKey_regs (frameSub_mem hl (by decide)) | apply rejectTime_only | apply setCalendar_only | apply OnlyIn.ite
    | split | dsimp +zetaDelta only)

theorem execDateTimeWrite_only (w : Wr) (s : State) (hl : frameSub [.regs, .power, .klp, .log, .rtc, .loop, .video, .pwr, .freeCtr] [] pl pk = true) (hs : OnlyIn pl pk os s) :
    ∃ s', execDateTimeWrite w s = .next s' ∧ OnlyIn pl pk os s' := by
  unfold execDateTimeWrite
  refine ⟨_, rfl, ?_⟩
  repeat' (with_reducible first
    | assumption | intro _ | exact frameSub_trans (by decide) hl | exact frameKey_of hl (by decide) | exact hk
    | exact frameKey_regs (frameSub_mem hl (by decide)) | apply ledgerWrite_only | apply dateTimeRule_only
    | dsimp +zetaDelta only)

theorem calendarOffsetRule_only (s : State) (v : Nat) (hl : frameSub [.regs, .power, .log, .rtc, .loop, .video, .pwr, .freeCtr] [] pl pk = true) (hs : OnlyIn pl pk os s) :
    OnlyIn pl pk os (calendarOffsetRule s v).2 := by
  unfold calendarOffsetRule
  repeat' (with_reducible first
    | assumption | intro _ | exact frameSub_trans (by decide) hl | exact frameKey_of hl (by decide) | exact hk
    | exact frameKey_regs (frameSub_mem hl (by decide)) | apply setCalendar_only | apply OnlyIn.ite | extract_lets | split
    | dsimp +zetaDelta only)

theorem execCalendarOffsetWrite_only (w : Wr) (s : State) (hl : frameSub [.regs, .power, .klp, .log, .rtc, .loop, .video, .pwr, .freeCtr] [] pl pk = true) (hs : OnlyIn pl pk os s) :
    ∃ s', execCalendarOffsetWrite w s = .next s' ∧ OnlyIn pl pk os s' := by
  unfold execCalendarOffsetWrite
  refine ⟨_, rfl, ?_⟩
  repeat' (with_reducible first
    | assumption | intro _ | exact frameSub_trans (by decide) hl | exact frameKey_of hl (by decide) | exact hk
    | exact frameKey_regs (frameSub_mem hl (by decide)) | apply ledgerWrite_only | apply calendarOffsetRule_only
    | dsimp +zetaDelta only)

theorem subsecRule_only (s : State) (v : Nat) (hl : frameSub [.log, .rtc] [] pl pk = true) (hs : OnlyIn pl pk os s) :
    OnlyIn pl pk os (subsecRule s v).2 := by
  unfold subsecRule
  repeat' (with_reducible first
    | assumption | intro _ | exact frameSub_trans (by decide) hl | exact frameKey_of hl (by decide) | exact hk
    | apply startSlew_only | apply OnlyIn.ite | extract_lets | split | exact .inl (frameSub_mem hl (by decide)) | exact .inr rfl
    | ((conv => arg 4; arg 27); apply OnlyIn.of_mk) | dsimp +zetaDelta only)

theorem execSubsecShiftWrite_only (w : Wr) (s : State) (hl : frameSub [.klp, .log, .rtc] [] pl pk = true) (hs : OnlyIn pl pk os s) :
    ∃ s', execSubsecShiftWrite w s = .next s' ∧ OnlyIn pl pk os s' := by
  unfold execSubsecShiftWrite
  refine ⟨_, rfl, ?_⟩
  repeat' (with_reducible first
    | assumption | intro _ | exact frameSub_trans (by decide) hl | exact frameKey_of hl (by decide) | exact hk
    | apply ledgerWrite_only | apply subsecRule_only | dsimp +zetaDelta only)

theorem execSubsecSlewDone_only (s : State) (hl : frameSub [.rtc] [] pl pk = true) (hs : OnlyIn pl pk os s) :
    ∃ s', execSubsecSlewDone s = .next s' ∧ OnlyIn pl pk os s' := by
  unfold execSubsecSlewDone
  refine ⟨_, rfl, ?_⟩
  repeat' (with_reducible first
    | assumption | intro _ | exact frameSub_trans (by decide) hl | exact frameKey_of hl (by decide) | exact hk
    | apply withRtc_only | extract_lets | exact .inl (frameSub_mem hl (by decide)) | exact .inr rfl
    | ((conv => arg 4; arg 27); apply OnlyIn.of_mk) | dsimp +zetaDelta only)

theorem dstRule_only (s : State) (v : Nat) (hl : frameSub [.regs, .power, .log, .rtc, .loop, .video, .pwr, .freeCtr] [] pl pk = true) (hs : OnlyIn pl pk os s) :
    OnlyIn pl pk os (dstRule s v).2 := by
  unfold dstRule
  repeat' (with_reducible first
    | assumption | intro _ | exact frameSub_trans (by decide) hl | exact frameKey_of hl (by decide) | exact hk
    | exact frameKey_regs (frameSub_mem hl (by decide)) | apply dstStep_only | apply OnlyIn.ite | split | dsimp +zetaDelta only)

theorem dstWrite_only (s : State) (r : Req) (code : Nat) (hl : frameSub [.regs, .power, .klp, .log, .rtc, .loop, .video, .pwr, .freeCtr] [] pl pk = true) (hs : OnlyIn pl pk os s) :
    OnlyIn pl pk os (State.dstWrite s r code) := by
  unfold State.dstWrite
  repeat' (with_reducible first
    | assumption | intro _ | exact frameSub_trans (by decide) hl | exact frameKey_of hl (by decide) | exact hk
    | exact frameKey_regs (frameSub_mem hl (by decide)) | apply ledgerWrite_only | apply dstRule_only | dsimp +zetaDelta only)

theorem execDstForward_only (r : Req) (s : State) (hl : frameSub [.regs, .power, .klp, .log, .rtc, .loop, .video, .pwr, .freeCtr] [] pl pk = true) (hs : OnlyIn pl pk os s) :
    ∃ s', execDstForward r s = .next s' ∧ OnlyIn pl pk os s' := by
  unfold execDstForward
  refine ⟨_, rfl, ?_⟩
  repeat' (with_reducible first
    | assumption | intro _ | exact frameSub_trans (by decide) hl | exact frameKey_of hl (by decide) | exact hk
    | exact frameKey_regs (frameSub_mem hl (by decide)) | apply dstWrite_only | dsimp +zetaDelta only)

theorem execDstBack_only (r : Req) (s : State) (hl : frameSub [.regs, .power, .klp, .log, .rtc, .loop, .video, .pwr, .freeCtr] [] pl pk = true) (hs : OnlyIn pl pk os s) :
    ∃ s', execDstBack r s = .next s' ∧ OnlyIn pl pk os s' := by
  unfold execDstBack
  refine ⟨_, rfl, ?_⟩
  repeat' (with_reducible first
    | assumption | intro _ | exact frameSub_trans (by decide) hl | exact frameKey_of hl (by decide) | exact hk
    | exact frameKey_regs (frameSub_mem hl (by decide)) | apply dstWrite_only | dsimp +zetaDelta only)

theorem execCalendarSecond_only (s : State) (hl : frameSub [.power, .rtc, .video, .pwr, .freeCtr] [] pl pk = true) (hs : OnlyIn pl pk os s) :
    ∃ s', execCalendarSecond s = .next s' ∧ OnlyIn pl pk os s' := by
  unfold execCalendarSecond
  refine ⟨_, rfl, ?_⟩
  repeat' (with_reducible first
    | assumption | intro _ | exact frameSub_trans (by decide) hl | exact frameKey_of hl (by decide) | exact hk
    | apply evalAlarms_only | apply withRtc_only | apply OnlyIn.ite | extract_lets | split
    | exact .inl (frameSub_mem hl (by decide)) | exact .inr rfl | ((conv => arg 4; arg 27); apply OnlyIn.of_mk)
    | dsimp +zetaDelta only)

theorem alarmMatchRule_only (n : Nat) (s : State) (v : Nat) (hl : frameSub [.regs, .nv, .log] [] pl pk = true) (hs : OnlyIn pl pk os s) :
    OnlyIn pl pk os (alarmMatchRule n s v).2 := by
  unfold alarmMatchRule
  repeat' (with_reducible first
    | assumption | intro _ | exact frameSub_trans (by decide) hl | exact frameKey_of hl (by decide) | exact hk
    | exact frameKey_regs (frameSub_mem hl (by decide)) | apply putEntry_only | apply OnlyIn.ite | split | dsimp +zetaDelta only)

theorem execAlarmMatchWrite_only (n : Nat) (w : Wr) (s : State) (hl : frameSub [.regs, .klp, .nv, .log] [] pl pk = true) (hs : OnlyIn pl pk os s) :
    ∃ s', execAlarmMatchWrite n w s = .next s' ∧ OnlyIn pl pk os s' := by
  unfold execAlarmMatchWrite
  refine ⟨_, rfl, ?_⟩
  repeat' (with_reducible first
    | assumption | intro _ | exact frameSub_trans (by decide) hl | exact frameKey_of hl (by decide) | exact hk
    | exact frameKey_regs (frameSub_mem hl (by decide)) | apply ledgerWrite_only | apply alarmMatchRule_only
    | dsimp +zetaDelta only)

theorem alarmStatusRule_only (n : Nat) (s : State) (v : Nat) (hl : frameSub [.rtc] [] pl pk = true) (hs : OnlyIn pl pk os s) :
    OnlyIn pl pk os (alarmStatusRule n s v).2 := by
  unfold alarmStatusRule
  repeat' (with_reducible first
    | assumption | intro _ | exact frameSub_trans (by decide) hl | exact frameKey_of hl (by decide) | exact hk
    | apply withRtc_only | apply OnlyIn.ite | extract_lets | split | exact .inl (frameSub_mem hl (by decide)) | exact .inr rfl
    | ((conv => arg 4; arg 27); apply OnlyIn.of_mk) | dsimp +zetaDelta only)

theorem execAlarmStatusWrite_only (n : Nat) (w : Wr) (s : State) (hl : frameSub [.klp, .rtc] [] pl pk = true) (hs : OnlyIn pl pk os s) :
    ∃ s', execAlarmStatusWrite n w s = .next s' ∧ OnlyIn pl pk os s' := by
  unfold execAlarmStatusWrite
  refine ⟨_, rfl, ?_⟩
  repeat' (with_reducible first
    | assumption | intro _ | exact frameSub_trans (by decide) hl | exact frameKey_of hl (by decide) | exact hk
    | apply ledgerWrite_only | apply alarmStatusRule_only | dsimp +zetaDelta only)

theorem execTrimWindow_only (temp : Int) (vbak : Nat) (s : State) (hl : frameSub [.rtc] [] pl pk = true) (hs : OnlyIn pl pk os s) :
    ∃ s', execTrimWindow temp vbak s = .next s' ∧ OnlyIn pl pk os s' := by
  unfold execTrimWindow
  refine ⟨_, rfl, ?_⟩
  repeat' (with_reducible first
    | assumption | intro _ | exact frameSub_trans (by decide) hl | exact frameKey_of hl (by decide) | exact hk
    | apply withRtc_only | apply OnlyIn.ite | extract_lets | split | exact .inl (frameSub_mem hl (by decide)) | exact .inr rfl
    | ((conv => arg 4; arg 27); apply OnlyIn.of_mk) | dsimp +zetaDelta only)

theorem execTimeFrameSend_only (s : State) (hl : frameSub [.rtc, .bus] [] pl pk = true) (hs : OnlyIn pl pk os s) :
    ∃ s', execTimeFrameSend s = .next s' ∧ OnlyIn pl pk os s' := by
  unfold execTimeFrameSend
  refine ⟨_, rfl, ?_⟩
  repeat' (with_reducible first
    | assumption | intro _ | exact frameSub_trans (by decide) hl | exact frameKey_of hl (by decide) | exact hk
    | apply withRtc_only | apply sendTime_only | apply OnlyIn.ite | extract_lets | split
    | refine OnlyIn.of_pair ?_ (by assumption) | exact .inl (frameSub_mem hl (by decide)) | exact .inr rfl
    | ((conv => arg 4; arg 27); apply OnlyIn.of_mk) | dsimp +zetaDelta only)

end Sys2Proof.Machine
end

