-- ==== Sys2Proof/Laws/FramesTestPort.lean ====
section
/-!
SUPPORT. What the operations of Machine/TestPort.lean change at most.
-/
namespace Sys2Proof.Machine

variable {pl : List Piece} {pk : List Nat} {os : State}

theorem jtagTake_only (s : State) (i : JtagIr) (gated : Bool) (hl : frameSub [.jtag] [] pl pk = true) (hs : OnlyIn pl pk os s) :
    OnlyIn pl pk os (State.jtagTake s i gated) := by
  unfold State.jtagTake
  repeat' (with_reducible first
    | assumption | intro _ | exact frameSub_trans (by decide) hl | exact frameKey_of hl (by decide) | exact hk
    | apply OnlyIn.ite | extract_lets | split | exact .inl (frameSub_mem hl (by decide)) | exact .inr rfl
    | ((conv => arg 4; arg 27); apply OnlyIn.of_mk) | dsimp +zetaDelta only)

theorem execJtagBypass_only (s : State) (hl : frameSub [.jtag] [] pl pk = true) (hs : OnlyIn pl pk os s) :
    ∃ s', execJtagBypass s = .next s' ∧ OnlyIn pl pk os s' := by
  unfold execJtagBypass
  refine ⟨_, rfl, ?_⟩
  repeat' (with_reducible first
    | assumption | intro _ | exact frameSub_trans (by decide) hl | exact frameKey_of hl (by decide) | exact hk
    | apply jtagTake_only | dsimp +zetaDelta only)

theorem execJtagIdcode_only (s : State) (hl : frameSub [.jtag] [] pl pk = true) (hs : OnlyIn pl pk os s) :
    ∃ s', execJtagIdcode s = .next s' ∧ OnlyIn pl pk os s' := by
  unfold execJtagIdcode
  refine ⟨_, rfl, ?_⟩
  repeat' (with_reducible first
    | assumption | intro _ | exact frameSub_trans (by decide) hl | exact frameKey_of hl (by decide) | exact hk
    | apply jtagTake_only | dsimp +zetaDelta only)

theorem execJtagSamplePreload_only (s : State) (hl : frameSub [.jtag] [] pl pk = true) (hs : OnlyIn pl pk os s) :
    ∃ s', execJtagSamplePreload s = .next s' ∧ OnlyIn pl pk os s' := by
  unfold execJtagSamplePreload
  refine ⟨_, rfl, ?_⟩
  repeat' (with_reducible first
    | assumption | intro _ | exact frameSub_trans (by decide) hl | exact frameKey_of hl (by decide) | exact hk
    | apply jtagTake_only | dsimp +zetaDelta only)

theorem execJtagExtest_only (s : State) (hl : frameSub [.jtag] [] pl pk = true) (hs : OnlyIn pl pk os s) :
    ∃ s', execJtagExtest s = .next s' ∧ OnlyIn pl pk os s' := by
  unfold execJtagExtest
  refine ⟨_, rfl, ?_⟩
  repeat' (with_reducible first
    | assumption | intro _ | exact frameSub_trans (by decide) hl | exact frameKey_of hl (by decide) | exact hk
    | apply jtagTake_only | dsimp +zetaDelta only)

theorem execJtagHighz_only (s : State) (hl : frameSub [.jtag] [] pl pk = true) (hs : OnlyIn pl pk os s) :
    ∃ s', execJtagHighz s = .next s' ∧ OnlyIn pl pk os s' := by
  unfold execJtagHighz
  refine ⟨_, rfl, ?_⟩
  repeat' (with_reducible first
    | assumption | intro _ | exact frameSub_trans (by decide) hl | exact frameKey_of hl (by decide) | exact hk
    | apply jtagTake_only | dsimp +zetaDelta only)

theorem execJtagClamp_only (s : State) (hl : frameSub [.jtag] [] pl pk = true) (hs : OnlyIn pl pk os s) :
    ∃ s', execJtagClamp s = .next s' ∧ OnlyIn pl pk os s' := by
  unfold execJtagClamp
  refine ⟨_, rfl, ?_⟩
  repeat' (with_reducible first
    | assumption | intro _ | exact frameSub_trans (by decide) hl | exact frameKey_of hl (by decide) | exact hk
    | apply jtagTake_only | dsimp +zetaDelta only)

theorem execTrstAssert_only (s : State) (hl : frameSub [.jtag] [] pl pk = true) (hs : OnlyIn pl pk os s) :
    ∃ s', execTrstAssert s = .next s' ∧ OnlyIn pl pk os s' := by
  unfold execTrstAssert
  refine ⟨_, rfl, ?_⟩
  repeat' (with_reducible first
    | assumption | intro _ | exact frameSub_trans (by decide) hl | exact frameKey_of hl (by decide) | exact hk | extract_lets
    | exact .inl (frameSub_mem hl (by decide)) | exact .inr rfl | ((conv => arg 4; arg 27); apply OnlyIn.of_mk)
    | dsimp +zetaDelta only)

end Sys2Proof.Machine
end

