-- ==== Sys2Proof/Laws/FramesEntryRules.lean ====
section
/-!
SUPPORT. What the operations of Machine/EntryRules.lean change at most.
-/
namespace Sys2Proof.Machine

variable {pl : List Piece} {pk : List Nat} {os : State}

theorem calCommandRule_only (r : Req) (s : State) (v : Nat) (hl : frameSub [.focal, .cal] [] pl pk = true) (hs : OnlyIn pl pk os s) :
    OnlyIn pl pk os (calCommandRule r s v).2 := by
  unfold calCommandRule
  repeat' (with_reducible first
    | assumption | intro _ | exact frameSub_trans (by decide) hl | exact frameKey_of hl (by decide) | exact hk
    | apply calCycleRule_only | apply calCycleRefRule_only | apply calAbortRule_only | apply calQualifySparesRule_only
    | apply calShutterTestRule_only | apply calLoadFactoryRule_only | extract_lets | split
    | refine OnlyIn.of_pair ?_ (by assumption) | exact .inl (frameSub_mem hl (by decide)) | exact .inr rfl
    | ((conv => arg 4; arg 27); apply OnlyIn.of_mk) | dsimp +zetaDelta only)

theorem hmCommandRule_only (s : State) (v : Nat) (hl : frameSub [.tide, .hm, .klp, .nv, .log, .bus, .loop, .act, .panel, .pwr, .slip, .freeCtr] [Reg.OWNER_MS, Reg.SALVAGE_SUPPRESSED, Reg.STACK_OVERFLOWS, Reg.STORM_ENTRIES, Reg.TABLE_TAKEOVERS] pl pk = true) (hs : OnlyIn pl pk os s) :
    OnlyIn pl pk os (hmCommandRule s v).2 := by
  unfold hmCommandRule
  repeat' (with_reducible first
    | assumption | intro _ | exact frameSub_trans (by decide) hl | exact frameKey_of hl (by decide) | exact hk
    | apply hmSwapRule_only | apply hmRejoinTestRule_only | apply hmStormExitRule_only | apply hmStormEnterRule_only
    | apply hmRetireARule_only | apply hmRetireBRule_only | apply hmClearCountsRule_only | extract_lets | split
    | refine OnlyIn.of_pair ?_ (by assumption) | exact .inl (frameSub_mem hl (by decide)) | exact .inr rfl
    | ((conv => arg 4; arg 27); apply OnlyIn.of_mk) | dsimp +zetaDelta only)

theorem slipCommandRule_only (s : State) (v : Nat) (hl : frameSub [.hm, .klp, .nv, .log, .pwr, .slip] [Reg.BOOT_SLOT, Reg.BOOT_TRIAL, Reg.SECURITY_FLOOR] pl pk = true) (hs : OnlyIn pl pk os s) :
    OnlyIn pl pk os (slipCommandRule s v).2 := by
  unfold slipCommandRule
  repeat' (with_reducible first
    | assumption | intro _ | exact frameSub_trans (by decide) hl | exact frameKey_of hl (by decide) | exact hk
    | apply slipLoadStandbyRule_only | apply slipSwapRule_only | apply slipCommitRule_only | apply slipRollbackRule_only
    | apply slipAbortRule_only | apply slipInstallResetRule_only | extract_lets | split
    | refine OnlyIn.of_pair ?_ (by assumption) | exact .inl (frameSub_mem hl (by decide)) | exact .inr rfl
    | ((conv => arg 4; arg 27); apply OnlyIn.of_mk) | dsimp +zetaDelta only)

theorem vc1Rule_only (s : State) (v : Nat) (hl : frameSub [.nv, .log] [Reg.VC1_ENABLE] pl pk = true) (hs : OnlyIn pl pk os s) :
    OnlyIn pl pk os (vc1Rule s v).2 := by
  unfold vc1Rule
  repeat' (with_reducible first
    | assumption | intro _ | exact frameSub_trans (by decide) hl | exact frameKey_of hl (by decide) | exact hk
    | apply plainRule_only | apply OnlyIn.ite | extract_lets | split | exact .inl (frameSub_mem hl (by decide)) | exact .inr rfl
    | ((conv => arg 4; arg 27); apply OnlyIn.of_mk) | dsimp +zetaDelta only)

theorem tagLinesRule_only (s : State) (v : Nat) (hl : frameSub [.nv, .log] [Reg.TAG_LINES] pl pk = true) (hs : OnlyIn pl pk os s) :
    OnlyIn pl pk os (tagLinesRule s v).2 := by
  unfold tagLinesRule
  repeat' (with_reducible first
    | assumption | intro _ | exact frameSub_trans (by decide) hl | exact frameKey_of hl (by decide) | exact hk
    | apply plainRule_only | apply OnlyIn.ite | extract_lets | split | exact .inl (frameSub_mem hl (by decide)) | exact .inr rfl
    | ((conv => arg 4; arg 27); apply OnlyIn.of_mk) | dsimp +zetaDelta only)

theorem outMinRule_only (l : Nat) (s : State) (v : Nat) (hl : frameSub [.regs, .nv, .log] [] pl pk = true) (hs : OnlyIn pl pk os s) :
    OnlyIn pl pk os (outMinRule l s v).2 := by
  unfold outMinRule
  repeat' (with_reducible first
    | assumption | intro _ | exact frameSub_trans (by decide) hl | exact frameKey_of hl (by decide) | exact hk
    | exact frameKey_regs (frameSub_mem hl (by decide)) | apply plainRule_only | apply OnlyIn.ite | split
    | dsimp +zetaDelta only)

theorem outMaxRule_only (l : Nat) (s : State) (v : Nat) (hl : frameSub [.regs, .nv, .log] [] pl pk = true) (hs : OnlyIn pl pk os s) :
    OnlyIn pl pk os (outMaxRule l s v).2 := by
  unfold outMaxRule
  repeat' (with_reducible first
    | assumption | intro _ | exact frameSub_trans (by decide) hl | exact frameKey_of hl (by decide) | exact hk
    | exact frameKey_regs (frameSub_mem hl (by decide)) | apply plainRule_only | apply OnlyIn.ite | split
    | dsimp +zetaDelta only)

theorem scheduleRule_only (key : Nat) (s : State) (v : Nat) (hl : frameSub [.regs, .nv, .log, .loop] [] pl pk = true) (hs : OnlyIn pl pk os s) :
    OnlyIn pl pk os (scheduleRule key s v).2 := by
  unfold scheduleRule
  repeat' (with_reducible first
    | assumption | intro _ | exact frameSub_trans (by decide) hl | exact frameKey_of hl (by decide) | exact hk
    | exact frameKey_regs (frameSub_mem hl (by decide)) | apply andThen_only | apply plainRule_only | apply evalPrograms_only
    | dsimp +zetaDelta only)

theorem masterSourceRule_only (s : State) (v : Nat) (hl : frameSub [.regs, .klp, .nv, .log, .loop] [] pl pk = true) (hs : OnlyIn pl pk os s) :
    OnlyIn pl pk os (masterSourceRule s v).2 := by
  unfold masterSourceRule
  repeat' (with_reducible first
    | assumption | intro _ | exact frameSub_trans (by decide) hl | exact frameKey_of hl (by decide) | exact hk
    | exact frameKey_regs (frameSub_mem hl (by decide)) | apply andThen_only | apply plainRule_only | apply engineHolds_only
    | apply noteAutonomous_only | apply OnlyIn.ite | extract_lets | split | exact .inl (frameSub_mem hl (by decide))
    | exact .inr rfl | ((conv => arg 4; arg 27); apply OnlyIn.of_mk) | dsimp +zetaDelta only)

theorem presenceRule_only (z : Nat) (s : State) (v : Nat) (hl : frameSub [.regs, .nv, .log, .loop] [] pl pk = true) (hs : OnlyIn pl pk os s) :
    OnlyIn pl pk os (presenceRule z s v).2 := by
  unfold presenceRule
  repeat' (with_reducible first
    | assumption | intro _ | exact frameSub_trans (by decide) hl | exact frameKey_of hl (by decide) | exact hk
    | exact frameKey_regs (frameSub_mem hl (by decide)) | apply scheduleRule_only | apply OnlyIn.ite | extract_lets | split
    | dsimp +zetaDelta only)

theorem fanTachsRule_only (c : Nat) (s : State) (v : Nat) (hl : frameSub [.regs, .nv, .log, .act] [] pl pk = true) (hs : OnlyIn pl pk os s) :
    OnlyIn pl pk os (fanTachsRule c s v).2 := by
  unfold fanTachsRule
  repeat' (with_reducible first
    | assumption | intro _ | exact frameSub_trans (by decide) hl | exact frameKey_of hl (by decide) | exact hk
    | exact frameKey_regs (frameSub_mem hl (by decide)) | apply andThen_only | apply plainRule_only | apply setTach_only
    | apply OnlyIn.foldl | apply OnlyIn.ite | extract_lets | split | exact .inl (frameSub_mem hl (by decide)) | exact .inr rfl
    | ((conv => arg 4; arg 27); apply OnlyIn.of_mk) | dsimp +zetaDelta only)

theorem panelTempRule_only (s : State) (v : Nat) (hl : frameSub [.nv, .log] [Reg.PANEL_TEMP_CHANNEL] pl pk = true) (hs : OnlyIn pl pk os s) :
    OnlyIn pl pk os (panelTempRule s v).2 := by
  unfold panelTempRule
  repeat' (with_reducible first
    | assumption | intro _ | exact frameSub_trans (by decide) hl | exact frameKey_of hl (by decide) | exact hk
    | apply putEntry_only | apply OnlyIn.ite | split | exact .inl (frameSub_mem hl (by decide)) | exact .inr rfl
    | ((conv => arg 4; arg 27); apply OnlyIn.of_mk) | dsimp +zetaDelta only)

theorem lhCellRule_only (n : Nat) (s : State) (v : Nat) (hl : frameSub [.regs, .nv, .log] [] pl pk = true) (hs : OnlyIn pl pk os s) :
    OnlyIn pl pk os (lhCellRule n s v).2 := by
  unfold lhCellRule
  repeat' (with_reducible first
    | assumption | intro _ | exact frameSub_trans (by decide) hl | exact frameKey_of hl (by decide) | exact hk
    | exact frameKey_regs (frameSub_mem hl (by decide)) | apply plainRule_only | apply OnlyIn.ite | split
    | dsimp +zetaDelta only)

theorem resetKeysRule_only (s : State) (v : Nat) (hl : frameSub [.nv, .log] [Reg.RESET_KEYS] pl pk = true) (hs : OnlyIn pl pk os s) :
    OnlyIn pl pk os (resetKeysRule s v).2 := by
  unfold resetKeysRule
  repeat' (with_reducible first
    | assumption | intro _ | exact frameSub_trans (by decide) hl | exact frameKey_of hl (by decide) | exact hk
    | apply putEntry_only | apply OnlyIn.ite | extract_lets | split | exact .inl (frameSub_mem hl (by decide)) | exact .inr rfl
    | ((conv => arg 4; arg 27); apply OnlyIn.of_mk) | dsimp +zetaDelta only)

theorem feedsExpectedRule_only (s : State) (v : Nat) (hl : frameSub [.klp, .nv, .log, .bus, .pwr] [Reg.FEEDS_EXPECTED] pl pk = true) (hs : OnlyIn pl pk os s) :
    OnlyIn pl pk os (feedsExpectedRule s v).2 := by
  unfold feedsExpectedRule
  repeat' (with_reducible first
    | assumption | intro _ | exact frameSub_trans (by decide) hl | exact frameKey_of hl (by decide) | exact hk
    | apply andThen_only | apply plainRule_only | apply withPwr_only | apply feedRecord_only | apply alarmOf_only
    | apply OnlyIn.ite | extract_lets | split | exact .inl (frameSub_mem hl (by decide)) | exact .inr rfl
    | ((conv => arg 4; arg 27); apply OnlyIn.of_mk) | dsimp +zetaDelta only)

theorem irqClearRule_only (s : State) (v : Nat) (hl : frameSub [.klp] [] pl pk = true) (hs : OnlyIn pl pk os s) :
    OnlyIn pl pk os (irqClearRule s v).2 := by
  unfold irqClearRule
  repeat' (with_reducible first
    | assumption | intro _ | exact frameSub_trans (by decide) hl | exact frameKey_of hl (by decide) | exact hk
    | apply withKlp_only | apply OnlyIn.foldl | apply OnlyIn.ite | extract_lets | split
    | exact .inl (frameSub_mem hl (by decide)) | exact .inr rfl | ((conv => arg 4; arg 27); apply OnlyIn.of_mk)
    | dsimp +zetaDelta only)

theorem logCursorRule_only (id : Nat) (s : State) (v : Nat) (hl : frameSub [.log] [] pl pk = true) (hs : OnlyIn pl pk os s) :
    OnlyIn pl pk os (logCursorRule id s v).2 := by
  unfold logCursorRule
  repeat' (with_reducible first
    | assumption | intro _ | exact frameSub_trans (by decide) hl | exact frameKey_of hl (by decide) | exact hk
    | apply withLog_only | exact .inl (frameSub_mem hl (by decide)) | exact .inr rfl
    | ((conv => arg 4; arg 27); apply OnlyIn.of_mk) | dsimp +zetaDelta only)

theorem tallyRule_only (key : Nat) (s : State) (v : Nat) (hl : frameSub [.nv] [] pl pk = true) (hs : OnlyIn pl pk os s) :
    OnlyIn pl pk os (tallyRule key s v).2 := by
  unfold tallyRule
  repeat' (with_reducible first
    | assumption | intro _ | exact frameSub_trans (by decide) hl | exact frameKey_of hl (by decide) | exact hk
    | apply withNv_only | apply OnlyIn.ite | extract_lets | split | exact .inl (frameSub_mem hl (by decide)) | exact .inr rfl
    | ((conv => arg 4; arg 27); apply OnlyIn.of_mk) | dsimp +zetaDelta only)

/-- Every rule that a choice gives changes what a frame lets it change. -/
def RuleOnly (pl : List Piece) (pk : List Nat) (os : State) (o : Option Rule) : Prop :=
  ∀ ru, o = some ru → ∀ (s : State) (v : Nat), OnlyIn pl pk os s → OnlyIn pl pk os (ru s v).2

theorem RuleOnly.none : RuleOnly pl pk os none := fun _ e => nomatch e

theorem RuleOnly.some {ru : Rule} (h : ∀ (s : State) (v : Nat), OnlyIn pl pk os s → OnlyIn pl pk os (ru s v).2) :
    RuleOnly pl pk os (some ru) := fun _ e => Option.some.inj e ▸ h

theorem RuleOnly.ite {c : Prop} [Decidable c] {a b : Option Rule} (ha : RuleOnly pl pk os a) (hb : RuleOnly pl pk os b) :
    RuleOnly pl pk os (if c then a else b) := by split <;> assumption

theorem RuleOnly.orElse {a b : Option Rule} (ha : RuleOnly pl pk os a) (hb : RuleOnly pl pk os b) :
    RuleOnly pl pk os (a.orElse fun _ => b) := by
  cases a with
  | none => exact hb
  | some r => exact ha

theorem RuleOnly.getD {a : Option Rule} {ru : Rule} (ha : RuleOnly pl pk os a)
    (h : ∀ (s : State) (v : Nat), OnlyIn pl pk os s → OnlyIn pl pk os (ru s v).2) (s : State) (v : Nat) (hs : OnlyIn pl pk os s) :
    OnlyIn pl pk os (a.getD ru s v).2 := by
  cases a with
  | none => exact h s v hs
  | some r => exact ha r rfl s v hs

theorem ruleLow_only (r : Req) (i sub : Nat) (hl : frameSub [.regs, .power, .tide, .mains, .hm, .klp, .nv, .log, .rtc, .bus, .berth, .loop, .act, .sens, .focal, .pipe, .cal, .video, .panel, .pwr, .slip, .freeCtr] [] pl pk = true) : RuleOnly pl pk os (ruleLow r i sub) := by
  unfold ruleLow
  repeat' (with_reducible first
    | apply RuleOnly.none | apply RuleOnly.ite | apply RuleOnly.some | intro _ | assumption | exact frameSub_trans (by decide) hl
    | apply resetCommandRule_only | apply rateModeRule_only | apply mainsModeRule_only | apply gradientLimitRule_only
    | apply imagerModeRule_only | apply outputFormRule_only | apply filterShiftRule_only | apply lensRule_only
    | apply calCommandRule_only | apply videoEnableRule_only | apply videoLinkRule_only | apply vc1Rule_only
    | apply tagLinesRule_only | apply vc2Rule_only | apply hmCommandRule_only | apply salvageReleaseRule_only
    | apply masterSourceRule_only | apply adcCalRule_only | apply urgentRule_only | split)

theorem ruleHigh_only (r : Req) (i sub : Nat) (hl : frameSub [.regs, .power, .tide, .mains, .hm, .klp, .nv, .log, .rtc, .bus, .berth, .loop, .act, .sens, .focal, .pipe, .cal, .video, .panel, .pwr, .slip, .freeCtr] [] pl pk = true) : RuleOnly pl pk os (ruleHigh r i sub) := by
  unfold ruleHigh
  repeat' (with_reducible first
    | apply RuleOnly.none | apply RuleOnly.ite | apply RuleOnly.some | intro _ | assumption | exact frameSub_trans (by decide) hl
    | apply irqClearRule_only | apply logCursorRule_only | apply logClearRule_only | apply calendarOffsetRule_only
    | apply dateTimeRule_only | apply dstRule_only | apply subsecRule_only | apply regionUpdateRule_only
    | apply panelTempRule_only | apply resetKeysRule_only | apply idRereadRule_only | apply powerRequestRule_only
    | apply pfailLevelRule_only | apply feedsExpectedRule_only | apply slipCommandRule_only | split)

theorem ruleFan_only (c sub : Nat) (hl : frameSub [.regs, .power, .tide, .mains, .hm, .klp, .nv, .log, .rtc, .bus, .berth, .loop, .act, .sens, .focal, .pipe, .cal, .video, .panel, .pwr, .slip, .freeCtr] [] pl pk = true) : RuleOnly pl pk os (ruleFan c sub) := by
  unfold ruleFan
  repeat' (with_reducible first
    | apply RuleOnly.none | apply RuleOnly.ite | apply RuleOnly.some | intro _ | assumption | exact frameSub_trans (by decide) hl
    | apply fanCommandRule_only | apply fanIlimitRule_only | apply fanTachsRule_only | apply fanBandRule_only | split)

theorem ruleBus_only (c : Bus) (sub : Nat) (hl : frameSub [.regs, .power, .tide, .mains, .hm, .klp, .nv, .log, .rtc, .bus, .berth, .loop, .act, .sens, .focal, .pipe, .cal, .video, .panel, .pwr, .slip, .freeCtr] [] pl pk = true) : RuleOnly pl pk os (ruleBus c sub) := by
  unfold ruleBus
  repeat' (with_reducible first
    | apply RuleOnly.none | apply RuleOnly.ite | apply RuleOnly.some | intro _ | assumption | exact frameSub_trans (by decide) hl
    | apply busModeRule_only | apply tripleSampleRule_only | apply busTimingRule_only | split)

theorem ruleLoop_only (l sub : Nat) (hl : frameSub [.regs, .power, .tide, .mains, .hm, .klp, .nv, .log, .rtc, .bus, .berth, .loop, .act, .sens, .focal, .pipe, .cal, .video, .panel, .pwr, .slip, .freeCtr] [] pl pk = true) : RuleOnly pl pk os (ruleLoop l sub) := by
  unfold ruleLoop
  repeat' (with_reducible first
    | apply RuleOnly.none | apply RuleOnly.ite | apply RuleOnly.some | intro _ | assumption | exact frameSub_trans (by decide) hl
    | apply loopModeRule_only | apply pvSourceRule_only | apply loopTargetRule_only | apply outMinRule_only
    | apply outMaxRule_only | split)

theorem ruleZone_only (z sub : Nat) (hl : frameSub [.regs, .power, .tide, .mains, .hm, .klp, .nv, .log, .rtc, .bus, .berth, .loop, .act, .sens, .focal, .pipe, .cal, .video, .panel, .pwr, .slip, .freeCtr] [] pl pk = true) : RuleOnly pl pk os (ruleZone z sub) := by
  unfold ruleZone
  repeat' (with_reducible first
    | apply RuleOnly.none | apply RuleOnly.ite | apply RuleOnly.some | intro _ | assumption | exact frameSub_trans (by decide) hl
    | apply scheduleRule_only | apply zoneOverrideRule_only | apply presenceRule_only | split)

theorem ruleItem_only (r : Req) (i sub : Nat) (hl : frameSub [.regs, .power, .tide, .mains, .hm, .klp, .nv, .log, .rtc, .bus, .berth, .loop, .act, .sens, .focal, .pipe, .cal, .video, .panel, .pwr, .slip, .freeCtr] [] pl pk = true) : RuleOnly pl pk os (ruleItem r i sub) := by
  unfold ruleItem
  repeat' (with_reducible first
    | apply RuleOnly.none | apply RuleOnly.ite | apply ruleFan_only | apply ruleBus_only
    | apply ruleLoop_only | apply ruleZone_only | apply RuleOnly.some | intro _ | assumption | exact frameSub_trans (by decide) hl | apply groupStateRule_only
    | apply stormValueRule_only | apply outModeRule_only | apply outCommandRule_only | apply adcFactorRule_only
    | apply aiConfigRule_only | apply alarmMatchRule_only | apply alarmStatusRule_only | apply regionCellsRule_only
    | apply lhCellRule_only | apply slotBindRule_only | apply switchPointRule_only | apply scheduleRule_only
    | apply exceptionDateRule_only | apply berthRule_only | split)

theorem entryRule_only (r : Req) (key : Nat) (s : State) (v : Nat)
    (hl : frameSub [.regs, .power, .tide, .mains, .hm, .klp, .nv, .log, .rtc, .bus, .berth, .loop, .act, .sens, .focal, .pipe, .cal, .video, .panel, .pwr, .slip, .freeCtr] [] pl pk = true) (hs : OnlyIn pl pk os s) :
    OnlyIn pl pk os (entryRule r key s v).2 := by
  unfold entryRule
  split
  · exact tallyRule_only _ _ _ (frameSub_trans (by decide) hl) hs
  · exact RuleOnly.getD ((ruleLow_only _ _ _ hl).orElse ((ruleHigh_only _ _ _ hl).orElse (ruleItem_only _ _ _ hl))) (fun s v => plainRule_only _ s v (frameSub_trans (by decide) hl) (frameKey_regs (frameSub_mem hl (by decide)))) _ _ hs

end Sys2Proof.Machine
end

