-- ==== Sys2Proof/Laws/FramesLedger.lean ====
section
/-!
SUPPORT. What the operations of Machine/Ledger.lean change at most.
-/
namespace Sys2Proof.Machine

variable {pl : List Piece} {pk : List Nat} {os : State}

theorem readRun_only (s : State) (q : Request) (hl : frameSub [.bus] [] pl pk = true) (hs : OnlyIn pl pk os s) :
    OnlyIn pl pk os (State.readRun s q).2.2 := by
  unfold State.readRun
  repeat' (with_reducible first
    | assumption | intro _ | exact frameSub_trans (by decide) hl | exact frameKey_of hl (by decide) | exact hk
    | apply afterRead_only | apply OnlyIn.ite | split | dsimp +zetaDelta only)

theorem execKlpRead_only (a : Ask) (s : State) (hl : frameSub [.klp, .bus] [] pl pk = true) (hs : OnlyIn pl pk os s) :
    ∃ s', execKlpRead a s = .next s' ∧ OnlyIn pl pk os s' := by
  unfold execKlpRead
  refine ⟨_, rfl, ?_⟩
  repeat' (with_reducible first
    | assumption | intro _ | exact frameSub_trans (by decide) hl | exact frameKey_of hl (by decide) | exact hk
    | apply request_only | apply readRun_only | extract_lets | dsimp +zetaDelta only)

theorem execKlpWrite_only (key : Nat) (w : Wr) (s : State) (hl : frameSub [.regs, .power, .tide, .mains, .hm, .klp, .nv, .log, .rtc, .bus, .berth, .loop, .act, .sens, .focal, .pipe, .cal, .video, .panel, .pwr, .slip, .freeCtr] [] pl pk = true) (hs : OnlyIn pl pk os s) :
    ∃ s', execKlpWrite key w s = .next s' ∧ OnlyIn pl pk os s' := by
  unfold execKlpWrite
  refine ⟨_, rfl, ?_⟩
  repeat' (with_reducible first
    | assumption | intro _ | exact frameSub_trans (by decide) hl | exact frameKey_of hl (by decide) | exact hk
    | exact frameKey_regs (frameSub_mem hl (by decide)) | apply ledgerWrite_only | apply plainRule_only
    | apply pfailLevelRule_only | apply powerRequestRule_only | apply resetCommandRule_only | apply slipLoadStandbyRule_only
    | apply slipSwapRule_only | apply slipCommitRule_only | apply slipRollbackRule_only | apply slipAbortRule_only
    | apply slipInstallResetRule_only | apply stormValueRule_only | apply salvageReleaseRule_only | apply hmSwapRule_only
    | apply hmRejoinTestRule_only | apply hmStormExitRule_only | apply hmStormEnterRule_only | apply hmRetireARule_only
    | apply hmRetireBRule_only | apply hmClearCountsRule_only | apply rateModeRule_only | apply mainsModeRule_only
    | apply regionUpdateRule_only | apply regionCellsRule_only | apply imagerModeRule_only | apply outputFormRule_only
    | apply filterShiftRule_only | apply lensRule_only | apply gradientLimitRule_only | apply groupStateRule_only
    | apply calCycleRule_only | apply calCycleRefRule_only | apply calAbortRule_only | apply calQualifySparesRule_only
    | apply calShutterTestRule_only | apply calLoadFactoryRule_only | apply berthRule_only | apply videoEnableRule_only
    | apply videoLinkRule_only | apply vc2Rule_only | apply loopModeRule_only | apply loopTargetRule_only
    | apply pvSourceRule_only | apply zoneOverrideRule_only | apply switchPointRule_only | apply exceptionDateRule_only
    | apply outCommandRule_only | apply outModeRule_only | apply fanCommandRule_only | apply fanBandRule_only
    | apply fanIlimitRule_only | apply urgentRule_only | apply adcCalRule_only | apply adcFactorRule_only
    | apply aiConfigRule_only | apply idRereadRule_only | apply slotBindRule_only | apply busModeRule_only
    | apply busTimingRule_only | apply tripleSampleRule_only | apply logClearRule_only | apply dateTimeRule_only
    | apply calendarOffsetRule_only | apply subsecRule_only | apply dstRule_only | apply alarmMatchRule_only
    | apply alarmStatusRule_only | apply calCommandRule_only | apply hmCommandRule_only | apply slipCommandRule_only
    | apply vc1Rule_only | apply tagLinesRule_only | apply outMinRule_only | apply outMaxRule_only | apply scheduleRule_only
    | apply presenceRule_only | apply fanTachsRule_only | apply panelTempRule_only | apply lhCellRule_only
    | apply resetKeysRule_only | apply feedsExpectedRule_only | apply irqClearRule_only | apply logCursorRule_only
    | apply tallyRule_only | apply entryRule_only | dsimp +zetaDelta only)

theorem execRegisterWrite_only (key : Nat) (w : Wr) (s : State) (hl : frameSub [.regs, .power, .tide, .mains, .hm, .klp, .nv, .log, .rtc, .bus, .berth, .loop, .act, .sens, .focal, .pipe, .cal, .video, .panel, .pwr, .slip, .freeCtr] [] pl pk = true) (hs : OnlyIn pl pk os s) :
    ∃ s', execRegisterWrite key w s = .next s' ∧ OnlyIn pl pk os s' := by
  unfold execRegisterWrite
  refine ⟨_, rfl, ?_⟩
  repeat' (with_reducible first
    | assumption | intro _ | exact frameSub_trans (by decide) hl | exact frameKey_of hl (by decide) | exact hk
    | exact frameKey_regs (frameSub_mem hl (by decide)) | apply ledgerWrite_only | apply plainRule_only
    | apply pfailLevelRule_only | apply powerRequestRule_only | apply resetCommandRule_only | apply slipLoadStandbyRule_only
    | apply slipSwapRule_only | apply slipCommitRule_only | apply slipRollbackRule_only | apply slipAbortRule_only
    | apply slipInstallResetRule_only | apply stormValueRule_only | apply salvageReleaseRule_only | apply hmSwapRule_only
    | apply hmRejoinTestRule_only | apply hmStormExitRule_only | apply hmStormEnterRule_only | apply hmRetireARule_only
    | apply hmRetireBRule_only | apply hmClearCountsRule_only | apply rateModeRule_only | apply mainsModeRule_only
    | apply regionUpdateRule_only | apply regionCellsRule_only | apply imagerModeRule_only | apply outputFormRule_only
    | apply filterShiftRule_only | apply lensRule_only | apply gradientLimitRule_only | apply groupStateRule_only
    | apply calCycleRule_only | apply calCycleRefRule_only | apply calAbortRule_only | apply calQualifySparesRule_only
    | apply calShutterTestRule_only | apply calLoadFactoryRule_only | apply berthRule_only | apply videoEnableRule_only
    | apply videoLinkRule_only | apply vc2Rule_only | apply loopModeRule_only | apply loopTargetRule_only
    | apply pvSourceRule_only | apply zoneOverrideRule_only | apply switchPointRule_only | apply exceptionDateRule_only
    | apply outCommandRule_only | apply outModeRule_only | apply fanCommandRule_only | apply fanBandRule_only
    | apply fanIlimitRule_only | apply urgentRule_only | apply adcCalRule_only | apply adcFactorRule_only
    | apply aiConfigRule_only | apply idRereadRule_only | apply slotBindRule_only | apply busModeRule_only
    | apply busTimingRule_only | apply tripleSampleRule_only | apply logClearRule_only | apply dateTimeRule_only
    | apply calendarOffsetRule_only | apply subsecRule_only | apply dstRule_only | apply alarmMatchRule_only
    | apply alarmStatusRule_only | apply calCommandRule_only | apply hmCommandRule_only | apply slipCommandRule_only
    | apply vc1Rule_only | apply tagLinesRule_only | apply outMinRule_only | apply outMaxRule_only | apply scheduleRule_only
    | apply presenceRule_only | apply fanTachsRule_only | apply panelTempRule_only | apply lhCellRule_only
    | apply resetKeysRule_only | apply feedsExpectedRule_only | apply irqClearRule_only | apply logCursorRule_only
    | apply tallyRule_only | apply entryRule_only | dsimp +zetaDelta only)

theorem execIrqClearWrite_only (w : Wr) (s : State) (hl : frameSub [.klp] [] pl pk = true) (hs : OnlyIn pl pk os s) :
    ∃ s', execIrqClearWrite w s = .next s' ∧ OnlyIn pl pk os s' := by
  unfold execIrqClearWrite
  refine ⟨_, rfl, ?_⟩
  repeat' (with_reducible first
    | assumption | intro _ | exact frameSub_trans (by decide) hl | exact frameKey_of hl (by decide) | exact hk
    | apply ledgerWrite_only | apply irqClearRule_only | dsimp +zetaDelta only)

theorem dropTransfer_only (s : State) (t : Transfer) (hl : frameSub [.klp] [] pl pk = true) (hs : OnlyIn pl pk os s) :
    OnlyIn pl pk os (State.dropTransfer s t) := by
  unfold State.dropTransfer
  repeat' (with_reducible first
    | assumption | intro _ | exact frameSub_trans (by decide) hl | exact frameKey_of hl (by decide) | exact hk
    | apply withKlp_only | extract_lets | exact .inl (frameSub_mem hl (by decide)) | exact .inr rfl
    | ((conv => arg 4; arg 27); apply OnlyIn.of_mk) | dsimp +zetaDelta only)

theorem putTransfer_only (s : State) (t : Transfer) (hl : frameSub [.klp] [] pl pk = true) (hs : OnlyIn pl pk os s) :
    OnlyIn pl pk os (State.putTransfer s t) := by
  unfold State.putTransfer
  repeat' (with_reducible first
    | assumption | intro _ | exact frameSub_trans (by decide) hl | exact frameKey_of hl (by decide) | exact hk
    | apply dropTransfer_only | apply withKlp_only | extract_lets | exact .inl (frameSub_mem hl (by decide)) | exact .inr rfl
    | ((conv => arg 4; arg 27); apply OnlyIn.of_mk) | dsimp +zetaDelta only)

theorem expireTransfers_only (s : State) (hl : frameSub [.klp, .cal, .slip] [] pl pk = true) (hs : OnlyIn pl pk os s) :
    OnlyIn pl pk os (State.expireTransfers s) := by
  unfold State.expireTransfers
  repeat' (with_reducible first
    | assumption | intro _ | exact frameSub_trans (by decide) hl | exact frameKey_of hl (by decide) | exact hk
    | apply endTransfers_only | dsimp +zetaDelta only)

theorem segReadStartRun_only (s0 : State) (q : Request) (hl : frameSub [.klp, .cal, .slip] [] pl pk = true) (hs0 : OnlyIn pl pk os s0) :
    OnlyIn pl pk os (State.segReadStartRun s0 q).2.2 := by
  unfold State.segReadStartRun
  repeat' (with_reducible first
    | assumption | intro _ | exact frameSub_trans (by decide) hl | exact frameKey_of hl (by decide) | exact hk
    | apply expireTransfers_only | apply putTransfer_only | apply OnlyIn.ite | extract_lets | split
    | refine OnlyIn.of_pair ?_ (by assumption) | exact .inl (frameSub_mem hl (by decide)) | exact .inr rfl
    | ((conv => arg 4; arg 27); apply OnlyIn.of_mk) | dsimp +zetaDelta only)

theorem execSegReadStart_only (a : Ask) (s : State) (hl : frameSub [.klp, .cal, .slip] [] pl pk = true) (hs : OnlyIn pl pk os s) :
    ∃ s', execSegReadStart a s = .next s' ∧ OnlyIn pl pk os s' := by
  unfold execSegReadStart
  refine ⟨_, rfl, ?_⟩
  repeat' (with_reducible first
    | assumption | intro _ | exact frameSub_trans (by decide) hl | exact frameKey_of hl (by decide) | exact hk
    | apply request_only | apply segReadStartRun_only | extract_lets | dsimp +zetaDelta only)

theorem afterSlice_only (s : State) (key n : Nat) (hl : frameSub [.freeCtr] [] pl pk = true) (hs : OnlyIn pl pk os s) :
    OnlyIn pl pk os (State.afterSlice s key n) := by
  unfold State.afterSlice
  repeat' (with_reducible first
    | assumption | intro _ | exact frameSub_trans (by decide) hl | exact frameKey_of hl (by decide) | exact hk
    | apply OnlyIn.ite | extract_lets | split | exact .inl (frameSub_mem hl (by decide)) | exact .inr rfl
    | ((conv => arg 4; arg 27); apply OnlyIn.of_mk) | dsimp +zetaDelta only)

theorem segReadRun_only (s0 : State) (q : Request) (hl : frameSub [.klp, .cal, .slip, .freeCtr] [] pl pk = true) (hs0 : OnlyIn pl pk os s0) :
    OnlyIn pl pk os (State.segReadRun s0 q).2.2 := by
  unfold State.segReadRun
  repeat' (with_reducible first
    | assumption | intro _ | exact frameSub_trans (by decide) hl | exact frameKey_of hl (by decide) | exact hk
    | apply expireTransfers_only | apply putTransfer_only | apply afterSlice_only | apply OnlyIn.ite | extract_lets | split
    | refine OnlyIn.of_pair ?_ (by assumption) | exact .inl (frameSub_mem hl (by decide)) | exact .inr rfl
    | ((conv => arg 4; arg 27); apply OnlyIn.of_mk) | dsimp +zetaDelta only)

theorem execSegRead_only (a : Ask) (s : State) (hl : frameSub [.klp, .cal, .slip, .freeCtr] [] pl pk = true) (hs : OnlyIn pl pk os s) :
    ∃ s', execSegRead a s = .next s' ∧ OnlyIn pl pk os s' := by
  unfold execSegRead
  refine ⟨_, rfl, ?_⟩
  repeat' (with_reducible first
    | assumption | intro _ | exact frameSub_trans (by decide) hl | exact frameKey_of hl (by decide) | exact hk
    | apply request_only | apply segReadRun_only | extract_lets | dsimp +zetaDelta only)

theorem segWriteStartRun_only (s0 : State) (q : Request) (hl : frameSub [.klp, .cal, .slip] [] pl pk = true) (hs0 : OnlyIn pl pk os s0) :
    OnlyIn pl pk os (State.segWriteStartRun s0 q).2.2 := by
  unfold State.segWriteStartRun
  repeat' (with_reducible first
    | assumption | intro _ | exact frameSub_trans (by decide) hl | exact frameKey_of hl (by decide) | exact hk
    | apply expireTransfers_only | apply putTransfer_only | apply slipOpen_only | apply OnlyIn.ite | extract_lets | split
    | refine OnlyIn.of_pair ?_ (by assumption) | exact .inl (frameSub_mem hl (by decide)) | exact .inr rfl
    | ((conv => arg 4; arg 27); apply OnlyIn.of_mk) | dsimp +zetaDelta only)

theorem execSegWriteStart_only (a : Ask) (s : State) (hl : frameSub [.klp, .cal, .slip] [] pl pk = true) (hs : OnlyIn pl pk os s) :
    ∃ s', execSegWriteStart a s = .next s' ∧ OnlyIn pl pk os s' := by
  unfold execSegWriteStart
  refine ⟨_, rfl, ?_⟩
  repeat' (with_reducible first
    | assumption | intro _ | exact frameSub_trans (by decide) hl | exact frameKey_of hl (by decide) | exact hk
    | apply request_only | apply segWriteStartRun_only | extract_lets | dsimp +zetaDelta only)

theorem restoreActive_only (s : State) (key : Nat) (hl : frameSub [.cal] [] pl pk = true) (hs : OnlyIn pl pk os s) :
    OnlyIn pl pk os (State.restoreActive s key) := by
  unfold State.restoreActive
  repeat' (with_reducible first
    | assumption | intro _ | exact frameSub_trans (by decide) hl | exact frameKey_of hl (by decide) | exact hk
    | apply withCal_only | apply OnlyIn.ite | extract_lets | split | refine OnlyIn.of_pair ?_ (by assumption)
    | exact .inl (frameSub_mem hl (by decide)) | exact .inr rfl | ((conv => arg 4; arg 27); apply OnlyIn.of_mk)
    | dsimp +zetaDelta only)

theorem stageSegment_only (s : State) (t : Transfer) (bytes : List Nat) (hl : frameSub [.log, .pipe, .cal, .slip] [] pl pk = true) (hs : OnlyIn pl pk os s) :
    OnlyIn pl pk os (State.stageSegment s t bytes).2.2 := by
  unfold State.stageSegment
  repeat' (with_reducible first
    | assumption | intro _ | exact frameSub_trans (by decide) hl | exact frameKey_of hl (by decide) | exact hk
    | apply withPipe_only | apply slipStage_only | apply bandHeader_only | apply OnlyIn.ite | extract_lets | split
    | exact .inl (frameSub_mem hl (by decide)) | exact .inr rfl | ((conv => arg 4; arg 27); apply OnlyIn.of_mk)
    | dsimp +zetaDelta only)

theorem landSegment_only (s : State) (t : Transfer) (off : Nat) (bytes : List Nat) (hl : frameSub [.regs, .klp, .nv, .log, .bus, .berth, .loop, .focal, .pipe, .cal, .panel, .slip] [] pl pk = true) (hs : OnlyIn pl pk os s) :
    OnlyIn pl pk os (State.landSegment s t off bytes).2 := by
  unfold State.landSegment
  repeat' (with_reducible first
    | assumption | intro _ | exact frameSub_trans (by decide) hl | exact frameKey_of hl (by decide) | exact hk
    | exact frameKey_regs (frameSub_mem hl (by decide)) | apply stageSegment_only | apply dropTransfer_only
    | apply completeWrite_only | apply putTransfer_only | apply restoreActive_only | apply OnlyIn.ite | extract_lets | split
    | refine OnlyIn.of_pair ?_ (by assumption) | exact .inl (frameSub_mem hl (by decide)) | exact .inr rfl
    | ((conv => arg 4; arg 27); apply OnlyIn.of_mk) | dsimp +zetaDelta only)

theorem segWriteRun_only (s0 : State) (q : Request) (hl : frameSub [.regs, .klp, .nv, .log, .bus, .berth, .loop, .focal, .pipe, .cal, .panel, .slip] [] pl pk = true) (hs0 : OnlyIn pl pk os s0) :
    OnlyIn pl pk os (State.segWriteRun s0 q).2.2 := by
  unfold State.segWriteRun
  repeat' (with_reducible first
    | assumption | intro _ | exact frameSub_trans (by decide) hl | exact frameKey_of hl (by decide) | exact hk
    | exact frameKey_regs (frameSub_mem hl (by decide)) | apply expireTransfers_only | apply putTransfer_only
    | apply landSegment_only | apply OnlyIn.ite | extract_lets | split | refine OnlyIn.of_pair ?_ (by assumption)
    | exact .inl (frameSub_mem hl (by decide)) | exact .inr rfl | ((conv => arg 4; arg 27); apply OnlyIn.of_mk)
    | dsimp +zetaDelta only)

theorem execSegWrite_only (a : Ask) (s : State) (hl : frameSub [.regs, .klp, .nv, .log, .bus, .berth, .loop, .focal, .pipe, .cal, .panel, .slip] [] pl pk = true) (hs : OnlyIn pl pk os s) :
    ∃ s', execSegWrite a s = .next s' ∧ OnlyIn pl pk os s' := by
  unfold execSegWrite
  refine ⟨_, rfl, ?_⟩
  repeat' (with_reducible first
    | assumption | intro _ | exact frameSub_trans (by decide) hl | exact frameKey_of hl (by decide) | exact hk
    | exact frameKey_regs (frameSub_mem hl (by decide)) | apply request_only | apply segWriteRun_only | extract_lets
    | exact .inl (frameSub_mem hl (by decide)) | exact .inr rfl | ((conv => arg 4; arg 27); apply OnlyIn.of_mk)
    | dsimp +zetaDelta only)

theorem segAbortRun_only (s0 : State) (q : Request) (hl : frameSub [.klp, .cal, .slip] [] pl pk = true) (hs0 : OnlyIn pl pk os s0) :
    OnlyIn pl pk os (State.segAbortRun s0 q).2.2 := by
  unfold State.segAbortRun
  repeat' (with_reducible first
    | assumption | intro _ | exact frameSub_trans (by decide) hl | exact frameKey_of hl (by decide) | exact hk
    | apply expireTransfers_only | apply endTransfers_only | apply OnlyIn.ite | extract_lets | split | dsimp +zetaDelta only)

theorem execSegAbort_only (a : Ask) (s : State) (hl : frameSub [.klp, .cal, .slip] [] pl pk = true) (hs : OnlyIn pl pk os s) :
    ∃ s', execSegAbort a s = .next s' ∧ OnlyIn pl pk os s' := by
  unfold execSegAbort
  refine ⟨_, rfl, ?_⟩
  repeat' (with_reducible first
    | assumption | intro _ | exact frameSub_trans (by decide) hl | exact frameKey_of hl (by decide) | exact hk
    | apply request_only | apply segAbortRun_only | extract_lets | dsimp +zetaDelta only)

theorem execTransferIdleTimeout_only (id key : Nat) (s : State) (hl : frameSub [.klp, .cal, .slip] [] pl pk = true) (hs : OnlyIn pl pk os s) :
    ∃ s', execTransferIdleTimeout id key s = .next s' ∧ OnlyIn pl pk os s' := by
  unfold execTransferIdleTimeout
  refine ⟨_, rfl, ?_⟩
  repeat' (with_reducible first
    | assumption | intro _ | exact frameSub_trans (by decide) hl | exact frameKey_of hl (by decide) | exact hk
    | apply endTransfers_only | dsimp +zetaDelta only)

theorem execSegStream_only (a : Ask) (s : State) (hl : frameSub [.klp] [] pl pk = true) (hs : OnlyIn pl pk os s) :
    ∃ s', execSegStream a s = .next s' ∧ OnlyIn pl pk os s' := by
  unfold execSegStream
  refine ⟨_, rfl, ?_⟩
  repeat' (with_reducible first
    | assumption | intro _ | exact frameSub_trans (by decide) hl | exact frameKey_of hl (by decide) | exact hk
    | apply dequeue_only | apply touch_only | apply withKlp_only | apply request_only | extract_lets | split
    | refine OnlyIn.of_pair ?_ (by assumption) | exact .inl (frameSub_mem hl (by decide)) | exact .inr rfl
    | ((conv => arg 4; arg 27); apply OnlyIn.of_mk) | dsimp +zetaDelta only)

theorem pumpStream_only (s : State) (j : StreamJob) (hl : frameSub [.klp, .bus] [] pl pk = true) (hs : OnlyIn pl pk os s) :
    OnlyIn pl pk os (State.pumpStream s j) := by
  unfold State.pumpStream
  repeat' (with_reducible first
    | assumption | intro _ | exact frameSub_trans (by decide) hl | exact frameKey_of hl (by decide) | exact hk
    | apply withKlp_only | apply answer_only | apply enqueue_only | apply OnlyIn.ite | extract_lets | split
    | refine OnlyIn.of_pair ?_ (by assumption) | exact .inl (frameSub_mem hl (by decide)) | exact .inr rfl
    | ((conv => arg 4; arg 27); apply OnlyIn.of_mk) | dsimp +zetaDelta only)

theorem pumpStreams_only (s : State) (hl : frameSub [.klp, .bus] [] pl pk = true) (hs : OnlyIn pl pk os s) :
    OnlyIn pl pk os (State.pumpStreams s) := by
  unfold State.pumpStreams
  repeat' (with_reducible first
    | assumption | intro _ | exact frameSub_trans (by decide) hl | exact frameKey_of hl (by decide) | exact hk
    | apply pumpStream_only | apply OnlyIn.foldl | dsimp +zetaDelta only)

theorem wrongKey_only (s : State) (id : Nat) (hl : frameSub [.klp] [] pl pk = true) (hs : OnlyIn pl pk os s) :
    OnlyIn pl pk os (State.wrongKey s id) := by
  unfold State.wrongKey
  repeat' (with_reducible first
    | assumption | intro _ | exact frameSub_trans (by decide) hl | exact frameKey_of hl (by decide) | exact hk
    | apply withKlp_only | apply OnlyIn.ite | extract_lets | split | exact .inl (frameSub_mem hl (by decide)) | exact .inr rfl
    | ((conv => arg 4; arg 27); apply OnlyIn.of_mk) | dsimp +zetaDelta only)

theorem unlockRun_only (s : State) (q : Request) (hl : frameSub [.klp] [] pl pk = true) (hs : OnlyIn pl pk os s) :
    OnlyIn pl pk os (State.unlockRun s q).2.2 := by
  unfold State.unlockRun
  repeat' (with_reducible first
    | assumption | intro _ | exact frameSub_trans (by decide) hl | exact frameKey_of hl (by decide) | exact hk
    | apply wrongKey_only | apply setLevel_only | apply OnlyIn.ite | extract_lets | split
    | exact .inl (frameSub_mem hl (by decide)) | exact .inr rfl | ((conv => arg 4; arg 27); apply OnlyIn.of_mk)
    | dsimp +zetaDelta only)

theorem execUnlock_only (a : Ask) (s : State) (hl : frameSub [.klp] [] pl pk = true) (hs : OnlyIn pl pk os s) :
    ∃ s', execUnlock a s = .next s' ∧ OnlyIn pl pk os s' := by
  unfold execUnlock
  refine ⟨_, rfl, ?_⟩
  repeat' (with_reducible first
    | assumption | intro _ | exact frameSub_trans (by decide) hl | exact frameKey_of hl (by decide) | exact hk
    | apply request_only | apply unlockRun_only | apply OnlyIn.ite | extract_lets | split | dsimp +zetaDelta only)

theorem execUnlockLockoutEnd_only (n : Nat) (s : State) (hl : frameSub [.klp] [] pl pk = true) (hs : OnlyIn pl pk os s) :
    ∃ s', execUnlockLockoutEnd n s = .next s' ∧ OnlyIn pl pk os s' := by
  unfold execUnlockLockoutEnd
  refine ⟨_, rfl, ?_⟩
  repeat' (with_reducible first
    | assumption | intro _ | exact frameSub_trans (by decide) hl | exact frameKey_of hl (by decide) | exact hk
    | apply withKlp_only | apply OnlyIn.ite | extract_lets | split | exact .inl (frameSub_mem hl (by decide)) | exact .inr rfl
    | ((conv => arg 4; arg 27); apply OnlyIn.of_mk) | dsimp +zetaDelta only)

theorem execLock_only (a : Ask) (s : State) (hl : frameSub [.klp] [] pl pk = true) (hs : OnlyIn pl pk os s) :
    ∃ s', execLock a s = .next s' ∧ OnlyIn pl pk os s' := by
  unfold execLock
  refine ⟨_, rfl, ?_⟩
  repeat' (with_reducible first
    | assumption | intro _ | exact frameSub_trans (by decide) hl | exact frameKey_of hl (by decide) | exact hk
    | apply request_only | apply setLevel_only | extract_lets | dsimp +zetaDelta only)

theorem execSessionTimeout_only (n : Nat) (s : State) (hl : frameSub [.klp] [] pl pk = true) (hs : OnlyIn pl pk os s) :
    ∃ s', execSessionTimeout n s = .next s' ∧ OnlyIn pl pk os s' := by
  unfold execSessionTimeout
  refine ⟨_, rfl, ?_⟩
  repeat' (with_reducible first
    | assumption | intro _ | exact frameSub_trans (by decide) hl | exact frameKey_of hl (by decide) | exact hk
    | apply setLevel_only | apply OnlyIn.ite | extract_lets | split | refine OnlyIn.of_pair ?_ (by assumption)
    | exact .inl (frameSub_mem hl (by decide)) | exact .inr rfl | ((conv => arg 4; arg 27); apply OnlyIn.of_mk)
    | dsimp +zetaDelta only)

theorem execKlpHeartbeat_only (a : Ask) (s : State) (hl : frameSub [.klp, .loop] [] pl pk = true) (hs : OnlyIn pl pk os s) :
    ∃ s', execKlpHeartbeat a s = .next s' ∧ OnlyIn pl pk os s' := by
  unfold execKlpHeartbeat
  refine ⟨_, rfl, ?_⟩
  repeat' (with_reducible first
    | assumption | intro _ | exact frameSub_trans (by decide) hl | exact frameKey_of hl (by decide) | exact hk
    | apply request_only | apply masterHeard_only | apply OnlyIn.ite | extract_lets | split | dsimp +zetaDelta only)

theorem execManifest_only (a : Ask) (s : State) (hl : frameSub [.klp] [] pl pk = true) (hs : OnlyIn pl pk os s) :
    ∃ s', execManifest a s = .next s' ∧ OnlyIn pl pk os s' := by
  unfold execManifest
  refine ⟨_, rfl, ?_⟩
  repeat' (with_reducible first
    | assumption | intro _ | exact frameSub_trans (by decide) hl | exact frameKey_of hl (by decide) | exact hk
    | apply dequeue_only | apply answer_only | apply request_only | apply OnlyIn.ite | extract_lets | split
    | dsimp +zetaDelta only)

theorem execEcho_only (a : Ask) (s : State) (hl : frameSub [.klp] [] pl pk = true) (hs : OnlyIn pl pk os s) :
    ∃ s', execEcho a s = .next s' ∧ OnlyIn pl pk os s' := by
  unfold execEcho
  refine ⟨_, rfl, ?_⟩
  repeat' (with_reducible first
    | assumption | intro _ | exact frameSub_trans (by decide) hl | exact frameKey_of hl (by decide) | exact hk
    | apply request_only | extract_lets | dsimp +zetaDelta only)

theorem execKlpResponseAbandon_only (c : Bus) (s : State) (hl : frameSub [.klp] [] pl pk = true) (hs : OnlyIn pl pk os s) :
    ∃ s', execKlpResponseAbandon c s = .next s' ∧ OnlyIn pl pk os s' := by
  unfold execKlpResponseAbandon
  refine ⟨_, rfl, ?_⟩
  repeat' (with_reducible first
    | assumption | intro _ | exact frameSub_trans (by decide) hl | exact frameKey_of hl (by decide) | exact hk
    | apply withKlp_only | apply OnlyIn.ite | extract_lets | split | refine OnlyIn.of_pair ?_ (by assumption)
    | exact .inl (frameSub_mem hl (by decide)) | exact .inr rfl | ((conv => arg 4; arg 27); apply OnlyIn.of_mk)
    | dsimp +zetaDelta only)

theorem execKlpFrameGapTimeout_only (c : Bus) (peer : Nat) (s : State) (hl : frameSub [.klp] [] pl pk = true) (hs : OnlyIn pl pk os s) :
    ∃ s', execKlpFrameGapTimeout c peer s = .next s' ∧ OnlyIn pl pk os s' := by
  unfold execKlpFrameGapTimeout
  refine ⟨_, rfl, ?_⟩
  repeat' (with_reducible first
    | assumption | intro _ | exact frameSub_trans (by decide) hl | exact frameKey_of hl (by decide) | exact hk
    | apply closeMessage_only | apply discardKlp_only | apply OnlyIn.ite | extract_lets | split
    | refine OnlyIn.of_pair ?_ (by assumption) | exact .inl (frameSub_mem hl (by decide)) | exact .inr rfl
    | ((conv => arg 4; arg 27); apply OnlyIn.of_mk) | dsimp +zetaDelta only)

theorem execSpiRequestTransaction_only (bytes : List Nat) (s : State) (hl : frameSub [.klp] [] pl pk = true) (hs : OnlyIn pl pk os s) :
    ∃ s', execSpiRequestTransaction bytes s = .next s' ∧ OnlyIn pl pk os s' := by
  unfold execSpiRequestTransaction
  refine ⟨_, rfl, ?_⟩
  repeat' (with_reducible first
    | assumption | intro _ | exact frameSub_trans (by decide) hl | exact frameKey_of hl (by decide) | exact hk
    | apply spiOutput_only | apply spiRequest_only | apply spiRead_only | apply OnlyIn.ite | extract_lets | split
    | refine OnlyIn.of_pair ?_ (by assumption) | exact .inl (frameSub_mem hl (by decide)) | exact .inr rfl
    | ((conv => arg 4; arg 27); apply OnlyIn.of_mk) | dsimp +zetaDelta only)

theorem execSpiResponseRead_only (n : Nat) (s : State) (hl : frameSub [.klp] [] pl pk = true) (hs : OnlyIn pl pk os s) :
    ∃ s', execSpiResponseRead n s = .next s' ∧ OnlyIn pl pk os s' := by
  unfold execSpiResponseRead
  refine ⟨_, rfl, ?_⟩
  repeat' (with_reducible first
    | assumption | intro _ | exact frameSub_trans (by decide) hl | exact frameKey_of hl (by decide) | exact hk
    | apply spiRead_only | apply OnlyIn.ite | split | dsimp +zetaDelta only)

end Sys2Proof.Machine
end

