-- ==== Sys2Proof/Laws/FramesTick.lean ====
section
/-!
SUPPORT. What the operations of Machine/Tick.lean change at most.
-/
namespace Sys2Proof.Machine

variable {pl : List Piece} {pk : List Nat} {os : State}

theorem ueDram_only (s : State) (kind : Nat) (addrs : List Nat) (hl : frameSub [.regs, .klp, .nv, .log, .bus] [] pl pk = true) (hs : OnlyIn pl pk os s) :
    OnlyIn pl pk os (State.ueDram s kind addrs) := by
  unfold State.ueDram
  repeat' (with_reducible first
    | assumption | intro _ | exact frameSub_trans (by decide) hl | exact frameKey_of hl (by decide) | exact hk
    | exact frameKey_regs (frameSub_mem hl (by decide)) | apply uncorrectable_only | apply OnlyIn.foldl | dsimp +zetaDelta only)

theorem ueRow_only (s : State) (i : RowIn) (y : Nat) (hl : frameSub [.regs, .klp, .nv, .log, .bus] [] pl pk = true) (hs : OnlyIn pl pk os s) :
    OnlyIn pl pk os (State.ueRow s i y) := by
  unfold State.ueRow
  repeat' (with_reducible first
    | assumption | intro _ | exact frameSub_trans (by decide) hl | exact frameKey_of hl (by decide) | exact hk
    | exact frameKey_regs (frameSub_mem hl (by decide)) | apply ueDram_only | extract_lets | dsimp +zetaDelta only)

theorem ueSlot_only (s : State) (i : RowIn) (hl : frameSub [.regs, .klp, .nv, .log, .bus] [] pl pk = true) (hs : OnlyIn pl pk os s) :
    OnlyIn pl pk os (State.ueSlot s i) := by
  unfold State.ueSlot
  repeat' (with_reducible first
    | assumption | intro _ | exact frameSub_trans (by decide) hl | exact frameKey_of hl (by decide) | exact hk
    | exact frameKey_regs (frameSub_mem hl (by decide)) | apply ueRow_only | apply ueDram_only | apply uncorrectable_only
    | apply OnlyIn.foldl | apply OnlyIn.ite | extract_lets | split | refine OnlyIn.of_pair ?_ (by assumption)
    | exact .inl (frameSub_mem hl (by decide)) | exact .inr rfl | ((conv => arg 4; arg 27); apply OnlyIn.of_mk)
    | dsimp +zetaDelta only)

theorem ueVideo_only (s : State) (i : RowIn) (hl : frameSub [.regs, .klp, .nv, .log, .bus] [] pl pk = true) (hs : OnlyIn pl pk os s) :
    OnlyIn pl pk os (State.ueVideo s i) := by
  unfold State.ueVideo
  repeat' (with_reducible first
    | assumption | intro _ | exact frameSub_trans (by decide) hl | exact frameKey_of hl (by decide) | exact hk
    | exact frameKey_regs (frameSub_mem hl (by decide)) | apply ueDram_only | apply OnlyIn.ite | extract_lets | split
    | refine OnlyIn.of_pair ?_ (by assumption) | exact .inl (frameSub_mem hl (by decide)) | exact .inr rfl
    | ((conv => arg 4; arg 27); apply OnlyIn.of_mk) | dsimp +zetaDelta only)

theorem liveRow_only (s : State) (i : RowIn) (hl : frameSub [.regs, .tide, .mains, .klp, .nv, .log, .bus, .berth, .act, .focal, .pipe, .cal, .video, .freeCtr] [] pl pk = true) (hs : OnlyIn pl pk os s) :
    OnlyIn pl pk os (State.liveRow s i) := by
  unfold State.liveRow
  repeat' (with_reducible first
    | assumption | intro _ | exact frameSub_trans (by decide) hl | exact frameKey_of hl (by decide) | exact hk
    | exact frameKey_regs (frameSub_mem hl (by decide)) | apply ueVideo_only | apply videoRow_only | apply ueSlot_only
    | apply imageRow_only | apply driverRow_only | apply breakwaterRow_only | apply responseRow_only | apply pumpStreams_only
    | extract_lets | dsimp +zetaDelta only)

theorem rowWork_only (s : State) (i : RowIn) (hl : frameSub [.regs, .tide, .mains, .klp, .nv, .log, .bus, .berth, .act, .focal, .pipe, .cal, .video, .freeCtr] [] pl pk = true) (hs : OnlyIn pl pk os s) :
    OnlyIn pl pk os (State.rowWork s i) := by
  unfold State.rowWork
  repeat' (with_reducible first
    | assumption | intro _ | exact frameSub_trans (by decide) hl | exact frameKey_of hl (by decide) | exact hk
    | exact frameKey_regs (frameSub_mem hl (by decide)) | apply driverRow_only | apply liveRow_only | apply OnlyIn.ite | split
    | dsimp +zetaDelta only)

theorem advanceRow_only (s : State) (hl : frameSub [.tide] [] pl pk = true) (hs : OnlyIn pl pk os s) :
    OnlyIn pl pk os (State.advanceRow s) := by
  unfold State.advanceRow
  repeat' (with_reducible first
    | assumption | intro _ | exact frameSub_trans (by decide) hl | exact frameKey_of hl (by decide) | exact hk | extract_lets
    | exact .inl (frameSub_mem hl (by decide)) | exact .inr rfl | ((conv => arg 4; arg 27); apply OnlyIn.of_mk)
    | dsimp +zetaDelta only)

theorem execRowSlot_only (i : RowIn) (s : State) (hl : frameSub [.regs, .tide, .mains, .klp, .nv, .log, .bus, .berth, .act, .focal, .pipe, .cal, .video, .freeCtr] [] pl pk = true) (hs : OnlyIn pl pk os s) :
    ∃ s', execRowSlot i s = .next s' ∧ OnlyIn pl pk os s' := by
  unfold execRowSlot
  refine ⟨_, rfl, ?_⟩
  repeat' (with_reducible first
    | assumption | intro _ | exact frameSub_trans (by decide) hl | exact frameKey_of hl (by decide) | exact hk
    | exact frameKey_regs (frameSub_mem hl (by decide)) | apply rowWork_only | apply advanceRow_only | apply OnlyIn.ite | split
    | dsimp +zetaDelta only)

theorem challenge_only (s : State) (q : Quay) (hl : frameSub [.hm, .freeCtr] [] pl pk = true) (hs : OnlyIn pl pk os s) :
    OnlyIn pl pk os (State.challenge s q) := by
  unfold State.challenge
  repeat' (with_reducible first
    | assumption | intro _ | exact frameSub_trans (by decide) hl | exact frameKey_of hl (by decide) | exact hk
    | apply setQuay_only | apply tickFree_only | apply OnlyIn.ite | extract_lets | split
    | exact .inl (frameSub_mem hl (by decide)) | exact .inr rfl | ((conv => arg 4; arg 27); apply OnlyIn.of_mk)
    | dsimp +zetaDelta only)

theorem tokenAfterStorm_only (s : State) (hl : frameSub [.hm, .loop, .pwr] [Reg.OWNER_MS] pl pk = true) (hs : OnlyIn pl pk os s) :
    OnlyIn pl pk os (State.tokenAfterStorm s) := by
  unfold State.tokenAfterStorm
  repeat' (with_reducible first
    | assumption | intro _ | exact frameSub_trans (by decide) hl | exact frameKey_of hl (by decide) | exact hk
    | apply grantToken_only | apply OnlyIn.ite | apply setQuay_only | apply withHm_only | apply restoreCheckpoint_only | extract_lets | split
    | refine OnlyIn.of_pair ?_ (by assumption) | exact .inl (frameSub_mem hl (by decide)) | exact .inr rfl
    | ((conv => arg 4; arg 27); apply OnlyIn.of_mk) | dsimp +zetaDelta only)

theorem freshHandover_only (s : State) (hl : frameSub [.hm, .log, .loop, .slip] [] pl pk = true) (hs : OnlyIn pl pk os s) :
    OnlyIn pl pk os (State.freshHandover s) := by
  unfold State.freshHandover
  repeat' (with_reducible first
    | assumption | intro _ | exact frameSub_trans (by decide) hl | exact frameKey_of hl (by decide) | exact hk
    | apply moveToken_only | apply OnlyIn.ite | extract_lets | split | refine OnlyIn.of_pair ?_ (by assumption)
    | exact .inl (frameSub_mem hl (by decide)) | exact .inr rfl | ((conv => arg 4; arg 27); apply OnlyIn.of_mk)
    | dsimp +zetaDelta only)

theorem takeRxMap_only (s : State) (hl : frameSub [.bus] [] pl pk = true) (hs : OnlyIn pl pk os s) :
    OnlyIn pl pk os (State.takeRxMap s) := by
  unfold State.takeRxMap
  repeat' (with_reducible first
    | assumption | intro _ | exact frameSub_trans (by decide) hl | exact frameKey_of hl (by decide) | exact hk | extract_lets
    | split | refine OnlyIn.of_pair ?_ (by assumption) | exact .inl (frameSub_mem hl (by decide)) | exact .inr rfl
    | ((conv => arg 4; arg 27); apply OnlyIn.of_mk) | dsimp +zetaDelta only)

theorem autonomousTick_only (s : State) (hl : frameSub [.log, .loop] [] pl pk = true) (hs : OnlyIn pl pk os s) :
    OnlyIn pl pk os (State.autonomousTick s) := by
  unfold State.autonomousTick
  repeat' (with_reducible first
    | assumption | intro _ | exact frameSub_trans (by decide) hl | exact frameKey_of hl (by decide) | exact hk
    | apply noteAutonomous_only | apply leaveAutonomous_only | apply OnlyIn.ite | extract_lets | split | exact .inl (frameSub_mem hl (by decide))
    | exact .inr rfl | ((conv => arg 4; arg 27); apply OnlyIn.of_mk) | dsimp +zetaDelta only)

theorem sampleOut_only (s : State) (cur : List Nat) (lim : List Bool) (i : Nat) (hl : frameSub [.act] [] pl pk = true) (hs : OnlyIn pl pk os s) :
    OnlyIn pl pk os (State.sampleOut s cur lim i) := by
  unfold State.sampleOut
  repeat' (with_reducible first
    | assumption | intro _ | exact frameSub_trans (by decide) hl | exact frameKey_of hl (by decide) | exact hk
    | apply setOut_only | apply OnlyIn.ite | extract_lets | split | exact .inl (frameSub_mem hl (by decide)) | exact .inr rfl
    | ((conv => arg 4; arg 27); apply OnlyIn.of_mk) | dsimp +zetaDelta only)

theorem sampleFan_only (s : State) (i : TickIn) (c : Nat) (hl : frameSub [.act] [] pl pk = true) (hs : OnlyIn pl pk os s) :
    OnlyIn pl pk os (State.sampleFan s i c) := by
  unfold State.sampleFan
  repeat' (with_reducible first
    | assumption | intro _ | exact frameSub_trans (by decide) hl | exact frameKey_of hl (by decide) | exact hk
    | apply setFan_only | extract_lets | exact .inl (frameSub_mem hl (by decide)) | exact .inr rfl
    | ((conv => arg 4; arg 27); apply OnlyIn.of_mk) | dsimp +zetaDelta only)

theorem stageSave_only (s : State) (i : TickIn) (hl : frameSub [.nv] [] pl pk = true) (hs : OnlyIn pl pk os s) :
    OnlyIn pl pk os (State.stageSave s i) := by
  unfold State.stageSave
  repeat' (with_reducible first
    | assumption | intro _ | exact frameSub_trans (by decide) hl | exact frameKey_of hl (by decide) | exact hk
    | apply withNv_only | apply OnlyIn.ite | extract_lets | split | refine OnlyIn.of_pair ?_ (by assumption)
    | exact .inl (frameSub_mem hl (by decide)) | exact .inr rfl | ((conv => arg 4; arg 27); apply OnlyIn.of_mk)
    | dsimp +zetaDelta only)

theorem salvageTick_only (s : State) (hl : frameSub [.hm] [] pl pk = true) (hs : OnlyIn pl pk os s) :
    OnlyIn pl pk os (State.salvageTick s) := by
  unfold State.salvageTick
  repeat' (with_reducible first
    | assumption | intro _ | exact frameSub_trans (by decide) hl | exact frameKey_of hl (by decide) | exact hk
    | apply withHm_only | extract_lets | exact .inl (frameSub_mem hl (by decide)) | exact .inr rfl
    | ((conv => arg 4; arg 27); apply OnlyIn.of_mk) | dsimp +zetaDelta only)

theorem countLate_only (s : State) (i : TickIn) (hl : frameSub [] [Reg.TICK_OVERRUNS] pl pk = true) (hs : OnlyIn pl pk os s) :
    OnlyIn pl pk os (State.countLate s i) := by
  unfold State.countLate
  repeat' (with_reducible first
    | assumption | exact frameSub_trans (by decide) hl | exact frameKey_of hl (by decide) | apply incSat_only | apply OnlyIn.ite)

theorem pilotTick_only (s : State) (i : TickIn) (hl : frameSub [.regs, .hm, .klp, .nv, .bus, .loop, .act] [] pl pk = true) (hs : OnlyIn pl pk os s) :
    OnlyIn pl pk os (State.pilotTick s i) := by
  unfold State.pilotTick
  repeat' (with_reducible first
    | assumption | intro _ | exact frameSub_trans (by decide) hl | exact frameKey_of hl (by decide) | exact hk
    | exact frameKey_regs (frameSub_mem hl (by decide)) | apply countLate_only | apply updateZones_only | apply runLoops_only | apply sendGroups_only
    | apply drainFifo_only | apply stageSave_only | apply salvageTick_only | apply OnlyIn.ite | extract_lets | split
    | dsimp +zetaDelta only)

theorem hardwareTick_only (s : State) (i : TickIn) (hl : frameSub [.power, .video, .pwr, .hm, .klp, .log, .bus, .act, .sens, .freeCtr] [Reg.ROUND_OVERRUNS] pl pk = true) (hs : OnlyIn pl pk os s) :
    OnlyIn pl pk os (State.hardwareTick s i) := by
  unfold State.hardwareTick
  repeat' (with_reducible first
    | assumption | intro _ | exact frameSub_trans (by decide) hl | exact frameKey_of hl (by decide) | exact hk
    | apply challenge_only | apply sampleInputs_only | apply sampleOut_only | apply sampleFan_only | apply takeRxMap_only
    | apply tickRound_only | apply OnlyIn.foldl | extract_lets | dsimp +zetaDelta only)

theorem execTakeoverComplete_only (t : Nat) (s : State) (hl : frameSub [.regs, .hm, .klp, .log, .bus, .loop, .act, .slip] [] pl pk = true) (hs : OnlyIn pl pk os s) :
    ∃ s', execTakeoverComplete t s = .next s' ∧ OnlyIn pl pk os s' := by
  unfold execTakeoverComplete
  refine ⟨_, rfl, ?_⟩
  repeat' (with_reducible first
    | assumption | intro _ | exact frameSub_trans (by decide) hl | exact frameKey_of hl (by decide) | exact hk
    | exact frameKey_regs (frameSub_mem hl (by decide)) | apply restoreCheckpoint_only | apply setOutage_only
    | apply withHm_only | apply popFault_only | apply resumeTick_only | apply drainFifo_only | apply dueHeartbeat_only | apply evalPrograms_only | apply countAsSwap_only | apply alarmOf_only
    | apply OnlyIn.ite | extract_lets | split | refine OnlyIn.of_pair ?_ (by assumption)
    | exact .inl (frameSub_mem hl (by decide)) | exact .inr rfl | ((conv => arg 4; arg 27); apply OnlyIn.of_mk)
    | dsimp +zetaDelta only)

theorem execControlTick_only (i : TickIn) (s : State) (hl : frameSub [.regs, .power, .video, .hm, .klp, .nv, .log, .bus, .loop, .act, .sens, .pwr, .slip, .freeCtr] [] pl pk = true) (hs : OnlyIn pl pk os s) :
    ∃ s', execControlTick i s = .next s' ∧ OnlyIn pl pk os s' := by
  unfold execControlTick
  refine ⟨_, rfl, ?_⟩
  repeat' (with_reducible first
    | assumption | intro _ | exact frameSub_trans (by decide) hl | exact frameKey_of hl (by decide) | exact hk
    | exact frameKey_regs (frameSub_mem hl (by decide)) | apply hardwareTick_only | apply tokenAfterStorm_only
    | apply freshHandover_only | apply autonomousTick_only | apply engineHolds_only | apply pilotTick_only | apply OnlyIn.ite
    | extract_lets | split | dsimp +zetaDelta only)

end Sys2Proof.Machine
end

