-- ==== Sys2Proof/Laws/FramesStep.lean ====
section
/-!
SUPPORT. What the operations of Machine/Step.lean change at most.
-/
namespace Sys2Proof.Machine

variable {pl : List Piece} {pk : List Nat} {os : State}


theorem idle_only (s : State) (hl : frameSub [.rtc] [] pl pk = true) (hs : OnlyIn pl pk os s) :
    ∃ s', idle s = .next s' ∧ OnlyIn pl pk os s' := by
  unfold idle
  refine ⟨_, rfl, ?_⟩
  repeat' (with_reducible first
    | assumption | intro _ | exact frameSub_trans (by decide) hl | exact frameKey_of hl (by decide) | exact hk
    | apply rtcTick_only | dsimp +zetaDelta only)


end Sys2Proof.Machine
end

