-- ==== Sys2Proof/Laws/Alarms.lean ====
section
/-!
SUPPORT. What raising an interrupt cause and passing an event to the breakwater do to the causes that stand (R374, R408).
-/
namespace Sys2Proof.Machine

/-- A cause stays set when another is set. -/
theorem bitAt_bitOn {v i j : Nat} (hi : i < 8) (hj : j < 8) (h : bitAt v i = true) : bitAt (bitOn v j) i = true := by
  unfold bitOn
  split
  · exact h
  · next hn =>
    unfold bitAt at *
    simp only [beq_iff_eq] at *
    rcases (by omega : i = 0 ∨ i = 1 ∨ i = 2 ∨ i = 3 ∨ i = 4 ∨ i = 5 ∨ i = 6 ∨ i = 7) with rfl | rfl | rfl | rfl | rfl | rfl | rfl | rfl <;>
      rcases (by omega : j = 0 ∨ j = 1 ∨ j = 2 ∨ j = 3 ∨ j = 4 ∨ j = 5 ∨ j = 6 ∨ j = 7) with
        rfl | rfl | rfl | rfl | rfl | rfl | rfl | rfl <;> omega

/-- A cause is set once it is raised. -/
theorem bitAt_bitOn_self (v i : Nat) : bitAt (bitOn v i) i = true := by
  unfold bitOn
  split
  · assumption
  · next hn =>
    unfold bitAt at *
    simp only [beq_iff_eq] at *
    rw [Nat.add_div_right _ (Nat.two_pow_pos i)]
    omega

/-- Which causes stand after an event is passed to the breakwater: those before, and perhaps ALARM. -/
theorem alarmOf_klp (s : State) (source state value flags : Nat) :
    (s.alarmOf source state value flags).klp = s.klp ∨
      (s.alarmOf source state value flags).klp = { s.klp with irq := bitOn s.klp.irq irqAlarm } := by
  unfold State.alarmOf State.alarm
  split
  · exact .inl rfl
  · refine .inr ?_
    unfold State.releaseSource State.releaseFrame
    generalize (s.alarmTargets) = l
    extract_lets seq bw s1 s2 s3
    have h : s2.klp = s.klp :=
      (OnlyIn.foldl (l := [.bus]) (ks := []) (s0 := s1) OnlyIn.refl fun t c ht => giveAlarm_only _ _ _ _ (by decide) ht).pieces .klp
        (by decide) (by decide)
    show s3.klp = _
    unfold s3
    rw [if_neg (by simp)]
    show { s2.klp with irq := bitOn s2.klp.irq irqAlarm } = _
    rw [h]

theorem alarmOf_irq {s : State} {i : Nat} (hi : i < 8) (h : bitAt s.klp.irq i = true) (source state value flags : Nat) :
    bitAt (s.alarmOf source state value flags).klp.irq i = true := by
  rcases alarmOf_klp s source state value flags with e | e
  · rw [e]; exact h
  · rw [e]; exact bitAt_bitOn hi (by decide) h

end Sys2Proof.Machine
end

