-- ==== Sys2Proof/Laws/Keeps.lean ====
section
/-!
SUPPORT. How a sound state stays sound: one lemma per way a meaning builds its next state.
-/
namespace Sys2Proof.Machine

variable {wq : List Instr} {s t : State}

/-- A state that agrees on what soundness reads. -/
theorem Upheld.of_eq (h : Upheld wq s) (e1 : t.nv.win = s.nv.win) (e2 : t.regs = s.regs) (e3 : t.hm.stack = s.hm.stack)
    (e4 : t.log.queue = s.log.queue) (e5 : t.klp.fifo = s.klp.fifo) (e6 : t.keys.fifo = s.keys.fifo)
    (e7 : t.pending = s.pending) : Upheld wq t :=
  ⟨⟨e1 ▸ h.sound.window, e2 ▸ h.sound.regs, e3 ▸ h.sound.stack, e4 ▸ h.sound.queue, e5 ▸ h.sound.spi, e6 ▸ h.sound.keys⟩,
    e7 ▸ h.pending⟩

/-- A state written out field by field over the registers and the queue of a sound one. -/
theorem Upheld.of_mk {phase : Phase} {power : Power} {pfail : Bool} {tide : Tide} {mains : Mains} {hm : Hm} {klp : Klp} {nv : Nv} {log : Log} {rtc : Rtc} {bus : BusPart} {berth : BerthPart} {loop : LoopPart} {act : ActPart} {sens : SensPart} {focal : FocalPart} {pipe : PipePart} {cal : CalPart} {video : VideoPart} {panel : PanelPart} {keys : KeyPart} {pwr : PwrPart} {slip : SlipPart} {jtag : JtagPart} {freeCtr : Nat}
    (h : Upheld wq s) (e1 : Upheld wq s → hm.stack.length ≤ 4) (e2 : Upheld wq s → klp.fifo.length ≤ 8)
    (e3 : Upheld wq s → Memory.wf nv.win = true) (e4 : Upheld wq s → log.queue.length ≤ 256)
    (e5 : Upheld wq s → keys.fifo.length ≤ 32) :
    Upheld wq (State.mk s.regs phase power pfail tide mains hm klp nv log rtc bus berth loop act sens focal pipe cal video panel keys pwr slip jtag freeCtr s.pending) :=
  ⟨⟨e3 h, h.sound.regs, e1 h, e4 h, e2 h, e5 h⟩, h.pending⟩

theorem Upheld.setRegs {m : SMap} (h : Upheld wq s) (w : Upheld wq s → SMap.wf m = true) : Upheld wq { s with regs := m } :=
  ⟨⟨h.sound.window, w h, h.sound.stack, h.sound.queue, h.sound.spi, h.sound.keys⟩, h.pending⟩
theorem Upheld.setHm {m : Hm} (h : Upheld wq s) (w : Upheld wq s → m.stack.length ≤ 4) : Upheld wq { s with hm := m } :=
  ⟨⟨h.sound.window, h.sound.regs, w h, h.sound.queue, h.sound.spi, h.sound.keys⟩, h.pending⟩
theorem Upheld.setLog {m : Log} (h : Upheld wq s) (w : Upheld wq s → m.queue.length ≤ 256) : Upheld wq { s with log := m } :=
  ⟨⟨h.sound.window, h.sound.regs, h.sound.stack, w h, h.sound.spi, h.sound.keys⟩, h.pending⟩
theorem Upheld.setKlp {m : Klp} (h : Upheld wq s) (w : Upheld wq s → m.fifo.length ≤ 8) : Upheld wq { s with klp := m } :=
  ⟨⟨h.sound.window, h.sound.regs, h.sound.stack, h.sound.queue, w h, h.sound.keys⟩, h.pending⟩
theorem Upheld.setKeys {m : KeyPart} (h : Upheld wq s) (w : Upheld wq s → m.fifo.length ≤ 32) : Upheld wq { s with keys := m } :=
  ⟨⟨h.sound.window, h.sound.regs, h.sound.stack, h.sound.queue, h.sound.spi, w h⟩, h.pending⟩
theorem Upheld.setNv {m : Nv} (h : Upheld wq s) (w : Upheld wq s → Memory.wf m.win = true) : Upheld wq { s with nv := m } :=
  ⟨⟨w h, h.sound.regs, h.sound.stack, h.sound.queue, h.sound.spi, h.sound.keys⟩, h.pending⟩

/-! ### Bounded contents -/

theorem erase_le {α : Type} [BEq α] {l : List α} {a : α} {n : Nat} (h : l.length ≤ n) : (l.erase a).length ≤ n :=
  Nat.le_trans List.length_erase_le h
theorem drop_le {α : Type} {l : List α} {k n : Nat} (h : l.length ≤ n) : (l.drop k).length ≤ n := by
  rw [List.length_drop]; omega
theorem KeyPart.setKey_le {p : KeyPart} {k n : Nat} {u : KeyUnit} (h : p.fifo.length ≤ n) : (p.setKey k u).fifo.length ≤ n := h
theorem Log.putLifeboat_le {l : Log} {r : LogRec} {n : Nat} (h : l.queue.length ≤ n) : (l.putLifeboat r).queue.length ≤ n := h
theorem Log.setCursor_le {l : Log} {id v n : Nat} (h : l.queue.length ≤ n) : (l.setCursor id v).queue.length ≤ n := h
theorem Log.tryRing_le {l : Log} {r : LogRec} {n : Nat} (h : l.queue.length ≤ n) : (l.tryRing r).2.queue.length ≤ n := by
  unfold Log.tryRing; dsimp only; split <;> exact h
theorem Log.putAnchor_le {f : Nat} {l : Log} {r : LogRec} {n : Nat} (h : l.queue.length ≤ n) :
    (Log.putAnchor f l r).queue.length ≤ n := by
  induction f generalizing l with
  | zero => exact h
  | succ f ih => unfold Log.putAnchor; dsimp only; split; exact h; split; exact ih h; exact h
theorem Nv.setArea_win (n : Nv) (a : PArea) : (n.setArea a).win = n.win := by unfold Nv.setArea; split <;> rfl
theorem Nv.compact_wf {n : Nv} (h : Memory.wf n.win = true) : Memory.wf n.compact.win = true := by
  unfold Nv.compact; dsimp only; rw [Nv.setArea_win]; exact h
theorem Nv.dropOther_wf {n : Nv} (h : Memory.wf n.win = true) : Memory.wf n.dropOther.win = true := by
  unfold Nv.dropOther; split <;> exact h
theorem Nv.restart_wf {n : Nv} (h : Memory.wf n.win = true) : Memory.wf n.restart.win = true := h

/-! ### Control -/

theorem Upheld.ite {c : Prop} [Decidable c] {a b : State} (ha : Upheld wq a) (hb : Upheld wq b) : Upheld wq (if c then a else b) := by
  split <;> assumption

theorem Upheld.foldl {α : Type} {l : List α} {f : State → α → State} (h : Upheld wq s)
    (hf : ∀ t x, Upheld wq t → Upheld wq (f t x)) : Upheld wq (l.foldl f s) := by
  induction l generalizing s with
  | nil => exact h
  | cons x l ih => exact ih (hf s x h)

theorem Upheld.of_pair {α : Type} {p : α × State} {a : α} (h : Upheld wq p.2) (e : p = (a, t)) : Upheld wq t := by
  subst e; exact h

theorem Upheld.of_triple {α β : Type} {p : α × β × State} {a : α} {b : β} (h : Upheld wq p.2.2) (e : p = (a, b, t)) : Upheld wq t := by
  subst e; exact h

end Sys2Proof.Machine
end

