-- ==== Sys2Proof/Laws/KeepsOps.lean ====
section
/-!
SUPPORT. Every state that Machine/Ops.lean builds from a sound state is sound, with the same commands waiting.
-/
namespace Sys2Proof.Machine

theorem setReg_keeps {wq : List Instr} (s : State) (k : Nat) (v : Nat) (hs : Upheld wq s) : Upheld wq (State.setReg s k v) :=
  Upheld.setRegs hs fun h => SMap.wf_set (Nat.mod_lt _ (Nat.two_pow_pos _)) h.sound.regs

theorem setRegI_keeps {wq : List Instr} (s : State) (k : Nat) (i : Int) (hs : Upheld wq s) :
    Upheld wq (State.setRegI s k i) := by
  unfold State.setRegI
  repeat' (with_reducible first | assumption | intro _ | apply setReg_keeps | dsimp +zetaDelta only)

theorem putBit_keeps {wq : List Instr} (s : State) (k i : Nat) (b : Bool) (hs : Upheld wq s) :
    Upheld wq (State.putBit s k i b) := by
  unfold State.putBit
  repeat' (with_reducible first | assumption | intro _ | apply setReg_keeps | dsimp +zetaDelta only)

theorem incSat_keeps {wq : List Instr} (s : State) (k : Nat) (hs : Upheld wq s) :
    Upheld wq (State.incSat s k) := by
  unfold State.incSat
  repeat' (with_reducible first | assumption | intro _ | apply setReg_keeps | dsimp +zetaDelta only)

theorem addSat_keeps {wq : List Instr} (s : State) (k n : Nat) (hs : Upheld wq s) :
    Upheld wq (State.addSat s k n) := by
  unfold State.addSat
  repeat' (with_reducible first | assumption | intro _ | apply setReg_keeps | dsimp +zetaDelta only)

theorem tickFree_keeps {wq : List Instr} (s : State) (hs : Upheld wq s) :
    Upheld wq (State.tickFree s) := by
  unfold State.tickFree
  repeat' (with_reducible first
    | assumption | intro _ | extract_lets | ((conv => arg 2; arg 27); apply Upheld.of_mk) | exact (‹Upheld wq _›).sound.stack
    | exact (‹Upheld wq _›).sound.spi | exact (‹Upheld wq _›).sound.window | exact (‹Upheld wq _›).sound.queue
    | exact (‹Upheld wq _›).sound.keys | dsimp +zetaDelta only)

theorem countUp_keeps {wq : List Instr} (s : State) (k : Nat) (hs : Upheld wq s) :
    Upheld wq (State.countUp s k) := by
  unfold State.countUp
  repeat' (with_reducible first
    | assumption | intro _ | apply setReg_keeps | apply tickFree_keeps | apply Upheld.ite | split | dsimp +zetaDelta only)

theorem raiseIrq_keeps {wq : List Instr} (s : State) (bit : Nat) (hs : Upheld wq s) :
    Upheld wq (State.raiseIrq s bit) := by
  unfold State.raiseIrq
  repeat' (with_reducible first
    | assumption | intro _ | extract_lets | ((conv => arg 2; arg 27); apply Upheld.of_mk) | exact (‹Upheld wq _›).sound.stack
    | exact (‹Upheld wq _›).sound.spi | exact (‹Upheld wq _›).sound.window | exact (‹Upheld wq _›).sound.queue
    | exact (‹Upheld wq _›).sound.keys | dsimp +zetaDelta only)

theorem pushLog_keeps {wq : List Instr} (s : State) (typ : Nat) (payload : List Nat) (hs : Upheld wq s) :
    Upheld wq (State.pushLog s typ payload) := by
  unfold State.pushLog
  dsimp only
  split
  · exact Upheld.setLog hs fun _ => by simp only [List.length_append, List.length_singleton]; omega
  · exact Upheld.setLog hs fun h => h.sound.queue

theorem Nv.append_win (n : Nv) (key : Nat) (value : List Nat) : (n.append key value).1.win = n.win := by
  unfold Nv.append
  extract_lets a size ok r
  split
  · rfl
  · exact Nv.setArea_win _ _

theorem storeParam_keeps {wq : List Instr} (s : State) (key : Nat) (value : List Nat) (hs : Upheld wq s) :
    Upheld wq (State.storeParam s key value).2 := by
  unfold State.storeParam
  extract_lets first second n start s1
  have e : n.win = s.nv.win := by
    show second.1.win = _
    unfold second
    split
    · exact Nv.append_win _ _ _
    · rw [Nv.append_win, Nv.append_win]
  have h1 : Upheld wq s1 := Upheld.setNv hs fun h => by show Memory.wf n.win = true; rw [e]; exact h.sound.window
  clear_value s1
  split
  · exact h1
  · exact pushLog_keeps _ _ _ h1

theorem countTally_keeps {wq : List Instr} (s : State) (key : Nat) (hs : Upheld wq s) :
    Upheld wq (State.countTally s key) := by
  unfold State.countTally
  repeat' (with_reducible first
    | assumption | intro _ | apply Upheld.ite | extract_lets | split | ((conv => arg 2; arg 27); apply Upheld.of_mk)
    | exact (‹Upheld wq _›).sound.stack | exact (‹Upheld wq _›).sound.spi | exact (‹Upheld wq _›).sound.window
    | exact (‹Upheld wq _›).sound.queue | exact (‹Upheld wq _›).sound.keys | dsimp +zetaDelta only)

end Sys2Proof.Machine
end

