-- ==== Sys2Proof/Laws/KeepsKlpOps.lean ====
section
/-!
SUPPORT. Every state that Machine/KlpOps.lean builds from a sound state is sound, with the same commands waiting.
-/
namespace Sys2Proof.Machine

theorem withKlp_keeps {wq : List Instr} (s : State) (k : Klp) (hs : Upheld wq s) (e : Upheld wq s → k.fifo.length ≤ 8) :
    Upheld wq (State.withKlp s k) := Upheld.setKlp hs e

theorem touch_keeps {wq : List Instr} (s : State) (id : Nat) (hs : Upheld wq s) :
    Upheld wq (State.touch s id) := by
  unfold State.touch
  repeat' (with_reducible first
    | assumption | intro _ | apply Upheld.ite | extract_lets | split | ((conv => arg 2; arg 27); apply Upheld.of_mk)
    | exact (‹Upheld wq _›).sound.stack | exact (‹Upheld wq _›).sound.spi | exact (‹Upheld wq _›).sound.window
    | exact (‹Upheld wq _›).sound.queue | exact (‹Upheld wq _›).sound.keys | dsimp +zetaDelta only)

theorem setLevel_keeps {wq : List Instr} (s : State) (id level : Nat) (hs : Upheld wq s) :
    Upheld wq (State.setLevel s id level) := by
  unfold State.setLevel
  repeat' (with_reducible first
    | assumption | intro _ | apply Upheld.ite | extract_lets | split | ((conv => arg 2; arg 27); apply Upheld.of_mk)
    | exact (‹Upheld wq _›).sound.stack | exact (‹Upheld wq _›).sound.spi | exact (‹Upheld wq _›).sound.window
    | exact (‹Upheld wq _›).sound.queue | exact (‹Upheld wq _›).sound.keys | dsimp +zetaDelta only)

theorem deliver_keeps {wq : List Instr} (s : State) (r : Resp) (hs : Upheld wq s) : Upheld wq (State.deliver s r) := by
  unfold State.deliver
  split
  · split
    · exact Upheld.setKlp hs fun _ => by simp only [List.length_append, List.length_singleton]; omega
    · exact Upheld.setKlp hs fun h => h.sound.spi
  · exact Upheld.setKlp hs fun h => h.sound.spi

theorem dequeue_keeps {wq : List Instr} (s : State) (q : Request) (hs : Upheld wq s) :
    Upheld wq (State.dequeue s q) := by
  unfold State.dequeue
  repeat' (with_reducible first
    | assumption | intro _ | extract_lets | ((conv => arg 2; arg 27); apply Upheld.of_mk) | apply erase_le
    | exact (‹Upheld wq _›).sound.stack | exact (‹Upheld wq _›).sound.spi | exact (‹Upheld wq _›).sound.window
    | exact (‹Upheld wq _›).sound.queue | exact (‹Upheld wq _›).sound.keys | dsimp +zetaDelta only)

theorem enqueueRequest_keeps {wq : List Instr} (s : State) (q : Request) (hs : Upheld wq s) :
    Upheld wq (State.enqueueRequest s q) := by
  unfold State.enqueueRequest
  repeat' (with_reducible first
    | assumption | intro _ | apply Upheld.ite | extract_lets | split | refine Upheld.of_pair ?_ (by assumption)
    | ((conv => arg 2; arg 27); apply Upheld.of_mk) | exact (‹Upheld wq _›).sound.stack | exact (‹Upheld wq _›).sound.spi
    | exact (‹Upheld wq _›).sound.window | exact (‹Upheld wq _›).sound.queue | exact (‹Upheld wq _›).sound.keys
    | dsimp +zetaDelta only)

theorem keep_keeps {wq : List Instr} (s : State) (q : Request) (r : Resp) (hs : Upheld wq s) :
    Upheld wq (State.keep s q r) := by
  unfold State.keep
  repeat' (with_reducible first
    | assumption | intro _ | extract_lets | ((conv => arg 2; arg 27); apply Upheld.of_mk) | exact (‹Upheld wq _›).sound.stack
    | exact (‹Upheld wq _›).sound.spi | exact (‹Upheld wq _›).sound.window | exact (‹Upheld wq _›).sound.queue
    | exact (‹Upheld wq _›).sound.keys | dsimp +zetaDelta only)

theorem answer_keeps {wq : List Instr} (s : State) (q : Request) (st : Status) (data : List Nat) (hs : Upheld wq s) :
    Upheld wq (State.answer s q st data) := by
  unfold State.answer
  repeat' (with_reducible first
    | assumption | intro _ | apply keep_keeps | apply deliver_keeps | apply Upheld.ite | extract_lets | split
    | ((conv => arg 2; arg 27); apply Upheld.of_mk) | exact (‹Upheld wq _›).sound.stack | exact (‹Upheld wq _›).sound.spi
    | exact (‹Upheld wq _›).sound.window | exact (‹Upheld wq _›).sound.queue | exact (‹Upheld wq _›).sound.keys
    | dsimp +zetaDelta only)

theorem request_keeps {wq : List Instr} (s : State) (q : Request) (pre : State → Option Status) (run : State → Status × List Nat × State) (hs : Upheld wq s) (hrun : ∀ t, Upheld wq t → Upheld wq (run t).2.2) :
    Upheld wq (State.request s q pre run) := by
  unfold State.request
  repeat' (with_reducible first
    | assumption | intro _ | apply dequeue_keeps | apply enqueueRequest_keeps | apply answer_keeps | apply deliver_keeps
    | apply touch_keeps | apply Upheld.ite | apply hpre | apply hrun | extract_lets | split
    | refine Upheld.of_pair ?_ (by assumption) | ((conv => arg 2; arg 27); apply Upheld.of_mk)
    | exact (‹Upheld wq _›).sound.stack | exact (‹Upheld wq _›).sound.spi | exact (‹Upheld wq _›).sound.window
    | exact (‹Upheld wq _›).sound.queue | exact (‹Upheld wq _›).sound.keys | dsimp +zetaDelta only)

theorem putEntry_keeps {wq : List Instr} (s : State) (key v : Nat) (hs : Upheld wq s) :
    Upheld wq (State.putEntry s key v).2 := by
  unfold State.putEntry
  repeat' (with_reducible first
    | assumption | intro _ | apply storeParam_keeps | apply setReg_keeps | apply Upheld.ite | extract_lets | split
    | refine Upheld.of_pair ?_ (by assumption) | ((conv => arg 2; arg 27); apply Upheld.of_mk)
    | exact (‹Upheld wq _›).sound.stack | exact (‹Upheld wq _›).sound.spi | exact (‹Upheld wq _›).sound.window
    | exact (‹Upheld wq _›).sound.queue | exact (‹Upheld wq _›).sound.keys | dsimp +zetaDelta only)

theorem andThen_keeps {wq : List Instr} (r : Status × State) (f : State → State) (hr : Upheld wq r.2) (hf : ∀ t, Upheld wq t → Upheld wq (f t)) :
    Upheld wq (andThen r f).2 := by
  unfold andThen
  repeat' (with_reducible first | assumption | intro _ | apply Upheld.ite | apply hf | split | dsimp +zetaDelta only)

theorem plainRule_keeps {wq : List Instr} (key : Nat) (s : State) (v : Nat) (hs : Upheld wq s) :
    Upheld wq (plainRule key s v).2 := by
  unfold plainRule
  repeat' (with_reducible first
    | assumption | intro _ | apply putEntry_keeps | apply Upheld.ite | split | dsimp +zetaDelta only)

theorem ledgerWrite_keeps {wq : List Instr} (s : State) (w : Wr) (key : Nat) (rule : State → Nat → Status × State) (hs : Upheld wq s) (hrule : ∀ t v, Upheld wq t → Upheld wq (rule t v).2) :
    Upheld wq (State.ledgerWrite s w key rule) := by
  unfold State.ledgerWrite
  repeat' (with_reducible first
    | assumption | intro _ | apply request_keeps | apply hrule | extract_lets | dsimp +zetaDelta only)

end Sys2Proof.Machine
end

