-- ==== Sys2Proof/Laws/KeepsBusOps.lean ====
section
/-!
SUPPORT. Every state that Machine/BusOps.lean builds from a sound state is sound, with the same commands waiting.
-/
namespace Sys2Proof.Machine

theorem setChan_keeps {wq : List Instr} (s : State) (c : Bus) (x : Channel) (hs : Upheld wq s) :
    Upheld wq (State.setChan s c x) := by
  unfold State.setChan
  repeat' (with_reducible first
    | assumption | intro _ | extract_lets | ((conv => arg 2; arg 27); apply Upheld.of_mk) | exact (‹Upheld wq _›).sound.stack
    | exact (‹Upheld wq _›).sound.spi | exact (‹Upheld wq _›).sound.window | exact (‹Upheld wq _›).sound.queue
    | exact (‹Upheld wq _›).sound.keys | dsimp +zetaDelta only)

theorem enqueue_keeps {wq : List Instr} (s : State) (c : Bus) (q : Nat) (f : TxFrame) (hs : Upheld wq s) :
    Upheld wq (State.enqueue s c q f).2 := by
  unfold State.enqueue
  repeat' (with_reducible first
    | assumption | intro _ | apply setChan_keeps | apply Upheld.ite | extract_lets | split
    | ((conv => arg 2; arg 27); apply Upheld.of_mk) | exact (‹Upheld wq _›).sound.stack | exact (‹Upheld wq _›).sound.spi
    | exact (‹Upheld wq _›).sound.window | exact (‹Upheld wq _›).sound.queue | exact (‹Upheld wq _›).sound.keys
    | dsimp +zetaDelta only)

theorem withBw_keeps {wq : List Instr} (s : State) (b : Breakwater) (hs : Upheld wq s) :
    Upheld wq (State.withBw s b) := by
  unfold State.withBw
  repeat' (with_reducible first
    | assumption | intro _ | extract_lets | ((conv => arg 2; arg 27); apply Upheld.of_mk) | exact (‹Upheld wq _›).sound.stack
    | exact (‹Upheld wq _›).sound.spi | exact (‹Upheld wq _›).sound.window | exact (‹Upheld wq _›).sound.queue
    | exact (‹Upheld wq _›).sound.keys | dsimp +zetaDelta only)

theorem giveAlarm_keeps {wq : List Instr} (s : State) (source : Nat) (f : CanFrame) (c : Bus) (hs : Upheld wq s) :
    Upheld wq (State.giveAlarm s source f c) := by
  unfold State.giveAlarm
  repeat' (with_reducible first
    | assumption | intro _ | apply enqueue_keeps | apply withBw_keeps | apply Upheld.ite | extract_lets | split
    | ((conv => arg 2; arg 27); apply Upheld.of_mk) | apply Nv.compact_wf | exact (‹Upheld wq _›).sound.stack
    | exact (‹Upheld wq _›).sound.spi | exact (‹Upheld wq _›).sound.window | exact (‹Upheld wq _›).sound.queue
    | exact (‹Upheld wq _›).sound.keys | dsimp +zetaDelta only)

theorem releaseFrame_keeps {wq : List Instr} (s : State) (e : BwEvent) (suppressed summary : Bool) (hs : Upheld wq s) :
    Upheld wq (State.releaseFrame s e suppressed summary) := by
  unfold State.releaseFrame
  repeat' (with_reducible first
    | assumption | intro _ | apply withBw_keeps | apply giveAlarm_keeps | apply raiseIrq_keeps | apply Upheld.foldl
    | apply Upheld.ite | extract_lets | split | ((conv => arg 2; arg 27); apply Upheld.of_mk)
    | exact (‹Upheld wq _›).sound.stack | exact (‹Upheld wq _›).sound.spi | exact (‹Upheld wq _›).sound.window
    | exact (‹Upheld wq _›).sound.queue | exact (‹Upheld wq _›).sound.keys | dsimp +zetaDelta only)

theorem releaseSource_keeps {wq : List Instr} (s : State) (e : BwEvent) (hs : Upheld wq s) :
    Upheld wq (State.releaseSource s e) := by
  unfold State.releaseSource
  repeat' (with_reducible first
    | assumption | intro _ | apply releaseFrame_keeps | apply withBw_keeps | extract_lets
    | ((conv => arg 2; arg 27); apply Upheld.of_mk) | exact (‹Upheld wq _›).sound.stack | exact (‹Upheld wq _›).sound.spi
    | exact (‹Upheld wq _›).sound.window | exact (‹Upheld wq _›).sound.queue | exact (‹Upheld wq _›).sound.keys
    | dsimp +zetaDelta only)

theorem holdEvent_keeps {wq : List Instr} (s : State) (e : BwEvent) (hs : Upheld wq s) :
    Upheld wq (State.holdEvent s e) := by
  unfold State.holdEvent
  repeat' (with_reducible first
    | assumption | intro _ | apply withBw_keeps | apply Upheld.ite | extract_lets | split
    | ((conv => arg 2; arg 27); apply Upheld.of_mk) | exact (‹Upheld wq _›).sound.stack | exact (‹Upheld wq _›).sound.spi
    | exact (‹Upheld wq _›).sound.window | exact (‹Upheld wq _›).sound.queue | exact (‹Upheld wq _›).sound.keys
    | dsimp +zetaDelta only)

theorem alarm_keeps {wq : List Instr} (s : State) (e : BwEvent) (hs : Upheld wq s) :
    Upheld wq (State.alarm s e) := by
  unfold State.alarm
  repeat' (with_reducible first
    | assumption | intro _ | apply holdEvent_keeps | apply releaseSource_keeps | apply Upheld.ite | split
    | dsimp +zetaDelta only)

theorem alarmOf_keeps {wq : List Instr} (s : State) (source state value flags : Nat) (hs : Upheld wq s) :
    Upheld wq (State.alarmOf s source state value flags) := by
  unfold State.alarmOf
  repeat' (with_reducible first | assumption | intro _ | apply alarm_keeps | dsimp +zetaDelta only)

theorem breakwaterRow_keeps {wq : List Instr} (s : State) (hs : Upheld wq s) :
    Upheld wq (State.breakwaterRow s) := by
  unfold State.breakwaterRow
  repeat' (with_reducible first
    | assumption | intro _ | apply withBw_keeps | apply giveAlarm_keeps | apply releaseSource_keeps | apply Upheld.foldl
    | apply Upheld.ite | extract_lets | split | refine Upheld.of_pair ?_ (by assumption)
    | ((conv => arg 2; arg 27); apply Upheld.of_mk) | exact (‹Upheld wq _›).sound.stack | exact (‹Upheld wq _›).sound.spi
    | exact (‹Upheld wq _›).sound.window | exact (‹Upheld wq _›).sound.queue | exact (‹Upheld wq _›).sound.keys
    | dsimp +zetaDelta only)

end Sys2Proof.Machine
end

