-- ==== Sys2Proof/Laws/KeepsActOps.lean ====
section
/-!
SUPPORT. Every state that Machine/ActOps.lean builds from a sound state is sound, with the same commands waiting.
-/
namespace Sys2Proof.Machine

theorem setOut_keeps {wq : List Instr} (s : State) (i : Nat) (o : OutUnit) (hs : Upheld wq s) :
    Upheld wq (State.setOut s i o) := by
  unfold State.setOut
  repeat' (with_reducible first
    | assumption | intro _ | extract_lets | ((conv => arg 2; arg 27); apply Upheld.of_mk) | exact (‹Upheld wq _›).sound.stack
    | exact (‹Upheld wq _›).sound.spi | exact (‹Upheld wq _›).sound.window | exact (‹Upheld wq _›).sound.queue
    | exact (‹Upheld wq _›).sound.keys | dsimp +zetaDelta only)

theorem applyLevel_keeps {wq : List Instr} (s : State) (i level : Nat) (hs : Upheld wq s) :
    Upheld wq (State.applyLevel s i level) := by
  unfold State.applyLevel
  repeat' (with_reducible first
    | assumption | intro _ | apply setOut_keeps | apply Upheld.ite | extract_lets | split
    | ((conv => arg 2; arg 27); apply Upheld.of_mk) | exact (‹Upheld wq _›).sound.stack | exact (‹Upheld wq _›).sound.spi
    | exact (‹Upheld wq _›).sound.window | exact (‹Upheld wq _›).sound.queue | exact (‹Upheld wq _›).sound.keys
    | dsimp +zetaDelta only)

theorem commandOut_keeps {wq : List Instr} (s : State) (i level : Nat) (hs : Upheld wq s) :
    Upheld wq (State.commandOut s i level) := by
  unfold State.commandOut
  repeat' (with_reducible first
    | assumption | intro _ | apply setOut_keeps | extract_lets | ((conv => arg 2; arg 27); apply Upheld.of_mk)
    | exact (‹Upheld wq _›).sound.stack | exact (‹Upheld wq _›).sound.spi | exact (‹Upheld wq _›).sound.window
    | exact (‹Upheld wq _›).sound.queue | exact (‹Upheld wq _›).sound.keys | dsimp +zetaDelta only)

theorem applyStorm_keeps {wq : List Instr} (s : State) (i : Nat) (hs : Upheld wq s) :
    Upheld wq (State.applyStorm s i) := by
  unfold State.applyStorm
  repeat' (with_reducible first
    | assumption | intro _ | apply setOut_keeps | apply applyLevel_keeps | apply Upheld.ite | extract_lets | split
    | ((conv => arg 2; arg 27); apply Upheld.of_mk) | exact (‹Upheld wq _›).sound.stack | exact (‹Upheld wq _›).sound.spi
    | exact (‹Upheld wq _›).sound.window | exact (‹Upheld wq _›).sound.queue | exact (‹Upheld wq _›).sound.keys
    | dsimp +zetaDelta only)

theorem applyStorms_keeps {wq : List Instr} (s : State) (hs : Upheld wq s) :
    Upheld wq (State.applyStorms s) := by
  unfold State.applyStorms
  repeat' (with_reducible first | assumption | intro _ | apply applyStorm_keeps | apply Upheld.foldl | dsimp +zetaDelta only)

theorem setFan_keeps {wq : List Instr} (s : State) (c : Nat) (f : FanUnit) (hs : Upheld wq s) :
    Upheld wq (State.setFan s c f) := by
  unfold State.setFan
  repeat' (with_reducible first
    | assumption | intro _ | extract_lets | ((conv => arg 2; arg 27); apply Upheld.of_mk) | exact (‹Upheld wq _›).sound.stack
    | exact (‹Upheld wq _›).sound.spi | exact (‹Upheld wq _›).sound.window | exact (‹Upheld wq _›).sound.queue
    | exact (‹Upheld wq _›).sound.keys | dsimp +zetaDelta only)

theorem setTach_keeps {wq : List Instr} (s : State) (k : Nat) (t : TachUnit) (hs : Upheld wq s) :
    Upheld wq (State.setTach s k t) := by
  unfold State.setTach
  repeat' (with_reducible first
    | assumption | intro _ | extract_lets | ((conv => arg 2; arg 27); apply Upheld.of_mk) | exact (‹Upheld wq _›).sound.stack
    | exact (‹Upheld wq _›).sound.spi | exact (‹Upheld wq _›).sound.window | exact (‹Upheld wq _›).sound.queue
    | exact (‹Upheld wq _›).sound.keys | dsimp +zetaDelta only)

theorem clearTugEdges_keeps {wq : List Instr} (s : State) (c : Nat) (hs : Upheld wq s) :
    Upheld wq (State.clearTugEdges s c) := by
  unfold State.clearTugEdges
  repeat' (with_reducible first
    | assumption | intro _ | apply setTach_keeps | apply Upheld.foldl | extract_lets
    | ((conv => arg 2; arg 27); apply Upheld.of_mk) | exact (‹Upheld wq _›).sound.stack | exact (‹Upheld wq _›).sound.spi
    | exact (‹Upheld wq _›).sound.window | exact (‹Upheld wq _›).sound.queue | exact (‹Upheld wq _›).sound.keys
    | dsimp +zetaDelta only)

theorem startTug_keeps {wq : List Instr} (s : State) (c attempt : Nat) (retry : Bool) (hs : Upheld wq s) :
    Upheld wq (State.startTug s c attempt retry) := by
  unfold State.startTug
  repeat' (with_reducible first
    | assumption | intro _ | apply setFan_keeps | apply clearTugEdges_keeps | extract_lets
    | ((conv => arg 2; arg 27); apply Upheld.of_mk) | exact (‹Upheld wq _›).sound.stack | exact (‹Upheld wq _›).sound.spi
    | exact (‹Upheld wq _›).sound.window | exact (‹Upheld wq _›).sound.queue | exact (‹Upheld wq _›).sound.keys
    | dsimp +zetaDelta only)

theorem fanRow_keeps {wq : List Instr} (s : State) (c : Nat) (hs : Upheld wq s) :
    Upheld wq (State.fanRow s c) := by
  unfold State.fanRow
  repeat' (with_reducible first
    | assumption | intro _ | apply setFan_keeps | apply Upheld.ite | extract_lets | split
    | ((conv => arg 2; arg 27); apply Upheld.of_mk) | exact (‹Upheld wq _›).sound.stack | exact (‹Upheld wq _›).sound.spi
    | exact (‹Upheld wq _›).sound.window | exact (‹Upheld wq _›).sound.queue | exact (‹Upheld wq _›).sound.keys
    | dsimp +zetaDelta only)

theorem endShort_keeps {wq : List Instr} (s : State) (c : Nat) (hs : Upheld wq s) :
    Upheld wq (State.endShort s c) := by
  unfold State.endShort
  repeat' (with_reducible first
    | assumption | intro _ | apply setFan_keeps | apply alarmOf_keeps | apply Upheld.ite | extract_lets | split
    | ((conv => arg 2; arg 27); apply Upheld.of_mk) | exact (‹Upheld wq _›).sound.stack | exact (‹Upheld wq _›).sound.spi
    | exact (‹Upheld wq _›).sound.window | exact (‹Upheld wq _›).sound.queue | exact (‹Upheld wq _›).sound.keys
    | dsimp +zetaDelta only)

theorem commandFan_keeps {wq : List Instr} (s : State) (c mv : Nat) (hs : Upheld wq s) :
    Upheld wq (State.commandFan s c mv) := by
  unfold State.commandFan
  repeat' (with_reducible first
    | assumption | intro _ | apply setFan_keeps | apply endShort_keeps | apply startTug_keeps | apply Upheld.ite | extract_lets
    | split | ((conv => arg 2; arg 27); apply Upheld.of_mk) | exact (‹Upheld wq _›).sound.stack
    | exact (‹Upheld wq _›).sound.spi | exact (‹Upheld wq _›).sound.window | exact (‹Upheld wq _›).sound.queue
    | exact (‹Upheld wq _›).sound.keys | dsimp +zetaDelta only)

theorem stallTach_keeps {wq : List Instr} (s : State) (c k : Nat) (hs : Upheld wq s) :
    Upheld wq (State.stallTach s c k) := by
  unfold State.stallTach
  repeat' (with_reducible first
    | assumption | intro _ | apply setTach_keeps | apply setFan_keeps | apply pushLog_keeps | apply alarmOf_keeps | extract_lets
    | ((conv => arg 2; arg 27); apply Upheld.of_mk) | exact (‹Upheld wq _›).sound.stack | exact (‹Upheld wq _›).sound.spi
    | exact (‹Upheld wq _›).sound.window | exact (‹Upheld wq _›).sound.queue | exact (‹Upheld wq _›).sound.keys
    | dsimp +zetaDelta only)

theorem stallChannel_keeps {wq : List Instr} (s : State) (c : Nat) (record : Bool) (hs : Upheld wq s) :
    Upheld wq (State.stallChannel s c record) := by
  unfold State.stallChannel
  repeat' (with_reducible first
    | assumption | intro _ | apply setFan_keeps | apply pushLog_keeps | apply setTach_keeps | apply alarmOf_keeps
    | apply Upheld.foldl | apply Upheld.ite | extract_lets | split | ((conv => arg 2; arg 27); apply Upheld.of_mk)
    | exact (‹Upheld wq _›).sound.stack | exact (‹Upheld wq _›).sound.spi | exact (‹Upheld wq _›).sound.window
    | exact (‹Upheld wq _›).sound.queue | exact (‹Upheld wq _›).sound.keys | dsimp +zetaDelta only)

theorem triacHalf_keeps {wq : List Instr} (s : State) (i cross half : Nat) (hs : Upheld wq s) :
    Upheld wq (State.triacHalf s i cross half) := by
  unfold State.triacHalf
  repeat' (with_reducible first
    | assumption | intro _ | apply setOut_keeps | apply applyLevel_keeps | apply Upheld.ite | extract_lets | split
    | refine Upheld.of_pair ?_ (by assumption) | ((conv => arg 2; arg 27); apply Upheld.of_mk)
    | exact (‹Upheld wq _›).sound.stack | exact (‹Upheld wq _›).sound.spi | exact (‹Upheld wq _›).sound.window
    | exact (‹Upheld wq _›).sound.queue | exact (‹Upheld wq _›).sound.keys | dsimp +zetaDelta only)

end Sys2Proof.Machine
end

