-- ==== Sys2Proof/Laws/KeepsLoopOps.lean ====
section
/-!
SUPPORT. Every state that Machine/LoopOps.lean builds from a sound state is sound, with the same commands waiting.
-/
namespace Sys2Proof.Machine

theorem setLoopRun_keeps {wq : List Instr} (s : State) (l : Nat) (r : LoopRun) (hs : Upheld wq s) :
    Upheld wq (State.setLoopRun s l r) := by
  unfold State.setLoopRun
  repeat' (with_reducible first
    | assumption | intro _ | extract_lets | ((conv => arg 2; arg 27); apply Upheld.of_mk) | exact (‹Upheld wq _›).sound.stack
    | exact (‹Upheld wq _›).sound.spi | exact (‹Upheld wq _›).sound.window | exact (‹Upheld wq _›).sound.queue
    | exact (‹Upheld wq _›).sound.keys | dsimp +zetaDelta only)

theorem setZoneRun_keeps {wq : List Instr} (s : State) (z : Nat) (r : ZoneRun) (hs : Upheld wq s) :
    Upheld wq (State.setZoneRun s z r) := by
  unfold State.setZoneRun
  repeat' (with_reducible first
    | assumption | intro _ | extract_lets | ((conv => arg 2; arg 27); apply Upheld.of_mk) | exact (‹Upheld wq _›).sound.stack
    | exact (‹Upheld wq _›).sound.spi | exact (‹Upheld wq _›).sound.window | exact (‹Upheld wq _›).sound.queue
    | exact (‹Upheld wq _›).sound.keys | dsimp +zetaDelta only)

theorem evalPrograms_keeps {wq : List Instr} (s : State) (hs : Upheld wq s) :
    Upheld wq (State.evalPrograms s) := by
  unfold State.evalPrograms
  repeat' (with_reducible first
    | assumption | intro _ | apply setReg_keeps | apply Upheld.foldl | apply Upheld.ite | extract_lets | split
    | ((conv => arg 2; arg 27); apply Upheld.of_mk) | exact (‹Upheld wq _›).sound.stack | exact (‹Upheld wq _›).sound.spi
    | exact (‹Upheld wq _›).sound.window | exact (‹Upheld wq _›).sound.queue | exact (‹Upheld wq _›).sound.keys
    | dsimp +zetaDelta only)

theorem updateZone_keeps {wq : List Instr} (s : State) (z : Nat) (hs : Upheld wq s) :
    Upheld wq (State.updateZone s z) := by
  unfold State.updateZone
  repeat' (with_reducible first
    | assumption | intro _ | apply setZoneRun_keeps | apply setReg_keeps | apply Upheld.ite | extract_lets | split
    | ((conv => arg 2; arg 27); apply Upheld.of_mk) | exact (‹Upheld wq _›).sound.stack | exact (‹Upheld wq _›).sound.spi
    | exact (‹Upheld wq _›).sound.window | exact (‹Upheld wq _›).sound.queue | exact (‹Upheld wq _›).sound.keys
    | dsimp +zetaDelta only)

theorem updateZones_keeps {wq : List Instr} (s : State) (hs : Upheld wq s) :
    Upheld wq (State.updateZones s) := by
  unfold State.updateZones
  repeat' (with_reducible first | assumption | intro _ | apply updateZone_keeps | apply Upheld.foldl | dsimp +zetaDelta only)

theorem setTxSlot_keeps {wq : List Instr} (s : State) (n v : Nat) (hs : Upheld wq s) :
    Upheld wq (State.setTxSlot s n v) := by
  unfold State.setTxSlot
  repeat' (with_reducible first
    | assumption | intro _ | extract_lets | ((conv => arg 2; arg 27); apply Upheld.of_mk) | exact (‹Upheld wq _›).sound.stack
    | exact (‹Upheld wq _›).sound.spi | exact (‹Upheld wq _›).sound.window | exact (‹Upheld wq _›).sound.queue
    | exact (‹Upheld wq _›).sound.keys | dsimp +zetaDelta only)

theorem writeTarget_keeps {wq : List Instr} (s : State) (t : Nat) (u : Int) (hs : Upheld wq s) :
    Upheld wq (State.writeTarget s t u) := by
  unfold State.writeTarget
  repeat' (with_reducible first
    | assumption | intro _ | apply commandOut_keeps | apply commandFan_keeps | apply setTxSlot_keeps | apply Upheld.ite
    | extract_lets | split | dsimp +zetaDelta only)

theorem runAuto_keeps {wq : List Instr} (s : State) (l : Nat) (hs : Upheld wq s) :
    Upheld wq (State.runAuto s l) := by
  unfold State.runAuto
  repeat' (with_reducible first
    | assumption | intro _ | apply setLoopRun_keeps | apply incSat_keeps | apply writeTarget_keeps | apply Upheld.ite
    | extract_lets | split | refine Upheld.of_pair ?_ (by assumption) | ((conv => arg 2; arg 27); apply Upheld.of_mk)
    | exact (‹Upheld wq _›).sound.stack | exact (‹Upheld wq _›).sound.spi | exact (‹Upheld wq _›).sound.window
    | exact (‹Upheld wq _›).sound.queue | exact (‹Upheld wq _›).sound.keys | dsimp +zetaDelta only)

theorem runManual_keeps {wq : List Instr} (s : State) (l : Nat) (hs : Upheld wq s) :
    Upheld wq (State.runManual s l) := by
  unfold State.runManual
  repeat' (with_reducible first
    | assumption | intro _ | apply setLoopRun_keeps | apply writeTarget_keeps | apply Upheld.ite | extract_lets | split
    | ((conv => arg 2; arg 27); apply Upheld.of_mk) | exact (‹Upheld wq _›).sound.stack | exact (‹Upheld wq _›).sound.spi
    | exact (‹Upheld wq _›).sound.window | exact (‹Upheld wq _›).sound.queue | exact (‹Upheld wq _›).sound.keys
    | dsimp +zetaDelta only)

theorem runOff_keeps {wq : List Instr} (s : State) (l : Nat) (hs : Upheld wq s) : Upheld wq (State.runOff s l) :=
  setLoopRun_keeps _ _ _ hs

theorem runLoops_keeps {wq : List Instr} (s : State) (t : Nat) (hs : Upheld wq s) :
    Upheld wq (State.runLoops s t) := by
  unfold State.runLoops
  repeat' (with_reducible first
    | assumption | intro _ | apply runAuto_keeps | apply runManual_keeps | apply runOff_keeps | apply Upheld.foldl | apply Upheld.ite | split
    | dsimp +zetaDelta only)

theorem enterAutonomous_keeps {wq : List Instr} (s : State) (reason : Nat) (hs : Upheld wq s) :
    Upheld wq (State.enterAutonomous s reason) := by
  unfold State.enterAutonomous
  repeat' (with_reducible first
    | assumption | intro _ | apply pushLog_keeps | apply Upheld.ite | extract_lets | split
    | ((conv => arg 2; arg 27); apply Upheld.of_mk) | exact (‹Upheld wq _›).sound.stack | exact (‹Upheld wq _›).sound.spi
    | exact (‹Upheld wq _›).sound.window | exact (‹Upheld wq _›).sound.queue | exact (‹Upheld wq _›).sound.keys
    | dsimp +zetaDelta only)

theorem noteAutonomous_keeps {wq : List Instr} (s : State) (hs : Upheld wq s) : Upheld wq (State.noteAutonomous s) :=
  Upheld.ite (enterAutonomous_keeps _ _ hs) hs

theorem leaveAutonomous_keeps {wq : List Instr} (s : State) (hs : Upheld wq s) :
    Upheld wq (State.leaveAutonomous s) := by
  unfold State.leaveAutonomous
  repeat' (with_reducible first
    | assumption | intro _ | apply pushLog_keeps | apply Upheld.ite | extract_lets | split
    | ((conv => arg 2; arg 27); apply Upheld.of_mk) | exact (‹Upheld wq _›).sound.stack | exact (‹Upheld wq _›).sound.spi
    | exact (‹Upheld wq _›).sound.window | exact (‹Upheld wq _›).sound.queue | exact (‹Upheld wq _›).sound.keys
    | dsimp +zetaDelta only)

theorem masterHeard_keeps {wq : List Instr} (s : State) (hs : Upheld wq s) :
    Upheld wq (State.masterHeard s) := by
  unfold State.masterHeard
  repeat' (with_reducible first
    | assumption | intro _ | extract_lets | ((conv => arg 2; arg 27); apply Upheld.of_mk) | exact (‹Upheld wq _›).sound.stack
    | exact (‹Upheld wq _›).sound.spi | exact (‹Upheld wq _›).sound.window | exact (‹Upheld wq _›).sound.queue
    | exact (‹Upheld wq _›).sound.keys | dsimp +zetaDelta only)

theorem setEngine_keeps {wq : List Instr} (s : State) (c : Nat) (e : Engine) (hs : Upheld wq s) :
    Upheld wq (State.setEngine s c e) := by
  unfold State.setEngine
  repeat' (with_reducible first
    | assumption | intro _ | extract_lets | ((conv => arg 2; arg 27); apply Upheld.of_mk) | exact (‹Upheld wq _›).sound.stack
    | exact (‹Upheld wq _›).sound.spi | exact (‹Upheld wq _›).sound.window | exact (‹Upheld wq _›).sound.queue
    | exact (‹Upheld wq _›).sound.keys | dsimp +zetaDelta only)

theorem engineEval_keeps {wq : List Instr} (s : State) (c : Nat) (hs : Upheld wq s) :
    Upheld wq (State.engineEval s c) := by
  unfold State.engineEval
  repeat' (with_reducible first
    | assumption | intro _ | apply setEngine_keeps | apply incSat_keeps | apply commandFan_keeps | apply Upheld.ite
    | extract_lets | split | refine Upheld.of_pair ?_ (by assumption) | ((conv => arg 2; arg 27); apply Upheld.of_mk)
    | exact (‹Upheld wq _›).sound.stack | exact (‹Upheld wq _›).sound.spi | exact (‹Upheld wq _›).sound.window
    | exact (‹Upheld wq _›).sound.queue | exact (‹Upheld wq _›).sound.keys | dsimp +zetaDelta only)

theorem takeTables_keeps {wq : List Instr} (s : State) (hs : Upheld wq s) :
    Upheld wq (State.takeTables s) := by
  unfold State.takeTables
  repeat' (with_reducible first
    | assumption | intro _ | extract_lets | split | refine Upheld.of_pair ?_ (by assumption)
    | ((conv => arg 2; arg 27); apply Upheld.of_mk) | exact (‹Upheld wq _›).sound.stack | exact (‹Upheld wq _›).sound.spi
    | exact (‹Upheld wq _›).sound.window | exact (‹Upheld wq _›).sound.queue | exact (‹Upheld wq _›).sound.keys
    | dsimp +zetaDelta only)

theorem engineHolds_keeps {wq : List Instr} (s : State) (hs : Upheld wq s) :
    Upheld wq (State.engineHolds s) := by
  unfold State.engineHolds
  repeat' (with_reducible first
    | assumption | intro _ | apply setEngine_keeps | apply incSat_keeps | apply Upheld.foldl | apply Upheld.ite | extract_lets
    | split | ((conv => arg 2; arg 27); apply Upheld.of_mk) | exact (‹Upheld wq _›).sound.stack
    | exact (‹Upheld wq _›).sound.spi | exact (‹Upheld wq _›).sound.window | exact (‹Upheld wq _›).sound.queue
    | exact (‹Upheld wq _›).sound.keys | dsimp +zetaDelta only)

end Sys2Proof.Machine
end

