-- ==== Sys2Proof/Laws/KeepsFocalOps.lean ====
section
/-!
SUPPORT. Every state that Machine/FocalOps.lean builds from a sound state is sound, with the same commands waiting.
-/
namespace Sys2Proof.Machine

theorem withFocal_keeps {wq : List Instr} (s : State) (f : FocalPart) (hs : Upheld wq s) :
    Upheld wq (State.withFocal s f) := by
  unfold State.withFocal
  repeat' (with_reducible first
    | assumption | intro _ | extract_lets | ((conv => arg 2; arg 27); apply Upheld.of_mk) | exact (‹Upheld wq _›).sound.stack
    | exact (‹Upheld wq _›).sound.spi | exact (‹Upheld wq _›).sound.window | exact (‹Upheld wq _›).sound.queue
    | exact (‹Upheld wq _›).sound.keys | dsimp +zetaDelta only)

theorem reportIntake_keeps {wq : List Instr} (s : State) (slot : Nat) (t : Intake) (hs : Upheld wq s) :
    Upheld wq (State.reportIntake s slot t) := by
  unfold State.reportIntake
  repeat' (with_reducible first
    | assumption | intro _ | apply addSat_keeps | apply countUp_keeps | apply pushLog_keeps | apply Upheld.foldl | extract_lets
    | dsimp +zetaDelta only)

theorem trigger_keeps {wq : List Instr} (s : State) (bit : Nat) (hs : Upheld wq s) :
    Upheld wq (State.trigger s bit) := by
  unfold State.trigger
  repeat' (with_reducible first
    | assumption | intro _ | extract_lets | ((conv => arg 2; arg 27); apply Upheld.of_mk) | exact (‹Upheld wq _›).sound.stack
    | exact (‹Upheld wq _›).sound.spi | exact (‹Upheld wq _›).sound.window | exact (‹Upheld wq _›).sound.queue
    | exact (‹Upheld wq _›).sound.keys | dsimp +zetaDelta only)

theorem gradientPair_keeps {wq : List Instr} (s : State) (k : Nat) (hs : Upheld wq s) :
    Upheld wq (State.gradientPair s k) := by
  unfold State.gradientPair
  repeat' (with_reducible first
    | assumption | intro _ | apply withFocal_keeps | apply putBit_keeps | apply incSat_keeps | apply pushLog_keeps
    | apply trigger_keeps | apply Upheld.ite | extract_lets | split | ((conv => arg 2; arg 27); apply Upheld.of_mk)
    | exact (‹Upheld wq _›).sound.stack | exact (‹Upheld wq _›).sound.spi | exact (‹Upheld wq _›).sound.window
    | exact (‹Upheld wq _›).sound.queue | exact (‹Upheld wq _›).sound.keys | dsimp +zetaDelta only)

theorem startTravel_keeps {wq : List Instr} (s : State) (close : Bool) (hs : Upheld wq s) :
    Upheld wq (State.startTravel s close) := by
  unfold State.startTravel
  repeat' (with_reducible first
    | assumption | intro _ | apply withFocal_keeps | extract_lets | ((conv => arg 2; arg 27); apply Upheld.of_mk)
    | exact (‹Upheld wq _›).sound.stack | exact (‹Upheld wq _›).sound.spi | exact (‹Upheld wq _›).sound.window
    | exact (‹Upheld wq _›).sound.queue | exact (‹Upheld wq _›).sound.keys | dsimp +zetaDelta only)

theorem setShutter_keeps {wq : List Instr} (s : State) (h : Shutter) (hs : Upheld wq s) :
    Upheld wq (State.setShutter s h) := by
  unfold State.setShutter
  repeat' (with_reducible first
    | assumption | intro _ | apply withFocal_keeps | extract_lets | ((conv => arg 2; arg 27); apply Upheld.of_mk)
    | exact (‹Upheld wq _›).sound.stack | exact (‹Upheld wq _›).sound.spi | exact (‹Upheld wq _›).sound.window
    | exact (‹Upheld wq _›).sound.queue | exact (‹Upheld wq _›).sound.keys | dsimp +zetaDelta only)

theorem checkTravel_keeps {wq : List Instr} (s : State) (meantOpen : Bool) (hs : Upheld wq s) :
    Upheld wq (State.checkTravel s meantOpen).2 := by
  unfold State.checkTravel
  repeat' (with_reducible first
    | assumption | intro _ | apply setShutter_keeps | apply countTally_keeps | apply incSat_keeps | apply startTravel_keeps
    | apply Upheld.ite | extract_lets | split | refine Upheld.of_pair ?_ (by assumption)
    | ((conv => arg 2; arg 27); apply Upheld.of_mk) | exact (‹Upheld wq _›).sound.stack | exact (‹Upheld wq _›).sound.spi
    | exact (‹Upheld wq _›).sound.window | exact (‹Upheld wq _›).sound.queue | exact (‹Upheld wq _›).sound.keys
    | dsimp +zetaDelta only)

end Sys2Proof.Machine
end

