-- ==== Sys2Proof/Laws/KeepsPipeOps.lean ====
section
/-!
SUPPORT. Every state that Machine/PipeOps.lean builds from a sound state is sound, with the same commands waiting.
-/
namespace Sys2Proof.Machine

theorem withPipe_keeps {wq : List Instr} (s : State) (q : PipePart) (hs : Upheld wq s) :
    Upheld wq (State.withPipe s q) := by
  unfold State.withPipe
  repeat' (with_reducible first
    | assumption | intro _ | extract_lets | ((conv => arg 2; arg 27); apply Upheld.of_mk) | exact (‹Upheld wq _›).sound.stack
    | exact (‹Upheld wq _›).sound.spi | exact (‹Upheld wq _›).sound.window | exact (‹Upheld wq _›).sound.queue
    | exact (‹Upheld wq _›).sound.keys | dsimp +zetaDelta only)

theorem latchConsts_keeps {wq : List Instr} (s : State) (gain : Nat) (hs : Upheld wq s) :
    Upheld wq (State.latchConsts s gain) := by
  unfold State.latchConsts
  repeat' (with_reducible first
    | assumption | intro _ | apply withPipe_keeps | apply setReg_keeps | apply setRegI_keeps | extract_lets
    | ((conv => arg 2; arg 27); apply Upheld.of_mk) | exact (‹Upheld wq _›).sound.stack | exact (‹Upheld wq _›).sound.spi
    | exact (‹Upheld wq _›).sound.window | exact (‹Upheld wq _›).sound.queue | exact (‹Upheld wq _›).sound.keys
    | dsimp +zetaDelta only)

theorem clearFilter_keeps {wq : List Instr} (s : State) (hs : Upheld wq s) :
    Upheld wq (State.clearFilter s) := by
  unfold State.clearFilter
  repeat' (with_reducible first
    | assumption | intro _ | apply withPipe_keeps | extract_lets | ((conv => arg 2; arg 27); apply Upheld.of_mk)
    | exact (‹Upheld wq _›).sound.stack | exact (‹Upheld wq _›).sound.spi | exact (‹Upheld wq _›).sound.window
    | exact (‹Upheld wq _›).sound.queue | exact (‹Upheld wq _›).sound.keys | dsimp +zetaDelta only)

end Sys2Proof.Machine
end

