-- ==== Sys2Proof/Laws/KeepsBerthOps.lean ====
section
/-!
SUPPORT. Every state that Machine/BerthOps.lean builds from a sound state is sound, with the same commands waiting.
-/
namespace Sys2Proof.Machine

theorem withBerth_keeps {wq : List Instr} (s : State) (b : BerthPart) (hs : Upheld wq s) :
    Upheld wq (State.withBerth s b) := by
  unfold State.withBerth
  repeat' (with_reducible first
    | assumption | intro _ | extract_lets | ((conv => arg 2; arg 27); apply Upheld.of_mk) | exact (‹Upheld wq _›).sound.stack
    | exact (‹Upheld wq _›).sound.spi | exact (‹Upheld wq _›).sound.window | exact (‹Upheld wq _›).sound.queue
    | exact (‹Upheld wq _›).sound.keys | dsimp +zetaDelta only)

theorem modBerth_keeps {wq : List Instr} (s : State) (n : Nat) (f : BerthRun → BerthRun) (hs : Upheld wq s) :
    Upheld wq (State.modBerth s n f) := by
  unfold State.modBerth
  repeat' (with_reducible first
    | assumption | intro _ | apply withBerth_keeps | apply Upheld.ite | apply hf | extract_lets | split
    | ((conv => arg 2; arg 27); apply Upheld.of_mk) | exact (‹Upheld wq _›).sound.stack | exact (‹Upheld wq _›).sound.spi
    | exact (‹Upheld wq _›).sound.window | exact (‹Upheld wq _›).sound.queue | exact (‹Upheld wq _›).sound.keys
    | dsimp +zetaDelta only)

theorem closeBerths_keeps {wq : List Instr} (s : State) (hs : Upheld wq s) :
    Upheld wq (State.closeBerths s) := by
  unfold State.closeBerths
  repeat' (with_reducible first
    | assumption | intro _ | apply withBerth_keeps | apply Upheld.ite | extract_lets | split
    | ((conv => arg 2; arg 27); apply Upheld.of_mk) | exact (‹Upheld wq _›).sound.stack | exact (‹Upheld wq _›).sound.spi
    | exact (‹Upheld wq _›).sound.window | exact (‹Upheld wq _›).sound.queue | exact (‹Upheld wq _›).sound.keys
    | dsimp +zetaDelta only)

theorem takeEdit_keeps {wq : List Instr} (s : State) (all : Bool) (n : Nat) (hs : Upheld wq s) :
    Upheld wq (State.takeEdit s all n) := by
  unfold State.takeEdit
  repeat' (with_reducible first
    | assumption | intro _ | apply withBerth_keeps | apply modBerth_keeps | apply alarm_keeps | apply Upheld.foldl
    | apply Upheld.ite | extract_lets | split | ((conv => arg 2; arg 27); apply Upheld.of_mk)
    | exact (‹Upheld wq _›).sound.stack | exact (‹Upheld wq _›).sound.spi | exact (‹Upheld wq _›).sound.window
    | exact (‹Upheld wq _›).sound.queue | exact (‹Upheld wq _›).sound.keys | dsimp +zetaDelta only)

theorem takeEdits_keeps {wq : List Instr} (s : State) (hs : Upheld wq s) :
    Upheld wq (State.takeEdits s) := by
  unfold State.takeEdits
  repeat' (with_reducible first
    | assumption | intro _ | apply takeEdit_keeps | apply withBerth_keeps | apply Upheld.foldl | apply Upheld.ite | extract_lets
    | split | ((conv => arg 2; arg 27); apply Upheld.of_mk) | exact (‹Upheld wq _›).sound.stack
    | exact (‹Upheld wq _›).sound.spi | exact (‹Upheld wq _›).sound.window | exact (‹Upheld wq _›).sound.queue
    | exact (‹Upheld wq _›).sound.keys | dsimp +zetaDelta only)

theorem sendReport_keeps {wq : List Instr} (s : State) (n : Nat) (hs : Upheld wq s) :
    Upheld wq (State.sendReport s n).2 := by
  unfold State.sendReport
  repeat' (with_reducible first
    | assumption | intro _ | apply enqueue_keeps | apply Upheld.ite | extract_lets | split
    | refine Upheld.of_pair ?_ (by assumption) | ((conv => arg 2; arg 27); apply Upheld.of_mk) | apply Nv.compact_wf
    | exact (‹Upheld wq _›).sound.stack | exact (‹Upheld wq _›).sound.spi | exact (‹Upheld wq _›).sound.window
    | exact (‹Upheld wq _›).sound.queue | exact (‹Upheld wq _›).sound.keys | dsimp +zetaDelta only)

theorem issueAlarm_keeps {wq : List Instr} (s : State) (n : Nat) (ev : Nat × Nat) (hs : Upheld wq s) :
    Upheld wq (State.issueAlarm s n ev) := by
  unfold State.issueAlarm
  repeat' (with_reducible first
    | assumption | intro _ | apply alarm_keeps | apply pushLog_keeps | apply Upheld.ite | extract_lets | split
    | dsimp +zetaDelta only)

theorem issuePresence_keeps {wq : List Instr} (s : State) (n : Nat) (came : Bool) (hs : Upheld wq s) :
    Upheld wq (State.issuePresence s n came) := by
  unfold State.issuePresence
  repeat' (with_reducible first | assumption | intro _ | apply pushLog_keeps | extract_lets | dsimp +zetaDelta only)

theorem presenceReports_keeps {wq : List Instr} (normal : Bool) (l : List Nat) (s : State) (hs : Upheld wq s) :
    Upheld wq (State.presenceReports s normal l).2 := by
  induction l generalizing s with
  | nil => exact hs
  | cons n l ih => exact ih _ (sendReport_keeps _ _ hs)

theorem reports_keeps {wq : List Instr} (s : State) (presence : List Nat) (hs : Upheld wq s) :
    Upheld wq (State.reports s presence) := by
  unfold State.reports
  extract_lets c normal p s1 waiting due all t b1 step out t2 b2
  have h1 : Upheld wq s1 := presenceReports_keeps _ _ _ hs
  clear_value s1
  have ht : Upheld wq t := Upheld.foldl h1 fun t x ht => sendReport_keeps _ _ ht
  have ho : Upheld wq out.2.2 := by
    have go : ∀ (l : List Nat) (a : Nat × List Nat × State), Upheld wq a.2.2 → Upheld wq (l.foldl step a).2.2 := by
      intro l
      induction l with
      | nil => exact fun _ h => h
      | cons n l ih =>
        intro a h
        refine ih _ ?_
        have hr := sendReport_keeps a.2.2 n h
        unfold step
        dsimp only
        split
        · exact h
        · split <;> exact hr
    exact go _ _ h1
  have h2 : Upheld wq t2 := addSat_keeps _ _ _ ho
  clear_value t t2
  split
  · exact hs
  · split
    · exact withBerth_keeps _ _ ht
    · exact withBerth_keeps _ _ h2

theorem publishTable_keeps {wq : List Instr} (s : State) (hs : Upheld wq s) :
    Upheld wq (State.publishTable s) := by
  unfold State.publishTable
  repeat' (with_reducible first
    | assumption | intro _ | apply withBerth_keeps | apply issueAlarm_keeps | apply issuePresence_keeps | apply reports_keeps
    | apply Upheld.foldl | extract_lets | ((conv => arg 2; arg 27); apply Upheld.of_mk) | exact (‹Upheld wq _›).sound.stack
    | exact (‹Upheld wq _›).sound.spi | exact (‹Upheld wq _›).sound.window | exact (‹Upheld wq _›).sound.queue
    | exact (‹Upheld wq _›).sound.keys | dsimp +zetaDelta only)

end Sys2Proof.Machine
end

