-- ==== Sys2Proof/Laws/KeepsCalOps.lean ====
section
/-!
SUPPORT. Every state that Machine/CalOps.lean builds from a sound state is sound, with the same commands waiting.
-/
namespace Sys2Proof.Machine

theorem withCal_keeps {wq : List Instr} (s : State) (c : CalPart) (hs : Upheld wq s) :
    Upheld wq (State.withCal s c) := by
  unfold State.withCal
  repeat' (with_reducible first
    | assumption | intro _ | extract_lets | ((conv => arg 2; arg 27); apply Upheld.of_mk) | exact (‹Upheld wq _›).sound.stack
    | exact (‹Upheld wq _›).sound.spi | exact (‹Upheld wq _›).sound.window | exact (‹Upheld wq _›).sound.queue
    | exact (‹Upheld wq _›).sound.keys | dsimp +zetaDelta only)

theorem evalRow_keeps {wq : List Instr} (s : State) (y : Nat) (ue : List Nat) (hs : Upheld wq s) :
    Upheld wq (State.evalRow s y ue) := by
  unfold State.evalRow
  repeat' (with_reducible first
    | assumption | intro _ | apply Upheld.foldl | apply Upheld.ite | extract_lets | split
    | refine Upheld.of_pair ?_ (by assumption) | ((conv => arg 2; arg 27); apply Upheld.of_mk)
    | exact (‹Upheld wq _›).sound.stack | exact (‹Upheld wq _›).sound.spi | exact (‹Upheld wq _›).sound.window
    | exact (‹Upheld wq _›).sound.queue | exact (‹Upheld wq _›).sound.keys | dsimp +zetaDelta only)

theorem flagRow_keeps {wq : List Instr} (s : State) (y : Nat) (hs : Upheld wq s) :
    Upheld wq (State.flagRow s y) := by
  unfold State.flagRow
  repeat' (with_reducible first
    | assumption | intro _ | apply Upheld.foldl | apply Upheld.ite | extract_lets | split
    | refine Upheld.of_pair ?_ (by assumption) | ((conv => arg 2; arg 27); apply Upheld.of_mk)
    | exact (‹Upheld wq _›).sound.stack | exact (‹Upheld wq _›).sound.spi | exact (‹Upheld wq _›).sound.window
    | exact (‹Upheld wq _›).sound.queue | exact (‹Upheld wq _›).sound.keys | dsimp +zetaDelta only)

theorem cycleRow_keeps {wq : List Instr} (s : State) (y : Nat) (ue : List Nat) (hs : Upheld wq s) :
    Upheld wq (State.cycleRow s y ue) := by
  unfold State.cycleRow
  repeat' (with_reducible first
    | assumption | intro _ | apply evalRow_keeps | apply flagRow_keeps | apply Upheld.ite | extract_lets | split
    | refine Upheld.of_pair ?_ (by assumption) | ((conv => arg 2; arg 27); apply Upheld.of_mk)
    | exact (‹Upheld wq _›).sound.stack | exact (‹Upheld wq _›).sound.spi | exact (‹Upheld wq _›).sound.window
    | exact (‹Upheld wq _›).sound.queue | exact (‹Upheld wq _›).sound.keys | dsimp +zetaDelta only)

theorem showRefs_keeps {wq : List Instr} (s : State) (hs : Upheld wq s) :
    Upheld wq (State.showRefs s) := by
  unfold State.showRefs
  repeat' (with_reducible first | assumption | intro _ | apply setReg_keeps | apply Upheld.foldl | dsimp +zetaDelta only)

theorem switchGate_keeps {wq : List Instr} (s : State) (hs : Upheld wq s) :
    Upheld wq (State.switchGate s) := by
  unfold State.switchGate
  repeat' (with_reducible first
    | assumption | intro _ | extract_lets | ((conv => arg 2; arg 27); apply Upheld.of_mk) | exact (‹Upheld wq _›).sound.stack
    | exact (‹Upheld wq _›).sound.spi | exact (‹Upheld wq _›).sound.window | exact (‹Upheld wq _›).sound.queue
    | exact (‹Upheld wq _›).sound.keys | dsimp +zetaDelta only)

theorem beginOpen_keeps {wq : List Instr} (s : State) (hs : Upheld wq s) :
    Upheld wq (State.beginOpen s) := by
  unfold State.beginOpen
  repeat' (with_reducible first
    | assumption | intro _ | apply lights_keeps | apply setReg_keeps | apply Upheld.ite | extract_lets | split
    | ((conv => arg 2; arg 27); apply Upheld.of_mk) | exact (‹Upheld wq _›).sound.stack | exact (‹Upheld wq _›).sound.spi
    | exact (‹Upheld wq _›).sound.window | exact (‹Upheld wq _›).sound.queue | exact (‹Upheld wq _›).sound.keys
    | dsimp +zetaDelta only)

theorem acceptSwitch_keeps {wq : List Instr} (s : State) (set : OffsetSet) (blind : SMap) (hs : Upheld wq s) :
    Upheld wq (State.acceptSwitch s set blind) := by
  unfold State.acceptSwitch
  repeat' (with_reducible first
    | assumption | intro _ | apply switchGate_keeps | apply showRefs_keeps | apply setReg_keeps | apply beginOpen_keeps
    | extract_lets | ((conv => arg 2; arg 27); apply Upheld.of_mk) | exact (‹Upheld wq _›).sound.stack
    | exact (‹Upheld wq _›).sound.spi | exact (‹Upheld wq _›).sound.window | exact (‹Upheld wq _›).sound.queue
    | exact (‹Upheld wq _›).sound.keys | dsimp +zetaDelta only)

theorem clearMarkers_keeps {wq : List Instr} (s : State) (hs : Upheld wq s) :
    Upheld wq (State.clearMarkers s) := by
  unfold State.clearMarkers
  repeat' (with_reducible first
    | assumption | intro _ | apply Upheld.foldl | apply Upheld.ite | extract_lets | split
    | ((conv => arg 2; arg 27); apply Upheld.of_mk) | exact (‹Upheld wq _›).sound.stack | exact (‹Upheld wq _›).sound.spi
    | exact (‹Upheld wq _›).sound.window | exact (‹Upheld wq _›).sound.queue | exact (‹Upheld wq _›).sound.keys
    | dsimp +zetaDelta only)

theorem factorySwitch_keeps {wq : List Instr} (s : State) (hs : Upheld wq s) :
    Upheld wq (State.factorySwitch s) := by
  unfold State.factorySwitch
  repeat' (with_reducible first
    | assumption | intro _ | apply switchGate_keeps | apply showRefs_keeps | extract_lets
    | ((conv => arg 2; arg 27); apply Upheld.of_mk) | exact (‹Upheld wq _›).sound.stack | exact (‹Upheld wq _›).sound.spi
    | exact (‹Upheld wq _›).sound.window | exact (‹Upheld wq _›).sound.queue | exact (‹Upheld wq _›).sound.keys
    | dsimp +zetaDelta only)

theorem gateAtClose_keeps {wq : List Instr} (s : State) (hs : Upheld wq s) :
    Upheld wq (State.gateAtClose s) := by
  unfold State.gateAtClose
  repeat' (with_reducible first
    | assumption | intro _ | apply factorySwitch_keeps | apply switchGate_keeps | apply withCal_keeps | apply acceptSwitch_keeps
    | apply Upheld.ite | extract_lets | split | refine Upheld.of_pair ?_ (by assumption)
    | ((conv => arg 2; arg 27); apply Upheld.of_mk) | exact (‹Upheld wq _›).sound.stack | exact (‹Upheld wq _›).sound.spi
    | exact (‹Upheld wq _›).sound.window | exact (‹Upheld wq _›).sound.queue | exact (‹Upheld wq _›).sound.keys
    | dsimp +zetaDelta only)

theorem grantCycle_keeps {wq : List Instr} (s : State) (hs : Upheld wq s) :
    Upheld wq (State.grantCycle s) := by
  unfold State.grantCycle
  repeat' (with_reducible first
    | assumption | intro _ | apply withCal_keeps | apply startTravel_keeps | extract_lets
    | ((conv => arg 2; arg 27); apply Upheld.of_mk) | exact (‹Upheld wq _›).sound.stack | exact (‹Upheld wq _›).sound.spi
    | exact (‹Upheld wq _›).sound.window | exact (‹Upheld wq _›).sound.queue | exact (‹Upheld wq _›).sound.keys
    | dsimp +zetaDelta only)

theorem rejectCycle_keeps {wq : List Instr} (s : State) (reason : Nat) (hs : Upheld wq s) :
    Upheld wq (State.rejectCycle s reason) := by
  unfold State.rejectCycle
  repeat' (with_reducible first
    | assumption | intro _ | apply withCal_keeps | apply setReg_keeps | apply incSat_keeps | apply pushLog_keeps
    | apply Upheld.ite | extract_lets | split | refine Upheld.of_pair ?_ (by assumption)
    | ((conv => arg 2; arg 27); apply Upheld.of_mk) | exact (‹Upheld wq _›).sound.stack | exact (‹Upheld wq _›).sound.spi
    | exact (‹Upheld wq _›).sound.window | exact (‹Upheld wq _›).sound.queue | exact (‹Upheld wq _›).sound.keys
    | dsimp +zetaDelta only)

theorem abortCycle_keeps {wq : List Instr} (s : State) (reason : Nat) (hs : Upheld wq s) :
    Upheld wq (State.abortCycle s reason) := by
  unfold State.abortCycle
  repeat' (with_reducible first
    | assumption | intro _ | apply withCal_keeps | apply Upheld.ite | extract_lets | split
    | refine Upheld.of_pair ?_ (by assumption) | ((conv => arg 2; arg 27); apply Upheld.of_mk)
    | exact (‹Upheld wq _›).sound.stack | exact (‹Upheld wq _›).sound.spi | exact (‹Upheld wq _›).sound.window
    | exact (‹Upheld wq _›).sound.queue | exact (‹Upheld wq _›).sound.keys | dsimp +zetaDelta only)

theorem settleAbort_keeps {wq : List Instr} (s : State) (hs : Upheld wq s) :
    Upheld wq (State.settleAbort s) := by
  unfold State.settleAbort
  repeat' (with_reducible first
    | assumption | intro _ | apply withCal_keeps | apply rejectCycle_keeps | apply setShutter_keeps | apply startTravel_keeps
    | apply Upheld.ite | extract_lets | split | refine Upheld.of_pair ?_ (by assumption)
    | ((conv => arg 2; arg 27); apply Upheld.of_mk) | exact (‹Upheld wq _›).sound.stack | exact (‹Upheld wq _›).sound.spi
    | exact (‹Upheld wq _›).sound.window | exact (‹Upheld wq _›).sound.queue | exact (‹Upheld wq _›).sound.keys
    | dsimp +zetaDelta only)

theorem endRejected_keeps {wq : List Instr} (s : State) (hs : Upheld wq s) :
    Upheld wq (State.endRejected s) := by
  unfold State.endRejected
  repeat' (with_reducible first
    | assumption | intro _ | apply withCal_keeps | apply raiseIrq_keeps | apply Upheld.ite | extract_lets | split
    | refine Upheld.of_pair ?_ (by assumption) | ((conv => arg 2; arg 27); apply Upheld.of_mk)
    | exact (‹Upheld wq _›).sound.stack | exact (‹Upheld wq _›).sound.spi | exact (‹Upheld wq _›).sound.window
    | exact (‹Upheld wq _›).sound.queue | exact (‹Upheld wq _›).sound.keys | dsimp +zetaDelta only)

theorem endAccepted_keeps {wq : List Instr} (s : State) (hs : Upheld wq s) :
    Upheld wq (State.endAccepted s) := by
  unfold State.endAccepted
  repeat' (with_reducible first
    | assumption | intro _ | apply withCal_keeps | apply acceptSwitch_keeps | apply clearMarkers_keeps | apply countUp_keeps
    | apply setReg_keeps | apply pushLog_keeps | apply raiseIrq_keeps | extract_lets | split
    | refine Upheld.of_pair ?_ (by assumption) | ((conv => arg 2; arg 27); apply Upheld.of_mk)
    | exact (‹Upheld wq _›).sound.stack | exact (‹Upheld wq _›).sound.spi | exact (‹Upheld wq _›).sound.window
    | exact (‹Upheld wq _›).sound.queue | exact (‹Upheld wq _›).sound.keys | dsimp +zetaDelta only)

theorem decideCycle_keeps {wq : List Instr} (s : State) (hs : Upheld wq s) :
    Upheld wq (State.decideCycle s) := by
  unfold State.decideCycle
  repeat' (with_reducible first
    | assumption | intro _ | apply setReg_keeps | apply rejectCycle_keeps | apply Upheld.ite | extract_lets | split
    | refine Upheld.of_pair ?_ (by assumption) | ((conv => arg 2; arg 27); apply Upheld.of_mk)
    | exact (‹Upheld wq _›).sound.stack | exact (‹Upheld wq _›).sound.spi | exact (‹Upheld wq _›).sound.window
    | exact (‹Upheld wq _›).sound.queue | exact (‹Upheld wq _›).sound.keys | dsimp +zetaDelta only)

theorem cycleAtClose_keeps {wq : List Instr} (s : State) (tr : Travel) (hs : Upheld wq s) :
    Upheld wq (State.cycleAtClose s tr) := by
  unfold State.cycleAtClose
  repeat' (with_reducible first
    | assumption | intro _ | apply startTravel_keeps | apply withCal_keeps | apply setShutter_keeps | apply endRejected_keeps
    | apply rejectCycle_keeps | apply setReg_keeps | apply putBit_keeps | apply decideCycle_keeps | apply endAccepted_keeps
    | apply Upheld.ite | extract_lets | split | refine Upheld.of_pair ?_ (by assumption)
    | ((conv => arg 2; arg 27); apply Upheld.of_mk) | exact (‹Upheld wq _›).sound.stack | exact (‹Upheld wq _›).sound.spi
    | exact (‹Upheld wq _›).sound.window | exact (‹Upheld wq _›).sound.queue | exact (‹Upheld wq _›).sound.keys
    | dsimp +zetaDelta only)

theorem noteUnusable_keeps {wq : List Instr} (s : State) (hs : Upheld wq s) :
    Upheld wq (State.noteUnusable s) := by
  unfold State.noteUnusable
  repeat' (with_reducible first
    | assumption | intro _ | apply withCal_keeps | apply pushLog_keeps | apply Upheld.ite | extract_lets | split
    | ((conv => arg 2; arg 27); apply Upheld.of_mk) | exact (‹Upheld wq _›).sound.stack | exact (‹Upheld wq _›).sound.spi
    | exact (‹Upheld wq _›).sound.window | exact (‹Upheld wq _›).sound.queue | exact (‹Upheld wq _›).sound.keys
    | dsimp +zetaDelta only)

theorem swapGains_keeps {wq : List Instr} (s : State) (hs : Upheld wq s) :
    Upheld wq (State.swapGains s) := by
  unfold State.swapGains
  repeat' (with_reducible first
    | assumption | intro _ | apply showRefs_keeps | apply Upheld.foldl | apply Upheld.ite | extract_lets | split
    | refine Upheld.of_pair ?_ (by assumption) | ((conv => arg 2; arg 27); apply Upheld.of_mk)
    | exact (‹Upheld wq _›).sound.stack | exact (‹Upheld wq _›).sound.spi | exact (‹Upheld wq _›).sound.window
    | exact (‹Upheld wq _›).sound.queue | exact (‹Upheld wq _›).sound.keys | dsimp +zetaDelta only)

end Sys2Proof.Machine
end

