-- ==== Sys2Proof/Laws/KeepsVideoOps.lean ====
section
/-!
SUPPORT. Every state that Machine/VideoOps.lean builds from a sound state is sound, with the same commands waiting.
-/
namespace Sys2Proof.Machine

theorem withVideo_keeps {wq : List Instr} (s : State) (v : VideoPart) (hs : Upheld wq s) :
    Upheld wq (State.withVideo s v) := by
  unfold State.withVideo
  repeat' (with_reducible first
    | assumption | intro _ | extract_lets | ((conv => arg 2; arg 27); apply Upheld.of_mk) | exact (‹Upheld wq _›).sound.stack
    | exact (‹Upheld wq _›).sound.spi | exact (‹Upheld wq _›).sound.window | exact (‹Upheld wq _›).sound.queue
    | exact (‹Upheld wq _›).sound.keys | dsimp +zetaDelta only)

theorem videoRow_keeps {wq : List Instr} (s : State) (slot : Nat) (ue : List Nat) (skip : Bool) (hs : Upheld wq s) :
    Upheld wq (State.videoRow s slot ue skip) := by
  unfold State.videoRow
  repeat' (with_reducible first
    | assumption | intro _ | apply withVideo_keeps | apply countUp_keeps | apply incSat_keeps | apply Upheld.ite | extract_lets
    | split | refine Upheld.of_pair ?_ (by assumption) | ((conv => arg 2; arg 27); apply Upheld.of_mk)
    | exact (‹Upheld wq _›).sound.stack | exact (‹Upheld wq _›).sound.spi | exact (‹Upheld wq _›).sound.window
    | exact (‹Upheld wq _›).sound.queue | exact (‹Upheld wq _›).sound.keys | dsimp +zetaDelta only)

theorem videoFrame_keeps {wq : List Instr} (s : State) (hs : Upheld wq s) :
    Upheld wq (State.videoFrame s) := by
  unfold State.videoFrame
  repeat' (with_reducible first
    | assumption | intro _ | apply withVideo_keeps | apply Upheld.ite | extract_lets | split
    | ((conv => arg 2; arg 27); apply Upheld.of_mk) | exact (‹Upheld wq _›).sound.stack | exact (‹Upheld wq _›).sound.spi
    | exact (‹Upheld wq _›).sound.window | exact (‹Upheld wq _›).sound.queue | exact (‹Upheld wq _›).sound.keys
    | dsimp +zetaDelta only)

end Sys2Proof.Machine
end

