-- ==== Sys2Proof/Laws/KeepsRowOps.lean ====
section
/-!
SUPPORT. Every state that Machine/RowOps.lean builds from a sound state is sound, with the same commands waiting.
-/
namespace Sys2Proof.Machine

theorem pwmAsk_keeps {wq : List Instr} (s : State) (i : Nat) (hs : Upheld wq s) :
    Upheld wq (State.pwmAsk s i).2 := by
  unfold State.pwmAsk
  repeat' (with_reducible first
    | assumption | intro _ | apply setOut_keeps | apply applyLevel_keeps | apply Upheld.ite | extract_lets | split
    | refine Upheld.of_pair ?_ (by assumption) | ((conv => arg 2; arg 27); apply Upheld.of_mk)
    | exact (‹Upheld wq _›).sound.stack | exact (‹Upheld wq _›).sound.spi | exact (‹Upheld wq _›).sound.window
    | exact (‹Upheld wq _›).sound.queue | exact (‹Upheld wq _›).sound.keys | dsimp +zetaDelta only)

theorem pwmGrant_keeps {wq : List Instr} (s : State) (e : Edge) (hs : Upheld wq s) :
    Upheld wq (State.pwmGrant s e) := by
  unfold State.pwmGrant
  repeat' (with_reducible first
    | assumption | intro _ | apply setOut_keeps | apply Upheld.ite | extract_lets | split
    | refine Upheld.of_pair ?_ (by assumption) | ((conv => arg 2; arg 27); apply Upheld.of_mk)
    | exact (‹Upheld wq _›).sound.stack | exact (‹Upheld wq _›).sound.spi | exact (‹Upheld wq _›).sound.window
    | exact (‹Upheld wq _›).sound.queue | exact (‹Upheld wq _›).sound.keys | dsimp +zetaDelta only)

theorem floatRow_keeps {wq : List Instr} (s : State) (i : Nat) (hs : Upheld wq s) :
    Upheld wq (State.floatRow s i) := by
  unfold State.floatRow
  repeat' (with_reducible first
    | assumption | intro _ | apply setOut_keeps | apply Upheld.ite | extract_lets | split
    | ((conv => arg 2; arg 27); apply Upheld.of_mk) | exact (‹Upheld wq _›).sound.stack | exact (‹Upheld wq _›).sound.spi
    | exact (‹Upheld wq _›).sound.window | exact (‹Upheld wq _›).sound.queue | exact (‹Upheld wq _›).sound.keys
    | dsimp +zetaDelta only)

theorem triacGrant_keeps {wq : List Instr} (s : State) (e : Edge) (hs : Upheld wq s) :
    Upheld wq (State.triacGrant s e) := by
  unfold State.triacGrant
  repeat' (with_reducible first
    | assumption | intro _ | apply setOut_keeps | apply Upheld.ite | extract_lets | split
    | ((conv => arg 2; arg 27); apply Upheld.of_mk) | exact (‹Upheld wq _›).sound.stack | exact (‹Upheld wq _›).sound.spi
    | exact (‹Upheld wq _›).sound.window | exact (‹Upheld wq _›).sound.queue | exact (‹Upheld wq _›).sound.keys
    | dsimp +zetaDelta only)

theorem mainsRow_keeps {wq : List Instr} (s : State) (hs : Upheld wq s) :
    Upheld wq (State.mainsRow s) := by
  unfold State.mainsRow
  repeat' (with_reducible first
    | assumption | intro _ | apply setReg_keeps | apply triacHalf_keeps | apply Upheld.foldl | apply Upheld.ite | extract_lets
    | split | ((conv => arg 2; arg 27); apply Upheld.of_mk) | exact (‹Upheld wq _›).sound.stack
    | exact (‹Upheld wq _›).sound.spi | exact (‹Upheld wq _›).sound.window | exact (‹Upheld wq _›).sound.queue
    | exact (‹Upheld wq _›).sound.keys | dsimp +zetaDelta only)

theorem applyGrant_keeps {wq : List Instr} (s : State) (e : Edge) (hs : Upheld wq s) :
    Upheld wq (State.applyGrant s e) := by
  unfold State.applyGrant
  repeat' (with_reducible first
    | assumption | intro _ | apply triacGrant_keeps | apply pwmGrant_keeps | apply Upheld.ite | split | dsimp +zetaDelta only)

theorem analogueRow_keeps {wq : List Instr} (s : State) (i : Nat) (hs : Upheld wq s) :
    Upheld wq (State.analogueRow s i) := by
  unfold State.analogueRow
  repeat' (with_reducible first
    | assumption | intro _ | apply setOut_keeps | apply applyLevel_keeps | extract_lets | split
    | refine Upheld.of_pair ?_ (by assumption) | ((conv => arg 2; arg 27); apply Upheld.of_mk)
    | exact (‹Upheld wq _›).sound.stack | exact (‹Upheld wq _›).sound.spi | exact (‹Upheld wq _›).sound.window
    | exact (‹Upheld wq _›).sound.queue | exact (‹Upheld wq _›).sound.keys | dsimp +zetaDelta only)

theorem windowRow_keeps {wq : List Instr} (s : State) (asked : List Edge) (hs : Upheld wq s) :
    Upheld wq (State.windowRow s asked) := by
  unfold State.windowRow
  split
  · exact hs
  · have go : ∀ (l : List Nat) (a : List Edge × State), Upheld wq a.2 →
        Upheld wq (l.foldl (fun (acc : List Edge × State) i => (acc.1 ++ (acc.2.pwmAsk i).1, (acc.2.pwmAsk i).2)) a).2 := by
      intro l
      induction l with
      | nil => exact fun _ h => h
      | cons i l ih => exact fun a h => ih _ (pwmAsk_keeps _ _ h)
    have ha := go (List.range 8) ([], s) hs
    have h2 := fun k n (l : List Edge) => addSat_keeps _ k n (Upheld.foldl (l := l) (f := State.applyGrant) ha fun t x ht => applyGrant_keeps _ _ ht)
    exact Upheld.of_mk (h2 _ _ _) (fun h => h.sound.stack) (fun h => h.sound.spi) (fun h => h.sound.window)
      (fun h => h.sound.queue) fun h => h.sound.keys

theorem driverRow_keeps {wq : List Instr} (s : State) (asked : List Edge) (hs : Upheld wq s) :
    Upheld wq (State.driverRow s asked) := by
  unfold State.driverRow
  repeat' (with_reducible first
    | assumption | intro _ | apply analogueRow_keeps | apply mainsRow_keeps | apply windowRow_keeps | apply floatRow_keeps
    | apply fanRow_keeps | apply Upheld.foldl | extract_lets | dsimp +zetaDelta only)

theorem correctSlot_keeps {wq : List Instr} (s : State) (i : RowIn) (hs : Upheld wq s) :
    Upheld wq (State.correctSlot s i) := by
  unfold State.correctSlot
  repeat' (with_reducible first
    | assumption | intro _ | apply withPipe_keeps | apply cycleRow_keeps | apply incSat_keeps | apply addSat_keeps
    | apply Upheld.ite | extract_lets | split | refine Upheld.of_pair ?_ (by assumption)
    | ((conv => arg 2; arg 27); apply Upheld.of_mk) | exact (‹Upheld wq _›).sound.stack | exact (‹Upheld wq _›).sound.spi
    | exact (‹Upheld wq _›).sound.window | exact (‹Upheld wq _›).sound.queue | exact (‹Upheld wq _›).sound.keys
    | dsimp +zetaDelta only)

theorem convertSlot_keeps {wq : List Instr} (s : State) (i : RowIn) (hs : Upheld wq s) :
    Upheld wq (State.convertSlot s i) := by
  unfold State.convertSlot
  repeat' (with_reducible first
    | assumption | intro _ | apply withPipe_keeps | apply reportIntake_keeps | apply Upheld.ite | extract_lets | split
    | refine Upheld.of_pair ?_ (by assumption) | ((conv => arg 2; arg 27); apply Upheld.of_mk)
    | exact (‹Upheld wq _›).sound.stack | exact (‹Upheld wq _›).sound.spi | exact (‹Upheld wq _›).sound.window
    | exact (‹Upheld wq _›).sound.queue | exact (‹Upheld wq _›).sound.keys | dsimp +zetaDelta only)

theorem blankSlot_keeps {wq : List Instr} (s : State) (hs : Upheld wq s) :
    Upheld wq (State.blankSlot s) := by
  unfold State.blankSlot
  repeat' (with_reducible first
    | assumption | intro _ | apply withPipe_keeps | apply latchConsts_keeps | apply setShutter_keeps | apply Upheld.ite
    | extract_lets | split | ((conv => arg 2; arg 27); apply Upheld.of_mk) | exact (‹Upheld wq _›).sound.stack
    | exact (‹Upheld wq _›).sound.spi | exact (‹Upheld wq _›).sound.window | exact (‹Upheld wq _›).sound.queue
    | exact (‹Upheld wq _›).sound.keys | dsimp +zetaDelta only)

theorem imageRow_keeps {wq : List Instr} (s : State) (i : RowIn) (hs : Upheld wq s) :
    Upheld wq (State.imageRow s i) := by
  unfold State.imageRow
  repeat' (with_reducible first
    | assumption | intro _ | apply withPipe_keeps | apply correctSlot_keeps | apply convertSlot_keeps | apply blankSlot_keeps
    | extract_lets | ((conv => arg 2; arg 27); apply Upheld.of_mk) | exact (‹Upheld wq _›).sound.stack
    | exact (‹Upheld wq _›).sound.spi | exact (‹Upheld wq _›).sound.window | exact (‹Upheld wq _›).sound.queue
    | exact (‹Upheld wq _›).sound.keys | dsimp +zetaDelta only)

theorem darkArray_keeps {wq : List Instr} (s : State) (hs : Upheld wq s) :
    Upheld wq (State.darkArray s) := by
  unfold State.darkArray
  repeat' (with_reducible first
    | assumption | intro _ | apply setReg_keeps | extract_lets | ((conv => arg 2; arg 27); apply Upheld.of_mk)
    | exact (‹Upheld wq _›).sound.stack | exact (‹Upheld wq _›).sound.spi | exact (‹Upheld wq _›).sound.window
    | exact (‹Upheld wq _›).sound.queue | exact (‹Upheld wq _›).sound.keys | dsimp +zetaDelta only)

end Sys2Proof.Machine
end

