-- ==== Sys2Proof/Laws/KeepsHmOps.lean ====
section
/-!
SUPPORT. Every state that Machine/HmOps.lean builds from a sound state is sound, with the same commands waiting.
-/
namespace Sys2Proof.Machine

theorem withHm_keeps {wq : List Instr} (s : State) (h : Hm) (hs : Upheld wq s) (e : Upheld wq s → h.stack.length ≤ 4) :
    Upheld wq (State.withHm s h) := Upheld.setHm hs e

theorem withSlip_keeps {wq : List Instr} (s : State) (p : SlipPart) (hs : Upheld wq s) :
    Upheld wq (State.withSlip s p) := by
  unfold State.withSlip
  repeat' (with_reducible first
    | assumption | intro _ | extract_lets | ((conv => arg 2; arg 27); apply Upheld.of_mk) | exact (‹Upheld wq _›).sound.stack
    | exact (‹Upheld wq _›).sound.spi | exact (‹Upheld wq _›).sound.window | exact (‹Upheld wq _›).sound.queue
    | exact (‹Upheld wq _›).sound.keys | dsimp +zetaDelta only)

theorem setQuay_keeps {wq : List Instr} (s : State) (q : Quay) (u : QuayUnit) (hs : Upheld wq s) :
    Upheld wq (State.setQuay s q u) := by
  unfold State.setQuay
  repeat' (with_reducible first
    | assumption | intro _ | apply withHm_keeps | extract_lets | ((conv => arg 2; arg 27); apply Upheld.of_mk)
    | exact (‹Upheld wq _›).sound.stack | exact (‹Upheld wq _›).sound.spi | exact (‹Upheld wq _›).sound.window
    | exact (‹Upheld wq _›).sound.queue | exact (‹Upheld wq _›).sound.keys | dsimp +zetaDelta only)

theorem popFault_keeps {wq : List Instr} (s : State) (which : FaultEntry → Bool) (outcome : Nat) (hs : Upheld wq s) :
    Upheld wq (State.popFault s which outcome) := by
  unfold State.popFault
  repeat' (with_reducible first
    | assumption | intro _ | apply withHm_keeps | apply hwhich | extract_lets | split | refine Upheld.of_pair ?_ (by assumption)
    | ((conv => arg 2; arg 27); apply Upheld.of_mk) | apply erase_le | exact (‹Upheld wq _›).sound.stack
    | exact (‹Upheld wq _›).sound.spi | exact (‹Upheld wq _›).sound.window | exact (‹Upheld wq _›).sound.queue
    | exact (‹Upheld wq _›).sound.keys | dsimp +zetaDelta only)

theorem dropFault_keeps {wq : List Instr} (s : State) (which : FaultEntry → Bool) (hs : Upheld wq s) :
    Upheld wq (State.dropFault s which) := by
  unfold State.dropFault
  repeat' (with_reducible first
    | assumption | intro _ | apply withHm_keeps | apply hwhich | extract_lets | split | refine Upheld.of_pair ?_ (by assumption)
    | ((conv => arg 2; arg 27); apply Upheld.of_mk) | apply erase_le | exact (‹Upheld wq _›).sound.stack
    | exact (‹Upheld wq _›).sound.spi | exact (‹Upheld wq _›).sound.window | exact (‹Upheld wq _›).sound.queue
    | exact (‹Upheld wq _›).sound.keys | dsimp +zetaDelta only)

theorem pushEntry_keeps {wq : List Instr} (s : State) (cause detail quay level : Nat) (hs : Upheld wq s) (h4 : ¬4 ≤ s.hm.stack.length) :
    Upheld wq (State.pushEntry s cause detail quay level) := by
  unfold State.pushEntry
  refine pushLog_keeps _ _ _ (withHm_keeps _ _ hs fun _ => ?_)
  simp only [List.length_cons]; omega

theorem recordEntry_keeps {wq : List Instr} (s : State) (cause detail quay : Nat) (hs : Upheld wq s) (h4 : ¬4 ≤ s.hm.stack.length) :
    Upheld wq (State.recordEntry s cause detail quay) := by
  unfold State.recordEntry
  exact popFault_keeps _ _ _ (pushEntry_keeps _ _ _ _ _ hs h4)

theorem reload_keeps {wq : List Instr} (s : State) (q : Quay) (b : Bool) (hs : Upheld wq s) :
    Upheld wq (State.reload s q b) := by
  unfold State.reload
  repeat' (with_reducible first
    | assumption | intro _ | apply challenge_keeps | apply Upheld.ite | extract_lets | split
    | ((conv => arg 2; arg 27); apply Upheld.of_mk) | exact (‹Upheld wq _›).sound.stack | exact (‹Upheld wq _›).sound.spi
    | exact (‹Upheld wq _›).sound.window | exact (‹Upheld wq _›).sound.queue | exact (‹Upheld wq _›).sound.keys
    | dsimp +zetaDelta only)

theorem slipReject_keeps {wq : List Instr} (s : State) (st : Status) (hs : Upheld wq s) :
    Upheld wq (State.slipReject s st) := by
  unfold State.slipReject
  repeat' (with_reducible first
    | assumption | intro _ | apply withSlip_keeps | apply pushLog_keeps | apply raiseIrq_keeps | extract_lets
    | ((conv => arg 2; arg 27); apply Upheld.of_mk) | exact (‹Upheld wq _›).sound.stack | exact (‹Upheld wq _›).sound.spi
    | exact (‹Upheld wq _›).sound.window | exact (‹Upheld wq _›).sound.queue | exact (‹Upheld wq _›).sound.keys
    | dsimp +zetaDelta only)

theorem slipAbandon_keeps {wq : List Instr} (s : State) (hs : Upheld wq s) :
    Upheld wq (State.slipAbandon s) := by
  unfold State.slipAbandon
  repeat' (with_reducible first
    | assumption | intro _ | apply withSlip_keeps | apply reload_keeps | apply Upheld.ite | extract_lets | split
    | refine Upheld.of_pair ?_ (by assumption) | ((conv => arg 2; arg 27); apply Upheld.of_mk)
    | exact (‹Upheld wq _›).sound.stack | exact (‹Upheld wq _›).sound.spi | exact (‹Upheld wq _›).sound.window
    | exact (‹Upheld wq _›).sound.queue | exact (‹Upheld wq _›).sound.keys | dsimp +zetaDelta only)

theorem slipStorm_keeps {wq : List Instr} (s : State) (hs : Upheld wq s) :
    Upheld wq (State.slipStorm s) := by
  unfold State.slipStorm
  repeat' (with_reducible first
    | assumption | intro _ | apply slipAbandon_keeps | apply slipReject_keeps | apply Upheld.ite | split
    | ((conv => arg 2; arg 27); apply Upheld.of_mk) | exact (‹Upheld wq _›).sound.stack | exact (‹Upheld wq _›).sound.spi
    | exact (‹Upheld wq _›).sound.window | exact (‹Upheld wq _›).sound.queue | exact (‹Upheld wq _›).sound.keys
    | dsimp +zetaDelta only)

theorem slipRollback_keeps {wq : List Instr} (s : State) (reason : Nat) (hs : Upheld wq s) :
    Upheld wq (State.slipRollback s reason) := by
  unfold State.slipRollback
  repeat' (with_reducible first
    | assumption | intro _ | apply withSlip_keeps | apply pushLog_keeps | apply raiseIrq_keeps | apply Upheld.ite | extract_lets
    | split | ((conv => arg 2; arg 27); apply Upheld.of_mk) | exact (‹Upheld wq _›).sound.stack
    | exact (‹Upheld wq _›).sound.spi | exact (‹Upheld wq _›).sound.window | exact (‹Upheld wq _›).sound.queue
    | exact (‹Upheld wq _›).sound.keys | dsimp +zetaDelta only)

theorem slipFault_keeps {wq : List Instr} (s : State) (q : Quay) (hs : Upheld wq s) :
    Upheld wq (State.slipFault s q) := by
  unfold State.slipFault
  repeat' (with_reducible first
    | assumption | intro _ | apply slipRollback_keeps | apply withSlip_keeps | apply Upheld.ite | extract_lets | split
    | ((conv => arg 2; arg 27); apply Upheld.of_mk) | exact (‹Upheld wq _›).sound.stack | exact (‹Upheld wq _›).sound.spi
    | exact (‹Upheld wq _›).sound.window | exact (‹Upheld wq _›).sound.queue | exact (‹Upheld wq _›).sound.keys
    | dsimp +zetaDelta only)

theorem leaveRc_keeps {wq : List Instr} (s : State) (q : Quay) (hs : Upheld wq s) :
    Upheld wq (State.leaveRc s q) := by
  unfold State.leaveRc
  repeat' (with_reducible first
    | assumption | intro _ | apply Upheld.ite | extract_lets | split | ((conv => arg 2; arg 27); apply Upheld.of_mk)
    | exact (‹Upheld wq _›).sound.stack | exact (‹Upheld wq _›).sound.spi | exact (‹Upheld wq _›).sound.window
    | exact (‹Upheld wq _›).sound.queue | exact (‹Upheld wq _›).sound.keys | dsimp +zetaDelta only)

theorem revoke_keeps {wq : List Instr} (s : State) (q : Quay) (hs : Upheld wq s) :
    Upheld wq (State.revoke s q) := by
  unfold State.revoke
  repeat' (with_reducible first
    | assumption | intro _ | apply withHm_keeps | apply Upheld.ite | extract_lets | split
    | ((conv => arg 2; arg 27); apply Upheld.of_mk) | exact (‹Upheld wq _›).sound.stack | exact (‹Upheld wq _›).sound.spi
    | exact (‹Upheld wq _›).sound.window | exact (‹Upheld wq _›).sound.queue | exact (‹Upheld wq _›).sound.keys
    | dsimp +zetaDelta only)

theorem quayDown_keeps {wq : List Instr} (s : State) (q : Quay) (hs : Upheld wq s) :
    Upheld wq (State.quayDown s q) := by
  unfold State.quayDown
  repeat' (with_reducible first
    | assumption | intro _ | apply slipFault_keeps | apply revoke_keeps | apply setQuay_keeps | apply reload_keeps
    | apply leaveRc_keeps | extract_lets | ((conv => arg 2; arg 27); apply Upheld.of_mk) | exact (‹Upheld wq _›).sound.stack
    | exact (‹Upheld wq _›).sound.spi | exact (‹Upheld wq _›).sound.window | exact (‹Upheld wq _›).sound.queue
    | exact (‹Upheld wq _›).sound.keys | dsimp +zetaDelta only)

theorem grantToken_keeps {wq : List Instr} (s : State) (q : Quay) (hs : Upheld wq s) :
    Upheld wq (State.grantToken s q) := by
  unfold State.grantToken
  repeat' (with_reducible first
    | assumption | intro _ | apply setQuay_keeps | apply withHm_keeps | apply setReg_keeps | apply Upheld.ite | extract_lets
    | split | ((conv => arg 2; arg 27); apply Upheld.of_mk) | exact (‹Upheld wq _›).sound.stack
    | exact (‹Upheld wq _›).sound.spi | exact (‹Upheld wq _›).sound.window | exact (‹Upheld wq _›).sound.queue
    | exact (‹Upheld wq _›).sound.keys | dsimp +zetaDelta only)

theorem releaseHeld_keeps {wq : List Instr} (s : State) (q : Quay) (hs : Upheld wq s) :
    Upheld wq (State.releaseHeld s q) := by
  unfold State.releaseHeld
  repeat' (with_reducible first
    | assumption | intro _ | apply setQuay_keeps | apply Upheld.ite | extract_lets | split
    | ((conv => arg 2; arg 27); apply Upheld.of_mk) | exact (‹Upheld wq _›).sound.stack | exact (‹Upheld wq _›).sound.spi
    | exact (‹Upheld wq _›).sound.window | exact (‹Upheld wq _›).sound.queue | exact (‹Upheld wq _›).sound.keys
    | dsimp +zetaDelta only)

theorem goOut_keeps {wq : List Instr} (s : State) (q : Quay) (hs : Upheld wq s) :
    Upheld wq (State.goOut s q) := by
  unfold State.goOut
  repeat' (with_reducible first
    | assumption | intro _ | apply revoke_keeps | apply setQuay_keeps | apply challenge_keeps | apply withHm_keeps
    | apply leaveRc_keeps | apply alarmOf_keeps | apply grantToken_keeps | apply Upheld.ite | extract_lets | split
    | ((conv => arg 2; arg 27); apply Upheld.of_mk) | exact (‹Upheld wq _›).sound.stack | exact (‹Upheld wq _›).sound.spi
    | exact (‹Upheld wq _›).sound.window | exact (‹Upheld wq _›).sound.queue | exact (‹Upheld wq _›).sound.keys
    | dsimp +zetaDelta only)

theorem writeSalvage_keeps {wq : List Instr} (s : State) (writer trigger : Nat) (hs : Upheld wq s) :
    Upheld wq (State.writeSalvage s writer trigger) := by
  unfold State.writeSalvage
  repeat' (with_reducible first
    | assumption | intro _ | apply countTally_keeps | apply trigger_keeps | apply withHm_keeps | apply incSat_keeps
    | apply pushLog_keeps | apply Upheld.ite | extract_lets | split | ((conv => arg 2; arg 27); apply Upheld.of_mk)
    | exact (‹Upheld wq _›).sound.stack | exact (‹Upheld wq _›).sound.spi | exact (‹Upheld wq _›).sound.window
    | exact (‹Upheld wq _›).sound.queue | exact (‹Upheld wq _›).sound.keys | dsimp +zetaDelta only)

theorem stormQueues_keeps {wq : List Instr} (s : State) (hs : Upheld wq s) :
    Upheld wq (State.stormQueues s) := by
  unfold State.stormQueues
  repeat' (with_reducible first | assumption | intro _ | apply setChan_keeps | apply Upheld.foldl | dsimp +zetaDelta only)

theorem stormNets_keeps {wq : List Instr} (s : State) (hs : Upheld wq s) :
    Upheld wq (State.stormNets s) := by
  unfold State.stormNets
  repeat' (with_reducible first
    | assumption | intro _ | apply setChan_keeps | apply Upheld.foldl | extract_lets
    | ((conv => arg 2; arg 27); apply Upheld.of_mk)
    | exact (‹Upheld wq _›).sound.stack | exact (‹Upheld wq _›).sound.spi | exact (‹Upheld wq _›).sound.window
    | exact (‹Upheld wq _›).sound.queue | exact (‹Upheld wq _›).sound.keys | dsimp +zetaDelta only)

theorem stormToken_keeps {wq : List Instr} (s : State) (manual : Bool) (bad : Option Quay) (hs : Upheld wq s) :
    Upheld wq (State.stormToken s manual bad) := by
  unfold State.stormToken
  repeat' (with_reducible first
    | assumption | intro _ | apply popFault_keeps | apply withHm_keeps | apply Upheld.ite | extract_lets | split
    | ((conv => arg 2; arg 27); apply Upheld.of_mk) | exact (‹Upheld wq _›).sound.stack | exact (‹Upheld wq _›).sound.spi
    | exact (‹Upheld wq _›).sound.window | exact (‹Upheld wq _›).sound.queue | exact (‹Upheld wq _›).sound.keys
    | dsimp +zetaDelta only)

theorem stormOutputs_keeps {wq : List Instr} (s : State) (hs : Upheld wq s) :
    Upheld wq (State.stormOutputs s) := by
  unfold State.stormOutputs
  repeat' (with_reducible first
    | assumption | intro _ | apply countUp_keeps | apply applyStorms_keeps | apply stormQueues_keeps | apply stormNets_keeps | apply engineHolds_keeps
    | dsimp +zetaDelta only)

theorem stormReport_keeps {wq : List Instr} (s : State) (cause : Nat) (hs : Upheld wq s) :
    Upheld wq (State.stormReport s cause) := by
  unfold State.stormReport
  repeat' (with_reducible first
    | assumption | intro _ | apply pushLog_keeps | apply raiseIrq_keeps | apply alarmOf_keeps | extract_lets
    | ((conv => arg 2; arg 27); apply Upheld.of_mk) | exact (‹Upheld wq _›).sound.stack | exact (‹Upheld wq _›).sound.spi
    | exact (‹Upheld wq _›).sound.window | exact (‹Upheld wq _›).sound.queue | exact (‹Upheld wq _›).sound.keys
    | dsimp +zetaDelta only)

theorem reloadRunning_keeps {wq : List Instr} (s : State) (q : Quay) (hs : Upheld wq s) :
    Upheld wq (State.reloadRunning s q) := by
  unfold State.reloadRunning
  repeat' (with_reducible first | assumption | intro _ | apply reload_keeps | apply Upheld.ite | split | dsimp +zetaDelta only)

theorem stormSlip_keeps {wq : List Instr} (s : State) (hs : Upheld wq s) :
    Upheld wq (State.stormSlip s) := by
  unfold State.stormSlip
  repeat' (with_reducible first
    | assumption | intro _ | apply slipRollback_keeps | apply reloadRunning_keeps | apply slipStorm_keeps | apply Upheld.ite
    | split | dsimp +zetaDelta only)

theorem enterStorm_keeps {wq : List Instr} (s : State) (cause : Nat) (bad : Option Quay) (hs : Upheld wq s) :
    Upheld wq (State.enterStorm s cause bad) := by
  unfold State.enterStorm
  repeat' (with_reducible first
    | assumption | intro _ | apply stormToken_keeps | apply stormOutputs_keeps | apply stormReport_keeps | apply stormSlip_keeps
    | apply writeSalvage_keeps | apply Upheld.ite | split | dsimp +zetaDelta only)

theorem leaveStorm_keeps {wq : List Instr} (s : State) (how : Nat) (hs : Upheld wq s) :
    Upheld wq (State.leaveStorm s how) := by
  unfold State.leaveStorm
  repeat' (with_reducible first
    | assumption | intro _ | apply withHm_keeps | apply setChan_keeps | apply request_keeps | apply noteAutonomous_keeps | apply engineHolds_keeps
    | apply pushLog_keeps | apply raiseIrq_keeps | apply alarmOf_keeps | apply Upheld.ite | extract_lets | split
    | refine Upheld.of_pair ?_ (by assumption) | ((conv => arg 2; arg 27); apply Upheld.of_mk)
    | exact (‹Upheld wq _›).sound.stack | exact (‹Upheld wq _›).sound.spi | exact (‹Upheld wq _›).sound.window
    | exact (‹Upheld wq _›).sound.queue | exact (‹Upheld wq _›).sound.keys | dsimp +zetaDelta only)

theorem stackOverflow_keeps {wq : List Instr} (s : State) (bad : Option Quay) (hs : Upheld wq s) :
    Upheld wq (State.stackOverflow s bad) := by
  unfold State.stackOverflow
  repeat' (with_reducible first | assumption | intro _ | apply incSat_keeps | apply enterStorm_keeps | dsimp +zetaDelta only)

theorem recordFault_keeps {wq : List Instr} (s : State) (cause detail : Nat) (q : Option Quay) (hs : Upheld wq s) :
    Upheld wq (State.recordFault s cause detail q) := by
  unfold State.recordFault
  repeat' (with_reducible first
    | assumption | intro _ | apply stackOverflow_keeps | apply recordEntry_keeps | split | dsimp +zetaDelta only)

theorem stormFault_keeps {wq : List Instr} (s : State) (cause : Nat) (bad : Option Quay) (hs : Upheld wq s) :
    Upheld wq (State.stormFault s cause bad) := by
  unfold State.stormFault
  repeat' (with_reducible first
    | assumption | intro _ | apply stackOverflow_keeps | apply pushEntry_keeps | apply enterStorm_keeps | apply popFault_keeps
    | extract_lets | split | dsimp +zetaDelta only)

theorem endTransfers_keeps {wq : List Instr} (s : State) (p : Transfer → Bool) (hs : Upheld wq s) :
    Upheld wq (State.endTransfers s p) := by
  unfold State.endTransfers
  repeat' (with_reducible first
    | assumption | intro _ | apply Upheld.ite | apply hp | extract_lets | split | ((conv => arg 2; arg 27); apply Upheld.of_mk)
    | exact (‹Upheld wq _›).sound.stack | exact (‹Upheld wq _›).sound.spi | exact (‹Upheld wq _›).sound.window
    | exact (‹Upheld wq _›).sound.queue | exact (‹Upheld wq _›).sound.keys | dsimp +zetaDelta only)

theorem failover_keeps {wq : List Instr} (s : State) (q : Quay) (cause start : Nat) (hs : Upheld wq s) :
    Upheld wq (State.failover s q cause start) := by
  unfold State.failover
  repeat' (with_reducible first
    | assumption | intro _ | apply quayDown_keeps | apply setQuay_keeps | apply withHm_keeps | apply countUp_keeps
    | apply countTally_keeps | apply endTransfers_keeps | apply pushLog_keeps | apply raiseIrq_keeps | extract_lets
    | ((conv => arg 2; arg 27); apply Upheld.of_mk) | exact (‹Upheld wq _›).sound.stack | exact (‹Upheld wq _›).sound.spi
    | exact (‹Upheld wq _›).sound.window | exact (‹Upheld wq _›).sound.queue | exact (‹Upheld wq _›).sound.keys
    | dsimp +zetaDelta only)

theorem quayFault_keeps {wq : List Instr} (s : State) (q : Quay) (cause detail start : Nat) (hs : Upheld wq s) :
    Upheld wq (State.quayFault s q cause detail start) := by
  unfold State.quayFault
  repeat' (with_reducible first
    | assumption | intro _ | apply incSat_keeps | apply quayDown_keeps | apply enterStorm_keeps | apply pushEntry_keeps
    | apply popFault_keeps | apply failover_keeps | extract_lets | split | dsimp +zetaDelta only)

theorem restoreCheckpoint_keeps {wq : List Instr} (s : State) (c : Option Checkpoint) (hs : Upheld wq s) :
    Upheld wq (State.restoreCheckpoint s c) := by
  unfold State.restoreCheckpoint
  repeat' (with_reducible first
    | assumption | intro _ | extract_lets | split | refine Upheld.of_pair ?_ (by assumption)
    | ((conv => arg 2; arg 27); apply Upheld.of_mk) | exact (‹Upheld wq _›).sound.stack | exact (‹Upheld wq _›).sound.spi
    | exact (‹Upheld wq _›).sound.window | exact (‹Upheld wq _›).sound.queue | exact (‹Upheld wq _›).sound.keys
    | dsimp +zetaDelta only)

theorem afterSwap_keeps {wq : List Instr} (s : State) (q : Quay) (hs : Upheld wq s) :
    Upheld wq (State.afterSwap s q) := by
  unfold State.afterSwap
  repeat' (with_reducible first
    | assumption | intro _ | apply setQuay_keeps | apply reload_keeps | apply Upheld.ite | extract_lets | split
    | ((conv => arg 2; arg 27); apply Upheld.of_mk) | exact (‹Upheld wq _›).sound.stack | exact (‹Upheld wq _›).sound.spi
    | exact (‹Upheld wq _›).sound.window | exact (‹Upheld wq _›).sound.queue | exact (‹Upheld wq _›).sound.keys
    | dsimp +zetaDelta only)

theorem moveToken_keeps {wq : List Instr} (s : State) (dest : Quay) (fresh : Bool) (hs : Upheld wq s) :
    Upheld wq (State.moveToken s dest fresh) := by
  unfold State.moveToken
  repeat' (with_reducible first
    | assumption | intro _ | apply setQuay_keeps | apply withHm_keeps | apply withSlip_keeps | apply pushLog_keeps
    | apply afterSwap_keeps | apply Upheld.ite | extract_lets | split | ((conv => arg 2; arg 27); apply Upheld.of_mk)
    | exact (‹Upheld wq _›).sound.stack | exact (‹Upheld wq _›).sound.spi | exact (‹Upheld wq _›).sound.window
    | exact (‹Upheld wq _›).sound.queue | exact (‹Upheld wq _›).sound.keys | dsimp +zetaDelta only)

theorem beginSwap_keeps {wq : List Instr} (s : State) (dest : Quay) (hs : Upheld wq s) :
    Upheld wq (State.beginSwap s dest) := by
  unfold State.beginSwap
  repeat' (with_reducible first
    | assumption | intro _ | apply withHm_keeps | extract_lets | ((conv => arg 2; arg 27); apply Upheld.of_mk)
    | exact (‹Upheld wq _›).sound.stack | exact (‹Upheld wq _›).sound.spi | exact (‹Upheld wq _›).sound.window
    | exact (‹Upheld wq _›).sound.queue | exact (‹Upheld wq _›).sound.keys | dsimp +zetaDelta only)

theorem reachStandby_keeps {wq : List Instr} (s : State) (q : Quay) (hs : Upheld wq s) :
    Upheld wq (State.reachStandby s q) := by
  unfold State.reachStandby
  repeat' (with_reducible first
    | assumption | intro _ | apply setQuay_keeps | apply withHm_keeps | apply pushLog_keeps | apply beginSwap_keeps
    | apply Upheld.ite | extract_lets | split | ((conv => arg 2; arg 27); apply Upheld.of_mk)
    | exact (‹Upheld wq _›).sound.stack | exact (‹Upheld wq _›).sound.spi | exact (‹Upheld wq _›).sound.window
    | exact (‹Upheld wq _›).sound.queue | exact (‹Upheld wq _›).sound.keys | dsimp +zetaDelta only)

theorem countAsSwap_keeps {wq : List Instr} (s : State) (dest : Quay) (hs : Upheld wq s) :
    Upheld wq (State.countAsSwap s dest) := by
  unfold State.countAsSwap
  repeat' (with_reducible first
    | assumption | intro _ | apply withSlip_keeps | apply pushLog_keeps | apply Upheld.ite | extract_lets | split
    | ((conv => arg 2; arg 27); apply Upheld.of_mk) | exact (‹Upheld wq _›).sound.stack | exact (‹Upheld wq _›).sound.spi
    | exact (‹Upheld wq _›).sound.window | exact (‹Upheld wq _›).sound.queue | exact (‹Upheld wq _›).sound.keys
    | dsimp +zetaDelta only)

end Sys2Proof.Machine
end

