-- ==== Sys2Proof/Laws/KeepsEccOps.lean ====
section
/-!
SUPPORT. Every state that Machine/EccOps.lean builds from a sound state is sound, with the same commands waiting.
-/
namespace Sys2Proof.Machine

theorem memAlarm_keeps {wq : List Instr} (s : State) (value : Nat) (hs : Upheld wq s) :
    Upheld wq (State.memAlarm s value) := by
  unfold State.memAlarm
  repeat' (with_reducible first | assumption | intro _ | apply alarmOf_keeps | dsimp +zetaDelta only)

theorem markMemory_keeps {wq : List Instr} (s : State) (m : Nat) (hs : Upheld wq s) :
    Upheld wq (State.markMemory s m) := by
  unfold State.markMemory
  repeat' (with_reducible first | assumption | intro _ | apply putBit_keeps | dsimp +zetaDelta only)

theorem uncorrectable_keeps {wq : List Instr} (s : State) (m addr kind : Nat) (hs : Upheld wq s) :
    Upheld wq (State.uncorrectable s m addr kind) := by
  unfold State.uncorrectable
  repeat' (with_reducible first
    | assumption | intro _ | apply incSat_keeps | apply setReg_keeps | apply markMemory_keeps | apply keep_keeps
    | apply pushLog_keeps | apply memAlarm_keeps | apply Upheld.ite | extract_lets | split
    | ((conv => arg 2; arg 27); apply Upheld.of_mk) | exact (‹Upheld wq _›).sound.stack | exact (‹Upheld wq _›).sound.spi
    | exact (‹Upheld wq _›).sound.window | exact (‹Upheld wq _›).sound.queue | exact (‹Upheld wq _›).sound.keys
    | dsimp +zetaDelta only)

theorem correctedWord_keeps {wq : List Instr} (s : State) (m addr : Nat) (hs : Upheld wq s) :
    Upheld wq (State.correctedWord s m addr) := by
  unfold State.correctedWord
  repeat' (with_reducible first
    | assumption | intro _ | apply incSat_keeps | apply setReg_keeps | apply countUp_keeps | apply markMemory_keeps
    | apply pushLog_keeps | apply memAlarm_keeps | apply Upheld.ite | extract_lets | split | dsimp +zetaDelta only)

theorem writeback_keeps {wq : List Instr} (s : State) (m : Nat) (dropped : Bool) (hs : Upheld wq s) :
    Upheld wq (State.writeback s m dropped) := by
  unfold State.writeback
  repeat' (with_reducible first | assumption | intro _ | apply incSat_keeps | apply Upheld.ite | split | dsimp +zetaDelta only)

theorem scrubHit_keeps {wq : List Instr} (s : State) (h : Scrub) (hs : Upheld wq s) :
    Upheld wq (State.scrubHit s h) := by
  unfold State.scrubHit
  repeat' (with_reducible first
    | assumption | intro _ | apply correctedWord_keeps | apply writeback_keeps | apply incSat_keeps | apply uncorrectable_keeps
    | apply Upheld.ite | extract_lets | split | refine Upheld.of_pair ?_ (by assumption)
    | ((conv => arg 2; arg 27); apply Upheld.of_mk) | exact (‹Upheld wq _›).sound.stack | exact (‹Upheld wq _›).sound.spi
    | exact (‹Upheld wq _›).sound.window | exact (‹Upheld wq _›).sound.queue | exact (‹Upheld wq _›).sound.keys
    | dsimp +zetaDelta only)

theorem lapDone_keeps {wq : List Instr} (s : State) (p : Nat × Nat) (hs : Upheld wq s) :
    Upheld wq (State.lapDone s p) := by
  unfold State.lapDone
  repeat' (with_reducible first | assumption | intro _ | apply setReg_keeps | apply Upheld.ite | split | dsimp +zetaDelta only)

theorem leakBucket_keeps {wq : List Instr} (s : State) (m : Nat) (hs : Upheld wq s) :
    Upheld wq (State.leakBucket s m) := by
  unfold State.leakBucket
  repeat' (with_reducible first | assumption | intro _ | apply setReg_keeps | dsimp +zetaDelta only)

end Sys2Proof.Machine
end

