-- ==== Sys2Proof/Laws/KeepsNvOps.lean ====
section
/-!
SUPPORT. Every state that Machine/NvOps.lean builds from a sound state is sound, with the same commands waiting.
-/
namespace Sys2Proof.Machine

theorem withNv_keeps {wq : List Instr} (s : State) (n : Nv) (hs : Upheld wq s) (e : Upheld wq s → Memory.wf n.win = true) :
    Upheld wq (State.withNv s n) := Upheld.setNv hs e

theorem spiOutput_keeps {wq : List Instr} (s : State) (l : List Nat) (hs : Upheld wq s) :
    Upheld wq (State.spiOutput s l) := by
  unfold State.spiOutput
  repeat' (with_reducible first
    | assumption | intro _ | extract_lets | ((conv => arg 2; arg 27); apply Upheld.of_mk) | exact (‹Upheld wq _›).sound.stack
    | exact (‹Upheld wq _›).sound.spi | exact (‹Upheld wq _›).sound.window | exact (‹Upheld wq _›).sound.queue
    | exact (‹Upheld wq _›).sound.keys | dsimp +zetaDelta only)

theorem windowUe_keeps {wq : List Instr} (s : State) (word : Nat) (hs : Upheld wq s) :
    Upheld wq (State.windowUe s word) := by
  unfold State.windowUe
  repeat' (with_reducible first
    | assumption | intro _ | apply withNv_keeps | apply uncorrectable_keeps | extract_lets
    | ((conv => arg 2; arg 27); apply Upheld.of_mk) | exact (‹Upheld wq _›).sound.stack | exact (‹Upheld wq _›).sound.spi
    | exact (‹Upheld wq _›).sound.window | exact (‹Upheld wq _›).sound.queue | exact (‹Upheld wq _›).sound.keys
    | dsimp +zetaDelta only)

theorem closeWord_keeps {wq : List Instr} (s : State) (word : Nat) (got : List (Nat × Nat)) (hs : Upheld wq s) :
    Upheld wq (State.closeWord s word got) := by
  unfold State.closeWord
  extract_lets whole bad s1
  have h1 : Upheld wq s1 := Upheld.ite hs (incSat_keeps _ _ hs)
  clear_value s1
  split
  · exact withNv_keeps _ _ (windowUe_keeps _ _ h1) fun h => h.sound.window
  · exact withNv_keeps _ _ h1 fun h => Memory.wf_foldl _ _ _ h.sound.window

theorem closeOpen_keeps {wq : List Instr} (s : State) (hs : Upheld wq s) :
    Upheld wq (State.closeOpen s) := by
  unfold State.closeOpen
  repeat' (with_reducible first
    | assumption | intro _ | apply closeWord_keeps | extract_lets | split | refine Upheld.of_pair ?_ (by assumption)
    | ((conv => arg 2; arg 27); apply Upheld.of_mk) | exact (‹Upheld wq _›).sound.stack | exact (‹Upheld wq _›).sound.spi
    | exact (‹Upheld wq _›).sound.window | exact (‹Upheld wq _›).sound.queue | exact (‹Upheld wq _›).sound.keys
    | dsimp +zetaDelta only)

theorem writeBytes_keeps {wq : List Instr} (s : State) (cont : Bool) (a : Nat) (l : List Nat) (hs : Upheld wq s) :
    Upheld wq (State.writeBytes s cont a l) := by
  induction l generalizing s a with
  | nil => exact hs
  | cons b t ih =>
    unfold State.writeBytes
    extract_lets s1 got nv1 s2 s3
    have h1 : Upheld wq s1 := by
      unfold s1
      split
      · exact Upheld.ite hs (closeOpen_keeps _ hs)
      · exact hs
    have h2 : Upheld wq s2 := withNv_keeps _ _ h1 fun h => h.sound.window
    exact ih _ _ (Upheld.ite (closeOpen_keeps _ h2) h2)

theorem readBytes_keeps {wq : List Instr} (s : State) (addr n : Nat) (hs : Upheld wq s) :
    Upheld wq (State.readBytes s addr n).2 := by
  unfold State.readBytes
  repeat' (with_reducible first
    | assumption | intro _ | apply windowUe_keeps | apply Upheld.foldl | apply Upheld.ite | extract_lets | split
    | dsimp +zetaDelta only)

theorem loadStored_wf (l : List PRec) (m : SMap) (h : SMap.wf m = true) : SMap.wf (l.foldl (fun m r =>
    if r.fits && objectLength r.key == 0 then
      smapSet (keyDefault r.key) r.key (leValue r.value % 2 ^ keyBits r.key) m else m) m) = true := by
  induction l generalizing m with
  | nil => exact h
  | cons r l ih =>
    simp only [List.foldl_cons]
    by_cases hc : (r.fits && objectLength r.key == 0) = true
    · rw [if_pos hc]; exact ih _ (SMap.wf_set (Nat.mod_lt _ (Nat.two_pow_pos _)) h)
    · rw [if_neg hc]; exact ih _ h

theorem loadStored_keeps {wq : List Instr} (s : State) (hs : Upheld wq s) : Upheld wq (State.loadStored s) := by
  unfold State.loadStored
  extract_lets one nv0 n a newest skipped regs s1
  have hr : SMap.wf regs = true := loadStored_wf _ _ rfl
  have h1 : Upheld wq s1 := Upheld.setNv (Upheld.setRegs hs fun _ => hr) fun h => hs.sound.window
  clear_value s1
  split
  · exact pushLog_keeps _ _ _ h1
  · exact h1

theorem quickSave_keeps {wq : List Instr} (s : State) (us : Nat) (hs : Upheld wq s) :
    Upheld wq (State.quickSave s us) := by
  unfold State.quickSave
  repeat' (with_reducible first
    | assumption | intro _ | apply withNv_keeps | apply Upheld.ite | extract_lets | split
    | ((conv => arg 2; arg 27); apply Upheld.of_mk) | exact (‹Upheld wq _›).sound.stack | exact (‹Upheld wq _›).sound.spi
    | exact (‹Upheld wq _›).sound.window | exact (‹Upheld wq _›).sound.queue | exact (‹Upheld wq _›).sound.keys
    | dsimp +zetaDelta only)

theorem checkTally_keeps {wq : List Instr} (s : State) (t : Nat) (hs : Upheld wq s) :
    Upheld wq (State.checkTally s t) := by
  unfold State.checkTally
  repeat' (with_reducible first
    | assumption | intro _ | apply withNv_keeps | apply setReg_keeps | apply uncorrectable_keeps | apply Upheld.ite
    | extract_lets | split | refine Upheld.of_pair ?_ (by assumption) | ((conv => arg 2; arg 27); apply Upheld.of_mk)
    | exact (‹Upheld wq _›).sound.stack | exact (‹Upheld wq _›).sound.spi | exact (‹Upheld wq _›).sound.window
    | exact (‹Upheld wq _›).sound.queue | exact (‹Upheld wq _›).sound.keys | dsimp +zetaDelta only)

end Sys2Proof.Machine
end

