-- ==== Sys2Proof/Laws/KeepsLogOps.lean ====
section
/-!
SUPPORT. Every state that Machine/LogOps.lean builds from a sound state is sound, with the same commands waiting.
-/
namespace Sys2Proof.Machine

theorem withLog_keeps {wq : List Instr} (s : State) (l : Log) (hs : Upheld wq s) (e : Upheld wq s → l.queue.length ≤ 256) :
    Upheld wq (State.withLog s l) := Upheld.setLog hs e

theorem logMediaFault_keeps {wq : List Instr} (s : State) (r : LogRec) (hs : Upheld wq s) :
    Upheld wq (State.logMediaFault s r) := by
  unfold State.logMediaFault
  repeat' (with_reducible first
    | assumption | intro _ | apply withLog_keeps | apply pushLog_keeps | apply alarmOf_keeps | extract_lets
    | ((conv => arg 2; arg 27); apply Upheld.of_mk) | apply Log.putLifeboat_le | exact (‹Upheld wq _›).sound.stack
    | exact (‹Upheld wq _›).sound.spi | exact (‹Upheld wq _›).sound.window | exact (‹Upheld wq _›).sound.queue
    | exact (‹Upheld wq _›).sound.keys | dsimp +zetaDelta only)

theorem ringRecord_keeps {wq : List Instr} (s : State) (r : LogRec) (hs : Upheld wq s) :
    Upheld wq (State.ringRecord s r) := by
  unfold State.ringRecord
  repeat' (with_reducible first
    | assumption | intro _ | apply withLog_keeps | apply logMediaFault_keeps | apply Upheld.ite | extract_lets | split
    | ((conv => arg 2; arg 27); apply Upheld.of_mk) | apply Log.putLifeboat_le | apply Log.tryRing_le
    | exact (‹Upheld wq _›).sound.stack | exact (‹Upheld wq _›).sound.spi | exact (‹Upheld wq _›).sound.window
    | exact (‹Upheld wq _›).sound.queue | exact (‹Upheld wq _›).sound.keys | dsimp +zetaDelta only)

theorem logResume_keeps {wq : List Instr} (s : State) (hs : Upheld wq s) :
    Upheld wq (State.logResume s) := by
  unfold State.logResume
  repeat' (with_reducible first
    | assumption | intro _ | apply withLog_keeps | apply ringRecord_keeps | apply pushLog_keeps | apply Upheld.foldl
    | apply Upheld.ite | extract_lets | split | ((conv => arg 2; arg 27); apply Upheld.of_mk)
    | exact (‹Upheld wq _›).sound.stack | exact (‹Upheld wq _›).sound.spi | exact (‹Upheld wq _›).sound.window
    | exact (‹Upheld wq _›).sound.queue | exact (‹Upheld wq _›).sound.keys | dsimp +zetaDelta only)

theorem writeRecord_keeps {wq : List Instr} (s : State) (hs : Upheld wq s) : Upheld wq (State.writeRecord s) := by
  unfold State.writeRecord
  have h0 := logResume_keeps _ hs
  dsimp only
  split
  · exact h0
  · rename_i r rest e
    have h1 := ringRecord_keeps _ r (withLog_keeps (s.logResume) { s.logResume.log with queue := rest } h0 fun h => by
      have := h.sound.queue
      rw [e, List.length_cons] at this
      show rest.length ≤ 256
      omega)
    split
    · exact raiseIrq_keeps _ _ (withLog_keeps _ _ h1 fun h => Log.putAnchor_le h.sound.queue)
    · exact h1

theorem flushLog_keeps {wq : List Instr} (f : Nat) (s : State) (hs : Upheld wq s) : Upheld wq (State.flushLog f s) := by
  induction f generalizing s with
  | zero => exact hs
  | succ f ih => unfold State.flushLog; split; exact hs; exact ih _ (writeRecord_keeps _ hs)

theorem logBad_keeps {wq : List Instr} (s : State) (addr : Nat) (hs : Upheld wq s) :
    Upheld wq (State.logBad s addr) := by
  unfold State.logBad
  repeat' (with_reducible first
    | assumption | intro _ | apply withLog_keeps | apply Upheld.ite | extract_lets | split
    | ((conv => arg 2; arg 27); apply Upheld.of_mk) | exact (‹Upheld wq _›).sound.stack | exact (‹Upheld wq _›).sound.spi
    | exact (‹Upheld wq _›).sound.window | exact (‹Upheld wq _›).sound.queue | exact (‹Upheld wq _›).sound.keys
    | dsimp +zetaDelta only)

theorem scrub_keeps {wq : List Instr} (s : State) (h : Scrub) (hs : Upheld wq s) :
    Upheld wq (State.scrub s h) := by
  unfold State.scrub
  repeat' (with_reducible first
    | assumption | intro _ | apply uncorrectable_keeps | apply incSat_keeps | apply setReg_keeps | apply markMemory_keeps
    | apply logBad_keeps | apply withNv_keeps | apply scrubHit_keeps | apply Upheld.ite | extract_lets | split
    | ((conv => arg 2; arg 27); apply Upheld.of_mk) | exact (‹Upheld wq _›).sound.stack | exact (‹Upheld wq _›).sound.spi
    | exact (‹Upheld wq _›).sound.window | exact (‹Upheld wq _›).sound.queue | exact (‹Upheld wq _›).sound.keys
    | dsimp +zetaDelta only)

end Sys2Proof.Machine
end

