-- ==== Sys2Proof/Laws/KeepsRtcOps.lean ====
section
/-!
SUPPORT. Every state that Machine/RtcOps.lean builds from a sound state is sound, with the same commands waiting.
-/
namespace Sys2Proof.Machine

theorem withRtc_keeps {wq : List Instr} (s : State) (r : Rtc) (hs : Upheld wq s) :
    Upheld wq (State.withRtc s r) := by
  unfold State.withRtc
  repeat' (with_reducible first
    | assumption | intro _ | extract_lets | ((conv => arg 2; arg 27); apply Upheld.of_mk) | exact (‹Upheld wq _›).sound.stack
    | exact (‹Upheld wq _›).sound.spi | exact (‹Upheld wq _›).sound.window | exact (‹Upheld wq _›).sound.queue
    | exact (‹Upheld wq _›).sound.keys | dsimp +zetaDelta only)

theorem withPwr_keeps {wq : List Instr} (s : State) (p : PwrPart) (hs : Upheld wq s) :
    Upheld wq (State.withPwr s p) := by
  unfold State.withPwr
  repeat' (with_reducible first
    | assumption | intro _ | extract_lets | ((conv => arg 2; arg 27); apply Upheld.of_mk) | exact (‹Upheld wq _›).sound.stack
    | exact (‹Upheld wq _›).sound.spi | exact (‹Upheld wq _›).sound.window | exact (‹Upheld wq _›).sound.queue
    | exact (‹Upheld wq _›).sound.keys | dsimp +zetaDelta only)

theorem wake_keeps {wq : List Instr} (s : State) (hs : Upheld wq s) :
    Upheld wq (State.wake s) := by
  unfold State.wake
  repeat' (with_reducible first
    | assumption | intro _ | apply withPwr_keeps | apply Upheld.ite | extract_lets | split
    | ((conv => arg 2; arg 27); apply Upheld.of_mk) | exact (‹Upheld wq _›).sound.stack | exact (‹Upheld wq _›).sound.spi
    | exact (‹Upheld wq _›).sound.window | exact (‹Upheld wq _›).sound.queue | exact (‹Upheld wq _›).sound.keys
    | dsimp +zetaDelta only)

theorem wakeEvent_keeps {wq : List Instr} (s : State) (hs : Upheld wq s) :
    Upheld wq (State.wakeEvent s) := by
  unfold State.wakeEvent
  repeat' (with_reducible first | assumption | apply wake_keeps | apply Upheld.ite)

theorem fireAlarm_keeps {wq : List Instr} (s : State) (a : Nat) (caught : Bool) (hs : Upheld wq s) :
    Upheld wq (State.fireAlarm s a caught) := by
  unfold State.fireAlarm
  repeat' (with_reducible first
    | assumption | intro _ | apply withRtc_keeps | apply tickFree_keeps | apply wakeEvent_keeps | apply Upheld.ite | extract_lets
    | split | ((conv => arg 2; arg 27); apply Upheld.of_mk) | exact (‹Upheld wq _›).sound.stack
    | exact (‹Upheld wq _›).sound.spi | exact (‹Upheld wq _›).sound.window | exact (‹Upheld wq _›).sound.queue
    | exact (‹Upheld wq _›).sound.keys | dsimp +zetaDelta only)

theorem evalAlarms_keeps {wq : List Instr} (s : State) (sec : Nat) (hs : Upheld wq s) :
    Upheld wq (State.evalAlarms s sec) := by
  unfold State.evalAlarms
  repeat' (with_reducible first
    | assumption | intro _ | apply fireAlarm_keeps | apply Upheld.foldl | apply Upheld.ite | split | dsimp +zetaDelta only)

theorem alarmStep_keeps {wq : List Instr} (s : State) (c0 c1 : Int) (hs : Upheld wq s) :
    Upheld wq (State.alarmStep s c0 c1) := by
  unfold State.alarmStep
  repeat' (with_reducible first
    | assumption | intro _ | apply fireAlarm_keeps | apply withRtc_keeps | apply Upheld.foldl | apply Upheld.ite | extract_lets
    | split | ((conv => arg 2; arg 27); apply Upheld.of_mk) | exact (‹Upheld wq _›).sound.stack
    | exact (‹Upheld wq _›).sound.spi | exact (‹Upheld wq _›).sound.window | exact (‹Upheld wq _›).sound.queue
    | exact (‹Upheld wq _›).sound.keys | dsimp +zetaDelta only)

theorem noteOffset_keeps {wq : List Instr} (s : State) (typ reason : Nat) (final now : Int) (hs : Upheld wq s) :
    Upheld wq (State.noteOffset s typ reason final now) := by
  unfold State.noteOffset
  repeat' (with_reducible first
    | assumption | intro _ | apply withRtc_keeps | apply pushLog_keeps | extract_lets
    | ((conv => arg 2; arg 27); apply Upheld.of_mk) | exact (‹Upheld wq _›).sound.stack | exact (‹Upheld wq _›).sound.spi
    | exact (‹Upheld wq _›).sound.window | exact (‹Upheld wq _›).sound.queue | exact (‹Upheld wq _›).sound.keys
    | dsimp +zetaDelta only)

theorem setCalendar_keeps {wq : List Instr} (s : State) (off : Int) (hs : Upheld wq s) :
    Upheld wq (State.setCalendar s off) := by
  unfold State.setCalendar
  repeat' (with_reducible first
    | assumption | intro _ | apply noteOffset_keeps | apply withRtc_keeps | apply alarmStep_keeps | apply evalPrograms_keeps
    | apply Upheld.ite | extract_lets | split | ((conv => arg 2; arg 27); apply Upheld.of_mk)
    | exact (‹Upheld wq _›).sound.stack | exact (‹Upheld wq _›).sound.spi | exact (‹Upheld wq _›).sound.window
    | exact (‹Upheld wq _›).sound.queue | exact (‹Upheld wq _›).sound.keys | dsimp +zetaDelta only)

theorem dstStep_keeps {wq : List Instr} (s : State) (forward : Bool) (hs : Upheld wq s) :
    Upheld wq (State.dstStep s forward) := by
  unfold State.dstStep
  repeat' (with_reducible first
    | assumption | intro _ | apply noteOffset_keeps | apply withRtc_keeps | apply alarmStep_keeps | apply evalPrograms_keeps
    | apply Upheld.ite | extract_lets | split | ((conv => arg 2; arg 27); apply Upheld.of_mk)
    | exact (‹Upheld wq _›).sound.stack | exact (‹Upheld wq _›).sound.spi | exact (‹Upheld wq _›).sound.window
    | exact (‹Upheld wq _›).sound.queue | exact (‹Upheld wq _›).sound.keys | dsimp +zetaDelta only)

theorem startSlew_keeps {wq : List Instr} (s : State) (shift : Int) (hs : Upheld wq s) :
    Upheld wq (State.startSlew s shift) := by
  unfold State.startSlew
  repeat' (with_reducible first
    | assumption | intro _ | apply noteOffset_keeps | apply withRtc_keeps | extract_lets
    | ((conv => arg 2; arg 27); apply Upheld.of_mk) | exact (‹Upheld wq _›).sound.stack | exact (‹Upheld wq _›).sound.spi
    | exact (‹Upheld wq _›).sound.window | exact (‹Upheld wq _›).sound.queue | exact (‹Upheld wq _›).sound.keys
    | dsimp +zetaDelta only)

theorem rtcTick_keeps {wq : List Instr} (s : State) (hs : Upheld wq s) :
    Upheld wq (State.rtcTick s) := by
  unfold State.rtcTick
  repeat' (with_reducible first
    | assumption | intro _ | apply withRtc_keeps | apply Upheld.ite | extract_lets | split
    | ((conv => arg 2; arg 27); apply Upheld.of_mk) | exact (‹Upheld wq _›).sound.stack | exact (‹Upheld wq _›).sound.spi
    | exact (‹Upheld wq _›).sound.window | exact (‹Upheld wq _›).sound.queue | exact (‹Upheld wq _›).sound.keys
    | dsimp +zetaDelta only)

theorem sendTime_keeps {wq : List Instr} (s : State) (reason : Nat) (hs : Upheld wq s) :
    Upheld wq (State.sendTime s reason) := by
  unfold State.sendTime
  repeat' (with_reducible first | assumption | intro _ | apply enqueue_keeps | apply Upheld.foldl | dsimp +zetaDelta only)

theorem syncTime_keeps {wq : List Instr} (s : State) (data : List Nat) (stamp : Nat) (hs : Upheld wq s) :
    Upheld wq (State.syncTime s data stamp) := by
  unfold State.syncTime
  repeat' (with_reducible first
    | assumption | intro _ | apply startSlew_keeps | apply setCalendar_keeps | apply withRtc_keeps | apply Upheld.ite
    | extract_lets | split | ((conv => arg 2; arg 27); apply Upheld.of_mk) | apply drop_le | exact (‹Upheld wq _›).sound.stack
    | exact (‹Upheld wq _›).sound.spi | exact (‹Upheld wq _›).sound.window | exact (‹Upheld wq _›).sound.queue
    | exact (‹Upheld wq _›).sound.keys | dsimp +zetaDelta only)

theorem timeLost_keeps {wq : List Instr} (s : State) (hs : Upheld wq s) :
    Upheld wq (State.timeLost s) := by
  unfold State.timeLost
  repeat' (with_reducible first
    | assumption | intro _ | apply withRtc_keeps | apply pushLog_keeps | apply Upheld.foldl | apply Upheld.ite | extract_lets
    | split | refine Upheld.of_pair ?_ (by assumption) | ((conv => arg 2; arg 27); apply Upheld.of_mk)
    | exact (‹Upheld wq _›).sound.stack | exact (‹Upheld wq _›).sound.spi | exact (‹Upheld wq _›).sound.window
    | exact (‹Upheld wq _›).sound.queue | exact (‹Upheld wq _›).sound.keys | dsimp +zetaDelta only)

end Sys2Proof.Machine
end

