-- ==== Sys2Proof/Laws/KeepsPanelOps.lean ====
section
/-!
SUPPORT. Every state that Machine/PanelOps.lean builds from a sound state is sound, with the same commands waiting.
-/
namespace Sys2Proof.Machine

theorem withPanel_keeps {wq : List Instr} (s : State) (p : PanelPart) (hs : Upheld wq s) :
    Upheld wq (State.withPanel s p) := by
  unfold State.withPanel
  repeat' (with_reducible first
    | assumption | intro _ | extract_lets | ((conv => arg 2; arg 27); apply Upheld.of_mk) | exact (‹Upheld wq _›).sound.stack
    | exact (‹Upheld wq _›).sound.spi | exact (‹Upheld wq _›).sound.window | exact (‹Upheld wq _›).sound.queue
    | exact (‹Upheld wq _›).sound.keys | dsimp +zetaDelta only)

theorem withKeys_keeps {wq : List Instr} (s : State) (k : KeyPart) (hs : Upheld wq s) (e : Upheld wq s → k.fifo.length ≤ 32) :
    Upheld wq (State.withKeys s k) := Upheld.setKeys hs e

theorem storeShown_keeps {wq : List Instr} (s : State) (hs : Upheld wq s) :
    Upheld wq (State.storeShown s) := by
  unfold State.storeShown
  repeat' (with_reducible first | assumption | intro _ | apply storeParam_keeps | dsimp +zetaDelta only)

theorem finishUpdate_keeps {wq : List Instr} (s : State) (k : Nat) (r : PanelRun) (hs : Upheld wq s) :
    Upheld wq (State.finishUpdate s k r) := by
  unfold State.finishUpdate
  repeat' (with_reducible first
    | assumption | intro _ | apply withPanel_keeps | apply storeShown_keeps | apply incSat_keeps | apply Upheld.ite
    | extract_lets | split | ((conv => arg 2; arg 27); apply Upheld.of_mk) | exact (‹Upheld wq _›).sound.stack
    | exact (‹Upheld wq _›).sound.spi | exact (‹Upheld wq _›).sound.window | exact (‹Upheld wq _›).sound.queue
    | exact (‹Upheld wq _›).sound.keys | dsimp +zetaDelta only)

theorem setRun_keeps {wq : List Instr} (s : State) (k : Nat) (r : Option PanelRun) (hs : Upheld wq s) :
    Upheld wq (State.setRun s k r) := by
  unfold State.setRun
  repeat' (with_reducible first
    | assumption | intro _ | apply withPanel_keeps | apply Upheld.ite | extract_lets | split
    | ((conv => arg 2; arg 27); apply Upheld.of_mk) | exact (‹Upheld wq _›).sound.stack | exact (‹Upheld wq _›).sound.spi
    | exact (‹Upheld wq _›).sound.window | exact (‹Upheld wq _›).sound.queue | exact (‹Upheld wq _›).sound.keys
    | dsimp +zetaDelta only)

theorem endMain_keeps {wq : List Instr} (s : State) (k : Nat) (r : PanelRun) (hs : Upheld wq s) :
    Upheld wq (State.endMain s k r) := by
  unfold State.endMain
  repeat' (with_reducible first
    | assumption | intro _ | apply setRun_keeps | apply incSat_keeps | apply finishUpdate_keeps | apply Upheld.ite
    | extract_lets | split | ((conv => arg 2; arg 27); apply Upheld.of_mk) | exact (‹Upheld wq _›).sound.stack
    | exact (‹Upheld wq _›).sound.spi | exact (‹Upheld wq _›).sound.window | exact (‹Upheld wq _›).sound.queue
    | exact (‹Upheld wq _›).sound.keys | dsimp +zetaDelta only)

theorem advanceRun_keeps {wq : List Instr} (s : State) (k : Nat) (r0 : PanelRun) (layers : List Nat) (hs : Upheld wq s) :
    Upheld wq (State.advanceRun s k r0 layers) := by
  unfold State.advanceRun
  repeat' (with_reducible first
    | assumption | intro _ | apply setRun_keeps | apply endMain_keeps | apply withPanel_keeps | apply finishUpdate_keeps
    | apply Upheld.ite | extract_lets | split | refine Upheld.of_pair ?_ (by assumption)
    | ((conv => arg 2; arg 27); apply Upheld.of_mk) | exact (‹Upheld wq _›).sound.stack | exact (‹Upheld wq _›).sound.spi
    | exact (‹Upheld wq _›).sound.window | exact (‹Upheld wq _›).sound.queue | exact (‹Upheld wq _›).sound.keys
    | dsimp +zetaDelta only)

theorem advanceRuns_keeps {wq : List Instr} (s : State) (hs : Upheld wq s) :
    Upheld wq (State.advanceRuns s) := by
  unfold State.advanceRuns
  repeat' (with_reducible first
    | assumption | intro _ | apply advanceRun_keeps | apply Upheld.foldl | extract_lets | split
    | refine Upheld.of_pair ?_ (by assumption) | ((conv => arg 2; arg 27); apply Upheld.of_mk)
    | exact (‹Upheld wq _›).sound.stack | exact (‹Upheld wq _›).sound.spi | exact (‹Upheld wq _›).sound.window
    | exact (‹Upheld wq _›).sound.queue | exact (‹Upheld wq _›).sound.keys | dsimp +zetaDelta only)

theorem cutRun_keeps {wq : List Instr} (s : State) (by_ k : Nat) (r : PanelRun) (hs : Upheld wq s) :
    Upheld wq (State.cutRun s by_ k r) := by
  unfold State.cutRun
  repeat' (with_reducible first
    | assumption | intro _ | apply withPanel_keeps | apply setRun_keeps | apply incSat_keeps | apply Upheld.ite | extract_lets
    | split | ((conv => arg 2; arg 27); apply Upheld.of_mk) | exact (‹Upheld wq _›).sound.stack
    | exact (‹Upheld wq _›).sound.spi | exact (‹Upheld wq _›).sound.window | exact (‹Upheld wq _›).sound.queue
    | exact (‹Upheld wq _›).sound.keys | dsimp +zetaDelta only)

theorem cutsFor_keeps {wq : List Instr} (s : State) (by_ : Nat) (hs : Upheld wq s) :
    Upheld wq (State.cutsFor s by_) := by
  unfold State.cutsFor
  repeat' (with_reducible first
    | assumption | intro _ | apply cutRun_keeps | apply Upheld.foldl | apply Upheld.ite | extract_lets | split
    | refine Upheld.of_pair ?_ (by assumption) | ((conv => arg 2; arg 27); apply Upheld.of_mk)
    | exact (‹Upheld wq _›).sound.stack | exact (‹Upheld wq _›).sound.spi | exact (‹Upheld wq _›).sound.window
    | exact (‹Upheld wq _›).sound.queue | exact (‹Upheld wq _›).sound.keys | dsimp +zetaDelta only)

theorem frameMemoryFault_keeps {wq : List Instr} (s : State) (hs : Upheld wq s) :
    Upheld wq (State.frameMemoryFault s) := by
  unfold State.frameMemoryFault
  repeat' (with_reducible first
    | assumption | intro _ | apply withPanel_keeps | apply incSat_keeps | extract_lets
    | ((conv => arg 2; arg 27); apply Upheld.of_mk) | exact (‹Upheld wq _›).sound.stack | exact (‹Upheld wq _›).sound.spi
    | exact (‹Upheld wq _›).sound.window | exact (‹Upheld wq _›).sound.queue | exact (‹Upheld wq _›).sound.keys
    | dsimp +zetaDelta only)

theorem startUpdate_keeps {wq : List Instr} (s : State) (k : Nat) (q : PanelQueued) (hs : Upheld wq s) :
    Upheld wq (State.startUpdate s k q) := by
  unfold State.startUpdate
  repeat' (with_reducible first
    | assumption | intro _ | apply withPanel_keeps | apply finishUpdate_keeps | apply storeShown_keeps | apply Upheld.ite
    | extract_lets | split | ((conv => arg 2; arg 27); apply Upheld.of_mk) | exact (‹Upheld wq _›).sound.stack
    | exact (‹Upheld wq _›).sound.spi | exact (‹Upheld wq _›).sound.window | exact (‹Upheld wq _›).sound.queue
    | exact (‹Upheld wq _›).sound.keys | dsimp +zetaDelta only)

theorem tryStart_keeps {wq : List Instr} (s : State) (ok : Bool) (k : Nat) (hs : Upheld wq s) :
    Upheld wq (State.tryStart s ok k) := by
  unfold State.tryStart
  repeat' (with_reducible first
    | assumption | intro _ | apply startUpdate_keeps | apply frameMemoryFault_keeps | apply Upheld.ite | extract_lets | split
    | refine Upheld.of_pair ?_ (by assumption) | ((conv => arg 2; arg 27); apply Upheld.of_mk)
    | exact (‹Upheld wq _›).sound.stack | exact (‹Upheld wq _›).sound.spi | exact (‹Upheld wq _›).sound.window
    | exact (‹Upheld wq _›).sound.queue | exact (‹Upheld wq _›).sound.keys | dsimp +zetaDelta only)

theorem startAll_keeps {wq : List Instr} (s : State) (ok : Bool) (hs : Upheld wq s) :
    Upheld wq (State.startAll s ok) := by
  unfold State.startAll
  repeat' (with_reducible first
    | assumption | intro _ | apply frameMemoryFault_keeps | apply withPanel_keeps | apply storeShown_keeps | apply cutsFor_keeps
    | apply tryStart_keeps | apply Upheld.foldl | apply Upheld.ite | extract_lets | split
    | ((conv => arg 2; arg 27); apply Upheld.of_mk) | exact (‹Upheld wq _›).sound.stack | exact (‹Upheld wq _›).sound.spi
    | exact (‹Upheld wq _›).sound.window | exact (‹Upheld wq _›).sound.queue | exact (‹Upheld wq _›).sound.keys
    | dsimp +zetaDelta only)

theorem drivePanel_keeps {wq : List Instr} (s : State) (hs : Upheld wq s) :
    Upheld wq (State.drivePanel s) := by
  unfold State.drivePanel
  repeat' (with_reducible first
    | assumption | intro _ | apply withPanel_keeps | apply tickFree_keeps | extract_lets | split
    | refine Upheld.of_pair ?_ (by assumption) | ((conv => arg 2; arg 27); apply Upheld.of_mk)
    | exact (‹Upheld wq _›).sound.stack | exact (‹Upheld wq _›).sound.spi | exact (‹Upheld wq _›).sound.window
    | exact (‹Upheld wq _›).sound.queue | exact (‹Upheld wq _›).sound.keys | dsimp +zetaDelta only)

theorem panelTemp_keeps {wq : List Instr} (s : State) (hs : Upheld wq s) :
    Upheld wq (State.panelTemp s) := by
  unfold State.panelTemp
  repeat' (with_reducible first
    | assumption | intro _ | apply withPanel_keeps | apply Upheld.ite | extract_lets | split
    | ((conv => arg 2; arg 27); apply Upheld.of_mk) | exact (‹Upheld wq _›).sound.stack | exact (‹Upheld wq _›).sound.spi
    | exact (‹Upheld wq _›).sound.window | exact (‹Upheld wq _›).sound.queue | exact (‹Upheld wq _›).sound.keys
    | dsimp +zetaDelta only)

theorem keyEvent_keeps {wq : List Instr} (s : State) (k typ : Nat) (hs : Upheld wq s) : Upheld wq (State.keyEvent s k typ) := by
  unfold State.keyEvent
  extract_lets v s1
  have h1 : Upheld wq s1 := setReg_keeps _ _ _ (incSat_keeps _ _ hs)
  clear_value s1
  split
  · exact withKeys_keeps _ _ h1 fun _ => by simp only [List.length_append, List.length_singleton]; omega
  · exact incSat_keeps _ _ h1

theorem keyWake_keeps {wq : List Instr} (s : State) (press : Bool) (hs : Upheld wq s) :
    Upheld wq (State.keyWake s press) := by
  unfold State.keyWake
  repeat' (with_reducible first | assumption | intro _ | apply wake_keeps | apply Upheld.ite | split | dsimp +zetaDelta only)

theorem keyPress_keeps {wq : List Instr} (s : State) (k : Nat) (hs : Upheld wq s) :
    Upheld wq (State.keyPress s k) := by
  unfold State.keyPress
  repeat' (with_reducible first
    | assumption | intro _ | apply withKeys_keeps | apply keyEvent_keeps | apply keyWake_keeps | extract_lets
    | ((conv => arg 2; arg 27); apply Upheld.of_mk) | apply KeyPart.setKey_le | exact (‹Upheld wq _›).sound.stack
    | exact (‹Upheld wq _›).sound.spi | exact (‹Upheld wq _›).sound.window | exact (‹Upheld wq _›).sound.queue
    | exact (‹Upheld wq _›).sound.keys | dsimp +zetaDelta only)

theorem keyRelease_keeps {wq : List Instr} (s : State) (closed : Nat → Bool) (k : Nat) (hs : Upheld wq s) :
    Upheld wq (State.keyRelease s closed k) := by
  unfold State.keyRelease
  repeat' (with_reducible first
    | assumption | intro _ | apply withKeys_keeps | apply keyEvent_keeps | apply keyWake_keeps | apply Upheld.ite
    | apply hclosed | extract_lets | split | ((conv => arg 2; arg 27); apply Upheld.of_mk) | apply KeyPart.setKey_le
    | exact (‹Upheld wq _›).sound.stack | exact (‹Upheld wq _›).sound.spi | exact (‹Upheld wq _›).sound.window
    | exact (‹Upheld wq _›).sound.queue | exact (‹Upheld wq _›).sound.keys | dsimp +zetaDelta only)

theorem keyBlock_keeps {wq : List Instr} (s : State) (held : Nat → Bool) (k : Nat) (hs : Upheld wq s) :
    Upheld wq (State.keyBlock s held k) := by
  unfold State.keyBlock
  repeat' (with_reducible first
    | assumption | intro _ | apply withKeys_keeps | apply incSat_keeps | apply keyEvent_keeps | apply Upheld.foldl
    | apply Upheld.ite | apply hheld | extract_lets | split | ((conv => arg 2; arg 27); apply Upheld.of_mk)
    | apply KeyPart.setKey_le | exact (‹Upheld wq _›).sound.stack | exact (‹Upheld wq _›).sound.spi
    | exact (‹Upheld wq _›).sound.window | exact (‹Upheld wq _›).sound.queue | exact (‹Upheld wq _›).sound.keys
    | dsimp +zetaDelta only)

theorem scanKeys_keeps {wq : List Instr} (s : State) (closed : Nat → Bool) (hs : Upheld wq s) :
    Upheld wq (State.scanKeys s closed) := by
  unfold State.scanKeys
  repeat' (with_reducible first
    | assumption | intro _ | apply withKeys_keeps | apply keyRelease_keeps | apply keyBlock_keeps | apply keyPress_keeps
    | apply Upheld.foldl | apply Upheld.ite | apply hclosed | extract_lets | split
    | ((conv => arg 2; arg 27); apply Upheld.of_mk) | apply KeyPart.setKey_le | exact (‹Upheld wq _›).sound.stack
    | exact (‹Upheld wq _›).sound.spi | exact (‹Upheld wq _›).sound.window | exact (‹Upheld wq _›).sound.queue
    | exact (‹Upheld wq _›).sound.keys | dsimp +zetaDelta only)

theorem watchResetKeys_keeps {wq : List Instr} (s : State) (hs : Upheld wq s) :
    Upheld wq (State.watchResetKeys s) := by
  unfold State.watchResetKeys
  repeat' (with_reducible first
    | assumption | intro _ | apply withKeys_keeps | apply Upheld.ite | extract_lets | split
    | ((conv => arg 2; arg 27); apply Upheld.of_mk) | exact (‹Upheld wq _›).sound.stack | exact (‹Upheld wq _›).sound.spi
    | exact (‹Upheld wq _›).sound.window | exact (‹Upheld wq _›).sound.queue | exact (‹Upheld wq _›).sound.keys
    | dsimp +zetaDelta only)

end Sys2Proof.Machine
end

