-- ==== Sys2Proof/Laws/KeepsSlipOps.lean ====
section
/-!
SUPPORT. Every state that Machine/SlipOps.lean builds from a sound state is sound, with the same commands waiting.
-/
namespace Sys2Proof.Machine

theorem slipOpen_keeps {wq : List Instr} (s : State) (hs : Upheld wq s) :
    Upheld wq (State.slipOpen s) := by
  unfold State.slipOpen
  repeat' (with_reducible first
    | assumption | intro _ | apply withSlip_keeps | extract_lets | ((conv => arg 2; arg 27); apply Upheld.of_mk)
    | exact (‹Upheld wq _›).sound.stack | exact (‹Upheld wq _›).sound.spi | exact (‹Upheld wq _›).sound.window
    | exact (‹Upheld wq _›).sound.queue | exact (‹Upheld wq _›).sound.keys | dsimp +zetaDelta only)

theorem slipStage_keeps {wq : List Instr} (s : State) (bytes : List Nat) (hs : Upheld wq s) :
    Upheld wq (State.slipStage s bytes) := by
  unfold State.slipStage
  repeat' (with_reducible first
    | assumption | intro _ | apply withSlip_keeps | apply pushLog_keeps | apply Upheld.ite | extract_lets | split
    | ((conv => arg 2; arg 27); apply Upheld.of_mk) | exact (‹Upheld wq _›).sound.stack | exact (‹Upheld wq _›).sound.spi
    | exact (‹Upheld wq _›).sound.window | exact (‹Upheld wq _›).sound.queue | exact (‹Upheld wq _›).sound.keys
    | dsimp +zetaDelta only)

theorem slipStaged_keeps {wq : List Instr} (s : State) (hs : Upheld wq s) :
    Upheld wq (State.slipStaged s).2 := by
  unfold State.slipStaged
  repeat' (with_reducible first
    | assumption | intro _ | apply withSlip_keeps | extract_lets | ((conv => arg 2; arg 27); apply Upheld.of_mk)
    | exact (‹Upheld wq _›).sound.stack | exact (‹Upheld wq _›).sound.spi | exact (‹Upheld wq _›).sound.window
    | exact (‹Upheld wq _›).sound.queue | exact (‹Upheld wq _›).sound.keys | dsimp +zetaDelta only)

theorem slipCommit_keeps {wq : List Instr} (s : State) (hs : Upheld wq s) :
    Upheld wq (State.slipCommit s).2 := by
  unfold State.slipCommit
  repeat' (with_reducible first
    | assumption | intro _ | apply andThen_keeps | apply putEntry_keeps | apply setReg_keeps | apply countTally_keeps
    | apply withPwr_keeps | apply withSlip_keeps | apply raiseIrq_keeps | apply Upheld.ite | extract_lets | split
    | ((conv => arg 2; arg 27); apply Upheld.of_mk) | exact (‹Upheld wq _›).sound.stack | exact (‹Upheld wq _›).sound.spi
    | exact (‹Upheld wq _›).sound.window | exact (‹Upheld wq _›).sound.queue | exact (‹Upheld wq _›).sound.keys
    | dsimp +zetaDelta only)

theorem bootMarker_keeps {wq : List Instr} (s : State) (hs : Upheld wq s) :
    Upheld wq (State.bootMarker s) := by
  unfold State.bootMarker
  repeat' (with_reducible first
    | assumption | intro _ | apply withSlip_keeps | apply pushLog_keeps | apply Upheld.ite | extract_lets | split
    | ((conv => arg 2; arg 27); apply Upheld.of_mk) | exact (‹Upheld wq _›).sound.stack | exact (‹Upheld wq _›).sound.spi
    | exact (‹Upheld wq _›).sound.window | exact (‹Upheld wq _›).sound.queue | exact (‹Upheld wq _›).sound.keys
    | dsimp +zetaDelta only)

theorem bootNormal_keeps {wq : List Instr} (s : State) (hs : Upheld wq s) :
    Upheld wq (State.bootNormal s) := by
  unfold State.bootNormal
  repeat' (with_reducible first
    | assumption | intro _ | apply withPwr_keeps | apply withSlip_keeps | apply pushLog_keeps | apply Upheld.ite | extract_lets
    | split | ((conv => arg 2; arg 27); apply Upheld.of_mk) | exact (‹Upheld wq _›).sound.stack
    | exact (‹Upheld wq _›).sound.spi | exact (‹Upheld wq _›).sound.window | exact (‹Upheld wq _›).sound.queue
    | exact (‹Upheld wq _›).sound.keys | dsimp +zetaDelta only)

theorem bootVerify_keeps {wq : List Instr} (s0 : State) (hs0 : Upheld wq s0) :
    Upheld wq (State.bootVerify s0) := by
  unfold State.bootVerify
  repeat' (with_reducible first
    | assumption | intro _ | apply bootMarker_keeps | apply bootNormal_keeps | apply putEntry_keeps | apply withPwr_keeps
    | apply withSlip_keeps | apply pushLog_keeps | apply Upheld.ite | extract_lets | split
    | ((conv => arg 2; arg 27); apply Upheld.of_mk) | exact (‹Upheld wq _›).sound.stack | exact (‹Upheld wq _›).sound.spi
    | exact (‹Upheld wq _›).sound.window | exact (‹Upheld wq _›).sound.queue | exact (‹Upheld wq _›).sound.keys
    | dsimp +zetaDelta only)

end Sys2Proof.Machine
end

