-- ==== Sys2Proof/Laws/KeepsResetOps.lean ====
section
/-!
SUPPORT. Every state that Machine/ResetOps.lean builds from a sound state is sound, with the same commands waiting.
-/
namespace Sys2Proof.Machine

theorem keptKeys_default : ∀ k ∈ keptKeys, keyDefault k < 2 ^ keyBits k := by decide

theorem keptRegs_wf (s : State) {m : SMap} (h : SMap.wf m = true) (hs : SMap.wf s.regs = true) : SMap.wf (s.keptRegs m) = true := by
  unfold State.keptRegs
  have go : ∀ (l : List Nat) (m : SMap), (∀ k ∈ l, k ∈ keptKeys) → SMap.wf m = true →
      SMap.wf (l.foldl (fun m k => smapSet (keyDefault k) k (s.reg k) m) m) = true := by
    intro l
    induction l with
    | nil => exact fun _ _ h => h
    | cons k l ih =>
      intro m hl h
      exact ih _ (fun j hj => hl j (List.mem_cons_of_mem _ hj))
        (SMap.wf_set (smapGet_lt hs k (keptKeys_default k (hl k List.mem_cons_self))) h)
  exact go _ _ (fun _ h => h) h

theorem toDark_keeps {wq : List Instr} (s : State) (cause : ResetCause) (hs : Upheld wq s) : Upheld wq (State.toDark s cause) :=
  ⟨⟨Nv.restart_wf hs.sound.window, keptRegs_wf s rfl hs.sound.regs, Nat.zero_le _, Nat.zero_le _, Nat.zero_le _, Nat.zero_le _⟩,
    hs.pending⟩

theorem darkLoad_keeps {wq : List Instr} (s : State) (hs : Upheld wq s) : Upheld wq (State.darkLoad s) := by
  unfold State.darkLoad
  extract_lets s1 s2 code nv3 s3 loop4 s4 s5 s6
  have h1 : Upheld wq s1 := loadStored_keeps _ hs
  have h2 : Upheld wq s2 := by
    have := Upheld.setRegs (m := s.keptRegs s1.regs) h1 fun h => keptRegs_wf s h.sound.regs hs.sound.regs
    exact Upheld.of_mk this (fun h => h.sound.stack) (fun h => h.sound.spi) (fun h => h.sound.window) (fun h => h.sound.queue)
      fun h => h.sound.keys
  have h3 : Upheld wq s3 := withNv_keeps _ _ h2 fun h => h.sound.window
  have h4 : Upheld wq s4 := by
    unfold s4
    split
    · exact Upheld.of_mk h3 (fun h => h.sound.stack) (fun h => h.sound.spi) (fun h => h.sound.window) (fun h => h.sound.queue)
        fun h => h.sound.keys
    · exact h3
  exact timeLost_keeps _ (Upheld.foldl (Upheld.ite (countTally_keeps _ _ h4) h4) fun t x ht => checkTally_keeps _ _ ht)

theorem darkRecords_keeps {wq : List Instr} (s : State) (hs : Upheld wq s) :
    Upheld wq (State.darkRecords s) := by
  unfold State.darkRecords
  repeat' (with_reducible first
    | assumption | intro _ | apply pushLog_keeps | extract_lets | split | refine Upheld.of_pair ?_ (by assumption)
    | ((conv => arg 2; arg 27); apply Upheld.of_mk) | exact (‹Upheld wq _›).sound.stack | exact (‹Upheld wq _›).sound.spi
    | exact (‹Upheld wq _›).sound.window | exact (‹Upheld wq _›).sound.queue | exact (‹Upheld wq _›).sound.keys
    | dsimp +zetaDelta only)

theorem mainsStart_keeps {wq : List Instr} (s : State) (hs : Upheld wq s) :
    Upheld wq (State.mainsStart s) := by
  unfold State.mainsStart
  repeat' (with_reducible first | assumption | intro _ | apply setReg_keeps | apply Upheld.ite | split | dsimp +zetaDelta only)

theorem tideStart_keeps {wq : List Instr} (s : State) (src : ClockSrc) (hs : Upheld wq s) :
    Upheld wq (State.tideStart s src) := by
  unfold State.tideStart
  repeat' (with_reducible first
    | assumption | intro _ | apply darkLoad_keeps | apply setReg_keeps | apply mainsStart_keeps | apply darkRecords_keeps
    | apply applyStorms_keeps | apply enterAutonomous_keeps | apply engineHolds_keeps | extract_lets
    | ((conv => arg 2; arg 27); apply Upheld.of_mk) | exact (‹Upheld wq _›).sound.stack | exact (‹Upheld wq _›).sound.spi
    | exact (‹Upheld wq _›).sound.window | exact (‹Upheld wq _›).sound.queue | exact (‹Upheld wq _›).sound.keys
    | dsimp +zetaDelta only)

theorem powerFail_keeps {wq : List Instr} (s : State) (us : Nat) (hs : Upheld wq s) : Upheld wq (State.powerFail s us) := by
  unfold State.powerFail
  extract_lets a s0 had s1 s2 nv2 s3 s4
  have h0 : Upheld wq s0 := raiseIrq_keeps _ _ (Upheld.of_mk (alarmOf_keeps _ _ _ _ _ hs) (fun h => h.sound.stack) (fun h => h.sound.spi)
    (fun h => h.sound.window) (fun h => h.sound.queue) fun h => h.sound.keys)
  clear_value s0
  have h2 : Upheld wq s2 := Upheld.ite (countTally_keeps _ _ (closeOpen_keeps _ h0)) (closeOpen_keeps _ h0)
  clear_value s2
  have h3 : Upheld wq s3 := withNv_keeps _ _ h2 fun h => h.sound.window
  clear_value s3
  exact quickSave_keeps _ _ (Upheld.of_mk h3 (fun h => h.sound.stack) (fun h => h.sound.spi) (fun h => h.sound.window)
    (fun h => h.sound.queue) fun h => h.sound.keys)

theorem deviceReset_keeps {wq : List Instr} (s : State) (cause : ResetCause) (hs : Upheld wq s) :
    Upheld wq (State.deviceReset s cause) := by
  unfold State.deviceReset
  repeat' (with_reducible first | assumption | intro _ | apply toDark_keeps | dsimp +zetaDelta only)

end Sys2Proof.Machine
end

