-- ==== Sys2Proof/Laws/KeepsPower.lean ====
section
/-!
SUPPORT. Every state that Machine/Power.lean builds from a sound state is sound, with the same commands waiting.
-/
namespace Sys2Proof.Machine

theorem execPowerDieStart_keeps {wq : List Instr} (testEn : Bool) (s : State) (hs : Upheld wq s) :
    ∃ s', execPowerDieStart testEn s = .next s' ∧ Upheld wq s' := by
  unfold execPowerDieStart
  refine ⟨_, rfl, ?_⟩
  repeat' (with_reducible first
    | assumption | intro _ | apply toDark_keeps | apply Upheld.ite | extract_lets | split
    | ((conv => arg 2; arg 27); apply Upheld.of_mk) | exact (‹Upheld wq _›).sound.stack | exact (‹Upheld wq _›).sound.spi
    | exact (‹Upheld wq _›).sound.window | exact (‹Upheld wq _›).sound.queue | exact (‹Upheld wq _›).sound.keys
    | dsimp +zetaDelta only)

theorem execBootVerifyDone_keeps {wq : List Instr} (s : State) (hs : Upheld wq s) :
    ∃ s', execBootVerifyDone s = .next s' ∧ Upheld wq s' := by
  unfold execBootVerifyDone
  refine ⟨_, rfl, ?_⟩
  repeat' (with_reducible first
    | assumption | intro _ | apply bootVerify_keeps | apply Upheld.ite | split | dsimp +zetaDelta only)

theorem lightsQuay_keeps {wq : List Instr} (s : State) (q : Quay) (hs : Upheld wq s) :
    Upheld wq (State.lightsQuay s q) := by
  unfold State.lightsQuay
  repeat' (with_reducible first
    | assumption | intro _ | apply setQuay_keeps | extract_lets | ((conv => arg 2; arg 27); apply Upheld.of_mk)
    | exact (‹Upheld wq _›).sound.stack | exact (‹Upheld wq _›).sound.spi | exact (‹Upheld wq _›).sound.window
    | exact (‹Upheld wq _›).sound.queue | exact (‹Upheld wq _›).sound.keys | dsimp +zetaDelta only)

theorem lightsBus_keeps {wq : List Instr} (s : State) (c : Bus) (hs : Upheld wq s) :
    Upheld wq (State.lightsBus s c) := by
  unfold State.lightsBus
  repeat' (with_reducible first
    | assumption | intro _ | apply setChan_keeps | extract_lets | ((conv => arg 2; arg 27); apply Upheld.of_mk)
    | exact (‹Upheld wq _›).sound.stack | exact (‹Upheld wq _›).sound.spi | exact (‹Upheld wq _›).sound.window
    | exact (‹Upheld wq _›).sound.queue | exact (‹Upheld wq _›).sound.keys | dsimp +zetaDelta only)

theorem lightsShutter_keeps {wq : List Instr} (s : State) (hs : Upheld wq s) :
    Upheld wq (State.lightsShutter s) := by
  unfold State.lightsShutter
  repeat' (with_reducible first
    | assumption | intro _ | apply startTravel_keeps | apply Upheld.ite | split | dsimp +zetaDelta only)

theorem lights_keeps {wq : List Instr} (s : State) (hs : Upheld wq s) :
    Upheld wq (State.lights s) := by
  unfold State.lights
  repeat' (with_reducible first
    | assumption | intro _ | apply idle_keeps | apply setReg_keeps | apply lightsQuay_keeps | apply lightsBus_keeps
    | apply Upheld.ite | extract_lets | split | refine Upheld.of_pair ?_ (by assumption)
    | ((conv => arg 2; arg 27); apply Upheld.of_mk) | exact (‹Upheld wq _›).sound.stack | exact (‹Upheld wq _›).sound.spi
    | exact (‹Upheld wq _›).sound.window | exact (‹Upheld wq _›).sound.queue | exact (‹Upheld wq _›).sound.keys
    | dsimp +zetaDelta only)

theorem execLightsEntry_keeps {wq : List Instr} (s : State) (hs : Upheld wq s) :
    ∃ s', execLightsEntry s = .next s' ∧ Upheld wq s' := by
  unfold execLightsEntry
  refine ⟨_, rfl, ?_⟩
  repeat' (with_reducible first
    | assumption | intro _ | apply lights_keeps | apply lightsShutter_keeps | apply Upheld.ite | split | dsimp +zetaDelta only)

theorem execLightsOwnerTimeout_keeps {wq : List Instr} (s : State) (hs : Upheld wq s) :
    ∃ s', execLightsOwnerTimeout s = .next s' ∧ Upheld wq s' := by
  unfold execLightsOwnerTimeout
  refine ⟨_, rfl, ?_⟩
  repeat' (with_reducible first
    | assumption | intro _ | apply lights_keeps | apply enterStorm_keeps | apply Upheld.ite | split | dsimp +zetaDelta only)

theorem execSharedRailFault_keeps {wq : List Instr} (s : State) (hs : Upheld wq s) :
    ∃ s', execSharedRailFault s = .next s' ∧ Upheld wq s' := by
  unfold execSharedRailFault
  refine ⟨_, rfl, ?_⟩
  repeat' (with_reducible first
    | assumption | intro _ | apply toDark_keeps | apply Upheld.ite | extract_lets | split
    | ((conv => arg 2; arg 27); apply Upheld.of_mk) | exact (‹Upheld wq _›).sound.stack | exact (‹Upheld wq _›).sound.spi
    | exact (‹Upheld wq _›).sound.window | exact (‹Upheld wq _›).sound.queue | exact (‹Upheld wq _›).sound.keys
    | dsimp +zetaDelta only)

theorem execSharedRailRecovered_keeps {wq : List Instr} (s : State) (hs : Upheld wq s) :
    ∃ s', execSharedRailRecovered s = .next s' ∧ Upheld wq s' := by
  unfold execSharedRailRecovered
  refine ⟨_, rfl, ?_⟩
  repeat' (with_reducible first
    | assumption | intro _ | apply countTally_keeps | apply toDark_keeps | apply Upheld.ite | split | dsimp +zetaDelta only)

theorem feedRecord_keeps {wq : List Instr} (s : State) (hs : Upheld wq s) :
    Upheld wq (State.feedRecord s) := by
  unfold State.feedRecord
  repeat' (with_reducible first | assumption | intro _ | apply pushLog_keeps | dsimp +zetaDelta only)

theorem execFeedAbsent_keeps {wq : List Instr} (f : Feed) (s : State) (hs : Upheld wq s) :
    ∃ s', execFeedAbsent f s = .next s' ∧ Upheld wq s' := by
  unfold execFeedAbsent
  refine ⟨_, rfl, ?_⟩
  repeat' (with_reducible first
    | assumption | intro _ | apply withPwr_keeps | apply feedRecord_keeps | apply raiseIrq_keeps | apply alarmOf_keeps
    | apply Upheld.ite | extract_lets | split | ((conv => arg 2; arg 27); apply Upheld.of_mk)
    | exact (‹Upheld wq _›).sound.stack | exact (‹Upheld wq _›).sound.spi | exact (‹Upheld wq _›).sound.window
    | exact (‹Upheld wq _›).sound.queue | exact (‹Upheld wq _›).sound.keys | dsimp +zetaDelta only)

theorem execFeedPresent_keeps {wq : List Instr} (f : Feed) (s : State) (hs : Upheld wq s) :
    ∃ s', execFeedPresent f s = .next s' ∧ Upheld wq s' := by
  unfold execFeedPresent
  refine ⟨_, rfl, ?_⟩
  repeat' (with_reducible first
    | assumption | intro _ | apply withPwr_keeps | apply feedRecord_keeps | apply alarmOf_keeps | apply Upheld.ite
    | extract_lets | split | ((conv => arg 2; arg 27); apply Upheld.of_mk) | exact (‹Upheld wq _›).sound.stack
    | exact (‹Upheld wq _›).sound.spi | exact (‹Upheld wq _›).sound.window | exact (‹Upheld wq _›).sound.queue
    | exact (‹Upheld wq _›).sound.keys | dsimp +zetaDelta only)

theorem setOv_keeps {wq : List Instr} (s : State) (f : Feed) (on : Bool) (hs : Upheld wq s) :
    Upheld wq (State.setOv s f on) := by
  unfold State.setOv
  repeat' (with_reducible first
    | assumption | intro _ | apply withPwr_keeps | extract_lets | split | refine Upheld.of_pair ?_ (by assumption)
    | ((conv => arg 2; arg 27); apply Upheld.of_mk) | exact (‹Upheld wq _›).sound.stack | exact (‹Upheld wq _›).sound.spi
    | exact (‹Upheld wq _›).sound.window | exact (‹Upheld wq _›).sound.queue | exact (‹Upheld wq _›).sound.keys
    | dsimp +zetaDelta only)

theorem execFeedOvervoltage_keeps {wq : List Instr} (f : Feed) (s : State) (hs : Upheld wq s) :
    ∃ s', execFeedOvervoltage f s = .next s' ∧ Upheld wq s' := by
  unfold execFeedOvervoltage
  refine ⟨_, rfl, ?_⟩
  repeat' (with_reducible first | assumption | intro _ | apply setOv_keeps | dsimp +zetaDelta only)

theorem execFeedOvervoltageEnd_keeps {wq : List Instr} (f : Feed) (s : State) (hs : Upheld wq s) :
    ∃ s', execFeedOvervoltageEnd f s = .next s' ∧ Upheld wq s' := by
  unfold execFeedOvervoltageEnd
  refine ⟨_, rfl, ?_⟩
  repeat' (with_reducible first | assumption | intro _ | apply setOv_keeps | dsimp +zetaDelta only)

theorem execPfail_keeps {wq : List Instr} (us : Nat) (s : State) (hs : Upheld wq s) :
    ∃ s', execPfail us s = .next s' ∧ Upheld wq s' := by
  unfold execPfail
  refine ⟨_, rfl, ?_⟩
  repeat' (with_reducible first
    | assumption | intro _ | apply powerFail_keeps | apply Upheld.ite | split | dsimp +zetaDelta only)

theorem execUvlo_keeps {wq : List Instr} (cell : Bool) (s : State) (hs : Upheld wq s) :
    ∃ s', execUvlo cell s = .next s' ∧ Upheld wq s' := by
  unfold execUvlo
  refine ⟨_, rfl, ?_⟩
  repeat' (with_reducible first
    | assumption | intro _ | apply Upheld.ite | extract_lets | split | ((conv => arg 2; arg 27); apply Upheld.of_mk)
    | exact (‹Upheld wq _›).sound.stack | exact (‹Upheld wq _›).sound.spi | exact (‹Upheld wq _›).sound.window
    | exact (‹Upheld wq _›).sound.queue | exact (‹Upheld wq _›).sound.keys | dsimp +zetaDelta only)

theorem execBrownout_keeps {wq : List Instr} (s : State) (hs : Upheld wq s) :
    ∃ s', execBrownout s = .next s' ∧ Upheld wq s' := by
  unfold execBrownout
  refine ⟨_, rfl, ?_⟩
  repeat' (with_reducible first
    | assumption | intro _ | apply countTally_keeps | apply toDark_keeps | apply Upheld.ite | split | dsimp +zetaDelta only)

theorem pfailLevelRule_keeps {wq : List Instr} (s : State) (v : Nat) (hs : Upheld wq s) :
    Upheld wq (pfailLevelRule s v).2 := by
  unfold pfailLevelRule
  repeat' (with_reducible first
    | assumption | intro _ | apply plainRule_keeps | apply Upheld.ite | split | dsimp +zetaDelta only)

theorem execPfailLevelWrite_keeps {wq : List Instr} (w : Wr) (s : State) (hs : Upheld wq s) :
    ∃ s', execPfailLevelWrite w s = .next s' ∧ Upheld wq s' := by
  unfold execPfailLevelWrite
  refine ⟨_, rfl, ?_⟩
  repeat' (with_reducible first
    | assumption | intro _ | apply ledgerWrite_keeps | apply pfailLevelRule_keeps | dsimp +zetaDelta only)

theorem leaveSlack_keeps {wq : List Instr} (s : State) (hs : Upheld wq s) :
    Upheld wq (State.leaveSlack s) := by
  unfold State.leaveSlack
  repeat' (with_reducible first
    | assumption | intro _ | apply Upheld.ite | extract_lets | split | ((conv => arg 2; arg 27); apply Upheld.of_mk)
    | exact (‹Upheld wq _›).sound.stack | exact (‹Upheld wq _›).sound.spi | exact (‹Upheld wq _›).sound.window
    | exact (‹Upheld wq _›).sound.queue | exact (‹Upheld wq _›).sound.keys | dsimp +zetaDelta only)

theorem powerRequestRule_keeps {wq : List Instr} (s : State) (v : Nat) (hs : Upheld wq s) :
    Upheld wq (powerRequestRule s v).2 := by
  unfold powerRequestRule
  repeat' (with_reducible first
    | assumption | intro _ | apply andThen_keeps | apply plainRule_keeps | apply leaveSlack_keeps | apply Upheld.ite | split
    | dsimp +zetaDelta only)

theorem execPowerRequestWrite_keeps {wq : List Instr} (w : Wr) (s : State) (hs : Upheld wq s) :
    ∃ s', execPowerRequestWrite w s = .next s' ∧ Upheld wq s' := by
  unfold execPowerRequestWrite
  refine ⟨_, rfl, ?_⟩
  repeat' (with_reducible first
    | assumption | intro _ | apply ledgerWrite_keeps | apply powerRequestRule_keeps | dsimp +zetaDelta only)

theorem execSlackEntry_keeps {wq : List Instr} (s : State) (hs : Upheld wq s) :
    ∃ s', execSlackEntry s = .next s' ∧ Upheld wq s' := by
  unfold execSlackEntry
  refine ⟨_, rfl, ?_⟩
  repeat' (with_reducible first
    | assumption | intro _ | apply darkArray_keeps | apply Upheld.ite | extract_lets | split
    | ((conv => arg 2; arg 27); apply Upheld.of_mk) | exact (‹Upheld wq _›).sound.stack | exact (‹Upheld wq _›).sound.spi
    | exact (‹Upheld wq _›).sound.window | exact (‹Upheld wq _›).sound.queue | exact (‹Upheld wq _›).sound.keys
    | dsimp +zetaDelta only)

theorem execWakeHoldEnd_keeps {wq : List Instr} (s : State) (hs : Upheld wq s) :
    ∃ s', execWakeHoldEnd s = .next s' ∧ Upheld wq s' := by
  unfold execWakeHoldEnd
  refine ⟨_, rfl, ?_⟩
  repeat' (with_reducible first
    | assumption | intro _ | apply withPwr_keeps | apply Upheld.ite | extract_lets | split
    | refine Upheld.of_pair ?_ (by assumption) | ((conv => arg 2; arg 27); apply Upheld.of_mk)
    | exact (‹Upheld wq _›).sound.stack | exact (‹Upheld wq _›).sound.spi | exact (‹Upheld wq _›).sound.window
    | exact (‹Upheld wq _›).sound.queue | exact (‹Upheld wq _›).sound.keys | dsimp +zetaDelta only)

theorem resetCommandRule_keeps {wq : List Instr} (s : State) (v : Nat) (hs : Upheld wq s) :
    Upheld wq (resetCommandRule s v).2 := by
  unfold resetCommandRule
  repeat' (with_reducible first
    | assumption | intro _ | apply Upheld.ite | extract_lets | split | ((conv => arg 2; arg 27); apply Upheld.of_mk)
    | exact (‹Upheld wq _›).sound.stack | exact (‹Upheld wq _›).sound.spi | exact (‹Upheld wq _›).sound.window
    | exact (‹Upheld wq _›).sound.queue | exact (‹Upheld wq _›).sound.keys | dsimp +zetaDelta only)

theorem execResetCommandWrite_keeps {wq : List Instr} (w : Wr) (s : State) (hs : Upheld wq s) :
    ∃ s', execResetCommandWrite w s = .next s' ∧ Upheld wq s' := by
  unfold execResetCommandWrite
  refine ⟨_, rfl, ?_⟩
  repeat' (with_reducible first
    | assumption | intro _ | apply ledgerWrite_keeps | apply resetCommandRule_keeps | dsimp +zetaDelta only)

theorem execDeviceReset_keeps {wq : List Instr} (s : State) (hs : Upheld wq s) :
    ∃ s', execDeviceReset s = .next s' ∧ Upheld wq s' := by
  unfold execDeviceReset
  refine ⟨_, rfl, ?_⟩
  repeat' (with_reducible first
    | assumption | intro _ | apply deviceReset_keeps | apply Upheld.ite | extract_lets | split
    | refine Upheld.of_pair ?_ (by assumption) | ((conv => arg 2; arg 27); apply Upheld.of_mk)
    | exact (‹Upheld wq _›).sound.stack | exact (‹Upheld wq _›).sound.spi | exact (‹Upheld wq _›).sound.window
    | exact (‹Upheld wq _›).sound.queue | exact (‹Upheld wq _›).sound.keys | dsimp +zetaDelta only)

end Sys2Proof.Machine
end

