-- ==== Sys2Proof/Laws/KeepsSlipway.lean ====
section
/-!
SUPPORT. Every state that Machine/Slipway.lean builds from a sound state is sound, with the same commands waiting.
-/
namespace Sys2Proof.Machine

theorem slipWrite_keeps {wq : List Instr} (s : State) (r : Req) (code : Nat) (run : State → Status × State) (hs : Upheld wq s) (hrun : ∀ t, Upheld wq t → Upheld wq (run t).2) :
    Upheld wq (State.slipWrite s r code run) := by
  unfold State.slipWrite
  repeat' (with_reducible first | assumption | intro _ | apply ledgerWrite_keeps | apply hrun | dsimp +zetaDelta only)

theorem execSlipVerifyDone_keeps {wq : List Instr} (s : State) (hs : Upheld wq s) :
    ∃ s', execSlipVerifyDone s = .next s' ∧ Upheld wq s' := by
  unfold execSlipVerifyDone
  refine ⟨_, rfl, ?_⟩
  repeat' (with_reducible first
    | assumption | intro _ | apply withSlip_keeps | apply slipReject_keeps | apply Upheld.ite | extract_lets | split
    | ((conv => arg 2; arg 27); apply Upheld.of_mk) | exact (‹Upheld wq _›).sound.stack | exact (‹Upheld wq _›).sound.spi
    | exact (‹Upheld wq _›).sound.window | exact (‹Upheld wq _›).sound.queue | exact (‹Upheld wq _›).sound.keys
    | dsimp +zetaDelta only)

theorem execSlipWriteDone_keeps {wq : List Instr} (ok : Bool) (s : State) (hs : Upheld wq s) :
    ∃ s', execSlipWriteDone ok s = .next s' ∧ Upheld wq s' := by
  unfold execSlipWriteDone
  refine ⟨_, rfl, ?_⟩
  repeat' (with_reducible first
    | assumption | intro _ | apply withSlip_keeps | apply pushLog_keeps | apply raiseIrq_keeps | apply slipReject_keeps
    | apply Upheld.ite | extract_lets | split | ((conv => arg 2; arg 27); apply Upheld.of_mk)
    | exact (‹Upheld wq _›).sound.stack | exact (‹Upheld wq _›).sound.spi | exact (‹Upheld wq _›).sound.window
    | exact (‹Upheld wq _›).sound.queue | exact (‹Upheld wq _›).sound.keys | dsimp +zetaDelta only)

theorem slipLoadStandbyRule_keeps {wq : List Instr} (s : State) (hs : Upheld wq s) :
    Upheld wq (slipLoadStandbyRule s).2 := by
  unfold slipLoadStandbyRule
  repeat' (with_reducible first
    | assumption | intro _ | apply reload_keeps | apply withSlip_keeps | apply Upheld.ite | extract_lets | split
    | refine Upheld.of_pair ?_ (by assumption) | ((conv => arg 2; arg 27); apply Upheld.of_mk)
    | exact (‹Upheld wq _›).sound.stack | exact (‹Upheld wq _›).sound.spi | exact (‹Upheld wq _›).sound.window
    | exact (‹Upheld wq _›).sound.queue | exact (‹Upheld wq _›).sound.keys | dsimp +zetaDelta only)

theorem execSlipLoadStandby_keeps {wq : List Instr} (r : Req) (s : State) (hs : Upheld wq s) :
    ∃ s', execSlipLoadStandby r s = .next s' ∧ Upheld wq s' := by
  unfold execSlipLoadStandby
  refine ⟨_, rfl, ?_⟩
  repeat' (with_reducible first
    | assumption | intro _ | apply slipWrite_keeps | apply slipLoadStandbyRule_keeps | dsimp +zetaDelta only)

theorem execSlipLoadDone_keeps {wq : List Instr} (s : State) (hs : Upheld wq s) :
    ∃ s', execSlipLoadDone s = .next s' ∧ Upheld wq s' := by
  unfold execSlipLoadDone
  refine ⟨_, rfl, ?_⟩
  repeat' (with_reducible first
    | assumption | intro _ | apply withSlip_keeps | apply raiseIrq_keeps | apply Upheld.ite | extract_lets | split
    | refine Upheld.of_pair ?_ (by assumption) | ((conv => arg 2; arg 27); apply Upheld.of_mk)
    | exact (‹Upheld wq _›).sound.stack | exact (‹Upheld wq _›).sound.spi | exact (‹Upheld wq _›).sound.window
    | exact (‹Upheld wq _›).sound.queue | exact (‹Upheld wq _›).sound.keys | dsimp +zetaDelta only)

theorem slipSwapRule_keeps {wq : List Instr} (s : State) (hs : Upheld wq s) :
    Upheld wq (slipSwapRule s).2 := by
  unfold slipSwapRule
  repeat' (with_reducible first
    | assumption | intro _ | apply beginSwap_keeps | apply Upheld.ite | extract_lets | split
    | refine Upheld.of_pair ?_ (by assumption) | ((conv => arg 2; arg 27); apply Upheld.of_mk)
    | exact (‹Upheld wq _›).sound.stack | exact (‹Upheld wq _›).sound.spi | exact (‹Upheld wq _›).sound.window
    | exact (‹Upheld wq _›).sound.queue | exact (‹Upheld wq _›).sound.keys | dsimp +zetaDelta only)

theorem execSlipSwap_keeps {wq : List Instr} (r : Req) (s : State) (hs : Upheld wq s) :
    ∃ s', execSlipSwap r s = .next s' ∧ Upheld wq s' := by
  unfold execSlipSwap
  refine ⟨_, rfl, ?_⟩
  repeat' (with_reducible first
    | assumption | intro _ | apply slipWrite_keeps | apply slipSwapRule_keeps | dsimp +zetaDelta only)

theorem slipCommitRule_keeps {wq : List Instr} (s : State) (hs : Upheld wq s) :
    Upheld wq (slipCommitRule s).2 := by
  unfold slipCommitRule
  repeat' (with_reducible first
    | assumption | intro _ | apply slipCommit_keeps | apply Upheld.ite | split | dsimp +zetaDelta only)

theorem execSlipCommit_keeps {wq : List Instr} (r : Req) (s : State) (hs : Upheld wq s) :
    ∃ s', execSlipCommit r s = .next s' ∧ Upheld wq s' := by
  unfold execSlipCommit
  refine ⟨_, rfl, ?_⟩
  repeat' (with_reducible first
    | assumption | intro _ | apply slipWrite_keeps | apply slipCommitRule_keeps | dsimp +zetaDelta only)

theorem rollbackStandby_keeps {wq : List Instr} (s : State) (hs : Upheld wq s) :
    Upheld wq (State.rollbackStandby s) := by
  unfold State.rollbackStandby
  repeat' (with_reducible first
    | assumption | intro _ | apply reload_keeps | apply Upheld.ite | extract_lets | split
    | refine Upheld.of_pair ?_ (by assumption) | ((conv => arg 2; arg 27); apply Upheld.of_mk)
    | exact (‹Upheld wq _›).sound.stack | exact (‹Upheld wq _›).sound.spi | exact (‹Upheld wq _›).sound.window
    | exact (‹Upheld wq _›).sound.queue | exact (‹Upheld wq _›).sound.keys | dsimp +zetaDelta only)

theorem slipRollbackRule_keeps {wq : List Instr} (s : State) (hs : Upheld wq s) :
    Upheld wq (slipRollbackRule s).2 := by
  unfold slipRollbackRule
  repeat' (with_reducible first
    | assumption | intro _ | apply slipRollback_keeps | apply rollbackStandby_keeps | apply Upheld.ite | split
    | dsimp +zetaDelta only)

theorem execSlipRollback_keeps {wq : List Instr} (r : Req) (s : State) (hs : Upheld wq s) :
    ∃ s', execSlipRollback r s = .next s' ∧ Upheld wq s' := by
  unfold execSlipRollback
  refine ⟨_, rfl, ?_⟩
  repeat' (with_reducible first
    | assumption | intro _ | apply slipWrite_keeps | apply slipRollbackRule_keeps | dsimp +zetaDelta only)

theorem slipAbortRule_keeps {wq : List Instr} (s : State) (hs : Upheld wq s) : Upheld wq (slipAbortRule s).2 := by
  unfold slipAbortRule
  split
  · exact withKlp_keeps _ _ (withSlip_keeps _ _ (slipAbandon_keeps _ hs)) fun h => h.sound.spi
  · exact hs

theorem execSlipAbort_keeps {wq : List Instr} (r : Req) (s : State) (hs : Upheld wq s) :
    ∃ s', execSlipAbort r s = .next s' ∧ Upheld wq s' := by
  unfold execSlipAbort
  refine ⟨_, rfl, ?_⟩
  repeat' (with_reducible first
    | assumption | intro _ | apply slipWrite_keeps | apply slipAbortRule_keeps | dsimp +zetaDelta only)

theorem slipInstallResetRule_keeps {wq : List Instr} (s : State) (hs : Upheld wq s) :
    Upheld wq (slipInstallResetRule s).2 := by
  unfold slipInstallResetRule
  repeat' (with_reducible first
    | assumption | intro _ | apply andThen_keeps | apply putEntry_keeps | extract_lets | split
    | refine Upheld.of_pair ?_ (by assumption) | ((conv => arg 2; arg 27); apply Upheld.of_mk)
    | exact (‹Upheld wq _›).sound.stack | exact (‹Upheld wq _›).sound.spi | exact (‹Upheld wq _›).sound.window
    | exact (‹Upheld wq _›).sound.queue | exact (‹Upheld wq _›).sound.keys | dsimp +zetaDelta only)

theorem execSlipInstallReset_keeps {wq : List Instr} (r : Req) (s : State) (hs : Upheld wq s) :
    ∃ s', execSlipInstallReset r s = .next s' ∧ Upheld wq s' := by
  unfold execSlipInstallReset
  refine ⟨_, rfl, ?_⟩
  repeat' (with_reducible first
    | assumption | intro _ | apply slipWrite_keeps | apply slipInstallResetRule_keeps | dsimp +zetaDelta only)

theorem execProbationEnd_keeps {wq : List Instr} (s : State) (hs : Upheld wq s) :
    ∃ s', execProbationEnd s = .next s' ∧ Upheld wq s' := by
  unfold execProbationEnd
  refine ⟨_, rfl, ?_⟩
  repeat' (with_reducible first
    | assumption | intro _ | apply slipCommit_keeps | apply Upheld.ite | extract_lets | split
    | refine Upheld.of_pair ?_ (by assumption) | ((conv => arg 2; arg 27); apply Upheld.of_mk)
    | exact (‹Upheld wq _›).sound.stack | exact (‹Upheld wq _›).sound.spi | exact (‹Upheld wq _›).sound.window
    | exact (‹Upheld wq _›).sound.queue | exact (‹Upheld wq _›).sound.keys | dsimp +zetaDelta only)

end Sys2Proof.Machine
end

