-- ==== Sys2Proof/Laws/KeepsHarbour.lean ====
section
/-!
SUPPORT. Every state that Machine/Harbour.lean builds from a sound state is sound, with the same commands waiting.
-/
namespace Sys2Proof.Machine

theorem execHeartbeatRequest_keeps {wq : List Instr} (s : State) (hs : Upheld wq s) :
    ∃ s', execHeartbeatRequest s = .next s' ∧ Upheld wq s' := by
  unfold execHeartbeatRequest
  refine ⟨_, rfl, ?_⟩
  repeat' (with_reducible first
    | assumption | intro _ | apply setQuay_keeps | apply Upheld.foldl | apply Upheld.ite | extract_lets | split
    | ((conv => arg 2; arg 27); apply Upheld.of_mk) | exact (‹Upheld wq _›).sound.stack | exact (‹Upheld wq _›).sound.spi
    | exact (‹Upheld wq _›).sound.window | exact (‹Upheld wq _›).sound.queue | exact (‹Upheld wq _›).sound.keys
    | dsimp +zetaDelta only)

theorem execHeartbeatStrobe_keeps {wq : List Instr} (q : Quay) (t : Nat) (s : State) (hs : Upheld wq s) :
    ∃ s', execHeartbeatStrobe q t s = .next s' ∧ Upheld wq s' := by
  unfold execHeartbeatStrobe
  refine ⟨_, rfl, ?_⟩
  repeat' (with_reducible first
    | assumption | intro _ | apply setQuay_keeps | apply incSat_keeps | apply Upheld.ite | extract_lets | split
    | ((conv => arg 2; arg 27); apply Upheld.of_mk) | exact (‹Upheld wq _›).sound.stack | exact (‹Upheld wq _›).sound.spi
    | exact (‹Upheld wq _›).sound.window | exact (‹Upheld wq _›).sound.queue | exact (‹Upheld wq _›).sound.keys
    | dsimp +zetaDelta only)

theorem windowEnd_keeps {wq : List Instr} (s : State) (q : Quay) (hs : Upheld wq s) :
    Upheld wq (State.windowEnd s q) := by
  unfold State.windowEnd
  repeat' (with_reducible first
    | assumption | intro _ | apply setQuay_keeps | apply incSat_keeps | apply quayFault_keeps | apply Upheld.ite | extract_lets
    | split | ((conv => arg 2; arg 27); apply Upheld.of_mk) | exact (‹Upheld wq _›).sound.stack
    | exact (‹Upheld wq _›).sound.spi | exact (‹Upheld wq _›).sound.window | exact (‹Upheld wq _›).sound.queue
    | exact (‹Upheld wq _›).sound.keys | dsimp +zetaDelta only)

theorem execHeartbeatWindowEnd_keeps {wq : List Instr} (s : State) (hs : Upheld wq s) :
    ∃ s', execHeartbeatWindowEnd s = .next s' ∧ Upheld wq s' := by
  unfold execHeartbeatWindowEnd
  refine ⟨_, rfl, ?_⟩
  repeat' (with_reducible first
    | assumption | intro _ | apply windowEnd_keeps | apply Upheld.ite | split | dsimp +zetaDelta only)

theorem execSelfCheckResponse_keeps {wq : List Instr} (q : Quay) (value : Nat) (s : State) (hs : Upheld wq s) :
    ∃ s', execSelfCheckResponse q value s = .next s' ∧ Upheld wq s' := by
  unfold execSelfCheckResponse
  refine ⟨_, rfl, ?_⟩
  repeat' (with_reducible first
    | assumption | intro _ | apply challenge_keeps | apply setQuay_keeps | apply quayFault_keeps | apply Upheld.ite
    | extract_lets | split | refine Upheld.of_pair ?_ (by assumption) | ((conv => arg 2; arg 27); apply Upheld.of_mk)
    | exact (‹Upheld wq _›).sound.stack | exact (‹Upheld wq _›).sound.spi | exact (‹Upheld wq _›).sound.window
    | exact (‹Upheld wq _›).sound.queue | exact (‹Upheld wq _›).sound.keys | dsimp +zetaDelta only)

theorem execSelfCheckTimeout_keeps {wq : List Instr} (q : Quay) (s : State) (hs : Upheld wq s) :
    ∃ s', execSelfCheckTimeout q s = .next s' ∧ Upheld wq s' := by
  unfold execSelfCheckTimeout
  refine ⟨_, rfl, ?_⟩
  repeat' (with_reducible first
    | assumption | intro _ | apply challenge_keeps | apply quayFault_keeps | apply Upheld.ite | split | dsimp +zetaDelta only)

theorem execWatchdogRestart_keeps {wq : List Instr} (q : Quay) (s : State) (hs : Upheld wq s) :
    ∃ s', execWatchdogRestart q s = .next s' ∧ Upheld wq s' := by
  unfold execWatchdogRestart
  refine ⟨_, rfl, ?_⟩
  repeat' (with_reducible first
    | assumption | intro _ | apply setQuay_keeps | apply Upheld.ite | extract_lets | split
    | ((conv => arg 2; arg 27); apply Upheld.of_mk) | exact (‹Upheld wq _›).sound.stack | exact (‹Upheld wq _›).sound.spi
    | exact (‹Upheld wq _›).sound.window | exact (‹Upheld wq _›).sound.queue | exact (‹Upheld wq _›).sound.keys
    | dsimp +zetaDelta only)

theorem execWatchdogExpiry_keeps {wq : List Instr} (q : Quay) (s : State) (hs : Upheld wq s) :
    ∃ s', execWatchdogExpiry q s = .next s' ∧ Upheld wq s' := by
  unfold execWatchdogExpiry
  refine ⟨_, rfl, ?_⟩
  repeat' (with_reducible first
    | assumption | intro _ | apply quayFault_keeps | apply Upheld.ite | split | dsimp +zetaDelta only)

theorem execQuayClockFault_keeps {wq : List Instr} (q : Quay) (s : State) (hs : Upheld wq s) :
    ∃ s', execQuayClockFault q s = .next s' ∧ Upheld wq s' := by
  unfold execQuayClockFault
  refine ⟨_, rfl, ?_⟩
  repeat' (with_reducible first | assumption | intro _ | apply quayFault_keeps | dsimp +zetaDelta only)

theorem execQuayRailFault_keeps {wq : List Instr} (q : Quay) (s : State) (hs : Upheld wq s) :
    ∃ s', execQuayRailFault q s = .next s' ∧ Upheld wq s' := by
  unfold execQuayRailFault
  refine ⟨_, rfl, ?_⟩
  repeat' (with_reducible first | assumption | intro _ | apply quayFault_keeps | dsimp +zetaDelta only)

theorem execPilotMemoryError_keeps {wq : List Instr} (q : Quay) (m addr : Nat) (s : State) (hs : Upheld wq s) :
    ∃ s', execPilotMemoryError q m addr s = .next s' ∧ Upheld wq s' := by
  unfold execPilotMemoryError
  refine ⟨_, rfl, ?_⟩
  repeat' (with_reducible first
    | assumption | intro _ | apply uncorrectable_keeps | apply stackOverflow_keeps | apply pushEntry_keeps | extract_lets
    | split | dsimp +zetaDelta only)

theorem execMemoryRetryOutcome_keeps {wq : List Instr} (q : Quay) (ok : Bool) (s : State) (hs : Upheld wq s) :
    ∃ s', execMemoryRetryOutcome q ok s = .next s' ∧ Upheld wq s' := by
  unfold execMemoryRetryOutcome
  refine ⟨_, rfl, ?_⟩
  repeat' (with_reducible first
    | assumption | intro _ | apply popFault_keeps | apply dropFault_keeps | apply quayFault_keeps | apply Upheld.ite
    | extract_lets | split | refine Upheld.of_pair ?_ (by assumption) | ((conv => arg 2; arg 27); apply Upheld.of_mk)
    | exact (‹Upheld wq _›).sound.stack | exact (‹Upheld wq _›).sound.spi | exact (‹Upheld wq _›).sound.window
    | exact (‹Upheld wq _›).sound.queue | exact (‹Upheld wq _›).sound.keys | dsimp +zetaDelta only)

theorem execHmVoteMismatch_keeps {wq : List Instr} (copy : Nat) (agree : Bool) (s : State) (hs : Upheld wq s) :
    ∃ s', execHmVoteMismatch copy agree s = .next s' ∧ Upheld wq s' := by
  unfold execHmVoteMismatch
  refine ⟨_, rfl, ?_⟩
  repeat' (with_reducible first
    | assumption | intro _ | apply deviceReset_keeps | apply withHm_keeps | apply recordFault_keeps | apply Upheld.ite
    | extract_lets | split | ((conv => arg 2; arg 27); apply Upheld.of_mk) | exact (‹Upheld wq _›).sound.stack
    | exact (‹Upheld wq _›).sound.spi | exact (‹Upheld wq _›).sound.window | exact (‹Upheld wq _›).sound.queue
    | exact (‹Upheld wq _›).sound.keys | dsimp +zetaDelta only)

theorem wharfPut_keeps {wq : List Instr} (s : State) (out v : Nat) (hs : Upheld wq s) :
    Upheld wq (State.wharfPut s out v) := by
  unfold State.wharfPut
  repeat' (with_reducible first
    | assumption | intro _ | apply commandOut_keeps | apply commandFan_keeps | apply Upheld.ite | split | dsimp +zetaDelta only)

theorem execWharfWrite_keeps {wq : List Instr} (q : Quay) (out v : Nat) (s : State) (hs : Upheld wq s) :
    ∃ s', execWharfWrite q out v s = .next s' ∧ Upheld wq s' := by
  unfold execWharfWrite
  refine ⟨_, rfl, ?_⟩
  repeat' (with_reducible first
    | assumption | intro _ | apply wharfPut_keeps | apply incSat_keeps | apply Upheld.ite | split | dsimp +zetaDelta only)

theorem goodCheckpoint_keeps {wq : List Instr} (s : State) (q : Quay) (len : Nat) (hs : Upheld wq s) :
    Upheld wq (State.goodCheckpoint s q len) := by
  unfold State.goodCheckpoint
  repeat' (with_reducible first
    | assumption | intro _ | apply withHm_keeps | apply setReg_keeps | apply moveToken_keeps | apply Upheld.ite | extract_lets
    | split | ((conv => arg 2; arg 27); apply Upheld.of_mk) | exact (‹Upheld wq _›).sound.stack
    | exact (‹Upheld wq _›).sound.spi | exact (‹Upheld wq _›).sound.window | exact (‹Upheld wq _›).sound.queue
    | exact (‹Upheld wq _›).sound.keys | dsimp +zetaDelta only)

theorem badCheckpoint_keeps {wq : List Instr} (s : State) (q : Quay) (hs : Upheld wq s) :
    Upheld wq (State.badCheckpoint s q) := by
  unfold State.badCheckpoint
  repeat' (with_reducible first
    | assumption | intro _ | apply withHm_keeps | apply incSat_keeps | apply recordFault_keeps | apply Upheld.ite | extract_lets
    | split | ((conv => arg 2; arg 27); apply Upheld.of_mk) | exact (‹Upheld wq _›).sound.stack
    | exact (‹Upheld wq _›).sound.spi | exact (‹Upheld wq _›).sound.window | exact (‹Upheld wq _›).sound.queue
    | exact (‹Upheld wq _›).sound.keys | dsimp +zetaDelta only)

theorem execCheckpointArrival_keeps {wq : List Instr} (good : Bool) (len : Nat) (s : State) (hs : Upheld wq s) :
    ∃ s', execCheckpointArrival good len s = .next s' ∧ Upheld wq s' := by
  unfold execCheckpointArrival
  refine ⟨_, rfl, ?_⟩
  repeat' (with_reducible first
    | assumption | intro _ | apply setReg_keeps | apply goodCheckpoint_keeps | apply badCheckpoint_keeps | apply Upheld.ite
    | extract_lets | split | refine Upheld.of_pair ?_ (by assumption) | ((conv => arg 2; arg 27); apply Upheld.of_mk)
    | exact (‹Upheld wq _›).sound.stack | exact (‹Upheld wq _›).sound.spi | exact (‹Upheld wq _›).sound.window
    | exact (‹Upheld wq _›).sound.queue | exact (‹Upheld wq _›).sound.keys | dsimp +zetaDelta only)

theorem setOutage_keeps {wq : List Instr} (s : State) (ns : Nat) (hs : Upheld wq s) :
    Upheld wq (State.setOutage s ns) := by
  unfold State.setOutage
  repeat' (with_reducible first | assumption | intro _ | apply setReg_keeps | extract_lets | dsimp +zetaDelta only)

theorem execTakeoverTimeout_keeps {wq : List Instr} (s : State) (hs : Upheld wq s) :
    ∃ s', execTakeoverTimeout s = .next s' ∧ Upheld wq s' := by
  unfold execTakeoverTimeout
  refine ⟨_, rfl, ?_⟩
  repeat' (with_reducible first
    | assumption | intro _ | apply quayFault_keeps | apply Upheld.ite | extract_lets | split
    | refine Upheld.of_pair ?_ (by assumption) | ((conv => arg 2; arg 27); apply Upheld.of_mk)
    | exact (‹Upheld wq _›).sound.stack | exact (‹Upheld wq _›).sound.spi | exact (‹Upheld wq _›).sound.window
    | exact (‹Upheld wq _›).sound.queue | exact (‹Upheld wq _›).sound.keys | dsimp +zetaDelta only)

theorem execQuayResetRelease_keeps {wq : List Instr} (q : Quay) (s : State) (hs : Upheld wq s) :
    ∃ s', execQuayResetRelease q s = .next s' ∧ Upheld wq s' := by
  unfold execQuayResetRelease
  refine ⟨_, rfl, ?_⟩
  repeat' (with_reducible first
    | assumption | intro _ | apply setQuay_keeps | apply Upheld.ite | extract_lets | split
    | ((conv => arg 2; arg 27); apply Upheld.of_mk) | exact (‹Upheld wq _›).sound.stack | exact (‹Upheld wq _›).sound.spi
    | exact (‹Upheld wq _›).sound.window | exact (‹Upheld wq _›).sound.queue | exact (‹Upheld wq _›).sound.keys
    | dsimp +zetaDelta only)

theorem selfTestPass_keeps {wq : List Instr} (s : State) (q : Quay) (hs : Upheld wq s) :
    Upheld wq (State.selfTestPass s q) := by
  unfold State.selfTestPass
  repeat' (with_reducible first
    | assumption | intro _ | apply setQuay_keeps | apply grantToken_keeps | apply releaseHeld_keeps | apply Upheld.ite
    | extract_lets | split | ((conv => arg 2; arg 27); apply Upheld.of_mk) | exact (‹Upheld wq _›).sound.stack
    | exact (‹Upheld wq _›).sound.spi | exact (‹Upheld wq _›).sound.window | exact (‹Upheld wq _›).sound.queue
    | exact (‹Upheld wq _›).sound.keys | dsimp +zetaDelta only)

theorem execQuaySelfTestDone_keeps {wq : List Instr} (q : Quay) (pass : Bool) (s : State) (hs : Upheld wq s) :
    ∃ s', execQuaySelfTestDone q pass s = .next s' ∧ Upheld wq s' := by
  unfold execQuaySelfTestDone
  refine ⟨_, rfl, ?_⟩
  repeat' (with_reducible first
    | assumption | intro _ | apply selfTestPass_keeps | apply goOut_keeps | apply Upheld.ite | extract_lets | split
    | dsimp +zetaDelta only)

theorem execPassHoldTimeout_keeps {wq : List Instr} (q : Quay) (s : State) (hs : Upheld wq s) :
    ∃ s', execPassHoldTimeout q s = .next s' ∧ Upheld wq s' := by
  unfold execPassHoldTimeout
  refine ⟨_, rfl, ?_⟩
  repeat' (with_reducible first
    | assumption | intro _ | apply grantToken_keeps | apply Upheld.ite | extract_lets | split | dsimp +zetaDelta only)

theorem execQuaySyncDone_keeps {wq : List Instr} (q : Quay) (s : State) (hs : Upheld wq s) :
    ∃ s', execQuaySyncDone q s = .next s' ∧ Upheld wq s' := by
  unfold execQuaySyncDone
  refine ⟨_, rfl, ?_⟩
  repeat' (with_reducible first
    | assumption | intro _ | apply reachStandby_keeps | apply beginSwap_keeps | apply Upheld.ite | split | dsimp +zetaDelta only)

theorem execQuayFailWindowExpiry_keeps {wq : List Instr} (q : Quay) (s : State) (hs : Upheld wq s) :
    ∃ s', execQuayFailWindowExpiry q s = .next s' ∧ Upheld wq s' := by
  unfold execQuayFailWindowExpiry
  refine ⟨_, rfl, ?_⟩
  repeat' (with_reducible first
    | assumption | intro _ | apply setQuay_keeps | apply Upheld.ite | extract_lets | split
    | refine Upheld.of_pair ?_ (by assumption) | ((conv => arg 2; arg 27); apply Upheld.of_mk)
    | exact (‹Upheld wq _›).sound.stack | exact (‹Upheld wq _›).sound.spi | exact (‹Upheld wq _›).sound.window
    | exact (‹Upheld wq _›).sound.queue | exact (‹Upheld wq _›).sound.keys | dsimp +zetaDelta only)

theorem execSalvageAfterFailover_keeps {wq : List Instr} (s : State) (hs : Upheld wq s) :
    ∃ s', execSalvageAfterFailover s = .next s' ∧ Upheld wq s' := by
  unfold execSalvageAfterFailover
  refine ⟨_, rfl, ?_⟩
  repeat' (with_reducible first
    | assumption | intro _ | apply withHm_keeps | apply writeSalvage_keeps | extract_lets | split
    | refine Upheld.of_pair ?_ (by assumption) | ((conv => arg 2; arg 27); apply Upheld.of_mk)
    | exact (‹Upheld wq _›).sound.stack | exact (‹Upheld wq _›).sound.spi | exact (‹Upheld wq _›).sound.window
    | exact (‹Upheld wq _›).sound.queue | exact (‹Upheld wq _›).sound.keys | dsimp +zetaDelta only)

theorem execStormAutoExit_keeps {wq : List Instr} (s : State) (hs : Upheld wq s) :
    ∃ s', execStormAutoExit s = .next s' ∧ Upheld wq s' := by
  unfold execStormAutoExit
  refine ⟨_, rfl, ?_⟩
  repeat' (with_reducible first
    | assumption | intro _ | apply leaveStorm_keeps | apply Upheld.ite | extract_lets | split
    | refine Upheld.of_pair ?_ (by assumption) | ((conv => arg 2; arg 27); apply Upheld.of_mk)
    | exact (‹Upheld wq _›).sound.stack | exact (‹Upheld wq _›).sound.spi | exact (‹Upheld wq _›).sound.window
    | exact (‹Upheld wq _›).sound.queue | exact (‹Upheld wq _›).sound.keys | dsimp +zetaDelta only)

theorem stormValueRule_keeps {wq : List Instr} (n : Nat) (s : State) (v : Nat) (hs : Upheld wq s) :
    Upheld wq (stormValueRule n s v).2 := by
  unfold stormValueRule
  repeat' (with_reducible first
    | assumption | intro _ | apply andThen_keeps | apply plainRule_keeps | apply applyStorm_keeps | apply stormQueues_keeps | apply Upheld.ite | split
    | ((conv => arg 2; arg 27); apply Upheld.of_mk) | exact (‹Upheld wq _›).sound.stack | exact (‹Upheld wq _›).sound.spi
    | exact (‹Upheld wq _›).sound.window | exact (‹Upheld wq _›).sound.queue | exact (‹Upheld wq _›).sound.keys
    | dsimp +zetaDelta only)

theorem execStormValueWrite_keeps {wq : List Instr} (n : Nat) (w : Wr) (s : State) (hs : Upheld wq s) :
    ∃ s', execStormValueWrite n w s = .next s' ∧ Upheld wq s' := by
  unfold execStormValueWrite
  refine ⟨_, rfl, ?_⟩
  repeat' (with_reducible first
    | assumption | intro _ | apply ledgerWrite_keeps | apply stormValueRule_keeps | dsimp +zetaDelta only)

theorem salvageReleaseRule_keeps {wq : List Instr} (s : State) (v : Nat) (hs : Upheld wq s) :
    Upheld wq (salvageReleaseRule s v).2 := by
  unfold salvageReleaseRule
  repeat' (with_reducible first
    | assumption | intro _ | apply withHm_keeps | apply Upheld.ite | extract_lets | split
    | ((conv => arg 2; arg 27); apply Upheld.of_mk) | exact (‹Upheld wq _›).sound.stack | exact (‹Upheld wq _›).sound.spi
    | exact (‹Upheld wq _›).sound.window | exact (‹Upheld wq _›).sound.queue | exact (‹Upheld wq _›).sound.keys
    | dsimp +zetaDelta only)

theorem execSalvageRelease_keeps {wq : List Instr} (w : Wr) (s : State) (hs : Upheld wq s) :
    ∃ s', execSalvageRelease w s = .next s' ∧ Upheld wq s' := by
  unfold execSalvageRelease
  refine ⟨_, rfl, ?_⟩
  repeat' (with_reducible first
    | assumption | intro _ | apply ledgerWrite_keeps | apply salvageReleaseRule_keeps | dsimp +zetaDelta only)

theorem hmWrite_keeps {wq : List Instr} (s : State) (r : Req) (code : Nat) (run : State → Status × State) (hs : Upheld wq s) (hrun : ∀ t, Upheld wq t → Upheld wq (run t).2) :
    Upheld wq (State.hmWrite s r code run) := by
  unfold State.hmWrite
  repeat' (with_reducible first | assumption | intro _ | apply ledgerWrite_keeps | apply hrun | dsimp +zetaDelta only)

theorem hmSwapRule_keeps {wq : List Instr} (s : State) (hs : Upheld wq s) :
    Upheld wq (hmSwapRule s).2 := by
  unfold hmSwapRule
  repeat' (with_reducible first
    | assumption | intro _ | apply beginSwap_keeps | apply Upheld.ite | extract_lets | split
    | refine Upheld.of_pair ?_ (by assumption) | ((conv => arg 2; arg 27); apply Upheld.of_mk)
    | exact (‹Upheld wq _›).sound.stack | exact (‹Upheld wq _›).sound.spi | exact (‹Upheld wq _›).sound.window
    | exact (‹Upheld wq _›).sound.queue | exact (‹Upheld wq _›).sound.keys | dsimp +zetaDelta only)

theorem execHmSwap_keeps {wq : List Instr} (r : Req) (s : State) (hs : Upheld wq s) :
    ∃ s', execHmSwap r s = .next s' ∧ Upheld wq s' := by
  unfold execHmSwap
  refine ⟨_, rfl, ?_⟩
  repeat' (with_reducible first | assumption | intro _ | apply hmWrite_keeps | apply hmSwapRule_keeps | dsimp +zetaDelta only)

theorem rejoin_keeps {wq : List Instr} (s : State) (q : Quay) (hs : Upheld wq s) :
    Upheld wq (State.rejoin s q) := by
  unfold State.rejoin
  repeat' (with_reducible first
    | assumption | intro _ | apply reload_keeps | apply setQuay_keeps | apply alarmOf_keeps | apply Upheld.ite | extract_lets
    | split | ((conv => arg 2; arg 27); apply Upheld.of_mk) | exact (‹Upheld wq _›).sound.stack
    | exact (‹Upheld wq _›).sound.spi | exact (‹Upheld wq _›).sound.window | exact (‹Upheld wq _›).sound.queue
    | exact (‹Upheld wq _›).sound.keys | dsimp +zetaDelta only)

theorem hmRejoinTestRule_keeps {wq : List Instr} (s : State) (hs : Upheld wq s) :
    Upheld wq (hmRejoinTestRule s).2 := by
  unfold hmRejoinTestRule
  repeat' (with_reducible first | assumption | intro _ | apply rejoin_keeps | apply Upheld.ite | split | dsimp +zetaDelta only)

theorem execHmRejoinTest_keeps {wq : List Instr} (r : Req) (s : State) (hs : Upheld wq s) :
    ∃ s', execHmRejoinTest r s = .next s' ∧ Upheld wq s' := by
  unfold execHmRejoinTest
  refine ⟨_, rfl, ?_⟩
  repeat' (with_reducible first
    | assumption | intro _ | apply hmWrite_keeps | apply hmRejoinTestRule_keeps | dsimp +zetaDelta only)

theorem hmStormExitRule_keeps {wq : List Instr} (s : State) (hs : Upheld wq s) :
    Upheld wq (hmStormExitRule s).2 := by
  unfold hmStormExitRule
  repeat' (with_reducible first
    | assumption | intro _ | apply leaveStorm_keeps | apply Upheld.ite | split | dsimp +zetaDelta only)

theorem execHmStormExit_keeps {wq : List Instr} (r : Req) (s : State) (hs : Upheld wq s) :
    ∃ s', execHmStormExit r s = .next s' ∧ Upheld wq s' := by
  unfold execHmStormExit
  refine ⟨_, rfl, ?_⟩
  repeat' (with_reducible first
    | assumption | intro _ | apply hmWrite_keeps | apply hmStormExitRule_keeps | dsimp +zetaDelta only)

theorem hmStormEnterRule_keeps {wq : List Instr} (s : State) (hs : Upheld wq s) :
    Upheld wq (hmStormEnterRule s).2 := by
  unfold hmStormEnterRule
  repeat' (with_reducible first | assumption | intro _ | apply stormFault_keeps | dsimp +zetaDelta only)

theorem execHmStormEnter_keeps {wq : List Instr} (r : Req) (s : State) (hs : Upheld wq s) :
    ∃ s', execHmStormEnter r s = .next s' ∧ Upheld wq s' := by
  unfold execHmStormEnter
  refine ⟨_, rfl, ?_⟩
  repeat' (with_reducible first
    | assumption | intro _ | apply hmWrite_keeps | apply hmStormEnterRule_keeps | dsimp +zetaDelta only)

theorem retireActive_keeps {wq : List Instr} (s : State) (q : Quay) (hs : Upheld wq s) :
    Upheld wq (State.retireActive s q) := by
  unfold State.retireActive
  repeat' (with_reducible first
    | assumption | intro _ | apply goOut_keeps | apply setQuay_keeps | apply withHm_keeps | apply restoreCheckpoint_keeps
    | extract_lets | ((conv => arg 2; arg 27); apply Upheld.of_mk) | exact (‹Upheld wq _›).sound.stack
    | exact (‹Upheld wq _›).sound.spi | exact (‹Upheld wq _›).sound.window | exact (‹Upheld wq _›).sound.queue
    | exact (‹Upheld wq _›).sound.keys | dsimp +zetaDelta only)

theorem retire_keeps {wq : List Instr} (s : State) (q : Quay) (hs : Upheld wq s) :
    Upheld wq (State.retire s q).2 := by
  unfold State.retire
  repeat' (with_reducible first
    | assumption | intro _ | apply retireActive_keeps | apply goOut_keeps | apply Upheld.ite | split | dsimp +zetaDelta only)

theorem hmRetireARule_keeps {wq : List Instr} (s : State) (hs : Upheld wq s) :
    Upheld wq (hmRetireARule s).2 := by
  unfold hmRetireARule
  repeat' (with_reducible first | assumption | intro _ | apply retire_keeps | dsimp +zetaDelta only)

theorem execHmRetireA_keeps {wq : List Instr} (r : Req) (s : State) (hs : Upheld wq s) :
    ∃ s', execHmRetireA r s = .next s' ∧ Upheld wq s' := by
  unfold execHmRetireA
  refine ⟨_, rfl, ?_⟩
  repeat' (with_reducible first
    | assumption | intro _ | apply hmWrite_keeps | apply hmRetireARule_keeps | dsimp +zetaDelta only)

theorem hmRetireBRule_keeps {wq : List Instr} (s : State) (hs : Upheld wq s) :
    Upheld wq (hmRetireBRule s).2 := by
  unfold hmRetireBRule
  repeat' (with_reducible first | assumption | intro _ | apply retire_keeps | dsimp +zetaDelta only)

theorem execHmRetireB_keeps {wq : List Instr} (r : Req) (s : State) (hs : Upheld wq s) :
    ∃ s', execHmRetireB r s = .next s' ∧ Upheld wq s' := by
  unfold execHmRetireB
  refine ⟨_, rfl, ?_⟩
  repeat' (with_reducible first
    | assumption | intro _ | apply hmWrite_keeps | apply hmRetireBRule_keeps | dsimp +zetaDelta only)

theorem hmClearCountsRule_keeps {wq : List Instr} (s : State) (hs : Upheld wq s) :
    Upheld wq (hmClearCountsRule s).2 := by
  unfold hmClearCountsRule
  repeat' (with_reducible first
    | assumption | intro _ | apply setQuay_keeps | apply withHm_keeps | extract_lets
    | ((conv => arg 2; arg 27); apply Upheld.of_mk) | exact (‹Upheld wq _›).sound.stack | exact (‹Upheld wq _›).sound.spi
    | exact (‹Upheld wq _›).sound.window | exact (‹Upheld wq _›).sound.queue | exact (‹Upheld wq _›).sound.keys
    | dsimp +zetaDelta only)

theorem execHmClearCounts_keeps {wq : List Instr} (r : Req) (s : State) (hs : Upheld wq s) :
    ∃ s', execHmClearCounts r s = .next s' ∧ Upheld wq s' := by
  unfold execHmClearCounts
  refine ⟨_, rfl, ?_⟩
  repeat' (with_reducible first
    | assumption | intro _ | apply hmWrite_keeps | apply hmClearCountsRule_keeps | dsimp +zetaDelta only)

end Sys2Proof.Machine
end

