-- ==== Sys2Proof/Laws/KeepsTide.lean ====
section
/-!
SUPPORT. Every state that Machine/Tide.lean builds from a sound state is sound, with the same commands waiting.
-/
namespace Sys2Proof.Machine

theorem withTide_keeps {wq : List Instr} (s : State) (t : Tide) (hs : Upheld wq s) :
    Upheld wq (State.withTide s t) := by
  unfold State.withTide
  repeat' (with_reducible first
    | assumption | intro _ | extract_lets | ((conv => arg 2; arg 27); apply Upheld.of_mk) | exact (‹Upheld wq _›).sound.stack
    | exact (‹Upheld wq _›).sound.spi | exact (‹Upheld wq _›).sound.window | exact (‹Upheld wq _›).sound.queue
    | exact (‹Upheld wq _›).sound.keys | dsimp +zetaDelta only)

theorem withMains_keeps {wq : List Instr} (s : State) (m : Mains) (hs : Upheld wq s) :
    Upheld wq (State.withMains s m) := by
  unfold State.withMains
  repeat' (with_reducible first
    | assumption | intro _ | extract_lets | ((conv => arg 2; arg 27); apply Upheld.of_mk) | exact (‹Upheld wq _›).sound.stack
    | exact (‹Upheld wq _›).sound.spi | exact (‹Upheld wq _›).sound.window | exact (‹Upheld wq _›).sound.queue
    | exact (‹Upheld wq _›).sound.keys | dsimp +zetaDelta only)

theorem execTideStart_keeps {wq : List Instr} (s : State) (hs : Upheld wq s) :
    ∃ s', execTideStart s = .next s' ∧ Upheld wq s' := by
  unfold execTideStart
  refine ⟨_, rfl, ?_⟩
  repeat' (with_reducible first
    | assumption | intro _ | apply tideStart_keeps | apply Upheld.ite | split | dsimp +zetaDelta only)

theorem execMasterStartTimeout_keeps {wq : List Instr} (s : State) (hs : Upheld wq s) :
    ∃ s', execMasterStartTimeout s = .next s' ∧ Upheld wq s' := by
  unfold execMasterStartTimeout
  refine ⟨_, rfl, ?_⟩
  repeat' (with_reducible first
    | assumption | intro _ | apply tideStart_keeps | apply Upheld.ite | split | dsimp +zetaDelta only)

theorem execPllLock_keeps {wq : List Instr} (p : Pll) (s : State) (hs : Upheld wq s) :
    ∃ s', execPllLock p s = .next s' ∧ Upheld wq s' := by
  unfold execPllLock
  refine ⟨_, rfl, ?_⟩
  repeat' (with_reducible first
    | assumption | intro _ | apply withTide_keeps | extract_lets | ((conv => arg 2; arg 27); apply Upheld.of_mk)
    | exact (‹Upheld wq _›).sound.stack | exact (‹Upheld wq _›).sound.spi | exact (‹Upheld wq _›).sound.window
    | exact (‹Upheld wq _›).sound.queue | exact (‹Upheld wq _›).sound.keys | dsimp +zetaDelta only)

theorem execPllUnlock_keeps {wq : List Instr} (p : Pll) (s : State) (hs : Upheld wq s) :
    ∃ s', execPllUnlock p s = .next s' ∧ Upheld wq s' := by
  unfold execPllUnlock
  refine ⟨_, rfl, ?_⟩
  repeat' (with_reducible first
    | assumption | intro _ | apply withTide_keeps | extract_lets | ((conv => arg 2; arg 27); apply Upheld.of_mk)
    | exact (‹Upheld wq _›).sound.stack | exact (‹Upheld wq _›).sound.spi | exact (‹Upheld wq _›).sound.window
    | exact (‹Upheld wq _›).sound.queue | exact (‹Upheld wq _›).sound.keys | dsimp +zetaDelta only)

theorem execMasterClockLoss_keeps {wq : List Instr} (s : State) (hs : Upheld wq s) :
    ∃ s', execMasterClockLoss s = .next s' ∧ Upheld wq s' := by
  unfold execMasterClockLoss
  refine ⟨_, rfl, ?_⟩
  repeat' (with_reducible first
    | assumption | intro _ | apply withTide_keeps | apply countUp_keeps | apply recordFault_keeps | apply Upheld.ite
    | extract_lets | split | ((conv => arg 2; arg 27); apply Upheld.of_mk) | exact (‹Upheld wq _›).sound.stack
    | exact (‹Upheld wq _›).sound.spi | exact (‹Upheld wq _›).sound.window | exact (‹Upheld wq _›).sound.queue
    | exact (‹Upheld wq _›).sound.keys | dsimp +zetaDelta only)

theorem execPllRelock_keeps {wq : List Instr} (s : State) (hs : Upheld wq s) :
    ∃ s', execPllRelock s = .next s' ∧ Upheld wq s' := by
  unfold execPllRelock
  refine ⟨_, rfl, ?_⟩
  repeat' (with_reducible first
    | assumption | intro _ | apply withTide_keeps | apply Upheld.ite | extract_lets | split
    | ((conv => arg 2; arg 27); apply Upheld.of_mk) | exact (‹Upheld wq _›).sound.stack | exact (‹Upheld wq _›).sound.spi
    | exact (‹Upheld wq _›).sound.window | exact (‹Upheld wq _›).sound.queue | exact (‹Upheld wq _›).sound.keys
    | dsimp +zetaDelta only)

theorem execRcTrim_keeps {wq : List Instr} (err : Int) (s : State) (hs : Upheld wq s) :
    ∃ s', execRcTrim err s = .next s' ∧ Upheld wq s' := by
  unfold execRcTrim
  refine ⟨_, rfl, ?_⟩
  repeat' (with_reducible first
    | assumption | intro _ | apply withTide_keeps | apply setRegI_keeps | apply Upheld.ite | extract_lets | split
    | ((conv => arg 2; arg 27); apply Upheld.of_mk) | exact (‹Upheld wq _›).sound.stack | exact (‹Upheld wq _›).sound.spi
    | exact (‹Upheld wq _›).sound.window | exact (‹Upheld wq _›).sound.queue | exact (‹Upheld wq _›).sound.keys
    | dsimp +zetaDelta only)

theorem execClockReturn_keeps {wq : List Instr} (s : State) (hs : Upheld wq s) :
    ∃ s', execClockReturn s = .next s' ∧ Upheld wq s' := by
  unfold execClockReturn
  refine ⟨_, rfl, ?_⟩
  repeat' (with_reducible first
    | assumption | intro _ | apply withTide_keeps | apply Upheld.ite | extract_lets | split
    | ((conv => arg 2; arg 27); apply Upheld.of_mk) | exact (‹Upheld wq _›).sound.stack | exact (‹Upheld wq _›).sound.spi
    | exact (‹Upheld wq _›).sound.window | exact (‹Upheld wq _›).sound.queue | exact (‹Upheld wq _›).sound.keys
    | dsimp +zetaDelta only)

theorem rateModeRule_keeps {wq : List Instr} (s : State) (v : Nat) (hs : Upheld wq s) :
    Upheld wq (rateModeRule s v).2 := by
  unfold rateModeRule
  repeat' (with_reducible first
    | assumption | intro _ | apply putEntry_keeps | apply Upheld.ite | extract_lets | split
    | ((conv => arg 2; arg 27); apply Upheld.of_mk) | exact (‹Upheld wq _›).sound.stack | exact (‹Upheld wq _›).sound.spi
    | exact (‹Upheld wq _›).sound.window | exact (‹Upheld wq _›).sound.queue | exact (‹Upheld wq _›).sound.keys
    | dsimp +zetaDelta only)

theorem execRateModeWrite_keeps {wq : List Instr} (w : Wr) (s : State) (hs : Upheld wq s) :
    ∃ s', execRateModeWrite w s = .next s' ∧ Upheld wq s' := by
  unfold execRateModeWrite
  refine ⟨_, rfl, ?_⟩
  repeat' (with_reducible first
    | assumption | intro _ | apply ledgerWrite_keeps | apply rateModeRule_keeps | dsimp +zetaDelta only)

theorem epochCycle_keeps {wq : List Instr} (s : State) (hs : Upheld wq s) :
    Upheld wq (State.epochCycle s) := by
  unfold State.epochCycle
  repeat' (with_reducible first
    | assumption | intro _ | apply abortCycle_keeps | apply Upheld.ite | extract_lets | split
    | refine Upheld.of_pair ?_ (by assumption) | ((conv => arg 2; arg 27); apply Upheld.of_mk)
    | exact (‹Upheld wq _›).sound.stack | exact (‹Upheld wq _›).sound.spi | exact (‹Upheld wq _›).sound.window
    | exact (‹Upheld wq _›).sound.queue | exact (‹Upheld wq _›).sound.keys | dsimp +zetaDelta only)

theorem clearPwmErrors_keeps {wq : List Instr} (s : State) (hs : Upheld wq s) :
    Upheld wq (State.clearPwmErrors s) := by
  unfold State.clearPwmErrors
  repeat' (with_reducible first
    | assumption | intro _ | extract_lets | ((conv => arg 2; arg 27); apply Upheld.of_mk) | exact (‹Upheld wq _›).sound.stack
    | exact (‹Upheld wq _›).sound.spi | exact (‹Upheld wq _›).sound.window | exact (‹Upheld wq _›).sound.queue
    | exact (‹Upheld wq _›).sound.keys | dsimp +zetaDelta only)

theorem execNewEpoch_keeps {wq : List Instr} (s : State) (hs : Upheld wq s) :
    ∃ s', execNewEpoch s = .next s' ∧ Upheld wq s' := by
  unfold execNewEpoch
  refine ⟨_, rfl, ?_⟩
  repeat' (with_reducible first
    | assumption | intro _ | apply setReg_keeps | apply epochCycle_keeps | apply clearFilter_keeps | apply clearPwmErrors_keeps
    | apply pushLog_keeps | apply trigger_keeps | apply Upheld.ite | extract_lets | split | dsimp +zetaDelta only)

theorem mainsFree_keeps {wq : List Instr} (s : State) (hs : Upheld wq s) :
    Upheld wq (State.mainsFree s) := by
  unfold State.mainsFree
  repeat' (with_reducible first
    | assumption | intro _ | apply setReg_keeps | apply withMains_keeps | extract_lets
    | ((conv => arg 2; arg 27); apply Upheld.of_mk) | exact (‹Upheld wq _›).sound.stack | exact (‹Upheld wq _›).sound.spi
    | exact (‹Upheld wq _›).sound.window | exact (‹Upheld wq _›).sound.queue | exact (‹Upheld wq _›).sound.keys
    | dsimp +zetaDelta only)

theorem gatesOff_keeps {wq : List Instr} (s : State) (hs : Upheld wq s) :
    Upheld wq (State.gatesOff s) := by
  unfold State.gatesOff
  repeat' (with_reducible first
    | assumption | intro _ | apply setOut_keeps | apply Upheld.foldl | extract_lets
    | ((conv => arg 2; arg 27); apply Upheld.of_mk) | exact (‹Upheld wq _›).sound.stack | exact (‹Upheld wq _›).sound.spi
    | exact (‹Upheld wq _›).sound.window | exact (‹Upheld wq _›).sound.queue | exact (‹Upheld wq _›).sound.keys
    | dsimp +zetaDelta only)

theorem mainsOn_keeps {wq : List Instr} (s : State) (hs : Upheld wq s) :
    Upheld wq (State.mainsOn s) := by
  unfold State.mainsOn
  repeat' (with_reducible first
    | assumption | intro _ | apply setReg_keeps | apply withMains_keeps | extract_lets
    | ((conv => arg 2; arg 27); apply Upheld.of_mk) | exact (‹Upheld wq _›).sound.stack | exact (‹Upheld wq _›).sound.spi
    | exact (‹Upheld wq _›).sound.window | exact (‹Upheld wq _›).sound.queue | exact (‹Upheld wq _›).sound.keys
    | dsimp +zetaDelta only)

theorem mainsModeRule_keeps {wq : List Instr} (s : State) (v : Nat) (hs : Upheld wq s) :
    Upheld wq (mainsModeRule s v).2 := by
  unfold mainsModeRule
  repeat' (with_reducible first
    | assumption | intro _ | apply andThen_keeps | apply plainRule_keeps | apply setReg_keeps | apply gatesOff_keeps
    | apply mainsOn_keeps | apply mainsFree_keeps | apply Upheld.ite | split | dsimp +zetaDelta only)

theorem execMainsModeWrite_keeps {wq : List Instr} (w : Wr) (s : State) (hs : Upheld wq s) :
    ∃ s', execMainsModeWrite w s = .next s' ∧ Upheld wq s' := by
  unfold execMainsModeWrite
  refine ⟨_, rfl, ?_⟩
  repeat' (with_reducible first
    | assumption | intro _ | apply ledgerWrite_keeps | apply mainsModeRule_keeps | dsimp +zetaDelta only)

theorem zcAcquire_keeps {wq : List Instr} (s : State) (cross : Nat) (hs : Upheld wq s) :
    Upheld wq (State.zcAcquire s cross) := by
  unfold State.zcAcquire
  repeat' (with_reducible first
    | assumption | intro _ | apply setReg_keeps | apply withMains_keeps | apply Upheld.ite | extract_lets | split
    | ((conv => arg 2; arg 27); apply Upheld.of_mk) | exact (‹Upheld wq _›).sound.stack | exact (‹Upheld wq _›).sound.spi
    | exact (‹Upheld wq _›).sound.window | exact (‹Upheld wq _›).sound.queue | exact (‹Upheld wq _›).sound.keys
    | dsimp +zetaDelta only)

theorem zcTrack_keeps {wq : List Instr} (s : State) (cross : Nat) (hs : Upheld wq s) :
    Upheld wq (State.zcTrack s cross) := by
  unfold State.zcTrack
  repeat' (with_reducible first
    | assumption | intro _ | apply setReg_keeps | apply withMains_keeps | apply Upheld.ite | extract_lets | split
    | ((conv => arg 2; arg 27); apply Upheld.of_mk) | exact (‹Upheld wq _›).sound.stack | exact (‹Upheld wq _›).sound.spi
    | exact (‹Upheld wq _›).sound.window | exact (‹Upheld wq _›).sound.queue | exact (‹Upheld wq _›).sound.keys
    | dsimp +zetaDelta only)

theorem mainsHold_keeps {wq : List Instr} (s : State) (hs : Upheld wq s) :
    Upheld wq (State.mainsHold s) := by
  unfold State.mainsHold
  repeat' (with_reducible first
    | assumption | intro _ | apply setReg_keeps | apply withMains_keeps | extract_lets
    | ((conv => arg 2; arg 27); apply Upheld.of_mk) | exact (‹Upheld wq _›).sound.stack | exact (‹Upheld wq _›).sound.spi
    | exact (‹Upheld wq _›).sound.window | exact (‹Upheld wq _›).sound.queue | exact (‹Upheld wq _›).sound.keys
    | dsimp +zetaDelta only)

theorem zcMiss_keeps {wq : List Instr} (s : State) (hs : Upheld wq s) :
    Upheld wq (State.zcMiss s) := by
  unfold State.zcMiss
  repeat' (with_reducible first
    | assumption | intro _ | apply incSat_keeps | apply mainsHold_keeps | apply withMains_keeps | apply Upheld.ite
    | extract_lets | split | ((conv => arg 2; arg 27); apply Upheld.of_mk) | exact (‹Upheld wq _›).sound.stack
    | exact (‹Upheld wq _›).sound.spi | exact (‹Upheld wq _›).sound.window | exact (‹Upheld wq _›).sound.queue
    | exact (‹Upheld wq _›).sound.keys | dsimp +zetaDelta only)

theorem zcCandidate_keeps {wq : List Instr} (s : State) (cross : Nat) (hs : Upheld wq s) :
    Upheld wq (State.zcCandidate s cross) := by
  unfold State.zcCandidate
  repeat' (with_reducible first
    | assumption | intro _ | apply setReg_keeps | apply withMains_keeps | apply zcAcquire_keeps | apply zcTrack_keeps
    | apply zcMiss_keeps | apply Upheld.ite | extract_lets | split | ((conv => arg 2; arg 27); apply Upheld.of_mk)
    | exact (‹Upheld wq _›).sound.stack | exact (‹Upheld wq _›).sound.spi | exact (‹Upheld wq _›).sound.window
    | exact (‹Upheld wq _›).sound.queue | exact (‹Upheld wq _›).sound.keys | dsimp +zetaDelta only)

theorem execZcPulse_keeps {wq : List Instr} (t0 t1 : Nat) (s : State) (hs : Upheld wq s) :
    ∃ s', execZcPulse t0 t1 s = .next s' ∧ Upheld wq s' := by
  unfold execZcPulse
  refine ⟨_, rfl, ?_⟩
  repeat' (with_reducible first
    | assumption | intro _ | apply incSat_keeps | apply zcCandidate_keeps | apply Upheld.ite | split
    | ((conv => arg 2; arg 27); apply Upheld.of_mk) | exact (‹Upheld wq _›).sound.stack | exact (‹Upheld wq _›).sound.spi
    | exact (‹Upheld wq _›).sound.window | exact (‹Upheld wq _›).sound.queue | exact (‹Upheld wq _›).sound.keys
    | dsimp +zetaDelta only)

theorem execMainsCrossingMissed_keeps {wq : List Instr} (s : State) (hs : Upheld wq s) :
    ∃ s', execMainsCrossingMissed s = .next s' ∧ Upheld wq s' := by
  unfold execMainsCrossingMissed
  refine ⟨_, rfl, ?_⟩
  repeat' (with_reducible first
    | assumption | intro _ | apply mainsHold_keeps | apply Upheld.ite | split | dsimp +zetaDelta only)

theorem execHoldoverExpiry_keeps {wq : List Instr} (s : State) (hs : Upheld wq s) :
    ∃ s', execHoldoverExpiry s = .next s' ∧ Upheld wq s' := by
  unfold execHoldoverExpiry
  refine ⟨_, rfl, ?_⟩
  repeat' (with_reducible first
    | assumption | intro _ | apply mainsFree_keeps | apply Upheld.ite | split | dsimp +zetaDelta only)

end Sys2Proof.Machine
end

