-- ==== Sys2Proof/Laws/KeepsPanel.lean ====
section
/-!
SUPPORT. Every state that Machine/Panel.lean builds from a sound state is sound, with the same commands waiting.
-/
namespace Sys2Proof.Machine

theorem execDriveFrame_keeps {wq : List Instr} (ok : Bool) (s : State) (hs : Upheld wq s) :
    ∃ s', execDriveFrame ok s = .next s' ∧ Upheld wq s' := by
  unfold execDriveFrame
  refine ⟨_, rfl, ?_⟩
  repeat' (with_reducible first
    | assumption | intro _ | apply withPanel_keeps | apply panelTemp_keeps | apply advanceRuns_keeps | apply startAll_keeps
    | apply drivePanel_keeps | apply Upheld.ite | extract_lets | split | ((conv => arg 2; arg 27); apply Upheld.of_mk)
    | exact (‹Upheld wq _›).sound.stack | exact (‹Upheld wq _›).sound.spi | exact (‹Upheld wq _›).sound.window
    | exact (‹Upheld wq _›).sound.queue | exact (‹Upheld wq _›).sound.keys | dsimp +zetaDelta only)

theorem execDriveFault_keeps {wq : List Instr} (s : State) (hs : Upheld wq s) :
    ∃ s', execDriveFault s = .next s' ∧ Upheld wq s' := by
  unfold execDriveFault
  refine ⟨_, rfl, ?_⟩
  repeat' (with_reducible first
    | assumption | intro _ | apply withPanel_keeps | apply incSat_keeps | apply Upheld.ite | extract_lets | split
    | ((conv => arg 2; arg 27); apply Upheld.of_mk) | exact (‹Upheld wq _›).sound.stack | exact (‹Upheld wq _›).sound.spi
    | exact (‹Upheld wq _›).sound.window | exact (‹Upheld wq _›).sound.queue | exact (‹Upheld wq _›).sound.keys
    | dsimp +zetaDelta only)

theorem execDriveRailRecovered_keeps {wq : List Instr} (s : State) (hs : Upheld wq s) :
    ∃ s', execDriveRailRecovered s = .next s' ∧ Upheld wq s' := by
  unfold execDriveRailRecovered
  refine ⟨_, rfl, ?_⟩
  repeat' (with_reducible first
    | assumption | intro _ | apply withPanel_keeps | extract_lets | ((conv => arg 2; arg 27); apply Upheld.of_mk)
    | exact (‹Upheld wq _›).sound.stack | exact (‹Upheld wq _›).sound.spi | exact (‹Upheld wq _›).sound.window
    | exact (‹Upheld wq _›).sound.queue | exact (‹Upheld wq _›).sound.keys | dsimp +zetaDelta only)

theorem execPanelTempFallback_keeps {wq : List Instr} (s : State) (hs : Upheld wq s) :
    ∃ s', execPanelTempFallback s = .next s' ∧ Upheld wq s' := by
  unfold execPanelTempFallback
  refine ⟨_, rfl, ?_⟩
  repeat' (with_reducible first
    | assumption | intro _ | apply withPanel_keeps | apply Upheld.ite | extract_lets | split
    | refine Upheld.of_pair ?_ (by assumption) | ((conv => arg 2; arg 27); apply Upheld.of_mk)
    | exact (‹Upheld wq _›).sound.stack | exact (‹Upheld wq _›).sound.spi | exact (‹Upheld wq _›).sound.window
    | exact (‹Upheld wq _›).sound.queue | exact (‹Upheld wq _›).sound.keys | dsimp +zetaDelta only)

theorem execFrameMemoryCheck_keeps {wq : List Instr} (ok : Bool) (s : State) (hs : Upheld wq s) :
    ∃ s', execFrameMemoryCheck ok s = .next s' ∧ Upheld wq s' := by
  unfold execFrameMemoryCheck
  refine ⟨_, rfl, ?_⟩
  repeat' (with_reducible first
    | assumption | intro _ | apply frameMemoryFault_keeps | apply Upheld.ite | split | dsimp +zetaDelta only)

theorem regionUpdateRule_keeps {wq : List Instr} (s : State) (v : Nat) (hs : Upheld wq s) :
    Upheld wq (regionUpdateRule s v).2 := by
  unfold regionUpdateRule
  repeat' (with_reducible first
    | assumption | intro _ | apply withPanel_keeps | apply incSat_keeps | apply Upheld.ite | extract_lets | split
    | ((conv => arg 2; arg 27); apply Upheld.of_mk) | exact (‹Upheld wq _›).sound.stack | exact (‹Upheld wq _›).sound.spi
    | exact (‹Upheld wq _›).sound.window | exact (‹Upheld wq _›).sound.queue | exact (‹Upheld wq _›).sound.keys
    | dsimp +zetaDelta only)

theorem execRegionUpdateWrite_keeps {wq : List Instr} (w : Wr) (s : State) (hs : Upheld wq s) :
    ∃ s', execRegionUpdateWrite w s = .next s' ∧ Upheld wq s' := by
  unfold execRegionUpdateWrite
  refine ⟨_, rfl, ?_⟩
  repeat' (with_reducible first
    | assumption | intro _ | apply ledgerWrite_keeps | apply regionUpdateRule_keeps | dsimp +zetaDelta only)

theorem regionCellsRule_keeps {wq : List Instr} (n : Nat) (s : State) (v : Nat) (hs : Upheld wq s) :
    Upheld wq (regionCellsRule n s v).2 := by
  unfold regionCellsRule
  repeat' (with_reducible first
    | assumption | intro _ | apply putEntry_keeps | apply Upheld.ite | extract_lets | split | dsimp +zetaDelta only)

theorem execRegionCellsWrite_keeps {wq : List Instr} (n : Nat) (w : Wr) (s : State) (hs : Upheld wq s) :
    ∃ s', execRegionCellsWrite n w s = .next s' ∧ Upheld wq s' := by
  unfold execRegionCellsWrite
  refine ⟨_, rfl, ?_⟩
  repeat' (with_reducible first
    | assumption | intro _ | apply ledgerWrite_keeps | apply regionCellsRule_keeps | dsimp +zetaDelta only)

theorem execPanelModeChange_keeps {wq : List Instr} (s : State) (hs : Upheld wq s) :
    ∃ s', execPanelModeChange s = .next s' ∧ Upheld wq s' := by
  unfold execPanelModeChange
  refine ⟨_, rfl, ?_⟩
  repeat' (with_reducible first
    | assumption | intro _ | apply withPanel_keeps | apply Upheld.ite | extract_lets | split
    | ((conv => arg 2; arg 27); apply Upheld.of_mk) | exact (‹Upheld wq _›).sound.stack | exact (‹Upheld wq _›).sound.spi
    | exact (‹Upheld wq _›).sound.window | exact (‹Upheld wq _›).sound.queue | exact (‹Upheld wq _›).sound.keys
    | dsimp +zetaDelta only)

theorem execStormPatternToggle_keeps {wq : List Instr} (s : State) (hs : Upheld wq s) :
    ∃ s', execStormPatternToggle s = .next s' ∧ Upheld wq s' := by
  unfold execStormPatternToggle
  refine ⟨_, rfl, ?_⟩
  repeat' (with_reducible first
    | assumption | intro _ | apply withPanel_keeps | apply Upheld.ite | extract_lets | split
    | ((conv => arg 2; arg 27); apply Upheld.of_mk) | exact (‹Upheld wq _›).sound.stack | exact (‹Upheld wq _›).sound.spi
    | exact (‹Upheld wq _›).sound.window | exact (‹Upheld wq _›).sound.queue | exact (‹Upheld wq _›).sound.keys
    | dsimp +zetaDelta only)

theorem execKeyScan_keeps {wq : List Instr} (closed : Nat) (s : State) (hs : Upheld wq s) :
    ∃ s', execKeyScan closed s = .next s' ∧ Upheld wq s' := by
  unfold execKeyScan
  refine ⟨_, rfl, ?_⟩
  repeat' (with_reducible first
    | assumption | intro _ | apply scanKeys_keeps | apply watchResetKeys_keeps | apply Upheld.ite | split
    | dsimp +zetaDelta only)

theorem execKeyRepeat_keeps {wq : List Instr} (n : Nat) (s : State) (hs : Upheld wq s) :
    ∃ s', execKeyRepeat n s = .next s' ∧ Upheld wq s' := by
  unfold execKeyRepeat
  refine ⟨_, rfl, ?_⟩
  repeat' (with_reducible first
    | assumption | intro _ | apply withKeys_keeps | apply keyEvent_keeps | apply Upheld.ite | extract_lets | split
    | ((conv => arg 2; arg 27); apply Upheld.of_mk) | apply KeyPart.setKey_le | exact (‹Upheld wq _›).sound.stack
    | exact (‹Upheld wq _›).sound.spi | exact (‹Upheld wq _›).sound.window | exact (‹Upheld wq _›).sound.queue
    | exact (‹Upheld wq _›).sound.keys | dsimp +zetaDelta only)

theorem execKeyLong_keeps {wq : List Instr} (n : Nat) (s : State) (hs : Upheld wq s) :
    ∃ s', execKeyLong n s = .next s' ∧ Upheld wq s' := by
  unfold execKeyLong
  refine ⟨_, rfl, ?_⟩
  repeat' (with_reducible first
    | assumption | intro _ | apply withKeys_keeps | apply keyEvent_keeps | apply Upheld.ite | extract_lets | split
    | ((conv => arg 2; arg 27); apply Upheld.of_mk) | apply KeyPart.setKey_le | exact (‹Upheld wq _›).sound.stack
    | exact (‹Upheld wq _›).sound.spi | exact (‹Upheld wq _›).sound.window | exact (‹Upheld wq _›).sound.queue
    | exact (‹Upheld wq _›).sound.keys | dsimp +zetaDelta only)

theorem execKeyStuck_keeps {wq : List Instr} (n : Nat) (s : State) (hs : Upheld wq s) :
    ∃ s', execKeyStuck n s = .next s' ∧ Upheld wq s' := by
  unfold execKeyStuck
  refine ⟨_, rfl, ?_⟩
  repeat' (with_reducible first
    | assumption | intro _ | apply withKeys_keeps | apply keyEvent_keeps | apply pushLog_keeps | apply Upheld.ite | extract_lets
    | split | ((conv => arg 2; arg 27); apply Upheld.of_mk) | apply KeyPart.setKey_le | exact (‹Upheld wq _›).sound.stack
    | exact (‹Upheld wq _›).sound.spi | exact (‹Upheld wq _›).sound.window | exact (‹Upheld wq _›).sound.queue
    | exact (‹Upheld wq _›).sound.keys | dsimp +zetaDelta only)

theorem execKeyReset_keeps {wq : List Instr} (s : State) (hs : Upheld wq s) :
    ∃ s', execKeyReset s = .next s' ∧ Upheld wq s' := by
  unfold execKeyReset
  refine ⟨_, rfl, ?_⟩
  repeat' (with_reducible first
    | assumption | intro _ | apply pushLog_keeps | apply deviceReset_keeps | apply flushLog_keeps | apply Upheld.ite
    | extract_lets | split | refine Upheld.of_pair ?_ (by assumption) | ((conv => arg 2; arg 27); apply Upheld.of_mk)
    | exact (‹Upheld wq _›).sound.stack | exact (‹Upheld wq _›).sound.spi | exact (‹Upheld wq _›).sound.window
    | exact (‹Upheld wq _›).sound.queue | exact (‹Upheld wq _›).sound.keys | dsimp +zetaDelta only)

end Sys2Proof.Machine
end

