-- ==== Sys2Proof/Laws/KeepsFrame.lean ====
section
/-!
SUPPORT. Every state that Machine/Frame.lean builds from a sound state is sound, with the same commands waiting.
-/
namespace Sys2Proof.Machine

theorem startBias_keeps {wq : List Instr} (s : State) (hs : Upheld wq s) :
    Upheld wq (State.startBias s) := by
  unfold State.startBias
  repeat' (with_reducible first
    | assumption | intro _ | apply clearFilter_keeps | extract_lets | ((conv => arg 2; arg 27); apply Upheld.of_mk)
    | exact (‹Upheld wq _›).sound.stack | exact (‹Upheld wq _›).sound.spi | exact (‹Upheld wq _›).sound.window
    | exact (‹Upheld wq _›).sound.queue | exact (‹Upheld wq _›).sound.keys | dsimp +zetaDelta only)

theorem applyImager_keeps {wq : List Instr} (s : State) (hs : Upheld wq s) :
    Upheld wq (State.applyImager s) := by
  unfold State.applyImager
  repeat' (with_reducible first
    | assumption | intro _ | apply abortCycle_keeps | apply darkArray_keeps | apply startBias_keeps | apply setReg_keeps
    | apply Upheld.ite | extract_lets | split | dsimp +zetaDelta only)

theorem tideFrame_keeps {wq : List Instr} (s : State) (hs : Upheld wq s) :
    Upheld wq (State.tideFrame s) := by
  unfold State.tideFrame
  repeat' (with_reducible first
    | assumption | intro _ | apply withTide_keeps | extract_lets | ((conv => arg 2; arg 27); apply Upheld.of_mk)
    | exact (‹Upheld wq _›).sound.stack | exact (‹Upheld wq _›).sound.spi | exact (‹Upheld wq _›).sound.window
    | exact (‹Upheld wq _›).sound.queue | exact (‹Upheld wq _›).sound.keys | dsimp +zetaDelta only)

theorem newFrame_keeps {wq : List Instr} (s : State) (hs : Upheld wq s) :
    Upheld wq (State.newFrame s) := by
  unfold State.newFrame
  repeat' (with_reducible first
    | assumption | intro _ | apply tideFrame_keeps | apply setReg_keeps | apply withFocal_keeps | apply applyImager_keeps
    | apply withCal_keeps | apply withPipe_keeps | apply takeEdits_keeps | apply withBerth_keeps | apply videoFrame_keeps
    | extract_lets | ((conv => arg 2; arg 27); apply Upheld.of_mk) | exact (‹Upheld wq _›).sound.stack
    | exact (‹Upheld wq _›).sound.spi | exact (‹Upheld wq _›).sound.window | exact (‹Upheld wq _›).sound.queue
    | exact (‹Upheld wq _›).sound.keys | dsimp +zetaDelta only)

theorem execFrameBoundary_keeps {wq : List Instr} (s : State) (hs : Upheld wq s) :
    ∃ s', execFrameBoundary s = .next s' ∧ Upheld wq s' := by
  unfold execFrameBoundary
  refine ⟨_, rfl, ?_⟩
  repeat' (with_reducible first
    | assumption | intro _ | apply newFrame_keeps | apply Upheld.ite | split | dsimp +zetaDelta only)

theorem execSettlingEnd_keeps {wq : List Instr} (s : State) (hs : Upheld wq s) :
    ∃ s', execSettlingEnd s = .next s' ∧ Upheld wq s' := by
  unfold execSettlingEnd
  refine ⟨_, rfl, ?_⟩
  repeat' (with_reducible first
    | assumption | intro _ | apply withFocal_keeps | apply Upheld.ite | extract_lets | split
    | ((conv => arg 2; arg 27); apply Upheld.of_mk) | exact (‹Upheld wq _›).sound.stack | exact (‹Upheld wq _›).sound.spi
    | exact (‹Upheld wq _›).sound.window | exact (‹Upheld wq _›).sound.queue | exact (‹Upheld wq _›).sound.keys
    | dsimp +zetaDelta only)

theorem execGainChange_keeps {wq : List Instr} (s : State) (hs : Upheld wq s) :
    ∃ s', execGainChange s = .next s' ∧ Upheld wq s' := by
  unfold execGainChange
  refine ⟨_, rfl, ?_⟩
  repeat' (with_reducible first
    | assumption | intro _ | apply swapGains_keeps | apply setReg_keeps | apply trigger_keeps | apply Upheld.ite | split
    | dsimp +zetaDelta only)

theorem takeBands_keeps {wq : List Instr} (s : State) (bands : List (Option Nat)) (hs : Upheld wq s) :
    Upheld wq (State.takeBands s bands) := by
  unfold State.takeBands
  repeat' (with_reducible first
    | assumption | intro _ | apply setReg_keeps | apply withFocal_keeps | apply Upheld.foldl | extract_lets | split
    | refine Upheld.of_pair ?_ (by assumption) | ((conv => arg 2; arg 27); apply Upheld.of_mk)
    | exact (‹Upheld wq _›).sound.stack | exact (‹Upheld wq _›).sound.spi | exact (‹Upheld wq _›).sound.window
    | exact (‹Upheld wq _›).sound.queue | exact (‹Upheld wq _›).sound.keys | dsimp +zetaDelta only)

theorem takeFlag_keeps {wq : List Instr} (s : State) (ntc pos : Nat) (hs : Upheld wq s) :
    Upheld wq (State.takeFlag s ntc pos) := by
  unfold State.takeFlag
  repeat' (with_reducible first
    | assumption | intro _ | apply setReg_keeps | apply setShutter_keeps | apply Upheld.ite | extract_lets | split
    | ((conv => arg 2; arg 27); apply Upheld.of_mk) | exact (‹Upheld wq _›).sound.stack | exact (‹Upheld wq _›).sound.spi
    | exact (‹Upheld wq _›).sound.window | exact (‹Upheld wq _›).sound.queue | exact (‹Upheld wq _›).sound.keys
    | dsimp +zetaDelta only)

theorem gradientClose_keeps {wq : List Instr} (s : State) (hs : Upheld wq s) :
    Upheld wq (State.gradientClose s) := by
  unfold State.gradientClose
  repeat' (with_reducible first
    | assumption | intro _ | apply gradientPair_keeps | apply setReg_keeps | apply alarmOf_keeps | apply Upheld.foldl
    | apply Upheld.ite | extract_lets | split | dsimp +zetaDelta only)

theorem shutterAlarm_keeps {wq : List Instr} (s : State) (before : Bool) (hs : Upheld wq s) :
    Upheld wq (State.shutterAlarm s before) := by
  unfold State.shutterAlarm
  repeat' (with_reducible first
    | assumption | intro _ | apply alarmOf_keeps | apply Upheld.ite | split | dsimp +zetaDelta only)

theorem noteMean_keeps {wq : List Instr} (s : State) (hs : Upheld wq s) :
    Upheld wq (State.noteMean s) := by
  unfold State.noteMean
  repeat' (with_reducible first
    | assumption | intro _ | apply withCal_keeps | extract_lets | ((conv => arg 2; arg 27); apply Upheld.of_mk)
    | exact (‹Upheld wq _›).sound.stack | exact (‹Upheld wq _›).sound.spi | exact (‹Upheld wq _›).sound.window
    | exact (‹Upheld wq _›).sound.queue | exact (‹Upheld wq _›).sound.keys | dsimp +zetaDelta only)

theorem latchFrame_keeps {wq : List Instr} (s : State) (hs : Upheld wq s) :
    Upheld wq (State.latchFrame s) := by
  unfold State.latchFrame
  repeat' (with_reducible first
    | assumption | intro _ | apply setReg_keeps | apply withPipe_keeps | apply Upheld.ite | extract_lets | split
    | ((conv => arg 2; arg 27); apply Upheld.of_mk) | exact (‹Upheld wq _›).sound.stack | exact (‹Upheld wq _›).sound.spi
    | exact (‹Upheld wq _›).sound.window | exact (‹Upheld wq _›).sound.queue | exact (‹Upheld wq _›).sound.keys
    | dsimp +zetaDelta only)

theorem timebaseAbort_keeps {wq : List Instr} (s : State) (hs : Upheld wq s) :
    Upheld wq (State.timebaseAbort s) := by
  unfold State.timebaseAbort
  repeat' (with_reducible first
    | assumption | intro _ | apply abortCycle_keeps | apply Upheld.ite | extract_lets | split
    | refine Upheld.of_pair ?_ (by assumption) | ((conv => arg 2; arg 27); apply Upheld.of_mk)
    | exact (‹Upheld wq _›).sound.stack | exact (‹Upheld wq _›).sound.spi | exact (‹Upheld wq _›).sound.window
    | exact (‹Upheld wq _›).sound.queue | exact (‹Upheld wq _›).sound.keys | dsimp +zetaDelta only)

theorem calClose_keeps {wq : List Instr} (s : State) (hs : Upheld wq s) :
    Upheld wq (State.calClose s) := by
  unfold State.calClose
  repeat' (with_reducible first
    | assumption | intro _ | apply checkTravel_keeps | apply timebaseAbort_keeps | apply settleAbort_keeps
    | apply cycleAtClose_keeps | apply gateAtClose_keeps | apply trigger_keeps | apply grantCycle_keeps
    | apply noteUnusable_keeps | apply shutterAlarm_keeps | apply Upheld.ite | extract_lets | split | dsimp +zetaDelta only)

theorem clockClose_keeps {wq : List Instr} (s : State) (hs : Upheld wq s) :
    Upheld wq (State.clockClose s) := by
  unfold State.clockClose
  repeat' (with_reducible first
    | assumption | intro _ | apply withTide_keeps | apply Upheld.ite | extract_lets | split
    | ((conv => arg 2; arg 27); apply Upheld.of_mk) | exact (‹Upheld wq _›).sound.stack | exact (‹Upheld wq _›).sound.spi
    | exact (‹Upheld wq _›).sound.window | exact (‹Upheld wq _›).sound.queue | exact (‹Upheld wq _›).sound.keys
    | dsimp +zetaDelta only)

theorem scrubClose_keeps {wq : List Instr} (s : State) (i : CloseIn) (hs : Upheld wq s) :
    Upheld wq (State.scrubClose s i) := by
  unfold State.scrubClose
  repeat' (with_reducible first
    | assumption | intro _ | apply lapDone_keeps | apply scrub_keeps | apply Upheld.foldl | dsimp +zetaDelta only)

theorem closeFrame_keeps {wq : List Instr} (i : CloseIn) (s : State) (hs : Upheld wq s) :
    Upheld wq (State.closeFrame i s) := by
  unfold State.closeFrame
  repeat' (with_reducible first
    | assumption | intro _ | apply takeBands_keeps | apply takeFlag_keeps | apply gradientClose_keeps | apply noteMean_keeps
    | apply latchFrame_keeps | apply closeBerths_keeps | apply calClose_keeps | apply clockClose_keeps | apply scrubClose_keeps
    | extract_lets | ((conv => arg 2; arg 27); apply Upheld.of_mk) | exact (‹Upheld wq _›).sound.stack
    | exact (‹Upheld wq _›).sound.spi | exact (‹Upheld wq _›).sound.window | exact (‹Upheld wq _›).sound.queue
    | exact (‹Upheld wq _›).sound.keys | dsimp +zetaDelta only)

theorem execFrameClose_keeps {wq : List Instr} (i : CloseIn) (s : State) (hs : Upheld wq s) :
    ∃ s', execFrameClose i s = .next s' ∧ Upheld wq s' := by
  unfold execFrameClose
  refine ⟨_, rfl, ?_⟩
  repeat' (with_reducible first
    | assumption | intro _ | apply closeFrame_keeps | apply Upheld.ite | split | dsimp +zetaDelta only)

theorem execGradientClear_keeps {wq : List Instr} (n : Nat) (s : State) (hs : Upheld wq s) :
    ∃ s', execGradientClear n s = .next s' ∧ Upheld wq s' := by
  unfold execGradientClear
  refine ⟨_, rfl, ?_⟩
  repeat' (with_reducible first
    | assumption | intro _ | apply putBit_keeps | apply alarmOf_keeps | apply Upheld.ite | extract_lets | split
    | dsimp +zetaDelta only)

theorem execBandSensorExcluded_keeps {wq : List Instr} (n : Nat) (s : State) (hs : Upheld wq s) :
    ∃ s', execBandSensorExcluded n s = .next s' ∧ Upheld wq s' := by
  unfold execBandSensorExcluded
  refine ⟨_, rfl, ?_⟩
  repeat' (with_reducible first | assumption | intro _ | apply putBit_keeps | apply Upheld.ite | split | dsimp +zetaDelta only)

theorem deadColumn_keeps {wq : List Instr} (s : State) (p : Nat × Nat) (hs : Upheld wq s) :
    Upheld wq (State.deadColumn s p) := by
  unfold State.deadColumn
  repeat' (with_reducible first | assumption | intro _ | apply pushLog_keeps | apply tickFree_keeps | dsimp +zetaDelta only)

theorem execConverterSelfTest_keeps {wq : List Instr} (codes : List Nat) (s : State) (hs : Upheld wq s) :
    ∃ s', execConverterSelfTest codes s = .next s' ∧ Upheld wq s' := by
  unfold execConverterSelfTest
  refine ⟨_, rfl, ?_⟩
  repeat' (with_reducible first
    | assumption | intro _ | apply addSat_keeps | apply deadColumn_keeps | apply withFocal_keeps | apply Upheld.foldl
    | apply Upheld.ite | extract_lets | split | ((conv => arg 2; arg 27); apply Upheld.of_mk)
    | exact (‹Upheld wq _›).sound.stack | exact (‹Upheld wq _›).sound.spi | exact (‹Upheld wq _›).sound.window
    | exact (‹Upheld wq _›).sound.queue | exact (‹Upheld wq _›).sound.keys | dsimp +zetaDelta only)

theorem execSpareQualificationDone_keeps {wq : List Instr} (sums : List (List Nat)) (codes : List Nat) (s : State) (hs : Upheld wq s) :
    ∃ s', execSpareQualificationDone sums codes s = .next s' ∧ Upheld wq s' := by
  unfold execSpareQualificationDone
  refine ⟨_, rfl, ?_⟩
  repeat' (with_reducible first
    | assumption | intro _ | apply setReg_keeps | apply putBit_keeps | apply Upheld.foldl | apply Upheld.ite | extract_lets
    | split | ((conv => arg 2; arg 27); apply Upheld.of_mk) | exact (‹Upheld wq _›).sound.stack
    | exact (‹Upheld wq _›).sound.spi | exact (‹Upheld wq _›).sound.window | exact (‹Upheld wq _›).sound.queue
    | exact (‹Upheld wq _›).sound.keys | dsimp +zetaDelta only)

theorem execFactoryDecompressionDone_keeps {wq : List Instr} (bad : List Nat) (s : State) (hs : Upheld wq s) :
    ∃ s', execFactoryDecompressionDone bad s = .next s' ∧ Upheld wq s' := by
  unfold execFactoryDecompressionDone
  refine ⟨_, rfl, ?_⟩
  repeat' (with_reducible first
    | assumption | intro _ | apply showRefs_keeps | apply Upheld.ite | extract_lets | split
    | ((conv => arg 2; arg 27); apply Upheld.of_mk) | exact (‹Upheld wq _›).sound.stack | exact (‹Upheld wq _›).sound.spi
    | exact (‹Upheld wq _›).sound.window | exact (‹Upheld wq _›).sound.queue | exact (‹Upheld wq _›).sound.keys
    | dsimp +zetaDelta only)

theorem execCoefReloadDone_keeps {wq : List Instr} (shadow : Bool) (word : Nat) (s : State) (hs : Upheld wq s) :
    ∃ s', execCoefReloadDone shadow word s = .next s' ∧ Upheld wq s' := by
  unfold execCoefReloadDone
  refine ⟨_, rfl, ?_⟩
  repeat' (with_reducible first
    | assumption | intro _ | apply countUp_keeps | apply withPipe_keeps | apply Upheld.foldl | apply Upheld.ite | extract_lets
    | split | ((conv => arg 2; arg 27); apply Upheld.of_mk) | exact (‹Upheld wq _›).sound.stack
    | exact (‹Upheld wq _›).sound.spi | exact (‹Upheld wq _›).sound.window | exact (‹Upheld wq _›).sound.queue
    | exact (‹Upheld wq _›).sound.keys | dsimp +zetaDelta only)

theorem execSunHoldExpiry_keeps {wq : List Instr} (n : Nat) (s : State) (hs : Upheld wq s) :
    ∃ s', execSunHoldExpiry n s = .next s' ∧ Upheld wq s' := by
  unfold execSunHoldExpiry
  refine ⟨_, rfl, ?_⟩
  repeat' (with_reducible first
    | assumption | intro _ | apply withFocal_keeps | apply trigger_keeps | apply Upheld.ite | extract_lets | split
    | ((conv => arg 2; arg 27); apply Upheld.of_mk) | exact (‹Upheld wq _›).sound.stack | exact (‹Upheld wq _›).sound.spi
    | exact (‹Upheld wq _›).sound.window | exact (‹Upheld wq _›).sound.queue | exact (‹Upheld wq _›).sound.keys
    | dsimp +zetaDelta only)

theorem execIntervalExpiry_keeps {wq : List Instr} (s : State) (hs : Upheld wq s) :
    ∃ s', execIntervalExpiry s = .next s' ∧ Upheld wq s' := by
  unfold execIntervalExpiry
  refine ⟨_, rfl, ?_⟩
  repeat' (with_reducible first
    | assumption | intro _ | apply trigger_keeps | apply Upheld.ite | extract_lets | split
    | refine Upheld.of_pair ?_ (by assumption) | ((conv => arg 2; arg 27); apply Upheld.of_mk)
    | exact (‹Upheld wq _›).sound.stack | exact (‹Upheld wq _›).sound.spi | exact (‹Upheld wq _›).sound.window
    | exact (‹Upheld wq _›).sound.queue | exact (‹Upheld wq _›).sound.keys | dsimp +zetaDelta only)

theorem execBringUpTrigger_keeps {wq : List Instr} (s : State) (hs : Upheld wq s) :
    ∃ s', execBringUpTrigger s = .next s' ∧ Upheld wq s' := by
  unfold execBringUpTrigger
  refine ⟨_, rfl, ?_⟩
  repeat' (with_reducible first
    | assumption | intro _ | apply trigger_keeps | apply Upheld.ite | extract_lets | split
    | refine Upheld.of_pair ?_ (by assumption) | ((conv => arg 2; arg 27); apply Upheld.of_mk)
    | exact (‹Upheld wq _›).sound.stack | exact (‹Upheld wq _›).sound.spi | exact (‹Upheld wq _›).sound.window
    | exact (‹Upheld wq _›).sound.queue | exact (‹Upheld wq _›).sound.keys | dsimp +zetaDelta only)

theorem execChamberFillDone_keeps {wq : List Instr} (s : State) (hs : Upheld wq s) :
    ∃ s', execChamberFillDone s = .next s' ∧ Upheld wq s' := by
  unfold execChamberFillDone
  refine ⟨_, rfl, ?_⟩
  repeat' (with_reducible first
    | assumption | intro _ | apply idle_keeps | apply withCal_keeps | apply Upheld.ite | extract_lets | split
    | refine Upheld.of_pair ?_ (by assumption) | ((conv => arg 2; arg 27); apply Upheld.of_mk)
    | exact (‹Upheld wq _›).sound.stack | exact (‹Upheld wq _›).sound.spi | exact (‹Upheld wq _›).sound.window
    | exact (‹Upheld wq _›).sound.queue | exact (‹Upheld wq _›).sound.keys | dsimp +zetaDelta only)

theorem execRestoreTimeout_keeps {wq : List Instr} (s : State) (hs : Upheld wq s) :
    ∃ s', execRestoreTimeout s = .next s' ∧ Upheld wq s' := by
  unfold execRestoreTimeout
  refine ⟨_, rfl, ?_⟩
  repeat' (with_reducible first
    | assumption | intro _ | apply withCal_keeps | apply Upheld.ite | extract_lets | split
    | refine Upheld.of_pair ?_ (by assumption) | ((conv => arg 2; arg 27); apply Upheld.of_mk)
    | exact (‹Upheld wq _›).sound.stack | exact (‹Upheld wq _›).sound.spi | exact (‹Upheld wq _›).sound.window
    | exact (‹Upheld wq _›).sound.queue | exact (‹Upheld wq _›).sound.keys | dsimp +zetaDelta only)

theorem execOutFrameReadTimeout_keeps {wq : List Instr} (s : State) (hs : Upheld wq s) :
    ∃ s', execOutFrameReadTimeout s = .next s' ∧ Upheld wq s' := by
  unfold execOutFrameReadTimeout
  refine ⟨_, rfl, ?_⟩
  repeat' (with_reducible first
    | assumption | intro _ | extract_lets | ((conv => arg 2; arg 27); apply Upheld.of_mk) | exact (‹Upheld wq _›).sound.stack
    | exact (‹Upheld wq _›).sound.spi | exact (‹Upheld wq _›).sound.window | exact (‹Upheld wq _›).sound.queue
    | exact (‹Upheld wq _›).sound.keys | dsimp +zetaDelta only)

theorem execBerthAlarmRaise_keeps {wq : List Instr} (n : Nat) (s : State) (hs : Upheld wq s) :
    ∃ s', execBerthAlarmRaise n s = .next s' ∧ Upheld wq s' := by
  unfold execBerthAlarmRaise
  refine ⟨_, rfl, ?_⟩
  repeat' (with_reducible first
    | assumption | intro _ | apply modBerth_keeps | apply alarm_keeps | apply Upheld.ite | extract_lets | split
    | ((conv => arg 2; arg 27); apply Upheld.of_mk) | exact (‹Upheld wq _›).sound.stack | exact (‹Upheld wq _›).sound.spi
    | exact (‹Upheld wq _›).sound.window | exact (‹Upheld wq _›).sound.queue | exact (‹Upheld wq _›).sound.keys
    | dsimp +zetaDelta only)

theorem execBerthAlarmClear_keeps {wq : List Instr} (n : Nat) (s : State) (hs : Upheld wq s) :
    ∃ s', execBerthAlarmClear n s = .next s' ∧ Upheld wq s' := by
  unfold execBerthAlarmClear
  refine ⟨_, rfl, ?_⟩
  repeat' (with_reducible first
    | assumption | intro _ | apply modBerth_keeps | apply alarm_keeps | apply Upheld.ite | extract_lets | split
    | ((conv => arg 2; arg 27); apply Upheld.of_mk) | exact (‹Upheld wq _›).sound.stack | exact (‹Upheld wq _›).sound.spi
    | exact (‹Upheld wq _›).sound.window | exact (‹Upheld wq _›).sound.queue | exact (‹Upheld wq _›).sound.keys
    | dsimp +zetaDelta only)

theorem execBerthOccupied_keeps {wq : List Instr} (n : Nat) (s : State) (hs : Upheld wq s) :
    ∃ s', execBerthOccupied n s = .next s' ∧ Upheld wq s' := by
  unfold execBerthOccupied
  refine ⟨_, rfl, ?_⟩
  repeat' (with_reducible first
    | assumption | intro _ | apply modBerth_keeps | apply Upheld.ite | extract_lets | split
    | ((conv => arg 2; arg 27); apply Upheld.of_mk) | exact (‹Upheld wq _›).sound.stack | exact (‹Upheld wq _›).sound.spi
    | exact (‹Upheld wq _›).sound.window | exact (‹Upheld wq _›).sound.queue | exact (‹Upheld wq _›).sound.keys
    | dsimp +zetaDelta only)

theorem execBerthVacant_keeps {wq : List Instr} (n : Nat) (s : State) (hs : Upheld wq s) :
    ∃ s', execBerthVacant n s = .next s' ∧ Upheld wq s' := by
  unfold execBerthVacant
  refine ⟨_, rfl, ?_⟩
  repeat' (with_reducible first
    | assumption | intro _ | apply modBerth_keeps | apply Upheld.ite | extract_lets | split
    | ((conv => arg 2; arg 27); apply Upheld.of_mk) | exact (‹Upheld wq _›).sound.stack | exact (‹Upheld wq _›).sound.spi
    | exact (‹Upheld wq _›).sound.window | exact (‹Upheld wq _›).sound.queue | exact (‹Upheld wq _›).sound.keys
    | dsimp +zetaDelta only)

theorem execTablePublication_keeps {wq : List Instr} (s : State) (hs : Upheld wq s) :
    ∃ s', execTablePublication s = .next s' ∧ Upheld wq s' := by
  unfold execTablePublication
  refine ⟨_, rfl, ?_⟩
  repeat' (with_reducible first
    | assumption | intro _ | apply publishTable_keeps | apply withVideo_keeps | apply takeTables_keeps | apply engineEval_keeps
    | apply Upheld.ite | extract_lets | split | ((conv => arg 2; arg 27); apply Upheld.of_mk)
    | exact (‹Upheld wq _›).sound.stack | exact (‹Upheld wq _›).sound.spi | exact (‹Upheld wq _›).sound.window
    | exact (‹Upheld wq _›).sound.queue | exact (‹Upheld wq _›).sound.keys | dsimp +zetaDelta only)

end Sys2Proof.Machine
end

