-- ==== Sys2Proof/Laws/KeepsImaging.lean ====
section
/-!
SUPPORT. Every state that Machine/Imaging.lean builds from a sound state is sound, with the same commands waiting.
-/
namespace Sys2Proof.Machine

theorem execGainModeWrite_keeps {wq : List Instr} (w : Wr) (s : State) (hs : Upheld wq s) :
    ∃ s', execGainModeWrite w s = .next s' ∧ Upheld wq s' := by
  unfold execGainModeWrite
  refine ⟨_, rfl, ?_⟩
  repeat' (with_reducible first
    | assumption | intro _ | apply ledgerWrite_keeps | apply plainRule_keeps | dsimp +zetaDelta only)

theorem imagerModeRule_keeps {wq : List Instr} (s : State) (v : Nat) (hs : Upheld wq s) :
    Upheld wq (imagerModeRule s v).2 := by
  unfold imagerModeRule
  repeat' (with_reducible first
    | assumption | intro _ | apply plainRule_keeps | apply Upheld.ite | extract_lets | split
    | ((conv => arg 2; arg 27); apply Upheld.of_mk) | exact (‹Upheld wq _›).sound.stack | exact (‹Upheld wq _›).sound.spi
    | exact (‹Upheld wq _›).sound.window | exact (‹Upheld wq _›).sound.queue | exact (‹Upheld wq _›).sound.keys
    | dsimp +zetaDelta only)

theorem execImagerModeWrite_keeps {wq : List Instr} (w : Wr) (s : State) (hs : Upheld wq s) :
    ∃ s', execImagerModeWrite w s = .next s' ∧ Upheld wq s' := by
  unfold execImagerModeWrite
  refine ⟨_, rfl, ?_⟩
  repeat' (with_reducible first
    | assumption | intro _ | apply ledgerWrite_keeps | apply imagerModeRule_keeps | dsimp +zetaDelta only)

theorem outputFormRule_keeps {wq : List Instr} (s : State) (v : Nat) (hs : Upheld wq s) :
    Upheld wq (outputFormRule s v).2 := by
  unfold outputFormRule
  repeat' (with_reducible first
    | assumption | intro _ | apply plainRule_keeps | apply Upheld.ite | extract_lets | split
    | ((conv => arg 2; arg 27); apply Upheld.of_mk) | exact (‹Upheld wq _›).sound.stack | exact (‹Upheld wq _›).sound.spi
    | exact (‹Upheld wq _›).sound.window | exact (‹Upheld wq _›).sound.queue | exact (‹Upheld wq _›).sound.keys
    | dsimp +zetaDelta only)

theorem execOutputFormWrite_keeps {wq : List Instr} (w : Wr) (s : State) (hs : Upheld wq s) :
    ∃ s', execOutputFormWrite w s = .next s' ∧ Upheld wq s' := by
  unfold execOutputFormWrite
  refine ⟨_, rfl, ?_⟩
  repeat' (with_reducible first
    | assumption | intro _ | apply ledgerWrite_keeps | apply outputFormRule_keeps | dsimp +zetaDelta only)

theorem filterShiftRule_keeps {wq : List Instr} (s : State) (v : Nat) (hs : Upheld wq s) :
    Upheld wq (filterShiftRule s v).2 := by
  unfold filterShiftRule
  repeat' (with_reducible first
    | assumption | intro _ | apply andThen_keeps | apply plainRule_keeps | apply clearFilter_keeps | dsimp +zetaDelta only)

theorem execFilterShiftWrite_keeps {wq : List Instr} (w : Wr) (s : State) (hs : Upheld wq s) :
    ∃ s', execFilterShiftWrite w s = .next s' ∧ Upheld wq s' := by
  unfold execFilterShiftWrite
  refine ⟨_, rfl, ?_⟩
  repeat' (with_reducible first
    | assumption | intro _ | apply ledgerWrite_keeps | apply filterShiftRule_keeps | dsimp +zetaDelta only)

theorem lensRule_keeps {wq : List Instr} (n : Nat) (s : State) (v : Nat) (hs : Upheld wq s) :
    Upheld wq (lensRule n s v).2 := by
  unfold lensRule
  repeat' (with_reducible first
    | assumption | intro _ | apply andThen_keeps | apply plainRule_keeps | apply setReg_keeps | apply Upheld.ite | split
    | ((conv => arg 2; arg 27); apply Upheld.of_mk) | exact (‹Upheld wq _›).sound.stack | exact (‹Upheld wq _›).sound.spi
    | exact (‹Upheld wq _›).sound.window | exact (‹Upheld wq _›).sound.queue | exact (‹Upheld wq _›).sound.keys
    | dsimp +zetaDelta only)

theorem execLensWrite_keeps {wq : List Instr} (n : Nat) (w : Wr) (s : State) (hs : Upheld wq s) :
    ∃ s', execLensWrite n w s = .next s' ∧ Upheld wq s' := by
  unfold execLensWrite
  refine ⟨_, rfl, ?_⟩
  repeat' (with_reducible first
    | assumption | intro _ | apply ledgerWrite_keeps | apply lensRule_keeps | dsimp +zetaDelta only)

theorem gradientLimitRule_keeps {wq : List Instr} (n : Nat) (s : State) (v : Nat) (hs : Upheld wq s) :
    Upheld wq (gradientLimitRule n s v).2 := by
  unfold gradientLimitRule
  repeat' (with_reducible first
    | assumption | intro _ | apply plainRule_keeps | apply Upheld.ite | split | dsimp +zetaDelta only)

theorem execGradientLimitWrite_keeps {wq : List Instr} (n : Nat) (w : Wr) (s : State) (hs : Upheld wq s) :
    ∃ s', execGradientLimitWrite n w s = .next s' ∧ Upheld wq s' := by
  unfold execGradientLimitWrite
  refine ⟨_, rfl, ?_⟩
  repeat' (with_reducible first
    | assumption | intro _ | apply ledgerWrite_keeps | apply gradientLimitRule_keeps | dsimp +zetaDelta only)

theorem groupStateRule_keeps {wq : List Instr} (n : Nat) (s : State) (v : Nat) (hs : Upheld wq s) :
    Upheld wq (groupStateRule n s v).2 := by
  unfold groupStateRule
  repeat' (with_reducible first
    | assumption | intro _ | apply withFocal_keeps | apply Upheld.ite | extract_lets | split
    | ((conv => arg 2; arg 27); apply Upheld.of_mk) | exact (‹Upheld wq _›).sound.stack | exact (‹Upheld wq _›).sound.spi
    | exact (‹Upheld wq _›).sound.window | exact (‹Upheld wq _›).sound.queue | exact (‹Upheld wq _›).sound.keys
    | dsimp +zetaDelta only)

theorem execGroupStateWrite_keeps {wq : List Instr} (n : Nat) (w : Wr) (s : State) (hs : Upheld wq s) :
    ∃ s', execGroupStateWrite n w s = .next s' ∧ Upheld wq s' := by
  unfold execGroupStateWrite
  refine ⟨_, rfl, ?_⟩
  repeat' (with_reducible first
    | assumption | intro _ | apply ledgerWrite_keeps | apply groupStateRule_keeps | dsimp +zetaDelta only)

theorem calWrite_keeps {wq : List Instr} (s : State) (r : Req) (code : Nat) (run : State → Status × State) (hs : Upheld wq s) (hrun : ∀ t, Upheld wq t → Upheld wq (run t).2) :
    Upheld wq (State.calWrite s r code run) := by
  unfold State.calWrite
  repeat' (with_reducible first | assumption | intro _ | apply ledgerWrite_keeps | apply hrun | dsimp +zetaDelta only)

theorem calCycleRule_keeps {wq : List Instr} (_r : Req) (s : State) (hs : Upheld wq s) :
    Upheld wq (calCycleRule _r s).2 := by
  unfold calCycleRule
  repeat' (with_reducible first
    | assumption | intro _ | apply trigger_keeps | apply Upheld.ite | split | dsimp +zetaDelta only)

theorem execCalCycle_keeps {wq : List Instr} (r : Req) (s : State) (hs : Upheld wq s) :
    ∃ s', execCalCycle r s = .next s' ∧ Upheld wq s' := by
  unfold execCalCycle
  refine ⟨_, rfl, ?_⟩
  repeat' (with_reducible first
    | assumption | intro _ | apply calWrite_keeps | apply calCycleRule_keeps | dsimp +zetaDelta only)

theorem calCycleRefRule_keeps {wq : List Instr} (r : Req) (s : State) (hs : Upheld wq s) :
    Upheld wq (calCycleRefRule r s).2 := by
  unfold calCycleRefRule
  repeat' (with_reducible first
    | assumption | intro _ | apply trigger_keeps | apply Upheld.ite | split | dsimp +zetaDelta only)

theorem execCalCycleRef_keeps {wq : List Instr} (r : Req) (s : State) (hs : Upheld wq s) :
    ∃ s', execCalCycleRef r s = .next s' ∧ Upheld wq s' := by
  unfold execCalCycleRef
  refine ⟨_, rfl, ?_⟩
  repeat' (with_reducible first
    | assumption | intro _ | apply calWrite_keeps | apply calCycleRefRule_keeps | dsimp +zetaDelta only)

theorem calAbortRule_keeps {wq : List Instr} (_r : Req) (s : State) (hs : Upheld wq s) :
    Upheld wq (calAbortRule _r s).2 := by
  unfold calAbortRule
  repeat' (with_reducible first
    | assumption | intro _ | apply abortCycle_keeps | apply withCal_keeps | extract_lets
    | ((conv => arg 2; arg 27); apply Upheld.of_mk) | exact (‹Upheld wq _›).sound.stack | exact (‹Upheld wq _›).sound.spi
    | exact (‹Upheld wq _›).sound.window | exact (‹Upheld wq _›).sound.queue | exact (‹Upheld wq _›).sound.keys
    | dsimp +zetaDelta only)

theorem execCalAbort_keeps {wq : List Instr} (r : Req) (s : State) (hs : Upheld wq s) :
    ∃ s', execCalAbort r s = .next s' ∧ Upheld wq s' := by
  unfold execCalAbort
  refine ⟨_, rfl, ?_⟩
  repeat' (with_reducible first
    | assumption | intro _ | apply calWrite_keeps | apply calAbortRule_keeps | dsimp +zetaDelta only)

theorem calQualifySparesRule_keeps {wq : List Instr} (r : Req) (s : State) (hs : Upheld wq s) :
    Upheld wq (calQualifySparesRule r s).2 := by
  unfold calQualifySparesRule
  repeat' (with_reducible first
    | assumption | intro _ | apply withCal_keeps | apply Upheld.ite | extract_lets | split
    | ((conv => arg 2; arg 27); apply Upheld.of_mk) | exact (‹Upheld wq _›).sound.stack | exact (‹Upheld wq _›).sound.spi
    | exact (‹Upheld wq _›).sound.window | exact (‹Upheld wq _›).sound.queue | exact (‹Upheld wq _›).sound.keys
    | dsimp +zetaDelta only)

theorem execCalQualifySpares_keeps {wq : List Instr} (r : Req) (s : State) (hs : Upheld wq s) :
    ∃ s', execCalQualifySpares r s = .next s' ∧ Upheld wq s' := by
  unfold execCalQualifySpares
  refine ⟨_, rfl, ?_⟩
  repeat' (with_reducible first
    | assumption | intro _ | apply calWrite_keeps | apply calQualifySparesRule_keeps | dsimp +zetaDelta only)

theorem calShutterTestRule_keeps {wq : List Instr} (r : Req) (s : State) (hs : Upheld wq s) :
    Upheld wq (calShutterTestRule r s).2 := by
  unfold calShutterTestRule
  repeat' (with_reducible first
    | assumption | intro _ | apply withCal_keeps | apply startTravel_keeps | apply Upheld.ite | extract_lets | split
    | ((conv => arg 2; arg 27); apply Upheld.of_mk) | exact (‹Upheld wq _›).sound.stack | exact (‹Upheld wq _›).sound.spi
    | exact (‹Upheld wq _›).sound.window | exact (‹Upheld wq _›).sound.queue | exact (‹Upheld wq _›).sound.keys
    | dsimp +zetaDelta only)

theorem execCalShutterTest_keeps {wq : List Instr} (r : Req) (s : State) (hs : Upheld wq s) :
    ∃ s', execCalShutterTest r s = .next s' ∧ Upheld wq s' := by
  unfold execCalShutterTest
  refine ⟨_, rfl, ?_⟩
  repeat' (with_reducible first
    | assumption | intro _ | apply calWrite_keeps | apply calShutterTestRule_keeps | dsimp +zetaDelta only)

theorem calLoadFactoryRule_keeps {wq : List Instr} (r : Req) (s : State) (hs : Upheld wq s) :
    Upheld wq (calLoadFactoryRule r s).2 := by
  unfold calLoadFactoryRule
  repeat' (with_reducible first
    | assumption | intro _ | apply withCal_keeps | apply Upheld.ite | extract_lets | split
    | ((conv => arg 2; arg 27); apply Upheld.of_mk) | exact (‹Upheld wq _›).sound.stack | exact (‹Upheld wq _›).sound.spi
    | exact (‹Upheld wq _›).sound.window | exact (‹Upheld wq _›).sound.queue | exact (‹Upheld wq _›).sound.keys
    | dsimp +zetaDelta only)

theorem execCalLoadFactory_keeps {wq : List Instr} (r : Req) (s : State) (hs : Upheld wq s) :
    ∃ s', execCalLoadFactory r s = .next s' ∧ Upheld wq s' := by
  unfold execCalLoadFactory
  refine ⟨_, rfl, ?_⟩
  repeat' (with_reducible first
    | assumption | intro _ | apply calWrite_keeps | apply calLoadFactoryRule_keeps | dsimp +zetaDelta only)

theorem berthRule_keeps {wq : List Instr} (lvl n sub : Nat) (s : State) (v : Nat) (hs : Upheld wq s) :
    Upheld wq (berthRule lvl n sub s v).2 := by
  unfold berthRule
  repeat' (with_reducible first
    | assumption | intro _ | apply setReg_keeps | apply withBerth_keeps | apply Upheld.ite | extract_lets | split
    | refine Upheld.of_pair ?_ (by assumption) | ((conv => arg 2; arg 27); apply Upheld.of_mk)
    | exact (‹Upheld wq _›).sound.stack | exact (‹Upheld wq _›).sound.spi | exact (‹Upheld wq _›).sound.window
    | exact (‹Upheld wq _›).sound.queue | exact (‹Upheld wq _›).sound.keys | dsimp +zetaDelta only)

theorem execBerthEntryWrite_keeps {wq : List Instr} (n sub : Nat) (w : Wr) (s : State) (hs : Upheld wq s) :
    ∃ s', execBerthEntryWrite n sub w s = .next s' ∧ Upheld wq s' := by
  unfold execBerthEntryWrite
  refine ⟨_, rfl, ?_⟩
  repeat' (with_reducible first
    | assumption | intro _ | apply ledgerWrite_keeps | apply berthRule_keeps | dsimp +zetaDelta only)

theorem execEditHoldWrite_keeps {wq : List Instr} (w : Wr) (s : State) (hs : Upheld wq s) :
    ∃ s', execEditHoldWrite w s = .next s' ∧ Upheld wq s' := by
  unfold execEditHoldWrite
  refine ⟨_, rfl, ?_⟩
  repeat' (with_reducible first
    | assumption | intro _ | apply ledgerWrite_keeps | apply plainRule_keeps | dsimp +zetaDelta only)

theorem videoEnableRule_keeps {wq : List Instr} (s : State) (v : Nat) (hs : Upheld wq s) :
    Upheld wq (videoEnableRule s v).2 := by
  unfold videoEnableRule
  repeat' (with_reducible first
    | assumption | intro _ | apply andThen_keeps | apply plainRule_keeps | apply withVideo_keeps | apply Upheld.ite | split
    | ((conv => arg 2; arg 27); apply Upheld.of_mk) | exact (‹Upheld wq _›).sound.stack | exact (‹Upheld wq _›).sound.spi
    | exact (‹Upheld wq _›).sound.window | exact (‹Upheld wq _›).sound.queue | exact (‹Upheld wq _›).sound.keys
    | dsimp +zetaDelta only)

theorem execVideoEnableWrite_keeps {wq : List Instr} (w : Wr) (s : State) (hs : Upheld wq s) :
    ∃ s', execVideoEnableWrite w s = .next s' ∧ Upheld wq s' := by
  unfold execVideoEnableWrite
  refine ⟨_, rfl, ?_⟩
  repeat' (with_reducible first
    | assumption | intro _ | apply ledgerWrite_keeps | apply videoEnableRule_keeps | dsimp +zetaDelta only)

theorem execStreamStart_keeps {wq : List Instr} (s : State) (hs : Upheld wq s) :
    ∃ s', execStreamStart s = .next s' ∧ Upheld wq s' := by
  unfold execStreamStart
  refine ⟨_, rfl, ?_⟩
  repeat' (with_reducible first
    | assumption | intro _ | apply withVideo_keeps | apply videoFrame_keeps | apply Upheld.ite | extract_lets | split
    | ((conv => arg 2; arg 27); apply Upheld.of_mk) | exact (‹Upheld wq _›).sound.stack | exact (‹Upheld wq _›).sound.spi
    | exact (‹Upheld wq _›).sound.window | exact (‹Upheld wq _›).sound.queue | exact (‹Upheld wq _›).sound.keys
    | dsimp +zetaDelta only)

theorem videoLinkRule_keeps {wq : List Instr} (n : Nat) (s : State) (v : Nat) (hs : Upheld wq s) :
    Upheld wq (videoLinkRule n s v).2 := by
  unfold videoLinkRule
  repeat' (with_reducible first
    | assumption | intro _ | apply plainRule_keeps | apply Upheld.ite | split | dsimp +zetaDelta only)

theorem execVideoLinkWrite_keeps {wq : List Instr} (n : Nat) (w : Wr) (s : State) (hs : Upheld wq s) :
    ∃ s', execVideoLinkWrite n w s = .next s' ∧ Upheld wq s' := by
  unfold execVideoLinkWrite
  refine ⟨_, rfl, ?_⟩
  repeat' (with_reducible first
    | assumption | intro _ | apply ledgerWrite_keeps | apply videoLinkRule_keeps | dsimp +zetaDelta only)

theorem vc2Rule_keeps {wq : List Instr} (s : State) (v : Nat) (hs : Upheld wq s) :
    Upheld wq (vc2Rule s v).2 := by
  unfold vc2Rule
  repeat' (with_reducible first
    | assumption | intro _ | apply withVideo_keeps | apply Upheld.ite | extract_lets | split
    | ((conv => arg 2; arg 27); apply Upheld.of_mk) | exact (‹Upheld wq _›).sound.stack | exact (‹Upheld wq _›).sound.spi
    | exact (‹Upheld wq _›).sound.window | exact (‹Upheld wq _›).sound.queue | exact (‹Upheld wq _›).sound.keys
    | dsimp +zetaDelta only)

theorem execVc2RequestWrite_keeps {wq : List Instr} (w : Wr) (s : State) (hs : Upheld wq s) :
    ∃ s', execVc2RequestWrite w s = .next s' ∧ Upheld wq s' := by
  unfold execVc2RequestWrite
  refine ⟨_, rfl, ?_⟩
  repeat' (with_reducible first | assumption | intro _ | apply ledgerWrite_keeps | apply vc2Rule_keeps | dsimp +zetaDelta only)

end Sys2Proof.Machine
end

