-- ==== Sys2Proof/Laws/KeepsLoops.lean ====
section
/-!
SUPPORT. Every state that Machine/Loops.lean builds from a sound state is sound, with the same commands waiting.
-/
namespace Sys2Proof.Machine

theorem loopModeRule_keeps {wq : List Instr} (n : Nat) (s : State) (v : Nat) (hs : Upheld wq s) :
    Upheld wq (loopModeRule n s v).2 := by
  unfold loopModeRule
  repeat' (with_reducible first
    | assumption | intro _ | apply andThen_keeps | apply putEntry_keeps | apply setLoopRun_keeps | apply Upheld.ite
    | extract_lets | split | ((conv => arg 2; arg 27); apply Upheld.of_mk) | exact (‹Upheld wq _›).sound.stack
    | exact (‹Upheld wq _›).sound.spi | exact (‹Upheld wq _›).sound.window | exact (‹Upheld wq _›).sound.queue
    | exact (‹Upheld wq _›).sound.keys | dsimp +zetaDelta only)

theorem execLoopModeWrite_keeps {wq : List Instr} (n : Nat) (w : Wr) (s : State) (hs : Upheld wq s) :
    ∃ s', execLoopModeWrite n w s = .next s' ∧ Upheld wq s' := by
  unfold execLoopModeWrite
  refine ⟨_, rfl, ?_⟩
  repeat' (with_reducible first
    | assumption | intro _ | apply ledgerWrite_keeps | apply loopModeRule_keeps | dsimp +zetaDelta only)

theorem loopTargetRule_keeps {wq : List Instr} (n : Nat) (s : State) (v : Nat) (hs : Upheld wq s) :
    Upheld wq (loopTargetRule n s v).2 := by
  unfold loopTargetRule
  repeat' (with_reducible first
    | assumption | intro _ | apply putEntry_keeps | apply Upheld.ite | split | dsimp +zetaDelta only)

theorem execLoopTargetWrite_keeps {wq : List Instr} (n : Nat) (w : Wr) (s : State) (hs : Upheld wq s) :
    ∃ s', execLoopTargetWrite n w s = .next s' ∧ Upheld wq s' := by
  unfold execLoopTargetWrite
  refine ⟨_, rfl, ?_⟩
  repeat' (with_reducible first
    | assumption | intro _ | apply ledgerWrite_keeps | apply loopTargetRule_keeps | dsimp +zetaDelta only)

theorem pvSourceRule_keeps {wq : List Instr} (key : Nat) (s : State) (v : Nat) (hs : Upheld wq s) :
    Upheld wq (pvSourceRule key s v).2 := by
  unfold pvSourceRule
  repeat' (with_reducible first
    | assumption | intro _ | apply putEntry_keeps | apply Upheld.ite | split | dsimp +zetaDelta only)

theorem execPvSourceWrite_keeps {wq : List Instr} (l : Nat) (backup : Bool) (w : Wr) (s : State) (hs : Upheld wq s) :
    ∃ s', execPvSourceWrite l backup w s = .next s' ∧ Upheld wq s' := by
  unfold execPvSourceWrite
  refine ⟨_, rfl, ?_⟩
  repeat' (with_reducible first
    | assumption | intro _ | apply ledgerWrite_keeps | apply pvSourceRule_keeps | apply Upheld.ite | extract_lets | split
    | dsimp +zetaDelta only)

theorem zoneOverrideRule_keeps {wq : List Instr} (n : Nat) (s : State) (v : Nat) (hs : Upheld wq s) :
    Upheld wq (zoneOverrideRule n s v).2 := by
  unfold zoneOverrideRule
  repeat' (with_reducible first
    | assumption | intro _ | apply andThen_keeps | apply plainRule_keeps | apply setZoneRun_keeps | apply evalPrograms_keeps
    | apply Upheld.ite | extract_lets | split | ((conv => arg 2; arg 27); apply Upheld.of_mk)
    | exact (‹Upheld wq _›).sound.stack | exact (‹Upheld wq _›).sound.spi | exact (‹Upheld wq _›).sound.window
    | exact (‹Upheld wq _›).sound.queue | exact (‹Upheld wq _›).sound.keys | dsimp +zetaDelta only)

theorem execZoneOverrideWrite_keeps {wq : List Instr} (n : Nat) (w : Wr) (s : State) (hs : Upheld wq s) :
    ∃ s', execZoneOverrideWrite n w s = .next s' ∧ Upheld wq s' := by
  unfold execZoneOverrideWrite
  refine ⟨_, rfl, ?_⟩
  repeat' (with_reducible first
    | assumption | intro _ | apply ledgerWrite_keeps | apply zoneOverrideRule_keeps | dsimp +zetaDelta only)

theorem execOverrideExpiry_keeps {wq : List Instr} (n : Nat) (s : State) (hs : Upheld wq s) :
    ∃ s', execOverrideExpiry n s = .next s' ∧ Upheld wq s' := by
  unfold execOverrideExpiry
  refine ⟨_, rfl, ?_⟩
  repeat' (with_reducible first
    | assumption | intro _ | apply setZoneRun_keeps | apply setReg_keeps | apply Upheld.ite | extract_lets | split
    | refine Upheld.of_pair ?_ (by assumption) | ((conv => arg 2; arg 27); apply Upheld.of_mk)
    | exact (‹Upheld wq _›).sound.stack | exact (‹Upheld wq _›).sound.spi | exact (‹Upheld wq _›).sound.window
    | exact (‹Upheld wq _›).sound.queue | exact (‹Upheld wq _›).sound.keys | dsimp +zetaDelta only)

theorem execPresenceHoldExpiry_keeps {wq : List Instr} (n : Nat) (s : State) (hs : Upheld wq s) :
    ∃ s', execPresenceHoldExpiry n s = .next s' ∧ Upheld wq s' := by
  unfold execPresenceHoldExpiry
  refine ⟨_, rfl, ?_⟩
  repeat' (with_reducible first
    | assumption | intro _ | apply setZoneRun_keeps | apply Upheld.ite | extract_lets | split
    | ((conv => arg 2; arg 27); apply Upheld.of_mk) | exact (‹Upheld wq _›).sound.stack | exact (‹Upheld wq _›).sound.spi
    | exact (‹Upheld wq _›).sound.window | exact (‹Upheld wq _›).sound.queue | exact (‹Upheld wq _›).sound.keys
    | dsimp +zetaDelta only)

theorem switchPointRule_keeps {wq : List Instr} (p j : Nat) (s : State) (v : Nat) (hs : Upheld wq s) :
    Upheld wq (switchPointRule p j s v).2 := by
  unfold switchPointRule
  repeat' (with_reducible first
    | assumption | intro _ | apply andThen_keeps | apply putEntry_keeps | apply evalPrograms_keeps | apply Upheld.ite | split
    | dsimp +zetaDelta only)

theorem execSwitchPointWrite_keeps {wq : List Instr} (p j : Nat) (w : Wr) (s : State) (hs : Upheld wq s) :
    ∃ s', execSwitchPointWrite p j w s = .next s' ∧ Upheld wq s' := by
  unfold execSwitchPointWrite
  refine ⟨_, rfl, ?_⟩
  repeat' (with_reducible first
    | assumption | intro _ | apply ledgerWrite_keeps | apply switchPointRule_keeps | dsimp +zetaDelta only)

theorem exceptionDateRule_keeps {wq : List Instr} (n : Nat) (s : State) (v : Nat) (hs : Upheld wq s) :
    Upheld wq (exceptionDateRule n s v).2 := by
  unfold exceptionDateRule
  repeat' (with_reducible first
    | assumption | intro _ | apply andThen_keeps | apply putEntry_keeps | apply evalPrograms_keeps | apply Upheld.ite
    | extract_lets | split | dsimp +zetaDelta only)

theorem execExceptionDateWrite_keeps {wq : List Instr} (n : Nat) (w : Wr) (s : State) (hs : Upheld wq s) :
    ∃ s', execExceptionDateWrite n w s = .next s' ∧ Upheld wq s' := by
  unfold execExceptionDateWrite
  refine ⟨_, rfl, ?_⟩
  repeat' (with_reducible first
    | assumption | intro _ | apply ledgerWrite_keeps | apply exceptionDateRule_keeps | dsimp +zetaDelta only)

theorem execProgramEvaluation_keeps {wq : List Instr} (s : State) (hs : Upheld wq s) :
    ∃ s', execProgramEvaluation s = .next s' ∧ Upheld wq s' := by
  unfold execProgramEvaluation
  refine ⟨_, rfl, ?_⟩
  repeat' (with_reducible first
    | assumption | intro _ | apply evalPrograms_keeps | apply updateZones_keeps | apply Upheld.ite | split
    | dsimp +zetaDelta only)

theorem execMasterSilentExpiry_keeps {wq : List Instr} (s : State) (hs : Upheld wq s) :
    ∃ s', execMasterSilentExpiry s = .next s' ∧ Upheld wq s' := by
  unfold execMasterSilentExpiry
  refine ⟨_, rfl, ?_⟩
  repeat' (with_reducible first
    | assumption | intro _ | apply noteAutonomous_keeps | apply engineHolds_keeps | apply Upheld.ite | split
    | dsimp +zetaDelta only)

end Sys2Proof.Machine
end

