-- ==== Sys2Proof/Laws/KeepsActuators.lean ====
section
/-!
SUPPORT. Every state that Machine/Actuators.lean builds from a sound state is sound, with the same commands waiting.
-/
namespace Sys2Proof.Machine

theorem outCommandRule_keeps {wq : List Instr} (n : Nat) (s : State) (v : Nat) (hs : Upheld wq s) :
    Upheld wq (outCommandRule n s v).2 := by
  unfold outCommandRule
  repeat' (with_reducible first
    | assumption | intro _ | apply andThen_keeps | apply plainRule_keeps | apply commandOut_keeps | apply Upheld.ite | split
    | dsimp +zetaDelta only)

theorem execOutCommandWrite_keeps {wq : List Instr} (n : Nat) (w : Wr) (s : State) (hs : Upheld wq s) :
    ∃ s', execOutCommandWrite n w s = .next s' ∧ Upheld wq s' := by
  unfold execOutCommandWrite
  refine ⟨_, rfl, ?_⟩
  repeat' (with_reducible first
    | assumption | intro _ | apply ledgerWrite_keeps | apply outCommandRule_keeps | dsimp +zetaDelta only)

theorem clearTrip_keeps {wq : List Instr} (s : State) (n : Nat) (hs : Upheld wq s) :
    Upheld wq (State.clearTrip s n) := by
  unfold State.clearTrip
  repeat' (with_reducible first
    | assumption | intro _ | apply alarmOf_keeps | apply Upheld.ite | split | dsimp +zetaDelta only)

theorem modeWritten_keeps {wq : List Instr} (s : State) (n : Nat) (hs : Upheld wq s) :
    Upheld wq (State.modeWritten s n) := by
  unfold State.modeWritten
  repeat' (with_reducible first
    | assumption | intro _ | apply setOut_keeps | apply clearTrip_keeps | apply Upheld.ite | extract_lets | split
    | ((conv => arg 2; arg 27); apply Upheld.of_mk) | exact (‹Upheld wq _›).sound.stack | exact (‹Upheld wq _›).sound.spi
    | exact (‹Upheld wq _›).sound.window | exact (‹Upheld wq _›).sound.queue | exact (‹Upheld wq _›).sound.keys
    | dsimp +zetaDelta only)

theorem outModeRule_keeps {wq : List Instr} (n : Nat) (s : State) (v : Nat) (hs : Upheld wq s) :
    Upheld wq (outModeRule n s v).2 := by
  unfold outModeRule
  repeat' (with_reducible first
    | assumption | intro _ | apply andThen_keeps | apply putEntry_keeps | apply modeWritten_keeps | apply Upheld.ite | split
    | dsimp +zetaDelta only)

theorem execOutModeWrite_keeps {wq : List Instr} (n : Nat) (w : Wr) (s : State) (hs : Upheld wq s) :
    ∃ s', execOutModeWrite n w s = .next s' ∧ Upheld wq s' := by
  unfold execOutModeWrite
  refine ⟨_, rfl, ?_⟩
  repeat' (with_reducible first
    | assumption | intro _ | apply ledgerWrite_keeps | apply outModeRule_keeps | dsimp +zetaDelta only)

theorem execOutputTrip_keeps {wq : List Instr} (n : Nat) (short : Bool) (s : State) (hs : Upheld wq s) :
    ∃ s', execOutputTrip n short s = .next s' ∧ Upheld wq s' := by
  unfold execOutputTrip
  refine ⟨_, rfl, ?_⟩
  repeat' (with_reducible first
    | assumption | intro _ | apply setOut_keeps | apply incSat_keeps | apply pushLog_keeps | apply alarmOf_keeps
    | apply Upheld.ite | extract_lets | split | ((conv => arg 2; arg 27); apply Upheld.of_mk)
    | exact (‹Upheld wq _›).sound.stack | exact (‹Upheld wq _›).sound.spi | exact (‹Upheld wq _›).sound.window
    | exact (‹Upheld wq _›).sound.queue | exact (‹Upheld wq _›).sound.keys | dsimp +zetaDelta only)

theorem execOutputTripResume_keeps {wq : List Instr} (n : Nat) (s : State) (hs : Upheld wq s) :
    ∃ s', execOutputTripResume n s = .next s' ∧ Upheld wq s' := by
  unfold execOutputTripResume
  refine ⟨_, rfl, ?_⟩
  repeat' (with_reducible first
    | assumption | intro _ | apply setOut_keeps | apply clearTrip_keeps | apply Upheld.ite | extract_lets | split
    | ((conv => arg 2; arg 27); apply Upheld.of_mk) | exact (‹Upheld wq _›).sound.stack | exact (‹Upheld wq _›).sound.spi
    | exact (‹Upheld wq _›).sound.window | exact (‹Upheld wq _›).sound.queue | exact (‹Upheld wq _›).sound.keys
    | dsimp +zetaDelta only)

theorem fanThermal_keeps {wq : List Instr} (s : State) (c : Nat) (hs : Upheld wq s) :
    Upheld wq (State.fanThermal s c) := by
  unfold State.fanThermal
  repeat' (with_reducible first
    | assumption | intro _ | apply setFan_keeps | apply endShort_keeps | extract_lets
    | ((conv => arg 2; arg 27); apply Upheld.of_mk) | exact (‹Upheld wq _›).sound.stack | exact (‹Upheld wq _›).sound.spi
    | exact (‹Upheld wq _›).sound.window | exact (‹Upheld wq _›).sound.queue | exact (‹Upheld wq _›).sound.keys
    | dsimp +zetaDelta only)

theorem execThermalShutdown_keeps {wq : List Instr} (temp : Nat) (s : State) (hs : Upheld wq s) :
    ∃ s', execThermalShutdown temp s = .next s' ∧ Upheld wq s' := by
  unfold execThermalShutdown
  refine ⟨_, rfl, ?_⟩
  repeat' (with_reducible first
    | assumption | intro _ | apply incSat_keeps | apply fanThermal_keeps | apply pushLog_keeps | apply alarmOf_keeps
    | apply Upheld.foldl | apply Upheld.ite | extract_lets | split | ((conv => arg 2; arg 27); apply Upheld.of_mk)
    | exact (‹Upheld wq _›).sound.stack | exact (‹Upheld wq _›).sound.spi | exact (‹Upheld wq _›).sound.window
    | exact (‹Upheld wq _›).sound.queue | exact (‹Upheld wq _›).sound.keys | dsimp +zetaDelta only)

theorem execThermalResume_keeps {wq : List Instr} (s : State) (hs : Upheld wq s) :
    ∃ s', execThermalResume s = .next s' ∧ Upheld wq s' := by
  unfold execThermalResume
  refine ⟨_, rfl, ?_⟩
  repeat' (with_reducible first
    | assumption | intro _ | apply startTug_keeps | apply alarmOf_keeps | apply Upheld.foldl | apply Upheld.ite | extract_lets
    | split | ((conv => arg 2; arg 27); apply Upheld.of_mk) | exact (‹Upheld wq _›).sound.stack
    | exact (‹Upheld wq _›).sound.spi | exact (‹Upheld wq _›).sound.window | exact (‹Upheld wq _›).sound.queue
    | exact (‹Upheld wq _›).sound.keys | dsimp +zetaDelta only)

theorem execFloatingOverdriveEnd_keeps {wq : List Instr} (n : Nat) (s : State) (hs : Upheld wq s) :
    ∃ s', execFloatingOverdriveEnd n s = .next s' ∧ Upheld wq s' := by
  unfold execFloatingOverdriveEnd
  refine ⟨_, rfl, ?_⟩
  repeat' (with_reducible first
    | assumption | intro _ | apply setOut_keeps | apply Upheld.ite | extract_lets | split
    | ((conv => arg 2; arg 27); apply Upheld.of_mk) | exact (‹Upheld wq _›).sound.stack | exact (‹Upheld wq _›).sound.spi
    | exact (‹Upheld wq _›).sound.window | exact (‹Upheld wq _›).sound.queue | exact (‹Upheld wq _›).sound.keys
    | dsimp +zetaDelta only)

theorem execValvePeakEnd_keeps {wq : List Instr} (n : Nat) (s : State) (hs : Upheld wq s) :
    ∃ s', execValvePeakEnd n s = .next s' ∧ Upheld wq s' := by
  unfold execValvePeakEnd
  refine ⟨_, rfl, ?_⟩
  repeat' (with_reducible first
    | assumption | intro _ | apply setOut_keeps | apply Upheld.ite | extract_lets | split
    | ((conv => arg 2; arg 27); apply Upheld.of_mk) | exact (‹Upheld wq _›).sound.stack | exact (‹Upheld wq _›).sound.spi
    | exact (‹Upheld wq _›).sound.window | exact (‹Upheld wq _›).sound.queue | exact (‹Upheld wq _›).sound.keys
    | dsimp +zetaDelta only)

theorem fanCommandRule_keeps {wq : List Instr} (c : Nat) (s : State) (v : Nat) (hs : Upheld wq s) :
    Upheld wq (fanCommandRule c s v).2 := by
  unfold fanCommandRule
  repeat' (with_reducible first
    | assumption | intro _ | apply andThen_keeps | apply plainRule_keeps | apply commandFan_keeps | apply incSat_keeps | apply Upheld.ite | split
    | dsimp +zetaDelta only)

theorem execFanCommandWrite_keeps {wq : List Instr} (n : Nat) (w : Wr) (s : State) (hs : Upheld wq s) :
    ∃ s', execFanCommandWrite n w s = .next s' ∧ Upheld wq s' := by
  unfold execFanCommandWrite
  refine ⟨_, rfl, ?_⟩
  repeat' (with_reducible first
    | assumption | intro _ | apply ledgerWrite_keeps | apply fanCommandRule_keeps | dsimp +zetaDelta only)

theorem fanBandRule_keeps {wq : List Instr} (c j : Nat) (s : State) (v : Nat) (hs : Upheld wq s) :
    Upheld wq (fanBandRule c j s v).2 := by
  unfold fanBandRule
  repeat' (with_reducible first
    | assumption | intro _ | apply andThen_keeps | apply putEntry_keeps | apply commandFan_keeps | apply Upheld.ite
    | extract_lets | split | dsimp +zetaDelta only)

theorem execFanBandWrite_keeps {wq : List Instr} (c j : Nat) (w : Wr) (s : State) (hs : Upheld wq s) :
    ∃ s', execFanBandWrite c j w s = .next s' ∧ Upheld wq s' := by
  unfold execFanBandWrite
  refine ⟨_, rfl, ?_⟩
  repeat' (with_reducible first
    | assumption | intro _ | apply ledgerWrite_keeps | apply fanBandRule_keeps | dsimp +zetaDelta only)

theorem fanRuns_keeps {wq : List Instr} (s : State) (c : Nat) (hs : Upheld wq s) :
    Upheld wq (State.fanRuns s c) := by
  unfold State.fanRuns
  repeat' (with_reducible first
    | assumption | intro _ | apply setFan_keeps | apply commandFan_keeps | extract_lets
    | ((conv => arg 2; arg 27); apply Upheld.of_mk) | exact (‹Upheld wq _›).sound.stack | exact (‹Upheld wq _›).sound.spi
    | exact (‹Upheld wq _›).sound.window | exact (‹Upheld wq _›).sound.queue | exact (‹Upheld wq _›).sound.keys
    | dsimp +zetaDelta only)

theorem fanUnlatched_keeps {wq : List Instr} (s : State) (c : Nat) (hs : Upheld wq s) :
    Upheld wq (State.fanUnlatched s c) := by
  unfold State.fanUnlatched
  repeat' (with_reducible first
    | assumption | intro _ | apply setFan_keeps | apply alarmOf_keeps | apply fanRuns_keeps | apply startTug_keeps
    | apply Upheld.ite | extract_lets | split | ((conv => arg 2; arg 27); apply Upheld.of_mk)
    | exact (‹Upheld wq _›).sound.stack | exact (‹Upheld wq _›).sound.spi | exact (‹Upheld wq _›).sound.window
    | exact (‹Upheld wq _›).sound.queue | exact (‹Upheld wq _›).sound.keys | dsimp +zetaDelta only)

theorem fanIlimitRule_keeps {wq : List Instr} (n : Nat) (t : State) (v : Nat) (ht : Upheld wq t) :
    Upheld wq (fanIlimitRule n t v).2 := by
  unfold fanIlimitRule
  repeat' (with_reducible first
    | assumption | intro _ | apply andThen_keeps | apply plainRule_keeps | apply fanUnlatched_keeps | dsimp +zetaDelta only)

theorem execFanIlimitWrite_keeps {wq : List Instr} (n : Nat) (w : Wr) (s : State) (hs : Upheld wq s) :
    ∃ s', execFanIlimitWrite n w s = .next s' ∧ Upheld wq s' := by
  unfold execFanIlimitWrite
  refine ⟨_, rfl, ?_⟩
  repeat' (with_reducible first
    | assumption | intro _ | apply ledgerWrite_keeps | apply fanIlimitRule_keeps | dsimp +zetaDelta only)

theorem tachRuns_keeps {wq : List Instr} (s : State) (k : Nat) (hs : Upheld wq s) :
    Upheld wq (State.tachRuns s k) := by
  unfold State.tachRuns
  repeat' (with_reducible first
    | assumption | intro _ | apply setTach_keeps | apply alarmOf_keeps | apply Upheld.ite | extract_lets | split
    | ((conv => arg 2; arg 27); apply Upheld.of_mk) | exact (‹Upheld wq _›).sound.stack | exact (‹Upheld wq _›).sound.spi
    | exact (‹Upheld wq _›).sound.window | exact (‹Upheld wq _›).sound.queue | exact (‹Upheld wq _›).sound.keys
    | dsimp +zetaDelta only)

theorem tugOver_keeps {wq : List Instr} (s : State) (c : Nat) (hs : Upheld wq s) :
    Upheld wq (State.tugOver s c) := by
  unfold State.tugOver
  repeat' (with_reducible first
    | assumption | intro _ | apply pushLog_keeps | apply tachRuns_keeps | apply setFan_keeps | apply fanRuns_keeps
    | apply stallTach_keeps | apply stallChannel_keeps | apply Upheld.foldl | apply Upheld.ite | extract_lets | split
    | ((conv => arg 2; arg 27); apply Upheld.of_mk) | exact (‹Upheld wq _›).sound.stack | exact (‹Upheld wq _›).sound.spi
    | exact (‹Upheld wq _›).sound.window | exact (‹Upheld wq _›).sound.queue | exact (‹Upheld wq _›).sound.keys
    | dsimp +zetaDelta only)

theorem execFanTugEnd_keeps {wq : List Instr} (n : Nat) (s : State) (hs : Upheld wq s) :
    ∃ s', execFanTugEnd n s = .next s' ∧ Upheld wq s' := by
  unfold execFanTugEnd
  refine ⟨_, rfl, ?_⟩
  repeat' (with_reducible first
    | assumption | intro _ | apply tugOver_keeps | apply setFan_keeps | apply Upheld.ite | extract_lets | split
    | ((conv => arg 2; arg 27); apply Upheld.of_mk) | exact (‹Upheld wq _›).sound.stack | exact (‹Upheld wq _›).sound.spi
    | exact (‹Upheld wq _›).sound.window | exact (‹Upheld wq _›).sound.queue | exact (‹Upheld wq _›).sound.keys
    | dsimp +zetaDelta only)

theorem execFanWaitEnd_keeps {wq : List Instr} (n : Nat) (s : State) (hs : Upheld wq s) :
    ∃ s', execFanWaitEnd n s = .next s' ∧ Upheld wq s' := by
  unfold execFanWaitEnd
  refine ⟨_, rfl, ?_⟩
  repeat' (with_reducible first
    | assumption | intro _ | apply startTug_keeps | apply Upheld.ite | split | dsimp +zetaDelta only)

theorem execFanStallRetry_keeps {wq : List Instr} (n : Nat) (s : State) (hs : Upheld wq s) :
    ∃ s', execFanStallRetry n s = .next s' ∧ Upheld wq s' := by
  unfold execFanStallRetry
  refine ⟨_, rfl, ?_⟩
  repeat' (with_reducible first
    | assumption | intro _ | apply startTug_keeps | apply setFan_keeps | apply clearTugEdges_keeps | apply Upheld.ite
    | extract_lets | split | ((conv => arg 2; arg 27); apply Upheld.of_mk) | exact (‹Upheld wq _›).sound.stack
    | exact (‹Upheld wq _›).sound.spi | exact (‹Upheld wq _›).sound.window | exact (‹Upheld wq _›).sound.queue
    | exact (‹Upheld wq _›).sound.keys | dsimp +zetaDelta only)

theorem execFanShort_keeps {wq : List Instr} (n : Nat) (s : State) (hs : Upheld wq s) :
    ∃ s', execFanShort n s = .next s' ∧ Upheld wq s' := by
  unfold execFanShort
  refine ⟨_, rfl, ?_⟩
  repeat' (with_reducible first
    | assumption | intro _ | apply setFan_keeps | apply pushLog_keeps | apply alarmOf_keeps | apply Upheld.ite | extract_lets
    | split | ((conv => arg 2; arg 27); apply Upheld.of_mk) | exact (‹Upheld wq _›).sound.stack
    | exact (‹Upheld wq _›).sound.spi | exact (‹Upheld wq _›).sound.window | exact (‹Upheld wq _›).sound.queue
    | exact (‹Upheld wq _›).sound.keys | dsimp +zetaDelta only)

theorem execFanShortOffEnd_keeps {wq : List Instr} (n : Nat) (s : State) (hs : Upheld wq s) :
    ∃ s', execFanShortOffEnd n s = .next s' ∧ Upheld wq s' := by
  unfold execFanShortOffEnd
  refine ⟨_, rfl, ?_⟩
  repeat' (with_reducible first
    | assumption | intro _ | apply endShort_keeps | apply fanRuns_keeps | apply Upheld.ite | extract_lets | split
    | dsimp +zetaDelta only)

theorem stampEdge_keeps {wq : List Instr} (s : State) (k t : Nat) (hs : Upheld wq s) :
    Upheld wq (State.stampEdge s k t) := by
  unfold State.stampEdge
  repeat' (with_reducible first
    | assumption | intro _ | apply setTach_keeps | extract_lets | ((conv => arg 2; arg 27); apply Upheld.of_mk)
    | exact (‹Upheld wq _›).sound.stack | exact (‹Upheld wq _›).sound.spi | exact (‹Upheld wq _›).sound.window
    | exact (‹Upheld wq _›).sound.queue | exact (‹Upheld wq _›).sound.keys | dsimp +zetaDelta only)

theorem readRpm_keeps {wq : List Instr} (s : State) (k : Nat) (hs : Upheld wq s) :
    Upheld wq (State.readRpm s k) := by
  unfold State.readRpm
  repeat' (with_reducible first
    | assumption | intro _ | apply setTach_keeps | apply Upheld.ite | extract_lets | split
    | refine Upheld.of_pair ?_ (by assumption) | ((conv => arg 2; arg 27); apply Upheld.of_mk)
    | exact (‹Upheld wq _›).sound.stack | exact (‹Upheld wq _›).sound.spi | exact (‹Upheld wq _›).sound.window
    | exact (‹Upheld wq _›).sound.queue | exact (‹Upheld wq _›).sound.keys | dsimp +zetaDelta only)

theorem edgeRuns_keeps {wq : List Instr} (s : State) (k : Nat) (hs : Upheld wq s) :
    Upheld wq (State.edgeRuns s k) := by
  unfold State.edgeRuns
  repeat' (with_reducible first
    | assumption | intro _ | apply tachRuns_keeps | apply Upheld.ite | extract_lets | split
    | refine Upheld.of_pair ?_ (by assumption) | ((conv => arg 2; arg 27); apply Upheld.of_mk)
    | exact (‹Upheld wq _›).sound.stack | exact (‹Upheld wq _›).sound.spi | exact (‹Upheld wq _›).sound.window
    | exact (‹Upheld wq _›).sound.queue | exact (‹Upheld wq _›).sound.keys | dsimp +zetaDelta only)

theorem execTachEdge_keeps {wq : List Instr} (n t : Nat) (s : State) (hs : Upheld wq s) :
    ∃ s', execTachEdge n t s = .next s' ∧ Upheld wq s' := by
  unfold execTachEdge
  refine ⟨_, rfl, ?_⟩
  repeat' (with_reducible first
    | assumption | intro _ | apply stampEdge_keeps | apply readRpm_keeps | apply edgeRuns_keeps | dsimp +zetaDelta only)

theorem execTachStop_keeps {wq : List Instr} (n : Nat) (s : State) (hs : Upheld wq s) :
    ∃ s', execTachStop n s = .next s' ∧ Upheld wq s' := by
  unfold execTachStop
  refine ⟨_, rfl, ?_⟩
  repeat' (with_reducible first
    | assumption | intro _ | apply setTach_keeps | apply Upheld.ite | extract_lets | split
    | ((conv => arg 2; arg 27); apply Upheld.of_mk) | exact (‹Upheld wq _›).sound.stack | exact (‹Upheld wq _›).sound.spi
    | exact (‹Upheld wq _›).sound.window | exact (‹Upheld wq _›).sound.queue | exact (‹Upheld wq _›).sound.keys
    | dsimp +zetaDelta only)

theorem judgeTach_keeps {wq : List Instr} (s : State) (c k ripple : Nat) (hs : Upheld wq s) :
    Upheld wq (State.judgeTach s c k ripple) := by
  unfold State.judgeTach
  repeat' (with_reducible first
    | assumption | intro _ | apply setTach_keeps | apply pushLog_keeps | apply alarmOf_keeps | apply stallTach_keeps
    | apply Upheld.ite | extract_lets | split | ((conv => arg 2; arg 27); apply Upheld.of_mk)
    | exact (‹Upheld wq _›).sound.stack | exact (‹Upheld wq _›).sound.spi | exact (‹Upheld wq _›).sound.window
    | exact (‹Upheld wq _›).sound.queue | exact (‹Upheld wq _›).sound.keys | dsimp +zetaDelta only)

theorem execRippleWindowEnd_keeps {wq : List Instr} (n events : Nat) (s : State) (hs : Upheld wq s) :
    ∃ s', execRippleWindowEnd n events s = .next s' ∧ Upheld wq s' := by
  unfold execRippleWindowEnd
  refine ⟨_, rfl, ?_⟩
  repeat' (with_reducible first
    | assumption | intro _ | apply setFan_keeps | apply judgeTach_keeps | apply stallChannel_keeps | apply tickFree_keeps
    | apply Upheld.foldl | apply Upheld.ite | extract_lets | split | ((conv => arg 2; arg 27); apply Upheld.of_mk)
    | exact (‹Upheld wq _›).sound.stack | exact (‹Upheld wq _›).sound.spi | exact (‹Upheld wq _›).sound.window
    | exact (‹Upheld wq _›).sound.queue | exact (‹Upheld wq _›).sound.keys | dsimp +zetaDelta only)

theorem learnTach_keeps {wq : List Instr} (s : State) (c k : Nat) (hs : Upheld wq s) :
    Upheld wq (State.learnTach s c k) := by
  unfold State.learnTach
  repeat' (with_reducible first
    | assumption | intro _ | apply setTach_keeps | apply Upheld.ite | extract_lets | split
    | ((conv => arg 2; arg 27); apply Upheld.of_mk) | exact (‹Upheld wq _›).sound.stack | exact (‹Upheld wq _›).sound.spi
    | exact (‹Upheld wq _›).sound.window | exact (‹Upheld wq _›).sound.queue | exact (‹Upheld wq _›).sound.keys
    | dsimp +zetaDelta only)

theorem execRpmLearn_keeps {wq : List Instr} (n : Nat) (s : State) (hs : Upheld wq s) :
    ∃ s', execRpmLearn n s = .next s' ∧ Upheld wq s' := by
  unfold execRpmLearn
  refine ⟨_, rfl, ?_⟩
  repeat' (with_reducible first
    | assumption | intro _ | apply learnTach_keeps | apply Upheld.foldl | apply Upheld.ite | split | dsimp +zetaDelta only)

end Sys2Proof.Machine
end

