-- ==== Sys2Proof/Laws/KeepsSensOps.lean ====
section
/-!
SUPPORT. Every state that Machine/SensOps.lean builds from a sound state is sound, with the same commands waiting.
-/
namespace Sys2Proof.Machine

theorem withSens_keeps {wq : List Instr} (s : State) (x : SensPart) (hs : Upheld wq s) :
    Upheld wq (State.withSens s x) := by
  unfold State.withSens
  repeat' (with_reducible first
    | assumption | intro _ | extract_lets | ((conv => arg 2; arg 27); apply Upheld.of_mk) | exact (‹Upheld wq _›).sound.stack
    | exact (‹Upheld wq _›).sound.spi | exact (‹Upheld wq _›).sound.window | exact (‹Upheld wq _›).sound.queue
    | exact (‹Upheld wq _›).sound.keys | dsimp +zetaDelta only)

theorem roundEntry_keeps {wq : List Instr} (s : State) (ch : Nat) (hs : Upheld wq s) :
    Upheld wq (State.roundEntry s ch) := by
  unfold State.roundEntry
  repeat' (with_reducible first
    | assumption | intro _ | apply withSens_keeps | extract_lets | ((conv => arg 2; arg 27); apply Upheld.of_mk)
    | exact (‹Upheld wq _›).sound.stack | exact (‹Upheld wq _›).sound.spi | exact (‹Upheld wq _›).sound.window
    | exact (‹Upheld wq _›).sound.queue | exact (‹Upheld wq _›).sound.keys | dsimp +zetaDelta only)

theorem startRound_keeps {wq : List Instr} (s : State) (hs : Upheld wq s) :
    Upheld wq (State.startRound s) := by
  unfold State.startRound
  repeat' (with_reducible first
    | assumption | intro _ | apply roundEntry_keeps | extract_lets | ((conv => arg 2; arg 27); apply Upheld.of_mk)
    | exact (‹Upheld wq _›).sound.stack | exact (‹Upheld wq _›).sound.spi | exact (‹Upheld wq _›).sound.window
    | exact (‹Upheld wq _›).sound.queue | exact (‹Upheld wq _›).sound.keys | dsimp +zetaDelta only)

theorem roundStart_keeps {wq : List Instr} (s : State) (hs : Upheld wq s) :
    Upheld wq (State.roundStart s) := by
  unfold State.roundStart
  repeat' (with_reducible first
    | assumption | intro _ | apply idle_keeps | apply startRound_keeps | apply withSens_keeps | apply incSat_keeps
    | extract_lets | split | refine Upheld.of_pair ?_ (by assumption) | ((conv => arg 2; arg 27); apply Upheld.of_mk)
    | exact (‹Upheld wq _›).sound.stack | exact (‹Upheld wq _›).sound.spi | exact (‹Upheld wq _›).sound.window
    | exact (‹Upheld wq _›).sound.queue | exact (‹Upheld wq _›).sound.keys | dsimp +zetaDelta only)

theorem tickRound_keeps {wq : List Instr} (s : State) (hs : Upheld wq s) :
    Upheld wq (State.tickRound s) := by
  unfold State.tickRound
  repeat' (with_reducible first
    | assumption | intro _ | apply roundStart_keeps | apply Upheld.ite | extract_lets | split | dsimp +zetaDelta only)

theorem adcFree_keeps {wq : List Instr} (s : State) (hs : Upheld wq s) :
    Upheld wq (State.adcFree s) := by
  unfold State.adcFree
  repeat' (with_reducible first
    | assumption | intro _ | apply withSens_keeps | apply startRound_keeps | apply idle_keeps | apply Upheld.ite | extract_lets
    | split | ((conv => arg 2; arg 27); apply Upheld.of_mk) | exact (‹Upheld wq _›).sound.stack
    | exact (‹Upheld wq _›).sound.spi | exact (‹Upheld wq _›).sound.window | exact (‹Upheld wq _›).sound.queue
    | exact (‹Upheld wq _›).sound.keys | dsimp +zetaDelta only)

theorem afterEntry_keeps {wq : List Instr} (s : State) (ch : Nat) (hs : Upheld wq s) :
    Upheld wq (State.afterEntry s ch) := by
  unfold State.afterEntry
  repeat' (with_reducible first
    | assumption | intro _ | apply withSens_keeps | apply roundEntry_keeps | apply adcFree_keeps | apply Upheld.ite
    | extract_lets | split | refine Upheld.of_pair ?_ (by assumption) | ((conv => arg 2; arg 27); apply Upheld.of_mk)
    | exact (‹Upheld wq _›).sound.stack | exact (‹Upheld wq _›).sound.spi | exact (‹Upheld wq _›).sound.window
    | exact (‹Upheld wq _›).sound.queue | exact (‹Upheld wq _›).sound.keys | dsimp +zetaDelta only)

theorem vinResult_keeps {wq : List Instr} (s : State) (ch : Nat) (v : Int) (hs : Upheld wq s) :
    Upheld wq (State.vinResult s ch v) := by
  unfold State.vinResult
  repeat' (with_reducible first
    | assumption | intro _ | apply setReg_keeps | apply Upheld.ite | split | ((conv => arg 2; arg 27); apply Upheld.of_mk)
    | exact (‹Upheld wq _›).sound.stack | exact (‹Upheld wq _›).sound.spi | exact (‹Upheld wq _›).sound.window
    | exact (‹Upheld wq _›).sound.queue | exact (‹Upheld wq _›).sound.keys | dsimp +zetaDelta only)

theorem adcResult_keeps {wq : List Instr} (s : State) (ch sum : Nat) (ovr urgent : Bool) (hs : Upheld wq s) :
    Upheld wq (State.adcResult s ch sum ovr urgent) := by
  unfold State.adcResult
  repeat' (with_reducible first
    | assumption | intro _ | apply vinResult_keeps | apply setReg_keeps | apply incSat_keeps | apply withSens_keeps
    | apply tickFree_keeps | apply Upheld.ite | extract_lets | split | ((conv => arg 2; arg 27); apply Upheld.of_mk)
    | exact (‹Upheld wq _›).sound.stack | exact (‹Upheld wq _›).sound.spi | exact (‹Upheld wq _›).sound.window
    | exact (‹Upheld wq _›).sound.queue | exact (‹Upheld wq _›).sound.keys | dsimp +zetaDelta only)

theorem urgentResult_keeps {wq : List Instr} (s : State) (ch : Nat) (hs : Upheld wq s) :
    Upheld wq (State.urgentResult s ch) := by
  unfold State.urgentResult
  repeat' (with_reducible first
    | assumption | intro _ | apply setReg_keeps | apply withSens_keeps | apply tickFree_keeps | apply Upheld.ite | extract_lets
    | split | ((conv => arg 2; arg 27); apply Upheld.of_mk) | exact (‹Upheld wq _›).sound.stack
    | exact (‹Upheld wq _›).sound.spi | exact (‹Upheld wq _›).sound.window | exact (‹Upheld wq _›).sound.queue
    | exact (‹Upheld wq _›).sound.keys | dsimp +zetaDelta only)

theorem setDi_keeps {wq : List Instr} (s : State) (n : Nat) (d : DiUnit) (hs : Upheld wq s) :
    Upheld wq (State.setDi s n d) := by
  unfold State.setDi
  repeat' (with_reducible first
    | assumption | intro _ | apply withSens_keeps | extract_lets | ((conv => arg 2; arg 27); apply Upheld.of_mk)
    | exact (‹Upheld wq _›).sound.stack | exact (‹Upheld wq _›).sound.spi | exact (‹Upheld wq _›).sound.window
    | exact (‹Upheld wq _›).sound.queue | exact (‹Upheld wq _›).sound.keys | dsimp +zetaDelta only)

theorem diAlarm_keeps {wq : List Instr} (s : State) (n : Nat) (raised : Bool) (hs : Upheld wq s) :
    Upheld wq (State.diAlarm s n raised) := by
  unfold State.diAlarm
  repeat' (with_reducible first | assumption | intro _ | apply alarmOf_keeps | dsimp +zetaDelta only)

theorem diCleared_keeps {wq : List Instr} (s : State) (n : Nat) (was : Bool) (hs : Upheld wq s) :
    Upheld wq (State.diCleared s n was) := by
  unfold State.diCleared
  repeat' (with_reducible first
    | assumption | intro _ | apply diAlarm_keeps | apply Upheld.ite | split | dsimp +zetaDelta only)

theorem diWake_keeps {wq : List Instr} (s : State) (n : Nat) (active : Bool) (hs : Upheld wq s) :
    Upheld wq (State.diWake s n active) := by
  unfold State.diWake
  repeat' (with_reducible first | assumption | apply wakeEvent_keeps | apply Upheld.ite)

theorem diChange_keeps {wq : List Instr} (s : State) (n : Nat) (active : Bool) (hs : Upheld wq s) :
    Upheld wq (State.diChange s n active) := by
  unfold State.diChange
  repeat' (with_reducible first
    | assumption | intro _ | apply setDi_keeps | apply diCleared_keeps | apply diWake_keeps | apply Upheld.ite | extract_lets | split
    | ((conv => arg 2; arg 27); apply Upheld.of_mk) | exact (‹Upheld wq _›).sound.stack | exact (‹Upheld wq _›).sound.spi
    | exact (‹Upheld wq _›).sound.window | exact (‹Upheld wq _›).sound.queue | exact (‹Upheld wq _›).sound.keys
    | dsimp +zetaDelta only)

theorem diEnter_keeps {wq : List Instr} (s : State) (n : Nat) (before : Bool) (hs : Upheld wq s) :
    Upheld wq (State.diEnter s n before) := by
  unfold State.diEnter
  repeat' (with_reducible first
    | assumption | intro _ | apply setDi_keeps | apply pushLog_keeps | apply diAlarm_keeps | extract_lets
    | ((conv => arg 2; arg 27); apply Upheld.of_mk) | exact (‹Upheld wq _›).sound.stack | exact (‹Upheld wq _›).sound.spi
    | exact (‹Upheld wq _›).sound.window | exact (‹Upheld wq _›).sound.queue | exact (‹Upheld wq _›).sound.keys
    | dsimp +zetaDelta only)

theorem diSample_keeps {wq : List Instr} (s : State) (n : Nat) (mv : Nat) (hs : Upheld wq s) :
    Upheld wq (State.diSample s n mv) := by
  unfold State.diSample
  repeat' (with_reducible first
    | assumption | intro _ | apply setDi_keeps | apply diCleared_keeps | apply diEnter_keeps | apply diChange_keeps
    | apply Upheld.ite | extract_lets | split | ((conv => arg 2; arg 27); apply Upheld.of_mk)
    | exact (‹Upheld wq _›).sound.stack | exact (‹Upheld wq _›).sound.spi | exact (‹Upheld wq _›).sound.window
    | exact (‹Upheld wq _›).sound.queue | exact (‹Upheld wq _›).sound.keys | dsimp +zetaDelta only)

theorem sampleInputs_keeps {wq : List Instr} (s : State) (mv : List Nat) (hs : Upheld wq s) :
    Upheld wq (State.sampleInputs s mv) := by
  unfold State.sampleInputs
  repeat' (with_reducible first | assumption | intro _ | apply diSample_keeps | apply Upheld.foldl | dsimp +zetaDelta only)

theorem diLeave_keeps {wq : List Instr} (s : State) (n : Nat) (hs : Upheld wq s) :
    Upheld wq (State.diLeave s n) := by
  unfold State.diLeave
  repeat' (with_reducible first
    | assumption | intro _ | apply setDi_keeps | apply pushLog_keeps | apply diCleared_keeps | apply diWake_keeps | apply Upheld.ite | extract_lets
    | split | ((conv => arg 2; arg 27); apply Upheld.of_mk) | exact (‹Upheld wq _›).sound.stack
    | exact (‹Upheld wq _›).sound.spi | exact (‹Upheld wq _›).sound.window | exact (‹Upheld wq _›).sound.queue
    | exact (‹Upheld wq _›).sound.keys | dsimp +zetaDelta only)

theorem setSlot_keeps {wq : List Instr} (s : State) (n : Nat) (x : IdSlot) (hs : Upheld wq s) :
    Upheld wq (State.setSlot s n x) := by
  unfold State.setSlot
  repeat' (with_reducible first
    | assumption | intro _ | apply withSens_keeps | extract_lets | ((conv => arg 2; arg 27); apply Upheld.of_mk)
    | exact (‹Upheld wq _›).sound.stack | exact (‹Upheld wq _›).sound.spi | exact (‹Upheld wq _›).sound.window
    | exact (‹Upheld wq _›).sound.queue | exact (‹Upheld wq _›).sound.keys | dsimp +zetaDelta only)

theorem startRead_keeps {wq : List Instr} (s : State) (n : Nat) (hs : Upheld wq s) :
    Upheld wq (State.startRead s n) := by
  unfold State.startRead
  repeat' (with_reducible first
    | assumption | intro _ | apply setSlot_keeps | extract_lets | ((conv => arg 2; arg 27); apply Upheld.of_mk)
    | exact (‹Upheld wq _›).sound.stack | exact (‹Upheld wq _›).sound.spi | exact (‹Upheld wq _›).sound.window
    | exact (‹Upheld wq _›).sound.queue | exact (‹Upheld wq _›).sound.keys | dsimp +zetaDelta only)

theorem recordRead_keeps {wq : List Instr} (s : State) (n : Nat) (b : List Nat) (hs : Upheld wq s) :
    Upheld wq (State.recordRead s n b) := by
  unfold State.recordRead
  repeat' (with_reducible first
    | assumption | intro _ | apply withSens_keeps | apply incSat_keeps | apply setSlot_keeps | apply setReg_keeps
    | apply setShutter_keeps | apply Upheld.foldl | apply Upheld.ite | extract_lets | split
    | refine Upheld.of_pair ?_ (by assumption) | ((conv => arg 2; arg 27); apply Upheld.of_mk)
    | exact (‹Upheld wq _›).sound.stack | exact (‹Upheld wq _›).sound.spi | exact (‹Upheld wq _›).sound.window
    | exact (‹Upheld wq _›).sound.queue | exact (‹Upheld wq _›).sound.keys | dsimp +zetaDelta only)

theorem readFailed_keeps {wq : List Instr} (s : State) (n : Nat) (hs : Upheld wq s) :
    Upheld wq (State.readFailed s n) := by
  unfold State.readFailed
  repeat' (with_reducible first
    | assumption | intro _ | apply setSlot_keeps | apply incSat_keeps | apply Upheld.ite | extract_lets | split
    | ((conv => arg 2; arg 27); apply Upheld.of_mk) | exact (‹Upheld wq _›).sound.stack | exact (‹Upheld wq _›).sound.spi
    | exact (‹Upheld wq _›).sound.window | exact (‹Upheld wq _›).sound.queue | exact (‹Upheld wq _›).sound.keys
    | dsimp +zetaDelta only)

theorem slotRemoved_keeps {wq : List Instr} (s : State) (n : Nat) (hs : Upheld wq s) :
    Upheld wq (State.slotRemoved s n) := by
  unfold State.slotRemoved
  repeat' (with_reducible first
    | assumption | intro _ | apply setSlot_keeps | apply setReg_keeps | apply setShutter_keeps | apply Upheld.ite | extract_lets
    | split | ((conv => arg 2; arg 27); apply Upheld.of_mk) | exact (‹Upheld wq _›).sound.stack
    | exact (‹Upheld wq _›).sound.spi | exact (‹Upheld wq _›).sound.window | exact (‹Upheld wq _›).sound.queue
    | exact (‹Upheld wq _›).sound.keys | dsimp +zetaDelta only)

end Sys2Proof.Machine
end

