-- ==== Sys2Proof/Laws/KeepsSensing.lean ====
section
/-!
SUPPORT. Every state that Machine/Sensing.lean builds from a sound state is sound, with the same commands waiting.
-/
namespace Sys2Proof.Machine

theorem execAdcEntryEnd_keeps {wq : List Instr} (ch sum : Nat) (ovr : Bool) (s : State) (hs : Upheld wq s) :
    ∃ s', execAdcEntryEnd ch sum ovr s = .next s' ∧ Upheld wq s' := by
  unfold execAdcEntryEnd
  refine ⟨_, rfl, ?_⟩
  repeat' (with_reducible first
    | assumption | intro _ | apply adcResult_keeps | apply afterEntry_keeps | apply urgentResult_keeps | apply adcFree_keeps
    | apply Upheld.ite | extract_lets | split | refine Upheld.of_pair ?_ (by assumption)
    | ((conv => arg 2; arg 27); apply Upheld.of_mk) | exact (‹Upheld wq _›).sound.stack | exact (‹Upheld wq _›).sound.spi
    | exact (‹Upheld wq _›).sound.window | exact (‹Upheld wq _›).sound.queue | exact (‹Upheld wq _›).sound.keys
    | dsimp +zetaDelta only)

theorem execAdcContinuousRound_keeps {wq : List Instr} (s : State) (hs : Upheld wq s) :
    ∃ s', execAdcContinuousRound s = .next s' ∧ Upheld wq s' := by
  unfold execAdcContinuousRound
  refine ⟨_, rfl, ?_⟩
  repeat' (with_reducible first
    | assumption | intro _ | apply idle_keeps | apply startRound_keeps | apply Upheld.ite | split | dsimp +zetaDelta only)

theorem urgentRule_keeps {wq : List Instr} (s : State) (v : Nat) (hs : Upheld wq s) :
    Upheld wq (urgentRule s v).2 := by
  unfold urgentRule
  repeat' (with_reducible first
    | assumption | intro _ | apply idle_keeps | apply incSat_keeps | apply andThen_keeps | apply putEntry_keeps
    | apply withSens_keeps | apply Upheld.ite | extract_lets | split | ((conv => arg 2; arg 27); apply Upheld.of_mk)
    | exact (‹Upheld wq _›).sound.stack | exact (‹Upheld wq _›).sound.spi | exact (‹Upheld wq _›).sound.window
    | exact (‹Upheld wq _›).sound.queue | exact (‹Upheld wq _›).sound.keys | dsimp +zetaDelta only)

theorem execUrgentRequestWrite_keeps {wq : List Instr} (w : Wr) (s : State) (hs : Upheld wq s) :
    ∃ s', execUrgentRequestWrite w s = .next s' ∧ Upheld wq s' := by
  unfold execUrgentRequestWrite
  refine ⟨_, rfl, ?_⟩
  repeat' (with_reducible first
    | assumption | intro _ | apply ledgerWrite_keeps | apply urgentRule_keeps | dsimp +zetaDelta only)

theorem adcCalRule_keeps {wq : List Instr} (s : State) (v : Nat) (hs : Upheld wq s) :
    Upheld wq (adcCalRule s v).2 := by
  unfold adcCalRule
  repeat' (with_reducible first
    | assumption | intro _ | apply idle_keeps | apply withSens_keeps | apply Upheld.ite | extract_lets | split
    | refine Upheld.of_pair ?_ (by assumption) | ((conv => arg 2; arg 27); apply Upheld.of_mk)
    | exact (‹Upheld wq _›).sound.stack | exact (‹Upheld wq _›).sound.spi | exact (‹Upheld wq _›).sound.window
    | exact (‹Upheld wq _›).sound.queue | exact (‹Upheld wq _›).sound.keys | dsimp +zetaDelta only)

theorem execAdcCalCommand_keeps {wq : List Instr} (r : Req) (s : State) (hs : Upheld wq s) :
    ∃ s', execAdcCalCommand r s = .next s' ∧ Upheld wq s' := by
  unfold execAdcCalCommand
  refine ⟨_, rfl, ?_⟩
  repeat' (with_reducible first
    | assumption | intro _ | apply ledgerWrite_keeps | apply adcCalRule_keeps | dsimp +zetaDelta only)

theorem setFactors_keeps {wq : List Instr} (s : State) (gains offsets : List Int) (hs : Upheld wq s) :
    Upheld wq (State.setFactors s gains offsets) := by
  unfold State.setFactors
  repeat' (with_reducible first
    | assumption | intro _ | apply setRegI_keeps | apply Upheld.foldl | extract_lets | dsimp +zetaDelta only)

theorem execAdcSelfCalDone_keeps {wq : List Instr} (gains offsets : List Int) (residual : Nat) (s : State) (hs : Upheld wq s) :
    ∃ s', execAdcSelfCalDone gains offsets residual s = .next s' ∧ Upheld wq s' := by
  unfold execAdcSelfCalDone
  refine ⟨_, rfl, ?_⟩
  repeat' (with_reducible first
    | assumption | intro _ | apply setFactors_keeps | apply setReg_keeps | apply putBit_keeps | apply withSens_keeps
    | apply roundEntry_keeps | apply adcFree_keeps | apply Upheld.ite | extract_lets | split
    | refine Upheld.of_pair ?_ (by assumption) | ((conv => arg 2; arg 27); apply Upheld.of_mk)
    | exact (‹Upheld wq _›).sound.stack | exact (‹Upheld wq _›).sound.spi | exact (‹Upheld wq _›).sound.window
    | exact (‹Upheld wq _›).sound.queue | exact (‹Upheld wq _›).sound.keys | dsimp +zetaDelta only)

theorem adcFactorRule_keeps {wq : List Instr} (n : Nat) (s : State) (v : Nat) (hs : Upheld wq s) :
    Upheld wq (adcFactorRule n s v).2 := by
  unfold adcFactorRule
  repeat' (with_reducible first
    | assumption | intro _ | apply andThen_keeps | apply putEntry_keeps | apply setReg_keeps | apply withSens_keeps
    | apply Upheld.ite | extract_lets | split | ((conv => arg 2; arg 27); apply Upheld.of_mk)
    | exact (‹Upheld wq _›).sound.stack | exact (‹Upheld wq _›).sound.spi | exact (‹Upheld wq _›).sound.window
    | exact (‹Upheld wq _›).sound.queue | exact (‹Upheld wq _›).sound.keys | dsimp +zetaDelta only)

theorem execAdcFactorWrite_keeps {wq : List Instr} (n : Nat) (w : Wr) (s : State) (hs : Upheld wq s) :
    ∃ s', execAdcFactorWrite n w s = .next s' ∧ Upheld wq s' := by
  unfold execAdcFactorWrite
  refine ⟨_, rfl, ?_⟩
  repeat' (with_reducible first
    | assumption | intro _ | apply ledgerWrite_keeps | apply adcFactorRule_keeps | dsimp +zetaDelta only)

theorem aiConfigRule_keeps {wq : List Instr} (ch sub : Nat) (s : State) (v : Nat) (hs : Upheld wq s) :
    Upheld wq (aiConfigRule ch sub s v).2 := by
  unfold aiConfigRule
  repeat' (with_reducible first
    | assumption | intro _ | apply setReg_keeps | apply putEntry_keeps | apply Upheld.ite | extract_lets | split
    | dsimp +zetaDelta only)

theorem execAiConfigWrite_keeps {wq : List Instr} (ch sub : Nat) (w : Wr) (s : State) (hs : Upheld wq s) :
    ∃ s', execAiConfigWrite ch sub w s = .next s' ∧ Upheld wq s' := by
  unfold execAiConfigWrite
  refine ⟨_, rfl, ?_⟩
  repeat' (with_reducible first
    | assumption | intro _ | apply ledgerWrite_keeps | apply aiConfigRule_keeps | dsimp +zetaDelta only)

theorem execDiStuck_keeps {wq : List Instr} (n : Nat) (s : State) (hs : Upheld wq s) :
    ∃ s', execDiStuck n s = .next s' ∧ Upheld wq s' := by
  unfold execDiStuck
  refine ⟨_, rfl, ?_⟩
  repeat' (with_reducible first
    | assumption | intro _ | apply setDi_keeps | apply pushLog_keeps | apply diAlarm_keeps | apply Upheld.ite | extract_lets
    | split | ((conv => arg 2; arg 27); apply Upheld.of_mk) | exact (‹Upheld wq _›).sound.stack
    | exact (‹Upheld wq _›).sound.spi | exact (‹Upheld wq _›).sound.window | exact (‹Upheld wq _›).sound.queue
    | exact (‹Upheld wq _›).sound.keys | dsimp +zetaDelta only)

theorem execDiChatterWindowEnd_keeps {wq : List Instr} (n : Nat) (s : State) (hs : Upheld wq s) :
    ∃ s', execDiChatterWindowEnd n s = .next s' ∧ Upheld wq s' := by
  unfold execDiChatterWindowEnd
  refine ⟨_, rfl, ?_⟩
  repeat' (with_reducible first
    | assumption | intro _ | apply diLeave_keeps | apply setDi_keeps | apply Upheld.ite | extract_lets | split
    | ((conv => arg 2; arg 27); apply Upheld.of_mk) | exact (‹Upheld wq _›).sound.stack | exact (‹Upheld wq _›).sound.spi
    | exact (‹Upheld wq _›).sound.window | exact (‹Upheld wq _›).sound.queue | exact (‹Upheld wq _›).sound.keys
    | dsimp +zetaDelta only)

theorem execIdReaderStart_keeps {wq : List Instr} (s : State) (hs : Upheld wq s) :
    ∃ s', execIdReaderStart s = .next s' ∧ Upheld wq s' := by
  unfold execIdReaderStart
  refine ⟨_, rfl, ?_⟩
  repeat' (with_reducible first
    | assumption | intro _ | apply withSens_keeps | extract_lets | ((conv => arg 2; arg 27); apply Upheld.of_mk)
    | exact (‹Upheld wq _›).sound.stack | exact (‹Upheld wq _›).sound.spi | exact (‹Upheld wq _›).sound.window
    | exact (‹Upheld wq _›).sound.queue | exact (‹Upheld wq _›).sound.keys | dsimp +zetaDelta only)

theorem execModDetChange_keeps {wq : List Instr} (slot : Nat) (on : Bool) (s : State) (hs : Upheld wq s) :
    ∃ s', execModDetChange slot on s = .next s' ∧ Upheld wq s' := by
  unfold execModDetChange
  refine ⟨_, rfl, ?_⟩
  repeat' (with_reducible first
    | assumption | intro _ | apply startRead_keeps | apply slotRemoved_keeps | apply Upheld.ite | split
    | ((conv => arg 2; arg 27); apply Upheld.of_mk) | exact (‹Upheld wq _›).sound.stack | exact (‹Upheld wq _›).sound.spi
    | exact (‹Upheld wq _›).sound.window | exact (‹Upheld wq _›).sound.queue | exact (‹Upheld wq _›).sound.keys
    | dsimp +zetaDelta only)

theorem execIdPoll_keeps {wq : List Instr} (ack : Nat) (s : State) (hs : Upheld wq s) :
    ∃ s', execIdPoll ack s = .next s' ∧ Upheld wq s' := by
  unfold execIdPoll
  refine ⟨_, rfl, ?_⟩
  repeat' (with_reducible first
    | assumption | intro _ | apply startRead_keeps | apply slotRemoved_keeps | apply Upheld.foldl | apply Upheld.ite | split
    | dsimp +zetaDelta only)

theorem execIdReadDone_keeps {wq : List Instr} (slot : Nat) (r : IdRead) (s : State) (hs : Upheld wq s) :
    ∃ s', execIdReadDone slot r s = .next s' ∧ Upheld wq s' := by
  unfold execIdReadDone
  refine ⟨_, rfl, ?_⟩
  repeat' (with_reducible first
    | assumption | intro _ | apply recordRead_keeps | apply readFailed_keeps | apply withSens_keeps | apply Upheld.ite
    | extract_lets | split | refine Upheld.of_pair ?_ (by assumption) | ((conv => arg 2; arg 27); apply Upheld.of_mk)
    | exact (‹Upheld wq _›).sound.stack | exact (‹Upheld wq _›).sound.spi | exact (‹Upheld wq _›).sound.window
    | exact (‹Upheld wq _›).sound.queue | exact (‹Upheld wq _›).sound.keys | dsimp +zetaDelta only)

theorem execIdReadRetry_keeps {wq : List Instr} (n : Nat) (s : State) (hs : Upheld wq s) :
    ∃ s', execIdReadRetry n s = .next s' ∧ Upheld wq s' := by
  unfold execIdReadRetry
  refine ⟨_, rfl, ?_⟩
  repeat' (with_reducible first
    | assumption | intro _ | apply setSlot_keeps | apply Upheld.ite | extract_lets | split
    | ((conv => arg 2; arg 27); apply Upheld.of_mk) | exact (‹Upheld wq _›).sound.stack | exact (‹Upheld wq _›).sound.spi
    | exact (‹Upheld wq _›).sound.window | exact (‹Upheld wq _›).sound.queue | exact (‹Upheld wq _›).sound.keys
    | dsimp +zetaDelta only)

theorem execIdFaultRetry_keeps {wq : List Instr} (n : Nat) (s : State) (hs : Upheld wq s) :
    ∃ s', execIdFaultRetry n s = .next s' ∧ Upheld wq s' := by
  unfold execIdFaultRetry
  refine ⟨_, rfl, ?_⟩
  repeat' (with_reducible first
    | assumption | intro _ | apply startRead_keeps | apply Upheld.ite | split | dsimp +zetaDelta only)

theorem reread_keeps {wq : List Instr} (s : State) (n : Nat) (hs : Upheld wq s) :
    Upheld wq (State.reread s n) := by
  unfold State.reread
  repeat' (with_reducible first
    | assumption | intro _ | apply startRead_keeps | apply Upheld.ite | split | dsimp +zetaDelta only)

theorem idRereadRule_keeps {wq : List Instr} (s : State) (v : Nat) (hs : Upheld wq s) :
    Upheld wq (idRereadRule s v).2 := by
  unfold idRereadRule
  repeat' (with_reducible first
    | assumption | intro _ | apply reread_keeps | apply Upheld.foldl | apply Upheld.ite | split | dsimp +zetaDelta only)

theorem execIdRereadWrite_keeps {wq : List Instr} (w : Wr) (s : State) (hs : Upheld wq s) :
    ∃ s', execIdRereadWrite w s = .next s' ∧ Upheld wq s' := by
  unfold execIdRereadWrite
  refine ⟨_, rfl, ?_⟩
  repeat' (with_reducible first
    | assumption | intro _ | apply ledgerWrite_keeps | apply idRereadRule_keeps | dsimp +zetaDelta only)

theorem slotBindRule_keeps {wq : List Instr} (n : Nat) (s : State) (v : Nat) (hs : Upheld wq s) :
    Upheld wq (slotBindRule n s v).2 := by
  unfold slotBindRule
  repeat' (with_reducible first
    | assumption | intro _ | apply andThen_keeps | apply putEntry_keeps | apply reread_keeps | apply Upheld.ite | extract_lets
    | split | dsimp +zetaDelta only)

theorem execSlotBindWrite_keeps {wq : List Instr} (n : Nat) (w : Wr) (s : State) (hs : Upheld wq s) :
    ∃ s', execSlotBindWrite n w s = .next s' ∧ Upheld wq s' := by
  unfold execSlotBindWrite
  refine ⟨_, rfl, ?_⟩
  repeat' (with_reducible first
    | assumption | intro _ | apply ledgerWrite_keeps | apply slotBindRule_keeps | dsimp +zetaDelta only)

end Sys2Proof.Machine
end

