-- ==== Sys2Proof/Laws/KeepsLinkOps.lean ====
section
/-!
SUPPORT. Every state that Machine/LinkOps.lean builds from a sound state is sound, with the same commands waiting.
-/
namespace Sys2Proof.Machine

theorem acceptRequest_keeps {wq : List Instr} (s : State) (q : Request) (hs : Upheld wq s) :
    Upheld wq (State.acceptRequest s q) := by
  unfold State.acceptRequest
  repeat' (with_reducible first
    | assumption | intro _ | apply enqueueRequest_keeps | apply request_keeps | apply Upheld.ite | extract_lets | split
    | refine Upheld.of_pair ?_ (by assumption) | ((conv => arg 2; arg 27); apply Upheld.of_mk)
    | exact (‹Upheld wq _›).sound.stack | exact (‹Upheld wq _›).sound.spi | exact (‹Upheld wq _›).sound.window
    | exact (‹Upheld wq _›).sound.queue | exact (‹Upheld wq _›).sound.keys | dsimp +zetaDelta only)

theorem closeMessage_keeps {wq : List Instr} (s : State) (c : Bus) (peer : Nat) (hs : Upheld wq s) :
    Upheld wq (State.closeMessage s c peer) := by
  unfold State.closeMessage
  repeat' (with_reducible first
    | assumption | intro _ | extract_lets | ((conv => arg 2; arg 27); apply Upheld.of_mk) | exact (‹Upheld wq _›).sound.stack
    | exact (‹Upheld wq _›).sound.spi | exact (‹Upheld wq _›).sound.window | exact (‹Upheld wq _›).sound.queue
    | exact (‹Upheld wq _›).sound.keys | dsimp +zetaDelta only)

theorem discardKlp_keeps {wq : List Instr} (s : State) (hs : Upheld wq s) :
    Upheld wq (State.discardKlp s) := by
  unfold State.discardKlp
  repeat' (with_reducible first
    | assumption | intro _ | extract_lets | ((conv => arg 2; arg 27); apply Upheld.of_mk) | exact (‹Upheld wq _›).sound.stack
    | exact (‹Upheld wq _›).sound.spi | exact (‹Upheld wq _›).sound.window | exact (‹Upheld wq _›).sound.queue
    | exact (‹Upheld wq _›).sound.keys | dsimp +zetaDelta only)

theorem messageDone_keeps {wq : List Instr} (s : State) (c : Bus) (peer : Nat) (m : List Nat) (hs : Upheld wq s) :
    Upheld wq (State.messageDone s c peer m) := by
  unfold State.messageDone
  repeat' (with_reducible first
    | assumption | intro _ | apply acceptRequest_keeps | apply discardKlp_keeps | apply Upheld.ite | extract_lets | split
    | refine Upheld.of_pair ?_ (by assumption) | ((conv => arg 2; arg 27); apply Upheld.of_mk)
    | exact (‹Upheld wq _›).sound.stack | exact (‹Upheld wq _›).sound.spi | exact (‹Upheld wq _›).sound.window
    | exact (‹Upheld wq _›).sound.queue | exact (‹Upheld wq _›).sound.keys | dsimp +zetaDelta only)

theorem takeFrame_keeps {wq : List Instr} (s : State) (c : Bus) (x : Rasm) (last : Bool) (bytes : List Nat) (hs : Upheld wq s) :
    Upheld wq (State.takeFrame s c x last bytes) := by
  unfold State.takeFrame
  repeat' (with_reducible first
    | assumption | intro _ | apply closeMessage_keeps | apply messageDone_keeps | apply Upheld.ite | extract_lets | split
    | ((conv => arg 2; arg 27); apply Upheld.of_mk) | exact (‹Upheld wq _›).sound.stack | exact (‹Upheld wq _›).sound.spi
    | exact (‹Upheld wq _›).sound.window | exact (‹Upheld wq _›).sound.queue | exact (‹Upheld wq _›).sound.keys
    | dsimp +zetaDelta only)

theorem ledgerFrame_keeps {wq : List Instr} (s : State) (c : Bus) (data : List Nat) (hs : Upheld wq s) :
    Upheld wq (State.ledgerFrame s c data) := by
  unfold State.ledgerFrame
  repeat' (with_reducible first
    | assumption | intro _ | apply discardKlp_keeps | apply closeMessage_keeps | apply takeFrame_keeps | apply Upheld.ite
    | extract_lets | split | refine Upheld.of_pair ?_ (by assumption) | ((conv => arg 2; arg 27); apply Upheld.of_mk)
    | apply drop_le | exact (‹Upheld wq _›).sound.stack | exact (‹Upheld wq _›).sound.spi | exact (‹Upheld wq _›).sound.window
    | exact (‹Upheld wq _›).sound.queue | exact (‹Upheld wq _›).sound.keys | dsimp +zetaDelta only)

theorem beginResponse_keeps {wq : List Instr} (s : State) (hs : Upheld wq s) :
    Upheld wq (State.beginResponse s) := by
  unfold State.beginResponse
  repeat' (with_reducible first
    | assumption | intro _ | extract_lets | split | refine Upheld.of_pair ?_ (by assumption)
    | ((conv => arg 2; arg 27); apply Upheld.of_mk) | apply erase_le | exact (‹Upheld wq _›).sound.stack
    | exact (‹Upheld wq _›).sound.spi | exact (‹Upheld wq _›).sound.window | exact (‹Upheld wq _›).sound.queue
    | exact (‹Upheld wq _›).sound.keys | dsimp +zetaDelta only)

theorem pumpFrames_keeps {wq : List Instr} (n : Nat) (s : State) (hs : Upheld wq s) : Upheld wq (State.pumpFrames s n) := by
  induction n generalizing s with
  | zero => exact hs
  | succ n ih =>
    unfold State.pumpFrames
    split
    · exact hs
    · split
      · exact Upheld.setKlp hs fun h => h.sound.spi
      · rename_i x _ _ f rest _
        extract_lets wait r
        have hr : Upheld wq r.2 := enqueue_keeps _ _ _ _ hs
        clear_value r
        split
        · exact ih _ (Upheld.setKlp hr fun h => h.sound.spi)
        · split
          · exact hr
          · exact Upheld.setKlp hr fun h => h.sound.spi

theorem responseRow_keeps {wq : List Instr} (s : State) (hs : Upheld wq s) :
    Upheld wq (State.responseRow s) := by
  unfold State.responseRow
  repeat' (with_reducible first
    | assumption | intro _ | apply beginResponse_keeps | apply pumpFrames_keeps | apply Upheld.foldl | dsimp +zetaDelta only)

theorem linkError_keeps {wq : List Instr} (s : State) (e : Nat) (hs : Upheld wq s) :
    Upheld wq (State.linkError s e) := by
  unfold State.linkError
  repeat' (with_reducible first
    | assumption | intro _ | extract_lets | ((conv => arg 2; arg 27); apply Upheld.of_mk) | exact (‹Upheld wq _›).sound.stack
    | exact (‹Upheld wq _›).sound.spi | exact (‹Upheld wq _›).sound.window | exact (‹Upheld wq _›).sound.queue
    | exact (‹Upheld wq _›).sound.keys | dsimp +zetaDelta only)

theorem spiRequest_keeps {wq : List Instr} (s : State) (bytes : List Nat) (hs : Upheld wq s) :
    Upheld wq (State.spiRequest s bytes) := by
  unfold State.spiRequest
  repeat' (with_reducible first
    | assumption | intro _ | apply linkError_keeps | apply acceptRequest_keeps | apply Upheld.ite | extract_lets | split
    | refine Upheld.of_pair ?_ (by assumption) | ((conv => arg 2; arg 27); apply Upheld.of_mk) | apply drop_le
    | exact (‹Upheld wq _›).sound.stack | exact (‹Upheld wq _›).sound.spi | exact (‹Upheld wq _›).sound.window
    | exact (‹Upheld wq _›).sound.queue | exact (‹Upheld wq _›).sound.keys | dsimp +zetaDelta only)

theorem refillFifo_keeps {wq : List Instr} (s : State) (hs : Upheld wq s) : Upheld wq (State.refillFifo s) := by
  unfold State.refillFifo
  split
  · exact hs
  · split
    · exact hs
    · exact Upheld.setKlp hs fun _ => by simp only [List.length_append, List.length_singleton]; omega

theorem spiRead_keeps {wq : List Instr} (s : State) (n : Nat) (hs : Upheld wq s) :
    Upheld wq (State.spiRead s n) := by
  unfold State.spiRead
  repeat' (with_reducible first
    | assumption | intro _ | apply refillFifo_keeps | apply Upheld.ite | extract_lets | split
    | refine Upheld.of_pair ?_ (by assumption) | ((conv => arg 2; arg 27); apply Upheld.of_mk) | apply drop_le
    | exact (‹Upheld wq _›).sound.stack | exact (‹Upheld wq _›).sound.spi | exact (‹Upheld wq _›).sound.window
    | exact (‹Upheld wq _›).sound.queue | exact (‹Upheld wq _›).sound.keys | dsimp +zetaDelta only)

end Sys2Proof.Machine
end

