-- ==== Sys2Proof/Laws/KeepsBusFrames.lean ====
section
/-!
SUPPORT. Every state that Machine/BusFrames.lean builds from a sound state is sound, with the same commands waiting.
-/
namespace Sys2Proof.Machine

theorem nodeClash_keeps {wq : List Instr} (s : State) (c : Bus) (id : Nat) (hs : Upheld wq s) :
    Upheld wq (State.nodeClash s c id) := by
  unfold State.nodeClash
  repeat' (with_reducible first
    | assumption | intro _ | apply setChan_keeps | apply incSat_keeps | apply pushLog_keeps | apply Upheld.ite | extract_lets
    | split | ((conv => arg 2; arg 27); apply Upheld.of_mk) | exact (‹Upheld wq _›).sound.stack
    | exact (‹Upheld wq _›).sound.spi | exact (‹Upheld wq _›).sound.window | exact (‹Upheld wq _›).sound.queue
    | exact (‹Upheld wq _›).sound.keys | dsimp +zetaDelta only)

theorem toPilot_keeps {wq : List Instr} (s : State) (c : Bus) (f : CanFrame) (stamp : Nat) (hs : Upheld wq s) :
    Upheld wq (State.toPilot s c f stamp) := by
  unfold State.toPilot
  repeat' (with_reducible first
    | assumption | intro _ | apply setChan_keeps | apply Upheld.ite | extract_lets | split
    | ((conv => arg 2; arg 27); apply Upheld.of_mk) | exact (‹Upheld wq _›).sound.stack | exact (‹Upheld wq _›).sound.spi
    | exact (‹Upheld wq _›).sound.window | exact (‹Upheld wq _›).sound.queue | exact (‹Upheld wq _›).sound.keys
    | dsimp +zetaDelta only)

theorem netIgnore_keeps {wq : List Instr} (s : State) (hs : Upheld wq s) :
    Upheld wq (State.netIgnore s) := by
  unfold State.netIgnore
  repeat' (with_reducible first
    | assumption | intro _ | extract_lets | ((conv => arg 2; arg 27); apply Upheld.of_mk) | exact (‹Upheld wq _›).sound.stack
    | exact (‹Upheld wq _›).sound.spi | exact (‹Upheld wq _›).sound.window | exact (‹Upheld wq _›).sound.queue
    | exact (‹Upheld wq _›).sound.keys | dsimp +zetaDelta only)

theorem takeValue_keeps {wq : List Instr} (s : State) (c : Bus) (k r raw stamp : Nat) (hs : Upheld wq s) :
    Upheld wq (State.takeValue s c k r raw stamp) := by
  unfold State.takeValue
  repeat' (with_reducible first
    | assumption | intro _ | apply Upheld.foldl | apply Upheld.ite | extract_lets | split
    | refine Upheld.of_pair ?_ (by assumption) | ((conv => arg 2; arg 27); apply Upheld.of_mk)
    | exact (‹Upheld wq _›).sound.stack | exact (‹Upheld wq _›).sound.spi | exact (‹Upheld wq _›).sound.window
    | exact (‹Upheld wq _›).sound.queue | exact (‹Upheld wq _›).sound.keys | dsimp +zetaDelta only)

theorem exchangeFrame_keeps {wq : List Instr} (s : State) (c : Bus) (f : CanFrame) (stamp : Nat) (hs : Upheld wq s) :
    Upheld wq (State.exchangeFrame s c f stamp) := by
  unfold State.exchangeFrame
  repeat' (with_reducible first
    | assumption | intro _ | apply takeValue_keeps | apply Upheld.foldl | apply Upheld.ite | extract_lets | split
    | dsimp +zetaDelta only)

theorem recDown_keeps {wq : List Instr} (s : State) (c : Bus) (hs : Upheld wq s) :
    Upheld wq (State.recDown s c) := by
  unfold State.recDown
  repeat' (with_reducible first
    | assumption | intro _ | apply setChan_keeps | apply tickFree_keeps | apply Upheld.ite | extract_lets | split
    | ((conv => arg 2; arg 27); apply Upheld.of_mk) | exact (‹Upheld wq _›).sound.stack | exact (‹Upheld wq _›).sound.spi
    | exact (‹Upheld wq _›).sound.window | exact (‹Upheld wq _›).sound.queue | exact (‹Upheld wq _›).sound.keys
    | dsimp +zetaDelta only)

theorem routeFrame_keeps {wq : List Instr} (s : State) (c : Bus) (f : CanFrame) (stamp : Nat) (hs : Upheld wq s) :
    Upheld wq (State.routeFrame s c f stamp) := by
  unfold State.routeFrame
  repeat' (with_reducible first
    | assumption | intro _ | apply ledgerFrame_keeps | apply netIgnore_keeps | apply toPilot_keeps | apply masterHeard_keeps
    | apply exchangeFrame_keeps | apply syncTime_keeps | apply Upheld.ite | extract_lets | split | dsimp +zetaDelta only)

theorem drainFifo_keeps {wq : List Instr} (s : State) (c : Bus) (hs : Upheld wq s) :
    Upheld wq (State.drainFifo s c) := by
  unfold State.drainFifo
  repeat' (with_reducible first
    | assumption | intro _ | apply setChan_keeps | extract_lets | ((conv => arg 2; arg 27); apply Upheld.of_mk)
    | exact (‹Upheld wq _›).sound.stack | exact (‹Upheld wq _›).sound.spi | exact (‹Upheld wq _›).sound.window
    | exact (‹Upheld wq _›).sound.queue | exact (‹Upheld wq _›).sound.keys | dsimp +zetaDelta only)

theorem takeNet_keeps {wq : List Instr} (s : State) (c : Bus) (code : Nat) (hs : Upheld wq s) (p : CanFrame × State)
    (e : s.takeNet c code = some p) : Upheld wq p.2 := by
  unfold State.takeNet at e
  split at e
  · cases e
  · dsimp only at e
    split at e
    · split at e
      · cases e; exact setChan_keeps _ _ _ (drainFifo_keeps _ _ hs)
      · cases e
    · cases e

theorem sendGroups_keeps {wq : List Instr} (s : State) (hs : Upheld wq s) :
    Upheld wq (State.sendGroups s) := by
  unfold State.sendGroups
  repeat' (with_reducible first
    | assumption | intro _ | apply enqueue_keeps | apply Upheld.foldl | extract_lets | dsimp +zetaDelta only)

theorem sendMissing_keeps {wq : List Instr} (s : State) (k : Checkpoint) (hs : Upheld wq s) :
    Upheld wq (State.sendMissing s k) := by
  unfold State.sendMissing
  repeat' (with_reducible first
    | assumption | intro _ | apply enqueue_keeps | apply Upheld.foldl | extract_lets | dsimp +zetaDelta only)

theorem resumeTick_keeps {wq : List Instr} (s : State) (hs : Upheld wq s) : Upheld wq (State.resumeTick s) := by
  unfold State.resumeTick
  repeat' (with_reducible first
    | assumption | intro _ | apply updateZones_keeps | apply runLoops_keeps | apply sendMissing_keeps | apply sendGroups_keeps
    | apply Upheld.ite | extract_lets | split | dsimp +zetaDelta only)

theorem nextArbitration_keeps {wq : List Instr} (s : State) (c : Bus) (hs : Upheld wq s) :
    Upheld wq (State.nextArbitration s c) := by
  unfold State.nextArbitration
  repeat' (with_reducible first
    | assumption | intro _ | apply setChan_keeps | apply Upheld.ite | extract_lets | split
    | ((conv => arg 2; arg 27); apply Upheld.of_mk) | exact (‹Upheld wq _›).sound.stack | exact (‹Upheld wq _›).sound.spi
    | exact (‹Upheld wq _›).sound.window | exact (‹Upheld wq _›).sound.queue | exact (‹Upheld wq _›).sound.keys
    | dsimp +zetaDelta only)

theorem copyHeld_keeps {wq : List Instr} (s : State) (c : Bus) (q : Nat) (f : TxFrame) (hs : Upheld wq s) :
    Upheld wq (State.copyHeld s c q f) := by
  unfold State.copyHeld
  repeat' (with_reducible first
    | assumption | intro _ | apply enqueue_keeps | apply setChan_keeps | apply Upheld.ite | extract_lets | split
    | refine Upheld.of_pair ?_ (by assumption) | ((conv => arg 2; arg 27); apply Upheld.of_mk)
    | exact (‹Upheld wq _›).sound.stack | exact (‹Upheld wq _›).sound.spi | exact (‹Upheld wq _›).sound.window
    | exact (‹Upheld wq _›).sound.queue | exact (‹Upheld wq _›).sound.keys | dsimp +zetaDelta only)

theorem goBusOff_keeps {wq : List Instr} (s : State) (c : Bus) (q : Nat) (f : TxFrame) (hs : Upheld wq s) :
    Upheld wq (State.goBusOff s c q f) := by
  unfold State.goBusOff
  repeat' (with_reducible first
    | assumption | intro _ | apply setChan_keeps | apply tickFree_keeps | apply copyHeld_keeps | apply pushLog_keeps
    | apply alarmOf_keeps | apply Upheld.ite | extract_lets | split | ((conv => arg 2; arg 27); apply Upheld.of_mk)
    | exact (‹Upheld wq _›).sound.stack | exact (‹Upheld wq _›).sound.spi | exact (‹Upheld wq _›).sound.window
    | exact (‹Upheld wq _›).sound.queue | exact (‹Upheld wq _›).sound.keys | dsimp +zetaDelta only)

theorem busRecovered_keeps {wq : List Instr} (s : State) (c : Bus) (hs : Upheld wq s) :
    Upheld wq (State.busRecovered s c) := by
  unfold State.busRecovered
  repeat' (with_reducible first
    | assumption | intro _ | apply setChan_keeps | apply pushLog_keeps | apply alarmOf_keeps | apply Upheld.ite | extract_lets
    | split | ((conv => arg 2; arg 27); apply Upheld.of_mk) | exact (‹Upheld wq _›).sound.stack
    | exact (‹Upheld wq _›).sound.spi | exact (‹Upheld wq _›).sound.window | exact (‹Upheld wq _›).sound.queue
    | exact (‹Upheld wq _›).sound.keys | dsimp +zetaDelta only)

theorem bulkDone_keeps {wq : List Instr} (s : State) (c : Bus) (f : CanFrame) (hs : Upheld wq s) :
    Upheld wq (State.bulkDone s c f) := by
  unfold State.bulkDone
  repeat' (with_reducible first
    | assumption | intro _ | apply Upheld.ite | extract_lets | split | ((conv => arg 2; arg 27); apply Upheld.of_mk)
    | exact (‹Upheld wq _›).sound.stack | exact (‹Upheld wq _›).sound.spi | exact (‹Upheld wq _›).sound.window
    | exact (‹Upheld wq _›).sound.queue | exact (‹Upheld wq _›).sound.keys | dsimp +zetaDelta only)

end Sys2Proof.Machine
end

