-- ==== Sys2Proof/Laws/KeepsLedgerRead.lean ====
section
/-!
SUPPORT. Every state that Machine/LedgerRead.lean builds from a sound state is sound, with the same commands waiting.
-/
namespace Sys2Proof.Machine

theorem afterRead_keeps {wq : List Instr} (s : State) (key : Nat) (hs : Upheld wq s) :
    Upheld wq (State.afterRead s key) := by
  unfold State.afterRead
  repeat' (with_reducible first
    | assumption | intro _ | apply setChan_keeps | apply Upheld.ite | extract_lets | split
    | ((conv => arg 2; arg 27); apply Upheld.of_mk) | exact (‹Upheld wq _›).sound.stack | exact (‹Upheld wq _›).sound.spi
    | exact (‹Upheld wq _›).sound.window | exact (‹Upheld wq _›).sound.queue | exact (‹Upheld wq _›).sound.keys
    | dsimp +zetaDelta only)

end Sys2Proof.Machine
end

