-- ==== Sys2Proof/Laws/KeepsBus.lean ====
section
/-!
SUPPORT. Every state that Machine/Bus.lean builds from a sound state is sound, with the same commands waiting.
-/
namespace Sys2Proof.Machine

theorem busModeWritten_keeps {wq : List Instr} (s : State) (c : Bus) (v : Nat) (hs : Upheld wq s) :
    Upheld wq (State.busModeWritten s c v) := by
  unfold State.busModeWritten
  repeat' (with_reducible first
    | assumption | intro _ | apply setChan_keeps | apply request_keeps | apply Upheld.ite | extract_lets | split
    | ((conv => arg 2; arg 27); apply Upheld.of_mk) | exact (‹Upheld wq _›).sound.stack | exact (‹Upheld wq _›).sound.spi
    | exact (‹Upheld wq _›).sound.window | exact (‹Upheld wq _›).sound.queue | exact (‹Upheld wq _›).sound.keys
    | dsimp +zetaDelta only)

theorem busModeRule_keeps {wq : List Instr} (c : Bus) (s : State) (v : Nat) (hs : Upheld wq s) :
    Upheld wq (busModeRule c s v).2 := by
  unfold busModeRule
  repeat' (with_reducible first
    | assumption | intro _ | apply andThen_keeps | apply plainRule_keeps | apply busModeWritten_keeps | dsimp +zetaDelta only)

theorem execBusModeWrite_keeps {wq : List Instr} (c : Bus) (w : Wr) (s : State) (hs : Upheld wq s) :
    ∃ s', execBusModeWrite c w s = .next s' ∧ Upheld wq s' := by
  unfold execBusModeWrite
  refine ⟨_, rfl, ?_⟩
  repeat' (with_reducible first
    | assumption | intro _ | apply ledgerWrite_keeps | apply busModeRule_keeps | dsimp +zetaDelta only)

theorem execBusModeApply_keeps {wq : List Instr} (c : Bus) (s : State) (hs : Upheld wq s) :
    ∃ s', execBusModeApply c s = .next s' ∧ Upheld wq s' := by
  unfold execBusModeApply
  refine ⟨_, rfl, ?_⟩
  repeat' (with_reducible first
    | assumption | intro _ | apply request_keeps | apply setChan_keeps | extract_lets | split
    | refine Upheld.of_pair ?_ (by assumption) | ((conv => arg 2; arg 27); apply Upheld.of_mk)
    | exact (‹Upheld wq _›).sound.stack | exact (‹Upheld wq _›).sound.spi | exact (‹Upheld wq _›).sound.window
    | exact (‹Upheld wq _›).sound.queue | exact (‹Upheld wq _›).sound.keys | dsimp +zetaDelta only)

theorem execBusIntegrated_keeps {wq : List Instr} (c : Bus) (s : State) (hs : Upheld wq s) :
    ∃ s', execBusIntegrated c s = .next s' ∧ Upheld wq s' := by
  unfold execBusIntegrated
  refine ⟨_, rfl, ?_⟩
  repeat' (with_reducible first
    | assumption | intro _ | apply setChan_keeps | apply nextArbitration_keeps | apply Upheld.ite | extract_lets | split
    | ((conv => arg 2; arg 27); apply Upheld.of_mk) | exact (‹Upheld wq _›).sound.stack | exact (‹Upheld wq _›).sound.spi
    | exact (‹Upheld wq _›).sound.window | exact (‹Upheld wq _›).sound.queue | exact (‹Upheld wq _›).sound.keys
    | dsimp +zetaDelta only)

theorem execBusProbeEnd_keeps {wq : List Instr} (c : Bus) (s : State) (hs : Upheld wq s) :
    ∃ s', execBusProbeEnd c s = .next s' ∧ Upheld wq s' := by
  unfold execBusProbeEnd
  refine ⟨_, rfl, ?_⟩
  repeat' (with_reducible first
    | assumption | intro _ | apply setChan_keeps | apply Upheld.ite | extract_lets | split
    | refine Upheld.of_pair ?_ (by assumption) | ((conv => arg 2; arg 27); apply Upheld.of_mk)
    | exact (‹Upheld wq _›).sound.stack | exact (‹Upheld wq _›).sound.spi | exact (‹Upheld wq _›).sound.window
    | exact (‹Upheld wq _›).sound.queue | exact (‹Upheld wq _›).sound.keys | dsimp +zetaDelta only)

theorem busTimingRule_keeps {wq : List Instr} (c : Bus) (sub : Nat) (s : State) (v : Nat) (hs : Upheld wq s) :
    Upheld wq (busTimingRule c sub s v).2 := by
  unfold busTimingRule
  repeat' (with_reducible first
    | assumption | intro _ | apply putEntry_keeps | apply Upheld.ite | extract_lets | split | dsimp +zetaDelta only)

theorem execBusTimingWrite_keeps {wq : List Instr} (c : Bus) (sub : Nat) (w : Wr) (s : State) (hs : Upheld wq s) :
    ∃ s', execBusTimingWrite c sub w s = .next s' ∧ Upheld wq s' := by
  unfold execBusTimingWrite
  refine ⟨_, rfl, ?_⟩
  repeat' (with_reducible first
    | assumption | intro _ | apply ledgerWrite_keeps | apply busTimingRule_keeps | extract_lets | dsimp +zetaDelta only)

theorem tripleSampleRule_keeps {wq : List Instr} (c : Bus) (s : State) (v : Nat) (hs : Upheld wq s) :
    Upheld wq (tripleSampleRule c s v).2 := by
  unfold tripleSampleRule
  repeat' (with_reducible first
    | assumption | intro _ | apply plainRule_keeps | apply Upheld.ite | split | dsimp +zetaDelta only)

theorem execTripleSampleWrite_keeps {wq : List Instr} (c : Bus) (w : Wr) (s : State) (hs : Upheld wq s) :
    ∃ s', execTripleSampleWrite c w s = .next s' ∧ Upheld wq s' := by
  unfold execTripleSampleWrite
  refine ⟨_, rfl, ?_⟩
  repeat' (with_reducible first
    | assumption | intro _ | apply ledgerWrite_keeps | apply tripleSampleRule_keeps | dsimp +zetaDelta only)

theorem fdException_keeps {wq : List Instr} (s : State) (c : Bus) (hs : Upheld wq s) :
    Upheld wq (State.fdException s c) := by
  unfold State.fdException
  repeat' (with_reducible first
    | assumption | intro _ | apply setChan_keeps | extract_lets | ((conv => arg 2; arg 27); apply Upheld.of_mk)
    | exact (‹Upheld wq _›).sound.stack | exact (‹Upheld wq _›).sound.spi | exact (‹Upheld wq _›).sound.window
    | exact (‹Upheld wq _›).sound.queue | exact (‹Upheld wq _›).sound.keys | dsimp +zetaDelta only)

theorem execCanFrameReceived_keeps {wq : List Instr} (c : Bus) (f : CanFrame) (stamp : Nat) (s : State) (hs : Upheld wq s) :
    ∃ s', execCanFrameReceived c f stamp s = .next s' ∧ Upheld wq s' := by
  unfold execCanFrameReceived
  refine ⟨_, rfl, ?_⟩
  repeat' (with_reducible first
    | assumption | intro _ | apply fdException_keeps | apply recDown_keeps | apply setChan_keeps | apply nodeClash_keeps
    | apply routeFrame_keeps | apply Upheld.ite | extract_lets | split | ((conv => arg 2; arg 27); apply Upheld.of_mk)
    | exact (‹Upheld wq _›).sound.stack | exact (‹Upheld wq _›).sound.spi | exact (‹Upheld wq _›).sound.window
    | exact (‹Upheld wq _›).sound.queue | exact (‹Upheld wq _›).sound.keys | dsimp +zetaDelta only)

theorem execCanTxComplete_keeps {wq : List Instr} (c : Bus) (stamp : Nat) (s : State) (hs : Upheld wq s) :
    ∃ s', execCanTxComplete c stamp s = .next s' ∧ Upheld wq s' := by
  unfold execCanTxComplete
  refine ⟨_, rfl, ?_⟩
  repeat' (with_reducible first
    | assumption | intro _ | apply setChan_keeps | apply bulkDone_keeps | apply busRecovered_keeps | apply nextArbitration_keeps
    | apply Upheld.ite | extract_lets | split | refine Upheld.of_pair ?_ (by assumption)
    | ((conv => arg 2; arg 27); apply Upheld.of_mk) | apply drop_le | exact (‹Upheld wq _›).sound.stack
    | exact (‹Upheld wq _›).sound.spi | exact (‹Upheld wq _›).sound.window | exact (‹Upheld wq _›).sound.queue
    | exact (‹Upheld wq _›).sound.keys | dsimp +zetaDelta only)

theorem execCanTxError_keeps {wq : List Instr} (c : Bus) (e : TxError) (s : State) (hs : Upheld wq s) :
    ∃ s', execCanTxError c e s = .next s' ∧ Upheld wq s' := by
  unfold execCanTxError
  refine ⟨_, rfl, ?_⟩
  repeat' (with_reducible first
    | assumption | intro _ | apply nextArbitration_keeps | apply setChan_keeps | apply goBusOff_keeps | apply Upheld.ite
    | extract_lets | split | refine Upheld.of_pair ?_ (by assumption) | ((conv => arg 2; arg 27); apply Upheld.of_mk)
    | exact (‹Upheld wq _›).sound.stack | exact (‹Upheld wq _›).sound.spi | exact (‹Upheld wq _›).sound.window
    | exact (‹Upheld wq _›).sound.queue | exact (‹Upheld wq _›).sound.keys | dsimp +zetaDelta only)

theorem execBusoffRecoveryDone_keeps {wq : List Instr} (c : Bus) (s : State) (hs : Upheld wq s) :
    ∃ s', execBusoffRecoveryDone c s = .next s' ∧ Upheld wq s' := by
  unfold execBusoffRecoveryDone
  refine ⟨_, rfl, ?_⟩
  repeat' (with_reducible first
    | assumption | intro _ | apply setChan_keeps | apply nextArbitration_keeps | apply Upheld.ite | extract_lets | split
    | ((conv => arg 2; arg 27); apply Upheld.of_mk) | exact (‹Upheld wq _›).sound.stack | exact (‹Upheld wq _›).sound.spi
    | exact (‹Upheld wq _›).sound.window | exact (‹Upheld wq _›).sound.queue | exact (‹Upheld wq _›).sound.keys
    | dsimp +zetaDelta only)

theorem execProtocolError_keeps {wq : List Instr} (c : Bus) (e : RxError) (s : State) (hs : Upheld wq s) :
    ∃ s', execProtocolError c e s = .next s' ∧ Upheld wq s' := by
  unfold execProtocolError
  refine ⟨_, rfl, ?_⟩
  repeat' (with_reducible first
    | assumption | intro _ | apply fdException_keeps | apply setChan_keeps | apply Upheld.ite | extract_lets | split
    | refine Upheld.of_pair ?_ (by assumption) | ((conv => arg 2; arg 27); apply Upheld.of_mk)
    | exact (‹Upheld wq _›).sound.stack | exact (‹Upheld wq _›).sound.spi | exact (‹Upheld wq _›).sound.window
    | exact (‹Upheld wq _›).sound.queue | exact (‹Upheld wq _›).sound.keys | dsimp +zetaDelta only)

theorem execBwHoldExpiry_keeps {wq : List Instr} (n : Nat) (s : State) (hs : Upheld wq s) :
    ∃ s', execBwHoldExpiry n s = .next s' ∧ Upheld wq s' := by
  unfold execBwHoldExpiry
  refine ⟨_, rfl, ?_⟩
  repeat' (with_reducible first
    | assumption | intro _ | apply withBw_keeps | apply releaseSource_keeps | apply Upheld.ite | extract_lets | split
    | refine Upheld.of_pair ?_ (by assumption) | ((conv => arg 2; arg 27); apply Upheld.of_mk)
    | exact (‹Upheld wq _›).sound.stack | exact (‹Upheld wq _›).sound.spi | exact (‹Upheld wq _›).sound.window
    | exact (‹Upheld wq _›).sound.queue | exact (‹Upheld wq _›).sound.keys | dsimp +zetaDelta only)

theorem execBwSummary_keeps {wq : List Instr} (s : State) (hs : Upheld wq s) :
    ∃ s', execBwSummary s = .next s' ∧ Upheld wq s' := by
  unfold execBwSummary
  refine ⟨_, rfl, ?_⟩
  repeat' (with_reducible first
    | assumption | intro _ | apply releaseFrame_keeps | apply withBw_keeps | apply Upheld.ite | extract_lets | split
    | ((conv => arg 2; arg 27); apply Upheld.of_mk) | exact (‹Upheld wq _›).sound.stack | exact (‹Upheld wq _›).sound.spi
    | exact (‹Upheld wq _›).sound.window | exact (‹Upheld wq _›).sound.queue | exact (‹Upheld wq _›).sound.keys
    | dsimp +zetaDelta only)

theorem sendHeartbeat_keeps {wq : List Instr} (s : State) (hs : Upheld wq s) :
    Upheld wq (State.sendHeartbeat s) := by
  unfold State.sendHeartbeat
  repeat' (with_reducible first
    | assumption | intro _ | apply enqueue_keeps | apply Upheld.foldl | apply Upheld.ite | split | dsimp +zetaDelta only)

theorem dueHeartbeat_keeps {wq : List Instr} (s : State) (hs : Upheld wq s) :
    Upheld wq (State.dueHeartbeat s) := by
  unfold State.dueHeartbeat
  repeat' (with_reducible first
    | assumption | intro _ | apply sendHeartbeat_keeps | apply Upheld.ite | split
    | ((conv => arg 2; arg 27); apply Upheld.of_mk) | exact (‹Upheld wq _›).sound.stack | exact (‹Upheld wq _›).sound.spi
    | exact (‹Upheld wq _›).sound.window | exact (‹Upheld wq _›).sound.queue | exact (‹Upheld wq _›).sound.keys
    | dsimp +zetaDelta only)

theorem execDeviceHeartbeat_keeps {wq : List Instr} (s : State) (hs : Upheld wq s) :
    ∃ s', execDeviceHeartbeat s = .next s' ∧ Upheld wq s' := by
  unfold execDeviceHeartbeat
  refine ⟨_, rfl, ?_⟩
  repeat' (with_reducible first
    | assumption | intro _ | apply sendHeartbeat_keeps | apply Upheld.ite | split
    | ((conv => arg 2; arg 27); apply Upheld.of_mk) | exact (‹Upheld wq _›).sound.stack | exact (‹Upheld wq _›).sound.spi
    | exact (‹Upheld wq _›).sound.window | exact (‹Upheld wq _›).sound.queue | exact (‹Upheld wq _›).sound.keys
    | dsimp +zetaDelta only)

theorem execNetHeartbeatNow_keeps {wq : List Instr} (c : Bus) (s : State) (hs : Upheld wq s) :
    ∃ s', execNetHeartbeatNow c s = .next s' ∧ Upheld wq s' := by
  unfold execNetHeartbeatNow
  refine ⟨_, rfl, ?_⟩
  repeat' (with_reducible first
    | assumption | intro _ | apply sendHeartbeat_keeps | extract_lets | split | refine Upheld.of_pair ?_ (by assumption)
    | ((conv => arg 2; arg 27); apply Upheld.of_mk) | exact (‹Upheld wq _›).sound.stack | exact (‹Upheld wq _›).sound.spi
    | exact (‹Upheld wq _›).sound.window | exact (‹Upheld wq _›).sound.queue | exact (‹Upheld wq _›).sound.keys
    | exact takeNet_keeps _ _ _ hs _ ‹_› | dsimp +zetaDelta only)

theorem execNetLockAll_keeps {wq : List Instr} (c : Bus) (s : State) (hs : Upheld wq s) :
    ∃ s', execNetLockAll c s = .next s' ∧ Upheld wq s' := by
  unfold execNetLockAll
  refine ⟨_, rfl, ?_⟩
  repeat' (with_reducible first
    | assumption | intro _ | apply withKlp_keeps | extract_lets | split | refine Upheld.of_pair ?_ (by assumption)
    | ((conv => arg 2; arg 27); apply Upheld.of_mk) | exact (‹Upheld wq _›).sound.stack | exact (‹Upheld wq _›).sound.spi
    | exact (‹Upheld wq _›).sound.window | exact (‹Upheld wq _›).sound.queue | exact (‹Upheld wq _›).sound.keys
    | exact takeNet_keeps _ _ _ hs _ ‹_› | dsimp +zetaDelta only)

theorem execNetQuiet_keeps {wq : List Instr} (c : Bus) (s : State) (hs : Upheld wq s) :
    ∃ s', execNetQuiet c s = .next s' ∧ Upheld wq s' := by
  unfold execNetQuiet
  refine ⟨_, rfl, ?_⟩
  repeat' (with_reducible first
    | assumption | intro _ | apply setChan_keeps | apply Upheld.foldl | apply Upheld.ite | extract_lets | split
    | refine Upheld.of_pair ?_ (by assumption) | ((conv => arg 2; arg 27); apply Upheld.of_mk)
    | exact (‹Upheld wq _›).sound.stack | exact (‹Upheld wq _›).sound.spi | exact (‹Upheld wq _›).sound.window
    | exact (‹Upheld wq _›).sound.queue | exact (‹Upheld wq _›).sound.keys | exact takeNet_keeps _ _ _ hs _ ‹_›
    | dsimp +zetaDelta only)

theorem execQuietEnd_keeps {wq : List Instr} (s : State) (hs : Upheld wq s) :
    ∃ s', execQuietEnd s = .next s' ∧ Upheld wq s' := by
  unfold execQuietEnd
  refine ⟨_, rfl, ?_⟩
  repeat' (with_reducible first
    | assumption | intro _ | apply setChan_keeps | apply Upheld.foldl | apply Upheld.ite | extract_lets | split
    | ((conv => arg 2; arg 27); apply Upheld.of_mk) | exact (‹Upheld wq _›).sound.stack | exact (‹Upheld wq _›).sound.spi
    | exact (‹Upheld wq _›).sound.window | exact (‹Upheld wq _›).sound.queue | exact (‹Upheld wq _›).sound.keys
    | dsimp +zetaDelta only)

theorem execNetTimeRequest_keeps {wq : List Instr} (c : Bus) (s : State) (hs : Upheld wq s) :
    ∃ s', execNetTimeRequest c s = .next s' ∧ Upheld wq s' := by
  unfold execNetTimeRequest
  refine ⟨_, rfl, ?_⟩
  repeat' (with_reducible first
    | assumption | intro _ | apply sendTime_keeps | extract_lets | split | refine Upheld.of_pair ?_ (by assumption)
    | ((conv => arg 2; arg 27); apply Upheld.of_mk) | exact (‹Upheld wq _›).sound.stack | exact (‹Upheld wq _›).sound.spi
    | exact (‹Upheld wq _›).sound.window | exact (‹Upheld wq _›).sound.queue | exact (‹Upheld wq _›).sound.keys
    | exact takeNet_keeps _ _ _ hs _ ‹_› | dsimp +zetaDelta only)

end Sys2Proof.Machine
end

