-- ==== Sys2Proof/Laws/KeepsWindow.lean ====
section
/-!
SUPPORT. Every state that Machine/Window.lean builds from a sound state is sound, with the same commands waiting.
-/
namespace Sys2Proof.Machine

theorem windowDo_keeps {wq : List Instr} (s : State) (f : State → State) (hs : Upheld wq s) (hf : ∀ t, Upheld wq t → Upheld wq (f t)) :
    Upheld wq (State.windowDo s f) := by
  unfold State.windowDo
  repeat' (with_reducible first
    | assumption | intro _ | apply closeOpen_keeps | apply spiOutput_keeps | apply Upheld.ite | apply hf | split
    | dsimp +zetaDelta only)

theorem setWel_keeps {wq : List Instr} (s : State) (b : Bool) (hs : Upheld wq s) :
    Upheld wq (State.setWel s b) := by
  unfold State.setWel
  repeat' (with_reducible first
    | assumption | intro _ | apply withNv_keeps | extract_lets | ((conv => arg 2; arg 27); apply Upheld.of_mk)
    | exact (‹Upheld wq _›).sound.stack | exact (‹Upheld wq _›).sound.spi | exact (‹Upheld wq _›).sound.window
    | exact (‹Upheld wq _›).sound.queue | exact (‹Upheld wq _›).sound.keys | dsimp +zetaDelta only)

theorem execNvWren_keeps {wq : List Instr} (s : State) (hs : Upheld wq s) :
    ∃ s', execNvWren s = .next s' ∧ Upheld wq s' := by
  unfold execNvWren
  refine ⟨_, rfl, ?_⟩
  repeat' (with_reducible first | assumption | intro _ | apply windowDo_keeps | apply setWel_keeps | dsimp +zetaDelta only)

theorem execNvWrdi_keeps {wq : List Instr} (s : State) (hs : Upheld wq s) :
    ∃ s', execNvWrdi s = .next s' ∧ Upheld wq s' := by
  unfold execNvWrdi
  refine ⟨_, rfl, ?_⟩
  repeat' (with_reducible first | assumption | intro _ | apply windowDo_keeps | apply setWel_keeps | dsimp +zetaDelta only)

theorem execNvRdsr_keeps {wq : List Instr} (n : Nat) (s : State) (hs : Upheld wq s) :
    ∃ s', execNvRdsr n s = .next s' ∧ Upheld wq s' := by
  unfold execNvRdsr
  refine ⟨_, rfl, ?_⟩
  repeat' (with_reducible first | assumption | intro _ | apply windowDo_keeps | apply spiOutput_keeps | dsimp +zetaDelta only)

theorem execNvWrsr_keeps {wq : List Instr} (b : Nat) (s : State) (hs : Upheld wq s) :
    ∃ s', execNvWrsr b s = .next s' ∧ Upheld wq s' := by
  unfold execNvWrsr
  refine ⟨_, rfl, ?_⟩
  repeat' (with_reducible first
    | assumption | intro _ | apply windowDo_keeps | apply putEntry_keeps | apply Upheld.ite | split | dsimp +zetaDelta only)

theorem windowRead_keeps {wq : List Instr} (s : State) (addr n : Nat) (hs : Upheld wq s) :
    Upheld wq (State.windowRead s addr n) := by
  unfold State.windowRead
  repeat' (with_reducible first
    | assumption | intro _ | apply windowDo_keeps | apply readBytes_keeps | apply spiOutput_keeps | extract_lets
    | dsimp +zetaDelta only)

theorem execNvRead_keeps {wq : List Instr} (addr n : Nat) (s : State) (hs : Upheld wq s) :
    ∃ s', execNvRead addr n s = .next s' ∧ Upheld wq s' := by
  unfold execNvRead
  refine ⟨_, rfl, ?_⟩
  repeat' (with_reducible first | assumption | intro _ | apply windowRead_keeps | dsimp +zetaDelta only)

theorem execNvFastRead_keeps {wq : List Instr} (addr n : Nat) (s : State) (hs : Upheld wq s) :
    ∃ s', execNvFastRead addr n s = .next s' ∧ Upheld wq s' := by
  unfold execNvFastRead
  refine ⟨_, rfl, ?_⟩
  repeat' (with_reducible first | assumption | intro _ | apply windowRead_keeps | dsimp +zetaDelta only)

theorem writeIgnored_keeps {wq : List Instr} (s : State) (hs : Upheld wq s) :
    Upheld wq (State.writeIgnored s) := by
  unfold State.writeIgnored
  repeat' (with_reducible first
    | assumption | intro _ | apply withNv_keeps | extract_lets | ((conv => arg 2; arg 27); apply Upheld.of_mk)
    | exact (‹Upheld wq _›).sound.stack | exact (‹Upheld wq _›).sound.spi | exact (‹Upheld wq _›).sound.window
    | exact (‹Upheld wq _›).sound.queue | exact (‹Upheld wq _›).sound.keys | dsimp +zetaDelta only)

theorem execNvWrite_keeps {wq : List Instr} (addr : Nat) (bytes : List Nat) (cont : Bool) (s : State) (hs : Upheld wq s) :
    ∃ s', execNvWrite addr bytes cont s = .next s' ∧ Upheld wq s' := by
  unfold execNvWrite
  refine ⟨_, rfl, ?_⟩
  repeat' (with_reducible first
    | assumption | intro _ | apply windowDo_keeps | apply writeIgnored_keeps | apply closeOpen_keeps | apply writeBytes_keeps
    | apply Upheld.ite | extract_lets | split | dsimp +zetaDelta only)

theorem execNvRder_keeps {wq : List Instr} (n : Nat) (s : State) (hs : Upheld wq s) :
    ∃ s', execNvRder n s = .next s' ∧ Upheld wq s' := by
  unfold execNvRder
  refine ⟨_, rfl, ?_⟩
  repeat' (with_reducible first
    | assumption | intro _ | apply windowDo_keeps | apply spiOutput_keeps | apply tickFree_keeps | extract_lets | split
    | refine Upheld.of_pair ?_ (by assumption) | ((conv => arg 2; arg 27); apply Upheld.of_mk)
    | exact (‹Upheld wq _›).sound.stack | exact (‹Upheld wq _›).sound.spi | exact (‹Upheld wq _›).sound.window
    | exact (‹Upheld wq _›).sound.queue | exact (‹Upheld wq _›).sound.keys | dsimp +zetaDelta only)

theorem execNvCler_keeps {wq : List Instr} (s : State) (hs : Upheld wq s) :
    ∃ s', execNvCler s = .next s' ∧ Upheld wq s' := by
  unfold execNvCler
  refine ⟨_, rfl, ?_⟩
  repeat' (with_reducible first
    | assumption | intro _ | apply windowDo_keeps | apply withNv_keeps | extract_lets
    | ((conv => arg 2; arg 27); apply Upheld.of_mk) | exact (‹Upheld wq _›).sound.stack | exact (‹Upheld wq _›).sound.spi
    | exact (‹Upheld wq _›).sound.window | exact (‹Upheld wq _›).sound.queue | exact (‹Upheld wq _›).sound.keys
    | dsimp +zetaDelta only)

theorem execNvRdid_keeps {wq : List Instr} (n : Nat) (s : State) (hs : Upheld wq s) :
    ∃ s', execNvRdid n s = .next s' ∧ Upheld wq s' := by
  unfold execNvRdid
  refine ⟨_, rfl, ?_⟩
  repeat' (with_reducible first | assumption | intro _ | apply windowDo_keeps | apply spiOutput_keeps | dsimp +zetaDelta only)

theorem compactionGood_keeps {wq : List Instr} (s : State) (hs : Upheld wq s) :
    Upheld wq (State.compactionGood s) := by
  unfold State.compactionGood
  repeat' (with_reducible first
    | assumption | intro _ | apply withNv_keeps | apply tickFree_keeps | apply Upheld.ite | extract_lets | split
    | ((conv => arg 2; arg 27); apply Upheld.of_mk) | apply Nv.compact_wf | exact (‹Upheld wq _›).sound.stack
    | exact (‹Upheld wq _›).sound.spi | exact (‹Upheld wq _›).sound.window | exact (‹Upheld wq _›).sound.queue
    | exact (‹Upheld wq _›).sound.keys | dsimp +zetaDelta only)

theorem compactionBad_keeps {wq : List Instr} (s : State) (hs : Upheld wq s) :
    Upheld wq (State.compactionBad s) := by
  unfold State.compactionBad
  repeat' (with_reducible first
    | assumption | intro _ | apply withNv_keeps | apply pushLog_keeps | extract_lets
    | ((conv => arg 2; arg 27); apply Upheld.of_mk) | apply Nv.dropOther_wf | exact (‹Upheld wq _›).sound.stack
    | exact (‹Upheld wq _›).sound.spi | exact (‹Upheld wq _›).sound.window | exact (‹Upheld wq _›).sound.queue
    | exact (‹Upheld wq _›).sound.keys | dsimp +zetaDelta only)

theorem execCompactionDone_keeps {wq : List Instr} (ok : Bool) (s : State) (hs : Upheld wq s) :
    ∃ s', execCompactionDone ok s = .next s' ∧ Upheld wq s' := by
  unfold execCompactionDone
  refine ⟨_, rfl, ?_⟩
  repeat' (with_reducible first
    | assumption | intro _ | apply compactionGood_keeps | apply compactionBad_keeps | apply Upheld.ite | split
    | dsimp +zetaDelta only)

theorem execBucketLeak_keeps {wq : List Instr} (n : Nat) (s : State) (hs : Upheld wq s) :
    ∃ s', execBucketLeak n s = .next s' ∧ Upheld wq s' := by
  unfold execBucketLeak
  refine ⟨_, rfl, ?_⟩
  repeat' (with_reducible first
    | assumption | intro _ | apply leakBucket_keeps | apply Upheld.ite | split | dsimp +zetaDelta only)

end Sys2Proof.Machine
end

