-- ==== Sys2Proof/Laws/KeepsLogbook.lean ====
section
/-!
SUPPORT. Every state that Machine/Logbook.lean builds from a sound state is sound, with the same commands waiting.
-/
namespace Sys2Proof.Machine

theorem execLogRecordWrite_keeps {wq : List Instr} (s : State) (hs : Upheld wq s) :
    ∃ s', execLogRecordWrite s = .next s' ∧ Upheld wq s' := by
  unfold execLogRecordWrite
  refine ⟨_, rfl, ?_⟩
  repeat' (with_reducible first
    | assumption | intro _ | apply writeRecord_keeps | apply Upheld.ite | split | dsimp +zetaDelta only)

theorem streamOut_keeps {wq : List Instr} (s : State) (c : Bus) (bytes : List Nat) (cursor : Nat) (hs : Upheld wq s) :
    Upheld wq (State.streamOut s c bytes cursor) := by
  unfold State.streamOut
  repeat' (with_reducible first
    | assumption | intro _ | apply enqueue_keeps | apply withLog_keeps | apply Upheld.foldl | apply Upheld.ite | extract_lets
    | split | ((conv => arg 2; arg 27); apply Upheld.of_mk) | exact (‹Upheld wq _›).sound.stack
    | exact (‹Upheld wq _›).sound.spi | exact (‹Upheld wq _›).sound.window | exact (‹Upheld wq _›).sound.queue
    | exact (‹Upheld wq _›).sound.keys | dsimp +zetaDelta only)

theorem execLogStreamSend_keeps {wq : List Instr} (s : State) (hs : Upheld wq s) :
    ∃ s', execLogStreamSend s = .next s' ∧ Upheld wq s' := by
  unfold execLogStreamSend
  refine ⟨_, rfl, ?_⟩
  repeat' (with_reducible first
    | assumption | intro _ | apply streamOut_keeps | apply withLog_keeps | extract_lets | split
    | refine Upheld.of_pair ?_ (by assumption) | ((conv => arg 2; arg 27); apply Upheld.of_mk)
    | exact (‹Upheld wq _›).sound.stack | exact (‹Upheld wq _›).sound.spi | exact (‹Upheld wq _›).sound.window
    | exact (‹Upheld wq _›).sound.queue | exact (‹Upheld wq _›).sound.keys | dsimp +zetaDelta only)

theorem clearRing_keeps {wq : List Instr} (s : State) (id : Nat) (hs : Upheld wq s) :
    Upheld wq (State.clearRing s id) := by
  unfold State.clearRing
  repeat' (with_reducible first
    | assumption | intro _ | apply withLog_keeps | apply pushLog_keeps | extract_lets
    | ((conv => arg 2; arg 27); apply Upheld.of_mk) | exact (‹Upheld wq _›).sound.stack | exact (‹Upheld wq _›).sound.spi
    | exact (‹Upheld wq _›).sound.window | exact (‹Upheld wq _›).sound.queue | exact (‹Upheld wq _›).sound.keys
    | dsimp +zetaDelta only)

theorem logClearRule_keeps {wq : List Instr} (id : Nat) (s : State) (v : Nat) (hs : Upheld wq s) :
    Upheld wq (logClearRule id s v).2 := by
  unfold logClearRule
  repeat' (with_reducible first
    | assumption | intro _ | apply clearRing_keeps | apply withLog_keeps | apply Upheld.ite | extract_lets | split
    | ((conv => arg 2; arg 27); apply Upheld.of_mk) | exact (‹Upheld wq _›).sound.stack | exact (‹Upheld wq _›).sound.spi
    | exact (‹Upheld wq _›).sound.window | exact (‹Upheld wq _›).sound.queue | exact (‹Upheld wq _›).sound.keys
    | dsimp +zetaDelta only)

theorem execLogClearWrite_keeps {wq : List Instr} (w : Wr) (s : State) (hs : Upheld wq s) :
    ∃ s', execLogClearWrite w s = .next s' ∧ Upheld wq s' := by
  unfold execLogClearWrite
  refine ⟨_, rfl, ?_⟩
  repeat' (with_reducible first
    | assumption | intro _ | apply ledgerWrite_keeps | apply logClearRule_keeps | dsimp +zetaDelta only)

theorem execLogCursorWrite_keeps {wq : List Instr} (w : Wr) (s : State) (hs : Upheld wq s) :
    ∃ s', execLogCursorWrite w s = .next s' ∧ Upheld wq s' := by
  unfold execLogCursorWrite
  refine ⟨_, rfl, ?_⟩
  repeat' (with_reducible first
    | assumption | intro _ | apply ledgerWrite_keeps | apply withLog_keeps | ((conv => arg 2; arg 27); apply Upheld.of_mk)
    | apply Log.setCursor_le | exact (‹Upheld wq _›).sound.stack | exact (‹Upheld wq _›).sound.spi
    | exact (‹Upheld wq _›).sound.window | exact (‹Upheld wq _›).sound.queue | exact (‹Upheld wq _›).sound.keys
    | dsimp +zetaDelta only)

end Sys2Proof.Machine
end

