-- ==== Sys2Proof/Laws/KeepsClock.lean ====
section
/-!
SUPPORT. Every state that Machine/Clock.lean builds from a sound state is sound, with the same commands waiting.
-/
namespace Sys2Proof.Machine

theorem moorTo_keeps {wq : List Instr} (s : State) (m : Mooring) (hs : Upheld wq s) :
    Upheld wq (State.moorTo s m) := by
  unfold State.moorTo
  repeat' (with_reducible first
    | assumption | intro _ | apply withRtc_keeps | extract_lets | ((conv => arg 2; arg 27); apply Upheld.of_mk)
    | exact (‹Upheld wq _›).sound.stack | exact (‹Upheld wq _›).sound.spi | exact (‹Upheld wq _›).sound.window
    | exact (‹Upheld wq _›).sound.queue | exact (‹Upheld wq _›).sound.keys | dsimp +zetaDelta only)

theorem enterBackup_keeps {wq : List Instr} (s : State) (hs : Upheld wq s) :
    Upheld wq (State.enterBackup s) := by
  unfold State.enterBackup
  repeat' (with_reducible first
    | assumption | intro _ | apply withRtc_keeps | apply tickFree_keeps | apply Upheld.ite | extract_lets | split
    | ((conv => arg 2; arg 27); apply Upheld.of_mk) | exact (‹Upheld wq _›).sound.stack | exact (‹Upheld wq _›).sound.spi
    | exact (‹Upheld wq _›).sound.window | exact (‹Upheld wq _›).sound.queue | exact (‹Upheld wq _›).sound.keys
    | dsimp +zetaDelta only)

theorem execVaonLoss_keeps {wq : List Instr} (vbak : Nat) (s : State) (hs : Upheld wq s) :
    ∃ s', execVaonLoss vbak s = .next s' ∧ Upheld wq s' := by
  unfold execVaonLoss
  refine ⟨_, rfl, ?_⟩
  repeat' (with_reducible first
    | assumption | intro _ | apply enterBackup_keeps | apply moorTo_keeps | apply Upheld.ite | split | dsimp +zetaDelta only)

theorem execVaonReturn_keeps {wq : List Instr} (s : State) (hs : Upheld wq s) :
    ∃ s', execVaonReturn s = .next s' ∧ Upheld wq s' := by
  unfold execVaonReturn
  refine ⟨_, rfl, ?_⟩
  repeat' (with_reducible first | assumption | intro _ | apply moorTo_keeps | apply Upheld.ite | split | dsimp +zetaDelta only)

theorem execVbakDrop_keeps {wq : List Instr} (s : State) (hs : Upheld wq s) :
    ∃ s', execVbakDrop s = .next s' ∧ Upheld wq s' := by
  unfold execVbakDrop
  refine ⟨_, rfl, ?_⟩
  repeat' (with_reducible first | assumption | intro _ | apply moorTo_keeps | apply Upheld.ite | split | dsimp +zetaDelta only)

theorem execVbakReturn_keeps {wq : List Instr} (s : State) (hs : Upheld wq s) :
    ∃ s', execVbakReturn s = .next s' ∧ Upheld wq s' := by
  unfold execVbakReturn
  refine ⟨_, rfl, ?_⟩
  repeat' (with_reducible first
    | assumption | intro _ | apply enterBackup_keeps | apply Upheld.ite | split | dsimp +zetaDelta only)

theorem execBridgeTimeout_keeps {wq : List Instr} (s : State) (hs : Upheld wq s) :
    ∃ s', execBridgeTimeout s = .next s' ∧ Upheld wq s' := by
  unfold execBridgeTimeout
  refine ⟨_, rfl, ?_⟩
  repeat' (with_reducible first | assumption | intro _ | apply moorTo_keeps | apply Upheld.ite | split | dsimp +zetaDelta only)

theorem rtcDefaults_keeps {wq : List Instr} (s : State) (hs : Upheld wq s) :
    Upheld wq (State.rtcDefaults s) := by
  unfold State.rtcDefaults
  repeat' (with_reducible first | assumption | intro _ | apply setReg_keeps | apply Upheld.foldl | dsimp +zetaDelta only)

theorem execMooringDomainStart_keeps {wq : List Instr} (main : Bool) (s : State) (hs : Upheld wq s) :
    ∃ s', execMooringDomainStart main s = .next s' ∧ Upheld wq s' := by
  unfold execMooringDomainStart
  refine ⟨_, rfl, ?_⟩
  repeat' (with_reducible first
    | assumption | intro _ | apply withRtc_keeps | apply rtcDefaults_keeps | apply enterBackup_keeps | apply timeLost_keeps
    | apply evalPrograms_keeps | apply Upheld.ite | extract_lets | split | ((conv => arg 2; arg 27); apply Upheld.of_mk)
    | exact (‹Upheld wq _›).sound.stack | exact (‹Upheld wq _›).sound.spi | exact (‹Upheld wq _›).sound.window
    | exact (‹Upheld wq _›).sound.queue | exact (‹Upheld wq _›).sound.keys | dsimp +zetaDelta only)

theorem execXtal32Stop_keeps {wq : List Instr} (s : State) (hs : Upheld wq s) :
    ∃ s', execXtal32Stop s = .next s' ∧ Upheld wq s' := by
  unfold execXtal32Stop
  refine ⟨_, rfl, ?_⟩
  repeat' (with_reducible first
    | assumption | intro _ | apply withRtc_keeps | extract_lets | ((conv => arg 2; arg 27); apply Upheld.of_mk)
    | exact (‹Upheld wq _›).sound.stack | exact (‹Upheld wq _›).sound.spi | exact (‹Upheld wq _›).sound.window
    | exact (‹Upheld wq _›).sound.queue | exact (‹Upheld wq _›).sound.keys | dsimp +zetaDelta only)

theorem execXtal32Return_keeps {wq : List Instr} (s : State) (hs : Upheld wq s) :
    ∃ s', execXtal32Return s = .next s' ∧ Upheld wq s' := by
  unfold execXtal32Return
  refine ⟨_, rfl, ?_⟩
  repeat' (with_reducible first
    | assumption | intro _ | apply withRtc_keeps | extract_lets | ((conv => arg 2; arg 27); apply Upheld.of_mk)
    | exact (‹Upheld wq _›).sound.stack | exact (‹Upheld wq _›).sound.spi | exact (‹Upheld wq _›).sound.window
    | exact (‹Upheld wq _›).sound.queue | exact (‹Upheld wq _›).sound.keys | dsimp +zetaDelta only)

theorem rejectTime_keeps {wq : List Instr} (s : State) (v : Nat) (hs : Upheld wq s) :
    Upheld wq (State.rejectTime s v) := by
  unfold State.rejectTime
  repeat' (with_reducible first
    | assumption | intro _ | apply withRtc_keeps | apply pushLog_keeps | extract_lets
    | ((conv => arg 2; arg 27); apply Upheld.of_mk) | apply drop_le | exact (‹Upheld wq _›).sound.stack
    | exact (‹Upheld wq _›).sound.spi | exact (‹Upheld wq _›).sound.window | exact (‹Upheld wq _›).sound.queue
    | exact (‹Upheld wq _›).sound.keys | dsimp +zetaDelta only)

theorem dateTimeRule_keeps {wq : List Instr} (s : State) (v : Nat) (hs : Upheld wq s) :
    Upheld wq (dateTimeRule s v).2 := by
  unfold dateTimeRule
  repeat' (with_reducible first
    | assumption | intro _ | apply rejectTime_keeps | apply setCalendar_keeps | apply Upheld.ite | split | dsimp +zetaDelta only)

theorem execDateTimeWrite_keeps {wq : List Instr} (w : Wr) (s : State) (hs : Upheld wq s) :
    ∃ s', execDateTimeWrite w s = .next s' ∧ Upheld wq s' := by
  unfold execDateTimeWrite
  refine ⟨_, rfl, ?_⟩
  repeat' (with_reducible first
    | assumption | intro _ | apply ledgerWrite_keeps | apply dateTimeRule_keeps | dsimp +zetaDelta only)

theorem calendarOffsetRule_keeps {wq : List Instr} (s : State) (v : Nat) (hs : Upheld wq s) :
    Upheld wq (calendarOffsetRule s v).2 := by
  unfold calendarOffsetRule
  repeat' (with_reducible first
    | assumption | intro _ | apply setCalendar_keeps | apply Upheld.ite | extract_lets | split | dsimp +zetaDelta only)

theorem execCalendarOffsetWrite_keeps {wq : List Instr} (w : Wr) (s : State) (hs : Upheld wq s) :
    ∃ s', execCalendarOffsetWrite w s = .next s' ∧ Upheld wq s' := by
  unfold execCalendarOffsetWrite
  refine ⟨_, rfl, ?_⟩
  repeat' (with_reducible first
    | assumption | intro _ | apply ledgerWrite_keeps | apply calendarOffsetRule_keeps | dsimp +zetaDelta only)

theorem subsecRule_keeps {wq : List Instr} (s : State) (v : Nat) (hs : Upheld wq s) :
    Upheld wq (subsecRule s v).2 := by
  unfold subsecRule
  repeat' (with_reducible first
    | assumption | intro _ | apply startSlew_keeps | apply Upheld.ite | extract_lets | split
    | ((conv => arg 2; arg 27); apply Upheld.of_mk) | exact (‹Upheld wq _›).sound.stack | exact (‹Upheld wq _›).sound.spi
    | exact (‹Upheld wq _›).sound.window | exact (‹Upheld wq _›).sound.queue | exact (‹Upheld wq _›).sound.keys
    | dsimp +zetaDelta only)

theorem execSubsecShiftWrite_keeps {wq : List Instr} (w : Wr) (s : State) (hs : Upheld wq s) :
    ∃ s', execSubsecShiftWrite w s = .next s' ∧ Upheld wq s' := by
  unfold execSubsecShiftWrite
  refine ⟨_, rfl, ?_⟩
  repeat' (with_reducible first
    | assumption | intro _ | apply ledgerWrite_keeps | apply subsecRule_keeps | dsimp +zetaDelta only)

theorem execSubsecSlewDone_keeps {wq : List Instr} (s : State) (hs : Upheld wq s) :
    ∃ s', execSubsecSlewDone s = .next s' ∧ Upheld wq s' := by
  unfold execSubsecSlewDone
  refine ⟨_, rfl, ?_⟩
  repeat' (with_reducible first
    | assumption | intro _ | apply withRtc_keeps | extract_lets | ((conv => arg 2; arg 27); apply Upheld.of_mk)
    | exact (‹Upheld wq _›).sound.stack | exact (‹Upheld wq _›).sound.spi | exact (‹Upheld wq _›).sound.window
    | exact (‹Upheld wq _›).sound.queue | exact (‹Upheld wq _›).sound.keys | dsimp +zetaDelta only)

theorem dstRule_keeps {wq : List Instr} (s : State) (v : Nat) (hs : Upheld wq s) :
    Upheld wq (dstRule s v).2 := by
  unfold dstRule
  repeat' (with_reducible first
    | assumption | intro _ | apply dstStep_keeps | apply Upheld.ite | split | dsimp +zetaDelta only)

theorem dstWrite_keeps {wq : List Instr} (s : State) (r : Req) (code : Nat) (hs : Upheld wq s) :
    Upheld wq (State.dstWrite s r code) := by
  unfold State.dstWrite
  repeat' (with_reducible first | assumption | intro _ | apply ledgerWrite_keeps | apply dstRule_keeps | dsimp +zetaDelta only)

theorem execDstForward_keeps {wq : List Instr} (r : Req) (s : State) (hs : Upheld wq s) :
    ∃ s', execDstForward r s = .next s' ∧ Upheld wq s' := by
  unfold execDstForward
  refine ⟨_, rfl, ?_⟩
  repeat' (with_reducible first | assumption | intro _ | apply dstWrite_keeps | dsimp +zetaDelta only)

theorem execDstBack_keeps {wq : List Instr} (r : Req) (s : State) (hs : Upheld wq s) :
    ∃ s', execDstBack r s = .next s' ∧ Upheld wq s' := by
  unfold execDstBack
  refine ⟨_, rfl, ?_⟩
  repeat' (with_reducible first | assumption | intro _ | apply dstWrite_keeps | dsimp +zetaDelta only)

theorem execCalendarSecond_keeps {wq : List Instr} (s : State) (hs : Upheld wq s) :
    ∃ s', execCalendarSecond s = .next s' ∧ Upheld wq s' := by
  unfold execCalendarSecond
  refine ⟨_, rfl, ?_⟩
  repeat' (with_reducible first
    | assumption | intro _ | apply evalAlarms_keeps | apply withRtc_keeps | apply Upheld.ite | extract_lets | split
    | ((conv => arg 2; arg 27); apply Upheld.of_mk) | exact (‹Upheld wq _›).sound.stack | exact (‹Upheld wq _›).sound.spi
    | exact (‹Upheld wq _›).sound.window | exact (‹Upheld wq _›).sound.queue | exact (‹Upheld wq _›).sound.keys
    | dsimp +zetaDelta only)

theorem alarmMatchRule_keeps {wq : List Instr} (n : Nat) (s : State) (v : Nat) (hs : Upheld wq s) :
    Upheld wq (alarmMatchRule n s v).2 := by
  unfold alarmMatchRule
  repeat' (with_reducible first
    | assumption | intro _ | apply putEntry_keeps | apply Upheld.ite | split | dsimp +zetaDelta only)

theorem execAlarmMatchWrite_keeps {wq : List Instr} (n : Nat) (w : Wr) (s : State) (hs : Upheld wq s) :
    ∃ s', execAlarmMatchWrite n w s = .next s' ∧ Upheld wq s' := by
  unfold execAlarmMatchWrite
  refine ⟨_, rfl, ?_⟩
  repeat' (with_reducible first
    | assumption | intro _ | apply ledgerWrite_keeps | apply alarmMatchRule_keeps | dsimp +zetaDelta only)

theorem alarmStatusRule_keeps {wq : List Instr} (n : Nat) (s : State) (v : Nat) (hs : Upheld wq s) :
    Upheld wq (alarmStatusRule n s v).2 := by
  unfold alarmStatusRule
  repeat' (with_reducible first
    | assumption | intro _ | apply withRtc_keeps | apply Upheld.ite | extract_lets | split
    | ((conv => arg 2; arg 27); apply Upheld.of_mk) | exact (‹Upheld wq _›).sound.stack | exact (‹Upheld wq _›).sound.spi
    | exact (‹Upheld wq _›).sound.window | exact (‹Upheld wq _›).sound.queue | exact (‹Upheld wq _›).sound.keys
    | dsimp +zetaDelta only)

theorem execAlarmStatusWrite_keeps {wq : List Instr} (n : Nat) (w : Wr) (s : State) (hs : Upheld wq s) :
    ∃ s', execAlarmStatusWrite n w s = .next s' ∧ Upheld wq s' := by
  unfold execAlarmStatusWrite
  refine ⟨_, rfl, ?_⟩
  repeat' (with_reducible first
    | assumption | intro _ | apply ledgerWrite_keeps | apply alarmStatusRule_keeps | dsimp +zetaDelta only)

theorem execTrimWindow_keeps {wq : List Instr} (temp : Int) (vbak : Nat) (s : State) (hs : Upheld wq s) :
    ∃ s', execTrimWindow temp vbak s = .next s' ∧ Upheld wq s' := by
  unfold execTrimWindow
  refine ⟨_, rfl, ?_⟩
  repeat' (with_reducible first
    | assumption | intro _ | apply withRtc_keeps | apply Upheld.ite | extract_lets | split
    | ((conv => arg 2; arg 27); apply Upheld.of_mk) | exact (‹Upheld wq _›).sound.stack | exact (‹Upheld wq _›).sound.spi
    | exact (‹Upheld wq _›).sound.window | exact (‹Upheld wq _›).sound.queue | exact (‹Upheld wq _›).sound.keys
    | dsimp +zetaDelta only)

theorem execTimeFrameSend_keeps {wq : List Instr} (s : State) (hs : Upheld wq s) :
    ∃ s', execTimeFrameSend s = .next s' ∧ Upheld wq s' := by
  unfold execTimeFrameSend
  refine ⟨_, rfl, ?_⟩
  repeat' (with_reducible first
    | assumption | intro _ | apply withRtc_keeps | apply sendTime_keeps | apply Upheld.ite | extract_lets | split
    | refine Upheld.of_pair ?_ (by assumption) | ((conv => arg 2; arg 27); apply Upheld.of_mk)
    | exact (‹Upheld wq _›).sound.stack | exact (‹Upheld wq _›).sound.spi | exact (‹Upheld wq _›).sound.window
    | exact (‹Upheld wq _›).sound.queue | exact (‹Upheld wq _›).sound.keys | dsimp +zetaDelta only)

end Sys2Proof.Machine
end

