-- ==== Sys2Proof/Laws/KeepsTestPort.lean ====
section
/-!
SUPPORT. Every state that Machine/TestPort.lean builds from a sound state is sound, with the same commands waiting.
-/
namespace Sys2Proof.Machine

theorem jtagTake_keeps {wq : List Instr} (s : State) (i : JtagIr) (gated : Bool) (hs : Upheld wq s) :
    Upheld wq (State.jtagTake s i gated) := by
  unfold State.jtagTake
  repeat' (with_reducible first
    | assumption | intro _ | apply Upheld.ite | extract_lets | split | ((conv => arg 2; arg 27); apply Upheld.of_mk)
    | exact (‹Upheld wq _›).sound.stack | exact (‹Upheld wq _›).sound.spi | exact (‹Upheld wq _›).sound.window
    | exact (‹Upheld wq _›).sound.queue | exact (‹Upheld wq _›).sound.keys | dsimp +zetaDelta only)

theorem execJtagBypass_keeps {wq : List Instr} (s : State) (hs : Upheld wq s) :
    ∃ s', execJtagBypass s = .next s' ∧ Upheld wq s' := by
  unfold execJtagBypass
  refine ⟨_, rfl, ?_⟩
  repeat' (with_reducible first | assumption | intro _ | apply jtagTake_keeps | dsimp +zetaDelta only)

theorem execJtagIdcode_keeps {wq : List Instr} (s : State) (hs : Upheld wq s) :
    ∃ s', execJtagIdcode s = .next s' ∧ Upheld wq s' := by
  unfold execJtagIdcode
  refine ⟨_, rfl, ?_⟩
  repeat' (with_reducible first | assumption | intro _ | apply jtagTake_keeps | dsimp +zetaDelta only)

theorem execJtagSamplePreload_keeps {wq : List Instr} (s : State) (hs : Upheld wq s) :
    ∃ s', execJtagSamplePreload s = .next s' ∧ Upheld wq s' := by
  unfold execJtagSamplePreload
  refine ⟨_, rfl, ?_⟩
  repeat' (with_reducible first | assumption | intro _ | apply jtagTake_keeps | dsimp +zetaDelta only)

theorem execJtagExtest_keeps {wq : List Instr} (s : State) (hs : Upheld wq s) :
    ∃ s', execJtagExtest s = .next s' ∧ Upheld wq s' := by
  unfold execJtagExtest
  refine ⟨_, rfl, ?_⟩
  repeat' (with_reducible first | assumption | intro _ | apply jtagTake_keeps | dsimp +zetaDelta only)

theorem execJtagHighz_keeps {wq : List Instr} (s : State) (hs : Upheld wq s) :
    ∃ s', execJtagHighz s = .next s' ∧ Upheld wq s' := by
  unfold execJtagHighz
  refine ⟨_, rfl, ?_⟩
  repeat' (with_reducible first | assumption | intro _ | apply jtagTake_keeps | dsimp +zetaDelta only)

theorem execJtagClamp_keeps {wq : List Instr} (s : State) (hs : Upheld wq s) :
    ∃ s', execJtagClamp s = .next s' ∧ Upheld wq s' := by
  unfold execJtagClamp
  refine ⟨_, rfl, ?_⟩
  repeat' (with_reducible first | assumption | intro _ | apply jtagTake_keeps | dsimp +zetaDelta only)

theorem execTrstAssert_keeps {wq : List Instr} (s : State) (hs : Upheld wq s) :
    ∃ s', execTrstAssert s = .next s' ∧ Upheld wq s' := by
  unfold execTrstAssert
  refine ⟨_, rfl, ?_⟩
  repeat' (with_reducible first
    | assumption | intro _ | extract_lets | ((conv => arg 2; arg 27); apply Upheld.of_mk) | exact (‹Upheld wq _›).sound.stack
    | exact (‹Upheld wq _›).sound.spi | exact (‹Upheld wq _›).sound.window | exact (‹Upheld wq _›).sound.queue
    | exact (‹Upheld wq _›).sound.keys | dsimp +zetaDelta only)

end Sys2Proof.Machine
end

