-- ==== Sys2Proof/Laws/KeepsEntryRules.lean ====
section
/-!
SUPPORT. Every state that Machine/EntryRules.lean builds from a sound state is sound, with the same commands waiting.
-/
namespace Sys2Proof.Machine

theorem calCommandRule_keeps {wq : List Instr} (r : Req) (s : State) (v : Nat) (hs : Upheld wq s) :
    Upheld wq (calCommandRule r s v).2 := by
  unfold calCommandRule
  repeat' (with_reducible first
    | assumption | intro _ | apply calCycleRule_keeps | apply calCycleRefRule_keeps | apply calAbortRule_keeps
    | apply calQualifySparesRule_keeps | apply calShutterTestRule_keeps | apply calLoadFactoryRule_keeps | extract_lets | split
    | refine Upheld.of_pair ?_ (by assumption) | ((conv => arg 2; arg 27); apply Upheld.of_mk)
    | exact (‹Upheld wq _›).sound.stack | exact (‹Upheld wq _›).sound.spi | exact (‹Upheld wq _›).sound.window
    | exact (‹Upheld wq _›).sound.queue | exact (‹Upheld wq _›).sound.keys | dsimp +zetaDelta only)

theorem hmCommandRule_keeps {wq : List Instr} (s : State) (v : Nat) (hs : Upheld wq s) :
    Upheld wq (hmCommandRule s v).2 := by
  unfold hmCommandRule
  repeat' (with_reducible first
    | assumption | intro _ | apply hmSwapRule_keeps | apply hmRejoinTestRule_keeps | apply hmStormExitRule_keeps
    | apply hmStormEnterRule_keeps | apply hmRetireARule_keeps | apply hmRetireBRule_keeps | apply hmClearCountsRule_keeps
    | extract_lets | split | refine Upheld.of_pair ?_ (by assumption) | ((conv => arg 2; arg 27); apply Upheld.of_mk)
    | exact (‹Upheld wq _›).sound.stack | exact (‹Upheld wq _›).sound.spi | exact (‹Upheld wq _›).sound.window
    | exact (‹Upheld wq _›).sound.queue | exact (‹Upheld wq _›).sound.keys | dsimp +zetaDelta only)

theorem slipCommandRule_keeps {wq : List Instr} (s : State) (v : Nat) (hs : Upheld wq s) :
    Upheld wq (slipCommandRule s v).2 := by
  unfold slipCommandRule
  repeat' (with_reducible first
    | assumption | intro _ | apply slipLoadStandbyRule_keeps | apply slipSwapRule_keeps | apply slipCommitRule_keeps
    | apply slipRollbackRule_keeps | apply slipAbortRule_keeps | apply slipInstallResetRule_keeps | extract_lets | split
    | refine Upheld.of_pair ?_ (by assumption) | ((conv => arg 2; arg 27); apply Upheld.of_mk)
    | exact (‹Upheld wq _›).sound.stack | exact (‹Upheld wq _›).sound.spi | exact (‹Upheld wq _›).sound.window
    | exact (‹Upheld wq _›).sound.queue | exact (‹Upheld wq _›).sound.keys | dsimp +zetaDelta only)

theorem vc1Rule_keeps {wq : List Instr} (s : State) (v : Nat) (hs : Upheld wq s) :
    Upheld wq (vc1Rule s v).2 := by
  unfold vc1Rule
  repeat' (with_reducible first
    | assumption | intro _ | apply plainRule_keeps | apply Upheld.ite | extract_lets | split
    | ((conv => arg 2; arg 27); apply Upheld.of_mk) | exact (‹Upheld wq _›).sound.stack | exact (‹Upheld wq _›).sound.spi
    | exact (‹Upheld wq _›).sound.window | exact (‹Upheld wq _›).sound.queue | exact (‹Upheld wq _›).sound.keys
    | dsimp +zetaDelta only)

theorem tagLinesRule_keeps {wq : List Instr} (s : State) (v : Nat) (hs : Upheld wq s) :
    Upheld wq (tagLinesRule s v).2 := by
  unfold tagLinesRule
  repeat' (with_reducible first
    | assumption | intro _ | apply plainRule_keeps | apply Upheld.ite | extract_lets | split
    | ((conv => arg 2; arg 27); apply Upheld.of_mk) | exact (‹Upheld wq _›).sound.stack | exact (‹Upheld wq _›).sound.spi
    | exact (‹Upheld wq _›).sound.window | exact (‹Upheld wq _›).sound.queue | exact (‹Upheld wq _›).sound.keys
    | dsimp +zetaDelta only)

theorem outMinRule_keeps {wq : List Instr} (l : Nat) (s : State) (v : Nat) (hs : Upheld wq s) :
    Upheld wq (outMinRule l s v).2 := by
  unfold outMinRule
  repeat' (with_reducible first
    | assumption | intro _ | apply plainRule_keeps | apply Upheld.ite | split | dsimp +zetaDelta only)

theorem outMaxRule_keeps {wq : List Instr} (l : Nat) (s : State) (v : Nat) (hs : Upheld wq s) :
    Upheld wq (outMaxRule l s v).2 := by
  unfold outMaxRule
  repeat' (with_reducible first
    | assumption | intro _ | apply plainRule_keeps | apply Upheld.ite | split | dsimp +zetaDelta only)

theorem scheduleRule_keeps {wq : List Instr} (key : Nat) (s : State) (v : Nat) (hs : Upheld wq s) :
    Upheld wq (scheduleRule key s v).2 := by
  unfold scheduleRule
  repeat' (with_reducible first
    | assumption | intro _ | apply andThen_keeps | apply plainRule_keeps | apply evalPrograms_keeps | dsimp +zetaDelta only)

theorem masterSourceRule_keeps {wq : List Instr} (s : State) (v : Nat) (hs : Upheld wq s) :
    Upheld wq (masterSourceRule s v).2 := by
  unfold masterSourceRule
  repeat' (with_reducible first
    | assumption | intro _ | apply andThen_keeps | apply plainRule_keeps | apply engineHolds_keeps | apply noteAutonomous_keeps
    | apply Upheld.ite | extract_lets | split | ((conv => arg 2; arg 27); apply Upheld.of_mk)
    | exact (‹Upheld wq _›).sound.stack | exact (‹Upheld wq _›).sound.spi | exact (‹Upheld wq _›).sound.window
    | exact (‹Upheld wq _›).sound.queue | exact (‹Upheld wq _›).sound.keys | dsimp +zetaDelta only)

theorem presenceRule_keeps {wq : List Instr} (z : Nat) (s : State) (v : Nat) (hs : Upheld wq s) :
    Upheld wq (presenceRule z s v).2 := by
  unfold presenceRule
  repeat' (with_reducible first
    | assumption | intro _ | apply scheduleRule_keeps | apply Upheld.ite | extract_lets | split | dsimp +zetaDelta only)

theorem fanTachsRule_keeps {wq : List Instr} (c : Nat) (s : State) (v : Nat) (hs : Upheld wq s) :
    Upheld wq (fanTachsRule c s v).2 := by
  unfold fanTachsRule
  repeat' (with_reducible first
    | assumption | intro _ | apply andThen_keeps | apply plainRule_keeps | apply setTach_keeps | apply Upheld.foldl
    | apply Upheld.ite | extract_lets | split | ((conv => arg 2; arg 27); apply Upheld.of_mk)
    | exact (‹Upheld wq _›).sound.stack | exact (‹Upheld wq _›).sound.spi | exact (‹Upheld wq _›).sound.window
    | exact (‹Upheld wq _›).sound.queue | exact (‹Upheld wq _›).sound.keys | dsimp +zetaDelta only)

theorem panelTempRule_keeps {wq : List Instr} (s : State) (v : Nat) (hs : Upheld wq s) :
    Upheld wq (panelTempRule s v).2 := by
  unfold panelTempRule
  repeat' (with_reducible first
    | assumption | intro _ | apply putEntry_keeps | apply Upheld.ite | split | ((conv => arg 2; arg 27); apply Upheld.of_mk)
    | exact (‹Upheld wq _›).sound.stack | exact (‹Upheld wq _›).sound.spi | exact (‹Upheld wq _›).sound.window
    | exact (‹Upheld wq _›).sound.queue | exact (‹Upheld wq _›).sound.keys | dsimp +zetaDelta only)

theorem lhCellRule_keeps {wq : List Instr} (n : Nat) (s : State) (v : Nat) (hs : Upheld wq s) :
    Upheld wq (lhCellRule n s v).2 := by
  unfold lhCellRule
  repeat' (with_reducible first
    | assumption | intro _ | apply plainRule_keeps | apply Upheld.ite | split | dsimp +zetaDelta only)

theorem resetKeysRule_keeps {wq : List Instr} (s : State) (v : Nat) (hs : Upheld wq s) :
    Upheld wq (resetKeysRule s v).2 := by
  unfold resetKeysRule
  repeat' (with_reducible first
    | assumption | intro _ | apply putEntry_keeps | apply Upheld.ite | extract_lets | split
    | ((conv => arg 2; arg 27); apply Upheld.of_mk) | exact (‹Upheld wq _›).sound.stack | exact (‹Upheld wq _›).sound.spi
    | exact (‹Upheld wq _›).sound.window | exact (‹Upheld wq _›).sound.queue | exact (‹Upheld wq _›).sound.keys
    | dsimp +zetaDelta only)

theorem feedsExpectedRule_keeps {wq : List Instr} (s : State) (v : Nat) (hs : Upheld wq s) :
    Upheld wq (feedsExpectedRule s v).2 := by
  unfold feedsExpectedRule
  repeat' (with_reducible first
    | assumption | intro _ | apply andThen_keeps | apply plainRule_keeps | apply withPwr_keeps | apply feedRecord_keeps
    | apply alarmOf_keeps | apply Upheld.ite | extract_lets | split | ((conv => arg 2; arg 27); apply Upheld.of_mk)
    | exact (‹Upheld wq _›).sound.stack | exact (‹Upheld wq _›).sound.spi | exact (‹Upheld wq _›).sound.window
    | exact (‹Upheld wq _›).sound.queue | exact (‹Upheld wq _›).sound.keys | dsimp +zetaDelta only)

theorem irqClearRule_keeps {wq : List Instr} (s : State) (v : Nat) (hs : Upheld wq s) :
    Upheld wq (irqClearRule s v).2 := by
  unfold irqClearRule
  repeat' (with_reducible first
    | assumption | intro _ | apply withKlp_keeps | apply Upheld.foldl | apply Upheld.ite | extract_lets | split
    | ((conv => arg 2; arg 27); apply Upheld.of_mk) | exact (‹Upheld wq _›).sound.stack | exact (‹Upheld wq _›).sound.spi
    | exact (‹Upheld wq _›).sound.window | exact (‹Upheld wq _›).sound.queue | exact (‹Upheld wq _›).sound.keys
    | dsimp +zetaDelta only)

theorem logCursorRule_keeps {wq : List Instr} (id : Nat) (s : State) (v : Nat) (hs : Upheld wq s) :
    Upheld wq (logCursorRule id s v).2 := by
  unfold logCursorRule
  repeat' (with_reducible first
    | assumption | intro _ | apply withLog_keeps | ((conv => arg 2; arg 27); apply Upheld.of_mk) | apply Log.setCursor_le
    | exact (‹Upheld wq _›).sound.stack | exact (‹Upheld wq _›).sound.spi | exact (‹Upheld wq _›).sound.window
    | exact (‹Upheld wq _›).sound.queue | exact (‹Upheld wq _›).sound.keys | dsimp +zetaDelta only)

theorem tallyRule_keeps {wq : List Instr} (key : Nat) (s : State) (v : Nat) (hs : Upheld wq s) :
    Upheld wq (tallyRule key s v).2 := by
  unfold tallyRule
  repeat' (with_reducible first
    | assumption | intro _ | apply withNv_keeps | apply Upheld.ite | extract_lets | split
    | ((conv => arg 2; arg 27); apply Upheld.of_mk) | exact (‹Upheld wq _›).sound.stack | exact (‹Upheld wq _›).sound.spi
    | exact (‹Upheld wq _›).sound.window | exact (‹Upheld wq _›).sound.queue | exact (‹Upheld wq _›).sound.keys
    | dsimp +zetaDelta only)

/-- Every rule that a choice gives keeps a sound state sound. -/
def RuleKept (wq : List Instr) (o : Option Rule) : Prop :=
  ∀ ru, o = some ru → ∀ (s : State) (v : Nat), Upheld wq s → Upheld wq (ru s v).2

theorem RuleKept.none {wq : List Instr} : RuleKept wq none := fun _ e => nomatch e

theorem RuleKept.some {wq : List Instr} {ru : Rule} (h : ∀ (s : State) (v : Nat), Upheld wq s → Upheld wq (ru s v).2) :
    RuleKept wq (some ru) := fun _ e => Option.some.inj e ▸ h

theorem RuleKept.ite {wq : List Instr} {c : Prop} [Decidable c] {a b : Option Rule} (ha : RuleKept wq a) (hb : RuleKept wq b) :
    RuleKept wq (if c then a else b) := by split <;> assumption

theorem RuleKept.orElse {wq : List Instr} {a b : Option Rule} (ha : RuleKept wq a) (hb : RuleKept wq b) :
    RuleKept wq (a.orElse fun _ => b) := by
  cases a with
  | none => exact hb
  | some r => exact ha

theorem RuleKept.getD {wq : List Instr} {a : Option Rule} {ru : Rule} (ha : RuleKept wq a)
    (h : ∀ (s : State) (v : Nat), Upheld wq s → Upheld wq (ru s v).2) (s : State) (v : Nat) (hs : Upheld wq s) :
    Upheld wq (a.getD ru s v).2 := by
  cases a with
  | none => exact h s v hs
  | some r => exact ha r rfl s v hs

theorem ruleLow_keeps {wq : List Instr} (r : Req) (i sub : Nat) : RuleKept wq (ruleLow r i sub) := by
  unfold ruleLow
  repeat' (with_reducible first
    | apply RuleKept.none | apply RuleKept.ite | apply RuleKept.some | intro _ | assumption
    | apply resetCommandRule_keeps | apply rateModeRule_keeps | apply mainsModeRule_keeps | apply gradientLimitRule_keeps
    | apply imagerModeRule_keeps | apply outputFormRule_keeps | apply filterShiftRule_keeps | apply lensRule_keeps
    | apply calCommandRule_keeps | apply videoEnableRule_keeps | apply videoLinkRule_keeps | apply vc1Rule_keeps
    | apply tagLinesRule_keeps | apply vc2Rule_keeps | apply hmCommandRule_keeps | apply salvageReleaseRule_keeps
    | apply masterSourceRule_keeps | apply adcCalRule_keeps | apply urgentRule_keeps | split)

theorem ruleHigh_keeps {wq : List Instr} (r : Req) (i sub : Nat) : RuleKept wq (ruleHigh r i sub) := by
  unfold ruleHigh
  repeat' (with_reducible first
    | apply RuleKept.none | apply RuleKept.ite | apply RuleKept.some | intro _ | assumption
    | apply irqClearRule_keeps | apply logCursorRule_keeps | apply logClearRule_keeps | apply calendarOffsetRule_keeps
    | apply dateTimeRule_keeps | apply dstRule_keeps | apply subsecRule_keeps | apply regionUpdateRule_keeps
    | apply panelTempRule_keeps | apply resetKeysRule_keeps | apply idRereadRule_keeps | apply powerRequestRule_keeps
    | apply pfailLevelRule_keeps | apply feedsExpectedRule_keeps | apply slipCommandRule_keeps | split)

theorem ruleFan_keeps {wq : List Instr} (c sub : Nat) : RuleKept wq (ruleFan c sub) := by
  unfold ruleFan
  repeat' (with_reducible first
    | apply RuleKept.none | apply RuleKept.ite | apply RuleKept.some | intro _ | assumption
    | apply fanCommandRule_keeps | apply fanIlimitRule_keeps | apply fanTachsRule_keeps | apply fanBandRule_keeps | split)

theorem ruleBus_keeps {wq : List Instr} (c : Bus) (sub : Nat) : RuleKept wq (ruleBus c sub) := by
  unfold ruleBus
  repeat' (with_reducible first
    | apply RuleKept.none | apply RuleKept.ite | apply RuleKept.some | intro _ | assumption
    | apply busModeRule_keeps | apply tripleSampleRule_keeps | apply busTimingRule_keeps | split)

theorem ruleLoop_keeps {wq : List Instr} (l sub : Nat) : RuleKept wq (ruleLoop l sub) := by
  unfold ruleLoop
  repeat' (with_reducible first
    | apply RuleKept.none | apply RuleKept.ite | apply RuleKept.some | intro _ | assumption
    | apply loopModeRule_keeps | apply pvSourceRule_keeps | apply loopTargetRule_keeps | apply outMinRule_keeps
    | apply outMaxRule_keeps | split)

theorem ruleZone_keeps {wq : List Instr} (z sub : Nat) : RuleKept wq (ruleZone z sub) := by
  unfold ruleZone
  repeat' (with_reducible first
    | apply RuleKept.none | apply RuleKept.ite | apply RuleKept.some | intro _ | assumption
    | apply scheduleRule_keeps | apply zoneOverrideRule_keeps | apply presenceRule_keeps | split)

theorem ruleItem_keeps {wq : List Instr} (r : Req) (i sub : Nat) : RuleKept wq (ruleItem r i sub) := by
  unfold ruleItem
  repeat' (with_reducible first
    | apply RuleKept.none | apply RuleKept.ite | apply ruleFan_keeps | apply ruleBus_keeps
    | apply ruleLoop_keeps | apply ruleZone_keeps | apply RuleKept.some | intro _ | assumption | apply groupStateRule_keeps
    | apply stormValueRule_keeps | apply outModeRule_keeps | apply outCommandRule_keeps | apply adcFactorRule_keeps
    | apply aiConfigRule_keeps | apply alarmMatchRule_keeps | apply alarmStatusRule_keeps | apply regionCellsRule_keeps
    | apply lhCellRule_keeps | apply slotBindRule_keeps | apply switchPointRule_keeps | apply scheduleRule_keeps
    | apply exceptionDateRule_keeps | apply berthRule_keeps | split)

theorem entryRule_keeps {wq : List Instr} (r : Req) (key : Nat) (s : State) (v : Nat) (hs : Upheld wq s) :
    Upheld wq (entryRule r key s v).2 := by
  unfold entryRule
  split
  · exact tallyRule_keeps _ _ _ hs
  · exact RuleKept.getD ((ruleLow_keeps _ _ _).orElse ((ruleHigh_keeps _ _ _).orElse (ruleItem_keeps _ _ _))) (plainRule_keeps _) _ _ hs

end Sys2Proof.Machine
end

