-- ==== Sys2Proof/Laws/KeepsDomainWrite.lean ====
section
/-!
SUPPORT. Every state that Machine/DomainWrite.lean builds from a sound state is sound, with the same commands waiting.
-/
namespace Sys2Proof.Machine

theorem writeFactory_keeps {wq : List Instr} (s : State) (b : List Nat) (hs : Upheld wq s) :
    Upheld wq (State.writeFactory s b) := by
  unfold State.writeFactory
  repeat' (with_reducible first
    | assumption | intro _ | apply withPipe_keeps | apply Upheld.foldl | extract_lets
    | ((conv => arg 2; arg 27); apply Upheld.of_mk) | apply drop_le | exact (‹Upheld wq _›).sound.stack
    | exact (‹Upheld wq _›).sound.spi | exact (‹Upheld wq _›).sound.window | exact (‹Upheld wq _›).sound.queue
    | exact (‹Upheld wq _›).sound.keys | dsimp +zetaDelta only)

theorem writeBlind_keeps {wq : List Instr} (s : State) (b : List Nat) (hs : Upheld wq s) :
    Upheld wq (State.writeBlind s b) := by
  unfold State.writeBlind
  repeat' (with_reducible first
    | assumption | intro _ | apply withPipe_keeps | apply Upheld.foldl | extract_lets
    | ((conv => arg 2; arg 27); apply Upheld.of_mk) | exact (‹Upheld wq _›).sound.stack | exact (‹Upheld wq _›).sound.spi
    | exact (‹Upheld wq _›).sound.window | exact (‹Upheld wq _›).sound.queue | exact (‹Upheld wq _›).sound.keys
    | dsimp +zetaDelta only)

theorem writeTempTable_keeps {wq : List Instr} (s : State) (b : List Nat) (hs : Upheld wq s) :
    Upheld wq (State.writeTempTable s b).2 := by
  unfold State.writeTempTable
  repeat' (with_reducible first
    | assumption | intro _ | apply withPipe_keeps | apply Upheld.foldl | apply Upheld.ite | extract_lets | split
    | ((conv => arg 2; arg 27); apply Upheld.of_mk) | exact (‹Upheld wq _›).sound.stack | exact (‹Upheld wq _›).sound.spi
    | exact (‹Upheld wq _›).sound.window | exact (‹Upheld wq _›).sound.queue | exact (‹Upheld wq _›).sound.keys
    | dsimp +zetaDelta only)

theorem writeScreenMask_keeps {wq : List Instr} (s : State) (id : Nat) (b : List Nat) (hs : Upheld wq s) :
    Upheld wq (State.writeScreenMask s id b).2 := by
  unfold State.writeScreenMask
  repeat' (with_reducible first
    | assumption | intro _ | apply withPipe_keeps | apply Upheld.ite | extract_lets | split
    | ((conv => arg 2; arg 27); apply Upheld.of_mk) | exact (‹Upheld wq _›).sound.stack | exact (‹Upheld wq _›).sound.spi
    | exact (‹Upheld wq _›).sound.window | exact (‹Upheld wq _›).sound.queue | exact (‹Upheld wq _›).sound.keys
    | dsimp +zetaDelta only)

theorem writeCalSet_keeps {wq : List Instr} (s : State) (b : List Nat) (hs : Upheld wq s) :
    Upheld wq (State.writeCalSet s b).2 := by
  unfold State.writeCalSet
  repeat' (with_reducible first
    | assumption | intro _ | apply withCal_keeps | apply Upheld.ite | extract_lets | split
    | ((conv => arg 2; arg 27); apply Upheld.of_mk) | apply drop_le | exact (‹Upheld wq _›).sound.stack
    | exact (‹Upheld wq _›).sound.spi | exact (‹Upheld wq _›).sound.window | exact (‹Upheld wq _›).sound.queue
    | exact (‹Upheld wq _›).sound.keys | dsimp +zetaDelta only)

theorem writeTrims_keeps {wq : List Instr} (s : State) (b : List Nat) (hs : Upheld wq s) :
    Upheld wq (State.writeTrims s b) := by
  unfold State.writeTrims
  repeat' (with_reducible first
    | assumption | intro _ | apply withFocal_keeps | apply Upheld.foldl | extract_lets
    | ((conv => arg 2; arg 27); apply Upheld.of_mk) | apply drop_le | exact (‹Upheld wq _›).sound.stack
    | exact (‹Upheld wq _›).sound.spi | exact (‹Upheld wq _›).sound.window | exact (‹Upheld wq _›).sound.queue
    | exact (‹Upheld wq _›).sound.keys | dsimp +zetaDelta only)

theorem writeChoices_keeps {wq : List Instr} (s : State) (b : List Nat) (hs : Upheld wq s) :
    Upheld wq (State.writeChoices s b) := by
  unfold State.writeChoices
  repeat' (with_reducible first
    | assumption | intro _ | apply withCal_keeps | extract_lets | ((conv => arg 2; arg 27); apply Upheld.of_mk)
    | exact (‹Upheld wq _›).sound.stack | exact (‹Upheld wq _›).sound.spi | exact (‹Upheld wq _›).sound.window
    | exact (‹Upheld wq _›).sound.queue | exact (‹Upheld wq _›).sound.keys | dsimp +zetaDelta only)

theorem bandHeader_keeps {wq : List Instr} (s : State) (b : List Nat) (hs : Upheld wq s) :
    Upheld wq (State.bandHeader s b).2 := by
  unfold State.bandHeader
  repeat' (with_reducible first
    | assumption | intro _ | apply withCal_keeps | apply Upheld.ite | extract_lets | split
    | ((conv => arg 2; arg 27); apply Upheld.of_mk) | exact (‹Upheld wq _›).sound.stack | exact (‹Upheld wq _›).sound.spi
    | exact (‹Upheld wq _›).sound.window | exact (‹Upheld wq _›).sound.queue | exact (‹Upheld wq _›).sound.keys
    | dsimp +zetaDelta only)

theorem fillBand_keeps {wq : List Instr} (s : State) (band : Nat) (b : List Nat) (hs : Upheld wq s) :
    Upheld wq (State.fillBand s band b) := by
  unfold State.fillBand
  repeat' (with_reducible first
    | assumption | intro _ | apply withPipe_keeps | apply Upheld.foldl | extract_lets
    | ((conv => arg 2; arg 27); apply Upheld.of_mk) | exact (‹Upheld wq _›).sound.stack | exact (‹Upheld wq _›).sound.spi
    | exact (‹Upheld wq _›).sound.window | exact (‹Upheld wq _›).sound.queue | exact (‹Upheld wq _›).sound.keys
    | dsimp +zetaDelta only)

theorem bandDone_keeps {wq : List Instr} (s : State) (b : List Nat) (hs : Upheld wq s) :
    Upheld wq (State.bandDone s b) := by
  unfold State.bandDone
  repeat' (with_reducible first
    | assumption | intro _ | apply fillBand_keeps | apply withCal_keeps | apply Upheld.ite | extract_lets | split
    | refine Upheld.of_pair ?_ (by assumption) | ((conv => arg 2; arg 27); apply Upheld.of_mk) | apply drop_le
    | exact (‹Upheld wq _›).sound.stack | exact (‹Upheld wq _›).sound.spi | exact (‹Upheld wq _›).sound.window
    | exact (‹Upheld wq _›).sound.queue | exact (‹Upheld wq _›).sound.keys | dsimp +zetaDelta only)

theorem writeExclusion_keeps {wq : List Instr} (s : State) (b : List Nat) (hs : Upheld wq s) :
    Upheld wq (State.writeExclusion s b) := by
  unfold State.writeExclusion
  repeat' (with_reducible first
    | assumption | intro _ | apply withBerth_keeps | extract_lets | ((conv => arg 2; arg 27); apply Upheld.of_mk)
    | exact (‹Upheld wq _›).sound.stack | exact (‹Upheld wq _›).sound.spi | exact (‹Upheld wq _›).sound.window
    | exact (‹Upheld wq _›).sound.queue | exact (‹Upheld wq _›).sound.keys | dsimp +zetaDelta only)

theorem writeBerths_keeps {wq : List Instr} (s : State) (id : Nat) (b : List Nat) (hs : Upheld wq s) :
    Upheld wq (State.writeBerths s id b).2 := by
  unfold State.writeBerths
  repeat' (with_reducible first
    | assumption | intro _ | apply setReg_keeps | apply withBerth_keeps | apply Upheld.foldl | extract_lets | split
    | refine Upheld.of_pair ?_ (by assumption) | ((conv => arg 2; arg 27); apply Upheld.of_mk) | apply drop_le
    | exact (‹Upheld wq _›).sound.stack | exact (‹Upheld wq _›).sound.spi | exact (‹Upheld wq _›).sound.window
    | exact (‹Upheld wq _›).sound.queue | exact (‹Upheld wq _›).sound.keys | dsimp +zetaDelta only)

theorem writeFanTables_keeps {wq : List Instr} (s : State) (b : List Nat) (hs : Upheld wq s) :
    Upheld wq (State.writeFanTables s b).2 := by
  unfold State.writeFanTables
  repeat' (with_reducible first
    | assumption | intro _ | apply storeParam_keeps | apply Upheld.ite | extract_lets | split
    | ((conv => arg 2; arg 27); apply Upheld.of_mk) | apply drop_le | exact (‹Upheld wq _›).sound.stack
    | exact (‹Upheld wq _›).sound.spi | exact (‹Upheld wq _›).sound.window | exact (‹Upheld wq _›).sound.queue
    | exact (‹Upheld wq _›).sound.keys | dsimp +zetaDelta only)

theorem storeParts_keeps {wq : List Instr} (s : State) (key size n : Nat) (b : List Nat) (hs : Upheld wq s) :
    Upheld wq (s.storeParts key size n b).2 := by
  induction n with
  | zero => exact hs
  | succ n ih =>
    unfold State.storeParts
    dsimp only
    split
    · exact storeParam_keeps _ _ _ ih
    · exact ih

theorem writeRxMap_keeps {wq : List Instr} (s : State) (b : List Nat) (hs : Upheld wq s) :
    Upheld wq (State.writeRxMap s b).2 := by
  unfold State.writeRxMap
  repeat' (with_reducible first
    | assumption | intro _ | apply Upheld.ite | extract_lets | split | ((conv => arg 2; arg 27); apply Upheld.of_mk)
    | exact (‹Upheld wq _›).sound.stack | exact (‹Upheld wq _›).sound.spi | exact (‹Upheld wq _›).sound.window
    | exact (‹Upheld wq _›).sound.queue | exact (‹Upheld wq _›).sound.keys | dsimp +zetaDelta only)

theorem writeLogUser_keeps {wq : List Instr} (s : State) (b : List Nat) (hs : Upheld wq s) :
    Upheld wq (State.writeLogUser s b).2 := by
  unfold State.writeLogUser
  repeat' (with_reducible first
    | assumption | intro _ | apply pushLog_keeps | apply Upheld.ite | split | ((conv => arg 2; arg 27); apply Upheld.of_mk)
    | apply drop_le | exact (‹Upheld wq _›).sound.stack | exact (‹Upheld wq _›).sound.spi | exact (‹Upheld wq _›).sound.window
    | exact (‹Upheld wq _›).sound.queue | exact (‹Upheld wq _›).sound.keys | dsimp +zetaDelta only)

theorem writeWaves_keeps {wq : List Instr} (s : State) (b : List Nat) (hs : Upheld wq s) :
    Upheld wq (State.writeWaves s b).2 := by
  unfold State.writeWaves
  repeat' (with_reducible first
    | assumption | intro _ | apply withPanel_keeps | apply storeParts_keeps | apply Upheld.ite | extract_lets | split
    | ((conv => arg 2; arg 27); apply Upheld.of_mk) | exact (‹Upheld wq _›).sound.stack | exact (‹Upheld wq _›).sound.spi
    | exact (‹Upheld wq _›).sound.window | exact (‹Upheld wq _›).sound.queue | exact (‹Upheld wq _›).sound.keys
    | dsimp +zetaDelta only)

theorem writeGamma_keeps {wq : List Instr} (s : State) (b : List Nat) (hs : Upheld wq s) :
    Upheld wq (State.writeGamma s b).2 := by
  unfold State.writeGamma
  repeat' (with_reducible first
    | assumption | intro _ | apply withPanel_keeps | apply storeParts_keeps | apply Upheld.ite | extract_lets | split
    | ((conv => arg 2; arg 27); apply Upheld.of_mk) | exact (‹Upheld wq _›).sound.stack | exact (‹Upheld wq _›).sound.spi
    | exact (‹Upheld wq _›).sound.window | exact (‹Upheld wq _›).sound.queue | exact (‹Upheld wq _›).sound.keys
    | dsimp +zetaDelta only)

theorem writeImage_keeps {wq : List Instr} (s : State) (b : List Nat) (hs : Upheld wq s) :
    Upheld wq (State.writeImage s b) := by
  unfold State.writeImage
  repeat' (with_reducible first
    | assumption | intro _ | apply withPanel_keeps | extract_lets | ((conv => arg 2; arg 27); apply Upheld.of_mk)
    | exact (‹Upheld wq _›).sound.stack | exact (‹Upheld wq _›).sound.spi | exact (‹Upheld wq _›).sound.window
    | exact (‹Upheld wq _›).sound.queue | exact (‹Upheld wq _›).sound.keys | dsimp +zetaDelta only)

theorem completeWrite_keeps {wq : List Instr} (s : State) (id key : Nat) (b : List Nat) (hs : Upheld wq s) :
    Upheld wq (State.completeWrite s id key b).2 := by
  unfold State.completeWrite
  repeat' (with_reducible first
    | assumption | intro _ | apply writeFactory_keeps | apply writeScreenMask_keeps | apply writeTempTable_keeps
    | apply writeBlind_keeps | apply writeCalSet_keeps | apply bandDone_keeps | apply writeTrims_keeps
    | apply writeChoices_keeps | apply writeBerths_keeps | apply writeExclusion_keeps | apply writeFanTables_keeps
    | apply writeRxMap_keeps | apply writeLogUser_keeps | apply writeWaves_keeps | apply writeGamma_keeps
    | apply writeImage_keeps | apply slipStaged_keeps | extract_lets | split | refine Upheld.of_pair ?_ (by assumption)
    | ((conv => arg 2; arg 27); apply Upheld.of_mk) | exact (‹Upheld wq _›).sound.stack | exact (‹Upheld wq _›).sound.spi
    | exact (‹Upheld wq _›).sound.window | exact (‹Upheld wq _›).sound.queue | exact (‹Upheld wq _›).sound.keys
    | dsimp +zetaDelta only)

end Sys2Proof.Machine
end

