-- ==== Sys2Proof/Laws/KeepsLedger.lean ====
section
/-!
SUPPORT. Every state that Machine/Ledger.lean builds from a sound state is sound, with the same commands waiting.
-/
namespace Sys2Proof.Machine

theorem readRun_keeps {wq : List Instr} (s : State) (q : Request) (hs : Upheld wq s) :
    Upheld wq (State.readRun s q).2.2 := by
  unfold State.readRun
  repeat' (with_reducible first
    | assumption | intro _ | apply uncorrectable_keeps | apply afterRead_keeps | apply Upheld.ite | split
    | dsimp +zetaDelta only)

theorem execKlpRead_keeps {wq : List Instr} (a : Ask) (s : State) (hs : Upheld wq s) :
    ∃ s', execKlpRead a s = .next s' ∧ Upheld wq s' := by
  unfold execKlpRead
  refine ⟨_, rfl, ?_⟩
  repeat' (with_reducible first
    | assumption | intro _ | apply request_keeps | apply readRun_keeps | extract_lets | dsimp +zetaDelta only)

theorem execKlpWrite_keeps {wq : List Instr} (key : Nat) (w : Wr) (s : State) (hs : Upheld wq s) :
    ∃ s', execKlpWrite key w s = .next s' ∧ Upheld wq s' := by
  unfold execKlpWrite
  refine ⟨_, rfl, ?_⟩
  repeat' (with_reducible first
    | assumption | intro _ | apply ledgerWrite_keeps | apply entryRule_keeps | dsimp +zetaDelta only)

theorem execRegisterWrite_keeps {wq : List Instr} (key : Nat) (w : Wr) (s : State) (hs : Upheld wq s) :
    ∃ s', execRegisterWrite key w s = .next s' ∧ Upheld wq s' := by
  unfold execRegisterWrite
  refine ⟨_, rfl, ?_⟩
  repeat' (with_reducible first
    | assumption | intro _ | apply ledgerWrite_keeps | apply entryRule_keeps | dsimp +zetaDelta only)

theorem execIrqClearWrite_keeps {wq : List Instr} (w : Wr) (s : State) (hs : Upheld wq s) :
    ∃ s', execIrqClearWrite w s = .next s' ∧ Upheld wq s' := by
  unfold execIrqClearWrite
  refine ⟨_, rfl, ?_⟩
  repeat' (with_reducible first
    | assumption | intro _ | apply ledgerWrite_keeps | apply irqClearRule_keeps | dsimp +zetaDelta only)

theorem dropTransfer_keeps {wq : List Instr} (s : State) (t : Transfer) (hs : Upheld wq s) :
    Upheld wq (State.dropTransfer s t) := by
  unfold State.dropTransfer
  repeat' (with_reducible first
    | assumption | intro _ | apply withKlp_keeps | extract_lets | ((conv => arg 2; arg 27); apply Upheld.of_mk)
    | exact (‹Upheld wq _›).sound.stack | exact (‹Upheld wq _›).sound.spi | exact (‹Upheld wq _›).sound.window
    | exact (‹Upheld wq _›).sound.queue | exact (‹Upheld wq _›).sound.keys | dsimp +zetaDelta only)

theorem putTransfer_keeps {wq : List Instr} (s : State) (t : Transfer) (hs : Upheld wq s) :
    Upheld wq (State.putTransfer s t) := by
  unfold State.putTransfer
  repeat' (with_reducible first
    | assumption | intro _ | apply dropTransfer_keeps | apply withKlp_keeps | extract_lets
    | ((conv => arg 2; arg 27); apply Upheld.of_mk) | exact (‹Upheld wq _›).sound.stack | exact (‹Upheld wq _›).sound.spi
    | exact (‹Upheld wq _›).sound.window | exact (‹Upheld wq _›).sound.queue | exact (‹Upheld wq _›).sound.keys
    | dsimp +zetaDelta only)

theorem expireTransfers_keeps {wq : List Instr} (s : State) (hs : Upheld wq s) :
    Upheld wq (State.expireTransfers s) := by
  unfold State.expireTransfers
  repeat' (with_reducible first | assumption | intro _ | apply endTransfers_keeps | dsimp +zetaDelta only)

theorem segReadStartRun_keeps {wq : List Instr} (s0 : State) (q : Request) (hs0 : Upheld wq s0) :
    Upheld wq (State.segReadStartRun s0 q).2.2 := by
  unfold State.segReadStartRun
  repeat' (with_reducible first
    | assumption | intro _ | apply expireTransfers_keeps | apply putTransfer_keeps | apply Upheld.ite | extract_lets | split
    | refine Upheld.of_pair ?_ (by assumption) | ((conv => arg 2; arg 27); apply Upheld.of_mk)
    | exact (‹Upheld wq _›).sound.stack | exact (‹Upheld wq _›).sound.spi | exact (‹Upheld wq _›).sound.window
    | exact (‹Upheld wq _›).sound.queue | exact (‹Upheld wq _›).sound.keys | dsimp +zetaDelta only)

theorem execSegReadStart_keeps {wq : List Instr} (a : Ask) (s : State) (hs : Upheld wq s) :
    ∃ s', execSegReadStart a s = .next s' ∧ Upheld wq s' := by
  unfold execSegReadStart
  refine ⟨_, rfl, ?_⟩
  repeat' (with_reducible first
    | assumption | intro _ | apply request_keeps | apply segReadStartRun_keeps | extract_lets | dsimp +zetaDelta only)

theorem afterSlice_keeps {wq : List Instr} (s : State) (key n : Nat) (hs : Upheld wq s) :
    Upheld wq (State.afterSlice s key n) := by
  unfold State.afterSlice
  repeat' (with_reducible first
    | assumption | intro _ | apply Upheld.ite | extract_lets | split | ((conv => arg 2; arg 27); apply Upheld.of_mk)
    | exact (‹Upheld wq _›).sound.stack | exact (‹Upheld wq _›).sound.spi | exact (‹Upheld wq _›).sound.window
    | exact (‹Upheld wq _›).sound.queue | exact (‹Upheld wq _›).sound.keys | dsimp +zetaDelta only)

theorem segReadRun_keeps {wq : List Instr} (s0 : State) (q : Request) (hs0 : Upheld wq s0) :
    Upheld wq (State.segReadRun s0 q).2.2 := by
  unfold State.segReadRun
  repeat' (with_reducible first
    | assumption | intro _ | apply expireTransfers_keeps | apply putTransfer_keeps | apply uncorrectable_keeps
    | apply afterSlice_keeps | apply Upheld.ite | extract_lets | split | refine Upheld.of_pair ?_ (by assumption)
    | ((conv => arg 2; arg 27); apply Upheld.of_mk) | apply drop_le | exact (‹Upheld wq _›).sound.stack
    | exact (‹Upheld wq _›).sound.spi | exact (‹Upheld wq _›).sound.window | exact (‹Upheld wq _›).sound.queue
    | exact (‹Upheld wq _›).sound.keys | dsimp +zetaDelta only)

theorem execSegRead_keeps {wq : List Instr} (a : Ask) (s : State) (hs : Upheld wq s) :
    ∃ s', execSegRead a s = .next s' ∧ Upheld wq s' := by
  unfold execSegRead
  refine ⟨_, rfl, ?_⟩
  repeat' (with_reducible first
    | assumption | intro _ | apply request_keeps | apply segReadRun_keeps | extract_lets | dsimp +zetaDelta only)

theorem segWriteStartRun_keeps {wq : List Instr} (s0 : State) (q : Request) (hs0 : Upheld wq s0) :
    Upheld wq (State.segWriteStartRun s0 q).2.2 := by
  unfold State.segWriteStartRun
  repeat' (with_reducible first
    | assumption | intro _ | apply expireTransfers_keeps | apply putTransfer_keeps | apply slipOpen_keeps | apply Upheld.ite
    | extract_lets | split | refine Upheld.of_pair ?_ (by assumption) | ((conv => arg 2; arg 27); apply Upheld.of_mk)
    | exact (‹Upheld wq _›).sound.stack | exact (‹Upheld wq _›).sound.spi | exact (‹Upheld wq _›).sound.window
    | exact (‹Upheld wq _›).sound.queue | exact (‹Upheld wq _›).sound.keys | dsimp +zetaDelta only)

theorem execSegWriteStart_keeps {wq : List Instr} (a : Ask) (s : State) (hs : Upheld wq s) :
    ∃ s', execSegWriteStart a s = .next s' ∧ Upheld wq s' := by
  unfold execSegWriteStart
  refine ⟨_, rfl, ?_⟩
  repeat' (with_reducible first
    | assumption | intro _ | apply request_keeps | apply segWriteStartRun_keeps | extract_lets | dsimp +zetaDelta only)

theorem restoreActive_keeps {wq : List Instr} (s : State) (key : Nat) (hs : Upheld wq s) :
    Upheld wq (State.restoreActive s key) := by
  unfold State.restoreActive
  repeat' (with_reducible first
    | assumption | intro _ | apply withCal_keeps | apply Upheld.ite | extract_lets | split
    | refine Upheld.of_pair ?_ (by assumption) | ((conv => arg 2; arg 27); apply Upheld.of_mk)
    | exact (‹Upheld wq _›).sound.stack | exact (‹Upheld wq _›).sound.spi | exact (‹Upheld wq _›).sound.window
    | exact (‹Upheld wq _›).sound.queue | exact (‹Upheld wq _›).sound.keys | dsimp +zetaDelta only)

theorem stageSegment_keeps {wq : List Instr} (s : State) (t : Transfer) (bytes : List Nat) (hs : Upheld wq s) :
    Upheld wq (State.stageSegment s t bytes).2.2 := by
  unfold State.stageSegment
  repeat' (with_reducible first
    | assumption | intro _ | apply withPipe_keeps | apply slipStage_keeps | apply bandHeader_keeps | apply Upheld.ite
    | extract_lets | split | ((conv => arg 2; arg 27); apply Upheld.of_mk) | apply drop_le | exact (‹Upheld wq _›).sound.stack
    | exact (‹Upheld wq _›).sound.spi | exact (‹Upheld wq _›).sound.window | exact (‹Upheld wq _›).sound.queue
    | exact (‹Upheld wq _›).sound.keys | dsimp +zetaDelta only)

theorem landSegment_keeps {wq : List Instr} (s : State) (t : Transfer) (off : Nat) (bytes : List Nat) (hs : Upheld wq s) :
    Upheld wq (State.landSegment s t off bytes).2 := by
  unfold State.landSegment
  repeat' (with_reducible first
    | assumption | intro _ | apply stageSegment_keeps | apply dropTransfer_keeps | apply completeWrite_keeps
    | apply putTransfer_keeps | apply restoreActive_keeps | apply Upheld.ite | extract_lets | split
    | refine Upheld.of_pair ?_ (by assumption) | ((conv => arg 2; arg 27); apply Upheld.of_mk)
    | exact (‹Upheld wq _›).sound.stack | exact (‹Upheld wq _›).sound.spi | exact (‹Upheld wq _›).sound.window
    | exact (‹Upheld wq _›).sound.queue | exact (‹Upheld wq _›).sound.keys | dsimp +zetaDelta only)

theorem segWriteRun_keeps {wq : List Instr} (s0 : State) (q : Request) (hs0 : Upheld wq s0) :
    Upheld wq (State.segWriteRun s0 q).2.2 := by
  unfold State.segWriteRun
  repeat' (with_reducible first
    | assumption | intro _ | apply expireTransfers_keeps | apply putTransfer_keeps | apply landSegment_keeps | apply Upheld.ite
    | extract_lets | split | refine Upheld.of_pair ?_ (by assumption) | ((conv => arg 2; arg 27); apply Upheld.of_mk)
    | apply drop_le | exact (‹Upheld wq _›).sound.stack | exact (‹Upheld wq _›).sound.spi | exact (‹Upheld wq _›).sound.window
    | exact (‹Upheld wq _›).sound.queue | exact (‹Upheld wq _›).sound.keys | dsimp +zetaDelta only)

theorem execSegWrite_keeps {wq : List Instr} (a : Ask) (s : State) (hs : Upheld wq s) :
    ∃ s', execSegWrite a s = .next s' ∧ Upheld wq s' := by
  unfold execSegWrite
  refine ⟨_, rfl, ?_⟩
  repeat' (with_reducible first
    | assumption | intro _ | apply request_keeps | apply segWriteRun_keeps | extract_lets
    | ((conv => arg 2; arg 27); apply Upheld.of_mk) | exact (‹Upheld wq _›).sound.stack | exact (‹Upheld wq _›).sound.spi
    | exact (‹Upheld wq _›).sound.window | exact (‹Upheld wq _›).sound.queue | exact (‹Upheld wq _›).sound.keys
    | dsimp +zetaDelta only)

theorem segAbortRun_keeps {wq : List Instr} (s0 : State) (q : Request) (hs0 : Upheld wq s0) :
    Upheld wq (State.segAbortRun s0 q).2.2 := by
  unfold State.segAbortRun
  repeat' (with_reducible first
    | assumption | intro _ | apply expireTransfers_keeps | apply endTransfers_keeps | apply Upheld.ite | extract_lets | split
    | dsimp +zetaDelta only)

theorem execSegAbort_keeps {wq : List Instr} (a : Ask) (s : State) (hs : Upheld wq s) :
    ∃ s', execSegAbort a s = .next s' ∧ Upheld wq s' := by
  unfold execSegAbort
  refine ⟨_, rfl, ?_⟩
  repeat' (with_reducible first
    | assumption | intro _ | apply request_keeps | apply segAbortRun_keeps | extract_lets | dsimp +zetaDelta only)

theorem execTransferIdleTimeout_keeps {wq : List Instr} (id key : Nat) (s : State) (hs : Upheld wq s) :
    ∃ s', execTransferIdleTimeout id key s = .next s' ∧ Upheld wq s' := by
  unfold execTransferIdleTimeout
  refine ⟨_, rfl, ?_⟩
  repeat' (with_reducible first | assumption | intro _ | apply endTransfers_keeps | dsimp +zetaDelta only)

theorem execSegStream_keeps {wq : List Instr} (a : Ask) (s : State) (hs : Upheld wq s) :
    ∃ s', execSegStream a s = .next s' ∧ Upheld wq s' := by
  unfold execSegStream
  refine ⟨_, rfl, ?_⟩
  repeat' (with_reducible first
    | assumption | intro _ | apply dequeue_keeps | apply touch_keeps | apply withKlp_keeps | apply request_keeps | extract_lets
    | split | refine Upheld.of_pair ?_ (by assumption) | ((conv => arg 2; arg 27); apply Upheld.of_mk)
    | exact (‹Upheld wq _›).sound.stack | exact (‹Upheld wq _›).sound.spi | exact (‹Upheld wq _›).sound.window
    | exact (‹Upheld wq _›).sound.queue | exact (‹Upheld wq _›).sound.keys | dsimp +zetaDelta only)

theorem pumpStream_keeps {wq : List Instr} (s : State) (j : StreamJob) (hs : Upheld wq s) :
    Upheld wq (State.pumpStream s j) := by
  unfold State.pumpStream
  repeat' (with_reducible first
    | assumption | intro _ | apply withKlp_keeps | apply answer_keeps | apply enqueue_keeps | apply Upheld.ite | extract_lets
    | split | refine Upheld.of_pair ?_ (by assumption) | ((conv => arg 2; arg 27); apply Upheld.of_mk)
    | exact (‹Upheld wq _›).sound.stack | exact (‹Upheld wq _›).sound.spi | exact (‹Upheld wq _›).sound.window
    | exact (‹Upheld wq _›).sound.queue | exact (‹Upheld wq _›).sound.keys | dsimp +zetaDelta only)

theorem pumpStreams_keeps {wq : List Instr} (s : State) (hs : Upheld wq s) :
    Upheld wq (State.pumpStreams s) := by
  unfold State.pumpStreams
  repeat' (with_reducible first | assumption | intro _ | apply pumpStream_keeps | apply Upheld.foldl | dsimp +zetaDelta only)

theorem wrongKey_keeps {wq : List Instr} (s : State) (id : Nat) (hs : Upheld wq s) :
    Upheld wq (State.wrongKey s id) := by
  unfold State.wrongKey
  repeat' (with_reducible first
    | assumption | intro _ | apply withKlp_keeps | apply Upheld.ite | extract_lets | split
    | ((conv => arg 2; arg 27); apply Upheld.of_mk) | exact (‹Upheld wq _›).sound.stack | exact (‹Upheld wq _›).sound.spi
    | exact (‹Upheld wq _›).sound.window | exact (‹Upheld wq _›).sound.queue | exact (‹Upheld wq _›).sound.keys
    | dsimp +zetaDelta only)

theorem unlockRun_keeps {wq : List Instr} (s : State) (q : Request) (hs : Upheld wq s) :
    Upheld wq (State.unlockRun s q).2.2 := by
  unfold State.unlockRun
  repeat' (with_reducible first
    | assumption | intro _ | apply wrongKey_keeps | apply setLevel_keeps | apply Upheld.ite | extract_lets | split
    | ((conv => arg 2; arg 27); apply Upheld.of_mk) | apply drop_le | exact (‹Upheld wq _›).sound.stack
    | exact (‹Upheld wq _›).sound.spi | exact (‹Upheld wq _›).sound.window | exact (‹Upheld wq _›).sound.queue
    | exact (‹Upheld wq _›).sound.keys | dsimp +zetaDelta only)

theorem execUnlock_keeps {wq : List Instr} (a : Ask) (s : State) (hs : Upheld wq s) :
    ∃ s', execUnlock a s = .next s' ∧ Upheld wq s' := by
  unfold execUnlock
  refine ⟨_, rfl, ?_⟩
  repeat' (with_reducible first
    | assumption | intro _ | apply request_keeps | apply unlockRun_keeps | apply Upheld.ite | extract_lets | split
    | dsimp +zetaDelta only)

theorem execUnlockLockoutEnd_keeps {wq : List Instr} (n : Nat) (s : State) (hs : Upheld wq s) :
    ∃ s', execUnlockLockoutEnd n s = .next s' ∧ Upheld wq s' := by
  unfold execUnlockLockoutEnd
  refine ⟨_, rfl, ?_⟩
  repeat' (with_reducible first
    | assumption | intro _ | apply withKlp_keeps | apply Upheld.ite | extract_lets | split
    | ((conv => arg 2; arg 27); apply Upheld.of_mk) | exact (‹Upheld wq _›).sound.stack | exact (‹Upheld wq _›).sound.spi
    | exact (‹Upheld wq _›).sound.window | exact (‹Upheld wq _›).sound.queue | exact (‹Upheld wq _›).sound.keys
    | dsimp +zetaDelta only)

theorem execLock_keeps {wq : List Instr} (a : Ask) (s : State) (hs : Upheld wq s) :
    ∃ s', execLock a s = .next s' ∧ Upheld wq s' := by
  unfold execLock
  refine ⟨_, rfl, ?_⟩
  repeat' (with_reducible first
    | assumption | intro _ | apply request_keeps | apply setLevel_keeps | extract_lets | dsimp +zetaDelta only)

theorem execSessionTimeout_keeps {wq : List Instr} (n : Nat) (s : State) (hs : Upheld wq s) :
    ∃ s', execSessionTimeout n s = .next s' ∧ Upheld wq s' := by
  unfold execSessionTimeout
  refine ⟨_, rfl, ?_⟩
  repeat' (with_reducible first
    | assumption | intro _ | apply setLevel_keeps | apply Upheld.ite | extract_lets | split
    | refine Upheld.of_pair ?_ (by assumption) | ((conv => arg 2; arg 27); apply Upheld.of_mk)
    | exact (‹Upheld wq _›).sound.stack | exact (‹Upheld wq _›).sound.spi | exact (‹Upheld wq _›).sound.window
    | exact (‹Upheld wq _›).sound.queue | exact (‹Upheld wq _›).sound.keys | dsimp +zetaDelta only)

theorem execKlpHeartbeat_keeps {wq : List Instr} (a : Ask) (s : State) (hs : Upheld wq s) :
    ∃ s', execKlpHeartbeat a s = .next s' ∧ Upheld wq s' := by
  unfold execKlpHeartbeat
  refine ⟨_, rfl, ?_⟩
  repeat' (with_reducible first
    | assumption | intro _ | apply request_keeps | apply masterHeard_keeps | apply Upheld.ite | extract_lets | split
    | dsimp +zetaDelta only)

theorem execManifest_keeps {wq : List Instr} (a : Ask) (s : State) (hs : Upheld wq s) :
    ∃ s', execManifest a s = .next s' ∧ Upheld wq s' := by
  unfold execManifest
  refine ⟨_, rfl, ?_⟩
  repeat' (with_reducible first
    | assumption | intro _ | apply dequeue_keeps | apply answer_keeps | apply request_keeps | apply Upheld.ite | extract_lets
    | split | dsimp +zetaDelta only)

theorem execEcho_keeps {wq : List Instr} (a : Ask) (s : State) (hs : Upheld wq s) :
    ∃ s', execEcho a s = .next s' ∧ Upheld wq s' := by
  unfold execEcho
  refine ⟨_, rfl, ?_⟩
  repeat' (with_reducible first | assumption | intro _ | apply request_keeps | extract_lets | dsimp +zetaDelta only)

theorem execKlpResponseAbandon_keeps {wq : List Instr} (c : Bus) (s : State) (hs : Upheld wq s) :
    ∃ s', execKlpResponseAbandon c s = .next s' ∧ Upheld wq s' := by
  unfold execKlpResponseAbandon
  refine ⟨_, rfl, ?_⟩
  repeat' (with_reducible first
    | assumption | intro _ | apply withKlp_keeps | apply Upheld.ite | extract_lets | split
    | refine Upheld.of_pair ?_ (by assumption) | ((conv => arg 2; arg 27); apply Upheld.of_mk)
    | exact (‹Upheld wq _›).sound.stack | exact (‹Upheld wq _›).sound.spi | exact (‹Upheld wq _›).sound.window
    | exact (‹Upheld wq _›).sound.queue | exact (‹Upheld wq _›).sound.keys | dsimp +zetaDelta only)

theorem execKlpFrameGapTimeout_keeps {wq : List Instr} (c : Bus) (peer : Nat) (s : State) (hs : Upheld wq s) :
    ∃ s', execKlpFrameGapTimeout c peer s = .next s' ∧ Upheld wq s' := by
  unfold execKlpFrameGapTimeout
  refine ⟨_, rfl, ?_⟩
  repeat' (with_reducible first
    | assumption | intro _ | apply closeMessage_keeps | apply discardKlp_keeps | apply Upheld.ite | extract_lets | split
    | refine Upheld.of_pair ?_ (by assumption) | ((conv => arg 2; arg 27); apply Upheld.of_mk)
    | exact (‹Upheld wq _›).sound.stack | exact (‹Upheld wq _›).sound.spi | exact (‹Upheld wq _›).sound.window
    | exact (‹Upheld wq _›).sound.queue | exact (‹Upheld wq _›).sound.keys | dsimp +zetaDelta only)

theorem execSpiRequestTransaction_keeps {wq : List Instr} (bytes : List Nat) (s : State) (hs : Upheld wq s) :
    ∃ s', execSpiRequestTransaction bytes s = .next s' ∧ Upheld wq s' := by
  unfold execSpiRequestTransaction
  refine ⟨_, rfl, ?_⟩
  repeat' (with_reducible first
    | assumption | intro _ | apply spiOutput_keeps | apply spiRequest_keeps | apply spiRead_keeps | apply Upheld.ite
    | extract_lets | split | refine Upheld.of_pair ?_ (by assumption) | ((conv => arg 2; arg 27); apply Upheld.of_mk)
    | exact (‹Upheld wq _›).sound.stack | exact (‹Upheld wq _›).sound.spi | exact (‹Upheld wq _›).sound.window
    | exact (‹Upheld wq _›).sound.queue | exact (‹Upheld wq _›).sound.keys | dsimp +zetaDelta only)

theorem execSpiResponseRead_keeps {wq : List Instr} (n : Nat) (s : State) (hs : Upheld wq s) :
    ∃ s', execSpiResponseRead n s = .next s' ∧ Upheld wq s' := by
  unfold execSpiResponseRead
  refine ⟨_, rfl, ?_⟩
  repeat' (with_reducible first
    | assumption | intro _ | apply spiRead_keeps | apply Upheld.ite | split | dsimp +zetaDelta only)

end Sys2Proof.Machine
end

