-- ==== Sys2Proof/Laws/KeepsTick.lean ====
section
/-!
SUPPORT. Every state that Machine/Tick.lean builds from a sound state is sound, with the same commands waiting.
-/
namespace Sys2Proof.Machine

theorem ueDram_keeps {wq : List Instr} (s : State) (kind : Nat) (addrs : List Nat) (hs : Upheld wq s) :
    Upheld wq (State.ueDram s kind addrs) := by
  unfold State.ueDram
  repeat' (with_reducible first
    | assumption | intro _ | apply uncorrectable_keeps | apply Upheld.foldl | dsimp +zetaDelta only)

theorem ueRow_keeps {wq : List Instr} (s : State) (i : RowIn) (y : Nat) (hs : Upheld wq s) :
    Upheld wq (State.ueRow s i y) := by
  unfold State.ueRow
  repeat' (with_reducible first | assumption | intro _ | apply ueDram_keeps | extract_lets | dsimp +zetaDelta only)

theorem ueSlot_keeps {wq : List Instr} (s : State) (i : RowIn) (hs : Upheld wq s) :
    Upheld wq (State.ueSlot s i) := by
  unfold State.ueSlot
  repeat' (with_reducible first
    | assumption | intro _ | apply ueRow_keeps | apply ueDram_keeps | apply uncorrectable_keeps | apply Upheld.foldl
    | apply Upheld.ite | extract_lets | split | refine Upheld.of_pair ?_ (by assumption)
    | ((conv => arg 2; arg 27); apply Upheld.of_mk) | exact (‹Upheld wq _›).sound.stack | exact (‹Upheld wq _›).sound.spi
    | exact (‹Upheld wq _›).sound.window | exact (‹Upheld wq _›).sound.queue | exact (‹Upheld wq _›).sound.keys
    | dsimp +zetaDelta only)

theorem ueVideo_keeps {wq : List Instr} (s : State) (i : RowIn) (hs : Upheld wq s) :
    Upheld wq (State.ueVideo s i) := by
  unfold State.ueVideo
  repeat' (with_reducible first
    | assumption | intro _ | apply ueDram_keeps | apply Upheld.ite | extract_lets | split
    | refine Upheld.of_pair ?_ (by assumption) | ((conv => arg 2; arg 27); apply Upheld.of_mk)
    | exact (‹Upheld wq _›).sound.stack | exact (‹Upheld wq _›).sound.spi | exact (‹Upheld wq _›).sound.window
    | exact (‹Upheld wq _›).sound.queue | exact (‹Upheld wq _›).sound.keys | dsimp +zetaDelta only)

theorem liveRow_keeps {wq : List Instr} (s : State) (i : RowIn) (hs : Upheld wq s) :
    Upheld wq (State.liveRow s i) := by
  unfold State.liveRow
  repeat' (with_reducible first
    | assumption | intro _ | apply ueVideo_keeps | apply videoRow_keeps | apply ueSlot_keeps | apply imageRow_keeps
    | apply driverRow_keeps | apply breakwaterRow_keeps | apply responseRow_keeps | apply pumpStreams_keeps | extract_lets
    | dsimp +zetaDelta only)

theorem rowWork_keeps {wq : List Instr} (s : State) (i : RowIn) (hs : Upheld wq s) :
    Upheld wq (State.rowWork s i) := by
  unfold State.rowWork
  repeat' (with_reducible first
    | assumption | intro _ | apply driverRow_keeps | apply liveRow_keeps | apply Upheld.ite | split | dsimp +zetaDelta only)

theorem advanceRow_keeps {wq : List Instr} (s : State) (hs : Upheld wq s) :
    Upheld wq (State.advanceRow s) := by
  unfold State.advanceRow
  repeat' (with_reducible first
    | assumption | intro _ | extract_lets | ((conv => arg 2; arg 27); apply Upheld.of_mk) | exact (‹Upheld wq _›).sound.stack
    | exact (‹Upheld wq _›).sound.spi | exact (‹Upheld wq _›).sound.window | exact (‹Upheld wq _›).sound.queue
    | exact (‹Upheld wq _›).sound.keys | dsimp +zetaDelta only)

theorem execRowSlot_keeps {wq : List Instr} (i : RowIn) (s : State) (hs : Upheld wq s) :
    ∃ s', execRowSlot i s = .next s' ∧ Upheld wq s' := by
  unfold execRowSlot
  refine ⟨_, rfl, ?_⟩
  repeat' (with_reducible first
    | assumption | intro _ | apply rowWork_keeps | apply advanceRow_keeps | apply Upheld.ite | split | dsimp +zetaDelta only)

theorem challenge_keeps {wq : List Instr} (s : State) (q : Quay) (hs : Upheld wq s) :
    Upheld wq (State.challenge s q) := by
  unfold State.challenge
  repeat' (with_reducible first
    | assumption | intro _ | apply setQuay_keeps | apply tickFree_keeps | apply Upheld.ite | extract_lets | split
    | ((conv => arg 2; arg 27); apply Upheld.of_mk) | exact (‹Upheld wq _›).sound.stack | exact (‹Upheld wq _›).sound.spi
    | exact (‹Upheld wq _›).sound.window | exact (‹Upheld wq _›).sound.queue | exact (‹Upheld wq _›).sound.keys
    | dsimp +zetaDelta only)

theorem tokenAfterStorm_keeps {wq : List Instr} (s : State) (hs : Upheld wq s) :
    Upheld wq (State.tokenAfterStorm s) := by
  unfold State.tokenAfterStorm
  repeat' (with_reducible first
    | assumption | intro _ | apply grantToken_keeps | apply Upheld.ite | apply setQuay_keeps | apply withHm_keeps | apply restoreCheckpoint_keeps | extract_lets | split
    | refine Upheld.of_pair ?_ (by assumption) | ((conv => arg 2; arg 27); apply Upheld.of_mk)
    | exact (‹Upheld wq _›).sound.stack | exact (‹Upheld wq _›).sound.spi | exact (‹Upheld wq _›).sound.window
    | exact (‹Upheld wq _›).sound.queue | exact (‹Upheld wq _›).sound.keys | dsimp +zetaDelta only)

theorem freshHandover_keeps {wq : List Instr} (s : State) (hs : Upheld wq s) :
    Upheld wq (State.freshHandover s) := by
  unfold State.freshHandover
  repeat' (with_reducible first
    | assumption | intro _ | apply moveToken_keeps | apply Upheld.ite | extract_lets | split
    | refine Upheld.of_pair ?_ (by assumption) | ((conv => arg 2; arg 27); apply Upheld.of_mk)
    | exact (‹Upheld wq _›).sound.stack | exact (‹Upheld wq _›).sound.spi | exact (‹Upheld wq _›).sound.window
    | exact (‹Upheld wq _›).sound.queue | exact (‹Upheld wq _›).sound.keys | dsimp +zetaDelta only)

theorem takeRxMap_keeps {wq : List Instr} (s : State) (hs : Upheld wq s) :
    Upheld wq (State.takeRxMap s) := by
  unfold State.takeRxMap
  repeat' (with_reducible first
    | assumption | intro _ | extract_lets | split | refine Upheld.of_pair ?_ (by assumption)
    | ((conv => arg 2; arg 27); apply Upheld.of_mk) | exact (‹Upheld wq _›).sound.stack | exact (‹Upheld wq _›).sound.spi
    | exact (‹Upheld wq _›).sound.window | exact (‹Upheld wq _›).sound.queue | exact (‹Upheld wq _›).sound.keys
    | dsimp +zetaDelta only)

theorem autonomousTick_keeps {wq : List Instr} (s : State) (hs : Upheld wq s) :
    Upheld wq (State.autonomousTick s) := by
  unfold State.autonomousTick
  repeat' (with_reducible first
    | assumption | intro _ | apply noteAutonomous_keeps | apply leaveAutonomous_keeps | apply Upheld.ite | extract_lets | split
    | ((conv => arg 2; arg 27); apply Upheld.of_mk) | exact (‹Upheld wq _›).sound.stack | exact (‹Upheld wq _›).sound.spi
    | exact (‹Upheld wq _›).sound.window | exact (‹Upheld wq _›).sound.queue | exact (‹Upheld wq _›).sound.keys
    | dsimp +zetaDelta only)

theorem sampleOut_keeps {wq : List Instr} (s : State) (cur : List Nat) (lim : List Bool) (i : Nat) (hs : Upheld wq s) :
    Upheld wq (State.sampleOut s cur lim i) := by
  unfold State.sampleOut
  repeat' (with_reducible first
    | assumption | intro _ | apply setOut_keeps | apply Upheld.ite | extract_lets | split
    | ((conv => arg 2; arg 27); apply Upheld.of_mk) | exact (‹Upheld wq _›).sound.stack | exact (‹Upheld wq _›).sound.spi
    | exact (‹Upheld wq _›).sound.window | exact (‹Upheld wq _›).sound.queue | exact (‹Upheld wq _›).sound.keys
    | dsimp +zetaDelta only)

theorem sampleFan_keeps {wq : List Instr} (s : State) (i : TickIn) (c : Nat) (hs : Upheld wq s) :
    Upheld wq (State.sampleFan s i c) := by
  unfold State.sampleFan
  repeat' (with_reducible first
    | assumption | intro _ | apply setFan_keeps | extract_lets | ((conv => arg 2; arg 27); apply Upheld.of_mk)
    | exact (‹Upheld wq _›).sound.stack | exact (‹Upheld wq _›).sound.spi | exact (‹Upheld wq _›).sound.window
    | exact (‹Upheld wq _›).sound.queue | exact (‹Upheld wq _›).sound.keys | dsimp +zetaDelta only)

theorem stageSave_keeps {wq : List Instr} (s : State) (i : TickIn) (hs : Upheld wq s) :
    Upheld wq (State.stageSave s i) := by
  unfold State.stageSave
  repeat' (with_reducible first
    | assumption | intro _ | apply withNv_keeps | apply Upheld.ite | extract_lets | split
    | refine Upheld.of_pair ?_ (by assumption) | ((conv => arg 2; arg 27); apply Upheld.of_mk)
    | exact (‹Upheld wq _›).sound.stack | exact (‹Upheld wq _›).sound.spi | exact (‹Upheld wq _›).sound.window
    | exact (‹Upheld wq _›).sound.queue | exact (‹Upheld wq _›).sound.keys | dsimp +zetaDelta only)

theorem salvageTick_keeps {wq : List Instr} (s : State) (hs : Upheld wq s) :
    Upheld wq (State.salvageTick s) := by
  unfold State.salvageTick
  repeat' (with_reducible first
    | assumption | intro _ | apply withHm_keeps | extract_lets | ((conv => arg 2; arg 27); apply Upheld.of_mk)
    | exact (‹Upheld wq _›).sound.stack | exact (‹Upheld wq _›).sound.spi | exact (‹Upheld wq _›).sound.window
    | exact (‹Upheld wq _›).sound.queue | exact (‹Upheld wq _›).sound.keys | dsimp +zetaDelta only)

theorem countLate_keeps {wq : List Instr} (s : State) (i : TickIn) (hs : Upheld wq s) : Upheld wq (State.countLate s i) := by
  unfold State.countLate
  repeat' (with_reducible first | assumption | apply incSat_keeps | apply Upheld.ite)

theorem pilotTick_keeps {wq : List Instr} (s : State) (i : TickIn) (hs : Upheld wq s) :
    Upheld wq (State.pilotTick s i) := by
  unfold State.pilotTick
  repeat' (with_reducible first
    | assumption | intro _ | apply countLate_keeps | apply updateZones_keeps | apply runLoops_keeps | apply sendGroups_keeps | apply drainFifo_keeps
    | apply stageSave_keeps | apply salvageTick_keeps | apply Upheld.ite | extract_lets | split | dsimp +zetaDelta only)

theorem hardwareTick_keeps {wq : List Instr} (s : State) (i : TickIn) (hs : Upheld wq s) :
    Upheld wq (State.hardwareTick s i) := by
  unfold State.hardwareTick
  repeat' (with_reducible first
    | assumption | intro _ | apply challenge_keeps | apply sampleInputs_keeps | apply sampleOut_keeps | apply sampleFan_keeps
    | apply takeRxMap_keeps | apply tickRound_keeps | apply Upheld.foldl | extract_lets | dsimp +zetaDelta only)

theorem execTakeoverComplete_keeps {wq : List Instr} (t : Nat) (s : State) (hs : Upheld wq s) :
    ∃ s', execTakeoverComplete t s = .next s' ∧ Upheld wq s' := by
  unfold execTakeoverComplete
  refine ⟨_, rfl, ?_⟩
  repeat' (with_reducible first
    | assumption | intro _ | apply restoreCheckpoint_keeps | apply setOutage_keeps | apply withHm_keeps | apply popFault_keeps
    | apply evalPrograms_keeps | apply resumeTick_keeps | apply drainFifo_keeps | apply dueHeartbeat_keeps | apply countAsSwap_keeps | apply alarmOf_keeps | apply Upheld.ite | extract_lets | split
    | refine Upheld.of_pair ?_ (by assumption) | ((conv => arg 2; arg 27); apply Upheld.of_mk)
    | exact (‹Upheld wq _›).sound.stack | exact (‹Upheld wq _›).sound.spi | exact (‹Upheld wq _›).sound.window
    | exact (‹Upheld wq _›).sound.queue | exact (‹Upheld wq _›).sound.keys | dsimp +zetaDelta only)

theorem execControlTick_keeps {wq : List Instr} (i : TickIn) (s : State) (hs : Upheld wq s) :
    ∃ s', execControlTick i s = .next s' ∧ Upheld wq s' := by
  unfold execControlTick
  refine ⟨_, rfl, ?_⟩
  repeat' (with_reducible first
    | assumption | intro _ | apply hardwareTick_keeps | apply tokenAfterStorm_keeps | apply freshHandover_keeps
    | apply autonomousTick_keeps | apply engineHolds_keeps | apply pilotTick_keeps | apply Upheld.ite | extract_lets | split
    | dsimp +zetaDelta only)

end Sys2Proof.Machine
end

