-- ==== Sys2Proof/Laws/KeepsStep.lean ====
section
/-!
SUPPORT. Every state that Machine/Step.lean builds from a sound state is sound, with the same commands waiting.
-/
namespace Sys2Proof.Machine

theorem popCommand_keeps {wq : List Instr} (s : State) (rest : List Instr) (hs : Upheld wq s) : Upheld rest (State.popCommand s rest) :=
  ⟨⟨hs.sound.window, hs.sound.regs, hs.sound.stack, hs.sound.queue, hs.sound.spi, hs.sound.keys⟩, rfl⟩

theorem idle_keeps {wq : List Instr} (s : State) (hs : Upheld wq s) :
    ∃ s', idle s = .next s' ∧ Upheld wq s' := by
  unfold idle
  refine ⟨_, rfl, ?_⟩
  repeat' (with_reducible first | assumption | intro _ | apply rtcTick_keeps | dsimp +zetaDelta only)


end Sys2Proof.Machine
end

