-- ==== Sys2Proof/Laws/Ledger.lean ====
section
/-!
SUPPORT. What a served request and an accepted write come to, said once.
-/
namespace Sys2Proof.Machine

variable {s : State}

/-- The state in which a served request runs: `s` with the ledger engine's queue and sessions moved on. -/
def State.taken (s : State) (q : Request) : State := (s.dequeue q).touch q.req.id

theorem State.taken_eq (q : Request) : s.taken q = { s with klp := (s.taken q).klp } := rfl

theorem find_touched (l : List Session) (id r n : Nat) :
    ((l.map fun x => if x.id == r then { x with last := n } else x).find? fun x => x.id == id).map Session.level =
      (l.find? fun x => x.id == id).map Session.level := by
  induction l with
  | nil => rfl
  | cons x l ih =>
    rw [List.map_cons, List.find?_cons, List.find?_cons]
    have e : (if x.id == r then { x with last := n } else x).id = x.id := by split <;> rfl
    rw [e]
    cases hx : x.id == id
    · exact ih
    · show some _ = some _
      split <;> rfl

theorem State.levelOf_eq (t : State) (id : Nat) :
    t.levelOf id = ((t.klp.sessions.find? fun x => x.id == id).map Session.level).getD 0 := by
  unfold State.levelOf
  split <;> (rename_i h; rw [h]; rfl)

theorem State.levelOf_taken (q : Request) (id : Nat) : (s.taken q).levelOf id = s.levelOf id := by
  rw [State.levelOf_eq, State.levelOf_eq, ← find_touched s.klp.sessions id q.req.id s.now]
  rfl

/-- A served request: its checks, then what it runs, then its answer. -/
theorem request_served {q : Request} (h : s.serves q) (pre : State → Option Status) (run : State → Status × List Nat × State) :
    s.request q pre run = match pre (s.taken q) with
      | some st => (s.taken q).answer q st []
      | none => ((run (s.taken q)).2.2).answer q (run (s.taken q)).1 (run (s.taken q)).2.1 := by
  obtain ⟨hf, hk⟩ := h
  have hk' : (if opKept q.op then (s.dequeue q).keptFor q else none) = none := by
    split
    · next h => exact hk h
    · rfl
  unfold State.request
  rcases hf with hf | ⟨hf, hs⟩ | ⟨hf, hs⟩
  · simp only [hf]
    rw [hk']
    rfl
  · simp only [hf]
    rw [hk']
    simp [hs]
    rfl
  · simp only [hf]
    rw [hk']
    simp [hs]
    rfl

theorem checkWrite_taken (q : Request) (w : Wr) (key : Nat) : (s.taken q).checkWrite w key = s.checkWrite w key := by
  unfold State.checkWrite State.tallyOpen
  rw [State.levelOf_taken]
  rfl

/-- A served write that fails a check: its status, and nothing else. -/
theorem ledgerWrite_checked {w : Wr} {key : Nat} {st : Status} (h : s.serves (wrRequest w key)) (hc : s.checkWrite w key = some st)
    (rule : State → Nat → Status × State) : s.ledgerWrite w key rule = s.answered (wrRequest w key) st [] := by
  unfold State.ledgerWrite
  rw [request_served h]
  dsimp only
  rw [checkWrite_taken, hc]
  rfl

/-- A served write that its checks pass: the rule, then its answer. -/
theorem ledgerWrite_accepted {w : Wr} {key : Nat} (h : s.accepts w key) (rule : State → Nat → Status × State) :
    s.ledgerWrite w key rule = ((rule (s.taken (wrRequest w key)) w.val).2).answer (wrRequest w key)
      (rule (s.taken (wrRequest w key)) w.val).1 [] := by
  unfold State.ledgerWrite
  rw [request_served h.1]
  dsimp only
  rw [checkWrite_taken, h.2]

theorem deliver_eq (t : State) (r : Resp) : t.deliver r = { t with klp := (t.deliver r).klp } := by
  unfold State.deliver
  split
  · split <;> rfl
  · rfl

theorem deliver_klp {t u : State} (r : Resp) (hk : t.klp = u.klp) : (t.deliver r).klp = (u.deliver r).klp := by
  unfold State.deliver
  split
  · rw [hk]; split <;> rfl
  · dsimp only; rw [hk]

theorem keep_klp {t u : State} (q : Request) (r : Resp) (hk : t.klp = u.klp) (hn : t.tide = u.tide) :
    (t.keep q r).klp = (u.keep q r).klp := by
  unfold State.keep State.now
  dsimp only
  rw [hk, hn]

/-- An answer touches the ledger engine alone, and depends on it, on T64 and on the request. -/
theorem answer_eq (q : Request) (st : Status) (data : List Nat) (t : State) :
    t.answer q st data = { t with klp := (t.answer q st data).klp } := by
  unfold State.answer
  extract_lets r k0 s1 s2
  rw [deliver_eq s2 r]
  have e : s2 = { t with klp := s2.klp } := by
    unfold s2
    split <;> rfl
  exact congrArg (fun u : State => { u with klp := (s2.deliver r).klp }) e

theorem answer_klp {t u : State} (q : Request) (st : Status) (data : List Nat) (hk : t.klp = u.klp) (hn : t.tide = u.tide) :
    (t.answer q st data).klp = (u.answer q st data).klp := by
  unfold State.answer
  extract_lets r k1 a1 a2 k2 b1 b2
  have h1 : a1.klp = b1.klp := by unfold a1 b1 k1 k2; dsimp only; rw [hk]
  have h2 : a1.tide = b1.tide := hn
  refine deliver_klp r ?_
  unfold a2 b2
  split
  · exact keep_klp q r h1 h2
  · exact h1

/-- A request that the ledger does not serve touches the ledger engine alone. -/
theorem request_unserved {q : Request} (h1 : s.serving q.req.port ≠ .full) (h2 : s.serving q.req.port ≠ .standby)
    (h3 : s.serving q.req.port ≠ .recovery) (pre : State → Option Status) (run : State → Status × List Nat × State) :
    OnlyIn [.klp] [] s (s.request q pre run) := by
  have hd : OnlyIn [.klp] [] s (s.dequeue q) := dequeue_only _ _ (by decide) OnlyIn.refl
  unfold State.request
  dsimp only
  split
  · exact hd
  · repeat' (with_reducible first | exact hd | exact .inl (by decide) | exact .inr rfl | apply OnlyIn.of_mk)
  · exact enqueueRequest_only _ _ (by decide) hd
  · exact answer_only _ _ _ _ (by decide) hd
  · rename_i a b c d
    revert h1 h2 h3 a b c d
    cases s.serving q.req.port <;> simp

/-- What serving a request does touches the ledger engine alone. -/
theorem answered_only (q : Request) (st : Status) (data : List Nat) : OnlyIn [.klp] [] s (s.answered q st data) :=
  answer_only _ _ _ _ (by decide) (touch_only _ _ (by decide) (dequeue_only _ _ (by decide) OnlyIn.refl))

theorem Refuses.of {i : Instr} {w : Wr} {key : Nat} {st : Status} (h : exec i s = .next (s.answered (wrRequest w key) st [])) :
    Refuses i s w key st := ⟨_, h, answered_only _ _ _, rfl⟩

/-! ### Entries -/

theorem Nv.append_params (m : Nv) (key : Nat) (v : List Nat) : (m.append key v).1 = m.withParams (m.append key v).1 := by
  unfold Nv.append
  dsimp only
  split
  · rfl
  · unfold Nv.setArea; split <;> rfl

theorem Nv.withParams_trans {a b c : Nv} (h1 : b = a.withParams b) (h2 : c = b.withParams c) : c = a.withParams c := by
  rw [h2, h1]; rfl

theorem storeParam_nv (key : Nat) (v : List Nat) :
    ∃ n : Nv, n = s.nv.withParams n ∧ ((s.storeParam key v).1 = true → (s.storeParam key v).2 = { s with nv := n }) := by
  unfold State.storeParam
  extract_lets first second n start s1
  have e : n = s.nv.withParams n := by
    unfold n second
    split
    · exact Nv.append_params _ _ _
    · exact Nv.withParams_trans (Nv.append_params _ _ _) (Nv.append_params _ _ _)
  refine ⟨{ n with compacting := n.compacting || start }, ?_, ?_⟩
  · exact congrArg (fun m : Nv => { m with compacting := n.compacting || start }) e
  · split
    · exact fun _ => rfl
    · exact fun h => nomatch h

/-- An entry that takes its value: the register, and of the MRAM only the parameters partition. -/
theorem putEntry_ok {key v : Nat} (h : s.stores key v) :
    ∃ n : Nv, n = s.nv.withParams n ∧
      s.putEntry key v = (.ok, ({ s with nv := n } : State).setReg key v) := by
  unfold State.stores at h
  unfold State.putEntry at h ⊢
  split at h
  · exact nomatch h
  · next e he =>
    split at h
    · next hst =>
      rw [if_pos hst]
      obtain ⟨n, hn, hs⟩ := storeParam_nv (s := s) key (leBytes e.ty.bytes v)
      dsimp only at h ⊢
      split at h
      · next hp => rw [if_pos hp]; exact ⟨n, hn, by rw [hs hp]⟩
      · exact nomatch h
    · next hst => rw [if_neg hst]; exact ⟨s.nv, rfl, rfl⟩

/-- Whether the MRAM takes a record: what two attempts at most find (R420). -/
def Nv.takes (n : Nv) (key : Nat) (v : List Nat) : Bool :=
  if (n.append key v).2 then true else ((n.append key v).1.append key v).2

theorem storeParam_takes (key : Nat) (v : List Nat) : (s.storeParam key v).1 = s.nv.takes key v := by
  unfold State.storeParam Nv.takes
  extract_lets first second n start s1
  have e : second.2 = if first.2 = true then true else (first.1.append key v).2 := by
    unfold second
    split
    · next h => exact h
    · rfl
  rw [← e]
  split
  · next h => exact h.symm
  · next h => exact (Bool.eq_false_iff.mpr h).symm

theorem stores_taken {q : Request} {key v : Nat} (h : s.stores key v) : (s.taken q).stores key v := by
  unfold State.stores State.putEntry at *
  split at h
  · exact nomatch h
  · next e he =>
    dsimp only at h ⊢
    rw [storeParam_takes] at h ⊢
    split
    · next hst =>
      rw [if_pos hst] at h
      have hp : (s.taken q).nv.takes key (leBytes e.ty.bytes v) = true := by
        show s.nv.takes key (leBytes e.ty.bytes v) = true
        split at h
        · assumption
        · exact nomatch h
      rw [if_pos hp]
    · rfl

/-- The plain range of an entry, from its row. -/
theorem inRange_of {key v : Nat} {e : Entry} (h : findEntry key = some e) :
    inRange key v = (e.range.isEmpty || e.range.any fun p => withinI p.1 p.2 (e.read v)) := by
  unfold inRange; rw [h]

theorem plainRule_pos {key v : Nat} (h : inRange key v = true) : plainRule key s v = s.putEntry key v := by
  unfold plainRule; rw [if_pos h]

theorem plainRule_neg {key v : Nat} (h : ¬ inRange key v = true) : plainRule key s v = (.range, s) := by
  unfold plainRule; rw [if_neg h]

/-- A write whose rule refuses it: its status, and nothing else. -/
theorem Refuses.rule {i : Instr} {w : Wr} {key : Nat} {st : Status} {rule : State → Nat → Status × State}
    (he : exec i s = .next (s.ledgerWrite w key rule)) (ha : s.accepts w key)
    (hr : rule (s.taken (wrRequest w key)) w.val = (st, s.taken (wrRequest w key))) : Refuses i s w key st := by
  refine Refuses.of ?_
  rw [he, ledgerWrite_accepted ha, hr]
  rfl

/-- A write whose rule puts its value and does `f` besides. -/
theorem TakesWith.rule {i : Instr} {w : Wr} {key : Nat} {l : List Piece} {ks : List Nat} {p : State → Prop}
    {rule : State → Nat → Status × State} (f : State → State) (he : exec i s = .next (s.ledgerWrite w key rule))
    (ha : s.accepts w key) (hs : s.stores key w.val)
    (hr : rule (s.taken (wrRequest w key)) w.val = andThen ((s.taken (wrRequest w key)).putEntry key w.val) f)
    (hf : ∀ u, OnlyIn l ks u (f u)) (hl : l.contains .regs = false ∧ l.contains .klp = false ∧ l.contains .nv = false ∧
      l.contains .window = false ∧ l.contains .tide = false ∧ ks.contains key = false)
    (hp : ∀ n k, p { f (({ s with nv := n, klp := (s.taken (wrRequest w key)).klp } : State).setReg key w.val) with klp := k }) :
    TakesWith i s w key l ks p := by
  obtain ⟨n, hn, hput⟩ := putEntry_ok (stores_taken (q := wrRequest w key) hs)
  generalize hv : ({ s.taken (wrRequest w key) with nv := n } : State).setReg key w.val = v at hput
  have hput' : andThen ((s.taken (wrRequest w key)).putEntry key w.val) f = (.ok, f v) := by rw [hput]; rfl
  have hfv := hf v
  have nk : (f v).klp = v.klp := hfv.pieces .klp (by decide) (by simpa using hl.2.1)
  have nt : (f v).tide = v.tide := hfv.pieces .tide (by decide) (by simpa using hl.2.2.2.2.1)
  have nn : (f v).nv = v.nv := by
    have h1 : { (f v).nv with win := v.nv.win } = v.nv := hfv.pieces .nv (by decide) (by simpa using hl.2.2.1)
    have h2 : (f v).nv.win = v.nv.win := hfv.pieces .window (by decide) (by simpa using hl.2.2.2.1)
    rw [← h2] at h1
    exact h1
  have nr : (f v).reg key = v.reg key := hfv.entries (by simpa using hl.1) key (by simpa using hl.2.2.2.2.2)
  have ek : v.klp = (s.taken (wrRequest w key)).klp := by rw [← hv]; rfl
  have et : v.tide = s.tide := by rw [← hv]; rfl
  have en : v.nv = n := by rw [← hv]; rfl
  refine ⟨(f v).answer (wrRequest w key) .ok [], ?_, ?_, ?_, ?_, ?_, ?_⟩
  · rw [he, ledgerWrite_accepted ha, hr, hput']
  · refine answer_only _ _ _ _ ?_ ?_
    · simp [frameSub]
    · have h0 : OnlyIn (.klp :: .nv :: l) (key :: ks) s v := by
        rw [← hv]
        refine setReg_only _ _ _ (by simp [frameKey]) ?_
        have ht : OnlyIn (.klp :: .nv :: l) (key :: ks) s (s.taken (wrRequest w key)) :=
          touch_only _ _ (by simp [frameSub]) (dequeue_only _ _ (by simp [frameSub]) OnlyIn.refl)
        have hw : n.win = (s.taken (wrRequest w key)).nv.win := by rw [hn]; rfl
        repeat' (with_reducible first | exact ht | exact .inr hw | exact .inr rfl | exact .inl (by simp; done) | apply OnlyIn.of_mk)
      exact h0.trans (hfv.mono (frameSub_of_subset (fun p h => by simp [h]) (fun k h => by simp [h])))
  · rw [State.reg_congr (s := f v) (by rw [answer_eq]), nr, ← hv, State.reg_setReg_self]
  · rw [answer_klp (t := f v) (u := s.taken (wrRequest w key)) _ _ _ (nk.trans ek) (nt.trans et)]
    rfl
  · unfold ParamsOnly
    have : ((f v).answer (wrRequest w key) .ok []).nv = n := by rw [answer_eq]; exact nn.trans en
    rw [this]
    exact hn
  · rw [answer_eq]
    have := hp n ((f v).answer (wrRequest w key) .ok []).klp
    rw [← hv]
    rw [← hv] at this
    exact this

/-- A plain write: its rule only puts the value. -/
theorem Takes.rule {i : Instr} {w : Wr} {key : Nat} {rule : State → Nat → Status × State}
    (he : exec i s = .next (s.ledgerWrite w key rule)) (ha : s.accepts w key) (hs : s.stores key w.val)
    (hr : rule (s.taken (wrRequest w key)) w.val = (s.taken (wrRequest w key)).putEntry key w.val) : Takes i s w key :=
  TakesWith.rule (fun u => u) he ha hs (by rw [hr]; unfold andThen; split <;> (first | rfl | (rename_i h; rw [← h]))) (fun _ => OnlyIn.refl)
    (by simp) (fun _ _ => trivial)

/-- A write whose rule answers OK and does `f`, storing nothing. -/
theorem Obeys.rule {i : Instr} {w : Wr} {key : Nat} {l : List Piece} {ks : List Nat} {p : State → Prop}
    {rule : State → Nat → Status × State} (t : State) (he : exec i s = .next (s.ledgerWrite w key rule))
    (ha : s.accepts w key) (hr : rule (s.taken (wrRequest w key)) w.val = (.ok, t))
    (hf : OnlyIn l ks (s.taken (wrRequest w key)) t) (hl : l.contains .klp = false ∧ l.contains .tide = false)
    (hp : ∀ k, p { t with klp := k }) : Obeys i s w key l ks p := by
  have nk : t.klp = (s.taken (wrRequest w key)).klp := hf.pieces .klp (by decide) (by simpa using hl.1)
  have nt : t.tide = (s.taken (wrRequest w key)).tide := hf.pieces .tide (by decide) (by simpa using hl.2)
  refine ⟨t.answer (wrRequest w key) .ok [], ?_, ?_, ?_, ?_⟩
  · rw [he, ledgerWrite_accepted ha, hr]
  · refine answer_only _ _ _ _ (by simp [frameSub]) ?_
    refine OnlyIn.trans (s := s.taken (wrRequest w key)) ?_ (hf.mono (frameSub_of_subset (fun p h => by simp [h]) fun k h => h))
    exact touch_only _ _ (by simp [frameSub]) (dequeue_only _ _ (by simp [frameSub]) OnlyIn.refl)
  · rw [answer_klp (t := t) (u := s.taken (wrRequest w key)) _ _ _ nk nt]
    rfl
  · rw [answer_eq]
    exact hp _

end Sys2Proof.Machine
end

