-- ==== Sys2Proof/WellFormed.lean ====
section
/-!
DEFINITION. Which commands are well formed: every number a command carries lies within what the spec gives its operand. `exec` gives
a meaning to the others too; none of them is anything the outside world can do.
-/
namespace Sys2Proof

/-- A list of bytes. -/
def bytesOk (l : List Nat) : Bool := l.all fun b => Nat.blt b 256

/-- A list of conversions: bit 15 SAT, bits 13:0 CODE (R53). -/
def convsOk (n : Nat) (l : List Nat) : Bool := l.length == n && l.all fun w => Nat.blt w 65536 && w / 16384 % 2 == 0

/-- Columns of the array. -/
def colsOk (l : List Nat) : Bool := l.all fun x => Nat.blt x 2560

/-- Lowest and highest value of an operand. -/
def between (lo hi n : Nat) : Bool := Nat.ble lo n && Nat.ble n hi

/-- A requester: a node 0 to 127, a TAG of one byte (R361, R387). -/
def Req.wf (r : Req) : Bool := Nat.blt r.node 128 && Nat.blt r.tag 256

/-- A ledger write: the value fits the data length, and the message its port (R387, R394). -/
def Wr.wf (w : Wr) : Bool := w.req.wf && Nat.ble w.len 4096 && Nat.blt w.val (256 ^ w.len)

/-- A ledger request: index, sub and data as a message can carry them (R387). -/
def Ask.wf (a : Ask) : Bool :=
  a.req.wf && Nat.blt a.index 65536 && Nat.blt a.sub 256 && bytesOk a.data &&
    Nat.ble a.data.length (match a.req.port with
      | .spi => 4096
      | .can _ => 512)

/-- A frame of 11-bit identifier: classic with up to 8 bytes, FD with one of its lengths (R354). -/
def CanFrame.wf (f : CanFrame) : Bool :=
  Nat.blt f.id 2048 && bytesOk f.data &&
    (if f.fd then [0, 1, 2, 3, 4, 5, 6, 7, 8, 12, 16, 20, 24, 32, 48, 64].contains f.data.length else Nat.ble f.data.length 8)

/-- What a row slot brings. -/
def RowIn.wf (i : RowIn) : Bool :=
  convsOk 2560 i.raw && convsOk 64 i.spare && i.ueCoef.all (fun c => Nat.blt c 3932160) &&
    i.ueShadow.all (fun c => Nat.blt c 1310720) && colsOk i.uePrev && colsOk i.ueFill && colsOk i.ueBlind && colsOk i.ueSum &&
    colsOk i.ueOut && (match i.uePlane with
      | none => true
      | some a => Nat.blt a 0x8000000) &&
    i.edges.all fun e => between 1 9 e.src && Nat.blt e.pos 40 && e.who == 0

/-- What slot 2064 brings. -/
def CloseIn.wf (i : CloseIn) : Bool :=
  i.bands.length == 16 && i.scrub.all (fun h => Nat.blt h.mem 5) && i.laps.all fun p => Nat.blt p.1 4

/-- What a control tick brings. -/
def TickIn.wf (i : TickIn) : Bool :=
  i.di.length == 8 && i.cur.length == 16 && i.lim.length == 16 && i.vout.length == 2 && i.iout.length == 2 && i.ilim.length == 2 &&
    i.cur.all (fun v => Nat.blt v 65536) && i.vout.all (fun v => Nat.blt v 65536) && i.iout.all (fun v => Nat.blt v 65536) &&
    (match i.save with
      | none => true
      | some p => between 1 65535 p.1 && Nat.ble p.2.length 4072 && bytesOk p.2)

/-- The outcome of a read of an identity memory. -/
def IdRead.wf : IdRead → Bool
  | .bytes b => b.length == 256 && bytesOk b
  | .failed => true
  | .stuck => true

/-- The code of an error: those of `LAST_ERROR` (R377). -/
def TxError.wf : TxError → Bool
  | .lostArbitration => true
  | .error c => between 1 7 c
def RxError.wf : RxError → Bool
  | .error c => between 1 7 c
  | .fdException => true

/-- A command is well formed. -/
def Instr.wf : Instr → Bool
  | .powerDieStart _ | .tideStart | .masterStartTimeout | .bootVerifyDone | .lightsEntry | .lightsOwnerTimeout => true
  | .factoryDecompressionDone bad => bad.all fun y => Nat.blt y 2048
  | .pllLock _ | .pllUnlock _ => true
  | .rowSlot i => i.wf
  | .coefReloadDone shadow w => Nat.blt w (if shadow then 1310720 else 3932160)
  | .frameBoundary | .settlingEnd | .gainChange | .newEpoch => true
  | .frameClose i => i.wf
  | .gradientClear n => Nat.blt n 7
  | .bandSensorExcluded n => Nat.blt n 16
  | .converterSelfTest codes => codes.length == 2624 && codes.all fun c => Nat.blt c 16384
  | .berthAlarmRaise n | .berthAlarmClear n | .berthOccupied n | .berthVacant n => Nat.blt n 8192
  | .tablePublication => true
  | .controlTick i => i.wf
  | .heartbeatRequest => true
  | .heartbeatStrobe _ _ => true
  | .heartbeatWindowEnd => true
  | .selfCheckResponse _ v => Nat.blt v (2 ^ 32)
  | .selfCheckTimeout _ | .watchdogRestart _ | .watchdogExpiry _ | .quayClockFault _ | .quayRailFault _ => true
  | .pilotMemoryError _ m a => Nat.blt m 5 && Nat.blt a (2 ^ 32)
  | .memoryRetryOutcome _ _ => true
  | .hmVoteMismatch c _ => between 1 3 c
  | .wharfWrite _ o v => Nat.blt o 18 && Nat.blt v 65536
  | .checkpointArrival _ len => Nat.ble len 65504
  | .takeoverComplete _ | .takeoverTimeout | .quayResetRelease _ | .quaySelfTestDone _ _ | .passHoldTimeout _ | .quaySyncDone _ => true
  | .salvageAfterFailover | .stormAutoExit => true
  | .hmSwap r | .hmRejoinTest r | .hmStormExit r | .hmStormEnter r | .hmRetireA r | .hmRetireB r | .hmClearCounts r => r.wf
  | .stormValueWrite n w => between 1 18 n && w.wf
  | .salvageRelease w => w.wf
  | .masterClockLoss | .pllRelock | .rcTrim _ | .clockReturn => true
  | .sunHoldExpiry n => Nat.blt n 1280
  | .intervalExpiry | .bringUpTrigger => true
  | .calCycle r | .calCycleRef r | .calAbort r | .calQualifySpares r | .calShutterTest r | .calLoadFactory r => r.wf
  | .chamberFillDone => true
  | .spareQualificationDone sums codes =>
    sums.length == 2624 && sums.all (fun l => l.length == 7) && codes.length == 2624 && codes.all fun c => Nat.blt c 16384
  | .restoreTimeout | .outFrameReadTimeout => true
  | .gainModeWrite w | .rateModeWrite w | .imagerModeWrite w | .outputFormWrite w | .filterShiftWrite w => w.wf
  | .lensWrite n w => between 2 4 n && w.wf
  | .gradientLimitWrite n w => between 0x11 0x12 n && w.wf
  | .groupStateWrite n w => Nat.blt n 64 && w.wf
  | .berthEntryWrite n sub w => Nat.blt n 8192 && between 1 19 sub && w.wf
  | .editHoldWrite w | .videoEnableWrite w => w.wf
  | .streamStart => true
  | .videoLinkWrite n w => between 2 5 n && w.wf
  | .vc2RequestWrite w => w.wf
  | .outCommandWrite n w | .outModeWrite n w => Nat.blt n 16 && w.wf
  | .loopModeWrite n w | .loopTargetWrite n w => Nat.blt n 64 && w.wf
  | .pvSourceWrite l _ w => Nat.blt l 64 && w.wf
  | .zoneOverrideWrite n w => Nat.blt n 32 && w.wf
  | .overrideExpiry n | .presenceHoldExpiry n => Nat.blt n 32
  | .switchPointWrite p j w => Nat.blt p 32 && Nat.blt j 16 && w.wf
  | .exceptionDateWrite n w => Nat.blt n 64 && w.wf
  | .programEvaluation | .masterSilentExpiry => true
  | .outputTrip n _ | .outputTripResume n => Nat.blt n 8
  | .thermalShutdown t => Nat.blt t 65536
  | .thermalResume => true
  | .floatingOverdriveEnd n => n == 0 || n == 2
  | .valvePeakEnd n => between 4 7 n
  | .fanCommandWrite n w | .fanIlimitWrite n w => Nat.blt n 2 && w.wf
  | .fanBandWrite c j w => Nat.blt c 2 && Nat.blt j 4 && w.wf
  | .fanTugEnd n | .fanWaitEnd n | .fanStallRetry n | .fanShort n | .fanShortOffEnd n | .rpmLearn n => Nat.blt n 2
  | .tachEdge n _ => Nat.blt n 4
  | .tachStop n => Nat.blt n 4
  | .rippleWindowEnd n _ => Nat.blt n 2
  | .adcEntryEnd ch sum _ => between 1 44 ch && Nat.blt sum (2 ^ 20)
  | .adcContinuousRound => true
  | .urgentRequestWrite w => w.wf
  | .adcCalCommand r => r.wf
  | .adcSelfCalDone g o _ => g.length == 6 && o.length == 6
  | .adcFactorWrite n w => between 1 12 n && w.wf
  | .aiConfigWrite ch sub w => between 1 12 ch && between 1 10 sub && w.wf
  | .diStuck n | .diChatterWindowEnd n => between 1 8 n
  | .idReaderStart => true
  | .modDetChange n _ => between 1 4 n
  | .idPoll a => Nat.blt a 256
  | .idReadDone n r => between 1 8 n && r.wf
  | .idReadRetry n | .idFaultRetry n => between 1 8 n
  | .idRereadWrite w => w.wf
  | .slotBindWrite n w => between 1 8 n && w.wf
  | .busModeWrite _ w | .tripleSampleWrite _ w => w.wf
  | .busModeApply _ | .busIntegrated _ | .busProbeEnd _ => true
  | .busTimingWrite _ sub w => [3, 4, 5, 7, 8, 9, 10].contains sub && w.wf
  | .canFrameReceived _ f _ => f.wf
  | .canTxComplete _ _ => true
  | .canTxError _ e => e.wf
  | .busoffRecoveryDone _ => true
  | .bwHoldExpiry n => Nat.blt n 65536
  | .bwSummary | .deviceHeartbeat | .netHeartbeatNow _ | .netLockAll _ | .netQuiet _ | .quietEnd | .netTimeRequest _ => true
  | .klpRead a => a.wf
  | .klpWrite key w => Nat.blt key (2 ^ 24) && w.wf
  | .compactionDone _ => true
  | .segReadStart a | .segRead a | .segWriteStart a | .segWrite a | .segAbort a | .segStream a => a.wf
  | .transferIdleTimeout id key => Nat.ble id 128 && Nat.blt key (2 ^ 24)
  | .unlock a => a.wf
  | .unlockLockoutEnd n => Nat.ble n 128
  | .lock a => a.wf
  | .sessionTimeout n => Nat.ble n 128
  | .klpHeartbeat a | .manifest a | .echo a => a.wf
  | .klpResponseAbandon _ => true
  | .spiRequestTransaction b => bytesOk b
  | .spiResponseRead n => Nat.ble 1 n
  | .irqClearWrite w | .resetCommandWrite w => w.wf
  | .deviceReset | .nvWren | .nvWrdi => true
  | .nvRdsr _ => true
  | .nvWrsr b => Nat.blt b 256
  | .nvRead a _ | .nvFastRead a _ => Nat.blt a (2 ^ 24)
  | .nvWrite a b _ => Nat.blt a (2 ^ 24) && bytesOk b
  | .nvRder _ => true
  | .nvCler => true
  | .nvRdid _ => true
  | .bucketLeak n => Nat.blt n 5
  | .logRecordWrite | .logStreamSend => true
  | .logClearWrite w | .logCursorWrite w => w.wf
  | .vaonLoss _ => true
  | .vaonReturn | .vbakDrop | .vbakReturn | .bridgeTimeout | .mooringDomainStart _ | .xtal32Stop | .xtal32Return => true
  | .dateTimeWrite w | .calendarOffsetWrite w | .subsecShiftWrite w => w.wf
  | .subsecSlewDone => true
  | .dstForward r | .dstBack r => r.wf
  | .calendarSecond => true
  | .alarmMatchWrite n w | .alarmStatusWrite n w => Nat.blt n 2 && w.wf
  | .trimWindow _ _ => true
  | .timeFrameSend | .driveFrame _ | .driveFault | .driveRailRecovered | .panelTempFallback | .frameMemoryCheck _ => true
  | .regionUpdateWrite w => w.wf
  | .regionCellsWrite n w => Nat.blt n 8 && w.wf
  | .panelModeChange | .stormPatternToggle => true
  | .keyScan c => Nat.blt c (2 ^ 36)
  | .keyRepeat n | .keyLong n | .keyStuck n => between 1 36 n
  | .keyReset => true
  | .feedAbsent _ | .feedPresent _ | .feedOvervoltage _ => true
  | .pfail us => Nat.ble us 65535
  | .uvlo _ | .brownout | .sharedRailFault | .sharedRailRecovered => true
  | .pfailLevelWrite w | .powerRequestWrite w => w.wf
  | .slackEntry | .wakeHoldEnd | .slipVerifyDone | .slipWriteDone _ | .slipLoadDone | .probationEnd => true
  | .slipLoadStandby r | .slipSwap r | .slipCommit r | .slipRollback r | .slipAbort r | .slipInstallReset r => r.wf
  | .jtagBypass | .jtagIdcode | .jtagSamplePreload | .jtagExtest | .jtagHighz | .jtagClamp | .trstAssert => true
  | .mainsModeWrite w => w.wf
  | .zcPulse t0 t1 => Nat.ble t0 t1
  | .mainsCrossingMissed | .holdoverExpiry => true
  | .registerWrite key w => Nat.blt key (2 ^ 24) && w.wf
  | .protocolError _ e => e.wf
  | .klpFrameGapTimeout _ p => Nat.blt p 256
  | .feedOvervoltageEnd _ | .quayFailWindowExpiry _ => true

end Sys2Proof
end

