-- ==== Sys2Proof/Tests/Slice0.lean ====
section
/-!
SUPPORT. The model's own tests: small checks of one command each, and, for every statement with hypotheses, concrete states and
operands that meet them.
-/
namespace Sys2Proof.Machine

/-! ### States to test on -/

/-- The SPI host, and a write of it. -/
def tReq : Req := { port := .spi, node := 0, tag := 1 }
def tWr (len v : Nat) : Wr := { req := tReq, len := len, val := v }
/-- A request of the SPI host. -/
def tAsk (key : Nat) (data : List Nat) : Ask := { req := tReq, index := key / 256, sub := key % 256, data := data }

/-- LIGHTS, Quay A active, Quay B its standby, the SPI host at FACTORY. -/
def tLive : State :=
  { State.reset with
    phase := .lights
    tide := { Tide.reset with running := true, t64 := 10 ^ 12 }
    pwr := { State.reset.pwr with rails := true, owned := true }
    hm := { State.reset.hm with
      owner := some .a, standbyReady := true
      quays := (State.reset.hm.quays.set .a { State.reset.quay .a with st := .active, inReset := false }).set .b
        { State.reset.quay .b with st := .standby, inReset := false } }
    klp := { State.reset.klp with sessions := [{ id := 128, level := 3, last := 0 }] } }

/-- The same with entries set. -/
def tSet (s : State) (l : List (Nat × Nat)) : State := l.foldl (fun t p => t.setReg p.1 p.2) s


def tOff : State := { tLive with pwr := { tLive.pwr with rails := false } }
def tDarkRun : State := { tLive with phase := .dark, hm := { tLive.hm with owner := none }, pwr := { tLive.pwr with owned := false } }
def tAwait : State := { State.reset with rtc := { State.reset.rtc with ticks := 2 ^ 48 - 1 } }
def tSilent : State := { tLive with pfail := true }
def tKept : State :=
  { tLive with klp := { tLive.klp with
      kept := [{ id := 128, rq := wrRequest (tWr 1 60) Reg.RATE_MODE, resp := respTo (wrRequest (tWr 1 60) Reg.RATE_MODE) .range [], time := 10 ^ 12 - 2 * clkSec }] } }
def tPublic : State := { tLive with klp := { tLive.klp with sessions := [] } }

def tHeld : State := { tOff with pwr := { tOff.pwr with railHeld := true } }
def tReset6 : State :=
  (tSet { tLive with keys := { tLive.keys with
      both := some 0
      keys := (tLive.keys.keys.set 0 { KeyUnit.idle with pressed := true }).set 1 { KeyUnit.idle with pressed := true } } }
    [(Reg.RESET_KEYS, 0x0102)])
def tDue : State := { tLive with klp := { tLive.klp with resetDue := some (10 ^ 12) } }
def tTally : Tally := { key := Reg.BROWNOUTS, tag := 1, base := 1207, incs := 7, frozen := false }

def tDarkBoot : State := tSet { tDarkRun with pwr := { tDarkRun.pwr with imageOk := false } } [(Reg.BOOT_TRIAL, 0xFF)]
def tDarkOk : State := { tDarkRun with pwr := { tDarkRun.pwr with imageOk := true } }
def tNoOwner : State := { tDarkRun with phase := .lights }

def tExp : State := tSet tLive [(Reg.FEEDS_EXPECTED, 1)]
def tPres : State := { tExp with pwr := { tExp.pwr with presA := true } }

def tHold : State := tSet tLive [(Reg.VHOLD_MV, 24000)]
def tSlack : State := { tSet tLive [(Reg.POWER_REQUEST, 1)] with power := .slack }
def tWish : State := tSet tLive [(Reg.POWER_REQUEST, 1)]
def tWake : State := { tLive with pwr := { tLive.pwr with hold := some 0 } }

def tRc : State := { tLive with tide := { tLive.tide with source := .rc .a } }
def tOutA : State := { tLive with hm := { tLive.hm with owner := some .b, quays := (tLive.hm.quays.set .a { tLive.quay .a with st := .out, inReset := true }).set .b { tLive.quay .b with st := .active } } }
def tRcRet : State := tSet tRc [(Reg.CLOCK_RETURN, 1)]
def tRcStay : State := tSet tRc [(Reg.CLOCK_RETURN, 0)]
def t60 : State := tSet tLive [(Reg.VARIANT, 60)]
def tEpoch : State :=
  { tSet tLive [(Reg.RATE_MODE, 30)] with tide := { tLive.tide with t64 := 125 * clocksPerFrame 60 } }

def tFree : State := { tSet tLive [(Reg.MAINS_MODE, 1), (Reg.MAINS_STATE, msFree)] with mains := { tLive.mains with lastAccept := some 0 } }
def tLocked : State := { tSet tLive [(Reg.MAINS_MODE, 1), (Reg.MAINS_STATE, msLocked), (Reg.HALF_PERIOD, 500000)] with
  mains := { tLive.mains with lastAccept := some 0, phaseRef := 10 ^ 12 } }
def tOver : State := tSet tLocked [(Reg.MAINS_STATE, msHoldover), (Reg.HOLDOVER_TIME, 1)]

/-- The tide at row r of a frame. -/
def tAt (r : Nat) (s : State) : State := { s with tide := { s.tide with t64 := 400 * r } }
def tTide : State := { tLive with tide := { tLive.tide with running := false } }
def tBands : List (Option Nat) := [none, some 300000]
def tSettle : State := { tAt 0 tLive with focal := { tLive.focal with settling := 1 } }
def tReturn : State := { tAt 2064 tRc with tide := { (tAt 2064 tRc).tide with returnReady := true } }

def tTick : State := tAt 0 tLive
def tExit : State := { tTick with hm := { tTick.hm with owner := none, stormExit := some .b } }

def tGain : State := tSet (tAt 0 tLive) [(Reg.GAIN_MODE, 1)]
def tReload : State := { tLive with pipe := { tLive.pipe with reloads := [(false, 7), (true, 7)] } }
def tSun : State := { tLive with focal := { tLive.focal with sun := [(0, 1)], strikeT := [(tileOf 0, 1)] } }
def tGrad : State := { tSet tLive [(Reg.GRADIENT_FLAGS, 0x7F)] with focal := { tLive.focal with clearRun := List.replicate 7 60 } }
def tSensor : State := { tLive with focal := { tLive.focal with sensorBad := [15] } }
def tTest : State :=
  { tAt 2065 tLive with focal := { tLive.focal with bias := true, groups := tLive.focal.groups.set 0 { tLive.focal.groups.getD 0 default with st := 1, fails := 1 } } }

def tCal (c : CalPart) : State := { tLive with cal := c }
def tInterval : State := tCal { tLive.cal with lastAccept := some 0, state := 3 }
def tBring : State := tCal { tLive.cal with imagerStart := some 0, state := 1 }
def tFill (b : Bool) : State := tCal { tLive.cal with chamber := .filling b }
def tQual : State := tCal { tLive.cal with qual := true }
def tRest : State := tCal { tLive.cal with restore := some { set := [], bands := [], last := 0 }, chamber := .primed }

def tRun (r : BerthRun) (s : State) : State := { s with berth := { s.berth with runs := [r] } }
def tHot : State := tRun { (default : BerthRun) with num := 3, hi := 255, lo := 255 } tLive
def tHigh : State := tRun { (default : BerthRun) with num := 3, alarm := 1, clr := 255 } tLive
def tSeat : State := let s := tRun { (default : BerthRun) with num := 3, on := 255 } tLive; { s with berth := { s.berth with inForce := [(berthKey 3 1, 3)] } }
def tLeft : State := tRun { (default : BerthRun) with num := 3, occ := true, away := 10 ^ 9 } tLive
def tPub : State := tAt 2068 (tRun { (default : BerthRun) with num := 3, hi := 255, lo := 255, events := [(1, 0)] } tLive)

/-! ### The harbourmaster -/

def tQuay (q : Quay) (f : QuayUnit → QuayUnit) (s : State) : State := { s with hm := { s.hm with quays := s.hm.quays.set q (f (s.quay q)) } }
def tTake (k : Takeover) (s : State) : State := { s with hm := { s.hm with takeover := some k } }
def tStorm : State := { tLive with hm := { tLive.hm with owner := none, storm := true, stormManual := true, quays := tLive.hm.quays.set .a { tLive.quay .a with st := .selfTest, inReset := true } } }
def tMissed : State := tQuay .a (fun u => { u with misses := 2 }) (tQuay .b (fun u => { u with counted := true }) tLive)
def tMissedB : State := tQuay .b (fun u => { u with misses := 3 }) (tQuay .a (fun u => { u with counted := true }) tLive)
def tFull : State := { tMissed with hm := { tMissed.hm with stack := List.replicate 4 default } }

def tAsked : State := tQuay .a (fun u => { u with challenge := some 5 }) tLive
def tTaking : State := tTake { dest := .a, start := 0, cause := 1, planned := false } tLive

def tPushed : State := { tLive with hm := { tLive.hm with stack := [{ (default : FaultEntry) with cause := causeMemory, level := 1, quay := Quay.a.code }] } }

def tBad : State := { tLive with hm := { tLive.hm with mirrorBad := 1 } }

def tTested : State := tQuay .b (fun u => { u with st := .selfTest, inReset := false }) tLive
def tLone : State := tQuay .a (fun u => { u with st := .out, inReset := true }) { tTested with hm := { tTested.hm with owner := none } }
def tWaits : State := tQuay .a (fun u => { u with st := .selfTest, inReset := false }) { tTested with hm := { tTested.hm with owner := none } }
def tHolds : State := tQuay .b (fun u => { u with passHeld := true }) tWaits
def tSync : State := tQuay .b (fun u => { u with st := .syncing }) tLive
def tOld : State := { tQuay .b (fun u => { u with fails := [0, 5] }) tLive with rtc := { tLive.rtc with ticks := 24 * 3600 * 32768 } }

def tSalv : State := { tLive with hm := { tLive.hm with salvageIn := some 0 } }
def tAuto : State := tSet tStorm [(Reg.STORM_AUTO_EXIT, 1)]
def tCode (v : Nat) : Wr := { req := tReq, len := 1, val := v }
def tWrit : State := { tLive with act := { tLive.act with outs := tLive.act.outs.set 15 { tLive.out 15 with hmValue := false } } }

def tPlan : State := tTake { dest := .b, start := 0, cause := 0, planned := true } tLive
def tSimplex : State := { tLive with hm := { tLive.hm with standbyReady := false } }
def tOutB : State := tQuay .b (fun u => { u with st := .out, inReset := true }) tLive
def tMine : State := { tQuay .a (fun u => { u with st := .standby }) (tQuay .b (fun u => { u with st := .active }) tLive) with hm := { (tQuay .a (fun u => { u with st := .standby }) (tQuay .b (fun u => { u with st := .active }) tLive)).hm with owner := some .b } }

/-! ### Calibration, imager, stream -/

def tOper : State := { tLive with klp := { tLive.klp with sessions := [{ id := 128, level := 1, last := 0 }] } }
def tCycle : State := tCal { tLive.cal with cycle := some { (default : Cycle) with begun := true } }
def tCycleOp : State := { tCycle with klp := { tCycle.klp with sessions := [{ id := 128, level := 1, last := 0 }] } }
def tStill : State := { tLive with focal := { tLive.focal with shutter := { tLive.focal.shutter with ramio := true, ntcOk := true } } }
def tLock : State := tCal { tLive.cal with chamber := .empty, state := 1 }

def tVideo : State := tSet tLive [(Reg.VIDEO_ENABLE, 1), (Reg.LANES, 1), (Reg.LANE_RATE, 400), (Reg.IMAGER_MODE, 3)]
def tScreen : State := { tLive with berth := { tLive.berth with inForce := [(berthKey 3 1, 4)] }, pipe := { tLive.pipe with mask := [(0, 1)] } }
def tLimits : State := tSet tLive [(Reg.GRADIENT_LIMIT, 200), (Reg.GRADIENT_CLEAR, 150)]
def tSpare (st : Nat) : State :=
  { tLive with focal := { tLive.focal with groups := tLive.focal.groups.set 63 { tLive.focal.groups.getD 63 default with st := st } } }

def tTight : State := tSet tLive [(Reg.LANES, 1), (Reg.LANE_RATE, 400)]
def tLane : State := tSet tLive [(Reg.VIDEO_ENABLE, 1)]
def tNoVid : State := tSet tLive [(Reg.VIDEO_ENABLE, 0)]
def tPlane : State := { tLive with video := { tLive.video with plane := some { code := 1, line := 0 } } }

/-! ### Outputs and fans -/

def tOut (n : Nat) (f : OutUnit → OutUnit) (s : State) : State := { s with act := { s.act with outs := s.act.outs.set n (f (s.out n)) } }
def tFan (n : Nat) (f : FanUnit → FanUnit) (s : State) : State := { s with act := { s.act with fans := s.act.fans.set n (f (s.fan n)) } }
def tTach (n : Nat) (f : TachUnit → TachUnit) (s : State) : State := { s with act := { s.act with tachs := s.act.tachs.set n (f (s.tach n)) } }
def tVin : State := tSet { tLive with act := { tLive.act with vin := 24000 } } [(Reg.FAN_TACHS 0, 3), (Reg.FAN_TACHS 1, 0), (Reg.VHOLD_MV, 24000)]
def tNamed : State := tSet tLive [(Reg.LOOP_MODE 5, 1), (Reg.TARGET 5, outTarget 15)]
def tNamedFan : State := tSet tLive [(Reg.LOOP_MODE 5, 1), (Reg.TARGET 5, 256 * 5 + 2)]
def tFloat : State := tSet tLive [(Reg.OUT_MODE 0, 1)]
def tBandOne : State := tSet tLive [(Reg.FAN_BAND 1 0, 0x27102328)]
def tHeldFan : State := { tLive with loop := { tLive.loop with engines := tLive.loop.engines.set 1 { tLive.engine 1 with held := true } } }

def tTrip : State := tOut 7 (fun o => { o with trips := [0, 10 ^ 12 - 1, 10 ^ 12 - 2] }) tLive
def tWaitOut : State := tOut 0 (fun o => { o with waiting := true }) tLive
def tThermal : State := tFan 1 (fun f => { f with target := 12000, cmd := 12000 }) { tVin with act := { tVin.act with thermal := true } }
def tDrive : State := tOut 2 (fun o => { o with overs := true }) tLive

def tTug (attempt edges : Nat) : State :=
  tTach 0 (fun k => { k with tugEdges := edges }) (tTach 1 (fun k => { k with tugEdges := edges })
    (tFan 0 (fun f => { f with st := .tug, attempt := attempt, cmd := 12000 }) tVin))
def tTugFree : State := tFan 1 (fun f => { f with st := .tug, cmd := 12000 }) tVin
def tFanIn (st : FanState) : State := tFan 0 (fun f => { f with st := st, cmd := 12000, target := 12000, attempt := 2 }) tVin
def tShort (latched : Bool) : State := tFan 0 (fun f => { f with st := .shortOff, short := true, latched := latched, cmd := 12000 }) tVin

def tEdge : State := tSet (tTach 3 (fun k => { k with edges := [2000000, 1000000] }) tVin) [(Reg.TACH_PPR 3, 2)]
def tStop : State := tTach 1 (fun k => { k with st := .running, edges := [0] }) (tFanIn .running)
def tLearn (perV : Nat) : State := tTach 1 (fun k => { k with st := .running, rpm := 3000, perV := perV }) (tFanIn .running)

/-! ### Loops and schedules -/

def tLoops : State := tSet tLive [(Reg.LOOP_MODE 63, 2), (Reg.TARGET 63, 0x0101), (Reg.TARGET 0, 0x0101)]
def tBerthSrc : State := { tLive with berth := { tLive.berth with inForce := [(berthKey 40 1, 2)] } }
def tMeas : State := tSet tLive [(Reg.KIND 40, 2)]

def tLoop : State := tSet tLive [(Reg.OUT_MIN 3, 100000), (Reg.OUT_MAX 3, 900000), (Reg.OUT_SLEW 3, 1000), (Reg.KP 3, 65536), (Reg.TI 3, 600)]
def tPoints : State := tSet tLive [(Reg.SWITCH_POINT 0 3, 0x1F380002), (Reg.SWITCH_POINT 0 4, 0x1F380001)]

def tZone (n : Nat) (z : ZoneRun) (s : State) : State := { s with loop := { s.loop with zones := s.loop.zones.set n z } }
def tEnds : State := tSet (tZone 31 { ends := some (10 ^ 12), present := false, holding := true } tLive) [(Reg.ZONE_OVERRIDE 31, 1)]
def tMaster : State :=
  { tSet tLive [(Reg.MASTER_SOURCE, 5)] with klp := { tLive.klp with masterHb := some 0 }, loop := { tLive.loop with seenMaster := true, defaultTable := true } }
def tMin : State := tSet tLive [(Reg.OVERRIDE_TIME 31, 2)]

/-! ### Sensing -/

def tSens (f : SensPart → SensPart) (s : State) : State := { s with sens := f s.sens }
def tRound : State := tSens (fun x => { x with adc := .round 12, cfg := { (default : AdcCfg) with mode := 1, avg := 4 }, prevOvr := [12] }) tLive
def tCont : State := tSet (tSens (fun x => { x with adc := .idle }) tLive) [(Reg.SEQ_PERIOD, 0)]
def tAdc : State := tSet (tSens (fun x => { x with adc := .idle, calDue := false }) tLive) [(Reg.SEQ_PERIOD, 10), (Reg.AI_MODE 0, 1)]
def tSelf : State := tSens (fun x => { x with adc := .selfCal none }) tLive

def tDi (n : Nat) (f : DiUnit → DiUnit) (s : State) : State := tSens (fun x => { x with dis := x.dis.set (n - 1) (f (s.di n)) }) s
def tSlot (n : Nat) (f : IdSlot → IdSlot) (s : State) : State := tSens (fun x => { x with idOn := true, slots := x.slots.set (n - 1) (f (s.slot n)) }) s
def tStuck : State := tSet (tDi 8 (fun d => { d with filt := true, since := 0 }) tLive) [(Reg.DI_STUCK_TIME 7, 60)]
def tChat : State := tDi 1 (fun d => { d with chatter := true, complete := true, edges := 1 }) tLive
def tReads (n a : Nat) : State := tSlot n (fun x => { x with st := .reading, reading := true, attempts := a }) tLive
def tFault : State := tSlot 8 (fun x => { x with st := .fault }) tLive
/-- A shutter record (R350, R351). -/
def tRecord : List Nat :=
  let b := [0x52, 0x49, 1, 2] ++ List.replicate 44 0 ++ [250, 0, 0x6B, 0x0D, 0x10, 0x27] ++ List.replicate 200 0
  b ++ leBytes 2 (crc16 b)

def tBound : State := tSet tLive [(Reg.SLOT_BIND 0, 1)]

/-! ### The building bus -/

def tChan (c : Bus) (f : Channel → Channel) (s : State) : State := { s with bus := { s.bus with ch := s.bus.ch.set c (f (s.chan c)) } }
def tNode : State := tSet tLive [(Reg.NODE_ID, 9)]
def tBoff : State := tChan .two (fun x => { x with active := .normal, busOff := true }) tLive
def tAsksMode (m : ChMode) : State := tChan .two (fun x => { x with active := .normal, integrated := true, request := some m, queues := x.queues.set 3 [(default : TxFrame)] }) tLive
def tJoin : State := tChan .one (fun x => { x with active := .normal, queues := x.queues.set 3 [(default : TxFrame)] }) tLive
def tProbe (n : Nat) : State := tChan .one (fun x => { x with active := .restricted, integrated := true, probe := some n }) tLive
def tTiming : State := tChan .one (fun x => { x with active := .off }) tLive
def tTriple : State := tSet tTiming [(Reg.NOM_BITRATE 0, 125), (Reg.TRIPLE_SAMPLE 0, 1)]
def tRecov : State := tChan .two (fun x => { x with active := .normal, busOff := true, recovering := true, tec := 255 }) tLive

def tHear : State := tChan .one (fun x => { x with active := .normal, integrated := true }) tNode
def tF (id : Nat) (data : List Nat) : CanFrame := { id := id, fd := false, data := data, ext := false }
def tNoFd : State := tSet tHear [(Reg.FD_ENABLE 0, 0)]
def tMapped : State := { tHear with bus := { tHear.bus with rxMap := [(255, 5 + 256 * 200 + 65536)] } }
def tHb : State := tSet tHear [(Reg.MASTER_SOURCE, 5)]
def tOnBus (tec : Nat) (off : Bool) : State :=
  tChan .two (fun x => { x with active := .normal, integrated := true, offered := some 3, tec := tec, offSince := off, queues := x.queues.set 3 [{ f := tF 0x189 [1], copied := false, compact := none }] }) tNode

def tEvent : BwEvent := { source := 3, state := 1, cls := 2, reason := 0, value := 5, flags := 0 }
def tBw (x : BwSource) (s : State) : State := { s with bus := { s.bus with bw := { s.bus.bw.put x with running := true, second := [3], replaced := 4 } } }
def tBoth : State := tSet (tChan .two (fun x => { x with active := .normal, integrated := true }) tHear) [(Reg.HB_CHANNELS, 3), (Reg.TIME_CHANNELS, 3), (Reg.ALARM_CHANNELS, 3)]
def tHeld3 : State := tBw { source := 3, hold := true, pend := some tEvent, replaced := true, limited := true } tBoth
def tQuiet3 : State := tBw { source := 3, hold := true, pend := none, replaced := false, limited := false } tBoth
def tNet (n : Nat) : State := tChan .two (fun x => { x with rx := [{ f := tF 0 [n, 5, 1, 0, 0, 0, 0, 0], stamp := 5 }] }) (tSet tBoth [(Reg.MASTER_SOURCE, 5)])
def tHush : State := tChan .one (fun x => { x with active := .off }) { tBoth with bus := { tBoth.bus with quiet := true } }

/-! ### The ledger -/

def tCan : Ask := { req := { port := .can .one, node := 5, tag := 1 }, index := 0, sub := 0, data := [] }
def tFrozen : State := { tLive with nv := { tLive.nv with tallies := [{ key := Reg.BROWNOUTS, tag := 1, base := 0, incs := 0, frozen := true }] } }
def tXfer (key : Nat) (write : Bool) (len pos : Nat) (l : List Nat) (off : Option Nat) : Transfer :=
  { id := 128, port := .spi, key := key, write := write, length := len, pos := pos, lastOff := off, last := 10 ^ 12, data := l, snap := !write }
def tOpen (x : Transfer) : State := { tLive with klp := { tLive.klp with transfers := [x] } }
def tFourX : State := { tLive with klp := { tLive.klp with transfers := List.replicate 4 (tXfer Reg.PANEL_IMAGE false 288 0 [] none) } }
def tReadX : State := tOpen (tXfer Reg.BERTH_STATS false 6 0 [1, 2, 3, 4, 5, 6] none)
def tPanelX (pos : Nat) (l : List Nat) : State := tOpen (tXfer Reg.PANEL_IMAGE true 288 pos l (some (pos - 4)))
def tAskC (key : Nat) (data : List Nat) : Ask := { tAsk key data with req := tCan.req }

def tKeyed (n : Nat) : State := tSet { tLive with klp := { tLive.klp with sessions := (List.range n).map fun i => { id := i + 1, level := 1, last := 0 } } } [(Reg.KEY_OPERATOR, 0x0102)]
def tLockd (t : Nat) : State := { tLive with klp := { tLive.klp with fails := [{ id := 128, times := [t], locked := true }] } }
def tUn (level : Nat) (k : List Nat) : Ask := tAsk 0 (level :: k)
def tHmOnly : State := tQuay .b (fun u => { u with st := .out }) tStorm
def tHost : State := tSet tLive [(Reg.MASTER_SOURCE, 128)]

def tSending : State := { tLive with klp := { tLive.klp with sending := some { bus := .two, frames := [], since := 0 } } }
def tGap : State := { tLive with klp := { tLive.klp with rasm := [{ bus := .one, peer := 5, next := 1, data := [], last := 0 }] } }
def tMsg : List Nat := [0x30, 1, 0, 0, 0, 0, 0, 0]
def tBytes (crc : Nat) : List Nat := leBytes 2 tMsg.length ++ tMsg ++ leBytes 2 crc
def tCrc : Nat := crc16 (leBytes 2 tMsg.length ++ tMsg)
def tResp : Resp := { req := tReq, op := 0x30, index := 0, sub := 0, status := .ok, data := [] }
def tFifo (n : Nat) : State := { tLive with klp := { tLive.klp with fifo := List.replicate n tResp, linkErr := 1 } }

/-! ### The store, the logbook -/

def tNv (f : Nv → Nv) (s : State) : State := { s with nv := f s.nv }
def tWel : State := tNv (fun n => { n with wel := true, win := [(8, 1)] }) tLive
def tPage : State := tSet tWel [(Reg.NV_PAGE_MODE, 0)]
def tLin : State := tSet tWel [(Reg.NV_PAGE_MODE, 1)]
def tHalf : State := tNv (fun n => { n with openWord := some (1, [(0, 5)]) }) tWel
def tUe : State := tNv (fun n => { n with firstUe := some 0x012345 }) tLive

def tLogW (f : Log → Log) (s : State) : State := { s with log := f s.log }
def tRec (typ : Nat) : LogRec := { typ := typ, seq := 5, ticks := 0, gen := 0, payload := [1] }
def tCompact : State := tNv (fun n => { n with compacting := true }) ((tLive.putEntry Reg.FLAG_BETA 3436).2)
def tQueued (typ : Nat) : State := tLogW (fun l => { l with queue := [tRec typ], nextSeq := 6, resumePending := false }) tLive
def tStream (typ n : Nat) : State :=
  tLogW (fun l => { l with ring := [{ num := 0, recs := [tRec typ] }], streamNext := 5 })
    (tSet (tChan .two (fun x => { x with queues := x.queues.set 5 (List.replicate n default) }) tBoth) [(Reg.LOG_STREAM, 2), (Reg.FD_ENABLE 1, 1), (Reg.STREAM_FILTER, 1)])

def tServ : State := { tLive with klp := { tLive.klp with sessions := [{ id := 128, level := 2, last := 0 }] } }
def tCursors : State := tLogW (fun l => { l with cursors := (List.range 8).map fun i => (i + 1, i) }) tLive

/-! ### The mooring domain, the calendar -/

def tRtc (f : Rtc → Rtc) (s : State) : State := { s with rtc := f s.rtc }
def tMain : State := tRtc (fun r => { r with supply := .main }) tLive
def tBackup : State := tRtc (fun r => { r with supply := .backup }) tLive
def tBridge : State := tRtc (fun r => { r with supply := .bridge }) tLive
def tDown : State := tRtc (fun r => { r with supply := .down, ticks := 5, valid := true }) tLive
def tDownOff : State := tRtc (fun r => { r with supply := .down, ticks := 5, valid := true }) tSilent

def tSilentRtc : State := { tDown with tide := { tDown.tide with running := false } }
def tValid : State := tRtc (fun r => { r with valid := true, dst := false }) tMain
def tSummer : State := tRtc (fun r => { r with valid := true, dst := true }) tMain
def tDate : Nat := 2024 * 2 ^ 48 + 2 * 2 ^ 40 + 29 * 2 ^ 32 + 23 * 2 ^ 24 + 59 * 2 ^ 16 + 59 * 2 ^ 8
def tNoDate : Nat := 2023 * 2 ^ 48 + 2 * 2 ^ 40 + 29 * 2 ^ 32

def tSecond : State := tSet (tRtc (fun r => { r with ticks := 32768 * 86400, offset := 0, evaluated := some 5 }) tValid) [(Reg.ALARM_MATCH 1, 2 ^ 63)]
def tSched : State := tSet (tRtc (fun r => { r with sched := [2, 3] }) tBoth) [(Reg.TIME_FRAME_PERIOD, 0)]

/-! ### The panel and the keys -/

def tPan (f : PanelPart → PanelPart) (s : State) : State := { s with panel := f s.panel }
def tCells : Nat := 2 ^ 28 + 2 ^ 4 + 2 ^ 0
def tArea : State := tSet tLive [(Reg.REGION_CELLS 2, tCells)]
def tPass : PanelRun := { urgent := false, full := true, band := 0, phase := .main, frame := 0, maxDiff := 0, cells := [(0, 3)], pass := [(0, 3)], waves := [[], [], []], order := 0 }
def tLong : PanelRun := { tPass with waves := [List.replicate 256 5, [], []] }
def tRunning : State := tPan (fun p => p.setRegion 2 { run := some tLong, queued := none }) tArea
def tWaiting : State := tPan (fun p => p.setRegion 2 { run := none, queued := some { urgent := false, full := true, order := 0 } }) tArea
def tHotPanel : State := tPan (fun p => { p with badSince := some 0 }) tLive

def tKey (k : Nat) (f : KeyUnit → KeyUnit) (s : State) : State := { s with keys := s.keys.setKey k (f (s.keys.key k)) }
def tScan (n : Nat) : State := tSet (tKey 36 (fun u => { u with agree := n }) tLive) [(Reg.KEY_DEBOUNCE, 3)]
def tDown36 : State := tSet (tKey 36 (fun u => { u with agree := 2, pressed := true }) tLive) [(Reg.KEY_DEBOUNCE, 3)]
def tHeldKey (mode : Nat) : State := tSet (tKey 36 (fun u => { u with pressed := true, since := 0, repeats := 2 }) tLive) [(Reg.KEY_MODE 35, mode)]
def tFullKeys : State := { tHeldKey 1 with keys := { (tHeldKey 1).keys with fifo := List.replicate 32 0 } }

/-! ### The slipway -/

def tSlip (n : Nat) : State :=
  { tLive with slip := { tLive.slip with
      state := n, targetB := true, image := [], imageA := [1], imageB := [2], probation := if n = 7 then some 0 else none
      marker := n == 7, noFirmware := false, loading := if 5 ≤ n then some .b else none } }
def tCannot : State := tQuay .a (fun u => { u with head := List.replicate 24 9 }) (tQuay .b (fun u => { u with st := .syncing, head := [] }) (tSlip 5))

theorem witness_RequestsNotExecuted :
    (tSilent.serving .spi ≠ .full ∧ tSilent.serving .spi ≠ .standby ∧ tSilent.serving .spi ≠ .recovery) ∧
    (tKept.serving .spi = .full ∧ (tKept.keptFor (wrRequest (tWr 1 60) Reg.RATE_MODE)).isSome = true) := by
  refine ⟨?_, ?_⟩ <;> decide

theorem witness_CheckedWrites :
    (tLive.serves (wrRequest (tWr 1 0) 0x1000FF) ∧ findEntry 0x1000FF = none) ∧
    (tLive.serves (wrRequest (tWr 2 30) Reg.RATE_MODE) ∧ (findEntry Reg.RATE_MODE).any (fun e => e.acc != 0 && e.acc <= 3 && e.ty.bytes != 2) = true ∧ tLive.levelOf 128 = 3) ∧
    (tPublic.serves (wrRequest (tWr 1 30) Reg.RATE_MODE) ∧ (findEntry Reg.RATE_MODE).any (fun e => decide (tPublic.levelOf 128 < e.acc)) = true ∧ tPublic.recovering = false) := by
  refine ⟨?_, ?_, ?_⟩ <;> decide

theorem witness_StepRunsFront :
    (({ tLive with pending := [Instr.pllRelock, .brownout] } : State).pending = .pllRelock :: [.brownout]) := by
  decide

theorem witness_IdleStep :
    (tLive.pending = [] ∧ tLive.rtc.supply ≠ .down ∧ ({ tLive.rtc with supply := .down } : Rtc).supply = .down) := by
  decide

theorem witness_EntryReadBack :
    (Reg.SECURITY_FLOOR ∈ keptKeys) := by
  decide

theorem witness_WaysIntoDark :
    (tOff.pwr.rails = false ∧ tOff.pwr.railHeld = false) ∧
    (tLive.pwr.rails = true) ∧
    (tHeld.pwr.railHeld = true) ∧
    (tSilent.pfail = true ∧ tSilent.pwr.rails = true) ∧
    (tDue.klp.resetDue = some (10 ^ 12) ∧ 10 ^ 12 ≤ tDue.now) ∧
    (tReset6.keys.both = some 0 ∧ 0 + 6 * clkSec ≤ tReset6.now ∧ tReset6.resetKeysHeld = true) := by
  refine ⟨?_, ?_, ?_, ?_, ?_, ?_⟩ <;> decide

theorem witness_TallyCounts :
    ((tLive.nv.tally Reg.BROWNOUTS).isSome = true ∧ (tLive.nv.tally Reg.BROWNOUTS).any (fun y => !y.frozen && decide (y.incs ≤ 7) && decide (y.base + 8 < 2 ^ 48)) = true) := by
  decide

theorem witness_TideStarts :
    (tAwait.tideAwaited = true) := by
  decide

theorem witness_BringUp :
    (tDarkBoot.phase = .dark ∧ tDarkBoot.tide.running = true ∧ tDarkBoot.pwr.imageOk = false ∧ tDarkBoot.pfail = false ∧ tDarkBoot.slip.marker = false ∧ 1 < tDarkBoot.reg Reg.BOOT_TRIAL) ∧
    (tDarkOk.phase = .dark ∧ tDarkOk.tide.running = true ∧ tDarkOk.pwr.imageOk = true ∧ tDarkOk.pfail = false ∧ tDarkOk.pwr.railHeld = false) ∧
    (tNoOwner.phase = .lights ∧ tNoOwner.pwr.owned = false ∧ tNoOwner.pwr.lightsT64 + clkSec ≤ tNoOwner.now ∧ tNoOwner.pfail = false ∧ tNoOwner.storm = false) := by
  refine ⟨?_, ?_, ?_⟩ <;> decide

theorem witness_PowerSupply :
    (tPres.pwr.isAbsent .a = false ∧ tPres.regBit Reg.FEEDS_EXPECTED (feedBit .a) = true) ∧
    (tPres.pwr.isAbsent .b = false ∧ tPres.regBit Reg.FEEDS_EXPECTED (feedBit .b) = false) ∧
    (tExp.pwr.isPresent .a = false) ∧
    (tLive.pfail = false ∧ tLive.pwr.rails = true) ∧
    (tHeld.pwr.rails = true ∨ tHeld.pwr.railHeld = true) := by
  refine ⟨?_, ?_, ?_, ?_, ?_⟩ <;> decide

theorem witness_PowerModes :
    (tHold.accepts (tWr 2 23000) Reg.PFAIL_LEVEL ∧ 23000 + 1000 ≤ tHold.reg Reg.VHOLD_MV ∧ tHold.stores Reg.PFAIL_LEVEL 23000) ∧
    (tHold.accepts (tWr 2 7499) Reg.PFAIL_LEVEL ∧ 7499 + 1000 ≤ tHold.reg Reg.VHOLD_MV ∧ 7499 < 7500) ∧
    (tHold.accepts (tWr 2 23001) Reg.PFAIL_LEVEL ∧ tHold.reg Reg.VHOLD_MV < 23001 + 1000) ∧
    (tSlack.accepts (tWr 1 0) Reg.POWER_REQUEST ∧ tSlack.stores Reg.POWER_REQUEST 0) ∧
    (tLive.accepts (tWr 1 0x5A) Reg.RESET_COMMAND) ∧
    (tLive.accepts (tWr 1 0x5B) Reg.RESET_COMMAND) ∧
    (tWish.reg Reg.POWER_REQUEST = 1 ∧ tWish.power = .full ∧ tWish.phase ≠ .dark ∧ tWish.keys.anyPressed = false ∧ tWish.pwr.hold = none ∧ tWish.cal.cycle = none ∧ tWish.cal.qual = false ∧ tWish.pfail = false) ∧
    (tWake.pwr.hold = some 0 ∧ 0 + tWake.reg Reg.WAKE_HOLD * clkSec ≤ tWake.now) := by
  refine ⟨?_, ?_, ?_, ?_, ?_, ?_, ?_, ?_⟩ <;> decide

theorem witness_ClockAndRate :
    (tLive.tide.running = true ∧ tLive.tide.source = .master ∧ tLive.qst .a ≠ .out ∧ (tLive.quay .a).inReset = false) ∧
    (tOutA.tide.running = true ∧ tOutA.tide.source = .master ∧ tOutA.qst .a = .out) ∧
    (tRcRet.tide.source ≠ .master ∧ tRcRet.reg Reg.CLOCK_RETURN = 1) ∧
    (tRcStay.tide.source ≠ .master ∧ tRcStay.reg Reg.CLOCK_RETURN ≠ 1) ∧
    (tLive.accepts (tWr 1 30) Reg.RATE_MODE ∧ tLive.linkRefuses { tLive.linkCfg with rate := 30 } = false ∧ tLive.stores Reg.RATE_MODE 30) ∧
    (t60.accepts (tWr 1 60) Reg.RATE_MODE ∧ t60.reg Reg.VARIANT = 60 ∧ t60.linkRefuses { t60.linkCfg with rate := 60 } = false ∧ t60.stores Reg.RATE_MODE 60) ∧
    ((tSet tLive [(Reg.VARIANT, 30)]).accepts (tWr 1 60) Reg.RATE_MODE ∧ (tSet tLive [(Reg.VARIANT, 30)]).reg Reg.VARIANT ≠ 60) ∧
    (tEpoch.tide.running = true ∧ 0 < tEpoch.epochClocks ∧ tEpoch.epochClocks % (clocksPerFrame tEpoch.rate * (if tEpoch.rate = 60 then 125 else 63)) = 0 ∧ tEpoch.reg Reg.RATE_MODE ≠ tEpoch.rate) := by
  refine ⟨?_, ?_, ?_, ?_, ?_, ?_, ?_, ?_⟩ <;> decide

theorem witness_MainsPhase :
    (tFree.accepts (tWr 1 0) Reg.MAINS_MODE ∧ tFree.stores Reg.MAINS_MODE 0) ∧
    (tLocked.accepts (tWr 1 2) Reg.MAINS_MODE ∧ tLocked.stores Reg.MAINS_MODE 2 ∧ tLocked.reg Reg.MAINS_STATE ≠ msOff) ∧
    ((tSet tLive [(Reg.MAINS_STATE, msOff)]).accepts (tWr 1 1) Reg.MAINS_MODE ∧ (tSet tLive [(Reg.MAINS_STATE, msOff)]).stores Reg.MAINS_MODE 1 ∧ (tSet tLive [(Reg.MAINS_STATE, msOff)]).reg Reg.MAINS_STATE = msOff) ∧
    (tFree.accepts (tWr 1 3) Reg.MAINS_MODE) ∧
    (tLocked.reg Reg.MAINS_STATE = msLocked) ∧
    (tOver.reg Reg.MAINS_STATE = msHoldover ∧ tOver.mains.holdAt + tOver.reg Reg.HOLDOVER_TIME * clkMs ≤ tOver.now) ∧
    (tFree.reg Reg.MAINS_STATE ≠ msOff ∧ 1002499 - 1000000 < 2500) ∧
    (tFree.reg Reg.MAINS_STATE ≠ msOff ∧ tFree.mains.lastAccept = some 0 ∧ 99999 < 0 + 2 * clkMs) ∧
    (2500 ≤ 200000 - 100000 ∧ 200000 - 100000 ≤ 100000 ∧ tFree.mains.lastAccept = some 0 ∧ 0 + 2 * clkMs ≤ 100000 ∧ tFree.reg Reg.MAINS_STATE = msFree ∧ tFree.reg Reg.MAINS_MODE = 1) ∧
    (tLocked.mains.lastAccept = some 0 ∧ tLocked.reg Reg.MAINS_STATE = msLocked ∧ (tLocked.zcError (((10 ^ 12 - 2500 + (10 ^ 12 + 2500)) / 2 : Nat) - tLocked.regI Reg.ZC_OFFSET * clkUs).toNat).1.natAbs ≤ 25000) ∧
    (tLocked.mains.lastAccept = some 0 ∧ tLocked.reg Reg.MAINS_STATE = msLocked ∧ tLocked.mains.missing < 2 ∧ 25000 < (tLocked.zcError (((10 ^ 12 + 100000 + (10 ^ 12 + 105000)) / 2 : Nat) - tLocked.regI Reg.ZC_OFFSET * clkUs).toNat).1.natAbs) := by
  refine ⟨?_, ?_, ?_, ?_, ?_, ?_, ?_, ?_, ?_, ?_, ?_⟩ <;> decide

theorem witness_FrameSlots :
    (tLive.tide.running = true) ∧
    (tTide.tide.running = false) ∧
    ((tAt 0 tLive).tide.running = true ∧ (tAt 0 tLive).pfail = false ∧ (tAt 0 tLive).row = 0) ∧
    (tSettle.tide.running = true ∧ tSettle.pfail = false ∧ tSettle.row = 0 ∧ tSettle.focal.settling = 1) ∧
    (tReturn.tide.running = true ∧ tReturn.pfail = false ∧ tReturn.row = 2064 ∧ tReturn.tide.returnReady = true) ∧
    (1 < 16 ∧ tBands.getD 1 none = some 300000) := by
  refine ⟨?_, ?_, ?_, ?_, ?_, ?_⟩ <;> decide

theorem witness_ControlTick :
    (tTick.tide.running = true ∧ tTick.pfail = false ∧ tTick.tickRow = 0 ∧ tTick.hm.stormExit = none ∧ tTick.hm.takeover = none ∧ (tTick.quay .a).running = true) ∧
    (tExit.tide.running = true ∧ tExit.pfail = false ∧ tExit.tickRow = 0 ∧ tExit.hm.stormExit = some .b ∧ tExit.hm.owner = none ∧ tExit.qst .b = .standby ∧ tExit.hm.takeover = none) := by
  refine ⟨?_, ?_⟩ <;> decide

theorem witness_ImagerEvents :
    (tGain.tide.running = true ∧ tGain.pfail = false ∧ tGain.row = 0 ∧ tGain.cal.cycle = none ∧ tGain.reg Reg.GAIN_MODE ≠ tGain.reg Reg.GAIN_ACTIVE) ∧
    ((false, 7) ∈ tReload.pipe.reloads) ∧
    (tLive.phase ≠ .dark ∧ tLive.pipe.ready = false ∧ tLive.pfail = false) ∧
    (smapGet 0 (tileOf 0) tSun.focal.strikeT ≠ 0 ∧ (∃ p ∈ tSun.focal.sun, tileOf p.1 = tileOf 0) ∧ tSun.cal.lastStart = none ∧ tileOf 0 ∉ tSun.focal.sunRaised ∧ smapGet 0 (tileOf 0) tSun.focal.strikeT - 1 + tSun.reg Reg.SUN_HOLD * clkSec ≤ tSun.now) ∧
    (6 < 7 ∧ tGrad.regBit Reg.GRADIENT_FLAGS 6 = true ∧ 60 ≤ tGrad.focal.clearRun.getD 6 0) ∧
    (15 < 16 ∧ 15 ∈ tSensor.focal.sensorBad) ∧
    (tTest.tide.running = true ∧ tTest.pfail = false ∧ tTest.row = 2065 ∧ tTest.focal.bias = true ∧ 0 < 64 ∧ (tTest.focal.groups.getD 0 default).st = 1 ∧ 1 ≤ (tTest.focal.groups.getD 0 default).fails ∧ tTest.focal.passes (tTest.reg Reg.TEST_TOLERANCE) 2560 ([].getD 2560 0) = false) := by
  refine ⟨?_, ?_, ?_, ?_, ?_, ?_, ?_⟩ <;> decide

theorem witness_CalibrationWaits :
    (tInterval.cal.lastAccept = some 0 ∧ tInterval.cal.cycle = none ∧ tInterval.cal.state ≠ 0 ∧ 0 + tInterval.reg Reg.CAL_INTERVAL * 60 * clkSec ≤ tInterval.now) ∧
    (tBring.cal.imagerStart = some 0 ∧ tBring.cal.state = 1 ∧ 0 + tBring.reg Reg.SETTLE_MAX * clkSec ≤ tBring.now) ∧
    ((tFill true).cal.chamber = .filling true) ∧
    ((tFill false).cal.chamber = .filling false ∧ (tFill false).cal.bandsDone = []) ∧
    (tQual.cal.qual = true) ∧
    (tRest.cal.restore = some { set := [], bands := [], last := 0 } ∧ 0 + 10 * clkSec ≤ tRest.now ∧ tRest.cal.chamber ≠ .restored) := by
  refine ⟨?_, ?_, ?_, ?_, ?_, ?_⟩ <;> decide

theorem witness_BerthFrames :
    (tHot.frozen = false ∧ (tHot.berthNow 3 0x0C) ≤ 255) ∧
    (tHigh.frozen = false ∧ (tHigh.berthNow 3 0x0C) ≤ 255) ∧
    (tSeat.frozen = false ∧ (tSeat.berthKind 3) = 3 ∧ (tSeat.berthNow 3 0x12) ≤ 255) ∧
    (tLeft.frozen = false ∧ (tLeft.berthNow 3 0x13) * (if tLeft.rate = 60 then 60 else 30) ≤ 10 ^ 9) ∧
    (tPub.tide.running = true ∧ tPub.pfail = false ∧ tPub.row = 2068) := by
  refine ⟨?_, ?_, ?_, ?_, ?_⟩ <;> decide

theorem witness_BerthWrites :
    (tLive.accepts (tWr 1 5) (berthKey 0 1) ∧ (tLive.berthCheck (tLive.levelOf 128) (tLive.transferOpen Reg.BERTH_TABLE true) (tLive.rowsHold 0 1 5) 0 (tLive.berthWritten 0) fun b => if b = 1 then 5 else tLive.berthWritten 0 b) = some .range) ∧
    (tLive.accepts (tWr 2 30000) (berthKey 8191 4) ∧ (tLive.berthCheck (tLive.levelOf 128) (tLive.transferOpen Reg.BERTH_TABLE true) true 8191 (tLive.berthWritten 8191) fun b => if b = 4 then 30000 else tLive.berthWritten 8191 b) = none) ∧
    (tLive.accepts (tWr 1 1) Reg.EDIT_HOLD ∧ tLive.stores Reg.EDIT_HOLD 1) := by
  refine ⟨?_, ?_, ?_⟩ <;> decide

theorem witness_Heartbeats :
    ((tLive.quay .a).running = true ∧ 2250 ≤ 2250 % 2500) ∧
    ((tLive.quay .b).running = true ∧ 4749 % 2500 < 2250) ∧
    (tLive.pfail = false ∧ ((tLive.quay .a).running = true → (tLive.quay .a).counted = true ∨ (tLive.quay .a).misses < 2) ∧ ((tLive.quay .b).running = true → (tLive.quay .b).counted = true ∨ (tLive.quay .b).misses < 2)) ∧
    (tMissed.inService .a ∧ (tMissed.quay .a).running = true ∧ (tMissed.quay .a).counted = false ∧ 2 ≤ (tMissed.quay .a).misses ∧ ((tMissed.quay Quay.a.other).running = true → (tMissed.quay Quay.a.other).counted = true)) ∧
    (tMissedB.inService .b ∧ (tMissedB.quay .b).running = true ∧ (tMissedB.quay .b).counted = false ∧ 2 ≤ (tMissedB.quay .b).misses ∧ ((tMissedB.quay Quay.b.other).running = true → (tMissedB.quay Quay.b.other).counted = true)) ∧
    (tFull.inService .a ∧ (tFull.quay .a).running = true ∧ (tFull.quay .a).counted = false ∧ 2 ≤ (tFull.quay .a).misses ∧ ((tFull.quay Quay.a.other).running = true → (tFull.quay Quay.a.other).counted = true)) := by
  refine ⟨?_, ?_, ?_, ?_, ?_, ?_⟩ <;> decide

theorem witness_QuayFaults :
    ((tAsked.quay .a).challenge = some 5 ∧ Config.coreTest 5 % 2 ^ 32 = Config.coreTest 5 % 2 ^ 32) ∧
    ((tAsked.quay .a).challenge = some 5 ∧ tAsked.inService .a) ∧
    ((tLive.quay .b).running = true) ∧
    ((tLive.quay .b).running = true ∧ tLive.inService .b ∧ (tLive.quay .b).wdStart + tLive.reg Reg.WATCHDOG_TIMEOUT * clkMs ≤ tLive.now) ∧
    (tLive.inService .a) ∧
    (tTaking.hm.takeover = some { dest := .a, start := 0, cause := 1, planned := false } ∧ tTaking.inService .a) := by
  refine ⟨⟨by decide, rfl⟩, ?_, ?_, ?_, ?_, ?_⟩ <;> decide

theorem witness_TakeoverAndVote :
    (tTaking.hm.takeover = some { dest := .a, start := 0, cause := 1, planned := false }) ∧
    ((tLive.quay .b).running = true ∧ tLive.pfail = false ∧ tLive.hm.stack.length < 4) ∧
    (tPushed.hm.stack.find? (FaultEntry.retrying .a) = some { (default : FaultEntry) with cause := causeMemory, level := 1, quay := Quay.a.code } ∧ tPushed.inService .a) := by
  refine ⟨?_, ?_, ?_⟩ <;> decide

theorem witness_WharfAndCheckpoints :
    (tLive.hm.owner = some .a ∧ tLive.storm = false ∧ tLive.pfail = false ∧ 1 < tLive.act.fans.length ∧ (tLive.engine 1).held = false) ∧
    (tLive.hm.owner ≠ some .b ∨ tLive.storm = true) ∧
    (tLive.hm.owner = some .a ∧ tLive.qst Quay.a.other = .standby ∧ tLive.canRead Quay.a.other = true ∧ tLive.hm.takeover = none) ∧
    (tBad.hm.owner = some .a ∧ tBad.qst Quay.a.other = .standby ∧ tBad.hm.mirrorBad = 1) := by
  refine ⟨?_, ?_, ?_, ?_⟩ <;> decide

theorem witness_QuayCourse :
    (tStorm.qst .a = .selfTest) ∧
    ((tTested.quay .b).st = .selfTest ∧ (tTested.quay .b).inReset = false ∧ (tTested.quay .b).passHeld = false ∧ (tTested.quay .b).fails.length < tTested.reg Reg.REJOIN_LIMIT ∧ tTested.storm = false ∧ tTested.hm.owner = some Quay.b.other) ∧
    ((tLone.quay .b).st = .selfTest ∧ (tLone.quay .b).inReset = false ∧ (tLone.quay .b).passHeld = false ∧ tLone.hm.owner ≠ some Quay.b.other ∧ tLone.qst Quay.b.other ≠ .active ∧ tLone.qst Quay.b.other ≠ .selfTest) ∧
    ((tWaits.quay .b).st = .selfTest ∧ (tWaits.quay .b).passHeld = false ∧ tWaits.hm.owner = none ∧ tWaits.qst Quay.b.other = .selfTest ∧ (tWaits.quay Quay.b.other).passHeld = false ∧ Quay.b ≠ tWaits.preferred) ∧
    ((tHolds.quay .a).st = .selfTest ∧ (tHolds.quay .a).inReset = false ∧ (tHolds.quay .a).passHeld = false ∧ (tHolds.quay Quay.a.other).passHeld = true ∧ (tHolds.quay Quay.a.other).st = .selfTest ∧ tHolds.storm = false) ∧
    ((tHolds.quay .b).st = .selfTest ∧ (tHolds.quay .b).passHeld = true ∧ tHolds.noneActive = true ∧ tHolds.storm = false ∧ (tHolds.quay .b).standbyAt + 200 * clkMs ≤ tHolds.now) ∧
    (tSync.qst .b = .syncing ∧ tSync.qst Quay.b.other = .active ∧ tSync.canRead .b = true) ∧
    ((tOld.quay .b).fails = 0 :: [5] ∧ 0 + 24 * 3600 * 32768 ≤ tOld.rtc.ticks) := by
  refine ⟨?_, ?_, ?_, ?_, ?_, ?_, ?_, ?_⟩ <;> decide

theorem witness_SalvageAndStorm :
    (tSalv.hm.salvageIn = some 0 ∧ tSalv.hm.owner = some .a) ∧
    (tLive.accepts (tWr 1 1) Reg.SALVAGE_RELEASE) ∧
    (tAuto.storm = true ∧ tAuto.reg Reg.STORM_AUTO_EXIT = 1 ∧ tAuto.standbyQuay = some .b ∧ (tAuto.quay .b).standbyAt + 60 * clkSec ≤ tAuto.now ∧ tAuto.hm.lastPush = none) ∧
    (tStorm.accepts { req := tReq, len := 1, val := 3 } Reg.HM_COMMAND ∧ tStorm.storm = true ∧ tStorm.standbyQuay = some .b) ∧
    (tLive.accepts { req := tReq, len := 1, val := 4 } Reg.HM_COMMAND ∧ tLive.pfail = false ∧ tLive.storm = false ∧ tLive.hm.stack.length < 4) ∧
    (tWrit.accepts (tWr 2 0x0FFF) (0x171000 + 16) ∧ stormAction 0x0FFF ≠ 3 ∧ field 0x0FFF 12 2 = 0 ∧ tWrit.stores (0x171000 + 16) 0x0FFF ∧ (tWrit.out (16 - 1)).hmValue = false ∧ tWrit.storm = false) ∧
    (tLive.accepts (tWr 2 0x8000) (0x171000 + 1) ∧ stormAction 0x8000 ≠ 3 ∧ field 0x8000 12 2 = 0 ∧ tLive.stores (0x171000 + 1) 0x8000 ∧ (tLive.out (1 - 1)).hmValue = true ∧ 1 - 1 < tLive.act.outs.length) ∧
    (tLive.accepts (tWr 2 0xC000) (0x171000 + 1) ∧ stormAction 0xC000 = 3) ∧
    (tLive.accepts (tWr 2 0x1000) (0x171000 + 1) ∧ field 0x1000 12 2 ≠ 0) ∧
    (tLive.accepts (tWr 1 0) (0x171000 + 17) ∧ inRange (0x171000 + 17) 0 = true ∧ tLive.stores (0x171000 + 17) 0) ∧
    (tStorm.accepts (tWr 1 0) (0x171000 + 18) ∧ inRange (0x171000 + 18) 0 = true ∧ tStorm.stores (0x171000 + 18) 0 ∧ tStorm.storm = true) := by
  refine ⟨?_, ?_, ?_, ?_, ?_, ?_, ?_, ?_, ?_, ?_, ?_⟩ <;> decide

theorem witness_HmCommands :
    (tPlan.accepts { req := tReq, len := 1, val := 1 } Reg.HM_COMMAND ∧ tPlan.hm.takeover ≠ none) ∧
    (tSimplex.accepts { req := tReq, len := 1, val := 1 } Reg.HM_COMMAND ∧ tSimplex.hm.takeover = none ∧ tSimplex.duplex = false) ∧
    (tLive.accepts { req := tReq, len := 1, val := 1 } Reg.HM_COMMAND ∧ tLive.hm.takeover = none ∧ tLive.duplex = true ∧ tLive.standbyQuay = some .b) ∧
    (tLive.accepts { req := tReq, len := 1, val := 2 } Reg.HM_COMMAND ∧ tLive.qst .a ≠ .out ∧ tLive.qst .b ≠ .out) ∧
    (tOutB.accepts { req := tReq, len := 1, val := 2 } Reg.HM_COMMAND ∧ (tOutB.qst .a = .out ∨ tOutB.qst .b = .out)) ∧
    (tOutB.accepts { req := tReq, len := 1, val := 5 } Reg.HM_COMMAND ∧ (tOutB.qst .b = .out ∨ tOutB.qst .b = .off)) ∧
    (tLive.accepts { req := tReq, len := 1, val := 5 } Reg.HM_COMMAND ∧ tLive.qst .a = .active ∧ tLive.duplex = true ∧ tLive.hm.takeover = none) ∧
    (tOutA.accepts { req := tReq, len := 1, val := 6 } Reg.HM_COMMAND ∧ (tOutA.qst .a = .out ∨ tOutA.qst .a = .off)) ∧
    (tMine.accepts { req := tReq, len := 1, val := 6 } Reg.HM_COMMAND ∧ tMine.qst .b = .active ∧ tMine.duplex = true ∧ tMine.hm.takeover = none) ∧
    (tLive.accepts { req := tReq, len := 1, val := 7 } Reg.HM_COMMAND) := by
  refine ⟨?_, ?_, ?_, ?_, ?_, ?_, ?_, ?_, ?_, ?_⟩ <;> decide

theorem witness_CalibrationCommands :
    (tCycle.accepts { req := tReq, len := 1, val := 1 } Reg.CAL_COMMAND ∧ tCycle.cal.cycle ≠ none) ∧
    (tOper.accepts { req := tReq, len := 1, val := 1 } Reg.CAL_COMMAND ∧ tOper.cal.cycle = none) ∧
    (tOper.accepts { req := tReq, len := 1, val := 2 } Reg.CAL_COMMAND ∧ tOper.levelOf tReq.id < 2) ∧
    (tCycle.accepts { req := tReq, len := 1, val := 2 } Reg.CAL_COMMAND ∧ 2 ≤ tCycle.levelOf tReq.id ∧ tCycle.cal.cycle ≠ none) ∧
    (tLive.accepts { req := tReq, len := 1, val := 2 } Reg.CAL_COMMAND ∧ 2 ≤ tLive.levelOf tReq.id ∧ tLive.cal.cycle = none) ∧
    (tCycle.accepts { req := tReq, len := 1, val := 3 } Reg.CAL_COMMAND) ∧
    (tOper.accepts { req := tReq, len := 1, val := 4 } Reg.CAL_COMMAND ∧ tOper.levelOf tReq.id < 2) ∧
    (tQual.accepts { req := tReq, len := 1, val := 4 } Reg.CAL_COMMAND ∧ 2 ≤ tQual.levelOf tReq.id ∧ tQual.cal.qual = true) ∧
    (tLive.accepts { req := tReq, len := 1, val := 4 } Reg.CAL_COMMAND ∧ 2 ≤ tLive.levelOf tReq.id ∧ tLive.cal.qual = false) ∧
    (tCycle.accepts { req := tReq, len := 1, val := 5 } Reg.CAL_COMMAND ∧ 2 ≤ tCycle.levelOf tReq.id ∧ tCycle.cal.cycle ≠ none) ∧
    (tLive.accepts { req := tReq, len := 1, val := 5 } Reg.CAL_COMMAND ∧ 2 ≤ tLive.levelOf tReq.id ∧ tLive.cal.cycle = none ∧ tLive.focal.shutter.closing = none ∧ tLive.focal.shutter.present = false) ∧
    (tStill.accepts { req := tReq, len := 1, val := 5 } Reg.CAL_COMMAND ∧ 2 ≤ tStill.levelOf tReq.id ∧ tStill.cal.cycle = none ∧ tStill.focal.shutter.closing = none ∧ tStill.focal.shutter.present = true) ∧
    (tCycle.accepts { req := tReq, len := 1, val := 6 } Reg.CAL_COMMAND ∧ 2 ≤ tCycle.levelOf tReq.id ∧ tCycle.cal.cycle ≠ none) ∧
    (tLock.accepts { req := tReq, len := 1, val := 6 } Reg.CAL_COMMAND ∧ 2 ≤ tLock.levelOf tReq.id ∧ tLock.cal.cycle = none ∧ tLock.cal.chamber = .empty ∧ tLock.cal.restore = none ∧ tLock.cal.state ≠ 0 ∧ tLock.transferOpen Reg.OFFSET_LOAD true = false ∧ tLock.transferOpen Reg.CAL_SET true = false) := by
  refine ⟨?_, ?_, ?_, ?_, ?_, ?_, ?_, ?_, ?_, ?_, ?_, ?_, ?_, ?_⟩ <;> decide

theorem witness_ImagerSettings :
    (tLive.accepts (tWr 1 1) Reg.GAIN_MODE ∧ 1 ≤ 1 ∧ tLive.stores Reg.GAIN_MODE 1) ∧
    (tLive.accepts (tWr 1 2) Reg.GAIN_MODE ∧ 1 < 2) ∧
    (tLive.accepts (tWr 1 4) Reg.IMAGER_MODE ∧ 3 < 4) ∧
    (tVideo.accepts (tWr 1 0) Reg.IMAGER_MODE ∧ tVideo.linkRefuses { tVideo.linkCfg with mode := 0 } = true) ∧
    (tLive.accepts (tWr 1 3) Reg.IMAGER_MODE ∧ tLive.linkRefuses { tLive.linkCfg with mode := 3 } = false ∧ tLive.stores Reg.IMAGER_MODE 3) ∧
    (tScreen.accepts (tWr 1 2) Reg.OUTPUT_FORM ∧ tScreen.anyScreened = true) ∧
    (tLive.accepts (tWr 1 3) Reg.OUTPUT_FORM ∧ 3 ≠ 2 ∧ 2 < 3) ∧
    (tLive.accepts (tWr 1 2) Reg.OUTPUT_FORM ∧ tLive.anyScreened = false ∧ tLive.linkRefuses { tLive.linkCfg with form := 2 } = false ∧ tLive.stores Reg.OUTPUT_FORM 2) ∧
    (tLive.accepts (tWr 1 4) Reg.FILTER_SHIFT ∧ tLive.stores Reg.FILTER_SHIFT 4) ∧
    (tLive.accepts (tWr 1 5) (0x131000 + 4) ∧ tLive.ffFilled 5 = false) ∧
    (tLive.accepts (tWr 1 0) (0x131000 + 4) ∧ tLive.ffFilled 0 = true ∧ inRange (0x131000 + 4) 0 = true ∧ tLive.stores (0x131000 + 4) 0) ∧
    (tLive.accepts (tWr 2 60000) (0x131000 + 2) ∧ inRange (0x131000 + 2) 60000 = true ∧ tLive.stores (0x131000 + 2) 60000) ∧
    (tLimits.accepts (tWr 2 149) Reg.GRADIENT_LIMIT ∧ 149 < tLimits.reg Reg.GRADIENT_CLEAR) ∧
    (tLimits.accepts (tWr 2 301) Reg.GRADIENT_LIMIT ∧ 300 < 301) ∧
    (tLimits.accepts (tWr 2 300) Reg.GRADIENT_LIMIT ∧ tLimits.reg Reg.GRADIENT_CLEAR ≤ 300 ∧ tLimits.stores Reg.GRADIENT_LIMIT 300) ∧
    (tLimits.accepts (tWr 2 201) Reg.GRADIENT_CLEAR ∧ tLimits.reg Reg.GRADIENT_LIMIT < 201) ∧
    (tLimits.accepts (tWr 2 50) Reg.GRADIENT_CLEAR ∧ 50 ≤ tLimits.reg Reg.GRADIENT_LIMIT ∧ tLimits.stores Reg.GRADIENT_CLEAR 50) ∧
    ((tSpare 3).accepts (tWr 2 0) (Reg.GROUP_STATE 63) ∧ 63 < (tSpare 3).focal.groups.length ∧ ((tSpare 3).focal.groups.getD 63 default).st = 3) ∧
    ((tSpare 1).accepts (tWr 2 0x4028) (Reg.GROUP_STATE 63) ∧ 63 < (tSpare 1).focal.groups.length ∧ ((tSpare 1).focal.groups.getD 63 default).st = 1 ∧ field 0x4028 13 3 = 2 ∧ 39 < field 0x4028 0 6) ∧
    ((tSpare 1).accepts (tWr 2 0x4027) (Reg.GROUP_STATE 63) ∧ 63 < (tSpare 1).focal.groups.length ∧ ((tSpare 1).focal.groups.getD 63 default).st = 1 ∧ field 0x4027 13 3 < 4 ∧ field 0x4027 0 6 ≤ 39) := by
  refine ⟨?_, ?_, ?_, ?_, ?_, ?_, ?_, ?_, ?_, ?_, ?_, ?_, ?_, ?_, ?_, ?_, ?_, ?_, ?_, ?_⟩ <;> decide

theorem witness_Stream :
    (tTight.accepts (tWr 1 1) Reg.VIDEO_ENABLE ∧ tTight.feasible tTight.linkCfg = false) ∧
    (tLive.accepts (tWr 1 1) Reg.VIDEO_ENABLE ∧ tLive.feasible tLive.linkCfg = true ∧ tLive.video.running = false ∧ tLive.video.ulps = false ∧ tLive.stores Reg.VIDEO_ENABLE 1) ∧
    (tLane.accepts (tWr 1 0) Reg.VIDEO_ENABLE ∧ tLane.stores Reg.VIDEO_ENABLE 0) ∧
    (tLane.accepts (tWr 2 800) (0x160000 + 3) ∧ tLane.reg Reg.VIDEO_ENABLE = 1) ∧
    (tNoVid.accepts (tWr 2 805) (0x160000 + 3) ∧ tNoVid.reg Reg.VIDEO_ENABLE ≠ 1 ∧ 805 % 10 ≠ 0) ∧
    (tNoVid.accepts (tWr 1 1) (0x160000 + 2) ∧ tNoVid.reg Reg.VIDEO_ENABLE ≠ 1 ∧ inRange (0x160000 + 2) 1 = true ∧ tNoVid.stores (0x160000 + 2) 1) ∧
    (tPlane.accepts (tWr 1 0) Reg.VC2_REQUEST) ∧
    (tPlane.accepts (tWr 1 6) Reg.VC2_REQUEST ∧ tPlane.video.plane ≠ none) ∧
    (tLive.accepts (tWr 1 7) Reg.VC2_REQUEST ∧ tLive.video.plane = none ∧ 6 < 7) ∧
    (tLive.accepts (tWr 1 6) Reg.VC2_REQUEST ∧ tLive.video.plane = none ∧ tLive.linkRefuses { tLive.linkCfg with vc2 := true } = false) ∧
    ((tAt 0 tLane).tide.running = true ∧ (tAt 0 tLane).pfail = false ∧ (tAt 0 tLane).row = 0 ∧ (tAt 0 tLane).reg Reg.VIDEO_ENABLE = 1 ∧ (tAt 0 tLane).video.running = false ∧ (tAt 0 tLane).video.ulps = false ∧ (tAt 0 tLane).phase ≠ .dark) := by
  refine ⟨?_, ?_, ?_, ?_, ?_, ?_, ?_, ?_, ?_, ?_, ?_⟩ <;> decide

theorem witness_OutputWrites :
    (15 < 16 ∧ tNamed.accepts (tWr 2 1) (Reg.OUT_COMMAND 15) ∧ tNamed.loopNames (outTarget 15) ≠ []) ∧
    (1 < 16 ∧ tFloat.accepts (tWr 2 1) (Reg.OUT_COMMAND 1) ∧ tFloat.partner 1 = true) ∧
    (0 < 16 ∧ tLive.accepts (tWr 2 4096) (Reg.OUT_COMMAND 0) ∧ tLive.storm = false ∧ tLive.loopNames (outTarget 0) = [] ∧ tLive.partner 0 = false ∧ 4095 < 4096) ∧
    (0 < 16 ∧ tLive.accepts (tWr 2 4095) (Reg.OUT_COMMAND 0) ∧ tLive.storm = false ∧ tLive.loopNames (outTarget 0) = [] ∧ tLive.partner 0 = false ∧ tLive.stores (Reg.OUT_COMMAND 0) 4095) ∧
    (1 < 16 ∧ tFloat.accepts (tWr 1 0) (Reg.OUT_MODE 1) ∧ tFloat.partner 1 = true) ∧
    (7 < 16 ∧ tLive.accepts (tWr 1 3) (Reg.OUT_MODE 7) ∧ tLive.partner 7 = false ∧ outModeOk 7 3 = false) ∧
    (2 < 16 ∧ tLive.accepts (tWr 1 1) (Reg.OUT_MODE 2) ∧ tLive.partner 2 = false ∧ outModeOk 2 1 = true ∧ tLive.stores (Reg.OUT_MODE 2) 1 ∧ 2 < tLive.act.outs.length) ∧
    (1 < 2 ∧ tNamedFan.accepts (tWr 2 1) (Reg.FAN_COMMAND 1) ∧ tNamedFan.loopNames (256 * 5 + 1 + 1) ≠ []) ∧
    (1 < 2 ∧ tVin.accepts (tWr 2 4096) (Reg.FAN_COMMAND 1) ∧ tVin.storm = false ∧ tVin.loopNames (256 * 5 + 1 + 1) = [] ∧ 4095 < 4096) ∧
    (1 < 2 ∧ tHeldFan.accepts (tWr 2 4095) (Reg.FAN_COMMAND 1) ∧ tHeldFan.storm = false ∧ tHeldFan.loopNames (256 * 5 + 1 + 1) = [] ∧ tHeldFan.stores (Reg.FAN_COMMAND 1) 4095 ∧ (tHeldFan.engine 1).held = true) ∧
    (1 < 2 ∧ tVin.accepts (tWr 2 4095) (Reg.FAN_COMMAND 1) ∧ tVin.storm = false ∧ tVin.loopNames (256 * 5 + 1 + 1) = [] ∧ (tVin.engine 1).held = false ∧ tVin.stores (Reg.FAN_COMMAND 1) 4095 ∧ 1 < tVin.act.fans.length) ∧
    (1 < 2 ∧ 3 < 4 ∧ tBandOne.accepts (tWr 4 0x2EE02710) (Reg.FAN_BAND 1 3) ∧ 0x2EE02710 ≠ 0 ∧ (tBandOne.otherBands 1 3).any (bandsMeet (field 0x2EE02710 0 16, field 0x2EE02710 16 16)) = true) ∧
    (0 < 2 ∧ 0 < 4 ∧ tLive.accepts (tWr 4 0x00050005) (Reg.FAN_BAND 0 0) ∧ field 0x00050005 16 16 ≤ field 0x00050005 0 16) ∧
    (1 < 2 ∧ 3 < 4 ∧ tBandOne.accepts (tWr 4 0x2EE02711) (Reg.FAN_BAND 1 3) ∧ field 0x2EE02711 0 16 < field 0x2EE02711 16 16 ∧ (tBandOne.otherBands 1 3).any (bandsMeet (field 0x2EE02711 0 16, field 0x2EE02711 16 16)) = false ∧ tBandOne.stores (Reg.FAN_BAND 1 3) 0x2EE02711) ∧
    (0 < 2 ∧ tLive.accepts (tWr 2 99) (Reg.FAN_ILIMIT 0) ∧ 99 < 100) ∧
    (0 < 2 ∧ tLive.accepts (tWr 2 5000) (Reg.FAN_ILIMIT 0) ∧ tLive.stores (Reg.FAN_ILIMIT 0) 5000 ∧ 0 < tLive.act.fans.length) := by
  refine ⟨?_, ?_, ?_, ?_, ?_, ?_, ?_, ?_, ?_, ?_, ?_, ?_, ?_, ?_, ?_, ?_⟩ <;> decide

theorem witness_OutputProtection :
    (7 ≤ 7 ∧ 7 < tTrip.act.outs.length ∧ (tTrip.out 7).waiting = false ∧ (tTrip.out 7).latched = false) ∧
    ((tWaitOut.out 0).waiting = true) ∧
    (tVin.act.thermal = false) ∧
    (tThermal.act.thermal = true ∧ 1 < tThermal.act.fans.length ∧ (tThermal.fan 1).target ≠ 0 ∧ (tThermal.fan 1).latched = false) ∧
    ((tDrive.out 2).overs = true) ∧
    (isValve 7 = true) := by
  refine ⟨?_, ?_, ?_, ?_, ?_, ?_⟩ <;> decide

theorem witness_FanStarts :
    (1 < tVin.act.fans.length ∧ 1999 < tVin.reg (Reg.FAN_VMIN 1)) ∧
    (0 < tVin.act.fans.length ∧ tVin.fanTarget 0 12000 ≠ (0, (tVin.fanTarget 0 12000).2) ∧ (tVin.fan 0).st = .off ∧ (tVin.fan 0).latched = false ∧ tVin.act.thermal = false) ∧
    (0 < (tFanIn .running).act.fans.length ∧ (tFanIn .running).fanTarget 0 24000 ≠ (0, ((tFanIn .running).fanTarget 0 24000).2) ∧ ((tFanIn .running).fan 0).st = .running) ∧
    (0 < (tFanIn .stall).act.fans.length ∧ (tFanIn .stall).fanTarget 0 24000 ≠ (0, ((tFanIn .stall).fanTarget 0 24000).2) ∧ ((tFanIn .stall).fan 0).st = .stall) ∧
    ((5000, 6000) ∈ [(5000, 6000), (6001, 7000)] ∧ 5000 < 6000 ∧ 6001 < 7000 ∧ 6000 < 6001) ∧
    (0 < (tTug 3 1).act.fans.length ∧ ((tTug 3 1).fan 0).st = .tug ∧ (∀ k ∈ (tTug 3 1).boundTachs 0, ((tTug 3 1).tach k).tugEdges < 2) ∧ (tTug 3 1).boundTachs 0 ≠ [] ∧ ((tTug 3 1).fan 0).retry = false ∧ ((tTug 3 1).fan 0).attempt < 4) ∧
    (0 < (tTug 4 1).act.fans.length ∧ ((tTug 4 1).fan 0).st = .tug ∧ (∀ k ∈ (tTug 4 1).boundTachs 0, ((tTug 4 1).tach k).tugEdges < 2) ∧ (tTug 4 1).boundTachs 0 ≠ [] ∧ ((tTug 4 1).fan 0).retry = false ∧ 4 ≤ ((tTug 4 1).fan 0).attempt) ∧
    (1 < tTugFree.act.fans.length ∧ (tTugFree.fan 1).st = .tug ∧ tTugFree.boundTachs 1 = [] ∧ tTugFree.fanTarget 1 (tTugFree.fan 1).cmd ≠ (0, (tTugFree.fanTarget 1 (tTugFree.fan 1).cmd).2)) ∧
    (0 < (tFanIn .wait).act.fans.length ∧ ((tFanIn .wait).fan 0).st = .wait) ∧
    (0 < (tFanIn .stall).act.fans.length ∧ ((tFanIn .stall).fan 0).st = .stall) ∧
    (0 < (tFanIn .running).act.fans.length ∧ ((tFanIn .running).fan 0).st = .running) ∧
    (0 < (tShort true).act.fans.length ∧ ((tShort true).fan 0).short = true ∧ ((tShort true).fan 0).latched = true) ∧
    (((tShort false).fan 0).short = true ∧ ((tShort false).fan 0).latched = false ∧ ((tShort false).fan 0).st = .shortOff ∧ (tShort false).fanTarget 0 ((tShort false).fan 0).cmd ≠ (0, ((tShort false).fanTarget 0 ((tShort false).fan 0).cmd).2)) := by
  refine ⟨?_, ?_, ?_, ?_, ?_, ?_, ?_, ?_, ?_, ?_, ?_, ?_, ?_⟩ <;> decide

theorem witness_Tachs :
    (3 < tEdge.act.tachs.length ∧ (3000000 :: (tEdge.tach 3).edges.take 4)[tEdge.reg (Reg.TACH_PPR 3)]? = some 1000000 ∧ 1000000 < 3000000 ∧ rdivN 3000000000 (3000000 - 1000000) ≤ 20000) ∧
    ((2000001 :: (tEdge.tach 3).edges.take 4)[1]? = some 2000000 ∧ 2000000 < 2000001 ∧ 20000 < rdivN 3000000000 (2000001 - 2000000) ∧ (tSet tEdge [(Reg.TACH_PPR 3, 1)]).reg (Reg.TACH_PPR 3) = 1) ∧
    (1 < tStop.act.tachs.length ∧ (∀ t0 ∈ (tStop.tach 1).edges, t0 + 500 * clkMs ≤ tStop.now) ∧ (tStop.tach 1).st = .running ∧ tStop.tachChannel 1 = some 0 ∧ (tStop.fan 0).st = .running) ∧
    (0 < tStop.act.fans.length ∧ (tStop.fan 0).st = .running ∧ (∀ k ∈ tStop.boundTachs 0, (tStop.tach k).st ≠ .checking ∧ (tStop.tach k).st ≠ .lost)) ∧
    (((tLearn 0).fan 0).st = .running ∧ ((tLearn 0).fan 0).targetAt + 10 * clkSec ≤ (tLearn 0).now ∧ 1 ∈ (tLearn 0).boundTachs 0 ∧ 1 < (tLearn 0).act.tachs.length ∧ ((tLearn 0).tach 1).st = .running ∧ ((tLearn 0).tach 1).perV = 0) ∧
    (((tLearn 7).fan 0).st = .running ∧ 1 ∈ (tLearn 7).boundTachs 0 ∧ ((tLearn 7).tach 1).perV ≠ 0) := by
  refine ⟨?_, ?_, ?_, ?_, ?_, ?_⟩ <;> decide

theorem witness_LoopSettings :
    (0 < 64 ∧ 0 < tLoops.loop.runs.length ∧ tLoops.accepts (tWr 1 2) (Reg.LOOP_MODE 0) ∧ tLoops.othersOn 0 (tLoops.reg (Reg.TARGET 0)) = true) ∧
    (0 < 64 ∧ 0 < tLoops.loop.runs.length ∧ tLoops.accepts (tWr 1 3) (Reg.LOOP_MODE 0) ∧ 2 < 3) ∧
    (63 < 64 ∧ 63 < tLoops.loop.runs.length ∧ tLoops.accepts (tWr 1 1) (Reg.LOOP_MODE 63) ∧ tLoops.othersOn 63 (tLoops.reg (Reg.TARGET 63)) = false ∧ tLoops.stores (Reg.LOOP_MODE 63) 1 ∧ tLoops.reg (Reg.LOOP_MODE 63) ≠ 1) ∧
    (0 < 64 ∧ tLoops.accepts (tWr 2 0x0101) (Reg.TARGET 0) ∧ tLoops.othersOn 0 0x0101 = true) ∧
    (0 < 64 ∧ tLoops.accepts (tWr 2 0x0503) (Reg.TARGET 0) ∧ tLoops.othersOn 0 0x0503 = false ∧ targetValid 0x0503 = false) ∧
    (0 < 64 ∧ tLoops.accepts (tWr 2 0x0502) (Reg.TARGET 0) ∧ tLoops.othersOn 0 0x0502 = false ∧ targetValid 0x0502 = true ∧ tLoops.stores (Reg.TARGET 0) 0x0502) ∧
    (5 < 64 ∧ tLive.accepts (tWr 4 0x40280000) (Reg.PV_BACKUP 5) ∧ field 0x40280000 29 3 = 2 ∧ tLive.reg (Reg.KIND (field 0x40280000 16 13)) ≠ 2) ∧
    (5 < 64 ∧ tMeas.accepts (tWr 4 0x40280001) (Reg.PV_SOURCE 5) ∧ tMeas.reg (Reg.KIND (field 0x40280001 16 13)) = 2 ∧ descriptorOk 0x40280001 = false) ∧
    (5 < 64 ∧ tMeas.accepts (tWr 4 0x40280000) (Reg.PV_SOURCE 5) ∧ tMeas.reg (Reg.KIND (field 0x40280000 16 13)) = 2 ∧ descriptorOk 0x40280000 = true ∧ tMeas.stores (Reg.PV_SOURCE 5) 0x40280000) := by
  refine ⟨?_, ?_, ?_, ?_, ?_, ?_, ?_, ?_, ?_⟩ <;> decide

theorem witness_LoopAndProgramRules :
    (tLoop.reg (Reg.OUT_MIN 3) ≤ tLoop.reg (Reg.OUT_MAX 3) ∧ tLoop.reg (Reg.OUT_SLEW 3) ≠ 0 ∧ (tSet tLoop [(Reg.OUT_SLEW 3, 0)]).reg (Reg.OUT_SLEW 3) = 0) ∧
    (tPoints.latestPoint 0 0 420 = some (420, 1) ∧ tPoints.latestPoint 0 0 419 = none) := by
  refine ⟨?_, ?_⟩ <;> decide

theorem witness_ZonesAndPrograms :
    (31 < 32 ∧ 31 < tMin.loop.zones.length ∧ tMin.accepts (tWr 1 2) (Reg.ZONE_OVERRIDE 31) ∧ inRange (Reg.ZONE_OVERRIDE 31) 2 = true ∧ tMin.stores (Reg.ZONE_OVERRIDE 31) 2) ∧
    (31 < tEnds.loop.zones.length ∧ (tEnds.zoneRun 31).ends = some (10 ^ 12) ∧ 10 ^ 12 ≤ tEnds.now) ∧
    (31 < tEnds.loop.zones.length ∧ (tEnds.zoneRun 31).holding = true ∧ (tEnds.zoneRun 31).present = false) ∧
    (31 < 32 ∧ 15 < 16 ∧ tLive.accepts (tWr 4 0x1FC00000) (Reg.SWITCH_POINT 31 15) ∧ 23 < field 0x1FC00000 19 5) ∧
    (31 < 32 ∧ 15 < 16 ∧ tLive.accepts (tWr 4 0x1FBF6002) (Reg.SWITCH_POINT 31 15) ∧ field 0x1FBF6002 19 5 ≤ 23 ∧ field 0x1FBF6002 13 6 ≤ 59 ∧ field 0x1FBF6002 2 11 = 0 ∧ tLive.stores (Reg.SWITCH_POINT 31 15) 0x1FBF6002) ∧
    (63 < 64 ∧ tLive.accepts (tWr 4 0x806843C0) (Reg.EXCEPTION_DATE 63) ∧ 12 < field 0x806843C0 19 4) ∧
    (63 < 64 ∧ tLive.accepts (tWr 4 0x0D17C200) (Reg.EXCEPTION_DATE 63) ∧ field 0x0D17C200 23 8 ≠ 0 ∧ field 0x0D17C200 14 5 ≠ 0 ∧ field 0x0D17C200 19 4 = 2 ∧ field 0x0D17C200 9 5 ≠ 0 ∧ field 0x0D17C200 23 8 ≤ 200 ∧ field 0x0D17C200 0 6 = 0 ∧ dateExists (1999 + field 0x0D17C200 23 8) (field 0x0D17C200 19 4) (field 0x0D17C200 14 5) = false) ∧
    (63 < 64 ∧ tLive.accepts (tWr 4 0x006647C0) (Reg.EXCEPTION_DATE 63) ∧ 1 ≤ field 0x006647C0 19 4 ∧ field 0x006647C0 19 4 ≤ 12 ∧ field 0x006647C0 9 5 ≠ 0 ∧ field 0x006647C0 23 8 = 0 ∧ field 0x006647C0 0 6 = 0 ∧ tLive.stores (Reg.EXCEPTION_DATE 63) 0x006647C0) ∧
    (tLive.hm.owner.isSome = true) ∧
    (tMaster.storm = false ∧ tMaster.loop.autonomous = false ∧ tMaster.reg Reg.MASTER_SOURCE ≠ 0 ∧ tMaster.loop.seenMaster = true ∧ tMaster.hm.owner.isSome = true ∧ tMaster.klp.masterHb = some 0 ∧ 0 + tMaster.reg Reg.AUTO_TIMEOUT * clkSec < tMaster.now ∧ tMaster.loop.defaultTable = true ∧ 1 < tMaster.loop.engines.length ∧ tMaster.log.queue.length < 256) := by
  refine ⟨?_, ?_, ?_, ?_, ?_, ?_, ?_, ?_, ?_, ?_⟩ <;> decide

theorem witness_AdcEntries :
    (isAdcChannel 12 = true ∧ tRound.sens.adc = .round 12 ∧ withinI (-2147483648) 2147483647 (tRound.sens.cfg.value 12 (rdivN 1000 (2 ^ tRound.sens.cfg.avg))) = true) ∧
    (tCont.reg Reg.SEQ_PERIOD = 0 ∧ tCont.sens.adc = .idle ∧ tCont.tide.running = true) := by
  refine ⟨?_, ?_⟩ <;> decide

theorem witness_AdcWrites :
    (tAdc.accepts (tWr 2 0x0501) Reg.URGENT_REQUEST ∧ 4 < field 0x0501 8 4) ∧
    (tCont.accepts (tWr 2 0x0420) Reg.URGENT_REQUEST ∧ field 0x0420 12 4 = 0 ∧ field 0x0420 8 4 ≤ 4 ∧ tCont.aiOn (0x0420 % 256) = true ∧ tCont.reg Reg.SEQ_PERIOD = 0) ∧
    (tAdc.accepts (tWr 2 0x0401) Reg.URGENT_REQUEST ∧ field 0x0401 12 4 = 0 ∧ field 0x0401 8 4 ≤ 4 ∧ tAdc.aiOn (0x0401 % 256) = true ∧ tAdc.sens.adc = .idle ∧ tAdc.reg Reg.SEQ_PERIOD ≠ 0 ∧ tAdc.stores Reg.URGENT_REQUEST 0x0401) ∧
    (tSelf.accepts { req := tReq, len := 1, val := 1 } Reg.ADC_CAL_COMMAND ∧ tSelf.sens.adc = .selfCal none) ∧
    (tAdc.accepts { req := tReq, len := 1, val := 1 } Reg.ADC_CAL_COMMAND ∧ tAdc.sens.calDue = false ∧ tAdc.sens.adc = .idle) ∧
    (tRound.accepts { req := tReq, len := 1, val := 1 } Reg.ADC_CAL_COMMAND ∧ tRound.sens.calDue = false ∧ tRound.sens.adc = .round 12) ∧
    (tSelf.sens.adc = .selfCal none ∧ ([5000, -5000, 0, 0, 0, 0] : List Int).length = 6 ∧ tSelf.factorsKept [5000, -5000, 0, 0, 0, 0] [0, 0, 0, 0, 0, -2000] 150 = true) ∧
    (tSelf.sens.adc = .selfCal none ∧ tSelf.factorsKept [5001, 0, 0, 0, 0, 0] [0, 0, 0, 0, 0, 0] 0 = false) ∧
    (1 ≤ 12 ∧ tLive.accepts (tWr 4 2001) (0x1B0100 + 12) ∧ tLive.reg Reg.ADC_OFFSET_LIMIT < (toSigned 32 2001).natAbs) ∧
    (1 ≤ 6 ∧ tLive.accepts (tWr 4 5000) (0x1B0100 + 6) ∧ (toSigned 32 5000).natAbs ≤ tLive.reg Reg.ADC_GAIN_LIMIT ∧ tLive.stores (0x1B0100 + 6) 5000) ∧
    (12 ≤ 12 ∧ tLive.accepts (tWr 1 9) (aiKey 12 2) ∧ inRange (aiKey 12 2) 9 = false) ∧
    (12 ≤ 12 ∧ tLive.accepts (tWr 1 8) (aiKey 12 2) ∧ inRange (aiKey 12 2) 8 = true ∧ aiAgrees ((tLive.setReg (aiKey 12 2) 8).reg (Reg.AI_MODE 11)) ((tLive.setReg (aiKey 12 2) 8).reg (Reg.AI_UNIT 11)) ((tLive.setReg (aiKey 12 2) 8).regI (Reg.SCALE_IN_LOW 11)) ((tLive.setReg (aiKey 12 2) 8).regI (Reg.SCALE_IN_HIGH 11)) ((tLive.setReg (aiKey 12 2) 8).regI (Reg.SCALE_OUT_LOW 11)) ((tLive.setReg (aiKey 12 2) 8).regI (Reg.SCALE_OUT_HIGH 11)) = true ∧ tLive.stores (aiKey 12 2) 8) := by
  refine ⟨?_, ?_, ?_, ?_, ?_, ?_, ?_, ?_, ?_, ?_, ?_, ?_⟩ <;> decide

set_option maxRecDepth 20000 in
theorem witness_InputsAndModules :
    (8 - 1 < tStuck.sens.dis.length ∧ (tStuck.di 8).filt = true ∧ (tStuck.di 8).stuck = false ∧ (tStuck.di 8).chatter = false ∧ tStuck.reg (Reg.DI_STUCK_TIME 7) ≠ 0 ∧ (tStuck.di 8).since + tStuck.reg (Reg.DI_STUCK_TIME 7) * clkSec ≤ tStuck.now) ∧
    (1 - 1 < tStuck.sens.dis.length ∧ (tStuck.di 1).chatter = false) ∧
    ((tChat.di 1).chatter = true ∧ (tChat.di 1).complete = true ∧ 2 * (tChat.di 1).edges ≤ tChat.reg (Reg.DI_CHATTER_EDGES 0)) ∧
    (1 ≤ 4 ∧ 4 - 1 < tLive.sens.slots.length ∧ (tLive.slot 4).st = .empty) ∧
    (1 ≤ 1 ∧ ((tReads 1 0).slot 1).st ≠ .empty) ∧
    (tFault.sens.idOn = true ∧ 8 ≤ tFault.sens.slots.length ∧ bitAt 0x90 (5 - 1) = true ∧ (tFault.slot 5).st = .empty ∧ bitAt 0x90 (8 - 1) = true ∧ (tFault.slot 8).st ≠ .empty ∧ bitAt 0x90 (6 - 1) = false) ∧
    (8 - 1 < (tReads 8 1).sens.slots.length ∧ (tReads 8 1).sens.idOn = true ∧ ((tReads 8 1).slot 8).st = .reading ∧ ((tReads 8 1).slot 8).reading = true ∧ ((tReads 8 1).slot 8).attempts < 2) ∧
    (((tReads 8 2).slot 8).st = .reading ∧ ((tReads 8 2).slot 8).reading = true ∧ 2 ≤ ((tReads 8 2).slot 8).attempts) ∧
    (idGood tRecord = true ∧ tRecord.getD 2 0 = 1 ∧ tRecord.getD 3 0 = 2 ∧ (tReads 2 0).conflictsWith 2 (tRecord.getD 3 0) 0 = false ∧ (tReads 2 0).conflictsWith 2 (tRecord.getD 3 0) 1 = false ∧ ((tReads 2 0).recordLoads 2 tRecord).isSome = true) ∧
    (((tReads 8 1).slot 8).st = .reading) ∧
    (8 - 1 < tFault.sens.slots.length ∧ (tFault.slot 8).st = .fault) ∧
    (tFault.accepts (tWr 1 8) Reg.ID_REREAD ∧ 8 - 1 < tFault.sens.slots.length ∧ (tFault.slot 8).st ≠ .empty) ∧
    (tBound.accepts (tWr 2 1) (Reg.SLOT_BIND 7) ∧ (tBound.slot 8).kind ≠ 4 ∧ (tBound.slot 1).kind ≠ 4 ∧ tBound.slotBind 1 = 1) ∧
    (tBound.accepts (tWr 2 13) (Reg.SLOT_BIND 7) ∧ 12 < 13) ∧
    (tBound.accepts (tWr 2 12) (Reg.SLOT_BIND 7) ∧ 12 ≤ 12 ∧ (tBound.slot 8).kind ≠ 3 ∧ (tBound.slot 8).kind ≠ 4 ∧ tBound.stores (Reg.SLOT_BIND 7) 12 ∧ (tBound.slot 8).st = .empty) ∧
    (tFault.accepts (tWr 2 12) (Reg.SLOT_BIND 7) ∧ 12 ≤ 12 ∧ (tFault.slot 8).kind ≠ 3 ∧ (tFault.slot 8).kind ≠ 4 ∧ tFault.stores (Reg.SLOT_BIND 7) 12 ∧ (tFault.slot 8).st ≠ .empty ∧ 8 - 1 < tFault.sens.slots.length) := by
  refine ⟨?_, ?_, ?_, ?_, ?_, ?_, ?_, ?_, ?_, ?_, ?_, ?_, ?_, ?_, ?_, ?_⟩ <;> decide +kernel

theorem witness_BusModes :
    (tLive.accepts (tWr 1 4) (Reg.BUS_MODE 1) ∧ 3 < 4) ∧
    (tBoff.accepts (tWr 1 3) (Reg.BUS_MODE 1) ∧ tBoff.stores (Reg.BUS_MODE 1) 3 ∧ (tBoff.chan .two).active = .normal ∧ (tBoff.chan .two).busOff = true) ∧
    (tLive.accepts (tWr 1 3) (Reg.BUS_MODE 0) ∧ tLive.stores (Reg.BUS_MODE 0) 3 ∧ (tLive.chan .one).busOff = false) ∧
    (((tAsksMode .off).chan .two).request = some .off) ∧
    ((tJoin.chan .one).active ≠ .off ∧ tJoin.pfail = false ∧ (tJoin.chan .one).busOff = false) ∧
    (((tProbe 8).chan .one).probe = some 8 ∧ 8 ≤ 8) ∧
    (((tProbe 7).chan .one).probe = some 7 ∧ 7 < 8) ∧
    (tJoin.accepts (tWr 2 125) (0x1C1000 + 256 * Bus.one.idx + 3) ∧ (tJoin.chan .one).active ≠ .off) ∧
    (tTriple.accepts (tWr 2 500) (0x1C1000 + 256 * Bus.one.idx + 3) ∧ 500 ≠ 125 ∧ tTriple.reg (Reg.TRIPLE_SAMPLE 0) = 1) ∧
    (tTiming.accepts (tWr 2 501) (0x1C1000 + 256 * Bus.one.idx + 3) ∧ (tTiming.chan .one).active = .off ∧ tTiming.reg (Reg.TRIPLE_SAMPLE 0) ≠ 1 ∧ (inRange (0x1C1000 + 256 * Bus.one.idx + 3) 501 = false ∨ tTiming.timingOk Bus.one.idx 3 501 = false)) ∧
    (tTiming.accepts (tWr 2 250) (0x1C1000 + 256 * Bus.one.idx + 3) ∧ (tTiming.chan .one).active = .off ∧ tTiming.reg (Reg.TRIPLE_SAMPLE 0) ≠ 1 ∧ inRange (0x1C1000 + 256 * Bus.one.idx + 3) 250 = true ∧ tTiming.timingOk Bus.one.idx 3 250 = true ∧ tTiming.stores (0x1C1000 + 256 * Bus.one.idx + 3) 250) ∧
    (tJoin.accepts (tWr 1 0) (Reg.TRIPLE_SAMPLE 0) ∧ (tJoin.chan .one).active ≠ .off) ∧
    (tTriple.accepts (tWr 1 1) (Reg.TRIPLE_SAMPLE 0) ∧ (tTriple.chan .one).active = .off ∧ tTriple.reg (Reg.NOM_BITRATE 0) = 125 ∧ tTriple.stores (Reg.TRIPLE_SAMPLE 0) 1) ∧
    ((tRecov.chan .two).busOff = true ∧ (tRecov.chan .two).recovering = true) := by
  refine ⟨?_, ?_, ?_, ?_, ?_, ?_, ?_, ?_, ?_, ?_, ?_, ?_, ?_, ?_⟩ <;> decide

theorem witness_BusTraffic :
    ((tLive.chan .one).active = .off ∨ (tLive.chan .one).integrated = false) ∧
    ((tNoFd.chan .one).active ≠ .off ∧ (tNoFd.chan .one).integrated = true ∧ ({ tF 5 [] with fd := true } : CanFrame).fd = true ∧ tNoFd.reg (Reg.FD_ENABLE 0) ≠ 1) ∧
    (({ tF 5 [] with ext := true } : CanFrame).ext = true ∧ (tHear.chan .one).integrated = true) ∧
    (0x389 / 128 ∈ [1, 3, 6, 7, 8] ∧ 0x389 % 128 = tHear.reg Reg.NODE_ID) ∧
    (0x38A / 128 ∈ [1, 3, 6, 7, 8, 9, 10, 11, 12, 13, 14] ∧ 0x38A % 128 ≠ tHear.reg Reg.NODE_ID ∧ tHear.regBit (Reg.RX_FILTER 0) (0x38A / 128) = true ∧ (tHear.chan .one).rx.length < 128) ∧
    (0x70A / 128 ∈ [1, 3, 6, 7, 8, 9, 10, 11, 12, 13, 14] ∧ tHear.regBit (Reg.RX_FILTER 0) (0x70A / 128) = false) ∧
    (0x785 / 128 = 0xF ∧ 0x785 % 128 ≠ tHb.reg Reg.NODE_ID ∧ 0x785 % 128 = tHb.reg Reg.MASTER_SOURCE ∧ 0x785 % 128 ≠ 0) ∧
    (0x205 / 128 = 4 ∧ 0x205 % 128 ≠ tMapped.reg Reg.NODE_ID ∧ ([200, 1, 0, 0, 4, 3, 2, 1] : List Nat).length = 8 ∧ bitAt 1 0 = true ∧ smapGet 0 255 tMapped.bus.rxMap % 256 = 0x205 % 128 ∧ smapGet 0 255 tMapped.bus.rxMap / 256 % 256 = 200 ∧ bitAt (smapGet 0 255 tMapped.bus.rxMap / 65536) 0 = true ∧ tMapped.bus.rxSlots = []) ∧
    ((tF 0 []).id = 0 ∧ ({ tHear with hm := { tHear.hm with storm := true } } : State).storm = true) ∧
    (((tOnBus 5 false).chan .two).onBus = some (3, { f := tF 0x189 [1], copied := false, compact := none }) ∧ ((tOnBus 5 false).chan .two).offSince = false) ∧
    (((tOnBus 5 true).chan .two).onBus = some (3, { f := tF 0x189 [1], copied := false, compact := none }) ∧ ((tOnBus 5 true).chan .two).offSince = true ∧ (tOnBus 5 true).log.queue.length < 256) ∧
    (((tOnBus 247 false).chan .two).tecUp 4 ≤ 255) ∧
    (255 < ((tOnBus 248 false).chan .two).tecUp 4 ∧ ((tOnBus 248 false).chan .two).offSince = false) ∧
    ((tHear.chan .one).active ≠ .off ∧ (tHear.chan .one).integrated = true) := by
  refine ⟨?_, ?_, ?_, ?_, ?_, ?_, ?_, ?_, ?_, ?_, ?_, ?_, ?_, ?_⟩ <;> decide

theorem witness_BusTimers :
    ((tQuiet3.bus.bw.get 3).hold = true ∧ (tQuiet3.bus.bw.get 3).pend = none) ∧
    ((tHeld3.bus.bw.get 3).hold = true ∧ (tHeld3.bus.bw.get 3).pend = some tEvent ∧ tEvent.source = 3 ∧ tHeld3.alarmTargets ≠ []) ∧
    (tHeld3.bus.bw.running = true ∧ tHeld3.alarmTargets ≠ []) ∧
    (tStorm.reg Reg.HB_PERIOD = 0 ∨ tStorm.storm = true ∨ (tStorm.hm.owner = none ∧ tStorm.hm.takeover = none)) ∧
    ((tTake { dest := .b, start := 0, cause := 1, planned := false } tBoth).reg Reg.HB_PERIOD ≠ 0 ∧ (tTake { dest := .b, start := 0, cause := 1, planned := false } tBoth).storm = false ∧ (tTake { dest := .b, start := 0, cause := 1, planned := false } tBoth).hm.takeover = some { dest := .b, start := 0, cause := 1, planned := false }) ∧
    (tBoth.reg Reg.HB_PERIOD ≠ 0 ∧ tBoth.hm.owner ≠ none ∧ tBoth.storm = false ∧ tBoth.hm.takeover = none ∧ bitAt (tBoth.reg Reg.HB_CHANNELS) 1 = true ∧ (tBoth.chan .two).active = .normal ∧ 7 < (tBoth.chan .two).queues.length ∧ ((tBoth.chan .two).queues.getD 7 []).length < 2) ∧
    ((tNet 1).nextNet .two { f := tF 0 [1, 5, 1, 0, 0, 0, 0, 0], stamp := 5 } []) ∧
    ((tNet 2).nextNet .two { f := tF 0 [2, 5, 1, 0, 0, 0, 0, 0], stamp := 5 } []) ∧
    ((tNet 3).nextNet .two { f := tF 0 [3, 5, 1, 0, 0, 0, 0, 0], stamp := 5 } []) ∧
    ((tNet 4).nextNet .two { f := tF 0 [4, 5, 1, 0, 0, 0, 0, 0], stamp := 5 } []) ∧
    (tHush.bus.quiet = true ∧ (tHush.chan .one).active = .off ∧ (tHush.chan .two).active ≠ .off ∧ (tHush.chan .two).probe = none ∧ (tHush.chan .two).rateSuspect = false) := by
  refine ⟨?_, ?_, ?_, ?_, ?_, ?_, ?_, ?_, ?_, ?_, ?_⟩ <;> decide

theorem witness_EntryRequests :
    (tLive.serves (askRequest (tAsk 0 []) opRead) ∧ findEntry (askRequest (tAsk 0 []) opRead).key = none) ∧
    (tLive.serves (askRequest (tAsk Reg.KEY_SERVICE []) opRead) ∧ readForbidden (askRequest (tAsk Reg.KEY_SERVICE []) opRead).key = true) ∧
    (tLive.serves (askRequest (tAsk Reg.PANEL_IMAGE []) opRead) ∧ (findEntry Reg.PANEL_IMAGE).any (fun e => decide (e.ty = .domain)) = true ∧ readForbidden Reg.PANEL_IMAGE = false) ∧
    (tFrozen.serves (askRequest (tAsk Reg.BROWNOUTS []) opRead) ∧ (findEntry Reg.BROWNOUTS).any (fun e => decide (e.ty ≠ .domain)) = true ∧ readForbidden Reg.BROWNOUTS = false ∧ (tFrozen.nv.tally Reg.BROWNOUTS).any Tally.frozen = true) ∧
    (tLive.serves (askRequest (tAsk Reg.RATE_MODE []) opRead) ∧ (findEntry Reg.RATE_MODE).any (fun e => decide (e.ty ≠ .domain)) = true ∧ readForbidden Reg.RATE_MODE = false ∧ (tLive.nv.tally Reg.RATE_MODE).any Tally.frozen = false ∧ Reg.RATE_MODE ≠ Reg.BUS_STATUS 0 ∧ Reg.RATE_MODE ≠ Reg.BUS_STATUS 1) ∧
    (tLive.accepts (tWr 2 3436) Reg.FLAG_BETA ∧ inRange Reg.FLAG_BETA 3436 = true ∧ tLive.stores Reg.FLAG_BETA 3436) ∧
    (entryRule tReq Reg.FLAG_BETA = plainRule Reg.FLAG_BETA) ∧
    (tLive.accepts (tWr 2 60000) Reg.SHUTTER_TRAVEL ∧ inRange Reg.SHUTTER_TRAVEL 60000 = false) ∧
    (entryRule tReq Reg.SHUTTER_TRAVEL = plainRule Reg.SHUTTER_TRAVEL) ∧
    (tLive.accepts (tWr 2 2) Reg.IRQ_CLEAR ∧ bitAt ({ tLive with klp := { tLive.klp with irq := 6 } } : State).klp.irq 1 = true) := by
  refine ⟨?_, ?_, ?_, ?_, ?_, ?_, rfl, ?_, rfl, ?_⟩ <;> decide

theorem witness_Transfers :
    (tLive.serves (askRequest (tAsk Reg.FAN_TABLES []) opSegReadStart) ∧ (∀ x ∈ tLive.klp.transfers, tLive.now ≤ x.last + 10 * clkSec) ∧ (tLive.ready (askRequest (tAsk Reg.FAN_TABLES []) opSegReadStart)).checkSegRead (askRequest (tAsk Reg.FAN_TABLES []) opSegReadStart) (fun n => n == 0) = none ∧ tLive.transferOf 128 Reg.FAN_TABLES false = none ∧ tLive.transfersFull 128 = false) ∧
    ((tLive.ready (askRequest (tAsk Reg.FAN_TABLES []) opSegReadStart)).view 128 Reg.FAN_TABLES = some (.bytes tLive.loop.tables)) ∧
    (tFourX.serves (askRequest (tAsk Reg.FAN_TABLES []) opSegReadStart) ∧ (∀ x ∈ tFourX.klp.transfers, tFourX.now ≤ x.last + 10 * clkSec) ∧ (tFourX.ready (askRequest (tAsk Reg.FAN_TABLES []) opSegReadStart)).checkSegRead (askRequest (tAsk Reg.FAN_TABLES []) opSegReadStart) (fun n => n == 0) = none ∧ tFourX.transferOf 128 Reg.FAN_TABLES false = none ∧ tFourX.transfersFull 128 = true) ∧
    (tLive.serves (askRequest (tAsk Reg.BERTH_STATS [0, 0, 0, 0, 4, 0]) opSegRead) ∧ (tLive.ready (askRequest (tAsk Reg.BERTH_STATS [0, 0, 0, 0, 4, 0]) opSegRead)).checkSegRead (askRequest (tAsk Reg.BERTH_STATS [0, 0, 0, 0, 4, 0]) opSegRead) (fun n => n == 6) = none ∧ tLive.transferOf 128 Reg.BERTH_STATS false = none) ∧
    (tReadX.serves (askRequest (tAsk Reg.BERTH_STATS [4, 0, 0, 0, 4, 0]) opSegRead) ∧ (∀ x ∈ tReadX.klp.transfers, tReadX.now ≤ x.last + 10 * clkSec) ∧ (tReadX.ready (askRequest (tAsk Reg.BERTH_STATS [4, 0, 0, 0, 4, 0]) opSegRead)).checkSegRead (askRequest (tAsk Reg.BERTH_STATS [4, 0, 0, 0, 4, 0]) opSegRead) (fun n => n == 6) = none ∧ tReadX.transferOf 128 Reg.BERTH_STATS false = some (tXfer Reg.BERTH_STATS false 6 0 [1, 2, 3, 4, 5, 6] none) ∧ leValue [4, 0, 0, 0] < 6 ∧ tReadX.readBad Reg.BERTH_STATS 4 2 = false) ∧
    (tLive.serves (askRequest (tAsk Reg.PANEL_IMAGE [31, 1, 0, 0]) opSegWriteStart) ∧ (tLive.ready (askRequest (tAsk Reg.PANEL_IMAGE [31, 1, 0, 0]) opSegWriteStart)).checkSegWrite (askRequest (tAsk Reg.PANEL_IMAGE [31, 1, 0, 0]) opSegWriteStart) (fun n => n == 4) = none ∧ writeLimits Reg.PANEL_IMAGE = some (288, 288) ∧ tLive.openBusy 128 Reg.PANEL_IMAGE = false ∧ within 288 288 (leValue [31, 1, 0, 0]) = false) ∧
    (within 288 288 (leValue [32, 1, 0, 0]) = true ∧ tLive.openBusy 128 Reg.PANEL_IMAGE = false) ∧
    ((tPanelX 284 []).serves (askRequest (tAsk Reg.PANEL_IMAGE [32, 1, 0, 0]) opSegWriteStart) ∧ (tPanelX 284 []).openBusy 128 Reg.PANEL_IMAGE = true) ∧
    ((tPanelX 284 []).serves (askRequest (tAsk Reg.PANEL_IMAGE [28, 1, 0, 0, 1, 2, 3, 4]) opSegWrite) ∧ (∀ x ∈ (tPanelX 284 []).klp.transfers, (tPanelX 284 []).now ≤ x.last + 10 * clkSec) ∧ ((tPanelX 284 []).ready (askRequest (tAsk Reg.PANEL_IMAGE [28, 1, 0, 0, 1, 2, 3, 4]) opSegWrite)).checkSegWrite (askRequest (tAsk Reg.PANEL_IMAGE [28, 1, 0, 0, 1, 2, 3, 4]) opSegWrite) (fun n => within 4 (4 + maxWrite .spi) n) = none ∧ (tPanelX 284 []).transferOf 128 Reg.PANEL_IMAGE true = some (tXfer Reg.PANEL_IMAGE true 288 284 [] (some 280)) ∧ leValue [28, 1, 0, 0] = 284 ∧ 284 + 4 = 288) ∧
    (leValue [24, 1, 0, 0] ≠ 284 ∧ (tXfer Reg.PANEL_IMAGE true 288 284 [] (some 280)).lastOff = some (leValue [24, 1, 0, 0]) ∧ leValue [25, 1, 0, 0] ≠ 284 ∧ (tXfer Reg.PANEL_IMAGE true 288 284 [] (some 280)).lastOff ≠ some (leValue [25, 1, 0, 0]) ∧ leValue [8, 0, 0, 0] = 8 ∧ 8 + 2 < 288) ∧
    (tLive.serves (askRequest (tAsk Reg.PANEL_IMAGE [28, 1, 0, 0, 1]) opSegWrite) ∧ tLive.transferOf 128 Reg.PANEL_IMAGE true = none) ∧
    (tReadX.serves (askRequest (tAsk Reg.BERTH_STATS []) opSegAbort) ∧ (∀ x ∈ tReadX.klp.transfers, tReadX.now ≤ x.last + 10 * clkSec) ∧ checkSegAbort (askRequest (tAsk Reg.BERTH_STATS []) opSegAbort) = none ∧ (∃ x ∈ tReadX.klp.transfers, x.id = 128 ∧ x.key = Reg.BERTH_STATS)) ∧
    (tLive.serves (askRequest (tAsk Reg.BERTH_STATS []) opSegAbort) ∧ (∀ x ∈ tLive.klp.transfers, ¬(x.id = 128 ∧ x.key = Reg.BERTH_STATS))) ∧
    ((tBoth.streamJob (askRequest (tAskC Reg.FAN_TABLES [0, 0, 0, 0, 100, 0, 0, 0]) opSegStream)).isSome = true) := by
  refine ⟨?_, rfl, ?_, ?_, ?_, ?_, ?_, ?_, ?_, ?_, ?_, ?_, ?_, ?_⟩ <;> decide +kernel

theorem witness_Sessions :
    ((tKeyed 16).serves (askRequest (tUn 1 [1]) opUnlock) ∧ (tKeyed 16).lockedOut 128 = false ∧ (tUn 1 [1]).data.length ≠ 9) ∧
    ((tLockd (10 ^ 12)).serves (askRequest (tUn 1 [2, 1, 0, 0, 0, 0, 0, 0]) opUnlock) ∧ (tUn 1 [2, 1, 0, 0, 0, 0, 0, 0]).data.length = 9 ∧ (tLockd (10 ^ 12)).lockedOut 128 = true) ∧
    ((tKeyed 16).serves (askRequest (tUn 4 [2, 1, 0, 0, 0, 0, 0, 0]) opUnlock) ∧ (tKeyed 16).lockedOut 128 = false ∧ 3 < 4) ∧
    ((tKeyed 15).serves (askRequest (tUn 1 [3, 1, 0, 0, 0, 0, 0, 0]) opUnlock) ∧ (tUn 1 [3, 1, 0, 0, 0, 0, 0, 0]).data.drop 1 ≠ (tKeyed 15).keyOf 1) ∧
    ((tKeyed 16).serves (askRequest (tUn 1 [2, 1, 0, 0, 0, 0, 0, 0]) opUnlock) ∧ (tUn 1 [2, 1, 0, 0, 0, 0, 0, 0]).data.drop 1 = (tKeyed 16).keyOf 1 ∧ (tKeyed 16).levelOf 128 = 0 ∧ 16 ≤ (tKeyed 16).klp.sessions.length) ∧
    ((tKeyed 15).serves (askRequest (tUn 1 [2, 1, 0, 0, 0, 0, 0, 0]) opUnlock) ∧ (tUn 1 [2, 1, 0, 0, 0, 0, 0, 0]).data.drop 1 = (tKeyed 15).keyOf 1 ∧ (tKeyed 15).klp.sessions.length < 16) ∧
    (((tLockd 0).failsOf 128).locked = true ∧ (tLockd 0).lockedOut 128 = false) ∧
    (tLive.serves (askRequest (tAsk 0 []) opLock) ∧ (tAsk 0 []).data = []) ∧
    (tLive.klp.sessions.find? (fun y => y.id == 128) = some { id := 128, level := 3, last := 0 } ∧ 0 + tLive.reg Reg.UNLOCK_TIMEOUT * clkSec ≤ tLive.now) ∧
    (tHost.serves (askRequest (tAsk 0 []) opHeartbeat) ∧ tHost.reg Reg.MASTER_SOURCE ≠ 0 ∧ tHost.reg Reg.MASTER_SOURCE = (tAsk 0 []).req.id) ∧
    (tLive.reg Reg.MASTER_SOURCE ≠ (tAsk 0 []).req.id) ∧
    (tHmOnly.serving (tAsk 0 []).req.port = .hmOnly ∧ (tAsk 0 []).data = []) ∧
    (tLive.serves (askRequest (tAsk 0 []) opManifest)) ∧
    (tLive.serves (askRequest (tAsk 0 [1, 2]) opEcho)) := by
  refine ⟨?_, ?_, ?_, ?_, ?_, ?_, ?_, ?_, ?_, ?_, ?_, ?_, ?_, ?_⟩ <;> decide

theorem witness_LedgerPorts :
    (tSending.klp.sending = some { bus := .two, frames := [], since := 0 } ∧ 0 + 100 * clkMs ≤ tSending.now) ∧
    (tGap.openMessage .one 5 = some { bus := .one, peer := 5, next := 1, data := [], last := 0 } ∧ 0 + 100 * clkMs < tGap.now) ∧
    (tLive.windowAnswers = true ∧ tLive.nv.openWord = none ∧ (tBytes tCrc ++ [0]).length ≠ 4 + u16At (tBytes tCrc ++ [0]) 0) ∧
    (u16At (leBytes 2 7 ++ [1, 2, 3, 4, 5, 6, 7] ++ [0, 0]) 0 < 8) ∧
    ((tFifo 8).windowAnswers = true ∧ tBytes tCrc = leBytes 2 tMsg.length ++ tMsg ++ leBytes 2 (crc16 (leBytes 2 tMsg.length ++ tMsg)) ∧ 8 ≤ tMsg.length ∧ 8 ≤ (tFifo 8).klp.fifo.length) ∧
    ((tFifo 7).klp.fifo.length < 8 ∧ (requestOf .spi 0 tMsg).any (fun q => decide (q.op ∈ knownOps)) = true ∧ (tFifo 7).serving .spi = .full ∧ (tFifo 7).klp.queue.length < 32) ∧
    ((tCrc + 1) % 65536 ≠ crc16 (leBytes 2 tMsg.length ++ tMsg)) ∧
    ((tFifo 0).windowAnswers = true ∧ (tFifo 0).klp.fifo = []) ∧
    ((tFifo 2).klp.fifo = tResp :: [tResp] ∧ 13 < tResp.message.length + 6) ∧
    (tResp.message.length + 6 ≤ 14 ∧ (tFifo 2).klp.outbox = []) := by
  refine ⟨?_, ?_, ?_, ?_, ?_, ?_, ?_, ?_, ?_, ?_⟩ <;> decide +kernel

theorem witness_Window :
    ((tSet tSilent []).windowAnswers = false) ∧
    (tHalf.windowAnswers = true ∧ tHalf.nv.openWord = some (1, [(0, 5)])) ∧
    (tLive.windowAnswers = true ∧ tLive.nv.openWord = none) ∧
    (tLive.windowAnswers = true ∧ tLive.nv.openWord = none ∧ tLive.nv.wel = false) ∧
    (tPage.windowAnswers = true ∧ tPage.nv.openWord = none ∧ tPage.nv.wel = true ∧ tPage.stores Reg.NV_PAGE_MODE (field 4 2 1)) ∧
    (tWel.windowAnswers = true ∧ tWel.nv.openWord = none ∧ (windowBytes - 1 + 0) % windowBytes / 8 ∉ tWel.nv.winBad ∧ (windowBytes - 1 + 1) % windowBytes / 8 ∉ tWel.nv.winBad) ∧
    (tLin.windowAnswers = true ∧ tLin.nv.openWord = none ∧ tLin.nv.wel = true ∧ tLin.reg Reg.NV_HOST_LOCK ≠ 1 ∧ tLin.nv.winBad = [] ∧ tLin.reg Reg.NV_PAGE_MODE = 1) ∧
    (tPage.windowAnswers = true ∧ tPage.nv.openWord = none ∧ tPage.nv.wel = true ∧ tPage.reg Reg.NV_HOST_LOCK ≠ 1 ∧ tPage.nv.winBad = [] ∧ tPage.reg Reg.NV_PAGE_MODE ≠ 1 ∧ 511 % 8 = 7 ∧ 5 % 8 ≠ 7) ∧
    (tUe.windowAnswers = true ∧ tUe.nv.openWord = none ∧ tUe.nv.firstUe = some 0x012345 ∧ tLive.nv.firstUe = none) := by
  refine ⟨?_, ?_, ?_, ?_, ?_, ?_, ?_, ?_, ?_⟩ <;> decide

theorem witness_Logbook :
    (tCompact.nv.compacting = true ∧ tCompact.pfail = false ∧ tCompact.nv.compactions + 1 < 2 ^ 32 ∧ tCompact.log.queue.length < 256) ∧
    (4 ≤ 4) ∧
    (tSilent.pfail = true ∨ tSilent.pwr.rails = false) ∧
    ((tQueued 0x11).pfail = false ∧ (tQueued 0x11).pwr.rails = true ∧ (tQueued 0x11).log.queue = tRec 0x11 :: [] ∧ (tQueued 0x11).log.inLifeboat = false ∧ (tQueued 0x11).log.resumePending = false ∧ (tQueued 0x11).log.badBlocks = []) ∧
    (tLive.streamBus = none ∨ tLive.streamNext = none) ∧
    ((tStream 1 15).streamBus = some .two ∧ (tStream 1 15).streamNext = some (some (tRec 1).bytes, 6) ∧ 5 < ((tStream 1 15).chan .two).queues.length ∧ (((tStream 1 15).chan .two).queues.getD 5 []).length + (streamFrames (tRec 1).bytes).length ≤ 16) ∧
    (16 < (((tStream 1 16).chan .two).queues.getD 5 []).length + (streamFrames (tRec 1).bytes).length) ∧
    ((tStream 0x11 0).streamBus = some .two ∧ (tStream 0x11 0).streamNext = some (none, 6)) ∧
    (tLive.accepts (tWr 1 0xA5) Reg.LOG_CLEAR ∧ 3 ≤ tLive.levelOf 128 ∧ tLive.log.queue.length < 256) ∧
    (tServ.accepts (tWr 1 0xA5) Reg.LOG_CLEAR ∧ tServ.levelOf 128 < 3) ∧
    (tServ.accepts (tWr 1 0xC1) Reg.LOG_CLEAR) ∧
    (tLive.accepts (tWr 1 0xC2) Reg.LOG_CLEAR ∧ 0xC2 ≠ 0xC1 ∧ 0xC2 ≠ 0xA5) ∧
    (tCursors.accepts (tWr 4 77) Reg.LOG_CURSOR) := by
  refine ⟨?_, ?_, ?_, ?_, ?_, ?_, ?_, ?_, ?_, ?_, ?_, ?_, ?_⟩ <;> decide +kernel

theorem witness_Mooring :
    (tMain.rtc.supply = .main ∧ tMain.rtc.backupEvents + 1 < 2 ^ 32) ∧
    (tBackup.rtc.supply = .backup ∨ tBackup.rtc.supply = .bridge) ∧
    (tBackup.rtc.supply = .backup) ∧
    (tBridge.rtc.supply = .bridge ∧ tBridge.rtc.backupEvents + 1 < 2 ^ 32) ∧
    (tDown.rtc.supply = .down ∧ (tDown.tide.running && tDown.pwr.rails) = true ∧ tDown.log.queue.length < 256) ∧
    ((tSilentRtc).rtc.supply = .down ∧ (tSilentRtc.tide.running && tSilentRtc.pwr.rails) = false) := by
  refine ⟨?_, ?_, ?_, ?_, ?_, ?_⟩ <;> decide

theorem witness_Calendar :
    (tMain.accepts (tWr 8 (tDate + 1)) Reg.DATE_TIME ∧ field (tDate + 1) 0 8 ≠ 0) ∧
    (tMain.accepts (tWr 8 tNoDate) Reg.DATE_TIME ∧ field tNoDate 0 8 = 0 ∧ badField tNoDate ≠ 0 ∧ tMain.log.queue.length < 256) ∧
    (tMain.accepts (tWr 8 tDate) Reg.DATE_TIME ∧ field tDate 0 8 = 0 ∧ badField tDate = 0) ∧
    (tMain.accepts (tWr 8 (2 ^ 64 - 1 - tMain.rtc.ticks)) Reg.CALENDAR_OFFSET ∧ inCalendar (tMain.rtc.ticks + toSigned 64 (2 ^ 64 - 1 - tMain.rtc.ticks)) = false) ∧
    (tMain.accepts (tWr 8 0) Reg.CALENDAR_OFFSET ∧ inCalendar (tMain.rtc.ticks + toSigned 64 0) = true) ∧
    (tMain.accepts (tWr 2 1) Reg.SUBSEC_SHIFT ∧ tMain.rtc.valid = false) ∧
    (tValid.accepts (tWr 2 0x8000) Reg.SUBSEC_SHIFT ∧ tValid.rtc.valid = true ∧ withinI (-32767) 32767 (toSigned 16 0x8000) = false) ∧
    (tValid.accepts (tWr 2 0x8001) Reg.SUBSEC_SHIFT ∧ tValid.rtc.valid = true ∧ withinI (-32767) 32767 (toSigned 16 0x8001) = true) ∧
    (tSummer.accepts { req := tReq, len := 1, val := 1 } Reg.DST_COMMAND ∧ (tSummer.rtc.valid = false ∨ tSummer.rtc.dst = true)) ∧
    (tValid.accepts { req := tReq, len := 1, val := 1 } Reg.DST_COMMAND ∧ tValid.rtc.valid = true ∧ tValid.rtc.dst = false ∧ inCalendar (tValid.calTicks + 117964800) = true) ∧
    (tValid.accepts { req := tReq, len := 1, val := 2 } Reg.DST_COMMAND ∧ (tValid.rtc.valid = false ∨ tValid.rtc.dst = false)) ∧
    (tSummer.accepts { req := tReq, len := 1, val := 2 } Reg.DST_COMMAND ∧ tSummer.rtc.valid = true ∧ tSummer.rtc.dst = true) := by
  refine ⟨?_, ?_, ?_, ?_, ?_, ?_, ?_, ?_, ?_, ?_, ?_, ?_⟩ <;> decide

theorem witness_AlarmsAndTime :
    (tMain.secondDue = false) ∧
    (tSecond.secondDue = true ∧ 1 < tSecond.rtc.alarmStatus.length ∧ 1 < tSecond.rtc.alarmCount.length ∧ 1 < tSecond.rtc.alarmLast.length ∧ alarmMatches (tSecond.reg (Reg.ALARM_MATCH 1)) tSecond.calSecond.toNat = true ∧ alarmMatches (tSecond.reg (Reg.ALARM_MATCH 0)) tSecond.calSecond.toNat = false) ∧
    (tMain.accepts (tWr 8 (2 ^ 56 + 60 * 256)) (Reg.ALARM_MATCH 1) ∧ alarmAllowed (2 ^ 56 + 60 * 256) = false) ∧
    (tMain.accepts (tWr 8 (2 ^ 56 + 59 * 256)) (Reg.ALARM_MATCH 1) ∧ alarmAllowed (2 ^ 56 + 59 * 256) = true ∧ tMain.stores (Reg.ALARM_MATCH 1) (2 ^ 56 + 59 * 256)) ∧
    (tMain.accepts (tWr 1 1) (Reg.ALARM_STATUS 1) ∧ 1 < 2) ∧
    (tDown.rtc.supply = .down ∧ tMain.rtc.supply ≠ .down) ∧
    ((tSet tMain [(Reg.TIME_FRAME_PERIOD, 0)]).rtc.sched = [] ∧ (tSet tMain [(Reg.TIME_FRAME_PERIOD, 0)]).reg Reg.TIME_FRAME_PERIOD = 0) ∧
    (tSched.rtc.sched ≠ [] ∧ bitAt (tSched.reg Reg.TIME_CHANNELS) 1 = true ∧ (tSched.chan .two).active = .normal ∧ tSched.storm = false ∧ 1 < (tSched.chan .two).queues.length ∧ ((tSched.chan .two).queues.getD 1 []).length < 4) := by
  refine ⟨?_, ?_, ?_, ?_, ?_, ?_, ?_, ?_⟩ <;> decide

theorem witness_Panel :
    (tSilent.panelLive = false) ∧
    (tRunning.panelLive = true ∧ 2 < 8 ∧ tRunning.panel.regions.length = 8 ∧ (tRunning.panel.region 2).run = some tLong ∧ (∀ r ∈ tRunning.panel.regions, r.queued = none) ∧ tLong.frame + 1 < tLong.length (tRunning.runLayers 2)) ∧
    (tWaiting.panelLive = true ∧ tWaiting.panel.regions.length = 8 ∧ (∀ r ∈ tWaiting.panel.regions, r.run = none) ∧ tWaiting.panel.lhRun = none ∧ tWaiting.panel.lighthouse = false ∧ tWaiting.panelStarts = true ∧ (tWaiting.panel.region 2).queued = some { urgent := false, full := true, order := 0 } ∧ (tWaiting.panel.regions.eraseIdx 2).all (fun r => r.queued.isNone) = true ∧ regionCells (tWaiting.reg (Reg.REGION_CELLS 2)) ≠ []) ∧
    (tRunning.panelLive = true ∧ tRunning.panel.busy = true ∧ tArea.panel.busy = false) ∧
    (tHotPanel.panel.badSince = some 0 ∧ 0 + 10 * clkSec ≤ tHotPanel.now) ∧
    (tWaiting.panelLive = true) ∧
    (tStorm.panel.busy = false ∧ tStorm.storm = true ∧ tStorm.reg Reg.STORM_PANEL = 1 ∧ tLive.storm = false) ∧
    (tArea.accepts (tWr 1 0x0A) Reg.REGION_UPDATE ∧ field 0x0A 0 3 < tArea.panel.regions.length ∧ field 0x0A 3 3 ≠ 0) ∧
    (tArea.accepts (tWr 1 7) Reg.REGION_UPDATE ∧ field 7 0 3 < tArea.panel.regions.length ∧ tArea.reg (Reg.REGION_CELLS (field 7 0 3)) = 0) ∧
    (tArea.accepts (tWr 1 0xC2) Reg.REGION_UPDATE ∧ field 0xC2 0 3 < tArea.panel.regions.length ∧ field 0xC2 3 3 = 0 ∧ tArea.reg (Reg.REGION_CELLS (field 0xC2 0 3)) ≠ 0 ∧ (tArea.panel.region (field 0xC2 0 3)).queued = none) ∧
    (2 < 8 ∧ tWaiting.accepts (tWr 4 0) (Reg.REGION_CELLS 2) ∧ (tWaiting.panel.region 2).queued ≠ none) ∧
    (7 < 8 ∧ tArea.accepts (tWr 4 tCells) (Reg.REGION_CELLS 7) ∧ (tArea.panel.region 7).run = none ∧ (tArea.panel.region 7).queued = none ∧ tCells ≠ 0 ∧ tArea.cellsFree 7 tCells = false) ∧
    (7 < 8 ∧ tArea.accepts (tWr 4 (2 * tCells)) (Reg.REGION_CELLS 7) ∧ (tArea.panel.region 7).run = none ∧ bitAt (2 * tCells) 31 = false ∧ field (2 * tCells) 28 3 ≠ 0 ∧ field (2 * tCells) 4 24 ≠ 0 ∧ field (2 * tCells) 0 4 ≠ 0 ∧ tArea.cellsFree 7 (2 * tCells) = true ∧ tArea.stores (Reg.REGION_CELLS 7) (2 * tCells)) := by
  refine ⟨?_, ?_, ?_, ?_, ?_, ?_, ?_, ?_, ?_, ?_, ?_, ?_, ?_⟩ <;> decide +kernel

theorem witness_Keys :
    (tSilent.panelLive = false) ∧
    ((tScan 1).panelLive = true ∧ (tScan 1).keys.keys.length = 36 ∧ (List.range 36).all (fun j => bitAt (2 ^ 35) j == decide (j + 1 = 36)) = true ∧ (List.range 36).all (fun j => !((tScan 1).keys.key (j + 1)).pressed) = true ∧ ((tScan 1).keys.key 36).agree + 1 < (tScan 1).reg Reg.KEY_DEBOUNCE) ∧
    ((tScan 2).panelLive = true ∧ (tScan 2).reg Reg.KEY_DEBOUNCE ≤ ((tScan 2).keys.key 36).agree + 1 ∧ (tScan 2).keys.fifo.length < 32) ∧
    (tDown36.panelLive = true ∧ tDown36.keys.keys.length = 36 ∧ (List.range 36).all (fun j => (tDown36.keys.key (j + 1)).pressed == decide (j + 1 = 36)) = true ∧ (tDown36.keys.key 36).amb = false ∧ tDown36.reg Reg.KEY_DEBOUNCE ≤ (tDown36.keys.key 36).agree + 1) ∧
    (tLive.keyHeld 1 = false) ∧
    (tFullKeys.keyHeld 36 = true ∧ tFullKeys.reg (Reg.KEY_MODE (36 - 1)) = 1 ∧ (tFullKeys.keys.key 36).since + clkMs * (tFullKeys.reg Reg.KEY_REPEAT_DELAY + (tFullKeys.keys.key 36).repeats * tFullKeys.reg Reg.KEY_REPEAT_PERIOD) ≤ tFullKeys.now ∧ 32 ≤ tFullKeys.keys.fifo.length) ∧
    ((tHeldKey 2).keyHeld 36 = true ∧ (tHeldKey 2).reg (Reg.KEY_MODE (36 - 1)) = 2 ∧ ((tHeldKey 2).keys.key 36).longed = false ∧ ((tHeldKey 2).keys.key 36).since + clkMs * (tHeldKey 2).reg Reg.KEY_LONG_TIME ≤ (tHeldKey 2).now) ∧
    ((tHeldKey 0).keyHeld 36 = true ∧ ((tHeldKey 0).keys.key 36).since + clkSec * (tHeldKey 0).reg Reg.KEY_STUCK_TIME ≤ (tHeldKey 0).now ∧ (tHeldKey 0).log.queue.length < 256) := by
  refine ⟨?_, ?_, ?_, ?_, ?_, ?_, ?_, ?_⟩ <;> decide

theorem witness_Slipway :
    ((tSlip 2).slip.state = 2 ∧ (tSlip 2).verifyImage (tSlip 2).slip.image ≠ .ok) ∧
    ((tSlip 3).slip.state = 3) ∧
    ((tSlip 5).slip.state = 5 ∧ (tSlip 5).slip.loading = some .b ∧ (tSlip 5).qst .b = .standby) ∧
    (tCannot.slip.state = 5 ∧ tCannot.slip.loading = some .b ∧ tCannot.qst .b = .syncing ∧ tCannot.canRead .b = false) ∧
    ((tSlip 7).slip.state = 7 ∧ (tSlip 7).slip.probation = some 0 ∧ 0 + (tSlip 7).reg Reg.SLIP_PROBATION * clkSec ≤ (tSlip 7).now ∧ (tSlip 7).stores Reg.BOOT_SLOT (b2n (tSlip 7).slip.targetB)) ∧
    ((tSlip 3).accepts { req := tReq, len := 1, val := 1 } Reg.SLIP_COMMAND ∧ (tSlip 3).slip.state ≠ 4) ∧
    ((tSlip 4).accepts { req := tReq, len := 1, val := 1 } Reg.SLIP_COMMAND ∧ (tSlip 4).slip.state = 4 ∧ (tSlip 4).loadQuay = some .b) ∧
    ((tSlip 5).accepts { req := tReq, len := 1, val := 2 } Reg.SLIP_COMMAND ∧ (tSlip 5).slip.state ≠ 6) ∧
    ((tSlip 6).accepts { req := tReq, len := 1, val := 2 } Reg.SLIP_COMMAND ∧ (tSlip 6).slip.state = 6 ∧ (tSlip 6).slip.loading = some .b ∧ (tSlip 6).hm.takeover = none) ∧
    ((tSlip 6).accepts { req := tReq, len := 1, val := 3 } Reg.SLIP_COMMAND ∧ (tSlip 6).slip.state ≠ 7) ∧
    ((tSlip 7).accepts { req := tReq, len := 1, val := 3 } Reg.SLIP_COMMAND ∧ (tSlip 7).slip.state = 7 ∧ (tSlip 7).stores Reg.BOOT_SLOT (b2n (tSlip 7).slip.targetB)) ∧
    ((tSlip 6).accepts { req := tReq, len := 1, val := 4 } Reg.SLIP_COMMAND ∧ (tSlip 6).slip.state ≠ 7) ∧
    ((tSlip 7).accepts { req := tReq, len := 1, val := 4 } Reg.SLIP_COMMAND ∧ (tSlip 7).slip.state = 7 ∧ (tSlip 7).hm.owner = some .a ∧ (tSlip 7).qst Quay.a.other ≠ .out ∧ (tSlip 7).qst Quay.a.other ≠ .off) ∧
    ((tSlip 7).accepts { req := tReq, len := 1, val := 5 } Reg.SLIP_COMMAND ∧ 7 ≤ (tSlip 7).slip.state) ∧
    ((tSlip 6).accepts { req := tReq, len := 1, val := 5 } Reg.SLIP_COMMAND ∧ 1 ≤ (tSlip 6).slip.state ∧ (tSlip 6).slip.state ≤ 6 ∧ (tSlip 6).slip.loading = some .b) ∧
    ((tSlip 3).accepts { req := tReq, len := 1, val := 6 } Reg.SLIP_COMMAND ∧ (tSlip 3).installSlot = none) ∧
    ((tSlip 4).accepts { req := tReq, len := 1, val := 6 } Reg.SLIP_COMMAND ∧ (tSlip 4).installSlot = some true ∧ (tSlip 4).stores Reg.BOOT_TRIAL (b2n true)) := by
  refine ⟨?_, ?_, ?_, ?_, ?_, ?_, ?_, ?_, ?_, ?_, ?_, ?_, ?_, ?_, ?_, ?_, ?_⟩ <;> decide

/-! ### The remaining statements' hypotheses -/

theorem witness_Sound : Sound tLive := by
  constructor <;> decide

theorem witness_T64Continuous : ∃ t, exec (.feedOvervoltageEnd .a) tLive = .next t :=
  ⟨_, rfl⟩

/-- An output's edge, and a later request of the same position. -/
def tEdges : List Edge := [{ src := 5, pos := 3, who := 1, on := true }, { src := 5, pos := 3, who := 2, on := true }]

theorem witness_EdgeGrants :
    tEdges = [{ src := 5, pos := 3, who := 1, on := true }, { src := 5, pos := 3, who := 2, on := true }] ∧
      (grantWindow 20 [] tEdges).1.map Edge.pos = [3, 4] := by
  decide

/-! ### Ill-formed commands are refused by the check -/

def tBadReq : Req := { port := .can .one, node := 128, tag := 0 }
def tBadTag : Req := { port := .spi, node := 0, tag := 256 }
def tBadW : Wr := { req := tReq, len := 1, val := 256 }

theorem test_wf_accepts :
    ([.rateModeWrite (tWr 1 60), .hmSwap tReq, .berthEntryWrite 8191 19 (tWr 2 10), .klpWrite 0xFFFFFF (tWr 1 255), .canFrameReceived .one (tF 2047 [255]) 0,
      .echo (tAsk 0xFFFF [1]), .keyStuck 36, .idReadDone 8 .failed, .nvWrite 0xFFFFFF [0, 255] true] : List Instr).all Instr.wf = true := by
  decide

theorem test_wf_requests :
    ([.hmSwap tBadReq, .hmSwap tBadTag, .rateModeWrite { req := tBadReq, len := 1, val := 0 }, .rateModeWrite tBadW,
      .rateModeWrite { req := tReq, len := 4097, val := 0 }, .echo { req := tBadReq, index := 0, sub := 0, data := [] },
      .echo { req := tReq, index := 65536, sub := 0, data := [] }, .echo { req := tReq, index := 0, sub := 256, data := [] },
      .echo (tAsk 0 [256]), .klpWrite 0x1000000 (tWr 1 0), .registerWrite 0x1000000 (tWr 1 0), .spiRequestTransaction [256],
      .spiResponseRead 0, .transferIdleTimeout 129 0, .transferIdleTimeout 0 0x1000000, .unlockLockoutEnd 129, .sessionTimeout 129] :
      List Instr).all (fun i => !i.wf) = true := by
  decide

theorem test_wf_length : (Instr.echo { tCan with data := List.replicate 513 0 }).wf = false := by decide +kernel

theorem test_wf_events :
    ([.factoryDecompressionDone [2048], .coefReloadDone true 1310720, .coefReloadDone false 3932160, .gradientClear 7,
      .bandSensorExcluded 16, .converterSelfTest [0], .berthAlarmRaise 8192, .berthAlarmClear 8192, .berthOccupied 8192,
      .berthVacant 8192, .selfCheckResponse .a (2 ^ 32), .pilotMemoryError .a 5 0, .pilotMemoryError .a 0 (2 ^ 32), .hmVoteMismatch 0 true,
      .wharfWrite .a 18 0, .wharfWrite .a 0 65536, .checkpointArrival true 65505, .sunHoldExpiry 1280, .spareQualificationDone [] [],
      .overrideExpiry 32, .presenceHoldExpiry 32, .outputTrip 8 true, .outputTripResume 8, .thermalShutdown 65536, .floatingOverdriveEnd 1,
      .valvePeakEnd 3, .fanTugEnd 2, .fanWaitEnd 2, .fanStallRetry 2, .fanShort 2, .fanShortOffEnd 2, .rpmLearn 2, .tachEdge 4 0, .tachStop 4,
      .rippleWindowEnd 2 0] : List Instr).all (fun i => !i.wf) = true := by
  decide

theorem test_wf_more_events :
    ([.adcEntryEnd 0 0 true, .adcEntryEnd 1 (2 ^ 20) true, .adcSelfCalDone [] [] 0, .diStuck 0, .diChatterWindowEnd 9, .modDetChange 5 true,
      .idPoll 256, .idReadDone 9 .failed, .idReadDone 1 (.bytes []), .idReadRetry 0, .idFaultRetry 9, .canFrameReceived .one (tF 2048 []) 0,
      .canFrameReceived .one (tF 0 [256]) 0, .canFrameReceived .one (tF 0 [0, 0, 0, 0, 0, 0, 0, 0, 0]) 0,
      .canFrameReceived .one { tF 0 [0, 0, 0, 0, 0, 0, 0, 0, 0] with fd := true } 0, .canTxError .one (.error 8),
      .protocolError .one (.error 0), .bwHoldExpiry 65536, .klpFrameGapTimeout .one 256, .nvWrsr 256, .nvRead 0x1000000 1,
      .nvFastRead 0x1000000 1, .nvWrite 0x1000000 [] false, .nvWrite 0 [256] false, .bucketLeak 5, .keyScan (2 ^ 36), .keyRepeat 0, .keyLong 37,
      .keyStuck 37, .pfail 65536, .zcPulse 2 1] : List Instr).all (fun i => !i.wf) = true := by
  decide

theorem test_wf_writes :
    ([.stormValueWrite 0 (tWr 1 0), .lensWrite 5 (tWr 1 0), .gradientLimitWrite 0x13 (tWr 1 0), .groupStateWrite 64 (tWr 1 0),
      .berthEntryWrite 8192 1 (tWr 1 0), .berthEntryWrite 0 20 (tWr 1 0), .videoLinkWrite 6 (tWr 1 0), .outCommandWrite 16 (tWr 1 0),
      .outModeWrite 16 (tWr 1 0), .loopModeWrite 64 (tWr 1 0), .loopTargetWrite 64 (tWr 1 0), .pvSourceWrite 64 true (tWr 1 0),
      .zoneOverrideWrite 32 (tWr 1 0), .switchPointWrite 32 0 (tWr 1 0), .switchPointWrite 0 16 (tWr 1 0), .exceptionDateWrite 64 (tWr 1 0),
      .fanCommandWrite 2 (tWr 1 0), .fanIlimitWrite 2 (tWr 1 0), .fanBandWrite 2 0 (tWr 1 0), .fanBandWrite 0 4 (tWr 1 0),
      .adcFactorWrite 13 (tWr 1 0), .aiConfigWrite 13 1 (tWr 1 0), .aiConfigWrite 1 11 (tWr 1 0), .slotBindWrite 9 (tWr 1 0),
      .busTimingWrite .one 6 (tWr 1 0), .alarmMatchWrite 2 (tWr 1 0), .alarmStatusWrite 2 (tWr 1 0), .regionCellsWrite 8 (tWr 1 0)] :
      List Instr).all (fun i => !i.wf) = true := by
  decide

/-- The conversions, the columns and the inputs that a slot, a frame's close and a tick bring. -/
theorem test_wf_inputs :
    (Instr.rowSlot default).wf = false ∧ convsOk 2 [0, 0x4000] = false ∧ convsOk 2 [0, 65536] = false ∧ convsOk 1 [0x8000] = true ∧
      colsOk [2560] = false ∧ (Instr.frameClose default).wf = false ∧
      (Instr.frameClose { (default : CloseIn) with bands := List.replicate 16 none, laps := [(4, 0)] }).wf = false ∧
      (Instr.frameClose { (default : CloseIn) with bands := List.replicate 16 none, scrub := [{ mem := 5, addr := 0, kind := .weak, dropped := false }] }).wf = false ∧
      (Instr.controlTick default).wf = false := by
  decide

/-- A tick whose inputs are all there. -/
def tTicks : TickIn :=
  { di := List.replicate 8 0, cur := List.replicate 16 0, lim := List.replicate 16 false, vout := [0, 0], iout := [0, 0], ilim := [false, false]
    save := none, late := false }

theorem test_wf_ticks :
    (Instr.controlTick tTicks).wf = true ∧
      ([{ tTicks with di := [] }, { tTicks with cur := [] }, { tTicks with lim := [] }, { tTicks with vout := [] }, { tTicks with iout := [] },
        { tTicks with ilim := [] }, { tTicks with cur := List.replicate 16 65536 }, { tTicks with vout := [0, 65536] },
        { tTicks with save := some (0, []) }, { tTicks with save := some (1, [256]) }] : List TickIn).all
        (fun x => !(Instr.controlTick x).wf) = true := by
  decide

/-! ### Examples of the spec -/

/-- The example of R424: a base of 1,207 with 7 increments reads 1,214, and 1,215 from the next count on. -/
theorem test_tally :
    ({ tLive with nv := { tLive.nv with tallies := [tTally] } } : State).tallyValue Reg.BROWNOUTS = 1214 ∧
      (({ tLive with nv := { tLive.nv with tallies := [tTally] } } : State).countTally Reg.BROWNOUTS).tallyValue Reg.BROWNOUTS = 1215 := by
  decide

/-- The switch point 0x1F38_0002 of chapter 8: Monday to Friday, 07:00, NORMAL. -/
theorem test_switch_point :
    (tSet tLive [(Reg.SWITCH_POINT 0 0, 0x1F380002)]).latestPoint 0 4 420 = some (420, 2) ∧
      (tSet tLive [(Reg.SWITCH_POINT 0 0, 0x1F380002)]).latestPoint 0 5 420 = none := by
  decide

end Sys2Proof.Machine
end

section
/-!
PROOF. The tide start (R24, R26).
-/
namespace Sys2Proof.Machine

/-- The tide at a start from a source: T64 at 0, and MASTER_LOST and TIMEBASE_DEGRADED unless the source is the master. -/
def Tide.started (src : ClockSrc) : Tide :=
  let lost := decide (src ≠ .master)
  { Tide.reset with running := true, source := src, masterLost := lost, degraded := lost, frameDegraded := lost }

/-- The state at a start once the work of DARK is done, before the RTC tick count is copied. -/
def State.tideLoaded (s : State) (src : ClockSrc) : State := (s.withTide (Tide.started src)).darkLoad

/-- The work of DARK leaves the tide alone. -/
theorem darkLoad_tide (s : State) : s.darkLoad.tide = s.tide := by
  have h : OnlyIn [.regs, .klp, .nv, .log, .rtc, .bus, .loop, .panel] [] s s.darkLoad := darkLoad_only s (by decide) .refl
  exact h.pieces .tide (by decide) (by decide)

theorem tideLoaded_tide (s : State) (src : ClockSrc) : (s.tideLoaded src).tide = Tide.started src := darkLoad_tide _

/-- A tide start in its order: the work of DARK, the copy of the RTC tick count (R26), the rate mode, the mains phase unit, the records
of DARK, the outputs' storm values, AUTONOMOUS and the fan-table engine. -/
theorem tideStart_eq (s : State) (src : ClockSrc) :
    s.tideStart src = ((((((s.tideLoaded src).setReg Reg.TIDE_START_TICKS s.rtc.ticks).setReg Reg.RATE_ACTIVE
      ((s.tideLoaded src).reg Reg.RATE_MODE)).mainsStart.darkRecords).applyStorms).enterAutonomous 2).engineHolds := rfl

/-- What a tide start does after the copy of the RTC tick count leaves the copy and the tide alone. -/
theorem tideStart_only_after_ticks (s : State) (src : ClockSrc) :
    OnlyIn [.log, .act, .loop] [Reg.RATE_ACTIVE, Reg.HALF_PERIOD, Reg.MAINS_STATE, Reg.TABLE_TAKEOVERS]
      ((s.tideLoaded src).setReg Reg.TIDE_START_TICKS s.rtc.ticks) (s.tideStart src) := by
  rw [tideStart_eq]
  refine engineHolds_only _ (by decide) (enterAutonomous_only _ 2 (by decide) (applyStorms_only _ (by decide) ?_))
  exact darkRecords_only _ (by decide) (mainsStart_only _ (by decide) (setReg_only _ _ _ (by decide) .refl))

theorem tideStart_tide (s : State) (src : ClockSrc) : (s.tideStart src).tide = Tide.started src :=
  calc (s.tideStart src).tide
    _ = ((s.tideLoaded src).setReg Reg.TIDE_START_TICKS s.rtc.ticks).tide :=
        (tideStart_only_after_ticks s src).pieces .tide (by decide) (by decide)
    _ = (s.tideLoaded src).tide := State.setReg_tide ..
    _ = Tide.started src := tideLoaded_tide s src

/-- At tide start the RTC tick count is copied into `TIDE_START_TICKS` (R26). -/
theorem tideStart_ticks (s : State) (src : ClockSrc) : (s.tideStart src).reg Reg.TIDE_START_TICKS = s.rtc.ticks % 2 ^ 48 :=
  calc (s.tideStart src).reg Reg.TIDE_START_TICKS
    _ = ((s.tideLoaded src).setReg Reg.TIDE_START_TICKS s.rtc.ticks).reg Reg.TIDE_START_TICKS :=
        (tideStart_only_after_ticks s src).entries (by decide) _ (by decide)
    _ = s.rtc.ticks % 2 ^ keyBits Reg.TIDE_START_TICKS := State.reg_setReg_self ..
    _ = s.rtc.ticks % 2 ^ 48 := rfl

theorem exec_tideStart_awaited {s : State} (h : s.tideAwaited = true) : exec .tideStart s = .next (s.tideStart .master) :=
  congrArg Host.Outcome.next (if_pos h)

theorem exec_masterStartTimeout_awaited {s : State} (h : s.tideAwaited = true) :
    exec .masterStartTimeout s = .next (s.tideStart (.rc .a)) :=
  congrArg Host.Outcome.next (if_pos h)

/-- Settles O12: both commands start the tide, each from its own source. -/
theorem tideStarts : Obligations.TideStarts := by
  intro s h
  have frame (src : ClockSrc) : OnlyIn [.regs, .tide, .klp, .nv, .log, .rtc, .bus, .loop, .act, .panel] [] s (s.tideStart src) :=
    tideStart_only s src (by decide) .refl
  constructor
  · refine ⟨_, exec_tideStart_awaited h, frame .master, ?_⟩
    simp [State.now, tideStart_tide, tideStart_ticks, Tide.started, Tide.reset]
  · refine ⟨_, exec_masterStartTimeout_awaited h, frame (.rc .a), ?_⟩
    simp [State.now, tideStart_tide, tideStart_ticks, Tide.started, Tide.reset]

end Sys2Proof.Machine
end

section
/-!
PROOF. The settings of the imager (R57, R67, R81, R107, R112, R126, R127, R215).
-/
namespace Sys2Proof.Machine

variable {s : State} {w : Wr} {key : Nat}

/-! ### Plain ranges -/

/-- The plain range of an unsigned entry with one pair of bounds. -/
theorem inRange_unsigned {v lo hi : Nat} {e : Entry} (h : findEntry key = some e)
    (hr : e.range = [((lo : Int), (hi : Int))]) (hu : e.ty.signed = false) : inRange key v = true ↔ lo ≤ v ∧ v ≤ hi := by
  rw [inRange_of h, hr]
  simp [withinI, Entry.read, hu]

theorem inRange_gainMode {v : Nat} : inRange Reg.GAIN_MODE v = true ↔ v ≤ 1 :=
  (inRange_unsigned (lo := 0) (hi := 1) rfl rfl rfl).trans (and_iff_right v.zero_le)

theorem inRange_imagerMode {v : Nat} : inRange Reg.IMAGER_MODE v = true ↔ v ≤ 3 :=
  (inRange_unsigned (lo := 0) (hi := 3) rfl rfl rfl).trans (and_iff_right v.zero_le)

theorem inRange_outputForm {v : Nat} : inRange Reg.OUTPUT_FORM v = true ↔ v ≤ 2 :=
  (inRange_unsigned (lo := 0) (hi := 2) rfl rfl rfl).trans (and_iff_right v.zero_le)

theorem inRange_filterShift {v : Nat} : inRange Reg.FILTER_SHIFT v = true ↔ v ≤ 4 :=
  (inRange_unsigned (lo := 0) (hi := 4) rfl rfl rfl).trans (and_iff_right v.zero_le)

theorem inRange_gradientLimit {v : Nat} : inRange Reg.GRADIENT_LIMIT v = true ↔ 100 ≤ v ∧ v ≤ 300 :=
  inRange_unsigned (lo := 100) (hi := 300) rfl rfl rfl

theorem inRange_gradientClear {v : Nat} : inRange Reg.GRADIENT_CLEAR v = true ↔ 50 ≤ v ∧ v ≤ 300 :=
  inRange_unsigned (lo := 50) (hi := 300) rfl rfl rfl

/-! ### What the rules of the imager read of a served request's state -/

@[simp] theorem State.reg_taken (q : Request) (k : Nat) : (s.taken q).reg k = s.reg k := rfl
@[simp] theorem State.ffFilled_taken (q : Request) (v : Nat) : (s.taken q).ffFilled v = s.ffFilled v := rfl

/-! ### Rules that refuse some values with RANGE and are plain for the others -/

section Guarded
variable {i : Instr} {rule : State → Nat → Status × State} {c : Prop} [Decidable c]

/-- A guarded write is refused with RANGE by its guard and by the plain range of its entry. -/
theorem Refuses.guarded (he : exec i s = .next (s.ledgerWrite w key rule)) (ha : s.accepts w key)
    (hr : rule (s.taken (wrRequest w key)) w.val =
      if c then (.range, s.taken (wrRequest w key)) else plainRule key (s.taken (wrRequest w key)) w.val)
    (h : c ∨ ¬ inRange key w.val = true) : Refuses i s w key .range := by
  refine Refuses.rule he ha (hr.trans ?_)
  by_cases hc : c
  · exact if_pos hc
  · rw [if_neg hc, plainRule_neg (h.resolve_left hc)]

/-- A guarded write that its guard lets pass takes a value of its plain range. -/
theorem Takes.guarded (he : exec i s = .next (s.ledgerWrite w key rule)) (ha : s.accepts w key)
    (hr : rule (s.taken (wrRequest w key)) w.val =
      if c then (.range, s.taken (wrRequest w key)) else plainRule key (s.taken (wrRequest w key)) w.val)
    (hc : ¬ c) (hv : inRange key w.val = true) (hs : s.stores key w.val) : Takes i s w key :=
  Takes.rule he ha hs (by rw [hr, if_neg hc, plainRule_pos hv])

end Guarded

/-! ### Gain, imager mode, output form -/

theorem exec_gainModeWrite : exec (.gainModeWrite w) s = .next (s.ledgerWrite w Reg.GAIN_MODE (plainRule Reg.GAIN_MODE)) := rfl

theorem exec_imagerModeWrite : exec (.imagerModeWrite w) s = .next (s.ledgerWrite w Reg.IMAGER_MODE imagerModeRule) := rfl

theorem exec_outputFormWrite : exec (.outputFormWrite w) s = .next (s.ledgerWrite w Reg.OUTPUT_FORM outputFormRule) := rfl

theorem gainModeWrite_takes (ha : s.accepts w Reg.GAIN_MODE) (hv : w.val ≤ 1) (hs : s.stores Reg.GAIN_MODE w.val) :
    Takes (.gainModeWrite w) s w Reg.GAIN_MODE :=
  Takes.rule exec_gainModeWrite ha hs (plainRule_pos (inRange_gainMode.mpr hv))

theorem gainModeWrite_refused (ha : s.accepts w Reg.GAIN_MODE) (hv : 1 < w.val) :
    Refuses (.gainModeWrite w) s w Reg.GAIN_MODE .range :=
  Refuses.rule exec_gainModeWrite ha (plainRule_neg fun h => absurd (inRange_gainMode.mp h) (by omega))

/-- The rule of `IMAGER_MODE` in a served request's state: what the link cannot carry is out of range (R215). -/
theorem imagerModeRule_taken (q : Request) (v : Nat) : imagerModeRule (s.taken q) v =
    if s.linkRefuses { s.linkCfg with mode := v } = true then (.range, s.taken q) else plainRule Reg.IMAGER_MODE (s.taken q) v := rfl

/-- The rule of `OUTPUT_FORM` for a write that does not ask for RAW while anything is screened (R126, R215). -/
theorem outputFormRule_taken (q : Request) {v : Nat} (h : ¬(v = 2 ∧ s.anyScreened = true)) : outputFormRule (s.taken q) v =
    if s.linkRefuses { s.linkCfg with form := v } = true then (.range, s.taken q) else plainRule Reg.OUTPUT_FORM (s.taken q) v := if_neg h

theorem imagerModeWrite_refused (ha : s.accepts w Reg.IMAGER_MODE)
    (h : s.linkRefuses { s.linkCfg with mode := w.val } = true ∨ 3 < w.val) :
    Refuses (.imagerModeWrite w) s w Reg.IMAGER_MODE .range :=
  Refuses.guarded exec_imagerModeWrite ha (imagerModeRule_taken _ _)
    (h.imp_right fun h hr => absurd (inRange_imagerMode.mp hr) (by omega))

theorem imagerModeWrite_takes (ha : s.accepts w Reg.IMAGER_MODE)
    (hl : s.linkRefuses { s.linkCfg with mode := w.val } = false) (hv : w.val ≤ 3) (hs : s.stores Reg.IMAGER_MODE w.val) :
    Takes (.imagerModeWrite w) s w Reg.IMAGER_MODE :=
  Takes.guarded exec_imagerModeWrite ha (imagerModeRule_taken _ _) (by simp [hl]) (inRange_imagerMode.mpr hv) hs

/-- RAW cannot be screened (R126). -/
theorem outputFormWrite_screened (ha : s.accepts w Reg.OUTPUT_FORM) (hv : w.val = 2) (hm : s.anyScreened = true) :
    Refuses (.outputFormWrite w) s w Reg.OUTPUT_FORM .state :=
  Refuses.rule exec_outputFormWrite ha (if_pos ⟨hv, hm⟩)

theorem outputFormWrite_refused (ha : s.accepts w Reg.OUTPUT_FORM) (hv : w.val ≠ 2)
    (h : s.linkRefuses { s.linkCfg with form := w.val } = true ∨ 2 < w.val) :
    Refuses (.outputFormWrite w) s w Reg.OUTPUT_FORM .range :=
  Refuses.guarded exec_outputFormWrite ha (outputFormRule_taken _ fun hm => hv hm.1)
    (h.imp_right fun h hr => absurd (inRange_outputForm.mp hr) (by omega))

theorem outputFormWrite_takes (ha : s.accepts w Reg.OUTPUT_FORM) (hm : ¬(w.val = 2 ∧ s.anyScreened = true))
    (hl : s.linkRefuses { s.linkCfg with form := w.val } = false) (hv : w.val ≤ 2) (hs : s.stores Reg.OUTPUT_FORM w.val) :
    Takes (.outputFormWrite w) s w Reg.OUTPUT_FORM :=
  Takes.guarded exec_outputFormWrite ha (outputFormRule_taken _ hm) (by simp [hl]) (inRange_outputForm.mpr hv) hs

/-! ### Filter and lens -/

theorem exec_filterShiftWrite : exec (.filterShiftWrite w) s = .next (s.ledgerWrite w Reg.FILTER_SHIFT filterShiftRule) := rfl

theorem exec_lensWrite (n : Nat) : exec (.lensWrite n w) s = .next (s.ledgerWrite w (0x131000 + n) (lensRule n)) := rfl

/-- A new filter setting makes every filter state invalid (R107). -/
theorem filterShiftWrite_takes (ha : s.accepts w Reg.FILTER_SHIFT) (hv : w.val ≤ 4) (hs : s.stores Reg.FILTER_SHIFT w.val) :
    TakesWith (.filterShiftWrite w) s w Reg.FILTER_SHIFT [.pipe] [] fun t => t.pipe = { s.pipe with prev := [] } := by
  refine TakesWith.rule State.clearFilter exec_filterShiftWrite ha hs ?_ (fun u => clearFilter_only u (by decide) .refl)
    (by decide) fun _ _ => rfl
  rw [filterShiftRule, plainRule_pos (inRange_filterShift.mpr hv)]

/-- The lens becomes the host's. -/
def State.lensByHost (t : State) : State := t.setReg Reg.LENS_SOURCE 2

theorem State.lensByHost_source (t : State) : t.lensByHost.reg Reg.LENS_SOURCE = 2 := State.reg_setReg_self ..

theorem lensRule_empty {n v : Nat} (q : Request) (hn : n = 4) (hv : s.ffFilled v = false) :
    lensRule n (s.taken q) v = (.range, s.taken q) := if_pos ⟨hn, hv⟩

theorem lensRule_filled {n v : Nat} (q : Request) (hn : within 2 4 n = true) (hf : n = 4 → s.ffFilled v = true)
    (hv : inRange (0x131000 + n) v = true) :
    lensRule n (s.taken q) v = andThen ((s.taken q).putEntry (0x131000 + n) v) State.lensByHost := by
  have hne : ¬(n = 4 ∧ s.ffFilled v = false) := fun h => by simp [hf h.1] at h
  simp only [lensRule, State.ffFilled_taken, if_neg hne, hn, if_true, plainRule_pos hv]
  rfl

/-- A table of the flat field that holds no data is out of range (R112). -/
theorem lensWrite_empty {n : Nat} (ha : s.accepts w (0x131000 + n)) (hn : n = 4) (hv : s.ffFilled w.val = false) :
    Refuses (.lensWrite n w) s w (0x131000 + n) .range :=
  Refuses.rule (exec_lensWrite n) ha (lensRule_empty _ hn hv)

theorem lensWrite_takes {n : Nat} (ha : s.accepts w (0x131000 + n)) (h2 : 2 ≤ n) (h4 : n ≤ 4)
    (hf : n = 4 → s.ffFilled w.val = true) (hv : inRange (0x131000 + n) w.val = true) (hs : s.stores (0x131000 + n) w.val) :
    TakesWith (.lensWrite n w) s w (0x131000 + n) [] [Reg.LENS_SOURCE] fun t => t.reg Reg.LENS_SOURCE = 2 := by
  have hn : within 2 4 n = true := by simp [within, h2, h4]
  have hk : [Reg.LENS_SOURCE].contains (0x131000 + n) = false := by simp [Reg.LENS_SOURCE]; omega
  refine TakesWith.rule State.lensByHost (exec_lensWrite n) ha hs (lensRule_filled _ hn hf hv)
    (fun u => setReg_only u _ _ (by decide) .refl) ⟨rfl, rfl, rfl, rfl, rfl, hk⟩ fun _ _ => ?_
  exact (State.reg_congr rfl _).trans (State.lensByHost_source _)

/-! ### Gradient limits -/

theorem exec_gradientLimitWrite_limit :
    exec (.gradientLimitWrite 0x11 w) s = .next (s.ledgerWrite w Reg.GRADIENT_LIMIT (gradientLimitRule 0x11)) := rfl

theorem exec_gradientLimitWrite_clear :
    exec (.gradientLimitWrite 0x12 w) s = .next (s.ledgerWrite w Reg.GRADIENT_CLEAR (gradientLimitRule 0x12)) := rfl

theorem gradientLimitRule_limit (q : Request) (v : Nat) : gradientLimitRule 0x11 (s.taken q) v =
    if v < s.reg Reg.GRADIENT_CLEAR then (.range, s.taken q) else plainRule Reg.GRADIENT_LIMIT (s.taken q) v := by
  simp [gradientLimitRule]

theorem gradientLimitRule_clear (q : Request) (v : Nat) : gradientLimitRule 0x12 (s.taken q) v =
    if s.reg Reg.GRADIENT_LIMIT < v then (.range, s.taken q) else plainRule Reg.GRADIENT_CLEAR (s.taken q) v := by
  simp [gradientLimitRule]

/-- No setting widens the limit past 300 mK or puts it below the clearing level (R67). -/
theorem gradientLimitWrite_refused (ha : s.accepts w Reg.GRADIENT_LIMIT)
    (h : w.val < s.reg Reg.GRADIENT_CLEAR ∨ 300 < w.val) :
    Refuses (.gradientLimitWrite 0x11 w) s w Reg.GRADIENT_LIMIT .range :=
  Refuses.guarded exec_gradientLimitWrite_limit ha (gradientLimitRule_limit _ _)
    (h.imp_right fun h hr => absurd (inRange_gradientLimit.mp hr).2 (by omega))

theorem gradientLimitWrite_takes (ha : s.accepts w Reg.GRADIENT_LIMIT) (hc : s.reg Reg.GRADIENT_CLEAR ≤ w.val)
    (hlo : 100 ≤ w.val) (hhi : w.val ≤ 300) (hs : s.stores Reg.GRADIENT_LIMIT w.val) :
    Takes (.gradientLimitWrite 0x11 w) s w Reg.GRADIENT_LIMIT :=
  Takes.guarded exec_gradientLimitWrite_limit ha (gradientLimitRule_limit _ _) (by omega)
    (inRange_gradientLimit.mpr ⟨hlo, hhi⟩) hs

theorem gradientClearWrite_refused (ha : s.accepts w Reg.GRADIENT_CLEAR) (h : s.reg Reg.GRADIENT_LIMIT < w.val) :
    Refuses (.gradientLimitWrite 0x12 w) s w Reg.GRADIENT_CLEAR .range :=
  Refuses.guarded exec_gradientLimitWrite_clear ha (gradientLimitRule_clear _ _) (.inl h)

theorem gradientClearWrite_takes (ha : s.accepts w Reg.GRADIENT_CLEAR) (hc : w.val ≤ s.reg Reg.GRADIENT_LIMIT)
    (hlo : 50 ≤ w.val) (hhi : w.val ≤ 300) (hs : s.stores Reg.GRADIENT_CLEAR w.val) :
    Takes (.gradientLimitWrite 0x12 w) s w Reg.GRADIENT_CLEAR :=
  Takes.guarded exec_gradientLimitWrite_clear ha (gradientLimitRule_clear _ _) (by omega)
    (inRange_gradientClear.mpr ⟨hlo, hhi⟩) hs

/-! ### Spare groups -/

/-- A state that group n takes at the next frame boundary (R81). -/
def State.groupWaits (s : State) (n v : Nat) : State :=
  s.withFocal { s.focal with groups := s.focal.groups.set n { s.focal.groups.getD n default with next := some (v % 65536) } }

theorem State.groupWaits_only (n v : Nat) : OnlyIn [.focal] [] s (s.groupWaits n v) := withFocal_only _ _ (by decide) .refl

theorem State.groupWaits_next {n v : Nat} (h : n < s.focal.groups.length) :
    ((s.groupWaits n v).focal.groups.getD n default).next = some (v % 65536) := by
  simp [State.groupWaits, State.withFocal, List.getD_eq_getElem?_getD, h]

theorem State.groupWaits_others {n m v : Nat} (h : m ≠ n) :
    (s.groupWaits n v).focal.groups.getD m default = s.focal.groups.getD m default := by
  simp [State.groupWaits, State.withFocal, List.getD_eq_getElem?_getD, List.getElem?_set_ne h.symm]

theorem exec_groupStateWrite (n : Nat) :
    exec (.groupStateWrite n w) s = .next (s.ledgerWrite w (Reg.GROUP_STATE n) (groupStateRule n)) := rfl

section GroupRule
variable {n v : Nat} (q : Request)

/-- A group that is UNQUALIFIED or SPARE_FAILED takes no state. -/
theorem groupStateRule_closed (h : (s.focal.groups.getD n default).st = 0 ∨ (s.focal.groups.getD n default).st = 3) :
    groupStateRule n (s.taken q) v = (.state, s.taken q) := if_pos h

theorem groupStateRule_range (h : ¬((s.focal.groups.getD n default).st = 0 ∨ (s.focal.groups.getD n default).st = 3))
    (hv : 4 ≤ field v 13 3 ∨ (field v 13 3 = 2 ∧ 39 < field v 0 6)) :
    groupStateRule n (s.taken q) v = (.range, s.taken q) := (if_neg h).trans (if_pos hv)

theorem groupStateRule_waits (h : ¬((s.focal.groups.getD n default).st = 0 ∨ (s.focal.groups.getD n default).st = 3))
    (hv : ¬(4 ≤ field v 13 3 ∨ (field v 13 3 = 2 ∧ 39 < field v 0 6))) :
    groupStateRule n (s.taken q) v = (.ok, (s.taken q).groupWaits n v) := (if_neg h).trans (if_neg hv)

end GroupRule

theorem groupStateWrite_waits {n : Nat} (ha : s.accepts w (Reg.GROUP_STATE n)) (hn : n < s.focal.groups.length)
    (h : ¬((s.focal.groups.getD n default).st = 0 ∨ (s.focal.groups.getD n default).st = 3))
    (hv : ¬(4 ≤ field w.val 13 3 ∨ (field w.val 13 3 = 2 ∧ 39 < field w.val 0 6))) :
    Obeys (.groupStateWrite n w) s w (Reg.GROUP_STATE n) [.focal] [] fun t =>
      (t.focal.groups.getD n default).next = some (w.val % 65536) ∧
        ∀ m, m ≠ n → t.focal.groups.getD m default = s.focal.groups.getD m default :=
  Obeys.rule _ (exec_groupStateWrite n) ha (groupStateRule_waits _ h hv) (State.groupWaits_only n w.val) (by decide)
    fun _ => ⟨State.groupWaits_next (s := s) hn, fun _ hm => State.groupWaits_others (s := s) hm⟩

/-- Settles O33: one lemma for each answer of each setting. -/
theorem imagerSettings : Obligations.ImagerSettings := by
  refine ⟨fun s w ha => ⟨gainModeWrite_takes ha, gainModeWrite_refused ha⟩,
    fun s w ha => ⟨imagerModeWrite_refused ha, imagerModeWrite_takes ha⟩,
    fun s w ha => ⟨outputFormWrite_screened ha, outputFormWrite_refused ha, outputFormWrite_takes ha⟩,
    fun s w => filterShiftWrite_takes,
    fun n s w ha h2 h4 => ⟨lensWrite_empty ha, lensWrite_takes ha h2 h4⟩,
    fun s w => ⟨fun ha => ⟨gradientLimitWrite_refused ha, gradientLimitWrite_takes ha⟩,
      fun ha => ⟨gradientClearWrite_refused ha, gradientClearWrite_takes ha⟩⟩,
    fun n s w ha hn => ⟨fun h => Refuses.rule (exec_groupStateWrite n) ha (groupStateRule_closed _ h), fun h0 h3 => ?_⟩⟩
  have hopen := not_or.mpr ⟨h0, h3⟩
  refine ⟨fun hv => Refuses.rule (exec_groupStateWrite n) ha (groupStateRule_range _ hopen hv), fun h4 h39 => ?_⟩
  exact groupStateWrite_waits ha hn hopen (by omega)

end Sys2Proof.Machine
end

section
/-!
PROOF. Facts about lists, powers and cases that core Lean does not state: the proofs below stand on core Lean alone.
-/
namespace Sys2Proof.Machine

variable {α β : Type}

theorem getD_of_length_le {l : List α} {n : Nat} (h : l.length ≤ n) (d : α) : l.getD n d = d := by
  rw [List.getD_eq_getElem?_getD, List.getElem?_eq_none h, Option.getD_none]

theorem getD_of_lt {l : List α} {n : Nat} (h : n < l.length) (d : α) : l.getD n d = l[n] := by
  rw [List.getD_eq_getElem?_getD, List.getElem?_eq_getElem h, Option.getD_some]

theorem getD_map_of (f : α → β) (l : List α) (n : Nat) (d : α) : (l.map f).getD n (f d) = f (l.getD n d) := by
  rw [List.getD_eq_getElem?_getD, List.getD_eq_getElem?_getD, List.getElem?_map]
  cases l[n]? <;> rfl

theorem find?_of_agree {p q : α → Bool} {l : List α} (h : ∀ x ∈ l, p x = q x) : l.find? p = l.find? q := by
  induction l with
  | nil => rfl
  | cons a l ih => rw [List.find?_cons, List.find?_cons, h a List.mem_cons_self, ih fun x hx => h x (List.mem_cons_of_mem a hx)]

theorem foldl_of_agree {f g : β → α → β} {l : List α} (b : β) (h : ∀ b, ∀ x ∈ l, f b x = g b x) : l.foldl f b = l.foldl g b := by
  induction l generalizing b with
  | nil => rfl
  | cons a l ih => rw [List.foldl_cons, List.foldl_cons, h b a List.mem_cons_self, ih _ fun b x hx => h b x (List.mem_cons_of_mem a hx)]


end Sys2Proof.Machine
end

section
/-!
PROOF. Steps and commands complete, and keep the state sound.
-/
namespace Sys2Proof.Machine

/-- Every command completes and keeps the state sound, with the same commands waiting. -/
theorem exec_keeps {wq : List Instr} {s : State} (hs : Upheld wq s) (i : Instr) : ∃ t, exec i s = .next t ∧ Upheld wq t :=
  match i with
  | .powerDieStart testEn => execPowerDieStart_keeps testEn s hs
  | .tideStart => execTideStart_keeps s hs
  | .masterStartTimeout => execMasterStartTimeout_keeps s hs
  | .bootVerifyDone => execBootVerifyDone_keeps s hs
  | .lightsEntry => execLightsEntry_keeps s hs
  | .lightsOwnerTimeout => execLightsOwnerTimeout_keeps s hs
  | .factoryDecompressionDone bad => execFactoryDecompressionDone_keeps bad s hs
  | .pllLock p => execPllLock_keeps p s hs
  | .pllUnlock p => execPllUnlock_keeps p s hs
  | .rowSlot x => execRowSlot_keeps x s hs
  | .coefReloadDone shadow word => execCoefReloadDone_keeps shadow word s hs
  | .frameBoundary => execFrameBoundary_keeps s hs
  | .settlingEnd => execSettlingEnd_keeps s hs
  | .gainChange => execGainChange_keeps s hs
  | .newEpoch => execNewEpoch_keeps s hs
  | .frameClose x => execFrameClose_keeps x s hs
  | .gradientClear n => execGradientClear_keeps n s hs
  | .bandSensorExcluded n => execBandSensorExcluded_keeps n s hs
  | .converterSelfTest codes => execConverterSelfTest_keeps codes s hs
  | .berthAlarmRaise n => execBerthAlarmRaise_keeps n s hs
  | .berthAlarmClear n => execBerthAlarmClear_keeps n s hs
  | .berthOccupied n => execBerthOccupied_keeps n s hs
  | .berthVacant n => execBerthVacant_keeps n s hs
  | .tablePublication => execTablePublication_keeps s hs
  | .controlTick x => execControlTick_keeps x s hs
  | .heartbeatRequest => execHeartbeatRequest_keeps s hs
  | .heartbeatStrobe q t => execHeartbeatStrobe_keeps q t s hs
  | .heartbeatWindowEnd => execHeartbeatWindowEnd_keeps s hs
  | .selfCheckResponse q value => execSelfCheckResponse_keeps q value s hs
  | .selfCheckTimeout q => execSelfCheckTimeout_keeps q s hs
  | .watchdogRestart q => execWatchdogRestart_keeps q s hs
  | .watchdogExpiry q => execWatchdogExpiry_keeps q s hs
  | .quayClockFault q => execQuayClockFault_keeps q s hs
  | .quayRailFault q => execQuayRailFault_keeps q s hs
  | .pilotMemoryError q m addr => execPilotMemoryError_keeps q m addr s hs
  | .memoryRetryOutcome q ok => execMemoryRetryOutcome_keeps q ok s hs
  | .hmVoteMismatch copy agree => execHmVoteMismatch_keeps copy agree s hs
  | .wharfWrite q out v => execWharfWrite_keeps q out v s hs
  | .checkpointArrival good len => execCheckpointArrival_keeps good len s hs
  | .takeoverComplete t => execTakeoverComplete_keeps t s hs
  | .takeoverTimeout => execTakeoverTimeout_keeps s hs
  | .quayResetRelease q => execQuayResetRelease_keeps q s hs
  | .quaySelfTestDone q pass => execQuaySelfTestDone_keeps q pass s hs
  | .passHoldTimeout q => execPassHoldTimeout_keeps q s hs
  | .quaySyncDone q => execQuaySyncDone_keeps q s hs
  | .salvageAfterFailover => execSalvageAfterFailover_keeps s hs
  | .stormAutoExit => execStormAutoExit_keeps s hs
  | .hmSwap r => execHmSwap_keeps r s hs
  | .hmRejoinTest r => execHmRejoinTest_keeps r s hs
  | .hmStormExit r => execHmStormExit_keeps r s hs
  | .hmStormEnter r => execHmStormEnter_keeps r s hs
  | .hmRetireA r => execHmRetireA_keeps r s hs
  | .hmRetireB r => execHmRetireB_keeps r s hs
  | .hmClearCounts r => execHmClearCounts_keeps r s hs
  | .stormValueWrite n w => execStormValueWrite_keeps n w s hs
  | .salvageRelease w => execSalvageRelease_keeps w s hs
  | .masterClockLoss => execMasterClockLoss_keeps s hs
  | .pllRelock => execPllRelock_keeps s hs
  | .rcTrim err => execRcTrim_keeps err s hs
  | .clockReturn => execClockReturn_keeps s hs
  | .sunHoldExpiry n => execSunHoldExpiry_keeps n s hs
  | .intervalExpiry => execIntervalExpiry_keeps s hs
  | .bringUpTrigger => execBringUpTrigger_keeps s hs
  | .calCycle r => execCalCycle_keeps r s hs
  | .calCycleRef r => execCalCycleRef_keeps r s hs
  | .calAbort r => execCalAbort_keeps r s hs
  | .calQualifySpares r => execCalQualifySpares_keeps r s hs
  | .calShutterTest r => execCalShutterTest_keeps r s hs
  | .calLoadFactory r => execCalLoadFactory_keeps r s hs
  | .chamberFillDone => execChamberFillDone_keeps s hs
  | .spareQualificationDone sums codes => execSpareQualificationDone_keeps sums codes s hs
  | .restoreTimeout => execRestoreTimeout_keeps s hs
  | .outFrameReadTimeout => execOutFrameReadTimeout_keeps s hs
  | .gainModeWrite w => execGainModeWrite_keeps w s hs
  | .rateModeWrite w => execRateModeWrite_keeps w s hs
  | .imagerModeWrite w => execImagerModeWrite_keeps w s hs
  | .outputFormWrite w => execOutputFormWrite_keeps w s hs
  | .filterShiftWrite w => execFilterShiftWrite_keeps w s hs
  | .lensWrite n w => execLensWrite_keeps n w s hs
  | .gradientLimitWrite n w => execGradientLimitWrite_keeps n w s hs
  | .groupStateWrite n w => execGroupStateWrite_keeps n w s hs
  | .berthEntryWrite n sub w => execBerthEntryWrite_keeps n sub w s hs
  | .editHoldWrite w => execEditHoldWrite_keeps w s hs
  | .videoEnableWrite w => execVideoEnableWrite_keeps w s hs
  | .streamStart => execStreamStart_keeps s hs
  | .videoLinkWrite n w => execVideoLinkWrite_keeps n w s hs
  | .vc2RequestWrite w => execVc2RequestWrite_keeps w s hs
  | .outCommandWrite n w => execOutCommandWrite_keeps n w s hs
  | .outModeWrite n w => execOutModeWrite_keeps n w s hs
  | .loopModeWrite n w => execLoopModeWrite_keeps n w s hs
  | .loopTargetWrite n w => execLoopTargetWrite_keeps n w s hs
  | .pvSourceWrite l backup w => execPvSourceWrite_keeps l backup w s hs
  | .zoneOverrideWrite n w => execZoneOverrideWrite_keeps n w s hs
  | .overrideExpiry n => execOverrideExpiry_keeps n s hs
  | .presenceHoldExpiry n => execPresenceHoldExpiry_keeps n s hs
  | .switchPointWrite p j w => execSwitchPointWrite_keeps p j w s hs
  | .exceptionDateWrite n w => execExceptionDateWrite_keeps n w s hs
  | .programEvaluation => execProgramEvaluation_keeps s hs
  | .masterSilentExpiry => execMasterSilentExpiry_keeps s hs
  | .outputTrip n short => execOutputTrip_keeps n short s hs
  | .outputTripResume n => execOutputTripResume_keeps n s hs
  | .thermalShutdown temp => execThermalShutdown_keeps temp s hs
  | .thermalResume => execThermalResume_keeps s hs
  | .floatingOverdriveEnd n => execFloatingOverdriveEnd_keeps n s hs
  | .valvePeakEnd n => execValvePeakEnd_keeps n s hs
  | .fanCommandWrite n w => execFanCommandWrite_keeps n w s hs
  | .fanBandWrite c j w => execFanBandWrite_keeps c j w s hs
  | .fanIlimitWrite n w => execFanIlimitWrite_keeps n w s hs
  | .fanTugEnd n => execFanTugEnd_keeps n s hs
  | .fanWaitEnd n => execFanWaitEnd_keeps n s hs
  | .fanStallRetry n => execFanStallRetry_keeps n s hs
  | .fanShort n => execFanShort_keeps n s hs
  | .fanShortOffEnd n => execFanShortOffEnd_keeps n s hs
  | .tachEdge n t => execTachEdge_keeps n t s hs
  | .tachStop n => execTachStop_keeps n s hs
  | .rippleWindowEnd n events => execRippleWindowEnd_keeps n events s hs
  | .rpmLearn n => execRpmLearn_keeps n s hs
  | .adcEntryEnd ch sum ovr => execAdcEntryEnd_keeps ch sum ovr s hs
  | .adcContinuousRound => execAdcContinuousRound_keeps s hs
  | .urgentRequestWrite w => execUrgentRequestWrite_keeps w s hs
  | .adcCalCommand r => execAdcCalCommand_keeps r s hs
  | .adcSelfCalDone gains offsets residual => execAdcSelfCalDone_keeps gains offsets residual s hs
  | .adcFactorWrite n w => execAdcFactorWrite_keeps n w s hs
  | .aiConfigWrite ch sub w => execAiConfigWrite_keeps ch sub w s hs
  | .diStuck n => execDiStuck_keeps n s hs
  | .diChatterWindowEnd n => execDiChatterWindowEnd_keeps n s hs
  | .idReaderStart => execIdReaderStart_keeps s hs
  | .modDetChange slot on => execModDetChange_keeps slot on s hs
  | .idPoll ack => execIdPoll_keeps ack s hs
  | .idReadDone slot r => execIdReadDone_keeps slot r s hs
  | .idReadRetry n => execIdReadRetry_keeps n s hs
  | .idFaultRetry n => execIdFaultRetry_keeps n s hs
  | .idRereadWrite w => execIdRereadWrite_keeps w s hs
  | .slotBindWrite n w => execSlotBindWrite_keeps n w s hs
  | .busModeWrite c w => execBusModeWrite_keeps c w s hs
  | .busModeApply c => execBusModeApply_keeps c s hs
  | .busIntegrated c => execBusIntegrated_keeps c s hs
  | .busProbeEnd c => execBusProbeEnd_keeps c s hs
  | .busTimingWrite c sub w => execBusTimingWrite_keeps c sub w s hs
  | .tripleSampleWrite c w => execTripleSampleWrite_keeps c w s hs
  | .canFrameReceived c f stamp => execCanFrameReceived_keeps c f stamp s hs
  | .canTxComplete c stamp => execCanTxComplete_keeps c stamp s hs
  | .canTxError c e => execCanTxError_keeps c e s hs
  | .busoffRecoveryDone c => execBusoffRecoveryDone_keeps c s hs
  | .bwHoldExpiry n => execBwHoldExpiry_keeps n s hs
  | .bwSummary => execBwSummary_keeps s hs
  | .deviceHeartbeat => execDeviceHeartbeat_keeps s hs
  | .netHeartbeatNow c => execNetHeartbeatNow_keeps c s hs
  | .netLockAll c => execNetLockAll_keeps c s hs
  | .netQuiet c => execNetQuiet_keeps c s hs
  | .quietEnd => execQuietEnd_keeps s hs
  | .netTimeRequest c => execNetTimeRequest_keeps c s hs
  | .klpRead a => execKlpRead_keeps a s hs
  | .klpWrite key w => execKlpWrite_keeps key w s hs
  | .compactionDone ok => execCompactionDone_keeps ok s hs
  | .segReadStart a => execSegReadStart_keeps a s hs
  | .segRead a => execSegRead_keeps a s hs
  | .segWriteStart a => execSegWriteStart_keeps a s hs
  | .segWrite a => execSegWrite_keeps a s hs
  | .segAbort a => execSegAbort_keeps a s hs
  | .segStream a => execSegStream_keeps a s hs
  | .transferIdleTimeout id key => execTransferIdleTimeout_keeps id key s hs
  | .unlock a => execUnlock_keeps a s hs
  | .unlockLockoutEnd n => execUnlockLockoutEnd_keeps n s hs
  | .lock a => execLock_keeps a s hs
  | .sessionTimeout n => execSessionTimeout_keeps n s hs
  | .klpHeartbeat a => execKlpHeartbeat_keeps a s hs
  | .manifest a => execManifest_keeps a s hs
  | .echo a => execEcho_keeps a s hs
  | .klpResponseAbandon c => execKlpResponseAbandon_keeps c s hs
  | .spiRequestTransaction bytes => execSpiRequestTransaction_keeps bytes s hs
  | .spiResponseRead n => execSpiResponseRead_keeps n s hs
  | .irqClearWrite w => execIrqClearWrite_keeps w s hs
  | .resetCommandWrite w => execResetCommandWrite_keeps w s hs
  | .deviceReset => execDeviceReset_keeps s hs
  | .nvWren => execNvWren_keeps s hs
  | .nvWrdi => execNvWrdi_keeps s hs
  | .nvRdsr n => execNvRdsr_keeps n s hs
  | .nvWrsr b => execNvWrsr_keeps b s hs
  | .nvRead addr n => execNvRead_keeps addr n s hs
  | .nvFastRead addr n => execNvFastRead_keeps addr n s hs
  | .nvWrite addr bytes cont => execNvWrite_keeps addr bytes cont s hs
  | .nvRder n => execNvRder_keeps n s hs
  | .nvCler => execNvCler_keeps s hs
  | .nvRdid n => execNvRdid_keeps n s hs
  | .bucketLeak n => execBucketLeak_keeps n s hs
  | .logRecordWrite => execLogRecordWrite_keeps s hs
  | .logStreamSend => execLogStreamSend_keeps s hs
  | .logClearWrite w => execLogClearWrite_keeps w s hs
  | .logCursorWrite w => execLogCursorWrite_keeps w s hs
  | .vaonLoss vbak => execVaonLoss_keeps vbak s hs
  | .vaonReturn => execVaonReturn_keeps s hs
  | .vbakDrop => execVbakDrop_keeps s hs
  | .vbakReturn => execVbakReturn_keeps s hs
  | .bridgeTimeout => execBridgeTimeout_keeps s hs
  | .mooringDomainStart main => execMooringDomainStart_keeps main s hs
  | .xtal32Stop => execXtal32Stop_keeps s hs
  | .xtal32Return => execXtal32Return_keeps s hs
  | .dateTimeWrite w => execDateTimeWrite_keeps w s hs
  | .calendarOffsetWrite w => execCalendarOffsetWrite_keeps w s hs
  | .subsecShiftWrite w => execSubsecShiftWrite_keeps w s hs
  | .subsecSlewDone => execSubsecSlewDone_keeps s hs
  | .dstForward r => execDstForward_keeps r s hs
  | .dstBack r => execDstBack_keeps r s hs
  | .calendarSecond => execCalendarSecond_keeps s hs
  | .alarmMatchWrite n w => execAlarmMatchWrite_keeps n w s hs
  | .alarmStatusWrite n w => execAlarmStatusWrite_keeps n w s hs
  | .trimWindow temp vbak => execTrimWindow_keeps temp vbak s hs
  | .timeFrameSend => execTimeFrameSend_keeps s hs
  | .driveFrame ok => execDriveFrame_keeps ok s hs
  | .driveFault => execDriveFault_keeps s hs
  | .driveRailRecovered => execDriveRailRecovered_keeps s hs
  | .panelTempFallback => execPanelTempFallback_keeps s hs
  | .frameMemoryCheck ok => execFrameMemoryCheck_keeps ok s hs
  | .regionUpdateWrite w => execRegionUpdateWrite_keeps w s hs
  | .regionCellsWrite n w => execRegionCellsWrite_keeps n w s hs
  | .panelModeChange => execPanelModeChange_keeps s hs
  | .stormPatternToggle => execStormPatternToggle_keeps s hs
  | .keyScan closed => execKeyScan_keeps closed s hs
  | .keyRepeat n => execKeyRepeat_keeps n s hs
  | .keyLong n => execKeyLong_keeps n s hs
  | .keyStuck n => execKeyStuck_keeps n s hs
  | .keyReset => execKeyReset_keeps s hs
  | .feedAbsent f => execFeedAbsent_keeps f s hs
  | .feedPresent f => execFeedPresent_keeps f s hs
  | .feedOvervoltage f => execFeedOvervoltage_keeps f s hs
  | .pfail us => execPfail_keeps us s hs
  | .uvlo cell => execUvlo_keeps cell s hs
  | .brownout => execBrownout_keeps s hs
  | .sharedRailFault => execSharedRailFault_keeps s hs
  | .sharedRailRecovered => execSharedRailRecovered_keeps s hs
  | .pfailLevelWrite w => execPfailLevelWrite_keeps w s hs
  | .powerRequestWrite w => execPowerRequestWrite_keeps w s hs
  | .slackEntry => execSlackEntry_keeps s hs
  | .wakeHoldEnd => execWakeHoldEnd_keeps s hs
  | .slipVerifyDone => execSlipVerifyDone_keeps s hs
  | .slipWriteDone ok => execSlipWriteDone_keeps ok s hs
  | .slipLoadStandby r => execSlipLoadStandby_keeps r s hs
  | .slipLoadDone => execSlipLoadDone_keeps s hs
  | .slipSwap r => execSlipSwap_keeps r s hs
  | .slipCommit r => execSlipCommit_keeps r s hs
  | .slipRollback r => execSlipRollback_keeps r s hs
  | .slipAbort r => execSlipAbort_keeps r s hs
  | .slipInstallReset r => execSlipInstallReset_keeps r s hs
  | .probationEnd => execProbationEnd_keeps s hs
  | .jtagBypass => execJtagBypass_keeps s hs
  | .jtagIdcode => execJtagIdcode_keeps s hs
  | .jtagSamplePreload => execJtagSamplePreload_keeps s hs
  | .jtagExtest => execJtagExtest_keeps s hs
  | .jtagHighz => execJtagHighz_keeps s hs
  | .jtagClamp => execJtagClamp_keeps s hs
  | .trstAssert => execTrstAssert_keeps s hs
  | .mainsModeWrite w => execMainsModeWrite_keeps w s hs
  | .zcPulse t0 t1 => execZcPulse_keeps t0 t1 s hs
  | .mainsCrossingMissed => execMainsCrossingMissed_keeps s hs
  | .holdoverExpiry => execHoldoverExpiry_keeps s hs
  | .registerWrite key w => execRegisterWrite_keeps key w s hs
  | .protocolError c e => execProtocolError_keeps c e s hs
  | .klpFrameGapTimeout c peer => execKlpFrameGapTimeout_keeps c peer s hs
  | .feedOvervoltageEnd f => execFeedOvervoltageEnd_keeps f s hs
  | .quayFailWindowExpiry q => execQuayFailWindowExpiry_keeps q s hs

/-- Settles O1: both sides are the meaning of a step on a queue that is not empty. -/
theorem stepRunsFront : Obligations.StepRunsFront := by
  intro s c q h
  unfold step
  rw [h]
  rfl

/-- Settles O3, from what each command keeps. -/
theorem everyCommandCompletes : Obligations.EveryCommandCompletes := by
  intro i s hs
  obtain ⟨t, ht, hk⟩ := exec_keeps ⟨hs, rfl⟩ i
  exact ⟨t, ht, hk.sound, hk.pending⟩

/-- Settles O4: an idle step by what a tick of the mooring domain keeps, any other by what its command keeps. -/
theorem stepKeepsSound : Obligations.StepKeepsSound := by
  intro s hs
  have hu : Upheld s.pending s := ⟨hs, rfl⟩
  cases hq : s.pending with
  | nil =>
    obtain ⟨t, ht, hk⟩ := idle_keeps s hu
    exact ⟨t, by unfold step; rw [hq]; exact ht, hk.sound, by rw [hk.pending, hq]; rfl⟩
  | cons c q =>
    obtain ⟨t, ht, hk⟩ := exec_keeps (popCommand_keeps s q hu) c
    exact ⟨t, by rw [stepRunsFront s c q hq]; exact ht, hk.sound, hk.pending⟩

/-- The tick count after a tick of a running mooring domain (R466, R477). -/
theorem rtcTick_ticks {s : State} (h : s.rtc.supply ≠ .down) : s.rtcTick.rtc.ticks = (s.rtc.ticks + s.rtc.advance) % 2 ^ 48 := by
  unfold State.rtcTick
  extract_lets r ticks due d s1
  rw [if_neg h]
  split <;> rfl

theorem rtcTick_down {s : State} (h : s.rtc.supply = .down) : s.rtcTick = s := if_pos h

/-- Settles O2: the idle step is one tick of the mooring domain. -/
theorem idleStep : Obligations.IdleStep := by
  intro s hq
  refine ⟨s.rtcTick, by unfold step; rw [hq]; rfl, rtcTick_only s (by decide) .refl, rtcTick_ticks, fun h => by rw [rtcTick_down h]⟩

/-! ### The state after reset -/

theorem reset_sound : Sound State.reset := ⟨rfl, rfl, Nat.zero_le _, Nat.zero_le _, Nat.zero_le _, Nat.zero_le _⟩

/-- Settles O6: each fact stands in the definition of the state after reset. -/
theorem resetState : Obligations.ResetState := by
  refine ⟨⟨reset_sound, rfl⟩, rfl, rfl, rfl, rfl, fun q => ?_, fun n hn => ?_, fun _ => rfl, rfl, rfl, rfl, rfl⟩
  · cases q <;> rfl
  · exact (by decide : ∀ n < 16, (State.reset.out n).off = true) n hn

/-! ### Commands whose frame is known -/

/-- A command answers one state, which has every frame that is known of it. -/
theorem OnlyIn.of_exec {i : Instr} {s t : State} {l : List Piece} {ks : List Nat}
    (hf : ∃ t', exec i s = .next t' ∧ OnlyIn l ks s t') (he : exec i s = .next t) : OnlyIn l ks s t := by
  obtain ⟨t', he', h⟩ := hf
  rw [he] at he'
  cases he'
  exact h

/-- A command whose frame is known does what holds of the state it answers. -/
theorem Does.of_only {i : Instr} {s t : State} {l : List Piece} {ks : List Nat} {p : State → Prop}
    (hf : ∃ t', exec i s = .next t' ∧ OnlyIn l ks s t') (he : exec i s = .next t) (hp : p t) : Does i s l ks p :=
  ⟨t, he, .of_exec hf he, hp⟩

/-! ### The test port -/

theorem jtagTake_jtag (s : State) (i : JtagIr) : (s.jtagTake i false).jtag = { s.jtag with ir := i, inReset := false } := rfl

/-- An instruction that TEST_EN enables acts as BYPASS without it. -/
theorem jtagTake_gated (s : State) (i : JtagIr) :
    (s.jtagTake i true).jtag.ir = (if s.jtag.testEn then i else .bypass) ∧ (s.jtagTake i true).jtag.testEn = s.jtag.testEn := by
  refine ⟨?_, rfl⟩
  unfold State.jtagTake
  cases s.jtag.testEn <;> rfl

/-- Settles O60: each instruction is one of two kinds of taking. -/
theorem testPort : Obligations.TestPort := fun s =>
  ⟨.of_only (execJtagBypass_only s (by decide) .refl) rfl (jtagTake_jtag s _),
    .of_only (execJtagIdcode_only s (by decide) .refl) rfl (jtagTake_jtag s _),
    .of_only (execJtagSamplePreload_only s (by decide) .refl) rfl (jtagTake_jtag s _),
    .of_only (execJtagExtest_only s (by decide) .refl) rfl (jtagTake_gated s _),
    .of_only (execJtagHighz_only s (by decide) .refl) rfl (jtagTake_gated s _),
    .of_only (execJtagClamp_only s (by decide) .refl) rfl (jtagTake_gated s _),
    .of_only (execTrstAssert_only s (by decide) .refl) rfl rfl⟩

end Sys2Proof.Machine
end

section
/-!
PROOF. What moves T64 (R25): a tide start, a row slot, and nothing else.
-/
namespace Sys2Proof.Machine

/-- Every piece of the state but the tide. -/
def untimed : List Piece :=
  [.regs, .phase, .power, .pfail, .mains, .hm, .klp, .nv, .window, .log, .rtc, .bus, .berth, .loop, .act, .sens, .focal, .pipe, .cal,
    .video, .panel, .keys, .pwr, .slip, .jtag, .freeCtr]

theorem OnlyIn.now {s t : State} (h : OnlyIn untimed [] s t) : t.now = s.now :=
  congrArg Tide.t64 (h.pieces .tide (by decide) (by decide))

/-! ### Operations that change the tide and leave T64 -/

theorem leaveRc_now (s : State) (q : Quay) : (s.leaveRc q).now = s.now := by
  unfold State.leaveRc
  split <;> rfl

theorem quayDown_now (s : State) (q : Quay) : (s.quayDown q).now = s.now :=
  (leaveRc_now _ q).trans (OnlyIn.now (reload_only _ _ _ (by decide) (setQuay_only _ _ _ (by decide)
    (revoke_only _ _ (by decide) (slipFault_only _ _ (by decide) .refl)))))

theorem failover_now (s : State) (q : Quay) (cause start : Nat) : (s.failover q cause start).now = s.now := by
  unfold State.failover
  extract_lets s1 t u s2 h3 s3 s4 s5 k6
  have h3 : OnlyIn untimed [] s1 s3 := withHm_only _ _ (by decide) (setQuay_only _ _ _ (by decide) .refl)
  have h5 : OnlyIn untimed [] s1 s5 :=
    endTransfers_only _ _ (by decide) (countTally_only _ _ (by decide) (countUp_only _ _ (by decide) (by decide) h3))
  refine Eq.trans (b := s1.now) (OnlyIn.now ?_) (quayDown_now s q)
  exact raiseIrq_only _ _ (by decide) (pushLog_only _ _ _ (by decide) (withKlp_only s5 _ (by decide) h5))

theorem quayFault_now (s : State) (q : Quay) (cause detail start : Nat) : (s.quayFault q cause detail start).now = s.now := by
  have hpush (level : Nat) : (s.pushEntry cause detail q.code level).now = s.now :=
    OnlyIn.now (pushEntry_only _ _ _ _ _ (by decide) .refl)
  unfold State.quayFault
  extract_lets u taking s1
  repeat' split
  · rfl
  · exact (OnlyIn.now (enterStorm_only _ _ _ (by decide) .refl)).trans
      ((quayDown_now _ q).trans (OnlyIn.now (incSat_only _ _ (by decide) .refl)))
  · exact (OnlyIn.now (popFault_only _ _ _ (by decide) .refl)).trans ((quayDown_now _ q).trans (hpush 3))
  · exact (OnlyIn.now (popFault_only _ _ _ (by decide) .refl)).trans ((quayDown_now _ q).trans (hpush 2))
  · exact (failover_now _ q cause start).trans (hpush 2)
  · exact (OnlyIn.now (popFault_only _ _ _ (by decide) (enterStorm_only _ _ _ (by decide) .refl))).trans
      ((quayDown_now _ q).trans (hpush 3))

theorem windowEnd_now (s : State) (q : Quay) : (s.windowEnd q).now = s.now := by
  have hmiss (u : QuayUnit) : ((s.setQuay q u).incSat Reg.HB_MISSES).now = s.now :=
    OnlyIn.now (incSat_only _ _ (by decide) (setQuay_only _ _ _ (by decide) .refl))
  unfold State.windowEnd
  extract_lets u s1
  repeat' split
  · rfl
  · exact OnlyIn.now (setQuay_only _ _ _ (by decide) .refl)
  · exact (quayFault_now _ _ _ _ _).trans (hmiss _)
  · exact hmiss _

theorem goOut_now (s : State) (q : Quay) : (s.goOut q).now = s.now := by
  unfold State.goOut
  extract_lets u s1 hm1 s2 s3 o
  have h2 : OnlyIn untimed [] s s2 := by
    have h1 : OnlyIn untimed [] s s1 := setQuay_only _ _ _ (by decide) (revoke_only _ _ (by decide) .refl)
    exact OnlyIn.ite (withHm_only _ _ (by decide) h1) h1
  have h3 : s3.now = s.now :=
    (OnlyIn.now (alarmOf_only _ _ _ _ _ (by decide) .refl)).trans ((leaveRc_now _ q).trans h2.now)
  split
  · exact (OnlyIn.now (grantToken_only _ _ (by decide) .refl)).trans h3
  · exact h3

theorem retire_now (s : State) (q : Quay) : (s.retire q).2.now = s.now := by
  have hactive : (s.retireActive q).now = s.now :=
    (OnlyIn.now (restoreCheckpoint_only _ _ (by decide) (withHm_only _ _ (by decide) (setQuay_only _ _ _ (by decide) .refl)))).trans
      (goOut_now s q)
  unfold State.retire
  repeat' split
  · rfl
  · exact hactive
  · rfl
  · rfl
  · exact goOut_now s q

theorem windowRow_now (s : State) (asked : List Edge) : (s.windowRow asked).now = s.now := by
  have hask (l : List Nat) (a : List Edge × State) : OnlyIn untimed [] a.2
      (l.foldl (fun (acc : List Edge × State) i => (acc.1 ++ (acc.2.pwmAsk i).1, (acc.2.pwmAsk i).2)) a).2 := by
    induction l generalizing a with
    | nil => exact .refl
    | cons i l ih => rw [List.foldl_cons]; exact OnlyIn.trans (pwmAsk_only a.2 i (by decide) .refl) (ih (a.1 ++ (a.2.pwmAsk i).1, (a.2.pwmAsk i).2))
  unfold State.windowRow
  split
  · rfl
  · extract_lets a t gates g t1 t2
    have h0 : OnlyIn untimed [] s t := hask _ ([], s)
    have h1 : OnlyIn untimed [] s t1 := OnlyIn.foldl h0 fun u e hu => applyGrant_only _ _ (by decide) hu
    have h2 : OnlyIn untimed [] s t2 := addSat_only _ _ _ (by decide) h1
    exact h2.now

theorem driverRow_now (s : State) (asked : List Edge) : (s.driverRow asked).now = s.now := by
  unfold State.driverRow
  extract_lets s1 s2 s3
  have h1 : s1.now = s.now := OnlyIn.now (OnlyIn.foldl .refl fun t i ht => analogueRow_only _ _ (by decide) ht)
  have h2 : s2.now = s1.now := (windowRow_now _ asked).trans (OnlyIn.now (mainsRow_only _ (by decide) .refl))
  have h3 : s3.now = s2.now := OnlyIn.now (OnlyIn.foldl .refl fun t i ht => floatRow_only _ _ (by decide) ht)
  exact (OnlyIn.now (OnlyIn.foldl .refl fun t i ht => fanRow_only _ _ (by decide) ht)).trans (h3.trans (h2.trans h1))

theorem liveRow_now (s : State) (i : RowIn) : (s.liveRow i).now = s.now := by
  refine (OnlyIn.now (pumpStreams_only _ (by decide) (responseRow_only _ (by decide) (breakwaterRow_only _ (by decide) .refl)))).trans
    ((driverRow_now _ i.edges).trans (OnlyIn.now (imageRow_only _ _ (by decide) (ueSlot_only _ _ (by decide)
      (videoRow_only _ _ _ _ (by decide) (ueVideo_only _ _ (by decide) .refl))))))

theorem rowWork_now (s : State) (i : RowIn) : (s.rowWork i).now = s.now := by
  unfold State.rowWork
  split
  · exact driverRow_now s i.edges
  · exact liveRow_now s i

theorem newFrame_now (s : State) : s.newFrame.now = s.now :=
  (OnlyIn.now (videoFrame_only _ (by decide) (withBerth_only _ _ (by decide) (takeEdits_only _ (by decide)
    (withPipe_only _ _ (by decide) (withCal_only _ _ (by decide) (applyImager_only _ (by decide) (withFocal_only _ _ (by decide)
      (setReg_only _ _ _ (by decide) .refl))))))))).trans (show s.tideFrame.now = s.now from rfl)

theorem clockClose_now (s : State) : s.clockClose.now = s.now := by
  unfold State.clockClose
  split <;> rfl

theorem closeFrame_now (s : State) (i : CloseIn) : (s.closeFrame i).now = s.now := by
  unfold State.closeFrame
  extract_lets act1 s1 s2 s3 b1 v1 s4
  have h1 : OnlyIn untimed [] s s1 := OnlyIn.of_mk .refl (.inr rfl) (.inr rfl) (.inr rfl) (.inr rfl) (.inr rfl) (.inr rfl)
    (.inr rfl) (.inr rfl) (.inr rfl) (.inr rfl) (.inr rfl) (.inr rfl) (.inr rfl) (.inr rfl) (.inl rfl) (.inr rfl) (.inr rfl) (.inr rfl)
    (.inr rfl) (.inr rfl) (.inr rfl) (.inr rfl) (.inr rfl) (.inr rfl) (.inr rfl) (.inr rfl)
  have h3 : OnlyIn untimed [] s s3 := closeBerths_only _ (by decide) (latchFrame_only _ (by decide) (noteMean_only _ (by decide)
    (gradientClose_only _ (by decide) (takeFlag_only _ _ _ (by decide) (takeBands_only _ _ (by decide) h1)))))
  have h4 : s4.now = s.now := h3.now
  exact (OnlyIn.now (scrubClose_only _ _ (by decide) .refl)).trans
    ((clockClose_now _).trans ((OnlyIn.now (calClose_only _ (by decide) .refl)).trans h4))

/-! ### Writes -/

/-- A request whose execution leaves T64 leaves it. -/
theorem request_now (s : State) (q : Request) (pre : State → Option Status) {run : State → Status × List Nat × State}
    (h : ∀ u, (run u).2.2.now = u.now) : (s.request q pre run).now = s.now := by
  have hans (u : State) (st : Status) (d : List Nat) : (u.answer q st d).now = u.now :=
    OnlyIn.now (answer_only _ _ _ _ (by decide) .refl)
  unfold State.request
  extract_lets s0 k1 s1 r
  have hdel (k : Kept) : (s0.deliver k.resp).now = s.now :=
    OnlyIn.now (deliver_only s0 _ (by decide) (dequeue_only s q (by decide) .refl))
  repeat' split
  · rfl
  · rfl
  · exact OnlyIn.now (enqueueRequest_only s0 q (by decide) (dequeue_only s q (by decide) .refl))
  · exact hans s0 _ _
  · rfl
  · exact hdel _
  · exact hans s1 _ _
  · exact hans s1 _ _
  · exact (hans _ _ _).trans (h s1)

/-- A write whose rule leaves T64 leaves it. -/
theorem ledgerWrite_now (s : State) (w : Wr) (key : Nat) {rule : State → Nat → Status × State}
    (h : ∀ u v, (rule u v).2.now = u.now) : (s.ledgerWrite w key rule).now = s.now :=
  request_now _ _ _ fun u => h u w.val

theorem hmCommandRule_now (s : State) (v : Nat) : (hmCommandRule s v).2.now = s.now := by
  unfold hmCommandRule
  split
  · exact OnlyIn.now (hmSwapRule_only _ (by decide) .refl)
  · exact OnlyIn.now (hmRejoinTestRule_only _ (by decide) .refl)
  · exact OnlyIn.now (hmStormExitRule_only _ (by decide) .refl)
  · exact OnlyIn.now (hmStormEnterRule_only _ (by decide) .refl)
  · exact retire_now s .a
  · exact retire_now s .b
  · exact OnlyIn.now (hmClearCountsRule_only _ (by decide) .refl)
  · rfl

/-- The rules that an optional rule stands for leave T64. -/
def RuleNow (o : Option Rule) : Prop := ∀ ru, o = Option.some ru → ∀ (s : State) (v : Nat), (ru s v).2.now = s.now

theorem RuleNow.none : RuleNow none := fun _ e => nomatch e

theorem RuleNow.some {ru : Rule} (h : ∀ (s : State) (v : Nat), (ru s v).2.now = s.now) : RuleNow (Option.some ru) :=
  fun _ e => Option.some.inj e ▸ h

theorem RuleNow.of_only {ru : Rule} (h : ∀ (s : State) (v : Nat), OnlyIn untimed [] s (ru s v).2) : RuleNow (Option.some ru) :=
  .some fun s v => (h s v).now

theorem RuleNow.ite {c : Prop} [Decidable c] {a b : Option Rule} (ha : RuleNow a) (hb : RuleNow b) :
    RuleNow (if c then a else b) := by split <;> assumption

theorem RuleNow.orElse {a b : Option Rule} (ha : RuleNow a) (hb : RuleNow b) : RuleNow (a.orElse fun _ => b) := by
  cases a with
  | none => exact hb
  | some r => exact ha

/-- Of the rules of indices up to 0x1B00 only those of `HM_COMMAND` reach the tide. -/
theorem ruleLow_now (r : Req) (i sub : Nat) : RuleNow (ruleLow r i sub) := by
  unfold ruleLow
  repeat' (with_reducible first
    | exact RuleNow.none | exact RuleNow.some hmCommandRule_now | (apply RuleNow.of_only; intro s v) | exact OnlyIn.refl | decide
    | apply resetCommandRule_only | apply rateModeRule_only | apply mainsModeRule_only | apply gradientLimitRule_only
    | apply imagerModeRule_only | apply outputFormRule_only | apply filterShiftRule_only | apply lensRule_only
    | apply calCommandRule_only | apply videoEnableRule_only | apply videoLinkRule_only | apply vc1Rule_only
    | apply tagLinesRule_only | apply vc2Rule_only | apply salvageReleaseRule_only | apply masterSourceRule_only
    | apply adcCalRule_only | apply urgentRule_only | split)

theorem ruleHigh_now (r : Req) (i sub : Nat) : RuleNow (ruleHigh r i sub) := by
  unfold ruleHigh
  repeat' (with_reducible first
    | exact RuleNow.none | (apply RuleNow.of_only; intro s v) | exact OnlyIn.refl | decide
    | apply irqClearRule_only | apply logCursorRule_only | apply logClearRule_only | apply calendarOffsetRule_only
    | apply dateTimeRule_only | apply dstRule_only | apply subsecRule_only | apply regionUpdateRule_only
    | apply panelTempRule_only | apply resetKeysRule_only | apply idRereadRule_only | apply powerRequestRule_only
    | apply pfailLevelRule_only | apply feedsExpectedRule_only | apply slipCommandRule_only | split)

theorem ruleItem_now (r : Req) (i sub : Nat) : RuleNow (ruleItem r i sub) := by
  unfold ruleItem ruleFan ruleBus ruleLoop ruleZone
  repeat' (with_reducible first
    | exact RuleNow.none | apply RuleNow.ite | (apply RuleNow.of_only; intro s v) | exact OnlyIn.refl | exact frameKey_regs rfl | decide
    | apply groupStateRule_only | apply stormValueRule_only | apply outModeRule_only | apply outCommandRule_only
    | apply fanCommandRule_only | apply fanIlimitRule_only | apply fanTachsRule_only | apply fanBandRule_only
    | apply adcFactorRule_only | apply aiConfigRule_only | apply busModeRule_only | apply tripleSampleRule_only
    | apply busTimingRule_only | apply alarmMatchRule_only | apply alarmStatusRule_only | apply regionCellsRule_only
    | apply lhCellRule_only | apply slotBindRule_only | apply loopModeRule_only | apply pvSourceRule_only
    | apply loopTargetRule_only | apply outMinRule_only | apply outMaxRule_only | apply switchPointRule_only
    | apply scheduleRule_only | apply exceptionDateRule_only | apply zoneOverrideRule_only | apply presenceRule_only
    | apply berthRule_only | split)

/-- No write of an entry moves T64. -/
theorem entryRule_now (r : Req) (key : Nat) (s : State) (v : Nat) : (entryRule r key s v).2.now = s.now := by
  unfold entryRule
  split
  · exact OnlyIn.now (tallyRule_only _ _ _ (by decide) .refl)
  · have h := (ruleLow_now r (key / 256) (key % 256)).orElse
      ((ruleHigh_now r (key / 256) (key % 256)).orElse (ruleItem_now r (key / 256) (key % 256)))
    cases ho : (ruleLow r (key / 256) (key % 256)).orElse fun _ =>
        (ruleHigh r (key / 256) (key % 256)).orElse fun _ => ruleItem r (key / 256) (key % 256) with
    | none => exact OnlyIn.now (plainRule_only _ _ _ (by decide) (frameKey_regs rfl) .refl)
    | some rule => exact h rule ho s v

/-! ### Commands -/

/-- What a command may do to T64: leave it, or move it on with a row, or put it to 0 on the way through DARK to a tide start. -/
def TimedAs (i : Instr) (s t : State) : Prop :=
  t.now = s.now ∨ (∃ r, i = .rowSlot r ∧ s.now < t.now) ∨
    (t.now = 0 ∧ ((∃ b, i = .powerDieStart b) ∨ i = .sharedRailFault ∨ i = .sharedRailRecovered ∨ i = .brownout ∨ i = .deviceReset ∨
      i = .keyReset ∨ (∃ c, i = .hmVoteMismatch c false) ∨ i = .tideStart ∨ i = .masterStartTimeout))

/-- A command answers a state with the T64 that it may have. -/
def Timed (i : Instr) (s : State) : Prop := ∃ t, exec i s = .next t ∧ TimedAs i s t

theorem Timed.of_only {i : Instr} {s : State} (h : ∃ t, exec i s = .next t ∧ OnlyIn untimed [] s t) : Timed i s := by
  obtain ⟨t, he, ht⟩ := h
  exact ⟨t, he, .inl ht.now⟩

/-- A command that leaves T64. -/
theorem Timed.of_now {i : Instr} {s t : State} (he : exec i s = .next t) (h : t.now = s.now) : Timed i s := ⟨t, he, .inl h⟩

theorem now_ite {c : Prop} [Decidable c] {s a b : State} (ha : a.now = s.now) (hb : b.now = s.now) :
    (if c then a else b).now = s.now := by split <;> assumption

/-- A command on the way through DARK: it leaves the state, or puts T64 to 0. -/
theorem Timed.of_zero {i : Instr} {s t : State} (he : exec i s = .next t) (h : t = s ∨ t.now = 0)
    (hi : (∃ b, i = .powerDieStart b) ∨ i = .sharedRailFault ∨ i = .sharedRailRecovered ∨ i = .brownout ∨ i = .deviceReset ∨
      i = .keyReset ∨ (∃ c, i = .hmVoteMismatch c false) ∨ i = .tideStart ∨ i = .masterStartTimeout) : Timed i s := by
  refine ⟨t, he, ?_⟩
  rcases h with rfl | h
  · exact .inl rfl
  · exact .inr (.inr ⟨h, hi⟩)

theorem tideStart_now (s : State) (src : ClockSrc) : (s.tideStart src).now = 0 := congrArg Tide.t64 (tideStart_tide s src)

theorem tideStart_timed (s : State) : Timed .tideStart s :=
  .of_zero rfl (by
    split
    · exact .inr (tideStart_now _ _)
    · exact .inl rfl) (by simp)

theorem masterStartTimeout_timed (s : State) : Timed .masterStartTimeout s :=
  .of_zero rfl (by
    split
    · exact .inr (tideStart_now _ _)
    · exact .inl rfl) (by simp)

theorem powerDieStart_timed (b : Bool) (s : State) : Timed (.powerDieStart b) s :=
  .of_zero rfl (by
    split
    · exact .inl rfl
    · exact .inr rfl) (by simp)

theorem sharedRailFault_timed (s : State) : Timed .sharedRailFault s :=
  .of_zero rfl (by
    split
    · exact .inr rfl
    · exact .inl rfl) (by simp)

theorem sharedRailRecovered_timed (s : State) : Timed .sharedRailRecovered s :=
  .of_zero rfl (by
    split
    · exact .inr rfl
    · exact .inl rfl) (by simp)

theorem brownout_timed (s : State) : Timed .brownout s :=
  .of_zero rfl (by
    split
    · exact .inr rfl
    · exact .inl rfl) (by simp)

theorem deviceReset_timed (s : State) : Timed .deviceReset s := by
  refine .of_zero rfl ?_ (by simp)
  split
  · split
    · exact .inr rfl
    · exact .inl rfl
  · exact .inl rfl

theorem keyReset_timed (s : State) : Timed .keyReset s := by
  refine .of_zero rfl ?_ (by simp)
  split
  · split
    · exact .inr rfl
    · exact .inl rfl
  · exact .inl rfl

theorem hmVoteMismatch_timed (c : Nat) (agree : Bool) (s : State) : Timed (.hmVoteMismatch c agree) s := by
  cases agree with
  | false => exact .of_zero rfl (.inr rfl) (by simp)
  | true => exact .of_now rfl (OnlyIn.now (recordFault_only _ _ _ _ (by decide) (withHm_only _ _ (by decide) .refl)))

/-- A row slot moves T64 on by one row (R17). -/
theorem rowSlot_timed (r : RowIn) (s : State) : Timed (.rowSlot r) s := by
  refine ⟨_, rfl, ?_⟩
  split
  · refine .inr (.inl ⟨r, rfl, ?_⟩)
    have hrow : (s.rowWork r).advanceRow.now = (s.rowWork r).now + clocksPerRow (s.rowWork r).rate := rfl
    rw [hrow, rowWork_now]
    unfold clocksPerRow
    split <;> omega
  · exact .inl rfl

theorem selfCheckResponse_timed (q : Quay) (v : Nat) (s : State) : Timed (.selfCheckResponse q v) s := by
  refine .of_now rfl ?_
  split
  · rfl
  · exact now_ite rfl (quayFault_now _ _ _ _ _)

theorem memoryRetryOutcome_timed (q : Quay) (ok : Bool) (s : State) : Timed (.memoryRetryOutcome q ok) s := by
  refine .of_now rfl ?_
  split
  · rfl
  · exact now_ite (OnlyIn.now (popFault_only _ _ _ (by decide) .refl))
      ((quayFault_now _ _ _ _ _).trans (OnlyIn.now (dropFault_only _ _ (by decide) .refl)))

theorem takeoverTimeout_timed (s : State) : Timed .takeoverTimeout s := by
  refine .of_now rfl ?_
  split
  · rfl
  · exact now_ite rfl (quayFault_now _ _ _ _ _)

theorem quaySelfTestDone_timed (q : Quay) (pass : Bool) (s : State) : Timed (.quaySelfTestDone q pass) s :=
  .of_now rfl (now_ite rfl (now_ite (OnlyIn.now (selfTestPass_only _ _ (by decide) .refl)) (goOut_now s q)))

theorem masterClockLoss_timed (s : State) : Timed .masterClockLoss s := by
  refine .of_now rfl (now_ite rfl (now_ite rfl ?_))
  exact Eq.trans (OnlyIn.now (recordFault_only _ _ _ _ (by decide) (countUp_only _ _ (by decide) (by decide) .refl))) rfl

/-- T64 after any command. -/
theorem exec_timed (s : State) (i : Instr) : Timed i s :=
  match i with
  | .powerDieStart testEn => powerDieStart_timed testEn s
  | .tideStart => tideStart_timed s
  | .masterStartTimeout => masterStartTimeout_timed s
  | .bootVerifyDone => .of_only (execBootVerifyDone_only s (by decide) .refl)
  | .lightsEntry => .of_only (execLightsEntry_only s (by decide) .refl)
  | .lightsOwnerTimeout => .of_only (execLightsOwnerTimeout_only s (by decide) .refl)
  | .factoryDecompressionDone bad => .of_only (execFactoryDecompressionDone_only bad s (by decide) .refl)
  | .pllLock p => .of_now rfl rfl
  | .pllUnlock p => .of_now rfl rfl
  | .rowSlot x => rowSlot_timed x s
  | .coefReloadDone shadow word => .of_only (execCoefReloadDone_only shadow word s (by decide) .refl)
  | .frameBoundary => .of_now rfl (now_ite (newFrame_now s) rfl)
  | .settlingEnd => .of_only (execSettlingEnd_only s (by decide) .refl)
  | .gainChange => .of_only (execGainChange_only s (by decide) .refl)
  | .newEpoch => .of_only (execNewEpoch_only s (by decide) .refl)
  | .frameClose x => .of_now rfl (now_ite (closeFrame_now s x) rfl)
  | .gradientClear n => .of_only (execGradientClear_only n s (by decide) .refl)
  | .bandSensorExcluded n => .of_only (execBandSensorExcluded_only n s (by decide) .refl)
  | .converterSelfTest codes => .of_only (execConverterSelfTest_only codes s (by decide) .refl)
  | .berthAlarmRaise n => .of_only (execBerthAlarmRaise_only n s (by decide) .refl)
  | .berthAlarmClear n => .of_only (execBerthAlarmClear_only n s (by decide) .refl)
  | .berthOccupied n => .of_only (execBerthOccupied_only n s (by decide) .refl)
  | .berthVacant n => .of_only (execBerthVacant_only n s (by decide) .refl)
  | .tablePublication => .of_only (execTablePublication_only s (by decide) .refl)
  | .controlTick x => .of_only (execControlTick_only x s (by decide) .refl)
  | .heartbeatRequest => .of_only (execHeartbeatRequest_only s (by decide) .refl)
  | .heartbeatStrobe q t => .of_only (execHeartbeatStrobe_only q t s (by decide) .refl)
  | .heartbeatWindowEnd => .of_now rfl (now_ite rfl ((windowEnd_now _ _).trans (windowEnd_now _ _)))
  | .selfCheckResponse q value => selfCheckResponse_timed q value s
  | .selfCheckTimeout q => .of_now rfl (now_ite (quayFault_now _ _ _ _ _) rfl)
  | .watchdogRestart q => .of_only (execWatchdogRestart_only q s (by decide) .refl)
  | .watchdogExpiry q => .of_now rfl (now_ite (quayFault_now _ _ _ _ _) rfl)
  | .quayClockFault q => .of_now rfl (quayFault_now _ _ _ _ _)
  | .quayRailFault q => .of_now rfl (quayFault_now _ _ _ _ _)
  | .pilotMemoryError q m addr => .of_only (execPilotMemoryError_only q m addr s (by decide) .refl)
  | .memoryRetryOutcome q ok => memoryRetryOutcome_timed q ok s
  | .hmVoteMismatch copy agree => hmVoteMismatch_timed copy agree s
  | .wharfWrite q out v => .of_only (execWharfWrite_only q out v s (by decide) .refl)
  | .checkpointArrival good len => .of_only (execCheckpointArrival_only good len s (by decide) .refl)
  | .takeoverComplete t => .of_only (execTakeoverComplete_only t s (by decide) .refl)
  | .takeoverTimeout => takeoverTimeout_timed s
  | .quayResetRelease q => .of_only (execQuayResetRelease_only q s (by decide) .refl)
  | .quaySelfTestDone q pass => quaySelfTestDone_timed q pass s
  | .passHoldTimeout q => .of_only (execPassHoldTimeout_only q s (by decide) .refl)
  | .quaySyncDone q => .of_only (execQuaySyncDone_only q s (by decide) .refl)
  | .salvageAfterFailover => .of_only (execSalvageAfterFailover_only s (by decide) .refl)
  | .stormAutoExit => .of_only (execStormAutoExit_only s (by decide) .refl)
  | .hmSwap r => .of_only (execHmSwap_only r s (by decide) .refl)
  | .hmRejoinTest r => .of_only (execHmRejoinTest_only r s (by decide) .refl)
  | .hmStormExit r => .of_only (execHmStormExit_only r s (by decide) .refl)
  | .hmStormEnter r => .of_only (execHmStormEnter_only r s (by decide) .refl)
  | .hmRetireA r => .of_now rfl (ledgerWrite_now _ _ _ fun u _ => retire_now u _)
  | .hmRetireB r => .of_now rfl (ledgerWrite_now _ _ _ fun u _ => retire_now u _)
  | .hmClearCounts r => .of_only (execHmClearCounts_only r s (by decide) .refl)
  | .stormValueWrite n w => .of_only (execStormValueWrite_only n w s (by decide) .refl)
  | .salvageRelease w => .of_only (execSalvageRelease_only w s (by decide) .refl)
  | .masterClockLoss => masterClockLoss_timed s
  | .pllRelock => .of_now rfl (now_ite rfl rfl)
  | .rcTrim err => .of_now rfl (now_ite rfl rfl)
  | .clockReturn => .of_now rfl (now_ite rfl rfl)
  | .sunHoldExpiry n => .of_only (execSunHoldExpiry_only n s (by decide) .refl)
  | .intervalExpiry => .of_only (execIntervalExpiry_only s (by decide) .refl)
  | .bringUpTrigger => .of_only (execBringUpTrigger_only s (by decide) .refl)
  | .calCycle r => .of_only (execCalCycle_only r s (by decide) .refl)
  | .calCycleRef r => .of_only (execCalCycleRef_only r s (by decide) .refl)
  | .calAbort r => .of_only (execCalAbort_only r s (by decide) .refl)
  | .calQualifySpares r => .of_only (execCalQualifySpares_only r s (by decide) .refl)
  | .calShutterTest r => .of_only (execCalShutterTest_only r s (by decide) .refl)
  | .calLoadFactory r => .of_only (execCalLoadFactory_only r s (by decide) .refl)
  | .chamberFillDone => .of_only (execChamberFillDone_only s (by decide) .refl)
  | .spareQualificationDone sums codes => .of_only (execSpareQualificationDone_only sums codes s (by decide) .refl)
  | .restoreTimeout => .of_only (execRestoreTimeout_only s (by decide) .refl)
  | .outFrameReadTimeout => .of_only (execOutFrameReadTimeout_only s (by decide) .refl)
  | .gainModeWrite w => .of_only (execGainModeWrite_only w s (by decide) .refl)
  | .rateModeWrite w => .of_only (execRateModeWrite_only w s (by decide) .refl)
  | .imagerModeWrite w => .of_only (execImagerModeWrite_only w s (by decide) .refl)
  | .outputFormWrite w => .of_only (execOutputFormWrite_only w s (by decide) .refl)
  | .filterShiftWrite w => .of_only (execFilterShiftWrite_only w s (by decide) .refl)
  | .lensWrite n w => .of_only (execLensWrite_only n w s (by decide) .refl)
  | .gradientLimitWrite n w => .of_only (execGradientLimitWrite_only n w s (by decide) .refl)
  | .groupStateWrite n w => .of_only (execGroupStateWrite_only n w s (by decide) .refl)
  | .berthEntryWrite n sub w => .of_only (execBerthEntryWrite_only n sub w s (by decide) .refl)
  | .editHoldWrite w => .of_only (execEditHoldWrite_only w s (by decide) .refl)
  | .videoEnableWrite w => .of_only (execVideoEnableWrite_only w s (by decide) .refl)
  | .streamStart => .of_only (execStreamStart_only s (by decide) .refl)
  | .videoLinkWrite n w => .of_only (execVideoLinkWrite_only n w s (by decide) .refl)
  | .vc2RequestWrite w => .of_only (execVc2RequestWrite_only w s (by decide) .refl)
  | .outCommandWrite n w => .of_only (execOutCommandWrite_only n w s (by decide) .refl)
  | .outModeWrite n w => .of_only (execOutModeWrite_only n w s (by decide) .refl)
  | .loopModeWrite n w => .of_only (execLoopModeWrite_only n w s (by decide) .refl)
  | .loopTargetWrite n w => .of_only (execLoopTargetWrite_only n w s (by decide) .refl)
  | .pvSourceWrite l backup w => .of_only (execPvSourceWrite_only l backup w s (by decide) .refl)
  | .zoneOverrideWrite n w => .of_only (execZoneOverrideWrite_only n w s (by decide) .refl)
  | .overrideExpiry n => .of_only (execOverrideExpiry_only n s (by decide) .refl)
  | .presenceHoldExpiry n => .of_only (execPresenceHoldExpiry_only n s (by decide) .refl)
  | .switchPointWrite p j w => .of_only (execSwitchPointWrite_only p j w s (by decide) .refl)
  | .exceptionDateWrite n w => .of_only (execExceptionDateWrite_only n w s (by decide) .refl)
  | .programEvaluation => .of_only (execProgramEvaluation_only s (by decide) .refl)
  | .masterSilentExpiry => .of_only (execMasterSilentExpiry_only s (by decide) .refl)
  | .outputTrip n short => .of_only (execOutputTrip_only n short s (by decide) .refl)
  | .outputTripResume n => .of_only (execOutputTripResume_only n s (by decide) .refl)
  | .thermalShutdown temp => .of_only (execThermalShutdown_only temp s (by decide) .refl)
  | .thermalResume => .of_only (execThermalResume_only s (by decide) .refl)
  | .floatingOverdriveEnd n => .of_only (execFloatingOverdriveEnd_only n s (by decide) .refl)
  | .valvePeakEnd n => .of_only (execValvePeakEnd_only n s (by decide) .refl)
  | .fanCommandWrite n w => .of_only (execFanCommandWrite_only n w s (by decide) .refl)
  | .fanBandWrite c j w => .of_only (execFanBandWrite_only c j w s (by decide) .refl)
  | .fanIlimitWrite n w => .of_only (execFanIlimitWrite_only n w s (by decide) .refl)
  | .fanTugEnd n => .of_only (execFanTugEnd_only n s (by decide) .refl)
  | .fanWaitEnd n => .of_only (execFanWaitEnd_only n s (by decide) .refl)
  | .fanStallRetry n => .of_only (execFanStallRetry_only n s (by decide) .refl)
  | .fanShort n => .of_only (execFanShort_only n s (by decide) .refl)
  | .fanShortOffEnd n => .of_only (execFanShortOffEnd_only n s (by decide) .refl)
  | .tachEdge n t => .of_only (execTachEdge_only n t s (by decide) .refl)
  | .tachStop n => .of_only (execTachStop_only n s (by decide) .refl)
  | .rippleWindowEnd n events => .of_only (execRippleWindowEnd_only n events s (by decide) .refl)
  | .rpmLearn n => .of_only (execRpmLearn_only n s (by decide) .refl)
  | .adcEntryEnd ch sum ovr => .of_only (execAdcEntryEnd_only ch sum ovr s (by decide) .refl)
  | .adcContinuousRound => .of_only (execAdcContinuousRound_only s (by decide) .refl)
  | .urgentRequestWrite w => .of_only (execUrgentRequestWrite_only w s (by decide) .refl)
  | .adcCalCommand r => .of_only (execAdcCalCommand_only r s (by decide) .refl)
  | .adcSelfCalDone gains offsets residual => .of_only (execAdcSelfCalDone_only gains offsets residual s (by decide) .refl)
  | .adcFactorWrite n w => .of_only (execAdcFactorWrite_only n w s (by decide) .refl)
  | .aiConfigWrite ch sub w => .of_only (execAiConfigWrite_only ch sub w s (by decide) .refl)
  | .diStuck n => .of_only (execDiStuck_only n s (by decide) .refl)
  | .diChatterWindowEnd n => .of_only (execDiChatterWindowEnd_only n s (by decide) .refl)
  | .idReaderStart => .of_only (execIdReaderStart_only s (by decide) .refl)
  | .modDetChange slot on => .of_only (execModDetChange_only slot on s (by decide) .refl)
  | .idPoll ack => .of_only (execIdPoll_only ack s (by decide) .refl)
  | .idReadDone slot r => .of_only (execIdReadDone_only slot r s (by decide) .refl)
  | .idReadRetry n => .of_only (execIdReadRetry_only n s (by decide) .refl)
  | .idFaultRetry n => .of_only (execIdFaultRetry_only n s (by decide) .refl)
  | .idRereadWrite w => .of_only (execIdRereadWrite_only w s (by decide) .refl)
  | .slotBindWrite n w => .of_only (execSlotBindWrite_only n w s (by decide) .refl)
  | .busModeWrite c w => .of_only (execBusModeWrite_only c w s (by decide) .refl)
  | .busModeApply c => .of_only (execBusModeApply_only c s (by decide) .refl)
  | .busIntegrated c => .of_only (execBusIntegrated_only c s (by decide) .refl)
  | .busProbeEnd c => .of_only (execBusProbeEnd_only c s (by decide) .refl)
  | .busTimingWrite c sub w => .of_only (execBusTimingWrite_only c sub w s (by decide) .refl)
  | .tripleSampleWrite c w => .of_only (execTripleSampleWrite_only c w s (by decide) .refl)
  | .canFrameReceived c f stamp => .of_only (execCanFrameReceived_only c f stamp s (by decide) .refl)
  | .canTxComplete c stamp => .of_only (execCanTxComplete_only c stamp s (by decide) .refl)
  | .canTxError c e => .of_only (execCanTxError_only c e s (by decide) .refl)
  | .busoffRecoveryDone c => .of_only (execBusoffRecoveryDone_only c s (by decide) .refl)
  | .bwHoldExpiry n => .of_only (execBwHoldExpiry_only n s (by decide) .refl)
  | .bwSummary => .of_only (execBwSummary_only s (by decide) .refl)
  | .deviceHeartbeat => .of_only (execDeviceHeartbeat_only s (by decide) .refl)
  | .netHeartbeatNow c => .of_only (execNetHeartbeatNow_only c s (by decide) .refl)
  | .netLockAll c => .of_only (execNetLockAll_only c s (by decide) .refl)
  | .netQuiet c => .of_only (execNetQuiet_only c s (by decide) .refl)
  | .quietEnd => .of_only (execQuietEnd_only s (by decide) .refl)
  | .netTimeRequest c => .of_only (execNetTimeRequest_only c s (by decide) .refl)
  | .klpRead a => .of_only (execKlpRead_only a s (by decide) .refl)
  | .klpWrite key w => .of_now rfl (ledgerWrite_now _ _ _ (entryRule_now _ _))
  | .compactionDone ok => .of_only (execCompactionDone_only ok s (by decide) .refl)
  | .segReadStart a => .of_only (execSegReadStart_only a s (by decide) .refl)
  | .segRead a => .of_only (execSegRead_only a s (by decide) .refl)
  | .segWriteStart a => .of_only (execSegWriteStart_only a s (by decide) .refl)
  | .segWrite a => .of_only (execSegWrite_only a s (by decide) .refl)
  | .segAbort a => .of_only (execSegAbort_only a s (by decide) .refl)
  | .segStream a => .of_only (execSegStream_only a s (by decide) .refl)
  | .transferIdleTimeout id key => .of_only (execTransferIdleTimeout_only id key s (by decide) .refl)
  | .unlock a => .of_only (execUnlock_only a s (by decide) .refl)
  | .unlockLockoutEnd n => .of_only (execUnlockLockoutEnd_only n s (by decide) .refl)
  | .lock a => .of_only (execLock_only a s (by decide) .refl)
  | .sessionTimeout n => .of_only (execSessionTimeout_only n s (by decide) .refl)
  | .klpHeartbeat a => .of_only (execKlpHeartbeat_only a s (by decide) .refl)
  | .manifest a => .of_only (execManifest_only a s (by decide) .refl)
  | .echo a => .of_only (execEcho_only a s (by decide) .refl)
  | .klpResponseAbandon c => .of_only (execKlpResponseAbandon_only c s (by decide) .refl)
  | .spiRequestTransaction bytes => .of_only (execSpiRequestTransaction_only bytes s (by decide) .refl)
  | .spiResponseRead n => .of_only (execSpiResponseRead_only n s (by decide) .refl)
  | .irqClearWrite w => .of_only (execIrqClearWrite_only w s (by decide) .refl)
  | .resetCommandWrite w => .of_only (execResetCommandWrite_only w s (by decide) .refl)
  | .deviceReset => deviceReset_timed s
  | .nvWren => .of_only (execNvWren_only s (by decide) .refl)
  | .nvWrdi => .of_only (execNvWrdi_only s (by decide) .refl)
  | .nvRdsr n => .of_only (execNvRdsr_only n s (by decide) .refl)
  | .nvWrsr b => .of_only (execNvWrsr_only b s (by decide) .refl)
  | .nvRead addr n => .of_only (execNvRead_only addr n s (by decide) .refl)
  | .nvFastRead addr n => .of_only (execNvFastRead_only addr n s (by decide) .refl)
  | .nvWrite addr bytes cont => .of_only (execNvWrite_only addr bytes cont s (by decide) .refl)
  | .nvRder n => .of_only (execNvRder_only n s (by decide) .refl)
  | .nvCler => .of_only (execNvCler_only s (by decide) .refl)
  | .nvRdid n => .of_only (execNvRdid_only n s (by decide) .refl)
  | .bucketLeak n => .of_only (execBucketLeak_only n s (by decide) .refl)
  | .logRecordWrite => .of_only (execLogRecordWrite_only s (by decide) .refl)
  | .logStreamSend => .of_only (execLogStreamSend_only s (by decide) .refl)
  | .logClearWrite w => .of_only (execLogClearWrite_only w s (by decide) .refl)
  | .logCursorWrite w => .of_only (execLogCursorWrite_only w s (by decide) .refl)
  | .vaonLoss vbak => .of_only (execVaonLoss_only vbak s (by decide) .refl)
  | .vaonReturn => .of_only (execVaonReturn_only s (by decide) .refl)
  | .vbakDrop => .of_only (execVbakDrop_only s (by decide) .refl)
  | .vbakReturn => .of_only (execVbakReturn_only s (by decide) .refl)
  | .bridgeTimeout => .of_only (execBridgeTimeout_only s (by decide) .refl)
  | .mooringDomainStart main => .of_only (execMooringDomainStart_only main s (by decide) .refl)
  | .xtal32Stop => .of_only (execXtal32Stop_only s (by decide) .refl)
  | .xtal32Return => .of_only (execXtal32Return_only s (by decide) .refl)
  | .dateTimeWrite w => .of_only (execDateTimeWrite_only w s (by decide) .refl)
  | .calendarOffsetWrite w => .of_only (execCalendarOffsetWrite_only w s (by decide) .refl)
  | .subsecShiftWrite w => .of_only (execSubsecShiftWrite_only w s (by decide) .refl)
  | .subsecSlewDone => .of_only (execSubsecSlewDone_only s (by decide) .refl)
  | .dstForward r => .of_only (execDstForward_only r s (by decide) .refl)
  | .dstBack r => .of_only (execDstBack_only r s (by decide) .refl)
  | .calendarSecond => .of_only (execCalendarSecond_only s (by decide) .refl)
  | .alarmMatchWrite n w => .of_only (execAlarmMatchWrite_only n w s (by decide) .refl)
  | .alarmStatusWrite n w => .of_only (execAlarmStatusWrite_only n w s (by decide) .refl)
  | .trimWindow temp vbak => .of_only (execTrimWindow_only temp vbak s (by decide) .refl)
  | .timeFrameSend => .of_only (execTimeFrameSend_only s (by decide) .refl)
  | .driveFrame ok => .of_only (execDriveFrame_only ok s (by decide) .refl)
  | .driveFault => .of_only (execDriveFault_only s (by decide) .refl)
  | .driveRailRecovered => .of_only (execDriveRailRecovered_only s (by decide) .refl)
  | .panelTempFallback => .of_only (execPanelTempFallback_only s (by decide) .refl)
  | .frameMemoryCheck ok => .of_only (execFrameMemoryCheck_only ok s (by decide) .refl)
  | .regionUpdateWrite w => .of_only (execRegionUpdateWrite_only w s (by decide) .refl)
  | .regionCellsWrite n w => .of_only (execRegionCellsWrite_only n w s (by decide) .refl)
  | .panelModeChange => .of_only (execPanelModeChange_only s (by decide) .refl)
  | .stormPatternToggle => .of_only (execStormPatternToggle_only s (by decide) .refl)
  | .keyScan closed => .of_only (execKeyScan_only closed s (by decide) .refl)
  | .keyRepeat n => .of_only (execKeyRepeat_only n s (by decide) .refl)
  | .keyLong n => .of_only (execKeyLong_only n s (by decide) .refl)
  | .keyStuck n => .of_only (execKeyStuck_only n s (by decide) .refl)
  | .keyReset => keyReset_timed s
  | .feedAbsent f => .of_only (execFeedAbsent_only f s (by decide) .refl)
  | .feedPresent f => .of_only (execFeedPresent_only f s (by decide) .refl)
  | .feedOvervoltage f => .of_only (execFeedOvervoltage_only f s (by decide) .refl)
  | .pfail us => .of_only (execPfail_only us s (by decide) .refl)
  | .uvlo cell => .of_now rfl (now_ite rfl rfl)
  | .brownout => brownout_timed s
  | .sharedRailFault => sharedRailFault_timed s
  | .sharedRailRecovered => sharedRailRecovered_timed s
  | .pfailLevelWrite w => .of_only (execPfailLevelWrite_only w s (by decide) .refl)
  | .powerRequestWrite w => .of_only (execPowerRequestWrite_only w s (by decide) .refl)
  | .slackEntry => .of_only (execSlackEntry_only s (by decide) .refl)
  | .wakeHoldEnd => .of_only (execWakeHoldEnd_only s (by decide) .refl)
  | .slipVerifyDone => .of_only (execSlipVerifyDone_only s (by decide) .refl)
  | .slipWriteDone ok => .of_only (execSlipWriteDone_only ok s (by decide) .refl)
  | .slipLoadStandby r => .of_only (execSlipLoadStandby_only r s (by decide) .refl)
  | .slipLoadDone => .of_only (execSlipLoadDone_only s (by decide) .refl)
  | .slipSwap r => .of_only (execSlipSwap_only r s (by decide) .refl)
  | .slipCommit r => .of_only (execSlipCommit_only r s (by decide) .refl)
  | .slipRollback r => .of_only (execSlipRollback_only r s (by decide) .refl)
  | .slipAbort r => .of_only (execSlipAbort_only r s (by decide) .refl)
  | .slipInstallReset r => .of_only (execSlipInstallReset_only r s (by decide) .refl)
  | .probationEnd => .of_only (execProbationEnd_only s (by decide) .refl)
  | .jtagBypass => .of_only (execJtagBypass_only s (by decide) .refl)
  | .jtagIdcode => .of_only (execJtagIdcode_only s (by decide) .refl)
  | .jtagSamplePreload => .of_only (execJtagSamplePreload_only s (by decide) .refl)
  | .jtagExtest => .of_only (execJtagExtest_only s (by decide) .refl)
  | .jtagHighz => .of_only (execJtagHighz_only s (by decide) .refl)
  | .jtagClamp => .of_only (execJtagClamp_only s (by decide) .refl)
  | .trstAssert => .of_only (execTrstAssert_only s (by decide) .refl)
  | .mainsModeWrite w => .of_only (execMainsModeWrite_only w s (by decide) .refl)
  | .zcPulse t0 t1 => .of_only (execZcPulse_only t0 t1 s (by decide) .refl)
  | .mainsCrossingMissed => .of_only (execMainsCrossingMissed_only s (by decide) .refl)
  | .holdoverExpiry => .of_only (execHoldoverExpiry_only s (by decide) .refl)
  | .registerWrite key w => .of_now rfl (ledgerWrite_now _ _ _ (entryRule_now _ _))
  | .protocolError c e => .of_only (execProtocolError_only c e s (by decide) .refl)
  | .klpFrameGapTimeout c peer => .of_only (execKlpFrameGapTimeout_only c peer s (by decide) .refl)
  | .feedOvervoltageEnd f => .of_only (execFeedOvervoltageEnd_only f s (by decide) .refl)
  | .quayFailWindowExpiry q => .of_only (execQuayFailWindowExpiry_only q s (by decide) .refl)

/-- Settles O5: the command's own answer is the one that `exec_timed` speaks of. -/
theorem t64Continuous : Obligations.T64Continuous := by
  intro i s t he
  obtain ⟨u, hu, ht⟩ := exec_timed s i
  rw [he] at hu
  cases hu
  exact ht

end Sys2Proof.Machine
end

section
/-!
PROOF. Requests that are not executed, and the checks of a write in their order (R390, R398, R410).
-/
namespace Sys2Proof.Machine

variable {s : State} {w : Wr} {key : Nat}

/-- A write over KLP runs the rule of its entry. -/
theorem exec_klpWrite (key : Nat) (w : Wr) (s : State) :
    exec (.klpWrite key w) s = .next (s.ledgerWrite w key (entryRule w.req key)) := rfl

/-- What is not executed of a write over KLP is not executed of the register write. -/
theorem Does.registerWrite {l : List Piece} {ks : List Nat} {p : State → Prop} (h : Does (.klpWrite key w) s l ks p) :
    Does (.registerWrite key w) s l ks p := h

/-! ### Requests that are not executed -/

/-- A write on a port that is not served changes nothing but the ledger engine. -/
theorem klpWrite_unserved (h1 : s.serving w.req.port ≠ .full) (h2 : s.serving w.req.port ≠ .standby)
    (h3 : s.serving w.req.port ≠ .recovery) : Does (.klpWrite key w) s [.klp] [] fun _ => True :=
  ⟨_, exec_klpWrite key w s, request_unserved h1 h2 h3 _ _, trivial⟩

theorem klpRead_unserved {a : Ask} (h1 : s.serving a.req.port ≠ .full) (h2 : s.serving a.req.port ≠ .standby)
    (h3 : s.serving a.req.port ≠ .recovery) : Does (.klpRead a) s [.klp] [] fun _ => True :=
  ⟨_, rfl, request_unserved h1 h2 h3 _ _, trivial⟩

/-- A served repeat of a kept request is answered as before and counted (R398). -/
theorem request_repeated {q : Request} {k : Kept} (hf : s.serving q.req.port = .full) (ho : opKept q.op = true)
    (hk : s.keptFor q = some k) (pre : State → Option Status) (run : State → Status × List Nat × State) :
    s.request q pre run = { (s.dequeue q).deliver k.resp with
      klp := { ((s.dequeue q).deliver k.resp).klp with duplicates := satInc 32 s.klp.duplicates } } := by
  unfold State.request
  have hk' : (if opKept q.op then (s.dequeue q).keptFor q else none) = some k := (if_pos ho).trans hk
  simp only [hf]
  rw [hk']
  rfl

theorem klpWrite_repeated {k : Kept} (hf : s.serving w.req.port = .full) (hk : s.keptFor (wrRequest w key) = some k) :
    Does (.klpWrite key w) s [.klp] [] fun t =>
      t.klp = { (s.dequeue (wrRequest w key)).deliver k.resp |>.klp with duplicates := satInc 32 s.klp.duplicates } := by
  refine ⟨_, congrArg Host.Outcome.next (request_repeated hf rfl hk _ _), ?_, rfl⟩
  exact withKlp_only _ _ (by decide) (deliver_only _ _ (by decide) (dequeue_only _ _ (by decide) .refl))

/-- Settles O8: a request of a port that is not served, and a repeat, meet the ledger engine alone. -/
theorem requestsNotExecuted : Obligations.RequestsNotExecuted := by
  refine ⟨fun s key w a => ⟨fun h1 h2 h3 => ?_, klpRead_unserved⟩, fun s key w k hf hk => ⟨klpWrite_repeated hf hk, rfl⟩⟩
  exact ⟨klpWrite_unserved h1 h2 h3, (klpWrite_unserved h1 h2 h3).registerWrite⟩

/-! ### The checks of a write -/

/-- A served write that fails a check is refused with its status, whichever command makes it. -/
theorem klpWrite_checked {st : Status} (h : s.serves (wrRequest w key)) (hc : s.checkWrite w key = some st) :
    Refuses (.klpWrite key w) s w key st ∧ Refuses (.registerWrite key w) s w key st := by
  have hr : Refuses (.klpWrite key w) s w key st :=
    .of ((exec_klpWrite key w s).trans (congrArg Host.Outcome.next (ledgerWrite_checked h hc _)))
  exact ⟨hr, hr⟩

theorem checkWrite_noObject (h : findEntry key = none) : s.checkWrite w key = some .noObject := by
  unfold State.checkWrite
  rw [h]

/-- The checks of an entry that exists (R390 orders 2 and 3). -/
theorem checkWrite_of {e : Entry} (h : findEntry key = some e) : s.checkWrite w key =
    if (e.acc = 0 ∧ s.tallyOpen w key = false) ∨ (s.levelOf w.req.id < e.acc ∧ s.recovering = false) then some .access
    else if e.ty = .domain ∨ w.len ≠ e.ty.bytes then some .type
    else if e.ty = .bool ∧ 1 < w.val then some .type
    else none := by
  unfold State.checkWrite
  rw [h]

/-- Settles O9: each answer is that of the first check that fails. -/
theorem checkedWrites : Obligations.CheckedWrites := by
  refine fun s key w hs => ⟨fun h => ?_, fun e he hw hl ht => ?_, fun e he ha => ?_⟩
  · exact klpWrite_checked hs (checkWrite_noObject h)
  · refine klpWrite_checked hs ?_
    rw [checkWrite_of he, if_neg (not_or.mpr ⟨hw, hl⟩)]
    rcases ht with ht | ht | ht
    · rw [if_pos (.inl ht)]
    · rw [if_pos (.inr ht)]
    · rw [if_pos ht]
      exact ite_self _
  · exact klpWrite_checked hs ((checkWrite_of he).trans (if_pos ha))

end Sys2Proof.Machine
end

section
/-!
PROOF. The ways into DARK (R415, R505, R511, R515, R516), and the counts of a tally (R424).
-/
namespace Sys2Proof.Machine

/-- The register map after some entries are carried over from a state. -/
theorem smapGet_carried (s : State) (l : List Nat) (m : SMap) (j : Nat) :
    smapGet (keyDefault j) j (l.foldl (fun m k => smapSet (keyDefault k) k (s.reg k) m) m) =
      if j ∈ l then s.reg j else smapGet (keyDefault j) j m := by
  induction l generalizing m with
  | nil => rfl
  | cons k l ih =>
    rw [List.foldl_cons, ih, smapGet_set]
    by_cases hl : j ∈ l
    · simp [hl]
    · by_cases hk : j = k
      · subst hk; simp
      · simp [hl, hk]

/-- The entries of DARK: those of `keptKeys` hold their values, every other its default. -/
theorem toDark_reg (s : State) (c : ResetCause) (k : Nat) :
    (s.toDark c).reg k = if k ∈ keptKeys then s.reg k else keyDefault k := smapGet_carried s keptKeys [] k

theorem toDark_darkened (s : State) (c : ResetCause) : Darkened s (s.toDark c) c.code where
  phase := rfl
  power := rfl
  pfail := rfl
  tide := rfl
  hm := rfl
  klp := rfl
  kept k hk := (toDark_reg s c k).trans (if_pos hk)
  default k hk := (toDark_reg s c k).trans (if_neg hk)
  rtc := rfl
  window := rfl
  ring := rfl
  anchor := rfl
  slots := ⟨rfl, rfl, rfl⟩
  units := ⟨rfl, rfl, rfl, rfl, rfl, rfl, rfl, rfl, rfl⟩
  pending := rfl

/-- DARK speaks of neither the tallies of the state before, nor the power, outputs and test port of the one after. -/
theorem Darkened.of_toDark {s u : State} {c : ResetCause} (h : Darkened s (u.toDark c) c.code) (p : PwrPart) (a : ActPart)
    (j : JtagPart) : Darkened s { u.toDark c with pwr := p, act := a, jtag := j } c.code :=
  ⟨h.phase, h.power, h.pfail, h.tide, h.hm, h.klp, h.kept, h.default, h.rtc, h.window, h.ring, h.anchor, h.slots, h.units, h.pending⟩

theorem toDark_counted (s : State) (k : Nat) (c : ResetCause) : Darkened s ((s.countTally k).toDark c) c.code :=
  have h := toDark_darkened (s.countTally k) c
  ⟨h.phase, h.power, h.pfail, h.tide, h.hm, h.klp, h.kept, h.default, h.rtc, h.window, h.ring, h.anchor, h.slots, h.units, h.pending⟩

theorem powerDieStart_dark (b : Bool) {s : State} (h1 : s.pwr.rails = false) (h2 : s.pwr.railHeld = false) :
    ∃ t, exec (.powerDieStart b) s = .next t ∧ Darkened s t 0 ∧ t.pwr.rails = true ∧ t.jtag.testEn = b :=
  ⟨_, congrArg Host.Outcome.next (if_neg (by simp [h1, h2])), (toDark_darkened s .powerUp).of_toDark _ _ _, rfl, rfl⟩

theorem sharedRailFault_dark {s : State} (h : s.pwr.rails = true) :
    ∃ t, exec .sharedRailFault s = .next t ∧ Darkened s t 0 ∧ t.pwr.rails = false ∧ t.pwr.railHeld = true ∧ t.pwr.padsOff = true ∧
      t.act.allOff = true ∧ t.jtag = s.jtag :=
  ⟨_, congrArg Host.Outcome.next (if_pos h), (toDark_darkened s .powerUp).of_toDark _ _ _, rfl, rfl, rfl, rfl, rfl⟩

theorem sharedRailRecovered_dark {s : State} (h : s.pwr.railHeld = true) :
    ∃ t, exec .sharedRailRecovered s = .next t ∧ Darkened s t 0 ∧ t.pwr.rails = true ∧
      t.nv.tallies = (s.countTally Reg.RAIL_RESETS).nv.tallies ∧ t.jtag = s.jtag :=
  ⟨_, congrArg Host.Outcome.next (if_pos h), toDark_counted s _ .powerUp, rfl, rfl, rfl⟩

theorem brownout_dark {s : State} (h1 : s.pfail = true) (h2 : s.pwr.rails = true) :
    ∃ t, exec .brownout s = .next t ∧ Darkened s t 0 ∧ t.nv.tallies = (s.countTally Reg.BROWNOUTS).nv.tallies ∧ t.jtag = s.jtag :=
  ⟨_, congrArg Host.Outcome.next (if_pos (by simp [h1, h2])), toDark_counted s _ .powerUp, rfl, rfl⟩

theorem exec_deviceReset {s : State} {d : Nat} (h : s.klp.resetDue = some d) (hd : d ≤ s.now) :
    exec .deviceReset s = .next (s.toDark .command) := by
  show execDeviceReset s = _
  unfold execDeviceReset
  rw [h]
  exact congrArg Host.Outcome.next (if_pos (Nat.ble_eq.mpr hd))

/-- The state in which the reset keys reset the device: KEY_RESET is on record and every queued record written (R505). -/
def State.keysRecorded (s : State) : State :=
  State.flushLog 257 (s.pushLog Lt.KEY_RESET [field (s.reg Reg.RESET_KEYS) 8 8, field (s.reg Reg.RESET_KEYS) 0 8])

theorem exec_keyReset {s : State} {t0 : Nat} (h : s.keys.both = some t0) (ht : t0 + 6 * clkSec ≤ s.now)
    (hk : s.resetKeysHeld = true) : exec .keyReset s = .next (s.keysRecorded.toDark .keys) := by
  have hw : s.waited t0 (6 * clkSec) = true := Nat.ble_eq.mpr ht
  show execKeyReset s = _
  unfold execKeyReset
  rw [h]
  exact congrArg Host.Outcome.next (if_pos (by simp [hw, hk]))

theorem keysRecorded_only (s : State) : OnlyIn [.klp, .log, .bus] [] s s.keysRecorded :=
  flushLog_only _ _ (by decide) (pushLog_only _ _ _ (by decide) .refl)

theorem keyReset_dark {s : State} {t0 : Nat} (h : s.keys.both = some t0) (ht : t0 + 6 * clkSec ≤ s.now)
    (hk : s.resetKeysHeld = true) :
    ∃ t, exec .keyReset s = .next t ∧ t.phase = .dark ∧ t.power = .full ∧ t.tide = Tide.reset ∧ t.klp.resetCause = 2 ∧
      t.nv.win = s.nv.win ∧ t.rtc = s.rtc ∧ t.pending = s.pending :=
  have hr := keysRecorded_only s
  ⟨_, exec_keyReset h ht hk, rfl, rfl, rfl, rfl, hr.pieces .window (by decide) (by decide),
    hr.pieces .rtc (by decide) (by decide), hr.pending⟩

/-- Settles O10: each way is a DARK entered from the state or from one with a tally counted. -/
theorem waysIntoDark : Obligations.WaysIntoDark :=
  ⟨fun b _ => powerDieStart_dark b, fun _ => sharedRailFault_dark, fun _ => sharedRailRecovered_dark, fun _ => brownout_dark,
    fun s _ h hd => ⟨_, exec_deviceReset h hd, toDark_darkened s .command, rfl, rfl⟩, fun _ _ => keyReset_dark⟩

/-! ### Tallies -/

theorem Tally.count_key (t : Tally) : t.count.key = t.key := by
  unfold Tally.count
  repeat' split
  all_goals rfl

/-- A count of one tally, as the list of all tallies has it: the others stay, and it is found counted. -/
theorem find_counted (l : List Tally) (k j : Nat) :
    (l.map fun t => if t.key == k then t.count else t).find? (fun t => t.key == j) =
      (l.find? fun t => t.key == j).map fun t => if j = k then t.count else t := by
  induction l with
  | nil => rfl
  | cons t l ih =>
    have hkey : (if t.key == k then t.count else t).key = t.key := by
      split
      · exact t.count_key
      · rfl
    rw [List.map_cons, List.find?_cons, List.find?_cons, hkey]
    by_cases hj : t.key = j
    · subst hj; simp
    · have hb : (t.key == j) = false := beq_eq_false_iff_ne.mpr hj
      rw [hb]
      exact ih

theorem countTally_tally (s : State) (k j : Nat) :
    (s.countTally k).nv.tally j = (s.nv.tally j).map fun t => if j = k then t.count else t := find_counted s.nv.tallies k j

/-- A tally that counts, and whose base does not pass its last value, rises by 1. -/
theorem Tally.count_value {t : Tally} (hf : t.frozen = false) (hi : t.incs ≤ 7) (hb : t.base + 8 < 2 ^ 48) :
    t.count.value = t.value + 1 := by
  unfold Tally.count Tally.value
  rw [hf]
  by_cases h : t.incs < 7
  · simp only [if_pos h, Bool.false_eq_true, if_false]; omega
  · simp only [if_neg h, Bool.false_eq_true, if_false, Nat.mod_eq_of_lt hb]; omega

/-- Settles O11: the counted tally is found with its value raised, every other as it was. -/
theorem tallyCounts : Obligations.TallyCounts := by
  intro s k y hy hf hi hb
  refine ⟨?_, fun j hj => ?_⟩
  · have hc : (s.countTally k).nv.tally k = some y.count := by rw [countTally_tally, hy]; simp
    unfold State.tallyValue
    rw [hc]
    exact Tally.count_value hf hi hb
  · rw [countTally_tally]
    simp [hj]

end Sys2Proof.Machine
end

section
/-!
PROOF. What counters read after a count; what the harbourmaster's shared operations do to the quays, the token and STORM (R222, R228, R237, R251): one rule for each.
-/
namespace Sys2Proof.Machine

/-! ### Counters -/

theorem satInc_lt (w v : Nat) : satInc w v < 2 ^ w := by
  have := Nat.two_pow_pos w
  unfold satInc
  split <;> omega

theorem satAdd_lt (w v n : Nat) : satAdd w v n < 2 ^ w := by
  have := Nat.two_pow_pos w
  unfold satAdd
  split <;> omega

/-- A saturating counter after a count. -/
theorem State.reg_incSat (s : State) (k : Nat) : (s.incSat k).reg k = satInc (keyBits k) (s.reg k) :=
  (State.reg_setReg_self _ _ _).trans (Nat.mod_eq_of_lt (satInc_lt _ _))

theorem State.reg_addSat (s : State) (k n : Nat) : (s.addSat k n).reg k = satAdd (keyBits k) (s.reg k) n :=
  (State.reg_setReg_self _ _ _).trans (Nat.mod_eq_of_lt (satAdd_lt _ _ _))

/-! ### Pairs -/

@[simp] theorem PerQuay.get_set_self {α : Type} (p : PerQuay α) (q : Quay) (v : α) : (p.set q v).get q = v := by cases q <;> rfl

@[simp] theorem PerQuay.get_set_other {α : Type} (p : PerQuay α) (q : Quay) (v : α) : (p.set q v).get q.other = p.get q.other := by
  cases q <;> rfl

@[simp] theorem PerBus.get_set_self {α : Type} (p : PerBus α) (c : Bus) (v : α) : (p.set c v).get c = v := by cases c <;> rfl

@[simp] theorem PerBus.get_set_other {α : Type} (p : PerBus α) (c : Bus) (v : α) : (p.set c v).get c.other = p.get c.other := by
  cases c <;> rfl

@[simp] theorem Quay.other_other (q : Quay) : q.other.other = q := by cases q <;> rfl

@[simp] theorem Quay.other_ne (q : Quay) : q.other ≠ q := by cases q <;> decide

/-- Of two quays each is the one or the other. -/
theorem Quay.eq_or_other (q r : Quay) : r = q ∨ r = q.other := by cases q <;> cases r <;> decide

variable {s t : State} {q : Quay}

@[simp] theorem quay_setQuay_self (u : QuayUnit) : (s.setQuay q u).quay q = u := PerQuay.get_set_self _ _ _

@[simp] theorem quay_setQuay_other (u : QuayUnit) : (s.setQuay q u).quay q.other = s.quay q.other := PerQuay.get_set_other _ _ _

@[simp] theorem chan_setChan_self (c : Bus) (x : Channel) : (s.setChan c x).chan c = x := PerBus.get_set_self _ _ _

@[simp] theorem chan_setChan_other (c : Bus) (x : Channel) : (s.setChan c x).chan c.other = s.chan c.other :=
  PerBus.get_set_other _ _ _

theorem quay_of_hm (h : t.hm = s.hm) (r : Quay) : t.quay r = s.quay r := by unfold State.quay; rw [h]

/-- What a frame says of the harbourmaster. -/
theorem OnlyIn.hm_eq {l : List Piece} {ks : List Nat} (h : OnlyIn l ks s t) (hl : l.contains .hm = false) : t.hm = s.hm :=
  h.pieces .hm (by decide) (by simpa using hl)

/-! ### What stands of the harbourmaster -/

/-- Held in reset for a self-test (R228). -/
def QuayUnit.fallen (u : QuayUnit) : Prop := u.st = .selfTest ∧ u.inReset = true

theorem QuayUnit.fallen.not_running {u : QuayUnit} (h : u.fallen) : u.running = false := by
  unfold QuayUnit.running
  simp [h.2]

/-- The vote fault and the mirror stand, and no standby becomes ready. -/
structure MirrorKept (h k : Hm) : Prop where
  vote   : k.voteFault = h.voteFault
  mirror : k.mirror = h.mirror
  bad    : k.mirrorBad = h.mirrorBad
  ready  : k.standbyReady = true → h.standbyReady = true

theorem MirrorKept.refl (h : Hm) : MirrorKept h h := ⟨rfl, rfl, rfl, id⟩

theorem MirrorKept.trans {h k m : Hm} (a : MirrorKept h k) (b : MirrorKept k m) : MirrorKept h m :=
  ⟨b.vote.trans a.vote, b.mirror.trans a.mirror, b.bad.trans a.bad, a.ready ∘ b.ready⟩

/-- The token, STORM and the takeover stand too, and each quay is as before or has fallen. -/
structure RolesKept (h k : Hm) : Prop where
  owner    : k.owner = h.owner
  storm    : k.storm = h.storm
  takeover : k.takeover = h.takeover
  quays    : ∀ r, k.quays.get r = h.quays.get r ∨ (k.quays.get r).fallen
  kept     : MirrorKept h k

theorem RolesKept.refl (h : Hm) : RolesKept h h := ⟨rfl, rfl, rfl, fun _ => .inl rfl, .refl h⟩

theorem RolesKept.of_eq {h k : Hm} (e : k = h) : RolesKept h k := e ▸ .refl h

theorem RolesKept.trans {h k m : Hm} (a : RolesKept h k) (b : RolesKept k m) : RolesKept h m where
  owner := b.owner.trans a.owner
  storm := b.storm.trans a.storm
  takeover := b.takeover.trans a.takeover
  quays r := by
    rcases b.quays r with hb | hb
    · rw [hb]; exact a.quays r
    · exact .inr hb
  kept := a.kept.trans b.kept

/-- A quay that has fallen stays so. -/
theorem RolesKept.fallen {h k : Hm} (a : RolesKept h k) {r : Quay} (hf : (h.quays.get r).fallen) : (k.quays.get r).fallen := by
  rcases a.quays r with e | e
  · rw [e]; exact hf
  · exact e

/-! ### Reload, and a popped entry -/

theorem reload_self (b : Bool) : ((s.reload q b).quay q).fallen := by
  unfold State.reload State.quay
  simp [QuayUnit.fallen]

theorem reload_other (b : Bool) : (s.reload q b).quay q.other = s.quay q.other := by
  unfold State.reload State.quay
  extract_lets u h0 h
  have hh : h.quays = s.hm.quays := by unfold h; split <;> rfl
  simp [hh]

theorem reload_roles (b : Bool) : RolesKept s.hm (s.reload q b).hm where
  owner := by unfold State.reload; dsimp only; split <;> rfl
  storm := by unfold State.reload; dsimp only; split <;> rfl
  takeover := by unfold State.reload; dsimp only; split <;> rfl
  quays r := by
    rcases Quay.eq_or_other q r with rfl | rfl
    · exact .inr (reload_self b)
    · exact .inl (reload_other b)
  kept := by
    unfold State.reload
    dsimp only
    split
    · exact ⟨rfl, rfl, rfl, fun h => nomatch h⟩
    · exact ⟨rfl, rfl, rfl, id⟩

/-- A popped entry leaves all but the fault stack. -/
theorem popFault_hm (s : State) (which : FaultEntry → Bool) (outcome : Nat) :
    (s.popFault which outcome).hm = { s.hm with
      stack := (s.popFault which outcome).hm.stack, last := (s.popFault which outcome).hm.last } := by
  unfold State.popFault
  split <;> rfl

theorem dropFault_hm (s : State) (which : FaultEntry → Bool) :
    (s.dropFault which).hm = { s.hm with stack := (s.dropFault which).hm.stack } := by
  unfold State.dropFault
  split <;> rfl

theorem pushLog_hm (s : State) (typ : Nat) (p : List Nat) : (s.pushLog typ p).hm = s.hm :=
  (pushLog_only (pl := [.log]) (pk := []) s typ p (by decide) .refl).hm_eq rfl

/-- A pushed entry goes on the stack, with the time of the push; the rest stands. -/
theorem pushEntry_hm (s : State) (cause detail quay level : Nat) :
    (s.pushEntry cause detail quay level).hm = { s.hm with
      stack := { detail := detail, cause := cause, quay := quay, level := level, outcome := 0, nested := !s.hm.stack.isEmpty,
                 tick := s.tick } :: s.hm.stack
      lastPush := some s.now } := pushLog_hm _ _ _

/-- A harbourmaster whose stack and times alone changed keeps the roles. -/
theorem RolesKept.of_stack {h k : Hm} (e : k = { h with stack := k.stack, last := k.last, lastPush := k.lastPush }) :
    RolesKept h k := by
  rw [e]
  exact ⟨rfl, rfl, rfl, fun _ => .inl rfl, rfl, rfl, rfl, id⟩

theorem popFault_roles (s : State) (which : FaultEntry → Bool) (outcome : Nat) :
    RolesKept s.hm (s.popFault which outcome).hm := .of_stack (by rw [popFault_hm])

theorem pushEntry_roles (s : State) (cause detail quay level : Nat) :
    RolesKept s.hm (s.pushEntry cause detail quay level).hm := .of_stack (by rw [pushEntry_hm])

/-! ### STORM entry -/

theorem reloadRunning_roles (s : State) (q : Quay) : RolesKept s.hm (s.reloadRunning q).hm := by
  unfold State.reloadRunning
  split
  · exact reload_roles _
  · exact .refl _

theorem slipRollback_hm (s : State) (reason : Nat) : (s.slipRollback reason).hm = s.hm :=
  (slipRollback_only (pl := [.klp, .log, .slip]) (pk := []) s reason (by decide) .refl).hm_eq rfl

theorem slipReject_hm (s : State) (st : Status) : (s.slipReject st).hm = s.hm :=
  (slipReject_only (pl := [.klp, .log, .slip]) (pk := []) s st (by decide) .refl).hm_eq rfl

theorem slipAbandon_roles (s : State) : RolesKept s.hm s.slipAbandon.hm := by
  unfold State.slipAbandon
  extract_lets p s1
  have h1 : s1.hm = s.hm := by unfold s1; split <;> rfl
  split
  · exact h1 ▸ reload_roles (s := s1) _
  · exact .of_eq h1

/-- What STORM entry does to an update reaches the quays alone (R533, R534). -/
theorem stormSlip_roles (s : State) : RolesKept s.hm s.stormSlip.hm := by
  unfold State.stormSlip State.slipStorm
  split
  · exact (RolesKept.of_eq (slipRollback_hm s 2)).trans ((reloadRunning_roles _ .a).trans (reloadRunning_roles _ .b))
  · split
    · rw [slipReject_hm]; exact slipAbandon_roles s
    · exact .refl _

theorem writeSalvage_roles (s : State) (writer trigger : Nat) : RolesKept s.hm (s.writeSalvage writer trigger).hm := by
  unfold State.writeSalvage
  extract_lets s1 seq v held h2 s2 s3
  have h3 : s3.hm = s2.hm := by unfold s3; split <;> rfl
  rw [pushLog_hm, h3]
  exact ⟨rfl, rfl, rfl, fun _ => .inl rfl, rfl, rfl, rfl, id⟩

theorem stormToken_mirror (s : State) (manual : Bool) (bad : Option Quay) : MirrorKept s.hm (s.stormToken manual bad).hm :=
  have h := (popFault_roles s (fun f => f.level == 2 && f.outcome == 0) 3).kept
  ⟨h.vote, h.mirror, h.bad, h.ready⟩

theorem intoStorm_of_reset {u : QuayUnit} (now : Nat) (h : u.inReset = true) : u.intoStorm now = u := by
  unfold QuayUnit.intoStorm
  rw [if_pos h]

/-- A quay at STORM entry: the one whose fault it is stands, any other takes its place in STORM. -/
theorem stormToken_quay (s : State) (manual : Bool) (bad : Option Quay) (r : Quay) :
    (s.stormToken manual bad).quay r = if bad = some r then s.quay r else (s.quay r).intoStorm s.now := by
  cases r <;> rfl

theorem stormOutputs_hm (s : State) : s.stormOutputs.hm = s.hm :=
  (stormOutputs_only (pl := [.klp, .bus, .loop, .act, .freeCtr]) (pk := [Reg.STORM_ENTRIES, Reg.TABLE_TAKEOVERS]) s (by decide)
    .refl).hm_eq rfl

theorem stormReport_hm (s : State) (cause : Nat) : (s.stormReport cause).hm = s.hm :=
  (stormReport_only (pl := [.klp, .log, .bus, .panel]) (pk := []) s cause (by decide) .refl).hm_eq rfl

/-- STORM entry, past its token, keeps the roles that the token gives. -/
theorem enterStorm_roles (h : s.storm = false) (cause : Nat) (bad : Option Quay) :
    RolesKept (s.stormToken (cause == causeManual) bad).hm (s.enterStorm cause bad).hm := by
  unfold State.enterStorm
  rw [if_neg (by simp [h])]
  have e : (((s.stormToken (cause == causeManual) bad).stormOutputs).stormReport cause).hm =
      (s.stormToken (cause == causeManual) bad).hm := (stormReport_hm _ _).trans (stormOutputs_hm _)
  exact (RolesKept.of_eq e).trans ((stormSlip_roles _).trans (writeSalvage_roles _ _ _))

theorem enterStorm_of_storm (h : s.storm = true) (cause : Nat) (bad : Option Quay) : s.enterStorm cause bad = s := if_pos h

theorem enterStorm_storm (cause : Nat) (bad : Option Quay) : (s.enterStorm cause bad).storm = true := by
  by_cases h : s.storm = true
  · rw [enterStorm_of_storm h]; exact h
  · exact (enterStorm_roles (Bool.eq_false_iff.mpr h) cause bad).storm.trans rfl

theorem enterStorm_owner (h : s.storm = false) (cause : Nat) (bad : Option Quay) : (s.enterStorm cause bad).hm.owner = none :=
  (enterStorm_roles h cause bad).owner

theorem enterStorm_mirror (s : State) (cause : Nat) (bad : Option Quay) : MirrorKept s.hm (s.enterStorm cause bad).hm := by
  by_cases h : s.storm = true
  · rw [enterStorm_of_storm h]; exact .refl _
  · exact (stormToken_mirror s _ bad).trans (enterStorm_roles (Bool.eq_false_iff.mpr h) cause bad).kept

/-- A quay after STORM entry: as before, in its place in STORM, or fallen. -/
theorem enterStorm_quay (s : State) (cause : Nat) (bad : Option Quay) (r : Quay) :
    (s.enterStorm cause bad).quay r = s.quay r ∨ (s.enterStorm cause bad).quay r = (s.quay r).intoStorm s.now ∨
      ((s.enterStorm cause bad).quay r).fallen := by
  by_cases h : s.storm = true
  · rw [enterStorm_of_storm h]; exact .inl rfl
  · rcases (enterStorm_roles (Bool.eq_false_iff.mpr h) cause bad).quays r with e | e
    · have ht := e.trans (stormToken_quay s _ bad r)
      by_cases hb : bad = some r
      · exact .inl (ht.trans (if_pos hb))
      · exact .inr (.inl (ht.trans (if_neg hb)))
    · exact .inr (.inr e)

/-- A quay that has fallen stays so in STORM. -/
theorem enterStorm_fallen {r : Quay} (h : (s.quay r).fallen) (cause : Nat) (bad : Option Quay) :
    ((s.enterStorm cause bad).quay r).fallen := by
  rcases enterStorm_quay s cause bad r with e | e | e
  · rw [e]; exact h
  · rw [e, intoStorm_of_reset _ h.2]; exact h
  · exact e

end Sys2Proof.Machine
end

section
/-!
PROOF. A quay's fault (R228, R237, R242 to R246), and the ways it is found: heartbeats, challenges, watchdogs, clocks, rails and
takeovers (R38, R41, R231 to R233, R238).
-/
namespace Sys2Proof.Machine

variable {s t : State} {q : Quay}

/-! ### A quay leaves service -/

theorem slipFault_hm (s : State) (q : Quay) : (s.slipFault q).hm = s.hm :=
  (slipFault_only (pl := [.klp, .log, .slip]) (pk := []) s q (by decide) .refl).hm_eq rfl

theorem leaveRc_hm (s : State) (q : Quay) : (s.leaveRc q).hm = s.hm :=
  (leaveRc_only (pl := [.tide]) (pk := []) s q (by decide) .refl).hm_eq rfl

/-- The token taken from a quay. -/
theorem revoke_hm (s : State) (q : Quay) :
    (s.revoke q).hm = { s.hm with owner := if s.hm.owner = some q then none else s.hm.owner } := by
  unfold State.revoke
  split <;> rfl

/-- A quay goes down: the token is taken from it, it falls, and the rest of the harbourmaster stands. -/
theorem quayDown_roles (s : State) (q : Quay) : ∃ u,
    RolesKept { s.hm with owner := if s.hm.owner = some q then none else s.hm.owner, quays := s.hm.quays.set q u } (s.quayDown q).hm := by
  unfold State.quayDown
  extract_lets h0 s1 u s2
  refine ⟨{ u with fails := u.fails ++ [s1.rtc.ticks] }, ?_⟩
  have h1 : s1.hm = { s.hm with owner := if s.hm.owner = some q then none else s.hm.owner } := by
    unfold s1
    rw [revoke_hm, slipFault_hm]
  have h2 : s2.hm = { s1.hm with quays := s1.hm.quays.set q { u with fails := u.fails ++ [s1.rtc.ticks] } } := rfl
  rw [h1] at h2
  rw [leaveRc_hm]
  exact (RolesKept.of_eq h2).trans (reload_roles _)

theorem quayDown_fallen (s : State) (q : Quay) : ((s.quayDown q).quay q).fallen := by
  unfold State.quayDown
  extract_lets s1 u s2
  rw [quay_of_hm (leaveRc_hm _ _)]
  exact reload_self _

theorem quayDown_other (s : State) (q : Quay) : (s.quayDown q).quay q.other = s.quay q.other := by
  unfold State.quayDown
  extract_lets s1 u s2
  rw [quay_of_hm (leaveRc_hm _ _), reload_other]
  have h1 : s1.hm = { s.hm with owner := if s.hm.owner = some q then none else s.hm.owner } := by
    unfold s1
    rw [revoke_hm, slipFault_hm]
  rw [show s2.quay q.other = s1.quay q.other from quay_setQuay_other _]
  unfold State.quay
  rw [h1]

theorem quayDown_owner (s : State) (q : Quay) : (s.quayDown q).hm.owner = if s.hm.owner = some q then none else s.hm.owner := by
  obtain ⟨u, h⟩ := quayDown_roles s q
  exact h.owner

theorem quayDown_owner_ne (s : State) (q : Quay) : (s.quayDown q).hm.owner ≠ some q := by
  rw [quayDown_owner]
  split
  · simp
  · assumption

theorem quayDown_storm (s : State) (q : Quay) : (s.quayDown q).storm = s.storm := by
  obtain ⟨u, h⟩ := quayDown_roles s q
  exact h.storm

/-! ### Failover -/

/-- What a failover from a quay leaves (R237, R240). -/
structure TakenOver (t : State) (q : Quay) (start : Nat) : Prop where
  storm     : t.storm = false
  owner     : t.hm.owner = some q.other
  active    : (t.quay q.other).st = .active
  irq       : bitAt t.klp.irq irqFailover = true
  takeover  : ∃ k, t.hm.takeover = some k ∧ k.dest = q.other ∧ k.start = start ∧ k.planned = false
  transfers : t.klp.transfers = []
  streams   : t.klp.streams = []

/-- The harbourmaster after a failover. -/
theorem failover_hm (s : State) (q : Quay) (cause start : Nat) :
    (s.failover q cause start).hm = { (s.quayDown q).hm with
      quays := (s.quayDown q).hm.quays.set q.other { s.quay q.other with st := .active }
      owner := some q.other, standbyReady := false
      takeover := some { dest := q.other, start := start, cause := cause, planned := false } } := by
  rw [← quayDown_other s q]
  unfold State.failover
  extract_lets s1 d u s2 h3 s3 s4 s5 k6
  have h5 : OnlyIn [.klp, .nv, .cal, .slip, .freeCtr] [Reg.FAILOVERS] s3 s5 :=
    endTransfers_only _ _ (by decide) (countTally_only _ _ (by decide) (countUp_only _ _ (by decide) (by decide) .refl))
  rw [State.raiseIrq_hm, pushLog_hm]
  exact h5.hm_eq rfl

theorem endTransfers_all (s : State) : (s.endTransfers fun _ => true).klp.transfers = [] :=
  List.filter_eq_nil_iff.mpr fun _ _ h => nomatch h

theorem failover_klp (s : State) (q : Quay) (cause start : Nat) : (s.failover q cause start).klp.transfers = [] ∧
    (s.failover q cause start).klp.streams = [] ∧ bitAt (s.failover q cause start).klp.irq irqFailover = true := by
  unfold State.failover
  extract_lets s1 d u s2 h3 s3 s4 s5 k6
  have hp (v : State) (p : List Nat) : (v.pushLog Lt.FAILOVER p).klp = v.klp :=
    (pushLog_only (pl := [.log]) (pk := []) v Lt.FAILOVER p (by decide) .refl).pieces .klp (by decide) (by decide)
  rw [State.raiseIrq_klp, hp]
  exact ⟨endTransfers_all s4, rfl, bitAt_bitOn_self _ _⟩

theorem failover_fallen (s : State) (q : Quay) (cause start : Nat) : ((s.failover q cause start).quay q).fallen := by
  have h : (s.failover q cause start).quay q = (s.quayDown q).quay q := by
    unfold State.quay
    rw [failover_hm]
    have := PerQuay.get_set_other (s.quayDown q).hm.quays q.other { s.quay q.other with st := .active }
    rwa [Quay.other_other] at this
  rw [h]
  exact quayDown_fallen s q

theorem failover_other (s : State) (q : Quay) (cause start : Nat) :
    (s.failover q cause start).quay q.other = { s.quay q.other with st := .active } := by
  unfold State.quay
  rw [failover_hm]
  exact PerQuay.get_set_self _ _ _

theorem failover_takenOver (h : s.storm = false) (q : Quay) (cause start : Nat) :
    TakenOver (s.failover q cause start) q start where
  storm := by
    unfold State.storm
    rw [failover_hm]
    exact (quayDown_storm s q).trans h
  owner := by rw [failover_hm]
  active := by rw [failover_other]
  irq := (failover_klp s q cause start).2.2
  takeover := ⟨{ dest := q.other, start := start, cause := cause, planned := false }, by rw [failover_hm], rfl, rfl, rfl⟩
  transfers := (failover_klp s q cause start).1
  streams := (failover_klp s q cause start).2.1

/-! ### The fault of a quay -/

/-- What the fault of a quay in service leaves, as `QuayFalls` says it. -/
structure Fell (s t : State) (q : Quay) (start : Nat) : Prop where
  fallen : (t.quay q).fallen
  owner  : t.hm.owner ≠ some q
  full   : 4 ≤ s.hm.stack.length → t.storm = true ∧ (s.storm = false → t.hm.owner = none)
  taken  : s.hm.stack.length < 4 → s.storm = false → (s.quay q).st = .active → s.duplex = true → s.hm.takeover = none →
    TakenOver t q start
  quiet  : s.hm.stack.length < 4 → s.storm = false → (s.quay q).st ≠ .active → (∀ k, s.hm.takeover = some k → k.dest ≠ q) →
    t.storm = false
  storm  : s.hm.stack.length < 4 → s.storm = false →
    ((s.quay q).st = .active ∧ (s.duplex = false ∨ s.hm.takeover ≠ none)) ∨ (∃ k, s.hm.takeover = some k ∧ k.dest = q) →
    t.storm = true ∧ t.hm.owner = none

theorem QuayFalls.of_fell {i : Instr} {start : Nat}
    (hf : ∃ t', exec i s = .next t' ∧ OnlyIn [.tide, .hm, .klp, .nv, .log, .bus, .loop, .act, .cal, .panel, .slip, .freeCtr]
      [Reg.FAILOVERS, Reg.HB_MISSES, Reg.SALVAGE_SUPPRESSED, Reg.STACK_OVERFLOWS, Reg.STORM_ENTRIES, Reg.TABLE_TAKEOVERS] s t')
    (he : exec i s = .next t) (h : Fell s t q start) : QuayFalls i s q start := by
  refine .of_only hf he ⟨h.fallen.1, h.fallen.2, h.owner, h.full, fun hl hs => ⟨fun ha hd hk => ?_, h.quiet hl hs, h.storm hl hs⟩⟩
  have ho := h.taken hl hs ha hd hk
  exact ⟨ho.storm, ho.owner, ho.active, ho.irq, ho.takeover, ho.transfers, ho.streams⟩

/-- The conditions under which a fault of a quay is not declared. -/
theorem quayFault_inService (h : s.inService q) :
    ¬ (s.pfail || (s.quay q).inReset || (s.quay q).st == .off || (s.quay q).st == .out) = true := by
  obtain ⟨hp, hr, ho, hx⟩ := h
  simp [hp, hr, ho, hx]

/-- A fault that found the stack full. -/
theorem quayFault_full (h : s.inService q) (hl : 4 ≤ s.hm.stack.length) (cause detail start : Nat) :
    s.quayFault q cause detail start = ((s.incSat Reg.STACK_OVERFLOWS).quayDown q).enterStorm causeStackFull (some q) := by
  unfold State.quayFault
  rw [if_neg (quayFault_inService h), if_pos hl]

theorem quayFault_inStorm (h : s.inService q) (hl : s.hm.stack.length < 4) (hs : s.storm = true) (cause detail start : Nat) :
    s.quayFault q cause detail start = ((s.pushEntry cause detail q.code 3).quayDown q).popFault
      (fun f => f.cause == cause && f.level == 3 && f.outcome == 0) 3 := by
  unfold State.quayFault
  rw [if_neg (quayFault_inService h), if_neg (by omega), if_pos hs]

/-- A takeover to this quay runs. -/
theorem taking_iff : (s.hm.takeover.any fun k => k.dest == q) = true ↔ ∃ k, s.hm.takeover = some k ∧ k.dest = q := by
  simp [Option.any_eq_true]

/-- A fault of a quay that neither has nor takes the token. -/
theorem quayFault_idle (h : s.inService q) (hl : s.hm.stack.length < 4) (hs : s.storm = false) (ha : (s.quay q).st ≠ .active)
    (hk : ¬ ∃ k, s.hm.takeover = some k ∧ k.dest = q) (cause detail start : Nat) :
    s.quayFault q cause detail start = ((s.pushEntry cause detail q.code 2).quayDown q).popFault
      (fun f => f.cause == cause && f.level == 2 && f.quay == q.code) 4 := by
  unfold State.quayFault
  rw [if_neg (quayFault_inService h), if_neg (by omega), if_neg (by simp [hs])]
  exact if_pos ⟨ha, Bool.eq_false_iff.mpr fun e => hk (taking_iff.mp e)⟩

/-- A fault of the active quay with a standby to fail over to. -/
theorem quayFault_over (h : s.inService q) (hl : s.hm.stack.length < 4) (hs : s.storm = false) (ha : (s.quay q).st = .active)
    (hd : s.duplex = true) (hk : s.hm.takeover = none) (cause detail start : Nat) :
    s.quayFault q cause detail start = (s.pushEntry cause detail q.code 2).failover q cause start := by
  unfold State.quayFault
  rw [if_neg (quayFault_inService h), if_neg (by omega), if_neg (by simp [hs])]
  dsimp only
  rw [if_neg (fun e => e.1 ha), if_pos ⟨hd, by rw [hk]; rfl⟩]

/-- A fault of the quay that has or takes the token, with none to fail over to. -/
theorem quayFault_storm (h : s.inService q) (hl : s.hm.stack.length < 4) (hs : s.storm = false)
    (hc : ((s.quay q).st = .active ∧ (s.duplex = false ∨ s.hm.takeover ≠ none)) ∨ (∃ k, s.hm.takeover = some k ∧ k.dest = q))
    (cause detail start : Nat) :
    s.quayFault q cause detail start = (((s.pushEntry cause detail q.code 3).quayDown q).enterStorm cause (some q)).popFault
      (fun f => f.cause == cause && f.level == 3 && f.outcome == 0) 3 := by
  have h1 : ¬ ((s.quay q).st ≠ .active ∧ (s.hm.takeover.any fun k => k.dest == q) = false) := by
    rintro ⟨ha, hk⟩
    rcases hc with hc | hc
    · exact ha hc.1
    · rw [taking_iff.mpr hc] at hk; cases hk
  have h2 : ¬ (s.duplex = true ∧ s.hm.takeover.isNone = true) := by
    rintro ⟨hd, hk⟩
    rw [Option.isNone_iff_eq_none] at hk
    rcases hc with ⟨-, hc | hc⟩ | ⟨k, hc, -⟩
    · rw [hd] at hc; cases hc
    · exact hc hk
    · rw [hk] at hc; cases hc
  unfold State.quayFault
  rw [if_neg (quayFault_inService h), if_neg (by omega), if_neg (by simp [hs])]
  dsimp only
  rw [if_neg h1, if_neg h2]

/-- The harbourmaster's own part of a push leaves what a fault asks of it. -/
theorem pushEntry_storm (s : State) (cause detail quay level : Nat) : (s.pushEntry cause detail quay level).storm = s.storm :=
  (pushEntry_roles s cause detail quay level).storm

/-- The token after STORM entry is with no quay that lost it before. -/
theorem enterStorm_owner_ne (cause : Nat) (bad : Option Quay) (h : s.hm.owner ≠ some q) :
    (s.enterStorm cause bad).hm.owner ≠ some q := by
  by_cases hs : s.storm = true
  · rw [enterStorm_of_storm hs]; exact h
  · rw [enterStorm_owner (Bool.eq_false_iff.mpr hs)]; simp

/-- The fault of a quay in service (R242 to R246). -/
theorem quayFault_fell (h : s.inService q) (cause detail start : Nat) : Fell s (s.quayFault q cause detail start) q start := by
  rcases Nat.lt_or_ge s.hm.stack.length 4 with hl | hl
  · have nfull : ¬ 4 ≤ s.hm.stack.length := by omega
    cases hs : s.storm with
    | true =>
      rw [quayFault_inStorm h hl hs]
      have hp := popFault_roles ((s.pushEntry cause detail q.code 3).quayDown q)
        (fun f => f.cause == cause && f.level == 3 && f.outcome == 0) 3
      refine ⟨hp.fallen (quayDown_fallen _ q), hp.owner ▸ quayDown_owner_ne _ q, fun e => absurd e nfull, ?_, ?_, ?_⟩ <;>
        exact fun _ e => nomatch hs.symm.trans e
    | false =>
      by_cases hi : (s.quay q).st ≠ .active ∧ ¬ ∃ k, s.hm.takeover = some k ∧ k.dest = q
      · obtain ⟨ha, hk⟩ := hi
        rw [quayFault_idle h hl hs ha hk]
        have hp := popFault_roles ((s.pushEntry cause detail q.code 2).quayDown q)
          (fun f => f.cause == cause && f.level == 2 && f.quay == q.code) 4
        refine ⟨hp.fallen (quayDown_fallen _ q), hp.owner ▸ quayDown_owner_ne _ q, fun e => absurd e nfull,
          fun _ _ e => absurd e ha, fun _ _ _ _ => ?_, fun _ _ hc => ?_⟩
        · exact hp.storm.trans ((quayDown_storm _ q).trans ((pushEntry_storm ..).trans hs))
        · exact absurd hc (not_or.mpr ⟨fun e => ha e.1, hk⟩)
      · by_cases ho : (s.quay q).st = .active ∧ s.duplex = true ∧ s.hm.takeover = none
        · obtain ⟨ha, hd, hk⟩ := ho
          rw [quayFault_over h hl hs ha hd hk]
          have ht := failover_takenOver ((pushEntry_storm s cause detail q.code 2).trans hs) q cause start
          refine ⟨failover_fallen _ q cause start, ?_, fun e => absurd e nfull, fun _ _ _ _ _ => ht, fun _ _ e => absurd ha e,
            fun _ _ hc => ?_⟩
          · rw [ht.owner]; simp
          · simp [hd, hk] at hc
        · have hc : ((s.quay q).st = .active ∧ (s.duplex = false ∨ s.hm.takeover ≠ none)) ∨
              ∃ k, s.hm.takeover = some k ∧ k.dest = q := by
            by_cases ha : (s.quay q).st = .active
            · by_cases hd : s.duplex = true
              · exact .inl ⟨ha, .inr fun e => ho ⟨ha, hd, e⟩⟩
              · exact .inl ⟨ha, .inl (Bool.eq_false_iff.mpr hd)⟩
            · exact .inr (Classical.not_not.mp fun e => hi ⟨ha, e⟩)
          rw [quayFault_storm h hl hs hc]
          generalize hd : (s.pushEntry cause detail q.code 3).quayDown q = d
          have hds : d.storm = false := by rw [← hd, quayDown_storm, pushEntry_storm, hs]
          have hp := popFault_roles (d.enterStorm cause (some q)) (fun f => f.cause == cause && f.level == 3 && f.outcome == 0) 3
          have hown := hp.owner.trans (enterStorm_owner hds cause (some q))
          refine ⟨hp.fallen (enterStorm_fallen (hd ▸ quayDown_fallen _ q) _ _), by rw [hown]; simp, fun e => absurd e nfull,
            fun _ _ ha hd hk => absurd ⟨ha, hd, hk⟩ ho, fun _ _ ha hk => ?_, fun _ _ _ => ?_⟩
          · exact absurd ⟨ha, fun ⟨k, e, he⟩ => hk k e he⟩ hi
          · exact ⟨hp.storm.trans (enterStorm_storm _ _), hown⟩
  · rw [quayFault_full h hl]
    generalize hd : (s.incSat Reg.STACK_OVERFLOWS).quayDown q = d
    have hds : d.storm = s.storm := by rw [← hd, quayDown_storm]; rfl
    have nroom : ¬ s.hm.stack.length < 4 := by omega
    refine ⟨enterStorm_fallen (hd ▸ quayDown_fallen _ q) _ _, enterStorm_owner_ne _ _ (hd ▸ quayDown_owner_ne _ q),
      fun _ => ⟨enterStorm_storm _ _, fun e => enterStorm_owner (hds.trans e) _ _⟩, ?_, ?_, ?_⟩ <;>
      exact fun e => absurd e nroom

end Sys2Proof.Machine
end

section
/-!
PROOF. Heartbeats and the other ways a quay's fault is found (R38, R41, R231 to R233, R238).
-/
namespace Sys2Proof.Machine

variable {s t : State} {q : Quay}

/-! ### Requests and strobes -/

/-- A heartbeat request as it reaches one quay. -/
def State.requestQuay (s : State) (q : Quay) : State :=
  if (s.quay q).running then s.setQuay q { s.quay q with requested := true } else s

theorem requestQuay_self (s : State) (q : Quay) :
    (s.requestQuay q).quay q = if (s.quay q).running then { s.quay q with requested := true } else s.quay q := by
  unfold State.requestQuay
  split
  · exact quay_setQuay_self _
  · rfl

theorem requestQuay_other (s : State) (q : Quay) : (s.requestQuay q).quay q.other = s.quay q.other := by
  unfold State.requestQuay
  split
  · exact quay_setQuay_other _
  · rfl

theorem exec_heartbeatRequest (s : State) : exec .heartbeatRequest s = .next ((s.requestQuay .a).requestQuay .b) := rfl

theorem heartbeatRequest_quay (s : State) (q : Quay) : ((s.requestQuay .a).requestQuay .b).quay q =
    if (s.quay q).running then { s.quay q with requested := true } else s.quay q := by
  have hb : (s.requestQuay .a).quay .b = s.quay .b := requestQuay_other s .a
  cases q with
  | a => exact (requestQuay_other (s.requestQuay .a) .b).trans (requestQuay_self s .a)
  | b => rw [requestQuay_self, hb]

theorem heartbeatStrobe_counted (h : (s.quay q).running = true) {at_ : Nat} (ha : 2250 ≤ at_ % 2500) :
    Does (.heartbeatStrobe q at_) s [.hm] [] fun t =>
      t.quay q = { s.quay q with counted := true, misses := 0, lastStrobe := at_, requested := false } ∧
        t.quay q.other = s.quay q.other := by
  refine ⟨_, congrArg Host.Outcome.next ((if_neg (by simp [h])).trans (if_pos ha)), setQuay_only _ _ _ (by decide) .refl, ?_⟩
  exact ⟨quay_setQuay_self _, quay_setQuay_other _⟩

theorem heartbeatStrobe_wild (h : (s.quay q).running = true) {at_ : Nat} (ha : at_ % 2500 < 2250) :
    Does (.heartbeatStrobe q at_) s [] [Reg.WILD_STROBES] fun t =>
      t.reg Reg.WILD_STROBES = satInc 32 (s.reg Reg.WILD_STROBES) := by
  refine ⟨_, congrArg Host.Outcome.next ((if_neg (by simp [h])).trans (if_neg (by omega))), incSat_only _ _ (by decide) .refl, ?_⟩
  exact s.reg_incSat Reg.WILD_STROBES

/-! ### The end of a window -/

/-- A quay's unit after a window without its strobe. -/
def QuayUnit.missed (u : QuayUnit) : QuayUnit := { u with misses := u.misses + 1, requested := false }

/-- A quay's unit after a window with its strobe. -/
def QuayUnit.beaten (u : QuayUnit) : QuayUnit := { u with counted := false, requested := false }

theorem windowEnd_stopped (h : (s.quay q).running = false) : s.windowEnd q = s := if_pos (by rw [h]; rfl)

theorem windowEnd_counted (h : (s.quay q).running = true) (hc : (s.quay q).counted = true) :
    s.windowEnd q = s.setQuay q (s.quay q).beaten := (if_neg (by rw [h]; decide)).trans (if_pos hc)

/-- What counting a miss leaves: the state in which a third one becomes a fault. -/
def State.missWindow (s : State) (q : Quay) : State := (s.setQuay q (s.quay q).missed).incSat Reg.HB_MISSES

theorem missWindow_only (s : State) (q : Quay) : OnlyIn [.hm] [Reg.HB_MISSES] s (s.missWindow q) :=
  incSat_only _ _ (by decide) (setQuay_only _ _ _ (by decide) .refl)

theorem windowEnd_missed (h : (s.quay q).running = true) (hc : (s.quay q).counted = false) (hm : (s.quay q).misses < 2) :
    s.windowEnd q = s.missWindow q :=
  (if_neg (by rw [h]; decide)).trans ((if_neg (by rw [hc]; decide)).trans (if_neg (by omega)))

theorem windowEnd_third (h : (s.quay q).running = true) (hc : (s.quay q).counted = false) (hm : 2 ≤ (s.quay q).misses) :
    s.windowEnd q = (s.missWindow q).quayFault q causeHeartbeat 3 (s.quay q).lastStrobe :=
  (if_neg (by rw [h]; decide)).trans ((if_neg (by rw [hc]; decide)).trans (if_pos (by omega)))

/-- A window that ends without a fault. -/
theorem windowEnd_quiet (h : (s.quay q).running = true → (s.quay q).counted = true ∨ (s.quay q).misses < 2) :
    (s.windowEnd q).quay q = (if (s.quay q).running = false then s.quay q
      else if (s.quay q).counted then (s.quay q).beaten else (s.quay q).missed) ∧
    (s.windowEnd q).quay q.other = s.quay q.other ∧ OnlyIn [.hm] [Reg.HB_MISSES] s (s.windowEnd q) := by
  by_cases hr : (s.quay q).running = true
  · rw [if_neg (by simp [hr])]
    by_cases hc : (s.quay q).counted = true
    · rw [windowEnd_counted hr hc, if_pos hc]
      exact ⟨quay_setQuay_self _, quay_setQuay_other _, setQuay_only _ _ _ (by decide) .refl⟩
    · rw [windowEnd_missed hr (Bool.eq_false_iff.mpr hc) ((h hr).resolve_left hc), if_neg hc]
      exact ⟨quay_setQuay_self _, quay_setQuay_other _, missWindow_only s q⟩
  · rw [windowEnd_stopped (Bool.eq_false_iff.mpr hr), if_pos (Bool.eq_false_iff.mpr hr)]
    exact ⟨rfl, rfl, .refl⟩

theorem heartbeatWindowEnd_quiet (hp : s.pfail = false)
    (h : ∀ q, (s.quay q).running = true → (s.quay q).counted = true ∨ (s.quay q).misses < 2) :
    Does .heartbeatWindowEnd s [.hm] [Reg.HB_MISSES] fun t => ∀ q, t.quay q =
      if (s.quay q).running = false then s.quay q
      else if (s.quay q).counted then { s.quay q with counted := false, requested := false }
      else { s.quay q with misses := (s.quay q).misses + 1, requested := false } := by
  obtain ⟨ha, hab, hfa⟩ := windowEnd_quiet (h .a)
  have hb' : (s.windowEnd .a).quay .b = s.quay .b := hab
  obtain ⟨hb, hba, hfb⟩ := windowEnd_quiet (s := s.windowEnd .a) (q := .b) (by rw [hb']; exact h .b)
  refine ⟨_, congrArg Host.Outcome.next (if_neg (by simp [hp])), hfa.trans hfb, fun q => ?_⟩
  cases q with
  | a => exact hba.trans ha
  | b => rw [hb, hb']; rfl

/-! ### A fault of one quay beside the window of the other -/

/-- What a fault asks of the state before it. -/
theorem Fell.of_before {s' : State} {start : Nat} (h : Fell s' t q start) (hk : s'.hm.stack = s.hm.stack) (hs : s'.storm = s.storm)
    (ht : s'.hm.takeover = s.hm.takeover) (hq : (s'.quay q).st = (s.quay q).st) (hd : s'.duplex = s.duplex) : Fell s t q start where
  fallen := h.fallen
  owner := h.owner
  full := by rw [← hk, ← hs]; exact h.full
  taken := by rw [← hk, ← hs, ← ht, ← hq, ← hd]; exact h.taken
  quiet := by rw [← hk, ← hs, ← ht, ← hq]; exact h.quiet
  storm := by rw [← hk, ← hs, ← ht, ← hq, ← hd]; exact h.storm

theorem TakenOver.of_after {u : QuayUnit} {start : Nat} (h : TakenOver t q start) (hu : u.st = (t.quay q.other).st) :
    TakenOver (t.setQuay q.other u) q start :=
  ⟨h.storm, h.owner, by rw [quay_setQuay_self, hu]; exact h.active, h.irq, h.takeover, h.transfers, h.streams⟩

theorem quay_setQuay_of_other (u : QuayUnit) : (t.setQuay q.other u).quay q = t.quay q := by
  have h := quay_setQuay_other (s := t) (q := q.other) u
  rwa [Quay.other_other] at h

/-- What a fault asks of the state after it. -/
theorem Fell.of_after {u : QuayUnit} {start : Nat} (h : Fell s t q start) (hu : u.st = (t.quay q.other).st) :
    Fell s (t.setQuay q.other u) q start where
  fallen := by rw [quay_setQuay_of_other]; exact h.fallen
  owner := h.owner
  full := h.full
  taken hl hs ha hd hk := (h.taken hl hs ha hd hk).of_after hu
  quiet := h.quiet
  storm := h.storm

/-- DUPLEX reads of a quay its state alone. -/
theorem duplex_setQuay {u : QuayUnit} (h : u.st = (s.quay q).st) : (s.setQuay q u).duplex = s.duplex := by
  have hst (r : Quay) : (s.setQuay q u).qst r = s.qst r := by
    rcases Quay.eq_or_other q r with rfl | rfl
    · exact (congrArg QuayUnit.st (quay_setQuay_self u)).trans h
    · exact congrArg QuayUnit.st (quay_setQuay_other u)
  unfold State.duplex
  rw [hst, hst]
  rfl

/-- A quay later in a course of faults: where it still runs, it ran before, and its strobe counts as before. -/
def QuayUnit.tracks (u v : QuayUnit) : Prop := v.running = true → u.running = true ∧ v.counted = u.counted

theorem QuayUnit.tracks.refl (u : QuayUnit) : u.tracks u := fun h => ⟨h, rfl⟩

theorem QuayUnit.tracks.of_fallen {u v : QuayUnit} (h : v.fallen) : u.tracks v := fun e => nomatch h.not_running.symm.trans e

theorem QuayUnit.tracks_intoStorm (u : QuayUnit) (now : Nat) : u.tracks (u.intoStorm now) := by
  unfold QuayUnit.intoStorm
  split
  · exact .refl u
  · split
    · next hr h =>
      refine fun _ => ⟨?_, rfl⟩
      unfold QuayUnit.running
      rcases h with h | h | h <;> simp [h, hr]
    · exact .refl u

/-- The standby beside an active quay in DUPLEX. -/
theorem duplex_other (hd : s.duplex = true) (ha : (s.quay q).st = .active) : (s.quay q.other).st = .standby := by
  have hq : s.qst q = .active := ha
  show s.qst q.other = .standby
  unfold State.duplex at hd
  cases q <;> simp_all [Quay.other]

theorem RolesKept.tracks {h k : Hm} (a : RolesKept h k) (r : Quay) : (h.quays.get r).tracks (k.quays.get r) := by
  rcases a.quays r with e | e
  · rw [e]; exact .refl _
  · exact .of_fallen e

/-- The other quay through a fault of one. -/
theorem quayFault_tracks (h : s.inService q) (cause detail start : Nat) :
    (s.quay q.other).tracks ((s.quayFault q cause detail start).quay q.other) := by
  have hpush (level : Nat) : ((s.pushEntry cause detail q.code level).quayDown q).quay q.other = s.quay q.other := by
    rw [quayDown_other]
    unfold State.quay
    rw [pushEntry_hm]
  have hstorm (d : State) (c : Nat) (hd : d.quay q.other = s.quay q.other) :
      (s.quay q.other).tracks ((d.enterStorm c (some q)).quay q.other) := by
    rw [← hd]
    rcases enterStorm_quay d c (some q) q.other with e | e | e
    · rw [e]; exact .refl _
    · rw [e]; exact QuayUnit.tracks_intoStorm _ _
    · exact .of_fallen e
  unfold State.quayFault
  extract_lets u taking s1
  rw [if_neg (quayFault_inService h)]
  split
  · exact hstorm _ _ (quayDown_other (s.incSat Reg.STACK_OVERFLOWS) q)
  · split
    · have hp := (popFault_roles ((s.pushEntry cause detail q.code 3).quayDown q)
        (fun f => f.cause == cause && f.level == 3 && f.outcome == 0) 3).tracks q.other
      rw [← hpush 3]; exact hp
    · split
      · have hp := (popFault_roles ((s.pushEntry cause detail q.code 2).quayDown q)
          (fun f => f.cause == cause && f.level == 2 && f.quay == q.code) 4).tracks q.other
        rw [← hpush 2]; exact hp
      · split
        · next ht hd =>
          have ha : (s.quay q).st = .active := by
            refine Classical.not_not.mp fun e => ht ⟨e, ?_⟩
            simp only [taking, Option.isNone_iff_eq_none.mp hd.2]
            rfl
          have ho : (s.quay q.other).st = .standby := duplex_other hd.1 ha
          rw [failover_other]
          have hq : (s.pushEntry cause detail q.code 2).quay q.other = s.quay q.other := by
            unfold State.quay
            rw [pushEntry_hm]
          rw [hq]
          intro hr
          refine ⟨?_, rfl⟩
          unfold QuayUnit.running at hr ⊢
          simpa [ho] using hr
        · have hs1 : (s.quay q.other).tracks ((s1.enterStorm cause (some q)).quay q.other) := hstorm _ _ (hpush 3)
          have hp := (popFault_roles (s1.enterStorm cause (some q)) (fun f => f.cause == cause && f.level == 3 && f.outcome == 0) 3)
          rcases hp.quays q.other with e | e
          · unfold State.quay
            rw [e]; exact hs1
          · exact .of_fallen e

/-- The third miss in a row of a quay in service. -/
theorem windowEnd_fell (h : s.inService q) (hr : (s.quay q).running = true) (hc : (s.quay q).counted = false)
    (hm : 2 ≤ (s.quay q).misses) : Fell s (s.windowEnd q) q (s.quay q).lastStrobe := by
  have hq : (s.missWindow q).quay q = (s.quay q).missed := quay_setQuay_self _
  have hsv : (s.missWindow q).inService q := by
    obtain ⟨hp, h1, h2, h3⟩ := h
    unfold State.inService
    rw [hq]
    exact ⟨hp, h1, h2, h3⟩
  rw [windowEnd_third hr hc hm]
  exact (quayFault_fell hsv causeHeartbeat 3 _).of_before rfl rfl rfl (by rw [hq]; rfl) (duplex_setQuay rfl)

/-- The third miss in a row of Quay A ends its window; that of Quay B brings no fault. -/
theorem heartbeatWindowEnd_fell (h : s.inService q) (hr : (s.quay q).running = true) (hc : (s.quay q).counted = false)
    (hm : 2 ≤ (s.quay q).misses) (ho : (s.quay q.other).running = true → (s.quay q.other).counted = true) :
    Fell s ((s.windowEnd .a).windowEnd .b) q (s.quay q).lastStrobe := by
  cases q with
  | a =>
    have hf := windowEnd_fell h hr hc hm
    have ht : (s.quay .b).tracks ((s.windowEnd .a).quay .b) := by
      rw [windowEnd_third hr hc hm]
      have hq : (s.missWindow .a).quay .a = (s.quay .a).missed := quay_setQuay_self _
      have hb : (s.missWindow .a).quay .b = s.quay .b := quay_setQuay_other _
      refine hb ▸ quayFault_tracks ?_ causeHeartbeat 3 (s.quay .a).lastStrobe
      obtain ⟨hp, h1, h2, h3⟩ := h
      unfold State.inService
      rw [hq]
      exact ⟨hp, h1, h2, h3⟩
    by_cases hb : ((s.windowEnd .a).quay .b).running = true
    · obtain ⟨hrun, hcount⟩ := ht hb
      rw [windowEnd_counted hb (hcount.trans (ho hrun))]
      exact hf.of_after rfl
    · rwa [windowEnd_stopped (Bool.eq_false_iff.mpr hb)]
  | b =>
    by_cases ha : (s.quay .a).running = true
    · rw [windowEnd_counted ha (ho ha)]
      have hb : (s.setQuay .a (s.quay .a).beaten).quay .b = s.quay .b := quay_setQuay_other _
      rw [← hb] at hr hc hm ⊢
      refine (windowEnd_fell ?_ hr hc hm).of_before rfl rfl rfl (congrArg _ hb) (duplex_setQuay rfl)
      unfold State.inService
      rwa [hb]
    · rw [windowEnd_stopped (Bool.eq_false_iff.mpr ha)]
      exact windowEnd_fell h hr hc hm

/-- Settles O25: heartbeats of the quays (R231), the third miss through the rule of a quay's fault. -/
theorem heartbeats : Obligations.Heartbeats := by
  refine ⟨fun s => ?_, fun q at_ s h => ⟨heartbeatStrobe_counted h, heartbeatStrobe_wild h⟩,
    fun s => heartbeatWindowEnd_quiet, fun q s h hr hc hm ho => ?_⟩
  · exact .of_only (execHeartbeatRequest_only s (by decide) .refl) (exec_heartbeatRequest s) (heartbeatRequest_quay s)
  · exact .of_fell (execHeartbeatWindowEnd_only s (by decide) .refl)
      (congrArg Host.Outcome.next (if_neg (by rw [h.1]; decide))) (heartbeatWindowEnd_fell h hr hc hm ho)

/-! ### Challenges, watchdogs, clocks, rails and takeovers -/

theorem selfCheckResponse_right {v c : Nat} (h : (s.quay q).challenge = some c)
    (hv : v % 2 ^ 32 = Config.coreTest c % 2 ^ 32) :
    exec (.selfCheckResponse q v) s = .next (s.setQuay q { s.quay q with challenge := none }) := by
  refine congrArg Host.Outcome.next ?_
  rw [h]
  exact if_pos hv

theorem selfCheckResponse_wrong {v c : Nat} (h : (s.quay q).challenge = some c)
    (hv : v % 2 ^ 32 ≠ Config.coreTest c % 2 ^ 32) :
    exec (.selfCheckResponse q v) s = .next (s.quayFault q causeSelfCheck 0 s.now) := by
  refine congrArg Host.Outcome.next ?_
  rw [h]
  exact if_neg hv

theorem selfCheckTimeout_fault {c : Nat} (h : (s.quay q).challenge = some c) :
    exec (.selfCheckTimeout q) s = .next (s.quayFault q causeSelfCheck 0 s.now) :=
  congrArg Host.Outcome.next (if_pos (by rw [h]; rfl))

theorem watchdogExpiry_fault (h : (s.quay q).running = true)
    (hw : (s.quay q).wdStart + s.reg Reg.WATCHDOG_TIMEOUT * clkMs ≤ s.now) :
    exec (.watchdogExpiry q) s = .next (s.quayFault q causeWatchdog 0 s.now) :=
  congrArg Host.Outcome.next (if_pos (by rw [h, Bool.true_and]; exact Nat.ble_eq.mpr hw))

theorem takeoverTimeout_fault {k : Takeover} (h : s.hm.takeover = some k) (hk : k.planned = false) :
    exec .takeoverTimeout s = .next (s.quayFault k.dest causeTakeover 0 s.now) := by
  refine congrArg Host.Outcome.next ?_
  rw [h]
  exact if_neg (by simp [hk])

/-- Settles O26: each of these ways ends in the one rule of a quay's fault (R242). -/
theorem quayFaults : Obligations.QuayFaults := by
  refine ⟨fun q v c s hc => ⟨fun hv => ?_, fun h hv => ?_, fun h => ?_⟩, fun q s hr => ⟨?_, fun h hw => ?_⟩,
    fun q s h => ⟨?_, ?_⟩, fun k s hk hp h => ?_⟩
  · exact ⟨_, selfCheckResponse_right hc hv, setQuay_only _ _ _ (by decide) .refl,
      quay_setQuay_self _, quay_setQuay_other _⟩
  · exact .of_fell (execSelfCheckResponse_only q v s (by decide) .refl) (selfCheckResponse_wrong hc hv) (quayFault_fell h _ _ _)
  · exact .of_fell (execSelfCheckTimeout_only q s (by decide) .refl) (selfCheckTimeout_fault hc) (quayFault_fell h _ _ _)
  · exact .of_only (execWatchdogRestart_only q s (by decide) .refl) (congrArg Host.Outcome.next (if_pos hr))
      ⟨quay_setQuay_self _, quay_setQuay_other _⟩
  · exact .of_fell (execWatchdogExpiry_only q s (by decide) .refl) (watchdogExpiry_fault hr hw) (quayFault_fell h _ _ _)
  · exact .of_fell (execQuayClockFault_only q s (by decide) .refl) rfl (quayFault_fell h _ _ _)
  · exact .of_fell (execQuayRailFault_only q s (by decide) .refl) rfl (quayFault_fell h _ _ _)
  · exact .of_fell (execTakeoverTimeout_only s (by decide) .refl) (takeoverTimeout_fault hk hp) (quayFault_fell h _ _ _)

end Sys2Proof.Machine
end

section
/-!
PROOF. Takeover, memory errors and the vote (R237, R238): why `LAST_OUTAGE` may lie above `MAX_OUTAGE` where an entry holds a value
beyond its width.
-/
namespace Sys2Proof.Machine

variable {s : State}

/-- The programs of a list evaluated. -/
def State.evalProgramList (s : State) (ps : List Nat) : State :=
  ps.foldl (fun t p => t.setReg (Reg.PROG_VALUE p) ((t.progValueNow p).getD 0xFF)) s

theorem evalProgramList_reg {k : Nat} (hk : ∀ p, k ≠ Reg.PROG_VALUE p) (ps : List Nat) (s : State) :
    (s.evalProgramList ps).reg k = s.reg k := by
  unfold State.evalProgramList
  induction ps generalizing s with
  | nil => rfl
  | cons p ps ih => rw [List.foldl_cons, ih, State.reg_setReg_ne _ (hk p)]

theorem evalPrograms_regs (s : State) : s.evalPrograms.regs = (s.evalProgramList (List.range 32)).regs := by
  unfold State.evalPrograms State.evalProgramList
  generalize List.range 32 = ps
  rfl

/-- Programs change their own values alone of the entries. -/
theorem evalPrograms_reg {k : Nat} (hk : ∀ p, k ≠ Reg.PROG_VALUE p) (s : State) : s.evalPrograms.reg k = s.reg k :=
  (State.reg_congr (evalPrograms_regs s) k).trans (evalProgramList_reg hk _ s)

/-- The outage of a failover in the entries: it is kept, and the largest so far is cut to its width. -/
theorem setOutage_reg (s : State) (ns : Nat) : (s.setOutage ns).reg Reg.LAST_OUTAGE = ns % 2 ^ 32 ∧
    (s.setOutage ns).reg Reg.MAX_OUTAGE = max (s.reg Reg.MAX_OUTAGE) (ns % 2 ^ 32) % 2 ^ 32 := by
  have hb : keyBits Reg.LAST_OUTAGE = 32 ∧ keyBits Reg.MAX_OUTAGE = 32 := ⟨rfl, rfl⟩
  have hne : Reg.MAX_OUTAGE ≠ Reg.LAST_OUTAGE := by decide
  unfold State.setOutage
  extract_lets s1
  have hl : s1.reg Reg.LAST_OUTAGE = ns % 2 ^ 32 := by
    unfold s1
    rw [State.reg_setReg_self, hb.1]
  have hm : s1.reg Reg.MAX_OUTAGE = s.reg Reg.MAX_OUTAGE := State.reg_setReg_ne _ hne
  exact ⟨(State.reg_setReg_ne _ hne.symm).trans hl, by rw [State.reg_setReg_self, hb.2, hl, hm]⟩

/-- A state after `TAKEOVER_COMPLETE`, as its restored checkpoint leaves it: what the new active pilot computes at once. -/
def State.resumed (s : State) : State := (((s.evalPrograms.resumeTick).drainFifo .one).drainFifo .two).dueHeartbeat

theorem evalPrograms_hm (s : State) : s.evalPrograms.hm = s.hm :=
  (evalPrograms_only (pl := [.regs, .loop]) (pk := []) s (by decide) .refl).hm_eq rfl

theorem evalPrograms_tick (s : State) : s.evalPrograms.tick = s.tick := by
  have h : OnlyIn [.regs, .loop] [] s s.evalPrograms := evalPrograms_only s (by decide) .refl
  have hn : s.evalPrograms.now = s.now := congrArg Tide.t64 (h.pieces .tide (by decide) (by decide))
  have htick : s.evalPrograms.reg Reg.EPOCH_TICK = s.reg Reg.EPOCH_TICK := evalPrograms_reg (fun p => by unfold Reg.EPOCH_TICK Reg.PROG_VALUE; omega) s
  have ht64 : s.evalPrograms.reg Reg.EPOCH_T64 = s.reg Reg.EPOCH_T64 := evalPrograms_reg (fun p => by unfold Reg.EPOCH_T64 Reg.PROG_VALUE; omega) s
  have hrate : s.evalPrograms.reg Reg.RATE_ACTIVE = s.reg Reg.RATE_ACTIVE := evalPrograms_reg (fun p => by unfold Reg.RATE_ACTIVE Reg.PROG_VALUE; omega) s
  unfold State.tick State.epochClocks State.rate
  rw [hn, htick, ht64, hrate]

/-- A pilot whose checkpoint is of the tick in progress computes no loop. -/
theorem resumeTick_of_tick {m : Checkpoint} (hm : s.hm.mirror = some m) (ht : m.tick = s.tick) : s.resumeTick = s := by
  unfold State.resumeTick
  rw [hm]
  exact if_pos ht

/-- Resuming a tick that the checkpoint covers leaves the largest outage as it was. -/
theorem resumed_maxOutage {m : Checkpoint} (hm : s.hm.mirror = some m) (ht : m.tick = s.tick) :
    s.resumed.reg Reg.MAX_OUTAGE = s.reg Reg.MAX_OUTAGE := by
  have hr : s.evalPrograms.resumeTick = s.evalPrograms :=
    resumeTick_of_tick (by rw [evalPrograms_hm]; exact hm) (ht.trans (evalPrograms_tick s).symm)
  have hf : OnlyIn [.klp, .bus] [] s.evalPrograms s.resumed := by
    unfold State.resumed
    rw [hr]
    exact dueHeartbeat_only _ (by decide) (drainFifo_only _ _ (by decide) (drainFifo_only _ _ (by decide) .refl))
  exact (hf.entries (by decide) _ (by decide)).trans
    (evalPrograms_reg (fun p => by unfold Reg.MAX_OUTAGE Reg.PROG_VALUE; omega) s)

/-- What `TAKEOVER_COMPLETE` does once the loops have resumed. -/
def State.takeoverDone (s : State) (k : Takeover) (ns : Nat) : State :=
  let t := (s.setOutage ns).popFault (fun f => f.level == 2 && f.outcome == 0) 2
  (t.countAsSwap k.dest).alarmOf 0x2050 1 (rdivN (t.reg Reg.LAST_OUTAGE) 1000) t.hmStatus

theorem takeoverDone_reg (s : State) (k : Takeover) (ns j : Nat) : (s.takeoverDone k ns).reg j = (s.setOutage ns).reg j := by
  unfold State.takeoverDone
  extract_lets t
  have h : OnlyIn [.hm, .klp, .log, .bus, .slip] [] (s.setOutage ns)
      ((t.countAsSwap k.dest).alarmOf 0x2050 1 (rdivN (t.reg Reg.LAST_OUTAGE) 1000) t.hmStatus) :=
    alarmOf_only _ _ _ _ _ (by decide) (countAsSwap_only _ _ (by decide) (popFault_only _ _ _ (by decide) .refl))
  exact h.entries (by decide) j (List.not_mem_nil)

/-- The harbourmaster and the loops as the checkpoint and the end of the takeover leave them. -/
def State.takeoverHm (s : State) : State :=
  (s.restoreCheckpoint s.hm.mirror).withHm { s.hm with
    takeover := none, salvageIn := if s.reg Reg.SALVAGE_ON_FAILOVER = 1 then some 10 else none }

theorem exec_takeoverComplete {k : Takeover} (hk : s.hm.takeover = some k) (hp : k.planned = false) (at_ : Nat) :
    exec (.takeoverComplete at_) s = .next (s.takeoverHm.resumed.takeoverDone k ((at_ - k.start) * 20)) := by
  have hx : exec (.takeoverComplete at_) s = execTakeoverComplete at_ s := rfl
  rw [hx]
  unfold execTakeoverComplete
  rw [hk]
  dsimp only
  rw [if_neg (by rw [hp]; decide)]
  rfl

/-- A state after reset with a takeover running, a checkpoint of the tick in progress, and an entry whose value does not fit its 32 bits. -/
def wideOutage : State :=
  { State.reset with
    regs := [(Reg.MAX_OUTAGE, 2 ^ 32)]
    hm := { State.reset.hm with
      takeover := some { dest := .b, start := 0, cause := causeHeartbeat, planned := false }
      mirror := some { tick := 0, seq := 0, length := 0, txq := [], loops := [], t64 := 0 } } }

/-- Refutes O27: its first clause asks `LAST_OUTAGE` ≤ `MAX_OUTAGE` of every state, sound or not. In `wideOutage` the largest outage is kept as
2^32; an outage of one clock (20 ns) cuts it to 0. -/
theorem not_takeoverAndVote : ¬ Obligations.TakeoverAndVote := by
  intro ⟨h, _⟩
  obtain ⟨t, he, -, -, -, -, -, hle⟩ := h { dest := .b, start := 0, cause := causeHeartbeat, planned := false } 1 wideOutage rfl rfl
  rw [← Host.Outcome.next.inj ((exec_takeoverComplete rfl rfl 1).symm.trans he)] at hle
  have hm : wideOutage.takeoverHm.resumed.reg Reg.MAX_OUTAGE = 2 ^ 32 := resumed_maxOutage rfl rfl
  rw [takeoverDone_reg, takeoverDone_reg, (setOutage_reg _ _).1, (setOutage_reg _ _).2, hm] at hle
  exact absurd hle (by decide)

end Sys2Proof.Machine
end

section
/-!
PROOF. Outputs, fans and tachs as they read after a change (R292, R315, R321); the wharf and the checkpoints (R221, R225, R234, R235).
-/
namespace Sys2Proof.Machine

variable {s t : State}

/-! ### Outputs, fans and tachs -/

theorem getD_set_self {α : Type} {l : List α} {i : Nat} (h : i < l.length) (v d : α) : (l.set i v).getD i d = v := by
  simp [List.getD_eq_getElem?_getD, h]

theorem getD_set_ne {α : Type} {l : List α} {i j : Nat} (h : j ≠ i) (v d : α) : (l.set i v).getD j d = l.getD j d := by
  simp [List.getD_eq_getElem?_getD, List.getElem?_set_ne h.symm]

theorem fan_setFan_self {c : Nat} (h : c < s.act.fans.length) (f : FanUnit) : (s.setFan c f).fan c = f := getD_set_self h _ _

theorem fans_setFan (c : Nat) (f : FanUnit) : (s.setFan c f).act.fans.length = s.act.fans.length := List.length_set

theorem out_setOut_self {i : Nat} (h : i < s.act.outs.length) (o : OutUnit) : (s.setOut i o).out i = o := getD_set_self h _ _

theorem out_setOut_ne {i j : Nat} (h : j ≠ i) (o : OutUnit) : (s.setOut i o).out j = s.out j := getD_set_ne h _ _

theorem tach_setTach_self {k : Nat} (h : k < s.act.tachs.length) (u : TachUnit) : (s.setTach k u).tach k = u := getD_set_self h _ _

theorem tach_setTach_ne {k j : Nat} (h : j ≠ k) (u : TachUnit) : (s.setTach k u).tach j = s.tach j := getD_set_ne h _ _

theorem fan_of_fans (h : t.act.fans = s.act.fans) (c : Nat) : t.fan c = s.fan c := by unfold State.fan; rw [h]

theorem OnlyIn.act_eq {l : List Piece} {ks : List Nat} (h : OnlyIn l ks s t) (hl : l.contains .act = false) : t.act = s.act :=
  h.pieces .act (by decide) (by simpa using hl)

/-- Clearing the edge counts of a channel's tachs leaves the channels. -/
theorem clearTugEdges_fans (s : State) (c : Nat) : (s.clearTugEdges c).act.fans = s.act.fans := by
  unfold State.clearTugEdges
  generalize s.boundTachs c = ks
  induction ks generalizing s with
  | nil => rfl
  | cons k ks ih => rw [List.foldl_cons, ih]; rfl

theorem startTug_fan {c : Nat} (h : c < s.act.fans.length) (attempt : Nat) (retry : Bool) : (s.startTug c attempt retry).fan c =
    { s.fan c with st := .tug, attempt := attempt, retry := retry, retug := false, short := false } :=
  (fan_of_fans (clearTugEdges_fans _ _) c).trans (fan_setFan_self h _)

theorem endShort_fan {c : Nat} (h : c < s.act.fans.length) : (s.endShort c).fan c = { s.fan c with short := false } := by
  have hset := fan_setFan_self h { s.fan c with short := false }
  unfold State.endShort
  extract_lets f s1
  split
  · have ha : OnlyIn [.klp, .bus] [] s1 (s1.alarmOf (0x2010 + c) 0 f.iout (s1.fanStatus c)) :=
      alarmOf_only _ _ _ _ _ (by decide) .refl
    rw [fan_of_fans (congrArg ActPart.fans (ha.act_eq rfl))]
    exact hset
  · exact hset

/-- A command of a fan channel is kept, whatever state the channel is in (R315). -/
theorem commandFan_cmd {c : Nat} (h : c < s.act.fans.length) (mv : Nat) : ((s.commandFan c mv).fan c).cmd = mv := by
  unfold State.commandFan
  extract_lets f u g
  split
  · rw [endShort_fan (by rwa [fans_setFan]), fan_setFan_self h]
  · split
    · split
      · rw [startTug_fan (by rwa [fans_setFan]), fan_setFan_self h]
      · rw [fan_setFan_self h]
    · split <;> rw [fan_setFan_self h]

/-! ### The wharf -/

theorem exec_wharfWrite_taken {q : Quay} {o : Nat} (h : s.wharfTakes q o = true) (v : Nat) :
    exec (.wharfWrite q o v) s = .next (s.wharfPut o v) := congrArg Host.Outcome.next (if_pos h)

/-- A write of the wharf that takes no effect is counted and dropped. -/
theorem wharfWrite_dropped {q : Quay} {o : Nat} (h : s.wharfTakes q o = false) (v : Nat) :
    Does (.wharfWrite q o v) s [] [Reg.WHARF_REJECTS] fun t => t.reg Reg.WHARF_REJECTS = satInc 32 (s.reg Reg.WHARF_REJECTS) :=
  ⟨_, congrArg Host.Outcome.next (if_neg (by rw [h]; decide)), incSat_only _ _ (by decide) .refl, s.reg_incSat Reg.WHARF_REJECTS⟩

theorem wharfTakes_output {q : Quay} {o : Nat} (hq : s.hm.owner = some q) (hs : s.storm = false) (hp : s.pfail = false) (ho : o < 16) :
    s.wharfTakes q o = true := by
  have h18 : o < 18 := by omega
  have h16 : Nat.ble 16 o = false := by
    rw [← Bool.not_eq_true, Nat.ble_eq]
    omega
  unfold State.wharfTakes
  rw [hs, hp]
  simp [hq, Nat.blt_eq, h18, h16]

theorem wharfTakes_fan {q : Quay} {c : Nat} (hq : s.hm.owner = some q) (hs : s.storm = false) (hp : s.pfail = false) (hc : c < 2)
    (he : (s.engine c).held = false) : s.wharfTakes q (16 + c) = true := by
  have h18 : 16 + c < 18 := by omega
  unfold State.wharfTakes
  rw [hs, hp, Nat.add_sub_cancel_left, he]
  simp [hq, Nat.blt_eq, h18]

theorem wharfTakes_none {q : Quay} {o : Nat} (h : 18 ≤ o ∨ s.hm.owner ≠ some q ∨ s.storm = true) : s.wharfTakes q o = false := by
  unfold State.wharfTakes
  rcases h with h | h | h
  · have : Nat.blt o 18 = false := by rw [← Bool.not_eq_true, Nat.blt_eq]; omega
    simp [this]
  · simp [h]
  · simp [h]

/-! ### Checkpoints -/

theorem recordFault_mirror (s : State) (cause detail : Nat) (q : Option Quay) : MirrorKept s.hm (s.recordFault cause detail q).hm := by
  unfold State.recordFault
  split
  · exact .refl _
  · split
    · exact enterStorm_mirror (s.incSat Reg.STACK_OVERFLOWS) _ _
    · exact (pushEntry_roles s cause detail (quayCode q) 0).kept.trans (popFault_roles _ _ _).kept

/-- The tick reads three entries and the time. -/
theorem tick_setReg {k : Nat} (hk : k ≠ Reg.EPOCH_TICK ∧ k ≠ Reg.EPOCH_T64 ∧ k ≠ Reg.RATE_ACTIVE) (v : Nat) :
    (s.setReg k v).tick = s.tick := by
  unfold State.tick State.epochClocks State.rate
  rw [State.reg_setReg_ne _ hk.1.symm, State.reg_setReg_ne _ hk.2.1.symm, State.reg_setReg_ne _ hk.2.2.symm]
  rfl

theorem tick_lt (s : State) : s.tick < 2 ^ 32 := Nat.mod_lt _ (by decide)

/-- A mirror that a good checkpoint renews; DUPLEX holds where the quay is STANDBY. -/
def Hm.mirrored (h : Hm) (k : Checkpoint) (standby : Bool) : Hm :=
  { h with mirror := some k, mirrorBad := 0, standbyReady := h.standbyReady || standby }

/-- A good checkpoint with no takeover running. -/
theorem goodCheckpoint_idle {q : Quay} (h : s.hm.takeover = none) (len : Nat) : s.goodCheckpoint q len =
    (s.withHm (s.hm.mirrored (s.checkpointNow len) (s.qst q == .standby))).setReg Reg.CHECKPOINT_TICK s.tick := by
  unfold State.goodCheckpoint
  extract_lets ready h1 s1
  have ht : s1.hm.takeover = none := h
  rw [if_neg (by rw [ht]; simp)]
  rfl

/-- A bad checkpoint counted. -/
def State.mirrorMissed (s : State) : State := (s.withHm { s.hm with mirrorBad := s.hm.mirrorBad + 1 }).incSat Reg.CHECKPOINT_BAD

/-- DUPLEX ended by bad checkpoints. -/
def State.standbyLost (s : State) : State := s.withHm { s.hm with standbyReady := false }

theorem badCheckpoint_eq (s : State) (q : Quay) : s.badCheckpoint q =
    if s.hm.mirrorBad + 1 = 2 then s.mirrorMissed.standbyLost.recordFault causeMirror 0 (some q) else s.mirrorMissed := rfl

theorem mirrorMissed_bad (s : State) : s.mirrorMissed.reg Reg.CHECKPOINT_BAD = satInc 32 (s.reg Reg.CHECKPOINT_BAD) :=
  State.reg_incSat _ Reg.CHECKPOINT_BAD

theorem badCheckpoint_kept (s : State) (q : Quay) :
    (s.badCheckpoint q).hm.mirror = s.hm.mirror ∧ (s.badCheckpoint q).hm.mirrorBad = s.hm.mirrorBad + 1 ∧
      (s.hm.mirrorBad = 1 → (s.badCheckpoint q).hm.standbyReady = false) ∧
      (s.badCheckpoint q).reg Reg.CHECKPOINT_BAD = satInc 32 (s.reg Reg.CHECKPOINT_BAD) := by
  rw [badCheckpoint_eq]
  split
  · have hk := recordFault_mirror s.mirrorMissed.standbyLost causeMirror 0 (some q)
    have hf : OnlyIn [.hm, .klp, .nv, .log, .bus, .loop, .act, .panel, .slip, .freeCtr]
        [Reg.SALVAGE_SUPPRESSED, Reg.STACK_OVERFLOWS, Reg.STORM_ENTRIES, Reg.TABLE_TAKEOVERS] s.mirrorMissed
        (s.mirrorMissed.standbyLost.recordFault causeMirror 0 (some q)) :=
      recordFault_only _ _ _ _ (by decide) (withHm_only _ _ (by decide) .refl)
    exact ⟨hk.mirror, hk.bad, fun _ => Bool.eq_false_iff.mpr fun e => (nomatch hk.ready e),
      (hf.entries (by decide) _ (by decide)).trans (mirrorMissed_bad s)⟩
  · next hn => exact ⟨rfl, rfl, fun e => absurd (congrArg (· + 1) e) hn, mirrorMissed_bad s⟩

/-- A checkpoint reaches the standby. -/
theorem exec_checkpointArrival {x : Quay} (ho : s.hm.owner = some x) (hq : s.qst x.other = .standby) (good : Bool) (len : Nat) :
    exec (.checkpointArrival good len) s = .next (if good && s.canRead x.other then
      (s.setReg Reg.CHECKPOINT_BYTES len).goodCheckpoint x.other len
      else (s.setReg Reg.CHECKPOINT_BYTES len).badCheckpoint x.other) := by
  refine congrArg Host.Outcome.next ?_
  rw [ho]
  exact if_neg fun e => e.1 hq

/-- A good checkpoint at a standby that can read it. -/
theorem checkpointArrival_good {x : Quay} (ho : s.hm.owner = some x) (hq : s.qst x.other = .standby) (hr : s.canRead x.other = true)
    (hk : s.hm.takeover = none) (len : Nat) :
    Does (.checkpointArrival true len) s [.hm] [Reg.CHECKPOINT_BYTES, Reg.CHECKPOINT_TICK] fun t =>
      t.hm = { s.hm with mirror := t.hm.mirror, mirrorBad := 0, standbyReady := true } ∧
        t.reg Reg.CHECKPOINT_BYTES = len % 2 ^ 32 ∧ t.reg Reg.CHECKPOINT_TICK = s.tick ∧
        ∃ k, t.hm.mirror = some k ∧ k.tick = s.tick ∧ k.length = len ∧ k.loops = s.loop.runs ∧ k.t64 = s.now := by
  have e := exec_checkpointArrival ho hq true len
  have hst : ((s.setReg Reg.CHECKPOINT_BYTES len).qst x.other == .standby) = true := beq_iff_eq.mpr hq
  rw [hr, Bool.true_and, if_pos rfl, goodCheckpoint_idle (show (s.setReg Reg.CHECKPOINT_BYTES len).hm.takeover = none from hk), hst] at e
  have htick : (s.setReg Reg.CHECKPOINT_BYTES len).tick = s.tick := tick_setReg (by decide) len
  have hf (h : Hm) (v : Nat) : OnlyIn [.hm] [Reg.CHECKPOINT_BYTES, Reg.CHECKPOINT_TICK] s
      (((s.setReg Reg.CHECKPOINT_BYTES len).withHm h).setReg Reg.CHECKPOINT_TICK v) :=
    setReg_only _ _ _ (by decide) (withHm_only _ _ (by decide) (setReg_only _ _ _ (by decide) .refl))
  refine ⟨_, e, hf _ _, ?_, ?_, ?_, _, rfl, htick, rfl, rfl, rfl⟩
  · unfold Hm.mirrored
    rw [Bool.or_true]
    rfl
  · exact (State.reg_setReg_ne _ (by decide)).trans (State.reg_setReg_self _ _ _)
  · rw [State.reg_setReg_self, htick]
    exact Nat.mod_eq_of_lt (tick_lt s)

/-- Settles O28: the wharf's two tests, and the two outcomes of a checkpoint. -/
theorem wharfAndCheckpoints : Obligations.WharfAndCheckpoints := by
  refine ⟨fun q o v s hq hs hp => ⟨fun ho => ?_, fun c hc hl he => ?_, fun ho => wharfWrite_dropped (wharfTakes_none (.inl ho)) v⟩,
    fun q o v s h => wharfWrite_dropped (wharfTakes_none (.inr h)) v, fun x len s ho hq hr hk => ?_, fun x good len s ho hq hb => ?_⟩
  · have e : s.wharfPut o v = s.commandOut o (v % 4096) := if_pos ho
    exact ⟨_, exec_wharfWrite_taken (wharfTakes_output hq hs hp ho) v, e ▸ commandOut_only _ _ _ (by decide) .refl, by rw [e]; rfl⟩
  · have e : s.wharfPut (16 + c) v = s.commandFan c (v % 65536) := by
      unfold State.wharfPut
      rw [if_neg (by omega), Nat.add_sub_cancel_left]
    refine ⟨_, exec_wharfWrite_taken (wharfTakes_fan hq hs hp hc he) v, ?_, ?_⟩
    · rw [e]; exact commandFan_only _ _ _ (by decide) .refl
    · rw [e]; exact commandFan_cmd hl _
  · exact checkpointArrival_good ho hq hr hk len
  · have e := exec_checkpointArrival ho hq good len
    rw [if_neg (by rcases hb with h | h <;> simp [h])] at e
    obtain ⟨hm, hn, hy, hc⟩ := badCheckpoint_kept (s.setReg Reg.CHECKPOINT_BYTES len) x.other
    rw [State.reg_setReg_ne _ (by decide)] at hc
    exact .of_only (execCheckpointArrival_only good len s (by decide) .refl) e ⟨hc, hm, hn, hy⟩

end Sys2Proof.Machine
end

section
/-!
PROOF. `HM_COMMAND` (R227, R228, R241): what a swap, a rejoin test, a retirement and the clearing of the counts do to the quays.
-/
namespace Sys2Proof.Machine

variable {s t : State} {q : Quay}

/-! ### Writes whose effect is a frame and a predicate -/

/-- An accepted write whose rule answers a status and a state `t`: what holds of `t`, whatever its ledger engine, holds after it. -/
theorem Does.rule {i : Instr} {w : Wr} {key : Nat} {l : List Piece} {ks : List Nat} {p : State → Prop} {st : Status}
    {rule : State → Nat → Status × State} (hf : ∃ t', exec i s = .next t' ∧ OnlyIn l ks s t')
    (he : exec i s = .next (s.ledgerWrite w key rule)) (ha : s.accepts w key)
    (hr : rule (s.taken (wrRequest w key)) w.val = (st, t)) (hp : ∀ k, p { t with klp := k }) : Does i s l ks p := by
  rw [ledgerWrite_accepted ha, hr] at he
  exact .of_only hf he (answer_eq (wrRequest w key) st [] t ▸ hp _)

/-- The ledger engine is no part of a quay. -/
theorem quay_klp (t : State) (k : Klp) (q : Quay) : ({ t with klp := k } : State).quay q = t.quay q := rfl

/-! ### The rules on the state in which a request runs -/

theorem hmSwapRule_busy (h : s.hm.takeover ≠ none) : hmSwapRule s = (.busy, s) :=
  if_pos (Option.isSome_iff_ne_none.mpr h)

theorem hmSwapRule_state (h : s.hm.takeover = none) (hd : s.duplex = false) : hmSwapRule s = (.state, s) := by
  unfold hmSwapRule
  rw [if_neg (by rw [h]; decide), hd]

theorem hmSwapRule_ok (h : s.hm.takeover = none) (hd : s.duplex = true) (hq : s.standbyQuay = some q) :
    hmSwapRule s = (.ok, s.beginSwap q) := by
  unfold hmSwapRule
  rw [if_neg (by rw [h]; decide), hd, hq]

theorem hmRejoinTestRule_state (ha : s.qst .a ≠ .out) (hb : s.qst .b ≠ .out) : hmRejoinTestRule s = (.state, s) :=
  if_neg (not_or.mpr ⟨ha, hb⟩)

theorem hmRejoinTestRule_ok (h : s.qst .a = .out ∨ s.qst .b = .out) : hmRejoinTestRule s = (.ok, (s.rejoin .a).rejoin .b) :=
  if_pos h

theorem retire_state (h : s.qst q.other = .out ∨ s.qst q.other = .off) : s.retire q = (.state, s) := if_pos h

theorem retire_active (ha : s.qst q = .active) (hd : s.duplex = true) (hk : s.hm.takeover = none) :
    s.retire q = (.ok, s.retireActive q) := by
  have ho : s.qst q.other = .standby := duplex_other hd ha
  unfold State.retire
  rw [if_neg (by simp [ho]), if_pos ha, if_pos (by simp [hd, hk])]

/-! ### A rejoin test -/

theorem alarmOf_hm (s : State) (source state value flags : Nat) : (s.alarmOf source state value flags).hm = s.hm :=
  (alarmOf_only (pl := [.klp, .bus]) (pk := []) s source state value flags (by decide) .refl).hm_eq rfl

/-- A quay that is not OUT takes no rejoin test. -/
theorem rejoin_not (h : s.qst q ≠ .out) : s.rejoin q = s := if_neg h

/-- A quay whose self-test is forced, whatever its failures. -/
def QuayUnit.forcedTest (u : QuayUnit) : Prop := u.st = .selfTest ∧ u.inReset = false ∧ u.forced = true

theorem rejoin_quays (h : s.qst q = .out) : ((s.rejoin q).quay q).forcedTest ∧ (s.rejoin q).quay q.other = s.quay q.other := by
  unfold State.rejoin
  rw [if_pos h]
  extract_lets t u0 u
  have hu : (u.quay q).forcedTest ∧ u.quay q.other = s.quay q.other := by
    unfold u
    rw [quay_setQuay_self, quay_setQuay_other]
    exact ⟨⟨(reload_self _).1, rfl, rfl⟩, reload_other _⟩
  split
  · exact hu
  · rw [quay_of_hm (alarmOf_hm _ _ _ _ _), quay_of_hm (alarmOf_hm _ _ _ _ _)]
    exact hu

theorem rejoin_other (s : State) (q : Quay) : (s.rejoin q).quay q.other = s.quay q.other := by
  by_cases h : s.qst q = .out
  · exact (rejoin_quays h).2
  · rw [rejoin_not h]

theorem rejoin_self (s : State) (q : Quay) : (s.qst q = .out → ((s.rejoin q).quay q).forcedTest) ∧
    (s.qst q ≠ .out → (s.rejoin q).quay q = s.quay q) :=
  ⟨fun h => (rejoin_quays h).1, fun h => by rw [rejoin_not h]⟩

/-- A rejoin test of both quays reaches those that are OUT. -/
theorem rejoin_both (s : State) (q : Quay) : (s.qst q = .out → (((s.rejoin .a).rejoin .b).quay q).forcedTest) ∧
    (s.qst q ≠ .out → ((s.rejoin .a).rejoin .b).quay q = s.quay q) := by
  cases q with
  | a =>
    have hb : ((s.rejoin .a).rejoin .b).quay .a = (s.rejoin .a).quay .a := rejoin_other (s.rejoin .a) .b
    rw [hb]
    exact rejoin_self s .a
  | b =>
    have ha : (s.rejoin .a).quay .b = s.quay .b := rejoin_other s .a
    have hs : (s.rejoin .a).qst .b = s.qst .b := congrArg QuayUnit.st ha
    have h := rejoin_self (s.rejoin .a) .b
    rwa [ha, hs] at h

/-! ### A retirement -/

/-- The harbourmaster after a grant of the token. -/
theorem grantToken_hm (s : State) (q : Quay) : (s.grantToken q).hm = { s.hm with
    owner := some q, quays := s.hm.quays.set q { s.quay q with st := .active, passHeld := false, inReset := false } } := by
  unfold State.grantToken
  dsimp only
  split <;> rfl

theorem grantToken_other (s : State) (q : Quay) : (s.grantToken q).quay q.other = s.quay q.other := by
  unfold State.quay
  rw [grantToken_hm]
  exact PerQuay.get_set_other _ _ _

/-- A quay goes OUT (R228). -/
theorem goOut_st (s : State) (q : Quay) : ((s.goOut q).quay q).st = .out := by
  unfold State.goOut
  extract_lets u s1 h2 s2 s3 o
  have h1 : (s1.quay q).st = .out := by
    unfold s1
    rw [quay_setQuay_self]
  have h2 : (s2.quay q).st = .out := by
    unfold s2
    split
    · exact h1
    · exact h1
  have h3 : (s3.quay q).st = .out := by
    unfold s3
    rw [quay_of_hm (alarmOf_hm _ _ _ _ _), quay_of_hm (leaveRc_hm _ _)]
    exact h2
  split
  · have hg := grantToken_other s3 q.other
    rw [Quay.other_other] at hg
    rw [hg]
    exact h3
  · exact h3

theorem restoreCheckpoint_hm (s : State) (c : Option Checkpoint) : (s.restoreCheckpoint c).hm = s.hm :=
  (restoreCheckpoint_only (pl := [.loop]) (pk := []) s c (by decide) .refl).hm_eq rfl

/-- The active quay retires: it is OUT and the other has the token. -/
theorem retireActive_roles (s : State) (q : Quay) : ((s.retireActive q).quay q).st = .out ∧
    (s.retireActive q).hm.owner = some q.other ∧ ((s.retireActive q).quay q.other).st = .active := by
  unfold State.retireActive
  extract_lets s1 u h1 s2
  rw [quay_of_hm (restoreCheckpoint_hm _ _), quay_of_hm (restoreCheckpoint_hm _ _), restoreCheckpoint_hm]
  have hq : s2.quay q = s1.quay q := quay_setQuay_of_other _
  have ho : s2.quay q.other = { s1.quay q.other with st := .active } := quay_setQuay_self _
  rw [hq, ho]
  exact ⟨goOut_st s q, rfl, rfl⟩

/-! ### The counts cleared -/

theorem hmClearCounts_quay (s : State) (q : Quay) : (hmClearCountsRule s).2.quay q = { s.quay q with fails := [] } := by
  cases q <;> rfl

/-- Settles O31: each command's own rule. -/
theorem hmCommands : Obligations.HmCommands := by
  refine ⟨fun r s ha => ⟨fun hk => ?_, fun hk hd => ?_, fun q hk hd hq => ?_⟩, fun r s hacc => ⟨fun ha hb => ?_, fun h => ?_⟩,
    fun r s => ⟨fun hacc => ⟨fun h => ?_, fun ha hd hk => ?_⟩, fun hacc => ⟨fun h => ?_, fun ha hd hk => ?_⟩⟩, fun r s ha => ?_⟩
  · exact .rule rfl ha (hmSwapRule_busy hk)
  · exact .rule rfl ha (hmSwapRule_state hk hd)
  · exact .rule _ rfl ha (hmSwapRule_ok hk hd hq) (withHm_only _ _ (by decide) .refl) (by decide) fun _ => rfl
  · exact .rule rfl hacc (hmRejoinTestRule_state ha hb)
  · have hq := rejoin_both (s.taken (wrRequest { req := r, len := 1, val := 2 } Reg.HM_COMMAND))
    exact .rule (execHmRejoinTest_only r s (by decide) .refl) rfl hacc (hmRejoinTestRule_ok h) fun k q => by rw [quay_klp]; exact hq q
  · exact .rule rfl hacc (retire_state h)
  · have hq := retireActive_roles (s.taken (wrRequest { req := r, len := 1, val := 5 } Reg.HM_COMMAND)) .a
    exact .rule (execHmRetireA_only r s (by decide) .refl) rfl hacc (retire_active ha hd hk) fun k => by rw [quay_klp, quay_klp]; exact hq
  · exact .rule rfl hacc (retire_state h)
  · have hq := retireActive_roles (s.taken (wrRequest { req := r, len := 1, val := 6 } Reg.HM_COMMAND)) .b
    exact .rule (execHmRetireB_only r s (by decide) .refl) rfl hacc (retire_active ha hd hk) fun k => by rw [quay_klp, quay_klp]; exact hq
  · exact .rule _ rfl ha rfl (withHm_only _ _ (by decide) (setQuay_only _ _ _ (by decide) (setQuay_only _ _ _ (by decide) .refl)))
      (by decide) fun _ => ⟨hmClearCounts_quay _, rfl, rfl⟩

end Sys2Proof.Machine
end

section
/-!
PROOF. Bring-up, feeds, power-down and the power modes (R228, R360, R415, R427, R508, R509, R512 to R523, R528).
-/
namespace Sys2Proof.Machine

variable {s t : State}

/-! ### The boot verifier -/

/-- Without a swap's marker and without a trial the verifier takes its ordinary course. -/
theorem bootVerify_normal (hm : s.slip.marker = false) (ht : 1 < s.reg Reg.BOOT_TRIAL) : s.bootVerify = s.bootNormal := by
  have e : s.bootMarker = s := if_pos (by rw [hm]; rfl)
  unfold State.bootVerify
  rw [e]
  exact if_pos ht

theorem bootNormal_first (h : s.verifyImage (s.slip.slot (s.reg Reg.BOOT_SLOT == 1)) = .ok) :
    s.bootNormal = s.withPwr { s.pwr with imageOk := true, bootB := s.reg Reg.BOOT_SLOT == 1 } := if_pos h

theorem bootNormal_other (h1 : s.verifyImage (s.slip.slot (s.reg Reg.BOOT_SLOT == 1)) ≠ .ok)
    (h2 : s.verifyImage (s.slip.slot (s.reg Reg.BOOT_SLOT != 1)) = .ok) :
    s.bootNormal.pwr = { s.pwr with imageOk := true, bootB := s.reg Reg.BOOT_SLOT != 1 } ∧
      s.bootNormal.slip = { s.slip with fallback := true } := by
  unfold State.bootNormal
  extract_lets first p1 p2 u
  have h2' : s.verifyImage (s.slip.slot !first) = .ok := h2
  rw [if_neg h1, if_pos h2']
  have hl := pushLog_only (pl := [.log]) (pk := []) u Lt.SLIP_REJECT
    ([b2n first, Status.signature.code] ++ leBytes 4 (fwVersion (s.slip.slot first))) (by decide) .refl
  exact ⟨hl.pieces .pwr (by decide) (by decide), hl.pieces .slip (by decide) (by decide)⟩

theorem bootNormal_none (h1 : s.verifyImage (s.slip.slot (s.reg Reg.BOOT_SLOT == 1)) ≠ .ok)
    (h2 : s.verifyImage (s.slip.slot (s.reg Reg.BOOT_SLOT != 1)) ≠ .ok) :
    s.bootNormal = s.withSlip { s.slip with noFirmware := true } := (if_neg h1).trans (if_neg h2)

theorem exec_bootVerifyDone (hd : s.phase = .dark) (hr : s.tide.running = true) (hi : s.pwr.imageOk = false) (hp : s.pfail = false)
    (hm : s.slip.marker = false) (ht : 1 < s.reg Reg.BOOT_TRIAL) : exec .bootVerifyDone s = .next s.bootNormal :=
  congrArg Host.Outcome.next ((if_pos ⟨hd, hr, hi, hp⟩).trans (bootVerify_normal hm ht))

/-! ### LIGHTS -/

theorem lightsQuay_self (s : State) (q : Quay) : (s.lightsQuay q).quay q =
    { s.quay q with st := .selfTest, inReset := false, passHeld := false, imageB := s.wantedB, head := s.headOf s.wantedB } :=
  quay_setQuay_self _

theorem lightsQuay_other (s : State) (q : Quay) : (s.lightsQuay q).quay q.other = s.quay q.other := quay_setQuay_other _

theorem lightsBus_self (s : State) (c : Bus) : (s.lightsBus c).chan c =
    { s.chan c with active := .restricted, integrated := false, probe := some 0 } := chan_setChan_self _ _

theorem lightsBus_other (s : State) (c : Bus) : (s.lightsBus c).chan c.other = s.chan c.other := chan_setChan_other _ _

/-- The quays and the channels at LIGHTS. -/
def State.lightsUnits (s : State) : State := (((s.lightsQuay .a).lightsQuay .b).lightsBus .one).lightsBus .two

theorem lights_units (s : State) : ∃ u : State, s.lights = u.lightsUnits := ⟨_, rfl⟩

/-- Both quays start their self-test at LIGHTS. -/
theorem lightsUnits_quay (s : State) (q : Quay) : (s.lightsUnits.quay q).st = .selfTest ∧ (s.lightsUnits.quay q).inReset = false := by
  have hb : s.lightsUnits.quay q = ((s.lightsQuay .a).lightsQuay .b).quay q := rfl
  rw [hb]
  cases q with
  | a =>
    have ha : ((s.lightsQuay .a).lightsQuay .b).quay .a = (s.lightsQuay .a).quay .a := lightsQuay_other (s.lightsQuay .a) .b
    rw [ha, lightsQuay_self]
    exact ⟨rfl, rfl⟩
  | b =>
    rw [lightsQuay_self]
    exact ⟨rfl, rfl⟩

/-- Both channels start their probe at LIGHTS. -/
theorem lightsUnits_chan (s : State) (c : Bus) :
    (s.lightsUnits.chan c).active = .restricted ∧ (s.lightsUnits.chan c).probe = some 0 := by
  unfold State.lightsUnits
  cases c with
  | one =>
    have h1 (u : State) : ((u.lightsBus .one).lightsBus .two).chan .one = (u.lightsBus .one).chan .one :=
      lightsBus_other (u.lightsBus .one) .two
    rw [h1, lightsBus_self]
    exact ⟨rfl, rfl⟩
  | two =>
    rw [lightsBus_self]
    exact ⟨rfl, rfl⟩

theorem exec_lightsEntry (hd : s.phase = .dark) (hr : s.tide.running = true) (hi : s.pwr.imageOk = true) (hp : s.pfail = false)
    (hh : s.pwr.railHeld = false) : exec .lightsEntry s = .next s.lights.lightsShutter :=
  congrArg Host.Outcome.next (if_pos ⟨hd, hr, hi, hp, hh⟩)

theorem exec_lightsOwnerTimeout (hl : s.phase = .lights) (ho : s.pwr.owned = false) (hw : s.pwr.lightsT64 + clkSec ≤ s.now)
    (hp : s.pfail = false) : exec .lightsOwnerTimeout s = .next (s.enterStorm causeTakeover none) :=
  congrArg Host.Outcome.next (if_pos ⟨hl, ho, Nat.ble_eq.mpr hw, hp⟩)

/-- Settles O13: the verifier's three courses, what LIGHTS starts, and STORM without an owner. -/
theorem bringUp : Obligations.BringUp := by
  refine ⟨fun s hd hr hi hp hm ht => ?_, fun s hd hr hi hp hh => ?_, fun s hl ho hw hp hs => ?_⟩
  · refine ⟨_, exec_bootVerifyDone hd hr hi hp hm ht, bootNormal_only s (by decide) .refl, fun h => ?_, fun h1 => ⟨fun h2 => ?_, fun h2 => ?_⟩⟩
    · rw [bootNormal_first h]; exact ⟨rfl, rfl, rfl⟩
    · exact bootNormal_other h1 h2
    · rw [bootNormal_none h1 h2]; exact ⟨rfl, rfl⟩
  · refine .of_only (execLightsEntry_only s (by decide) .refl) (exec_lightsEntry hd hr hi hp hh) ?_
    have hf : OnlyIn [.focal] [] s.lights s.lights.lightsShutter := lightsShutter_only _ (by decide) .refl
    have hpwr := hf.pieces .pwr (by decide) (by decide)
    have hbus : s.lights.lightsShutter.bus = s.lights.bus := hf.pieces .bus (by decide) (by decide)
    refine ⟨hf.pieces .phase (by decide) (by decide), congrArg PwrPart.lightsT64 hpwr, congrArg PwrPart.wait hpwr,
      congrArg CalPart.qual (hf.pieces .cal (by decide) (by decide)), fun q => ?_, fun c => ?_⟩
    · rw [quay_of_hm (hf.hm_eq rfl)]; obtain ⟨u, hu⟩ := lights_units s; rw [hu]; exact lightsUnits_quay u q
    · unfold State.chan; rw [hbus]; obtain ⟨u, hu⟩ := lights_units s; rw [hu]; exact lightsUnits_chan u c
  · exact .of_only (execLightsOwnerTimeout_only s (by decide) .refl) (exec_lightsOwnerTimeout hl ho hw hp)
      ⟨enterStorm_storm _ _, enterStorm_owner hs _ _⟩

end Sys2Proof.Machine
end

section
/-!
PROOF. Feeds and power-down (R312, R427, R508, R509, R513, R520); the power modes and the device reset (R415, R512, R521 to R523).
-/
namespace Sys2Proof.Machine

variable {s t : State}

/-! ### Feeds -/

theorem feedRecord_log (s : State) : OnlyIn [.log] [] s s.feedRecord := feedRecord_only s (by decide) .refl

/-- An expected feed gone. -/
theorem exec_feedAbsent_expected {f : Feed} (ha : s.pwr.isAbsent f = false) (he : s.regBit Reg.FEEDS_EXPECTED (feedBit f) = true) :
    exec (.feedAbsent f) s = .next (((((s.withPwr { s.pwr.setFeed f false with missing := true }).feedRecord).raiseIrq irqPower).alarmOf
      0x2090 1 (s.reg Reg.VHOLD_MV / 10) 0)) :=
  congrArg Host.Outcome.next ((if_neg (by rw [ha]; decide)).trans (if_pos he))

theorem exec_feedAbsent_other {f : Feed} (ha : s.pwr.isAbsent f = false) (he : s.regBit Reg.FEEDS_EXPECTED (feedBit f) = false) :
    exec (.feedAbsent f) s = .next (s.withPwr (s.pwr.setFeed f false)) :=
  congrArg Host.Outcome.next ((if_neg (by rw [ha]; decide)).trans (if_neg (Bool.eq_false_iff.mp he)))

theorem feedAbsent_expected {f : Feed} (ha : s.pwr.isAbsent f = false) (he : s.regBit Reg.FEEDS_EXPECTED (feedBit f) = true) :
    Does (.feedAbsent f) s [.klp, .log, .bus, .pwr] [] fun t =>
      t.pwr = { s.pwr.setFeed f false with missing := true } ∧ bitAt t.klp.irq irqPower = true ∧
        t.log = (({ s with pwr := { s.pwr.setFeed f false with missing := true } } : State).feedRecord).log := by
  refine .of_only (execFeedAbsent_only f s (by decide) .refl) (exec_feedAbsent_expected ha he) ?_
  have hw : s.withPwr { s.pwr.setFeed f false with missing := true } =
      { s with pwr := { s.pwr.setFeed f false with missing := true } } := rfl
  rw [hw]
  generalize hu : ({ s with pwr := { s.pwr.setFeed f false with missing := true } } : State) = u
  have hp : u.pwr = { s.pwr.setFeed f false with missing := true } := hu ▸ rfl
  have hal : OnlyIn [.klp, .bus] [] (u.feedRecord.raiseIrq irqPower)
      ((u.feedRecord.raiseIrq irqPower).alarmOf 0x2090 1 (s.reg Reg.VHOLD_MV / 10) 0) := alarmOf_only _ _ _ _ _ (by decide) .refl
  refine ⟨?_, alarmOf_irq (by decide) (bitAt_bitOn_self _ _) _ _ _ _, hal.pieces .log (by decide) (by decide)⟩
  rw [← hp]
  exact (hal.pieces .pwr (by decide) (by decide)).trans ((feedRecord_log u).pieces .pwr (by decide) (by decide))

/-- A feed that comes back. -/
theorem exec_feedPresent {f : Feed} (h : s.pwr.isPresent f = false) : exec (.feedPresent f) s = .next
    (if s.pwr.missing && (s.withPwr (s.pwr.setFeed f true)).feedsThere then
      (((s.withPwr { s.pwr.setFeed f true with missing := false }).feedRecord).alarmOf 0x2090 0 (s.reg Reg.VHOLD_MV / 10) 0)
      else s.withPwr (s.pwr.setFeed f true)) := by
  cases f <;> exact congrArg Host.Outcome.next (if_neg (by rw [h]; decide))

theorem setFeed_present (p : PwrPart) (f : Feed) (b : Bool) :
    (p.setFeed f b).isPresent f = b ∧ (p.setFeed f b).isAbsent f = !b ∧ (p.setFeed f b).missing = p.missing := by
  cases f <;> exact ⟨rfl, rfl, rfl⟩

theorem withMissing_present (p : PwrPart) (f : Feed) (m : Bool) :
    ({ p with missing := m } : PwrPart).isPresent f = p.isPresent f ∧ ({ p with missing := m } : PwrPart).isAbsent f = p.isAbsent f := by
  cases f <;> exact ⟨rfl, rfl⟩

theorem feedPresent_new {f : Feed} (h : s.pwr.isPresent f = false) : Does (.feedPresent f) s [.klp, .log, .bus, .pwr] [] fun t =>
    t.pwr.isPresent f = true ∧ t.pwr.isAbsent f = false ∧
      t.pwr.missing = (s.pwr.missing && !(({ s with pwr := s.pwr.setFeed f true } : State).feedsThere)) := by
  refine .of_only (execFeedPresent_only f s (by decide) .refl) (exec_feedPresent h) ?_
  have hw : ({ s with pwr := s.pwr.setFeed f true } : State) = s.withPwr (s.pwr.setFeed f true) := rfl
  rw [hw]
  obtain ⟨hpres, habs, hmiss⟩ := setFeed_present s.pwr f true
  obtain ⟨hp, ha⟩ := withMissing_present (s.pwr.setFeed f true) f false
  cases hc : s.pwr.missing && (s.withPwr (s.pwr.setFeed f true)).feedsThere with
  | true =>
    rw [if_pos rfl]
    obtain ⟨hm, hf⟩ := (Bool.and_eq_true _ _).mp hc
    generalize hu : s.withPwr { s.pwr.setFeed f true with missing := false } = u
    have hpu : u.pwr = { s.pwr.setFeed f true with missing := false } := hu ▸ rfl
    have hal : OnlyIn [.klp, .log, .bus] [] u (u.feedRecord.alarmOf 0x2090 0 (s.reg Reg.VHOLD_MV / 10) 0) :=
      alarmOf_only _ _ _ _ _ (by decide) ((feedRecord_log u).mono (by decide))
    rw [hal.pieces .pwr (by decide) (by decide), hpu, hf, hp, ha]
    exact ⟨hpres, habs, (Bool.and_false _).symm⟩
  | false =>
    rw [if_neg (by decide)]
    refine ⟨hpres, habs, hmiss.trans ?_⟩
    cases hm : s.pwr.missing with
    | true => rw [hm, Bool.true_and] at hc; rw [hc]; rfl
    | false => rfl

/-! ### PFAIL and UVLO -/

theorem windowUe_irq {i : Nat} (hi : i < 8) (h : bitAt s.klp.irq i = true) (word : Nat) : bitAt (s.windowUe word).klp.irq i = true := by
  unfold State.windowUe State.uncorrectable State.memAlarm
  extract_lets n s1 again s2 keep n2 s3 s4
  refine alarmOf_irq hi ?_ _ _ _ _
  have h4 : s4.klp = s.klp := by
    unfold s4
    split
    · rfl
    · exact (pushLog_only (pl := [.log]) (pk := []) s3 _ _ (by decide) .refl).pieces .klp (by decide) (by decide)
  rw [h4]
  exact h

/-- Closing a code word: none is open, and a set cause of `IRQ_STATUS` stays set. -/
theorem closeWord_closed (s : State) (word : Nat) (got : List (Nat × Nat)) : (s.closeWord word got).nv.openWord = none ∧
    ∀ i, i < 8 → bitAt s.klp.irq i = true → bitAt (s.closeWord word got).klp.irq i = true := by
  unfold State.closeWord
  extract_lets whole bad s1
  have h1 : s1.klp = s.klp := by unfold s1; split <;> rfl
  split
  · exact ⟨rfl, fun i hi h => windowUe_irq (s := s1) hi (h1 ▸ h) word⟩
  · exact ⟨rfl, fun i _ h => h1 ▸ h⟩

theorem closeOpen_closed (s : State) : s.closeOpen.nv.openWord = none ∧
    ∀ i, i < 8 → bitAt s.klp.irq i = true → bitAt s.closeOpen.klp.irq i = true := by
  unfold State.closeOpen
  split
  · next h => exact ⟨h, fun _ _ h => h⟩
  · next p _ => exact closeWord_closed s p.1 p.2

/-- The quick-save writes a slot of the MRAM. -/
theorem quickSave_slots (s : State) (us : Nat) :
    s.quickSave us = { s with nv := { s.nv with slotA := (s.quickSave us).nv.slotA, slotB := (s.quickSave us).nv.slotB } } := by
  unfold State.quickSave
  dsimp only
  split
  · rfl
  · split <;> rfl

theorem powerFail_stopped (s : State) (us : Nat) :
    (s.powerFail us).pfail = true ∧ (s.powerFail us).focal.bias = false ∧ (s.powerFail us).pipe.on = false ∧
      (s.powerFail us).video.running = false ∧ (s.powerFail us).nv.wel = false ∧ (s.powerFail us).nv.openWord = none ∧
      (s.powerFail us).nv.compacting = false ∧ bitAt (s.powerFail us).klp.irq irqPower = true := by
  unfold State.powerFail
  extract_lets x0 u had s1 s2 n3 s3 f4 p4 v4 a4 s4
  have hirq : bitAt u.klp.irq irqPower = true := bitAt_bitOn_self _ _
  obtain ⟨hopen, hkeep⟩ := closeOpen_closed u
  have hpf : u.closeOpen.pfail = true :=
    (closeOpen_only (pl := [.regs, .klp, .nv, .window, .log, .bus]) (pk := []) u (by decide) .refl).pieces .pfail (by decide) (by decide)
  have h2 : s2.nv.openWord = none ∧ s2.pfail = true ∧ bitAt s2.klp.irq irqPower = true := by
    unfold s2
    split
    · exact ⟨hopen, hpf, hkeep _ (by decide) hirq⟩
    · exact ⟨hopen, hpf, hkeep _ (by decide) hirq⟩
  obtain ⟨ho, hp, hi⟩ := h2
  rw [quickSave_slots]
  exact ⟨hp, rfl, rfl, rfl, rfl, ho, rfl, hi⟩

/-- Settles O14: the feeds, PFAIL and UVLO, each by its own rule. -/
theorem powerSupply : Obligations.PowerSupply := by
  refine ⟨⟨fun f s => feedAbsent_expected, fun f s ha he => ?_, fun f s => feedPresent_new, fun f s => ?_, fun f s => ?_⟩,
    fun us s hp hr => ?_, fun cell s h => ?_⟩
  · exact ⟨_, exec_feedAbsent_other ha he, withPwr_only _ _ (by decide) .refl, rfl⟩
  · exact .of_only (execFeedOvervoltage_only f s (by decide) .refl) rfl (by cases f <;> rfl)
  · exact .of_only (execFeedOvervoltageEnd_only f s (by decide) .refl) rfl (by cases f <;> rfl)
  · exact .of_only (execPfail_only us s (by decide) .refl) (congrArg Host.Outcome.next (if_neg (by rw [hp, hr]; decide)))
      (powerFail_stopped s us)
  · exact .of_only (execUvlo_only cell s (by decide) .refl)
      (congrArg Host.Outcome.next (if_neg (by rcases h with h | h <;> rw [h] <;> simp))) ⟨rfl, rfl, rfl, rfl, rfl⟩

end Sys2Proof.Machine
end

section
/-!
PROOF. The power modes and the device reset (R415, R512, R521 to R523).
-/
namespace Sys2Proof.Machine

variable {s t : State} {w : Wr}

/-! ### `PFAIL_LEVEL` and `POWER_REQUEST` -/

theorem inRange_pfailLevel {v : Nat} : inRange Reg.PFAIL_LEVEL v = true ↔ 7500 ≤ v ∧ v ≤ 40000 :=
  inRange_unsigned (lo := 7500) (hi := 40000) rfl rfl rfl

theorem inRange_powerRequest {v : Nat} : inRange Reg.POWER_REQUEST v = true ↔ v ≤ 1 :=
  (inRange_unsigned (lo := 0) (hi := 1) rfl rfl rfl).trans (and_iff_right v.zero_le)

theorem pfailLevelRule_low {v : Nat} (h : v + 1000 ≤ s.reg Reg.VHOLD_MV) : pfailLevelRule s v = plainRule Reg.PFAIL_LEVEL s v :=
  if_neg (by omega)

theorem pfailLevelRule_high {v : Nat} (h : s.reg Reg.VHOLD_MV < v + 1000) : pfailLevelRule s v = (.state, s) := if_pos h

/-- What a write of `POWER_REQUEST` does beside its entry. -/
def State.wakeBy (v : Nat) (t : State) : State := if v = 0 then t.leaveSlack else t

theorem powerRequestRule_eq {v : Nat} (h : v ≤ 1) :
    powerRequestRule s v = andThen (s.putEntry Reg.POWER_REQUEST v) (State.wakeBy v) := by
  unfold powerRequestRule
  rw [plainRule_pos (inRange_powerRequest.mpr h)]
  rfl

theorem wakeBy_only (v : Nat) (u : State) : OnlyIn [.power, .video] [] u (u.wakeBy v) := by
  unfold State.wakeBy
  split
  · exact leaveSlack_only _ (by decide) .refl
  · exact .refl

theorem wakeBy_power (v : Nat) (u : State) : (u.wakeBy v).power = if v = 0 ∧ u.power = .slack then .full else u.power := by
  unfold State.wakeBy State.leaveSlack
  by_cases hv : v = 0
  · by_cases hp : u.power = .slack
    · rw [if_pos hv, if_pos hp, if_pos ⟨hv, hp⟩]
    · rw [if_pos hv, if_neg hp, if_neg fun e => hp e.2]
  · rw [if_neg hv, if_neg fun e => hv e.1]

/-! ### The device reset -/

/-- A state with the time of a device reset. -/
def State.resetAt (s : State) (d : Option Nat) : State := { s with klp := { s.klp with resetDue := d } }

theorem deliver_resetAt (u : State) (d : Option Nat) (r : Resp) : (u.resetAt d).deliver r = (u.deliver r).resetAt d := by
  unfold State.deliver
  have hf : (u.resetAt d).klp.fifo = u.klp.fifo := rfl
  cases r.req.port with
  | spi =>
    dsimp only
    rw [hf]
    split <;> rfl
  | can c => rfl

/-- An answer leaves the time of the reset. -/
theorem answer_resetAt (u : State) (d : Option Nat) (q : Request) (st : Status) (data : List Nat) :
    (u.resetAt d).answer q st data = (u.answer q st data).resetAt d := by
  unfold State.answer
  extract_lets r k1 s1 s2 k3 s3 s4
  have h : s2 = s4.resetAt d := by
    unfold s2 s4
    split <;> rfl
  rw [h, deliver_resetAt]

theorem resetCommandRule_reset : resetCommandRule s 0x5A =
    (.ok, s.resetAt (some (s.now + 10 * clkMs))) := if_pos rfl

theorem resetCommandRule_range {v : Nat} (h : v ≠ 0x5A) : resetCommandRule s v = (.range, s) := if_neg h

theorem resetCommandWrite_reset (ha : s.accepts w Reg.RESET_COMMAND) (hv : w.val = 0x5A) :
    Does (.resetCommandWrite w) s [.klp] [] fun t =>
      t.klp = { (s.answered (wrRequest w Reg.RESET_COMMAND) .ok []).klp with resetDue := some (s.now + 10 * clkMs) } := by
  have he : exec (.resetCommandWrite w) s = .next (s.ledgerWrite w Reg.RESET_COMMAND resetCommandRule) := rfl
  rw [ledgerWrite_accepted ha, hv, resetCommandRule_reset, answer_resetAt] at he
  exact .of_only (execResetCommandWrite_only w s (by decide) .refl) he rfl

/-! ### SLACK -/

theorem slackReady_of (hr : s.reg Reg.POWER_REQUEST = 1) (hp : s.power = .full) (hd : s.phase ≠ .dark)
    (hk : s.keys.anyPressed = false) (hh : s.pwr.hold = none) (hc : s.cal.cycle = none) (hq : s.cal.qual = false)
    (hf : s.pfail = false) : s.slackReady = true := by
  unfold State.slackReady State.slackHeld
  simp [hr, hp, hd, hk, hh, hc, hq, hf]

theorem darkArray_dark (s : State) : s.darkArray.reg Reg.IMAGER_ACTIVE = imDark := State.reg_setReg_self _ _ _

theorem exec_wakeHoldEnd {t0 : Nat} (hh : s.pwr.hold = some t0) (hw : t0 + s.reg Reg.WAKE_HOLD * clkSec ≤ s.now) :
    exec .wakeHoldEnd s = .next (s.withPwr { s.pwr with hold := none }) := by
  refine congrArg Host.Outcome.next ?_
  rw [hh]
  exact if_pos (Nat.ble_eq.mpr hw)

/-- Settles O15: each entry's rule, SLACK's entry and the end of the wake hold. -/
theorem powerModes : Obligations.PowerModes := by
  refine ⟨fun s w ha => ⟨fun h h1 h2 hs => ?_, fun h hr => ?_, fun h => ?_⟩, fun s w ha hv hs => ?_,
    fun s w ha => ⟨resetCommandWrite_reset ha, fun hv => ?_⟩, fun s hr hp hd hk hh hc hq hf => ?_, fun s t0 hh hw => ?_⟩
  · exact Takes.rule rfl ha hs ((pfailLevelRule_low (s := s.taken _) h).trans (plainRule_pos (inRange_pfailLevel.mpr ⟨h1, h2⟩)))
  · refine Refuses.rule rfl ha ((pfailLevelRule_low (s := s.taken _) h).trans (plainRule_neg fun e => ?_))
    obtain ⟨hlo, hhi⟩ := inRange_pfailLevel.mp e
    omega
  · exact Refuses.rule rfl ha (pfailLevelRule_high h)
  · exact TakesWith.rule (State.wakeBy w.val) rfl ha hs (powerRequestRule_eq hv) (wakeBy_only _) (by decide) fun _ _ => wakeBy_power _ _
  · exact Refuses.rule rfl ha (resetCommandRule_range hv)
  · exact .of_only (execSlackEntry_only s (by decide) .refl)
      (congrArg Host.Outcome.next (if_pos (slackReady_of hr hp hd hk hh hc hq hf))) ⟨rfl, rfl, rfl, rfl, rfl, darkArray_dark s⟩
  · exact .of_only (execWakeHoldEnd_only s (by decide) .refl) (exec_wakeHoldEnd hh hw) rfl

end Sys2Proof.Machine
end

section
/-!
PROOF. PLLs, the master clock and the rate mode (R3, R16, R30, R31, R35, R36, R40, R107).
-/
namespace Sys2Proof.Machine

variable {s t : State} {w : Wr}

/-! ### Records, counters and signed entries -/

/-- A record with room in the queue. -/
theorem pushLog_queue (h : s.log.queue.length < 256) (typ : Nat) (payload : List Nat) :
    (s.pushLog typ payload).log = { s.log with
      queue := s.log.queue ++ [{ typ := typ, seq := s.log.nextSeq, ticks := s.rtc.ticks, gen := s.rtc.gen, payload := payload }]
      nextSeq := nextSeqAfter s.log.nextSeq } := by
  unfold State.pushLog
  extract_lets r
  rw [if_pos h]

theorem State.reg_countUp {k : Nat} (h : s.reg k + 1 < 2 ^ keyBits k) : (s.countUp k).reg k = s.reg k + 1 := by
  unfold State.countUp
  rw [if_pos h, State.reg_setReg_self, Nat.mod_eq_of_lt h]

theorem ofSigned_lt (w : Nat) (i : Int) : ofSigned w i < 2 ^ w := by
  have hw : (0 : Int) < ((2 ^ w : Nat) : Int) := by exact_mod_cast Nat.two_pow_pos w
  have h := Int.emod_lt_of_pos i hw
  have h0 := Int.emod_nonneg i (Int.ne_of_gt hw)
  unfold ofSigned
  omega

theorem State.reg_setRegI (k : Nat) (i : Int) : (s.setRegI k i).reg k = ofSigned (keyBits k) i :=
  (State.reg_setReg_self _ _ _).trans (Nat.mod_eq_of_lt (ofSigned_lt _ _))

/-! ### PLLs -/

theorem mem_unlock {p o : Pll} {l : List Pll} : o ∈ p :: l.filter (· != p) ↔ o = p ∨ o ∈ l := by
  by_cases h : o = p <;> simp [h]

theorem mem_lock {p o : Pll} {l : List Pll} : o ∈ l.filter (· != p) ↔ o ≠ p ∧ o ∈ l := by
  simp [and_comm]

/-! ### The master clock -/

/-- The tide as the loss of the master leaves it (R35). -/
def State.onRc (s : State) : State :=
  s.withTide { s.tide with
    source := .rc s.rcQuay, masterLost := true, degraded := true, frameDegraded := true, rcTrimmed := false
    returnReady := false, edgesHeld := true, unlocked := [.pipeline, .pilot, .dram, .bus, .dphy] }

theorem exec_masterClockLoss (hr : s.tide.running = true) (hm : s.tide.source = .master) : exec .masterClockLoss s =
    .next ((s.onRc.countUp Reg.MASTER_FAILS).recordFault causeMasterClock 0 none) :=
  congrArg Host.Outcome.next ((if_neg (by rw [hr]; decide)).trans (if_neg fun h => h hm))

theorem rcQuay_a (ho : s.qst .a ≠ .out) (hr : (s.quay .a).inReset = false) : s.rcQuay = .a := if_neg (by simp [ho, hr])

theorem rcQuay_b (ho : s.qst .a = .out) : s.rcQuay = .b := if_pos (.inl ho)

/-- The fault of the master clock leaves the tide, and the count of such faults. -/
theorem masterClockLoss_kept (s : State) : ((s.onRc.countUp Reg.MASTER_FAILS).recordFault causeMasterClock 0 none).tide = s.onRc.tide ∧
    (s.reg Reg.MASTER_FAILS + 1 < 2 ^ 32 →
      ((s.onRc.countUp Reg.MASTER_FAILS).recordFault causeMasterClock 0 none).reg Reg.MASTER_FAILS = s.reg Reg.MASTER_FAILS + 1) := by
  have hf : OnlyIn [.hm, .klp, .nv, .log, .bus, .loop, .act, .panel, .slip, .freeCtr]
      [Reg.SALVAGE_SUPPRESSED, Reg.STACK_OVERFLOWS, Reg.STORM_ENTRIES, Reg.TABLE_TAKEOVERS] (s.onRc.countUp Reg.MASTER_FAILS)
      ((s.onRc.countUp Reg.MASTER_FAILS).recordFault causeMasterClock 0 none) := recordFault_only _ _ _ _ (by decide) .refl
  have hc : OnlyIn [.freeCtr] [Reg.MASTER_FAILS] s.onRc (s.onRc.countUp Reg.MASTER_FAILS) :=
    countUp_only _ _ (by decide) (by decide) .refl
  refine ⟨(hf.pieces .tide (by decide) (by decide)).trans (hc.pieces .tide (by decide) (by decide)), fun h => ?_⟩
  exact (hf.entries (by decide) _ (by decide)).trans (State.reg_countUp (s := s.onRc) h)

theorem exec_rcTrim (hr : s.tide.running = true) (hm : s.tide.source ≠ .master) (hx : s.rtc.xtalFail = false) (e : Int) :
    exec (.rcTrim e) s = .next ((s.withTide { s.tide with rcTrimmed := true }).setRegI Reg.MASTER_ERROR e) :=
  congrArg Host.Outcome.next (if_neg (by simp [hr, hm, hx]))

/-! ### The rate mode -/

theorem rateModeRule_takes {v : Nat} (hv : v = 30 ∨ v = 60 ∧ s.reg Reg.VARIANT = 60)
    (hl : s.linkRefuses { s.linkCfg with rate := v } = false) : rateModeRule s v = s.putEntry Reg.RATE_MODE v :=
  (if_neg (by rw [hl]; simp)).trans (if_pos hv)

theorem rateModeRule_refuses {v : Nat} (hv : ¬(v = 30 ∨ v = 60 ∧ s.reg Reg.VARIANT = 60)) : rateModeRule s v = (.range, s) := by
  by_cases h : (v = 30 ∨ v = 60) ∧ s.linkRefuses { s.linkCfg with rate := v } = true
  · exact if_pos h
  · exact (if_neg h).trans (if_neg hv)

theorem rateModeRule_infeasible {v : Nat} (hv : v = 30 ∨ v = 60) (hl : s.linkRefuses { s.linkCfg with rate := v } = true) :
    rateModeRule s v = (.range, s) := if_pos ⟨hv, hl⟩

/-- The entries of a new epoch. -/
def State.epochEntries (s : State) : State :=
  (((s.setReg Reg.EPOCH_FRAME s.frame).setReg Reg.EPOCH_TICK s.tick).setReg Reg.EPOCH_T64 s.now).setReg Reg.RATE_ACTIVE (s.reg Reg.RATE_MODE)

theorem epochEntries_reg (s : State) : s.epochEntries.reg Reg.RATE_ACTIVE = s.reg Reg.RATE_MODE % 256 ∧
    s.epochEntries.reg Reg.EPOCH_T64 = s.now % 2 ^ 64 ∧ s.epochEntries.reg Reg.EPOCH_FRAME = s.frame % 2 ^ 32 ∧
    s.epochEntries.reg Reg.EPOCH_TICK = s.tick % 2 ^ 32 := by
  unfold State.epochEntries
  refine ⟨State.reg_setReg_self _ _ _, ?_, ?_, ?_⟩
  · rw [State.reg_setReg_ne _ (by decide)]
    exact State.reg_setReg_self _ _ _
  · rw [State.reg_setReg_ne _ (by decide), State.reg_setReg_ne _ (by decide), State.reg_setReg_ne _ (by decide)]
    exact State.reg_setReg_self _ _ _
  · rw [State.reg_setReg_ne _ (by decide), State.reg_setReg_ne _ (by decide)]
    exact State.reg_setReg_self _ _ _

/-- A cycle that a new epoch meets, the filter and the PWM errors that start afresh. -/
def State.epochUnits (s : State) : State := ((s.epochCycle).clearFilter).clearPwmErrors

theorem epochUnits_only (s : State) : OnlyIn [.cal, .pipe, .act] [] s s.epochUnits :=
  clearPwmErrors_only _ (by decide) (clearFilter_only _ (by decide) (epochCycle_only _ (by decide) .refl))

theorem epochUnits_acc {o : OutUnit} (h : o ∈ s.epochUnits.act.outs) : o.acc = 0 := by
  obtain ⟨p, -, rfl⟩ := List.mem_map.mp h
  rfl

theorem exec_newEpoch (hb : s.epochBoundary = true) (hr : s.reg Reg.RATE_MODE ≠ s.rate) : ∃ p, exec .newEpoch s =
    .next ((s.epochEntries.epochUnits.pushLog Lt.RATE_CHANGE p).trigger trRate) :=
  ⟨_, congrArg Host.Outcome.next (if_pos (by simp [hb, hr]))⟩

theorem epochBoundary_of (hr : s.tide.running = true) (h0 : 0 < s.epochClocks)
    (hm : s.epochClocks % (clocksPerFrame s.rate * (if s.rate = 60 then 125 else 63)) = 0) : s.epochBoundary = true := by
  unfold State.epochBoundary
  have h : s.epochClocks ≠ 0 := by omega
  rw [hr, hm]
  simp [h]

theorem newEpoch_does (hr : s.tide.running = true) (h0 : 0 < s.epochClocks)
    (hm : s.epochClocks % (clocksPerFrame s.rate * (if s.rate = 60 then 125 else 63)) = 0) (hne : s.reg Reg.RATE_MODE ≠ s.rate) :
    Does .newEpoch s [.log, .act, .pipe, .cal] [Reg.EPOCH_FRAME, Reg.EPOCH_T64, Reg.EPOCH_TICK, Reg.RATE_ACTIVE] fun t =>
      t.reg Reg.RATE_ACTIVE = s.reg Reg.RATE_MODE % 256 ∧ t.reg Reg.EPOCH_T64 = s.now % 2 ^ 64 ∧
        t.reg Reg.EPOCH_FRAME = s.frame % 2 ^ 32 ∧ t.reg Reg.EPOCH_TICK = s.tick % 2 ^ 32 ∧
        bitAt t.cal.triggers trRate = true ∧ (∀ o, o ∈ t.act.outs → o.acc = 0) ∧ (s.log.queue.length < 256 →
          ∃ r, t.log.queue = s.log.queue ++ [r] ∧ r.typ = Lt.RATE_CHANGE ∧ r.seq = s.log.nextSeq) := by
  obtain ⟨p, he⟩ := exec_newEpoch (epochBoundary_of hr h0 hm) hne
  refine .of_only (execNewEpoch_only s (by decide) .refl) he ?_
  have hu := epochUnits_only s.epochEntries
  have hlog : s.epochEntries.epochUnits.log = s.log := hu.pieces .log (by decide) (by decide)
  have ht : OnlyIn [.log, .cal] [] s.epochEntries.epochUnits ((s.epochEntries.epochUnits.pushLog Lt.RATE_CHANGE p).trigger trRate) :=
    trigger_only _ _ (by decide) (pushLog_only _ _ _ (by decide) .refl)
  have hreg (k : Nat) : ((s.epochEntries.epochUnits.pushLog Lt.RATE_CHANGE p).trigger trRate).reg k = s.epochEntries.reg k :=
    (ht.entries (by decide) k List.not_mem_nil).trans (hu.entries (by decide) k List.not_mem_nil)
  obtain ⟨hrate, ht64, hframe, htick⟩ := epochEntries_reg s
  refine ⟨(hreg _).trans hrate, (hreg _).trans ht64, (hreg _).trans hframe, (hreg _).trans htick, bitAt_bitOn_self _ _, ?_, fun hq => ?_⟩
  · rw [ht.act_eq rfl]
    exact fun o => epochUnits_acc
  · have hlt : s.epochEntries.epochUnits.log.queue.length < 256 := by rw [hlog]; exact hq
    have hp := congrArg Log.queue (pushLog_queue hlt Lt.RATE_CHANGE p)
    rw [hlog] at hp
    exact ⟨_, hp, rfl, rfl⟩

/-- Settles O16: the tide's own commands, the rule of `RATE_MODE`, and the new epoch. -/
theorem clockAndRate : Obligations.ClockAndRate := by
  refine ⟨⟨fun p s => ?_, fun p s => ?_, fun s hr hm => ?_, fun s hr => ?_, fun e s hr hm hx _ _ => ?_, fun s hm => ⟨fun hc => ?_, fun hc => ?_⟩⟩,
    fun s w ha => ⟨fun hv hl hs => ?_, fun hv => ?_, fun hv hl => ?_⟩, fun s hr h0 hm hne => newEpoch_does hr h0 hm hne⟩
  · exact .of_only (execPllUnlock_only p s (by decide) .refl) rfl ⟨rfl, fun _ => mem_unlock⟩
  · exact .of_only (execPllLock_only p s (by decide) .refl) rfl ⟨rfl, fun _ => mem_lock⟩
  · refine .of_only (execMasterClockLoss_only s (by decide) .refl) (exec_masterClockLoss hr hm) ?_
    obtain ⟨ht, hn⟩ := masterClockLoss_kept s
    unfold State.now
    rw [ht]
    refine ⟨fun h1 h2 => ?_, fun h => ?_, rfl, rfl, rfl, rfl, fun p => ?_, rfl, hn⟩
    · exact congrArg ClockSrc.rc (rcQuay_a h1 h2)
    · exact congrArg ClockSrc.rc (rcQuay_b h)
    · have hl : s.onRc.tide.unlocked = [.pipeline, .pilot, .dram, .bus, .dphy] := rfl
      rw [hl]
      cases p <;> decide
  · exact .of_only (execPllRelock_only s (by decide) .refl) (congrArg Host.Outcome.next (if_pos hr)) rfl
  · exact .of_only (execRcTrim_only e s (by decide) .refl) (exec_rcTrim hr hm hx e) ⟨rfl, State.reg_setRegI _ _⟩
  · exact .of_only (execClockReturn_only s (by decide) .refl) (congrArg Host.Outcome.next (if_pos ⟨hm, hc⟩)) rfl
  · exact congrArg Host.Outcome.next (if_neg fun h => hc h.2)
  · exact Takes.rule rfl ha hs (rateModeRule_takes (s := s.taken _) hv hl)
  · exact Refuses.rule rfl ha (rateModeRule_refuses (s := s.taken _) hv)
  · exact Refuses.rule rfl ha (rateModeRule_infeasible (s := s.taken _) hv hl)

end Sys2Proof.Machine
end

section
/-!
PROOF. The mains phase unit (R42 to R45).
-/
namespace Sys2Proof.Machine

variable {s t : State} {w : Wr}

/-! ### `MAINS_MODE` -/

theorem inRange_mainsMode {v : Nat} : inRange Reg.MAINS_MODE v = true ↔ v ≤ 2 :=
  (inRange_unsigned (lo := 0) (hi := 2) rfl rfl rfl).trans (and_iff_right v.zero_le)

/-- What a write of `MAINS_MODE` does beside its entry. -/
def State.mainsModeSet (v : Nat) (t : State) : State :=
  if v = 0 then (t.setReg Reg.MAINS_STATE msOff).gatesOff
  else if t.reg Reg.MAINS_STATE = msOff then t.mainsOn
  else if v = 2 then t.mainsFree else t

theorem mainsModeRule_eq {v : Nat} (h : v ≤ 2) :
    mainsModeRule s v = andThen (s.putEntry Reg.MAINS_MODE v) (State.mainsModeSet v) := by
  unfold mainsModeRule
  rw [plainRule_pos (inRange_mainsMode.mpr h)]
  rfl

theorem mainsModeRule_range {v : Nat} (h : 2 < v) : mainsModeRule s v = (.range, s) := by
  unfold mainsModeRule
  rw [plainRule_neg fun e => absurd (inRange_mainsMode.mp e) (by omega)]
  rfl

theorem mainsModeSet_only (v : Nat) (u : State) :
    OnlyIn [.mains, .act] [Reg.MAINS_STATE, Reg.HALF_PERIOD] u (u.mainsModeSet v) := by
  unfold State.mainsModeSet
  split
  · exact gatesOff_only _ (by decide) (setReg_only _ _ _ (by decide) .refl)
  · split
    · exact mainsOn_only _ (by decide) .refl
    · split
      · exact mainsFree_only _ (by decide) .refl
      · exact .refl

/-- An output's gate held off. -/
def OutUnit.gateHeld (o : OutUnit) : OutUnit := { o with fireAt := none, gate := false, gateOff := none }

/-- An output with its gate held off reads so; one that the device has not reads as at rest. -/
theorem out_setOut_held (u : State) (i : Nat) : ((u.setOut i (u.out i).gateHeld).out i).gate = false ∧
    ((u.setOut i (u.out i).gateHeld).out i).fireAt = none := by
  rcases Nat.lt_or_ge i u.act.outs.length with h | h
  · rw [out_setOut_self h]
    exact ⟨rfl, rfl⟩
  · have hs : (u.setOut i (u.out i).gateHeld).out i = OutUnit.idle := by
      unfold State.out State.setOut
      rw [getD_of_length_le (by simpa using h)]
    rw [hs]
    exact ⟨rfl, rfl⟩

theorem gatesOff_gate (u : State) {n : Nat} (h8 : 8 ≤ n) (h12 : n < 12) :
    (u.gatesOff.out n).gate = false ∧ (u.gatesOff.out n).fireAt = none := by
  have step (v : State) (i j : Nat) (hv : (v.out j).gate = false ∧ (v.out j).fireAt = none) :
      ((v.setOut i (v.out i).gateHeld).out j).gate = false ∧ ((v.setOut i (v.out i).gateHeld).out j).fireAt = none := by
    by_cases h : j = i
    · rw [h]; exact out_setOut_held v i
    · rw [out_setOut_ne h]; exact hv
  let a := u.setOut 8 (u.out 8).gateHeld
  let b := a.setOut 9 (a.out 9).gateHeld
  let c := b.setOut 10 (b.out 10).gateHeld
  have hd : u.gatesOff = c.setOut 11 (c.out 11).gateHeld := rfl
  rw [hd]
  have hn : n = 8 ∨ n = 9 ∨ n = 10 ∨ n = 11 := by omega
  rcases hn with rfl | rfl | rfl | rfl
  · exact step c 11 8 (step b 10 8 (step a 9 8 (out_setOut_held u 8)))
  · exact step c 11 9 (step b 10 9 (out_setOut_held a 9))
  · exact step c 11 10 (out_setOut_held b 10)
  · exact out_setOut_held c 11

theorem mainsHold_state (s : State) : s.mainsHold.reg Reg.MAINS_STATE = msHoldover :=
  s.reg_setReg_self Reg.MAINS_STATE msHoldover

theorem mainsFree_state (s : State) : s.mainsFree.reg Reg.MAINS_STATE = msFree :=
  s.reg_setReg_self Reg.MAINS_STATE msFree

/-- What `MAINS_MODE` asks of the unit it is written in. -/
theorem mainsModeSet_does (v : Nat) (u : State) :
    (v = 0 → (u.mainsModeSet v).reg Reg.MAINS_STATE = msOff ∧ (u.mainsModeSet v).mains = u.mains ∧
      ∀ n, 8 ≤ n → n < 12 → ((u.mainsModeSet v).out n).gate = false ∧ ((u.mainsModeSet v).out n).fireAt = none) ∧
    (v ≠ 0 → (u.mainsModeSet v).act = u.act ∧ (u.reg Reg.MAINS_STATE = msOff →
      (u.mainsModeSet v).reg Reg.MAINS_STATE = msFree ∧ (u.mainsModeSet v).mains.phaseRef = u.now ∧
        (u.mainsModeSet v).mains.slewLeft = 0)) ∧
    (v = 2 → u.reg Reg.MAINS_STATE ≠ msOff →
      (u.mainsModeSet v).reg Reg.MAINS_STATE = msFree ∧ (u.mainsModeSet v).mains.slewLeft = 10) := by
  unfold State.mainsModeSet
  refine ⟨fun hv => ?_, fun hv => ⟨?_, fun hoff => ?_⟩, fun hv hon => ?_⟩
  · rw [if_pos hv]
    have hf : OnlyIn [.act] [] (u.setReg Reg.MAINS_STATE msOff) (u.setReg Reg.MAINS_STATE msOff).gatesOff :=
      gatesOff_only _ (by decide) .refl
    refine ⟨?_, hf.pieces .mains (by decide) (by decide), fun n h8 h12 => gatesOff_gate _ h8 h12⟩
    rw [hf.entries (by decide) _ List.not_mem_nil, State.reg_setReg_self]
    rfl
  · rw [if_neg hv]
    split
    · rfl
    · split <;> rfl
  · rw [if_neg hv, if_pos hoff]
    refine ⟨?_, rfl, rfl⟩
    exact (State.reg_setReg_ne _ (by decide)).trans (State.reg_setReg_self _ _ _)
  · rw [if_neg (by omega), if_neg hon, if_pos hv]
    exact ⟨mainsFree_state u, rfl⟩

theorem mainsModeWrite_takes (ha : s.accepts w Reg.MAINS_MODE) (hv : w.val ≤ 2) (hs : s.stores Reg.MAINS_MODE w.val) :
    TakesWith (.mainsModeWrite w) s w Reg.MAINS_MODE [.mains, .act] [Reg.MAINS_STATE, Reg.HALF_PERIOD] fun t =>
      (w.val = 0 → t.reg Reg.MAINS_STATE = msOff ∧ t.mains = s.mains ∧
        ∀ n, 8 ≤ n → n < 12 → (t.out n).gate = false ∧ (t.out n).fireAt = none) ∧
      (w.val ≠ 0 → t.act = s.act ∧ (s.reg Reg.MAINS_STATE = msOff →
        t.reg Reg.MAINS_STATE = msFree ∧ t.mains.phaseRef = s.now ∧ t.mains.slewLeft = 0)) ∧
      (w.val = 2 → s.reg Reg.MAINS_STATE ≠ msOff → t.reg Reg.MAINS_STATE = msFree ∧ t.mains.slewLeft = 10) := by
  refine TakesWith.rule (State.mainsModeSet w.val) rfl ha hs (mainsModeRule_eq hv) (mainsModeSet_only _) (by decide) fun n k => ?_
  generalize hu : ({ s with nv := n, klp := (s.taken (wrRequest w Reg.MAINS_MODE)).klp } : State).setReg Reg.MAINS_MODE w.val = u
  have hm : u.reg Reg.MAINS_STATE = s.reg Reg.MAINS_STATE := by
    rw [← hu, State.reg_setReg_ne _ (by decide)]
    rfl
  have hd := mainsModeSet_does w.val u
  have hnow : u.now = s.now := by rw [← hu]; rfl
  have hmains : u.mains = s.mains := by rw [← hu]; rfl
  have hact : u.act = s.act := by rw [← hu]; rfl
  rw [hm, hnow, hmains, hact] at hd
  exact hd

/-! ### Pulses of ZC_IN -/

/-- The T64 of an accepted pulse: its middle less `ZC_OFFSET` (R43). -/
def State.zcTime (s : State) (a b : Nat) : Nat := (((a + b) / 2 : Nat) - s.regI Reg.ZC_OFFSET * clkUs).toNat

/-- A pulse of the wrong length, or too soon after the last accepted crossing. -/
def State.zcBad (s : State) (a b : Nat) : Prop :=
  b - a < 2500 ∨ 100000 < b - a ∨ ∃ c, s.mains.lastAccept = some c ∧ a < c + 2 * clkMs

theorem zcBad_iff (s : State) (a b : Nat) :
    (!within 2500 100000 (b - a) || (s.mains.lastAccept.any fun c => Nat.blt a (c + 2 * clkMs))) = true ↔ s.zcBad a b := by
  unfold State.zcBad within
  simp only [Bool.or_eq_true, Bool.not_eq_true', Bool.and_eq_false_iff, decide_eq_false_iff_not, Nat.not_le, Option.any_eq_true, Nat.blt_eq, or_assoc]

theorem exec_zcPulse_rejected {a b : Nat} (hm : s.reg Reg.MAINS_STATE ≠ msOff) (hb : s.zcBad a b) :
    exec (.zcPulse a b) s = .next (s.incSat Reg.ZC_REJECTS) :=
  congrArg Host.Outcome.next ((if_neg hm).trans (if_pos ((zcBad_iff s a b).mpr hb)))

theorem exec_zcPulse_accepted {a b : Nat} (hm : s.reg Reg.MAINS_STATE ≠ msOff) (hb : ¬ s.zcBad a b) :
    exec (.zcPulse a b) s = .next (s.zcCandidate (s.zcTime a b)) :=
  congrArg Host.Outcome.next ((if_neg hm).trans (if_neg ((not_congr (zcBad_iff s a b)).mpr hb)))

theorem not_zcBad {a b : Nat} (h1 : 2500 ≤ b - a) (h2 : b - a ≤ 100000)
    (h : ∀ c, s.mains.lastAccept = some c → c + 2 * clkMs ≤ a) : ¬ s.zcBad a b := by
  rintro (hb | hb | ⟨c, hc, hb⟩)
  · omega
  · omega
  · exact absurd (h c hc) (by omega)

theorem zcCandidate_free (hf : s.reg Reg.MAINS_STATE = msFree) (hm : s.reg Reg.MAINS_MODE = 1) (cross : Nat) :
    s.zcCandidate cross = ((s.setReg Reg.MAINS_STATE msAcquire).setReg Reg.LAST_ZC_T64 cross).withMains
      { s.mains with count := 0, lastAccept := some cross, spacing := none } := (if_pos hf).trans (if_pos hm)

theorem zcCandidate_track (hl : s.reg Reg.MAINS_STATE = msLocked ∨ s.reg Reg.MAINS_STATE = msHoldover) {cross : Nat}
    (he : (s.zcError cross).1.natAbs ≤ 25000) : s.zcCandidate cross = s.zcTrack cross := by
  have hf : s.reg Reg.MAINS_STATE ≠ msFree := by rcases hl with h | h <;> rw [h] <;> decide
  have hq : s.reg Reg.MAINS_STATE ≠ msAcquire := by rcases hl with h | h <;> rw [h] <;> decide
  exact (if_neg hf).trans ((if_neg hq).trans (if_pos he))

theorem zcCandidate_miss (hl : s.reg Reg.MAINS_STATE = msLocked) (hm : s.mains.missing < 2) {cross : Nat}
    (he : 25000 < (s.zcError cross).1.natAbs) : s.zcCandidate cross =
      (s.incSat Reg.ZC_REJECTS).withMains { s.mains with missing := s.mains.missing + 1 } := by
  have hf : s.reg Reg.MAINS_STATE ≠ msFree := by rw [hl]; decide
  have hq : s.reg Reg.MAINS_STATE ≠ msAcquire := by rw [hl]; decide
  have hl' : (s.incSat Reg.ZC_REJECTS).reg Reg.MAINS_STATE = msLocked := (State.reg_setReg_ne _ (by decide)).trans hl
  have hm' : ¬ 3 ≤ (s.incSat Reg.ZC_REJECTS).mains.missing + 1 := by
    rw [show (s.incSat Reg.ZC_REJECTS).mains = s.mains from rfl]
    omega
  exact (if_neg hf).trans ((if_neg hq).trans ((if_neg (by omega)).trans ((if_neg fun h => h hl').trans (if_neg hm'))))

theorem zcTrack_locked (s : State) (cross : Nat) : (s.zcTrack cross).reg Reg.MAINS_STATE = msLocked ∧
    (s.zcTrack cross).mains.missing = 0 ∧ (s.zcTrack cross).reg Reg.LAST_ZC_T64 = cross % 2 ^ 64 := by
  have hk : Reg.MAINS_STATE ≠ Reg.HALF_PERIOD ∧ Reg.MAINS_STATE ≠ Reg.LAST_ZC_T64 ∧ Reg.LAST_ZC_T64 ≠ Reg.HALF_PERIOD := by decide
  unfold State.zcTrack
  refine ⟨?_, rfl, ?_⟩
  · exact (State.reg_setReg_ne _ hk.1).trans ((State.reg_setReg_ne _ hk.2.1).trans (State.reg_setReg_self _ _ _))
  · exact (State.reg_setReg_ne _ hk.2.2).trans (State.reg_setReg_self _ _ _)

/-- Settles O17: the rule of `MAINS_MODE`, the ways out of LOCKED and HOLDOVER, and the three courses of a pulse. -/
theorem mainsPhase : Obligations.MainsPhase := by
  refine ⟨⟨fun s w ha => ⟨fun hv hs => mainsModeWrite_takes ha hv hs, fun hv => ?_⟩, fun s hl => ?_, fun s hh hw => ?_⟩,
    fun a b s hm hb => ?_, fun a b s h1 h2 hc => ⟨fun hf hm => ?_, fun hl he => ?_, fun hl hm he => ?_⟩⟩
  · exact Refuses.rule rfl ha (mainsModeRule_range hv)
  · exact .of_only (execMainsCrossingMissed_only s (by decide) .refl) (congrArg Host.Outcome.next (if_pos hl)) ⟨mainsHold_state s, rfl⟩
  · exact .of_only (execHoldoverExpiry_only s (by decide) .refl) (congrArg Host.Outcome.next (if_pos ⟨hh, Nat.ble_eq.mpr hw⟩))
      ⟨mainsFree_state s, rfl⟩
  · exact ⟨_, exec_zcPulse_rejected hm hb, incSat_only _ _ (by decide) .refl, s.reg_incSat Reg.ZC_REJECTS⟩
  · have he := exec_zcPulse_accepted (by rw [hf]; decide) (not_zcBad h1 h2 hc)
    rw [zcCandidate_free hf hm] at he
    refine ⟨_, he, withMains_only _ _ (by decide) (setReg_only _ _ _ (by decide) (setReg_only _ _ _ (by decide) .refl)), ?_, ?_, rfl⟩
    · exact (State.reg_setReg_ne _ (by decide)).trans (State.reg_setReg_self _ _ _)
    · exact State.reg_setReg_self _ _ _
  · have hx := exec_zcPulse_accepted (by rcases hl with h | h <;> rw [h] <;> decide) (not_zcBad h1 h2 hc)
    rw [zcCandidate_track hl (cross := s.zcTime a b) he] at hx
    exact ⟨_, hx, zcTrack_only _ _ (by decide) .refl, zcTrack_locked _ _⟩
  · have hx := exec_zcPulse_accepted (by rw [hl]; decide) (not_zcBad h1 h2 hc)
    rw [zcCandidate_miss hl hm (cross := s.zcTime a b) he] at hx
    exact ⟨_, hx, withMains_only _ _ (by decide) (incSat_only _ _ (by decide) .refl), rfl, s.reg_incSat Reg.ZC_REJECTS⟩

end Sys2Proof.Machine
end

section
/-!
PROOF. The grants of a switching window (R18, R19): an invariant of the edges granted and deferred so far.
-/
namespace Sys2Proof.Machine

/-! ### The position of one edge -/

/-- A granted position is one of the window's free ones; a later one than asked for is left only where all of those are taken. -/
theorem grantPos_some {n p : Nat} {used : List Nat} {e : Edge} (h : grantPos n used e = some p) :
    p < n ∧ p ∉ used ∧ (p < e.pos → e.src ≠ 5 ∧ ∀ i, e.pos ≤ i → i < n → i ∈ used) := by
  unfold grantPos at h
  split at h
  · next q hq =>
    obtain rfl := Option.some.inj h
    have hm := List.mem_of_find?_eq_some hq
    have hp := List.find?_some hq
    simp only [Bool.and_eq_true, Nat.ble_eq, Bool.not_eq_true', List.contains_eq_mem, decide_eq_false_iff_not] at hp
    exact ⟨List.mem_range.mp hm, hp.2, fun hlt => absurd hp.1 (by omega)⟩
  · next hq =>
    split at h
    · cases h
    · next h5 =>
      have hm := List.mem_of_find?_eq_some h
      have hp := List.find?_some h
      simp only [Bool.and_eq_true, Bool.not_eq_true', List.contains_eq_mem, decide_eq_false_iff_not] at hp
      refine ⟨List.mem_range.mp (List.mem_reverse.mp hm), hp.2, fun _ => ⟨h5, fun i hi hin => ?_⟩⟩
      have hn := List.find?_eq_none.mp hq i (List.mem_range.mpr hin)
      simpa [hi] using hn

/-! ### The invariant of a window -/

/-- A granted edge comes from one that asked: only its position differs, a triac gate edge never stands before it, and another only where no
later position is left. -/
def grantedFrom (n : Nat) (used : List Nat) (e d : Edge) : Prop :=
  d = { e with pos := d.pos } ∧ (e.pos < d.pos → e.src ≠ 5 ∧ ∀ i, d.pos ≤ i → i < n → i ∈ used)

/-- What holds of the positions used, the grants and the deferred edges once the edges of `l` have been treated. -/
structure Granted (n : Nat) (l : List Edge) (acc : List Nat × List Edge × List Edge) : Prop where
  used    : ∀ i, i ∈ acc.1 ↔ i ∈ acc.2.1.map Edge.pos
  nodup   : (acc.2.1.map Edge.pos).Nodup
  inside  : ∀ e ∈ acc.2.1, e.pos < n
  waiting : ∀ e ∈ acc.2.2, e.pos = 0
  count   : acc.2.1.length + acc.2.2.length = l.length
  origin  : ∀ e ∈ acc.2.1, ∃ d ∈ l, grantedFrom n acc.1 e d

theorem Granted.nil (n : Nat) : Granted n [] ([], [], []) where
  used _ := by simp
  nodup := List.nodup_nil
  inside _ h := by cases h
  waiting _ h := by cases h
  count := rfl
  origin _ h := by cases h

theorem grantedFrom.mono {n : Nat} {e d : Edge} {u v : List Nat} (h : grantedFrom n u e d) (hs : ∀ i ∈ u, i ∈ v) :
    grantedFrom n v e d :=
  ⟨h.1, fun hp => ⟨(h.2 hp).1, fun i h1 h2 => hs i ((h.2 hp).2 i h1 h2)⟩⟩

theorem Granted.step {n : Nat} {l : List Edge} {acc : List Nat × List Edge × List Edge} (h : Granted n l acc) (e : Edge) :
    Granted n (l ++ [e]) (grantStep n acc e) := by
  obtain ⟨used, granted, deferred⟩ := acc
  unfold grantStep
  cases hp : grantPos n used e with
  | none =>
    refine ⟨h.used, h.nodup, h.inside, fun x hx => ?_, ?_, fun x hx => ?_⟩
    · rcases List.mem_append.mp hx with hx | hx
      · exact h.waiting x hx
      · rw [List.mem_singleton.mp hx]
    · have := h.count
      simp only [List.length_append, List.length_singleton] at this ⊢
      omega
    · obtain ⟨d, hd, hg⟩ := h.origin x hx
      exact ⟨d, List.mem_append_left _ hd, hg⟩
  | some p =>
    obtain ⟨hn, hfree, hlate⟩ := grantPos_some hp
    refine ⟨fun i => ?_, ?_, fun x hx => ?_, h.waiting, ?_, fun x hx => ?_⟩
    · have := h.used i
      simp only [List.mem_cons, List.map_append, List.map_cons, List.map_nil, List.mem_append, List.not_mem_nil, or_false] at this ⊢
      rw [this, or_comm]
    · rw [List.map_append, List.nodup_append]
      refine ⟨h.nodup, List.nodup_cons.mpr ⟨List.not_mem_nil, List.nodup_nil⟩, fun a ha b hb => ?_⟩
      rw [List.map_singleton, List.mem_singleton] at hb
      rintro rfl
      rw [hb] at ha
      exact hfree ((h.used p).mpr ha)
    · rcases List.mem_append.mp hx with hx | hx
      · exact h.inside x hx
      · rw [List.mem_singleton.mp hx]; exact hn
    · have := h.count
      simp only [List.length_append, List.length_singleton] at this ⊢
      omega
    · rcases List.mem_append.mp hx with hx | hx
      · obtain ⟨d, hd, hg⟩ := h.origin x hx
        exact ⟨d, List.mem_append_left _ hd, hg.mono fun _ => List.mem_cons_of_mem _⟩
      · rw [List.mem_singleton.mp hx]
        refine ⟨e, List.mem_append_right _ (List.mem_singleton_self e), rfl, fun hlt => ?_⟩
        obtain ⟨h5, hall⟩ := hlate hlt
        exact ⟨h5, fun i h1 h2 => List.mem_cons_of_mem _ (hall i h1 h2)⟩

theorem Granted.foldl {n : Nat} (m : List Edge) {l : List Edge} {acc : List Nat × List Edge × List Edge} (h : Granted n l acc) :
    Granted n (l ++ m) (m.foldl (grantStep n) acc) := by
  induction m generalizing l acc with
  | nil => rwa [List.append_nil]
  | cons e m ih =>
    have := ih (h.step e)
    rwa [List.append_assoc, List.singleton_append] at this

/-! ### The order of the edges -/

/-- The edges of the first `m` priorities, deferred before new ones of their own priority. -/
def grantOrder (deferred new : List Edge) (m : Nat) : List Edge :=
  (List.range m).flatMap fun k => (deferred.filter fun e => e.src == k + 1) ++ new.filter fun e => e.src == k + 1

theorem mem_grantOrder {deferred new : List Edge} {m : Nat} {e : Edge} (h : e ∈ grantOrder deferred new m) :
    e ∈ deferred ∨ e ∈ new := by
  obtain ⟨k, -, hk⟩ := List.mem_flatMap.mp h
  exact (List.mem_append.mp hk).imp (fun h => (List.mem_filter.mp h).1) fun h => (List.mem_filter.mp h).1

/-- One priority more. -/
theorem length_filter_within (l : List Edge) (m : Nat) :
    (l.filter fun e => within 1 (m + 1) e.src).length =
      (l.filter fun e => within 1 m e.src).length + (l.filter fun e => e.src == m + 1).length := by
  have hw (e : Edge) : within 1 (m + 1) e.src = (within 1 m e.src || e.src == m + 1) := by
    unfold within
    rw [Bool.eq_iff_iff]
    simp
    omega
  have hd (e : Edge) (h : (e.src == m + 1) = true) : within 1 m e.src = false := by
    rw [beq_iff_eq.mp h]
    unfold within
    simp
  simp only [← List.countP_eq_length_filter, hw]
  induction l with
  | nil => rfl
  | cons e l ih =>
    rw [List.countP_cons, List.countP_cons, List.countP_cons, ih]
    cases hb : e.src == m + 1 with
    | true => simp [hd e hb]; omega
    | false => simp; omega

theorem length_grantOrder (deferred new : List Edge) (m : Nat) :
    (grantOrder deferred new m).length = ((deferred ++ new).filter fun e => within 1 m e.src).length := by
  induction m with
  | zero =>
    have h0 (l : List Edge) : (l.filter fun e => within 1 0 e.src) = [] := by
      refine List.filter_eq_nil_iff.mpr fun e _ => ?_
      unfold within
      simp
      omega
    rw [h0]
    rfl
  | succ m ih =>
    have hs : grantOrder deferred new (m + 1) = grantOrder deferred new m ++
        ((deferred.filter fun e => e.src == m + 1) ++ new.filter fun e => e.src == m + 1) := by
      unfold grantOrder
      rw [List.range_succ, List.flatMap_append, List.flatMap_singleton]
    rw [hs, length_filter_within, List.length_append, ih, ← List.filter_append]

/-- The invariant at the end of a window. -/
theorem grantWindow_granted (n : Nat) (deferred new : List Edge) : ∃ used,
    Granted n (grantOrder deferred new 9) (used, grantWindow n deferred new) :=
  ⟨((grantOrder deferred new 9).foldl (grantStep n) ([], [], [])).1, (Granted.nil n).foldl (grantOrder deferred new 9)⟩

/-- Settles O18, from the invariant at the end of a window. -/
theorem edgeGrants : Obligations.EdgeGrants := by
  intro n deferred new g
  obtain ⟨used, h⟩ := grantWindow_granted n deferred new
  have horigin (e : Edge) (he : e ∈ g.1) : ∃ d, (d ∈ deferred ∨ d ∈ new) ∧ grantedFrom n used e d := by
    obtain ⟨d, hd, hg⟩ := h.origin e he
    exact ⟨d, mem_grantOrder hd, hg⟩
  refine ⟨h.nodup, h.inside, h.waiting, h.count.trans (length_grantOrder deferred new 9), fun e he h5 => ?_, fun e he => ?_⟩
  · obtain ⟨d, hd, heq, hlate⟩ := horigin e he
    exact ⟨d, hd, Nat.le_of_not_lt fun hlt => (hlate hlt).1 h5, heq⟩
  · obtain ⟨d, hd, heq, hlate⟩ := horigin e he
    refine ⟨d, hd, heq, fun hlt p h1 h2 => ?_⟩
    exact List.mem_map.mp ((h.used p).mp ((hlate hlt).2 p h1 h2))

end Sys2Proof.Machine
end

section
/-!
PROOF. The slots of a frame (R17, R20, R32, R40).
-/
namespace Sys2Proof.Machine

variable {s t : State}

/-! ### Row slots -/

theorem exec_rowSlot_running (h : s.tide.running = true) (i : RowIn) : exec (.rowSlot i) s = .next (s.rowWork i).advanceRow :=
  congrArg Host.Outcome.next (if_pos h)

theorem exec_rowSlot_stopped (h : s.tide.running = false) (i : RowIn) : exec (.rowSlot i) s = .next s :=
  congrArg Host.Outcome.next (if_neg (by rw [h]; decide))

theorem advanceRow_now (s : State) : s.advanceRow.now = s.now + (if s.advanceRow.rate = 60 then 400 else 800) := rfl

theorem atSlot_of (hr : s.tide.running = true) (hp : s.pfail = false) {n : Nat} (hn : s.row = n) : s.atSlot n = true := by
  unfold State.atSlot
  simp [hr, hp, hn]

/-! ### Slot 0 -/

/-- The imager mode in force at a boundary changes no count of saturated pixels; in DARK it is DARK_ARRAY. -/
theorem applyImager_satNow (s : State) : s.applyImager.focal.satNow = s.focal.satNow := by
  unfold State.applyImager
  extract_lets m
  have ha : (s.abortCycle 6).focal = s.focal :=
    (abortCycle_only (pl := [.cal]) (pk := []) s 6 (by decide) .refl).pieces .focal (by decide) (by decide)
  split
  · split
    · rfl
    · have hd : (s.abortCycle 6).darkArray.focal.satNow = (s.abortCycle 6).focal.satNow := rfl
      rw [hd, ha]
  · have hb (u : State) : (u.setReg Reg.IMAGER_ACTIVE m).focal = u.focal := rfl
    rw [hb]
    split <;> rfl

theorem wantImager_dark (h : s.phase = .dark) : s.wantImager = imDark := if_pos (.inl h)

theorem applyImager_dark (h : s.phase = .dark) : s.applyImager.reg Reg.IMAGER_ACTIVE = imDark := by
  unfold State.applyImager
  rw [wantImager_dark h]
  dsimp only
  rw [if_pos rfl]
  split
  · assumption
  · exact darkArray_dark _

/-- Slot 0 of a new frame: the time sample, the counts of the frame, and DARK_ARRAY in DARK. -/
theorem newFrame_starts (s : State) :
    s.newFrame.tide = { s.tide with sampleT64 := s.now, sampleTicks := s.rtc.ticks, degraded := decide (s.tide.source ≠ .master)
                                    frameDegraded := decide (s.tide.source ≠ .master) } ∧
      s.newFrame.reg Reg.SHADOW_INDEX = (s.reg Reg.SHADOW_INDEX + 1) % 40 ∧ s.newFrame.pipe.replaced = 0 ∧
      s.newFrame.pipe.invalid = 0 ∧ s.newFrame.pipe.screened = 0 ∧ s.newFrame.focal.satNow = 0 ∧
      (s.phase = .dark → s.newFrame.reg Reg.IMAGER_ACTIVE = imDark) := by
  unfold State.newFrame
  extract_lets s1 s2 s3 s4 s5 s6
  have h3 : OnlyIn [.focal, .pipe, .cal] [Reg.IMAGER_ACTIVE] s1 s3 := applyImager_only _ (by decide) (withFocal_only _ _ (by decide) .refl)
  have h5 : OnlyIn [.pipe, .cal] [] s3 s5 := withPipe_only _ _ (by decide) (withCal_only _ _ (by decide) .refl)
  have h6 : OnlyIn [.klp, .bus, .berth, .video] [] s5 (s6.withBerth s6.berth.nextFrame).videoFrame :=
    videoFrame_only _ (by decide) (withBerth_only _ _ (by decide) (takeEdits_only _ (by decide) .refl))
  generalize (s6.withBerth s6.berth.nextFrame).videoFrame = t at h6
  have htide : t.tide = s1.tide := by
    rw [h6.pieces .tide (by decide) (by decide), h5.pieces .tide (by decide) (by decide), h3.pieces .tide (by decide) (by decide)]
  have hfocal : t.focal = s3.focal := by
    rw [h6.pieces .focal (by decide) (by decide), h5.pieces .focal (by decide) (by decide)]
  have hpipe : t.pipe = s5.pipe := h6.pieces .pipe (by decide) (by decide)
  have hreg (k : Nat) : t.reg k = s3.reg k := by
    rw [h6.entries (by decide) k List.not_mem_nil, h5.entries (by decide) k List.not_mem_nil]
  have hshadow : s1.reg Reg.SHADOW_INDEX = (s.reg Reg.SHADOW_INDEX + 1) % 40 % 2 ^ keyBits Reg.SHADOW_INDEX :=
    State.reg_setReg_self _ _ _
  rw [htide, hfocal, hpipe, hreg, hreg, h3.entries (by decide) _ (by decide), hshadow]
  refine ⟨?_, ?_, ?_, ?_, ?_, ?_, ?_⟩
  · rfl
  · exact Nat.mod_eq_of_lt (Nat.lt_of_lt_of_le (Nat.mod_lt _ (by decide)) (by decide))
  · rfl
  · rfl
  · rfl
  · rw [applyImager_satNow s2]; rfl
  · intro hd
    exact applyImager_dark (s := s2) hd

/-! ### Slot 2064 -/

/-- A band's reading taken, if its conversion succeeded. -/
def State.takeBand (bands : List (Option Nat)) (s : State) (n : Nat) : State :=
  match bands.getD n none with
  | some v => s.setReg (Reg.BAND_TEMP n) v
  | none => s

/-- A reading among those taken is in its entry; the other entries of readings stand. -/
theorem takeBand_foldl {bands : List (Option Nat)} {n v : Nat} (hn : n < 16) (hv : bands.getD n none = some v) (l : List Nat) (s : State) :
    (l.foldl (State.takeBand bands) s).reg (Reg.BAND_TEMP n) = if n ∈ l then v % 2 ^ 32 else s.reg (Reg.BAND_TEMP n) := by
  have hbits : keyBits (Reg.BAND_TEMP n) = 32 :=
    (by decide : ∀ n < 16, keyBits (Reg.BAND_TEMP n) = 32) n hn
  have hne (m : Nat) (h : n ≠ m) (s : State) : (s.takeBand bands m).reg (Reg.BAND_TEMP n) = s.reg (Reg.BAND_TEMP n) := by
    unfold State.takeBand
    split
    · exact State.reg_setReg_ne _ (by unfold Reg.BAND_TEMP; omega)
    · rfl
  induction l generalizing s with
  | nil => rfl
  | cons m l ih =>
    rw [List.foldl_cons, ih]
    by_cases h : n = m
    · subst h
      have hs : (s.takeBand bands n).reg (Reg.BAND_TEMP n) = v % 2 ^ 32 := by
        unfold State.takeBand
        rw [hv]
        exact (State.reg_setReg_self _ _ _).trans (by rw [hbits])
      rw [hs, ite_self, if_pos List.mem_cons_self]
    · rw [hne m h]
      simp only [List.mem_cons, h, false_or]

theorem takeBands_reg {bands : List (Option Nat)} {n v : Nat} (hn : n < 16) (hv : bands.getD n none = some v) (s : State) :
    (s.takeBands bands).reg (Reg.BAND_TEMP n) = v % 2 ^ 32 := by
  have h := takeBand_foldl hn hv (List.range 16) s
  rw [if_pos (List.mem_range.mpr hn)] at h
  unfold State.takeBands
  generalize List.range 16 = l at h ⊢
  exact h

/-- The supply's reading taken. -/
def State.takeVin (s : State) (v : Nat) : State := { s with act := { s.act with vin := v } }

/-- The close's time taken for the table and the stream. -/
def State.stampClose (s : State) : State :=
  (s.withBerth { s.berth with tableNext := s.now }).withVideo { s.video with closeT64 := s.now }

/-- The frame's close up to its clock. -/
def State.closeWork (s : State) (i : CloseIn) : State :=
  ((((((s.takeVin i.vin).takeBands i.bands).takeFlag i.ntc i.pos).gradientClose).noteMean).latchFrame.closeBerths).stampClose.calClose

theorem closeFrame_eq (s : State) (i : CloseIn) : s.closeFrame i = (s.closeWork i).clockClose.scrubClose i := by
  unfold State.closeFrame State.closeWork
  rfl

theorem closeWork_only (s : State) (i : CloseIn) :
    OnlyIn [.regs, .phase, .klp, .nv, .log, .bus, .berth, .focal, .pipe, .cal, .video, .freeCtr] [] (s.takeVin i.vin) (s.closeWork i) :=
  calClose_only _ (by decide) (withVideo_only _ _ (by decide) (withBerth_only _ _ (by decide) (closeBerths_only _ (by decide)
    (latchFrame_only _ (by decide) (noteMean_only _ (by decide) (gradientClose_only _ (by decide)
      (takeFlag_only _ _ _ (by decide) (takeBands_only _ _ (by decide) .refl))))))))

theorem clockClose_tide (s : State) :
    (s.tide.returnReady = true → s.clockClose.tide.source = .master ∧ s.clockClose.tide.masterLost = false) ∧
      (s.tide.returnReady = false → s.clockClose.tide = s.tide) := by
  unfold State.clockClose
  constructor
  · intro h
    rw [if_pos h]
    exact ⟨rfl, rfl⟩
  · intro h
    rw [if_neg (by rw [h]; decide)]

theorem closeFrame_clock (s : State) (i : CloseIn) : (s.closeFrame i).act = { s.act with vin := i.vin } ∧
    (s.tide.returnReady = true → (s.closeFrame i).tide.source = .master ∧ (s.closeFrame i).tide.masterLost = false) ∧
    (s.tide.returnReady = false → (s.closeFrame i).tide = s.tide) := by
  have hu := closeWork_only s i
  have he := closeFrame_eq s i
  generalize s.closeWork i = u at hu he
  have hs : OnlyIn [.regs, .klp, .nv, .log, .bus, .freeCtr] [] u.clockClose (u.clockClose.scrubClose i) :=
    scrubClose_only _ _ (by decide) .refl
  have hc : OnlyIn [.tide] [] u u.clockClose := clockClose_only _ (by decide) .refl
  have htide : u.tide = s.tide := hu.pieces .tide (by decide) (by decide)
  have h := clockClose_tide u
  rw [htide] at h
  rw [he, hs.act_eq rfl, hc.act_eq rfl, hu.act_eq rfl, hs.pieces .tide (by decide) (by decide)]
  exact ⟨rfl, h⟩

/-- Settles O19: each slot's own work, the close through its clock. -/
theorem frameSlots : Obligations.FrameSlots := by
  refine ⟨fun i s hr => ?_, fun i s hr => exec_rowSlot_stopped hr i, fun s hr hp h0 => ?_, fun s hr hp h0 h1 => ?_,
    fun i s hr hp h0 => ?_, fun s bands n v hn hv => takeBands_reg hn hv s⟩
  · refine .of_only (execRowSlot_only i s (by decide) .refl) (exec_rowSlot_running hr i) ?_
    rw [advanceRow_now, rowWork_now]
  · exact .of_only (execFrameBoundary_only s (by decide) .refl) (congrArg Host.Outcome.next (if_pos (atSlot_of hr hp h0)))
      (newFrame_starts s)
  · exact .of_only (execSettlingEnd_only s (by decide) .refl)
      (congrArg Host.Outcome.next (if_pos (by rw [atSlot_of hr hp h0, h1]; rfl))) rfl
  · obtain ⟨ha, ht⟩ := closeFrame_clock s i
    exact .of_only (execFrameClose_only i s (by decide) .refl) (congrArg Host.Outcome.next (if_pos (atSlot_of hr hp h0)))
      ⟨ha, closeFrame_now s i, ht⟩

end Sys2Proof.Machine
end

section
/-!
PROOF. The control tick (R32, R232, R254).
-/
namespace Sys2Proof.Machine

variable {s t : State}

/-! ### Challenges -/

theorem challenge_running {q : Quay} (h : (s.quay q).running = true) :
    s.challenge q = (s.setQuay q { s.quay q with challenge := some (s.free % 2 ^ 32) }).tickFree := if_pos h

theorem challenge_stopped {q : Quay} (h : (s.quay q).running = false) : s.challenge q = s := if_neg (by rw [h]; decide)

/-- A challenge changes the quays alone of the harbourmaster. -/
theorem challenge_hm (s : State) (q : Quay) : (s.challenge q).hm = { s.hm with quays := (s.challenge q).hm.quays } := by
  unfold State.challenge
  split <;> rfl

theorem challenge_other (s : State) (q : Quay) : (s.challenge q).quay q.other = s.quay q.other := by
  unfold State.challenge
  split
  · exact quay_setQuay_other _
  · rfl

/-- A quay after a challenge of it: a running one has it open, and its state stands. -/
theorem challenge_self (s : State) (q : Quay) : ((s.challenge q).quay q).st = (s.quay q).st ∧
    ((s.quay q).running = true → ((s.challenge q).quay q).challenge.isSome = true) := by
  by_cases h : (s.quay q).running = true
  · have hq : (s.challenge q).quay q = { s.quay q with challenge := some (s.free % 2 ^ 32) } := by
      rw [challenge_running h]
      exact quay_setQuay_self _
    rw [hq]
    exact ⟨rfl, fun _ => rfl⟩
  · rw [challenge_stopped (Bool.eq_false_iff.mpr h)]
    exact ⟨rfl, fun hr => absurd hr h⟩

theorem challenge_both (s : State) (q : Quay) : (((s.challenge .a).challenge .b).quay q).st = (s.quay q).st ∧
    ((s.quay q).running = true → (((s.challenge .a).challenge .b).quay q).challenge.isSome = true) := by
  cases q with
  | a =>
    have hb : ((s.challenge .a).challenge .b).quay .a = (s.challenge .a).quay .a := challenge_other (s.challenge .a) .b
    rw [hb]
    exact challenge_self s .a
  | b =>
    have ha : (s.challenge .a).quay .b = s.quay .b := challenge_other s .a
    have h := challenge_self (s.challenge .a) .b
    rwa [ha] at h

/-- The hardware's part of the tick: it challenges both quays, and leaves the rest of the harbourmaster. -/
theorem hardwareTick_hm (s : State) (i : TickIn) : (s.hardwareTick i).hm = ((s.challenge .a).challenge .b).hm := by
  have hfold (u : State) (l : List Nat) : OnlyIn [.act] [] u (l.foldl (State.sampleOut · i.cur i.lim ·) u) :=
    OnlyIn.foldl .refl fun v n hv => sampleOut_only _ _ _ _ (by decide) hv
  have h : OnlyIn [.power, .video, .pwr, .klp, .log, .bus, .act, .sens] [Reg.ROUND_OVERRUNS] ((s.challenge .a).challenge .b)
      (s.hardwareTick i) := by
    unfold State.hardwareTick
    extract_lets u v
    have hu : OnlyIn [.power, .video, .pwr, .klp, .log, .bus, .act, .sens] [Reg.ROUND_OVERRUNS] ((s.challenge .a).challenge .b) u :=
      sampleInputs_only _ _ (by decide) .refl
    exact tickRound_only _ (by decide) (takeRxMap_only _ (by decide) (sampleFan_only _ _ _ (by decide)
      (sampleFan_only _ _ _ (by decide) (hu.trans ((hfold u _).mono (by decide))))))
  exact h.hm_eq rfl

theorem hardwareTick_kept (s : State) (i : TickIn) :
    (s.hardwareTick i).hm = { s.hm with quays := (s.hardwareTick i).hm.quays } := by
  rw [hardwareTick_hm, challenge_hm, challenge_hm]

/-! ### The token after STORM -/

theorem tokenAfterStorm_none (h : s.hm.stormExit = none) : s.tokenAfterStorm = s := by
  unfold State.tokenAfterStorm
  rw [h]

/-- STORM's successor still stands by, and nobody owns the token. -/
theorem tokenAfterStorm_granted {q : Quay} (h : s.hm.stormExit = some q) (ho : s.hm.owner = none) (hq : s.qst q = .standby) :
    s.tokenAfterStorm.hm = { s.hm with
      stormExit := none, owner := some q, standbyReady := false
      quays := s.hm.quays.set q { s.quay q with st := .active, passHeld := false, inReset := false } } := by
  have hc : (s.hm.owner.isSome || s.qst q != .standby) = false := by rw [ho, hq]; rfl
  unfold State.tokenAfterStorm
  rw [h]
  dsimp only
  rw [hc, if_neg (by decide), restoreCheckpoint_hm]
  have hg := grantToken_hm (s.withHm { s.hm with stormExit := none }) q
  unfold State.withHm at hg ⊢
  dsimp only at hg ⊢
  rw [hg]
  rfl

theorem tokenAfterStorm_passed {q : Quay} (h : s.hm.stormExit = some q) (hn : ¬ (s.hm.owner = none ∧ s.qst q = .standby)) :
    s.tokenAfterStorm.hm = { s.hm with stormExit := none } := by
  have hc : (s.hm.owner.isSome || s.qst q != .standby) = true := by
    cases ho : s.hm.owner with
    | none => simpa using fun e => hn ⟨ho, e⟩
    | some x => rfl
  unfold State.tokenAfterStorm
  rw [h]
  dsimp only
  rw [hc]
  rfl

/-- The token after STORM leaves the takeover and every open challenge. -/
theorem tokenAfterStorm_kept (s : State) : s.tokenAfterStorm.hm.takeover = s.hm.takeover ∧
    ∀ r, (s.tokenAfterStorm.quay r).challenge = (s.quay r).challenge := by
  cases h : s.hm.stormExit with
  | none => rw [tokenAfterStorm_none h]; exact ⟨rfl, fun _ => rfl⟩
  | some q =>
    by_cases hc : s.hm.owner = none ∧ s.qst q = .standby
    · have hm := tokenAfterStorm_granted h hc.1 hc.2
      refine ⟨by rw [hm], fun r => ?_⟩
      unfold State.quay
      rw [hm]
      rcases Quay.eq_or_other q r with rfl | rfl
      · rw [PerQuay.get_set_self]; rfl
      · rw [PerQuay.get_set_other]
    · have hm := tokenAfterStorm_passed h hc
      exact ⟨by rw [hm], fun r => by unfold State.quay; rw [hm]⟩

theorem freshHandover_idle (h : s.hm.takeover = none) : s.freshHandover = s := by
  unfold State.freshHandover
  rw [h]

/-- The active pilot's work leaves the harbourmaster, but for the ticks that a salvage waits. -/
theorem pilotTick_hm (s : State) (i : TickIn) : (s.pilotTick i).hm = { s.hm with salvageIn := (s.pilotTick i).hm.salvageIn } := by
  unfold State.pilotTick
  split
  · rfl
  · extract_lets t h
    have ht : t.hm = s.hm := OnlyIn.hm_eq (l := [.regs, .klp, .bus, .loop, .act]) (ks := []) (sendGroups_only _ (by decide)
      (runLoops_only _ _ (by decide) (updateZones_only _ (by decide) (countLate_only _ _ (by decide) .refl)))) rfl
    have hu : (((t.drainFifo .one).drainFifo .two).stageSave i).hm = s.hm :=
      (OnlyIn.hm_eq (l := [.klp, .bus, .nv]) (ks := []) (stageSave_only _ _ (by decide) (drainFifo_only _ _ (by decide)
        (drainFifo_only _ _ (by decide) .refl))) rfl).trans ht
    generalize ((t.drainFifo .one).drainFifo .two).stageSave i = u at hu ⊢
    unfold h
    rw [← hu]
    rfl

/-- The rest of the tick once the token has been settled. -/
theorem tickRest_hm (s : State) (i : TickIn) : ∃ n, ((s.autonomousTick.engineHolds).pilotTick i).hm = { s.hm with salvageIn := n } := by
  have h : s.autonomousTick.engineHolds.hm = s.hm := OnlyIn.hm_eq (l := [.log, .loop]) (ks := [Reg.TABLE_TAKEOVERS])
    (engineHolds_only _ (by decide) (autonomousTick_only _ (by decide) .refl)) rfl
  exact ⟨_, h ▸ pilotTick_hm s.autonomousTick.engineHolds i⟩

theorem exec_controlTick (h : s.atTick = true) (i : TickIn) : exec (.controlTick i) s =
    .next ((((s.hardwareTick i).tokenAfterStorm.freshHandover).autonomousTick.engineHolds).pilotTick i) :=
  congrArg Host.Outcome.next (if_pos h)

theorem atTick_of (hr : s.tide.running = true) (hp : s.pfail = false) (h0 : s.tickRow = 0) : s.atTick = true := by
  unfold State.atTick
  rw [hr, hp, h0]
  rfl

/-- Settles O20: the hardware challenges, the token follows STORM, and the pilot's work leaves both. -/
theorem controlTick : Obligations.ControlTick := by
  intro i s hr hp h0
  refine .of_only (execControlTick_only i s (by decide) .refl) (exec_controlTick (atTick_of hr hp h0) i) ?_
  have hk := hardwareTick_kept s i
  have hquay (q : Quay) : ((s.hardwareTick i).quay q).st = (s.quay q).st ∧
      ((s.quay q).running = true → ((s.hardwareTick i).quay q).challenge.isSome = true) := by
    rw [quay_of_hm (hardwareTick_hm s i)]
    exact challenge_both s q
  generalize s.hardwareTick i = u at hk hquay ⊢
  have hx : u.hm.stormExit = s.hm.stormExit := by rw [hk]
  have ho : u.hm.owner = s.hm.owner := by rw [hk]
  have ht : u.hm.takeover = s.hm.takeover := by rw [hk]
  have hfresh (h : s.hm.takeover = none) : u.tokenAfterStorm.freshHandover = u.tokenAfterStorm :=
    freshHandover_idle ((tokenAfterStorm_kept u).1.trans (ht.trans h))
  have hrest (h : s.hm.takeover = none) : ∃ n,
      (((u.tokenAfterStorm.freshHandover).autonomousTick.engineHolds).pilotTick i).hm = { u.tokenAfterStorm.hm with salvageIn := n } := by
    rw [hfresh h]
    exact tickRest_hm _ i
  generalize (((u.tokenAfterStorm.freshHandover).autonomousTick.engineHolds).pilotTick i) = v at hrest ⊢
  refine ⟨fun q hn hq => ?_, fun q hsx hno hst hn => ?_, fun hsx hn => ?_⟩
  · obtain ⟨n, hv⟩ := hrest hn
    have hvq : v.quay q = u.tokenAfterStorm.quay q := by unfold State.quay; rw [hv]
    rw [hvq, (tokenAfterStorm_kept u).2 q]
    exact (hquay q).2 hq
  · obtain ⟨n, hv⟩ := hrest hn
    rw [tokenAfterStorm_granted (hx.trans hsx) (ho.trans hno) ((hquay q).1.trans hst)] at hv
    unfold State.quay
    rw [hv]
    exact ⟨rfl, by rw [PerQuay.get_set_self], rfl⟩
  · obtain ⟨n, hv⟩ := hrest hn
    rw [tokenAfterStorm_none (hx.trans hsx)] at hv
    rw [hv]
    exact ho

end Sys2Proof.Machine
end

section
/-!
PROOF. Single bits of an entry; gain and factory tables, sun, gradient, band sensors and the converter self-test (R57, R64, R69, R71, R76, R80,
R96, R122, R139, R153).
-/
namespace Sys2Proof.Machine

variable {s t : State}

/-! ### Single bits -/

/-- Adding a bit that is not set changes no other one. -/
theorem bitAt_add_pow {v i j : Nat} (h : bitAt v i = false) (hj : j ≠ i) : bitAt (v + 2 ^ i) j = bitAt v j := by
  have hv : v / 2 ^ i % 2 = 0 := by
    unfold bitAt at h
    have := Nat.mod_two_eq_zero_or_one (v / 2 ^ i)
    rw [beq_eq_false_iff_ne] at h
    omega
  unfold bitAt
  rcases Nat.lt_or_gt_of_ne hj with hlt | hgt
  · obtain ⟨d, rfl⟩ := Nat.exists_eq_add_of_lt hlt
    have hp : 2 ^ (j + d + 1) = 2 ^ d * 2 * 2 ^ j := by
      rw [Nat.pow_succ, Nat.pow_add, Nat.mul_assoc, Nat.mul_comm]
    rw [hp, Nat.add_mul_div_right _ _ (Nat.two_pow_pos j), Nat.add_mul_mod_self_right]
  · obtain ⟨d, rfl⟩ := Nat.exists_eq_add_of_lt hgt
    have hd (u : Nat) : u / 2 ^ (i + d + 1) = u / 2 ^ i / 2 / 2 ^ d := by
      rw [Nat.div_div_eq_div_mul, Nat.div_div_eq_div_mul]
      rw [Nat.pow_succ, Nat.pow_add, Nat.mul_assoc, Nat.mul_comm (2 ^ d)]
    have he : (v + 2 ^ i) / 2 ^ i / 2 = v / 2 ^ i / 2 := by
      rw [Nat.add_div_right _ (Nat.two_pow_pos i)]
      omega
    rw [hd, hd, he]

theorem bitAt_bitOn_ne {v i j : Nat} (hj : j ≠ i) : bitAt (bitOn v i) j = bitAt v j := by
  unfold bitOn
  split
  · rfl
  · next h => exact bitAt_add_pow (Bool.eq_false_iff.mpr h) hj

theorem bitAt_bitOff_self (v i : Nat) : bitAt (bitOff v i) i = false := by
  unfold bitOff
  split
  · next h =>
    have hp := Nat.two_pow_pos i
    have hv : v / 2 ^ i % 2 = 1 := beq_iff_eq.mp h
    have hle : 2 ^ i ≤ v := Nat.le_of_not_lt fun hlt => by rw [Nat.div_eq_of_lt hlt] at hv; omega
    have hs : (v - 2 ^ i) / 2 ^ i = v / 2 ^ i - 1 := by
      have := Nat.sub_mul_div v (2 ^ i) 1
      rwa [Nat.mul_one] at this
    unfold bitAt
    rw [hs, beq_eq_false_iff_ne]
    omega
  · next h => exact Bool.eq_false_iff.mpr h

theorem bitAt_bitOff_ne {v i j : Nat} (hj : j ≠ i) : bitAt (bitOff v i) j = bitAt v j := by
  by_cases h : bitAt v i = true
  · have hoff := bitAt_bitOff_self v i
    have he : bitOff v i + 2 ^ i = v := by
      unfold bitOff
      rw [if_pos h]
      refine Nat.sub_add_cancel (Nat.le_of_not_lt fun hlt => ?_)
      unfold bitAt at h
      rw [Nat.div_eq_of_lt hlt] at h
      cases h
    rw [← bitAt_add_pow hoff hj, he]
  · unfold bitOff
    rw [if_neg h]

theorem bitAt_bitPut (v i j : Nat) (b : Bool) : bitAt (bitPut v i b) j = if j = i then b else bitAt v j := by
  unfold bitPut
  by_cases hj : j = i
  · subst hj
    rw [if_pos rfl]
    cases b
    · exact bitAt_bitOff_self v j
    · exact bitAt_bitOn_self v j
  · rw [if_neg hj]
    cases b
    · exact bitAt_bitOff_ne hj
    · exact bitAt_bitOn_ne hj

/-- Cutting a value to a width keeps the bits within it. -/
theorem bitAt_mod_pow {v w j : Nat} (h : j < w) : bitAt (v % 2 ^ w) j = bitAt v j := by
  obtain ⟨d, rfl⟩ := Nat.exists_eq_add_of_lt h
  have hp : 2 ^ (j + d + 1) = 2 ^ j * (2 * 2 ^ d) := by
    rw [Nat.pow_succ, Nat.pow_add, Nat.mul_assoc, Nat.mul_comm (2 ^ d)]
  unfold bitAt
  rw [hp, Nat.mod_mul_right_div_self, Nat.mod_mul_right_mod]

theorem regBit_putBit {k j : Nat} (h : j < keyBits k) (s : State) (i : Nat) (b : Bool) :
    (s.putBit k i b).regBit k j = if j = i then b else s.regBit k j := by
  unfold State.regBit State.putBit
  rw [State.reg_setReg_self, bitAt_mod_pow h, bitAt_bitPut]

/-! ### Gain and tables -/

/-- What the exchange of the gains swaps. -/
theorem swapGains_swaps (s : State) : s.swapGains.cal.parkSet = s.cal.inForce ∧ s.swapGains.cal.inForce = s.cal.parkSet ∧
    s.swapGains.cal.parkBlind = s.pipe.blindOff ∧ s.swapGains.pipe.blindOff = s.cal.parkBlind ∧ s.swapGains.pipe.prev = [] ∧
    s.swapGains.cal.restore = none := by
  have hshow (u : State) : u.showRefs.cal = u.cal ∧ u.showRefs.pipe = u.pipe := by
    have h : OnlyIn [.regs] [] u u.showRefs := showRefs_only _ (by decide) .refl
    exact ⟨h.pieces .cal (by decide) (by decide), h.pieces .pipe (by decide) (by decide)⟩
  unfold State.swapGains
  extract_lets q c ex r q1
  rw [(hshow _).1, (hshow _).2]
  exact ⟨rfl, rfl, rfl, rfl, rfl, rfl⟩

/-- One pixel's reload leaves what waits for reloads. -/
theorem reloadPixel_waits (gain : Nat) (shadow : Bool) (q : PipePart) (p : Nat) :
    (q.reloadPixel gain shadow p).reloads = q.reloads ∧ (q.reloadPixel gain shadow p).fresh = q.fresh ∧
      (q.reloadPixel gain shadow p).override = q.override := by
  unfold PipePart.reloadPixel
  extract_lets h o hit q1 q2
  have h1 : q1.reloads = q.reloads ∧ q1.fresh = q.fresh ∧ q1.override = q.override := by
    unfold q1
    split <;> exact ⟨rfl, rfl, rfl⟩
  have h2 : q2.reloads = q.reloads ∧ q2.fresh = q.fresh ∧ q2.override = q.override := by
    unfold q2
    split <;> exact h1
  split <;> exact h2

theorem reloadPixels_waits (gain : Nat) (shadow : Bool) (ps : List Nat) (q : PipePart) :
    (ps.foldl (PipePart.reloadPixel gain shadow) q).reloads = q.reloads ∧ (ps.foldl (PipePart.reloadPixel gain shadow) q).fresh = q.fresh ∧
      (ps.foldl (PipePart.reloadPixel gain shadow) q).override = q.override := by
  induction ps generalizing q with
  | nil => exact ⟨rfl, rfl, rfl⟩
  | cons p ps ih =>
    obtain ⟨h1, h2, h3⟩ := reloadPixel_waits gain shadow q p
    rw [List.foldl_cons, (ih _).1, (ih _).2.1, (ih _).2.2, h1, h2, h3]
    exact ⟨rfl, rfl, rfl⟩

/-- A reload of a code word that is waited for. -/
theorem exec_coefReloadDone {shadow : Bool} {word : Nat} (h : (shadow, word) ∈ s.pipe.reloads) : ∃ q : PipePart,
    q.reloads = s.pipe.reloads ∧ q.fresh = s.pipe.fresh ∧ q.override = s.pipe.override ∧
    exec (.coefReloadDone shadow word) s = .next ((pixelsOf (shadow, word)).foldl (fun t _ => t.countUp Reg.COEF_RELOADS)
      (s.withPipe { q with reloads := q.reloads.filter (· != (shadow, word)), fresh := (shadow, word) :: q.fresh })) := by
  obtain ⟨h1, h2, h3⟩ := reloadPixels_waits (s.reg Reg.GAIN_ACTIVE) shadow (pixelsOf (shadow, word)) s.pipe
  exact ⟨_, h1, h2, h3, congrArg Host.Outcome.next (if_pos (by simpa using h))⟩

theorem coefReloadDone_does {shadow : Bool} {word : Nat} (h : (shadow, word) ∈ s.pipe.reloads) :
    Does (.coefReloadDone shadow word) s [.pipe, .freeCtr] [Reg.COEF_RELOADS] fun t =>
      (∀ x, x ∈ t.pipe.reloads ↔ x ∈ s.pipe.reloads ∧ x ≠ (shadow, word)) ∧ (shadow, word) ∈ t.pipe.fresh ∧
        t.pipe.override = s.pipe.override := by
  obtain ⟨q, h1, h2, h3, he⟩ := exec_coefReloadDone h
  refine .of_only (execCoefReloadDone_only shadow word s (by decide) .refl) he ?_
  have hf (u : State) (l : List Nat) : OnlyIn [.freeCtr] [Reg.COEF_RELOADS] u (l.foldl (fun t _ => t.countUp Reg.COEF_RELOADS) u) :=
    OnlyIn.foldl .refl fun v n hv => countUp_only _ _ (by decide) (by decide) hv
  rw [(hf _ _).pieces .pipe (by decide) (by decide)]
  refine ⟨fun x => ?_, List.mem_cons_self, h3⟩
  show x ∈ q.reloads.filter _ ↔ _
  rw [h1]
  simp

/-- The factory tables open the pipeline in FACTORY. -/
theorem factoryDecompressionDone_does (hd : s.phase ≠ .dark) (hr : s.pipe.ready = false) (hp : s.pfail = false) (bad : List Nat) :
    Does (.factoryDecompressionDone bad) s [.regs, .pipe, .cal] [] fun t =>
      t.pipe.ready = true ∧ t.pipe.badRows = bad ∧ t.pipe.blind = [] ∧ t.pipe.coef = [] ∧ t.pipe.bankOne = false ∧
        t.cal.state = 1 ∧ t.cal.inForce = factorySet (s.reg Reg.GAIN_ACTIVE) := by
  refine .of_only (execFactoryDecompressionDone_only bad s (by decide) .refl) (congrArg Host.Outcome.next (if_neg (by simp [hd, hr, hp]))) ?_
  have hs (u : State) : OnlyIn [.regs] [] u u.showRefs := showRefs_only _ (by decide) .refl
  rw [(hs _).pieces .pipe (by decide) (by decide), (hs _).pieces .cal (by decide) (by decide)]
  exact ⟨rfl, rfl, rfl, rfl, rfl, rfl, rfl⟩

/-! ### Sun, gradient and band sensors -/

theorem exec_sunHoldExpiry {n : Nat} (h0 : smapGet 0 n s.focal.strikeT ≠ 0) (hs : ∃ p ∈ s.focal.sun, tileOf p.1 = n)
    (hl : ∀ c, s.cal.lastStart = some c → c + 1 < smapGet 0 n s.focal.strikeT) (hn : n ∉ s.focal.sunRaised)
    (hw : smapGet 0 n s.focal.strikeT - 1 + s.reg Reg.SUN_HOLD * clkSec ≤ s.now) :
    exec (.sunHoldExpiry n) s = .next ((s.withFocal { s.focal with sunRaised := n :: s.focal.sunRaised }).trigger trSun) := by
  refine congrArg Host.Outcome.next (if_pos ⟨h0, ?_, ?_, ?_, Nat.ble_eq.mpr hw⟩)
  · obtain ⟨p, hp, ht⟩ := hs
    exact List.any_eq_true.mpr ⟨p, hp, beq_iff_eq.mpr ht⟩
  · cases hc : s.cal.lastStart with
    | none => rfl
    | some c => exact decide_eq_false (Nat.not_le.mpr (hl c hc))
  · simpa using hn

theorem exec_gradientClear {n : Nat} (hn : n < 7) (hf : s.regBit Reg.GRADIENT_FLAGS n = true) (hc : 60 ≤ s.focal.clearRun.getD n 0) :
    exec (.gradientClear n) s = .next (if (s.putBit Reg.GRADIENT_FLAGS n false).reg Reg.GRADIENT_FLAGS = 0 then
      (s.putBit Reg.GRADIENT_FLAGS n false).alarmOf 0x2061 0 ((s.putBit Reg.GRADIENT_FLAGS n false).reg Reg.GRADIENT_MAX) 0
      else s.putBit Reg.GRADIENT_FLAGS n false) :=
  congrArg Host.Outcome.next (if_pos (by rw [hf, Nat.ble_eq.mpr hc, Nat.blt_eq.mpr hn]; rfl))

theorem gradientClear_does {n : Nat} (hn : n < 7) (hf : s.regBit Reg.GRADIENT_FLAGS n = true) (hc : 60 ≤ s.focal.clearRun.getD n 0) :
    Does (.gradientClear n) s [.klp, .bus] [Reg.GRADIENT_FLAGS] fun t =>
      t.regBit Reg.GRADIENT_FLAGS n = false ∧
        ∀ m, m < 7 → m ≠ n → t.regBit Reg.GRADIENT_FLAGS m = s.regBit Reg.GRADIENT_FLAGS m := by
  refine .of_only (execGradientClear_only n s (by decide) .refl) (exec_gradientClear hn hf hc) ?_
  generalize hu : s.putBit Reg.GRADIENT_FLAGS n false = u
  have hbit (m : Nat) (hm : m < 7) : u.regBit Reg.GRADIENT_FLAGS m = if m = n then false else s.regBit Reg.GRADIENT_FLAGS m := by
    rw [← hu]
    exact regBit_putBit (Nat.lt_of_lt_of_le hm (by decide)) s n false
  have hsame (m : Nat) : (if u.reg Reg.GRADIENT_FLAGS = 0 then u.alarmOf 0x2061 0 (u.reg Reg.GRADIENT_MAX) 0 else u).regBit
      Reg.GRADIENT_FLAGS m = u.regBit Reg.GRADIENT_FLAGS m := by
    split
    · have ha : OnlyIn [.klp, .bus] [] u (u.alarmOf 0x2061 0 (u.reg Reg.GRADIENT_MAX) 0) := alarmOf_only _ _ _ _ _ (by decide) .refl
      unfold State.regBit
      rw [ha.entries (by decide) _ List.not_mem_nil]
    · rfl
  refine ⟨?_, fun m hm hne => ?_⟩
  · rw [hsame, hbit n hn, if_pos rfl]
  · rw [hsame, hbit m hm, if_neg hne]

theorem bandSensorExcluded_does {n : Nat} (hn : n < 16) (hb : n ∈ s.focal.sensorBad ∨ 16 ≤ s.focal.disagree.getD n 0) :
    Does (.bandSensorExcluded n) s [] [Reg.SENSOR_EXCLUDED] fun t =>
      t.regBit Reg.SENSOR_EXCLUDED n = true ∧
        ∀ m, m < 16 → m ≠ n → t.regBit Reg.SENSOR_EXCLUDED m = s.regBit Reg.SENSOR_EXCLUDED m := by
  have hc : (Nat.blt n 16 && (s.focal.sensorBad.contains n || Nat.ble 16 (s.focal.disagree.getD n 0))) = true := by
    rw [Nat.blt_eq.mpr hn, Bool.true_and, Bool.or_eq_true, Nat.ble_eq]
    exact hb.imp_left fun h => by simpa using h
  refine .of_only (execBandSensorExcluded_only n s (by decide) .refl) (congrArg Host.Outcome.next (if_pos hc)) ⟨?_, fun m hm hne => ?_⟩
  · rw [regBit_putBit (Nat.lt_of_lt_of_le hn (by decide)), if_pos rfl]
  · rw [regBit_putBit (Nat.lt_of_lt_of_le hm (by decide)), if_neg hne]

/-! ### The converter self-test -/

/-- A shadowing spare that fails twice in a row is out. -/
theorem groupTest_out {f : FocalPart} {tol n : Nat} {codes : List Nat} {g : Group} (hg : g.st = 1) (hf : 1 ≤ g.fails)
    (hp : f.passes tol (2560 + n) (codes.getD (2560 + n) 0) = false) : (f.groupTest tol n codes g).1.st = 3 := by
  unfold FocalPart.groupTest
  extract_lets bad spareOk fails g1 lost new
  have h2 : 2 ≤ fails := by
    unfold fails spareOk
    rw [hp]
    exact Nat.succ_le_succ hf
  rw [if_pos hg, if_pos h2]

/-- The groups after a self-test. -/
def State.groupTests (s : State) (codes : List Nat) : List (Group × List Nat) :=
  (List.range 64).map fun n => s.focal.groupTest (s.reg Reg.TEST_TOLERANCE) n codes (s.focal.groups.getD n default)

theorem exec_converterSelfTest (h : (s.atSlot 2065 && s.focal.bias) = true) (codes : List Nat) : ∃ lost : List (Nat × Nat),
    exec (.converterSelfTest codes) s = .next (lost.foldl State.deadColumn
      ((s.addSat Reg.TEST_FAILS (s.focal.testFails (s.reg Reg.TEST_TOLERANCE) codes)).withFocal
        { s.focal with groups := (s.groupTests codes).map Prod.fst })) := by
  refine ⟨(List.range 64).flatMap fun n => ((s.groupTests codes).getD n default).2.map fun c => (n, c), ?_⟩
  have he : exec (.converterSelfTest codes) s = execConverterSelfTest codes s := rfl
  rw [he]
  unfold execConverterSelfTest State.groupTests
  generalize List.range 64 = l
  exact congrArg Host.Outcome.next (if_pos h)

theorem groupTests_getD (s : State) (codes : List Nat) {n : Nat} (hn : n < 64) : ((s.groupTests codes).map Prod.fst).getD n default =
    (s.focal.groupTest (s.reg Reg.TEST_TOLERANCE) n codes (s.focal.groups.getD n default)).1 := by
  have hl : n < (List.range 64).length := by rw [List.length_range]; exact hn
  have hx : (List.range 64)[n] = n := List.getElem_range _
  unfold State.groupTests
  generalize List.range 64 = l at hl hx ⊢
  rw [List.map_map, List.getD_eq_getElem?_getD, List.getElem?_map, List.getElem?_eq_getElem hl, hx]
  rfl

theorem converterSelfTest_does (hr : s.tide.running = true) (hp : s.pfail = false) (h0 : s.row = 2065) (hb : s.focal.bias = true)
    (codes : List Nat) : Does (.converterSelfTest codes) s [.log, .focal, .freeCtr] [Reg.TEST_FAILS] fun t =>
      t.reg Reg.TEST_FAILS = satAdd 32 (s.reg Reg.TEST_FAILS) (s.focal.testFails (s.reg Reg.TEST_TOLERANCE) codes) ∧
        ∀ n, n < 64 → (s.focal.groups.getD n default).st = 1 → 1 ≤ (s.focal.groups.getD n default).fails →
          s.focal.passes (s.reg Reg.TEST_TOLERANCE) (2560 + n) (codes.getD (2560 + n) 0) = false →
          (t.focal.groups.getD n default).st = 3 := by
  obtain ⟨lost, he⟩ := exec_converterSelfTest (s := s) (by rw [atSlot_of hr hp h0, hb]; rfl) codes
  generalize s.focal.testFails (s.reg Reg.TEST_TOLERANCE) codes = k at he ⊢
  refine .of_only (execConverterSelfTest_only codes s (by decide) .refl) he ?_
  have hf (u : State) : OnlyIn [.log, .freeCtr] [] u (lost.foldl State.deadColumn u) :=
    OnlyIn.foldl .refl fun v n hv => deadColumn_only _ _ (by decide) hv
  rw [(hf _).entries (by decide) _ List.not_mem_nil, (hf _).pieces .focal (by decide) (by decide)]
  refine ⟨State.reg_addSat s Reg.TEST_FAILS k, fun n hn hg hfail hpass => ?_⟩
  exact (congrArg Group.st (groupTests_getD s codes hn)).trans (groupTest_out hg hfail hpass)

theorem exec_gainChange (hr : s.tide.running = true) (hp : s.pfail = false) (h0 : s.row = 0) (hc : s.cal.cycle = none)
    (hg : s.reg Reg.GAIN_MODE ≠ s.reg Reg.GAIN_ACTIVE) :
    exec .gainChange s = .next ((s.swapGains.setReg Reg.GAIN_ACTIVE (s.reg Reg.GAIN_MODE)).trigger trGain) :=
  congrArg Host.Outcome.next (if_pos (by rw [atSlot_of hr hp h0, hc]; simpa using hg))

/-- Settles O21: each event's own rule. -/
theorem imagerEvents : Obligations.ImagerEvents := by
  refine ⟨⟨fun s hr hp h0 hc hg => ?_, fun sh w s h => coefReloadDone_does h,
    fun bad s hd hr hp => factoryDecompressionDone_does hd hr hp bad⟩, fun n s h0 hs hl hn hw => ?_,
    fun n s hn hf hc => gradientClear_does hn hf hc, fun n s hn hb => bandSensorExcluded_does hn hb,
    fun codes s hr hp h0 hb => converterSelfTest_does hr hp h0 hb codes⟩
  · have he := exec_gainChange hr hp h0 hc hg
    have hs := swapGains_swaps s
    generalize s.swapGains = u at he hs
    exact .of_only (execGainChange_only s (by decide) .refl) he
      ⟨State.reg_setReg_self u Reg.GAIN_ACTIVE (s.reg Reg.GAIN_MODE), bitAt_bitOn_self _ _, hs⟩
  · exact .of_only (execSunHoldExpiry_only n s (by decide) .refl) (exec_sunHoldExpiry h0 hs hl hn hw) ⟨bitAt_bitOn_self _ _, rfl⟩

end Sys2Proof.Machine
end

section
/-!
PROOF. What the calibration manager waits for (R98, R140, R154, R157, R161).
-/
namespace Sys2Proof.Machine

variable {s t : State}

theorem waited_iff {since wait : Nat} : s.waited since wait = true ↔ since + wait ≤ s.now := iff_of_eq Nat.ble_eq

/-! ### Triggers -/

theorem exec_intervalExpiry {t0 : Nat} (h : s.cal.lastAccept = some t0 ∨ (s.cal.lastAccept = none ∧ s.cal.imagerStart = some t0))
    (hc : s.cal.cycle = none) (h0 : s.cal.state ≠ 0) (hw : t0 + s.reg Reg.CAL_INTERVAL * 60 * clkSec ≤ s.now) :
    exec .intervalExpiry s = .next (s.trigger trInterval) := by
  have hb : (s.cal.cycle.isNone && s.cal.state != 0 && s.waited t0 (s.reg Reg.CAL_INTERVAL * 60 * clkSec)) = true := by
    rw [hc, waited_iff.mpr hw]
    simpa using h0
  refine congrArg Host.Outcome.next ?_
  rcases h with h | ⟨h1, h2⟩
  · rw [h]
    exact if_pos hb
  · rw [h1]
    dsimp only
    rw [h2]
    exact if_pos hb

theorem exec_bringUpTrigger {t0 : Nat} (h : s.cal.imagerStart = some t0) (h1 : s.cal.state = 1)
    (hw : s.settled = true ∨ t0 + s.reg Reg.SETTLE_MAX * clkSec ≤ s.now) :
    exec .bringUpTrigger s = .next (s.trigger trBringUp) := by
  refine congrArg Host.Outcome.next ?_
  rw [h]
  exact if_pos ⟨h1, hw.imp_right waited_iff.mpr⟩

/-! ### The lock chamber -/

theorem exec_chamberFillDone_factory (h : s.cal.chamber = .filling true) : exec .chamberFillDone s =
    .next { s with pipe := s.pipe.setChamber (factoryOffs (s.reg Reg.GAIN_ACTIVE)), cal := { s.cal with chamber := .factory } } := by
  refine congrArg Host.Outcome.next ?_
  rw [h]

theorem exec_chamberFillDone_primed (h : s.cal.chamber = .filling false) (hb : s.cal.bandsDone = []) : exec .chamberFillDone s =
    .next (s.withCal { s.cal with chamber := if s.cal.openBands = [] ∧ s.cal.restore = none then .empty else .primed }) := by
  refine congrArg Host.Outcome.next ?_
  rw [h]
  dsimp only
  rw [hb]
  congr 2
  simp

/-! ### The qualification -/

/-- The groups after a qualification in which those of `pass` qualify. -/
def State.qualGroups (s : State) (pass : List Nat) : List Group :=
  (List.range 64).map fun n =>
    let g := s.focal.groups.getD n default
    if pass.contains n && (g.st == 0 || g.st == 3) then { g with next := some qualPass } else g

/-- The groups that fail, one bit each. -/
def failedBits (pass : List Nat) : Nat := ((List.range 64).filter fun n => !pass.contains n).foldl (fun v n => v + 2 ^ n) 0

theorem exec_spareQualificationDone (h : s.cal.qual = true) (sums : List (List Nat)) (codes : List Nat) : ∃ worst next,
    exec (.spareQualificationDone sums codes) s =
      .next ((((({ s with focal := { s.focal with groups := s.qualGroups ((List.range 64).filter (s.groupQualifies sums)), trimsNext := next }
                          cal := { s.cal with qual := false } } : State).setReg Reg.QUAL_FAILED
        (failedBits ((List.range 64).filter (s.groupQualifies sums)))).putBit Reg.SMALL_RESULT 1
          (decide (failedBits ((List.range 64).filter (s.groupQualifies sums)) ≠ 0))).setReg Reg.SPARE_MISMATCH worst)) :=
  ⟨_, _, congrArg Host.Outcome.next (if_pos h)⟩

theorem failedBits_all {p : Nat → Bool} (h : ∀ n, n < 64 → p n = true) : failedBits ((List.range 64).filter p) = 0 := by
  have hf : ((List.range 64).filter fun n => !((List.range 64).filter p).contains n) = [] := by
    refine List.filter_eq_nil_iff.mpr fun n hn => ?_
    have hm := List.mem_range.mp hn
    simp only [List.contains_eq_mem, List.mem_filter, List.mem_range, hm, h n hm, and_self, decide_true, Bool.not_true]
    decide
  unfold failedBits
  rw [hf]
  rfl

theorem qualGroups_passed {pass : List Nat} {n : Nat} (hn : n < 64) (hp : n ∈ pass) (h0 : (s.focal.groups.getD n default).st = 0) :
    ((s.qualGroups pass).getD n default).next = some qualPass := by
  have hl : n < (List.range 64).length := by rw [List.length_range]; exact hn
  have hx : (List.range 64)[n] = n := List.getElem_range _
  unfold State.qualGroups
  generalize List.range 64 = l at hl hx ⊢
  rw [List.getD_eq_getElem?_getD, List.getElem?_map, List.getElem?_eq_getElem hl, hx, Option.map_some, Option.getD_some]
  dsimp only
  rw [if_pos (by rw [h0]; simp [hp])]

theorem spareQualificationDone_does (h : s.cal.qual = true) (sums : List (List Nat)) (codes : List Nat) :
    Does (.spareQualificationDone sums codes) s [.focal, .cal] [Reg.QUAL_FAILED, Reg.SMALL_RESULT, Reg.SPARE_MISMATCH] fun t =>
      t.cal = { s.cal with qual := false } ∧
        ((∀ n, n < 64 → s.groupQualifies sums n = true) → t.reg Reg.QUAL_FAILED = 0 ∧ t.regBit Reg.SMALL_RESULT 1 = false) ∧
        ∀ n, n < 64 → s.groupQualifies sums n = true → (s.focal.groups.getD n default).st = 0 →
          (t.focal.groups.getD n default).next = some qualPass := by
  obtain ⟨worst, next, he⟩ := exec_spareQualificationDone h sums codes
  generalize hpass : (List.range 64).filter (s.groupQualifies sums) = pass at he
  refine .of_only (execSpareQualificationDone_only sums codes s (by decide) .refl) he ⟨rfl, fun hall => ?_, fun n hn hq h0 => ?_⟩
  · have h0 : failedBits pass = 0 := hpass ▸ failedBits_all hall
    have hne : Reg.QUAL_FAILED ≠ Reg.SPARE_MISMATCH ∧ Reg.QUAL_FAILED ≠ Reg.SMALL_RESULT ∧ Reg.SMALL_RESULT ≠ Reg.SPARE_MISMATCH := by decide
    rw [h0]
    constructor
    · rw [State.reg_setReg_ne _ hne.1]
      exact (State.reg_setReg_ne _ hne.2.1).trans (State.reg_setReg_self _ _ _)
    · unfold State.regBit
      rw [State.reg_setReg_ne _ hne.2.2]
      exact (regBit_putBit (by decide) _ 1 _).trans (if_pos rfl)
  · refine qualGroups_passed hn ?_ h0
    rw [← hpass]
    exact List.mem_filter.mpr ⟨List.mem_range.mpr hn, hq⟩

/-! ### Abandoned transfers -/

theorem exec_restoreTimeout {r : Restore} (h : s.cal.restore = some r) (hw : r.last + 10 * clkSec ≤ s.now)
    (hc : s.cal.chamber ≠ .restored) : exec .restoreTimeout s = .next (s.withCal { s.cal with
      restore := none
      chamber := if s.cal.openBands.isEmpty && decide (s.cal.chamber = .primed) then .empty else s.cal.chamber }) := by
  have hb : (s.waited r.last (10 * clkSec) && decide (s.cal.chamber ≠ .restored)) = true := by
    rw [waited_iff.mpr hw, Bool.true_and]
    exact decide_eq_true hc
  refine congrArg Host.Outcome.next ?_
  rw [h]
  exact if_pos hb

/-- Settles O22: each wait's end. -/
theorem calibrationWaits : Obligations.CalibrationWaits := by
  refine ⟨fun t0 s h hc h0 hw => ?_, fun t0 s h h1 hw => ?_, fun s h => ?_, fun s h hb => ?_, fun sums codes s h =>
    spareQualificationDone_does h sums codes, fun r s h hw hc => ?_, fun s => ?_⟩
  · exact .of_only (execIntervalExpiry_only s (by decide) .refl) (exec_intervalExpiry h hc h0 hw) rfl
  · exact .of_only (execBringUpTrigger_only s (by decide) .refl) (exec_bringUpTrigger h h1 hw) rfl
  · exact .of_only (execChamberFillDone_only s (by decide) .refl) (exec_chamberFillDone_factory h) ⟨rfl, rfl⟩
  · exact .of_only (execChamberFillDone_only s (by decide) .refl) (exec_chamberFillDone_primed h hb) ⟨rfl, rfl⟩
  · refine .of_only (execRestoreTimeout_only s (by decide) .refl) (exec_restoreTimeout h hw hc) ⟨rfl, ?_⟩
    show (if (s.cal.openBands.isEmpty && decide (s.cal.chamber = .primed)) = true then _ else _) = _
    simp
  · refine .of_only (execOutFrameReadTimeout_only s (by decide) .refl) rfl ⟨rfl, fun x => ?_⟩
    refine List.mem_filter.trans (and_congr_right fun _ => ?_)
    rw [Bool.not_eq_true', ← Bool.not_eq_true, Bool.and_eq_true, Bool.and_eq_true, beq_iff_eq, Bool.not_eq_true', waited_iff, and_assoc]

end Sys2Proof.Machine
end

section
/-!
PROOF. Berths: alarms, presence, publication and the writes of definitions (R172, R173, R183, R186, R187).
-/
namespace Sys2Proof.Machine

variable {s t : State}

/-! ### Alarms and presence -/

/-- A berth command outside frozen frames: one berth's run goes by `f`, said as `g` over all runs. -/
theorem modBerth_berth {n : Nat} {f g : BerthRun → BerthRun} (h : ∀ r, (if r.num == n then f r else r) = g r) :
    (s.modBerth n f).berth = { s.berth with runs := s.berth.runs.map g } := by
  have : (s.modBerth n f).berth = { s.berth with runs := s.berth.runs.map fun r => if r.num == n then f r else r } := rfl
  rw [this, funext h]

/-- A berth command that outside frozen frames changes one run. -/
theorem Does.berthRun {i : Instr} {n : Nat} {f g : BerthRun → BerthRun} (he : exec i s = .next (if s.frozen then s else s.modBerth n f))
    (hz : s.frozen = false) (h : ∀ r, (if r.num == n then f r else r) = g r) :
    Does i s [.berth] [] fun t => t.berth = { s.berth with runs := s.berth.runs.map g } :=
  ⟨_, by rw [he, hz]; rfl, modBerth_only _ _ _ (by decide) .refl, modBerth_berth h⟩

/-! ### Publication -/

theorem issueAlarms_berth (l : List (Nat × Nat × Nat)) : (l.foldl (fun t e => t.issueAlarm e.1 e.2) s).berth = s.berth :=
  (OnlyIn.foldl .refl fun _ _ h => issueAlarm_only _ _ _ (by decide) h : OnlyIn [.klp, .log, .bus] [] s _).pieces .berth (by decide) (by decide)

theorem issuePresences_berth (l : List (Nat × Bool)) : (l.foldl (fun t e => t.issuePresence e.1 e.2) s).berth = s.berth :=
  (OnlyIn.foldl .refl fun _ _ h => issuePresence_only _ _ _ (by decide) h : OnlyIn [.log] [] s _).pieces .berth (by decide) (by decide)

theorem issueAlarms_storm (l : List (Nat × Nat × Nat)) : (l.foldl (fun t e => t.issueAlarm e.1 e.2) s).storm = s.storm :=
  congrArg Hm.storm ((OnlyIn.foldl .refl fun _ _ h => issueAlarm_only _ _ _ (by decide) h :
    OnlyIn [.klp, .log, .bus] [] s _).pieces .hm (by decide) (by decide))

theorem issuePresences_storm (l : List (Nat × Bool)) : (l.foldl (fun t e => t.issuePresence e.1 e.2) s).storm = s.storm :=
  congrArg Hm.storm ((OnlyIn.foldl .refl fun _ _ h => issuePresence_only _ _ _ (by decide) h :
    OnlyIn [.log] [] s _).pieces .hm (by decide) (by decide))

theorem sendReport_berth (n : Nat) : (s.sendReport n).2.berth = s.berth :=
  (sendReport_only s n (by decide) .refl : OnlyIn [.bus] [] s _).pieces .berth (by decide) (by decide)

theorem sendReports_berth (l : List Nat) : (l.foldl (fun t n => (t.sendReport n).2) s).berth = s.berth :=
  (OnlyIn.foldl .refl fun _ _ h => sendReport_only _ _ (by decide) h : OnlyIn [.bus] [] s _).pieces .berth (by decide) (by decide)

/-- A fold that at each berth keeps its state or sends a report leaves the berth engine. -/
theorem foldReports_berth {step : Nat × List Nat × State → Nat → Nat × List Nat × State}
    (h : ∀ a n, (step a n).2.2 = a.2.2 ∨ (step a n).2.2 = (a.2.2.sendReport n).2) (l : List Nat) (a : Nat × List Nat × State) :
    (l.foldl step a).2.2.berth = a.2.2.berth := by
  induction l generalizing a with
  | nil => rfl
  | cons n l ih =>
    rw [List.foldl_cons, ih]
    rcases h a n with h | h <;> rw [h]
    exact sendReport_berth n

/-- Of the berth engine the reports of a publication change the waiting reports at most. -/
theorem reports_berth (presence : List Nat) : ∃ d, (s.reports presence).berth = { s.berth with deferred := d } := by
  unfold State.reports
  extract_lets c normal p s1 waiting due all t b1 step out t2 b2
  have h1 : s1.berth = s.berth :=
    (presenceReports_only _ _ _ (by decide) .refl : OnlyIn [.bus] [] s s1).pieces .berth (by decide) (by decide)
  have ht : t.berth = s.berth := (sendReports_berth all).trans h1
  have ho : out.2.2.berth = s.berth := by
    refine (foldReports_berth (fun a n => ?_) all _).trans h1
    unfold step
    dsimp only
    split
    · exact .inl rfl
    · split <;> exact .inr rfl
  clear_value t out
  split
  · exact ⟨s.berth.deferred, rfl⟩
  · split
    · exact ⟨_, congrArg (fun b : BerthPart => { b with deferred := [] }) ht⟩
    · exact ⟨_, congrArg (fun b : BerthPart => { b with deferred := out.2.1.mergeSort fun a b => Nat.ble a b }) ho⟩

theorem reports_storm (h : s.storm = true) (presence : List Nat) : s.reports presence = s := if_pos h

/-- What a publication leaves of the berth engine. -/
theorem publishTable_berth : ∃ d, s.publishTable.berth = { s.berth with
    runs := s.berth.runs.map s.publishBerth, tableFrame := s.frame, tableT64 := s.berth.tableNext
    tableStatus := s.engineStatus, deferred := d } ∧ (s.storm = true → d = s.berth.deferred) := by
  unfold State.publishTable
  extract_lets events presence b s1 s2 s3
  have h3 : s3.berth = s1.berth := (issuePresences_berth _).trans (issueAlarms_berth _)
  have hs : s3.storm = s.storm := (issuePresences_storm _).trans (issueAlarms_storm _)
  cases hb : s.storm
  · obtain ⟨d, hd⟩ := reports_berth (s := s3) ((presence.map Prod.fst).eraseDups.filter fun n => s.berthNow n 0x0E != 0)
    exact ⟨d, by rw [hd, h3]; rfl, fun h => nomatch h⟩
  · exact ⟨s.berth.deferred, by rw [reports_storm (hs.trans hb), h3]; rfl, fun _ => rfl⟩

theorem exec_tablePublication (hr : s.tide.running = true) (hp : s.pfail = false) (h : s.row = 2068) :
    exec .tablePublication s = .next (((s.publishTable.withVideo { s.publishTable.video with
      vc1Go := s.publishTable.video.vc1Go || s.publishTable.video.running }).takeTables.engineEval 0).engineEval 1) :=
  congrArg Host.Outcome.next (if_pos (atSlot_of hr hp h))

/-- Settles O23: each command changes one run; a publication's events and reports leave the published runs alone. -/
theorem berthFrames : Obligations.BerthFrames := by
  refine ⟨fun n s hz => ⟨?_, ?_, ?_, ?_⟩, fun s hr hp h => ?_⟩
  · refine Does.berthRun rfl hz fun r => ?_
    by_cases hn : r.num = n
    · subst hn
      by_cases ha : r.alarm = 0
      · by_cases hh : s.berthNow r.num 0x0C ≤ r.hi
        · simp [State.alarmDue, ha, hh]
        · by_cases hl : s.berthNow r.num 0x0C ≤ r.lo <;> simp [State.alarmDue, ha, hh, hl]
      · simp [State.alarmDue, ha]
    · simp [hn]
  · refine Does.berthRun rfl hz fun r => ?_
    by_cases ha : r.alarm = 0
    · simp [ha]
    · by_cases hc : s.berthNow n 0x0C ≤ r.clr
      · simp [ha, hc, Nat.not_lt.mpr hc]
      · simp [ha, hc, Nat.lt_of_not_le hc]
  · refine Does.berthRun rfl hz fun r => ?_
    by_cases hn : r.num = n <;> simp [hn]
  · refine Does.berthRun rfl hz fun r => ?_
    by_cases hn : r.num = n <;> simp [hn, State.vacantFrames]
  · refine Does.of_only (execTablePublication_only s (by decide) .refl) (exec_tablePublication hr hp h) ?_
    generalize hv : s.publishTable.withVideo { s.publishTable.video with
      vc1Go := s.publishTable.video.vc1Go || s.publishTable.video.running } = v
    have ho : OnlyIn [.klp, .bus, .loop, .act] [Reg.SOURCE_CHANGES] v ((v.takeTables.engineEval 0).engineEval 1) :=
      engineEval_only _ _ (by decide) (engineEval_only _ _ (by decide) (takeTables_only _ (by decide) .refl))
    have hb := ho.pieces .berth (by decide) (by decide)
    have hw := ho.pieces .video (by decide) (by decide)
    have hsv : s.publishTable.video = s.video :=
      (publishTable_only s (by decide) .refl : OnlyIn [.klp, .log, .bus, .berth] [Reg.REPORTS_DEFERRED] s _).pieces .video (by decide) (by decide)
    obtain ⟨d, hd, hstorm⟩ := publishTable_berth (s := s)
    have hvb : v.berth = s.publishTable.berth := by rw [← hv]; rfl
    have hvv : v.video = { s.video with vc1Go := s.video.vc1Go || s.video.running } := by rw [← hv, ← hsv]; rfl
    have hall := hb.trans (hvb.trans hd)
    refine ⟨by rw [hall], fun r hr => ?_, hw.trans hvv, fun h => ?_⟩
    · rw [hall] at hr
      obtain ⟨r0, -, rfl⟩ := List.mem_map.mp hr
      exact ⟨rfl, rfl, rfl⟩
    · rw [hall]
      exact hstorm h

/-! ### Writes of definitions -/

theorem berthRule_refused {lvl n sub v : Nat} {st : Status} (h : s.berthCheck lvl (s.transferOpen Reg.BERTH_TABLE true)
    (if sub = 1 ∨ sub = 2 then s.rowsHold n sub v else true) n (s.berthWritten n) (fun b => if b = sub then v else s.berthWritten n b) = some st) :
    berthRule lvl n sub s v = (st, s) := by
  unfold berthRule
  dsimp only
  rw [h]

/-- The berths that wait, with one more. -/
theorem berthRule_passed {lvl n sub v : Nat} (h : s.berthCheck lvl (s.transferOpen Reg.BERTH_TABLE true)
    (if sub = 1 ∨ sub = 2 then s.rowsHold n sub v else true) n (s.berthWritten n) (fun b => if b = sub then v else s.berthWritten n b) = none) :
    ∃ pend, n ∈ pend ∧ berthRule lvl n sub s v = (.ok, (s.setReg (berthKey n sub) v).withBerth { s.berth with pend := pend }) := by
  unfold berthRule
  dsimp only
  rw [h]
  refine ⟨_, ?_, rfl⟩
  split
  · next hc => exact List.contains_iff_mem.mp hc
  · simp

theorem inRange_editHold (v : Nat) : inRange Reg.EDIT_HOLD v = true := rfl

/-- Settles O24: the check decides; what it passes writes the entry and lets the berth wait. -/
theorem berthWrites : Obligations.BerthWrites := by
  refine ⟨fun n sub s w ha => ⟨fun st h => ?_, fun h => ?_⟩, fun s w ha hv hs => ?_⟩
  · refine Refuses.rule (rule := fun s v => berthRule (s.levelOf w.req.id) n sub s v) rfl ha ?_
    refine berthRule_refused (s := s.taken _) ?_
    rw [State.levelOf_taken]
    exact h
  · obtain ⟨pend, hm, hr⟩ := berthRule_passed (s := s.taken (wrRequest w (berthKey n sub))) (lvl := (s.taken (wrRequest w (berthKey n sub))).levelOf w.req.id)
      (by rw [State.levelOf_taken]; exact h)
    refine Obeys.rule (rule := fun s v => berthRule (s.levelOf w.req.id) n sub s v) _ rfl ha hr
      (withBerth_only _ _ (by simp [frameSub]) (setReg_only _ _ _ (by simp [frameKey]) .refl)) (by decide) fun k => ⟨?_, hm, rfl⟩
    exact State.reg_setReg_self ..
  · exact Takes.rule rfl ha hs (plainRule_pos (inRange_editHold _))

end Sys2Proof.Machine
end

section
/-!
PROOF. The calibration manager's commands (R138, R140, R151, R152, R161, R166).
-/
namespace Sys2Proof.Machine

variable {s t : State}

theorem belowService_taken (q : Request) (r : Req) : (s.taken q).belowService r = s.belowService r := by
  unfold State.belowService
  rw [State.levelOf_taken]

theorem belowService_of_lt {r : Req} (h : s.levelOf r.id < 2) : s.belowService r = true := Nat.ble_eq.mpr h

theorem belowService_of_le {r : Req} (h : 2 ≤ s.levelOf r.id) : s.belowService r = false :=
  Bool.eq_false_iff.mpr fun hb => absurd (Nat.ble_eq.mp hb) (Nat.not_lt.mpr h)

/-! ### Each code's rule -/

theorem calCycleRule_busy (r : Req) (h : s.cal.cycle ≠ none) : calCycleRule r s = (.busy, s) :=
  if_pos (Option.isSome_iff_ne_none.mpr h)

theorem calCycleRule_free (r : Req) (h : s.cal.cycle = none) : calCycleRule r s = (.ok, s.trigger trCommand) :=
  if_neg (by rw [h]; decide)

theorem calCycleRefRule_below {r : Req} (h : s.belowService r = true) : calCycleRefRule r s = (.access, s) := if_pos h

theorem calCycleRefRule_busy {r : Req} (h : s.belowService r = false) (hc : s.cal.cycle ≠ none) : calCycleRefRule r s = (.busy, s) :=
  (if_neg (by rw [h]; decide)).trans (if_pos (Option.isSome_iff_ne_none.mpr hc))

theorem calCycleRefRule_free {r : Req} (h : s.belowService r = false) (hc : s.cal.cycle = none) :
    calCycleRefRule r s = (.ok, (s.trigger trCommand).trigger trRef) :=
  (if_neg (by rw [h]; decide)).trans (if_neg (by rw [hc]; decide))

theorem abortCycle_cal (reason : Nat) : (s.abortCycle reason).cal =
    { s.cal with cycle := s.cal.cycle.map fun c => if c.live then { c with due := reason } else c } := by
  unfold State.abortCycle
  split
  · next c h =>
    split
    · next hl => simp [State.withCal, h, hl]
    · next hl =>
      rw [h, Option.map_some, if_neg hl, ← h]
  · next h => rw [h, Option.map_none, ← h]

theorem calQualifySparesRule_below {r : Req} (h : s.belowService r = true) : calQualifySparesRule r s = (.access, s) := if_pos h

theorem calQualifySparesRule_busy {r : Req} (h : s.belowService r = false) (hq : s.cal.qual = true) :
    calQualifySparesRule r s = (.busy, s) := (if_neg (by rw [h]; decide)).trans (if_pos hq)

theorem calQualifySparesRule_free {r : Req} (h : s.belowService r = false) (hq : s.cal.qual = false) :
    calQualifySparesRule r s = (.ok, s.withCal { s.cal with qual := true }) :=
  (if_neg (by rw [h]; decide)).trans (if_neg (by rw [hq]; decide))

theorem calShutterTestRule_busy {r : Req} (h : s.belowService r = false) (hc : s.cal.cycle ≠ none) :
    calShutterTestRule r s = (.busy, s) := by
  unfold calShutterTestRule
  rw [if_neg (by rw [h]; decide), if_pos (by rw [Option.isSome_iff_ne_none.mpr hc]; rfl)]

theorem calShutterTestRule_absent {r : Req} (h : s.belowService r = false) (hc : s.cal.cycle = none)
    (ht : s.focal.shutter.closing = none) (hp : s.focal.shutter.present = false) : calShutterTestRule r s = (.state, s) := by
  unfold calShutterTestRule
  rw [if_neg (by rw [h]; decide), if_neg (by rw [hc, ht]; decide), if_pos (by rw [hp]; rfl)]

theorem calShutterTestRule_starts {r : Req} (h : s.belowService r = false) (hc : s.cal.cycle = none)
    (ht : s.focal.shutter.closing = none) (hp : s.focal.shutter.present = true) :
    calShutterTestRule r s = (.ok, (s.withCal { s.cal with cycle := some (Cycle.new s true false) }).startTravel true) := by
  unfold calShutterTestRule
  rw [if_neg (by rw [h]; decide), if_neg (by rw [hc, ht]; decide), if_neg (by rw [hp]; decide)]

theorem calLoadFactoryRule_busy {r : Req} (h : s.belowService r = false) (hc : s.cal.cycle ≠ none) :
    calLoadFactoryRule r s = (.busy, s) := by
  unfold calLoadFactoryRule
  rw [if_neg (by rw [h]; decide), if_pos (by rw [Option.isSome_iff_ne_none.mpr hc]; rfl)]

theorem calLoadFactoryRule_fills {r : Req} (h : s.belowService r = false) (hc : s.cal.cycle = none) (he : s.cal.chamber = .empty)
    (hr : s.cal.restore = none) (h0 : s.cal.state ≠ 0) (ho : s.transferOpen Reg.OFFSET_LOAD true = false)
    (hs : s.transferOpen Reg.CAL_SET true = false) :
    calLoadFactoryRule r s = (.ok, s.withCal { s.cal with chamber := .filling true }) := by
  unfold calLoadFactoryRule CalPart.busy
  rw [if_neg (by rw [h]; decide), if_neg (by rw [hc, ho, hs, hr, he]; decide), if_neg h0]

/-- Settles O32: each code's rule in the state the request is served in. -/
theorem calibrationCommands : Obligations.CalibrationCommands := by
  have low {q : Request} {r : Req} {s : State} (h : s.levelOf r.id < 2) : (s.taken q).belowService r = true :=
    (belowService_taken q r).trans (belowService_of_lt h)
  have high {q : Request} {r : Req} {s : State} (h : 2 ≤ s.levelOf r.id) : (s.taken q).belowService r = false :=
    (belowService_taken q r).trans (belowService_of_le h)
  refine ⟨fun r s ha => ⟨fun hc => ?_, fun hc => ?_⟩, fun r s ha => ⟨fun hl => ?_, fun hl hc => ?_, fun hl hc => ?_⟩, fun r s ha => ?_,
    fun r s ha => ⟨fun hl => ?_, fun hl hq => ?_, fun hl hq => ?_⟩, fun r s ha hl => ⟨fun hc => ?_, fun hc ht hp => ?_, fun hc ht hp => ?_⟩,
    fun r s ha hl => ⟨fun hc => ?_, fun hc he hr h0 ho hs => ?_⟩⟩
  · exact Refuses.rule rfl ha (calCycleRule_busy (s := s.taken _) r hc)
  · exact Obeys.rule _ rfl ha (calCycleRule_free (s := s.taken _) r hc) (trigger_only _ _ (by decide) .refl) (by decide) fun _ => rfl
  · exact Refuses.rule rfl ha (calCycleRefRule_below (low hl))
  · exact Refuses.rule rfl ha (calCycleRefRule_busy (high hl) hc)
  · refine Obeys.rule _ rfl ha (calCycleRefRule_free (high hl) hc)
      (trigger_only _ _ (by decide) (trigger_only _ _ (by decide) .refl)) (by decide) fun _ => ⟨?_, ?_, rfl⟩
    · exact (bitAt_bitOn_ne (by decide)).trans (bitAt_bitOn_self _ _)
    · exact bitAt_bitOn_self _ _
  · refine Obeys.rule (s.taken _ |>.abortCycle 7 |> fun t => t.withCal { t.cal with triggers := 0 }) rfl ha rfl
      (withCal_only _ _ (by decide) (abortCycle_only _ _ (by decide) .refl)) (by decide) fun _ => ?_
    exact congrArg (fun c : CalPart => { c with triggers := 0 }) (abortCycle_cal (s := s.taken _) 7)
  · exact Refuses.rule rfl ha (calQualifySparesRule_below (low hl))
  · exact Refuses.rule rfl ha (calQualifySparesRule_busy (high hl) hq)
  · exact Obeys.rule _ rfl ha (calQualifySparesRule_free (high hl) hq) (withCal_only _ _ (by decide) .refl) (by decide) fun _ => rfl
  · exact Refuses.rule rfl ha (calShutterTestRule_busy (high hl) hc)
  · exact Refuses.rule rfl ha (calShutterTestRule_absent (high hl) hc ht hp)
  · exact Obeys.rule _ rfl ha (calShutterTestRule_starts (high hl) hc ht hp)
      (startTravel_only _ _ (by decide) (withCal_only _ _ (by decide) .refl)) (by decide) fun _ => ⟨⟨_, rfl, rfl⟩, rfl, rfl⟩
  · exact Refuses.rule rfl ha (calLoadFactoryRule_busy (high hl) hc)
  · exact Obeys.rule _ rfl ha (calLoadFactoryRule_fills (high hl) hc he hr h0 ho hs) (withCal_only _ _ (by decide) .refl)
      (by decide) fun _ => rfl

end Sys2Proof.Machine
end

section
/-!
PROOF. Protection of outputs and fans (R303, R304, R309 to R311).
-/
namespace Sys2Proof.Machine

variable {s t : State}

/-! ### Trips -/

theorem clearTrip_act (n : Nat) : (s.clearTrip n).act = s.act :=
  (clearTrip_only s n (by decide) .refl : OnlyIn [.klp, .bus] [] s _).act_eq rfl

/-- Output n has tripped with these trips; nothing else is said of it. -/
structure OutTripped (t : State) (n : Nat) (l : List Nat) : Prop where
  waiting : (t.out n).waiting = true
  trips   : (t.out n).trips = l
  latch   : (t.out n).latched = Nat.ble 3 l.length

/-- That another output's position, or its own, is unknown is no part of a trip. -/
theorem OutTripped.unknown {n b : Nat} {l : List Nat} (hb : b < s.act.outs.length) (h : OutTripped s n l) :
    OutTripped (s.setOut b { s.out b with unknown := true }) n l := by
  obtain ⟨hw, ht, hl⟩ := h
  by_cases hn : n = b
  · subst hn
    constructor <;> rw [out_setOut_self hb] <;> assumption
  · constructor <;> rw [out_setOut_ne hn] <;> assumption

theorem OutTripped.of_act {n : Nat} {l : List Nat} (h : OutTripped s n l) (he : t.act = s.act) : OutTripped t n l := by
  have e : t.out n = s.out n := congrArg (fun a : ActPart => a.outs.getD n OutUnit.idle) he
  obtain ⟨hw, ht, hl⟩ := h
  constructor <;> rw [e] <;> assumption

/-- A trip of an output that neither waits nor is latched. -/
theorem outputTrip_tripped {n : Nat} (hn : n ≤ 7) (hb : n < s.act.outs.length) (hw : (s.out n).waiting = false)
    (hl : (s.out n).latched = false) (short : Bool) : ∃ t, exec (.outputTrip n short) s = .next t ∧
      OnlyIn [.klp, .log, .bus, .act] [Reg.OUT_FAULTS n] s t ∧ OutTripped t n (s.recent (s.out n).trips) ∧
      t.reg (Reg.OUT_FAULTS n) = satInc (keyBits (Reg.OUT_FAULTS n)) (s.reg (Reg.OUT_FAULTS n)) := by
  have he : exec (.outputTrip n short) s = execOutputTrip n short s := rfl
  rw [he]
  unfold execOutputTrip
  extract_lets o trips latched s1 base x s2 s3
  have hs1 : OutTripped s1 n trips := by
    constructor <;> rw [out_setOut_self hb]
  have hbase : base < s1.act.outs.length := by
    have h1 : s1.act.outs.length = s.act.outs.length := List.length_set
    have h2 : base ≤ n := by unfold base; split <;> omega
    omega
  have hs2 : OutTripped s2 n trips := by
    unfold s2
    split
    · exact hs1.unknown hbase
    · exact hs1
  have hr2 : s2.reg = s.reg := by
    unfold s2
    split <;> rfl
  have hf (cur : Nat) (p : List Nat) (fl : Nat) : OnlyIn [.klp, .log, .bus] [] s3 ((s3.pushLog Lt.ACTUATOR_FAULT p).alarmOf (0x2020 + n) 1 cur fl) :=
    alarmOf_only _ _ _ _ _ (by decide) (pushLog_only _ _ _ (by decide) .refl)
  have h12 : OnlyIn [.act] [] s s2 := by
    unfold s2
    split
    · exact setOut_only _ _ _ (by decide) (setOut_only _ _ _ (by decide) .refl)
    · exact setOut_only _ _ _ (by decide) .refl
  have h13 : OnlyIn [.klp, .log, .bus, .act] [Reg.OUT_FAULTS n] s s3 :=
    incSat_only _ _ (by simp [frameKey]) (h12.mono (by simp [frameSub]))
  refine ⟨_, congrArg Host.Outcome.next (if_neg ?_), h13.trans ((hf _ _ _).mono (by simp [frameSub])), (hs2.of_act (t := s3) rfl).of_act ((hf _ _ _).act_eq rfl), ?_⟩
  · rw [not_or, not_or]
    exact ⟨Nat.not_lt.mpr hn, by rw [hw]; decide, by rw [hl]; decide⟩
  · exact ((hf _ _ _).entries (by decide) _ (List.not_mem_nil)).trans ((s2.reg_incSat _).trans (by rw [hr2]))

theorem mem_recent (l : List Nat) : s.now ∈ s.recent l := List.mem_append_right _ (List.mem_singleton_self _)

/-! ### Thermal shutdown -/

/-- Ending a short leaves all of the actuators but the channel. -/
theorem endShort_act (c : Nat) : (s.endShort c).act = { s.act with fans := s.act.fans.set c { s.fan c with short := false } } := by
  unfold State.endShort
  extract_lets f s1
  have h1 : s1.act = { s.act with fans := s.act.fans.set c { s.fan c with short := false } } := rfl
  split
  · exact ((alarmOf_only _ _ _ _ _ (by decide) .refl : OnlyIn [.klp, .bus] [] s1 (s1.alarmOf (0x2010 + c) 0 f.iout (s1.fanStatus c))).act_eq rfl).trans h1
  · exact h1

theorem fanThermal_act (c : Nat) : ∃ f : FanUnit, f.st = .off ∧ f.target = (s.fan c).target ∧
    (s.fanThermal c).act = { s.act with fans := s.act.fans.set c f } := by
  by_cases hc : c < s.act.fans.length
  · refine ⟨{ s.fan c with st := .off, retug := false, attempt := 0, short := false }, rfl, rfl, ?_⟩
    unfold State.fanThermal
    rw [endShort_act, fan_setFan_self hc]
    unfold State.setFan
    dsimp only
    rw [List.set_set]
  · refine ⟨{ s.fan c with st := .off }, rfl, rfl, ?_⟩
    unfold State.fanThermal
    rw [endShort_act]
    unfold State.setFan
    dsimp only
    have hle := Nat.le_of_not_lt hc
    rw [List.set_eq_of_length_le hle, List.set_eq_of_length_le hle, List.set_eq_of_length_le hle]

/-- Both channels turned off by the thermal rule. -/
theorem fansThermal_act : ∃ f g : FanUnit, (f.st = .off ∧ f.target = (s.fan 0).target) ∧ (g.st = .off ∧ g.target = (s.fan 1).target) ∧
    ([0, 1].foldl State.fanThermal s).act = { s.act with fans := (s.act.fans.set 0 f).set 1 g } := by
  obtain ⟨f, hf1, hf2, hf⟩ := fanThermal_act (s := s) 0
  obtain ⟨g, hg1, hg2, hg⟩ := fanThermal_act (s := s.fanThermal 0) 1
  refine ⟨f, g, ⟨hf1, hf2⟩, ⟨hg1, ?_⟩, hg.trans (by rw [hf])⟩
  rw [hg2]
  have : (s.fanThermal 0).fan 1 = (s.act.fans.set 0 f).getD 1 FanUnit.idle :=
    congrArg (fun a : ActPart => a.fans.getD 1 FanUnit.idle) hf
  rw [this, getD_set_ne (by decide)]
  rfl

theorem thermalShutdown_holds (temp : Nat) (h : s.act.thermal = false) : Does (.thermalShutdown temp) s [.klp, .log, .bus, .act] [Reg.THERMAL_EVENTS] fun t =>
      t.act.thermal = true ∧ t.act.outs = s.act.outs ∧ (∀ n, t.live n = false) ∧
        (∀ c, c < 2 → c < s.act.fans.length → (t.fan c).st = .off ∧ (t.fan c).target = (s.fan c).target) ∧
        t.reg Reg.THERMAL_EVENTS = satInc 32 (s.reg Reg.THERMAL_EVENTS) := by
  generalize hs1 : ({ s with act := { s.act with thermal := true } } : State).incSat Reg.THERMAL_EVENTS = s1
  have ha1 : s1.act = { s.act with thermal := true } := by rw [← hs1]; rfl
  have hfans : s1.act.fans = s.act.fans := by rw [ha1]
  have hr1 : s1.reg Reg.THERMAL_EVENTS = satInc 32 (s.reg Reg.THERMAL_EVENTS) := by rw [← hs1]; exact State.reg_incSat _ Reg.THERMAL_EVENTS
  obtain ⟨f, g, ⟨hf1, hf2⟩, ⟨hg1, hg2⟩, h2⟩ := fansThermal_act (s := s1)
  generalize hs2 : [0, 1].foldl State.fanThermal s1 = s2 at h2
  have ho2 : OnlyIn [.klp, .bus, .act] [] s1 s2 := by rw [← hs2]; exact OnlyIn.foldl .refl fun _ _ h => fanThermal_only _ _ (by decide) h
  have ho : OnlyIn [.klp, .log, .bus] [] s2 ((s2.pushLog Lt.ACT_THERMAL (leBytes 2 temp)).alarmOf 0x2030 1 temp s2.actStatus) :=
    alarmOf_only _ _ _ _ _ (by decide) (pushLog_only _ _ _ (by decide) .refl)
  have he : exec (.thermalShutdown temp) s = .next ((s2.pushLog Lt.ACT_THERMAL (leBytes 2 temp)).alarmOf 0x2030 1 temp s2.actStatus) := by
    rw [← hs2, ← hs1]
    exact congrArg Host.Outcome.next (if_neg (by rw [h]; decide))
  refine Does.of_only (execThermalShutdown_only temp s (by decide) .refl) he ?_
  generalize (s2.pushLog Lt.ACT_THERMAL (leBytes 2 temp)).alarmOf 0x2030 1 temp s2.actStatus = t at ho
  have ht := (ho.act_eq rfl).trans (h2.trans (by rw [ha1]))
  have hfan (c : Nat) : t.fan c = ((s.act.fans.set 0 f).set 1 g).getD c FanUnit.idle :=
    congrArg (fun a : ActPart => a.fans.getD c FanUnit.idle) ht
  refine ⟨by rw [ht], by rw [ht], fun n => ?_, fun c hc hl => ?_, ?_⟩
  · unfold State.live
    rw [ht]
    simp
  · rw [hfan]
    have h01 : c = 0 ∨ c = 1 := by omega
    rcases h01 with rfl | rfl
    · rw [getD_set_ne (by decide), getD_set_self hl]
      exact ⟨hf1, hf2.trans (congrArg FanUnit.target (fan_of_fans hfans 0))⟩
    · rw [getD_set_self (by simpa using hl)]
      exact ⟨hg1, hg2.trans (congrArg FanUnit.target (fan_of_fans hfans 1))⟩
  · rw [ho.entries (by decide) _ (by decide), ho2.entries (by decide) _ (by decide), hr1]

/-! ### The end of a thermal shutdown -/

/-- A channel with a target restarts with a tug. -/
def State.restartFan (s : State) (c : Nat) : State :=
  if (s.fan c).target ≠ 0 ∧ (s.fan c).latched = false then s.startTug c 1 false else s

theorem clearTugEdges_act (s : State) (c : Nat) : ∃ l, (s.clearTugEdges c).act = { s.act with tachs := l } := by
  unfold State.clearTugEdges
  generalize s.boundTachs c = ks
  induction ks generalizing s with
  | nil => exact ⟨_, rfl⟩
  | cons k ks ih =>
    obtain ⟨l, hl⟩ := ih (s.setTach k { s.tach k with tugEdges := 0 })
    exact ⟨l, hl⟩

/-- What a restart leaves of the actuators. -/
theorem restartFan_act (s : State) (c : Nat) : ∃ f l, (s.restartFan c).act = { s.act with fans := s.act.fans.set c f, tachs := l } ∧
    ((s.fan c).target ≠ 0 → (s.fan c).latched = false → f.st = .tug ∧ f.attempt = 1) := by
  unfold State.restartFan
  split
  · unfold State.startTug
    dsimp only
    obtain ⟨l, hl⟩ := clearTugEdges_act (s.setFan c { s.fan c with st := .tug, attempt := 1, retry := false, retug := false, short := false }) c
    exact ⟨_, l, hl, fun _ _ => ⟨rfl, rfl⟩⟩
  · next hn =>
    refine ⟨s.fan c, s.act.tachs, ?_, fun h1 h2 => absurd ⟨h1, h2⟩ hn⟩
    have : s.act.fans.set c (s.fan c) = s.act.fans := by
      unfold State.fan
      by_cases hc : c < s.act.fans.length
      · simp [List.getD_eq_getElem?_getD, hc]
      · exact List.set_eq_of_length_le (Nat.le_of_not_lt hc)
    rw [this]

theorem thermalResume_holds (h : s.act.thermal = true) : Does .thermalResume s [.klp, .bus, .act] [] fun t =>
    t.act.thermal = false ∧ t.act.outs = s.act.outs ∧ ∀ c, c < 2 → c < s.act.fans.length → (s.fan c).target ≠ 0 →
      (s.fan c).latched = false → (t.fan c).st = .tug ∧ (t.fan c).attempt = 1 := by
  generalize hs1 : ({ s with act := { s.act with thermal := false } } : State) = s1
  have ha1 : s1.act = { s.act with thermal := false } := by rw [← hs1]
  obtain ⟨f, l, hf, hf1⟩ := restartFan_act s1 0
  obtain ⟨g, m, hg, hg1⟩ := restartFan_act (s1.restartFan 0) 1
  generalize hs2 : (s1.restartFan 0).restartFan 1 = s2 at hg
  have he : exec .thermalResume s = .next (s2.alarmOf 0x2030 0 s2.dieTemp64 s2.actStatus) := by
    rw [← hs2, ← hs1]
    exact congrArg Host.Outcome.next (if_pos h)
  have ho : OnlyIn [.klp, .bus] [] s2 (s2.alarmOf 0x2030 0 s2.dieTemp64 s2.actStatus) := alarmOf_only _ _ _ _ _ (by decide) .refl
  refine Does.of_only (execThermalResume_only s (by decide) .refl) he ?_
  generalize s2.alarmOf 0x2030 0 s2.dieTemp64 s2.actStatus = t at ho
  have ht := (ho.act_eq rfl).trans hg
  rw [hf, ha1] at ht
  have hfan1 : (s1.restartFan 0).fan 1 = s.fan 1 := by
    have : (s1.restartFan 0).fan 1 = (s1.act.fans.set 0 f).getD 1 FanUnit.idle := congrArg (fun a : ActPart => a.fans.getD 1 FanUnit.idle) hf
    rw [this, getD_set_ne (by decide), ha1]
    rfl
  have hfan0 : s1.fan 0 = s.fan 0 := fan_of_fans (by rw [ha1]) 0
  have hfan (c : Nat) : t.fan c = ((s.act.fans.set 0 f).set 1 g).getD c FanUnit.idle :=
    congrArg (fun a : ActPart => a.fans.getD c FanUnit.idle) ht
  refine ⟨by rw [ht], by rw [ht], fun c hc hl hx hy => ?_⟩
  rw [hfan]
  have h01 : c = 0 ∨ c = 1 := by omega
  rcases h01 with rfl | rfl
  · rw [getD_set_ne (by decide), getD_set_self hl]
    exact hf1 (by rwa [hfan0]) (by rwa [hfan0])
  · rw [getD_set_self (by simpa using hl)]
    exact hg1 (by rwa [hfan1]) (by rwa [hfan1])

/-- Settles O36: a trip, its end, the thermal rule and its end, and the two valve and damper events. -/
theorem outputProtection : Obligations.OutputProtection := by
  refine ⟨fun n short s hn hb hw hl => ?_, fun n s hw => ?_, fun temp s h => thermalShutdown_holds temp h, fun s h => thermalResume_holds h,
    fun n s h => ?_, fun n s h => ?_⟩
  · obtain ⟨t, he, ho, ⟨h1, h2, h3⟩, hr⟩ := outputTrip_tripped hn hb hw hl short
    refine ⟨t, he, ho, h1, h2, ?_, hr, by rw [h2]; exact mem_recent _⟩
    rw [h3]
    exact iff_of_eq Nat.ble_eq
  · exact Does.of_only (execOutputTripResume_only n s (by decide) .refl) (congrArg Host.Outcome.next (if_pos hw)) (clearTrip_act n)
  · exact Does.of_only (execFloatingOverdriveEnd_only n s (by decide) .refl) (congrArg Host.Outcome.next (if_pos h)) rfl
  · exact Does.of_only (execValvePeakEnd_only n s (by decide) .refl) (congrArg Host.Outcome.next (if_pos h)) rfl

end Sys2Proof.Machine
end

section
/-!
PROOF. Tachs, ripple windows and the learnt speed (R322 to R326).
-/
namespace Sys2Proof.Machine

variable {s t : State}

theorem tach_of_act (h : t.act = s.act) (k : Nat) : t.tach k = s.tach k :=
  congrArg (fun a : ActPart => a.tachs.getD k TachUnit.idle) h

/-! ### Edges -/

/-- A tach that runs again: of the actuators only its state changes. -/
theorem tachRuns_act (s : State) (k : Nat) : (s.tachRuns k).act =
    { s.act with tachs := s.act.tachs.set k { s.tach k with st := .running, outside := 0 } } := by
  unfold State.tachRuns
  extract_lets x s1
  split
  · exact (alarmOf_only _ _ _ _ _ (by decide) .refl : OnlyIn [.klp, .bus] [] s1 (s1.alarmOf (0x2000 + k) 0 x.rpm TachState.running.code)).act_eq rfl
  · rfl

/-- An edge changes of the actuators at most its tach, and there neither the edges nor the speed. -/
theorem edgeRuns_act (s : State) (k : Nat) : ∃ u : TachUnit, u.edges = (s.tach k).edges ∧ u.rpm = (s.tach k).rpm ∧ u.noise = (s.tach k).noise ∧
    ((s.edgeRuns k).act = s.act ∧ u = s.tach k ∨ (s.edgeRuns k).act = { s.act with tachs := s.act.tachs.set k u }) := by
  have hkeep : ∃ u : TachUnit, u.edges = (s.tach k).edges ∧ u.rpm = (s.tach k).rpm ∧ u.noise = (s.tach k).noise ∧
      (s.act = s.act ∧ u = s.tach k ∨ s.act = { s.act with tachs := s.act.tachs.set k u }) := ⟨_, rfl, rfl, rfl, .inl ⟨rfl, rfl⟩⟩
  have hruns : ∃ u : TachUnit, u.edges = (s.tach k).edges ∧ u.rpm = (s.tach k).rpm ∧ u.noise = (s.tach k).noise ∧
      ((s.tachRuns k).act = s.act ∧ u = s.tach k ∨ (s.tachRuns k).act = { s.act with tachs := s.act.tachs.set k u }) :=
    ⟨{ s.tach k with st := .running, outside := 0 }, rfl, rfl, rfl, .inr (tachRuns_act s k)⟩
  unfold State.edgeRuns
  split
  · exact hkeep
  · extract_lets x tug
    split
    · exact hkeep
    · split
      · split
        · exact hruns
        · exact hkeep
      · exact hruns

theorem edgeRuns_tach {k : Nat} (h : k < s.act.tachs.length) : ((s.edgeRuns k).tach k).edges = (s.tach k).edges ∧
    ((s.edgeRuns k).tach k).rpm = (s.tach k).rpm ∧ ((s.edgeRuns k).tach k).noise = (s.tach k).noise ∧
    (s.edgeRuns k).act.outs = s.act.outs ∧ (s.edgeRuns k).act.fans = s.act.fans := by
  obtain ⟨u, h1, h2, h3, ⟨ha, hu⟩ | ha⟩ := edgeRuns_act s k
  · rw [tach_of_act ha, ha]
    exact ⟨rfl, rfl, rfl, rfl, rfl⟩
  · have hk : (s.edgeRuns k).tach k = u :=
      (congrArg (fun a : ActPart => a.tachs.getD k TachUnit.idle) ha).trans (getD_set_self h _ _)
    rw [hk, ha]
    exact ⟨h1, h2, h3, rfl, rfl⟩

/-- A speed is read over `TACH_PPR` intervals, kept within 20,000 rpm and else counted as noise. -/
theorem readRpm_eq (s : State) (k t1 t0 : Nat) (h1 : (s.tach k).edges.head? = some t1)
    (h0 : (s.tach k).edges[s.reg (Reg.TACH_PPR k)]? = some t0) : s.readRpm k =
      if t1 - t0 = 0 ∨ 20000 < rdivN 3000000000 (t1 - t0) then s.setTach k { s.tach k with noise := satInc 32 (s.tach k).noise }
      else s.setTach k { s.tach k with rpm := rdivN 3000000000 (t1 - t0) } := by
  unfold State.readRpm
  dsimp only
  rw [h1, h0]

/-- Reading the speed leaves the edges, the outputs and the channels. -/
theorem readRpm_kept (s : State) (k : Nat) : (s.readRpm k).act.outs = s.act.outs ∧ (s.readRpm k).act.fans = s.act.fans ∧
    (s.readRpm k).act.tachs.length = s.act.tachs.length ∧ (k < s.act.tachs.length → ((s.readRpm k).tach k).edges = (s.tach k).edges) := by
  have hset (u : TachUnit) (hu : u.edges = (s.tach k).edges) : (s.setTach k u).act.outs = s.act.outs ∧ (s.setTach k u).act.fans = s.act.fans ∧
      (s.setTach k u).act.tachs.length = s.act.tachs.length ∧ (k < s.act.tachs.length → ((s.setTach k u).tach k).edges = (s.tach k).edges) :=
    ⟨rfl, rfl, List.length_set, fun h => by rw [tach_setTach_self h]; exact hu⟩
  unfold State.readRpm
  dsimp only
  split
  · split
    · exact hset _ rfl
    · exact hset _ rfl
  · exact ⟨rfl, rfl, rfl, fun _ => rfl⟩

theorem stampEdge_tach {k : Nat} (h : k < s.act.tachs.length) (at_ : Nat) : (s.stampEdge k at_).tach k =
    { s.tach k with edges := (at_ :: (s.tach k).edges).take 5, tugEdges := (s.tach k).tugEdges + 1 } := tach_setTach_self h _

/-- A ripple window of a channel none of whose tachs is to be judged. -/
theorem exec_rippleWindowEnd {n : Nat} (hr : (s.fan n).st = .running)
    (hb : ∀ k ∈ s.boundTachs n, (s.tach k).st ≠ .checking ∧ (s.tach k).st ≠ .lost) (e : Nat) : exec (.rippleWindowEnd n e) s =
      .next (s.setFan n { s.fan n with rate := min 65535 e, events := e }).tickFree := by
  have he : exec (.rippleWindowEnd n e) s = execRippleWindowEnd n e s := rfl
  rw [he]
  unfold execRippleWindowEnd
  rw [if_pos hr]
  extract_lets f s1 judged est s2
  have hj : judged = [] := List.filter_eq_nil_iff.mpr fun k hk => by
    have := hb k hk
    have hs : (s1.tach k).st = (s.tach k).st := rfl
    rw [hs, Bool.or_eq_true, beq_iff_eq, beq_iff_eq, not_or]
    exact this
  have h2 : s2 = s1 := by
    unfold s2
    rw [hj]
    rfl
  rw [if_neg fun h => h.1 hj, h2]

/-! ### The learnt speed -/

theorem learnTach_kept (s : State) (c k : Nat) : (s.learnTach c k).act.outs = s.act.outs ∧ (s.learnTach c k).act.fans = s.act.fans ∧
    (s.learnTach c k).act.tachs.length = s.act.tachs.length ∧ ∀ j, j ≠ k → (s.learnTach c k).tach j = s.tach j := by
  unfold State.learnTach
  dsimp only
  split
  · exact ⟨rfl, rfl, List.length_set, fun j h => tach_setTach_ne h _⟩
  · exact ⟨rfl, rfl, rfl, fun _ _ => rfl⟩

/-- The factor after a measurement (R323). -/
theorem learnTach_perV {c k : Nat} (h : k < s.act.tachs.length) (hr : (s.tach k).st = .running) : ((s.learnTach c k).tach k).perV =
    if (s.tach k).perV = 0 then rdivN ((s.tach k).rpm * 256000) (s.fan c).target
    else (((s.tach k).perV : Int) + rdiv ((rdivN ((s.tach k).rpm * 256000) (s.fan c).target : Nat) - ((s.tach k).perV : Int)) 8).toNat := by
  unfold State.learnTach
  dsimp only
  rw [if_pos hr, tach_setTach_self h]

theorem foldLearn_kept (c : Nat) (l : List Nat) (s : State) : (l.foldl (fun t k => t.learnTach c k) s).act.outs = s.act.outs ∧
    (l.foldl (fun t k => t.learnTach c k) s).act.fans = s.act.fans ∧
    ∀ j, j ∉ l → (l.foldl (fun t k => t.learnTach c k) s).tach j = s.tach j := by
  induction l generalizing s with
  | nil => exact ⟨rfl, rfl, fun _ _ => rfl⟩
  | cons k l ih =>
    obtain ⟨ho, hf, -, ht⟩ := learnTach_kept s c k
    obtain ⟨jo, jf, jt⟩ := ih (s.learnTach c k)
    refine ⟨jo.trans ho, jf.trans hf, fun j hj => ?_⟩
    rw [List.mem_cons, not_or] at hj
    exact (jt j hj.2).trans (ht j hj.1)

/-- Each bound tach learns once, whatever the others do. -/
theorem foldLearn_perV {c k : Nat} {l : List Nat} (hn : l.Nodup) (hk : k ∈ l) (h : k < s.act.tachs.length) (hr : (s.tach k).st = .running) :
    ((l.foldl (fun t k => t.learnTach c k) s).tach k).perV =
    if (s.tach k).perV = 0 then rdivN ((s.tach k).rpm * 256000) (s.fan c).target
    else (((s.tach k).perV : Int) + rdiv ((rdivN ((s.tach k).rpm * 256000) (s.fan c).target : Nat) - ((s.tach k).perV : Int)) 8).toNat := by
  induction l generalizing s with
  | nil => exact nomatch hk
  | cons j l ih =>
    obtain ⟨hj, hl⟩ := List.nodup_cons.mp hn
    rw [List.foldl_cons]
    by_cases he : k = j
    · subst he
      rw [(foldLearn_kept c l _).2.2 k hj]
      exact learnTach_perV h hr
    · obtain ⟨-, hf, hlen, ht⟩ := learnTach_kept s c j
      have hs := ht k he
      have := ih hl ((List.mem_cons.mp hk).resolve_left he) (s := s.learnTach c j) (by rwa [hlen]) (by rwa [hs])
      rw [this, hs, fan_of_fans hf]

theorem boundTachs_nodup (c : Nat) : (s.boundTachs c).Nodup := List.nodup_range.filter _

/-- Settles O38: an edge is stamped, read and only then may bring the tach back. -/
theorem tachs : Obligations.Tachs := by
  refine ⟨fun n at_ s h => ?_, fun n s h hq => ?_, fun n e s h hr hb => ?_, fun n s hr hw => ?_⟩
  · have hl1 : n < (s.stampEdge n at_).act.tachs.length := by unfold State.stampEdge State.setTach; simpa using h
    obtain ⟨ho, hf, hlen, hed⟩ := readRpm_kept (s.stampEdge n at_) n
    obtain ⟨he, hp, hz, ho2, hf2⟩ := edgeRuns_tach (s := (s.stampEdge n at_).readRpm n) (by rw [hlen]; exact hl1)
    have hs := stampEdge_tach h at_
    have hset (t0 : Nat) (h0 : (at_ :: (s.tach n).edges.take 4)[s.reg (Reg.TACH_PPR n)]? = some t0) :=
      readRpm_eq (s.stampEdge n at_) n at_ t0 (by rw [hs]; rfl) (by rw [hs]; exact h0)
    refine Does.of_only (execTachEdge_only n at_ s (by decide) .refl) rfl
      ⟨he.trans ((hed hl1).trans (by rw [hs])), ho2.trans ho, hf2.trans hf, fun t0 h0 hlt hle => ?_, fun t0 h0 hlt hgt => ?_⟩
    · rw [hp, hset t0 h0, if_neg (by omega), tach_setTach_self hl1]
    · rw [hp, hz, hset t0 h0, if_pos (.inr hgt), tach_setTach_self hl1, hs]
      exact ⟨rfl, rfl⟩
  · have hany : ¬((s.tach n).edges.any fun t => Nat.blt s.now (t + 500 * clkMs)) = true := by
      simp only [List.any_eq_true, Nat.blt_eq, not_exists, not_and, Nat.not_lt]
      exact hq
    refine Does.of_only (execTachStop_only n s (by decide) .refl) (congrArg Host.Outcome.next (if_neg hany)) ⟨?_, rfl, rfl, fun hr hc hx => ?_⟩
    · rw [tach_setTach_self h]
    · obtain ⟨c, hcc⟩ := Option.ne_none_iff_exists'.mp hx
      have hruns : ((s.tachChannel n).any fun c => (s.fan c).st == .running) = true := by
        rw [hcc]
        exact beq_iff_eq.mpr (hc c hcc)
      rw [tach_setTach_self h]
      simp [hr, hruns]
  · exact ⟨_, exec_rippleWindowEnd hr hb e, tickFree_only _ (by decide) (setFan_only _ _ _ (by decide) .refl), rfl⟩
  · have hq : (s.fan n).st = .running ∧ s.waited (s.fan n).targetAt (10 * clkSec) = true := ⟨hr, waited_iff.mpr hw⟩
    obtain ⟨ho, hf, -⟩ := foldLearn_kept n (s.boundTachs n) s
    refine Does.of_only (execRpmLearn_only n s (by decide) .refl) (congrArg Host.Outcome.next (if_pos hq)) ⟨ho, hf, fun k hk hl hk2 => ?_⟩
    rw [foldLearn_perV (boundTachs_nodup n) hk hl hk2]
    exact ⟨fun h => if_pos h, fun h => if_neg h⟩

end Sys2Proof.Machine
end

section
/-!
PROOF. The settings of a loop (R269, R272, R274 to R276).
-/
namespace Sys2Proof.Machine

variable {s t : State}

theorem findEntry_loopMode : ∀ n < 64, findEntry (Reg.LOOP_MODE n) = some ⟨0x3000, 64, 1, 1, .u8, 1, 0, [(0, 2)], false⟩ := by decide

theorem inRange_loopMode {n v : Nat} (h : n < 64) : inRange (Reg.LOOP_MODE n) v = true ↔ v ≤ 2 :=
  (inRange_unsigned (lo := 0) (hi := 2) (findEntry_loopMode n h) rfl rfl).trans (and_iff_right v.zero_le)

theorem loopRun_setLoopRun_self {n : Nat} (h : n < s.loop.runs.length) (r : LoopRun) : (s.setLoopRun n r).loopRun n = r := getD_set_self h _ _

/-! ### The rules -/

theorem loopModeRule_shared {n v : Nat} (hv : v = 1 ∨ v = 2) (h : s.othersOn n (s.reg (Reg.TARGET n)) = true) :
    loopModeRule n s v = (.state, s) := if_pos ⟨hv, h⟩

theorem loopModeRule_range {n v : Nat} (hn : n < 64) (hv : 2 < v) : loopModeRule n s v = (.range, s) :=
  (if_neg fun h => by omega).trans (if_pos (by rw [← Bool.not_eq_true, inRange_loopMode hn]; omega))

/-- A loop that takes a new mode other than OFF starts afresh. -/
def State.modeFresh (n v old : Nat) (t : State) : State := if v ≠ 0 ∧ v ≠ old then t.setLoopRun n { t.loopRun n with fresh := true } else t

theorem modeFresh_only (n v old : Nat) (t : State) : OnlyIn [.loop] [] t (t.modeFresh n v old) := by
  unfold State.modeFresh
  split
  · exact setLoopRun_only _ _ _ (by decide) .refl
  · exact .refl

theorem loopModeRule_taken {n v : Nat} (hn : n < 64) (hv : v = 0 ∨ (v ≤ 2 ∧ s.othersOn n (s.reg (Reg.TARGET n)) = false)) :
    loopModeRule n s v = andThen (s.putEntry (Reg.LOOP_MODE n) v) (State.modeFresh n v (s.reg (Reg.LOOP_MODE n))) := by
  unfold loopModeRule
  rw [if_neg, if_neg]
  · rfl
  · rw [(inRange_loopMode hn).mpr (by omega)]
    decide
  · rintro ⟨h1, h2⟩
    rcases hv with h0 | ⟨-, hf⟩
    · omega
    · exact nomatch h2.symm.trans hf

theorem loopTargetRule_shared {n v : Nat} (h : s.othersOn n v = true) : loopTargetRule n s v = (.state, s) := if_pos h

theorem loopTargetRule_range {n v : Nat} (h : s.othersOn n v = false) (hv : targetValid v = false) : loopTargetRule n s v = (.range, s) :=
  (if_neg (by rw [h]; decide)).trans (if_pos hv)

theorem loopTargetRule_taken {n v : Nat} (h : s.othersOn n v = false) (hv : targetValid v = true) :
    loopTargetRule n s v = s.putEntry (Reg.TARGET n) v :=
  (if_neg (by rw [h]; decide)).trans (if_neg (by rw [hv]; decide))

theorem pvSourceRule_kind {key v : Nat} (h : field v 29 3 = 2) (hk : s.reg (Reg.KIND (field v 16 13)) ≠ 2) :
    pvSourceRule key s v = (.state, s) := if_pos ⟨h, hk⟩

theorem pvSourceRule_range {key v : Nat} (h : field v 29 3 = 2 → s.reg (Reg.KIND (field v 16 13)) = 2) (hv : descriptorOk v = false) :
    pvSourceRule key s v = (.range, s) := (if_neg fun e => e.2 (h e.1)).trans (if_pos hv)

theorem pvSourceRule_taken {key v : Nat} (h : field v 29 3 = 2 → s.reg (Reg.KIND (field v 16 13)) = 2) (hv : descriptorOk v = true) :
    pvSourceRule key s v = s.putEntry key v := (if_neg fun e => e.2 (h e.1)).trans (if_neg (by rw [hv]; decide))

/-- Settles O39: each rule in its order. -/
theorem loopSettings : Obligations.LoopSettings := by
  refine ⟨fun n s w hn hl ha => ⟨fun hv h => ?_, fun hv => ?_, fun hv hs => ?_⟩, fun n s w hn ha => ⟨fun h => ?_, fun h hv => ?_, fun h hv hs => ?_⟩,
    fun l b s w hl ha => ⟨fun h hk => ?_, fun h => ⟨fun hv => ?_, fun hv hs => ?_⟩⟩⟩
  · exact Refuses.rule rfl ha (loopModeRule_shared (s := s.taken _) hv h)
  · exact Refuses.rule rfl ha (loopModeRule_range (s := s.taken _) hn hv)
  · refine TakesWith.rule (State.modeFresh n w.val (s.reg (Reg.LOOP_MODE n))) rfl ha hs (loopModeRule_taken (s := s.taken _) hn hv)
      (modeFresh_only _ _ _) (by simp) fun m k => ?_
    generalize hu : ({ s with nv := m, klp := (s.taken (wrRequest w (Reg.LOOP_MODE n))).klp } : State).setReg (Reg.LOOP_MODE n) w.val = u
    have hul : u.loop = s.loop := by rw [← hu]; rfl
    unfold State.modeFresh
    refine ⟨fun h0 hne => ?_, fun h => ?_⟩
    · rw [if_pos ⟨h0, Ne.symm hne⟩]
      refine (loopRun_setLoopRun_self (by rwa [hul]) _).trans ?_
      unfold State.loopRun
      rw [hul]
    · rw [if_neg fun e => h.elim e.1 fun h => e.2 h.symm]
      exact hul
  · exact Refuses.rule rfl ha (loopTargetRule_shared (s := s.taken _) h)
  · exact Refuses.rule rfl ha (loopTargetRule_range (s := s.taken _) h hv)
  · exact Takes.rule rfl ha hs (loopTargetRule_taken (s := s.taken _) h hv)
  · exact Refuses.rule rfl ha (pvSourceRule_kind (s := s.taken _) h hk)
  · exact Refuses.rule rfl ha (pvSourceRule_range (s := s.taken _) h hv)
  · exact Takes.rule rfl ha hs (pvSourceRule_taken (s := s.taken _) h hv)

end Sys2Proof.Machine
end

section
/-!
PROOF. The bounds of a loop computation (R271, R273) and the latest switch point (R283).
-/
namespace Sys2Proof.Machine

variable {s t : State}

/-! ### The slew limit -/

/-- What an output may move by in one computation. -/
def State.slewLimit (s : State) (l : Nat) : Int := rdiv (s.reg (Reg.OUT_SLEW l) * s.loopDt l) 1000000000

theorem slewLimit_nonneg (l : Nat) : 0 ≤ s.slewLimit l := by
  have hd : 0 ≤ s.loopDt l := by
    unfold State.loopDt
    split <;> exact Int.mul_nonneg (Int.natCast_nonneg _) (by decide)
  have hm : 0 ≤ (s.reg (Reg.OUT_SLEW l) : Int) * s.loopDt l := Int.mul_nonneg (Int.natCast_nonneg _) hd
  unfold State.slewLimit rdiv
  rw [if_neg (by decide)]
  omega

theorem natAbs_sgn_mul_le {d lim : Int} (h : 0 ≤ lim) : ((sgn d * lim).natAbs : Int) ≤ lim := by
  unfold sgn
  split
  · omega
  · split <;> omega

theorem slewed_free {l : Nat} (h : s.reg (Reg.OUT_SLEW l) = 0) (uPrev u : Int) : s.slewed l uPrev u = (u, false) :=
  if_neg fun e => e.1 h

/-- With a slew limit the output moves by no more than it. -/
theorem slewed_le {l : Nat} (h : s.reg (Reg.OUT_SLEW l) ≠ 0) (uPrev u : Int) :
    (((s.slewed l uPrev u).1 - uPrev).natAbs : Int) ≤ s.slewLimit l := by
  have e : s.slewed l uPrev u = if s.reg (Reg.OUT_SLEW l) ≠ 0 ∧ s.slewLimit l < (u - uPrev).natAbs then
      (uPrev + sgn (u - uPrev) * s.slewLimit l, true) else (u, false) := rfl
  rw [e]
  split
  · have := natAbs_sgn_mul_le (d := u - uPrev) (slewLimit_nonneg (s := s) l)
    rwa [Int.add_comm uPrev, Int.add_sub_cancel]
  · next hn => exact Int.not_lt.mp fun hlt => hn ⟨h, hlt⟩

/-! ### The computation -/

theorem clampI_bounds {lo hi : Int} (h : lo ≤ hi) (v : Int) : lo ≤ clampI lo hi v ∧ clampI lo hi v ≤ hi := by
  unfold clampI
  split
  · omega
  · split <;> omega

theorem clampI_le_max {lo hi : Int} (v : Int) : clampI lo hi v ≤ max v lo := by
  unfold clampI
  split
  · omega
  · split <;> omega

theorem min_le_clampI {lo hi : Int} (v : Int) : min v hi ≤ clampI lo hi v := by
  unfold clampI
  split
  · omega
  · split <;> omega

/-- The bounds of R271 and R273. -/
theorem loopAuto_bounds {l : Nat} (pv sp iq0 d0 pvPrev uPrev : Int) (h : s.reg (Reg.OUT_MIN l) ≤ s.reg (Reg.OUT_MAX l)) :
     let x := s.loopAuto l pv sp iq0 d0 pvPrev uPrev
     (s.reg (Reg.OUT_MIN l) : Int) * 65536 ≤ x.iq ∧ x.iq ≤ (s.reg (Reg.OUT_MAX l) : Int) * 65536 ∧
       (s.reg (Reg.OUT_SLEW l) = 0 → (s.reg (Reg.OUT_MIN l) : Int) ≤ x.u ∧ x.u ≤ s.reg (Reg.OUT_MAX l) ∧ x.slew = false) ∧
       (s.reg (Reg.OUT_SLEW l) ≠ 0 → ((x.u - uPrev).natAbs : Int) ≤ rdiv (s.reg (Reg.OUT_SLEW l) * s.loopDt l) 1000000000) ∧
       (x.hi = true → x.slew = false → x.iq ≤ max iq0 ((s.reg (Reg.OUT_MIN l) : Int) * 65536)) ∧
       (x.lo = true → x.hi = false → x.slew = false → min iq0 ((s.reg (Reg.OUT_MAX l) : Int) * 65536) ≤ x.iq) := by
  unfold State.loopAuto
  extract_lets dt kp ti td e p di iq1 dm draw d outMax outMin u1 hi u2 iq2 lo u3 iq3 sl iq4 x
  have hm : outMin ≤ outMax := Int.ofNat_le.mpr h
  have hm2 : outMin * 65536 ≤ outMax * 65536 := by omega
  have hu3 : outMin ≤ u3 ∧ u3 ≤ outMax := by
    unfold u3 lo u2 hi
    simp only [decide_eq_true_eq]
    repeat' split
    all_goals omega
  have h4 (hs : sl.2 = false) : iq4 = iq3 := if_neg (by rw [hs, Bool.false_and]; exact Bool.false_ne_true)
  have hiq : x.iq = clampI (outMin * 65536) (outMax * 65536) iq4 := rfl
  refine ⟨(clampI_bounds hm2 _).1, (clampI_bounds hm2 _).2, fun h0 => ?_, fun h0 => slewed_le h0 uPrev u3, fun hh hs => ?_, fun hl hh hs => ?_⟩
  · have hsl : sl = (u3, false) := slewed_free h0 uPrev u3
    have hu : x.u = u3 := congrArg Prod.fst hsl
    rw [hu]
    exact ⟨hu3.1, hu3.2, congrArg Prod.snd hsl⟩
  · have hh' : hi = true := hh
    have hu2 : u2 = outMax := if_pos hh'
    have hlo : lo = false := decide_eq_false (by rw [hu2]; omega)
    have h3 : iq3 = iq2 := if_neg (by rw [hlo, Bool.false_and]; exact Bool.false_ne_true)
    have h2 : iq2 ≤ iq0 := by
      unfold iq2 iq1
      rw [hh']
      simp only [Bool.true_and, decide_eq_true_eq]
      split <;> omega
    have := clampI_le_max (lo := outMin * 65536) (hi := outMax * 65536) iq4
    rw [hiq]
    rw [h4 hs, h3] at this ⊢
    omega
  · have hh' : hi = false := hh
    have hl' : lo = true := hl
    have h2 : iq2 = iq1 := if_neg (by rw [hh', Bool.false_and]; exact Bool.false_ne_true)
    have h3 : iq0 ≤ iq3 := by
      unfold iq3
      rw [hl', h2]
      unfold iq1
      simp only [Bool.true_and, decide_eq_true_eq]
      split <;> omega
    have := min_le_clampI (lo := outMin * 65536) (hi := outMax * 65536) iq4
    rw [hiq]
    rw [h4 hs] at this ⊢
    omega

/-! ### Switch points -/

/-- The time of a switch point in minutes. -/
def State.pointTime (s : State) (p j : Nat) : Nat := field (s.reg (Reg.SWITCH_POINT p j)) 19 5 * 60 + field (s.reg (Reg.SWITCH_POINT p j)) 13 6

/-- A switch point of a day type at or before a minute. -/
def State.pointFits (s : State) (p day minute j : Nat) : Prop :=
  bitAt (s.reg (Reg.SWITCH_POINT p j)) (24 + day) = true ∧ s.pointTime p j ≤ minute

/-- What the search through the first `n` switch points holds. -/
def State.latestOf (s : State) (p day minute n : Nat) : Option (Nat × Nat) → Prop
  | none => ∀ j, j < n → ¬ s.pointFits p day minute j
  | some b => ∃ j, j < n ∧ s.pointFits p day minute j ∧ b = (s.pointTime p j, field (s.reg (Reg.SWITCH_POINT p j)) 0 2) ∧
      ∀ k, k < n → s.pointFits p day minute k → s.pointTime p k < b.1 ∨ (s.pointTime p k = b.1 ∧ k ≤ j)

/-- One switch point more. -/
def State.pointStep (s : State) (p day minute : Nat) (best : Option (Nat × Nat)) (j : Nat) : Option (Nat × Nat) :=
  if bitAt (s.reg (Reg.SWITCH_POINT p j)) (24 + day) && Nat.ble (s.pointTime p j) minute && (match best with
    | some b => Nat.ble b.1 (s.pointTime p j)
    | none => true) then some (s.pointTime p j, field (s.reg (Reg.SWITCH_POINT p j)) 0 2) else best

theorem latestPoint_eq (p day minute : Nat) : s.latestPoint p day minute = (List.range 16).foldl (s.pointStep p day minute) none := rfl

/-- A point that does not fit, or comes before the best so far, changes nothing. -/
theorem pointStep_passes {p day minute n : Nat} {best : Option (Nat × Nat)}
    (h : ¬(s.pointFits p day minute n ∧ ∀ b, best = some b → b.1 ≤ s.pointTime p n)) : s.pointStep p day minute best n = best := by
  refine if_neg fun hc => h ?_
  rw [Bool.and_eq_true, Bool.and_eq_true, Nat.ble_eq] at hc
  refine ⟨hc.1, fun b hb => ?_⟩
  have := hc.2
  rw [hb] at this
  exact Nat.ble_eq.mp this

theorem pointStep_takes {p day minute n : Nat} {best : Option (Nat × Nat)} (h : s.pointFits p day minute n)
    (hb : ∀ b, best = some b → b.1 ≤ s.pointTime p n) :
    s.pointStep p day minute best n = some (s.pointTime p n, field (s.reg (Reg.SWITCH_POINT p n)) 0 2) := by
  refine if_pos ?_
  rw [Bool.and_eq_true, Bool.and_eq_true, Nat.ble_eq]
  refine ⟨h, ?_⟩
  cases best with
  | none => rfl
  | some b => exact Nat.ble_eq.mpr (hb b rfl)

theorem pointStep_latest {p day minute n : Nat} {best : Option (Nat × Nat)} (h : s.latestOf p day minute n best) :
    s.latestOf p day minute (n + 1) (s.pointStep p day minute best n) := by
  by_cases hc : s.pointFits p day minute n ∧ ∀ b, best = some b → b.1 ≤ s.pointTime p n
  · rw [pointStep_takes hc.1 hc.2]
    refine ⟨n, Nat.lt_succ_self n, hc.1, rfl, fun k hk hf => ?_⟩
    dsimp only
    by_cases hkn : k = n
    · subst hkn
      exact .inr ⟨rfl, Nat.le_refl k⟩
    · have hlt : k < n := by omega
      cases best with
      | none => exact absurd hf (h k hlt)
      | some b =>
        obtain ⟨j, -, -, -, hall⟩ := h
        have := hc.2 b rfl
        have := hall k hlt hf
        omega
  · rw [pointStep_passes hc]
    cases best with
    | none =>
      intro j hj hf
      by_cases hjn : j = n
      · subst hjn
        exact hc ⟨hf, fun b hb => nomatch hb⟩
      · exact h j (by omega) hf
    | some b =>
      obtain ⟨j, hj, hf, hb, hall⟩ := h
      refine ⟨j, Nat.lt_succ_of_lt hj, hf, hb, fun k hk hfk => ?_⟩
      by_cases hkn : k = n
      · subst hkn
        refine .inl (Nat.lt_of_not_le fun hle => hc ⟨hfk, fun c hcb => ?_⟩)
        rw [← Option.some.inj hcb]
        exact hle
      · exact hall k (by omega) hfk

theorem foldPoints_latest (p day minute n : Nat) : s.latestOf p day minute n ((List.range n).foldl (s.pointStep p day minute) none) := by
  induction n with
  | zero => exact fun j hj => absurd hj (Nat.not_lt_zero j)
  | succ n ih =>
    rw [List.range_succ, List.foldl_append]
    exact pointStep_latest ih

/-- Settles O40: the computation's bounds; the search keeps the latest of the points it has seen. -/
theorem loopAndProgramRules : Obligations.LoopAndProgramRules := by
  refine ⟨fun s l pv sp iq0 d0 pvPrev uPrev h => loopAuto_bounds pv sp iq0 d0 pvPrev uPrev h, fun s p day minute => ?_⟩
  have hl := foldPoints_latest (s := s) p day minute 16
  rw [← latestPoint_eq] at hl
  refine ⟨fun h j hj => ?_, fun t m h => ?_⟩
  · rw [h] at hl
    exact hl j hj.1 hj.2
  · rw [h] at hl
    obtain ⟨j, hj, hf, hb, hk⟩ := hl
    obtain ⟨ht, hm⟩ := Prod.mk.inj hb
    exact ⟨j, ⟨hj, hf⟩, ht, hm, fun k hf => hk k hf.1 hf.2⟩

end Sys2Proof.Machine
end

section
/-!
PROOF. Zones and programs (R278 to R287); the master falls silent (R288, R289).
-/
namespace Sys2Proof.Machine

variable {s t : State}

/-- A fold whose every step, for the members of the list, keeps to a frame. -/
theorem OnlyIn.foldl_mem {α : Type} {pl : List Piece} {pk : List Nat} {os : State} {f : State → α → State} {l : List α}
    (h : ∀ u, ∀ x ∈ l, OnlyIn pl pk os u → OnlyIn pl pk os (f u x)) (h0 : OnlyIn pl pk os t) : OnlyIn pl pk os (l.foldl f t) := by
  induction l generalizing t with
  | nil => exact h0
  | cons x l ih => exact ih (fun u y hy => h u y (List.mem_cons_of_mem _ hy)) (h t x List.mem_cons_self h0)

/-! ### Programs -/

/-- The entries that an evaluation of the programs writes. -/
def progKeys : List Nat := (List.range 32).map Reg.PROG_VALUE

theorem progValue_mem {p : Nat} (h : p < 32) : Reg.PROG_VALUE p ∈ progKeys := List.mem_map_of_mem (List.mem_range.mpr h)

/-- One program evaluated. -/
def State.evalProgram (s : State) (p : Nat) : State := s.setReg (Reg.PROG_VALUE p) ((s.progValueNow p).getD 0xFF)

/-- The programs' values, before the minute is remembered. -/
def State.evalValues (s : State) : State := (List.range 32).foldl State.evalProgram s

theorem evalPrograms_eq (s : State) : s.evalPrograms = { s.evalValues with loop :=
    { s.evalValues.loop with lastMinute := if s.rtc.valid then some (s.calSecond / 60) else none } } := rfl

theorem evalValues_only (s : State) : OnlyIn [] progKeys s s.evalValues := by
  refine OnlyIn.foldl_mem (fun u p hp hu => setReg_only _ _ _ ?_ hu) .refl
  simpa [frameKey] using progValue_mem (List.mem_range.mp hp)

theorem evalPrograms_entries (s : State) : OnlyIn [.loop] progKeys s s.evalPrograms := by
  have h := (evalValues_only s).mono (l := [.loop]) (ks := progKeys) (frameSub_of_subset (by simp) fun _ h => h)
  rw [evalPrograms_eq]
  repeat' (with_reducible first | exact h | exact .inl (by decide) | exact .inr rfl | apply OnlyIn.of_mk)

theorem evalPrograms_loop (s : State) : ∃ m, s.evalPrograms.loop = { s.loop with lastMinute := m } := by
  have h : s.evalValues.loop = s.loop := (evalValues_only s).pieces .loop (by decide) (by decide)
  exact ⟨_, congrArg (fun l : LoopPart => { l with lastMinute := if s.rtc.valid then some (s.calSecond / 60) else none }) h⟩

/-! ### A program's value reads no program's value -/

section ReadsNoValue
variable (hr : ∀ k, k ∉ progKeys → t.reg k = s.reg k) (hc : t.rtc = s.rtc)
include hr

theorem reg_of_notValue {k : Nat} (h : ∀ p < 32, k ≠ Reg.PROG_VALUE p) : t.reg k = s.reg k := by
  refine hr k fun hm => ?_
  obtain ⟨p, hp, rfl⟩ := List.mem_map.mp hm
  exact h p (List.mem_range.mp hp) rfl

theorem latestPoint_congr (p day minute : Nat) : t.latestPoint p day minute = s.latestPoint p day minute := by
  rw [latestPoint_eq, latestPoint_eq]
  refine foldl_of_agree _ fun b j hj => ?_
  have hj := List.mem_range.mp hj
  have e : t.reg (Reg.SWITCH_POINT p j) = s.reg (Reg.SWITCH_POINT p j) := reg_of_notValue hr fun q hq => by
    unfold Reg.SWITCH_POINT Reg.PROG_VALUE
    omega
  unfold State.pointStep State.pointTime
  rw [e]

theorem dayType_congr (day : Nat) : t.dayType day = s.dayType day := by
  have e (i : Nat) (h : i < 64) : t.reg (Reg.EXCEPTION_DATE i) = s.reg (Reg.EXCEPTION_DATE i) := reg_of_notValue hr fun q hq => by
    unfold Reg.EXCEPTION_DATE Reg.PROG_VALUE
    omega
  have hf : ((List.range 64).find? fun i => exceptionCovers (t.reg (Reg.EXCEPTION_DATE i)) day) =
      (List.range 64).find? fun i => exceptionCovers (s.reg (Reg.EXCEPTION_DATE i)) day :=
    find?_of_agree fun i hi => by rw [e i (List.mem_range.mp hi)]
  unfold State.dayType
  rw [hf]
  split
  · next i h => rw [e i (List.mem_range.mp (List.mem_of_find?_eq_some h))]
  · rfl

theorem progSearch_congr (p fuel day minute : Nat) : t.progSearch p fuel day minute = s.progSearch p fuel day minute := by
  induction fuel generalizing day minute with
  | zero =>
    unfold State.progSearch
    rw [dayType_congr hr, latestPoint_congr hr]
  | succ fuel ih =>
    unfold State.progSearch
    rw [dayType_congr hr, latestPoint_congr hr, ih]

include hc in
theorem progValueNow_congr (p : Nat) : t.progValueNow p = s.progValueNow p := by
  have e : t.reg (Reg.PROG_ENABLE p) = s.reg (Reg.PROG_ENABLE p) := reg_of_notValue hr fun q hq => by
    unfold Reg.PROG_ENABLE Reg.PROG_VALUE
    omega
  unfold State.progValueNow State.calSecond State.calTicks
  rw [e, hc]
  dsimp only
  rw [progSearch_congr hr]

end ReadsNoValue

theorem keyBits_progValue : ∀ p < 32, keyBits (Reg.PROG_VALUE p) = 8 := by decide

/-- The programs below `n` evaluated. -/
theorem evalValuesTo_reg {n p : Nat} (hn : n ≤ 32) (hp : p < n) :
    ((List.range n).foldl State.evalProgram s).reg (Reg.PROG_VALUE p) = (s.progValueNow p).getD 0xFF % 256 := by
  induction n with
  | zero => exact absurd hp (Nat.not_lt_zero p)
  | succ n ih =>
    rw [List.range_succ, List.foldl_append]
    have ho : OnlyIn [] progKeys s ((List.range n).foldl State.evalProgram s) := by
      refine OnlyIn.foldl_mem (fun u q hq hu => setReg_only _ _ _ ?_ hu) .refl
      have := List.mem_range.mp hq
      simpa [frameKey] using progValue_mem (p := q) (by omega)
    generalize (List.range n).foldl State.evalProgram s = t at ho ih ⊢
    show (t.setReg (Reg.PROG_VALUE n) ((t.progValueNow n).getD 0xFF)).reg (Reg.PROG_VALUE p) = _
    by_cases h : p = n
    · subst h
      have hv : t.progValueNow p = s.progValueNow p := progValueNow_congr (ho.entries (by decide)) (ho.pieces .rtc (by decide) (by decide)) p
      rw [State.reg_setReg_self, keyBits_progValue p (by omega)]
      exact congrArg (fun o : Option Nat => o.getD 0xFF % 256) hv
    · rw [State.reg_setReg_ne _ (by unfold Reg.PROG_VALUE; omega)]
      exact ih (by omega) (by omega)

theorem evalPrograms_value {p : Nat} (h : p < 32) : s.evalPrograms.reg (Reg.PROG_VALUE p) = (s.progValueNow p).getD 0xFF % 256 := by
  have e : s.evalPrograms.reg (Reg.PROG_VALUE p) = s.evalValues.reg (Reg.PROG_VALUE p) := State.reg_congr (by rw [evalPrograms_eq]) _
  unfold State.evalValues at e
  rw [e]
  exact evalValuesTo_reg (Nat.le_refl 32) h

/-! ### Zones -/

/-- The entries that bringing the zones up to date writes. -/
def zoneKeys : List Nat := (List.range 32).map Reg.ZONE_MODE ++ (List.range 32).map Reg.ZONE_STATUS

theorem updateZones_entries (s : State) : OnlyIn [.loop] zoneKeys s s.updateZones := by
  refine OnlyIn.foldl_mem (fun u z hz hu => ?_) .refl
  unfold State.updateZone
  refine setReg_only _ _ _ ?_ (setReg_only _ _ _ ?_ (setZoneRun_only _ _ _ (by simp [frameSub]) hu)) <;>
    simp only [frameKey, zoneKeys, List.contains_eq_mem, Bool.or_eq_true, decide_eq_true_eq, List.mem_append]
  · exact .inr (.inr (List.mem_map_of_mem hz))
  · exact .inr (.inl (List.mem_map_of_mem hz))

theorem updateZones_runs (s : State) : s.updateZones.loop.runs = s.loop.runs := by
  unfold State.updateZones
  generalize List.range 32 = l
  induction l generalizing s with
  | nil => rfl
  | cons z l ih =>
    rw [List.foldl_cons, ih]
    rfl

theorem zoneRun_setZoneRun_self {z : Nat} (h : z < s.loop.zones.length) (r : ZoneRun) : (s.setZoneRun z r).zoneRun z = r := getD_set_self h _ _

/-! ### The rules -/

/-- A zone whose override has just been written, and the programs evaluated. -/
def State.overridden (s : State) (n v : Nat) : State :=
  (s.setZoneRun n { s.zoneRun n with
    ends := if v = 0xFF ∨ s.reg (Reg.OVERRIDE_TIME n) = 0 then none else some (s.now + s.reg (Reg.OVERRIDE_TIME n) * 60 * clkSec) }).evalPrograms

theorem zoneOverrideRule_taken {n v : Nat} (h : inRange (Reg.ZONE_OVERRIDE n) v = true) : zoneOverrideRule n s v =
    andThen (s.putEntry (Reg.ZONE_OVERRIDE n) v) fun t => t.overridden n v := by
  unfold zoneOverrideRule State.overridden
  rw [plainRule_pos h]

theorem switchPointRule_range {p j v : Nat} (h : 23 < field v 19 5 ∨ 59 < field v 13 6 ∨ field v 2 11 ≠ 0) :
    switchPointRule p j s v = (.range, s) := if_pos h

theorem switchPointRule_taken {p j v : Nat} (h1 : field v 19 5 ≤ 23) (h2 : field v 13 6 ≤ 59) (h3 : field v 2 11 = 0) :
    switchPointRule p j s v = andThen (s.putEntry (Reg.SWITCH_POINT p j) v) State.evalPrograms := if_neg (by omega)

theorem exceptionDateRule_range {n v : Nat}
    (h : field v 19 4 = 0 ∨ 12 < field v 19 4 ∨ field v 9 5 = 0 ∨ 200 < field v 23 8 ∨ field v 0 6 ≠ 0) :
    exceptionDateRule n s v = (.range, s) := if_pos h

section Dates
variable {n v : Nat} (h1 : 1 ≤ field v 19 4) (h2 : field v 19 4 ≤ 12) (h3 : field v 9 5 ≠ 0) (h4 : field v 23 8 ≤ 200) (h5 : field v 0 6 = 0)
include h1 h2 h3 h4 h5

theorem exceptionDateRule_inRange : exceptionDateRule n s v =
    if field v 23 8 ≠ 0 ∧ field v 14 5 ≠ 0 ∧ dateExists (1999 + field v 23 8) (field v 19 4) (field v 14 5) = false then (.timeInvalid, s)
    else andThen (s.putEntry (Reg.EXCEPTION_DATE n) v) State.evalPrograms := if_neg (by omega)

theorem exceptionDateRule_noDate (hy : field v 23 8 ≠ 0) (hd : field v 14 5 ≠ 0)
    (h : dateExists (1999 + field v 23 8) (field v 19 4) (field v 14 5) = false) : exceptionDateRule n s v = (.timeInvalid, s) :=
  (exceptionDateRule_inRange h1 h2 h3 h4 h5).trans (if_pos ⟨hy, hd, h⟩)

theorem exceptionDateRule_taken
    (h : field v 23 8 = 0 ∨ field v 14 5 = 0 ∨ dateExists (1999 + field v 23 8) (field v 19 4) (field v 14 5) = true) :
    exceptionDateRule n s v = andThen (s.putEntry (Reg.EXCEPTION_DATE n) v) State.evalPrograms := by
  refine (exceptionDateRule_inRange h1 h2 h3 h4 h5).trans (if_neg ?_)
  rintro ⟨hy, hd, he⟩
  rcases h with h | h | h
  · exact hy h
  · exact hd h
  · exact nomatch h.symm.trans he

end Dates

/-- A write that puts its value and has the programs evaluated. -/
theorem TakesWith.evaluating {i : Instr} {w : Wr} {key : Nat} {rule : State → Nat → Status × State}
    (he : exec i s = .next (s.ledgerWrite w key rule)) (ha : s.accepts w key) (hs : s.stores key w.val)
    (hr : rule (s.taken (wrRequest w key)) w.val = andThen ((s.taken (wrRequest w key)).putEntry key w.val) State.evalPrograms)
    (hk : progKeys.contains key = false) :
    TakesWith i s w key [.loop] progKeys fun t => t.loop = { s.loop with lastMinute := t.loop.lastMinute } := by
  refine TakesWith.rule State.evalPrograms he ha hs hr evalPrograms_entries ⟨by decide, by decide, by decide, by decide, by decide, hk⟩ fun n k => ?_
  generalize hu : ({ s with nv := n, klp := (s.taken (wrRequest w key)).klp } : State).setReg key w.val = u
  have hul : u.loop = s.loop := by rw [← hu]; rfl
  obtain ⟨m, hm⟩ := evalPrograms_loop u
  show u.evalPrograms.loop = { s.loop with lastMinute := u.evalPrograms.loop.lastMinute }
  rw [hm, hul]

theorem progKeys_zoneOverride : ∀ n < 32, progKeys.contains (Reg.ZONE_OVERRIDE n) = false := by decide

theorem progKeys_switchPoint {p j : Nat} (hj : j < 16) : progKeys.contains (Reg.SWITCH_POINT p j) = false := by
  rw [← Bool.not_eq_true, List.contains_iff_mem]
  intro h
  obtain ⟨q, -, hq⟩ := List.mem_map.mp h
  unfold Reg.SWITCH_POINT Reg.PROG_VALUE at hq
  omega

theorem progKeys_exceptionDate : ∀ n < 64, progKeys.contains (Reg.EXCEPTION_DATE n) = false := by decide

/-! ### The fan-table engine takes its channels -/

/-- The engine takes or releases one channel. -/
def State.engineHold (s : State) (c : Nat) : State :=
  if s.engineWants c && !(s.engine c).held then
    (s.setEngine c { s.engine c with held := true, source := 3, cmd := (s.fan c).cmd, acc := 0 }).incSat Reg.TABLE_TAKEOVERS
  else if !s.engineWants c && (s.engine c).held then s.setEngine c { s.engine c with held := false, source := 3 } else s

theorem engineHolds_eq (s : State) : s.engineHolds = (s.engineHold 0).engineHold 1 := rfl

theorem engine_setEngine_self {c : Nat} (h : c < s.loop.engines.length) (e : Engine) : (s.setEngine c e).engine c = e := getD_set_self h _ _

theorem engine_setEngine_ne {c d : Nat} (h : d ≠ c) (e : Engine) : (s.setEngine c e).engine d = s.engine d := getD_set_ne h _ _

/-- Taking one channel leaves the other channel's engine, and all of the loop engine but the engines. -/
theorem engineHold_kept (s : State) (c : Nat) : (∃ l, l.length = s.loop.engines.length ∧ (s.engineHold c).loop = { s.loop with engines := l }) ∧
    (s.engineHold c).storm = s.storm ∧ ∀ d, d ≠ c → (s.engineHold c).engine d = s.engine d := by
  unfold State.engineHold
  split
  · exact ⟨⟨_, List.length_set, rfl⟩, rfl, fun d h => engine_setEngine_ne h _⟩
  · split
    · exact ⟨⟨_, List.length_set, rfl⟩, rfl, fun d h => engine_setEngine_ne h _⟩
    · exact ⟨⟨_, rfl, rfl⟩, rfl, fun _ _ => rfl⟩

theorem engineHold_held {c : Nat} (hc : c < s.loop.engines.length) (hw : s.engineWants c = true) : ((s.engineHold c).engine c).held = true := by
  unfold State.engineHold
  rw [hw]
  cases hh : (s.engine c).held
  · exact congrArg Engine.held (engine_setEngine_self hc _)
  · exact hh

theorem engineWants_of {l : List Engine} (h : t.loop = { s.loop with engines := l }) (hs : t.storm = s.storm) (c : Nat) :
    t.engineWants c = s.engineWants c := by
  unfold State.engineWants State.tableTake
  rw [h, hs]

theorem engineHolds_held {c : Nat} (h2 : c < 2) (hc : c < s.loop.engines.length) (hw : s.engineWants c = true) :
    (s.engineHolds.engine c).held = true := by
  obtain ⟨⟨l, hl, hloop⟩, hs, -⟩ := engineHold_kept s 0
  rw [engineHolds_eq]
  have h01 : c = 0 ∨ c = 1 := by omega
  rcases h01 with rfl | rfl
  · rw [(engineHold_kept (s.engineHold 0) 1).2.2 0 (by decide)]
    exact engineHold_held hc hw
  · exact engineHold_held (by rw [hloop]; exact hl ▸ hc) ((engineWants_of hloop hs 1).trans hw)

theorem engineHolds_loop (s : State) : ∃ l, s.engineHolds.loop = { s.loop with engines := l } := by
  obtain ⟨⟨l, -, h⟩, -⟩ := engineHold_kept s 0
  obtain ⟨⟨m, -, h1⟩, -⟩ := engineHold_kept (s.engineHold 0) 1
  exact ⟨m, by rw [engineHolds_eq, h1, h]⟩

/-! ### The master falls silent -/

theorem autoReasonNow_silent {t0 : Nat} (hm : s.reg Reg.MASTER_SOURCE ≠ 0) (hseen : s.loop.seenMaster = true)
    (ho : s.hm.owner.isSome = true ∨ s.pwr.owned = true) (hb : s.klp.masterHb = some t0)
    (hlt : t0 + s.reg Reg.AUTO_TIMEOUT * clkSec < s.now) : s.autoReasonNow = 1 := by
  have h1 : (s.hm.owner.isNone && !s.pwr.owned) = false := by
    rcases ho with h | h
    · cases hx : s.hm.owner with
      | none => rw [hx] at h; exact nomatch h
      | some q => rfl
    · rw [h]; simp
  unfold State.autoReasonNow
  dsimp only
  rw [if_neg (by rw [h1]; decide), if_neg (by rw [hseen]; simp), hb, if_pos ⟨hm, decide_eq_true hlt⟩]

/-- AUTONOMOUS entered with reason 1, before its record. -/
def State.silent (s : State) : State := { s with loop := { s.loop with autonomous := true, autoReason := 1 } }

theorem exec_masterSilentExpiry {t0 : Nat} (hs : s.storm = false) (ha : s.loop.autonomous = false) (hm : s.reg Reg.MASTER_SOURCE ≠ 0)
    (hseen : s.loop.seenMaster = true) (ho : s.hm.owner.isSome = true ∨ s.pwr.owned = true) (hb : s.klp.masterHb = some t0)
    (hlt : t0 + s.reg Reg.AUTO_TIMEOUT * clkSec < s.now) :
    exec .masterSilentExpiry s = .next (s.silent.pushLog Lt.AUTO_ENTER [1]).engineHolds := by
  have hr := autoReasonNow_silent hm hseen ho hb hlt
  refine congrArg Host.Outcome.next ?_
  unfold State.noteAutonomous State.enterAutonomous
  rw [if_pos (by rw [hr]; decide), if_pos (by rw [hr]; decide), if_neg (by rw [hs, ha]; decide), hr]
  rfl

theorem masterSilentExpiry_holds {t0 : Nat} (hs : s.storm = false) (ha : s.loop.autonomous = false) (hm : s.reg Reg.MASTER_SOURCE ≠ 0)
    (hseen : s.loop.seenMaster = true) (ho : s.hm.owner.isSome = true ∨ s.pwr.owned = true) (hb : s.klp.masterHb = some t0)
    (hlt : t0 + s.reg Reg.AUTO_TIMEOUT * clkSec < s.now) : Does .masterSilentExpiry s [.log, .loop] [Reg.TABLE_TAKEOVERS] fun t =>
      t.loop.autonomous = true ∧ t.loop.autoReason = 1 ∧
        (∀ c, c < 2 → c < s.loop.engines.length → (s.tableTake c = true ∨ s.loop.defaultTable = true) → (t.engine c).held = true) ∧
        (s.log.queue.length < 256 → ∃ r, t.log.queue = s.log.queue ++ [r] ∧ r.typ = Lt.AUTO_ENTER ∧ r.payload = [1]) := by
  refine Does.of_only (execMasterSilentExpiry_only s (by decide) .refl) (exec_masterSilentExpiry hs ha hm hseen ho hb hlt) ?_
  have hp : OnlyIn [.log] [] s.silent (s.silent.pushLog Lt.AUTO_ENTER [1]) := pushLog_only _ _ _ (by decide) .refl
  have hq := fun h => congrArg Log.queue (pushLog_queue (s := s.silent) h Lt.AUTO_ENTER [1])
  generalize s.silent.pushLog Lt.AUTO_ENTER [1] = u at hp hq
  have hu : u.loop = s.silent.loop := hp.pieces .loop (by decide) (by decide)
  have he : OnlyIn [.loop] [Reg.TABLE_TAKEOVERS] u u.engineHolds := engineHolds_only _ (by decide) .refl
  have hlog : u.engineHolds.log = u.log := he.pieces .log (by decide) (by decide)
  obtain ⟨l, hl⟩ := engineHolds_loop u
  refine ⟨by rw [hl, hu]; rfl, by rw [hl, hu]; rfl, fun c h2 hc hw => ?_, fun h => ⟨_, by rw [hlog]; exact hq h, rfl, rfl⟩⟩
  refine engineHolds_held h2 (by rw [hu]; exact hc) ?_
  have hw' : (s.tableTake c || s.loop.defaultTable) = true := Bool.or_eq_true_iff.mpr hw
  unfold State.engineWants State.tableTake
  rw [hu, Bool.or_eq_true]
  exact .inr hw'

theorem overridden_zone {n : Nat} (hz : n < s.loop.zones.length) (v : Nat) : ((s.overridden n v).zoneRun n).ends =
    (if v = 0xFF ∨ s.reg (Reg.OVERRIDE_TIME n) = 0 then none else some (s.now + s.reg (Reg.OVERRIDE_TIME n) * 60 * clkSec)) ∧
    (s.overridden n v).loop.runs = s.loop.runs := by
  unfold State.overridden
  generalize hu : s.setZoneRun n { s.zoneRun n with
    ends := if v = 0xFF ∨ s.reg (Reg.OVERRIDE_TIME n) = 0 then none else some (s.now + s.reg (Reg.OVERRIDE_TIME n) * 60 * clkSec) } = u
  obtain ⟨m, hm⟩ := evalPrograms_loop u
  have hz2 : u.evalPrograms.zoneRun n = u.zoneRun n := by
    unfold State.zoneRun
    rw [hm]
  refine ⟨?_, ?_⟩
  · rw [hz2, ← hu, zoneRun_setZoneRun_self hz]
  · rw [hm, ← hu]
    rfl

/-- What is said of a zone does not depend on the ledger engine. -/
theorem zoneEnds_withKlp {n : Nat} {k : Klp} {e : Option Nat} {l : List LoopRun} (h : (s.zoneRun n).ends = e ∧ s.loop.runs = l) :
    (({ s with klp := k } : State).zoneRun n).ends = e ∧ ({ s with klp := k } : State).loop.runs = l := h

theorem zoneOverrideWrite_holds {n : Nat} {w : Wr} (hn : n < 32) (hz : n < s.loop.zones.length) (ha : s.accepts w (Reg.ZONE_OVERRIDE n))
    (hv : inRange (Reg.ZONE_OVERRIDE n) w.val = true) (hs : s.stores (Reg.ZONE_OVERRIDE n) w.val) :
    TakesWith (.zoneOverrideWrite n w) s w (Reg.ZONE_OVERRIDE n) [.loop] progKeys fun t =>
       (t.zoneRun n).ends = (if w.val = 0xFF ∨ s.reg (Reg.OVERRIDE_TIME n) = 0 then none
         else some (s.now + s.reg (Reg.OVERRIDE_TIME n) * 60 * clkSec)) ∧ t.loop.runs = s.loop.runs := by
  refine TakesWith.rule (fun t => t.overridden n w.val) rfl ha hs (zoneOverrideRule_taken (s := s.taken _) hv) (fun u => ?_)
    ⟨by decide, by decide, by decide, by decide, by decide, progKeys_zoneOverride n hn⟩ fun m k => ?_
  · have hf : OnlyIn [.loop] progKeys u (u.setZoneRun n { u.zoneRun n with
        ends := if w.val = 0xFF ∨ u.reg (Reg.OVERRIDE_TIME n) = 0 then none else some (u.now + u.reg (Reg.OVERRIDE_TIME n) * 60 * clkSec) }) :=
      setZoneRun_only _ _ _ (by simp [frameSub]) .refl
    unfold State.overridden
    exact hf.trans (evalPrograms_entries _)
  · generalize hu : ({ s with nv := m, klp := (s.taken (wrRequest w (Reg.ZONE_OVERRIDE n))).klp } : State).setReg (Reg.ZONE_OVERRIDE n) w.val = u
    have hloop : u.loop = s.loop := by rw [← hu]; rfl
    have hnow : u.now = s.now := by rw [← hu]; rfl
    have ht : u.reg (Reg.OVERRIDE_TIME n) = s.reg (Reg.OVERRIDE_TIME n) := by
      rw [← hu]
      exact State.reg_setReg_ne _ (by unfold Reg.OVERRIDE_TIME Reg.ZONE_OVERRIDE; omega)
    have h := overridden_zone (s := u) (by rwa [hloop]) w.val
    rw [hnow, ht, hloop] at h
    exact zoneEnds_withKlp h

theorem progValue_notMem_zoneKeys : ∀ p < 32, Reg.PROG_VALUE p ∉ zoneKeys := by decide

theorem programEvaluation_holds (ho : s.hm.owner.isSome = true) : Does .programEvaluation s [.loop]
     ((List.range 32).map Reg.PROG_VALUE ++ (List.range 32).map Reg.ZONE_MODE ++ (List.range 32).map Reg.ZONE_STATUS) fun t =>
       (∀ p, p < 32 → t.reg (Reg.PROG_VALUE p) = (s.progValueNow p).getD 0xFF % 256) ∧ t.loop.runs = s.loop.runs := by
  have h1 := evalPrograms_entries s
  have h2 := updateZones_entries s.evalPrograms
  refine ⟨_, congrArg Host.Outcome.next (if_pos ho), ?_, fun p hp => ?_, ?_⟩
  · rw [List.append_assoc]
    exact (h1.mono (frameSub_of_subset (fun _ h => h) fun _ h => List.mem_append_left _ h)).trans
      (h2.mono (frameSub_of_subset (fun _ h => h) fun _ h => List.mem_append_right _ h))
  · rw [h2.entries (by decide) _ (progValue_notMem_zoneKeys p hp), evalPrograms_value hp]
  · obtain ⟨m, hm⟩ := evalPrograms_loop s
    rw [updateZones_runs, hm]

/-- Settles O41: the zones' events, the two rules that have the programs evaluated, and the silent master. -/
theorem zonesAndPrograms : Obligations.ZonesAndPrograms := by
  refine ⟨⟨fun n s w hn hz ha hv hs => ?_, fun n t0 s hz h0 hle => ?_, fun n s hz hh hp => ?_, fun p j s w hp hj ha => ⟨fun h => ?_, fun h1 h2 h3 hs => ?_⟩,
    fun n s w hn ha => ⟨fun h => ?_, fun h1 h2 h3 h4 h5 => ⟨fun hy hd h => ?_, fun h hs => ?_⟩⟩, fun s ho => ?_⟩,
    fun t0 s hs ha hm hseen ho hb hlt => masterSilentExpiry_holds hs ha hm hseen ho hb hlt⟩
  · exact zoneOverrideWrite_holds hn hz ha hv hs
  · have he : exec (.overrideExpiry n) s = .next ((s.setZoneRun n { s.zoneRun n with ends := none }).setReg (Reg.ZONE_OVERRIDE n) 0xFF) := by
      refine congrArg Host.Outcome.next ?_
      rw [h0]
      exact if_pos hle
    exact ⟨_, he, setReg_only _ _ _ (by simp [frameKey]) (setZoneRun_only _ _ _ (by simp [frameSub]) .refl),
      State.reg_setReg_self _ _ _, zoneRun_setZoneRun_self hz _⟩
  · exact ⟨_, congrArg Host.Outcome.next (if_pos (by rw [hh, hp]; rfl)), setZoneRun_only _ _ _ (by decide) .refl, zoneRun_setZoneRun_self hz _, rfl⟩
  · exact Refuses.rule rfl ha (switchPointRule_range (s := s.taken _) h)
  · exact TakesWith.evaluating rfl ha hs (switchPointRule_taken (s := s.taken _) h1 h2 h3) (progKeys_switchPoint hj)
  · exact Refuses.rule rfl ha (exceptionDateRule_range (s := s.taken _) h)
  · exact Refuses.rule rfl ha (exceptionDateRule_noDate (s := s.taken _) h1 h2 h3 h4 h5 hy hd h)
  · exact TakesWith.evaluating rfl ha hs (exceptionDateRule_taken (s := s.taken _) h1 h2 h3 h4 h5 h) (progKeys_exceptionDate n hn)
  · exact programEvaluation_holds ho

end Sys2Proof.Machine
end

section
/-!
PROOF. The end of a conversion and continuous rounds (R332, R333, R336, R338).
-/
namespace Sys2Proof.Machine

variable {s t : State} {ch : Nat}

/-! ### The entries of a channel -/

theorem adcChannel_lt (h : isAdcChannel ch = true) : ch < 45 := by
  unfold isAdcChannel within at h
  simp only [Bool.or_eq_true, Bool.and_eq_true, decide_eq_true_eq] at h
  omega

theorem keyBits_aiKey (h : isAdcChannel ch = true) : keyBits (aiKey ch 0x0B) = 16 ∧ keyBits (aiKey ch 0x0C) = 32 ∧
    keyBits (aiKey ch 0x0D) = 8 ∧ keyBits (aiKey ch 0x0E) = 64 := by
  have hall : ∀ ch < 45, isAdcChannel ch = true → keyBits (aiKey ch 0x0B) = 16 ∧ keyBits (aiKey ch 0x0C) = 32 ∧
      keyBits (aiKey ch 0x0D) = 8 ∧ keyBits (aiKey ch 0x0E) = 64 := by decide
  exact hall ch (adcChannel_lt h) h

theorem aiKey_ne {a b : Nat} (h : a ≠ b) : aiKey ch a ≠ aiKey ch b := by
  unfold aiKey
  split <;> omega

theorem aiKey_ge (sub : Nat) : 0x1B1000 ≤ aiKey ch sub := by
  unfold aiKey
  split <;> omega

/-- Bit 0 of a sum whose other terms are even. -/
theorem bitAt_b2n_add (b : Bool) (m : Nat) : bitAt (b2n b + 2 * m) 0 = b := by
  unfold bitAt b2n
  cases b <;> simp

theorem toSigned_ofSigned {v : Int} (h : withinI (-2147483648) 2147483647 v = true) : toSigned 32 (ofSigned 32 v) = v := by
  unfold withinI at h
  simp only [Bool.and_eq_true, decide_eq_true_eq] at h
  obtain ⟨h1, h2⟩ := h
  unfold toSigned ofSigned
  split <;> omega

/-! ### What an entry stores -/

/-- The entries of a result. -/
def State.adcStored (s : State) (ch code flags : Nat) (value : Int) : State :=
  ((((s.vinResult ch value).setReg (aiKey ch 0x0B) code).setReg (aiKey ch 0x0C) (s.fitI32 value)).setReg (aiKey ch 0x0D) flags).setReg
    (aiKey ch 0x0E) s.now

section Stored
variable (code flags : Nat) (value : Int)

theorem adcStored_code : (s.adcStored ch code flags value).reg (aiKey ch 0x0B) = code % 2 ^ keyBits (aiKey ch 0x0B) := by
  unfold State.adcStored
  rw [State.reg_setReg_ne _ (aiKey_ne (by decide)), State.reg_setReg_ne _ (aiKey_ne (by decide)), State.reg_setReg_ne _ (aiKey_ne (by decide)),
    State.reg_setReg_self]

theorem adcStored_value : (s.adcStored ch code flags value).reg (aiKey ch 0x0C) = s.fitI32 value % 2 ^ keyBits (aiKey ch 0x0C) := by
  unfold State.adcStored
  rw [State.reg_setReg_ne _ (aiKey_ne (by decide)), State.reg_setReg_ne _ (aiKey_ne (by decide)), State.reg_setReg_self]

theorem adcStored_flags : (s.adcStored ch code flags value).reg (aiKey ch 0x0D) = flags % 2 ^ keyBits (aiKey ch 0x0D) := by
  unfold State.adcStored
  rw [State.reg_setReg_ne _ (aiKey_ne (by decide)), State.reg_setReg_self]

theorem adcStored_time : (s.adcStored ch code flags value).reg (aiKey ch 0x0E) = s.now % 2 ^ keyBits (aiKey ch 0x0E) := State.reg_setReg_self _ _ _

/-- The entries that a result writes. -/
def adcKeys (ch : Nat) : List Nat :=
  [aiKey ch 0x0B, aiKey ch 0x0C, aiKey ch 0x0D, aiKey ch 0x0E, Reg.VIN_A_MV, Reg.VIN_B_MV, Reg.VHOLD_MV]

theorem vinResult_entries (v : Int) : OnlyIn [] (adcKeys ch) s (s.vinResult ch v) := by
  unfold State.vinResult
  split
  · next h =>
    refine setReg_only _ _ _ ?_ .refl
    unfold within at h
    simp only [Bool.and_eq_true, decide_eq_true_eq] at h
    have : ch = 33 ∨ ch = 34 ∨ ch = 35 := by omega
    rcases this with rfl | rfl | rfl <;> decide
  · exact .refl

theorem adcStored_entries : OnlyIn [] (adcKeys ch) s (s.adcStored ch code flags value) := by
  unfold State.adcStored
  refine setReg_only _ _ _ ?_ (setReg_only _ _ _ ?_ (setReg_only _ _ _ ?_ (setReg_only _ _ _ ?_ (vinResult_entries value)))) <;>
    simp [frameKey, adcKeys]

end Stored

/-- The code of an entry: the mean, or over range the clamp code. -/
def State.entryCode (s : State) (sum : Nat) (ovr : Bool) : Nat :=
  if ovr then (if sum = 0 then 0 else 0xFFFF) else rdivN sum (2 ^ s.sens.cfg.avg)

/-- The entries of a result, with an over-range conversion counted. -/
def State.adcCounted (s : State) (ch code flags : Nat) (value : Int) (ovr : Bool) : State :=
  if ovr then (s.adcStored ch code flags value).incSat Reg.OVR_EVENTS else s.adcStored ch code flags value

/-- The channels that went over range, after an entry. -/
def nextOvr (l : List Nat) (ch : Nat) (ovr : Bool) : List Nat :=
  if ovr then l.filter (fun k => k != ch) ++ [ch] else l.filter fun k => k != ch

theorem mem_nextOvr (l : List Nat) (ovr : Bool) : ch ∈ nextOvr l ch ovr ↔ ovr = true := by
  unfold nextOvr
  cases ovr <;> simp

/-- The entry in progress ended: its results, the over-range count and what the next entry knows of it. -/
theorem adcResult_stored (sum : Nat) (ovr urgent : Bool) : ∃ m x, s.adcResult ch sum ovr urgent =
      ((s.adcCounted ch (s.entryCode sum ovr) (b2n ovr + 2 * m) (s.sens.cfg.value ch (s.entryCode sum ovr)) ovr).withSens x).tickFree ∧
      x.prevOvr = nextOvr s.sens.prevOvr ch ovr := by
  unfold State.adcResult
  extract_lets c code nbr flags value s1 s2 rest x s3
  have hf : flags = b2n ovr + 2 * (b2n nbr + 2 * b2n (ovr && code == 0) + 4 * b2n s.sens.precal + 16 * b2n urgent) := by
    unfold flags
    omega
  refine ⟨b2n nbr + 2 * b2n (ovr && code == 0) + 4 * b2n s.sens.precal + 16 * b2n urgent, s3.sens, ?_, rfl⟩
  rw [← hf]
  rfl

section Counted
variable {code flags : Nat} {value : Int} {ovr : Bool}

theorem adcCounted_reg {k : Nat} (h : k ≠ Reg.OVR_EVENTS) :
    (s.adcCounted ch code flags value ovr).reg k = (s.adcStored ch code flags value).reg k := by
  unfold State.adcCounted
  split
  · exact State.reg_setReg_ne _ h
  · rfl

theorem adcCounted_events : (s.adcCounted ch code flags value true).reg Reg.OVR_EVENTS = satInc 32 (s.reg Reg.OVR_EVENTS) := by
  have hk : Reg.OVR_EVENTS ∉ adcKeys ch := by
    have h (sub : Nat) : Reg.OVR_EVENTS ≠ aiKey ch sub := by
      have := aiKey_ge (ch := ch) sub
      unfold Reg.OVR_EVENTS
      omega
    simp only [adcKeys, List.mem_cons, h, false_or, List.not_mem_nil, or_false]
    decide
  refine (State.reg_incSat _ Reg.OVR_EVENTS).trans ?_
  rw [(adcStored_entries code flags value).entries (by decide) _ hk]
  rfl

theorem adcCounted_entries : OnlyIn [] (adcKeys ch ++ if ovr then [Reg.OVR_EVENTS] else []) s (s.adcCounted ch code flags value ovr) := by
  have h := (adcStored_entries (s := s) (ch := ch) code flags value)
  unfold State.adcCounted
  cases ovr
  · exact h.mono (frameSub_of_subset (fun _ h => h) fun _ h => List.mem_append_left _ h)
  · refine incSat_only _ _ (by simp [frameKey]) (h.mono (frameSub_of_subset (fun _ h => h) fun _ h => List.mem_append_left _ h))

end Counted

/-! ### The converter goes on -/

theorem adcFree_prevOvr (s : State) : s.adcFree.sens.prevOvr = s.sens.prevOvr := by
  unfold State.adcFree
  split
  · rfl
  · split <;> rfl

theorem afterEntry_prevOvr (s : State) (ch : Nat) : (s.afterEntry ch).sens.prevOvr = s.sens.prevOvr := by
  unfold State.afterEntry
  split
  · split <;> rfl
  · exact adcFree_prevOvr s

/-- The end of an entry of a round. -/
theorem adcEntryEnd_holds (hc : isAdcChannel ch = true) (h : s.sens.adc = .round ch) (sum : Nat) (ovr : Bool) :
    Does (.adcEntryEnd ch sum ovr) s [.sens, .freeCtr] (adcKeys ch ++ if ovr then [Reg.OVR_EVENTS] else []) fun t =>
      t.reg (aiKey ch 0x0B) = s.entryCode sum ovr % 2 ^ 16 ∧ t.reg (aiKey ch 0x0E) = s.now % 2 ^ 64 ∧
        t.regBit (aiKey ch 0x0D) 0 = ovr ∧ (ch ∈ t.sens.prevOvr ↔ ovr = true) ∧
        (withinI (-2147483648) 2147483647 (s.sens.cfg.value ch (s.entryCode sum ovr)) = true →
          t.regI (aiKey ch 0x0C) = s.sens.cfg.value ch (s.entryCode sum ovr)) ∧
        (ovr = true → t.reg Reg.OVR_EVENTS = satInc 32 (s.reg Reg.OVR_EVENTS)) := by
  obtain ⟨hb, hv, hf, ht⟩ := keyBits_aiKey hc
  obtain ⟨m, x, hr, hx⟩ := adcResult_stored (s := s) (ch := ch) sum ovr false
  generalize hcode : s.entryCode sum ovr = code at hr ⊢
  generalize hu : s.adcResult ch sum ovr false = u at hr
  have he : exec (.adcEntryEnd ch sum ovr) s = .next (u.afterEntry ch) := by
    refine congrArg Host.Outcome.next ?_
    rw [h]
    exact (if_pos rfl).trans (by rw [hu])
  have ho : OnlyIn [.sens] [] u (u.afterEntry ch) := afterEntry_only _ _ (by decide) .refl
  have hn (sub : Nat) : aiKey ch sub ≠ Reg.OVR_EVENTS := by
    have := aiKey_ge (ch := ch) sub
    unfold Reg.OVR_EVENTS
    omega
  have hreg (k : Nat) : (u.afterEntry ch).reg k = (s.adcCounted ch code (b2n ovr + 2 * m) (s.sens.cfg.value ch code) ovr).reg k := by
    rw [ho.entries (by decide) k List.not_mem_nil, hr]
    rfl
  refine ⟨_, he, ?_, ?_, ?_, ?_, ?_, fun hw => ?_, fun ho => ?_⟩
  · refine OnlyIn.trans (s := u) ?_ (ho.mono (frameSub_of_subset (by simp) (by simp)))
    rw [hr]
    refine tickFree_only _ (by simp [frameSub]) (withSens_only _ _ (by simp [frameSub]) ?_)
    exact adcCounted_entries.mono (frameSub_of_subset (by simp) fun _ h => h)
  · rw [hreg, adcCounted_reg (hn _), adcStored_code, hb]
  · rw [hreg, adcCounted_reg (hn _), adcStored_time, ht]
  · unfold State.regBit
    rw [hreg, adcCounted_reg (hn _), adcStored_flags, hf, bitAt_mod_pow (by decide), bitAt_b2n_add]
  · rw [afterEntry_prevOvr, hr]
    show ch ∈ x.prevOvr ↔ _
    rw [hx]
    exact mem_nextOvr _ _
  · unfold State.regI
    rw [hreg, adcCounted_reg (hn _), adcStored_value, hv]
    unfold State.fitI32
    rw [if_pos hw, Nat.mod_eq_of_lt (ofSigned_lt 32 _), toSigned_ofSigned hw]
  · rw [hreg, ho]
    exact adcCounted_events

/-- Settles O42: an entry stores its results before the converter goes on. -/
theorem adcEntries : Obligations.AdcEntries := by
  refine ⟨fun ch sum s hc h => ⟨?_, ?_⟩, fun s h0 hi hr => ?_⟩
  · obtain ⟨t, he, ho, h1, h2, h3, h4, h5, -⟩ := adcEntryEnd_holds hc h sum false
    exact ⟨t, he, ho, h1, h2, h3, (fun hm => nomatch h4.mp hm), h5⟩
  · obtain ⟨t, he, ho, h1, -, h3, h4, -, h6⟩ := adcEntryEnd_holds hc h sum true
    refine ⟨t, he, ho, ?_, h3, h4.mpr rfl, h6 rfl⟩
    rw [h1]
    show (if sum = 0 then 0 else 0xFFFF) % 2 ^ 16 = _
    split <;> rfl
  · exact ⟨_, congrArg Host.Outcome.next (if_pos ⟨h0, hi, hr⟩), startRound_only _ (by decide) .refl, rfl, rfl, rfl⟩

end Sys2Proof.Machine
end

section
/-!
PROOF. Writes to the slow ADC and its self-calibration (R162, R336, R337, R340 to R342).
-/
namespace Sys2Proof.Machine

variable {s t : State}

/-- A write whose rule does `t` and answers a status, whatever the status. -/
theorem Does.answering {i : Instr} {w : Wr} {key : Nat} {st : Status} {l : List Piece} {ks : List Nat} {p : State → Prop}
    {rule : State → Nat → Status × State} (t : State) (he : exec i s = .next (s.ledgerWrite w key rule)) (ha : s.accepts w key)
    (hr : rule (s.taken (wrRequest w key)) w.val = (st, t)) (hf : OnlyIn l ks (s.taken (wrRequest w key)) t)
    (hl : l.contains .klp = false ∧ l.contains .tide = false) (hp : ∀ k, p { t with klp := k }) :
    Does i s (.klp :: l) ks fun t => p t ∧ t.klp = (s.answered (wrRequest w key) st []).klp := by
  have nk : t.klp = (s.taken (wrRequest w key)).klp := hf.pieces .klp (by decide) (by simpa using hl.1)
  have nt : t.tide = (s.taken (wrRequest w key)).tide := hf.pieces .tide (by decide) (by simpa using hl.2)
  refine ⟨t.answer (wrRequest w key) st [], ?_, ?_, ?_, ?_⟩
  · rw [he, ledgerWrite_accepted ha, hr]
  · refine answer_only _ _ _ _ (by simp [frameSub]) ?_
    refine OnlyIn.trans (s := s.taken (wrRequest w key)) ?_ (hf.mono (frameSub_of_subset (fun p h => by simp [h]) fun k h => h))
    exact touch_only _ _ (by simp [frameSub]) (dequeue_only _ _ (by simp [frameSub]) .refl)
  · rw [answer_eq]
    exact hp _
  · exact answer_klp (t := t) (u := s.taken (wrRequest w key)) _ _ _ nk nt

/-! ### Urgent requests -/

theorem urgentRule_range {v : Nat} (h : field v 12 4 ≠ 0 ∨ 4 < field v 8 4 ∨ s.aiOn (v % 256) = false) : urgentRule s v = (.range, s) :=
  if_pos h

section Urgent
variable {v : Nat} (h1 : field v 12 4 = 0) (h2 : field v 8 4 ≤ 4) (h3 : s.aiOn (v % 256) = true)
include h1 h2 h3

theorem urgentRule_passes : ¬(field v 12 4 ≠ 0 ∨ 4 < field v 8 4 ∨ s.aiOn (v % 256) = false) := by
  rw [not_or, not_or, h3]
  exact ⟨fun h => h h1, Nat.not_lt.mpr h2, by decide⟩

theorem urgentRule_dropped (h : s.sens.adc ≠ .idle ∨ s.reg Reg.SEQ_PERIOD = 0) : urgentRule s v = (.dropped, s.incSat Reg.URGENT_DROPS) :=
  (if_neg (urgentRule_passes h1 h2 h3)).trans (if_pos h)

theorem urgentRule_taken (ha : s.sens.adc = .idle) (hp : s.reg Reg.SEQ_PERIOD ≠ 0) : urgentRule s v =
    andThen (s.putEntry Reg.URGENT_REQUEST v) fun t => t.withSens { t.sens with
      adc := .urgent (v % 256), urgentAvg := field v 8 4, cfg := t.adcCfg (v % 256) (some (field v 8 4)), nbr := false } :=
  (if_neg (urgentRule_passes h1 h2 h3)).trans (if_neg fun h => h.elim (fun h => h ha) fun h => hp h)

end Urgent

/-! ### The self-calibration -/

theorem adcCalRule_busy (h : (s.sens.calDue = true ∧ (∀ x, s.sens.adc ≠ .selfCal x)) ∨ ∃ x, s.sens.adc = .selfCal x) (v : Nat) :
    adcCalRule s v = (.busy, s) := by
  unfold adcCalRule
  extract_lets running
  refine if_pos ?_
  unfold running
  rcases h with ⟨hd, hx⟩ | ⟨x, hx⟩
  · split
    · next x h => exact absurd h (hx x)
    · exact hd
  · rw [hx]

theorem adcCalRule_idle (hd : s.sens.calDue = false) (h : s.sens.adc = .idle) :
    adcCalRule s 1 = (.ok, s.withSens { s.sens with adc := .selfCal none }) := by
  unfold adcCalRule
  rw [h]
  dsimp only
  rw [hd]
  rfl

theorem adcCalRule_round {k : Nat} (hd : s.sens.calDue = false) (h : s.sens.adc = .round k) :
    adcCalRule s 1 = (.ok, s.withSens { s.sens with calDue := true }) := by
  unfold adcCalRule
  rw [h]
  dsimp only
  rw [hd]
  rfl

/-- What is said of the sensing part at the end of a self-calibration holds on as the converter goes on. -/
theorem adcFree_flags (s : State) : s.adcFree.sens.precal = s.sens.precal ∧ s.adcFree.sens.factorsHost = s.sens.factorsHost ∧
    s.adcFree.sens.calDiscarded = s.sens.calDiscarded := by
  unfold State.adcFree
  split
  · exact ⟨rfl, rfl, rfl⟩
  · split <;> exact ⟨rfl, rfl, rfl⟩

/-! ### The factors -/

/-- Signed entries set one after the other leave every other entry. -/
theorem foldSet_other {key : Nat → Nat} {k : Nat} (l : List (Nat × Int)) (h : ∀ p ∈ l, k ≠ key p.1) :
    (l.foldl (fun t p => t.setRegI (key p.1) p.2) s).reg k = s.reg k := by
  induction l generalizing s with
  | nil => rfl
  | cons p l ih =>
    rw [List.foldl_cons, ih fun q hq => h q (List.mem_cons_of_mem _ hq)]
    exact State.reg_setReg_ne _ (h p List.mem_cons_self)

/-- Each of them holds its own value, where no key occurs twice. -/
theorem foldSet_self {key : Nat → Nat} (hk : ∀ i j, key i = key j → i = j) {l : List (Nat × Int)} (hn : (l.map Prod.fst).Nodup)
    {i : Nat} {v : Int} (h : (i, v) ∈ l) :
    (l.foldl (fun t p => t.setRegI (key p.1) p.2) s).reg (key i) = ofSigned (keyBits (key i)) v := by
  induction l generalizing s with
  | nil => exact nomatch h
  | cons p l ih =>
    rw [List.map_cons, List.nodup_cons] at hn
    rw [List.foldl_cons]
    rcases List.mem_cons.mp h with rfl | h
    · rw [foldSet_other l fun q hq he => hn.1 (by
        show i ∈ l.map Prod.fst
        rw [hk _ _ he]
        exact List.mem_map_of_mem hq)]
      exact State.reg_setRegI _ _
    · exact ih hn.2 h

theorem mem_zip_range {l : List Int} (h : l.length = 6) {i : Nat} (hi : i < 6) : (i, l.getD i 0) ∈ (List.range 6).zip l := by
  have hl : i < l.length := by omega
  refine List.mem_iff_getElem.mpr ⟨i, by rw [List.length_zip, List.length_range, h]; exact hi, ?_⟩
  simp [List.getD_eq_getElem?_getD, hl]

theorem nodup_zip_range {l : List Int} (h : l.length = 6) : (((List.range 6).zip l).map Prod.fst).Nodup := by
  rw [List.map_fst_zip (Nat.le_of_eq (by rw [List.length_range, h]))]
  exact List.nodup_range

theorem mem_zip_lt {l : List Int} {p : Nat × Int} (h : p ∈ (List.range 6).zip l) : p.1 < 6 := List.mem_range.mp (List.of_mem_zip h).1

theorem keyBits_factor : ∀ i < 6, keyBits (Reg.ADC_GAIN i) = 32 ∧ keyBits (Reg.ADC_OFFSET i) = 32 := by decide

/-- The entries of the factors. -/
def factorKeys : List Nat := (List.range 6).map Reg.ADC_GAIN ++ (List.range 6).map Reg.ADC_OFFSET

theorem setFactors_entries (gains offsets : List Int) : OnlyIn [] factorKeys s (s.setFactors gains offsets) := by
  unfold State.setFactors
  refine OnlyIn.foldl_mem (fun u p hp hu => setReg_only _ _ _ ?_ hu) (OnlyIn.foldl_mem (fun u p hp hu => setReg_only _ _ _ ?_ hu) .refl) <;>
    have hm := List.mem_range.mpr (mem_zip_lt hp) <;>
    simp only [frameKey, factorKeys, List.contains_eq_mem, Bool.or_eq_true, decide_eq_true_eq, List.mem_append]
  · exact .inr (.inr (List.mem_map_of_mem hm))
  · exact .inr (.inl (List.mem_map_of_mem hm))

theorem setFactors_reg {gains offsets : List Int} (hg : gains.length = 6) (ho : offsets.length = 6) {i : Nat} (hi : i < 6) :
    (s.setFactors gains offsets).reg (Reg.ADC_GAIN i) = ofSigned 32 (gains.getD i 0) ∧
      (s.setFactors gains offsets).reg (Reg.ADC_OFFSET i) = ofSigned 32 (offsets.getD i 0) := by
  obtain ⟨k1, k2⟩ := keyBits_factor i hi
  unfold State.setFactors
  refine ⟨?_, ?_⟩
  · rw [foldSet_other (key := Reg.ADC_OFFSET) _ fun p hp => ?_,
      foldSet_self (key := Reg.ADC_GAIN) (fun a b h => by unfold Reg.ADC_GAIN at h; omega) (nodup_zip_range hg) (mem_zip_range hg hi), k1]
    unfold Reg.ADC_GAIN Reg.ADC_OFFSET
    omega
  · rw [foldSet_self (key := Reg.ADC_OFFSET) (fun a b h => by unfold Reg.ADC_OFFSET at h; omega) (nodup_zip_range ho) (mem_zip_range ho hi), k2]

/-- A self-calibration that is kept: its factors, residual and time. -/
def State.calKept (s : State) (gains offsets : List Int) (residual : Nat) : State :=
  (((s.setFactors gains offsets).setReg Reg.ADC_RESIDUAL residual).setReg Reg.ADC_CAL_TICKS s.rtc.ticks).putBit Reg.SMALL_RESULT 2 false

theorem exec_adcSelfCalDone_kept {gains offsets : List Int} {res : Nat} (h : s.sens.adc = .selfCal none)
    (hk : s.factorsKept gains offsets res = true) : exec (.adcSelfCalDone gains offsets res) s = .next
      ((s.calKept gains offsets res).withSens { s.sens with precal := false, factorsHost := false, calDiscarded := false }).adcFree := by
  refine congrArg Host.Outcome.next ?_
  rw [h]
  dsimp only
  rw [if_pos hk]
  have hs : (s.calKept gains offsets res).sens = s.sens :=
    ((setFactors_entries gains offsets : OnlyIn [] factorKeys s _).pieces .sens (by decide) (by decide))
  rw [← hs]
  rfl

theorem exec_adcSelfCalDone_discarded {gains offsets : List Int} {res : Nat} (h : s.sens.adc = .selfCal none)
    (hk : s.factorsKept gains offsets res = false) : exec (.adcSelfCalDone gains offsets res) s = .next
      ((s.putBit Reg.SMALL_RESULT 2 true).withSens { s.sens with calDiscarded := true }).adcFree := by
  refine congrArg Host.Outcome.next ?_
  rw [h]
  dsimp only
  rw [if_neg (by rw [hk]; decide)]

theorem calKept_entries (gains offsets : List Int) (res : Nat) :
    OnlyIn [] (factorKeys ++ [Reg.ADC_RESIDUAL, Reg.ADC_CAL_TICKS, Reg.SMALL_RESULT]) s (s.calKept gains offsets res) := by
  unfold State.calKept
  refine putBit_only _ _ _ _ (by decide) (setReg_only _ _ _ (by decide) (setReg_only _ _ _ (by decide) ?_))
  exact (setFactors_entries gains offsets).mono (frameSub_of_subset (fun _ h => h) fun _ h => List.mem_append_left _ h)

theorem calKept_reg {gains offsets : List Int} (res : Nat) {k : Nat} (h : k ∉ [Reg.ADC_RESIDUAL, Reg.ADC_CAL_TICKS, Reg.SMALL_RESULT]) :
    (s.calKept gains offsets res).reg k = (s.setFactors gains offsets).reg k := by
  simp only [List.mem_cons, List.not_mem_nil, or_false, not_or] at h
  obtain ⟨h1, h2, h3⟩ := h
  unfold State.calKept State.putBit
  rw [State.reg_setReg_ne _ h3, State.reg_setReg_ne _ h2, State.reg_setReg_ne _ h1]

theorem calKept_ticks (gains offsets : List Int) (res : Nat) : (s.calKept gains offsets res).reg Reg.ADC_CAL_TICKS = s.rtc.ticks % 2 ^ 48 := by
  unfold State.calKept State.putBit
  rw [State.reg_setReg_ne _ (by decide), State.reg_setReg_self]
  rfl

/-! ### Factors and channel settings -/

theorem adcFactorRule_range {n v : Nat}
    (h : s.reg (if n ≤ 6 then Reg.ADC_GAIN_LIMIT else Reg.ADC_OFFSET_LIMIT) < (toSigned 32 v).natAbs) : adcFactorRule n s v = (.range, s) :=
  if_pos h

theorem adcFactorRule_taken {n v : Nat}
    (h : (toSigned 32 v).natAbs ≤ s.reg (if n ≤ 6 then Reg.ADC_GAIN_LIMIT else Reg.ADC_OFFSET_LIMIT)) : adcFactorRule n s v =
    andThen (s.putEntry (0x1B0100 + n) v) fun t => (t.setReg Reg.ADC_CAL_TICKS t.rtc.ticks).withSens { t.sens with factorsHost := true } :=
  if_neg (Nat.not_lt.mpr h)

/-- The settings of channel `ch` agree. -/
def State.aiAgreed (s : State) (ch : Nat) : Bool :=
  aiAgrees (s.reg (Reg.AI_MODE (ch - 1))) (s.reg (Reg.AI_UNIT (ch - 1))) (s.regI (Reg.SCALE_IN_LOW (ch - 1)))
    (s.regI (Reg.SCALE_IN_HIGH (ch - 1))) (s.regI (Reg.SCALE_OUT_LOW (ch - 1))) (s.regI (Reg.SCALE_OUT_HIGH (ch - 1)))

theorem aiConfigRule_range {ch sub v : Nat} (h : inRange (aiKey ch sub) v = false) : aiConfigRule ch sub s v = (.range, s) := if_pos (.inl h)

theorem aiConfigRule_taken {ch sub v : Nat} (h : inRange (aiKey ch sub) v = true) (ha : (s.setReg (aiKey ch sub) v).aiAgreed ch = true) :
    aiConfigRule ch sub s v = s.putEntry (aiKey ch sub) v := by
  refine if_neg fun e => ?_
  rcases e with e | e
  · exact nomatch h.symm.trans e
  · exact nomatch ha.symm.trans e

/-- Settles O43: each rule in its order, and the two ends of a self-calibration. -/
theorem adcWrites : Obligations.AdcWrites := by
  refine ⟨fun s w ha => ⟨fun h => ?_, fun h1 h2 h3 => ⟨fun h => ?_, fun hi hp hs => ?_⟩⟩, fun r s ha => ⟨fun h => ?_, fun hd h => ?_, fun k hd h => ?_⟩,
    fun gains offsets res s h hg ho => ⟨fun hk => ?_, fun hk => ?_⟩, fun n s w h1 h2 ha => ⟨fun h => ?_, fun h hs => ?_⟩,
    fun ch sub s w h1 h2 ha => ⟨fun h => ?_, fun h hag hs => ?_⟩⟩
  · exact Refuses.rule rfl ha (urgentRule_range (s := s.taken _) h)
  · exact Does.answering (l := []) (p := fun t => t.reg Reg.URGENT_DROPS = satInc 32 (s.reg Reg.URGENT_DROPS)) _ rfl ha
      (urgentRule_dropped (s := s.taken _) h1 h2 h3 h) (incSat_only _ _ (by decide) .refl) (by decide) fun _ => State.reg_incSat _ Reg.URGENT_DROPS
  · exact TakesWith.rule _ rfl ha hs (urgentRule_taken (s := s.taken _) h1 h2 h3 hi hp) (fun u => withSens_only _ _ (by decide) .refl)
      (by decide) fun n k => ⟨rfl, rfl⟩
  · exact Refuses.rule rfl ha (adcCalRule_busy (s := s.taken _) h 1)
  · exact Obeys.rule _ rfl ha (adcCalRule_idle (s := s.taken _) hd h) (withSens_only _ _ (by decide) .refl) (by decide) fun _ => rfl
  · exact Obeys.rule _ rfl ha (adcCalRule_round (s := s.taken _) hd h) (withSens_only _ _ (by decide) .refl) (by decide) fun _ => rfl
  · have hf := calKept_entries (s := s) gains offsets res
    have ht := calKept_ticks (s := s) gains offsets res
    have hr := fun i hi => setFactors_reg (s := s) hg ho (i := i) hi
    have hc := fun k h => calKept_reg (s := s) (gains := gains) (offsets := offsets) res (k := k) h
    have he := exec_adcSelfCalDone_kept h hk
    generalize s.calKept gains offsets res = u at hf ht hc he
    generalize hx : ({ s.sens with precal := false, factorsHost := false, calDiscarded := false } : SensPart) = x at he
    have ha : OnlyIn [.sens] [] (u.withSens x) (u.withSens x).adcFree := adcFree_only _ (by decide) .refl
    obtain ⟨f1, f2, f3⟩ := adcFree_flags (u.withSens x)
    refine ⟨_, he, ?_, fun i hi => ⟨?_, ?_⟩, ?_, ?_, ?_, ?_⟩
    · exact adcFree_only _ (by simp [frameSub]) (withSens_only _ _ (by simp [frameSub]) (hf.mono (frameSub_of_subset (by simp) fun _ h => h)))
    · rw [ha.entries (by decide) _ List.not_mem_nil, Nat.mod_eq_of_lt (ofSigned_lt 32 _), ← (hr i hi).1]
      refine hc _ ?_
      simp only [List.mem_cons, List.not_mem_nil, or_false, not_or]
      unfold Reg.ADC_GAIN Reg.ADC_RESIDUAL Reg.ADC_CAL_TICKS Reg.SMALL_RESULT
      omega
    · rw [ha.entries (by decide) _ List.not_mem_nil, Nat.mod_eq_of_lt (ofSigned_lt 32 _), ← (hr i hi).2]
      refine hc _ ?_
      simp only [List.mem_cons, List.not_mem_nil, or_false, not_or]
      unfold Reg.ADC_OFFSET Reg.ADC_RESIDUAL Reg.ADC_CAL_TICKS Reg.SMALL_RESULT
      omega
    · exact (ha.entries (by decide) _ List.not_mem_nil).trans ht
    · rw [f1, ← hx]; rfl
    · rw [f2, ← hx]; rfl
    · rw [f3, ← hx]; rfl
  · have he := exec_adcSelfCalDone_discarded h hk
    generalize hx : ({ s.sens with calDiscarded := true } : SensPart) = x at he
    obtain ⟨-, -, f3⟩ := adcFree_flags ((s.putBit Reg.SMALL_RESULT 2 true).withSens x)
    have ha : OnlyIn [.sens] [] ((s.putBit Reg.SMALL_RESULT 2 true).withSens x) ((s.putBit Reg.SMALL_RESULT 2 true).withSens x).adcFree :=
      adcFree_only _ (by decide) .refl
    refine ⟨_, he, adcFree_only _ (by decide) (withSens_only _ _ (by decide) (putBit_only _ _ _ _ (by decide) .refl)), ?_, ?_⟩
    · rw [f3, ← hx]; rfl
    · unfold State.regBit
      rw [ha.entries (by decide) _ List.not_mem_nil]
      exact (regBit_putBit (by decide) s 2 true).trans (if_pos rfl)
  · exact Refuses.rule rfl ha (adcFactorRule_range (s := s.taken _) h)
  · refine TakesWith.rule _ rfl ha hs (adcFactorRule_taken (s := s.taken _) h)
      (fun u => withSens_only _ _ (by decide) (setReg_only _ _ _ (by decide) .refl))
      ⟨by decide, by decide, by decide, by decide, by decide, ?_⟩ fun m k => ⟨State.reg_setReg_self _ Reg.ADC_CAL_TICKS _, rfl⟩
    simp only [List.contains_eq_mem, List.mem_cons, List.not_mem_nil, or_false, decide_eq_false_iff_not]
    unfold Reg.ADC_CAL_TICKS
    omega
  · exact Refuses.rule rfl ha (aiConfigRule_range (s := s.taken _) h)
  · exact Takes.rule rfl ha hs (aiConfigRule_taken (s := s.taken _) h hag)

end Sys2Proof.Machine
end

section
/-!
PROOF. Digital inputs and module identity (R346, R347, R349, R352, R353).
-/
namespace Sys2Proof.Machine

variable {s t : State} {n : Nat}

theorem OnlyIn.sens_eq {l : List Piece} {ks : List Nat} (h : OnlyIn l ks s t) (hl : l.contains .sens = false) : t.sens = s.sens :=
  h.pieces .sens (by decide) (by simpa using hl)

/-! ### Digital inputs -/

theorem di_of_sens (h : t.sens = s.sens) (n : Nat) : t.di n = s.di n := congrArg (fun x : SensPart => x.dis.getD (n - 1) DiUnit.idle) h

theorem di_setDi_self (h : n - 1 < s.sens.dis.length) (d : DiUnit) : (s.setDi n d).di n = d := getD_set_self h _ _

theorem dis_setDi (n : Nat) (d : DiUnit) : (s.setDi n d).sens.dis.length = s.sens.dis.length := List.length_set

/-- An input that leaves CHATTER is out of it, whatever else that wakes or clears. -/
theorem diLeave_chatter (h : n - 1 < s.sens.dis.length) :
    ((s.diLeave n).di n).chatter = false ∧ (s.diLeave n).sens.dis.length = s.sens.dis.length := by
  unfold State.diLeave
  extract_lets d s1 s2 y s3
  have h1 : (s1.di n).chatter = false := by
    unfold s1
    rw [di_setDi_self h]
  have h1l : s1.sens.dis.length = s.sens.dis.length := dis_setDi _ _
  have h2 : s2.sens = s1.sens := (pushLog_only _ _ _ (by decide) .refl : OnlyIn [.log] [] s1 s2).sens_eq rfl
  have h3 : (s3.di n).chatter = false ∧ s3.sens.dis.length = s.sens.dis.length := by
    unfold s3
    split
    · exact ⟨(congrArg DiUnit.chatter (di_of_sens h2 n)).trans h1, (congrArg (fun x : SensPart => x.dis.length) h2).trans h1l⟩
    · generalize hv : s2.setDi n _ = v
      have hw : (v.diWake n d.filt).sens = v.sens := (diWake_only _ _ _ (by decide) .refl : OnlyIn [.power, .video, .pwr] [] v _).sens_eq rfl
      rw [di_of_sens hw, hw, ← hv]
      refine ⟨?_, (dis_setDi _ _).trans ((congrArg (fun x : SensPart => x.dis.length) h2).trans h1l)⟩
      rw [di_setDi_self (by rw [h2, h1l]; exact h)]
      exact (congrArg DiUnit.chatter (di_of_sens h2 n)).trans h1
  have hc : (s3.diCleared n true).sens = s3.sens := (diCleared_only _ _ _ (by decide) .refl : OnlyIn [.klp, .bus] [] s3 _).sens_eq rfl
  rw [di_of_sens hc, hc]
  exact h3

theorem exec_diChatterWindowEnd_leaves (h1 : (s.di n).chatter = true) (h2 : (s.di n).complete = true)
    (h3 : 2 * (s.di n).edges ≤ s.reg (Reg.DI_CHATTER_EDGES (n - 1))) : exec (.diChatterWindowEnd n) s =
      .next ((s.diLeave n).setDi n { (s.diLeave n).di n with edges := 0, complete := ((s.diLeave n).di n).chatter }) := by
  have he : exec (.diChatterWindowEnd n) s = execDiChatterWindowEnd n s := rfl
  have hif : (s.di n).chatter && (s.di n).complete && decide (2 * (s.di n).edges ≤ s.reg (Reg.DI_CHATTER_EDGES (n - 1))) := by
    rw [h1, h2, decide_eq_true h3]
    rfl
  rw [he]
  unfold execDiChatterWindowEnd
  dsimp only
  rw [if_pos hif]

theorem exec_diChatterWindowEnd_quiet (h : (s.di n).chatter = false) : exec (.diChatterWindowEnd n) s =
    .next (s.setDi n { s.di n with edges := 0, complete := false }) := by
  have he : exec (.diChatterWindowEnd n) s = execDiChatterWindowEnd n s := rfl
  rw [he]
  unfold execDiChatterWindowEnd
  dsimp only
  rw [if_neg (by rw [h, Bool.false_and, Bool.false_and]; exact Bool.false_ne_true), h]

theorem diStuck_holds (hl : n - 1 < s.sens.dis.length) (h1 : (s.di n).filt = true) (h2 : (s.di n).stuck = false) (h3 : (s.di n).chatter = false)
    (h4 : s.reg (Reg.DI_STUCK_TIME (n - 1)) ≠ 0) (h5 : (s.di n).since + s.reg (Reg.DI_STUCK_TIME (n - 1)) * clkSec ≤ s.now) :
    Does (.diStuck n) s [.klp, .log, .bus, .sens] [] fun t => t.di n = { s.di n with stuck := true } := by
  have hc : ((s.di n).filt && !(s.di n).stuck && !(s.di n).chatter && s.reg (Reg.DI_STUCK_TIME (n - 1)) != 0 &&
      s.waited (s.di n).since (s.reg (Reg.DI_STUCK_TIME (n - 1)) * clkSec)) = true := by
    rw [h1, h2, h3, waited_iff.mpr h5]
    simpa using h4
  refine Does.of_only (execDiStuck_only n s (by decide) .refl) (congrArg Host.Outcome.next (if_pos hc)) ?_
  generalize hu : s.setDi n { s.di n with stuck := true } = u
  have ho : OnlyIn [.klp, .log, .bus] [] u ((u.pushLog Lt.INPUT_STUCK [n]).diAlarm n true) :=
    diAlarm_only _ _ _ (by decide) (pushLog_only _ _ _ (by decide) .refl)
  rw [di_of_sens (ho.sens_eq rfl), ← hu]
  exact di_setDi_self hl _

/-! ### Slots -/

theorem slot_of_sens (h : t.sens = s.sens) (n : Nat) : t.slot n = s.slot n := congrArg (fun x : SensPart => x.slots.getD (n - 1) IdSlot.empty) h

theorem slot_setSlot_self (h : n - 1 < s.sens.slots.length) (x : IdSlot) : (s.setSlot n x).slot n = x := getD_set_self h _ _

theorem slot_setSlot_ne {k : Nat} (h : k - 1 ≠ n - 1) (x : IdSlot) : (s.setSlot n x).slot k = s.slot k := getD_set_ne h _ _

theorem slots_setSlot (n : Nat) (x : IdSlot) : (s.setSlot n x).sens.slots.length = s.sens.slots.length := List.length_set

theorem startRead_slot (h : n - 1 < s.sens.slots.length) : (s.startRead n).slot n = { s.slot n with st := .reading, reading := true, attempts := 0 } :=
  slot_setSlot_self h _

/-- A module gone leaves its slot EMPTY, and of the sensing part nothing else. -/
theorem slotRemoved_sens (s : State) (n : Nat) : (s.slotRemoved n).sens = (s.setSlot n IdSlot.empty).sens := by
  unfold State.slotRemoved
  extract_lets x loaded others s1
  split
  · rfl
  · split <;> rfl

theorem slotRemoved_slot (h : n - 1 < s.sens.slots.length) : (s.slotRemoved n).slot n = IdSlot.empty :=
  (slot_of_sens (slotRemoved_sens s n) n).trans (slot_setSlot_self h _)

/-- One slot polled. -/
def State.pollSlot (s : State) (ack n : Nat) : State :=
  if bitAt ack (n - 1) then (if (s.slot n).st = .empty then s.startRead n else s)
  else if (s.slot n).st = .empty then s else s.slotRemoved n

theorem pollSlot_other {k : Nat} (ack : Nat) (h : k - 1 ≠ n - 1) : (s.pollSlot ack n).slot k = s.slot k := by
  unfold State.pollSlot
  split
  · split
    · exact slot_setSlot_ne h _
    · rfl
  · split
    · rfl
    · exact (slot_of_sens (slotRemoved_sens s n) k).trans (slot_setSlot_ne h _)

theorem pollSlot_length (s : State) (ack n : Nat) : (s.pollSlot ack n).sens.slots.length = s.sens.slots.length := by
  unfold State.pollSlot
  split
  · split
    · exact slots_setSlot _ _
    · rfl
  · split
    · rfl
    · rw [slotRemoved_sens]
      exact slots_setSlot _ _

/-- What the poll of a slot finds. -/
def Polled (ack n : Nat) (x y : IdSlot) : Prop :=
  (bitAt ack (n - 1) = true → x.st = .empty → y.st = .reading) ∧ (bitAt ack (n - 1) = true → x.st ≠ .empty → y = x) ∧
    (bitAt ack (n - 1) = false → y.st = .empty)

theorem pollSlot_self (ack : Nat) (h : n - 1 < s.sens.slots.length) : Polled ack n (s.slot n) ((s.pollSlot ack n).slot n) := by
  unfold State.pollSlot
  split
  · next hb =>
    refine ⟨fun _ he => ?_, fun _ hne => ?_, fun hf => nomatch hb.symm.trans hf⟩
    · rw [if_pos he, startRead_slot h]
    · rw [if_neg hne]
  · next hb =>
    refine ⟨fun ht => absurd ht hb, fun ht => absurd ht hb, fun _ => ?_⟩
    split
    · assumption
    · rw [slotRemoved_slot h]
      rfl

theorem foldPoll_slot {ack : Nat} {l : List Nat} (hl : (l.map (· - 1)).Nodup) (hn : n ∈ l) (h : n - 1 < s.sens.slots.length) :
    Polled ack n (s.slot n) ((l.foldl (fun t n => t.pollSlot ack n) s).slot n) := by
  induction l generalizing s with
  | nil => exact nomatch hn
  | cons k l ih =>
    rw [List.map_cons, List.nodup_cons] at hl
    rw [List.foldl_cons]
    by_cases hk : n = k
    · subst hk
      have hrest : ∀ (l : List Nat) (u : State), n - 1 ∉ l.map (· - 1) → (l.foldl (fun t n => t.pollSlot ack n) u).slot n = u.slot n := by
        intro l
        induction l with
        | nil => exact fun _ _ => rfl
        | cons j l ih =>
          intro u hj
          rw [List.map_cons, List.mem_cons, not_or] at hj
          rw [List.foldl_cons, ih _ hj.2, pollSlot_other ack hj.1]
      rw [hrest l _ hl.1]
      exact pollSlot_self ack h
    · have hm := (List.mem_cons.mp hn).resolve_left hk
      have hne : n - 1 ≠ k - 1 := fun he => hl.1 (by rw [← he]; exact List.mem_map_of_mem (f := (· - 1)) hm)
      have := ih hl.2 hm (s := s.pollSlot ack k) (by rwa [pollSlot_length])
      rwa [pollSlot_other ack hne] at this

/-! ### Reads -/

section Reads
variable (ho : s.sens.idOn = true) (hs : (s.slot n).st = .reading) (hr : (s.slot n).reading = true)
include ho hs hr

theorem exec_idReadDone_failed : exec (.idReadDone n .failed) s = .next (s.readFailed n) :=
  congrArg Host.Outcome.next (if_pos (by rw [ho, hs, hr]; rfl))

theorem exec_idReadDone_good {b : List Nat} (hb : idGood b = true) : exec (.idReadDone n (.bytes b)) s = .next (s.recordRead n b) :=
  congrArg Host.Outcome.next ((if_pos (by rw [ho, hs, hr]; rfl)).trans (if_pos hb))

end Reads

theorem readFailed_retries (h : (s.slot n).attempts < 2) :
    s.readFailed n = s.setSlot n { s.slot n with reading := false, attempts := (s.slot n).attempts + 1 } := if_pos (by omega)

theorem readFailed_faults (h : 2 ≤ (s.slot n).attempts) : s.readFailed n =
    (s.setSlot n { s.slot n with st := .fault, reading := false, attempts := (s.slot n).attempts + 1 }).incSat Reg.ID_ERRORS := if_neg (by omega)

/-- What a record loads does not depend on the count of the reads. -/
theorem recordLoads_congr (h : ∀ k, k ≠ Reg.ID_READS → t.reg k = s.reg k) (n : Nat) (b : List Nat) : t.recordLoads n b = s.recordLoads n b := by
  have hb : t.slotBind n = s.slotBind n := h _ (by unfold Reg.SLOT_BIND Reg.ID_READS; omega)
  have hf (v : Nat) : t.ffFilled v = s.ffFilled v := by
    unfold State.ffFilled
    rw [h Reg.LENS_FF_FILLED_LO (by decide), h Reg.LENS_FF_FILLED_HI (by decide)]
  have ht (c : Nat) : t.boundTachs c = s.boundTachs c := by
    unfold State.boundTachs
    rw [h (Reg.FAN_TACHS c) (by unfold Reg.FAN_TACHS Reg.ID_READS; omega)]
  have h1 (i : Nat) : t.regI (Reg.SCALE_IN_LOW i) = s.regI (Reg.SCALE_IN_LOW i) :=
    congrArg _ (h _ (by unfold Reg.SCALE_IN_LOW Reg.ID_READS; omega))
  have h2 (i : Nat) : t.regI (Reg.SCALE_IN_HIGH i) = s.regI (Reg.SCALE_IN_HIGH i) :=
    congrArg _ (h _ (by unfold Reg.SCALE_IN_HIGH Reg.ID_READS; omega))
  have h3 (i : Nat) : t.regI (Reg.SCALE_OUT_LOW i) = s.regI (Reg.SCALE_OUT_LOW i) :=
    congrArg _ (h _ (by unfold Reg.SCALE_OUT_LOW Reg.ID_READS; omega))
  have h4 (i : Nat) : t.regI (Reg.SCALE_OUT_HIGH i) = s.regI (Reg.SCALE_OUT_HIGH i) :=
    congrArg _ (h _ (by unfold Reg.SCALE_OUT_HIGH Reg.ID_READS; omega))
  unfold State.recordLoads
  simp only [hb, hf, ht, h1, h2, h3, h4]

/-- Slots that a record makes CONFLICT leave the slot of the record. -/
theorem foldConflict_slot {l : List Nat} (h : ∀ k ∈ l, n - 1 ≠ k - 1) :
    (l.foldl (fun t k => t.setSlot k { t.slot k with st := .conflict }) s).slot n = s.slot n := by
  induction l generalizing s with
  | nil => rfl
  | cons k l ih =>
    rw [List.foldl_cons, ih fun j hj => h j (List.mem_cons_of_mem _ hj), slot_setSlot_ne (h k List.mem_cons_self)]

theorem foldSetReg_sens (l : List (Nat × Nat)) : (l.foldl (fun t p => t.setReg p.1 p.2) s).sens = s.sens := by
  induction l generalizing s with
  | nil => rfl
  | cons p l ih => rw [List.foldl_cons, ih]; rfl

/-- A good record whose values are in range makes its slot VALID. -/
theorem recordRead_valid (hl : n - 1 < s.sens.slots.length) (hst : (s.slot n).st = .reading) {b : List Nat} (h2 : b.getD 2 0 = 1)
    (h3 : 1 ≤ b.getD 3 0) (h4 : b.getD 3 0 ≤ 4) (hc : ∀ k, k < n → s.conflictsWith n (b.getD 3 0) k = false)
    (hx : (s.recordLoads n b).isSome = true) :
    (s.recordRead n b).slot n = { s.slot n with st := .valid, reading := false, attempts := 0, record := b } := by
  unfold State.recordRead
  extract_lets kind y x z s1
  have hloads : s1.recordLoads n b = s.recordLoads n b := recordLoads_congr (fun k hk => State.reg_setReg_ne _ hk) n b
  obtain ⟨l, hl2⟩ := Option.isSome_iff_exists.mp hx
  have hany : ¬((List.range n).any (s.conflictsWith n kind)) = true := by
    simp only [List.any_eq_true, List.mem_range, not_exists, not_and, Bool.not_eq_true]
    exact hc
  rw [if_neg (by omega), if_neg hany, hloads, hl2]
  dsimp only
  generalize hu : (l.foldl (fun t p => t.setReg p.1 p.2) s1).setSlot n { x with st := .valid } = u
  have hun : u.slot n = { s.slot n with st := .valid, reading := false, attempts := 0, record := b } := by
    rw [← hu]
    refine slot_setSlot_self ?_ _
    rw [foldSetReg_sens]
    exact hl
  have hfold : ((((List.range 9).filter fun k => Nat.blt n k && s.conflictsWith n kind k).foldl
      (fun t k => t.setSlot k { t.slot k with st := .conflict }) u).slot n) = u.slot n := by
    refine foldConflict_slot fun k hk => ?_
    have hk := (List.mem_filter.mp hk).2
    rw [Bool.and_eq_true, Nat.blt_eq] at hk
    intro he
    by_cases h0 : n = 0
    · have hsame : s.slot k = s.slot n := by
        unfold State.slot
        rw [← he]
      have hv := hk.2
      unfold State.conflictsWith at hv
      rw [hsame, hst] at hv
      simp at hv
    · omega
  split
  · exact hfold.trans hun
  · exact hfold.trans hun

/-! ### Bindings -/

theorem reread_full (h : (s.slot n).st ≠ .empty) : s.reread n = s.startRead n := if_neg h

theorem idRereadRule_slot {v : Nat} (h1 : 1 ≤ v) (h8 : v ≤ 8) : idRereadRule s v = (.ok, s.reread v) := by
  have hr : inRange Reg.ID_REREAD v = true := by
    rw [inRange_of rfl]
    have hu : ETy.u8.signed = false := rfl
    simp only [withinI, Entry.read, hu, List.isEmpty_cons, Bool.false_or, List.any_cons, Bool.or_eq_true, Bool.and_eq_true, decide_eq_true_eq]
    exact .inl (by simp; omega)
  unfold idRereadRule
  rw [if_neg (by rw [hr]; decide), if_neg (by omega)]

/-- Another slot that does not hold a pod names fan channel `v`. -/
def State.bindTaken (s : State) (n v : Nat) : Bool := (List.range 9).any fun k => k != 0 && k != n && (s.slot k).kind != 4 && s.slotBind k == v

theorem bindTaken_iff {v : Nat} : s.bindTaken n v = true ↔ ∃ k, 1 ≤ k ∧ k ≤ 8 ∧ k ≠ n ∧ (s.slot k).kind ≠ 4 ∧ s.slotBind k = v := by
  unfold State.bindTaken
  simp only [List.any_eq_true, List.mem_range, Bool.and_eq_true, bne_iff_ne, beq_iff_eq]
  constructor
  · rintro ⟨k, hk, ⟨⟨h0, hn⟩, h4⟩, hv⟩
    exact ⟨k, by omega, by omega, hn, h4, hv⟩
  · rintro ⟨k, h1, h8, hn, h4, hv⟩
    exact ⟨k, by omega, ⟨⟨by omega, hn⟩, h4⟩, hv⟩

theorem slotBindRule_eq (s : State) (n v : Nat) : slotBindRule n s v =
    if (v = 1 ∨ v = 2) ∧ (s.slot n).kind ≠ 4 ∧ s.bindTaken n v = true then (.state, s)
    else if 12 < v ∨ ((s.slot n).kind = 3 ∧ 2 < v) ∨ ((s.slot n).kind = 4 ∧ v ≠ 0 ∧ 12 < v + (s.slot n).record.getD 49 0 - 1) then (.range, s)
    else andThen (s.putEntry (Reg.SLOT_BIND (n - 1)) v) fun t => t.reread n := by
  unfold slotBindRule State.bindTaken
  rfl

theorem slotBindRule_taken {v : Nat} (h12 : v ≤ 12)
    (h1 : (v = 1 ∨ v = 2) → (s.slot n).kind ≠ 4 → ∀ k, 1 ≤ k → k ≤ 8 → k ≠ n → (s.slot k).kind ≠ 4 → s.slotBind k ≠ v)
    (h3 : (s.slot n).kind = 3 → v ≤ 2) (h4 : (s.slot n).kind = 4 → v ≠ 0 → v + (s.slot n).record.getD 49 0 ≤ 13) :
    slotBindRule n s v = andThen (s.putEntry (Reg.SLOT_BIND (n - 1)) v) fun t => t.reread n := by
  rw [slotBindRule_eq, if_neg, if_neg]
  · rintro (h | ⟨hk, h⟩ | ⟨hk, h0, h⟩)
    · omega
    · have := h3 hk
      omega
    · have := h4 hk h0
      omega
  · rintro ⟨hv, hk, ht⟩
    obtain ⟨k, a, b, c, d, e⟩ := bindTaken_iff.mp ht
    exact h1 hv hk k a b c d e

/-- Settles O44: each event on its own input or slot. -/
theorem inputsAndModules : Obligations.InputsAndModules := by
  refine ⟨fun n s hl h1 h2 h3 h4 h5 => diStuck_holds hl h1 h2 h3 h4 h5, fun n s hl => ⟨fun h => ?_, fun h1 h2 h3 => ?_⟩, fun s => ?_,
    fun n s h1 h4 hl => ⟨fun h => ?_, fun h => ?_⟩, fun ack s ho h8 => ?_, fun n s hl ho hst hr => ⟨fun h => ?_, fun h => ?_, fun b hb h2 h3 h4 hc hx => ?_⟩,
    fun n s hl => ⟨fun h => ?_, fun h => ?_⟩, fun s w ha h1 h8 hl hne => ?_,
    fun n s w h1 h8 ha => ⟨fun hv hk ht => ?_, fun h => ?_, fun h12 hv h3 h4 hs => ⟨fun he => ?_, fun hne hl => ?_⟩⟩⟩
  · exact ⟨_, exec_diChatterWindowEnd_quiet h, setDi_only _ _ _ (by decide) .refl, di_setDi_self hl _⟩
  · obtain ⟨hch, hlen⟩ := diLeave_chatter hl
    refine Does.of_only (execDiChatterWindowEnd_only n s (by decide) .refl) (exec_diChatterWindowEnd_leaves h1 h2 h3) ?_
    rw [di_setDi_self (by rwa [hlen])]
    exact ⟨hch, rfl⟩
  · exact Does.of_only (execIdReaderStart_only s (by decide) .refl) rfl rfl
  · have hw : (!within 1 4 n) = false := by simp [within, h1, h4]
    exact ⟨_, congrArg Host.Outcome.next ((if_neg (by rw [hw]; decide)).trans ((if_pos rfl).trans (if_pos h))),
      startRead_only _ _ (by decide) .refl, startRead_slot hl⟩
  · have hw : (!within 1 4 n) = false := by simp [within, h1, h4]
    exact ⟨_, congrArg Host.Outcome.next ((if_neg (by rw [hw]; decide)).trans ((if_neg Bool.false_ne_true).trans (if_neg h))),
      slotRemoved_only _ _ (by decide) .refl, slotRemoved_slot hl⟩
  · refine Does.of_only (execIdPoll_only ack s (by decide) .refl) (congrArg Host.Outcome.next (if_pos ho)) fun n h5 hn8 => ?_
    have hm : n ∈ [5, 6, 7, 8] := by
      simp only [List.mem_cons, List.not_mem_nil, or_false]
      omega
    exact foldPoll_slot (by decide) hm (by omega)
  · exact ⟨_, (exec_idReadDone_failed ho hst hr).trans (by rw [readFailed_retries h]), setSlot_only _ _ _ (by decide) .refl, slot_setSlot_self hl _⟩
  · refine ⟨_, (exec_idReadDone_failed ho hst hr).trans (by rw [readFailed_faults h]),
      incSat_only _ _ (by decide) (setSlot_only _ _ _ (by decide) .refl), ?_, State.reg_incSat _ Reg.ID_ERRORS⟩
    exact congrArg IdSlot.st (slot_setSlot_self hl _)
  · exact ⟨_, exec_idReadDone_good ho hst hr hb, recordRead_only _ _ _ (by decide) .refl, recordRead_valid hl hst h2 h3 h4 hc hx⟩
  · exact ⟨_, congrArg Host.Outcome.next (if_pos h), setSlot_only _ _ _ (by decide) .refl, slot_setSlot_self hl _⟩
  · exact ⟨_, congrArg Host.Outcome.next (if_pos h), startRead_only _ _ (by decide) .refl, startRead_slot hl⟩
  · refine Obeys.rule _ rfl ha (idRereadRule_slot (s := s.taken _) h1 h8) (reread_only _ _ (by decide) .refl) (by decide) fun k => ?_
    rw [reread_full (s := s.taken _) hne]
    exact startRead_slot (s := s.taken (wrRequest w Reg.ID_REREAD)) hl
  · refine Refuses.rule rfl ha ((slotBindRule_eq _ _ _).trans (if_pos ⟨hv, hk, ?_⟩))
    exact bindTaken_iff (s := s.taken _).mpr ht
  · exact Refuses.rule rfl ha ((slotBindRule_eq _ _ _).trans ((if_neg (by omega)).trans (if_pos (.inl h))))
  · refine TakesWith.rule (fun t => t.reread n) rfl ha hs (slotBindRule_taken (s := s.taken _) h12 hv h3 h4) (fun u => reread_only _ _ (by decide) .refl)
      (by simp) fun m k => ?_
    generalize hu : ({ s with nv := m, klp := (s.taken (wrRequest w (Reg.SLOT_BIND (n - 1)))).klp } : State).setReg (Reg.SLOT_BIND (n - 1)) w.val = u
    have hsu : u.sens = s.sens := by rw [← hu]; rfl
    have hre : u.reread n = u := if_pos (by rw [slot_of_sens hsu]; exact he)
    rw [hre]
    exact hsu
  · refine TakesWith.rule (fun t => t.reread n) rfl ha hs (slotBindRule_taken (s := s.taken _) h12 hv h3 h4) (fun u => reread_only _ _ (by decide) .refl)
      (by simp) fun m k => ?_
    generalize hu : ({ s with nv := m, klp := (s.taken (wrRequest w (Reg.SLOT_BIND (n - 1)))).klp } : State).setReg (Reg.SLOT_BIND (n - 1)) w.val = u
    have hsu : u.sens = s.sens := by rw [← hu]; rfl
    rw [reread_full (by rw [slot_of_sens hsu]; exact hne)]
    refine (startRead_slot (s := u) (by rwa [hsu])).trans ?_
    rw [slot_of_sens hsu]

end Sys2Proof.Machine
end

section
/-!
PROOF. Frames received and sent, and bus errors (R354, R358, R378).
-/
namespace Sys2Proof.Machine

variable {s : State}

/-- A channel that does not hear changes nothing on a protocol error. -/
theorem exec_protocolError_unheard {c : Bus} (h : s.hears c = false) (e : RxError) : exec (.protocolError c e) s = .next s :=
  congrArg Host.Outcome.next (if_pos (by rw [h]; rfl))

/-- A state after reset whose first channel is NORMAL and integrated and has gone bus-off. -/
def busOffChannel : State :=
  State.reset.setChan .one { State.reset.chan .one with active := .normal, integrated := true, busOff := true }

/-- Refutes O46: its last clause asks an FD exception of every channel that is on and integrated, and so of one that is bus-off, which
hears nothing (R358, R378). In `busOffChannel` the command changes nothing, and the channel stays integrated. -/
theorem not_busTraffic : ¬ Obligations.BusTraffic := by
  intro ⟨_, _, _, h⟩
  obtain ⟨⟨t, he, -, -, ht⟩, -⟩ := h .one busOffChannel (by decide) rfl
  rw [← Host.Outcome.next.inj ((exec_protocolError_unheard rfl _).symm.trans he)] at ht
  exact nomatch congrArg Channel.integrated ht

end Sys2Proof.Machine
end

section
/-!
PROOF. The breakwater's timers, the device heartbeat and the network commands (R252, R374, R375, R406, R407, R478).
-/
namespace Sys2Proof.Machine

variable {s t : State} {c d : Bus}

theorem bus_eq_or_other (c d : Bus) : d = c ∨ d = c.other := by cases c <;> cases d <;> decide

/-! ### Frames queued -/

/-- Of the state, only the channels, and of them no receive FIFO. -/
structure ChannelsOnly (s t : State) : Prop where
  only : OnlyIn [.bus] [] s t
  bus  : t.bus = { s.bus with ch := t.bus.ch }
  rx   : ∀ c, (t.chan c).rx = (s.chan c).rx

theorem ChannelsOnly.refl : ChannelsOnly s s := ⟨.refl, rfl, fun _ => rfl⟩

theorem ChannelsOnly.trans {u : State} (h : ChannelsOnly s t) (h' : ChannelsOnly t u) : ChannelsOnly s u :=
  ⟨h.only.trans h'.only, by rw [h'.bus, h.bus], fun c => (h'.rx c).trans (h.rx c)⟩

theorem setChan_channelsOnly {x : Channel} (h : x.rx = (s.chan c).rx) : ChannelsOnly s (s.setChan c x) := by
  refine ⟨setChan_only _ _ _ (by decide) .refl, rfl, fun d => ?_⟩
  rcases bus_eq_or_other c d with rfl | rfl
  · rw [chan_setChan_self, h]
  · rw [chan_setChan_other]

theorem enqueue_channelsOnly (s : State) (c : Bus) (q : Nat) (f : TxFrame) :
    ChannelsOnly s (s.enqueue c q f).2 ∧ (s.enqueue c q f).2.chan c.other = s.chan c.other := by
  have hset (x : Channel) (h : x.rx = (s.chan c).rx) : ChannelsOnly s (s.setChan c x) ∧ (s.setChan c x).chan c.other = s.chan c.other :=
    ⟨setChan_channelsOnly h, chan_setChan_other _ _⟩
  unfold State.enqueue
  extract_lets x l y
  split
  · exact hset _ rfl
  · split
    · exact hset _ rfl
    · split
      · dsimp only
        split
        · exact hset _ rfl
        · exact ⟨.refl, rfl⟩
      · dsimp only
        split
        · exact hset _ rfl
        · exact hset _ rfl

/-- A frame that a queue of a NORMAL channel takes. -/
theorem enqueue_queue {q : Nat} (ha : (s.chan c).active = .normal) (hs : s.storm = false) (hq : q < (s.chan c).queues.length)
    (hl : ((s.chan c).queues.getD q []).length < queueDepth q) (f : TxFrame) :
    ((s.enqueue c q f).2.chan c).queues.getD q [] = (s.chan c).queues.getD q [] ++ [f] := by
  have hst : s.stormStops c q = false := by unfold State.stormStops; rw [hs, Bool.false_and]
  unfold State.enqueue
  dsimp only
  rw [if_neg (fun h => h ha), if_neg (by rw [hst]; decide), if_neg (Nat.not_le.mpr hl)]
  dsimp only
  rw [chan_setChan_self]
  split
  · exact getD_set_self hq _ _
  · exact getD_set_self hq _ _

section Fold
variable {q : Nat} {g : State → Bus → TxFrame}

/-- Frames queued on each channel of a list. -/
theorem foldEnqueue_channelsOnly (l : List Bus) (s : State) :
    ChannelsOnly s (l.foldl (fun t c => (t.enqueue c q (g t c)).2) s) ∧
      (c ∉ l → (l.foldl (fun t c => (t.enqueue c q (g t c)).2) s).chan c = s.chan c) := by
  induction l generalizing s with
  | nil => exact ⟨.refl, fun _ => rfl⟩
  | cons d l ih =>
    obtain ⟨h1, h2⟩ := enqueue_channelsOnly s d q (g s d)
    obtain ⟨h3, h4⟩ := ih (s.enqueue d q (g s d)).2
    refine ⟨h1.trans h3, fun hc => ?_⟩
    rw [List.mem_cons, not_or] at hc
    have hd := (bus_eq_or_other d c).resolve_left fun h => hc.1 h
    rw [List.foldl_cons, h4 hc.2, hd, h2]

/-- A channel of the list whose queue has room takes its frame, made in a state that differs in the channels alone. -/
theorem foldEnqueue_queue {l : List Bus} (hn : l.Nodup) (hc : c ∈ l) (ha : (s.chan c).active = .normal) (hs : s.storm = false)
    (hq : q < (s.chan c).queues.length) (hl : ((s.chan c).queues.getD q []).length < queueDepth q) :
    ∃ u, ChannelsOnly s u ∧ ((l.foldl (fun t c => (t.enqueue c q (g t c)).2) s).chan c).queues.getD q [] =
      (s.chan c).queues.getD q [] ++ [g u c] := by
  induction l generalizing s with
  | nil => exact nomatch hc
  | cons d l ih =>
    rw [List.nodup_cons] at hn
    rw [List.foldl_cons]
    by_cases hd : c = d
    · subst hd
      refine ⟨s, .refl, ?_⟩
      rw [(foldEnqueue_channelsOnly l _).2 hn.1, enqueue_queue ha hs hq hl]
    · obtain ⟨h1, h2⟩ := enqueue_channelsOnly s d q (g s d)
      have ho := (bus_eq_or_other d c).resolve_left fun h => hd h
      have hcc : (s.enqueue d q (g s d)).2.chan c = s.chan c := by rw [ho, h2]
      have hstorm : (s.enqueue d q (g s d)).2.storm = false :=
        (congrArg Hm.storm (h1.only.pieces .hm (by decide) (by decide))).trans hs
      obtain ⟨u, hu, he⟩ := ih hn.2 ((List.mem_cons.mp hc).resolve_left hd) (s := (s.enqueue d q (g s d)).2) (by rw [hcc]; exact ha) hstorm
        (by rw [hcc]; exact hq) (by rw [hcc]; exact hl)
      exact ⟨u, h1.trans hu, by rw [he, hcc]⟩

end Fold

theorem normalIn_nodup (mask : Nat) : (s.normalIn mask).Nodup := List.Pairwise.filter _ (by decide : [Bus.one, Bus.two].Nodup)

theorem mem_normalIn {mask : Nat} (hb : bitAt mask c.idx = true) (ha : (s.chan c).active = .normal) : c ∈ s.normalIn mask := by
  refine List.mem_filter.mpr ⟨by cases c <;> decide, ?_⟩
  rw [hb, ha]
  rfl

/-! ### The breakwater's records -/

section Records
variable (b : Breakwater)

theorem bw_get_source (n : Nat) : (b.get n).source = n := by
  unfold Breakwater.get
  split
  · next x h => exact beq_iff_eq.mp (List.find?_some (p := fun x : BwSource => x.source == n) h)
  · rfl

/-- A record that has something to remember reads back. -/
theorem bw_get_put {x : BwSource} (h : x.hold = true) : (b.put x).get x.source = x := by
  have hs : (b.put x).sources = (b.sources.filter fun y => !(y.source == x.source)) ++ [x] := by
    unfold Breakwater.put
    dsimp only
    rw [if_pos (by rw [h]; rfl)]
  have hf : (b.put x).sources.find? (fun y => y.source == x.source) = some x := by
    rw [hs, List.find?_append]
    have hn : (b.sources.filter fun y => !(y.source == x.source)).find? (fun y => y.source == x.source) = none := by
      refine List.find?_eq_none.mpr fun y hy => ?_
      have := (List.mem_filter.mp hy).2
      simpa using this
    rw [hn]
    simp
  unfold Breakwater.get
  rw [hf]

/-- The counts of a release that its frames' ways leave alone. -/
def SameRelease (a b : Breakwater) : Prop := b.seq = a.seq ∧ b.summaries = a.summaries

theorem replaceWaiting_same (source : Nat) (f : CanFrame) (c : Bus) : SameRelease b (b.replaceWaiting source f c) := by
  unfold Breakwater.replaceWaiting
  dsimp only
  split
  · exact ⟨rfl, rfl⟩
  · exact ⟨rfl, rfl⟩

end Records

theorem giveAlarm_same (s : State) (source : Nat) (f : CanFrame) (c : Bus) : SameRelease s.bus.bw (s.giveAlarm source f c).bus.bw := by
  have henq (g : TxFrame) : (s.enqueue c 0 g).2.bus.bw = s.bus.bw := by rw [(enqueue_channelsOnly s c 0 g).1.bus]
  unfold State.giveAlarm
  extract_lets b r w
  split
  · exact replaceWaiting_same _ _ _ _
  · have hr : r.2.bus.bw = s.bus.bw := by
      unfold r
      split
      · exact henq _
      · rfl
    split
    · rw [hr]
      exact ⟨rfl, rfl⟩
    · show r.2.bus.bw.seq = _ ∧ r.2.bus.bw.summaries = _
      rw [hr]
      exact ⟨rfl, rfl⟩

theorem foldGive_same (l : List Bus) (s : State) (source : Nat) (f : CanFrame) :
    SameRelease s.bus.bw (l.foldl (fun t c => t.giveAlarm source f c) s).bus.bw := by
  induction l generalizing s with
  | nil => exact ⟨rfl, rfl⟩
  | cons c l ih =>
    obtain ⟨h1, h2⟩ := giveAlarm_same s source f c
    obtain ⟨h3, h4⟩ := ih (s.giveAlarm source f c)
    exact ⟨h3.trans h1, h4.trans h2⟩

/-- A released frame takes the next SEQ; an alarm's frame sets ALARM, a summary's leaves the ledger engine alone. -/
theorem releaseFrame_seq (s : State) (e : BwEvent) (suppressed summary : Bool) :
    (s.releaseFrame e suppressed summary).bus.bw.seq = (s.bus.bw.seq + 1) % 256 ∧
      (s.releaseFrame e suppressed summary).bus.bw.summaries = s.bus.bw.summaries ∧
      (summary = true → (s.releaseFrame e suppressed summary).klp = s.klp) ∧
      (summary = false → bitAt (s.releaseFrame e suppressed summary).klp.irq irqAlarm = true) := by
  unfold State.releaseFrame
  extract_lets seq b s1 s2
  have h2 := foldGive_same s.alarmTargets s1 e.source (bwFrame s e suppressed seq)
  have hk : s2.klp = s.klp := (OnlyIn.foldl .refl fun _ _ h => giveAlarm_only _ _ _ _ (by decide) h : OnlyIn [.bus] [] s1 s2).pieces .klp
    (by decide) (by decide)
  cases summary
  · exact ⟨h2.1, h2.2, (fun h => nomatch h), fun _ => bitAt_bitOn_self _ _⟩
  · exact ⟨h2.1, h2.2, fun _ => hk, fun h => nomatch h⟩

theorem isEmpty_false {α : Type} {l : List α} (h : l ≠ []) : l.isEmpty = false := List.isEmpty_eq_false_iff.mpr h

/-- A source whose hold has ended. -/
def State.holdEnded (s : State) (n : Nat) : State := s.withBw (s.bus.bw.put { s.bus.bw.get n with hold := false })

/-- The record of a source whose event has just been released. -/
def Breakwater.releasedSource (b : Breakwater) (n : Nat) : BwSource := { b.get n with hold := true, pend := none, replaced := false }

theorem releaseSource_eq (s : State) (e : BwEvent) : s.releaseSource e =
    (s.releaseFrame e (s.bus.bw.get e.source).replaced false).withBw ((s.releaseFrame e (s.bus.bw.get e.source).replaced false).bus.bw.put
      ((s.releaseFrame e (s.bus.bw.get e.source).replaced false).bus.bw.releasedSource e.source)) := rfl

theorem exec_bwHoldExpiry_quiet {n : Nat} (h : (s.bus.bw.get n).hold = true) (hp : (s.bus.bw.get n).pend = none) :
    exec (.bwHoldExpiry n) s = .next (s.holdEnded n) := by
  refine congrArg Host.Outcome.next ((if_neg (by rw [h]; decide)).trans ?_)
  split
  · next e he => exact nomatch hp.symm.trans he
  · rfl

theorem exec_bwHoldExpiry_pending {n : Nat} {e : BwEvent} (h : (s.bus.bw.get n).hold = true) (hp : (s.bus.bw.get n).pend = some e)
    (hl : s.alarmTargets ≠ []) : exec (.bwHoldExpiry n) s = .next ((s.holdEnded n).releaseSource e) := by
  have ht : (s.holdEnded n).alarmTargets.isEmpty = false := isEmpty_false hl
  refine congrArg Host.Outcome.next ((if_neg (by rw [h]; decide)).trans ?_)
  split
  · next e' he =>
    obtain rfl := Option.some.inj (he.symm.trans hp)
    exact if_neg (Bool.eq_false_iff.mp ht)
  · next he => exact nomatch hp.symm.trans he

/-- A hold that ends with an event pending releases it, and holds on. -/
theorem bwHoldExpiry_releases {n : Nat} {e : BwEvent} (h : (s.bus.bw.get n).hold = true) (he : (s.bus.bw.get n).pend = some e)
    (hn : e.source = n) (hl : s.alarmTargets ≠ []) : Does (.bwHoldExpiry n) s [.klp, .bus] [] fun t =>
      (t.bus.bw.get n).hold = true ∧ (t.bus.bw.get n).pend = none ∧ t.bus.bw.seq = (s.bus.bw.seq + 1) % 256 ∧
        bitAt t.klp.irq irqAlarm = true := by
  refine Does.of_only (execBwHoldExpiry_only n s (by decide) .refl) (exec_bwHoldExpiry_pending h he hl) ?_
  obtain ⟨hseq, -, -, hirq⟩ := releaseFrame_seq (s.holdEnded n) e ((s.holdEnded n).bus.bw.get e.source).replaced false
  rw [releaseSource_eq]
  generalize (s.holdEnded n).releaseFrame e ((s.holdEnded n).bus.bw.get e.source).replaced false = u at hseq hirq
  have hys : (u.bus.bw.releasedSource e.source).source = n := (bw_get_source _ _).trans hn
  have hget : (u.bus.bw.put (u.bus.bw.releasedSource e.source)).get n = u.bus.bw.releasedSource e.source := by
    rw [← hys]
    exact bw_get_put _ rfl
  exact ⟨congrArg BwSource.hold hget, congrArg BwSource.pend hget, hseq, hirq rfl⟩

theorem bwSummary_holds (h : s.bus.bw.running = true) (hl : s.alarmTargets ≠ []) : Does .bwSummary s [.klp, .bus] [] fun t =>
    t.klp = s.klp ∧ t.bus.bw.seq = (s.bus.bw.seq + 1) % 256 ∧ t.bus.bw.summaries = satInc 32 s.bus.bw.summaries ∧
      t.bus.bw.replaced = 0 ∧ (∀ x ∈ t.bus.bw.sources, x.limited = false) ∧ t.bus.bw.running = !s.bus.bw.second.isEmpty := by
  have he : exec .bwSummary s = execBwSummary s := rfl
  obtain ⟨t, ht, ho⟩ := execBwSummary_only s (pl := [.klp, .bus]) (pk := []) (by decide) .refl
  refine ⟨t, he.trans ht, ho, ?_⟩
  unfold execBwSummary at ht
  extract_lets b e s1 b1 src still at ht
  rw [if_neg (by rw [h, isEmpty_false hl]; decide)] at ht
  obtain ⟨hseq, hsum, hk, -⟩ := releaseFrame_seq s e false true
  rw [← Host.Outcome.next.inj ht]
  refine ⟨hk rfl, hseq, congrArg (satInc 32) hsum, rfl, fun x hx => ?_, rfl⟩
  obtain ⟨y, -, rfl⟩ := List.mem_map.mp (List.mem_filter.mp hx).1
  rfl

/-! ### The device heartbeat -/

theorem ownId_congr (h : ChannelsOnly s t) (fn : Nat) : t.ownId fn = s.ownId fn := by
  unfold State.ownId
  rw [h.only.entries (by decide) _ List.not_mem_nil]

/-- The heartbeat's data reads nothing of the channels. -/
theorem heartbeatData_congr (h : ChannelsOnly s t) : t.heartbeatData = s.heartbeatData := by
  have hreg (k : Nat) : t.reg k = s.reg k := h.only.entries (by decide) k List.not_mem_nil
  have hphase : t.phase = s.phase := h.only.pieces .phase (by decide) (by decide)
  have hhm : t.hm = s.hm := h.only.pieces .hm (by decide) (by decide)
  have hloop : t.loop = s.loop := h.only.pieces .loop (by decide) (by decide)
  have htide : t.tide = s.tide := h.only.pieces .tide (by decide) (by decide)
  have hslip : t.slip = s.slip := h.only.pieces .slip (by decide) (by decide)
  have hberth : t.berth = s.berth := h.only.pieces .berth (by decide) (by decide)
  have hbw : t.bus.bw = s.bus.bw := by rw [h.bus]
  have hmode : t.controlMode = s.controlMode := by unfold State.controlMode State.storm; rw [hhm, hloop]
  have hduplex : t.duplex = s.duplex := by unfold State.duplex State.qst; rw [hhm]
  have halarms : t.alarmsActive = s.alarmsActive := by unfold State.alarmsActive; rw [hberth]
  have htick : t.tick = s.tick := by
    unfold State.tick State.epochClocks State.rate State.now
    rw [hreg, hreg, hreg, htide]
  unfold State.heartbeatData
  rw [hphase, hmode, hduplex, htide, hslip, hhm, hbw, halarms, htick]

theorem sendHeartbeat_eq (ho : s.hm.owner ≠ none) (hs : s.storm = false) : s.sendHeartbeat =
    (s.normalIn (s.reg Reg.HB_CHANNELS)).foldl (fun t c => (t.enqueue c 7 (plainFrame (t.ownId 0xF) false t.heartbeatData)).2) s := by
  refine if_neg ?_
  rw [hs, Bool.or_false, Option.isNone_iff_eq_none]
  exact ho

theorem sendHeartbeat_channelsOnly (s : State) : ChannelsOnly s s.sendHeartbeat := by
  unfold State.sendHeartbeat
  split
  · exact .refl
  · exact (foldEnqueue_channelsOnly (c := .one) _ s).1

/-- A NORMAL channel of `HB_CHANNELS` with room takes the heartbeat. -/
theorem sendHeartbeat_queue (ho : s.hm.owner ≠ none) (hs : s.storm = false) (hb : bitAt (s.reg Reg.HB_CHANNELS) c.idx = true)
    (ha : (s.chan c).active = .normal) (hq : 7 < (s.chan c).queues.length) (hl : ((s.chan c).queues.getD 7 []).length < 2) :
    ∃ f, (s.sendHeartbeat.chan c).queues.getD 7 [] = (s.chan c).queues.getD 7 [] ++ [f] ∧ f.f.id = s.ownId 0xF ∧ f.f.data = s.heartbeatData := by
  rw [sendHeartbeat_eq ho hs]
  obtain ⟨u, hu, he⟩ := foldEnqueue_queue (q := 7) (g := fun t _ => plainFrame (t.ownId 0xF) false t.heartbeatData)
    (normalIn_nodup _) (mem_normalIn hb ha) ha hs hq hl
  exact ⟨_, he, ownId_congr hu _, heartbeatData_congr hu⟩

theorem sendTime_channelsOnly (s : State) (reason : Nat) : ChannelsOnly s (s.sendTime reason) := by
  unfold State.sendTime
  exact (foldEnqueue_channelsOnly (c := .one) _ s).1

/-- A NORMAL channel of `TIME_CHANNELS` with room takes the time frame. -/
theorem sendTime_queue (hs : s.storm = false) (hb : bitAt (s.reg Reg.TIME_CHANNELS) c.idx = true)
    (ha : (s.chan c).active = .normal) (hq : 1 < (s.chan c).queues.length) (hl : ((s.chan c).queues.getD 1 []).length < 4) (reason : Nat) :
    ∃ f, ((s.sendTime reason).chan c).queues.getD 1 [] = (s.chan c).queues.getD 1 [] ++ [f] ∧ f.f.id = s.ownId 2 := by
  unfold State.sendTime
  obtain ⟨u, hu, he⟩ := foldEnqueue_queue (q := 1) (g := fun t c => plainFrame (t.ownId 0x2) (t.fdOn c) (t.timeData (t.fdOn c) reason))
    (normalIn_nodup _) (mem_normalIn hb ha) ha hs hq hl
  exact ⟨_, he, ownId_congr hu _⟩

/-! ### Network commands -/

/-- The pilot takes a network command: the rest waits, and the commands that do not act are counted. -/
def State.netTaken (s : State) (c : Bus) (rest : List RxFrame) : State :=
  (s.drainFifo c).setChan c { (s.drainFifo c).chan c with rx := rest }

theorem drainFifo_chan (s : State) (c : Bus) : (s.drainFifo c).chan c =
    { s.chan c with rx := (s.chan c).rx.filter fun r => s.isNet r.f && s.netActs r.f } := chan_setChan_self _ _

theorem takeNet_next {r : RxFrame} {rest : List RxFrame} (h : s.nextNet c r rest) {code : Nat} (hc : r.f.data.getD 0 0 = code) :
    s.takeNet c code = some (r.f, s.netTaken c rest) := by
  obtain ⟨ho, ht, hs, hf⟩ := h
  have hrx : ((s.drainFifo c).chan c).rx = r :: rest := by
    rw [drainFifo_chan]
    exact hf
  unfold State.takeNet
  rw [if_neg (by rw [Option.isNone_iff_eq_none, ht, hs]; simp [ho])]
  dsimp only
  rw [hrx]
  exact if_pos hc

/-- What taking a network command leaves. -/
theorem netTaken_chan (s : State) (c : Bus) (rest : List RxFrame) : (s.netTaken c rest).chan c = { s.chan c with rx := rest } := by
  unfold State.netTaken
  rw [chan_setChan_self, drainFifo_chan]

theorem netTaken_other (s : State) (c : Bus) (rest : List RxFrame) : (s.netTaken c rest).chan c.other = s.chan c.other := by
  unfold State.netTaken
  rw [chan_setChan_other]
  exact chan_setChan_other _ _

/-- A channel asked to enter RESTRICTED, where it is NORMAL. -/
def State.quieten (s : State) (d : Bus) : State := if (s.chan d).active = .normal then s.setChan d ((s.chan d).ask .restricted) else s

theorem quieten_self (s : State) (d : Bus) : (s.quieten d).chan d = if (s.chan d).active = .normal then (s.chan d).ask .restricted else s.chan d := by
  unfold State.quieten
  split
  · exact chan_setChan_self _ _
  · rfl

theorem quieten_other (s : State) (d : Bus) : (s.quieten d).chan d.other = s.chan d.other := by
  unfold State.quieten
  split
  · exact chan_setChan_other _ _
  · rfl

theorem quieten_quiet (s : State) (d : Bus) : (s.quieten d).bus.quiet = s.bus.quiet := by
  unfold State.quieten
  split <;> rfl

/-- Both channels asked. -/
theorem quieten_both (s : State) (d : Bus) : ((s.quieten .one).quieten .two).chan d =
    if (s.chan d).active = .normal then (s.chan d).ask .restricted else s.chan d := by
  cases d
  · exact (quieten_other (s.quieten .one) .two).trans (quieten_self s .one)
  · rw [quieten_self, show (s.quieten .one).chan .two = s.chan .two from quieten_other s .one]

/-- A channel that returns to its `BUS_MODE` after QUIET. -/
def State.unquiet (s : State) (d : Bus) : State :=
  if (s.chan d).active = .off ∨ (s.chan d).probe.isSome = true ∨ (s.chan d).rateSuspect = true then s
  else s.setChan d ((s.chan d).ask (.ofCode (s.reg (Reg.BUS_MODE d.idx))))

theorem unquiet_self (s : State) (d : Bus) : (s.unquiet d).chan d =
    if (s.chan d).active = .off ∨ (s.chan d).probe.isSome = true ∨ (s.chan d).rateSuspect = true then s.chan d
    else (s.chan d).ask (.ofCode (s.reg (Reg.BUS_MODE d.idx))) := by
  unfold State.unquiet
  split
  · rfl
  · exact chan_setChan_self _ _

theorem unquiet_other (s : State) (d : Bus) : (s.unquiet d).chan d.other = s.chan d.other := by
  unfold State.unquiet
  split
  · rfl
  · exact chan_setChan_other _ _

theorem unquiet_kept (s : State) (d : Bus) : (s.unquiet d).bus.quiet = s.bus.quiet ∧ ∀ k, (s.unquiet d).reg k = s.reg k := by
  unfold State.unquiet
  split <;> exact ⟨rfl, fun _ => rfl⟩

/-- Both channels returned. -/
theorem unquiet_both (s : State) (d : Bus) : ((s.unquiet .one).unquiet .two).chan d =
    if (s.chan d).active = .off ∨ (s.chan d).probe.isSome = true ∨ (s.chan d).rateSuspect = true then s.chan d
    else (s.chan d).ask (.ofCode (s.reg (Reg.BUS_MODE d.idx))) := by
  cases d
  · exact (unquiet_other (s.unquiet .one) .two).trans (unquiet_self s .one)
  · rw [unquiet_self, show (s.unquiet .one).chan .two = s.chan .two from unquiet_other s .one, (unquiet_kept s .one).2]

/-! ### The commands -/

theorem deviceHeartbeat_rests (h : s.reg Reg.HB_PERIOD = 0 ∨ s.storm = true ∨ (s.hm.owner = none ∧ s.hm.takeover = none)) :
    Rests .deviceHeartbeat s := by
  refine congrArg Host.Outcome.next ?_
  by_cases h1 : s.reg Reg.HB_PERIOD = 0 ∨ s.storm = true
  · exact if_pos h1
  · obtain ⟨ho, ht⟩ := (or_assoc.mpr h).resolve_left h1
    rw [if_neg h1, if_neg (by rw [ht]; simp)]
    exact if_pos (by rw [ho]; rfl)

theorem exec_deviceHeartbeat_due {k : Takeover} (h0 : s.reg Reg.HB_PERIOD ≠ 0) (hs : s.storm = false) (ht : s.hm.takeover = some k)
    (hp : k.planned = false) : exec .deviceHeartbeat s = .next { s with bus := { s.bus with hbDue := true } } := by
  refine congrArg Host.Outcome.next ?_
  rw [if_neg (by rw [hs]; simp [h0]), if_pos (by rw [ht]; simp [hp])]

theorem exec_deviceHeartbeat_sends (h0 : s.reg Reg.HB_PERIOD ≠ 0) (hs : s.storm = false) (ht : s.hm.takeover = none) :
    exec .deviceHeartbeat s = .next s.sendHeartbeat := by
  refine congrArg Host.Outcome.next ?_
  rw [if_neg (by rw [hs]; simp [h0]), if_neg (by rw [ht]; simp)]

section Net
variable {r : RxFrame} {rest : List RxFrame} (h : s.nextNet c r rest)
include h

theorem exec_netHeartbeatNow (hc : r.f.data.getD 0 0 = 1) : exec (.netHeartbeatNow c) s = .next (s.netTaken c rest).sendHeartbeat := by
  refine congrArg Host.Outcome.next ?_
  rw [takeNet_next h hc]

theorem exec_netLockAll (hc : r.f.data.getD 0 0 = 2) : exec (.netLockAll c) s =
    .next ((s.netTaken c rest).withKlp { (s.netTaken c rest).klp with sessions := [] }) := by
  refine congrArg Host.Outcome.next ?_
  rw [takeNet_next h hc]

theorem exec_netQuiet (hc : r.f.data.getD 0 0 = 3) : exec (.netQuiet c) s =
    .next ((({ s.netTaken c rest with bus := { (s.netTaken c rest).bus with quiet := true } } : State).quieten .one).quieten .two) := by
  refine congrArg Host.Outcome.next ?_
  rw [takeNet_next h hc]
  rfl

theorem exec_netTimeRequest (hc : r.f.data.getD 0 0 = 4) : exec (.netTimeRequest c) s = .next ((s.netTaken c rest).sendTime 1) := by
  refine congrArg Host.Outcome.next ?_
  rw [takeNet_next h hc]

end Net

theorem netQuiet_holds {r : RxFrame} {rest : List RxFrame} (h : s.nextNet c r rest) (hc : r.f.data.getD 0 0 = 3) :
    Does (.netQuiet c) s [.klp, .bus] [] fun t => (t.chan c).rx = rest ∧ t.bus.quiet = true ∧
      ∀ d, ((s.chan d).active = .normal → (t.chan d).request = some .restricted) ∧
        ((s.chan d).active ≠ .normal → (t.chan d).request = (s.chan d).request) := by
  refine Does.of_only (execNetQuiet_only c s (by decide) .refl) (exec_netQuiet h hc) ?_
  generalize hu : ({ s.netTaken c rest with bus := { (s.netTaken c rest).bus with quiet := true } } : State) = u
  have huc (d : Bus) : u.chan d = (s.netTaken c rest).chan d := by rw [← hu]; rfl
  have hq : u.bus.quiet = true := by rw [← hu]
  have hsame (d : Bus) : (u.chan d).active = (s.chan d).active ∧ (u.chan d).request = (s.chan d).request := by
    rw [huc]
    rcases bus_eq_or_other c d with rfl | rfl
    · rw [netTaken_chan]
      exact ⟨rfl, rfl⟩
    · rw [netTaken_other]
      exact ⟨rfl, rfl⟩
  refine ⟨?_, ?_, fun d => ⟨fun ha => ?_, fun ha => ?_⟩⟩
  · have hrx : (u.chan c).rx = rest := by rw [huc, netTaken_chan]
    rw [quieten_both]
    split
    · exact hrx
    · exact hrx
  · rw [quieten_quiet, quieten_quiet, hq]
  · rw [quieten_both, if_pos ((hsame d).1.trans ha)]
    unfold Channel.ask
    dsimp only
    rw [(hsame d).1, ha, if_neg (by decide)]
  · rw [quieten_both, if_neg (by rwa [(hsame d).1]), (hsame d).2]

theorem quietEnd_holds (h : s.bus.quiet = true) : Does .quietEnd s [.bus] [] fun t => t.bus.quiet = false ∧
    ∀ d, (((s.chan d).active = .off ∨ (s.chan d).probe ≠ none ∨ (s.chan d).rateSuspect = true) → t.chan d = s.chan d) ∧
      ((s.chan d).active ≠ .off → (s.chan d).probe = none → (s.chan d).rateSuspect = false → t.chan d = { s.chan d with
        request := if ChMode.ofCode (s.reg (Reg.BUS_MODE d.idx)) = (s.chan d).active then none
          else some (.ofCode (s.reg (Reg.BUS_MODE d.idx))) }) := by
  generalize hu : ({ s with bus := { s.bus with quiet := false } } : State) = u
  have hx : exec .quietEnd s = .next ((u.unquiet .one).unquiet .two) := by
    rw [← hu]
    exact congrArg Host.Outcome.next (if_pos h)
  have huc (d : Bus) : u.chan d = s.chan d := by rw [← hu]; rfl
  have hur (k : Nat) : u.reg k = s.reg k := by rw [← hu]; rfl
  refine Does.of_only (execQuietEnd_only s (by decide) .refl) hx ⟨?_, fun d => ⟨fun hd => ?_, fun h1 h2 h3 => ?_⟩⟩
  · rw [(unquiet_kept _ _).1, (unquiet_kept _ _).1, ← hu]
  · rw [unquiet_both, huc]
    exact if_pos (hd.imp_right fun h => h.imp_left Option.isSome_iff_ne_none.mpr)
  · rw [unquiet_both, huc, hur, if_neg (by rw [h2, h3]; simp [h1])]
    rfl

/-- Settles O47: the breakwater's two timers, the heartbeat, and the command that each network command takes from the FIFO. -/
theorem busTimers : Obligations.BusTimers := by
  refine ⟨fun n s h => ⟨fun hp => ?_, fun e he hn hl => bwHoldExpiry_releases h he hn hl⟩, fun s h hl => bwSummary_holds h hl,
    fun s => ⟨fun h => deviceHeartbeat_rests h, fun k h0 hs ht hp => ?_, fun h0 ho hs ht => ?_⟩,
    fun c r rest s h => ⟨fun hc => ?_, fun hc => ?_, fun hc => netQuiet_holds h hc, fun hc => ?_⟩, fun s h => quietEnd_holds h⟩
  · exact ⟨_, exec_bwHoldExpiry_quiet h hp, withBw_only _ _ (by decide) .refl, rfl⟩
  · exact Does.of_only (execDeviceHeartbeat_only s (by decide) .refl) (exec_deviceHeartbeat_due h0 hs ht hp) rfl
  · exact Does.of_only (execDeviceHeartbeat_only s (by decide) .refl) (exec_deviceHeartbeat_sends h0 hs ht)
      ⟨(sendHeartbeat_channelsOnly s).bus, fun c hb ha hq hl => sendHeartbeat_queue ho hs hb ha hq hl⟩
  · refine Does.of_only (execNetHeartbeatNow_only c s (by decide) .refl) (exec_netHeartbeatNow h hc) ⟨?_, fun hb ha hq hl => ?_⟩
    · rw [(sendHeartbeat_channelsOnly _).rx, netTaken_chan]
    · obtain ⟨ho, -, hs, -⟩ := h
      obtain ⟨f, hf, hid, -⟩ := sendHeartbeat_queue (s := s.netTaken c rest) (c := c) ho hs hb (by rw [netTaken_chan]; exact ha)
        (by rw [netTaken_chan]; exact hq) (by rw [netTaken_chan]; exact hl)
      rw [netTaken_chan] at hf
      exact ⟨f, hf, hid⟩
  · refine Does.of_only (execNetLockAll_only c s (by decide) .refl) (exec_netLockAll h hc) ⟨?_, rfl⟩
    exact congrArg Channel.rx (netTaken_chan s c rest)
  · refine Does.of_only (execNetTimeRequest_only c s (by decide) .refl) (exec_netTimeRequest h hc) ⟨?_, fun hb ha hq hl => ?_⟩
    · rw [(sendTime_channelsOnly _ _).rx, netTaken_chan]
    · obtain ⟨-, -, hs, -⟩ := h
      obtain ⟨f, hf, hid⟩ := sendTime_queue (s := s.netTaken c rest) (c := c) hs hb (by rw [netTaken_chan]; exact ha)
        (by rw [netTaken_chan]; exact hq) (by rw [netTaken_chan]; exact hl) 1
      rw [netTaken_chan] at hf
      exact ⟨f, hf, hid⟩

end Sys2Proof.Machine
end

section
/-!
PROOF. READ, WRITE and IRQ_CLEAR (R386, R388 to R390, R404, R408, R425).
-/
namespace Sys2Proof.Machine

variable {s t : State} {a : Ask} {w : Wr}

/-! ### READ -/

/-- A served READ that fails a check is answered with its status. -/
theorem klpRead_checked {st : Status} (h : s.serves (askRequest a opRead)) (hc : checkRead (askRequest a opRead) = some st) :
    Does (.klpRead a) s [.klp] [] fun t => t.klp = (s.answered (askRequest a opRead) st []).klp := by
  refine ⟨_, congrArg Host.Outcome.next ((request_served h _ _).trans ?_), answered_only (askRequest a opRead) st [], rfl⟩
  rw [hc]
  rfl

/-- A served READ that passes the checks is answered with what its run gives. -/
theorem klpRead_passed {u : State} {st : Status} {data : List Nat} (h : s.serves (askRequest a opRead))
    (hc : checkRead (askRequest a opRead) = none)
    (hr : (s.taken (askRequest a opRead)).readRun (askRequest a opRead) = (st, data, u)) :
    exec (.klpRead a) s = .next (u.answer (askRequest a opRead) st data) := by
  refine congrArg Host.Outcome.next ((request_served h _ _).trans ?_)
  rw [hc, hr]

theorem checkRead_noObject {q : Request} (h : findEntry q.key = none) : checkRead q = some .noObject := by
  unfold checkRead
  rw [h]

theorem checkRead_of {q : Request} {e : Entry} (h : findEntry q.key = some e) : checkRead q =
    if readForbidden q.key then some .access else if e.ty = .domain ∨ q.data ≠ [] then some .type else none := by
  unfold checkRead
  rw [h]

theorem findEntry_readForbidden {key : Nat} (h : readForbidden key = true) : (findEntry key).isSome = true := by
  rcases Bool.or_eq_true_iff.mp h with h | h <;> rw [eq_of_beq h] <;> rfl

theorem checkRead_forbidden {q : Request} (h : readForbidden q.key = true) : checkRead q = some .access := by
  obtain ⟨e, he⟩ := Option.isSome_iff_exists.mp (findEntry_readForbidden h)
  rw [checkRead_of he, if_pos h]

theorem checkRead_passes {q : Request} {e : Entry} (h : findEntry q.key = some e) (hf : readForbidden q.key = false)
    (hd : e.ty ≠ .domain) (ha : q.data = []) : checkRead q = none := by
  rw [checkRead_of h, hf, if_neg Bool.false_ne_true]
  exact if_neg (not_or.mpr ⟨hd, not_not_intro ha⟩)

theorem deliver_responded (t : State) (r : Resp) : (t.deliver r).responded r := by
  unfold State.deliver State.responded
  split
  · split <;> simp
  · simp

theorem answer_responded (t : State) (q : Request) (st : Status) (data : List Nat) :
    (t.answer q st data).responded (respTo q st data) := deliver_responded _ _

theorem entryBytes_of {key : Nat} {e : Entry} (h : findEntry key = some e) (id : Nat) :
    s.entryBytes id key = leBytes e.ty.bytes (s.entryValue id key) := by
  unfold State.entryBytes
  rw [h]

theorem afterRead_other {key : Nat} (h0 : key ≠ Reg.BUS_STATUS 0) (h1 : key ≠ Reg.BUS_STATUS 1) : s.afterRead key = s :=
  (if_neg h0).trans (if_neg h1)

/-! ### IRQ_CLEAR -/

/-- Only the bits of the list that are set in the mask are cleared. -/
theorem bitAt_foldClear (v i : Nat) (l : List Nat) : ∀ x, bitAt (l.foldl (fun x j => if j ≠ 0 ∧ bitAt v j = true then bitOff x j else x) x) i =
    (bitAt x i && !(decide (i ∈ l ∧ i ≠ 0) && bitAt v i)) := by
  induction l with
  | nil => simp
  | cons j l ih =>
    intro x
    rw [List.foldl_cons, ih]
    by_cases hj : j ≠ 0 ∧ bitAt v j = true
    · rw [if_pos hj]
      by_cases hi : i = j
      · subst hi
        simp [bitAt_bitOff_self, hj]
      · simp [bitAt_bitOff_ne hi, hi]
    · rw [if_neg hj]
      by_cases hi : i = j
      · subst hi
        have : (decide (i ≠ 0) && bitAt v i) = false := by simpa using hj
        by_cases h0 : i = 0 <;> simp_all
      · simp [hi]

/-- Delivering a response neither reads nor changes the interrupt status. -/
theorem deliver_withIrq {u : State} {x : Nat} (r : Resp) (h : t.klp = { u.klp with irq := x }) :
    (t.deliver r).klp = { (u.deliver r).klp with irq := x } := by
  have hf : t.klp.fifo = u.klp.fifo := by rw [h]
  unfold State.deliver
  cases r.req.port with
  | can c => simp only [h]
  | spi =>
    dsimp only
    rw [hf]
    split <;> simp only [h]

theorem answer_withIrq (u : State) (x : Nat) (q : Request) (st : Status) (data : List Nat) :
    ((u.withKlp { u.klp with irq := x }).answer q st data).klp = { (u.answer q st data).klp with irq := x } := by
  unfold State.answer
  refine deliver_withIrq _ ?_
  split <;> rfl

theorem irqClear_bits (s : State) (v i : Nat) : bitAt (irqClearRule s v).2.klp.irq i =
    (bitAt s.klp.irq i && !(decide (1 ≤ i ∧ i < 8) && bitAt v i)) := by
  refine (bitAt_foldClear v i _ _).trans ?_
  simp only [List.mem_range, Nat.one_le_iff_ne_zero, and_comm]

theorem answered_irq (u : State) (q : Request) (st : Status) (data : List Nat) : (u.answered q st data).klp.irq = u.klp.irq :=
  (congrArg (fun k : Klp => k.irq) (answer_withIrq (u.taken q) u.klp.irq q st data) :)

theorem taken_only (q : Request) : OnlyIn [.klp] [] s (s.taken q) :=
  touch_only _ _ (by decide) (dequeue_only _ _ (by decide) .refl)

theorem exec_irqClearWrite (h : s.accepts w Reg.IRQ_CLEAR) : exec (.irqClearWrite w) s = .next
    ((s.withKlp { s.klp with irq := (irqClearRule s w.val).2.klp.irq }).answered (wrRequest w Reg.IRQ_CLEAR) .ok []) :=
  congrArg Host.Outcome.next (ledgerWrite_accepted h irqClearRule)

/-- Settles O48: a request runs its checks, then its rule. -/
theorem entryRequests : Obligations.EntryRequests := by
  refine ⟨fun a s hs => ⟨fun h => ?_, fun h => ?_, fun e he hf => ⟨fun h => ?_, fun hd ha => ⟨fun hz => ?_, fun hz => ?_⟩⟩⟩,
    fun key s w h hr => ⟨fun hv => ?_, fun hv hp => ?_⟩,
    fun s w => ⟨rfl, rfl, rfl, rfl, rfl, rfl, fun c => ?_⟩, fun s w h => ?_⟩
  · exact klpRead_checked hs (checkRead_noObject h)
  · exact klpRead_checked hs (checkRead_forbidden h)
  · refine klpRead_checked hs ?_
    rw [checkRead_of he, hf, if_neg Bool.false_ne_true]
    exact if_pos h
  · exact ⟨_, klpRead_passed hs (checkRead_passes he hf hd ha) (if_pos hz), answered_only (askRequest a opRead) .uncorrectable [], rfl⟩
  · refine ⟨_, klpRead_passed hs (checkRead_passes he hf hd ha) (if_neg (Bool.not_eq_true _ ▸ hz)), ?_, ?_, fun h0 h1 => ?_⟩
    · exact answer_only _ _ _ _ (by decide) (afterRead_only _ _ (by decide) ((taken_only _).mono (by decide)))
    · rw [entryBytes_of he]
      exact answer_responded _ _ _ _
    · rw [afterRead_other h0 h1, answer_eq]
      rfl
  · have hr' : ∀ s : State, entryRule w.req key s w.val = (.range, s) := fun s => by
      rw [hr]
      exact plainRule_neg fun h => nomatch hv.symm.trans h
    exact ⟨.rule rfl h (hr' _), .rule rfl h (hr' _)⟩
  · have hr' : ∀ s : State, entryRule w.req key s w.val = s.putEntry key w.val := fun s => by
      rw [hr]
      exact plainRule_pos hv
    exact ⟨.rule rfl h hp (hr' _), .rule rfl h hp (hr' _)⟩
  · cases c <;> rfl
  · refine ⟨_, exec_irqClearWrite h, ?_, ?_, fun i => ?_⟩
    · exact answer_only _ _ _ _ (by decide) (touch_only _ _ (by decide) (dequeue_only _ _ (by decide)
        (withKlp_only _ _ (by decide) .refl)))
    · rw [answered_irq]
      exact answer_withIrq (s.taken (wrRequest w Reg.IRQ_CLEAR)) _ _ _ _
    · rw [answered_irq]
      exact irqClear_bits s w.val i

end Sys2Proof.Machine
end

section
/-!
PROOF. Segmented transfers and streams (R399 to R401).
-/
namespace Sys2Proof.Machine

variable {s t : State} {a : Ask} {q : Request}

/-! ### Requests that reach their own rule -/

/-- A served request that passes its checks is answered with what its run gives. -/
theorem Does.passed {i : Instr} {pre : State → Option Status} {run : State → Status × List Nat × State} {u : State} {st : Status}
    {data : List Nat} {l : List Piece} {ks : List Nat} {p : State → Prop} (he : exec i s = .next (s.request q pre run))
    (hs : s.serves q) (hp : pre (s.taken q) = none) (hr : run (s.taken q) = (st, data, u))
    (hf : OnlyIn (.klp :: l) ks (s.taken q) u) (h : p (u.answer q st data)) : Does i s (.klp :: l) ks p := by
  refine ⟨u.answer q st data, ?_, ?_, h⟩
  · rw [he, request_served hs, hp, hr]
  · exact answer_only _ _ _ _ (by simp [frameSub]) (((taken_only q).mono (by simp [frameSub])).trans hf)

/-- One whose run refuses it changes nothing but the ledger engine. -/
theorem Does.refused {i : Instr} {pre : State → Option Status} {run : State → Status × List Nat × State} {st : Status}
    (he : exec i s = .next (s.request q pre run)) (hs : s.serves q) (hp : pre (s.taken q) = none)
    (hr : run (s.taken q) = (st, [], s.taken q)) : Does i s [.klp] [] fun t => t.klp = (s.answered q st []).klp :=
  .passed he hs hp hr .refl rfl

/-! ### The list of open transfers -/

theorem deliver_transfers (t : State) (r : Resp) : (t.deliver r).klp.transfers = t.klp.transfers := by
  unfold State.deliver
  split
  · split <;> rfl
  · rfl

theorem answer_transfers (t : State) (q : Request) (st : Status) (data : List Nat) :
    (t.answer q st data).klp.transfers = t.klp.transfers := by
  refine (deliver_transfers _ _).trans ?_
  split <;> rfl

theorem transferOf_eq {t u : State} (h : t.klp.transfers = u.klp.transfers) (id key : Nat) (write : Bool) :
    t.transferOf id key write = u.transferOf id key write := by
  unfold State.transferOf
  rw [h]

theorem transferOf_answer (t : State) (st : Status) (data : List Nat) (id key : Nat) (write : Bool) :
    (t.answer q st data).transferOf id key write = t.transferOf id key write :=
  transferOf_eq (answer_transfers t q st data) id key write

/-- The transfer of a requester, an object and a direction bears their names. -/
theorem transferOf_names {id key : Nat} {write : Bool} {x : Transfer} (h : s.transferOf id key write = some x) :
    x.id = id ∧ x.key = key ∧ x.write = write := by
  have := List.find?_some h
  simpa [and_assoc] using this

theorem transferOf_drop {x : Transfer} : (s.dropTransfer x).transferOf x.id x.key x.write = none := by
  refine List.find?_eq_none.mpr fun y hy h => ?_
  have := (List.mem_filter.mp hy).2
  rw [h] at this
  exact Bool.false_ne_true this

theorem transferOf_put {x : Transfer} : (s.putTransfer x).transferOf x.id x.key x.write = some x := by
  refine (List.find?_append ..).trans ?_
  rw [show (s.dropTransfer x).klp.transfers.find? _ = none from transferOf_drop]
  simp

/-- The answer leaves the transfer that was put. -/
theorem transferOf_put_answer {x : Transfer} {id key : Nat} {write : Bool} {st : Status} {data : List Nat}
    (h : x.id = id ∧ x.key = key ∧ x.write = write) :
    ((s.putTransfer x).answer q st data).transferOf id key write = some x := by
  obtain ⟨rfl, rfl, rfl⟩ := h
  exact (transferOf_answer _ _ _ _ _ _).trans transferOf_put

theorem putTransfer_klp (s : State) (x : Transfer) : OnlyIn [.klp] [] s (s.putTransfer x) := putTransfer_only _ _ (by decide) .refl

/-! ### Transfers that end -/

/-- The parts of a transfer's end, put back as they were, are the state. -/
theorem unended {l : List Transfer} {o : List Nat} {b c : Bool} (hl : l = s.klp.transfers) (ho : o = s.cal.openBands)
    (hb : b = false) (hc : c = false) : ({ s with
      klp := { s.klp with transfers := l }
      cal := { s.cal with openBands := o, chamber := if b then .empty else s.cal.chamber }
      slip := if c then { s.slip with state := 0, image := [], started := false } else s.slip } : State) = s := by
  subst hl ho hb hc
  rfl

/-- What is not there does not end. -/
theorem endTransfers_none {p : Transfer → Bool} (h : ∀ x ∈ s.klp.transfers, p x = false) : s.endTransfers p = s := by
  have hg : s.klp.transfers.filter p = [] := List.filter_eq_nil_iff.mpr fun x hx => by rw [h x hx]; exact Bool.false_ne_true
  have hk : s.klp.transfers.filter (fun x => !p x) = s.klp.transfers := List.filter_eq_self.mpr fun x hx => by rw [h x hx]; rfl
  unfold State.endTransfers
  extract_lets gone bands open1 spare image
  have hbands : bands = [] := congrArg (List.filterMap Transfer.band) hg
  have hopen : open1 = s.cal.openBands := List.filter_eq_self.mpr fun b _ => by rw [hbands]; rfl
  have hspare : spare = false := by
    unfold spare
    rw [hbands]
    rfl
  have himage : image = false := by
    unfold image gone
    rw [hg, List.any_nil, Bool.and_false]
  exact unended hk hopen hspare himage

theorem mem_endTransfers {p : Transfer → Bool} {x : Transfer} :
    x ∈ (s.endTransfers p).klp.transfers ↔ x ∈ s.klp.transfers ∧ p x = false := by
  refine List.mem_filter.trans (and_congr_right fun _ => ?_)
  cases p x <;> decide

/-- With a segment in the last 10 s no transfer is abandoned. -/
theorem expireTransfers_taken (h : ∀ x ∈ s.klp.transfers, s.now ≤ x.last + 10 * clkSec) :
    (s.taken q).expireTransfers = s.taken q :=
  endTransfers_none fun x hx => decide_eq_false (Nat.not_lt.mpr (h x hx))

/-! ### Reads -/

/-- A new read transfer of an object. -/
def State.readTransfer (s : State) (q : Request) (v : View) : Transfer :=
  { id := q.req.id, port := q.req.port, key := q.key, write := false, length := v.length, pos := 0, lastOff := none, last := s.now
    data := if snapshotRead q.key then v.slice 0 v.length else [], snap := snapshotRead q.key }

theorem segReadStartRun_busy {v : View} (he : s.expireTransfers = s) (hv : s.view q.req.id q.key = some v)
    (h : s.transferOf q.req.id q.key false = none) (hf : s.transfersFull q.req.id = true) :
    s.segReadStartRun q = (.busy, [], s) := by
  unfold State.segReadStartRun
  simp [he, hv, h, hf]

theorem segReadStartRun_open {v : View} (he : s.expireTransfers = s) (hv : s.view q.req.id q.key = some v)
    (h : s.transferOf q.req.id q.key false ≠ none ∨ s.transfersFull q.req.id = false) :
    s.segReadStartRun q = (.ok, leBytes 4 v.length, s.putTransfer (s.readTransfer q v)) := by
  have hn : ¬((s.transferOf q.req.id q.key false).isNone && s.transfersFull q.req.id) = true := by
    rcases h with h | h
    · simp [h]
    · simp [h]
  unfold State.segReadStartRun
  simp only [he, hv, if_neg hn]
  rfl

theorem segReadRun_none (he : s.expireTransfers = s) (h : s.transferOf q.req.id q.key false = none) :
    s.segReadRun q = (.state, [], s) := by
  unfold State.segReadRun
  simp [he, h]

theorem segReadRun_range {x : Transfer} (he : s.expireTransfers = s) (h : s.transferOf q.req.id q.key false = some x)
    (hl : x.length ≤ leValue (q.data.take 4)) : s.segReadRun q = (.range, [], s.putTransfer { x with last := s.now }) := by
  unfold State.segReadRun
  simp only [he, h, if_pos hl]

theorem objectSlice_snap {x : Transfer} {id key : Nat} (h : s.transferOf id key false = some x) (hs : x.snap = true) (off n : Nat) :
    s.objectSlice id key off n = (x.data.drop off).take n := by
  unfold State.objectSlice
  simp only [h]
  exact if_pos hs

theorem segReadRun_snap {x : Transfer} (he : s.expireTransfers = s) (h : s.transferOf q.req.id q.key false = some x)
    (hl : leValue (q.data.take 4) < x.length) (hb : s.readBad q.key (leValue (q.data.take 4))
      (min (min (leValue (q.data.drop 4)) (maxRead q.req.port)) (x.length - leValue (q.data.take 4))) = false) (hs : x.snap = true) :
    s.segReadRun q = (.ok, (x.data.drop (leValue (q.data.take 4))).take (min (leValue (q.data.drop 4)) (maxRead q.req.port)),
      (s.putTransfer { x with last := s.now }).afterSlice q.key 4096) := by
  unfold State.segReadRun
  simp only [he, h, if_neg (Nat.not_le.mpr hl), hb, Bool.false_eq_true, if_false, objectSlice_snap h hs]

/-! ### Writes -/

/-- A new write transfer of an object. -/
def State.writeTransfer (s : State) (q : Request) : Transfer :=
  { id := q.req.id, port := q.req.port, key := q.key, write := true, length := leValue q.data, pos := 0, lastOff := none
    last := s.now, data := [], snap := false }

/-- A write transfer opens; that of an image opens the slipway. -/
def State.writeOpened (s : State) (q : Request) : State :=
  if q.key = Reg.SLIP_IMAGE then (s.putTransfer (s.writeTransfer q)).slipOpen else s.putTransfer (s.writeTransfer q)

theorem writeOpened_only (q : Request) : OnlyIn [.klp, .slip] [] s (s.writeOpened q) := by
  unfold State.writeOpened
  split
  · exact slipOpen_only _ (by decide) (putTransfer_only _ _ (by decide) .refl)
  · exact putTransfer_only _ _ (by decide) .refl

theorem transferOf_writeOpened : (s.writeOpened q).transferOf q.req.id q.key true = some (s.writeTransfer q) := by
  refine Eq.trans ?_ (transferOf_put (s := s) (x := s.writeTransfer q))
  unfold State.writeOpened
  split <;> rfl

theorem segWriteStartRun_busy (he : s.expireTransfers = s) (h : s.openBusy q.req.id q.key = true) :
    s.segWriteStartRun q = (.busy, [], s) := by
  unfold State.segWriteStartRun
  simp only [he, h, if_true]

theorem segWriteStartRun_range {lo hi : Nat} (he : s.expireTransfers = s) (h : s.openBusy q.req.id q.key = false)
    (hw : writeLimits q.key = some (lo, hi)) (hf : within lo hi (leValue q.data) = false) :
    s.segWriteStartRun q = (.range, [], s) := by
  unfold State.segWriteStartRun
  simp only [he, h, hw, hf, Bool.false_eq_true, if_false, if_true]

theorem segWriteStartRun_open {lo hi : Nat} (he : s.expireTransfers = s) (h : s.openBusy q.req.id q.key = false)
    (hw : writeLimits q.key = some (lo, hi)) (hf : within lo hi (leValue q.data) = true) :
    s.segWriteStartRun q = (.ok, leBytes 2 (maxWrite q.req.port), s.writeOpened q) := by
  unfold State.segWriteStartRun
  simp only [he, h, hw, hf, Bool.false_eq_true, if_false, Bool.true_eq_false]
  rfl

theorem segWriteRun_none (he : s.expireTransfers = s) (h : s.transferOf q.req.id q.key true = none) :
    s.segWriteRun q = (.state, [], s) := by
  unfold State.segWriteRun
  simp [he, h]

theorem segWriteRun_long {x : Transfer} (he : s.expireTransfers = s) (h : s.transferOf q.req.id q.key true = some x)
    (ho : leValue (q.data.take 4) = x.pos) (hl : x.length < x.pos + (q.data.drop 4).length) :
    s.segWriteRun q = (.range, [], s.putTransfer { x with last := s.now }) := by
  unfold State.segWriteRun
  simp only [he, h, if_pos ho, if_pos hl]

theorem segWriteRun_repeat {x : Transfer} (he : s.expireTransfers = s) (h : s.transferOf q.req.id q.key true = some x)
    (ho : leValue (q.data.take 4) ≠ x.pos) (hl : x.lastOff = some (leValue (q.data.take 4))) :
    s.segWriteRun q = (.ok, [], s.putTransfer { x with last := s.now }) := by
  unfold State.segWriteRun
  simp only [he, h, if_neg ho, if_pos hl]

theorem segWriteRun_elsewhere {x : Transfer} (he : s.expireTransfers = s) (h : s.transferOf q.req.id q.key true = some x)
    (ho : leValue (q.data.take 4) ≠ x.pos) (hl : x.lastOff ≠ some (leValue (q.data.take 4))) :
    s.segWriteRun q = (.range, [], s.putTransfer { x with last := s.now }) := by
  unfold State.segWriteRun
  simp only [he, h, if_neg ho, if_neg hl]

theorem segWriteRun_lands {x : Transfer} {st : Status} {u : State} (he : s.expireTransfers = s)
    (h : s.transferOf q.req.id q.key true = some x) (ho : leValue (q.data.take 4) = x.pos)
    (hl : x.pos + (q.data.drop 4).length ≤ x.length) (hr : s.landSegment x x.pos (q.data.drop 4) = (st, u)) :
    s.segWriteRun q = (st, [], u) := by
  unfold State.segWriteRun
  simp only [he, h, if_neg (Nat.not_lt.mpr hl), ho, hr, if_true]

/-- An object without a staging of its own collects its bytes in the transfer. -/
theorem stageSegment_plain {x : Transfer} (h1 : x.key ≠ Reg.COEF_PLANE) (h2 : x.key ≠ Reg.SLIP_IMAGE) (h3 : x.key ≠ Reg.OFFSET_LOAD)
    (bytes : List Nat) : s.stageSegment x bytes = (none, { x with data := x.data ++ bytes }, s) :=
  ((if_neg h1).trans (if_neg h2)).trans (if_neg fun h => h3 h.1)

theorem restoreActive_other {key : Nat} (h : key ≠ Reg.OFFSET_LOAD) : s.restoreActive key = s := by
  unfold State.restoreActive
  simp only [if_neg h]
  split <;> rfl

/-- The transfer with the next segment staged. -/
def Transfer.staged (x : Transfer) (bytes : List Nat) (now : Nat) : Transfer :=
  { x with data := x.data ++ bytes, pos := x.pos + bytes.length, lastOff := some x.pos, last := now }

theorem landSegment_plain {x : Transfer} {bytes : List Nat} (h1 : x.key ≠ Reg.COEF_PLANE) (h2 : x.key ≠ Reg.SLIP_IMAGE)
    (h3 : x.key ≠ Reg.OFFSET_LOAD) (hl : x.pos + bytes.length < x.length) :
    s.landSegment x x.pos bytes = (.ok, s.putTransfer (x.staged bytes s.now)) := by
  unfold State.landSegment
  simp only [stageSegment_plain h1 h2 h3, if_neg (Nat.ne_of_lt hl), restoreActive_other h3]
  rfl

theorem landSegment_image {x : Transfer} {bytes : List Nat} (hk : x.key = Reg.PANEL_IMAGE) (hl : x.pos + bytes.length = x.length) :
    s.landSegment x x.pos bytes = (.ok, (s.dropTransfer x).writeImage (x.data ++ bytes)) := by
  have hp : s.stageSegment x bytes = (none, { x with data := x.data ++ bytes }, s) :=
    stageSegment_plain (by rw [hk]; decide) (by rw [hk]; decide) (by rw [hk]; decide) bytes
  unfold State.landSegment
  simp only [hp, if_pos hl]
  exact congrArg (fun k => (s.dropTransfer x).completeWrite x.id k (x.data ++ bytes)) hk

/-! ### Aborts and streams -/

/-- The requester's transfers of the object. -/
def Request.mine (q : Request) (x : Transfer) : Bool := x.id == q.req.id && x.key == q.key

theorem mine_iff {x : Transfer} : q.mine x = true ↔ x.id = q.req.id ∧ x.key = q.key := by
  simp [Request.mine]

theorem segAbortRun_open (he : s.expireTransfers = s) (h : s.klp.transfers.any q.mine = true) :
    s.segAbortRun q = (.ok, [], s.endTransfers q.mine) := by
  unfold State.segAbortRun
  rw [he]
  exact if_pos h

theorem segAbortRun_none (he : s.expireTransfers = s) (h : s.klp.transfers.any q.mine = false) :
    s.segAbortRun q = (.state, [], s) := by
  unfold State.segAbortRun
  rw [he]
  exact if_neg fun h' => Bool.false_ne_true (h.symm.trans h')

theorem exec_segStream {j : StreamJob} (h : s.streamJob (askRequest a opSegStream) = some j) : exec (.segStream a) s =
    .next ((s.taken (askRequest a opSegStream)).withKlp { (s.taken (askRequest a opSegStream)).klp with
      streams := s.klp.streams ++ [j] }) := by
  have he : exec (.segStream a) s = execSegStream a s := rfl
  rw [he]
  unfold execSegStream
  simp only [h]
  rfl

/-- A stream starts on an FD channel, at the offset of its request. -/
theorem streamJob_start {j : StreamJob} (h : s.streamJob q = some j) :
    s.reg (Reg.FD_ENABLE j.bus.idx) = 1 ∧ j.sent = 0 ∧ j.offset = leValue (q.data.take 4) := by
  unfold State.streamJob at h
  extract_lets off len at h
  split at h
  next => exact nomatch h
  next c hc =>
    split at h
    next hr =>
      obtain ⟨-, -, hr⟩ := hr
      rw [← Option.some.inj h]
      refine ⟨?_, rfl, rfl⟩
      unfold State.streamRefusal at hr
      rw [hc] at hr
      cases hf : s.fdOn c with
      | true => exact eq_of_beq hf
      | false => simp [hf] at hr
    next => exact nomatch h

theorem idle_iff {id key : Nat} {x : Transfer} : (x.id == id && x.key == key && s.waited x.last (10 * clkSec)) = false ↔
    ¬(x.id = id ∧ x.key = key ∧ x.last + 10 * clkSec ≤ s.now) := by
  rw [← Bool.not_eq_true, Bool.and_eq_true, Bool.and_eq_true, waited_iff, beq_iff_eq, beq_iff_eq, and_assoc]

/-! ### The obligation -/

/-- Settles O49: each operation of a transfer runs on the list of open transfers, from which none is abandoned meanwhile. -/
theorem transfers : Obligations.Transfers := by
  refine ⟨fun a v s hs hx hc hv => ⟨fun hn hf => ?_, fun h => ?_⟩,
    fun a s hs hx hc => ⟨fun hn => ?_, fun x hx' => ⟨fun hl => ?_, fun hl hb hsn => ?_⟩⟩,
    fun a s hs hx hc => ⟨fun hb => ?_, fun lo hi hw hb => ⟨fun hf => ?_, fun hf => ?_⟩⟩,
    fun a s hs hx hc => ⟨fun hn => ?_, fun x hx' => ⟨fun ho hl => ?_, fun ho hl => ?_, fun ho hl => ?_,
      fun ho h1 h2 h3 => ⟨fun hl => ?_, fun hl hk => ?_⟩⟩⟩,
    fun a s hs hx hc => ⟨fun h => ?_, fun h => ?_⟩,
    fun a j s hj => ?_, fun id key s => ?_⟩
  · exact .refused rfl hs hc (segReadStartRun_busy (expireTransfers_taken hx) hv hn hf)
  · refine .passed rfl hs hc (segReadStartRun_open (expireTransfers_taken hx) hv h) (putTransfer_klp _ _) ⟨answer_responded _ _ _ _, _,
      transferOf_put_answer ⟨rfl, rfl, rfl⟩, rfl, rfl, fun h => if_pos h⟩
  · exact .refused rfl hs hc (segReadRun_none (expireTransfers_taken hx) hn)
  · exact .passed rfl hs hc (segReadRun_range (expireTransfers_taken hx) hx' hl) (putTransfer_klp _ _) (answer_responded _ _ _ _)
  · exact .passed rfl hs hc (segReadRun_snap (expireTransfers_taken hx) hx' hl hb hsn)
      (afterSlice_only _ _ _ (by decide) (putTransfer_only _ _ (by decide) .refl)) (answer_responded _ _ _ _)
  · exact .refused rfl hs hc (segWriteStartRun_busy (expireTransfers_taken hx) hb)
  · exact .refused rfl hs hc (segWriteStartRun_range (expireTransfers_taken hx) hb hw hf)
  · exact .passed rfl hs hc (segWriteStartRun_open (expireTransfers_taken hx) hb hw hf) (writeOpened_only _)
      ⟨answer_responded _ _ _ _, _, (transferOf_answer _ _ _ _ _ _).trans transferOf_writeOpened, rfl, rfl, rfl⟩
  · exact .refused rfl hs hc (segWriteRun_none (expireTransfers_taken hx) hn)
  · exact .passed rfl hs hc (segWriteRun_long (expireTransfers_taken hx) hx' ho hl) (putTransfer_klp _ _) (answer_responded _ _ _ _)
  · obtain ⟨hi, hk, hw⟩ := transferOf_names hx'
    exact .passed rfl hs hc (segWriteRun_repeat (expireTransfers_taken hx) hx' ho hl) (putTransfer_klp _ _)
      ⟨answer_responded _ _ _ _, transferOf_put_answer ⟨hi, hk, hw⟩⟩
  · exact .passed rfl hs hc (segWriteRun_elsewhere (expireTransfers_taken hx) hx' ho hl) (putTransfer_klp _ _) (answer_responded _ _ _ _)
  · obtain ⟨hi, hk, hw⟩ := transferOf_names hx'
    rw [← hk] at h1 h2 h3
    exact .passed rfl hs hc (segWriteRun_lands (expireTransfers_taken hx) hx' ho (Nat.le_of_lt hl) (landSegment_plain h1 h2 h3 hl)) (putTransfer_klp _ _)
      ⟨answer_responded _ _ _ _, transferOf_put_answer ⟨hi, hk, hw⟩⟩
  · obtain ⟨hi, hk', hw⟩ := transferOf_names hx'
    refine .passed rfl hs hc (segWriteRun_lands (expireTransfers_taken hx) hx' ho (Nat.le_of_eq hl) (landSegment_image (hk'.trans hk) hl))
      (withPanel_only _ _ (by decide) (dropTransfer_only _ _ (by decide) .refl)) ⟨answer_responded _ _ _ _, ?_, ?_⟩
    · rw [← hi, ← hk', ← hw]
      exact (transferOf_answer _ _ _ _ _ _).trans (transferOf_drop (s := s.taken (askRequest a _)) (x := x))
    · rw [answer_eq]
      rfl
  · obtain ⟨x, hm, hi⟩ := h
    have ha : (s.taken (askRequest a opSegAbort)).klp.transfers.any (askRequest a opSegAbort).mine = true := List.any_eq_true.mpr ⟨x, hm, mine_iff.mpr hi⟩
    refine .passed rfl hs hc (segAbortRun_open (expireTransfers_taken hx) ha) (endTransfers_only _ _ (by decide) .refl) ⟨answer_responded _ _ _ _, fun x => ?_⟩
    rw [answer_transfers, mem_endTransfers, ← Bool.not_eq_true, mine_iff]
    rfl
  · have ha : (s.taken (askRequest a opSegAbort)).klp.transfers.any (askRequest a opSegAbort).mine = false :=
      List.any_eq_false.mpr fun x hm hq => h x hm (mine_iff.mp hq)
    exact .refused rfl hs hc (segAbortRun_none (expireTransfers_taken hx) ha)
  · exact ⟨_, exec_segStream hj, withKlp_only _ _ (by decide) (taken_only _), rfl, streamJob_start hj⟩
  · refine ⟨_, rfl, endTransfers_only _ _ (by decide) .refl, fun x => ?_⟩
    rw [mem_endTransfers, idle_iff]

end Sys2Proof.Machine
end

section
/-!
PROOF. Sessions and the small operations (R388, R402, R403, R405, R411).
-/
namespace Sys2Proof.Machine

variable {s t : State} {a : Ask} {q : Request}

/-- A served request that fails a check is answered with its status. -/
theorem Does.checked {i : Instr} {pre : State → Option Status} {run : State → Status × List Nat × State} {st : Status}
    (he : exec i s = .next (s.request q pre run)) (hs : s.serves q) (hp : pre (s.taken q) = some st) :
    Does i s [.klp] [] fun t => t.klp = (s.answered q st []).klp := by
  refine ⟨s.answered q st [], ?_, answered_only _ _ _, rfl⟩
  rw [he, request_served hs, hp]
  rfl

/-! ### Levels and keys -/

theorem deliver_sessions (t : State) (r : Resp) : (t.deliver r).klp.sessions = t.klp.sessions := by
  unfold State.deliver
  split
  · split <;> rfl
  · rfl

theorem deliver_unlockFails (t : State) (r : Resp) : (t.deliver r).klp.unlockFails = t.klp.unlockFails := by
  unfold State.deliver
  split
  · split <;> rfl
  · rfl

theorem deliver_masterHb (t : State) (r : Resp) : (t.deliver r).klp.masterHb = t.klp.masterHb := by
  unfold State.deliver
  split
  · split <;> rfl
  · rfl

theorem answer_unlockFails (t : State) (q : Request) (st : Status) (data : List Nat) :
    (t.answer q st data).klp.unlockFails = t.klp.unlockFails := by
  refine (deliver_unlockFails _ _).trans ?_
  split <;> rfl

theorem answer_masterHb (t : State) (q : Request) (st : Status) (data : List Nat) :
    (t.answer q st data).klp.masterHb = t.klp.masterHb := by
  refine (deliver_masterHb _ _).trans ?_
  split <;> rfl

theorem levelOf_congr {t u : State} (h : t.klp.sessions = u.klp.sessions) (id : Nat) : t.levelOf id = u.levelOf id := by
  unfold State.levelOf
  rw [h]

theorem levelOf_answer (t : State) (q : Request) (st : Status) (data : List Nat) (id : Nat) :
    (t.answer q st data).levelOf id = t.levelOf id := by
  refine levelOf_congr ((deliver_sessions _ _).trans ?_) id
  split <;> rfl

/-- What is filtered out by its name is not found, and what bears another name is found as before. -/
theorem find_filter_self {α : Type} (name : α → Nat) (n : Nat) (l : List α) :
    (l.filter fun x => !(name x == n)).find? (fun x => name x == n) = none := by
  refine List.find?_eq_none.mpr fun x hx h => ?_
  have := (List.mem_filter.mp hx).2
  rw [h] at this
  exact Bool.false_ne_true this

theorem find_filter_other {α : Type} (name : α → Nat) {m n : Nat} (h : m ≠ n) (l : List α) :
    (l.filter fun x => !(name x == n)).find? (fun x => name x == m) = l.find? fun x => name x == m := by
  rw [List.find?_filter]
  refine find?_of_agree fun x _ => ?_
  by_cases hx : name x = m
  · simp [hx, h]
  · simp [hx]

theorem levelOf_setLevel_self (id level : Nat) : (s.setLevel id level).levelOf id = level := by
  rw [State.levelOf_eq]
  unfold State.setLevel
  dsimp only
  by_cases h : level = 0
  · rw [if_pos h, find_filter_self Session.id, h]
    rfl
  · rw [if_neg h, List.find?_append, find_filter_self Session.id]
    simp

theorem levelOf_setLevel_other {m id : Nat} (h : m ≠ id) (level : Nat) : (s.setLevel id level).levelOf m = s.levelOf m := by
  rw [State.levelOf_eq, State.levelOf_eq]
  unfold State.setLevel
  dsimp only
  by_cases hl : level = 0
  · rw [if_pos hl, find_filter_other Session.id h]
  · rw [if_neg hl, List.find?_append, find_filter_other Session.id h]
    have : ([({ id := id, level := level, last := s.now } : Session)].find? fun x => x.id == m) = none := by
      simp [Ne.symm h]
    rw [this, Option.or_none]

theorem setLevel_klp (id level : Nat) : OnlyIn [.klp] [] s (s.setLevel id level) := setLevel_only _ _ _ (by decide) .refl

theorem length_sessions_taken : (s.taken q).klp.sessions.length = s.klp.sessions.length := List.length_map _

/-! ### UNLOCK -/

theorem unlockRun_range (hl : s.lockedOut q.req.id = false) (h : q.data.getD 0 0 < 1 ∨ 3 < q.data.getD 0 0) :
    s.unlockRun q = (.range, [], s) := by
  have hw : within 1 3 (q.data.getD 0 0) = false := by
    unfold within
    rcases h with h | h
    · rw [decide_eq_false (Nat.not_le.mpr h), Bool.false_and]
    · rw [decide_eq_false (p := _ ≤ 3) (Nat.not_le.mpr h), Bool.and_false]
  unfold State.unlockRun
  simp only [hl, hw, Bool.false_eq_true, if_false, if_true]

theorem within_level {n : Nat} (h1 : 1 ≤ n) (h3 : n ≤ 3) : within 1 3 n = true := by
  simp [within, h1, h3]

theorem unlockRun_wrong (hl : s.lockedOut q.req.id = false) (h1 : 1 ≤ q.data.getD 0 0) (h3 : q.data.getD 0 0 ≤ 3)
    (hk : q.data.drop 1 ≠ s.keyOf (q.data.getD 0 0)) : s.unlockRun q = (.access, [], s.wrongKey q.req.id) := by
  unfold State.unlockRun
  simp only [hl, within_level h1 h3, Bool.false_eq_true, Bool.true_eq_false, if_false, if_pos hk]

theorem unlockRun_full (hl : s.lockedOut q.req.id = false) (h1 : 1 ≤ q.data.getD 0 0) (h3 : q.data.getD 0 0 ≤ 3)
    (hk : q.data.drop 1 = s.keyOf (q.data.getD 0 0)) (hf : s.levelOf q.req.id = 0 ∧ 16 ≤ s.klp.sessions.length) :
    s.unlockRun q = (.busy, [], s) := by
  unfold State.unlockRun
  simp only [hl, within_level h1 h3, Bool.false_eq_true, Bool.true_eq_false, if_false, if_neg (not_not_intro hk), if_pos hf]

theorem unlockRun_opens (hl : s.lockedOut q.req.id = false) (h1 : 1 ≤ q.data.getD 0 0) (h3 : q.data.getD 0 0 ≤ 3)
    (hk : q.data.drop 1 = s.keyOf (q.data.getD 0 0)) (hf : ¬(s.levelOf q.req.id = 0 ∧ 16 ≤ s.klp.sessions.length)) :
    s.unlockRun q = (.ok, [q.data.getD 0 0], s.setLevel q.req.id (q.data.getD 0 0)) := by
  unfold State.unlockRun
  simp only [hl, within_level h1 h3, Bool.false_eq_true, Bool.true_eq_false, if_false, if_neg (not_not_intro hk), if_neg hf]

theorem exec_unlock (a : Ask) (s : State) : exec (.unlock a) s = .next (s.request (askRequest a opUnlock)
    (fun t => if t.lockedOut a.req.id then some .access else if a.data.length = 9 then none else some .type)
    fun t => t.unlockRun (askRequest a opUnlock)) := rfl

theorem unlock_passes (hl : s.lockedOut a.req.id = false) (hd : a.data.length = 9) :
    (if (s.taken q).lockedOut a.req.id then some Status.access else if a.data.length = 9 then none else some .type) = none := by
  rw [show (s.taken q).lockedOut a.req.id = false from hl, if_neg Bool.false_ne_true, if_pos hd]

theorem exec_unlockLockoutEnd {n : Nat} (h : (s.failsOf n).locked = true) (hl : s.lockedOut n = false) :
    exec (.unlockLockoutEnd n) s = .next (s.withKlp { s.klp with fails := s.klp.fails.filter fun f => !(f.id == n) }) :=
  congrArg Host.Outcome.next (if_pos (by rw [h, hl]; rfl))

/-! ### Sessions that end, heartbeats, manifests -/

theorem noData_nil (h : q.data = []) : noData q = none := if_pos h

theorem exec_sessionTimeout {n : Nat} {x : Session} (h : s.klp.sessions.find? (fun y => y.id == n) = some x)
    (hw : x.last + s.reg Reg.UNLOCK_TIMEOUT * clkSec ≤ s.now) : exec (.sessionTimeout n) s = .next (s.setLevel n 0) := by
  have he : exec (.sessionTimeout n) s = execSessionTimeout n s := rfl
  rw [he]
  unfold execSessionTimeout
  rw [h]
  exact congrArg Host.Outcome.next (if_pos (waited_iff.mpr hw))

/-- What a heartbeat of a requester does: the master's is kept. -/
def State.heardFrom (s : State) (id : Nat) : State :=
  if s.reg Reg.MASTER_SOURCE ≠ 0 ∧ s.reg Reg.MASTER_SOURCE = id then s.masterHeard else s

theorem heardFrom_only (id : Nat) : OnlyIn [.klp, .loop] [] s (s.heardFrom id) := by
  unfold State.heardFrom
  split
  · exact masterHeard_only _ (by decide) .refl
  · exact .refl

theorem heardFrom_master {id : Nat} (h : s.reg Reg.MASTER_SOURCE ≠ 0 ∧ s.reg Reg.MASTER_SOURCE = id) : s.heardFrom id = s.masterHeard :=
  if_pos h

theorem heardFrom_other {id : Nat} (h : s.reg Reg.MASTER_SOURCE ≠ id) : s.heardFrom id = s := if_neg fun h' => h h'.2

theorem exec_klpHeartbeat (a : Ask) (s : State) : exec (.klpHeartbeat a) s = .next (s.request (askRequest a opHeartbeat)
    (fun _ => noData (askRequest a opHeartbeat)) fun t => (.ok, [], t.heardFrom a.req.id)) := rfl

theorem loop_answer (t : State) (q : Request) (st : Status) (data : List Nat) : (t.answer q st data).loop = t.loop := by
  rw [answer_eq]

theorem exec_manifest_hm (h : s.serving a.req.port = .hmOnly) (hd : a.data = []) : exec (.manifest a) s =
    .next ((s.dequeue (askRequest a opManifest)).answer (askRequest a opManifest) .ok (s.manifest 0)) :=
  congrArg Host.Outcome.next (if_pos ⟨h, hd⟩)

/-- A port that the harbourmaster alone serves serves no request of its own rule. -/
theorem serving_ne_hmOnly (h : s.serves q) : s.serving q.req.port ≠ .hmOnly := by
  rcases h.1 with h | ⟨h, -⟩ | ⟨h, -⟩ <;> (rw [h]; decide)

theorem exec_manifest_served (h : s.serves (askRequest a opManifest)) : exec (.manifest a) s =
    .next (s.request (askRequest a opManifest) (fun _ => noData (askRequest a opManifest)) fun t => (.ok, t.manifest t.manifestWriter, t)) :=
  congrArg Host.Outcome.next (if_neg fun h' => serving_ne_hmOnly h h'.1)

/-- Settles O50: UNLOCK by its checks in their order, and the operations that only answer. -/
theorem sessions : Obligations.Sessions := by
  refine ⟨fun a s hs => ⟨fun hl hd => ?_, fun hl => ?_, fun hd hl => ⟨fun h => ?_, fun h1 h3 hk => ?_, fun h1 h3 hk =>
      ⟨fun h0 hf => ?_, fun hf => ?_⟩⟩⟩, fun n s h hl => ?_, fun a s hs hd => ?_, fun n x s hx hw => ?_, fun a s hs hd => ?_,
    fun a s hd => ⟨fun h => ?_, fun hs => ?_⟩, fun a s hs => ?_⟩
  · exact .checked (exec_unlock a s) hs ((if_neg (by rw [show (s.taken _).lockedOut _ = false from hl]; decide)).trans (if_neg hd))
  · exact .checked (exec_unlock a s) hs (if_pos hl)
  · exact .refused (exec_unlock a s) hs (unlock_passes hl hd) (unlockRun_range hl h)
  · refine .passed (exec_unlock a s) hs (unlock_passes hl hd) (unlockRun_wrong hl h1 h3 hk) (wrongKey_only _ _ (by decide) .refl)
      ⟨answer_responded _ _ _ _, answer_unlockFails _ _ _ _, ?_⟩
    exact (levelOf_answer _ _ _ _ _).trans (State.levelOf_taken (askRequest a opUnlock) _)
  · exact .refused (exec_unlock a s) hs (unlock_passes hl hd)
      (unlockRun_full hl h1 h3 hk ⟨(State.levelOf_taken _ _).trans h0, Nat.le_trans hf (Nat.le_of_eq length_sessions_taken.symm)⟩)
  · refine .passed (exec_unlock a s) hs (unlock_passes hl hd) (unlockRun_opens hl h1 h3 hk ?_) (setLevel_klp _ _)
      ⟨answer_responded _ _ _ _, (levelOf_answer _ _ _ _ _).trans (levelOf_setLevel_self _ _), fun n hn => ?_⟩
    · rintro ⟨h0, h16⟩
      rw [State.levelOf_taken] at h0
      rw [length_sessions_taken] at h16
      rcases hf with hf | hf
      · exact hf h0
      · omega
    · exact ((levelOf_answer _ _ _ _ _).trans (levelOf_setLevel_other hn _)).trans (State.levelOf_taken _ _)
  · refine ⟨_, exec_unlockLockoutEnd h hl, withKlp_only _ _ (by decide) .refl, ?_, fun m hm => ?_⟩
    · exact congrArg (fun o : Option KeyFails => (o.getD { id := n, times := [], locked := false }).locked)
        (find_filter_self KeyFails.id n s.klp.fails)
    · exact congrArg (fun o => Option.getD o _) (find_filter_other KeyFails.id hm s.klp.fails)
  · refine .passed rfl hs (noData_nil hd) rfl (setLevel_klp _ _)
      ⟨answer_responded _ _ _ _, (levelOf_answer _ _ _ _ _).trans (levelOf_setLevel_self _ _), fun n hn => ?_⟩
    exact ((levelOf_answer _ _ _ _ _).trans (levelOf_setLevel_other hn _)).trans (State.levelOf_taken _ _)
  · exact ⟨_, exec_sessionTimeout hx hw, setLevel_klp _ _, levelOf_setLevel_self _ _, fun m hm => levelOf_setLevel_other hm _⟩
  · refine .passed (exec_klpHeartbeat a s) hs (noData_nil hd) rfl (heardFrom_only _)
      ⟨answer_responded _ _ _ _, fun h => ?_, fun h => ?_⟩
    · rw [answer_masterHb, loop_answer, heardFrom_master (s := s.taken _) h]
      exact ⟨rfl, rfl⟩
    · rw [answer_masterHb, loop_answer, heardFrom_other (s := s.taken _) h]
      exact ⟨rfl, rfl⟩
  · exact ⟨_, exec_manifest_hm h hd, answer_only _ _ _ _ (by decide) (dequeue_only _ _ (by decide) .refl), answer_responded _ _ _ _⟩
  · exact .passed (exec_manifest_served hs) hs (noData_nil hd) rfl .refl (answer_responded _ _ _ _)
  · exact .passed rfl hs rfl rfl .refl rfl

end Sys2Proof.Machine
end

section
/-!
PROOF. The SPI ledger port and messages given up (R393 to R397).
-/
namespace Sys2Proof.Machine

variable {s t : State} {bytes m : List Nat} {n : Nat}

/-! ### Bytes and the check of a transaction -/

theorem leBytes_two (v : Nat) : leBytes 2 v = [v % 256, v / 256 % 256] := rfl

theorem u16At_leBytes (v : Nat) (l : List Nat) : u16At (leBytes 2 v ++ l) 0 = v % 65536 := by
  show v % 256 + 256 * (v / 256 % 256) = v % 65536
  omega

theorem leValue_leBytes_two (v : Nat) : leValue (leBytes 2 v) = v % 65536 := by
  show v % 256 % 256 + 256 * (v / 256 % 256 % 256 + 256 * 0) = v % 65536
  omega

theorem crcShift16_lt {poly : Nat} (hp : poly < 65536) (n c : Nat) (hc : c < 65536 ∨ 0 < n) : crcShift16 poly n c < 65536 := by
  induction n generalizing c with
  | zero => exact hc.resolve_right (Nat.lt_irrefl 0)
  | succ n ih =>
    refine ih _ (.inl ?_)
    split
    · exact Nat.xor_lt_two_pow (n := 16) (by omega) hp
    · omega

theorem crc16_lt (b : List Nat) : crc16 b < 65536 := by
  unfold crc16
  generalize hc : (0xFFFF : Nat) = c
  have h : c < 65536 := by omega
  clear hc
  induction b generalizing c with
  | nil => exact h
  | cons x b ih => exact ih _ (crcShift16_lt (by decide) 8 _ (.inr (by decide)))

/-! ### The request transaction -/

/-- The port answers: the clock runs, the rails stand and no window command holds the pins. -/
theorem portOpen (h : s.windowAnswers = true) (ho : s.nv.openWord = none) : (!s.windowAnswers || s.nv.openWord.isSome) = false := by
  rw [h, ho]
  rfl

theorem exec_spiRequestTransaction (h : s.windowAnswers = true) (ho : s.nv.openWord = none) (bytes : List Nat) :
    exec (.spiRequestTransaction (0xA5 :: bytes)) s = .next ((s.spiOutput (zeros bytes.length)).spiRequest (0xA5 :: bytes)) := by
  refine congrArg Host.Outcome.next ((if_neg ?_).trans (if_pos rfl))
  rw [portOpen h ho]
  exact Bool.false_ne_true

/-- The length and the message of a transaction, after its first byte. -/
theorem spiRequest_misfit (h : bytes.length ≠ 4 + u16At bytes 0 ∨ u16At bytes 0 < 8 ∨ 4104 < u16At bytes 0) :
    s.spiRequest (0xA5 :: bytes) = s.linkError 2 := by
  refine if_pos ?_
  show bytes.length + 1 ≠ 5 + u16At bytes 0 ∨ _
  refine h.imp (fun h => by omega) id

/-- A transaction of a message and a check of 16 bits. -/
def spiFrame (m : List Nat) (crc : Nat) : List Nat := leBytes 2 m.length ++ m ++ leBytes 2 crc

theorem length_spiFrame (m : List Nat) (crc : Nat) : (spiFrame m crc).length = m.length + 4 := by
  simp [spiFrame, leBytes_two]

theorem u16At_spiFrame (h : m.length ≤ 4104) (crc : Nat) : u16At (spiFrame m crc) 0 = m.length := by
  unfold spiFrame
  rw [List.append_assoc, u16At_leBytes]
  omega

theorem take_spiFrame (m : List Nat) (crc : Nat) : ((spiFrame m crc).drop 2).take m.length = m := by
  show (m ++ leBytes 2 crc).take m.length = m
  exact List.take_left

theorem crc_spiFrame (m : List Nat) (crc : Nat) : leValue (((spiFrame m crc).drop (2 + m.length)).take 2) = crc % 65536 := by
  have h : (spiFrame m crc).drop (2 + m.length) = leBytes 2 crc := by
    rw [← List.drop_drop]
    exact List.drop_left
  rw [h]
  exact leValue_leBytes_two crc

/-- What becomes of a message that passed its check: a broken one is an error, a request is accepted. -/
def State.requestTaken (s : State) : Option Request → State
  | none => s.linkError 2
  | some q => s.acceptRequest q

theorem spiRequest_frame (h8 : 8 ≤ m.length) (h : m.length ≤ 4104) (crc : Nat) : s.spiRequest (0xA5 :: spiFrame m crc) =
    if crc % 65536 ≠ crc16 (leBytes 2 m.length ++ m) then
      ({ s with klp := { s.klp with crcErrors := satInc 32 s.klp.crcErrors } } : State).linkError 1
    else if 8 ≤ s.klp.fifo.length then s.linkError 3
    else s.requestTaken (requestOf .spi 0 m) := by
  have hu : u16At (0xA5 :: spiFrame m crc) 1 = m.length := u16At_spiFrame h crc
  have hd : (0xA5 :: spiFrame m crc).drop (3 + m.length) = (spiFrame m crc).drop (2 + m.length) := by
    rw [show 3 + m.length = 2 + m.length + 1 by omega]
    rfl
  unfold State.spiRequest
  simp only [hu]
  rw [if_neg, hd, crc_spiFrame]
  · simp only [List.drop_succ_cons, take_spiFrame]
    cases requestOf .spi 0 m <;> rfl
  · rw [List.length_cons, length_spiFrame]
    omega

theorem spiRequest_good (h8 : 8 ≤ m.length) (h : m.length ≤ 4104) :
    s.spiRequest (0xA5 :: spiFrame m (crc16 (leBytes 2 m.length ++ m))) =
      if 8 ≤ s.klp.fifo.length then s.linkError 3 else s.requestTaken (requestOf .spi 0 m) := by
  rw [spiRequest_frame h8 h, if_neg (not_not_intro (Nat.mod_eq_of_lt (crc16_lt _)))]

theorem requestOf_port {p : Port} {q : Request} (h : requestOf p n m = some q) : q.req.port = p := by
  unfold requestOf at h
  extract_lets dlen at h
  split at h
  · exact nomatch h
  · rw [← Option.some.inj h]

theorem acceptRequest_full {q : Request} (hs : s.serving q.req.port = .full) (hk : q.op ∈ knownOps) (hl : s.klp.queue.length < 32) :
    s.acceptRequest q = { s with klp := { s.klp with queue := s.klp.queue ++ [q] } } := by
  unfold State.acceptRequest
  rw [hs]
  exact (if_pos (List.contains_iff_mem.mpr hk)).trans (if_pos hl)

theorem spiRequest_accepted {q : Request} (h8 : 8 ≤ m.length) (h : m.length ≤ 4104) (hf : s.klp.fifo.length < 8)
    (hq : requestOf .spi 0 m = some q) (hs : s.serving q.req.port = .full) (hk : q.op ∈ knownOps) (hl : s.klp.queue.length < 32) :
    s.spiRequest (0xA5 :: spiFrame m (crc16 (leBytes 2 m.length ++ m))) = s.withKlp { s.klp with queue := s.klp.queue ++ [q] } := by
  rw [spiRequest_good h8 h, if_neg (Nat.not_le.mpr hf), hq]
  exact acceptRequest_full hs hk hl

/-! ### The response read -/

theorem exec_spiResponseRead (h : s.windowAnswers = true) (ho : s.nv.openWord = none) (n : Nat) :
    exec (.spiResponseRead n) s = .next (s.spiRead n) := by
  refine congrArg Host.Outcome.next (if_neg ?_)
  rw [portOpen h ho]
  exact Bool.false_ne_true

/-- The bytes that a full read of a response clocks out after the first. -/
def State.respBytes (s : State) (r : Resp) : List Nat :=
  (128 + s.klp.linkErr) :: (leBytes 2 r.message.length ++ r.message ++ leBytes 2 (crc16 (leBytes 2 r.message.length ++ r.message)))

theorem length_respBytes (s : State) (r : Resp) : (s.respBytes r).length = r.message.length + 5 := by
  simp [State.respBytes, leBytes_two]

theorem take_respBytes (s : State) (r : Resp) :
    (s.respBytes r).take (r.message.length + 3) = (128 + s.klp.linkErr) :: (leBytes 2 r.message.length ++ r.message) := by
  unfold State.respBytes
  rw [List.take_succ_cons]
  exact congrArg _ (List.take_left' (by simp [leBytes_two]))

/-- The bytes of a read of `n` clocks and the port after it, as `r` stands first in the FIFO or none does. -/
theorem spiRead_empty (h : s.klp.fifo = []) (hn : 2 ≤ n) : s.spiRead n =
    s.withKlp { s.klp with linkErr := 0, spiOut := s.klp.linkErr :: zeros (n - 2) } := by
  obtain ⟨k, rfl⟩ : ∃ k, n = k + 2 := ⟨n - 2, by omega⟩
  have hz : (s.klp.linkErr :: zeros k).take (k + 1) = s.klp.linkErr :: zeros k := List.take_of_length_le (by simp [zeros])
  unfold State.spiRead
  simp [h, hz, State.withKlp, b2n]

/-- The port after the clocks of a read whose response stands first in the FIFO, before that leaves it. -/
def State.clocked (s : State) (r : Resp) (n : Nat) : State :=
  s.withKlp { s.klp with
    spiOut := (s.respBytes r ++ zeros (n - 1 - (s.respBytes r).length)).take (n - 1), linkErr := if 2 ≤ n then 0 else s.klp.linkErr }

/-- The port after the response has left the FIFO. -/
def State.popped (s : State) : State := s.withKlp { s.klp with fifo := s.klp.fifo.drop 1 }

theorem spiRead_first {r : Resp} {rest : List Resp} (h : s.klp.fifo = r :: rest) (n : Nat) :
    s.spiRead n = if Nat.ble ((s.respBytes r).length + 1) n then (s.clocked r n).popped.refillFifo else s.clocked r n := by
  unfold State.spiRead
  simp only [h, List.head?_cons, Option.isSome_some, Bool.true_and]
  unfold State.clocked State.popped State.withKlp State.respBytes
  simp only [h]
  rfl

theorem spiRead_short {r : Resp} {rest : List Resp} (h : s.klp.fifo = r :: rest) (hn : n < r.message.length + 6) :
    (s.spiRead n).klp.fifo = s.klp.fifo := by
  rw [spiRead_first h, length_respBytes, if_neg]
  · rfl
  · rw [Nat.ble_eq]
    omega

theorem refillFifo_none (h : ∀ x ∈ s.klp.outbox, x.req.port ≠ .spi) : s.refillFifo = s := by
  have hf : (s.klp.outbox.find? fun r => r.req.port == .spi) = none :=
    List.find?_eq_none.mpr fun x hx hp => h x hx (eq_of_beq hp)
  unfold State.refillFifo
  rw [hf]
  exact ite_self _

theorem spiRead_whole {r : Resp} {rest : List Resp} (h : s.klp.fifo = r :: rest) (hn : r.message.length + 6 ≤ n)
    (ho : ∀ x ∈ s.klp.outbox, x.req.port ≠ .spi) : s.spiRead n = (s.clocked r n).popped := by
  rw [spiRead_first h, length_respBytes, if_pos (Nat.ble_eq.mpr hn)]
  exact refillFifo_none ho

theorem clocked_popped_klp {r : Resp} {rest : List Resp} (h : s.klp.fifo = r :: rest) (hn : 2 ≤ n) :
    (s.clocked r n).popped.klp = { s.klp with fifo := rest, linkErr := 0, spiOut := (s.clocked r n).klp.spiOut } := by
  unfold State.clocked State.popped State.withKlp
  simp only [h, if_pos hn, List.drop_one, List.tail_cons]

theorem take_clocked {r : Resp} (hn : r.message.length + 6 ≤ n) : (s.clocked r n).klp.spiOut.take (r.message.length + 3) =
    (128 + s.klp.linkErr) :: (leBytes 2 r.message.length ++ r.message) := by
  have hl := length_respBytes s r
  have hc : (s.clocked r n).klp.spiOut = (s.respBytes r ++ zeros (n - 1 - (s.respBytes r).length)).take (n - 1) := rfl
  rw [hc, ← take_respBytes, List.take_take, List.take_append_of_le_length (by omega)]
  congr 1
  omega

/-! ### Messages given up -/

theorem exec_klpResponseAbandon {c : Bus} {x : OutResp} (h : s.klp.sending = some x) (hb : x.bus = c)
    (hw : x.since + 100 * clkMs ≤ s.now) : exec (.klpResponseAbandon c) s = .next (s.withKlp { s.klp with sending := none }) := by
  have he : exec (.klpResponseAbandon c) s = execKlpResponseAbandon c s := rfl
  rw [he]
  unfold execKlpResponseAbandon
  rw [h]
  exact congrArg Host.Outcome.next (if_pos ⟨hb, waited_iff.mpr hw⟩)

theorem exec_klpFrameGapTimeout {c : Bus} {peer : Nat} {x : Rasm} (h : s.openMessage c peer = some x)
    (hw : x.last + 100 * clkMs < s.now) : exec (.klpFrameGapTimeout c peer) s = .next (s.closeMessage c peer).discardKlp := by
  have he : exec (.klpFrameGapTimeout c peer) s = execKlpFrameGapTimeout c peer s := rfl
  rw [he]
  unfold execKlpFrameGapTimeout
  rw [h]
  exact congrArg Host.Outcome.next (if_pos hw)

theorem openMessage_close_self (c : Bus) (peer : Nat) : (s.closeMessage c peer).openMessage c peer = none := by
  refine List.find?_eq_none.mpr fun x hx h => ?_
  have := (List.mem_filter.mp hx).2
  rw [h] at this
  exact Bool.false_ne_true this

theorem openMessage_close_other {c d : Bus} {peer p : Nat} (h : ¬(d = c ∧ p = peer)) :
    (s.closeMessage c peer).openMessage d p = s.openMessage d p := by
  refine (List.find?_filter ..).trans (find?_of_agree fun x _ => ?_)
  by_cases hx : x.bus = d ∧ x.peer = p
  · obtain ⟨rfl, rfl⟩ := hx
    have : (x.bus == c && x.peer == peer) = false := by
      rw [← Bool.not_eq_true, Bool.and_eq_true, beq_iff_eq, beq_iff_eq]
      exact h
    simp [this]
  · have : (x.bus == d && x.peer == p) = false := by
      rw [← Bool.not_eq_true, Bool.and_eq_true, beq_iff_eq, beq_iff_eq]
      exact hx
    simp [this]

/-- Settles O51: both ports' transactions checked in their order, and messages given up after 100 ms. -/
theorem ledgerPorts : Obligations.LedgerPorts := by
  refine ⟨fun c x s h hb hw => ?_, fun c peer x s h hw => ?_, fun bytes s hp ho => ⟨fun h => ?_, fun m hm h8 h => ⟨fun hf => ?_,
      fun q hf hq hk hv hl => ?_⟩, fun m crc hm h8 h hc => ?_⟩, fun n s hp ho => ⟨fun h hn => ?_, fun r rest h => ⟨fun hn => ?_, fun hn hx => ?_⟩⟩⟩
  · exact ⟨_, exec_klpResponseAbandon h hb hw, withKlp_only _ _ (by decide) .refl, rfl⟩
  · exact ⟨_, exec_klpFrameGapTimeout h hw, discardKlp_only _ (by decide) (closeMessage_only _ _ _ (by decide) .refl),
      openMessage_close_self c peer, rfl, fun d p hd => openMessage_close_other hd⟩
  · refine ⟨_, (exec_spiRequestTransaction hp ho bytes).trans (congrArg Host.Outcome.next (spiRequest_misfit h)), ?_, rfl⟩
    exact linkError_only _ _ (by decide) (spiOutput_only _ _ (by decide) .refl)
  · obtain rfl : bytes = spiFrame m _ := hm
    refine ⟨_, (exec_spiRequestTransaction hp ho _).trans (congrArg Host.Outcome.next ((spiRequest_good h8 h).trans (if_pos hf))), ?_, rfl⟩
    exact linkError_only _ _ (by decide) (spiOutput_only _ _ (by decide) .refl)
  · obtain rfl : bytes = spiFrame m _ := hm
    refine ⟨_, (exec_spiRequestTransaction hp ho _).trans (congrArg Host.Outcome.next (spiRequest_accepted h8 h hf hq ?_ hk hl)),
      withKlp_only _ _ (by decide) (spiOutput_only _ _ (by decide) .refl), rfl⟩
    rw [requestOf_port hq]
    exact hv
  · obtain rfl : bytes = spiFrame m _ := hm
    refine ⟨_, (exec_spiRequestTransaction hp ho _).trans (congrArg Host.Outcome.next ((spiRequest_frame h8 h crc).trans (if_pos hc))), ?_, rfl⟩
    exact linkError_only _ _ (by decide) (withKlp_only _ _ (by decide) (spiOutput_only _ _ (by decide) .refl))
  · exact ⟨_, (exec_spiResponseRead hp ho n).trans (congrArg Host.Outcome.next (spiRead_empty h hn)), withKlp_only _ _ (by decide) .refl, rfl⟩
  · exact ⟨_, exec_spiResponseRead hp ho n, spiRead_only _ _ (by decide) .refl, spiRead_short h hn⟩
  · refine ⟨_, exec_spiResponseRead hp ho n, spiRead_only _ _ (by decide) .refl, ?_⟩
    rw [spiRead_whole h hn hx]
    exact ⟨clocked_popped_klp h (by omega), take_clocked hn⟩

end Sys2Proof.Machine
end

section
/-!
PROOF. The host window of the store (R429 to R432): a window whose memory names a cell twice, which no sound state has.
-/
namespace Sys2Proof.Machine

/-- A state after reset with the rails up and the latch set, whose records partition holds two bytes at address 5. -/
def doubledCell : State :=
  { State.reset with
    pwr := { State.reset.pwr with rails := true }
    nv := { State.reset.nv with wel := true, win := [(5, 1), (5, 2)], winBad := [] } }

/-- A byte 0 written at the doubled address takes the first of its two cells away, and the second shows. -/
theorem write_doubledCell {t : State} (h : exec (.nvWrite 5 [0] false) doubledCell = .next t) : t.nv.win = [(5, 2)] := by
  rw [← Host.Outcome.next.inj h]
  decide

/-- Refutes O52: its clause on a WRITE asks every state that the bytes written read back, and so the state whose memory holds a
cell twice (R431); the memory of a sound state holds none twice. In `doubledCell` a byte 0 written at address 5 reads back as 2. -/
theorem not_window : ¬ Obligations.Window := by
  intro ⟨_, _, h⟩
  obtain ⟨-, -, -, -, -, -, hw, -⟩ := h doubledCell (by decide) rfl
  obtain ⟨-, hpage, -⟩ := hw 5 [0] rfl (by decide) rfl
  obtain ⟨t, he, -, -, hread, -⟩ := hpage (by decide) (by decide)
  have hk := hread 0 (by decide)
  rw [write_doubledCell he] at hk
  exact absurd hk (by decide)

end Sys2Proof.Machine
end

section
/-!
PROOF. Compaction, buckets and the logbook (R422, R427, R439, R447, R451, R452, R454, R456, R457).
-/
namespace Sys2Proof.Machine

variable {s t : State} {w : Wr} {r : LogRec}

/-! ### Compaction -/

/-- The newest valid record of each key of an area, as a compaction copies them. -/
def PArea.kept (a : PArea) : List PRec := a.keys.filterMap a.find

/-- The copy with the record's place in the new area. -/
def PArea.copies (a : PArea) : List PRec := (List.range a.kept.length).map fun k =>
  { a.kept.getD k { key := 0, seq := 0, value := [], ok := false } with seq := k + 1 }

theorem PArea.find_some {a : PArea} {k : Nat} {x : PRec} (h : a.find k = some x) : x.ok = true ∧ x.key = k := by
  simpa using List.find?_some h

theorem PArea.find_of_kept {a : PArea} {x : PRec} (h : x ∈ a.kept) : a.find x.key = some x := by
  obtain ⟨k, -, hk⟩ := List.mem_filterMap.mp h
  rw [(PArea.find_some hk).2]
  exact hk

theorem PArea.kept_of_find {a : PArea} {k : Nat} {x : PRec} (h : a.find k = some x) : x ∈ a.kept := by
  obtain ⟨hok, hkey⟩ := PArea.find_some h
  refine List.mem_filterMap.mpr ⟨k, List.mem_eraseDups.mpr (List.mem_map.mpr ⟨x, List.mem_filter.mpr ⟨?_, hok⟩, hkey⟩), h⟩
  exact List.mem_reverse.mp (List.mem_of_find?_eq_some h)

/-- A copy holds what a record of the area in use holds, but for its place. -/
theorem PArea.mem_copies {a : PArea} {x : PRec} (h : x ∈ a.copies) : ∃ y ∈ a.kept, x = { y with seq := x.seq } := by
  obtain ⟨k, hk, rfl⟩ := List.mem_map.mp h
  have hl := List.mem_range.mp hk
  refine ⟨a.kept[k], List.getElem_mem hl, ?_⟩
  rw [getD_of_lt hl]

theorem PArea.copy_of_kept {a : PArea} {y : PRec} (h : y ∈ a.kept) : ∃ n, { y with seq := n } ∈ a.copies := by
  obtain ⟨k, hl, rfl⟩ := List.getElem_of_mem h
  refine ⟨k + 1, List.mem_map.mpr ⟨k, List.mem_range.mpr hl, ?_⟩⟩
  rw [getD_of_lt hl]

/-- The area of the copies gives every key the value it had. -/
theorem PArea.find_copies {a b : PArea} (hb : b.recs = a.copies) (k : Nat) : (b.find k).map PRec.value = (a.find k).map PRec.value := by
  cases hf : b.find k with
  | some x =>
    obtain ⟨-, hkey⟩ := PArea.find_some hf
    have hm : x ∈ b.recs := List.mem_reverse.mp (List.mem_of_find?_eq_some hf)
    rw [hb] at hm
    obtain ⟨y, hy, hxy⟩ := PArea.mem_copies hm
    have hyk : y.key = k := by rw [← hkey, hxy]
    rw [← hyk, PArea.find_of_kept hy, hxy]
    rfl
  | none =>
    cases hg : a.find k with
    | none => rfl
    | some y =>
      obtain ⟨n, hn⟩ := PArea.copy_of_kept (PArea.kept_of_find hg)
      rw [← hb] at hn
      have hno := List.find?_eq_none.mp hf _ (List.mem_reverse.mpr hn)
      have hyes := PArea.find_some hg
      exact absurd (by simpa using hyes) hno

theorem Nv.area_setArea (n : Nv) (a : PArea) : (n.setArea a).area = a := by
  unfold Nv.setArea Nv.area
  split <;> rfl

theorem Nv.setArea_flags (n : Nv) (a : PArea) :
    (n.setArea a).useOne = n.useOne ∧ (n.setArea a).compacting = n.compacting ∧ (n.setArea a).compactions = n.compactions := by
  unfold Nv.setArea
  split <;> exact ⟨rfl, rfl, rfl⟩

/-- A compaction done: the other area holds the copies and is in use. -/
theorem Nv.compact_flags (n : Nv) : n.compact.compacting = false ∧ n.compact.useOne = (!n.useOne) ∧
    n.compact.compactions = (n.compactions + 1) % 2 ^ 32 ∧ n.compact.area.recs = n.area.copies := by
  unfold Nv.compact
  extract_lets a kept b m
  obtain ⟨hu, hc, hn⟩ := Nv.setArea_flags m b
  exact ⟨hc, hu, hn, by rw [Nv.area_setArea]; rfl⟩

theorem compactionGood_nv (s : State) : ∃ n, s.compactionGood.nv = { s.nv.compact with compactions := n } ∧
    (s.nv.compactions + 1 < 2 ^ 32 → n = s.nv.compactions + 1) := by
  unfold State.compactionGood
  split
  · next h => exact ⟨s.nv.compact.compactions, rfl, fun _ => by rw [(Nv.compact_flags _).2.2.1, Nat.mod_eq_of_lt h]⟩
  · next h => exact ⟨_, rfl, fun h' => absurd h' h⟩

/-- The area that is not in use loses its header; the one in use stays. -/
theorem Nv.dropOther_used (n : Nv) : n.dropOther.useOne = n.useOne ∧ n.dropOther.area = n.area := by
  unfold Nv.dropOther Nv.area
  split <;> exact ⟨rfl, rfl⟩

theorem compactionBad_nv (s : State) : s.compactionBad.nv = { s.nv.dropOther with compacting := false, compactFailed := true } := by
  unfold State.compactionBad State.pushLog
  extract_lets r
  split <;> rfl

/-- With room in the queue a record waits behind the others. -/
theorem pushLog_waits (h : s.log.queue.length < 256) (typ : Nat) (payload : List Nat) :
    ∃ r, (s.pushLog typ payload).log.queue = s.log.queue ++ [r] ∧ r.typ = typ := by
  rw [pushLog_queue h]
  exact ⟨_, rfl, rfl⟩

theorem compactionBad_log (s : State) (hl : s.log.queue.length < 256) :
    ∃ r, s.compactionBad.log.queue = s.log.queue ++ [r] ∧ r.typ = Lt.NV_MEDIA := by
  unfold State.compactionBad
  exact pushLog_waits (s := s.withNv { s.nv.dropOther with compacting := false, compactFailed := true }) hl _ _

theorem exec_compactionDone (hc : s.nv.compacting = true) (hp : s.pfail = false) (ok : Bool) :
    exec (.compactionDone ok) s = .next (if ok then s.compactionGood else s.compactionBad) :=
  congrArg Host.Outcome.next (if_pos (by rw [hc, hp]; rfl))

/-! ### The writer -/

/-- A record put into a ring is the last of the last block. -/
theorem ringPut_last (lo n : Nat) (retired : List Nat) (blocks : List LogBlock) (r : LogRec) :
    ∃ b, (ringPut lo n retired blocks r).blocks.getLast? = some b ∧ b.recs.getLast? = some r := by
  unfold ringPut
  cases blocks.getLast? with
  | none => exact ⟨_, rfl, rfl⟩
  | some h =>
    dsimp only
    split
    · exact ⟨_, List.getLast?_concat, List.getLast?_concat⟩
    · exact ⟨_, List.getLast?_concat, rfl⟩

/-- The ring with the record written, where every block reads back. -/
def Log.ringed (l : Log) (r : LogRec) : Log :=
  { l with
    overwritten := (l.overwritten + ((ringPut 1 447 l.retired l.ring r).lost.filter fun (x : LogRec) => Nat.ble l.clearSeq x.seq).length) % 2 ^ 32
    firstSeq := if (ringPut 1 447 l.retired l.ring r).started then r.seq else l.firstSeq
    ring := (ringPut 1 447 l.retired l.ring r).blocks
    headSeq := r.seq }

theorem tryRing_good {l : Log} (h : l.badBlocks = []) (r : LogRec) : l.tryRing r = (true, l.ringed r) := by
  unfold Log.tryRing
  extract_lets w m
  exact if_neg (by rw [h]; exact Bool.false_ne_true)

theorem ringRecord_good (hl : s.log.inLifeboat = false) (h : s.log.badBlocks = []) (r : LogRec) :
    s.ringRecord r = s.withLog (s.log.ringed r) := by
  unfold State.ringRecord
  rw [hl, tryRing_good h]
  rfl

/-- Writing into the anchor area leaves the queue, the ring and its newest record. -/
theorem putAnchor_ring (fuel : Nat) (l : Log) (r : LogRec) : (Log.putAnchor fuel l r).queue = l.queue ∧
    (Log.putAnchor fuel l r).ring = l.ring ∧ (Log.putAnchor fuel l r).headSeq = l.headSeq := by
  induction fuel generalizing l with
  | zero => exact ⟨rfl, rfl, rfl⟩
  | succ n ih =>
    unfold Log.putAnchor
    split
    · exact ⟨rfl, rfl, rfl⟩
    · extract_lets w drop
      split
      · exact ih _
      · exact ⟨rfl, rfl, rfl⟩

theorem putAnchor_good {l : Log} (hb : l.badAnchor = []) (hr : l.anchorRetired = []) (fuel : Nat) (r : LogRec) :
    Log.putAnchor (fuel + 1) l r = { l with anchor := (ringPut 0 16 l.anchorRetired l.anchor r).blocks, anchorHead := r.seq } := by
  have hd : l.degraded = false := by
    unfold Log.degraded Log.anchorHealthy
    rw [hr]
    rfl
  unfold Log.putAnchor
  extract_lets w drop
  rw [hd, hb]
  rfl

theorem logResume_none (h : s.log.resumePending = false) : s.logResume = s := by
  unfold State.logResume
  exact if_pos (by rw [h]; rfl)

/-- The state with the next record of the queue in the ring. -/
def State.recorded (s : State) (r : LogRec) (rest : List LogRec) : State := s.withLog ({ s.log with queue := rest }.ringed r)

theorem writeRecord_next {rest : List LogRec} (hq : s.log.queue = r :: rest) (hl : s.log.inLifeboat = false)
    (hp : s.log.resumePending = false) (hb : s.log.badBlocks = []) : s.writeRecord = if isAnchorType r.typ then
      ((s.recorded r rest).withLog ((s.recorded r rest).log.putAnchor 17 r)).raiseIrq irqLog else s.recorded r rest := by
  have hr : (s.withLog { s.log with queue := rest }).ringRecord r = s.recorded r rest := ringRecord_good (s := s.withLog { s.log with queue := rest }) hl hb r
  unfold State.writeRecord
  rw [logResume_none hp]
  dsimp only
  rw [hq]
  dsimp only
  rw [hr]

theorem exec_logRecordWrite (hp : s.pfail = false) (hr : s.pwr.rails = true) : exec .logRecordWrite s = .next s.writeRecord :=
  congrArg Host.Outcome.next (if_neg (by rw [hp, hr]; decide))

/-- The record written with LOG raised, as one of an anchor type is. -/
theorem anchored_log (s : State) (r : LogRec) (rest : List LogRec) :
    (((s.recorded r rest).withLog ((s.recorded r rest).log.putAnchor 17 r)).raiseIrq irqLog).log = (s.recorded r rest).log.putAnchor 17 r := rfl

theorem recorded_ring (s : State) (r : LogRec) (rest : List LogRec) : (s.recorded r rest).log.queue = rest ∧
    (s.recorded r rest).log.headSeq = r.seq ∧ ∃ b, (s.recorded r rest).log.ring.getLast? = some b ∧ b.recs.getLast? = some r :=
  ⟨rfl, rfl, ringPut_last _ _ _ _ _⟩

/-! ### The streamer -/

theorem exec_logStreamSend_none (h : s.streamBus = none ∨ s.streamNext = none) : exec .logStreamSend s = .next s := by
  have he : exec .logStreamSend s = execLogStreamSend s := rfl
  rw [he]
  unfold execLogStreamSend
  rcases h with h | h
  · rw [h]
  · rw [h]
    cases s.streamBus <;> rfl

theorem exec_logStreamSend_some {c : Bus} {bytes : List Nat} {cursor : Nat} (hb : s.streamBus = some c)
    (hn : s.streamNext = some (some bytes, cursor)) : exec .logStreamSend s = .next (s.streamOut c bytes cursor) := by
  have he : exec .logStreamSend s = execLogStreamSend s := rfl
  rw [he]
  unfold execLogStreamSend
  rw [hb, hn]

theorem exec_logStreamSend_passed {c : Bus} {cursor : Nat} (hb : s.streamBus = some c) (hn : s.streamNext = some (none, cursor)) :
    exec .logStreamSend s = .next (s.withLog { s.log with streamNext := cursor }) := by
  have he : exec .logStreamSend s = execLogStreamSend s := rfl
  rw [he]
  unfold execLogStreamSend
  rw [hb, hn]

/-- The channel that streams is NORMAL, outside STORM. -/
theorem streamBus_some {c : Bus} (h : s.streamBus = some c) : s.storm = false ∧ (s.chan c).active = .normal := by
  have := (Option.filter_eq_some_iff.mp h).2
  simp only [Bool.and_eq_true, Bool.not_eq_true', beq_iff_eq] at this
  exact this.1

/-- The frames of a list of pieces queued for the streamer. -/
def State.streamAll (s : State) (c : Bus) (fs : List (List Nat)) : State :=
  fs.foldl (fun u f => (u.enqueue c 5 (plainFrame (u.ownId 0x7) true (fdPad f))).2) s

theorem enqueue_active (s : State) (c : Bus) (q : Nat) (f : TxFrame) : ((s.enqueue c q f).2.chan c).active = (s.chan c).active ∧
    ((s.enqueue c q f).2.chan c).queues.length = (s.chan c).queues.length := by
  have hset (x : Channel) (ha : x.active = (s.chan c).active) (hl : x.queues.length = (s.chan c).queues.length) :
      ((s.setChan c x).chan c).active = (s.chan c).active ∧ ((s.setChan c x).chan c).queues.length = (s.chan c).queues.length := by
    rw [chan_setChan_self]
    exact ⟨ha, hl⟩
  unfold State.enqueue
  extract_lets x l y
  split
  · exact hset _ rfl rfl
  · split
    · exact hset _ rfl rfl
    · split
      · split
        · exact hset _ rfl rfl
        · exact ⟨rfl, rfl⟩
      · have hy : y.queues.length = x.queues.length := List.length_set
        split
        · exact hset _ rfl hy
        · exact hset _ rfl hy

/-- Frames that the queue has room for stand behind what waits in it. -/
theorem streamAll_queue {c : Bus} {fs : List (List Nat)} (ha : (s.chan c).active = .normal) (hs : s.storm = false)
    (hq : 5 < (s.chan c).queues.length) (hl : ((s.chan c).queues.getD 5 []).length + fs.length ≤ 16) :
    ChannelsOnly s (s.streamAll c fs) ∧ ((s.streamAll c fs).chan c).queues.getD 5 [] =
      (s.chan c).queues.getD 5 [] ++ fs.map fun f => plainFrame (s.ownId 0x7) true (fdPad f) := by
  induction fs generalizing s with
  | nil => exact ⟨.refl, (List.append_nil _).symm⟩
  | cons f fs ih =>
    rw [List.length_cons] at hl
    have hone := enqueue_queue ha hs hq (show _ < 16 by omega) (plainFrame (s.ownId 0x7) true (fdPad f))
    obtain ⟨h1, -⟩ := enqueue_channelsOnly s c 5 (plainFrame (s.ownId 0x7) true (fdPad f))
    obtain ⟨hact, hlen⟩ := enqueue_active s c 5 (plainFrame (s.ownId 0x7) true (fdPad f))
    generalize hu : (s.enqueue c 5 (plainFrame (s.ownId 0x7) true (fdPad f))).2 = u at hone h1 hact hlen
    have hstorm : u.storm = false := (congrArg Hm.storm (h1.only.pieces .hm (by decide) (by decide))).trans hs
    have hid : u.ownId 0x7 = s.ownId 0x7 := congrArg (0x7 * 128 + ·) (h1.only.entries (by decide) _ (by decide))
    obtain ⟨h2, h3⟩ := ih (hact.trans ha) hstorm (by rw [hlen]; exact hq) (by rw [hone, List.length_append, List.length_singleton]; omega)
    have he : s.streamAll c (f :: fs) = u.streamAll c fs := by
      rw [← hu]
      rfl
    rw [he]
    exact ⟨h1.trans h2, by rw [h3, hone, hid, List.append_assoc]; rfl⟩

theorem streamOut_room {c : Bus} {bytes : List Nat} (h : ((s.chan c).queues.getD 5 []).length + (streamFrames bytes).length ≤ 16) (cursor : Nat) :
    s.streamOut c bytes cursor =
      (s.streamAll c (streamFrames bytes)).withLog { (s.streamAll c (streamFrames bytes)).log with streamNext := cursor } :=
  if_pos (Nat.ble_eq.mpr h)

theorem streamOut_full {c : Bus} {bytes : List Nat} (h : 16 < ((s.chan c).queues.getD 5 []).length + (streamFrames bytes).length) (cursor : Nat) :
    s.streamOut c bytes cursor = s :=
  if_neg fun h' => Nat.not_le.mpr h (Nat.ble_eq.mp h')

/-! ### Clearing and cursors -/

theorem logClearRule_ring {id v : Nat} (h : v = 0xC1) : logClearRule id s v = (.ok, s.clearRing id) := if_pos h

theorem logClearRule_all {id v : Nat} (h : v = 0xA5) (hl : 3 ≤ s.levelOf id) :
    logClearRule id s v = (.ok, (s.withLog { s.log with anchor := [] }).clearRing id) :=
  (if_neg (by omega)).trans ((if_pos h).trans (if_neg (Nat.not_lt.mpr hl)))

theorem logClearRule_access {id v : Nat} (h : v = 0xA5) (hl : s.levelOf id < 3) : logClearRule id s v = (.access, s) :=
  (if_neg (by omega)).trans ((if_pos h).trans (if_pos hl))

theorem logClearRule_range {id v : Nat} (h1 : v ≠ 0xC1) (h2 : v ≠ 0xA5) : logClearRule id s v = (.range, s) :=
  (if_neg h1).trans (if_neg h2)

/-- A clear moves CLEAR_SEQ to the next SEQ, which the record of the clear takes. -/
theorem clearRing_log (s : State) (id : Nat) : (s.clearRing id).log.clearSeq = s.log.nextSeq ∧
    (s.clearRing id).log.ring = s.log.ring ∧ (s.clearRing id).log.anchor = s.log.anchor ∧
    (s.log.queue.length < 256 → ∃ r, (s.clearRing id).log.queue = s.log.queue ++ [r] ∧ r.typ = Lt.LOG_CLEARED ∧ r.seq = s.log.nextSeq) := by
  unfold State.clearRing State.pushLog
  extract_lets l payload r
  split
  · exact ⟨rfl, rfl, rfl, fun _ => ⟨_, rfl, rfl, rfl⟩⟩
  · next h => exact ⟨rfl, rfl, rfl, fun h' => absurd h' h⟩

theorem setCursor_cursor (l : Log) (id v : Nat) : (l.setCursor id v).cursor id = v := by
  unfold Log.cursor Log.setCursor
  simp

/-- Settles O53: the store's and the logbook's own commands. -/
theorem logbook : Obligations.Logbook := by
  refine ⟨fun s hc hp => ⟨?_, ?_⟩, fun m s hm => ?_, fun s h => ?_, fun r rest s hp hr hq hl hres hb => ?_,
    fun s h => exec_logStreamSend_none h, fun c bytes cursor s hb hn hq => ⟨fun hl => ?_, fun hl => ?_⟩, fun c cursor s hb hn => ?_,
    fun s w ha => ⟨fun h => ?_, fun hv hl => ?_, fun h1 h2 => ?_⟩, fun s w ha => ?_⟩
  · obtain ⟨n, hn, hcount⟩ := compactionGood_nv s
    obtain ⟨hcomp, huse, -, hrecs⟩ := Nv.compact_flags s.nv
    refine ⟨_, exec_compactionDone hc hp true, compactionGood_only _ (by decide) .refl, ?_⟩
    dsimp only [if_true]
    rw [if_pos rfl, hn]
    exact ⟨hcomp, huse, PArea.find_copies hrecs, hcount⟩
  · obtain ⟨huse, harea⟩ := Nv.dropOther_used s.nv
    refine ⟨_, exec_compactionDone hc hp false, compactionBad_only _ (by decide) .refl, ?_⟩
    rw [if_neg Bool.false_ne_true]
    dsimp only
    rw [compactionBad_nv]
    exact ⟨rfl, rfl, huse, harea, compactionBad_log s⟩
  · exact ⟨_, congrArg Host.Outcome.next (if_pos hm), setReg_only _ _ _ (by simp [frameKey]) .refl, State.reg_setReg_self _ _ _⟩
  · refine congrArg Host.Outcome.next (if_pos ?_)
    rcases h with h | h <;> rw [h] <;> simp
  · refine ⟨_, (exec_logRecordWrite hp hr).trans (congrArg _ (writeRecord_next hq hl hres hb)), ?_, ?_⟩
    · split
      · exact raiseIrq_only _ _ (by decide) (withLog_only _ _ (by decide) (withLog_only _ _ (by decide) .refl))
      · exact withLog_only _ _ (by decide) .refl
    · obtain ⟨hqueue, hhead, hring⟩ := recorded_ring s r rest
      by_cases hanchor : isAnchorType r.typ = true
      · rw [if_pos hanchor]
        obtain ⟨h1, h2, h3⟩ := putAnchor_ring 17 (s.recorded r rest).log r
        refine ⟨h1.trans hqueue, h3.trans hhead, ?_, fun h => absurd hanchor (by rw [h]; exact Bool.false_ne_true),
          fun _ => ⟨bitAt_bitOn_self _ _, fun hbad hret => ?_⟩⟩
        · rw [anchored_log, h2]
          exact hring
        · have hput := putAnchor_good (l := (s.recorded r rest).log) hbad hret 16 r
          rw [anchored_log, hput]
          exact ⟨rfl, ringPut_last _ _ _ _ _⟩
      · rw [if_neg hanchor]
        exact ⟨hqueue, hhead, hring, fun _ => ⟨rfl, rfl⟩, fun h => absurd h hanchor⟩
  · obtain ⟨hst, hact⟩ := streamBus_some hb
    obtain ⟨hch, hqueue⟩ := streamAll_queue hact hst hq hl
    refine ⟨_, (exec_logStreamSend_some hb hn).trans (congrArg _ (streamOut_room hl cursor)),
      withLog_only _ _ (by decide) (hch.only.mono (by decide)), ?_, hqueue⟩
    have hlog : (s.streamAll c (streamFrames bytes)).log = s.log := hch.only.pieces .log (by decide) (by decide)
    rw [hlog]
    rfl
  · exact (exec_logStreamSend_some hb hn).trans (congrArg _ (streamOut_full hl cursor))
  · exact ⟨_, exec_logStreamSend_passed hb hn, withLog_only _ _ (by decide) .refl, rfl⟩
  · by_cases hall : w.val = 0xA5
    · have hlevel : 3 ≤ s.levelOf w.req.id := (h.resolve_left (by omega)).2
      obtain ⟨hclear, hring, hanchor, hrec⟩ := clearRing_log ((s.taken (wrRequest w Reg.LOG_CLEAR)).withLog { s.log with anchor := [] }) w.req.id
      refine .rule _ rfl ha (logClearRule_all hall (by rw [State.levelOf_taken]; exact hlevel))
        (clearRing_only _ _ (by decide) (withLog_only _ _ (by decide) .refl)) (by decide) fun _ => ⟨hclear, hring, ?_, hrec⟩
      rw [if_pos hall]
      exact hanchor
    · have hone : w.val = 0xC1 := h.resolve_right fun h => hall h.1
      obtain ⟨hclear, hring, hanchor, hrec⟩ := clearRing_log (s.taken (wrRequest w Reg.LOG_CLEAR)) w.req.id
      refine .rule _ rfl ha (logClearRule_ring hone) (clearRing_only _ _ (by decide) .refl) (by decide) fun _ => ⟨hclear, hring, ?_, hrec⟩
      rw [if_neg hall]
      exact hanchor
  · exact .rule rfl ha (logClearRule_access hv (by rw [State.levelOf_taken]; exact hl))
  · exact .rule rfl ha (logClearRule_range h1 h2)
  · exact .rule _ rfl ha rfl (withLog_only _ _ (by decide) .refl) (by decide) fun _ => ⟨setCursor_cursor _ _ _, rfl, List.length_take_le _ _⟩

end Sys2Proof.Machine
end

section
/-!
PROOF. The mooring domain's supply and crystal (R463 to R465).
-/
namespace Sys2Proof.Machine

variable {s t : State}

/-! ### Defaults -/

/-- Entries put to their defaults. -/
def State.defaults (s : State) (l : List Nat) : State := l.foldl (fun t k => t.setReg k (keyDefault k)) s

theorem defaults_reg {k : Nat} {l : List Nat} (h : keyDefault k % 2 ^ keyBits k = keyDefault k) (hk : k ∈ l ∨ s.reg k = keyDefault k) :
    (s.defaults l).reg k = keyDefault k := by
  induction l generalizing s with
  | nil => exact hk.resolve_left (List.not_mem_nil)
  | cons j l ih =>
    refine ih ?_
    by_cases hj : k = j
    · subst hj
      exact .inr ((State.reg_setReg_self _ _ _).trans h)
    · rw [State.reg_setReg_ne _ hj]
      exact hk.imp_left fun hm => (List.mem_cons.mp hm).resolve_left hj

theorem defaults_only (l : List Nat) : OnlyIn [] l s (s.defaults l) :=
  OnlyIn.foldl_mem (fun u k hk hu => setReg_only _ _ _ (by simpa [frameKey] using hk) hu) .refl

theorem rtcSettings_fit : ∀ k ∈ rtcSettings, keyDefault k % 2 ^ keyBits k = keyDefault k ∧ k ∉ progKeys := by decide

/-! ### The start of the domain -/

/-- TIME_LOST that is pending is recorded, with a generation after the newest record's. -/
theorem timeLost_pending (h : s.rtc.lostPending = true) : ∃ g, s.timeLost =
    (s.withRtc { s.rtc with gen := g, lostPending := false, sched := s.rtc.sched ++ [4] }).pushLog Lt.TIME_LOST [] :=
  ⟨_, if_neg (by rw [h]; decide)⟩

theorem pushLog_rtc (s : State) (typ : Nat) (payload : List Nat) : (s.pushLog typ payload).rtc = s.rtc :=
  (pushLog_only s typ payload (by decide) .refl : OnlyIn [.log] [] s _).pieces .rtc (by decide) (by decide)

theorem timeLost_rtc (h : s.rtc.lostPending = true) : ∃ g l, s.timeLost.rtc = { s.rtc with gen := g, lostPending := false, sched := l } := by
  obtain ⟨g, hg⟩ := timeLost_pending h
  rw [hg]
  exact ⟨g, _, pushLog_rtc _ _ _⟩

theorem timeLost_log (h : s.rtc.lostPending = true) (hl : s.log.queue.length < 256) :
    ∃ r, s.timeLost.log.queue = s.log.queue ++ [r] ∧ r.typ = Lt.TIME_LOST := by
  obtain ⟨g, hg⟩ := timeLost_pending h
  rw [hg]
  exact pushLog_waits (s := s.withRtc { s.rtc with gen := g, lostPending := false, sched := s.rtc.sched ++ [4] }) hl _ _

theorem enterBackup_counts (h : s.rtc.backupEvents + 1 < 2 ^ 32) :
    s.enterBackup = s.withRtc { s.rtc with supply := .backup, backupEvents := s.rtc.backupEvents + 1 } := if_pos h

/-- The domain as it starts, its settings at their defaults. -/
def State.domainStarted (s : State) (main : Bool) : State :=
  if main then (s.withRtc (s.rtc.start main)).rtcDefaults else (s.withRtc (s.rtc.start main)).rtcDefaults.enterBackup

theorem rtcDefaults_entries : OnlyIn [] rtcSettings s s.rtcDefaults := defaults_only rtcSettings

theorem restarted_rtc (s : State) (main : Bool) : (s.withRtc (s.rtc.start main)).rtcDefaults.rtc = s.rtc.start main :=
  rtcDefaults_entries.pieces .rtc (by decide) (by decide)

/-- On VBAK the start is an entry into BACKUP, the first counted. -/
theorem domainStarted_backup (s : State) : s.domainStarted false =
    (s.withRtc (s.rtc.start false)).rtcDefaults.withRtc { s.rtc.start false with supply := .backup, backupEvents := 1 } := by
  have hn : (s.withRtc (s.rtc.start false)).rtcDefaults.rtc.backupEvents + 1 < 2 ^ 32 := by
    rw [restarted_rtc]
    exact (by decide : 0 + 1 < 2 ^ 32)
  refine (enterBackup_counts hn).trans ?_
  rw [restarted_rtc]
  rfl

theorem domainStarted_rtc (s : State) (main : Bool) : (s.domainStarted main).rtc =
    { s.rtc.start main with backupEvents := if main then 0 else 1 } := by
  cases main with
  | true => exact restarted_rtc s true
  | false =>
    rw [domainStarted_backup]
    rfl

theorem domainStarted_only (main : Bool) : OnlyIn [.rtc] rtcSettings s (s.domainStarted main) := by
  have h : OnlyIn [.rtc] rtcSettings s (s.withRtc (s.rtc.start main)).rtcDefaults :=
    (withRtc_only _ _ (by decide) .refl).trans (rtcDefaults_entries.mono (by decide))
  cases main with
  | true => exact h
  | false =>
    rw [domainStarted_backup]
    exact withRtc_only _ _ (by decide) h

theorem rtcDefaults_reg {k : Nat} (hk : k ∈ rtcSettings) : s.rtcDefaults.reg k = keyDefault k :=
  defaults_reg (s := s) (l := rtcSettings) (rtcSettings_fit k hk).1 (.inl hk)

theorem domainStarted_settings (main : Bool) {k : Nat} (hk : k ∈ rtcSettings) : (s.domainStarted main).reg k = keyDefault k := by
  cases main with
  | true => exact rtcDefaults_reg hk
  | false =>
    rw [domainStarted_backup]
    exact rtcDefaults_reg hk

/-- The domain running on a live tide: TIME_LOST is recorded and the programs evaluated. -/
def State.domainRecorded (s : State) : State := s.timeLost.evalPrograms

theorem domainRecorded_only : OnlyIn [.log, .rtc, .loop] progKeys s s.domainRecorded :=
  (timeLost_only _ (by decide) .refl).trans ((evalPrograms_entries s.timeLost).mono (frameSub_of_subset (by simp) fun _ h => h))

theorem domainRecorded_rtc (h : s.rtc.lostPending = true) :
    ∃ g l, s.domainRecorded.rtc = { s.rtc with gen := g, lostPending := false, sched := l } := by
  obtain ⟨g, l, hlost⟩ := timeLost_rtc h
  exact ⟨g, l, ((evalPrograms_entries s.timeLost).pieces .rtc (by decide) (by decide)).trans hlost⟩

theorem domainRecorded_log : s.domainRecorded.log = s.timeLost.log :=
  (evalPrograms_entries s.timeLost).pieces .log (by decide) (by decide)

theorem domainRecorded_settings {k : Nat} (hk : k ∈ rtcSettings) : s.domainRecorded.reg k = s.reg k :=
  domainRecorded_only.entries (by decide) k (rtcSettings_fit k hk).2

theorem domainFrame : frameSub [.rtc] rtcSettings [.log, .rtc, .loop] (rtcSettings ++ progKeys) = true :=
  frameSub_of_subset (by simp) fun _ h => List.mem_append_left _ h

theorem recordedFrame : frameSub [.log, .rtc, .loop] progKeys [.log, .rtc, .loop] (rtcSettings ++ progKeys) = true :=
  frameSub_of_subset (fun _ h => h) fun _ h => List.mem_append_right _ h

theorem domainStarted_running (main : Bool) :
    ((s.domainStarted main).tide.running && (s.domainStarted main).pwr.rails) = (s.tide.running && s.pwr.rails) := by
  have honly := domainStarted_only (s := s) main
  rw [show (s.domainStarted main).tide = s.tide from honly.pieces .tide (by decide) (by decide),
    show (s.domainStarted main).pwr = s.pwr from honly.pieces .pwr (by decide) (by decide)]

theorem exec_mooringDomainStart (h : s.rtc.supply = .down) (main : Bool) : exec (.mooringDomainStart main) s = .next
    (if (s.domainStarted main).tide.running && (s.domainStarted main).pwr.rails then (s.domainStarted main).timeLost.evalPrograms
      else s.domainStarted main) := by
  refine congrArg Host.Outcome.next ((if_pos h).trans ?_)
  cases main <;> rfl

theorem exec_mooringDomainStart_off {main : Bool} (h : s.rtc.supply = .down) (hr : (s.tide.running && s.pwr.rails) = false) :
    exec (.mooringDomainStart main) s = .next (s.domainStarted main) := by
  rw [exec_mooringDomainStart h, domainStarted_running, hr]
  rfl

theorem exec_mooringDomainStart_on {main : Bool} (h : s.rtc.supply = .down) (hr : (s.tide.running && s.pwr.rails) = true) :
    exec (.mooringDomainStart main) s = .next (s.domainStarted main).domainRecorded := by
  rw [exec_mooringDomainStart h, domainStarted_running, hr]
  rfl

/-! ### The obligation -/

/-- Settles O54: the supply's switches each put a state and its count; the start of the domain, with and without main power. -/
theorem mooring : Obligations.Mooring := by
  refine ⟨fun vbak s h hn => ?_, fun s h => ?_, fun s h => ?_, fun s h => ⟨?_, fun hn => ?_⟩, fun main s h => ?_, fun s => ⟨?_, ?_⟩⟩
  · refine ⟨_, congrArg Host.Outcome.next (if_pos h), ?_, ?_⟩
    · rw [enterBackup_counts hn]
      split
      · exact moorTo_only _ _ (by decide) (withRtc_only _ _ (by decide) .refl)
      · exact withRtc_only _ _ (by decide) .refl
    · rw [enterBackup_counts hn]
      split <;> rfl
  · exact ⟨_, congrArg Host.Outcome.next (if_pos h), moorTo_only _ _ (by decide) .refl, rfl⟩
  · exact ⟨_, congrArg Host.Outcome.next (if_pos h), moorTo_only _ _ (by decide) .refl, rfl⟩
  · exact ⟨_, congrArg Host.Outcome.next (if_pos h), moorTo_only _ _ (by decide) .refl, rfl⟩
  · exact ⟨_, congrArg Host.Outcome.next ((if_pos h).trans (enterBackup_counts hn)), withRtc_only _ _ (by decide) .refl, rfl⟩
  · have honly := domainStarted_only (s := s) main
    have hrtc := domainStarted_rtc s main
    have hlog : (s.domainStarted main).log = s.log := honly.pieces .log (by decide) (by decide)
    cases hr : s.tide.running && s.pwr.rails with
    | false =>
      refine ⟨_, exec_mooringDomainStart_off h hr, honly.mono domainFrame, ?_⟩
      refine ⟨?_, ?_, ?_, ?_, ?_, ?_, fun k hk => domainStarted_settings main hk, fun _ => ⟨?_, hlog⟩, fun h => nomatch h⟩ <;>
        exact (congrArg _ hrtc).trans rfl
    | true =>
      have hpend : (s.domainStarted main).rtc.lostPending = true := by rw [hrtc]; rfl
      obtain ⟨g, l, hlost⟩ := domainRecorded_rtc hpend
      have hall := hlost.trans (congrArg (fun r : Rtc => { r with gen := g, lostPending := false, sched := l }) hrtc)
      refine ⟨_, exec_mooringDomainStart_on h hr, (honly.mono domainFrame).trans (domainRecorded_only.mono recordedFrame), ?_⟩
      refine ⟨?_, ?_, ?_, ?_, ?_, ?_, fun k hk => ?_, fun h => (nomatch h), fun _ => ⟨?_, fun hl => ?_⟩⟩
      rotate_right 3
      · exact (domainRecorded_settings hk).trans (domainStarted_settings main hk)
      · exact congrArg Rtc.lostPending hall
      · rw [domainRecorded_log, ← hlog]
        exact timeLost_log hpend (by rw [hlog]; exact hl)
      all_goals exact (congrArg _ hall).trans rfl
  · exact ⟨_, rfl, withRtc_only _ _ (by decide) .refl, rfl⟩
  · exact ⟨_, rfl, withRtc_only _ _ (by decide) .refl, rfl⟩

end Sys2Proof.Machine
end

section
/-!
PROOF. The calendar (R468 to R473).
-/
namespace Sys2Proof.Machine

variable {s t u : State} {w : Wr}

/-! ### What alarms leave of the calendar -/

/-- The calendar of `t` is that of `s`: the tick count, the offset with its generation, and what they stand for. -/
structure SameCalendar (s t : State) : Prop where
  ticks  : t.rtc.ticks = s.rtc.ticks
  offset : t.rtc.offset = s.rtc.offset
  gen    : t.rtc.gen = s.rtc.gen
  valid  : t.rtc.valid = s.rtc.valid
  slew   : t.rtc.slew = s.rtc.slew
  dst    : t.rtc.dst = s.rtc.dst

theorem SameCalendar.refl : SameCalendar s s := ⟨rfl, rfl, rfl, rfl, rfl, rfl⟩

theorem SameCalendar.trans (h : SameCalendar s t) (h' : SameCalendar t u) : SameCalendar s u :=
  ⟨h'.ticks.trans h.ticks, h'.offset.trans h.offset, h'.gen.trans h.gen, h'.valid.trans h.valid, h'.slew.trans h.slew, h'.dst.trans h.dst⟩

theorem SameCalendar.of_rtc (h : t.rtc = s.rtc) : SameCalendar s t := by
  constructor <;> rw [h]

theorem fireAlarm_calendar (s : State) (a : Nat) (caught : Bool) : SameCalendar s (s.fireAlarm a caught) := by
  unfold State.fireAlarm
  extract_lets r st n overs s1 s2
  have h1 : SameCalendar s s1 := ⟨rfl, rfl, rfl, rfl, rfl, rfl⟩
  have h2 : SameCalendar s s2 := by
    unfold s2
    split
    · exact h1.trans (.of_rtc rfl)
    · exact h1
  split
  · exact h2.trans (.of_rtc ((wakeEvent_only s2 (by decide) .refl : OnlyIn [.power, .video, .pwr] [] s2 _).pieces .rtc (by decide) (by decide)))
  · exact h2

theorem foldAlarms_calendar (hit : State → Nat → Bool) (caught : Bool) (l : List Nat) (s : State) :
    SameCalendar s (l.foldl (fun t a => if hit t a then t.fireAlarm a caught else t) s) := by
  induction l generalizing s with
  | nil => exact .refl
  | cons a l ih =>
    refine SameCalendar.trans ?_ (ih _)
    dsimp only
    split
    · exact fireAlarm_calendar _ _ _
    · exact .refl

theorem alarmStep_calendar (s : State) (c0 c1 : Int) : SameCalendar s (s.alarmStep c0 c1) := by
  unfold State.alarmStep
  extract_lets s0 s1 hit v
  split
  · exact (foldAlarms_calendar hit true [0, 1] s).trans ⟨rfl, rfl, rfl, rfl, rfl, rfl⟩
  · split
    · exact .refl
    · exact ⟨rfl, rfl, rfl, rfl, rfl, rfl⟩

theorem evalPrograms_calendar (s : State) : SameCalendar s s.evalPrograms :=
  .of_rtc ((evalPrograms_entries s).pieces .rtc (by decide) (by decide))

/-! ### The calendar set, shifted and stepped -/

theorem noteOffset_rtc (s : State) (typ reason : Nat) (final now : Int) : (s.noteOffset typ reason final now).rtc =
    { s.rtc with gen := (s.rtc.gen + 1) % 65536, offset := now, sched := s.rtc.sched ++ [reason] } := by
  exact congrArg (fun r : Rtc => { r with offset := now, sched := r.sched ++ [reason] })
    (pushLog_rtc (s.withRtc { s.rtc with gen := (s.rtc.gen + 1) % 65536 }) typ _)

/-- The calendar with a new offset in force, valid, no shift running. -/
structure CalendarSet (s t : State) (off : Int) : Prop where
  ticks  : t.rtc.ticks = s.rtc.ticks
  offset : t.rtc.offset = off
  valid  : t.rtc.valid = true
  slew   : t.rtc.slew = 0
  gen    : t.rtc.gen = (s.rtc.gen + 1) % 65536

theorem CalendarSet.then {off : Int} (h : CalendarSet s t off) (h' : SameCalendar t u) : CalendarSet s u off :=
  ⟨h'.ticks.trans h.ticks, h'.offset.trans h.offset, h'.valid.trans h.valid, h'.slew.trans h.slew, h'.gen.trans h.gen⟩

theorem CalendarSet.calTicks {off : Int} (h : CalendarSet s t off) : t.calTicks = s.rtc.ticks + off := by
  unfold State.calTicks
  rw [h.ticks, h.offset]

theorem setCalendar_set (s : State) (off : Int) : CalendarSet s (s.setCalendar off) off := by
  unfold State.setCalendar
  extract_lets c0 was s1 r2 s2 r3 s3
  have hs1 : s1.rtc = _ := noteOffset_rtc s Lt.TIME_SET 2 off off
  have hs2 : CalendarSet s s2 off := ⟨(congrArg Rtc.ticks hs1 :), congrArg Rtc.offset hs1, rfl, rfl, congrArg Rtc.gen hs1⟩
  have hs3 : SameCalendar s2 s3 := by
    unfold s3
    split
    · exact alarmStep_calendar _ _ _
    · exact ⟨rfl, rfl, rfl, rfl, rfl, rfl⟩
  exact (hs2.then hs3).then (evalPrograms_calendar s3)

theorem dstStep_calendar (s : State) (forward : Bool) : (s.dstStep forward).rtc.dst = forward ∧
    (s.dstStep forward).rtc.offset = s.rtc.offset + (if forward then 117964800 else -117964800) ∧
    (s.dstStep forward).rtc.gen = (s.rtc.gen + 1) % 65536 := by
  unfold State.dstStep
  extract_lets c0 off s1 r2 s2
  have hs1 : s1.rtc = _ := noteOffset_rtc s Lt.DST_STEP 3 off off
  have h := (alarmStep_calendar s2 c0 s2.calTicks).trans (evalPrograms_calendar _)
  exact ⟨h.dst, h.offset.trans (congrArg Rtc.offset hs1), h.gen.trans (congrArg Rtc.gen hs1)⟩

theorem dstStep_forward (s : State) : (s.dstStep true).rtc.dst = true ∧ (s.dstStep true).rtc.offset = s.rtc.offset + 117964800 ∧
    (s.dstStep true).rtc.gen = (s.rtc.gen + 1) % 65536 := by
  simpa using dstStep_calendar s true

theorem dstStep_back (s : State) : (s.dstStep false).rtc.dst = false ∧ (s.dstStep false).rtc.offset = s.rtc.offset - 117964800 ∧
    (s.dstStep false).rtc.gen = (s.rtc.gen + 1) % 65536 := by
  simpa [Int.sub_eq_add_neg] using dstStep_calendar s false

theorem calTicks_klp (t : State) (k : Klp) : ({ t with klp := k } : State).calTicks = t.calTicks := rfl

theorem taken_rtc (q : Request) : (s.taken q).rtc = s.rtc := rfl

theorem startSlew_rtc (s : State) (shift : Int) : (s.startSlew shift).rtc =
    { s.rtc with slew := shift, gen := (s.rtc.gen + 1) % 65536, sched := s.rtc.sched ++ [2] } :=
  congrArg (fun r : Rtc => { r with slew := shift }) (noteOffset_rtc s Lt.TIME_SET 2 _ s.rtc.offset)

/-! ### The frames of a step of the offset -/

/-- What a step of the offset may change beside the programs' values. -/
def stepPieces : List Piece := [.power, .log, .rtc, .loop, .video, .pwr, .freeCtr]

theorem evalPrograms_stepPieces (h : OnlyIn [.power, .log, .rtc, .video, .pwr, .freeCtr] [] s t) :
    OnlyIn stepPieces progKeys s t.evalPrograms :=
  (h.mono (by decide)).trans ((evalPrograms_entries t).mono (frameSub_of_subset (by simp [stepPieces]) fun _ h => h))

theorem setCalendar_entries (off : Int) : OnlyIn stepPieces progKeys s (s.setCalendar off) := by
  refine evalPrograms_stepPieces ?_
  have h := noteOffset_only (pl := [.power, .log, .rtc, .video, .pwr, .freeCtr]) (pk := []) s Lt.TIME_SET 2 off off (by decide) .refl
  split
  · exact alarmStep_only _ _ _ (by decide) (withRtc_only _ _ (by decide) h)
  · exact withRtc_only _ _ (by decide) (withRtc_only _ _ (by decide) h)

theorem dstStep_entries (forward : Bool) : OnlyIn stepPieces progKeys s (s.dstStep forward) :=
  evalPrograms_stepPieces (alarmStep_only _ _ _ (by decide) (withRtc_only _ _ (by decide) (noteOffset_only _ _ _ _ _ (by decide) .refl)))

/-! ### The rules -/

theorem dateTimeRule_range {v : Nat} (h : field v 0 8 ≠ 0) : dateTimeRule s v = (.range, s) := if_pos h

theorem dateTimeRule_invalid {v : Nat} (h : field v 0 8 = 0) (hb : badField v ≠ 0) : dateTimeRule s v = (.timeInvalid, s.rejectTime v) :=
  (if_neg (not_not_intro h)).trans (if_pos hb)

theorem dateTimeRule_set {v : Nat} (h : field v 0 8 = 0) (hb : badField v = 0) :
    dateTimeRule s v = (.ok, s.setCalendar ((secondOf v * tickHz : Nat) - (s.rtc.ticks : Int))) :=
  (if_neg (not_not_intro h)).trans (if_neg (not_not_intro hb))

theorem calendarOffsetRule_range {v : Nat} (h : inCalendar (s.rtc.ticks + toSigned 64 v) = false) : calendarOffsetRule s v = (.range, s) :=
  if_neg (by rw [h]; decide)

theorem calendarOffsetRule_set {v : Nat} (h : inCalendar (s.rtc.ticks + toSigned 64 v) = true) :
    calendarOffsetRule s v = (.ok, s.setCalendar (toSigned 64 v)) := if_pos h

theorem subsecRule_state {v : Nat} (h : s.rtc.valid = false) : subsecRule s v = (.state, s) := if_pos (by rw [h]; rfl)

theorem subsecRule_range {v : Nat} (h : s.rtc.valid = true) (hd : withinI (-32767) 32767 (toSigned 16 v) = false) :
    subsecRule s v = (.range, s) := (if_neg (by rw [h]; decide)).trans (if_neg (by rw [hd]; decide))

theorem subsecRule_shift {v : Nat} (h : s.rtc.valid = true) (hd : withinI (-32767) 32767 (toSigned 16 v) = true) :
    subsecRule s v = (.ok, s.startSlew (toSigned 16 v)) := (if_neg (by rw [h]; decide)).trans (if_pos hd)

theorem dstRule_forward_state (h : s.rtc.valid = false ∨ s.rtc.dst = true) : dstRule s 1 = (.state, s) := by
  have hc : (!s.rtc.valid || s.rtc.dst) = true := by rcases h with h | h <;> simp [h]
  exact (if_pos rfl).trans (if_pos hc)

theorem dstRule_forward (h : s.rtc.valid = true) (hd : s.rtc.dst = false) (hc : inCalendar (s.calTicks + 117964800) = true) :
    dstRule s 1 = (.ok, s.dstStep true) :=
  (if_pos rfl).trans ((if_neg (by rw [h, hd]; decide)).trans (if_pos hc))

theorem dstRule_back_state (h : s.rtc.valid = false ∨ s.rtc.dst = false) : dstRule s 2 = (.state, s) := by
  have hc : (!s.rtc.valid || !s.rtc.dst) = true := by rcases h with h | h <;> simp [h]
  exact (if_neg (by decide)).trans ((if_pos rfl).trans (if_pos hc))

theorem dstRule_back (h : s.rtc.valid = true) (hd : s.rtc.dst = true) : dstRule s 2 = (.ok, s.dstStep false) :=
  (if_neg (by decide)).trans ((if_pos rfl).trans (if_neg (by rw [h, hd]; decide)))

theorem rejectTime_log (h : s.log.queue.length < 256) (v : Nat) :
    ∃ r, (s.rejectTime v).log.queue = s.log.queue ++ [r] ∧ r.typ = Lt.TIME_REJECT :=
  pushLog_waits (s := s.withRtc { s.rtc with timeRejects := satInc 32 s.rtc.timeRejects }) h _ _

/-- A write answered OK, with what its rule does, where the response is all that is said of the ledger engine. -/
theorem Does.responding {i : Instr} {w : Wr} {key : Nat} {l : List Piece} {ks : List Nat} {p : State → Prop}
    {rule : State → Nat → Status × State} (t : State) (he : exec i s = .next (s.ledgerWrite w key rule)) (ha : s.accepts w key)
    (hr : rule (s.taken (wrRequest w key)) w.val = (.ok, t)) (hf : OnlyIn (.klp :: l) ks (s.taken (wrRequest w key)) t)
    (hp : ∀ k, p { t with klp := k }) :
    Does i s (.klp :: l) ks fun t => t.responded (respTo (wrRequest w key) .ok []) ∧ p t := by
  refine ⟨t.answer (wrRequest w key) .ok [], ?_, ?_, answer_responded _ _ _ _, ?_⟩
  · rw [he, ledgerWrite_accepted ha, hr]
  · exact answer_only _ _ _ _ (by simp [frameSub]) (((taken_only _).mono (by simp [frameSub])).trans hf)
  · rw [answer_eq]
    exact hp _

theorem Does.mono {i : Instr} {l l' : List Piece} {ks ks' : List Nat} {p p' : State → Prop} (h : Does i s l ks p)
    (hl : frameSub l ks l' ks' = true) (hp : ∀ t, p t → p' t) : Does i s l' ks' p' := by
  obtain ⟨t, he, hf, ht⟩ := h
  exact ⟨t, he, hf.mono hl, hp t ht⟩

/-- The frame of a step as the obligation writes it. -/
theorem Does.stepped {i : Instr} {p : State → Prop} (h : Does i s (.klp :: stepPieces) progKeys p) :
    Does i s [.power, .klp, .log, .rtc, .loop, .video, .pwr, .freeCtr] ((List.range 32).map Reg.PROG_VALUE) p :=
  h.mono (frameSub_of_subset (by simp [stepPieces]) fun _ h => h) fun _ h => h

theorem Does.imp {i : Instr} {l : List Piece} {ks : List Nat} {p p' : State → Prop} (h : Does i s l ks p) (hp : ∀ t, p t → p' t) :
    Does i s l ks p' := by
  obtain ⟨t, he, hf, ht⟩ := h
  exact ⟨t, he, hf, hp t ht⟩

theorem step_klp (h : OnlyIn stepPieces progKeys s t) : OnlyIn (.klp :: stepPieces) progKeys s t :=
  h.mono (frameSub_of_subset (by simp [stepPieces]) fun _ h => h)

/-- Settles O55: each write by its checks in their order; a step of the offset leaves the alarms and the programs to follow it. -/
theorem calendar : Obligations.Calendar := by
  refine ⟨fun s w ha => ⟨fun h => ?_, fun h hb => ?_, fun h hb => ?_⟩, fun s w ha => ⟨fun h => ?_, fun h => ?_⟩,
    fun s w ha => ⟨fun h => ?_, fun h hd => ?_, fun h hd => ?_⟩, fun s => ⟨_, rfl, withRtc_only _ _ (by decide) .refl, rfl⟩,
    fun r s ha => ⟨fun h => ?_, fun h hd hc => ?_⟩, fun r s ha => ⟨fun h => ?_, fun h hd => ?_⟩⟩
  · exact .rule rfl ha (dateTimeRule_range h)
  · refine (Does.answering (l := [.log, .rtc]) (ks := []) (p := fun t => t.rtc = { s.rtc with timeRejects := satInc 32 s.rtc.timeRejects } ∧
        (s.log.queue.length < 256 → ∃ r, t.log.queue = s.log.queue ++ [r] ∧ r.typ = Lt.TIME_REJECT)) _ rfl ha
      (dateTimeRule_invalid h hb) (rejectTime_only _ _ (by decide) .refl) (by decide) fun k => ⟨pushLog_rtc _ _ _, fun hl => ?_⟩).mono
      (by decide) fun t ht => ⟨ht.2, ht.1.1, ht.1.2⟩
    exact rejectTime_log (s := s.taken (wrRequest w Reg.DATE_TIME)) hl _
  · refine (Does.responding _ rfl ha (dateTimeRule_set h hb) (step_klp (setCalendar_entries _)) fun k => ?_).stepped
    have hc := setCalendar_set (s.taken (wrRequest w Reg.DATE_TIME)) ((secondOf w.val * tickHz : Nat) - ((s.taken (wrRequest w Reg.DATE_TIME)).rtc.ticks : Int))
    have hct := hc.calTicks
    rw [Int.add_comm, Int.sub_add_cancel] at hct
    exact ⟨(calTicks_klp _ _).trans hct, hc.ticks, hc.valid, hc.slew, hc.gen⟩
  · exact .rule rfl ha (calendarOffsetRule_range h)
  · refine (Does.responding _ rfl ha (calendarOffsetRule_set h) (step_klp (setCalendar_entries _)) fun k => ?_).stepped
    have hc := setCalendar_set (s.taken (wrRequest w Reg.CALENDAR_OFFSET)) (toSigned 64 w.val)
    exact ⟨hc.offset, hc.valid, hc.slew, hc.gen⟩
  · exact .rule rfl ha (subsecRule_state h)
  · exact .rule rfl ha (subsecRule_range (s := s.taken _) h hd)
  · exact .rule _ rfl ha (subsecRule_shift (s := s.taken _) h hd) (startSlew_only _ _ (by decide) .refl) (by decide)
      fun k => startSlew_rtc (s.taken _) _
  · exact .rule rfl ha (dstRule_forward_state (s := s.taken _) h)
  · have hstep := dstStep_forward (s.taken (wrRequest { req := r, len := 1, val := 1 } Reg.DST_COMMAND))
    rw [taken_rtc] at hstep
    exact (Does.responding _ rfl ha (dstRule_forward (s := s.taken _) h hd hc) (step_klp (dstStep_entries _))
      fun k => hstep).stepped.imp fun _ h => h.2
  · exact .rule rfl ha (dstRule_back_state (s := s.taken _) h)
  · have hstep := dstStep_back (s.taken (wrRequest { req := r, len := 1, val := 2 } Reg.DST_COMMAND))
    rw [taken_rtc] at hstep
    exact (Does.responding _ rfl ha (dstRule_back (s := s.taken _) h hd) (step_klp (dstStep_entries _))
      fun k => hstep).stepped.imp fun _ h => h.2

end Sys2Proof.Machine
end

section
/-!
PROOF. Alarms, trim and time frames (R474 to R478, R480).
-/
namespace Sys2Proof.Machine

variable {s t u : State} {w : Wr} {n a sec : Nat}

/-! ### One alarm -/

/-- Alarm `n` stands in `t` as in `s`, its match value and the tick count included. -/
structure AlarmKept (n : Nat) (s t : State) : Prop where
  status : t.rtc.alarmStatus.getD n 0 = s.rtc.alarmStatus.getD n 0
  count  : t.rtc.alarmCount.getD n 0 = s.rtc.alarmCount.getD n 0
  last   : t.rtc.alarmLast.getD n 0 = s.rtc.alarmLast.getD n 0
  ticks  : t.rtc.ticks = s.rtc.ticks
  value  : t.alarmMatch n = s.alarmMatch n

/-- Alarm `n` has been evaluated against a second: it fired where it matches, and stands as before where not. -/
structure AlarmFollows (n sec : Nat) (s t : State) : Prop where
  fired : alarmMatches (s.alarmMatch n) sec = true → bitAt (t.rtc.alarmStatus.getD n 0) 0 = true ∧
    t.rtc.alarmLast.getD n 0 = s.rtc.ticks ∧
    (s.rtc.alarmCount.getD n 0 + 1 < 2 ^ 32 → t.rtc.alarmCount.getD n 0 = s.rtc.alarmCount.getD n 0 + 1)
  stays : alarmMatches (s.alarmMatch n) sec = false →
    t.rtc.alarmStatus.getD n 0 = s.rtc.alarmStatus.getD n 0 ∧ t.rtc.alarmCount.getD n 0 = s.rtc.alarmCount.getD n 0

theorem AlarmFollows.after (h : AlarmFollows n sec u t) (hk : AlarmKept n s u) : AlarmFollows n sec s t := by
  obtain ⟨hfired, hstays⟩ := h
  rw [hk.value] at hfired hstays
  rw [hk.ticks, hk.count] at hfired
  rw [hk.status, hk.count] at hstays
  exact ⟨hfired, hstays⟩

theorem AlarmFollows.before (h : AlarmFollows n sec s t) (hk : AlarmKept n t u) : AlarmFollows n sec s u := by
  obtain ⟨hfired, hstays⟩ := h
  rw [← hk.status, ← hk.last, ← hk.count] at hfired
  rw [← hk.status, ← hk.count] at hstays
  exact ⟨hfired, hstays⟩

theorem fireAlarm_rtc (s : State) (a : Nat) (caught : Bool) : ∃ x, (s.fireAlarm a caught).rtc = { s.rtc with
      alarmStatus := s.rtc.alarmStatus.set a (Nat.lor (s.rtc.alarmStatus.getD a 0) (if caught then 3 else 1))
      alarmCount := s.rtc.alarmCount.set a x
      alarmLast := s.rtc.alarmLast.set a s.rtc.ticks } ∧
    (s.rtc.alarmCount.getD a 0 + 1 < 2 ^ 32 → x = s.rtc.alarmCount.getD a 0 + 1) := by
  unfold State.fireAlarm
  extract_lets r st n overs s1 s2
  refine ⟨if overs then s.free % 2 ^ 32 else n, ?_, fun h => if_neg fun h' => absurd (of_decide_eq_true h') (Nat.not_le.mpr h)⟩
  have h2 : s2.rtc = s1.rtc := by
    unfold s2
    split <;> rfl
  split
  · exact ((wakeEvent_only s2 (by decide) .refl : OnlyIn [.power, .video, .pwr] [] s2 _).pieces .rtc (by decide) (by decide)).trans h2
  · exact h2

/-- An alarm evaluated against a second. -/
def State.alarmed (s : State) (sec a : Nat) : State := if alarmMatches (s.alarmMatch a) sec then s.fireAlarm a false else s

theorem evalAlarms_eq (s : State) (sec : Nat) : s.evalAlarms sec = (s.alarmed sec 0).alarmed sec 1 := rfl

theorem alarmed_only (sec a : Nat) : OnlyIn [.power, .rtc, .video, .pwr, .freeCtr] [] s (s.alarmed sec a) := by
  unfold State.alarmed
  split
  · exact fireAlarm_only _ _ _ (by decide) .refl
  · exact .refl

theorem alarmMatch_alarmed (sec a n : Nat) : (s.alarmed sec a).alarmMatch n = s.alarmMatch n :=
  (alarmed_only sec a).entries (by decide) _ List.not_mem_nil

/-- The other alarm stands. -/
theorem alarmed_other (h : n ≠ a) : AlarmKept n s (s.alarmed sec a) := by
  have hv := alarmMatch_alarmed (s := s) sec a n
  unfold State.alarmed at hv ⊢
  split
  · next hm =>
    rw [if_pos hm] at hv
    obtain ⟨x, hx, -⟩ := fireAlarm_rtc s a false
    constructor
    · rw [hx]; exact getD_set_ne h _ _
    · rw [hx]; exact getD_set_ne h _ _
    · rw [hx]; exact getD_set_ne h _ _
    · rw [hx]
    · exact hv
  · exact ⟨rfl, rfl, rfl, rfl, rfl⟩

theorem lor_one_bit (v : Nat) : bitAt (Nat.lor v 1) 0 = true := by
  have : (v ||| 1) % 2 = 1 := by rw [Nat.or_mod_two_eq_one]; simp
  show ((v ||| 1) / 2 ^ 0 % 2 == 1) = true
  rw [Nat.pow_zero, Nat.div_one, this]
  rfl

theorem alarmed_self (h1 : n < s.rtc.alarmStatus.length) (h2 : n < s.rtc.alarmCount.length) (h3 : n < s.rtc.alarmLast.length) :
    AlarmFollows n sec s (s.alarmed sec n) := by
  refine ⟨fun h => ?_, fun h => ?_⟩
  · unfold State.alarmed
    rw [if_pos h]
    obtain ⟨x, hx, hcount⟩ := fireAlarm_rtc s n false
    rw [hx]
    refine ⟨?_, getD_set_self h3 _ _, fun hl => (getD_set_self h2 _ _).trans (hcount hl)⟩
    exact (congrArg (bitAt · 0) (getD_set_self h1 _ _)).trans (lor_one_bit _)
  · unfold State.alarmed
    rw [if_neg (by rw [h]; decide)]
    exact ⟨rfl, rfl⟩

theorem alarmed_lengths (sec a : Nat) : (s.alarmed sec a).rtc.alarmStatus.length = s.rtc.alarmStatus.length ∧
    (s.alarmed sec a).rtc.alarmCount.length = s.rtc.alarmCount.length ∧ (s.alarmed sec a).rtc.alarmLast.length = s.rtc.alarmLast.length := by
  unfold State.alarmed
  split
  · obtain ⟨x, hx, -⟩ := fireAlarm_rtc s a false
    rw [hx]
    exact ⟨List.length_set, List.length_set, List.length_set⟩
  · exact ⟨rfl, rfl, rfl⟩

theorem evalAlarms_follows (hn : n < 2) (h1 : n < s.rtc.alarmStatus.length) (h2 : n < s.rtc.alarmCount.length)
    (h3 : n < s.rtc.alarmLast.length) : AlarmFollows n sec s (s.evalAlarms sec) := by
  rw [evalAlarms_eq]
  obtain ⟨l1, l2, l3⟩ := alarmed_lengths (s := s) sec 0
  rcases (by omega : n = 0 ∨ n = 1) with rfl | rfl
  · exact (alarmed_self h1 h2 h3).before (alarmed_other (by decide))
  · exact (alarmed_self (by omega) (by omega) (by omega)).after (alarmed_other (by decide))

theorem evalAlarms_calendar (s : State) (sec : Nat) : SameCalendar s (s.evalAlarms sec) :=
  foldAlarms_calendar (fun t a => alarmMatches (t.alarmMatch a) sec) false [0, 1] s

/-! ### Time frames -/

theorem timeData_congr (h : ChannelsOnly s t) (fd : Bool) (reason : Nat) : t.timeData fd reason = s.timeData fd reason := by
  have hr : t.rtc = s.rtc := h.only.pieces .rtc (by decide) (by decide)
  unfold State.timeData State.calSecond State.calTicks
  rw [hr]

theorem fdOn_congr (h : ChannelsOnly s t) (c : Bus) : t.fdOn c = s.fdOn c := by
  unfold State.fdOn
  rw [h.only.entries (by decide) _ List.not_mem_nil]

/-- The time frame that a NORMAL channel of `TIME_CHANNELS` with room takes. -/
theorem sendTime_frame {c : Bus} (hs : s.storm = false) (hb : bitAt (s.reg Reg.TIME_CHANNELS) c.idx = true)
    (ha : (s.chan c).active = .normal) (hq : 1 < (s.chan c).queues.length) (hl : ((s.chan c).queues.getD 1 []).length < 4) (reason : Nat) :
    ((s.sendTime reason).chan c).queues.getD 1 [] = (s.chan c).queues.getD 1 [] ++
      [plainFrame (s.ownId 0x2) (s.fdOn c) (s.timeData (s.fdOn c) reason)] := by
  unfold State.sendTime
  obtain ⟨u, hu, he⟩ := foldEnqueue_queue (q := 1) (g := fun t c => plainFrame (t.ownId 0x2) (t.fdOn c) (t.timeData (t.fdOn c) reason))
    (normalIn_nodup _) (mem_normalIn hb ha) ha hs hq hl
  rw [he, ownId_congr hu, fdOn_congr hu, timeData_congr hu]

theorem exec_timeFrameSend (h : s.rtc.sched ≠ [] ∨ s.reg Reg.TIME_FRAME_PERIOD ≠ 0) : exec .timeFrameSend s =
    .next ((s.withRtc { s.rtc with sched := s.rtc.sched.tail }).sendTime (s.rtc.sched.headD 0)) := by
  have he : exec .timeFrameSend s = execTimeFrameSend s := rfl
  rw [he]
  unfold execTimeFrameSend
  cases hl : s.rtc.sched with
  | cons reason rest => rfl
  | nil =>
    have hp : s.reg Reg.TIME_FRAME_PERIOD ≠ 0 := h.resolve_left fun h => h hl
    have hr : s.withRtc { s.rtc with sched := [] } = s := by
      rw [← hl]
      rfl
    simp only [if_neg hp, List.tail_nil, hr, List.headD_nil]

theorem exec_timeFrameSend_none (h : s.rtc.sched = []) (hp : s.reg Reg.TIME_FRAME_PERIOD = 0) : exec .timeFrameSend s = .next s := by
  have he : exec .timeFrameSend s = execTimeFrameSend s := rfl
  rw [he]
  unfold execTimeFrameSend
  rw [h]
  exact congrArg Host.Outcome.next (if_pos hp)

/-! ### Trim -/

theorem trimFor_bounds (s : State) (temp : Int) : -511 ≤ s.trimFor temp ∧ s.trimFor temp ≤ 511 := by
  unfold State.trimFor
  split
  · decide
  · exact clampI_bounds (by decide) _

/-- Settles O56: each alarm by itself, the trim within its bounds, the time frame on every channel that takes it. -/
theorem alarmsAndTime : Obligations.AlarmsAndTime := by
  refine ⟨fun s h => congrArg Host.Outcome.next (if_neg (by rw [h]; decide)), fun s h => ?_,
    fun n s w hn ha => ⟨fun h => ?_, fun h hs => ?_⟩, fun n s w hn ha => ?_, fun temp vbak s => ⟨fun h => ?_, fun h => ?_⟩,
    fun s => ⟨exec_timeFrameSend_none, fun h => ?_⟩⟩
  · have hc := evalAlarms_calendar s s.calSecond.toNat
    refine .of_only (execCalendarSecond_only s (by decide) .refl) (congrArg Host.Outcome.next (if_pos h)) ⟨rfl, hc.ticks, hc.offset, fun n hn h1 h2 h3 => ?_⟩
    have hf := evalAlarms_follows (sec := s.calSecond.toNat) hn h1 h2 h3
    exact ⟨hf.fired, hf.stays⟩
  · exact .rule rfl ha (if_neg (by rw [h]; decide))
  · exact .rule rfl ha hs (if_pos h)
  · refine .rule _ rfl ha rfl ?_ (by decide) fun k => ?_
    · split
      · exact withRtc_only _ _ (by decide) .refl
      · exact .refl
    · dsimp only
      split <;> rfl
  · exact congrArg Host.Outcome.next (if_pos h)
  · refine ⟨_, congrArg Host.Outcome.next (if_neg h), withRtc_only _ _ (by decide) .refl, rfl, (trimFor_bounds s temp).1, (trimFor_bounds s temp).2, fun h => if_pos h⟩
  · refine .of_only (execTimeFrameSend_only s (by decide) .refl) (exec_timeFrameSend h) ⟨?_, fun c hb ha hs hq hl => ?_⟩
    · exact (sendTime_channelsOnly _ _).only.pieces .rtc (by decide) (by decide)
    · exact sendTime_frame (s := s.withRtc { s.rtc with sched := s.rtc.sched.tail }) hs hb ha hq hl _

end Sys2Proof.Machine
end

section
/-!
PROOF. Keys (R501, R502, R504, R507).
-/
namespace Sys2Proof.Machine

variable {s t : State} {k j : Nat} {closed : Nat → Bool}

/-! ### The keys of a scan -/

theorem key_setKey_self (p : KeyPart) (h1 : 1 ≤ k) (h : k ≤ p.keys.length) (u : KeyUnit) : (p.setKey k u).key k = u :=
  getD_set_self (by omega) _ _

theorem key_setKey_ne (p : KeyPart) (h : 1 ≤ k) (hj : 1 ≤ j) (hne : j ≠ k) (u : KeyUnit) : (p.setKey k u).key j = p.key j :=
  getD_set_ne (by omega) _ _

theorem setKey_key (p : KeyPart) (k : Nat) : p.setKey k (p.key k) = p := by
  unfold KeyPart.setKey KeyPart.key
  have : p.keys.set (k - 1) (p.keys.getD (k - 1) KeyUnit.idle) = p.keys := by
    refine List.ext_getElem? fun i => ?_
    rw [List.getElem?_set]
    split
    · next h =>
      subst h
      split
      · next hl => rw [getD_of_lt hl, List.getElem?_eq_getElem hl]
      · next hl => rw [List.getElem?_eq_none (by omega)]
    · rfl
  rw [this]

/-- Of the state only the keys themselves changed: each key of the list by `g`. -/
structure KeysMapped (s t : State) (l : List Nat) (g : Nat → KeyUnit → KeyUnit) : Prop where
  only   : t = s.withKeys { s.keys with keys := t.keys.keys }
  length : t.keys.keys.length = s.keys.keys.length
  key    : ∀ j, 1 ≤ j → j ≤ s.keys.keys.length → t.keys.key j = if j ∈ l then g j (s.keys.key j) else s.keys.key j

theorem KeysMapped.nil (g : Nat → KeyUnit → KeyUnit) : KeysMapped s s [] g := ⟨rfl, rfl, fun _ _ _ => (if_neg List.not_mem_nil).symm⟩

/-- A fold that puts every key of the list to `g` of it. -/
theorem foldKeys {g : Nat → KeyUnit → KeyUnit} {f : State → Nat → State}
    {l : List Nat} (hf : ∀ t, ∀ k ∈ l, f t k = t.withKeys (t.keys.setKey k (g k (t.keys.key k)))) (hn : l.Nodup)
    (hl : ∀ k ∈ l, 1 ≤ k ∧ k ≤ s.keys.keys.length) : KeysMapped s (l.foldl f s) l g := by
  induction l generalizing s with
  | nil => exact .nil g
  | cons k l ih =>
    rw [List.nodup_cons] at hn
    obtain ⟨h1, h36⟩ := hl k List.mem_cons_self
    have hlen : (s.keys.setKey k (g k (s.keys.key k))).keys.length = s.keys.keys.length := List.length_set
    rw [List.foldl_cons, hf _ _ List.mem_cons_self]
    obtain ⟨honly, hlength, hkey⟩ := ih (s := s.withKeys (s.keys.setKey k (g k (s.keys.key k)))) (fun t j hj => hf t j (List.mem_cons_of_mem _ hj)) hn.2
      fun j hj => ⟨(hl j (List.mem_cons_of_mem _ hj)).1, Nat.le_trans (hl j (List.mem_cons_of_mem _ hj)).2 (Nat.le_of_eq hlen.symm)⟩
    refine ⟨honly, hlength.trans hlen, fun j hj hj36 => ?_⟩
    rw [hkey j hj (Nat.le_trans hj36 (Nat.le_of_eq hlen.symm)), State.withKeys_keys]
    by_cases hjk : j = k
    · subst hjk
      rw [if_neg hn.1, if_pos List.mem_cons_self, key_setKey_self _ h1 h36]
    · rw [key_setKey_ne _ h1 hj hjk]
      simp only [List.mem_cons, hjk, false_or]

/-! ### Rectangles -/

/-- Every rectangle of a key has a corner that is another key. -/
theorem rectangles_other (h : 1 ≤ k) {l : List Nat} (hl : l ∈ rectangles k) : ∃ e ∈ l, 1 ≤ e ∧ e ≤ 36 ∧ e ≠ k := by
  obtain ⟨r, hr, hl⟩ := List.mem_flatMap.mp hl
  obtain ⟨c, -, hl⟩ := List.mem_filterMap.mp hl
  have hr6 := List.mem_range.mp hr
  split at hl
  · exact nomatch hl
  · next hne =>
    rw [not_or] at hne
    rw [← Option.some.inj hl]
    refine ⟨_, List.mem_cons_self, ?_⟩
    unfold keyRow at hne
    unfold keyAt keyCol
    omega

/-- A key alone completes no rectangle. -/
theorem cornersOf_alone {accepted : Nat → Bool} (h : 1 ≤ k) (ha : ∀ e, 1 ≤ e → e ≤ 36 → e ≠ k → accepted e = false) :
    cornersOf accepted k = [] := by
  unfold cornersOf
  rw [List.filter_eq_nil_iff.mpr, List.flatten_nil]
  intro l hl hall
  obtain ⟨e, he, h1, h36, hne⟩ := rectangles_other h hl
  exact Bool.false_ne_true ((ha e h1 h36 hne).symm.trans (List.all_eq_true.mp hall e he))

/-! ### Events -/

/-- The value of a key event. -/
def State.eventValue (s : State) (k typ : Nat) : Nat := 2 ^ 24 * k + 2 ^ 20 * typ + s.tick % 65536

theorem eventValue_lt (h : k ≤ 36) {typ : Nat} (ht : typ ≤ 4) : s.eventValue k typ < 2 ^ 32 := by
  unfold State.eventValue
  have := Nat.mod_lt s.tick (show 0 < 65536 by decide)
  omega

def eventKeys : List Nat := [Reg.KEY_EVENTS, Reg.KEY_EVENTS_LOST, Reg.KEY_LAST_EVENT]

theorem keyEvent_entries (k typ : Nat) : OnlyIn [.keys] eventKeys s (s.keyEvent k typ) := by
  unfold State.keyEvent
  extract_lets v s1
  have h1 : OnlyIn [.keys] eventKeys s s1 := setReg_only _ _ _ (by decide) (incSat_only _ _ (by decide) .refl)
  split
  · exact withKeys_only _ _ (by decide) h1
  · exact incSat_only _ _ (by decide) h1

theorem keyEvent_keys (s : State) (k typ : Nat) : (s.keyEvent k typ).keys.keys = s.keys.keys ∧
    (s.keyEvent k typ).keys.both = s.keys.both ∧
    (s.keyEvent k typ).keys.fifo = if s.keys.fifo.length < 32 then s.keys.fifo ++ [s.eventValue k typ] else s.keys.fifo := by
  unfold State.keyEvent
  extract_lets v s1
  have h1 : s1.keys = s.keys := rfl
  by_cases h : s.keys.fifo.length < 32
  · rw [if_pos (by rw [h1]; exact h), if_pos h]
    exact ⟨rfl, rfl, rfl⟩
  · rw [if_neg (by rw [h1]; exact h), if_neg h]
    exact ⟨rfl, rfl, rfl⟩

theorem keyEvent_last (h : k ≤ 36) {typ : Nat} (ht : typ ≤ 4) : (s.keyEvent k typ).reg Reg.KEY_LAST_EVENT = s.eventValue k typ := by
  have hb : keyBits Reg.KEY_LAST_EVENT = 32 := rfl
  unfold State.keyEvent
  extract_lets v s1
  have h1 : s1.reg Reg.KEY_LAST_EVENT = s.eventValue k typ := by
    unfold s1
    rw [State.reg_setReg_self, hb]
    exact Nat.mod_eq_of_lt (eventValue_lt h ht)
  split
  · exact h1
  · exact (State.reg_setReg_ne _ (by decide)).trans h1

theorem keyEvent_lost (k typ : Nat) (h : 32 ≤ s.keys.fifo.length) :
    (s.keyEvent k typ).reg Reg.KEY_EVENTS_LOST = satInc (keyBits Reg.KEY_EVENTS_LOST) (s.reg Reg.KEY_EVENTS_LOST) := by
  unfold State.keyEvent
  extract_lets v s1
  have h1 : s1.reg Reg.KEY_EVENTS_LOST = s.reg Reg.KEY_EVENTS_LOST :=
    (State.reg_setReg_ne _ (by decide)).trans (State.reg_setReg_ne _ (by decide))
  rw [if_neg (show ¬s1.keys.fifo.length < 32 from Nat.not_lt.mpr h), State.reg_incSat, h1]

/-! ### A scan of one key -/

/-- What a scan first makes of a key: the count of scans that agree on the other state. -/
def scanStep (closed : Nat → Bool) (k : Nat) (u : KeyUnit) : KeyUnit :=
  if u.pressed = closed k then { u with agree := 0, blocked := u.blocked && closed k } else { u with agree := u.agree + 1 }

/-- The keys of a list with the counts of a scan. -/
def State.agreed (s : State) (ks : List Nat) (closed : Nat → Bool) : State :=
  ks.foldl (fun t k =>
    let u := t.keys.key k
    if u.pressed = closed k then t.withKeys (t.keys.setKey k { u with agree := 0, blocked := u.blocked && closed k })
    else t.withKeys (t.keys.setKey k { u with agree := u.agree + 1 })) s

/-- A list of every key once. -/
structure AllKeys (ks : List Nat) : Prop where
  mem   : ∀ j, j ∈ ks ↔ 1 ≤ j ∧ j ≤ 36
  nodup : ks.Nodup

theorem AllKeys.none {ks : List Nat} (h : AllKeys ks) {p : Nat → Bool} (hp : ∀ j, 1 ≤ j → j ≤ 36 → p j = false) : ks.filter p = [] :=
  List.filter_eq_nil_iff.mpr fun j hj => by
    rw [hp j ((h.mem j).mp hj).1 ((h.mem j).mp hj).2]
    exact Bool.false_ne_true

theorem AllKeys.one {ks : List Nat} (h : AllKeys ks) {p : Nat → Bool} (h1 : 1 ≤ k) (h36 : k ≤ 36)
    (hp : ∀ j, 1 ≤ j → j ≤ 36 → p j = decide (j = k)) : ks.filter p = [k] := by
  have he : ks.filter p = ks.filter (· == k) := List.filter_congr fun j hj => hp j ((h.mem j).mp hj).1 ((h.mem j).mp hj).2
  rw [he, List.filter_beq, h.nodup.count, if_pos ((h.mem k).mpr ⟨h1, h36⟩)]
  rfl

theorem AllKeys.le {ks : List Nat} (h : AllKeys ks) (hl : s.keys.keys.length = 36) : ∀ k ∈ ks, 1 ≤ k ∧ k ≤ s.keys.keys.length := fun k hk => by
  rw [hl]
  exact (h.mem k).mp hk

theorem allKeys_scan : AllKeys ((List.range 36).map (· + 1)) := by
  refine ⟨fun j => ?_, by decide⟩
  rw [List.mem_map]
  refine ⟨fun ⟨i, hi, he⟩ => ?_, fun h => ⟨j - 1, List.mem_range.mpr (by omega), by omega⟩⟩
  have := List.mem_range.mp hi
  omega

theorem agreed_mapped {ks : List Nat} (h : AllKeys ks) (hl : s.keys.keys.length = 36) (closed : Nat → Bool) :
    KeysMapped s (s.agreed ks closed) ks (scanStep closed) := by
  refine foldKeys (fun t k _ => ?_) h.nodup (h.le hl)
  unfold scanStep
  dsimp only
  split <;> rfl

theorem KeysMapped.get {ks : List Nat} {g : Nat → KeyUnit → KeyUnit} (h : KeysMapped s t ks g) (ha : AllKeys ks)
    (hl : s.keys.keys.length = 36) (h1 : 1 ≤ j) (h36 : j ≤ 36) : t.keys.key j = g j (s.keys.key j) :=
  (h.key j h1 (by omega)).trans (if_pos ((ha.mem j).mpr ⟨h1, h36⟩))

/-- A key whose position is closed is not blocked any more. -/
def unblock (k j : Nat) (u : KeyUnit) : KeyUnit := if j = k then { u with blocked := false } else u

/-- A scan that finds one key closed where none is held. -/
theorem scanKeys_press (hl : s.keys.keys.length = 36) (h1 : 1 ≤ k) (h36 : k ≤ 36)
    (hc : ∀ j, 1 ≤ j → j ≤ 36 → closed j = decide (j = k)) (hp : ∀ j, 1 ≤ j → j ≤ 36 → (s.keys.key j).pressed = false) :
    ∃ ks t, AllKeys ks ∧ KeysMapped (s.agreed ks closed) t ks (unblock k) ∧
      s.scanKeys closed = if s.reg Reg.KEY_DEBOUNCE ≤ (s.keys.key k).agree + 1 then t.keyPress k else t := by
  unfold State.scanKeys
  have hks := allKeys_scan
  generalize (List.range 36).map (· + 1) = ks at hks
  extract_lets need ks' s0 off s1 held fresh due ghosts s2 s3
  have hmap : KeysMapped s s0 ks (scanStep closed) := agreed_mapped hks hl closed
  have hpress (j : Nat) (hj1 : 1 ≤ j) (hj36 : j ≤ 36) : (s0.keys.key j).pressed = false := by
    rw [hmap.get hks hl hj1 hj36]
    unfold scanStep
    split <;> exact hp j hj1 hj36
  have hagree : (s0.keys.key k).agree = (s.keys.key k).agree + 1 := by
    rw [hmap.get hks hl h1 h36]
    unfold scanStep
    rw [if_neg]
    rw [hp k h1 h36, hc k h1 h36]
    simp
  have hoff : off = [] := hks.none fun j hj1 hj36 => by rw [hpress j hj1 hj36, Bool.false_and]
  have hs1 : s1 = s0 := by
    unfold s1
    rw [hoff]
    rfl
  have hheld (j : Nat) (hj1 : 1 ≤ j) (hj36 : j ≤ 36) : held j = false := by
    unfold held
    rw [hs1]
    exact hpress j hj1 hj36
  have hfresh (j : Nat) (hj1 : 1 ≤ j) (hj36 : j ≤ 36) : fresh j = decide (j = k) := by
    unfold fresh
    rw [hheld j hj1 hj36, hc j hj1 hj36, Bool.not_false, Bool.and_true]
  have hdue (j : Nat) (hj1 : 1 ≤ j) (hj36 : j ≤ 36) (hj : j ≠ k) : due j = false := by
    unfold due
    rw [hfresh j hj1 hj36, decide_eq_false hj, Bool.false_and]
  have hghosts : ghosts = [] := by
    unfold ghosts
    split
    · rfl
    · refine hks.none fun j hj1 hj36 => ?_
      by_cases hj : j = k
      · subst hj
        rw [cornersOf_alone hj1 fun e he1 he36 _ => hheld e he1 he36,
          cornersOf_alone hj1 fun e he1 he36 hne => by rw [hheld e he1 he36, hdue e he1 he36 hne]; rfl]
        simp
      · rw [hfresh j hj1 hj36, hdue j hj1 hj36 hj, decide_eq_false hj]
        simp
  have hs2 : s2 = s0 := by
    unfold s2
    rw [hghosts, hs1]
    rfl
  refine ⟨ks, s3, hks, ?_, ?_⟩
  · unfold s3
    rw [hs2]
    refine foldKeys (fun t j hj => ?_) hks.nodup (hks.le (hmap.length.trans hl))
    obtain ⟨hj1, hj36⟩ := (hks.mem j).mp hj
    rw [hghosts, hfresh j hj1 hj36]
    unfold unblock
    by_cases hj : j = k
    · simp [hj]
    · simp [hj, setKey_key]
      rfl
  · have hk : due k = Nat.ble need ((s.keys.key k).agree + 1) := by
      unfold due
      rw [hfresh k h1 h36, hs1, hagree, decide_eq_true rfl, Bool.true_and]
    rw [hghosts]
    by_cases hn : need ≤ (s.keys.key k).agree + 1
    · rw [if_pos hn, hks.one h1 h36]
      · rfl
      · intro j hj1 hj36
        by_cases hj : j = k
        · rw [hj, hk, Nat.ble_eq_true_of_le hn]
          simp
        · rw [hdue j hj1 hj36 hj, decide_eq_false hj, Bool.false_and]
    · rw [if_neg hn, hks.none]
      · rfl
      · intro j hj1 hj36
        by_cases hj : j = k
        · rw [hj, hk, Bool.eq_false_iff.mpr fun h => hn (Nat.ble_eq.mp h), Bool.false_and]
        · rw [hdue j hj1 hj36 hj, Bool.false_and]

theorem key_congr {p q : KeyPart} (h : p.keys = q.keys) (j : Nat) : p.key j = q.key j := by
  unfold KeyPart.key
  rw [h]

theorem keyWake_keys (s : State) (press : Bool) : (s.keyWake press).keys = s.keys :=
  (keyWake_only s press (by decide) .refl : OnlyIn [.power, .video, .pwr] [] s _).pieces .keys (by decide) (by decide)

theorem keyWake_reg (s : State) (press : Bool) (k : Nat) : (s.keyWake press).reg k = s.reg k :=
  (keyWake_only s press (by decide) .refl : OnlyIn [.power, .video, .pwr] [] s _).entries (by decide) k List.not_mem_nil

/-- The key that a release leaves. -/
def released (u : KeyUnit) : KeyUnit := { u with pressed := false, agree := 0, stuck := false, amb := false }

/-- A key that is not AMBIGUOUS released: no other key follows it. -/
theorem keyRelease_clear (h : (s.keys.key k).amb = false) (closed : Nat → Bool) : s.keyRelease closed k =
    ((s.withKeys (s.keys.setKey k (released (s.keys.key k)))).keyEvent k keRelease).keyWake false := by
  unfold State.keyRelease
  dsimp only
  rw [h]
  rfl

/-- A fold whose step leaves the start as it is at every member. -/
theorem foldl_rests {α : Type} {f : State → α → State} {l : List α} (h : ∀ a ∈ l, f s a = s) : l.foldl f s = s := by
  induction l with
  | nil => rfl
  | cons a l ih =>
    rw [List.foldl_cons, h a List.mem_cons_self]
    exact ih fun b hb => h b (List.mem_cons_of_mem _ hb)

/-- A scan that finds a held key open, and nothing closed. -/
theorem scanKeys_release (hl : s.keys.keys.length = 36) (h1 : 1 ≤ k) (h36 : k ≤ 36)
    (hc : ∀ j, 1 ≤ j → j ≤ 36 → closed j = false) (hp : ∀ j, 1 ≤ j → j ≤ 36 → (s.keys.key j).pressed = decide (j = k))
    (hamb : (s.keys.key k).amb = false) (hn : s.reg Reg.KEY_DEBOUNCE ≤ (s.keys.key k).agree + 1) :
    ∃ ks, AllKeys ks ∧ s.scanKeys closed = (s.agreed ks closed).keyRelease closed k := by
  unfold State.scanKeys
  have hks := allKeys_scan
  generalize (List.range 36).map (· + 1) = ks at hks
  extract_lets need ks' s0 off s1 held fresh due ghosts s2 s3
  have hmap : KeysMapped s s0 ks (scanStep closed) := agreed_mapped hks hl closed
  have hpress (j : Nat) (hj1 : 1 ≤ j) (hj36 : j ≤ 36) : (s0.keys.key j).pressed = decide (j = k) := by
    rw [hmap.get hks hl hj1 hj36]
    unfold scanStep
    split <;> exact hp j hj1 hj36
  have hself : s0.keys.key k = { s.keys.key k with agree := (s.keys.key k).agree + 1 } := by
    rw [hmap.get hks hl h1 h36]
    unfold scanStep
    rw [if_neg]
    rw [hp k h1 h36, hc k h1 h36]
    simp
  have hoff : off = [k] := hks.one h1 h36 fun j hj1 hj36 => by
    rw [hpress j hj1 hj36]
    by_cases hj : j = k
    · rw [hj, hself, Nat.ble_eq_true_of_le hn, Bool.and_true]
    · rw [decide_eq_false hj, Bool.false_and]
  have hs1 : s1 = s0.keyRelease closed k := by
    unfold s1
    rw [hoff]
    rfl
  have hheld (j : Nat) (hj1 : 1 ≤ j) (hj36 : j ≤ 36) : held j = false := by
    unfold held
    rw [hs1, keyRelease_clear (by rw [hself]; exact hamb), keyWake_keys, key_congr (keyEvent_keys _ _ _).1, State.withKeys_keys]
    by_cases hj : j = k
    · rw [hj, key_setKey_self _ h1 (by rw [hmap.length, hl]; exact h36)]
      rfl
    · rw [key_setKey_ne _ h1 hj1 hj, hpress j hj1 hj36, decide_eq_false hj]
  have hfresh (j : Nat) (hj1 : 1 ≤ j) (hj36 : j ≤ 36) : fresh j = false := by
    unfold fresh
    rw [hc j hj1 hj36, Bool.false_and]
  have hdue (j : Nat) (hj1 : 1 ≤ j) (hj36 : j ≤ 36) : due j = false := by
    unfold due
    rw [hfresh j hj1 hj36, Bool.false_and]
  have hghosts : ghosts = [] := by
    unfold ghosts
    split
    · rfl
    · exact hks.none fun j hj1 hj36 => by rw [hfresh j hj1 hj36, hdue j hj1 hj36]; rfl
  have hs2 : s2 = s1 := by
    unfold s2
    rw [hghosts]
    rfl
  have hs3 : s3 = s1 := by
    unfold s3
    rw [hs2]
    refine foldl_rests fun j hj => if_neg ?_
    rw [hfresh j ((hks.mem j).mp hj).1 ((hks.mem j).mp hj).2, Bool.false_and]
    exact Bool.false_ne_true
  refine ⟨ks, hks, ?_⟩
  rw [hks.none fun j hj1 hj36 => by rw [hdue j hj1 hj36, Bool.false_and], hs3]
  exact hs1

/-! ### The commands of the keys -/

theorem KeysMapped.onlyKeys {l : List Nat} {g : Nat → KeyUnit → KeyUnit} (h : KeysMapped s t l g) : OnlyIn [.keys] [] s t := by
  rw [h.only]
  exact withKeys_only _ _ (by decide) .refl

theorem KeysMapped.fifo {l : List Nat} {g : Nat → KeyUnit → KeyUnit} (h : KeysMapped s t l g) : t.keys.fifo = s.keys.fifo := by
  rw [h.only]
  rfl

theorem KeysMapped.tide {l : List Nat} {g : Nat → KeyUnit → KeyUnit} (h : KeysMapped s t l g) : t.tide = s.tide :=
  h.onlyKeys.pieces .tide (by decide) (by decide)

theorem eventValue_only (h : OnlyIn [.keys] [] s t) (k typ : Nat) : t.eventValue k typ = s.eventValue k typ := by
  unfold State.eventValue State.tick State.epochClocks State.rate State.now
  rw [h.pieces .tide (by decide) (by decide), h.entries (by decide) _ List.not_mem_nil, h.entries (by decide) _ List.not_mem_nil,
    h.entries (by decide) _ List.not_mem_nil]

theorem now_tide (h : t.tide = s.tide) : t.now = s.now := by
  unfold State.now
  rw [h]

theorem scanStep_pressed (closed : Nat → Bool) (k : Nat) (u : KeyUnit) : (scanStep closed k u).pressed = u.pressed := by
  unfold scanStep
  split <;> rfl

theorem unblock_pressed (k j : Nat) (u : KeyUnit) : (unblock k j u).pressed = u.pressed := by
  unfold unblock
  split <;> rfl

theorem unblock_agree (k j : Nat) (u : KeyUnit) : (unblock k j u).agree = u.agree := by
  unfold unblock
  split <;> rfl

/-- Keys that agree at 1 to 36 agree everywhere. -/
theorem pressed_everywhere (hs : s.keys.keys.length = 36) (ht : t.keys.keys.length = 36)
    (h : ∀ j, 1 ≤ j → j ≤ 36 → (t.keys.key j).pressed = (s.keys.key j).pressed) (j : Nat) :
    (t.keys.key j).pressed = (s.keys.key j).pressed := by
  by_cases h0 : j = 0
  · subst h0
    exact h 1 (by omega) (by omega)
  · by_cases h36 : j ≤ 36
    · exact h j (by omega) h36
    · unfold KeyPart.key
      rw [getD_of_length_le (by omega), getD_of_length_le (by omega)]

theorem exec_keyScan (h : s.panelLive = true) (closed : Nat) :
    exec (.keyScan closed) s = .next (s.scanKeys fun k => bitAt closed (k - 1)).watchResetKeys := congrArg Host.Outcome.next (if_pos h)

theorem watchResetKeys_key (s : State) (j : Nat) : s.watchResetKeys.keys.key j = s.keys.key j := rfl

theorem watchResetKeys_reg (s : State) (k : Nat) : s.watchResetKeys.reg k = s.reg k := rfl

theorem keyScan_rests (h : s.panelLive = false) (closed : Nat) : Rests (.keyScan closed) s :=
  congrArg Host.Outcome.next (if_neg (by rw [h]; exact Bool.false_ne_true))

/-- The one closed key of a scan where none is held. -/
structure OneClosed (s : State) (closed k : Nat) : Prop where
  live   : s.panelLive = true
  units  : s.keys.keys.length = 36
  first  : 1 ≤ k
  last   : k ≤ 36
  closed : ∀ j, 1 ≤ j → j ≤ 36 → bitAt closed (j - 1) = decide (j = k)
  clear  : ∀ j, 1 ≤ j → j ≤ 36 → (s.keys.key j).pressed = false

theorem scanStep_open (hu : (s.keys.key k).pressed ≠ closed k) :
    scanStep closed k (s.keys.key k) = { s.keys.key k with agree := (s.keys.key k).agree + 1 } := if_neg hu

theorem keyScan_counts {closed : Nat} (h : OneClosed s closed k) (hn : (s.keys.key k).agree + 1 < s.reg Reg.KEY_DEBOUNCE) :
    Does (.keyScan closed) s [.keys] [] fun t =>
      (t.keys.key k).agree = (s.keys.key k).agree + 1 ∧ ∀ j, (t.keys.key j).pressed = (s.keys.key j).pressed := by
  obtain ⟨hlive, hl, h1, h36, hc, hp⟩ := h
  obtain ⟨ks, t, hks, ht, he⟩ := scanKeys_press hl h1 h36 hc hp
  have ha := agreed_mapped hks hl fun k => bitAt closed (k - 1)
  rw [if_neg (by omega)] at he
  refine ⟨t.watchResetKeys, (exec_keyScan hlive closed).trans (by rw [he]), watchResetKeys_only _ (by decide) (ha.onlyKeys.trans ht.onlyKeys), ?_, ?_⟩
  · rw [watchResetKeys_key, ht.get hks (ha.length.trans hl) h1 h36, unblock_agree, ha.get hks hl h1 h36,
      scanStep_open (by rw [hp k h1 h36, hc k h1 h36]; simp)]
  · refine pressed_everywhere hl ((ht.length.trans ha.length).trans hl) fun j hj1 hj36 => ?_
    rw [watchResetKeys_key, ht.get hks (ha.length.trans hl) hj1 hj36, unblock_pressed, ha.get hks hl hj1 hj36, scanStep_pressed]

/-- A key accepted as pressed. -/
theorem keyPress_key (s : State) (k j : Nat) : (s.keyPress k).keys.key j = (s.keys.setKey k { s.keys.key k with
    pressed := true, agree := 0, since := s.now, repeats := 0, longed := false, stuck := false, blocked := false }).key j := by
  unfold State.keyPress
  extract_lets u s1
  rw [keyWake_keys, key_congr (keyEvent_keys _ _ _).1]
  rfl

theorem keyPress_last (h : k ≤ 36) : (s.keyPress k).reg Reg.KEY_LAST_EVENT = s.eventValue k kePress := by
  unfold State.keyPress
  extract_lets u s1
  rw [keyWake_reg, keyEvent_last h (by decide)]
  rfl

theorem keyPress_fifo (s : State) (k : Nat) : (s.keyPress k).keys.fifo =
    if s.keys.fifo.length < 32 then s.keys.fifo ++ [s.eventValue k kePress] else s.keys.fifo := by
  unfold State.keyPress
  extract_lets u s1
  rw [keyWake_keys, (keyEvent_keys _ _ _).2.2]
  rfl

theorem keyScan_presses {closed : Nat} (h : OneClosed s closed k) (hn : s.reg Reg.KEY_DEBOUNCE ≤ (s.keys.key k).agree + 1) :
    Does (.keyScan closed) s [.power, .video, .keys, .pwr] [Reg.KEY_EVENTS, Reg.KEY_EVENTS_LOST, Reg.KEY_LAST_EVENT] fun t =>
      (t.keys.key k).pressed = true ∧ (t.keys.key k).since = s.now ∧
        (∀ j, 1 ≤ j → j ≤ 36 → j ≠ k → (t.keys.key j).pressed = false) ∧
        t.reg Reg.KEY_LAST_EVENT = s.eventValue k kePress ∧
        (s.keys.fifo.length < 32 → t.keys.fifo = s.keys.fifo ++ [s.eventValue k kePress]) := by
  obtain ⟨hlive, hl, h1, h36, hc, hp⟩ := h
  obtain ⟨ks, t, hks, ht, he⟩ := scanKeys_press hl h1 h36 hc hp
  have ha := agreed_mapped hks hl fun k => bitAt closed (k - 1)
  have hlen : t.keys.keys.length = 36 := (ht.length.trans ha.length).trans hl
  have htide : t.tide = s.tide := ht.tide.trans ha.tide
  have hfifo : t.keys.fifo = s.keys.fifo := ht.fifo.trans ha.fifo
  rw [if_pos hn] at he
  have hst : OnlyIn [.keys] [] s t := ha.onlyKeys.trans ht.onlyKeys
  have hself : ((t.keyPress k).watchResetKeys.keys.key k) = { t.keys.key k with
      pressed := true, agree := 0, since := t.now, repeats := 0, longed := false, stuck := false, blocked := false } :=
    (keyPress_key t k k).trans (key_setKey_self _ h1 (Nat.le_trans h36 (Nat.le_of_eq hlen.symm)) _)
  refine ⟨(t.keyPress k).watchResetKeys, (exec_keyScan hlive closed).trans (by rw [he]),
    watchResetKeys_only _ (by decide) (keyPress_only _ _ (by decide) (hst.mono (by decide))), ?_, ?_, ?_, ?_, ?_⟩
  · rw [hself]
  · rw [hself]
    exact now_tide htide
  · intro j hj1 hj36 hj
    rw [watchResetKeys_key, keyPress_key, key_setKey_ne _ h1 hj1 hj, ht.get hks (ha.length.trans hl) hj1 hj36, unblock_pressed,
      ha.get hks hl hj1 hj36, scanStep_pressed, hp j hj1 hj36]
  · exact (keyPress_last h36).trans (eventValue_only hst _ _)
  · intro hroom
    refine (keyPress_fifo t k).trans ?_
    rw [hfifo, if_pos hroom, eventValue_only hst]

/-- A scan that lets one held key go. -/
structure OneReleased (s : State) (closed k : Nat) : Prop where
  live   : s.panelLive = true
  units  : s.keys.keys.length = 36
  first  : 1 ≤ k
  last   : k ≤ 36
  closed : ∀ j, 1 ≤ j → j ≤ 36 → bitAt closed (j - 1) = false
  held   : ∀ j, 1 ≤ j → j ≤ 36 → (s.keys.key j).pressed = decide (j = k)
  clear  : (s.keys.key k).amb = false
  agreed : s.reg Reg.KEY_DEBOUNCE ≤ (s.keys.key k).agree + 1

theorem scanStep_amb (closed : Nat → Bool) (k : Nat) (u : KeyUnit) : (scanStep closed k u).amb = u.amb := by
  unfold scanStep
  split <;> rfl

theorem keyScan_releases {closed : Nat} (h : OneReleased s closed k) :
    Does (.keyScan closed) s [.power, .video, .keys, .pwr] [Reg.KEY_EVENTS, Reg.KEY_EVENTS_LOST, Reg.KEY_LAST_EVENT] fun t =>
      (∀ j, 1 ≤ j → j ≤ 36 → (t.keys.key j).pressed = false) ∧ (t.keys.key k).stuck = false ∧
        t.reg Reg.KEY_LAST_EVENT = s.eventValue k keRelease := by
  obtain ⟨hlive, hl, h1, h36, hc, hp, hamb, hn⟩ := h
  obtain ⟨ks, hks, he⟩ := scanKeys_release hl h1 h36 hc hp hamb hn
  have ha := agreed_mapped hks hl fun k => bitAt closed (k - 1)
  generalize s.agreed ks (fun k => bitAt closed (k - 1)) = u at ha he
  have hu : (u.keys.key k).amb = false := by rw [ha.get hks hl h1 h36, scanStep_amb, hamb]
  have hlen : u.keys.keys.length = 36 := ha.length.trans hl
  have hkey (j : Nat) : (u.keyRelease (fun k => bitAt closed (k - 1)) k).watchResetKeys.keys.key j =
      (u.keys.setKey k (released (u.keys.key k))).key j := by
    rw [watchResetKeys_key, keyRelease_clear hu, keyWake_keys, key_congr (keyEvent_keys _ _ _).1]
    rfl
  have hself := (hkey k).trans (key_setKey_self _ h1 (Nat.le_trans h36 (Nat.le_of_eq hlen.symm)) _)
  refine ⟨_, (exec_keyScan hlive closed).trans (by rw [he]),
    watchResetKeys_only _ (by decide) (keyRelease_only _ _ _ (by decide) (ha.onlyKeys.mono (by decide))), ?_, ?_, ?_⟩
  · intro j hj1 hj36
    by_cases hj : j = k
    · rw [hj, hself]
      rfl
    · rw [hkey, key_setKey_ne _ h1 hj1 hj, ha.get hks hl hj1 hj36, scanStep_pressed, hp j hj1 hj36, decide_eq_false hj]
  · rw [hself]
    rfl
  · rw [watchResetKeys_reg, keyRelease_clear hu, keyWake_reg, keyEvent_last h36 (by decide)]
    exact eventValue_only ha.onlyKeys _ _

/-! ### A key held -/

theorem keyRepeat_rests (h : s.keyHeld k = false ∨ s.reg (Reg.KEY_MODE (k - 1)) ≠ 1) : Rests (.keyRepeat k) s := by
  refine congrArg Host.Outcome.next (if_neg ?_)
  rcases h with h | h <;> simp [h]

theorem keyLong_rests (h : s.keyHeld k = false ∨ (s.keys.key k).longed = true) : Rests (.keyLong k) s := by
  refine congrArg Host.Outcome.next (if_neg ?_)
  rcases h with h | h <;> simp [h]

theorem keyStuck_rests (h : s.keyHeld k = false) : Rests (.keyStuck k) s :=
  congrArg Host.Outcome.next (if_neg (by simp [h]))

/-- An event of a key that takes a new state. -/
theorem eventOf_key (hl : s.keys.keys.length = 36) (h1 : 1 ≤ k) (h36 : k ≤ 36) (u : KeyUnit) {typ : Nat} (ht : typ ≤ 4) :
    OnlyIn [.keys] eventKeys s ((s.withKeys (s.keys.setKey k u)).keyEvent k typ) ∧
    ((s.withKeys (s.keys.setKey k u)).keyEvent k typ).keys.key k = u ∧
    ((s.withKeys (s.keys.setKey k u)).keyEvent k typ).reg Reg.KEY_LAST_EVENT = s.eventValue k typ := by
  refine ⟨?_, ?_, keyEvent_last h36 ht⟩
  · exact (withKeys_only _ _ (by decide) .refl : OnlyIn [.keys] eventKeys s _).trans (keyEvent_entries k typ)
  · rw [key_congr (keyEvent_keys _ _ _).1]
    exact key_setKey_self _ h1 (Nat.le_trans h36 (Nat.le_of_eq hl.symm)) u

theorem keyStuck_does (h : s.keyHeld k = true) (hw : (s.keys.key k).since + clkSec * s.reg Reg.KEY_STUCK_TIME ≤ s.now)
    {u : State} (hu : u = (s.withKeys (s.keys.setKey k { s.keys.key k with stuck := true })).keyEvent k keStuck)
    (honly : OnlyIn [.keys] eventKeys s u) (hkey : u.keys.key k = { s.keys.key k with stuck := true }) :
    Does (.keyStuck k) s [.log, .keys] eventKeys fun t => t.keys.key k = { s.keys.key k with stuck := true } ∧
      t.reg Reg.KEY_LAST_EVENT = u.reg Reg.KEY_LAST_EVENT ∧ (s.log.queue.length < 256 →
        ∃ r, t.log.queue = s.log.queue ++ [r] ∧ r.typ = Lt.KEY_STUCK ∧ r.payload = [k]) := by
  have hp : OnlyIn [.log] [] u (u.pushLog Lt.KEY_STUCK [k]) := pushLog_only _ _ _ (by decide) .refl
  have hlog : u.log = s.log := honly.pieces .log (by decide) (by decide)
  refine ⟨u.pushLog Lt.KEY_STUCK [k], (congrArg Host.Outcome.next (if_pos ?_)).trans (by rw [hu]),
    pushLog_only _ _ _ (by decide) (honly.mono (by decide)), ?_, hp.entries (by decide) _ List.not_mem_nil, fun hq => ?_⟩
  · rw [h, waited_iff.mpr hw]
    rfl
  · rw [hp.pieces .keys (by decide) (by decide)]
    exact hkey
  · rw [pushLog_queue (by rw [hlog]; exact hq), hlog]
    exact ⟨_, rfl, rfl, rfl⟩

/-- Settles O58: the scans of one key count up, and at `KEY_DEBOUNCE` the key is accepted with its event. -/
theorem keys : Obligations.Keys := by
  refine ⟨fun closed s h => keyScan_rests h closed, fun k closed s hlive hl h1 h36 hc hp => ?_,
    fun k closed s hlive hl h1 h36 hc hp hamb hn => ?_, fun n s h1 h36 hl => ⟨fun h => ?_, fun h => ⟨?_, ?_, ?_, ?_, ?_⟩⟩⟩
  · exact ⟨keyScan_counts ⟨hlive, hl, h1, h36, hc, hp⟩, keyScan_presses ⟨hlive, hl, h1, h36, hc, hp⟩⟩
  · exact keyScan_releases ⟨hlive, hl, h1, h36, hc, hp, hamb, hn⟩
  · exact ⟨keyRepeat_rests (.inl h), keyLong_rests (.inl h), keyStuck_rests h⟩
  · exact fun hm => keyRepeat_rests (.inr hm)
  · intro hm hw
    obtain ⟨honly, hkey, hlast⟩ := eventOf_key hl h1 h36 { s.keys.key n with repeats := (s.keys.key n).repeats + 1 }
      (typ := keRepeat) (by decide)
    refine ⟨_, congrArg Host.Outcome.next (if_pos ?_), honly, hkey, hlast, fun hfull => ⟨?_, ?_⟩⟩
    · rw [h, hm, waited_iff.mpr hw]
      rfl
    · exact ((keyEvent_keys _ _ _).2.2).trans (if_neg (Nat.not_lt.mpr hfull))
    · exact keyEvent_lost _ _ hfull
  · intro hm hlonged hw
    obtain ⟨honly, hkey, hlast⟩ := eventOf_key hl h1 h36 { s.keys.key n with longed := true } (typ := keLong) (by decide)
    refine ⟨_, congrArg Host.Outcome.next (if_pos ?_), honly, hkey, hlast⟩
    rw [h, hm, hlonged, waited_iff.mpr hw]
    rfl
  · exact fun hlonged => keyLong_rests (.inr hlonged)
  · intro hw
    obtain ⟨honly, hkey, hlast⟩ := eventOf_key hl h1 h36 { s.keys.key n with stuck := true } (typ := keStuck) (by decide)
    exact (keyStuck_does h hw rfl honly hkey).imp fun t ⟨hk, hl, hq⟩ => ⟨hk, hl.trans hlast, hq⟩

end Sys2Proof.Machine
end

section
/-!
PROOF. The slipway (R527, R530 to R533).
-/
namespace Sys2Proof.Machine

variable {s t : State} {q : Quay}

/-! ### Slots -/

theorem putSlot_self (p : SlipPart) (b : Bool) (v : List Nat) : (p.putSlot b v).slot b = v := by cases b <;> rfl

theorem putSlot_other (p : SlipPart) (b : Bool) (v : List Nat) : (p.putSlot b v).slot (!b) = p.slot (!b) := by cases b <;> rfl

theorem putSlot_image (p : SlipPart) (b : Bool) (v : List Nat) : (p.putSlot b v).image = p.image := by cases b <;> rfl

theorem eraseTarget_self (p : SlipPart) : p.eraseTarget.slot p.targetB = [] := putSlot_self _ _ _

theorem eraseTarget_other (p : SlipPart) : p.eraseTarget.slot (!p.targetB) = p.slot (!p.targetB) := putSlot_other _ _ _

/-! ### A rejected image -/

theorem slipReject_slip (s : State) (st : Status) : (s.slipReject st).slip = { s.slip with
    state := 0, image := [], started := false, loading := none, newFormat := false, lastStatus := st.code } := by
  unfold State.slipReject
  extract_lets p s1
  rw [State.raiseIrq_slip]
  exact (pushLog_only _ _ _ (by decide) .refl : OnlyIn [.log] [] s1 _).pieces .slip (by decide) (by decide)

theorem slipReject_irq (s : State) (st : Status) : bitAt (s.slipReject st).klp.irq irqSlipway = true := bitAt_bitOn_self _ _

/-! ### Verification, writing, loading -/

theorem exec_slipVerifyDone (h : s.slip.state = 2) : exec .slipVerifyDone s = .next (if s.verifyImage s.slip.image = .ok then
    s.withSlip { s.slip.eraseTarget with state := 3, progress := 0 } else s.slipReject (s.verifyImage s.slip.image)) :=
  congrArg Host.Outcome.next (if_neg fun hn => hn h)

theorem slipVerifyDone_does (h : s.slip.state = 2) : Does .slipVerifyDone s [.klp, .log, .slip] [] fun t =>
    (s.verifyImage s.slip.image = .ok → t.slip.state = 3 ∧ t.slip.slot s.slip.targetB = [] ∧
      t.slip.slot (!s.slip.targetB) = s.slip.slot (!s.slip.targetB) ∧ t.slip.image = s.slip.image ∧ t.klp = s.klp ∧ t.log = s.log) ∧
    (s.verifyImage s.slip.image ≠ .ok → t.slip.state = 0 ∧ t.slip.image = [] ∧ t.slip.imageA = s.slip.imageA ∧
      t.slip.imageB = s.slip.imageB ∧ t.slip.lastStatus = (s.verifyImage s.slip.image).code ∧ bitAt t.klp.irq irqSlipway = true) := by
  refine .of_only (execSlipVerifyDone_only s (by decide) .refl) (exec_slipVerifyDone h) ⟨fun hv => ?_, fun hv => ?_⟩
  · rw [if_pos hv]
    exact ⟨rfl, eraseTarget_self _, eraseTarget_other _, putSlot_image _ _ _, rfl, rfl⟩
  · rw [if_neg hv, slipReject_slip]
    exact ⟨rfl, rfl, rfl, rfl, rfl, slipReject_irq _ _⟩

/-- The staged image written to its slot, with its record. -/
def State.slipWritten (s : State) : State :=
  let p := s.slip.putSlot s.slip.targetB s.slip.image
  ((s.withSlip { p with state := 4, progress := s.slip.image.length, lastStatus := 0 }).pushLog Lt.SLIP_VERIFIED
    ([b2n p.targetB, 0] ++ leBytes 4 p.version)).raiseIrq irqSlipway

theorem slipWritten_slip (s : State) : s.slipWritten.slip = { s.slip.putSlot s.slip.targetB s.slip.image with
    state := 4, progress := s.slip.image.length, lastStatus := 0 } := by
  unfold State.slipWritten
  extract_lets p
  rw [State.raiseIrq_slip]
  exact (pushLog_only _ _ _ (by decide) .refl : OnlyIn [.log] [] _ _).pieces .slip (by decide) (by decide)

theorem exec_slipWriteDone (h : s.slip.state = 3) (ok : Bool) : exec (.slipWriteDone ok) s = .next (
    if ok = true ∧ s.verifyImage s.slip.image = .ok then s.slipWritten else (s.withSlip s.slip.eraseTarget).slipReject .media) := by
  refine congrArg Host.Outcome.next ((if_neg fun hn => hn h).trans ?_)
  refine ite_congr (propext ?_) (fun _ => rfl) fun _ => rfl
  rw [Bool.and_eq_true, beq_iff_eq]

theorem slipWriteDone_does (ok : Bool) (h : s.slip.state = 3) : Does (.slipWriteDone ok) s [.klp, .log, .slip] [] fun t =>
    t.slip.slot (!s.slip.targetB) = s.slip.slot (!s.slip.targetB) ∧ bitAt t.klp.irq irqSlipway = true ∧
    ((ok = true ∧ s.verifyImage s.slip.image = .ok) → t.slip.state = 4 ∧ t.slip.slot s.slip.targetB = s.slip.image) ∧
    ((ok = false ∨ s.verifyImage s.slip.image ≠ .ok) → t.slip.state = 0 ∧ t.slip.slot s.slip.targetB = [] ∧
      t.slip.lastStatus = Status.media.code) := by
  refine .of_only (execSlipWriteDone_only ok s (by decide) .refl) (exec_slipWriteDone h ok) ?_
  by_cases hc : ok = true ∧ s.verifyImage s.slip.image = .ok
  · rw [if_pos hc, slipWritten_slip]
    refine ⟨putSlot_other _ _ _, bitAt_bitOn_self _ _, fun _ => ⟨rfl, putSlot_self _ _ _⟩, fun hn => ?_⟩
    rcases hn with hn | hn
    · exact nomatch hn.symm.trans hc.1
    · exact absurd hc.2 hn
  · rw [if_neg hc, slipReject_slip]
    exact ⟨eraseTarget_other _, slipReject_irq _ _, fun hn => absurd hn hc, fun _ => ⟨rfl, eraseTarget_self _, rfl⟩⟩

theorem slipLoadDone_ready (h : s.slip.state = 5) (hq : s.slip.loading = some q) {newFormat : Bool}
    (hn : (s.qst q = .standby ∧ newFormat = false) ∨ (s.qst q = .syncing ∧ s.canRead q = false ∧ newFormat = true)) :
    Does .slipLoadDone s [.klp, .slip] [] fun t =>
      t.slip = { s.slip with state := 6, newFormat := newFormat } ∧ bitAt t.klp.irq irqSlipway = true := by
  refine .of_only (t := (s.withSlip { s.slip with state := 6, newFormat := newFormat }).raiseIrq irqSlipway)
    (execSlipLoadDone_only s (by decide) .refl) (congrArg Host.Outcome.next ?_) ⟨rfl, bitAt_bitOn_self _ _⟩
  rw [hq]
  refine (if_neg fun e => e h).trans ?_
  rcases hn with ⟨h1, rfl⟩ | ⟨h1, h2, rfl⟩
  · exact if_pos h1
  · exact (if_neg (by rw [h1]; decide)).trans (if_pos ⟨h1, h2⟩)

/-! ### Commit -/

/-- What follows the store of `BOOT_SLOT` when an update is committed. -/
def State.committed (t : State) (p : SlipPart) : State :=
  let img := p.slot p.targetB
  let t1 := if imgAdvance img then t.setReg Reg.SECURITY_FLOOR (max (t.reg Reg.SECURITY_FLOOR) (imgEpoch img)) else t
  let t2 := (t1.countTally Reg.SLIP_COMMITS).withPwr { t1.pwr with bootB := p.targetB }
  (t2.withSlip { p with state := 0, marker := false, probation := none, loading := none, newFormat := false, image := [] }).raiseIrq
    irqSlipway

theorem slipCommit_eq (s : State) : s.slipCommit =
    andThen (s.putEntry Reg.BOOT_SLOT (b2n s.slip.targetB)) fun t => t.committed s.slip := rfl

theorem committed_only (t : State) (p : SlipPart) : OnlyIn [.klp, .nv, .pwr, .slip] [Reg.SECURITY_FLOOR] t (t.committed p) := by
  unfold State.committed
  extract_lets img t1 t2
  refine raiseIrq_only _ _ (by decide) (withSlip_only _ _ (by decide) (withPwr_only _ _ (by decide)
    (countTally_only _ _ (by decide) ?_)))
  exact OnlyIn.ite (setReg_only _ _ _ (by decide) .refl) .refl

theorem committed_pwr (t : State) (p : SlipPart) : (t.committed p).pwr = { t.pwr with bootB := p.targetB } := by
  unfold State.committed
  extract_lets img t1 t2
  have h : t1.pwr = t.pwr := by unfold t1; split <;> rfl
  exact congrArg (fun w : PwrPart => { w with bootB := p.targetB }) h

theorem committed_floor (t : State) (p : SlipPart) :
    (t.committed p).reg Reg.SECURITY_FLOOR = t.reg Reg.SECURITY_FLOOR ∨ imgAdvance (p.slot p.targetB) = true := by
  cases h : imgAdvance (p.slot p.targetB) with
  | true => exact .inr rfl
  | false =>
    refine .inl ?_
    unfold State.committed
    dsimp only
    rw [h]
    rfl

theorem b2n_bootSlot (b : Bool) : b2n b % 2 ^ keyBits Reg.BOOT_SLOT = b2n b := by cases b <;> rfl

/-- What a commit leaves. -/
structure Committed (s t : State) : Prop where
  slot  : t.reg Reg.BOOT_SLOT = b2n s.slip.targetB
  boot  : t.pwr = { s.pwr with bootB := s.slip.targetB }
  slip  : t.slip = { s.slip with state := 0, marker := false, probation := none, loading := none, newFormat := false, image := [] }
  floor : t.reg Reg.SECURITY_FLOOR = s.reg Reg.SECURITY_FLOOR ∨ imgAdvance (s.slip.slot s.slip.targetB) = true

theorem slipCommit_does (h : s.stores Reg.BOOT_SLOT (b2n s.slip.targetB)) : ∃ t, s.slipCommit = (.ok, t) ∧
    OnlyIn [.klp, .nv, .pwr, .slip] [Reg.BOOT_SLOT, Reg.SECURITY_FLOOR] s t ∧ Committed s t := by
  obtain ⟨n, hn, hp⟩ := putEntry_ok h
  generalize hu : ({ s with nv := n } : State).setReg Reg.BOOT_SLOT (b2n s.slip.targetB) = u at hp
  have hsu : OnlyIn [.nv] [Reg.BOOT_SLOT] s u := by
    rw [← hu]
    exact setReg_only _ _ _ (by decide) (withNv_only _ _ (by decide) (.inr (by rw [hn]; rfl)) .refl)
  have hc := committed_only u s.slip
  refine ⟨u.committed s.slip, ?_, (hsu.mono (by decide)).trans (hc.mono (by decide)), ?_, ?_, rfl, ?_⟩
  · rw [slipCommit_eq, hp]
    rfl
  · rw [hc.entries (by decide) _ (by decide), ← hu, State.reg_setReg_self, b2n_bootSlot]
  · rw [committed_pwr, hsu.pieces .pwr (by decide) (by decide)]
  · rw [← hsu.entries (by decide) Reg.SECURITY_FLOOR (by decide)]
    exact committed_floor u s.slip

theorem probationEnd_commits {t0 : Nat} (h : s.slip.state = 7) (hp : s.slip.probation = some t0)
    (hw : t0 + s.reg Reg.SLIP_PROBATION * clkSec ≤ s.now) (hs : s.stores Reg.BOOT_SLOT (b2n s.slip.targetB)) :
    Does .probationEnd s [.klp, .nv, .pwr, .slip] [Reg.BOOT_SLOT, Reg.SECURITY_FLOOR] (Committed s) := by
  obtain ⟨t, he, hf, hc⟩ := slipCommit_does hs
  refine ⟨t, congrArg Host.Outcome.next ?_, hf, hc⟩
  rw [hp]
  refine (if_pos ⟨h, waited_iff.mpr hw⟩).trans ?_
  rw [he]

/-! ### Reloads -/

theorem reload_quay (b : Bool) : (s.reload q b).quay q = { s.quay q with
    st := .selfTest, inReset := true, passHeld := false, misses := 0, counted := false, challenge := none, imageB := b, head := s.headOf b } :=
  PerQuay.get_set_self _ _ _

/-! ### The commands -/

section Commands
variable {r : Req}

theorem slipLoadStandbyRule_state (h : s.slip.state ≠ 4 ∨ s.loadQuay = none) : slipLoadStandbyRule s = (.state, s) := by
  unfold slipLoadStandbyRule
  cases hq : s.loadQuay with
  | none => rfl
  | some q => exact if_neg fun h4 => h.elim (fun h => h h4) fun h => nomatch hq.symm.trans h

theorem slipLoadStandbyRule_ok (h : s.slip.state = 4) (hq : s.loadQuay = some q) : slipLoadStandbyRule s =
    (.ok, (s.reload q s.slip.targetB).withSlip { s.slip with state := 5, loading := some q, newFormat := false }) := by
  unfold slipLoadStandbyRule
  rw [hq]
  exact if_pos h

theorem slipSwapRule_state (h : s.slip.state ≠ 6 ∨ s.slip.loading = none ∨ s.hm.takeover ≠ none) : slipSwapRule s = (.state, s) := by
  unfold slipSwapRule
  cases hq : s.slip.loading with
  | none => rfl
  | some q =>
    refine if_neg fun ⟨h6, ht⟩ => ?_
    rcases h with h | h | h
    · exact h h6
    · exact nomatch hq.symm.trans h
    · exact h (Option.isNone_iff_eq_none.mp ht)

theorem slipSwapRule_ok (h : s.slip.state = 6) (hq : s.slip.loading = some q) (ht : s.hm.takeover = none) :
    slipSwapRule s = (.ok, s.beginSwap q) := by
  unfold slipSwapRule
  rw [hq]
  exact if_pos ⟨h, Option.isNone_iff_eq_none.mpr ht⟩

theorem slipCommit_obeys (ha : s.accepts { req := r, len := 1, val := 3 } Reg.SLIP_COMMAND) (h : s.slip.state = 7)
    (hs : s.stores Reg.BOOT_SLOT (b2n s.slip.targetB)) :
    Does (.slipCommit r) s [.klp, .nv, .pwr, .slip] [Reg.BOOT_SLOT, Reg.SECURITY_FLOOR] fun t =>
      t.responded (respTo (wrRequest { req := r, len := 1, val := 3 } Reg.SLIP_COMMAND) .ok []) ∧
        t.reg Reg.BOOT_SLOT = b2n s.slip.targetB ∧ t.slip.state = 0 ∧ t.slip.marker = false ∧ t.slip.probation = none := by
  obtain ⟨t, he, hf, hslot, -, hslip, -⟩ := slipCommit_does
    (s := s.taken (wrRequest { req := r, len := 1, val := 3 } Reg.SLIP_COMMAND)) (stores_taken hs)
  refine Does.responding (l := [.nv, .pwr, .slip]) t rfl ha ((if_pos h).trans he) hf fun k => ⟨hslot, ?_⟩
  change t.slip.state = 0 ∧ t.slip.marker = false ∧ t.slip.probation = none
  rw [hslip]
  exact ⟨rfl, rfl, rfl⟩

/-! ### Rollback -/

theorem slipRollback_slip (s : State) (reason : Nat) : (s.slipRollback reason).slip = { s.slip.eraseTarget with
    state := 0, image := [], started := false, marker := false, probation := none, loading := none, newFormat := false } := by
  unfold State.slipRollback
  extract_lets p p1 s1
  rw [State.raiseIrq_slip]
  exact (pushLog_only _ _ _ (by decide) .refl : OnlyIn [.log] [] s1 _).pieces .slip (by decide) (by decide)

theorem rollbackStandby_reloads (ho : s.hm.owner = some q) (h1 : s.qst q.other ≠ .out) (h2 : s.qst q.other ≠ .off) :
    s.rollbackStandby = s.reload q.other s.pwr.bootB := by
  unfold State.rollbackStandby
  rw [ho]
  exact if_neg (not_or.mpr ⟨h1, h2⟩)

/-- The state that a rollback by command leaves. -/
def State.rolledBack (s : State) : State := (s.slipRollback 0).rollbackStandby

theorem rolledBack_only (s : State) : OnlyIn [.klp, .hm, .log, .slip] [] s s.rolledBack :=
  rollbackStandby_only _ (by decide) (slipRollback_only _ _ (by decide) .refl)

theorem rolledBack_slip (s : State) : s.rolledBack.slip = (s.slipRollback 0).slip :=
  (rollbackStandby_only _ (by decide) .refl : OnlyIn [.hm] [] (s.slipRollback 0) _).pieces .slip (by decide) (by decide)

theorem rolledBack_standby (ho : s.hm.owner = some q) (h1 : s.qst q.other ≠ .out) (h2 : s.qst q.other ≠ .off) :
    (s.rolledBack.quay q.other).st = .selfTest ∧ (s.rolledBack.quay q.other).imageB = s.pwr.bootB := by
  have hv : OnlyIn [.klp, .log, .slip] [] s (s.slipRollback 0) := slipRollback_only _ _ (by decide) .refl
  have hhm : (s.slipRollback 0).hm = s.hm := hv.pieces .hm (by decide) (by decide)
  have hpwr : (s.slipRollback 0).pwr = s.pwr := hv.pieces .pwr (by decide) (by decide)
  have hq : (s.slipRollback 0).qst q.other = s.qst q.other := by
    unfold State.qst
    rw [hhm]
  unfold State.rolledBack
  rw [rollbackStandby_reloads (by rw [hhm]; exact ho) (by rw [hq]; exact h1) (by rw [hq]; exact h2), reload_quay, hpwr]
  exact ⟨rfl, rfl⟩

theorem slipRollback_obeys (ha : s.accepts { req := r, len := 1, val := 4 } Reg.SLIP_COMMAND) (h : s.slip.state = 7) :
    Does (.slipRollback r) s [.hm, .klp, .log, .slip] [] fun t =>
      t.responded (respTo (wrRequest { req := r, len := 1, val := 4 } Reg.SLIP_COMMAND) .ok []) ∧ t.slip.state = 0 ∧
        t.slip.slot s.slip.targetB = [] ∧ t.slip.slot (!s.slip.targetB) = s.slip.slot (!s.slip.targetB) ∧ t.slip.marker = false ∧
        (∀ q, s.hm.owner = some q → s.qst q.other ≠ .out → s.qst q.other ≠ .off →
          (t.quay q.other).st = .selfTest ∧ (t.quay q.other).imageB = s.pwr.bootB) := by
  generalize hu : s.taken (wrRequest { req := r, len := 1, val := 4 } Reg.SLIP_COMMAND) = u
  have hsu : OnlyIn [.klp] [] s u := by rw [← hu]; exact taken_only _
  have hhm : u.hm = s.hm := hsu.pieces .hm (by decide) (by decide)
  have hpwr : u.pwr = s.pwr := hsu.pieces .pwr (by decide) (by decide)
  have hslip : u.rolledBack.slip = { s.slip.eraseTarget with
      state := 0, image := [], started := false, marker := false, probation := none, loading := none, newFormat := false } := by
    rw [rolledBack_slip, slipRollback_slip, show u.slip = s.slip from hsu.pieces .slip (by decide) (by decide)]
  have hqst (q : Quay) : u.qst q = s.qst q := by unfold State.qst; rw [hhm]
  refine Does.mono (Does.responding (l := [.hm, .log, .slip]) (ks := []) (p := fun t => t.slip = u.rolledBack.slip ∧ t.hm = u.rolledBack.hm)
    u.rolledBack rfl ha ?_ ?_ fun k => ⟨rfl, rfl⟩) (by decide) fun t ⟨hr, ht, htm⟩ => ⟨hr, ?_⟩
  · rw [hu]
    exact if_pos (by rw [show u.slip = s.slip from hsu.pieces .slip (by decide) (by decide)]; exact h)
  · rw [hu]
    exact rolledBack_only u
  · rw [ht, hslip]
    refine ⟨rfl, eraseTarget_self _, eraseTarget_other _, rfl, fun q ho h1 h2 => ?_⟩
    unfold State.quay
    rw [htm, ← hpwr]
    exact rolledBack_standby (by rw [hhm]; exact ho) (by rw [hqst]; exact h1) (by rw [hqst]; exact h2)

/-! ### Abort and installation -/

/-- A write answered OK, with what holds of the state after its answer. -/
theorem Does.answered {i : Instr} {w : Wr} {key : Nat} {l : List Piece} {ks : List Nat} {p : State → Prop}
    {rule : State → Nat → Status × State} (t : State) (he : exec i s = .next (s.ledgerWrite w key rule)) (ha : s.accepts w key)
    (hr : rule (s.taken (wrRequest w key)) w.val = (.ok, t)) (hf : OnlyIn (.klp :: l) ks (s.taken (wrRequest w key)) t)
    (hp : p (t.answer (wrRequest w key) .ok [])) :
    Does i s (.klp :: l) ks fun t => t.responded (respTo (wrRequest w key) .ok []) ∧ p t := by
  refine ⟨t.answer (wrRequest w key) .ok [], ?_, ?_, answer_responded _ _ _ _, hp⟩
  · rw [he, ledgerWrite_accepted ha, hr]
  · exact answer_only _ _ _ _ (by simp [frameSub]) (((taken_only _).mono (by simp [frameSub])).trans hf)

theorem slipAbandon_slip (s : State) : s.slipAbandon.slip = if s.slip.state = 3 then s.slip.eraseTarget else s.slip := by
  unfold State.slipAbandon
  extract_lets p s1
  have h : s1.slip = if s.slip.state = 3 then s.slip.eraseTarget else s.slip := by unfold s1 p; split <;> rfl
  rw [← h]
  cases p.loading <;> rfl

theorem slipAbandon_quay (hq : s.slip.loading = some q) :
    (s.slipAbandon.quay q).st = .selfTest ∧ (s.slipAbandon.quay q).imageB = s.pwr.bootB := by
  unfold State.slipAbandon
  extract_lets p s1
  have hp : s1.pwr = s.pwr := by unfold s1; split <;> rfl
  rw [show p.loading = some q from hq]
  dsimp only
  rw [reload_quay, hp]
  exact ⟨rfl, rfl⟩

/-- The state that SLIP_ABORT leaves. -/
def State.slipAborted (s : State) : State :=
  let t := s.slipAbandon
  let p := { t.slip with state := 0, image := [], started := false, loading := none, newFormat := false }
  (t.withSlip p).withKlp { t.klp with transfers := t.klp.transfers.filter fun x => !(x.key == Reg.SLIP_IMAGE) }

theorem within_iff {a b n : Nat} : within a b n = true ↔ a ≤ n ∧ n ≤ b := by
  unfold within
  rw [Bool.and_eq_true, decide_eq_true_iff, decide_eq_true_iff]

theorem slipAbortRule_ok (h1 : 1 ≤ s.slip.state) (h6 : s.slip.state ≤ 6) : slipAbortRule s = (.ok, s.slipAborted) :=
  if_pos (within_iff.mpr ⟨h1, h6⟩)

theorem slipAbortRule_state (h : s.slip.state = 0 ∨ 7 ≤ s.slip.state) : slipAbortRule s = (.state, s) :=
  if_neg fun hw => by
    have := within_iff.mp hw
    omega

theorem slipAborted_only (s : State) : OnlyIn [.klp, .hm, .slip] [] s s.slipAborted := by
  unfold State.slipAborted
  extract_lets t p
  exact withKlp_only _ _ (by decide) (withSlip_only _ _ (by decide) (slipAbandon_only _ (by decide) .refl))

theorem slipAborted_transfers (s : State) : ∀ x ∈ s.slipAborted.klp.transfers, x.key ≠ Reg.SLIP_IMAGE := fun x hx => by
  simpa using (List.mem_filter.mp hx).2

/-- What an abort leaves of the slipway and of the quay that was loading. -/
structure Aborted (s t : State) : Prop where
  state  : t.slip.state = 0
  image  : t.slip.image = []
  idle   : t.slip.loading = none
  erased : s.slip.state = 3 → t.slip.slot s.slip.targetB = []
  quay   : ∀ q, s.slip.loading = some q → (t.quay q).st = .selfTest ∧ (t.quay q).imageB = s.pwr.bootB

theorem slipAborted_does (s : State) : Aborted s s.slipAborted where
  state := rfl
  image := rfl
  idle := rfl
  erased h3 := by
    change s.slipAbandon.slip.slot s.slip.targetB = []
    rw [slipAbandon_slip, if_pos h3]
    exact eraseTarget_self _
  quay _ hq := slipAbandon_quay hq

theorem slipAbort_obeys (ha : s.accepts { req := r, len := 1, val := 5 } Reg.SLIP_COMMAND) (h1 : 1 ≤ s.slip.state) (h6 : s.slip.state ≤ 6) :
    Does (.slipAbort r) s [.hm, .klp, .slip] [] fun t =>
      t.responded (respTo (wrRequest { req := r, len := 1, val := 5 } Reg.SLIP_COMMAND) .ok []) ∧
        (∀ x ∈ t.klp.transfers, x.key ≠ Reg.SLIP_IMAGE) ∧ Aborted s t := by
  generalize hu : s.taken (wrRequest { req := r, len := 1, val := 5 } Reg.SLIP_COMMAND) = u
  have hsu : OnlyIn [.klp] [] s u := by rw [← hu]; exact taken_only _
  have hslip : u.slip = s.slip := hsu.pieces .slip (by decide) (by decide)
  have hpwr : u.pwr = s.pwr := hsu.pieces .pwr (by decide) (by decide)
  obtain ⟨hstate, himage, hidle, herased, hquay⟩ := slipAborted_does u
  refine Does.mono (Does.answered (l := [.hm, .slip]) (ks := []) (p := fun t => (∀ x ∈ t.klp.transfers, x.key ≠ Reg.SLIP_IMAGE) ∧ Aborted s t)
    u.slipAborted rfl ha ?_ ?_ ⟨?_, ?_⟩) (by decide) fun _ h => h
  · rw [hu]
    exact slipAbortRule_ok (by rw [hslip]; exact h1) (by rw [hslip]; exact h6)
  · rw [hu]
    exact slipAborted_only u
  · rw [answer_transfers]
    exact slipAborted_transfers u
  · rw [answer_eq]
    refine ⟨hstate, himage, hidle, fun h3 => ?_, fun q hq => ?_⟩
    · rw [← hslip] at h3 ⊢
      exact herased h3
    · rw [← hslip] at hq
      rw [← hpwr]
      exact hquay q hq

theorem slipInstallResetRule_state (h : s.installSlot = none) : slipInstallResetRule s = (.state, s) := by
  unfold slipInstallResetRule
  rw [h]

theorem slipInstallResetRule_ok {b : Bool} (h : s.installSlot = some b) : slipInstallResetRule s =
    andThen (s.putEntry Reg.BOOT_TRIAL (b2n b)) fun t => t.resetAt (some (t.now + 10 * clkMs)) := by
  unfold slipInstallResetRule
  rw [h]
  rfl

theorem b2n_bootTrial (b : Bool) : b2n b % 2 ^ keyBits Reg.BOOT_TRIAL = b2n b := by cases b <;> rfl

theorem slipInstallReset_obeys {b : Bool} (ha : s.accepts { req := r, len := 1, val := 6 } Reg.SLIP_COMMAND) (h : s.installSlot = some b)
    (hs : s.stores Reg.BOOT_TRIAL (b2n b)) :
    Does (.slipInstallReset r) s [.klp, .nv] [Reg.BOOT_TRIAL] fun t => t.reg Reg.BOOT_TRIAL = b2n b ∧
      t.klp.resetDue = some (s.now + 10 * clkMs) ∧ ParamsOnly s t := by
  obtain ⟨n, hn, hp⟩ := putEntry_ok (stores_taken (q := wrRequest { req := r, len := 1, val := 6 } Reg.SLIP_COMMAND) hs)
  generalize hv : ({ s.taken (wrRequest { req := r, len := 1, val := 6 } Reg.SLIP_COMMAND) with nv := n } : State).setReg
    Reg.BOOT_TRIAL (b2n b) = v at hp
  refine (Does.answered (l := [.nv]) (p := fun t => t.reg Reg.BOOT_TRIAL = b2n b ∧
      t.klp.resetDue = some (s.now + 10 * clkMs) ∧ ParamsOnly s t) (v.resetAt (some (v.now + 10 * clkMs))) rfl ha ?_ ?_ ?_).imp fun _ h => h.2
  · refine (slipInstallResetRule_ok (s := s.taken _) h).trans ?_
    rw [hp]
    rfl
  · rw [← hv]
    exact withKlp_only _ _ (by decide) (setReg_only _ _ _ (by decide) (withNv_only _ _ (by decide) (.inr (by rw [hn]; rfl)) .refl))
  · refine ⟨?_, ?_, ?_⟩
    · rw [answer_eq, ← hv]
      exact (State.reg_setReg_self _ _ _).trans (b2n_bootTrial b)
    · rw [answer_resetAt, ← hv]
      rfl
    · rw [answer_eq, ← hv]
      exact hn

end Commands

/-- Settles O59: each event in its state, and each command's rule where it acts and where it answers STATE. -/
theorem slipway : Obligations.Slipway := by
  refine ⟨⟨fun s h => slipVerifyDone_does h, fun ok s h => slipWriteDone_does ok h, fun q s h hq => ⟨fun hs => ?_, fun hs hc => ?_⟩,
      fun t0 s h hp hw hs => ?_⟩, fun r s ha => ⟨fun h => ?_, fun q h hq => ?_⟩, fun r s ha => ⟨fun h => ?_, fun q h hq ht => ?_⟩,
    fun r s ha => ⟨fun h => ?_, slipCommit_obeys ha⟩, fun r s ha => ⟨fun h => ?_, slipRollback_obeys ha⟩,
    fun r s ha => ⟨fun h => ?_, fun h1 h6 => ?_⟩, fun r s ha => ⟨fun h => ?_, fun b h hs => slipInstallReset_obeys ha h hs⟩⟩
  · exact slipLoadDone_ready h hq (.inl ⟨hs, rfl⟩)
  · exact slipLoadDone_ready h hq (.inr ⟨hs, hc, rfl⟩)
  · exact (probationEnd_commits h hp hw hs).imp fun t ⟨h1, h2, h3, h4⟩ => ⟨h1, h2, h3, h4⟩
  · exact .rule rfl ha (slipLoadStandbyRule_state h)
  · refine .rule _ rfl ha (slipLoadStandbyRule_ok (s := s.taken _) h hq)
      (withSlip_only _ _ (by decide) (reload_only _ _ _ (by decide) .refl)) (by decide) fun k => ⟨rfl, ?_⟩
    have hquay := reload_quay (s := s.taken (wrRequest { req := r, len := 1, val := 1 } Reg.SLIP_COMMAND)) (q := q) s.slip.targetB
    refine ⟨(congrArg QuayUnit.st hquay :), (congrArg QuayUnit.inReset hquay :), (congrArg QuayUnit.imageB hquay :), ?_⟩
    exact (reload_roles (s := s.taken (wrRequest { req := r, len := 1, val := 1 } Reg.SLIP_COMMAND)) (q := q) s.slip.targetB).owner
  · exact .rule rfl ha (slipSwapRule_state h)
  · exact .rule _ rfl ha (slipSwapRule_ok (s := s.taken _) h hq ht) (withHm_only _ _ (by decide) .refl) (by decide) fun k => rfl
  · exact .rule rfl ha (if_neg h)
  · exact .rule rfl ha (if_neg h)
  · exact .rule rfl ha (slipAbortRule_state h)
  · exact (slipAbort_obeys ha h1 h6).imp fun t ⟨hr, htr, h0, hi, hl, he, hq⟩ => ⟨hr, h0, hi, hl, he, htr, hq⟩
  · exact .rule rfl ha (slipInstallResetRule_state h)

end Sys2Proof.Machine
end

section
/-!
PROOF. A drive frame of the panel (R489 to R492): a running pass and a queued update.
-/
namespace Sys2Proof.Machine

variable {s t : State} {k j : Nat} {o : Option PanelRun} {b : Bool}

/-! ### Regions -/

theorem region_setRegion_self (p : PanelPart) (h : k < p.regions.length) (r : PanelRegion) : (p.setRegion k r).region k = r :=
  getD_set_self h _ _

theorem region_setRegion_ne (p : PanelPart) (h : j ≠ k) (r : PanelRegion) : (p.setRegion k r).region j = p.region j :=
  getD_set_ne h _ _

/-- Region k of a list of regions holds the run `o`, nothing is queued, and the drive frame's polarity is `b`. -/
structure PanelPart.Quiet (p : PanelPart) (k : Nat) (o : Option PanelRun) (b : Bool) : Prop where
  run      : (p.region k).run = o
  queued   : ∀ j, (p.region j).queued = none
  length   : p.regions.length = 8
  positive : p.positive = b

/-- What is quiet depends on the regions and the polarity alone. -/
theorem PanelPart.Quiet.congr {p p' : PanelPart} (h : p.Quiet k o b) (hr : p'.regions = p.regions) (hp : p'.positive = p.positive) :
    p'.Quiet k o b := by
  have hreg (j : Nat) : p'.region j = p.region j := by
    unfold PanelPart.region
    rw [hr]
  exact ⟨by rw [hreg]; exact h.run, fun j => by rw [hreg]; exact h.queued j, by rw [hr]; exact h.length, by rw [hp]; exact h.positive⟩

/-- Another region's run changes. -/
theorem PanelPart.Quiet.setOther {p : PanelPart} (h : p.Quiet k o b) (hj : k ≠ j) (x : Option PanelRun) :
    (p.setRegion j { p.region j with run := x }).Quiet k o b where
  run := by rw [region_setRegion_ne _ hj]; exact h.run
  queued i := by
    by_cases hi : i = j
    · subst hi
      by_cases hl : i < p.regions.length
      · rw [region_setRegion_self _ hl]
        exact h.queued i
      · unfold PanelPart.region PanelPart.setRegion
        rw [getD_of_length_le (by rw [List.length_set]; omega)]
    · rw [region_setRegion_ne _ hi]
      exact h.queued i
  length := List.length_set.trans h.length
  positive := h.positive

/-- The region's own run changes. -/
theorem PanelPart.Quiet.setSelf {p : PanelPart} (h : p.Quiet k o b) (h8 : k < 8) (x : Option PanelRun) :
    (p.setRegion k { p.region k with run := x }).Quiet k x b where
  run := by rw [region_setRegion_self _ (h.length.symm ▸ h8)]
  queued i := by
    by_cases hi : i = k
    · subst hi
      rw [region_setRegion_self _ (h.length.symm ▸ h8)]
      exact h.queued i
    · rw [region_setRegion_ne _ hi]
      exact h.queued i
  length := List.length_set.trans h.length
  positive := h.positive

/-! ### Runs that move on -/

theorem storeShown_panel (s : State) : s.storeShown.panel = s.panel :=
  (storeShown_only _ (by decide) .refl : OnlyIn [.nv, .log] [] s _).pieces .panel (by decide) (by decide)

theorem setRun_quiet (h : s.panel.Quiet k o b) (hj : k ≠ j) (x : Option PanelRun) : (s.setRun j x).panel.Quiet k o b := by
  unfold State.setRun
  split
  · exact h.congr rfl rfl
  · exact h.setOther hj x

theorem finishUpdate_quiet (h : s.panel.Quiet k o b) (hj : k ≠ j) (r : PanelRun) : (s.finishUpdate j r).panel.Quiet k o b := by
  unfold State.finishUpdate
  extract_lets p u q p1
  change ((s.withPanel { p1 with driveFault := false }).storeShown).panel.Quiet k o b
  rw [storeShown_panel]
  have hp : p.Quiet k o b := h.congr rfl rfl
  refine PanelPart.Quiet.congr (p := p1) ?_ rfl rfl
  unfold p1
  split
  · exact hp.congr rfl rfl
  · exact (hp.setOther hj none).congr rfl rfl

theorem endMain_quiet (h : s.panel.Quiet k o b) (hj : k ≠ j) (r : PanelRun) : (s.endMain j r).panel.Quiet k o b := by
  unfold State.endMain
  extract_lets p all part s1
  split
  · exact setRun_quiet h hj _
  · split
    · have h1 : s1.panel.Quiet k o b := h
      split
      · exact finishUpdate_quiet h1 hj r
      · exact setRun_quiet h1 hj _
    · exact finishUpdate_quiet h hj r

theorem advanceRun_quiet (h : s.panel.Quiet k o b) (hj : k ≠ j) (r0 : PanelRun) (layers : List Nat) :
    (s.advanceRun j r0 layers).panel.Quiet k o b := by
  unfold State.advanceRun
  extract_lets d r p
  split
  · exact setRun_quiet h hj _
  · split
    · exact endMain_quiet h hj r
    · exact setRun_quiet (s := s.withPanel p) (h.congr rfl rfl) hj none
    · exact finishUpdate_quiet h hj r
    · exact finishUpdate_quiet h hj r

/-- A run after one more frame of its pass. -/
structure PanelRun.Moved (r x : PanelRun) : Prop where
  frame : x.frame = r.frame + 1
  cells : x.cells = r.cells
  pass  : x.pass = r.pass
  phase : x.phase = r.phase

theorem advanceRun_moves {r : PanelRun} (h : s.panel.Quiet k o b) (h8 : k < 8) {layers : List Nat} (hr : r.frame + 1 < r.length layers) :
    ∃ x, r.Moved x ∧ (s.advanceRun k r layers).panel.Quiet k (some x) b := by
  unfold State.advanceRun
  extract_lets d x
  refine ⟨x, ⟨rfl, rfl, rfl, rfl⟩, ?_⟩
  rw [if_pos (show x.frame < x.length layers from hr)]
  unfold State.setRun
  rw [if_neg (show k ≠ 8 by omega)]
  exact h.setSelf h8 _

/-- The step of one region's run at a drive frame boundary. -/
def State.advanceRegion (t : State) (k : Nat) : State :=
  match (t.panel.region k).run with
  | some r => t.advanceRun k r (t.runLayers k)
  | none => t

/-- The step of the lighthouse's run. -/
def State.advanceLighthouse (t : State) : State :=
  match t.panel.lhRun with
  | some r => t.advanceRun 8 r (layersOf r.cells)
  | none => t

theorem advanceRuns_eq (s : State) : s.advanceRuns = ((List.range 8).foldl State.advanceRegion s).advanceLighthouse := by
  unfold State.advanceRuns
  generalize List.range 8 = l
  rfl

theorem advanceRegion_quiet (h : s.panel.Quiet k o b) (hj : k ≠ j) : (s.advanceRegion j).panel.Quiet k o b := by
  unfold State.advanceRegion
  split
  · exact advanceRun_quiet h hj _ _
  · exact h

theorem advanceRegion_layers (h8 : k < 8) (s : State) (j : Nat) : (s.advanceRegion j).runLayers k = s.runLayers k := by
  have hk : k = 0 ∨ k = 1 ∨ k = 2 ∨ k = 3 ∨ k = 4 ∨ k = 5 ∨ k = 6 ∨ k = 7 := by omega
  unfold State.advanceRegion
  split
  · next r _ =>
    have hf : OnlyIn [.nv, .log, .panel] [Reg.BAND_CORRECTIONS, Reg.BAND_REDRIVES, Reg.UPDATES_DONE] s
      (s.advanceRun j r (s.runLayers j)) := advanceRun_only _ _ _ _ (by decide) .refl
    refine congrArg regionLayers (hf.entries (by decide) _ ?_)
    rcases hk with rfl | rfl | rfl | rfl | rfl | rfl | rfl | rfl <;> decide
  · rfl

theorem foldAdvance_quiet {l : List Nat} (h : s.panel.Quiet k o b) (hk : k ∉ l) : (l.foldl State.advanceRegion s).panel.Quiet k o b := by
  induction l generalizing s with
  | nil => exact h
  | cons j l ih =>
    rw [List.mem_cons, not_or] at hk
    exact ih (advanceRegion_quiet h hk.1) hk.2

theorem foldAdvance_moves {r : PanelRun} {l : List Nat} (h : s.panel.Quiet k (some r) b) (h8 : k < 8) (hl : l.Nodup) (hk : k ∈ l)
    (hr : r.frame + 1 < r.length (s.runLayers k)) : ∃ x, r.Moved x ∧ (l.foldl State.advanceRegion s).panel.Quiet k (some x) b := by
  induction l generalizing s with
  | nil => exact nomatch hk
  | cons j l ih =>
    rw [List.nodup_cons] at hl
    rw [List.foldl_cons]
    by_cases hj : k = j
    · subst hj
      have he : s.advanceRegion k = s.advanceRun k r (s.runLayers k) := by
        unfold State.advanceRegion
        rw [h.run]
      obtain ⟨x, hx, hq⟩ := advanceRun_moves h h8 hr
      exact ⟨x, hx, foldAdvance_quiet (by rw [he]; exact hq) hl.1⟩
    · exact ih (advanceRegion_quiet h hj) hl.2 ((List.mem_cons.mp hk).resolve_left hj) (by rw [advanceRegion_layers h8]; exact hr)

theorem advanceRuns_moves {r : PanelRun} (h : s.panel.Quiet k (some r) b) (h8 : k < 8) (hr : r.frame + 1 < r.length (s.runLayers k)) :
    ∃ x, r.Moved x ∧ s.advanceRuns.panel.Quiet k (some x) b := by
  obtain ⟨x, hx, hq⟩ := foldAdvance_moves h h8 List.nodup_range (List.mem_range.mpr h8) hr
  refine ⟨x, hx, ?_⟩
  rw [advanceRuns_eq]
  unfold State.advanceLighthouse
  split
  · exact advanceRun_quiet hq (by omega) _ _
  · exact hq

/-! ### The starts of a drive frame with nothing queued -/

/-- A region with nothing queued. -/
def PanelRegion.unqueued (r : PanelRegion) : PanelRegion := { r with queued := none }

theorem frameMemoryFault_region (s : State) (j : Nat) : s.frameMemoryFault.panel.region j = (s.panel.region j).unqueued :=
  getD_map_of PanelRegion.unqueued s.panel.regions j { run := none, queued := none }

theorem frameMemoryFault_quiet (h : s.panel.Quiet k o b) : s.frameMemoryFault.panel.Quiet k o b := by
  exact ⟨by rw [frameMemoryFault_region]; exact h.run, fun j => by rw [frameMemoryFault_region]; rfl,
    (List.length_map _).trans h.length, h.positive⟩

theorem startOrder_none {p : PanelPart} (h : ∀ j, (p.region j).queued = none) : p.startOrder = [] := by
  have hq : (List.range 8).filterMap (fun k => (p.region k).queued.map fun x => (k, x)) = [] :=
    List.filterMap_eq_nil_iff.mpr fun j _ => by rw [h j]; rfl
  unfold PanelPart.startOrder
  dsimp only
  rw [hq]
  simp

theorem urgent_none {p : PanelPart} (h : ∀ j, (p.region j).queued.any PanelQueued.urgent = false) :
    ((List.range 8).filter fun k => (p.region k).queued.any PanelQueued.urgent) = [] :=
  List.filter_eq_nil_iff.mpr fun j _ => by
    rw [h j]
    exact Bool.false_ne_true

theorem startAll_quiet (h : s.panel.Quiet k o b) (ok : Bool) : (s.startAll ok).panel.Quiet k o b := by
  unfold State.startAll
  extract_lets cells u p cut
  split
  · exact h
  · split
    · split
      · exact h
      · split
        · exact frameMemoryFault_quiet h
        · rw [storeShown_panel]
          exact h.congr rfl rfl
    · have hcut : cut = s := by
        unfold cut
        rw [urgent_none fun j => by rw [h.queued j]; rfl]
        rfl
      rw [hcut, startOrder_none h.queued]
      exact h

theorem panelTemp_runs (s : State) : s.panelTemp.panel.regions = s.panel.regions ∧ s.panelTemp.panel.positive = s.panel.positive ∧
    s.panelTemp.panel.lhRun = s.panel.lhRun ∧ s.panelTemp.panel.lighthouse = s.panel.lighthouse ∧
    s.panelTemp.panel.railBad = s.panel.railBad := by
  unfold State.panelTemp
  extract_lets p ch q
  split
  · exact ⟨rfl, rfl, rfl, rfl, rfl⟩
  · by_cases hc : (p.fallback && s.aiGood 43) = true
    · rw [if_pos hc]
      exact ⟨rfl, rfl, rfl, rfl, rfl⟩
    · rw [if_neg hc]
      exact ⟨rfl, rfl, rfl, rfl, rfl⟩

theorem drivePanel_runs (s : State) : s.drivePanel.panel.regions = s.panel.regions ∧ s.drivePanel.panel.positive = s.panel.positive ∧
    s.drivePanel.panel.band = s.panel.band := by
  unfold State.drivePanel
  extract_lets steps sel volts u p
  clear_value volts
  rcases volts with _ | ⟨v, _ | ⟨w, l⟩⟩ <;> exact ⟨rfl, rfl, rfl⟩

/-! ### A drive frame -/

/-- The state in which a drive frame begins: the REGION_DONE events of the last one are gone, the polarity is the other. -/
def State.frameBegun (s : State) : State := s.withPanel { s.panel with done := [], positive := !s.panel.positive }

theorem exec_driveFrame (h : s.panelLive = true) (ok : Bool) :
    exec (.driveFrame ok) s = .next ((s.frameBegun.panelTemp.advanceRuns).startAll ok).drivePanel := congrArg Host.Outcome.next (if_pos h)

theorem driveFrame_moves {r : PanelRun} (hlive : s.panelLive = true) (h8 : k < 8) (hlen : s.panel.regions.length = 8)
    (hrun : (s.panel.region k).run = some r) (hq : ∀ j, (s.panel.region j).queued = none) (hr : r.frame + 1 < r.length (s.runLayers k))
    (ok : Bool) : Does (.driveFrame ok) s [.nv, .log, .panel, .freeCtr]
      [Reg.BAND_CORRECTIONS, Reg.BAND_REDRIVES, Reg.FRAME_CRC_FAILS, Reg.UPDATES_DONE, Reg.URGENT_CUTS] fun t =>
      t.panel.positive = !s.panel.positive ∧ ∃ x, (t.panel.region k).run = some x ∧ r.Moved x := by
  have hbegun : s.frameBegun.panel.Quiet k (some r) (!s.panel.positive) := ⟨hrun, hq, hlen, rfl⟩
  have htemp : s.frameBegun.panelTemp.panel.Quiet k (some r) (!s.panel.positive) :=
    hbegun.congr (panelTemp_runs _).1 (panelTemp_runs _).2.1
  have hlayers : s.frameBegun.panelTemp.runLayers k = s.runLayers k :=
    congrArg regionLayers ((panelTemp_only _ (by decide) .refl : OnlyIn [.panel] [] s.frameBegun _).entries (by decide) _ List.not_mem_nil)
  obtain ⟨x, hx, hmoved⟩ := advanceRuns_moves htemp h8 (by rw [hlayers]; exact hr)
  have hend : (((s.frameBegun.panelTemp.advanceRuns).startAll ok).drivePanel).panel.Quiet k (some x) (!s.panel.positive) :=
    (startAll_quiet hmoved ok).congr (drivePanel_runs _).1 (drivePanel_runs _).2.1
  exact .of_only (execDriveFrame_only ok s (by decide) .refl) (exec_driveFrame hlive ok) ⟨hend.positive, x, hend.run, hx⟩

/-! ### A queued update that starts -/

theorem advanceRuns_rest (h : ∀ j, (s.panel.region j).run = none) (hl : s.panel.lhRun = none) : s.advanceRuns = s := by
  have hfold : (List.range 8).foldl State.advanceRegion s = s := foldl_rests fun j _ => by
    unfold State.advanceRegion
    rw [h j]
  rw [advanceRuns_eq, hfold]
  unfold State.advanceLighthouse
  rw [hl]

theorem filterMap_one {α β : Type} {f : α → Option β} {l : List α} {a : α} {c : β} (hn : l.Nodup) (ha : a ∈ l) (hf : f a = some c)
    (ho : ∀ x ∈ l, x ≠ a → f x = none) : l.filterMap f = [c] := by
  induction l with
  | nil => exact nomatch ha
  | cons x l ih =>
    rw [List.nodup_cons] at hn
    by_cases hx : x = a
    · subst hx
      rw [List.filterMap_cons_some hf, List.filterMap_eq_nil_iff.mpr fun y hy =>
        ho y (List.mem_cons_of_mem _ hy) fun e => hn.1 (e ▸ hy)]
    · rw [List.filterMap_cons_none (ho x List.mem_cons_self hx)]
      exact ih hn.2 ((List.mem_cons.mp ha).resolve_left (Ne.symm hx)) fun y hy => ho y (List.mem_cons_of_mem _ hy)

theorem startOrder_one {p : PanelPart} {q : PanelQueued} (h8 : k < 8) (hq : (p.region k).queued = some q) (hu : q.urgent = false)
    (ho : ∀ j, j ≠ k → (p.region j).queued = none) : p.startOrder = [k] := by
  have hone : (List.range 8).filterMap (fun k => (p.region k).queued.map fun x => (k, x)) = [(k, q)] :=
    filterMap_one List.nodup_range (List.mem_range.mpr h8) (by rw [hq]; rfl) fun j _ hj => by rw [ho j hj]; rfl
  unfold PanelPart.startOrder
  dsimp only
  rw [hone]
  simp [hu]

theorem busyLayers_none (h : ∀ j, (s.panel.region j).run = none) (hl : s.panel.lhRun = none) : s.busyLayers = [] := by
  unfold State.busyLayers
  rw [hl, List.flatMap_eq_nil_iff.mpr fun j _ => by rw [h j]; rfl]
  rfl

theorem tryStart_starts {q : PanelQueued} (h : ∀ j, (s.panel.region j).run = none) (hl : s.panel.lhRun = none)
    (hq : (s.panel.region k).queued = some q) : s.tryStart true k = s.startUpdate k q := by
  unfold State.tryStart
  rw [hq, h k]
  dsimp only
  rw [busyLayers_none h hl, if_neg (by simp), if_pos rfl]

/-- One update, not URGENT, is queued and nothing runs. -/
structure State.OneQueued (s : State) (k : Nat) (q : PanelQueued) : Prop where
  region : k < 8
  length : s.panel.regions.length = 8
  idle   : ∀ j, (s.panel.region j).run = none
  lhIdle : s.panel.lhRun = none
  status : s.panel.lighthouse = false
  starts : s.panelStarts = true
  queued : (s.panel.region k).queued = some q
  calm   : q.urgent = false
  others : ∀ j, j ≠ k → (s.panel.region j).queued = none

theorem startAll_starts {q : PanelQueued} (h : s.OneQueued k q) : s.startAll true = s.startUpdate k q := by
  have hurgent (j : Nat) : (s.panel.region j).queued.any PanelQueued.urgent = false := by
    by_cases hj : j = k
    · rw [hj, h.queued]
      exact h.calm
    · rw [h.others j hj]
      rfl
  unfold State.startAll
  rw [h.starts, h.status, urgent_none hurgent]
  dsimp only
  rw [Bool.not_true, if_neg Bool.false_ne_true, if_neg Bool.false_ne_true]
  refine (congrArg (fun l => l.foldl (State.tryStart · true ·) s) (startOrder_one h.region h.queued h.calm h.others)).trans ?_
  exact tryStart_starts h.idle h.lhIdle h.queued

theorem startUpdate_full {q : PanelQueued} (h8 : k < 8) (hlen : s.panel.regions.length = 8) (hf : q.full = true)
    (hc : regionCells (s.reg (Reg.REGION_CELLS k)) ≠ []) : OnlyIn [.nv, .log, .panel] [] s (s.startUpdate k q) ∧
      (s.startUpdate k q).panel.band = s.panel.band ∧ ∃ x, (s.startUpdate k q).panel.region k = { run := some x, queued := none } ∧
        x.phase = .main ∧ x.frame = 0 ∧ x.band = s.panel.band ∧ x.cells.map Prod.fst = regionCells (s.reg (Reg.REGION_CELLS k)) := by
  unfold State.startUpdate
  extract_lets p all set r p1
  have hset : set = all := if_pos hf
  have hmap : set.map Prod.fst = regionCells (s.reg (Reg.REGION_CELLS k)) := by
    rw [hset]
    exact List.map_map.trans (List.map_id _)
  have hne : ¬set.isEmpty = true := fun he => hc (by rw [← hmap, List.isEmpty_iff.mp he]; rfl)
  rw [if_neg hne]
  refine ⟨storeShown_only _ (by decide) (withPanel_only _ _ (by decide) .refl), ?_, r, ?_, rfl, rfl, rfl, hmap⟩
  · rw [storeShown_panel]
    rfl
  · rw [storeShown_panel]
    exact region_setRegion_self _ (hlen.symm ▸ h8) _

theorem panelStarts_temp (s : State) : s.panelTemp.panelStarts = s.panelStarts := by
  have hf : OnlyIn [.panel] [] s s.panelTemp := panelTemp_only _ (by decide) .refl
  obtain ⟨-, -, -, hlh, hrail⟩ := panelTemp_runs s
  have hreg (k : Nat) : s.panelTemp.reg k = s.reg k := hf.entries (by decide) k List.not_mem_nil
  unfold State.panelStarts State.wantLighthouse State.storm
  rw [hlh, hrail, hreg, hreg, hf.pieces .pfail (by decide) (by decide), hf.pieces .hm (by decide) (by decide),
    hf.pieces .keys (by decide) (by decide), hf.pieces .power (by decide) (by decide)]

theorem OneQueued.begun {q : PanelQueued} (h : s.OneQueued k q) : s.frameBegun.panelTemp.OneQueued k q := by
  obtain ⟨hr, -, hlhRun, hlh, -⟩ := panelTemp_runs s.frameBegun
  have hreg (j : Nat) : s.frameBegun.panelTemp.panel.region j = s.panel.region j := by
    unfold PanelPart.region
    rw [hr]
    rfl
  exact ⟨h.region, by rw [hr]; exact h.length, fun j => by rw [hreg]; exact h.idle j, by rw [hlhRun]; exact h.lhIdle,
    by rw [hlh]; exact h.status, by rw [panelStarts_temp]; exact h.starts, by rw [hreg]; exact h.queued, h.calm,
    fun j hj => by rw [hreg]; exact h.others j hj⟩

theorem driveFrame_starts {q : PanelQueued} (hlive : s.panelLive = true) (h : s.OneQueued k q) (hf : q.full = true)
    (hc : regionCells (s.reg (Reg.REGION_CELLS k)) ≠ []) : Does (.driveFrame true) s [.nv, .log, .panel, .freeCtr] [] fun t =>
      ∃ x, t.panel.region k = { run := some x, queued := none } ∧ x.phase = .main ∧ x.frame = 0 ∧ x.band = t.panel.band ∧
        x.cells.map Prod.fst = regionCells (s.reg (Reg.REGION_CELLS k)) := by
  have hu := OneQueued.begun h
  have hsu : OnlyIn [.panel] [] s s.frameBegun.panelTemp := panelTemp_only _ (by decide) (withPanel_only _ _ (by decide) .refl)
  generalize hv : s.frameBegun.panelTemp = u at hu hsu
  have hcells : u.reg (Reg.REGION_CELLS k) = s.reg (Reg.REGION_CELLS k) := hsu.entries (by decide) _ List.not_mem_nil
  obtain ⟨honly, hband, x, hx, hphase, hframe, hxband, hmap⟩ := startUpdate_full hu.region hu.length hf (by rw [hcells]; exact hc)
  obtain ⟨hr, -, hb⟩ := drivePanel_runs (u.startUpdate k q)
  refine ⟨(u.startUpdate k q).drivePanel, ?_, drivePanel_only _ (by decide) ((hsu.mono (by decide)).trans (honly.mono (by decide))),
    x, ?_, hphase, hframe, ?_, hmap.trans (congrArg regionCells hcells)⟩
  · rw [exec_driveFrame hlive, hv, advanceRuns_rest hu.idle hu.lhIdle, startAll_starts hu]
  · unfold PanelPart.region at hx ⊢
    rw [hr]
    exact hx
  · rw [hb, hband, hxband]

end Sys2Proof.Machine
end

section
/-!
PROOF. The panel's faults, modes and regions (R487, R488, R490, R493, R495 to R498).
-/
namespace Sys2Proof.Machine

variable {s t : State} {k : Nat}

/-! ### A panel without power or clock -/

theorem driveFrame_rests (h : s.panelLive = false) (ok : Bool) : Rests (.driveFrame ok) s :=
  congrArg Host.Outcome.next (if_neg (by rw [h]; exact Bool.false_ne_true))

theorem driveFault_rests (h : s.panelLive = false ∨ s.panel.busy = false) : Rests .driveFault s := by
  refine congrArg Host.Outcome.next (if_neg ?_)
  rcases h with h | h <;> simp [h]

theorem frameMemoryCheck_rests {ok : Bool} (h : s.panelLive = false ∨ ok = true) : Rests (.frameMemoryCheck ok) s := by
  refine congrArg Host.Outcome.next (if_neg ?_)
  rcases h with h | h <;> simp [h]

/-! ### Faults and the temperature's fallback -/

theorem stopDrive_busy (p : PanelPart) : p.stopDrive.busy = false := by
  have hany : (p.regions.map fun r => { r with run := none }).any (fun r : PanelRegion => r.run.isSome) = false := by
    rw [List.any_map, List.any_eq_false]
    exact fun r _ => Bool.false_ne_true
  unfold PanelPart.busy
  exact hany

theorem driveFault_does (hl : s.panelLive = true) (hb : s.panel.busy = true) : Does .driveFault s [.panel] [Reg.DRIVE_FAULTS] fun t =>
    t.panel.busy = false ∧ t.panel.driveFault = true ∧ t.panel.railBad = true ∧ t.panel.volt = 0 ∧ t.panel.driving = [] ∧
      t.panel.shown = s.panel.shown :=
  .of_only (execDriveFault_only s (by decide) .refl) (congrArg Host.Outcome.next (if_pos (by rw [hl, hb]; rfl)))
    ⟨stopDrive_busy _, rfl, rfl, rfl, rfl, rfl⟩

theorem exec_panelTempFallback {t0 : Nat} (h : s.panel.badSince = some t0) (hw : t0 + 10 * clkSec ≤ s.now) :
    exec .panelTempFallback s = .next (s.withPanel (if s.aiGood 43 then
      ({ s.panel with fallback := true } : PanelPart).takeTemp (s.aiValue 43) else { s.panel with fallback := true })) := by
  refine congrArg Host.Outcome.next ?_
  rw [h]
  exact if_pos (waited_iff.mpr hw)

theorem panelTempFallback_does {t0 : Nat} (h : s.panel.badSince = some t0) (hw : t0 + 10 * clkSec ≤ s.now) :
    Does .panelTempFallback s [.panel] [] fun t => t.panel.fallback = true ∧
      (s.aiGood 43 = false → t.panel = { s.panel with fallback := true }) ∧
      (s.aiGood 43 = true → t.panel.band = bandAfter (s.aiValue 43) s.panel.band) := by
  refine .of_only (execPanelTempFallback_only s (by decide) .refl) (exec_panelTempFallback h hw) ?_
  cases hg : s.aiGood 43 with
  | true => exact ⟨rfl, (nomatch ·), fun _ => rfl⟩
  | false => exact ⟨rfl, fun _ => rfl, (nomatch ·)⟩

theorem frameMemoryCheck_fails (hl : s.panelLive = true) : Does (.frameMemoryCheck false) s [.panel] [Reg.FRAME_CRC_FAILS] fun t =>
    t.panel.frameFault = true ∧ t.panel.requests = List.replicate 288 0 ∧ (∀ r ∈ t.panel.regions, r.queued = none) ∧
      t.panel.shown = shownOf (s.nv.stored Reg.PANEL_SHOWN) := by
  refine .of_only (execFrameMemoryCheck_only false s (by decide) .refl)
    (congrArg Host.Outcome.next (if_pos (by rw [hl]; rfl))) ⟨rfl, rfl, fun r hr => ?_, rfl⟩
  obtain ⟨r0, -, rfl⟩ := List.mem_map.mp hr
  rfl

/-! ### Modes -/

theorem stormPatternToggle_does (h : s.storm = true) (hp : s.reg Reg.STORM_PANEL = 1) : Does .stormPatternToggle s [.panel] [] fun t =>
    t.panel = { s.panel with pattern := true, patternOn := !s.panel.patternOn } :=
  .of_only (execStormPatternToggle_only s (by decide) .refl) (congrArg Host.Outcome.next (if_pos (by rw [h, hp]; rfl))) rfl

theorem stormPatternToggle_rests (h : s.storm = false ∨ s.reg Reg.STORM_PANEL ≠ 1) : Rests .stormPatternToggle s := by
  refine congrArg Host.Outcome.next (if_neg ?_)
  rcases h with h | h <;> simp [h]

theorem panelModeChange_does (h : s.panel.busy = false) : Does .panelModeChange s [.panel] [] fun t =>
    t.panel = { s.panel with lighthouse := s.wantLighthouse } :=
  .of_only (execPanelModeChange_only s (by decide) .refl) (congrArg Host.Outcome.next (if_neg (by rw [h]; exact Bool.false_ne_true))) rfl

/-! ### `REGION_UPDATE` -/

section Update
variable {v : Nat}

/-- The update that a value of `REGION_UPDATE` queues. -/
def State.regionQueued (s : State) (v : Nat) : State :=
  let k := field v 0 3
  let r := s.panel.region k
  s.withPanel { s.panel.setRegion k { r with queued := some { urgent := bitAt v 7, full := bitAt v 6, order := s.panel.order } } with
    order := s.panel.order + 1 }

theorem regionUpdateRule_range (h : field v 3 3 ≠ 0 ∨ s.reg (Reg.REGION_CELLS (field v 0 3)) = 0) : regionUpdateRule s v = (.range, s) :=
  if_pos h

theorem regionUpdateRule_ok (h : field v 3 3 = 0) (hc : s.reg (Reg.REGION_CELLS (field v 0 3)) ≠ 0) : regionUpdateRule s v =
    (.ok, if (s.panel.region (field v 0 3)).queued.isSome then (s.regionQueued v).incSat Reg.QUEUE_REPLACED else s.regionQueued v) :=
  if_neg (not_or.mpr ⟨fun hn => hn h, hc⟩)

theorem regionUpdateWrite_obeys {w : Wr} (ha : s.accepts w Reg.REGION_UPDATE) (hk : field w.val 0 3 < s.panel.regions.length)
    (h : field w.val 3 3 = 0) (hc : s.reg (Reg.REGION_CELLS (field w.val 0 3)) ≠ 0) :
    Obeys (.regionUpdateWrite w) s w Reg.REGION_UPDATE [.panel] [Reg.QUEUE_REPLACED] fun t =>
      t.panel.region (field w.val 0 3) = { s.panel.region (field w.val 0 3) with
        queued := some { urgent := bitAt w.val 7, full := bitAt w.val 6, order := s.panel.order } } ∧
      (∀ k, k ≠ field w.val 0 3 → t.panel.region k = s.panel.region k) ∧ t.panel.order = s.panel.order + 1 ∧
      ((s.panel.region (field w.val 0 3)).queued = none → t.reg Reg.QUEUE_REPLACED = s.reg Reg.QUEUE_REPLACED) := by
  refine Obeys.rule _ rfl ha (regionUpdateRule_ok (s := s.taken _) h hc) ?_ (by decide) fun m => ?_
  · exact OnlyIn.ite (incSat_only _ _ (by decide) (withPanel_only _ _ (by decide) .refl)) (withPanel_only _ _ (by decide) .refl)
  · generalize hu : s.taken (wrRequest w Reg.REGION_UPDATE) = u
    have hsu : OnlyIn [.klp] [] s u := by rw [← hu]; exact taken_only _
    have hp : u.panel = s.panel := hsu.pieces .panel (by decide) (by decide)
    have hr : u.reg Reg.QUEUE_REPLACED = s.reg Reg.QUEUE_REPLACED := hsu.entries (by decide) _ List.not_mem_nil
    have hpanel : (if (u.panel.region (field w.val 0 3)).queued.isSome then (u.regionQueued w.val).incSat Reg.QUEUE_REPLACED
        else u.regionQueued w.val).panel = { s.panel.setRegion (field w.val 0 3) { s.panel.region (field w.val 0 3) with
          queued := some { urgent := bitAt w.val 7, full := bitAt w.val 6, order := s.panel.order } } with
            order := s.panel.order + 1 } := by
      rw [← hp]
      split <;> rfl
    refine ⟨?_, fun k hk => ?_, (congrArg PanelPart.order hpanel :), fun hq => ?_⟩
    · exact (congrArg (fun p : PanelPart => p.region (field w.val 0 3)) hpanel).trans (region_setRegion_self _ hk _)
    · exact (congrArg (fun p : PanelPart => p.region k) hpanel).trans (region_setRegion_ne _ hk _)
    · rw [hp, hq]
      exact hr

end Update

/-! ### `REGION_CELLS` -/

section Cells
variable {v : Nat}

theorem regionCellsRule_busy (h : (s.panel.region k).run ≠ none ∨ (s.panel.region k).queued ≠ none) :
    regionCellsRule k s v = (.busy, s) :=
  if_pos (by simpa only [Option.isSome_iff_ne_none] using h)

theorem regionCellsRule_free (hr : (s.panel.region k).run = none) (hq : (s.panel.region k).queued = none) : regionCellsRule k s v =
    if v = 0 then s.putEntry (Reg.REGION_CELLS k) v
    else if bitAt v 31 ∨ field v 28 3 = 0 ∨ field v 4 24 = 0 ∨ field v 0 4 = 0 ∨ s.cellsFree k v = false then (.range, s)
    else s.putEntry (Reg.REGION_CELLS k) v :=
  if_neg (by rw [hr, hq]; simp)

theorem regionCellsRule_takes (hr : (s.panel.region k).run = none) (hq : (s.panel.region k).queued = none)
    (h : v = 0 ∨ (bitAt v 31 = false ∧ field v 28 3 ≠ 0 ∧ field v 4 24 ≠ 0 ∧ field v 0 4 ≠ 0 ∧ s.cellsFree k v = true)) :
    regionCellsRule k s v = s.putEntry (Reg.REGION_CELLS k) v := by
  rw [regionCellsRule_free hr hq]
  rcases h with h | ⟨h31, h28, h4, h0, hf⟩
  · exact if_pos h
  · rw [if_neg (c := bitAt v 31 = true ∨ _) (by simp [h31, h28, h4, h0, hf]), ite_self]

end Cells

/-- Settles O57: a drive frame moves every run on by one frame and then starts what is queued. -/
theorem panel : Obligations.Panel := by
  refine ⟨⟨fun ok s h => ⟨driveFrame_rests h ok, driveFault_rests (.inl h), frameMemoryCheck_rests (.inl h)⟩,
    fun ok k r s hl h8 hlen hrun hq hr => (driveFrame_moves hl h8 hlen hrun hq hr ok).imp fun t ⟨hp, x, hx, hm⟩ =>
      ⟨hp, x, hx, hm.frame, hm.cells, hm.pass, hm.phase⟩,
    fun k q s hl h8 hlen hrun hlh hmode hst hq hu hf ho hc => driveFrame_starts hl ⟨h8, hlen, hrun, hlh, hmode, hst, hq, hu, ho⟩ hf hc,
    fun s hl => ⟨driveFault_does hl, fun hb => driveFault_rests (.inr hb)⟩,
    fun s => .of_only (execDriveRailRecovered_only s (by decide) .refl) rfl rfl,
    fun t0 s h hw => panelTempFallback_does h hw,
    fun s hl => ⟨frameMemoryCheck_rests (.inr rfl), frameMemoryCheck_fails hl⟩,
    fun s => ⟨fun hb => congrArg Host.Outcome.next (if_pos hb), panelModeChange_does, stormPatternToggle_does, stormPatternToggle_rests⟩⟩,
    fun s w ha hk => ⟨fun h => ?_, regionUpdateWrite_obeys ha hk⟩,
    fun n s w hn ha => ⟨fun h => ?_, fun hr hq => ⟨fun h0 h => ?_, fun h hs => ?_⟩⟩⟩
  · exact .rule rfl ha (regionUpdateRule_range (s := s.taken _) h)
  · exact .rule rfl ha (regionCellsRule_busy (s := s.taken _) h)
  · exact .rule rfl ha ((regionCellsRule_free (s := s.taken _) hr hq).trans ((if_neg h0).trans (if_pos h)))
  · exact .rule rfl ha hs (regionCellsRule_takes (s := s.taken _) hr hq h)

end Sys2Proof.Machine
end
